-- ==== Sys2Proof/Word.lean ====
section
/-!
DEFINITION. Words, bytes and sparse tables: the plainest data types of the model.
-/

namespace Sys2Proof

/-- A byte of a frame, a record or an image. -/
abbrev Byte := BitVec 8

/-- A 32-bit register, descriptor or record word (R16, R19). -/
abbrev Word := BitVec 32

/-- A sparse table in canonical form: keys strictly rising and no entry equal to what an unlisted key
reads as. The operations over it, and the default of each table, are in Machine/Tab.lean. -/
abbrev Tab (α : Type) := List (Nat × α)

/-- Four 32-bit words: an allocation entry (Table 5-1) or a downstream queue context (Table 8-3). -/
structure W4 where
  w0 : Word
  w1 : Word
  w2 : Word
  w3 : Word
deriving DecidableEq, Repr

/-- Six 32-bit words: a ring context (Table 10-2). -/
structure W6 where
  w0 : Word
  w1 : Word
  w2 : Word
  w3 : Word
  w4 : Word
  w5 : Word
deriving DecidableEq, Repr

/-- Four words, all zero. -/
def W4.zero : W4 := ⟨0, 0, 0, 0⟩

/-- Six words, all zero: the reset value of every ring context (R294). -/
def W6.zero : W6 := ⟨0, 0, 0, 0, 0, 0⟩

end Sys2Proof
end

