-- ==== Sys2Proof/Edge.lean ====
section
/-!
DEFINITION. The types of the operands that commands carry: what crosses the block's edge with an event.
-/

namespace Sys2Proof

/-- The five ring kinds with the codes of R539: send 0, fill 1, completion queue 2, command 3, notice 4. -/
inductive RingKind where
  | send | fill | cq | cmd | ntc
deriving DecidableEq, Repr

/-- The three table windows with RD and WR commands (R523): CLS_WIN, QBM_Q, CHN_ALLOC. -/
inductive Win where
  | cls | qbm | alloc
deriving DecidableEq, Repr

/-- CPQ_RSP_ST of a response (Table 9-2). -/
inductive CpqSt where
  | ok | tagFail | keyChanged | engineErr
deriving DecidableEq, Repr

/-- An entry of a Skim record that a word may be lost of (Table 12-4). -/
inductive SkimPart where
  | control
  | tree (t : Nat)              -- upstream ingress
  | port (p : Nat)              -- downstream ingress
  | ring (n : Nat)              -- host ingress
  | egress (t : Nat)
  | queue (q : Nat)
  | uplink (p : Nat)
  | churn (t hnd : Nat)
deriving DecidableEq, Repr

/-- A memory in which a single-bit error has been corrected, and counted where the spec counts it (R235, R263, Table 15-3). -/
inductive Corrected where
  | buffer (group : Fin 17)     -- BUF_CE
  | table (up : Bool)           -- TABLE_CE
  | slice (i : Fin 9)           -- SLC MEM_CE
  | counter                     -- CNT MEM_CE
  | deepFree                    -- FREE_CE
  | prt                         -- one copy of a partition-table word, corrected from the other (R502)
deriving DecidableEq, Repr

/-- An error of a memory word that Table 13-4 lists and that no row of the command table carries. -/
inductive MemErr where
  | corrected (c : Corrected)
  | prt (word : BitVec 16)                                     -- both copies of the word at this offset of the PRT page (R502)
  | channel (ch : Byte)                                        -- holding register or tag state of a DMA channel
  | ring (kind : RingKind) (n : BitVec 11)                     -- context or index word of a ring
  | churnTable (i : Fin 9) (mem : Byte) (word : BitVec 24)     -- allocation entry, estimator or histogram
  | churnResidue (i : Fin 9) (tree : BitVec 6)
  | sliceMem (i : Fin 9) (mem : Byte) (word : BitVec 24)       -- cause 1 of Table 12-5
  | sliceResidue (i : Fin 9)                                   -- cause 2
  | terminal (tree : BitVec 6) (tid : BitVec 10)
  | keySlot (n : BitVec 17)
  | staging (tree : BitVec 6) (blk : BitVec 17)
  | burst (tree : BitVec 6) (utick : BitVec 48) (blk : BitVec 17)
  | token (q : BitVec 18) (pos : BitVec 16)                    -- the token at a place of a queue
  | deepFree (entry : BitVec 12)                               -- cached free-list entry
  | counter (inst : BitVec 7) (num : BitVec 4)                 -- a selected counter
  | object (idx : BitVec 22)                                   -- an object counter, by the bits of CNT_OBJ_IDX
  | copyRow (cell : BitVec 18)                                 -- a row that the copy engine reads, by the cell it holds (R267)
  | skim (failed : Fin 9) (part : SkimPart) (word : Word)      -- a word of the record that is loaded (R385)
deriving DecidableEq, Repr

/-- What two copies or a check code disagree on: a duplicated control state machine (Table 13-4, DUP), or a memory word. -/
inductive DupUnit where
  | slice (s : Fin 9) | tree (t : BitVec 6) | port (p : BitVec 4)
  | mem (e : MemErr)
deriving DecidableEq, Repr

/-- A transaction of the host memory port: its channel and its tag (R320). -/
structure HmpTag where
  chan : Fin 2
  tag : BitVec 9
deriving DecidableEq, Repr

/-- What deep memory answers to a read (R261, R262): a read that fails, or bytes whose end-to-end CRC fails. -/
structure DeepBack where
  err : Bool
  crc : Bool
deriving DecidableEq, Repr

/-- What the scrubber found in the row it read in one bank group (R265). -/
inductive ScrubKind where
  | correctable (race : Bool)   -- a traffic write to the row fell between the read and the write-back
  | uncorrectable
  | linkCorrectable             -- a single-bit error in a copy of the cell's link word
  | linkCopy                    -- one copy of the link word fails, the other reads clean
  | linkBoth                    -- both copies fail
deriving DecidableEq, Repr

/-- One finding of a scrub read: physical group, cell of the row, kind (R265). -/
structure ScrubHit where
  group : Fin 17
  cell : BitVec 14
  kind : ScrubKind
deriving DecidableEq, Repr

/-- What memory self-test and soft repair found at start-up (R410, R484, R486). -/
structure SelfTest where
  memFail : Option (BitVec 8 × BitVec 24)   -- memory and word with more failures than spares
  badSlices : List (Fin 9)                  -- slices that repair cannot cure
  badGroups : List (Fin 17)                 -- bank groups that repair cannot cure
  softRep : BitVec 16                       -- soft repairs made (Table 16-3)
  sparePass : Bool                          -- outcome of the spare's start-up test (R484)
deriving DecidableEq, Repr

/-- One upstream block on TFE_US_* (Table 3-14): data, first wire byte in [127:120], and TFE_US_ERR. -/
structure UsBlock where
  data : BitVec 128
  err : Bool
deriving DecidableEq, Repr

/-- Phases of a transmission: UPE_TX_PH in the cycle in which the SOF word is presented, and in the cycle before (R349, R357). -/
structure TxPh where
  sof : BitVec 6
  before : BitVec 6
deriving DecidableEq, Repr

/-- How the egress supplies a frame that an uplink port starts (R178, R264, R397). -/
inductive TxFeed where
  | whole        -- every word in time and clean
  | underrun     -- the next word was missing (R178)
  | cellUe       -- a cell read uncorrectable (R264)
  | linkUe       -- both copies of a link word failed (R263)
  | e2e          -- the end-to-end CRC failed with clean cells (R387 cause 4, R397)
  | sliceFault     -- the home slice failed while the frame was in transmission (R395)
  | linkFall       -- the link fell while the frame was in transmission (R198)
deriving DecidableEq, Repr

/-- An image record of 16 bytes (Table 16-4). -/
structure ImgRec where
  w0 : Word
  index : Word
  data : Word
  mask : Word
deriving DecidableEq, Repr

end Sys2Proof
end

