-- ==== Sys2Proof/Syntax.lean ====
section
/-!
DEFINITION. The commands of the block: one constructor for each row of spec/opcode_table.json, in the
table's order, with the row's operands. `part` is REG_PART of a register access, or the partition whose
command ring carries the command; `be` is REG_BE; `data` is REG_WDATA. What the hardware finds by itself in a row's step (an error of
a memory, a lane slot that does not come: `full`) is an operand of the row (log entries 8 and 11).
-/

namespace Sys2Proof

/-- The commands and events of spec/opcode_table.json. -/
inductive Instr where
  | blockReset
  | glbRstArm (part : BitVec 6)
  | armingExpire
  | glbRstBlock (part : BitVec 6)
  | fuseWordRead (data : Word)
  | startupPhaseEnd (st : SelfTest)
  | partitionReset (part : BitVec 6) (data : Word)
  | partitionTableWrite (part : BitVec 6) (addr : BitVec 24) (be : BitVec 4) (data : Word)
  | registerWrite (part : BitVec 6) (addr : BitVec 24) (be : BitVec 4) (data : Word)
  | loReadCapture (part : BitVec 6) (addr : BitVec 24) (be : BitVec 4)
  | hiWriteCommit (part : BitVec 6) (addr : BitVec 24) (be : BitVec 4) (data : Word)
  | readClearRegister (part : BitVec 6) (addr : BitVec 24) (be : BitVec 4)
  | windowRd (part : BitVec 6) (win : Win)
  | windowWr (part : BitVec 6) (win : Win)
  | beatBoundary
  | selectionCommit (tree : BitVec 6)
  | mapCountReset (tree : BitVec 6)
  | reportCutoff
  | tmmAckTimeout (tree : BitVec 6) (seq : Byte)
  | tmmPendingQueued (tree : BitVec 6)
  | churnPass1 (tree : BitVec 6)
  | churnPass2 (tree : BitVec 6)
  | passLate (tree : BitVec 6)
  | timeProjection
  | dsBlockRequest (tree : BitVec 6) (sot : Bool) (ph : BitVec 6)
  | upstreamBurst (tree : BitVec 6) (utick : BitVec 48) (sob : Int) (ph : BitVec 6) (blk : BitVec 17) (blocks : List UsBlock)
  | missedBurst (tree : BitVec 6) (utick : BitVec 48) (blk : BitVec 17)
  | reassemblyTimeout (tree : BitVec 6) (hnd : BitVec 12)
  | heardEntryExpire (tree : BitVec 6) (serial : BitVec 64)
  | lostHoldExpire (tree : BitVec 6) (tid : BitVec 10)
  | terminalIdFree (tree : BitVec 6) (tid : BitVec 10)
  | pswRequest (tree : BitVec 6) (code : BitVec 3) (swAt : BitVec 8)
  | treeEnableWrite (part : BitVec 6) (tree : BitVec 6) (be : BitVec 4) (data : Word)
  | prelistSet (part : BitVec 6) (tree : BitVec 6)
  | prelistClr (part : BitVec 6) (tree : BitVec 6)
  | uplinkFrameReceive (port : BitVec 4) (bytes : List Byte) (rxErr full : Bool) (ph : BitVec 6) (tableUe : Option Word)
  | pauseReceive (port : BitVec 4) (bytes : List Byte) (rxErr : Bool)
  | pfcReceive (port : BitVec 4) (bytes : List Byte) (rxErr : Bool)
  | pauseTimerExpire (port : BitVec 4) (prio : BitVec 3)
  | fcResend (port : BitVec 4)
  | linkDown (port : BitVec 4)
  | linkUp (port : BitVec 4)
  | lagRejoin (part : BitVec 6) (port : BitVec 4)
  | portEnableWrite (part : BitVec 6) (port : BitVec 4) (be : BitVec 4) (data : Word)
  | uplinkFrameTransmit (port : BitVec 4) (ph : TxPh) (feed : TxFeed)
  | cipherResponse (chan : Fin 18) (seq : Byte) (st : CpqSt) (data : List Byte) (tableUe : Option Word)
  | cipherRequestLost (chan : Fin 18) (seq : Byte)
  | keyWriteAck
  | keyTmo
  | keyCommandResume (part : BitVec 6)
  | deepWriteAck (frame : Nat) (err : Bool)
  | deepReadReturn (frame : Nat) (back : DeepBack)
  | deepReadLate (frame : Nat)
  | deepBudgetWrite (part : BitVec 6) (tree : BitVec 6) (be : BitVec 4) (data : Word)
  | scrubRead (hits : List ScrubHit)
  | retireGo (part : BitVec 6) (be : BitVec 4) (data : Word)
  | retirementDone
  | ringDoorbell (part : BitVec 6) (kind : RingKind) (ring : BitVec 11)
  | consumerDoorbell (part : BitVec 6) (kind : RingKind) (ring : BitVec 11) (data : Word)
  | descriptorFetchDone (chan : Fin 2) (tag : BitVec 9) (words : List Word) (err : Bool)
  | chainFetchDone (acc : HmpTag) (words : List Word) (err : Bool)
  | sendDataFetchDone (acc : HmpTag) (bytes : List Byte) (err : Bool) (tableUe : Option Word)
  | sendFrameStart (ring : BitVec 11)
  | fillDeliveryStart (ring : BitVec 11)
  | hostWriteAck (chan : Fin 2) (tag : BitVec 9) (err : Bool)
  | hostAccessTimeout (write : Bool) (chan : Fin 2) (tag : BitVec 9)
  | fillRecordIssue (ring : BitVec 11)
  | sendRecordIssue (ring : BitVec 11)
  | ringDisable (part : BitVec 6) (kind : RingKind) (reg : BitVec 6) (data : Word)
  | ringContextWrite (part : BitVec 6) (kind : RingKind) (ring : BitVec 11) (word : Fin 6) (data : Word)
  | channelConfigWrite (part : BitVec 6) (chan : Byte) (data : Word)
  | ringSet (part : BitVec 6) (kind : BitVec 2) (ring : BitVec 11) (ctx : W6)
  | ringQuiesce (part : BitVec 6) (kind : BitVec 2) (ring : BitVec 11)
  | ringQuiesceDone (kind : RingKind) (ring : BitVec 11)
  | ringResume (part : BitVec 6) (kind : BitVec 2) (ring : BitVec 11)
  | allocSet (part : BitVec 6) (tree : BitVec 6) (hnd : BitVec 12) (entry : W4)
  | queueSet (part : BitVec 6) (tree : BitVec 6) (queue : BitVec 11) (ctx : W4)
  | admitSerial (part : BitVec 6) (tree : BitVec 6) (tid : BitVec 10) (serial : BitVec 64)
  | activate (part : BitVec 6) (tree : BitVec 6) (tid : BitVec 10)
  | quiet (part : BitVec 6) (tree : BitVec 6) (tid : BitVec 10)
  | resume (part : BitVec 6) (tree : BitVec 6) (tid : BitVec 10)
  | release (part : BitVec 6) (tree : BitVec 6) (tid : BitVec 10)
  | disable (part : BitVec 6) (tree : BitVec 6) (tid : BitVec 10)
  | rerange (part : BitVec 6) (tree : BitVec 6) (tid : BitVec 10)
  | discNow (part : BitVec 6) (tree : BitVec 6)
  | tmmSend (part : BitVec 6) (tree : BitVec 6) (tid : BitVec 10) (addr : BitVec 52)
  | tmmCommandQueued (part : BitVec 6)
  | keyLoad (part : BitVec 6) (slot : BitVec 17) (klen : Bool) (addr : BitVec 52)
  | keyErase (part : BitVec 6) (slot : BitVec 17)
  | keyLut (part : BitVec 6) (slot : BitVec 17) (tick : BitVec 48)
  | keySwitch (part : BitVec 6) (tree : BitVec 6) (tid : BitVec 10) (ksel : BitVec 2)
  | emAdd (part : BitVec 6) (dir : Bool) (addr : BitVec 52)
  | emMod (part : BitVec 6) (dir : Bool) (addr : BitVec 52)
  | emDel (part : BitVec 6) (dir : Bool) (addr : BitVec 52)
  | clsSwap (part : BitVec 6)
  | clsPageSync
  | tableUeRewrite (cap : Word) (clean : Bool)
  | overlayApply (part : BitVec 6) (img : BitVec 5) (addr : BitVec 52) (count : BitVec 21)
  | imageReadDone (acc : HmpTag) (recs : List ImgRec) (err : Bool)
  | timStart (part : BitVec 6)
  | timeEngineStart
  | timRestart (part : BitVec 6)
  | stepGo (part : BitVec 6)
  | timHold (part : BitVec 6)
  | holdClr (part : BitVec 6)
  | holdWatchdogExpire
  | traceLost
  | timIncWrite (part : BitVec 6) (be : BitVec 4) (data : Word)
  | timSlewWrite (part : BitVec 6) (be : BitVec 4) (data : Word)
  | slewEnd
  | timEpochRead (part : BitVec 6)
  | ppsInEdge
  | ppsInLoss
  | ppsOutEdge
  | ppsOutEnd
  | todOutSend
  | todInMessage (bytes : List Byte)
  | sliceWatchdogExpire (slice : Fin 9)
  | tokenWithdrawalDone (slice : Fin 9)
  | handoverReplayStart
  | handoverDone
  | rotationDue
  | skmRotNow (part : BitVec 6)
  | rotationShadowStart
  | rotationAbandon
  | restoringRotation
  | selftestPassEnd (slice : Fin 9) (pass : Bool)
  | skmCtlRepair (part : BitVec 6) (be : BitVec 4) (data : Word)
  | pwrReq (part : BitVec 6) (be : BitVec 4) (data : Word)
  | entryHandshakeDone (dom : BitVec 7)
  | handshakeDelayLimit (dom : BitVec 7)
  | entryAbortPoint (dom : BitVec 7)
  | powerAckRise (dom : BitVec 7)
  | powerEntryTimeout (dom : BitVec 7)
  | powerExitStart (dom : BitVec 7)
  | powerAckFall (dom : BitVec 7)
  | powerExitDone (dom : BitVec 7)
  | powerExitTimeout (dom : BitVec 7)
  | sdWake (tree : BitVec 6)
  | fltStatClear (part : BitVec 6) (inst : BitVec 7) (be : BitVec 4) (data : Word)
  | fltForce (part : BitVec 6) (inst : BitVec 7) (be : BitVec 4) (data : Word)
  | fltMaskWrite (part : BitVec 6) (inst : BitVec 7) (be : BitVec 4) (data : Word)
  | fltVecWrite (part : BitVec 6) (inst : BitVec 7) (be : BitVec 4) (data : Word)
  | faultPulseEnd
  | faultPinRel (part : BitVec 6)
  | faultPinRecoveryEnd
  | cntSelWrite (part : BitVec 6) (inst : BitVec 7) (num : BitVec 4) (be : BitVec 4) (data : Word)
  | cntValWrite (part : BitVec 6) (inst : BitVec 7) (num : BitVec 4) (be : BitVec 4) (data : Word)
  | cntClr (part : BitVec 6) (inst : BitVec 7) (be : BitVec 4) (data : Word)
  | cntSmpCiWrite (part : BitVec 6) (be : BitVec 4) (data : Word)
  | cntSlotSnap (part : BitVec 6) (be : BitVec 4) (data : Word)
  | mrListAccess (part : BitVec 6) (write : Bool) (be : BitVec 4) (data : Word)
  | mrSwap (part : BitVec 6)
  | milkRoundStart
  | milkRoundDone (err : Bool)
  | mrWriteTimeout
  | vqProbe (part : BitVec 6) (num : BitVec 2)
  | duplicateStateMismatch (where_ : DupUnit)
  | tripletVoteDisagree (group : Word)
  | commandOperandRead (acc : HmpTag) (bytes : List Byte) (err : Bool)
deriving DecidableEq, Repr

end Sys2Proof
end

