-- ==== Sys2Proof/Config.lean ====
section
/-!
DEFINITION. What the spec leaves open: the free values. Each is a constant with no body, so no proof can
see what it is (log entry 3).
-/

namespace Sys2Proof

/-- A free value: the n-th value that the spec leaves open in a run; State.fresh counts n. -/
opaque Config.freeValue : Nat → Nat

/-- The end-to-end CRC of a frame's bytes: the spec names no polynomial (log entry 3). -/
opaque Config.e2eCrc : List Byte → Word

/-- Whether the slew term of a cycle, in 2^-48 ns, is rounded up where the exact quotient is no whole number of
units (log entry 3). Operands: increment, MAXPPB. -/
opaque Config.slewRound : Nat → Nat → Bool

/-- Whether an exact-match key can be placed by relocation in a table that already holds `n` entries of its
direction (log entry 3); used only where the spec promises neither success nor failure. -/
opaque Config.emPlace : List Byte → Nat → Bool

/-- Whether the lookup of an exact-match key reads a word of the table: where a key's two buckets lie is not said (log entry 3).
Operands: direction, profile and key bytes; the number of the entry that holds the word. -/
opaque Config.emReads : List Byte → Nat → Bool

/-- What the fuse image records: the spec names its contents and not their places (log entry 3). Operands: the 1,024 words
in order, and the field: 0 lot, 1 wafer, 2 die column, 3 die row, 4 issue, 5 defect bits of the slices, 6 defect bits of
the bank groups, 7 how many row and column substitutions it holds. -/
opaque Config.fuseField : List Word → Nat → Nat

/-- The burst map of a tree of another block, as its framer carries it to terminals: the spec names no signal that brings it to a port
that plays terminals (log entry 3). Operands: tree, span member ID, tick; entries as Table 3-9. -/
opaque Config.peerMap : Nat → Nat → Nat → List (BitVec 64)

/-- The next state of the 5-bit LFSR of an emulated terminal: the spec names no feedback (log entry 3). -/
opaque Config.lfsr5 : BitVec 5 → BitVec 5

end Sys2Proof
end

