-- ==== Sys2Proof/Machine/Bits.lean ====
section
/-!
DEFINITION. Fields of words, byte strings and the cyclic redundancy checks.
-/

namespace Sys2Proof.Machine

/-- Field of `n` bits at bit `lo` of a word. -/
def fld (w : Word) (lo n : Nat) : Nat := w.toNat / 2 ^ lo % 2 ^ n

/-- One bit of a word. -/
def bit (w : Word) (i : Nat) : Bool := w.toNat.testBit i

/-- A word with the bits of `mask` taken from `data`. -/
def mergeW (old mask data : Word) : Word := (old &&& ~~~mask) ||| (data &&& mask)

/-- A word from a number, modulo 2^32. -/
def w32 (n : Nat) : Word := BitVec.ofNat 32 n

/-- A Bool as a number. -/
def b2n (b : Bool) : Nat := if b then 1 else 0

/-- The two's-complement value of the low `n` bits of `v`. -/
def sext (n v : Nat) : Int :=
  let m := v % 2 ^ n
  if m < 2 ^ (n - 1) then (m : Int) else (m : Int) - (2 ^ n : Nat)

/-- The low `n` bits of an integer in two's complement. -/
def toTwos (n : Nat) (i : Int) : Nat := (i % ((2 ^ n : Nat) : Int)).toNat

/-- Clamp to a range. -/
def clampI (lo hi x : Int) : Int := if x < lo then lo else if hi < x then hi else x

/-- Nearest integer to p / q for positive q, halves away from zero. -/
def roundDiv (p : Int) (q : Nat) : Int :=
  if p < 0 then -((((-p).toNat * 2 + q) / (2 * q) : Nat) : Int) else ((p.toNat * 2 + q) / (2 * q) : Nat)

/-- Ceiling of a / b. -/
def ceilDiv (a b : Nat) : Nat := (a + b - 1) / b

/-- `n` bytes of a number, most significant first. -/
def beBytes : Nat → Nat → List Byte
  | 0, _ => []
  | n + 1, v => BitVec.ofNat 8 (v / 256 ^ n) :: beBytes n v

/-- `n` bytes of a number, least significant first. -/
def leBytes : Nat → Nat → List Byte
  | 0, _ => []
  | n + 1, v => BitVec.ofNat 8 v :: leBytes n (v / 256)

/-- The number that bytes spell, most significant first. -/
def ofBe (l : List Byte) : Nat := l.foldl (fun a b => 256 * a + b.toNat) 0

/-- The number that bytes spell, least significant first. -/
def ofLe : List Byte → Nat
  | [] => 0
  | b :: l => b.toNat + 256 * ofLe l

/-- `n` bytes from offset `o`. -/
def sub (l : List Byte) (o n : Nat) : List Byte := (l.drop o).take n

/-- Big-endian number of `n` bytes at offset `o`; bytes past the end read 0. -/
def beAt (l : List Byte) (o n : Nat) : Nat :=
  let s := sub l o n
  ofBe s * 256 ^ (n - s.length)

/-- Byte at offset `o`, 0 past the end. -/
def byteAt (l : List Byte) (o : Nat) : Nat := ((l.drop o).headD 0).toNat

/-- Replace the bytes at offset `o` with `b`, where they lie inside `l`. -/
def patch (l : List Byte) (o : Nat) (b : List Byte) : List Byte := l.take o ++ b ++ l.drop (o + b.length)

/-- The little-endian words of a byte string (R16); a short last word is padded with zeros. -/
def leWords : Nat → List Byte → List Word
  | 0, _ => []
  | n + 1, l => w32 (ofLe (l.take 4)) :: leWords n (l.drop 4)

/-- Bytes of words, little-endian. -/
def wordBytes (l : List Word) : List Byte := l.flatMap (fun w => leBytes 4 w.toNat)

/-- One bit into a most-significant-first CRC register of `n` bits. -/
def crcBit (n poly r : Nat) (b : Bool) : Nat :=
  let top := r.testBit (n - 1) != b
  let r' := (r * 2) % 2 ^ n
  if top then Nat.xor r' poly else r'

/-- CRC over bytes, most significant bit of each byte first. -/
def crcMsb (n poly init : Nat) (l : List Byte) : Nat :=
  l.foldl (fun r b => [7, 6, 5, 4, 3, 2, 1, 0].foldl (fun r i => crcBit n poly r (b.toNat.testBit i)) r) init

/-- One bit into a reflected 32-bit CRC register. -/
def crcRefBit (poly r : Nat) (b : Bool) : Nat :=
  let low := r.testBit 0 != b
  if low then Nat.xor (r / 2) poly else r / 2

/-- Reflected CRC-32 over bytes, least significant bit of each byte first, from `init`, finally complemented. -/
def crcRef (poly init : Nat) (l : List Byte) : Nat :=
  Nat.xor 0xFFFFFFFF
    (l.foldl (fun r b => [0, 1, 2, 3, 4, 5, 6, 7].foldl (fun r i => crcRefBit poly r (b.toNat.testBit i)) r) init)

/-- The frame check sequence of IEEE 802.3 over a frame's bytes, as its four wire bytes. -/
def fcsOf (l : List Byte) : List Byte := leBytes 4 (crcRef 0xEDB88320 0xFFFFFFFF l)

/-- CRC-32C (R227, polynomial 0x1EDC_6F41, bit-reflected) over bytes, the register starting at all ones XOR `seed`. -/
def crc32c (seed : Word) (l : List Byte) : Nat := crcRef 0x82F63B78 (Nat.xor 0xFFFFFFFF seed.toNat) l

/-- The CRC-16 of HTP headers and messages (R67). -/
def crc16 (l : List Byte) : Nat := crcMsb 16 0x1021 0xFFFF l

/-- The complement of a frame check sequence: the stomped FCS (R166). -/
def stompOf (l : List Byte) : List Byte := (fcsOf l).map (fun b => ~~~b)

end Sys2Proof.Machine
end

