-- ==== Sys2Proof/Machine/RegMap.lean ====
section
/-!
DEFINITION. The register map (18_register_map.md): for every offset of the window that holds a software-written value,
its reset value, its writable bits and the point at which a write takes effect; and the access class of every
offset (Table 16-7).
-/

namespace Sys2Proof.Machine

/-- When a register write takes effect. -/
inductive Eff where
  | now      -- in the cycle after the write
  | tick     -- at the next tick boundary (R521)
  | cut      -- at the next report cut-off (R154)
  | en       -- at once while TRE_CFG.EN of the tree is 0, else at the next tick boundary (R107)
deriving DecidableEq, Repr

/-- A stored register: reset value, writable bits, effect point. -/
structure RegSpec where
  reset : Word
  mask : Word
  eff : Eff
deriving DecidableEq, Repr

/-- Element of an array of registers: `n` elements from `base`, `stride` apart. -/
def arrIx (o base stride n : Nat) : Option Nat :=
  if base ≤ o ∧ o < base + stride * n ∧ (o - base) % stride = 0 then some ((o - base) / stride) else none

/-- Is `o` an element of the array? -/
def inArr (o base stride n : Nat) : Bool := (arrIx o base stride n).isSome

/-- First matching row of a page's table of single registers: offset, reset, mask, effect. -/
def rowOf (o : Nat) : List (Nat × Word × Word × Eff) → Option RegSpec
  | [] => none
  | (a, r, m, e) :: t => if a = o then some ⟨r, m, e⟩ else rowOf o t

/-- Page bases (Table 18-1). -/
def pagePRT : Nat := 0x010000
def pagePWR : Nat := 0x020000
def pageTIM : Nat := 0x030000
def pageHRD : Nat := 0x040000
def pageCLS : Nat := 0x080000
def pageCHN : Nat := 0x100000
def chnTree : Nat := 0x150000
def pageTRE : Nat := 0x180000
def pageUPL : Nat := 0x1C0000
def pageQBM : Nat := 0x1D0000
def pageCPE : Nat := 0x1E0000
def pageDPT : Nat := 0x1F0000
def pageSLC : Nat := 0x200000
def pageSKM : Nat := 0x2A0000
def pageCNT : Nat := 0x2B0000
def pageTST : Nat := 0x2C0000

/-- Base of the instance with an instance code of Table 15-1. -/
def instBase (i : Nat) : Nat :=
  if i = 0 then 0
  else if i = 1 then pagePRT else if i = 2 then pagePWR else if i = 3 then pageTIM else if i = 4 then pageHRD
  else if i = 5 then pageCLS else if i = 6 then pageQBM else if i = 7 then pageCPE else if i = 8 then pageDPT
  else if i = 9 then pageSKM else if i = 10 then pageCNT else if i = 11 then pageTST
  else if i ≤ 20 then pageCHN + 0x8000 * (i - 12)
  else if i ≤ 84 then pageTRE + 0x1000 * (i - 21)
  else if i ≤ 100 then pageUPL + 0x1000 * (i - 85)
  else pageSLC + 0x10000 * (i - 101)

/-- Instance code and instance-relative offset of an address; `none` where no instance page lies. -/
def instOf (a : Nat) : Option (Nat × Nat) :=
  if a < 0x10000 then some (0, a)
  else if a < 0x20000 then some (1, a - pagePRT)
  else if a < 0x30000 then some (2, a - pagePWR)
  else if a < 0x40000 then some (3, a - pageTIM)
  else if a < 0x80000 then some (4, a - pageHRD)
  else if a < 0x100000 then some (5, a - pageCLS)
  else if a < 0x148000 then some (12 + (a - pageCHN) / 0x8000, (a - pageCHN) % 0x8000)
  else if a < pageTRE then none
  else if a < pageUPL then some (21 + (a - pageTRE) / 0x1000, (a - pageTRE) % 0x1000)
  else if a < 0x1D0000 then some (85 + (a - pageUPL) / 0x1000, (a - pageUPL) % 0x1000)
  else if a < 0x1E0000 then some (6, a - pageQBM)
  else if a < 0x1F0000 then some (7, a - pageCPE)
  else if a < 0x200000 then some (8, a - pageDPT)
  else if a < 0x290000 then some (101 + (a - pageSLC) / 0x10000, (a - pageSLC) % 0x10000)
  else if a < pageSKM then none
  else if a < pageCNT then some (9, a - pageSKM)
  else if a < pageTST then some (10, a - pageCNT)
  else if a < 0x2D0000 then some (11, a - pageTST)
  else none

/-- Stored registers of the counter sub-page and the fault set of an instance (Tables 15-2, 13-2). -/
def subSpec (o : Nat) : Option RegSpec :=
  if inArr o 0xE00 4 16 then some ⟨0, 0x7FFFFFFF, .now⟩
  else rowOf o [(0xF04, 0, 0xFFFFFFFF, .now), (0xF0C, 0x2000, 0x3FFF, .now)]

/-- PRT page (Table 18-3). -/
def prtSpec (o : Nat) : Option RegSpec :=
  if inArr o 0 4 64 || inArr o 0x2000 4 2048 || inArr o 0x4000 4 2048 || inArr o 0x6000 4 1024 then some ⟨0, 0x3F, .now⟩
  else if inArr o 0x7000 8 256 then some ⟨0, 0x3FFFFFFF, .tick⟩
  else if inArr o 0x7004 8 256 then some ⟨0, 0x7F, .tick⟩
  else none

/-- PWR page (Table 18-4, R455). -/
def pwrSpec (o : Nat) : Option RegSpec :=
  if o = 4 then some ⟨12500, 0x1FFFF, .now⟩
  else if inArr o 0x1000 4 108 then some ⟨0x1F, 0x1F, .now⟩
  else if inArr o 0x1200 4 108 then some ⟨3, 3, .now⟩
  else if inArr o 0x1400 8 108 then some ⟨0, 0xFFFFFFFF, .now⟩
  else if inArr o 0x1404 8 108 then some ⟨0, 0xFFFF, .now⟩
  else none

/-- TIM page (Table 18-5, R377): the fields of TIM_CTL that hold state, and the settings. TIM_INC and TIM_SLEW
live in the time engine. -/
def timSpec (o : Nat) : Option RegSpec :=
  rowOf o
    [(0x00, 0, 0x300, .tick), (0x10, 0, 0xFFFFFFFF, .tick), (0x14, 0, 0xFFFF, .tick), (0x18, 0, 0x3FFFFFFF, .tick),
     (0x20, 0, 0xFFFFFFFF, .tick), (0x24, 0, 0xFFFF, .tick), (0x38, 5000, 0x1FFFF, .tick),
     (0x40, 0, 0xFFFFFFFF, .tick), (0x44, 0, 0xFFFFFFFF, .tick), (0x48, 8000, 0x1FFFF, .tick),
     (0x4C, 0, 0xFFFFFFFF, .tick), (0x50, 0, 0xFFFF, .tick), (0x54, 0, 0xFFF, .tick),
     (0x60, 0x1190, 0x7FFFF, .tick), (0x64, 1250, 0x1FFFFF, .tick), (0x68, 0, 0xFFFFFFFF, .tick),
     (0x6C, 0, 0xFFFFFFFF, .tick), (0x70, 4, 0xF, .tick)]

/-- HRD page: channel settings and delivery-queue settings (Table 18-6); contexts live in the rings. -/
def hrdSpec (o : Nat) : Option RegSpec :=
  if inArr o 0x7800 4 256 then some ⟨0, 7, .now⟩
  else if inArr o 0x3D000 4 2048 then some ⟨0xFFFF0000, 0xFFFFFFFF, .tick⟩
  else none

/-- CLS page: CLS_WR and the indirection tables (Table 18-7, R230). -/
def clsSpec (o : Nat) : Option RegSpec :=
  if o = 8 then some ⟨0, 1, .now⟩
  else if 0x40000 ≤ o ∧ o < 0x60000 ∧ o % 4 = 0 then some ⟨0, 0xFFF, .now⟩
  else if inArr o 0x60000 4 64 then some ⟨0, 0xFFF, .now⟩
  else none

/-- Per-tree Churn settings (Table 18-9, R154). -/
def chnSpec (o : Nat) : Option RegSpec :=
  rowOf o
    [(0x00, 0x88CD, 0xFFFF, .cut), (0x04, 2, 0xF, .cut), (0x08, 0x00400802, 0xFFFFFFFF, .cut), (0x0C, 1, 1, .cut),
     (0x10, 64, 0xFF, .cut)]

/-- Tree page (Table 18-10). What a write of a field of Table 4-1 outside its range does is not said (R107): the bits are stored and applied as
written; DESIGN CHOICE (log entry 31). -/
def treSpec (o : Nat) : Option RegSpec :=
  rowOf o
    [(0x00, 4, 7, .now), (0x04, 0x0001080C, 0x1FFFF, .en), (0x08, 0x01090000, 0x1FFFFFF, .en),
     (0x0C, 0x01090000, 0x1FFFFFF, .en), (0x10, 1500, 0x7FFFF, .en), (0x14, 246250, 0x7FFFF, .en),
     (0x18, 32, 0x1FF, .en), (0x1C, 0x1004E202, 0x3FFFFFFF, .en), (0x20, 64, 0xFF03FF, .en),
     (0x24, 0x810, 0x7FFF, .en), (0x28, 0x04002024, 0xFFFFFFFF, .en), (0x2C, 0x00190010, 0xFFFFFFF, .en),
     (0x30, 0x400, 0xFF07, .en), (0x34, 1522, 0x3FFF, .tick), (0x38, 0, 0x07FF0003, .tick),
     (0x40, 0, 0xFFFFFF, .tick), (0x44, 0, 0xFFFFFF, .tick), (0x48, 0x400000, 0xFFFFFF, .tick),
     (0x4C, 0x400000, 0xFFFFFF, .tick), (0x50, 8, 0xFF, .tick), (0x80, 0, 0x3FF, .now),
     (0x84, 0, 0xFFFFFFFF, .now), (0x88, 0, 0xFFFFFFFF, .now)]

/-- Uplink page (Table 18-11, R201). The range of MAXLEN is 64 to 16,000; what a write outside it does is not said. The 14 bits are
stored and applied as written; DESIGN CHOICE (log entry 31). -/
def uplSpec (o : Nat) : Option RegSpec :=
  if inArr o 0x40 8 8 then some ⟨0, 0xFFFFF, .tick⟩
  else if inArr o 0x44 8 8 then some ⟨0xFFFF0000, 0xFFFFFFFF, .tick⟩
  else rowOf o
    [(0x00, 0, 3, .now), (0x04, 1522, 0x3FFF, .tick), (0x08, 0, 0xFFFFFFFF, .tick), (0x0C, 0, 0xFFFF, .tick),
     (0x10, 0x00FFFF00, 0xFFFFFF07, .tick), (0x14, 0x00FAC688, 0x7FFFFFF, .tick), (0x18, 0, 0xF, .tick),
     (0x1C, 0, 7, .tick), (0x20, 0, 0xFFFFFFFF, .tick), (0x24, 0, 0xFFFFFFFF, .tick)]

/-- QBM page (Table 18-12, R273). -/
def qbmSpec (o : Nat) : Option RegSpec :=
  rowOf o
    [(0x00, 6144, 0xFFFF, .tick), (0x04, 0x36B00, 0x3FFFF, .tick), (0x08, 0x2EE00, 0x3FFFF, .tick),
     (0x0C, 0x27100, 0x3FFFF, .tick), (0x10, 0x32C80, 0x3FFFF, .tick), (0x14, 0x02000400, 0xFFFFFFFF, .tick),
     (0x18, 0x4004, 0x3FFFFF, .tick), (0x20, 0, 0xF, .now)]

/-- CPE page (Table 18-12, R292). -/
def cpeSpec (o : Nat) : Option RegSpec := rowOf o [(0x00, 4096, 0xFFFF, .tick), (0x10, 0, 0x8001FFFF, .now)]

/-- DPT page (Table 18-12, R273). -/
def dptSpec (o : Nat) : Option RegSpec :=
  if inArr o 0x100 4 64 then some ⟨171, 0x3FFF, .tick⟩
  else rowOf o [(0x00, 0, 1, .tick), (0x04, 0, 0xFFFFFFFF, .tick), (0x08, 0, 0xFFF, .tick), (0x0C, 0, 0x1FFFFFFF, .tick)]

/-- SKM page (Table 18-13, R413). -/
def skmSpec (o : Nat) : Option RegSpec :=
  rowOf o [(0x00, 0x27, 0xF7, .tick), (0x04, 2000, 0xFFF, .tick), (0x08, 0x2932E000, 0xFFFFFFFF, .tick), (0x10, 0, 0xF, .now)]

/-- CNT page (Table 18-13, R477): the Milk Round settings are sampled at a round's start. -/
def cntSpec (o : Nat) : Option RegSpec :=
  rowOf o
    [(0x00, 0x10, 0x1FFFFFF, .now), (0x04, 0, 0x1FFFFF, .now), (0x08, 0, 0xFFFFFFC0, .now), (0x0C, 0, 0xFFFFF, .now),
     (0x24, 0x800, 0xFFFF, .tick), (0x28, 0, 0xFFFFFFC0, .tick), (0x2C, 0, 0xFFFFF, .tick), (0x38, 0, 0xFFFFFFFF, .now),
     (0x3C, 0, 0xFFFFFFFF, .now)]

/-- TST page (Table 18-13, R504). -/
def tstSpec (o : Nat) : Option RegSpec :=
  if inArr o 0 0x10 16 then some ⟨2, 0x3FFFFFF, .tick⟩
  else if inArr o 0x100 0x40 4 then some ⟨1, 0x1FFFFFF, .tick⟩
  else if inArr o 0x104 0x40 4 then some ⟨0, 0xFFF, .tick⟩
  else if inArr o 0x108 0x40 4 || inArr o 0x10C 0x40 4 then some ⟨0, 0xFFFFFFFF, .tick⟩
  else none

/-- The stored register at an offset of the window, apart from counter sub-pages and fault sets. -/
def pageSpec (a : Nat) : Option RegSpec :=
  if a < 0x10000 then rowOf a [(0x80, 3, 7, .now)]
  else if a < 0x20000 then prtSpec (a - pagePRT)
  else if a < 0x30000 then pwrSpec (a - pagePWR)
  else if a < 0x40000 then timSpec (a - pageTIM)
  else if a < 0x80000 then hrdSpec (a - pageHRD)
  else if a < 0x100000 then clsSpec (a - pageCLS)
  else if chnTree ≤ a ∧ a < chnTree + 0x1000 then chnSpec ((a - chnTree) % 0x40)
  else if pageTRE ≤ a ∧ a < pageUPL then treSpec ((a - pageTRE) % 0x1000)
  else if pageUPL ≤ a ∧ a < pageQBM then uplSpec ((a - pageUPL) % 0x1000)
  else if pageQBM ≤ a ∧ a < pageCPE then qbmSpec (a - pageQBM)
  else if pageCPE ≤ a ∧ a < pageDPT then cpeSpec (a - pageCPE)
  else if pageDPT ≤ a ∧ a < pageSLC then dptSpec (a - pageDPT)
  else if pageSKM ≤ a ∧ a < pageCNT then skmSpec (a - pageSKM)
  else if pageCNT ≤ a ∧ a < pageTST then cntSpec (a - pageCNT)
  else if pageTST ≤ a ∧ a < 0x2D0000 then tstSpec (a - pageTST)
  else none

/-- The stored register at an offset of the window. -/
def regSpec (a : Nat) : Option RegSpec :=
  match instOf a with
  | some (_, o) => if 0xE00 ≤ o ∧ o < 0xF24 then subSpec o else pageSpec a
  | none => pageSpec a

/-- Reset value of the stored register at an offset; 0 where none is stored. -/
def regReset (a : Nat) : Word := ((regSpec a).map (·.reset)).getD 0

/-- The _HI register of a _LO and _HI pair (R20): the _LO offset's partner. The TIM_EPOCH registers are excluded,
and so are registers of more than one word (R522). -/
def hiOf (a : Nat) : Option Nat :=
  let timPairs := [0x10, 0x20, 0x28, 0x30, 0x40, 0xA0, 0xC0]
  let subHi : Option Nat :=
    match instOf a with
    | some (_, o) => if inArr o 0xE40 8 16 || o == 0xF18 then some (a + 4) else none
    | none => none
  if subHi.isSome then subHi
  else if a = 0x10 ∨ a = 0x94 then some (a + 4)
  else if pagePWR ≤ a ∧ a < pageTIM then
    if a = pagePWR + 8 || inArr (a - pagePWR) 0x1400 8 108 then some (a + 4) else none
  else if pageTIM ≤ a ∧ a < pageHRD then if timPairs.contains (a - pageTIM) then some (a + 4) else none
  else if pageTRE ≤ a ∧ a < pageUPL then
    if (a - pageTRE) % 0x1000 = 0x60 ∨ (a - pageTRE) % 0x1000 = 0x84 then some (a + 4) else none
  else if pageUPL ≤ a ∧ a < pageQBM then if (a - pageUPL) % 0x1000 = 8 then some (a + 4) else none
  else if a = pageCPE + 0x18 ∨ a = pageCPE + 0x20 then some (a + 4)
  else if pageCNT ≤ a ∧ a < pageTST then
    let o := a - pageCNT
    if o = 8 ∨ o = 0x28 ∨ o = 0x38 ∨ o = 0x48 then some (a + 4)
    else if 0x1000 ≤ o ∧ o < 0x1000 + 0x40 * 18 ∧ o % 8 = 0 ∧ o % 0x40 < 0x30 then some (a + 4) else none
  else if pageTST ≤ a ∧ a < 0x2D0000 then if inArr (a - pageTST) 0x108 0x40 4 then some (a + 4) else none
  else none

/-- The _LO register of a pair, from its _HI offset. -/
def loOf (a : Nat) : Option Nat := if 4 ≤ a ∧ hiOf (a - 4) = some a then some (a - 4) else none

/-! Registers that the meanings name. -/
def rTreCfg (t : Nat) : Nat := pageTRE + 0x1000 * t
def rTre (t o : Nat) : Nat := pageTRE + 0x1000 * t + o
def rUpl (p o : Nat) : Nat := pageUPL + 0x1000 * p + o
def rChn (t o : Nat) : Nat := chnTree + 0x40 * t + o
def rTim (o : Nat) : Nat := pageTIM + o
def rPrtTree (t : Nat) : Nat := pagePRT + 4 * t
def rFltMask (i : Nat) : Nat := instBase i + 0xF04
def rFltVec (i : Nat) : Nat := instBase i + 0xF0C
def rCntSel (i n : Nat) : Nat := instBase i + 0xE00 + 4 * n

end Sys2Proof.Machine
end

