-- ==== Sys2Proof/Machine/State.lean ====
section
/-!
DEFINITION. The state of the block: every register, memory, queue, counter, mode and pin the spec gives it,
unit by unit, as plain data; the reasons a command can stop; the state after block reset. Each field's comment
names its width, the rule of spec/ that gives it, and its reset value where `State.reset` below does not
say it plainly. Registers of the register port that software writes and reads back live in `Regs.val`,
keyed by their offset in the window (18_register_map.md); an offset that is not listed holds the reset value
that Machine/RegMap.lean gives it.
-/

namespace Sys2Proof.Machine

/-! ## Registers -/

/-- A register write or staged image record whose change waits for a boundary (R521, R154). -/
structure DefWrite where
  addr : Nat        -- offset in the register window
  mask : Word       -- bits written
  data : Word
deriving DecidableEq, Repr

/-- The set-up registers of the register port (R19 to R21, R517 to R524). -/
structure Regs where
  val : Tab Word                -- current value by offset; unlisted: the reset value (RegMap)
  tickDef : List DefWrite       -- direct writes due at the next tick boundary, in order (R521)
  cutDef : List DefWrite        -- writes due at the next report cut-off (R154)
  loHeld : Tab Word             -- _LO writes held for their _HI, per partition and pair (R20, R522)
  hiCap : Tab Word              -- _HI values captured by a _LO read, per partition and pair (R20)
  winReg : Tab Word             -- selector and data words of the windows, per partition (R523)
  objIdx : Tab Word             -- CNT_OBJ_IDX, per partition (R461)
deriving DecidableEq, Repr

/-! ## Global page: start-up, identity, homes, images, pin -/

/-- What FAULT_OUT is doing (R429). -/
inductive PinState where
  | idle | pulse | held | recovery
deriving DecidableEq, Repr

/-- An accepted image that waits for its boundary (R493, R494). -/
structure PendImage where
  img : Nat                     -- image number 0-16
  tick : Nat                    -- tick at whose boundary it takes effect (R51)
  recs : List ImgRec            -- staged records (spaces 0, 1, 2, 4), in order
  swap : Bool                   -- it carries classifier content (space 3)
deriving DecidableEq, Repr

/-- Global page state. -/
structure Glb where
  phase : Nat                   -- GLB_STAT.PHASE, 3 bits (R484); 7 FAILED
  fuse : List Word              -- fuse words read so far, newest first (R538)
  fuseOk : Bool                 -- GLB_STAT.FUSE_OK (R485)
  lot : BitVec 40               -- GLB_ID_LOT (Table 16-3), loaded at start-up
  wafer : BitVec 5
  dieX : Byte
  dieY : Byte
  issue : BitVec 16
  defSlc : BitVec 9             -- GLB_ID_REPAIR0.DEFSLC; found in phase 2, readable from READY on (R487)
  defBg : BitVec 17             -- GLB_ID_REPAIR0.DEFBG
  fuseRep : BitVec 16           -- GLB_ID_REPAIR1.FUSEREP
  softRep : BitVec 16           -- GLB_ID_REPAIR1.SOFTREP
  armed : Bool                  -- GLB_RST.ARM: an arming is open (R482)
  armAt : Nat                   -- cycle in which it was opened
  homeTree : Tab Nat            -- home slice of a tree (R27); unlisted: t / 8
  homeUpl : Tab Nat             -- home slice of an uplink port (R27); unlisted: p / 2
  lostT : List Nat              -- trees whose home slice has failed and which were not re-homed (R404)
  lostU : List Nat              -- uplink ports in the same case
  img : Nat                     -- GLB_CFGSTAT.IMG (R495)
  applied : Bool                -- GLB_CFGSTAT.APPLIED
  imgTick : Nat                 -- GLB_CFGSTAT_TICK, 48 bits
  pend : List PendImage         -- images accepted and pending, in order of acceptance (R495)
  pin : PinState                -- FAULT_OUT (R428, R429)
  pinAt : Nat                   -- cycle in which the pulse or the recovery began (R429)
  pinEv : Option Nat            -- cycle of the last pin event (Table 13-7)
  pinRel : Bool                 -- a REL written during the pulse (R429)
  pinWait : Bool                -- an event during the recovery (R429)
  wrejOfs : BitVec 24           -- PRT_WREJ.OFS (R499)
  wrejReason : Nat              -- PRT_WREJ.REASON
  prtBad : List Nat             -- partition-table words both of whose stored copies fail, by address, until they are rewritten (R502)
deriving DecidableEq, Repr

/-! ## Fault sets -/

/-- The capture registers of a fault set (Table 13-2). -/
structure Capture where
  addr : Word                   -- FLT_CAP0
  src : Nat                     -- FLT_CAP1.SRC
  acc : Nat                     -- FLT_CAP1.ACC
  mkind : Nat                   -- FLT_CAP1.MKIND (Table 13-3)
  mnum : Nat                    -- FLT_CAP1.MNUM
  part : Nat                    -- FLT_CAP1.PART
  forced : Bool                 -- FLT_CAP1.FORCED
  time : BitVec 64              -- FLT_CAP2, FLT_CAP3
  at_ : Nat                     -- cycle of the fault (R421)
deriving DecidableEq, Repr

/-- What has met at a fault set in one cycle (Table 13-7). -/
structure FltCyc where
  at_ : Nat                     -- the cycle
  raised : Word                 -- sources that raised a fault in it
  cleared : Word                -- bits that writes of FLT_STAT cleared in it
  cap : Option Capture          -- the capture that such a write lets go in the cycle after (R427)
  more : Nat                    -- and its COUNT
deriving DecidableEq, Repr

/-- One of the 110 fault sets (R417, R419); `cap` is none while FLT_CAP1.VALID is 0. -/
structure FaultSet where
  st : Word                     -- FLT_STAT
  cap : Option Capture
  more : Nat                    -- FLT_MORE.COUNT, 24 bits, saturating
  last : FltCyc                 -- the last cycle in which something happened to the set
deriving DecidableEq, Repr

/-! ## Time engine -/

/-- The clock from a cycle on, while nothing but time passes: what the time of a past cycle is read from (R348). -/
structure TSeg where
  at_ : Nat                     -- first cycle
  time : Nat
  inc : Nat
  slew : Int                    -- slew that remained
  term : Nat                    -- slew term of a cycle
  hold : Bool
deriving DecidableEq, Repr

/-- Time engine state (R336 to R347, R360 to R374). Times are counts of 2^-48 ns of the PTP timescale:
seconds x 10^9 x 2^48 + nanoseconds x 2^48 + fraction (R336). -/
structure Tim where
  now : Nat                     -- CLK_B cycles since the block left reset (R8, R419)
  started : Bool                -- TIM_STAT.STARTED
  startWait : Option (Bool × Nat) -- START written: SRC and the cycle of the write (R339)
  tick : Nat                    -- tick number, 48 bits (R9, R339)
  beat : Nat                    -- beat number 0-9
  tickStart : Nat               -- value of now in cycle 0 of the tick
  mapPage : Bool                -- TFE_MAP_PAGE of the tree ports, which all swap in the same cycle (R80, R88)
  cutDone : Bool                -- the report cut-off of this tick has passed (R50)
  zero : Bool                   -- cycle 0 of a beat: what falls at its end is still to come (R33, R44 order 5, R50)
  time : Nat                    -- the time counter (R336)
  inc : Nat                     -- TIM_INC in force, 48 bits (R337)
  slew : Int                    -- slew amount that remains, in 2^-48 ns (R342)
  incWas : Option (Nat × Nat)   -- cycle of the last TIM_INC write, and the increment that this cycle still adds (R341)
  slewWas : Option (Nat × Int)  -- cycle of the last TIM_SLEW write, and the amount that this cycle still slews by (R341)
  incDef : Option Nat           -- a TIM_INC write deferred to the next tick (R341)
  slewDef : Option Int          -- a TIM_SLEW write deferred to the next tick (R341)
  incHeld : Option Nat          -- a TIM_INC write held in holdover (R341, R346)
  slewHeld : Option Int         -- a TIM_SLEW write held in holdover
  armed : Bool                  -- TIM_STAT.ARMED
  hold : Bool                   -- TIM_STAT.HOLD (R346)
  holdTick : Nat                -- tick in which holdover began
  stepPend : Option Int         -- accepted step, in 2^-16 ns (R343)
  restart : Option Bool         -- pending restart: false at the next boundary, true waits for PPS_IN (R344)
  stepN : BitVec 16             -- STEPN (R340)
  lstepOld : Word               -- TIM_LSTEP_OLD
  lstepNew : Word               -- TIM_LSTEP_NEW
  stepFlag : Bool               -- a step or restart took effect at this tick's boundary (R360)
  stepAt : Option Nat           -- cycle of the last step or restart (Table 11-4 byte 3 bit 2)
  wdogTick : Nat                -- latest of start tick, last exit, last TIM_INC_HI write (R345)
  proj : Option Nat             -- projected T(cycle 0 of the next tick) (R361)
  caps : Tab (Nat × BitVec 16)  -- TIM_EPOCH captures: time and STEPN per partition (R340); unlisted: none
  ppsLast : Option Nat          -- cycle of the last accepted PPS_IN edge (R368)
  ppsLost : Bool                -- PPS_IN is lost (R368)
  ppsiTime : Nat                -- TIM_PPSI stamp
  ppsiTerr : Int                -- TIM_PPSI_TERR
  ppsOut : Bool                 -- PPS_OUT pin (R369)
  ppsOutAt : Nat                -- cycle of the last PPS_OUT edge
  ppsOutSec : Nat               -- second that edge marks
  todDue : Bool                 -- the message that labels the last PPS_OUT edge has not started (R371)
  todOut : Option (List Byte)   -- message on TOD_OUT (R371); none: idle high
  todiSec : BitVec 48           -- TIM_TODI_SEC (R372)
  todiFlags : BitVec 3
  todiNew : Bool                -- TIM_TODI_FLAGS.NEW
  todiUtc : BitVec 16
  todiAt : Nat                  -- cycle in which the last good message ended
  todiOld : BitVec 48 × BitVec 3 × Bool × BitVec 16 -- seconds, flags, NEW and offset as they stood before it (R520)
  segs : List TSeg              -- the clock of the last four ticks, newest first (R348)
deriving DecidableEq, Repr

/-! ## Frames, tokens and the buffer -/

/-- The mark of a frame (R165). -/
inductive Mark where
  | good | runt | oversize | rxErr | fcsErr
deriving DecidableEq, Repr

/-- The source of a frame: ingress kind 0 uplink port, 1 tree, 2 send ring, and its number (field 32). -/
structure Src where
  kind : Nat
  num : Nat
deriving DecidableEq, Repr

/-- A send's offload requests, from its descriptor (Table 10-5). -/
structure SendOpt where
  ring : Nat
  part : Nat                    -- partition that owned the ring as the send was staged (R357)
  index : Nat                   -- descriptor index, for the record
  ipck : Bool                   -- IPv4 checksum insert still to be done at egress
  l4ck : Bool
  seg : Nat                     -- 0 none, 1 TCP, 2 UDP
  mss : Nat
  hdrLen : Nat
  tsReq : Bool
  skip : Bool                   -- CSUM_SKIP
  direct : Option Nat           -- DPORT of a DIRECT send (R200)
deriving DecidableEq, Repr

/-- A frame in the on-block buffer or in deep memory: its bytes and what its tokens share (Table 8-1). -/
structure Frame where
  bytes : List Byte             -- the bytes kept, FCS included (a host send's: without its FCS)
  len : Nat                     -- N (R162)
  src : Src
  tid : Nat                     -- terminal ID of a tree frame, else 0
  hnd : Nat                     -- handle of a tree frame, else 0
  stamp : Nat                   -- ingress stamp, in 2^-48 ns (R350)
  e2e : Word                    -- end-to-end CRC
  mark : Mark
  ipck : Nat                    -- Table 6-7
  l4ck : Nat                    -- Table 6-7
  dp : Nat                      -- drop precedence 0-2 (R222)
  act : Nat                     -- action index (R219)
  fkind : Nat                   -- forward kind, 5 resolved (Table 15-9)
  ftgt : Nat
  flags : BitVec 16             -- parse flags
  slots : Tab Nat               -- slot offsets recorded by the walk
  ends : Tab Nat                -- slot ends
  vtags : Nat                   -- tag count (R186)
  outerTpid : BitVec 16
  outerTci : BitVec 16
  inPrio : Nat                  -- ingress priority of an uplink frame (R257)
  rxMax : Nat                   -- MAXLEN in force at ingress
  cells : List Nat              -- on-block cell addresses, 18 bits (R237)
  deep : List Nat               -- deep cells (R258)
  refs : Nat                    -- references held (R32)
  sAdd : Nat                    -- cells it added to S (R247)
  sq : Option Nat               -- port whose stamp queue holds its stamp (R353)
  sqLost : Bool                 -- its stamp was lost (R354)
  send : Option SendOpt
  ino : Nat                     -- ingress frame number (R391)
  looped : Bool                 -- it has passed a turning point (R510)
  tmm : Bool                    -- a KEY_OFFER TMM (R287)
  txStamp : Option (Nat × Nat)  -- transmit stamp and the port it was taken at (R351)
  dchg : Option Nat             -- queue to which its fetched deep cells are charged (R260)
  e2eFail : List Nat            -- queues at whose egress its end-to-end CRC has failed once (R397)
  last : Nat                    -- cycle in which its last byte reached the edge
  lenKnown : Bool               -- its length was known at the enqueue (R245)
  late : List Nat               -- uplink queues from which it starts before its fault is known (R55)
  inS : Bool                    -- its cells lie in S, or were tested against LIM for it (R247)
  prov : Nat                    -- cells charged beyond those it uses, until its last byte has come (R245)
  left : Nat                    -- cycle in which the last byte of what has been sent of it leaves the block (R314)
  crcBad : Bool                 -- deep memory returned it with other bytes: its end-to-end CRC fails (R262)
deriving DecidableEq, Repr

/-- A token in a queue (Table 8-1): the frame it stands for and its per-queue fields. -/
structure Token where
  frame : Nat                   -- number of the frame in the frame store
  est : Nat                     -- cells charged (R245)
  seq : Nat                     -- per-queue sequence number (R392)
  etick : Nat                   -- low 16 bits of the enqueue tick
  spill : Bool                  -- marked for spill, its deep writes not all acknowledged (R259)
  part : Nat                    -- partition of a host target (R230), else 0
  at_ : Nat                     -- the MODEL's own: cycle of the enqueue, for a selection that is done again (R56)
deriving DecidableEq, Repr

/-- One of the two copies of a link word (R239, R263): the next cell of the chain, the end flag, and whether its SECDED fails beyond
correction. -/
structure LinkCopy where
  next : Nat
  fin : Bool
  bad : Bool
deriving DecidableEq, Repr

/-- A cell's link word, stored twice (R239). -/
structure LinkWord where
  a : LinkCopy
  b : LinkCopy
deriving DecidableEq, Repr

/-- A logical bank group (R237, R238, R265 to R269). -/
structure Group where
  next : Nat                    -- cells next..16383 have not been used since initialisation
  freed : List Nat              -- cells returned, oldest first
  quar : List Nat               -- quarantined cells
  ue : Nat                      -- uncorrectable errors since start-up
  bad : List Nat                -- allocated cells marked by the scrubber or the copy engine
  fenced : Bool                 -- R268
  leaving : Bool                -- a power request has stopped new cells (R269)
deriving DecidableEq, Repr

/-- What a sample tells of a frame (Table 15-9). -/
structure SmpFrame where
  src : Src
  len : Nat
  act : Nat
  mark : Mark
  dp : Nat
  tid : Nat
  fkind : Nat
  ftgt : Nat
  stamp : Nat
deriving DecidableEq, Repr

/-- The provisional selection of a tree for one beat (R253, R396). -/
structure DsTu where
  blk : Nat                     -- first block within the tick
  nblk : Nat
  queue : Nat                   -- downstream queue; 131072: a TMM
  frame : Nat                   -- frame number (of a data TU)
  tid : Nat
  idx : Nat
  first : Bool
  last : Bool
  ksel : Nat
  body : List Byte              -- payload, FCS included
  tag : List Byte               -- tag of an encrypted TU, empty before the engine's response
  done : Bool                   -- assembled: its cells are read, and its request, if any, is issued (R33, R35)
  ready : Bool                  -- assembled and clear, or its response has arrived
  idle : Bool                   -- sent as idle blocks (R34, R35)
  redo : Bool                   -- its request was lost with a slice: the next one is a replay (R390)
  unref : Bool                  -- the reference of its frame goes with it (R32, R194)
  seg : Nat                     -- segment of a send that it carries (R193)
  seen : Option SmpFrame        -- its frame, as a sample shows it when its last TU is emitted (R474)
deriving DecidableEq, Repr

/-- The rest of a frame that selection split (R74). -/
structure Cont where
  queue : Nat
  frame : Nat
  tid : Nat
  idx : Nat
  body : List Byte
  unref : Bool
  seg : Nat
deriving DecidableEq, Repr

/-- A downstream TMM (R84, R85, R87). -/
structure Tmm where
  type : Nat
  seq : Byte
  tgt : Nat                     -- TGT
  tid : Nat                     -- TID of its TU
  body : List Byte              -- 40 bytes, the named tick not yet filled in
  tickAt : Option Nat           -- body offset of the tick it names, written at selection (R118)
  cmd : Bool                    -- it takes a command place of R87
  sent : Nat                    -- tick in which it was last sent; 0: not yet
  reps : Nat                    -- repeats made
  acked : Bool                  -- it expects an ACK (R85, R111)
  full : List Byte              -- a TMM_SEND image of 48 bytes; empty for the block's own
deriving DecidableEq, Repr

/-- A selection that waits for its commit (R396): the TUs of its beat, and what the commit takes and writes. -/
structure Selection where
  beat : Nat                    -- absolute beat, 10 x tick + beat
  tus : List DsTu
  taken : List (Nat × Token)    -- queue and token, in order
  cc : List (Nat × Int)         -- credits after it, in 1/16 block
  pc : List (Nat × Int)
  dfc : List (Nat × Int)        -- deficits of the excess round, blocks
  rr : List (Nat × Nat)         -- round-robin positions
  segs : List (Nat × Nat)       -- segments then sent of the send at a queue's head
  fetch : List (Nat × Nat × Nat) -- what it takes from deep memory, in order: selector cycle, queue, frame (R260)
  tmms : List (Tmm × List Byte) -- TMMs taken, and the body each is sent with
  cont : Option Cont
deriving DecidableEq, Repr

/-- A fetch of a frame from deep memory (R260). -/
structure DeepFetch where
  frame : Nat
  queue : Nat                   -- the queue whose token was taken
  beat : Nat                    -- the absolute beat it was taken for; 0: for an emulated terminal
  taken : Nat                   -- cycle in which it was taken
  sent : Bool                   -- its reads have been issued
deriving DecidableEq, Repr

/-- One entry of a replay record (R391). -/
structure RepEntry where
  frame : Nat
  ino : Nat
  queue : Nat
  seq : Nat
  bytes : Nat                   -- bytes kept of the frame, for its lanes (R471)
  page : Bool                   -- classifier page of the frame's cycle 0 (R236)
  at_ : Nat                     -- the MODEL's own: cycle of the enqueue (R56)
  started : Bool
  beyond : Bool                 -- the record was full: the target is not kept, and counts as started (R391)
deriving DecidableEq, Repr

/-- One frame of a port's receive list (R389, Table 12-6). -/
structure RecvEntry where
  frame : Nat                   -- the frame in the buffer
  cell : Nat                    -- its first cell
  len : Nat                     -- its length
  stamp : Nat                   -- its ingress stamp, 2^-48 ns
  ino : Nat                     -- its ingress order
deriving DecidableEq, Repr

/-- Queue and buffer manager and deep port state (R237 to R273). Queue numbers: downstream 2,048 t + i,
uplink egress 131,072 + 8 p + i, fill-ring delivery 131,200 + r. -/
structure Qbm where
  q : Tab (List Token)          -- tokens of each queue, head first
  ctx : Tab W4                  -- downstream queue contexts in force (R242); unlisted: 0
  ctxPend : List (Nat × W4)     -- accepted context writes for the next tick boundary (R243)
  cc : Tab Int                  -- committed credit, 1/16 block (R251)
  pc : Tab Int                  -- peak credit, 1/16 block; unlisted: as the zero context has filled it (R251)
  dfc : Tab Int                 -- deficit of the excess round, blocks (R253)
  rr : Tab Nat                  -- round-robin position per tree, priority and round (R253)
  segs : Tab Nat                -- segments already sent of the send at the head of a queue (R194)
  chg : Tab Nat                 -- on-block cells charged to a queue (R246)
  s : Nat                       -- S, cells in use beyond every MINC (R246)
  frames : Tab Frame            -- the buffer's frames, by frame number
  nextFrame : Nat
  seqNo : Tab Nat               -- next SEQ of each queue (R392)
  commit : Tab Nat              -- egress commit log: SEQ after the newest started token (R392)
  link : Tab LinkWord           -- link memory, by cell; unlisted: an end (R239)
  grp : Tab Group               -- logical groups 0-15
  rrGrp : Tab Nat               -- group to try next, per ingress section (R238)
  bgmap : Tab Nat               -- QBM_BGMAP (R237); unlisted: g to g
  retire : Option Nat           -- logical group being retired (R267)
  rAt : Nat                     -- cycle of the request
  rBusy : Bool                  -- QBM_RETIRE.BUSY
  rNoSpare : Bool               -- QBM_RETIRE.NOSPARE
  spareUsed : Bool              -- QBM_STAT.SPARE_USED
  leak : Nat                    -- leaked cells (R263)
  portCells : Tab Nat           -- cells held by frames of port p, priority i (R257), key 8 p + i
  xoff : Tab Bool               -- XOFF(p, i) by its thresholds
  xoffAll : Bool                -- the buffer-wide XOFF (R257)
  sel : Tab Selection           -- per tree: the selection not yet committed (R396)
  rep : Tab (List RepEntry)     -- replay record per ingress section, key 2 slice + direction (R391)
  repOld : Tab (List RepEntry)  -- the records before the last capture, while R386 can still discard it
  ino : Tab Nat                 -- ingress frame number per source, key 4096 kind + number
  dNext : Nat                   -- deep cells dNext.. have not been used
  dFreed : List Nat             -- deep cells returned
  dUsed : Nat                   -- deep cells in use
  dLost : Nat                   -- deep cells that a bad cache entry took out of use (DPT FREE_UE)
  dpAt : Nat                    -- cycle from which the deep port has no read queued (R260)
  dRefused : Bool               -- DPT_STAT.REFUSED
  spillTo : List Nat            -- frames marked for spill whose cells wait to be written, in order (R259)
  dwAt : Nat                    -- cycle from which the deep port writes nothing (R258)
  spill : List Nat              -- frames whose deep writes are outstanding, in order (R259)
  fetch : List DeepFetch        -- deep reads queued or outstanding, in the order in which their tokens were taken (R260)
deriving DecidableEq, Repr

/-! ## Classifier -/

/-- An exact-match entry (Table 7-8). -/
structure EmEntry where
  dir : Bool                    -- true: upstream
  prof : BitVec 4
  key : List Byte               -- 48 bytes
  act : BitVec 10
  param : BitVec 24
  fin : Bool
deriving DecidableEq, Repr

/-- Bucket levels of a meter (R223), in 1/10,000 byte, and the cycle to which they are refilled. -/
structure Bucket where
  c : Nat
  p : Nat
  at_ : Nat
deriving DecidableEq, Repr

/-- Classifier state (R203 to R236). The paged tables are keyed by page, direction, table and entry. -/
structure Cls where
  tbl : Tab (List Word)         -- entry words; unlisted: the start-up value of R210
  active : Bool                 -- CLS_PAGE.ACTIVE: true page 1
  sync : Bool                   -- CLS_PAGE.SYNC
  swapAt : Nat                  -- cycle of the last swap (R234)
  fresh : List Nat              -- standby entries written since the swap (R234)
  swapDue : List Nat            -- ticks at whose boundary a CLS_SWAP falls due (R233)
  em : List EmEntry             -- exact-match entries, both directions (R215)
  meter : Tab Bucket            -- meter buckets, key 2,048 direction + meter; unlisted: empty
  dirty : List Word             -- CAP0 words that no replica reads clean (CLS NO_CLEAN)
deriving DecidableEq, Repr

/-! ## Tree ports -/

/-- Terminal states in Table 4-2 order. -/
inductive TState where
  | unknown | heard | ranged | keyed | active | quiet | lost | released
deriving DecidableEq, Repr

/-- A pending EQD_ADJUST (R122): the correction and the tick it applies from, once sent. -/
structure Adjust where
  corr : Int
  apply : Option Nat
deriving DecidableEq, Repr

/-- An announcement received and not yet acted on, or an entry of the heard list (R117). -/
structure Ann where
  serial : BitVec 64
  delta : Int
  tick : Nat
  slot : Nat
  cap : Byte
  tresp : Int
  model : BitVec 32             -- MODEL
  hostData : BitVec 128         -- HOSTDATA
deriving DecidableEq, Repr

/-- A terminal context (R108). -/
structure Ctx where
  state : TState
  ret : TState                  -- return state
  serial : BitVec 64
  tresp : Int                   -- TRESP_OFS
  cap : Byte                    -- CAP of the announcement (Table 4-3)
  eqd : Int                     -- EQD in force, steps
  eqd0 : Int                    -- EQD at ranging
  o : Int                       -- arrival offset, 1/256 step (R122)
  sbo : Option Int              -- standby offset; none: never heard on the other trunk (R98)
  conv : Bool                   -- CONV (R126)
  run : Nat                     -- consecutive accepted bursts within CONV
  miss : Nat                    -- miss count (R112)
  outl : Nat                    -- outlier count (R122)
  adj : Option Adjust
  ranging : Option Nat          -- directed ranging: the tick named by RANGE_REQ once sent; 0: not yet sent
  rangeNew : Bool               -- the ranging is part of entering Heard, not a re-range (R125)
  order : Nat                   -- place in the order of entering Heard (R153)
  ackA : Bool                   -- ASSIGN_ID acknowledged
  ackR : Bool                   -- RANGE_REQ acknowledged
  resEqd : Option Int           -- EQD of the RANGE_RESULT body, once queued (R120)
  measured : Option Int         -- corrected EQD of the last ranging burst
  lastDelta : Int               -- δ of the last ranging burst (R121)
  lostTick : Nat                -- tick of entry into Lost
  burstTick : Nat               -- upstream tick of the last burst granted (R112)
  alarm : Bool                  -- the drift alarm has been given and not re-armed (R125)
  reach : Bool                  -- REACH_LIMIT written and EQD still at the limit (R124)
  wide : Bool                   -- the first burst after a switch or a resume (R98, R123)
  tmmp : Bool                   -- TMMP of the last header
  td : Option Nat               -- last TD sent, 2^-16 ns (R363)
  tdDue : Bool                  -- a TIME_DELAY is due whatever TD is
  ksel : Nat                    -- downstream KSEL (R281)
  kselNext : Option (Nat × Nat) -- KSEL that applies from a tick (R288)
  resSent : List (Nat × Int)    -- tick that each copy of RANGE_RESULT sent names, and its EQD (R118, R120)
  admitAnn : Option Ann            -- an accepted ADMIT that waits for its cut-off or for a place (R117, R153)
  cmds : List Nat               -- commands accepted since the last cut-off, by opcode (R110)
  dg : Bool                     -- a burst since the last cut-off carried DG
  model : BitVec 32             -- MODEL and HOSTDATA of its announcement (Table 4-3)
  hostData : BitVec 128
  missNow : Nat                 -- bursts missed since the last cut-off (R128)
deriving DecidableEq, Repr

/-- An ACK or echo received since the last cut-off. -/
structure AckIn where
  tid : Nat
  type : Nat
  seq : Byte
  result : Nat
  utick : Nat                   -- upstream tick of its burst
  delta : Int                   -- δ of its burst
deriving DecidableEq, Repr

/-- A burst-map entry (Table 3-9), with the owner the block keeps beside it. -/
structure MapEnt where
  hnd : Nat
  start : Nat
  len : Nat
  bs : Bool
  rpt : Nat
  disc : Bool
  rng : Bool
  last : Bool
  tid : Nat                     -- owner of HND, 0 for a discovery window
  seen : Bool                   -- a header was accepted at it, or it was found missed
deriving DecidableEq, Repr

/-- A raw upstream burst in the burst buffer (R36). -/
structure RawBurst where
  utick : Nat
  blk : Nat
  blocks : List UsBlock
  at_ : Nat                     -- tick in which it arrived
  cutoffBefore : Bool           -- consumed before that tick's cut-off
  bad : Bool                    -- a word of it is lost: it is unusable for replay (Table 13-4, BURST_UE)
deriving DecidableEq, Repr

/-- A request outstanding on a CPQ channel (R277, R279). -/
structure CpqReq where
  seq : Byte
  enc : Bool                    -- true encrypt
  slot : Nat
  tree : Nat
  tid : Nat
  tick : Nat
  ord : Nat                     -- TU ordinal: first block within the tick
  hnd : Nat                     -- upstream: handle
  first : Bool
  last : Bool
  hdr : List Byte               -- the TU header that goes with it
  body : List Byte              -- what follows the header in the request
  replay : Bool                 -- R289, R390
  gen : BitVec 4                -- generation stamped at issue (R283)
  eop : Nat                     -- cycle of its EOP lane, once sent (R279)
  lane : Nat                    -- first lane that it may take (R53, R276)
  since : Bool                  -- held back since its slice was declared faulty (R389, R402)
deriving DecidableEq, Repr

/-- A data TU on its way to reassembly: what the cipher edge has still to answer, and what it carries (R37). -/
structure Piece where
  req : Option (Nat × Byte)     -- channel and SEQ of its outstanding request
  wait : Option CpqReq          -- a request held back while its slice is being handed over (R389)
  ok : Bool                     -- false: the TU is dropped
  tid : Nat
  first : Bool
  last : Bool
  bytes : List Byte
  stamp : Nat                   -- stamp of its first block (Table 11-1)
  pos : Nat × Nat               -- its upstream tick and ordinal (R389)
  out : Nat                     -- cycle in which its last byte leaves the cipher edge, where that is known (R53, R54)
deriving DecidableEq, Repr

/-- Reassembly on a handle (R71): TUs in line order that wait, and the open frame. -/
structure Reasm where
  pieces : List Piece
  isOpen : Bool
  tid : Nat
  bytes : List Byte             -- bytes kept, at most MAXLEN
  total : Nat                   -- bytes received
  maxlen : Nat                  -- MAXLEN in force at its start (R161)
  tick : Nat                    -- tick of the last fragment
  stamp : Nat
  out : Nat                     -- cycle in which its last byte so far leaves the cipher edge (R53)
  bad : Bool                    -- a fragment was dropped: the frame is dropped (R37)
deriving DecidableEq, Repr

/-- A taken protection request (R95, R96). -/
structure PswReq where
  code : Nat
  tick : Nat                    -- m, the tick at which it executes
  sel : Bool                    -- trunk it selects: true protection
deriving DecidableEq, Repr

/-- A directed or discovery span the Churn has committed for a tick (R115, R119). -/
structure WinRec where
  tick : Nat
  start : Nat
  len : Nat                     -- blocks of the window, 32 W
  qb : Nat                      -- quiet blocks before it
  qa : Nat                      -- quiet blocks after it
  heard : Nat                   -- H: announcements accepted from it (R150)
  bad : Nat                     -- X: header checks failed inside its span
  done : Bool                   -- I has been adapted to it
  prevWin : Option Nat          -- lastWin, lastEnd and discNow before it: a window that R158 withdraws gives them back
  prevEnd : Nat
  wasNow : Bool
deriving DecidableEq, Repr

/-- Tree-port state (R62 to R129). -/
structure Tre where
  run : Bool                    -- TRE_STAT.RUN
  startPend : Bool              -- EN set, the tree starts at the next tick boundary (R63)
  rate : Nat                    -- RATE sampled when EN rose: 0, 1, 2
  fenced : Bool                 -- Table 13-5
  ctx : Tab Ctx                 -- terminal contexts 1-1023
  pre : Tab (BitVec 64)         -- pre-listed serials by terminal ID (R117)
  heard : List Ann              -- heard list, oldest first, at most 64
  anns : List Ann               -- announcements of this report period
  acks : List AckIn             -- ACKs of this report period
  orderNo : Nat                 -- next place in the order of entering Heard
  seq : Byte                    -- SEQ of the next TMM
  tmmq : List Tmm               -- tree-management queue, head first (R87)
  tmmPend : List Tmm            -- block-generated TMMs that wait for room (R87)
  tmmDue : Nat                  -- of those, how many waited at the last report cut-off
  tmmOut : List Tmm             -- TMMs sent and not yet acknowledged (R85)
  tmmTick : Nat                 -- tick to which tmmN refers
  tmmN : Nat                    -- TMMs sent in that tick (R86)
  stage : Tab (List DsTu)       -- staging: TUs by absolute beat (R90)
  cont : Option Cont            -- continuation for the next beat (R74)
  emitFrom : Nat                -- first absolute beat the port emits (R448, R449)
  dsBlk : Nat                   -- block number of the next downstream block within its tick (R91)
  dsTick : Nat                  -- tick of that block
  selOnce : Bool                -- a selection has refilled the credits of its queues (R251)
  map : List MapEnt             -- entries of the standby page, in START order (R81)
  mapCnt : Nat                  -- TFE_MAP_CNT of the standby page
  mapDone : Bool                -- the standby page's count has been written
  mapNone : Bool                -- the Churn builds no map for the page that the next swap makes active (R82)
  grants : Tab (List MapEnt)    -- maps by upstream tick, kept for reception
  bursts : List RawBurst        -- burst buffer
  reasm : Tab Reasm             -- reassembly per handle
  sel : Bool                    -- TFE_PSW_SEL: true protection
  act : Option Bool             -- span mode: does this block carry the tree, once a switch has executed; none: as ROLE says (R94, R99)
  psw : Option PswReq           -- request acknowledged and not executed
  lockout : Bool
  forced : Bool
  tref : Nat                    -- TRE_TREF, in 2^-48 ns (R360)
  trefNext : Option Nat         -- the reference point of the next tick, once block 0 has been requested (R361)
  tod : Option (Nat × List Byte)  -- tick and bytes of the time-of-day message whose first block has been requested (R360)
  tagTick : Nat                 -- tag failures of this tick (R286)
  fullTick : Bool               -- TREE_FULL written in this tick (R127)
  tdAll : Bool                  -- a delay register was written since the last cut-off (R363)
  sd : Bool                     -- TFE_SD (R93)
  usRtt : Tab Nat               -- by upstream tick: the equalised round trip, in steps, at which its strobe lies (R83, R103)
  refit : Bool                  -- EN was last written 0 with the fault status that fences the tree clear (R425)
deriving DecidableEq, Repr

/-! ## Churn -/

/-- Binding of a handle or service index to its terminal (R133, R252). -/
inductive Bind where
  | none | wait | bound | unwait
deriving DecidableEq, Repr

/-- A report in a slot (R134): burst tick, START of the burst, occupancy in 64-byte units. -/
structure Rep where
  tick : Nat
  start : Nat
  occ : Nat
  rx : Nat                      -- data blocks received on the handle up to the reporting burst (R137)
deriving DecidableEq, Repr

/-- Estimator state of an allocation (R137). -/
structure Est where
  cur : Option Rep              -- slot read for the next map
  nxt : Option Rep              -- slot read for the map after it
  b : Nat
  k : Nat
  rx : Nat                      -- data blocks received on the handle
  lastRx : Nat                  -- rx at the last report: sent is rx - lastRx
  grants : List (Nat × Nat × Nat) -- grants of bursts after the last reporting one: map tick, START, data blocks; gs is their sum (R137)
  a : Int                       -- arrival rate, 1/256 block per tick
  carry : Nat
  start : Nat                   -- START of the burst of the last report: reports are in (tick, START) order (R134)
  atMin : Bool                  -- a takeover started the allocation at its assured minimum (R99); until its first report
deriving DecidableEq, Repr

/-- Level result of pass 1 (R140): whether the level is fully served, bucket j, fill level in 1/16. -/
structure Level where
  full : Bool
  j : Nat
  lam : Nat
deriving DecidableEq, Repr

/-- An allocation with its demands at levels 0 to 3 (R139). -/
structure PassRow where
  tid : Nat
  hnd : Nat
  w : Nat                       -- weight at levels 1 to 3
  d : List Nat
deriving DecidableEq, Repr

/-- What pass 1 leaves for pass 2 (R138 to R141). -/
structure Pass where
  levels : List Level           -- levels 0 to 3
  rho : Int                     -- residue at its start, 1/16 block
  rows : List PassRow           -- in visit order (R144)
  needs : List Nat              -- terminals counted in NB
  polls : List Nat              -- terminals with a poll due
  reserved : List MapEnt        -- entries of reserved runs, in START order
  runs : List (Nat × Nat)       -- reserved runs: first block and block after the last
  setAside : Nat                -- map entries set aside (R146)
deriving DecidableEq, Repr

/-- What a pass met that fell due during a handover, beside what the cut-off holds: the requests that reach it live (R156). -/
structure PassSnap where
  discNow : Bool                -- a DISC_NOW waited
  closing : Bool                -- a power request had stopped windows and grants
  psw : Option PswReq           -- the switch request acknowledged
deriving DecidableEq, Repr

/-- Churn state of one tree (R130 to R159). -/
structure Chn where
  alloc : Tab W4                -- data allocation entries in force, by handle; unlisted: 0
  allocPend : List (Nat × W4)   -- accepted writes for the next cut-off (R133)
  bind : Tab Bind               -- binding of data handles
  svc : Tab Bind                -- binding of service indexes, key 4096 TID + IDX
  est : Tab Est                 -- estimators by handle
  ivl : Nat                     -- I (R150)
  lastWin : Option Nat          -- tick of the previous window
  lastEnd : Nat                 -- absolute block at which it ended
  startTick : Nat               -- tick in which the tree started
  discNow : Bool                -- a DISC_NOW waits
  defers : Nat                  -- deferrals in a row (R151)
  wins : List WinRec            -- committed windows
  discBad : Bool                -- the tree can open no window (CHN DISC_CFG)
  pass : Option Pass
  rot : Nat                     -- terminal at which placement starts (R144)
  oversub : Option Nat          -- tick of the last OVERSUB notice (R142)
  guard : Nat                   -- previous tick's guaranteed demand (R151)
  shown : Tab W4                -- entries as they stand until an image's boundary, which the Churn already uses (R494)
  closing : Bool                -- a power request has stopped windows and grants (R155)
  late1 : Option PassSnap       -- pass 1, or pass 2, fell due while the tree's slice was being handed over, and what it then met (R52, R156)
  late2 : Option PassSnap
  unb : Tab Nat                 -- handles that cannot be bound again yet: the terminal whose ACK, or return to Unknown, they wait for (R133)
  tmmDue : Tab Nat              -- by TID, at the last cut-off: TMM ACKs due from the terminal + TMMP (R139, R156)
  rngDue : List (Nat × Nat)     -- at the last cut-off: place in the order of Heard, and TID, of the directed ranging grants (R153)
deriving DecidableEq, Repr

/-! ## Uplink ports -/

/-- Uplink-port state (R160 to R202, R255, R353, R354). -/
structure Upl where
  paired : Bool                 -- PAIR sampled when EN rose (R176)
  link : Bool                   -- UPE_LINK
  fenced : Bool                 -- Table 13-5
  rejoin : Bool                 -- a member awaits REJOIN (R198)
  rejoinPend : Bool             -- REJOIN written, for the next tick boundary
  pause : Option Nat            -- pause timer: cycle in which it ends (R180)
  pauseAt : Nat                 -- last cycle in which a start still counts as before the pause that stopped the port (R181)
  pfc : Tab Nat                 -- priority timers: end cycle + 1 by priority; 0: not running
  pfcAt : Tab Nat               -- cycle of the last byte of the frame that stopped a priority (R182)
  fcSent : BitVec 8             -- priorities whose XOFF has been sent (R184)
  fcAt : Tab Nat                -- cycle + 1 of the last flow-control frame by priority, 0: none sent
  shaper : Tab (Int × Nat)      -- bucket level in 1/10,000 byte and its cycle, by queue; unlisted: full
  busy : Nat                    -- cycle from which the wire is free for the next frame
  txFrame : Option Nat          -- the frame last started, or 0 for a flow-control frame: in transmission while the wire is busy (R181, R269)
  txCells : List Nat            -- its cells
  txEnd : Nat                   -- cycle of its last word
  txLen : Nat                   -- its bytes
  resend : Option Nat           -- frame at a queue's head that a slice fault cut short (R395)
  sq : Tab Nat                  -- stamp queue: stamp by frame number (R353)
  sqLost : Nat                  -- stamps lost in this tick (R354)
  recv : List RecvEntry         -- receive list: the frames since the last Skim of the home slice (R389)
  refit : Bool                  -- EN was last written 0 with the fault status that fences the port clear (R425)
deriving DecidableEq, Repr

/-! ## Cipher edge -/

/-- Key-slot state (Table 9-1). -/
structure Slot where
  state : Nat                   -- 0 empty, 1 loaded, 2 spent
  gen : BitVec 4
  klen : Bool
  lutD : Nat
  lutU : Nat
  otD : Nat
  otU : Nat
  lordD : Nat
  lordU : Nat
  cnt : Nat
  warn : Bool
deriving DecidableEq, Repr

/-- A CPQ channel: SEQ of the next request, and the outstanding requests, oldest first. -/
structure Chan where
  next : Byte
  out : List CpqReq
  line : List CpqReq            -- requests that have passed their checks and wait for their lanes, in order (R276)
  cur : Nat                     -- lane after the last request: 8 x cycle + lane
deriving DecidableEq, Repr

/-- A key write on the key port (R276, R278). -/
structure KeyWr where
  slot : Nat
  load : Bool
  klen : Bool
  gen : BitVec 4
  part : Option Nat             -- command ring whose command it completes
  at_ : Nat                     -- cycle in which it was presented
deriving DecidableEq, Repr

/-- Cipher-edge state (R274 to R292). -/
structure Cpe where
  slot : Tab Slot
  tagFail : Tab Nat             -- TAGFAIL by tree x 1024 + TID, 32 bits
  chan : Tab Chan               -- channels 0-17
  keyq : List KeyWr             -- key writes not yet acknowledged, oldest first
  keyStall : Bool               -- CPE KEY_TMO holds (Table 13-4)
  keyAt : Tab Nat               -- cycle + 1 of the last key ACK of a slot (R275); unlisted: 0, none
  done : Tab (Nat × Nat)        -- latest tick and ordinal delivered, key 2 tree + direction (R289)
deriving DecidableEq, Repr

/-! ## Host rings -/

/-- HRD_RST.STATE (R331). -/
inductive RState where
  | disabled | running | idle | quiesced | halted
deriving DecidableEq, Repr

/-- A descriptor taken from a send or fill ring: its index and its eight words. -/
structure Desc where
  index : Nat
  w : List Word
deriving DecidableEq, Repr

/-- A completion record (Table 10-8) without its phase bit. -/
structure CRec where
  kind : Nat
  ring : Nat
  status : Nat
  cause : Nat
  vtag : Bool                   -- CSUM_SKIP or VTAG
  stampLost : Bool
  vtpid : Bool
  ipck : Nat
  index : Nat
  len : Nat
  l4ck : Nat
  stamp : Word
  aux : BitVec 16
  src : BitVec 16
deriving DecidableEq, Repr

/-- A record that its ring has still to issue, in descriptor order (R312, R314). -/
structure PendRec where
  r : CRec
  ready : Bool                  -- its frame has left toward every destination, or is written, or was rejected
  due : Nat                     -- cycle that R314 gives, once ready
  bar : Bool                    -- waits for its barrier acknowledgements (R313)
  acks : Nat                    -- data writes of the frame not yet acknowledged
  frame : Option Nat            -- frame number, while the frame is in the buffer
  info : Option Frame           -- the frame, for a sample (R474)
  sq : Option Nat               -- port whose stamp queue holds the transmit stamp (R353)
deriving DecidableEq, Repr

/-- A send whose data is being fetched or staged (R305, R306, R318, R319). -/
structure SendJob where
  d : Desc
  segs : List (Nat × Nat)       -- segments of the chain walked so far: address, length
  walked : Nat                  -- entries read
  ready : Bool                  -- the chain has been walked (or there is none)
  fetching : Bool               -- the data fetch has started
  got : List (Nat × List Byte)  -- data that has returned, by its offset in the frame (R318)
  ue : Option Word              -- an uncorrectable table entry that the frame will meet (R235; log entry 8)
deriving DecidableEq, Repr

/-- A ring: context (Table 10-2) and indices (R297, R298). -/
structure Ring where
  w : W6                        -- context in force
  wn : W6                       -- context words as written: those of a halted ring wait for word 0 (R294)
  st : RState
  f : Nat                       -- F, fetch or write index
  ph : Bool                     -- PH
  hstat : Nat                   -- HRD_RST.HSTAT
  hindex : Nat
  rdN : Nat                     -- entries covered by the outstanding descriptor read (R300); 0 none
  rescan : Bool                 -- rescan flag
  quiescing : Option Nat        -- partition whose RING_QUIESCE runs
  desc : List Desc              -- descriptors taken and not yet used (send: not yet started)
  jobs : List SendJob           -- sends started
  stopped : Bool                -- fetch stopped at STOP until the level falls to START (R319)
  recs : List PendRec           -- records to issue, in descriptor order
  ci : Nat                      -- completion queue and notice ring: consumer index with wrap bit (R299)
  armd : Bool                   -- armed (R315)
  rsv : Nat                     -- slots reserved and not yet written (R312)
  fwait : Option Nat            -- fill ring: SEQ of the token last counted under FILL_WAIT (R309)
  maxl : Nat                    -- MAXLEN in force (R161)
deriving DecidableEq, Repr

/-- A notice (Table 10-13) without its phase bit. -/
structure Notice where
  merged : Bool
  type : Nat
  tree : Nat
  tid : Nat
  count : Nat
  cause : Nat
  serial : BitVec 64
  tick : Nat
  w6 : Word
  w7 : Word
deriving DecidableEq, Repr

/-- What an outstanding host-memory write is for (R320). -/
inductive WrUse where
  | data (ring : Nat) (idx : Nat)               -- fill data of the frame whose first descriptor is idx
  | scrap                                       -- data that no record names: of a dropped frame (R308), or of an abandoned lap (R332)
  | record (cq : Nat) (kind : RingKind) (ring : Nat)
  | notice (part : Nat)
  | round (seq : Nat)                           -- a group of Milk Round `seq`
  | sample
deriving DecidableEq, Repr

/-- What an outstanding host-memory read is for. -/
inductive RdUse where
  | desc (kind : RingKind) (ring : Nat)
  | chain (ring : Nat)
  | sendData (ring idx off : Nat)              -- data of the send with this descriptor index, from an offset in its frame
  | operand (part off : Nat)                    -- key, TMM or exact-match image (R322), from an offset in it
  | image (part off : Nat)
deriving DecidableEq, Repr

/-- A read burst that waits for its grant (R316, R317). -/
structure RdReq where
  dch : Nat                     -- DMA channel
  ring : Nat                    -- key of the ring that it serves
  addr : Nat
  len : Nat                     -- bytes wanted
  part : Nat
  snoop : Bool
  use : RdUse
deriving DecidableEq, Repr

/-- A write burst that waits for its grant. -/
structure WrReq where
  dch : Nat
  ring : Nat                    -- key of its ring; 32768 for the Milk Round and samples
  addr : Nat
  part : Nat
  bytes : List Byte
  use : WrUse
deriving DecidableEq, Repr

/-- A read outstanding on a host-memory-port channel. -/
structure HRead where
  chan : Nat
  tag : Nat
  addr : Nat
  len : Nat
  dch : Nat
  use : RdUse
  at_ : Nat                     -- cycle of issue (R331)
deriving DecidableEq, Repr

/-- A write outstanding on a host-memory-port channel. -/
structure HWrite where
  chan : Nat
  tag : Nat
  addr : Nat
  dch : Nat
  use : WrUse
  at_ : Nat                     -- cycle of issue
deriving DecidableEq, Repr

/-- A send whose data has been fetched and which has not entered its section (R26, R319). -/
structure Staged where
  ring : Nat
  bytes : List Byte             -- without FCS
  opt : SendOpt
  ue : Option Word              -- an uncorrectable table entry that it will meet
deriving DecidableEq, Repr

/-- A frame at the entrance of an ingress section (R25, R26). -/
structure Arrive where
  up : Bool                     -- upstream section
  src : Src
  bytes : List Byte             -- the bytes kept, FCS included
  n : Nat                       -- N (R162)
  mark : Mark
  stamp : Nat                   -- ingress stamp, 2^-48 ns
  tid : Nat
  hnd : Nat
  maxlen : Nat                  -- MAXLEN in force at the ingress point
  lenField : Nat                -- field 42 (R213)
  lenKnown : Bool               -- the length is known at enqueue (R245)
  looped : Bool                 -- it comes from a loop-back's turning point (R510)
  send : Option SendOpt         -- a host send
  part : Option Nat             -- partition of its send ring (field 36)
  last : Nat                    -- cycle in which its last byte reaches the edge
  page : Option Bool            -- classifier page of its cycle 0, where that has passed (R236)
  frame : Option Nat            -- its frame in the buffer, once its cells are taken (R244)
  again : Bool                  -- it comes again, after its slice has failed: its meter is not charged (R224, R236)
deriving DecidableEq, Repr

/-- What a walk leaves. `mal` is 0, or the action entry of Table 7-5. -/
structure Walk where
  slots : Tab Nat
  ends : Tab Nat
  flags : Nat
  emp : Nat
  mal : Nat
  dirty : Bool          -- it read a word that no replica reads clean
deriving DecidableEq, Repr

/-- What classification answers. -/
structure CRes where
  w : Walk
  ipck : Nat
  l4ck : Nat
  act : Nat
  dp : Nat
  fkind : Nat
  ftgt : Nat
  queues : List (Nat × Nat)   -- target queues, each with the partition of a host target
  ue : Bool               -- dropped under TABLE_UE
  l4drop : Bool           -- withdrawn at every target for a bad L4 checksum (R225)
deriving DecidableEq, Repr

/-- What falls due in a later cycle and takes place as the clock passes it. -/
inductive Turn where
  | bell (kind : RingKind) (ring : Nat)       -- the read that answers a doorbell (R303)
  | record (kind : RingKind) (ring : Nat)     -- a record at the head of a ring (R314)
  | stage                                     -- a section has room for a staged send (R26)
  | cpq (chan : Nat)                          -- a CPQ channel has lanes for its next request (R276)
  | usTick (tree utick ph : Nat)              -- block 0 of an upstream tick is due at the tree edge (R83)
  | verdict (frame slice dir lanes : Nat) (l4 cls : Bool) (x : SmpFrame)  -- the frame MAC has the last byte of a frame (R34, R471)
  | wasted (slice dir lanes evt : Nat) (cls : Bool) (x : SmpFrame)  -- the same of a frame that holds no token since its enqueue (R471)
  | completes (inst : Nat) (x : SmpFrame)   -- a frame completes in an instance (R474)
  | told (inst bit : Nat)                     -- a bit of a fault set has changed to 1: its interrupt and its pin event (R423, R429)
  | force (inst : Nat) (data : Word)          -- sources written to FLT_FORCE in the cycle before (R430)
  | pinOff                                    -- FAULT_OUT deasserts, the cycle after a write of REL (R429)
  | undone (dom : Nat)                        -- an entry is undone, and its domain is ON (R442, R444)
  | spill (frame : Nat)                       -- a frame marked for spill can be written to deep memory (R259)
  | fetch                                     -- the deep port can issue its next read (R260)
  | enter (a : Arrive) (ue : Option Word)     -- a reassembled frame enters its section, 12 cycles after the cipher edge (R53)
  | look (slice : Nat) (a : Arrive) (ue : Option Word)  -- the exact-match lookup of a frame, its cycle 30 (Table 7-1)
  | classify (slice : Nat) (a : Arrive) (ue : Option Word) (em : Option EmEntry)  -- its action fetch, cycle 40
  | enq (slice : Nat) (a : Arrive) (r : Option CRes)  -- its enqueue, cycle 54; none: a frame that is not classified (R205)
  | charge (meter n : Nat) (yellow : Bool)    -- a metered frame's last byte has entered its section (R223)
deriving DecidableEq, Repr

/-- What a partition's running command waits for (R322, Table 10-12). -/
inductive CmdWait where
  | quiesce (kind : RingKind) (ring : Nat)
  | tmm (tree tid : Nat) (addr : Nat)                       -- TMM_SEND: the image read
  | tmmRoom (tree : Nat) (t : Tmm)                          -- waits for one of the 128 places
  | keyRead (slot : Nat) (klen : Bool) (addr : Nat)         -- KEY_LOAD: the key read
  | keyHold (slot : Nat) (load : Bool) (klen : Bool) (key : List Byte)  -- the 4,096 cycles of R275, or KEY_TMO
  | keyAck (slot : Nat)                                     -- the engine's ACK
  | em (op : Nat) (dir : Bool) (addr : Nat)                 -- EM_*: the entry image read
  | image (img : Nat) (addr : Nat) (count : Nat) (second : Bool)  -- OVERLAY_APPLY: the check read, then the write read (R493)
deriving DecidableEq, Repr

/-- The command ring's running command: its index in the ring and what it waits for. -/
structure CmdRun where
  index : Nat
  wait : Option CmdWait         -- none: fetched, its row has not run yet
  words : List Word             -- the eight words read; the key of a KEY_LOAD is never among them
  got : List (Nat × List Byte)  -- operand bytes that have returned, by offset; none outlives its command
  recs : List (Nat × List ImgRec)  -- image records that have returned, by offset
deriving DecidableEq, Repr

/-- Host-ring state (R293 to R335, R539). Rings are keyed by kind x 4096 + number, with the codes of R539. -/
structure Hrd where
  ring : Tab Ring
  cmd : Tab CmdRun              -- running command by partition
  npend : Tab (List Notice)     -- pending area of each partition, oldest first, at most 16 (R327)
  nlost : Tab Nat               -- HRD_NLOST (R327)
  nsince : Tab Nat              -- losses since the last NOTICE_LOST
  nlostAt : Nat                 -- last cycle in which a notice was lost
  nlostNow : Tab Nat            -- losses of that cycle, by partition (R520)
  fenced : List Nat             -- fenced DMA channels
  rd : List HRead
  wr : List HWrite
  lateR : List HRead            -- reads that timed out: their tags are held until the response (R331)
  lateW : List HWrite
  rq : List RdReq               -- read bursts that wait for their grant, oldest first (R316)
  wq : List WrReq               -- write bursts that wait for their grant
  rrCh : Tab Nat                -- DMA channel whose turn is next among those of one PRIO, key 8 x (2 x host-memory-port channel + direction) + PRIO (R316)
  rrRing : Tab Nat              -- ring whose turn is next within a DMA channel, key 2 x DMA channel + direction
  staged : List Staged          -- sends in staging cells, in order (R319)
  later : List (Nat × Turn)     -- what falls due, by cycle
  held : List (Nat × RingKind × Nat × Word)  -- doorbells held while HP is not ON: partition, kind, ring, data (R299)
deriving DecidableEq, Repr

/-! ## Availability -/

/-- Slice roles (Table 12-1). -/
inductive Role where
  | active | spare | shadow | loading | failed | testing | defective
deriving DecidableEq, Repr

/-- Downstream egress of a tree in a Skim record. -/
structure EgrRec where
  sel : Nat                     -- absolute beat of the last committed selection
  cont : Option Cont            -- continuation of a split frame
  asm : Nat × Nat               -- assembly progress: absolute beat, and TUs assembled of it
deriving DecidableEq, Repr

/-- A Skim record (Table 12-4). A frame enters its section whole, so the positions in a port's receive list and in a ring's staging are
its ingress frame numbers; an uplink port serves its queues in strict priority, so its scheduler stands at priority 7. -/
structure SkimRec where
  tick : Nat
  beat : Nat
  at_ : Nat                     -- cycle of the capture
  img : Nat                     -- overlay in force
  trees : List Nat              -- homes in force
  ports : List Nat
  ino : Tab Nat                 -- ingress frame numbers at the capture
  bursts : Tab (Nat × Nat)      -- by tree: upstream tick of the last burst taken into the section, and the block after it
  egr : Tab EgrRec              -- by tree: downstream egress
  dfc : Tab Int                 -- deficits of the hosted queues
  rr : Tab Nat                  -- round-robin positions
  shaper : Tab (Tab (Int × Nat)) -- by port: shaper buckets (R255)
  tx : Tab Nat                  -- by port: frame in transmission
  chn : Tab Chn                 -- by tree: the Churn's state (R156)
deriving DecidableEq, Repr

/-- A handover under way (R398). -/
structure Handover where
  failed : Nat
  new : Nat
  d : Nat                       -- cycle of declaration
  dCyc : Nat                    -- its cycle within the tick
  cause : Nat
  walked : Bool                 -- the withdrawal walk has ended (R392)
  live : Bool                   -- replay has started
  rehome : Bool                 -- a re-homing (R401)
  trees : List Nat              -- trees and ports concerned
  ports : List Nat
  lost : List SkimPart          -- entries of the record of which a word read uncorrectable (R385)
  held : List Arrive            -- input since D, held in the replay sources in order (R389)
  fell : List Nat               -- slices that failed while they took over here: the re-homing returns them to repair too (R411, Table 12-12)
deriving DecidableEq, Repr

/-- A rotation under way (R407, R405): outgoing slice, or none for a restoring rotation of a set. -/
structure Rotation where
  out : Option Nat
  inn : Nat
  set : Option Nat
  tick : Nat                    -- m
  lost : List SkimPart          -- entries of the records that the shadow loads of which a word read uncorrectable (R385, R407)
deriving DecidableEq, Repr

/-- The word that an ingress section is filling (R25). -/
structure Sec where
  at_ : Nat                     -- cycle in which the word passes
  lanes : Nat                   -- lanes filled, 0-15
  starts : Nat                  -- frame starts in it
deriving DecidableEq, Repr

/-- Skim and handover control (R379 to R416). -/
structure Skm where
  role : Tab Role               -- unlisted: slices 0-7 ACTIVE, 8 SPARE
  mode : Nat                    -- SKM_STAT.MODE (Table 12-3)
  replay : Bool                 -- SKM_STAT.REPLAY
  stPass : Bool                 -- SKM_ST
  stValid : Bool
  stSlice : Nat
  hoCnt : Nat                   -- SKM_HO_CNT
  passAt : Tab Nat              -- cycle in which a slice's self-test pass began (R409); unlisted: 0
  reinst : Tab Nat              -- reinstatements since reset, by slice
  wasSpare : Tab Nat            -- order number of the slice's last time as SPARE; unlisted: 0
  spareNo : Nat                 -- next order number
  ho : List Handover            -- handovers and re-homings under way, oldest first
  rot : Option Rotation
  rotDue : Bool                 -- a rotation is due (R406)
  rotTick : Nat                 -- tick of the last rotation
  restore : Bool                -- a restoring rotation waits for its tick (R405)
  skim : Tab SkimRec             -- last Skim by slice
  skimPrev : Tab SkimRec         -- the record before it
  sec : Tab Sec                 -- ingress sections, key 2 slice + direction (R25, R26)
  repair : List Nat             -- FAILED slices whose test waits until their domain is ON (R382, R411)
  passOk : List Nat             -- slices whose last self-test pass succeeded (R406, R409)
  strobe : Tab Nat              -- by slice: cycle of its last progress strobe (R387)
  beatDone : Tab Nat            -- by slice: absolute beat of its last beat-done, + 1 (R387)
  wrote : Tab (Nat × Nat)       -- by tree: tick and ordinal of the last TU that its cell writer has written (R389)
deriving DecidableEq, Repr

/-! ## Power -/

/-- A power domain (R434 to R456). -/
structure PDom where
  state : Nat                   -- 0 ON, 1 RET, 2 OFF
  phase : Nat                   -- 0 steady, 1 handshake, 2 entry, 3 exit, 4 undoing an entry
  cur : Option Nat              -- target of the current request
  curAt : Nat                   -- cycle in which it became current
  a : Nat                       -- cycle A of an entry; of an exit, the cycle in which PWC_PGATE fell, then that of its end
  queued : Option Nat           -- queued target
  res : Nat                     -- PWR_DSTAT.RES
  cause : Nat                   -- PWR_DSTAT.CAUSE
  lwsrc : Nat                   -- PWR_DSTAT.LWSRC
  wake : Nat                    -- wake source raised since the request became current; 0 none
  wakeAt : Nat                  -- cycle in which it was raised (R445)
  acc : Nat                     -- units of Table 14-4 that have accepted, one bit each in the table's order (R440)
  point : Nat                   -- next abort point 1-4, of an undone entry the one that it ended at; 5: waits for PWC_PACK; 6: exit work
  iso : Bool                    -- PWC_ISO
  ret : Bool                    -- PWC_RET
  gate : Bool                   -- PWC_PGATE
  kept : BitVec 2               -- PWR_RETSEL sampled at abort point 3 (R455)
  chain : Bool                  -- an exit waits for its home slice (R448)
  tmo : Bool                    -- STATE_TMO raised in this exit (R446)
  missed : Bool                 -- SLn: its replicas missed a write or a swap (R447)
  copy : Bool                   -- SLn: the exit copies every table from another slice (R447)
deriving DecidableEq, Repr

/-- Power controller state. -/
structure Pwr where
  dom : Tab PDom                -- by domain code; unlisted: ON, steady
  lwTick : Nat                  -- PWR_LWAKE
  lwDom : Nat
  lwSrc : Nat
  lwOut : Nat
  lwValid : Bool
  evAt : Nat                    -- the last cycle in which a wake event found its domain ON with no entry under way (R443, R445)
  ev : Tab Nat                  -- that cycle's events: the lowest source by domain code
  wenAt : Nat                   -- last cycle in which a PWR_WEN was written
  wenWas : Tab Word             -- those written in it, by offset: their values before, in force for that cycle (R455)
deriving DecidableEq, Repr

/-! ## Counters -/

/-- Lane-slot accounting of one slice and direction (R471): cycles while not running, the cycle since which it
runs, and the classes; FRONT is what remains of 16 x CYCLES (R472). -/
structure Lane where
  cyc : Nat
  since : Option Nat
  retired : Nat
  wasted : Nat
  back : Nat
  pending : Nat
deriving DecidableEq, Repr

/-- A Milk Round that reads, or whose groups are not all written (R466, R467). -/
structure Round where
  seq : Nat
  tick : Nat                    -- its tick
  at_ : Nat                     -- cycle of its start
  len : Nat
  base : Nat
  got : Nat                     -- entries read
  vals : List Nat               -- values of the group being read, in list order
  skip : List Bool              -- its entries that were skipped
  todo : List (Nat × List Byte) -- groups read and not yet written: address, bytes
deriving DecidableEq, Repr

/-- Counters and Milk Round (R457 to R478). Selected counters are keyed 16 x instance + number. -/
structure Cnt where
  val : Tab Nat                 -- 48 bits
  reload : Tab Nat              -- reload value (R459)
  wrap : Tab (BitVec 16)        -- CNT_WRAP by instance
  sample : Tab (Nat × Nat)      -- armed samples by instance: counter and completions passed over (R474)
  obj : Tab Nat                 -- object counters, key (array x 131072 + object) x 4 + event (R461)
  list0 : Tab Word              -- Milk Round list pages (R465)
  list1 : Tab Word
  page : Bool                   -- active list page: true page 1
  swap : Bool                   -- CNT_MR_CTL.SWAP
  lidx : Nat                    -- CNT_MR_LIDX
  due : Nat                     -- ticks since the last due round (R466)
  mrDue : Bool                  -- a round has fallen due at this tick's boundary
  mrPer : Nat                   -- CNT_MR_CFG.PER as the last round's start sampled it (R466, R477)
  mrCfg : Word                  -- CNT_MR_CFG word 1 (CHAN, IEN, VEC) as the last round's start took it (R477)
  round : Option Round
  ackw : List Nat               -- rounds that are written and wait for acknowledgements (R470)
  seq : Nat                     -- CNT_MR_STAT.SEQ
  doneSeq : Nat                 -- CNT_MR_STAT.DONESEQ
  skips : Nat                   -- CNT_MR_STAT.SKIP, saturating
  sWr : Nat                     -- sample ring write index with wrap bit (R475)
  sCi : Nat                     -- CNT_SMP_CI
  sTick : Nat                   -- samples written in this tick
  sLost : Nat                   -- CNT_SMP_STAT.LOST
  lane : Tab Lane               -- key 2 slice + direction
  snap : Tab Lane               -- last CNT_SLOT_SNAP, with `since` none (R472)
  snapRound : Tab Lane          -- snapshot of the running round (R469)
  heldAt : Nat                  -- last cycle in which a write set a selected counter
  held : List Nat               -- the counters set in it, which count nothing more in that cycle (R478)
  wasAt : Nat                   -- last cycle in which a counter counted or a sample was lost
  was : Tab Nat                 -- selected counters that counted in it: their values before (R478)
  wasObj : Tab Nat              -- the same of object counters
  wrapNow : Tab (BitVec 16)     -- CNT_WRAP bits set in it, by instance (R520)
  sLostNow : Nat                -- samples lost in it (R520)
deriving DecidableEq, Repr

/-! ## Test -/

/-- A running loop-back slot (R504, R505). -/
structure Loop where
  depth : Nat
  inst : Nat
  peer : Nat
deriving DecidableEq, Repr

/-- An emulated terminal of Ventriloquist mode (R512). -/
structure VqTerm where
  tid : Nat                     -- ID that B assigned; 0 none
  hnd : Nat                     -- management handle
  stage : Nat                   -- 0 announcing, 1 assigned, 2 ranged, 3 quiet, 4 disabled
  eqd : Int                     -- EQD in use
  eqdNext : List (Nat × Bool × Int)  -- orders not yet in force: tick, true for a new EQD or false for a change, amount
  extra : Int                   -- accumulated drift, steps
  lfsr : BitVec 5               -- the 5-bit LFSR that chooses announcement slots
  svc : List Nat                -- service indexes bound to it
  hnds : List Nat               -- data handles bound to it
  outq : List (List Byte)       -- TMMs waiting to be sent upstream, 48 bytes each
  seq : Byte                    -- SEQ of its next TMM
  lastAck : Option (Nat × Nat)  -- TYPE and SEQ of the last TMM it acknowledged (R85)
  ksel : Nat
  kselNext : Option (Nat × Nat) -- tick and KSEL
  orders : List (Nat × Nat × Nat) -- ALLOC and STATE orders not yet in force: tick; 0 to 3 as ALLOC, 4 + n for STATE n; handle or index
  cont : Tab Cont               -- by handle: the frame that a split left unfinished
  tds : List (Nat × Nat)        -- TIME_DELAYs: TICK and TD, 2^-16 ns (R365)
  trunk : List (Nat × Int)      -- TRUNK_DELAYs: TICK and steps (R365)
  clk : Option (Nat × Int × Bool) -- its clock: a tick, the time at which block 0 arrived, in 1/10 of 2^-16 ns, and whether it is traceable
deriving DecidableEq, Repr

/-- A burst of an emulated terminal, from its header block on. -/
structure VqBurst where
  at_ : Int                     -- transmission instant of its header, in steps: 64 x cycle + phase
  tick : Nat                    -- tick of the map obeyed
  blk : Nat                     -- block number of its header in B's tick
  n : Nat                       -- blocks, without end blocks
  head : List (BitVec 128)      -- header, report and TMM blocks
  tus : List DsTu               -- data TUs, block numbers as `blk`
  plain : Tab (List Byte)       -- by block number of a first TU: its whole frame
  sent : Nat                    -- blocks answered so far
deriving DecidableEq, Repr

/-- Ventriloquist slot state (R511 to R514). -/
structure Vq where
  term : Tab VqTerm             -- unlisted: not yet announced
  bTree : Nat                   -- B's tree number, from its tick block
  bSpan : Nat                   -- B's span member ID, from its tick block
  bTick : Nat                   -- B's tick
  rxAt : Int                    -- arrival of block 0 of that tick, in steps
  tx : List VqBurst             -- bursts to send, in order of time
  probe : Bool                  -- TST_VQn.PROBE
  probeFrame : Option (List Byte) -- bytes of the probe on its way, once PTX is taken
  ptx : Nat                     -- TST_VQn_PTX, 2^-48 ns
  prx : Nat                     -- TST_VQn_PRX
deriving DecidableEq, Repr

/-- Loop-back state (R504 to R516). -/
structure Tst where
  loop : Tab Loop               -- running slots
  rej : Tab Nat                 -- TST_LBn_STAT.REJ
  vq : Tab Vq
deriving DecidableEq, Repr

/-! ## What leaves the block -/

/-- What crosses the block's edge in one step, in order. -/
inductive Out where
  | irq (vec part : Nat)                                            -- IRQ_* (R321)
  | regRead (data : Word)                                           -- REG_RDATA
  | hostRead (chan tag addr beats part : Nat) (snoop : Bool)        -- HMP_RQ_*
  | hostWrite (chan tag addr part : Nat) (bytes : List Byte)        -- HMP_WQ_*
  | deepRead (chan addr : Nat)                                      -- DMP_RQ_*: channel, address of the cell
  | deepWrite (chan addr : Nat)                                     -- DMP_WQ_*
  | cpqReq (chan word lane : Nat) (data : List (BitVec 128)) (mty : Nat)         -- CPQ_REQ_*: cycle and lane of SOP, the lanes in order, the last with EOP and MTY
  | cpqKey (op slot : Nat) (gen : BitVec 4) (klen : Bool) (key : List Byte)      -- CPQ_KEY_*
  | mapWrite (tree addr : Nat) (ent : BitVec 64)                    -- TFE_MAP_WE
  | mapCount (tree cnt : Nat)                                       -- TFE_MAP_CNTWE
  | mapDone (tree : Nat)                                            -- TFE_MAP_DONE
  | dsBlock (tree blk : Nat) (data : BitVec 128)                    -- TFE_DS_*
  | vqBlock (tree : Nat) (sob : Bool) (ph : Nat) (data : BitVec 128)    -- TFE_DS_* with TFE_VQ_SOB, TFE_VQ_PH
  | usTick (tree utick ph : Nat)                                    -- TFE_US_TICK of an upstream tick, TFE_US_TPH
  | pswAck (tree : Nat)                                             -- TFE_PSW_ACK
  | upeTx (port : Nat) (bytes : List Byte) (err : Bool)             -- UPE_TX_*, FCS included; err: UPE_TX_ERR
  | upeCut (port kept : Nat)                                        -- the frame on the port's wire ends after `kept` bytes and 4 of stomped FCS (R330)
  | todOut (baud : Nat) (line : List Bool)                          -- TOD_OUT: the line's levels, one for each bit time (R370)
  | fuseReq (word : Nat)                                            -- REG_FUSE_REQ
  | faultOut (high : Bool)                                          -- FAULT_OUT changes to this electrical level (R428)
deriving DecidableEq, Repr

/-- The state of the block. -/
structure State where
  regs : Regs
  glb : Glb
  flt : Tab FaultSet            -- by instance code (Table 15-1); unlisted: clear
  tim : Tim
  qbm : Qbm
  cls : Cls
  tre : Tab Tre                 -- by tree; unlisted: not running
  chn : Tab Chn                 -- by tree
  upl : Tab Upl                 -- by port
  cpe : Cpe
  hrd : Hrd
  skm : Skm
  pwr : Pwr
  cnt : Cnt
  tst : Tst
  fresh : Nat                   -- the MODEL's own: number of the next free value (log entry 3)
  out : List Out                -- what crossed the edge in the last command, in order
  pending : List Instr          -- commands that wait, first in, first out
deriving DecidableEq, Repr

/-- Why a step can stop with a fault: the spec gives no command of the block an effect that stops it, so the
type has no constructor. -/
inductive Fault where
deriving DecidableEq, Repr

/-- Why a step can refuse a command. -/
inductive Refusal where
  /-- Raised only by the arm of exec of a row that has no meaning yet. Safe: the model stops. -/
  | notModelled (mnemonic : String)
deriving DecidableEq, Repr

/-- What a command answers. -/
abbrev Outcome := Host.Outcome State Fault Refusal

/-! ## What an unlisted key of a table reads -/

/-- A clear fault set (R418). -/
def FltCyc.empty : FltCyc := ⟨0, 0, 0, none, 0⟩
def FaultSet.clear : FaultSet := ⟨0, none, 0, FltCyc.empty⟩

/-- A bank group after reset: every cell free (R480). -/
def Group.empty : Group :=
  { next := 0, freed := [], quar := [], ue := 0, bad := [], fenced := false, leaving := false }

/-- A link word that ends a chain. -/
def LinkWord.last : LinkWord := ⟨⟨0, true, false⟩, ⟨0, true, false⟩⟩

/-- A terminal in Unknown (R109). -/
def Ctx.unknown : Ctx :=
  { state := .unknown, ret := .unknown, serial := 0, tresp := 0, cap := 0, eqd := 0, eqd0 := 0, o := 0, sbo := none,
    conv := false, run := 0, miss := 0, outl := 0, adj := none, ranging := none, rangeNew := false, order := 0,
    ackA := false, ackR := false, resEqd := none, measured := none, lastDelta := 0, lostTick := 0, burstTick := 0,
    alarm := false, reach := false, wide := false, tmmp := false, td := none, tdDue := false, ksel := 0, kselNext := none,
    resSent := [], admitAnn := none, cmds := [], dg := false, model := 0, hostData := 0, missNow := 0 }

/-- A tree port that is not running. -/
def Tre.empty : Tre :=
  { run := false, startPend := false, rate := 0, fenced := false, ctx := [], pre := [], heard := [], anns := [],
    acks := [], orderNo := 1, seq := 0, tmmq := [], tmmPend := [], tmmDue := 0, tmmOut := [], tmmTick := 0, tmmN := 0, stage := [], cont := none,
    emitFrom := 0, dsBlk := 0, dsTick := 0, selOnce := false, map := [], mapCnt := 0, mapDone := false, mapNone := false, grants := [],
    bursts := [], reasm := [], sel := false, act := none, psw := none, lockout := false, forced := false,
    tref := 0, trefNext := none, tod := none, tagTick := 0, fullTick := false, tdAll := false, sd := false, usRtt := [], refit := false }

/-- Reassembly with no frame open. -/
def Reasm.empty : Reasm :=
  { pieces := [], isOpen := false, tid := 0, bytes := [], total := 0, maxlen := 0, tick := 0, stamp := 0, out := 0, bad := false }

/-- Churn state of a tree that is not running. -/
def Chn.empty : Chn :=
  { alloc := [], allocPend := [], bind := [], svc := [], est := [], ivl := 0, lastWin := none, lastEnd := 0, startTick := 0,
    discNow := false, defers := 0, wins := [], discBad := false, pass := none, rot := 1, oversub := none, guard := 0, shown := [],
    closing := false, late1 := none, late2 := none, unb := [], tmmDue := [], rngDue := [] }

/-- A fresh estimator. -/
def Est.empty : Est :=
  { cur := none, nxt := none, b := 0, k := 0, rx := 0, lastRx := 0, grants := [], a := 0, carry := 0, start := 0, atMin := false }

/-- A disabled uplink port with its link down. -/
def Upl.empty : Upl :=
  { paired := false, link := false, fenced := false, rejoin := false, rejoinPend := false, pause := none, pauseAt := 0, pfc := [], pfcAt := [],
    fcSent := 0, fcAt := [], shaper := [], busy := 0, txFrame := none, txCells := [], txEnd := 0, txLen := 0, resend := none, sq := [], sqLost := 0, recv := [], refit := false }

/-- An empty key slot with GEN 0 and LUT 0 (R480). -/
def Slot.empty : Slot :=
  { state := 0, gen := 0, klen := false, lutD := 0, lutU := 0, otD := 0, otU := 0, lordD := 0, lordU := 0, cnt := 0,
    warn := false }

/-- A CPQ channel with nothing outstanding. -/
def Chan.empty : Chan := ⟨0, [], [], 0⟩

/-- A disabled ring with every context field 0 (R294). The spec's sources differ about MAXLEN of a ring: R294 resets every context field
to 0, Table 0-4 gives each MAXLEN a default of 1,522. The model follows R294; DESIGN CHOICE (log entry 31). -/
def Ring.empty : Ring :=
  { w := W6.zero, wn := W6.zero, st := .disabled, f := 0, ph := false, hstat := 0, hindex := 0, rdN := 0, rescan := false,
    quiescing := none, desc := [], jobs := [], stopped := false, recs := [], ci := 0, armd := false, rsv := 0, fwait := none, maxl := 0 }

/-- A domain that is ON with no request. -/
def PDom.on : PDom :=
  { state := 0, phase := 0, cur := none, curAt := 0, a := 0, queued := none, res := 0, cause := 0, lwsrc := 0, wake := 0, point := 0,
    wakeAt := 0, acc := 0, iso := false, ret := false, gate := false, kept := 0, chain := false, tmo := false, missed := false,
    copy := false }

/-- Lane accounting that has counted nothing. -/
def Lane.empty : Lane := ⟨0, none, 0, 0, 0, 0⟩

/-- A Ventriloquist slot with no terminal. -/
def Vq.empty : Vq :=
  { term := [], bTree := 0, bSpan := 0, bTick := 0, rxAt := 0, tx := [], probe := false, probeFrame := none, ptx := 0, prx := 0 }

/-- Emulated terminal `k` before it has announced itself: its LFSR is seeded by `k`. -/
def VqTerm.start (k : Nat) : VqTerm :=
  { tid := 0, hnd := 0, stage := 0, eqd := 0, eqdNext := [], extra := 0, lfsr := BitVec.ofNat 5 k, svc := [], hnds := [], outq := [],
    seq := 0, lastAck := none, ksel := 0, kselNext := none, orders := [], cont := [], tds := [], trunk := [], clk := none }

/-! ## Reset -/

/-- Registers after reset: every offset holds its reset value, nothing held or captured (R480). -/
def Regs.reset : Regs := ⟨[], [], [], [], [], [], []⟩

/-- Global page after reset: phase 0, homes as R27 gives, pin deasserted (R481). -/
def Glb.reset : Glb :=
  { phase := 0, fuse := [], fuseOk := false, lot := 0, wafer := 0, dieX := 0, dieY := 0, issue := 0,
    defSlc := 0, defBg := 0, fuseRep := 0, softRep := 0, armed := false, armAt := 0, homeTree := [], homeUpl := [], lostT := [], lostU := [], img := 0,
    applied := false, imgTick := 0, pend := [], pin := .idle, pinAt := 0, pinEv := none, pinRel := false, pinWait := false, wrejOfs := 0,
    wrejReason := 0, prtBad := [] }

/-- Time engine after reset: stopped, TIM_INC at its reset value (R337, R339). -/
def Tim.reset : Tim :=
  { now := 0, started := false, startWait := none, tick := 0, beat := 0, tickStart := 0, mapPage := false, cutDone := false, zero := false, time := 0,
    inc := 0xCCCCCCCCCCCD, slew := 0, incWas := none, slewWas := none, incDef := none, slewDef := none, incHeld := none, slewHeld := none,
    armed := false, hold := false, holdTick := 0, stepPend := none, restart := none, stepN := 0,
    lstepOld := 0, lstepNew := 0, stepFlag := false, stepAt := none, wdogTick := 0, proj := none, caps := [],
    ppsLast := none, ppsLost := false, ppsiTime := 0, ppsiTerr := 0, ppsOut := false, ppsOutAt := 0, ppsOutSec := 0,
    todDue := false, todOut := none, todiSec := 0, todiFlags := 0, todiNew := false, todiUtc := 0, todiAt := 0, todiOld := (0, 0, false, 0), segs := [] }

/-- Queues and buffer after reset: empty, every cell free, group g at group g (R237, R480). -/
def Qbm.reset : Qbm :=
  { q := [], ctx := [], ctxPend := [], cc := [], pc := [], dfc := [], rr := [], segs := [], chg := [], s := 0, frames := [],
    nextFrame := 0, seqNo := [], commit := [], link := [], grp := [], rrGrp := [], bgmap := [], retire := none, rAt := 0, rBusy := false,
    rNoSpare := false, spareUsed := false, leak := 0, portCells := [], xoff := [], xoffAll := false, sel := [],
    rep := [], repOld := [], ino := [], dNext := 0, dFreed := [], dUsed := 0, dLost := 0, dpAt := 0, dRefused := false, spillTo := [],
    dwAt := 0, spill := [], fetch := [] }

/-- Classifier after reset: page 0 active, in sync, every table as R210 gives (R480). -/
def Cls.reset : Cls :=
  { tbl := [], active := false, sync := true, swapAt := 0, fresh := [], swapDue := [], em := [], meter := [], dirty := [] }

/-- Cipher edge after reset: every slot empty with GEN 0 and LUT 0 (R480). -/
def Cpe.reset : Cpe :=
  { slot := [], tagFail := [], chan := [], keyq := [], keyStall := false, keyAt := [], done := [] }

/-- Host rings after reset: every ring disabled (R294). -/
def Hrd.reset : Hrd :=
  { ring := [], cmd := [], npend := [], nlost := [], nsince := [], nlostAt := 0, nlostNow := [], fenced := [], rd := [], wr := [], lateR := [], lateW := [],
    rq := [], wq := [], rrCh := [], rrRing := [], staged := [], later := [], held := [] }

/-- A section that has filled no word. -/
def Sec.empty : Sec := ⟨0, 0, 0⟩

/-- Skim after reset: slices 0-7 ACTIVE, 8 SPARE, PROTECTED (R11, Table 12-9). -/
def Skm.reset : Skm :=
  { role := [], mode := 0, replay := false, stPass := false, stValid := false, stSlice := 0, hoCnt := 0, passAt := [], reinst := [],
    wasSpare := [], spareNo := 1, ho := [], rot := none, rotDue := false, rotTick := 0, restore := false, skim := [],
    skimPrev := [], sec := [], repair := [], passOk := [], strobe := [], beatDone := [], wrote := [] }

/-- Power controller after reset: every domain ON (Table 16-2), no wake recorded (Table 18-4). -/
def Pwr.reset : Pwr :=
  { dom := [], lwTick := 0, lwDom := 0, lwSrc := 0, lwOut := 0, lwValid := false, evAt := 0, ev := [], wenAt := 0, wenWas := [] }

/-- Counters after reset: zero (R462, R480). -/
def Cnt.reset : Cnt :=
  { val := [], reload := [], wrap := [], sample := [], obj := [], list0 := [], list1 := [], page := false, swap := false,
    lidx := 0, due := 0, mrDue := false, mrPer := 8, mrCfg := 0, round := none, ackw := [], seq := 0, doneSeq := 0, skips := 0, sWr := 0, sCi := 0, sTick := 0, sLost := 0,
    lane := [], snap := [], snapRound := [], heldAt := 0, held := [], wasAt := 0, was := [], wasObj := [], wrapNow := [], sLostNow := 0 }

/-- No loop-back runs after reset (Table 17-4). -/
def Tst.reset : Tst := ⟨[], [], []⟩

/-- The block right after block reset, in cycle 0 of start-up (R480, R481). -/
def State.reset : State :=
  { regs := Regs.reset, glb := Glb.reset, flt := [], tim := Tim.reset, qbm := Qbm.reset, cls := Cls.reset, tre := [],
    chn := [], upl := [], cpe := Cpe.reset, hrd := Hrd.reset, skm := Skm.reset, pwr := Pwr.reset, cnt := Cnt.reset,
    tst := Tst.reset, fresh := 0, out := [], pending := [] }

end Sys2Proof.Machine
end

