-- ==== Sys2Proof/Machine/Tab.lean ====
section
/-!
DEFINITION. Sparse tables: lookup, update and removal. A table with a default lists no entry equal to it.
-/

namespace Sys2Proof.Machine

/-- The listed value at key `k`. -/
def tFind {α : Type} (k : Nat) : Tab α → Option α
  | [] => none
  | (j, v) :: t => if j = k then some v else tFind k t

/-- The value at key `k`; an unlisted key reads `d`. -/
def tGet {α : Type} (d : α) (t : Tab α) (k : Nat) : α := (tFind k t).getD d

/-- List `v` at key `k`, keys kept rising. -/
def tPut {α : Type} (k : Nat) (v : α) : Tab α → Tab α
  | [] => [(k, v)]
  | (j, w) :: t =>
    if k < j then (k, v) :: (j, w) :: t
    else if k = j then (k, v) :: t
    else (j, w) :: tPut k v t

/-- Remove key `k`. -/
def tDel {α : Type} (k : Nat) (t : Tab α) : Tab α := t.filter (fun e => e.1 != k)

/-- Write `v` at key `k` of a table whose unlisted keys read `d`. -/
def tSet {α : Type} [DecidableEq α] (d : α) (t : Tab α) (k : Nat) (v : α) : Tab α :=
  if v = d then tDel k t else tPut k v t

/-- Change the value at key `k`. -/
def tMod {α : Type} [DecidableEq α] (d : α) (t : Tab α) (k : Nat) (f : α → α) : Tab α :=
  tSet d t k (f (tGet d t k))

/-- Keys strictly rising. -/
def tRising {α : Type} : Tab α → Bool
  | [] => true
  | [_] => true
  | a :: b :: t => (decide (a.1 < b.1)) && tRising (b :: t)

end Sys2Proof.Machine
end

