-- ==== Sys2Proof/Machine/Ops.lean ====
section
/-!
DEFINITION. The operations that every unit shares: registers, what leaves the block, free values, time, homes, power
state, wake events, counters, interrupts, notices, fault sets and the pin.
-/

namespace Sys2Proof

open Machine

/-! ## Fields of a ring context (Table 10-2) -/

def W6.en (w : W6) : Bool := bit w.w0 0
def W6.k (w : W6) : Nat := fld w.w0 1 4 + 6
def W6.snoop (w : W6) : Bool := bit w.w0 11
def W6.base (w : W6) : Nat := w.w1.toNat / 64 * 64 + fld w.w2 0 20 * 2 ^ 32
def W6.cq (w : W6) : Nat := fld w.w3 0 10
def W6.chan (w : W6) : Nat := fld w.w3 10 8
def W6.maxlen (w : W6) : Nat := fld w.w3 18 14
def W6.start (w : W6) : Nat := fld w.w4 0 16
def W6.stop (w : W6) : Nat := fld w.w4 16 16
def W6.vec (w : W6) : Nat := fld w.w5 0 12
def W6.acceptErr (w : W6) : Bool := bit w.w0 12
def W6.vstrip (w : W6) : Bool := bit w.w0 13
def W6.priv (w : W6) : Nat := fld w.w0 14 2
def W6.side (w : W6) : Bool := bit w.w0 16
def W6.anchor (w : W6) : Nat := fld w.w0 17 6

end Sys2Proof

namespace Sys2Proof.Machine

/-! ## Registers, outputs, free values -/

/-- The value in force of the stored register at an offset. -/
def reg (s : State) (a : Nat) : Word := tGet (regReset a) s.regs.val a

/-- A field of a stored register. -/
def regF (s : State) (a lo n : Nat) : Nat := fld (reg s a) lo n

/-- A one-bit field of a stored register. -/
def regB (s : State) (a i : Nat) : Bool := bit (reg s a) i

/-- Give a stored register a value, in force at once. -/
def setReg (a : Nat) (v : Word) (s : State) : State :=
  { s with regs := { s.regs with val := tSet (regReset a) s.regs.val a v } }

/-- A word with a list of deferred writes applied. -/
def withDef (a : Nat) (w : Word) (l : List DefWrite) : Word :=
  l.foldl (fun w d => if d.addr = a then mergeW w d.mask d.data else w) w

/-- A stored register as it will read once every deferred write is in force. -/
def regAfter (s : State) (a : Nat) : Word :=
  withDef a (withDef a (reg s a) s.regs.cutDef) s.regs.tickDef

/-- A 48-bit or 64-bit value of a _LO and _HI pair of stored registers. -/
def regPair (s : State) (a : Nat) : Nat := (reg s a).toNat + 2 ^ 32 * (reg s (a + 4)).toNat
def pairAfter (s : State) (a : Nat) : Nat := (regAfter s a).toNat + 2 ^ 32 * (regAfter s (a + 4)).toNat

/-- Add what crosses the block's edge. -/
def emit (o : Out) (s : State) : State := { s with out := s.out ++ [o] }

/-- A new command or event starts: nothing has crossed the edge yet. -/
def begin_ (s : State) : State := { s with out := [] }

/-- The next free value (log entry 3), and the state with it used up. -/
def freeNat (s : State) : Nat := Config.freeValue s.fresh
def useFree (s : State) : State := { s with fresh := s.fresh + 1 }

/-! ## Time -/

/-- Cycles of a tick and of a beat (R9). -/
def tickCyc : Nat := 156250
def beatCyc : Nat := 15625

/-- The cycle of the tick, 0 to 156,249 (R22). -/
def cyc (s : State) : Nat := s.tim.now - s.tim.tickStart

/-- Beats counted from tick 0: 10 x tick + beat. -/
def absBeat (s : State) : Nat := 10 * s.tim.tick + s.tim.beat

/-- One nanosecond in units of the time counter (R336). -/
def unitNs : Nat := 2 ^ 48

/-- Whole nanoseconds of a time. -/
def nsOf (t : Nat) : Nat := t / unitNs

/-- Seconds, nanoseconds and FNS of a time (R336). -/
def secOf (t : Nat) : Nat := nsOf t / 1000000000 % 2 ^ 48
def nsInSec (t : Nat) : Nat := nsOf t % 1000000000
def fnsOf (t : Nat) : Nat := t / 2 ^ 32 % 2 ^ 16

/-- The compact form of a time (R350). -/
def compact (t : Nat) : Word := w32 (nsOf t)

/-- Add a signed amount of 2^-48 ns to a time, not below 0. -/
def addTime (t : Nat) (d : Int) : Nat := ((t : Int) + d).toNat

/-- A phase or an offset in steps, in 2^-48 ns: steps x TIM_INC / 64 (R348). -/
def steps (s : State) (n : Int) : Int := n * (s.tim.inc : Int) / 64

/-- A signed 32-bit register in 2^-16 ns, in 2^-48 ns. -/
def ofs16 (w : Word) : Int := sext 32 w.toNat * (2 ^ 32 : Nat)

/-! ## Homes and domains -/

/-- Home slice of a tree (R27). -/
def homeT (s : State) (t : Nat) : Nat := tGet (t / 8) s.glb.homeTree t

/-- Home slice of an uplink port (R27). -/
def homeU (s : State) (p : Nat) : Nat := tGet (p / 2) s.glb.homeUpl p

/-- A tree or a port whose home slice has failed and which was not re-homed (R404). -/
def lostTree (s : State) (t : Nat) : Bool := s.glb.lostT.contains t
def lostPort (s : State) (p : Nat) : Bool := s.glb.lostU.contains p

/-- Give a tree or a port a home. -/
def setHomeT (t h : Nat) (s : State) : State := { s with glb := { s.glb with homeTree := tSet (t / 8) s.glb.homeTree t h } }
def setHomeU (p h : Nat) (s : State) : State := { s with glb := { s.glb with homeUpl := tSet (p / 2) s.glb.homeUpl p h } }

/-- Role of a slice (Table 12-1). -/
def roleDflt (i : Nat) : Role := if i = 8 then .spare else .active
def roleOf (s : State) (i : Nat) : Role := tGet (roleDflt i) s.skm.role i

/-- Domain codes (Table 14-1). -/
def domTP (t : Nat) : Nat := t
def domUP (p : Nat) : Nat := 64 + p
def domBG (g : Nat) : Nat := 80 + g
def domDP : Nat := 97
def domHP : Nat := 98
def domSL (i : Nat) : Nat := 99 + i
def domAO : Nat := 108

/-- A power domain. -/
def pdom (s : State) (d : Nat) : PDom := tGet PDom.on s.pwr.dom d

/-- Write a power domain. -/
def setPdom (d : Nat) (v : PDom) (s : State) : State := { s with pwr := { s.pwr with dom := tSet PDom.on s.pwr.dom d v } }

/-- Is the domain ON? An entry leaves ON in the cycle its isolation rises (R442). -/
def domOn (s : State) (d : Nat) : Bool := (pdom s d).state == 0 && !(pdom s d).iso

/-- The domain of an instance code of Table 15-1; AO where the unit lies there. -/
def instDom (i : Nat) : Nat :=
  if i = 4 then domHP else if i = 8 then domDP
  else if i < 12 then domAO
  else if i ≤ 20 then domSL (i - 12) else if i ≤ 84 then domTP (i - 21) else if i ≤ 100 then domUP (i - 85)
  else domSL (i - 101)

/-- Instance codes of replicated units. -/
def iCHN (e : Nat) : Nat := 12 + e
def iTRE (t : Nat) : Nat := 21 + t
def iUPL (p : Nat) : Nat := 85 + p
def iSLC (i : Nat) : Nat := 101 + i

/-- Owner that a partition-table register names. Each word is stored twice, so that one copy corrects the other; while both copies fail,
the objects that the word names are partition 0's alone (R502, Table 13-4). -/
def prtOwner (s : State) (a : Nat) : Nat := if s.glb.prtBad.contains a then 0 else (reg s a).toNat

/-- Owner of a tree, a ring, and whether partition `p` may act on it (R497). -/
def treeOwner (s : State) (t : Nat) : Nat := prtOwner s (rPrtTree t)
def ownsTree (s : State) (p t : Nat) : Bool := p == 0 || treeOwner s t == p

/-! ## Counters (R459 to R463) -/

/-- Does a sample arm at an instance of this kind (R474)? -/
def hasCompletion (i : Nat) : Bool := i == 4 || i == 5 || i == 6 || (21 ≤ i && i ≤ 109)

/-- What has happened to the counters in cycle `c`, and what they held before it (R520, Table 15-11). -/
def wasIn (c : Nat) (x : Cnt) : Cnt := if x.wasAt = c then x else { x with wasAt := c, was := [], wasObj := [], wrapNow := [], sLostNow := 0 }

/-- The value of selected counter `k` before cycle `c` is kept. -/
def keepVal (c k : Nat) (x : Cnt) : Cnt :=
  let y := wasIn c x
  if (tFind k y.was).isSome then y else { y with was := tPut k (tGet 0 y.val k) y.was }

/-- The value of object counter `k` before cycle `c` is kept. -/
def keepObj (c k : Nat) (x : Cnt) : Cnt :=
  let y := wasIn c x
  if (tFind k y.wasObj).isSome then y else { y with wasObj := tPut k (tGet 0 y.obj k) y.wasObj }

/-- Has a write set counter `k` in this cycle? The write holds, and events of the cycle are not counted (Table 15-11). -/
def heldNow (s : State) (k : Nat) : Bool := s.cnt.heldAt == s.tim.now && s.cnt.held.contains k

/-- Add `amt` to selected counter `n` of instance `i`, whose CNT_SELn is `sel`; the Bool says that a wrap met an armed
sample (R463, R474). -/
def bump (i n amt : Nat) (sel : Word) (c : Cnt) : Cnt × Bool :=
  let k := 16 * i + n
  let v := tGet 0 c.val k + amt
  if v < 2 ^ 48 then ({ c with val := tSet 0 c.val k v }, false)
  else
    let ovs := bit sel 11 && hasCompletion i
    let base := if ovs then tGet 0 c.reload k else 0
    let w := tGet 0 c.wrap i ||| BitVec.ofNat 16 (2 ^ n)
    let c1 := { c with
      val := tSet 0 c.val k ((v - 2 ^ 48 + base) % 2 ^ 48), wrap := tSet 0 c.wrap i w,
      wrapNow := tMod 0 c.wrapNow i (fun x => x ||| BitVec.ofNat 16 (2 ^ n)) }
    if ovs then
      if (tFind i c.sample).isSome then (c1, true) else ({ c1 with sample := tPut i (n, 0) c1.sample }, false)
    else (c1, false)

/-- Does CNT_SELn count this occurrence (R459, R460)? -/
def selects (sel : Word) (evt : Nat) (obj : Option Nat) : Bool :=
  bit sel 10 && fld sel 0 10 == evt && (!bit sel 12 || obj == some (fld sel 13 17))

/-- Counters of instance `i` that take this occurrence. -/
def countAll (s : State) (i evt : Nat) (obj : Option Nat) (amt : Nat) (c : Cnt) : Cnt × Nat :=
  (List.range 16).foldl
    (fun r n =>
      let sel := reg s (rCntSel i n)
      if selects sel evt obj && !(heldNow s (16 * i + n)) then
        let b := bump i n amt sel (keepVal s.tim.now (16 * i + n) r.1)
        (b.1, if b.2 then r.2 + 1 else r.2)
      else r)
    (c, 0)

/-- Wraps of instance `i` have met an armed sample `k` times: counted under SMP_MISS (R474). On a failed slice the sample is dropped
(Table 15-11). -/
def smpMissed (s : State) (i k : Nat) (c : Cnt) : Cnt :=
  if k = 0 then c
  else (countAll s 10 5 none k (if 101 ≤ i ∧ i < 110 ∧ roleOf s (i - 101) = .failed then { c with sample := tDel i c.sample } else c)).1

/-- Count an event with an object: amount `amt` of event `evt` in instance `i`. A wrap that meets an armed sample
counts under SMP_MISS (R474). -/
def countO (i evt obj amt : Nat) (s : State) : State :=
  if amt = 0 then s else
  let r := countAll s i evt (some obj) amt s.cnt
  { s with cnt := smpMissed s i r.2 r.1 }

/-- Count an event without an object. -/
def countN (i evt amt : Nat) (s : State) : State :=
  if amt = 0 then s else
  let r := countAll s i evt none amt s.cnt
  { s with cnt := smpMissed s i r.2 r.1 }

/-- Count one occurrence without an object. -/
def count1 (i evt : Nat) (s : State) : State := countN i evt 1 s

/-- Add to an object counter: array, object, event (Table 15-4). -/
def objAdd (arr obj evt amt : Nat) (s : State) : State :=
  let k := (arr * 131072 + obj) * 4 + evt
  let c := keepObj s.tim.now k s.cnt
  { s with cnt := { c with obj := tMod 0 c.obj k (fun v => (v + amt) % 2 ^ 48) } }

/-- A partition check failed (R333, R498): PART_VIOL, object the accessing partition. -/
def partViol (p : Nat) (s : State) : State := countO 1 0 p 1 s

/-! ## The register port -/

/-- A write that only partition 0 may make: ignored before READY (R487) or when it is no aligned 32-bit access (R19), a
violation from another partition (R498). -/
def p0Write (part : BitVec 6) (be : BitVec 4) (f : State → State) (s : State) : State :=
  if s.glb.phase ≠ 4 ∨ be ≠ 0xF then s
  else if part ≠ 0 then partViol part.toNat s
  else f s

/-- A read that only partition 0 may make: its data, and the effect of the read. -/
def p0Read (part : BitVec 6) (be : BitVec 4) (data : Word) (f : State → State) (s : State) : State :=
  if s.glb.phase ≠ 4 ∨ be ≠ 0xF then emit (.regRead 0) s
  else if part ≠ 0 then emit (.regRead 0) (partViol part.toNat s)
  else emit (.regRead data) (f s)

/-- Key of a partition's copy of a register: held _LO writes, captured _HI values, window words, CNT_OBJ_IDX. -/
def pkey (part : Nat) (a : Nat) : Nat := part * 2 ^ 24 + a

/-- The _LO value that a _HI write commits: the held one, or the current one (R522). -/
def loFor (part a : Nat) (cur : Word) (s : State) : Word := (tFind (pkey part a) s.regs.loHeld).getD cur

/-- Drop a held _LO write. -/
def dropLo (part a : Nat) (s : State) : State :=
  { s with regs := { s.regs with loHeld := tDel (pkey part a) s.regs.loHeld } }

/-! ## Rings as the notices need them (R298) -/

/-- Code of a ring kind (R539). -/
def kcode : RingKind → Nat
  | .send => 0 | .fill => 1 | .cq => 2 | .cmd => 3 | .ntc => 4

/-- Kind of a code. -/
def kindOf (n : Nat) : RingKind := if n = 0 then .send else if n = 1 then .fill else if n = 2 then .cq else if n = 3 then .cmd else .ntc

/-- How many rings of a kind there are (Table 10-1). -/
def kcount : RingKind → Nat
  | .send => 2048 | .fill => 2048 | .cq => 1024 | .cmd => 64 | .ntc => 64

/-- Key of a ring. -/
def rkey (k : RingKind) (n : Nat) : Nat := kcode k * 4096 + n

/-- A ring. -/
def ringOf (s : State) (k : RingKind) (n : Nat) : Ring := tGet Ring.empty s.hrd.ring (rkey k n)

/-- Write a ring. -/
def setRing (k : RingKind) (n : Nat) (r : Ring) (s : State) : State :=
  { s with hrd := { s.hrd with ring := tSet Ring.empty s.hrd.ring (rkey k n) r } }

/-- Entries of a ring. -/
def ringSize (r : Ring) : Nat := 2 ^ r.w.k

/-- Write index with its wrap bit: the phase starts at 1 and inverts at each wrap (R298). -/
def widx (r : Ring) : Nat := r.f + if r.ph then 0 else ringSize r

/-- Entries written and not yet returned. -/
def used (r : Ring) : Nat := (widx r + 2 * ringSize r - r.ci % (2 * ringSize r)) % (2 * ringSize r)

/-- Slots of a ring the block writes that are neither written nor reserved. -/
def freeSlots (r : Ring) : Nat := ringSize r - used r - r.rsv

/-- Advance an index and its phase (R297). -/
def advance (r : Ring) : Ring :=
  if r.f + 1 < ringSize r then { r with f := r.f + 1 } else { r with f := 0, ph := !r.ph }

/-- Is the ring enabled and able to run? -/
def ringRuns (r : Ring) : Bool := r.st == .running || r.st == .idle

/-! ## Host memory port -/

/-- Host-memory-port channel of a fabric address (R41). -/
def hmpChan (addr : Nat) : Nat := addr / 512 % 2

/-- Lowest tag of `used_` that is free, below 512 (log entry 12). -/
def freeTag (busy : List Nat) : Option Nat := (List.range 512).find? (fun t => !busy.contains t)

/-- Write tags in use on a channel: outstanding, or timed out and not yet released (R331). -/
def wrTags (s : State) (ch : Nat) : List Nat :=
  (s.hrd.wr.filter (·.chan == ch)).map (·.tag) ++ (s.hrd.lateW.filter (·.chan == ch)).map (·.tag)

/-- Read tags in use on a channel. -/
def rdTags (s : State) (ch : Nat) : List Nat :=
  (s.hrd.rd.filter (·.chan == ch)).map (·.tag) ++ (s.hrd.lateR.filter (·.chan == ch)).map (·.tag)

/-- Reads outstanding for a DMA channel: with those in flight that nothing waits for any more (R317, R332). -/
def rdOut (s : State) (dch : Nat) : Nat := (s.hrd.rd.filter (·.dch == dch)).length + (s.hrd.lateR.filter (·.dch == dch)).length

/-- PRIO of a DMA channel (R316). -/
def chPrio (s : State) (dch : Nat) : Nat := regF s (pageHRD + 0x7800 + 4 * dch) 0 3

/-- Place of a burst in the arbitration of R316, the smallest first: the higher priority, then of its channels the one, and of that
channel's rings the one, whose turn is nearest. `dir` is 0 for reads, 1 for writes. -/
def turnOf (s : State) (h dir dch ring : Nat) : Nat :=
  ((7 - chPrio s dch) * 256 + (dch + 256 - tGet 0 s.hrd.rrCh (8 * (2 * h + dir) + chPrio s dch) % 256) % 256) * 65536
    + (ring + 65536 - tGet 0 s.hrd.rrRing (2 * dch + dir) % 65536) % 65536

/-- After a grant the turn passes to the next DMA channel of that priority and the next ring. -/
def turnNext (h dir dch ring : Nat) (s : State) : State :=
  { s with hrd := { s.hrd with
      rrCh := tSet 0 s.hrd.rrCh (8 * (2 * h + dir) + chPrio s dch) ((dch + 1) % 256), rrRing := tSet 0 s.hrd.rrRing (2 * dch + dir) ((ring + 1) % 65536) } }

/-- The element of a list that `ok` allows with the smallest measure, the earliest of equals, and the list without it. -/
def pickMin {α : Type} (ok : α → Bool) (m : α → Nat) : List α → Option (α × List α)
  | [] => none
  | x :: l =>
    match pickMin ok m l with
    | none => if ok x then some (x, l) else none
    | some (y, l1) => if ok x && decide (m x ≤ m y) then some (x, l) else some (y, x :: l1)

/-- May a read burst be granted: its tag and its channel's limit of 32 (R317)? -/
def rdReady (s : State) (h : Nat) (b : RdReq) : Bool :=
  hmpChan b.addr == h && decide (rdOut s b.dch < 32) && (freeTag (rdTags s h)).isSome && !s.hrd.fenced.contains b.dch

/-- Grant one read burst of a host-memory-port channel, as whole 64-byte beats (R316, R317). -/
def grantRead (h : Nat) (s : State) : Option State :=
  match pickMin (rdReady s h) (fun b => turnOf s h 0 b.dch b.ring) s.hrd.rq with
  | none => none
  | some (b, l) =>
    let t := (freeTag (rdTags s h)).getD 0
    some (turnNext h 0 b.dch b.ring
      (emit (.hostRead h t (b.addr / 64 * 64) (ceilDiv (b.addr % 64 + b.len) 64) b.part b.snoop)
        { s with hrd := { s.hrd with rq := l, rd := s.hrd.rd ++ [⟨h, t, b.addr, b.len, b.dch, b.use, s.tim.now⟩] } }))

/-- Grant read bursts on both channels as far as they can be granted; `fuel` bounds the grants. -/
def pumpReads : Nat → State → State
  | 0, s => s
  | fuel + 1, s =>
    match grantRead 0 s with
    | some s1 => pumpReads fuel s1
    | none => match grantRead 1 s with
      | some s1 => pumpReads fuel s1
      | none => s

/-- Ask for read bursts. -/
def hostReads (l : List RdReq) (s : State) : State :=
  pumpReads (s.hrd.rq.length + l.length) { s with hrd := { s.hrd with rq := s.hrd.rq ++ l } }

/-- May a write burst be granted? -/
def wrReady (s : State) (h : Nat) (b : WrReq) : Bool :=
  hmpChan b.addr == h && (freeTag (wrTags s h)).isSome && !s.hrd.fenced.contains b.dch

/-- Grant one write burst of a host-memory-port channel. -/
def grantWrite (h : Nat) (s : State) : Option State :=
  match pickMin (wrReady s h) (fun b => turnOf s h 1 b.dch b.ring) s.hrd.wq with
  | none => none
  | some (b, l) =>
    let t := (freeTag (wrTags s h)).getD 0
    some (turnNext h 1 b.dch b.ring
      (emit (.hostWrite h t b.addr b.part b.bytes)
        { s with hrd := { s.hrd with wq := l, wr := s.hrd.wr ++ [⟨h, t, b.addr, b.dch, b.use, s.tim.now⟩] } }))

/-- Grant write bursts on both channels as far as they can be granted. -/
def pumpWrites : Nat → State → State
  | 0, s => s
  | fuel + 1, s =>
    match grantWrite 0 s with
    | some s1 => pumpWrites fuel s1
    | none => match grantWrite 1 s with
      | some s1 => pumpWrites fuel s1
      | none => s

/-- Ask for write bursts. -/
def hostWrites (l : List WrReq) (s : State) : State :=
  pumpWrites (s.hrd.wq.length + l.length) { s with hrd := { s.hrd with wq := s.hrd.wq ++ l } }

/-- Let something happen at a later cycle, as the clock passes it. -/
def atCycle (c : Nat) (t : Turn) (s : State) : State := { s with hrd := { s.hrd with later := s.hrd.later ++ [(c, t)] } }

/-! ## Interrupts and wake events -/

/-- Send an interrupt message (R321). -/
def irq (vec part : Nat) (s : State) : State := emit (.irq vec part) s

/-- The lowest source that has fired for a domain in cycle `c`, while it was ON with no entry under way; 0 none. -/
def firedAt (s : State) (d c : Nat) : Nat := if s.pwr.evAt = c then tGet 0 s.pwr.ev d else 0

/-- A wake event finds its domain ON with no entry under way: it is ignored (R445), but a request that becomes current in the same cycle
meets it (R443). -/
def wakeIdle (d src : Nat) (s : State) : State :=
  let c := s.tim.now
  let was := firedAt s d c
  let l := if s.pwr.evAt = c then s.pwr.ev else []
  { s with pwr := { s.pwr with evAt := c, ev := tPut d (if was = 0 then src else min was src) l } }

/-- Values of PWR_WEN before the writes of this cycle, by offset. -/
def wenBefore (s : State) : Tab Word := if s.pwr.wenAt = s.tim.now then s.pwr.wenWas else []

/-- Wake sources enabled for a domain: a write takes effect in the cycle after (R455). -/
def wenOf (s : State) (d : Nat) : Word :=
  let a := pagePWR + 0x1000 + 4 * d
  (tFind a (wenBefore s)).getD (reg s a)

/-- Raise wake source `src` for a domain (R445): nothing while the source is not enabled (CHAIN always is), or during an exit. The first
event stands, and of those of one cycle the lowest source. -/
def wake (d src : Nat) (s : State) : State :=
  let p := pdom s d
  let enabled := src == 6 || (wenOf s d).toNat.testBit (src - 1)
  if !enabled || d ≥ 108 then s
  else if p.state == 0 && (p.cur.isNone || decide (s.tim.now < p.curAt)) then wakeIdle d src s
  else if p.phase = 3 then s
  else if p.wake = 0 ∨ src < p.wake ∧ p.wakeAt = s.tim.now then setPdom d { p with wake := src, wakeAt := s.tim.now } s
  else s

/-! ## Notices (R325 to R327) -/

/-- Words of a notice (Table 10-13). -/
def noticeWords (n : Notice) (ph : Bool) : List Word :=
  [w32 (b2n ph + 2 * b2n n.merged + n.type % 256 * 2 ^ 8 + n.tree % 64 * 2 ^ 16 + n.tid % 1024 * 2 ^ 22),
   w32 (n.count % 2 ^ 16 + n.cause % 128 * 2 ^ 16), w32 n.serial.toNat, w32 (n.serial.toNat / 2 ^ 32), w32 n.tick,
   w32 (n.tick / 2 ^ 32 % 2 ^ 16), n.w6, n.w7]

/-- May the notice ring of a partition take an entry now? Nothing is written while HP is not ON (R334). -/
def ntcRoom (s : State) (p : Nat) : Bool :=
  let r := ringOf s .ntc p
  ringRuns r && domOn s domHP && decide (0 < freeSlots r)

/-- Write one notice into the ring of a partition that has room. -/
def ntcWrite (p : Nat) (n : Notice) (s : State) : State :=
  let r := ringOf s .ntc p
  hostWrites [⟨r.w.chan, rkey .ntc p, r.w.base + 32 * r.f, p, wordBytes (noticeWords n r.ph), .notice p⟩]
    (setRing .ntc p (advance r) s)

/-- Notices of partition `p` that have been lost in this cycle (R520). -/
def lostNow (s : State) (p : Nat) : Nat := if s.hrd.nlostAt = s.tim.now then tGet 0 s.hrd.nlostNow p else 0

/-- A notice is lost (R327). -/
def ntcLose (p : Nat) (s : State) : State :=
  let met := if s.hrd.nlostAt = s.tim.now then s.hrd.nlostNow else []
  countO 4 9 p 1
    { s with hrd := { s.hrd with
        nlost := tMod 0 s.hrd.nlost p (fun v => (v + 1) % 2 ^ 32), nsince := tMod 0 s.hrd.nsince p (· + 1),
        nlostAt := s.tim.now, nlostNow := tMod 0 met p (· + 1) } }

/-- Merge a notice into a pending one of the same TYPE, TREE and TID. -/
def ntcMerge (n : Notice) : List Notice → Option (List Notice)
  | [] => none
  | m :: t =>
    if m.type = n.type ∧ m.tree = n.tree ∧ m.tid = n.tid then
      some ({ m with merged := true, count := min 0xFFFF (m.count + 1) } :: t)
    else (ntcMerge n t).map (m :: ·)

/-- A notice of a type with cause and data, about a tree and terminal. -/
def mkNotice (s : State) (type tree tid cause : Nat) (serial : BitVec 64) (w6 w7 : Word) : Notice :=
  { merged := false, type := type, tree := tree, tid := tid, count := 1, cause := cause, serial := serial,
    tick := s.tim.tick, w6 := w6, w7 := w7 }

/-- Slots of a notice ring have come free (R327): NOTICE_LOST first where notices were lost, then the pending ones
in order, as far as slots reach. -/
def ntcDrain (p : Nat) : Nat → State → State
  | 0, s => s
  | fuel + 1, s =>
    if !ntcRoom s p then s
    else if 0 < tGet 0 s.hrd.nsince p then
      let n := mkNotice s 0x3F 0 0 0 0 0 0
      let s1 := ntcWrite p { n with count := min 0xFFFF (tGet 0 s.hrd.nsince p) } s
      ntcDrain p fuel { s1 with hrd := { s1.hrd with nsince := tSet 0 s1.hrd.nsince p 0 } }
    else
      match tGet [] s.hrd.npend p with
      | [] => s
      | n :: t =>
        let s1 := ntcWrite p n s
        ntcDrain p fuel { s1 with hrd := { s1.hrd with npend := tSet [] s1.hrd.npend p t } }

/-- A notice to partition `p`'s ring (R327): written while the ring has a free slot, after a NOTICE_LOST for what was lost before it;
merged or kept in the pending area otherwise, or lost. -/
def notice (p : Nat) (n : Notice) (s : State) : State :=
  let r := ringOf s .ntc p
  let s0 := wake domHP 1 s
  let s1 := if ringRuns r then ntcDrain p 18 s0 else s0
  let pend := tGet [] s1.hrd.npend p
  if !(ringRuns r) then ntcLose p s1
  else if pend.isEmpty && ntcRoom s1 p then ntcWrite p n s1
  else
    match ntcMerge n pend with
    | some l => { s1 with hrd := { s1.hrd with npend := tSet [] s1.hrd.npend p l } }
    | none =>
      if pend.length < 16 then { s1 with hrd := { s1.hrd with npend := tSet [] s1.hrd.npend p (pend ++ [n]) } }
      else ntcLose p s1

/-- A notice about no terminal, to partition 0. -/
def notice0 (type cause : Nat) (w6 w7 : Word) (s : State) : State := notice 0 (mkNotice s type 0 0 cause 0 w6 w7) s

/-- A notice about a tree or a terminal of it, to the tree's owner (R129). -/
def noticeT (type tree tid cause : Nat) (serial : BitVec 64) (w6 w7 : Word) (s : State) : State :=
  notice (treeOwner s tree) (mkNotice s type tree tid cause serial w6 w7) s

/-! ## Fault sets (R420 to R430) -/

/-- A fault set. -/
def fltOf (s : State) (i : Nat) : FaultSet := tGet FaultSet.clear s.flt i

/-- Write a fault set. -/
def setFlt (i : Nat) (f : FaultSet) (s : State) : State := { s with flt := tSet FaultSet.clear s.flt i f }

/-- Time of a capture (Table 13-2): nanoseconds, or CLK_B cycles with bit 63 set before the engine starts. -/
def capTime (s : State) : BitVec 64 :=
  if s.tim.started then BitVec.ofNat 64 (nsOf s.tim.time) else BitVec.ofNat 64 (s.tim.now % 2 ^ 63 + 2 ^ 63)

/-- Is an arming open: was GLB_RST.ARM written in the preceding 1,024 cycles (R482)? -/
def armOpen (s : State) : Bool := s.glb.armed && decide (s.tim.now ≤ s.glb.armAt + 1024)

/-- Electrical level of FAULT_OUT, asserted or not: GLB_FLT_PIN.POL 1 asserts it low (R428). -/
def pinLine (s : State) (asserted : Bool) : Bool := asserted != regB s 0x80 2

/-- Is the pin asserted (LVL)? -/
def pinLevel (s : State) : Bool := s.glb.pin == .pulse || s.glb.pin == .held

/-- FAULT_OUT asserts, and its pulse begins (R429). -/
def pinAssert (s : State) : State :=
  emit (.faultOut (pinLine s true)) { s with glb := { s.glb with pin := .pulse, pinAt := s.tim.now, pinRel := false, pinWait := false } }

/-- FAULT_OUT releases, and stays deasserted for the recovery; `again`: an event waits for its end (R429). -/
def pinRelease (again : Bool) (s : State) : State :=
  emit (.faultOut (pinLine s false)) { s with glb := { s.glb with pin := .recovery, pinAt := s.tim.now, pinRel := false, pinWait := again } }

/-- A pin event of instance `i`, of the cycle before (R429): until start-up has completed GLB alone drives the pin. -/
def pinEvent (i : Nat) (s : State) : State :=
  if !regB s 0x80 0 || (s.glb.phase != 4 && i != 0) then s
  else
    let s1 := { s with glb := { s.glb with pinEv := some (s.tim.now - 1) } }
    match s.glb.pin with
    | .idle => pinAssert s1
    | .recovery => { s1 with glb := { s1.glb with pinWait := true } }
    | .pulse => s1
    | .held => s1

/-- The cycle after a write of REL: a held pin releases; an event of the write's cycle asserts it after the recovery (Table 13-7). -/
def pinOff (s : State) : State :=
  if s.glb.pin = .held then pinRelease (s.glb.pinEv == some (s.tim.now - 1)) s else s

/-- What a fault leaves in its capture. -/
structure FaultInfo where
  cap0 : Word
  acc : Nat
  mkind : Nat
  mnum : Nat
  part : Nat
  forced : Bool
deriving DecidableEq, Repr

/-- What has met at a fault set in this cycle. -/
def cycOf (s : State) (f : FaultSet) : FltCyc := if f.last.at_ = s.tim.now then f.last else ⟨s.tim.now, 0, 0, none, 0⟩

/-- Of two faults of one cycle, does the first stand before the second: by source, a real one before a forced one, by CAP0 (R421,
Table 13-7)? -/
def faultFirst (a b : Capture) : Bool :=
  decide (a.src < b.src) || (a.src == b.src && ((!a.forced && b.forced) || (a.forced == b.forced && decide (a.addr.toNat < b.addr.toNat))))

/-- Record a fault of source `b` in a set, at cycle `n`: capture it, or count it (R421, R422). Of the faults of one cycle the first of
`faultFirst` is captured. -/
def recordFault (b : Nat) (fi : FaultInfo) (t : BitVec 64) (n : Nat) (f : FaultSet) : FaultSet :=
  let st := f.st ||| w32 (2 ^ b)
  let c : Capture :=
    { addr := fi.cap0, src := b, acc := fi.acc, mkind := fi.mkind, mnum := fi.mnum, part := fi.part, forced := fi.forced, time := t, at_ := n }
  match f.cap with
  | none => { f with st := st, cap := some c }
  | some x => { f with st := st, more := min 0xFFFFFF (f.more + 1), cap := some (if x.at_ == n && faultFirst c x then c else x) }

/-- A fault of source `b` meets a set: a capture that a write lets go in this cycle is held (Table 13-7). -/
def meetFault (b : Nat) (fi : FaultInfo) (s : State) (f : FaultSet) : FaultSet :=
  let c := cycOf s f
  let f0 := if f.cap.isNone && c.cap.isSome then { f with cap := c.cap, more := c.more } else f
  { recordFault b fi (capTime s) s.tim.now f0 with last := { c with raised := c.raised ||| w32 (2 ^ b), cap := none } }

/-- The tree of a tree port's fault set, else 0 (R424). -/
def fltTree (i : Nat) : Nat := if 21 ≤ i ∧ i ≤ 84 then i - 21 else 0

/-- A bit of a fault set that has changed to 1 in the cycle before sends its interrupt and its pin event, under the mask and the vector
as the cycle of the fault left them (R423, R429, Table 13-7). -/
def faultTold (i b : Nat) (s : State) : State :=
  if regB s (rFltMask i) b then s
  else
    let vec := reg s (rFltVec i)
    let s1 := if bit vec 12 then irq (fld vec 0 12) 0 s else s
    if bit vec 13 then pinEvent i s1 else s1

/-- Raise source `b` of instance `i` once (R421 to R424): record it, and on a 0-to-1 change write the FAULT notice; the interrupt and the
pin event follow at the end of the cycle. -/
def raise (i b : Nat) (fi : FaultInfo) (s : State) : State :=
  let f := fltOf s i
  let s1 := setFlt i (meetFault b fi s f) s
  if bit f.st b || bit (cycOf s f).cleared b then s1
  else
    atCycle (s.tim.now + 1) (.told i b)
      (notice 0 (mkNotice s 0x60 (fltTree i) 0 b 0 (w32 ((instBase i + 0xF00) / 256 % 2 ^ 16)) fi.cap0) s1)

/-- A fault found by the block itself. -/
def fault (i b : Nat) (cap0 : Word) (acc mkind mnum part : Nat) (s : State) : State :=
  raise i b ⟨cap0, acc, mkind, mnum, part, false⟩ s

/-! ## Loop-backs as the units need them (R504 to R516) -/

/-- Depth of the running loop-back that holds an instance, 0 none. INST names tree t as t and uplink port p as 64 + p, like the
domain codes of Table 14-1 (log entry 22). -/
def loopOf (s : State) (i : Nat) : Nat := ((s.tst.loop.find? (fun e => decide (2 ≤ e.2.depth) && e.2.inst == i)).map (·.2.depth)).getD 0
def loopT (s : State) (t : Nat) : Nat := loopOf s t
def loopU (s : State) (p : Nat) : Nat := loopOf s (64 + p)

/-- Ventriloquist slot in which a tree plays the terminals (R511). -/
def vqOf (s : State) (t : Nat) : Option Nat := (s.tst.loop.find? (fun e => e.2.depth == 5 && e.2.inst == t)).map (·.1)

/-- State of a Ventriloquist slot, and of its emulated terminal `k`. -/
def vqAt (s : State) (n : Nat) : Vq := tGet Vq.empty s.tst.vq n
def setVq (n : Nat) (v : Vq) (s : State) : State := { s with tst := { s.tst with vq := tSet Vq.empty s.tst.vq n v } }
def modVq (n : Nat) (f : Vq → Vq) (s : State) : State := setVq n (f (vqAt s n)) s
def vqTerm (v : Vq) (k : Nat) : VqTerm := tGet (VqTerm.start k) v.term k
def setVqTerm (n k : Nat) (x : VqTerm) (s : State) : State := modVq n (fun v => { v with term := tSet (VqTerm.start k) v.term k x }) s

/-- Does output of the instance return to its input at depths 2 to 4? -/
def turns (d : Nat) : Bool := decide (2 ≤ d) && decide (d ≤ 4)

/-- Register of a loop-back slot. -/
def rLoop (n : Nat) : Nat := pageTST + 0x10 * n

/-- Does a loop use domain `d` (R505, R515): the host rings, or its instance, B, and their home slices? -/
def loopInDom (s : State) (d : Nat) (l : Loop) : Bool :=
  if l.depth = 1 then d == domHP
  else
    l.inst == d || (if l.inst < 64 then domSL (homeT s l.inst) else domSL (homeU s (l.inst - 64))) == d
      || (l.depth == 5 && decide (l.peer < 64) && (l.peer == d || domSL (homeT s l.peer) == d))

/-- A loop-back ends with LOOP_ABORT (R515). -/
def loopAbort (p : Loop → Bool) (s : State) : State :=
  (s.tst.loop.filter (fun e => p e.2)).foldl
    (fun s e =>
      let a := rLoop e.1
      fault 11 0 (w32 (e.2.depth * 2 + e.2.inst * 16)) 0 0 0 0
        (setReg a (reg s a &&& 0xFFFFFFFE) { s with tst := { s.tst with loop := tDel e.1 s.tst.loop } })) s

end Sys2Proof.Machine
end

