-- ==== Sys2Proof/Machine/Lanes.lean ====
section
/-!
DEFINITION. The buffer's bank groups as the sections see them (R237, R238, R244), and the lanes of a section that stay empty while a host
send waits for cells (R248, R471).
-/

namespace Sys2Proof.Machine

/-! ## Bank groups (R237, R238) -/

def grpOf (s : State) (g : Nat) : Group := tGet Group.empty s.qbm.grp g
def setGrp (g : Nat) (v : Group) (s : State) : State := { s with qbm := { s.qbm with grp := tSet Group.empty s.qbm.grp g v } }

/-- Physical group of a logical group. -/
def physOf (s : State) (g : Nat) : Nat := tGet g s.qbm.bgmap g

/-- Free cells of a group: those never used and those returned. -/
def grpFree (v : Group) : Nat := if v.fenced then 0 else (16384 - v.next) + v.freed.length

/-- Does a group take new cells (R238)? -/
def allocates (s : State) (g : Nat) : Bool :=
  let v := grpOf s g
  !v.fenced && !v.leaving && s.qbm.retire != some g && domOn s (domBG (physOf s g))

/-- Free cells over the allocating groups (R244), and over every group (R270). -/
def freeCells (s : State) : Nat := ((List.range 16).filter (allocates s)).foldl (fun n g => n + grpFree (grpOf s g)) 0
def freeAll (s : State) : Nat := (List.range 16).foldl (fun n g => n + grpFree (grpOf s g)) 0

/-- Headroom in force (R244). -/
def hdrm (s : State) : Nat := regF s pageQBM 0 16

/-! ## Sections -/

/-- Key of a section: slice and direction. -/
def secKey (i : Nat) (up : Bool) : Nat := 2 * i + b2n up

/-- Home slice of a send ring's anchor (R40). -/
def anchorHome (s : State) (r : Nat) : Nat :=
  let w := (ringOf s .send r).w
  if w.side then homeT s w.anchor else homeU s w.anchor

/-- Does slice `i` account its lanes (R471)? -/
def accounts (s : State) (i : Nat) : Bool := roleOf s i == .active && domOn s (domSL i)

/-- Lane accounting of slice 0 to 7 runs from reset; the spare's does not. -/
def laneDflt (k : Nat) : Lane := if k < 16 then { Lane.empty with since := some 0 } else Lane.empty

/-- Change the lane accounting of slice `i`, direction `d`. -/
def laneMod (i d : Nat) (f : Lane → Lane) (s : State) : State :=
  { s with cnt := { s.cnt with lane := tMod (laneDflt (2 * i + d)) s.cnt.lane (2 * i + d) f } }

/-- Word `i` of a descriptor. -/
def Desc.word (d : Desc) (i : Nat) : Word := d.w.getD i 0

/-- Length of a send in bytes, from its descriptor (Table 10-4). -/
def sdL (d : Desc) : Nat := fld (d.word 1) 0 19

/-- Does a send ring hold a frame that it may not start for want of cells (R248)? -/
def cellWait (s : State) (r : Ring) : Bool :=
  match r.desc with
  | [] => false
  | d :: _ =>
    (ringRuns r || r.st == .halted) && !r.stopped && r.jobs.all (·.ready) && decide (freeCells s ≤ hdrm s + ceilDiv (sdL d) 256)

/-- The sections for which a host send waits for cells. -/
def waitSecs (s : State) : List Nat :=
  let l : List Nat := (s.hrd.ring.filter (fun e => e.1 / 4096 == 0 && cellWait s e.2)).map
    (fun e => secKey (anchorHome s (e.1 % 4096)) e.2.w.side)
  l.dedup

/-- Lanes of a section that the next `n` cycles leave empty. -/
def emptyLanes (s : State) (k n : Nat) : Nat :=
  let x := tGet Sec.empty s.skm.sec k
  16 * n - (16 * (x.at_ - s.tim.now) + (if s.tim.now ≤ x.at_ ∧ x.at_ < s.tim.now + n then x.lanes else 0))

/-- Empty lanes of the next `n` cycles are BACK, under event BACK_CELL, where a host send waits for cells (R248, Table 15-7). -/
def backCells (n : Nat) (s : State) : State :=
  (waitSecs s).foldl
    (fun s k =>
      let m := emptyLanes s k n
      if accounts s (k / 2) then countO (iSLC (k / 2)) 13 (k % 2) m (laneMod (k / 2) (k % 2) (fun l => { l with back := l.back + m }) s)
      else s) s

end Sys2Proof.Machine
end

