-- ==== Sys2Proof/Machine/Round.lean ====
section
/-!
DEFINITION. The Milk Round while it reads (R465 to R470): what an entry returns, and how groups leave. What starts and ends a
round lies in Machine/Counters.lean.
-/

namespace Sys2Proof.Machine

/-- Lane accounting as a snapshot takes it in this cycle: CYCLES counted up, `since` none (R472). -/
def laneNow (s : State) (k : Nat) : Lane :=
  let l := tGet (laneDflt k) s.cnt.lane k
  { l with cyc := l.cyc + (match l.since with | some c => s.tim.now - c | none => 0), since := none }

/-- A class of a snapshot, by its number of Table 15-5; FRONT is what the others leave of 16 x CYCLES (R472). -/
def laneClass (l : Lane) (k : Nat) : Nat :=
  if k = 0 then l.cyc else if k = 1 then l.retired else if k = 2 then l.wasted
  else if k = 3 then 16 * l.cyc - l.retired - l.wasted - l.back - l.pending
  else if k = 4 then l.back else l.pending

/-- Key of an object counter by the bits of a list entry of kind 1 (R461). -/
def objKey (e : Word) : Nat := (fld e 19 3 * 131072 + fld e 2 17) * 4 + fld e 0 2

/-- Value of an object counter. -/
def objRead (s : State) (e : Word) : Nat := tGet 0 s.cnt.obj (objKey e)

/-- What the Milk Round reads of a counter: its value before the events of the cycle (Table 15-11). -/
def mrVal (s : State) (k : Nat) : Nat := (tFind k (wasIn s.tim.now s.cnt).was).getD (tGet 0 s.cnt.val k)
def mrObj (s : State) (k : Nat) : Nat := (tFind k (wasIn s.tim.now s.cnt).wasObj).getD (tGet 0 s.cnt.obj k)

/-- What a list entry returns in this cycle, and whether it is skipped (R468, R469). Slice classes 6 and 7 are not defined: open. -/
def mrEntry (s : State) (e : Word) : Nat × Bool :=
  let kind := fld e 30 2
  if kind = 0 then
    let i := fld e 16 7
    if 109 < i || !domOn s (instDom i) then (0, true) else (mrVal s (16 * i + fld e 0 4), false)
  else if kind = 1 then if 4 < fld e 19 3 then (0, true) else (mrObj s (objKey e), false)
  else if kind = 2 then
    if 8 < fld e 4 4 then (0, true)
    else if 5 < fld e 0 3 then (freeNat s % 2 ^ 48, false)
    else (laneClass (tGet Lane.empty s.cnt.snapRound (fld e 3 5)) (fld e 0 3) % 2 ^ 48, false)
  else (0, true)

/-- Bytes of a group of round `r` that ends with the entries read so far (Table 15-6). -/
def groupBytes (r : Round) : List Byte :=
  let n := r.vals.length
  let g := (r.got - 1) / 8
  let at_ := 32 * g
  let skip := (List.range 8).foldl (fun a i => a + (if r.skip.getD i true then 2 ^ i else 0)) 0
  leBytes 2 r.seq ++ leBytes 2 g ++ leBytes 4 (at_ % 156250) ++ leBytes 6 (r.tick + at_ / 156250)
    ++ [BitVec.ofNat 8 skip, BitVec.ofNat 8 (b2n (r.got == r.len))]
    ++ r.vals.flatMap (leBytes 6) ++ List.replicate (6 * (8 - n)) 0

/-- Address of a group: buffer `seq` mod 2 (R467). -/
def groupAddr (r : Round) : Nat :=
  r.base + r.seq % 2 * (ceilDiv r.len 8 * 64) + (r.got - 1) / 8 * 64

/-- DMA channel of groups: a Milk Round setting, which a round's start takes over (R477). -/
def mrChan (s : State) : Nat := fld s.cnt.mrCfg 0 8

/-- Write the oldest group that waits; none where none waits or nothing can be written (R467, R470). -/
def mrNextGroup (s : State) : Option State :=
  match s.cnt.round.map (fun r => (r, r.todo)) with
  | some (r, (a, b) :: t) =>
    if !domOn s domHP || s.hrd.fenced.contains (mrChan s) then none
    else some (hostWrites [⟨mrChan s, 32768, a, 0, b, .round r.seq⟩] { s with cnt := { s.cnt with round := some { r with todo := t } } })
  | _ => none

/-- A round that is wholly written waits for its acknowledgements (R470). -/
def mrClose (s : State) : State :=
  match s.cnt.round with
  | none => s
  | some r =>
    if r.todo = [] ∧ r.got = r.len then { s with cnt := { s.cnt with round := none, ackw := s.cnt.ackw ++ [r.seq] } } else s

/-- Write the groups that wait, in list order, as far as tags reach (R467, R470). -/
def mrFlush : Nat → State → State
  | 0, s => s
  | fuel + 1, s =>
    match mrNextGroup s with
    | none => mrClose s
    | some s1 => mrFlush fuel s1

/-- The active page's entry. -/
def mrActive (s : State) (i : Nat) : Word := tGet 0 (if s.cnt.page then s.cnt.list1 else s.cnt.list0) i

/-- Read the next entry of the round in this cycle. -/
def mrRead (s : State) : State :=
  match s.cnt.round with
  | none => s
  | some r =>
    if r.len ≤ r.got then s
    else
      let e := mrActive s r.got
      let v := mrEntry s e
      let s0 := if fld e 30 2 = 2 ∧ 5 < fld e 0 3 then useFree s else s
      let r1 := { r with got := r.got + 1, vals := r.vals ++ [v.1], skip := r.skip ++ [v.2] }
      if r1.got % 8 = 0 ∨ r1.got = r1.len then
        mrFlush (r1.todo.length + 2)
          { s0 with cnt := { s0.cnt with
              round := some { r1 with vals := [], skip := [], todo := r1.todo ++ [(groupAddr r1, groupBytes r1)] } } }
      else { s0 with cnt := { s0.cnt with round := some r1 } }

/-- Cycles until the next entry is read, within the next `n`; none if no read falls in them. -/
def mrNext (s : State) (n : Nat) : Option Nat :=
  match s.cnt.round with
  | none => none
  | some r =>
    let due := r.at_ + 4 * r.got
    if r.got < r.len ∧ s.tim.now < due ∧ due ≤ s.tim.now + n then some (due - s.tim.now) else none

/-- A write of round `q` failed (R470, Table 13-4): MR_FAULT, and the round is abandoned. -/
def mrFail (q addr acc : Nat) (s : State) : State :=
  let live := s.cnt.ackw.contains q || (match s.cnt.round with | some r => r.seq == q | none => false)
  let s1 := { s with cnt := { s.cnt with
    ackw := s.cnt.ackw.filter (· != q),
    round := (match s.cnt.round with | some r => if r.seq = q then none else some r | none => none) } }
  fault 10 1 (w32 addr) acc 12 0 0 (if live then count1 10 2 s1 else s1)

end Sys2Proof.Machine
end

