-- ==== Sys2Proof/Machine/Sample.lean ====
section
/-!
DEFINITION. Overflow sampling: the record of a frame that completes in an instance with a sample armed (R474 to R476).
-/

namespace Sys2Proof.Machine

/-- Ingress source as metadata field 32 shows it: kind in [15:14], number below (Table 7-7, Table 10-8). -/
def srcWord (x : Src) : Nat := x.kind * 2 ^ 14 + x.num % 2 ^ 11

/-- Code of a mark in a token (Table 8-1): 0 none, then the order of Table 8-1 (log entry 20). -/
def markCode : Mark → Nat
  | .good => 0 | .runt => 1 | .oversize => 2 | .rxErr => 3 | .fcsErr => 4

/-- Words of a sample record (Table 15-9). -/
def sampleWords (s : State) (i n skid : Nat) (ph : Bool) (f : SmpFrame) : List Word :=
  let evt := fld (reg s (rCntSel i n)) 0 10
  [w32 (b2n ph + i % 128 * 2 + n * 2 ^ 8 + skid * 2 ^ 12 + evt * 2 ^ 16),
   w32 (srcWord f.src + min f.len 16383 * 2 ^ 16),
   w32 (f.act % 1024 + markCode f.mark * 2 ^ 10 + f.dp * 2 ^ 13 + f.tid * 2 ^ 16),
   w32 (f.ftgt % 2 ^ 24 + f.fkind * 2 ^ 24),
   compact f.stamp, compact s.tim.time, w32 s.tim.tick, w32 (s.tim.tick / 2 ^ 32 % 2 ^ 16)]

/-- DMA channel of samples, which are taken with or without rounds: the register as it stands (R475; DEDUCED, log entry 31). -/
def smpChan (s : State) : Nat := regF s (pageCNT + 4) 0 8

/-- Sample ring geometry (R475). -/
def smpK (s : State) : Nat := fld (reg s (pageCNT + 0x24)) 1 4 + 6
def smpFree (s : State) : Nat :=
  let n := 2 ^ smpK s
  n - (s.cnt.sWr + 2 * n - s.cnt.sCi % (2 * n)) % (2 * n)

/-- A sample is lost (R475). -/
def smpLose (s : State) : State :=
  let s1 := count1 10 4 s
  let c := wasIn s.tim.now s1.cnt
  { s1 with cnt := { c with sLost := (c.sLost + 1) % 2 ^ 32, sLostNow := c.sLostNow + 1 } }

/-- Samples lost in this cycle (R520). -/
def smpLostNow (s : State) : Nat := (wasIn s.tim.now s.cnt).sLostNow

/-- Write a sample of frame `f` for counter `n` of instance `i`, or lose it (R475). -/
def smpWrite (i n skid : Nat) (f : SmpFrame) (s : State) : State :=
  let size := 2 ^ smpK s
  let base := regPair s (pageCNT + 0x28)
  if fld (reg s (pageCNT + 0x24)) 5 11 ≤ s.cnt.sTick ∨ smpFree s = 0 ∨ !domOn s domHP then smpLose s
  else
    let b := wordBytes (sampleWords s i n skid (s.cnt.sWr < size) f)
    let s1 := hostWrites [⟨smpChan s, 32768, base + 32 * (s.cnt.sWr % size), 0, b, .sample⟩] s
    count1 10 3 { s1 with cnt := { s1.cnt with sWr := (s1.cnt.sWr + 1) % (2 * size), sTick := s1.cnt.sTick + 1 } }

/-- A frame completes in instance `i` (R474): an armed sample records it, or passes over it, up to seven frames. Whether a
frame is passed over is open. -/
def completeAs (i : Nat) (f : SmpFrame) (s : State) : State :=
  match tFind i s.cnt.sample with
  | none => s
  | some (n, skid) =>
    if skid < 7 ∧ freeNat s % 2 = 1 then
      useFree { s with cnt := { s.cnt with sample := tPut i (n, skid + 1) s.cnt.sample } }
    else
      let s1 := useFree { s with cnt := { s.cnt with sample := tDel i s.cnt.sample } }
      if regB s1 (pageCNT + 0x24) 0 then smpWrite i n skid f s1 else s1

/-- What a sample tells of a frame. -/
def smpOf (f : Frame) : SmpFrame :=
  { src := f.src, len := f.len, act := f.act, mark := f.mark, dp := f.dp, tid := f.tid, fkind := f.fkind, ftgt := f.ftgt, stamp := f.stamp }

/-- A frame of the buffer completes in instance `i`. -/
def complete (i : Nat) (f : Frame) (s : State) : State := completeAs i (smpOf f) s

/-- A frame as the buffer knows it by now, where it is there: a source's frames differ in their stamps. -/
def smpNow (s : State) (x : SmpFrame) : SmpFrame :=
  ((s.qbm.frames.find? (fun e => e.2.src == x.src && e.2.stamp == x.stamp)).map (fun e => smpOf e.2)).getD x

/-- A frame completes in instance `i` in cycle `c`, or in this one where that has passed. -/
def completeAt (c i : Nat) (x : SmpFrame) (s : State) : State := atCycle (max s.tim.now c) (.completes i x) s

/-- The decision cycle of a frame, in which it completes in its slice, and in the classifier where it has been classified (R471, R474). -/
def decided (i : Nat) (cls : Bool) (x : SmpFrame) (s : State) : State :=
  let s1 := completeAs (iSLC i) x s
  if cls then completeAs 5 x s1 else s1

end Sys2Proof.Machine
end

