-- ==== Sys2Proof/Machine/Qbm.lean ====
section
/-!
DEFINITION. The queue and buffer manager and the deep port: cells, admission, queues, flow-control states, deep memory,
scrubbing and retirement (08_queues_and_buffer.md). Downstream selection lies in Machine/Select.lean.
-/

namespace Sys2Proof.Machine

/-! ## Settings and numbers -/

/-- Queue numbers (Table 8-2; fill delivery and the TMM mark are the model's, log entry 13). -/
def qUpl (p i : Nat) : Nat := 131072 + 8 * p + i
def qFill (r : Nat) : Nat := 131200 + r
def isDs (q : Nat) : Bool := q < 131072
def isUplQ (q : Nat) : Bool := 131072 ≤ q && q < 131200

/-- Context of a downstream queue (Table 8-3) and its fields. -/
def qctx (s : State) (q : Nat) : W4 := tGet W4.zero s.qbm.ctx q
def qEn (c : W4) : Bool := bit c.w0 0
def qTid (c : W4) : Nat := fld c.w0 1 10
def qIdx (c : W4) : Nat := fld c.w0 11 12
def qPrio (c : W4) : Nat := fld c.w0 23 3
def qDeep (c : W4) : Bool := bit c.w0 26
def qCir (c : W4) : Nat := fld c.w1 0 17
def qWgt (c : W4) : Nat := max 1 (fld c.w1 17 8)
def qAge (c : W4) : Nat := fld c.w1 25 7
def qPir (c : W4) : Nat := fld c.w2 0 17
def qDhi (c : W4) : Nat := fld c.w2 17 15

/-- MINC and MAXC of a queue (R243). -/
def qLimits (s : State) (q : Nat) : Nat × Nat :=
  let w :=
    if isDs q then (qctx s q).w3
    else if isUplQ q then reg s (rUpl ((q - 131072) / 8) (0x44 + 8 * ((q - 131072) % 8)))
    else reg s (pageHRD + 0x3D000 + 4 * (q - 131200))
  (fld w 0 16, fld w 16 16)

/-- Tokens of a queue, and writing them. -/
def queueOf (s : State) (q : Nat) : List Token := tGet [] s.qbm.q q
def setQueue (q : Nat) (l : List Token) (s : State) : State := { s with qbm := { s.qbm with q := tSet [] s.qbm.q q l } }

/-- Cells charged to a queue. -/
def chgOf (s : State) (q : Nat) : Nat := tGet 0 s.qbm.chg q
def addChg (q : Nat) (d : Int) (s : State) : State :=
  { s with qbm := { s.qbm with chg := tMod 0 s.qbm.chg q (fun v => ((v : Int) + d).toNat) } }

/-- A frame of the buffer. -/
def frameOf (s : State) (f : Nat) : Option Frame := tFind f s.qbm.frames
def setFrame (f : Nat) (v : Frame) (s : State) : State := { s with qbm := { s.qbm with frames := tPut f v s.qbm.frames } }

/-! ## Bank groups and cells (R237, R238) -/

/-- Cells available (R270). -/
def cellsAvail (s : State) : Nat :=
  (List.range 16).foldl (fun n g => let v := grpOf s g; if v.fenced then n else n + (16384 - v.quar.length)) 0

/-- Physical groups that hold cells of a frame. -/
def frameGroups (s : State) (f : Frame) : List Nat := (f.cells.map (fun c => physOf s (c / 16384))).dedup

/-- Has the frame a cell in a group that sleeps (R269)? -/
def asleep (s : State) (f : Frame) : Bool := (frameGroups s f).any (fun g => !(domOn s (domBG g)))

/-- A selection or a delivery has found a head token: each group with a cell of its frame is sent ARRIVE (R269, R445). -/
def wakeGroups (f : Frame) (s : State) : State := (frameGroups s f).foldl (fun s g => wake (domBG g) 1 s) s

/-- Take one free cell of a group. -/
def takeCell (g : Nat) (v : Group) : Option (Nat × Group) :=
  if v.next < 16384 then some (g * 16384 + v.next, { v with next := v.next + 1 })
  else match v.freed with
    | c :: t => some (c, { v with freed := t })
    | [] => none

/-- First group from `g` on, of `n` tried in turn, that gives a cell. -/
def allocOne (s : State) (g : Nat) : Nat → Option (Nat × Nat × State)
  | 0 => none
  | n + 1 =>
    let h := g % 16
    if allocates s h then
      match takeCell h (grpOf s h) with
      | some (c, v) => some (c, (h + 1) % 16, setGrp h v s)
      | none => allocOne s (g + 1) n
    else allocOne s (g + 1) n

/-- Take `n` cells in round-robin order, from the group after the one this section used last (R238). -/
def allocN (sec : Nat) : Nat → State → Option (List Nat × State)
  | 0, s => some ([], s)
  | n + 1, s =>
    match allocOne s (tGet 0 s.qbm.rrGrp sec) 16 with
    | none => none
    | some (c, g, s1) =>
      match allocN sec n { s1 with qbm := { s1.qbm with rrGrp := tSet 0 s1.qbm.rrGrp sec g } } with
      | none => none
      | some (l, s2) => some (c :: l, s2)

/-- A group is fenced (R268). -/
def fenceGroup (g : Nat) (s : State) : State :=
  let s1 := setGrp g { grpOf s g with fenced := true, freed := [], next := 16384 } s
  { s1 with glb := { s1.glb with defBg := s1.glb.defBg ||| BitVec.ofNat 17 (2 ^ physOf s g) } }

/-- A group's errors have reached a limit (R266): its retirement starts, it is fenced, or the request is refused. -/
def autoRetire (g : Nat) (s : State) : State :=
  let v := grpOf s g
  let ueTh := regF s (pageQBM + 0x18) 0 8
  let qTh := regF s (pageQBM + 0x18) 8 14
  if v.fenced ∨ ¬((ueTh ≠ 0 ∧ ueTh ≤ v.ue) ∨ (qTh ≠ 0 ∧ qTh ≤ v.quar.length)) ∨ s.qbm.retire = some g then s
  else if s.qbm.retire.isSome then { s with qbm := { s.qbm with rBusy := true, rNoSpare := false } }
  else if s.qbm.spareUsed then fault 6 4 (w32 g) 3 7 (physOf s g) 0 (fenceGroup g s)
  else fault 6 3 (w32 g) 3 7 (physOf s g) 0
    { s with qbm := { s.qbm with retire := some g, rAt := s.tim.now, rBusy := false, rNoSpare := false } }

/-! ## Link memory (R239, R263) -/

/-- A cell's link word. -/
def linkOf (s : State) (c : Nat) : LinkWord := tGet LinkWord.last s.qbm.link c
def setLink (c : Nat) (w : LinkWord) (s : State) : State :=
  { s with qbm := { s.qbm with link := tSet LinkWord.last s.qbm.link c w } }

/-- What a read of a link word answers: the first copy, or the second where the first fails; none where both fail. -/
def linkRead (w : LinkWord) : Option (Nat × Bool) :=
  if !w.a.bad then some (w.a.next, w.a.fin) else if !w.b.bad then some (w.b.next, w.b.fin) else none

/-- Write both copies of a cell's link word. -/
def writeLink (c next : Nat) (fin : Bool) (s : State) : State := setLink c ⟨⟨next, fin, false⟩, ⟨next, fin, false⟩⟩ s

/-- Chain the cells of a frame. -/
def chainCells : List Nat → State → State
  | [], s => s
  | [c], s => writeLink c 0 true s
  | c :: d :: l, s => chainCells (d :: l) (writeLink c d false s)

/-- Walk the chain from cell `c`: the cells reached, and whether its end was reached. -/
def walkLink (s : State) : Nat → Nat → List Nat × Bool
  | 0, c => ([c], true)
  | n + 1, c =>
    match linkRead (linkOf s c) with
    | none => ([c], false)
    | some (d, fin) => if fin then ([c], true) else let r := walkLink s n d; (c :: r.1, r.2)

/-- What reading the cells of a frame for egress meets. -/
inductive EgrRead where
  | clean
  | cell (c : Nat)              -- a marked cell (R264, R265)
  | link (k : Nat)              -- both copies of a link word fail; `k` cells lie after the break (R263)
deriving DecidableEq, Repr

/-- A cell is freed: marked cells are quarantined, which may retire their group, and a fenced group's cells leave (R264, R266, R268). -/
def freeCell (c : Nat) (s0 : State) : State :=
  let s := { s0 with qbm := { s0.qbm with link := tDel c s0.qbm.link } }
  let g := c / 16384
  let v := grpOf s g
  if v.bad.contains c then autoRetire g (setGrp g { v with bad := v.bad.filter (· != c), quar := v.quar ++ [c] } s)
  else if v.fenced then s
  else setGrp g { v with freed := v.freed ++ [c] } s

/-- Cells of a frame are freed. -/
def freeCellsOf (l : List Nat) (s : State) : State := l.foldl (fun s c => freeCell c s) s

/-- Deep cells: the region's size, and its first cells, whose 4 x SIZE bytes hold the free list; how many cells are free, taken, freed
(R258). -/
def deepSize (s : State) : Nat := regF s (pageDPT + 0xC) 0 29
def deepList (s : State) : Nat := ceilDiv (4 * deepSize s) 256
def deepFree (s : State) : Nat := deepSize s - deepList s - s.qbm.dUsed - s.qbm.dLost

/-- Address of a deep cell, from BASE in 256-byte units; it travels on DMP channel d mod 8. -/
def deepAddr (s : State) (d : Nat) : Nat := 256 * (regPair s (pageDPT + 4) % 2 ^ 44 + d)

/-- The free list as it stands after BASE or SIZE is written: every cell free. -/
def deepInit (s : State) : State := { s with qbm := { s.qbm with dNext := 0, dFreed := [], dUsed := 0, dLost := 0 } }

def takeDeep (n : Nat) (s : State) : List Nat × State :=
  let q := s.qbm
  let r := q.dFreed.take n
  let m := n - r.length
  (r ++ (List.range m).map (deepList s + q.dNext + ·),
   { s with qbm := { q with dFreed := q.dFreed.drop n, dNext := q.dNext + m, dUsed := q.dUsed + n } })
def freeDeep (l : List Nat) (s : State) : State :=
  { s with qbm := { s.qbm with dFreed := s.qbm.dFreed ++ l, dUsed := s.qbm.dUsed - l.length } }

/-! ## Flow-control states (R257) -/

/-- Recompute XOFF(p, i) from its cell count. -/
def xoffOne (k : Nat) (s : State) : State :=
  let n := tGet 0 s.qbm.portCells k
  let th := regF s (pageQBM + 0x14) 0 16
  let on := regF s (pageQBM + 0x14) 16 16
  let x := if th ≤ n then true else if n ≤ on then false else tGet false s.qbm.xoff k
  { s with qbm := { s.qbm with xoff := tSet false s.qbm.xoff k x } }

/-- Cells of port and priority `k` change by `d`. -/
def portCellsAdd (k : Nat) (d : Int) (s : State) : State :=
  xoffOne k { s with qbm := { s.qbm with portCells := tMod 0 s.qbm.portCells k (fun v => ((v : Int) + d).toNat) } }

/-- S changes by `d`; the buffer-wide XOFF follows it. -/
def addS (d : Int) (s : State) : State :=
  let n := ((s.qbm.s : Int) + d).toNat
  { s with qbm := { s.qbm with s := n, xoffAll := decide (regF s (pageQBM + 0x10) 0 18 ≤ n) } }

/-- Every XOFF once the thresholds have changed. -/
def xoffFresh (s : State) : State := (List.range 128).foldl (fun s k => xoffOne k s) (addS 0 s)

/-- XOFF of a port and priority (R257). -/
def xoffOf (s : State) (p i : Nat) : Bool := tGet false s.qbm.xoff (8 * p + i) || s.qbm.xoffAll

/-! ## References (R32) -/

/-- Key of the cell count of a frame's ingress port and priority. -/
def portKey (f : Frame) : Option Nat := if f.src.kind = 0 then some (8 * f.src.num + f.inPrio) else none

/-- Frame `f` holds `n` cells less: they leave its port's count, and the charge of a queue that they were fetched for. -/
def cellsLeave (f : Frame) (n : Nat) (s : State) : State :=
  let s1 := match portKey f with
    | some k => portCellsAdd k (-(n : Int)) s
    | none => s
  match f.dchg with
  | some q => addChg q (-(n : Int)) s1
  | none => s1

/-- The last part of a send leaves the block, or is dropped: its record falls due 32 cycles after its last byte has left toward every
destination (R194, R314). A copy of it that lies in the buffer, or in deep memory, has yet to leave. -/
def sendDone (n : Nat) (f : Frame) (s : State) : State :=
  match f.send with
  | none => s
  | some o =>
    let c := max s.tim.now f.left
    let same := fun (g : Frame) => g.send.any (fun x => x.ring == o.ring && x.index == o.index)
    if s.qbm.frames.any (fun e => same e.2) then
      -- the other copy inherits the cycle
      let l := s.qbm.frames.map (fun e => if same e.2 then (e.1, { e.2 with left := max c e.2.left }) else e)
      { s with qbm := { s.qbm with frames := l } }
    else
      let r := ringOf s .send o.ring
      let l := r.recs.map fun x =>
        if x.r.index = o.index ∧ !x.ready then { x with ready := true, due := c + 32, frame := some n, info := some f } else x
      atCycle (c + 32) (.record .send o.ring) (setRing .send o.ring { r with recs := l } s)

/-- Part of a frame leaves the block, its last byte in cycle `c`. -/
def leaves (n c : Nat) (s : State) : State :=
  match frameOf s n with
  | some f => if f.send.isSome then setFrame n { f with left := max c f.left } s else s
  | none => s

/-- The stamp-queue entry of frame `n` is freed, unless a copy of the frame, on-block or in deep memory, has yet to be sent: it then stands
for that one (R353). -/
def stampEnd (n : Nat) (f : Frame) (s : State) : State :=
  match f.sq with
  | none => s
  | some p =>
    let u := tGet Upl.empty s.upl p
    let copy := s.qbm.frames.find? (fun e => e.1 != n && e.2.src == f.src && e.2.ino == f.ino && e.2.sq == some p)
    let sq := match copy, tFind n u.sq with
      | some e, some x => tPut e.1 x (tDel n u.sq)
      | none, some _ => tDel n u.sq
      | some _, none => u.sq
      | none, none => u.sq
    { s with upl := tSet Upl.empty s.upl p { u with sq := sq } }

/-- Free what a frame holds: cells, its share of S, its port's count, its stamp-queue entry (R32, R247, R353). -/
def freeFrame (n : Nat) (f : Frame) (s : State) : State :=
  let s1 := freeDeep f.deep (freeCellsOf f.cells s)
  let s2 := if f.sAdd = 0 then s1 else addS (-(f.sAdd : Int)) s1
  let s3 := cellsLeave f f.cells.length s2
  sendDone n f (stampEnd n f { s3 with qbm := { s3.qbm with frames := tDel n s3.qbm.frames } })

/-- Release one reference; the last one frees the frame, its completion in QBM (R474). -/
def release1 (n : Nat) (s : State) : State :=
  match frameOf s n with
  | none => s
  | some f => if f.refs ≤ 1 then freeFrame n f (complete 6 f s) else setFrame n { f with refs := f.refs - 1 } s

/-- Count a discarded token of a queue (Table 15-4). -/
def objDiscard (q : Nat) (s : State) : State :=
  if isDs q then objAdd 1 q 3 1 s else if isUplQ q then objAdd 2 (q - 131072) 3 1 s else objAdd 4 (q - 131200) 2 1 s

/-- Count an event of QBM about a queue; its object is the downstream queue number. -/
def countQ (evt q : Nat) (s : State) : State := if isDs q then countO 6 evt q 1 s else count1 6 evt s

/-- A token leaves its queue for good without being sent. -/
def dropToken (q evt : Nat) (t : Token) (s : State) : State :=
  release1 t.frame (addChg q (-(t.est : Int)) (objDiscard q (countQ evt q s)))

/-- Discard the tokens of a queue under FLUSH (R243, R249, R256). What a selection in progress has taken stays, and is sent (R272). -/
def flushQueue (q : Nat) (s : State) : State :=
  let taken := s.qbm.sel.flatMap fun e => (e.2.taken.filter (·.1 == q)).map (·.2.seq)
  let sel := s.qbm.sel.map fun e => (e.1, { e.2 with segs := if (tFind q e.2.segs).isSome then tPut q 0 e.2.segs else e.2.segs })
  ((queueOf s q).filter (fun t => !(taken.contains t.seq))).foldl (fun s t => dropToken q 8 t s)
    (setQueue q ((queueOf s q).filter (fun t => taken.contains t.seq))
      { s with qbm := { s.qbm with segs := tDel q s.qbm.segs, sel := sel } })

/-- Idle out the staged TUs of frame `n` from the downstream queues that `p` names, and what a split of it has still to send (R34). -/
def idleAt (p : Nat → Bool) (n : Nat) (s : State) : State :=
  let idle := fun (r : Tre) =>
    { r with
      stage := r.stage.map (fun b => (b.1, b.2.map (fun u => if u.frame = n ∧ u.queue < 131072 ∧ p u.queue then { u with idle := true } else u)))
      cont := r.cont.filter (fun c => c.frame != n || !(p c.queue)) }
  { s with tre := s.tre.map (fun e => (e.1, idle e.2)) }
def idleFrame (n : Nat) (s : State) : State := idleAt (fun _ => true) n s

/-- Where frame `n` stands at a queue's head, what was sent of it is forgotten: the next head starts with its first segment. -/
def headGone (q n : Nat) (s : State) : State :=
  if ((queueOf s q).head?.map (·.frame)) == some n then { s with qbm := { s.qbm with segs := tDel q s.qbm.segs } } else s

/-- Withdraw the tokens of a frame from every queue (R34, R263); nothing is counted. -/
def withdraw (n : Nat) (s : State) : State :=
  s.qbm.q.foldl
    (fun s e =>
      let gone := e.2.filter (·.frame == n)
      if gone.isEmpty then s
      else
        gone.foldl (fun s t => release1 t.frame (addChg e.1 (-(t.est : Int)) s))
          (setQueue e.1 (e.2.filter (·.frame != n)) (headGone e.1 n s))) s

/-! ## Admission (R244 to R247) -/

/-- Is a downstream queue's terminal Released (R249)? -/
def released (s : State) (q : Nat) : Bool :=
  let c := qctx s q
  let t := tGet Tre.empty s.tre (q / 2048)
  decide (qTid c ≠ 0) && (tGet Ctx.unknown t.ctx (qTid c)).state == .released

/-- Does the queue belong to a tree or a port without a home (R404)? -/
def homeless (s : State) (q : Nat) : Bool :=
  if isDs q then lostTree s (q / 2048) else isUplQ q && lostPort s ((q - 131072) / 8)

/-- Count a refused target. -/
def objRefuse (q : Nat) (s : State) : State :=
  if isDs q then objAdd 1 q 2 1 s else if isUplQ q then objAdd 2 (q - 131072) 2 1 s else objAdd 4 (q - 131200) 2 1 s
def refuseQ (evt q : Nat) (s : State) : State := objRefuse q (countQ evt q s)

/-- The wake events of an enqueue (R445). -/
def wakeQ (q : Nat) (s : State) : State :=
  if isDs q then
    let c := qctx s q
    if qEn c ∧ qTid c = 0 then wake (domTP (q / 2048)) 1 s else s
  else if isUplQ q then wake (domUP ((q - 131072) / 8)) 1 s
  else wake domHP 1 s

/-- Is the frame marked for spill in this queue (R259)? -/
def spills (s : State) (q f : Nat) : Bool :=
  isDs q && regB s pageDPT 0 && qDeep (qctx s q) && decide (qDhi (qctx s q) < chgOf s q + f) && decide (f ≤ deepFree s)
    && domOn s domDP

/-- Spill cells that wait to be written: those of the frames whose turn has not come, and what is left of the one that is being written. -/
def spillWaiting (s : State) : Nat :=
  s.qbm.spillTo.foldl (fun n f => n + ((frameOf s f).map (·.cells.length)).getD 0) (s.qbm.dwAt - s.tim.now)

/-- A frame marked for spill is written to deep memory after its last byte, one cell a cycle, once the deep port has written what came before
(R258, R259). -/
def spillRun (n : Nat) (s : State) : State :=
  if s.tim.now < s.qbm.dwAt then atCycle s.qbm.dwAt (.spill n) s
  else
    let s1 := { s with qbm := { s.qbm with spillTo := s.qbm.spillTo.filter (· != n) } }
    match frameOf s1 n with
    | none => s1
    | some f =>
      let s2 := f.deep.foldl (fun s c => count1 8 0 (emit (.deepWrite (c % 8) (deepAddr s c)) s)) s1
      { s2 with qbm := { s2.qbm with spill := s2.qbm.spill ++ [n], dwAt := s2.tim.now + f.deep.length } }

/-- The frame joins a queue with `f` cells charged, `fa` of them judged: its token, its sequence number, the spill mark and the wake.
One deep copy serves every queue that marks the frame (log entry 31). -/
def enqueue (q part n fa f : Nat) (s : State) : State :=
  let sp := spills s q fa
  let busy := decide (15625 < spillWaiting s)
  let mark := sp && !busy
  let s0 := if sp && busy then countO 6 14 q 1 s else s
  let seq := tGet 0 s0.qbm.seqNo q
  let tok : Token := ⟨n, f, seq, s0.tim.tick % 2 ^ 16, mark, part, s0.tim.now⟩
  let s1 := { s0 with qbm := { s0.qbm with
      q := tSet [] s0.qbm.q q (tGet [] s0.qbm.q q ++ [tok]), seqNo := tSet 0 s0.qbm.seqNo q ((seq + 1) % 2 ^ 32) } }
  let s2 := addChg q f (wakeQ q (count1 6 0 s1))
  if mark then
    let s3 := countO 6 13 q 1 s2
    match frameOf s3 n with
    | none => s3
    | some fr =>
      if !fr.deep.isEmpty then s3
      else
        let d := takeDeep fr.cells.length s3
        let s4 := setFrame n { fr with deep := d.1 } d.2
        let s5 := { s4 with qbm := { s4.qbm with spillTo := s4.qbm.spillTo ++ [n] } }
        if s5.tim.now < fr.last then atCycle (fr.last + 1) (.spill n) s5 else spillRun n s5
  else s2

/-- One target of frame `n` (R246, R247): `fa` cells are judged, `f` stay charged (R245). The Bool says that the target was
admitted. A frame of which one target beyond MINC has been admitted meets no further test of S, even where the corrected amount that
it adds is 0. -/
def admit1 (q part n dp fa f : Nat) (s : State) : State × Bool :=
  let o := chgOf s q
  let lim := qLimits s q
  let inS := ((frameOf s n).map (·.inS)).getD false
  if (isDs q && !(qEn (qctx s q))) || released s q || homeless s q then (refuseQ 7 q s, false)
  else if lim.2 < o + fa then (refuseQ 3 q s, false)
  else
    let beyond := if o + fa ≤ lim.1 then 0 else min fa (o + fa - lim.1)
    let keep := if o + f ≤ lim.1 then 0 else min f (o + f - lim.1)
    let limit := regF s (pageQBM + 4 + 4 * min dp 2) 0 18
    if 0 < beyond ∧ inS = false ∧ limit < s.qbm.s + beyond then (refuseQ (4 + min dp 2) q s, false)
    else
      let s1 := if 0 < beyond ∧ inS = false then
          match frameOf s n with
          | some fr => addS keep (setFrame n { fr with sAdd := keep, inS := true } s)
          | none => s
        else s
      let s2 := match frameOf s1 n with
        | some fr => setFrame n { fr with refs := fr.refs + 1 } s1
        | none => s1
      (enqueue q part n fa f s2, true)

/-- Cells of `n` bytes (R31). -/
def cellsFor (n : Nat) : Nat := ceilDiv n 256

/-- Enter a frame into the buffer without a reference; `none` when no cell is left for it (R244). -/
def storeFrame (sec : Nat) (f : Frame) (s : State) : Option (Nat × State) :=
  match allocN sec (cellsFor f.bytes.length) s with
  | none => none
  | some (cells, s1) =>
    let n := s1.qbm.nextFrame
    let s2 := { s1 with qbm := { s1.qbm with nextFrame := n + 1, frames := tPut n { f with cells := cells } s1.qbm.frames } }
    some (n, match portKey f with
      | some k => portCellsAdd k cells.length (chainCells cells s2)
      | none => chainCells cells s2)

/-- The last byte of frame `n` has come: its charges are corrected to the cells it uses (R245). -/
def correctCharge (n : Nat) (s : State) : State :=
  match frameOf s n with
  | none => s
  | some f =>
    if f.prov = 0 then s
    else
      let s1 := s.qbm.q.foldl
        (fun s e =>
          let k := (e.2.filter (·.frame == n)).length
          if k = 0 then s
          else addChg e.1 (-(k * f.prov : Nat))
            (setQueue e.1 (e.2.map fun t => if t.frame = n then { t with est := t.est - f.prov } else t) s)) s
      let d := min f.prov f.sAdd
      let s2 := if d = 0 then s1 else addS (-(d : Int)) s1
      setFrame n { f with prov := 0, sAdd := f.sAdd - d } s2

/-- A frame that no target holds is freed at once (R247). -/
def freeUnheld (n : Nat) (s : State) : State :=
  match frameOf s n with
  | some f => if f.refs = 0 then freeFrame n f (complete 6 f s) else s
  | none => s

/-! ## What a token holds (R240) -/

/-- The fields of Table 8-1 as a token shows them: LEN is 0x7_FFFF until the last byte has come, STAMP is the low 32 bits of
nanoseconds. IPCK and L4CK stand in CSUM; the pointer to the sums that a send's inserts need is the frame itself (`SendOpt`). -/
structure TokenView where
  cell : Nat
  loc : Bool
  len : Nat
  est : Nat
  src : Nat
  stamp : Word
  e2e : Word
  mark : Nat
  ipck : Nat
  l4ck : Nat
  sums : Nat                    -- insert sums pointer: the frame, where a checksum is still to be inserted
  dp : Nat
  seq : Nat
  etick : Nat
deriving DecidableEq, Repr

def tokenView (s : State) (k : Token) : Option TokenView :=
  (frameOf s k.frame).map fun f =>
    { cell := if f.cells.isEmpty then f.deep.headD 0 else f.cells.headD 0, loc := f.cells.isEmpty && !f.deep.isEmpty,
      len := if s.tim.now ≤ f.last ∧ f.lenKnown = false then 0x7FFFF else f.len, est := k.est, src := srcWord f.src, stamp := compact f.stamp,
      e2e := f.e2e, mark := markCode f.mark, ipck := f.ipck, l4ck := f.l4ck,
      sums := match f.send with | some o => if o.ipck || o.l4ck then k.frame else 0 | none => 0,
      dp := f.dp, seq := k.seq, etick := k.etick }

/-! ## Queue contexts (R243) -/

/-- Contexts with the accepted writes in force. -/
def ctxAfter (s : State) : Tab W4 := s.qbm.ctxPend.foldl (fun t e => tSet W4.zero t e.1 e.2) s.qbm.ctx

/-- Sum of MINC over all queues, `ctx` being the downstream contexts, with deferred register writes in force. -/
def mincSum (s : State) (ctx : Tab W4) : Nat :=
  let ds := ctx.foldl (fun n e => n + fld e.2.w3 0 16) 0
  let up := (List.range 128).foldl (fun n k => n + fld (regAfter s (rUpl (k / 8) (0x44 + 8 * (k % 8)))) 0 16) 0
  let lo := pageHRD + 0x3D000
  let keys := (s.regs.val.map (·.1) ++ s.regs.tickDef.map (·.addr)).filter
    (fun a => lo ≤ a && a < lo + 0x2000)
  ds + up + keys.dedup.foldl (fun n a => n + fld (regAfter s a) 0 16) 0

/-- Rate of a tree: the one sampled at its start, or TRE_CFG.RATE before, of which the reserved code 3 acts as 0 (R62). -/
def rateOf (s : State) (t : Nat) : Nat :=
  let r := tGet Tre.empty s.tre t
  if r.run then r.rate else regF s (rTreCfg t) 1 2 % 3

/-- Blocks per tick of a tree (Table 0-4). -/
def blksPerTick (s : State) (t : Nat) : Nat := 25000 * 2 ^ rateOf s t

/-- First cause of R243 that refuses a context write; 0 none. -/
def queueCause (s : State) (q : Nat) (c : W4) : Nat :=
  let bpt := blksPerTick s (q / 2048)
  let old := tGet W4.zero (ctxAfter s) q
  if bpt < qCir c ∨ bpt < qPir c ∨ (qPir c ≠ 0 ∧ qPir c < qCir c) then 1
  else if fld c.w3 16 16 < fld c.w3 0 16 then 2
  else if cellsAvail s < mincSum s (tSet W4.zero (ctxAfter s) q c) + hdrm s then 3
  else if !(queueOf s q).isEmpty ∧ (qTid c ≠ qTid old ∨ qIdx c ≠ qIdx old) then 4
  else 0

/-- Reserved bits of a context read 0 (R18). -/
def cleanCtx (c : W4) : W4 := { c with w0 := c.w0 &&& 0x7FFFFFF }

/-- Credit caps of a queue (R251), in 1/16 block. -/
def ccCap (c : W4) : Nat := max (qCir c * 16 / 10) (1002 * 16)
def pcRate (bpt : Nat) (c : W4) : Nat := if qPir c = 0 then bpt else qPir c
def pcCap (bpt : Nat) (c : W4) : Nat := max (pcRate bpt c * 16 / 10) (1002 * 16)

/-- Peak credit of a queue. A queue that never had a context has been refilled with PIR 0 in every selection of its tree. -/
def pcOf (s : State) (q : Nat) : Int :=
  match tFind q s.qbm.pc with
  | some v => v
  | none => if (tGet Tre.empty s.tre (q / 2048)).selOnce then (pcCap (blksPerTick s (q / 2048)) W4.zero : Int) else 0

/-- A context write takes effect: EN falling flushes the queue, and the credits are clipped (R243, R251). -/
def applyCtx (q : Nat) (c : W4) (s : State) : State :=
  let s1 := { s with qbm := { s.qbm with
      ctx := tSet W4.zero s.qbm.ctx q c,
      cc := tMod 0 s.qbm.cc q (fun v => min v (ccCap c)),
      pc := tPut q (min (pcOf s q) (pcCap (blksPerTick s (q / 2048)) c)) s.qbm.pc } }
  if qEn c then s1 else flushQueue q s1

/-- The accepted context writes take effect at a tick boundary, in order. -/
def ctxBoundary (s : State) : State :=
  let l := s.qbm.ctxPend
  l.foldl (fun s e => applyCtx e.1 e.2 s) { s with qbm := { s.qbm with ctxPend := [] } }

/-- An accepted context write: at the next tick boundary, or at once before the engine starts (R521). -/
def putCtx (q : Nat) (c : W4) (s : State) : State :=
  if s.tim.started then { s with qbm := { s.qbm with ctxPend := s.qbm.ctxPend ++ [(q, cleanCtx c)] } }
  else applyCtx q (cleanCtx c) s

/-! ## Retirement and protection (R263 to R268) -/

/-- One uncorrectable error of a group. -/
def groupUe (g : Nat) (s : State) : State := setGrp g { grpOf s g with ue := (grpOf s g).ue + 1 } s

/-- Is a cell of a group free? -/
def cellFree (v : Group) (c : Nat) : Bool := v.next ≤ c % 16384 || v.freed.contains c

/-- Mark cell `c` bad: a free cell is quarantined at once, an allocated one when it is freed (R265). -/
def markCell (c : Nat) (s : State) : State :=
  let g := c / 16384
  let v := grpOf s g
  if v.quar.contains c ∨ v.bad.contains c then s
  else if v.fenced then
    -- its free cells have left; one that a frame still holds is read until the frame goes (R268)
    if s.qbm.frames.any (fun e => e.2.cells.contains c) then setGrp g { v with bad := v.bad ++ [c] } s else s
  else if v.freed.contains c then setGrp g { v with freed := v.freed.filter (· != c), quar := v.quar ++ [c] } s
  else if v.next ≤ c % 16384 then
    setGrp g { v with
      freed := v.freed ++ ((List.range (c % 16384 - v.next)).map (fun i => g * 16384 + v.next + i)),
      next := c % 16384 + 1, quar := v.quar ++ [c] } s
  else setGrp g { v with bad := v.bad ++ [c] } s

/-- One copy of a cell's link word fails: both are written again from the other (R263). -/
def repairLink (c : Nat) (s : State) : State :=
  match linkRead (linkOf s c) with
  | some (d, fin) => if (tFind c s.qbm.link).isSome then writeLink c d fin s else s
  | none => s

/-- Both copies of an allocated cell's link word fail: a read for egress meets it (R263, log entry 31). -/
def breakLink (c : Nat) (s : State) : State :=
  match tFind c s.qbm.link with
  | some w => setLink c ⟨{ w.a with bad := true }, { w.b with bad := true }⟩ s
  | none => s

/-- Logical group that a physical group serves; none where it serves none (R450). -/
def logicalOf (s : State) (p : Nat) : Option Nat := (List.range 16).find? (fun g => physOf s g == p)

/-- The row that the scrubber reads in each group: one in 64 cycles, all 32,768 in turn (R49, R265). Which row it begins with, and in which
cycle of each 64 it reads, the spec leaves open: the model takes row 0, at reset, and the cycles that are multiples of 64 of the count since
reset (DESIGN CHOICE, log entry 31). -/
def scrubRow (s : State) : Nat := s.tim.now / 64 % 32768

/-- One finding of the scrubber (R265), in the row that it reads; a group that no logical group maps to, or that sleeps, is skipped (R450). The write-back of a
correctable error leaves the row as the frames wrote it; an abandoned one leaves the row to the traffic write. -/
def scrubHit (h : ScrubHit) (s : State) : State :=
  match logicalOf s h.group.val with
  | none => s
  | some g =>
    let c := g * 16384 + h.cell.toNat
    if !(domOn s (domBG h.group.val)) || h.cell.toNat != scrubRow s / 2 then s
    else match h.kind with
      | .correctable _ => countO 6 11 h.group.val 1 s
      | .uncorrectable => groupUe g (markCell c s)
      | .linkCorrectable => countO 6 11 h.group.val 1 s
      | .linkCopy => repairLink c s
      | .linkBoth => breakLink c s

/-- What a scrub read finds: every group's row first, then the groups that have reached a limit, the lowest logical group first (R272). -/
def scrubHits (hits : List ScrubHit) (s : State) : State :=
  let s1 := hits.foldl (fun s h => scrubHit h s) s
  (List.range 16).foldl
    (fun s g => if hits.any (fun h => h.kind == .uncorrectable && logicalOf s1 h.group.val == some g) then autoRetire g s else s) s1

/-- An uncorrectable error in a cell read for egress (R264): the cell is quarantined when it is freed, the event counts, and the fault
captures group and row, whose half of the cell is open. -/
def cellFail (c : Nat) (s : State) : State :=
  let g := c / 16384
  let row := 2 * (c % 16384) + freeNat s % 2
  let p := physOf s g
  autoRetire g (groupUe g (fault 6 0 (w32 (p * 2 ^ 16 + row)) 1 7 p 0 (countO 6 12 p 1 (markCell c (useFree s)))))

/-- Both copies of a link word of frame `n` fail, with `k` cells after the break (R263): the frame is dropped at every target that has
not sent it, and those cells leak. -/
def linkFail (n k : Nat) (s : State) : State :=
  match frameOf s n with
  | none => s
  | some f =>
    let lost := f.cells.drop (f.cells.length - k)
    let s1 := cellsLeave f lost.length (setFrame n { f with cells := f.cells.take (f.cells.length - k) } s)
    let s2 := countN 6 10 lost.length { s1 with qbm := { s1.qbm with leak := s1.qbm.leak + lost.length } }
    withdraw n (idleFrame n (fault 6 1 (w32 (f.cells.getD (f.cells.length - k - 1) 0)) 1 0 0 0 s2))

/-- QBM_RETIRE.GO (R266 to R268): `data` names the group in LG. -/
def retireGo (lg : Nat) (s : State) : State :=
  if s.qbm.retire.isSome then { s with qbm := { s.qbm with rBusy := true, rNoSpare := false } }
  else if s.qbm.spareUsed then { s with qbm := { s.qbm with rBusy := false, rNoSpare := true } }
  else { s with qbm := { s.qbm with retire := some lg, rAt := s.tim.now, rBusy := false, rNoSpare := false } }

/-- A write of QBM_RETIRE: LG is stored, GO acts. -/
def writeRetire (data : Word) (s : State) : State :=
  let s1 := setReg (pageQBM + 0x20) (data &&& 0xF) s
  if bit data 4 then retireGo (fld data 0 4) s1 else s1
def execRetireGo (part : BitVec 6) (be : BitVec 4) (data : Word) (s : State) : Outcome :=
  .next (p0Write part be (writeRetire data) (begin_ s))

/-- Step 5 of R267 (step 4 is `copyLost`, log entry 11): the logical group maps to the spare, takes new cells again, and the old
physical group is fenced; a power request that waited is answered for the group now mapped (R272). -/
def retirementEnd (s : State) : State :=
  match s.qbm.retire with
  | none => s
  | some g =>
    let old := physOf s g
    let s1 := setGrp g { grpOf s g with leaving := false } s
    { s1 with
      qbm := { s1.qbm with bgmap := tSet g s1.qbm.bgmap g 16, retire := none, spareUsed := true }
      glb := { s1.glb with defBg := s1.glb.defBg ||| BitVec.ofNat 17 (2 ^ old) } }

/-! ## Deep memory (R258 to R262) -/

/-- The deep copy of a frame replaces its on-block cells. -/
def frameDeep (n : Nat) (f : Frame) (s : State) : State :=
  let s1 := freeCellsOf f.cells s
  let s2 := cellsLeave { f with dchg := none } f.cells.length s1
  let s3 := if f.sAdd = 0 then s2 else addS (-(f.sAdd : Int)) s2
  setFrame n { f with cells := [], sAdd := 0 } s3

/-- The queues in which a token of frame `n` is marked for spill. -/
def spillQueues (n : Nat) (s : State) : List Nat :=
  (s.qbm.q.filter (fun e => e.2.any (fun t => t.frame == n && t.spill))).map (·.1)

/-- The spill marks of frame `n` go: its tokens stand for frame `m` and are charged at most `est` cells. -/
def spillEnd (n m est : Nat) (s : State) : State :=
  (spillQueues n s).foldl
    (fun s q =>
      let l := queueOf s q
      let d := (l.filter (fun t => t.frame == n && t.spill)).foldl (fun a t => a + (t.est - est)) 0
      addChg q (-(d : Int))
        (setQueue q (l.map fun t => if t.frame = n ∧ t.spill then { t with frame := m, spill := false, est := min t.est est } else t) s)) s

/-- The deep writes of a frame are acknowledged (R259), or one failed (R261). Targets that are not deep keep the cells on-block: the
deep copy is then a frame of its own, for which the stamp queue's entry stands too (R353). -/
def deepWriteAck (n : Nat) (err : Bool) (s : State) : State :=
  if !(s.qbm.spill.contains n) then s
  else
    let s1 := { s with qbm := { s.qbm with spill := s.qbm.spill.filter (· != n) } }
    match frameOf s1 n with
    | none => s1
    | some f =>
      let k := (s1.qbm.q.flatMap (·.2)).foldl (fun a t => a + b2n (t.frame == n && t.spill)) 0
      if err then
        let s2 := fault 8 1 (w32 (f.deep.headD 0)) 2 11 (f.deep.headD 0 % 8) 0 (count1 8 3 (count1 6 16 s1))
        spillEnd n n f.cells.length (setFrame n { f with deep := [] } (freeDeep f.deep s2))
      else if k = 0 then setFrame n { f with deep := [] } (freeDeep f.deep s1)
      else if f.refs ≤ k then spillEnd n n 0 (frameDeep n f s1)
      else
        let m := s1.qbm.nextFrame
        let s2 := setFrame m { f with cells := [], refs := k, sAdd := 0, dchg := none } (setFrame n { f with deep := [], refs := f.refs - k } s1)
        spillEnd n m 0 { s2 with qbm := { s2.qbm with nextFrame := m + 1 } }
def execDeepWriteAck (frame : Nat) (err : Bool) (s : State) : Outcome := .next (deepWriteAck frame err (begin_ s))

/-- The deep cells of a frame are freed, where no other target still needs them. -/
def dropDeep (n : Nat) (s : State) : State :=
  match frameOf s n with
  | some f => if f.refs ≤ 1 then setFrame n { f with deep := [] } (freeDeep f.deep s) else s
  | none => s

/-- A fetch ends. -/
def endFetch (x : DeepFetch) (s : State) : State := { s with qbm := { s.qbm with fetch := s.qbm.fetch.erase x } }

/-- Does a target wait for the fetch of its frame? -/
def fetching (s : State) (q n : Nat) : Bool := s.qbm.fetch.any (fun x => x.frame == n && x.queue == q)

/-- Does a target still hold the reference that a fetch serves: units to be assembled, or a token of a queue that an emulated terminal reads? -/
def fetchWanted (s : State) (x : DeepFetch) : Bool :=
  s.tre.any (fun e => e.2.stage.any (fun b => b.2.any (fun u => u.frame == x.frame && u.queue == x.queue && !u.done)))
    || (x.beat == 0 && (queueOf s x.queue).any (·.frame == x.frame))

/-- A fetch that is late, or that fails, gives its target nothing: the frame's blocks go out idle (R261). -/
def fetchLost (x : DeepFetch) (s : State) : State :=
  dropDeep x.frame (idleAt (· == x.queue) x.frame (countO 6 15 x.queue 1 (endFetch x s)))

/-- Deep cells of a fetch. -/
def fetchCells (s : State) (x : DeepFetch) : Nat := ((frameOf s x.frame).map (·.deep.length)).getD 0

/-- The deep port issues the reads of the fetches that wait, in the order in which their tokens were taken, one cell a cycle (R260); `fuel`
bounds them. -/
def pumpFetch : Nat → State → State
  | 0, s => s
  | fuel + 1, s =>
    match s.qbm.fetch.find? (fun x => !x.sent) with
    | none => s
    | some x =>
      if s.tim.now < s.qbm.dpAt then
        if s.hrd.later.any (fun e => e.2 == .fetch) then s else atCycle s.qbm.dpAt .fetch s
      else
        let issue := fun (s : State) (f : Frame) => f.deep.foldl (fun s c => count1 8 1 (emit (.deepRead (c % 8) (deepAddr s c)) s)) s
        let s1 := match frameOf s x.frame with | some f => issue s f | none => s
        pumpFetch fuel { s1 with qbm := { s1.qbm with
          fetch := s1.qbm.fetch.replace x { x with sent := true }, dpAt := s1.tim.now + fetchCells s1 x } }
def pumpFetches (s : State) : State := pumpFetch (s.qbm.fetch.length + 1) s

/-- A fetch joins those that wait, in the order of the cycles in which tokens were taken. -/
def startFetch (x : DeepFetch) (s : State) : State :=
  let l := s.qbm.fetch
  let p := fun (y : DeepFetch) => y.sent || decide (y.taken ≤ x.taken)
  { s with qbm := { s.qbm with fetch := l.takeWhile p ++ x :: l.dropWhile p } }

/-- The TUs that a queue's selection took of frame `n` are those of frame `m`. -/
def renameTus (q n m : Nat) (s : State) : State :=
  let named := fun (r : Tre) =>
    { r with
      stage := r.stage.map (fun b => (b.1, b.2.map (fun u => if u.frame = n ∧ u.queue = q then { u with frame := m } else u)))
      cont := r.cont.map (fun c => if c.frame = n ∧ c.queue = q then { c with frame := m } else c) }
  { s with tre := s.tre.map (fun e => (e.1, named e.2)) }

/-- A deep fetch returns (R260): fresh on-block cells, charged to the queue; an error raises RERR and leaves the target what a late read
leaves it (R261). A fetch whose frame was withdrawn frees its cells (Table 8-7). `crc` says that deep memory gave other bytes than were
written: the end-to-end CRC will fail at the egress (R262). Where another target still holds the deep copy, what was fetched is a frame of
its own. -/
def deepReadReturn (n : Nat) (err crc : Bool) (s : State) : State :=
  match s.qbm.fetch.find? (fun x => x.frame == n && x.sent) with
  | none => s
  | some x =>
    match frameOf s n with
    | none => endFetch x s
    | some f =>
      if err then
        fault 8 0 (w32 (f.deep.headD 0)) 1 11 (f.deep.headD 0 % 8) 0 (count1 8 2 (fetchLost x s))
      else
        let s1 := endFetch x s
        match (if fetchWanted s x then allocN 18 f.deep.length s1 else none) with
        | some (cells, s2) =>
          let s3 := chainCells cells (match portKey f with | some k => portCellsAdd k cells.length s2 | none => s2)
          let got := { f with cells := f.cells ++ cells, deep := [], dchg := some x.queue, crcBad := crc }
          if f.refs ≤ 1 then addChg x.queue cells.length (setFrame n got (freeDeep f.deep s3))
          else
            let m := s3.qbm.nextFrame
            let s4 := setFrame m { got with refs := 1 } (setFrame n { f with refs := f.refs - 1 } s3)
            addChg x.queue cells.length (renameTus x.queue n m { s4 with qbm := { s4.qbm with nextFrame := m + 1 } })
        | none => dropDeep n (idleAt (· == x.queue) n s1)
def execDeepReadReturn (frame : Nat) (back : DeepBack) (s : State) : Outcome :=
  .next (deepReadReturn frame back.err back.crc (begin_ s))

/-- Is a fetch late: has its deep read not returned by cycle 0 of beat b-2 (R261)? A fetch for an emulated terminal is for no beat. -/
def fetchLate (s : State) (x : DeepFetch) : Bool := x.beat != 0 && decide (x.beat ≤ absBeat s + 2)

/-- DEEP_READ_LATE: the command has no effect in an earlier beat. -/
def deepReadLate (n : Nat) (s : State) : State :=
  match s.qbm.fetch.find? (fun x => x.frame == n && fetchLate s x) with
  | some x => fetchLost x s
  | none => s
def execDeepReadLate (frame : Nat) (s : State) : Outcome := .next (deepReadLate frame (begin_ s))

/-- Every deep read that is late at the end of cycle 0 of a beat. -/
def deepLates (s : State) : State := (s.qbm.fetch.filter (fetchLate s)).foldl (fun s x => fetchLost x s) s

/-- Sum of RD_BEAT over the trees with `v` for tree `t`, deferred writes counted. -/
def rdBeatSum (s : State) (t v : Nat) : Nat :=
  (List.range 64).foldl (fun n i => n + if i = t then v else fld (regAfter s (pageDPT + 0x100 + 4 * i)) 0 14) 0

end Sys2Proof.Machine
end

