-- ==== Sys2Proof/Machine/Frame.lean ====
section
/-!
DEFINITION. Frame MAC work on bytes: length cases, tags, checksums, segmentation (06_frame_mac.md). All functions here are
pure.
-/

namespace Sys2Proof.Machine

/-! ## Tags (R186) -/

/-- Is this EtherType a tag? -/
def isTpid (e : Nat) : Bool := e == 0x8100 || e == 0x88A8

/-- Number of tags recognised, at most two. -/
def tagCount (b : List Byte) : Nat :=
  if isTpid (beAt b 12 2) ∧ 16 ≤ b.length then (if isTpid (beAt b 16 2) ∧ 20 ≤ b.length then 2 else 1) else 0

/-- Outer TPID and TCI; 0 if untagged. -/
def outerTpidOf (b : List Byte) : Nat := if tagCount b = 0 then 0 else beAt b 12 2
def outerTciOf (b : List Byte) : Nat := if tagCount b = 0 then 0 else beAt b 14 2

/-- EtherType after the tags. -/
def etherType (b : List Byte) : Nat := beAt b (12 + 4 * tagCount b) 2

/-- Insert a tag at byte 12 (R187); remove the outer tag (R188). -/
def insertTag (tpid tci : Nat) (b : List Byte) : List Byte := b.take 12 ++ beBytes 2 tpid ++ beBytes 2 tci ++ b.drop 12
def stripTag (b : List Byte) : List Byte := if tagCount b = 0 then b else b.take 12 ++ b.drop 16

/-! ## Receive checks (R163 to R165) -/

/-- The mark of a received frame of length `n` whose kept bytes, FCS included, are `b`. -/
def markOf (maxlen n : Nat) (b : List Byte) (rxErr : Bool) : Mark :=
  if n < 64 then .runt
  else if maxlen < n then .oversize
  else if rxErr then .rxErr
  else if b.drop (n - 4) ≠ fcsOf (b.take (n - 4)) then .fcsErr
  else .good

/-- Does the FCS fail (R164), and is it a stomp? -/
def fcsBad (b : List Byte) : Bool := b.drop (b.length - 4) != fcsOf (b.take (b.length - 4))
def fcsStomped (b : List Byte) : Bool := b.drop (b.length - 4) == stompOf (b.take (b.length - 4))

/-! ## Checksums (R189 to R191, RFC 1071) -/

/-- Sum of the 16-bit big-endian words of a byte string, a last odd byte padded with zero. -/
def sum16 : List Byte → Nat
  | [] => 0
  | [a] => a.toNat * 256
  | a :: b :: t => a.toNat * 256 + b.toNat + sum16 t

/-- Fold a sum to 16 bits with end-around carry. -/
def fold16 (n : Nat) : Nat := if n = 0 then 0 else let r := n % 65535; if r = 0 then 65535 else r

/-- One's-complement checksum of a byte string. -/
def cksum (l : List Byte) : Nat := 65535 - fold16 (sum16 l)

/-- What the walk found that checksums need: slots 1 and 2, and the parse flags. -/
structure Hdrs where
  s1 : Option Nat
  s2 : Option Nat
  flags : Nat
deriving DecidableEq, Repr

/-- IPCK of Table 6-7; `b` is the frame without its FCS. -/
def ipckOf (h : Hdrs) (b : List Byte) : Nat :=
  match h.s1 with
  | none => 0
  | some o =>
    if !h.flags.testBit 0 then 0
    else
      let ihl := byteAt b o % 16
      if ihl < 5 ∨ b.length < o + 4 * ihl then 2
      else if fold16 (sum16 (sub b o (4 * ihl))) = 65535 then 1 else 2

/-- End of the IP packet that the header at `o` gives. -/
def ipEnd (h : Hdrs) (b : List Byte) (o : Nat) : Nat :=
  if h.flags.testBit 0 then o + beAt b (o + 2) 2 else o + 40 + beAt b (o + 4) 2

/-- Protocol number of the L4 header that the flags name. -/
def l4Proto (h : Hdrs) : Nat := if h.flags.testBit 2 then 6 else 17

/-- Pseudo-header sum of an L4 packet of `len` bytes. -/
def pseudo (h : Hdrs) (b : List Byte) (o len : Nat) : Nat :=
  (if h.flags.testBit 0 then sum16 (sub b (o + 12) 8) else sum16 (sub b (o + 8) 32))
    + len / 65536 + len % 65536 + l4Proto h

/-- A case of R190 that leaves the L4 checksum unverified, apart from a zero UDP checksum over IPv4. -/
def l4Open (h : Hdrs) (b : List Byte) (o : Nat) : Bool :=
  h.flags.testBit 4 || h.flags.testBit 5 || (h.flags.testBit 0 && beAt b (o + 6) 2 % 16384 != 0)
    || !(h.flags.testBit 0 || h.flags.testBit 1)

/-- Offset of the checksum field in the L4 header, and the least header. -/
def l4CkOfs (h : Hdrs) : Nat := if h.flags.testBit 2 then 16 else 6
def l4Min (h : Hdrs) : Nat := if h.flags.testBit 2 then 20 else 8

/-- UDP over IPv4 with a checksum field of 0, a case of R190; `q` is the byte of the UDP header. -/
def udpNoSum (h : Hdrs) (b : List Byte) (q : Nat) : Bool :=
  h.flags.testBit 0 && !h.flags.testBit 2 && decide (q + 8 ≤ b.length) && beAt b (q + 6) 2 == 0

/-- L4CK of Table 6-7. -/
def l4ckOf (h : Hdrs) (b : List Byte) : Nat :=
  match h.s2 with
  | none => 0
  | some q =>
    if !(h.flags.testBit 2 || h.flags.testBit 3) then 0
    else match h.s1 with
      | none => 3
      | some o =>
        if l4Open h b o || udpNoSum h b q then 3
        else
          let e := ipEnd h b o
          if b.length < e ∨ e < q + l4Min h then 2
          else
            let f := beAt b (q + l4CkOfs h) 2
            if !h.flags.testBit 2 ∧ f = 0 then 2
            else if fold16 (sum16 (sub b q (e - q)) + pseudo h b o (e - q)) = 65535 then 1 else 2

/-- Write the IPv4 header checksum; `none` where the request is skipped (R191). -/
def putIpck (h : Hdrs) (b : List Byte) : Option (List Byte) :=
  match h.s1 with
  | none => none
  | some o =>
    let ihl := byteAt b o % 16
    if !h.flags.testBit 0 ∨ ihl < 5 ∨ b.length < o + 4 * ihl then none
    else
      let z := patch b (o + 10) [0, 0]
      some (patch z (o + 10) (beBytes 2 (cksum (sub z o (4 * ihl)))))

/-- Write the TCP or UDP checksum; a computed UDP checksum of 0 is sent as 0xFFFF (R191). -/
def putL4ck (h : Hdrs) (b : List Byte) : Option (List Byte) :=
  match h.s1, h.s2 with
  | some o, some q =>
    let e := ipEnd h b o
    if !(h.flags.testBit 2 || h.flags.testBit 3) ∨ l4Open h b o ∨ b.length < e ∨ e < q + l4Min h then none
    else
      let z := patch b (q + l4CkOfs h) [0, 0]
      let c := 65535 - fold16 (sum16 (sub z q (e - q)) + pseudo h z o (e - q))
      let c' := if !h.flags.testBit 2 ∧ c = 0 then 65535 else c
      some (patch z (q + l4CkOfs h) (beBytes 2 c'))
  | _, _ => none

/-! ## Segmentation (R192, R193) -/

/-- First failing cause of Table 6-8; 0 none. `b` is the template frame of L bytes, `end2` the end of slot 2. -/
def segCause (seg mss hdrLen maxlen len : Nat) (h : Hdrs) (end2 : Option Nat) (b : List Byte) : Nat :=
  let q := h.s2.getD 0
  let tcp := h.flags.testBit 2
  let fl := byteAt b (q + 13)
  if 262144 < len then 1
  else if mss < 64 ∨ 16000 < mss ∨ maxlen < hdrLen + mss + 4 then 2
  else if hdrLen < 42 ∨ 256 < hdrLen ∨ end2 ≠ some hdrLen then 3
  else if (seg = 1 ∧ !tcp) ∨ (seg = 2 ∧ (tcp ∨ !h.flags.testBit 3)) ∨ h.flags.testBit 4 ∨ h.flags.testBit 5
      ∨ l4Open h b (h.s1.getD 0) then 4
  else if seg = 1 ∧ (fl.testBit 1 ∨ fl.testBit 2 ∨ fl.testBit 5) then 5
  else if len ≤ hdrLen then 6
  else 0

/-- Number of segments. -/
def segCount (mss hdrLen len : Nat) : Nat := ceilDiv (len - hdrLen) (max 1 mss)

/-- Segment `k` of a send (Table 6-9), without FCS, padded to 60 bytes. -/
def segment (mss hdrLen k : Nat) (h : Hdrs) (b : List Byte) : List Byte :=
  let n := segCount mss hdrLen b.length
  let pay := sub b (hdrLen + k * mss) (min mss (b.length - hdrLen - k * mss))
  let o := h.s1.getD 0
  let q := h.s2.getD 0
  let v4 := h.flags.testBit 0
  let tcp := h.flags.testBit 2
  let hd0 := b.take hdrLen
  let hd1 :=
    if v4 then
      patch (patch hd0 (o + 4) (beBytes 2 ((beAt b (o + 4) 2 + k) % 65536))) (o + 2) (beBytes 2 (hdrLen - o + pay.length))
    else patch hd0 (o + 4) (beBytes 2 (hdrLen - o - 40 + pay.length))
  let hd2 :=
    if tcp then
      let fl := byteAt b (q + 13)
      let f1 := if k = 0 then fl else fl - (if fl.testBit 7 then 128 else 0)
      let f2 := if k + 1 = n then f1 else f1 - (if f1.testBit 0 then 1 else 0) - (if f1.testBit 3 then 8 else 0)
      patch (patch hd1 (q + 4) (beBytes 4 ((beAt b (q + 4) 4 + k * mss) % 2 ^ 32))) (q + 13) [BitVec.ofNat 8 f2]
    else patch hd1 (q + 4) (beBytes 2 (8 + pay.length))
  let s0 := hd2 ++ pay
  let s1 := (putIpck h s0).getD s0
  let s2 := (putL4ck h s1).getD s1
  s2 ++ List.replicate (60 - s2.length) 0

/-- Frames that a buffer's frame leaves as (R193). -/
def outCount (f : Frame) : Nat :=
  match f.send with
  | some o => if o.seg ≠ 0 then segCount o.mss o.hdrLen f.bytes.length else 1
  | none => 1

/-- The places of the cells that part `k` of a frame is read from, in order: of a segment, the header's and the payload's. -/
def partCells (f : Frame) (k : Nat) : List Nat :=
  match f.send with
  | some o =>
    if o.seg = 0 then List.range f.cells.length
    else
      let a := o.hdrLen + k * o.mss
      let e := min (a + o.mss) f.bytes.length
      (List.range (ceilDiv o.hdrLen 256) ++ (List.range (ceilDiv e 256)).drop (a / 256)).dedup
  | none => List.range f.cells.length

/-- Bytes of part `k` that are sent before the first byte from the cell at place `i`. -/
def partOfs (f : Frame) (k i : Nat) : Nat :=
  match f.send with
  | some o => if o.seg = 0 ∨ 256 * i < o.hdrLen then 256 * i else o.hdrLen + (256 * i - (o.hdrLen + k * o.mss))
  | none => 256 * i

/-- What reading part `k` of a frame's cells for egress meets: the chain is walked as far as the part's last cell (R263, R264). -/
def egrRead (s : State) (f : Frame) (k : Nat) : EgrRead :=
  match f.cells with
  | [] => .clean
  | c :: _ =>
    let r := walkLink s f.cells.length c
    let l := partCells f k
    if !r.2 && l.any (fun i => decide (r.1.length ≤ i)) then .link (f.cells.length - r.1.length)
    else match l.find? (fun i => let x := f.cells.getD i 0; (grpOf s (x / 16384)).bad.contains x) with
      | some i => .cell (f.cells.getD i 0)
      | none => .clean

/-- A request for the L4 checksum of a whole frame: a case of R190 is skipped (R191). -/
def askL4ck (h : Hdrs) (b : List Byte) : Option (List Byte) :=
  if (h.flags.testBit 3 && (h.s2.map (udpNoSum h b)).getD false) = true then none else putL4ck h b

/-- Apply a send's insert requests to a whole frame (R191); the Bool says that a request was skipped. -/
def insertSums (ip l4 : Bool) (h : Hdrs) (b : List Byte) : List Byte × Bool :=
  let r1 := if ip then putIpck h b else some b
  let b1 := r1.getD b
  let r2 := if l4 then askL4ck h b1 else some b1
  (r2.getD b1, r1.isNone || r2.isNone)

end Sys2Proof.Machine
end

