-- ==== Sys2Proof/Machine/Classify.lean ====
section
/-!
DEFINITION. The classifier: parse graph, fields, exact match, rules, actions, meters, hashes and targets
(07_parse_and_classify.md), and its page and exact-match commands' shared operations.
-/

namespace Sys2Proof.Machine

/-! ## Tables (R206 to R231) -/

/-- Table numbers of record space 3 (Table 16-5) and their sizes. -/
def tblSize (tbl : Nat) : Nat :=
  if tbl = 0 then 256 else if tbl = 1 then 1024 else if tbl = 2 then 32 else if tbl = 3 then 16 else if tbl = 4 then 4096
  else if tbl = 5 then 1024 else if tbl = 6 then 2048 else if tbl = 7 then 8 else if tbl = 8 then 8
  else if tbl = 9 then 2048 else if tbl = 10 then 3 else 0

/-- Words of an entry of a table. -/
def tblWords (tbl : Nat) : Nat :=
  if tbl = 0 then 4 else if tbl = 1 then 2 else if tbl = 4 then 32 else if tbl = 5 then 4 else if tbl = 6 then 4
  else if tbl = 7 then 2 else 1

/-- Bits of a word of an entry that are not reserved (R18). -/
def tblMask (tbl w : Nat) : Word :=
  if tbl = 0 then (if w = 0 then 0xFFFFFFFF else if w = 1 then 0x7FFFFFFF else if w = 2 then 0x1FFFFFFF else 0)
  else if tbl = 1 then (if w = 0 then 0xFFFFFFFF else 0x3FF)
  else if tbl = 2 then 0xFFFF
  else if tbl = 3 then 0x7F7F7F7F
  else if tbl = 4 then
    if w = 0 then 0x7FF
    else if w ≤ 20 then (if (w - 1) % 5 = 0 then 0x3FF else 0xFFFFFFFF)
    else if w ≤ 22 then 0x7FF else if w ≤ 24 then 0xFFFFFFFF else 0
  else if tbl = 5 then (if w = 0 then 0xFFFFFFF else if w = 1 then 0x3FFFFF else if w = 2 then 0x1FFF else 0)
  else if tbl = 6 then (if w = 0 then 0xFFFFF else if w = 1 then 0x1FFFFF else 0xFFFFFF)
  else if tbl = 7 then (if w = 0 then 0xFF7F7F7F else 0xFFFFFFFF)
  else if tbl = 8 then 0x7FFFFFF
  else if tbl = 9 then 0x1F
  else 0x3FFFFFFF

/-- Key of an entry: page, direction, table, entry. -/
def clsKey (page up : Bool) (tbl e : Nat) : Nat := ((b2n page * 2 + b2n up) * 16 + tbl) * 4096 + e

/-- The value of R210 that an unlisted entry has: a parse node goes to END, everything else is zero. -/
def clsZero (tbl : Nat) : List Word :=
  if tbl = 0 then [0, 256, 0, 0] else List.replicate (tblWords tbl) 0

/-- An entry's words on a page. -/
def clsEntry (s : State) (page up : Bool) (tbl e : Nat) : List Word :=
  tGet (clsZero tbl) s.cls.tbl (clsKey page up tbl e)

/-- Word `w` of an entry on the active page. -/
def clsW (s : State) (up : Bool) (tbl e w : Nat) : Word := (clsEntry s s.cls.active up tbl e).getD w 0

/-- CAP0 of a classifier word (R535). -/
def clsCap (page up : Bool) (tbl e : Nat) : Word := w32 (tbl * 2 ^ 28 + b2n page * 2 ^ 27 + b2n up * 2 ^ 26 + e)

/-- Does no replica read this entry clean (Table 13-4, NO_CLEAN)? -/
def clsDirty (s : State) (up : Bool) (tbl e : Nat) : Bool := s.cls.dirty.contains (clsCap s.cls.active up tbl e)

/-! ## The parse graph (R206 to R211) -/

/-- A field of a node (R206): `none` where it reads a byte at or beyond WEND. -/
def nodeField (b : List Byte) (wend at_ sh w : Nat) : Option Nat :=
  if 23 < sh then some 0
  else if wend ≤ at_ + 2 - sh / 8 then none
  else some (beAt b at_ 3 / 2 ^ sh % 2 ^ w)

/-- First matching branch of `n` entries from `e` (R207): next code, and whether a dirty entry was tested. -/
def branch (s : State) (up : Bool) (v : Nat) : Nat → Nat → Option Nat × Bool
  | _, 0 => (none, false)
  | e, n + 1 =>
    if 1023 < e then (none, false)
    else
      let w0 := clsW s up 1 e 0
      let w1 := clsW s up 1 e 1
      if bit w1 9 ∧ Nat.land (Nat.xor v (fld w0 0 16)) (fld w0 16 16) = 0 then (some (fld w1 0 9), clsDirty s up 1 e)
      else
        let r := branch s up v (e + 1) n
        (r.1, r.2 || clsDirty s up 1 e)

/-- The walk of R208 from a node, with `fuel` visits left. -/
def walk (s : State) (up : Bool) (b : List Byte) (wend : Nat) : Nat → Nat → Nat → Walk → Walk
  | 0, _, _, r => { r with mal := 1022 }
  | fuel + 1, node, pos, r =>
    let w0 := clsW s up 0 node 0
    let w1 := clsW s up 0 node 1
    let w2 := clsW s up 0 node 2
    let rec_ := fld w2 6 3
    let r1 := { r with
      slots := if rec_ ≠ 0 ∧ (tFind rec_ r.slots).isNone then tPut rec_ pos r.slots else r.slots
      flags := Nat.lor r.flags (fld w2 9 16)
      emp := if fld w2 25 4 = 0 then r.emp else fld w2 25 4
      dirty := r.dirty || clsDirty s up 0 node }
    let dflt := fld w1 0 9
    let sel := if bit w0 17 then nodeField b wend (pos + fld w0 0 8) (fld w0 8 5) (fld w0 13 4 + 1) else some 0
    match sel with
    | none => { r1 with mal := 1021 }
    | some v =>
      let br := if bit w0 17 then branch s up v (fld w0 18 10) (min 8 (fld w0 28 4)) else (none, false)
      let r2 := { r1 with dirty := r1.dirty || br.2 }
      let next := br.1.getD dflt
      let adv? :=
        if bit w1 9 then
          (nodeField b wend (pos + fld w1 18 8) (fld w1 26 5) (fld w2 0 4 + 1)).map
            (fun f => fld w1 10 8 + f * 2 ^ fld w2 4 2)
        else some (fld w1 10 8)
      match adv? with
      | none => { r2 with mal := 1021 }
      | some adv =>
        let p := pos + adv
        if wend < p then { r2 with mal := 1021 }
        else
          let r3 := { r2 with ends := if rec_ ≠ 0 ∧ (tFind rec_ r2.ends).isNone then tPut rec_ p r2.ends else r2.ends }
          if next = 256 then r3
          else if 257 ≤ next then { r3 with mal := 1023 }
          else walk s up b wend fuel next p r3

/-- WEND (R208). -/
def wendOf (n : Nat) : Nat := min 256 (n - 4)

/-- Parse a frame of length `n` (FCS counted). -/
def parse (s : State) (up : Bool) (b : List Byte) (n : Nat) : Walk :=
  walk s up b (wendOf n) 24 (fld (clsW s up 10 2 0) 0 8) 0
    { slots := [(0, 0)], ends := [], flags := 0, emp := 0, mal := 0, dirty := clsDirty s up 10 2 }

/-- Slots and flags as the checksum rules use them. -/
def hdrsOf (slots : Tab Nat) (flags : Nat) : Hdrs := ⟨tFind 1 slots, tFind 2 slots, flags⟩

/-! ## Fields (R212, R213) -/

/-- What classification knows of a frame. -/
structure CIn where
  up : Bool
  bytes : List Byte       -- FCS included
  n : Nat                 -- N
  lenField : Nat          -- field 42
  src : Src
  tid : Nat
  hnd : Nat
  sendPart : Option Nat
  runt : Bool
  maxlen : Nat
  charge : Bool           -- false in replay (R224)
  last : Nat              -- cycle in which its last byte reaches the edge
deriving DecidableEq, Repr

/-- What lookups have found so far. -/
structure CMid where
  w : Walk
  ipck : Nat
  em : Option EmEntry
  prof : Nat
deriving DecidableEq, Repr

/-- The paired port that an odd port belongs to, or the port itself (R176). -/
def basePort (s : State) (p : Nat) : Nat :=
  if p % 2 = 1 ∧ (tGet Upl.empty s.upl (p - 1)).paired then p - 1 else p

/-- Group of a member port, from UPL_LAG of the port that speaks for a pair (R195). -/
def lagOf (s : State) (p : Nat) : Option Nat :=
  let w := reg s (rUpl (basePort s p) 0x18)
  if bit w 0 then some (fld w 1 3) else none

/-- A metadata field's bytes (Table 7-7). -/
def metaField (s : State) (c : CIn) (m : CMid) (f : Nat) : List Byte :=
  if f = 32 then beBytes 2 (c.src.kind * 2 ^ 14 + c.src.num % 2 ^ 11)
  else if f = 33 then
    match (if c.src.kind = 0 then lagOf s c.src.num else none) with
    | some g => [BitVec.ofNat 8 (128 + g)]
    | none => [0]
  else if f = 34 then beBytes 2 c.tid
  else if f = 35 then beBytes 2 c.hnd
  else if f = 36 then match c.sendPart with | some p => [BitVec.ofNat 8 (128 + p)] | none => [0]
  else if f = 37 then [BitVec.ofNat 8 (tagCount c.bytes)]
  else if f = 38 then beBytes 2 (outerTciOf c.bytes)
  else if f = 39 then beBytes 2 (outerTpidOf c.bytes)
  else if f = 40 then beBytes 2 m.w.flags
  else if f = 41 then [BitVec.ofNat 8 (m.ipck + 128 * b2n c.runt)]
  else if f = 42 then beBytes 2 c.lenField
  else if f = 43 then
    match m.em with | some e => beBytes 4 (2 ^ 31 + e.param.toNat) | none => beBytes 4 0
  else if f = 44 then
    match m.em with | some e => beBytes 2 (2 ^ 15 + e.act.toNat) | none => beBytes 2 0
  else if f = 45 then [BitVec.ofNat 8 m.prof]
  else []

/-- A field: present, and its bytes; an absent field reads as zeros of its length (R212). -/
def fieldOf (s : State) (c : CIn) (m : CMid) (f : Nat) : Bool × List Byte :=
  if f < 32 then
    let w := clsW s c.up 2 f 0
    let len := fld w 11 4 + 1
    match tFind (fld w 0 3) m.w.slots with
    | some o =>
      if bit w 15 ∧ o + fld w 3 8 + len ≤ wendOf c.n then (true, sub c.bytes (o + fld w 3 8) len)
      else (false, List.replicate len 0)
    | none => (false, List.replicate len 0)
  else if f < 46 then (true, metaField s c m f)
  else (false, [])

/-! ## Exact match and rules (R214 to R219) -/

/-- Fields of a profile word: number and enable of F0 to F3. -/
def profFields (w : Word) : List (Nat × Bool) := (List.range 4).map fun i => (fld w (8 * i) 6, bit w (8 * i + 6))

/-- The lookup key, zero-filled to 48 bytes; `none` when an enabled field is absent or the walk set no profile. -/
def emKey (s : State) (c : CIn) (m : CMid) : Option (List Byte) :=
  if m.w.emp = 0 then none
  else
    let fs := (profFields (clsW s c.up 3 m.w.emp 0)).filter (·.2)
    if fs.any (fun f => !(fieldOf s c m f.1).1) then none
    else
      let k := (fs.flatMap (fun f => (fieldOf s c m f.1).2)).take 48
      some (k ++ List.replicate (48 - k.length) 0)

/-- The entry that a key hits. -/
def emFind (s : State) (up : Bool) (prof : Nat) (key : List Byte) : Option EmEntry :=
  s.cls.em.find? (fun e => e.dir == up && e.prof.toNat == prof && e.key == key)

/-- Masked field `m` of a rule (R218). -/
def ruleMasked (s : State) (c : CIn) (mid : CMid) (r : List Word) (m : Nat) : Bool :=
  let g := fun i => (r.getD (i + 5 * m) 0)
  let val := (g 2).toNat + 2 ^ 32 * (g 3).toNat
  let msk := (g 4).toNat + 2 ^ 32 * (g 5).toNat
  if msk = 0 then true
  else
    let f := fieldOf s c mid (fld (g 1) 0 6)
    f.1 && Nat.land (Nat.xor (beAt f.2 (fld (g 1) 6 4) 8) val) msk == 0

/-- Comparator `k` of a rule (R218). -/
def ruleComp (s : State) (c : CIn) (mid : CMid) (r : List Word) (k : Nat) : Bool :=
  let w := r.getD (21 + k) 0
  if !bit w 10 then true
  else
    let f := fieldOf s c mid (fld w 0 6)
    let o := fld w 6 4
    let v := beAt f.2 o 2
    let lim := r.getD (23 + k) 0
    f.1 && decide (o + 2 ≤ f.2.length) && decide (fld lim 0 16 ≤ v) && decide (v ≤ fld lim 16 16)

/-- Does a rule match? -/
def ruleMatches (s : State) (c : CIn) (mid : CMid) (r : List Word) : Bool :=
  bit (r.getD 0 0) 0 && (List.range 4).all (ruleMasked s c mid r) && (List.range 2).all (ruleComp s c mid r)

/-- The winning rule: number and action. -/
def ruleFind (s : State) (c : CIn) (mid : CMid) : Option (Nat × Nat) :=
  let lo := clsKey s.cls.active c.up 4 0
  (s.cls.tbl.find? (fun e => lo ≤ e.1 && e.1 < lo + 4096 && ruleMatches s c mid e.2)).map
    (fun e => (e.1 - lo, fld (e.2.getD 0 0) 1 10))

/-! ## Meters (R223) -/

/-- Bytes of a bucket are counted in 1/10,000 byte: a rate of r Mbit/s adds r of them in each cycle. -/
def bucketUnit : Nat := 10000

/-- A meter's buckets refilled to this cycle at the rates and sizes in force. Every size resets to 0, so a bucket is empty at reset, and
a bucket is listed before its rates first change (DEDUCED, log entry 31). -/
def refill (s : State) (up : Bool) (m : Nat) : Bucket :=
  let w := fun i => clsW s up 6 m i
  let cbs := fld (w 2) 0 24 * bucketUnit
  let pbs := fld (w 3) 0 24 * bucketUnit
  match tFind (2048 * b2n up + m) s.cls.meter with
  | none => ⟨0, 0, s.tim.now⟩
  | some b =>
    let d := s.tim.now - b.at_
    ⟨min cbs (b.c + d * fld (w 0) 0 20), min pbs (b.p + d * fld (w 1) 0 20), s.tim.now⟩

/-- A frame of `n` bytes is charged to meter `k`, the committed bucket too where it is green (R223). DESIGN CHOICE (log entry 31): a bucket that
frames tested in the meantime have emptied goes no lower than 0. -/
def meterCharge (k n : Nat) (yellow : Bool) (s : State) : State :=
  let b := refill s (decide (2048 ≤ k)) (k % 2048)
  let m := n * bucketUnit
  { s with cls := { s.cls with meter := tPut k { b with p := b.p - m, c := if yellow then b.c else b.c - m } s.cls.meter } }

/-- Test a meter: the colour, 0 green, 1 yellow, 2 red. It is charged when the frame's last byte has entered the section (R223). -/
def meterTest (c : CIn) (m : Nat) (s : State) : State × Nat :=
  let b := refill s c.up m
  let t := (if c.lenField = 0xFFFF then c.maxlen else c.n) * bucketUnit
  let aware := bit (clsW s c.up 6 m 1) 20
  let pre := if aware ∧ tagCount c.bytes ≠ 0 ∧ (outerTciOf c.bytes).testBit 12 then 1 else 0
  let col := if b.p < t then 2 else if pre = 1 ∨ b.c < t then 1 else 0
  let k := 2048 * b2n c.up + m
  let s1 := { s with cls := { s.cls with meter := tPut k b s.cls.meter } }
  let s2 :=
    if !c.charge ∨ col = 2 then s1
    else if c.last < s.tim.now then meterCharge k c.n (col == 1) s1
    else atCycle (c.last + 1) (.charge k c.n (col == 1)) s1
  (countO 5 (11 + col) k 1 s2, col)

/-! ## Hashes (R227 to R229) -/

/-- Sort two byte strings of one length as unsigned big-endian integers. -/
def sort2 (a b : List Byte) : List Byte := if ofBe b < ofBe a then b ++ a else a ++ b

/-- The symmetric hash h (R228, Table 7-15). -/
def symHash (s : State) (c : CIn) (w : Walk) : Nat :=
  let inner := bit (clsW s c.up 10 1 0) 0 && (tFind 3 w.slots).isSome
  let l3 := tFind (if inner then 3 else 1) w.slots
  let l4 := tFind (if inner then 4 else 2) w.slots
  let fl := if inner then w.flags / 256 % 16 else w.flags % 16
  let wend := wendOf c.n
  let ip : Option (List Byte × List Byte) :=
    match l3 with
    | none => none
    | some o =>
      if fl.testBit 0 ∧ o + 20 ≤ wend then some (sub c.bytes (o + 12) 4, sub c.bytes (o + 16) 4)
      else if fl.testBit 1 ∧ o + 40 ≤ wend then some (sub c.bytes (o + 8) 16, sub c.bytes (o + 24) 16)
      else none
  let ports : List Byte × List Byte :=
    match l4 with
    | some o =>
      if (fl.testBit 2 || fl.testBit 3) ∧ !w.flags.testBit 4 ∧ o + 4 ≤ wend then (sub c.bytes o 2, sub c.bytes (o + 2) 2)
      else ([0, 0], [0, 0])
    | none => ([0, 0], [0, 0])
  match ip with
  | some (a, b) => crc32c 0 (sort2 a b ++ sort2 ports.1 ports.2)
  | none => crc32c 0 (sort2 (sub c.bytes 6 6) (sub c.bytes 0 6) ++ [0, 0, 0, 0])

/-- The indirection index of a field-hash profile (R229). -/
def fieldHash (s : State) (c : CIn) (m : CMid) (p : Nat) : Nat :=
  let w := clsW s c.up 7 p 0
  let fs := profFields w
  if fs.all (fun f => !f.2) then 0
  else
    let f := fun i => let x := fs.getD i (0, false); (x.2, if x.2 then (fieldOf s c m x.1).2 else [])
    let pair := fun i j =>
      if bit w 31 ∧ (f i).1 ∧ (f j).1 ∧ (f i).2.length = (f j).2.length then sort2 (f i).2 (f j).2 else (f i).2 ++ (f j).2
    crc32c (clsW s c.up 7 p 1) (pair 0 1 ++ pair 2 3) % 512

/-! ## Targets (R195 to R198, R220 to R222, R230) -/

/-- Is the port usable (UPL_STAT.UP)? -/
def portUp (s : State) (p : Nat) : Bool :=
  let u := tGet Upl.empty s.upl p
  regB s (rUpl p 0) 0 && (u.link || loopU s p == 3) && !u.fenced && domOn s (domUP p) && !(u.rejoin && regB s (rUpl p 0x18) 0)

/-- Port of an entry of a group's table, where it is usable (R197). -/
def lagEntry (s : State) (up : Bool) (g i : Nat) : Option Nat :=
  let w := clsW s up 9 (256 * g + i) 0
  let p := basePort s (fld w 0 4)
  if bit w 4 ∧ lagOf s p = some g ∧ portUp s p then some p else none

/-- The member that takes hash `h` (R196, R197). -/
def lagPick (s : State) (up : Bool) (g h : Nat) : Option Nat :=
  ((List.range 256).map fun k => (h + k) % 256).findSome? (lagEntry s up g)

/-- A resolved target. -/
structure Target where
  kind : Nat              -- 1 downstream queue, 2 uplink, 4 host; 0 none
  tgt : Nat
  q : Option Nat          -- queue number; none: lost at resolution
  part : Nat              -- partition of a host target
deriving DecidableEq, Repr

/-- Resolve kind 5 (Table 7-11). -/
def kind5 (m : CMid) (k t : Nat) : Nat × Nat :=
  if k ≠ 5 then (if 6 ≤ k then (0, 0) else (k, t))
  else match m.em with
    | none => (0, 0)
    | some e =>
      let kk := e.param.toNat / 2 ^ 21
      if 1 ≤ kk ∧ kk ≤ 4 then (kk, e.param.toNat % 2 ^ 21) else (0, 0)

/-- Egress queue of an uplink target (R222, R183): `mark` is the action's PRIO where MARK is set. -/
def uplQueue (s : State) (p : Nat) (valid : Bool) (prio : Nat) (mark : Option Nat) (b : List Byte) : Nat :=
  let w := reg s (rUpl p 0x14)
  let i :=
    if valid then prio
    else match mark with
      | some x => x
      | none => if tagCount b = 0 then fld w 24 3 else fld w (3 * (outerTciOf b / 2 ^ 13)) 3
  qUpl p i

/-- The fill ring of a host target (R230): `none` counts under RIT_MISS. -/
def ritRing (s : State) (p i : Nat) : Option Nat :=
  let e := reg s (pageCLS + 0x40000 + 0x800 * p + 4 * i)
  let d := reg s (pageCLS + 0x60000 + 4 * p)
  if bit e 11 then some (fld e 0 11) else if bit d 11 then some (fld d 0 11) else none

/-- Owner of a service index of a tree (R500). -/
def idxOwner (s : State) (t idx : Nat) : Nat :=
  match (List.range 256).find? (fun g =>
      let w0 := reg s (pagePRT + 0x7000 + 8 * g)
      let w1 := reg s (pagePRT + 0x7004 + 8 * g)
      bit w1 6 && fld w0 24 6 == t && fld w0 0 12 ≤ idx && idx ≤ fld w0 12 12) with
  | some g =>
    if s.glb.prtBad.contains (pagePRT + 0x7000 + 8 * g) || s.glb.prtBad.contains (pagePRT + 0x7004 + 8 * g) then 0
    else regF s (pagePRT + 0x7004 + 8 * g) 0 6
  | none => treeOwner s t

/-- Resolve one target; counts LAG_DROP, RIT_MISS and PART_VIOL (R197, R230, R500). -/
def resolve (c : CIn) (m : CMid) (k t : Nat) (mark : Option Nat) (h : Nat) (s : State) : State × Target :=
  let r := kind5 m k t
  if r.1 = 1 then
    let q := r.2 % 131072
    match c.sendPart with
    | some p =>
      if p ≠ 0 ∧ idxOwner s (q / 2048) (qIdx (qctx s q)) ≠ p then (partViol p s, ⟨1, q, none, 0⟩) else (s, ⟨1, q, some q, 0⟩)
    | none => (s, ⟨1, q, some q, 0⟩)
  else if r.1 = 2 then
    let p := basePort s (r.2 % 16)
    (s, ⟨2, r.2, some (uplQueue s p (r.2.testBit 7) (r.2 / 16 % 8) mark c.bytes), 0⟩)
  else if r.1 = 3 then
    match lagPick s c.up (r.2 % 8) (h % 256) with
    | some p => (s, ⟨2, r.2, some (uplQueue s p (r.2.testBit 7) (r.2 / 16 % 8) mark c.bytes), 0⟩)
    | none => (countO 5 10 (b2n c.up) 1 s, ⟨3, r.2, none, 0⟩)
  else if r.1 = 4 then
    let p := r.2 % 64
    match ritRing s p (fieldHash s c m (r.2 / 64 % 8)) with
    | some ring => (s, ⟨4, r.2, some (qFill ring), p⟩)
    | none => (countO 5 9 p 1 s, ⟨4, r.2, none, p⟩)
  else (s, ⟨0, 0, none, 0⟩)

/-- Domain that a target wakes (R226). -/
def wakeTarget (t : Target) (s : State) : State :=
  if t.kind = 1 then wake (domTP (t.tgt / 2048)) 2 s
  else if t.kind = 2 then match t.q with | some q => wake (domUP ((q - 131072) / 8)) 2 s | none => s
  else if t.kind = 4 then wake domHP 2 s
  else s

/-- The queue of a target, with its partition. -/
def Target.pair (t : Target) : List (Nat × Nat) := t.q.toList.map (·, t.part)

/-- Targets that resolve to one queue take the frame once (R221). Targets of two partitions that resolve to one fill ring stay two: the ring
belongs to one of them, and the other is dropped where it is delivered (R333). -/
def onceQ : List (Nat × Nat) → List (Nat × Nat)
  | [] => []
  | a :: l => a :: (onceQ l).filter (· != a)

/-- Entries of a group's table that a forward to it reads: from hash `h` up to the first usable one (R196, R197). -/
def lagReads (s : State) (up : Bool) (g h : Nat) : List Nat :=
  let l := (List.range 256).map fun k => (h + k) % 256
  let n := (l.takeWhile (fun i => (lagEntry s up g i).isNone)).length
  (l.take (n + 1)).map (256 * g + ·)

/-- CAP0 of an exact-match word, an indirection entry or a meter bucket (R535, codes 11 to 13): none has a page. An indirection entry is
numbered 512p + i, a default 32,768 + p (DEDUCED, log entry 31). -/
def extCap (code : Nat) (up : Bool) (e : Nat) : Word := w32 (code * 2 ^ 28 + b2n up * 2 ^ 26 + e)

/-- Does a host target of partition `p` with index `i` read an indirection entry that is not clean? -/
def ritDirty (s : State) (p i : Nat) : Bool :=
  s.cls.dirty.contains (extCap 12 false (512 * p + i))
    || (!(bit (reg s (pageCLS + 0x40000 + 0x800 * p + 4 * i)) 11) && s.cls.dirty.contains (extCap 12 false (32768 + p)))

/-- Does a target read a word that is not clean: its group's entries, or its partition's profile and indirection entries? -/
def targetDirty (s : State) (c : CIn) (m : CMid) (k t : Nat) : Bool :=
  let r := kind5 m k t
  (r.1 == 3 && (lagReads s c.up (r.2 % 8) (symHash s c m.w % 256)).any (clsDirty s c.up 9))
    || (r.1 == 4 && (clsDirty s c.up 7 (r.2 / 64 % 8) || ritDirty s (r.2 % 64) (fieldHash s c m (r.2 / 64 % 8))))

/-- Does the lookup of the frame's key read an exact-match word that is not clean? -/
def emDirty (s : State) (c : CIn) (m : CMid) : Bool :=
  match emKey s c m with
  | none => false
  | some k => s.cls.dirty.any fun x =>
      fld x 28 4 == 11 && bit x 26 == c.up && Config.emReads (BitVec.ofNat 8 (b2n c.up) :: BitVec.ofNat 8 m.w.emp :: k) (fld x 0 26)

/-- Does the result rest on a word that no replica reads clean? -/
def readsDirty (s : State) (c : CIn) (m : CMid) (act : Nat) : Bool :=
  let d := fun tbl e => clsDirty s c.up tbl e
  let w1 := clsW s c.up 5 act 1
  let w2 := clsW s c.up 5 act 2
  let a0 := clsW s c.up 5 act 0
  let mw := clsW s c.up 8 (fld w1 11 3) 0
  targetDirty s c m (fld a0 0 3) (fld a0 3 24) || (bit w1 0 && targetDirty s c m 4 (fld w1 1 6 + 64 * fld w1 7 3))
    || (bit w1 10 && targetDirty s c m (fld mw 0 3) (fld mw 3 24)) || (m.w.mal == 0 && emDirty s c m) || m.w.dirty || (List.range 32).any (d 2) || (m.w.emp ≠ 0 && d 3 m.w.emp) || (s.cls.dirty.any (fun x =>
      fld x 28 4 == 4 && bit x 27 == s.cls.active && bit x 26 == c.up)) || d 5 act
    || (bit w2 0 && d 6 (fld w2 1 11)) || (bit w1 0 && d 7 (fld w1 7 3)) || (bit w1 10 && d 8 (fld w1 11 3)) || d 10 0 || d 10 1

/-- The first word that no replica reads clean on which the result rests, as CAP0 (R235). -/
def dirtyRead (s : State) (c : CIn) (m : CMid) (act : Nat) : Option Word :=
  s.cls.dirty.find? fun x =>
    let s1 := { s with cls := { s.cls with dirty := [x] } }
    readsDirty s1 c { m with w := parse s1 c.up c.bytes c.n } act

/-- An uncorrectable error in a meter bucket: it refills to CBS and PBS, and raises the table fault (R235). -/
def meterUe (cap : Word) (s : State) : State :=
  let up := bit cap 26
  let m := fld cap 0 11
  let w := fun i => clsW s up 6 m i
  let b : Bucket := ⟨fld (w 2) 0 24 * bucketUnit, fld (w 3) 0 24 * bucketUnit, s.tim.now⟩
  fault 5 0 cap 1 1 0 0 { s with cls := { s.cls with meter := tPut (2048 * b2n up + m) b s.cls.meter } }

/-- The exact-match lookup of a frame, in its cycle 30 (Table 7-1, R236). -/
def lookEm (c : CIn) (s : State) : Option EmEntry :=
  let w := parse s c.up c.bytes c.n
  let mid : CMid := ⟨w, ipckOf (hdrsOf w.slots w.flags) (c.bytes.take (c.bytes.length - 4)), none, 0⟩
  match if w.mal = 0 then emKey s c mid else none with
  | some k => emFind s c.up w.emp k
  | none => none

/-- What action `act` makes of a frame: its meter, its targets, drop priority and marks (R219 to R225). -/
def actOn (c : CIn) (mid : CMid) (ipck l4 act : Nat) (s : State) : State × CRes :=
  let a0 := clsW s c.up 5 act 0
  let a1 := clsW s c.up 5 act 1
  let a2 := clsW s c.up 5 act 2
  let mt := if bit a2 0 then meterTest c (fld a2 1 11) s else (s, 0)
  let red := mt.2 == 2 && bit a2 12
  let dp := max (if bit a1 14 then min 2 (fld a1 18 2) else 0) mt.2
  let mark := if bit a1 14 then some (fld a1 15 3) else none
  let hash := symHash s c mid.w
  let fw := resolve c mid (fld a0 0 3) (fld a0 3 24) mark hash mt.1
  let s4 := if bit a1 20 then wakeTarget fw.2 fw.1 else fw.1
  let fwd := if bit a0 27 || red then [] else fw.2.pair
  let cp := if bit a1 0 && !red then resolve c mid 4 (fld a1 1 6 + 64 * fld a1 7 3) none hash s4 else (s4, ⟨0, 0, none, 0⟩)
  let s5 := if bit a1 20 ∧ bit a1 0 then wake domHP 2 cp.1 else cp.1
  let mw := clsW s c.up 8 (fld a1 11 3) 0
  let mk := fld mw 0 3
  let mir := if bit a1 10 ∧ 1 ≤ mk ∧ mk ≤ 4 then resolve c mid mk (fld mw 3 24) mark hash s5 else (s5, ⟨0, 0, none, 0⟩)
  let l4drop := bit a1 21 && l4 == 2
  let s6 := if l4drop then countO 5 8 (b2n c.up) 1 mir.1 else mir.1
  let qs := onceQ (fwd ++ cp.2.pair ++ mir.2.pair)
  let s7 := if qs.isEmpty then countO 5 7 (b2n c.up) 1 s6 else s6
  (s7, ⟨mid.w, ipck, l4, act, dp, fw.2.kind, fw.2.tgt, qs, false, l4drop⟩)

/-- Classify a frame (R204 to R230). `ue0` names a word that a replica read uncorrectable (R235); that of a meter bucket, which lies outside
the replicas, drops nothing. -/
def classify (c : CIn) (ue0 : Option Word) (em : Option (Option EmEntry)) (s : State) : State × CRes :=
  let dir := b2n c.up
  let ue := ue0.filter (fun x => fld x 28 4 != 13)
  let s0 := countO 5 0 dir 1 ((ue0.filter (fun x => fld x 28 4 == 13)).elim s (fun x => meterUe x s))
  let w := parse s0 c.up c.bytes c.n
  let body := c.bytes.take (c.bytes.length - 4)
  let h := hdrsOf w.slots w.flags
  let ipck := ipckOf h body
  let l4v := l4ckOf h body
  let l4 := if c.src.kind = 2 ∧ l4v ≠ 0 then 3 else l4v      -- a host send is not verified (R189)
  let mid0 : CMid := ⟨w, ipck, none, 0⟩
  let key := if w.mal = 0 then emKey s0 c mid0 else none
  let hit := em.getD (match key with | some k => emFind s0 c.up w.emp k | none => none)
  let mid : CMid := ⟨w, ipck, hit, if key.isSome then w.emp else 0⟩
  let s1 :=
    if w.mal = 1021 then countO 5 1 dir 1 s0 else if w.mal = 1022 then countO 5 2 dir 1 s0
    else if w.mal = 1023 then countO 5 3 dir 1 s0
    else if hit.isSome then countO 5 4 dir 1 s0 else countO 5 5 dir 1 s0
  let final : Bool := match hit with | some e => e.fin | none => false
  let rule := if w.mal ≠ 0 ∨ final = true then none else ruleFind s1 c mid
  let s2 := match rule with | some r => countO 5 6 (dir * 4096 + r.1) 1 s1 | none => s1
  let defs := clsW s c.up 10 0 0
  let act :=
    if w.mal ≠ 0 then w.mal
    else match rule, hit with
      | some r, _ => r.2
      | none, some e => e.act.toNat
      | none, none => if c.src.kind = 0 then fld defs 0 10 else if c.src.kind = 1 then fld defs 10 10 else fld defs 20 10
  match ue.or (dirtyRead s2 c mid act) with
  | some cap => (fault 5 0 cap 1 1 0 0 (countO 5 15 dir 1 s2), ⟨w, ipck, l4, act, 0, 0, 0, [], true, false⟩)
  | none => actOn c mid ipck l4 act s2

/-! ## Pages (R231 to R235) -/

/-- Cycles of the copy of every table into a slice that wakes (R447). -/
def copyCyc : Nat := 524288

/-- A classifier write or a swap passes a slice whose domain is not ON (R447). A copy that is under way takes it too; an exit that had no
copy to make has one now; otherwise the slice has missed it. -/
def missSlice (i : Nat) (s : State) : State :=
  let p := pdom s (domSL i)
  if domOn s (domSL i) || p.copy then s
  else setPdom (domSL i) (if p.point = 6 then { p with copy := true, a := p.a + copyCyc } else { p with missed := true }) s
def missSlices (s : State) : State := (List.range 9).foldl (fun s i => missSlice i s) s

/-- A meter's buckets brought to this cycle, before its rates or sizes change. -/
def settleMeter (k : Nat) (s : State) : State :=
  { s with cls := { s.cls with meter := tPut k (refill s (decide (2048 ≤ k)) (k % 2048)) s.cls.meter } }

/-- Keys of the meters that have buckets, or that either page gives parameters. -/
def meterKeys (s : State) : List Nat :=
  let l : List Nat := s.cls.meter.map (fun e => e.1)
  let given : Tab (List Word) := s.cls.tbl.filter (fun e => e.1 / 4096 % 16 == 6)
  let more : List Nat := given.map (fun e => 2048 * (e.1 / 65536 % 2) + e.1 % 2048)
  (l ++ more).dedup

/-- Write words of an entry on a page, reserved bits kept 0; a NO_CLEAN cause ends with a rewrite of the entry. -/
def clsWrite (page up : Bool) (tbl e : Nat) (ws : List Word) (s : State) : State :=
  let l := (List.range (tblWords tbl)).map fun i => ws.getD i 0 &&& tblMask tbl i
  let k := clsKey page up tbl e
  let s0 := if tbl = 6 ∧ page = s.cls.active then settleMeter (2048 * b2n up + e) s else s
  missSlices { s0 with cls := { s0.cls with
      tbl := tSet (clsZero tbl) s0.cls.tbl k l
      fresh := if page ≠ s.cls.active ∧ !(s.cls.fresh.contains k) then s.cls.fresh ++ [k] else s.cls.fresh
      dirty := s.cls.dirty.filter (· != clsCap page up tbl e) } }

/-- Key of an entry without its page. -/
def pageKey (page : Bool) (k : Nat) : Nat := k % (32 * 4096) + b2n page * (32 * 4096)

/-- Every meter's buckets brought to this cycle, and clipped to the sizes in force. -/
def clipMeters (s : State) : State := (meterKeys s).foldl (fun s k => settleMeter k s) s

/-- The pages swap in every replica at once (R233, R234): SYNC reads 0 until the copy ends. Meters keep their levels, up to this cycle at
the old rates, clipped to the new sizes. -/
def clsSwapNow (s : State) : State :=
  let s0 := clipMeters s
  missSlices (clipMeters { s0 with cls := { s0.cls with active := !s0.cls.active, sync := false, swapAt := s.tim.now, fresh := [] } })

/-- The copy into the new standby page ends: entries written to it since the swap stay (R234). -/
def clsSync (s : State) : State :=
  if s.cls.sync then s
  else
    let act := s.cls.active
    let half := 32 * 4096
    let pg := fun (k : Nat) => decide (half ≤ k)
    let mine := s.cls.tbl.filter (fun e => pg e.1 == act)
    let kept := s.cls.tbl.filter (fun e => pg e.1 != act && s.cls.fresh.contains e.1)
    let copied := (mine.map fun e => (pageKey (!act) e.1, e.2)).filter (fun e => !(s.cls.fresh.contains e.1))
    let std := (kept ++ copied).foldl (fun t e => tPut e.1 e.2 t) ([] : Tab (List Word))
    { s with cls := { s.cls with
        tbl := if act then std ++ mine else mine ++ std, sync := true,
        dirty := s.cls.dirty.filter (fun x => decide (11 ≤ fld x 28 4) || bit x 27 == act) } }

/-- A word that raised TABLE_UE is rewritten from a clean replica, or none reads it clean (R235, NO_CLEAN). -/
def ueRewrite (cap : Word) (clean : Bool) (s : State) : State :=
  if clean then { s with cls := { s.cls with dirty := s.cls.dirty.filter (· != cap) } }
  else
    let s1 := if s.cls.dirty.contains cap then s else { s with cls := { s.cls with dirty := s.cls.dirty ++ [cap] } }
    fault 5 1 cap 1 0 0 0 s1
def execTableUeRewrite (cap : Word) (clean : Bool) (s : State) : Outcome := .next (ueRewrite cap clean (begin_ s))

/-! ## The exact-match table (R215, R216, R324) -/

/-- Entries in use of a direction. -/
def emCount (s : State) (up : Bool) : Nat := (s.cls.em.filter (·.dir == up)).length

/-- The entry of a 64-byte image (R324). -/
def emImage (up : Bool) (b : List Byte) : EmEntry :=
  { dir := up, prof := BitVec.ofNat 4 (byteAt b 0), key := (sub b 1 48) ++ List.replicate (48 - (sub b 1 48).length) 0,
    act := BitVec.ofNat 10 (ofLe (sub b 49 2)), param := BitVec.ofNat 24 (ofLe (sub b 52 3)), fin := (byteAt b 55).testBit 0 }

/-- Is there room for one more entry (R215, R216)? Below 8 entries either of the two buckets has a place; at 524,288 none
has; between, placement is open. -/
def emRoom (s : State) (e : EmEntry) : Bool :=
  let n := emCount s e.dir
  if n < 8 then true else if 524288 ≤ n then false else Config.emPlace (e.prof.setWidth 8 :: e.key) n

/-- The table takes a new content, in the replica of every slice that is ON (R24, R216). -/
def emPut (l : List EmEntry) (s : State) : State := missSlices { s with cls := { s.cls with em := l } }

/-- A written entry clears the words that no replica read clean, of those that a lookup of its key reads (R235). Which of them holds the entry
is the block's own matter: DESIGN CHOICE (log entry 31), all of them are rewritten. -/
def emClean (e : EmEntry) (s : State) : State :=
  { s with cls := { s.cls with dirty := s.cls.dirty.filter fun x =>
      !(fld x 28 4 == 11 && bit x 26 == e.dir
        && Config.emReads (BitVec.ofNat 8 (b2n e.dir) :: BitVec.ofNat 8 e.prof.toNat :: e.key) (fld x 0 26)) } }

/-- EM_ADD (op 0), EM_MOD (1), EM_DEL (2): the status code of Table 10-9, 0 for OK. -/
def emDo (op : Nat) (e : EmEntry) (s : State) : State × Nat :=
  let same := fun x : EmEntry => x.dir == e.dir && x.prof == e.prof && x.key == e.key
  let has := s.cls.em.any same
  if op = 0 then
    if has then (s, 36)
    else if !emRoom s e then (s, 35)
    else (emPut (s.cls.em ++ [e]) (emClean e s), 0)
  else if !has then (s, 37)
  else if op = 1 then
    (emPut (s.cls.em.map fun x => if same x then { x with act := e.act, param := e.param, fin := e.fin } else x) (emClean e s), 0)
  else (emPut (s.cls.em.filter (fun x => !same x)) (emClean e s), 0)

end Sys2Proof.Machine
end

