-- ==== Sys2Proof/Machine/Through.lean ====
section
/-!
DEFINITION. An uplink port as the frames on their way to it see it: does it send, is a queue in credit (R175, R176, R181, R255), and
does a frame that is enqueued now start before its fault is known (R39, R54, R55, R225).
-/

namespace Sys2Proof.Machine

/-! ## The port -/

def uplOf (s : State) (p : Nat) : Upl := tGet Upl.empty s.upl p
def setUpl (p : Nat) (u : Upl) (s : State) : State := { s with upl := tSet Upl.empty s.upl p u }
def modUpl (p : Nat) (f : Upl → Upl) (s : State) : State := setUpl p (f (uplOf s p)) s

/-- Fields of a port's registers. -/
def uplF (s : State) (p o lo n : Nat) : Nat := regF s (rUpl p o) lo n
def uplMaxlen (s : State) (p : Nat) : Nat := uplF s p 4 0 14

/-- Is the port the second of a pair, whose own signals mean nothing (R176)? -/
def isSecond (s : State) (p : Nat) : Bool := basePort s p != p

/-- Bytes that cross the edge in a cycle (Table 0-4). -/
def uplBytes (s : State) (p : Nat) : Nat := if (uplOf s p).paired then 80 else 40

/-- Does the port carry traffic: enabled, not fenced, with a home (R175, R404, R425)? -/
def uplOpen (s : State) (p : Nat) : Bool := regB s (rUpl p 0) 0 && !(uplOf s p).fenced && !(lostPort s p)

/-- May the port send anything now? -/
def portSends (s : State) (p : Nat) : Bool :=
  domOn s (domUP p) && !(isSecond s p) && uplOpen s p && ((uplOf s p).link || loopU s p == 2 || loopU s p == 3)

/-- Is a timer running? -/
def timerRuns (s : State) (e : Option Nat) : Bool := match e with | some c => decide (s.tim.now < c) | none => false

/-- Does the whole-port timer keep a frame from starting in cycle `c`? A start of frame that leaves within 8 cycles of the pause frame's
last byte counts as in transmission (R181). -/
def pauseStops (s : State) (p c : Nat) : Bool :=
  let u := uplOf s p
  match u.pause with | some e => decide (u.pauseAt < c) && decide (c < e) | none => false

/-- Does the timer of priority `i` (R182)? -/
def pfcStops (s : State) (p i c : Nat) : Bool :=
  let u := uplOf s p
  decide (tGet 0 u.pfcAt i < c) && decide (c + 1 < tGet 0 u.pfc i)

/-! ## Shapers (R255) -/

/-- Bucket of an egress queue, in 1/10,000 byte, as it stands now. -/
def shaperCap (s : State) (p : Nat) : Int := (uplMaxlen s p * bucketUnit : Nat)
def shaperRate (s : State) (p i : Nat) : Nat := uplF s p (0x40 + 8 * i) 0 20
def shaperLevel (s : State) (p i : Nat) : Int :=
  match tFind i (uplOf s p).shaper with
  | some (l, c) => min (shaperCap s p) (l + ((s.tim.now - c) * shaperRate s p i : Nat))
  | none => shaperCap s p

/-- Is a queue in credit? -/
def shaperOk (s : State) (p i : Nat) : Bool := shaperRate s p i == 0 || decide (0 < shaperLevel s p i)

/-! ## Cut-through (R39, R54, R55) -/

/-- Is slice `i` the failed slice of a handover or re-homing whose replay has not started? -/
def handingFrom (s : State) (i : Nat) : Bool := s.skm.ho.any (fun h => h.failed == i && !h.live)

/-- May queue `i` of a port start a frame in cycle `c`, by its shaper and its priority's timer? -/
def mayStart (s : State) (p i c : Nat) : Bool := shaperOk s p i && !(pfcStops s p i c)

/-- Does a frame that uplink queue `q` takes now leave cut-through: the port is free when its start of frame comes, 30 cycles on
(Table 2-2), nothing waits ahead of it, and the port is not paused? -/
def goesThrough (s : State) (q : Nat) : Bool :=
  let p := (q - 131072) / 8
  let i := (q - 131072) % 8
  let c := s.tim.now + 30
  portSends s p && decide ((uplOf s p).busy ≤ c) && !(pauseStops s p c) && !(handingFrom s (homeU s p))
    && mayStart s p i c && (queueOf s q).length == 1
    && (List.range 8).all (fun j => j ≤ i || (queueOf s (qUpl p j)).isEmpty || !(mayStart s p j c))

/-- Does the start of frame leave before the frame MAC knows a fault (R54)? An upstream frame of P bytes passes the MAC in
12 + ceil(P/128) cycles, and its start of frame leaves after 96; an uplink frame's last word comes at its port's rate, and its start
of frame leaves after 84 (Table 2-2). -/
def startsEarly (s : State) (src : Src) (n : Nat) : Bool :=
  (src.kind == 1 && decide (96 < 12 + ceilDiv n 128)) || (src.kind == 0 && decide (84 < ceilDiv n (uplBytes s src.num)))

/-- The uplink queues from which a frame that has joined the queues `qs` starts before a fault of it is known (R55). -/
def lateQueues (s : State) (src : Src) (len : Nat) (qs : List Nat) : List Nat :=
  if startsEarly s src len then qs.filter (fun q => isUplQ q && goesThrough s q) else []

end Sys2Proof.Machine
end

