-- ==== Sys2Proof/Machine/Ingress.lean ====
section
/-!
DEFINITION. An ingress section: what becomes of a frame between its edge and its queues (R25, R38, R160, R199, R204,
R221, R225, R244 to R247, R353, R391, R471). Uplink ports, tree ports and host sends bring their frames here.
-/

namespace Sys2Proof.Machine

/-! ## Sections and lanes -/

/-- Lanes of a frame whose kept bytes number `n`. -/
def lanesOf (n : Nat) : Nat := ceilDiv n 8

/-- Count a frame's lanes as retired, or as wasted under the sub-cause event `evt` of the slice (R471, Table 15-3). -/
def laneRetire8 (i d lanes : Nat) (s : State) : State :=
  if accounts s i then laneMod i d (fun l => { l with retired := l.retired + lanes }) s else s
def laneWaste8 (i d lanes evt : Nat) (s : State) : State :=
  if accounts s i then
    countO (iSLC i) evt d lanes (laneMod i d (fun l => { l with wasted := l.wasted + lanes }) s)
  else s
def laneWaste (i d n evt : Nat) (s : State) : State := laneWaste8 i d (lanesOf n) evt s

/-- Lanes of a frame whose last byte is still to come, and what becomes of them (R471). -/
def lanePend (i d n : Nat) (s : State) : State :=
  if accounts s i then laneMod i d (fun l => { l with pending := l.pending + n }) s else s
def laneSettle (i d n : Nat) (s : State) : State :=
  if accounts s i then laneMod i d (fun l => { l with pending := l.pending - n }) s else s

/-- The decision cycle of a frame that holds no token: its lanes are wasted (R471). -/
def wasteLanes (i d lanes evt : Nat) (cls : Bool) (x : SmpFrame) (s : State) : State :=
  decided i cls x (laneWaste8 i d lanes evt (laneSettle i d lanes s))

/-- The decision cycle of a frame that holds no token at its enqueue: the enqueue's, or its last byte's, the later. -/
def wasteAt (i d : Nat) (a : Arrive) (evt : Nat) (cls : Bool) (x : SmpFrame) (s : State) : State :=
  let lanes := lanesOf a.bytes.length
  if s.tim.now < a.last then atCycle (a.last + 1) (.wasted i d lanes evt cls x) s else wasteLanes i d lanes evt cls x s

/-- A frame of `n` kept bytes takes its lanes of a section (R25): a word carries two frame starts, and a third begins in lane 0 of the
next word, the lanes before it empty. A section that takes a word shows progress (R387). -/
def secPlace (i d n : Nat) (s : State) : State :=
  let k := 2 * i + d
  let x := tGet Sec.empty s.skm.sec k
  let x0 : Sec := if x.at_ < s.tim.now then ⟨s.tim.now, 0, 0⟩ else x
  let third := decide (2 ≤ x0.starts)
  let x1 : Sec := if third then ⟨x0.at_ + 1, 0, 0⟩ else x0
  let tot := x1.lanes + lanesOf n
  let x2 : Sec := ⟨x1.at_ + tot / 16, tot % 16, if tot < 16 then x1.starts + 1 else 0⟩
  let s1 := { s with skm := { s.skm with sec := tSet Sec.empty s.skm.sec k x2, strobe := tSet 0 s.skm.strobe i s.tim.now } }
  if third && accounts s i then
    countO (iSLC i) 12 d (16 - x0.lanes) (laneMod i d (fun l => { l with back := l.back + (16 - x0.lanes) }) s1)
  else s1

/-! ## Recording admitted targets (R391) -/

/-- Does the Skim capture and hand over (SKM_CFG.EN)? -/
def skmEn (s : State) : Bool := regB s pageSKM 0

/-- An admitted target joins the section's replay record; where that is full it is not kept there, which is all that is noted of it. -/
def repAdd (i : Nat) (up : Bool) (e : RepEntry) (s : State) : State :=
  if !(skmEn s) then s
  else
    let k := secKey i up
    let l := tGet [] s.qbm.rep k
    let put := fun (e : RepEntry) (s : State) => { s with qbm := { s.qbm with rep := tSet [] s.qbm.rep k (l ++ [e]) } }
    if 65536 ≤ (l.filter (fun x => !x.beyond)).length then put { e with beyond := true } (count1 (iSLC i) 3 s) else put e s

/-- Test one target of frame `n`; the Bool says that it holds a token. The delivery queue of a disabled fill ring discards its tokens
(R256). -/
def admitTo (q part n dp fa f : Nat) (s : State) : State × Bool :=
  let a := admit1 q part n dp fa f s
  if a.2 && decide (131200 ≤ q) && (ringOf s .fill (q - 131200)).st == .disabled then (flushQueue q a.1, false) else a

/-- Test the targets of frame `n` in order and record those that are admitted (R246, R247, R391). -/
def admitRec (i : Nat) (up : Bool) (page : Bool) (n ino dp fa f : Nat) (qs : List (Nat × Nat)) (s : State) : State :=
  qs.foldl
    (fun s q =>
      let a := admitTo q.1 q.2 n dp fa f s
      if a.2 then repAdd i up ⟨n, ino, q.1, tGet 0 s.qbm.seqNo q.1, ((frameOf s n).map (·.bytes.length)).getD 0, page, s.tim.now, false, false⟩ a.1 else a.1) s

/-! ## Marks and verdicts -/

/-- The frame is not sent on a wire: RX_ERR and FCS_ERR (R167). -/
def markBad (m : Mark) : Bool := m == .rxErr || m == .fcsErr

/-- Withdraw the tokens of a frame from the queues that `p` names. -/
def withdrawIf (n : Nat) (p : Nat → Bool) (s : State) : State :=
  s.qbm.q.foldl
    (fun s e =>
      let gone := e.2.filter (·.frame == n)
      if gone.isEmpty || !(p e.1) then s
      else
        gone.foldl (fun s t => release1 t.frame (addChg e.1 (-(t.est : Int)) s))
          (setQueue e.1 (e.2.filter (·.frame != n)) (headGone e.1 n s))) s

/-- Note the queues from which a faulty frame starts before its fault is known (R55). -/
def noteLate (n : Nat) (late : List Nat) (s : State) : State :=
  match frameOf s n with
  | some f => if late.isEmpty then s else setFrame n { f with late := late } s
  | none => s

/-- The ingress priority of an uplink frame (R257). -/
def ingressPrio (s : State) (p : Nat) (b : List Byte) : Nat :=
  let w := reg s (rUpl p 0x14)
  if tagCount b = 0 then fld w 24 3 else fld w (3 * (outerTciOf b / 2 ^ 13)) 3

/-- The frame MAC's verdict on a frame, with its last byte (R34, R167, R225): a bad one loses its tokens but those of the queues from
which it has started, and what selection has given it goes out as idle blocks. Its lanes are retired, or wasted where it holds no
token any more (R471). -/
def verdict (n i d lanes : Nat) (l4 : Bool) (s : State) : State :=
  match frameOf s n with
  | none => laneRetire8 i d lanes s
  | some f =>
    let s := correctCharge n s
    let s1 :=
      if l4 then withdrawIf n (fun q => !(f.late.contains q)) (idleFrame n s)
      else if markBad f.mark then withdrawIf n (fun q => (isDs q || isUplQ q) && !(f.late.contains q)) (idleFrame n s)
      else s
    let left : Nat := ((frameOf s1 n).map (·.refs)).getD 0
    freeUnheld n (if 0 < left then laneRetire8 i d lanes s1 else laneWaste8 i d lanes 10 s1)

/-- Take a stamp-queue entry for frame `n` of a port (R353), or lose the stamp (R354). -/
def takeStamp (p n : Nat) (s : State) : State :=
  let u := tGet Upl.empty s.upl p
  match frameOf s n with
  | none => s
  | some f =>
    if u.sq.length < 64 then
      setFrame n { f with sq := some p } { s with upl := tSet Upl.empty s.upl p { u with sq := tPut n f.stamp u.sq } }
    else
      setFrame n { f with sqLost := true }
        (count1 (iUPL p) 21 { s with upl := tSet Upl.empty s.upl p { u with sqLost := u.sqLost + 1 } })

/-- The next ingress frame number of a source (R391). -/
def inoKey (x : Src) : Nat := 4096 * x.kind + x.num
def takeIno (x : Src) (s : State) : Nat × State :=
  let n := tGet 0 s.qbm.ino (inoKey x)
  (n, { s with qbm := { s.qbm with ino := tSet 0 s.qbm.ino (inoKey x) (n + 1) } })

/-- The frame record of an arrival (Table 8-1). -/
def arriveFrame (s : State) (a : Arrive) (r : CRes) : Frame :=
  { bytes := a.bytes, len := a.n, src := a.src, tid := a.tid, hnd := a.hnd, stamp := a.stamp,
    e2e := Config.e2eCrc a.bytes, mark := a.mark, ipck := r.ipck, l4ck := r.l4ck, dp := r.dp, act := r.act, fkind := r.fkind,
    ftgt := r.ftgt, flags := BitVec.ofNat 16 r.w.flags, slots := r.w.slots, ends := r.w.ends, vtags := tagCount a.bytes,
    outerTpid := BitVec.ofNat 16 (outerTpidOf a.bytes), outerTci := BitVec.ofNat 16 (outerTciOf a.bytes),
    inPrio := if a.src.kind = 0 then ingressPrio s a.src.num a.bytes else 0, rxMax := a.maxlen, cells := [], deep := [],
    refs := 0, sAdd := 0, sq := none, sqLost := false, send := a.send, ino := 0, looped := a.looped, tmm := false,
    txStamp := none, dchg := none, e2eFail := [], last := a.last, lenKnown := a.lenKnown, late := [], inS := false, prov := 0, left := 0, crcBad := false }

/-- A walk that has found nothing. -/
def Walk.none_ : Walk := ⟨[], [], 0, 0, 0, false⟩

/-- A result without classification. -/
def CRes.none_ : CRes := ⟨Walk.none_, 0, 0, 0, 0, 0, 0, [], false, false⟩

/-- The management ring of partition 0 that is enabled (R199). -/
def mgmtRing (s : State) : Option Nat :=
  (s.hrd.ring.find? (fun e =>
    4096 ≤ e.1 && e.1 < 4096 + 2048 && ringRuns e.2 && e.2.w.priv == 1
      && prtOwner s (pagePRT + 0x4000 + 4 * (e.1 - 4096)) == 0)).map (fun e => e.1 - 4096)

/-- Is a frame of the slow protocols (R199)? -/
def isSlow (b : List Byte) : Bool := beAt b 0 6 == 0x0180C2000002 && etherType b == 0x8809

/-- The free cells are so few that the edge's frames are refused (R244). -/
def bufFull (s : State) : Bool := decide (freeCells s ≤ hdrm s)

/-- A frame that an uplink port has brought into the buffer joins its receive list (R389). -/
def recvAdd (n : Nat) (s : State) : State :=
  match frameOf s n with
  | none => s
  | some f =>
    if f.src.kind = 0 then
      { s with upl := tMod Upl.empty s.upl f.src.num (fun u => { u with recv := u.recv ++ [⟨n, f.cells.headD 0, f.len, f.stamp, f.ino⟩] }) }
    else s

/-- What classification needs of an arrival. -/
def arriveIn (a : Arrive) (charge : Bool) : CIn :=
  { up := a.up, bytes := if a.send.isSome then a.bytes ++ fcsOf a.bytes else a.bytes, n := a.n, lenField := a.lenField,
    src := a.src, tid := a.tid, hnd := a.hnd, sendPart := a.part,
    runt := a.mark == .runt, maxlen := a.maxlen, charge := charge, last := a.last }

/-- The egress queue of a DIRECT send (R200). -/
def directQueue (s : State) (a : Arrive) : Option Nat :=
  match a.send with
  | some o => o.direct.map (fun p => qUpl (basePort s p) 7)
  | none => none

/-- What a page-bound part of the classifier answers on the page of an arrival's cycle 0 (R203, R236). -/
def onPage (page : Option Bool) (s : State) : State :=
  match page with
  | some g => { s with cls := { s.cls with active := g } }
  | none => s

/-- The classifier of an arrival, on the page of its cycle 0. -/
def classifyOn (page : Option Bool) (x : CIn) (ue : Option Word) (em : Option (Option EmEntry)) (s : State) : State × CRes :=
  let c := classify x ue em (onPage page s)
  ({ c.1 with cls := { c.1.cls with active := s.cls.active } }, c.2)

/-- Is a frame never classified (R205): one of the slow protocols, or a DIRECT send? -/
def unclassified (s : State) (a : Arrive) : Bool := (a.src.kind == 0 && isSlow a.bytes) || (directQueue s a).isSome

/-- A frame finds no free cell: counted, with the fault (R244). `mk` and `mn` name the master: the slice of a section, or the send ring of a ring
loop. -/
def bufExhaust (sec mk mn : Nat) (s : State) : State := fault 6 2 (w32 (tGet 0 s.qbm.rrGrp sec)) 2 mk mn 0 (count1 6 2 s)

/-- The cells of a frame are taken as its words arrive (R244): it stands in the buffer from its start on, and joins its port's receive list.
A frame that finds no free cell is freed, counted, and raises the fault. -/
def takeCells (i : Nat) (a : Arrive) (s : State) : Arrive × State :=
  let io := takeIno a.src s
  let f0 := { arriveFrame s a CRes.none_ with ino := io.1 }
  match storeFrame (secKey i a.up) f0 io.2 with
  | none => (a, sendDone 0 f0 (bufExhaust (secKey i a.up) 1 i io.2))
  | some (n, s1) => ({ a with frame := some n }, recvAdd n s1)

/-- Cycle 0 of a frame in the section of slice `i` (R13, R204): its lanes, pending until its decision cycle (R471), and its cells. An edge's frame is refused where the free cells are
few (R244); a host send is not (R248). Then the lookup of cycle 30; what is never classified goes on at its enqueue (R205). -/
def ingressAt (i : Nat) (a : Arrive) (ue : Option Word) (s : State) : State :=
  let d := b2n a.up
  let s1 := lanePend i d (lanesOf a.bytes.length) (secPlace i d a.bytes.length (countO (iSLC i) 14 d 1 s))
  let b := { a with page := some (a.page.getD s.cls.active) }
  let r := if a.send.isNone && bufFull s1 then (b, count1 6 1 s1) else takeCells i b s1
  if unclassified s1 a then atCycle (s.tim.now + 54) (.enq i r.1 none) r.2
  else atCycle (s.tim.now + 30) (.look i r.1 ue) r.2

/-- Cycle 30 of a frame: the exact-match lookup (Table 7-1). -/
def lookAt (i : Nat) (a : Arrive) (ue : Option Word) (s : State) : State :=
  atCycle (s.tim.now + 10) (.classify i a ue (lookEm (arriveIn a true) (onPage a.page s))) s

/-- Cycle 40 of a frame: rules, actions, meter and targets; its enqueue falls in cycle 54 (R13, R204). -/
def classifyAt (i : Nat) (a : Arrive) (ue : Option Word) (em : Option EmEntry) (s : State) : State :=
  let c := classifyOn a.page (arriveIn a (!a.again)) ue (some em) s
  atCycle (c.1.tim.now + 14) (.enq i a (some c.2)) c.1

/-- What a frame that is not classified goes to: the queue of a DIRECT send, or the management ring, where it has a descriptor (R199, R200). -/
def directRes (a : Arrive) (s : State) : CRes × State :=
  match directQueue s a with
  | some q => ({ CRes.none_ with w := parse s a.up a.bytes a.n, queues := [(q, 0)], fkind := 2 }, s)
  | none => match mgmtRing s with
    | some r =>
      if (ringOf s .fill r).desc.isEmpty then (CRes.none_, count1 (iUPL a.src.num) 19 s) else ({ CRes.none_ with queues := [(qFill r, 0)] }, s)
    | none => (CRes.none_, count1 (iUPL a.src.num) 19 s)

/-- A frame in the buffer with what classification found of it. -/
def resFrame (f : Frame) (r : CRes) : Frame :=
  { f with ipck := r.ipck, l4ck := r.l4ck, dp := r.dp, act := r.act, fkind := r.fkind, ftgt := r.ftgt, flags := BitVec.ofNat 16 r.w.flags,
           slots := r.w.slots, ends := r.w.ends }

/-- The decision cycle of a frame that held a token at its enqueue (R471, R474). -/
def verdictAt (n i d lanes : Nat) (l4 cls : Bool) (x : SmpFrame) (s : State) : State :=
  decided i cls x (verdict n i d lanes l4 (laneSettle i d lanes s))

/-- The enqueue of a frame, whose targets are known (R244 to R247, R225, R167): `cause` is the waste sub-cause of a frame that no target is
named for. -/
def storeAdmit (i n : Nat) (a : Arrive) (r : CRes) (cause : Nat) (classified : Bool) (s : State) : State :=
  let d := b2n a.up
  let len := a.bytes.length
  match frameOf s n with
  | none => wasteAt i d a 9 classified (smpOf (arriveFrame s a r)) s
  | some g =>
    let f0 := resFrame g r
    let s1 := setFrame n f0 s
    let s2 := if a.src.kind = 0 ∧ r.w.flags.testBit 6 ∧ regB s1 (rUpl a.src.num 0x1C) 0 then takeStamp a.src.num n s1 else s1
    let f := cellsFor len
    let fa := if a.lenKnown then f else cellsFor a.maxlen
    let open_ := decide (s.tim.now < a.last) && decide (f < fa)
    let s2a := if open_ then match frameOf s2 n with | some x => setFrame n { x with prov := fa - f } s2 | none => s2 else s2
    let s3 := admitRec i a.up (a.page.getD s.cls.active) n g.ino r.dp fa (if open_ then fa else f) r.queues s2a
    let late := lateQueues s3 a.src len (r.queues.map (·.1))
    let held : Nat := ((frameOf s3 n).map (·.refs)).getD 0
    if held = 0 then
      freeUnheld n (wasteAt i d a (if r.queues.isEmpty then cause else 9) classified (smpOf f0) s3)
    else
      let s4 := if r.l4drop || markBad a.mark then noteLate n late s3 else s3
      if s.tim.now < a.last then
        atCycle (a.last + 1) (.verdict n i d (lanesOf len) r.l4drop classified (smpOf f0)) s4
      else verdictAt n i d (lanesOf len) r.l4drop classified (smpOf f0) s4

/-- Cycle 54 of a frame: its enqueue. A frame that holds no cells is refused at every target. -/
def admitAt (i : Nat) (a : Arrive) (r : Option CRes) (s : State) : State :=
  match a.frame with
  | none => wasteAt i (b2n a.up) a 9 r.isSome (smpOf (arriveFrame s a (r.getD CRes.none_))) s
  | some n => match r with
    | some c => storeAdmit i n a c 8 true s
    | none => let d := directRes a s; storeAdmit i n a d.1 9 false d.2

/-! ## Frames between their start and their enqueue (R45, R236, R330) -/

/-- The section and the frame of a turn that is stage `k` of the way to the enqueue, the last stage first. -/
def pipeArr (k : Nat) : Turn → Option (Nat × Arrive)
  | .enq i a _ => if k = 0 then some (i, a) else none
  | .classify i a _ _ => if k = 1 then some (i, a) else none
  | .look i a _ => if k = 2 then some (i, a) else none
  | _ => none

/-- The frames on the way to their enqueue that `p` names, by slice and arrival, each with its slice, in the order of their starts. -/
def pipeFrames (p : Nat → Arrive → Bool) (s : State) : List (Nat × Arrive) :=
  [0, 1, 2].flatMap fun k => (s.hrd.later.filterMap (fun e => pipeArr k e.2)).filter (fun x => p x.1 x.2)

/-- The same without their slices. -/
def pipe (p : Nat → Arrive → Bool) (s : State) : List Arrive := (pipeFrames p s).map (·.2)

/-- Such frames go no further: their lanes are wasted, refused at every target (R471), and their cells are free again. -/
def dropPipe (p : Nat → Arrive → Bool) (s : State) : State :=
  let keep := fun (e : Nat × Turn) => [0, 1, 2].all (fun k => match pipeArr k e.2 with | some x => !(p x.1 x.2) | none => true)
  (pipeFrames p s).foldl
    (fun s0 x =>
      let a := x.2
      let lanes := lanesOf a.bytes.length
      let s := laneWaste8 x.1 (b2n a.up) lanes 9 (laneSettle x.1 (b2n a.up) lanes s0)
      match a.frame with
      | none => s
      | some n => match frameOf s n with
        | none => s
        | some f => freeFrame n { f with send := none } { s with upl := s.upl.map fun e => (e.1, { e.2 with recv := e.2.recv.filter (·.frame != n) }) })
    { s with hrd := { s.hrd with later := s.hrd.later.filter keep } }

/-- Home of an arrival's source: the section it enters. -/
def arriveHome (s : State) (a : Arrive) : Nat :=
  if a.src.kind = 0 then homeU s a.src.num else if a.src.kind = 1 then homeT s a.src.num else anchorHome s a.src.num

/-- Has an arrival's source no working home (R404)? -/
def srcLost (s : State) (a : Arrive) : Bool :=
  if a.src.kind = 0 then lostPort s a.src.num
  else if a.src.kind = 1 then lostTree s a.src.num
  else
    let w := (ringOf s .send a.src.num).w
    if w.side then lostTree s w.anchor else lostPort s w.anchor

/-- A frame arrives at its section: it is held while the slice is being handed over (R389), with the classifier page of its cycle 0
(R236), dropped where no slice is its home (R404), and taken otherwise. -/
def ingress (a : Arrive) (ue : Option Word) (s : State) : State :=
  let i := arriveHome s a
  if srcLost s a then s
  else if handingFrom s i then
    { s with skm := { s.skm with ho := s.skm.ho.map fun h =>
        if h.failed == i && !h.live then { h with held := h.held ++ [{ a with page := some (a.page.getD s.cls.active) }] } else h } }
  else ingressAt i a ue s

end Sys2Proof.Machine
end

