-- ==== Sys2Proof/Machine/Time.lean ====
section
/-!
DEFINITION. The time engine (R336 to R347, R360, R361, R367 to R376) and the advance of the clock. What happens at a
boundary lies in Machine/Beat.lean; TIME_ENGINE_START and PPS_IN_EDGE, which can make the first boundary, lie there too.
-/

namespace Sys2Proof.Machine

/-! ## The clock -/

/-- The slew term of one cycle: MAXPPB x 10^-9 x TIM_INC in 2^-48 ns (R342), its rounding open (log entry 3). -/
def slewTerm (s : State) : Nat :=
  let ppb := regF s (rTim 0x38) 0 17
  let q := s.tim.inc * ppb / 1000000000
  if s.tim.inc * ppb % 1000000000 = 0 then q else q + b2n (Config.slewRound s.tim.inc ppb)

/-- What slewing adds in `n` cycles: never more than what remains, nothing in holdover (R342, R346). -/
def slewIn (s : State) (n : Nat) : Int :=
  if s.tim.hold then 0
  else
    let a := min s.tim.slew.natAbs (n * slewTerm s)
    if s.tim.slew < 0 then -(a : Int) else (a : Int)

/-- Persistent fault sources whose cause holds: instance and bit (Table 13-4). -/
def persisting (s : State) : List (Nat × Nat) :=
  (if s.tim.ppsLost then [(3, 2)] else [])
    ++ (if s.cls.dirty.isEmpty then [] else [(5, 1)])
    ++ ((s.chn.filter (fun e => e.2.discBad)).map fun e => (iCHN (homeT s e.1), 3))
    ++ (if s.cpe.keyStall then [(7, 2)] else [])
    ++ (if s.glb.lostT.isEmpty && s.glb.lostU.isEmpty then [] else [(9, 1)])

/-- A persistent source raises its fault in each of `n` cycles: COUNT rises (R420, R422). -/
def persistCount (n : Nat) (s : State) : State :=
  (persisting s).foldl
    (fun s e =>
      let f := fltOf s e.1
      if bit f.st e.2 then setFlt e.1 { f with more := min 0xFFFFFF (f.more + n) } s else s) s

/-- Slew that a segment has added after `n` cycles. -/
def TSeg.slewed (g : TSeg) (n : Nat) : Int :=
  if g.hold then 0
  else
    let a := min g.slew.natAbs (n * g.term)
    if g.slew < 0 then -(a : Int) else (a : Int)

/-- Time of cycle `k` in a segment. -/
def TSeg.timeAt (g : TSeg) (k : Nat) : Nat := addTime (g.time + (k - g.at_) * g.inc) (g.slewed (k - g.at_))

/-- The clock as it stands. -/
def nowSeg (s : State) : TSeg :=
  { at_ := s.tim.now, time := s.tim.time, inc := s.tim.inc, slew := s.tim.slew, term := slewTerm s, hold := s.tim.hold }

/-- Does the newest segment already give the clock as it stands? -/
def segCovers (s : State) : Bool :=
  match s.tim.segs with
  | g :: _ =>
    g.inc == s.tim.inc && g.term == slewTerm s && g.hold == s.tim.hold && g.timeAt s.tim.now == s.tim.time
      && g.slew - g.slewed (s.tim.now - g.at_) == s.tim.slew
  | [] => false

/-- The clock as this cycle still runs it where TIM_INC or TIM_SLEW has been written in it: the change takes effect in the cycle after
(R341). -/
def oldRate (s : State) : Option State :=
  let inc := s.tim.incWas.filter (·.1 == s.tim.now)
  let slew := s.tim.slewWas.filter (·.1 == s.tim.now)
  if !s.tim.started || (inc.isNone && slew.isNone) then none
  else
    some { s with tim := { s.tim with
      inc := (inc.map (·.2)).getD s.tim.inc, slew := (slew.map (·.2)).getD s.tim.slew, incWas := none, slewWas := none } }

/-- Amount left of the slew when the cycle that `o` runs has passed: a written amount stands whole. -/
def slewNext (s o : State) : Int :=
  if (s.tim.slewWas.filter (·.1 == s.tim.now)).isSome then s.tim.slew else s.tim.slew - slewIn o 1

/-- The clock from the next cycle on. -/
def nextSeg (s o : State) : TSeg :=
  { nowSeg s with at_ := s.tim.now + 1, time := (nowSeg o).timeAt (s.tim.now + 1), slew := slewNext s o }

/-- The time of cycle `k` (R348): of a past cycle by the segment it lies in, of a later one as the clock stands now. -/
def timeAtCyc (s : State) (k : Nat) : Nat :=
  if s.tim.now ≤ k then
    match oldRate s with
    | some o => if k = s.tim.now then s.tim.time else (nextSeg s o).timeAt k
    | none => (nowSeg s).timeAt k
  else match s.tim.segs.find? (fun g => g.at_ ≤ k) with
    | some g => g.timeAt k
    | none => s.tim.time - (s.tim.now - k) * s.tim.inc

/-- Cycles in which a pause timer runs are counted per priority, those of a whole-port timer under 0 (PAUSED_CYCLES). -/
def pauseCount (n : Nat) (s : State) : State :=
  s.upl.foldl
    (fun s e =>
      let left := fun (fin : Nat) => min n (fin - s.tim.now)
      let s1 := match e.2.pause with
        | some fin => countO (iUPL e.1) 17 0 (left fin) s
        | none => s
      e.2.pfc.foldl (fun s p => countO (iUPL e.1) 17 p.1 (left (p.2 - 1)) s) s1) s

/-- What counts in every one of `n` cycles: persistent causes (R422), pause timers, lanes that stay empty for want of cells. -/
def cycleCounts (n : Nat) (s : State) : State := backCells n (pauseCount n (persistCount n s))

/-- The same, where a counter that a write has set in this cycle counts again from the next one on (Table 15-11). -/
def passCounts (n : Nat) (s : State) : State :=
  if s.cnt.heldAt = s.tim.now ∧ s.cnt.held ≠ [] ∧ 1 < n then
    let s1 := cycleCounts 1 s
    cycleCounts (n - 1) { s1 with tim := { s1.tim with now := s.tim.now + 1 } }
  else cycleCounts n s

/-- `n` cycles of CLK_B pass at one rate (R8, R337). -/
def passRate (n : Nat) (s : State) : State :=
  if n = 0 then s else
  let t := s.tim
  let s1 := passCounts n s
  if t.started then
    { s1 with tim := { t with
        now := t.now + n, time := addTime (t.time + n * t.inc) (slewIn s n), slew := t.slew - slewIn s n,
        segs := if segCovers s then t.segs else nowSeg s :: t.segs } }
  else { s1 with tim := { t with now := t.now + n } }

/-- `n` cycles of CLK_B pass: the first still at the old rate where a new one has been written in it (R341). -/
def passClk (n : Nat) (s : State) : State :=
  match (if n = 0 then none else oldRate s) with
  | none => passRate n s
  | some o =>
    let s1 := passRate 1 o
    passRate (n - 1) { s1 with tim := { s1.tim with inc := s.tim.inc, slew := slewNext s o } }

/-- `n` cycles pass, the Milk Round reading an entry in each fourth of its round (R466): the value before that cycle's
increments (Table 15-11). -/
def advanceClk (n : Nat) (s : State) : State :=
  let left := match s.cnt.round with
    | none => 0
    | some r => min (r.len - r.got) (n / 4 + 1)
  let e := (List.range left).foldl
    (fun r _ =>
      match mrNext r.2 r.1 with
      | some d => (r.1 - d, mrRead (passClk d r.2))
      | none => r) (n, s)
  passClk e.1 e.2

/-- Cycles from now to cycle 0 of the next beat. -/
def toNextBeat (s : State) : Nat := (s.tim.beat + 1) * beatCyc - cyc s

/-! ## Start, step, restart -/

/-- The time that TIM_SET gives, fraction 0, as it stands at the next boundary (R339, R344, R377). -/
def timSet (s : State) : Nat := (pairAfter s (rTim 0x10) * 1000000000 + fld (regAfter s (rTim 0x18)) 0 30) * unitNs

/-- Set or clear TIM_CTL.TRACE. -/
def setTrace (b : Bool) (s : State) : State :=
  setReg (rTim 0) (mergeW (reg s (rTim 0)) 0x200 (if b then 0x200 else 0)) s

/-- TIM_CTL.TRACE. -/
def trace (s : State) : Bool := regB s (rTim 0) 9

/-- TIM_CTL.SRC as last written: a START or a RESTART goes by the SRC of its own write too, though SRC is in force from the next tick
boundary on (R377). DESIGN CHOICE (log entry 31). -/
def timSrc (s : State) : Bool := bit (regAfter s (rTim 0)) 8

/-- The engine starts in this cycle (R339): the time and the tick number load, ARMED sets, a slew is discarded. -/
def startTime (s : State) : State :=
  let t0 := regPair s (rTim 0x20)
  let tick := if t0 = 0 then 1 else t0
  setTrace false
    { s with tim := { s.tim with
        started := true, startWait := none, tick := tick, beat := 0, tickStart := s.tim.now, cutDone := false,
        time := timSet s, slew := 0, armed := true, wdogTick := tick } }

/-- An accepted step is added, in cycle 0 of beat 0 ahead of the tick strobe (R343). -/
def applyStep (ofs : Int) (s : State) : State :=
  let old := s.tim.time
  let new := addTime old (ofs * (2 ^ 32 : Nat))
  let s1 := { s with tim := { s.tim with
      time := new, slew := 0, stepPend := none, stepN := s.tim.stepN + 1, lstepOld := compact old, lstepNew := compact new,
      stepFlag := true, stepAt := some s.tim.now } }
  notice0 0x42 0 (compact old) (compact new) s1

/-- A value of TIM_INC or TIM_SLEW takes effect in the next cycle, or is deferred in cycles 156,186 to 156,249 (R341). -/
def putInc (v : Nat) (s : State) : State :=
  if s.tim.started ∧ 156186 ≤ cyc s then { s with tim := { s.tim with incDef := some v } }
  else { s with tim := { s.tim with inc := v, incWas := some (s.tim.now, s.tim.inc) } }
def putSlew (v : Int) (s : State) : State :=
  if s.tim.started ∧ 156186 ≤ cyc s then { s with tim := { s.tim with slewDef := some v } }
  else { s with tim := { s.tim with slew := v, slewWas := some (s.tim.now, s.tim.slew) } }

/-- Holdover ends (R346): notice HOLD_EXIT, and the held writes take effect. -/
def exitHold (s : State) : State :=
  if !s.tim.hold then s
  else
    let s1 := notice0 0x41 0 (w32 (s.tim.tick - s.tim.holdTick)) 0 s
    let ih := s1.tim.incHeld
    let sh := s1.tim.slewHeld
    let s2 := { s1 with tim := { s1.tim with hold := false, incHeld := none, slewHeld := none, wdogTick := s1.tim.tick } }
    let s3 := match ih with | some v => putInc v s2 | none => s2
    match sh with | some v => putSlew v s3 | none => s3

/-- Holdover begins (R345, R346); a further cause changes nothing, and none enters holdover before the start. -/
def enterHold (cause : Nat) (s : State) : State :=
  if s.tim.hold ∨ !s.tim.started then s
  else
    let t := s.tim
    notice0 0x40 cause 0 0
      { s with tim := { t with
          hold := true, holdTick := t.tick, incHeld := t.incDef, incDef := none, slewHeld := t.slewDef, slewDef := none } }

/-- A restart takes effect (R344): the time `new` of TIM_SET loads, ARMED sets, TRACE clears, holdover ends, slew and step are
cancelled. -/
def applyRestart (new : Nat) (s : State) : State :=
  let old := s.tim.time
  let s1 := exitHold s
  let s2 := setTrace false
    { s1 with tim := { s1.tim with
        time := new, slew := 0, slewWas := none, slewDef := none, stepPend := none, restart := none, armed := true,
        stepN := s1.tim.stepN + 1, lstepOld := compact old, lstepNew := compact new, stepFlag := true,
        stepAt := some s1.tim.now } }
  notice0 0x44 0 (compact old) (compact new) s2

/-- Order 0 of Table 1-4, then the deferred rate and slew writes of R341; `set` is TIM_SET as it stands at this boundary. The projection
of R361 is used up. -/
def timeBoundary (set : Nat) (s : State) : State :=
  let s0 := { s with tim := { s.tim with stepFlag := false, proj := none } }
  let s1 :=
    if s0.tim.restart = some false then applyRestart set s0
    else match s0.tim.stepPend with
      | some d => applyStep d s0
      | none => s0
  let s2 := match s1.tim.incDef with
    | some v => { s1 with tim := { s1.tim with inc := v, incDef := none } }
    | none => s1
  match s2.tim.slewDef with
  | some v => { s2 with tim := { s2.tim with slew := v, slewDef := none } }
  | none => s2

/-! ## TIM_CTL -/

/-- TIM_CTL.START (R339): a later START is ignored. -/
def ctlStart (s : State) : State :=
  if s.tim.started || s.tim.startWait.isSome then s else { s with tim := { s.tim with startWait := some (timSrc s, s.tim.now) } }

/-- TIM_CTL.RESTART (R344): ignored before the start; a pending step is cancelled (Table 11-7). -/
def ctlRestart (s : State) : State :=
  if !s.tim.started then s else { s with tim := { s.tim with restart := some (timSrc s), stepPend := none } }

/-- TIM_CTL.STEP_GO (R343): the offset is the one last written, which is in force at the boundary that adds it; a TIM_STEP write after
STEP_GO does not change it. DESIGN CHOICE (log entry 31). -/
def ctlStep (s : State) : State :=
  if s.tim.armed then
    { s with tim := { s.tim with armed := false, stepPend := some (sext 64 (pairAfter s (rTim 0x40))) } }
  else notice0 0x43 0 0 0 (count1 3 1 s)

/-- TIM_CTL.HOLD and HOLD_CLR (R345, R346). -/
def ctlHold (s : State) : State := enterHold 1 s
def ctlHoldClr (s : State) : State := exitHold s

def execTimStart (part : BitVec 6) (s : State) : Outcome := .next (p0Write part 0xF ctlStart (begin_ s))
def execTimRestart (part : BitVec 6) (s : State) : Outcome := .next (p0Write part 0xF ctlRestart (begin_ s))
def execStepGo (part : BitVec 6) (s : State) : Outcome := .next (p0Write part 0xF ctlStep (begin_ s))
def execTimHold (part : BitVec 6) (s : State) : Outcome := .next (p0Write part 0xF ctlHold (begin_ s))
def execHoldClr (part : BitVec 6) (s : State) : Outcome := .next (p0Write part 0xF ctlHoldClr (begin_ s))

/-- R345 cause 2: the servo watchdog. -/
def holdWatchdog (s : State) : State :=
  let n := regF s (rTim 0x48) 0 16
  if n ≠ 0 ∧ s.tim.started = true ∧ s.tim.wdogTick + n ≤ s.tim.tick then enterHold 2 s else s
def execHoldWatchdogExpire (s : State) : Outcome := .next (holdWatchdog (begin_ s))

/-- R347: holdover has lasted TIM_HMAX.TICKS ticks. -/
def traceLost (s : State) : State :=
  let n := (reg s (rTim 0x4C)).toNat
  if s.tim.hold = true ∧ n ≠ 0 ∧ s.tim.holdTick + n ≤ s.tim.tick then notice0 0x4A 0 0 0 (setTrace false s) else s
def execTraceLost (s : State) : Outcome := .next (traceLost (begin_ s))

/-! ## Rate and slew -/

/-- The nominal increment, and the limits of R337: within 500 ppm of it. -/
def incNom : Nat := 0xCCCCCCCCCCCD
def incMin : Nat := ceilDiv (incNom * 9995) 10000
def incMax : Nat := incNom * 10005 / 10000

/-- A TIM_INC write is committed with its _HI half (R337, R341, R346). -/
def writeInc (v : Nat) (s : State) : State :=
  let c := max incMin (min incMax v)
  let s1 := if c = v then s else count1 3 0 s
  let s2 := { s1 with tim := { s1.tim with wdogTick := s1.tim.tick } }
  if s2.tim.hold then { s2 with tim := { s2.tim with incHeld := some c } } else putInc c s2

/-- A TIM_SLEW write is committed with its _HI half: it replaces what remains (R342). -/
def writeSlew (v : Int) (s : State) : State :=
  let a := v * (2 ^ 32 : Nat)
  if s.tim.hold then { s with tim := { s.tim with slewHeld := some a } } else putSlew a s

/-- A signed amount of 2^-48 ns as the 64-bit register in 2^-16 ns shows it. -/
def slewReg (s : State) : Nat := toTwos 64 (s.tim.slew / ((2 ^ 32 : Nat) : Int))

/-- TIM_INC_HI written by a partition. -/
def incHi (part : Nat) (data : Word) (s : State) : State :=
  let lo := loFor part (rTim 0x28) (w32 s.tim.inc) s
  writeInc (lo.toNat + 2 ^ 32 * fld data 0 16) (dropLo part (rTim 0x28) s)

/-- TIM_SLEW_HI written by a partition. -/
def slewHi (part : Nat) (data : Word) (s : State) : State :=
  let lo := loFor part (rTim 0x30) (w32 (slewReg s)) s
  writeSlew (sext 64 (lo.toNat + 2 ^ 32 * data.toNat)) (dropLo part (rTim 0x30) s)

def execTimIncWrite (part : BitVec 6) (be : BitVec 4) (data : Word) (s : State) : Outcome :=
  .next (p0Write part be (incHi part.toNat data) (begin_ s))
def execTimSlewWrite (part : BitVec 6) (be : BitVec 4) (data : Word) (s : State) : Outcome :=
  .next (p0Write part be (slewHi part.toNat data) (begin_ s))

/-! ## Reading the time -/

/-- R340: the compact time, captured for the reading partition. Every partition may read it. -/
def epochRead (part : Nat) (s : State) : State :=
  if s.glb.phase ≠ 4 then emit (.regRead 0) s
  else
    emit (.regRead (compact s.tim.time))
      { s with tim := { s.tim with caps := tPut part (s.tim.time, s.tim.stepN) s.tim.caps } }
def execTimEpochRead (part : BitVec 6) (s : State) : Outcome := .next (epochRead part.toNat (begin_ s))

/-- The capture of a partition, or the live time (R340). -/
def epochOf (s : State) (part : Nat) : Nat × BitVec 16 := (tFind part s.tim.caps).getD (s.tim.time, s.tim.stepN)

/-- Cycle 156,186: T(cycle 0 of the next tick) from time, increment, slew and a pending step, and TIM_SET `set` as it will stand then (R361). -/
def project (set : Nat) (s : State) : Nat :=
  if s.tim.restart = some false then set
  else
    let t := timeAtCyc s (s.tim.tickStart + tickCyc)
    match s.tim.stepPend with
    | some d => addTime t (d * (2 ^ 32 : Nat))
    | none => t

/-! ## PPS and ToD pins -/

/-- Distance of this cycle from the nearest tick boundary, in cycles (R368). -/
def tickErr (s : State) : Int :=
  if cyc s ≤ tickCyc / 2 then (cyc s : Int) else (cyc s : Int) - (tickCyc : Int)

/-- One second in cycles at nominal rate. -/
def secCyc : Nat := 1250000000

/-- Does R368 accept an edge in this cycle? -/
def ppsAccepts (s : State) : Bool :=
  match s.tim.ppsLast with
  | none => true
  | some l =>
    let d := s.tim.now - l
    let w := regF s (rTim 0x64) 0 21
    s.tim.ppsLost || (decide (d ≤ secCyc + w) && decide (secCyc ≤ d + w))

/-- An accepted edge (R368, R374): stamp, tick error, PPS_BACK, TICK_MISALIGN, and a restart that waits for it. -/
def ppsAccept (s : State) : State :=
  let known := s.tim.started
  let terr := if known then tickErr s else sext 32 (freeNat s)
  let s0 := if known then s else useFree s
  let back := s0.tim.ppsLost
  let s1 := { s0 with tim := { s0.tim with
      ppsLast := some s0.tim.now, ppsLost := false, ppsiTerr := terr,
      ppsiTime := addTime s0.tim.time (-(ofs16 (reg s0 (rTim 0x68)))) } }
  let tw := w32 (toTwos 32 terr)
  let s2 := if back then notice0 0x47 0 tw 0 s1 else s1
  let s3 :=
    if known ∧ regF s2 (rTim 0x60) 11 8 < terr.natAbs then
      notice0 0x48 0 tw 0 (fault 3 1 tw 5 9 0 0 s2)
    else s2
  if s3.tim.restart = some true then
    let s4 := { s3 with tim := { s3.tim with restart := some false } }
    if cyc s4 = 0 then applyRestart (timSet s4) s4 else s4
  else s3

/-- Bytes 0-13 and CRC of a ToD pin message (Table 11-4). -/
def todBytes (flags sec utc : Nat) : List Byte :=
  let b := [0x48, 0x54, 0x01, BitVec.ofNat 8 flags] ++ beBytes 6 sec ++ beBytes 2 utc ++ beBytes 2 0
  b ++ beBytes 2 (crc16 b)

/-- The line of a ToD message: each byte as a start bit 0, its bits least significant first, and a stop bit 1 (R370). -/
def todLine (m : List Byte) : List Bool := m.flatMap fun b => false :: (List.range 8).map b.getLsbD ++ [true]

/-- A step or a restart in the past second (Table 11-4). -/
def stepRecent (s : State) : Bool :=
  match s.tim.stepAt with
  | some c => decide (s.tim.now - c ≤ secCyc)
  | none => false

/-- Why a ToD message is discarded: 1 CRC, 2 sync or version, 3 ending outside the window (R372); 0 good. -/
def todCause (bytes : List Byte) (s : State) : Nat :=
  if bytes.length ≠ 16 ∨ beAt bytes 14 2 ≠ crc16 (bytes.take 14) then 1
  else if beAt bytes 0 3 ≠ 0x485401 then 2
  else match s.tim.ppsLast with
    | none => 3
    | some l => if 1250000 ≤ s.tim.now - l ∧ s.tim.now - l ≤ 1125000000 then 0 else 3

/-- What the TIM_TODI registers show: a read in the cycle in which a good message ends returns what they held before it (R520). -/
def todiShown (s : State) : BitVec 48 × BitVec 3 × Bool × BitVec 16 :=
  if s.tim.todiAt = s.tim.now then s.tim.todiOld else (s.tim.todiSec, s.tim.todiFlags, s.tim.todiNew, s.tim.todiUtc)

/-- A TOD_IN message ends (R372). -/
def todIn (bytes : List Byte) (s : State) : State :=
  if !regB s (rTim 0x70) 0 then s
  else
    let c := todCause bytes s
    if c = 0 then
      { s with tim := { s.tim with
          todiAt := s.tim.now, todiOld := todiShown s, todiSec := BitVec.ofNat 48 (beAt bytes 4 6), todiFlags := BitVec.ofNat 3 (byteAt bytes 3),
          todiUtc := BitVec.ofNat 16 (beAt bytes 10 2), todiNew := true } }
    else notice0 0x49 c 0 0 (fault 3 3 (w32 c) 0 9 0 0 (count1 3 4 s))
def execTodInMessage (bytes : List Byte) (s : State) : Outcome := .next (todIn bytes (begin_ s))

/-! ## Triplets -/

/-- One flop of a triplet disagrees (R338): rewritten by voting, counted, fault VOTE; time and ticks run on. -/
def tripletVote (group : Word) (s : State) : State := fault 3 0 group 5 9 0 0 (count1 3 2 s)
def execTripletVoteDisagree (group : Word) (s : State) : Outcome := .next (tripletVote group (begin_ s))

end Sys2Proof.Machine
end

