-- ==== Sys2Proof/Machine/Rings.lean ====
section
/-!
DEFINITION. Host rings: ownership, doorbells, descriptor reads, records, halts, disables and contexts (R293 to R300, R310 to
R320, R327 to R335). Sends and fill delivery lie in Machine/HostPath.lean, commands in Machine/Command.lean.
-/

namespace Sys2Proof.Machine

/-! ## Ownership (R293, R333, R497) -/

/-- Owner of a ring: the partition table's, or the partition of a command or notice ring. -/
def ringOwner (s : State) (k : RingKind) (n : Nat) : Nat :=
  match k with
  | .send => prtOwner s (pagePRT + 0x2000 + 4 * n)
  | .fill => prtOwner s (pagePRT + 0x4000 + 4 * n)
  | .cq => prtOwner s (pagePRT + 0x6000 + 4 * n)
  | .cmd => n
  | .ntc => n

/-- May partition `p` act on the ring? Partition 0 passes every check. -/
def ownsRing (s : State) (p : Nat) (k : RingKind) (n : Nat) : Bool := p == 0 || ringOwner s k n == p

/-- Object of kind R of a ring (R460): `none` for command and notice rings, which it cannot name (R539). -/
def ringObj (k : RingKind) (n : Nat) : Option Nat :=
  match k with
  | .send => some n
  | .fill => some (2048 + n)
  | .cq => some (4096 + n)
  | .cmd => none
  | .ntc => none

/-- Count an HRD event about a ring. -/
def countR (evt : Nat) (k : RingKind) (n amt : Nat) (s : State) : State :=
  match ringObj k n with
  | some o => countO 4 evt o amt s
  | none => countN 4 evt amt s

/-- Entry bytes of a ring (Table 10-1). -/
def entryBytes : RingKind → Nat
  | .cq => 16
  | .send => 32 | .fill => 32 | .cmd => 32 | .ntc => 32

/-- Is a ring enabled? -/
def ringEn (r : Ring) : Bool := r.st != .disabled

/-! ## Reserved completion-queue slots (R312) -/

/-- Slots of its completion queue that a ring holds reserved. -/
def reservedBy (r : Ring) : Nat := r.rdN + r.desc.length + r.recs.length

/-- Slots that ring `r` of a kind and number holds: a running command holds that of its record. -/
def ringSlots (s : State) (k : RingKind) (n : Nat) (r : Ring) : Nat := reservedBy r + b2n (k == .cmd && (tFind n s.hrd.cmd).isSome)

/-- Change the reserved slots of a completion queue. -/
def cqReserve (c : Nat) (d : Int) (s : State) : State :=
  let r := ringOf s .cq c
  setRing .cq c { r with rsv := ((r.rsv : Int) + d).toNat } s

/-- Can a ring that reads reserve slots in completion queue `c`? -/
def cqRoom (s : State) (c : Nat) : Nat :=
  let r := ringOf s .cq c
  if ringRuns r then freeSlots r else 0

/-! ## Descriptor reads (R300, R319) -/

/-- Entries that the ring's limit still lets it fetch. `cover` is true while a frame waits for descriptors (R309). -/
def fetchLimit (s : State) (k : RingKind) (n : Nat) (r : Ring) (cover : Bool) : Nat :=
  match k with
  | .send => 32 - r.desc.length
  | .fill => if r.stopped && !cover then 0 else min 64 r.w.stop - r.desc.length
  | .cmd => if (tFind n s.hrd.cmd).isSome then 0 else 1
  | .cq => 0
  | .ntc => 0

/-- Entries from F to the next 512-byte boundary and to the end of the ring. -/
def spanLimit (r : Ring) : Nat := min (ceilDiv (512 - (r.w.base + 32 * r.f) % 512) 32) (ringSize r - r.f)

/-- Issue the descriptor read of a ring that is not idle, where it may (R300, R312). -/
def tryFetch (k : RingKind) (n : Nat) (cover : Bool) (s : State) : State :=
  let r := ringOf s k n
  if r.st != .running || r.rdN != 0 || r.quiescing.isSome || s.hrd.fenced.contains r.w.chan || !(domOn s domHP) then s
  else
    let want := min (fetchLimit s k n r cover) (spanLimit r)
    if want = 0 then s
    else
      let m := min want (cqRoom s r.w.cq)
      if m = 0 then countR 7 k n 1 s
      else
        cqReserve r.w.cq m
          (hostReads [⟨r.w.chan, rkey k n, r.w.base + 32 * r.f, 32 * m, ringOwner s k n, r.w.snoop, .desc k n⟩]
            (setRing k n { r with rdN := m, rescan := false } s))

/-- Rings that record into completion queue `c` and wait for slots fetch again. -/
def wakeReaders (c : Nat) (s : State) : State :=
  s.hrd.ring.foldl
    (fun s e =>
      let k := kindOf (e.1 / 4096)
      if (k == .send || k == .fill || k == .cmd) && e.2.w.cq == c && e.2.st == .running then tryFetch k (e.1 % 4096) false s
      else s) s

/-- A read has returned: bursts that wait are granted, and rings that wait for room read on. -/
def retryReads (s : State) : State :=
  s.hrd.ring.foldl
    (fun s e =>
      let k := kindOf (e.1 / 4096)
      if (k == .send || k == .fill || k == .cmd) && e.2.st == .running && e.2.rdN == 0 && 0 < cqRoom s e.2.w.cq then
        tryFetch k (e.1 % 4096) false s
      else s) (pumpReads s.hrd.rq.length s)

/-! ## Records (R310 to R315) -/

/-- Words of a completion record (Table 10-8). -/
def recWords (c : CRec) (ph : Bool) : List Word :=
  [w32 (b2n ph + c.kind * 2 + c.ring % 2048 * 2 ^ 3 + c.status % 64 * 2 ^ 14 + c.cause % 128 * 2 ^ 20 + b2n c.vtag * 2 ^ 27
      + b2n c.stampLost * 2 ^ 28 + b2n c.vtpid * 2 ^ 29 + c.ipck % 4 * 2 ^ 30),
   w32 (c.index % 2 ^ 16 + c.len % 2 ^ 14 * 2 ^ 16 + c.l4ck % 4 * 2 ^ 30), c.stamp, c.src ++ c.aux]

/-- A record of a kind, all other fields 0. -/
def CRec.mk0 (kind ring status cause index : Nat) : CRec :=
  { kind := kind, ring := ring, status := status, cause := cause, vtag := false, stampLost := false, vtpid := false,
    ipck := 0, index := index, len := 0, l4ck := 0, stamp := 0, aux := 0, src := 0 }

/-- Write a record into its completion queue, using a reserved slot; a queue that is disabled or halted discards it
(R330, R331). `none` while the queue holds as many entries as it has (R298). -/
def cqWrite (c : Nat) (x : CRec) (k : RingKind) (n : Nat) (s : State) : Option State :=
  let r := ringOf s .cq c
  if !(ringRuns r) then some (setRing .cq c { r with rsv := r.rsv - 1 } s)
  else if ringSize r ≤ used r then none
  else
    let q := advance r
    some (hostWrites [⟨r.w.chan, rkey .cq c, r.w.base + 16 * r.f, ringOwner s .cq c, wordBytes (recWords x r.ph), .record c k n⟩]
      (setRing .cq c { q with rsv := q.rsv - 1 } s))

/-- May a record be issued: it is ready, its cycle has come, the frame's last write has left the block, and its barrier is
acknowledged (R312 to R314)? -/
def recGoes (s : State) (k : RingKind) (n : Nat) (x : PendRec) : Bool :=
  x.ready && decide (x.due ≤ s.tim.now) && !(x.bar && x.acks != 0)
    && !(k == .fill && s.hrd.wq.any (fun w => w.use == .data n x.r.index))

/-- Is this the halt record of a send ring whose earlier descriptors have not all started: their records come before it (R312, R331)? -/
def haltWaits (k : RingKind) (r : Ring) (behind : List PendRec) : Bool :=
  k == .send && r.st == .halted && !r.desc.isEmpty && behind.isEmpty

/-- Issue the record at the head of a ring, if it may go. The frame completes in HRD (R474), and a transmit stamp leaves its queue
(R353). -/
def issueHead (k : RingKind) (n : Nat) (s : State) : State :=
  let r := ringOf s k n
  match r.recs with
  | [] => s
  | x :: t =>
    if !(recGoes s k n x) || haltWaits k r t then s
    else
      match cqWrite r.w.cq x.r k n s with
      | none => s
      | some s1 =>
        let s2 := setRing k n { ringOf s1 k n with recs := t } s1
        let s3 := match x.sq, x.frame with
          | some p, some f =>
            let u := tGet Upl.empty s2.upl p
            { s2 with upl := tSet Upl.empty s2.upl p { u with sq := tDel f u.sq } }
          | _, _ => s2
        match x.info with
        | some f => complete 4 f s3
        | none => s3

/-- Issue the records of a ring in order, as far as they may go (R312). -/
def issueRecs (k : RingKind) (n : Nat) : Nat → State → State
  | 0, s => s
  | fuel + 1, s =>
    let s1 := issueHead k n s
    if (ringOf s1 k n).recs.length < (ringOf s k n).recs.length then issueRecs k n fuel s1 else s1

/-- Issue what a ring's records allow now. -/
def issueNow (k : RingKind) (n : Nat) (s : State) : State := issueRecs k n (ringOf s k n).recs.length s

/-- Add a record to a ring's order. -/
def addRec (k : RingKind) (n : Nat) (x : PendRec) (s : State) : State :=
  let r := ringOf s k n
  setRing k n { r with recs := r.recs ++ [x] } s

/-- A record that is ready at once. -/
def readyRec (c : CRec) (due : Nat) : PendRec :=
  { r := c, ready := true, due := due, bar := false, acks := 0, frame := none, info := none, sq := none }

/-- Complete the running command of a partition (R322): its record, and the next command is fetched. -/
def completeCmd (p status cause result : Nat) (s : State) : State :=
  let r := ringOf s .cmd p
  let idx := match tFind p s.hrd.cmd with
    | some c => c.index
    | none => if r.f = 0 then ringSize r - 1 else r.f - 1
  let had := (tFind p s.hrd.cmd).isSome
  let x := { CRec.mk0 2 p status cause idx with
    stamp := w32 result, aux := BitVec.ofNat 16 (result / 2 ^ 32), src := BitVec.ofNat 16 (result / 2 ^ 48) }
  let s1 := { s with hrd := { s.hrd with cmd := tDel p s.hrd.cmd } }
  if !(ringRuns r) then s1
  else
    let s2 := if had then s1 else cqReserve r.w.cq 1 s1
    tryFetch .cmd p false (issueNow .cmd p (addRec .cmd p (readyRec x s.tim.now) s2))

/-! ## Halts and disables (R330, R331) -/

/-- Reads in flight: what they return is discarded, and their tags are held until it arrives. Bursts not yet granted are dropped. -/
def orphanReads (p : RdUse → Bool) (s : State) : State :=
  { s with hrd := { s.hrd with
      rq := s.hrd.rq.filter (fun x => !p x.use), rd := s.hrd.rd.filter (fun x => !p x.use),
      lateR := s.hrd.lateR ++ s.hrd.rd.filter (fun x => p x.use) } }

/-- The reads that a ring's doorbells still bring are dropped with its lap (Table 10-17). -/
def dropBells (k : RingKind) (n : Nat) (s : State) : State :=
  { s with hrd := { s.hrd with later := s.hrd.later.filter (fun e => e.2 != .bell k n) } }

/-- Is a read for this ring? -/
def readOf (k : RingKind) (n : Nat) (u : RdUse) : Bool :=
  match u with
  | .desc k' n' => k' == k && n' == n
  | .chain n' => k == .send && n' == n
  | .sendData n' _ _ => k == .send && n' == n
  | .operand p _ => k == .cmd && p == n
  | .image p _ => k == .cmd && p == n

/-- Is a write for this ring? -/
def writeOf (k : RingKind) (n : Nat) (u : WrUse) : Bool :=
  match u with
  | .data n' _ => k == .fill && n' == n
  | .record c _ _ => k == .cq && c == n
  | .notice p => k == .ntc && p == n
  | .scrap => false | .round _ => false | .sample => false

/-- A lap of a ring is abandoned (R330, R332): writes not yet granted are dropped, and the acknowledgements of the others concern
nothing any more. -/
def orphanWrites (k : RingKind) (n : Nat) (s : State) : State :=
  { s with hrd := { s.hrd with
      wq := s.hrd.wq.filter (fun x => !(writeOf k n x.use)),
      wr := s.hrd.wr.map fun x => if writeOf k n x.use then { x with use := .scrap } else x } }

/-- Sends of a ring that wait in staging cells, or in a section's handover, are discarded. -/
def dropStaged (n : Nat) (s : State) : State :=
  { s with
    hrd := { s.hrd with staged := s.hrd.staged.filter (fun g => g.ring != n) }
    skm := { s.skm with ho := s.skm.ho.map fun h => { h with held := h.held.filter (fun a => a.src != ⟨2, n⟩) } } }

/-- A frame that has started on an uplink and is withdrawn ends after this cycle's word, with a stomped FCS (R55, R330). -/
def cutSend (n : Nat) (s : State) : State :=
  (List.range 16).foldl
    (fun s p =>
      let u := uplOf s p
      if u.txFrame ≠ some n ∨ u.txEnd ≤ s.tim.now then s
      else
        emit (.upeCut p (u.txLen - (u.txEnd - s.tim.now) * uplBytes s p))
          (setUpl p { u with txEnd := s.tim.now + 1, busy := min u.busy (s.tim.now + 1 + ceilDiv 20 (uplBytes s p)) } (count1 (iUPL p) 12 s))) s

/-- Withdraw the frames of a send ring that have entered a section. -/
def withdrawSends (n : Nat) (s : State) : State :=
  s.qbm.frames.foldl
    (fun s e => match e.2.send with | some o => if o.ring = n then withdraw e.1 (cutSend e.1 (idleFrame e.1 s)) else s | none => s)
    (dropPipe (fun _ a => a.src == ⟨2, n⟩) s)

/-- Disable a ring (R330). Its object counters are undefined afterwards (log entry 3). A quiesce that runs completes with
FLUSHED (Table 10-17). -/
def disableRing (k : RingKind) (n : Nat) (s : State) : State :=
  let r := ringOf s k n
  if r.st == .disabled then s
  else
    let q := r.quiescing
    let s1 := setRing k n
      { r with
        w := { r.w with w0 := r.w.w0 &&& 0xFFFFFFFE }, wn := { r.wn with w0 := r.w.w0 &&& 0xFFFFFFFE }, st := .disabled, rdN := 0, rescan := false, quiescing := none,
        desc := [], jobs := [], stopped := false, recs := [], armd := false, fwait := none } s
    let s2 := orphanWrites k n (orphanReads (readOf k n) s1)
    let s3 := if k == .cq || k == .ntc then s2 else cqReserve r.w.cq (-(ringSlots s k n r : Int)) (dropBells k n s2)
    let s4 := match k with
      | .send => withdrawSends n (dropStaged n s3)
      | .fill => flushQueue (qFill n) s3
      | .cq => s3
      | .cmd => { s3 with hrd := { s3.hrd with cmd := tDel n s3.hrd.cmd } }
      | .ntc => s3
    let s5 := match k with
      | .send => (List.range 3).foldl (fun s e => useFree { s with cnt := { s.cnt with
          obj := tSet 0 s.cnt.obj ((3 * 131072 + n) * 4 + e) (freeNat s % 2 ^ 48) } }) s4
      | .fill => (List.range 3).foldl (fun s e => useFree { s with cnt := { s.cnt with
          obj := tSet 0 s.cnt.obj ((4 * 131072 + n) * 4 + e) (freeNat s % 2 ^ 48) } }) s4
      | .cq => s4
      | .cmd => s4
      | .ntc => s4
    match q with
    | some p => completeCmd p 16 0 0 s5
    | none => s5

/-- Record kind of Table 10-8 for a ring. -/
def recKind : RingKind → Nat
  | .send => 0 | .fill => 1 | .cmd => 2 | .cq => 3 | .ntc => 3

/-- Halt a ring (R331): its halt record, the RING_HALT notice and the ring fault. Earlier descriptors complete normally, and those
after the offending one are left to host software. With `has` set the offending descriptor has the record of its frame, which
carries the halt status itself (Table 10-17). -/
def haltAs (has : Bool) (k : RingKind) (n status cause idx addr acc : Nat) (s : State) : State :=
  let r := ringOf s k n
  if r.st == .disabled || r.st == .halted then s
  else
    let own := ringOwner s k n
    let q := r.quiescing
    let due := if k == .cmd then s.tim.now else s.tim.now + 32
    let x := readyRec (CRec.mk0 (recKind k) n status cause idx) due
    let reads := !has && (k == .send || k == .fill || k == .cmd)
    let isJob := k == .send && r.jobs.any (fun j => j.d.index == idx)
    -- what is behind the offending descriptor holds no slot any more; the halt record takes one
    let keep := if isJob then r.recs.takeWhile (fun y => y.r.index != idx || y.ready) else r.recs
    let r1 := { r with
      st := .halted, hstat := status, hindex := idx, rdN := 0, rescan := false, quiescing := none,
      desc := if k == .send && !isJob then r.desc else [], jobs := r.jobs.takeWhile (fun j => j.d.index != idx),
      recs := if reads then keep ++ [x] else r.recs }
    let s1 := setRing k n r1 s
    let s2 := if k == .send || k == .fill || k == .cmd then cqReserve r.w.cq ((reservedBy r1 : Int) - (ringSlots s k n r : Int)) s1 else s1
    let s3 := orphanReads (fun u => readOf k n u && (match u with
      | .sendData _ i _ => !(r1.jobs.any (fun j => j.d.index == i))
      | .chain _ => r1.jobs.all (·.ready)
      | .desc _ _ => true | .operand _ _ => true | .image _ _ => true)) s2
    let s4 := notice own (mkNotice s3 0x20 0 0 status 0 (w32 (kcode k + n * 8)) (w32 idx)) (countR 8 k n 1 s3)
    let s5 := fault 4 0 (w32 addr) acc 5 n own s4
    let s6 := if k == .cmd then
        issueNow .cmd n { s5 with hrd := { s5.hrd with cmd := tDel n s5.hrd.cmd } }
      else if reads then atCycle due (.record k n) s5 else s5
    match q with
    | some p => completeCmd p status cause 0 s6
    | none => s6

/-- A halt whose offending descriptor has no record yet. -/
def halt (k : RingKind) (n status cause idx addr acc : Nat) (s : State) : State := haltAs false k n status cause idx addr acc s

/-- A send's record takes a status and falls due (R314). -/
def setSendRec (n idx status cause : Nat) (s : State) : State :=
  let r := ringOf s .send n
  let l := r.recs.map fun x =>
    if x.r.index = idx ∧ !x.ready then
      { x with ready := true, due := s.tim.now + 32, r := { x.r with status := status, cause := cause } }
    else x
  atCycle (s.tim.now + 32) (.record .send n) (setRing .send n { r with recs := l } s)

/-- A read of a send has failed: the ring halts, or, where it has halted on a later descriptor, the send alone ends (R331). -/
def sendReadFail (n idx cause addr acc : Nat) (s : State) : State :=
  let r := ringOf s .send n
  if r.st != .halted then halt .send n 15 cause idx addr acc s
  else
    setSendRec n idx 15 cause
      (orphanReads (fun u => match u with
        | .sendData m i _ => m == n && i == idx
        | .chain m => m == n && r.jobs.any (fun j => j.d.index == idx && !j.ready)
        | .desc _ _ => false | .operand _ _ => false | .image _ _ => false)
        (setRing .send n { r with jobs := r.jobs.filter (fun j => j.d.index != idx) } s))

/-! ## Contexts (R294, R295, R332) -/

/-- Reserved bits of a context word (Table 10-2). -/
def ctxMask (i : Nat) : Word :=
  if i = 0 then 0x7FF81F else if i = 1 then 0xFFFFFFC0 else if i = 2 then 0xFFFFF else if i = 5 then 0xFFF else 0xFFFFFFFF

/-- A context with its reserved bits 0. -/
def cleanW6 (w : W6) : W6 :=
  ⟨w.w0 &&& ctxMask 0, w.w1 &&& ctxMask 1, w.w2 &&& ctxMask 2, w.w3 &&& ctxMask 3, w.w4 &&& ctxMask 4, w.w5 &&& ctxMask 5⟩

/-- First cause of R295 that refuses a context; 0 none. Causes 7 and 8 apply to RING_SET only. -/
def ringCause (s : State) (k : RingKind) (n : Nat) (w : W6) (set : Bool) : Nat :=
  let reads := k == .send || k == .fill || k == .cmd
  let own := ringOwner s k n
  let r := ringOf s k n
  if 10 < fld w.w0 1 4 then 1
  else if reads && (!(ringEn (ringOf s .cq w.cq)) || ringOwner s .cq w.cq != own) then 2
  else if k == .send && !w.side && 15 < w.anchor then 3
  else if k == .fill && w.priv != 0 && (own != 0 || w.priv == 3 || (w.priv == 1 && s.hrd.ring.any (fun e =>
      4096 ≤ e.1 && e.1 < 6144 && e.1 != 4096 + n && ringEn e.2 && e.2.w.priv == 1 && ringOwner s .fill (e.1 - 4096) == 0))) then 4
  else if (k == .send || k == .fill) && (w.maxlen < 64 || 16000 < w.maxlen) then 5
  else if (k == .send || k == .fill) && (w.stop ≤ w.start || (k == .fill && 64 < w.stop)) then 6
  else if set && ringEn r && r.st != .quiesced && r.st != .halted then 7
  else if set && k == .cq && s.hrd.ring.any (fun e =>
      (e.1 / 4096 == 0 || e.1 / 4096 == 1 || e.1 / 4096 == 3) && ringEn e.2 && e.2.w.cq == n) then 8
  else 0

/-- Frames of an old lap of a send ring no longer belong to its records (R332). -/
def detachSends (n : Nat) (s : State) : State :=
  let off := fun (o : Option SendOpt) => o.map fun o => if o.ring = n then { o with ring := 4095 } else o
  { s with
    qbm := { s.qbm with frames := s.qbm.frames.map fun e => (e.1, { e.2 with send := off e.2.send }) }
    skm := { s.skm with ho := s.skm.ho.map fun h => { h with held := h.held.map fun a => { a with send := off a.send } } } }

/-- A ring takes a new context: with EN it starts at index 0 with phase 1, without it is disabled. What the old lap left is
abandoned (R332); a completion queue still owes the slots that its rings have reserved. A changed MAXLEN waits for the next tick boundary
(R161). DESIGN CHOICE (log entry 31): the first MAXLEN that a ring is given changes none, and is in force at once. -/
def startRing (k : RingKind) (n : Nat) (w : W6) (s : State) : State :=
  let r := ringOf s k n
  let s1 := orphanWrites k n (orphanReads (readOf k n) s)
  let s2 := if k == .cq || k == .ntc then s1 else cqReserve r.w.cq (-(ringSlots s k n r : Int)) (dropBells k n s1)
  let s3 := setRing k n { Ring.empty with
    w := w, wn := w, st := if w.en then .idle else .disabled, ph := w.en, rsv := if k == .cq then r.rsv else 0,
    maxl := if s.tim.started && r.maxl != 0 then r.maxl else w.maxlen } s2
  let s4 := if k == .cmd then { s3 with hrd := { s3.hrd with cmd := tDel n s3.hrd.cmd } } else s3
  let s5 := if k == .send then detachSends n (dropStaged n s4) else s4
  let s6 := if k == .ntc then ntcDrain n 32 s5 else s5
  if k == .fill && !w.en then flushQueue (qFill n) s6 else s6

/-- A context with one word replaced. -/
def W6.put (i : Nat) (d : Word) (w : W6) : W6 :=
  match i with
  | 0 => { w with w0 := d } | 1 => { w with w1 := d } | 2 => { w with w2 := d } | 3 => { w with w3 := d }
  | 4 => { w with w4 := d } | _ => { w with w5 := d }

/-- A write of a context word through HRD_RCTX (R294, R332): words 1 to 5 of a halted ring wait for word 0. -/
def rctxWrite (k : RingKind) (n i : Nat) (data : Word) (s : State) : State :=
  let r := ringOf s k n
  if kcount k ≤ n ∨ (ringEn r && r.st != .halted) = true then s
  else
    let w := W6.put i (data &&& ctxMask i) r.wn
    if i ≠ 0 then setRing k n { r with wn := w, w := if r.st == .halted then r.w else w } s
    else if w.en && ringCause s k n w false == 0 then startRing k n w s
    else startRing k n { w with w0 := w.w0 &&& 0xFFFFFFFE } s
def execRingContextWrite (part : BitVec 6) (kind : RingKind) (ring : BitVec 11) (word : Fin 6) (data : Word) (s : State) :
    Outcome :=
  .next (p0Write part 0xF (rctxWrite kind ring.toNat word.val data) (begin_ s))

/-- HRD_CH of a channel (R316, R425): PRIO, and the end of a fence once the fault is cleared. -/
def chanWrite (c : Nat) (data : Word) (s : State) : State :=
  let s1 := setReg (pageHRD + 0x7800 + 4 * c) (data &&& 7) s
  if bit (fltOf s1 4).st 1 then s1 else { s1 with hrd := { s1.hrd with fenced := s1.hrd.fenced.filter (· != c) } }
def execChannelConfigWrite (part : BitVec 6) (chan : Byte) (data : Word) (s : State) : Outcome :=
  .next (p0Write part 0xF (chanWrite chan.toNat data) (begin_ s))

/-- A write of HRD_RDIS register `j` of a kind (R330): each bit is checked on its own, and one violation counts. -/
def rdisWrite (p : Nat) (k : RingKind) (j : Nat) (data : Word) (s : State) : State :=
  let l := ((List.range 32).filter (bit data ·)).map (32 * j + ·) |>.filter (· < kcount k)
  let s1 := if l.all (ownsRing s p k) then s else partViol p s
  (l.filter (ownsRing s p k)).foldl (fun s n => disableRing k n s) s1

/-- Registers of HRD_RDIS that a kind has. -/
def rdisCount : RingKind → Nat
  | .send => 64 | .fill => 64 | .cq => 32 | .cmd => 0 | .ntc => 0

def execRingDisable (part : BitVec 6) (kind : RingKind) (reg : BitVec 6) (data : Word) (s : State) : Outcome :=
  let s0 := begin_ s
  .next (if s0.glb.phase = 4 ∧ reg.toNat < rdisCount kind then rdisWrite part.toNat kind reg.toNat data s0 else s0)

/-! ## Doorbells (R299, R300, R315) -/

/-- A doorbell of a ring that host software writes: the read that answers it is issued 18 cycles later (R303). -/
def ringBell (k : RingKind) (n : Nat) (s : State) : State :=
  let r := ringOf s k n
  if !(ringRuns r) || r.quiescing.isSome then s
  else if r.rdN ≠ 0 then setRing k n { r with rescan := true } s
  else atCycle (s.tim.now + 18) (.bell k n) s

/-- The ring wakes (R300). -/
def bellTurn (k : RingKind) (n : Nat) (s : State) : State :=
  let r := ringOf s k n
  if !(ringRuns r) || r.quiescing.isSome then s
  else if r.rdN ≠ 0 then setRing k n { r with rescan := true } s
  else tryFetch k n false (setRing k n { r with st := .running } s)

/-- Writes of a completion queue or notice ring that are not yet acknowledged. -/
def unseen (s : State) (k : RingKind) (n : Nat) : Nat :=
  (s.hrd.wr.filter (fun x => match x.use with
    | .record c _ _ => k == .cq && c == n
    | .notice p => k == .ntc && p == n
    | .data _ _ => false | .scrap => false | .round _ => false | .sample => false)).length
    + (s.hrd.wq.filter (fun x => x.ring == rkey k n)).length

/-- A consumer doorbell: it returns slots, and arms or fires the interrupt. -/
def consBell (k : RingKind) (n : Nat) (data : Word) (s : State) : State :=
  let r := ringOf s k n
  if !(ringRuns r) then s
  else
    let size := ringSize r
    let ci := fld data 0 17
    let ok := decide (ci < 2 * size) && decide ((ci + 2 * size - r.ci) % (2 * size) ≤ used r)
    let s1 := if ok then setRing k n { r with ci := ci } s else countR 5 k n 1 s
    let r1 := ringOf s1 k n
    let s2 :=
      if bit data 31 then
        if unseen s1 k n < used r1 then irq r1.w.vec (ringOwner s1 k n) (setRing k n { r1 with armd := false } s1)
        else setRing k n { r1 with armd := true } s1
      else s1
    if !ok then s2 else if k == .cq then wakeReaders n s2 else ntcDrain n 32 s2

/-- A doorbell of any kind, with HP ON. -/
def bell (k : RingKind) (n : Nat) (data : Word) (s : State) : State :=
  if k == .cq || k == .ntc then consBell k n data s else ringBell k n s

/-- A doorbell write (R299, R333): ignored before READY, for a ring that does not exist or that the writer does not own; held
with a wake event while HP is not ON. -/
def doorbell (p : Nat) (k : RingKind) (n : Nat) (data : Word) (s : State) : State :=
  if s.glb.phase ≠ 4 ∨ kcount k ≤ n then s
  else if !(ownsRing s p k n) then partViol p s
  else if !(domOn s domHP) then wake domHP 3 { s with hrd := { s.hrd with held := s.hrd.held ++ [(p, k, n, data)] } }
  else bell k n data s
def execRingDoorbell (part : BitVec 6) (kind : RingKind) (ring : BitVec 11) (s : State) : Outcome :=
  .next (if kind == .cq || kind == .ntc then begin_ s else doorbell part.toNat kind ring.toNat 0 (begin_ s))
def execConsumerDoorbell (part : BitVec 6) (kind : RingKind) (ring : BitVec 11) (data : Word) (s : State) : Outcome :=
  .next (if kind == .cq || kind == .ntc then doorbell part.toNat kind ring.toNat data (begin_ s) else begin_ s)

/-! ## Descriptors arrive (R297, R300, R307) -/

/-- Remove an outstanding read; its tag comes free. -/
def dropRead (ch tag : Nat) (s : State) : State :=
  { s with hrd := { s.hrd with rd := s.hrd.rd.filter (fun x => !(x.chan == ch && x.tag == tag)) } }

/-- The outstanding read of a tag. -/
def readAt (s : State) (ch tag : Nat) : Option HRead := s.hrd.rd.find? (fun x => x.chan == ch && x.tag == tag)

/-- A response for a tag on which no read is outstanding: the late response of a read that timed out is discarded and releases its
tag (R331); any other is a stray one (Table 13-4). -/
def strayRead (ch tag : Nat) (s : State) : State :=
  if s.hrd.lateR.any (fun x => x.chan == ch && x.tag == tag) then
    retryReads { s with hrd := { s.hrd with lateR := s.hrd.lateR.filter (fun x => !(x.chan == ch && x.tag == tag)) } }
  else fault 4 3 (w32 (tag + ch * 2 ^ 9)) 1 0 0 0 s

/-- Is a fill descriptor bad (R307)? -/
def fillBad (r : Ring) (w : List Word) : Bool :=
  let size := fld (w.getD 1 0) 0 16
  decide (size < 256) || (r.w.priv != 0 && decide (size < r.maxl - 4))

/-- Known command opcodes (Table 10-12). -/
def knownOp (op : Nat) : Bool :=
  [0x01, 0x02, 0x03, 0x10, 0x11, 0x20, 0x21, 0x22, 0x23, 0x24, 0x25, 0x26, 0x27, 0x28, 0x30, 0x31, 0x32, 0x33, 0x40, 0x41, 0x42,
   0x43, 0x50].contains op

/-- What taking the entries of a read ended on. -/
inductive TakeEnd where
  | all                          -- the read's boundary
  | notOwned                     -- an entry that is not the block's
  | bad (index : Nat)            -- a bad fill descriptor
deriving DecidableEq, Repr

/-- Take the entries of a read in index order. -/
def takeDescs (k : RingKind) : Nat → List Word → Ring → Ring × TakeEnd
  | 0, _, r => (r, .all)
  | m + 1, ws, r =>
    let w := ws.take 8
    if bit (w.getD 0 0) 0 != r.ph then (r, .notOwned)
    else if k == .fill && fillBad r w then (advance r, .bad r.f)
    else takeDescs k m (ws.drop 8) (advance { r with desc := r.desc ++ [⟨r.f, w⟩] })

/-- The level of a fill ring against its marks (R319). -/
def fillPace (r : Ring) : Ring :=
  if r.w.stop ≤ r.desc.length then { r with stopped := true }
  else if r.desc.length ≤ r.w.start then { r with stopped := false } else r

/-- A taken command becomes the running one; an unknown opcode completes with CMD_BAD. -/
def startCmd (p : Nat) (s : State) : State :=
  let r := ringOf s .cmd p
  match r.desc with
  | [] => s
  | d :: _ =>
    let s1 := setRing .cmd p { r with desc := [] }
      { s with hrd := { s.hrd with cmd := tPut p ⟨d.index, none, d.w, [], []⟩ s.hrd.cmd } }
    if knownOp (fld (d.w.getD 0 0) 8 8) then s1 else completeCmd p 42 0 0 s1

/-- The descriptor or command read of a ring returns (R300). -/
def descDone (k : RingKind) (n addr : Nat) (words : List Word) (err : Bool) (s : State) : State :=
  let r := ringOf s k n
  if err then halt k n 15 2 r.f addr 1 s
  else
    let t := if r.quiescing.isSome then (r, TakeEnd.notOwned) else takeDescs k r.rdN words r
    let taken := t.1.desc.length - r.desc.length
    let s1 := cqReserve r.w.cq (-((r.rdN - taken : Nat) : Int))
      (setRing k n (fillPace { t.1 with
        rdN := 0, rescan := false, st := if t.2 == .notOwned && !r.rescan then .idle else .running }) s)
    let s2 := if k == .cmd then startCmd n s1 else s1
    match t.2 with
    | .bad i => halt k n 14 0 i 0 0 s2
    | .notOwned => if r.rescan then tryFetch k n false s2 else s2
    | .all => tryFetch k n false s2

/-- DESCRIPTOR_FETCH_DONE: the response on a tag of a host-memory-port channel. -/
def descFetch (ch tag : Nat) (words : List Word) (err : Bool) (s : State) : State :=
  match readAt s ch tag with
  | none => strayRead ch tag s
  | some x =>
    match x.use with
    | .desc k n => retryReads (descDone k n x.addr words err (dropRead ch tag s))
    | .chain _ => s | .sendData _ _ _ => s | .operand _ _ => s | .image _ _ => s
def execDescriptorFetchDone (chan : Fin 2) (tag : BitVec 9) (words : List Word) (err : Bool) (s : State) : Outcome :=
  .next (descFetch chan.val tag.toNat words err (begin_ s))

/-! ## Writes are acknowledged, accesses time out (R313, R315, R320, R331) -/

/-- A record or notice of ring `n` is visible: an armed ring sends its message and disarms. -/
def seen (k : RingKind) (n : Nat) (s : State) : State :=
  let r := ringOf s k n
  if r.armd then irq r.w.vec (ringOwner s k n) (setRing k n { r with armd := false } s) else s

/-- Write tags have come free: bursts that wait are granted, and records and Milk Round groups go on. -/
def tagFreed (s : State) : State :=
  let s1 := pumpWrites s.hrd.wq.length s
  let s2 := s1.hrd.ring.foldl (fun s e => if e.2.recs.isEmpty then s else issueNow (kindOf (e.1 / 4096)) (e.1 % 4096) s) s1
  mrFlush 1025 s2

/-- A data write of a frame is acknowledged, or failed: its record falls due 8 cycles after the last, where it has a barrier (R313). -/
def dataAck (ring idx : Nat) (err : Bool) (addr : Nat) (s : State) : State :=
  let r := ringOf s .fill ring
  let upd := fun (x : PendRec) =>
    if x.r.index = idx ∧ 0 < x.acks then
      { x with
        acks := x.acks - 1, due := if x.acks = 1 ∧ x.bar = true then max x.due (s.tim.now + 8) else x.due,
        r := if err then { x.r with status := 15, cause := 2 } else x.r }
    else x
  let s1 := atCycle (s.tim.now + 8) (.record .fill ring) (setRing .fill ring { r with recs := r.recs.map upd } s)
  if err then haltAs true .fill ring 15 2 idx addr 2 s1 else s1

/-- HMP_WA of a write (R320). -/
def hostWriteAck (ch tag : Nat) (err : Bool) (s : State) : State :=
  match s.hrd.wr.find? (fun x => x.chan == ch && x.tag == tag) with
  | none =>
    if s.hrd.lateW.any (fun x => x.chan == ch && x.tag == tag) then
      tagFreed { s with hrd := { s.hrd with lateW := s.hrd.lateW.filter (fun x => !(x.chan == ch && x.tag == tag)) } }
    else fault 4 3 (w32 (tag + ch * 2 ^ 9)) 2 0 0 0 s
  | some x =>
    let s1 := { s with hrd := { s.hrd with wr := s.hrd.wr.filter (fun y => !(y.chan == ch && y.tag == tag)) } }
    let s2 := match x.use with
      | .data r f => dataAck r f err x.addr s1
      | .record c _ _ => if err then halt .cq c 15 2 (ringOf s1 .cq c).f x.addr 2 s1 else seen .cq c s1
      | .notice p => if err then halt .ntc p 15 2 (ringOf s1 .ntc p).f x.addr 2 s1 else seen .ntc p s1
      | .round q => if err then mrFail q x.addr 2 s1 else s1
      | .sample => s1
      | .scrap => s1
    tagFreed s2
def execHostWriteAck (chan : Fin 2) (tag : BitVec 9) (err : Bool) (s : State) : Outcome :=
  .next (hostWriteAck chan.val tag.toNat err (begin_ s))

/-- Cycles without a response after which an access has failed (R331). -/
def accessLimit : Nat := 20000

/-- Index of a send ring's job that walks its chain. -/
def chainIndex (s : State) (n : Nat) : Nat :=
  match (ringOf s .send n).jobs.find? (fun j => !j.ready) with
  | some j => j.d.index
  | none => (ringOf s .send n).f

/-- No response within 20,000 cycles (R331); before that the command has no effect. A Milk Round write has a row of its own. -/
def accessTimeout (write : Bool) (ch tag : Nat) (s : State) : State :=
  if write then
    match s.hrd.wr.find? (fun x => x.chan == ch && x.tag == tag) with
    | none => s
    | some x =>
      if s.tim.now < x.at_ + accessLimit then s else
      let s1 := { s with hrd := { s.hrd with
        wr := s.hrd.wr.filter (fun y => !(y.chan == ch && y.tag == tag)), lateW := s.hrd.lateW ++ [x] } }
      match x.use with
      | .data r f =>
        let l := (ringOf s .fill r).recs.map fun y =>
          if y.r.index = f ∧ 0 < y.acks then { y with acks := 0, r := { y.r with status := 15, cause := 1 } } else y
        issueNow .fill r (haltAs true .fill r 15 1 f x.addr 6 (setRing .fill r { ringOf s .fill r with recs := l } s1))
      | .record c _ _ => halt .cq c 15 1 (ringOf s .cq c).f x.addr 6 s1
      | .notice p => halt .ntc p 15 1 (ringOf s .ntc p).f x.addr 6 s1
      | .round _ => s
      | .sample => s1
      | .scrap => s1
  else
    match readAt s ch tag with
    | none => s
    | some x =>
      if s.tim.now < x.at_ + accessLimit then s else
      let late := fun (s : State) => orphanReads (fun u => u == x.use) s
      match x.use with
      | .desc k n => halt k n 15 1 (ringOf s k n).f x.addr 6 (late s)
      | .chain n => sendReadFail n (chainIndex s n) 1 x.addr 6 (late s)
      | .sendData n i _ => sendReadFail n i 1 x.addr 6 (late s)
      | .operand p _ => halt .cmd p 15 1 (match tFind p s.hrd.cmd with | some c => c.index | none => 0) x.addr 6 (late s)
      | .image p _ => halt .cmd p 15 1 (match tFind p s.hrd.cmd with | some c => c.index | none => 0) x.addr 6 (late s)
def execHostAccessTimeout (write : Bool) (chan : Fin 2) (tag : BitVec 9) (s : State) : Outcome :=
  .next (accessTimeout write chan.val tag.toNat (begin_ s))

/-- State code of HRD_RST (R331). -/
def rstCode : RState → Nat
  | .disabled => 0 | .running => 1 | .idle => 2 | .quiesced => 3 | .halted => 4

end Sys2Proof.Machine
end

