-- ==== Sys2Proof/Machine/HostPath.lean ====
section
/-!
DEFINITION. Host sends and fill delivery: descriptors, segment lists, send checks, staging, the ring loop, and the
delivery of frames into fill rings (R168 to R173, R187 to R194, R230, R248, R256, R304 to R309, R318, R319, R506).
-/

namespace Sys2Proof.Machine

/-! ## Send descriptors (Table 10-5) -/

def sdSgl (d : Desc) : Bool := bit (d.word 0) 1
def sdPad (d : Desc) : Bool := bit (d.word 0) 2
def sdIpck (d : Desc) : Bool := bit (d.word 0) 3
def sdL4ck (d : Desc) : Bool := bit (d.word 0) 4
def sdVins (d : Desc) : Bool := bit (d.word 0) 7
def sdTpid (d : Desc) : Nat := if bit (d.word 0) 8 then 0x88A8 else 0x8100
def sdDirect (d : Desc) : Bool := bit (d.word 0) 9
def sdDport (d : Desc) : Nat := fld (d.word 0) 10 4
def sdTsreq (d : Desc) : Bool := bit (d.word 0) 15
def sdTci (d : Desc) : Nat := fld (d.word 0) 16 16
def sdHdr (d : Desc) : Nat := fld (d.word 1) 19 9
def sdMss (d : Desc) : Nat := fld (d.word 2) 0 14
def sdAddr (d : Desc) : Nat := (d.word 4).toNat + 2 ^ 32 * fld (d.word 5) 0 20

/-- SEG, where 3 is taken as 0. -/
def sdSeg (d : Desc) : Nat := let x := fld (d.word 0) 5 2; if x = 3 then 0 else x

/-- The fill ring that a running ring loop turns a send ring to (R506). -/
def ringLoop (s : State) (n : Nat) : Option Nat :=
  (s.tst.loop.find? (fun e => e.2.depth == 1 && e.2.inst == n)).map (·.2.peer)

/-- Bytes that a tag insert adds before the checks of R171 (R187); a ring loop inserts none (R506). -/
def sdExtra (s : State) (n : Nat) (d : Desc) : Nat := if sdVins d && (ringLoop s n).isNone then 4 else 0

/-- The checks that need no data: status and cause of the rejection (R171, causes 1 to 3 of Table 6-8); status 0 none. -/
def sendCheck (s : State) (n : Nat) (d : Desc) : Nat × Nat :=
  let x := sdExtra s n d
  let l := sdL d + x
  let maxlen := (ringOf s .send n).maxl
  let seg := sdSeg d ≠ 0
  if l < 14 ∨ (l + 4 < 64 ∧ !sdPad d) then (8, 0)
  else if maxlen < l + 4 ∧ ¬seg then (9, 0)
  else if ¬seg ∨ (ringLoop s n).isSome then (0, 0)
  else if 262144 < sdL d then (11, 1)
  else if sdMss d < 64 ∨ 16000 < sdMss d ∨ maxlen < sdHdr d + x + sdMss d + 4 then (11, 2)
  else if sdHdr d + x < 42 ∨ 256 < sdHdr d + x then (11, 3)
  else (0, 0)

/-! ## Jobs -/

/-- Bytes of a send that have returned. -/
def SendJob.have (j : SendJob) : Nat := j.got.foldl (fun n g => n + g.2.length) 0

/-- Cells of a ring's staging queue: fetched data that has not entered its section (R319). -/
def stagingLevel (s : State) (n : Nat) : Nat :=
  let held := s.skm.ho.foldl (fun c h => (h.held.filter (fun a => a.src == ⟨2, n⟩)).foldl (fun c a => c + cellsFor a.bytes.length) c) 0
  let staged := (s.hrd.staged.filter (fun g => g.ring == n)).foldl (fun c g => c + cellsFor g.bytes.length) 0
  (ringOf s .send n).jobs.foldl (fun c j => c + ceilDiv j.have 256) (held + staged)

/-- Bursts of `n` bytes from an address (R317). -/
def bursts : Nat → Nat → Nat → List (Nat × Nat)
  | 0, _, _ => []
  | fuel + 1, a, n =>
    if n = 0 then [] else (a, min n (512 - a % 512)) :: bursts fuel (a + min n (512 - a % 512)) (n - min n (512 - a % 512))

/-- The bursts of a list of segments, each with its offset in the frame that they make up (R318). -/
def segBursts : Nat → List (Nat × Nat) → List (Nat × Nat × Nat)
  | _, [] => []
  | off, (a, n) :: l => (bursts (n / 512 + 2) a n).map (fun b => (off + (b.1 - a), b.1, b.2)) ++ segBursts (off + n) l

/-- The bytes of pieces in order of their offsets. -/
def joined (l : List (Nat × List Byte)) : List Byte :=
  (l.foldl (fun (a : List (Nat × List Byte)) x =>
    a.takeWhile (fun y => y.1 ≤ x.1) ++ x :: a.dropWhile (fun y => y.1 ≤ x.1)) []).flatMap (·.2)

/-- Change the job of a send ring with a descriptor index. -/
def modJob (n idx : Nat) (f : SendJob → SendJob) (s : State) : State :=
  let r := ringOf s .send n
  setRing .send n { r with jobs := r.jobs.map fun j => if j.d.index = idx then f j else j } s

/-- Remove a send ring's job. -/
def dropJob (n idx : Nat) (s : State) : State :=
  setRing .send n { ringOf s .send n with jobs := (ringOf s .send n).jobs.filter (fun j => j.d.index != idx) } s

/-- A send is rejected: its record carries the status, the ring goes on (R171). -/
def rejectSend (n : Nat) (d : Desc) (status cause : Nat) (s : State) : State :=
  objAdd 3 n 2 1 (setSendRec n d.index status cause (dropJob n d.index s))

/-- A job's chain is known: it is checked, and its data fetch starts (R306). -/
def startData (n : Nat) (j : SendJob) (s : State) : State :=
  let r := ringOf s .send n
  let c := sendCheck s n j.d
  if c.1 ≠ 0 then rejectSend n j.d c.1 c.2 s
  else
    hostReads ((segBursts 0 j.segs).map fun b =>
      ⟨r.w.chan, rkey .send n, b.2.1, b.2.2, ringOwner s .send n, r.w.snoop, .sendData n j.d.index b.1⟩)
      (modJob n j.d.index (fun j => { j with ready := true, fetching := true }) s)

/-- Read the segment-list entries from an address to the end of its 64-byte beat. -/
def chainRead (n addr : Nat) (s : State) : State :=
  let r := ringOf s .send n
  hostReads [⟨r.w.chan, rkey .send n, addr, 64 - addr % 64, ringOwner s .send n, r.w.snoop, .chain n⟩] s

/-- The pace of a send ring (R319). -/
def sendPace (s : State) (n : Nat) (r : Ring) : Bool :=
  let level := stagingLevel s n
  if r.w.stop ≤ level then true else if level ≤ r.w.start then false else r.stopped

/-- Does the anchor of a send ring have a section to send to? -/
def anchorWorks (s : State) (n : Nat) : Bool :=
  let w := (ringOf s .send n).w
  (ringLoop s n).isSome || !((if w.side then lostTree s w.anchor else lostPort s w.anchor) || handingFrom s (anchorHome s n))

/-- A send ring's staging level has changed (R319). -/
def paceSend (n : Nat) (s : State) : State :=
  let r := ringOf s .send n
  let now := sendPace s n r
  if r.stopped = now then s else setRing .send n { r with stopped := now } s

/-- A send's record joins its ring's order: of a halted ring, before the halt record (R312, R331). -/
def joinRec (r : Ring) (x : PendRec) : List PendRec :=
  if r.st == .halted then r.recs.dropLast ++ [x] ++ r.recs.drop (r.recs.length - 1) else r.recs ++ [x]

/-- A send ring starts its next frame (R248, R319), unless its staging level, the free cells or its section hold it
back. A halted ring still starts what it fetched before the offending descriptor (R331). A chain is walked before the next send
starts. -/
def sendStart (n : Nat) (s : State) : State :=
  let r := ringOf s .send n
  match r.desc with
  | [] => s
  | d :: t =>
    let stopped := sendPace s n r
    let s0 := setRing .send n { r with stopped := stopped } s
    if !(ringRuns r || r.st == .halted) || stopped || !(anchorWorks s n) || !(r.jobs.all (·.ready)) || s.hrd.fenced.contains r.w.chan
        || !(domOn s domHP) || decide (freeCells s ≤ hdrm s + ceilDiv (sdL d) 256) then s0
    else
      let rec0 : PendRec :=
        { r := CRec.mk0 0 n 0 0 d.index, ready := false, due := 0, bar := false, acks := 0, frame := none, info := none, sq := none }
      let job : SendJob := ⟨d, if sdSgl d then [] else [(sdAddr d, sdL d)], 0, !(sdSgl d), false, [], none⟩
      let s1 := setRing .send n { r with stopped := stopped, desc := t, jobs := r.jobs ++ [job], recs := joinRec r rec0 } s
      tryFetch .send n false (if sdSgl d then chainRead n (sdAddr d / 16 * 16) s1 else startData n job s1)
def execSendFrameStart (ring : BitVec 11) (s : State) : Outcome := .next (sendStart ring.toNat (begin_ s))

/-! ## Segment lists (R305, R306) -/

/-- How reading some entries of a chain ends. -/
inductive ChainEnd where
  | more | link (addr : Nat) | done | bad | long
deriving DecidableEq, Repr

/-- Walk the entries of a read: segments found, entries read, and the end. -/
def walkChain : Nat → List Word → List (Nat × Nat) → Nat → List (Nat × Nat) × Nat × ChainEnd
  | 0, _, segs, k => (segs, k, .more)
  | n + 1, ws, segs, k =>
    if ws.length < 4 then (segs, k, .more)
    else
      let a := (ws.getD 0 0).toNat + 2 ^ 32 * fld (ws.getD 1 0) 0 20
      let w2 := ws.getD 2 0
      let len := fld w2 0 16
      let isLink := bit w2 30
      if !isLink && len == 0 then (segs, k + 1, .bad)
      else
        let segs1 := if isLink then segs else segs ++ [(a, len)]
        if bit w2 31 then (segs1, k + 1, .done)
        else if 64 ≤ k + 1 then (segs1, k + 1, .long)
        else if isLink then (segs1, k + 1, .link (a / 16 * 16))
        else walkChain n (ws.drop 4) segs1 (k + 1)

/-- Entries of a segment-list read return for the job that walks its chain. -/
def chainDone (n addr : Nat) (words : List Word) (err : Bool) (j : SendJob) (s : State) : State :=
  let idx := j.d.index
  if err then sendReadFail n idx 2 addr 1 s
  else
    let w := walkChain ((64 - addr % 64) / 16) words j.segs j.walked
    let s1 := modJob n idx (fun j => { j with segs := w.1, walked := w.2.1 }) s
    match w.2.2 with
    | .more => chainRead n (addr + 16 * (w.2.1 - j.walked)) s1
    | .link a => chainRead n a s1
    | .bad => halt .send n 14 0 idx 0 0 s1
    | .long => halt .send n 13 0 idx 0 0 s1
    | .done =>
      if (w.1.foldl (fun a g => a + g.2) 0) ≠ sdL j.d then rejectSend n j.d 12 0 s1
      else startData n { j with segs := w.1, walked := w.2.1 } s1

/-- CHAIN_FETCH_DONE. -/
def chainFetch (ch tag : Nat) (words : List Word) (err : Bool) (s : State) : State :=
  match readAt s ch tag with
  | none => strayRead ch tag s
  | some x =>
    match x.use with
    | .chain n =>
      let s1 := dropRead ch tag s
      retryReads (match (ringOf s .send n).jobs.find? (fun j => !j.ready) with
        | some j => chainDone n x.addr words err j s1
        | none => s1)
    | .desc _ _ => s | .sendData _ _ _ => s | .operand _ _ => s | .image _ _ => s
def execChainFetchDone (acc : HmpTag) (words : List Word) (err : Bool) (s : State) : Outcome :=
  .next (chainFetch acc.chan.val acc.tag.toNat words err (begin_ s))

/-! ## Send data (R171, R187, R191, R192, R200, R318) -/

/-- The frame that a descriptor asks for, with the tag inserted and padded; `none` where it already carries two tags. -/
def sendBytes (d : Desc) (vins : Bool) (b : List Byte) : Option (List Byte) :=
  if vins && tagCount b == 2 then none
  else
    let b1 := if vins then insertTag (sdTpid d) (sdTci d) b else b
    some (if sdPad d then b1 ++ List.replicate (60 - b1.length) 0 else b1)

/-- An arrival for a host send. -/
def sendArrive (s : State) (n : Nat) (b : List Byte) (o : SendOpt) : Arrive :=
  { up := (ringOf s .send n).w.side, src := ⟨2, n⟩, bytes := b, n := b.length + 4, mark := .good, stamp := s.tim.time,
    tid := 0, hnd := 0, maxlen := (ringOf s .send n).maxl, lenField := if b.length + 4 ≤ 512 then b.length + 4 else 0xFFFF,
    lenKnown := true, looped := false, send := some o, part := some (ringOwner s .send n), last := s.tim.now, page := none, frame := none, again := false }

/-- A frame enters the ring loop: into the peer's delivery queue, unclassified (R506). -/
def loopSend (n peer : Nat) (b : List Byte) (o : SendOpt) (s : State) : State :=
  let a := { sendArrive s n b o with looped := true }
  let f0 := arriveFrame s a CRes.none_
  match storeFrame 19 f0 s with
  | none => sendDone 0 f0 (bufExhaust 19 5 n s)
  | some (k, s1) =>
    let f := cellsFor b.length
    freeUnheld k (count1 11 0 (admitTo (qFill peer) (ringOwner s .send n) k 0 f f s1).1)

/-- May a staged send enter its section now: no handover holds the section, and neither replay nor edge traffic has taken the word
that passes (R26)? The Bool of the answer says that the section is only busy. -/
def stageReady (s : State) (n : Nat) : Bool × Bool :=
  let w := (ringOf s .send n).w
  let i := anchorHome s n
  let works := anchorWorks s n
  let free := decide ((tGet Sec.empty s.skm.sec (secKey i w.side)).at_ ≤ s.tim.now)
  (works && free, works && !free)

/-- A staged send enters its section, and counts. -/
def stageEnter (g : Staged) (s : State) : State :=
  let s1 := countR 0 .send g.ring 1 (countR 1 .send g.ring g.bytes.length (objAdd 3 g.ring 0 1 (objAdd 3 g.ring 1 g.bytes.length s)))
  match ringLoop s g.ring with
  | some peer => loopSend g.ring peer g.bytes g.opt s1
  | none => paceSend g.ring (ingress (sendArrive s g.ring g.bytes g.opt) g.ue s1)

/-- Staged sends enter as far as their sections have words free; what finds its section busy goes on when it is free. -/
def stageRun (s : State) : State :=
  s.hrd.staged.foldl
    (fun s g =>
      let go := stageReady s g.ring
      if (ringLoop s g.ring).isSome || go.1 then
        stageEnter g { s with hrd := { s.hrd with staged := s.hrd.staged.erase g } }
      else if go.2 then
        let c := (tGet Sec.empty s.skm.sec (secKey (anchorHome s g.ring) (ringOf s .send g.ring).w.side)).at_
        if s.hrd.later.contains (c, .stage) then s else atCycle c .stage s
      else s) s

/-- The data of a send has arrived: the frame is checked, and stands in staging cells. What only the frame's bytes show is found here
(R187, R192; log entry 31). -/
def sendStage (n : Nat) (j : SendJob) (s : State) : State :=
  let d := j.d
  let r := ringOf s .send n
  let loop := ringLoop s n
  let vins := sdVins d && loop.isNone
  let idx := d.index
  match sendBytes d vins (joined j.got) with
  | none => rejectSend n d 10 0 s
  | some b =>
    let w := parse s r.w.side b (b.length + 4)
    let h := hdrsOf w.slots w.flags
    let hdr := sdHdr d + sdExtra s n d
    let cause := if sdSeg d = 0 ∨ loop.isSome then 0
      else segCause (sdSeg d) (sdMss d) hdr r.maxl (min 262144 b.length) h (tFind 2 w.ends) b
    if cause ≠ 0 then rejectSend n d 11 cause s
    else
      let asks := sdIpck d || sdL4ck d || sdVins d || decide (sdSeg d ≠ 0)
      let skip := if loop.isSome then asks else if sdSeg d ≠ 0 then false else (insertSums (sdIpck d) (sdL4ck d) h b).2
      let o : SendOpt :=
        { ring := n, part := ringOwner s .send n, index := idx, ipck := sdIpck d && loop.isNone, l4ck := sdL4ck d && loop.isNone,
          seg := if loop.isSome then 0 else sdSeg d, mss := sdMss d, hdrLen := hdr, tsReq := sdTsreq d, skip := skip,
          direct := if sdDirect d && ringOwner s .send n == 0 then some (sdDport d) else none }
      let l := (ringOf s .send n).recs.map fun x =>
        if x.r.index = idx ∧ !x.ready then { x with r := { x.r with vtag := skip } } else x
      let s1 := dropJob n idx (setRing .send n { r with recs := l } s)
      { s1 with hrd := { s1.hrd with staged := s1.hrd.staged ++ [⟨n, b, o, j.ue⟩] } }

/-- Sends whose data is whole are staged, in descriptor order. -/
def stageJobs (n : Nat) : Nat → State → State
  | 0, s => s
  | fuel + 1, s =>
    match (ringOf s .send n).jobs with
    | [] => s
    | j :: _ => if j.fetching && j.have == sdL j.d then stageJobs n fuel (sendStage n j s) else s

/-- SEND_DATA_FETCH_DONE: the bytes of one burst return, and the frame that they complete is staged and enters its section (R318).
`ue` is an uncorrectable table entry that the frame will meet (log entry 8). -/
def sendData (ch tag : Nat) (bytes : List Byte) (err : Bool) (ue : Option Word) (s : State) : State :=
  match readAt s ch tag with
  | none => strayRead ch tag s
  | some x =>
    match x.use with
    | .sendData n idx off =>
      let s1 := dropRead ch tag s
      if err then retryReads (sendReadFail n idx 2 x.addr 1 s1)
      else if bytes.length ≠ x.len then s
      else
        let s2 := modJob n idx (fun j => { j with got := j.got ++ [(off, bytes)], ue := if ue.isSome then ue else j.ue }) s1
        tryFetch .send n false (paceSend n (stageRun (stageJobs n (ringOf s2 .send n).jobs.length (paceSend n (retryReads s2)))))
    | .desc _ _ => s | .chain _ => s | .operand _ _ => s | .image _ _ => s
def execSendDataFetchDone (acc : HmpTag) (bytes : List Byte) (err : Bool) (tableUe : Option Word) (s : State) : Outcome :=
  .next (sendData acc.chan.val acc.tag.toNat bytes err tableUe (begin_ s))

/-! ## Fill delivery (R167 to R173, R188, R230, R256, R307 to R309) -/

/-- Bytes of the frame, or of its segment `k`, without FCS, with the requested checksums inserted (R191, R193). -/
def outBytes (f : Frame) (k : Nat) : List Byte :=
  let h := hdrsOf f.slots f.flags.toNat
  match f.send with
  | none => f.bytes.take (f.bytes.length - 4)
  | some o =>
    if o.seg ≠ 0 then segment o.mss o.hdrLen k h f.bytes else (insertSums o.ipck o.l4ck h f.bytes).1

/-- What a fill ring writes of a frame: bytes, status and the removed tag (TPID, TCI); `none` where it drops it (Table
6-2, R168, R169, R188). -/
def fillBody (r : Ring) (f : Frame) (k : Nat) : Option (List Byte × Nat × Option (Nat × Nat)) :=
  let priv := r.w.priv ≠ 0
  let b0 := if f.mark = .oversize then f.bytes else outBytes f k
  let tag := if r.w.vstrip ∧ tagCount b0 ≠ 0 then some (outerTpidOf b0, outerTciOf b0) else none
  let b := if tag.isSome then stripTag b0 else b0
  let m := r.maxl
  if f.tmm then some (f.bytes, 0, none) else
  match f.mark with
  | .good => if b.length + 4 ≤ m then some (b, 0, tag) else if priv then none else some (b.take (m - 4), 3, tag)
  | .runt => if priv ∨ !r.w.acceptErr then none else some (b, 2, tag)
  | .oversize => if priv then none else some (b.take (min f.rxMax m - 4), 3, tag)
  | .rxErr => if priv ∨ !r.w.acceptErr then none else some (b.take (m - 4), 4, tag)
  | .fcsErr => if priv ∨ !r.w.acceptErr then none else some (b.take (m - 4), 1, tag)

/-- Descriptors that cover `n` bytes: those used and those left. -/
def coverDescs : List Desc → Nat → Option (List Desc × List Desc)
  | [], _ => none
  | d :: t, n =>
    if n ≤ fld (d.word 1) 0 16 then some ([d], t)
    else (coverDescs t (n - fld (d.word 1) 0 16)).map fun x => (d :: x.1, x.2)

/-- Writes of a frame into its buffers: address and bytes. -/
def fillWrites : List Desc → List Byte → List (Nat × List Byte)
  | [], _ => []
  | d :: t, b =>
    let size := fld (d.word 1) 0 16
    let here := b.take size
    let bs := bursts (size / 512 + 2) (sdAddr d) here.length
    bs.map (fun x => (x.1, sub here (x.1 - sdAddr d) x.2)) ++ fillWrites t (b.drop size)

/-- The write bursts of a fill ring. -/
def fillReqs (s : State) (n : Nat) (use : WrUse) (ws : List (Nat × List Byte)) : List WrReq :=
  ws.map fun w => ⟨(ringOf s .fill n).w.chan, rkey .fill n, w.1, ringOwner s .fill n, w.2, use⟩

/-- The token at a queue's head has started: the egress commit log moves past it (R392). -/
def logStart (q : Nat) (t : Token) (s : State) : State :=
  { s with qbm := { s.qbm with commit := tSet 0 s.qbm.commit q ((t.seq + 1) % 2 ^ 32) } }

/-- The token at a queue's head leaves it. -/
def popHead (q : Nat) (t : Token) (s : State) : State :=
  addChg q (-(t.est : Int)) (setQueue q ((queueOf s q).drop 1) { s with qbm := { s.qbm with segs := tDel q s.qbm.segs } })

/-- Bytes that a frame's descriptors must cover before a byte of it is written: those of the frame, or MAXLEN - 4 while its length is not known
(R309). -/
def fillCover (r : Ring) (f : Frame) : Nat := if f.lenKnown then f.bytes.length - 4 else r.maxl - 4

/-- What an ordinary ring has written of a frame before the frame is dropped (R308): a number of its bytes that is not defined, less
the last 4, into the descriptors that stay the ring's next; none where they do not cover it (R309). -/
def scrapWrites (n : Nat) (f : Frame) (s : State) : State :=
  let r := ringOf s .fill n
  if r.w.priv ≠ 0 then s
  else match coverDescs r.desc (fillCover r f) with
    | none => s
    | some (ds, _) =>
      let b := f.bytes.take (min (f.bytes.length - 4) (r.maxl - 4))
      let k := freeNat s % (b.length + 1)
      hostWrites (fillReqs s n .scrap (fillWrites ds (b.take k))) (useFree s)

/-- A frame is dropped at its fill ring, and counted. -/
def fillDrop (n : Nat) (t : Token) (s : State) : State :=
  release1 t.frame (countR 4 .fill n 1 (objAdd 4 n 2 1 (logStart (qFill n) t (popHead (qFill n) t s))))

/-- A frame waits for descriptors because the ring's next is not owned: counted once for the frame (R309). -/
def fillWait (n : Nat) (t : Token) (s : State) : State :=
  let r := ringOf s .fill n
  if r.st == .idle && r.fwait != some t.seq then countR 6 .fill n 1 (setRing .fill n { r with fwait := some t.seq } s) else s

/-- The record of a delivered frame (Table 10-8). -/
def fillRec (r : Ring) (n idx len status : Nat) (tag : Option (Nat × Nat)) (f : Frame) : CRec :=
  { kind := 1, ring := n, status := status, cause := 0, vtag := tag.isSome, stampLost := f.sqLost,
    vtpid := (match tag with | some g => g.1 == 0x88A8 | none => false), ipck := f.ipck, index := idx, len := len,
    l4ck := f.l4ck, stamp := compact f.stamp,
    aux := if f.sqLost then 0 else match tag with
      | some g => BitVec.ofNat 16 g.2
      | none =>
        if f.src.kind = 1 then BitVec.ofNat 16 f.tid
        else if f.src.kind = 0 ∧ r.w.priv = 2 then BitVec.ofNat 16 (fnsOf f.stamp) else 0,
    src := BitVec.ofNat 16 (srcWord f.src) }

/-- The frame at the head waits for descriptors, which are fetched whatever START holds (R309). -/
def fillStarve (n : Nat) (t : Token) (s : State) : State :=
  let s1 := fillWait n t s
  if (ringOf s .fill n).rdN = 0 then tryFetch .fill n true s1 else s1

/-- A frame whose last byte and mark are known, or its next segment, is written and gets its record (R308, R309, R314). -/
def fillFrame (n : Nat) (t : Token) (f : Frame) (s : State) : State :=
  let r := ringOf s .fill n
  let q := qFill n
  let k := tGet 0 s.qbm.segs q
  match egrRead s f k with
  | .cell c => fillDrop n t (scrapWrites n f (cellFail c s))
  | .link m => linkFail t.frame m s
  | .clean =>
    match fillBody r f k with
    | none => fillDrop n t (if markBad f.mark then scrapWrites n f s else s)
    | some (b, status, tag) =>
      match coverDescs r.desc b.length with
      | none => fillStarve n t s
      | some (ds, rest) =>
        let idx := (ds.head?.map (·.index)).getD 0
        let ws := fillWrites ds b
        let due := max (f.last + 210) s.tim.now
        let x : PendRec :=
          { r := fillRec r n idx b.length status tag f, ready := true, due := due,
            bar := (ds.getLast?.map (fun d => bit (d.word 0) 1)).getD false, acks := ws.length, frame := some t.frame,
            info := some f, sq := none }
        let s1 := hostWrites (fillReqs s n (.data n idx) ws) (leaves t.frame (f.last + 178) s)
        let s2 := atCycle due (.record .fill n)
          (setRing .fill n (fillPace { ringOf s1 .fill n with desc := rest, recs := r.recs ++ [x] }) s1)
        let s3 := cqReserve r.w.cq (1 - (ds.length : Int)) s2
        let s4 := countR 2 .fill n 1 (countR 3 .fill n b.length (objAdd 4 n 0 1 (objAdd 4 n 1 b.length (logStart q t s3))))
        let s5 :=
          if k + 1 < outCount f then { s4 with qbm := { s4.qbm with segs := tSet 0 s4.qbm.segs q (k + 1) } }
          else release1 t.frame (popHead q t s4)
        if (ringOf s5 .fill n).rdN = 0 then tryFetch .fill n false s5 else s5

end Sys2Proof.Machine
end

