-- ==== Sys2Proof/Machine/Terminals.lean ====
section
/-!
DEFINITION. Tree-management messages, terminal contexts and their states (R84 to R87, R98, R108 to R113, R117 to R121, R125,
R126, R133, R153, R362, R363, and the table of terminal state transitions). The report cut-off that acts on them lies in
Machine/Cutoff.lean.
-/

namespace Sys2Proof.Machine

/-! ## Trees, contexts, settings -/

def treOf (s : State) (t : Nat) : Tre := tGet Tre.empty s.tre t
def setTre (t : Nat) (r : Tre) (s : State) : State := { s with tre := tSet Tre.empty s.tre t r }
def modTre (t : Nat) (f : Tre → Tre) (s : State) : State := setTre t (f (treOf s t)) s
def ctxOf (s : State) (t i : Nat) : Ctx := tGet Ctx.unknown (treOf s t).ctx i
def modCtx (t i : Nat) (f : Ctx → Ctx) (s : State) : State :=
  modTre t (fun r => { r with ctx := tMod Ctx.unknown r.ctx i f }) s
def chnOf (s : State) (t : Nat) : Chn := tGet Chn.empty s.chn t
def modChn (t : Nat) (f : Chn → Chn) (s : State) : State := { s with chn := tMod Chn.empty s.chn t f }

/-- A field of a register of a tree page. -/
def treF (s : State) (t o lo n : Nat) : Nat := regF s (rTre t o) lo n

/-- Optics of a tree (R58). -/
def guardBlk (s : State) (t : Nat) : Nat := treF s t 4 0 8
def preBlk (s : State) (t : Nat) : Nat := treF s t 4 8 8
def eobBlk (s : State) (t : Nat) : Nat := treF s t 4 16 1

/-- Report blocks solicited and overhead of a burst (R143). -/
def rptBlk (s : State) (t : Nat) : Nat := max 1 (min 7 ((guardBlk s t + preBlk s t) / 5 - 2))
def ohBlk (s : State) (t : Nat) : Nat := guardBlk s t + preBlk s t + 1 + rptBlk s t + eobBlk s t

/-- Steps of a block: 64 x c (R103). -/
def blkSteps (s : State) (t : Nat) : Nat := 400 / 2 ^ rateOf s t

/-- Equalised round trip of the trunk in use, in steps. -/
def eqRtt (s : State) (t : Nat) : Nat := treF s t (if (treOf s t).sel then 0xC else 8) 0 25

/-- Reach (R106) and the greatest equalisation delay. -/
def rttMin (s : State) (t : Nat) : Nat := treF s t 0x10 0 19
def rttMax (s : State) (t : Nat) : Nat := treF s t 0x14 0 19
def eqdMax (s : State) (t : Nat) : Int := (eqRtt s t : Int) - 64 * (25000 + (rttMin s t : Int) - 50)

/-- Does this block carry the tree (R94, R99)? -/
def carries (s : State) (t : Nat) : Bool := treF s t 0x30 0 2 != 2 || ((treOf s t).act).getD (treF s t 0x30 2 1 == 0)

/-- Do the tree port's units work: running, its domain ON, not fenced? -/
def treLive (s : State) (t : Nat) : Bool := (treOf s t).run && domOn s (domTP t) && !(treOf s t).fenced

/-- States of Table 4-2 in its order, and its groups. -/
def stCode : TState → Nat
  | .unknown => 0 | .heard => 1 | .ranged => 2 | .keyed => 3 | .active => 4 | .quiet => 5 | .lost => 6 | .released => 7
def heardUp (x : TState) : Bool := x != .unknown && x != .released
def tracked (x : TState) : Bool := x == .ranged || x == .keyed || x == .active

/-- Terminals in Heard (R153). -/
def heardCount (s : State) (t : Nat) : Nat := ((treOf s t).ctx.filter (fun e => e.2.state == .heard)).length
def heardRoom (s : State) (t : Nat) : Bool := heardCount s t < regF s (rChn t 0x10) 0 8

/-- Key slot of a terminal and KSEL 1 or 2 (R274). -/
def slotNo (t i k : Nat) : Nat := (t * 1024 + i) * 2 + (k - 1)
def slotOf (s : State) (n : Nat) : Slot := tGet Slot.empty s.cpe.slot n
def setSlot (n : Nat) (v : Slot) (s : State) : State := { s with cpe := { s.cpe with slot := tSet Slot.empty s.cpe.slot n v } }

/-! ## Tree-management messages (R84, R85, R87) -/

/-- Does a message stand for, or go to, terminal `i`? -/
def tmmFor (i : Nat) (m : Tmm) : Bool := m.tgt == i || m.tid == i

/-- Is a message of a type for terminal `i` queued or unanswered? -/
def tmmLive (s : State) (t i type : Nat) : Bool :=
  let r := treOf s t
  (r.tmmq ++ r.tmmPend ++ r.tmmOut).any (fun m => m.type == type && tmmFor i m)

/-- Queue one of the block's own messages: behind those that wait, or in the queue while its 384 places have room. -/
def pushTmm (t : Nat) (m : Tmm) (s : State) : State :=
  let r := treOf s t
  if r.tmmPend.isEmpty ∧ (r.tmmq.filter (fun x => !x.cmd)).length < 384 then
    wake (domTP t) 1 (setTre t { r with tmmq := r.tmmq ++ [m] } s)
  else count1 (iTRE t) 34 (setTre t { r with tmmPend := r.tmmPend ++ [m] } s)

/-- The block sends a message: type, TID of its TU, TGT, body, body offset of the tick it names. -/
def sendTmm (t type tid tgt : Nat) (body : List Byte) (tickAt : Option Nat) (acked : Bool) (s : State) : State :=
  let r := treOf s t
  let m : Tmm :=
    { type := type, seq := r.seq, tgt := tgt, tid := tid, body := (body ++ List.replicate (40 - body.length) 0).take 40,
      tickAt := tickAt, cmd := false, sent := 0, reps := 0, acked := acked, full := [] }
  pushTmm t m (setTre t { r with seq := r.seq + 1 } s)

/-- A message that waited at the last report cut-off, which found a place for it, joins the queue (R87). -/
def tmmPendQueued (t : Nat) (s : State) : State :=
  let r := treOf s t
  match r.tmmPend with
  | m :: l =>
    if 0 < r.tmmDue then
      wake (domTP t) 1 (setTre t { r with tmmq := r.tmmq ++ [m], tmmPend := l, tmmDue := r.tmmDue - 1 } s)
    else s
  | [] => s
def execTmmPendingQueued (tree : BitVec 6) (s : State) : Outcome := .next (tmmPendQueued tree.toNat (begin_ s))

/-- Drop the messages of a tree that `p` names. -/
def dropTmm (t : Nat) (p : Tmm → Bool) (s : State) : State :=
  modTre t (fun r => { r with
    tmmq := r.tmmq.filter (fun m => !p m), tmmPend := r.tmmPend.filter (fun m => !p m),
    tmmDue := ((r.tmmPend.take r.tmmDue).filter (fun m => !p m)).length,
    tmmOut := r.tmmOut.filter (fun m => !p m) }) s

/-- Commands that wait for a place for a message that `p` names complete with STATE_REFUSED (R87). -/
def refuseWaits (t : Nat) (p : Tmm → Bool) (s : State) : State :=
  s.hrd.cmd.foldl
    (fun s e => match e.2.wait with
      | some (.tmmRoom t' m) => if t' = t ∧ p m = true then completeCmd e.1 43 0 0 s else s
      | some (.quiesce _ _) => s | some (.tmm _ _ _) => s | some (.keyRead _ _ _) => s | some (.keyHold _ _ _ _) => s
      | some (.keyAck _) => s | some (.em _ _ _) => s | some (.image _ _ _ _) => s | none => s) s

/-! ## Bindings of handles and service indexes (R113, R133, R252) -/

/-- Body of an ALLOC message: number and operation (Table 3-13). -/
def allocBody (n op : Nat) : List Byte := beBytes 2 (n % 4096) ++ [BitVec.ofNat 8 op]
def sendAlloc (t tid n op : Nat) (s : State) : State := sendTmm t 0x0A tid tid (allocBody n op) (some 3) true s

/-- Data handles of a terminal that are bound in force. -/
def handlesOf (s : State) (t tid : Nat) : List Nat :=
  ((chnOf s t).alloc.filter (fun e => bit e.2.w0 0 && fld e.2.w0 8 10 == tid)).map (·.1)

/-- Service indexes that the enabled queue contexts of a terminal name. -/
def servicesOf (s : State) (t tid : Nat) : List Nat :=
  ((s.qbm.ctx.filter (fun e => e.1 / 2048 == t && qEn e.2 && qTid e.2 == tid)).map (fun e => qIdx e.2)).dedup

/-- Key of a service index of a terminal in Chn.svc. -/
def svcKey (tid idx : Nat) : Nat := 4096 * tid + idx

/-- A handle changes from unbound to bound, or back: ALLOC goes to a terminal that is Heard or later; to any other it goes when the
terminal becomes Ranged (log entry 21). A handle whose unbinding is not acknowledged, or whose released owner is not yet Unknown, waits for
that first. -/
def bindHandle (t tid h : Nat) (s : State) : State :=
  let s1 := modChn t (fun c => { c with bind := tSet .none c.bind h .wait }) s
  if heardUp (ctxOf s t tid).state && tGet 0 (chnOf s t).unb h == 0 then sendAlloc t tid h 0 s1 else s1
def unbindHandle (t tid h : Nat) (s : State) : State :=
  if heardUp (ctxOf s t tid).state then
    sendAlloc t tid h 1 (modChn t (fun c => { c with bind := tSet .none c.bind h .unwait, unb := tSet 0 c.unb h tid }) s)
  else modChn t (fun c => { c with bind := tSet .none c.bind h .none }) s

/-- A handle can be bound again (R133): the binding that has waited for that goes on. -/
def bindAgain (t h : Nat) (s : State) : State :=
  let s1 := modChn t (fun c => { c with unb := tSet 0 c.unb h 0 }) s
  let w := tGet W4.zero (chnOf s1 t).alloc h
  if bit w.w0 0 && tGet .none (chnOf s1 t).bind h == .wait then bindHandle t (fld w.w0 8 10) h s1 else s1

/-- Every handle that waited for terminal `tid` can be bound again. -/
def bindFreed (t tid : Nat) (s : State) : State :=
  (((chnOf s t).unb.filter (fun e => e.2 == tid)).map (·.1)).foldl (fun s h => bindAgain t h s) s

/-- The service indexes that the queue contexts of a tree name are bound, and those that none names any more are unbound
(log entry 21). -/
def syncServices (t : Nat) (s : State) : State :=
  let want := ((s.qbm.ctx.filter (fun e => e.1 / 2048 == t && qEn e.2 && qTid e.2 != 0)).map
    (fun e => svcKey (qTid e.2) (qIdx e.2))).dedup
  let have_ := (chnOf s t).svc
  let s1 := want.foldl
    (fun s k =>
      if (tFind k have_).isSome ∧ tGet .none have_ k ≠ .unwait then s
      else
        let st := (ctxOf s t (k / 4096)).state
        let s1 := modChn t (fun c => { c with svc := tSet .none c.svc k .wait }) s
        if heardUp st then sendAlloc t (k / 4096) (k % 4096) 2 s1 else s1) s
  have_.foldl
    (fun s e =>
      if want.contains e.1 ∨ e.2 = .unwait then s
      else if heardUp (ctxOf s t (e.1 / 4096)).state then
        sendAlloc t (e.1 / 4096) (e.1 % 4096) 3 (modChn t (fun c => { c with svc := tSet .none c.svc e.1 .unwait }) s)
      else modChn t (fun c => { c with svc := tSet .none c.svc e.1 .none }) s) s1

/-- Is an ALLOC of a terminal for this number and operation queued or unanswered? -/
def allocLive (s : State) (t tid n op : Nat) : Bool :=
  let r := treOf s t
  (r.tmmq ++ r.tmmPend ++ r.tmmOut).any (fun m => m.type == 0x0A && m.full.isEmpty && m.tgt == tid && m.body.take 3 == allocBody n op)

/-- A terminal enters Ranged: ALLOC goes out for every binding on a return, and for those that wait and have none on its way (R113, R133). -/
def sendBindings (t tid : Nat) (all : Bool) (s : State) : State :=
  let s1 := (handlesOf s t tid).foldl
    (fun s h =>
      if allocLive s t tid h 0 || tGet 0 (chnOf s t).unb h != 0 then s
      else if all ∨ tGet .none (chnOf s t).bind h = .wait then sendAlloc t tid h 0 s else s) s
  (servicesOf s t tid).foldl
    (fun s x =>
      let b := tGet .none (chnOf s t).svc (svcKey tid x)
      if b = .none then sendAlloc t tid x 2 (modChn t (fun c => { c with svc := tSet .none c.svc (svcKey tid x) .wait }) s)
      else if allocLive s t tid x 2 then s
      else if all ∨ b = .wait then sendAlloc t tid x 2 s else s) s1

/-! ## State changes (Table 4-2) -/

/-- A notice about a terminal (R129). -/
def noticeC (t tid type cause : Nat) (w6 : Word) (s : State) : State :=
  noticeT type t tid cause (ctxOf s t tid).serial w6 0 s

/-- A terminal enters Released: its messages, handles, service indexes, tokens and KSEL go, and `order` names the STATE order
that is sent, 0 none (R87, R111, R133, R249, R281). -/
def release (t tid order : Nat) (s : State) : State :=
  let was := (ctxOf s t tid).state
  let s1 := refuseWaits t (tmmFor tid) (dropTmm t (tmmFor tid) s)
  let s2 := modChn t (fun c =>
    let hs := (c.alloc.filter (fun e => fld e.2.w0 8 10 == tid)).map (·.1)
    { c with
      alloc := hs.foldl (fun a h => tMod W4.zero a h (fun w => { w with w0 := w.w0 &&& 0xFFFFFFFE })) c.alloc,
      allocPend := c.allocPend.filter (fun e => fld e.2.w0 8 10 != tid),
      bind := hs.foldl (fun b h => tSet .none b h .none) c.bind,
      unb := hs.foldl (fun b h => tSet 0 b h tid) c.unb,
      svc := c.svc.filter (fun e => e.1 / 4096 != tid) }) s1
  let s3 := (s2.qbm.ctx.filter (fun e => e.1 / 2048 == t && qTid e.2 == tid)).foldl (fun s e => flushQueue e.1 s) s2
  let s4 := modCtx t tid (fun c => { c with
    state := .released, ksel := 0, kselNext := none, cmds := [], dg := false, adj := none, ranging := none, admitAnn := none,
    resEqd := none, resSent := [], measured := none, tdDue := false }) s3
  if order = 0 ∨ was = .lost then s4 else sendTmm t 0x0B tid tid [BitVec.ofNat 8 order] (some 1) false s4

/-- A terminal enters Lost (R110). -/
def lose (t tid cause : Nat) (s : State) : State :=
  noticeC t tid 5 cause 0 (modCtx t tid (fun c => { c with state := .lost, lostTick := s.tim.tick, ranging := none }) s)

/-- R85's repeats are exhausted for a terminal. -/
def exhausted (t tid : Nat) (s : State) : State :=
  match (ctxOf s t tid).state with
  | .heard => noticeC t tid 4 2 0 (release t tid 3 s)
  | .ranged => lose t tid 3 s
  | .keyed => lose t tid 3 s
  | .active => lose t tid 3 s
  | .quiet => lose t tid 3 s
  | .unknown => s
  | .lost => s
  | .released => s

/-- A message is given up after three repeats (R85). -/
def giveUpOne (t : Nat) (s : State) (m : Tmm) : State :=
  noticeC t m.tgt 0x0D 0 (w32 (m.type + m.seq.toNat * 256)) (modTre t (fun r => { r with tmmOut := r.tmmOut.erase m }) s)

/-- The messages of a terminal whose last repeat has no ACK by this cut-off are given up, which is an event of the terminal (R85, R110). -/
def giveUp (t tid : Nat) (s : State) : State :=
  let over_ := (treOf s t).tmmOut.filter (fun m => m.acked && m.tgt == tid && decide (3 ≤ m.reps) && decide (m.sent + 4 ≤ s.tim.tick))
  if over_.isEmpty then s else exhausted t tid (over_.foldl (giveUpOne t) s)

/-- No ACK by the report cut-off of the fourth tick after: the message is sent again, or given up after three repeats (R85); of a terminal
with a context the cut-off itself has done that (`giveUp`). The command has no effect before the cut-off of its tick, and none on a fenced tree
(R425). -/
def ackTimeout (t : Nat) (seq : Byte) (s : State) : State :=
  let r := treOf s t
  if r.fenced then s else
  match r.tmmOut.find? (fun m => m.seq == seq && m.acked && s.tim.cutDone && m.sent + 4 ≤ s.tim.tick) with
  | none => s
  | some m =>
    let s1 := setTre t { r with tmmOut := r.tmmOut.erase m } s
    if m.reps < 3 then pushTmm t { m with reps := m.reps + 1, cmd := false } s1
    else exhausted t m.tgt (giveUpOne t s m)
def execTmmAckTimeout (tree : BitVec 6) (seq : Byte) (s : State) : Outcome := .next (ackTimeout tree.toNat seq (begin_ s))

/-- EQD of a terminal from the next tick on: an adjustment that has been sent is part of it (R122). -/
def eqdNext (s : State) (c : Ctx) : Int :=
  match c.adj with
  | some ⟨corr, some k⟩ => if k ≤ s.tim.tick + 1 then c.eqd + corr else c.eqd
  | some ⟨_, none⟩ => c.eqd
  | none => c.eqd

/-- RANGE_REQ and the start of directed ranging (R118, R119, R125). It supersedes what is on its way of an earlier ranging. -/
def startRanging (t tid : Nat) (new : Bool) (eqd : Int) (s0 : State) : State :=
  let s := dropTmm t (fun m => tmmFor tid m && (m.type == 3 || m.type == 4)) s0
  let s1 := modTre t (fun r => { r with
    orderNo := r.orderNo + 1,
    ctx := tMod Ctx.unknown r.ctx tid (fun c => { c with
      ranging := some 0, rangeNew := new, order := r.orderNo, ackA := false, ackR := false, resEqd := none, resSent := [],
      measured := none, conv := false, run := 0 }) }) s
  sendTmm t 3 tid tid (beBytes 4 (toTwos 32 eqd)) (some 4) true s1

/-- A terminal enters Heard with an announcement, its delay held to 0 to EQD_MAX (R124): a new one, a return or a re-announcement (R117, R118, R153). Messages of
an earlier ranging are superseded. MODEL and HOSTDATA are kept with its context; no notice, register or command shows them (log entry 31). -/
def enterHeard (t tid : Nat) (a : Ann) (s : State) : State :=
  let old := ctxOf s t tid
  let eqdP : Int := clampI 0 (eqdMax s t) (-a.delta)
  let s1 := dropTmm t (fun m => tmmFor tid m && (m.type == 2 || m.type == 3 || m.type == 4 || m.type == 5)) s
  let s2 := modCtx t tid (fun c => { c with
    state := .heard, ret := old.state, serial := a.serial, tresp := a.tresp, cap := a.cap, eqd := eqdP, eqd0 := eqdP, miss := 0,
    outl := 0, adj := none, alarm := false, reach := false, dg := false, admitAnn := none, wide := false,
    burstTick := 0, model := a.model, hostData := a.hostData }) s1
  let s3 := sendTmm t 2 0 tid (beBytes 8 a.serial.toNat ++ beBytes 2 tid ++ beBytes 2 tid) none true s2
  let s4 := startRanging t tid true eqdP s3
  match old.state with
  | .unknown => s4
  | .lost => noticeC t tid 6 0 0 s4
  | .heard => noticeC t tid 7 0 (w32 (stCode old.state)) s4
  | .ranged => noticeC t tid 7 0 (w32 (stCode old.state)) s4
  | .keyed => noticeC t tid 7 0 (w32 (stCode old.state)) s4
  | .active => noticeC t tid 7 0 (w32 (stCode old.state)) s4
  | .quiet => noticeC t tid 7 0 (w32 (stCode old.state)) s4
  | .released => s4

/-! ## Announcements at the cut-off (R117, R127, R153) -/

/-- The terminal of a tree that a serial is bound to. -/
def boundIn (s : State) (t : Nat) (serial : BitVec 64) : Option Nat :=
  ((treOf s t).ctx.find? (fun e => heardUp e.2.state && e.2.serial == serial)).map (·.1)

/-- Is a serial bound on another tree? -/
def boundElse (s : State) (t : Nat) (serial : BitVec 64) : Option Nat :=
  (s.tre.find? (fun e => e.1 != t && (boundIn s e.1 serial).isSome)).map (·.1)

/-- The Unknown context with a pre-listed serial, with MODE 1. -/
def prelisted (s : State) (t : Nat) (serial : BitVec 64) : Option Nat :=
  if treF s t 0x1C 0 1 = 0 then none
  else ((treOf s t).pre.find? (fun e => e.2 == serial && (ctxOf s t e.1).state == .unknown)).map (·.1)

/-- Place an announcement in the heard list: it replaces its serial's entry, or the oldest of 64. -/
def heardPut (a : Ann) (l : List Ann) : List Ann :=
  let m := l.filter (fun x => x.serial != a.serial)
  (if 64 ≤ m.length then m.drop 1 else m) ++ [a]

/-- Is every context in a state other than Unknown (R127)? -/
def treeFull (s : State) (t : Nat) : Bool :=
  decide (1023 ≤ ((treOf s t).ctx.filter (fun e => e.1 != 0 && e.2.state != .unknown)).length)

/-- An announcement of a serial that is bound on tree `u` is refused (R117). -/
def serialConflict (t u : Nat) (a : Ann) (s : State) : State := noticeT 2 t 0 0 a.serial (w32 u) 0 (count1 (iTRE t) 21 s)

/-- One accepted announcement (R117). -/
def announce (t : Nat) (a : Ann) (s : State) : State :=
  match boundElse s t a.serial with
  | some u => serialConflict t u a s
  | none =>
    let bound := boundIn s t a.serial
    let target := match bound with | some i => some i | none => prelisted s t a.serial
    match target with
    | some i =>
      if heardRoom s t ∨ (bound.isSome ∧ (ctxOf s t i).state = .heard) then enterHeard t i a s
      else noticeT 1 t 0 0 a.serial (w32 (toTwos 32 a.delta)) (w32 a.slot) (modTre t (fun r => { r with heard := heardPut a r.heard }) s)
    | none =>
      match (treOf s t).ctx.find? (fun e => match e.2.admitAnn with | some x => x.serial == a.serial | none => false) with
      | some e => modCtx t e.1 (fun c => { c with admitAnn := some a }) s
      | none =>
        let s1 := if treeFull s t then
            let s1 := count1 (iTRE t) 22 s
            if (treOf s t).fullTick then s1 else noticeT 9 t 0 0 0 0 0 (modTre t (fun r => { r with fullTick := true }) s1)
          else s
        noticeT 1 t 0 0 a.serial (w32 (toTwos 32 a.delta)) (w32 a.slot)
          (modTre t (fun r => { r with heard := heardPut a r.heard }) s1)

/-- Heard-list entries that wait only for a place are accepted while places are free (R127, R153). DESIGN CHOICE (log entry 31): so is an
entry whose serial has been pre-listed since, of which R117 says nothing; one whose serial is bound on another tree by then is refused as step
1 of R117 refuses an announcement, and leaves the list. -/
def heardWaiting (t : Nat) (s : State) : State :=
  (treOf s t).heard.foldl
    (fun s a =>
      let gone := fun (s : State) => modTre t (fun r => { r with heard := r.heard.filter (fun x => x.serial != a.serial) }) s
      let target := match boundIn s t a.serial with | some i => some i | none => prelisted s t a.serial
      match target with
      | some i =>
        match boundElse s t a.serial with
        | some u => serialConflict t u a (gone s)
        | none => if heardRoom s t then enterHeard t i a (gone s) else s
      | none => s) s

/-- A heard-list entry has reached its age (R117). A fenced tree keeps its list (R425). -/
def heardExpire (t : Nat) (serial : BitVec 64) (s : State) : State :=
  let age := treF s t 0x1C 22 8
  if (treOf s t).fenced then s else modTre t (fun r => { r with heard := r.heard.filter (fun a => !(a.serial == serial && a.tick + age ≤ s.tim.tick)) }) s
def execHeardEntryExpire (tree : BitVec 6) (serial : BitVec 64) (s : State) : Outcome :=
  .next (heardExpire tree.toNat serial (begin_ s))

/-- TRE_ADMIT.HOLD ticks in Lost are over (Table 4-2). -/
def lostOver (t tid : Nat) (s : State) : State :=
  let c := ctxOf s t tid
  if c.state = .lost ∧ c.lostTick + treF s t 0x1C 2 20 ≤ s.tim.tick then release t tid 0 (noticeC t tid 8 0 0 s) else s

/-- LOST_HOLD_EXPIRE, at the report cut-off (R110): the command has no effect before that of its tick, and none on a fenced tree (R425). -/
def lostExpire (t tid : Nat) (s : State) : State := if s.tim.cutDone && !(treOf s t).fenced then lostOver t tid s else s
def execLostHoldExpire (tree : BitVec 6) (tid : BitVec 10) (s : State) : Outcome :=
  .next (lostExpire tree.toNat tid.toNat (begin_ s))

/-- Is every downstream queue of a terminal empty? -/
def queuesEmpty (s : State) (t tid : Nat) : Bool :=
  s.qbm.q.all (fun e => !(isDs e.1 && e.1 / 2048 == t && qTid (qctx s e.1) == tid) || e.2.isEmpty)

/-- A Released terminal with empty queues and erased key slots returns to Unknown, at a tick boundary (Table 4-2); its handles can then be
bound again (R133). A fenced tree's contexts do not change (R425). -/
def idFree (t tid : Nat) (s : State) : State :=
  if cyc s = 0 ∧ (ctxOf s t tid).state = .released ∧ queuesEmpty s t tid = true ∧ (slotOf s (slotNo t tid 1)).state = 0
      ∧ (slotOf s (slotNo t tid 2)).state = 0 ∧ (treOf s t).fenced = false then
    bindFreed t tid (modCtx t tid (fun _ => Ctx.unknown) s)
  else s
def execTerminalIdFree (tree : BitVec 6) (tid : BitVec 10) (s : State) : Outcome :=
  .next (idFree tree.toNat tid.toNat (begin_ s))

/-! ## ACKs (R85, R110, R121, R133, R288) -/

/-- Does a message that has been sent match an ACK? -/
def ackMatches (a : AckIn) (m : Tmm) : Bool :=
  m.acked && m.sent != 0 && m.tgt == a.tid && m.seq == a.seq && m.type == a.type

/-- What is left of an adjustment once RANGE_RESULT's copy that names tick `k` stands: one that applies later, or is not sent yet. -/
def adjAfter (k : Nat) (a : Option Adjust) : Option Adjust :=
  match a with
  | some ⟨_, some j⟩ => if k < j then a else none
  | some ⟨_, none⟩ => a
  | none => none

/-- RANGE_RESULT is acknowledged (R121). The phase measured on the other trunk stays the standby offset, and a miss since the ACK's burst
still counts (R98, R128). DESIGN CHOICE (log entry 31): where its body was replaced between copies, the EQD recorded is that of the last copy
sent, whichever copy the ACK answers: its SEQ does not tell them apart. -/
def rangedBy (t tid : Nat) (delta : Int) (s : State) : State :=
  let c := ctxOf s t tid
  let eqd : Int := match c.resSent.getLast? with | some x => x.2 | none => c.resEqd.getD c.eqd
  let last := match c.resSent.getLast? with | some x => x.1 | none => 0
  let s1 := modCtx t tid (fun c => { c with
    eqd := eqd, eqd0 := eqd, o := 256 * delta, conv := false, run := 0, ranging := none, outl := 0,
    adj := adjAfter last c.adj, alarm := false, reach := false, resEqd := none, resSent := [], measured := none }) s
  if c.state ≠ .heard then s1
  else
    let s2 := noticeC t tid 3 0 (w32 (toTwos 32 eqd)) (modCtx t tid (fun c => { c with state := .ranged }) s1)
    sendBindings t tid (c.ret != .unknown) s2

/-- What an ACK means for its terminal: the message's type and body. -/
def ackEffect (t : Nat) (a : AckIn) (m : Tmm) (s : State) : State :=
  let tid := a.tid
  let c := ctxOf s t tid
  let n := beAt m.body 0 2 % 4096
  if m.type = 2 then modCtx t tid (fun c => { c with ackA := true }) s
  else if m.type = 3 then modCtx t tid (fun c => { c with ackR := true }) s
  else if m.type = 4 then if c.ranging.isSome then rangedBy t tid a.delta s else s
  else if m.type = 9 then
    if c.state = .ranged ∧ treF s t 0x1C 1 1 = 1 ∧ (slotOf s (slotNo t tid (max 1 (byteAt m.body 0)))).state = 1 then
      modCtx t tid (fun c => { c with state := .keyed }) s
    else s
  else if m.type = 0x0A then
    let op := byteAt m.body 2
    if op = 0 then modChn t (fun x => { x with bind := tSet .none x.bind n .bound }) s
    else if op = 1 then
      bindAgain t n (modChn t (fun x => { x with bind := if tGet .none x.bind n = .unwait then tSet .none x.bind n .none else x.bind }) s)
    else if op = 2 then modChn t (fun x => { x with svc := tSet .none x.svc (svcKey tid n) .bound }) s
    else modChn t (fun x => { x with svc := tSet .none x.svc (svcKey tid n) .none }) s
  else if m.type = 0x0B then
    let op := byteAt m.body 0
    if op = 1 ∧ c.state = .active then modCtx t tid (fun c => { c with state := .quiet }) s
    else if op = 2 ∧ c.state = .quiet then modCtx t tid (fun c => { c with state := .active, wide := true }) s
    else s
  else s

/-- One ACK or returned echo is taken: the message no longer waits. DESIGN CHOICE (log entry 31): result 1, refused, and 2, type not
supported, count like 0; Table 3-13 gives the codes, and neither R85 nor Table 4-2 an effect of them. -/
def takeAck (t : Nat) (a : AckIn) (s : State) : State :=
  let r := treOf s t
  match (r.tmmOut ++ r.tmmq ++ r.tmmPend).find? (ackMatches a) with
  | none => s
  | some m => ackEffect t a m (dropTmm t (ackMatches a) s)

/-! ## TIME_DELAY (R105, R362, R363) -/

/-- TD of a terminal, in 2^-16 ns; with both refractive indices 0 the spec states none. -/
def tdOf (s : State) (t : Nat) (c : Ctx) : Nat :=
  let dsI := treF s t 0x48 0 24
  let sum := dsI + treF s t 0x4C 0 24
  let f : Int := 256 * ((eqRtt s t : Int) - 1600000 - c.tresp - c.eqd - treF s t 0x40 0 24 - treF s t 0x44 0 24) + c.o
  if sum = 0 then freeNat s % 2 ^ 48
  else (roundDiv (f * dsI * s.tim.inc) (sum * 2 ^ 46)).toNat % 2 ^ 48

/-- R363 for one terminal, at the cut-off. -/
def timeDelay (t tid : Nat) (s : State) : State :=
  let c := ctxOf s t tid
  let r := treOf s t
  if !(heardUp c.state) || !c.conv || !c.cap.toNat.testBit 4 then s
  else
    let td := tdOf s t c
    let far := match c.td with
      | some x => decide (treF s t 0x50 0 8 * s.tim.inc ≤ ((td : Int) - x).natAbs * 2 ^ 38)
      | none => true
    if !(c.tdDue || r.tdAll || far) then s
    else if tmmLive s t tid 6 then modCtx t tid (fun c => { c with tdDue := true }) s
    else sendTmm t 6 tid tid (beBytes 6 td) (some 6) true (modCtx t tid (fun c => { c with tdDue := false }) s)

/-! ## One terminal at the cut-off (R110) -/

/-- The ranging result is due: RANGE_RESULT, or RANGE_FAIL (R119, R120). DESIGN CHOICE (log entry 31): a re-range whose corrected EQD lies
outside 0 to EQD_MAX sends nothing and goes on, for Table 4-2 has a row for Heard only. -/
def rangingStep (t tid : Nat) (s : State) : State :=
  let c := ctxOf s t tid
  match c.ranging, c.measured with
  | some _, some e =>
    if e < 0 ∨ eqdMax s t < e then
      if c.state = .heard then noticeC t tid 4 1 0 (release t tid 3 s) else s
    else if c.resEqd.isNone ∧ c.ackR = true ∧ (c.ackA = true ∨ c.rangeNew = false) then
      sendTmm t 4 tid tid (beBytes 4 e.toNat) (some 4) true (modCtx t tid (fun c => { c with resEqd := some e }) s)
    else s
  | _, _ => s

/-- Has the terminal a command of this opcode waiting? -/
def hasCmd (s : State) (t tid op : Nat) : Bool := (ctxOf s t tid).cmds.contains op

/-- The state events of one terminal in the rows of Table 4-2 before those of announcements; its ACKs have been taken. Bursts missed in
the period still count after an ACK, and DG in a burst that carried the ACK of STATE quiet still makes the terminal Lost (R128). -/
def cutTerminal (t tid : Nat) (s : State) : State :=
  let s0 := rangingStep t tid s
  let s1 := if (ctxOf s0 t tid).state = .heard then giveUp t tid s0 else s0
  let s2 := if hasCmd s1 t tid 0x26 && tracked (ctxOf s1 t tid).state then
      startRanging t tid false (clampI 0 (eqdMax s1 t) (eqdNext s1 (ctxOf s1 t tid))) s1 else s1
  let st2 := (ctxOf s2 t tid).state
  let s3 := if hasCmd s2 t tid 0x21 ∧ (st2 = .keyed ∨ (st2 = .ranged ∧ treF s2 t 0x1C 1 1 = 0)) then
      modCtx t tid (fun c => { c with state := .active }) s2 else s2
  let s4 := if hasCmd s3 t tid 0x22 ∧ (ctxOf s3 t tid).state = .active then sendTmm t 0x0B tid tid [1] (some 1) true s3 else s3
  let s5 := if hasCmd s4 t tid 0x23 ∧ (ctxOf s4 t tid).state = .quiet then sendTmm t 0x0B tid tid [2] (some 1) true s4 else s4
  let acked := (treOf s5 t).acks.any (fun a => a.tid == tid)
  let c5 := ctxOf s5 t tid
  let miss := if acked then max c5.miss c5.missNow else c5.miss
  let s6 :=
    if tracked c5.state ∧ treF s5 t 0x24 0 8 ≤ miss then lose t tid 1 s5
    else if (tracked c5.state ∨ (c5.state = .quiet ∧ acked = true)) ∧ c5.dg = true then lose t tid 2 s5 else s5
  giveUp t tid (modCtx t tid (fun c => { c with miss := miss, missNow := 0 }) s6)

/-- The terminal of an accepted ADMIT enters Heard while there is a place, unless its serial is bound on another tree by then (R117, R153). -/
def cutAdmit (t tid : Nat) (s : State) : State :=
  match (ctxOf s t tid).admitAnn with
  | some a =>
    match boundElse s t a.serial with
    | some u => serialConflict t u a (modCtx t tid (fun c => { c with admitAnn := none }) s)
    | none => if (ctxOf s t tid).state = .unknown ∧ heardRoom s t = true then enterHeard t tid a s else s
  | none => s

/-- The rows after those of announcements: HOLD over and a command in the same period, release, disable; then TIME_DELAY (R363). -/
def cutRelease (t tid : Nat) (s : State) : State :=
  let s6 := if hasCmd s t tid 0x24 || hasCmd s t tid 0x25 then lostOver t tid s else s
  let s7 :=
    if heardUp (ctxOf s6 t tid).state && hasCmd s6 t tid 0x24 then release t tid 3 s6
    else if heardUp (ctxOf s6 t tid).state && hasCmd s6 t tid 0x25 then release t tid 4 s6 else s6
  let s8 := modCtx t tid (fun c => { c with cmds := [], dg := false }) s7
  timeDelay t tid s8

/-- A granted BS position without an accepted header (R78, R112): the burst counts as missed. A miss of a terminal in Heard counts if the
cut-off takes the ACK that makes it Ranged (R128). -/
def missTerminal (t tid : Nat) (s : State) : State :=
  let s1 := countO (iTRE t) 12 tid 1 s
  if tracked (ctxOf s t tid).state || (ctxOf s t tid).state == .heard then
    modCtx t tid (fun c => { c with miss := c.miss + 1, missNow := c.missNow + 1 }) s1
  else s1

/-! ## Pre-listing (R117, R531) -/

/-- Pre-list, or clear, the serial of TRE_TPL on the context that TRE_TSEL names. -/
def prelist (t : Nat) (on : Bool) (s : State) : State :=
  let tid := treF s t 0x80 0 10
  if tid = 0 ∨ (ctxOf s t tid).state ≠ .unknown then s
  else modTre t (fun r => { r with
    pre := if on then tPut tid (BitVec.ofNat 64 (regPair s (rTre t 0x84))) r.pre else tDel tid r.pre }) s

/-- A write of a tree page's register by its owner or partition 0. -/
def treeWrite (part : BitVec 6) (be : BitVec 4) (t : Nat) (f : State → State) (s : State) : State :=
  if s.glb.phase ≠ 4 ∨ be ≠ 0xF then s
  else if ownsTree s part.toNat t then f s else partViol part.toNat s
def execPrelistSet (part : BitVec 6) (tree : BitVec 6) (s : State) : Outcome :=
  .next (treeWrite part 0xF tree.toNat (prelist tree.toNat true) (begin_ s))
def execPrelistClr (part : BitVec 6) (tree : BitVec 6) (s : State) : Outcome :=
  .next (treeWrite part 0xF tree.toNat (prelist tree.toNat false) (begin_ s))

end Sys2Proof.Machine
end

