-- ==== Sys2Proof/Machine/Churn.lean ====
section
/-!
DEFINITION. The Churn: allocation entries, reports, discovery windows, the two passes and the burst map (05_churn.md, R79 to
R82, R114, R115, R119). One tick's work of a tree is CHURN_PASS1 and CHURN_PASS2; the map they build is that of the
next tick. The commands themselves, which wait for their cycles, lie in Machine/Passes.lean.
-/

namespace Sys2Proof.Machine

/-! ## Allocation entries (R130 to R133) -/

def aBound (w : W4) : Bool := bit w.w0 0
def aClass (w : W4) : Nat := fld w.w0 1 2
def aPred (w : W4) : Bool := bit w.w0 3
def aTid (w : W4) : Nat := fld w.w0 8 10
def aWgt (w : W4) : Nat := max 1 (fld w.w0 18 8)
def aPh (w : W4) : Nat := fld w.w0 26 6
def aRate1 (w : W4) : Nat := fld w.w1 0 17
def aPk (w : W4) : Nat := min 8 (fld w.w1 17 4)
def aRate2 (w : W4) : Nat := fld w.w2 0 17

/-- Reserved bits of an entry read 0 (R18). -/
def cleanAlloc (w : W4) : W4 := ⟨w.w0 &&& 0xFFFFFF0F, w.w1 &&& 0x1FFFFF, w.w2 &&& 0x1FFFF, w.w3⟩

/-- Entries with the accepted writes in force. -/
def allocAfter (c : Chn) : Tab W4 := c.allocPend.foldl (fun t e => tSet W4.zero t e.1 e.2) c.alloc

/-- Do two timed entries overlap? -/
def timedOverlap (oh : Nat) (x y : W4) : Bool :=
  aRate2 x < aRate2 y + oh + aRate1 y && aRate2 y < aRate2 x + oh + aRate1 x

/-- The guarantee sum G (cause 7 of R132). -/
def guarSum (oh : Nat) (l : List W4) : Nat :=
  let own := ((l.filter (fun w => aClass w == 0 || aClass w == 2)).map aTid).dedup
  l.foldl (fun n w =>
    n + (if aClass w = 0 then aRate1 w else if aClass w = 1 then 10 * (oh + aRate1 w) else if aClass w = 2 then aRate1 w else 0)) 0
    + oh * own.length

/-- First cause of R132 that refuses an entry; 0 none. -/
def allocCause (s : State) (t h : Nat) (w : W4) : Nat :=
  let c := chnOf s t
  let bpt := blksPerTick s t
  let oh := ohBlk s t
  let rest := ((allocAfter c).filter (fun e => e.1 != h && aBound e.2)).map (·.2)
  let all := if aBound w then w :: rest else rest
  let timed := all.filter (fun x => aClass x == 1)
  if aTid w = 0 ∨ h < 1024 ∨ 4094 < h then 1
  else if 63 < (all.filter (fun x => aTid x == aTid w)).length then 2
  else if (aClass w ≠ 3 ∧ bpt < aRate1 w) ∨ (2 ≤ aClass w ∧ bpt < aRate2 w) ∨ (aClass w = 2 ∧ aRate2 w < aRate1 w) then 3
  else if aClass w = 1 ∧ bpt / 10 < aRate2 w + oh + aRate1 w then 4
  else if aBound w && aClass w == 1 && rest.any (fun x => aClass x == 1 && timedOverlap oh x w) then 5
  else if 2048 < 10 * timed.length then 6
  else if regF s (rChn t 0) 0 9 * bpt / 256 < guarSum oh all then 7
  else 0

/-- An accepted entry takes effect (R133): a change of BOUND binds and unbinds. DESIGN CHOICE (log entry 31): a write that changes the
owner while BOUND stays 1, of which R133 says nothing, unbinds from the old terminal and then binds to the new one. -/
def applyAlloc (t h : Nat) (w : W4) (s : State) : State :=
  let old := tGet W4.zero (chnOf s t).alloc h
  let s1 := modChn t (fun c => { c with alloc := tSet W4.zero c.alloc h w }) s
  let moved := aBound old && aBound w && aTid old != aTid w
  let s2 := if aBound old && (!(aBound w) || moved) then unbindHandle t (aTid old) h s1 else s1
  if aBound w && (!(aBound old) || moved) then
    bindHandle t (aTid w) h (modChn t (fun c => { c with est := tDel h c.est }) s2)
  else s2

/-- The accepted entries of a tree take effect at its cut-off, in order. -/
def allocCutoff (t : Nat) (s : State) : State :=
  (chnOf s t).allocPend.foldl (fun s e => applyAlloc t e.1 e.2 s) (modChn t (fun c => { c with allocPend := [] }) s)

/-- Accept an entry for the next cut-off, or at once before the engine starts. -/
def putAlloc (t h : Nat) (w : W4) (s : State) : State :=
  if s.tim.started then modChn t (fun c => { c with allocPend := c.allocPend ++ [(h, cleanAlloc w)] }) s
  else applyAlloc t h (cleanAlloc w) s

/-! ## Reports (R134 to R136) -/

/-- Blocks of a reported occupancy. -/
def occBlk (s : State) (t occ : Nat) : Nat :=
  if occ = 0xFFFFF then 2 ^ 24 - 1 else ceilDiv (occ * (64 + regF s (rChn t 0) 9 6)) 16

/-- The later of two reports of one slot holds. -/
def laterRep (old : Option Rep) (x : Rep) : Option Rep :=
  match old with
  | none => some x
  | some o => if o.tick < x.tick ∨ (o.tick = x.tick ∧ o.start ≤ x.start) then some x else some o

def estOf (s : State) (t h : Nat) : Est := tGet Est.empty (chnOf s t).est h
def modEst (t h : Nat) (f : Est → Est) (s : State) : State := modChn t (fun c => { c with est := tMod Est.empty c.est h f }) s

/-- A report is consumed: before the cut-off for the next map, after it for the one after (R50, R134). -/
def takeReport (t h utick start occ : Nat) (s : State) : State :=
  let late := s.tim.cutDone
  modEst t h (fun e =>
    let x : Rep := ⟨utick, start, occ, e.rx⟩
    if late then { e with nxt := laterRep e.nxt x } else { e with cur := laterRep e.cur x }) s

/-- At a tick boundary the later slot becomes the one that the next map reads. -/
def shiftReports (t : Nat) (s : State) : State :=
  modChn t (fun c => { c with
    est := c.est.map fun e => (e.1, match e.2.nxt with | some x => { e.2 with cur := laterRep e.2.cur x, nxt := none } | none => e.2) }) s

/-- Is a report newer than the last (R134, R137)? -/
def repNewer (e : Est) (x : Rep) : Bool := decide (e.k < x.tick) || (e.k == x.tick && decide (e.start < x.start))

/-- The estimator of R137 for one allocation: its new state, and the demand d. DEDUCED (log entry 31): gs, "granted after the
reporting burst", is the sum of the grants of bursts after it, which maps built before the report came may already hold; the pseudocode's
`gs = 0` is taken at that burst. An allocation that a takeover left at its minimum
asks for it until its first report (R99). -/
def estimate (s : State) (t : Nat) (w : W4) (e : Est) : Est × Nat :=
  let e1 := match e.cur with
    | none => e
    | some x =>
      if !(repNewer e x) then { e with cur := none } else
      let nb := occBlk s t x.occ
      let sm := e.carry + (nb + (x.rx - e.lastRx) - e.b)
      let e0 := { e with
        cur := none, b := nb, lastRx := x.rx, start := x.start, atMin := false,
        grants := e.grants.filter (fun g => decide (x.tick < g.1) || (g.1 == x.tick && decide (x.start < g.2.1))) }
      if e.k < x.tick then
        let dk := (x.tick - e.k) * 2 ^ aPk w
        { e0 with a := (e.a * ((dk : Int) - (x.tick - e.k : Nat)) + 256 * sm) / dk, carry := 0, k := x.tick }
      else { e0 with carry := sm }
  let gs := e1.grants.foldl (fun n g => n + g.2.2) 0
  let d := (e1.b - gs) + if aPred w then ceilDiv (e1.a.toNat * aPh w) 4096 else 0
  (e1, if e1.atMin && aClass w == 2 then max d (aRate1 w) else d)

/-- What a takeover makes of the estimators (R99): each allocation starts from its fixed and assured minimum. -/
def estTakeover (t : Nat) (s : State) : State :=
  modChn t (fun c => { c with
    est := (c.alloc.filter (fun e => aBound e.2)).foldl (fun x e => tSet Est.empty x e.1 { Est.empty with atMin := true }) [] }) s

/-! ## Intervals of blocks -/

/-- Blocks of [lo, hi) that a list of intervals covers, each interval on its own. -/
def covered (l : List (Nat × Nat)) (lo hi : Nat) : Nat := l.foldl (fun n x => n + (min hi x.2 - max lo x.1)) 0

/-- Insert an interval in order of its first block. -/
def insRun (x : Nat × Nat) : List (Nat × Nat) → List (Nat × Nat)
  | [] => [x]
  | y :: l => if x.1 ≤ y.1 then x :: y :: l else y :: insRun x l

/-- Merge intervals in order of their first block into maximal runs, `x` the run that is open. -/
def mergeFrom (x : Nat × Nat) : List (Nat × Nat) → List (Nat × Nat)
  | [] => [x]
  | y :: l => if y.1 ≤ x.2 then mergeFrom (x.1, max x.2 y.2) l else x :: mergeFrom y l

/-- Merge intervals in order of their first block into maximal runs. -/
def mergeRuns : List (Nat × Nat) → List (Nat × Nat)
  | [] => []
  | x :: l => mergeFrom x l

/-- Maximal runs of a list of intervals. -/
def runsOf (l : List (Nat × Nat)) : List (Nat × Nat) := mergeRuns ((l.filter (fun x => x.1 < x.2)).foldl (fun a x => insRun x a) [])

/-- First-fit of `n` blocks outside runs. -/
def firstFit (n bpt : Nat) : Nat → List (Nat × Nat) → Option Nat
  | x, [] => if x + n ≤ bpt then some x else none
  | x, r :: l => if x + n ≤ r.1 then some x else firstFit n bpt (max x r.2) l

/-! ## Discovery windows (R114, R115, R150, R151) -/

/-- Quiet blocks before and after a window. -/
def qbOf (s : State) (t : Nat) : Nat := ceilDiv (eqdMax s t).toNat (blkSteps s t)
def qaOf (s : State) (t : Nat) : Nat :=
  ceilDiv ((64 * (25050 + (rttMax s t : Int)) - (eqRtt s t : Int)).toNat) (blkSteps s t)

/-- Timed entries that stand: handle, owner, first block in each beat, blocks. -/
def timedOf (s : State) (t : Nat) : List (Nat × Nat × Nat × Nat) :=
  let c := chnOf s t
  (c.alloc.filter (fun e => aBound e.2 && aClass e.2 == 1 && (ctxOf s t (aTid e.2)).state == .active
      && tGet .none c.bind e.1 == .bound)).map
    fun e => (e.1, aTid e.2, aRate2 e.2, ohBlk s t + aRate1 e.2)

/-- Their intervals in a tick. -/
def timedRuns (s : State) (t : Nat) : List (Nat × Nat) :=
  let bpb := blksPerTick s t / 10
  (timedOf s t).flatMap fun e => (List.range 10).map fun b => (b * bpb + e.2.2.1, b * bpb + e.2.2.1 + e.2.2.2)

/-- The interval of a window's span in the tick of its window, and in the tick before. -/
def winHere (w : WinRec) : Nat × Nat := (w.start - w.qb, w.start + w.len + w.qa)
def winBefore (bpt : Nat) (w : WinRec) : Nat × Nat := (bpt - (w.qb - w.start), bpt)

/-- Candidates for START and the timed blocks that each overlaps; the fewest, ties to the smallest (R151 rule 1). -/
def bestStart (timed : List (Nat × Nat)) (bpt qb qa len lo hi : Nat) : Nat :=
  ((List.range 64).foldl
    (fun b j =>
      let st := lo + j * (hi - lo) / 63
      let w : WinRec := ⟨0, st, len, qb, qa, 0, 0, false, none, 0, false⟩
      let n := covered timed (winHere w).1 (winHere w).2 + covered timed (winBefore bpt w).1 bpt
      match b with
      | none => some (n, st)
      | some x => if n < x.1 ∨ (n = x.1 ∧ st < x.2) then some (n, st) else some x)
    (none : Option (Nat × Nat))).elim lo (·.2)

/-- Is a trunk switch acknowledged for tick `m` (R96, R158)? -/
def switchAt (s : State) (t m : Nat) : Bool :=
  match (treOf s t).psw with
  | some p => p.tick == m && p.sel != (treOf s t).sel
  | none => false

/-- The windows whose span reaches into tick `m`. -/
def winAt (s : State) (t m : Nat) : Option WinRec := (chnOf s t).wins.find? (fun w => w.tick == m)

/-- H and X of a window whose span has arrived adapt I (R150). -/
def adaptIvl (t : Nat) (s : State) : State :=
  let bpt := blksPerTick s t
  let due := fun (w : WinRec) =>
    !w.done && decide (w.tick * tickCyc * 64 + eqRtt s t + (min bpt (w.start + w.len + w.qa)) * blkSteps s t
      ≤ (s.tim.tick * tickCyc + cyc s) * 64)
  let disc := reg s (rChn t 8)
  (chnOf s t).wins.foldl
    (fun s w =>
      if !(due w) then s
      else modChn t (fun c => { c with
        ivl := if 0 < w.bad ∨ 8 ≤ w.heard then max (fld disc 0 8) (c.ivl / 2)
               else if w.heard = 0 then min (fld disc 16 16) (2 * c.ivl) else c.ivl,
        wins := c.wins.map fun x => if x.tick = w.tick then { x with done := true } else x }) s) s

/-! ## Pass 1 (R137 to R140) -/

/-- A map entry of the reserved region. -/
def ent (h start len rpt tid : Nat) (disc rng : Bool) : MapEnt := ⟨h, start, len, true, rpt, disc, rng, true, tid, false⟩

/-- May a message be sent now: to the whole tree, to a terminal that is Heard or later, or a STATE order on entry to Released
(R111)? -/
def tmmGoes (s : State) (t : Nat) (x : Tmm) : Bool :=
  x.tid == 0 || heardUp (ctxOf s t x.tid).state || (x.type == 0x0B && !x.acked)

/-- Messages that may still leave in the present tick (R86). -/
def tmmsLeft (s : State) (t : Nat) : Nat := 256 - if (treOf s t).tmmTick = s.tim.tick then (treOf s t).tmmN else 0

/-- Does a queued RANGE_REQ leave in this tick, and so name the next (R86, R118, Table 4-6)? -/
def rangeLeaves (s : State) (t tid : Nat) : Bool :=
  (((treOf s t).tmmq.filter (tmmGoes s t)).take (tmmsLeft s t)).any (fun x => x.type == 3 && x.tgt == tid)

/-- Terminals due a directed ranging grant in tick `m`, with their places in the order of entering Heard (R119, R125, R153). A Quiet,
Lost or Released terminal is granted nothing (R111). -/
def rangingDue (s : State) (t m : Nat) : List (Nat × Nat) :=
  let due := (treOf s t).ctx.filter (fun e => (e.2.state == .heard || tracked e.2.state) && match e.2.ranging with
    | some n => if n = 0 then rangeLeaves s t e.1 else decide (n ≤ m)
    | none => false)
  due.foldl (fun (l : List (Nat × Nat)) e => insRun (e.2.order, e.1) l) []

/-- ACKs of sent messages that a terminal still owes. -/
def acksDue (s : State) (t tid : Nat) : Nat :=
  ((treOf s t).tmmOut.filter (fun m => m.acked && m.tgt == tid)).length

/-- What the passes take from the tree port, held as it stands at the cut-off (R110, R156). -/
def freezeCut (t : Nat) (s : State) : State :=
  let due := ((treOf s t).ctx.filter (fun e => tracked e.2.state)).map fun e => (e.1, acksDue s t e.1 + b2n e.2.tmmp)
  let rng := rangingDue s t (s.tim.tick + 1)
  modChn t (fun c => { c with tmmDue := due.foldl (fun x e => tSet 0 x e.1 e.2) [], rngDue := rng }) s

/-- Directed ranging grants of a tick, first-fit outside `occ` (R119, R153): entries, and the runs they take. -/
def rangingEnts (s : State) (t : Nat) (occ : List (Nat × Nat)) : List MapEnt × List (Nat × Nat) :=
  let len := guardBlk s t + preBlk s t + 9 + eobBlk s t
  let rq := treF s t 0x20 0 10
  (chnOf s t).rngDue.foldl
    (fun a x =>
      match firstFit (len + 2 * rq) (blksPerTick s t) 0 (runsOf a.2) with
      | some b => (a.1 ++ [ent x.2 (b + rq) len 0 x.2 false true], a.2 ++ [(b, b + len + 2 * rq)])
      | none => a) ([], occ)

/-- Blocks left free at the start of tick `m` after a switch to a shorter trunk (R97). -/
def switchGap (s : State) (t m : Nat) : Nat :=
  if switchAt s t m then
    let new := treF s t (if (treOf s t).sel then 8 else 0xC) 0 25
    ceilDiv (eqRtt s t - new) (blkSteps s t)
  else 0

/-- Reserved entries of tick `m` in START order, its reserved runs, and the timed entries that were omitted (R138, R152). The blocks
that a trunk switch leaves free belong to no run. -/
def reservedOf (s : State) (t m : Nat) : List MapEnt × List (Nat × Nat) × Nat :=
  let bpt := blksPerTick s t
  let bpb := bpt / 10
  let here := (winAt s t m).toList
  let next := ((winAt s t (m + 1)).toList).filter (fun w => w.start < w.qb)
  let spans := here.map winHere ++ next.map (winBefore bpt)
  let gap := switchGap s t m
  let keep := bit (reg s (rChn t 0xC)) 0
  let timed := (timedOf s t).flatMap fun e => (List.range 10).map fun b =>
    ent e.1 (b * bpb + e.2.2.1) e.2.2.2 (rptBlk s t) e.2.1 false false
  let inGap := timed.filter (fun x => gap ≤ x.start)
  let stands := if keep then inGap else inGap.filter (fun x => covered spans x.start (x.start + x.len) == 0)
  let wins := here.map fun w => ent 4095 w.start w.len 0 0 true false
  let occ := (if gap = 0 then [] else [(0, gap)]) ++ spans ++ stands.map (fun x => (x.start, x.start + x.len))
  let r := rangingEnts s t occ
  let ents := (stands ++ wins ++ r.1).foldl (fun (l : List MapEnt) x =>
    l.takeWhile (fun y => y.start < x.start) ++ x :: l.dropWhile (fun y => y.start < x.start)) []
  (ents, runsOf (r.2.drop (if gap = 0 then 0 else 1)), inGap.length - stands.length)

/-- The blocks of tick `m` where no burst is placed: the reserved runs, and what a trunk switch leaves free. -/
def barred (s : State) (t m : Nat) (runs : List (Nat × Nat)) : List (Nat × Nat) := runsOf ((0, switchGap s t m) :: runs)

/-- Reserved runs that begin after block 0: NR (R138). -/
def runsAfter0 (runs : List (Nat × Nat)) : Nat := (runs.filter (fun x => x.1 != 0)).length

/-- C of R138 for tick `m` with `nb` terminals that need a burst. DESIGN CHOICE (log entry 31): the discovery entry's own 32 W blocks, for
which the formula has no term, count as taken with the quiet blocks on each side of them. -/
def capacity (s : State) (t m nb : Nat) : Int :=
  let runs := (reservedOf s t m).2.1
  let taken := (barred s t m runs).foldl (fun n x => n + (x.2 - x.1)) 0
  (blksPerTick s t : Int) - ((taken + ohBlk s t * (nb + runsAfter0 runs) : Nat) : Int)

/-- Is a poll due for a terminal in the map of tick `m` (R112)? -/
def pollDue (s : State) (t m : Nat) (c : Ctx) : Bool := tracked c.state && decide (c.burstTick + treF s t 0x24 8 7 ≤ m)

/-- Demands of one terminal in visit order: management, fixed, assured, best effort (R131, R139, R144). -/
def terminalRows (s : State) (t tid : Nat) (c : Ctx) (dem : Tab Nat) : List PassRow :=
  let maxt := regF s (rChn t 4) 0 4
  let ch := chnOf s t
  let m0 := 4 * min maxt (tGet 0 ch.tmmDue tid)
  let mine := if c.state = .active then
      ch.alloc.filter (fun e => aBound e.2 && aTid e.2 == tid && tGet .none ch.bind e.1 == .bound) else []
  let of := fun (k : Nat) => mine.filter (fun e => aClass e.2 == k)
  ⟨tid, tid, 1, [m0, 0, 0, 0]⟩ ::
    ((of 0).map (fun e => ⟨tid, e.1, aWgt e.2, [0, aRate1 e.2, 0, 0]⟩)
      ++ (of 2).map (fun e =>
        let d := tGet 0 dem e.1
        ⟨tid, e.1, aWgt e.2, [0, 0, min d (aRate1 e.2), min d (aRate2 e.2) - min d (aRate1 e.2)]⟩)
      ++ (of 3).map (fun e => ⟨tid, e.1, aWgt e.2, [0, 0, 0, min (tGet 0 dem e.1) (aRate2 e.2)]⟩))

/-- Bucket of a demand (R140): 2^(j/8) reaches 16 d / w at j = 8 log2. -/
def bucketOf (d w : Nat) : Nat := min 167 (Nat.log2 ((16 * d) ^ 8 / w ^ 8))

/-- Weight of a row at a level (R139). -/
def rowW (lv : Nat) (r : PassRow) : Nat := if lv = 0 then 1 else r.w
def rowD (lv : Nat) (r : PassRow) : Nat := r.d.getD lv 0

/-- Level `lv` over capacity `c16` in 1/16 block: its result, and F in 1/16 (R139, R140). -/
def levelOf (lv : Nat) (rows : List PassRow) (c16 : Int) : Level × Int :=
  let items := (rows.filter (fun r => rowD lv r != 0)).map fun r => (rowD lv r, rowW lv r, bucketOf (rowD lv r) (rowW lv r))
  let sum := items.foldl (fun n x => n + x.1) 0
  if sum = 0 ∨ ((16 * sum : Nat) : Int) ≤ c16 then (⟨true, 0, 0⟩, ((16 * sum : Nat) : Int))
  else
    let c := c16.toNat
    let below := fun (j : Nat) => (items.filter (fun x => x.2.2 < j)).foldl (fun n x => n + x.1) 0
    let from_ := fun (j : Nat) => (items.filter (fun x => j ≤ x.2.2)).foldl (fun n x => n + x.2.1) 0
    let ok := fun (j : Nat) => 16 * below j ≤ c && from_ j ^ 8 * 2 ^ j ≤ (c - 16 * below j) ^ 8
    let j := (((List.range 168).filter ok).getLast?).getD 0
    let lam := (c - 16 * below j) / max 1 (from_ j)
    (⟨false, j, lam⟩, ((16 * below j + lam * from_ j : Nat) : Int))

/-- The four levels in turn: results, the capacity each met, and C_4. -/
def levelsOf (rows : List PassRow) (c16 : Int) : List Level × List Int × Int :=
  (List.range 4).foldl
    (fun a lv => let r := levelOf lv rows a.2.2; (a.1 ++ [r.1], a.2.1 ++ [a.2.2], a.2.2 - r.2)) ([], [], c16)

/-- ρ at its start (R141): C_L where level L and every later level are fully served, else C_4. DESIGN CHOICE (log entry 31): where
several levels L qualify, R141 does not say which C_L it is; the lowest is taken. -/
def rhoStart (lv : List Level) (caps : List Int) (c4 : Int) : Int :=
  match (List.range 4).find? (fun k => (lv.drop k).all (·.full)) with
  | some k => caps.getD k c4
  | none => c4

/-- Over-subscription of level 0, 1 or 2 is counted, and a notice written once a second (R142). DESIGN CHOICE (log entry 31): neither this
notice nor any other carries an allocation's TAG (R130): no notice has a field for it, and none is about one allocation. -/
def oversub (t : Nat) (lv : List Level) (s : State) : State :=
  (List.range 3).foldl
    (fun s k =>
      if (lv.getD k ⟨true, 0, 0⟩).full then s
      else
        let s1 := countO (iCHN (homeT s t)) 0 k 1 s
        let due := match (chnOf s1 t).oversub with | some x => decide (x + 8000 ≤ s.tim.tick) | none => true
        if due then noticeT 0x10 t 0 k 0 0 0 (modChn t (fun c => { c with oversub := some s.tim.tick }) s1) else s1) s

/-- Does the Churn work for a tree: running, with a home slice that is not being handed over (R388)? -/
def churnRuns (s : State) (t : Nat) : Bool :=
  (treOf s t).run && !(lostTree s t) && !(handingFrom s (homeT s t)) && domOn s (domSL (homeT s t))

/-- The terminals of a tree from the starting ID on (R144). -/
def rotated (s : State) (t : Nat) : List (Nat × Ctx) :=
  let l := (treOf s t).ctx.filter (fun e => tracked e.2.state)
  let first := if bit (reg s (rChn t 0)) 15 then (chnOf s t).rot else 1
  l.filter (fun e => first ≤ e.1) ++ l.filter (fun e => e.1 < first)

/-- Commit a window for tick `w` of a tree with `nb` terminals that need a burst, defer it, or find that none can open (R150, R151,
R158). DESIGN CHOICE (log entry 31): a window that is due and can never open counts in each tick that it stays due; its
configuration fault is raised once, until a window can open again. DESIGN CHOICE (log entry 31): with no previous window, I counts from the tick
in which the tree started. -/
def openWindow (t w nb : Nat) (s : State) : State :=
  let c := chnOf s t
  let e := iCHN (homeT s t)
  let disc := reg s (rChn t 8)
  let due := (fld disc 16 16 ≠ 0 ∨ c.discNow = true) ∧ c.lastWin.getD c.startTick + c.ivl ≤ w
  if ¬due ∨ switchAt s t w = true ∨ c.closing = true then s
  else
    let bpt := blksPerTick s t
    let len := 32 * treF s t 0x18 0 9
    let qb := qbOf s t
    let qa := qaOf s t
    let lo := qb - bpt
    if bpt < len + qa + lo then
      let s1 := countO e 2 t 1 s
      if c.discBad then s1 else fault e 3 (w32 t) 0 2 (homeT s t) 0 (modChn t (fun c => { c with discBad := true }) s1)
    else
      let hi := bpt - len - qa
      let st := bestStart (timedRuns s t) bpt qb qa len lo hi
      let win : WinRec := ⟨w, st, len, qb, qa, 0, 0, false, c.lastWin, c.lastEnd, c.discNow⟩
      let s1 := modChn t (fun c => { c with discBad := false }) s
      if w * bpt + st ≤ c.lastEnd + qb ∧ c.lastWin.isSome then s1
      else
        let with_ := modChn t (fun c => { c with wins := c.wins ++ [win] }) s1
        let short := capacity with_ t w nb < c.guard ∨ (st < qb ∧ capacity with_ t (w - 1) nb < c.guard)
        if short ∧ c.defers < fld disc 8 8 then
          countO e 3 t 1 (modChn t (fun c => { c with defers := c.defers + 1 }) s1)
        else
          modChn t (fun c => { c with
            wins := c.wins.filter (fun x => w ≤ x.tick + 4) ++ [win], lastWin := some w,
            lastEnd := w * bpt + st + len - 1, defers := 0, discNow := false }) s1

/-- R158: a window committed for the tick of a trunk switch is withdrawn, and is as if it had never been committed. -/
def withdrawWindow (t m : Nat) (s : State) : State :=
  if !(switchAt s t m) then s
  else match winAt s t m with
    | none => s
    | some w => modChn t (fun c => { c with
        wins := c.wins.filter (fun x => x.tick != m), lastWin := w.prevWin, lastEnd := w.prevEnd, discNow := c.discNow || w.wasNow }) s

/-- Pass 1 on the configuration of its tick (R157): estimators, demands, windows, capacity and levels. -/
def pass1 (t : Nat) (s : State) : State :=
  let m := s.tim.tick + 1
  let s0 := withdrawWindow t m s
  let ch := chnOf s0 t
  let ests := (ch.alloc.filter (fun e => aBound e.2)).map fun e => (e.1, estimate s0 t e.2 (tGet Est.empty ch.est e.1))
  let s1 := modChn t (fun c => { c with est := ests.foldl (fun x e => tSet Est.empty x e.1 e.2.1) c.est }) s0
  let dem : Tab Nat := ests.map fun e => (e.1, e.2.2)
  let terms := rotated s1 t
  let rows := terms.flatMap fun e => terminalRows s1 t e.1 e.2 dem
  let polls := (terms.filter (fun e => pollDue s1 t m e.2)).map (·.1)
  let needs := (terms.filter (fun e => polls.contains e.1 || rows.any (fun r => r.tid == e.1 && r.d.any (· != 0)))).map (·.1)
  let s2 := openWindow t (m + 1) needs.length s1
  let res := reservedOf s2 t m
  let nr := runsAfter0 res.2.1
  let lv := levelsOf rows (16 * capacity s2 t m needs.length)
  let aside := res.1.length + nr + (rows.filter (fun r => (r.d.take 3).any (· != 0))).length
  let guard := rows.foldl (fun n r => n + rowD 1 r + rowD 2 r) 0
  let s3 := if res.2.2 = 0 then s2 else noticeT 0x11 t 0 0 0 (w32 res.2.2) 0 s2
  modChn t (fun c => { c with
    guard := guard,
    pass := some ⟨lv.1, rhoStart lv.1 lv.2.1 lv.2.2, rows, needs, polls, res.1, barred s2 t m res.2.1, aside⟩ })
    (oversub t lv.1 s3)

/-! ## Pass 2 (R141, R144 to R146) -/

/-- Grant and estimated share of a row over the levels, the share in 1/16 (R139, R141). -/
def shareOf (lv : List Level) (r : PassRow) : Nat × Int :=
  (List.range 4).foldl
    (fun a k =>
      let d := rowD k r
      let w := rowW k r
      let l := lv.getD k ⟨true, 0, 0⟩
      if d = 0 then a
      else if l.full then (a.1 + d, a.2 + ((16 * d : Nat) : Int))
      else (a.1 + min d (w * l.lam / 16), a.2 + (if bucketOf d w < l.j then ((16 * d : Nat) : Int) else ((w * l.lam : Nat) : Int)))) (0, 0)

/-- Running state of pass 2. -/
structure P2 where
  rho : Int
  used : Nat
  hold : Nat                    -- entries set aside for reserved entries and splits
  aside : Nat                   -- entries still set aside in all
  short : Nat
  out : List (Nat × List (Nat × Nat))    -- terminal and its handles' data blocks
deriving DecidableEq, Repr

/-- One row: its grant with the top-up, and its map entry (R141, R146). A row with demand at levels 0 to 2 has an entry set aside, unless all
4,096 are taken. DESIGN CHOICE (log entry 31): where such a row gets no grant, its entry stays set aside for the rest of the pass. -/
def grantRow (lv : List Level) (a : P2 × List (Nat × Nat)) (r : PassRow) : P2 × List (Nat × Nat) :=
  let sh := shareOf lv r
  let dem := r.d.foldl (· + ·) 0
  let rho1 := a.1.rho + sh.2 - 16 * sh.1
  let top := if sh.1 < dem then min (dem - sh.1) (rho1 / 16).toNat else 0
  let g := sh.1 + top
  let p := { a.1 with rho := rho1 - 16 * top }
  if g = 0 then (p, a.2)
  else
    let own := (r.d.take 3).any (· != 0)
    let p := if own then { p with aside := p.aside - 1 } else p
    if 4096 ≤ p.used + (if own then p.hold else p.aside) then ({ p with rho := p.rho + 16 * g, short := p.short + 1 }, a.2)
    else ({ p with used := p.used + 1 }, a.2 ++ [(r.hnd, g)])

/-- One terminal's burst. -/
def grantTerm (x : Pass) (oh : Nat) (p : P2) (tid : Nat) : P2 :=
  let r := (x.rows.filter (fun r => r.tid == tid)).foldl (grantRow x.levels) (p, [])
  if !r.2.isEmpty then { r.1 with out := r.1.out ++ [(tid, r.2)] }
  else if x.polls.contains tid then
    if 4096 ≤ r.1.used + r.1.aside then { r.1 with rho := r.1.rho + 16 * oh, short := r.1.short + 1 }
    else { r.1 with used := r.1.used + 1, out := r.1.out ++ [(tid, [(tid, 0)])] }
  else if x.needs.contains tid then { r.1 with rho := r.1.rho + 16 * oh }
  else r.1

/-- Split the data of a burst at `room` blocks: what goes first, and what is left. -/
def splitParts : Nat → List (Nat × Nat) → List (Nat × Nat) × List (Nat × Nat)
  | _, [] => ([], [])
  | room, (h, d) :: l =>
    if room = 0 then ([], (h, d) :: l)
    else if d ≤ room then let r := splitParts (room - d) l; ((h, d) :: r.1, r.2)
    else ([(h, room)], (h, d - room) :: l)

/-- Entries of one burst from a block on (R144). -/
def burstEnts (hdr rpt eob tid : Nat) : Bool → Nat → List (Nat × Nat) → List MapEnt
  | _, _, [] => []
  | first, x, (h, d) :: l =>
    let len := d + (if first then hdr else 0) + (if l.isEmpty then eob else 0)
    ⟨h, x, len, first, if first then rpt else 0, false, false, l.isEmpty, tid, false⟩ :: burstEnts hdr rpt eob tid false (x + len) l

/-- Placement: cursor, runs still ahead, entries placed (R145). -/
structure Place where
  cur : Nat
  runs : List (Nat × Nat)
  out : List MapEnt
deriving DecidableEq, Repr

/-- Place one burst; what finds no room before the end of the tick stays ungranted. -/
def placeBurst (bpt oh hdr rpt eob tid : Nat) : Nat → List (Nat × Nat) → Place → Place
  | 0, _, p => p
  | fuel + 1, parts, p =>
    if parts.isEmpty then p
    else
      let s := match p.runs with | r :: _ => r.1 | [] => bpt
      let lb := oh + parts.foldl (fun n x => n + x.2) 0
      if p.cur + lb ≤ s then
        { p with cur := p.cur + lb, out := p.out ++ burstEnts hdr rpt eob tid true p.cur parts }
      else
        let w := if oh + 1 ≤ s - p.cur then splitParts (s - p.cur - oh) parts else ([], parts)
        let p1 := { p with out := p.out ++ burstEnts hdr rpt eob tid true p.cur w.1 }
        match p.runs with
        | r :: l => placeBurst bpt oh hdr rpt eob tid fuel w.2 { p1 with cur := max p.cur r.2, runs := l }
        | [] => { p1 with cur := if w.1.isEmpty then p.cur else bpt }

/-- What the placed entries give: the handle, START of the burst, and data blocks. -/
def placedOf (hdr eob : Nat) (l : List MapEnt) : List (Nat × Nat × Nat) :=
  (l.foldl (fun (a : Nat × List (Nat × Nat × Nat)) e =>
    let b := if e.bs then e.start else a.1
    (b, a.2 ++ [(e.hnd, b, e.len - (if e.bs then hdr else 0) - (if e.last then eob else 0))])) (0, [])).2

/-- A map entry as TFE_MAP_DATA carries it (Table 3-9). -/
def mapWord (e : MapEnt) : BitVec 64 :=
  BitVec.ofNat 64 (e.hnd % 4096 * 2 ^ 52 + e.start % 2 ^ 17 * 2 ^ 35 + e.len % 2 ^ 17 * 2 ^ 18 + b2n e.bs * 2 ^ 17
    + e.rpt % 8 * 2 ^ 14 + b2n e.disc * 2 ^ 13 + b2n e.rng * 2 ^ 12 + b2n e.last * 2 ^ 11)

/-- Write a map into the standby page, its count, and TFE_MAP_DONE (R81); the entries stand for upstream tick `m`. -/
def writeMap (t m : Nat) (l : List MapEnt) (s : State) : State :=
  let s1 := (l.zipIdx).foldl (fun s e => emit (.mapWrite t e.2 (mapWord e.1)) s) s
  let s2 := emit (.mapDone t) (emit (.mapCount t l.length) s1)
  modTre t (fun r => { r with
    map := l, mapCnt := l.length, mapDone := true,
    grants := tPut m l (r.grants.filter (fun g => m ≤ g.1 + 4)) }) s2

/-- Insert by START. -/
def insEnt (x : MapEnt) (l : List MapEnt) : List MapEnt :=
  l.takeWhile (fun y => y.start ≤ x.start) ++ x :: l.dropWhile (fun y => y.start ≤ x.start)

/-- Will this block carry the tree in tick `m`, under the registers of that tick and with the switch acknowledged for it (R97, R99)? -/
def carriesIn (s : State) (t m : Nat) : Bool :=
  if treF s t 0x30 0 2 ≠ 2 then true
  else match (treOf s t).psw with
    | some p => if p.tick ≤ m then p.sel == (treF s t 0x30 2 1 == 1) else carries s t
    | none => carries s t

/-- Pass 2 on the configuration of its tick: grants, bursts, placement, and the map (R141, R144 to R146, R155). DESIGN CHOICE (log entry 31):
the starting ID of R144 advances in every pass 2, whatever ROT is. A tree that the block
will not carry in the map's tick, or that is fenced, gets an empty page (R99, R404); one whose port is closing gets no entry but a window committed
before the request (R155, Table 5-5). -/
def pass2 (t : Nat) (x : Pass) (s : State) : State :=
  let m := s.tim.tick + 1
  let s0 := modChn t (fun c => { c with pass := none, rot := c.rot % 1023 + 1 }) s
  if !(domOn s (domTP t)) || (treOf s t).mapNone then s0
  else if !(carriesIn s t m) || (treOf s t).fenced then writeMap t m [] s0
  else if (chnOf s t).closing then writeMap t m ((x.reserved.filter (·.disc)).take 4096) s0
  else
    let oh := ohBlk s t
    let rpt := rptBlk s t
    let eob := eobBlk s t
    let hdr := guardBlk s t + preBlk s t + 1 + rpt
    let p := ((x.rows.map (·.tid)).dedup).foldl (grantTerm x oh) ⟨x.rho, 0, x.setAside - (x.rows.filter (fun r => (r.d.take 3).any (· != 0))).length, x.setAside, 0, []⟩
    let pl := p.out.foldl (fun a b => placeBurst (blksPerTick s t) oh hdr rpt eob b.1 (x.runs.length + 1) b.2 a) ⟨0, x.runs, []⟩
    let ents := (x.reserved.foldl (fun l e => insEnt e l) pl.out).take 4096
    let given := placedOf hdr eob pl.out
    let e := iCHN (homeT s t)
    let s1 := countO e 1 t p.short (countO e 4 t (given.foldl (fun n g => n + g.2.2) 0) s0)
    let s2 := given.foldl (fun s g => if g.1 < 1024 then s else modEst t g.1 (fun e => { e with grants := e.grants ++ [(m, g.2)] }) s) s1
    let s3 := (((ents.filter (fun e => e.bs && !e.rng && !e.disc)).map (·.tid)).dedup).foldl
      (fun s i => modCtx t i (fun c => { c with burstTick := m }) s) s2
    writeMap t m ents s3

/-- The standby page's count becomes 0; a tree that is not running is done with that (R81, R82). -/
def mapCountZero (t : Nat) (s : State) : State :=
  let run := (treOf s t).run
  let s1 := emit (.mapCount t 0) (modTre t (fun r => { r with map := [], mapCnt := 0, mapDone := !run }) s)
  if run then s1 else emit (.mapDone t) s1

/-! ## When an engine works (R147, R148) -/

/-- Trees that an engine works through, in order; the place of a tree among them. -/
def engineTrees (s : State) (e : Nat) : List Nat := (List.range 64).filter (fun t => homeT s t == e)
def enginePos (s : State) (t : Nat) : Nat := ((engineTrees s (homeT s t)).takeWhile (· != t)).length

/-- First cycle of a tree's windows in the two passes. -/
def pass1At (s : State) (t : Nat) : Nat := 15626 + 4096 * enginePos s t
def pass2At (s : State) (t : Nat) : Nat :=
  let h := (engineTrees s (homeT s t)).length
  (if h ≤ 8 then 48394 else 15626 + 4096 * h) + 4096 * enginePos s t

end Sys2Proof.Machine
end

