-- ==== Sys2Proof/Machine/Image.lean ====
section
/-!
DEFINITION. Image records (R492 to R496): what a record names, and the configuration that pending images leave in
force. The commands that read an image lie in Machine/Command.lean, its boundary in Machine/Beat.lean.
-/

namespace Sys2Proof.Machine

/-- SPACE and WORD of a record (Table 16-4). -/
def recSpace (r : ImgRec) : Nat := fld r.w0 0 4
def recWord (r : ImgRec) : Nat := fld r.w0 4 5

/-- Tree and handle of a space 1 record; queue of a space 2 record (Table 16-5). -/
def recTree (r : ImgRec) : Nat := fld r.index 12 6
def recHandle (r : ImgRec) : Nat := fld r.index 0 12

/-- Write the bits of `mask` into word `i`. -/
def W4.put (i : Nat) (mask data : Word) (w : W4) : W4 :=
  if i = 0 then { w with w0 := mergeW w.w0 mask data }
  else if i = 1 then { w with w1 := mergeW w.w1 mask data }
  else if i = 2 then { w with w2 := mergeW w.w2 mask data }
  else { w with w3 := mergeW w.w3 mask data }

/-- An allocation entry with an image's records for it applied. -/
def imgAlloc (l : List ImgRec) (t h : Nat) (w : W4) : W4 :=
  cleanAlloc (l.foldl (fun w r =>
    if recSpace r = 1 ∧ recTree r = t ∧ recHandle r = h then W4.put (recWord r) r.mask r.data w else w) w)

/-- A queue context with an image's records for it applied. -/
def imgCtx (l : List ImgRec) (q : Nat) (w : W4) : W4 :=
  cleanCtx (l.foldl (fun w r =>
    if recSpace r = 2 ∧ r.index.toNat = q then W4.put (recWord r) r.mask r.data w else w) w)

/-- Allocation entries, and queues, that an image names, once each. -/
def imgHandles (l : List ImgRec) : List (Nat × Nat) :=
  ((l.filter (fun r => recSpace r == 1)).map (fun r => (recTree r, recHandle r))).dedup
def imgQueues (l : List ImgRec) : List Nat := ((l.filter (fun r => recSpace r == 2)).map (fun r => r.index.toNat)).dedup

/-- A register write of an image: the writable bits of the register, with MASK (R492). -/
def imgReg (r : ImgRec) (vals : Tab Word) : Tab Word :=
  let a := r.index.toNat
  match regSpec a with
  | some x => tSet x.reset vals a (mergeW (tGet x.reset vals a) (r.mask &&& x.mask) r.data)
  | none => vals

/-- The images due at or before the boundary of tick `m`. -/
def imagesFor (s : State) (m : Nat) : List ImgRec := ((s.glb.pend.filter (fun p => p.tick ≤ m)).flatMap (·.recs))

/-- The configuration in force from the boundary of tick `m` on, for the units that work ahead (R51, R494): registers and
queue contexts. -/
def viewAt (m : Nat) (s : State) : State :=
  let l := imagesFor s m
  if l.isEmpty then s
  else
    { s with
      regs := { s.regs with val := (l.filter (fun r => recSpace r == 0)).foldl (fun v r => imgReg r v) s.regs.val }
      qbm := { s.qbm with ctx := (imgQueues l).foldl (fun t q => tSet W4.zero t q (imgCtx l q (tGet W4.zero t q))) s.qbm.ctx } }

/-- The allocation entries of the images due at the next boundary take effect for the Churn at the cut-off (R133, R157,
R494); the entries they replace are shown until the boundary. -/
def cutImages (s : State) : State :=
  let l := imagesFor s (s.tim.tick + 1)
  (imgHandles l).foldl
    (fun s e =>
      let old := tGet W4.zero (chnOf s e.1).alloc e.2
      applyAlloc e.1 e.2 (imgAlloc l e.1 e.2 old)
        (modChn e.1 (fun c => { c with shown := tPut e.2 old c.shown }) s)) s

end Sys2Proof.Machine
end

