-- ==== Sys2Proof/Machine/Cutoff.lean ====
section
/-!
DEFINITION. The report cut-off (R50, R110, R117, R133, R150, R153, R154, R157, R363): the end of cycle 15,625 of a tick.
-/

namespace Sys2Proof.Machine

/-- Trees that the block keeps anything about, in order. -/
def knownTrees (s : State) : List Nat := (List.range 64).filter (fun t => (tFind t s.tre).isSome || (tFind t s.chn).isSome)

/-- Settings written since the last cut-off take effect (R154). -/
def cutRegs (s : State) : State :=
  s.regs.cutDef.foldl (fun s d => setReg d.addr (mergeW (reg s d.addr) d.mask d.data) s)
    { s with regs := { s.regs with cutDef := [] } }

/-- The state events of one tree, each terminal's in the order of Table 4-2's rows: ACKs and what follows from them, the entries of the
heard list that wait, announcements, accepted ADMITs, and the commands that end a context (R110, R117, R128, R153). Of the messages that
waited at this cut-off, as many as the queue then has places for are queued (R87). -/
def cutTree (t : Nat) (s : State) : State :=
  if !(treLive s t) then s
  else
    let r := treOf s t
    let s0 := modTre t (fun r => { r with tmmDue := r.tmmPend.length }) s
    let s1 := r.acks.foldl (fun s a => takeAck t a s) s0
    let each := fun (f : Nat → State → State) (s : State) =>
      (((treOf s t).ctx.filter (fun e => e.2.state != .unknown || e.2.admitAnn.isSome)).map (·.1)).foldl (fun s i => f i s) s
    let s2 := each (cutTerminal t) s1
    let s3 := r.anns.foldl (fun s a => announce t a s) (heardWaiting t s2)
    let s4 := each (cutRelease t) (each (cutAdmit t) s3)
    let room := fun (r : Tre) => 384 - (r.tmmq.filter (fun x => !x.cmd)).length
    adaptIvl t (modTre t (fun r => { r with acks := [], anns := [], tdAll := false, tmmDue := min r.tmmDue (room r) }) s4)

/-- The report cut-off, at the end of cycle 15,625; what the passes of this tick work from stands from then on (R156). -/
def cutoffActs (s : State) : State :=
  let s1 := cutRegs s
  let trees := knownTrees s1
  let s2 := cutImages (trees.foldl (fun s t => allocCutoff t s) s1)
  let s3 := trees.foldl (fun s t => freezeCut t (cutTree t s)) s2
  { s3 with tim := { s3.tim with cutDone := true } }

end Sys2Proof.Machine
end

