-- ==== Sys2Proof/Machine/Cipher.lean ====
section
/-!
DEFINITION. The cipher edge and upstream reassembly (R37, R70, R71, R162, R163, R179, R274 to R292): the checks at issue,
requests and responses, key writes, and the frames that released TUs make.
-/

namespace Sys2Proof.Machine

/-! ## Reassembly (R37, R71) -/

def reasmOf (s : State) (t h : Nat) : Reasm := tGet Reasm.empty (treOf s t).reasm h
def setReasm (t h : Nat) (r : Reasm) (s : State) : State := modTre t (fun x => { x with reasm := tSet Reasm.empty x.reasm h r }) s

/-- Field 42 of a frame whose length is known before its targets are (R213; log entry 9). -/
def fieldLen (n lim : Nat) : Nat := if n ≤ lim then n else 0xFFFF

/-- A frame closed by LAST passes to the frame MAC (R71, R163, R179): a fragment goes no further, a flow-control frame is
dropped, any other enters the section of the tree's home slice 12 cycles after the cipher edge (R53). A looped frame that returns marked is dropped (R510). -/
def treeFrame (t h : Nat) (r : Reasm) (ue : Option Word) (s : State) : State :=
  let looped := turns (loopT s t)
  if r.total < 18 then s
  else if looped && markOf r.maxlen r.total r.bytes false != .good then count1 11 1 s
  else if etherType r.bytes = 0x8808 then count1 (iTRE t) 24 s
  else
    let a : Arrive :=
      { up := true, src := ⟨1, t⟩, bytes := r.bytes, n := r.total, mark := markOf r.maxlen r.total r.bytes false,
        stamp := r.stamp, tid := r.tid, hnd := h % 4096, maxlen := r.maxlen, lenField := fieldLen r.total 512, lenKnown := true,
        looped := looped, send := none, part := none, last := r.out, page := none, frame := none, again := false }
    atCycle (max s.tim.now (r.out + 12)) (.enter a ue) (completeAt r.out (iTRE t) (smpOf (arriveFrame s a CRes.none_)) (objAdd 0 (t * 1024 + r.tid) 0 1 (objAdd 0 (t * 1024 + r.tid) 1 r.total s)))

/-- The cell writer has written a TU of a tree (R389). Its mark is the last TU before which nothing of the tree waits: a TU that needs no
decryption may overtake one that does (log entry 14). -/
def noteWrote (t : Nat) (pos : Nat × Nat) (s : State) : State :=
  let before := fun (a : Nat × Nat) => decide (a.1 < pos.1) || (a.1 == pos.1 && decide (a.2 < pos.2))
  let waits := (treOf s t).reasm.any (fun e => e.2.pieces.any (fun p => (p.req.isSome || p.wait.isSome) && before p.pos))
  if waits || !(before (tGet (0, 0) s.skm.wrote t)) then s else { s with skm := { s.skm with wrote := tSet (0, 0) s.skm.wrote t pos } }

/-- A released, or dropped, TU reaches reassembly on its handle. -/
def takePiece (t h : Nat) (p : Piece) (ue : Option Word) (s0 : State) : State :=
  let s := if p.ok then noteWrote t p.pos s0 else s0
  let r := reasmOf s t h
  if !p.ok then setReasm t h (if r.isOpen then { r with bad := true, bytes := [] } else r) s
  else if !p.first && !r.isOpen then countO (iTRE t) 15 (h % 4096) 1 s
  else
    let s0 := if p.first && r.isOpen && !r.bad then countO (iTRE t) 14 (h % 4096) 1 s else s
    let r0 : Reasm :=
      if p.first then
        { r with isOpen := true, tid := p.tid, bytes := [], total := 0, maxlen := treF s t 0x34 0 14, stamp := p.stamp, out := 0, bad := false }
      else r
    let r1 : Reasm :=
      if r0.bad then { r0 with tick := s.tim.tick }
      else { r0 with
        out := max r0.out p.out
        bytes := (r0.bytes ++ p.bytes).take r0.maxlen, total := r0.total + p.bytes.length, tick := s.tim.tick }
    if p.last && !r1.bad then
      treeFrame t h r1 ue (setReasm t h { Reasm.empty with pieces := r1.pieces } s0)
    else setReasm t h r1 s0

/-- The TUs at the head of a handle's line that wait for nothing are taken in turn. -/
def drainPieces (t h : Nat) (ue : Option Word) : Nat → State → State
  | 0, s => s
  | fuel + 1, s =>
    let r := reasmOf s t h
    match r.pieces with
    | [] => s
    | p :: l =>
      if p.req.isSome || p.wait.isSome then s
      else drainPieces t h ue fuel (takePiece t h p ue (setReasm t h { r with pieces := l } s))

/-- A TU joins the line of its handle. -/
def pushPiece (t h : Nat) (p : Piece) (s : State) : State :=
  let r := reasmOf s t h
  drainPieces t h none (r.pieces.length + 1) (setReasm t h { r with pieces := r.pieces ++ [p] } s)

/-- A TU that is dropped before the cipher edge closes the handle's reassembly in its own turn (R37, Table 3-8). -/
def closeHandle (t h : Nat) (s : State) : State :=
  pushPiece t h { req := none, wait := none, ok := false, tid := 0, first := false, last := false, bytes := [], stamp := 0, pos := (0, 0), out := 0 } s

/-- The outcome of an outstanding decryption on a handle. -/
def resolveOn (t c : Nat) (seq : Byte) (ok : Bool) (bytes : List Byte) (ue : Option Word) (s : State) (h : Nat) : State :=
  let r := reasmOf s t h
  let l := r.pieces.map fun p => if p.req = some (c, seq) then { p with req := none, ok := ok, bytes := bytes, out := s.tim.now + ceilDiv bytes.length 128 } else p
  drainPieces t h ue (l.length + 1) (setReasm t h { r with pieces := l } s)

/-- The outcome of an outstanding decryption, on every handle that waits for it: more than one where it is a TU that several emulated
terminals accept (R512). -/
def resolvePiece (t c : Nat) (seq : Byte) (ok : Bool) (bytes : List Byte) (ue : Option Word) (s : State) : State :=
  (((treOf s t).reasm.filter (fun e => e.2.pieces.any (fun p => p.req == some (c, seq)))).map (·.1)).foldl (resolveOn t c seq ok bytes ue) s

/-- REASSEMBLY_TIMEOUT: an open frame has received no fragment for 8 ticks (R71). DESIGN CHOICE (log entry 31): the ticks are counted by
number, from that of the last fragment. -/
def reasmTimeout (t h : Nat) (s : State) : State :=
  let r := reasmOf s t h
  if r.isOpen ∧ r.tick + 8 ≤ s.tim.tick then
    let s1 := setReasm t h { Reasm.empty with pieces := r.pieces } s
    if r.bad then s1 else countO (iTRE t) 16 (h % 4096) 1 s1
  else s
def execReassemblyTimeout (tree : BitVec 6) (hnd : BitVec 12) (s : State) : Outcome :=
  .next (reasmTimeout tree.toNat hnd.toNat (begin_ s))

/-! ## Staging (R34, R35, R90) -/

/-- Change the staged TUs of a tree that `p` names. -/
def modStage (t : Nat) (p : DsTu → Bool) (f : DsTu → DsTu) (s : State) : State :=
  modTre t (fun r => { r with stage := r.stage.map fun b => (b.1, b.2.map fun u => if p u then f u else u) }) s

/-- Absolute beat of a block of a tick. -/
def beatOfBlk (s : State) (t tick blk : Nat) : Nat := 10 * tick + blk * 10 / blksPerTick s t

/-- Change the staged TU of a tree that starts at a block of a tick; of a tree that plays terminals, the TU of its burst (R512). -/
def modStaged (t tick blk : Nat) (f : DsTu → DsTu) (s : State) : State :=
  let b := beatOfBlk s t tick blk
  let here := fun (us : List DsTu) => us.map fun u => if u.blk = blk then f u else u
  match vqOf s t with
  | some n => modVq n (fun v => { v with tx := v.tx.map fun x => if x.tick = tick then { x with tus := here x.tus } else x }) s
  | none =>
  modTre t (fun r => { r with
    stage := r.stage.map fun x => if x.1 = b then (x.1, x.2.map fun u => if u.blk = blk then f u else u) else x }) s

/-! ## Checks at issue (R280, R283, R284) -/

/-- Refusal of Table 9-5 as the number of its CPE event; 0 passes. A replay is exempt from checks 3 and 4 (R289). -/
def slotRefusal (v : Slot) (down replay : Bool) (tick ord : Nat) : Nat :=
  let lut := if down then v.lutD else v.lutU
  let ot := if down then v.otD else v.otU
  let lord := if down then v.lordD else v.lordU
  if v.state = 0 then 1
  else if v.state = 2 then 2
  else if replay then 0
  else if tick ≤ lut ∨ tick < ot then 3
  else if tick = ot ∧ ord ≤ lord then 4
  else 0

/-- Row 5 of Table 9-5, and CNT (R283). -/
def slotPass (down : Bool) (tick ord : Nat) (v : Slot) : Slot :=
  let v1 :=
    if down then
      if v.otD < tick then { v with lutD := max v.lutD v.otD, otD := tick, lordD := ord } else { v with lordD := ord }
    else
      if v.otU < tick then { v with lutU := max v.lutU v.otU, otU := tick, lordU := ord } else { v with lordU := ord }
  { v1 with cnt := v1.cnt + 1 }

/-- CNT reaches 2^31 or 2^32 (R284). -/
def slotWear (t tid n : Nat) (s : State) : State :=
  let v := slotOf s n
  let s1 :=
    if 2 ^ 31 ≤ v.cnt ∧ !v.warn then noticeC t tid 0x18 0 (w32 n) (setSlot n { v with warn := true } s) else s
  if 2 ^ 32 ≤ v.cnt ∧ v.state = 1 then noticeC t tid 0x19 0 (w32 n) (setSlot n { slotOf s1 n with state := 2 } s1) else s1

/-- Is a request about downstream traffic? A head-end encrypts downstream; a tree that plays terminals decrypts it (R512). -/
def downward (s : State) (t : Nat) (enc : Bool) : Bool := if (vqOf s t).isSome then !enc else enc

/-- A replayed TU that passes moves OT, LUT and LORD as row 5 does where it is newer, and does not raise CNT (R289). -/
def slotReplay (down : Bool) (tick ord : Nat) (v : Slot) : Slot :=
  let ot := if down then v.otD else v.otU
  let lord := if down then v.lordD else v.lordU
  if ot < tick ∨ (tick = ot ∧ lord < ord) then { slotPass down tick ord v with cnt := v.cnt } else v

/-- The nonce of a TU (Table 9-4): direction, tree, terminal ID, tick, ordinal, span member ID. -/
def nonceOf (down : Bool) (t tid tick ord span : Nat) : Nat :=
  b2n (!down) * 2 ^ 95 + t % 64 * 2 ^ 89 + tid % 1024 * 2 ^ 79 + tick % 2 ^ 48 * 2 ^ 31 + ord % 2 ^ 17 * 2 ^ 14 + span % 4096 * 4

/-- The nonce of a request. A tree that plays terminals uses the tree number and the span member ID of its peer, and the terminal ID
that the peer assigned (R512). -/
def reqNonce (s : State) (r : CpqReq) : Nat :=
  let down := downward s r.tree r.enc
  match vqOf s r.tree with
  | some n =>
    let v := vqAt s n
    nonceOf down v.bTree (if r.tid = 0 then 0 else (vqTerm v (r.tid - 1)).tid) r.tick r.ord v.bSpan
  | none => nonceOf down r.tree r.tid r.tick r.ord (regF s (rTim 0x54) 0 12)

/-- A request header (Table 9-3). -/
def reqHeader (s : State) (r : CpqReq) : BitVec 128 :=
  BitVec.ofNat 128 (reqNonce s r * 2 ^ 32 + (if r.enc then 1 else 2) * 2 ^ 30 + r.slot % 2 ^ 17 * 2 ^ 13
    + r.gen.toNat * 2 ^ 9 + r.seq.toNat * 2)

/-- The lanes of a byte string: 16 bytes each, the first byte in the top bits, a short last lane padded with zeros (R276). -/
def laneWords : Nat → List Byte → List (BitVec 128)
  | 0, _ => []
  | n + 1, l => BitVec.ofNat 128 (ofBe ((l ++ List.replicate 16 0).take 16)) :: laneWords n (l.drop 16)

/-- Bytes, and lanes, of a request (R277): the header, the TU header, and what follows it. -/
def CpqReq.bytes (r : CpqReq) : Nat := 24 + r.body.length
def CpqReq.lanes (r : CpqReq) : Nat := ceilDiv r.bytes 16

/-- The header of a TU (Table 3-2). -/
def tuHeader (tid idx len : Nat) (first last : Bool) (ksel : Nat) : List Byte :=
  let b := beBytes 6 (tid % 1024 * 2 ^ 38 + idx % 4096 * 2 ^ 26 + len % 2 ^ 14 * 2 ^ 12 + b2n first * 2 ^ 11 + b2n last * 2 ^ 10
    + ksel % 4 * 2 ^ 8)
  b ++ beBytes 2 (crc16 b)

/-- CPQ channel of a tree and direction (R276). -/
def chanOf (s : State) (t : Nat) (enc : Bool) : Nat := 2 * homeT s t + b2n (!enc)

def cpqChan (s : State) (c : Nat) : Chan := tGet Chan.empty s.cpe.chan c
def setChan (c : Nat) (v : Chan) (s : State) : State := { s with cpe := { s.cpe with chan := tSet Chan.empty s.cpe.chan c v } }

/-- A request is refused after its issue: the TU goes out as idle blocks (R35), or is dropped (R37). -/
def refuseReq (c : Nat) (r : CpqReq) (s : State) : State :=
  if r.enc then modStaged r.tree r.tick r.ord (fun u => { u with idle := true }) s
  else resolvePiece r.tree c r.seq false [] none s

/-- A request is lost (R279): counted, a fault, and a refusal. -/
def cpqLose (c : Nat) (r : CpqReq) (s : State) : State :=
  refuseReq c r (fault 7 0 (w32 (c + r.seq.toNat * 256)) 6 10 c 0 (countO 7 6 c 1 s))

/-- First lane that a channel's next request can take: after the last one, and not before this cycle or the request's own first lane. -/
def cpqAt (s : State) (ch : Chan) (q : CpqReq) : Nat := max (max ch.cur (8 * s.tim.now)) q.lane

/-- Send the request at the head of a channel's line in this cycle; a 256th outstanding one makes the oldest lost (R276, R277, R279). -/
def cpqSend (c : Nat) (q : CpqReq) (l : List CpqReq) (s : State) : State :=
  let ch := cpqChan s c
  let p := cpqAt s ch q
  let e := p + q.lanes
  let s1 := setChan c { ch with next := ch.next + 1, out := ch.out.drop (ch.out.length - 254) ++ [{ q with eop := (e - 1) / 8 }], line := l, cur := e } s
  let s2 := (ch.out.take (ch.out.length - 254)).foldl (fun s o => cpqLose c o s) s1
  emit (.cpqReq c (p / 8) (p % 8)
    (reqHeader s q :: laneWords (q.lanes - 1) (q.hdr ++ q.body)) (16 * q.lanes - q.bytes)) (countO 7 0 c 1 s2)

/-- Send what a channel's line holds, as far as lanes of this cycle reach; the next goes on as the clock passes its cycle. -/
def cpqLine (c : Nat) : Nat → State → State
  | 0, s => s
  | fuel + 1, s =>
    let ch := cpqChan s c
    match ch.line with
    | [] => s
    | q :: l =>
      let w := cpqAt s ch q / 8
      if w ≤ s.tim.now then cpqLine c fuel (cpqSend c q l s)
      else if s.hrd.later.contains (w, .cpq c) then s else atCycle w (.cpq c) s
def cpqPump (c : Nat) (s : State) : State := cpqLine c ((cpqChan s c).line.length + 1) s

/-- Does a slot serve the direction of a TU: the tree-wide slots serve downstream only (R274)? -/
def slotServes (s : State) (t tid : Nat) (enc : Bool) : Bool := tid != 0 || downward s t enc

/-- The checks of Table 9-5 for a TU under key `ksel`, and its request, which joins its channel's line (R276, R277, R283). The answer is
the channel and SEQ, or none where the TU is refused. `rest` follows the TU header: the plaintext, or the ciphertext and the received
tag. The last lane of a decryption leaves 8 cycles after the TU's last byte has reached the tree edge, or later where the channel is not free
or the request is longer than those cycles take (R53; log entry 30). -/
def cpqIssue (enc : Bool) (t tid ksel tick ord hnd : Nat) (first last replay : Bool) (hdr rest : List Byte) (s : State) :
    State × Option (Nat × Byte) :=
  let n := slotNo t tid ksel
  let v := slotOf s n
  let c := chanOf s t enc
  if ksel = 3 ∨ ksel = 0 ∨ slotServes s t tid enc = false then (count1 7 1 s, none)
  else
    let e := slotRefusal v (downward s t enc) replay tick ord
    if e = 3 then (fault 7 1 (w32 n) 0 3 t 0 (count1 7 3 s), none)
    else if e ≠ 0 then (count1 7 e s, none)
    else
      let s1 := if replay then countO 7 8 c 1 (setSlot n (slotReplay (downward s t enc) tick ord v) s) else slotWear t tid n (setSlot n (slotPass (downward s t enc) tick ord v) s)
      let ch := cpqChan s1 c
      let seq := ch.next + BitVec.ofNat 8 ch.line.length
      let q : CpqReq :=
        { seq := seq, enc := enc, slot := n, tree := t, tid := tid, tick := tick, ord := ord, hnd := hnd, first := first,
          last := last, hdr := hdr, body := rest, replay := replay, gen := v.gen, eop := 0,
          lane := if enc then 0 else 8 * (s.tim.now + 8) + 1 - ceilDiv (24 + rest.length) 16, since := false }
      (cpqPump c (setChan c { ch with line := ch.line ++ [q] } s1), some (c, seq))

/-- Cycle in which the EOP lane of a waiting request leaves, the line going out without a pause. -/
def lineEop (seq : Byte) : Nat → List CpqReq → Option Nat
  | _, [] => none
  | p, q :: l => let b := max p q.lane; if q.seq = seq then some ((b + q.lanes - 1) / 8) else lineEop seq (b + q.lanes) l

/-! ## Responses (R279, R285, R286, R289) -/

/-- The latest tick and ordinal whose response has been delivered (R289). -/
def delivered (t : Nat) (enc : Bool) (tick ord : Nat) (s : State) : State :=
  { s with cpe := { s.cpe with done := tPut (2 * t + b2n (!enc)) (tick, ord) s.cpe.done } }

/-- A tag fails (R286). -/
def tagFail (c : Nat) (r : CpqReq) (s : State) : State :=
  let k := r.tree * 1024 + r.tid
  refuseReq c r (countO (iTRE r.tree) 26 r.tid 1 (count1 7 7 (modTre r.tree (fun x => { x with tagTick := x.tagTick + 1 })
    { s with cpe := { s.cpe with tagFail := tMod 0 s.cpe.tagFail k (fun v => (v + 1) % 2 ^ 32) } })))

/-- A response to an outstanding request. -/
def cpqAnswer (c : Nat) (r : CpqReq) (st : CpqSt) (data : List Byte) (ue : Option Word) (s : State) : State :=
  match st with
  | .ok =>
    let s1 := delivered r.tree r.enc r.tick r.ord s
    if r.enc then
      modStaged r.tree r.tick r.ord
        (fun u => { u with body := data.take r.body.length, tag := data.drop r.body.length, ready := true }) s1
    else resolvePiece r.tree c r.seq true data ue s1
  | .tagFail => tagFail c r s
  | .keyChanged => refuseReq c r (count1 7 5 s)
  | .engineErr => cpqLose c r s

/-- CIPHER_RESPONSE: every older request is lost first; a SEQ that names nothing outstanding is discarded. -/
def cpqResponse (c : Nat) (seq : Byte) (st : CpqSt) (data : List Byte) (ue : Option Word) (s : State) : State :=
  let ch := cpqChan s c
  match ch.out.find? (fun r => r.seq == seq) with
  | none => s
  | some r =>
    let older := ch.out.takeWhile (fun x => x.seq != seq)
    let s1 := setChan c { ch with out := (ch.out.dropWhile (fun x => x.seq != seq)).drop 1 } s
    cpqAnswer c r st data ue (older.foldl (fun s x => cpqLose c x s) s1)

/-- Response time after which a request or a key write is lost (Table 9-7). -/
def cpeTmo (s : State) : Nat := regF s pageCPE 0 16

/-- CIPHER_REQUEST_LOST: no response for CPE_CFG.TMO cycles after the EOP. -/
def cpqTimeout (c : Nat) (seq : Byte) (s : State) : State :=
  let ch := cpqChan s c
  match ch.out.find? (fun r => r.seq == seq) with
  | none => s
  | some r => if s.tim.now < r.eop + cpeTmo s then s else cpqLose c r (setChan c { ch with out := ch.out.erase r } s)

/-! ## Key writes (R275, R276, R278, R290) -/

/-- The generation that a new key write of a slot brings. -/
def nextGen (s : State) (n : Nat) : BitVec 4 :=
  (((s.cpe.keyq.filter (fun k => k.slot == n)).getLast?.map (·.gen)).getD (slotOf s n).gen) + 1

/-- Issue a key write on the key port; AES-128 uses the upper 16 bytes, and an erase carries zeros. -/
def keyWrite (n : Nat) (load klen : Bool) (key : List Byte) (part : Option Nat) (s : State) : State :=
  let g := nextGen s n
  let k := if load then (if klen then key.take 32 else key.take 16 ++ List.replicate 16 0) else List.replicate 32 0
  emit (.cpqKey (if load then 1 else 2) n g klen k)
    { s with cpe := { s.cpe with keyq := s.cpe.keyq ++ [⟨n, load, klen, g, part, s.tim.now⟩] } }

/-- May a key write of slot `n` be issued (R275, Table 13-4)? -/
def keyReady (s : State) (n : Nat) : Bool :=
  !s.cpe.keyStall && (tGet 0 s.cpe.keyAt n == 0 || decide (tGet 0 s.cpe.keyAt n - 1 + 4096 ≤ s.tim.now))

/-- The slot after an acknowledged key write (R275). An erase that no command asked for is that of a tree port's exit, and leaves LUT 0
(R290). -/
def keyInForce (k : KeyWr) (v : Slot) : Slot :=
  if k.load then { v with state := 1, gen := k.gen, klen := k.klen, cnt := 0, warn := false }
  else if k.part.isNone then { v with state := 0, gen := k.gen, lutD := 0, lutU := 0 }
  else { v with state := 0, gen := k.gen }

/-- The running command of a partition, if it waits for the key ACK of slot `n`, completes. -/
def keyComplete (p n : Nat) (s : State) : State :=
  match (tFind p s.hrd.cmd).bind (·.wait) with
  | some (.keyAck m) => if m = n then completeCmd p 0 0 0 s else s
  | some (.quiesce _ _) => s | some (.tmm _ _ _) => s | some (.tmmRoom _ _) => s | some (.keyRead _ _ _) => s
  | some (.keyHold _ _ _ _) => s | some (.em _ _ _) => s | some (.image _ _ _ _) => s | none => s

/-- CPQ_KEY_ACK puts the oldest key write in force. -/
def keyWriteAck (s : State) : State :=
  match s.cpe.keyq with
  | [] => s
  | k :: l =>
    let s1 := setSlot k.slot (keyInForce k (slotOf s k.slot))
      { s with cpe := { s.cpe with keyq := l, keyStall := false, keyAt := tPut k.slot (s.tim.now + 1) s.cpe.keyAt } }
    match k.part with
    | some p => keyComplete p k.slot s1
    | none => s1
def execKeyWriteAck (s : State) : Outcome := .next (keyWriteAck (begin_ s))

/-- KEY_TMO: the oldest key write has waited CPE_CFG.TMO cycles (Table 13-4). -/
def keyTmo (s : State) : State :=
  match s.cpe.keyq with
  | [] => s
  | k :: _ =>
    if s.cpe.keyStall ∨ s.tim.now < k.at_ + cpeTmo s then s
    else fault 7 2 (w32 k.slot) 6 10 0 0 { s with cpe := { s.cpe with keyStall := true } }

/-- Set what a partition's running command waits for. -/
def setWait (p : Nat) (w : CmdWait) (s : State) : State :=
  match tFind p s.hrd.cmd with
  | some c => { s with hrd := { s.hrd with cmd := tPut p { c with wait := some w, got := [], recs := [] } s.hrd.cmd } }
  | none => s

/-- A key command issues its key write, or waits (R275). -/
def keyCommand (p n : Nat) (load klen : Bool) (key : List Byte) (s : State) : State :=
  if keyReady s n then setWait p (.keyAck n) (keyWrite n load klen key (some p) s)
  else setWait p (.keyHold n load klen key) s

/-- KEY_COMMAND_RESUME: the wait of R275, or the stall, is over. -/
def keyResume (p : Nat) (s : State) : State :=
  match (tFind p s.hrd.cmd).bind (·.wait) with
  | some (.keyHold n load klen key) => if keyReady s n then keyCommand p n load klen key s else s
  | some (.quiesce _ _) => s | some (.tmm _ _ _) => s | some (.tmmRoom _ _) => s | some (.keyRead _ _ _) => s
  | some (.keyAck _) => s | some (.em _ _ _) => s | some (.image _ _ _ _) => s | none => s
end Sys2Proof.Machine
end

