-- ==== Sys2Proof/Machine/TreeRx.lean ====
section
/-!
DEFINITION. The upstream side of a tree port (R36, R65 to R71, R76 to R78, R84, R86, R92, R98, R103, R112, R114 to R116, R119,
R120, R122 to R126, R134, R135, R282, R287). A burst comes as one command: the upstream tick and block in which its header
arrives, the cycles from that tick's strobe to TFE_US_SOB, TFE_US_PH, and the blocks from the header on.
-/

namespace Sys2Proof.Machine

/-! ## Blocks, headers and TUs -/

/-- Bytes of a block, first wire byte first. -/
def blkBytes (b : UsBlock) : List Byte := beBytes 16 b.data.toNat

/-- A field of `n` bits at bit `lo` of a number. -/
def nfld (v lo n : Nat) : Nat := v / 2 ^ lo % 2 ^ n

/-- Is the burst header whole (Table 3-6)? -/
def headGood (b : UsBlock) : Bool := !b.err && crc16 ((blkBytes b).take 14) == nfld b.data.toNat 0 16

/-- A TU found in an entry's span. `hck` false: its header is bad, and the rest of the span is discarded. -/
structure Tu where
  hck : Bool
  hdr : List Byte               -- its 8-byte header as received: the additional data of R277
  blk : Nat                     -- first block
  n : Nat                       -- blocks
  tid : Nat
  idx : Nat
  len : Nat
  first : Bool
  last : Bool
  ksel : Nat
  body : List Byte              -- payload, and the tag of an encrypted TU
  err : Bool                    -- TFE_US_ERR on a payload or tag block
deriving DecidableEq, Repr

/-- Blocks of a TU (R65). -/
def tuBlks (len ksel : Nat) : Nat := ceilDiv (8 + len + if ksel = 0 then 0 else 16) 16

/-- The TUs of a span from block `pos` up to `stop` (R65, R66, R69). DESIGN CHOICE (log entry 31): a header with LEN 0 that is not an idle
block's, which R69 calls invalid, is handled as one whose check fails. -/
def spanTus (stop : Nat) : Nat → Nat → List UsBlock → List Tu
  | 0, _, _ => []
  | _, _, [] => []
  | fuel + 1, pos, b :: l =>
    if stop ≤ pos then []
    else
      let h := b.data.toNat / 2 ^ 64
      let len := nfld h 28 14
      let ksel := nfld h 24 2
      let idle := decide (h / 2 ^ 24 = 0)
      if b.err || crc16 ((blkBytes b).take 6) != nfld h 0 16 || (len == 0 && !idle) then
        [⟨false, (blkBytes b).take 8, pos, stop - pos, 0, 0, 0, false, false, 0, [], b.err⟩]
      else if idle then spanTus stop fuel (pos + 1) l
      else
        let n := tuBlks len ksel
        let tail := l.take (n - 1)
        let bytes := ((blkBytes b ++ tail.flatMap blkBytes).drop 8).take (len + if ksel = 0 then 0 else 16)
        ⟨true, (blkBytes b).take 8, pos, n, nfld h 54 10, nfld h 42 12, len, h.testBit 27, h.testBit 26, ksel, bytes, tail.any (·.err)⟩
          :: spanTus stop fuel (pos + n) (l.drop (n - 1))

/-! ## Where a burst belongs -/

/-- What a burst was granted as. -/
inductive Grant where
  | data | ranging | window
deriving DecidableEq, Repr

/-- A grant that a header's position falls in: its tick, and its entries. -/
structure Hit where
  kind : Grant
  tick : Nat
  ents : List MapEnt
deriving DecidableEq, Repr

/-- The bursts of a map: entries up to and with LAST. -/
def groupsOf (l : List MapEnt) : List (List MapEnt) :=
  (l.foldl (fun (a : List (List MapEnt) × List MapEnt) e =>
    if e.last then (a.1 ++ [a.2 ++ [e]], []) else (a.1, a.2 ++ [e])) ([], [])).1

/-- How far a header may lie off its due instant, in 1/256 step, and about which offset: the window of R123, or that of the first burst after a
switch or a resume (R98). -/
def winOf (s : State) (t : Nat) (c : Ctx) : Int × Nat :=
  if c.wide then (0, 256 * (treF s t 0x30 8 8 * blkSteps s t)) else (c.o, 256 * (treF s t 0x28 4 4 * blkSteps s t))

/-- Owner of a BS entry's handle. -/
def entOwner (s : State) (t : Nat) (e : MapEnt) : Nat :=
  if e.disc then 0 else if e.hnd < 1024 then e.hnd else aTid (tGet W4.zero (chnOf s t).alloc e.hnd)

/-- First block of upstream tick `m`, counted from the first block of tick `ut`. -/
def tickAhead (s : State) (t ut m : Nat) : Int := ((m : Int) - ut) * blksPerTick s t

/-- The data burst that a header at block `blk` of upstream tick `ut` is taken for: of those of this tick and its neighbours whose acceptance
window reaches the block, or whose span holds it, the one whose header falls due nearest (R98, R123). -/
def burstAt (s : State) (t ut blk : Nat) : Option Hit :=
  let near := fun (m : Nat) (g : List MapEnt) => match g.head?, g.getLast? with
    | some a, some z =>
      let off := tickAhead s t ut m
      let due := a.start + guardBlk s t + preBlk s t
      let d : Int := (blk : Int) - (off + due)
      let w := winOf s t (ctxOf s t (entOwner s t a))
      let reach := decide (((256 * (d * blkSteps s t) - w.1).natAbs : Nat) < w.2 + 256 * blkSteps s t)
      let held := decide (off + a.start ≤ blk) && decide ((blk : Int) < off + (z.start + z.len))
      if !a.disc && !a.rng && (reach || held) then some (d.natAbs, Hit.mk .data m g) else none
    | _, _ => none
  let of := fun (m : Nat) => (groupsOf (tGet [] (treOf s t).grants m)).filterMap (near m)
  (pickMin (fun _ => true) (·.1) ((if ut = 0 then [] else of (ut - 1)) ++ of ut ++ of (ut + 1))).map (·.1.2)

/-- Does the reception span of a window of the upstream tick `ut`, or of the tick after, hold block `blk` (R115)? -/
def inWindow (s : State) (t ut blk : Nat) (w : WinRec) : Bool :=
  let bpt := blksPerTick s t
  (w.tick == ut || w.tick == ut + 1) && decide (w.tick * bpt + w.start ≤ ut * bpt + blk + w.qb)
    && decide (ut * bpt + blk < w.tick * bpt + w.start + w.len + w.qa)

/-- The ranging grant of tick `m` whose span, quiet blocks included, holds block `blk` of upstream tick `ut` (R119). -/
def rangingAt (s : State) (t ut blk m : Nat) : Option Hit :=
  let rq : Nat := treF s t 0x20 0 10
  let off := tickAhead s t ut m
  ((groupsOf (tGet [] (treOf s t).grants m)).find? (fun g => match g.head? with
    | some a => a.rng && decide (off + a.start ≤ blk + rq) && decide ((blk : Int) < off + (a.start + a.len + rq))
    | none => false)).map (Hit.mk .ranging m)

/-- The grant at block `blk` of upstream tick `ut`: bursts, ranging grants with their quiet blocks, windows with theirs; each may reach over
the edge of its tick (R115, R119, R123). -/
def grantAt (s : State) (t ut blk : Nat) : Option Hit :=
  let rng := match rangingAt s t ut blk ut with | some h => some h | none => rangingAt s t ut blk (ut + 1)
  match burstAt s t ut blk, rng with
  | some h, _ => some h
  | none, some h => some h
  | none, none =>
    match (chnOf s t).wins.find? (inWindow s t ut blk) with
    | some w => ((tGet [] (treOf s t).grants w.tick).find? (fun e => e.disc)).map fun e => ⟨.window, w.tick, [e]⟩
    | none => none

/-- Does block `blk`, counted from the first of upstream tick `m`, lie outside every granted span (Table 3-8)? -/
def strayAt (s : State) (t m : Nat) (blk : Int) : Bool :=
  let rq := treF s t 0x20 0 10
  !((tGet [] (treOf s t).grants m).any (fun e =>
      let q := if e.rng then rq else 0
      !e.disc && decide ((e.start : Int) ≤ blk + q) && decide (blk < (e.start + e.len + q : Nat))))
    && !((chnOf s t).wins.any (fun w =>
      let off := tickAhead s t m w.tick
      decide (off + w.start ≤ blk + w.qb) && decide (blk < off + (w.start + w.len + w.qa : Nat))))

/-- Block of its tick from which a burst's blocks are counted: of a data burst, the one in which its header is due. -/
def burstBlk (s : State) (t ut blk : Nat) (h : Hit) : Int :=
  match h.kind, h.ents with
  | .data, e :: _ => (e.start + guardBlk s t + preBlk s t : Nat)
  | .data, [] => (blk : Int) - tickAhead s t ut h.tick
  | .ranging, _ => (blk : Int) - tickAhead s t ut h.tick
  | .window, _ => (blk : Int) - tickAhead s t ut h.tick

/-- Mark a BS entry: a header was accepted at it, or it was found missed. -/
def markSeen (t ut start : Nat) (s : State) : State :=
  modTre t (fun r => { r with
    grants := r.grants.map fun g => if g.1 = ut then (g.1, g.2.map fun e => if e.bs ∧ e.start = start then { e with seen := true } else e) else g }) s

/-! ## Drift tracking (R98, R122 to R126) -/

/-- Is a measured phase accepted? `d` in steps. -/
def accepts (s : State) (t : Nat) (c : Ctx) (d : Int) : Bool :=
  let w := winOf s t c
  decide ((256 * d - w.1).natAbs ≤ w.2)

/-- A pending EQD_ADJUST applies from its tick on. -/
def adjustApplies (s : State) (t : Nat) (ut : Nat) (c : Ctx) : Ctx :=
  match c.adj with
  | some ⟨corr, some k⟩ =>
    if k ≤ ut then
      let e := c.eqd + corr
      { c with o := c.o + 256 * corr, eqd := e, adj := none, reach := c.reach && (e == 0 || e == eqdMax s t) }
    else c
  | some ⟨_, none⟩ => c
  | none => c

/-- The drift alarm, and its re-arming (R125). -/
def driftAlarm (t tid : Nat) (s : State) : State :=
  let c := ctxOf s t tid
  let diff := c.eqd - c.eqd0
  let lim := treF s t 0x2C 8 20
  if !c.alarm && decide (lim < diff.natAbs) then
    noticeC t tid 0x0B 0 (w32 (toTwos 32 diff)) (modCtx t tid (fun c => { c with alarm := true }) s)
  else if c.alarm && decide (2 * diff.natAbs < lim) then modCtx t tid (fun c => { c with alarm := false }) s
  else s

/-- The filter of R122, or the first burst after a switch or a resume (R98). -/
def driftFilter (t tid : Nat) (d : Int) (s : State) : State :=
  let c := ctxOf s t tid
  if c.wide then modCtx t tid (fun c => { c with o := 256 * d, outl := 0, wide := false }) s
  else if (256 * treF s t 0x28 20 12 : Nat) < (256 * d - c.o).natAbs then
    let s1 := countO (iTRE t) 18 tid 1 s
    if c.outl + 1 < 4 then modCtx t tid (fun c => { c with outl := c.outl + 1 }) s1
    else
      noticeC t tid 0x0A 0 (w32 (toTwos 32 d))
        (modCtx t tid (fun c => { c with o := 256 * d, outl := 0, conv := false, run := 0 }) s1)
  else
    let k : Nat := 2 ^ treF s t 0x28 0 4
    modCtx t tid (fun c => { c with outl := 0, o := roundDiv (c.o * (k : Int) + (256 * d - c.o)) k }) s

/-- CONV (R126): as it becomes set, a TIME_DELAY is due (R363). -/
def driftConv (t tid : Nat) (s : State) : State :=
  modCtx t tid (fun c =>
    let n := if c.o.natAbs ≤ 256 * treF s t 0x2C 0 8 then c.run + 1 else 0
    { c with run := n, conv := c.conv || decide (16 ≤ n), tdDue := c.tdDue || (!c.conv && decide (16 ≤ n)) }) s

/-- The correction that R122 asks for, clamped by R124. DESIGN CHOICE (log entry 31): the notice of the adjustment that was clamped to a
limit counts for the corrections of 0 that follow at that limit. -/
def driftAdjust (t tid : Nat) (s : State) : State :=
  let c := ctxOf s t tid
  if c.adj.isSome || decide (c.o.natAbs < 256 * treF s t 0x28 8 12) then s
  else
    let want := clampI (-2048) 2047 (-(roundDiv c.o 256))
    let new := clampI 0 (eqdMax s t) (c.eqd + want)
    let corr := clampI (-2048) 2047 (new - c.eqd)
    let s1 :=
      if new = c.eqd + want ∨ c.reach = true then s
      else noticeC t tid 0x0C (if new = 0 then 1 else 2) (w32 (toTwos 32 new)) (modCtx t tid (fun c => { c with reach := true }) s)
    if corr = 0 then s1
    else
      let big := decide (4 * treF s t 0x2C 0 8 < corr.natAbs)
      sendTmm t 5 tid tid (beBytes 4 (toTwos 32 corr)) (some 4) true
        (modCtx t tid (fun c => { c with
          adj := some ⟨corr, none⟩, conv := c.conv && !big, run := if big then 0 else c.run }) s1)

/-- R122 for an accepted burst of a tracked terminal. -/
def driftUpdate (t tid ut : Nat) (d : Int) (s : State) : State :=
  let s1 := driftAlarm t tid (modCtx t tid (adjustApplies s t ut) s)
  driftAdjust t tid (driftConv t tid (driftFilter t tid d s1))

/-! ## Ranging (R120) -/

/-- EQD in force for a burst's tick: that of the last copy of RANGE_RESULT whose tick has come, or of the adjustment whose tick has. -/
def eqdUsed (c : Ctx) (ut : Nat) : Int :=
  match (c.resSent.filter (fun x => x.1 ≤ ut)).getLast? with
  | some x => x.2
  | none => match c.adj with
    | some ⟨corr, some k⟩ => if k ≤ ut then c.eqd + corr else c.eqd
    | some ⟨_, none⟩ => c.eqd
    | none => c.eqd

/-- A ranging burst is measured; it may replace the body of an unacknowledged RANGE_RESULT. -/
def rangeMeasure (t tid ut : Nat) (d : Int) (s : State) : State :=
  let c := ctxOf s t tid
  if c.ranging.isNone then s
  else
    let e := eqdUsed c ut - d
    let step := treF s t 0x28 8 12
    modCtx t tid (fun c => { c with
      measured := some e, lastDelta := d,
      resEqd := match c.resEqd with
        | some b => if 0 ≤ e ∧ e ≤ eqdMax s t ∧ step < (e - b).natAbs then some e else some b
        | none => none }) s

/-! ## Tree-management messages (R84 to R86, R116, R287) -/

/-- The stamp of a block of an upstream tick (Table 11-1). -/
def usStamp (s : State) (t ut blk : Nat) : Nat :=
  let k : Int := (s.tim.tickStart : Int) + ((ut : Int) - s.tim.tick) * tickCyc + (eqRtt s t / 64 : Nat)
  addTime (timeAtCyc s k.toNat)
    (steps s (((eqRtt s t % 64 + blkSteps s t * blk : Nat) : Int) - treF s t 0x44 0 24))

/-- A KEY_OFFER joins the delivery queue of TRE_KEY.RING as a frame of the tree (R287). -/
def keyOffer (t tid ut blk : Nat) (m : List Byte) (s : State) : State :=
  let n := treF s t 0x38 16 11
  if treeOwner s t ≠ prtOwner s (pagePRT + 0x4000 + 4 * n) then countO 4 4 (2 ^ 11 + n) 1 (objAdd 4 n 2 1 s)
  else if (ringOf s .fill n).st == .disabled then objDiscard (qFill n) (count1 6 8 s)
  else if bufFull s then countO 4 4 (2 ^ 11 + n) 1 (objAdd 4 n 2 1 (count1 6 1 s))
  else
    let a : Arrive :=
      { up := true, src := ⟨1, t⟩, bytes := m, n := 48, mark := .good, stamp := usStamp s t ut blk, tid := tid, hnd := tid,
        maxlen := 48, lenField := 48, lenKnown := true, looped := false, send := none, part := none,
        last := s.tim.now + 8 + ceilDiv 48 128, page := none, frame := none, again := false }
    match storeFrame (secKey (homeT s t) true) { arriveFrame s a CRes.none_ with tmm := true } s with
    | none => countO 4 4 (2 ^ 11 + n) 1 (objAdd 4 n 2 1 (bufExhaust (secKey (homeT s t) true) 1 (homeT s t) s))
    | some (f, s1) => freeUnheld f (admit1 (qFill n) 0 f 0 1 1 s1).1

/-- What a burst's TUs need of it. -/
structure BurstIn where
  tree : Nat
  tid : Nat
  ut : Nat                      -- upstream tick of its grant
  kind : Grant
  tarr : Int                    -- measured arrival (R103)
  delta : Int                   -- arrival error
  start : Nat                   -- START of the BS entry
  rx : Nat                      -- upstream tick from whose first block its blocks are counted
deriving DecidableEq, Repr

/-- An announcement of a discovery window (R116, R117). -/
def takeAnnounce (x : BurstIn) (b : List Byte) (s : State) : State :=
  let r := byteAt b 8
  let ofs := sext 32 (beAt b 10 4)
  if 31 < r then count1 (iTRE x.tree) 19 s
  else if 3200 < ofs.natAbs then count1 (iTRE x.tree) 20 s
  else
    let h := x.start + r * treF s x.tree 0x18 0 9 + guardBlk s x.tree + preBlk s x.tree
    let a : Ann :=
      { serial := BitVec.ofNat 64 (beAt b 0 8), delta := x.tarr - ((blkSteps s x.tree * h : Nat) : Int), tick := s.tim.tick, slot := r,
        cap := BitVec.ofNat 8 (byteAt b 9), tresp := ofs,
        model := BitVec.ofNat 32 (beAt b 14 4), hostData := BitVec.ofNat 128 (beAt b 18 16) }
    modChn x.tree (fun c => { c with wins := c.wins.map fun w => if w.tick = x.ut then { w with heard := w.heard + 1 } else w })
      (modTre x.tree (fun y => { y with anns := y.anns ++ [a] }) s)

/-- A TU on the management handle (R84, R86). DESIGN CHOICE (log entry 31): a valid ALARM has no effect and writes no notice, for no rule
gives it either; the burst buffer holds it. -/
def takeTmm (x : BurstIn) (u : Tu) (s : State) : State :=
  let m := u.body
  let ty := byteAt m 0
  let up := ty == 1 || ty == 7 || ty == 0x0C || ty == 0x0D || ty == 0x0F
  if u.ksel ≠ 0 ∨ u.len ≠ 48 ∨ !u.first ∨ !u.last ∨ crc16 (m.take 46) ≠ beAt m 46 2 ∨ !up ∨ ((ty == 1) != (x.kind == .window)) = true then
    count1 (iTRE x.tree) 23 s
  else
    let b := sub m 4 40
    let ack := fun (type : Nat) (seq : Nat) (res : Nat) =>
      modTre x.tree (fun y => { y with acks := y.acks ++ [⟨x.tid, type, BitVec.ofNat 8 seq, res, x.ut, x.delta⟩] }) s
    if ty = 1 then takeAnnounce x b s
    else if ty = 7 then keyOffer x.tree x.tid x.rx u.blk m s
    else if ty = 0x0D then ack 0x0D (byteAt m 1) 0
    else if ty = 0x0F then ack (byteAt b 1) (byteAt b 0) (byteAt b 2)
    else s

/-- A data TU: refused clear ones are dropped, others go through the cipher edge to reassembly (R37, R282). While the tree's slice is
being handed over, the burst buffer holds them back from the cipher edge, and they are replayed (R289, R389). -/
def takeData (x : BurstIn) (u : Tu) (s : State) : State :=
  let t := x.tree
  if u.ksel = 0 ∧ treF s t 0x1C 1 1 = 1 then closeHandle t u.idx (countO (iTRE t) 27 x.tid 1 s)
  else
    let s1 := modEst t u.idx (fun e => { e with rx := e.rx + u.n }) s
    let p : Piece :=
      { req := none, wait := none, ok := true, tid := x.tid, first := u.first, last := u.last, bytes := u.body.take u.len,
        stamp := usStamp s t x.ut u.blk, pos := (x.ut, u.blk), out := s.tim.now + 8 + ceilDiv u.len 128 }
    if u.ksel = 0 then pushPiece t u.idx p s1
    else
      let hdr := u.hdr
      if handingFrom s1 (homeT s1 t) then
        let q : CpqReq :=
          { seq := 0, enc := false, slot := slotNo t u.tid u.ksel, tree := t, tid := u.tid, tick := x.ut, ord := u.blk, hnd := u.idx,
            first := u.first, last := u.last, hdr := hdr, body := u.body, replay := true, gen := 0, eop := 0,
            lane := 0, since := true }
        pushPiece t u.idx { p with wait := some q, bytes := [] } s1
      else
        let r := cpqIssue false t u.tid u.ksel x.ut u.blk u.idx u.first u.last false hdr u.body s1
        pushPiece t u.idx { p with req := r.2, ok := r.2.isSome, bytes := [] } r.1

/-- One TU of an entry's span (Table 3-8); the Bool says that a data TU of the entry has been seen. -/
def takeTu (x : BurstIn) (e : MapEnt) (a : State × Bool) (u : Tu) : State × Bool :=
  let s := a.1
  let t := x.tree
  let mg := if x.kind = .window then 4095 else x.tid
  let tmm := u.idx == mg && e.bs && !a.2
  if !u.hck then (closeHandle t e.hnd (count1 (iTRE t) 7 s), a.2)
  else if u.err then ((if tmm then count1 (iTRE t) 8 s else closeHandle t u.idx (count1 (iTRE t) 8 s)), a.2)
  else if !tmm && u.idx != e.hnd then (count1 (iTRE t) 9 s, a.2)
  else if e.start + e.len < u.blk + u.n then (count1 (iTRE t) 10 s, a.2)
  else if u.ksel = 3 then (count1 (iTRE t) 11 s, a.2)
  else if tmm then (takeTmm x u s, a.2)
  else (takeData x u s, true)

/-- The blocks of an entry that may carry TUs: first, and the one after the last. -/
def entRoom (s : State) (t : Nat) (head rpt : Nat) (e : MapEnt) : Nat × Nat :=
  (if e.bs then head + 1 + rpt else e.start, e.start + e.len - if e.last then eobBlk s t else 0)

/-- The entries' TUs in turn, and the blocks that were sent idle (R58). -/
def takeEntries (x : BurstIn) (head rpt : Nat) (blocks : List UsBlock) (ents : List MapEnt) (s : State) : State × Nat :=
  ents.foldl
    (fun a e =>
      let room := entRoom a.1 x.tree head rpt e
      let tus := spanTus room.2 (room.2 - room.1 + 1) room.1 (blocks.drop (room.1 - head))
      let used := tus.foldl (fun n u => n + min u.n (room.2 - u.blk)) 0
      ((tus.foldl (takeTu x e) (a.1, false)).1, a.2 + (room.2 - room.1 - used))) (s, 0)

/-! ## Reports (R77, R134, R135) -/

/-- Entries of a report block. -/
def reportEnts (b : UsBlock) : List (Nat × Nat) :=
  [96, 64, 32, 0].map fun lo => let v := nfld b.data.toNat lo 32; (v / 2 ^ 20, v % 2 ^ 20)

/-- The solicited report blocks of a burst are used. -/
def takeReports (t tid ut start : Nat) (l : List UsBlock) (rpt : Nat) (s : State) : State :=
  let bad := (l.filter (·.err)).length
  let ents := (l.filter (fun b => !b.err)).flatMap reportEnts
  let own := handlesOf s t tid
  let s1 := countN (iTRE t) 35 bad s
  let named := ents.filter (fun e => e.1 != 0)
  let s2 := named.foldl (fun s e => if own.contains e.1 then takeReport t e.1 ut start e.2 s else s) s1
  if rpt ≠ 0 ∧ ents.any (fun e => e.1 == 0) = true then
    own.foldl (fun s h => if named.any (fun e => e.1 == h) then s else takeReport t h ut start 0 s) s2
  else s2

/-! ## One burst (R78) -/

/-- A burst header with DG and TMMP is accepted: the miss count restarts (R112). -/
def headerTaken (t tid ut start d : Nat) (s : State) : State :=
  modCtx t tid (fun c => { c with miss := 0, tmmp := d.testBit 104, dg := c.dg || d.testBit 103 }) (markSeen t ut start s)

/-- The received blocks of a window's or ranging burst, from its header at block `blk`, as far as the reception span reaches: to block
`stop`. -/
def heldSpan (e0 : MapEnt) (blk : Nat) (stop : Int) (blocks : List UsBlock) : MapEnt :=
  { e0 with start := blk, len := min blocks.length (stop - blk).toNat, last := false }

/-- A burst that passed the checks of its header, received from block `blk` of upstream tick `ut` on. TUs beyond its reception span are
discarded (R78, R115, R119). DESIGN CHOICE (log entry 31): the acceptance window of R123 is not applied to a directed ranging burst, which its
reception span holds within RQ_BLK of its place, not even of a tracked terminal that is being ranged again. -/
def burstBody (t ut : Nat) (h : Hit) (e0 : MapEnt) (tarr : Int) (blk : Nat) (blocks : List UsBlock) (s : State) : State :=
  let d := (blocks.headD ⟨0, true⟩).data.toNat
  let tid := nfld d 118 10
  let due := e0.start + guardBlk s t + preBlk s t
  let delta := tarr - ((blkSteps s t * due : Nat) : Int)
  let x : BurstIn := ⟨t, tid, h.tick, h.kind, tarr, delta, e0.start, if h.kind = .data then h.tick else ut⟩
  match h.kind with
  | .window =>
    let stop : Int := match winAt s t h.tick with | some w => tickAhead s t ut h.tick + (w.start + w.len + w.qa : Nat) | none => blk
    (takeEntries x blk 0 blocks [heldSpan e0 blk stop blocks] s).1
  | .ranging =>
    let s0 := rangeMeasure t tid h.tick delta (headerTaken t tid h.tick e0.start d s)
    let s1 := if tracked (ctxOf s t tid).state then driftUpdate t tid h.tick delta s0 else s0
    let stop : Int := tickAhead s t ut h.tick + (e0.start + e0.len + treF s t 0x20 0 10 : Nat)
    (takeEntries x blk 0 blocks [heldSpan e0 blk stop blocks] s1).1
  | .data =>
    let c := ctxOf s t tid
    if !(accepts s t c delta) then countO (iTRE t) 17 tid 1 s
    else
      let s1 := headerTaken t tid h.tick e0.start d s
      let s2 := if tracked c.state then driftUpdate t tid h.tick delta s1 else s1
      let rpt := e0.rpt
      let oh := guardBlk s t + preBlk s t + 1 + rpt + eobBlk s t
      let s3 := countO (iTRE t) 1 tid oh (countO (iTRE t) 0 tid 1 s2)
      let r := takeEntries x due rpt blocks h.ents s3
      takeReports t tid h.tick e0.start ((blocks.drop 1).take rpt) rpt (countO (iTRE t) 2 tid r.2 r.1)

/-- Steps from the boundary of tick `m` to its upstream strobe: as it was set there, or, for a tick to come, as it would be (R83, R103). -/
def strobeOf (s : State) (t m : Nat) : Nat := (tFind m (treOf s t).usRtt).getD (eqRtt s t)

/-- The arrival, in steps, of a header that comes `sob` cycles after the strobe of tick `ut`, relative to the strobe of tick `m` (R103). -/
def arrivalOf (s : State) (t ut m : Nat) (sob : Int) (ph : Nat) : Int :=
  let a := strobeOf s t ut
  let z := strobeOf s t m
  64 * (sob + (a / 64 : Nat) - (z / 64 : Nat) - ((m : Int) - ut) * tickCyc - treF s t 0x20 16 8) + ph - (z % 64 : Nat)

/-- UPSTREAM_BURST: the burst is copied to the burst buffer, and checked (Table 3-8). Blocks outside every granted span count as one event of
the burst (log entry 31). -/
def usBurst (t ut : Nat) (sob : Int) (ph blk : Nat) (blocks : List UsBlock) (s : State) : State :=
  if !(domOn s (domTP t)) || (treOf s t).fenced then s
  else if !(treOf s t).run then count1 (iTRE t) 13 s
  else
    let s1 := modTre t (fun r => { r with bursts := r.bursts ++ [⟨ut, blk, blocks, s.tim.tick, !s.tim.cutDone, false⟩] }) s
    let hit := grantAt s1 t ut blk
    let s0 := match hit with
      | some h => if (List.range blocks.length).any (fun k => strayAt s1 t h.tick (burstBlk s1 t ut blk h + k)) then count1 (iTRE t) 13 s1 else s1
      | none => s1
    match hit, blocks with
    | none, _ => count1 (iTRE t) 13 s0
    | some _, [] => s0
    | some h, b :: _ =>
      let d := b.data.toNat
      let e0 := h.ents.headD ⟨0, 0, 0, false, 0, false, false, false, 0, false⟩
      if !(headGood b) then
        modChn t (fun c => { c with wins := c.wins.map fun w => if inWindow s0 t ut blk w then { w with bad := w.bad + 1 } else w })
          (count1 (iTRE t) 3 s0)
      else if nfld d 108 4 ≠ 3 ∨ nfld d 112 6 ≠ t ∨ nfld d 80 16 ≠ h.tick % 2 ^ 16 ∨ nfld d 64 12 ≠ e0.hnd then count1 (iTRE t) 4 s0
      else if nfld d 118 10 ≠ entOwner s0 t e0 then count1 (iTRE t) 5 s0
      else if nfld d 105 3 ≠ e0.rpt then count1 (iTRE t) 6 s0
      else
        burstBody t ut h e0 (arrivalOf s0 t ut h.tick sob ph) blk blocks s0

/-! ## Missed bursts (R78, R98, R112, R123, R152) -/

/-- MISSED_BURST: no header was accepted at the BS entry that starts at `blk` of upstream tick `ut`. -/
def missedBurst (t ut blk : Nat) (s : State) : State :=
  if !(treLive s t) then s
  else
    match (tGet [] (treOf s t).grants ut).find? (fun e => e.bs && !e.disc && e.start == blk && !e.seen) with
    | none => s
    | some e =>
      let tid := entOwner s t e
      let s1 := missTerminal t tid (markSeen t ut blk s)
      let spans := ((winAt s t ut).toList.map winHere)
        ++ (((winAt s t (ut + 1)).toList.filter (fun w => w.start < w.qb)).map (winBefore (blksPerTick s t)))
      let timed := decide (1024 ≤ e.hnd) && aClass (tGet W4.zero (chnOf s t).alloc e.hnd) == 1
      if timed && covered spans e.start (e.start + e.len) != 0 then countO (iTRE t) 25 e.hnd 1 s1 else s1
def execMissedBurst (tree : BitVec 6) (utick : BitVec 48) (blk : BitVec 17) (s : State) : Outcome :=
  .next (missedBurst tree.toNat utick.toNat blk.toNat (begin_ s))

end Sys2Proof.Machine
end

