-- ==== Sys2Proof/Machine/Select.lean ====
section
/-!
DEFINITION. Downstream selection and assembly (R33 to R35, R73, R74, R86, R118, R167, R169, R249 to R254, R260, R281, R363,
R396). A selection is taken at the boundary of the beat three before its own, held beside the queues, and committed by
SELECTION_COMMIT.
-/

namespace Sys2Proof.Machine

/-! ## What goes on a wire (R166, R167, R169) -/

/-- The frame, or its segment `k`, as a wire of a given MAXLEN carries it, FCS included; the Bool says that it is cut short for its
length and stomped. -/
def wireBytes (maxlen : Nat) (f : Frame) (k : Nat) : List Byte × Bool :=
  let b := outBytes f k
  if f.mark = .oversize then let x := f.bytes.take (min f.rxMax maxlen - 4); (x ++ stompOf x, true)
  else if maxlen < b.length + 4 then let x := b.take (maxlen - 4); (x ++ stompOf x, true)
  else (b ++ fcsOf b, false)

/-- Is the frame never sent on a wire (Table 6-2)? -/
def neverSent (f : Frame) : Bool := f.mark == .runt || markBad f.mark

/-! ## KSEL (R281, R288) -/

/-- Downstream KSEL of a terminal in tick `m`. -/
def kselAt (c : Ctx) (m : Nat) : Nat :=
  match c.kselNext with
  | some (k, v) => if k ≤ m then v else c.ksel
  | none => c.ksel

/-- KSEL of a data TU of tick `m`; an edge or framer loop sends everything clear (R508). -/
def kselFor (s : State) (t tid m : Nat) : Nat :=
  if loopT s t = 3 ∨ loopT s t = 4 then 0 else if tid = 0 then treF s t 0x38 0 2 else kselAt (ctxOf s t tid) m

/-! ## A selection in the making -/

/-- What a selection has done so far. `s` holds what it has discarded. -/
structure SelRun where
  s : State
  m : Nat                       -- tick of its beat
  blk : Nat                     -- first free block of the tick
  fin : Nat                     -- block after the beat's last
  stop : Bool
  pos : Tab Nat                 -- tokens taken from each queue
  seg : Tab Nat                 -- segments sent of the head, where selection changed it
  cc : Tab Int
  pc : Tab Int
  dfc : Tab Int
  rr : Tab Nat
  off : List Nat                -- queues ineligible for the rest of it (R252)
  aged : Nat                    -- aged discards (R250)
  steps : Nat                   -- selector cycles (R254)
  deep : Nat                    -- deep cells taken (R260)
  tus : List DsTu
  taken : List (Nat × Token)
  fetch : List (Nat × Nat × Nat)
  seen : List (Nat × Nat × Nat × Nat) -- takes of the other trees from deep memory in this beat: tree, and as in `fetch`
  tmms : List (Tmm × List Byte)
  cont : Option Cont
deriving DecidableEq, Repr

/-- Give the next `n` blocks to a TU. -/
def SelRun.place (r : SelRun) (u : DsTu) : SelRun :=
  { r with
    tus := r.tus ++ [{ u with blk := r.blk }], blk := r.blk + u.nblk, stop := r.stop || decide (r.fin ≤ r.blk + u.nblk) }

/-- The TU of a frame, or of a part of it. -/
def dataTu (q n tid idx nblk ksel seg : Nat) (first last unref : Bool) (body : List Byte) : DsTu :=
  { blk := 0, nblk := nblk, queue := q, frame := n, tid := tid, idx := idx, first := first, last := last, ksel := ksel, body := body,
    tag := [], done := false, ready := false, idle := false, redo := false, unref := unref, seg := seg, seen := none }

/-- R253 item 1: the continuation opens the beat, charged to PC only, under the KSEL of its own beat. -/
def selCont (t : Nat) (c : Option Cont) (r : SelRun) : SelRun :=
  match c with
  | none => r
  | some c =>
    let ksel := kselFor r.s t c.tid r.m
    let n := tuBlks c.body.length ksel
    let r1 := r.place (dataTu c.queue c.frame c.tid c.idx n ksel c.seg false true c.unref c.body)
    { r1 with pc := tPut c.queue ((tFind c.queue r1.pc).getD (pcOf r1.s c.queue) - 16 * n) r1.pc, steps := r1.steps + 1 }

/-- The body that a message is sent with in tick `m`: the newest delay, and the tick it names (R118, R120, R363). -/
def tmmBody (s : State) (t m : Nat) (x : Tmm) : List Byte :=
  let c := ctxOf s t x.tgt
  let b :=
    if x.type = 4 then patch x.body 0 (beBytes 4 (toTwos 32 (c.resEqd.getD (ofBe (x.body.take 4)))))
    else if x.type = 6 ∧ c.conv = true then patch x.body 0 (beBytes 6 (tdOf s t c)) else x.body
  match x.tickAt with
  | some o => patch b o (beBytes 6 (m + 1))
  | none => b

/-- The 48 bytes of a message (Table 3-11); a TMM_SEND image keeps every byte but its CRC (R323). -/
def tmmBytes (x : Tmm) (body : List Byte) : List Byte :=
  let b := if x.full.isEmpty then [BitVec.ofNat 8 x.type, x.seq] ++ beBytes 2 (x.tgt % 1024) ++ body ++ [0, 0] else x.full.take 46
  b ++ beBytes 2 (crc16 b)

/-- R253 item 2: messages in queue order, at most 256 in a tick (R86). -/
def selTmms (t : Nat) (r : SelRun) : SelRun :=
  let x := treOf r.s t
  let sent := if x.tmmTick = r.m then x.tmmN else 0
  ((x.tmmq.filter (tmmGoes r.s t)).take (min (256 - sent) ((r.fin - r.blk) / 4))).foldl
    (fun r m =>
      let body := tmmBody r.s t r.m m
      let r1 := r.place (dataTu 131072 0 m.tid 0 4 0 0 true true false (tmmBytes m body))
      { r1 with tmms := r1.tmms ++ [(m, body)], steps := r1.steps + 1 }) r

/-! ## Eligibility (R249, R250, R252, R260) -/

/-- Remove a token from its queue, its cells no longer charged. -/
def eraseToken (q : Nat) (t : Token) (s : State) : State :=
  addChg q (-(t.est : Int)) (setQueue q ((queueOf s q).filter (fun x => x.seq != t.seq)) s)

/-- Deep cells of a list of takes. -/
def deepCells (s : State) (l : List (Nat × Nat × Nat)) : Nat := l.foldl (fun n x => n + ((frameOf s x.2.2).map (·.deep.length)).getD 0) 0

/-- Deep reads queued in the deep port in a cycle of the selection: those queued before, those that the other trees' selections have taken by
then, the lower tree first in one cycle, and its own, less one for each cycle that has passed (R260). -/
def deepQueued (t : Nat) (r : SelRun) : Nat :=
  let before := fun (e : Nat × Nat × Nat × Nat) => e.1 != t && (decide (e.2.1 < r.steps) || (e.2.1 == r.steps && decide (e.1 < t)))
  (r.s.qbm.dpAt - r.s.tim.now) + ((r.s.qbm.fetch.filter (!·.sent)).foldl (fun n x => n + fetchCells r.s x) 0)
    + deepCells r.s ((r.seen.filter before).map (·.2)) + r.deep - r.steps

/-- May a deep head be taken? -/
def deepTakes (t : Nat) (f : Frame) (r : SelRun) : Bool :=
  decide (r.deep + f.deep.length ≤ regF r.s (pageDPT + 0x100 + 4 * t) 0 14)
    && decide (r.steps + 1 + deepQueued t r + 4096 ≤ 15624)
    && decide (hdrm r.s + r.deep < freeCells r.s) && domOn r.s domDP

/-- The head of a queue after aged and unsendable tokens have been discarded: its token and frame; none where the queue is or
becomes ineligible. `fuel` bounds the tokens looked at. -/
def selHead (t q : Nat) (c : W4) : Nat → SelRun → SelRun × Option (Token × Frame)
  | 0, r => (r, none)
  | fuel + 1, r =>
    match ((queueOf r.s q).drop (tGet 0 r.pos q)).head? with
    | none => ({ r with off := q :: r.off }, none)
    | some k =>
      match frameOf r.s k.frame with
      | none => selHead t q c fuel { r with s := eraseToken q k r.s }
      | some f =>
        if qAge c ≠ 0 ∧ qAge c < (r.m % 2 ^ 16 + 2 ^ 16 - k.etick) % 2 ^ 16 then
          if 1024 ≤ r.aged then ({ r with off := q :: r.off }, none)
          else
            selHead t q c fuel
              { r with
                s := dropToken q 9 k (setQueue q ((queueOf r.s q).filter (fun x => x.seq != k.seq)) r.s), aged := r.aged + 1,
                seg := if tGet 0 r.pos q = 0 then tPut q 0 r.seg else r.seg, steps := r.steps + 1 }
        else if neverSent f then selHead t q c fuel { r with s := release1 k.frame (eraseToken q k r.s) }
        else if f.cells.isEmpty && !f.deep.isEmpty && !(deepTakes t f r) then ({ r with off := q :: r.off }, none)
        else if asleep r.s f then ({ r with off := q :: r.off, s := wakeGroups f r.s }, none)
        else ({ r with s := wakeGroups f r.s }, some (k, f))

/-- Is a queue eligible, its head aside? An edge or framer loop ignores terminal state and binding (R508). -/
def selOpen (t : Nat) (c : W4) (r : SelRun) : Bool :=
  let tid := qTid c
  qEn c && (tid == 0 || loopT r.s t == 3 || loopT r.s t == 4 || ((ctxOf r.s t tid).state == .active && tGet .none (chnOf r.s t).svc (svcKey tid (qIdx c)) == .bound))

/-- The eligible head of a queue. -/
def selElig (t q : Nat) (c : W4) (r : SelRun) : SelRun × Option (Token × Frame) :=
  if r.off.contains q then (r, none)
  else if !(selOpen t c r) then ({ r with off := q :: r.off }, none)
  else selHead t q c ((queueOf r.s q).length + 1) r

/-! ## Taking frames (R65, R73, R74, R194, R253) -/

/-- The segment that the head of a queue sends next. -/
def segNext (r : SelRun) (q : Nat) : Nat := (tFind q r.seg).getD (if tGet 0 r.pos q = 0 then tGet 0 r.s.qbm.segs q else 0)

/-- Payload of the head's next frame. -/
def selBody (t q : Nat) (f : Frame) (r : SelRun) : List Byte := (wireBytes (treF r.s t 0x34 0 14) f (segNext r q)).1

/-- Charge `n` blocks to a queue: CC and PC, or PC and the deficit. -/
def SelRun.charge (q n : Nat) (excess : Bool) (r : SelRun) : SelRun :=
  let pc := tPut q ((tFind q r.pc).getD (pcOf r.s q) - 16 * n) r.pc
  if excess then { r with pc := pc, dfc := tMod 0 r.dfc q (fun v => v - n) } else { r with pc := pc, cc := tMod 0 r.cc q (fun v => v - 16 * n) }

/-- The queue moves past what it has sent: the next segment, or the next token. -/
def SelRun.advance (q : Nat) (k : Token) (f : Frame) (r : SelRun) : SelRun :=
  let g := segNext r q
  let fetched := if f.cells.isEmpty && !f.deep.isEmpty && g == 0 then
      { r with fetch := r.fetch ++ [(r.steps, q, k.frame)], deep := r.deep + f.deep.length } else r
  if g + 1 < outCount f then { fetched with seg := tPut q (g + 1) fetched.seg, steps := r.steps + 1 }
  else
    { fetched with
      taken := fetched.taken ++ [(q, k)], pos := tMod 0 fetched.pos q (· + 1), seg := tPut q 0 fetched.seg, steps := r.steps + 1 }

/-- Take the head's next frame, split where it does not fit (R74). -/
def selTake (t q : Nat) (c : W4) (excess : Bool) (k : Token) (f : Frame) (r : SelRun) : SelRun :=
  let ksel := kselFor r.s t (qTid c) r.m
  let body := selBody t q f r
  let n := tuBlks body.length ksel
  let room := r.fin - r.blk
  let unref := decide (outCount f ≤ segNext r q + 1)
  if n ≤ room then
    ((r.place (dataTu q k.frame (qTid c) (qIdx c) n ksel (segNext r q) true true unref body)).charge q n excess).advance q k f
  else if 8 ≤ room then
    let p := 16 * room - 8 - (if ksel = 0 then 0 else 16)
    let r1 := ((r.place (dataTu q k.frame (qTid c) (qIdx c) room ksel (segNext r q) true false false (body.take p))).charge q room excess).advance q k f
    { r1 with cont := some ⟨q, k.frame, qTid c, qIdx c, body.drop p, unref, segNext r q⟩, stop := true }
  else { r with stop := true }

/-- Round-robin position of a tree, priority and round; queues after it come first. -/
def rrKey (t prio : Nat) (excess : Bool) : Nat := (t * 8 + prio) * 2 + b2n excess
def rotateQ (pos : Nat) (l : List (Nat × W4)) : List (Nat × W4) :=
  l.filter (fun e => pos ≤ e.1) ++ l.filter (fun e => e.1 < pos)

/-- Peak credit in a selection. -/
def SelRun.pcNow (r : SelRun) (q : Nat) : Int := (tFind q r.pc).getD (pcOf r.s q)

/-- One turn of the committed round: one frame, if the queue has credit (R253 item 3). The Bool says that a frame was taken. -/
def committedTurn (t key : Nat) (a : SelRun × Bool) (e : Nat × W4) : SelRun × Bool :=
  let r := a.1
  if r.stop || decide (tGet 0 r.cc e.1 ≤ 0) || decide (r.pcNow e.1 ≤ 0) then a
  else match selElig t e.1 e.2 r with
    | (r1, none) => (r1, a.2)
    | (r1, some (k, f)) =>
      let r2 := selTake t e.1 e.2 false k f r1
      if r2.blk = r1.blk then (r2, a.2) else ({ r2 with rr := tPut key (e.1 + 1) r2.rr }, true)

/-- The committed round of one priority. -/
def committedRound (t key : Nat) (l : List (Nat × W4)) : Nat → SelRun → SelRun
  | 0, r => r
  | fuel + 1, r =>
    if r.stop then r
    else
      let a := (rotateQ (tGet 0 r.rr key) l).foldl (committedTurn t key) (r, false)
      if a.2 then committedRound t key l fuel a.1 else a.1

/-- Frames of one queue within its deficit. -/
def excessServe (t q : Nat) (c : W4) : Nat → SelRun → SelRun
  | 0, r => r
  | fuel + 1, r =>
    if r.stop || decide (r.pcNow q ≤ 0) then r
    else match selElig t q c r with
      | (r1, none) => if (queueOf r1.s q).length ≤ tGet 0 r1.pos q then { r1 with dfc := tSet 0 r1.dfc q 0 } else r1
      | (r1, some (k, f)) =>
        let n := tuBlks (selBody t q f r1).length (kselFor r1.s t (qTid c) r1.m)
        if tGet 0 r1.dfc q < n then r1
        else
          let r2 := selTake t q c true k f r1
          if r2.blk = r1.blk then r2 else excessServe t q c fuel r2

/-- One turn of the excess round: the quantum of 64 x WGT blocks, and the frames it pays for (R253 item 4). A queue without a frame
keeps no deficit. The Bool says that the queue had a frame. -/
def excessTurn (t key : Nat) (a : SelRun × Bool) (e : Nat × W4) : SelRun × Bool :=
  let r := a.1
  if r.stop || decide (r.pcNow e.1 ≤ 0) then a
  else match selElig t e.1 e.2 r with
    | (r1, none) =>
      (if (queueOf r1.s e.1).length ≤ tGet 0 r1.pos e.1 then { r1 with dfc := tSet 0 r1.dfc e.1 0 } else r1, a.2)
    | (r1, some _) =>
      let r2 := { r1 with dfc := tMod 0 r1.dfc e.1 (· + 64 * qWgt e.2), rr := tPut key (e.1 + 1) r1.rr }
      (excessServe t e.1 e.2 10001 r2, true)

/-- The excess round of one priority. -/
def excessRound (t key : Nat) (l : List (Nat × W4)) : Nat → SelRun → SelRun
  | 0, r => r
  | fuel + 1, r =>
    if r.stop then r
    else
      let a := (rotateQ (tGet 0 r.rr key) l).foldl (excessTurn t key) (r, false)
      if a.2 then excessRound t key l fuel a.1 else a.1

/-- Both rounds over the queues of a tree, priorities 7 down to 0. -/
def selRounds (t : Nat) (qs : List (Nat × W4)) (r : SelRun) : SelRun :=
  let prios := [7, 6, 5, 4, 3, 2, 1, 0]
  let of := fun (p : Nat) => qs.filter (fun e => qPrio e.2 == p)
  let r1 := prios.foldl (fun r p => if (of p).isEmpty then r else committedRound t (rrKey t p false) (of p) 10001 r) r
  prios.foldl (fun r p => if (of p).isEmpty then r else excessRound t (rrKey t p true) (of p) 200000 r) r1

/-! ## The selection of a beat (R33, R253, R254) -/

/-- Credits refilled before the selection (R251). -/
def refillCredits (bpt t : Nat) (ctx : Tab W4) (s : State) : Tab Int × Tab Int :=
  let mine := fun (k : Nat) => k / 2048 == t
  let keys := ((s.qbm.pc.map (·.1) ++ ctx.map (·.1)).filter mine).dedup
  keys.foldl
    (fun a q =>
      let c := tGet W4.zero ctx q
      let p := pcRate bpt c
      (tSet 0 a.1 q (min (tGet 0 a.1 q + ((qCir c * 16 / 10 : Nat) : Int)) (ccCap c)),
       tPut q (min (pcOf s q + ((p * 16 / 10 : Nat) : Int)) (pcCap bpt c)) a.2)) (s.qbm.cc, s.qbm.pc)

/-- Will this block carry the tree in tick `m`, under the registers of that tick (R51, R97, R99)? -/
def carriesAt (s : State) (t m : Nat) : Bool := carriesIn (viewAt m s) t m

/-- A domain becomes ON in this cycle, by an exit: a selection whose point falls in it does not run (R449). -/
def wokeNow (s : State) (d : Nat) : Bool := let p := pdom s d; p.state == 0 && p.phase == 0 && p.a != 0 && p.a == s.tim.now

/-- Does a handover of the tree's home stand in the way of a selection? -/
def homeWorks (s : State) (t : Nat) : Bool := !(lostTree s t) && !(handingFrom s (homeT s t))

/-- The first block that a beat may give to TUs (R72). -/
def firstBlk (bpb b : Nat) : Nat := b % 10 * bpb + if b % 10 = 0 then 3 else 0

/-- The entries of a table that a selection changed. -/
def changed {α : Type} [DecidableEq α] (old new : Tab α) : List (Nat × α) := new.filter (fun e => tFind e.1 old != some e.2)

/-- The selection of tree `t` for absolute beat `b`, held until its commit; `seen` is what the other trees take from deep memory. -/
def selectTree (t b : Nat) (seen : List (Nat × Nat × Nat × Nat)) (s : State) : State :=
  if !(treLive s t) || wokeNow s (domTP t) || !(homeWorks s t) || !(carriesAt s t (b / 10)) || decide (b < (treOf s t).emitFrom) then s
  else
    let m := b / 10
    let v := viewAt m s
    let bpt := blksPerTick s t
    let bpb := bpt / 10
    let cr := refillCredits bpt t v.qbm.ctx s
    let r0 : SelRun :=
      { s := { v with qbm := { v.qbm with cc := cr.1, pc := cr.2 } }, m := m, blk := firstBlk bpb b, fin := (b % 10 + 1) * bpb,
        stop := false, pos := [], seg := [], cc := cr.1, pc := cr.2, dfc := s.qbm.dfc, rr := s.qbm.rr, off := [], aged := 0,
        steps := 1, deep := 0, tus := [], taken := [], fetch := [], seen := seen, tmms := [], cont := none }
    let qs := v.qbm.ctx.filter (fun e => e.1 / 2048 == t && qEn e.2)
    let r := selRounds t qs (selTmms t (selCont t (treOf s t).cont r0))
    -- the registers and contexts of a pending image were only looked at
    let s1 := { r.s with
      regs := s.regs,
      qbm := { r.s.qbm with ctx := s.qbm.ctx, cc := s.qbm.cc, pc := s.qbm.pc } }
    let x : Selection :=
      { beat := b, tus := r.tus, taken := r.taken, cc := changed s.qbm.cc r.cc ++ (s.qbm.cc.filter (fun e => (tFind e.1 r.cc).isNone)).map (fun e => (e.1, 0)),
        pc := changed s.qbm.pc r.pc, dfc := changed s.qbm.dfc r.dfc ++ (s.qbm.dfc.filter (fun e => (tFind e.1 r.dfc).isNone)).map (fun e => (e.1, 0)),
        rr := changed s.qbm.rr r.rr, segs := r.seg, fetch := r.fetch, tmms := r.tmms, cont := r.cont }
    modTre t (fun y => { y with cont := none }) { s1 with qbm := { s1.qbm with sel := tPut t x s1.qbm.sel } }

/-- What the selections in progress take from deep memory. -/
def takesDeep (s : State) : List (Nat × Nat × Nat × Nat) := s.qbm.sel.flatMap (fun e => e.2.fetch.map (e.1, ·))

/-- The selections of all trees for a beat, which run beside each other. What a tree may take from deep memory rests on what the others have
taken in earlier cycles: the selections are made again, each time with the takes found before, until nothing changes. Each round settles
one more take at least. -/
def selectAll (trees : List Nat) (b : Nat) : Nat → List (Nat × Nat × Nat × Nat) → State → State
  | 0, seen, s => trees.foldl (fun s t => selectTree t b seen s) s
  | fuel + 1, seen, s =>
    let s1 := trees.foldl (fun s t => selectTree t b seen s) s
    if takesDeep s1 = seen then s1 else selectAll trees b fuel (takesDeep s1) s

/-! ## The commit (R396) -/

/-- RANGE_REQ names another EQD than the terminal then has, where R124 clamps it: that comes into force as an adjustment does. -/
def rangeReqSent (k : Nat) (eqd : Int) (c : Ctx) : Ctx :=
  let was := match c.adj with | some ⟨corr, some j⟩ => if j ≤ k then c.eqd + corr else c.eqd | some ⟨_, none⟩ => c.eqd | none => c.eqd
  let adj := if was = eqd then c.adj else some ⟨eqd - c.eqd, some k⟩
  { c with adj := adj, ranging := if c.ranging = some 0 then some k else c.ranging }

/-- A message leaves: what its first send fixes (R118, R120, R122, R288, R363), and its wait for the ACK (R85). DESIGN CHOICE (log entry 31): a
repeat of EQD_ADJUST names a later tick, but its correction is in force from the tick that the first copy named. -/
def tmmSent (t m : Nat) (x : Tmm) (body : List Byte) (s : State) : State :=
  let s1 := modTre t (fun r => { r with
    tmmq := r.tmmq.erase x, tmmOut := if x.acked then r.tmmOut ++ [{ x with body := body, sent := m }] else r.tmmOut,
    tmmTick := m, tmmN := (if r.tmmTick = m then r.tmmN else 0) + 1 }) s
  if !x.full.isEmpty then s1
  else if x.type = 3 then modCtx t x.tgt (rangeReqSent (m + 1) (ofBe (body.take 4))) s1
  else if x.type = 4 then modCtx t x.tgt (fun c => { c with resSent := c.resSent ++ [(m + 1, sext 32 (ofBe (body.take 4)))] }) s1
  else if x.type = 5 then
    modCtx t x.tgt (fun c => { c with adj := c.adj.map fun a => if a.apply.isNone then { a with apply := some (m + 1) } else a }) s1
  else if x.type = 6 then useFree (modCtx t x.tgt (fun c => { c with td := some (ofBe (body.take 6)) }) s1)
  else if x.type = 9 then
    if x.reps = 0 then modCtx t x.tgt (fun c => { c with ksel := kselAt c m, kselNext := some (m + 1, byteAt body 0) }) s1 else s1
  else s1

/-- A taken token leaves its queue, and the commit log moves past it (R392). -/
def takeToken (q : Nat) (k : Token) (s : State) : State := logStart q k (eraseToken q k s)

/-- The TU list of a beat is whole. What was withdrawn meanwhile goes out as idle blocks (R34); what a flush left is sent (R272). The fetches
that it takes wait for the deep port. -/
def takeSel (t : Nat) (s : State) : State :=
  match tFind t s.qbm.sel with
  | none => s
  | some x =>
    let here := fun (e : Nat × Token) => (queueOf s e.1).any (fun k => k.seq == e.2.seq)
    let gone := (x.taken.filter (fun e => !(here e))).map (fun e => (e.1, e.2.frame))
    let tq := (treOf s t).tmmq
    let lost := fun (u : DsTu) => gone.contains (u.queue, u.frame) && u.queue != 131072
    let dead := (x.tmms.filter (fun e => !(tq.contains e.1))).map (fun e => tmmBytes e.1 e.2)
    let tus := x.tus.map fun u =>
      if lost u then { u with idle := true, unref := false } else if u.queue = 131072 ∧ dead.contains u.body then { u with idle := true } else u
    let s1 := { s with qbm := { s.qbm with
      sel := tDel t s.qbm.sel
      cc := x.cc.foldl (fun a e => tSet 0 a e.1 e.2) s.qbm.cc
      pc := x.pc.foldl (fun a e => tPut e.1 e.2 a) s.qbm.pc
      dfc := x.dfc.foldl (fun a e => tSet 0 a e.1 e.2) s.qbm.dfc
      rr := x.rr.foldl (fun a e => tSet 0 a e.1 e.2) s.qbm.rr
      segs := x.segs.foldl (fun a e => tSet 0 a e.1 e.2) s.qbm.segs } }
    let s2 := (x.taken.filter here).foldl (fun s e => takeToken e.1 e.2 s) s1
    let from_ := s.tim.tickStart + (x.beat - 3) * beatCyc - 10 * s.tim.tick * beatCyc
    let s3 := x.fetch.foldl (fun s e => startFetch ⟨e.2.2, e.2.1, x.beat, from_ + e.1, false⟩ s) s2
    let s4 := (x.tmms.filter (fun e => tq.contains e.1)).foldl (fun s e => tmmSent t (x.beat / 10) e.1 e.2 s) s3
    modTre t (fun r => { r with
      selOnce := true, stage := tPut x.beat tus r.stage,
      cont := match x.cont with
        | some c => if gone.contains (c.queue, c.frame) then none else some c
        | none => none }) s4

/-- A selection is committed (R396), and the deep port goes on. -/
def commitSel (t : Nat) (s : State) : State := if (tFind t s.qbm.sel).isSome then pumpFetches (takeSel t s) else s

/-- A selection that is not committed is discarded, and will be done again (R396): the continuation it began with returns. -/
def discardSel (t : Nat) (s : State) : State :=
  match tFind t s.qbm.sel with
  | none => s
  | some x =>
    let old := (x.tus.find? (fun u => !u.first && u.queue != 131072)).map fun u =>
      (⟨u.queue, u.frame, u.tid, u.idx, u.body, u.unref, u.seg⟩ : Cont)
    modTre t (fun r => { r with cont := old }) { s with qbm := { s.qbm with sel := tDel t s.qbm.sel } }

/-! ## Assembly (R33, R35, R280) -/

/-- The cycle in which the last block of a TU of tick `m` leaves. -/
def tuEnd (s : State) (t m : Nat) (u : DsTu) : Nat :=
  s.tim.tickStart + (m - s.tim.tick) * tickCyc + ceilDiv ((u.blk + u.nblk) * tickCyc) (blksPerTick s t)

/-- The units, and the rest, of one part of a frame from a queue go out idle. -/
def idlePart (t : Nat) (u : DsTu) (s : State) : State :=
  let same := fun (q n k : Nat) => q == u.queue && n == u.frame && k == u.seg
  modTre t (fun r => { r with
    stage := r.stage.map (fun b => (b.1, b.2.map (fun v => if same v.queue v.frame v.seg then { v with idle := true } else v)))
    cont := r.cont.filter (fun c => !(same c.queue c.frame c.seg)) }) s

/-- Reading the cells of a unit for a tree fails: idle blocks go out for its part of the frame (R263, R264). -/
def tuReadFails (t : Nat) (u : DsTu) (s : State) : State :=
  match frameOf s u.frame with
  | none => s
  | some f => match egrRead s f u.seg with
    | .clean => s
    | .cell c => cellFail c (idlePart t u s)
    | .link k => linkFail u.frame k s

/-- May assembly take a TU now? A frame that deep memory still owes is waited for until the end of cycle 0 (R261), and one that fails
its end-to-end CRC is for Machine/Beat.lean (R262, R397). A turning point drops the latter (R510). -/
def tuReads (s : State) (t : Nat) (u : DsTu) : Bool :=
  let data := u.queue != 131072
  !data || u.idle || !(fetching s u.queue u.frame || (!(turns (loopT s t)) && ((frameOf s u.frame).map (·.crcBad)).getD false))

/-- Assemble one TU of absolute beat `b`: its cells are read, and an encrypted one is asked for at the cipher edge. In a queue loop the TU
enters upstream reassembly instead (R507); a frame that comes round a second time, or fails its end-to-end CRC, is dropped (R510). -/
def assembleTu (t b : Nat) (u0 : DsTu) (s0 : State) : State :=
  let m := b / 10
  let set := fun (f : DsTu → DsTu) (s : State) => modStaged t m u0.blk f s
  let data := u0.queue != 131072
  let s := if data && !u0.idle then tuReadFails t u0 s0 else s0
  let u := ((tGet [] (treOf s t).stage b).find? (fun x => x.blk == u0.blk)).getD u0
  let turn := data && turns (loopT s t)
  let back := turn && ((frameOf s u.frame).map (fun f => f.looped || f.crcBad)).getD false
  let sent := if data then leaves u.frame (tuEnd s t m u) else id
  let s1 :=
    if back then set (fun u => { u with done := true, idle := true }) (if u.first then count1 11 1 s else s)
    else if turn && u.last && !u.idle && loopT s t != 2 then
      count1 11 0 (set (fun u => { u with done := true, ready := true }) (sent s))
    else if turn && !u.idle && loopT s t == 2 then
      let p : Piece :=
        { req := none, wait := none, ok := true, tid := u.tid, first := u.first, last := u.last, bytes := u.body, stamp := s.tim.time, pos := (0, 0), out := s.tim.now }
      let s2 := if u.last then count1 11 0 s else s
      pushPiece t u.idx p (set (fun u => { u with done := true, idle := true }) s2)
    else if u.idle then set (fun u => { u with done := true, idle := true }) s
    else if u.ksel = 0 then set (fun u => { u with done := true, ready := true }) (sent s)
    else
      let hdr := tuHeader u.tid u.idx u.body.length u.first u.last u.ksel
      let r := cpqIssue true t u.tid u.ksel m u.blk 0 u.first u.last u.redo hdr u.body (sent s)
      set (fun u => { u with done := true, idle := r.2.isNone }) r.1
  let s2 := if data && u.last then set (fun v => { v with seen := (frameOf s u.frame).map smpOf }) s1 else s1
  if u.unref then release1 u.frame s2 else s2

/-- Assemble what a tree's staging still lacks of absolute beat `b`. -/
def assemble (t b : Nat) (s : State) : State :=
  if !(homeWorks s t) then s
  else ((tGet [] (treOf s t).stage b).filter (fun u => !u.done && tuReads s t u)).foldl (fun s u => assembleTu t b u s) s

end Sys2Proof.Machine
end

