-- ==== Sys2Proof/Machine/Slices.lean ====
section
/-!
DEFINITION. The roles of the slices, the Skim's captures, and what the declaration of a fault does to a slice or a port: the fence, the
start of a handover or a re-homing, the forced reactions (R27 to R29, R379 to R392, R401, R404, R425, R431). What follows D lies in
Machine/Avail.lean.
-/

namespace Sys2Proof.Machine

/-! ## Roles and modes (R379 to R381) -/

/-- Slices with a role, in ascending order. -/
def slicesIn (s : State) (r : Role) : List Nat := (List.range 9).filter (fun i => roleOf s i == r)

/-- Lane accounting of a slice starts, or stops (R471, R473): what was pending at the stop is wasted. -/
def laneStart (i : Nat) (s : State) : State :=
  [0, 1].foldl (fun s d => laneMod i d (fun l => if l.since.isSome then l else { l with since := some s.tim.now }) s) s
def laneStop (i : Nat) (s : State) : State :=
  [0, 1].foldl (fun s d => laneMod i d (fun l => match l.since with
    | some c => { l with cyc := l.cyc + (s.tim.now - c), since := none, wasted := l.wasted + l.pending, pending := 0 }
    | none => l) s) s

/-- Has a slice work, so that its sections and its Churn engine send strobes (R387)? Every tree that it hosts gives its engine work in every
tick, and a word that it takes gives its sections some. -/
def hasWork (s : State) (i : Nat) : Bool :=
  let busy := fun (k : Nat) => decide (s.tim.now ≤ (tGet Sec.empty s.skm.sec k).at_)
  domOn s (domSL i) && (s.tim.started || busy (2 * i) || busy (2 * i + 1))

/-- A beat ends: each slice that works reports beat-done for it, and shows progress (R387). What a hung slice no longer sends is known only
by SLICE_WATCHDOG_EXPIRE (log entry 14). -/
def beatReports (s : State) : State :=
  ((List.range 9).filter (fun i => (roleOf s i == .active || roleOf s i == .shadow || roleOf s i == .loading) && hasWork s i)).foldl
    (fun s i => { s with skm := { s.skm with
      strobe := tSet 0 s.skm.strobe i s.tim.now, beatDone := tSet 0 s.skm.beatDone i (10 * s.tim.tick + s.tim.beat) } }) s

/-- A slice takes a role: lanes are accounted while it is ACTIVE, and the order in which slices were last SPARE is kept (R406). -/
def setRole (i : Nat) (r : Role) (s : State) : State :=
  let was := roleOf s i
  let s1 := if was = .active ∧ r ≠ .active then laneStop i s else s
  let pass := if r = .spare ∨ r = .testing then tSet 0 s1.skm.passAt i s1.tim.now else s1.skm.passAt
  let s2 := { s1 with skm := { s1.skm with
      role := tSet (roleDflt i) s1.skm.role i r, passAt := pass, strobe := tSet 0 s1.skm.strobe i s1.tim.now,
      beatDone := tSet 0 s1.skm.beatDone i (10 * s1.tim.tick + s1.tim.beat) } }
  let s3 := if was ≠ .active ∧ r = .active ∧ domOn s2 (domSL i) = true then laneStart i s2 else s2
  if was = .spare ∧ r ≠ .spare then
    { s3 with skm := { s3.skm with wasSpare := tSet 0 s3.skm.wasSpare i s3.skm.spareNo, spareNo := s3.skm.spareNo + 1 } }
  else s3

/-- Trees and ports that slice `h` serves: their home, where it has not left them homeless (R404). -/
def treesOf (s : State) (h : Nat) : List Nat := (List.range 64).filter (fun t => homeT s t == h && !(lostTree s t))
def portsOf (s : State) (h : Nat) : List Nat := (List.range 16).filter (fun p => homeU s p == h && !(lostPort s p))

/-- The block mode of Table 12-3. Between a declaration and the move of the homes the mode stays as it was (log entry 14). -/
def modeOf (s : State) : Nat :=
  if !s.glb.lostT.isEmpty || !s.glb.lostU.isEmpty then 3
  else if 8 ≤ (slicesIn s .active).length then
    if (slicesIn s .spare).isEmpty && (slicesIn s .shadow).isEmpty then 1 else 0
  else if s.skm.ho.any (fun h => !h.live) then s.skm.mode
  else 2

/-- A mode change writes its notice (R381). -/
def setMode (s : State) : State :=
  let m := modeOf s
  if m = s.skm.mode then s else notice0 0x57 0 (w32 m) 0 { s with skm := { s.skm with mode := m } }

/-- A slice reaches SPARE: a DEGRADED or IMPAIRED block then owes a restoring rotation (R405). -/
def becomeSpare (i : Nat) (s : State) : State :=
  let s1 := setRole i .spare s
  setMode (if 2 ≤ s1.skm.mode then { s1 with skm := { s1.skm with restore := true } } else s1)

/-- A tree's home is slice `h`; a tree that can open no window raises DISC_CFG in the engine that now works for it (R151, R420). -/
def moveTree (t h : Nat) (s : State) : State :=
  let s1 := setHomeT t h s
  if (chnOf s t).discBad && homeT s t != h then fault (iCHN h) 3 (w32 t) 0 2 h 0 s1 else s1

/-- Move trees and ports to a home. -/
def moveHomes (trees ports : List Nat) (h : Nat) (s : State) : State :=
  ports.foldl (fun s p => setHomeU p h s) (trees.foldl (fun s t => moveTree t h s) { s with glb := { s.glb with
    lostT := s.glb.lostT.filter (fun t => !(trees.contains t)), lostU := s.glb.lostU.filter (fun p => !(ports.contains p)) } })

/-! ## The Skim (R383 to R386, R391) -/

/-- Downstream egress of a tree, as a record holds it. -/
def egrRec (s : State) (t : Nat) : EgrRec :=
  let r := treOf s t
  let part := r.stage.find? (fun e => e.2.any (·.done) && e.2.any (fun u => !u.done))
  { sel := r.stage.foldl (fun n e => max n e.1) 0, cont := r.cont,
    asm := match part with | some e => (e.1, (e.2.filter (·.done)).length) | none => (0, 0) }

/-- Upstream tick of a tree's last burst in the burst buffer, and the block after it. -/
def burstPos (s : State) (t : Nat) : Nat × Nat :=
  match (treOf s t).bursts.getLast? with
  | some b => (b.utick, b.blk + b.blocks.length)
  | none => (0, 0)

/-- Capture one ACTIVE slice: its record, and from then on an empty replay record and empty receive lists (R389, R391). -/
def skimOne (i : Nat) (s : State) : State :=
  let trees := treesOf s i
  let mine := fun (k : Nat) => trees.contains (k / 2048)
  let x : SkimRec :=
    { tick := s.tim.tick, beat := s.tim.beat, at_ := s.tim.now, img := s.glb.img, trees := trees, ports := portsOf s i, ino := s.qbm.ino,
      bursts := trees.map (fun t => (t, burstPos s t)), egr := trees.map (fun t => (t, egrRec s t)),
      dfc := s.qbm.dfc.filter (fun e => mine e.1), rr := s.qbm.rr.filter (fun e => trees.contains (e.1 / 16)),
      shaper := (portsOf s i).map (fun p => (p, (uplOf s p).shaper)),
      tx := ((portsOf s i).filter (fun p => s.tim.now < (uplOf s p).busy)).filterMap (fun p => (uplOf s p).txFrame.map (p, ·)),
      chn := s.chn.filter (fun e => trees.contains e.1) }
  let keys := [secKey i false, secKey i true]
  count1 9 0
    { s with
      skm := { s.skm with
        skimPrev := match tFind i s.skm.skim with | some o => tPut i o s.skm.skimPrev | none => s.skm.skimPrev
        skim := tPut i x s.skm.skim }
      qbm := { s.qbm with
        repOld := keys.foldl (fun t k => tSet [] t k (tGet [] s.qbm.rep k)) s.qbm.repOld
        rep := keys.foldl (fun t k => tDel k t) s.qbm.rep }
      upl := (portsOf s i).foldl (fun t p => tMod Upl.empty t p (fun u => { u with recv := [] })) s.upl }

/-- Order 4 of Table 1-4. -/
def skimCapture (s : State) : State :=
  if skmEn s then (slicesIn s .active).foldl (fun s i => if domOn s (domSL i) then skimOne i s else s) s else s

/-- A fast detector in cycles 0 to 15 of a beat discards that beat's capture (R386). -/
def discardCapture (i : Nat) (s : State) : State :=
  let back := fun (t : Tab (List RepEntry)) (k : Nat) => tSet [] t k (tGet [] s.qbm.repOld k ++ tGet [] t k)
  count1 9 1
    { s with
      skm := { s.skm with skim := match tFind i s.skm.skimPrev with | some o => tPut i o s.skm.skim | none => tDel i s.skm.skim }
      qbm := { s.qbm with rep := back (back s.qbm.rep (secKey i false)) (secKey i true) } }

/-! ## Declaration (R386 to R390, R396, R404) -/

/-- The cipher channels of a slice are drained: what was asked is asked again, as a replay, once its tree has a slice again. -/
def drainCipher (i : Nat) (s : State) : State :=
  let all := fun (c : Nat) => (cpqChan s c).out ++ (cpqChan s c).line
  let old := all (2 * i) ++ all (2 * i + 1)
  let hold := fun (s : State) (q : CpqReq) =>
    if q.enc then modStaged q.tree q.tick q.ord (fun u => { u with done := false, redo := true, unref := false }) s
    else
      let r := reasmOf s q.tree q.hnd
      setReasm q.tree q.hnd
        { r with pieces := r.pieces.map fun p =>
            if p.req = some (2 * i + 1, q.seq) then { p with req := none, wait := some { q with replay := true } } else p } s
  let s1 := old.foldl hold s
  let clear := fun (c : Nat) (s : State) => setChan c { cpqChan s c with out := [], line := [] } s
  clear (2 * i) (clear (2 * i + 1) s1)

/-- A token has started: its SEQ is at or below its queue's commit log (R392). -/
def hasStarted (s : State) (e : RepEntry) : Bool :=
  let d := (tGet 0 s.qbm.commit e.queue + 2 ^ 32 - e.seq % 2 ^ 32) % 2 ^ 32
  decide (0 < d) && decide (d ≤ 2 ^ 31)

/-- The walk of one entry: a started target is marked, any other token is withdrawn, its cells kept. A token that has been discarded
meanwhile has nothing left to withdraw, and counts as started. -/
def walkEntry (a : List RepEntry × State) (e : RepEntry) : List RepEntry × State :=
  let s := a.2
  match (queueOf s e.queue).find? (fun k => k.frame == e.frame && k.seq == e.seq) with
  | some k => if hasStarted s e || e.beyond then (a.1 ++ [{ e with started := true }], s) else (a.1 ++ [e], eraseToken e.queue k s)
  | none => (a.1 ++ [{ e with started := true }], s)

/-- The walk of a slice's replay records. -/
def walkRecords (i : Nat) (s : State) : State :=
  [secKey i false, secKey i true].foldl
    (fun s k =>
      let w := (tGet [] s.qbm.rep k).foldl walkEntry ([], s)
      { w.2 with qbm := { w.2.qbm with rep := tSet [] w.2.qbm.rep k w.1 } }) s

/-- Entries in the order of their ingress frame numbers. -/
def insEntry (e : RepEntry) (l : List RepEntry) : List RepEntry :=
  l.takeWhile (fun x => x.ino ≤ e.ino) ++ e :: l.dropWhile (fun x => x.ino ≤ e.ino)

/-- Take the records of one section, entries of one frame together, in replay order. A frame of which the record kept no entry is not
presented again (R391). -/
def takeRecords (k : Nat) (s : State) : List (List RepEntry) × State :=
  let l := (tGet [] s.qbm.rep k).foldl (fun a e => insEntry e a) []
  let frames := (l.map (·.frame)).dedup
  ((frames.map (fun f => l.filter (·.frame == f))).filter (fun es => es.any (fun e => !e.beyond)), { s with qbm := { s.qbm with rep := tDel k s.qbm.rep } })

/-- The references of withdrawn tokens are released. -/
def releaseEntries (es : List RepEntry) (s : State) : State :=
  (es.filter (fun e => !e.started)).foldl (fun s e => release1 e.frame s) s

/-- Input between the last Skim and D is lost (R402): frames that were not started are dropped and counted; their number. -/
def loseRecords (i : Nat) (s : State) : Nat × State :=
  let u := takeRecords (secKey i true) s
  let d := takeRecords (secKey i false) u.2
  let gone := (u.1 ++ d.1).filter (fun es => es.any (fun e => !e.started))
  (gone.length, countN (iSLC i) 4 gone.length (gone.foldl (fun s es => releaseEntries es s) d.2))

/-- Bitmap of some trees, and of some ports, within their sets. -/
def bitsIn (n : Nat) (l : List Nat) : Nat := l.foldl (fun a x => a ||| 2 ^ (x % n)) 0

/-- A frame held in a replay source is lost (R402): counted under REPLAY_LOST of slice `i`; the record of a send falls due. -/
def dropHeld (i : Nat) (a : Arrive) (s : State) : State := sendDone 0 (arriveFrame s a CRes.none_) (count1 (iSLC i) 4 s)

/-- No slice takes the trees and ports of slice `i` (R404): they keep their home, and are homeless. -/
def impair (i : Nat) (s : State) : State :=
  let trees := treesOf s i
  let ports := portsOf s i
  let p := fun (k : Nat) (_ : Arrive) => k == i
  let s0 := (pipe p s).foldl (fun s a => dropHeld i a s) (dropPipe p s)
  let s1 := (loseRecords i (walkRecords i s0)).2
  let s2 := { s1 with glb := { s1.glb with lostT := s1.glb.lostT ++ trees, lostU := s1.glb.lostU ++ ports } }
  let s3 := trees.foldl (fun s t => modTre t (fun r => { r with mapNone := r.mapNone || !r.mapDone }) s) s2
  let w6 := w32 (bitsIn 8 trees)
  let s4 := notice0 0x53 0 w6 (w32 (bitsIn 2 ports)) s3
  fault 9 1 (w32 (bitsIn 8 trees + bitsIn 2 ports * 2 ^ 8)) 0 0 0 0 s4

/-- The slice that takes over: a spare whose last self-test pass succeeded, or a shadow (Table 12-2). -/
def takesOver (s : State) : Option Nat :=
  if !(skmEn s) then none
  else match slicesIn s .shadow with
    | j :: _ => some j
    | [] => (slicesIn s .spare).find? (s.skm.passOk.contains ·)

/-- The rotation under way ends without its boundary; it stays due (R408). -/
def endRotation (s : State) : State :=
  match s.skm.rot with
  | none => s
  | some r => { s with skm := { s.skm with
      rot := none, restore := s.skm.restore || r.set.isSome, rotDue := s.skm.rotDue || r.set.isNone } }

/-- A handover or re-homing starts. What is between its start and its enqueue in a section of the failed slice comes again: it is classified on
the page of its cycle 0, and its meter is not charged (R45, R236). -/
def startHandover (i j cause : Nat) (rehome : Bool) (s : State) : State :=
  let again := (pipe (fun k _ => k == i) s).map fun a => { a with frame := none, again := true }
  let h : Handover :=
    { failed := i, new := j, d := s.tim.now, dCyc := cyc s, cause := cause, walked := false, live := false, rehome := rehome,
      trees := treesOf s i, ports := portsOf s i, lost := [], held := again, fell := [] }
  let s1 := dropPipe (fun k _ => k == i) s
  { s1 with skm := { s1.skm with ho := s1.skm.ho ++ [h] } }

/-- May a slice fault be met by a re-homing (R401, R404)? -/
def mayRehome (s : State) : Bool := skmEn s && regB s pageSKM 1 && decide (s.skm.mode < 2) && !(s.skm.ho.any (·.rehome))

/-- The survivor that takes the ports of a re-homing (R401); 15 where there is none. -/
def survivor (s : State) : Nat := (slicesIn s .active).headD 15

/-- No slice takes over: the trees and ports of slice `i` are re-homed, or have no home. `fell` failed before it on the same trees. -/
def noTaker (i cause : Nat) (fell : List Nat) (s : State) : State :=
  if mayRehome s then
    let s1 := startHandover i (survivor s) cause true s
    { s1 with skm := { s1.skm with ho := s1.skm.ho.map fun h => if h.failed = i ∧ h.rehome then { h with fell := fell } else h } }
  else impair i s

/-- The handover whose slice `i` now replays, where there is one: it ends, and its slice's records before the last capture count again, since
its trees are re-homed from the record that the replay began with (Table 12-12). -/
def endReplay (i : Nat) (s : State) : List Nat × State :=
  match s.skm.ho.find? (fun h => h.live && h.new == i) with
  | none => ([], s)
  | some h =>
    let back := fun (t : Tab (List RepEntry)) (k : Nat) => tSet [] t k (tGet [] s.qbm.repOld k ++ tGet [] t k)
    let l := s.skm.ho.filter (fun x => x != h)
    (h.failed :: h.fell,
     { s with skm := { s.skm with ho := l, replay := l.any (·.live) }, qbm := { s.qbm with rep := back (back s.qbm.rep (secKey i false)) (secKey i true) } })

/-- A slice with a higher number that was declared faulty in this cycle and has the spare (Table 12-12). -/
def spareTaken (i : Nat) (s : State) : Option Handover :=
  s.skm.ho.find? (fun h => h.d == s.tim.now && !h.rehome && !h.live && decide (i < h.failed))

/-- Who takes over from slice `i`, which has FAILED: a spare or shadow; the slice that had gone to a higher-numbered one in this cycle; no
slice. A slice that replays is not replaced: its trees are re-homed (R401, R404, Table 12-12). -/
def takeOver (i cause : Nat) (s : State) : State :=
  let r := endReplay i s
  if !r.1.isEmpty then noTaker i cause r.1 r.2
  else match takesOver s with
    | some j => startHandover i j cause false (setRole j .loading (endRotation s))
    | none => match spareTaken i s with
      | some h =>
        noTaker h.failed h.cause [] (startHandover i h.new cause false { s with skm := { s.skm with ho := s.skm.ho.filter (fun x => x != h) } })
      | none => noTaker i cause [] s

/-- An ACTIVE slice is declared faulty. Loop-backs on its trees and ports end (R515). -/
def sliceDown (i cause : Nat) (s : State) : State :=
  let fast := cause ≤ 3 && decide (cyc s - s.tim.beat * beatCyc < 16) && s.tim.started && skmEn s
  let s0 := if fast then discardCapture i s else s
  let hosted := fun (n : Nat) => if n < 64 then homeT s0 n == i else decide (n < 80) && homeU s0 (n - 64) == i
  let s0a := loopAbort (fun l => decide (2 ≤ l.depth) && (hosted l.inst || (l.depth == 5 && decide (l.peer < 64) && hosted l.peer))) s0
  setMode (takeOver i cause ((treesOf s0a i).foldl (fun s t => discardSel t s) (drainCipher i (setRole i .failed s0a))))

/-- The TUs of a tree that wait for the cipher edge came before D: nothing replays them (R402). -/
def waitsOld (t : Nat) (s : State) : State :=
  modTre t (fun r => { r with reasm := r.reasm.map fun e =>
    (e.1, { e.2 with pieces := e.2.pieces.map fun p => { p with wait := p.wait.map fun q => { q with since := false } } }) }) s

/-- The input that waited for the slice that was loading is lost too: REPLAY_LOST covers what came up to the new D (Table 12-12). -/
def loseWaiting (h : Handover) (s : State) : State :=
  h.held.foldl (fun s a => dropHeld h.failed a s) (h.trees.foldl (fun s t => waitsOld t s) s)

/-- The slice that is loading for a handover fails (Table 12-12): its trees are re-homed from the first record. -/
def loadingDown (j cause : Nat) (s : State) : State :=
  let s1 := setRole j .failed s
  match s1.skm.ho.find? (fun h => h.new == j && !h.live && !h.rehome) with
  | none => setMode s1
  | some h =>
    let rest := s1.skm.ho.filter (fun x => x != h)
    let s2 := loseWaiting h { s1 with skm := { s1.skm with ho := rest } }
    if mayRehome s2 then
      let g := { h with rehome := true, d := s2.tim.now, dCyc := cyc s2, cause := cause, new := survivor s2, held := [], fell := h.fell ++ [j] }
      setMode { s2 with skm := { s2.skm with ho := s2.skm.ho ++ [g] } }
    else setMode (impair h.failed s2)

/-- The reaction to a fault declared in a slice, by its role (Table 12-2). -/
def sliceReact (i cause : Nat) (s : State) : State :=
  match roleOf s i with
  | .active => sliceDown i cause s
  | .loading => loadingDown i cause s
  | .spare => setMode (notice0 0x54 0 (w32 i) 0 (setRole i .failed s))
  | .shadow => setMode (notice0 0x54 0 (w32 i) 0 (setRole i .failed (endRotation s)))
  | .testing => setRole i .failed s
  | .failed => s
  | .defective => s

/-- A slice is declared faulty with what its fault set captures in CAP0. -/
def declareAt (i cause acc : Nat) (cap0 : Word) (s : State) : State :=
  sliceReact i cause (fault (iSLC i) (cause - 1) cap0 acc 1 i 0 s)

/-- Declare slice `i` faulty with a cause of Table 12-5: its fault, then the reaction (R388). The checking point is open. -/
def declareFault (i cause acc : Nat) (s : State) : State :=
  useFree (declareAt i cause acc (w32 (freeNat s)) s)

/-! ## Requests to a power domain (R155, R269, R439 to R444) -/

/-- Change a domain. -/
def modPdom (d : Nat) (f : PDom → PDom) (s : State) : State := setPdom d (f (pdom s d)) s

/-- Does a domain lie in ON, and is no entry of it past its handshake? -/
def staysOn (s : State) (d : Nat) : Bool := let p := pdom s d; p.state == 0 && p.phase != 2 && p.phase != 4

/-- What a request for RET or OFF makes a unit do at once, and what its end undoes (R155, R269). -/
def askUnits (d : Nat) (on : Bool) (s : State) : State :=
  if d < 64 then modChn d (fun c => { c with closing := on }) s
  else if 80 ≤ d ∧ d < 97 then
    match logicalOf s (d - 80) with
    | some l => setGrp l { grpOf s l with leaving := on } s
    | none => s
  else s

/-- The current request ends with a result. -/
def endReq (d res cause : Nat) (s : State) : State :=
  modPdom d (fun p => { p with res := res, cause := cause, cur := none, phase := 0 }) s

/-- The notice of a request that ends with DONE. -/
def doneNote (d : Nat) (s : State) : State := notice0 0x73 0 (w32 d) (w32 (pdom s d).state) s

/-- The current request ends with DONE. -/
def reqDone (d : Nat) (s : State) : State := doneNote d (endReq d 1 0 s)

/-- A request is refused (R440, R452). -/
def reqRefused (d tgt cause : Nat) (s : State) : State :=
  notice0 0x70 cause (w32 d) (w32 tgt) (countO 2 1 d 1 s)

/-- A request becomes current in cycle `at_`. One for the state that the domain is in ends at once, and leaves alone an exit that a wake
event has started; one for RET or OFF meets the wake events of its own cycle (R439, R442, R443). -/
def startReq (d tgt at_ : Nat) (s : State) : State :=
  let p := pdom s d
  if tgt = p.state then doneNote d (setPdom d { p with res := 1, cause := 0 } s)
  else if tgt = 0 then setPdom d { p with cur := some 0, curAt := at_ } s
  else if p.state ≠ 0 then reqRefused d tgt 11 (setPdom d { p with res := 2, cause := 11 } s)
  else askUnits d true (setPdom d { p with cur := some tgt, curAt := at_, wake := firedAt s d at_, wakeAt := at_, acc := 0, phase := 1 } s)

/-- The queued request becomes current in the cycle after the current one ends. -/
def nextReq (d : Nat) (s : State) : State :=
  match (pdom s d).queued with
  | none => s
  | some t => startReq d t (s.tim.now + 1) (modPdom d (fun p => { p with queued := none }) s)

/-- A wake event has acted on a domain (R451). -/
def wakeRecord (d src out : Nat) (s : State) : State :=
  let s1 := modPdom d (fun p => { p with lwsrc := src }) s
  { s1 with pwr := { s1.pwr with lwTick := s1.tim.tick, lwDom := d, lwSrc := src, lwOut := out, lwValid := true } }

/-- A FAILED slice enters TESTING (R411). The Skim holds the domain of a slice under test in ON (R382): one that sleeps is woken as by a
domain that it hosts, under CHAIN, and is tested when it is ON (log entry 14). -/
def beginTest (i : Nat) (s : State) : State :=
  if staysOn s (domSL i) then setRole i .testing s
  else wake (domSL i) 6 { s with skm := { s.skm with repair := if s.skm.repair.contains i then s.skm.repair else s.skm.repair ++ [i] } }

/-- Lanes of a slice, and loop-backs, at the point where a domain leaves ON or is ON again (R473, R515); a slice that waits for its test
enters TESTING. -/
def domLeaves (d : Nat) (s : State) : State :=
  let s1 := if 99 ≤ d then laneStop (d - 99) s else s
  loopAbort (loopInDom s1 d) s1
def domBack (d : Nat) (s : State) : State :=
  let i := d - 99
  if d < 99 then s
  else if roleOf s i = .active then laneStart i s
  else if s.skm.repair.contains i then
    let s1 := { s with skm := { s.skm with repair := s.skm.repair.filter (· != i) } }
    if roleOf s i = .failed then setRole i .testing s1 else s1
  else s

/-- The undo steps have brought a domain to ON (Table 14-5, R444): an abandoned entry is recorded with the abort point and the source. -/
def undone (d : Nat) (s : State) : State :=
  let p := pdom s d
  if p.phase ≠ 4 then s
  else
    let s1 := modPdom d (fun p => { p with iso := false, ret := false, point := 0, wake := 0, kept := 0 }) s
    let s2 := domBack d (askUnits d false (endReq d (if p.point = 5 then 4 else 3) 0 s1))
    if p.point = 5 then nextReq d s2
    else nextReq d (notice0 0x71 p.wake (w32 d) (w32 p.point) (wakeRecord d p.wake (1 + p.point) (countO 2 2 d 1 s2)))

/-! ## A port goes down (R198) -/

/-- Discard what waits in a port's egress queues. -/
def dropQueues (p : Nat) (s : State) : State :=
  (List.range 8).foldl
    (fun s i =>
      let q := qUpl p i
      (queueOf s q).foldl
        (fun s t => release1 t.frame (addChg q (-(t.est : Int)) (objAdd 2 (8 * p + i) 3 1 (count1 (iUPL p) 18 s))))
        (setQueue q [] { s with qbm := { s.qbm with segs := tDel q s.qbm.segs } })) s

/-- The port goes down: its queues are discarded, and a group member stays out until it rejoins. -/
def portDown (p : Nat) (s : State) : State :=
  dropQueues p (modUpl p (fun u => { u with rejoin := u.rejoin || regB s (rUpl p 0x18) 0, rejoinPend := false, resend := none }) s)

/-! ## Fences and forcing (R425, R430, R431) -/

/-- How many sources a unit has (Table 13-4). -/
def fltSources (i : Nat) : Nat :=
  if i < 12 then [2, 1, 1, 4, 4, 2, 6, 3, 3, 2, 2, 1].getD i 0
  else if i ≤ 20 then 4 else if i ≤ 84 then 8 else if i ≤ 100 then 3 else if i ≤ 109 then 7 else 0

/-- Bits of a fault set that have a source; the others are reserved (R419). -/
def fltBits (i : Nat) : Word := w32 (2 ^ fltSources i - 1)

/-- A tree port is fenced. -/
def fenceTree (t : Nat) (s : State) : State := modTre t (fun r => { r with fenced := true }) s

/-- An uplink port is fenced: it is handled as a link down (Table 13-5). -/
def fencePort (p : Nat) (s : State) : State := portDown p (modUpl p (fun u => { u with fenced := true }) s)

/-- The reaction to a forced source, where it concerns the whole instance. A forced fault of a Churn engine declares the paired slice
faulty. -/
def forcedReaction (i b : Nat) (s : State) : State :=
  if 101 ≤ i ∧ b ≤ 5 then sliceReact (i - 101) (b + 1) s
  else if 12 ≤ i ∧ i ≤ 20 ∧ (b = 1 ∨ b = 2) then declareFault (i - 12) b 0 s
  else if 21 ≤ i ∧ i ≤ 84 ∧ b = 7 then fenceTree (i - 21) s
  else if 85 ≤ i ∧ i ≤ 100 ∧ b = 2 then fencePort (i - 85) s
  else s

/-- The sources written to FLT_FORCE in the cycle before are raised, the lowest first (R430). -/
def forceRun (i : Nat) (data : Word) (s : State) : State :=
  ((List.range (fltSources i)).filter (bit data ·)).foldl
    (fun s b => forcedReaction i b (raise i b ⟨0, 7, 6, 0, 0, true⟩ s)) s

end Sys2Proof.Machine
end

