-- ==== Sys2Proof/Machine/Clock.lean ====
section
/-!
DEFINITION. How time passes (log entry 2): the end of cycle 0 of a beat (R33, R44 order 5, R50), the doorbell reads and records that
fall due (R53, R314), and the moves of the clock that every command makes which waits for its cycle.
-/

namespace Sys2Proof.Machine

/-! ## What falls due (R26, R276, R303, R314) -/

/-- The place of a turn within its cycle: the tests of one meter in one cycle come in ascending slice order (R224, R236). -/
def turnPlace : Turn → Nat
  | .classify i _ _ _ => 1 + i
  | .bell _ _ => 0 | .record _ _ => 0 | .stage => 0 | .cpq _ => 0 | .usTick _ _ _ => 0 | .verdict _ _ _ _ _ _ _ => 0 | .told _ _ => 0
  | .force _ _ => 0 | .pinOff => 0 | .undone _ => 0 | .spill _ => 0 | .fetch => 0 | .enter _ _ => 0 | .look _ _ _ => 0 | .enq _ _ _ => 0
  | .charge _ _ _ => 0 | .wasted _ _ _ _ _ _ => 0 | .completes _ _ => 0

/-- The turn that falls due first, by cycle `c`, and the others. -/
def nextTurn (c : Nat) (s : State) : Option ((Nat × Turn) × List (Nat × Turn)) :=
  pickMin (fun e => decide (e.1 ≤ c)) (fun e => 16 * e.1 + turnPlace e.2) s.hrd.later

/-- A turn takes place. -/
def takeTurn (x : Turn) (s : State) : State :=
  match x with
  | .bell k n => bellTurn k n s
  | .record k n => issueNow k n s
  | .stage => stageRun s
  | .cpq c => cpqPump c s
  | .usTick t n ph => if (treOf s t).run && domOn s (domTP t) then emit (.usTick t n ph) s else s
  | .told i b => faultTold i b s
  | .force i data => forceRun i data s
  | .pinOff => pinOff s
  | .undone d => undone d s
  | .spill n => spillRun n s
  | .fetch => pumpFetches s
  | .enter a ue => ingress a ue s
  | .look i a ue => lookAt i a ue s
  | .classify i a ue em => classifyAt i a ue em s
  | .enq i a r => admitAt i a r s
  | .charge k n y => meterCharge k n y s
  | .verdict n i d lanes l4 cls x => verdictAt n i d lanes l4 cls x s
  | .wasted i d lanes evt cls x => wasteLanes i d lanes evt cls x s
  | .completes i x => completeAs i (smpNow s x) s

/-- A bound on the turns that can take place before a command runs again: those that wait, one for each record, staged send and waiting
request, and the faults that each can raise. -/
def turnBound (s : State) : Nat :=
  16 * (s.hrd.later.length + s.hrd.staged.length + s.hrd.ring.foldl (fun n e => n + e.2.recs.length) 0
    + s.cpe.chan.foldl (fun n e => n + e.2.line.length) 0) + 256

/-! ## The end of cycle 0, and the clock -/

/-- Trees that have a tree-port state of their own. -/
def treKeys (s : State) : List Nat := (s.tre.map (·.1)).filter (· < 64)

/-- Do `f` for every tree that has a tree-port state. -/
def eachTree (f : Nat → State → State) (s : State) : State := (treKeys s).foldl (fun s t => f t s) s

/-- The end of cycle 0 of a beat: the selection for the beat three ahead; what has not come back from deep memory for the beat two ahead
is late, and the rest of that beat is assembled (R33, R261); and in beat 1, whose cycle 0 is cycle 15,625, the report cut-off. Nothing
happens where it has passed. -/
def endZero (s : State) : State :=
  if !s.tim.zero then s
  else
    let deep := (s.qbm.frames.filter (fun e => !e.2.deep.isEmpty)).length
    let s0 := selectAll (treKeys s) (absBeat s + 3) deep [] { s with tim := { s.tim with zero := false } }
    let s1 := eachTree (fun t s => assemble t (absBeat s + 2) s) (deepLates s0)
    if s1.tim.beat = 1 ∧ s1.tim.cutDone = false then cutoffActs s1 else s1

/-- The clock moves to cycle `c`, each ring turn that falls due on the way in its cycle; `fuel` bounds the turns. -/
def moveClk (c : Nat) : Nat → State → State
  | 0, s => advanceClk (c - s.tim.now) s
  | fuel + 1, s =>
    match nextTurn c s with
    | none => advanceClk (c - s.tim.now) s
    | some (e, l) => moveClk c fuel (takeTurn e.2 (advanceClk (e.1 - s.tim.now) { s with hrd := { s.hrd with later := l } }))

/-- `n` cycles pass. -/
def lapse (n : Nat) (s : State) : State :=
  if n = 0 then s else let s1 := endZero s; moveClk (s1.tim.now + n) (turnBound s1) s1

/-- Move to a cycle of the tick, where it lies later in the current beat (log entry 2). -/
def syncTo (c : Nat) (s : State) : State :=
  if s.tim.started ∧ cyc s < c ∧ c - cyc s < toNextBeat s then lapse (c - cyc s) s else s

/-- The last `n` cycles up to a boundary pass: what falls due in the boundary's own cycle comes after what the boundary does (R22, R45). -/
def toBoundary (n : Nat) (s : State) : State := if n = 0 then s else advanceClk 1 (endZero (lapse (n - 1) s))

/-- What falls due in the boundary's own cycle, once the boundary's changes are in force (R22, R45). -/
def afterBoundary (s : State) : State := moveClk s.tim.now (turnBound s) s

/-- The cycle in which the engine starts, where START has been written with SRC 0 (R339). -/
def startCyc (s : State) : Option Nat :=
  match s.tim.startWait with
  | some (false, at_) => some (at_ + 16)
  | some (true, _) => none
  | none => none

/-- Let the cycles up to a due cycle pass, as far as they lie in the current beat, or before the start of the engine (log entry 2, R339). -/
def waitUntil (c : Nat) (s : State) : State :=
  if c ≤ s.tim.now then s
  else if s.tim.started then lapse (min (c - s.tim.now) (toNextBeat s - 1)) s
  else match startCyc s with
    | some k => lapse (min (c - s.tim.now) (k - 1 - s.tim.now)) s
    | none => lapse (c - s.tim.now) s

/-- REPORT_CUTOFF: the end of cycle 15,625, cycle 0 of beat 1, once in a tick. The command has no effect in another cycle. -/
def reportCutoff (s : State) : State :=
  if s.tim.started ∧ s.tim.beat = 1 ∧ s.tim.zero = true then endZero s else s
def execReportCutoff (s : State) : Outcome := .next (reportCutoff (begin_ s))

/-- A rate or a slew written in this cycle is in force from the next on (R341), which comes. -/
def settleRate (s : State) : State := if (oldRate s).isSome then waitUntil (s.tim.now + 1) s else s

/-- The slew amount is used up (R342): the cycles that the amount takes pass as far as they lie in this beat, and the last
of them adds exactly what remains. An amount that no cycle changes, since the term is 0, never ends. -/
def slewEnd (s : State) : State :=
  if !s.tim.started ∨ s.tim.hold then s
  else
    let s0 := settleRate s
    if slewTerm s0 = 0 then s0
    else
      let n := ceilDiv s0.tim.slew.natAbs (slewTerm s0)
      lapse (min n (toNextBeat s0 - 1)) s0
def execSlewEnd (s : State) : Outcome := .next (slewEnd (begin_ s))

/-- TIME_PROJECTION, cycle 156,186 (R361). -/
def timeProjection (s : State) : State :=
  if !s.tim.started then s
  else
    let s1 := syncTo 156186 s
    if cyc s1 < 156186 then s1
    else { s1 with tim := { s1.tim with proj := some (project (timSet (viewAt (s1.tim.tick + 1) s1)) s1) } }
def execTimeProjection (s : State) : Outcome := .next (timeProjection (begin_ s))

end Sys2Proof.Machine
end

