-- ==== Sys2Proof/Machine/Passes.lean ====
section
/-!
DEFINITION. Commands that wait for their cycles: the two passes of a tree, the reset of its page count and the late map (R49, R81, R82,
R147 to R149), and the issue of records (R314).
-/

namespace Sys2Proof.Machine

/-- Work that is done on the configuration of tick `m` (R51, R157): the registers and contexts of a pending image are only looked at. -/
def onView (m : Nat) (f : State → State) (s : State) : State :=
  let r := f (viewAt m s)
  { r with regs := s.regs, qbm := { r.qbm with ctx := s.qbm.ctx } }

/-- What a pass that falls due now meets of the requests that reach it live (R156). -/
def passSnap (s : State) (t : Nat) : PassSnap := ⟨(chnOf s t).discNow, (chnOf s t).closing, (treOf s t).psw⟩

/-- A pass that was delayed: it works from what it met when it fell due, and what has been requested since stands after it (R52, R156). -/
def onSnap (t : Nat) (p : PassSnap) (f : State → State) (s : State) : State :=
  let c := chnOf s t
  let r := f (modTre t (fun x => { x with psw := p.psw }) (modChn t (fun x => { x with discNow := p.discNow, closing := p.closing }) s))
  modTre t (fun x => { x with psw := (treOf s t).psw })
    (modChn t (fun x => { x with discNow := x.discNow || (c.discNow && !p.discNow), closing := c.closing }) r)

/-- CHURN_PASS1: from the tree's pass-1 window on (R147). The command has no effect in an earlier beat. A pass that falls due while its
engine's slice is being handed over is done at replay start (R52). -/
def churnPass1 (t : Nat) (s : State) : State :=
  if !(churnRuns s t) then (if handingFrom s (homeT s t) then modChn t (fun c => { c with late1 := some (passSnap s t) }) s else s)
  else
    let s1 := syncTo (pass1At s t) s
    if cyc s1 < pass1At s t ∨ !s1.tim.cutDone then s1 else onView (s1.tim.tick + 1) (pass1 t) s1
def execChurnPass1 (tree : BitVec 6) (s : State) : Outcome := .next (churnPass1 tree.toNat (begin_ s))

/-- CHURN_PASS2: from the tree's pass-2 window on (R147, R148). The command has no effect in an earlier beat. -/
def churnPass2 (t : Nat) (s : State) : State :=
  if !(churnRuns s t) then (if handingFrom s (homeT s t) then modChn t (fun c => { c with late2 := some (passSnap s t) }) s else s)
  else
    let s1 := syncTo (pass2At s t) s
    if cyc s1 < pass2At s t then s1
    else match (chnOf s1 t).pass with
      | none => s1
      | some x => onView (s1.tim.tick + 1) (pass2 t x) s1
def execChurnPass2 (tree : BitVec 6) (s : State) : Outcome := .next (churnPass2 tree.toNat (begin_ s))

/-- A tree's page is not complete by cycle 124,999 (R149): the engine gives the map up. -/
def passLate (t : Nat) (s : State) : State :=
  if !(churnRuns s t) || (treOf s t).mapDone || (treOf s t).mapNone || !(domOn s (domTP t)) then s
  else
    let s1 := syncTo 124999 s
    if cyc s1 < 124999 then s1
    else fault (iCHN (homeT s1 t)) 0 (w32 t) 6 2 (homeT s1 t) 0 (modChn t (fun c => { c with pass := none }) s1)
def execPassLate (tree : BitVec 6) (s : State) : Outcome := .next (passLate tree.toNat (begin_ s))

/-- Cycle 1 of a tick (R81, R82). The command has no effect in a later cycle. -/
def mapCountReset (t : Nat) (s : State) : State :=
  if !(domOn s (domTP t)) || decide (1 < cyc s) then s else mapCountZero t (syncTo 1 s)
def execMapCountReset (tree : BitVec 6) (s : State) : Outcome := .next (mapCountReset tree.toNat (begin_ s))

/-! ## Records (R314) -/

/-- FILL_RECORD_ISSUE and SEND_RECORD_ISSUE: the record at the head of a ring leaves in its cycle, which passes as far as it lies in
this beat. -/
def recordIssue (k : RingKind) (n : Nat) (s : State) : State :=
  match (ringOf s k n).recs with
  | [] => s
  | x :: _ => if x.ready then issueNow k n (waitUntil x.due s) else s
def execFillRecordIssue (ring : BitVec 11) (s : State) : Outcome := .next (recordIssue .fill ring.toNat (begin_ s))
def execSendRecordIssue (ring : BitVec 11) (s : State) : Outcome := .next (recordIssue .send ring.toNat (begin_ s))


/-! ## Fill delivery (R168 to R173, R225, R256, R307 to R309) -/

/-- The head of a fill ring's delivery queue while its last byte is still to come (R308, R309). An ordinary ring writes it as it arrives, once
descriptors cover it, and how much by which cycle is not defined; a privileged ring writes no byte before the mark is final (R170). Its writes
are taken to be issued once the last byte and its verdict have come; of a frame that is dropped by then, what has been written stays. -/
def fillArriving (n : Nat) (t : Token) (f : Frame) (s : State) : State :=
  let r := ringOf s .fill n
  if r.w.priv = 0 ∧ !f.lenKnown ∧ (coverDescs r.desc (fillCover r f)).isNone then fillStarve n t s
  else
    let s1 := waitUntil (f.last + 1) s
    if s1.tim.now ≤ f.last then s1
    else
      match frameOf s1 t.frame with
      | none => scrapWrites n f s1
      | some g => if (queueOf s1 (qFill n)).head? = some t then fillFrame n t g s1 else scrapWrites n f s1

/-- FILL_DELIVERY_START: the head of a fill ring's delivery queue. -/
def fillDeliver (n : Nat) (s : State) : State :=
  let r := ringOf s .fill n
  let q := qFill n
  if !(ringRuns r) || r.quiescing.isSome || s.hrd.fenced.contains r.w.chan || !(domOn s domHP) then s
  else
    match queueOf s q with
    | [] => s
    | t :: _ =>
      match frameOf s t.frame with
      | none => popHead q t s
      | some f =>
        if ringOwner s .fill n ≠ t.part then fillDrop n t s
        else if asleep s f then wakeGroups f s
        else if s.tim.now < f.last then fillArriving n t f s
        else fillFrame n t f s
def execFillDeliveryStart (ring : BitVec 11) (s : State) : Outcome := .next (fillDeliver ring.toNat (begin_ s))

/-! ## The cipher edge (R275, R276, R279) -/

/-- CIPHER_RESPONSE: a response follows its request, whose lanes pass as far as they lie in this beat. -/
def cipherResponse (c : Nat) (seq : Byte) (st : CpqSt) (data : List Byte) (ue : Option Word) (s : State) : State :=
  let ch := cpqChan s c
  let s1 := match lineEop seq (max ch.cur (8 * s.tim.now)) ch.line with
    | some e => if ch.out.any (fun r => r.seq == seq) then s else waitUntil e s
    | none => s
  cpqResponse c seq st data ue s1
def execCipherResponse (chan : Fin 18) (seq : Byte) (st : CpqSt) (data : List Byte) (tableUe : Option Word) (s : State) : Outcome :=
  .next (cipherResponse chan.val seq st data tableUe (begin_ s))

/-- CIPHER_REQUEST_LOST, once CPE_CFG.TMO cycles have passed since the request's EOP; the cycles of this beat pass. -/
def cipherLost (c : Nat) (seq : Byte) (s : State) : State :=
  match (cpqChan s c).out.find? (fun r => r.seq == seq) with
  | none => s
  | some r => cpqTimeout c seq (waitUntil (r.eop + cpeTmo s) s)
def execCipherRequestLost (chan : Fin 18) (seq : Byte) (s : State) : Outcome := .next (cipherLost chan.val seq (begin_ s))

/-- KEY_TMO, once CPE_CFG.TMO cycles have passed since the oldest key write was presented. -/
def keyLate (s : State) : State :=
  match s.cpe.keyq with
  | [] => s
  | k :: _ => keyTmo (waitUntil (k.at_ + cpeTmo s) s)
def execKeyTmo (s : State) : Outcome := .next (keyLate (begin_ s))

/-- KEY_COMMAND_RESUME, once the 4,096 cycles of R275 have passed. -/
def keyGoesOn (p : Nat) (s : State) : State :=
  match (tFind p s.hrd.cmd).bind (·.wait) with
  | some (.keyHold n _ _ _) => keyResume p (if tGet 0 s.cpe.keyAt n = 0 then s else waitUntil (tGet 0 s.cpe.keyAt n - 1 + 4096) s)
  | some (.quiesce _ _) => s | some (.tmm _ _ _) => s | some (.tmmRoom _ _) => s | some (.keyRead _ _ _) => s
  | some (.keyAck _) => s | some (.em _ _ _) => s | some (.image _ _ _ _) => s | none => s
def execKeyCommandResume (part : BitVec 6) (s : State) : Outcome := .next (keyGoesOn part.toNat (begin_ s))

/-! ## The buffer (R265, R267) -/

/-- SCRUB_READ: the scrubber reads one row of each group in every 64th cycle (R49, `scrubRow`), the next of which comes first; what it finds
lies in that row. -/
def scrubRead (hits : List ScrubHit) (s : State) : State :=
  let c := (s.tim.now / 64 + 1) * 64
  let s1 := waitUntil c s
  if s1.tim.now < c then s1 else scrubHits hits s1
def execScrubRead (hits : List ScrubHit) (s : State) : Outcome := .next (scrubRead hits (begin_ s))

/-- RETIREMENT_DONE: the copy engine has copied the last of the 32,768 rows, 131,072 cycles after the request (R267); the command has no
effect before the beat in which it does. -/
def retirementDone (s : State) : State :=
  let s1 := waitUntil (s.qbm.rAt + 131073) s
  if s1.tim.now < s1.qbm.rAt + 131073 then s1 else retirementEnd s1
def execRetirementDone (s : State) : Outcome := .next (retirementDone (begin_ s))

/-- SELECTION_COMMIT: the selection ends after cycle 0 of its beat (R33, R254). -/
def selectionCommit (t : Nat) (s : State) : State := commitSel t (endZero s)
def execSelectionCommit (tree : BitVec 6) (s : State) : Outcome := .next (selectionCommit tree.toNat (begin_ s))

end Sys2Proof.Machine
end

