-- ==== Sys2Proof/Machine/Counters.lean ====
section
/-!
DEFINITION. The counter registers, lane-slot snapshots and the Milk Round's start and end (R457 to R478).
-/

namespace Sys2Proof.Machine

/-! ## Selected counters (R458, R459) -/

/-- A selected counter and its reload value take a value. -/
def setCounter (i n v : Nat) (s : State) : State :=
  { s with cnt := { s.cnt with val := tSet 0 s.cnt.val (16 * i + n) v, reload := tSet 0 s.cnt.reload (16 * i + n) v } }

/-- A write has set counter `k` in this cycle, whatever else happens in it (Table 15-11). -/
def holdCnt (k : Nat) (s : State) : State :=
  let old := if s.cnt.heldAt = s.tim.now then s.cnt.held else []
  { s with cnt := { s.cnt with heldAt := s.tim.now, held := k :: old } }

/-- EVT, FEN and FILT of a CNT_SELn. -/
def selKey (w : Word) : Word := w &&& 0x3FFFF3FF

/-- A write of CNT_SELn: a change of EVT, FEN or FILT sets the counter to 0. -/
def selWrite (i n : Nat) (data : Word) (s : State) : State :=
  let old := reg s (rCntSel i n)
  let new := data &&& 0x7FFFFFFF
  let s1 := setReg (rCntSel i n) new s
  if selKey old = selKey new then s1
  else holdCnt (16 * i + n) { s1 with cnt := { s1.cnt with val := tSet 0 s1.cnt.val (16 * i + n) 0 } }

/-- CNT_VALn_LO of an instance. -/
def rCntVal (i n : Nat) : Nat := instBase i + 0xE40 + 8 * n

/-- A write of CNT_VALn_HI commits the pair (R20, R459, R522). -/
def valWrite (part i n : Nat) (data : Word) (s : State) : State :=
  let lo := loFor part (rCntVal i n) (w32 (tGet 0 s.cnt.val (16 * i + n))) s
  holdCnt (16 * i + n) (setCounter i n (lo.toNat + 2 ^ 32 * fld data 0 16) (dropLo part (rCntVal i n) s))

/-- A write of CNT_CLR. -/
def clrWrite (i : Nat) (data : Word) (s : State) : State :=
  (List.range 16).foldl (fun s n => if bit data n then setCounter i n 0 s else s) s

/-- A write of CNT_WRAP clears the bits written as 1 (Table 15-2), but for those that a wrap sets in this cycle (R520). -/
def wrapWrite (i : Nat) (data : Word) (s : State) : State :=
  let now := tGet 0 (wasIn s.tim.now s.cnt).wrapNow i
  { s with cnt := { s.cnt with wrap := tMod 0 s.cnt.wrap i (fun w => w &&& ~~~(BitVec.ofNat 16 data.toNat) ||| now) } }

/-- A write to the counter sub-page of an instance; there is none above code 109. -/
def subWrite (part : BitVec 6) (inst : BitVec 7) (be : BitVec 4) (f : State → State) (s : State) : State :=
  if 109 < inst.toNat then s else p0Write part be f s

def execCntSelWrite (part : BitVec 6) (inst : BitVec 7) (num : BitVec 4) (be : BitVec 4) (data : Word) (s : State) : Outcome :=
  .next (subWrite part inst be (selWrite inst.toNat num.toNat data) (begin_ s))
def execCntValWrite (part : BitVec 6) (inst : BitVec 7) (num : BitVec 4) (be : BitVec 4) (data : Word) (s : State) : Outcome :=
  .next (subWrite part inst be (valWrite part.toNat inst.toNat num.toNat data) (begin_ s))
def execCntClr (part : BitVec 6) (inst : BitVec 7) (be : BitVec 4) (data : Word) (s : State) : Outcome :=
  .next (subWrite part inst be (clrWrite inst.toNat data) (begin_ s))

/-! ## Sample ring (R475) -/

/-- A write of CNT_SMP_CI returns entries; an index that names none that is written is ignored (R299). -/
def smpCi (data : Word) (s : State) : State :=
  let size := 2 ^ smpK s
  let ci := fld data 0 17
  let used := (s.cnt.sWr + 2 * size - s.cnt.sCi % (2 * size)) % (2 * size)
  if ci < 2 * size ∧ (ci + 2 * size - s.cnt.sCi % (2 * size)) % (2 * size) ≤ used then
    { s with cnt := { s.cnt with sCi := ci } }
  else s
def execCntSmpCiWrite (part : BitVec 6) (be : BitVec 4) (data : Word) (s : State) : Outcome :=
  .next (p0Write part be (smpCi data) (begin_ s))

/-! ## Lane-slot snapshots (R469, R472) -/

/-- Every slice section's accounting in this cycle. -/
def laneSnap (s : State) : Tab Lane :=
  (List.range 18).foldl (fun t k => tSet Lane.empty t k (laneNow s k)) []

/-- A write of CNT_SLOT_SNAP. -/
def slotSnap (data : Word) (s : State) : State :=
  if bit data 0 then { s with cnt := { s.cnt with snap := laneSnap s } } else s
def execCntSlotSnap (part : BitVec 6) (be : BitVec 4) (data : Word) (s : State) : Outcome :=
  .next (p0Write part be (slotSnap data) (begin_ s))

/-! ## Milk Round list and settings (R465) -/

/-- CNT_MR_LIDX advances past its last entry to 0. -/
def lidxNext (s : State) : State := { s with cnt := { s.cnt with lidx := (s.cnt.lidx + 1) % 65536 } }

/-- A write of CNT_MR_LDATA. -/
def ldataWrite (data : Word) (s : State) : State :=
  let c := s.cnt
  lidxNext (if c.page then { s with cnt := { c with list0 := tSet 0 c.list0 c.lidx data } }
    else { s with cnt := { c with list1 := tSet 0 c.list1 c.lidx data } })

/-- The standby page's entry at LIDX. -/
def ldata (s : State) : Word := tGet 0 (if s.cnt.page then s.cnt.list0 else s.cnt.list1) s.cnt.lidx

def execMrListAccess (part : BitVec 6) (write : Bool) (be : BitVec 4) (data : Word) (s : State) : Outcome :=
  let s0 := begin_ s
  .next (if write then p0Write part be (ldataWrite data) s0 else p0Read part be (ldata s0) lidxNext s0)

/-- CNT_MR_CTL.SWAP (R465). -/
def mrSwap (s : State) : State := { s with cnt := { s.cnt with swap := true } }
def execMrSwap (part : BitVec 6) (s : State) : Outcome := .next (p0Write part 0xF mrSwap (begin_ s))

/-! ## Rounds (R466 to R470) -/

/-- At a tick boundary a round falls due at the first boundary after EN is set, and every PER ticks after that, PER as the last
round's start sampled it. -/
def mrTick (s : State) : State :=
  let c := s.cnt
  if !regB s pageCNT 0 then { s with cnt := { c with due := 0, mrDue := false } }
  else if c.due = 0 ∨ c.mrPer ≤ c.due then { s with cnt := { c with due := 1, mrDue := true } }
  else { s with cnt := { c with due := c.due + 1, mrDue := false } }

/-- The next round starts: the list pages swap if asked, the slices' accounting is snapped, the settings are sampled, and
entry 0 is read in this cycle. -/
def roundStart (s : State) : State :=
  let c := s.cnt
  let q := (c.seq + 1) % 2 ^ 16
  let r : Round :=
    { seq := q, tick := s.tim.tick, at_ := s.tim.now, len := regF s pageCNT 8 17, base := regPair s (pageCNT + 8), got := 0,
      vals := [], skip := [], todo := [] }
  let s1 := count1 10 0 { s with cnt := { c with
      mrDue := false, mrPer := regF s pageCNT 1 7, mrCfg := reg s (pageCNT + 4), seq := q, page := c.page != c.swap, swap := false, snapRound := laneSnap s, round := some r } }
  mrFlush 1 (mrRead s1)

/-- A due round in cycle 0 of its tick (R466): skipped while the one before still reads or writes, or while HP is not ON
(R450). -/
def milkStart (s : State) : State :=
  if !s.cnt.mrDue ∨ cyc s ≠ 0 then s
  else if s.cnt.round.isSome ∨ !domOn s domHP then
    count1 10 1 { s with cnt := { s.cnt with mrDue := false, skips := min 0xFFFF (s.cnt.skips + 1) } }
  else roundStart s
def execMilkRoundStart (s : State) : Outcome := .next (milkStart (begin_ s))

/-- Group writes of round `q` that are not acknowledged. -/
def roundWrites (s : State) (q : Nat) : List HWrite :=
  s.hrd.wr.filter (fun x => match x.use with
    | .round p => p == q
    | .data _ _ => false | .scrap => false | .record _ _ _ => false | .notice _ => false | .sample => false)

/-- Take a write off the outstanding ones. -/
def dropWrite (x : HWrite) (s : State) : State :=
  { s with hrd := { s.hrd with wr := s.hrd.wr.filter (fun y => !(y.chan == x.chan && y.tag == x.tag)) } }

/-- The last group of the oldest written round is acknowledged (R470): DONESEQ, and the interrupt. -/
def roundDone (s : State) : State :=
  match s.cnt.ackw with
  | [] => s
  | q :: t =>
    let l := roundWrites s q
    if 1 < l.length then s
    else
      let s1 := l.foldl (fun s x => dropWrite x s) { s with cnt := { s.cnt with ackw := t, doneSeq := q } }
      let s2 := if bit s.cnt.mrCfg 8 then irq (fld s.cnt.mrCfg 9 12) 0 s1 else s1
      tagFreed s2

/-- The oldest group write that is outstanding. -/
def oldestRoundWrite (s : State) : Option (Nat × HWrite) :=
  s.hrd.wr.findSome? (fun x => match x.use with
    | .round q => some (q, x)
    | .data _ _ => none | .scrap => none | .record _ _ _ => none | .notice _ => none | .sample => none)

/-- A group write returns an error: its round is abandoned (R470). -/
def roundErr (s : State) : State :=
  match oldestRoundWrite s with
  | none => s
  | some (q, x) => tagFreed (mrFail q x.addr 2 (dropWrite x s))
def execMilkRoundDone (err : Bool) (s : State) : Outcome := .next ((if err then roundErr else roundDone) (begin_ s))

/-- A group write has no acknowledgement within 20,000 cycles (Table 13-4); its tag is held until the response (R331). -/
def roundTimeout (s : State) : State :=
  match oldestRoundWrite s with
  | none => s
  | some (q, x) =>
    if s.tim.now < x.at_ + 20000 then s else
    let s1 := dropWrite x s
    mrFail q x.addr 6 { s1 with hrd := { s1.hrd with lateW := s1.hrd.lateW ++ [x] } }

end Sys2Proof.Machine
end

