-- ==== Sys2Proof/Machine/Pins.lean ====
section
/-!
DEFINITION. What falls due at the time engine's pins (R368 to R371), at the classifier's pages (R234) and in the Milk Round (R466): each
command waits for its cycle as far as that lies in the current beat, and has no effect before it (log entry 2).
-/

namespace Sys2Proof.Machine

/-- PPS_IN is lost (R368, R376): notice, persistent fault, and cause 3 of R345. -/
def ppsLoss (s : State) : State :=
  match (if regB s (rTim 0x60) 0 && !s.tim.ppsLost then s.tim.ppsLast else none) with
  | none => s
  | some l =>
    let due := l + secCyc + regF s (rTim 0x64) 0 21
    let s0 := waitUntil due s
    if s0.tim.now < due then s0
    else
      let s1 := { s0 with tim := { s0.tim with ppsLost := true } }
      let s2 := notice0 0x46 0 0 0 (fault 3 2 0 6 9 0 0 s1)
      if regB s2 (rTim 0x48) 16 then enterHold 3 s2 else s2
def execPpsInLoss (s : State) : Outcome := .next (ppsLoss (begin_ s))

/-- The second that PPS_OUT sees in cycle `k`: of the time plus TIM_PPS_OOFS. -/
def outSec (s : State) (k : Nat) : Nat := secOf (addTime (timeAtCyc s k) (ofs16 (reg s (rTim 0x6C))))

/-- Does the time plus its offset first reach a whole second in cycle `k` (R369)? -/
def outReaches (s : State) (k : Nat) : Bool := decide (outSec s (k - 1) < outSec s k)

/-- The cycle in which PPS_OUT rises next, where it lies in the current beat: the one that the increment gives, or one that slewing moves
it to. -/
def outEdgeCyc (s : State) : Option Nat :=
  let sec := 1000000000 * unitNs
  let left := sec - addTime s.tim.time (ofs16 (reg s (rTim 0x6C))) % sec
  let n := ceilDiv left s.tim.inc
  ([s.tim.now] ++ [n - 2, n - 1, n, n + 1, n + 2].map (s.tim.now + ·)).find?
    (fun k => decide (k < s.tim.now + toNextBeat s) && outReaches s k)

/-- PPS_OUT rises (R369); the edge marks the second that the time plus its offset has reached, and a message will label it (R371). -/
def ppsOutEdge (s : State) : State :=
  if !s.tim.started || !regB s (rTim 0x60) 1 then s
  else
    let s0 := if outReaches s s.tim.now then s else settleRate s
    match outEdgeCyc s0 with
    | none => s0
    | some k =>
      let s1 := waitUntil k s0
      if s1.tim.ppsOut && s1.tim.ppsOutAt == s1.tim.now then s1
      else { s1 with tim := { s1.tim with
        ppsOut := true, ppsOutAt := s1.tim.now, ppsOutSec := outSec s1 s1.tim.now, todDue := true, todOut := none } }
def execPpsOutEdge (s : State) : Outcome := .next (ppsOutEdge (begin_ s))

/-- PPS_OUT falls TIM_PPS.OUT_W ms after its edge (R369). -/
def ppsOutEnd (s : State) : State :=
  if !s.tim.ppsOut then s
  else
    let due := s.tim.ppsOutAt + regF s (rTim 0x60) 2 9 * 1250000
    let s1 := waitUntil due s
    if s1.tim.now < due then s1 else { s1 with tim := { s1.tim with ppsOut := false } }
def execPpsOutEnd (s : State) : Outcome := .next (ppsOutEnd (begin_ s))

/-- The message that labels the last PPS_OUT edge starts 1 ms after it (R371), at the rate of TIM_TOD.BAUD (R370). -/
def todOutSend (s : State) : State :=
  if !regB s (rTim 0x70) 1 || !s.tim.todDue then s
  else
    let due := s.tim.ppsOutAt + 1250000
    let s1 := waitUntil due s
    if s1.tim.now < due then s1
    else
      let m := todBytes (b2n (trace s1) + 2 * b2n s1.tim.hold + 4 * b2n (stepRecent s1)) s1.tim.ppsOutSec (regF s1 (rTim 0x50) 0 16)
      emit (.todOut (regF s1 (rTim 0x70) 2 2) (todLine m)) { s1 with tim := { s1.tim with todOut := some m, todDue := false } }
def execTodOutSend (s : State) : Outcome := .next (todOutSend (begin_ s))

/-- CLS_PAGE_SYNC: the copy ends 4,095 cycles after the swap (R234). -/
def pageSync (s : State) : State :=
  if s.cls.sync then s
  else
    let s1 := waitUntil (s.cls.swapAt + 4095) s
    if s1.tim.now < s.cls.swapAt + 4095 then s1 else clsSync s1
def execClsPageSync (s : State) : Outcome := .next (pageSync (begin_ s))

/-- MR_WRITE_TIMEOUT: no acknowledgement within 20,000 cycles (Table 13-4). -/
def roundLate (s : State) : State :=
  match oldestRoundWrite s with
  | none => s
  | some (_, x) => roundTimeout (waitUntil (x.at_ + 20000) s)
def execMrWriteTimeout (s : State) : Outcome := .next (roundLate (begin_ s))

end Sys2Proof.Machine
end

