-- ==== Sys2Proof/Machine/TreeTx.lean ====
section
/-!
DEFINITION. The downstream edge of a tree port, trunk switches and the tree's enable (R62, R63, R69, R72, R89 to R91, R94 to R100,
R106, R339, R360, R361, R364, R448).
-/

namespace Sys2Proof.Machine

/-! ## Blocks (R69, R72, R90, R360) -/

/-- A 16-byte block from its bytes. -/
def blockOf (b : List Byte) : BitVec 128 := BitVec.ofNat 128 (ofBe ((b ++ List.replicate 16 0).take 16))

/-- The idle block (R69). -/
def idleBlock : BitVec 128 := blockOf (tuHeader 0 0 0 false false 0)

/-- The trunk in tick `n`: a pending switch counts from its tick on (R97). -/
def trunkAt (s : State) (t n : Nat) : Bool :=
  match (treOf s t).psw with
  | some p => if p.tick ≤ n then p.sel else (treOf s t).sel
  | none => (treOf s t).sel

/-- TIM_STAT.HOLD as it stands in tick `n`, as far as a block requested ahead of it can tell: a restart at its boundary ends holdover, and
the servo watchdog begins it there (R344 to R346). -/
def holdAt (s : State) (n : Nat) : Bool :=
  if n = s.tim.tick then s.tim.hold
  else if s.tim.restart = some false then false
  else s.tim.hold || (regF s (rTim 0x48) 0 16 != 0 && decide (s.tim.wdogTick + regF s (rTim 0x48) 0 16 ≤ n))

/-- TIM_CTL.TRACE as it stands in tick `n`: a restart clears it at the boundary, then the writes that wait for the boundary act, and it is
lost where holdover has lasted long enough (R344, R347). -/
def traceAt (s : State) (n : Nat) : Bool :=
  if n = s.tim.tick then trace s
  else
    let m := (reg s (rTim 0x4C)).toNat
    let v := viewAt n (if s.tim.restart = some false then setTrace false s else s)
    bit (regAfter v (rTim 0)) 9 && !(holdAt s n && m != 0 && decide (s.tim.holdTick + m ≤ n))

/-- The tick block of tick `n` (Table 3-3). -/
def tickBlock (s : State) (t n : Nat) : BitVec 128 :=
  let span := fld (if n = s.tim.tick then reg s (rTim 0x54) else regAfter (viewAt n s) (rTim 0x54)) 0 12
  let v := 3 * 2 ^ 108 + t % 64 * 2 ^ 102 + span * 2 ^ 90 + rateOf s t * 2 ^ 88 + b2n (holdAt s n) * 2 ^ 87
    + b2n (trunkAt s t n) * 2 ^ 86 + n % 2 ^ 48 * 2 ^ 32
  let b := beBytes 14 v
  blockOf (b ++ beBytes 2 (crc16 b))

/-- The reference point of tick `n` with a phase of the request: of the next tick, from what the engine has projected in cycle 156,186
(R360, R361). Where TIME_PROJECTION has not come in this tick, it is projected at the request. -/
def refPoint (s : State) (t n ph : Nat) : Nat :=
  let t0 := if s.tim.started && n == s.tim.tick then timeAtCyc s s.tim.tickStart else s.tim.proj.getD (project (timSet (viewAt n s)) s)
  addTime t0 (steps s ((ph : Int) + fld (regAfter s (rTre t 0x40)) 0 24))

/-- The reference point that the message of tick `n` states. -/
def refOf (s : State) (t n : Nat) : Nat :=
  if n = s.tim.tick then (treOf s t).tref else ((treOf s t).trefNext).getD (treOf s t).tref

/-- The time-of-day message of tick `n`, 32 bytes (Table 3-4). -/
def todMessage (s : State) (t n : Nat) : List Byte :=
  let r := refOf s t n
  let now := n == s.tim.tick
  let step := if now then s.tim.stepFlag else s.tim.stepPend.isSome || s.tim.restart == some false
  let utc := fld (if now then reg s (rTim 0x50) else regAfter (viewAt n s) (rTim 0x50)) 0 16
  let v := secOf r * 2 ^ 192 + nsInSec r * 2 ^ 162 + fnsOf r * 2 ^ 146 + b2n (traceAt s n) * 2 ^ 143 + b2n (holdAt s n) * 2 ^ 142
    + b2n step * 2 ^ 141 + utc * 2 ^ 112
  let b := beBytes 30 v
  b ++ beBytes 2 (crc16 b)

/-- The message of tick `n` as its first block, requested before, began it. -/
def todOf (s : State) (t n : Nat) : List Byte :=
  match (treOf s t).tod with
  | some x => if x.1 = n then x.2 else todMessage s t n
  | none => todMessage s t n

/-- Does the port emit in beat `b`: it runs, or starts at the next boundary, and carries the tree, which has a home (R63, R99, R404, R425, R448)? -/
def emits (s : State) (t b : Nat) : Bool :=
  let r := treOf s t
  !r.fenced && !(lostTree s t) && carriesAt s t (b / 10)
    && ((r.run && decide (r.emitFrom ≤ b)) || (r.startPend && decide (b / 10 = s.tim.tick + 1)))

/-- The TU of staging that a block belongs to. -/
def stagedAt (s : State) (t n k : Nat) : Option DsTu :=
  (tGet [] (treOf s t).stage (beatOfBlk s t n k)).find? (fun u => u.ready && !u.idle && decide (u.blk ≤ k) && decide (k < u.blk + u.nblk))

/-- The bytes of a TU: header, payload and tag. -/
def tuBytes (u : DsTu) : List Byte := tuHeader u.tid u.idx u.body.length u.first u.last u.ksel ++ u.body ++ u.tag

/-- Count a TU whose first block is emitted (Tables 15-3, 15-4). A frame counts with its last TU. -/
def countTu (t : Nat) (u : DsTu) (s : State) : State :=
  let s1 := countO (iTRE t) 31 u.tid u.nblk (countO (iTRE t) 30 u.tid 1 s)
  if u.queue = 131072 then s1
  else
    let s2 := objAdd 1 u.queue 1 u.nblk (if u.last then objAdd 1 u.queue 0 1 s1 else s1)
    let o := t * 1024 + u.tid
    objAdd 0 o 3 u.body.length (if u.last then objAdd 0 o 2 1 s2 else s2)

/-- A frame completes in its tree with the last block of its last TU (R474). -/
def tuCompletes (t k : Nat) (u : DsTu) (s : State) : State :=
  match u.seen with
  | some x => if u.last && decide (k + 1 = u.blk + u.nblk) then completeAt s.tim.now (iTRE t) x s else s
  | none => s

/-- Emit block `k` of tick `n`. In an edge loop the framer gets idle blocks, and each data TU goes to reassembly under its service
index (R508). -/
def emitBlock (t n k : Nat) (s : State) : State :=
  let b := beatOfBlk s t n k
  let idle := count1 (iTRE t) 32 (emit (.dsBlock t k idleBlock) s)
  if !(emits s t b) then idle
  else if k < 3 && loopT s t == 3 then idle
  else if k = 0 then emit (.dsBlock t 0 (tickBlock s t n)) s
  else if k = 1 then
    let m := todMessage s t n
    emit (.dsBlock t 1 (blockOf m)) (modTre t (fun r => { r with tod := some (n, m) }) s)
  else if k < 3 then emit (.dsBlock t k (blockOf ((todOf s t n).drop 16))) s
  else match stagedAt s t n k with
    | some u =>
      if loopT s t = 3 then
        let p : Piece :=
          { req := none, wait := none, ok := true, tid := u.tid, first := u.first, last := u.last, bytes := u.body, stamp := s.tim.time, pos := (0, 0),
            out := s.tim.now }
        if k = u.blk ∧ u.tid ≠ 0 ∧ u.queue ≠ 131072 then pushPiece t u.idx p (countTu t u idle) else tuCompletes t k u idle
      else
        let s1 := emit (.dsBlock t k (blockOf ((tuBytes u).drop (16 * (k - u.blk))))) s
        tuCompletes t k u (if k = u.blk then countTu t u s1 else s1)
    | none => idle

/-- The port counts blocks itself, and follows TFE_DS_SOT only in cycle 156,246 (R89, R91): the tick and block that a request is for. -/
def dsCount (t : Nat) (sot : Bool) (s : State) : (Nat × Nat) × State :=
  let aligned := s.tim.started && cyc s == 156246
  let s1 := if sot && !aligned then
      fault (iTRE t) 1 (w32 (cyc s)) 5 3 t 0 (count1 (iTRE t) 29 s) else s
  let r := treOf s1 t
  let here := if sot && aligned then (s1.tim.tick + 1, 0) else (r.dsTick, r.dsBlk)
  let next := if here.2 + 1 < blksPerTick s1 t then (here.1, here.2 + 1) else (here.1 + 1, 0)
  (here, modTre t (fun r => { r with dsTick := next.1, dsBlk := next.2 }) s1)

/-- DS_BLOCK_REQUEST of a head-end's tree (R89, R91): the answer, 4 cycles later, is what staging holds at the request. -/
def dsRequest (t : Nat) (sot : Bool) (ph : Nat) (s : State) : State :=
  if !(domOn s (domTP t)) then s
  else
    let c := dsCount t sot s
    let here := c.1
    let s2 := c.2
    let s3 :=
      if here.2 ≠ 0 ∨ !s2.tim.started then s2
      else if here.1 = s2.tim.tick then modTre t (fun r => { r with tref := refPoint s2 t here.1 ph }) s2
      else if here.1 = s2.tim.tick + 1 then modTre t (fun r => { r with trefNext := some (refPoint s2 t here.1 ph) }) s2
      else s2
    emitBlock t here.1 here.2 s3
/-- At a tick boundary the reference point asked for ahead becomes that of the current tick (R360); what staging holds of beats that
are over is dropped. -/
def txBoundary (t : Nat) (s : State) : State :=
  modTre t (fun r => { r with
    tref := if s.tim.beat = 0 then r.trefNext.getD r.tref else r.tref,
    trefNext := if s.tim.beat = 0 then none else r.trefNext,
    stage := (r.stage.filter (fun e => absBeat s ≤ e.1)).map fun e =>
      if e.1 = absBeat s then (e.1, e.2.map fun u => if u.ready then u else { u with idle := true }) else e }) s

/-! ## Protection switching (R94 to R100) -/

/-- Priority of a request code (Table 3-16). -/
def pswPrio (code : Nat) : Nat := if code ≤ 5 then code + 1 else 0

/-- Is a request taken while a lockout or a forced switch holds (R95)? -/
def pswTaken (r : Tre) (code : Nat) : Bool :=
  if r.lockout then code == 0 else if r.forced then code == 0 || code == 5 else true

/-- The trunk that a request selects: true protection. -/
def pswSel (r : Tre) (code : Nat) : Bool := if code = 0 then r.sel else if code = 5 then false else !r.sel

/-- First tick from `n` on that is congruent to `at_` modulo 256. -/
def tickFrom (n at_ : Nat) : Nat := n + (at_ + 256 - n % 256) % 256

/-- PSW_REQUEST: acknowledged within 4 cycles while the domain is ON, and taken, replaced or discarded (R94 to R96, R100); a tree that
plays terminals discards it (R514). -/
def pswRequest (t code at_ : Nat) (s : State) : State :=
  if !(domOn s (domTP t)) then s
  else
    let s1 := emit (.pswAck t) (count1 (iTRE t) 33 s)
    let r := treOf s1 t
    let mode := treF s1 t 0x30 0 2
    let better := match r.psw with | some p => decide (pswPrio p.code < pswPrio code) | none => true
    if (mode ≠ 1 ∧ mode ≠ 2) ∨ 5 < code ∨ !(pswTaken r code) ∨ !better ∨ (vqOf s t).isSome then s1
    else setTre t { r with psw := some ⟨code, tickFrom (s1.tim.tick + 2) at_, pswSel r code⟩ } s1
def execPswRequest (tree : BitVec 6) (code : BitVec 3) (swAt : BitVec 8) (s : State) : Outcome :=
  .next (pswRequest tree.toNat code.toNat swAt.toNat (begin_ s))

/-- The change of delay that TRUNK_DELAY carries, in steps (R364). With both refractive indices 0 the spec states none. -/
def trunkDelay (s : State) (t : Nat) (prot : Bool) : Int :=
  let d := treF s t 0x48 0 24
  let sum := d + treF s t 0x4C 0 24
  let diff : Int := (treF s t 0xC 0 25 : Int) - treF s t 8 0 25
  if sum = 0 then sext 32 (freeNat s)
  else
    let v := roundDiv (diff * d) sum
    if prot then v else -v

/-- A terminal's context after a switch: a pending adjustment applies, its offsets change places, and it converges again (R97, R98, R126,
R128); `lim` is EQD_MAX on the trunk it changes to, off which REACH_LIMIT can be written again (R124). -/
def switchCtx (lim : Int) (c : Ctx) : Ctx :=
  if heardUp c.state && c.state != .heard then
    let corr : Int := match c.adj with | some a => a.corr | none => 0
    let o := c.o + 256 * corr
    let e := c.eqd + corr
    { c with
      reach := c.reach && (e == 0 || e == lim),
      o := c.sbo.getD o, sbo := some o, eqd := e, adj := none, conv := false, run := 0, wide := true, outl := 0 }
  else c

/-- A pending switch executes at the boundary of its tick (R97, R99, R363). A block that takes a tree over starts with empty queues, and each
allocation from its minimum. -/
def runSwitch (t : Nat) (s : State) : State :=
  let r := treOf s t
  match r.psw with
  | none => s
  | some p =>
    if s.tim.tick < p.tick ∨ r.fenced = true then s
    else
      let r1 := { r with
        psw := none, lockout := p.code == 5, forced := p.code == 4,
        act := if treF s t 0x30 0 2 = 2 then some (p.sel == (treF s t 0x30 2 1 == 1)) else r.act }
      if p.sel = r.sel then setTre t r1 s
      else
        let late := fun (m : Tmm) => m.type == 6
        let lim := eqdMax (setTre t { r1 with sel := p.sel } s) t
        let r2 := { r1 with
          sel := p.sel, ctx := r1.ctx.map (fun e => (e.1, switchCtx lim e.2)), tmmq := r1.tmmq.filter (fun m => !late m),
          tmmPend := r1.tmmPend.filter (fun m => !late m), tmmDue := ((r1.tmmPend.take r1.tmmDue).filter (fun m => !late m)).length }
        let s0 := setTre t r2 s
        let s1 := if carries s0 t && !(carries s t) then
            ((s0.qbm.q.filter (fun e => isDs e.1 && e.1 / 2048 == t)).map (·.1)).foldl (fun s q => flushQueue q s) (estTakeover t s0)
          else s0
        if !(carries s1 t) then s1
        else useFree (sendTmm t 0x0E 0 0 (beBytes 4 (toTwos 32 (trunkDelay s1 t p.sel))) (some 4) false s1)

/-! ## Enabling a tree (R62, R63, R106, R107, R339) -/

/-- Do the reach conditions of R106 hold for both trunks? -/
def reachOk (s : State) (t : Nat) : Bool :=
  [8, 0xC].all fun o =>
    let e := treF s t o 0 25
    decide (64 * (25050 + rttMax s t) ≤ e) && decide (e ≤ 64 * 296875) && decide (64 * (rttMin s t + 25050) < e)

/-- A tree stops: nothing of it is served or staged any more, and commands that wait for it are refused (R87). -/
def stopTree (t : Nat) (s : State) : State :=
  let r := treOf s t
  let s1 := refuseWaits t (fun _ => true) (discardSel t s)
  let held := (r.stage.flatMap (·.2)).filter (fun u => !u.done && u.unref)
  let tail := match (treOf s1 t).cont with | some c => if c.unref then [c.frame] else [] | none => []
  let s2 := (held.map (·.frame) ++ tail).foldl (fun s n => release1 n s) s1
  modTre t (fun r => { r with
    run := false, startPend := false, stage := [], cont := none, tmmq := [], tmmPend := [], tmmDue := 0, tmmOut := [], map := [], grants := [],
    bursts := [], reasm := [], anns := [], acks := [], heard := [] }) s2

/-- A write of TRE_CFG. -/
def writeTreCfg (t : Nat) (data : Word) (s : State) : State :=
  let a := rTreCfg t
  let old := regB s a 0
  let d := data &&& 7
  if bit d 0 then
    if old then s
    else if !s.tim.started then setReg a (d &&& 6) s
    else if !(reachOk s t) then fault (iTRE t) 2 0 0 3 t 0 (setReg a (d &&& 6) s)
    else
      let s1 := setReg a d s
      modTre t (fun r => { r with
        startPend := true, run := false, rate := if fld d 1 2 = 3 then 0 else fld d 1 2,
        fenced := r.fenced && !r.refit, refit := false }) s1
  else
    let s1 := modTre t (fun r => { r with refit := !(bit (fltOf s (iTRE t)).st 7) }) (setReg a (if old then (reg s a &&& 6) else d) s)
    if old then stopTree t s1 else s1
def execTreeEnableWrite (part : BitVec 6) (tree : BitVec 6) (be : BitVec 4) (data : Word) (s : State) : Outcome :=
  .next (treeWrite part be tree.toNat (writeTreCfg tree.toNat data) (begin_ s))

/-- A tree whose EN was set starts at a tick boundary, with every terminal in Unknown (R63, R107). -/
def startTree (t : Nat) (s : State) : State :=
  let r := treOf s t
  if !r.startPend || !(domOn s (domTP t)) then s
  else
    let rearm := fun (b : Bind) => match b with | .bound => Bind.wait | .wait => .wait | .unwait => .none | .none => .none
    let s1 := setTre t
      { Tre.empty with
        run := true, rate := r.rate, fenced := r.fenced, pre := r.pre, emitFrom := 10 * s.tim.tick, dsBlk := r.dsBlk, dsTick := r.dsTick,
        selOnce := r.selOnce, sel := r.sel, psw := r.psw, lockout := r.lockout, forced := r.forced,
        act := r.act, sd := r.sd, tref := r.tref, trefNext := r.trefNext, tod := r.tod, orderNo := 1 } s
    modChn t (fun c => { c with
      bind := (c.bind.map fun e => (e.1, rearm e.2)).filter (fun e => e.2 != .none), unb := [], svc := [], est := [],
      ivl := fld (reg s1 (rChn t 8)) 0 8, lastWin := none, lastEnd := 0, startTick := s.tim.tick, discNow := false, defers := 0,
      wins := [], pass := none, rot := 1, oversub := none, guard := 0, closing := false }) s1

end Sys2Proof.Machine
end

