-- ==== Sys2Proof/Machine/Command.lean ====
section
/-!
DEFINITION. The commands of command rings (R87, R110, R117, R132, R150, R216, R233, R243, R275, R288, R295, R322 to R324, R328,
R329, R333), each as its row decodes it. OVERLAY_APPLY lies in Machine/Overlay.lean.
-/

namespace Sys2Proof.Machine

/-! ## The words of a command (Table 10-12) -/

/-- Word `i` of a command, `n` bits of it from bit `lo`, and the host address in words 2 and 3. -/
def opWord (l : List Word) (i : Nat) : Word := l.getD i 0
def opBits (n : Nat) (l : List Word) (i lo : Nat) : BitVec n := BitVec.ofNat n (fld (opWord l i) lo n)
def opAddr (l : List Word) : BitVec 52 := BitVec.ofNat 52 ((opWord l 2).toNat + 2 ^ 32 * fld (opWord l 3) 0 20)
def opLong (n : Nat) (l : List Word) : BitVec n := BitVec.ofNat n ((opWord l 2).toNat + 2 ^ 32 * (opWord l 3).toNat)
def opW4 (l : List Word) : W4 := ⟨opWord l 2, opWord l 3, opWord l 4, opWord l 5⟩
def opW6 (l : List Word) : W6 := ⟨opWord l 2, opWord l 3, opWord l 4, opWord l 5, opWord l 6, opWord l 7⟩

/-- The command that eight words spell for a partition (R322, R323, R491); none for an unknown opcode. -/
def cmdOf (p : BitVec 6) (l : List Word) : Option Instr :=
  let tree := opBits 6 l 1 0
  let tid := opBits 10 l 1 6
  match fld (opWord l 0) 8 8 with
  | 0x01 => some (.ringSet p (opBits 2 l 1 0) (opBits 11 l 1 2) (opW6 l))
  | 0x02 => some (.ringQuiesce p (opBits 2 l 1 0) (opBits 11 l 1 2))
  | 0x03 => some (.ringResume p (opBits 2 l 1 0) (opBits 11 l 1 2))
  | 0x10 => some (.allocSet p tree (opBits 12 l 1 6) (opW4 l))
  | 0x11 => some (.queueSet p tree (opBits 11 l 1 6) (opW4 l))
  | 0x20 => some (.admitSerial p tree tid (opLong 64 l))
  | 0x21 => some (.activate p tree tid)
  | 0x22 => some (.quiet p tree tid)
  | 0x23 => some (.resume p tree tid)
  | 0x24 => some (.release p tree tid)
  | 0x25 => some (.disable p tree tid)
  | 0x26 => some (.rerange p tree tid)
  | 0x27 => some (.discNow p tree)
  | 0x28 => some (.tmmSend p tree tid (opAddr l))
  | 0x30 => some (.keyLoad p (opBits 17 l 1 0) (bit (opWord l 1) 17) (opAddr l))
  | 0x31 => some (.keyErase p (opBits 17 l 1 0))
  | 0x32 => some (.keyLut p (opBits 17 l 1 0) (opLong 48 l))
  | 0x33 => some (.keySwitch p tree tid (opBits 2 l 1 16))
  | 0x40 => some (.emAdd p (bit (opWord l 1) 0) (opAddr l))
  | 0x41 => some (.emMod p (bit (opWord l 1) 0) (opAddr l))
  | 0x42 => some (.emDel p (bit (opWord l 1) 0) (opAddr l))
  | 0x43 => some (.clsSwap p)
  | 0x50 => some (.overlayApply p (opBits 5 l 1 0) (opAddr l) (opBits 21 l 4 0))
  | _ => none

/-- May a row run as the command of a partition: the command that its ring has taken spells it, and does not wait for its completion
(R322)? With no command taken, the row stands for one that host software gives there and then (log entry 12). -/
def cmdTurn (s : State) (p : BitVec 6) (i : Instr) : Bool :=
  match tFind p.toNat s.hrd.cmd with
  | some c => c.wait.isNone && decide (cmdOf p c.words = some i)
  | none => (ringOf s .cmd p.toNat).st != .halted

/-- A partition's command runs. -/
def cmdGo (p : BitVec 6) (i : Instr) (f : State → State) (s : State) : State := if cmdTurn s p i then f s else s

/-- A command on a tree or slot: it completes with OK and no effect where another partition owns it (R333). -/
def ownedCmd (p : Nat) (owns : Bool) (f : State → State) (s : State) : State :=
  if owns then f s else completeCmd p 0 0 0 (partViol p s)

/-- Tick at whose boundary a command accepted now takes effect (R51, R233). -/
def dueTick (s : State) : Nat := if s.tim.cutDone then s.tim.tick + 2 else s.tim.tick + 1

/-! ## Rings (R295, R328, R329) -/

/-- RING_SET: a kind that is no send, fill or completion ring, or a ring that does not exist, is an operand out of range. -/
def ringSet (p kind n : Nat) (ctx : W6) (s : State) : State :=
  let k := kindOf kind
  if 2 < kind ∨ kcount k ≤ n then completeCmd p 42 0 0 s
  else ownedCmd p (ownsRing s p k n) (fun s =>
    let w := cleanW6 ctx
    let c := ringCause s k n w true
    if c = 0 then completeCmd p 0 0 0 (startRing k n w s) else completeCmd p 41 c 0 s) s
def execRingSet (part : BitVec 6) (kind : BitVec 2) (ring : BitVec 11) (ctx : W6) (s : State) : Outcome :=
  .next (cmdGo part (.ringSet part kind ring ctx) (ringSet part.toNat kind.toNat ring.toNat ctx) (begin_ s))

/-- RESULT of a quiesce: the next F, and PH. -/
def quiesceResult (r : Ring) : Nat := r.f + b2n r.ph * 2 ^ 16

/-- RING_QUIESCE: the ring fetches no further; prefetched fill descriptors that no frame uses are flushed, in index order. A ring that
does not run has nothing to stop. -/
def ringQuiesce (p kind n : Nat) (s : State) : State :=
  let k := kindOf kind
  if 1 < kind ∨ kcount k ≤ n then completeCmd p 42 0 0 s
  else ownedCmd p (ownsRing s p k n) (fun s =>
    let r := ringOf s k n
    if !(ringRuns r) then completeCmd p 0 0 (quiesceResult r) s
    else
      let flush := r.desc.map fun d => readyRec (CRec.mk0 1 n 16 0 d.index) (s.tim.now + 32)
      let r1 := if k == .fill then fillPace { r with desc := [], recs := r.recs ++ flush } else r
      let s1 := setRing k n { r1 with quiescing := some p } s
      setWait p (.quiesce k n) (if k == .fill then atCycle (s.tim.now + 32) (.record k n) s1 else s1)) s
def execRingQuiesce (part : BitVec 6) (kind : BitVec 2) (ring : BitVec 11) (s : State) : Outcome :=
  .next (cmdGo part (.ringQuiesce part kind ring) (ringQuiesce part.toNat kind.toNat ring.toNat) (begin_ s))

/-- RING_QUIESCE_DONE: the ring has nothing outstanding and its last record is issued. -/
def ringQuiesceDone (k : RingKind) (n : Nat) (s : State) : State :=
  let r := ringOf s k n
  match r.quiescing with
  | none => s
  | some p =>
    if r.rdN ≠ 0 ∨ !r.desc.isEmpty ∨ !r.jobs.isEmpty ∨ !r.recs.isEmpty then s
    else completeCmd p 0 0 (quiesceResult r) (setRing k n { r with quiescing := none, st := .quiesced } s)
def execRingQuiesceDone (kind : RingKind) (ring : BitVec 11) (s : State) : Outcome :=
  .next (ringQuiesceDone kind ring.toNat (begin_ s))

/-- RING_RESUME: the ring goes on from where its quiesce stopped. -/
def ringResume (p kind n : Nat) (s : State) : State :=
  let k := kindOf kind
  if 1 < kind ∨ kcount k ≤ n then completeCmd p 42 0 0 s
  else ownedCmd p (ownsRing s p k n) (fun s =>
    let r := ringOf s k n
    let s1 := if r.st == .quiesced then tryFetch k n false (setRing k n { r with st := .running } s) else s
    completeCmd p 0 0 0 s1) s
def execRingResume (part : BitVec 6) (kind : BitVec 2) (ring : BitVec 11) (s : State) : Outcome :=
  .next (cmdGo part (.ringResume part kind ring) (ringResume part.toNat kind.toNat ring.toNat) (begin_ s))

/-! ## Allocations and queues (R132, R133, R243) -/

/-- ALLOC_SET: with an image pending for the same cut-off that names the entry, the image's value holds (R133). -/
def allocSet (p t h : Nat) (w : W4) (s : State) : State :=
  ownedCmd p (ownsTree s p t) (fun s =>
    let c := allocCause s t h w
    if c ≠ 0 then completeCmd p 32 c 0 s
    else
      let overlaid := s.glb.pend.any (fun i => i.tick == dueTick s && (imgHandles i.recs).contains (t, h))
      completeCmd p (if overlaid then 33 else 0) 0 0 (putAlloc t h w s)) s
def execAllocSet (part : BitVec 6) (tree : BitVec 6) (hnd : BitVec 12) (entry : W4) (s : State) : Outcome :=
  .next (cmdGo part (.allocSet part tree hnd entry) (allocSet part.toNat tree.toNat hnd.toNat entry) (begin_ s))

/-- QUEUE_SET. -/
def queueSet (p t i : Nat) (w : W4) (s : State) : State :=
  ownedCmd p (ownsTree s p t) (fun s =>
    let q := 2048 * t + i
    let c := queueCause s q w
    if c ≠ 0 then completeCmd p 34 c 0 s else completeCmd p 0 0 0 (putCtx q w s)) s
def execQueueSet (part : BitVec 6) (tree : BitVec 6) (queue : BitVec 11) (ctx : W4) (s : State) : Outcome :=
  .next (cmdGo part (.queueSet part tree queue ctx) (queueSet part.toNat tree.toNat queue.toNat ctx) (begin_ s))

/-! ## Terminals (R110, R117, R125, R150) -/

/-- ADMIT: the serial leaves the heard list, and the ID takes it at the cut-off. -/
def admitCmd (p t tid : Nat) (serial : BitVec 64) (s : State) : State :=
  if tid = 0 then completeCmd p 42 0 0 s
  else ownedCmd p (ownsTree s p t) (fun s =>
    let r := treOf s t
    let c := ctxOf s t tid
    match r.heard.find? (fun a => a.serial == serial) with
    | none => completeCmd p 40 1 0 s
    | some a =>
      if c.state ≠ .unknown ∨ c.admitAnn.isSome then completeCmd p 40 2 0 s
      else if (tFind tid r.pre).isSome then completeCmd p 40 3 0 s
      else
        completeCmd p 0 0 0
          (modCtx t tid (fun c => { c with admitAnn := some a }) (setTre t { r with heard := r.heard.filter (fun x => x.serial != serial) } s))) s
def execAdmit (part : BitVec 6) (tree : BitVec 6) (tid : BitVec 10) (serial : BitVec 64) (s : State) : Outcome :=
  .next (cmdGo part (.admitSerial part tree tid serial) (admitCmd part.toNat tree.toNat tid.toNat serial) (begin_ s))

/-- Does Table 4-2 (and R125) take a command from a terminal's state? -/
def stateTakes (s : State) (t tid op : Nat) : Bool :=
  let x := (ctxOf s t tid).state
  if op = 0x21 then x == .keyed || (x == .ranged && treF s t 0x1C 1 1 == 0)
  else if op = 0x22 then x == .active
  else if op = 0x23 then x == .quiet
  else if op = 0x26 then tracked x
  else heardUp x

/-- A terminal command is accepted for the next cut-off, or refused. -/
def terminalCmd (op p t tid : Nat) (s : State) : State :=
  if tid = 0 then completeCmd p 42 0 0 s
  else ownedCmd p (ownsTree s p t) (fun s =>
    if stateTakes s t tid op then
      completeCmd p 0 0 0 (modCtx t tid (fun c => { c with cmds := if c.cmds.contains op then c.cmds else c.cmds ++ [op] }) s)
    else completeCmd p 43 0 0 s) s
def execActivate (part : BitVec 6) (tree : BitVec 6) (tid : BitVec 10) (s : State) : Outcome :=
  .next (cmdGo part (.activate part tree tid) (terminalCmd 0x21 part.toNat tree.toNat tid.toNat) (begin_ s))
def execQuiet (part : BitVec 6) (tree : BitVec 6) (tid : BitVec 10) (s : State) : Outcome :=
  .next (cmdGo part (.quiet part tree tid) (terminalCmd 0x22 part.toNat tree.toNat tid.toNat) (begin_ s))
def execResume (part : BitVec 6) (tree : BitVec 6) (tid : BitVec 10) (s : State) : Outcome :=
  .next (cmdGo part (.resume part tree tid) (terminalCmd 0x23 part.toNat tree.toNat tid.toNat) (begin_ s))
def execRelease (part : BitVec 6) (tree : BitVec 6) (tid : BitVec 10) (s : State) : Outcome :=
  .next (cmdGo part (.release part tree tid) (terminalCmd 0x24 part.toNat tree.toNat tid.toNat) (begin_ s))
def execDisable (part : BitVec 6) (tree : BitVec 6) (tid : BitVec 10) (s : State) : Outcome :=
  .next (cmdGo part (.disable part tree tid) (terminalCmd 0x25 part.toNat tree.toNat tid.toNat) (begin_ s))
def execRerange (part : BitVec 6) (tree : BitVec 6) (tid : BitVec 10) (s : State) : Outcome :=
  .next (cmdGo part (.rerange part tree tid) (terminalCmd 0x26 part.toNat tree.toNat tid.toNat) (begin_ s))

/-- DISC_NOW. -/
def discNow (p t : Nat) (s : State) : State :=
  ownedCmd p (ownsTree s p t) (fun s => completeCmd p 0 0 0 (modChn t (fun c => { c with discNow := true }) s)) s
def execDiscNow (part : BitVec 6) (tree : BitVec 6) (s : State) : Outcome :=
  .next (cmdGo part (.discNow part tree) (discNow part.toNat tree.toNat) (begin_ s))

/-! ## TMM_SEND and KEY_SWITCH (R87, R288, R323) -/

/-- Is one of the 128 command places of a tree free? -/
def tmmRoomFree (s : State) (t : Nat) : Bool := decide (((treOf s t).tmmq.filter (·.cmd)).length < 128)

/-- A command's message is queued and the command completes, or it waits for a place. -/
def pushCmdTmm (p t : Nat) (m : Tmm) (s : State) : State :=
  if tmmRoomFree s t then completeCmd p 0 0 0 (wake (domTP t) 1 (modTre t (fun r => { r with tmmq := r.tmmq ++ [m] }) s))
  else count1 (iTRE t) 34 (setWait p (.tmmRoom t m) s)

/-- TMM_COMMAND_QUEUED: a waiting command gets its place. -/
def tmmCmdQueued (p : Nat) (s : State) : State :=
  match (tFind p s.hrd.cmd).bind (·.wait) with
  | some (.tmmRoom t m) =>
    if tmmRoomFree s t then completeCmd p 0 0 0 (wake (domTP t) 1 (modTre t (fun r => { r with tmmq := r.tmmq ++ [m] }) s)) else s
  | some (.quiesce _ _) => s | some (.tmm _ _ _) => s | some (.keyRead _ _ _) => s | some (.keyHold _ _ _ _) => s
  | some (.keyAck _) => s | some (.em _ _ _) => s | some (.image _ _ _ _) => s | none => s
def execTmmCommandQueued (part : BitVec 6) (s : State) : Outcome := .next (tmmCmdQueued part.toNat (begin_ s))

/-- Read a command's operand from host memory, with the command ring's SNOOP, in bursts that stop at 512-byte boundaries (R317, R322). -/
def operandRead (p addr len : Nat) (w : CmdWait) (s : State) : State :=
  let r := ringOf s .cmd p
  hostReads ((bursts (len / 512 + 2) addr len).map fun b =>
    ⟨r.w.chan, rkey .cmd p, b.1, b.2, p, r.w.snoop, .operand p (b.1 - addr)⟩) (setWait p w s)

/-- TMM_SEND reads its message. -/
def tmmSendCmd (p t tid addr : Nat) (s : State) : State :=
  ownedCmd p (ownsTree s p t) (operandRead p addr 48 (.tmm t tid addr)) s
def execTmmSend (part : BitVec 6) (tree : BitVec 6) (tid : BitVec 10) (addr : BitVec 52) (s : State) : Outcome :=
  .next (cmdGo part (.tmmSend part tree tid addr) (tmmSendCmd part.toNat tree.toNat tid.toNat addr.toNat) (begin_ s))

/-- The message that a 48-byte image makes: every byte as written but the CRC. -/
def imageTmm (tid : Nat) (b : List Byte) : Tmm :=
  let tgt := beAt b 2 2 % 1024
  { type := byteAt b 0, seq := BitVec.ofNat 8 (byteAt b 1), tgt := tgt, tid := tid, body := sub b 4 40, tickAt := none, cmd := true,
    sent := 0, reps := 0, acked := tgt != 0, full := (b ++ List.replicate 48 0).take 48 }

/-- KEY_SWITCH. -/
def keySwitchCmd (p t tid ksel : Nat) (s : State) : State :=
  if tid = 0 ∨ ksel = 0 ∨ ksel = 3 then completeCmd p 42 0 0 s
  else ownedCmd p (ownsTree s p t) (fun s =>
    if (slotOf s (slotNo t tid ksel)).state ≠ 1 then completeCmd p 38 0 0 s
    else
      let m : Tmm :=
        { type := 9, seq := (treOf s t).seq, tgt := tid, tid := tid, body := BitVec.ofNat 8 ksel :: List.replicate 39 0,
          tickAt := some 1, cmd := true, sent := 0, reps := 0, acked := true, full := [] }
      pushCmdTmm p t m (modTre t (fun r => { r with seq := r.seq + 1 }) s)) s
def execKeySwitch (part : BitVec 6) (tree : BitVec 6) (tid : BitVec 10) (ksel : BitVec 2) (s : State) : Outcome :=
  .next (cmdGo part (.keySwitch part tree tid ksel) (keySwitchCmd part.toNat tree.toNat tid.toNat ksel.toNat) (begin_ s))

/-! ## Key slots (R275) -/

/-- Does a partition own a key slot, through its tree (R323)? -/
def ownsSlot (s : State) (p n : Nat) : Bool := ownsTree s p (n / 2048)

/-- KEY_LOAD reads its key. -/
def keyLoadCmd (p n : Nat) (klen : Bool) (addr : Nat) (s : State) : State :=
  ownedCmd p (ownsSlot s p n) (operandRead p addr 32 (.keyRead n klen addr)) s
def execKeyLoad (part : BitVec 6) (slot : BitVec 17) (klen : Bool) (addr : BitVec 52) (s : State) : Outcome :=
  .next (cmdGo part (.keyLoad part slot klen addr) (keyLoadCmd part.toNat slot.toNat klen addr.toNat) (begin_ s))

/-- KEY_ERASE. -/
def keyEraseCmd (p n : Nat) (s : State) : State :=
  ownedCmd p (ownsSlot s p n) (keyCommand p n false false []) s
def execKeyErase (part : BitVec 6) (slot : BitVec 17) (s : State) : Outcome :=
  .next (cmdGo part (.keyErase part slot) (keyEraseCmd part.toNat slot.toNat) (begin_ s))

/-- KEY_LUT: both last-used ticks are raised, never lowered. -/
def keyLutCmd (p n tick : Nat) (s : State) : State :=
  ownedCmd p (ownsSlot s p n) (fun s =>
    let v := slotOf s n
    completeCmd p 0 0 0 (setSlot n { v with lutD := max v.lutD tick, lutU := max v.lutU tick } s)) s
def execKeyLut (part : BitVec 6) (slot : BitVec 17) (tick : BitVec 48) (s : State) : Outcome :=
  .next (cmdGo part (.keyLut part slot tick) (keyLutCmd part.toNat slot.toNat tick.toNat) (begin_ s))

/-! ## The classifier (R216, R233) -/

/-- EM_ADD, EM_MOD and EM_DEL read their entry image. -/
def emCmd (op p : Nat) (dir : Bool) (addr : Nat) (s : State) : State :=
  ownedCmd p (p == 0) (operandRead p addr 64 (.em op dir addr)) s
def execEmAdd (part : BitVec 6) (dir : Bool) (addr : BitVec 52) (s : State) : Outcome :=
  .next (cmdGo part (.emAdd part dir addr) (emCmd 0 part.toNat dir addr.toNat) (begin_ s))
def execEmMod (part : BitVec 6) (dir : Bool) (addr : BitVec 52) (s : State) : Outcome :=
  .next (cmdGo part (.emMod part dir addr) (emCmd 1 part.toNat dir addr.toNat) (begin_ s))
def execEmDel (part : BitVec 6) (dir : Bool) (addr : BitVec 52) (s : State) : Outcome :=
  .next (cmdGo part (.emDel part dir addr) (emCmd 2 part.toNat dir addr.toNat) (begin_ s))

/-- CLS_SWAP: a swap at the boundary of R233, or at once before the engine starts. -/
def clsSwapCmd (p : Nat) (s : State) : State :=
  ownedCmd p (p == 0) (fun s =>
    completeCmd p 0 0 0
      (if s.tim.started then { s with cls := { s.cls with swapDue := s.cls.swapDue ++ [dueTick s] } } else clsSwapNow s)) s
def execClsSwap (part : BitVec 6) (s : State) : Outcome := .next (cmdGo part (.clsSwap part) (clsSwapCmd part.toNat) (begin_ s))

/-! ## The operand has been read (R322) -/

/-- Index of a partition's running command, for a halt. -/
def cmdIndex (s : State) (p : Nat) : Nat := ((tFind p s.hrd.cmd).map (·.index)).getD 0

/-- Bytes of the operand that a command waits for. -/
def operandLen (w : CmdWait) : Nat :=
  match w with
  | .tmm _ _ _ => 48 | .keyRead _ _ _ => 32 | .em _ _ _ => 64
  | .quiesce _ _ => 0 | .tmmRoom _ _ => 0 | .keyHold _ _ _ _ => 0 | .keyAck _ => 0 | .image _ _ _ _ => 0

/-- A command has its operand: it proceeds. -/
def operandWhole (p : Nat) (w : CmdWait) (b : List Byte) (s : State) : State :=
  match w with
  | .tmm t tid _ => if byteAt b 0 ≠ 8 ∧ byteAt b 0 ≠ 0x0D then completeCmd p 44 0 0 s else pushCmdTmm p t (imageTmm tid b) s
  | .keyRead n klen _ => keyCommand p n true klen b s
  | .em op dir _ => let r := emDo op (emImage dir b) s; completeCmd p r.2 0 0 r.1
  | .quiesce _ _ => s | .tmmRoom _ _ => s | .keyHold _ _ _ _ => s | .keyAck _ => s | .image _ _ _ _ => s

/-- Bytes of a running command's operand have returned, from an offset in it. -/
def operandPart (p off : Nat) (b : List Byte) (s : State) : State :=
  match tFind p s.hrd.cmd with
  | none => s
  | some c => match c.wait with
    | none => s
    | some w =>
      let got := c.got ++ [(off, b)]
      if (joined got).length = operandLen w then operandWhole p w (joined got) s
      else { s with hrd := { s.hrd with cmd := tPut p { c with got := got } s.hrd.cmd } }

/-- COMMAND_OPERAND_READ: a burst of an operand returns; a command that has its whole operand proceeds, or its ring halts with
MEM_FAULT. -/
def operandDone (ch tag : Nat) (bytes : List Byte) (err : Bool) (s : State) : State :=
  match readAt s ch tag with
  | none => strayRead ch tag s
  | some x =>
    match x.use with
    | .operand p off =>
      let s1 := dropRead ch tag s
      if err then retryReads (halt .cmd p 15 2 (cmdIndex s1 p) x.addr 1 s1)
      else if bytes.length ≠ x.len then s
      else retryReads (operandPart p off bytes s1)
    | .desc _ _ => s | .chain _ => s | .sendData _ _ _ => s | .image _ _ => s
def execCommandOperandRead (acc : HmpTag) (bytes : List Byte) (err : Bool) (s : State) : Outcome :=
  .next (operandDone acc.chan.val acc.tag.toNat bytes err (begin_ s))

end Sys2Proof.Machine
end

