-- ==== Sys2Proof/Machine/Avail.lean ====
section
/-!
DEFINITION. Slice roles, the Skim, handover, re-homing, rotation and repair (12_availability.md, R27 to R29). A unit of the model
takes a frame whole, so what a failed slice leaves behind are its replay records, its requests at the cipher edge, its unfinished
beats, and the input that arrived after the fault.
-/

namespace Sys2Proof.Machine

/-! ## Detection and withdrawal (R387, R392) -/

/-- SLICE_WATCHDOG_EXPIRE: cause 5, of a slice that has work, once SKM_WDOG.LIMIT cycles have passed without a strobe or beat-done is late
(R387). The command has no effect before the beat in which that is so. -/
def sliceWatchdog (i : Nat) (s : State) : State :=
  if !((roleOf s i == .active || roleOf s i == .loading || roleOf s i == .shadow) && hasWork s i) then s
  else
    let due := tGet 0 s.skm.strobe i + (reg s (pageSKM + 4)).toNat % 2 ^ 12
    let s1 := waitUntil due s
    let late := s1.tim.started && decide (tGet 0 s1.skm.beatDone i < absBeat s1) && decide (256 ≤ cyc s1 - s1.tim.beat * beatCyc)
    if due ≤ s1.tim.now ∨ late = true then declareFault i 5 6 s1 else s1
def execSliceWatchdogExpire (slice : Fin 9) (s : State) : Outcome := .next (sliceWatchdog slice.val (begin_ s))

/-- TOKEN_WITHDRAWAL_DONE (R392). -/
def withdrawalDone (i : Nat) (s : State) : State :=
  if s.skm.ho.any (fun h => h.failed == i && !h.walked) then
    let s1 := walkRecords i s
    { s1 with skm := { s1.skm with ho := s1.skm.ho.map fun h => if h.failed = i then { h with walked := true } else h } }
  else s
def execTokenWithdrawalDone (slice : Fin 9) (s : State) : Outcome := .next (withdrawalDone slice.val (begin_ s))

/-! ## Replay (R393 to R396, R402) -/

/-- Is the length of a frame from this source known at enqueue (R245)? -/
def lenKnownOf (s : State) (src : Src) (n : Nat) : Bool :=
  src.kind != 0 || decide (n ≤ if (tGet Upl.empty s.upl src.num).paired then 4320 else 2160)

/-- Field 42 of a frame (R213; log entry 9). -/
def lenFieldOf (s : State) (src : Src) (n : Nat) : Nat :=
  if src.kind = 0 then fieldLen n (if (tGet Upl.empty s.upl src.num).paired then 512 else 256) else fieldLen n 512

/-- Frame `n` presented again from its source: an uplink frame's length and stamp are those of its port's receive list (Table 12-6). -/
def againArrive (s : State) (up : Bool) (n : Nat) (f : Frame) : Arrive :=
  let e := if f.src.kind = 0 then (uplOf s f.src.num).recv.find? (·.frame == n) else none
  let len := (e.map (·.len)).getD f.len
  { up := up, src := f.src, bytes := f.bytes, n := len, mark := f.mark, stamp := (e.map (·.stamp)).getD f.stamp, tid := f.tid, hnd := f.hnd,
    maxlen := f.rxMax, lenField := lenFieldOf s f.src len, lenKnown := lenKnownOf s f.src len, looped := f.looped, send := f.send,
    part := if f.src.kind = 2 then some (ringOwner s .send f.src.num) else none, last := f.last, page := none, frame := none, again := true }

/-- Targets, drop precedence and L4DROP of a replayed frame: classified again on the page of its cycle 0, without a charge (R224,
R236); a frame that is not classified goes where its entries say. -/
def againTargets (a : Arrive) (es : List RepEntry) (s : State) : State × List (Nat × Nat) × Nat × Bool :=
  if (a.src.kind = 0 ∧ isSlow a.bytes) ∨ (directQueue s a).isSome then (s, es.map (fun e => (e.queue, 0)), 0, false)
  else
    let c := classify (arriveIn a false) none none { s with cls := { s.cls with active := (es.head?.map (·.page)).getD s.cls.active } }
    ({ c.1 with cls := { c.1.cls with active := s.cls.active } }, c.2.queues, c.2.dp, c.2.l4drop)

/-- The tokens of a replayed frame in these queues keep the cycle in which it was first enqueued, for a selection that is done again
(R56). -/
def keepAge (n : Nat) (qs : List Nat) (c : Nat) (s : State) : State :=
  qs.foldl (fun s q => setQueue q ((queueOf s q).map fun k => if k.frame = n then { k with at_ := c } else k) s) s

/-- Replay one frame in slice `i` (R394): it joins every target that has not started, and its old references go. -/
def replayFrame (i : Nat) (up : Bool) (es : List RepEntry) (s : State) : State :=
  let d := b2n up
  let n := (es.head?.map (·.frame)).getD 0
  let len := (es.head?.map (·.bytes)).getD 0
  let s1 := secPlace i d len (countO (iSLC i) 14 d 1 (count1 (iSLC i) 0 s))
  match frameOf s1 n with
  | none => laneWaste i d len 11 (countN (iSLC i) 1 es.length s1)
  | some f =>
    let a := againArrive s1 up n f
    let r := againTargets a es s1
    let was := fun (q : Nat × Nat) => es.any (fun e => e.queue == q.1 && e.started)
    let fc := cellsFor len
    let fa := if a.lenKnown then fc else cellsFor a.maxlen
    let again := r.2.1.filter (fun q => !(was q))
    let s3 := keepAge n (again.map (·.1)) ((es.head?.map (·.at_)).getD s.tim.now)
      (admitRec i up ((es.head?.map (·.page)).getD s.cls.active) n f.ino r.2.2.1 fa fc again (setFrame n { f with prov := 0 } r.1 |> countN (iSLC i) 1 (r.2.1.filter was).length))
    let s4 :=
      if r.2.2.2 then withdrawIf n (fun _ => true) s3
      else if markBad a.mark then withdrawIf n (fun q => isDs q || isUplQ q) s3
      else s3
    let olds := (es.filter (fun e => !e.started)).length
    let s5 :=
      if f.refs < ((frameOf s4 n).map (·.refs)).getD 0 then laneRetire8 i d (lanesOf len) s4
      else if olds = 0 then laneWaste i d len 11 s4 else laneWaste i d len 9 s4
    releaseEntries es (decided i (!(unclassified s1 a)) (smpOf f) s5)

/-- Replay both sections of a failed slice in the new one. -/
def replayRecords (failed new : Nat) (s : State) : State :=
  let u := takeRecords (secKey failed true) s
  let d := takeRecords (secKey failed false) u.2
  let s1 := u.1.foldl (fun s es => replayFrame new true es s) d.2
  d.1.foldl (fun s es => replayFrame new false es s) s1

/-- Change the piece of a handle that waits for the cipher edge with request `q`. -/
def setPiece (t : Nat) (q : CpqReq) (f : Piece → Piece) (s : State) : State :=
  let r := reasmOf s t q.hnd
  setReasm t q.hnd { r with pieces := r.pieces.map fun p => if p.wait = some q then f p else p } s

/-- Is position `a` (upstream tick, block) at or before `b`? -/
def posUpTo (a b : Nat × Nat) : Bool := a.1 < b.1 || (a.1 == b.1 && a.2 ≤ b.2)

/-- Is the unit of a request one of a burst that replay re-presents, from position `from_` of the record on, and that the burst buffer has
lost a word of (R389)? -/
def burstBad (s : State) (t : Nat) (from_ : Nat × Nat) (q : CpqReq) : Bool :=
  (treOf s t).bursts.any fun b =>
    b.bad && posUpTo from_ (b.utick, b.blk + b.blocks.length) && b.utick == q.tick && decide (b.blk ≤ q.ord) && decide (q.ord < b.blk + b.blocks.length)

/-- The burst-buffer position of a tree in the last Skim of slice `i` (Table 12-4). -/
def skimPos (s : State) (i t : Nat) : Nat × Nat := ((tFind i s.skm.skim).bind (fun x => tFind t x.bursts)).getD (0, 0)

/-- The TUs of a tree that waited for a slice, those beyond the last one that the cell writer has written, in the order in which they came. -/
def waitingTus (t : Nat) (s : State) : List CpqReq :=
  let mark := tGet (0, 0) s.skm.wrote t
  let waits := ((treOf s t).reasm.flatMap (fun e => e.2.pieces.filterMap (·.wait))).filter (fun q => mark == (0, 0) || !(posUpTo (q.tick, q.ord) mark))
  waits.foldl (fun l q => l.takeWhile (fun x => posUpTo (x.tick, x.ord) (q.tick, q.ord)) ++ q ::
    l.dropWhile (fun x => posUpTo (x.tick, x.ord) (q.tick, q.ord))) []

/-- The TUs of a tree that waited for a slice go to the cipher edge; those before D are lost where nothing is replayed, and count against
the failed slice `i` (R289, R389, R390, R402, R415). -/
def resumePieces (t i : Nat) (lose : Bool) (s : State) : State :=
  let s1 := (waitingTus t s).foldl
    (fun s q =>
      if ((lose && !q.since) || burstBad s t (skimPos s i t) q) = true then setPiece t q (fun p => { p with wait := none, ok := false }) (count1 (iSLC i) 4 s)
      else
        let r := cpqIssue false t q.tid (q.slot % 2 + 1) q.tick q.ord q.hnd q.first q.last q.replay q.hdr q.body s
        setPiece t q (fun p => { p with wait := none, req := r.2, ok := r.2.isSome }) r.1) s
  ((treOf s1 t).reasm.map (·.1)).foldl (fun s h => drainPieces t h none ((reasmOf s t h).pieces.length + 1) s) s1

/-- Beats of a tree that are due and not assembled go out idle, counted under REPLAY_LOST of slice `i` (R402). -/
def loseBeats (t i : Nat) (s : State) : State :=
  let late := ((treOf s t).stage.filter (fun e => e.1 ≤ absBeat s)).flatMap (fun e => e.2.filter (fun u => !u.done))
  let s1 := modTre t (fun r => { r with
    stage := r.stage.map fun e => if e.1 ≤ absBeat s then (e.1, e.2.map fun u => if u.done then u else { u with done := true, idle := true }) else e }) s
  (late.filter (·.unref)).foldl (fun s u => release1 u.frame s) (countN (iSLC i) 4 late.length s1)

/-- The selection for beat `k` done again, on the queues as they stood at the end of cycle 0 of the beat three before (R33, R56): what has
been enqueued since stands aside. -/
def selectAgain (t k : Nat) (s : State) : State :=
  let c := s.tim.tickStart + (k - 3) * beatCyc - 10 * s.tim.tick * beatCyc
  let qs := (s.qbm.q.filter (fun e => isDs e.1 && e.1 / 2048 == t)).map (·.1)
  let young := fun (x : Token) => decide (c < x.at_)
  let s1 := selectTree t k (takesDeep s) (qs.foldl (fun s q => setQueue q ((queueOf s q).filter (fun x => !(young x))) s) s)
  qs.foldl (fun a q => setQueue q ((queueOf s q).filter (fun x => young x || (queueOf a q).contains x)) a) s1

/-- The passes of a tree's Churn that fell due while its slice was being handed over are done (R52, R156). -/
def resumePasses (t : Nat) (s : State) : State :=
  let c := chnOf s t
  let s1 := modChn t (fun c => { c with late1 := none, late2 := none }) s
  let s2 := match c.late1 with | some p => onSnap t p (churnPass1 t) s1 | none => s1
  match c.late2 with | some p => onSnap t p (churnPass2 t) s2 | none => s2

/-- A tree of the failed slice `i` goes on in its new home: what waited at the cipher edge, the selections whose time has passed, unfinished
assemblies, and the passes of its Churn (R52, R390, R396). Only a re-homing gives up beats that are due (R399, R402). -/
def resumeTree (t i : Nat) (lose : Bool) (s : State) : State :=
  let s1 := resumePieces t i lose s
  let b := absBeat s1
  let s2 := if lose then loseBeats t i s1 else s1
  let last := if s2.tim.zero then b + 2 else b + 3
  let s3 := [b + 1, b + 2, b + 3].foldl
    (fun s k =>
      if last < k || (tFind k (treOf s t).stage).isSome || (tFind t s.qbm.sel).isSome then s else commitSel t (selectAgain t k s)) s2
  resumePasses t ([b, b + 1, b + 2].foldl (fun s k => assemble t k s) s3)

/-- The distribution of R401: the port pair to the lowest survivor, the trees to the others in turn. -/
def rehomeTo (s : State) (trees ports : List Nat) : State :=
  let live := (List.range 9).filter (fun i => roleOf s i == .active || roleOf s i == .loading)
  match live with
  | [] => s
  | a :: rest =>
    let l := if rest.isEmpty then [a] else rest
    (trees.zipIdx).foldl (fun s x => moveTree x.1 (l.getD (x.2 % l.length) a) s) (moveHomes [] ports a s)

/-- Frames of a source in the replay records of slice `i` whose position is lost: dropped and counted, as if not replayed. -/
def loseSource (i : Nat) (src : Src) (s : State) : State :=
  let mine := fun (e : RepEntry) => ((frameOf s e.frame).map (fun f => f.src == src)).getD false
  [secKey i true, secKey i false].foldl
    (fun s k =>
      let l := tGet [] s.qbm.rep k
      let gone := l.filter (fun e => mine e && !e.started && !e.beyond)
      let s1 := countN (iSLC i) 4 (gone.map (·.frame)).dedup.length (releaseEntries gone s)
      { s1 with qbm := { s1.qbm with rep := tSet [] s1.qbm.rep k (l.filter (fun e => !(mine e))) } }) s

/-- An entry of the record of slice `i` is lost, counted against slice `j` that replays, and takes the value of Table 12-4's last column
(R385, R415). -/
def losePart (i j : Nat) (x : SkimPart) (s : State) : State :=
  let s1 := count1 (iSLC j) 5 s
  match x with
  | .control => s1
  | .tree t =>
    let lost := (treOf s1 t).reasm.flatMap (fun e => e.2.pieces.filterMap (fun p => p.wait.filter (fun q => !q.since)))
    lost.foldl (fun s q => setPiece t q (fun p => { p with wait := none, ok := false }) (count1 (iSLC i) 4 s)) (loseSource i ⟨1, t⟩ s1)
  | .port p => loseSource i ⟨0, p⟩ s1
  | .ring n => loseSource i ⟨2, n⟩ s1
  | .egress t =>
    let open_ := (treOf s1 t).stage.filter (fun e => e.2.any (fun u => !u.done))
    modTre t (fun r => { r with stage := r.stage.map fun e =>
      if (open_.headD (0, [])).1 = e.1 then (e.1, e.2.map fun u => if u.done then u else { u with idle := true }) else e }) s1
  | .queue q =>
    let c := qctx s1 q
    let pos := fun (b : Bool) (l : Tab Nat) => tSet 0 l (rrKey (q / 2048) (qPrio c) b) q
    { s1 with qbm := { s1.qbm with dfc := tSet 0 s1.qbm.dfc q 0, rr := pos true (pos false s1.qbm.rr) } }
  | .uplink p => modUpl p (fun u => { u with shaper := [] }) s1
  | .churn t h => modChn t (fun c => { c with est := tSet Est.empty c.est h { Est.empty with atMin := true } }) s1

/-- The slice that a part of the record is loaded into, once the homes have moved; what is held per slice, or per send ring, is taken to go
to the slice that takes the ports (log entry 31). -/
def partHome (s : State) (ports : List Nat) (x : SkimPart) : Nat :=
  let first := homeU s (ports.headD 0)
  match x with
  | .control => first
  | .tree t => homeT s t
  | .port p => homeU s p
  | .ring n => if (tFind n s.hrd.ring).isSome then anchorHome s n else first
  | .egress t => homeT s t
  | .queue q => homeT s (q / 2048)
  | .uplink p => homeU s p
  | .churn t _ => homeT s t

/-- The last Skim record of slice `i` is loaded for some trees and ports, once the homes have moved (R385, R398): the shaper buckets are those
of the record, and the entries of which a word is lost take their values. Where the input since the record is replayed, the rest is what
the block still holds: a unit of the model takes a frame, a burst or a selection whole, so replay comes to the state that the failed
slice had (log entry 14). -/
def loadSkim (i : Nat) (ports : List Nat) (lost : List SkimPart) (s : State) : State :=
  let s1 := match tFind i s.skm.skim with
    | none => s
    | some x => ports.foldl (fun s p => match tFind p x.shaper with
        | some l => modUpl p (fun u => { u with shaper := l }) s
        | none => s) s
  lost.foldl (fun s x => losePart i (partHome s ports x) x s) s1

/-- What a re-homing loads besides (R402): nothing is replayed, so the deficits and positions of the trees' queues, and the estimators and
rotation points of their Churn, are those of the record. -/
def loadTrees (i : Nat) (trees : List Nat) (s : State) : State :=
  match tFind i s.skm.skim with
  | none => s
  | some x =>
    let mine := fun (k : Nat) => trees.contains (k / 2048)
    let here := fun (k : Nat) => trees.contains (k / 16)
    let s1 := { s with qbm := { s.qbm with
      dfc := (x.dfc.filter (fun e => mine e.1)).foldl (fun t e => tSet 0 t e.1 e.2) (s.qbm.dfc.filter (fun e => !(mine e.1)))
      rr := (x.rr.filter (fun e => here e.1)).foldl (fun t e => tSet 0 t e.1 e.2) (s.qbm.rr.filter (fun e => !(here e.1))) } }
    trees.foldl (fun s t => match tFind t x.chn with
      | some c => modChn t (fun v => { v with est := c.est, rot := c.rot }) s
      | none => s) s1

/-- The slice that replays begins with the record it has loaded, and with nothing of its own (R398, Table 12-12). -/
def takeRecord (i j : Nat) (s : State) : State :=
  let keys := [secKey j false, secKey j true]
  { s with
    skm := { s.skm with skim := match tFind i s.skm.skim with | some x => tPut j x s.skm.skim | none => tDel j s.skm.skim }
    qbm := { s.qbm with rep := keys.foldl (fun t k => tDel k t) s.qbm.rep, repOld := keys.foldl (fun t k => tDel k t) s.qbm.repOld } }

/-- The homes move to the loaded slice, and replay starts (R398). -/
def goLive (h : Handover) (s : State) : State :=
  let s1 := setRole h.new .active (loadSkim h.failed h.ports h.lost (moveHomes h.trees h.ports h.new (takeRecord h.failed h.new s)))
  let s2 := { s1 with skm := { s1.skm with
      ho := s1.skm.ho.map fun x => if x = h then { x with live := true, held := [], lost := [] } else x,
      hoCnt := (s1.skm.hoCnt + 1) % 2 ^ 32, replay := true } }
  let s3 := notice0 0x50 h.cause (w32 (h.failed + h.new * 16)) (w32 h.dCyc) (count1 9 2 s2)
  let s4 := setMode s3
  let s5 := h.held.foldl (fun s a => ingress a none s) (replayRecords h.failed h.new s4)
  stageRun (h.trees.foldl (fun s t => resumeTree t h.failed false s) s5)

/-- The homes move to the survivors; the input before D is lost (R402). With AUTO_REPAIR the failed slice enters TESTING at once (R411). -/
def goRehomed (h : Handover) (s : State) : State :=
  let r := loseRecords h.failed { s with skm := { s.skm with ho := s.skm.ho.filter (fun x => x != h) } }
  let was := h.held.filter (·.again)
  let l : Nat × State := (r.1 + was.length, was.foldl (fun s a => dropHeld h.failed a s) r.2)
  let s1 := loadTrees h.failed h.trees (rehomeTo l.2 h.trees h.ports)
  let s2 := setMode (notice0 0x52 h.cause (w32 h.failed) (w32 l.1) (loadSkim h.failed h.ports h.lost s1))
  let s3 := (h.held.filter (fun a => !a.again)).foldl (fun s a => ingress a none s) s2
  let s4 := stageRun (h.trees.foldl (fun s t => resumeTree t h.failed true s) s3)
  if regB s4 pageSKM 2 then ((h.failed :: h.fell).filter (fun i => roleOf s4 i == .failed)).foldl (fun s i => beginTest i s) s4 else s4

/-- HANDOVER_REPLAY_START, at D + 5,000 of the oldest handover or re-homing that waits; the command has no effect in an earlier beat. -/
def replayStart (s : State) : State :=
  match s.skm.ho.find? (fun h => !h.live) with
  | none => s
  | some h =>
    let s1 := waitUntil (h.d + 5000) s
    let s2 := if h.walked then s1 else withdrawalDone h.failed s1
    match (if s1.tim.now < h.d + 5000 then none else s2.skm.ho.find? (fun h => !h.live)) with
    | none => if s1.tim.now < h.d + 5000 then s1 else s2
    | some g => if g.rehome then goRehomed g s2 else goLive g s2
def execHandoverReplayStart (s : State) : Outcome := .next (replayStart (begin_ s))

/-- HANDOVER_DONE: replay has reached live input. With AUTO_REPAIR the failed slice enters TESTING (R411). -/
def handoverDone (s : State) : State :=
  match s.skm.ho.find? (·.live) with
  | none => s
  | some h =>
    let l := s.skm.ho.filter (fun x => x != h)
    let s1 := notice0 0x51 0 (w32 (s.tim.now - h.d)) 0 { s with skm := { s.skm with ho := l, replay := l.any (·.live) } }
    if regB s1 pageSKM 2 && roleOf s1 h.failed == .failed then beginTest h.failed s1 else s1
def execHandoverDone (s : State) : Outcome := .next (handoverDone (begin_ s))

/-! ## Rotation (R405 to R408) -/

/-- ROTATION_DUE: the period has passed. -/
def rotationDue (s : State) : State :=
  let p := (reg s (pageSKM + 8)).toNat
  if p ≠ 0 ∧ s.skm.rotTick + p ≤ s.tim.tick then { s with skm := { s.skm with rotDue := true } } else s
def execRotationDue (s : State) : Outcome := .next (rotationDue (begin_ s))

/-- SKM_ROT.NOW. -/
def rotNow (s : State) : State := { s with skm := { s.skm with rotDue := true } }
def execSkmRotNow (part : BitVec 6) (s : State) : Outcome := .next (p0Write part 0xF rotNow (begin_ s))

/-- The conditions of R406 other than the mode: the spare, where they are met. -/
def rotSpare (s : State) : Option Nat :=
  if s.skm.ho.isEmpty && s.qbm.retire.isNone && s.skm.rot.isNone then (slicesIn s .spare).find? (s.skm.passOk.contains ·) else none

/-- The ACTIVE slice that has gone longest since it was last SPARE (R406), of those whose domain is ON (R382, R441). -/
def longestActive (s : State) : Option Nat :=
  ((slicesIn s .active).filter (fun i => staysOn s (domSL i))).foldl
    (fun a i => match a with
      | none => some i
      | some j => if tGet 0 s.skm.wasSpare i < tGet 0 s.skm.wasSpare j then some i else some j) none

/-- Cycle 0 of beat 8: the spare becomes SHADOW, for the boundary of the next tick. -/
def startRotation (out : Option Nat) (j : Nat) (set : Option Nat) (s : State) : State :=
  let s1 := setRole j .shadow s
  setMode { s1 with skm := { s1.skm with rot := some ⟨out, j, set, s1.tim.tick + 1, []⟩ } }

/-- ROTATION_SHADOW_START. -/
def shadowStart (s : State) : State :=
  if !s.tim.started || !s.skm.rotDue || s.skm.mode != 0 then s
  else
    let s0 := syncTo 125000 s
    match (if cyc s0 = 125000 then rotSpare s0 else none), longestActive s0 with
    | some j, some i => startRotation (some i) j none s0
    | _, _ => s0
def execRotationShadowStart (s : State) : Outcome := .next (shadowStart (begin_ s))

/-- ROTATION_ABANDON: the shadow returns to SPARE at cycle 150,000, and the rotation stays due. The command has no effect earlier. -/
def abandonRotation (s : State) : State :=
  match s.skm.rot with
  | none => s
  | some r =>
    let s1 := syncTo 150000 s
    if cyc s1 < 150000 then s1 else setMode (setRole r.inn .spare (endRotation s1))
def execRotationAbandon (s : State) : Outcome := .next (abandonRotation (begin_ s))

/-- The trees and ports of set `k` (R405), and the set that a restoring rotation moves: a homeless one, else a split one. -/
def setTrees (k : Nat) : List Nat := (List.range 8).map (8 * k + ·)
def setPorts (k : Nat) : List Nat := [2 * k, 2 * k + 1]
def setHomes (s : State) (k : Nat) : List Nat := (setTrees k).map (homeT s) ++ (setPorts k).map (homeU s)
def restoreSet (s : State) : Option Nat :=
  match (List.range 8).find? (fun k => (setTrees k).any (lostTree s) || (setPorts k).any (lostPort s)) with
  | some k => some k
  | none => (List.range 8).find? (fun k => decide (1 < (setHomes s k).dedup.length))

/-- RESTORING_ROTATION: one set starts to move whole to the new spare. -/
def restoring (s : State) : State :=
  if !s.tim.started || !s.skm.restore || decide (s.skm.mode < 2) then s
  else
    let s0 := syncTo 125000 s
    match (if cyc s0 = 125000 then rotSpare s0 else none), restoreSet s0 with
    | some j, some k => startRotation none j (some k) s0
    | _, _ => s0
def execRestoringRotation (s : State) : Outcome := .next (restoring (begin_ s))

/-- The entries of the shadow's records of which a word was lost (R385, R407): the input that they place is taken by the slices that it
follows, so nothing of it is lost; the values that the shadow now works with are those of Table 12-4. -/
def shadowParts (r : Rotation) (s : State) : State :=
  r.lost.foldl
    (fun s x => match x with
      | .queue _ => losePart r.inn r.inn x s
      | .uplink _ => losePart r.inn r.inn x s
      | .churn _ _ => losePart r.inn r.inn x s
      | .control => count1 (iSLC r.inn) 5 s | .tree _ => count1 (iSLC r.inn) 5 s | .port _ => count1 (iSLC r.inn) 5 s
      | .ring _ => count1 (iSLC r.inn) 5 s | .egress _ => count1 (iSLC r.inn) 5 s) s

/-- A set is whole again: while another is split or has no home and a spare waits, the next restoring rotation is owed (R405). -/
def stillOwed (s : State) : State :=
  { s with skm := { s.skm with restore := !(slicesIn s .spare).isEmpty && (restoreSet s).isSome } }

/-- Order 3 of Table 1-4: the homes move to the shadow. A retirement that runs makes it wait for the next tick (Table 12-12). Of a
restoring rotation no slice is the outgoing one: what ROTATED shows there is open. -/
def rotBoundary (s : State) : State :=
  match s.skm.rot with
  | none => s
  | some r =>
    if s.tim.tick < r.tick then s
    else if s.qbm.retire.isSome then { s with skm := { s.skm with rot := some { r with tick := s.tim.tick + 1 } } }
    else
      let s0 := { s with skm := { s.skm with rot := none, rotTick := s.tim.tick } }
      let s1 := match r.out, r.set with
        | some i, _ => setRole i .spare { moveHomes (treesOf s0 i) (portsOf s0 i) r.inn s0 with
            skm := { s0.skm with rotDue := false } }
        | none, some k => stillOwed (moveHomes (setTrees k) (setPorts k) r.inn s0)
        | none, none => s0
      let out := match r.out with | some i => i | none => freeNat s1
      setMode (notice0 0x55 0 (w32 out) (w32 r.inn) (count1 9 3 (shadowParts r (setRole r.inn .active (useFree s1)))))

/-! ## Self-test and repair (R409, R411) -/

/-- A slice passes within the reinstatement limit. -/
def reinstate (i : Nat) (s : State) : State :=
  let n := tGet 0 s.skm.reinst i + 1
  notice0 0x56 0 (w32 i) (w32 n) (becomeSpare i { s with skm := { s.skm with reinst := tPut i n s.skm.reinst } })

/-- A failing pass: the SELFTEST fault. Which memory or chain failed is open. -/
def selftestFault (i : Nat) (s : State) : State := useFree (fault (iSLC i) 6 (w32 (freeNat s)) 5 1 i 0 s)

/-- A pass of slice `i` has ended; the spare begins its next one. SKM_ST shows the passes of the spare, and the one by which a slice becomes
the spare; whether a spare may take over rests on its own last pass (R406, R409). -/
def passEnd (i : Nat) (pass : Bool) (s : State) : State :=
  let was := s.skm.passOk.filter (· != i)
  let put := fun (s : State) => { s with skm := { s.skm with
    passAt := tSet 0 s.skm.passAt i s.tim.now, passOk := if pass then was ++ [i] else was } }
  let show_ := fun (s : State) => { s with skm := { s.skm with stPass := pass, stValid := true, stSlice := i } }
  match roleOf s i with
  | .spare =>
    if pass then show_ (put s) else setMode (notice0 0x54 0 (w32 i) 0 (selftestFault i (setRole i .failed (show_ (put s)))))
  | .testing =>
    if !pass then selftestFault i (setRole i .failed (put s))
    else if tGet 0 s.skm.reinst i < regF s pageSKM 4 4 then reinstate i (show_ (put s))
    else setRole i .failed (put s)
  | .active => s
  | .shadow => s
  | .loading => s
  | .failed => s
  | .defective => s

/-- SELFTEST_PASS_END: a pass takes 2,000,000 cycles; the command has no effect before the beat in which it ends. -/
def selftestEnd (i : Nat) (pass : Bool) (s : State) : State :=
  let due := tGet 0 s.skm.passAt i + 2000000
  let s1 := if roleOf s i = .spare ∨ roleOf s i = .testing then waitUntil due s else s
  if s1.tim.now < due then s1 else passEnd i pass s1
def execSelftestPassEnd (slice : Fin 9) (pass : Bool) (s : State) : Outcome := .next (selftestEnd slice.val pass (begin_ s))

/-- A write of SKM_CTL. -/
def writeSkmCtl (data : Word) (s : State) : State :=
  let i := fld data 0 4
  let s1 := setReg (pageSKM + 0x10) (data &&& 0xF) s
  if bit data 4 && roleOf s1 i == .failed then beginTest i s1 else s1
def execSkmCtlRepair (part : BitVec 6) (be : BitVec 4) (data : Word) (s : State) : Outcome :=
  .next (p0Write part be (writeSkmCtl data) (begin_ s))

end Sys2Proof.Machine
end

