-- ==== Sys2Proof/Machine/Uplink.lean ====
section
/-!
DEFINITION. Uplink ports: receive, flow control, transmit, stamps, link state (R161 to R167, R174 to R185, R195 to R202, R255 to
R257, R348 to R359, R395, R397, R507, R508). A frame crosses the edge whole, in the step of its first word; what goes wrong in its
transmission is the command's operand.
-/

namespace Sys2Proof.Machine

/-! ## The port -/

/-- Cycles of `q` pause quanta (R180). -/
def quantaCyc (s : State) (p q : Nat) : Nat := if (uplOf s p).paired then ceilDiv (q * 4) 5 else ceilDiv (q * 8) 5

/-- The port's address as a number, first wire byte most significant. -/
def uplAddr (s : State) (p : Nat) : Nat := regPair s (rUpl p 8)

/-! ## Received flow control (R179 to R182) -/

/-- The cycle in which a timer of `q` quanta ends; none for 0. -/
def timerEnd (s : State) (p last q : Nat) : Option Nat := if q = 0 then none else some (last + quantaCyc s p q)

/-- The cycle after which a timer's stop holds: the frame that renews a stop in force moves it no further (R181). -/
def stopAt (old last : Nat) (runs : Bool) : Nat := if runs then old else last

/-- Does the port's own flow-control frame keep its wire in cycle `c`? A pause that comes meanwhile leaves no start to count as in transmission
(Table 6-12, row 3). -/
def sendsFc (s : State) (p c : Nat) : Bool := let u := uplOf s p; decide (c < u.busy) && u.txFrame.isNone

/-- A consumed frame of EtherType 0x8808: it arms timers, or is dropped and counted. The 8 cycles of R181 are those of a pause; a priority
stops at once (Table 6-12, row 5). -/
def fcReceive (p last : Nat) (b : List Byte) (m : Mark) (s : State) : State :=
  let mode := uplF s p 0x10 0 2
  let o := 14 + 4 * tagCount b
  let op := beAt b o 2
  let mine := beAt b 0 6 == 0x0180C2000001 || beAt b 0 6 == uplAddr s p
  if m ≠ .good ∨ !mine then count1 (iUPL p) 15 s
  else if mode = 1 ∧ op = 1 then
    let at_ := stopAt (uplOf s p).pauseAt (if sendsFc s p last then last else last + 8) (pauseStops s p (last + 9))
    countO (iUPL p) 14 0 1 (modUpl p (fun u => { u with pause := timerEnd s p last (beAt b (o + 2) 2), pauseAt := at_ }) s)
  else if mode = 2 ∧ op = 0x101 then
    ((List.range 8).filter (fun i => (byteAt b (o + 3)).testBit i)).foldl
      (fun s i => countO (iUPL p) 14 i 1
        (modUpl p (fun u => { u with
          pfc := tSet 0 u.pfc i (((timerEnd s p last (beAt b (o + 4 + 2 * i) 2)).map (· + 1)).getD 0),
          pfcAt := tSet 0 u.pfcAt i (stopAt (tGet 0 u.pfcAt i) last (pfcStops s p i (last + 1))) }) s)) s
  else count1 (iUPL p) 15 s

/-! ## Receive (R163 to R165, R175 to R177, R348, R510) -/

/-- Count a receive mark. -/
def countMark (p : Nat) (m : Mark) (b : List Byte) (s : State) : State :=
  match m with
  | .good => s
  | .runt => count1 (iUPL p) 5 s
  | .oversize => count1 (iUPL p) 6 s
  | .rxErr => count1 (iUPL p) 9 s
  | .fcsErr => let s1 := count1 (iUPL p) 7 s; if fcsStomped b then count1 (iUPL p) 8 s1 else s1

/-- Is the slice a port survivor: DEGRADED, with more ports than its sections have the width of (R403)? -/
def portSurvivor (s : State) (h : Nat) : Bool := s.skm.mode == 2 && decide (2 < (portsOf s h).length)

/-- A frame of a port whose ingress stamp is known: marked, consumed, or brought to its section. A looped frame that returns marked
is dropped. `full`: no lane slot comes within the port's receive holding, which only a port survivor can meet (R403; log entry 8). -/
def portTake (p : Nat) (bytes : List Byte) (rxErr looped full : Bool) (stamp last : Nat) (ue : Option Word) (s : State) : State :=
  let n := bytes.length
  if n < 18 then count1 (iUPL p) 4 s
  else
    let maxlen := uplMaxlen s p
    let b := bytes.take maxlen
    let m := markOf maxlen n b rxErr
    let src : Src := ⟨0, p⟩
    let seen : SmpFrame := { src := src, len := n, act := 0, mark := m, dp := 0, tid := 0, fkind := 0, ftgt := 0, stamp := stamp }
    let s1 := completeAt last (iUPL p) seen (countMark p m b (countN (iUPL p) 1 n (count1 (iUPL p) 0 s)))
    if etherType b = 0x8808 then fcReceive p last b m s1
    else if looped && m != .good then count1 11 1 s1
    else if full && portSurvivor s (homeU s p) then count1 (iSLC (homeU s p)) 7 s1
    else
      ingress
        { up := false, src := src, bytes := b, n := n, mark := m, stamp := stamp, tid := 0, hnd := 0, maxlen := maxlen,
          lenField := lenFieldOf s src n, lenKnown := lenKnownOf s src n, looped := looped, send := none, part := none,
          last := last, page := none, frame := none, again := false } ue s1

/-- UPLINK_FRAME_RECEIVE: the row's cycle is that of the SOF word, cycle 0 of the frame's classification (R13, R204). Input of a looped instance is discarded (R507, R508). -/
def portReceive (p : Nat) (bytes : List Byte) (rxErr full : Bool) (ph : Nat) (ue : Option Word) (s : State) : State :=
  if !(domOn s (domUP p)) || isSecond s p then s
  else if !(uplOpen s p) || loopU s p == 2 then count1 (iUPL p) 20 s
  else if loopU s p = 3 then s
  else
    let n := bytes.length
    let last := s.tim.now + (if n ≤ 64 then 0 else ceilDiv n (uplBytes s p) - 1)
    let stamp := addTime s.tim.time (steps s ph - ofs16 (reg s (rUpl p 0x20)))
    portTake p bytes rxErr (loopU s p == 4) full stamp last ue s
def execUplinkFrameReceive (port : BitVec 4) (bytes : List Byte) (rxErr full : Bool) (ph : BitVec 6) (tableUe : Option Word) (s : State) :
    Outcome :=
  .next (portReceive port.toNat bytes rxErr full ph.toNat tableUe (begin_ s))
def execPauseReceive (port : BitVec 4) (bytes : List Byte) (rxErr : Bool) (s : State) : Outcome :=
  .next (portReceive port.toNat bytes rxErr false 0 none (begin_ s))
def execPfcReceive (port : BitVec 4) (bytes : List Byte) (rxErr : Bool) (s : State) : Outcome :=
  .next (portReceive port.toNat bytes rxErr false 0 none (begin_ s))

/-- PAUSE_TIMER_EXPIRE: the whole-port timer, or the timer of a priority, runs out. -/
def pauseExpire (p i : Nat) (s : State) : State :=
  match (uplOf s p).pause with
  | some e =>
    let s1 := waitUntil e s
    if e ≤ s1.tim.now then modUpl p (fun u => { u with pause := none }) s1 else s1
  | none =>
    let e := tGet 0 (uplOf s p).pfc i
    if e = 0 then s
    else
      let s1 := waitUntil (e - 1) s
      if e ≤ s1.tim.now + 1 then modUpl p (fun u => { u with pfc := tDel i u.pfc }) s1 else s1
def execPauseTimerExpire (port : BitVec 4) (prio : BitVec 3) (s : State) : Outcome :=
  .next (pauseExpire port.toNat prio.toNat (begin_ s))

/-! ## Sent flow control (R184) -/

/-- XOFF states that the port should have announced; bit 0 alone in mode 1. -/
def fcWant (s : State) (p : Nat) : BitVec 8 :=
  let mode := uplF s p 0x10 0 2
  let force := uplF s p 0x10 24 8
  if mode = 1 then BitVec.ofNat 8 (b2n ((List.range 8).any (fun i => xoffOf s p i) || force.testBit 0))
  else if mode = 2 then
    BitVec.ofNat 8 ((List.range 8).foldl (fun n i => n + if xoffOf s p i || force.testBit i then 2 ^ i else 0) 0)
  else 0

/-- Is flow control sent on the port? -/
def fcOn (s : State) (p : Nat) : Bool := regB s (rUpl p 0x10) 2 && uplF s p 0x10 0 2 != 0 && uplF s p 0x10 0 2 != 3

/-- The flow-control frame for the priorities `due` (Table 6-6): TX_QUANTA where XOFF holds, else 0. -/
def fcFrame (s : State) (p : Nat) (due want : BitVec 8) : List Byte :=
  let q := uplF s p 0x10 8 16
  let hd := beBytes 6 0x0180C2000001 ++ beBytes 6 (uplAddr s p) ++ beBytes 2 0x8808
  let times := (List.range 8).flatMap fun i =>
    beBytes 2 (if due.toNat.testBit i && want.toNat.testBit i then q else 0)
  let b :=
    if uplF s p 0x10 0 2 = 1 then hd ++ beBytes 2 1 ++ beBytes 2 (if want.toNat.testBit 0 then q else 0) ++ List.replicate 42 0
    else hd ++ beBytes 2 0x101 ++ beBytes 2 due.toNat ++ times ++ List.replicate 26 0
  b ++ fcsOf b

/-- Cycles that a frame keeps the wire, with 20 bytes of preamble and gap. -/
def wireCyc (s : State) (p n : Nat) : Nat := ceilDiv (n + 20) (uplBytes s p)

/-- What the port puts on its wire; an edge loop turns it back (R508). -/
def portEmit (p : Nat) (b : List Byte) (err : Bool) (s : State) : State :=
  if loopU s p = 3 then s else emit (.upeTx p b err) s

/-- Send a flow-control frame. -/
def fcSend (p : Nat) (due : BitVec 8) (s : State) : State :=
  let want := fcWant s p
  let b := fcFrame s p due want
  let at_ := s.tim.now + 1
  let s1 := modUpl p (fun u => { u with
    fcSent := (u.fcSent &&& ~~~due) ||| (want &&& due), busy := s.tim.now + wireCyc s p b.length, txFrame := none, txCells := [],
    txEnd := s.tim.now + wireCyc s p b.length, txLen := b.length,
    fcAt := ((List.range 8).filter (fun i => due.toNat.testBit i)).foldl (fun t i => tPut i at_ t) u.fcAt }) (count1 (iUPL p) 16 s)
  let s2 := portEmit p b false s1
  if loopU s p = 3 then portTake p b false true false s.tim.time s.tim.now none s2 else s2

/-- Cycle in which XOFF of priority `i`, which holds and has been sent, is sent again (R184). -/
def fcAgain (s : State) (p i : Nat) : Nat := tGet 0 (uplOf s p).fcAt i - 1 + quantaCyc s p (uplF s p 0x10 8 16 / 2)

/-- Priorities whose XOFF holds and has been sent. -/
def fcHeld (s : State) (p : Nat) : List Nat :=
  (List.range 8).filter (fun i => (fcWant s p).toNat.testBit i && (uplOf s p).fcSent.toNat.testBit i)

/-- Every priority that is due: a rise or a fall that has not been sent, and a repeat (R184). -/
def fcDue (s : State) (p : Nat) : BitVec 8 :=
  (fcWant s p ^^^ (uplOf s p).fcSent)
    ||| BitVec.ofNat 8 (((fcHeld s p).filter (fun i => decide (fcAgain s p i ≤ s.tim.now))).foldl (fun n i => n + 2 ^ i) 0)

/-- FC_RESEND: half of TX_QUANTA has passed since the last frame of a priority whose XOFF holds. The command has no effect before the beat
in which it has. -/
def fcResend (p : Nat) (s : State) : State :=
  if !(portSends s p) || !(fcOn s p) then s
  else
    match ((fcHeld s p).map (fcAgain s p)).min? with
    | none => s
    | some c =>
      let s1 := waitUntil (max c (uplOf s p).busy) s
      if s1.tim.now < max c (uplOf s p).busy then s1 else fcSend p (fcDue s1 p) s1
def execFcResend (port : BitVec 4) (s : State) : Outcome := .next (fcResend port.toNat (begin_ s))

/-- Charge a frame of `n` bytes. -/
def shaperCharge (p i n : Nat) (s : State) : State :=
  if shaperRate s p i = 0 then s
  else modUpl p (fun u => { u with shaper := tPut i (shaperLevel s p i - (n * bucketUnit : Nat), s.tim.now) u.shaper }) s

/-! ## The next frame (R167, R255, R269) -/

/-- Cycle from which a token can start on an uplink: dequeue, transmit work and edge hand-off take 30 cycles (Table 2-2). -/
def startAt (t : Token) : Nat := t.at_ + 30

/-- The first queue from priority `i` down that can start a frame, once unsendable heads are dropped. -/
def pickQueue (p : Nat) : Nat → Nat → State → Option (Nat × Token × Frame) × State
  | 0, _, s => (none, s)
  | fuel + 1, i, s =>
    let down := fun (s : State) => if i = 0 then (none, s) else pickQueue p fuel (i - 1) s
    if pfcStops s p i s.tim.now then down s
    else if !(shaperOk s p i) then down s
    else
      let q := qUpl p i
      match queueOf s q with
      | [] => down s
      | t :: _ =>
        match frameOf s t.frame with
        | none => pickQueue p fuel i (popHead q t s)
        | some f =>
          if s.tim.now < startAt t then down s
          else if f.mark = .runt then pickQueue p fuel i (release1 t.frame (popHead q t (count1 (iUPL p) 10 s)))
          else if markBad f.mark && !(f.late.contains q) then pickQueue p fuel i (release1 t.frame (popHead q t s))
          else if f.looped && turns (loopU s p) then pickQueue p fuel i (release1 t.frame (popHead q t (count1 11 1 s)))
          else if asleep s f then down (wakeGroups f s)
          else (some (i, t, f), wakeGroups f s)

/-! ## PTP on the wire (R355 to R359) -/

/-- Offset of the PTP message of an event frame. -/
def ptpOf (f : Frame) : Option Nat := if f.flags.toNat.testBit 6 then tFind 7 f.slots else none

/-- Whole seconds of 2^-16 ns units in one second. -/
def sec16 : Nat := 1000000000 * 2 ^ 16

/-- One's-complement difference a - b. -/
def ocSub (a b : Nat) : Nat := (a % 65535 + 65535 - b % 65535) % 65535

/-- Swap the bytes of a 16-bit value. -/
def swap16 (v : Nat) : Nat := v % 256 * 256 + v / 256 % 256

/-- Write `cf` into correctionField and keep the UDP checksum right; `none` where IPv6 leaves no pad (R359). -/
def putCorr (f : Frame) (o cf : Nat) (b : List Byte) : Option (List Byte) :=
  let b1 := patch b (o + 8) (beBytes 8 cf)
  match tFind 2 f.slots with
  | none => some b1
  | some q =>
    if !f.flags.toNat.testBit 3 then some b1
    else if f.flags.toNat.testBit 0 then some (patch b1 (q + 6) [0, 0])
    else
      let len := beAt b (q + 4) 2
      let pad := o + beAt b (o + 2) 2
      if q + len < pad + 2 then none
      else
        let z := patch b1 pad [0, 0]
        let v := ocSub (sum16 (sub b q len)) (sum16 (sub z q len))
        some (patch z pad (beBytes 2 (if (pad - q) % 2 = 0 then v else swap16 v)))

/-- Add a signed amount in 2^-16 ns to correctionField. -/
def addCorr (f : Frame) (o : Nat) (d : Int) (b : List Byte) : Option (List Byte) :=
  putCorr f o (toTwos 64 (sext 64 (beAt b (o + 8) 8) + d)) b

/-- Is the frame a one-step Sync of partition 0 (R357)? -/
def isOneStep (s : State) (p o : Nat) (f : Frame) (b : List Byte) : Bool :=
  regB s (rUpl p 0x1C) 1 && (match f.send with | some x => x.part == 0 | none => false)
    && byteAt b o % 16 == 0 && !((byteAt b (o + 6)).testBit 1)

/-- A frame's bytes without FCS with its correctionField updated for a transmit stamp, and what is counted. -/
def ptpUpdate (p stamp : Nat) (f : Frame) (b : List Byte) (s : State) : List Byte × State :=
  match ptpOf f with
  | none => (b, s)
  | some o =>
    let pad := fun (s : State) (r : Option (List Byte)) => match r with
      | some x => (x, s)
      | none => (b, count1 (iUPL p) 24 s)
    if isOneStep s p o f b then
      let origin : Nat := beAt b (o + 34) 6 * sec16 + beAt b (o + 40) 4 * 2 ^ 16
      let d : Int := ((stamp / 2 ^ 32 : Nat) : Int) - (origin : Int)
      if sec16 < d.natAbs then (b, count1 (iUPL p) 22 s) else pad s (addCorr f o d b)
    else if regB s (rUpl p 0x1C) 2 && f.src.kind == 0 && (f.sq.isSome || f.sqLost) then
      let rx := if f.sqLost then f.stamp / unitNs * unitNs else f.stamp
      let s1 := if f.sqLost then count1 (iUPL p) 23 s else s
      pad s1 (addCorr f o (((stamp / 2 ^ 32 : Nat) : Int) - (rx / 2 ^ 32 : Nat)) b)
    else (b, s)

/-! ## Transmit stamps (R351, R353, R354) -/

/-- Does a lower-numbered port still have to send frame `n`? -/
def lowerPort (s : State) (p n : Nat) : Bool :=
  s.qbm.q.any (fun e => isUplQ e.1 && decide ((e.1 - 131072) / 8 < p) && e.2.any (·.frame == n))

/-- The transmit stamp of a send with TSREQ at its first port. -/
def takeTxStamp (p n stamp : Nat) (f : Frame) (s : State) : State :=
  match f.send with
  | none => s
  | some o =>
    if !o.tsReq || lowerPort s p n || (match f.txStamp with | some (_, x) => decide (x ≤ p) | none => false) then s
    else
      let u := uplOf s p
      let lost := decide (64 ≤ u.sq.length)
      let r := ringOf s .send o.ring
      let l := r.recs.map fun x =>
        if x.r.index = o.index ∧ !x.ready then
          if lost then { x with r := { x.r with stampLost := true, stamp := 0, aux := 0 } }
          else { x with r := { x.r with stamp := compact stamp, aux := BitVec.ofNat 16 (fnsOf stamp) }, sq := some p, frame := some n }
        else x
      let s1 := setFrame n { f with txStamp := some (stamp, p) } (setRing .send o.ring { r with recs := l } s)
      if lost then count1 (iUPL p) 21 (setUpl p { u with sqLost := u.sqLost + 1 } s1)
      else setUpl p { u with sq := tPut n stamp u.sq } s1

/-- The probe of a Ventriloquist slot leaves the block (R513): the cycle of its EOF word, plus UPL_PTP_TXOFS. The probe is known by
its peer tree, its handle and its bytes (log entry 25). -/
def probeLeaves (p n len : Nat) (s : State) : State :=
  let eof := s.tim.now + (if len ≤ 64 then 0 else ceilDiv len (uplBytes s p) - 1)
  let at_ := addTime (timeAtCyc s eof) (ofs16 (reg s (rUpl p 0x24)))
  match frameOf s n with
  | none => s
  | some f =>
    s.tst.loop.foldl
      (fun s e =>
        let v := vqAt s e.1
        if e.2.depth = 5 ∧ f.src = ⟨1, e.2.peer⟩ ∧ f.hnd = regF s (pageTST + 0x104 + 0x40 * e.1) 0 12 ∧ v.probeFrame = some f.bytes then
          setVq e.1 { v with probeFrame := none, probe := false, prx := at_ } s
        else s) s

/-! ## A frame leaves (R166, R169, R178, R194, R198, R255, R264, R395, R397) -/

/-- What a frame's transmission ends as. -/
structure Sent where
  bytes : List Byte
  err : Bool
  stomp : Bool
deriving DecidableEq, Repr

/-- A frame ended early after `k` bytes, with a stomped FCS. -/
def cutAt (k : Nat) (b : List Byte) (err : Bool) : Sent := let x := b.take (min k (b.length - 4)); ⟨x ++ stompOf x, err, true⟩

/-- The head of a queue moves on: its next segment, or the next token. -/
def sentPart (q : Nat) (t : Token) (f : Frame) (s : State) : State :=
  let k := tGet 0 s.qbm.segs q
  if k + 1 < outCount f then { s with qbm := { s.qbm with segs := tSet 0 s.qbm.segs q (k + 1) } }
  else release1 t.frame (popHead q t s)

/-- A frame of `full` bytes starts, and ends as `x` says: counters, shaper, stamp, wire. The shaper is charged the frame's length at its start
(R255). `keep` leaves its token at the head (R395). -/
def startFrame (p i : Nat) (t : Token) (f : Frame) (full : Nat) (x : Sent) (stamp : Nat) (keep : Bool) (s : State) : State :=
  let q := qUpl p i
  let n := x.bytes.length
  let again := (uplOf s p).resend == some t.frame
  let s1 := if again then count1 (iSLC (homeU s p)) 2 (modUpl p (fun u => { u with resend := none }) s) else s
  let s2 := countN (iUPL p) 3 n (count1 (iUPL p) 2 (if x.stomp then count1 (iUPL p) 12 s1 else s1))
  let s3 := objAdd 2 (8 * p + i) 0 1 (objAdd 2 (8 * p + i) 1 n s2)
  let end_ := s.tim.now + ceilDiv n (uplBytes s p) - 1
  let s4 := modUpl p (fun u => { u with busy := s.tim.now + wireCyc s p n, txFrame := some t.frame, txCells := f.cells, txEnd := end_, txLen := n })
    (shaperCharge p i full s3)
  let s5 := probeLeaves p t.frame n (if tGet 0 s.qbm.segs q = 0 then takeTxStamp p t.frame stamp f s4 else s4)
  let s6 := completeAt end_ (iUPL p) (smpOf f) (leaves t.frame end_ (portEmit p x.bytes x.err s5))
  let s7 :=
    if keep then modUpl p (fun u => { u with resend := some t.frame }) (logStart q t s6)
    else sentPart q t f (logStart q t s6)
  if loopU s p = 3 then portTake p x.bytes x.err true false stamp s.tim.now none (count1 11 0 s7)
  else if loopU s p = 4 then count1 11 0 s7 else s7

/-- A second end-to-end mismatch, or one on a frame that is being sent again: the frame is withdrawn at this target (R264, R397, Table
12-12). -/
def e2eDrop (p i n : Nat) (s : State) : State :=
  count1 (iSLC (homeU s p)) 6 (withdrawIf n (· == qUpl p i) (modUpl p (fun u => { u with resend := none }) s))

/-- The bytes of the head's next frame, its PTP field updated, with FCS; the Bool says that it is cut for its length. -/
def headBytes (p i stamp : Nat) (f : Frame) (s : State) : (List Byte × Bool) × State :=
  let w := wireBytes (uplMaxlen s p) f (tGet 0 s.qbm.segs (qUpl p i))
  if w.2 then (w, s)
  else
    let b := w.1.take (w.1.length - 4)
    let r := ptpUpdate p stamp f b s
    ((r.1 ++ fcsOf r.1, false), r.2)

/-- The cell at place `m` of the head fails as it is read: the frame, or its segment, is withdrawn before its start, or ends early (R264). -/
def transmitCell (p i : Nat) (t : Token) (f : Frame) (b : List Byte) (stamp m : Nat) (s : State) : State :=
  let q := qUpl p i
  let k := tGet 0 s.qbm.segs q
  let s1 := cellFail (f.cells.getD m 0) s
  if (partCells f k).head? = some m then (if outCount f ≤ 1 then withdrawIf t.frame (· == q) s1 else sentPart q t f s1)
  else startFrame p i t f b.length (cutAt (partOfs f k m) b false) stamp false s1

/-- Both copies of a link word of the head fail as it is read, `k` cells after the break: the frame ends early, and is dropped at every
target that has not sent it (R263). -/
def transmitLink (p i : Nat) (t : Token) (f : Frame) (b : List Byte) (stamp k : Nat) (s : State) : State :=
  let held := setFrame t.frame { f with refs := f.refs + 1 } s
  let at_ := partOfs f (tGet 0 s.qbm.segs (qUpl p i)) (f.cells.length - k)
  release1 t.frame (linkFail t.frame k (startFrame p i t f b.length (cutAt at_ b false) stamp false held))

/-- Transmit the frame at a queue's head as its feed allows. The transmit stamp is that of the SOF word; the field that the port updates is
computed with the phase of the cycle before (R349, R357). -/
def transmit (p i : Nat) (ph : TxPh) (t : Token) (f : Frame) (feed : TxFeed) (s : State) : State :=
  let at_ := fun (x : BitVec 6) => addTime s.tim.time (steps s x.toNat + ofs16 (reg s (rUpl p 0x24)))
  let stamp := at_ ph.sof
  let h := headBytes p i (at_ ph.before) f s
  let b := h.1.1
  let k := tGet 0 s.qbm.segs (qUpl p i)
  let start := startFrame p i t f b.length
  let long := fun (s : State) => if h.1.2 && f.mark == .good then count1 (iUPL p) 11 s else s
  let anyCut := freeNat s % (b.length + 1)
  -- which cell fails is open (log entry 3)
  let anyCell := (partCells f k).getD (freeNat s % max 1 (partCells f k).length) 0
  match feed with
  | .whole =>
    match egrRead s f k with
    | .cell c => transmitCell p i t f b stamp (f.cells.idxOf c) (long h.2)
    | .link m => transmitLink p i t f b stamp m (long h.2)
    | .clean =>
      if f.late.contains (qUpl p i) && !h.1.2 then start (cutAt (b.length - 4) b false) stamp false h.2
      else start ⟨b, false, h.1.2⟩ stamp false (long h.2)
  | .underrun =>
    let s1 := count1 (iUPL p) 13 (useFree (long h.2))
    fault (iUPL p) 1 (w32 i) 0 4 p 0 (start (cutAt anyCut b true) stamp false s1)
  | .cellUe => transmitCell p i t f b stamp anyCell (useFree (long h.2))
  | .linkUe => transmitLink p i t f b stamp (freeNat s % max 1 f.cells.length) (useFree (long h.2))
  | .e2e =>
    if f.e2eFail.contains (qUpl p i) || (uplOf s p).resend == some t.frame then e2eDrop p i t.frame s
    else declareFault (homeU s p) 4 1 (setFrame t.frame { f with e2eFail := f.e2eFail ++ [qUpl p i] } s)
  | .sliceFault => start (cutAt anyCut b false) stamp true (useFree (long h.2))
  | .linkFall => start (cutAt anyCut b false) stamp false (useFree (long h.2))

/-- A queue loop presents the head to the downstream section instead (R507). -/
def turnHead (p i : Nat) (t : Token) (f : Frame) (s : State) : State :=
  let q := qUpl p i
  let b := (wireBytes (uplMaxlen s p) f (tGet 0 s.qbm.segs q)).1
  portTake p b false true false s.tim.time s.tim.now none
    (sentPart q t f (logStart q t (leaves t.frame s.tim.now (modUpl p (fun u => { u with busy := s.tim.now + wireCyc s p b.length }) (shaperCharge p i b.length (count1 11 0 s))))))

/-- Cycle in which the first of a port's heads can start; 0 where there is none. -/
def headAt (s : State) (p : Nat) : Nat :=
  (((List.range 8).filterMap (fun i => (queueOf s (qUpl p i)).head?.map startAt)).min?).getD 0

/-- The port's wire is free: a flow-control frame that is due goes ahead of every queue, then the queues are served. Data waits for the pause
timer, and a port whose home is being handed over sends none. -/
def portNext (p : Nat) (ph : TxPh) (feed : TxFeed) (s : State) : State :=
  if fcOn s p && fcDue s p != 0 then fcSend p (fcDue s p) s
  else if pauseStops s p s.tim.now || handingFrom s (homeU s p) then s
  else
    let n := (List.range 8).foldl (fun n i => n + (queueOf s (qUpl p i)).length) 9
    match pickQueue p n 7 s with
    | (none, s1) => s1
    | (some (i, t, f), s1) => if loopU s1 p = 2 then turnHead p i t f s1 else transmit p i ph t f feed s1

/-- UPLINK_FRAME_TRANSMIT: once the wire is free, and a head has been in its queue for 30 cycles. -/
def portTransmit (p : Nat) (ph : TxPh) (feed : TxFeed) (s : State) : State :=
  if !(portSends s p) then s
  else
    let s0 := waitUntil (uplOf s p).busy s
    if fcOn s0 p && fcDue s0 p != 0 then portNext p ph feed s0 else portNext p ph feed (waitUntil (headAt s0 p) s0)
def execUplinkFrameTransmit (port : BitVec 4) (ph : TxPh) (feed : TxFeed) (s : State) : Outcome :=
  .next (portTransmit port.toNat ph feed (begin_ s))

/-! ## Link and enable (R175, R176, R198, R425) -/

/-- LINK_DOWN. -/
def linkDown (p : Nat) (s : State) : State :=
  if isSecond s p then s
  else if loopU s p = 3 then modUpl p (fun u => { u with link := false }) s
  else portDown p (modUpl p (fun u => { u with link := false }) s)
def execLinkDown (port : BitVec 4) (s : State) : Outcome := .next (linkDown port.toNat (begin_ s))

/-- LINK_UP. -/
def linkUp (p : Nat) (s : State) : State := if isSecond s p then s else modUpl p (fun u => { u with link := true }) s
def execLinkUp (port : BitVec 4) (s : State) : Outcome := .next (linkUp port.toNat (begin_ s))

/-- UPL_LAG.REJOIN: at the next tick boundary, or at once before the engine starts. -/
def lagRejoin (p : Nat) (s : State) : State :=
  if s.tim.started then modUpl p (fun u => { u with rejoinPend := true }) s
  else modUpl p (fun u => { u with rejoin := false }) s
def execLagRejoin (part : BitVec 6) (port : BitVec 4) (s : State) : Outcome :=
  .next (p0Write part 0xF (lagRejoin port.toNat) (begin_ s))

/-- A write of UPL_CFG: PAIR is sampled as EN rises. A fence ends with an EN that rises after it was written 0 with the fault status clear
(R425). -/
def writeUplCfg (p : Nat) (data : Word) (s : State) : State :=
  let a := rUpl p 0
  let s1 := setReg a (data &&& 3) s
  if !(bit data 0) then modUpl p (fun u => { u with refit := !(bit (fltOf s (iUPL p)).st 2) }) s1
  else if regB s a 0 then s1
  else modUpl p (fun u => { u with paired := bit data 1 && p % 2 == 0, fenced := u.fenced && !u.refit, refit := false }) s1
def execPortEnableWrite (part : BitVec 6) (port : BitVec 4) (be : BitVec 4) (data : Word) (s : State) : Outcome :=
  .next (p0Write part be (writeUplCfg port.toNat data) (begin_ s))

end Sys2Proof.Machine
end

