-- ==== Sys2Proof/Machine/Power.lean ====
section
/-!
DEFINITION. The power controller (14_power.md, R155, R269, R290, R334, R382): what the units answer, requests, the entry handshake,
entries with their abort points, exits and what the memories of a domain lose. How a request starts and ends lies in Machine/Slices.lean. PWC_ISO, PWC_RET and PWC_PGATE are fields of a domain's state.
-/

namespace Sys2Proof.Machine

/-- Is a domain on its way out of ON? -/
def leavesOn (p : PDom) : Bool := p.state == 0 && (p.phase == 1 || p.phase == 2)

/-! ## What the units answer (Table 14-4) -/

/-- An answer of a unit: its cause code goes with a refusal. -/
inductive UnitAns where
  | accept
  | refuse (cause : Nat)
  | delay
deriving DecidableEq, Repr

/-- Refuse, delay or accept. -/
def ansOf (no : Bool) (cause : Nat) (later : Bool) : UnitAns := if no then .refuse cause else if later then .delay else .accept

/-- The Churn of the home slice (R155): maps of ticks n - 2 to n + 1 without an entry, and no window committed for a tick that has not
ended; while its slice is being handed over, the engine that resumes answers (Table 5-5). -/
def churnAns (t : Nat) (s : State) : UnitAns :=
  let r := treOf s t
  let busy := r.ctx.any (fun e => e.2.state == .heard || tracked e.2.state)
  let built := (tFind (s.tim.tick + 1) r.grants).isSome || r.mapNone || r.mapDone
  let windows := (chnOf s t).wins.any (fun w => decide (s.tim.tick ≤ w.tick))
  let clear := (r.grants.filter (fun g => s.tim.tick ≤ g.1 + 2)).all (·.2.isEmpty) && !windows
  if r.run && !(lostTree s t) && handingFrom s (homeT s t) then .delay
  else ansOf busy 1 (r.run && !(lostTree s t) && !(built && clear))

/-- The tree port: it accepts only at a tick boundary. -/
def treeAns (t : Nat) (s : State) : UnitAns :=
  let r := treOf s t
  let mgmt := (s.qbm.ctx.filter (fun e => e.1 / 2048 == t && qEn e.2 && qTid e.2 == 0)).any (fun e => !(queueOf s e.1).isEmpty)
  ansOf r.psw.isSome 2 (!r.tmmq.isEmpty || !r.tmmPend.isEmpty || mgmt || (s.tim.started && cyc s != 0))

/-- The uplink port. -/
def uplAns (p : Nat) (s : State) : UnitAns :=
  ansOf false 4 ((List.range 8).any (fun i => !(queueOf s (qUpl p i)).isEmpty) || decide (s.tim.now < (uplOf s p).busy))

/-- Frames that a spill reads, and those in downstream assembly: of the units still to be built, and of a split that goes on. -/
def framesRead (s : State) : List Nat :=
  s.qbm.spillTo ++ s.qbm.spill ++ s.tre.flatMap (fun e =>
    (e.2.stage.flatMap (·.2)).filterMap (fun u => if u.done then none else some u.frame) ++ (e.2.cont.map (·.frame)).toList)

/-- Cells that an uplink reads for the frame in transmission, and a fill ring for a delivery whose data writes are still out. -/
def cellsRead (s : State) : List Nat :=
  (s.upl.filter (fun e => decide (s.tim.now ≤ e.2.txEnd))).flatMap (fun e => e.2.txCells)
    ++ (s.hrd.ring.filter (fun e => decide (4096 ≤ e.1) && decide (e.1 < 8192))).flatMap
      (fun e => (e.2.recs.filter (fun x => x.acks != 0)).flatMap (fun x => (x.info.map (·.cells)).getD []))

/-- The QBM for a bank group (R269, R272): the spare group and a fenced group may go OFF at any time. -/
def groupAns (g tgt : Nat) (s : State) : UnitAns :=
  match logicalOf s g with
  | none => .accept
  | some l =>
    let inside := fun (c : Nat) => c / 16384 == l
    let holds := fun (f : Frame) => f.cells.any inside
    if tgt = 2 then
      ansOf false 3 (!(grpOf s l).fenced && (s.qbm.retire == some l || s.qbm.frames.any (fun e => holds e.2)))
    else
      ansOf false 3 (s.qbm.retire == some l || s.qbm.frames.any (fun e => decide (s.tim.now < e.2.last) && holds e.2)
        || (framesRead s).any (fun n => ((frameOf s n).map holds).getD false) || (cellsRead s).any inside)

/-- The deep port. -/
def deepAns (s : State) : UnitAns :=
  ansOf (regB s pageDPT 0) 5 (!s.qbm.spillTo.isEmpty || !s.qbm.spill.isEmpty || !s.qbm.fetch.isEmpty || s.qbm.frames.any (fun e => !e.2.deep.isEmpty))

/-- The host rings (R334). -/
def hostAns (s : State) : UnitAns :=
  let works := fun (e : Nat × Ring) =>
    let r := e.2
    r.st == .running || (ringRuns r && (!r.jobs.isEmpty || (decide (e.1 < 4096) && !r.desc.isEmpty))) || !r.recs.isEmpty
  ansOf (s.hrd.ring.any works || !s.hrd.cmd.isEmpty || s.hrd.npend.any (fun e => !e.2.isEmpty) || !s.hrd.wq.isEmpty) 6 false

/-- The Skim (R382). -/
def skimAns (i : Nat) (s : State) : UnitAns :=
  let held := match roleOf s i with
    | .spare => true | .shadow => true | .loading => true | .testing => true | .active => false | .failed => false | .defective => false
  let replays := s.skm.ho.any (fun h => h.failed == i || h.new == i)
  let turns := match s.skm.rot with | some r => r.out == some i || r.inn == i | none => false
  ansOf (held || replays || turns) 7 false

/-- Domains that a slice hosts. -/
def hostedDoms (s : State) (i : Nat) : List Nat := (treesOf s i).map domTP ++ (portsOf s i).map domUP

/-- The slice itself. -/
def sliceAns (i : Nat) (s : State) : UnitAns :=
  let l := (hostedDoms s i).map (pdom s)
  let anchored := s.hrd.ring.any (fun e => decide (e.1 < 4096) && ringEn e.2 && anchorHome s e.1 == i)
  ansOf (l.any (fun p => p.state == 0 && !(leavesOn p)) || anchored) 8 (l.any leavesOn)

/-- The units that a domain's entry asks, in the order of Table 14-4. -/
def unitAns (d tgt : Nat) (s : State) : List UnitAns :=
  if d < 64 then [churnAns d s, treeAns d s]
  else if d < 80 then [uplAns (d - 64) s]
  else if d < 97 then [groupAns (d - 80) tgt s]
  else if d = 97 then [deepAns s]
  else if d = 98 then [hostAns s]
  else [skimAns (d - 99) s, sliceAns (d - 99) s]

/-- The first refusal of some answers. -/
def refusalOf : List UnitAns → Option Nat
  | [] => none
  | .refuse c :: _ => some c
  | .accept :: l => refusalOf l
  | .delay :: l => refusalOf l

/-! ## Requests (R438, R439) -/

/-- A power request (R435, R439). -/
def request (d tgt : Nat) (s : State) : State :=
  if tgt = 3 then s
  else
    let s1 := countO 2 0 d 1 s
    let p := pdom s1 d
    if domAO ≤ d then reqRefused d tgt 10 s1
    else if p.cur.isNone then startReq d tgt s1.tim.now s1
    else setPdom d { p with queued := some tgt, res := if p.queued.isSome then 5 else p.res } s1

/-- A write of PWR_REQ. -/
def writePwrReq (data : Word) (s : State) : State := request (fld data 0 7) (fld data 8 2) s
def execPwrReq (part : BitVec 6) (be : BitVec 4) (data : Word) (s : State) : Outcome :=
  .next (p0Write part be (writePwrReq data) (begin_ s))

/-! ## The entry handshake (R440) -/

/-- The current request is refused, and the units go on as before. -/
def refuseCur (d cause : Nat) (s : State) : State :=
  let tgt := (pdom s d).cur.getD 0
  let s1 := modPdom d (fun p => { p with wake := 0 }) (endReq d 2 cause (askUnits d false s))
  nextReq d (reqRefused d tgt cause s1)

/-- The answers of a domain's units as they stand: a unit that has accepted has done so for good. -/
def answers (d : Nat) (s : State) : List UnitAns :=
  let p := pdom s d
  ((unitAns d (p.cur.getD 0) s).zipIdx).map (fun x => if p.acc.testBit x.2 then .accept else x.1)

/-- What has accepted is noted. -/
def latchAns (d : Nat) (l : List UnitAns) (s : State) : State :=
  modPdom d (fun p => { p with acc := (l.zipIdx).foldl (fun n x => if x.1 = .accept then n + 2 ^ x.2 else n) 0 }) s

/-- The entry starts in the next cycle. -/
def startEntry (d : Nat) (s : State) : State :=
  modPdom d (fun p => { p with acc := 0, phase := 2, a := s.tim.now + 1, point := 1 }) s

/-- The units answer, in the cycle after the request became current or later: a refusal ends the request, and when all have accepted the
entry starts in the next cycle. -/
def handshake (d : Nat) (s : State) : State :=
  if (pdom s d).phase ≠ 1 then s
  else
    let s0 := waitUntil ((pdom s d).curAt + 1) s
    let l := answers d s0
    match refusalOf l with
    | some c => refuseCur d c s0
    | none =>
      if s0.tim.now ≤ (pdom s0 d).curAt then s0
      else if l.contains .delay then latchAns d l s0
      else startEntry d s0
def execEntryHandshakeDone (dom : BitVec 7) (s : State) : Outcome := .next (handshake dom.toNat (begin_ s))

/-- Ticks of R440, R444 and R446: 4, in cycles. -/
def fourTicks : Nat := 625000

/-- A unit that still delays 4 ticks after the request became current refuses. -/
def delayLimit (d : Nat) (s : State) : State :=
  if (pdom s d).phase ≠ 1 then s
  else
    let due := (pdom s d).curAt + fourTicks
    let s0 := waitUntil due s
    let a := answers d s0
    if s0.tim.now < due then s0
    else match refusalOf a with
      | some c => refuseCur d c s0
      | none => if a.contains .delay then refuseCur d 9 s0 else s0
def execHandshakeDelayLimit (dom : BitVec 7) (s : State) : Outcome := .next (delayLimit dom.toNat (begin_ s))

/-- Has a tree port's domain been asked to leave ON, so that its units answer now? -/
def asked (s : State) (d : Nat) : Bool := (pdom s d).phase == 1 && decide ((pdom s d).curAt < s.tim.now)

/-- The end of a tick: the Churn answers on the map that its passes have built (R155), before the pages swap. -/
def churnLatch (s : State) : State :=
  ((s.pwr.dom.map (·.1)).filter (fun d => decide (d < 64) && asked s d)).foldl
    (fun s d => if !((pdom s d).acc.testBit 0) && churnAns d s == .accept then modPdom d (fun p => { p with acc := p.acc + 1 }) s else s) s

/-- The tick boundary: a tree port answers (Table 14-4), and where its Churn has accepted the entry starts. -/
def treeLatch (s : State) : State :=
  ((s.pwr.dom.map (·.1)).filter (fun d => decide (d < 64) && asked s d)).foldl
    (fun s d =>
      let l := answers d s
      if (refusalOf l).isSome then s else if l.contains .delay then latchAns d l s else startEntry d s) s

/-! ## Entry (R442 to R444) -/

/-- The undo steps begin; the domain is ON in cycle `due` (Table 14-5). -/
def undoEntry (d due : Nat) (s : State) : State :=
  let s1 := modPdom d (fun p => { p with phase := 4, gate := false }) s
  if due ≤ s1.tim.now then undone d s1 else waitUntil due (atCycle due (.undone d) s1)

/-- An abort point is passed. -/
def passPoint (d : Nat) (p : PDom) (s : State) : State :=
  if p.point = 1 then domLeaves d (setPdom d { p with iso := true, point := 2 } s)
  else if p.point = 2 then setPdom d { p with point := 3 } s
  else if p.point = 3 then
    let keep := p.cur == some 1
    setPdom d { p with
      ret := keep, kept := if keep then BitVec.ofNat 2 (regF s (pagePWR + 0x1200 + 4 * d) 0 2) else 0, point := 4 } s
  else setPdom d { p with gate := true, point := 5 } s

/-- ENTRY_ABORT_POINT: the next of the four points, in its cycle. -/
def abortPoint (d : Nat) (s : State) : State :=
  let p0 := pdom s d
  if p0.phase ≠ 2 ∨ p0.point = 0 ∨ 4 < p0.point then s
  else
    let due := p0.a + [0, 0, 16, 32, 64].getD p0.point 0
    let s0 := waitUntil due s
    let p := pdom s0 d
    if s0.tim.now < due then s0
    else if p.wake = 0 then passPoint d p s0
    else undoEntry d (p.a + [0, 0, 32, 64, 128].getD p.point 0) s0
def execEntryAbortPoint (dom : BitVec 7) (s : State) : Outcome := .next (abortPoint dom.toNat (begin_ s))

/-! ## What a domain loses (R435, R437, Table 14-3) -/

/-- A tree port: staging, the burst buffer, reassembly and the drift filters; contexts and key slots where they are not kept. R108 puts
the arrival offset into the context; as the value of the drift filter it restarts at 0 all the same (R437, DEDUCED, log entry 31). -/
def loseTree (t : Nat) (kept : BitVec 2) (s : State) : State :=
  let r := treOf s t
  let ctxs := kept.getLsbD 0 && kept.getLsbD 1
  let held := (r.stage.flatMap (·.2)).filter (fun u => !u.done && u.unref)
  let tail := match r.cont with | some c => if c.unref then [c.frame] else [] | none => []
  let s1 := (held.map (·.frame) ++ tail).foldl (fun s n => release1 n s) (discardSel t s)
  let calm := fun (c : Ctx) => { c with o := 0, run := 0, outl := 0 }
  let s2 := modTre t (fun r => { r with
    stage := [], cont := none, tmmOut := [], anns := [], acks := [], map := [], grants := [], bursts := [], reasm := [],
    heard := if ctxs then r.heard else [], pre := if ctxs then r.pre else [],
    ctx := if ctxs then r.ctx.map (fun e => (e.1, calm e.2)) else [] }) s1
  if kept.getLsbD 1 then s2
  else { s2 with cpe := { s2.cpe with slot := s2.cpe.slot.map fun e => if e.1 / 2048 = t then (e.1, { Slot.empty with gen := e.2.gen }) else e } }

/-- Bindings of a tree whose terminals restart in Unknown wait again (R63, R133). -/
def rebindTree (t : Nat) (s : State) : State :=
  let rearm := fun (b : Bind) => match b with | .bound => Bind.wait | .wait => .wait | .unwait => .none | .none => .none
  modChn t (fun c => { c with
    bind := (c.bind.map fun e => (e.1, rearm e.2)).filter (fun e => e.2 != .none), unb := [], svc := [], est := [] }) s

/-- An uplink port: pause timers and the stamp queue. -/
def loseUpl (p : Nat) (s : State) : State :=
  modUpl p (fun u => { u with
    pause := none, pauseAt := 0, pfc := [], pfcAt := [], fcSent := 0, fcAt := [], shaper := [], resend := none, sq := [], sqLost := 0,
    txFrame := none, txCells := [], txEnd := 0 }) s

/-- The host port: every ring returns to its reset context where ring contexts are not kept. -/
def loseRings (s : State) : State :=
  let fills := (s.hrd.ring.filter (fun e => 4096 ≤ e.1 ∧ e.1 < 8192)).map (fun e => e.1 - 4096)
  let sends := (s.hrd.ring.filter (fun e => e.1 < 4096)).map (·.1)
  let s1 := sends.foldl (fun s n => detachSends n s) (fills.foldl (fun s n => flushQueue (qFill n) s) (orphanReads (fun _ => true) s))
  { s1 with hrd := { s1.hrd with ring := [], cmd := [], npend := [], nsince := [], wq := [], staged := [] } }

/-- A slice: the estimators of its trees; their allocation entries where they are not kept. -/
def loseSlice (i : Nat) (kept : BitVec 2) (s : State) : State :=
  (treesOf s i).foldl
    (fun s t => modChn t (fun c =>
      if kept.getLsbD 1 then { c with est := [], pass := none }
      else { c with est := [], pass := none, alloc := [], allocPend := [], bind := [], unb := [] }) s) s

/-- The memories of a domain when its supply has gone. -/
def loseMemories (d : Nat) (kept : BitVec 2) (s : State) : State :=
  if d < 64 then
    let s1 := loseTree d kept s
    if kept.getLsbD 0 && kept.getLsbD 1 then s1 else rebindTree d s1
  else if d < 80 then loseUpl (d - 64) s
  else if d = 98 then (if kept.getLsbD 0 then s else loseRings s)
  else if 99 ≤ d then loseSlice (d - 99) kept s
  else s

/-- POWER_ACK_RISE: RET or OFF is reached. -/
def ackRise (d : Nat) (s : State) : State :=
  let p := pdom s d
  if p.phase ≠ 2 ∨ p.point ≠ 5 then s
  else
    let s1 := setPdom d { p with state := p.cur.getD 2, point := 0, a := s.tim.now } s
    nextReq d (reqDone d (loseMemories d p.kept s1))
def execPowerAckRise (dom : BitVec 7) (s : State) : Outcome := .next (ackRise dom.toNat (begin_ s))

/-- The fault of Table 13-4 for a supply switch that does not answer. -/
def stateTmo (d : Nat) (s : State) : State := fault 2 0 (w32 d) 6 13 0 0 s

/-- POWER_ENTRY_TIMEOUT: PWC_PACK has not risen 4 ticks after A. -/
def entryTimeout (d : Nat) (s : State) : State :=
  let p := pdom s d
  if p.phase ≠ 2 ∨ p.point ≠ 5 then s
  else
    let due := p.a + fourTicks
    let s0 := waitUntil due s
    if s0.tim.now < due then s0
    else undoEntry d (s0.tim.now + 64) (stateTmo d (countO 2 4 d 1 s0))
def execPowerEntryTimeout (dom : BitVec 7) (s : State) : Outcome := .next (entryTimeout dom.toNat (begin_ s))

/-! ## Exit (R446 to R449) -/

/-- The home slice of a tree port or an uplink port. -/
def homeOfDom (s : State) (d : Nat) : Option Nat :=
  if d < 64 then some (homeT s d) else if d < 80 then some (homeU s (d - 64)) else none

/-- The exit starts: PWC_PGATE falls, and a wake event is recorded. -/
def startExit (d : Nat) (s : State) : State :=
  let p := pdom s d
  let s1 := setPdom d { p with gate := false, phase := 3, a := s.tim.now, point := 0, chain := false, tmo := false } s
  if p.wake = 0 then s1
  else
    let out := p.state - 1
    notice0 0x72 p.wake (w32 d) (w32 out) (wakeRecord d p.wake out (countO 2 3 d 1 s1))

/-- The cycle in which an exit starts: the one after the wake event or the request for ON, whichever comes first, after the state that it
leaves was reached, and after a home slice that CHAIN woke is ON (R446, R448). -/
def exitDue (s : State) (d : Nat) : Nat :=
  let p := pdom s d
  let asked := if p.wake = 0 then p.curAt else if p.cur = some 0 then min p.wakeAt p.curAt else p.wakeAt
  let slice := match homeOfDom s d with | some h => if p.chain then (pdom s (domSL h)).a else 0 | none => 0
  max p.a (max asked slice) + 1

/-- The exit starts in its cycle; the command has no effect before the beat in which that lies. -/
def exitGo (d : Nat) (s : State) : State :=
  let due := exitDue s d
  let s0 := waitUntil due s
  if s0.tim.now < due then s0 else startExit d s0

/-- POWER_EXIT_START: a port whose home slice sleeps raises CHAIN for it first, and waits. -/
def exitStart (d : Nat) (s : State) : State :=
  let p := pdom s d
  if p.state = 0 ∨ p.phase = 3 ∨ (p.wake = 0 ∧ p.cur ≠ some 0) then s
  else match homeOfDom s d with
    | some h => if domOn s (domSL h) then exitGo d s else wake (domSL h) 6 (setPdom d { p with chain := true } s)
    | none => exitGo d s
def execPowerExitStart (dom : BitVec 7) (s : State) : Outcome := .next (exitStart dom.toNat (begin_ s))

/-- Does a slice copy its classifier tables from another slice before it is ON (R447)? -/
def exitCopies (d : Nat) (p : PDom) : Bool := decide (99 ≤ d) && !(p.state == 1 && p.kept.getLsbD 0 && !p.missed)

/-- Exit work after PWC_PACK has fallen, in cycles (Table 14-7, R447). -/
def exitWork (d : Nat) (p : PDom) : Nat :=
  if d < 64 then (if p.state = 1 ∧ p.kept.getLsbD 1 then 2048 else 4096)
  else if d < 80 then 256
  else if d < 97 then (if p.state = 1 then 256 else 32768)
  else if d = 97 then 1024
  else if d = 98 then 512
  else 4096 + (if exitCopies d p then copyCyc else 0)

/-- POWER_ACK_FALL. -/
def ackFall (d : Nat) (s : State) : State :=
  let p := pdom s d
  if p.phase ≠ 3 ∨ p.point = 6 then s
  else setPdom d { p with ret := false, point := 6, a := s.tim.now + exitWork d p, copy := exitCopies d p } s
def execPowerAckFall (dom : BitVec 7) (s : State) : Outcome := .next (ackFall dom.toNat (begin_ s))

/-- A domain is ON again: what its units do. A tree port emits from the next tick boundary (R448, R449), writes count 0 where its tree
does not run (R82), and erases its key slots if they were not kept (R290); the host rings take the doorbells held for them (R299). -/
def unitsOn (d : Nat) (kept : BitVec 2) (s : State) : State :=
  if d < 64 then
    let s0 := modTre d (fun r => { r with emitFrom := 10 * (s.tim.tick + 1), mapNone := true }) s
    let s1 := if (treOf s d).run then s0 else mapCountZero d s0
    if kept.getLsbD 1 then s1 else (List.range 2048).foldl (fun s k => keyWrite (d * 2048 + k) false false [] none s) s1
  else if d = 98 then
    let held := s.hrd.held
    let s1 := held.foldl (fun s b => bell b.2.1 b.2.2.1 b.2.2.2 s) { s with hrd := { s.hrd with held := [] } }
    (List.range 64).foldl (fun s p => ntcDrain p 32 s) (retryReads s1)
  else s

/-- POWER_EXIT_DONE: the exit work has ended. -/
def exitDone (d : Nat) (s : State) : State :=
  if (pdom s d).phase ≠ 3 ∨ (pdom s d).point ≠ 6 then s
  else
    let s0 := waitUntil (pdom s d).a s
    let p := pdom s0 d
    if s0.tim.now < p.a then s0
    else
      let s1 := setPdom d { p with
        state := 0, phase := 0, point := 0, a := s0.tim.now, iso := false, wake := 0, kept := 0, chain := false, tmo := false,
        missed := false, copy := false } s0
      let s2 := unitsOn d p.kept (domBack d (askUnits d false s1))
      nextReq d (if p.cur = some 0 then reqDone d s2 else s2)
def execPowerExitDone (dom : BitVec 7) (s : State) : Outcome := .next (exitDone dom.toNat (begin_ s))

/-- POWER_EXIT_TIMEOUT: raised once, and the controller goes on waiting. -/
def exitTimeout (d : Nat) (s : State) : State :=
  let p := pdom s d
  if p.phase ≠ 3 ∨ p.point = 6 ∨ p.tmo then s
  else
    let due := p.a + fourTicks
    let s0 := waitUntil due s
    if s0.tim.now < due then s0 else stateTmo d (modPdom d (fun p => { p with tmo := true }) s0)
def execPowerExitTimeout (dom : BitVec 7) (s : State) : Outcome := .next (exitTimeout dom.toNat (begin_ s))

/-! ## Wake sources of the power controller (Table 14-6) -/

/-- SD_WAKE: TFE_SD has stayed high for SD_MIN cycles. -/
def sdWake (t : Nat) (s : State) : State := wake (domTP t) 5 (modTre t (fun r => { r with sd := true }) s)
def execSdWake (tree : BitVec 6) (s : State) : Outcome := .next (sdWake tree.toNat (begin_ s))

/-- The domains whose PWR_WTICK is not 0, the value that disables it. -/
def timerDoms (s : State) : List Nat :=
  (s.regs.val.filterMap (fun e =>
    if inArr e.1 (pagePWR + 0x1400) 4 216 then some ((e.1 - (pagePWR + 0x1400)) / 8) else none)).dedup

/-- TIMER: cycle 0 of the tick that PWR_WTICK names. -/
def timerWakes (s : State) : State :=
  (timerDoms s).foldl
    (fun s d =>
      let w := (reg s (pagePWR + 0x1400 + 8 * d)).toNat + 2 ^ 32 * regF s (pagePWR + 0x1404 + 8 * d) 0 16
      if w ≠ 0 ∧ w = s.tim.tick then wake d 4 s else s) s

end Sys2Proof.Machine
end

