-- ==== Sys2Proof/Machine/Commit.lean ====
section
/-!
DEFINITION. A register write takes effect (R22, R107, R154, R521, R533): what each register's change does besides holding its new
value, what forbids it, and the boundaries at which deferred writes act.
-/

namespace Sys2Proof.Machine

/-- Every bit of a word. -/
def allOnes : Word := 0xFFFFFFFF

/-- The sum of R243 with register `a` at a new value. -/
def mincAfter (s : State) (a : Nat) (new : Word) : Nat :=
  mincSum { s with regs := { s.regs with tickDef := s.regs.tickDef ++ [⟨a, allOnes, new⟩] } } (ctxAfter s)

/-- A register that sets MINC and MAXC of a queue: UPL_QCFG word 1 and HRD_FQCFG. -/
def isMinc (a : Nat) : Bool :=
  (decide (pageUPL ≤ a) && decide (a < pageQBM) && inArr ((a - pageUPL) % 0x1000) 0x44 8 8)
    || (decide (pageHRD ≤ a) && inArr (a - pageHRD) 0x3D000 4 2048)

/-- Tree of a DPT_TREE register. -/
def deepTree (a : Nat) : Option Nat := if pageDPT ≤ a then arrIx (a - pageDPT) 0x100 4 64 else none

/-- Owner check of R230: an entry that is valid names a ring of its partition. -/
def ritAllowed (s : State) (a : Nat) (new : Word) : Bool :=
  let o := a - pageCLS
  let p := if o < 0x60000 then (o - 0x40000) / 0x800 else (o - 0x60000) / 4
  !(decide (pageCLS + 0x40000 ≤ a) && decide (a < pageCLS + 0x60100)) || !(bit new 11) || ringOwner s .fill (fld new 0 11) == p

/-- Does a rule forbid that register `a` take this value (R230, R243, R260, R533)? -/
def regAllowed (s : State) (a : Nat) (new : Word) : Bool :=
  if isMinc a then decide (fld new 0 16 ≤ fld new 16 16) && decide (mincAfter s a new + hdrm s ≤ cellsAvail s)
  else if a = pageDPT + 4 ∨ a = pageDPT + 8 ∨ a = pageDPT + 0xC then
    !(regB s pageDPT 0) && s.qbm.frames.all (fun e => e.2.deep.isEmpty)
  else match deepTree a with
    | some t => decide (rdBeatSum s t (fld new 0 14) ≤ 11000)
    | none => ritAllowed s a new

/-- A forbidden DPT_TREE write shows in DPT_STAT. -/
def noteRefused (a : Nat) (s : State) : State :=
  if (deepTree a).isSome then { s with qbm := { s.qbm with dRefused := true } } else s

/-- What a changed register of an uplink port does: a written MAXR fills its bucket (R255), a new UPL_FC.MODE stops the timers
(R185). -/
def uplHook (p o : Nat) (old new : Word) (s : State) : State :=
  if inArr o 0x40 8 8 then modUpl p (fun u => { u with shaper := tDel ((o - 0x40) / 8) u.shaper }) s
  else if o = 0x10 ∧ fld old 0 2 ≠ fld new 0 2 then modUpl p (fun u => { u with pause := none, pauseAt := 0, pfc := [], pfcAt := [], fcSent := 0, fcAt := [] }) s
  else s

/-- A word of the indirection tables is rewritten: what made it unreadable is gone (R235, R535). -/
def ritClean (a : Nat) (s : State) : State :=
  let e := if a < pageCLS + 0x60000 then (a - pageCLS - 0x40000) / 4 else 32768 + (a - pageCLS - 0x60000) / 4
  { s with cls := { s.cls with dirty := s.cls.dirty.filter (· != extCap 12 false e) } }

/-- A register that sets a flow-control threshold: QBM_SH.XOFF_ALL, QBM_FC (R257). -/
def isXoff (a : Nat) : Bool := a == pageQBM + 0x10 || a == pageQBM + 0x14

/-- What a written register does besides holding its value: a changed POL moves FAULT_OUT's line (R428), TIM_PPS.IN_EN set starts anew (R368), the delay registers of a tree make its
TIME_DELAYs due (R363), thresholds judge the counts as they stand (R257), and a new region of deep memory has a new free list (R258). -/
def regHook (a : Nat) (old new : Word) (s : State) : State :=
  if a = 0x80 then (if bit old 2 = bit new 2 then s else emit (.faultOut (pinLine s (pinLevel s))) s)
  else if a = rTim 0x60 then
    let s1 := if !(bit old 0) && bit new 0 then { s with tim := { s.tim with ppsLast := none, ppsLost := false } } else s
    if bit new 1 then s1 else { s1 with tim := { s1.tim with ppsOut := false } }
  else if pageCLS + 0x40000 ≤ a ∧ a < pageCHN then ritClean a s
  else if isXoff a then xoffFresh s
  else if a = pageDPT + 4 ∨ a = pageDPT + 8 ∨ a = pageDPT + 0xC then deepInit s
  else if a = pageCNT then { s with cnt := { s.cnt with due := if !(bit old 0) && bit new 0 then 0 else s.cnt.due } }
  else if pageTRE ≤ a ∧ a < pageUPL then
    let o := (a - pageTRE) % 0x1000
    if o = 0x40 ∨ o = 0x44 ∨ o = 0x48 ∨ o = 0x4C then modTre ((a - pageTRE) / 0x1000) (fun r => { r with tdAll := true }) s else s
  else if pageUPL ≤ a ∧ a < pageQBM then uplHook ((a - pageUPL) / 0x1000) ((a - pageUPL) % 0x1000) old new s
  else s

/-- A register takes the bits of `mask` from `data`. -/
def commitReg (a : Nat) (mask data : Word) (s : State) : State :=
  let old := reg s a
  let new := mergeW old mask data
  regHook a old new (setReg a new s)

/-- When a register's writes take effect, at this moment (R107, R521). -/
def effNow (s : State) (a : Nat) (e : Eff) : Eff :=
  match e with
  | .now => .now
  | .tick => if s.tim.started then .tick else .now
  | .cut => if s.tim.started then .cut else .now
  | .en => if s.tim.started && regB s (rTreCfg ((a - pageTRE) / 0x1000)) 0 then .tick else .now

/-- A write of the writable bits of a stored register is accepted. -/
def putReg (a : Nat) (data : Word) (s : State) : State :=
  match regSpec a with
  | none => s
  | some x =>
    let new := mergeW (regAfter s a) x.mask data
    if !(regAllowed s a new) then noteRefused a s
    else
      let d : DefWrite := ⟨a, x.mask, data⟩
      match effNow s a x.eff with
      | .now => commitReg a x.mask data s
      | .cut => { s with regs := { s.regs with cutDef := s.regs.cutDef ++ [d] } }
      | .en => commitReg a x.mask data s
      | .tick => { s with regs := { s.regs with tickDef := s.regs.tickDef ++ [d] } }

/-- Direct writes deferred to this tick boundary take effect, after any images, in order (R495, R521). A write accepted in cycle 0
comes after these actions, and waits for the next boundary. -/
def tickRegs (s : State) : State :=
  s.regs.tickDef.foldl (fun s d => commitReg d.addr d.mask d.data s)
    { s with regs := { s.regs with tickDef := [] } }

end Sys2Proof.Machine
end

