-- ==== Sys2Proof/Machine/Loop.lean ====
section
/-!
DEFINITION. Loop-back slots: the check at a start, and the end of a loop (R504, R505, R515, R516). What a running loop does lies with
the units it turns, and in Machine/Vq.lean for depth 5.
-/

namespace Sys2Proof.Machine

/-! ## The check of Table 17-2 -/

/-- What a slot's register asks for. -/
def loopReg (s : State) (n : Nat) : Loop := ⟨regF s (rLoop n) 1 3, regF s (rLoop n) 4 11, regF s (rLoop n) 15 11⟩

/-- Instances that a loop uses: send ring (kind 0), fill ring (1), tree or uplink port (2). -/
def loopUses (x : Loop) : List (Nat × Nat) :=
  if x.depth = 1 then [(0, x.inst), (1, x.peer)] else if x.depth = 5 ∧ x.peer < 64 then [(2, x.inst), (2, x.peer)] else [(2, x.inst)]

/-- Cause 1: out of range, or in an enabled slot already. -/
def loopRange (s : State) (x : Loop) : Bool :=
  (x.depth == 1 || (decide (2 ≤ x.depth) && decide (x.depth ≤ 4) && decide (x.inst < 80))
    || (x.depth == 5 && decide (x.inst < 64) && decide (x.peer ≤ 64)))
  && !((loopUses x).any (fun u => s.tst.loop.any (fun e => (loopUses e.2).contains u)))

/-- Cause 3: every domain that the loop uses is ON. -/
def loopDoms (s : State) (x : Loop) : Bool :=
  if x.depth = 1 then domOn s domHP
  else
    let home := if x.inst < 64 then homeT s x.inst else homeU s (x.inst - 64)
    domOn s x.inst && decide (home < 9) && domOn s (domSL home) && (x.depth != 5 || decide (64 ≤ x.peer) || domOn s x.peer)

/-- Cause 4: both rings of a ring loop are enabled and belong to one partition. -/
def loopRings (s : State) (x : Loop) : Bool :=
  (ringOf s .send x.inst).st != .disabled && (ringOf s .fill x.peer).st != .disabled && ringOwner s .send x.inst == ringOwner s .fill x.peer

/-- Cause 5: the trees of Ventriloquist mode. -/
def loopTrees (s : State) (x : Loop) : Bool :=
  !(regB s (rTreCfg x.inst) 0) && x.peer != x.inst
    && (decide (64 ≤ x.peer) || (regB s (rTreCfg x.peer) 0 && regF s (rTreCfg x.peer) 1 2 % 3 == regF s (rTreCfg x.inst) 1 2 % 3))

/-- Cause 6: the instance of an edge or framer loop is out of service. -/
def loopIdle (s : State) (x : Loop) : Bool :=
  if x.inst < 64 then (treOf s x.inst).ctx.all (fun e => e.2.state == .unknown)
  else !(regB s (rUpl (x.inst - 64) 0) 0 && regB s (rUpl (x.inst - 64) 0x18) 0)

/-- The first cause that refuses slot `n`; 0 none. -/
def loopCause (s : State) (n : Nat) (x : Loop) : Nat :=
  if !(loopRange s x) then 1
  else if x.depth = 5 ∧ 3 < n then 2
  else if !(loopDoms s x) then 3
  else if x.depth = 1 ∧ !(loopRings s x) then 4
  else if x.depth = 5 ∧ !(loopTrees s x) then 5
  else if (x.depth = 3 ∨ x.depth = 4) ∧ !(loopIdle s x) then 6
  else 0

/-- TFE_LOOP and UPE_LOOP, which a running framer loop asserts (R509), and TFE_VQ, which Ventriloquist mode asserts (R511). -/
def tfeLoop (s : State) (t : Nat) : Bool := loopT s t == 4
def upeLoop (s : State) (p : Nat) : Bool := loopU s p == 4
def tfeVq (s : State) (t : Nat) : Bool := (vqOf s t).isSome

/-! ## Start and end -/

/-- The emulated terminals of a slot restart; its probe and the probe's stamps stay. -/
def vqFresh (n : Nat) (s : State) : State :=
  modVq n (fun v => { Vq.empty with probeFrame := v.probeFrame, ptx := v.ptx, prx := v.prx, probe := v.probe }) s

/-- A loop ends. -/
def loopEnd (n : Nat) (s : State) : State := vqFresh n { s with tst := { s.tst with loop := tDel n s.tst.loop } }

/-- Slot `n` at a tick boundary: a loop whose EN is cleared, or whose register names another loop, ends; a slot with EN set starts, or
is refused. -/
def loopSlot (n : Nat) (s : State) : State :=
  let en := regB s (rLoop n) 0
  let x := loopReg s n
  let s1 := match tFind n s.tst.loop with
    | some y => if en && y == x then s else loopEnd n s
    | none => s
  if !en || (tFind n s1.tst.loop).isSome then s1
  else
    let c := loopCause s1 n x
    let rej := { s1.tst with rej := tSet 0 s1.tst.rej n c }
    if c = 0 then vqFresh n { s1 with tst := { rej with loop := tPut n x s1.tst.loop } }
    else setReg (rLoop n) (reg s1 (rLoop n) &&& 0xFFFFFFFE) { s1 with tst := rej }

/-- Every slot, in order. -/
def loopSlots (s : State) : State := (List.range 16).foldl (fun s n => loopSlot n s) s

/-- A write of a slot's register: at the next tick boundary, or at once before the engine starts (R504, R521). -/
def writeLoop (a : Nat) (data : Word) (s : State) : State :=
  let s1 := putReg a data s
  if s1.tim.started then s1 else loopSlot ((a - pageTST) / 0x10) s1

/-! ## Probes (R513, R514) -/

/-- TST_VQn.PROBE: a probe that is outstanding is abandoned, and its stamps are cleared. -/
def vqProbe (n : Nat) (s : State) : State :=
  modVq n (fun v => if v.probe then { v with probeFrame := none, ptx := 0, prx := 0 } else { v with probe := true, probeFrame := none }) s
def execVqProbe (part : BitVec 6) (num : BitVec 2) (s : State) : Outcome :=
  .next (p0Write part 0xF (vqProbe num.toNat) (begin_ s))

end Sys2Proof.Machine
end

