-- ==== Sys2Proof/Machine/Overlay.lean ====
section
/-!
DEFINITION. Configuration images (R51, R491 to R496): OVERLAY_APPLY, the two reads of an image, and the boundary at which it takes
effect.
-/

namespace Sys2Proof.Machine

/-! ## The checks of the first read (Table 16-6) -/

/-- May a space 0 record name this register: one that takes effect at a tick boundary, outside the excluded pages (R492)? -/
def imgTarget (a : Nat) (mask : Word) : Bool :=
  if a = pagePWR then true
  else
    let page := (decide (pageTRE ≤ a) && decide (a < pageSLC)) && a != pageCPE + 0x10
    let cfg := decide (a < pageQBM) && (if a < pageUPL then (a - pageTRE) % 0x1000 == 0 else (a - pageUPL) % 0x1000 == 0)
    let rejoin := decide (pageUPL ≤ a) && decide (a < pageQBM) && (a - pageUPL) % 0x1000 == 0x18 && bit mask 4
    let sub := match instOf a with | some (_, o) => decide (0xE00 ≤ o) && decide (o < 0xF24) | none => true
    let soon := match regSpec a with
      | some x => (match x.eff with | .tick => true | .en => true | .now => false | .cut => false)
      | none => false
    page && !cfg && !rejoin && !sub && soon

/-- Table, direction and entry of a space 3 record. -/
def recTbl (r : ImgRec) : Nat := fld r.index 27 4
def recUp (r : ImgRec) : Bool := bit r.index 31
def recEntry (r : ImgRec) : Nat := fld r.index 0 20

/-- Register of a space 4 record. -/
def recRit (r : ImgRec) : Nat := pageCLS + 0x40000 + 0x800 * fld r.index 9 6 + 4 * fld r.index 0 9

/-- Do INDEX and WORD lie inside the record's space, with every reserved bit 0 (cause 4)? -/
def recInside (r : ImgRec) : Bool :=
  let i := r.index.toNat
  let w := recWord r
  let sp := recSpace r
  decide (r.w0.toNat < 2 ^ 9) &&
    (if sp = 0 then decide (i < 2 ^ 24) && i % 4 == 0 && w == 0
     else if sp = 1 then decide (i < 2 ^ 18) && decide (1024 ≤ recHandle r) && decide (recHandle r ≤ 4094) && decide (w < 4)
     else if sp = 2 then decide (i < 131072) && decide (w < 4)
     else if sp = 3 then
       fld r.index 20 7 == 0 && decide (recEntry r < tblSize (recTbl r)) && decide (w < tblWords (recTbl r))
     else decide (i < 2 ^ 15) && w == 0)

/-- Tree whose configuration a record of space 1 or 2 changes. -/
def recOfTree (r : ImgRec) : Option Nat :=
  if recSpace r = 1 then some (recTree r) else if recSpace r = 2 then some (r.index.toNat / 2048) else none

/-- Cause 2, 4 or 6 of one record; 0 none. -/
def recCause (s : State) (r : ImgRec) : Nat :=
  if 4 < recSpace r then 2
  else if !(recInside r) then 4
  else if recSpace r = 0 ∧ !(imgTarget r.index.toNat r.mask) then 2
  else match recOfTree r with
    | some t => if regB s (rTreCfg t) 0 && (treOf s t).psw.isSome then 6 else 0
    | none => 0

/-- The first record that a check fails, and what it gives. -/
def firstBad (f : ImgRec → Nat) : Nat → List ImgRec → Option (Nat × Nat)
  | _, [] => none
  | n, r :: l => if f r = 0 then firstBad f (n + 1) l else some (n, f r)

/-- Records that staging holds. -/
def staged (l : List ImgRec) : List ImgRec := l.filter (fun r => recSpace r != 3)

/-- Index of the first record that does not fit into staging beside `held` others (cause 3). -/
def overStaging : Nat → Nat → List ImgRec → Option Nat
  | _, _, [] => none
  | held, n, r :: l =>
    if recSpace r = 3 then overStaging held (n + 1) l
    else if held < 16384 then overStaging (held + 1) (n + 1) l
    else some n

/-- The configuration that some records leave in force, with every accepted write, for the checks of R132 and R243. -/
def afterRecs (l : List ImgRec) (s : State) : State :=
  let s1 := { s with
    regs := { s.regs with val := (l.filter (fun r => recSpace r == 0)).foldl (fun v r => imgReg r v) s.regs.val }
    qbm := { s.qbm with
      ctxPend := [],
      ctx := (imgQueues l).foldl (fun t q => tSet W4.zero t q (imgCtx l q (tGet W4.zero t q))) (ctxAfter s) } }
  let trees := ((imgHandles l).map (·.1)).dedup
  let s2 := trees.foldl (fun s t => modChn t (fun c => { c with alloc := allocAfter c, allocPend := [] }) s) s1
  (imgHandles l).foldl
    (fun s e => modChn e.1 (fun c => { c with alloc := tSet W4.zero c.alloc e.2 (imgAlloc l e.1 e.2 (tGet W4.zero c.alloc e.2)) }) s) s2

/-- The rule's own cause that refuses the entry a record names, once every record is in force; 0 none (cause 5). A queue that holds
a token keeps its TID and IDX. -/
def ruleCause (before after : State) (r : ImgRec) : Nat :=
  if recSpace r = 1 then
    let t := recTree r
    allocCause after t (recHandle r) (tGet W4.zero (chnOf after t).alloc (recHandle r))
  else if recSpace r = 2 then
    let q := r.index.toNat
    let c := qctx after q
    let old := qctx before q
    let k := queueCause after q c
    if k ≠ 0 then k
    else if !(queueOf before q).isEmpty ∧ (qTid c ≠ qTid old ∨ qIdx c ≠ qIdx old) then 4 else 0
  else 0

/-- The refusal of an image accepted now: cause, first failing record, and the target's own cause. -/
def imgRefusal (direct : Bool) (due : Nat) (l : List ImgRec) (s : State) : Option (Nat × Nat × Nat) :=
  match firstBad (recCause s) 0 l with
  | some (n, c) => some (c, n, 0)
  | none =>
    let held := (s.glb.pend.filter (fun p => p.tick == due)).foldl (fun n p => n + p.recs.length) 0
    match (if direct then none else overStaging held 0 l) with
    | some n => some (3, n, 0)
    | none =>
      let others := s.glb.pend.flatMap (·.recs)
      match firstBad (ruleCause (afterRecs others s) (afterRecs (others ++ l) s)) 0 l with
      | some (n, c) => some (5, n, c)
      | none => none

/-! ## What records do -/

/-- A space 3 record writes one word of an entry of a page. -/
def imgCls (page : Bool) (r : ImgRec) (s : State) : State :=
  let old := clsEntry s page (recUp r) (recTbl r) (recEntry r)
  let ws := (List.range (tblWords (recTbl r))).map fun i =>
    if i = recWord r then mergeW (old.getD i 0) r.mask r.data else old.getD i 0
  clsWrite page (recUp r) (recTbl r) (recEntry r) ws s

/-- The power request of a record: domain and target. -/
def imgPower (r : ImgRec) : Option (Nat × Nat) :=
  if recSpace r = 0 ∧ r.index.toNat = pagePWR then
    let d := r.data &&& r.mask
    some (fld d 0 7, fld d 8 2)
  else none

/-- A register record takes effect; what its rule forbids is ignored. -/
def imgCommit (a : Nat) (mask data : Word) (s : State) : State :=
  match regSpec a with
  | none => s
  | some x =>
    let m := mask &&& x.mask
    if regAllowed s a (mergeW (reg s a) m data) then commitReg a m data s else noteRefused a s

/-- Staged records are committed in order (R494): registers and indirection entries, allocation entries, queue contexts. -/
def commitRecs (l : List ImgRec) (s : State) : State :=
  let one := fun (s : State) (r : ImgRec) =>
    if recSpace r = 0 ∧ r.index.toNat ≠ pagePWR then imgCommit r.index.toNat r.mask r.data s
    else if recSpace r = 4 then imgCommit (recRit r) r.mask r.data s
    else s
  let s1 := l.foldl one s
  let s2 := (imgHandles l).foldl
    (fun s e => applyAlloc e.1 e.2 (imgAlloc l e.1 e.2 (tGet W4.zero (chnOf s e.1).alloc e.2)) s) s1
  (imgQueues l).foldl (fun s q => applyCtx q (imgCtx l q (qctx s q)) s) s2

/-- Power requests, in ascending domain code (R438). -/
def powerRecs (l : List ImgRec) (s : State) : State :=
  let reqs := l.filterMap imgPower
  (List.range 128).foldl (fun s d => (reqs.filter (fun r => r.1 == d)).foldl (fun s r => request r.1 r.2 s) s) s

/-- Order 2 of Table 1-4: the images due commit, the pages swap once, the power requests are issued. -/
def imageBoundary (s : State) : State :=
  let due := s.glb.pend.filter (fun p => p.tick ≤ s.tim.tick)
  let swap := due.any (·.swap) || s.cls.swapDue.any (· ≤ s.tim.tick)
  let l := due.flatMap (·.recs)
  let s1 := commitRecs l s
  let s2 := { s1 with
    glb := { s1.glb with
      pend := s1.glb.pend.filter (fun p => !(p.tick ≤ s.tim.tick)),
      img := (due.getLast?.map (·.img)).getD s1.glb.img, applied := s1.glb.applied || !due.isEmpty,
      imgTick := if due.isEmpty then s1.glb.imgTick else s.tim.tick },
    cls := { s1.cls with swapDue := s1.cls.swapDue.filter (fun t => !(t ≤ s.tim.tick)) } }
  powerRecs l (if swap then clsSwapNow s2 else s2)

/-- Records of image 0 before the engine starts: straight into their targets, space 3 records into both pages (R493, R496). -/
def recsDirect (l : List ImgRec) (s : State) : State :=
  commitRecs l (l.foldl (fun s r => if recSpace r = 3 then imgCls true r (imgCls false r s) else s) s)

/-- The end of image 0 before the engine starts: its power requests are issued, and it stands as applied. -/
def imageDirect (img : Nat) (l : List ImgRec) (s : State) : State :=
  let s1 := powerRecs l s
  { s1 with glb := { s1.glb with img := img, applied := true, imgTick := 0 } }

/-! ## The command (R491) -/

/-- The bursts that read an image of `n` records (R317, R493). -/
def imageReads (p addr n : Nat) (s : State) : State :=
  let r := ringOf s .cmd p
  hostReads ((bursts (n / 32 + 2) addr (16 * n)).map fun b => ⟨r.w.chan, rkey .cmd p, b.1, b.2, p, r.w.snoop, .image p (b.1 - addr)⟩) s

/-- OVERLAY_APPLY starts the first read of the image. -/
def overlayCmd (p img addr n : Nat) (s : State) : State :=
  if p ≠ 0 then completeCmd p 0 0 0 (partViol p s)
  else if 16 < img then completeCmd p 42 0 0 s
  else if n = 0 ∨ (s.tim.started ∧ 65536 < n) ∨ (!s.tim.started ∧ (img ≠ 0 ∨ 1048576 < n)) then completeCmd p 45 1 0 s
  else
    imageReads p addr n (setWait p (.image img addr n false) s)
def execOverlayApply (part : BitVec 6) (img : BitVec 5) (addr : BitVec 52) (count : BitVec 21) (s : State) : Outcome :=
  .next (cmdGo part (.overlayApply part img addr count) (overlayCmd part.toNat img.toNat (addr.toNat / 16 * 16) count.toNat) (begin_ s))

/-- Records that have returned, in the order of the image, as far as none before them is missing. -/
def wholeRecs (l : List (Nat × List ImgRec)) : List ImgRec :=
  (l.foldl (fun (a : List (Nat × List ImgRec)) x => a.takeWhile (fun y => y.1 ≤ x.1) ++ x :: a.dropWhile (fun y => y.1 ≤ x.1)) []).foldl
    (fun a x => if x.1 = 16 * a.length then a ++ x.2 else a) []

/-- The second read writes what has returned, in order: classifier records into the standby page, or, before the engine starts, every
record into its target (R493). -/
def imageWrite (l : List ImgRec) (s : State) : State :=
  if s.tim.started then l.foldl (fun s r => if recSpace r = 3 then imgCls (!s.cls.active) r s else s) s else recsDirect l s

/-- The second read has ended: the image is accepted for a boundary, or has taken effect. -/
def imageAccept (p img : Nat) (l : List ImgRec) (s : State) : State :=
  if !s.tim.started then completeCmd p 0 0 0 (imageDirect img l s)
  else
    let due := dueTick s
    let x : PendImage := { img := img, tick := due, recs := staged l, swap := l.any (fun r => recSpace r == 3) }
    completeCmd p 0 0 due { s with glb := { s.glb with pend := s.glb.pend ++ [x] } }

/-- Records of a read of an image return: the first read's are checked once all have returned, and the second read starts; the second's
are written as they come. -/
def imagePart (p off : Nat) (l : List ImgRec) (s : State) : State :=
  match tFind p s.hrd.cmd with
  | none => s
  | some c => match c.wait with
    | some (.image img addr n second) =>
      let recs := c.recs ++ [(off, l)]
      let old := (wholeRecs c.recs).length
      let all := wholeRecs recs
      let s1 := { s with hrd := { s.hrd with cmd := tPut p { c with recs := recs } s.hrd.cmd } }
      let s2 := if second then imageWrite (all.drop old) s1 else s1
      if all.length ≠ n then s2
      else if second then imageAccept p img all s2
      else match imgRefusal (!s2.tim.started) (dueTick s2) all s2 with
        | some (k, i, x) => completeCmd p 45 k (i + 2 ^ 32 * x) s2
        | none => imageReads p addr n (setWait p (.image img addr n true) s2)
    | some (.quiesce _ _) => s | some (.tmm _ _ _) => s | some (.tmmRoom _ _) => s | some (.keyRead _ _ _) => s
    | some (.keyHold _ _ _ _) => s | some (.keyAck _) => s | some (.em _ _ _) => s | none => s

/-- IMAGE_READ_DONE: a burst of an image returns. After an error the ring halts, and what the second read has written stays. -/
def imageRead (ch tag : Nat) (l : List ImgRec) (err : Bool) (s : State) : State :=
  match readAt s ch tag with
  | none => strayRead ch tag s
  | some x =>
    match x.use with
    | .image p off =>
      let s1 := dropRead ch tag s
      if err then retryReads (halt .cmd p 15 2 (cmdIndex s1 p) x.addr 1 s1)
      else if 16 * l.length ≠ x.len then s
      else retryReads (imagePart p off l s1)
    | .desc _ _ => s | .chain _ => s | .sendData _ _ _ => s | .operand _ _ => s
def execImageReadDone (acc : HmpTag) (recs : List ImgRec) (err : Bool) (s : State) : Outcome :=
  .next (imageRead acc.chan.val acc.tag.toNat recs err (begin_ s))

end Sys2Proof.Machine
end

