-- ==== Sys2Proof/Machine/Faults.lean ====
section
/-!
DEFINITION. What software does to the fault sets and to FAULT_OUT (R418, R423, R426 to R431), and the detector of duplicated state
machines (R387, R425). Fault sets are named by the instance codes of Table 15-1.
-/

namespace Sys2Proof.Machine

/-- A write to a fault set: partition 0 only; before READY only that of GLB (R418, R487). -/
def fltWrite (part : BitVec 6) (i : Nat) (be : BitVec 4) (f : State → State) (s : State) : State :=
  if be ≠ 0xF ∨ 110 ≤ i ∨ (s.glb.phase ≠ 4 ∧ i ≠ 0) then s
  else if part ≠ 0 then partViol part.toNat s
  else f s

/-- Unmasked bits that are set. -/
def fltOpen (s : State) (i : Nat) : Word := (fltOf s i).st &&& ~~~(reg s (rFltMask i))

/-! ## FLT_STAT, FLT_MASK, FLT_VEC -/

/-- W1C: a persistent source whose cause holds sets its bit again, its fault of this cycle being counted as every cycle's is; a bit raised
in this cycle stays set; with every bit 0 the capture is released (R422, R426, R427, Table 13-7). -/
def fltClear (i : Nat) (data : Word) (s : State) : State :=
  let f := fltOf s i
  let c := cycOf s f
  let again := ((persisting s).filter (fun e => e.1 == i && bit data e.2 && bit f.st e.2)).map (·.2)
  let st := again.foldl (fun w b => w ||| w32 (2 ^ b)) (f.st &&& (~~~data ||| c.raised))
  let l := { c with cleared := c.cleared ||| (f.st &&& ~~~st) }
  if st = 0 then setFlt i { FaultSet.clear with last := { l with cap := f.cap.or c.cap, more := if f.cap.isSome then f.more else c.more } } s
  else setFlt i { f with st := st, last := l } s
def execFltStatClear (part : BitVec 6) (inst : BitVec 7) (be : BitVec 4) (data : Word) (s : State) : Outcome :=
  .next (fltWrite part inst.toNat be (fltClear inst.toNat data) (begin_ s))

/-- A unit's interrupt, where IEN is set (R423). -/
def fltIrq (i : Nat) (s : State) : State :=
  let v := reg s (rFltVec i)
  if bit v 12 then irq (fld v 0 12) 0 s else s

/-- Bits of a set that have changed to 1 in this cycle, and whose interrupt is still to be sent. -/
def fltFresh (s : State) (i : Nat) : Word :=
  (s.hrd.later.filterMap (fun e => match e.2 with
    | .told j b => if j = i then some b else none
    | _ => none)).foldl (fun w b => w ||| w32 (2 ^ b)) 0

/-- FLT_MASK: unmasking a set bit sends the interrupt. A bit that has changed in this cycle sends its own, under the new mask. -/
def fltMask (i : Nat) (data : Word) (s : State) : State :=
  let shown := reg s (rFltMask i) &&& ~~~data &&& (fltOf s i).st &&& ~~~(fltFresh s i)
  let s1 := setReg (rFltMask i) (data &&& fltBits i) s
  if shown = 0 then s1 else fltIrq i s1
def execFltMaskWrite (part : BitVec 6) (inst : BitVec 7) (be : BitVec 4) (data : Word) (s : State) : Outcome :=
  .next (fltWrite part inst.toNat be (fltMask inst.toNat data) (begin_ s))

/-- FLT_VEC: setting IEN with an unmasked bit set sends the interrupt. -/
def fltVec (i : Nat) (data : Word) (s : State) : State :=
  let rises := !(regB s (rFltVec i) 12) && bit data 12
  let s1 := setReg (rFltVec i) (data &&& 0x3FFF) s
  if rises && fltOpen s1 i &&& ~~~(fltFresh s i) != 0 then fltIrq i s1 else s1
def execFltVecWrite (part : BitVec 6) (inst : BitVec 7) (be : BitVec 4) (data : Word) (s : State) : Outcome :=
  .next (fltWrite part inst.toNat be (fltVec inst.toNat data) (begin_ s))

/-! ## Forcing (R430, R431) -/

/-- FLT_FORCE: the sources written as 1 are raised in the cycle after. -/
def fltForce (i : Nat) (data : Word) (s : State) : State :=
  if data &&& fltBits i = 0 then s else atCycle (s.tim.now + 1) (.force i (data &&& fltBits i)) s
def execFltForce (part : BitVec 6) (inst : BitVec 7) (be : BitVec 4) (data : Word) (s : State) : Outcome :=
  .next (fltWrite part inst.toNat be (fltForce inst.toNat data) (begin_ s))

/-! ## Memory errors (Table 13-4) -/

/-- A corrected error is counted, and raises no fault (R235, R263, R420). -/
def memCorrected (c : Corrected) (s : State) : State :=
  match c with
  | .buffer g => countO 6 11 g.val 1 s
  | .table up => countO 5 14 (b2n up) 1 s
  | .slice i => count1 (iSLC i.val) 15 s
  | .counter => count1 10 6 s
  | .deepFree => count1 8 4 s
  | .prt => s

/-- Both copies of a partition-table word fail (R502); a word that the page does not list does nothing. -/
def prtLost (o : Nat) (s : State) : State :=
  if (prtSpec o).isNone then s
  else
    let s1 := fault 1 0 (w32 o) 1 0 0 0 s
    { s1 with glb := { s1.glb with prtBad := (pagePRT + o) :: s1.glb.prtBad.filter (· != pagePRT + o) } }

/-- A DMA channel is fenced: no burst of it is granted, and its rings are disabled as under R330 (R425). -/
def chanLost (c : Nat) (s : State) : State :=
  let s1 := fault 4 1 (w32 c) 1 14 c 0 s
  let s2 := { s1 with hrd := { s1.hrd with fenced := c :: s1.hrd.fenced.filter (· != c) } }
  let mine := (s2.hrd.ring.filter (fun e => e.2.w.chan == c)).map (·.1)
  mine.foldl (fun s k => disableRing (kindOf (k / 4096)) (k % 4096) s) s2

/-- A ring context or index word is lost: the capture names ring and kind (R539), and the ring is disabled. -/
def ringLost (k : RingKind) (n : Nat) (s : State) : State :=
  if kcount k ≤ n then s else disableRing k n (fault 4 2 (w32 (n + kcode k * 2 ^ 11)) 1 5 n (ringOwner s k n) s)

/-- A terminal context is lost: the terminal becomes Lost, with cause 4 (R326). -/
def termLost (t tid : Nat) (s : State) : State :=
  let s1 := fault (iTRE t) 3 (w32 tid) 1 3 t 0 s
  let st := (ctxOf s t tid).state
  if st == .unknown || st == .lost || st == .released then s1 else lose t tid 4 s1

/-- Downstream staging loses a block: its unit goes out idle (R34). The block lies in the earliest staged beat that covers it. -/
def stagingLost (t blk : Nat) (s : State) : State :=
  let covers := fun (u : DsTu) => decide (u.blk ≤ blk) && decide (blk < u.blk + u.nblk)
  let b := ((treOf s t).stage.find? (fun e => e.2.any covers)).map (·.1)
  let idle := fun (u : DsTu) => if covers u = true then { u with idle := true } else u
  let here := fun (e : Nat × List DsTu) => if b = some e.1 then (e.1, e.2.map idle) else e
  modTre t (fun r => { r with stage := r.stage.map here }) (fault (iTRE t) 5 (w32 blk) 1 3 t 0 s)

/-- The copy engine reads a row of the group being retired uncorrectable: its cell is marked in the spare too (R267 step 4). -/
def copyLost (c : Nat) (s : State) : State := if s.qbm.retire = some (c / 16384) then markCell c s else s

/-- The burst buffer loses a block. -/
def burstLost (t ut blk : Nat) (s : State) : State :=
  let hit := fun (b : RawBurst) => b.utick == ut && decide (b.blk ≤ blk) && decide (blk < b.blk + b.blocks.length)
  modTre t (fun r => { r with bursts := r.bursts.map fun b => if hit b then { b with bad := true } else b })
    (fault (iTRE t) 6 (w32 (blk + ut % 2 ^ 15 * 2 ^ 17)) 1 3 t 0 s)

/-- A token is lost: its frame is withdrawn at every target not yet sent, and its cells count under LEAK. -/
def tokenLost (q pos : Nat) (s : State) : State :=
  let s1 := fault 6 5 (w32 q) 1 0 0 0 s
  match (queueOf s q)[pos]? with
  | none => s1
  | some k =>
    match frameOf s1 k.frame with
    | none => s1
    | some f =>
      let s2 := countN 6 10 f.cells.length { s1 with qbm := { s1.qbm with leak := s1.qbm.leak + f.cells.length } }
      withdraw k.frame (idleFrame k.frame (cellsLeave f f.cells.length (setFrame k.frame { f with cells := [] } s2)))

/-- A cached free-list entry is lost: the deep cell it held is not used again until DPT_CFG.SIZE is written. -/
def deepFreeLost (e : Nat) (s : State) : State :=
  let s1 := fault 8 2 (w32 e) 1 0 0 0 s
  let q := s1.qbm
  let n := e + 1 - q.dFreed.length
  let cached := q.dFreed ++ (List.range n).map (deepList s1 + q.dNext + ·)
  { s1 with qbm := { q with dFreed := cached.take e ++ cached.drop (e + 1), dNext := q.dNext + n, dLost := q.dLost + 1 } }

/-- A counter word is lost: the counter restarts from 0 (R462). Counters are numbered 16 x instance + number, and object counters as in
CNT_OBJ_IDX with bit 31 set (DEDUCED, log entry 31). -/
def counterLost (k : Nat) (s : State) : State :=
  let s1 := fault 10 0 (w32 k) 1 0 0 0 s
  { s1 with cnt := { s1.cnt with val := tSet 0 s1.cnt.val k 0 } }
def objectLost (x : BitVec 22) (s : State) : State :=
  let e : Word := x.setWidth 32
  let s1 := fault 10 0 (e ||| 0x80000000) 1 0 0 0 s
  { s1 with cnt := { s1.cnt with obj := tSet 0 s1.cnt.obj ((fld e 19 3 * 131072 + fld e 2 17) * 4 + fld e 0 2) 0 } }

/-- Does the shadow of a rotation load a record of slice `i`: the outgoing slice, or one that hosts part of the set (R405, R407)? -/
def shadowLoads (s : State) (i : Nat) (r : Rotation) : Bool :=
  match r.out, r.set with
  | some j, _ => j == i
  | none, some k => (setHomes s k).contains i
  | none, none => false

/-- A word of a Skim record reads uncorrectable as the record is loaded (R385): the entry is noted for the start of replay, or for the
boundary at which the shadow takes over. -/
def skimLost (i : Nat) (x : SkimPart) (word : Word) (s : State) : State :=
  if s.skm.ho.any (fun h => h.failed == i && !h.live) then
    let s1 := fault 9 0 word 4 1 i 0 s
    let note := fun (h : Handover) => if (h.failed == i && !h.live) = true then { h with lost := h.lost.filter (· != x) ++ [x] } else h
    { s1 with skm := { s1.skm with ho := s1.skm.ho.map note } }
  else match s.skm.rot with
    | some r =>
      if shadowLoads s i r then
        let s1 := fault 9 0 word 4 1 i 0 s
        { s1 with skm := { s1.skm with rot := some { r with lost := r.lost.filter (· != x) ++ [x] } } }
      else s
    | none => s

/-- The reaction to a memory error (Table 13-4). -/
def memError (e : MemErr) (s : State) : State :=
  match e with
  | .corrected c => memCorrected c s
  | .prt w => prtLost w.toNat s
  | .channel c => chanLost c.toNat s
  | .ring k n => ringLost k n.toNat s
  | .churnTable i m w =>
    let cap := w32 (m.toNat * 2 ^ 24 + w.toNat)
    declareAt i.val 1 1 cap (fault (iCHN i.val) 1 cap 1 2 i.val 0 s)
  | .churnResidue i t => declareFault i.val 2 5 (fault (iCHN i.val) 2 (w32 t.toNat) 5 2 i.val 0 s)
  | .sliceMem i m w => declareAt i.val 1 1 (w32 (m.toNat * 2 ^ 24 + w.toNat)) s
  | .sliceResidue i => declareFault i.val 2 5 s
  | .terminal t i => termLost t.toNat i.toNat s
  | .keySlot n =>
    setSlot n.toNat { slotOf s n.toNat with state := 2 } (fault (iTRE (n.toNat / 2048)) 4 (w32 n.toNat) 1 3 (n.toNat / 2048) 0 s)
  | .staging t b => stagingLost t.toNat b.toNat s
  | .burst t u b => burstLost t.toNat u.toNat b.toNat s
  | .token q p => tokenLost q.toNat p.toNat s
  | .deepFree n => deepFreeLost n.toNat s
  | .counter i n => counterLost (16 * i.toNat + n.toNat) s
  | .object x => objectLost x s
  | .copyRow c => copyLost c.toNat s
  | .skim i x w => skimLost i.val x w s

/-- DUPLICATE_STATE_MISMATCH: a slice is declared faulty (cause 3), a port is fenced. Which state machine it was is open.
The row also carries the memory errors of Table 13-4 for which the command table has no row of their own (log entry 11). -/
def dupMismatch (u : DupUnit) (s : State) : State :=
  match u with
  | .slice i => declareFault i.val 3 5 s
  | .tree t => fenceTree t.toNat (useFree (fault (iTRE t.toNat) 7 (w32 (freeNat s)) 5 3 t.toNat 0 s))
  | .mem e => memError e s
  | .port p => fencePort p.toNat (useFree (fault (iUPL p.toNat) 2 (w32 (freeNat s)) 5 4 p.toNat 0 s))
def execDuplicateStateMismatch (where_ : DupUnit) (s : State) : Outcome := .next (dupMismatch where_ (begin_ s))

/-! ## FAULT_OUT (R428, R429) -/

/-- The pulse ends. -/
def pulseEnd (s : State) : State :=
  if s.glb.pin ≠ .pulse then s
  else
    let s1 := waitUntil (s.glb.pinAt + 2500) s
    if s1.tim.now < s.glb.pinAt + 2500 then s1
    else if regB s1 0x80 1 && !s1.glb.pinRel then { s1 with glb := { s1.glb with pin := .held } }
    else pinRelease false s1
def execFaultPulseEnd (s : State) : Outcome := .next (pulseEnd (begin_ s))

/-- A write of REL: a held pin deasserts in the cycle after; an event of the write's cycle asserts it after the recovery (Table 13-7). -/
def pinRel (s : State) : State :=
  match s.glb.pin with
  | .pulse => { s with glb := { s.glb with pinRel := true } }
  | .held => atCycle (s.tim.now + 1) .pinOff s
  | .idle => s
  | .recovery => s
def execFaultPinRel (part : BitVec 6) (s : State) : Outcome := .next (p0Write part 0xF pinRel (begin_ s))

/-- The recovery ends: an event that waited asserts the pin. -/
def pinRecovered (s : State) : State :=
  if s.glb.pin ≠ .recovery then s
  else
    let s1 := waitUntil (s.glb.pinAt + 1250) s
    if s1.tim.now < s.glb.pinAt + 1250 then s1
    else if s1.glb.pinWait then pinAssert s1
    else { s1 with glb := { s1.glb with pin := .idle } }
def execFaultPinRecoveryEnd (s : State) : Outcome := .next (pinRecovered (begin_ s))

end Sys2Proof.Machine
end

