-- ==== Sys2Proof/Machine/Setup.lean ====
section
/-!
DEFINITION. Resets, start-up, and the partition table (R479 to R490, R497 to R501).
-/

namespace Sys2Proof.Machine

/-! ## Block reset (R479 to R482) -/

/-- Everything is as after reset. The waiting commands and the count of free values are the model's own. -/
def blockReset (s : State) : State := { State.reset with fresh := s.fresh, pending := s.pending }
def execBlockReset (s : State) : Outcome := .next (blockReset s)

/-- A write to GLB_RST, which is reachable in every phase (R487): partition 0 only. -/
def rstWrite (part : Nat) (f : State → State) (s : State) : State := if part ≠ 0 then partViol part s else f s

/-- GLB_RST.ARM opens an arming of 1,024 cycles. -/
def rstArm (s : State) : State := { s with glb := { s.glb with armed := true, armAt := s.tim.now } }
def execGlbRstArm (part : BitVec 6) (s : State) : Outcome := .next (rstWrite part.toNat rstArm (begin_ s))

/-- The arming closes after its 1,024 cycles; the command has no effect before the beat in which it does. -/
def armingExpire (s : State) : State :=
  let s1 := if s.glb.armed then waitUntil (s.glb.armAt + 1025) s else s
  if armOpen s1 then s1 else { s1 with glb := { s1.glb with armed := false } }
def execArmingExpire (s : State) : Outcome := .next (armingExpire (begin_ s))

/-- GLB_RST.BLOCK: inside an arming the block resets 16 cycles later, the register port taking nothing meanwhile. -/
def rstBlock (s : State) : State := if armOpen s then blockReset s else s
def execGlbRstBlock (part : BitVec 6) (s : State) : Outcome := .next (rstWrite part.toNat rstBlock (begin_ s))

/-! ## Start-up (R484 to R487, R538) -/

/-- Words of the fuse image in order. -/
def fuseWords (s : State) : List Word := s.glb.fuse.reverse

/-- Does the fuse image pass its check (R485)? The last 16 bits are the CRC over the rest. Words go least significant byte first
(R16), the CRC most significant byte first as in every header (log entry 24). -/
def fuseGood (l : List Word) : Bool :=
  let b := wordBytes l
  b.length == 4096 && crc16 (b.take 4094) == beAt b 4094 2

/-- Start-up stops. -/
def startStop (s : State) : State := { s with glb := { s.glb with phase := 7 } }

/-- A fuse word returns in phase 1; after the last the image is checked (R485). -/
def fuseRead (data : Word) (s : State) : State :=
  if s.glb.phase ≠ 1 ∨ 1024 ≤ s.glb.fuse.length then s
  else
    let s1 := { s with glb := { s.glb with fuse := data :: s.glb.fuse } }
    let n := s1.glb.fuse.length
    if n < 1024 then emit (.fuseReq n) s1
    else if fuseGood (fuseWords s1) then { s1 with glb := { s1.glb with fuseOk := true } }
    else startStop (fault 0 1 (w32 1023) 0 0 0 0 s1)
def execFuseWordRead (data : Word) (s : State) : Outcome := .next (fuseRead data (begin_ s))

/-- Field `k` of the fuse image (log entry 3). -/
def fuseField (s : State) (k : Nat) : Nat := Config.fuseField (fuseWords s) k

/-- Start-up cannot complete (R486). -/
def startFail (cap0 : Word) (s : State) : State := startStop (fault 0 0 cap0 0 0 0 0 s)

/-- Slices and bank groups that are defective by fuse or by self-test. -/
def badSlices (s : State) (st : SelfTest) : List Nat :=
  (List.range 9).filter (fun i => (fuseField s 5).testBit i || st.badSlices.any (fun x => x.val == i))
def badGroups (s : State) (st : SelfTest) : List Nat :=
  (List.range 17).filter (fun g => (fuseField s 6).testBit g || st.badGroups.any (fun x => x.val == g))

/-- The bits of a list of numbers. -/
def bitsOf (l : List Nat) : Nat := l.foldl (fun a i => a + 2 ^ i) 0

/-- Self-test and soft repair end (R410, R486): start-up goes on, or stops. The memory and word of a failure that is no single
memory's are open. A slice that self-test finds good has passed (R409, log entry 14). -/
def repairEnd (st : SelfTest) (s : State) : State :=
  let bs := badSlices s st
  let bg := badGroups s st
  match st.memFail with
  | some (m, w) => startFail (w32 (m.toNat * 2 ^ 24 + w.toNat)) s
  | none =>
    if 1 < bs.length ∨ 1 < bg.length then useFree (startFail (w32 (freeNat s)) s)
    else
      { s with
        glb := { s.glb with
          phase := 3, defSlc := BitVec.ofNat 9 (bitsOf bs), defBg := BitVec.ofNat 17 (bitsOf bg),
          fuseRep := BitVec.ofNat 16 (fuseField s 7), softRep := st.softRep }
        skm := { s.skm with
          stPass := st.sparePass, passOk := (List.range 9).filter (fun i => !(bs.contains i) && (i != 8 || st.sparePass)) } }

/-- Every key slot is erased in the cipher engine (R480, Table 16-2). -/
def eraseAll (s : State) : State :=
  { s with out := s.out ++ (List.range 131072).map (fun n => Out.cpqKey 2 n 0 false []) }

/-- A defective bank group is mapped out (R237); a defective group 16 leaves no spare. -/
def mapGroups (s : State) : State :=
  match (List.range 17).find? (fun g => s.glb.defBg.toNat.testBit g) with
  | none => s
  | some g =>
    let s1 := { s with qbm := { s.qbm with spareUsed := true } }
    if g = 16 then s1 else { s1 with qbm := { s1.qbm with bgmap := tSet g s1.qbm.bgmap g 16 } }

/-- A defective slice is replaced by slice 8 (R412); otherwise slice 8 is the spare, tested (R484). -/
def mapSlices (s : State) : State :=
  match (List.range 9).find? (fun i => s.glb.defSlc.toNat.testBit i) with
  | none => { s with skm := { s.skm with stValid := true, stSlice := 8 } }
  | some i =>
    let s1 := { s with skm := { s.skm with mode := 1, stPass := false } }
    if i = 8 then setRole 8 .defective s1
    else
      let trees := treesOf s1 i
      let ports := portsOf s1 i
      moveHomes trees ports 8 (setRole i .defective (setRole 8 .active s1))

/-- The identity registers are loaded. -/
def loadId (s : State) : State :=
  { s with glb := { s.glb with
      lot := BitVec.ofNat 40 (fuseField s 0), wafer := BitVec.ofNat 5 (fuseField s 1), dieX := BitVec.ofNat 8 (fuseField s 2),
      dieY := BitVec.ofNat 8 (fuseField s 3), issue := BitVec.ofNat 16 (fuseField s 4) } }

/-- A phase of start-up ends at its cycle of Table 16-2. Phase 1 ends only once the fuse image has been read and has passed. -/
def phaseEnd (st : SelfTest) (s : State) : State :=
  match s.glb.phase with
  | 0 =>
    let s1 := waitUntil 1024 s
    emit (.fuseReq 0) { s1 with glb := { s1.glb with phase := 1 } }
  | 1 =>
    if s.glb.fuseOk then
      let s1 := waitUntil 9216 s
      { s1 with glb := { s1.glb with phase := 2 } }
    else s
  | 2 => repairEnd st (waitUntil 2513568 s)
  | 3 =>
    let s1 := loadId (mapSlices (mapGroups (eraseAll (waitUntil 3038112 s))))
    { s1 with glb := { s1.glb with phase := 4 } }
  | _ => s
def execStartupPhaseEnd (st : SelfTest) (s : State) : Outcome := .next (phaseEnd st (begin_ s))

/-! ## Partition reset (R483) -/

/-- The host-side state of partition `p` is reset. -/
def partReset (p : Nat) (s : State) : State :=
  if p = 0 then s
  else
    let mine := (s.hrd.ring.map (·.1)).filter (fun k => ringOwner s (kindOf (k / 4096)) (k % 4096) == p)
    let s1 := mine.foldl (fun s k => disableRing (kindOf (k / 4096)) (k % 4096) s) s
    let keep := fun (k : Nat) => !(k / 2 ^ 24 == p)
    { s1 with
      hrd := { s1.hrd with
        npend := tDel p s1.hrd.npend, nlost := tDel p s1.hrd.nlost, nlostNow := tDel p s1.hrd.nlostNow, nsince := tDel p s1.hrd.nsince }
      tim := { s1.tim with caps := tDel p s1.tim.caps }
      regs := { s1.regs with
        loHeld := s1.regs.loHeld.filter (fun e => keep e.1), hiCap := s1.regs.hiCap.filter (fun e => keep e.1),
        objIdx := tDel p s1.regs.objIdx } }
def execPartitionReset (part : BitVec 6) (data : Word) (s : State) : Outcome :=
  .next (p0Write part 0xF (partReset (fld data 0 6)) (begin_ s))

/-! ## Partition table (R499) -/

/-- A partition-table write is ignored: PRT_WREJ. -/
def wrej (addr reason : Nat) (s : State) : State :=
  { s with glb := { s.glb with wrejOfs := BitVec.ofNat 24 addr, wrejReason := reason } }

/-- The object whose owner a partition-table register names is enabled. -/
def ownerBusy (s : State) (o : Nat) : Bool :=
  match arrIx o 0 4 64, arrIx o 0x2000 4 2048, arrIx o 0x4000 4 2048, arrIx o 0x6000 4 1024 with
  | some t, _, _, _ => regB s (rTreCfg t) 0
  | none, some r, _, _ => (ringOf s .send r).st != .disabled
  | none, none, some r, _ => (ringOf s .fill r).st != .disabled
  | none, none, none, some c => (ringOf s .cq c).st != .disabled
  | none, none, none, none => false

/-- A grant as it will stand: words 0 and 1 of PRT_IDXG `g`, `addr` at its new value. -/
def grantAfter (s : State) (addr : Nat) (new : Word) (g : Nat) : Word × Word :=
  let a := pagePRT + 0x7000 + 8 * g
  (if addr = a then new else regAfter s a, if addr = a + 4 then new else regAfter s (a + 4))

/-- Do two grants overlap? Both valid, on one tree, with a common index. -/
def grantsMeet (x y : Word × Word) : Bool :=
  bit x.2 6 && bit y.2 6 && fld x.1 24 6 == fld y.1 24 6 && decide (fld x.1 0 12 ≤ fld y.1 12 12)
    && decide (fld y.1 0 12 ≤ fld x.1 12 12)

/-- Does grant `g`, with register `addr` at a new value, overlap another? -/
def grantBad (s : State) (addr : Nat) (new : Word) (g : Nat) : Bool :=
  (List.range 256).any (fun h => h != g && grantsMeet (grantAfter s addr new g) (grantAfter s addr new h))

/-- The store of a partition-table entry: it makes both copies of the entry good again (R502). -/
def prtStore (addr : Nat) (data : Word) (s : State) : State :=
  let s1 := putReg addr data s
  { s1 with glb := { s1.glb with prtBad := s1.glb.prtBad.filter (· != addr) } }

/-- A write to the PRT page by partition 0; it rewrites both copies of the word (R502). -/
def prtWrite (addr : Nat) (data : Word) (s : State) : State :=
  let o := addr - pagePRT
  if o = 0x100 then partReset (fld data 0 6) s
  else match prtSpec o with
    | none => s
    | some x =>
      let new := mergeW (regAfter s addr) x.mask data
      if ownerBusy s o then wrej addr 1 s
      else if 0x7000 ≤ o ∧ grantBad s addr new ((o - 0x7000) / 8) then wrej addr 2 s
      else prtStore addr data s
def execPartitionTableWrite (part : BitVec 6) (addr : BitVec 24) (be : BitVec 4) (data : Word) (s : State) : Outcome :=
  let s0 := begin_ s
  .next (if pagePRT ≤ addr.toNat ∧ addr.toNat < pagePWR ∧ (prtSpec (addr.toNat - pagePRT)).isSome = true then
    p0Write part be (prtWrite addr.toNat data) s0 else s0)

end Sys2Proof.Machine
end

