-- ==== Sys2Proof/Machine/Regs.lean ====
section
/-!
DEFINITION. The register port: who may reach a register (R487, R497, R498, Table 16-7), what it reads (R18 to R21, R517 to R534),
and what a write of it does. Rows of the command table that name one register lie with their unit; the port sends a write of such
a register to the same operation.
-/

namespace Sys2Proof.Machine

/-! ## Access classes (Table 16-7) -/

/-- Who may reach a listed register. -/
inductive Acc where
  | any                          -- every partition reads; nobody writes
  | p0                           -- partition 0
  | ring (k : RingKind) (n : Nat)
  | rdis (k : RingKind) (j : Nat)  -- each bit belongs to its ring's owner
  | tree (t : Nat)
  | part (q : Nat)               -- partition q and partition 0
  | val (i n : Nat)              -- a selected counter's value (R464)
  | obj                          -- CNT_OBJ_LO and _HI (R464)
  | own                          -- every partition's own copy
deriving DecidableEq, Repr

/-- Ring that an array of registers belongs to: `stride` bytes for each of `n` rings. -/
def inRing (o base stride n : Nat) : Option Nat := if base ≤ o ∧ o < base + stride * n then some ((o - base) / stride) else none

/-- Class of an HRD register. -/
def accHrd (o : Nat) : Option Acc :=
  match inRing o 0x1000 8 2048, inRing o 0x5000 8 1024, inRing o 0x7000 8 64, inRing o 0x7200 8 64, inRing o 0x39000 8 2048 with
  | some n, _, _, _, _ => some (.ring .send n)
  | _, some n, _, _, _ => some (.ring .cq n)
  | _, _, some n, _, _ => some (.ring .cmd n)
  | _, _, _, some n, _ => some (.ring .ntc n)
  | _, _, _, _, some n => some (.ring .fill n)
  | none, none, none, none, none =>
    match inRing o 0x8000 4 2048, inRing o 0xA000 4 2048, inRing o 0xC000 4 1024, inRing o 0xD000 4 64, inRing o 0xD100 4 64 with
    | some n, _, _, _, _ => some (.ring .send n)
    | _, some n, _, _, _ => some (.ring .fill n)
    | _, _, some n, _, _ => some (.ring .cq n)
    | _, _, _, some n, _ => some (.ring .cmd n)
    | _, _, _, _, some n => some (.ring .ntc n)
    | none, none, none, none, none =>
      if 0x7400 ≤ o ∧ o < 0x7500 then some (.rdis .send ((o - 0x7400) / 4))
      else if 0x7500 ≤ o ∧ o < 0x7600 then some (.rdis .fill ((o - 0x7500) / 4))
      else if 0x7600 ≤ o ∧ o < 0x7680 then some (.rdis .cq ((o - 0x7600) / 4))
      else if inArr o 0x7800 4 256 || inArr o 0x3D000 4 2048 then some .p0
      else if inArr o 0x7C00 4 64 then some (.part ((o - 0x7C00) / 4))
      else if 0x10000 ≤ o ∧ o < 0x39000 ∧ o % 32 < 24 then
        if 0x38000 + 32 * 128 ≤ o then none else some .p0
      else none

/-- Ring, kind and word of a context word's offset in the HRD page (R528). -/
def ctxWord (o : Nat) : RingKind × Nat × Nat :=
  if o < 0x20000 then (.send, (o - 0x10000) / 32, o % 32 / 4)
  else if o < 0x30000 then (.fill, (o - 0x20000) / 32, o % 32 / 4)
  else if o < 0x38000 then (.cq, (o - 0x30000) / 32, o % 32 / 4)
  else if o < 0x38800 then (.cmd, (o - 0x38000) / 32, o % 32 / 4)
  else (.ntc, (o - 0x38800) / 32, o % 32 / 4)

/-- Class of the counter sub-page and fault set of instance `i`. -/
def accSub (i o : Nat) : Option Acc :=
  if inArr o 0xE00 4 16 then some .p0
  else if 0xE40 ≤ o ∧ o < 0xEC0 then some (.val i ((o - 0xE40) / 8))
  else if o = 0xEC0 ∨ o = 0xEC4 ∨ (0xF00 ≤ o ∧ o < 0xF24) then some .p0
  else none

/-- Class of a register of a tree page: the delay registers belong to partition 0 alone (R377). -/
def accTre (t o : Nat) : Option Acc :=
  if o = 0x40 ∨ o = 0x44 ∨ o = 0x48 ∨ o = 0x4C ∨ o = 0x50 then some .p0
  else if (treSpec o).isSome ∨ [0x60, 0x64, 0x68, 0x6C, 0x70, 0x8C, 0x90].contains o then some (.tree t)
  else none

/-- Listed registers of a page that hold no stored value, by offset in the page. -/
def pageExtra (a : Nat) : Bool :=
  if a < 0x10000 then
    a == 8 || inArr a 0x40 4 8 || inArr a 0x60 4 2 || inArr a 0x90 4 4
  else if a < pagePWR then (a == pagePRT + 0x100) || a == pagePRT + 0x104
  else if a < pageTIM then
    let o := a - pagePWR
    o == 0 || o == 8 || o == 12 || inArr o 0x1800 4 108
  else if a < pageHRD then
    let o := a - pageTIM
    [0x04, 0x28, 0x2C, 0x30, 0x34, 0x90, 0x94, 0xA0, 0xA4, 0xA8, 0xAC, 0xB0, 0xC0, 0xC4, 0xC8].contains o
  else if pageCLS ≤ a ∧ a < pageCHN then
    let o := a - pageCLS
    [0, 4, 0xC, 0x10, 0x14].contains o || inArr o 0x100 4 32
  else if pageCHN ≤ a ∧ a < 0x148000 then (a - pageCHN) % 0x8000 == 0
  else if pageUPL ≤ a ∧ a < pageQBM then (a - pageUPL) % 0x1000 == 0x80
  else if pageQBM ≤ a ∧ a < pageCPE then
    let o := a - pageQBM
    o == 0x1C || inArr o 0x24 4 4 || o == 0x34 || o == 0x38
  else if pageCPE ≤ a ∧ a < pageDPT then
    let o := a - pageCPE
    inArr o 0x14 4 6
  else if pageDPT ≤ a ∧ a < pageSLC then a == pageDPT + 0x10 || a == pageDPT + 0x14
  else if pageSLC ≤ a ∧ a < 0x290000 then (a - pageSLC) % 0x10000 == 0
  else if pageSKM ≤ a ∧ a < pageCNT then
    let o := a - pageSKM
    [0xC, 0x14, 0x18, 0x1C, 0x20, 0x24].contains o
  else if pageCNT ≤ a ∧ a < pageTST then
    let o := a - pageCNT
    inArr o 0x10 4 5 || o == 0x30 || o == 0x34 || o == 0x40
      || (decide (0x1000 ≤ o) && decide (o < 0x1000 + 0x40 * 18) && decide (o % 0x40 < 0x30))
  else if pageTST ≤ a ∧ a < 0x2D0000 then
    let o := a - pageTST
    inArr o 4 0x10 16
      || (decide (0x100 ≤ o) && decide (o < 0x200) && ((decide (0x10 ≤ o % 0x40) && decide (o % 0x40 < 0x1C))
        || (decide (0x20 ≤ o % 0x40) && decide (o % 0x40 < 0x2C))))
  else false

/-- Class of a register's offset in the window; `none` where no register is listed (R518). -/
def accOf (a : Nat) : Option Acc :=
  if a % 4 ≠ 0 then none else
  let sub := match instOf a with
    | some (i, o) => if 0xE00 ≤ o ∧ o < 0xF24 then some (accSub i o) else none
    | none => none
  match sub with
  | some x => x
  | none =>
    if a = 0 ∨ a = 4 ∨ inArr a 0x10 4 7 then some .any
    else if inArr a (rTim 0x80) 4 4 then some .any
    else if pageHRD ≤ a ∧ a < pageCLS then accHrd (a - pageHRD)
    else if pageTRE ≤ a ∧ a < pageUPL then accTre ((a - pageTRE) / 0x1000) ((a - pageTRE) % 0x1000)
    else if 0xC0000 ≤ a ∧ a < 0xE0000 then some (.part ((a - 0xC0000) / 0x800))
    else if 0xE0000 ≤ a ∧ a < 0xE0100 then some (.part ((a - 0xE0000) / 4))
    else if a = 0x151000 ∨ a = 0x151004 ∨ inArr a 0x151010 4 4 then some .own
    else if a = pageQBM + 0x100 ∨ a = pageQBM + 0x104 ∨ inArr a (pageQBM + 0x110) 4 4 then some .own
    else if a = pageCNT + 0x44 ∨ a = pageCNT + 0x48 ∨ a = pageCNT + 0x4C then some .obj
    else if (pageSpec a).isSome || pageExtra a then some .p0
    else none

/-! ## Read rights of tenants (R464) -/

/-- May tenant `p` read counters at all? -/
def tenantReads (s : State) (p : Nat) : Bool := (regPair s (pageCNT + 0x38)).testBit p

/-- May `p` read selected counter `n` of instance `i`? -/
def mayReadVal (s : State) (p i n : Nat) : Bool :=
  let sel := reg s (rCntSel i n)
  let share := bit sel 30
  p == 0 || (tenantReads s p && share &&
    ((decide (21 ≤ i) && decide (i ≤ 84) && treeOwner s (i - 21) == p)
      || (i == 4 && bit sel 12 && decide (fld sel 24 2 ≤ 2) && ringOwner s (kindOf (fld sel 24 2)) (fld sel 13 11) == p)))

/-- CNT_OBJ_IDX of a partition (R461). -/
def objIdx (s : State) (p : Nat) : Word := tGet 0 s.regs.objIdx p

/-- May `p` read the object counter that its CNT_OBJ_IDX names? -/
def mayReadObj (s : State) (p : Nat) : Bool :=
  let e := objIdx s p
  let o := fld e 2 17
  let arr := fld e 19 3
  p == 0 || (tenantReads s p &&
    ((arr == 0 && decide (o < 65536) && treeOwner s (o / 1024) == p) || (arr == 1 && treeOwner s (o / 2048) == p)
      || (arr == 3 && decide (o < 2048) && ringOwner s .send o == p) || (arr == 4 && decide (o < 2048) && ringOwner s .fill o == p)))

/-- May `p` read a register of a class? -/
def mayRead (s : State) (p a : Nat) : Acc → Bool
  | .any => true
  | .p0 => p == 0
  | .ring k n => ownsRing s p k n
  | .rdis _ _ => true
  | .tree t => ownsTree s p t
  | .part q => p == 0 || p == q
  | .val i n => mayReadVal s p i n
  | .obj => if a = pageCNT + 0x44 then p == 0 || tenantReads s p else mayReadObj s p
  | .own => true

/-- May `p` write a register of a class? -/
def mayWrite (s : State) (p a : Nat) : Acc → Bool
  | .any => p == 0
  | .p0 => p == 0
  | .ring k n => ownsRing s p k n
  | .rdis _ _ => true
  | .tree t => ownsTree s p t
  | .part q => p == 0 || (p == q && (a < pageHRD + 0x7C00 || pageCLS ≤ a))
  | .val _ _ => p == 0
  | .obj => p == 0 || a == pageCNT + 0x44
  | .own => true

/-- Registers that are reachable before READY (R487). -/
def early (a : Nat) : Bool := a == 0 || a == 4 || a == 8 || inArr a 0x10 4 7 || (decide (0xF00 ≤ a) && decide (a < 0xF24))

/-! ## What registers read -/

/-- Words of a time: seconds low, seconds high, nanoseconds, FNS (R336). -/
def timeLo (t : Nat) : Word := w32 (secOf t)
def timeHi (t : Nat) : Word := w32 (secOf t / 2 ^ 32)

/-- The words of a capture (Table 13-2), word `k` at 0x0F10 + 4k. -/
def capWord (f : FaultSet) (k : Nat) : Word :=
  if k = 4 then w32 f.more
  else match f.cap with
    | none => 0
    | some c =>
      if k = 0 then c.addr
      else if k = 1 then
        w32 (c.src % 32 + c.acc % 8 * 2 ^ 5 + c.mkind % 16 * 2 ^ 8 + c.mnum % 2048 * 2 ^ 12 + c.part % 64 * 2 ^ 23 + 2 ^ 30
          + b2n c.forced * 2 ^ 31)
      else if k = 2 then w32 c.time.toNat else w32 (c.time.toNat / 2 ^ 32)

/-- Counter sub-page and fault set of instance `i`. -/
def readSub (s : State) (i o : Nat) : Word :=
  if inArr o 0xE00 4 16 then reg s (instBase i + o)
  else if o < 0xEC0 then
    let v := tGet 0 s.cnt.val (16 * i + (o - 0xE40) / 8)
    if o % 8 = 0 then w32 v else w32 (v / 2 ^ 32)
  else if o = 0xEC0 then w32 (tGet 0 s.cnt.wrap i).toNat
  else if o < 0xF00 then 0
  else if o = 0xF00 then (fltOf s i).st
  else if o = 0xF04 ∨ o = 0xF0C then reg s (instBase i + o)
  else if 0xF10 ≤ o then capWord (fltOf s i) ((o - 0xF10) / 4)
  else 0

/-- Eight 4-bit fields. -/
def nibbles (f : Nat → Nat) : Word := w32 ((List.range 8).foldl (fun a i => a + f i % 16 * 16 ^ i) 0)

/-- Role codes (Table 12-1). -/
def roleNo : Role → Nat
  | .active => 0 | .spare => 1 | .shadow => 2 | .loading => 3 | .failed => 4 | .testing => 5 | .defective => 6

/-- Terminal-state codes (Table 4-2). -/
def tstateNo : TState → Nat
  | .unknown => 0 | .heard => 1 | .ranged => 2 | .keyed => 3 | .active => 4 | .quiet => 5 | .lost => 6 | .released => 7

/-- GLB page (Tables 16-3, 18-2, 13-6). -/
def readGlb (s : State) (a : Nat) : Word :=
  let g := s.glb
  if a = 0 then 0x001F0C40
  else if a = 4 then w32 (g.phase + b2n g.fuseOk * 8)
  else if a = 8 then w32 (b2n (armOpen s))
  else if a < 0x2C then
    if g.phase ≠ 4 then 0
    else if a = 0x10 then w32 g.lot.toNat
    else if a = 0x14 then w32 (g.lot.toNat / 2 ^ 32)
    else if a = 0x18 then w32 (g.wafer.toNat + g.dieX.toNat * 2 ^ 8 + g.dieY.toNat * 2 ^ 16)
    else if a = 0x1C then w32 g.issue.toNat
    else if a = 0x20 then
      w32 (g.defSlc.toNat + g.defBg.toNat * 2 ^ 9 + b2n ((List.range 16).any (fun l => physOf s l == 16)) * 2 ^ 26)
    else if a = 0x24 then w32 (g.fuseRep.toNat + g.softRep.toNat * 2 ^ 16)
    else w32 (((List.range 9).find? (fun i => roleOf s i == .spare || roleOf s i == .shadow)).getD 15)
  else if a < 0x60 then nibbles (fun i => homeT s (8 * ((a - 0x40) / 4) + i))
  else if a < 0x68 then nibbles (fun i => homeU s (8 * ((a - 0x60) / 4) + i))
  else if a = 0x80 then reg s a ||| w32 (b2n (pinLevel s) * 16 + b2n (g.pin == .pulse) * 32)
  else if a = 0x90 then w32 (g.img % 32 + b2n g.applied * 32)
  else if a = 0x94 then w32 g.imgTick
  else if a = 0x98 then w32 (g.imgTick / 2 ^ 32)
  else if a = 0x9C then w32 (g.pend.foldl (fun m x => m ||| 2 ^ x.img) 0)
  else 0

/-- PWR page (Table 18-4). -/
def readPwr (s : State) (o : Nat) : Word :=
  let w := s.pwr
  if o = 8 then w32 w.lwTick
  else if o = 12 then
    w32 (w.lwTick / 2 ^ 32 % 2 ^ 16 + w.lwDom % 128 * 2 ^ 16 + w.lwSrc % 8 * 2 ^ 23 + w.lwOut % 8 * 2 ^ 26 + b2n w.lwValid * 2 ^ 31)
  else if 0x1800 ≤ o then
    let p := pdom s ((o - 0x1800) / 4)
    w32 (p.state % 4 + p.phase % 8 * 2 ^ 2 + p.queued.getD 0 % 4 * 2 ^ 5 + b2n p.queued.isSome * 2 ^ 7 + p.res % 8 * 2 ^ 8
      + p.cause % 16 * 2 ^ 11 + p.lwsrc % 8 * 2 ^ 15)
  else 0

/-- TIM page: what the time engine holds (Table 18-5); TIM_EPOCH by the reader's capture (R340). -/
def readTim (s : State) (p o : Nat) : Word :=
  let t := s.tim
  let d := todiShown s
  let e := epochOf s p
  if o = 4 then w32 (b2n t.armed + b2n t.hold * 2 + b2n (t.slew != 0) * 4 + b2n t.started * 8)
  else if o = 0x28 then w32 t.inc
  else if o = 0x2C then w32 (t.inc / 2 ^ 32)
  else if o = 0x30 then w32 (slewReg s)
  else if o = 0x34 then w32 (slewReg s / 2 ^ 32)
  else if o = 0x80 then compact t.time
  else if o = 0x84 then w32 (nsInSec e.1)
  else if o = 0x88 then timeLo e.1
  else if o = 0x8C then w32 (secOf e.1 / 2 ^ 32 + e.2.toNat * 2 ^ 16)
  else if o = 0x90 then t.lstepOld
  else if o = 0x94 then t.lstepNew
  else if o = 0xA0 then timeLo t.ppsiTime
  else if o = 0xA4 then timeHi t.ppsiTime
  else if o = 0xA8 then w32 (nsInSec t.ppsiTime)
  else if o = 0xAC then w32 (fnsOf t.ppsiTime)
  else if o = 0xB0 then w32 (toTwos 32 t.ppsiTerr)
  else if o = 0xC0 then w32 d.1.toNat
  else if o = 0xC4 then w32 (d.1.toNat / 2 ^ 32)
  else if o = 0xC8 then w32 (d.2.1.toNat + b2n d.2.2.1 * 8 + d.2.2.2.toNat * 2 ^ 16)
  else 0

/-- HRD_RST of a ring (Table 18-6). -/
def readRst (s : State) (k : RingKind) (n w : Nat) : Word :=
  let r := ringOf s k n
  if w = 0 then w32 (rstCode r.st + b2n r.ph * 8 + r.f % 2 ^ 16 * 16) else w32 (r.hstat % 64 + r.hindex % 2 ^ 16 * 2 ^ 16)

/-- HRD_RDIS: a bit reads 1 while its ring is disabled; bits of rings that are not the reader's read 0. -/
def readRdis (s : State) (p : Nat) (k : RingKind) (j : Nat) : Word :=
  w32 ((List.range 32).foldl
    (fun a b => a + (if ownsRing s p k (32 * j + b) && (ringOf s k (32 * j + b)).st == .disabled then 2 ^ b else 0)) 0)

/-- A word of a ring context. -/
def ctxAt (w : W6) (i : Nat) : Word := [w.w0, w.w1, w.w2, w.w3, w.w4, w.w5].getD i 0

/-- HRD page. -/
def readHrd (s : State) (p o : Nat) : Word :=
  match accHrd o with
  | some (.ring k n) =>
    if 0x8000 ≤ o ∧ o < 0x10000 then 0
    else readRst s k n (o % 8 / 4)
  | some (.rdis k j) => readRdis s p k j
  | some (.part q) => w32 (tGet 0 s.hrd.nlost q + 2 ^ 32 - lostNow s q)
  | some .p0 =>
    if inArr o 0x7800 4 256 then
      reg s (pageHRD + o) ||| w32 (b2n (s.hrd.fenced.contains ((o - 0x7800) / 4)) * 8)
    else if o < 0x39000 then
      let c := ctxWord o
      ctxAt (ringOf s c.1 c.2.1).wn c.2.2
    else reg s (pageHRD + o)
  | _ => 0

/-- A partition's copy of a window register. -/
def windowReg (s : State) (p a : Nat) : Word := tGet 0 s.regs.winReg (pkey p a)

/-- CLS page apart from stored registers. -/
def readCls (s : State) (p o : Nat) : Word :=
  if o = 0 ∨ 0x100 ≤ o then windowReg s p (pageCLS + o)
  else if o = 0xC then w32 (b2n s.cls.active + b2n s.cls.sync * 2)
  else if o = 0x10 then w32 (emCount s false)
  else if o = 0x14 then w32 (emCount s true)
  else 0

/-- Tree page apart from stored registers (Table 18-10). -/
def readTre (s : State) (t o : Nat) : Word :=
  let r := treOf s t
  if o = 0x60 then timeLo r.tref
  else if o = 0x64 then timeHi r.tref
  else if o = 0x68 then w32 (nsInSec r.tref)
  else if o = 0x6C then w32 (fnsOf r.tref)
  else if o = 0x70 then
    w32 (b2n r.run + b2n r.sel * 2 + (r.ctx.filter (fun e => e.2.state != .unknown)).length % 1024 * 4)
  else if o = 0x90 then
    let i := treF s t 0x80 0 10
    let c := ctxOf s t i
    w32 (tstateNo c.state + tstateNo c.ret * 8 + b2n c.conv * 64 + b2n (tFind i r.pre).isSome * 128)
  else 0

/-- UPL_STAT. -/
def readUpl (s : State) (p : Nat) : Word :=
  let u := tGet Upl.empty s.upl p
  w32 (b2n u.link + b2n (portUp s p) * 2 + b2n (timerRuns s u.pause) * 4
    + (u.pfc.filter (fun e => s.tim.now + 1 < e.2)).foldl (fun a e => a + 2 ^ e.1) 0 * 8)

/-- QBM page apart from stored registers. -/
def readQbm (s : State) (p o : Nat) : Word :=
  let q := s.qbm
  if o = 0x1C then w32 ((List.range 16).foldl (fun n g => n + (grpOf s g).quar.length) 0)
  else if o = 0x20 then
    reg s (pageQBM + o) ||| w32 (b2n q.rBusy * 32 + b2n q.rNoSpare * 64 + b2n q.retire.isSome * 128)
  else if o < 0x34 then
    let n := (o - 0x24) / 4
    w32 ((List.range 4).foldl (fun a i => a + physOf s (4 * n + i) * 256 ^ i) 0)
  else if o = 0x34 then w32 (b2n q.spareUsed)
  else if o = 0x38 then w32 (freeAll s)
  else windowReg s p (pageQBM + o)

/-- CPE slot window (R533). -/
def readCpe (s : State) (o : Nat) : Word :=
  let n := regF s (pageCPE + 0x10) 0 17
  let v := slotOf s n
  let lut := if regB s (pageCPE + 0x10) 31 then v.lutU else v.lutD
  if o = 0x14 then w32 (v.state + v.gen.toNat * 4 + b2n v.klen * 64 + b2n v.warn * 128)
  else if o = 0x18 then w32 v.cnt
  else if o = 0x1C then w32 (v.cnt / 2 ^ 32)
  else if o = 0x20 then w32 lut
  else if o = 0x24 then w32 (lut / 2 ^ 32)
  else w32 (tGet 0 s.cpe.tagFail (n / 2))

/-- SKM page apart from stored registers. -/
def readSkm (s : State) (o : Nat) : Word :=
  let k := s.skm
  if o = 0x14 then w32 (k.mode + b2n k.replay * 4)
  else if o = 0x18 then nibbles (fun i => roleNo (roleOf s i))
  else if o = 0x1C then w32 (roleNo (roleOf s 8))
  else if o = 0x20 then w32 (b2n k.stPass + b2n k.stValid * 2 + k.stSlice % 16 * 16)
  else if o = 0x24 then w32 k.hoCnt
  else 0

/-- CNT page apart from stored registers. -/
def readCnt (s : State) (p o : Nat) : Word :=
  let c := s.cnt
  if o = 0x10 then w32 c.lidx
  else if o = 0x14 then ldata s
  else if o = 0x18 then w32 (b2n c.swap)
  else if o = 0x1C then w32 (c.seq % 2 ^ 16 + c.doneSeq % 2 ^ 16 * 2 ^ 16)
  else if o = 0x20 then w32 (b2n c.round.isSome + c.skips % 2 ^ 16 * 2 ^ 16)
  else if o = 0x30 then w32 c.sCi
  else if o = 0x34 then w32 (c.sLost + 2 ^ 32 - smpLostNow s)
  else if o = 0x44 then objIdx s p
  else if o = 0x48 then w32 (objRead s (objIdx s p))
  else if o = 0x4C then w32 (objRead s (objIdx s p) / 2 ^ 32)
  else if 0x1000 ≤ o then
    let v := laneClass (tGet Lane.empty c.snap ((o - 0x1000) / 0x40)) (o % 0x40 / 8)
    if o % 8 = 0 then w32 v else w32 (v / 2 ^ 32 % 2 ^ 16)
  else 0

/-- Words of a probe time (Table 18-13). -/
def probeWord (t k : Nat) : Word :=
  if k = 0 then timeLo t else if k = 1 then w32 (secOf t / 2 ^ 32 + fnsOf t * 2 ^ 16) else w32 (nsInSec t)

/-- TST page. -/
def readTst (s : State) (o : Nat) : Word :=
  if o < 0x100 then if o % 16 = 4 then w32 (tGet 0 s.tst.rej (o / 16)) else reg s (pageTST + o)
  else
    let v := vqAt s ((o - 0x100) / 0x40)
    let k := o % 0x40
    if k = 0 then reg s (pageTST + o) ||| w32 (b2n v.probe * 2 ^ 25)
    else if k < 0x10 then reg s (pageTST + o)
    else if k < 0x20 then probeWord v.ptx ((k - 0x10) / 4)
    else probeWord v.prx ((k - 0x20) / 4)

/-- What a listed register reads, apart from captures, for partition `p`. -/
def readVal (s : State) (p a : Nat) : Word :=
  match instOf a with
  | some (i, o) => if 0xE00 ≤ o ∧ o < 0xF24 then readSub s i o else go
  | none => go
where
  go : Word :=
    if a < 0x10000 then readGlb s a
    else if a = pagePRT + 0x104 then w32 (s.glb.wrejOfs.toNat + s.glb.wrejReason % 16 * 2 ^ 24)
    else if pageHRD ≤ a ∧ a < pageCLS then readHrd s p (a - pageHRD)
    else if a = pageQBM + 0x20 then readQbm s p 0x20
    else if pageTST ≤ a then readTst s (a - pageTST)
    else if (pageSpec a).isSome then reg s a
    else if pagePWR ≤ a ∧ a < pageTIM then readPwr s (a - pagePWR)
    else if pageTIM ≤ a ∧ a < pageHRD then readTim s p (a - pageTIM)
    else if pageCLS ≤ a ∧ a < pageCHN then readCls s p (a - pageCLS)
    else if pageCHN ≤ a ∧ a < 0x148000 then w32 (treesOf s ((a - pageCHN) / 0x8000)).length
    else if 0x151000 ≤ a ∧ a < pageTRE then windowReg s p a
    else if pageTRE ≤ a ∧ a < pageUPL then readTre s ((a - pageTRE) / 0x1000) ((a - pageTRE) % 0x1000)
    else if pageUPL ≤ a ∧ a < pageQBM then readUpl s ((a - pageUPL) / 0x1000)
    else if pageQBM ≤ a ∧ a < pageCPE then readQbm s p (a - pageQBM)
    else if pageCPE ≤ a ∧ a < pageDPT then readCpe s (a - pageCPE)
    else if a = pageDPT + 0x10 then w32 (b2n s.qbm.dRefused)
    else if a = pageDPT + 0x14 then w32 (regF s (pageDPT + 0xC) 0 29 - s.qbm.dUsed)
    else if pageSLC ≤ a ∧ a < 0x290000 then
      let i := (a - pageSLC) / 0x10000
      w32 (roleNo (roleOf s i) + (treesOf s i).length % 16 * 16 + (portsOf s i).length % 8 * 2 ^ 8)
    else if pageSKM ≤ a ∧ a < pageCNT then readSkm s (a - pageSKM)
    else if pageCNT ≤ a ∧ a < pageTST then readCnt s p (a - pageCNT)
    else 0

/-- TIM_TODI_ST is read: NEW clears, and a message of this cycle sets it after the clear (R520). -/
def todiRead (s : State) : State :=
  if s.tim.todiAt = s.tim.now then
    { s with tim := { s.tim with todiOld := (s.tim.todiOld.1, s.tim.todiOld.2.1, false, s.tim.todiOld.2.2.2) } }
  else { s with tim := { s.tim with todiNew := false } }

/-- What a read does besides returning data: RC fields clear, but for what is added in the same cycle (R520), LDATA advances, TIM_EPOCH_C32 captures (R21, R340, R465). -/
def readEffect (p a : Nat) (s : State) : State :=
  if pageHRD + 0x7C00 ≤ a ∧ a < pageHRD + 0x7D00 then
    let q := (a - pageHRD - 0x7C00) / 4
    { s with hrd := { s.hrd with nlost := tSet 0 s.hrd.nlost q (lostNow s q) } }
  else if a = rTim 0xC8 then todiRead s
  else if a = pageCNT + 0x34 then { s with cnt := { s.cnt with sLost := smpLostNow s } }
  else if a = pageCNT + 0x14 then lidxNext s
  else if a = rTim 0x80 then { s with tim := { s.tim with caps := tPut p (s.tim.time, s.tim.stepN) s.tim.caps } }
  else s

/-- Data of a permitted read and the state after it: a _LO captures its _HI for the reader, a _HI returns and drops the capture
(R20). -/
def readPort (s : State) (p a : Nat) : Word × State :=
  match tFind (pkey p a) s.regs.hiCap with
  | some v => (v, { s with regs := { s.regs with hiCap := tDel (pkey p a) s.regs.hiCap } })
  | none =>
    let v := readVal s p a
    let s1 := readEffect p a s
    match hiOf a with
    | some h => (v, { s1 with regs := { s1.regs with hiCap := tPut (pkey p h) (readVal s p h) s1.regs.hiCap } })
    | none => (v, s1)

/-- Does a read of HRD_RDIS touch a ring that is not the reader's? -/
def rdisForeign (s : State) (p a : Nat) : Bool :=
  match accOf a with
  | some (.rdis k j) => (List.range 32).any (fun b => !(ownsRing s p k (32 * j + b)))
  | _ => false

/-- A read on the register port (R19, R487, R498, R518). -/
def regRead (part a : Nat) (be : BitVec 4) (s : State) : State :=
  match accOf a with
  | none => emit (.regRead 0) s
  | some c =>
    if be ≠ 0xF ∨ (s.glb.phase ≠ 4 ∧ early a = false) then emit (.regRead 0) s
    else if !(mayRead s part a c) then emit (.regRead 0) (partViol part s)
    else
      let r := readPort (if rdisForeign s part a then partViol part s else s) part a
      emit (.regRead r.1) r.2

def execLoReadCapture (part : BitVec 6) (addr : BitVec 24) (be : BitVec 4) (s : State) : Outcome :=
  .next (regRead part.toNat addr.toNat be (begin_ s))
def execReadClearRegister (part : BitVec 6) (addr : BitVec 24) (be : BitVec 4) (s : State) : Outcome :=
  .next (regRead part.toNat addr.toNat be (begin_ s))

/-! ## Table windows (R523, R529, R530, R533) -/

/-- Write `n` data words of a window from `base`. -/
def setWin (p base : Nat) (l : List Word) (s : State) : State :=
  (List.range l.length).foldl
    (fun s i => { s with regs := { s.regs with winReg := tSet 0 s.regs.winReg (pkey p (base + 4 * i)) (l.getD i 0) } }) s

/-- The entry that CHN_ALLOC shows for a handle (R530). The generated entry of a management handle is bound to its terminal; what
its other fields hold is open. -/
def allocShow (s : State) (t h : Nat) : List Word × State :=
  if 1 ≤ h ∧ h ≤ 1023 then
    if (ctxOf s t h).state = .unknown then ([0, 0, 0, 0], s)
    else
      let v := freeNat s
      ([(w32 v &&& 0xFFFC000E) ||| w32 (1 + h * 256), w32 (v / 2 ^ 32) &&& 0x1FFFFF, w32 (v / 2 ^ 64) &&& 0x1FFFF, w32 (v / 2 ^ 96)],
        useFree s)
  else
    let w := tGet W4.zero (chnOf s t).alloc h
    ([w.w0, w.w1, w.w2, w.w3], s)

/-- Page, direction, table and entry that CLS_WIN_SEL names; none outside the tables. -/
def clsSel (s : State) (p : Nat) : Option (Bool × Bool × Nat × Nat) :=
  let x := windowReg s p pageCLS
  let tbl := fld x 27 4
  let e := fld x 0 20
  if fld x 20 7 = 0 ∧ e < tblSize tbl then
    some ((if regB s (pageCLS + 8) 0 then s.cls.active else !s.cls.active), bit x 31, tbl, e)
  else none

/-- RD of a window by partition `p`. -/
def windowRd (p : Nat) (win : Win) (s : State) : State :=
  match win with
  | .cls =>
    if p ≠ 0 then partViol p s
    else
      let l := match clsSel s p with
        | some (pg, up, tbl, e) => clsEntry s pg up tbl e
        | none => []
      setWin p (pageCLS + 0x100) ((List.range 32).map fun i => l.getD i 0) s
  | .qbm =>
    let q := fld (windowReg s p (pageQBM + 0x100)) 0 17
    if ownsTree s p (q / 2048) then
      let c := qctx s q
      setWin p (pageQBM + 0x110) [c.w0, c.w1, c.w2, c.w3] s
    else setWin p (pageQBM + 0x110) [0, 0, 0, 0] (partViol p s)
  | .alloc =>
    let x := windowReg s p 0x151000
    if ownsTree s p (fld x 12 6) then
      let l := allocShow s (fld x 12 6) (fld x 0 12)
      setWin p 0x151010 l.1 l.2
    else setWin p 0x151010 [0, 0, 0, 0] (partViol p s)

/-- WR of a window by partition `p`; what the chapter of the table forbids changes nothing. -/
def windowWr (p : Nat) (win : Win) (s : State) : State :=
  let word := fun base i => windowReg s p (base + 4 * i)
  match win with
  | .cls =>
    if p ≠ 0 then partViol p s
    else match clsSel s p with
      | some (pg, up, tbl, e) => clsWrite pg up tbl e ((List.range 32).map (word (pageCLS + 0x100))) s
      | none => s
  | .qbm =>
    let q := fld (windowReg s p (pageQBM + 0x100)) 0 17
    let b := pageQBM + 0x110
    let c : W4 := ⟨word b 0, word b 1, word b 2, word b 3⟩
    if !(ownsTree s p (q / 2048)) then partViol p s
    else if regB s (rTreCfg (q / 2048)) 0 || queueCause s q (cleanCtx c) != 0 then s
    else putCtx q c s
  | .alloc =>
    let x := windowReg s p 0x151000
    let t := fld x 12 6
    let h := fld x 0 12
    let w : W4 := ⟨word 0x151010 0, word 0x151010 1, word 0x151010 2, word 0x151010 3⟩
    if !(ownsTree s p t) then partViol p s
    else if h < 1024 ∨ 4094 < h ∨ regB s (rTreCfg t) 0 = true ∨ allocCause s t h (cleanAlloc w) ≠ 0 then s
    else putAlloc t h w s

/-- A window command before READY is ignored. -/
def windowCmd (f : State → State) (s : State) : State := if s.glb.phase ≠ 4 then s else f s
def execWindowRd (part : BitVec 6) (win : Win) (s : State) : Outcome := .next (windowCmd (windowRd part.toNat win) (begin_ s))
def execWindowWr (part : BitVec 6) (win : Win) (s : State) : Outcome := .next (windowCmd (windowWr part.toNat win) (begin_ s))

/-- A write of a window's command register: WR, then RD. -/
def windowBits (p : Nat) (win : Win) (data : Word) (s : State) : State :=
  let s1 := if bit data 1 then windowWr p win s else s
  if bit data 0 then windowRd p win s1 else s1

/-- A write of a window's selector or data word. -/
def putWin (p a : Nat) (mask data : Word) (s : State) : State :=
  { s with regs := { s.regs with winReg := tSet 0 s.regs.winReg (pkey p a) (data &&& mask) } }

/-! ## Writes -/

/-- TIM_CTL: SRC and TRACE hold from the next tick boundary on, before the start at once; the other bits act (R377, Table 18-5). -/
def writeTimCtl (data : Word) (s : State) : State :=
  let a := rTim 0
  let s2 :=
    if !s.tim.started then commitReg a 0x300 data s
    else { s with regs := { s.regs with tickDef := s.regs.tickDef ++ [⟨a, 0x300, data⟩] } }
  let act := fun (i : Nat) (f : State → State) (s : State) => if bit data i then f s else s
  act 4 ctlHoldClr (act 3 ctlHold (act 2 ctlStep (act 1 ctlRestart (act 0 ctlStart s2))))

/-- GLB_RST: BLOCK is judged against an arming made before this write (R482). -/
def writeRst (data : Word) (s : State) : State :=
  if bit data 1 ∧ armOpen s = true then blockReset s else if bit data 0 then rstArm s else s

/-- Counter sub-page and fault set of instance `i`, written by partition 0. -/
def writeSub (p i o : Nat) (data : Word) (s : State) : State :=
  if inArr o 0xE00 4 16 then selWrite i ((o - 0xE00) / 4) data s
  else if 0xE40 ≤ o ∧ o < 0xEC0 then
    if o % 8 = 0 then { s with regs := { s.regs with loHeld := tPut (pkey p (instBase i + o)) data s.regs.loHeld } }
    else valWrite p i ((o - 0xE44) / 8) data s
  else if o = 0xEC0 then wrapWrite i data s
  else if o = 0xEC4 then clrWrite i data s
  else if o = 0xF00 then fltClear i data s
  else if o = 0xF04 then fltMask i data s
  else if o = 0xF08 then fltForce i data s
  else if o = 0xF0C then fltVec i data s
  else s

/-- HRD page, written by `p`, who may write the register. -/
def writeHrd (p o : Nat) (data : Word) (s : State) : State :=
  match accHrd o with
  | some (.ring k n) => if 0x8000 ≤ o ∧ o < 0x10000 then doorbell p k n data s else s
  | some (.rdis k j) => rdisWrite p k j data s
  | some .p0 =>
    if inArr o 0x7800 4 256 then chanWrite ((o - 0x7800) / 4) data s
    else if o < 0x39000 then
      let c := ctxWord o
      rctxWrite c.1 c.2.1 c.2.2 data s
    else putReg (pageHRD + o) data s
  | _ => s

/-- Tree page of tree `t`. -/
def writeTre (t o : Nat) (data : Word) (s : State) : State :=
  if o = 0 then writeTreCfg t data s
  else if o = 0x8C then
    let s1 := if bit data 0 then prelist t true s else s
    if bit data 1 then prelist t false s1 else s1
  else putReg (rTre t o) data s

/-- Uplink page of port `p`. -/
def writeUpl (p o : Nat) (data : Word) (s : State) : State :=
  if o = 0 then writeUplCfg p data s
  else if o = 0x18 then
    let s1 := putReg (rUpl p o) data s
    if bit data 4 then lagRejoin p s1 else s1
  else putReg (rUpl p o) data s

/-- A write of PWR_WEN at offset `a`: the sources stay as they were for this cycle (R455). -/
def wenWrite (a : Nat) (data : Word) (s : State) : State :=
  let l := wenBefore s
  putReg a data { s with pwr := { s.pwr with
    wenAt := s.tim.now, wenWas := if (tFind a l).isSome then l else tPut a (reg s a) l } }

/-- A write of any other listed register. -/
def writeVal (p a : Nat) (data : Word) (s : State) : State :=
  if a = 8 then writeRst data s
  else if a = 0x80 then
    let s1 := putReg a data s
    if bit data 3 then pinRel s1 else s1
  else if pagePRT ≤ a ∧ a < pagePWR then prtWrite a data s
  else if a = pagePWR then writePwrReq data s
  else if inArr a (pagePWR + 0x1000) 4 108 then wenWrite a data s
  else if a = rTim 0 then writeTimCtl data s
  else if a = rTim 0x2C then incHi p data s
  else if a = rTim 0x34 then slewHi p data s
  else if pageHRD ≤ a ∧ a < pageCLS then writeHrd p (a - pageHRD) data s
  else if a = pageCLS ∨ inArr a (pageCLS + 0x100) 4 32 then putWin p a 0xFFFFFFFF data s
  else if a = pageCLS + 4 then windowBits p .cls data s
  else if a = 0x151000 then putWin p a 0x3FFFF data s
  else if a = 0x151004 then windowBits p .alloc data s
  else if inArr a 0x151010 4 4 then putWin p a 0xFFFFFFFF data s
  else if pageTRE ≤ a ∧ a < pageUPL then writeTre ((a - pageTRE) / 0x1000) ((a - pageTRE) % 0x1000) data s
  else if pageUPL ≤ a ∧ a < pageQBM then writeUpl ((a - pageUPL) / 0x1000) ((a - pageUPL) % 0x1000) data s
  else if a = pageQBM + 0x20 then writeRetire data s
  else if a = pageQBM + 0x100 then putWin p a 0x1FFFF data s
  else if a = pageQBM + 0x104 then windowBits p .qbm data s
  else if inArr a (pageQBM + 0x110) 4 4 then putWin p a 0xFFFFFFFF data s
  else if a = pageDPT + 0x10 then
    if bit data 0 then { s with qbm := { s.qbm with dRefused := false } } else s
  else if a = pageSKM + 0xC then if bit data 0 then rotNow s else s
  else if a = pageSKM + 0x10 then writeSkmCtl data s
  else if a = pageCNT + 0x10 then { s with cnt := { s.cnt with lidx := fld data 0 16 } }
  else if a = pageCNT + 0x14 then ldataWrite data s
  else if a = pageCNT + 0x18 then if bit data 0 then mrSwap s else s
  else if a = pageCNT + 0x30 then smpCi data s
  else if a = pageCNT + 0x40 then slotSnap data s
  else if a = pageCNT + 0x44 then { s with regs := { s.regs with objIdx := tSet 0 s.regs.objIdx p data } }
  else if inArr a (pageTST + 0x100) 0x40 4 then
    let s1 := putReg a data s
    if bit data 25 then vqProbe ((a - pageTST - 0x100) / 0x40) s1 else s1
  else if inArr a pageTST 0x10 16 then writeLoop a data s
  else putReg a data s

/-- The pairs of stored registers whose _LO write is held until the _HI write (R20, R522); TIM_INC and TIM_SLEW among them. -/
def heldLo (a : Nat) : Bool :=
  (hiOf a).isSome && ((regSpec a).isSome || a == rTim 0x28 || a == rTim 0x30)

/-- A _HI write of a stored pair: both halves take effect together; with no _LO held the current _LO stays. -/
def writeHi (p lo a : Nat) (data : Word) (s : State) : State :=
  let s1 := match tFind (pkey p lo) s.regs.loHeld with
    | some v => putReg lo v (dropLo p lo s)
    | none => s
  putReg a data s1

/-- A permitted write. -/
def writePort (p a : Nat) (data : Word) (s : State) : State :=
  match instOf a with
  | some (i, o) => if 0xE00 ≤ o ∧ o < 0xF24 then writeSub p i o data s else go
  | none => go
where
  go : State :=
    if heldLo a then { s with regs := { s.regs with loHeld := tPut (pkey p a) data s.regs.loHeld } }
    else match loOf a with
      | some lo => if (regSpec a).isSome then writeHi p lo a data s else writeVal p a data s
      | none => writeVal p a data s

/-- A write of a CLS_RIT entry that sets the valid bit and names a fill ring its partition does not own (R230). -/
def ritForeign (s : State) (a : Nat) (data : Word) : Bool := !(ritAllowed s a data)

/-- A write on the register port (R19, R487, R498, R518). -/
def regWrite (part a : Nat) (be : BitVec 4) (data : Word) (s : State) : State :=
  match accOf a with
  | none => s
  | some c =>
    if be ≠ 0xF ∨ (s.glb.phase ≠ 4 ∧ early a = false) then s
    else if !(mayWrite s part a c) then partViol part s
    else if ritForeign s a data then partViol part s
    else writePort part a data s

def execRegisterWrite (part : BitVec 6) (addr : BitVec 24) (be : BitVec 4) (data : Word) (s : State) : Outcome :=
  .next (regWrite part.toNat addr.toNat be data (begin_ s))
def execHiWriteCommit (part : BitVec 6) (addr : BitVec 24) (be : BitVec 4) (data : Word) (s : State) : Outcome :=
  .next (regWrite part.toNat addr.toNat be data (begin_ s))

/-- A write of DPT_TREE (R260). -/
def execDeepBudgetWrite (part : BitVec 6) (tree : BitVec 6) (be : BitVec 4) (data : Word) (s : State) : Outcome :=
  .next (p0Write part be (putReg (pageDPT + 0x100 + 4 * tree.toNat) data) (begin_ s))

end Sys2Proof.Machine
end

