-- ==== Sys2Proof/Machine/Vq.lean ====
section
/-!
DEFINITION. Ventriloquist mode, in which a tree port plays terminals (R511 to R514), and the two commands of the framer edge, whose
meaning depends on the loop that their tree lies in. A received tick comes as UPSTREAM_BURST commands of tree A: the one with block 0
is the arrival of the tick block, at the cycle of the command with phase PH, and later ones carry later blocks of that tick.
-/

namespace Sys2Proof.Machine

/-! ## What a slot is set to -/

/-- TST_VQn: emulated terminals, response offset and drift in steps, serial of terminal `k`. -/
def vqCount (s : State) (n : Nat) : Nat := min 16 (regF s (pageTST + 0x100 + 0x40 * n) 0 5)
def vqOfs (s : State) (n : Nat) : Int := sext 13 (regF s (pageTST + 0x100 + 0x40 * n) 5 13)
def vqDrift (s : State) (n : Nat) : Int := sext 7 (regF s (pageTST + 0x100 + 0x40 * n) 18 7)
def vqSerial (s : State) (n k : Nat) : Nat := (regPair s (pageTST + 0x108 + 0x40 * n) + k) % 2 ^ 64

/-- The tree that the terminals of a slot belong to: A where B lies in another block. -/
def vqPeer (s : State) (n t : Nat) : Nat :=
  match tFind n s.tst.loop with
  | some x => if x.peer < 64 then x.peer else t
  | none => t

/-- Does B lie in this block? -/
def vqInside (s : State) (n : Nat) : Bool := match tFind n s.tst.loop with | some x => decide (x.peer < 64) | none => false

/-- A map entry from its 8 bytes (Table 3-9). -/
def entOfWord (w : BitVec 64) : MapEnt :=
  let v := w.toNat
  { hnd := nfld v 52 12, start := nfld v 35 17, len := nfld v 18 17, bs := v.testBit 17, rpt := nfld v 14 3, disc := v.testBit 13,
    rng := v.testBit 12, last := v.testBit 11, tid := 0, seen := false }

/-- The map of tick `m` that the framer of B carries to the terminals. -/
def vqMap (s : State) (n t m : Nat) : List MapEnt :=
  if vqInside s n then tGet [] (treOf s (vqPeer s n t)).grants m
  else (Config.peerMap (vqAt s n).bTree (vqAt s n).bSpan m).map entOfWord

/-- The running terminals of a slot. -/
def vqTerms (s : State) (n : Nat) : List Nat := List.range (vqCount s n)

/-- Change emulated terminal `k` of slot `n`. -/
def modTerm (n k : Nat) (f : VqTerm → VqTerm) (s : State) : State := setVqTerm n k (f (vqTerm (vqAt s n) k)) s

/-! ## Orders that name a tick (R102, Tables 3-13, 4-4) -/

/-- An ALLOC or STATE order takes effect. -/
def termOrder (k : Nat) (x : VqTerm) (o : Nat × Nat × Nat) : VqTerm :=
  if o.2.1 = 0 then { x with hnds := (o.2.2 :: x.hnds.filter (· != o.2.2)).mergeSort }
  else if o.2.1 = 1 then { x with hnds := x.hnds.filter (· != o.2.2), cont := tDel o.2.2 x.cont }
  else if o.2.1 = 2 then { x with svc := o.2.2 :: x.svc.filter (· != o.2.2) }
  else if o.2.1 = 3 then { x with svc := x.svc.filter (· != o.2.2) }
  else if o.2.1 = 5 then { x with stage := if x.stage = 0 then 0 else 3 }
  else if o.2.1 = 6 then { x with stage := if x.stage = 3 then 2 else x.stage }
  else if o.2.1 = 7 then VqTerm.start k
  else if o.2.1 = 8 then { x with stage := 4 }
  else x

/-- Everything that a terminal has been ordered for tick `m` or before, and one tick's drift. -/
def termTick (s : State) (n m k : Nat) (x : VqTerm) : VqTerm :=
  let due := x.eqdNext.filter (fun (e : Nat × Bool × Int) => decide (e.1 ≤ m))
  let x1 := { x with
    extra := x.extra + vqDrift s n, eqdNext := x.eqdNext.filter (fun e => decide (m < e.1)),
    eqd := due.foldl (fun (a : Int) (e : Nat × Bool × Int) => if e.2.1 then e.2.2 else a + e.2.2) x.eqd }
  let x2 := match x1.kselNext with
    | some (j, v) => if j ≤ m then { x1 with ksel := v, kselNext := none } else x1
    | none => x1
  (x2.orders.filter (fun o => decide (o.1 ≤ m))).foldl (termOrder k) { x2 with orders := x2.orders.filter (fun o => decide (m < o.1)) }

/-! ## The clock of a terminal (R365) -/

/-- TD in force at tick `m`: the TIME_DELAY of the latest TICK that has come. -/
def termTd (m : Nat) (x : VqTerm) : Option (Nat × Nat) :=
  (x.tds.filter (fun e => decide (e.1 ≤ m))).foldl (fun a e => match a with | some b => if e.1 < b.1 then some b else some e | none => some e) none

/-- The time of the first bit of block 0 of tick `m` at the terminal, in 1/10 of 2^-16 ns, 12.5 ps to a step (8,192 of these): that of the
message `b`, plus TD, plus every TRUNK_DELAY applying after TD's tick. One with VALID 0 is untraceable. Without a TIME_DELAY it sets nothing. -/
def termClock (m : Nat) (b : List Byte) (x : VqTerm) : VqTerm :=
  match termTd m x with
  | none => x
  | some td =>
    let v := ofBe b
    let ns : Int := (nfld v 208 48 * 1000000000 + nfld v 178 30 : Nat)
    let sum := (x.trunk.filter (fun e => decide (td.1 < e.1) && decide (e.1 ≤ m))).foldl (fun a e => a + 8192 * e.2) (0 : Int)
    { x with
      clk := some (m, 10 * (ns * 65536 + (nfld v 162 16 : Nat) + (td.2 : Nat)) + sum, v.testBit 159),
      tds := x.tds.filter (fun e => decide (td.1 ≤ e.1)), trunk := x.trunk.filter (fun e => decide (td.1 < e.1)) }

/-- Blocks 1 and 2 of B's tick, where they have come whole: a time-of-day message whose check fails is ignored. -/
def vqTime (n : Nat) (b1 b2 : UsBlock) (s : State) : State :=
  let b := blkBytes b1 ++ blkBytes b2
  if b1.err || b2.err || crc16 (b.take 30) != beAt b 30 2 then s
  else (vqTerms s n).foldl (fun s k => if (vqTerm (vqAt s n) k).stage = 4 then s else modTerm n k (termClock (vqAt s n).bTick b) s) s

/-! ## Downstream (R75, R84 to R86, R512) -/

/-- Queue a TMM that a terminal sends upstream. -/
def termSend (type : Nat) (seq? : Option Byte) (body : List Byte) (x : VqTerm) : VqTerm :=
  let b := [BitVec.ofNat 8 type, seq?.getD x.seq] ++ beBytes 2 x.tid ++ body ++ List.replicate (40 - body.length) 0 ++ [0, 0]
  { x with outq := x.outq ++ [b ++ beBytes 2 (crc16 b)], seq := if seq?.isSome then x.seq else x.seq + 1 }

/-- The action of a TMM on terminal `k`; the number is the ACK's result (Table 3-13). -/
def termAct (s : State) (n k ty : Nat) (b : List Byte) (x : VqTerm) : VqTerm × Nat :=
  if ty = 2 then
    if beAt b 0 8 = vqSerial s n k then
      ({ x with tid := beAt b 8 2 % 1024, hnd := beAt b 10 2 % 4096, stage := if x.stage = 0 then 1 else x.stage }, 0)
    else (x, 1)
  else if ty = 3 then ({ x with eqdNext := x.eqdNext ++ [(beAt b 4 6, true, (beAt b 0 4 : Int))] }, 0)
  else if ty = 4 then
    ({ x with eqdNext := x.eqdNext ++ [(beAt b 4 6, true, (beAt b 0 4 : Int))], stage := if x.stage = 1 then 2 else x.stage }, 0)
  else if ty = 5 then ({ x with eqdNext := x.eqdNext ++ [(beAt b 4 6, false, sext 32 (beAt b 0 4))] }, 0)
  else if ty = 9 then ({ x with kselNext := some (beAt b 1 6, byteAt b 0 % 4) }, 0)
  else if ty = 0x0A then
    if byteAt b 2 < 4 then ({ x with orders := x.orders ++ [(beAt b 3 6, byteAt b 2, beAt b 0 2 % 4096)] }, 0) else (x, 1)
  else if ty = 0x0B then
    if 1 ≤ byteAt b 0 ∧ byteAt b 0 ≤ 4 then ({ x with orders := x.orders ++ [(beAt b 1 6, 4 + byteAt b 0, 0)] }, 0) else (x, 1)
  else if ty = 6 then ({ x with tds := x.tds ++ [(beAt b 6 6, beAt b 0 6)] }, 0)
  else if ty = 0x0E then ({ x with trunk := x.trunk ++ [(beAt b 4 6, sext 32 (beAt b 0 4))] }, 0)
  else if ty = 8 then (x, 0)
  else (x, 2)

/-- A downstream TMM reaches terminal `k` (R85, R86). An ECHO is returned unchanged, and stands as its ACK. -/
def termTmm (n k tid : Nat) (m : List Byte) (s : State) : State :=
  let x := vqTerm (vqAt s n) k
  let ty := byteAt m 0
  let seq := byteAt m 1
  let tgt := beAt m 2 2 % 1024
  let b := sub m 4 40
  let mine := if ty = 2 then beAt b 0 8 == vqSerial s n k else x.tid != 0 && (tid == 0 || tid == x.tid) && (tgt == 0 || tgt == x.tid)
  if !mine || x.stage == 4 then s
  else if ty = 0x0D then modTerm n k (fun x => { termSend 0x0D (some (BitVec.ofNat 8 seq)) b x with lastAck := some (ty, seq) }) s
  else
    let again := x.lastAck == some (ty, seq) && tgt != 0
    let r := if again then (x, 0) else termAct s n k ty b x
    let y := r.1
    setVqTerm n k
      (if tgt = 0 then y
       else { termSend 0x0F none [BitVec.ofNat 8 seq, BitVec.ofNat 8 ty, BitVec.ofNat 8 r.2] y with lastAck := some (ty, seq) }) s

/-- The stamp of a block of B's tick at A (Table 11-1). -/
def vqStamp (s : State) (n t blk : Nat) : Nat :=
  let at_ := (vqAt s n).rxAt
  addTime (timeAtCyc s (at_ / 64).toNat)
    (steps s (at_ % 64 + ((blkSteps s (vqPeer s n t) * blk : Nat) : Int) - (treF s t 0x44 0 24 : Nat)))

/-- A data TU: every terminal that it is addressed to, and whose service index it names, passes it on as a frame of tree A with TID
k + 1. A keyed one is decrypted once. -/
def vqData (n t : Nat) (u : Tu) (s : State) : State :=
  let v := vqAt s n
  let takers := (vqTerms s n).filter fun k =>
    let x := vqTerm v k
    x.tid != 0 && x.stage != 4 && (u.tid == 0 || u.tid == x.tid) && x.svc.contains u.idx
  let key := fun (k : Nat) => u.idx + 4096 * (k + 1)
  let at_ := vqStamp s n t u.blk
  let p : Nat → Piece := fun k =>
    { req := none, wait := none, ok := true, tid := k + 1, first := u.first, last := u.last, bytes := u.body.take u.len, stamp := at_,
      pos := (v.bTick, u.blk), out := s.tim.now }
  match takers with
  | [] => s
  | k0 :: _ =>
    if u.ksel = 0 then takers.foldl (fun s k => pushPiece t (key k) (p k) s) s
    else
      let hdr := tuHeader u.tid u.idx u.len u.first u.last u.ksel
      let r := cpqIssue false t (if u.tid = 0 then 0 else k0 + 1) u.ksel v.bTick u.blk (key k0) u.first u.last false hdr u.body s
      takers.foldl (fun s k => pushPiece t (key k) { p k with req := r.2, ok := r.2.isSome, bytes := [] } s) r.1

/-- A downstream TU at the terminals of a slot. -/
def vqTu (n t : Nat) (s : State) (u : Tu) : State :=
  if !u.hck || u.err || u.ksel == 3 then s
  else if u.idx = 0 then
    if u.ksel ≠ 0 ∨ u.len ≠ 48 ∨ !u.first ∨ !u.last ∨ crc16 (u.body.take 46) ≠ beAt u.body 46 2 then s
    else (vqTerms s n).foldl (fun s k => termTmm n k u.tid u.body s) s
  else vqData n t u s

/-- The TUs of received blocks; after a bad header the terminals hunt from block to block (R75). -/
def huntTus : Nat → Nat → List UsBlock → List Tu
  | 0, _, _ => []
  | fuel + 1, pos, l =>
    let tus := spanTus (pos + l.length) (l.length + 1) pos l
    match tus.getLast? with
    | none => []
    | some u =>
      if u.hck then tus
      else tus.dropLast ++ huntTus fuel (u.blk + 1) (l.drop (u.blk + 1 - pos))

/-! ## Upstream (R76, R77, R101, R114, R512) -/

/-- Blocks that stand before the header of a burst. -/
def vqLead (s : State) (n t : Nat) : Nat := guardBlk s (vqPeer s n t) + preBlk s (vqPeer s n t)

/-- The instant at which terminal `x` sends upstream block `b` of B's tick, in steps (R101). -/
def vqInstant (s : State) (n t : Nat) (x : VqTerm) (b : Nat) : Int :=
  (vqAt s n).rxAt + 64 * 25000 + vqOfs s n + x.eqd + x.extra + ((blkSteps s (vqPeer s n t) * b : Nat) : Int)

/-- The header of a burst (Table 3-6). -/
def vqHeader (v : Vq) (tid rpt hnd m : Nat) (tmmp : Bool) : BitVec 128 :=
  let b := beBytes 14 (tid % 1024 * 2 ^ 102 + v.bTree % 64 * 2 ^ 96 + 3 * 2 ^ 92 + rpt % 8 * 2 ^ 89 + b2n tmmp * 2 ^ 88
    + m % 2 ^ 16 * 2 ^ 64 + hnd % 4096 * 2 ^ 48)
  blockOf (b ++ beBytes 2 (crc16 b))

/-- The blocks of bytes. -/
def blocksOf (n : Nat) (b : List Byte) : List (BitVec 128) := (List.range n).map fun j => blockOf (b.drop (16 * j))

/-- The announcement of a terminal (R114, R116): slot from its LFSR, EQD 0. What the spec leaves open of it are free values. -/
def vqAnnounce (n t m k : Nat) (e : MapEnt) (s : State) : State :=
  let v := vqAt s n
  let x := vqTerm v k
  let r := x.lfsr.toNat
  let b0 := e.start + r * (e.len / 32) + vqLead s n t
  let body := beBytes 8 (vqSerial s n k) ++ [BitVec.ofNat 8 r, BitVec.ofNat 8 (freeNat s)] ++ beBytes 4 (toTwos 32 (vqOfs s n))
    ++ beBytes 4 (Config.freeValue (s.fresh + 1)) ++ beBytes 16 (Config.freeValue (s.fresh + 2)) ++ List.replicate 6 0
  let m0 := [1, x.seq, 0, 0] ++ body ++ [0, 0]
  let tu := tuHeader 0 4095 48 true true 0 ++ m0 ++ beBytes 2 (crc16 m0)
  let burst : VqBurst :=
    { at_ := vqInstant s n t { x with eqd := 0 } b0, tick := m, blk := b0, n := 5, head := vqHeader v 0 0 4095 m false :: blocksOf 4 tu,
      tus := [], plain := [], sent := 0 }
  useFree (useFree (useFree (modVq n (fun v => { v with tx := v.tx ++ [burst] })
    (modTerm n k (fun x => { x with lfsr := Config.lfsr5 x.lfsr, seq := x.seq + 1 }) s))))

/-- The queues of tree A that terminal `k` fills a span of handle `h` from: the queue whose IDX is `h` first (R512). -/
def vqQueues (s : State) (t k h : Nat) : List (Nat × W4) :=
  let l := s.qbm.ctx.filter (fun e => e.1 / 2048 == t && qEn e.2 && qTid e.2 == k + 1)
  l.filter (fun e => qIdx e.2 == h) ++ l.filter (fun e => qIdx e.2 != h)

/-- The head of a queue once tokens of frames that are never sent are gone; a frame in deep memory is fetched, and waits. -/
def vqHead (q : Nat) : Nat → State → State × Option (Token × Frame)
  | 0, s => (s, none)
  | fuel + 1, s =>
    match (queueOf s q).head? with
    | none => (s, none)
    | some k =>
      match frameOf s k.frame with
      | none => vqHead q fuel (eraseToken q k s)
      | some f =>
        if neverSent f || (f.cells.isEmpty && f.deep.isEmpty) then vqHead q fuel (release1 k.frame (eraseToken q k s))
        else if f.cells.isEmpty then ((if fetching s q k.frame then s else pumpFetches (startFetch ⟨k.frame, q, 0, s.tim.now, false⟩ s)), none)
        else (wakeGroups f s, if asleep s f then none else some (k, f))

/-- The first of some queues that has a frame to send. -/
def vqFirst : List (Nat × W4) → State → State × Option (Nat × Token × Frame)
  | [], s => (s, none)
  | e :: l, s =>
    match vqHead e.1 ((queueOf s e.1).length + 1) s with
    | (s1, some (k, f)) => (s1, some (e.1, k, f))
    | (s1, none) => vqFirst l s1

/-- A span in the making. -/
structure VqFill where
  s : State
  blk : Nat
  tus : List DsTu
  plain : Tab (List Byte)
deriving DecidableEq, Repr

/-- Place a TU of a span, and ask for its cipher where it is keyed. -/
def vqPlace (t m k : Nat) (x : VqTerm) (q fr h nblk seg : Nat) (first last : Bool) (body : List Byte) (r : VqFill) : VqFill :=
  let ksel := x.ksel
  let u := { dataTu q fr x.tid h nblk ksel seg first last false body with blk := r.blk, done := true, ready := ksel == 0 }
  let c := if ksel = 0 then (r.s, none)
    else cpqIssue true t (k + 1) ksel m r.blk 0 first last false (tuHeader x.tid h body.length first last ksel) body r.s
  { r with s := c.1, blk := r.blk + nblk, tus := r.tus ++ [{ u with idle := ksel != 0 && c.2.isNone }] }

/-- The head of a queue has been copied: the next segment, or the next token. -/
def vqTaken (q : Nat) (k : Token) (f : Frame) (s : State) : State :=
  let g := tGet 0 s.qbm.segs q
  if g + 1 < outCount f then { s with qbm := { s.qbm with segs := tSet 0 s.qbm.segs q (g + 1) } }
  else release1 k.frame (takeToken q k { s with qbm := { s.qbm with segs := tSet 0 s.qbm.segs q 0 } })

/-- Fill a span of handle `h` up to block `fin`: first the rest of a frame that a split left, then frames, the last one split where
it does not fit. -/
def vqFill (n t m k h fin : Nat) : Nat → VqFill → VqFill
  | 0, r => r
  | fuel + 1, r =>
    let x := vqTerm (vqAt r.s n) k
    let room := fin - r.blk
    if room < 2 then r
    else
      let part := 16 * room - 8 - (if x.ksel = 0 then 0 else 16)
      match tFind h x.cont with
      | some c =>
        let nb := tuBlks c.body.length x.ksel
        if nb ≤ room then
          let r1 := vqPlace t m k x c.queue c.frame h nb c.seg false true c.body r
          vqFill n t m k h fin fuel { r1 with s := modTerm n k (fun x => { x with cont := tDel h x.cont }) r1.s }
        else
          let r1 := vqPlace t m k x c.queue c.frame h room c.seg false false (c.body.take part) r
          { r1 with s := modTerm n k (fun x => { x with cont := tPut h { c with body := c.body.drop part } x.cont }) r1.s }
      | none =>
        match vqFirst (vqQueues r.s t k h) r.s with
        | (s1, none) => { r with s := s1 }
        | (s1, some (q, tk, f)) =>
          let g := tGet 0 s1.qbm.segs q
          let body := (wireBytes (treF s1 t 0x34 0 14) f g).1
          let nb := tuBlks body.length x.ksel
          let r0 := { r with s := vqTaken q tk f s1, plain := tPut r.blk body r.plain }
          if nb ≤ room then vqFill n t m k h fin fuel (vqPlace t m k x q tk.frame h nb g true true body r0)
          else
            let r1 := vqPlace t m k x q tk.frame h room g true false (body.take part) r0
            { r1 with s := modTerm n k (fun x => { x with cont := tPut h ⟨q, tk.frame, x.tid, h, body.drop part, false, g⟩ x.cont }) r1.s }

/-- Bytes that wait on a handle: its rest, the queue whose IDX it is, and, on the lowest handle, the queues that no handle names. -/
def vqWaiting (s : State) (n t k h : Nat) : Nat :=
  let x := vqTerm (vqAt s n) k
  let qs := (s.qbm.ctx.filter (fun e => e.1 / 2048 == t && qEn e.2 && qTid e.2 == k + 1)).filter fun e =>
    qIdx e.2 == h || (x.hnds.head? == some h && !(x.hnds.contains (qIdx e.2)))
  qs.foldl (fun a e => (queueOf s e.1).foldl (fun a tk => a + ((frameOf s tk.frame).map (fun f => f.bytes.length)).getD 0) a)
    (((tFind h x.cont).map (·.body.length)).getD 0)

/-- The report blocks of a burst (R77, Table 3-7). -/
def vqReports (s : State) (n t k rpt : Nat) : List (BitVec 128) :=
  let x := vqTerm (vqAt s n) k
  let ents := (x.hnds.map (fun h => (h, vqWaiting s n t k h))).filter (fun e => e.2 != 0)
  let words := ents.map fun e => beBytes 4 (e.1 % 4096 * 2 ^ 20 + min 0xFFFFF (ceilDiv e.2 64))
  blocksOf rpt (words.flatten ++ List.replicate (16 * rpt) 0)

/-- The burst of terminal `k` for one group of map entries (R76, Table 3-5). -/
def vqBurst (n t m k : Nat) (g : List MapEnt) (s : State) : State :=
  match g with
  | [] => s
  | e :: _ =>
    let b0 := e.start + vqLead s n t
    let eob := eobBlk s (vqPeer s n t)
    let fin := fun (e : MapEnt) => e.start + e.len - if e.last then eob else 0
    let x := vqTerm (vqAt s n) k
    let first := b0 + 1 + e.rpt
    let nt := min x.outq.length ((fin e - first) / 4)
    let tmms := (x.outq.take nt).flatMap (fun m => blocksOf 4 (tuHeader x.tid x.hnd 48 true true 0 ++ m))
    let s1 := modTerm n k (fun x => { x with outq := x.outq.drop nt }) s
    let fill := g.foldl
      (fun r y =>
        let lo := if y.bs then first + 4 * nt else y.start
        let r1 := { r with blk := lo }
        if x.hnds.contains y.hnd then vqFill n t m k y.hnd (fin y) (fin y + 1) r1 else r1) (⟨s1, first, [], []⟩ : VqFill)
    let stop := (g.getLast?.map fin).getD b0
    let s2 := fill.s
    let head := vqHeader (vqAt s2 n) x.tid e.rpt e.hnd m (nt < x.outq.length) :: vqReports s2 n t k e.rpt ++ tmms
    let burst : VqBurst :=
      { at_ := vqInstant s n t x b0, tick := m, blk := b0, n := stop - b0, head := head, tus := fill.tus, plain := fill.plain, sent := 0 }
    modVq n (fun v => { v with tx := v.tx ++ [burst] }) s2

/-- What terminal `k` sends for the map of tick `m`. -/
def vqObey (n t m : Nat) (s : State) (k : Nat) : State :=
  let s1 := modTerm n k (termTick s n m k) s
  let x := vqTerm (vqAt s1 n) k
  let map := vqMap s1 n t m
  if x.stage = 0 then
    match map.find? (·.disc) with
    | some e => vqAnnounce n t m k e s1
    | none => s1
  else if x.stage = 3 ∨ x.stage = 4 then s1
  else
    ((groupsOf map).filter (fun g => g.head?.any (fun e => !e.disc && (e.hnd == x.hnd || x.hnds.contains e.hnd)))).foldl
      (fun s g => vqBurst n t m k g s) s1

/-- Block 0 of B's tick arrives: the terminals take their timing and the tick's map from it. Where its check fails they count on. -/
def vqTick (n t : Nat) (ph : Nat) (b : UsBlock) (s : State) : State :=
  let v := vqAt s n
  let d := b.data.toNat
  let good := !b.err && crc16 ((blkBytes b).take 14) == nfld d 0 16 && nfld d 124 4 == 3
  if !good && v.bTick == 0 then s
  else
    let v1 := if good then { v with bTree := nfld d 118 6, bSpan := nfld d 106 12, bTick := nfld d 48 48 } else { v with bTick := v.bTick + 1 }
    let s1 := setVq n { v1 with rxAt := 64 * (s.tim.now : Int) + ph, tx := v.tx.filter (fun x => v.bTick ≤ x.tick) } s
    (vqTerms s1 n).foldl (vqObey n t v1.bTick) s1

/-- Received downstream blocks at a tree that plays terminals. -/
def vqReceive (n t ph blk : Nat) (blocks : List UsBlock) (s : State) : State :=
  if !(domOn s (domTP t)) then s
  else
    let s1 := if blk = 0 then match blocks with | b :: _ => vqTick n t ph b s | [] => s else s
    let lo := max blk 3
    if (vqAt s1 n).bTick = 0 then s1
    else
      let s2 := if 1 < blk then s1 else match blocks.drop (1 - blk) with | b1 :: b2 :: _ => vqTime n b1 b2 s1 | [_] => s1 | [] => s1
      (huntTus (blocks.length + 1) lo (blocks.drop (lo - blk))).foldl (vqTu n t) s2

/-! ## The burst transmitter (R511, R513) -/

/-- Block `j` of a burst. -/
def vqBlockAt (x : VqBurst) (j : Nat) : BitVec 128 :=
  match x.head[j]? with
  | some b => b
  | none =>
    match x.tus.find? (fun u => u.ready && !u.idle && decide (u.blk ≤ x.blk + j) && decide (x.blk + j < u.blk + u.nblk)) with
    | some u => blockOf ((tuBytes u).drop (16 * (x.blk + j - u.blk)))
    | none => idleBlock

/-- The first TU of a frame on PHND leaves after PROBE was written: PTX. With B in another block the probe is over. -/
def vqProbeTx (n t : Nat) (x : VqBurst) (j : Nat) (u : DsTu) (s : State) : State :=
  let v := vqAt s n
  if !v.probe || v.probeFrame.isSome || !u.first || u.idx != regF s (pageTST + 0x104 + 0x40 * n) 0 12 then s
  else
    let at_ := x.at_ + ((blkSteps s (vqPeer s n t) * j : Nat) : Int)
    let ptx := addTime (timeAtCyc s (at_ / 64).toNat) (steps s (at_ % 64 + (treF s t 0x40 0 24 : Nat)))
    if vqInside s n then setVq n { v with ptx := ptx, probeFrame := some (tGet [] x.plain u.blk) } s
    else setVq n { v with ptx := ptx, probe := false } s

/-- Send block `j` of the burst that is on its way. -/
def vqEmit (n t : Nat) (x : VqBurst) (rest : List VqBurst) (s : State) : State :=
  let j := x.sent
  let s1 := emit (.vqBlock t (j == 0) (x.at_ % 64).toNat (vqBlockAt x j)) s
  let s2 := modVq n (fun v => { v with tx := if x.n ≤ j + 1 then rest else { x with sent := j + 1 } :: rest }) s1
  match x.tus.find? (fun u => u.blk == x.blk + j && u.ready && !u.idle) with
  | some u => vqProbeTx n t x j u (countTu t { u with tid := ((tFind u.queue s.qbm.ctx).map qTid).getD 0 } s2)
  | none => s2

/-- DS_BLOCK_REQUEST at a tree that plays terminals: the next block of a burst under way, or the header of one whose instant falls in
this slot. No tick header is sent, and nothing between bursts. A burst whose instant is past is not sent. -/
def vqRequest (n t : Nat) (sot : Bool) (s : State) : State :=
  if !(domOn s (domTP t)) then s
  else
    let s1 := (dsCount t sot s).2
    let slot : Int := 64 * ((s.tim.now : Int) + 4)
    let len : Int := (blkSteps s t : Nat)
    let live := (vqAt s1 n).tx.filter (fun x => x.sent != 0 || decide (slot < x.at_ + len))
    let s2 := modVq n (fun v => { v with tx := live }) s1
    match live.find? (fun x => x.sent != 0) with
    | some x => vqEmit n t x (live.filter (· != x)) s2
    | none =>
      let due := live.filter (fun x => x.at_ < slot + len)
      match due.find? (fun x => due.all (fun y => x.at_ ≤ y.at_)) with
      | some x => vqEmit n t x (live.filter (· != x)) s2
      | none => s2

/-! ## The commands of the framer edge -/

/-- A block that a framer loop returns goes to reassembly under its service index (R508, R509); TUs with TID 0 are dropped. -/
def loopReceive (t blk : Nat) (blocks : List UsBlock) (s : State) : State :=
  if !(domOn s (domTP t)) then s
  else
    let lo := max blk 3
    let n := blocks.length
    (spanTus (blk + n) (n + 1) lo (blocks.drop (lo - blk))).foldl
      (fun s u =>
        if !u.hck || u.err || u.tid == 0 || u.ksel != 0 then s
        else pushPiece t u.idx
          { req := none, wait := none, ok := true, tid := u.tid, first := u.first, last := u.last, bytes := u.body.take u.len,
            stamp := s.tim.time, pos := (0, u.blk), out := s.tim.now } s) s

/-- DS_BLOCK_REQUEST. -/
def blockRequest (t : Nat) (sot : Bool) (ph : Nat) (s : State) : State :=
  match vqOf s t with
  | some n => vqRequest n t sot s
  | none => dsRequest t sot ph s
def execDsBlockRequest (tree : BitVec 6) (sot : Bool) (ph : BitVec 6) (s : State) : Outcome :=
  .next (blockRequest tree.toNat sot ph.toNat (begin_ s))

/-- UPSTREAM_BURST. A queue or edge loop takes nothing from the framer: its blocks are stray (R507, R508). -/
def upstream (t ut : Nat) (sob : Int) (ph blk : Nat) (blocks : List UsBlock) (s : State) : State :=
  match vqOf s t with
  | some n => vqReceive n t ph blk blocks s
  | none =>
    if loopT s t = 2 ∨ loopT s t = 3 then (if domOn s (domTP t) then count1 (iTRE t) 13 s else s)
    else if loopT s t = 4 then loopReceive t blk blocks s
    else usBurst t ut sob ph blk blocks s
def execUpstreamBurst (tree : BitVec 6) (utick : BitVec 48) (sob : Int) (ph : BitVec 6) (blk : BitVec 17) (blocks : List UsBlock)
    (s : State) : Outcome :=
  .next (upstream tree.toNat utick.toNat sob ph.toNat blk.toNat blocks (begin_ s))

end Sys2Proof.Machine
end

