-- ==== Sys2Proof/Machine/Beat.lean ====
section
/-!
DEFINITION. The cycle of a beat boundary (R43 to R45, R49, Table 1-4), the start of the time engine (R339), PPS_IN (R368), and the
cycle that passes while no command waits (log entry 2).
-/

namespace Sys2Proof.Machine

/-! ## The end of a tick -/

/-- The TAG_FAIL notice of a tree (R286), and the marks of one notice a tick (R127). -/
def treeTickEnd (t : Nat) (s : State) : State :=
  let n := (treOf s t).tagTick
  let s1 := if n = 0 then s else noticeT 0x1A t 0 0 0 (w32 n) 0 s
  modTre t (fun r => { r with tagTick := 0, fullTick := false }) s1

/-- The STAMP_LOST notice of a port (R354). -/
def portTickEnd (s : State) (p : Nat) : State :=
  let n := (uplOf s p).sqLost
  if n = 0 then s
  else fault (iUPL p) 0 (w32 n) 0 4 p 0 (notice0 0x45 0 (w32 p) (w32 n) (modUpl p (fun u => { u with sqLost := 0 }) s))

/-- What closes with a tick. -/
def tickEnd (s : State) : State := churnLatch ((List.range 16).foldl portTickEnd (eachTree treeTickEnd s))

/-! ## Beat 0 -/

/-- Order 1 of Table 1-4: the page that the tree port wrote becomes active; an incomplete one holds no entry (R82). -/
def pageSwap (t : Nat) (s : State) : State :=
  let r := treOf s t
  let n := s.tim.tick
  let bad := r.run && domOn s (domTP t) && !(lostTree s t) && !r.mapDone && !r.mapNone
  let s1 := if bad then fault (iTRE t) 0 (w32 n) 6 3 t 0 (count1 (iTRE t) 28 s) else s
  modTre t (fun r => { r with
    mapDone := false, mapNone := false, grants := if bad then tDel n r.grants else r.grants,
    bursts := r.bursts.filter (fun b => n ≤ b.at_ + 2) }) s1

/-- A port that was told to rejoin its aggregation group does so (R198). -/
def portRejoin (s : State) (p : Nat) : State :=
  if (uplOf s p).rejoinPend then modUpl p (fun u => { u with rejoin := false, rejoinPend := false }) s else s

/-- A changed MAXLEN of a ring comes into force (R161). -/
def ringLengths (s : State) : State :=
  (s.hrd.ring.map (·.1)).foldl
    (fun s k => let r := ringOf s (kindOf (k / 4096)) (k % 4096); setRing (kindOf (k / 4096)) (k % 4096) { r with maxl := r.w.maxlen } s) s

/-- The strobe of this tick's upstream tick will fall the equalised round trip of the active trunk later (R83, R97). -/
def usStrobe (t : Nat) (s : State) : State :=
  if !(treOf s t).run then s
  else
    let n := s.tim.tick
    atCycle (s.tim.now + eqRtt s t / 64) (.usTick t n (eqRtt s t % 64))
      (modTre t (fun r => { r with usRtt := tPut n (eqRtt s t) (r.usRtt.filter (fun e => n ≤ e.1 + 4)) }) s)

/-- Orders 1 to 3 of Table 1-4, in whose course every setting that waits for a tick boundary takes effect (R521). -/
def tickStart (s : State) : State :=
  let s1 := eachTree pageSwap { s with tim := { s.tim with mapPage := !s.tim.mapPage } }
  let s2 := ringLengths (tickRegs (ctxBoundary (imageBoundary s1)))
  let s3 := { s2 with chn := s2.chn.map (fun e => (e.1, { e.2 with shown := [], pass := none, late1 := none, late2 := none })) }
  let s4 := (List.range 16).foldl portRejoin (loopSlots s3)
  let s5 := eachTree startTree s4
  let s6 := eachTree usStrobe (eachTree runSwitch (rotBoundary s5))
  eachTree shiftReports (eachTree (fun t s => if (treOf s t).run then syncServices t s else s) s6)

/-- What else a tick begins with: the samples a tick may take (R475), a due round (R466), TIMER wakes (R445), and the clock's history. -/
def tickRest (s : State) : State :=
  let lim := s.tim.now - 4 * tickCyc
  let new := s.tim.segs.filter (fun g => lim ≤ g.at_)
  let old := (s.tim.segs.filter (fun g => g.at_ < lim)).take 1
  timerWakes (treeLatch (mrTick { s with cnt := { s.cnt with sTick := 0 }, tim := { s.tim with segs := new ++ old } }))

/-! ## Every beat -/

/-- A unit of a frame that deep memory returned with other bytes: its end-to-end CRC fails as it is read (R262). The first failure is
slice fault 4, and the frame is read again after the handover; the second withdraws it at this target, which counts under E2E_DROP (R264,
R397). -/
def e2eTu (t : Nat) (u : DsTu) (s : State) : State :=
  match frameOf s u.frame with
  | none => s
  | some f =>
    if !f.crcBad || !(homeWorks s t) then s
    else if f.e2eFail.contains u.queue then
      count1 (iSLC (homeT s t)) 6 (withdrawIf u.frame (· == u.queue) (idleAt (· == u.queue) u.frame s))
    else declareFault (homeT s t) 4 1 (setFrame u.frame { f with e2eFail := f.e2eFail ++ [u.queue] } s)

/-- The reads of tree `t` that fail among the units of a beat that are not assembled. -/
def e2eBeat (t b : Nat) (s : State) : State :=
  let l := (tGet [] (treOf s t).stage b).filter fun u =>
    !u.done && !u.idle && u.queue != 131072 && !(turns (loopT s t)) && !(fetching s u.queue u.frame)
  assemble t b (l.foldl (fun s u => e2eTu t u s) s)

/-- Assembly of the beat two ahead, and what is left of the two before it (R33, R35). -/
def assembleAll (t : Nat) (s : State) : State :=
  let b := absBeat s
  txBoundary t (e2eBeat t b (e2eBeat t (b + 1) (e2eBeat t (b + 2) (assemble t (b + 2) s))))

/-- Order 4, and the assembly of the beat two ahead (R33). Order 5 falls at the end of the cycle (Machine/Clock.lean). -/
def beatActs (s : State) : State :=
  let s1 := eachTree assembleAll (skimCapture (beatReports s))
  { s1 with tim := { s1.tim with zero := true } }

/-- The actions in cycle 0 of a beat, the time engine's own aside. -/
def boundaryActs (s : State) : State :=
  if s.tim.beat = 0 then beatActs (tickRest (tickStart s)) else beatActs s

/-- The selections of the beat that ends are complete by its last cycle (R33, R254). -/
def commitAll (s : State) : State :=
  if s.qbm.sel.isEmpty then s else pumpFetches ((s.qbm.sel.map (·.1)).foldl (fun s t => takeSel t s) s)

/-- Cycle 0 of the next beat (R44). Nothing happens before the engine has started: it sends no strobe. -/
def beatBoundary (s : State) : State :=
  if !s.tim.started then s
  else
    let s1 := commitAll (toBoundary (toNextBeat s) s)
    if s1.tim.beat < 9 then afterBoundary (boundaryActs { s1 with tim := { s1.tim with beat := s1.tim.beat + 1 } })
    else
      let s2 := tickEnd s1
      afterBoundary (boundaryActs (timeBoundary (timSet (viewAt (s2.tim.tick + 1) s2)) { s2 with tim := { s2.tim with
        tick := (s2.tim.tick + 1) % 2 ^ 48, beat := 0, tickStart := s2.tim.now, cutDone := false } }))
def execBeatBoundary (s : State) : Outcome := .next (beatBoundary (begin_ s))

/-! ## The start (R339) -/

/-- The engine starts in this cycle, the first tick boundary. -/
def engineStart (s : State) : State :=
  let s1 := startTime s
  afterBoundary (boundaryActs { s1 with skm := { s1.skm with rotTick := s1.tim.tick } })

/-- TIME_ENGINE_START: 16 cycles after the write of START with SRC 0. With SRC 1 an accepted PPS_IN edge starts the engine. -/
def timeEngineStart (s : State) : State :=
  match startCyc s with
  | some k => if s.tim.started then s else engineStart (toBoundary (k - s.tim.now) s)
  | none => s
def execTimeEngineStart (s : State) : Outcome := .next (timeEngineStart (begin_ s))

/-- PPS_IN_EDGE (R368): accepted, or counted and ignored. -/
def ppsEdge (s : State) : State :=
  if !regB s (rTim 0x60) 0 then s
  else if !(ppsAccepts s) then count1 3 3 s
  else
    let starts := match s.tim.startWait with | some (src, _) => src && !s.tim.started | none => false
    ppsAccept (if starts then engineStart s else s)
def execPpsInEdge (s : State) : Outcome := .next (ppsEdge (begin_ s))

/-! ## No command waits -/

/-- One cycle of CLK_B passes; where it ends a beat, or the 16 cycles after START, the boundary or the start comes with it (log entry 2). -/
def clockTick (s : State) : State :=
  let s0 := begin_ s
  if s0.tim.started then (if toNextBeat s0 = 1 then beatBoundary s0 else lapse 1 s0)
  else match startCyc s0 with
    | some k => if k ≤ s0.tim.now + 1 then engineStart (toBoundary 1 s0) else lapse 1 s0
    | none => lapse 1 s0

end Sys2Proof.Machine
end

