-- ==== Sys2Proof/Machine/Dispatch.lean ====
section
/-!
DEFINITION. One arm for each command of the opcode table, in the table's order.
-/

namespace Sys2Proof.Machine

def exec (i : Instr) (s : State) : Host.Outcome State Fault Refusal :=
  match i with
  | .blockReset => Sys2Proof.Machine.execBlockReset s
  | .glbRstArm part => Sys2Proof.Machine.execGlbRstArm part s
  | .armingExpire => Sys2Proof.Machine.execArmingExpire s
  | .glbRstBlock part => Sys2Proof.Machine.execGlbRstBlock part s
  | .fuseWordRead data => Sys2Proof.Machine.execFuseWordRead data s
  | .startupPhaseEnd st => Sys2Proof.Machine.execStartupPhaseEnd st s
  | .partitionReset part data => Sys2Proof.Machine.execPartitionReset part data s
  | .partitionTableWrite part addr be data => Sys2Proof.Machine.execPartitionTableWrite part addr be data s
  | .registerWrite part addr be data => Sys2Proof.Machine.execRegisterWrite part addr be data s
  | .loReadCapture part addr be => Sys2Proof.Machine.execLoReadCapture part addr be s
  | .hiWriteCommit part addr be data => Sys2Proof.Machine.execHiWriteCommit part addr be data s
  | .readClearRegister part addr be => Sys2Proof.Machine.execReadClearRegister part addr be s
  | .windowRd part win => Sys2Proof.Machine.execWindowRd part win s
  | .windowWr part win => Sys2Proof.Machine.execWindowWr part win s
  | .beatBoundary => Sys2Proof.Machine.execBeatBoundary s
  | .selectionCommit tree => Sys2Proof.Machine.execSelectionCommit tree s
  | .mapCountReset tree => Sys2Proof.Machine.execMapCountReset tree s
  | .reportCutoff => Sys2Proof.Machine.execReportCutoff s
  | .tmmAckTimeout tree seq => Sys2Proof.Machine.execTmmAckTimeout tree seq s
  | .tmmPendingQueued tree => Sys2Proof.Machine.execTmmPendingQueued tree s
  | .churnPass1 tree => Sys2Proof.Machine.execChurnPass1 tree s
  | .churnPass2 tree => Sys2Proof.Machine.execChurnPass2 tree s
  | .passLate tree => Sys2Proof.Machine.execPassLate tree s
  | .timeProjection => Sys2Proof.Machine.execTimeProjection s
  | .dsBlockRequest tree sot ph => Sys2Proof.Machine.execDsBlockRequest tree sot ph s
  | .upstreamBurst tree utick sob ph blk blocks => Sys2Proof.Machine.execUpstreamBurst tree utick sob ph blk blocks s
  | .missedBurst tree utick blk => Sys2Proof.Machine.execMissedBurst tree utick blk s
  | .reassemblyTimeout tree hnd => Sys2Proof.Machine.execReassemblyTimeout tree hnd s
  | .heardEntryExpire tree serial => Sys2Proof.Machine.execHeardEntryExpire tree serial s
  | .lostHoldExpire tree tid => Sys2Proof.Machine.execLostHoldExpire tree tid s
  | .terminalIdFree tree tid => Sys2Proof.Machine.execTerminalIdFree tree tid s
  | .pswRequest tree code swAt => Sys2Proof.Machine.execPswRequest tree code swAt s
  | .treeEnableWrite part tree be data => Sys2Proof.Machine.execTreeEnableWrite part tree be data s
  | .prelistSet part tree => Sys2Proof.Machine.execPrelistSet part tree s
  | .prelistClr part tree => Sys2Proof.Machine.execPrelistClr part tree s
  | .uplinkFrameReceive port bytes rxErr full ph tableUe => Sys2Proof.Machine.execUplinkFrameReceive port bytes rxErr full ph tableUe s
  | .pauseReceive port bytes rxErr => Sys2Proof.Machine.execPauseReceive port bytes rxErr s
  | .pfcReceive port bytes rxErr => Sys2Proof.Machine.execPfcReceive port bytes rxErr s
  | .pauseTimerExpire port prio => Sys2Proof.Machine.execPauseTimerExpire port prio s
  | .fcResend port => Sys2Proof.Machine.execFcResend port s
  | .linkDown port => Sys2Proof.Machine.execLinkDown port s
  | .linkUp port => Sys2Proof.Machine.execLinkUp port s
  | .lagRejoin part port => Sys2Proof.Machine.execLagRejoin part port s
  | .portEnableWrite part port be data => Sys2Proof.Machine.execPortEnableWrite part port be data s
  | .uplinkFrameTransmit port ph feed => Sys2Proof.Machine.execUplinkFrameTransmit port ph feed s
  | .cipherResponse chan seq st data tableUe => Sys2Proof.Machine.execCipherResponse chan seq st data tableUe s
  | .cipherRequestLost chan seq => Sys2Proof.Machine.execCipherRequestLost chan seq s
  | .keyWriteAck => Sys2Proof.Machine.execKeyWriteAck s
  | .keyTmo => Sys2Proof.Machine.execKeyTmo s
  | .keyCommandResume part => Sys2Proof.Machine.execKeyCommandResume part s
  | .deepWriteAck frame err => Sys2Proof.Machine.execDeepWriteAck frame err s
  | .deepReadReturn frame back => Sys2Proof.Machine.execDeepReadReturn frame back s
  | .deepReadLate frame => Sys2Proof.Machine.execDeepReadLate frame s
  | .deepBudgetWrite part tree be data => Sys2Proof.Machine.execDeepBudgetWrite part tree be data s
  | .scrubRead hits => Sys2Proof.Machine.execScrubRead hits s
  | .retireGo part be data => Sys2Proof.Machine.execRetireGo part be data s
  | .retirementDone => Sys2Proof.Machine.execRetirementDone s
  | .ringDoorbell part kind ring => Sys2Proof.Machine.execRingDoorbell part kind ring s
  | .consumerDoorbell part kind ring data => Sys2Proof.Machine.execConsumerDoorbell part kind ring data s
  | .descriptorFetchDone chan tag words err => Sys2Proof.Machine.execDescriptorFetchDone chan tag words err s
  | .chainFetchDone acc words err => Sys2Proof.Machine.execChainFetchDone acc words err s
  | .sendDataFetchDone acc bytes err tableUe => Sys2Proof.Machine.execSendDataFetchDone acc bytes err tableUe s
  | .sendFrameStart ring => Sys2Proof.Machine.execSendFrameStart ring s
  | .fillDeliveryStart ring => Sys2Proof.Machine.execFillDeliveryStart ring s
  | .hostWriteAck chan tag err => Sys2Proof.Machine.execHostWriteAck chan tag err s
  | .hostAccessTimeout write chan tag => Sys2Proof.Machine.execHostAccessTimeout write chan tag s
  | .fillRecordIssue ring => Sys2Proof.Machine.execFillRecordIssue ring s
  | .sendRecordIssue ring => Sys2Proof.Machine.execSendRecordIssue ring s
  | .ringDisable part kind reg data => Sys2Proof.Machine.execRingDisable part kind reg data s
  | .ringContextWrite part kind ring word data => Sys2Proof.Machine.execRingContextWrite part kind ring word data s
  | .channelConfigWrite part chan data => Sys2Proof.Machine.execChannelConfigWrite part chan data s
  | .ringSet part kind ring ctx => Sys2Proof.Machine.execRingSet part kind ring ctx s
  | .ringQuiesce part kind ring => Sys2Proof.Machine.execRingQuiesce part kind ring s
  | .ringQuiesceDone kind ring => Sys2Proof.Machine.execRingQuiesceDone kind ring s
  | .ringResume part kind ring => Sys2Proof.Machine.execRingResume part kind ring s
  | .allocSet part tree hnd entry => Sys2Proof.Machine.execAllocSet part tree hnd entry s
  | .queueSet part tree queue ctx => Sys2Proof.Machine.execQueueSet part tree queue ctx s
  | .admitSerial part tree tid serial => Sys2Proof.Machine.execAdmit part tree tid serial s
  | .activate part tree tid => Sys2Proof.Machine.execActivate part tree tid s
  | .quiet part tree tid => Sys2Proof.Machine.execQuiet part tree tid s
  | .resume part tree tid => Sys2Proof.Machine.execResume part tree tid s
  | .release part tree tid => Sys2Proof.Machine.execRelease part tree tid s
  | .disable part tree tid => Sys2Proof.Machine.execDisable part tree tid s
  | .rerange part tree tid => Sys2Proof.Machine.execRerange part tree tid s
  | .discNow part tree => Sys2Proof.Machine.execDiscNow part tree s
  | .tmmSend part tree tid addr => Sys2Proof.Machine.execTmmSend part tree tid addr s
  | .tmmCommandQueued part => Sys2Proof.Machine.execTmmCommandQueued part s
  | .keyLoad part slot klen addr => Sys2Proof.Machine.execKeyLoad part slot klen addr s
  | .keyErase part slot => Sys2Proof.Machine.execKeyErase part slot s
  | .keyLut part slot tick => Sys2Proof.Machine.execKeyLut part slot tick s
  | .keySwitch part tree tid ksel => Sys2Proof.Machine.execKeySwitch part tree tid ksel s
  | .emAdd part dir addr => Sys2Proof.Machine.execEmAdd part dir addr s
  | .emMod part dir addr => Sys2Proof.Machine.execEmMod part dir addr s
  | .emDel part dir addr => Sys2Proof.Machine.execEmDel part dir addr s
  | .clsSwap part => Sys2Proof.Machine.execClsSwap part s
  | .clsPageSync => Sys2Proof.Machine.execClsPageSync s
  | .tableUeRewrite cap clean => Sys2Proof.Machine.execTableUeRewrite cap clean s
  | .overlayApply part img addr count => Sys2Proof.Machine.execOverlayApply part img addr count s
  | .imageReadDone acc recs err => Sys2Proof.Machine.execImageReadDone acc recs err s
  | .timStart part => Sys2Proof.Machine.execTimStart part s
  | .timeEngineStart => Sys2Proof.Machine.execTimeEngineStart s
  | .timRestart part => Sys2Proof.Machine.execTimRestart part s
  | .stepGo part => Sys2Proof.Machine.execStepGo part s
  | .timHold part => Sys2Proof.Machine.execTimHold part s
  | .holdClr part => Sys2Proof.Machine.execHoldClr part s
  | .holdWatchdogExpire => Sys2Proof.Machine.execHoldWatchdogExpire s
  | .traceLost => Sys2Proof.Machine.execTraceLost s
  | .timIncWrite part be data => Sys2Proof.Machine.execTimIncWrite part be data s
  | .timSlewWrite part be data => Sys2Proof.Machine.execTimSlewWrite part be data s
  | .slewEnd => Sys2Proof.Machine.execSlewEnd s
  | .timEpochRead part => Sys2Proof.Machine.execTimEpochRead part s
  | .ppsInEdge => Sys2Proof.Machine.execPpsInEdge s
  | .ppsInLoss => Sys2Proof.Machine.execPpsInLoss s
  | .ppsOutEdge => Sys2Proof.Machine.execPpsOutEdge s
  | .ppsOutEnd => Sys2Proof.Machine.execPpsOutEnd s
  | .todOutSend => Sys2Proof.Machine.execTodOutSend s
  | .todInMessage bytes => Sys2Proof.Machine.execTodInMessage bytes s
  | .sliceWatchdogExpire slice => Sys2Proof.Machine.execSliceWatchdogExpire slice s
  | .tokenWithdrawalDone slice => Sys2Proof.Machine.execTokenWithdrawalDone slice s
  | .handoverReplayStart => Sys2Proof.Machine.execHandoverReplayStart s
  | .handoverDone => Sys2Proof.Machine.execHandoverDone s
  | .rotationDue => Sys2Proof.Machine.execRotationDue s
  | .skmRotNow part => Sys2Proof.Machine.execSkmRotNow part s
  | .rotationShadowStart => Sys2Proof.Machine.execRotationShadowStart s
  | .rotationAbandon => Sys2Proof.Machine.execRotationAbandon s
  | .restoringRotation => Sys2Proof.Machine.execRestoringRotation s
  | .selftestPassEnd slice pass => Sys2Proof.Machine.execSelftestPassEnd slice pass s
  | .skmCtlRepair part be data => Sys2Proof.Machine.execSkmCtlRepair part be data s
  | .pwrReq part be data => Sys2Proof.Machine.execPwrReq part be data s
  | .entryHandshakeDone dom => Sys2Proof.Machine.execEntryHandshakeDone dom s
  | .handshakeDelayLimit dom => Sys2Proof.Machine.execHandshakeDelayLimit dom s
  | .entryAbortPoint dom => Sys2Proof.Machine.execEntryAbortPoint dom s
  | .powerAckRise dom => Sys2Proof.Machine.execPowerAckRise dom s
  | .powerEntryTimeout dom => Sys2Proof.Machine.execPowerEntryTimeout dom s
  | .powerExitStart dom => Sys2Proof.Machine.execPowerExitStart dom s
  | .powerAckFall dom => Sys2Proof.Machine.execPowerAckFall dom s
  | .powerExitDone dom => Sys2Proof.Machine.execPowerExitDone dom s
  | .powerExitTimeout dom => Sys2Proof.Machine.execPowerExitTimeout dom s
  | .sdWake tree => Sys2Proof.Machine.execSdWake tree s
  | .fltStatClear part inst be data => Sys2Proof.Machine.execFltStatClear part inst be data s
  | .fltForce part inst be data => Sys2Proof.Machine.execFltForce part inst be data s
  | .fltMaskWrite part inst be data => Sys2Proof.Machine.execFltMaskWrite part inst be data s
  | .fltVecWrite part inst be data => Sys2Proof.Machine.execFltVecWrite part inst be data s
  | .faultPulseEnd => Sys2Proof.Machine.execFaultPulseEnd s
  | .faultPinRel part => Sys2Proof.Machine.execFaultPinRel part s
  | .faultPinRecoveryEnd => Sys2Proof.Machine.execFaultPinRecoveryEnd s
  | .cntSelWrite part inst num be data => Sys2Proof.Machine.execCntSelWrite part inst num be data s
  | .cntValWrite part inst num be data => Sys2Proof.Machine.execCntValWrite part inst num be data s
  | .cntClr part inst be data => Sys2Proof.Machine.execCntClr part inst be data s
  | .cntSmpCiWrite part be data => Sys2Proof.Machine.execCntSmpCiWrite part be data s
  | .cntSlotSnap part be data => Sys2Proof.Machine.execCntSlotSnap part be data s
  | .mrListAccess part write be data => Sys2Proof.Machine.execMrListAccess part write be data s
  | .mrSwap part => Sys2Proof.Machine.execMrSwap part s
  | .milkRoundStart => Sys2Proof.Machine.execMilkRoundStart s
  | .milkRoundDone err => Sys2Proof.Machine.execMilkRoundDone err s
  | .mrWriteTimeout => Sys2Proof.Machine.execMrWriteTimeout s
  | .vqProbe part num => Sys2Proof.Machine.execVqProbe part num s
  | .duplicateStateMismatch where_ => Sys2Proof.Machine.execDuplicateStateMismatch where_ s
  | .tripletVoteDisagree group => Sys2Proof.Machine.execTripletVoteDisagree group s
  | .commandOperandRead acc bytes err => Sys2Proof.Machine.execCommandOperandRead acc bytes err s

end Sys2Proof.Machine
end

