-- ==== Sys2Proof/WellFormed.lean ====
section
/-!
DEFINITION. The commands that the hardware can present: operands in the ranges that the spec gives and that the types of
Syntax.lean do not. The machine is total: it gives the others a meaning too.
-/

namespace Sys2Proof

/-- Rings of a kind (Table 10-1). -/
def ringTotal : RingKind → Nat
  | .send => 2048 | .fill => 2048 | .cq => 1024 | .cmd => 64 | .ntc => 64

/-- A ring number of a kind. -/
def ringOk (k : RingKind) (n : BitVec 11) : Bool := decide (n.toNat < ringTotal k)

/-- Rings of a command's 2-bit kind: send, fill, completion queue (R323). -/
def ringCode (k : BitVec 2) (n : BitVec 11) : Bool := decide (n.toNat < if k.toNat < 2 then 2048 else if k.toNat = 2 then 1024 else 64)

/-- A power domain that a power command may concern (Table 14-1): every one but AO. -/
def domOk (d : BitVec 7) : Bool := decide (d.toNat < 108)

/-- A unit instance (Table 15-1). -/
def instOk (i : BitVec 7) : Bool := decide (i.toNat < 110)

/-- A block number of a tick at the highest rate (Table 3-1). -/
def blkOk (b : BitVec 17) : Bool := decide (b.toNat < 100000)

/-- The operands that the hardware can present with a command. -/
def Instr.wf (i : Instr) : Bool :=
  match i with
  | .upstreamBurst _ _ _ _ blk blocks => blkOk blk && !blocks.isEmpty && decide (blk.toNat + blocks.length ≤ 100000)
  | .missedBurst _ _ blk => blkOk blk
  | .uplinkFrameReceive _ bytes _ _ _ _ => !bytes.isEmpty
  | .pauseReceive _ bytes _ => decide (64 ≤ bytes.length)
  | .pfcReceive _ bytes _ => decide (64 ≤ bytes.length)
  | .ringDoorbell _ kind ring => ringOk kind ring
  | .consumerDoorbell _ kind ring _ => ringOk kind ring
  | .descriptorFetchDone _ _ words _ => decide (words.length % 4 = 0)
  | .chainFetchDone _ words _ => decide (words.length % 4 = 0)
  | .ringContextWrite _ kind ring _ _ => ringOk kind ring
  | .ringSet _ kind ring _ => ringCode kind ring
  | .ringQuiesce _ kind ring => ringCode kind ring
  | .ringResume _ kind ring => ringCode kind ring
  | .ringQuiesceDone kind ring => ringOk kind ring
  | .imageReadDone _ recs _ => decide (recs.length ≤ 32)
  | .todInMessage bytes => decide (bytes.length = 16)
  | .entryHandshakeDone d => domOk d
  | .handshakeDelayLimit d => domOk d
  | .entryAbortPoint d => domOk d
  | .powerAckRise d => domOk d
  | .powerEntryTimeout d => domOk d
  | .powerExitStart d => domOk d
  | .powerAckFall d => domOk d
  | .powerExitDone d => domOk d
  | .powerExitTimeout d => domOk d
  | .fltStatClear _ inst _ _ => instOk inst
  | .fltForce _ inst _ _ => instOk inst
  | .fltMaskWrite _ inst _ _ => instOk inst
  | .fltVecWrite _ inst _ _ => instOk inst
  | .cntSelWrite _ inst _ _ _ => instOk inst
  | .cntValWrite _ inst _ _ _ => instOk inst
  | .cntClr _ inst _ _ => instOk inst
  | _ => true

end Sys2Proof
end

