-- ==== Sys2Proof/Safety.lean ====
section
/-!
DEFINITION. The terms in which the statements about the block are made: what a legal state is, that a command completes, and which
components it changes.
-/

namespace Sys2Proof.Machine

/-! ## Legal states -/

/-- The bits of a stored register that a write can change (R18, R518): none where no register is stored. -/
def regMask (a : Nat) : Word := ((regSpec a).map (·.mask)).getD 0

/-- A listed register differs from its reset value, and its reserved bits are 0. -/
def ValOk (e : Nat × Word) : Prop := e.2 ≠ regReset e.1 ∧ e.2 &&& ~~~(regMask e.1) = 0

/-- The stored registers: one entry each, in rising order, every one legal; a write that waits names writable bits only. -/
structure RegsOk (r : Regs) : Prop where
  rising : tRising r.val = true
  vals : ∀ e ∈ r.val, ValOk e
  defs : ∀ d ∈ r.tickDef ++ r.cutDef, d.mask &&& ~~~(regMask d.addr) = 0

/-- A legal state of the block: its registers are legal (R18), the beat lies within the tick (R22), and every command that waits is well
formed. -/
structure Legal (s : State) : Prop where
  regs : RegsOk s.regs
  beat : s.tim.beat < 10
  wf : ∀ c ∈ s.pending, c.wf = true

/-! ## Completion -/

/-- Command `c`, given in `s`, completes and leaves `t`. -/
def Runs (c : Instr) (s t : State) : Prop := exec c s = .next t

/-- The block is READY (R484). -/
abbrev Ready (s : State) : Prop := s.glb.phase = 4

/-- Nothing is about to happen by itself: the end of cycle 0 of the beat has passed and no turn waits for its cycle (log entry 2). -/
abbrev Still (s : State) : Prop := s.tim.zero = false ∧ s.hrd.later = []

/-- With no command waiting, the next step is one cycle that brings no boundary and in which no Milk Round reads (log entry 2). -/
structure Idles (s : State) : Prop where
  pending : s.pending = []
  zero : s.tim.zero = false
  round : s.cnt.round = none
  clock : s.tim.started = true ∧ 1 < toNextBeat s ∨ s.tim.started = false ∧ s.tim.startWait = none

/-! ## The register port (R19, R498) -/

/-- A read of listed register `a` by partition `p` is permitted, all of it. -/
def CanRead (s : State) (p a : Nat) : Prop :=
  Ready s ∧ rdisForeign s p a = false ∧ ∃ c, accOf a = some c ∧ mayRead s p a c = true

/-- A write of listed register `a` by partition `p` is permitted. -/
def CanWrite (s : State) (p a : Nat) : Prop := Ready s ∧ ∃ c, accOf a = some c ∧ mayWrite s p a c = true

/-- The registers whose read does more than return them: HRD_NLOST, TIM_TODI_ST, CNT_SMP_STAT (R21), CNT_MR_LDATA (R465) and TIM_EPOCH
(R340). -/
def readClears (a : Nat) : Bool :=
  decide (pageHRD + 0x7C00 ≤ a ∧ a < pageHRD + 0x7D00) || [rTim 0xC8, pageCNT + 0x34, pageCNT + 0x14, rTim 0x80].contains a

/-! ## Frames -/

/-- The components of the state. What crossed the edge (`out`) is named in the statements themselves. -/
inductive Comp where
  | regs | glb | flt | tim | qbm | cls | tre | chn | upl | cpe | hrd | skm | pwr | cnt | tst | fresh | pending
deriving DecidableEq, Repr

/-- One component is the same in both states. -/
def Kept (s t : State) : Comp → Prop
  | .regs => t.regs = s.regs | .glb => t.glb = s.glb | .flt => t.flt = s.flt | .tim => t.tim = s.tim
  | .qbm => t.qbm = s.qbm | .cls => t.cls = s.cls | .tre => t.tre = s.tre | .chn => t.chn = s.chn
  | .upl => t.upl = s.upl | .cpe => t.cpe = s.cpe | .hrd => t.hrd = s.hrd | .skm => t.skm = s.skm
  | .pwr => t.pwr = s.pwr | .cnt => t.cnt = s.cnt | .tst => t.tst = s.tst | .fresh => t.fresh = s.fresh
  | .pending => t.pending = s.pending

/-- `t` differs from `s` in the components of the list, and in what crossed the edge, alone. -/
def Changes (l : List Comp) (s t : State) : Prop := ∀ c, c ∉ l → Kept s t c

/-- What a notice can change (R327, R445): the rings, the notice counters, the wake records. -/
abbrev noted : List Comp := [.hrd, .cnt, .pwr]

/-- What a fault record can change beside (R421 to R430): the fault sets and FAULT_OUT. -/
abbrev faulted : List Comp := [.flt, .glb, .hrd, .cnt, .pwr]

/-! ## Frames that enter a section -/

/-- Arrival `a` has entered the section of its source's home (R13, R204, R391): it is the next frame of its source, on the classifier page
of this cycle, its cells are taken where there are any (R244), and what comes next is its lookup in cycle 30, or its enqueue in cycle 54
where it is never classified (R205). `ue` is the uncorrectable table entry that it will meet (log entry 8). -/
def Entered (a : Arrive) (ue : Option Word) (s t : State) : Prop :=
  tGet 0 t.qbm.ino (inoKey a.src) = tGet 0 s.qbm.ino (inoKey a.src) + 1 ∧
  (∀ x, x ≠ inoKey a.src → tGet 0 t.qbm.ino x = tGet 0 s.qbm.ino x) ∧
  ∃ fr, (if unclassified s a
      then (s.tim.now + 54, Turn.enq (arriveHome s a) { a with page := some (a.page.getD s.cls.active), frame := fr } none) ∈ t.hrd.later
      else (s.tim.now + 30, Turn.look (arriveHome s a) { a with page := some (a.page.getD s.cls.active), frame := fr } ue) ∈ t.hrd.later) ∧
    ((allocN (secKey (arriveHome s a) a.up) (cellsFor a.bytes.length) s).isSome = true → ∃ n f, fr = some n ∧ frameOf t n = some f ∧
      f.bytes = a.bytes ∧ f.len = a.n ∧ f.src = a.src ∧ f.mark = a.mark ∧ f.stamp = a.stamp ∧ f.send = a.send ∧ f.refs = 0 ∧
      f.cells.length = cellsFor a.bytes.length) ∧
    (allocN (secKey (arriveHome s a) a.up) (cellsFor a.bytes.length) s = none → fr = none)

/-- The cause of R192 for which segmentation of frame `b` of descriptor `d` on send ring `n` is refused; 0: none. -/
def sendSegCause (s : State) (n : Nat) (d : Desc) (b : List Byte) : Nat :=
  let w := parse s (ringOf s .send n).w.side b (b.length + 4)
  segCause (sdSeg d) (sdMss d) (sdHdr d + sdExtra s n d) (ringOf s .send n).maxl (min 262144 b.length) (hdrsOf w.slots w.flags)
    (tFind 2 w.ends) b

/-! ## Commands of command rings (R322) -/

/-- The ring of partition `p` runs a command that waits for `w` (`none`: it has just been fetched), no record of it waits, its
completion queue has room and its channel can take one write at once: none waits before it, the channel is not fenced, a tag is free. -/
structure CmdReady (p : Nat) (w : Option CmdWait) (s : State) : Prop where
  runs : ringRuns (ringOf s .cmd p) = true
  recs : (ringOf s .cmd p).recs = []
  cmd : ∃ c, tFind p s.hrd.cmd = some c ∧ c.wait = w
  cq : ringRuns (ringOf s .cq (ringOf s .cmd p).w.cq) = true
  room : used (ringOf s .cq (ringOf s .cmd p).w.cq) < ringSize (ringOf s .cq (ringOf s .cmd p).w.cq)
  queue : s.hrd.wq = []
  fence : s.hrd.fenced.contains (ringOf s .cq (ringOf s .cmd p).w.cq).w.chan = false
  tag : (freeTag (wrTags s (hmpChan
    ((ringOf s .cq (ringOf s .cmd p).w.cq).w.base + 16 * (ringOf s .cq (ringOf s .cmd p).w.cq).f)))).isSome = true

/-- The command that the ring of `p` has fetched is `i`, as its words spell it (Table 10-12), and it can run at once. -/
def CmdTurn (p : BitVec 6) (i : Instr) (s : State) : Prop :=
  CmdReady p.toNat none s ∧ ∃ c, tFind p.toNat s.hrd.cmd = some c ∧ cmdOf p c.words = some i

/-- The command of partition `p` has ended: its completion record (Table 10-8), with this STATUS, CAUSE and RESULT, is written into the
slot of the completion queue that comes next. -/
def Answered (p status cause result : Nat) (s t : State) : Prop :=
  tFind p t.hrd.cmd = none ∧
    ∀ c, tFind p s.hrd.cmd = some c →
      let q := ringOf s .cq (ringOf s .cmd p).w.cq
      ∃ tag, Out.hostWrite (hmpChan (q.w.base + 16 * q.f)) tag (q.w.base + 16 * q.f) (ringOwner s .cq (ringOf s .cmd p).w.cq)
        (wordBytes (recWords { CRec.mk0 2 p status cause c.index with
          stamp := w32 result, aux := BitVec.ofNat 16 (result / 2 ^ 32), src := BitVec.ofNat 16 (result / 2 ^ 48) } q.ph)) ∈ t.out

/-- The ring of partition `p` can send the reads of its operand, of `n` bytes at `addr`, at once (R317): no read waits, its DMA channel
is not fenced and has room for them below 32, and each host-memory-port channel has a tag for each. -/
def ReadReady (p addr n : Nat) (s : State) : Prop :=
  let k := (bursts (n / 512 + 2) addr n).length
  s.hrd.rq = [] ∧ s.hrd.fenced.contains (ringOf s .cmd p).w.chan = false ∧ rdOut s (ringOf s .cmd p).w.chan + k ≤ 32 ∧
    ∀ h, (rdTags s h).length + k ≤ 512

/-- Every burst of a read of `n` bytes at `addr` has left for the host: whole 64-byte beats, in the partition's name (R317, R320). -/
def ReadsSent (p addr n : Nat) (s t : State) : Prop :=
  t.out.length = (bursts (n / 512 + 2) addr n).length ∧
    ∀ b ∈ bursts (n / 512 + 2) addr n, ∃ tag,
      Out.hostRead (hmpChan b.1) tag (b.1 / 64 * 64) (ceilDiv (b.1 % 64 + b.2) 64) p (ringOf s .cmd p).w.snoop ∈ t.out

/-- The command of partition `p` waits for `w`. -/
def Waits (p : Nat) (w : CmdWait) (t : State) : Prop := ∃ c, tFind p t.hrd.cmd = some c ∧ c.wait = some w

end Sys2Proof.Machine
end

