-- ==== Sys2Proof/Certificates/Slice0/Obligations.lean ====
section
/-!
DEFINITION. The statements about the block for the provers. `Runs c s t`: command c, given in state s, completes and leaves t;
`Changes l s t`: nothing differs but the components of l and what crossed the edge (Safety.lean).
-/

open Sys2Proof Sys2Proof.Machine

/-! ## The queue, the clock and whole-machine rules -/

/-- With a command at the front, a step is exec of that command with the queue's rest.
The queue is the model's (the row's cut). -/
def Obligations.StepRunsFront : Prop :=
  ∀ (c : Instr) (rest : List Instr) (s : State), s.pending = c :: rest → step s = exec c { s with pending := rest }

/-- The model's choice (log entry 2): with no command waiting a step is one cycle of CLK_B (R8). Within a beat of the started engine, and
before the engine has been told to start, the tick, the beat and the queue stay as they are; where nothing falls due in that cycle and no
Milk Round reads, the cycle counter goes up by one and the frames, the rings and the ports keep their state. -/
def Obligations.IdleStepIsOneCycle : Prop :=
  ∀ s : State, s.pending = [] →
    (s.tim.started = true ∧ 1 < toNextBeat s ∨ s.tim.started = false ∧ s.tim.startWait = none) →
    (RegsOk s.regs → s.tim.beat < 10 →
      ∃ t, step s = .next t ∧ t.tim.tick = s.tim.tick ∧ t.tim.beat = s.tim.beat ∧ t.tim.started = s.tim.started ∧ t.pending = []) ∧
    (Still s → s.cnt.round = none →
      ∃ t, step s = .next t ∧ t.tim.now = s.tim.now + 1 ∧ t.tim.tick = s.tim.tick ∧ t.tim.beat = s.tim.beat ∧ t.pending = [] ∧
        t.out = [] ∧ t.tim.zero = false ∧ t.glb = s.glb ∧ t.qbm = s.qbm ∧ t.tre = s.tre ∧ t.chn = s.chn ∧ t.upl = s.upl ∧
        t.cpe = s.cpe ∧ t.hrd = s.hrd ∧ t.pwr = s.pwr)

/-- Every command completes, whatever the state and the operands, and leaves the commands that wait behind it alone. -/
def Obligations.EveryCommandCompletes : Prop :=
  ∀ (c : Instr) (s : State), RegsOk s.regs → s.tim.beat < 10 → ∃ t, Runs c s t ∧ t.pending = s.pending

/-- R9, R22, R43, R339: the tick number, the beat number and the start of the engine change at a beat boundary, at the start of the engine
and in a block reset alone: no other command touches them. GLB_RST can be reached through the two general write rows. -/
def Obligations.OnlyBoundariesMoveTheTick : Prop :=
  ∀ (c : Instr) (s t : State), RegsOk s.regs → s.tim.beat < 10 → Runs c s t →
    c ≠ .beatBoundary → c ≠ .timeEngineStart → c ≠ .ppsInEdge → c ≠ .blockReset → (∀ p, c ≠ .glbRstBlock p) →
    (∀ p a be d, c ≠ .registerWrite p a be d) → (∀ p a be d, c ≠ .hiWriteCommit p a be d) →
    t.tim.tick = s.tim.tick ∧ t.tim.beat = s.tim.beat ∧ t.tim.started = s.tim.started

/-- Every step from a legal state leads to a legal state: register values keep their canonical form and their reserved bits read 0 (R18),
the beat stays within the tick (R22), and what waits in the queue stays well formed. -/
def Obligations.EveryStepKeepsLegal : Prop := ∀ s t : State, Legal s → step s = .next t → Legal t

/-- The state after reset is legal. -/
def Obligations.ResetIsLegal : Prop := Legal State.reset

/-- R480, R481, R27, R11: what a block reset leaves. The key slots are empty with GEN 0, the slices have the roles of R11, trees and ports
the homes of R27, every domain is ON, the time engine has not started, FAULT_OUT is deasserted and PPS_OUT is low. -/
def Obligations.ResetState : Prop :=
  (∀ a, reg State.reset a = regReset a) ∧
  (∀ n, (tGet Slot.empty State.reset.cpe.slot n).state = 0 ∧ (tGet Slot.empty State.reset.cpe.slot n).gen = 0) ∧
  (∀ i < 8, roleOf State.reset i = .active) ∧ roleOf State.reset 8 = .spare ∧
  (∀ t < 64, homeT State.reset t = t / 8) ∧ (∀ p < 16, homeU State.reset p = p / 2) ∧
  (∀ d < 109, domOn State.reset d = true) ∧
  State.reset.tim.started = false ∧ State.reset.glb.phase = 0 ∧ State.reset.glb.pin = .idle ∧ State.reset.tim.ppsOut = false ∧
  State.reset.pending = []

/-! ## Resets, start-up and partitions -/

/-- R481, R482: a block reset leaves the reset state (the queue and the count of free values are the model's own); GLB_RST.BLOCK has that
effect with an arming open and none with no arming open; ARM opens the arming for 1,024 cycles, and its expiry closes it.
The reset comes in the step of the write (log entry 29); that the 1,024 cycles are those that follow the write's is log entry 31. -/
def Obligations.BlockResetAndArming : Prop :=
  ∀ (s : State) (part : BitVec 6),
    Runs .blockReset s { State.reset with fresh := s.fresh, pending := s.pending } ∧
    (part = 0 → s.glb.armed = true → s.tim.now ≤ s.glb.armAt + 1024 →
      Runs (.glbRstBlock part) s { State.reset with fresh := s.fresh, pending := s.pending }) ∧
    (part = 0 → (s.glb.armed = false ∨ s.glb.armAt + 1024 < s.tim.now) → Runs (.glbRstBlock part) s { s with out := [] }) ∧
    (part = 0 → Runs (.glbRstArm part) s { s with glb := { s.glb with armed := true, armAt := s.tim.now }, out := [] }) ∧
    ((s.glb.armed = false ∨ s.glb.armAt + 1024 < s.tim.now) →
      Runs .armingExpire s { s with glb := { s.glb with armed := false }, out := [] })

/-- R485, R538: a fuse word that returns in phase 1 joins the image; before the last word the next one is requested, and the whole image
either passes its check or stops start-up (PHASE 7). R484, Table 16-2: the end of a phase of start-up leads to the next one: 0 to 1 with
the first fuse request, 1 to 2 once the image has passed, 2 to 3 with no more than one defective slice and one defective bank group, 3
to READY. R486: otherwise phase 2 ends in FAILED. -/
def Obligations.Startup : Prop :=
  (∀ (s : State) (data : Word), s.glb.phase = 1 → s.glb.fuse.length < 1024 →
    ∃ t, Runs (.fuseWordRead data) s t ∧ t.glb.fuse = data :: s.glb.fuse ∧ t.tim = s.tim ∧ t.regs = s.regs ∧ t.qbm = s.qbm ∧
      (s.glb.fuse.length < 1023 → t.out = [.fuseReq (s.glb.fuse.length + 1)] ∧ t.glb.phase = 1) ∧
      (s.glb.fuse.length = 1023 → fuseGood (data :: s.glb.fuse).reverse = true → t.glb.fuseOk = true ∧ t.glb.phase = 1) ∧
      (s.glb.fuse.length = 1023 → fuseGood (data :: s.glb.fuse).reverse = false → t.glb.phase = 7)) ∧
  (∀ (s : State) (st : SelfTest),
    (s.glb.phase = 0 → ∃ t, Runs (.startupPhaseEnd st) s t ∧ t.glb.phase = 1 ∧ Out.fuseReq 0 ∈ t.out) ∧
    (s.glb.phase = 1 → s.glb.fuseOk = true → ∃ t, Runs (.startupPhaseEnd st) s t ∧ t.glb.phase = 2) ∧
    (s.glb.phase = 2 → Still s → ∃ t, Runs (.startupPhaseEnd st) s t ∧ t.glb.phase =
      if st.memFail = none ∧ (badSlices s st).length ≤ 1 ∧ (badGroups s st).length ≤ 1 then 3 else 7) ∧
    (s.glb.phase = 3 → ∃ t, Runs (.startupPhaseEnd st) s t ∧ t.glb.phase = 4))

/-- R483: a partition reset of p drops its pending notices and its TIM_EPOCH capture, HRD_NLOST of p reads 0 and its CNT_OBJ_IDX reads 0;
one that names partition 0 changes nothing. R499, Table 16-8: partition 0 sets the owner of a tree while TRE_CFG.EN is 0; while EN is 1
the write is ignored and PRT_WREJ records its offset and reason 1. -/
def Obligations.PartitionResetAndOwner : Prop :=
  (∀ (s : State) (data : Word), Ready s →
    (fld data 0 6 ≠ 0 → ∃ t, Runs (.partitionReset 0 data) s t ∧
      tGet [] t.hrd.npend (fld data 0 6) = [] ∧ tGet 0 t.hrd.nlost (fld data 0 6) = 0 ∧ tFind (fld data 0 6) t.tim.caps = none ∧
      tGet 0 t.regs.objIdx (fld data 0 6) = 0 ∧ t.pending = s.pending) ∧
    (fld data 0 6 = 0 → Runs (.partitionReset 0 data) s { s with out := [] })) ∧
  (∀ (s : State) (tree : BitVec 6) (addr : BitVec 24) (data : Word), Ready s → addr.toNat = rPrtTree tree.toNat →
    (regB s (rTreCfg tree.toNat) 0 = false →
      ∃ t, Runs (.partitionTableWrite 0 addr 0xF data) s t ∧ treeOwner t tree.toNat = fld data 0 6 ∧ Changes [.regs, .glb] s t) ∧
    (regB s (rTreCfg tree.toNat) 0 = true →
      ∃ t, Runs (.partitionTableWrite 0 addr 0xF data) s t ∧ t.glb.wrejOfs = addr ∧ t.glb.wrejReason = 1 ∧ Changes [.glb] s t))

/-! ## The register port -/

/-- R19, R518, R487, R498: a write that is no aligned 32-bit access, or to an offset that is not listed, does nothing, and a read of such an
offset returns 0; neither is counted, and a reserved bit of a listed register reads 0. An access outside its access class is ignored,
reads 0, and counts one violation. R521: a write of UPL_MAXLEN takes effect at the next tick boundary once the engine has started, and
in the next cycle before. -/
def Obligations.PortAccesses : Prop :=
  (∀ (s : State) (part : BitVec 6) (addr : BitVec 24) (be : BitVec 4) (data : Word),
    ((addr.toNat % 4 ≠ 0 ∨ be ≠ 0xF ∨ accOf addr.toNat = none) →
      (∀ c, (c = .registerWrite part addr be data ∨ c = .hiWriteCommit part addr be data) → Runs c s { s with out := [] }) ∧
      (∀ c, (c = .loReadCapture part addr be ∨ c = .readClearRegister part addr be) → Runs c s { s with out := [.regRead 0] })) ∧
    (RegsOk s.regs → reg s addr.toNat &&& ~~~(regMask addr.toNat) = 0) ∧
    (∀ c, Ready s → accOf addr.toNat = some c → mayWrite s part.toNat addr.toNat c = false →
      ∃ t, Runs (.registerWrite part addr 0xF data) s t ∧ t.out = [] ∧
        t.cnt = (countO 1 0 part.toNat 1 s).cnt ∧ Changes [.cnt] s t) ∧
    (∀ c, Ready s → accOf addr.toNat = some c → mayRead s part.toNat addr.toNat c = false →
      ∃ t, Runs (.loReadCapture part addr 0xF) s t ∧ t.out = [.regRead 0] ∧
        t.cnt = (countO 1 0 part.toNat 1 s).cnt ∧ Changes [.cnt] s t)) ∧
  (∀ (s : State) (port : BitVec 4) (addr : BitVec 24) (data : Word), Ready s → addr.toNat = rUpl port.toNat 4 →
    (s.tim.started = false →
      ∃ t, Runs (.registerWrite 0 addr 0xF data) s t ∧ reg t addr.toNat = mergeW (reg s addr.toNat) 0x3FFF data ∧ Changes [.regs] s t) ∧
    (s.tim.started = true →
      ∃ t, Runs (.registerWrite 0 addr 0xF data) s t ∧ reg t addr.toNat = reg s addr.toNat ∧
        t.regs.tickDef = s.regs.tickDef ++ [⟨addr.toNat, 0x3FFF, data⟩] ∧ Changes [.regs] s t))

/-- R20: a read of a _LO register returns it and captures the value of its _HI register for the reading partition; the next read of _HI by
that partition returns the captured value and drops it. R20: a write to a _LO register is held until its _HI register is written, and
both halves take effect together on that write, at the register's point; with no _LO held the _HI half alone does. The _HI registers that
a counter or the time engine holds take the effect of their own rows. R21: a read of HRD_NLOST, of NEW of TIM_TODI_ST or of LOST of
CNT_SMP_STAT (R475) clears it, but for what is added in the cycle of the read (R520); a read of any other register, but for TIM_EPOCH (R340) and CNT_MR_LDATA (R465), changes nothing. -/
def Obligations.PairsAndClears : Prop :=
  (∀ (s : State) (part : BitVec 6) (addr : BitVec 24) (c : Instr), CanRead s part.toNat addr.toNat →
    (c = .loReadCapture part addr 0xF ∨ c = .readClearRegister part addr 0xF) →
    (∀ w, tFind (pkey part.toNat addr.toNat) s.regs.hiCap = some w →
      ∃ t, Runs c s t ∧ t.out = [.regRead w] ∧ tFind (pkey part.toNat addr.toNat) t.regs.hiCap = none ∧ Changes [.regs] s t) ∧
    (tFind (pkey part.toNat addr.toNat) s.regs.hiCap = none →
      (∀ hi, hiOf addr.toNat = some hi →
        ∃ t, Runs c s t ∧ t.out = [.regRead (readVal s part.toNat addr.toNat)] ∧
          tFind (pkey part.toNat hi) t.regs.hiCap = some (readVal s part.toNat hi) ∧ t.regs.val = s.regs.val ∧ Changes [.regs] s t) ∧
      (hiOf addr.toNat = none → readClears addr.toNat = false →
        Runs c s { s with out := [.regRead (readVal s part.toNat addr.toNat)] }) ∧
      (∀ q < 64, addr.toNat = pageHRD + 0x7C00 + 4 * q →
        ∃ t, Runs c s t ∧ t.out = [.regRead (w32 (tGet 0 s.hrd.nlost q + 2 ^ 32 - lostNow s q))] ∧ tGet 0 t.hrd.nlost q = lostNow s q ∧
          (s.hrd.nlostAt ≠ s.tim.now → t.out = [.regRead (w32 (tGet 0 s.hrd.nlost q))] ∧ tGet 0 t.hrd.nlost q = 0) ∧ Changes [.hrd] s t) ∧
      (addr.toNat = rTim 0xC8 →
        ∃ t, Runs c s t ∧ t.out = [.regRead (readVal s part.toNat addr.toNat)] ∧ Changes [.tim] s t ∧
          (s.tim.todiAt ≠ s.tim.now → t.tim = { s.tim with todiNew := false }) ∧
          (s.tim.todiAt = s.tim.now → t.tim.todiNew = s.tim.todiNew ∧ t.tim.todiSec = s.tim.todiSec)) ∧
      (addr.toNat = pageCNT + 0x34 → Runs c s { s with
        cnt := { s.cnt with sLost := smpLostNow s }, out := [.regRead (readVal s part.toNat addr.toNat)] }))) ∧
  (∀ (s : State) (part : BitVec 6) (lo hi : BitVec 24) (data : Word), CanWrite s part.toNat hi.toNat → hiOf lo.toNat = some hi.toNat →
    (∀ y x, regSpec lo.toNat = some y → regSpec hi.toNat = some x →
      let half := match tFind (pkey part.toNat lo.toNat) s.regs.loHeld with | some v => [(⟨lo.toNat, y.mask, v⟩ : DefWrite)] | none => []
      (x.eff = .now ∧ y.eff = .now ∨ s.tim.started = false →
        ∃ t, Runs (.hiWriteCommit part hi 0xF data) s t ∧ tFind (pkey part.toNat lo.toNat) t.regs.loHeld = none ∧
          reg t lo.toNat = withDef lo.toNat (reg s lo.toNat) half ∧ reg t hi.toNat = mergeW (reg s hi.toNat) x.mask data ∧
          (∀ a, a ≠ lo.toNat → a ≠ hi.toNat → reg t a = reg s a) ∧ Changes [.regs] s t) ∧
      (x.eff = .tick → y.eff = .tick → s.tim.started = true →
        ∃ t, Runs (.hiWriteCommit part hi 0xF data) s t ∧ tFind (pkey part.toNat lo.toNat) t.regs.loHeld = none ∧
          t.regs.val = s.regs.val ∧ t.regs.tickDef = s.regs.tickDef ++ half ++ [⟨hi.toNat, x.mask, data⟩] ∧ Changes [.regs] s t)) ∧
    (∀ dlo, CanWrite s part.toNat lo.toNat → (regSpec lo.toNat).isSome = true →
      ∃ t, Runs (.registerWrite part lo 0xF dlo) s t ∧ tFind (pkey part.toNat lo.toNat) t.regs.loHeld = some dlo ∧ t.regs.val = s.regs.val ∧
        Changes [.regs] s t)) ∧
  (∀ (s : State) (addr : BitVec 24) (data : Word), Ready s →
    (addr.toNat = rTim 0x2C → ∃ t, Runs (.timIncWrite 0 0xF data) s t ∧ Runs (.hiWriteCommit 0 addr 0xF data) s t) ∧
    (addr.toNat = rTim 0x34 → ∃ t, Runs (.timSlewWrite 0 0xF data) s t ∧ Runs (.hiWriteCommit 0 addr 0xF data) s t) ∧
    (∀ (inst : BitVec 7) (num : BitVec 4), inst.toNat ≤ 109 → addr.toNat = rCntVal inst.toNat num.toNat + 4 →
      ∃ t, Runs (.cntValWrite 0 inst num 0xF data) s t ∧ Runs (.hiWriteCommit 0 addr 0xF data) s t))

/-- R523, R243: RD of the queue window copies the queue context in force into the partition's data words. R523: WR of the classifier window
writes the data words into the selected entry of the selected page, reserved bits 0. -/
def Obligations.TableWindows : Prop :=
  (∀ (s : State) (part : BitVec 6), Ready s →
    ownsTree s part.toNat (fld (windowReg s part.toNat (pageQBM + 0x100)) 0 17 / 2048) = true →
    ∃ t, Runs (.windowRd part .qbm) s t ∧ Changes [.regs] s t ∧
      windowReg t part.toNat (pageQBM + 0x110) = (qctx s (fld (windowReg s part.toNat (pageQBM + 0x100)) 0 17)).w0 ∧
      windowReg t part.toNat (pageQBM + 0x114) = (qctx s (fld (windowReg s part.toNat (pageQBM + 0x100)) 0 17)).w1 ∧
      windowReg t part.toNat (pageQBM + 0x118) = (qctx s (fld (windowReg s part.toNat (pageQBM + 0x100)) 0 17)).w2 ∧
      windowReg t part.toNat (pageQBM + 0x11C) = (qctx s (fld (windowReg s part.toNat (pageQBM + 0x100)) 0 17)).w3) ∧
  (∀ (s : State) (page up : Bool) (tbl e : Nat), Ready s → clsSel s 0 = some (page, up, tbl, e) →
    ∃ t, Runs (.windowWr 0 .cls) s t ∧
      tGet (clsZero tbl) t.cls.tbl (clsKey page up tbl e) =
        (List.range (tblWords tbl)).map (fun i => ((List.range 32).map fun j => windowReg s 0 (pageCLS + 0x100 + 4 * j)).getD i 0 &&& tblMask tbl i) ∧
      t.regs = s.regs ∧ t.qbm = s.qbm ∧ t.hrd = s.hrd ∧ t.tim = s.tim)

/-! ## Beats, the report cut-off, the Churn's passes -/

/-- R9, R22: a beat boundary of the started engine begins the next beat, and after beat 9 beat 0 of the next tick; before the engine has
started there are no beats.
That the boundary comes with its own command, or with the cycle before it, is the model's choice (log entry 2). -/
def Obligations.BeatBoundary : Prop :=
  ∀ s : State,
    (s.tim.started = false → Runs .beatBoundary s { s with out := [] }) ∧
    (s.tim.started = true → RegsOk s.regs → s.tim.beat < 10 →
      ∃ t, Runs .beatBoundary s t ∧ t.tim.started = true ∧ t.pending = s.pending ∧
        (s.tim.beat < 9 → t.tim.tick = s.tim.tick ∧ t.tim.beat = s.tim.beat + 1) ∧
        (s.tim.beat = 9 → t.tim.tick = (s.tim.tick + 1) % 2 ^ 48 ∧ t.tim.beat = 0))

/-- R396: the commit of a selection whose tokens and messages are all still queued stages its TUs for its beat and ends the selection; every
token it took has left its queue, which logs the start. A tree with no selection that waits commits nothing. In cycle 0 of a beat the selection
itself comes first (R33, log entry 2). -/
def Obligations.SelectionCommit : Prop :=
  ∀ (s : State) (tree : BitVec 6), s.tim.zero = false →
    (tFind tree.toNat s.qbm.sel = none → Runs (.selectionCommit tree) s { s with out := [] }) ∧
    (∀ x, tFind tree.toNat s.qbm.sel = some x →
      ∃ t, Runs (.selectionCommit tree) s t ∧ tFind tree.toNat t.qbm.sel = none ∧
        (∀ e ∈ x.taken, ∀ k ∈ queueOf t e.1, k.seq ≠ e.2.seq ∨ ∀ j ∈ queueOf s e.1, j.seq ≠ e.2.seq) ∧
        ((∀ e ∈ x.taken, ∃ k ∈ queueOf s e.1, k.seq = e.2.seq) → (∀ e ∈ x.tmms, e.1 ∈ (treOf s tree.toNat).tmmq) →
          tFind x.beat (treOf t tree.toNat).stage = some x.tus ∧ (treOf t tree.toNat).cont = x.cont) ∧
        Changes [.qbm, .tre, .hrd, .cnt, .fresh] s t)

/-- R50, R154: the report cut-off passes at the end of cycle 15,625, cycle 0 of beat 1: the register writes that wait for it take effect, in
their order, the ones that wait for the tick boundary stay, and an allocation set for the cut-off is in its table. In any other cycle, and
before the engine has started, the command does nothing. That it does nothing there is the model's choice (log entry 2). -/
def Obligations.ReportCutoff : Prop :=
  ∀ s : State,
    ((s.tim.started = false ∨ s.tim.beat ≠ 1 ∨ s.tim.zero = false) → Runs .reportCutoff s { s with out := [] }) ∧
    (s.tim.started = true → s.tim.beat = 1 → s.tim.zero = true → s.tim.cutDone = false → RegsOk s.regs →
      ∃ t, Runs .reportCutoff s t ∧ t.tim.cutDone = true ∧ t.tim.zero = false ∧ t.tim.tick = s.tim.tick ∧ t.tim.beat = 1 ∧
        t.regs.cutDef = [] ∧ t.regs.tickDef = s.regs.tickDef ∧ (s.regs.cutDef = [] → t.regs = s.regs) ∧ t.pending = s.pending ∧
        (∀ a, reg t a = withDef a (reg s a) s.regs.cutDef) ∧
        (s.tre = [] → t.cpe = s.cpe ∧ t.tst = s.tst ∧
          (imagesFor s (s.tim.tick + 1) = [] → ∀ tree < 64, ∀ h w, (chnOf s tree).allocPend = [(h, w)] →
            tGet W4.zero (chnOf t tree).alloc h = w ∧ (chnOf t tree).allocPend = [])))

/-- R136, R138 to R141: pass 1 of a tree whose Churn runs, after the cut-off and in its cycle, leaves the levels of the next map for pass 2.
R81, R145, R146:
pass 2 writes the map of the next tick into the standby page and then its count, at most 4,096 entries, and says that it is done; what
it wrote is kept for the reception of that tick. R81, R82: in cycle 1 the count of the standby burst-map page of a tree goes to 0; of a
tree that is not running the empty map is then complete. -/
def Obligations.ChurnPasses : Prop :=
  (∀ (s : State) (tree : BitVec 6), churnRuns s tree.toNat = true → s.tim.cutDone = true → pass1At s tree.toNat ≤ cyc s →
    ∃ t, Runs (.churnPass1 tree) s t ∧ ((chnOf t tree.toNat).pass.map (·.levels.length)) = some 4 ∧
      (∀ u, u ≠ tree.toNat → chnOf t u = chnOf s u) ∧ Changes (.chn :: faulted) s t) ∧
  (∀ (s : State) (tree : BitVec 6), churnRuns s tree.toNat = true → (chnOf s tree.toNat).pass.isSome = true →
    pass2At s tree.toNat ≤ cyc s → domOn s (domTP tree.toNat) = true → (treOf s tree.toNat).mapNone = false →
    ∃ t, Runs (.churnPass2 tree) s t ∧ (chnOf t tree.toNat).pass = none ∧ (treOf t tree.toNat).mapDone = true ∧
      (treOf t tree.toNat).mapCnt = (treOf t tree.toNat).map.length ∧ (treOf t tree.toNat).mapCnt ≤ 4096 ∧
      tFind (s.tim.tick + 1) (treOf t tree.toNat).grants = some (treOf t tree.toNat).map ∧
      t.out.getLast? = some (.mapDone tree.toNat) ∧ Changes [.chn, .tre, .cnt] s t) ∧
  (∀ (s : State) (tree : BitVec 6), domOn s (domTP tree.toNat) = true → cyc s = 1 →
    ∃ t, Runs (.mapCountReset tree) s t ∧ (treOf t tree.toNat).map = [] ∧ (treOf t tree.toNat).mapCnt = 0 ∧
      Out.mapCount tree.toNat 0 ∈ t.out ∧
      ((treOf s tree.toNat).run = true → (treOf t tree.toNat).mapDone = false) ∧
      ((treOf s tree.toNat).run = false → (treOf t tree.toNat).mapDone = true ∧ Out.mapDone tree.toNat ∈ t.out) ∧
      (∀ u, u ≠ tree.toNat → treOf t u = treOf s u) ∧ Changes [.tre] s t)

/-- R147: passes that are not complete by cycle 124,999 are given up, with PASS_LATE (CHN source 0) of the tree's home slice. R361: the
reference point of the next tick is projected in cycle 156,186: with no slew, step or restart, and no rate written in that cycle, it is what
the counter reads in cycle 0. -/
def Obligations.PassLateAndProjection : Prop :=
  (∀ (s : State) (tree : BitVec 6), churnRuns s tree.toNat = true → (treOf s tree.toNat).mapDone = false →
    (treOf s tree.toNat).mapNone = false → domOn s (domTP tree.toNat) = true → 124999 ≤ cyc s →
    ∃ t, Runs (.passLate tree) s t ∧ (chnOf t tree.toNat).pass = none ∧ bit (fltOf t (iCHN (homeT s tree.toNat))).st 0 = true ∧
      Changes (.chn :: faulted) s t) ∧
  (∀ s : State, s.tim.started = true → 156186 ≤ cyc s →
    ∃ t, Runs .timeProjection s t ∧ t.tim.proj.isSome = true ∧
      (s.tim.slew = 0 → s.tim.stepPend = none → s.tim.restart ≠ some false → cyc s ≤ 156250 → oldRate s = none →
        t.tim.proj = some (s.tim.time + (156250 - cyc s) * s.tim.inc)) ∧
      t.tim = { s.tim with proj := t.tim.proj } ∧ Changes [.tim] s t)

/-! ## Tree port -/

/-- R90, R91, R94: each request of the engine takes the next downstream block, in order; the aligned SOT takes block 0 of the next tick, a
tick block that names the tree and the tick. A tree that does not emit then answers idle blocks. -/
def Obligations.DownstreamBlocks : Prop :=
  ∀ (s : State) (tree ph : BitVec 6), vqOf s tree.toNat = none → domOn s (domTP tree.toNat) = true → loopT s tree.toNat = 0 →
    (s.tim.started = true → cyc s = 156246 →
      ∃ t b, Runs (.dsBlockRequest tree true ph) s t ∧ t.out = [.dsBlock tree.toNat 0 b] ∧
        (treOf t tree.toNat).dsTick = s.tim.tick + 1 ∧ (treOf t tree.toNat).dsBlk = 1 ∧ (treOf t tree.toNat).trefNext.isSome = true ∧
        (emits s tree.toNat (10 * (s.tim.tick + 1)) = true →
          nfld b.toNat 118 6 = tree.toNat ∧ nfld b.toNat 48 48 = (s.tim.tick + 1) % 2 ^ 48) ∧
        (emits s tree.toNat (10 * (s.tim.tick + 1)) = false → b = idleBlock) ∧
        (∀ u, u ≠ tree.toNat → treOf t u = treOf s u) ∧ Changes [.tre, .cnt] s t) ∧
    ∃ t b, Runs (.dsBlockRequest tree false ph) s t ∧ t.out = [.dsBlock tree.toNat (treOf s tree.toNat).dsBlk b] ∧
      ((treOf s tree.toNat).dsBlk + 1 < blksPerTick s tree.toNat →
        (treOf t tree.toNat).dsTick = (treOf s tree.toNat).dsTick ∧ (treOf t tree.toNat).dsBlk = (treOf s tree.toNat).dsBlk + 1) ∧
      (blksPerTick s tree.toNat ≤ (treOf s tree.toNat).dsBlk + 1 →
        (treOf t tree.toNat).dsTick = (treOf s tree.toNat).dsTick + 1 ∧ (treOf t tree.toNat).dsBlk = 0) ∧
      Changes [.tre, .hrd, .cnt] s t

/-- R78, R103, R112, R123: a burst whose header fails its check is dropped and counted; one whose header comes within the acceptance window of
its grant, of a tracked terminal, sets that terminal's miss count to 0 and marks the grant heard. R78, R112: a grant at which no header was accepted counts one
missed burst of a tracked terminal, once. -/
def Obligations.UpstreamBursts : Prop :=
  (∀ (s : State) (tree ph : BitVec 6) (utick : BitVec 48) (sob : Int) (blk : BitVec 17) (b : UsBlock),
    vqOf s tree.toNat = none → loopT s tree.toNat = 0 → treLive s tree.toNat = true →
    (∀ h rest, grantAt s tree.toNat utick.toNat blk.toNat = some h → headGood b = false →
      ∃ t, Runs (.upstreamBurst tree utick sob ph blk (b :: rest)) s t ∧ t.out = [] ∧ (treOf t tree.toNat).ctx = (treOf s tree.toNat).ctx ∧
        Changes [.tre, .chn, .cnt] s t) ∧
    (∀ (e : MapEnt) (tid m : Nat), grantAt s tree.toNat utick.toNat blk.toNat = some ⟨.data, m, [e]⟩ → e.bs = true → headGood b = true →
      nfld b.data.toNat 108 4 = 3 → nfld b.data.toNat 112 6 = tree.toNat → nfld b.data.toNat 80 16 = m % 2 ^ 16 →
      nfld b.data.toNat 64 12 = e.hnd → nfld b.data.toNat 118 10 = tid → entOwner s tree.toNat e = tid → nfld b.data.toNat 105 3 = e.rpt →
      tracked (ctxOf s tree.toNat tid).state = true →
      accepts s tree.toNat (ctxOf s tree.toNat tid) (arrivalOf s tree.toNat utick.toNat m sob ph.toNat
        - (blkSteps s tree.toNat * (e.start + guardBlk s tree.toNat + preBlk s tree.toNat) : Nat)) = true →
      ∃ t, Runs (.upstreamBurst tree utick sob ph blk [b]) s t ∧ (ctxOf t tree.toNat tid).miss = 0 ∧
        (∀ g y, (m, g) ∈ (treOf t tree.toNat).grants → y ∈ g → y.bs = true → y.start = e.start → y.seen = true) ∧
        t.regs = s.regs ∧ t.qbm = s.qbm ∧ t.cpe = s.cpe ∧ t.pending = s.pending)) ∧
  (∀ (s : State) (tree : BitVec 6) (utick : BitVec 48) (blk : BitVec 17) (e : MapEnt), treLive s tree.toNat = true →
    tFind utick.toNat (treOf s tree.toNat).grants = some [e] → e.bs = true → e.disc = false → e.seen = false → e.start = blk.toNat →
    tracked (ctxOf s tree.toNat (entOwner s tree.toNat e)).state = true →
    ∃ t, Runs (.missedBurst tree utick blk) s t ∧
      (ctxOf t tree.toNat (entOwner s tree.toNat e)).miss = (ctxOf s tree.toNat (entOwner s tree.toNat e)).miss + 1 ∧
      (∀ i, i ≠ entOwner s tree.toNat e → ctxOf t tree.toNat i = ctxOf s tree.toNat i) ∧
      (∀ u, u ≠ tree.toNat → treOf t u = treOf s u) ∧ t.out = [] ∧ Changes [.tre, .cnt] s t ∧
      ∃ u, Runs (.missedBurst tree utick blk) t u ∧ ctxOf u tree.toNat = ctxOf t tree.toNat)

/-- R85, R87, R425: a message that is not acknowledged in time is sent again, three times at most; then it is given up and its terminal, if
Ranged, Keyed, Active or Quiet, is lost; of a fenced tree nothing is. A message that waited for a place gets one of those that the last
report cut-off found free (tmmDue), and while it found none it waits on. -/
def Obligations.TmmRepeats : Prop :=
  ∀ (s : State) (tree : BitVec 6) (m : Tmm),
    ((treOf s tree.toNat).fenced = true → Runs (.tmmAckTimeout tree m.seq) s { s with out := [] }) ∧
    ((treOf s tree.toNat).tmmOut = [m] → m.acked = true → s.tim.cutDone = true → m.sent + 4 ≤ s.tim.tick → m.reps < 3 →
      (treOf s tree.toNat).fenced = false →
      ∃ t, Runs (.tmmAckTimeout tree m.seq) s t ∧ (treOf t tree.toNat).tmmOut = [] ∧
        { m with reps := m.reps + 1, cmd := false } ∈ (treOf t tree.toNat).tmmq ++ (treOf t tree.toNat).tmmPend ∧
        (treOf t tree.toNat).ctx = (treOf s tree.toNat).ctx ∧ (∀ u, u ≠ tree.toNat → treOf t u = treOf s u) ∧
        Changes [.tre, .pwr, .cnt] s t) ∧
    ((treOf s tree.toNat).tmmOut = [m] → m.acked = true → s.tim.cutDone = true → m.sent + 4 ≤ s.tim.tick → 3 ≤ m.reps →
      (treOf s tree.toNat).fenced = false → (tracked (ctxOf s tree.toNat m.tgt).state = true ∨ (ctxOf s tree.toNat m.tgt).state = .quiet) →
      ∃ t, Runs (.tmmAckTimeout tree m.seq) s t ∧ (treOf t tree.toNat).tmmOut = [] ∧
        (ctxOf t tree.toNat m.tgt).state = .lost ∧ (ctxOf t tree.toNat m.tgt).lostTick = s.tim.tick ∧
        (∀ i, i ≠ m.tgt → ctxOf t tree.toNat i = ctxOf s tree.toNat i) ∧ Changes (.tre :: noted) s t) ∧
    (∀ l, (treOf s tree.toNat).tmmPend = m :: l → 0 < (treOf s tree.toNat).tmmDue →
      ∃ t, Runs (.tmmPendingQueued tree) s t ∧ (treOf t tree.toNat).tmmq = (treOf s tree.toNat).tmmq ++ [m] ∧
        (treOf t tree.toNat).tmmPend = l ∧ Changes [.tre, .pwr] s t) ∧
    ((treOf s tree.toNat).tmmDue = 0 → Runs (.tmmPendingQueued tree) s { s with out := [] })

/-- R71, R110, R117, R153, R425: what age ends in a tree port: an open reassembly after 8 ticks without a fragment, a heard-list entry at its AGE, a
terminal's stay in Lost after HOLD ticks, and a Released terminal, at a tick boundary, once its queues are empty and its keys erased; in a fenced
tree none of the last three. -/
def Obligations.TreeAgeing : Prop :=
  ∀ (s : State) (tree : BitVec 6),
    (∀ hnd : BitVec 12, (reasmOf s tree.toNat hnd.toNat).isOpen = true → (reasmOf s tree.toNat hnd.toNat).tick + 8 ≤ s.tim.tick →
      ∃ t, Runs (.reassemblyTimeout tree hnd) s t ∧ (reasmOf t tree.toNat hnd.toNat).isOpen = false ∧
        (reasmOf t tree.toNat hnd.toNat).bytes = [] ∧ (∀ h, h ≠ hnd.toNat → reasmOf t tree.toNat h = reasmOf s tree.toNat h) ∧
        Changes [.tre, .cnt] s t) ∧
    ((treOf s tree.toNat).fenced = true → ∀ (serial : BitVec 64) (tid : BitVec 10),
      Runs (.heardEntryExpire tree serial) s { s with out := [] } ∧ Runs (.lostHoldExpire tree tid) s { s with out := [] } ∧
      Runs (.terminalIdFree tree tid) s { s with out := [] }) ∧
    ((treOf s tree.toNat).fenced = false → ∀ serial : BitVec 64, ∃ t, Runs (.heardEntryExpire tree serial) s t ∧
      (∀ a, a ∈ (treOf t tree.toNat).heard ↔
        a ∈ (treOf s tree.toNat).heard ∧ ¬(a.serial = serial ∧ a.tick + treF s tree.toNat 0x1C 22 8 ≤ s.tim.tick)) ∧
      (treOf t tree.toNat).ctx = (treOf s tree.toNat).ctx ∧ Changes [.tre] s t) ∧
    (∀ tid : BitVec 10, (treOf s tree.toNat).fenced = false → (ctxOf s tree.toNat tid.toNat).state = .lost →
      (ctxOf s tree.toNat tid.toNat).lostTick + treF s tree.toNat 0x1C 2 20 ≤ s.tim.tick → s.tim.cutDone = true →
      ∃ t, Runs (.lostHoldExpire tree tid) s t ∧ (ctxOf t tree.toNat tid.toNat).state = .released ∧
        t.regs = s.regs ∧ t.cpe = s.cpe ∧ t.tst = s.tst ∧ t.pending = s.pending) ∧
    (∀ tid : BitVec 10, (treOf s tree.toNat).fenced = false → cyc s = 0 → (ctxOf s tree.toNat tid.toNat).state = .released → queuesEmpty s tree.toNat tid.toNat = true →
      (slotOf s (slotNo tree.toNat tid.toNat 1)).state = 0 → (slotOf s (slotNo tree.toNat tid.toNat 2)).state = 0 →
      ∃ t, Runs (.terminalIdFree tree tid) s t ∧ ctxOf t tree.toNat tid.toNat = Ctx.unknown ∧
        (∀ i, i ≠ tid.toNat → ctxOf t tree.toNat i = ctxOf s tree.toNat i) ∧ Changes [.tre, .chn, .pwr, .cnt] s t)

/-- R95, R96: a protection request that the tree's mode allows and that no request of equal or greater priority precedes is acknowledged and
held for the first tick, two or more ahead, whose low 8 bits are SWAT. -/
def Obligations.ProtectionRequest : Prop :=
  ∀ (s : State) (tree : BitVec 6) (code : BitVec 3) (swAt : BitVec 8), domOn s (domTP tree.toNat) = true → vqOf s tree.toNat = none →
    (treF s tree.toNat 0x30 0 2 = 1 ∨ treF s tree.toNat 0x30 0 2 = 2) → code.toNat ≤ 5 → (treOf s tree.toNat).lockout = false →
    (treOf s tree.toNat).forced = false → (treOf s tree.toNat).psw = none →
    ∃ t m, Runs (.pswRequest tree code swAt) s t ∧ t.out = [.pswAck tree.toNat] ∧
      (treOf t tree.toNat).psw = some ⟨code.toNat, m, pswSel (treOf s tree.toNat) code.toNat⟩ ∧
      m % 256 = swAt.toNat ∧ s.tim.tick + 2 ≤ m ∧ m < s.tim.tick + 258 ∧
      (treOf t tree.toNat).sel = (treOf s tree.toNat).sel ∧ (∀ u, u ≠ tree.toNat → treOf t u = treOf s u) ∧ Changes [.tre, .cnt] s t

/-- R63, R104, R106: EN written 1 lets the tree start at the next tick boundary, or, where the reach check fails, reads 0 with the TRE fault
2; EN written 0 stops it. A partition that does not own the tree changes nothing. R117: the serial of TRE_TPL is pre-listed on the
context that TRE_TSEL names, while that is Unknown, and taken off it again. -/
def Obligations.TreeEnable : Prop :=
  (∀ (s : State) (part tree : BitVec 6) (data : Word), Ready s →
    (ownsTree s part.toNat tree.toNat = false → ∃ t, Runs (.treeEnableWrite part tree 0xF data) s t ∧ Changes [.cnt] s t) ∧
    (ownsTree s part.toNat tree.toNat = true → s.tim.started = true →
      (bit data 0 = true → regB s (rTreCfg tree.toNat) 0 = false → reachOk s tree.toNat = true →
        ∃ t, Runs (.treeEnableWrite part tree 0xF data) s t ∧ regB t (rTreCfg tree.toNat) 0 = true ∧
          (treOf t tree.toNat).startPend = true ∧ (∀ u, u ≠ tree.toNat → treOf t u = treOf s u) ∧ Changes [.regs, .tre] s t) ∧
      (bit data 0 = true → regB s (rTreCfg tree.toNat) 0 = false → reachOk s tree.toNat = false →
        ∃ t, Runs (.treeEnableWrite part tree 0xF data) s t ∧ regB t (rTreCfg tree.toNat) 0 = false ∧
          bit (fltOf t (iTRE tree.toNat)).st 2 = true ∧ t.tre = s.tre ∧ Changes (.regs :: faulted) s t) ∧
      (bit data 0 = false → regB s (rTreCfg tree.toNat) 0 = true →
        ∃ t, Runs (.treeEnableWrite part tree 0xF data) s t ∧ regB t (rTreCfg tree.toNat) 0 = false ∧
          (treOf t tree.toNat).run = false ∧ (treOf t tree.toNat).tmmq = [] ∧ (treOf t tree.toNat).ctx = (treOf s tree.toNat).ctx ∧
          t.cpe = s.cpe ∧ t.tim.tick = s.tim.tick ∧ t.pending = s.pending))) ∧
  (∀ (s : State) (part tree : BitVec 6), Ready s → ownsTree s part.toNat tree.toNat = true → treF s tree.toNat 0x80 0 10 ≠ 0 →
    (ctxOf s tree.toNat (treF s tree.toNat 0x80 0 10)).state = .unknown →
    (∃ t, Runs (.prelistSet part tree) s t ∧
      (tFind (treF s tree.toNat 0x80 0 10) (treOf t tree.toNat).pre).map (·.toNat) =
        some ((reg s (rTre tree.toNat 0x84)).toNat + 2 ^ 32 * (reg s (rTre tree.toNat 0x88)).toNat) ∧
      (∀ i, i ≠ treF s tree.toNat 0x80 0 10 → tFind i (treOf t tree.toNat).pre = tFind i (treOf s tree.toNat).pre) ∧ Changes [.tre] s t) ∧
    (∃ t, Runs (.prelistClr part tree) s t ∧ tFind (treF s tree.toNat 0x80 0 10) (treOf t tree.toNat).pre = none ∧
      (∀ i, i ≠ treF s tree.toNat 0x80 0 10 → tFind i (treOf t tree.toNat).pre = tFind i (treOf s tree.toNat).pre) ∧ Changes [.tre] s t))

/-! ## Uplink ports -/

/-- R13, R163, R165, R175, R204, R244, R389, R391, R403: a frame that a port's receive path takes enters the section of the port's home as the next
frame of that source, cut to MAXLEN, marked and stamped; where few cells are free it is discarded, and while the home is being handed over it
is held. A piece shorter than 18 bytes, a frame at a port that carries no traffic, and a frame that finds no lane slot at a port survivor are
counted alone; a port that is not ON, the second of a pair and a port under an internal loop receive nothing. At its enqueue, 54 cycles after its
start, a frame for an uplink queue with room for it joins that queue.
That a frame finds no lane slot is an operand (the model's choice, log entry 8). -/
def Obligations.UplinkReceive : Prop :=
  (∀ (s : State) (port : BitVec 4) (bytes : List Byte) (rxErr full : Bool) (ph : BitVec 6) (ue : Option Word),
    (domOn s (domUP port.toNat) = false ∨ isSecond s port.toNat = true →
      Runs (.uplinkFrameReceive port bytes rxErr full ph ue) s { s with out := [] }) ∧
    (domOn s (domUP port.toNat) = true → isSecond s port.toNat = false →
      ((uplOpen s port.toNat = false ∨ loopU s port.toNat = 2) →
        ∃ t, Runs (.uplinkFrameReceive port bytes rxErr full ph ue) s t ∧ t.out = [] ∧ Changes [.cnt] s t) ∧
      (uplOpen s port.toNat = true → loopU s port.toNat = 3 → Runs (.uplinkFrameReceive port bytes rxErr full ph ue) s { s with out := [] }) ∧
      (uplOpen s port.toNat = true → loopU s port.toNat = 0 →
        (bytes.length < 18 → ∃ t, Runs (.uplinkFrameReceive port bytes rxErr full ph ue) s t ∧ t.out = [] ∧ Changes [.cnt] s t) ∧
        (∀ a : Arrive, a.up = false → a.src = ⟨0, port.toNat⟩ → a.bytes = bytes.take (uplMaxlen s port.toNat) → a.n = bytes.length →
          a.mark = markOf (uplMaxlen s port.toNat) bytes.length a.bytes rxErr →
          a.stamp = addTime s.tim.time (steps s ph.toNat - ofs16 (reg s (rUpl port.toNat 0x20))) → a.tid = 0 → a.hnd = 0 →
          a.maxlen = uplMaxlen s port.toNat → a.lenField = lenFieldOf s a.src bytes.length → a.lenKnown = lenKnownOf s a.src bytes.length →
          a.looped = false → a.send = none → a.part = none →
          a.last = s.tim.now + (if bytes.length ≤ 64 then 0 else ceilDiv bytes.length (uplBytes s port.toNat) - 1) →
          a.page = none → a.frame = none → a.again = false → 18 ≤ bytes.length → etherType a.bytes ≠ 0x8808 →
          ((full && portSurvivor s (homeU s port.toNat)) = true →
            ∃ t, Runs (.uplinkFrameReceive port bytes rxErr full ph ue) s t ∧ t.out = [] ∧ Changes [.hrd, .cnt] s t) ∧
          ((full && portSurvivor s (homeU s port.toNat)) = false →
            (handingFrom s (homeU s port.toNat) = false → bufFull s = false →
              ∃ t, Runs (.uplinkFrameReceive port bytes rxErr full ph ue) s t ∧ Entered a ue s t ∧
                Changes [.flt, .glb, .qbm, .upl, .hrd, .skm, .pwr, .cnt] s t) ∧
            (handingFrom s (homeU s port.toNat) = false → bufFull s = true →
              ∃ t, Runs (.uplinkFrameReceive port bytes rxErr full ph ue) s t ∧ t.out = [] ∧ Changes [.hrd, .skm, .cnt] s t) ∧
            (handingFrom s (homeU s port.toNat) = true →
              ∃ t, Runs (.uplinkFrameReceive port bytes rxErr full ph ue) s t ∧ t.out = [] ∧
                (∀ h ∈ s.skm.ho, h.failed = homeU s port.toNat → h.live = false →
                  ∃ g ∈ t.skm.ho, g.failed = h.failed ∧ g.held = h.held ++ [{ a with page := some s.cls.active }]) ∧
                Changes [.hrd, .skm, .cnt] s t)))))) ∧
  (∀ (s : State) (i n q part : Nat) (a : Arrive) (r : CRes) (f : Frame), Idles s →
    s.hrd.later = [(s.tim.now + 1, .enq i a (some r))] → a.frame = some n → frameOf s n = some f →
    f.refs = 0 → f.inS = false → f.prov = 0 → a.mark = .good → f.mark = .good → a.lenKnown = true → a.last ≤ s.tim.now → r.l4drop = false →
    r.queues = [(q, part)] → 131072 ≤ q → q < 131200 → homeless s q = false → released s q = false →
    chgOf s q + cellsFor a.bytes.length ≤ (qLimits s q).1 → chgOf s q + cellsFor a.bytes.length ≤ (qLimits s q).2 →
    ∃ t k g, step s = .next t ∧ queueOf t q = queueOf s q ++ [k] ∧ k.frame = n ∧ k.part = part ∧ k.seq = tGet 0 s.qbm.seqNo q ∧
      k.at_ = s.tim.now + 1 ∧ (∀ p, p ≠ q → queueOf t p = queueOf s p) ∧ frameOf t n = some g ∧ g.refs = 1 ∧ g.bytes = f.bytes ∧
      g.cells = f.cells ∧ (∀ m, m ≠ n → frameOf t m = frameOf s m) ∧ t.tim.now = s.tim.now + 1)

/-- R179 to R182: an intact pause frame sets the port's timer to its quanta from its last byte, 0 quanta clear it; a priority pause frame
does so for each priority it enables; neither enters a queue. A timer that runs out is cleared. R184: half of TX_QUANTA after its last
frame a whole-port XOFF that still holds is announced again, in a frame of 64 bytes to 01-80-C2-00-00-01 with opcode 1 and TX_QUANTA. -/
def Obligations.PauseTimers : Prop :=
  (∀ (s : State) (port : BitVec 4) (b : List Byte), domOn s (domUP port.toNat) = true → isSecond s port.toNat = false →
    uplOpen s port.toNat = true → loopU s port.toNat = 0 → b.length = 64 → 64 ≤ uplMaxlen s port.toNat → b.drop 60 = fcsOf (b.take 60) →
    beAt b 0 6 = 0x0180C2000001 → beAt b 12 2 = 0x8808 →
    (uplF s port.toNat 0x10 0 2 = 1 → beAt b 14 2 = 1 →
      ∃ t, Runs (.pauseReceive port b false) s t ∧ t.out = [] ∧ Changes [.upl, .hrd, .cnt] s t ∧
        (∀ p, p ≠ port.toNat → uplOf t p = uplOf s p) ∧ (uplOf t port.toNat).pfc = (uplOf s port.toNat).pfc ∧
        (beAt b 16 2 = 0 → (uplOf t port.toNat).pause = none) ∧
        (beAt b 16 2 ≠ 0 → (uplOf t port.toNat).pause = some (s.tim.now + quantaCyc s port.toNat (beAt b 16 2))) ∧
        ((uplOf t port.toNat).pause.isSome = true → ∀ (prio : BitVec 3) (u : State),
          u = { t with tim := { t.tim with now := s.tim.now + quantaCyc s port.toNat (beAt b 16 2) } } →
          ∃ v, Runs (.pauseTimerExpire port prio) u v ∧ (uplOf v port.toNat).pause = none ∧ Changes [.upl] u v)) ∧
    (uplF s port.toNat 0x10 0 2 = 2 → beAt b 14 2 = 0x101 →
      ∃ t, Runs (.pfcReceive port b false) s t ∧ t.out = [] ∧ Changes [.upl, .hrd, .cnt] s t ∧
        (uplOf t port.toNat).pause = (uplOf s port.toNat).pause ∧
        ∀ i < 8, ((byteAt b 17).testBit i = false → tGet 0 (uplOf t port.toNat).pfc i = tGet 0 (uplOf s port.toNat).pfc i) ∧
          ((byteAt b 17).testBit i = true → beAt b (18 + 2 * i) 2 = 0 → tGet 0 (uplOf t port.toNat).pfc i = 0) ∧
          ((byteAt b 17).testBit i = true → beAt b (18 + 2 * i) 2 ≠ 0 →
            tGet 0 (uplOf t port.toNat).pfc i = s.tim.now + quantaCyc s port.toNat (beAt b (18 + 2 * i) 2) + 1))) ∧
  (∀ (s : State) (port : BitVec 4), portSends s port.toNat = true → loopU s port.toNat = 0 → uplF s port.toNat 0x10 0 2 = 1 →
    regB s (rUpl port.toNat 0x10) 2 = true → (fcWant s port.toNat).toNat.testBit 0 = true →
    (uplOf s port.toNat).fcSent = 1 → (uplOf s port.toNat).busy ≤ s.tim.now →
    tGet 0 (uplOf s port.toNat).fcAt 0 - 1 + quantaCyc s port.toNat (uplF s port.toNat 0x10 8 16 / 2) ≤ s.tim.now →
    ∃ t b, Runs (.fcResend port) s t ∧ t.out = [.upeTx port.toNat b false] ∧ b.length = 64 ∧ beAt b 0 6 = 0x0180C2000001 ∧
      beAt b 12 2 = 0x8808 ∧ beAt b 14 2 = 1 ∧ beAt b 16 2 = uplF s port.toNat 0x10 8 16 ∧ b.drop 60 = fcsOf (b.take 60) ∧
      tGet 0 (uplOf t port.toNat).fcAt 0 = s.tim.now + 1 ∧ (∀ p, p ≠ port.toNat → uplOf t p = uplOf s p) ∧ Changes [.upl, .cnt] s t)

/-- R175, R176, R198: a link that falls discards what waits in the port's egress queues and leaves a group member out until it rejoins; a link
that rises carries again; REJOIN takes effect at the next tick boundary, and before the engine starts at once; EN and PAIR take effect at
once, PAIR on an even port as EN rises. -/
def Obligations.PortLinkAndEnable : Prop :=
  ∀ (s : State) (port : BitVec 4) (part : BitVec 6) (data : Word),
    (isSecond s port.toNat = false → loopU s port.toNat ≠ 3 →
      ∃ t, Runs (.linkDown port) s t ∧ (uplOf t port.toNat).link = false ∧ (∀ i < 8, queueOf t (131072 + 8 * port.toNat + i) = []) ∧
        (regB s (rUpl port.toNat 0x18) 0 = true → (uplOf t port.toNat).rejoin = true) ∧
        Changes (.qbm :: .upl :: .fresh :: faulted) s t) ∧
    (isSecond s port.toNat = false →
      ∃ t, Runs (.linkUp port) s t ∧ uplOf t port.toNat = { uplOf s port.toNat with link := true } ∧
        (∀ p, p ≠ port.toNat → uplOf t p = uplOf s p) ∧ t.out = [] ∧ Changes [.upl] s t) ∧
    (Ready s → part = 0 →
      ∃ t, Runs (.lagRejoin part port) s t ∧ (s.tim.started = true → (uplOf t port.toNat).rejoinPend = true) ∧
        (s.tim.started = false → (uplOf t port.toNat).rejoin = false) ∧ (∀ p, p ≠ port.toNat → uplOf t p = uplOf s p) ∧
        Changes [.upl] s t) ∧
    (Ready s → part = 0 →
      ∃ t, Runs (.portEnableWrite part port 0xF data) s t ∧ reg t (rUpl port.toNat 0) = data &&& 3 ∧
        (regB s (rUpl port.toNat 0) 0 = false → bit data 0 = true →
          ((uplOf t port.toNat).paired = true ↔ bit data 1 = true ∧ port.toNat % 2 = 0)) ∧
        (∀ a, a ≠ rUpl port.toNat 0 → reg t a = reg s a) ∧ (∀ p, p ≠ port.toNat → uplOf t p = uplOf s p) ∧ Changes [.regs, .upl] s t) ∧
    (Ready s → part ≠ 0 → (∃ t, Runs (.lagRejoin part port) s t ∧ Changes [.cnt] s t) ∧
      ∃ t, Runs (.portEnableWrite part port 0xF data) s t ∧ Changes [.cnt] s t)

/-- R53, R166, R255, R392: a port whose wire is free, with no flow control to send and no pause running, sends the head of its highest queue,
30 cycles or more after its enqueue, where it may start: the frame leaves with a right FCS, its token leaves the queue, the start is logged and the queue's frames are counted.
The whole frame leaves in one step (the model's choice, log entry 8). -/
def Obligations.UplinkTransmit : Prop :=
  ∀ (s : State) (port : BitVec 4) (ph : TxPh) (k : Token) (rest : List Token) (f : Frame), portSends s port.toNat = true →
    loopU s port.toNat = 0 → (uplOf s port.toNat).busy ≤ s.tim.now → startAt k ≤ s.tim.now → fcOn s port.toNat = false → (uplOf s port.toNat).pause = none →
    handingFrom s (homeU s port.toNat) = false → tGet 0 (uplOf s port.toNat).pfc 7 = 0 → shaperRate s port.toNat 7 = 0 →
    queueOf s (131079 + 8 * port.toNat) = k :: rest → frameOf s k.frame = some f → f.mark = .good → f.late = [] → f.send = none →
    asleep s f = false → egrRead s f 0 = .clean → (outBytes f 0).length + 4 ≤ uplMaxlen s port.toNat → tGet 0 s.qbm.segs (131079 + 8 * port.toNat) = 0 →
    ∃ t b, Runs (.uplinkFrameTransmit port ph .whole) s t ∧ Out.upeTx port.toNat b false ∈ t.out ∧
      b.drop (b.length - 4) = fcsOf (b.take (b.length - 4)) ∧ queueOf t (131079 + 8 * port.toNat) = rest ∧
      tGet 0 t.qbm.commit (131079 + 8 * port.toNat) = (k.seq + 1) % 2 ^ 32 ∧
      tGet 0 t.cnt.obj ((2 * 131072 + 8 * port.toNat + 7) * 4) = (tGet 0 s.cnt.obj ((2 * 131072 + 8 * port.toNat + 7) * 4) + 1) % 2 ^ 48 ∧
      s.tim.now < (uplOf t port.toNat).busy ∧ Changes (.qbm :: .upl :: .tst :: .fresh :: faulted) s t

/-! ## Cipher edge and deep memory -/

/-- R279, R285, R286, R289: a response ends its request; every older request of the channel is lost with it (CPE fault 0). With status OK
the request's tick and ordinal are delivered and an encrypted TU carries the text and the tag that came; a failed tag is counted for its
terminal. A response that names nothing outstanding is discarded. R279, R292: a request whose response has not come TMO after its EOP lane
is lost: it leaves its channel and raises the CPE fault 0. -/
def Obligations.CipherResponses : Prop :=
  (∀ (s : State) (chan : Fin 18) (seq : Byte) (st : CpqSt) (data : List Byte) (ue : Option Word), (cpqChan s chan.val).line = [] →
    ((∀ x ∈ (cpqChan s chan.val).out, x.seq ≠ seq) → Runs (.cipherResponse chan seq st data ue) s { s with out := [] }) ∧
    (∀ (older : List CpqReq) (r : CpqReq) (l : List CpqReq), (cpqChan s chan.val).out = older ++ r :: l → r.seq = seq →
      (∀ x ∈ older, x.seq ≠ seq) →
      ∃ t, Runs (.cipherResponse chan seq st data ue) s t ∧ (cpqChan t chan.val).out = l ∧
        (cpqChan t chan.val).next = (cpqChan s chan.val).next ∧ (∀ d, d ≠ chan.val → cpqChan t d = cpqChan s d) ∧
        (older ≠ [] ∨ st = .engineErr → bit (fltOf t 7).st 0 = true) ∧
        (st = .ok → tFind (2 * r.tree + b2n (!r.enc)) t.cpe.done = some (r.tick, r.ord)) ∧
        (st = .tagFail → tGet 0 t.cpe.tagFail (r.tree * 1024 + r.tid) = (tGet 0 s.cpe.tagFail (r.tree * 1024 + r.tid) + 1) % 2 ^ 32) ∧
        (st = .ok → r.enc = true → vqOf s r.tree = none →
          ∀ u ∈ tGet [] (treOf t r.tree).stage (beatOfBlk s r.tree r.tick r.ord), u.blk = r.ord →
            u.ready = true ∧ u.body = data.take r.body.length ∧ u.tag = data.drop r.body.length) ∧
        t.cpe.slot = s.cpe.slot ∧ t.cpe.keyq = s.cpe.keyq ∧ t.regs = s.regs ∧ t.tim = s.tim ∧ t.chn = s.chn ∧ t.pending = s.pending)) ∧
  (∀ (s : State) (chan : Fin 18) (older : List CpqReq) (r : CpqReq) (l : List CpqReq), (cpqChan s chan.val).out = older ++ r :: l →
    (∀ x ∈ older, x.seq ≠ r.seq) → r.eop + cpeTmo s ≤ s.tim.now →
    ∃ t, Runs (.cipherRequestLost chan r.seq) s t ∧ (cpqChan t chan.val).out = older ++ l ∧ bit (fltOf t 7).st 0 = true ∧
      (∀ d, d ≠ chan.val → cpqChan t d = cpqChan s d) ∧ t.cpe.slot = s.cpe.slot ∧ t.regs = s.regs ∧ t.tim = s.tim ∧ t.chn = s.chn ∧
      t.pending = s.pending)

/-- R275, R276, R278, Table 13-4: an acknowledged key write is in force with its generation, a load loaded and an erase empty, and no other
slot changes; one that is not acknowledged in time stalls the key port with the CPE fault 2; a command that had to wait for the port or
for its slot issues its key write as soon as it may.
KEY commands that wait are issued when their row comes (log entry 1). -/
def Obligations.KeyWrites : Prop :=
  ∀ s : State,
    (s.cpe.keyq = [] → Runs .keyWriteAck s { s with out := [] } ∧ Runs .keyTmo s { s with out := [] }) ∧
    (∀ k l, s.cpe.keyq = k :: l →
      (∃ t, Runs .keyWriteAck s t ∧ (slotOf t k.slot).gen = k.gen ∧ (slotOf t k.slot).state = b2n k.load ∧
        (k.load = true → (slotOf t k.slot).cnt = 0 ∧ (slotOf t k.slot).klen = k.klen) ∧ t.cpe.keyq = l ∧ t.cpe.keyStall = false ∧
        (∀ n, n ≠ k.slot → slotOf t n = slotOf s n) ∧ t.cpe.chan = s.cpe.chan ∧ t.regs = s.regs ∧ t.tre = s.tre ∧ t.chn = s.chn ∧
        t.pending = s.pending) ∧
      (s.cpe.keyStall = false → k.at_ + cpeTmo s ≤ s.tim.now → ∃ t, Runs .keyTmo s t ∧ t.cpe.keyStall = true ∧ bit (fltOf t 7).st 2 = true ∧ t.cpe.keyq = s.cpe.keyq ∧
        t.cpe.slot = s.cpe.slot ∧ Changes (.cpe :: faulted) s t)) ∧
    (∀ (part : BitVec 6) (c : CmdRun) (n : Nat) (load klen : Bool) (key : List Byte), tFind part.toNat s.hrd.cmd = some c →
      c.wait = some (.keyHold n load klen key) →
      (s.cpe.keyStall = true → (tGet 0 s.cpe.keyAt n = 0 ∨ tGet 0 s.cpe.keyAt n - 1 + 4096 ≤ s.tim.now) →
        Runs (.keyCommandResume part) s { s with out := [] }) ∧
      (keyReady s n = true → ∃ t, Runs (.keyCommandResume part) s t ∧
        t.cpe.keyq = s.cpe.keyq ++ [⟨n, load, klen, nextGen s n, some part.toNat, s.tim.now⟩] ∧
        tFind part.toNat t.hrd.cmd = some { c with wait := some (.keyAck n), got := [], recs := [] } ∧ t.cpe.slot = s.cpe.slot ∧ Changes [.cpe, .hrd] s t))

/-- R259, R261: once the deep writes of a spilled frame are acknowledged its deep copy replaces its on-block cells; a failed write leaves
the frame on the block, gives up the deep cells and raises the DPT fault 1. A frame that is not being spilled is not touched. R260,
R261: a deep read that returns brings the frame back into fresh cells of the block, as many as its deep copy had, and where another target
still needs the deep copy they are a frame of its own; one that fails, with the DPT fault 0, or comes late sends the frame's TUs of that queue
as idle blocks; the deep copy is freed with its last target. -/
def Obligations.DeepMemory : Prop :=
  (∀ (s : State) (n : Nat) (err : Bool),
    (n ∉ s.qbm.spill → Runs (.deepWriteAck n err) s { s with out := [] }) ∧
    (∀ (f : Frame) (q : Nat) (k : Token), n ∈ s.qbm.spill → frameOf s n = some f → f.refs = 1 → k ∈ queueOf s q → k.frame = n →
      k.spill = true →
      (err = false → ∃ t, Runs (.deepWriteAck n err) s t ∧ frameOf t n = some { f with cells := [], sAdd := 0 } ∧ n ∉ t.qbm.spill ∧
        (∀ p, ∀ j ∈ queueOf t p, j.frame = n → j.spill = false) ∧ (∀ m, m ≠ n → frameOf t m = frameOf s m) ∧
        (∀ p, (∀ j ∈ queueOf s p, j.frame = n → j.spill = false) → queueOf t p = queueOf s p) ∧ Changes (.qbm :: faulted) s t) ∧
      (err = true → ∃ t, Runs (.deepWriteAck n err) s t ∧ frameOf t n = some { f with deep := [] } ∧ n ∉ t.qbm.spill ∧
        (∀ p, ∀ j ∈ queueOf t p, j.frame = n → j.spill = false) ∧ bit (fltOf t 8).st 1 = true ∧
        (∀ m, m ≠ n → frameOf t m = frameOf s m) ∧ Changes (.qbm :: faulted) s t))) ∧
  (∀ (s : State) (n : Nat) (x : DeepFetch) (f : Frame), s.qbm.fetch = [x] → x.frame = n → frameOf s n = some f →
    (∀ crc, x.sent = true → fetchWanted s x = true →
      (allocN 18 f.deep.length { s with qbm := { s.qbm with fetch := [] }, out := [] }).isSome = true →
      (f.refs ≤ 1 → ∃ t g, Runs (.deepReadReturn n ⟨false, crc⟩) s t ∧ frameOf t n = some g ∧ g.deep = [] ∧
        g.cells.length = f.cells.length + f.deep.length ∧ g.bytes = f.bytes ∧ g.crcBad = crc ∧ t.qbm.fetch = [] ∧
        (∀ m, m ≠ n → frameOf t m = frameOf s m) ∧ Changes [.qbm] s t) ∧
      (1 < f.refs → s.qbm.nextFrame ≠ n → ∃ t g, Runs (.deepReadReturn n ⟨false, crc⟩) s t ∧ frameOf t s.qbm.nextFrame = some g ∧ g.deep = [] ∧
        g.cells.length = f.cells.length + f.deep.length ∧ g.bytes = f.bytes ∧ g.crcBad = crc ∧ g.refs = 1 ∧
        frameOf t n = some { f with refs := f.refs - 1 } ∧ t.qbm.fetch = [] ∧
        (∀ e ∈ t.tre, ∀ y ∈ e.2.stage, ∀ u ∈ y.2, u.frame = n → u.queue ≠ x.queue) ∧
        (∀ m, m ≠ n → m ≠ s.qbm.nextFrame → frameOf t m = frameOf s m) ∧ Changes [.qbm, .tre] s t)) ∧
    (∀ g : Option Frame, g = some (if f.refs ≤ 1 then { f with deep := [] } else f) →
      (∀ crc, x.sent = true → fetchWanted s x = false → ∃ t, Runs (.deepReadReturn n ⟨false, crc⟩) s t ∧ frameOf t n = g ∧ t.qbm.fetch = [] ∧
        (∀ m, m ≠ n → frameOf t m = frameOf s m) ∧ t.out = [] ∧ Changes [.qbm, .tre] s t) ∧
      (∀ crc, x.sent = true → ∃ t, Runs (.deepReadReturn n ⟨true, crc⟩) s t ∧ frameOf t n = g ∧ t.qbm.fetch = [] ∧ bit (fltOf t 8).st 0 = true ∧
        (∀ e ∈ t.tre, ∀ y ∈ e.2.stage, ∀ u ∈ y.2, u.frame = n → u.queue = x.queue → x.queue < 131072 → u.idle = true) ∧
        (∀ m, m ≠ n → frameOf t m = frameOf s m) ∧ Changes (.qbm :: .tre :: faulted) s t) ∧
      (x.beat ≠ 0 → x.beat ≤ absBeat s + 2 → ∃ t, Runs (.deepReadLate n) s t ∧ frameOf t n = g ∧ t.qbm.fetch = [] ∧
        (∀ e ∈ t.tre, ∀ y ∈ e.2.stage, ∀ u ∈ y.2, u.frame = n → u.queue = x.queue → x.queue < 131072 → u.idle = true) ∧
        (∀ m, m ≠ n → frameOf t m = frameOf s m) ∧ Changes [.qbm, .tre, .cnt] s t) ∧
      ((x.beat = 0 ∨ absBeat s + 2 < x.beat) → Runs (.deepReadLate n) s { s with out := [] })))

/-- R262, R265 to R268: a beat budget is taken while the sum of all stays within 11,000 bytes and refused otherwise (DPT_STAT.REFUSED); the
scrubber's uncorrectable error in the row of its next read, one in 64 cycles, counts against its group and takes the cell out of use; GO starts a
retirement, and its end, 131,072 cycles of copying later, maps the logical group to the spare and marks the old group defective. -/
def Obligations.BufferMaintenance : Prop :=
  ∀ s : State,
    (∀ (tree part : BitVec 6) (data : Word), Ready s → part = 0 → s.tim.started = false →
      (rdBeatSum s tree.toNat (fld data 0 14) ≤ 11000 →
        ∃ t, Runs (.deepBudgetWrite part tree 0xF data) s t ∧ regF t (pageDPT + 0x100 + 4 * tree.toNat) 0 14 = fld data 0 14 ∧
          (∀ a, a ≠ pageDPT + 0x100 + 4 * tree.toNat → reg t a = reg s a) ∧ Changes [.regs] s t) ∧
      (11000 < rdBeatSum s tree.toNat (fld data 0 14) →
        ∃ t, Runs (.deepBudgetWrite part tree 0xF data) s t ∧ t.qbm.dRefused = true ∧ Changes [.qbm] s t)) ∧
    (∀ (g : Nat) (h : ScrubHit), h.kind = .uncorrectable → (List.range 16).find? (fun g => physOf s g == h.group.val) = some g →
      domOn s (domBG h.group.val) = true → (grpOf s g).fenced = false → Still s → s.cnt.round = none →
      h.cell.toNat = (s.tim.now / 64 + 1) % 32768 / 2 → (s.tim.started = false → startCyc s = none) →
      (s.tim.started = true → (s.tim.now / 64 + 1) * 64 - s.tim.now < toNextBeat s) →
      ∃ t, Runs (.scrubRead [h]) s t ∧ t.tim.now = (s.tim.now / 64 + 1) * 64 ∧ (grpOf t g).ue = (grpOf s g).ue + 1 ∧
        (g * 16384 + h.cell.toNat ∈ (grpOf t g).quar ∨ g * 16384 + h.cell.toNat ∈ (grpOf t g).bad) ∧
        (∀ k, k ≠ g → grpOf t k = grpOf s k) ∧ Changes (.qbm :: .tim :: .skm :: faulted) s t) ∧
    (∀ (part : BitVec 6) (data : Word), Ready s → part = 0 → bit data 4 = true → s.qbm.retire = none →
      (s.qbm.spareUsed = false → ∃ t, Runs (.retireGo part 0xF data) s t ∧ t.qbm.retire = some (fld data 0 4) ∧ t.qbm.rBusy = false ∧
        Changes [.regs, .qbm] s t) ∧
      (s.qbm.spareUsed = true → ∃ t, Runs (.retireGo part 0xF data) s t ∧ t.qbm.retire = none ∧ t.qbm.rNoSpare = true ∧
        Changes [.regs, .qbm] s t)) ∧
    (∀ g, s.qbm.retire = some g → physOf s g < 17 → s.qbm.rAt + 131073 ≤ s.tim.now →
      ∃ t, Runs .retirementDone s t ∧ physOf t g = 16 ∧ t.qbm.retire = none ∧ t.qbm.spareUsed = true ∧
        t.glb.defBg.getLsbD (physOf s g) = true ∧ (∀ k, k ≠ g → physOf t k = physOf s k) ∧ t.out = [] ∧ Changes [.qbm, .glb] s t)

/-! ## Host rings -/

/-- R53, R299, R300, R312, R333: a doorbell of a ring whose read is not outstanding has its turn 18 cycles later: in the cycle of that turn
the ring reads the next descriptors from base + 32 F, as many as its limit, the span to the next boundary and the free slots of its
completion queue allow, and reserves those slots; while a read is outstanding a doorbell asks for another look. One from a partition that does not own the ring is counted alone. R299, R315: a consumer doorbell with a valid index
returns slots; with the arm bit it arms the ring, or sends the interrupt at once where an entry waits that the doorbell does not cover. -/
def Obligations.Doorbells : Prop :=
  (∀ (s : State) (part : BitVec 6) (kind : RingKind) (ring : BitVec 11), Ready s → (kind = .send ∨ kind = .fill ∨ kind = .cmd) →
    ring.toNat < kcount kind →
    (ownsRing s part.toNat kind ring.toNat = false → ∃ t, Runs (.ringDoorbell part kind ring) s t ∧ t.out = [] ∧ Changes [.cnt] s t) ∧
    (ownsRing s part.toNat kind ring.toNat = true → domOn s domHP = true → ringRuns (ringOf s kind ring.toNat) = true →
      (ringOf s kind ring.toNat).quiescing = none →
      ((ringOf s kind ring.toNat).rdN ≠ 0 → ∃ t, Runs (.ringDoorbell part kind ring) s t ∧
        ringOf t kind ring.toNat = { ringOf s kind ring.toNat with rescan := true } ∧ t.out = [] ∧ Changes [.hrd] s t) ∧
      ((ringOf s kind ring.toNat).rdN = 0 → Runs (.ringDoorbell part kind ring) s
        { s with hrd := { s.hrd with later := s.hrd.later ++ [(s.tim.now + 18, .bell kind ring.toNat)] }, out := [] }) ∧
      (∀ r m, r = ringOf s kind ring.toNat → r.rdN = 0 → s.hrd.fenced.contains r.w.chan = false →
        m = min (min (fetchLimit s kind ring.toNat r false) (spanLimit r)) (cqRoom s r.w.cq) → 0 < m → rdOut s r.w.chan < 32 →
        (freeTag (rdTags s (hmpChan (r.w.base + 32 * r.f)))).isSome = true → s.hrd.rq = [] → s.pending = [] → s.tim.zero = false →
        s.cnt.round = none → s.hrd.later = [(s.tim.now + 1, .bell kind ring.toNat)] → s.tim.started = true → 1 < toNextBeat s →
        ∃ t tag, step s = .next t ∧ (ringOf t kind ring.toNat).rdN = m ∧
          (ringOf t kind ring.toNat).f = r.f ∧ (ringOf t .cq r.w.cq).rsv = (ringOf s .cq r.w.cq).rsv + m ∧ t.hrd.later = [] ∧
          t.out = [.hostRead (hmpChan (r.w.base + 32 * r.f)) tag ((r.w.base + 32 * r.f) / 64 * 64)
            (ceilDiv ((r.w.base + 32 * r.f) % 64 + 32 * m) 64) (ringOwner s kind ring.toNat) r.w.snoop]))) ∧
  (∀ (s : State) (part : BitVec 6) (kind : RingKind) (ring : BitVec 11) (data : Word) (r : Ring), Ready s → (kind = .cq ∨ kind = .ntc) →
    ring.toNat < kcount kind → ownsRing s part.toNat kind ring.toNat = true → domOn s domHP = true → r = ringOf s kind ring.toNat →
    ringRuns r = true → fld data 0 17 < 2 * ringSize r → (fld data 0 17 + 2 * ringSize r - r.ci) % (2 * ringSize r) ≤ used r →
    ∃ t, Runs (.consumerDoorbell part kind ring data) s t ∧ (ringOf t kind ring.toNat).ci = fld data 0 17 ∧
      (bit data 31 = false → (ringOf t kind ring.toNat).armd = r.armd) ∧
      (bit data 31 = true → unseen s kind ring.toNat < used { r with ci := fld data 0 17 } →
        (ringOf t kind ring.toNat).armd = false ∧ Out.irq r.w.vec (ringOwner s kind ring.toNat) ∈ t.out) ∧
      (bit data 31 = true → used { r with ci := fld data 0 17 } ≤ unseen s kind ring.toNat →
        (ringOf t kind ring.toNat).armd = true) ∧ Changes [.hrd, .cnt] s t)

/-- R297, R300, R320, R322, R331: the read response with the tag of a descriptor read ends that read. An entry that it returns is taken while
its OWN bit matches the ring's phase, and F moves on; the first one that does not match ends the taking, and the ring idles. A command
taken becomes the partition's running one. A fill descriptor with a bad SIZE halts its ring with DESC_FAULT. A failed read halts the ring
with MEM_FAULT, the ring fault and a notice. A response with a tag that is not outstanding is the HRD fault 3. -/
def Obligations.DescriptorsArrive : Prop :=
  (∀ (s : State) (chan : Fin 2) (tag : BitVec 9) (x : HRead) (kind : RingKind) (n : Nat) (words : List Word) (r : Ring),
    readAt s chan.val tag.toNat = some x → x.use = .desc kind n → n < kcount kind → r = ringOf s kind n → r.rdN = 1 →
    ringRuns r = true → r.quiescing = none → words.length = 8 →
    ((kind = .send ∨ kind = .fill) → bit (words.getD 0 0) 0 = r.ph → (kind = .fill → fillBad r words = false) →
      ∃ t, Runs (.descriptorFetchDone chan tag words false) s t ∧ (ringOf t kind n).desc = r.desc ++ [⟨r.f, words⟩] ∧
        (ringOf t kind n).f = (advance r).f ∧ (ringOf t kind n).ph = (advance r).ph ∧ Changes [.hrd, .cnt] s t) ∧
    ((kind = .send ∨ kind = .fill) → bit (words.getD 0 0) 0 ≠ r.ph → r.rescan = false →
      ∃ t, Runs (.descriptorFetchDone chan tag words false) s t ∧ (ringOf t kind n).desc = r.desc ∧
        (ringOf t kind n).f = r.f ∧ (ringOf t kind n).st = .idle ∧ (ringOf t kind n).rdN = 0 ∧ Changes [.hrd, .cnt] s t) ∧
    (kind = .cmd → bit (words.getD 0 0) 0 = r.ph → r.desc = [] → knownOp (fld (words.getD 0 0) 8 8) = true →
      ∃ t, Runs (.descriptorFetchDone chan tag words false) s t ∧ tFind n t.hrd.cmd = some ⟨r.f, none, words, [], []⟩ ∧
        (ringOf t kind n).f = (advance r).f ∧ Changes [.hrd, .cnt] s t) ∧
    (kind = .fill → bit (words.getD 0 0) 0 = r.ph → fillBad r words = true →
      ∃ t, Runs (.descriptorFetchDone chan tag words false) s t ∧ (ringOf t kind n).st = .halted ∧ (ringOf t kind n).hstat = 14 ∧
        (ringOf t kind n).hindex = r.f ∧ bit (fltOf t 4).st 0 = true ∧ Changes faulted s t) ∧
    ((kind = .send ∨ kind = .fill) →
      ∃ t, Runs (.descriptorFetchDone chan tag words true) s t ∧ (ringOf t kind n).st = .halted ∧ (ringOf t kind n).hstat = 15 ∧
        (ringOf t kind n).hindex = r.f ∧ bit (fltOf t 4).st 0 = true ∧ Changes faulted s t)) ∧
  (∀ (s : State) (chan : Fin 2) (tag : BitVec 9) (words : List Word) (err : Bool), readAt s chan.val tag.toNat = none →
    (∀ x ∈ s.hrd.lateR, x.chan = chan.val → x.tag ≠ tag.toNat) →
    ∃ t, Runs (.descriptorFetchDone chan tag words err) s t ∧ bit (fltOf t 4).st 3 = true ∧ Changes faulted s t)

/-- R171, R305, R306: a send ring starts its next send: one that fails a check that needs no data is rejected with its status, the others
fetch their data; the end of a segment chain starts the fetch, or, where the lengths do not add up to L, rejects the send with status
12. R187, R191, R192: data that may not take the tag or be segmented ends the send with its record. R318, R391: other data, tagged and padded as
the descriptor asks, enters the section of the ring's anchor as the next frame of that source and is counted for the ring. R331: a failed data read halts the ring with MEM_FAULT. -/
def Obligations.SendsStart : Prop :=
  (∀ (s : State) (ring : BitVec 11) (r : Ring), r = ringOf s .send ring.toNat →
    (∀ d l, r.desc = d :: l → ringRuns r = true → (∀ j ∈ r.jobs, j.ready = true ∧ j.d.index ≠ d.index) → sdSgl d = false →
      sendPace s ring.toNat r = false → anchorWorks s ring.toNat = true → s.hrd.fenced.contains r.w.chan = false → domOn s domHP = true →
      hdrm s + ceilDiv (sdL d) 256 < freeCells s → (∀ x ∈ r.recs, x.r.index ≠ d.index) →
      (sendCheck s ring.toNat d = (0, 0) → ∃ t, Runs (.sendFrameStart ring) s t ∧
        (ringOf t .send ring.toNat).jobs.map (fun j => (j.d, j.fetching)) = r.jobs.map (fun j => (j.d, j.fetching)) ++ [(d, true)] ∧
        (ringOf t .send ring.toNat).desc = l ∧
        (ringOf t .send ring.toNat).recs.map (fun x => (x.r.index, x.ready)) = r.recs.map (fun x => (x.r.index, x.ready)) ++ [(d.index, false)] ∧
        Changes [.hrd, .cnt] s t) ∧
      ((sendCheck s ring.toNat d).1 ≠ 0 → ∃ t, Runs (.sendFrameStart ring) s t ∧
        (ringOf t .send ring.toNat).jobs.map (·.d) = r.jobs.map (·.d) ∧ (ringOf t .send ring.toNat).desc = l ∧
        (ringOf t .send ring.toNat).recs.getLast?.map (fun x => (x.r.index, x.ready, x.r.status)) =
          some (d.index, true, (sendCheck s ring.toNat d).1) ∧ Changes [.hrd, .cnt] s t)) ∧
    (∀ (chan : Fin 2) (tag : BitVec 9) (x : HRead) (j : SendJob) (words : List Word), readAt s chan.val tag.toNat = some x →
      x.use = .chain ring.toNat → x.addr % 64 ≤ 48 → r.jobs = [j] → j.ready = false → j.segs = [] → j.walked = 0 →
      4 ≤ words.length → bit (words.getD 2 0) 31 = true → bit (words.getD 2 0) 30 = false → fld (words.getD 2 0) 0 16 ≠ 0 →
      (fld (words.getD 2 0) 0 16 = sdL j.d → sendCheck s ring.toNat j.d = (0, 0) →
        ∃ t, Runs (.chainFetchDone ⟨chan, tag⟩ words false) s t ∧
          (ringOf t .send ring.toNat).jobs.map (fun y => (y.d, y.segs, y.fetching)) =
            [(j.d, [((words.getD 0 0).toNat + 2 ^ 32 * fld (words.getD 1 0) 0 20, sdL j.d)], true)] ∧ Changes [.hrd, .cnt] s t) ∧
      (fld (words.getD 2 0) 0 16 ≠ sdL j.d →
        ∃ t, Runs (.chainFetchDone ⟨chan, tag⟩ words false) s t ∧ (ringOf t .send ring.toNat).jobs = [] ∧
          (∀ y ∈ (ringOf t .send ring.toNat).recs, y.r.index = j.d.index → y.ready = true) ∧ Changes [.hrd, .cnt] s t))) ∧
  (∀ (s : State) (chan : Fin 2) (tag : BitVec 9) (x : HRead) (n : Nat) (j : SendJob) (bytes : List Byte) (ue : Option Word),
    readAt s chan.val tag.toNat = some x → x.use = .sendData n j.d.index 0 → n < kcount .send → (ringOf s .send n).jobs = [j] →
    j.fetching = true → j.got = [] →
    (bytes.length = x.len → bytes.length = sdL j.d → ringLoop s n = none → s.hrd.staged = [] →
      (sendBytes j.d (sdVins j.d) bytes = none →
        ∃ t, Runs (.sendDataFetchDone ⟨chan, tag⟩ bytes false ue) s t ∧ (ringOf t .send n).jobs = [] ∧ t.hrd.staged = [] ∧
          (∀ y ∈ (ringOf t .send n).recs, y.r.index = j.d.index → y.ready = true) ∧ Changes [.hrd, .cnt] s t) ∧
      (∀ b, sendBytes j.d (sdVins j.d) bytes = some b →
        (sdSeg j.d ≠ 0 → sendSegCause s n j.d b ≠ 0 →
          ∃ t, Runs (.sendDataFetchDone ⟨chan, tag⟩ bytes false ue) s t ∧ (ringOf t .send n).jobs = [] ∧ t.hrd.staged = [] ∧
            (∀ y ∈ (ringOf t .send n).recs, y.r.index = j.d.index → y.ready = true) ∧ Changes [.hrd, .cnt] s t) ∧
        ((sdSeg j.d = 0 ∨ sendSegCause s n j.d b = 0) → (stageReady s n).1 = true →
          ∃ t a o, Runs (.sendDataFetchDone ⟨chan, tag⟩ bytes false ue) s t ∧ (ringOf t .send n).jobs = [] ∧ t.hrd.staged = [] ∧
            a.up = (ringOf s .send n).w.side ∧ a.src = ⟨2, n⟩ ∧ a.bytes = b ∧ a.n = b.length + 4 ∧ a.mark = .good ∧
            a.stamp = s.tim.time ∧ a.part = some (ringOwner s .send n) ∧ a.send = some o ∧ o.ring = n ∧ o.index = j.d.index ∧
            o.seg = sdSeg j.d ∧ o.ipck = sdIpck j.d ∧ o.l4ck = sdL4ck j.d ∧
            Entered a (if ue.isSome then ue else j.ue) s t ∧
            tGet 0 t.cnt.obj ((3 * 131072 + n) * 4) = (tGet 0 s.cnt.obj ((3 * 131072 + n) * 4) + 1) % 2 ^ 48 ∧
            t.regs = s.regs ∧ t.chn = s.chn ∧ t.cpe = s.cpe ∧ t.tst = s.tst ∧ t.pending = s.pending))) ∧
    (ringRuns (ringOf s .send n) = true → (ringOf s .send n).quiescing = none →
      ∃ t, Runs (.sendDataFetchDone ⟨chan, tag⟩ bytes true ue) s t ∧ (ringOf t .send n).st = .halted ∧
        (ringOf t .send n).hstat = 15 ∧ (ringOf t .send n).hindex = j.d.index ∧ bit (fltOf t 4).st 0 = true ∧ Changes faulted s t))

/-- R53, R308, R314, R392: the head of a fill ring's delivery queue, whose last byte has come, is written into the buffers of the descriptors that
cover it; its record names the first of them and the length, waits for as many acknowledgements as writes, falls due 210 cycles after the
last byte, and the token leaves the queue. A write that finds no tag waits for its
grant (R317). -/
def Obligations.FillDelivery : Prop :=
  ∀ (s : State) (ring : BitVec 11) (r : Ring) (k : Token) (rest : List Token) (f : Frame) (b : List Byte) (status : Nat)
    (tag : Option (Nat × Nat)) (ds left : List Desc), r = ringOf s .fill ring.toNat → ringRuns r = true → r.quiescing = none →
    s.hrd.fenced.contains r.w.chan = false → domOn s domHP = true → queueOf s (131200 + ring.toNat) = k :: rest → frameOf s k.frame = some f →
    k.part = ringOwner s .fill ring.toNat → asleep s f = false → f.last ≤ s.tim.now → egrRead s f 0 = .clean → f.send = none → tGet 0 s.qbm.segs (131200 + ring.toNat) = 0 → fillBody r f 0 = some (b, status, tag) →
    coverDescs r.desc b.length = some (ds, left) →
    ∃ t x, Runs (.fillDeliveryStart ring) s t ∧ (ringOf t .fill ring.toNat).recs = r.recs ++ [x] ∧
      some x.r.index = ds.head?.map (·.index) ∧ x.r.len = b.length ∧ x.r.status = status ∧ x.acks = (fillWrites ds b).length ∧
      x.due = max (f.last + 210) s.tim.now ∧ (x.due, Turn.record .fill ring.toNat) ∈ t.hrd.later ∧
      (∀ w ∈ fillWrites ds b, (∃ n, Out.hostWrite (hmpChan w.1) n w.1 (ringOwner s .fill ring.toNat) w.2 ∈ t.out) ∨
        ∃ q ∈ t.hrd.wq, q.addr = w.1 ∧ q.part = ringOwner s .fill ring.toNat ∧ q.bytes = w.2) ∧
      (ringOf t .fill ring.toNat).desc = left ∧ queueOf t (131200 + ring.toNat) = rest ∧
      tGet 0 t.qbm.commit (131200 + ring.toNat) = (k.seq + 1) % 2 ^ 32 ∧ Changes (.qbm :: .upl :: .fresh :: faulted) s t

/-- R312, R314: a record at the head of its ring that is ready, due and past its barrier, and that no descriptor before its own must precede, is
written, with the queue's phase, into the next slot of
the completion queue, one reserved slot is used, and the next record comes to the head, where it follows if it may. -/
def Obligations.RecordsIssue : Prop :=
  ∀ (s : State) (ring : BitVec 11) (kind : RingKind) (c : Instr) (x : PendRec) (rest : List PendRec) (q : Ring),
    (kind = .fill ∧ c = .fillRecordIssue ring ∨ kind = .send ∧ c = .sendRecordIssue ring) →
    (ringOf s kind ring.toNat).recs = x :: rest → x.ready = true → (x.bar = false ∨ x.acks = 0) → x.due ≤ s.tim.now →
    q = ringOf s .cq (ringOf s kind ring.toNat).w.cq → ringRuns q = true → used q < ringSize q → s.hrd.wq = [] → haltWaits kind (ringOf s kind ring.toNat) rest = false →
    s.hrd.fenced.contains q.w.chan = false → (freeTag (wrTags s (hmpChan (q.w.base + 16 * q.f)))).isSome = true →
    ∃ t tag n, Runs c s t ∧ (ringOf t kind ring.toNat).recs = rest.drop n ∧
      (rest = [] → ringOf t .cq (ringOf s kind ring.toNat).w.cq = { advance q with rsv := q.rsv - 1 }) ∧
      Out.hostWrite (hmpChan (q.w.base + 16 * q.f)) tag (q.w.base + 16 * q.f) (ringOwner s .cq (ringOf s kind ring.toNat).w.cq)
        (wordBytes (recWords x.r q.ph)) ∈ t.out ∧ Changes [.hrd, .upl, .cnt, .fresh] s t

/-- R315, R320, R331: an acknowledged record makes its armed queue send its interrupt and disarm; a write or a read without a response within
20,000 cycles halts its ring with MEM_FAULT and its tag stays taken; an acknowledgement of nothing outstanding is the HRD fault 3.
The order of tags is the model's choice (log entry 12). -/
def Obligations.HostAccesses : Prop :=
  ∀ (s : State) (chan : Fin 2) (tag : BitVec 9),
    (∀ x c kd n, s.hrd.wr.find? (fun x => x.chan == chan.val && x.tag == tag.toNat) = some x → x.use = .record c kd n →
      ((ringOf s .cq c).armd = true → ∃ t, Runs (.hostWriteAck chan tag false) s t ∧ (ringOf t .cq c).armd = false ∧
        Out.irq (ringOf s .cq c).w.vec (ringOwner s .cq c) ∈ t.out ∧ t.regs = s.regs ∧ t.qbm = s.qbm ∧ t.tre = s.tre ∧ t.cpe = s.cpe ∧
        t.pending = s.pending) ∧
      (ringRuns (ringOf s .cq c) = true → (ringOf s .cq c).quiescing = none → x.at_ + 20000 ≤ s.tim.now →
        ∃ t, Runs (.hostAccessTimeout true chan tag) s t ∧ (ringOf t .cq c).st = .halted ∧
        (ringOf t .cq c).hstat = 15 ∧ x ∈ t.hrd.lateW ∧ bit (fltOf t 4).st 0 = true ∧ Changes faulted s t)) ∧
    (∀ x kd n, s.hrd.rd.find? (fun x => x.chan == chan.val && x.tag == tag.toNat) = some x → x.use = .desc kd n →
      (kd = .send ∨ kd = .fill) → ringRuns (ringOf s kd n) = true → (ringOf s kd n).quiescing = none → x.at_ + 20000 ≤ s.tim.now →
      ∃ t, Runs (.hostAccessTimeout false chan tag) s t ∧ (ringOf t kd n).st = .halted ∧ (ringOf t kd n).hstat = 15 ∧ x ∈ t.hrd.lateR ∧
        bit (fltOf t 4).st 0 = true ∧ Changes faulted s t) ∧
    (∀ err, (∀ x ∈ s.hrd.wr ++ s.hrd.lateW, x.chan = chan.val → x.tag ≠ tag.toNat) →
      ∃ t, Runs (.hostWriteAck chan tag err) s t ∧ bit (fltOf t 4).st 3 = true ∧ Changes faulted s t)

/-- R294, R316, R330, R332, R425: HRD_RDIS disables each ring it names that the writer owns; a context word of a disabled ring holds what is
written, its reserved bits 0; word 0 with EN starts the ring at index 0 and phase 1, or, where its context is refused, leaves it disabled with
EN 0; HRD_CH stores PRIO and ends the channel's fence once the fault is cleared. -/
def Obligations.RingSetup : Prop :=
  ∀ s : State, Ready s →
    (∀ (part reg : BitVec 6) (kind : RingKind) (data : Word) (b : Nat), (kind = .send ∨ kind = .fill ∨ kind = .cq) →
      reg.toNat < rdisCount kind → b < 32 →
      ∃ t, Runs (.ringDisable part kind reg data) s t ∧
        (bit data b = true → ownsRing s part.toNat kind (32 * reg.toNat + b) = true → (ringOf t kind (32 * reg.toNat + b)).st = .disabled) ∧
        ((bit data b = false ∨ ownsRing s part.toNat kind (32 * reg.toNat + b) = false) →
          (ringOf t kind (32 * reg.toNat + b)).st = (ringOf s kind (32 * reg.toNat + b)).st) ∧
        t.regs = s.regs ∧ t.tre = s.tre ∧ t.cpe = s.cpe ∧ t.pending = s.pending) ∧
    (∀ (kind : RingKind) (ring : BitVec 11) (word : Fin 6) (data : Word) (r : Ring), ring.toNat < kcount kind → r = ringOf s kind ring.toNat →
      r.st = .disabled →
      (word ≠ 0 → ∃ t w, Runs (.ringContextWrite 0 kind ring word data) s t ∧ ringOf t kind ring.toNat = { r with w := w, wn := w } ∧
        [w.w0, w.w1, w.w2, w.w3, w.w4, w.w5] = [r.wn.w0, r.wn.w1, r.wn.w2, r.wn.w3, r.wn.w4, r.wn.w5].set word.val (data &&& ctxMask word.val) ∧
        Changes [.hrd] s t) ∧
      (∀ w, word = 0 → w = { r.wn with w0 := data &&& ctxMask 0 } → w.en = true →
        (kind = .ntc → tGet [] s.hrd.npend ring.toNat = [] ∧ tGet 0 s.hrd.nsince ring.toNat = 0) →
        (ringCause s kind ring.toNat w false = 0 → ∃ t, Runs (.ringContextWrite 0 kind ring word data) s t ∧
          (ringOf t kind ring.toNat).st = .idle ∧ (ringOf t kind ring.toNat).f = 0 ∧ (ringOf t kind ring.toNat).ph = true ∧
          (ringOf t kind ring.toNat).w = w ∧ t.regs = s.regs ∧ t.tre = s.tre ∧ t.cpe = s.cpe) ∧
        (ringCause s kind ring.toNat w false ≠ 0 → ∃ t, Runs (.ringContextWrite 0 kind ring word data) s t ∧
          (ringOf t kind ring.toNat).st = .disabled ∧ (ringOf t kind ring.toNat).w.en = false ∧ t.regs = s.regs ∧ t.tre = s.tre ∧ t.cpe = s.cpe))) ∧
    (∀ (chan : Byte) (data : Word), ∃ t, Runs (.channelConfigWrite 0 chan data) s t ∧ reg t (pageHRD + 0x7800 + 4 * chan.toNat) = data &&& 7 ∧
      (bit (fltOf s 4).st 1 = false → chan.toNat ∉ t.hrd.fenced) ∧ (bit (fltOf s 4).st 1 = true → t.hrd.fenced = s.hrd.fenced) ∧
      Changes [.regs, .hrd] s t)

/-- R295, R328, R329: RING_SET gives a disabled ring a context that no cause of R295 refuses; RING_QUIESCE stops the fetching of a running send or fill
ring, and of a fill ring flushes the unused descriptors with status 16; once nothing is left the ring is Quiesced and the command answers
F and PH; RING_RESUME lets it go on. -/
def Obligations.RingCommands : Prop :=
  ∀ (s : State) (part : BitVec 6) (kind : BitVec 2) (ring : BitVec 11),
    (∀ (ctx : W6), kind.toNat ≤ 2 → ring.toNat < kcount (kindOf kind.toNat) → CmdTurn part (.ringSet part kind ring ctx) s →
      ownsRing s part.toNat (kindOf kind.toNat) ring.toNat = true →
      (ringCause s (kindOf kind.toNat) ring.toNat (cleanW6 ctx) true = 0 → (cleanW6 ctx).en = true →
        ∃ t, Runs (.ringSet part kind ring ctx) s t ∧ Answered part.toNat 0 0 0 s t ∧
          (ringOf t (kindOf kind.toNat) ring.toNat).st = .idle ∧ (ringOf t (kindOf kind.toNat) ring.toNat).w = cleanW6 ctx ∧
          (ringOf t (kindOf kind.toNat) ring.toNat).f = 0 ∧ (ringOf t (kindOf kind.toNat) ring.toNat).ph = true ∧
          t.regs = s.regs ∧ t.tre = s.tre ∧ t.cpe = s.cpe) ∧
      (∀ c, ringCause s (kindOf kind.toNat) ring.toNat (cleanW6 ctx) true = c → c ≠ 0 →
        ∃ t, Runs (.ringSet part kind ring ctx) s t ∧ Answered part.toNat 41 c 0 s t ∧ Changes [.hrd, .cnt] s t)) ∧
    (kind.toNat ≤ 1 → ring.toNat < kcount (kindOf kind.toNat) → ownsRing s part.toNat (kindOf kind.toNat) ring.toNat = true →
      (CmdTurn part (.ringQuiesce part kind ring) s → ringRuns (ringOf s (kindOf kind.toNat) ring.toNat) = true →
        ∃ t, Runs (.ringQuiesce part kind ring) s t ∧ (ringOf t (kindOf kind.toNat) ring.toNat).quiescing = some part.toNat ∧
          Waits part.toNat (.quiesce (kindOf kind.toNat) ring.toNat) t ∧
          (kind = 1 → (ringOf t .fill ring.toNat).desc = [] ∧ (ringOf t .fill ring.toNat).recs.map (fun x => (x.r.index, x.r.status)) =
            (ringOf s .fill ring.toNat).recs.map (fun x => (x.r.index, x.r.status)) ++ (ringOf s .fill ring.toNat).desc.map (fun d => (d.index, 16))) ∧
          t.out = [] ∧ Changes [.hrd] s t) ∧
      (CmdReady part.toNat (some (.quiesce (kindOf kind.toNat) ring.toNat)) s →
        (ringOf s (kindOf kind.toNat) ring.toNat).quiescing = some part.toNat → (ringOf s (kindOf kind.toNat) ring.toNat).rdN = 0 →
        (ringOf s (kindOf kind.toNat) ring.toNat).desc = [] → (ringOf s (kindOf kind.toNat) ring.toNat).jobs = [] →
        (ringOf s (kindOf kind.toNat) ring.toNat).recs = [] →
        ∃ t, Runs (.ringQuiesceDone (kindOf kind.toNat) ring) s t ∧ (ringOf t (kindOf kind.toNat) ring.toNat).st = .quiesced ∧
          Answered part.toNat 0 0 ((ringOf s (kindOf kind.toNat) ring.toNat).f + 65536 * b2n (ringOf s (kindOf kind.toNat) ring.toNat).ph) s t ∧
          Changes [.hrd, .cnt] s t) ∧
      (CmdTurn part (.ringResume part kind ring) s → (ringOf s (kindOf kind.toNat) ring.toNat).st = .quiesced →
        ∃ t, Runs (.ringResume part kind ring) s t ∧ ringRuns (ringOf t (kindOf kind.toNat) ring.toNat) = true ∧
          (ringOf t (kindOf kind.toNat) ring.toNat).f = (ringOf s (kindOf kind.toNat) ring.toNat).f ∧
          (ringOf t (kindOf kind.toNat) ring.toNat).ph = (ringOf s (kindOf kind.toNat) ring.toNat).ph ∧
          Answered part.toNat 0 0 0 s t ∧ Changes [.hrd, .cnt] s t))

/-! ## Commands of command rings -/

/-- R132, R133, R243, R322, R333: ALLOC_SET and QUEUE_SET that pass their checks wait for the cut-off and for the tick boundary and answer OK; refused,
they answer ALLOC_REFUSED or QUEUE_REFUSED with the cause; for a tree of another partition they change nothing and answer OK. -/
def Obligations.AllocAndQueueCommands : Prop :=
  ∀ (s : State) (part tree : BitVec 6),
    (∀ (hnd : BitVec 12) (w : W4), CmdTurn part (.allocSet part tree hnd w) s →
      (ownsTree s part.toNat tree.toNat = false →
        ∃ t, Runs (.allocSet part tree hnd w) s t ∧ Answered part.toNat 0 0 0 s t ∧ Changes [.hrd, .cnt] s t) ∧
      (ownsTree s part.toNat tree.toNat = true → s.tim.started = true → s.glb.pend = [] →
        (allocCause s tree.toNat hnd.toNat w = 0 →
          ∃ t, Runs (.allocSet part tree hnd w) s t ∧ Answered part.toNat 0 0 0 s t ∧
            (chnOf t tree.toNat).allocPend = (chnOf s tree.toNat).allocPend ++ [(hnd.toNat, cleanAlloc w)] ∧
            (chnOf t tree.toNat).alloc = (chnOf s tree.toNat).alloc ∧ (∀ u, u ≠ tree.toNat → chnOf t u = chnOf s u) ∧
            Changes [.chn, .hrd, .cnt] s t) ∧
        (∀ c, allocCause s tree.toNat hnd.toNat w = c → c ≠ 0 →
          ∃ t, Runs (.allocSet part tree hnd w) s t ∧ Answered part.toNat 32 c 0 s t ∧ Changes [.hrd, .cnt] s t))) ∧
    (∀ (queue : BitVec 11) (w : W4), CmdTurn part (.queueSet part tree queue w) s → ownsTree s part.toNat tree.toNat = true → s.tim.started = true →
      (queueCause s (2048 * tree.toNat + queue.toNat) w = 0 →
        ∃ t, Runs (.queueSet part tree queue w) s t ∧ Answered part.toNat 0 0 0 s t ∧
          t.qbm = { s.qbm with ctxPend := s.qbm.ctxPend ++ [(2048 * tree.toNat + queue.toNat, cleanCtx w)] } ∧
          Changes [.qbm, .hrd, .cnt] s t) ∧
      (∀ c, queueCause s (2048 * tree.toNat + queue.toNat) w = c → c ≠ 0 →
        ∃ t, Runs (.queueSet part tree queue w) s t ∧ Answered part.toNat 34 c 0 s t ∧ Changes [.hrd, .cnt] s t))

/-- R110, R117, R125, R150: ADMIT takes a serial off the heard list for an Unknown terminal that no serial is pre-listed on; ACTIVATE, QUIET, RESUME,
RELEASE, DISABLE and RERANGE are taken for the cut-off in the states of Table 4-2, and answer STATE_REFUSED in every other; DISC_NOW asks for a
window. Each answers OK.
The states in which RERANGE is taken are the model's reading (log entry 7). -/
def Obligations.TerminalCommands : Prop :=
  ∀ (s : State) (part tree : BitVec 6) (tid : BitVec 10), ownsTree s part.toNat tree.toNat = true → tid ≠ 0 →
    (∀ (serial : BitVec 64) (a : Ann), CmdTurn part (.admitSerial part tree tid serial) s → (treOf s tree.toNat).heard.find? (fun a => a.serial == serial) = some a →
      (ctxOf s tree.toNat tid.toNat).state = .unknown → (ctxOf s tree.toNat tid.toNat).admitAnn = none →
      tFind tid.toNat (treOf s tree.toNat).pre = none →
      ∃ t, Runs (.admitSerial part tree tid serial) s t ∧ Answered part.toNat 0 0 0 s t ∧ (ctxOf t tree.toNat tid.toNat).admitAnn = some a ∧
        (∀ x ∈ (treOf t tree.toNat).heard, x.serial ≠ serial) ∧ (∀ i, i ≠ tid.toNat → ctxOf t tree.toNat i = ctxOf s tree.toNat i) ∧
        Changes [.tre, .hrd, .cnt] s t) ∧
    (∀ (c : Instr) (op : Nat) (take : TState → Bool),
      (c = .activate part tree tid ∧ op = 0x21 ∧ take = (fun x => x == .keyed || (x == .ranged && treF s tree.toNat 0x1C 1 1 == 0)) ∨
       c = .quiet part tree tid ∧ op = 0x22 ∧ take = (fun x => x == .active) ∨
       c = .resume part tree tid ∧ op = 0x23 ∧ take = (fun x => x == .quiet) ∨
       c = .release part tree tid ∧ op = 0x24 ∧ take = (fun x => x != .unknown && x != .released) ∨
       c = .disable part tree tid ∧ op = 0x25 ∧ take = (fun x => x != .unknown && x != .released) ∨
       c = .rerange part tree tid ∧ op = 0x26 ∧ take = (fun x => x == .ranged || x == .keyed || x == .active)) → CmdTurn part c s →
      (take (ctxOf s tree.toNat tid.toNat).state = true →
        ∃ t, Runs c s t ∧ Answered part.toNat 0 0 0 s t ∧ op ∈ (ctxOf t tree.toNat tid.toNat).cmds ∧
          ctxOf t tree.toNat tid.toNat = { ctxOf s tree.toNat tid.toNat with cmds := (ctxOf t tree.toNat tid.toNat).cmds } ∧
          (∀ i, i ≠ tid.toNat → ctxOf t tree.toNat i = ctxOf s tree.toNat i) ∧ Changes [.tre, .hrd, .cnt] s t) ∧
      (take (ctxOf s tree.toNat tid.toNat).state = false →
        ∃ t, Runs c s t ∧ Answered part.toNat 43 0 0 s t ∧ Changes [.hrd, .cnt] s t)) ∧
    (CmdTurn part (.discNow part tree) s → ∃ t, Runs (.discNow part tree) s t ∧ Answered part.toNat 0 0 0 s t ∧ chnOf t tree.toNat = { chnOf s tree.toNat with discNow := true } ∧
      (∀ u, u ≠ tree.toNat → chnOf t u = chnOf s u) ∧ Changes [.chn, .hrd, .cnt] s t)

/-- R87, R288: KEY_SWITCH with the key loaded queues its message in one of the 128 places of commands, or waits for one; with the key not
loaded it answers KEY_NOT_LOADED; a waiting command's message is queued once a place is free, and the command answers OK. R275, R282:
KEY_ERASE issues its key write and waits for the ACK; KEY_LUT raises both last-used ticks of its slot, never lowers them, and answers
OK. A slot of another partition's tree does not change. -/
def Obligations.MessageAndKeyCommands : Prop :=
  (∀ (s : State) (part tree : BitVec 6) (tid : BitVec 10) (ksel : BitVec 2),
    (CmdTurn part (.keySwitch part tree tid ksel) s → ownsTree s part.toNat tree.toNat = true → tid ≠ 0 → (ksel = 1 ∨ ksel = 2) →
      ((slotOf s (slotNo tree.toNat tid.toNat ksel.toNat)).state = 1 → tmmRoomFree s tree.toNat = true →
        ∃ t m, Runs (.keySwitch part tree tid ksel) s t ∧ Answered part.toNat 0 0 0 s t ∧
          (treOf t tree.toNat).tmmq = (treOf s tree.toNat).tmmq ++ [m] ∧ m.type = 9 ∧ m.tgt = tid.toNat ∧
          byteAt m.body 0 = ksel.toNat ∧ m.cmd = true ∧ m.acked = true ∧ Changes [.tre, .hrd, .cnt, .pwr] s t) ∧
      ((slotOf s (slotNo tree.toNat tid.toNat ksel.toNat)).state = 1 → tmmRoomFree s tree.toNat = false →
        ∃ t m, Runs (.keySwitch part tree tid ksel) s t ∧ Waits part.toNat (.tmmRoom tree.toNat m) t ∧ m.type = 9 ∧ m.tgt = tid.toNat ∧
          (treOf t tree.toNat).tmmq = (treOf s tree.toNat).tmmq ∧ t.out = [] ∧ Changes [.tre, .hrd, .cnt] s t) ∧
      ((slotOf s (slotNo tree.toNat tid.toNat ksel.toNat)).state ≠ 1 →
        ∃ t, Runs (.keySwitch part tree tid ksel) s t ∧ Answered part.toNat 38 0 0 s t ∧ Changes [.hrd, .cnt] s t)) ∧
    (∀ m, CmdReady part.toNat (some (.tmmRoom tree.toNat m)) s →
      (tmmRoomFree s tree.toNat = true → ∃ t, Runs (.tmmCommandQueued part) s t ∧ Answered part.toNat 0 0 0 s t ∧
        (treOf t tree.toNat).tmmq = (treOf s tree.toNat).tmmq ++ [m] ∧ Changes [.tre, .hrd, .cnt, .pwr] s t) ∧
      (tmmRoomFree s tree.toNat = false → Runs (.tmmCommandQueued part) s { s with out := [] }))) ∧
  (∀ (s : State) (part : BitVec 6) (slot : BitVec 17),
    (CmdTurn part (.keyErase part slot) s → ownsTree s part.toNat (slot.toNat / 2048) = true → keyReady s slot.toNat = true →
      ∃ t, Runs (.keyErase part slot) s t ∧ Waits part.toNat (.keyAck slot.toNat) t ∧
        t.cpe.keyq = s.cpe.keyq ++ [⟨slot.toNat, false, false, nextGen s slot.toNat, some part.toNat, s.tim.now⟩] ∧
        t.cpe.slot = s.cpe.slot ∧ Changes [.cpe, .hrd] s t) ∧
    (CmdTurn part (.keyErase part slot) s → ownsTree s part.toNat (slot.toNat / 2048) = false →
      ∃ t, Runs (.keyErase part slot) s t ∧ Answered part.toNat 0 0 0 s t ∧ Changes [.hrd, .cnt] s t) ∧
    (∀ tick : BitVec 48, CmdTurn part (.keyLut part slot tick) s →
      (ownsTree s part.toNat (slot.toNat / 2048) = true → ∃ t, Runs (.keyLut part slot tick) s t ∧ Answered part.toNat 0 0 0 s t ∧
        (slotOf t slot.toNat).lutD = max (slotOf s slot.toNat).lutD tick.toNat ∧
        (slotOf t slot.toNat).lutU = max (slotOf s slot.toNat).lutU tick.toNat ∧
        (slotOf t slot.toNat).state = (slotOf s slot.toNat).state ∧ (slotOf t slot.toNat).gen = (slotOf s slot.toNat).gen ∧
        (∀ n, n ≠ slot.toNat → slotOf t n = slotOf s n) ∧ Changes [.cpe, .hrd, .cnt] s t) ∧
      (ownsTree s part.toNat (slot.toNat / 2048) = false →
        ∃ t, Runs (.keyLut part slot tick) s t ∧ Answered part.toNat 0 0 0 s t ∧ Changes [.hrd, .cnt] s t)))

/-- R216, R275, R317, R322, R491: TMM_SEND, KEY_LOAD, EM_ADD, EM_MOD and EM_DEL send the reads of their operand, 48, 32 or 64 bytes at the
address that they name, one burst for each 512-byte page that it touches, and wait for it; OVERLAY_APPLY sends the reads of its image. -/
def Obligations.OperandReads : Prop :=
  ∀ (s : State) (part : BitVec 6) (addr : BitVec 52), 
    (∀ (tree : BitVec 6) (tid : BitVec 10), CmdTurn part (.tmmSend part tree tid addr) s → ownsTree s part.toNat tree.toNat = true →
      ReadReady part.toNat addr.toNat 48 s →
      ∃ t, Runs (.tmmSend part tree tid addr) s t ∧ Waits part.toNat (.tmm tree.toNat tid.toNat addr.toNat) t ∧
        ReadsSent part.toNat addr.toNat 48 s t ∧ t.hrd.ring = s.hrd.ring ∧ Changes [.hrd] s t) ∧
    (∀ (slot : BitVec 17) (klen : Bool), CmdTurn part (.keyLoad part slot klen addr) s → ownsTree s part.toNat (slot.toNat / 2048) = true →
      ReadReady part.toNat addr.toNat 32 s →
      ∃ t, Runs (.keyLoad part slot klen addr) s t ∧ Waits part.toNat (.keyRead slot.toNat klen addr.toNat) t ∧
        ReadsSent part.toNat addr.toNat 32 s t ∧ t.hrd.ring = s.hrd.ring ∧ Changes [.hrd] s t) ∧
    (∀ dir : Bool, CmdTurn part (.emAdd part dir addr) s → part = 0 → ReadReady part.toNat addr.toNat 64 s →
      ∃ t, Runs (.emAdd part dir addr) s t ∧ Waits part.toNat (.em 0 dir addr.toNat) t ∧ ReadsSent part.toNat addr.toNat 64 s t ∧
        t.hrd.ring = s.hrd.ring ∧ Changes [.hrd] s t) ∧
    (∀ dir : Bool, CmdTurn part (.emMod part dir addr) s → part = 0 → ReadReady part.toNat addr.toNat 64 s →
      ∃ t, Runs (.emMod part dir addr) s t ∧ Waits part.toNat (.em 1 dir addr.toNat) t ∧ ReadsSent part.toNat addr.toNat 64 s t ∧
        t.hrd.ring = s.hrd.ring ∧ Changes [.hrd] s t) ∧
    (∀ dir : Bool, CmdTurn part (.emDel part dir addr) s → part = 0 → ReadReady part.toNat addr.toNat 64 s →
      ∃ t, Runs (.emDel part dir addr) s t ∧ Waits part.toNat (.em 2 dir addr.toNat) t ∧ ReadsSent part.toNat addr.toNat 64 s t ∧
        t.hrd.ring = s.hrd.ring ∧ Changes [.hrd] s t) ∧
    (∀ (img : BitVec 5) (count : BitVec 21), CmdTurn part (.overlayApply part img addr count) s → part = 0 → img.toNat ≤ 16 → count ≠ 0 →
      (s.tim.started = true → count.toNat ≤ 65536) → (s.tim.started = false → img = 0 ∧ count.toNat ≤ 1048576) → addr.toNat % 16 = 0 →
      ∃ t, Runs (.overlayApply part img addr count) s t ∧ Waits part.toNat (.image img.toNat addr.toNat count.toNat false) t ∧
        (ReadReady part.toNat addr.toNat (16 * count.toNat) s → ReadsSent part.toNat addr.toNat (16 * count.toNat) s t) ∧
        t.hrd.ring = s.hrd.ring ∧ Changes [.hrd] s t)

/-- R87, R216, R275, R322, R331: the operand that arrives lets its command go on: a TMM_SEND image of a TYPE it may send is queued, and one of
another TYPE answers TMM_REFUSED; a key is written on the key port; an exact-match entry is added where no entry has its key and there
is room, changed or deleted; a failed read halts the ring. -/
def Obligations.OperandsArrive : Prop :=
  ∀ (s : State) (part : BitVec 6) (chan : Fin 2) (tag : BitVec 9) (x : HRead) (bytes : List Byte) (w : CmdWait),
    CmdReady part.toNat (some w) s → (∀ c, tFind part.toNat s.hrd.cmd = some c → c.got = []) →
    readAt s chan.val tag.toNat = some x → x.use = .operand part.toNat 0 → bytes.length = x.len → x.len = operandLen w →
    (∀ tree tid addr, w = .tmm tree tid addr →
      ((byteAt bytes 0 = 8 ∨ byteAt bytes 0 = 0x0D) → tmmRoomFree s tree = true →
        ∃ t, Runs (.commandOperandRead ⟨chan, tag⟩ bytes false) s t ∧ Answered part.toNat 0 0 0 s t ∧
          (treOf t tree).tmmq = (treOf s tree).tmmq ++ [imageTmm tid bytes] ∧ Changes [.tre, .hrd, .cnt, .pwr] s t) ∧
      (byteAt bytes 0 ≠ 8 → byteAt bytes 0 ≠ 0x0D →
        ∃ t, Runs (.commandOperandRead ⟨chan, tag⟩ bytes false) s t ∧ Answered part.toNat 44 0 0 s t ∧ Changes [.hrd, .cnt] s t)) ∧
    (∀ n klen addr, w = .keyRead n klen addr → keyReady s n = true →
      ∃ t, Runs (.commandOperandRead ⟨chan, tag⟩ bytes false) s t ∧ Waits part.toNat (.keyAck n) t ∧
        t.cpe.keyq = s.cpe.keyq ++ [⟨n, true, klen, nextGen s n, some part.toNat, s.tim.now⟩] ∧ t.cpe.slot = s.cpe.slot ∧
        Changes [.cpe, .hrd, .cnt] s t) ∧
    (∀ dir addr e, w = .em 0 dir addr → e = emImage dir bytes → s.cls.em.any (fun x => x.dir == e.dir && x.prof == e.prof && x.key == e.key) = false →
      emRoom s e = true → ∃ t, Runs (.commandOperandRead ⟨chan, tag⟩ bytes false) s t ∧ Answered part.toNat 0 0 0 s t ∧
        t.cls = { s.cls with em := s.cls.em ++ [e] } ∧ Changes [.cls, .pwr, .hrd, .cnt] s t) ∧
    (∀ dir addr e, w = .em 1 dir addr → e = emImage dir bytes → s.cls.em.any (fun x => x.dir == e.dir && x.prof == e.prof && x.key == e.key) = true →
      ∃ t, Runs (.commandOperandRead ⟨chan, tag⟩ bytes false) s t ∧ Answered part.toNat 0 0 0 s t ∧
        t.cls = { s.cls with em := s.cls.em.map fun x =>
          if x.dir = e.dir ∧ x.prof = e.prof ∧ x.key = e.key then { x with act := e.act, param := e.param, fin := e.fin } else x } ∧
        Changes [.cls, .pwr, .hrd, .cnt] s t) ∧
    (∀ dir addr e, w = .em 2 dir addr → e = emImage dir bytes → s.cls.em.any (fun x => x.dir == e.dir && x.prof == e.prof && x.key == e.key) = true →
      ∃ t, Runs (.commandOperandRead ⟨chan, tag⟩ bytes false) s t ∧ Answered part.toNat 0 0 0 s t ∧
        (∀ x, x ∈ t.cls.em ↔ x ∈ s.cls.em ∧ ¬(x.dir = e.dir ∧ x.prof = e.prof ∧ x.key = e.key)) ∧ Changes [.cls, .pwr, .hrd, .cnt] s t) ∧
    ∃ t, Runs (.commandOperandRead ⟨chan, tag⟩ bytes true) s t ∧ (ringOf t .cmd part.toNat).st = .halted ∧
      (ringOf t .cmd part.toNat).hstat = 15 ∧ tFind part.toNat t.hrd.cmd = none ∧ t.cpe = s.cpe ∧ bit (fltOf t 4).st 0 = true

/-- R233 to R235: CLS_SWAP is held for its tick once the engine has started and swaps the pages at once before; the copy that follows makes the
standby page read as the active one where software has not written it since, 4,096 cycles after the swap; a word that no replica reads
clean stays marked until it is rewritten, with the CLS fault 1. -/
def Obligations.ClassifierPages : Prop :=
  ∀ s : State,
    (CmdTurn 0 (.clsSwap 0) s →
      (s.tim.started = true → ∃ t, Runs (.clsSwap 0) s t ∧ Answered 0 0 0 0 s t ∧ t.cls.active = s.cls.active ∧
        t.cls.swapDue = s.cls.swapDue ++ [if s.tim.cutDone then s.tim.tick + 2 else s.tim.tick + 1] ∧ Changes [.cls, .hrd, .cnt] s t) ∧
      (s.tim.started = false → ∃ t, Runs (.clsSwap 0) s t ∧ Answered 0 0 0 0 s t ∧ t.cls.active = !s.cls.active ∧ t.cls.sync = false ∧
        t.cls.fresh = [] ∧ t.cls.tbl = s.cls.tbl ∧ t.cls.em = s.cls.em ∧ Changes [.cls, .hrd, .cnt, .pwr] s t)) ∧
    (s.cls.sync = false → s.cls.swapAt + 4095 ≤ s.tim.now → s.cls.fresh = [] → tRising s.cls.tbl = true → (∀ e ∈ s.cls.tbl, e.1 < 262144) →
      ∃ t, Runs .clsPageSync s t ∧ t.cls.sync = true ∧ t.cls.active = s.cls.active ∧
        (∀ up tbl e, tbl < 16 → e < 4096 → clsEntry t (!s.cls.active) up tbl e = clsEntry s s.cls.active up tbl e ∧
          clsEntry t s.cls.active up tbl e = clsEntry s s.cls.active up tbl e) ∧ t.out = [] ∧ Changes [.cls] s t) ∧
    (∀ cap : Word, (∃ t, Runs (.tableUeRewrite cap true) s t ∧ cap ∉ t.cls.dirty ∧ Changes [.cls] s t) ∧
      ∃ t, Runs (.tableUeRewrite cap false) s t ∧ cap ∈ t.cls.dirty ∧ bit (fltOf t 5).st 1 = true ∧ Changes (.cls :: faulted) s t)

/-- R489 to R494: the block reads an image twice. A first reading that no check refuses changes nothing and starts the second; a refused
one answers OVERLAY_REFUSED and changes nothing. Once the second reading is whole, an image of register records is accepted after the
engine has started for the next tick boundary, or for the one after once the cut-off has passed: its records wait, its command answers
the tick as RESULT and no register changes; before the engine starts image 0 takes effect at once. -/
def Obligations.OverlayImages : Prop :=
  ∀ (s : State) (chan : Fin 2) (tag : BitVec 9) (x : HRead) (recs : List ImgRec) (img addr n due : Nat),
    readAt s chan.val tag.toNat = some x → x.use = .image 0 0 → x.len = 16 * n → recs.length = n → 0 < n →
    (∀ c, tFind 0 s.hrd.cmd = some c → c.recs = []) → due = (if s.tim.cutDone then s.tim.tick + 2 else s.tim.tick + 1) →
    (CmdReady 0 (some (.image img addr n false)) s →
      (imgRefusal (!s.tim.started) due recs s = none →
        ∃ t, Runs (.imageReadDone ⟨chan, tag⟩ recs false) s t ∧ Waits 0 (.image img addr n true) t ∧ Changes [.hrd, .cnt] s t) ∧
      (∀ c k i, imgRefusal (!s.tim.started) due recs s = some (c, i, k) →
        ∃ t, Runs (.imageReadDone ⟨chan, tag⟩ recs false) s t ∧ Answered 0 45 c (i + 2 ^ 32 * k) s t ∧ Changes [.hrd, .cnt] s t)) ∧
    (CmdReady 0 (some (.image img addr n true)) s →
      (s.tim.started = true → (∀ r ∈ recs, recSpace r ≠ 3) →
        ∃ t, Runs (.imageReadDone ⟨chan, tag⟩ recs false) s t ∧ Answered 0 0 0 due s t ∧ t.glb.pend = s.glb.pend ++ [⟨img, due, recs, false⟩] ∧
          Changes [.glb, .hrd, .cnt] s t) ∧
      (∀ (r : ImgRec) (port : BitVec 4), s.tim.started = false → recs = [r] → recSpace r = 0 → r.index.toNat = rUpl port.toNat 4 →
        ∃ t, Runs (.imageReadDone ⟨chan, tag⟩ recs false) s t ∧ Answered 0 0 0 0 s t ∧
          reg t (rUpl port.toNat 4) = mergeW (reg s (rUpl port.toNat 4)) (r.mask &&& 0x3FFF) r.data ∧
          (∀ a, a ≠ rUpl port.toNat 4 → reg t a = reg s a) ∧ t.glb.img = img ∧ t.glb.applied = true ∧ Changes [.regs, .glb, .hrd, .cnt] s t))

/-! ## Time -/

/-- R339: START records its source and the cycle of the write, and a later START is ignored; 16 cycles after it the engine starts, in cycle
0 of beat 0 of tick TIM_TICK0, where 0 is taken as 1. -/
def Obligations.EngineStart : Prop :=
  ∀ s : State,
    (Ready s → s.tim.started = false → s.tim.startWait = none → ∃ t, Runs (.timStart 0) s t ∧
      t.tim = { s.tim with startWait := some (timSrc s, s.tim.now) } ∧ t.out = [] ∧ Changes [.tim] s t) ∧
    (Ready s → s.tim.started = true ∨ s.tim.startWait ≠ none → Runs (.timStart 0) s { s with out := [] }) ∧
    (∀ at_, s.tim.started = false → s.tim.startWait = some (false, at_) → at_ + 16 ≤ s.tim.now → RegsOk s.regs →
      ∃ t, Runs .timeEngineStart s t ∧ t.tim.started = true ∧ t.tim.beat = 0 ∧
        t.tim.tick = max 1 (regPair s (rTim 0x20) % 2 ^ 48) ∧ t.pending = s.pending) ∧
    (∀ at_, s.tim.started = false → s.tim.startWait = some (false, at_) → s.tim.now < at_ + 16 → RegsOk s.regs → Still s → s.cnt.round = none →
      ∃ t, Runs .timeEngineStart s t ∧ t.tim.started = true ∧ t.tim.beat = 0 ∧ t.tim.tickStart = at_ + 16 ∧
        t.tim.tick = max 1 (regPair s (rTim 0x20) % 2 ^ 48) ∧ t.pending = s.pending) ∧
    (s.tim.startWait = none → Runs .timeEngineStart s { s with out := [] })

/-- R340 to R347: what TIM_CTL's commands, the hold watchdog, the loss of TRACE, the writes of TIM_INC and TIM_SLEW and the end of a slew do
to the started engine. The end of a slew is stated where no turn waits and no round reads (log entry 2). -/
def Obligations.TimeControl : Prop :=
  ∀ s : State, Ready s → s.tim.started = true →
    (∃ t, Runs (.timRestart 0) s t ∧ t.tim = { s.tim with restart := some (timSrc s), stepPend := none } ∧ Changes [.tim] s t) ∧
    (s.tim.armed = true → ∃ t, Runs (.stepGo 0) s t ∧
      t.tim = { s.tim with armed := false, stepPend := some (sext 64 (pairAfter s (rTim 0x40))) } ∧ Changes [.tim] s t) ∧
    (s.tim.armed = false → ∃ t, Runs (.stepGo 0) s t ∧ Changes noted s t) ∧
    (s.tim.hold = false →
      (∃ t, Runs (.timHold 0) s t ∧ t.tim.hold = true ∧ t.tim.holdTick = s.tim.tick ∧ t.tim.inc = s.tim.inc ∧ Changes (.tim :: noted) s t) ∧
      Runs (.holdClr 0) s { s with out := [] } ∧
      (regF s (rTim 0x48) 0 16 ≠ 0 → s.tim.wdogTick + regF s (rTim 0x48) 0 16 ≤ s.tim.tick →
        ∃ t, Runs .holdWatchdogExpire s t ∧ t.tim.hold = true ∧ t.tim.holdTick = s.tim.tick ∧ Changes (.tim :: noted) s t) ∧
      (∀ data : Word, tFind (pkey 0 (rTim 0x28)) s.regs.loHeld = none → cyc s < 156186 →
        ∃ t, Runs (.timIncWrite 0 0xF data) s t ∧
          t.tim.inc = max incMin (min incMax (s.tim.inc % 2 ^ 32 + 2 ^ 32 * fld data 0 16)) ∧ t.tim.wdogTick = s.tim.tick ∧
          Changes [.tim, .regs, .cnt] s t) ∧
      (∀ data : Word, tFind (pkey 0 (rTim 0x30)) s.regs.loHeld = some 0 → cyc s < 156186 →
        ∃ t, Runs (.timSlewWrite 0 0xF data) s t ∧ t.tim.slew = sext 64 (2 ^ 32 * data.toNat) * (2 ^ 32 : Nat) ∧ t.tim.inc = s.tim.inc ∧
          Changes [.tim, .regs] s t) ∧
      (∀ n, Still s → s.cnt.round = none → oldRate s = none → slewTerm s ≠ 0 → n = ceilDiv s.tim.slew.natAbs (slewTerm s) → n < toNextBeat s →
        ∃ t, Runs .slewEnd s t ∧ t.tim.slew = 0 ∧ t.tim.now = s.tim.now + n ∧
          t.tim.time = addTime (s.tim.time + n * s.tim.inc) s.tim.slew ∧ t.tim.tick = s.tim.tick ∧ t.out = [] ∧
          Changes [.flt, .tim, .cnt] s t)) ∧
    (s.tim.hold = true →
      (∃ t, Runs (.timHold 0) s t ∧ Changes [] s t) ∧
      (∃ t, Runs (.holdClr 0) s t ∧ t.tim.hold = false ∧ t.tim.incHeld = none ∧ t.tim.slewHeld = none ∧ Changes (.tim :: noted) s t) ∧
      (reg s (rTim 0x4C) ≠ 0 → s.tim.holdTick + (reg s (rTim 0x4C)).toNat ≤ s.tim.tick →
        ∃ t, Runs .traceLost s t ∧ regB t (rTim 0) 9 = false ∧ (∀ a, a ≠ rTim 0 → reg t a = reg s a) ∧ Changes (.regs :: noted) s t) ∧
      (∀ data : Word, tFind (pkey 0 (rTim 0x28)) s.regs.loHeld = none →
        ∃ t, Runs (.timIncWrite 0 0xF data) s t ∧ t.tim.inc = s.tim.inc ∧
          t.tim.incHeld = some (max incMin (min incMax (s.tim.inc % 2 ^ 32 + 2 ^ 32 * fld data 0 16))) ∧ Changes [.tim, .regs, .cnt] s t))

/-- R340, R368 to R372: a read of TIM_EPOCH returns the time in its compact form and captures it for the reading partition; an accepted PPS_IN edge
leaves its stamp, its loss is the TIM fault 2; PPS_OUT rises and falls; the message on TOD_OUT carries its second and a right CRC; a good
message on TOD_IN is taken and a bad one is the TIM fault 3. -/
def Obligations.EpochAndPulses : Prop :=
  ∀ s : State,
    (∀ part : BitVec 6, Ready s → ∃ t, Runs (.timEpochRead part) s t ∧ t.out = [.regRead (compact s.tim.time)] ∧
      tFind part.toNat t.tim.caps = some (s.tim.time, s.tim.stepN) ∧ t.tim.time = s.tim.time ∧ Changes [.tim] s t) ∧
    (regB s (rTim 0x60) 0 = true →
      (ppsAccepts s = true → s.tim.started = true → s.tim.restart ≠ some true →
        ∃ t, Runs .ppsInEdge s t ∧ t.tim.ppsLast = some s.tim.now ∧ t.tim.ppsLost = false ∧
          t.tim.ppsiTime = addTime s.tim.time (-(ofs16 (reg s (rTim 0x68)))) ∧ t.tim.time = s.tim.time ∧ Changes (.tim :: faulted) s t) ∧
      (ppsAccepts s = false → ∃ t, Runs .ppsInEdge s t ∧ t.out = [] ∧ Changes [.cnt] s t) ∧
      (∀ l, s.tim.ppsLast = some l → s.tim.ppsLost = false → l + 1250000000 + regF s (rTim 0x64) 0 21 ≤ s.tim.now →
        ∃ t, Runs .ppsInLoss s t ∧ t.tim.ppsLost = true ∧ bit (fltOf t 3).st 2 = true ∧
          (regB s (rTim 0x48) 16 = true → s.tim.started = true → t.tim.hold = true) ∧ Changes (.tim :: faulted) s t)) ∧
    (s.tim.started = true → regB s (rTim 0x60) 1 = true →
      (0 < toNextBeat s → outSec s (s.tim.now - 1) < outSec s s.tim.now →
        ∃ t, Runs .ppsOutEdge s t ∧ t.tim.ppsOut = true ∧ t.tim.ppsOutAt = s.tim.now ∧
          (s.tim.ppsOut = false → t.tim.ppsOutSec = outSec s s.tim.now ∧ t.tim.todDue = true ∧ t.tim.todOut = none) ∧ Changes [.tim] s t) ∧
      (outEdgeCyc s = none → oldRate s = none → Runs .ppsOutEdge s { s with out := [] })) ∧
    (s.tim.ppsOut = true → s.tim.ppsOutAt + regF s (rTim 0x60) 2 9 * 1250000 ≤ s.tim.now →
      ∃ t, Runs .ppsOutEnd s t ∧ t.tim = { s.tim with ppsOut := false } ∧ Changes [.tim] s t) ∧
    (s.tim.ppsOut = false → Runs .ppsOutEnd s { s with out := [] }) ∧
    (regB s (rTim 0x70) 1 = true → s.tim.todDue = true → s.tim.ppsOutAt + 1250000 ≤ s.tim.now → ∃ t m, Runs .todOutSend s t ∧ t.out = [.todOut (regF s (rTim 0x70) 2 2) (todLine m)] ∧ t.tim.todOut = some m ∧ t.tim.todDue = false ∧ m.length = 16 ∧
      beAt m 0 3 = 0x485401 ∧ beAt m 4 6 = s.tim.ppsOutSec % 2 ^ 48 ∧ beAt m 14 2 = crc16 (m.take 14) ∧ Changes [.tim] s t) ∧
    (∀ bytes : List Byte, regB s (rTim 0x70) 0 = true →
      (todCause bytes s = 0 → ∃ t, Runs (.todInMessage bytes) s t ∧ t.tim.todiSec.toNat = beAt bytes 4 6 ∧ t.tim.todiUtc.toNat = beAt bytes 10 2 ∧
        t.tim.todiNew = true ∧ t.tim.time = s.tim.time ∧ Changes [.tim] s t) ∧
      (todCause bytes s ≠ 0 → ∃ t, Runs (.todInMessage bytes) s t ∧ t.tim = s.tim ∧ bit (fltOf t 3).st 3 = true ∧ Changes faulted s t))

/-! ## Availability -/

/-- R379, R386 to R390, R409: a slice with work that has shown no progress for SKM_WDOG.LIMIT cycles is declared faulty with cause 5: it becomes
FAILED, and where it was ACTIVE, the Skim is on and a spare stands by whose last self-test pass succeeded, the spare starts to load, and the
frames on their way to their enqueue come again; a slice in another role, or without work, is left alone. A failing pass of the self-test
takes its slice out with the SELFTEST fault, a passing one brings a slice under test back within the reinstatement limit. -/
def Obligations.SliceFaults : Prop :=
  ∀ (s : State) (i : Fin 9),
    (∀ j, roleOf s i.val = .active → hasWork s i.val = true → tGet 0 s.skm.strobe i.val + (reg s (pageSKM + 4)).toNat % 2 ^ 12 ≤ s.tim.now →
      slicesIn s .shadow = [] → (slicesIn s .spare).find? (s.skm.passOk.contains ·) = some j → skmEn s = true →
      s.skm.ho.any (fun h => h.live && h.new == i.val) = false →
      ∃ t h, Runs (.sliceWatchdogExpire i) s t ∧ roleOf t i.val = .failed ∧ roleOf t j = .loading ∧ t.skm.ho = s.skm.ho ++ [h] ∧
        h.failed = i.val ∧ h.new = j ∧ h.cause = 5 ∧ h.d = s.tim.now ∧ h.dCyc = cyc s ∧ h.walked = false ∧ h.live = false ∧ h.rehome = false ∧
        h.trees = treesOf s i.val ∧ h.ports = portsOf s i.val ∧ h.lost = [] ∧ h.fell = [] ∧
        (s.tst.loop = [] → h.held = (pipe (fun k _ => k == i.val) s).map fun a => { a with frame := none, again := true }) ∧
        bit (fltOf t (iSLC i.val)).st 4 = true ∧
        (∀ x, homeT t x = homeT s x) ∧ Changes [.regs, .glb, .flt, .qbm, .tre, .upl, .cpe, .hrd, .skm, .pwr, .cnt, .tst, .fresh] s t) ∧
    ((roleOf s i.val ≠ .active ∧ roleOf s i.val ≠ .loading ∧ roleOf s i.val ≠ .shadow ∨ hasWork s i.val = false) →
      Runs (.sliceWatchdogExpire i) s { s with out := [] }) ∧
    (roleOf s i.val = .spare → tGet 0 s.skm.passAt i.val + 2000000 ≤ s.tim.now →
      (∃ t, Runs (.selftestPassEnd i true) s t ∧
        t.skm = { s.skm with stPass := true, stValid := true, stSlice := i.val, passAt := tSet 0 s.skm.passAt i.val s.tim.now,
                             passOk := s.skm.passOk.filter (· != i.val) ++ [i.val] } ∧
        Changes [.skm] s t) ∧
      (∃ t, Runs (.selftestPassEnd i false) s t ∧ roleOf t i.val = .failed ∧ t.skm.stPass = false ∧ i.val ∉ t.skm.passOk ∧
        bit (fltOf t (iSLC i.val)).st 6 = true ∧ Changes (.skm :: .fresh :: faulted) s t)) ∧
    (roleOf s i.val = .testing → tGet 0 s.skm.passAt i.val + 2000000 ≤ s.tim.now →
      (tGet 0 s.skm.reinst i.val < regF s pageSKM 4 4 →
        ∃ t, Runs (.selftestPassEnd i true) s t ∧ roleOf t i.val = .spare ∧ i.val ∈ t.skm.passOk ∧
          tGet 0 t.skm.reinst i.val = tGet 0 s.skm.reinst i.val + 1 ∧ Changes (.skm :: noted) s t) ∧
      (regF s pageSKM 4 4 ≤ tGet 0 s.skm.reinst i.val →
        ∃ t, Runs (.selftestPassEnd i true) s t ∧ roleOf t i.val = .failed ∧ t.skm.reinst = s.skm.reinst ∧ Changes [.skm] s t) ∧
      (∃ t, Runs (.selftestPassEnd i false) s t ∧ roleOf t i.val = .failed ∧ i.val ∉ t.skm.passOk ∧ bit (fltOf t (iSLC i.val)).st 6 = true ∧
        Changes (.skm :: .fresh :: faulted) s t)) ∧
    (roleOf s i.val ≠ .spare → roleOf s i.val ≠ .testing → ∀ pass, tGet 0 s.skm.passAt i.val + 2000000 ≤ s.tim.now →
      Runs (.selftestPassEnd i pass) s { s with out := [] })

/-- R392, R398, R411: the walk of a failed slice's replay records marks what has started and withdraws the rest; 5,000 cycles after the declaration the
homes of its trees and ports move to the loaded slice, which is ACTIVE then; when replay has reached live input the handover ends, and with
AUTO_REPAIR the failed slice is tested, where its domain sleeps once that is ON. -/
def Obligations.Handovers : Prop :=
  ∀ s : State,
    (∀ (i : Fin 9) (e : RepEntry) (k : Token), s.skm.ho.any (fun h => h.failed == i.val && !h.walked) = true →
      tGet [] s.qbm.rep (secKey i.val false) = [e] → tGet [] s.qbm.rep (secKey i.val true) = [] → queueOf s e.queue = [k] →
      k.frame = e.frame → k.seq = e.seq → e.beyond = false →
      ∃ t, Runs (.tokenWithdrawalDone i) s t ∧ (∀ h ∈ t.skm.ho, h.failed = i.val → h.walked = true) ∧
        (hasStarted s e = true → tGet [] t.qbm.rep (secKey i.val false) = [{ e with started := true }] ∧ queueOf t e.queue = [k]) ∧
        (hasStarted s e = false → tGet [] t.qbm.rep (secKey i.val false) = [e] ∧ queueOf t e.queue = []) ∧
        t.out = [] ∧ Changes [.qbm, .skm] s t) ∧
    (∀ h, s.skm.ho = [h] → h.live = false → h.rehome = false → h.walked = true → h.d + 5000 ≤ s.tim.now → h.held = [] →
      h.lost = [] → s.hrd.staged = [] → tFind h.failed s.skm.skim = none →
      tGet [] s.qbm.rep (secKey h.failed false) = [] → tGet [] s.qbm.rep (secKey h.failed true) = [] →
      (∀ x ∈ h.trees, (treOf s x).run = false ∧ (treOf s x).reasm = [] ∧ (treOf s x).stage = [] ∧
        (chnOf s x).late1 = none ∧ (chnOf s x).late2 = none) →
      ∃ t, Runs .handoverReplayStart s t ∧ roleOf t h.new = .active ∧ t.skm.ho = [{ h with live := true }] ∧ t.skm.replay = true ∧
        t.skm.hoCnt = (s.skm.hoCnt + 1) % 2 ^ 32 ∧ (∀ x, homeT t x = if x ∈ h.trees then h.new else homeT s x) ∧
        (∀ p, homeU t p = if p ∈ h.ports then h.new else homeU s p) ∧ Changes [.glb, .flt, .qbm, .tre, .chn, .skm, .hrd, .cnt, .pwr] s t) ∧
    (∀ h, s.skm.ho = [h] → h.live = true →
      ∃ t, Runs .handoverDone s t ∧ t.skm.ho = [] ∧ t.skm.replay = false ∧
        (regB s pageSKM 2 = true → roleOf s h.failed = .failed →
          (staysOn s (domSL h.failed) = true → roleOf t h.failed = .testing) ∧
          (staysOn s (domSL h.failed) = false → h.failed ∈ t.skm.repair ∧ t.skm.role = s.skm.role)) ∧
        (regB s pageSKM 2 = false → t.skm.role = s.skm.role) ∧ Changes (.skm :: noted) s t)

/-- R405 to R408, R411: a rotation falls due by its period or by NOW, makes the spare a SHADOW of the slice that was ACTIVE longest from cycle 125,000 in
FULL mode, and is abandoned at cycle 150,000, still due; a restoring rotation takes a set of trees that has no slice, or is split; REPAIR
puts a FAILED slice under test, one whose domain sleeps once that is ON. -/
def Obligations.Rotations : Prop :=
  ∀ s : State,
    (reg s (pageSKM + 8) ≠ 0 → s.skm.rotTick + (reg s (pageSKM + 8)).toNat ≤ s.tim.tick →
      ∃ t, Runs .rotationDue s t ∧ t.skm = { s.skm with rotDue := true } ∧ Changes [.skm] s t) ∧
    (Ready s → ∃ t, Runs (.skmRotNow 0) s t ∧ t.skm = { s.skm with rotDue := true } ∧ Changes [.skm] s t) ∧
    (∀ i j, s.tim.started = true → s.skm.rotDue = true → s.skm.mode = 0 → cyc s = 125000 → rotSpare s = some j → longestActive s = some i →
      ∃ t, Runs .rotationShadowStart s t ∧ roleOf t j = .shadow ∧ t.skm.rot = some ⟨some i, j, none, s.tim.tick + 1, []⟩ ∧
        Changes (.skm :: noted) s t) ∧
    (∀ r, 150000 ≤ cyc s → s.skm.rot = some r →
      ∃ t, Runs .rotationAbandon s t ∧ roleOf t r.inn = .spare ∧ t.skm.rot = none ∧ (r.set = none → t.skm.rotDue = true) ∧
        (r.set ≠ none → t.skm.restore = true) ∧ Changes (.skm :: noted) s t) ∧
    (∀ j k, s.tim.started = true → s.skm.restore = true → 2 ≤ s.skm.mode → cyc s = 125000 → rotSpare s = some j → restoreSet s = some k →
      ∃ t, Runs .restoringRotation s t ∧ roleOf t j = .shadow ∧ t.skm.rot = some ⟨none, j, some k, s.tim.tick + 1, []⟩ ∧
        Changes (.skm :: noted) s t) ∧
    (∀ data : Word, Ready s → ∃ t, Runs (.skmCtlRepair 0 0xF data) s t ∧ reg t (pageSKM + 0x10) = data &&& 0xF ∧
      (∀ a, a ≠ pageSKM + 0x10 → reg t a = reg s a) ∧
      (bit data 4 = true → roleOf s (fld data 0 4) = .failed →
        (staysOn s (domSL (fld data 0 4)) = true → roleOf t (fld data 0 4) = .testing ∧ Changes [.regs, .skm] s t) ∧
        (staysOn s (domSL (fld data 0 4)) = false → fld data 0 4 ∈ t.skm.repair ∧ t.skm.role = s.skm.role)) ∧
      (bit data 4 = false → t.skm = s.skm) ∧ Changes [.regs, .skm, .pwr] s t)

/-! ## Power -/

/-- R438 to R440, R443, R452: a request becomes current, with the wake event of its own cycle, ends at once where its domain is in the state asked
for, leaving an exit under way alone, is refused where it does not start from ON, and is queued behind a current one; a unit that accepts has
done so for good, the entry starts in the cycle after all units have accepted, and a refusal, or a delay of 4 ticks, ends the request. -/
def Obligations.PowerRequests : Prop :=
  ∀ s : State,
    (∀ (data : Word) (d tgt : Nat), Ready s → d = fld data 0 7 → tgt = fld data 8 2 →
      (tgt = 3 → Runs (.pwrReq 0 0xF data) s { s with out := [] }) ∧
      (domAO ≤ d → tgt ≠ 3 → ∃ t, Runs (.pwrReq 0 0xF data) s t ∧ (∀ e, (pdom t e).cur = (pdom s e).cur ∧ (pdom t e).state = (pdom s e).state) ∧
        Changes noted s t) ∧
      (d < domAO → tgt ≠ 3 → (pdom s d).cur = none →
        ((pdom s d).state = tgt → ∃ t, Runs (.pwrReq 0 0xF data) s t ∧ (pdom t d).res = 1 ∧ (pdom t d).cur = none ∧ (pdom t d).state = tgt ∧
          (pdom t d).phase = (pdom s d).phase ∧ (d ≠ domHP → pdom t d = { pdom s d with res := 1, cause := 0 }) ∧ Changes noted s t) ∧
        ((pdom s d).state = 0 → tgt ≠ 0 → ∃ t, Runs (.pwrReq 0 0xF data) s t ∧
          pdom t d = { pdom s d with cur := some tgt, curAt := s.tim.now, wake := firedAt s d s.tim.now, wakeAt := s.tim.now, acc := 0,
                                     phase := 1 } ∧ (d < 64 → (chnOf t d).closing = true) ∧
          Changes [.pwr, .chn, .qbm, .cnt] s t) ∧
        ((pdom s d).state ≠ 0 → tgt = 0 → ∃ t, Runs (.pwrReq 0 0xF data) s t ∧
          pdom t d = { pdom s d with cur := some 0, curAt := s.tim.now } ∧ Changes [.pwr, .cnt] s t) ∧
        ((pdom s d).state ≠ 0 → tgt ≠ 0 → tgt ≠ (pdom s d).state → ∃ t, Runs (.pwrReq 0 0xF data) s t ∧ (pdom t d).res = 2 ∧
          (pdom t d).cause = 11 ∧ (pdom t d).cur = none ∧ (pdom t d).state = (pdom s d).state ∧ Changes noted s t)) ∧
      (d < domAO → tgt ≠ 3 → (pdom s d).cur ≠ none → ∃ t, Runs (.pwrReq 0 0xF data) s t ∧ (pdom t d).queued = some tgt ∧
        (pdom t d).cur = (pdom s d).cur ∧ ((pdom s d).queued ≠ none → (pdom t d).res = 5) ∧ Changes [.pwr, .cnt] s t)) ∧
    (∀ (dom : BitVec 7) (a : List UnitAns), (pdom s dom.toNat).phase = 1 → a = answers dom.toNat s →
      ((pdom s dom.toNat).curAt + 1 ≤ s.tim.now → refusalOf a = none → .delay ∉ a →
        ∃ t, Runs (.entryHandshakeDone dom) s t ∧ pdom t dom.toNat = { pdom s dom.toNat with acc := 0, phase := 2, a := s.tim.now + 1, point := 1 } ∧
          t.out = [] ∧ Changes [.pwr] s t) ∧
      ((pdom s dom.toNat).curAt + 1 ≤ s.tim.now → refusalOf a = none → .delay ∈ a →
        ∃ t, Runs (.entryHandshakeDone dom) s t ∧ pdom t dom.toNat = { pdom s dom.toNat with acc := (pdom t dom.toNat).acc } ∧
          (∀ i, (pdom t dom.toNat).acc.testBit i = (a[i]? == some .accept)) ∧ t.out = [] ∧ Changes [.pwr] s t) ∧
      (∀ c, (pdom s dom.toNat).curAt + 1 ≤ s.tim.now → refusalOf a = some c → (pdom s dom.toNat).queued = none →
        ∃ t, Runs (.entryHandshakeDone dom) s t ∧ (pdom t dom.toNat).res = 2 ∧ (pdom t dom.toNat).cause = c ∧ (pdom t dom.toNat).cur = none ∧
          (pdom t dom.toNat).phase = 0 ∧ (pdom t dom.toNat).state = (pdom s dom.toNat).state ∧ Changes (.chn :: .qbm :: noted) s t) ∧
      ((pdom s dom.toNat).curAt + 625000 ≤ s.tim.now → refusalOf a = none → .delay ∈ a → (pdom s dom.toNat).queued = none →
        ∃ t, Runs (.handshakeDelayLimit dom) s t ∧ (pdom t dom.toNat).res = 2 ∧ (pdom t dom.toNat).cause = 9 ∧ (pdom t dom.toNat).cur = none ∧
          (pdom t dom.toNat).phase = 0 ∧ Changes (.chn :: .qbm :: noted) s t))

/-- R442 to R445, R455: at the four abort points PWC_ISO rises, nothing changes, retention is taken from the RETSEL bits for RET, and PWC_PGATE rises; a wake event
raised before a point abandons the entry there, and the domain is ON once its undo steps have passed; PWC_PACK's rise reaches the state, and its absence for 4 ticks
is STATE_TMO. What takes cycles is stated where no turn waits for its cycle and no beat ends in between (log entry 2). -/
def Obligations.PowerEntry : Prop :=
  ∀ (s : State) (dom : BitVec 7) (p : PDom), pdom s dom.toNat = p → p.phase = 2 →
    (p.wake = 0 → p.a + [0, 0, 16, 32, 64].getD p.point 0 ≤ s.tim.now →
      (p.point = 1 → ∃ t, Runs (.entryAbortPoint dom) s t ∧ (pdom t dom.toNat).iso = true ∧ (pdom t dom.toNat).point = 2 ∧
        (pdom t dom.toNat).gate = p.gate ∧ Changes (.pwr :: .regs :: .tst :: faulted) s t) ∧
      (p.point = 2 → ∃ t, Runs (.entryAbortPoint dom) s t ∧ pdom t dom.toNat = { p with point := 3 } ∧ Changes [.pwr] s t) ∧
      (p.point = 3 → ∃ t, Runs (.entryAbortPoint dom) s t ∧ (pdom t dom.toNat).ret = (p.cur == some 1) ∧ (pdom t dom.toNat).point = 4 ∧
        (pdom t dom.toNat).kept = (if p.cur = some 1 then BitVec.ofNat 2 (regF s (pagePWR + 0x1200 + 4 * dom.toNat) 0 2) else 0) ∧
        (pdom t dom.toNat).iso = p.iso ∧ (pdom t dom.toNat).gate = p.gate ∧ Changes [.pwr] s t) ∧
      (p.point = 4 → ∃ t, Runs (.entryAbortPoint dom) s t ∧ pdom t dom.toNat = { p with gate := true, point := 5 } ∧ Changes [.pwr] s t)) ∧
    (p.wake ≠ 0 → 0 < p.point → p.point ≤ 4 → p.a + 128 ≤ s.tim.now → p.queued = none →
      ∃ t, Runs (.entryAbortPoint dom) s t ∧ (pdom t dom.toNat).state = p.state ∧ (pdom t dom.toNat).iso = false ∧
        (pdom t dom.toNat).ret = false ∧ (pdom t dom.toNat).gate = false ∧ (pdom t dom.toNat).cur = none ∧ (pdom t dom.toNat).res = 3 ∧
        t.pwr.lwDom = dom.toNat ∧ t.pwr.lwSrc = p.wake ∧ t.pwr.lwOut = 1 + p.point ∧ Changes (.pwr :: .chn :: .qbm :: .skm :: noted) s t) ∧
    (∀ due, p.wake ≠ 0 → 0 < p.point → p.point ≤ 4 → p.a + [0, 0, 16, 32, 64].getD p.point 0 ≤ s.tim.now → p.queued = none → Still s →
      due = p.a + [0, 0, 32, 64, 128].getD p.point 0 → s.tim.now < due → (s.tim.started = true → due - s.tim.now < toNextBeat s) →
      (s.tim.started = false → startCyc s = none) →
      ∃ t, Runs (.entryAbortPoint dom) s t ∧ t.tim.now = due ∧ (pdom t dom.toNat).state = p.state ∧ (pdom t dom.toNat).iso = false ∧
        (pdom t dom.toNat).gate = false ∧ (pdom t dom.toNat).cur = none ∧ (pdom t dom.toNat).res = 3 ∧ t.tre = s.tre ∧ t.regs = s.regs ∧
        t.pending = s.pending) ∧
    (p.point = 5 → p.queued = none →
      ((dom.toNat = domHP → s.hrd.ring = []) →
        ∃ t, Runs (.powerAckRise dom) s t ∧ (pdom t dom.toNat).state = p.cur.getD 2 ∧ (pdom t dom.toNat).res = 1 ∧ (pdom t dom.toNat).cur = none ∧
          t.tim = s.tim ∧ t.regs = s.regs ∧ t.pending = s.pending) ∧
      (p.a + 625000 ≤ s.tim.now → Still s → (s.tim.started = true → 64 < toNextBeat s) → (s.tim.started = false → startCyc s = none) →
        ∃ t, Runs (.powerEntryTimeout dom) s t ∧ (pdom t dom.toNat).gate = false ∧ (pdom t dom.toNat).iso = false ∧
          (pdom t dom.toNat).ret = false ∧ (pdom t dom.toNat).res = 4 ∧
          (pdom t dom.toNat).cur = none ∧ (pdom t dom.toNat).state = p.state ∧ bit (fltOf t 2).st 0 = true ∧
          t.regs = s.regs ∧ t.tre = s.tre ∧ t.pending = s.pending)) ∧
    (∀ g, p.point = 5 → p.queued = some g → p.state = 0 → (g = 1 ∨ g = 2) → p.a + 625000 ≤ s.tim.now → Still s →
      (s.tim.started = true → 64 < toNextBeat s) → (s.tim.started = false → startCyc s = none) →
      ∃ t, Runs (.powerEntryTimeout dom) s t ∧ (pdom t dom.toNat).res = 4 ∧ (pdom t dom.toNat).cur = some g ∧
        (pdom t dom.toNat).queued = none ∧ (pdom t dom.toNat).phase = 1 ∧ bit (fltOf t 2).st 0 = true)

/-- R445 to R449, R451: a wake source that is enabled is taken by a domain that is not ON or leaves ON; the exit lowers PWC_PGATE, a port whose home slice sleeps
raises CHAIN for it first; PWC_PACK's fall starts the exit work, whose end is ON; its absence for 4 ticks is STATE_TMO, once. -/
def Obligations.PowerExit : Prop :=
  ∀ s : State,
    (∀ (tree : BitVec 6) (p : PDom), pdom s (domTP tree.toNat) = p →
      (regB s (pagePWR + 0x1000 + 4 * domTP tree.toNat) 4 = true →
        (¬(p.state = 0 ∧ (p.cur = none ∨ s.tim.now < p.curAt)) → p.phase ≠ 3 → p.wake = 0 → ∃ t, Runs (.sdWake tree) s t ∧
          pdom t (domTP tree.toNat) = { p with wake := 5, wakeAt := s.tim.now } ∧ (∀ e, e ≠ domTP tree.toNat → pdom t e = pdom s e) ∧
          (treOf t tree.toNat).sd = true ∧ Changes [.pwr, .tre] s t) ∧
        (p.state = 0 → p.cur = none → ∃ t, Runs (.sdWake tree) s t ∧ (∀ e, pdom t e = pdom s e) ∧
          firedAt t (domTP tree.toNat) s.tim.now ≠ 0 ∧ firedAt t (domTP tree.toNat) s.tim.now ≤ 5 ∧ (treOf t tree.toNat).sd = true ∧
          Changes [.pwr, .tre] s t)) ∧
      (regB s (pagePWR + 0x1000 + 4 * domTP tree.toNat) 4 = false → ∃ t, Runs (.sdWake tree) s t ∧ (treOf t tree.toNat).sd = true ∧
        t.out = [] ∧ Changes [.tre] s t)) ∧
    (∀ (dom : BitVec 7) (p : PDom), pdom s dom.toNat = p →
      (p.state ≠ 0 → p.phase ≠ 3 → (p.wake ≠ 0 ∨ p.cur = some 0) →
        ((∀ h, homeOfDom s dom.toNat = some h → domOn s (domSL h) = true) → exitDue s dom.toNat ≤ s.tim.now →
          ∃ t, Runs (.powerExitStart dom) s t ∧ (pdom t dom.toNat).gate = false ∧ (pdom t dom.toNat).phase = 3 ∧
            (pdom t dom.toNat).a = s.tim.now ∧ (pdom t dom.toNat).state = p.state ∧
            (p.wake ≠ 0 → (pdom t dom.toNat).lwsrc = p.wake ∧ t.pwr.lwDom = dom.toNat ∧ t.pwr.lwSrc = p.wake) ∧ Changes noted s t) ∧
        (∀ h, homeOfDom s dom.toNat = some h → domOn s (domSL h) = false →
          ∃ t, Runs (.powerExitStart dom) s t ∧ pdom t dom.toNat = { p with chain := true } ∧
            (h < 9 → (pdom s (domSL h)).state ≠ 0 → (pdom s (domSL h)).phase ≠ 3 → (pdom s (domSL h)).wake = 0 → (pdom t (domSL h)).wake = 6) ∧ Changes [.pwr] s t)) ∧
      (p.phase = 3 → p.point ≠ 6 →
        (∃ t, Runs (.powerAckFall dom) s t ∧ pdom t dom.toNat = { p with ret := false, point := 6, a := s.tim.now + exitWork dom.toNat p,
                                                                                      copy := exitCopies dom.toNat p } ∧
          Changes [.pwr] s t) ∧
        (p.tmo = false → p.a + 625000 ≤ s.tim.now → ∃ t, Runs (.powerExitTimeout dom) s t ∧ (pdom t dom.toNat).tmo = true ∧
          (pdom t dom.toNat).phase = 3 ∧ bit (fltOf t 2).st 0 = true ∧ Changes faulted s t) ∧
        (p.tmo = true → Runs (.powerExitTimeout dom) s { s with out := [] })) ∧
      (p.phase = 3 → p.point = 6 → p.a ≤ s.tim.now → p.queued = none →
        (dom.toNat = domHP → s.hrd.ring = [] ∧ s.hrd.held = [] ∧ s.hrd.npend = [] ∧ s.hrd.nsince = []) →
        ∃ t, Runs (.powerExitDone dom) s t ∧ (pdom t dom.toNat).state = 0 ∧ (pdom t dom.toNat).phase = 0 ∧ (pdom t dom.toNat).iso = false ∧
          (p.cur = some 0 → (pdom t dom.toNat).res = 1 ∧ (pdom t dom.toNat).cur = none) ∧
          (dom.toNat < 64 → (treOf t dom.toNat).emitFrom = 10 * (s.tim.tick + 1)) ∧ t.tim = s.tim ∧ t.regs = s.regs ∧
          t.pending = s.pending))

/-! ## Faults -/

/-- R418, R423, R426, R427, R430, R431: FLT_STAT's W1C clears bits, but for those of persistent causes and those raised in its cycle, and releases the capture with the last; FLT_MASK and FLT_VEC
take their fields and send the interrupt where a set bit comes unmasked, or IEN rises over one, but for a source whose own report comes in the next cycle; FLT_FORCE raises its
sources in the cycle after the write. Every other
partition's write changes nothing but the violation counter.
That IEN sends only as it rises is the model's reading of R423 (log entry 6). -/
def Obligations.FaultSets : Prop :=
  ∀ (s : State) (inst : BitVec 7) (data : Word) (i : Nat), Ready s → i = inst.toNat → i < 110 →
    (persisting s = [] → (fltOf s i).last.at_ ≠ s.tim.now →
      (((fltOf s i).st &&& ~~~data) = 0 → ∃ t, Runs (.fltStatClear 0 inst 0xF data) s t ∧ (fltOf t i).st = 0 ∧ (fltOf t i).cap = none ∧
        (fltOf t i).more = 0 ∧ (∀ j, j ≠ i → fltOf t j = fltOf s j) ∧ t.out = [] ∧ Changes [.flt] s t) ∧
      (((fltOf s i).st &&& ~~~data) ≠ 0 → ∃ t, Runs (.fltStatClear 0 inst 0xF data) s t ∧
        (fltOf t i).st = (fltOf s i).st &&& ~~~data ∧ (fltOf t i).cap = (fltOf s i).cap ∧ (fltOf t i).more = (fltOf s i).more ∧ (∀ j, j ≠ i → fltOf t j = fltOf s j) ∧ t.out = [] ∧
        Changes [.flt] s t)) ∧
    (∃ t, Runs (.fltStatClear 0 inst 0xF data) s t ∧ (∀ b, b < 32 →
        bit (fltOf t i).st b = (bit (fltOf s i).st b && (!(bit data b) || bit (cycOf s (fltOf s i)).raised b || decide ((i, b) ∈ persisting s)))) ∧
        ((fltOf t i).st ≠ 0 → (fltOf t i).more = (fltOf s i).more) ∧ Changes [.flt] s t) ∧
    (∃ t, Runs (.fltMaskWrite 0 inst 0xF data) s t ∧ reg t (rFltMask i) = data &&& fltBits i ∧ (∀ a, a ≠ rFltMask i → reg t a = reg s a) ∧
      t.out = (if (reg s (rFltMask i) &&& ~~~data &&& (fltOf s i).st &&& ~~~(fltFresh s i)) ≠ 0 ∧ regB s (rFltVec i) 12 = true
        then [.irq (regF s (rFltVec i) 0 12) 0] else []) ∧ Changes [.regs] s t) ∧
    (∃ t, Runs (.fltVecWrite 0 inst 0xF data) s t ∧ reg t (rFltVec i) = data &&& 0x3FFF ∧ (∀ a, a ≠ rFltVec i → reg t a = reg s a) ∧
      t.out = (if regB s (rFltVec i) 12 = false ∧ bit data 12 = true ∧ (fltOpen s i &&& ~~~(fltFresh s i)) ≠ 0 then [.irq (fld data 0 12) 0] else []) ∧
      Changes [.regs] s t) ∧
    (data &&& fltBits i ≠ 0 → Runs (.fltForce 0 inst 0xF data) s
      { s with hrd := { s.hrd with later := s.hrd.later ++ [(s.tim.now + 1, .force i (data &&& fltBits i))] }, out := [] }) ∧
    (data &&& fltBits i = 0 → Runs (.fltForce 0 inst 0xF data) s { s with out := [] }) ∧
    (Idles s → s.hrd.later = [(s.tim.now + 1, .force i data)] →
      (i < 12 → data &&& fltBits i ≠ 0 → ∃ t, step s = .next t ∧ (∀ b, b < fltSources i → bit data b = true → bit (fltOf t i).st b = true) ∧
        ((fltOf s i).cap = none → (fltOf s i).last.at_ ≤ s.tim.now →
          ∃ c, (fltOf t i).cap = some c ∧ c.forced = true ∧ c.at_ = s.tim.now + 1) ∧
        (∀ j, j ≠ i → (fltOf t j).st = (fltOf s j).st) ∧ Changes (.tim :: faulted) s t) ∧
      (21 ≤ i → i ≤ 84 → data = 0x80 → ∃ t, step s = .next t ∧ (treOf t (i - 21)).fenced = true ∧
        bit (fltOf t i).st 7 = true ∧ (∀ u, u ≠ i - 21 → treOf t u = treOf s u) ∧ Changes (.tim :: .tre :: faulted) s t)) ∧
    (∀ (part : BitVec 6) (c : Instr), part ≠ 0 →
      (c = .fltStatClear part inst 0xF data ∨ c = .fltMaskWrite part inst 0xF data ∨ c = .fltVecWrite part inst 0xF data ∨
        c = .fltForce part inst 0xF data) → ∃ t, Runs c s t ∧ t.out = [] ∧ Changes [.cnt] s t)

/-- R428, R429: at the end of its pulse FAULT_OUT stays asserted where it latches and no release was written, else it is released; REL
releases it from the next cycle on; after the recovery an event that waited asserts it again. R338, R387, R425: a vote that disagrees counts and raises the TIM
fault 0 with its group; duplicated state machines that disagree fence a tree port (fault 7) or an uplink port (fault 2), or take a spare
slice out (cause 3). A partition-table word whose copies both fail reads as partition 0, a terminal whose context is lost becomes Lost, a
counter whose word is lost restarts from 0: the row DUPLICATE_STATE_MISMATCH carries these errors by log entry 11. -/
def Obligations.FaultPinAndDetectors : Prop :=
  (∀ s : State,
    (s.glb.pin = .pulse →
      (s.glb.pinAt + 2500 ≤ s.tim.now →
        (regB s 0x80 1 = true → s.glb.pinRel = false → ∃ t, Runs .faultPulseEnd s t ∧ t.glb = { s.glb with pin := .held } ∧
          Changes [.glb] s t) ∧
        (regB s 0x80 1 = false ∨ s.glb.pinRel = true → ∃ t, Runs .faultPulseEnd s t ∧ t.glb.pin = .recovery ∧ t.glb.pinAt = s.tim.now ∧
          Changes [.glb] s t)) ∧
      (Ready s → ∃ t, Runs (.faultPinRel 0) s t ∧ t.glb = { s.glb with pinRel := true } ∧ Changes [.glb] s t)) ∧
    (s.glb.pin = .held →
      (Ready s → Runs (.faultPinRel 0) s { s with hrd := { s.hrd with later := s.hrd.later ++ [(s.tim.now + 1, .pinOff)] }, out := [] }) ∧
      (Idles s → s.hrd.later = [(s.tim.now + 1, .pinOff)] → ∃ t, step s = .next t ∧ t.glb.pin = .recovery ∧ t.glb.pinAt = s.tim.now + 1 ∧
        t.glb.pinWait = (s.glb.pinEv == some s.tim.now) ∧ t.hrd.later = [] ∧ t.out = [.faultOut (pinLine s false)] ∧ t.regs = s.regs ∧
        t.tre = s.tre ∧ t.qbm = s.qbm ∧ t.pwr = s.pwr)) ∧
    ((s.glb.pin = .idle ∨ s.glb.pin = .recovery) → Ready s → Runs (.faultPinRel 0) s { s with out := [] }) ∧
    (s.glb.pin = .recovery → s.glb.pinAt + 1250 ≤ s.tim.now →
      (s.glb.pinWait = true → ∃ t, Runs .faultPinRecoveryEnd s t ∧ t.glb.pin = .pulse ∧ t.glb.pinWait = false ∧ t.glb.pinAt = s.tim.now ∧
        Changes [.glb] s t) ∧
      (s.glb.pinWait = false → ∃ t, Runs .faultPinRecoveryEnd s t ∧ t.glb = { s.glb with pin := .idle } ∧ Changes [.glb] s t))) ∧
  (∀ s : State,
    (∀ group : Word, ∃ t, Runs (.tripletVoteDisagree group) s t ∧ bit (fltOf t 3).st 0 = true ∧
      ((fltOf s 3).cap = none → (fltOf s 3).last.at_ ≠ s.tim.now → ∃ c, (fltOf t 3).cap = some c ∧ c.addr = group ∧ c.src = 0) ∧ t.tim = s.tim ∧ Changes faulted s t) ∧
    (∀ tree : BitVec 6, ∃ t, Runs (.duplicateStateMismatch (.tree tree)) s t ∧ (treOf t tree.toNat).fenced = true ∧
      bit (fltOf t (iTRE tree.toNat)).st 7 = true ∧ (∀ u, u ≠ tree.toNat → treOf t u = treOf s u) ∧ Changes (.tre :: .fresh :: faulted) s t) ∧
    (∀ port : BitVec 4, ∃ t, Runs (.duplicateStateMismatch (.port port)) s t ∧ (uplOf t port.toNat).fenced = true ∧
      bit (fltOf t (iUPL port.toNat)).st 2 = true ∧ t.tre = s.tre ∧ t.regs = s.regs ∧ t.pending = s.pending) ∧
    (∀ i : Fin 9, roleOf s i.val = .spare → ∃ t, Runs (.duplicateStateMismatch (.slice i)) s t ∧ roleOf t i.val = .failed ∧
      bit (fltOf t (iSLC i.val)).st 2 = true ∧ t.glb.homeTree = s.glb.homeTree ∧ Changes (.skm :: .fresh :: faulted) s t) ∧
    (∀ w : BitVec 16, prtSpec w.toNat ≠ none → ∃ t, Runs (.duplicateStateMismatch (.mem (.prt w))) s t ∧
      prtOwner t (pagePRT + w.toNat) = 0 ∧ (∀ a, a ≠ pagePRT + w.toNat → prtOwner t a = prtOwner s a) ∧ bit (fltOf t 1).st 0 = true ∧
      Changes faulted s t) ∧
    (∀ (tree : BitVec 6) (tid : BitVec 10) (st : TState), (ctxOf s tree.toNat tid.toNat).state = st →
      st ≠ .unknown → st ≠ .lost → st ≠ .released →
      ∃ t, Runs (.duplicateStateMismatch (.mem (.terminal tree tid))) s t ∧ (ctxOf t tree.toNat tid.toNat).state = .lost ∧
        bit (fltOf t (iTRE tree.toNat)).st 3 = true ∧ (∀ u, u ≠ tree.toNat → treOf t u = treOf s u) ∧ Changes (.tre :: faulted) s t) ∧
    (∀ (inst : BitVec 7) (num : BitVec 4), ∃ t, Runs (.duplicateStateMismatch (.mem (.counter inst num))) s t ∧
      tGet 0 t.cnt.val (16 * inst.toNat + num.toNat) = 0 ∧ bit (fltOf t 10).st 0 = true ∧ Changes faulted s t))

/-! ## Counters -/

/-- R458, R459, R469, R472, R475, R478, R513, R522: a CNT_SEL that changes its event, FEN or FILT sets its counter to 0; CNT_VAL_HI commits a pair, into the reload value too; what
either sets stands through its cycle, whose events are not counted; CNT_CLR clears the counters of its
bits; CNT_SMP_CI is taken where it names a written entry; CNT_SLOT_SNAP takes every section's slots; a write of PROBE arms the probe of its Ventriloquist. -/
def Obligations.CounterCommands : Prop :=
  ∀ (s : State) (data : Word), Ready s →
    (∀ (inst : BitVec 7) (num : BitVec 4) (k : Nat), inst.toNat ≤ 109 → k = 16 * inst.toNat + num.toNat →
      (∃ t, Runs (.cntSelWrite 0 inst num 0xF data) s t ∧ reg t (rCntSel inst.toNat num.toNat) = data &&& 0x7FFFFFFF ∧
        (∀ a, a ≠ rCntSel inst.toNat num.toNat → reg t a = reg s a) ∧
        (selKey (reg s (rCntSel inst.toNat num.toNat)) = selKey (data &&& 0x7FFFFFFF) → t.cnt = s.cnt) ∧
        (selKey (reg s (rCntSel inst.toNat num.toNat)) ≠ selKey (data &&& 0x7FFFFFFF) → tGet 0 t.cnt.val k = 0 ∧
          ∀ evt amt, tGet 0 (countN inst.toNat evt amt t).cnt.val k = 0) ∧
        (∀ j, j ≠ k → tGet 0 t.cnt.val j = tGet 0 s.cnt.val j) ∧ Changes [.regs, .cnt] s t) ∧
      (∀ lo : Word, tFind (pkey 0 (rCntVal inst.toNat num.toNat)) s.regs.loHeld = some lo →
        ∃ t, Runs (.cntValWrite 0 inst num 0xF data) s t ∧ tGet 0 t.cnt.val k = lo.toNat + 2 ^ 32 * fld data 0 16 ∧
          tGet 0 t.cnt.reload k = lo.toNat + 2 ^ 32 * fld data 0 16 ∧ (∀ j, j ≠ k → tGet 0 t.cnt.val j = tGet 0 s.cnt.val j) ∧
          (∀ evt amt, tGet 0 (countN inst.toNat evt amt t).cnt.val k = lo.toNat + 2 ^ 32 * fld data 0 16) ∧ (∀ a, reg t a = reg s a) ∧ Changes [.regs, .cnt] s t) ∧
      (∃ t, Runs (.cntClr 0 inst 0xF data) s t ∧
        (∀ j, (j / 16 = inst.toNat ∧ bit data (j % 16) = true → tGet 0 t.cnt.val j = 0 ∧ tGet 0 t.cnt.reload j = 0) ∧
          (¬(j / 16 = inst.toNat ∧ bit data (j % 16) = true) → tGet 0 t.cnt.val j = tGet 0 s.cnt.val j)) ∧ Changes [.cnt] s t)) ∧
    (∀ size used : Nat, size = 2 ^ smpK s → used = (s.cnt.sWr + 2 * size - s.cnt.sCi % (2 * size)) % (2 * size) →
      (fld data 0 17 < 2 * size → (fld data 0 17 + 2 * size - s.cnt.sCi % (2 * size)) % (2 * size) ≤ used →
        ∃ t, Runs (.cntSmpCiWrite 0 0xF data) s t ∧ t.cnt = { s.cnt with sCi := fld data 0 17 } ∧ Changes [.cnt] s t) ∧
      (2 * size ≤ fld data 0 17 → Runs (.cntSmpCiWrite 0 0xF data) s { s with out := [] })) ∧
    (bit data 0 = true → ∃ t, Runs (.cntSlotSnap 0 0xF data) s t ∧ (∀ k, k < 18 → tGet Lane.empty t.cnt.snap k = laneNow s k) ∧
      t.cnt.snapRound = s.cnt.snapRound ∧ Changes [.cnt] s t) ∧
    (∀ num : BitVec 2, ∃ t, Runs (.vqProbe 0 num) s t ∧ (vqAt t num.toNat).probe = true ∧ (vqAt t num.toNat).probeFrame = none ∧
      ((vqAt s num.toNat).probe = true → (vqAt t num.toNat).ptx = 0 ∧ (vqAt t num.toNat).prx = 0) ∧
      (∀ n, n ≠ num.toNat → vqAt t n = vqAt s n) ∧ Changes [.tst] s t)

/-- R465 to R470, R420: the Milk Round's list is written and read on the standby page at an index that advances; a due round starts in cycle 0 with the pages
swapped if asked and reads its first entry, or is skipped while another runs or HP is not ON; its last acknowledgement sets DONESEQ and sends the interrupt, an error or
20,000 cycles without one abandon it with the CNT fault 1.
The first round's number and the start in cycle 0 are the model's reading (log entry 27). -/
def Obligations.MilkRound : Prop :=
  ∀ s : State,
    (∀ data : Word, Ready s → s.cnt.lidx < 65536 →
      (∃ t, Runs (.mrListAccess 0 true 0xF data) s t ∧ t.cnt.lidx = (s.cnt.lidx + 1) % 65536 ∧
        (∀ j, tGet 0 (if s.cnt.page then t.cnt.list0 else t.cnt.list1) j =
          if j = s.cnt.lidx then data else tGet 0 (if s.cnt.page then s.cnt.list0 else s.cnt.list1) j) ∧
        (if s.cnt.page then t.cnt.list1 = s.cnt.list1 else t.cnt.list0 = s.cnt.list0) ∧ t.out = [] ∧ Changes [.cnt] s t) ∧
      (∃ t, Runs (.mrListAccess 0 false 0xF data) s t ∧ t.cnt = { s.cnt with lidx := (s.cnt.lidx + 1) % 65536 } ∧
        t.out = [.regRead (tGet 0 (if s.cnt.page then s.cnt.list0 else s.cnt.list1) s.cnt.lidx)] ∧ Changes [.cnt] s t)) ∧
    (Ready s → ∃ t, Runs (.mrSwap 0) s t ∧ t.cnt = { s.cnt with swap := true } ∧ Changes [.cnt] s t) ∧
    (s.cnt.mrDue = true → cyc s = 0 →
      (s.cnt.round = none → domOn s domHP = true → 1 < regF s pageCNT 8 17 →
        ∃ t r, Runs .milkRoundStart s t ∧ t.cnt.round = some r ∧ r.seq = (s.cnt.seq + 1) % 2 ^ 16 ∧ r.tick = s.tim.tick ∧
          r.len = regF s pageCNT 8 17 ∧ r.base = regPair s (pageCNT + 8) ∧ r.got = 1 ∧ t.cnt.seq = r.seq ∧ t.cnt.mrPer = regF s pageCNT 1 7 ∧ t.cnt.mrCfg = reg s (pageCNT + 4) ∧
          t.cnt.page = (s.cnt.page != s.cnt.swap) ∧ t.cnt.swap = false ∧ t.cnt.mrDue = false ∧ Changes [.cnt, .fresh] s t) ∧
      (s.cnt.round ≠ none ∨ domOn s domHP = false →
        ∃ t, Runs .milkRoundStart s t ∧ t.cnt.skips = min 0xFFFF (s.cnt.skips + 1) ∧ t.cnt.mrDue = false ∧ t.cnt.round = s.cnt.round ∧
          t.cnt.seq = s.cnt.seq ∧ Changes [.cnt] s t)) ∧
    (s.cnt.round = none → s.hrd.npend = [] → s.hrd.wq = [] → (∀ e ∈ s.hrd.ring, e.2.recs = []) →
      (∀ q l, s.cnt.ackw = q :: l → (roundWrites s q).length ≤ 1 →
        ∃ t, Runs (.milkRoundDone false) s t ∧ t.cnt = { s.cnt with ackw := l, doneSeq := q } ∧ roundWrites t q = [] ∧
          t.out = (if bit s.cnt.mrCfg 8 then [.irq (fld s.cnt.mrCfg 9 12) 0] else []) ∧ Changes [.cnt, .hrd] s t) ∧
      (∀ q x, oldestRoundWrite s = some (q, x) →
        ∃ t, Runs (.milkRoundDone true) s t ∧ q ∉ t.cnt.ackw ∧ t.cnt.doneSeq = s.cnt.doneSeq ∧ bit (fltOf t 10).st 1 = true ∧
          Changes faulted s t)) ∧
    (∀ q x, oldestRoundWrite s = some (q, x) → x.at_ + 20000 ≤ s.tim.now →
      ∃ t, Runs .mrWriteTimeout s t ∧ q ∉ t.cnt.ackw ∧ (∀ r, t.cnt.round = some r → r.seq ≠ q) ∧ x ∈ t.hrd.lateW ∧
        bit (fltOf t 10).st 1 = true ∧ Changes faulted s t)
end

