-- ==== Sys2Proof/Laws/Tab.lean ====
section
/-!
SUPPORT. Sparse tables: what a read gives after an update, and that updates keep the canonical form.
-/

namespace Sys2Proof.Machine

-- one declaration at a time: the package is compiled as one text within a limit of memory
set_option Elab.async false

variable {α : Type}

/-! ## Reads after updates -/

theorem tFind_tPut_same (k : Nat) (v : α) : ∀ t : Tab α, tFind k (tPut k v t) = some v
  | [] => by simp [tPut, tFind]
  | (j, w) :: t => by
    have ih := tFind_tPut_same k v t
    unfold tPut
    split
    · simp [tFind]
    · split
      · simp [tFind]
      · next h => simp only [tFind]; rw [if_neg (Ne.symm h), ih]

theorem tFind_tPut_other {k k' : Nat} (h : k' ≠ k) (v : α) : ∀ t : Tab α, tFind k' (tPut k v t) = tFind k' t
  | [] => by simp [tPut, tFind, Ne.symm h]
  | (j, w) :: t => by
    have ih := tFind_tPut_other h v t
    unfold tPut
    split
    · simp [tFind, Ne.symm h]
    · split
      · next e => subst e; simp [tFind, Ne.symm h]
      · simp only [tFind, ih]

theorem tFind_tDel_same (k : Nat) : ∀ t : Tab α, tFind k (tDel k t) = none
  | [] => rfl
  | (j, w) :: t => by
    have ih := tFind_tDel_same k t
    unfold tDel at ih ⊢
    by_cases h : j = k
    · subst h; simpa using ih
    · simp [h, tFind, ih]

theorem tFind_tDel_other {k k' : Nat} (h : k' ≠ k) : ∀ t : Tab α, tFind k' (tDel k t) = tFind k' t
  | [] => rfl
  | (j, w) :: t => by
    have ih := tFind_tDel_other h t
    unfold tDel at ih ⊢
    by_cases e : j = k
    · subst e; simp [tFind, Ne.symm h, ih]
    · simp [e, tFind, ih]

@[simp] theorem tGet_tPut_same (d : α) (t : Tab α) (k : Nat) (v : α) : tGet d (tPut k v t) k = v := by
  simp [tGet, tFind_tPut_same]

theorem tGet_tPut_other {k k' : Nat} (h : k' ≠ k) (d : α) (t : Tab α) (v : α) : tGet d (tPut k v t) k' = tGet d t k' := by
  simp [tGet, tFind_tPut_other h]

@[simp] theorem tGet_tDel_same (d : α) (t : Tab α) (k : Nat) : tGet d (tDel k t) k = d := by simp [tGet, tFind_tDel_same]

theorem tGet_tDel_other {k k' : Nat} (h : k' ≠ k) (d : α) (t : Tab α) : tGet d (tDel k t) k' = tGet d t k' := by
  simp [tGet, tFind_tDel_other h]

@[simp] theorem tGet_nil (d : α) (k : Nat) : tGet d ([] : Tab α) k = d := rfl

@[simp] theorem tGet_tSet_same [DecidableEq α] (d : α) (t : Tab α) (k : Nat) (v : α) : tGet d (tSet d t k v) k = v := by
  unfold tSet; split
  · next h => subst h; simp
  · simp

theorem tGet_tSet_other [DecidableEq α] {k k' : Nat} (h : k' ≠ k) (d' d : α) (t : Tab α) (v : α) :
    tGet d' (tSet d t k v) k' = tGet d' t k' := by
  unfold tSet; split
  · exact tGet_tDel_other h d' t
  · exact tGet_tPut_other h d' t v

/-! ## The canonical form -/

theorem mem_tPut {k : Nat} {v : α} {e : Nat × α} : ∀ {t : Tab α}, e ∈ tPut k v t → e = (k, v) ∨ e ∈ t
  | [], h => by simp only [tPut, List.mem_singleton] at h; exact .inl h
  | (j, w) :: t, h => by
    unfold tPut at h
    split at h
    · simpa using h
    · split at h
      · rcases List.mem_cons.mp h with h | h
        · exact .inl h
        · exact .inr (List.mem_cons_of_mem _ h)
      · rcases List.mem_cons.mp h with h | h
        · exact .inr (h ▸ List.mem_cons_self)
        · exact (mem_tPut h).imp_right (List.mem_cons_of_mem _)

theorem mem_tDel {k : Nat} {e : Nat × α} {t : Tab α} (h : e ∈ tDel k t) : e ∈ t := List.mem_of_mem_filter h

/-- Rising keys, as a chain. -/
theorem tRising_cons {a : Nat × α} : ∀ {t : Tab α}, tRising (a :: t) = true ↔ tRising t = true ∧ ∀ b ∈ t.head?, a.1 < b.1
  | [] => by simp [tRising]
  | b :: t => by simp [tRising, and_comm]

theorem tRising_lt {a : Nat × α} : ∀ {t : Tab α}, tRising (a :: t) = true → ∀ b ∈ t, a.1 < b.1
  | [], _, _, hb => by cases hb
  | c :: t, h, b, hb => by
    simp only [tRising, Bool.and_eq_true, decide_eq_true_eq] at h
    rcases List.mem_cons.mp hb with rfl | hb
    · exact h.1
    · exact Nat.lt_trans h.1 (tRising_lt h.2 b hb)

theorem tRising_of_lt {a : Nat × α} {t : Tab α} (h : tRising t = true) (hl : ∀ b ∈ t, a.1 < b.1) : tRising (a :: t) = true := by
  rw [tRising_cons]
  refine ⟨h, fun b hb => hl b ?_⟩
  cases t with
  | nil => cases hb
  | cons c t => simp only [List.head?_cons, Option.mem_some_iff] at hb; exact hb ▸ List.mem_cons_self

theorem tRising_tail {a : Nat × α} {t : Tab α} (h : tRising (a :: t) = true) : tRising t = true := (tRising_cons.mp h).1

theorem tRising_filter (p : Nat × α → Bool) : ∀ {t : Tab α}, tRising t = true → tRising (t.filter p) = true
  | [], _ => rfl
  | a :: t, h => by
    have ih := tRising_filter p (tRising_tail h)
    by_cases hp : p a = true
    · rw [List.filter_cons_of_pos hp]
      exact tRising_of_lt ih fun b hb => tRising_lt h b (List.mem_of_mem_filter hb)
    · rw [List.filter_cons_of_neg hp]; exact ih

theorem tRising_tDel (k : Nat) {t : Tab α} (h : tRising t = true) : tRising (tDel k t) = true := tRising_filter _ h

theorem tRising_tPut (k : Nat) (v : α) : ∀ {t : Tab α}, tRising t = true → tRising (tPut k v t) = true
  | [], _ => rfl
  | (j, w) :: t, h => by
    have ht := tRising_tail h
    unfold tPut
    split
    · next hk =>
      refine tRising_of_lt h fun b hb => ?_
      rcases List.mem_cons.mp hb with rfl | hb
      · exact hk
      · exact Nat.lt_trans hk (tRising_lt h b hb)
    · split
      · next e => subst e; exact tRising_of_lt ht fun b hb => tRising_lt h b hb
      · next h1 h2 =>
        refine tRising_of_lt (tRising_tPut k v ht) fun b hb => ?_
        rcases mem_tPut hb with rfl | hb
        · show j < k; omega
        · exact tRising_lt h b hb

theorem tRising_tSet [DecidableEq α] (d : α) (k : Nat) (v : α) {t : Tab α} (h : tRising t = true) :
    tRising (tSet d t k v) = true := by
  unfold tSet; split
  · exact tRising_tDel k h
  · exact tRising_tPut k v h

end Sys2Proof.Machine
end

