-- ==== Sys2Proof/Laws/State.lean ====
section
/-!
SUPPORT. What the shared operations of Machine/Ops.lean leave alone: for each, one lemma per component of the state that it does not
touch. A write of one unit's table entry changes no other unit; counting changes the counters alone; a notice changes the rings, what
leaves the block, the counters and a wake; a fault changes those, the fault sets and the pin.
-/

namespace Sys2Proof.Machine

-- one declaration at a time: the package is compiled as one text within a limit of memory
set_option Elab.async false

/-- What a grant of the host ports changes: the rings and what leaves the block. -/
theorem grantRead_eq {h : Nat} {s u : State} (e : grantRead h s = some u) : ∃ hrd out, u = { s with hrd := hrd, out := out } := by
  unfold grantRead at e
  split at e
  · cases e
  · cases e; exact ⟨_, _, rfl⟩
theorem grantWrite_eq {h : Nat} {s u : State} (e : grantWrite h s = some u) : ∃ hrd out, u = { s with hrd := hrd, out := out } := by
  unfold grantWrite at e
  split at e
  · cases e
  · cases e; exact ⟨_, _, rfl⟩
theorem pumpReads_eq (n : Nat) (s : State) : ∃ hrd out, pumpReads n s = { s with hrd := hrd, out := out } := by
  induction n generalizing s with
  | zero => exact ⟨_, _, rfl⟩
  | succ n ih =>
    rw [pumpReads]
    split
    · obtain ⟨a, b, h⟩ := grantRead_eq (by assumption)
      obtain ⟨c, d, k⟩ := ih ‹_›
      exact ⟨c, d, by rw [k, h]⟩
    · split
      · obtain ⟨a, b, h⟩ := grantRead_eq (by assumption)
        obtain ⟨c, d, k⟩ := ih ‹_›
        exact ⟨c, d, by rw [k, h]⟩
      · exact ⟨_, _, rfl⟩
theorem pumpWrites_eq (n : Nat) (s : State) : ∃ hrd out, pumpWrites n s = { s with hrd := hrd, out := out } := by
  induction n generalizing s with
  | zero => exact ⟨_, _, rfl⟩
  | succ n ih =>
    rw [pumpWrites]
    split
    · obtain ⟨a, b, h⟩ := grantWrite_eq (by assumption)
      obtain ⟨c, d, k⟩ := ih ‹_›
      exact ⟨c, d, by rw [k, h]⟩
    · split
      · obtain ⟨a, b, h⟩ := grantWrite_eq (by assumption)
        obtain ⟨c, d, k⟩ := ih ‹_›
        exact ⟨c, d, by rw [k, h]⟩
      · exact ⟨_, _, rfl⟩
/-- What host reads and writes change: the rings and what leaves the block. -/
theorem hostReads_eq (l : List RdReq) (s : State) : ∃ hrd out, hostReads l s = { s with hrd := hrd, out := out } :=
  let ⟨a, b, h⟩ := pumpReads_eq (s.hrd.rq.length + l.length) { s with hrd := { s.hrd with rq := s.hrd.rq ++ l } }
  ⟨a, b, by rw [hostReads, h]⟩
theorem hostWrites_eq (l : List WrReq) (s : State) : ∃ hrd out, hostWrites l s = { s with hrd := hrd, out := out } :=
  let ⟨a, b, h⟩ := pumpWrites_eq (s.hrd.wq.length + l.length) { s with hrd := { s.hrd with wq := s.hrd.wq ++ l } }
  ⟨a, b, by rw [hostWrites, h]⟩
@[simp] theorem pumpReads_regs (n : Nat) (s : State) : (pumpReads n s).regs = s.regs := by
  obtain ⟨a, b, h⟩ := pumpReads_eq n s; rw [h]
@[simp] theorem pumpWrites_regs (n : Nat) (s : State) : (pumpWrites n s).regs = s.regs := by
  obtain ⟨a, b, h⟩ := pumpWrites_eq n s; rw [h]
@[simp] theorem hostReads_regs (l : List RdReq) (s : State) : (hostReads l s).regs = s.regs := by
  obtain ⟨a, b, h⟩ := hostReads_eq l s; rw [h]
@[simp] theorem hostWrites_regs (l : List WrReq) (s : State) : (hostWrites l s).regs = s.regs := by
  obtain ⟨a, b, h⟩ := hostWrites_eq l s; rw [h]
@[simp] theorem pumpReads_glb (n : Nat) (s : State) : (pumpReads n s).glb = s.glb := by
  obtain ⟨a, b, h⟩ := pumpReads_eq n s; rw [h]
@[simp] theorem pumpWrites_glb (n : Nat) (s : State) : (pumpWrites n s).glb = s.glb := by
  obtain ⟨a, b, h⟩ := pumpWrites_eq n s; rw [h]
@[simp] theorem hostReads_glb (l : List RdReq) (s : State) : (hostReads l s).glb = s.glb := by
  obtain ⟨a, b, h⟩ := hostReads_eq l s; rw [h]
@[simp] theorem hostWrites_glb (l : List WrReq) (s : State) : (hostWrites l s).glb = s.glb := by
  obtain ⟨a, b, h⟩ := hostWrites_eq l s; rw [h]
@[simp] theorem pumpReads_flt (n : Nat) (s : State) : (pumpReads n s).flt = s.flt := by
  obtain ⟨a, b, h⟩ := pumpReads_eq n s; rw [h]
@[simp] theorem pumpWrites_flt (n : Nat) (s : State) : (pumpWrites n s).flt = s.flt := by
  obtain ⟨a, b, h⟩ := pumpWrites_eq n s; rw [h]
@[simp] theorem hostReads_flt (l : List RdReq) (s : State) : (hostReads l s).flt = s.flt := by
  obtain ⟨a, b, h⟩ := hostReads_eq l s; rw [h]
@[simp] theorem hostWrites_flt (l : List WrReq) (s : State) : (hostWrites l s).flt = s.flt := by
  obtain ⟨a, b, h⟩ := hostWrites_eq l s; rw [h]
@[simp] theorem pumpReads_tim (n : Nat) (s : State) : (pumpReads n s).tim = s.tim := by
  obtain ⟨a, b, h⟩ := pumpReads_eq n s; rw [h]
@[simp] theorem pumpWrites_tim (n : Nat) (s : State) : (pumpWrites n s).tim = s.tim := by
  obtain ⟨a, b, h⟩ := pumpWrites_eq n s; rw [h]
@[simp] theorem hostReads_tim (l : List RdReq) (s : State) : (hostReads l s).tim = s.tim := by
  obtain ⟨a, b, h⟩ := hostReads_eq l s; rw [h]
@[simp] theorem hostWrites_tim (l : List WrReq) (s : State) : (hostWrites l s).tim = s.tim := by
  obtain ⟨a, b, h⟩ := hostWrites_eq l s; rw [h]
@[simp] theorem pumpReads_qbm (n : Nat) (s : State) : (pumpReads n s).qbm = s.qbm := by
  obtain ⟨a, b, h⟩ := pumpReads_eq n s; rw [h]
@[simp] theorem pumpWrites_qbm (n : Nat) (s : State) : (pumpWrites n s).qbm = s.qbm := by
  obtain ⟨a, b, h⟩ := pumpWrites_eq n s; rw [h]
@[simp] theorem hostReads_qbm (l : List RdReq) (s : State) : (hostReads l s).qbm = s.qbm := by
  obtain ⟨a, b, h⟩ := hostReads_eq l s; rw [h]
@[simp] theorem hostWrites_qbm (l : List WrReq) (s : State) : (hostWrites l s).qbm = s.qbm := by
  obtain ⟨a, b, h⟩ := hostWrites_eq l s; rw [h]
@[simp] theorem pumpReads_cls (n : Nat) (s : State) : (pumpReads n s).cls = s.cls := by
  obtain ⟨a, b, h⟩ := pumpReads_eq n s; rw [h]
@[simp] theorem pumpWrites_cls (n : Nat) (s : State) : (pumpWrites n s).cls = s.cls := by
  obtain ⟨a, b, h⟩ := pumpWrites_eq n s; rw [h]
@[simp] theorem hostReads_cls (l : List RdReq) (s : State) : (hostReads l s).cls = s.cls := by
  obtain ⟨a, b, h⟩ := hostReads_eq l s; rw [h]
@[simp] theorem hostWrites_cls (l : List WrReq) (s : State) : (hostWrites l s).cls = s.cls := by
  obtain ⟨a, b, h⟩ := hostWrites_eq l s; rw [h]
@[simp] theorem pumpReads_tre (n : Nat) (s : State) : (pumpReads n s).tre = s.tre := by
  obtain ⟨a, b, h⟩ := pumpReads_eq n s; rw [h]
@[simp] theorem pumpWrites_tre (n : Nat) (s : State) : (pumpWrites n s).tre = s.tre := by
  obtain ⟨a, b, h⟩ := pumpWrites_eq n s; rw [h]
@[simp] theorem hostReads_tre (l : List RdReq) (s : State) : (hostReads l s).tre = s.tre := by
  obtain ⟨a, b, h⟩ := hostReads_eq l s; rw [h]
@[simp] theorem hostWrites_tre (l : List WrReq) (s : State) : (hostWrites l s).tre = s.tre := by
  obtain ⟨a, b, h⟩ := hostWrites_eq l s; rw [h]
@[simp] theorem pumpReads_chn (n : Nat) (s : State) : (pumpReads n s).chn = s.chn := by
  obtain ⟨a, b, h⟩ := pumpReads_eq n s; rw [h]
@[simp] theorem pumpWrites_chn (n : Nat) (s : State) : (pumpWrites n s).chn = s.chn := by
  obtain ⟨a, b, h⟩ := pumpWrites_eq n s; rw [h]
@[simp] theorem hostReads_chn (l : List RdReq) (s : State) : (hostReads l s).chn = s.chn := by
  obtain ⟨a, b, h⟩ := hostReads_eq l s; rw [h]
@[simp] theorem hostWrites_chn (l : List WrReq) (s : State) : (hostWrites l s).chn = s.chn := by
  obtain ⟨a, b, h⟩ := hostWrites_eq l s; rw [h]
@[simp] theorem pumpReads_upl (n : Nat) (s : State) : (pumpReads n s).upl = s.upl := by
  obtain ⟨a, b, h⟩ := pumpReads_eq n s; rw [h]
@[simp] theorem pumpWrites_upl (n : Nat) (s : State) : (pumpWrites n s).upl = s.upl := by
  obtain ⟨a, b, h⟩ := pumpWrites_eq n s; rw [h]
@[simp] theorem hostReads_upl (l : List RdReq) (s : State) : (hostReads l s).upl = s.upl := by
  obtain ⟨a, b, h⟩ := hostReads_eq l s; rw [h]
@[simp] theorem hostWrites_upl (l : List WrReq) (s : State) : (hostWrites l s).upl = s.upl := by
  obtain ⟨a, b, h⟩ := hostWrites_eq l s; rw [h]
@[simp] theorem pumpReads_cpe (n : Nat) (s : State) : (pumpReads n s).cpe = s.cpe := by
  obtain ⟨a, b, h⟩ := pumpReads_eq n s; rw [h]
@[simp] theorem pumpWrites_cpe (n : Nat) (s : State) : (pumpWrites n s).cpe = s.cpe := by
  obtain ⟨a, b, h⟩ := pumpWrites_eq n s; rw [h]
@[simp] theorem hostReads_cpe (l : List RdReq) (s : State) : (hostReads l s).cpe = s.cpe := by
  obtain ⟨a, b, h⟩ := hostReads_eq l s; rw [h]
@[simp] theorem hostWrites_cpe (l : List WrReq) (s : State) : (hostWrites l s).cpe = s.cpe := by
  obtain ⟨a, b, h⟩ := hostWrites_eq l s; rw [h]
@[simp] theorem pumpReads_skm (n : Nat) (s : State) : (pumpReads n s).skm = s.skm := by
  obtain ⟨a, b, h⟩ := pumpReads_eq n s; rw [h]
@[simp] theorem pumpWrites_skm (n : Nat) (s : State) : (pumpWrites n s).skm = s.skm := by
  obtain ⟨a, b, h⟩ := pumpWrites_eq n s; rw [h]
@[simp] theorem hostReads_skm (l : List RdReq) (s : State) : (hostReads l s).skm = s.skm := by
  obtain ⟨a, b, h⟩ := hostReads_eq l s; rw [h]
@[simp] theorem hostWrites_skm (l : List WrReq) (s : State) : (hostWrites l s).skm = s.skm := by
  obtain ⟨a, b, h⟩ := hostWrites_eq l s; rw [h]
@[simp] theorem pumpReads_pwr (n : Nat) (s : State) : (pumpReads n s).pwr = s.pwr := by
  obtain ⟨a, b, h⟩ := pumpReads_eq n s; rw [h]
@[simp] theorem pumpWrites_pwr (n : Nat) (s : State) : (pumpWrites n s).pwr = s.pwr := by
  obtain ⟨a, b, h⟩ := pumpWrites_eq n s; rw [h]
@[simp] theorem hostReads_pwr (l : List RdReq) (s : State) : (hostReads l s).pwr = s.pwr := by
  obtain ⟨a, b, h⟩ := hostReads_eq l s; rw [h]
@[simp] theorem hostWrites_pwr (l : List WrReq) (s : State) : (hostWrites l s).pwr = s.pwr := by
  obtain ⟨a, b, h⟩ := hostWrites_eq l s; rw [h]
@[simp] theorem pumpReads_cnt (n : Nat) (s : State) : (pumpReads n s).cnt = s.cnt := by
  obtain ⟨a, b, h⟩ := pumpReads_eq n s; rw [h]
@[simp] theorem pumpWrites_cnt (n : Nat) (s : State) : (pumpWrites n s).cnt = s.cnt := by
  obtain ⟨a, b, h⟩ := pumpWrites_eq n s; rw [h]
@[simp] theorem hostReads_cnt (l : List RdReq) (s : State) : (hostReads l s).cnt = s.cnt := by
  obtain ⟨a, b, h⟩ := hostReads_eq l s; rw [h]
@[simp] theorem hostWrites_cnt (l : List WrReq) (s : State) : (hostWrites l s).cnt = s.cnt := by
  obtain ⟨a, b, h⟩ := hostWrites_eq l s; rw [h]
@[simp] theorem pumpReads_tst (n : Nat) (s : State) : (pumpReads n s).tst = s.tst := by
  obtain ⟨a, b, h⟩ := pumpReads_eq n s; rw [h]
@[simp] theorem pumpWrites_tst (n : Nat) (s : State) : (pumpWrites n s).tst = s.tst := by
  obtain ⟨a, b, h⟩ := pumpWrites_eq n s; rw [h]
@[simp] theorem hostReads_tst (l : List RdReq) (s : State) : (hostReads l s).tst = s.tst := by
  obtain ⟨a, b, h⟩ := hostReads_eq l s; rw [h]
@[simp] theorem hostWrites_tst (l : List WrReq) (s : State) : (hostWrites l s).tst = s.tst := by
  obtain ⟨a, b, h⟩ := hostWrites_eq l s; rw [h]
@[simp] theorem pumpReads_fresh (n : Nat) (s : State) : (pumpReads n s).fresh = s.fresh := by
  obtain ⟨a, b, h⟩ := pumpReads_eq n s; rw [h]
@[simp] theorem pumpWrites_fresh (n : Nat) (s : State) : (pumpWrites n s).fresh = s.fresh := by
  obtain ⟨a, b, h⟩ := pumpWrites_eq n s; rw [h]
@[simp] theorem hostReads_fresh (l : List RdReq) (s : State) : (hostReads l s).fresh = s.fresh := by
  obtain ⟨a, b, h⟩ := hostReads_eq l s; rw [h]
@[simp] theorem hostWrites_fresh (l : List WrReq) (s : State) : (hostWrites l s).fresh = s.fresh := by
  obtain ⟨a, b, h⟩ := hostWrites_eq l s; rw [h]
@[simp] theorem pumpReads_pending (n : Nat) (s : State) : (pumpReads n s).pending = s.pending := by
  obtain ⟨a, b, h⟩ := pumpReads_eq n s; rw [h]
@[simp] theorem pumpWrites_pending (n : Nat) (s : State) : (pumpWrites n s).pending = s.pending := by
  obtain ⟨a, b, h⟩ := pumpWrites_eq n s; rw [h]
@[simp] theorem hostReads_pending (l : List RdReq) (s : State) : (hostReads l s).pending = s.pending := by
  obtain ⟨a, b, h⟩ := hostReads_eq l s; rw [h]
@[simp] theorem hostWrites_pending (l : List WrReq) (s : State) : (hostWrites l s).pending = s.pending := by
  obtain ⟨a, b, h⟩ := hostWrites_eq l s; rw [h]

@[simp] theorem setReg_glb (a : Nat) (v : Word) (s : State) : (setReg a v s).glb = s.glb := by
  rfl
@[simp] theorem setReg_flt (a : Nat) (v : Word) (s : State) : (setReg a v s).flt = s.flt := by
  rfl
@[simp] theorem setReg_tim (a : Nat) (v : Word) (s : State) : (setReg a v s).tim = s.tim := by
  rfl
@[simp] theorem setReg_qbm (a : Nat) (v : Word) (s : State) : (setReg a v s).qbm = s.qbm := by
  rfl
@[simp] theorem setReg_cls (a : Nat) (v : Word) (s : State) : (setReg a v s).cls = s.cls := by
  rfl
@[simp] theorem setReg_tre (a : Nat) (v : Word) (s : State) : (setReg a v s).tre = s.tre := by
  rfl
@[simp] theorem setReg_chn (a : Nat) (v : Word) (s : State) : (setReg a v s).chn = s.chn := by
  rfl
@[simp] theorem setReg_upl (a : Nat) (v : Word) (s : State) : (setReg a v s).upl = s.upl := by
  rfl
@[simp] theorem setReg_cpe (a : Nat) (v : Word) (s : State) : (setReg a v s).cpe = s.cpe := by
  rfl
@[simp] theorem setReg_hrd (a : Nat) (v : Word) (s : State) : (setReg a v s).hrd = s.hrd := by
  rfl
@[simp] theorem setReg_skm (a : Nat) (v : Word) (s : State) : (setReg a v s).skm = s.skm := by
  rfl
@[simp] theorem setReg_pwr (a : Nat) (v : Word) (s : State) : (setReg a v s).pwr = s.pwr := by
  rfl
@[simp] theorem setReg_cnt (a : Nat) (v : Word) (s : State) : (setReg a v s).cnt = s.cnt := by
  rfl
@[simp] theorem setReg_tst (a : Nat) (v : Word) (s : State) : (setReg a v s).tst = s.tst := by
  rfl
@[simp] theorem setReg_fresh (a : Nat) (v : Word) (s : State) : (setReg a v s).fresh = s.fresh := by
  rfl
@[simp] theorem setReg_out (a : Nat) (v : Word) (s : State) : (setReg a v s).out = s.out := by
  rfl
@[simp] theorem setReg_pending (a : Nat) (v : Word) (s : State) : (setReg a v s).pending = s.pending := by
  rfl
@[simp] theorem emit_regs (o : Out) (s : State) : (emit o s).regs = s.regs := by
  rfl
@[simp] theorem emit_glb (o : Out) (s : State) : (emit o s).glb = s.glb := by
  rfl
@[simp] theorem emit_flt (o : Out) (s : State) : (emit o s).flt = s.flt := by
  rfl
@[simp] theorem emit_tim (o : Out) (s : State) : (emit o s).tim = s.tim := by
  rfl
@[simp] theorem emit_qbm (o : Out) (s : State) : (emit o s).qbm = s.qbm := by
  rfl
@[simp] theorem emit_cls (o : Out) (s : State) : (emit o s).cls = s.cls := by
  rfl
@[simp] theorem emit_tre (o : Out) (s : State) : (emit o s).tre = s.tre := by
  rfl
@[simp] theorem emit_chn (o : Out) (s : State) : (emit o s).chn = s.chn := by
  rfl
@[simp] theorem emit_upl (o : Out) (s : State) : (emit o s).upl = s.upl := by
  rfl
@[simp] theorem emit_cpe (o : Out) (s : State) : (emit o s).cpe = s.cpe := by
  rfl
@[simp] theorem emit_hrd (o : Out) (s : State) : (emit o s).hrd = s.hrd := by
  rfl
@[simp] theorem emit_skm (o : Out) (s : State) : (emit o s).skm = s.skm := by
  rfl
@[simp] theorem emit_pwr (o : Out) (s : State) : (emit o s).pwr = s.pwr := by
  rfl
@[simp] theorem emit_cnt (o : Out) (s : State) : (emit o s).cnt = s.cnt := by
  rfl
@[simp] theorem emit_tst (o : Out) (s : State) : (emit o s).tst = s.tst := by
  rfl
@[simp] theorem emit_fresh (o : Out) (s : State) : (emit o s).fresh = s.fresh := by
  rfl
@[simp] theorem emit_pending (o : Out) (s : State) : (emit o s).pending = s.pending := by
  rfl
@[simp] theorem begin__regs (s : State) : (begin_ s).regs = s.regs := by
  rfl
@[simp] theorem begin__glb (s : State) : (begin_ s).glb = s.glb := by
  rfl
@[simp] theorem begin__flt (s : State) : (begin_ s).flt = s.flt := by
  rfl
@[simp] theorem begin__tim (s : State) : (begin_ s).tim = s.tim := by
  rfl
@[simp] theorem begin__qbm (s : State) : (begin_ s).qbm = s.qbm := by
  rfl
@[simp] theorem begin__cls (s : State) : (begin_ s).cls = s.cls := by
  rfl
@[simp] theorem begin__tre (s : State) : (begin_ s).tre = s.tre := by
  rfl
@[simp] theorem begin__chn (s : State) : (begin_ s).chn = s.chn := by
  rfl
@[simp] theorem begin__upl (s : State) : (begin_ s).upl = s.upl := by
  rfl
@[simp] theorem begin__cpe (s : State) : (begin_ s).cpe = s.cpe := by
  rfl
@[simp] theorem begin__hrd (s : State) : (begin_ s).hrd = s.hrd := by
  rfl
@[simp] theorem begin__skm (s : State) : (begin_ s).skm = s.skm := by
  rfl
@[simp] theorem begin__pwr (s : State) : (begin_ s).pwr = s.pwr := by
  rfl
@[simp] theorem begin__cnt (s : State) : (begin_ s).cnt = s.cnt := by
  rfl
@[simp] theorem begin__tst (s : State) : (begin_ s).tst = s.tst := by
  rfl
@[simp] theorem begin__fresh (s : State) : (begin_ s).fresh = s.fresh := by
  rfl
@[simp] theorem begin__pending (s : State) : (begin_ s).pending = s.pending := by
  rfl
@[simp] theorem useFree_regs (s : State) : (useFree s).regs = s.regs := by
  rfl
@[simp] theorem useFree_glb (s : State) : (useFree s).glb = s.glb := by
  rfl
@[simp] theorem useFree_flt (s : State) : (useFree s).flt = s.flt := by
  rfl
@[simp] theorem useFree_tim (s : State) : (useFree s).tim = s.tim := by
  rfl
@[simp] theorem useFree_qbm (s : State) : (useFree s).qbm = s.qbm := by
  rfl
@[simp] theorem useFree_cls (s : State) : (useFree s).cls = s.cls := by
  rfl
@[simp] theorem useFree_tre (s : State) : (useFree s).tre = s.tre := by
  rfl
@[simp] theorem useFree_chn (s : State) : (useFree s).chn = s.chn := by
  rfl
@[simp] theorem useFree_upl (s : State) : (useFree s).upl = s.upl := by
  rfl
@[simp] theorem useFree_cpe (s : State) : (useFree s).cpe = s.cpe := by
  rfl
@[simp] theorem useFree_hrd (s : State) : (useFree s).hrd = s.hrd := by
  rfl
@[simp] theorem useFree_skm (s : State) : (useFree s).skm = s.skm := by
  rfl
@[simp] theorem useFree_pwr (s : State) : (useFree s).pwr = s.pwr := by
  rfl
@[simp] theorem useFree_cnt (s : State) : (useFree s).cnt = s.cnt := by
  rfl
@[simp] theorem useFree_tst (s : State) : (useFree s).tst = s.tst := by
  rfl
@[simp] theorem useFree_out (s : State) : (useFree s).out = s.out := by
  rfl
@[simp] theorem useFree_pending (s : State) : (useFree s).pending = s.pending := by
  rfl
@[simp] theorem setHomeT_regs (t h : Nat) (s : State) : (setHomeT t h s).regs = s.regs := by
  rfl
@[simp] theorem setHomeT_flt (t h : Nat) (s : State) : (setHomeT t h s).flt = s.flt := by
  rfl
@[simp] theorem setHomeT_tim (t h : Nat) (s : State) : (setHomeT t h s).tim = s.tim := by
  rfl
@[simp] theorem setHomeT_qbm (t h : Nat) (s : State) : (setHomeT t h s).qbm = s.qbm := by
  rfl
@[simp] theorem setHomeT_cls (t h : Nat) (s : State) : (setHomeT t h s).cls = s.cls := by
  rfl
@[simp] theorem setHomeT_tre (t h : Nat) (s : State) : (setHomeT t h s).tre = s.tre := by
  rfl
@[simp] theorem setHomeT_chn (t h : Nat) (s : State) : (setHomeT t h s).chn = s.chn := by
  rfl
@[simp] theorem setHomeT_upl (t h : Nat) (s : State) : (setHomeT t h s).upl = s.upl := by
  rfl
@[simp] theorem setHomeT_cpe (t h : Nat) (s : State) : (setHomeT t h s).cpe = s.cpe := by
  rfl
@[simp] theorem setHomeT_hrd (t h : Nat) (s : State) : (setHomeT t h s).hrd = s.hrd := by
  rfl
@[simp] theorem setHomeT_skm (t h : Nat) (s : State) : (setHomeT t h s).skm = s.skm := by
  rfl
@[simp] theorem setHomeT_pwr (t h : Nat) (s : State) : (setHomeT t h s).pwr = s.pwr := by
  rfl
@[simp] theorem setHomeT_cnt (t h : Nat) (s : State) : (setHomeT t h s).cnt = s.cnt := by
  rfl
@[simp] theorem setHomeT_tst (t h : Nat) (s : State) : (setHomeT t h s).tst = s.tst := by
  rfl
@[simp] theorem setHomeT_fresh (t h : Nat) (s : State) : (setHomeT t h s).fresh = s.fresh := by
  rfl
@[simp] theorem setHomeT_out (t h : Nat) (s : State) : (setHomeT t h s).out = s.out := by
  rfl
@[simp] theorem setHomeT_pending (t h : Nat) (s : State) : (setHomeT t h s).pending = s.pending := by
  rfl
@[simp] theorem setHomeU_regs (p h : Nat) (s : State) : (setHomeU p h s).regs = s.regs := by
  rfl
@[simp] theorem setHomeU_flt (p h : Nat) (s : State) : (setHomeU p h s).flt = s.flt := by
  rfl
@[simp] theorem setHomeU_tim (p h : Nat) (s : State) : (setHomeU p h s).tim = s.tim := by
  rfl
@[simp] theorem setHomeU_qbm (p h : Nat) (s : State) : (setHomeU p h s).qbm = s.qbm := by
  rfl
@[simp] theorem setHomeU_cls (p h : Nat) (s : State) : (setHomeU p h s).cls = s.cls := by
  rfl
@[simp] theorem setHomeU_tre (p h : Nat) (s : State) : (setHomeU p h s).tre = s.tre := by
  rfl
@[simp] theorem setHomeU_chn (p h : Nat) (s : State) : (setHomeU p h s).chn = s.chn := by
  rfl
@[simp] theorem setHomeU_upl (p h : Nat) (s : State) : (setHomeU p h s).upl = s.upl := by
  rfl
@[simp] theorem setHomeU_cpe (p h : Nat) (s : State) : (setHomeU p h s).cpe = s.cpe := by
  rfl
@[simp] theorem setHomeU_hrd (p h : Nat) (s : State) : (setHomeU p h s).hrd = s.hrd := by
  rfl
@[simp] theorem setHomeU_skm (p h : Nat) (s : State) : (setHomeU p h s).skm = s.skm := by
  rfl
@[simp] theorem setHomeU_pwr (p h : Nat) (s : State) : (setHomeU p h s).pwr = s.pwr := by
  rfl
@[simp] theorem setHomeU_cnt (p h : Nat) (s : State) : (setHomeU p h s).cnt = s.cnt := by
  rfl
@[simp] theorem setHomeU_tst (p h : Nat) (s : State) : (setHomeU p h s).tst = s.tst := by
  rfl
@[simp] theorem setHomeU_fresh (p h : Nat) (s : State) : (setHomeU p h s).fresh = s.fresh := by
  rfl
@[simp] theorem setHomeU_out (p h : Nat) (s : State) : (setHomeU p h s).out = s.out := by
  rfl
@[simp] theorem setHomeU_pending (p h : Nat) (s : State) : (setHomeU p h s).pending = s.pending := by
  rfl
@[simp] theorem setPdom_regs (d : Nat) (v : PDom) (s : State) : (setPdom d v s).regs = s.regs := by
  rfl
@[simp] theorem setPdom_glb (d : Nat) (v : PDom) (s : State) : (setPdom d v s).glb = s.glb := by
  rfl
@[simp] theorem setPdom_flt (d : Nat) (v : PDom) (s : State) : (setPdom d v s).flt = s.flt := by
  rfl
@[simp] theorem setPdom_tim (d : Nat) (v : PDom) (s : State) : (setPdom d v s).tim = s.tim := by
  rfl
@[simp] theorem setPdom_qbm (d : Nat) (v : PDom) (s : State) : (setPdom d v s).qbm = s.qbm := by
  rfl
@[simp] theorem setPdom_cls (d : Nat) (v : PDom) (s : State) : (setPdom d v s).cls = s.cls := by
  rfl
@[simp] theorem setPdom_tre (d : Nat) (v : PDom) (s : State) : (setPdom d v s).tre = s.tre := by
  rfl
@[simp] theorem setPdom_chn (d : Nat) (v : PDom) (s : State) : (setPdom d v s).chn = s.chn := by
  rfl
@[simp] theorem setPdom_upl (d : Nat) (v : PDom) (s : State) : (setPdom d v s).upl = s.upl := by
  rfl
@[simp] theorem setPdom_cpe (d : Nat) (v : PDom) (s : State) : (setPdom d v s).cpe = s.cpe := by
  rfl
@[simp] theorem setPdom_hrd (d : Nat) (v : PDom) (s : State) : (setPdom d v s).hrd = s.hrd := by
  rfl
@[simp] theorem setPdom_skm (d : Nat) (v : PDom) (s : State) : (setPdom d v s).skm = s.skm := by
  rfl
@[simp] theorem setPdom_cnt (d : Nat) (v : PDom) (s : State) : (setPdom d v s).cnt = s.cnt := by
  rfl
@[simp] theorem setPdom_tst (d : Nat) (v : PDom) (s : State) : (setPdom d v s).tst = s.tst := by
  rfl
@[simp] theorem setPdom_fresh (d : Nat) (v : PDom) (s : State) : (setPdom d v s).fresh = s.fresh := by
  rfl
@[simp] theorem setPdom_out (d : Nat) (v : PDom) (s : State) : (setPdom d v s).out = s.out := by
  rfl
@[simp] theorem setPdom_pending (d : Nat) (v : PDom) (s : State) : (setPdom d v s).pending = s.pending := by
  rfl
@[simp] theorem countO_regs (i evt obj amt : Nat) (s : State) : (countO i evt obj amt s).regs = s.regs := by
  unfold countO
  try extract_lets
  split <;> simp [*]
@[simp] theorem countO_glb (i evt obj amt : Nat) (s : State) : (countO i evt obj amt s).glb = s.glb := by
  unfold countO
  try extract_lets
  split <;> simp [*]
@[simp] theorem countO_flt (i evt obj amt : Nat) (s : State) : (countO i evt obj amt s).flt = s.flt := by
  unfold countO
  try extract_lets
  split <;> simp [*]
@[simp] theorem countO_tim (i evt obj amt : Nat) (s : State) : (countO i evt obj amt s).tim = s.tim := by
  unfold countO
  try extract_lets
  split <;> simp [*]
@[simp] theorem countO_qbm (i evt obj amt : Nat) (s : State) : (countO i evt obj amt s).qbm = s.qbm := by
  unfold countO
  try extract_lets
  split <;> simp [*]
@[simp] theorem countO_cls (i evt obj amt : Nat) (s : State) : (countO i evt obj amt s).cls = s.cls := by
  unfold countO
  try extract_lets
  split <;> simp [*]
@[simp] theorem countO_tre (i evt obj amt : Nat) (s : State) : (countO i evt obj amt s).tre = s.tre := by
  unfold countO
  try extract_lets
  split <;> simp [*]
@[simp] theorem countO_chn (i evt obj amt : Nat) (s : State) : (countO i evt obj amt s).chn = s.chn := by
  unfold countO
  try extract_lets
  split <;> simp [*]
@[simp] theorem countO_upl (i evt obj amt : Nat) (s : State) : (countO i evt obj amt s).upl = s.upl := by
  unfold countO
  try extract_lets
  split <;> simp [*]
@[simp] theorem countO_cpe (i evt obj amt : Nat) (s : State) : (countO i evt obj amt s).cpe = s.cpe := by
  unfold countO
  try extract_lets
  split <;> simp [*]
@[simp] theorem countO_hrd (i evt obj amt : Nat) (s : State) : (countO i evt obj amt s).hrd = s.hrd := by
  unfold countO
  try extract_lets
  split <;> simp [*]
@[simp] theorem countO_skm (i evt obj amt : Nat) (s : State) : (countO i evt obj amt s).skm = s.skm := by
  unfold countO
  try extract_lets
  split <;> simp [*]
@[simp] theorem countO_pwr (i evt obj amt : Nat) (s : State) : (countO i evt obj amt s).pwr = s.pwr := by
  unfold countO
  try extract_lets
  split <;> simp [*]
@[simp] theorem countO_tst (i evt obj amt : Nat) (s : State) : (countO i evt obj amt s).tst = s.tst := by
  unfold countO
  try extract_lets
  split <;> simp [*]
@[simp] theorem countO_fresh (i evt obj amt : Nat) (s : State) : (countO i evt obj amt s).fresh = s.fresh := by
  unfold countO
  try extract_lets
  split <;> simp [*]
@[simp] theorem countO_out (i evt obj amt : Nat) (s : State) : (countO i evt obj amt s).out = s.out := by
  unfold countO
  try extract_lets
  split <;> simp [*]
@[simp] theorem countO_pending (i evt obj amt : Nat) (s : State) : (countO i evt obj amt s).pending = s.pending := by
  unfold countO
  try extract_lets
  split <;> simp [*]
@[simp] theorem countN_regs (i evt amt : Nat) (s : State) : (countN i evt amt s).regs = s.regs := by
  unfold countN
  try extract_lets
  split <;> simp [*]
@[simp] theorem countN_glb (i evt amt : Nat) (s : State) : (countN i evt amt s).glb = s.glb := by
  unfold countN
  try extract_lets
  split <;> simp [*]
@[simp] theorem countN_flt (i evt amt : Nat) (s : State) : (countN i evt amt s).flt = s.flt := by
  unfold countN
  try extract_lets
  split <;> simp [*]
@[simp] theorem countN_tim (i evt amt : Nat) (s : State) : (countN i evt amt s).tim = s.tim := by
  unfold countN
  try extract_lets
  split <;> simp [*]
@[simp] theorem countN_qbm (i evt amt : Nat) (s : State) : (countN i evt amt s).qbm = s.qbm := by
  unfold countN
  try extract_lets
  split <;> simp [*]
@[simp] theorem countN_cls (i evt amt : Nat) (s : State) : (countN i evt amt s).cls = s.cls := by
  unfold countN
  try extract_lets
  split <;> simp [*]
@[simp] theorem countN_tre (i evt amt : Nat) (s : State) : (countN i evt amt s).tre = s.tre := by
  unfold countN
  try extract_lets
  split <;> simp [*]
@[simp] theorem countN_chn (i evt amt : Nat) (s : State) : (countN i evt amt s).chn = s.chn := by
  unfold countN
  try extract_lets
  split <;> simp [*]
@[simp] theorem countN_upl (i evt amt : Nat) (s : State) : (countN i evt amt s).upl = s.upl := by
  unfold countN
  try extract_lets
  split <;> simp [*]
@[simp] theorem countN_cpe (i evt amt : Nat) (s : State) : (countN i evt amt s).cpe = s.cpe := by
  unfold countN
  try extract_lets
  split <;> simp [*]
@[simp] theorem countN_hrd (i evt amt : Nat) (s : State) : (countN i evt amt s).hrd = s.hrd := by
  unfold countN
  try extract_lets
  split <;> simp [*]
@[simp] theorem countN_skm (i evt amt : Nat) (s : State) : (countN i evt amt s).skm = s.skm := by
  unfold countN
  try extract_lets
  split <;> simp [*]
@[simp] theorem countN_pwr (i evt amt : Nat) (s : State) : (countN i evt amt s).pwr = s.pwr := by
  unfold countN
  try extract_lets
  split <;> simp [*]
@[simp] theorem countN_tst (i evt amt : Nat) (s : State) : (countN i evt amt s).tst = s.tst := by
  unfold countN
  try extract_lets
  split <;> simp [*]
@[simp] theorem countN_fresh (i evt amt : Nat) (s : State) : (countN i evt amt s).fresh = s.fresh := by
  unfold countN
  try extract_lets
  split <;> simp [*]
@[simp] theorem countN_out (i evt amt : Nat) (s : State) : (countN i evt amt s).out = s.out := by
  unfold countN
  try extract_lets
  split <;> simp [*]
@[simp] theorem countN_pending (i evt amt : Nat) (s : State) : (countN i evt amt s).pending = s.pending := by
  unfold countN
  try extract_lets
  split <;> simp [*]
@[simp] theorem count1_regs (i evt : Nat) (s : State) : (count1 i evt s).regs = s.regs := by
  rfl
@[simp] theorem count1_glb (i evt : Nat) (s : State) : (count1 i evt s).glb = s.glb := by
  rfl
@[simp] theorem count1_flt (i evt : Nat) (s : State) : (count1 i evt s).flt = s.flt := by
  rfl
@[simp] theorem count1_tim (i evt : Nat) (s : State) : (count1 i evt s).tim = s.tim := by
  rfl
@[simp] theorem count1_qbm (i evt : Nat) (s : State) : (count1 i evt s).qbm = s.qbm := by
  rfl
@[simp] theorem count1_cls (i evt : Nat) (s : State) : (count1 i evt s).cls = s.cls := by
  rfl
@[simp] theorem count1_tre (i evt : Nat) (s : State) : (count1 i evt s).tre = s.tre := by
  rfl
@[simp] theorem count1_chn (i evt : Nat) (s : State) : (count1 i evt s).chn = s.chn := by
  rfl
@[simp] theorem count1_upl (i evt : Nat) (s : State) : (count1 i evt s).upl = s.upl := by
  rfl
@[simp] theorem count1_cpe (i evt : Nat) (s : State) : (count1 i evt s).cpe = s.cpe := by
  rfl
@[simp] theorem count1_hrd (i evt : Nat) (s : State) : (count1 i evt s).hrd = s.hrd := by
  rfl
@[simp] theorem count1_skm (i evt : Nat) (s : State) : (count1 i evt s).skm = s.skm := by
  rfl
@[simp] theorem count1_pwr (i evt : Nat) (s : State) : (count1 i evt s).pwr = s.pwr := by
  rfl
@[simp] theorem count1_tst (i evt : Nat) (s : State) : (count1 i evt s).tst = s.tst := by
  rfl
@[simp] theorem count1_fresh (i evt : Nat) (s : State) : (count1 i evt s).fresh = s.fresh := by
  rfl
@[simp] theorem count1_out (i evt : Nat) (s : State) : (count1 i evt s).out = s.out := by
  rfl
@[simp] theorem count1_pending (i evt : Nat) (s : State) : (count1 i evt s).pending = s.pending := by
  rfl
@[simp] theorem objAdd_regs (arr obj evt amt : Nat) (s : State) : (objAdd arr obj evt amt s).regs = s.regs := by
  rfl
@[simp] theorem objAdd_glb (arr obj evt amt : Nat) (s : State) : (objAdd arr obj evt amt s).glb = s.glb := by
  rfl
@[simp] theorem objAdd_flt (arr obj evt amt : Nat) (s : State) : (objAdd arr obj evt amt s).flt = s.flt := by
  rfl
@[simp] theorem objAdd_tim (arr obj evt amt : Nat) (s : State) : (objAdd arr obj evt amt s).tim = s.tim := by
  rfl
@[simp] theorem objAdd_qbm (arr obj evt amt : Nat) (s : State) : (objAdd arr obj evt amt s).qbm = s.qbm := by
  rfl
@[simp] theorem objAdd_cls (arr obj evt amt : Nat) (s : State) : (objAdd arr obj evt amt s).cls = s.cls := by
  rfl
@[simp] theorem objAdd_tre (arr obj evt amt : Nat) (s : State) : (objAdd arr obj evt amt s).tre = s.tre := by
  rfl
@[simp] theorem objAdd_chn (arr obj evt amt : Nat) (s : State) : (objAdd arr obj evt amt s).chn = s.chn := by
  rfl
@[simp] theorem objAdd_upl (arr obj evt amt : Nat) (s : State) : (objAdd arr obj evt amt s).upl = s.upl := by
  rfl
@[simp] theorem objAdd_cpe (arr obj evt amt : Nat) (s : State) : (objAdd arr obj evt amt s).cpe = s.cpe := by
  rfl
@[simp] theorem objAdd_hrd (arr obj evt amt : Nat) (s : State) : (objAdd arr obj evt amt s).hrd = s.hrd := by
  rfl
@[simp] theorem objAdd_skm (arr obj evt amt : Nat) (s : State) : (objAdd arr obj evt amt s).skm = s.skm := by
  rfl
@[simp] theorem objAdd_pwr (arr obj evt amt : Nat) (s : State) : (objAdd arr obj evt amt s).pwr = s.pwr := by
  rfl
@[simp] theorem objAdd_tst (arr obj evt amt : Nat) (s : State) : (objAdd arr obj evt amt s).tst = s.tst := by
  rfl
@[simp] theorem objAdd_fresh (arr obj evt amt : Nat) (s : State) : (objAdd arr obj evt amt s).fresh = s.fresh := by
  rfl
@[simp] theorem objAdd_out (arr obj evt amt : Nat) (s : State) : (objAdd arr obj evt amt s).out = s.out := by
  rfl
@[simp] theorem objAdd_pending (arr obj evt amt : Nat) (s : State) : (objAdd arr obj evt amt s).pending = s.pending := by
  rfl
@[simp] theorem partViol_regs (p : Nat) (s : State) : (partViol p s).regs = s.regs := by
  rfl
@[simp] theorem partViol_glb (p : Nat) (s : State) : (partViol p s).glb = s.glb := by
  rfl
@[simp] theorem partViol_flt (p : Nat) (s : State) : (partViol p s).flt = s.flt := by
  rfl
@[simp] theorem partViol_tim (p : Nat) (s : State) : (partViol p s).tim = s.tim := by
  rfl
@[simp] theorem partViol_qbm (p : Nat) (s : State) : (partViol p s).qbm = s.qbm := by
  rfl
@[simp] theorem partViol_cls (p : Nat) (s : State) : (partViol p s).cls = s.cls := by
  rfl
@[simp] theorem partViol_tre (p : Nat) (s : State) : (partViol p s).tre = s.tre := by
  rfl
@[simp] theorem partViol_chn (p : Nat) (s : State) : (partViol p s).chn = s.chn := by
  rfl
@[simp] theorem partViol_upl (p : Nat) (s : State) : (partViol p s).upl = s.upl := by
  rfl
@[simp] theorem partViol_cpe (p : Nat) (s : State) : (partViol p s).cpe = s.cpe := by
  rfl
@[simp] theorem partViol_hrd (p : Nat) (s : State) : (partViol p s).hrd = s.hrd := by
  rfl
@[simp] theorem partViol_skm (p : Nat) (s : State) : (partViol p s).skm = s.skm := by
  rfl
@[simp] theorem partViol_pwr (p : Nat) (s : State) : (partViol p s).pwr = s.pwr := by
  rfl
@[simp] theorem partViol_tst (p : Nat) (s : State) : (partViol p s).tst = s.tst := by
  rfl
@[simp] theorem partViol_fresh (p : Nat) (s : State) : (partViol p s).fresh = s.fresh := by
  rfl
@[simp] theorem partViol_out (p : Nat) (s : State) : (partViol p s).out = s.out := by
  rfl
@[simp] theorem partViol_pending (p : Nat) (s : State) : (partViol p s).pending = s.pending := by
  rfl
@[simp] theorem dropLo_glb (part a : Nat) (s : State) : (dropLo part a s).glb = s.glb := by
  rfl
@[simp] theorem dropLo_flt (part a : Nat) (s : State) : (dropLo part a s).flt = s.flt := by
  rfl
@[simp] theorem dropLo_tim (part a : Nat) (s : State) : (dropLo part a s).tim = s.tim := by
  rfl
@[simp] theorem dropLo_qbm (part a : Nat) (s : State) : (dropLo part a s).qbm = s.qbm := by
  rfl
@[simp] theorem dropLo_cls (part a : Nat) (s : State) : (dropLo part a s).cls = s.cls := by
  rfl
@[simp] theorem dropLo_tre (part a : Nat) (s : State) : (dropLo part a s).tre = s.tre := by
  rfl
@[simp] theorem dropLo_chn (part a : Nat) (s : State) : (dropLo part a s).chn = s.chn := by
  rfl
@[simp] theorem dropLo_upl (part a : Nat) (s : State) : (dropLo part a s).upl = s.upl := by
  rfl
@[simp] theorem dropLo_cpe (part a : Nat) (s : State) : (dropLo part a s).cpe = s.cpe := by
  rfl
@[simp] theorem dropLo_hrd (part a : Nat) (s : State) : (dropLo part a s).hrd = s.hrd := by
  rfl
@[simp] theorem dropLo_skm (part a : Nat) (s : State) : (dropLo part a s).skm = s.skm := by
  rfl
@[simp] theorem dropLo_pwr (part a : Nat) (s : State) : (dropLo part a s).pwr = s.pwr := by
  rfl
@[simp] theorem dropLo_cnt (part a : Nat) (s : State) : (dropLo part a s).cnt = s.cnt := by
  rfl
@[simp] theorem dropLo_tst (part a : Nat) (s : State) : (dropLo part a s).tst = s.tst := by
  rfl
@[simp] theorem dropLo_fresh (part a : Nat) (s : State) : (dropLo part a s).fresh = s.fresh := by
  rfl
@[simp] theorem dropLo_out (part a : Nat) (s : State) : (dropLo part a s).out = s.out := by
  rfl
@[simp] theorem dropLo_pending (part a : Nat) (s : State) : (dropLo part a s).pending = s.pending := by
  rfl
@[simp] theorem setRing_regs (k : RingKind) (n : Nat) (r : Ring) (s : State) : (setRing k n r s).regs = s.regs := by
  rfl
@[simp] theorem setRing_glb (k : RingKind) (n : Nat) (r : Ring) (s : State) : (setRing k n r s).glb = s.glb := by
  rfl
@[simp] theorem setRing_flt (k : RingKind) (n : Nat) (r : Ring) (s : State) : (setRing k n r s).flt = s.flt := by
  rfl
@[simp] theorem setRing_tim (k : RingKind) (n : Nat) (r : Ring) (s : State) : (setRing k n r s).tim = s.tim := by
  rfl
@[simp] theorem setRing_qbm (k : RingKind) (n : Nat) (r : Ring) (s : State) : (setRing k n r s).qbm = s.qbm := by
  rfl
@[simp] theorem setRing_cls (k : RingKind) (n : Nat) (r : Ring) (s : State) : (setRing k n r s).cls = s.cls := by
  rfl
@[simp] theorem setRing_tre (k : RingKind) (n : Nat) (r : Ring) (s : State) : (setRing k n r s).tre = s.tre := by
  rfl
@[simp] theorem setRing_chn (k : RingKind) (n : Nat) (r : Ring) (s : State) : (setRing k n r s).chn = s.chn := by
  rfl
@[simp] theorem setRing_upl (k : RingKind) (n : Nat) (r : Ring) (s : State) : (setRing k n r s).upl = s.upl := by
  rfl
@[simp] theorem setRing_cpe (k : RingKind) (n : Nat) (r : Ring) (s : State) : (setRing k n r s).cpe = s.cpe := by
  rfl
@[simp] theorem setRing_skm (k : RingKind) (n : Nat) (r : Ring) (s : State) : (setRing k n r s).skm = s.skm := by
  rfl
@[simp] theorem setRing_pwr (k : RingKind) (n : Nat) (r : Ring) (s : State) : (setRing k n r s).pwr = s.pwr := by
  rfl
@[simp] theorem setRing_cnt (k : RingKind) (n : Nat) (r : Ring) (s : State) : (setRing k n r s).cnt = s.cnt := by
  rfl
@[simp] theorem setRing_tst (k : RingKind) (n : Nat) (r : Ring) (s : State) : (setRing k n r s).tst = s.tst := by
  rfl
@[simp] theorem setRing_fresh (k : RingKind) (n : Nat) (r : Ring) (s : State) : (setRing k n r s).fresh = s.fresh := by
  rfl
@[simp] theorem setRing_out (k : RingKind) (n : Nat) (r : Ring) (s : State) : (setRing k n r s).out = s.out := by
  rfl
@[simp] theorem setRing_pending (k : RingKind) (n : Nat) (r : Ring) (s : State) : (setRing k n r s).pending = s.pending := by
  rfl
@[simp] theorem turnNext_regs (h dir dch ring : Nat) (s : State) : (turnNext h dir dch ring s).regs = s.regs := by
  rfl
@[simp] theorem turnNext_glb (h dir dch ring : Nat) (s : State) : (turnNext h dir dch ring s).glb = s.glb := by
  rfl
@[simp] theorem turnNext_flt (h dir dch ring : Nat) (s : State) : (turnNext h dir dch ring s).flt = s.flt := by
  rfl
@[simp] theorem turnNext_tim (h dir dch ring : Nat) (s : State) : (turnNext h dir dch ring s).tim = s.tim := by
  rfl
@[simp] theorem turnNext_qbm (h dir dch ring : Nat) (s : State) : (turnNext h dir dch ring s).qbm = s.qbm := by
  rfl
@[simp] theorem turnNext_cls (h dir dch ring : Nat) (s : State) : (turnNext h dir dch ring s).cls = s.cls := by
  rfl
@[simp] theorem turnNext_tre (h dir dch ring : Nat) (s : State) : (turnNext h dir dch ring s).tre = s.tre := by
  rfl
@[simp] theorem turnNext_chn (h dir dch ring : Nat) (s : State) : (turnNext h dir dch ring s).chn = s.chn := by
  rfl
@[simp] theorem turnNext_upl (h dir dch ring : Nat) (s : State) : (turnNext h dir dch ring s).upl = s.upl := by
  rfl
@[simp] theorem turnNext_cpe (h dir dch ring : Nat) (s : State) : (turnNext h dir dch ring s).cpe = s.cpe := by
  rfl
@[simp] theorem turnNext_skm (h dir dch ring : Nat) (s : State) : (turnNext h dir dch ring s).skm = s.skm := by
  rfl
@[simp] theorem turnNext_pwr (h dir dch ring : Nat) (s : State) : (turnNext h dir dch ring s).pwr = s.pwr := by
  rfl
@[simp] theorem turnNext_cnt (h dir dch ring : Nat) (s : State) : (turnNext h dir dch ring s).cnt = s.cnt := by
  rfl
@[simp] theorem turnNext_tst (h dir dch ring : Nat) (s : State) : (turnNext h dir dch ring s).tst = s.tst := by
  rfl
@[simp] theorem turnNext_fresh (h dir dch ring : Nat) (s : State) : (turnNext h dir dch ring s).fresh = s.fresh := by
  rfl
@[simp] theorem turnNext_out (h dir dch ring : Nat) (s : State) : (turnNext h dir dch ring s).out = s.out := by
  rfl
@[simp] theorem turnNext_pending (h dir dch ring : Nat) (s : State) : (turnNext h dir dch ring s).pending = s.pending := by
  rfl
@[simp] theorem atCycle_regs (c : Nat) (t : Turn) (s : State) : (atCycle c t s).regs = s.regs := by
  rfl
@[simp] theorem atCycle_glb (c : Nat) (t : Turn) (s : State) : (atCycle c t s).glb = s.glb := by
  rfl
@[simp] theorem atCycle_flt (c : Nat) (t : Turn) (s : State) : (atCycle c t s).flt = s.flt := by
  rfl
@[simp] theorem atCycle_tim (c : Nat) (t : Turn) (s : State) : (atCycle c t s).tim = s.tim := by
  rfl
@[simp] theorem atCycle_qbm (c : Nat) (t : Turn) (s : State) : (atCycle c t s).qbm = s.qbm := by
  rfl
@[simp] theorem atCycle_cls (c : Nat) (t : Turn) (s : State) : (atCycle c t s).cls = s.cls := by
  rfl
@[simp] theorem atCycle_tre (c : Nat) (t : Turn) (s : State) : (atCycle c t s).tre = s.tre := by
  rfl
@[simp] theorem atCycle_chn (c : Nat) (t : Turn) (s : State) : (atCycle c t s).chn = s.chn := by
  rfl
@[simp] theorem atCycle_upl (c : Nat) (t : Turn) (s : State) : (atCycle c t s).upl = s.upl := by
  rfl
@[simp] theorem atCycle_cpe (c : Nat) (t : Turn) (s : State) : (atCycle c t s).cpe = s.cpe := by
  rfl
@[simp] theorem atCycle_skm (c : Nat) (t : Turn) (s : State) : (atCycle c t s).skm = s.skm := by
  rfl
@[simp] theorem atCycle_pwr (c : Nat) (t : Turn) (s : State) : (atCycle c t s).pwr = s.pwr := by
  rfl
@[simp] theorem atCycle_cnt (c : Nat) (t : Turn) (s : State) : (atCycle c t s).cnt = s.cnt := by
  rfl
@[simp] theorem atCycle_tst (c : Nat) (t : Turn) (s : State) : (atCycle c t s).tst = s.tst := by
  rfl
@[simp] theorem atCycle_fresh (c : Nat) (t : Turn) (s : State) : (atCycle c t s).fresh = s.fresh := by
  rfl
@[simp] theorem atCycle_out (c : Nat) (t : Turn) (s : State) : (atCycle c t s).out = s.out := by
  rfl
@[simp] theorem atCycle_pending (c : Nat) (t : Turn) (s : State) : (atCycle c t s).pending = s.pending := by
  rfl
@[simp] theorem irq_regs (vec part : Nat) (s : State) : (irq vec part s).regs = s.regs := by
  rfl
@[simp] theorem irq_glb (vec part : Nat) (s : State) : (irq vec part s).glb = s.glb := by
  rfl
@[simp] theorem irq_flt (vec part : Nat) (s : State) : (irq vec part s).flt = s.flt := by
  rfl
@[simp] theorem irq_tim (vec part : Nat) (s : State) : (irq vec part s).tim = s.tim := by
  rfl
@[simp] theorem irq_qbm (vec part : Nat) (s : State) : (irq vec part s).qbm = s.qbm := by
  rfl
@[simp] theorem irq_cls (vec part : Nat) (s : State) : (irq vec part s).cls = s.cls := by
  rfl
@[simp] theorem irq_tre (vec part : Nat) (s : State) : (irq vec part s).tre = s.tre := by
  rfl
@[simp] theorem irq_chn (vec part : Nat) (s : State) : (irq vec part s).chn = s.chn := by
  rfl
@[simp] theorem irq_upl (vec part : Nat) (s : State) : (irq vec part s).upl = s.upl := by
  rfl
@[simp] theorem irq_cpe (vec part : Nat) (s : State) : (irq vec part s).cpe = s.cpe := by
  rfl
@[simp] theorem irq_hrd (vec part : Nat) (s : State) : (irq vec part s).hrd = s.hrd := by
  rfl
@[simp] theorem irq_skm (vec part : Nat) (s : State) : (irq vec part s).skm = s.skm := by
  rfl
@[simp] theorem irq_pwr (vec part : Nat) (s : State) : (irq vec part s).pwr = s.pwr := by
  rfl
@[simp] theorem irq_cnt (vec part : Nat) (s : State) : (irq vec part s).cnt = s.cnt := by
  rfl
@[simp] theorem irq_tst (vec part : Nat) (s : State) : (irq vec part s).tst = s.tst := by
  rfl
@[simp] theorem irq_fresh (vec part : Nat) (s : State) : (irq vec part s).fresh = s.fresh := by
  rfl
@[simp] theorem irq_pending (vec part : Nat) (s : State) : (irq vec part s).pending = s.pending := by
  rfl
@[simp] theorem wakeIdle_regs (d src : Nat) (s : State) : (wakeIdle d src s).regs = s.regs := by
  rfl
@[simp] theorem wakeIdle_glb (d src : Nat) (s : State) : (wakeIdle d src s).glb = s.glb := by
  rfl
@[simp] theorem wakeIdle_flt (d src : Nat) (s : State) : (wakeIdle d src s).flt = s.flt := by
  rfl
@[simp] theorem wakeIdle_tim (d src : Nat) (s : State) : (wakeIdle d src s).tim = s.tim := by
  rfl
@[simp] theorem wakeIdle_qbm (d src : Nat) (s : State) : (wakeIdle d src s).qbm = s.qbm := by
  rfl
@[simp] theorem wakeIdle_cls (d src : Nat) (s : State) : (wakeIdle d src s).cls = s.cls := by
  rfl
@[simp] theorem wakeIdle_tre (d src : Nat) (s : State) : (wakeIdle d src s).tre = s.tre := by
  rfl
@[simp] theorem wakeIdle_chn (d src : Nat) (s : State) : (wakeIdle d src s).chn = s.chn := by
  rfl
@[simp] theorem wakeIdle_upl (d src : Nat) (s : State) : (wakeIdle d src s).upl = s.upl := by
  rfl
@[simp] theorem wakeIdle_cpe (d src : Nat) (s : State) : (wakeIdle d src s).cpe = s.cpe := by
  rfl
@[simp] theorem wakeIdle_hrd (d src : Nat) (s : State) : (wakeIdle d src s).hrd = s.hrd := by
  rfl
@[simp] theorem wakeIdle_skm (d src : Nat) (s : State) : (wakeIdle d src s).skm = s.skm := by
  rfl
@[simp] theorem wakeIdle_cnt (d src : Nat) (s : State) : (wakeIdle d src s).cnt = s.cnt := by
  rfl
@[simp] theorem wakeIdle_tst (d src : Nat) (s : State) : (wakeIdle d src s).tst = s.tst := by
  rfl
@[simp] theorem wakeIdle_fresh (d src : Nat) (s : State) : (wakeIdle d src s).fresh = s.fresh := by
  rfl
@[simp] theorem wakeIdle_out (d src : Nat) (s : State) : (wakeIdle d src s).out = s.out := by
  rfl
@[simp] theorem wakeIdle_pending (d src : Nat) (s : State) : (wakeIdle d src s).pending = s.pending := by
  rfl
@[simp] theorem wake_regs (d src : Nat) (s : State) : (wake d src s).regs = s.regs := by
  unfold wake
  try extract_lets
  repeat' split
  all_goals simp [*]
@[simp] theorem wake_glb (d src : Nat) (s : State) : (wake d src s).glb = s.glb := by
  unfold wake
  try extract_lets
  repeat' split
  all_goals simp [*]
@[simp] theorem wake_flt (d src : Nat) (s : State) : (wake d src s).flt = s.flt := by
  unfold wake
  try extract_lets
  repeat' split
  all_goals simp [*]
@[simp] theorem wake_tim (d src : Nat) (s : State) : (wake d src s).tim = s.tim := by
  unfold wake
  try extract_lets
  repeat' split
  all_goals simp [*]
@[simp] theorem wake_qbm (d src : Nat) (s : State) : (wake d src s).qbm = s.qbm := by
  unfold wake
  try extract_lets
  repeat' split
  all_goals simp [*]
@[simp] theorem wake_cls (d src : Nat) (s : State) : (wake d src s).cls = s.cls := by
  unfold wake
  try extract_lets
  repeat' split
  all_goals simp [*]
@[simp] theorem wake_tre (d src : Nat) (s : State) : (wake d src s).tre = s.tre := by
  unfold wake
  try extract_lets
  repeat' split
  all_goals simp [*]
@[simp] theorem wake_chn (d src : Nat) (s : State) : (wake d src s).chn = s.chn := by
  unfold wake
  try extract_lets
  repeat' split
  all_goals simp [*]
@[simp] theorem wake_upl (d src : Nat) (s : State) : (wake d src s).upl = s.upl := by
  unfold wake
  try extract_lets
  repeat' split
  all_goals simp [*]
@[simp] theorem wake_cpe (d src : Nat) (s : State) : (wake d src s).cpe = s.cpe := by
  unfold wake
  try extract_lets
  repeat' split
  all_goals simp [*]
@[simp] theorem wake_hrd (d src : Nat) (s : State) : (wake d src s).hrd = s.hrd := by
  unfold wake
  try extract_lets
  repeat' split
  all_goals simp [*]
@[simp] theorem wake_skm (d src : Nat) (s : State) : (wake d src s).skm = s.skm := by
  unfold wake
  try extract_lets
  repeat' split
  all_goals simp [*]
@[simp] theorem wake_cnt (d src : Nat) (s : State) : (wake d src s).cnt = s.cnt := by
  unfold wake
  try extract_lets
  repeat' split
  all_goals simp [*]
@[simp] theorem wake_tst (d src : Nat) (s : State) : (wake d src s).tst = s.tst := by
  unfold wake
  try extract_lets
  repeat' split
  all_goals simp [*]
@[simp] theorem wake_fresh (d src : Nat) (s : State) : (wake d src s).fresh = s.fresh := by
  unfold wake
  try extract_lets
  repeat' split
  all_goals simp [*]
@[simp] theorem wake_out (d src : Nat) (s : State) : (wake d src s).out = s.out := by
  unfold wake
  try extract_lets
  repeat' split
  all_goals simp [*]
@[simp] theorem wake_pending (d src : Nat) (s : State) : (wake d src s).pending = s.pending := by
  unfold wake
  try extract_lets
  repeat' split
  all_goals simp [*]
@[simp] theorem ntcLose_regs (p : Nat) (s : State) : (ntcLose p s).regs = s.regs := by
  rfl
@[simp] theorem ntcLose_glb (p : Nat) (s : State) : (ntcLose p s).glb = s.glb := by
  rfl
@[simp] theorem ntcLose_flt (p : Nat) (s : State) : (ntcLose p s).flt = s.flt := by
  rfl
@[simp] theorem ntcLose_tim (p : Nat) (s : State) : (ntcLose p s).tim = s.tim := by
  rfl
@[simp] theorem ntcLose_qbm (p : Nat) (s : State) : (ntcLose p s).qbm = s.qbm := by
  rfl
@[simp] theorem ntcLose_cls (p : Nat) (s : State) : (ntcLose p s).cls = s.cls := by
  rfl
@[simp] theorem ntcLose_tre (p : Nat) (s : State) : (ntcLose p s).tre = s.tre := by
  rfl
@[simp] theorem ntcLose_chn (p : Nat) (s : State) : (ntcLose p s).chn = s.chn := by
  rfl
@[simp] theorem ntcLose_upl (p : Nat) (s : State) : (ntcLose p s).upl = s.upl := by
  rfl
@[simp] theorem ntcLose_cpe (p : Nat) (s : State) : (ntcLose p s).cpe = s.cpe := by
  rfl
@[simp] theorem ntcLose_skm (p : Nat) (s : State) : (ntcLose p s).skm = s.skm := by
  rfl
@[simp] theorem ntcLose_pwr (p : Nat) (s : State) : (ntcLose p s).pwr = s.pwr := by
  rfl
@[simp] theorem ntcLose_tst (p : Nat) (s : State) : (ntcLose p s).tst = s.tst := by
  rfl
@[simp] theorem ntcLose_fresh (p : Nat) (s : State) : (ntcLose p s).fresh = s.fresh := by
  rfl
@[simp] theorem ntcLose_out (p : Nat) (s : State) : (ntcLose p s).out = s.out := by
  rfl
@[simp] theorem ntcLose_pending (p : Nat) (s : State) : (ntcLose p s).pending = s.pending := by
  rfl
@[simp] theorem ntcWrite_regs (p : Nat) (n : Notice) (s : State) : (ntcWrite p n s).regs = s.regs :=
  (hostWrites_regs _ _).trans (setRing_regs _ _ _ _)
@[simp] theorem ntcDrain_regs (p k : Nat) (s : State) : (ntcDrain p k s).regs = s.regs := by
  induction k generalizing s with
  | zero => rfl
  | succ k ih =>
    rw [ntcDrain]
    split
    · rfl
    · split
      · exact (ih _).trans (ntcWrite_regs _ _ _)
      · split
        · rfl
        · exact (ih _).trans (ntcWrite_regs _ _ _)
@[simp] theorem ntcWrite_glb (p : Nat) (n : Notice) (s : State) : (ntcWrite p n s).glb = s.glb :=
  (hostWrites_glb _ _).trans (setRing_glb _ _ _ _)
@[simp] theorem ntcDrain_glb (p k : Nat) (s : State) : (ntcDrain p k s).glb = s.glb := by
  induction k generalizing s with
  | zero => rfl
  | succ k ih =>
    rw [ntcDrain]
    split
    · rfl
    · split
      · exact (ih _).trans (ntcWrite_glb _ _ _)
      · split
        · rfl
        · exact (ih _).trans (ntcWrite_glb _ _ _)
@[simp] theorem ntcWrite_flt (p : Nat) (n : Notice) (s : State) : (ntcWrite p n s).flt = s.flt :=
  (hostWrites_flt _ _).trans (setRing_flt _ _ _ _)
@[simp] theorem ntcDrain_flt (p k : Nat) (s : State) : (ntcDrain p k s).flt = s.flt := by
  induction k generalizing s with
  | zero => rfl
  | succ k ih =>
    rw [ntcDrain]
    split
    · rfl
    · split
      · exact (ih _).trans (ntcWrite_flt _ _ _)
      · split
        · rfl
        · exact (ih _).trans (ntcWrite_flt _ _ _)
@[simp] theorem ntcWrite_tim (p : Nat) (n : Notice) (s : State) : (ntcWrite p n s).tim = s.tim :=
  (hostWrites_tim _ _).trans (setRing_tim _ _ _ _)
@[simp] theorem ntcDrain_tim (p k : Nat) (s : State) : (ntcDrain p k s).tim = s.tim := by
  induction k generalizing s with
  | zero => rfl
  | succ k ih =>
    rw [ntcDrain]
    split
    · rfl
    · split
      · exact (ih _).trans (ntcWrite_tim _ _ _)
      · split
        · rfl
        · exact (ih _).trans (ntcWrite_tim _ _ _)
@[simp] theorem ntcWrite_qbm (p : Nat) (n : Notice) (s : State) : (ntcWrite p n s).qbm = s.qbm :=
  (hostWrites_qbm _ _).trans (setRing_qbm _ _ _ _)
@[simp] theorem ntcDrain_qbm (p k : Nat) (s : State) : (ntcDrain p k s).qbm = s.qbm := by
  induction k generalizing s with
  | zero => rfl
  | succ k ih =>
    rw [ntcDrain]
    split
    · rfl
    · split
      · exact (ih _).trans (ntcWrite_qbm _ _ _)
      · split
        · rfl
        · exact (ih _).trans (ntcWrite_qbm _ _ _)
@[simp] theorem ntcWrite_cls (p : Nat) (n : Notice) (s : State) : (ntcWrite p n s).cls = s.cls :=
  (hostWrites_cls _ _).trans (setRing_cls _ _ _ _)
@[simp] theorem ntcDrain_cls (p k : Nat) (s : State) : (ntcDrain p k s).cls = s.cls := by
  induction k generalizing s with
  | zero => rfl
  | succ k ih =>
    rw [ntcDrain]
    split
    · rfl
    · split
      · exact (ih _).trans (ntcWrite_cls _ _ _)
      · split
        · rfl
        · exact (ih _).trans (ntcWrite_cls _ _ _)
@[simp] theorem ntcWrite_tre (p : Nat) (n : Notice) (s : State) : (ntcWrite p n s).tre = s.tre :=
  (hostWrites_tre _ _).trans (setRing_tre _ _ _ _)
@[simp] theorem ntcDrain_tre (p k : Nat) (s : State) : (ntcDrain p k s).tre = s.tre := by
  induction k generalizing s with
  | zero => rfl
  | succ k ih =>
    rw [ntcDrain]
    split
    · rfl
    · split
      · exact (ih _).trans (ntcWrite_tre _ _ _)
      · split
        · rfl
        · exact (ih _).trans (ntcWrite_tre _ _ _)
@[simp] theorem ntcWrite_chn (p : Nat) (n : Notice) (s : State) : (ntcWrite p n s).chn = s.chn :=
  (hostWrites_chn _ _).trans (setRing_chn _ _ _ _)
@[simp] theorem ntcDrain_chn (p k : Nat) (s : State) : (ntcDrain p k s).chn = s.chn := by
  induction k generalizing s with
  | zero => rfl
  | succ k ih =>
    rw [ntcDrain]
    split
    · rfl
    · split
      · exact (ih _).trans (ntcWrite_chn _ _ _)
      · split
        · rfl
        · exact (ih _).trans (ntcWrite_chn _ _ _)
@[simp] theorem ntcWrite_upl (p : Nat) (n : Notice) (s : State) : (ntcWrite p n s).upl = s.upl :=
  (hostWrites_upl _ _).trans (setRing_upl _ _ _ _)
@[simp] theorem ntcDrain_upl (p k : Nat) (s : State) : (ntcDrain p k s).upl = s.upl := by
  induction k generalizing s with
  | zero => rfl
  | succ k ih =>
    rw [ntcDrain]
    split
    · rfl
    · split
      · exact (ih _).trans (ntcWrite_upl _ _ _)
      · split
        · rfl
        · exact (ih _).trans (ntcWrite_upl _ _ _)
@[simp] theorem ntcWrite_cpe (p : Nat) (n : Notice) (s : State) : (ntcWrite p n s).cpe = s.cpe :=
  (hostWrites_cpe _ _).trans (setRing_cpe _ _ _ _)
@[simp] theorem ntcDrain_cpe (p k : Nat) (s : State) : (ntcDrain p k s).cpe = s.cpe := by
  induction k generalizing s with
  | zero => rfl
  | succ k ih =>
    rw [ntcDrain]
    split
    · rfl
    · split
      · exact (ih _).trans (ntcWrite_cpe _ _ _)
      · split
        · rfl
        · exact (ih _).trans (ntcWrite_cpe _ _ _)
@[simp] theorem ntcWrite_skm (p : Nat) (n : Notice) (s : State) : (ntcWrite p n s).skm = s.skm :=
  (hostWrites_skm _ _).trans (setRing_skm _ _ _ _)
@[simp] theorem ntcDrain_skm (p k : Nat) (s : State) : (ntcDrain p k s).skm = s.skm := by
  induction k generalizing s with
  | zero => rfl
  | succ k ih =>
    rw [ntcDrain]
    split
    · rfl
    · split
      · exact (ih _).trans (ntcWrite_skm _ _ _)
      · split
        · rfl
        · exact (ih _).trans (ntcWrite_skm _ _ _)
@[simp] theorem ntcWrite_pwr (p : Nat) (n : Notice) (s : State) : (ntcWrite p n s).pwr = s.pwr :=
  (hostWrites_pwr _ _).trans (setRing_pwr _ _ _ _)
@[simp] theorem ntcDrain_pwr (p k : Nat) (s : State) : (ntcDrain p k s).pwr = s.pwr := by
  induction k generalizing s with
  | zero => rfl
  | succ k ih =>
    rw [ntcDrain]
    split
    · rfl
    · split
      · exact (ih _).trans (ntcWrite_pwr _ _ _)
      · split
        · rfl
        · exact (ih _).trans (ntcWrite_pwr _ _ _)
@[simp] theorem ntcWrite_cnt (p : Nat) (n : Notice) (s : State) : (ntcWrite p n s).cnt = s.cnt :=
  (hostWrites_cnt _ _).trans (setRing_cnt _ _ _ _)
@[simp] theorem ntcDrain_cnt (p k : Nat) (s : State) : (ntcDrain p k s).cnt = s.cnt := by
  induction k generalizing s with
  | zero => rfl
  | succ k ih =>
    rw [ntcDrain]
    split
    · rfl
    · split
      · exact (ih _).trans (ntcWrite_cnt _ _ _)
      · split
        · rfl
        · exact (ih _).trans (ntcWrite_cnt _ _ _)
@[simp] theorem ntcWrite_tst (p : Nat) (n : Notice) (s : State) : (ntcWrite p n s).tst = s.tst :=
  (hostWrites_tst _ _).trans (setRing_tst _ _ _ _)
@[simp] theorem ntcDrain_tst (p k : Nat) (s : State) : (ntcDrain p k s).tst = s.tst := by
  induction k generalizing s with
  | zero => rfl
  | succ k ih =>
    rw [ntcDrain]
    split
    · rfl
    · split
      · exact (ih _).trans (ntcWrite_tst _ _ _)
      · split
        · rfl
        · exact (ih _).trans (ntcWrite_tst _ _ _)
@[simp] theorem ntcWrite_fresh (p : Nat) (n : Notice) (s : State) : (ntcWrite p n s).fresh = s.fresh :=
  (hostWrites_fresh _ _).trans (setRing_fresh _ _ _ _)
@[simp] theorem ntcDrain_fresh (p k : Nat) (s : State) : (ntcDrain p k s).fresh = s.fresh := by
  induction k generalizing s with
  | zero => rfl
  | succ k ih =>
    rw [ntcDrain]
    split
    · rfl
    · split
      · exact (ih _).trans (ntcWrite_fresh _ _ _)
      · split
        · rfl
        · exact (ih _).trans (ntcWrite_fresh _ _ _)
@[simp] theorem ntcWrite_pending (p : Nat) (n : Notice) (s : State) : (ntcWrite p n s).pending = s.pending :=
  (hostWrites_pending _ _).trans (setRing_pending _ _ _ _)
@[simp] theorem ntcDrain_pending (p k : Nat) (s : State) : (ntcDrain p k s).pending = s.pending := by
  induction k generalizing s with
  | zero => rfl
  | succ k ih =>
    rw [ntcDrain]
    split
    · rfl
    · split
      · exact (ih _).trans (ntcWrite_pending _ _ _)
      · split
        · rfl
        · exact (ih _).trans (ntcWrite_pending _ _ _)
@[simp] theorem notice_regs (p : Nat) (n : Notice) (s : State) : (notice p n s).regs = s.regs := by
  unfold notice
  extract_lets r s0 s1 pend
  have h1 : s1.regs = s.regs := by
    show (if _ then _ else _ : State).regs = _
    split <;> simp [s0]
  clear_value s1
  repeat' split
  all_goals simp [h1]
@[simp] theorem notice0_regs (type cause : Nat) (w6 w7 : Word) (s : State) : (notice0 type cause w6 w7 s).regs = s.regs := notice_regs _ _ _
@[simp] theorem noticeT_regs (type tree tid cause : Nat) (serial : BitVec 64) (w6 w7 : Word) (s : State) :
    (noticeT type tree tid cause serial w6 w7 s).regs = s.regs := notice_regs _ _ _
@[simp] theorem notice_glb (p : Nat) (n : Notice) (s : State) : (notice p n s).glb = s.glb := by
  unfold notice
  extract_lets r s0 s1 pend
  have h1 : s1.glb = s.glb := by
    show (if _ then _ else _ : State).glb = _
    split <;> simp [s0]
  clear_value s1
  repeat' split
  all_goals simp [h1]
@[simp] theorem notice0_glb (type cause : Nat) (w6 w7 : Word) (s : State) : (notice0 type cause w6 w7 s).glb = s.glb := notice_glb _ _ _
@[simp] theorem noticeT_glb (type tree tid cause : Nat) (serial : BitVec 64) (w6 w7 : Word) (s : State) :
    (noticeT type tree tid cause serial w6 w7 s).glb = s.glb := notice_glb _ _ _
@[simp] theorem notice_flt (p : Nat) (n : Notice) (s : State) : (notice p n s).flt = s.flt := by
  unfold notice
  extract_lets r s0 s1 pend
  have h1 : s1.flt = s.flt := by
    show (if _ then _ else _ : State).flt = _
    split <;> simp [s0]
  clear_value s1
  repeat' split
  all_goals simp [h1]
@[simp] theorem notice0_flt (type cause : Nat) (w6 w7 : Word) (s : State) : (notice0 type cause w6 w7 s).flt = s.flt := notice_flt _ _ _
@[simp] theorem noticeT_flt (type tree tid cause : Nat) (serial : BitVec 64) (w6 w7 : Word) (s : State) :
    (noticeT type tree tid cause serial w6 w7 s).flt = s.flt := notice_flt _ _ _
@[simp] theorem notice_tim (p : Nat) (n : Notice) (s : State) : (notice p n s).tim = s.tim := by
  unfold notice
  extract_lets r s0 s1 pend
  have h1 : s1.tim = s.tim := by
    show (if _ then _ else _ : State).tim = _
    split <;> simp [s0]
  clear_value s1
  repeat' split
  all_goals simp [h1]
@[simp] theorem notice0_tim (type cause : Nat) (w6 w7 : Word) (s : State) : (notice0 type cause w6 w7 s).tim = s.tim := notice_tim _ _ _
@[simp] theorem noticeT_tim (type tree tid cause : Nat) (serial : BitVec 64) (w6 w7 : Word) (s : State) :
    (noticeT type tree tid cause serial w6 w7 s).tim = s.tim := notice_tim _ _ _
@[simp] theorem notice_qbm (p : Nat) (n : Notice) (s : State) : (notice p n s).qbm = s.qbm := by
  unfold notice
  extract_lets r s0 s1 pend
  have h1 : s1.qbm = s.qbm := by
    show (if _ then _ else _ : State).qbm = _
    split <;> simp [s0]
  clear_value s1
  repeat' split
  all_goals simp [h1]
@[simp] theorem notice0_qbm (type cause : Nat) (w6 w7 : Word) (s : State) : (notice0 type cause w6 w7 s).qbm = s.qbm := notice_qbm _ _ _
@[simp] theorem noticeT_qbm (type tree tid cause : Nat) (serial : BitVec 64) (w6 w7 : Word) (s : State) :
    (noticeT type tree tid cause serial w6 w7 s).qbm = s.qbm := notice_qbm _ _ _
@[simp] theorem notice_cls (p : Nat) (n : Notice) (s : State) : (notice p n s).cls = s.cls := by
  unfold notice
  extract_lets r s0 s1 pend
  have h1 : s1.cls = s.cls := by
    show (if _ then _ else _ : State).cls = _
    split <;> simp [s0]
  clear_value s1
  repeat' split
  all_goals simp [h1]
@[simp] theorem notice0_cls (type cause : Nat) (w6 w7 : Word) (s : State) : (notice0 type cause w6 w7 s).cls = s.cls := notice_cls _ _ _
@[simp] theorem noticeT_cls (type tree tid cause : Nat) (serial : BitVec 64) (w6 w7 : Word) (s : State) :
    (noticeT type tree tid cause serial w6 w7 s).cls = s.cls := notice_cls _ _ _
@[simp] theorem notice_tre (p : Nat) (n : Notice) (s : State) : (notice p n s).tre = s.tre := by
  unfold notice
  extract_lets r s0 s1 pend
  have h1 : s1.tre = s.tre := by
    show (if _ then _ else _ : State).tre = _
    split <;> simp [s0]
  clear_value s1
  repeat' split
  all_goals simp [h1]
@[simp] theorem notice0_tre (type cause : Nat) (w6 w7 : Word) (s : State) : (notice0 type cause w6 w7 s).tre = s.tre := notice_tre _ _ _
@[simp] theorem noticeT_tre (type tree tid cause : Nat) (serial : BitVec 64) (w6 w7 : Word) (s : State) :
    (noticeT type tree tid cause serial w6 w7 s).tre = s.tre := notice_tre _ _ _
@[simp] theorem notice_chn (p : Nat) (n : Notice) (s : State) : (notice p n s).chn = s.chn := by
  unfold notice
  extract_lets r s0 s1 pend
  have h1 : s1.chn = s.chn := by
    show (if _ then _ else _ : State).chn = _
    split <;> simp [s0]
  clear_value s1
  repeat' split
  all_goals simp [h1]
@[simp] theorem notice0_chn (type cause : Nat) (w6 w7 : Word) (s : State) : (notice0 type cause w6 w7 s).chn = s.chn := notice_chn _ _ _
@[simp] theorem noticeT_chn (type tree tid cause : Nat) (serial : BitVec 64) (w6 w7 : Word) (s : State) :
    (noticeT type tree tid cause serial w6 w7 s).chn = s.chn := notice_chn _ _ _
@[simp] theorem notice_upl (p : Nat) (n : Notice) (s : State) : (notice p n s).upl = s.upl := by
  unfold notice
  extract_lets r s0 s1 pend
  have h1 : s1.upl = s.upl := by
    show (if _ then _ else _ : State).upl = _
    split <;> simp [s0]
  clear_value s1
  repeat' split
  all_goals simp [h1]
@[simp] theorem notice0_upl (type cause : Nat) (w6 w7 : Word) (s : State) : (notice0 type cause w6 w7 s).upl = s.upl := notice_upl _ _ _
@[simp] theorem noticeT_upl (type tree tid cause : Nat) (serial : BitVec 64) (w6 w7 : Word) (s : State) :
    (noticeT type tree tid cause serial w6 w7 s).upl = s.upl := notice_upl _ _ _
@[simp] theorem notice_cpe (p : Nat) (n : Notice) (s : State) : (notice p n s).cpe = s.cpe := by
  unfold notice
  extract_lets r s0 s1 pend
  have h1 : s1.cpe = s.cpe := by
    show (if _ then _ else _ : State).cpe = _
    split <;> simp [s0]
  clear_value s1
  repeat' split
  all_goals simp [h1]
@[simp] theorem notice0_cpe (type cause : Nat) (w6 w7 : Word) (s : State) : (notice0 type cause w6 w7 s).cpe = s.cpe := notice_cpe _ _ _
@[simp] theorem noticeT_cpe (type tree tid cause : Nat) (serial : BitVec 64) (w6 w7 : Word) (s : State) :
    (noticeT type tree tid cause serial w6 w7 s).cpe = s.cpe := notice_cpe _ _ _
@[simp] theorem notice_skm (p : Nat) (n : Notice) (s : State) : (notice p n s).skm = s.skm := by
  unfold notice
  extract_lets r s0 s1 pend
  have h1 : s1.skm = s.skm := by
    show (if _ then _ else _ : State).skm = _
    split <;> simp [s0]
  clear_value s1
  repeat' split
  all_goals simp [h1]
@[simp] theorem notice0_skm (type cause : Nat) (w6 w7 : Word) (s : State) : (notice0 type cause w6 w7 s).skm = s.skm := notice_skm _ _ _
@[simp] theorem noticeT_skm (type tree tid cause : Nat) (serial : BitVec 64) (w6 w7 : Word) (s : State) :
    (noticeT type tree tid cause serial w6 w7 s).skm = s.skm := notice_skm _ _ _
@[simp] theorem notice_tst (p : Nat) (n : Notice) (s : State) : (notice p n s).tst = s.tst := by
  unfold notice
  extract_lets r s0 s1 pend
  have h1 : s1.tst = s.tst := by
    show (if _ then _ else _ : State).tst = _
    split <;> simp [s0]
  clear_value s1
  repeat' split
  all_goals simp [h1]
@[simp] theorem notice0_tst (type cause : Nat) (w6 w7 : Word) (s : State) : (notice0 type cause w6 w7 s).tst = s.tst := notice_tst _ _ _
@[simp] theorem noticeT_tst (type tree tid cause : Nat) (serial : BitVec 64) (w6 w7 : Word) (s : State) :
    (noticeT type tree tid cause serial w6 w7 s).tst = s.tst := notice_tst _ _ _
@[simp] theorem notice_fresh (p : Nat) (n : Notice) (s : State) : (notice p n s).fresh = s.fresh := by
  unfold notice
  extract_lets r s0 s1 pend
  have h1 : s1.fresh = s.fresh := by
    show (if _ then _ else _ : State).fresh = _
    split <;> simp [s0]
  clear_value s1
  repeat' split
  all_goals simp [h1]
@[simp] theorem notice0_fresh (type cause : Nat) (w6 w7 : Word) (s : State) : (notice0 type cause w6 w7 s).fresh = s.fresh := notice_fresh _ _ _
@[simp] theorem noticeT_fresh (type tree tid cause : Nat) (serial : BitVec 64) (w6 w7 : Word) (s : State) :
    (noticeT type tree tid cause serial w6 w7 s).fresh = s.fresh := notice_fresh _ _ _
@[simp] theorem notice_pending (p : Nat) (n : Notice) (s : State) : (notice p n s).pending = s.pending := by
  unfold notice
  extract_lets r s0 s1 pend
  have h1 : s1.pending = s.pending := by
    show (if _ then _ else _ : State).pending = _
    split <;> simp [s0]
  clear_value s1
  repeat' split
  all_goals simp [h1]
@[simp] theorem notice0_pending (type cause : Nat) (w6 w7 : Word) (s : State) : (notice0 type cause w6 w7 s).pending = s.pending := notice_pending _ _ _
@[simp] theorem noticeT_pending (type tree tid cause : Nat) (serial : BitVec 64) (w6 w7 : Word) (s : State) :
    (noticeT type tree tid cause serial w6 w7 s).pending = s.pending := notice_pending _ _ _
@[simp] theorem setFlt_regs (i : Nat) (f : FaultSet) (s : State) : (setFlt i f s).regs = s.regs := by
  rfl
@[simp] theorem setFlt_glb (i : Nat) (f : FaultSet) (s : State) : (setFlt i f s).glb = s.glb := by
  rfl
@[simp] theorem setFlt_tim (i : Nat) (f : FaultSet) (s : State) : (setFlt i f s).tim = s.tim := by
  rfl
@[simp] theorem setFlt_qbm (i : Nat) (f : FaultSet) (s : State) : (setFlt i f s).qbm = s.qbm := by
  rfl
@[simp] theorem setFlt_cls (i : Nat) (f : FaultSet) (s : State) : (setFlt i f s).cls = s.cls := by
  rfl
@[simp] theorem setFlt_tre (i : Nat) (f : FaultSet) (s : State) : (setFlt i f s).tre = s.tre := by
  rfl
@[simp] theorem setFlt_chn (i : Nat) (f : FaultSet) (s : State) : (setFlt i f s).chn = s.chn := by
  rfl
@[simp] theorem setFlt_upl (i : Nat) (f : FaultSet) (s : State) : (setFlt i f s).upl = s.upl := by
  rfl
@[simp] theorem setFlt_cpe (i : Nat) (f : FaultSet) (s : State) : (setFlt i f s).cpe = s.cpe := by
  rfl
@[simp] theorem setFlt_hrd (i : Nat) (f : FaultSet) (s : State) : (setFlt i f s).hrd = s.hrd := by
  rfl
@[simp] theorem setFlt_skm (i : Nat) (f : FaultSet) (s : State) : (setFlt i f s).skm = s.skm := by
  rfl
@[simp] theorem setFlt_pwr (i : Nat) (f : FaultSet) (s : State) : (setFlt i f s).pwr = s.pwr := by
  rfl
@[simp] theorem setFlt_cnt (i : Nat) (f : FaultSet) (s : State) : (setFlt i f s).cnt = s.cnt := by
  rfl
@[simp] theorem setFlt_tst (i : Nat) (f : FaultSet) (s : State) : (setFlt i f s).tst = s.tst := by
  rfl
@[simp] theorem setFlt_fresh (i : Nat) (f : FaultSet) (s : State) : (setFlt i f s).fresh = s.fresh := by
  rfl
@[simp] theorem setFlt_out (i : Nat) (f : FaultSet) (s : State) : (setFlt i f s).out = s.out := by
  rfl
@[simp] theorem setFlt_pending (i : Nat) (f : FaultSet) (s : State) : (setFlt i f s).pending = s.pending := by
  rfl
@[simp] theorem setVq_regs (n : Nat) (v : Vq) (s : State) : (setVq n v s).regs = s.regs := by
  rfl
@[simp] theorem setVq_glb (n : Nat) (v : Vq) (s : State) : (setVq n v s).glb = s.glb := by
  rfl
@[simp] theorem setVq_flt (n : Nat) (v : Vq) (s : State) : (setVq n v s).flt = s.flt := by
  rfl
@[simp] theorem setVq_tim (n : Nat) (v : Vq) (s : State) : (setVq n v s).tim = s.tim := by
  rfl
@[simp] theorem setVq_qbm (n : Nat) (v : Vq) (s : State) : (setVq n v s).qbm = s.qbm := by
  rfl
@[simp] theorem setVq_cls (n : Nat) (v : Vq) (s : State) : (setVq n v s).cls = s.cls := by
  rfl
@[simp] theorem setVq_tre (n : Nat) (v : Vq) (s : State) : (setVq n v s).tre = s.tre := by
  rfl
@[simp] theorem setVq_chn (n : Nat) (v : Vq) (s : State) : (setVq n v s).chn = s.chn := by
  rfl
@[simp] theorem setVq_upl (n : Nat) (v : Vq) (s : State) : (setVq n v s).upl = s.upl := by
  rfl
@[simp] theorem setVq_cpe (n : Nat) (v : Vq) (s : State) : (setVq n v s).cpe = s.cpe := by
  rfl
@[simp] theorem setVq_hrd (n : Nat) (v : Vq) (s : State) : (setVq n v s).hrd = s.hrd := by
  rfl
@[simp] theorem setVq_skm (n : Nat) (v : Vq) (s : State) : (setVq n v s).skm = s.skm := by
  rfl
@[simp] theorem setVq_pwr (n : Nat) (v : Vq) (s : State) : (setVq n v s).pwr = s.pwr := by
  rfl
@[simp] theorem setVq_cnt (n : Nat) (v : Vq) (s : State) : (setVq n v s).cnt = s.cnt := by
  rfl
@[simp] theorem setVq_fresh (n : Nat) (v : Vq) (s : State) : (setVq n v s).fresh = s.fresh := by
  rfl
@[simp] theorem setVq_out (n : Nat) (v : Vq) (s : State) : (setVq n v s).out = s.out := by
  rfl
@[simp] theorem setVq_pending (n : Nat) (v : Vq) (s : State) : (setVq n v s).pending = s.pending := by
  rfl
@[simp] theorem modVq_regs (n : Nat) (f : Vq → Vq) (s : State) : (modVq n f s).regs = s.regs := by
  rfl
@[simp] theorem modVq_glb (n : Nat) (f : Vq → Vq) (s : State) : (modVq n f s).glb = s.glb := by
  rfl
@[simp] theorem modVq_flt (n : Nat) (f : Vq → Vq) (s : State) : (modVq n f s).flt = s.flt := by
  rfl
@[simp] theorem modVq_tim (n : Nat) (f : Vq → Vq) (s : State) : (modVq n f s).tim = s.tim := by
  rfl
@[simp] theorem modVq_qbm (n : Nat) (f : Vq → Vq) (s : State) : (modVq n f s).qbm = s.qbm := by
  rfl
@[simp] theorem modVq_cls (n : Nat) (f : Vq → Vq) (s : State) : (modVq n f s).cls = s.cls := by
  rfl
@[simp] theorem modVq_tre (n : Nat) (f : Vq → Vq) (s : State) : (modVq n f s).tre = s.tre := by
  rfl
@[simp] theorem modVq_chn (n : Nat) (f : Vq → Vq) (s : State) : (modVq n f s).chn = s.chn := by
  rfl
@[simp] theorem modVq_upl (n : Nat) (f : Vq → Vq) (s : State) : (modVq n f s).upl = s.upl := by
  rfl
@[simp] theorem modVq_cpe (n : Nat) (f : Vq → Vq) (s : State) : (modVq n f s).cpe = s.cpe := by
  rfl
@[simp] theorem modVq_hrd (n : Nat) (f : Vq → Vq) (s : State) : (modVq n f s).hrd = s.hrd := by
  rfl
@[simp] theorem modVq_skm (n : Nat) (f : Vq → Vq) (s : State) : (modVq n f s).skm = s.skm := by
  rfl
@[simp] theorem modVq_pwr (n : Nat) (f : Vq → Vq) (s : State) : (modVq n f s).pwr = s.pwr := by
  rfl
@[simp] theorem modVq_cnt (n : Nat) (f : Vq → Vq) (s : State) : (modVq n f s).cnt = s.cnt := by
  rfl
@[simp] theorem modVq_fresh (n : Nat) (f : Vq → Vq) (s : State) : (modVq n f s).fresh = s.fresh := by
  rfl
@[simp] theorem modVq_out (n : Nat) (f : Vq → Vq) (s : State) : (modVq n f s).out = s.out := by
  rfl
@[simp] theorem modVq_pending (n : Nat) (f : Vq → Vq) (s : State) : (modVq n f s).pending = s.pending := by
  rfl
@[simp] theorem setVqTerm_regs (n k : Nat) (x : VqTerm) (s : State) : (setVqTerm n k x s).regs = s.regs := by
  rfl
@[simp] theorem setVqTerm_glb (n k : Nat) (x : VqTerm) (s : State) : (setVqTerm n k x s).glb = s.glb := by
  rfl
@[simp] theorem setVqTerm_flt (n k : Nat) (x : VqTerm) (s : State) : (setVqTerm n k x s).flt = s.flt := by
  rfl
@[simp] theorem setVqTerm_tim (n k : Nat) (x : VqTerm) (s : State) : (setVqTerm n k x s).tim = s.tim := by
  rfl
@[simp] theorem setVqTerm_qbm (n k : Nat) (x : VqTerm) (s : State) : (setVqTerm n k x s).qbm = s.qbm := by
  rfl
@[simp] theorem setVqTerm_cls (n k : Nat) (x : VqTerm) (s : State) : (setVqTerm n k x s).cls = s.cls := by
  rfl
@[simp] theorem setVqTerm_tre (n k : Nat) (x : VqTerm) (s : State) : (setVqTerm n k x s).tre = s.tre := by
  rfl
@[simp] theorem setVqTerm_chn (n k : Nat) (x : VqTerm) (s : State) : (setVqTerm n k x s).chn = s.chn := by
  rfl
@[simp] theorem setVqTerm_upl (n k : Nat) (x : VqTerm) (s : State) : (setVqTerm n k x s).upl = s.upl := by
  rfl
@[simp] theorem setVqTerm_cpe (n k : Nat) (x : VqTerm) (s : State) : (setVqTerm n k x s).cpe = s.cpe := by
  rfl
@[simp] theorem setVqTerm_hrd (n k : Nat) (x : VqTerm) (s : State) : (setVqTerm n k x s).hrd = s.hrd := by
  rfl
@[simp] theorem setVqTerm_skm (n k : Nat) (x : VqTerm) (s : State) : (setVqTerm n k x s).skm = s.skm := by
  rfl
@[simp] theorem setVqTerm_pwr (n k : Nat) (x : VqTerm) (s : State) : (setVqTerm n k x s).pwr = s.pwr := by
  rfl
@[simp] theorem setVqTerm_cnt (n k : Nat) (x : VqTerm) (s : State) : (setVqTerm n k x s).cnt = s.cnt := by
  rfl
@[simp] theorem setVqTerm_fresh (n k : Nat) (x : VqTerm) (s : State) : (setVqTerm n k x s).fresh = s.fresh := by
  rfl
@[simp] theorem setVqTerm_out (n k : Nat) (x : VqTerm) (s : State) : (setVqTerm n k x s).out = s.out := by
  rfl
@[simp] theorem setVqTerm_pending (n k : Nat) (x : VqTerm) (s : State) : (setVqTerm n k x s).pending = s.pending := by
  rfl
@[simp] theorem pinEvent_regs (i : Nat) (s : State) : (pinEvent i s).regs = s.regs := by
  unfold pinEvent
  split
  · rfl
  · extract_lets s1; split <;> rfl
@[simp] theorem pinEvent_flt (i : Nat) (s : State) : (pinEvent i s).flt = s.flt := by
  unfold pinEvent
  split
  · rfl
  · extract_lets s1; split <;> rfl
@[simp] theorem pinEvent_tim (i : Nat) (s : State) : (pinEvent i s).tim = s.tim := by
  unfold pinEvent
  split
  · rfl
  · extract_lets s1; split <;> rfl
@[simp] theorem pinEvent_qbm (i : Nat) (s : State) : (pinEvent i s).qbm = s.qbm := by
  unfold pinEvent
  split
  · rfl
  · extract_lets s1; split <;> rfl
@[simp] theorem pinEvent_cls (i : Nat) (s : State) : (pinEvent i s).cls = s.cls := by
  unfold pinEvent
  split
  · rfl
  · extract_lets s1; split <;> rfl
@[simp] theorem pinEvent_tre (i : Nat) (s : State) : (pinEvent i s).tre = s.tre := by
  unfold pinEvent
  split
  · rfl
  · extract_lets s1; split <;> rfl
@[simp] theorem pinEvent_chn (i : Nat) (s : State) : (pinEvent i s).chn = s.chn := by
  unfold pinEvent
  split
  · rfl
  · extract_lets s1; split <;> rfl
@[simp] theorem pinEvent_upl (i : Nat) (s : State) : (pinEvent i s).upl = s.upl := by
  unfold pinEvent
  split
  · rfl
  · extract_lets s1; split <;> rfl
@[simp] theorem pinEvent_cpe (i : Nat) (s : State) : (pinEvent i s).cpe = s.cpe := by
  unfold pinEvent
  split
  · rfl
  · extract_lets s1; split <;> rfl
@[simp] theorem pinEvent_hrd (i : Nat) (s : State) : (pinEvent i s).hrd = s.hrd := by
  unfold pinEvent
  split
  · rfl
  · extract_lets s1; split <;> rfl
@[simp] theorem pinEvent_skm (i : Nat) (s : State) : (pinEvent i s).skm = s.skm := by
  unfold pinEvent
  split
  · rfl
  · extract_lets s1; split <;> rfl
@[simp] theorem pinEvent_pwr (i : Nat) (s : State) : (pinEvent i s).pwr = s.pwr := by
  unfold pinEvent
  split
  · rfl
  · extract_lets s1; split <;> rfl
@[simp] theorem pinEvent_cnt (i : Nat) (s : State) : (pinEvent i s).cnt = s.cnt := by
  unfold pinEvent
  split
  · rfl
  · extract_lets s1; split <;> rfl
@[simp] theorem pinEvent_tst (i : Nat) (s : State) : (pinEvent i s).tst = s.tst := by
  unfold pinEvent
  split
  · rfl
  · extract_lets s1; split <;> rfl
@[simp] theorem pinEvent_fresh (i : Nat) (s : State) : (pinEvent i s).fresh = s.fresh := by
  unfold pinEvent
  split
  · rfl
  · extract_lets s1; split <;> rfl
@[simp] theorem pinEvent_pending (i : Nat) (s : State) : (pinEvent i s).pending = s.pending := by
  unfold pinEvent
  split
  · rfl
  · extract_lets s1; split <;> rfl
@[simp] theorem raise_regs (i b : Nat) (fi : FaultInfo) (s : State) : (raise i b fi s).regs = s.regs := by
  unfold raise
  extract_lets f s1
  split
  · exact setFlt_regs _ _ _
  · exact (atCycle_regs _ _ _).trans ((notice_regs _ _ _).trans (setFlt_regs _ _ _))
@[simp] theorem fault_regs (i b : Nat) (cap0 : Word) (acc mkind mnum part : Nat) (s : State) :
    (fault i b cap0 acc mkind mnum part s).regs = s.regs := raise_regs _ _ _ _
@[simp] theorem raise_glb (i b : Nat) (fi : FaultInfo) (s : State) : (raise i b fi s).glb = s.glb := by
  unfold raise
  extract_lets f s1
  split
  · exact setFlt_glb _ _ _
  · exact (atCycle_glb _ _ _).trans ((notice_glb _ _ _).trans (setFlt_glb _ _ _))
@[simp] theorem fault_glb (i b : Nat) (cap0 : Word) (acc mkind mnum part : Nat) (s : State) :
    (fault i b cap0 acc mkind mnum part s).glb = s.glb := raise_glb _ _ _ _
@[simp] theorem raise_tim (i b : Nat) (fi : FaultInfo) (s : State) : (raise i b fi s).tim = s.tim := by
  unfold raise
  extract_lets f s1
  split
  · exact setFlt_tim _ _ _
  · exact (atCycle_tim _ _ _).trans ((notice_tim _ _ _).trans (setFlt_tim _ _ _))
@[simp] theorem fault_tim (i b : Nat) (cap0 : Word) (acc mkind mnum part : Nat) (s : State) :
    (fault i b cap0 acc mkind mnum part s).tim = s.tim := raise_tim _ _ _ _
@[simp] theorem raise_qbm (i b : Nat) (fi : FaultInfo) (s : State) : (raise i b fi s).qbm = s.qbm := by
  unfold raise
  extract_lets f s1
  split
  · exact setFlt_qbm _ _ _
  · exact (atCycle_qbm _ _ _).trans ((notice_qbm _ _ _).trans (setFlt_qbm _ _ _))
@[simp] theorem fault_qbm (i b : Nat) (cap0 : Word) (acc mkind mnum part : Nat) (s : State) :
    (fault i b cap0 acc mkind mnum part s).qbm = s.qbm := raise_qbm _ _ _ _
@[simp] theorem raise_cls (i b : Nat) (fi : FaultInfo) (s : State) : (raise i b fi s).cls = s.cls := by
  unfold raise
  extract_lets f s1
  split
  · exact setFlt_cls _ _ _
  · exact (atCycle_cls _ _ _).trans ((notice_cls _ _ _).trans (setFlt_cls _ _ _))
@[simp] theorem fault_cls (i b : Nat) (cap0 : Word) (acc mkind mnum part : Nat) (s : State) :
    (fault i b cap0 acc mkind mnum part s).cls = s.cls := raise_cls _ _ _ _
@[simp] theorem raise_tre (i b : Nat) (fi : FaultInfo) (s : State) : (raise i b fi s).tre = s.tre := by
  unfold raise
  extract_lets f s1
  split
  · exact setFlt_tre _ _ _
  · exact (atCycle_tre _ _ _).trans ((notice_tre _ _ _).trans (setFlt_tre _ _ _))
@[simp] theorem fault_tre (i b : Nat) (cap0 : Word) (acc mkind mnum part : Nat) (s : State) :
    (fault i b cap0 acc mkind mnum part s).tre = s.tre := raise_tre _ _ _ _
@[simp] theorem raise_chn (i b : Nat) (fi : FaultInfo) (s : State) : (raise i b fi s).chn = s.chn := by
  unfold raise
  extract_lets f s1
  split
  · exact setFlt_chn _ _ _
  · exact (atCycle_chn _ _ _).trans ((notice_chn _ _ _).trans (setFlt_chn _ _ _))
@[simp] theorem fault_chn (i b : Nat) (cap0 : Word) (acc mkind mnum part : Nat) (s : State) :
    (fault i b cap0 acc mkind mnum part s).chn = s.chn := raise_chn _ _ _ _
@[simp] theorem raise_upl (i b : Nat) (fi : FaultInfo) (s : State) : (raise i b fi s).upl = s.upl := by
  unfold raise
  extract_lets f s1
  split
  · exact setFlt_upl _ _ _
  · exact (atCycle_upl _ _ _).trans ((notice_upl _ _ _).trans (setFlt_upl _ _ _))
@[simp] theorem fault_upl (i b : Nat) (cap0 : Word) (acc mkind mnum part : Nat) (s : State) :
    (fault i b cap0 acc mkind mnum part s).upl = s.upl := raise_upl _ _ _ _
@[simp] theorem raise_cpe (i b : Nat) (fi : FaultInfo) (s : State) : (raise i b fi s).cpe = s.cpe := by
  unfold raise
  extract_lets f s1
  split
  · exact setFlt_cpe _ _ _
  · exact (atCycle_cpe _ _ _).trans ((notice_cpe _ _ _).trans (setFlt_cpe _ _ _))
@[simp] theorem fault_cpe (i b : Nat) (cap0 : Word) (acc mkind mnum part : Nat) (s : State) :
    (fault i b cap0 acc mkind mnum part s).cpe = s.cpe := raise_cpe _ _ _ _
@[simp] theorem raise_skm (i b : Nat) (fi : FaultInfo) (s : State) : (raise i b fi s).skm = s.skm := by
  unfold raise
  extract_lets f s1
  split
  · exact setFlt_skm _ _ _
  · exact (atCycle_skm _ _ _).trans ((notice_skm _ _ _).trans (setFlt_skm _ _ _))
@[simp] theorem fault_skm (i b : Nat) (cap0 : Word) (acc mkind mnum part : Nat) (s : State) :
    (fault i b cap0 acc mkind mnum part s).skm = s.skm := raise_skm _ _ _ _
@[simp] theorem raise_tst (i b : Nat) (fi : FaultInfo) (s : State) : (raise i b fi s).tst = s.tst := by
  unfold raise
  extract_lets f s1
  split
  · exact setFlt_tst _ _ _
  · exact (atCycle_tst _ _ _).trans ((notice_tst _ _ _).trans (setFlt_tst _ _ _))
@[simp] theorem fault_tst (i b : Nat) (cap0 : Word) (acc mkind mnum part : Nat) (s : State) :
    (fault i b cap0 acc mkind mnum part s).tst = s.tst := raise_tst _ _ _ _
@[simp] theorem raise_fresh (i b : Nat) (fi : FaultInfo) (s : State) : (raise i b fi s).fresh = s.fresh := by
  unfold raise
  extract_lets f s1
  split
  · exact setFlt_fresh _ _ _
  · exact (atCycle_fresh _ _ _).trans ((notice_fresh _ _ _).trans (setFlt_fresh _ _ _))
@[simp] theorem fault_fresh (i b : Nat) (cap0 : Word) (acc mkind mnum part : Nat) (s : State) :
    (fault i b cap0 acc mkind mnum part s).fresh = s.fresh := raise_fresh _ _ _ _
@[simp] theorem raise_pending (i b : Nat) (fi : FaultInfo) (s : State) : (raise i b fi s).pending = s.pending := by
  unfold raise
  extract_lets f s1
  split
  · exact setFlt_pending _ _ _
  · exact (atCycle_pending _ _ _).trans ((notice_pending _ _ _).trans (setFlt_pending _ _ _))
@[simp] theorem fault_pending (i b : Nat) (cap0 : Word) (acc mkind mnum part : Nat) (s : State) :
    (fault i b cap0 acc mkind mnum part s).pending = s.pending := raise_pending _ _ _ _
@[simp] theorem pinEvent_glb_phase (i : Nat) (s : State) : (pinEvent i s).glb.phase = s.glb.phase := by
  unfold pinEvent
  split
  · rfl
  · extract_lets s1; split <;> rfl
@[simp] theorem pinEvent_glb_fuse (i : Nat) (s : State) : (pinEvent i s).glb.fuse = s.glb.fuse := by
  unfold pinEvent
  split
  · rfl
  · extract_lets s1; split <;> rfl
@[simp] theorem pinEvent_glb_fuseOk (i : Nat) (s : State) : (pinEvent i s).glb.fuseOk = s.glb.fuseOk := by
  unfold pinEvent
  split
  · rfl
  · extract_lets s1; split <;> rfl
@[simp] theorem pinEvent_glb_lot (i : Nat) (s : State) : (pinEvent i s).glb.lot = s.glb.lot := by
  unfold pinEvent
  split
  · rfl
  · extract_lets s1; split <;> rfl
@[simp] theorem pinEvent_glb_wafer (i : Nat) (s : State) : (pinEvent i s).glb.wafer = s.glb.wafer := by
  unfold pinEvent
  split
  · rfl
  · extract_lets s1; split <;> rfl
@[simp] theorem pinEvent_glb_dieX (i : Nat) (s : State) : (pinEvent i s).glb.dieX = s.glb.dieX := by
  unfold pinEvent
  split
  · rfl
  · extract_lets s1; split <;> rfl
@[simp] theorem pinEvent_glb_dieY (i : Nat) (s : State) : (pinEvent i s).glb.dieY = s.glb.dieY := by
  unfold pinEvent
  split
  · rfl
  · extract_lets s1; split <;> rfl
@[simp] theorem pinEvent_glb_issue (i : Nat) (s : State) : (pinEvent i s).glb.issue = s.glb.issue := by
  unfold pinEvent
  split
  · rfl
  · extract_lets s1; split <;> rfl
@[simp] theorem pinEvent_glb_defSlc (i : Nat) (s : State) : (pinEvent i s).glb.defSlc = s.glb.defSlc := by
  unfold pinEvent
  split
  · rfl
  · extract_lets s1; split <;> rfl
@[simp] theorem pinEvent_glb_defBg (i : Nat) (s : State) : (pinEvent i s).glb.defBg = s.glb.defBg := by
  unfold pinEvent
  split
  · rfl
  · extract_lets s1; split <;> rfl
@[simp] theorem pinEvent_glb_fuseRep (i : Nat) (s : State) : (pinEvent i s).glb.fuseRep = s.glb.fuseRep := by
  unfold pinEvent
  split
  · rfl
  · extract_lets s1; split <;> rfl
@[simp] theorem pinEvent_glb_softRep (i : Nat) (s : State) : (pinEvent i s).glb.softRep = s.glb.softRep := by
  unfold pinEvent
  split
  · rfl
  · extract_lets s1; split <;> rfl
@[simp] theorem pinEvent_glb_armed (i : Nat) (s : State) : (pinEvent i s).glb.armed = s.glb.armed := by
  unfold pinEvent
  split
  · rfl
  · extract_lets s1; split <;> rfl
@[simp] theorem pinEvent_glb_armAt (i : Nat) (s : State) : (pinEvent i s).glb.armAt = s.glb.armAt := by
  unfold pinEvent
  split
  · rfl
  · extract_lets s1; split <;> rfl
@[simp] theorem pinEvent_glb_homeTree (i : Nat) (s : State) : (pinEvent i s).glb.homeTree = s.glb.homeTree := by
  unfold pinEvent
  split
  · rfl
  · extract_lets s1; split <;> rfl
@[simp] theorem pinEvent_glb_homeUpl (i : Nat) (s : State) : (pinEvent i s).glb.homeUpl = s.glb.homeUpl := by
  unfold pinEvent
  split
  · rfl
  · extract_lets s1; split <;> rfl
@[simp] theorem pinEvent_glb_lostT (i : Nat) (s : State) : (pinEvent i s).glb.lostT = s.glb.lostT := by
  unfold pinEvent
  split
  · rfl
  · extract_lets s1; split <;> rfl
@[simp] theorem pinEvent_glb_lostU (i : Nat) (s : State) : (pinEvent i s).glb.lostU = s.glb.lostU := by
  unfold pinEvent
  split
  · rfl
  · extract_lets s1; split <;> rfl
@[simp] theorem pinEvent_glb_img (i : Nat) (s : State) : (pinEvent i s).glb.img = s.glb.img := by
  unfold pinEvent
  split
  · rfl
  · extract_lets s1; split <;> rfl
@[simp] theorem pinEvent_glb_applied (i : Nat) (s : State) : (pinEvent i s).glb.applied = s.glb.applied := by
  unfold pinEvent
  split
  · rfl
  · extract_lets s1; split <;> rfl
@[simp] theorem pinEvent_glb_imgTick (i : Nat) (s : State) : (pinEvent i s).glb.imgTick = s.glb.imgTick := by
  unfold pinEvent
  split
  · rfl
  · extract_lets s1; split <;> rfl
@[simp] theorem pinEvent_glb_pend (i : Nat) (s : State) : (pinEvent i s).glb.pend = s.glb.pend := by
  unfold pinEvent
  split
  · rfl
  · extract_lets s1; split <;> rfl
@[simp] theorem pinEvent_glb_wrejOfs (i : Nat) (s : State) : (pinEvent i s).glb.wrejOfs = s.glb.wrejOfs := by
  unfold pinEvent
  split
  · rfl
  · extract_lets s1; split <;> rfl
@[simp] theorem pinEvent_glb_wrejReason (i : Nat) (s : State) : (pinEvent i s).glb.wrejReason = s.glb.wrejReason := by
  unfold pinEvent
  split
  · rfl
  · extract_lets s1; split <;> rfl
@[simp] theorem pinEvent_glb_prtBad (i : Nat) (s : State) : (pinEvent i s).glb.prtBad = s.glb.prtBad := by
  unfold pinEvent
  split
  · rfl
  · extract_lets s1; split <;> rfl

end Sys2Proof.Machine
end

