-- ==== Sys2Proof/Laws/Clock.lean ====
section
/-!
SUPPORT. What the passing of cycles leaves alone: every unit but the time engine, the counters, the rings (whose tags the Milk Round
takes) and the fault sets.
-/

namespace Sys2Proof.Machine

-- one declaration at a time: the package is compiled as one text within a limit of memory
set_option Elab.async false

theorem foldl_keep {α β : Type} {g : State → α → State} {f : State → β} (h : ∀ s x, f (g s x) = f s) :
    ∀ (l : List α) (s : State), f (l.foldl g s) = f s
  | [], _ => rfl
  | x :: l, s => (foldl_keep h l (g s x)).trans (h s x)

theorem foldl_keep2 {α β γ : Type} {g : γ × State → α → γ × State} {f : State → β} (h : ∀ a x, f (g a x).2 = f a.2) :
    ∀ (l : List α) (a : γ × State), f (l.foldl g a).2 = f a.2
  | [], _ => rfl
  | x :: l, a => (foldl_keep2 h l (g a x)).trans (h a x)

theorem persistCount_regs (n : Nat) (s : State) : (persistCount n s).regs = s.regs :=
  foldl_keep (f := fun s => s.regs) (fun s e => by dsimp only; split <;> simp) _ s

theorem pauseCount_regs (n : Nat) (s : State) : (pauseCount n s).regs = s.regs :=
  foldl_keep (f := fun s => s.regs) (fun s e => (foldl_keep (f := fun s => s.regs) (fun s p => by simp) _ _).trans (by
    cases e.2.pause <;> simp)) _ s

theorem backCells_regs (n : Nat) (s : State) : (backCells n s).regs = s.regs :=
  foldl_keep (f := fun s => s.regs) (fun s k => by dsimp only; split <;> simp [laneMod]) _ s

theorem cycleCounts_regs (n : Nat) (s : State) : (cycleCounts n s).regs = s.regs :=
  (backCells_regs n _).trans ((pauseCount_regs n _).trans (persistCount_regs n s))

theorem passCounts_regs (n : Nat) (s : State) : (passCounts n s).regs = s.regs := by
  unfold passCounts
  extract_lets s1
  split
  · exact (cycleCounts_regs _ _).trans (cycleCounts_regs 1 s)
  · exact cycleCounts_regs n s

theorem passRate_regs (n : Nat) (s : State) : (passRate n s).regs = s.regs := by
  unfold passRate
  extract_lets t s1
  have h1 : s1.regs = s.regs := passCounts_regs n s
  split
  · rfl
  · split <;> exact h1

theorem oldRate_regs {s o : State} (h : oldRate s = some o) : o.regs = s.regs := by
  unfold oldRate at h
  extract_lets inc slew at h
  split at h
  · cases h
  · cases h; rfl

@[simp] theorem passClk_regs (n : Nat) (s : State) : (passClk n s).regs = s.regs := by
  unfold passClk
  split
  · exact passRate_regs n s
  · next o h =>
    have ho : o.regs = s.regs := by
      split at h
      · cases h
      · exact oldRate_regs h
    extract_lets s1
    exact (passRate_regs _ _).trans ((passRate_regs 1 o).trans ho)

theorem mrNextGroup_regs {s u : State} (h : mrNextGroup s = some u) : u.regs = s.regs := by
  unfold mrNextGroup at h
  split at h
  · split at h
    · cases h
    · cases h; exact hostWrites_regs _ _
  · cases h

@[simp] theorem mrClose_regs (s : State) : (mrClose s).regs = s.regs := by
  unfold mrClose
  split
  · rfl
  · split <;> rfl

@[simp] theorem mrFlush_regs (n : Nat) (s : State) : (mrFlush n s).regs = s.regs := by
  induction n generalizing s with
  | zero => rfl
  | succ n ih =>
    rw [mrFlush]
    split
    · exact mrClose_regs s
    · next u h => exact (ih u).trans (mrNextGroup_regs h)

@[simp] theorem mrRead_regs (s : State) : (mrRead s).regs = s.regs := by
  unfold mrRead
  split
  · rfl
  · split
    · rfl
    · extract_lets e v s0 r1
      have h0 : s0.regs = s.regs := by
        show (if _ then _ else _ : State).regs = _
        split <;> rfl
      clear_value s0
      split
      · exact (mrFlush_regs _ _).trans h0
      · exact h0

@[simp] theorem advanceClk_regs (n : Nat) (s : State) : (advanceClk n s).regs = s.regs := by
  unfold advanceClk
  extract_lets left e
  have he : e.2.regs = s.regs := foldl_keep2 (f := fun s => s.regs) (fun a _ => by
    split <;> simp) _ (n, s)
  exact (passClk_regs _ _).trans he

theorem persistCount_glb (n : Nat) (s : State) : (persistCount n s).glb = s.glb :=
  foldl_keep (f := fun s => s.glb) (fun s e => by dsimp only; split <;> simp) _ s

theorem pauseCount_glb (n : Nat) (s : State) : (pauseCount n s).glb = s.glb :=
  foldl_keep (f := fun s => s.glb) (fun s e => (foldl_keep (f := fun s => s.glb) (fun s p => by simp) _ _).trans (by
    cases e.2.pause <;> simp)) _ s

theorem backCells_glb (n : Nat) (s : State) : (backCells n s).glb = s.glb :=
  foldl_keep (f := fun s => s.glb) (fun s k => by dsimp only; split <;> simp [laneMod]) _ s

theorem cycleCounts_glb (n : Nat) (s : State) : (cycleCounts n s).glb = s.glb :=
  (backCells_glb n _).trans ((pauseCount_glb n _).trans (persistCount_glb n s))

theorem passCounts_glb (n : Nat) (s : State) : (passCounts n s).glb = s.glb := by
  unfold passCounts
  extract_lets s1
  split
  · exact (cycleCounts_glb _ _).trans (cycleCounts_glb 1 s)
  · exact cycleCounts_glb n s

theorem passRate_glb (n : Nat) (s : State) : (passRate n s).glb = s.glb := by
  unfold passRate
  extract_lets t s1
  have h1 : s1.glb = s.glb := passCounts_glb n s
  split
  · rfl
  · split <;> exact h1

theorem oldRate_glb {s o : State} (h : oldRate s = some o) : o.glb = s.glb := by
  unfold oldRate at h
  extract_lets inc slew at h
  split at h
  · cases h
  · cases h; rfl

@[simp] theorem passClk_glb (n : Nat) (s : State) : (passClk n s).glb = s.glb := by
  unfold passClk
  split
  · exact passRate_glb n s
  · next o h =>
    have ho : o.glb = s.glb := by
      split at h
      · cases h
      · exact oldRate_glb h
    extract_lets s1
    exact (passRate_glb _ _).trans ((passRate_glb 1 o).trans ho)

theorem mrNextGroup_glb {s u : State} (h : mrNextGroup s = some u) : u.glb = s.glb := by
  unfold mrNextGroup at h
  split at h
  · split at h
    · cases h
    · cases h; exact hostWrites_glb _ _
  · cases h

@[simp] theorem mrClose_glb (s : State) : (mrClose s).glb = s.glb := by
  unfold mrClose
  split
  · rfl
  · split <;> rfl

@[simp] theorem mrFlush_glb (n : Nat) (s : State) : (mrFlush n s).glb = s.glb := by
  induction n generalizing s with
  | zero => rfl
  | succ n ih =>
    rw [mrFlush]
    split
    · exact mrClose_glb s
    · next u h => exact (ih u).trans (mrNextGroup_glb h)

@[simp] theorem mrRead_glb (s : State) : (mrRead s).glb = s.glb := by
  unfold mrRead
  split
  · rfl
  · split
    · rfl
    · extract_lets e v s0 r1
      have h0 : s0.glb = s.glb := by
        show (if _ then _ else _ : State).glb = _
        split <;> rfl
      clear_value s0
      split
      · exact (mrFlush_glb _ _).trans h0
      · exact h0

@[simp] theorem advanceClk_glb (n : Nat) (s : State) : (advanceClk n s).glb = s.glb := by
  unfold advanceClk
  extract_lets left e
  have he : e.2.glb = s.glb := foldl_keep2 (f := fun s => s.glb) (fun a _ => by
    split <;> simp) _ (n, s)
  exact (passClk_glb _ _).trans he

theorem persistCount_qbm (n : Nat) (s : State) : (persistCount n s).qbm = s.qbm :=
  foldl_keep (f := fun s => s.qbm) (fun s e => by dsimp only; split <;> simp) _ s

theorem pauseCount_qbm (n : Nat) (s : State) : (pauseCount n s).qbm = s.qbm :=
  foldl_keep (f := fun s => s.qbm) (fun s e => (foldl_keep (f := fun s => s.qbm) (fun s p => by simp) _ _).trans (by
    cases e.2.pause <;> simp)) _ s

theorem backCells_qbm (n : Nat) (s : State) : (backCells n s).qbm = s.qbm :=
  foldl_keep (f := fun s => s.qbm) (fun s k => by dsimp only; split <;> simp [laneMod]) _ s

theorem cycleCounts_qbm (n : Nat) (s : State) : (cycleCounts n s).qbm = s.qbm :=
  (backCells_qbm n _).trans ((pauseCount_qbm n _).trans (persistCount_qbm n s))

theorem passCounts_qbm (n : Nat) (s : State) : (passCounts n s).qbm = s.qbm := by
  unfold passCounts
  extract_lets s1
  split
  · exact (cycleCounts_qbm _ _).trans (cycleCounts_qbm 1 s)
  · exact cycleCounts_qbm n s

theorem passRate_qbm (n : Nat) (s : State) : (passRate n s).qbm = s.qbm := by
  unfold passRate
  extract_lets t s1
  have h1 : s1.qbm = s.qbm := passCounts_qbm n s
  split
  · rfl
  · split <;> exact h1

theorem oldRate_qbm {s o : State} (h : oldRate s = some o) : o.qbm = s.qbm := by
  unfold oldRate at h
  extract_lets inc slew at h
  split at h
  · cases h
  · cases h; rfl

@[simp] theorem passClk_qbm (n : Nat) (s : State) : (passClk n s).qbm = s.qbm := by
  unfold passClk
  split
  · exact passRate_qbm n s
  · next o h =>
    have ho : o.qbm = s.qbm := by
      split at h
      · cases h
      · exact oldRate_qbm h
    extract_lets s1
    exact (passRate_qbm _ _).trans ((passRate_qbm 1 o).trans ho)

theorem mrNextGroup_qbm {s u : State} (h : mrNextGroup s = some u) : u.qbm = s.qbm := by
  unfold mrNextGroup at h
  split at h
  · split at h
    · cases h
    · cases h; exact hostWrites_qbm _ _
  · cases h

@[simp] theorem mrClose_qbm (s : State) : (mrClose s).qbm = s.qbm := by
  unfold mrClose
  split
  · rfl
  · split <;> rfl

@[simp] theorem mrFlush_qbm (n : Nat) (s : State) : (mrFlush n s).qbm = s.qbm := by
  induction n generalizing s with
  | zero => rfl
  | succ n ih =>
    rw [mrFlush]
    split
    · exact mrClose_qbm s
    · next u h => exact (ih u).trans (mrNextGroup_qbm h)

@[simp] theorem mrRead_qbm (s : State) : (mrRead s).qbm = s.qbm := by
  unfold mrRead
  split
  · rfl
  · split
    · rfl
    · extract_lets e v s0 r1
      have h0 : s0.qbm = s.qbm := by
        show (if _ then _ else _ : State).qbm = _
        split <;> rfl
      clear_value s0
      split
      · exact (mrFlush_qbm _ _).trans h0
      · exact h0

@[simp] theorem advanceClk_qbm (n : Nat) (s : State) : (advanceClk n s).qbm = s.qbm := by
  unfold advanceClk
  extract_lets left e
  have he : e.2.qbm = s.qbm := foldl_keep2 (f := fun s => s.qbm) (fun a _ => by
    split <;> simp) _ (n, s)
  exact (passClk_qbm _ _).trans he

theorem persistCount_cls (n : Nat) (s : State) : (persistCount n s).cls = s.cls :=
  foldl_keep (f := fun s => s.cls) (fun s e => by dsimp only; split <;> simp) _ s

theorem pauseCount_cls (n : Nat) (s : State) : (pauseCount n s).cls = s.cls :=
  foldl_keep (f := fun s => s.cls) (fun s e => (foldl_keep (f := fun s => s.cls) (fun s p => by simp) _ _).trans (by
    cases e.2.pause <;> simp)) _ s

theorem backCells_cls (n : Nat) (s : State) : (backCells n s).cls = s.cls :=
  foldl_keep (f := fun s => s.cls) (fun s k => by dsimp only; split <;> simp [laneMod]) _ s

theorem cycleCounts_cls (n : Nat) (s : State) : (cycleCounts n s).cls = s.cls :=
  (backCells_cls n _).trans ((pauseCount_cls n _).trans (persistCount_cls n s))

theorem passCounts_cls (n : Nat) (s : State) : (passCounts n s).cls = s.cls := by
  unfold passCounts
  extract_lets s1
  split
  · exact (cycleCounts_cls _ _).trans (cycleCounts_cls 1 s)
  · exact cycleCounts_cls n s

theorem passRate_cls (n : Nat) (s : State) : (passRate n s).cls = s.cls := by
  unfold passRate
  extract_lets t s1
  have h1 : s1.cls = s.cls := passCounts_cls n s
  split
  · rfl
  · split <;> exact h1

theorem oldRate_cls {s o : State} (h : oldRate s = some o) : o.cls = s.cls := by
  unfold oldRate at h
  extract_lets inc slew at h
  split at h
  · cases h
  · cases h; rfl

@[simp] theorem passClk_cls (n : Nat) (s : State) : (passClk n s).cls = s.cls := by
  unfold passClk
  split
  · exact passRate_cls n s
  · next o h =>
    have ho : o.cls = s.cls := by
      split at h
      · cases h
      · exact oldRate_cls h
    extract_lets s1
    exact (passRate_cls _ _).trans ((passRate_cls 1 o).trans ho)

theorem mrNextGroup_cls {s u : State} (h : mrNextGroup s = some u) : u.cls = s.cls := by
  unfold mrNextGroup at h
  split at h
  · split at h
    · cases h
    · cases h; exact hostWrites_cls _ _
  · cases h

@[simp] theorem mrClose_cls (s : State) : (mrClose s).cls = s.cls := by
  unfold mrClose
  split
  · rfl
  · split <;> rfl

@[simp] theorem mrFlush_cls (n : Nat) (s : State) : (mrFlush n s).cls = s.cls := by
  induction n generalizing s with
  | zero => rfl
  | succ n ih =>
    rw [mrFlush]
    split
    · exact mrClose_cls s
    · next u h => exact (ih u).trans (mrNextGroup_cls h)

@[simp] theorem mrRead_cls (s : State) : (mrRead s).cls = s.cls := by
  unfold mrRead
  split
  · rfl
  · split
    · rfl
    · extract_lets e v s0 r1
      have h0 : s0.cls = s.cls := by
        show (if _ then _ else _ : State).cls = _
        split <;> rfl
      clear_value s0
      split
      · exact (mrFlush_cls _ _).trans h0
      · exact h0

@[simp] theorem advanceClk_cls (n : Nat) (s : State) : (advanceClk n s).cls = s.cls := by
  unfold advanceClk
  extract_lets left e
  have he : e.2.cls = s.cls := foldl_keep2 (f := fun s => s.cls) (fun a _ => by
    split <;> simp) _ (n, s)
  exact (passClk_cls _ _).trans he

theorem persistCount_tre (n : Nat) (s : State) : (persistCount n s).tre = s.tre :=
  foldl_keep (f := fun s => s.tre) (fun s e => by dsimp only; split <;> simp) _ s

theorem pauseCount_tre (n : Nat) (s : State) : (pauseCount n s).tre = s.tre :=
  foldl_keep (f := fun s => s.tre) (fun s e => (foldl_keep (f := fun s => s.tre) (fun s p => by simp) _ _).trans (by
    cases e.2.pause <;> simp)) _ s

theorem backCells_tre (n : Nat) (s : State) : (backCells n s).tre = s.tre :=
  foldl_keep (f := fun s => s.tre) (fun s k => by dsimp only; split <;> simp [laneMod]) _ s

theorem cycleCounts_tre (n : Nat) (s : State) : (cycleCounts n s).tre = s.tre :=
  (backCells_tre n _).trans ((pauseCount_tre n _).trans (persistCount_tre n s))

theorem passCounts_tre (n : Nat) (s : State) : (passCounts n s).tre = s.tre := by
  unfold passCounts
  extract_lets s1
  split
  · exact (cycleCounts_tre _ _).trans (cycleCounts_tre 1 s)
  · exact cycleCounts_tre n s

theorem passRate_tre (n : Nat) (s : State) : (passRate n s).tre = s.tre := by
  unfold passRate
  extract_lets t s1
  have h1 : s1.tre = s.tre := passCounts_tre n s
  split
  · rfl
  · split <;> exact h1

theorem oldRate_tre {s o : State} (h : oldRate s = some o) : o.tre = s.tre := by
  unfold oldRate at h
  extract_lets inc slew at h
  split at h
  · cases h
  · cases h; rfl

@[simp] theorem passClk_tre (n : Nat) (s : State) : (passClk n s).tre = s.tre := by
  unfold passClk
  split
  · exact passRate_tre n s
  · next o h =>
    have ho : o.tre = s.tre := by
      split at h
      · cases h
      · exact oldRate_tre h
    extract_lets s1
    exact (passRate_tre _ _).trans ((passRate_tre 1 o).trans ho)

theorem mrNextGroup_tre {s u : State} (h : mrNextGroup s = some u) : u.tre = s.tre := by
  unfold mrNextGroup at h
  split at h
  · split at h
    · cases h
    · cases h; exact hostWrites_tre _ _
  · cases h

@[simp] theorem mrClose_tre (s : State) : (mrClose s).tre = s.tre := by
  unfold mrClose
  split
  · rfl
  · split <;> rfl

@[simp] theorem mrFlush_tre (n : Nat) (s : State) : (mrFlush n s).tre = s.tre := by
  induction n generalizing s with
  | zero => rfl
  | succ n ih =>
    rw [mrFlush]
    split
    · exact mrClose_tre s
    · next u h => exact (ih u).trans (mrNextGroup_tre h)

@[simp] theorem mrRead_tre (s : State) : (mrRead s).tre = s.tre := by
  unfold mrRead
  split
  · rfl
  · split
    · rfl
    · extract_lets e v s0 r1
      have h0 : s0.tre = s.tre := by
        show (if _ then _ else _ : State).tre = _
        split <;> rfl
      clear_value s0
      split
      · exact (mrFlush_tre _ _).trans h0
      · exact h0

@[simp] theorem advanceClk_tre (n : Nat) (s : State) : (advanceClk n s).tre = s.tre := by
  unfold advanceClk
  extract_lets left e
  have he : e.2.tre = s.tre := foldl_keep2 (f := fun s => s.tre) (fun a _ => by
    split <;> simp) _ (n, s)
  exact (passClk_tre _ _).trans he

theorem persistCount_chn (n : Nat) (s : State) : (persistCount n s).chn = s.chn :=
  foldl_keep (f := fun s => s.chn) (fun s e => by dsimp only; split <;> simp) _ s

theorem pauseCount_chn (n : Nat) (s : State) : (pauseCount n s).chn = s.chn :=
  foldl_keep (f := fun s => s.chn) (fun s e => (foldl_keep (f := fun s => s.chn) (fun s p => by simp) _ _).trans (by
    cases e.2.pause <;> simp)) _ s

theorem backCells_chn (n : Nat) (s : State) : (backCells n s).chn = s.chn :=
  foldl_keep (f := fun s => s.chn) (fun s k => by dsimp only; split <;> simp [laneMod]) _ s

theorem cycleCounts_chn (n : Nat) (s : State) : (cycleCounts n s).chn = s.chn :=
  (backCells_chn n _).trans ((pauseCount_chn n _).trans (persistCount_chn n s))

theorem passCounts_chn (n : Nat) (s : State) : (passCounts n s).chn = s.chn := by
  unfold passCounts
  extract_lets s1
  split
  · exact (cycleCounts_chn _ _).trans (cycleCounts_chn 1 s)
  · exact cycleCounts_chn n s

theorem passRate_chn (n : Nat) (s : State) : (passRate n s).chn = s.chn := by
  unfold passRate
  extract_lets t s1
  have h1 : s1.chn = s.chn := passCounts_chn n s
  split
  · rfl
  · split <;> exact h1

theorem oldRate_chn {s o : State} (h : oldRate s = some o) : o.chn = s.chn := by
  unfold oldRate at h
  extract_lets inc slew at h
  split at h
  · cases h
  · cases h; rfl

@[simp] theorem passClk_chn (n : Nat) (s : State) : (passClk n s).chn = s.chn := by
  unfold passClk
  split
  · exact passRate_chn n s
  · next o h =>
    have ho : o.chn = s.chn := by
      split at h
      · cases h
      · exact oldRate_chn h
    extract_lets s1
    exact (passRate_chn _ _).trans ((passRate_chn 1 o).trans ho)

theorem mrNextGroup_chn {s u : State} (h : mrNextGroup s = some u) : u.chn = s.chn := by
  unfold mrNextGroup at h
  split at h
  · split at h
    · cases h
    · cases h; exact hostWrites_chn _ _
  · cases h

@[simp] theorem mrClose_chn (s : State) : (mrClose s).chn = s.chn := by
  unfold mrClose
  split
  · rfl
  · split <;> rfl

@[simp] theorem mrFlush_chn (n : Nat) (s : State) : (mrFlush n s).chn = s.chn := by
  induction n generalizing s with
  | zero => rfl
  | succ n ih =>
    rw [mrFlush]
    split
    · exact mrClose_chn s
    · next u h => exact (ih u).trans (mrNextGroup_chn h)

@[simp] theorem mrRead_chn (s : State) : (mrRead s).chn = s.chn := by
  unfold mrRead
  split
  · rfl
  · split
    · rfl
    · extract_lets e v s0 r1
      have h0 : s0.chn = s.chn := by
        show (if _ then _ else _ : State).chn = _
        split <;> rfl
      clear_value s0
      split
      · exact (mrFlush_chn _ _).trans h0
      · exact h0

@[simp] theorem advanceClk_chn (n : Nat) (s : State) : (advanceClk n s).chn = s.chn := by
  unfold advanceClk
  extract_lets left e
  have he : e.2.chn = s.chn := foldl_keep2 (f := fun s => s.chn) (fun a _ => by
    split <;> simp) _ (n, s)
  exact (passClk_chn _ _).trans he

theorem persistCount_upl (n : Nat) (s : State) : (persistCount n s).upl = s.upl :=
  foldl_keep (f := fun s => s.upl) (fun s e => by dsimp only; split <;> simp) _ s

theorem pauseCount_upl (n : Nat) (s : State) : (pauseCount n s).upl = s.upl :=
  foldl_keep (f := fun s => s.upl) (fun s e => (foldl_keep (f := fun s => s.upl) (fun s p => by simp) _ _).trans (by
    cases e.2.pause <;> simp)) _ s

theorem backCells_upl (n : Nat) (s : State) : (backCells n s).upl = s.upl :=
  foldl_keep (f := fun s => s.upl) (fun s k => by dsimp only; split <;> simp [laneMod]) _ s

theorem cycleCounts_upl (n : Nat) (s : State) : (cycleCounts n s).upl = s.upl :=
  (backCells_upl n _).trans ((pauseCount_upl n _).trans (persistCount_upl n s))

theorem passCounts_upl (n : Nat) (s : State) : (passCounts n s).upl = s.upl := by
  unfold passCounts
  extract_lets s1
  split
  · exact (cycleCounts_upl _ _).trans (cycleCounts_upl 1 s)
  · exact cycleCounts_upl n s

theorem passRate_upl (n : Nat) (s : State) : (passRate n s).upl = s.upl := by
  unfold passRate
  extract_lets t s1
  have h1 : s1.upl = s.upl := passCounts_upl n s
  split
  · rfl
  · split <;> exact h1

theorem oldRate_upl {s o : State} (h : oldRate s = some o) : o.upl = s.upl := by
  unfold oldRate at h
  extract_lets inc slew at h
  split at h
  · cases h
  · cases h; rfl

@[simp] theorem passClk_upl (n : Nat) (s : State) : (passClk n s).upl = s.upl := by
  unfold passClk
  split
  · exact passRate_upl n s
  · next o h =>
    have ho : o.upl = s.upl := by
      split at h
      · cases h
      · exact oldRate_upl h
    extract_lets s1
    exact (passRate_upl _ _).trans ((passRate_upl 1 o).trans ho)

theorem mrNextGroup_upl {s u : State} (h : mrNextGroup s = some u) : u.upl = s.upl := by
  unfold mrNextGroup at h
  split at h
  · split at h
    · cases h
    · cases h; exact hostWrites_upl _ _
  · cases h

@[simp] theorem mrClose_upl (s : State) : (mrClose s).upl = s.upl := by
  unfold mrClose
  split
  · rfl
  · split <;> rfl

@[simp] theorem mrFlush_upl (n : Nat) (s : State) : (mrFlush n s).upl = s.upl := by
  induction n generalizing s with
  | zero => rfl
  | succ n ih =>
    rw [mrFlush]
    split
    · exact mrClose_upl s
    · next u h => exact (ih u).trans (mrNextGroup_upl h)

@[simp] theorem mrRead_upl (s : State) : (mrRead s).upl = s.upl := by
  unfold mrRead
  split
  · rfl
  · split
    · rfl
    · extract_lets e v s0 r1
      have h0 : s0.upl = s.upl := by
        show (if _ then _ else _ : State).upl = _
        split <;> rfl
      clear_value s0
      split
      · exact (mrFlush_upl _ _).trans h0
      · exact h0

@[simp] theorem advanceClk_upl (n : Nat) (s : State) : (advanceClk n s).upl = s.upl := by
  unfold advanceClk
  extract_lets left e
  have he : e.2.upl = s.upl := foldl_keep2 (f := fun s => s.upl) (fun a _ => by
    split <;> simp) _ (n, s)
  exact (passClk_upl _ _).trans he

theorem persistCount_cpe (n : Nat) (s : State) : (persistCount n s).cpe = s.cpe :=
  foldl_keep (f := fun s => s.cpe) (fun s e => by dsimp only; split <;> simp) _ s

theorem pauseCount_cpe (n : Nat) (s : State) : (pauseCount n s).cpe = s.cpe :=
  foldl_keep (f := fun s => s.cpe) (fun s e => (foldl_keep (f := fun s => s.cpe) (fun s p => by simp) _ _).trans (by
    cases e.2.pause <;> simp)) _ s

theorem backCells_cpe (n : Nat) (s : State) : (backCells n s).cpe = s.cpe :=
  foldl_keep (f := fun s => s.cpe) (fun s k => by dsimp only; split <;> simp [laneMod]) _ s

theorem cycleCounts_cpe (n : Nat) (s : State) : (cycleCounts n s).cpe = s.cpe :=
  (backCells_cpe n _).trans ((pauseCount_cpe n _).trans (persistCount_cpe n s))

theorem passCounts_cpe (n : Nat) (s : State) : (passCounts n s).cpe = s.cpe := by
  unfold passCounts
  extract_lets s1
  split
  · exact (cycleCounts_cpe _ _).trans (cycleCounts_cpe 1 s)
  · exact cycleCounts_cpe n s

theorem passRate_cpe (n : Nat) (s : State) : (passRate n s).cpe = s.cpe := by
  unfold passRate
  extract_lets t s1
  have h1 : s1.cpe = s.cpe := passCounts_cpe n s
  split
  · rfl
  · split <;> exact h1

theorem oldRate_cpe {s o : State} (h : oldRate s = some o) : o.cpe = s.cpe := by
  unfold oldRate at h
  extract_lets inc slew at h
  split at h
  · cases h
  · cases h; rfl

@[simp] theorem passClk_cpe (n : Nat) (s : State) : (passClk n s).cpe = s.cpe := by
  unfold passClk
  split
  · exact passRate_cpe n s
  · next o h =>
    have ho : o.cpe = s.cpe := by
      split at h
      · cases h
      · exact oldRate_cpe h
    extract_lets s1
    exact (passRate_cpe _ _).trans ((passRate_cpe 1 o).trans ho)

theorem mrNextGroup_cpe {s u : State} (h : mrNextGroup s = some u) : u.cpe = s.cpe := by
  unfold mrNextGroup at h
  split at h
  · split at h
    · cases h
    · cases h; exact hostWrites_cpe _ _
  · cases h

@[simp] theorem mrClose_cpe (s : State) : (mrClose s).cpe = s.cpe := by
  unfold mrClose
  split
  · rfl
  · split <;> rfl

@[simp] theorem mrFlush_cpe (n : Nat) (s : State) : (mrFlush n s).cpe = s.cpe := by
  induction n generalizing s with
  | zero => rfl
  | succ n ih =>
    rw [mrFlush]
    split
    · exact mrClose_cpe s
    · next u h => exact (ih u).trans (mrNextGroup_cpe h)

@[simp] theorem mrRead_cpe (s : State) : (mrRead s).cpe = s.cpe := by
  unfold mrRead
  split
  · rfl
  · split
    · rfl
    · extract_lets e v s0 r1
      have h0 : s0.cpe = s.cpe := by
        show (if _ then _ else _ : State).cpe = _
        split <;> rfl
      clear_value s0
      split
      · exact (mrFlush_cpe _ _).trans h0
      · exact h0

@[simp] theorem advanceClk_cpe (n : Nat) (s : State) : (advanceClk n s).cpe = s.cpe := by
  unfold advanceClk
  extract_lets left e
  have he : e.2.cpe = s.cpe := foldl_keep2 (f := fun s => s.cpe) (fun a _ => by
    split <;> simp) _ (n, s)
  exact (passClk_cpe _ _).trans he

theorem persistCount_skm (n : Nat) (s : State) : (persistCount n s).skm = s.skm :=
  foldl_keep (f := fun s => s.skm) (fun s e => by dsimp only; split <;> simp) _ s

theorem pauseCount_skm (n : Nat) (s : State) : (pauseCount n s).skm = s.skm :=
  foldl_keep (f := fun s => s.skm) (fun s e => (foldl_keep (f := fun s => s.skm) (fun s p => by simp) _ _).trans (by
    cases e.2.pause <;> simp)) _ s

theorem backCells_skm (n : Nat) (s : State) : (backCells n s).skm = s.skm :=
  foldl_keep (f := fun s => s.skm) (fun s k => by dsimp only; split <;> simp [laneMod]) _ s

theorem cycleCounts_skm (n : Nat) (s : State) : (cycleCounts n s).skm = s.skm :=
  (backCells_skm n _).trans ((pauseCount_skm n _).trans (persistCount_skm n s))

theorem passCounts_skm (n : Nat) (s : State) : (passCounts n s).skm = s.skm := by
  unfold passCounts
  extract_lets s1
  split
  · exact (cycleCounts_skm _ _).trans (cycleCounts_skm 1 s)
  · exact cycleCounts_skm n s

theorem passRate_skm (n : Nat) (s : State) : (passRate n s).skm = s.skm := by
  unfold passRate
  extract_lets t s1
  have h1 : s1.skm = s.skm := passCounts_skm n s
  split
  · rfl
  · split <;> exact h1

theorem oldRate_skm {s o : State} (h : oldRate s = some o) : o.skm = s.skm := by
  unfold oldRate at h
  extract_lets inc slew at h
  split at h
  · cases h
  · cases h; rfl

@[simp] theorem passClk_skm (n : Nat) (s : State) : (passClk n s).skm = s.skm := by
  unfold passClk
  split
  · exact passRate_skm n s
  · next o h =>
    have ho : o.skm = s.skm := by
      split at h
      · cases h
      · exact oldRate_skm h
    extract_lets s1
    exact (passRate_skm _ _).trans ((passRate_skm 1 o).trans ho)

theorem mrNextGroup_skm {s u : State} (h : mrNextGroup s = some u) : u.skm = s.skm := by
  unfold mrNextGroup at h
  split at h
  · split at h
    · cases h
    · cases h; exact hostWrites_skm _ _
  · cases h

@[simp] theorem mrClose_skm (s : State) : (mrClose s).skm = s.skm := by
  unfold mrClose
  split
  · rfl
  · split <;> rfl

@[simp] theorem mrFlush_skm (n : Nat) (s : State) : (mrFlush n s).skm = s.skm := by
  induction n generalizing s with
  | zero => rfl
  | succ n ih =>
    rw [mrFlush]
    split
    · exact mrClose_skm s
    · next u h => exact (ih u).trans (mrNextGroup_skm h)

@[simp] theorem mrRead_skm (s : State) : (mrRead s).skm = s.skm := by
  unfold mrRead
  split
  · rfl
  · split
    · rfl
    · extract_lets e v s0 r1
      have h0 : s0.skm = s.skm := by
        show (if _ then _ else _ : State).skm = _
        split <;> rfl
      clear_value s0
      split
      · exact (mrFlush_skm _ _).trans h0
      · exact h0

@[simp] theorem advanceClk_skm (n : Nat) (s : State) : (advanceClk n s).skm = s.skm := by
  unfold advanceClk
  extract_lets left e
  have he : e.2.skm = s.skm := foldl_keep2 (f := fun s => s.skm) (fun a _ => by
    split <;> simp) _ (n, s)
  exact (passClk_skm _ _).trans he

theorem persistCount_pwr (n : Nat) (s : State) : (persistCount n s).pwr = s.pwr :=
  foldl_keep (f := fun s => s.pwr) (fun s e => by dsimp only; split <;> simp) _ s

theorem pauseCount_pwr (n : Nat) (s : State) : (pauseCount n s).pwr = s.pwr :=
  foldl_keep (f := fun s => s.pwr) (fun s e => (foldl_keep (f := fun s => s.pwr) (fun s p => by simp) _ _).trans (by
    cases e.2.pause <;> simp)) _ s

theorem backCells_pwr (n : Nat) (s : State) : (backCells n s).pwr = s.pwr :=
  foldl_keep (f := fun s => s.pwr) (fun s k => by dsimp only; split <;> simp [laneMod]) _ s

theorem cycleCounts_pwr (n : Nat) (s : State) : (cycleCounts n s).pwr = s.pwr :=
  (backCells_pwr n _).trans ((pauseCount_pwr n _).trans (persistCount_pwr n s))

theorem passCounts_pwr (n : Nat) (s : State) : (passCounts n s).pwr = s.pwr := by
  unfold passCounts
  extract_lets s1
  split
  · exact (cycleCounts_pwr _ _).trans (cycleCounts_pwr 1 s)
  · exact cycleCounts_pwr n s

theorem passRate_pwr (n : Nat) (s : State) : (passRate n s).pwr = s.pwr := by
  unfold passRate
  extract_lets t s1
  have h1 : s1.pwr = s.pwr := passCounts_pwr n s
  split
  · rfl
  · split <;> exact h1

theorem oldRate_pwr {s o : State} (h : oldRate s = some o) : o.pwr = s.pwr := by
  unfold oldRate at h
  extract_lets inc slew at h
  split at h
  · cases h
  · cases h; rfl

@[simp] theorem passClk_pwr (n : Nat) (s : State) : (passClk n s).pwr = s.pwr := by
  unfold passClk
  split
  · exact passRate_pwr n s
  · next o h =>
    have ho : o.pwr = s.pwr := by
      split at h
      · cases h
      · exact oldRate_pwr h
    extract_lets s1
    exact (passRate_pwr _ _).trans ((passRate_pwr 1 o).trans ho)

theorem mrNextGroup_pwr {s u : State} (h : mrNextGroup s = some u) : u.pwr = s.pwr := by
  unfold mrNextGroup at h
  split at h
  · split at h
    · cases h
    · cases h; exact hostWrites_pwr _ _
  · cases h

@[simp] theorem mrClose_pwr (s : State) : (mrClose s).pwr = s.pwr := by
  unfold mrClose
  split
  · rfl
  · split <;> rfl

@[simp] theorem mrFlush_pwr (n : Nat) (s : State) : (mrFlush n s).pwr = s.pwr := by
  induction n generalizing s with
  | zero => rfl
  | succ n ih =>
    rw [mrFlush]
    split
    · exact mrClose_pwr s
    · next u h => exact (ih u).trans (mrNextGroup_pwr h)

@[simp] theorem mrRead_pwr (s : State) : (mrRead s).pwr = s.pwr := by
  unfold mrRead
  split
  · rfl
  · split
    · rfl
    · extract_lets e v s0 r1
      have h0 : s0.pwr = s.pwr := by
        show (if _ then _ else _ : State).pwr = _
        split <;> rfl
      clear_value s0
      split
      · exact (mrFlush_pwr _ _).trans h0
      · exact h0

@[simp] theorem advanceClk_pwr (n : Nat) (s : State) : (advanceClk n s).pwr = s.pwr := by
  unfold advanceClk
  extract_lets left e
  have he : e.2.pwr = s.pwr := foldl_keep2 (f := fun s => s.pwr) (fun a _ => by
    split <;> simp) _ (n, s)
  exact (passClk_pwr _ _).trans he

theorem persistCount_tst (n : Nat) (s : State) : (persistCount n s).tst = s.tst :=
  foldl_keep (f := fun s => s.tst) (fun s e => by dsimp only; split <;> simp) _ s

theorem pauseCount_tst (n : Nat) (s : State) : (pauseCount n s).tst = s.tst :=
  foldl_keep (f := fun s => s.tst) (fun s e => (foldl_keep (f := fun s => s.tst) (fun s p => by simp) _ _).trans (by
    cases e.2.pause <;> simp)) _ s

theorem backCells_tst (n : Nat) (s : State) : (backCells n s).tst = s.tst :=
  foldl_keep (f := fun s => s.tst) (fun s k => by dsimp only; split <;> simp [laneMod]) _ s

theorem cycleCounts_tst (n : Nat) (s : State) : (cycleCounts n s).tst = s.tst :=
  (backCells_tst n _).trans ((pauseCount_tst n _).trans (persistCount_tst n s))

theorem passCounts_tst (n : Nat) (s : State) : (passCounts n s).tst = s.tst := by
  unfold passCounts
  extract_lets s1
  split
  · exact (cycleCounts_tst _ _).trans (cycleCounts_tst 1 s)
  · exact cycleCounts_tst n s

theorem passRate_tst (n : Nat) (s : State) : (passRate n s).tst = s.tst := by
  unfold passRate
  extract_lets t s1
  have h1 : s1.tst = s.tst := passCounts_tst n s
  split
  · rfl
  · split <;> exact h1

theorem oldRate_tst {s o : State} (h : oldRate s = some o) : o.tst = s.tst := by
  unfold oldRate at h
  extract_lets inc slew at h
  split at h
  · cases h
  · cases h; rfl

@[simp] theorem passClk_tst (n : Nat) (s : State) : (passClk n s).tst = s.tst := by
  unfold passClk
  split
  · exact passRate_tst n s
  · next o h =>
    have ho : o.tst = s.tst := by
      split at h
      · cases h
      · exact oldRate_tst h
    extract_lets s1
    exact (passRate_tst _ _).trans ((passRate_tst 1 o).trans ho)

theorem mrNextGroup_tst {s u : State} (h : mrNextGroup s = some u) : u.tst = s.tst := by
  unfold mrNextGroup at h
  split at h
  · split at h
    · cases h
    · cases h; exact hostWrites_tst _ _
  · cases h

@[simp] theorem mrClose_tst (s : State) : (mrClose s).tst = s.tst := by
  unfold mrClose
  split
  · rfl
  · split <;> rfl

@[simp] theorem mrFlush_tst (n : Nat) (s : State) : (mrFlush n s).tst = s.tst := by
  induction n generalizing s with
  | zero => rfl
  | succ n ih =>
    rw [mrFlush]
    split
    · exact mrClose_tst s
    · next u h => exact (ih u).trans (mrNextGroup_tst h)

@[simp] theorem mrRead_tst (s : State) : (mrRead s).tst = s.tst := by
  unfold mrRead
  split
  · rfl
  · split
    · rfl
    · extract_lets e v s0 r1
      have h0 : s0.tst = s.tst := by
        show (if _ then _ else _ : State).tst = _
        split <;> rfl
      clear_value s0
      split
      · exact (mrFlush_tst _ _).trans h0
      · exact h0

@[simp] theorem advanceClk_tst (n : Nat) (s : State) : (advanceClk n s).tst = s.tst := by
  unfold advanceClk
  extract_lets left e
  have he : e.2.tst = s.tst := foldl_keep2 (f := fun s => s.tst) (fun a _ => by
    split <;> simp) _ (n, s)
  exact (passClk_tst _ _).trans he

theorem persistCount_pending (n : Nat) (s : State) : (persistCount n s).pending = s.pending :=
  foldl_keep (f := fun s => s.pending) (fun s e => by dsimp only; split <;> simp) _ s

theorem pauseCount_pending (n : Nat) (s : State) : (pauseCount n s).pending = s.pending :=
  foldl_keep (f := fun s => s.pending) (fun s e => (foldl_keep (f := fun s => s.pending) (fun s p => by simp) _ _).trans (by
    cases e.2.pause <;> simp)) _ s

theorem backCells_pending (n : Nat) (s : State) : (backCells n s).pending = s.pending :=
  foldl_keep (f := fun s => s.pending) (fun s k => by dsimp only; split <;> simp [laneMod]) _ s

theorem cycleCounts_pending (n : Nat) (s : State) : (cycleCounts n s).pending = s.pending :=
  (backCells_pending n _).trans ((pauseCount_pending n _).trans (persistCount_pending n s))

theorem passCounts_pending (n : Nat) (s : State) : (passCounts n s).pending = s.pending := by
  unfold passCounts
  extract_lets s1
  split
  · exact (cycleCounts_pending _ _).trans (cycleCounts_pending 1 s)
  · exact cycleCounts_pending n s

theorem passRate_pending (n : Nat) (s : State) : (passRate n s).pending = s.pending := by
  unfold passRate
  extract_lets t s1
  have h1 : s1.pending = s.pending := passCounts_pending n s
  split
  · rfl
  · split <;> exact h1

theorem oldRate_pending {s o : State} (h : oldRate s = some o) : o.pending = s.pending := by
  unfold oldRate at h
  extract_lets inc slew at h
  split at h
  · cases h
  · cases h; rfl

@[simp] theorem passClk_pending (n : Nat) (s : State) : (passClk n s).pending = s.pending := by
  unfold passClk
  split
  · exact passRate_pending n s
  · next o h =>
    have ho : o.pending = s.pending := by
      split at h
      · cases h
      · exact oldRate_pending h
    extract_lets s1
    exact (passRate_pending _ _).trans ((passRate_pending 1 o).trans ho)

theorem mrNextGroup_pending {s u : State} (h : mrNextGroup s = some u) : u.pending = s.pending := by
  unfold mrNextGroup at h
  split at h
  · split at h
    · cases h
    · cases h; exact hostWrites_pending _ _
  · cases h

@[simp] theorem mrClose_pending (s : State) : (mrClose s).pending = s.pending := by
  unfold mrClose
  split
  · rfl
  · split <;> rfl

@[simp] theorem mrFlush_pending (n : Nat) (s : State) : (mrFlush n s).pending = s.pending := by
  induction n generalizing s with
  | zero => rfl
  | succ n ih =>
    rw [mrFlush]
    split
    · exact mrClose_pending s
    · next u h => exact (ih u).trans (mrNextGroup_pending h)

@[simp] theorem mrRead_pending (s : State) : (mrRead s).pending = s.pending := by
  unfold mrRead
  split
  · rfl
  · split
    · rfl
    · extract_lets e v s0 r1
      have h0 : s0.pending = s.pending := by
        show (if _ then _ else _ : State).pending = _
        split <;> rfl
      clear_value s0
      split
      · exact (mrFlush_pending _ _).trans h0
      · exact h0

@[simp] theorem advanceClk_pending (n : Nat) (s : State) : (advanceClk n s).pending = s.pending := by
  unfold advanceClk
  extract_lets left e
  have he : e.2.pending = s.pending := foldl_keep2 (f := fun s => s.pending) (fun a _ => by
    split <;> simp) _ (n, s)
  exact (passClk_pending _ _).trans he

/-- Waiting for a cycle that has come does nothing. -/
theorem waitUntil_past {c : Nat} {s : State} (h : c ≤ s.tim.now) : waitUntil c s = s := if_pos h

/-- Nothing is moved to a cycle of the tick that has passed. -/
theorem syncTo_past {c : Nat} {s : State} (h : c ≤ cyc s) : syncTo c s = s := if_neg fun k => Nat.not_lt.mpr h k.2.1

end Sys2Proof.Machine
end

