-- ==== Sys2Proof/Laws/Good.lean ====
section
/-!
SUPPORT. What every operation of the block keeps: the queue of waiting commands, legal registers, and a beat within its tick. `Good pq s`
says that `s` has them, with `pq` the queue. One lemma for each kind of update; the files Laws/Good<Unit>.lean say it of each operation.
-/

namespace Sys2Proof.Machine

-- one declaration at a time: the package is compiled as one text within a limit of memory
set_option Elab.async false

/-- What a law fixes of a state: its queue and, where one is given, its tick, its beat and whether the time engine has started. -/
structure Ghost where
  queue : List Instr
  clk : Option (Nat × Nat × Bool)

/-- The same queue, at any tick. -/
abbrev Ghost.free (g : Ghost) : Ghost := ⟨g.queue, none⟩

/-- The queue and the clock are as `pq` says, the registers are legal, and the beat lies within its tick. -/
structure Good (pq : Ghost) (s : State) : Prop where
  pending : s.pending = pq.queue
  regs : RegsOk s.regs
  beat : s.tim.beat < 10
  clk : ∀ x, pq.clk = some x → (s.tim.tick, s.tim.beat, s.tim.started) = x

/-- What holds at a given tick holds at any. -/
theorem Good.weaken {pq : Ghost} {s : State} (h : Good pq s) : Good pq.free s := ⟨h.pending, h.regs, h.beat, nofun⟩

variable {pq : Ghost} {s : State}

/-- An update that leaves the registers, the time engine and the queue alone. -/
theorem Good.upd {glb : Glb} {flt : Tab FaultSet} {qbm : Qbm} {cls : Cls} {tre : Tab Tre} {chn : Tab Chn} {upl : Tab Upl} {cpe : Cpe} {hrd : Hrd} {skm : Skm} {pwr : Pwr} {cnt : Cnt} {tst : Tst} {fresh : Nat} {out : List Out}
    (h : Good pq s) : Good pq ⟨s.regs, glb, flt, s.tim, qbm, cls, tre, chn, upl, cpe, hrd, skm, pwr, cnt, tst, fresh, out, s.pending⟩ := ⟨h.pending, h.regs, h.beat, h.clk⟩

/-- An update of the time engine that keeps tick, beat and start. -/
theorem Good.updTim {tim : Tim} {glb : Glb} {flt : Tab FaultSet} {qbm : Qbm} {cls : Cls} {tre : Tab Tre} {chn : Tab Chn} {upl : Tab Upl} {cpe : Cpe} {hrd : Hrd} {skm : Skm} {pwr : Pwr} {cnt : Cnt} {tst : Tst} {fresh : Nat} {out : List Out}
    (h : Good pq s) (hb : (tim.tick, tim.beat, tim.started) = (s.tim.tick, s.tim.beat, s.tim.started)) : Good pq ⟨s.regs, glb, flt, tim, qbm, cls, tre, chn, upl, cpe, hrd, skm, pwr, cnt, tst, fresh, out, s.pending⟩ := ⟨h.pending, h.regs, by show tim.beat < 10; have := h.beat; have := congrArg (·.2.1) hb; simp only at this; omega, fun x hx => hb.trans (h.clk x hx)⟩

/-- An update of the time engine that starts a tick. -/
theorem Good.updTim0 {tim : Tim} {glb : Glb} {flt : Tab FaultSet} {qbm : Qbm} {cls : Cls} {tre : Tab Tre} {chn : Tab Chn} {upl : Tab Upl} {cpe : Cpe} {hrd : Hrd} {skm : Skm} {pwr : Pwr} {cnt : Cnt} {tst : Tst} {fresh : Nat} {out : List Out}
    (h : Good pq.free s) (hb : tim.beat = 0) : Good pq.free ⟨s.regs, glb, flt, tim, qbm, cls, tre, chn, upl, cpe, hrd, skm, pwr, cnt, tst, fresh, out, s.pending⟩ := ⟨h.pending, h.regs, by rw [hb]; decide, nofun⟩

/-- An update of the registers that keeps their values and what waits for them. -/
theorem Good.updRegs {regs : Regs} {tim : Tim} {glb : Glb} {flt : Tab FaultSet} {qbm : Qbm} {cls : Cls} {tre : Tab Tre} {chn : Tab Chn} {upl : Tab Upl} {cpe : Cpe} {hrd : Hrd} {skm : Skm} {pwr : Pwr} {cnt : Cnt} {tst : Tst} {fresh : Nat} {out : List Out}
    (h : Good pq s) (hv : regs.val = s.regs.val) (ht : regs.tickDef = s.regs.tickDef) (hc : regs.cutDef = s.regs.cutDef)
    (hb : (tim.tick, tim.beat, tim.started) = (s.tim.tick, s.tim.beat, s.tim.started)) : Good pq ⟨regs, glb, flt, tim, qbm, cls, tre, chn, upl, cpe, hrd, skm, pwr, cnt, tst, fresh, out, s.pending⟩ :=
  ⟨h.pending, ⟨hv ▸ h.regs.rising, hv ▸ h.regs.vals, by rw [ht, hc]; exact h.regs.defs⟩,
    by show tim.beat < 10; have := h.beat; have := congrArg (·.2.1) hb; simp only at this; omega, fun x hx => hb.trans (h.clk x hx)⟩

theorem Good.ite {c : Prop} [Decidable c] {a b : State} (ha : c → Good pq a) (hb : ¬c → Good pq b) : Good pq (if c then a else b) := by
  split
  · exact ha ‹_›
  · exact hb ‹_›

theorem Good.ite1 {α : Type} {c : Prop} [Decidable c] {a b : State × α} (ha : c → Good pq a.1) (hb : ¬c → Good pq b.1) :
    Good pq (if c then a else b).1 := by
  split
  · exact ha ‹_›
  · exact hb ‹_›

theorem Good.ite2 {α : Type} {c : Prop} [Decidable c] {a b : α × State} (ha : c → Good pq a.2) (hb : ¬c → Good pq b.2) :
    Good pq (if c then a else b).2 := by
  split
  · exact ha ‹_›
  · exact hb ‹_›

/-- A fold of an operation. -/
theorem Good.foldl {α : Type} {g : State → α → State} {l : List α} (h : Good pq s) (hg : ∀ s x, Good pq s → Good pq (g s x)) :
    Good pq (l.foldl g s) := by
  induction l generalizing s with
  | nil => exact h
  | cons x l ih => exact ih (hg s x h)

/-- A fold over elements that each satisfy `p`. -/
theorem Good.foldlMem {α : Type} {p : α → Prop} {g : State → α → State} {l : List α} (h : Good pq s) (hp : ∀ x ∈ l, p x)
    (hg : ∀ s x, Good pq s → p x → Good pq (g s x)) : Good pq (l.foldl g s) := by
  induction l generalizing s with
  | nil => exact h
  | cons x l ih => exact ih (hg s x h (hp x List.mem_cons_self)) fun y hy => hp y (List.mem_cons_of_mem _ hy)

/-- A fold that carries a value beside the state. -/
theorem Good.foldl1 {α β : Type} {g : State × β → α → State × β} {l : List α} {a : State × β} (h : Good pq a.1)
    (hg : ∀ a x, Good pq a.1 → Good pq (g a x).1) : Good pq (l.foldl g a).1 := by
  induction l generalizing a with
  | nil => exact h
  | cons x l ih => exact ih (hg a x h)

theorem Good.foldl2 {α β : Type} {g : β × State → α → β × State} {l : List α} {a : β × State} (h : Good pq a.2)
    (hg : ∀ a x, Good pq a.2 → Good pq (g a x).2) : Good pq (l.foldl g a).2 := by
  induction l generalizing a with
  | nil => exact h
  | cons x l ih => exact ih (hg a x h)

end Sys2Proof.Machine
end

