-- ==== Sys2Proof/Laws/Regs.lean ====
section
/-!
SUPPORT. The stored registers: a read after a write, reserved bits (R18), and the writes that keep the registers legal.
-/

namespace Sys2Proof.Machine

-- one declaration at a time: the package is compiled as one text within a limit of memory
set_option Elab.async false

/-! ## The register map resets within its writable bits -/

/-- A row whose reset value has its reserved bits 0. -/
def SpecOk (x : Option RegSpec) : Prop := ∀ y, x = some y → y.reset &&& ~~~y.mask = 0

theorem SpecOk.none : SpecOk none := fun _ h => nomatch h
theorem SpecOk.some {r m : Word} {e : Eff} (h : r &&& ~~~m = 0) : SpecOk (some ⟨r, m, e⟩) := fun _ hy => by cases hy; exact h
theorem SpecOk.ite {c : Prop} [Decidable c] {a b : Option RegSpec} (ha : SpecOk a) (hb : SpecOk b) : SpecOk (if c then a else b) := by
  split <;> assumption

theorem rowOf_ok (o : Nat) {l : List (Nat × Word × Word × Eff)} (h : l.all (fun r => r.2.1 &&& ~~~r.2.2.1 == 0) = true) :
    SpecOk (rowOf o l) := by
  induction l with
  | nil => exact .none
  | cons r l ih =>
    simp only [List.all_cons, Bool.and_eq_true, beq_iff_eq] at h
    exact .ite (.some h.1) (ih h.2)

theorem subSpec_ok (o : Nat) : SpecOk (subSpec o) := .ite (.some (by decide)) (rowOf_ok o (by decide))
theorem prtSpec_ok (o : Nat) : SpecOk (prtSpec o) :=
  .ite (.some (by decide)) (.ite (.some (by decide)) (.ite (.some (by decide)) .none))
theorem pwrSpec_ok (o : Nat) : SpecOk (pwrSpec o) :=
  .ite (.some (by decide)) (.ite (.some (by decide)) (.ite (.some (by decide)) (.ite (.some (by decide)) (.ite (.some (by decide)) .none))))
theorem timSpec_ok (o : Nat) : SpecOk (timSpec o) := rowOf_ok o (by decide)
theorem hrdSpec_ok (o : Nat) : SpecOk (hrdSpec o) := .ite (.some (by decide)) (.ite (.some (by decide)) .none)
theorem clsSpec_ok (o : Nat) : SpecOk (clsSpec o) :=
  .ite (.some (by decide)) (.ite (.some (by decide)) (.ite (.some (by decide)) .none))
theorem chnSpec_ok (o : Nat) : SpecOk (chnSpec o) := rowOf_ok o (by decide)
theorem treSpec_ok (o : Nat) : SpecOk (treSpec o) := rowOf_ok o (by decide)
theorem uplSpec_ok (o : Nat) : SpecOk (uplSpec o) := .ite (.some (by decide)) (.ite (.some (by decide)) (rowOf_ok o (by decide)))
theorem qbmSpec_ok (o : Nat) : SpecOk (qbmSpec o) := rowOf_ok o (by decide)
theorem cpeSpec_ok (o : Nat) : SpecOk (cpeSpec o) := rowOf_ok o (by decide)
theorem dptSpec_ok (o : Nat) : SpecOk (dptSpec o) := .ite (.some (by decide)) (rowOf_ok o (by decide))
theorem skmSpec_ok (o : Nat) : SpecOk (skmSpec o) := rowOf_ok o (by decide)
theorem cntSpec_ok (o : Nat) : SpecOk (cntSpec o) := rowOf_ok o (by decide)
theorem tstSpec_ok (o : Nat) : SpecOk (tstSpec o) :=
  .ite (.some (by decide)) (.ite (.some (by decide)) (.ite (.some (by decide)) (.ite (.some (by decide)) .none)))

theorem pageSpec_ok (a : Nat) : SpecOk (pageSpec a) := by
  unfold pageSpec
  exact .ite (rowOf_ok a (by decide)) (.ite (prtSpec_ok _) (.ite (pwrSpec_ok _) (.ite (timSpec_ok _) (.ite (hrdSpec_ok _)
    (.ite (clsSpec_ok _) (.ite (chnSpec_ok _) (.ite (treSpec_ok _) (.ite (uplSpec_ok _) (.ite (qbmSpec_ok _) (.ite (cpeSpec_ok _)
    (.ite (dptSpec_ok _) (.ite (skmSpec_ok _) (.ite (cntSpec_ok _) (.ite (tstSpec_ok _) .none))))))))))))))

theorem regSpec_ok (a : Nat) : SpecOk (regSpec a) := by
  unfold regSpec
  split
  · exact .ite (subSpec_ok _) (pageSpec_ok _)
  · exact pageSpec_ok _

/-- Every register resets with its reserved bits 0. -/
theorem regReset_reserved (a : Nat) : regReset a &&& ~~~(regMask a) = 0 := by
  unfold regReset regMask
  cases h : regSpec a with
  | none => rfl
  | some x => exact regSpec_ok a x h

theorem regMask_of {a : Nat} {x : RegSpec} (h : regSpec a = some x) : regMask a = x.mask := by simp [regMask, h]
theorem regReset_of {a : Nat} {x : RegSpec} (h : regSpec a = some x) : regReset a = x.reset := by simp [regReset, h]

/-! ## Masks -/

/-- Bits outside a mask stay 0 when only bits within it change. -/
theorem mergeW_reserved {old m data k : Word} (ho : old &&& ~~~k = 0) (hm : m &&& ~~~k = 0) : mergeW old m data &&& ~~~k = 0 := by
  apply BitVec.eq_of_getLsbD_eq
  intro i hi
  have h1 := congrArg (fun w => BitVec.getLsbD w i) ho
  have h2 := congrArg (fun w => BitVec.getLsbD w i) hm
  simp only [mergeW, BitVec.getLsbD_and, BitVec.getLsbD_or, BitVec.getLsbD_not, hi, decide_true, Bool.true_and] at h1 h2 ⊢
  cases hk : k.getLsbD i <;> simp_all

/-- A word cut to a mask has no other bits. -/
theorem and_reserved {d m k : Word} (hm : m &&& ~~~k = 0) : d &&& m &&& ~~~k = 0 := by
  rw [BitVec.and_assoc, hm]; exact BitVec.and_zero

theorem and_left_reserved {d m k : Word} (hd : d &&& ~~~k = 0) : d &&& m &&& ~~~k = 0 := by
  rw [BitVec.and_assoc, BitVec.and_comm m, ← BitVec.and_assoc, hd]; exact BitVec.zero_and

theorem and_not_self (m : Word) : m &&& ~~~m = 0 := by
  apply BitVec.eq_of_getLsbD_eq
  intro i hi
  simp [hi]

theorem mergeW_full (old data : Word) : mergeW old 0xFFFFFFFF data = data := by
  have e : (0xFFFFFFFF : Word) = BitVec.allOnes 32 := by decide
  unfold mergeW
  rw [e, BitVec.not_allOnes, BitVec.and_zero, BitVec.zero_or, BitVec.and_allOnes]

theorem and_not_self' (d m : Word) : d &&& m &&& ~~~m = 0 := by rw [BitVec.and_assoc, and_not_self]; exact BitVec.and_zero

/-! ## One register -/

@[simp] theorem reg_setReg_same (a : Nat) (v : Word) (s : State) : reg (setReg a v s) a = v := by simp [reg, setReg]

theorem reg_setReg_other {a b : Nat} (h : b ≠ a) (v : Word) (s : State) : reg (setReg a v s) b = reg s b   :=
  tGet_tSet_other h (regReset b) (regReset a) s.regs.val v

theorem mem_of_tFind {α : Type} {k : Nat} {v : α} : ∀ {t : Tab α}, tFind k t = some v → (k, v) ∈ t
  | [], h => nomatch h
  | (j, w) :: t, h => by
    unfold tFind at h
    split at h
    · next e => cases h; subst e; exact List.mem_cons_self
    · exact List.mem_cons_of_mem _ (mem_of_tFind h)

/-- In a legal state every register reads with its reserved bits 0 (R18). -/
theorem RegsOk.reserved {r : Regs} (h : RegsOk r) (a : Nat) : tGet (regReset a) r.val a &&& ~~~(regMask a) = 0 := by
  unfold tGet
  cases e : tFind a r.val with
  | none => exact regReset_reserved a
  | some v => exact (h.vals _ (mem_of_tFind e)).2

theorem RegsOk.set {r : Regs} (h : RegsOk r) {a : Nat} {v : Word} (hv : v &&& ~~~(regMask a) = 0) :
    RegsOk { r with val := tSet (regReset a) r.val a v } := by
  refine ⟨tRising_tSet _ _ _ h.rising, fun e he => ?_, h.defs⟩
  unfold tSet at he
  split at he
  · exact h.vals e (mem_tDel he)
  · next hne =>
    rcases mem_tPut he with rfl | he
    · exact ⟨hne, hv⟩
    · exact h.vals e he

theorem RegsOk.merge {r : Regs} (h : RegsOk r) {a : Nat} {m data : Word} (hm : m &&& ~~~(regMask a) = 0) :
    mergeW (tGet (regReset a) r.val a) m data &&& ~~~(regMask a) = 0 := mergeW_reserved (h.reserved a) hm

variable {pq : Ghost} {s : State}

/-- A write that leaves the reserved bits 0. -/
theorem setReg_good {a : Nat} {v : Word} (h : Good pq s) (hv : v &&& ~~~(regMask a) = 0) : Good pq (setReg a v s) :=
  ⟨h.pending, h.regs.set hv, h.beat, h.clk⟩

theorem reg_reserved (h : Good pq s) (a : Nat) : reg s a &&& ~~~(regMask a) = 0 := h.regs.reserved a

theorem reg_merge (h : Good pq s) {a : Nat} {m data : Word} (hm : m &&& ~~~(regMask a) = 0) :
    mergeW (reg s a) m data &&& ~~~(regMask a) = 0 := h.regs.merge hm

/-- A deferred write of writable bits. -/
theorem Good.defer {r : Regs} {tim : Tim} (h : Good pq s) (hr : RegsOk r) (hb : (tim.tick, tim.beat, tim.started) = (s.tim.tick, s.tim.beat, s.tim.started)) :
    Good pq { s with regs := r, tim := tim } := 
  ⟨h.pending, hr, by show tim.beat < 10; have := h.beat; have := congrArg (·.2.1) hb; simp only at this; omega, fun x hx => hb.trans (h.clk x hx)⟩

theorem RegsOk.addTick {r : Regs} (h : RegsOk r) {d : DefWrite} (hd : d.mask &&& ~~~(regMask d.addr) = 0) :
    RegsOk { r with tickDef := r.tickDef ++ [d] } := by
  refine ⟨h.rising, h.vals, fun e he => ?_⟩
  simp only [List.mem_append, List.mem_singleton] at he
  rcases he with (he | rfl) | he
  · exact h.defs e (List.mem_append_left _ he)
  · exact hd
  · exact h.defs e (List.mem_append_right _ he)

theorem RegsOk.addCut {r : Regs} (h : RegsOk r) {d : DefWrite} (hd : d.mask &&& ~~~(regMask d.addr) = 0) :
    RegsOk { r with cutDef := r.cutDef ++ [d] } := by
  refine ⟨h.rising, h.vals, fun e he => ?_⟩
  simp only [List.mem_append, List.mem_singleton] at he
  rcases he with he | he | rfl
  · exact h.defs e (List.mem_append_left _ he)
  · exact h.defs e (List.mem_append_right _ he)
  · exact hd

theorem RegsOk.reset : RegsOk Regs.reset := ⟨rfl, nofun, nofun⟩

end Sys2Proof.Machine
end

