-- ==== Sys2Proof/Laws/GoodOps.lean ====
section
/-!
SUPPORT. What each operation of Machine/Ops.lean keeps (Laws/Good.lean).
-/

namespace Sys2Proof.Machine

-- one declaration at a time: the package is compiled as one text within a limit of memory
set_option Elab.async false

variable {pq : Ghost}



theorem emit_good {o : Out} {s : State}
    (gs : Good pq s) : Good pq (emit o s) := by
  unfold emit
  try dsimp only
  repeat' first
    | with_reducible assumption
    | exact and_reserved (by decide)
    | exact reg_merge (by assumption) (by decide)
    | exact and_left_reserved (reg_reserved (by assumption) _)
    | with_reducible apply Good.ite
    | with_reducible apply Good.ite1
    | with_reducible apply Good.ite2
    | fail_if_no_progress (with_reducible apply Good.upd)

theorem begin__good {s : State}
    (gs : Good pq s) : Good pq (begin_ s) := by
  unfold begin_
  try dsimp only
  repeat' first
    | with_reducible assumption
    | exact and_reserved (by decide)
    | exact reg_merge (by assumption) (by decide)
    | exact and_left_reserved (reg_reserved (by assumption) _)
    | with_reducible apply Good.ite
    | with_reducible apply Good.ite1
    | with_reducible apply Good.ite2
    | fail_if_no_progress (with_reducible apply Good.upd)

theorem useFree_good {s : State}
    (gs : Good pq s) : Good pq (useFree s) := by
  unfold useFree
  try dsimp only
  repeat' first
    | with_reducible assumption
    | exact and_reserved (by decide)
    | exact reg_merge (by assumption) (by decide)
    | exact and_left_reserved (reg_reserved (by assumption) _)
    | with_reducible apply Good.ite
    | with_reducible apply Good.ite1
    | with_reducible apply Good.ite2
    | fail_if_no_progress (with_reducible apply Good.upd)

theorem setHomeT_good {t h : Nat} {s : State}
    (gs : Good pq s) : Good pq (setHomeT t h s) := by
  unfold setHomeT
  try dsimp only
  repeat' first
    | with_reducible assumption
    | exact and_reserved (by decide)
    | exact reg_merge (by assumption) (by decide)
    | exact and_left_reserved (reg_reserved (by assumption) _)
    | with_reducible apply Good.ite
    | with_reducible apply Good.ite1
    | with_reducible apply Good.ite2
    | fail_if_no_progress (with_reducible apply Good.upd)

theorem setHomeU_good {p h : Nat} {s : State}
    (gs : Good pq s) : Good pq (setHomeU p h s) := by
  unfold setHomeU
  try dsimp only
  repeat' first
    | with_reducible assumption
    | exact and_reserved (by decide)
    | exact reg_merge (by assumption) (by decide)
    | exact and_left_reserved (reg_reserved (by assumption) _)
    | with_reducible apply Good.ite
    | with_reducible apply Good.ite1
    | with_reducible apply Good.ite2
    | fail_if_no_progress (with_reducible apply Good.upd)

theorem setPdom_good {d : Nat} {v : PDom} {s : State}
    (gs : Good pq s) : Good pq (setPdom d v s) := by
  unfold setPdom
  try dsimp only
  repeat' first
    | with_reducible assumption
    | exact and_reserved (by decide)
    | exact reg_merge (by assumption) (by decide)
    | exact and_left_reserved (reg_reserved (by assumption) _)
    | with_reducible apply Good.ite
    | with_reducible apply Good.ite1
    | with_reducible apply Good.ite2
    | fail_if_no_progress (with_reducible apply Good.upd)

theorem countO_good {i evt obj amt : Nat} {s : State}
    (gs : Good pq s) : Good pq (countO i evt obj amt s) := by
  unfold countO
  try dsimp only
  repeat' first
    | with_reducible assumption
    | exact and_reserved (by decide)
    | exact reg_merge (by assumption) (by decide)
    | exact and_left_reserved (reg_reserved (by assumption) _)
    | with_reducible apply Good.ite
    | with_reducible apply Good.ite1
    | with_reducible apply Good.ite2
    | fail_if_no_progress (with_reducible apply Good.upd)
    | fail_if_no_progress (with_reducible refine Good.updTim ?_ rfl)
    | fail_if_no_progress (with_reducible refine Good.updTim0 ?_ rfl)
    | fail_if_no_progress (with_reducible refine Good.updRegs ?_ rfl rfl rfl rfl)
    | (intro _; try intros; try dsimp only)

theorem countN_good {i evt amt : Nat} {s : State}
    (gs : Good pq s) : Good pq (countN i evt amt s) := by
  unfold countN
  try dsimp only
  repeat' first
    | with_reducible assumption
    | exact and_reserved (by decide)
    | exact reg_merge (by assumption) (by decide)
    | exact and_left_reserved (reg_reserved (by assumption) _)
    | with_reducible apply Good.ite
    | with_reducible apply Good.ite1
    | with_reducible apply Good.ite2
    | fail_if_no_progress (with_reducible apply Good.upd)
    | fail_if_no_progress (with_reducible refine Good.updTim ?_ rfl)
    | fail_if_no_progress (with_reducible refine Good.updTim0 ?_ rfl)
    | fail_if_no_progress (with_reducible refine Good.updRegs ?_ rfl rfl rfl rfl)
    | (intro _; try intros; try dsimp only)

theorem count1_good {i evt : Nat} {s : State}
    (gs : Good pq s) : Good pq (count1 i evt s) := by
  unfold count1
  try dsimp only
  repeat' first
    | with_reducible assumption
    | with_reducible apply countN_good

theorem objAdd_good {arr obj evt amt : Nat} {s : State}
    (gs : Good pq s) : Good pq (objAdd arr obj evt amt s) := by
  unfold objAdd
  try dsimp only
  repeat' first
    | with_reducible assumption
    | exact and_reserved (by decide)
    | exact reg_merge (by assumption) (by decide)
    | exact and_left_reserved (reg_reserved (by assumption) _)
    | with_reducible apply Good.ite
    | with_reducible apply Good.ite1
    | with_reducible apply Good.ite2
    | fail_if_no_progress (with_reducible apply Good.upd)

theorem partViol_good {p : Nat} {s : State}
    (gs : Good pq s) : Good pq (partViol p s) := by
  unfold partViol
  try dsimp only
  repeat' first
    | with_reducible assumption
    | with_reducible apply countO_good

theorem p0Write_good {part : BitVec 6} {be : BitVec 4} {f : State → State} {s : State}
    (gs : Good pq s) (kf : ∀ s, Good pq s → Good pq (f s)) : Good pq (p0Write part be f s) := by
  unfold p0Write
  try dsimp only
  repeat' first
    | with_reducible assumption
    | with_reducible apply partViol_good
    | with_reducible apply kf
    | exact and_reserved (by decide)
    | exact reg_merge (by assumption) (by decide)
    | exact and_left_reserved (reg_reserved (by assumption) _)
    | with_reducible apply Good.ite
    | with_reducible apply Good.ite1
    | with_reducible apply Good.ite2
    | fail_if_no_progress (with_reducible apply Good.upd)
    | fail_if_no_progress (with_reducible refine Good.updTim ?_ rfl)
    | fail_if_no_progress (with_reducible refine Good.updTim0 ?_ rfl)
    | fail_if_no_progress (with_reducible refine Good.updRegs ?_ rfl rfl rfl rfl)
    | (intro _; try intros; try dsimp only)

theorem p0Read_good {part : BitVec 6} {be : BitVec 4} {data : Word} {f : State → State} {s : State}
    (gs : Good pq s) (kf : ∀ s, Good pq s → Good pq (f s)) : Good pq (p0Read part be data f s) := by
  unfold p0Read
  try dsimp only
  repeat' first
    | with_reducible assumption
    | with_reducible apply emit_good
    | with_reducible apply regRead_good
    | with_reducible apply partViol_good
    | with_reducible apply kf
    | exact and_reserved (by decide)
    | exact reg_merge (by assumption) (by decide)
    | exact and_left_reserved (reg_reserved (by assumption) _)
    | with_reducible apply Good.ite
    | with_reducible apply Good.ite1
    | with_reducible apply Good.ite2
    | fail_if_no_progress (with_reducible apply Good.upd)
    | fail_if_no_progress (with_reducible refine Good.updTim ?_ rfl)
    | fail_if_no_progress (with_reducible refine Good.updTim0 ?_ rfl)
    | fail_if_no_progress (with_reducible refine Good.updRegs ?_ rfl rfl rfl rfl)
    | (intro _; try intros; try dsimp only)

theorem dropLo_good {part a : Nat} {s : State}
    (gs : Good pq s) : Good pq (dropLo part a s) := by
  unfold dropLo
  try dsimp only
  repeat' first
    | with_reducible assumption
    | exact and_reserved (by decide)
    | exact reg_merge (by assumption) (by decide)
    | exact and_left_reserved (reg_reserved (by assumption) _)
    | with_reducible apply Good.ite
    | with_reducible apply Good.ite1
    | with_reducible apply Good.ite2
    | fail_if_no_progress (with_reducible apply Good.upd)
    | fail_if_no_progress (with_reducible refine Good.updTim ?_ rfl)
    | fail_if_no_progress (with_reducible refine Good.updTim0 ?_ rfl)
    | fail_if_no_progress (with_reducible refine Good.updRegs ?_ rfl rfl rfl rfl)

theorem setRing_good {k : RingKind} {n : Nat} {r : Ring} {s : State}
    (gs : Good pq s) : Good pq (setRing k n r s) := by
  unfold setRing
  try dsimp only
  repeat' first
    | with_reducible assumption
    | exact and_reserved (by decide)
    | exact reg_merge (by assumption) (by decide)
    | exact and_left_reserved (reg_reserved (by assumption) _)
    | with_reducible apply Good.ite
    | with_reducible apply Good.ite1
    | with_reducible apply Good.ite2
    | fail_if_no_progress (with_reducible apply Good.upd)

theorem turnNext_good {h dir dch ring : Nat} {s : State}
    (gs : Good pq s) : Good pq (turnNext h dir dch ring s) := by
  unfold turnNext
  try dsimp only
  repeat' first
    | with_reducible assumption
    | exact and_reserved (by decide)
    | exact reg_merge (by assumption) (by decide)
    | exact and_left_reserved (reg_reserved (by assumption) _)
    | with_reducible apply Good.ite
    | with_reducible apply Good.ite1
    | with_reducible apply Good.ite2
    | fail_if_no_progress (with_reducible apply Good.upd)



/-- What changes only the rings and what leaves the block keeps. -/
theorem Good.ofEq {s u : State} (gs : Good pq s) (h : ∃ hrd out, u = { s with hrd := hrd, out := out }) : Good pq u := by
  obtain ⟨a, b, rfl⟩ := h; exact Good.upd gs
theorem pumpReads_good {n : Nat} {s : State} (gs : Good pq s) : Good pq (pumpReads n s) := gs.ofEq (pumpReads_eq n s)

theorem hostReads_good {l : List RdReq} {s : State}
    (gs : Good pq s) : Good pq (hostReads l s) := by
  unfold hostReads
  try dsimp only
  repeat' first
    | with_reducible assumption
    | with_reducible apply pumpReads_good
    | exact and_reserved (by decide)
    | exact reg_merge (by assumption) (by decide)
    | exact and_left_reserved (reg_reserved (by assumption) _)
    | with_reducible apply Good.ite
    | with_reducible apply Good.ite1
    | with_reducible apply Good.ite2
    | fail_if_no_progress (with_reducible apply Good.upd)



theorem pumpWrites_good {n : Nat} {s : State} (gs : Good pq s) : Good pq (pumpWrites n s) := gs.ofEq (pumpWrites_eq n s)

theorem hostWrites_good {l : List WrReq} {s : State}
    (gs : Good pq s) : Good pq (hostWrites l s) := by
  unfold hostWrites
  try dsimp only
  repeat' first
    | with_reducible assumption
    | with_reducible apply pumpWrites_good
    | exact and_reserved (by decide)
    | exact reg_merge (by assumption) (by decide)
    | exact and_left_reserved (reg_reserved (by assumption) _)
    | with_reducible apply Good.ite
    | with_reducible apply Good.ite1
    | with_reducible apply Good.ite2
    | fail_if_no_progress (with_reducible apply Good.upd)

theorem atCycle_good {c : Nat} {t : Turn} {s : State}
    (gs : Good pq s) : Good pq (atCycle c t s) := by
  unfold atCycle
  try dsimp only
  repeat' first
    | with_reducible assumption
    | exact and_reserved (by decide)
    | exact reg_merge (by assumption) (by decide)
    | exact and_left_reserved (reg_reserved (by assumption) _)
    | with_reducible apply Good.ite
    | with_reducible apply Good.ite1
    | with_reducible apply Good.ite2
    | fail_if_no_progress (with_reducible apply Good.upd)

theorem irq_good {vec part : Nat} {s : State}
    (gs : Good pq s) : Good pq (irq vec part s) := by
  unfold irq
  try dsimp only
  repeat' first
    | with_reducible assumption
    | with_reducible apply emit_good

theorem wakeIdle_good {d src : Nat} {s : State}
    (gs : Good pq s) : Good pq (wakeIdle d src s) := by
  unfold wakeIdle
  try dsimp only
  repeat' first
    | with_reducible assumption
    | exact and_reserved (by decide)
    | exact reg_merge (by assumption) (by decide)
    | exact and_left_reserved (reg_reserved (by assumption) _)
    | with_reducible apply Good.ite
    | with_reducible apply Good.ite1
    | with_reducible apply Good.ite2
    | fail_if_no_progress (with_reducible apply Good.upd)

theorem wake_good {d src : Nat} {s : State}
    (gs : Good pq s) : Good pq (wake d src s) := by
  unfold wake
  try dsimp only
  repeat' first
    | with_reducible assumption
    | with_reducible apply wakeIdle_good
    | with_reducible apply setPdom_good
    | exact and_reserved (by decide)
    | exact reg_merge (by assumption) (by decide)
    | exact and_left_reserved (reg_reserved (by assumption) _)
    | with_reducible apply Good.ite
    | with_reducible apply Good.ite1
    | with_reducible apply Good.ite2
    | fail_if_no_progress (with_reducible apply Good.upd)
    | fail_if_no_progress (with_reducible refine Good.updTim ?_ rfl)
    | fail_if_no_progress (with_reducible refine Good.updTim0 ?_ rfl)
    | fail_if_no_progress (with_reducible refine Good.updRegs ?_ rfl rfl rfl rfl)
    | (intro _; try intros; try dsimp only)

theorem ntcWrite_good {p : Nat} {n : Notice} {s : State} (gs : Good pq s) : Good pq (ntcWrite p n s) :=
  hostWrites_good (setRing_good gs)

theorem ntcLose_good {p : Nat} {s : State}
    (gs : Good pq s) : Good pq (ntcLose p s) := by
  unfold ntcLose
  try dsimp only
  repeat' first
    | with_reducible assumption
    | with_reducible apply countO_good
    | exact and_reserved (by decide)
    | exact reg_merge (by assumption) (by decide)
    | exact and_left_reserved (reg_reserved (by assumption) _)
    | with_reducible apply Good.ite
    | with_reducible apply Good.ite1
    | with_reducible apply Good.ite2
    | fail_if_no_progress (with_reducible apply Good.upd)

theorem ntcDrain_good {p n : Nat} {s : State} (gs : Good pq s) : Good pq (ntcDrain p n s) := by
  induction n generalizing s with
  | zero => exact gs
  | succ n ih =>
    unfold ntcDrain
    refine Good.ite (fun _ => gs) fun _ => Good.ite (fun _ => ih (Good.upd (ntcWrite_good gs))) fun _ => ?_
    split
    · exact gs
    · exact ih (Good.upd (ntcWrite_good gs))

theorem notice_good {p : Nat} {n : Notice} {s : State} (gs : Good pq s) : Good pq (notice p n s) := by
  unfold notice
  extract_lets r s0 s1 pend
  have g1 : Good pq s1 := Good.ite (fun _ => ntcDrain_good (wake_good gs)) fun _ => wake_good gs
  refine Good.ite (fun _ => ntcLose_good g1) fun _ => Good.ite (fun _ => ntcWrite_good g1) fun _ => ?_
  cases ntcMerge n pend with
  | some l => exact Good.upd g1
  | none => exact Good.ite (fun _ => Good.upd g1) fun _ => ntcLose_good g1

theorem notice0_good {type cause : Nat} {w6 w7 : Word} {s : State}
    (gs : Good pq s) : Good pq (notice0 type cause w6 w7 s) := by
  unfold notice0
  try dsimp only
  repeat' first
    | with_reducible assumption
    | with_reducible apply notice_good

theorem noticeT_good {type tree tid cause : Nat} {serial : BitVec 64} {w6 w7 : Word} {s : State}
    (gs : Good pq s) : Good pq (noticeT type tree tid cause serial w6 w7 s) := by
  unfold noticeT
  try dsimp only
  repeat' first
    | with_reducible assumption
    | with_reducible apply notice_good

theorem setFlt_good {i : Nat} {f : FaultSet} {s : State}
    (gs : Good pq s) : Good pq (setFlt i f s) := by
  unfold setFlt
  try dsimp only
  repeat' first
    | with_reducible assumption
    | exact and_reserved (by decide)
    | exact reg_merge (by assumption) (by decide)
    | exact and_left_reserved (reg_reserved (by assumption) _)
    | with_reducible apply Good.ite
    | with_reducible apply Good.ite1
    | with_reducible apply Good.ite2
    | fail_if_no_progress (with_reducible apply Good.upd)

theorem pinAssert_good {s : State}
    (gs : Good pq s) : Good pq (pinAssert s) := by
  unfold pinAssert
  try dsimp only
  repeat' first
    | with_reducible assumption
    | with_reducible apply emit_good
    | with_reducible apply pinRel_good
    | exact and_reserved (by decide)
    | exact reg_merge (by assumption) (by decide)
    | exact and_left_reserved (reg_reserved (by assumption) _)
    | with_reducible apply Good.ite
    | with_reducible apply Good.ite1
    | with_reducible apply Good.ite2
    | fail_if_no_progress (with_reducible apply Good.upd)

theorem pinRelease_good {again : Bool} {s : State}
    (gs : Good pq s) : Good pq (pinRelease again s) := by
  unfold pinRelease
  try dsimp only
  repeat' first
    | with_reducible assumption
    | with_reducible apply emit_good
    | with_reducible apply pinRel_good
    | exact and_reserved (by decide)
    | exact reg_merge (by assumption) (by decide)
    | exact and_left_reserved (reg_reserved (by assumption) _)
    | with_reducible apply Good.ite
    | with_reducible apply Good.ite1
    | with_reducible apply Good.ite2
    | fail_if_no_progress (with_reducible apply Good.upd)

theorem pinEvent_good {i : Nat} {s : State}
    (gs : Good pq s) : Good pq (pinEvent i s) := by
  unfold pinEvent
  try dsimp only
  repeat' first
    | with_reducible assumption
    | with_reducible apply pinAssert_good
    | exact and_reserved (by decide)
    | exact reg_merge (by assumption) (by decide)
    | exact and_left_reserved (reg_reserved (by assumption) _)
    | with_reducible apply Good.ite
    | with_reducible apply Good.ite1
    | with_reducible apply Good.ite2
    | fail_if_no_progress (with_reducible apply Good.upd)
    | fail_if_no_progress (with_reducible refine Good.updTim ?_ rfl)
    | fail_if_no_progress (with_reducible refine Good.updTim0 ?_ rfl)
    | fail_if_no_progress (with_reducible refine Good.updRegs ?_ rfl rfl rfl rfl)
    | (intro _; try intros; try dsimp only)
    | split

theorem pinOff_good {s : State}
    (gs : Good pq s) : Good pq (pinOff s) := by
  unfold pinOff
  try dsimp only
  repeat' first
    | with_reducible assumption
    | with_reducible apply pinRelease_good
    | exact and_reserved (by decide)
    | exact reg_merge (by assumption) (by decide)
    | exact and_left_reserved (reg_reserved (by assumption) _)
    | with_reducible apply Good.ite
    | with_reducible apply Good.ite1
    | with_reducible apply Good.ite2
    | fail_if_no_progress (with_reducible apply Good.upd)
    | fail_if_no_progress (with_reducible refine Good.updTim ?_ rfl)
    | fail_if_no_progress (with_reducible refine Good.updTim0 ?_ rfl)
    | fail_if_no_progress (with_reducible refine Good.updRegs ?_ rfl rfl rfl rfl)
    | (intro _; try intros; try dsimp only)

theorem faultTold_good {i b : Nat} {s : State}
    (gs : Good pq s) : Good pq (faultTold i b s) := by
  unfold faultTold
  try dsimp only
  repeat' first
    | with_reducible assumption
    | with_reducible apply irq_good
    | with_reducible apply pinEvent_good
    | exact and_reserved (by decide)
    | exact reg_merge (by assumption) (by decide)
    | exact and_left_reserved (reg_reserved (by assumption) _)
    | with_reducible apply Good.ite
    | with_reducible apply Good.ite1
    | with_reducible apply Good.ite2
    | fail_if_no_progress (with_reducible apply Good.upd)
    | fail_if_no_progress (with_reducible refine Good.updTim ?_ rfl)
    | fail_if_no_progress (with_reducible refine Good.updTim0 ?_ rfl)
    | fail_if_no_progress (with_reducible refine Good.updRegs ?_ rfl rfl rfl rfl)
    | (intro _; try intros; try dsimp only)

theorem raise_good {i b : Nat} {fi : FaultInfo} {s : State}
    (gs : Good pq s) : Good pq (raise i b fi s) := by
  unfold raise
  try dsimp only
  repeat' first
    | with_reducible assumption
    | with_reducible apply setFlt_good
    | with_reducible apply atCycle_good
    | with_reducible apply notice_good
    | exact and_reserved (by decide)
    | exact reg_merge (by assumption) (by decide)
    | exact and_left_reserved (reg_reserved (by assumption) _)
    | with_reducible apply Good.ite
    | with_reducible apply Good.ite1
    | with_reducible apply Good.ite2
    | fail_if_no_progress (with_reducible apply Good.upd)
    | fail_if_no_progress (with_reducible refine Good.updTim ?_ rfl)
    | fail_if_no_progress (with_reducible refine Good.updTim0 ?_ rfl)
    | fail_if_no_progress (with_reducible refine Good.updRegs ?_ rfl rfl rfl rfl)
    | (intro _; try intros; try dsimp only)

theorem fault_good {i b : Nat} {cap0 : Word} {acc mkind mnum part : Nat} {s : State}
    (gs : Good pq s) : Good pq (fault i b cap0 acc mkind mnum part s) := by
  unfold fault
  try dsimp only
  repeat' first
    | with_reducible assumption
    | with_reducible apply raise_good

theorem setVq_good {n : Nat} {v : Vq} {s : State}
    (gs : Good pq s) : Good pq (setVq n v s) := by
  unfold setVq
  try dsimp only
  repeat' first
    | with_reducible assumption
    | exact and_reserved (by decide)
    | exact reg_merge (by assumption) (by decide)
    | exact and_left_reserved (reg_reserved (by assumption) _)
    | with_reducible apply Good.ite
    | with_reducible apply Good.ite1
    | with_reducible apply Good.ite2
    | fail_if_no_progress (with_reducible apply Good.upd)

theorem modVq_good {n : Nat} {f : Vq → Vq} {s : State}
    (gs : Good pq s) : Good pq (modVq n f s) := by
  unfold modVq
  try dsimp only
  repeat' first
    | with_reducible assumption
    | with_reducible apply setVq_good

theorem setVqTerm_good {n k : Nat} {x : VqTerm} {s : State}
    (gs : Good pq s) : Good pq (setVqTerm n k x s) := by
  unfold setVqTerm
  try dsimp only
  repeat' first
    | with_reducible assumption
    | with_reducible apply modVq_good

theorem loopAbort_good {p : Loop → Bool} {s : State}
    (gs : Good pq s) : Good pq (loopAbort p s) := by
  unfold loopAbort
  try dsimp only
  repeat' first
    | with_reducible assumption
    | with_reducible apply fault_good
    | with_reducible apply setReg_good
    | with_reducible apply Good.foldl
    | with_reducible apply Good.foldl1
    | with_reducible apply Good.foldl2
    | exact and_reserved (by decide)
    | exact reg_merge (by assumption) (by decide)
    | exact and_left_reserved (reg_reserved (by assumption) _)
    | with_reducible apply Good.ite
    | with_reducible apply Good.ite1
    | with_reducible apply Good.ite2
    | fail_if_no_progress (with_reducible apply Good.upd)
    | fail_if_no_progress (with_reducible refine Good.updTim ?_ rfl)
    | fail_if_no_progress (with_reducible refine Good.updTim0 ?_ rfl)
    | fail_if_no_progress (with_reducible refine Good.updRegs ?_ rfl rfl rfl rfl)
    | (intro _; try intros; try dsimp only)

end Sys2Proof.Machine
end

