-- ==== Sys2Proof/Laws/GoodLanes.lean ====
section
/-!
SUPPORT. What each operation of Machine/Lanes.lean keeps (Laws/Good.lean).
-/

namespace Sys2Proof.Machine

-- one declaration at a time: the package is compiled as one text within a limit of memory
set_option Elab.async false

variable {pq : Ghost}

theorem setGrp_good {g : Nat} {v : Group} {s : State}
    (gs : Good pq s) : Good pq (setGrp g v s) := by
  unfold setGrp
  try extract_lets
  repeat' first
    | with_reducible assumption
    | exact and_reserved (by decide)
    | exact reg_merge (by assumption) (by decide)
    | exact and_left_reserved (reg_reserved (by assumption) _)
    | with_reducible apply Good.ite
    | with_reducible apply Good.ite1
    | with_reducible apply Good.ite2
    | fail_if_no_progress (with_reducible apply Good.upd)

theorem laneMod_good {i d : Nat} {f : Lane → Lane} {s : State}
    (gs : Good pq s) : Good pq (laneMod i d f s) := by
  unfold laneMod
  try extract_lets
  repeat' first
    | with_reducible assumption
    | exact and_reserved (by decide)
    | exact reg_merge (by assumption) (by decide)
    | exact and_left_reserved (reg_reserved (by assumption) _)
    | with_reducible apply Good.ite
    | with_reducible apply Good.ite1
    | with_reducible apply Good.ite2
    | fail_if_no_progress (with_reducible apply Good.upd)

theorem backCells_good {n : Nat} {s : State}
    (gs : Good pq s) : Good pq (backCells n s) := by
  unfold backCells
  try extract_lets
  repeat' first
    | with_reducible assumption
    | with_reducible apply countO_good
    | with_reducible apply laneMod_good
    | with_reducible apply Good.foldl
    | with_reducible apply Good.foldl1
    | with_reducible apply Good.foldl2
    | exact and_reserved (by decide)
    | exact reg_merge (by assumption) (by decide)
    | exact and_left_reserved (reg_reserved (by assumption) _)
    | with_reducible apply Good.ite
    | with_reducible apply Good.ite1
    | with_reducible apply Good.ite2
    | fail_if_no_progress (with_reducible apply Good.upd)
    | fail_if_no_progress (with_reducible refine Good.updTim ?_ rfl)
    | fail_if_no_progress (with_reducible refine Good.updTim0 ?_ rfl)
    | fail_if_no_progress (with_reducible refine Good.updRegs ?_ rfl rfl rfl rfl)
    | (intro _; try intros; try extract_lets)

end Sys2Proof.Machine
end

