-- ==== Sys2Proof/Laws/GoodRound.lean ====
section
/-!
SUPPORT. What each operation of Machine/Round.lean keeps (Laws/Good.lean).
-/

namespace Sys2Proof.Machine

-- one declaration at a time: the package is compiled as one text within a limit of memory
set_option Elab.async false

variable {pq : Ghost}

theorem mrNextGroup_good {s u : State} (gs : Good pq s) (ge : mrNextGroup s = some u) : Good pq u := by
  unfold mrNextGroup at ge
  split at ge
  · split at ge
    · cases ge
    · cases ge; exact hostWrites_good (Good.upd gs)
  · cases ge

theorem mrClose_good {s : State} (gs : Good pq s) : Good pq (mrClose s) := by
  unfold mrClose
  split
  · exact gs
  · exact Good.ite (fun _ => Good.upd gs) fun _ => gs

theorem mrFlush_good {n : Nat} {s : State} (gs : Good pq s) : Good pq (mrFlush n s) := by
  induction n generalizing s with
  | zero => exact gs
  | succ n ih =>
    rw [mrFlush]
    split
    · exact mrClose_good gs
    · exact ih (mrNextGroup_good gs (by assumption))

theorem mrRead_good {s : State}
    (gs : Good pq s) : Good pq (mrRead s) := by
  unfold mrRead
  try dsimp only
  repeat' first
    | with_reducible assumption
    | with_reducible apply useFree_good
    | with_reducible apply mrFlush_good
    | exact and_reserved (by decide)
    | exact reg_merge (by assumption) (by decide)
    | exact and_left_reserved (reg_reserved (by assumption) _)
    | with_reducible apply Good.ite
    | with_reducible apply Good.ite1
    | with_reducible apply Good.ite2
    | fail_if_no_progress (with_reducible apply Good.upd)
    | fail_if_no_progress (with_reducible refine Good.updTim ?_ rfl)
    | fail_if_no_progress (with_reducible refine Good.updTim0 ?_ rfl)
    | fail_if_no_progress (with_reducible refine Good.updRegs ?_ rfl rfl rfl rfl)
    | (intro _; try intros; try dsimp only)
    | split

theorem mrFail_good {q addr acc : Nat} {s : State}
    (gs : Good pq s) : Good pq (mrFail q addr acc s) := by
  unfold mrFail
  try dsimp only
  repeat' first
    | with_reducible assumption
    | with_reducible apply fault_good
    | with_reducible apply count1_good
    | exact and_reserved (by decide)
    | exact reg_merge (by assumption) (by decide)
    | exact and_left_reserved (reg_reserved (by assumption) _)
    | with_reducible apply Good.ite
    | with_reducible apply Good.ite1
    | with_reducible apply Good.ite2
    | fail_if_no_progress (with_reducible apply Good.upd)
    | fail_if_no_progress (with_reducible refine Good.updTim ?_ rfl)
    | fail_if_no_progress (with_reducible refine Good.updTim0 ?_ rfl)
    | fail_if_no_progress (with_reducible refine Good.updRegs ?_ rfl rfl rfl rfl)
    | (intro _; try intros; try dsimp only)

end Sys2Proof.Machine
end

