-- ==== Sys2Proof/Laws/GoodSample.lean ====
section
/-!
SUPPORT. What each operation of Machine/Sample.lean keeps (Laws/Good.lean).
-/

namespace Sys2Proof.Machine

-- one declaration at a time: the package is compiled as one text within a limit of memory
set_option Elab.async false

variable {pq : Ghost}

theorem smpLose_good {s : State}
    (gs : Good pq s) : Good pq (smpLose s) := by
  unfold smpLose
  try dsimp only
  repeat' first
    | with_reducible assumption
    | with_reducible apply count1_good
    | exact and_reserved (by decide)
    | exact reg_merge (by assumption) (by decide)
    | exact and_left_reserved (reg_reserved (by assumption) _)
    | with_reducible apply Good.ite
    | with_reducible apply Good.ite1
    | with_reducible apply Good.ite2
    | fail_if_no_progress (with_reducible apply Good.upd)

theorem smpWrite_good {i n skid : Nat} {f : SmpFrame} {s : State} (gs : Good pq s) : Good pq (smpWrite i n skid f s) := by
  unfold smpWrite
  extract_lets size base
  exact Good.ite (fun _ => smpLose_good gs) fun _ => count1_good (Good.upd (hostWrites_good gs))

theorem completeAs_good {i : Nat} {f : SmpFrame} {s : State}
    (gs : Good pq s) : Good pq (completeAs i f s) := by
  unfold completeAs
  try dsimp only
  repeat' first
    | with_reducible assumption
    | with_reducible apply useFree_good
    | with_reducible apply smpWrite_good
    | exact and_reserved (by decide)
    | exact reg_merge (by assumption) (by decide)
    | exact and_left_reserved (reg_reserved (by assumption) _)
    | with_reducible apply Good.ite
    | with_reducible apply Good.ite1
    | with_reducible apply Good.ite2
    | fail_if_no_progress (with_reducible apply Good.upd)
    | fail_if_no_progress (with_reducible refine Good.updTim ?_ rfl)
    | fail_if_no_progress (with_reducible refine Good.updTim0 ?_ rfl)
    | fail_if_no_progress (with_reducible refine Good.updRegs ?_ rfl rfl rfl rfl)
    | (intro _; try intros; try dsimp only)
    | split

theorem complete_good {i : Nat} {f : Frame} {s : State} (gs : Good pq s) : Good pq (complete i f s) := completeAs_good gs

theorem completeAt_good {c i : Nat} {x : SmpFrame} {s : State} (gs : Good pq s) : Good pq (completeAt c i x s) := atCycle_good gs

theorem decided_good {i : Nat} {cls : Bool} {x : SmpFrame} {s : State} (gs : Good pq s) : Good pq (decided i cls x s) :=
  Good.ite (fun _ => completeAs_good (completeAs_good gs)) fun _ => completeAs_good gs

end Sys2Proof.Machine
end

