-- ==== Sys2Proof/Laws/GoodQbm.lean ====
section
/-!
SUPPORT. What each operation of Machine/Qbm.lean keeps (Laws/Good.lean).
-/

namespace Sys2Proof.Machine

-- one declaration at a time: the package is compiled as one text within a limit of memory
set_option Elab.async false

variable {pq : Ghost}

theorem setQueue_good {q : Nat} {l : List Token} {s : State}
    (gs : Good pq s) : Good pq (setQueue q l s) := by
  unfold setQueue
  try dsimp only
  repeat' first
    | with_reducible assumption
    | exact and_reserved (by decide)
    | exact reg_merge (by assumption) (by decide)
    | exact and_left_reserved (reg_reserved (by assumption) _)
    | with_reducible apply Good.ite
    | with_reducible apply Good.ite1
    | with_reducible apply Good.ite2
    | fail_if_no_progress (with_reducible apply Good.upd)

theorem addChg_good {q : Nat} {d : Int} {s : State}
    (gs : Good pq s) : Good pq (addChg q d s) := by
  unfold addChg
  try dsimp only
  repeat' first
    | with_reducible assumption
    | exact and_reserved (by decide)
    | exact reg_merge (by assumption) (by decide)
    | exact and_left_reserved (reg_reserved (by assumption) _)
    | with_reducible apply Good.ite
    | with_reducible apply Good.ite1
    | with_reducible apply Good.ite2
    | fail_if_no_progress (with_reducible apply Good.upd)

theorem setFrame_good {f : Nat} {v : Frame} {s : State}
    (gs : Good pq s) : Good pq (setFrame f v s) := by
  unfold setFrame
  try dsimp only
  repeat' first
    | with_reducible assumption
    | exact and_reserved (by decide)
    | exact reg_merge (by assumption) (by decide)
    | exact and_left_reserved (reg_reserved (by assumption) _)
    | with_reducible apply Good.ite
    | with_reducible apply Good.ite1
    | with_reducible apply Good.ite2
    | fail_if_no_progress (with_reducible apply Good.upd)

theorem wakeGroups_good {f : Frame} {s : State}
    (gs : Good pq s) : Good pq (wakeGroups f s) := by
  unfold wakeGroups
  try dsimp only
  repeat' first
    | with_reducible assumption
    | with_reducible apply wake_good
    | with_reducible apply Good.foldl
    | with_reducible apply Good.foldl1
    | with_reducible apply Good.foldl2
    | exact and_reserved (by decide)
    | exact reg_merge (by assumption) (by decide)
    | exact and_left_reserved (reg_reserved (by assumption) _)
    | with_reducible apply Good.ite
    | with_reducible apply Good.ite1
    | with_reducible apply Good.ite2
    | fail_if_no_progress (with_reducible apply Good.upd)
    | fail_if_no_progress (with_reducible refine Good.updTim ?_ rfl)
    | fail_if_no_progress (with_reducible refine Good.updTim0 ?_ rfl)
    | fail_if_no_progress (with_reducible refine Good.updRegs ?_ rfl rfl rfl rfl)
    | (intro _; try intros; try dsimp only)

theorem allocOne_good {s : State} {n : Nat} (gs : Good pq s) : ∀ {g : Nat} {x}, allocOne s g n = some x → Good pq x.2.2 := by
  induction n with
  | zero => intro g x ge; simp [allocOne] at ge
  | succ n ih =>
    intro g x ge
    unfold allocOne at ge
    dsimp only at ge
    split at ge
    · split at ge
      · cases ge; exact setGrp_good gs
      · exact ih ge
    · exact ih ge

theorem allocOne_good' {s u : State} {n g c g' : Nat} (gs : Good pq s) (ge : allocOne s g n = some (c, g', u)) : Good pq u :=
  allocOne_good gs ge

theorem allocN_good {sec n : Nat} : ∀ {s : State} {x}, Good pq s → allocN sec n s = some x → Good pq x.2 := by
  induction n with
  | zero => intro s x gs ge; cases ge; exact gs
  | succ n ih =>
    intro s x gs ge
    unfold allocN at ge
    split at ge
    · cases ge
    · next c g s1 e1 =>
      have g1 : Good pq s1 := allocOne_good gs e1
      split at ge
      · cases ge
      · next l s2 e2 => cases ge; exact ih (x := (l, s2)) (Good.upd g1) e2

theorem allocN_good' {s u : State} {sec n : Nat} {l : List Nat} (gs : Good pq s) (ge : allocN sec n s = some (l, u)) : Good pq u :=
  allocN_good gs ge

theorem fenceGroup_good {g : Nat} {s : State}
    (gs : Good pq s) : Good pq (fenceGroup g s) := by
  unfold fenceGroup
  try dsimp only
  repeat' first
    | with_reducible assumption
    | with_reducible apply setGrp_good
    | exact and_reserved (by decide)
    | exact reg_merge (by assumption) (by decide)
    | exact and_left_reserved (reg_reserved (by assumption) _)
    | with_reducible apply Good.ite
    | with_reducible apply Good.ite1
    | with_reducible apply Good.ite2
    | fail_if_no_progress (with_reducible apply Good.upd)

theorem autoRetire_good {g : Nat} {s : State}
    (gs : Good pq s) : Good pq (autoRetire g s) := by
  unfold autoRetire
  try dsimp only
  repeat' first
    | with_reducible assumption
    | with_reducible apply fault_good
    | with_reducible apply fenceGroup_good
    | exact and_reserved (by decide)
    | exact reg_merge (by assumption) (by decide)
    | exact and_left_reserved (reg_reserved (by assumption) _)
    | with_reducible apply Good.ite
    | with_reducible apply Good.ite1
    | with_reducible apply Good.ite2
    | fail_if_no_progress (with_reducible apply Good.upd)
    | fail_if_no_progress (with_reducible refine Good.updTim ?_ rfl)
    | fail_if_no_progress (with_reducible refine Good.updTim0 ?_ rfl)
    | fail_if_no_progress (with_reducible refine Good.updRegs ?_ rfl rfl rfl rfl)
    | (intro _; try intros; try dsimp only)

theorem setLink_good {c : Nat} {w : LinkWord} {s : State}
    (gs : Good pq s) : Good pq (setLink c w s) := by
  unfold setLink
  try dsimp only
  repeat' first
    | with_reducible assumption
    | exact and_reserved (by decide)
    | exact reg_merge (by assumption) (by decide)
    | exact and_left_reserved (reg_reserved (by assumption) _)
    | with_reducible apply Good.ite
    | with_reducible apply Good.ite1
    | with_reducible apply Good.ite2
    | fail_if_no_progress (with_reducible apply Good.upd)

theorem writeLink_good {c next : Nat} {fin : Bool} {s : State}
    (gs : Good pq s) : Good pq (writeLink c next fin s) := by
  unfold writeLink
  try dsimp only
  repeat' first
    | with_reducible assumption
    | with_reducible apply setLink_good

theorem chainCells_good {l : List Nat} {s : State} (gs : Good pq s) : Good pq (chainCells l s) := by
  induction l generalizing s with
  | nil => exact gs
  | cons c l ih =>
    cases l with
    | nil => exact writeLink_good gs
    | cons d l => exact ih (writeLink_good gs)

theorem freeCell_good {c : Nat} {s0 : State}
    (gs : Good pq s0) : Good pq (freeCell c s0) := by
  unfold freeCell
  try dsimp only
  repeat' first
    | with_reducible assumption
    | with_reducible apply autoRetire_good
    | with_reducible apply setGrp_good
    | exact and_reserved (by decide)
    | exact reg_merge (by assumption) (by decide)
    | exact and_left_reserved (reg_reserved (by assumption) _)
    | with_reducible apply Good.ite
    | with_reducible apply Good.ite1
    | with_reducible apply Good.ite2
    | fail_if_no_progress (with_reducible apply Good.upd)
    | fail_if_no_progress (with_reducible refine Good.updTim ?_ rfl)
    | fail_if_no_progress (with_reducible refine Good.updTim0 ?_ rfl)
    | fail_if_no_progress (with_reducible refine Good.updRegs ?_ rfl rfl rfl rfl)
    | (intro _; try intros; try dsimp only)

theorem freeCellsOf_good {l : List Nat} {s : State}
    (gs : Good pq s) : Good pq (freeCellsOf l s) := by
  unfold freeCellsOf
  try dsimp only
  repeat' first
    | with_reducible assumption
    | with_reducible apply freeCell_good
    | with_reducible apply Good.foldl
    | with_reducible apply Good.foldl1
    | with_reducible apply Good.foldl2
    | exact and_reserved (by decide)
    | exact reg_merge (by assumption) (by decide)
    | exact and_left_reserved (reg_reserved (by assumption) _)
    | with_reducible apply Good.ite
    | with_reducible apply Good.ite1
    | with_reducible apply Good.ite2
    | fail_if_no_progress (with_reducible apply Good.upd)
    | fail_if_no_progress (with_reducible refine Good.updTim ?_ rfl)
    | fail_if_no_progress (with_reducible refine Good.updTim0 ?_ rfl)
    | fail_if_no_progress (with_reducible refine Good.updRegs ?_ rfl rfl rfl rfl)
    | (intro _; try intros; try dsimp only)

theorem deepInit_good {s : State}
    (gs : Good pq s) : Good pq (deepInit s) := by
  unfold deepInit
  try dsimp only
  repeat' first
    | with_reducible assumption
    | exact and_reserved (by decide)
    | exact reg_merge (by assumption) (by decide)
    | exact and_left_reserved (reg_reserved (by assumption) _)
    | with_reducible apply Good.ite
    | with_reducible apply Good.ite1
    | with_reducible apply Good.ite2
    | fail_if_no_progress (with_reducible apply Good.upd)

theorem takeDeep_good {n : Nat} {s : State}
    (gs : Good pq s) : Good pq (takeDeep n s).2 := by
  unfold takeDeep
  try dsimp only
  repeat' first
    | with_reducible assumption
    | exact and_reserved (by decide)
    | exact reg_merge (by assumption) (by decide)
    | exact and_left_reserved (reg_reserved (by assumption) _)
    | with_reducible apply Good.ite
    | with_reducible apply Good.ite1
    | with_reducible apply Good.ite2
    | fail_if_no_progress (with_reducible apply Good.upd)

theorem freeDeep_good {l : List Nat} {s : State}
    (gs : Good pq s) : Good pq (freeDeep l s) := by
  unfold freeDeep
  try dsimp only
  repeat' first
    | with_reducible assumption
    | exact and_reserved (by decide)
    | exact reg_merge (by assumption) (by decide)
    | exact and_left_reserved (reg_reserved (by assumption) _)
    | with_reducible apply Good.ite
    | with_reducible apply Good.ite1
    | with_reducible apply Good.ite2
    | fail_if_no_progress (with_reducible apply Good.upd)

theorem xoffOne_good {k : Nat} {s : State}
    (gs : Good pq s) : Good pq (xoffOne k s) := by
  unfold xoffOne
  try dsimp only
  repeat' first
    | with_reducible assumption
    | exact and_reserved (by decide)
    | exact reg_merge (by assumption) (by decide)
    | exact and_left_reserved (reg_reserved (by assumption) _)
    | with_reducible apply Good.ite
    | with_reducible apply Good.ite1
    | with_reducible apply Good.ite2
    | fail_if_no_progress (with_reducible apply Good.upd)

theorem portCellsAdd_good {k : Nat} {d : Int} {s : State}
    (gs : Good pq s) : Good pq (portCellsAdd k d s) := by
  unfold portCellsAdd
  try dsimp only
  repeat' first
    | with_reducible assumption
    | with_reducible apply xoffOne_good
    | exact and_reserved (by decide)
    | exact reg_merge (by assumption) (by decide)
    | exact and_left_reserved (reg_reserved (by assumption) _)
    | with_reducible apply Good.ite
    | with_reducible apply Good.ite1
    | with_reducible apply Good.ite2
    | fail_if_no_progress (with_reducible apply Good.upd)

theorem addS_good {d : Int} {s : State}
    (gs : Good pq s) : Good pq (addS d s) := by
  unfold addS
  try dsimp only
  repeat' first
    | with_reducible assumption
    | exact and_reserved (by decide)
    | exact reg_merge (by assumption) (by decide)
    | exact and_left_reserved (reg_reserved (by assumption) _)
    | with_reducible apply Good.ite
    | with_reducible apply Good.ite1
    | with_reducible apply Good.ite2
    | fail_if_no_progress (with_reducible apply Good.upd)

theorem xoffFresh_good {s : State}
    (gs : Good pq s) : Good pq (xoffFresh s) := by
  unfold xoffFresh
  try dsimp only
  repeat' first
    | with_reducible assumption
    | with_reducible apply xoffOne_good
    | with_reducible apply addS_good
    | with_reducible apply Good.foldl
    | with_reducible apply Good.foldl1
    | with_reducible apply Good.foldl2
    | exact and_reserved (by decide)
    | exact reg_merge (by assumption) (by decide)
    | exact and_left_reserved (reg_reserved (by assumption) _)
    | with_reducible apply Good.ite
    | with_reducible apply Good.ite1
    | with_reducible apply Good.ite2
    | fail_if_no_progress (with_reducible apply Good.upd)
    | fail_if_no_progress (with_reducible refine Good.updTim ?_ rfl)
    | fail_if_no_progress (with_reducible refine Good.updTim0 ?_ rfl)
    | fail_if_no_progress (with_reducible refine Good.updRegs ?_ rfl rfl rfl rfl)
    | (intro _; try intros; try dsimp only)

theorem cellsLeave_good {f : Frame} {n : Nat} {s : State}
    (gs : Good pq s) : Good pq (cellsLeave f n s) := by
  unfold cellsLeave
  try dsimp only
  repeat' first
    | with_reducible assumption
    | with_reducible apply portCellsAdd_good
    | with_reducible apply addChg_good
    | exact and_reserved (by decide)
    | exact reg_merge (by assumption) (by decide)
    | exact and_left_reserved (reg_reserved (by assumption) _)
    | with_reducible apply Good.ite
    | with_reducible apply Good.ite1
    | with_reducible apply Good.ite2
    | fail_if_no_progress (with_reducible apply Good.upd)
    | fail_if_no_progress (with_reducible refine Good.updTim ?_ rfl)
    | fail_if_no_progress (with_reducible refine Good.updTim0 ?_ rfl)
    | fail_if_no_progress (with_reducible refine Good.updRegs ?_ rfl rfl rfl rfl)
    | (intro _; try intros; try dsimp only)
    | split

theorem sendDone_good {n : Nat} {f : Frame} {s : State}
    (gs : Good pq s) : Good pq (sendDone n f s) := by
  unfold sendDone
  try dsimp only
  repeat' first
    | with_reducible assumption
    | with_reducible apply atCycle_good
    | with_reducible apply setRing_good
    | exact and_reserved (by decide)
    | exact reg_merge (by assumption) (by decide)
    | exact and_left_reserved (reg_reserved (by assumption) _)
    | with_reducible apply Good.ite
    | with_reducible apply Good.ite1
    | with_reducible apply Good.ite2
    | fail_if_no_progress (with_reducible apply Good.upd)
    | fail_if_no_progress (with_reducible refine Good.updTim ?_ rfl)
    | fail_if_no_progress (with_reducible refine Good.updTim0 ?_ rfl)
    | fail_if_no_progress (with_reducible refine Good.updRegs ?_ rfl rfl rfl rfl)
    | (intro _; try intros; try dsimp only)
    | split

theorem leaves_good {n c : Nat} {s : State}
    (gs : Good pq s) : Good pq (leaves n c s) := by
  unfold leaves
  try dsimp only
  repeat' first
    | with_reducible assumption
    | with_reducible apply setFrame_good
    | exact and_reserved (by decide)
    | exact reg_merge (by assumption) (by decide)
    | exact and_left_reserved (reg_reserved (by assumption) _)
    | with_reducible apply Good.ite
    | with_reducible apply Good.ite1
    | with_reducible apply Good.ite2
    | fail_if_no_progress (with_reducible apply Good.upd)
    | fail_if_no_progress (with_reducible refine Good.updTim ?_ rfl)
    | fail_if_no_progress (with_reducible refine Good.updTim0 ?_ rfl)
    | fail_if_no_progress (with_reducible refine Good.updRegs ?_ rfl rfl rfl rfl)
    | (intro _; try intros; try dsimp only)
    | split

theorem stampEnd_good {n : Nat} {f : Frame} {s : State}
    (gs : Good pq s) : Good pq (stampEnd n f s) := by
  unfold stampEnd
  try dsimp only
  repeat' first
    | with_reducible assumption
    | exact and_reserved (by decide)
    | exact reg_merge (by assumption) (by decide)
    | exact and_left_reserved (reg_reserved (by assumption) _)
    | with_reducible apply Good.ite
    | with_reducible apply Good.ite1
    | with_reducible apply Good.ite2
    | fail_if_no_progress (with_reducible apply Good.upd)
    | fail_if_no_progress (with_reducible refine Good.updTim ?_ rfl)
    | fail_if_no_progress (with_reducible refine Good.updTim0 ?_ rfl)
    | fail_if_no_progress (with_reducible refine Good.updRegs ?_ rfl rfl rfl rfl)
    | (intro _; try intros; try dsimp only)
    | split

theorem freeFrame_good {n : Nat} {f : Frame} {s : State}
    (gs : Good pq s) : Good pq (freeFrame n f s) := by
  unfold freeFrame
  try dsimp only
  repeat' first
    | with_reducible assumption
    | with_reducible apply freeDeep_good
    | with_reducible apply freeCellsOf_good
    | with_reducible apply addS_good
    | with_reducible apply cellsLeave_good
    | with_reducible apply sendDone_good
    | with_reducible apply stampEnd_good
    | exact and_reserved (by decide)
    | exact reg_merge (by assumption) (by decide)
    | exact and_left_reserved (reg_reserved (by assumption) _)
    | with_reducible apply Good.ite
    | with_reducible apply Good.ite1
    | with_reducible apply Good.ite2
    | fail_if_no_progress (with_reducible apply Good.upd)
    | fail_if_no_progress (with_reducible refine Good.updTim ?_ rfl)
    | fail_if_no_progress (with_reducible refine Good.updTim0 ?_ rfl)
    | fail_if_no_progress (with_reducible refine Good.updRegs ?_ rfl rfl rfl rfl)
    | (intro _; try intros; try dsimp only)

theorem release1_good {n : Nat} {s : State}
    (gs : Good pq s) : Good pq (release1 n s) := by
  unfold release1
  try dsimp only
  repeat' first
    | with_reducible assumption
    | with_reducible apply freeFrame_good
    | with_reducible apply complete_good
    | with_reducible apply setFrame_good
    | exact and_reserved (by decide)
    | exact reg_merge (by assumption) (by decide)
    | exact and_left_reserved (reg_reserved (by assumption) _)
    | with_reducible apply Good.ite
    | with_reducible apply Good.ite1
    | with_reducible apply Good.ite2
    | fail_if_no_progress (with_reducible apply Good.upd)
    | fail_if_no_progress (with_reducible refine Good.updTim ?_ rfl)
    | fail_if_no_progress (with_reducible refine Good.updTim0 ?_ rfl)
    | fail_if_no_progress (with_reducible refine Good.updRegs ?_ rfl rfl rfl rfl)
    | (intro _; try intros; try dsimp only)
    | split

theorem objDiscard_good {q : Nat} {s : State}
    (gs : Good pq s) : Good pq (objDiscard q s) := by
  unfold objDiscard
  try dsimp only
  repeat' first
    | with_reducible assumption
    | with_reducible apply objAdd_good
    | exact and_reserved (by decide)
    | exact reg_merge (by assumption) (by decide)
    | exact and_left_reserved (reg_reserved (by assumption) _)
    | with_reducible apply Good.ite
    | with_reducible apply Good.ite1
    | with_reducible apply Good.ite2
    | fail_if_no_progress (with_reducible apply Good.upd)
    | fail_if_no_progress (with_reducible refine Good.updTim ?_ rfl)
    | fail_if_no_progress (with_reducible refine Good.updTim0 ?_ rfl)
    | fail_if_no_progress (with_reducible refine Good.updRegs ?_ rfl rfl rfl rfl)
    | (intro _; try intros; try dsimp only)

theorem countQ_good {evt q : Nat} {s : State}
    (gs : Good pq s) : Good pq (countQ evt q s) := by
  unfold countQ
  try dsimp only
  repeat' first
    | with_reducible assumption
    | with_reducible apply countO_good
    | with_reducible apply count1_good
    | exact and_reserved (by decide)
    | exact reg_merge (by assumption) (by decide)
    | exact and_left_reserved (reg_reserved (by assumption) _)
    | with_reducible apply Good.ite
    | with_reducible apply Good.ite1
    | with_reducible apply Good.ite2
    | fail_if_no_progress (with_reducible apply Good.upd)
    | fail_if_no_progress (with_reducible refine Good.updTim ?_ rfl)
    | fail_if_no_progress (with_reducible refine Good.updTim0 ?_ rfl)
    | fail_if_no_progress (with_reducible refine Good.updRegs ?_ rfl rfl rfl rfl)
    | (intro _; try intros; try dsimp only)

theorem dropToken_good {q evt : Nat} {t : Token} {s : State}
    (gs : Good pq s) : Good pq (dropToken q evt t s) := by
  unfold dropToken
  try dsimp only
  repeat' first
    | with_reducible assumption
    | with_reducible apply release1_good
    | with_reducible apply addChg_good
    | with_reducible apply objDiscard_good
    | with_reducible apply countQ_good

theorem flushQueue_good {q : Nat} {s : State}
    (gs : Good pq s) : Good pq (flushQueue q s) := by
  unfold flushQueue
  try dsimp only
  repeat' first
    | with_reducible assumption
    | with_reducible apply dropToken_good
    | with_reducible apply setQueue_good
    | with_reducible apply Good.foldl
    | with_reducible apply Good.foldl1
    | with_reducible apply Good.foldl2
    | exact and_reserved (by decide)
    | exact reg_merge (by assumption) (by decide)
    | exact and_left_reserved (reg_reserved (by assumption) _)
    | with_reducible apply Good.ite
    | with_reducible apply Good.ite1
    | with_reducible apply Good.ite2
    | fail_if_no_progress (with_reducible apply Good.upd)
    | fail_if_no_progress (with_reducible refine Good.updTim ?_ rfl)
    | fail_if_no_progress (with_reducible refine Good.updTim0 ?_ rfl)
    | fail_if_no_progress (with_reducible refine Good.updRegs ?_ rfl rfl rfl rfl)
    | (intro _; try intros; try dsimp only)

theorem idleAt_good {p : Nat → Bool} {n : Nat} {s : State}
    (gs : Good pq s) : Good pq (idleAt p n s) := by
  unfold idleAt
  try dsimp only
  repeat' first
    | with_reducible assumption
    | exact and_reserved (by decide)
    | exact reg_merge (by assumption) (by decide)
    | exact and_left_reserved (reg_reserved (by assumption) _)
    | with_reducible apply Good.ite
    | with_reducible apply Good.ite1
    | with_reducible apply Good.ite2
    | fail_if_no_progress (with_reducible apply Good.upd)

theorem idleFrame_good {n : Nat} {s : State}
    (gs : Good pq s) : Good pq (idleFrame n s) := by
  unfold idleFrame
  try dsimp only
  repeat' first
    | with_reducible assumption
    | with_reducible apply idleAt_good

theorem headGone_good {q n : Nat} {s : State}
    (gs : Good pq s) : Good pq (headGone q n s) := by
  unfold headGone
  try dsimp only
  repeat' first
    | with_reducible assumption
    | exact and_reserved (by decide)
    | exact reg_merge (by assumption) (by decide)
    | exact and_left_reserved (reg_reserved (by assumption) _)
    | with_reducible apply Good.ite
    | with_reducible apply Good.ite1
    | with_reducible apply Good.ite2
    | fail_if_no_progress (with_reducible apply Good.upd)
    | fail_if_no_progress (with_reducible refine Good.updTim ?_ rfl)
    | fail_if_no_progress (with_reducible refine Good.updTim0 ?_ rfl)
    | fail_if_no_progress (with_reducible refine Good.updRegs ?_ rfl rfl rfl rfl)
    | (intro _; try intros; try dsimp only)

theorem withdraw_good {n : Nat} {s : State}
    (gs : Good pq s) : Good pq (withdraw n s) := by
  unfold withdraw
  try dsimp only
  repeat' first
    | with_reducible assumption
    | with_reducible apply release1_good
    | with_reducible apply addChg_good
    | with_reducible apply setQueue_good
    | with_reducible apply headGone_good
    | with_reducible apply Good.foldl
    | with_reducible apply Good.foldl1
    | with_reducible apply Good.foldl2
    | exact and_reserved (by decide)
    | exact reg_merge (by assumption) (by decide)
    | exact and_left_reserved (reg_reserved (by assumption) _)
    | with_reducible apply Good.ite
    | with_reducible apply Good.ite1
    | with_reducible apply Good.ite2
    | fail_if_no_progress (with_reducible apply Good.upd)
    | fail_if_no_progress (with_reducible refine Good.updTim ?_ rfl)
    | fail_if_no_progress (with_reducible refine Good.updTim0 ?_ rfl)
    | fail_if_no_progress (with_reducible refine Good.updRegs ?_ rfl rfl rfl rfl)
    | (intro _; try intros; try dsimp only)

theorem objRefuse_good {q : Nat} {s : State}
    (gs : Good pq s) : Good pq (objRefuse q s) := by
  unfold objRefuse
  try dsimp only
  repeat' first
    | with_reducible assumption
    | with_reducible apply objAdd_good
    | exact and_reserved (by decide)
    | exact reg_merge (by assumption) (by decide)
    | exact and_left_reserved (reg_reserved (by assumption) _)
    | with_reducible apply Good.ite
    | with_reducible apply Good.ite1
    | with_reducible apply Good.ite2
    | fail_if_no_progress (with_reducible apply Good.upd)
    | fail_if_no_progress (with_reducible refine Good.updTim ?_ rfl)
    | fail_if_no_progress (with_reducible refine Good.updTim0 ?_ rfl)
    | fail_if_no_progress (with_reducible refine Good.updRegs ?_ rfl rfl rfl rfl)
    | (intro _; try intros; try dsimp only)

theorem refuseQ_good {evt q : Nat} {s : State}
    (gs : Good pq s) : Good pq (refuseQ evt q s) := by
  unfold refuseQ
  try dsimp only
  repeat' first
    | with_reducible assumption
    | with_reducible apply objRefuse_good
    | with_reducible apply countQ_good

theorem wakeQ_good {q : Nat} {s : State}
    (gs : Good pq s) : Good pq (wakeQ q s) := by
  unfold wakeQ
  try dsimp only
  repeat' first
    | with_reducible assumption
    | with_reducible apply wake_good
    | exact and_reserved (by decide)
    | exact reg_merge (by assumption) (by decide)
    | exact and_left_reserved (reg_reserved (by assumption) _)
    | with_reducible apply Good.ite
    | with_reducible apply Good.ite1
    | with_reducible apply Good.ite2
    | fail_if_no_progress (with_reducible apply Good.upd)
    | fail_if_no_progress (with_reducible refine Good.updTim ?_ rfl)
    | fail_if_no_progress (with_reducible refine Good.updTim0 ?_ rfl)
    | fail_if_no_progress (with_reducible refine Good.updRegs ?_ rfl rfl rfl rfl)
    | (intro _; try intros; try dsimp only)

theorem spillRun_good {n : Nat} {s : State}
    (gs : Good pq s) : Good pq (spillRun n s) := by
  unfold spillRun
  try dsimp only
  repeat' first
    | with_reducible assumption
    | with_reducible apply atCycle_good
    | with_reducible apply count1_good
    | with_reducible apply emit_good
    | with_reducible apply Good.foldl
    | with_reducible apply Good.foldl1
    | with_reducible apply Good.foldl2
    | exact and_reserved (by decide)
    | exact reg_merge (by assumption) (by decide)
    | exact and_left_reserved (reg_reserved (by assumption) _)
    | with_reducible apply Good.ite
    | with_reducible apply Good.ite1
    | with_reducible apply Good.ite2
    | fail_if_no_progress (with_reducible apply Good.upd)
    | fail_if_no_progress (with_reducible refine Good.updTim ?_ rfl)
    | fail_if_no_progress (with_reducible refine Good.updTim0 ?_ rfl)
    | fail_if_no_progress (with_reducible refine Good.updRegs ?_ rfl rfl rfl rfl)
    | (intro _; try intros; try dsimp only)
    | split

theorem enqueue_good {q part n fa f : Nat} {s : State}
    (gs : Good pq s) : Good pq (enqueue q part n fa f s) := by
  unfold enqueue
  try dsimp only
  repeat' first
    | with_reducible assumption
    | with_reducible apply countO_good
    | with_reducible apply addChg_good
    | with_reducible apply wakeQ_good
    | with_reducible apply count1_good
    | with_reducible apply takeDeep_good
    | with_reducible apply setFrame_good
    | with_reducible apply atCycle_good
    | with_reducible apply spillRun_good
    | exact and_reserved (by decide)
    | exact reg_merge (by assumption) (by decide)
    | exact and_left_reserved (reg_reserved (by assumption) _)
    | with_reducible apply Good.ite
    | with_reducible apply Good.ite1
    | with_reducible apply Good.ite2
    | fail_if_no_progress (with_reducible apply Good.upd)
    | fail_if_no_progress (with_reducible refine Good.updTim ?_ rfl)
    | fail_if_no_progress (with_reducible refine Good.updTim0 ?_ rfl)
    | fail_if_no_progress (with_reducible refine Good.updRegs ?_ rfl rfl rfl rfl)
    | (intro _; try intros; try dsimp only)
    | split

theorem admit1_good {q part n dp fa f : Nat} {s : State}
    (gs : Good pq s) : Good pq (admit1 q part n dp fa f s).1 := by
  unfold admit1
  try dsimp only
  repeat' first
    | with_reducible assumption
    | with_reducible apply refuseQ_good
    | with_reducible apply addS_good
    | with_reducible apply setFrame_good
    | with_reducible apply enqueue_good
    | exact and_reserved (by decide)
    | exact reg_merge (by assumption) (by decide)
    | exact and_left_reserved (reg_reserved (by assumption) _)
    | with_reducible apply Good.ite
    | with_reducible apply Good.ite1
    | with_reducible apply Good.ite2
    | fail_if_no_progress (with_reducible apply Good.upd)
    | fail_if_no_progress (with_reducible refine Good.updTim ?_ rfl)
    | fail_if_no_progress (with_reducible refine Good.updTim0 ?_ rfl)
    | fail_if_no_progress (with_reducible refine Good.updRegs ?_ rfl rfl rfl rfl)
    | (intro _; try intros; try dsimp only)
    | split

theorem storeFrame_good {sec : Nat} {f : Frame} {s : State} {x} (gs : Good pq s) (ge : storeFrame sec f s = some x) :
    Good pq x.2 := by
  unfold storeFrame at ge
  split at ge
  · cases ge
  · next cells s1 e =>
    have g1 : Good pq s1 := allocN_good gs e
    cases ge
    dsimp only
    split
    · exact portCellsAdd_good (chainCells_good (Good.upd g1))
    · exact chainCells_good (Good.upd g1)

theorem storeFrame_good' {sec n : Nat} {f : Frame} {s u : State} (gs : Good pq s) (ge : storeFrame sec f s = some (n, u)) : Good pq u :=
  storeFrame_good gs ge

theorem correctCharge_good {n : Nat} {s : State}
    (gs : Good pq s) : Good pq (correctCharge n s) := by
  unfold correctCharge
  try dsimp only
  repeat' first
    | with_reducible assumption
    | with_reducible apply addChg_good
    | with_reducible apply setQueue_good
    | with_reducible apply addS_good
    | with_reducible apply setFrame_good
    | with_reducible apply Good.foldl
    | with_reducible apply Good.foldl1
    | with_reducible apply Good.foldl2
    | exact and_reserved (by decide)
    | exact reg_merge (by assumption) (by decide)
    | exact and_left_reserved (reg_reserved (by assumption) _)
    | with_reducible apply Good.ite
    | with_reducible apply Good.ite1
    | with_reducible apply Good.ite2
    | fail_if_no_progress (with_reducible apply Good.upd)
    | fail_if_no_progress (with_reducible refine Good.updTim ?_ rfl)
    | fail_if_no_progress (with_reducible refine Good.updTim0 ?_ rfl)
    | fail_if_no_progress (with_reducible refine Good.updRegs ?_ rfl rfl rfl rfl)
    | (intro _; try intros; try dsimp only)
    | split

theorem freeUnheld_good {n : Nat} {s : State}
    (gs : Good pq s) : Good pq (freeUnheld n s) := by
  unfold freeUnheld
  try dsimp only
  repeat' first
    | with_reducible assumption
    | with_reducible apply freeFrame_good
    | with_reducible apply complete_good
    | exact and_reserved (by decide)
    | exact reg_merge (by assumption) (by decide)
    | exact and_left_reserved (reg_reserved (by assumption) _)
    | with_reducible apply Good.ite
    | with_reducible apply Good.ite1
    | with_reducible apply Good.ite2
    | fail_if_no_progress (with_reducible apply Good.upd)
    | fail_if_no_progress (with_reducible refine Good.updTim ?_ rfl)
    | fail_if_no_progress (with_reducible refine Good.updTim0 ?_ rfl)
    | fail_if_no_progress (with_reducible refine Good.updRegs ?_ rfl rfl rfl rfl)
    | (intro _; try intros; try dsimp only)
    | split

theorem applyCtx_good {q : Nat} {c : W4} {s : State}
    (gs : Good pq s) : Good pq (applyCtx q c s) := by
  unfold applyCtx
  try dsimp only
  repeat' first
    | with_reducible assumption
    | with_reducible apply flushQueue_good
    | exact and_reserved (by decide)
    | exact reg_merge (by assumption) (by decide)
    | exact and_left_reserved (reg_reserved (by assumption) _)
    | with_reducible apply Good.ite
    | with_reducible apply Good.ite1
    | with_reducible apply Good.ite2
    | fail_if_no_progress (with_reducible apply Good.upd)
    | fail_if_no_progress (with_reducible refine Good.updTim ?_ rfl)
    | fail_if_no_progress (with_reducible refine Good.updTim0 ?_ rfl)
    | fail_if_no_progress (with_reducible refine Good.updRegs ?_ rfl rfl rfl rfl)
    | (intro _; try intros; try dsimp only)

theorem ctxBoundary_good {s : State}
    (gs : Good pq s) : Good pq (ctxBoundary s) := by
  unfold ctxBoundary
  try dsimp only
  repeat' first
    | with_reducible assumption
    | with_reducible apply applyCtx_good
    | with_reducible apply Good.foldl
    | with_reducible apply Good.foldl1
    | with_reducible apply Good.foldl2
    | exact and_reserved (by decide)
    | exact reg_merge (by assumption) (by decide)
    | exact and_left_reserved (reg_reserved (by assumption) _)
    | with_reducible apply Good.ite
    | with_reducible apply Good.ite1
    | with_reducible apply Good.ite2
    | fail_if_no_progress (with_reducible apply Good.upd)
    | fail_if_no_progress (with_reducible refine Good.updTim ?_ rfl)
    | fail_if_no_progress (with_reducible refine Good.updTim0 ?_ rfl)
    | fail_if_no_progress (with_reducible refine Good.updRegs ?_ rfl rfl rfl rfl)
    | (intro _; try intros; try dsimp only)

theorem putCtx_good {q : Nat} {c : W4} {s : State}
    (gs : Good pq s) : Good pq (putCtx q c s) := by
  unfold putCtx
  try dsimp only
  repeat' first
    | with_reducible assumption
    | with_reducible apply applyCtx_good
    | exact and_reserved (by decide)
    | exact reg_merge (by assumption) (by decide)
    | exact and_left_reserved (reg_reserved (by assumption) _)
    | with_reducible apply Good.ite
    | with_reducible apply Good.ite1
    | with_reducible apply Good.ite2
    | fail_if_no_progress (with_reducible apply Good.upd)
    | fail_if_no_progress (with_reducible refine Good.updTim ?_ rfl)
    | fail_if_no_progress (with_reducible refine Good.updTim0 ?_ rfl)
    | fail_if_no_progress (with_reducible refine Good.updRegs ?_ rfl rfl rfl rfl)
    | (intro _; try intros; try dsimp only)

theorem groupUe_good {g : Nat} {s : State}
    (gs : Good pq s) : Good pq (groupUe g s) := by
  unfold groupUe
  try dsimp only
  repeat' first
    | with_reducible assumption
    | with_reducible apply setGrp_good

theorem markCell_good {c : Nat} {s : State}
    (gs : Good pq s) : Good pq (markCell c s) := by
  unfold markCell
  try dsimp only
  repeat' first
    | with_reducible assumption
    | with_reducible apply setGrp_good
    | exact and_reserved (by decide)
    | exact reg_merge (by assumption) (by decide)
    | exact and_left_reserved (reg_reserved (by assumption) _)
    | with_reducible apply Good.ite
    | with_reducible apply Good.ite1
    | with_reducible apply Good.ite2
    | fail_if_no_progress (with_reducible apply Good.upd)
    | fail_if_no_progress (with_reducible refine Good.updTim ?_ rfl)
    | fail_if_no_progress (with_reducible refine Good.updTim0 ?_ rfl)
    | fail_if_no_progress (with_reducible refine Good.updRegs ?_ rfl rfl rfl rfl)
    | (intro _; try intros; try dsimp only)

theorem repairLink_good {c : Nat} {s : State}
    (gs : Good pq s) : Good pq (repairLink c s) := by
  unfold repairLink
  try dsimp only
  repeat' first
    | with_reducible assumption
    | with_reducible apply writeLink_good
    | exact and_reserved (by decide)
    | exact reg_merge (by assumption) (by decide)
    | exact and_left_reserved (reg_reserved (by assumption) _)
    | with_reducible apply Good.ite
    | with_reducible apply Good.ite1
    | with_reducible apply Good.ite2
    | fail_if_no_progress (with_reducible apply Good.upd)
    | fail_if_no_progress (with_reducible refine Good.updTim ?_ rfl)
    | fail_if_no_progress (with_reducible refine Good.updTim0 ?_ rfl)
    | fail_if_no_progress (with_reducible refine Good.updRegs ?_ rfl rfl rfl rfl)
    | (intro _; try intros; try dsimp only)
    | split

theorem breakLink_good {c : Nat} {s : State}
    (gs : Good pq s) : Good pq (breakLink c s) := by
  unfold breakLink
  try dsimp only
  repeat' first
    | with_reducible assumption
    | with_reducible apply setLink_good
    | exact and_reserved (by decide)
    | exact reg_merge (by assumption) (by decide)
    | exact and_left_reserved (reg_reserved (by assumption) _)
    | with_reducible apply Good.ite
    | with_reducible apply Good.ite1
    | with_reducible apply Good.ite2
    | fail_if_no_progress (with_reducible apply Good.upd)
    | fail_if_no_progress (with_reducible refine Good.updTim ?_ rfl)
    | fail_if_no_progress (with_reducible refine Good.updTim0 ?_ rfl)
    | fail_if_no_progress (with_reducible refine Good.updRegs ?_ rfl rfl rfl rfl)
    | (intro _; try intros; try dsimp only)
    | split

theorem scrubHit_good {h : ScrubHit} {s : State}
    (gs : Good pq s) : Good pq (scrubHit h s) := by
  unfold scrubHit
  try dsimp only
  repeat' first
    | with_reducible assumption
    | with_reducible apply countO_good
    | with_reducible apply groupUe_good
    | with_reducible apply markCell_good
    | with_reducible apply repairLink_good
    | with_reducible apply breakLink_good
    | exact and_reserved (by decide)
    | exact reg_merge (by assumption) (by decide)
    | exact and_left_reserved (reg_reserved (by assumption) _)
    | with_reducible apply Good.ite
    | with_reducible apply Good.ite1
    | with_reducible apply Good.ite2
    | fail_if_no_progress (with_reducible apply Good.upd)
    | fail_if_no_progress (with_reducible refine Good.updTim ?_ rfl)
    | fail_if_no_progress (with_reducible refine Good.updTim0 ?_ rfl)
    | fail_if_no_progress (with_reducible refine Good.updRegs ?_ rfl rfl rfl rfl)
    | (intro _; try intros; try dsimp only)
    | split

theorem scrubHits_good {hits : List ScrubHit} {s : State}
    (gs : Good pq s) : Good pq (scrubHits hits s) := by
  unfold scrubHits
  try dsimp only
  repeat' first
    | with_reducible assumption
    | with_reducible apply scrubHit_good
    | with_reducible apply autoRetire_good
    | with_reducible apply Good.foldl
    | with_reducible apply Good.foldl1
    | with_reducible apply Good.foldl2
    | exact and_reserved (by decide)
    | exact reg_merge (by assumption) (by decide)
    | exact and_left_reserved (reg_reserved (by assumption) _)
    | with_reducible apply Good.ite
    | with_reducible apply Good.ite1
    | with_reducible apply Good.ite2
    | fail_if_no_progress (with_reducible apply Good.upd)
    | fail_if_no_progress (with_reducible refine Good.updTim ?_ rfl)
    | fail_if_no_progress (with_reducible refine Good.updTim0 ?_ rfl)
    | fail_if_no_progress (with_reducible refine Good.updRegs ?_ rfl rfl rfl rfl)
    | (intro _; try intros; try dsimp only)

theorem cellFail_good {c : Nat} {s : State}
    (gs : Good pq s) : Good pq (cellFail c s) := by
  unfold cellFail
  try dsimp only
  repeat' first
    | with_reducible assumption
    | with_reducible apply autoRetire_good
    | with_reducible apply groupUe_good
    | with_reducible apply fault_good
    | with_reducible apply countO_good
    | with_reducible apply markCell_good
    | with_reducible apply useFree_good

theorem linkFail_good {n k : Nat} {s : State}
    (gs : Good pq s) : Good pq (linkFail n k s) := by
  unfold linkFail
  try dsimp only
  repeat' first
    | with_reducible assumption
    | with_reducible apply cellsLeave_good
    | with_reducible apply setFrame_good
    | with_reducible apply countN_good
    | with_reducible apply withdraw_good
    | with_reducible apply idleFrame_good
    | with_reducible apply fault_good
    | exact and_reserved (by decide)
    | exact reg_merge (by assumption) (by decide)
    | exact and_left_reserved (reg_reserved (by assumption) _)
    | with_reducible apply Good.ite
    | with_reducible apply Good.ite1
    | with_reducible apply Good.ite2
    | fail_if_no_progress (with_reducible apply Good.upd)
    | fail_if_no_progress (with_reducible refine Good.updTim ?_ rfl)
    | fail_if_no_progress (with_reducible refine Good.updTim0 ?_ rfl)
    | fail_if_no_progress (with_reducible refine Good.updRegs ?_ rfl rfl rfl rfl)
    | (intro _; try intros; try dsimp only)
    | split

theorem retireGo_good {lg : Nat} {s : State}
    (gs : Good pq s) : Good pq (retireGo lg s) := by
  unfold retireGo
  try dsimp only
  repeat' first
    | with_reducible assumption
    | exact and_reserved (by decide)
    | exact reg_merge (by assumption) (by decide)
    | exact and_left_reserved (reg_reserved (by assumption) _)
    | with_reducible apply Good.ite
    | with_reducible apply Good.ite1
    | with_reducible apply Good.ite2
    | fail_if_no_progress (with_reducible apply Good.upd)
    | fail_if_no_progress (with_reducible refine Good.updTim ?_ rfl)
    | fail_if_no_progress (with_reducible refine Good.updTim0 ?_ rfl)
    | fail_if_no_progress (with_reducible refine Good.updRegs ?_ rfl rfl rfl rfl)
    | (intro _; try intros; try dsimp only)

theorem writeRetire_good {data : Word} {s : State}
    (gs : Good pq s) : Good pq (writeRetire data s) := by
  unfold writeRetire
  try dsimp only
  repeat' first
    | with_reducible assumption
    | with_reducible apply setReg_good
    | with_reducible apply retireGo_good
    | exact and_reserved (by decide)
    | exact reg_merge (by assumption) (by decide)
    | exact and_left_reserved (reg_reserved (by assumption) _)
    | with_reducible apply Good.ite
    | with_reducible apply Good.ite1
    | with_reducible apply Good.ite2
    | fail_if_no_progress (with_reducible apply Good.upd)
    | fail_if_no_progress (with_reducible refine Good.updTim ?_ rfl)
    | fail_if_no_progress (with_reducible refine Good.updTim0 ?_ rfl)
    | fail_if_no_progress (with_reducible refine Good.updRegs ?_ rfl rfl rfl rfl)
    | (intro _; try intros; try dsimp only)

theorem retirementEnd_good {s : State}
    (gs : Good pq s) : Good pq (retirementEnd s) := by
  unfold retirementEnd
  try dsimp only
  repeat' first
    | with_reducible assumption
    | with_reducible apply setGrp_good
    | exact and_reserved (by decide)
    | exact reg_merge (by assumption) (by decide)
    | exact and_left_reserved (reg_reserved (by assumption) _)
    | with_reducible apply Good.ite
    | with_reducible apply Good.ite1
    | with_reducible apply Good.ite2
    | fail_if_no_progress (with_reducible apply Good.upd)
    | fail_if_no_progress (with_reducible refine Good.updTim ?_ rfl)
    | fail_if_no_progress (with_reducible refine Good.updTim0 ?_ rfl)
    | fail_if_no_progress (with_reducible refine Good.updRegs ?_ rfl rfl rfl rfl)
    | (intro _; try intros; try dsimp only)
    | split

theorem frameDeep_good {n : Nat} {f : Frame} {s : State}
    (gs : Good pq s) : Good pq (frameDeep n f s) := by
  unfold frameDeep
  try dsimp only
  repeat' first
    | with_reducible assumption
    | with_reducible apply freeCellsOf_good
    | with_reducible apply cellsLeave_good
    | with_reducible apply addS_good
    | with_reducible apply setFrame_good
    | exact and_reserved (by decide)
    | exact reg_merge (by assumption) (by decide)
    | exact and_left_reserved (reg_reserved (by assumption) _)
    | with_reducible apply Good.ite
    | with_reducible apply Good.ite1
    | with_reducible apply Good.ite2
    | fail_if_no_progress (with_reducible apply Good.upd)
    | fail_if_no_progress (with_reducible refine Good.updTim ?_ rfl)
    | fail_if_no_progress (with_reducible refine Good.updTim0 ?_ rfl)
    | fail_if_no_progress (with_reducible refine Good.updRegs ?_ rfl rfl rfl rfl)
    | (intro _; try intros; try dsimp only)

theorem spillEnd_good {n m est : Nat} {s : State}
    (gs : Good pq s) : Good pq (spillEnd n m est s) := by
  unfold spillEnd
  try dsimp only
  repeat' first
    | with_reducible assumption
    | with_reducible apply addChg_good
    | with_reducible apply setQueue_good
    | with_reducible apply Good.foldl
    | with_reducible apply Good.foldl1
    | with_reducible apply Good.foldl2
    | exact and_reserved (by decide)
    | exact reg_merge (by assumption) (by decide)
    | exact and_left_reserved (reg_reserved (by assumption) _)
    | with_reducible apply Good.ite
    | with_reducible apply Good.ite1
    | with_reducible apply Good.ite2
    | fail_if_no_progress (with_reducible apply Good.upd)
    | fail_if_no_progress (with_reducible refine Good.updTim ?_ rfl)
    | fail_if_no_progress (with_reducible refine Good.updTim0 ?_ rfl)
    | fail_if_no_progress (with_reducible refine Good.updRegs ?_ rfl rfl rfl rfl)
    | (intro _; try intros; try dsimp only)

theorem deepWriteAck_good {n : Nat} {err : Bool} {s : State}
    (gs : Good pq s) : Good pq (deepWriteAck n err s) := by
  unfold deepWriteAck
  try dsimp only
  repeat' first
    | with_reducible assumption
    | with_reducible apply fault_good
    | with_reducible apply count1_good
    | with_reducible apply spillEnd_good
    | with_reducible apply setFrame_good
    | with_reducible apply freeDeep_good
    | with_reducible apply frameDeep_good
    | with_reducible apply Good.foldl
    | with_reducible apply Good.foldl1
    | with_reducible apply Good.foldl2
    | exact and_reserved (by decide)
    | exact reg_merge (by assumption) (by decide)
    | exact and_left_reserved (reg_reserved (by assumption) _)
    | with_reducible apply Good.ite
    | with_reducible apply Good.ite1
    | with_reducible apply Good.ite2
    | fail_if_no_progress (with_reducible apply Good.upd)
    | fail_if_no_progress (with_reducible refine Good.updTim ?_ rfl)
    | fail_if_no_progress (with_reducible refine Good.updTim0 ?_ rfl)
    | fail_if_no_progress (with_reducible refine Good.updRegs ?_ rfl rfl rfl rfl)
    | (intro _; try intros; try dsimp only)
    | split

theorem dropDeep_good {n : Nat} {s : State}
    (gs : Good pq s) : Good pq (dropDeep n s) := by
  unfold dropDeep
  try dsimp only
  repeat' first
    | with_reducible assumption
    | with_reducible apply setFrame_good
    | with_reducible apply freeDeep_good
    | exact and_reserved (by decide)
    | exact reg_merge (by assumption) (by decide)
    | exact and_left_reserved (reg_reserved (by assumption) _)
    | with_reducible apply Good.ite
    | with_reducible apply Good.ite1
    | with_reducible apply Good.ite2
    | fail_if_no_progress (with_reducible apply Good.upd)
    | fail_if_no_progress (with_reducible refine Good.updTim ?_ rfl)
    | fail_if_no_progress (with_reducible refine Good.updTim0 ?_ rfl)
    | fail_if_no_progress (with_reducible refine Good.updRegs ?_ rfl rfl rfl rfl)
    | (intro _; try intros; try dsimp only)
    | split

theorem endFetch_good {x : DeepFetch} {s : State}
    (gs : Good pq s) : Good pq (endFetch x s) := by
  unfold endFetch
  try dsimp only
  repeat' first
    | with_reducible assumption
    | exact and_reserved (by decide)
    | exact reg_merge (by assumption) (by decide)
    | exact and_left_reserved (reg_reserved (by assumption) _)
    | with_reducible apply Good.ite
    | with_reducible apply Good.ite1
    | with_reducible apply Good.ite2
    | fail_if_no_progress (with_reducible apply Good.upd)

theorem fetchLost_good {x : DeepFetch} {s : State}
    (gs : Good pq s) : Good pq (fetchLost x s) := by
  unfold fetchLost
  try dsimp only
  repeat' first
    | with_reducible assumption
    | with_reducible apply dropDeep_good
    | with_reducible apply idleAt_good
    | with_reducible apply countO_good
    | with_reducible apply endFetch_good

theorem pumpFetch_good {n : Nat} {s : State} (gs : Good pq s) : Good pq (pumpFetch n s) := by
  induction n generalizing s with
  | zero => exact gs
  | succ n ih =>
    rw [pumpFetch]
    split
    · exact gs
    · refine Good.ite (fun _ => Good.ite (fun _ => gs) fun _ => atCycle_good gs) fun _ => ?_
      extract_lets issue s1
      have g1 : Good pq s1 := by
        show Good pq (match _ with | some f => issue s f | none => s)
        split
        · exact Good.foldl gs fun s c gs => count1_good (emit_good gs)
        · exact gs
      exact ih (Good.upd g1)

theorem pumpFetches_good {s : State}
    (gs : Good pq s) : Good pq (pumpFetches s) := by
  unfold pumpFetches
  try dsimp only
  repeat' first
    | with_reducible assumption
    | with_reducible apply pumpFetch_good

theorem startFetch_good {x : DeepFetch} {s : State}
    (gs : Good pq s) : Good pq (startFetch x s) := by
  unfold startFetch
  try dsimp only
  repeat' first
    | with_reducible assumption
    | exact and_reserved (by decide)
    | exact reg_merge (by assumption) (by decide)
    | exact and_left_reserved (reg_reserved (by assumption) _)
    | with_reducible apply Good.ite
    | with_reducible apply Good.ite1
    | with_reducible apply Good.ite2
    | fail_if_no_progress (with_reducible apply Good.upd)

theorem renameTus_good {q n m : Nat} {s : State}
    (gs : Good pq s) : Good pq (renameTus q n m s) := by
  unfold renameTus
  try dsimp only
  repeat' first
    | with_reducible assumption
    | exact and_reserved (by decide)
    | exact reg_merge (by assumption) (by decide)
    | exact and_left_reserved (reg_reserved (by assumption) _)
    | with_reducible apply Good.ite
    | with_reducible apply Good.ite1
    | with_reducible apply Good.ite2
    | fail_if_no_progress (with_reducible apply Good.upd)

theorem deepReadReturn_good {n : Nat} {err crc : Bool} {s : State} (gs : Good pq s) : Good pq (deepReadReturn n err crc s) := by
  unfold deepReadReturn
  split
  · exact gs
  · next x _ =>
    have g1 : Good pq (endFetch x s) := endFetch_good gs
    split
    · exact g1
    · next f _ =>
      refine Good.ite (fun _ => fault_good (count1_good (fetchLost_good gs))) fun _ => ?_
      extract_lets s1
      split
      · next cells s2 e =>
        have g2 : Good pq s2 := by
          split at e
          · exact allocN_good g1 e
          · cases e
        extract_lets s3 got m s4
        have g3 : Good pq s3 := chainCells_good (by
          split
          · exact portCellsAdd_good g2
          · exact g2)
        clear_value s3
        exact Good.ite (fun _ => addChg_good (setFrame_good (freeDeep_good g3)))
          fun _ => addChg_good (renameTus_good (Good.upd (setFrame_good (setFrame_good g3))))
      · exact dropDeep_good (idleAt_good g1)

theorem deepReadLate_good {n : Nat} {s : State}
    (gs : Good pq s) : Good pq (deepReadLate n s) := by
  unfold deepReadLate
  try dsimp only
  repeat' first
    | with_reducible assumption
    | with_reducible apply fetchLost_good
    | exact and_reserved (by decide)
    | exact reg_merge (by assumption) (by decide)
    | exact and_left_reserved (reg_reserved (by assumption) _)
    | with_reducible apply Good.ite
    | with_reducible apply Good.ite1
    | with_reducible apply Good.ite2
    | fail_if_no_progress (with_reducible apply Good.upd)
    | fail_if_no_progress (with_reducible refine Good.updTim ?_ rfl)
    | fail_if_no_progress (with_reducible refine Good.updTim0 ?_ rfl)
    | fail_if_no_progress (with_reducible refine Good.updRegs ?_ rfl rfl rfl rfl)
    | (intro _; try intros; try dsimp only)
    | split

theorem deepLates_good {s : State}
    (gs : Good pq s) : Good pq (deepLates s) := by
  unfold deepLates
  try dsimp only
  repeat' first
    | with_reducible assumption
    | with_reducible apply fetchLost_good
    | with_reducible apply Good.foldl
    | with_reducible apply Good.foldl1
    | with_reducible apply Good.foldl2
    | exact and_reserved (by decide)
    | exact reg_merge (by assumption) (by decide)
    | exact and_left_reserved (reg_reserved (by assumption) _)
    | with_reducible apply Good.ite
    | with_reducible apply Good.ite1
    | with_reducible apply Good.ite2
    | fail_if_no_progress (with_reducible apply Good.upd)
    | fail_if_no_progress (with_reducible refine Good.updTim ?_ rfl)
    | fail_if_no_progress (with_reducible refine Good.updTim0 ?_ rfl)
    | fail_if_no_progress (with_reducible refine Good.updRegs ?_ rfl rfl rfl rfl)
    | (intro _; try intros; try dsimp only)

end Sys2Proof.Machine
end

