-- ==== Sys2Proof/Laws/GoodFrame.lean ====
section
/-!
SUPPORT. What each operation of Machine/Frame.lean keeps (Laws/Good.lean).
-/

namespace Sys2Proof.Machine

-- one declaration at a time: the package is compiled as one text within a limit of memory
set_option Elab.async false

variable {pq : Ghost}


end Sys2Proof.Machine
end

