-- ==== Sys2Proof/Laws/GoodClassify.lean ====
section
/-!
SUPPORT. What each operation of Machine/Classify.lean keeps (Laws/Good.lean).
-/

namespace Sys2Proof.Machine

-- one declaration at a time: the package is compiled as one text within a limit of memory
set_option Elab.async false

variable {pq : Ghost}

theorem meterCharge_good {k n : Nat} {yellow : Bool} {s : State}
    (gs : Good pq s) : Good pq (meterCharge k n yellow s) := by
  unfold meterCharge
  try extract_lets
  repeat' first
    | with_reducible assumption
    | exact and_reserved (by decide)
    | exact reg_merge (by assumption) (by decide)
    | exact and_left_reserved (reg_reserved (by assumption) _)
    | with_reducible apply Good.ite
    | with_reducible apply Good.ite1
    | with_reducible apply Good.ite2
    | fail_if_no_progress (with_reducible apply Good.upd)

theorem meterTest_good {c : CIn} {m : Nat} {s : State}
    (gs : Good pq s) : Good pq (meterTest c m s).1 := by
  unfold meterTest
  try extract_lets
  repeat' first
    | with_reducible assumption
    | with_reducible apply meterCharge_good
    | with_reducible apply atCycle_good
    | with_reducible apply countO_good
    | exact and_reserved (by decide)
    | exact reg_merge (by assumption) (by decide)
    | exact and_left_reserved (reg_reserved (by assumption) _)
    | with_reducible apply Good.ite
    | with_reducible apply Good.ite1
    | with_reducible apply Good.ite2
    | fail_if_no_progress (with_reducible apply Good.upd)
    | fail_if_no_progress (with_reducible refine Good.updTim ?_ rfl)
    | fail_if_no_progress (with_reducible refine Good.updTim0 ?_ rfl)
    | fail_if_no_progress (with_reducible refine Good.updRegs ?_ rfl rfl rfl rfl)
    | (intro _; try intros; try extract_lets)

theorem resolve_good {c : CIn} {m : CMid} {k t : Nat} {mark : Option Nat} {h : Nat} {s : State}
    (gs : Good pq s) : Good pq (resolve c m k t mark h s).1 := by
  unfold resolve
  try extract_lets
  repeat' first
    | with_reducible assumption
    | with_reducible apply partViol_good
    | with_reducible apply countO_good
    | exact and_reserved (by decide)
    | exact reg_merge (by assumption) (by decide)
    | exact and_left_reserved (reg_reserved (by assumption) _)
    | with_reducible apply Good.ite
    | with_reducible apply Good.ite1
    | with_reducible apply Good.ite2
    | fail_if_no_progress (with_reducible apply Good.upd)
    | fail_if_no_progress (with_reducible refine Good.updTim ?_ rfl)
    | fail_if_no_progress (with_reducible refine Good.updTim0 ?_ rfl)
    | fail_if_no_progress (with_reducible refine Good.updRegs ?_ rfl rfl rfl rfl)
    | (intro _; try intros; try extract_lets)
    | split

theorem wakeTarget_good {t : Target} {s : State}
    (gs : Good pq s) : Good pq (wakeTarget t s) := by
  unfold wakeTarget
  try extract_lets
  repeat' first
    | with_reducible assumption
    | with_reducible apply wake_good
    | exact and_reserved (by decide)
    | exact reg_merge (by assumption) (by decide)
    | exact and_left_reserved (reg_reserved (by assumption) _)
    | with_reducible apply Good.ite
    | with_reducible apply Good.ite1
    | with_reducible apply Good.ite2
    | fail_if_no_progress (with_reducible apply Good.upd)
    | fail_if_no_progress (with_reducible refine Good.updTim ?_ rfl)
    | fail_if_no_progress (with_reducible refine Good.updTim0 ?_ rfl)
    | fail_if_no_progress (with_reducible refine Good.updRegs ?_ rfl rfl rfl rfl)
    | (intro _; try intros; try extract_lets)
    | split

theorem meterUe_good {cap : Word} {s : State}
    (gs : Good pq s) : Good pq (meterUe cap s) := by
  unfold meterUe
  try extract_lets
  repeat' first
    | with_reducible assumption
    | with_reducible apply fault_good
    | exact and_reserved (by decide)
    | exact reg_merge (by assumption) (by decide)
    | exact and_left_reserved (reg_reserved (by assumption) _)
    | with_reducible apply Good.ite
    | with_reducible apply Good.ite1
    | with_reducible apply Good.ite2
    | fail_if_no_progress (with_reducible apply Good.upd)

theorem actOn_good {c : CIn} {mid : CMid} {ipck l4 act : Nat} {s : State} (gs : Good pq s) : Good pq (actOn c mid ipck l4 act s).1 := by
  unfold actOn
  extract_lets a0 a1 a2 mt red dp mark hash fw s4 fwd cp s5 mw mk mir l4drop s6 qs s7
  have gm : Good pq mt.1 := Good.ite1 (fun _ => meterTest_good gs) fun _ => gs
  clear_value mt
  have gf : Good pq fw.1 := resolve_good gm
  clear_value fw
  have g4 : Good pq s4 := Good.ite (fun _ => wakeTarget_good gf) fun _ => gf
  clear_value s4
  have gc : Good pq cp.1 := Good.ite1 (fun _ => resolve_good g4) fun _ => g4
  clear_value cp
  have g5 : Good pq s5 := Good.ite (fun _ => wake_good gc) fun _ => gc
  clear_value s5
  have gr : Good pq mir.1 := Good.ite1 (fun _ => resolve_good g5) fun _ => g5
  clear_value mir
  have g6 : Good pq s6 := Good.ite (fun _ => countO_good gr) fun _ => gr
  exact Good.ite (fun _ => countO_good g6) fun _ => g6

theorem classify_good {c : CIn} {ue : Option Word} {em : Option (Option EmEntry)} {s : State}
    (gs : Good pq s) : Good pq (classify c ue em s).1 := by
  unfold classify
  extract_lets dir ue0 s0 w body h ipck l4v l4 mid0 key hit mid s1 final rule s2 defs act
  have g0 : Good pq s0 := countO_good (by
    cases Option.filter (fun x => fld x 28 4 == 13) ue with
    | none => exact gs
    | some x => exact meterUe_good gs)
  clear_value s0
  have g1 : Good pq s1 := by
    repeat' first | exact countO_good g0 | with_reducible apply Good.ite | intro _
  have g2 : Good pq s2 := by
    clear_value s1 rule
    cases rule with
    | none => exact g1
    | some r => exact countO_good g1
  clear_value s2
  split
  · exact fault_good (countO_good g2)
  · exact actOn_good g2

theorem missSlice_good {i : Nat} {s : State}
    (gs : Good pq s) : Good pq (missSlice i s) := by
  unfold missSlice
  try extract_lets
  repeat' first
    | with_reducible assumption
    | with_reducible apply setPdom_good
    | exact and_reserved (by decide)
    | exact reg_merge (by assumption) (by decide)
    | exact and_left_reserved (reg_reserved (by assumption) _)
    | with_reducible apply Good.ite
    | with_reducible apply Good.ite1
    | with_reducible apply Good.ite2
    | fail_if_no_progress (with_reducible apply Good.upd)
    | fail_if_no_progress (with_reducible refine Good.updTim ?_ rfl)
    | fail_if_no_progress (with_reducible refine Good.updTim0 ?_ rfl)
    | fail_if_no_progress (with_reducible refine Good.updRegs ?_ rfl rfl rfl rfl)
    | (intro _; try intros; try extract_lets)

theorem missSlices_good {s : State}
    (gs : Good pq s) : Good pq (missSlices s) := by
  unfold missSlices
  try extract_lets
  repeat' first
    | with_reducible assumption
    | with_reducible apply missSlice_good
    | with_reducible apply Good.foldl
    | with_reducible apply Good.foldl1
    | with_reducible apply Good.foldl2
    | exact and_reserved (by decide)
    | exact reg_merge (by assumption) (by decide)
    | exact and_left_reserved (reg_reserved (by assumption) _)
    | with_reducible apply Good.ite
    | with_reducible apply Good.ite1
    | with_reducible apply Good.ite2
    | fail_if_no_progress (with_reducible apply Good.upd)
    | fail_if_no_progress (with_reducible refine Good.updTim ?_ rfl)
    | fail_if_no_progress (with_reducible refine Good.updTim0 ?_ rfl)
    | fail_if_no_progress (with_reducible refine Good.updRegs ?_ rfl rfl rfl rfl)
    | (intro _; try intros; try extract_lets)

theorem settleMeter_good {k : Nat} {s : State}
    (gs : Good pq s) : Good pq (settleMeter k s) := by
  unfold settleMeter
  try extract_lets
  repeat' first
    | with_reducible assumption
    | exact and_reserved (by decide)
    | exact reg_merge (by assumption) (by decide)
    | exact and_left_reserved (reg_reserved (by assumption) _)
    | with_reducible apply Good.ite
    | with_reducible apply Good.ite1
    | with_reducible apply Good.ite2
    | fail_if_no_progress (with_reducible apply Good.upd)

theorem clsWrite_good {page up : Bool} {tbl e : Nat} {ws : List Word} {s : State}
    (gs : Good pq s) : Good pq (clsWrite page up tbl e ws s) := by
  unfold clsWrite
  try extract_lets
  repeat' first
    | with_reducible assumption
    | with_reducible apply settleMeter_good
    | with_reducible apply missSlices_good
    | exact and_reserved (by decide)
    | exact reg_merge (by assumption) (by decide)
    | exact and_left_reserved (reg_reserved (by assumption) _)
    | with_reducible apply Good.ite
    | with_reducible apply Good.ite1
    | with_reducible apply Good.ite2
    | fail_if_no_progress (with_reducible apply Good.upd)
    | fail_if_no_progress (with_reducible refine Good.updTim ?_ rfl)
    | fail_if_no_progress (with_reducible refine Good.updTim0 ?_ rfl)
    | fail_if_no_progress (with_reducible refine Good.updRegs ?_ rfl rfl rfl rfl)
    | (intro _; try intros; try extract_lets)

theorem clipMeters_good {s : State}
    (gs : Good pq s) : Good pq (clipMeters s) := by
  unfold clipMeters
  try extract_lets
  repeat' first
    | with_reducible assumption
    | with_reducible apply settleMeter_good
    | with_reducible apply Good.foldl
    | with_reducible apply Good.foldl1
    | with_reducible apply Good.foldl2
    | exact and_reserved (by decide)
    | exact reg_merge (by assumption) (by decide)
    | exact and_left_reserved (reg_reserved (by assumption) _)
    | with_reducible apply Good.ite
    | with_reducible apply Good.ite1
    | with_reducible apply Good.ite2
    | fail_if_no_progress (with_reducible apply Good.upd)
    | fail_if_no_progress (with_reducible refine Good.updTim ?_ rfl)
    | fail_if_no_progress (with_reducible refine Good.updTim0 ?_ rfl)
    | fail_if_no_progress (with_reducible refine Good.updRegs ?_ rfl rfl rfl rfl)
    | (intro _; try intros; try extract_lets)

theorem clsSwapNow_good {s : State}
    (gs : Good pq s) : Good pq (clsSwapNow s) := by
  unfold clsSwapNow
  try extract_lets
  repeat' first
    | with_reducible assumption
    | with_reducible apply clipMeters_good
    | with_reducible apply missSlices_good
    | exact and_reserved (by decide)
    | exact reg_merge (by assumption) (by decide)
    | exact and_left_reserved (reg_reserved (by assumption) _)
    | with_reducible apply Good.ite
    | with_reducible apply Good.ite1
    | with_reducible apply Good.ite2
    | fail_if_no_progress (with_reducible apply Good.upd)

theorem clsSync_good {s : State}
    (gs : Good pq s) : Good pq (clsSync s) := by
  unfold clsSync
  try extract_lets
  repeat' first
    | with_reducible assumption
    | with_reducible apply Good.foldl
    | with_reducible apply Good.foldl1
    | with_reducible apply Good.foldl2
    | exact and_reserved (by decide)
    | exact reg_merge (by assumption) (by decide)
    | exact and_left_reserved (reg_reserved (by assumption) _)
    | with_reducible apply Good.ite
    | with_reducible apply Good.ite1
    | with_reducible apply Good.ite2
    | fail_if_no_progress (with_reducible apply Good.upd)
    | fail_if_no_progress (with_reducible refine Good.updTim ?_ rfl)
    | fail_if_no_progress (with_reducible refine Good.updTim0 ?_ rfl)
    | fail_if_no_progress (with_reducible refine Good.updRegs ?_ rfl rfl rfl rfl)
    | (intro _; try intros; try extract_lets)

theorem ueRewrite_good {cap : Word} {clean : Bool} {s : State}
    (gs : Good pq s) : Good pq (ueRewrite cap clean s) := by
  unfold ueRewrite
  try extract_lets
  repeat' first
    | with_reducible assumption
    | with_reducible apply fault_good
    | exact and_reserved (by decide)
    | exact reg_merge (by assumption) (by decide)
    | exact and_left_reserved (reg_reserved (by assumption) _)
    | with_reducible apply Good.ite
    | with_reducible apply Good.ite1
    | with_reducible apply Good.ite2
    | fail_if_no_progress (with_reducible apply Good.upd)
    | fail_if_no_progress (with_reducible refine Good.updTim ?_ rfl)
    | fail_if_no_progress (with_reducible refine Good.updTim0 ?_ rfl)
    | fail_if_no_progress (with_reducible refine Good.updRegs ?_ rfl rfl rfl rfl)
    | (intro _; try intros; try extract_lets)

theorem emPut_good {l : List EmEntry} {s : State}
    (gs : Good pq s) : Good pq (emPut l s) := by
  unfold emPut
  try extract_lets
  repeat' first
    | with_reducible assumption
    | with_reducible apply missSlices_good
    | exact and_reserved (by decide)
    | exact reg_merge (by assumption) (by decide)
    | exact and_left_reserved (reg_reserved (by assumption) _)
    | with_reducible apply Good.ite
    | with_reducible apply Good.ite1
    | with_reducible apply Good.ite2
    | fail_if_no_progress (with_reducible apply Good.upd)

theorem emClean_good {e : EmEntry} {s : State}
    (gs : Good pq s) : Good pq (emClean e s) := by
  unfold emClean
  try extract_lets
  repeat' first
    | with_reducible assumption
    | exact and_reserved (by decide)
    | exact reg_merge (by assumption) (by decide)
    | exact and_left_reserved (reg_reserved (by assumption) _)
    | with_reducible apply Good.ite
    | with_reducible apply Good.ite1
    | with_reducible apply Good.ite2
    | fail_if_no_progress (with_reducible apply Good.upd)

theorem emDo_good {op : Nat} {e : EmEntry} {s : State}
    (gs : Good pq s) : Good pq (emDo op e s).1 := by
  unfold emDo
  try extract_lets
  repeat' first
    | with_reducible assumption
    | with_reducible apply emPut_good
    | with_reducible apply emClean_good
    | exact and_reserved (by decide)
    | exact reg_merge (by assumption) (by decide)
    | exact and_left_reserved (reg_reserved (by assumption) _)
    | with_reducible apply Good.ite
    | with_reducible apply Good.ite1
    | with_reducible apply Good.ite2
    | fail_if_no_progress (with_reducible apply Good.upd)
    | fail_if_no_progress (with_reducible refine Good.updTim ?_ rfl)
    | fail_if_no_progress (with_reducible refine Good.updTim0 ?_ rfl)
    | fail_if_no_progress (with_reducible refine Good.updRegs ?_ rfl rfl rfl rfl)
    | (intro _; try intros; try extract_lets)

end Sys2Proof.Machine
end

