-- ==== Sys2Proof/Laws/GoodThrough.lean ====
section
/-!
SUPPORT. What each operation of Machine/Through.lean keeps (Laws/Good.lean).
-/

namespace Sys2Proof.Machine

-- one declaration at a time: the package is compiled as one text within a limit of memory
set_option Elab.async false

variable {pq : Ghost}

theorem setUpl_good {p : Nat} {u : Upl} {s : State}
    (gs : Good pq s) : Good pq (setUpl p u s) := by
  unfold setUpl
  try extract_lets
  repeat' first
    | with_reducible assumption
    | exact and_reserved (by decide)
    | exact reg_merge (by assumption) (by decide)
    | exact and_left_reserved (reg_reserved (by assumption) _)
    | with_reducible apply Good.ite
    | with_reducible apply Good.ite1
    | with_reducible apply Good.ite2
    | fail_if_no_progress (with_reducible apply Good.upd)

theorem modUpl_good {p : Nat} {f : Upl → Upl} {s : State}
    (gs : Good pq s) : Good pq (modUpl p f s) := by
  unfold modUpl
  try extract_lets
  repeat' first
    | with_reducible assumption
    | with_reducible apply setUpl_good

end Sys2Proof.Machine
end

