-- ==== Sys2Proof/Laws/GoodIngress.lean ====
section
/-!
SUPPORT. What each operation of Machine/Ingress.lean keeps (Laws/Good.lean).
-/

namespace Sys2Proof.Machine

-- one declaration at a time: the package is compiled as one text within a limit of memory
set_option Elab.async false

variable {pq : Ghost}

theorem laneRetire8_good {i d lanes : Nat} {s : State}
    (gs : Good pq s) : Good pq (laneRetire8 i d lanes s) := by
  unfold laneRetire8
  try extract_lets
  repeat' first
    | with_reducible assumption
    | with_reducible apply laneMod_good
    | exact and_reserved (by decide)
    | exact reg_merge (by assumption) (by decide)
    | exact and_left_reserved (reg_reserved (by assumption) _)
    | with_reducible apply Good.ite
    | with_reducible apply Good.ite1
    | with_reducible apply Good.ite2
    | fail_if_no_progress (with_reducible apply Good.upd)
    | fail_if_no_progress (with_reducible refine Good.updTim ?_ rfl)
    | fail_if_no_progress (with_reducible refine Good.updTim0 ?_ rfl)
    | fail_if_no_progress (with_reducible refine Good.updRegs ?_ rfl rfl rfl rfl)
    | (intro _; try intros; try extract_lets)

theorem laneWaste8_good {i d lanes evt : Nat} {s : State}
    (gs : Good pq s) : Good pq (laneWaste8 i d lanes evt s) := by
  unfold laneWaste8
  try extract_lets
  repeat' first
    | with_reducible assumption
    | with_reducible apply countO_good
    | with_reducible apply laneMod_good
    | exact and_reserved (by decide)
    | exact reg_merge (by assumption) (by decide)
    | exact and_left_reserved (reg_reserved (by assumption) _)
    | with_reducible apply Good.ite
    | with_reducible apply Good.ite1
    | with_reducible apply Good.ite2
    | fail_if_no_progress (with_reducible apply Good.upd)
    | fail_if_no_progress (with_reducible refine Good.updTim ?_ rfl)
    | fail_if_no_progress (with_reducible refine Good.updTim0 ?_ rfl)
    | fail_if_no_progress (with_reducible refine Good.updRegs ?_ rfl rfl rfl rfl)
    | (intro _; try intros; try extract_lets)

theorem laneWaste_good {i d n evt : Nat} {s : State}
    (gs : Good pq s) : Good pq (laneWaste i d n evt s) := by
  unfold laneWaste
  try extract_lets
  repeat' first
    | with_reducible assumption
    | with_reducible apply laneWaste8_good

theorem lanePend_good {i d n : Nat} {s : State}
    (gs : Good pq s) : Good pq (lanePend i d n s) := by
  unfold lanePend
  try extract_lets
  repeat' first
    | with_reducible assumption
    | with_reducible apply laneMod_good
    | exact and_reserved (by decide)
    | exact reg_merge (by assumption) (by decide)
    | exact and_left_reserved (reg_reserved (by assumption) _)
    | with_reducible apply Good.ite
    | with_reducible apply Good.ite1
    | with_reducible apply Good.ite2
    | fail_if_no_progress (with_reducible apply Good.upd)
    | fail_if_no_progress (with_reducible refine Good.updTim ?_ rfl)
    | fail_if_no_progress (with_reducible refine Good.updTim0 ?_ rfl)
    | fail_if_no_progress (with_reducible refine Good.updRegs ?_ rfl rfl rfl rfl)
    | (intro _; try intros; try extract_lets)

theorem laneSettle_good {i d n : Nat} {s : State}
    (gs : Good pq s) : Good pq (laneSettle i d n s) := by
  unfold laneSettle
  try extract_lets
  repeat' first
    | with_reducible assumption
    | with_reducible apply laneMod_good
    | exact and_reserved (by decide)
    | exact reg_merge (by assumption) (by decide)
    | exact and_left_reserved (reg_reserved (by assumption) _)
    | with_reducible apply Good.ite
    | with_reducible apply Good.ite1
    | with_reducible apply Good.ite2
    | fail_if_no_progress (with_reducible apply Good.upd)
    | fail_if_no_progress (with_reducible refine Good.updTim ?_ rfl)
    | fail_if_no_progress (with_reducible refine Good.updTim0 ?_ rfl)
    | fail_if_no_progress (with_reducible refine Good.updRegs ?_ rfl rfl rfl rfl)
    | (intro _; try intros; try extract_lets)

theorem secPlace_good {i d n : Nat} {s : State}
    (gs : Good pq s) : Good pq (secPlace i d n s) := by
  unfold secPlace
  try extract_lets
  repeat' first
    | with_reducible assumption
    | with_reducible apply countO_good
    | with_reducible apply laneMod_good
    | exact and_reserved (by decide)
    | exact reg_merge (by assumption) (by decide)
    | exact and_left_reserved (reg_reserved (by assumption) _)
    | with_reducible apply Good.ite
    | with_reducible apply Good.ite1
    | with_reducible apply Good.ite2
    | fail_if_no_progress (with_reducible apply Good.upd)
    | fail_if_no_progress (with_reducible refine Good.updTim ?_ rfl)
    | fail_if_no_progress (with_reducible refine Good.updTim0 ?_ rfl)
    | fail_if_no_progress (with_reducible refine Good.updRegs ?_ rfl rfl rfl rfl)
    | (intro _; try intros; try extract_lets)

theorem repAdd_good {i : Nat} {up : Bool} {e : RepEntry} {s : State}
    (gs : Good pq s) : Good pq (repAdd i up e s) := by
  unfold repAdd
  try extract_lets
  repeat' first
    | with_reducible assumption
    | with_reducible apply count1_good
    | exact and_reserved (by decide)
    | exact reg_merge (by assumption) (by decide)
    | exact and_left_reserved (reg_reserved (by assumption) _)
    | with_reducible apply Good.ite
    | with_reducible apply Good.ite1
    | with_reducible apply Good.ite2
    | fail_if_no_progress (with_reducible apply Good.upd)
    | fail_if_no_progress (with_reducible refine Good.updTim ?_ rfl)
    | fail_if_no_progress (with_reducible refine Good.updTim0 ?_ rfl)
    | fail_if_no_progress (with_reducible refine Good.updRegs ?_ rfl rfl rfl rfl)
    | (intro _; try intros; try extract_lets)

theorem admitTo_good {q part n dp fa f : Nat} {s : State}
    (gs : Good pq s) : Good pq (admitTo q part n dp fa f s).1 := by
  unfold admitTo
  try extract_lets
  repeat' first
    | with_reducible assumption
    | with_reducible apply admit1_good
    | with_reducible apply flushQueue_good
    | exact and_reserved (by decide)
    | exact reg_merge (by assumption) (by decide)
    | exact and_left_reserved (reg_reserved (by assumption) _)
    | with_reducible apply Good.ite
    | with_reducible apply Good.ite1
    | with_reducible apply Good.ite2
    | fail_if_no_progress (with_reducible apply Good.upd)
    | fail_if_no_progress (with_reducible refine Good.updTim ?_ rfl)
    | fail_if_no_progress (with_reducible refine Good.updTim0 ?_ rfl)
    | fail_if_no_progress (with_reducible refine Good.updRegs ?_ rfl rfl rfl rfl)
    | (intro _; try intros; try extract_lets)

theorem admitRec_good {i : Nat} {up : Bool} {page : Bool} {n ino dp fa f : Nat} {qs : List (Nat × Nat)} {s : State}
    (gs : Good pq s) : Good pq (admitRec i up page n ino dp fa f qs s) := by
  unfold admitRec
  try extract_lets
  repeat' first
    | with_reducible assumption
    | with_reducible apply admitTo_good
    | with_reducible apply repAdd_good
    | with_reducible apply Good.foldl
    | with_reducible apply Good.foldl1
    | with_reducible apply Good.foldl2
    | exact and_reserved (by decide)
    | exact reg_merge (by assumption) (by decide)
    | exact and_left_reserved (reg_reserved (by assumption) _)
    | with_reducible apply Good.ite
    | with_reducible apply Good.ite1
    | with_reducible apply Good.ite2
    | fail_if_no_progress (with_reducible apply Good.upd)
    | fail_if_no_progress (with_reducible refine Good.updTim ?_ rfl)
    | fail_if_no_progress (with_reducible refine Good.updTim0 ?_ rfl)
    | fail_if_no_progress (with_reducible refine Good.updRegs ?_ rfl rfl rfl rfl)
    | (intro _; try intros; try extract_lets)

theorem withdrawIf_good {n : Nat} {p : Nat → Bool} {s : State}
    (gs : Good pq s) : Good pq (withdrawIf n p s) := by
  unfold withdrawIf
  try extract_lets
  repeat' first
    | with_reducible assumption
    | with_reducible apply release1_good
    | with_reducible apply addChg_good
    | with_reducible apply setQueue_good
    | with_reducible apply headGone_good
    | with_reducible apply Good.foldl
    | with_reducible apply Good.foldl1
    | with_reducible apply Good.foldl2
    | exact and_reserved (by decide)
    | exact reg_merge (by assumption) (by decide)
    | exact and_left_reserved (reg_reserved (by assumption) _)
    | with_reducible apply Good.ite
    | with_reducible apply Good.ite1
    | with_reducible apply Good.ite2
    | fail_if_no_progress (with_reducible apply Good.upd)
    | fail_if_no_progress (with_reducible refine Good.updTim ?_ rfl)
    | fail_if_no_progress (with_reducible refine Good.updTim0 ?_ rfl)
    | fail_if_no_progress (with_reducible refine Good.updRegs ?_ rfl rfl rfl rfl)
    | (intro _; try intros; try extract_lets)

theorem noteLate_good {n : Nat} {late : List Nat} {s : State}
    (gs : Good pq s) : Good pq (noteLate n late s) := by
  unfold noteLate
  try extract_lets
  repeat' first
    | with_reducible assumption
    | with_reducible apply setFrame_good
    | exact and_reserved (by decide)
    | exact reg_merge (by assumption) (by decide)
    | exact and_left_reserved (reg_reserved (by assumption) _)
    | with_reducible apply Good.ite
    | with_reducible apply Good.ite1
    | with_reducible apply Good.ite2
    | fail_if_no_progress (with_reducible apply Good.upd)
    | fail_if_no_progress (with_reducible refine Good.updTim ?_ rfl)
    | fail_if_no_progress (with_reducible refine Good.updTim0 ?_ rfl)
    | fail_if_no_progress (with_reducible refine Good.updRegs ?_ rfl rfl rfl rfl)
    | (intro _; try intros; try extract_lets)
    | split

theorem verdict_good {n i d lanes : Nat} {l4 : Bool} {s : State}
    (gs : Good pq s) : Good pq (verdict n i d lanes l4 s) := by
  unfold verdict
  try extract_lets
  repeat' first
    | with_reducible assumption
    | with_reducible apply laneRetire8_good
    | with_reducible apply correctCharge_good
    | with_reducible apply withdrawIf_good
    | with_reducible apply idleFrame_good
    | with_reducible apply freeUnheld_good
    | with_reducible apply laneWaste8_good
    | exact and_reserved (by decide)
    | exact reg_merge (by assumption) (by decide)
    | exact and_left_reserved (reg_reserved (by assumption) _)
    | with_reducible apply Good.ite
    | with_reducible apply Good.ite1
    | with_reducible apply Good.ite2
    | fail_if_no_progress (with_reducible apply Good.upd)
    | fail_if_no_progress (with_reducible refine Good.updTim ?_ rfl)
    | fail_if_no_progress (with_reducible refine Good.updTim0 ?_ rfl)
    | fail_if_no_progress (with_reducible refine Good.updRegs ?_ rfl rfl rfl rfl)
    | (intro _; try intros; try extract_lets)
    | split

theorem takeStamp_good {p n : Nat} {s : State}
    (gs : Good pq s) : Good pq (takeStamp p n s) := by
  unfold takeStamp
  try extract_lets
  repeat' first
    | with_reducible assumption
    | with_reducible apply setFrame_good
    | with_reducible apply count1_good
    | exact and_reserved (by decide)
    | exact reg_merge (by assumption) (by decide)
    | exact and_left_reserved (reg_reserved (by assumption) _)
    | with_reducible apply Good.ite
    | with_reducible apply Good.ite1
    | with_reducible apply Good.ite2
    | fail_if_no_progress (with_reducible apply Good.upd)
    | fail_if_no_progress (with_reducible refine Good.updTim ?_ rfl)
    | fail_if_no_progress (with_reducible refine Good.updTim0 ?_ rfl)
    | fail_if_no_progress (with_reducible refine Good.updRegs ?_ rfl rfl rfl rfl)
    | (intro _; try intros; try extract_lets)
    | split

theorem takeIno_good {x : Src} {s : State}
    (gs : Good pq s) : Good pq (takeIno x s).2 := by
  unfold takeIno
  try extract_lets
  repeat' first
    | with_reducible assumption
    | exact and_reserved (by decide)
    | exact reg_merge (by assumption) (by decide)
    | exact and_left_reserved (reg_reserved (by assumption) _)
    | with_reducible apply Good.ite
    | with_reducible apply Good.ite1
    | with_reducible apply Good.ite2
    | fail_if_no_progress (with_reducible apply Good.upd)

theorem recvAdd_good {n : Nat} {s : State}
    (gs : Good pq s) : Good pq (recvAdd n s) := by
  unfold recvAdd
  try extract_lets
  repeat' first
    | with_reducible assumption
    | exact and_reserved (by decide)
    | exact reg_merge (by assumption) (by decide)
    | exact and_left_reserved (reg_reserved (by assumption) _)
    | with_reducible apply Good.ite
    | with_reducible apply Good.ite1
    | with_reducible apply Good.ite2
    | fail_if_no_progress (with_reducible apply Good.upd)
    | fail_if_no_progress (with_reducible refine Good.updTim ?_ rfl)
    | fail_if_no_progress (with_reducible refine Good.updTim0 ?_ rfl)
    | fail_if_no_progress (with_reducible refine Good.updRegs ?_ rfl rfl rfl rfl)
    | (intro _; try intros; try extract_lets)
    | split

theorem onPage_good {page : Option Bool} {s : State}
    (gs : Good pq s) : Good pq (onPage page s) := by
  unfold onPage
  try extract_lets
  repeat' first
    | with_reducible assumption
    | exact and_reserved (by decide)
    | exact reg_merge (by assumption) (by decide)
    | exact and_left_reserved (reg_reserved (by assumption) _)
    | with_reducible apply Good.ite
    | with_reducible apply Good.ite1
    | with_reducible apply Good.ite2
    | fail_if_no_progress (with_reducible apply Good.upd)
    | fail_if_no_progress (with_reducible refine Good.updTim ?_ rfl)
    | fail_if_no_progress (with_reducible refine Good.updTim0 ?_ rfl)
    | fail_if_no_progress (with_reducible refine Good.updRegs ?_ rfl rfl rfl rfl)
    | (intro _; try intros; try extract_lets)
    | split

theorem classifyOn_good {page : Option Bool} {x : CIn} {ue : Option Word} {em : Option (Option EmEntry)} {s : State}
    (gs : Good pq s) : Good pq (classifyOn page x ue em s).1 := by
  unfold classifyOn
  try extract_lets
  repeat' first
    | with_reducible assumption
    | with_reducible apply classify_good
    | with_reducible apply onPage_good
    | exact and_reserved (by decide)
    | exact reg_merge (by assumption) (by decide)
    | exact and_left_reserved (reg_reserved (by assumption) _)
    | with_reducible apply Good.ite
    | with_reducible apply Good.ite1
    | with_reducible apply Good.ite2
    | fail_if_no_progress (with_reducible apply Good.upd)

theorem bufExhaust_good {sec mk mn : Nat} {s : State}
    (gs : Good pq s) : Good pq (bufExhaust sec mk mn s) := by
  unfold bufExhaust
  try extract_lets
  repeat' first
    | with_reducible assumption
    | with_reducible apply fault_good
    | with_reducible apply count1_good

theorem wasteLanes_good {i d lanes evt : Nat} {cls : Bool} {x : SmpFrame} {s : State}
    (gs : Good pq s) : Good pq (wasteLanes i d lanes evt cls x s) := decided_good (laneWaste8_good (laneSettle_good gs))

theorem wasteAt_good {i d : Nat} {a : Arrive} {evt : Nat} {cls : Bool} {x : SmpFrame} {s : State}
    (gs : Good pq s) : Good pq (wasteAt i d a evt cls x s) :=
  Good.ite (fun _ => atCycle_good gs) fun _ => wasteLanes_good gs

theorem verdictAt_good {n i d lanes : Nat} {l4 cls : Bool} {x : SmpFrame} {s : State}
    (gs : Good pq s) : Good pq (verdictAt n i d lanes l4 cls x s) := decided_good (verdict_good (laneSettle_good gs))

theorem takeCells_good {i : Nat} {a : Arrive} {s : State}
    (gs : Good pq s) : Good pq (takeCells i a s).2 := by
  unfold takeCells
  try extract_lets
  repeat' first
    | with_reducible assumption
    | with_reducible apply takeIno_good
    | with_reducible refine storeFrame_good' ?_ (by assumption)
    | with_reducible apply sendDone_good
    | with_reducible apply bufExhaust_good
    | with_reducible apply recvAdd_good
    | exact and_reserved (by decide)
    | exact reg_merge (by assumption) (by decide)
    | exact and_left_reserved (reg_reserved (by assumption) _)
    | with_reducible apply Good.ite
    | with_reducible apply Good.ite1
    | with_reducible apply Good.ite2
    | fail_if_no_progress (with_reducible apply Good.upd)
    | fail_if_no_progress (with_reducible refine Good.updTim ?_ rfl)
    | fail_if_no_progress (with_reducible refine Good.updTim0 ?_ rfl)
    | fail_if_no_progress (with_reducible refine Good.updRegs ?_ rfl rfl rfl rfl)
    | (intro _; try intros; try extract_lets)
    | split

theorem ingressAt_good {i : Nat} {a : Arrive} {ue : Option Word} {s : State}
    (gs : Good pq s) : Good pq (ingressAt i a ue s) := by
  unfold ingressAt
  try extract_lets
  repeat' first
    | with_reducible assumption
    | with_reducible apply secPlace_good
    | with_reducible apply countO_good
    | with_reducible apply lanePend_good
    | with_reducible apply count1_good
    | with_reducible apply takeCells_good
    | with_reducible apply atCycle_good
    | exact and_reserved (by decide)
    | exact reg_merge (by assumption) (by decide)
    | exact and_left_reserved (reg_reserved (by assumption) _)
    | with_reducible apply Good.ite
    | with_reducible apply Good.ite1
    | with_reducible apply Good.ite2
    | fail_if_no_progress (with_reducible apply Good.upd)
    | fail_if_no_progress (with_reducible refine Good.updTim ?_ rfl)
    | fail_if_no_progress (with_reducible refine Good.updTim0 ?_ rfl)
    | fail_if_no_progress (with_reducible refine Good.updRegs ?_ rfl rfl rfl rfl)
    | (intro _; try intros; try extract_lets)

theorem lookAt_good {i : Nat} {a : Arrive} {ue : Option Word} {s : State}
    (gs : Good pq s) : Good pq (lookAt i a ue s) := by
  unfold lookAt
  try extract_lets
  repeat' first
    | with_reducible assumption
    | with_reducible apply atCycle_good

theorem classifyAt_good {i : Nat} {a : Arrive} {ue : Option Word} {em : Option EmEntry} {s : State}
    (gs : Good pq s) : Good pq (classifyAt i a ue em s) := by
  unfold classifyAt
  try extract_lets
  repeat' first
    | with_reducible assumption
    | with_reducible apply classifyOn_good
    | with_reducible apply atCycle_good

theorem directRes_good {a : Arrive} {s : State}
    (gs : Good pq s) : Good pq (directRes a s).2 := by
  unfold directRes
  try extract_lets
  repeat' first
    | with_reducible assumption
    | with_reducible apply count1_good
    | exact and_reserved (by decide)
    | exact reg_merge (by assumption) (by decide)
    | exact and_left_reserved (reg_reserved (by assumption) _)
    | with_reducible apply Good.ite
    | with_reducible apply Good.ite1
    | with_reducible apply Good.ite2
    | fail_if_no_progress (with_reducible apply Good.upd)
    | fail_if_no_progress (with_reducible refine Good.updTim ?_ rfl)
    | fail_if_no_progress (with_reducible refine Good.updTim0 ?_ rfl)
    | fail_if_no_progress (with_reducible refine Good.updRegs ?_ rfl rfl rfl rfl)
    | (intro _; try intros; try extract_lets)
    | split

theorem storeAdmit_good {i n : Nat} {a : Arrive} {r : CRes} {cause : Nat} {classified : Bool} {s : State}
    (gs : Good pq s) : Good pq (storeAdmit i n a r cause classified s) := by
  unfold storeAdmit
  try extract_lets
  repeat' first
    | with_reducible assumption
    | with_reducible apply setFrame_good
    | with_reducible apply takeStamp_good
    | with_reducible apply admitRec_good
    | with_reducible apply freeUnheld_good
    | with_reducible apply wasteAt_good
    | with_reducible apply noteLate_good
    | with_reducible apply atCycle_good
    | with_reducible apply verdictAt_good
    | exact and_reserved (by decide)
    | exact reg_merge (by assumption) (by decide)
    | exact and_left_reserved (reg_reserved (by assumption) _)
    | with_reducible apply Good.ite
    | with_reducible apply Good.ite1
    | with_reducible apply Good.ite2
    | fail_if_no_progress (with_reducible apply Good.upd)
    | fail_if_no_progress (with_reducible refine Good.updTim ?_ rfl)
    | fail_if_no_progress (with_reducible refine Good.updTim0 ?_ rfl)
    | fail_if_no_progress (with_reducible refine Good.updRegs ?_ rfl rfl rfl rfl)
    | (intro _; try intros; try extract_lets)
    | split

theorem admitAt_good {i : Nat} {a : Arrive} {r : Option CRes} {s : State}
    (gs : Good pq s) : Good pq (admitAt i a r s) := by
  unfold admitAt
  try extract_lets
  repeat' first
    | with_reducible assumption
    | with_reducible apply storeAdmit_good
    | with_reducible apply wasteAt_good
    | with_reducible apply directRes_good
    | exact and_reserved (by decide)
    | exact reg_merge (by assumption) (by decide)
    | exact and_left_reserved (reg_reserved (by assumption) _)
    | with_reducible apply Good.ite
    | with_reducible apply Good.ite1
    | with_reducible apply Good.ite2
    | fail_if_no_progress (with_reducible apply Good.upd)
    | fail_if_no_progress (with_reducible refine Good.updTim ?_ rfl)
    | fail_if_no_progress (with_reducible refine Good.updTim0 ?_ rfl)
    | fail_if_no_progress (with_reducible refine Good.updRegs ?_ rfl rfl rfl rfl)
    | (intro _; try intros; try extract_lets)
    | split

theorem dropPipe_good {p : Nat → Arrive → Bool} {s : State}
    (gs : Good pq s) : Good pq (dropPipe p s) := by
  unfold dropPipe
  try extract_lets
  repeat' first
    | with_reducible assumption
    | with_reducible apply freeFrame_good
    | with_reducible apply laneWaste8_good
    | with_reducible apply laneSettle_good
    | with_reducible apply Good.foldl
    | with_reducible apply Good.foldl1
    | with_reducible apply Good.foldl2
    | exact and_reserved (by decide)
    | exact reg_merge (by assumption) (by decide)
    | exact and_left_reserved (reg_reserved (by assumption) _)
    | with_reducible apply Good.ite
    | with_reducible apply Good.ite1
    | with_reducible apply Good.ite2
    | fail_if_no_progress (with_reducible apply Good.upd)
    | fail_if_no_progress (with_reducible refine Good.updTim ?_ rfl)
    | fail_if_no_progress (with_reducible refine Good.updTim0 ?_ rfl)
    | fail_if_no_progress (with_reducible refine Good.updRegs ?_ rfl rfl rfl rfl)
    | (intro _; try intros; try extract_lets)
    | split

theorem ingress_good {a : Arrive} {ue : Option Word} {s : State}
    (gs : Good pq s) : Good pq (ingress a ue s) := by
  unfold ingress
  try extract_lets
  repeat' first
    | with_reducible assumption
    | with_reducible apply ingressAt_good
    | exact and_reserved (by decide)
    | exact reg_merge (by assumption) (by decide)
    | exact and_left_reserved (reg_reserved (by assumption) _)
    | with_reducible apply Good.ite
    | with_reducible apply Good.ite1
    | with_reducible apply Good.ite2
    | fail_if_no_progress (with_reducible apply Good.upd)
    | fail_if_no_progress (with_reducible refine Good.updTim ?_ rfl)
    | fail_if_no_progress (with_reducible refine Good.updTim0 ?_ rfl)
    | fail_if_no_progress (with_reducible refine Good.updRegs ?_ rfl rfl rfl rfl)
    | (intro _; try intros; try extract_lets)

end Sys2Proof.Machine
end

