-- ==== Sys2Proof/Laws/GoodTime.lean ====
section
/-!
SUPPORT. What each operation of Machine/Time.lean keeps (Laws/Good.lean).
-/

namespace Sys2Proof.Machine

-- one declaration at a time: the package is compiled as one text within a limit of memory
set_option Elab.async false

variable {pq : Ghost}

theorem persistCount_good {n : Nat} {s : State}
    (gs : Good pq s) : Good pq (persistCount n s) := by
  unfold persistCount
  try dsimp only
  repeat' first
    | with_reducible assumption
    | with_reducible apply setFlt_good
    | with_reducible apply Good.foldl
    | with_reducible apply Good.foldl1
    | with_reducible apply Good.foldl2
    | exact and_reserved (by decide)
    | exact reg_merge (by assumption) (by decide)
    | exact and_left_reserved (reg_reserved (by assumption) _)
    | with_reducible apply Good.ite
    | with_reducible apply Good.ite1
    | with_reducible apply Good.ite2
    | fail_if_no_progress (with_reducible apply Good.upd)
    | fail_if_no_progress (with_reducible refine Good.updTim ?_ rfl)
    | fail_if_no_progress (with_reducible refine Good.updTim0 ?_ rfl)
    | fail_if_no_progress (with_reducible refine Good.updRegs ?_ rfl rfl rfl rfl)
    | (intro _; try intros; try dsimp only)

theorem oldRate_good {s o : State} (gs : Good pq s) (e : oldRate s = some o) : Good pq o := by
  unfold oldRate at e
  extract_lets inc slew at e
  split at e
  · cases e
  · cases e; exact Good.updTim gs rfl

theorem pauseCount_good {n : Nat} {s : State}
    (gs : Good pq s) : Good pq (pauseCount n s) := by
  unfold pauseCount
  try dsimp only
  repeat' first
    | with_reducible assumption
    | with_reducible apply countO_good
    | with_reducible apply Good.foldl
    | with_reducible apply Good.foldl1
    | with_reducible apply Good.foldl2
    | exact and_reserved (by decide)
    | exact reg_merge (by assumption) (by decide)
    | exact and_left_reserved (reg_reserved (by assumption) _)
    | with_reducible apply Good.ite
    | with_reducible apply Good.ite1
    | with_reducible apply Good.ite2
    | fail_if_no_progress (with_reducible apply Good.upd)
    | fail_if_no_progress (with_reducible refine Good.updTim ?_ rfl)
    | fail_if_no_progress (with_reducible refine Good.updTim0 ?_ rfl)
    | fail_if_no_progress (with_reducible refine Good.updRegs ?_ rfl rfl rfl rfl)
    | (intro _; try intros; try dsimp only)
    | split

theorem cycleCounts_good {n : Nat} {s : State} (gs : Good pq s) : Good pq (cycleCounts n s) :=
  backCells_good (pauseCount_good (persistCount_good gs))

theorem passCounts_good {n : Nat} {s : State} (gs : Good pq s) : Good pq (passCounts n s) := by
  unfold passCounts
  extract_lets s1
  exact Good.ite (fun _ => cycleCounts_good (Good.updTim (cycleCounts_good gs) rfl)) fun _ => cycleCounts_good gs

theorem passRate_good {n : Nat} {s : State} (gs : Good pq s) : Good pq (passRate n s) := by
  have g1 : Good pq (passCounts n s) := passCounts_good gs
  unfold passRate
  extract_lets t s1
  exact Good.ite (fun _ => gs) fun _ => Good.ite (fun _ => ⟨g1.pending, g1.regs, gs.beat, gs.clk⟩) fun _ => ⟨g1.pending, g1.regs, gs.beat, gs.clk⟩

theorem passClk_good {n : Nat} {s : State} (gs : Good pq s) : Good pq (passClk n s) := by
  unfold passClk
  split
  · exact passRate_good gs
  · next o h =>
    have go : Good pq o := by
      split at h
      · cases h
      · exact oldRate_good gs h
    have g1 : Good pq (passRate 1 o) := passRate_good go
    exact passRate_good (Good.updTim g1 rfl)

theorem advanceClk_good {n : Nat} {s : State}
    (gs : Good pq s) : Good pq (advanceClk n s) := by
  unfold advanceClk
  try dsimp only
  repeat' first
    | with_reducible assumption
    | with_reducible apply mrRead_good
    | with_reducible apply passClk_good
    | with_reducible apply Good.foldl
    | with_reducible apply Good.foldl1
    | with_reducible apply Good.foldl2
    | exact and_reserved (by decide)
    | exact reg_merge (by assumption) (by decide)
    | exact and_left_reserved (reg_reserved (by assumption) _)
    | with_reducible apply Good.ite
    | with_reducible apply Good.ite1
    | with_reducible apply Good.ite2
    | fail_if_no_progress (with_reducible apply Good.upd)
    | fail_if_no_progress (with_reducible refine Good.updTim ?_ rfl)
    | fail_if_no_progress (with_reducible refine Good.updTim0 ?_ rfl)
    | fail_if_no_progress (with_reducible refine Good.updRegs ?_ rfl rfl rfl rfl)
    | (intro _; try intros; try dsimp only)
    | split

theorem setTrace_good {b : Bool} {s : State}
    (gs : Good pq s) : Good pq (setTrace b s) := by
  unfold setTrace
  try dsimp only
  repeat' first
    | with_reducible assumption
    | with_reducible apply setReg_good
    | exact and_reserved (by decide)
    | exact reg_merge (by assumption) (by decide)

theorem startTime_good {s : State}
    (gs : Good pq.free s) : Good pq.free (startTime s) := by
  unfold startTime
  try dsimp only
  repeat' first
    | with_reducible assumption
    | with_reducible apply setTrace_good
    | with_reducible apply tickStart_good
    | exact and_reserved (by decide)
    | exact reg_merge (by assumption) (by decide)
    | exact and_left_reserved (reg_reserved (by assumption) _)
    | with_reducible apply Good.ite
    | with_reducible apply Good.ite1
    | with_reducible apply Good.ite2
    | fail_if_no_progress (with_reducible apply Good.upd)
    | fail_if_no_progress (with_reducible refine Good.updTim ?_ rfl)
    | fail_if_no_progress (with_reducible refine Good.updTim0 ?_ rfl)

theorem applyStep_good {ofs : Int} {s : State}
    (gs : Good pq s) : Good pq (applyStep ofs s) := by
  unfold applyStep
  try dsimp only
  repeat' first
    | with_reducible assumption
    | with_reducible apply notice0_good
    | exact and_reserved (by decide)
    | exact reg_merge (by assumption) (by decide)
    | exact and_left_reserved (reg_reserved (by assumption) _)
    | with_reducible apply Good.ite
    | with_reducible apply Good.ite1
    | with_reducible apply Good.ite2
    | fail_if_no_progress (with_reducible apply Good.upd)
    | fail_if_no_progress (with_reducible refine Good.updTim ?_ rfl)

theorem putInc_good {v : Nat} {s : State}
    (gs : Good pq s) : Good pq (putInc v s) := by
  unfold putInc
  try dsimp only
  repeat' first
    | with_reducible assumption
    | exact and_reserved (by decide)
    | exact reg_merge (by assumption) (by decide)
    | exact and_left_reserved (reg_reserved (by assumption) _)
    | with_reducible apply Good.ite
    | with_reducible apply Good.ite1
    | with_reducible apply Good.ite2
    | fail_if_no_progress (with_reducible apply Good.upd)
    | fail_if_no_progress (with_reducible refine Good.updTim ?_ rfl)
    | fail_if_no_progress (with_reducible refine Good.updTim0 ?_ rfl)
    | fail_if_no_progress (with_reducible refine Good.updRegs ?_ rfl rfl rfl rfl)
    | (intro _; try intros; try dsimp only)

theorem putSlew_good {v : Int} {s : State}
    (gs : Good pq s) : Good pq (putSlew v s) := by
  unfold putSlew
  try dsimp only
  repeat' first
    | with_reducible assumption
    | exact and_reserved (by decide)
    | exact reg_merge (by assumption) (by decide)
    | exact and_left_reserved (reg_reserved (by assumption) _)
    | with_reducible apply Good.ite
    | with_reducible apply Good.ite1
    | with_reducible apply Good.ite2
    | fail_if_no_progress (with_reducible apply Good.upd)
    | fail_if_no_progress (with_reducible refine Good.updTim ?_ rfl)
    | fail_if_no_progress (with_reducible refine Good.updTim0 ?_ rfl)
    | fail_if_no_progress (with_reducible refine Good.updRegs ?_ rfl rfl rfl rfl)
    | (intro _; try intros; try dsimp only)

theorem exitHold_good {s : State}
    (gs : Good pq s) : Good pq (exitHold s) := by
  unfold exitHold
  try dsimp only
  repeat' first
    | with_reducible assumption
    | with_reducible apply notice0_good
    | with_reducible apply putInc_good
    | with_reducible apply putSlew_good
    | exact and_reserved (by decide)
    | exact reg_merge (by assumption) (by decide)
    | exact and_left_reserved (reg_reserved (by assumption) _)
    | with_reducible apply Good.ite
    | with_reducible apply Good.ite1
    | with_reducible apply Good.ite2
    | fail_if_no_progress (with_reducible apply Good.upd)
    | fail_if_no_progress (with_reducible refine Good.updTim ?_ rfl)
    | fail_if_no_progress (with_reducible refine Good.updTim0 ?_ rfl)
    | fail_if_no_progress (with_reducible refine Good.updRegs ?_ rfl rfl rfl rfl)
    | (intro _; try intros; try dsimp only)
    | split

theorem enterHold_good {cause : Nat} {s : State}
    (gs : Good pq s) : Good pq (enterHold cause s) := by
  unfold enterHold
  try dsimp only
  repeat' first
    | with_reducible assumption
    | with_reducible apply notice0_good
    | exact and_reserved (by decide)
    | exact reg_merge (by assumption) (by decide)
    | exact and_left_reserved (reg_reserved (by assumption) _)
    | with_reducible apply Good.ite
    | with_reducible apply Good.ite1
    | with_reducible apply Good.ite2
    | fail_if_no_progress (with_reducible apply Good.upd)
    | fail_if_no_progress (with_reducible refine Good.updTim ?_ rfl)
    | fail_if_no_progress (with_reducible refine Good.updTim0 ?_ rfl)
    | fail_if_no_progress (with_reducible refine Good.updRegs ?_ rfl rfl rfl rfl)
    | (intro _; try intros; try dsimp only)

theorem applyRestart_good {new : Nat} {s : State}
    (gs : Good pq s) : Good pq (applyRestart new s) := by
  unfold applyRestart
  try dsimp only
  repeat' first
    | with_reducible assumption
    | with_reducible apply exitHold_good
    | with_reducible apply setTrace_good
    | with_reducible apply notice0_good
    | exact and_reserved (by decide)
    | exact reg_merge (by assumption) (by decide)
    | exact and_left_reserved (reg_reserved (by assumption) _)
    | with_reducible apply Good.ite
    | with_reducible apply Good.ite1
    | with_reducible apply Good.ite2
    | fail_if_no_progress (with_reducible apply Good.upd)
    | fail_if_no_progress (with_reducible refine Good.updTim ?_ rfl)

theorem timeBoundary_good {set : Nat} {s : State}
    (gs : Good pq s) : Good pq (timeBoundary set s) := by
  unfold timeBoundary
  try dsimp only
  repeat' first
    | with_reducible assumption
    | with_reducible apply applyRestart_good
    | with_reducible apply applyStep_good
    | exact and_reserved (by decide)
    | exact reg_merge (by assumption) (by decide)
    | exact and_left_reserved (reg_reserved (by assumption) _)
    | with_reducible apply Good.ite
    | with_reducible apply Good.ite1
    | with_reducible apply Good.ite2
    | fail_if_no_progress (with_reducible apply Good.upd)
    | fail_if_no_progress (with_reducible refine Good.updTim ?_ rfl)
    | fail_if_no_progress (with_reducible refine Good.updTim0 ?_ rfl)
    | fail_if_no_progress (with_reducible refine Good.updRegs ?_ rfl rfl rfl rfl)
    | (intro _; try intros; try dsimp only)
    | split

theorem ctlStart_good {s : State}
    (gs : Good pq s) : Good pq (ctlStart s) := by
  unfold ctlStart
  try dsimp only
  repeat' first
    | with_reducible assumption
    | exact and_reserved (by decide)
    | exact reg_merge (by assumption) (by decide)
    | exact and_left_reserved (reg_reserved (by assumption) _)
    | with_reducible apply Good.ite
    | with_reducible apply Good.ite1
    | with_reducible apply Good.ite2
    | fail_if_no_progress (with_reducible apply Good.upd)
    | fail_if_no_progress (with_reducible refine Good.updTim ?_ rfl)
    | fail_if_no_progress (with_reducible refine Good.updTim0 ?_ rfl)
    | fail_if_no_progress (with_reducible refine Good.updRegs ?_ rfl rfl rfl rfl)
    | (intro _; try intros; try dsimp only)

theorem ctlRestart_good {s : State}
    (gs : Good pq s) : Good pq (ctlRestart s) := by
  unfold ctlRestart
  try dsimp only
  repeat' first
    | with_reducible assumption
    | exact and_reserved (by decide)
    | exact reg_merge (by assumption) (by decide)
    | exact and_left_reserved (reg_reserved (by assumption) _)
    | with_reducible apply Good.ite
    | with_reducible apply Good.ite1
    | with_reducible apply Good.ite2
    | fail_if_no_progress (with_reducible apply Good.upd)
    | fail_if_no_progress (with_reducible refine Good.updTim ?_ rfl)
    | fail_if_no_progress (with_reducible refine Good.updTim0 ?_ rfl)
    | fail_if_no_progress (with_reducible refine Good.updRegs ?_ rfl rfl rfl rfl)
    | (intro _; try intros; try dsimp only)

theorem ctlStep_good {s : State}
    (gs : Good pq s) : Good pq (ctlStep s) := by
  unfold ctlStep
  try dsimp only
  repeat' first
    | with_reducible assumption
    | with_reducible apply notice0_good
    | with_reducible apply count1_good
    | exact and_reserved (by decide)
    | exact reg_merge (by assumption) (by decide)
    | exact and_left_reserved (reg_reserved (by assumption) _)
    | with_reducible apply Good.ite
    | with_reducible apply Good.ite1
    | with_reducible apply Good.ite2
    | fail_if_no_progress (with_reducible apply Good.upd)
    | fail_if_no_progress (with_reducible refine Good.updTim ?_ rfl)
    | fail_if_no_progress (with_reducible refine Good.updTim0 ?_ rfl)
    | fail_if_no_progress (with_reducible refine Good.updRegs ?_ rfl rfl rfl rfl)
    | (intro _; try intros; try dsimp only)

theorem ctlHold_good {s : State}
    (gs : Good pq s) : Good pq (ctlHold s) := by
  unfold ctlHold
  try dsimp only
  repeat' first
    | with_reducible assumption
    | with_reducible apply enterHold_good

theorem ctlHoldClr_good {s : State}
    (gs : Good pq s) : Good pq (ctlHoldClr s) := by
  unfold ctlHoldClr
  try dsimp only
  repeat' first
    | with_reducible assumption
    | with_reducible apply exitHold_good

theorem holdWatchdog_good {s : State}
    (gs : Good pq s) : Good pq (holdWatchdog s) := by
  unfold holdWatchdog
  try dsimp only
  repeat' first
    | with_reducible assumption
    | with_reducible apply enterHold_good
    | exact and_reserved (by decide)
    | exact reg_merge (by assumption) (by decide)
    | exact and_left_reserved (reg_reserved (by assumption) _)
    | with_reducible apply Good.ite
    | with_reducible apply Good.ite1
    | with_reducible apply Good.ite2
    | fail_if_no_progress (with_reducible apply Good.upd)
    | fail_if_no_progress (with_reducible refine Good.updTim ?_ rfl)
    | fail_if_no_progress (with_reducible refine Good.updTim0 ?_ rfl)
    | fail_if_no_progress (with_reducible refine Good.updRegs ?_ rfl rfl rfl rfl)
    | (intro _; try intros; try dsimp only)

theorem traceLost_good {s : State}
    (gs : Good pq s) : Good pq (traceLost s) := by
  unfold traceLost
  try dsimp only
  repeat' first
    | with_reducible assumption
    | with_reducible apply notice0_good
    | with_reducible apply setTrace_good
    | exact and_reserved (by decide)
    | exact reg_merge (by assumption) (by decide)
    | exact and_left_reserved (reg_reserved (by assumption) _)
    | with_reducible apply Good.ite
    | with_reducible apply Good.ite1
    | with_reducible apply Good.ite2
    | fail_if_no_progress (with_reducible apply Good.upd)
    | fail_if_no_progress (with_reducible refine Good.updTim ?_ rfl)
    | fail_if_no_progress (with_reducible refine Good.updTim0 ?_ rfl)
    | fail_if_no_progress (with_reducible refine Good.updRegs ?_ rfl rfl rfl rfl)
    | (intro _; try intros; try dsimp only)

theorem writeInc_good {v : Nat} {s : State}
    (gs : Good pq s) : Good pq (writeInc v s) := by
  unfold writeInc
  try dsimp only
  repeat' first
    | with_reducible assumption
    | with_reducible apply count1_good
    | with_reducible apply putInc_good
    | exact and_reserved (by decide)
    | exact reg_merge (by assumption) (by decide)
    | exact and_left_reserved (reg_reserved (by assumption) _)
    | with_reducible apply Good.ite
    | with_reducible apply Good.ite1
    | with_reducible apply Good.ite2
    | fail_if_no_progress (with_reducible apply Good.upd)
    | fail_if_no_progress (with_reducible refine Good.updTim ?_ rfl)
    | fail_if_no_progress (with_reducible refine Good.updTim0 ?_ rfl)
    | fail_if_no_progress (with_reducible refine Good.updRegs ?_ rfl rfl rfl rfl)
    | (intro _; try intros; try dsimp only)

theorem writeSlew_good {v : Int} {s : State}
    (gs : Good pq s) : Good pq (writeSlew v s) := by
  unfold writeSlew
  try dsimp only
  repeat' first
    | with_reducible assumption
    | with_reducible apply putSlew_good
    | exact and_reserved (by decide)
    | exact reg_merge (by assumption) (by decide)
    | exact and_left_reserved (reg_reserved (by assumption) _)
    | with_reducible apply Good.ite
    | with_reducible apply Good.ite1
    | with_reducible apply Good.ite2
    | fail_if_no_progress (with_reducible apply Good.upd)
    | fail_if_no_progress (with_reducible refine Good.updTim ?_ rfl)
    | fail_if_no_progress (with_reducible refine Good.updTim0 ?_ rfl)
    | fail_if_no_progress (with_reducible refine Good.updRegs ?_ rfl rfl rfl rfl)
    | (intro _; try intros; try dsimp only)

theorem incHi_good {part : Nat} {data : Word} {s : State}
    (gs : Good pq s) : Good pq (incHi part data s) := by
  unfold incHi
  try dsimp only
  repeat' first
    | with_reducible assumption
    | with_reducible apply writeInc_good
    | with_reducible apply dropLo_good

theorem slewHi_good {part : Nat} {data : Word} {s : State}
    (gs : Good pq s) : Good pq (slewHi part data s) := by
  unfold slewHi
  try dsimp only
  repeat' first
    | with_reducible assumption
    | with_reducible apply writeSlew_good
    | with_reducible apply dropLo_good

theorem epochRead_good {part : Nat} {s : State}
    (gs : Good pq s) : Good pq (epochRead part s) := by
  unfold epochRead
  try dsimp only
  repeat' first
    | with_reducible assumption
    | with_reducible apply emit_good
    | with_reducible apply regRead_good
    | exact and_reserved (by decide)
    | exact reg_merge (by assumption) (by decide)
    | exact and_left_reserved (reg_reserved (by assumption) _)
    | with_reducible apply Good.ite
    | with_reducible apply Good.ite1
    | with_reducible apply Good.ite2
    | fail_if_no_progress (with_reducible apply Good.upd)
    | fail_if_no_progress (with_reducible refine Good.updTim ?_ rfl)
    | fail_if_no_progress (with_reducible refine Good.updTim0 ?_ rfl)
    | fail_if_no_progress (with_reducible refine Good.updRegs ?_ rfl rfl rfl rfl)
    | (intro _; try intros; try dsimp only)

theorem ppsAccept_good {s : State}
    (gs : Good pq s) : Good pq (ppsAccept s) := by
  unfold ppsAccept
  try dsimp only
  repeat' first
    | with_reducible assumption
    | with_reducible apply useFree_good
    | with_reducible apply notice0_good
    | with_reducible apply fault_good
    | with_reducible apply applyRestart_good
    | exact and_reserved (by decide)
    | exact reg_merge (by assumption) (by decide)
    | exact and_left_reserved (reg_reserved (by assumption) _)
    | with_reducible apply Good.ite
    | with_reducible apply Good.ite1
    | with_reducible apply Good.ite2
    | fail_if_no_progress (with_reducible apply Good.upd)
    | fail_if_no_progress (with_reducible refine Good.updTim ?_ rfl)
    | fail_if_no_progress (with_reducible refine Good.updTim0 ?_ rfl)
    | fail_if_no_progress (with_reducible refine Good.updRegs ?_ rfl rfl rfl rfl)
    | (intro _; try intros; try dsimp only)

theorem todIn_good {bytes : List Byte} {s : State}
    (gs : Good pq s) : Good pq (todIn bytes s) := by
  unfold todIn
  try dsimp only
  repeat' first
    | with_reducible assumption
    | with_reducible apply notice0_good
    | with_reducible apply fault_good
    | with_reducible apply count1_good
    | exact and_reserved (by decide)
    | exact reg_merge (by assumption) (by decide)
    | exact and_left_reserved (reg_reserved (by assumption) _)
    | with_reducible apply Good.ite
    | with_reducible apply Good.ite1
    | with_reducible apply Good.ite2
    | fail_if_no_progress (with_reducible apply Good.upd)
    | fail_if_no_progress (with_reducible refine Good.updTim ?_ rfl)
    | fail_if_no_progress (with_reducible refine Good.updTim0 ?_ rfl)
    | fail_if_no_progress (with_reducible refine Good.updRegs ?_ rfl rfl rfl rfl)
    | (intro _; try intros; try dsimp only)

theorem tripletVote_good {group : Word} {s : State}
    (gs : Good pq s) : Good pq (tripletVote group s) := by
  unfold tripletVote
  try dsimp only
  repeat' first
    | with_reducible assumption
    | with_reducible apply fault_good
    | with_reducible apply count1_good

end Sys2Proof.Machine
end

