-- ==== Sys2Proof/Laws/GoodRings.lean ====
section
/-!
SUPPORT. What each operation of Machine/Rings.lean keeps (Laws/Good.lean).
-/

namespace Sys2Proof.Machine

-- one declaration at a time: the package is compiled as one text within a limit of memory
set_option Elab.async false

variable {pq : Ghost}

theorem countR_good {evt : Nat} {k : RingKind} {n amt : Nat} {s : State}
    (gs : Good pq s) : Good pq (countR evt k n amt s) := by
  unfold countR
  try extract_lets
  repeat' first
    | with_reducible assumption
    | with_reducible apply countO_good
    | with_reducible apply countN_good
    | exact and_reserved (by decide)
    | exact reg_merge (by assumption) (by decide)
    | exact and_left_reserved (reg_reserved (by assumption) _)
    | with_reducible apply Good.ite
    | with_reducible apply Good.ite1
    | with_reducible apply Good.ite2
    | fail_if_no_progress (with_reducible apply Good.upd)
    | fail_if_no_progress (with_reducible refine Good.updTim ?_ rfl)
    | fail_if_no_progress (with_reducible refine Good.updTim0 ?_ rfl)
    | fail_if_no_progress (with_reducible refine Good.updRegs ?_ rfl rfl rfl rfl)
    | (intro _; try intros; try extract_lets)
    | split

theorem cqReserve_good {c : Nat} {d : Int} {s : State}
    (gs : Good pq s) : Good pq (cqReserve c d s) := by
  unfold cqReserve
  try extract_lets
  repeat' first
    | with_reducible assumption
    | with_reducible apply setRing_good

theorem tryFetch_good {k : RingKind} {n : Nat} {cover : Bool} {s : State}
    (gs : Good pq s) : Good pq (tryFetch k n cover s) := by
  unfold tryFetch
  try extract_lets
  repeat' first
    | with_reducible assumption
    | with_reducible apply countR_good
    | with_reducible apply cqReserve_good
    | with_reducible apply hostReads_good
    | with_reducible apply setRing_good
    | exact and_reserved (by decide)
    | exact reg_merge (by assumption) (by decide)
    | exact and_left_reserved (reg_reserved (by assumption) _)
    | with_reducible apply Good.ite
    | with_reducible apply Good.ite1
    | with_reducible apply Good.ite2
    | fail_if_no_progress (with_reducible apply Good.upd)
    | fail_if_no_progress (with_reducible refine Good.updTim ?_ rfl)
    | fail_if_no_progress (with_reducible refine Good.updTim0 ?_ rfl)
    | fail_if_no_progress (with_reducible refine Good.updRegs ?_ rfl rfl rfl rfl)
    | (intro _; try intros; try extract_lets)

theorem wakeReaders_good {c : Nat} {s : State}
    (gs : Good pq s) : Good pq (wakeReaders c s) := by
  unfold wakeReaders
  try extract_lets
  repeat' first
    | with_reducible assumption
    | with_reducible apply tryFetch_good
    | with_reducible apply Good.foldl
    | with_reducible apply Good.foldl1
    | with_reducible apply Good.foldl2
    | exact and_reserved (by decide)
    | exact reg_merge (by assumption) (by decide)
    | exact and_left_reserved (reg_reserved (by assumption) _)
    | with_reducible apply Good.ite
    | with_reducible apply Good.ite1
    | with_reducible apply Good.ite2
    | fail_if_no_progress (with_reducible apply Good.upd)
    | fail_if_no_progress (with_reducible refine Good.updTim ?_ rfl)
    | fail_if_no_progress (with_reducible refine Good.updTim0 ?_ rfl)
    | fail_if_no_progress (with_reducible refine Good.updRegs ?_ rfl rfl rfl rfl)
    | (intro _; try intros; try extract_lets)

theorem retryReads_good {s : State}
    (gs : Good pq s) : Good pq (retryReads s) := by
  unfold retryReads
  try extract_lets
  repeat' first
    | with_reducible assumption
    | with_reducible apply tryFetch_good
    | with_reducible apply pumpReads_good
    | with_reducible apply Good.foldl
    | with_reducible apply Good.foldl1
    | with_reducible apply Good.foldl2
    | exact and_reserved (by decide)
    | exact reg_merge (by assumption) (by decide)
    | exact and_left_reserved (reg_reserved (by assumption) _)
    | with_reducible apply Good.ite
    | with_reducible apply Good.ite1
    | with_reducible apply Good.ite2
    | fail_if_no_progress (with_reducible apply Good.upd)
    | fail_if_no_progress (with_reducible refine Good.updTim ?_ rfl)
    | fail_if_no_progress (with_reducible refine Good.updTim0 ?_ rfl)
    | fail_if_no_progress (with_reducible refine Good.updRegs ?_ rfl rfl rfl rfl)
    | (intro _; try intros; try extract_lets)

theorem cqWrite_good {c : Nat} {x : CRec} {k : RingKind} {n : Nat} {s : State}
    (gs : Good pq s) {u : State} (ge : cqWrite c x k n s = some u) : Good pq u := by
  unfold cqWrite at ge
  extract_lets r at ge
  split at ge
  · cases ge; exact setRing_good gs
  · split at ge
    · cases ge
    · cases ge; exact hostWrites_good (setRing_good gs)

theorem issueHead_good {k : RingKind} {n : Nat} {s : State}
    (gs : Good pq s) : Good pq (issueHead k n s) := by
  unfold issueHead
  try extract_lets
  repeat' first
    | with_reducible assumption
    | with_reducible refine cqWrite_good ?_ (by assumption)
    | with_reducible apply setRing_good
    | with_reducible apply complete_good
    | exact and_reserved (by decide)
    | exact reg_merge (by assumption) (by decide)
    | exact and_left_reserved (reg_reserved (by assumption) _)
    | with_reducible apply Good.ite
    | with_reducible apply Good.ite1
    | with_reducible apply Good.ite2
    | fail_if_no_progress (with_reducible apply Good.upd)
    | fail_if_no_progress (with_reducible refine Good.updTim ?_ rfl)
    | fail_if_no_progress (with_reducible refine Good.updTim0 ?_ rfl)
    | fail_if_no_progress (with_reducible refine Good.updRegs ?_ rfl rfl rfl rfl)
    | (intro _; try intros; try extract_lets)
    | split

theorem issueRecs_good {k : RingKind} {n fuel : Nat} {s : State} (gs : Good pq s) : Good pq (issueRecs k n fuel s) := by
  induction fuel generalizing s with
  | zero => exact gs
  | succ fuel ih => rw [issueRecs]; exact Good.ite (fun _ => ih (issueHead_good gs)) fun _ => issueHead_good gs

theorem issueNow_good {k : RingKind} {n : Nat} {s : State}
    (gs : Good pq s) : Good pq (issueNow k n s) := by
  unfold issueNow
  try extract_lets
  repeat' first
    | with_reducible assumption
    | with_reducible apply issueRecs_good

theorem addRec_good {k : RingKind} {n : Nat} {x : PendRec} {s : State}
    (gs : Good pq s) : Good pq (addRec k n x s) := by
  unfold addRec
  try extract_lets
  repeat' first
    | with_reducible assumption
    | with_reducible apply setRing_good

theorem completeCmd_good {p status cause result : Nat} {s : State}
    (gs : Good pq s) : Good pq (completeCmd p status cause result s) := by
  unfold completeCmd
  extract_lets r idx had rsrc x hsrc s1 s2
  have g1 : Good pq s1 := Good.upd gs
  have g2 : Good pq s2 := Good.ite (fun _ => g1) fun _ => cqReserve_good g1
  exact Good.ite (fun _ => g1) fun _ => tryFetch_good (issueNow_good (addRec_good g2))

theorem orphanReads_good {p : RdUse → Bool} {s : State}
    (gs : Good pq s) : Good pq (orphanReads p s) := by
  unfold orphanReads
  try extract_lets
  repeat' first
    | with_reducible assumption
    | exact and_reserved (by decide)
    | exact reg_merge (by assumption) (by decide)
    | exact and_left_reserved (reg_reserved (by assumption) _)
    | with_reducible apply Good.ite
    | with_reducible apply Good.ite1
    | with_reducible apply Good.ite2
    | fail_if_no_progress (with_reducible apply Good.upd)

theorem dropBells_good {k : RingKind} {n : Nat} {s : State}
    (gs : Good pq s) : Good pq (dropBells k n s) := by
  unfold dropBells
  try extract_lets
  repeat' first
    | with_reducible assumption
    | with_reducible apply bell_good
    | exact and_reserved (by decide)
    | exact reg_merge (by assumption) (by decide)
    | exact and_left_reserved (reg_reserved (by assumption) _)
    | with_reducible apply Good.ite
    | with_reducible apply Good.ite1
    | with_reducible apply Good.ite2
    | fail_if_no_progress (with_reducible apply Good.upd)

theorem orphanWrites_good {k : RingKind} {n : Nat} {s : State}
    (gs : Good pq s) : Good pq (orphanWrites k n s) := by
  unfold orphanWrites
  try extract_lets
  repeat' first
    | with_reducible assumption
    | exact and_reserved (by decide)
    | exact reg_merge (by assumption) (by decide)
    | exact and_left_reserved (reg_reserved (by assumption) _)
    | with_reducible apply Good.ite
    | with_reducible apply Good.ite1
    | with_reducible apply Good.ite2
    | fail_if_no_progress (with_reducible apply Good.upd)

theorem dropStaged_good {n : Nat} {s : State}
    (gs : Good pq s) : Good pq (dropStaged n s) := by
  unfold dropStaged
  try extract_lets
  repeat' first
    | with_reducible assumption
    | exact and_reserved (by decide)
    | exact reg_merge (by assumption) (by decide)
    | exact and_left_reserved (reg_reserved (by assumption) _)
    | with_reducible apply Good.ite
    | with_reducible apply Good.ite1
    | with_reducible apply Good.ite2
    | fail_if_no_progress (with_reducible apply Good.upd)

theorem cutSend_good {n : Nat} {s : State}
    (gs : Good pq s) : Good pq (cutSend n s) := by
  unfold cutSend
  try extract_lets
  repeat' first
    | with_reducible assumption
    | with_reducible apply emit_good
    | with_reducible apply setUpl_good
    | with_reducible apply count1_good
    | with_reducible apply Good.foldl
    | with_reducible apply Good.foldl1
    | with_reducible apply Good.foldl2
    | exact and_reserved (by decide)
    | exact reg_merge (by assumption) (by decide)
    | exact and_left_reserved (reg_reserved (by assumption) _)
    | with_reducible apply Good.ite
    | with_reducible apply Good.ite1
    | with_reducible apply Good.ite2
    | fail_if_no_progress (with_reducible apply Good.upd)
    | fail_if_no_progress (with_reducible refine Good.updTim ?_ rfl)
    | fail_if_no_progress (with_reducible refine Good.updTim0 ?_ rfl)
    | fail_if_no_progress (with_reducible refine Good.updRegs ?_ rfl rfl rfl rfl)
    | (intro _; try intros; try extract_lets)

theorem withdrawSends_good {n : Nat} {s : State}
    (gs : Good pq s) : Good pq (withdrawSends n s) := by
  unfold withdrawSends
  try extract_lets
  repeat' first
    | with_reducible assumption
    | with_reducible apply withdraw_good
    | with_reducible apply cutSend_good
    | with_reducible apply idleFrame_good
    | with_reducible apply dropPipe_good
    | with_reducible apply Good.foldl
    | with_reducible apply Good.foldl1
    | with_reducible apply Good.foldl2
    | exact and_reserved (by decide)
    | exact reg_merge (by assumption) (by decide)
    | exact and_left_reserved (reg_reserved (by assumption) _)
    | with_reducible apply Good.ite
    | with_reducible apply Good.ite1
    | with_reducible apply Good.ite2
    | fail_if_no_progress (with_reducible apply Good.upd)
    | fail_if_no_progress (with_reducible refine Good.updTim ?_ rfl)
    | fail_if_no_progress (with_reducible refine Good.updTim0 ?_ rfl)
    | fail_if_no_progress (with_reducible refine Good.updRegs ?_ rfl rfl rfl rfl)
    | (intro _; try intros; try extract_lets)
    | split

theorem disableRing_good {k : RingKind} {n : Nat} {s : State}
    (gs : Good pq s) : Good pq (disableRing k n s) := by
  unfold disableRing
  extract_lets r q wsrc vsrc s1 s2 s3 hsrc s4 s5
  have g2 : Good pq s2 := orphanWrites_good (orphanReads_good (setRing_good gs))
  have g3 : Good pq s3 := Good.ite (fun _ => g2) fun _ => cqReserve_good (dropBells_good g2)
  clear_value s3
  have g4 : Good pq s4 := by
    cases k
    · exact withdrawSends_good (dropStaged_good g3)
    · exact flushQueue_good g3
    · exact g3
    · exact Good.upd g3
    · exact g3
  clear_value s4
  have g5 : Good pq s5 := by
    cases k
    · exact Good.foldl g4 fun s e h => useFree_good (Good.upd h)
    · exact Good.foldl g4 fun s e h => useFree_good (Good.upd h)
    all_goals exact g4
  clear_value s5 q
  refine Good.ite (fun _ => gs) fun _ => ?_
  cases q with
  | none => exact g5
  | some p => exact completeCmd_good g5

theorem haltAs_good {has : Bool} {k : RingKind} {n status cause idx addr acc : Nat} {s : State}
    (gs : Good pq s) : Good pq (haltAs has k n status cause idx addr acc s) := by
  unfold haltAs
  extract_lets r own q due x reads isJob keep r1 s1 s2 s3 s4 s5 hrd s6
  have g1 : Good pq s1 := setRing_good gs
  have g2 : Good pq s2 := Good.ite (fun _ => cqReserve_good g1) fun _ => g1
  have g4 : Good pq s4 := notice_good (countR_good (orphanReads_good g2))
  have g5 : Good pq s5 := fault_good g4
  have g6 : Good pq s6 := Good.ite (fun _ => issueNow_good (Good.upd g5)) fun _ => Good.ite (fun _ => atCycle_good g5) fun _ => g5
  clear_value s6 q
  refine Good.ite (fun _ => gs) fun _ => ?_
  cases q with
  | none => exact g6
  | some p => exact completeCmd_good g6

theorem halt_good {k : RingKind} {n status cause idx addr acc : Nat} {s : State}
    (gs : Good pq s) : Good pq (halt k n status cause idx addr acc s) := by
  unfold halt
  try extract_lets
  repeat' first
    | with_reducible assumption
    | with_reducible apply haltAs_good

theorem setSendRec_good {n idx status cause : Nat} {s : State}
    (gs : Good pq s) : Good pq (setSendRec n idx status cause s) := by
  unfold setSendRec
  try extract_lets
  repeat' first
    | with_reducible assumption
    | with_reducible apply atCycle_good
    | with_reducible apply setRing_good

theorem sendReadFail_good {n idx cause addr acc : Nat} {s : State}
    (gs : Good pq s) : Good pq (sendReadFail n idx cause addr acc s) := by
  unfold sendReadFail
  try extract_lets
  repeat' first
    | with_reducible assumption
    | with_reducible apply halt_good
    | with_reducible apply setSendRec_good
    | with_reducible apply orphanReads_good
    | with_reducible apply sendData_good
    | with_reducible apply setRing_good
    | exact and_reserved (by decide)
    | exact reg_merge (by assumption) (by decide)
    | exact and_left_reserved (reg_reserved (by assumption) _)
    | with_reducible apply Good.ite
    | with_reducible apply Good.ite1
    | with_reducible apply Good.ite2
    | fail_if_no_progress (with_reducible apply Good.upd)
    | fail_if_no_progress (with_reducible refine Good.updTim ?_ rfl)
    | fail_if_no_progress (with_reducible refine Good.updTim0 ?_ rfl)
    | fail_if_no_progress (with_reducible refine Good.updRegs ?_ rfl rfl rfl rfl)
    | (intro _; try intros; try extract_lets)

theorem detachSends_good {n : Nat} {s : State}
    (gs : Good pq s) : Good pq (detachSends n s) := by
  unfold detachSends
  try extract_lets
  repeat' first
    | with_reducible assumption
    | exact and_reserved (by decide)
    | exact reg_merge (by assumption) (by decide)
    | exact and_left_reserved (reg_reserved (by assumption) _)
    | with_reducible apply Good.ite
    | with_reducible apply Good.ite1
    | with_reducible apply Good.ite2
    | fail_if_no_progress (with_reducible apply Good.upd)

theorem startRing_good {k : RingKind} {n : Nat} {w : W6} {s : State}
    (gs : Good pq s) : Good pq (startRing k n w s) := by
  unfold startRing
  try extract_lets
  repeat' first
    | with_reducible assumption
    | with_reducible apply orphanWrites_good
    | with_reducible apply orphanReads_good
    | with_reducible apply cqReserve_good
    | with_reducible apply dropBells_good
    | with_reducible apply setRing_good
    | with_reducible apply detachSends_good
    | with_reducible apply dropStaged_good
    | with_reducible apply ntcDrain_good
    | with_reducible apply flushQueue_good
    | exact and_reserved (by decide)
    | exact reg_merge (by assumption) (by decide)
    | exact and_left_reserved (reg_reserved (by assumption) _)
    | with_reducible apply Good.ite
    | with_reducible apply Good.ite1
    | with_reducible apply Good.ite2
    | fail_if_no_progress (with_reducible apply Good.upd)
    | fail_if_no_progress (with_reducible refine Good.updTim ?_ rfl)
    | fail_if_no_progress (with_reducible refine Good.updTim0 ?_ rfl)
    | fail_if_no_progress (with_reducible refine Good.updRegs ?_ rfl rfl rfl rfl)
    | (intro _; try intros; try extract_lets)

theorem rctxWrite_good {k : RingKind} {n i : Nat} {data : Word} {s : State}
    (gs : Good pq s) : Good pq (rctxWrite k n i data s) := by
  unfold rctxWrite
  try extract_lets
  repeat' first
    | with_reducible assumption
    | with_reducible apply setRing_good
    | with_reducible apply startRing_good
    | exact and_reserved (by decide)
    | exact reg_merge (by assumption) (by decide)
    | exact and_left_reserved (reg_reserved (by assumption) _)
    | with_reducible apply Good.ite
    | with_reducible apply Good.ite1
    | with_reducible apply Good.ite2
    | fail_if_no_progress (with_reducible apply Good.upd)
    | fail_if_no_progress (with_reducible refine Good.updTim ?_ rfl)
    | fail_if_no_progress (with_reducible refine Good.updTim0 ?_ rfl)
    | fail_if_no_progress (with_reducible refine Good.updRegs ?_ rfl rfl rfl rfl)
    | (intro _; try intros; try extract_lets)

set_option maxRecDepth 20000 in
theorem chanMask {c : Nat} (hc : c < 256) : regMask (pageHRD + 0x7800 + 4 * c) = 7 := by
  revert c; decide

theorem chanWrite_good {c : Nat} {data : Word} {s : State} (hc : c < 256)
    (gs : Good pq s) : Good pq (chanWrite c data s) := by
  unfold chanWrite
  extract_lets s1
  have g1 : Good pq s1 := setReg_good gs (by rw [chanMask hc]; exact and_not_self' data 7)
  exact Good.ite (fun _ => g1) fun _ => Good.upd g1

theorem rdisWrite_good {p : Nat} {k : RingKind} {j : Nat} {data : Word} {s : State}
    (gs : Good pq s) : Good pq (rdisWrite p k j data s) := by
  unfold rdisWrite
  try extract_lets
  repeat' first
    | with_reducible assumption
    | with_reducible apply partViol_good
    | with_reducible apply disableRing_good
    | with_reducible apply Good.foldl
    | with_reducible apply Good.foldl1
    | with_reducible apply Good.foldl2
    | exact and_reserved (by decide)
    | exact reg_merge (by assumption) (by decide)
    | exact and_left_reserved (reg_reserved (by assumption) _)
    | with_reducible apply Good.ite
    | with_reducible apply Good.ite1
    | with_reducible apply Good.ite2
    | fail_if_no_progress (with_reducible apply Good.upd)
    | fail_if_no_progress (with_reducible refine Good.updTim ?_ rfl)
    | fail_if_no_progress (with_reducible refine Good.updTim0 ?_ rfl)
    | fail_if_no_progress (with_reducible refine Good.updRegs ?_ rfl rfl rfl rfl)
    | (intro _; try intros; try extract_lets)

theorem ringBell_good {k : RingKind} {n : Nat} {s : State}
    (gs : Good pq s) : Good pq (ringBell k n s) := by
  unfold ringBell
  try extract_lets
  repeat' first
    | with_reducible assumption
    | with_reducible apply setRing_good
    | with_reducible apply atCycle_good
    | with_reducible apply bell_good
    | exact and_reserved (by decide)
    | exact reg_merge (by assumption) (by decide)
    | exact and_left_reserved (reg_reserved (by assumption) _)
    | with_reducible apply Good.ite
    | with_reducible apply Good.ite1
    | with_reducible apply Good.ite2
    | fail_if_no_progress (with_reducible apply Good.upd)
    | fail_if_no_progress (with_reducible refine Good.updTim ?_ rfl)
    | fail_if_no_progress (with_reducible refine Good.updTim0 ?_ rfl)
    | fail_if_no_progress (with_reducible refine Good.updRegs ?_ rfl rfl rfl rfl)
    | (intro _; try intros; try extract_lets)

theorem bellTurn_good {k : RingKind} {n : Nat} {s : State}
    (gs : Good pq s) : Good pq (bellTurn k n s) := by
  unfold bellTurn
  try extract_lets
  repeat' first
    | with_reducible assumption
    | with_reducible apply setRing_good
    | with_reducible apply tryFetch_good
    | exact and_reserved (by decide)
    | exact reg_merge (by assumption) (by decide)
    | exact and_left_reserved (reg_reserved (by assumption) _)
    | with_reducible apply Good.ite
    | with_reducible apply Good.ite1
    | with_reducible apply Good.ite2
    | fail_if_no_progress (with_reducible apply Good.upd)
    | fail_if_no_progress (with_reducible refine Good.updTim ?_ rfl)
    | fail_if_no_progress (with_reducible refine Good.updTim0 ?_ rfl)
    | fail_if_no_progress (with_reducible refine Good.updRegs ?_ rfl rfl rfl rfl)
    | (intro _; try intros; try extract_lets)

theorem consBell_good {k : RingKind} {n : Nat} {data : Word} {s : State}
    (gs : Good pq s) : Good pq (consBell k n data s) := by
  unfold consBell
  try extract_lets
  repeat' first
    | with_reducible assumption
    | with_reducible apply setRing_good
    | with_reducible apply countR_good
    | with_reducible apply irq_good
    | with_reducible apply wakeReaders_good
    | with_reducible apply ntcDrain_good
    | exact and_reserved (by decide)
    | exact reg_merge (by assumption) (by decide)
    | exact and_left_reserved (reg_reserved (by assumption) _)
    | with_reducible apply Good.ite
    | with_reducible apply Good.ite1
    | with_reducible apply Good.ite2
    | fail_if_no_progress (with_reducible apply Good.upd)
    | fail_if_no_progress (with_reducible refine Good.updTim ?_ rfl)
    | fail_if_no_progress (with_reducible refine Good.updTim0 ?_ rfl)
    | fail_if_no_progress (with_reducible refine Good.updRegs ?_ rfl rfl rfl rfl)
    | (intro _; try intros; try extract_lets)

theorem bell_good {k : RingKind} {n : Nat} {data : Word} {s : State}
    (gs : Good pq s) : Good pq (bell k n data s) := by
  unfold bell
  try extract_lets
  repeat' first
    | with_reducible assumption
    | with_reducible apply consBell_good
    | with_reducible apply ringBell_good
    | exact and_reserved (by decide)
    | exact reg_merge (by assumption) (by decide)
    | exact and_left_reserved (reg_reserved (by assumption) _)
    | with_reducible apply Good.ite
    | with_reducible apply Good.ite1
    | with_reducible apply Good.ite2
    | fail_if_no_progress (with_reducible apply Good.upd)
    | fail_if_no_progress (with_reducible refine Good.updTim ?_ rfl)
    | fail_if_no_progress (with_reducible refine Good.updTim0 ?_ rfl)
    | fail_if_no_progress (with_reducible refine Good.updRegs ?_ rfl rfl rfl rfl)
    | (intro _; try intros; try extract_lets)

theorem doorbell_good {p : Nat} {k : RingKind} {n : Nat} {data : Word} {s : State}
    (gs : Good pq s) : Good pq (doorbell p k n data s) := by
  unfold doorbell
  try extract_lets
  repeat' first
    | with_reducible assumption
    | with_reducible apply partViol_good
    | with_reducible apply wake_good
    | with_reducible apply bell_good
    | exact and_reserved (by decide)
    | exact reg_merge (by assumption) (by decide)
    | exact and_left_reserved (reg_reserved (by assumption) _)
    | with_reducible apply Good.ite
    | with_reducible apply Good.ite1
    | with_reducible apply Good.ite2
    | fail_if_no_progress (with_reducible apply Good.upd)
    | fail_if_no_progress (with_reducible refine Good.updTim ?_ rfl)
    | fail_if_no_progress (with_reducible refine Good.updTim0 ?_ rfl)
    | fail_if_no_progress (with_reducible refine Good.updRegs ?_ rfl rfl rfl rfl)
    | (intro _; try intros; try extract_lets)

theorem dropRead_good {ch tag : Nat} {s : State}
    (gs : Good pq s) : Good pq (dropRead ch tag s) := by
  unfold dropRead
  try extract_lets
  repeat' first
    | with_reducible assumption
    | exact and_reserved (by decide)
    | exact reg_merge (by assumption) (by decide)
    | exact and_left_reserved (reg_reserved (by assumption) _)
    | with_reducible apply Good.ite
    | with_reducible apply Good.ite1
    | with_reducible apply Good.ite2
    | fail_if_no_progress (with_reducible apply Good.upd)

theorem strayRead_good {ch tag : Nat} {s : State}
    (gs : Good pq s) : Good pq (strayRead ch tag s) := by
  unfold strayRead
  try extract_lets
  repeat' first
    | with_reducible assumption
    | with_reducible apply retryReads_good
    | with_reducible apply fault_good
    | exact and_reserved (by decide)
    | exact reg_merge (by assumption) (by decide)
    | exact and_left_reserved (reg_reserved (by assumption) _)
    | with_reducible apply Good.ite
    | with_reducible apply Good.ite1
    | with_reducible apply Good.ite2
    | fail_if_no_progress (with_reducible apply Good.upd)
    | fail_if_no_progress (with_reducible refine Good.updTim ?_ rfl)
    | fail_if_no_progress (with_reducible refine Good.updTim0 ?_ rfl)
    | fail_if_no_progress (with_reducible refine Good.updRegs ?_ rfl rfl rfl rfl)
    | (intro _; try intros; try extract_lets)

theorem startCmd_good {p : Nat} {s : State}
    (gs : Good pq s) : Good pq (startCmd p s) := by
  unfold startCmd
  try extract_lets
  repeat' first
    | with_reducible assumption
    | with_reducible apply setRing_good
    | with_reducible apply completeCmd_good
    | exact and_reserved (by decide)
    | exact reg_merge (by assumption) (by decide)
    | exact and_left_reserved (reg_reserved (by assumption) _)
    | with_reducible apply Good.ite
    | with_reducible apply Good.ite1
    | with_reducible apply Good.ite2
    | fail_if_no_progress (with_reducible apply Good.upd)
    | fail_if_no_progress (with_reducible refine Good.updTim ?_ rfl)
    | fail_if_no_progress (with_reducible refine Good.updTim0 ?_ rfl)
    | fail_if_no_progress (with_reducible refine Good.updRegs ?_ rfl rfl rfl rfl)
    | (intro _; try intros; try extract_lets)
    | split

theorem descDone_good {k : RingKind} {n addr : Nat} {words : List Word} {err : Bool} {s : State}
    (gs : Good pq s) : Good pq (descDone k n addr words err s) := by
  unfold descDone
  try extract_lets
  repeat' first
    | with_reducible assumption
    | with_reducible apply halt_good
    | with_reducible apply cqReserve_good
    | with_reducible apply setRing_good
    | with_reducible apply startCmd_good
    | with_reducible apply tryFetch_good
    | exact and_reserved (by decide)
    | exact reg_merge (by assumption) (by decide)
    | exact and_left_reserved (reg_reserved (by assumption) _)
    | with_reducible apply Good.ite
    | with_reducible apply Good.ite1
    | with_reducible apply Good.ite2
    | fail_if_no_progress (with_reducible apply Good.upd)
    | fail_if_no_progress (with_reducible refine Good.updTim ?_ rfl)
    | fail_if_no_progress (with_reducible refine Good.updTim0 ?_ rfl)
    | fail_if_no_progress (with_reducible refine Good.updRegs ?_ rfl rfl rfl rfl)
    | (intro _; try intros; try extract_lets)
    | split

theorem descFetch_good {ch tag : Nat} {words : List Word} {err : Bool} {s : State}
    (gs : Good pq s) : Good pq (descFetch ch tag words err s) := by
  unfold descFetch
  try extract_lets
  repeat' first
    | with_reducible assumption
    | with_reducible apply strayRead_good
    | with_reducible apply retryReads_good
    | with_reducible apply descDone_good
    | with_reducible apply dropRead_good
    | with_reducible apply sendData_good
    | exact and_reserved (by decide)
    | exact reg_merge (by assumption) (by decide)
    | exact and_left_reserved (reg_reserved (by assumption) _)
    | with_reducible apply Good.ite
    | with_reducible apply Good.ite1
    | with_reducible apply Good.ite2
    | fail_if_no_progress (with_reducible apply Good.upd)
    | fail_if_no_progress (with_reducible refine Good.updTim ?_ rfl)
    | fail_if_no_progress (with_reducible refine Good.updTim0 ?_ rfl)
    | fail_if_no_progress (with_reducible refine Good.updRegs ?_ rfl rfl rfl rfl)
    | (intro _; try intros; try extract_lets)
    | split

theorem seen_good {k : RingKind} {n : Nat} {s : State}
    (gs : Good pq s) : Good pq (seen k n s) := by
  unfold seen
  try extract_lets
  repeat' first
    | with_reducible assumption
    | with_reducible apply irq_good
    | with_reducible apply setRing_good
    | exact and_reserved (by decide)
    | exact reg_merge (by assumption) (by decide)
    | exact and_left_reserved (reg_reserved (by assumption) _)
    | with_reducible apply Good.ite
    | with_reducible apply Good.ite1
    | with_reducible apply Good.ite2
    | fail_if_no_progress (with_reducible apply Good.upd)
    | fail_if_no_progress (with_reducible refine Good.updTim ?_ rfl)
    | fail_if_no_progress (with_reducible refine Good.updTim0 ?_ rfl)
    | fail_if_no_progress (with_reducible refine Good.updRegs ?_ rfl rfl rfl rfl)
    | (intro _; try intros; try extract_lets)

theorem tagFreed_good {s : State}
    (gs : Good pq s) : Good pq (tagFreed s) := by
  unfold tagFreed
  try extract_lets
  repeat' first
    | with_reducible assumption
    | with_reducible apply pumpWrites_good
    | with_reducible apply issueNow_good
    | with_reducible apply mrFlush_good
    | with_reducible apply Good.foldl
    | with_reducible apply Good.foldl1
    | with_reducible apply Good.foldl2
    | exact and_reserved (by decide)
    | exact reg_merge (by assumption) (by decide)
    | exact and_left_reserved (reg_reserved (by assumption) _)
    | with_reducible apply Good.ite
    | with_reducible apply Good.ite1
    | with_reducible apply Good.ite2
    | fail_if_no_progress (with_reducible apply Good.upd)
    | fail_if_no_progress (with_reducible refine Good.updTim ?_ rfl)
    | fail_if_no_progress (with_reducible refine Good.updTim0 ?_ rfl)
    | fail_if_no_progress (with_reducible refine Good.updRegs ?_ rfl rfl rfl rfl)
    | (intro _; try intros; try extract_lets)

theorem dataAck_good {ring idx : Nat} {err : Bool} {addr : Nat} {s : State}
    (gs : Good pq s) : Good pq (dataAck ring idx err addr s) := by
  unfold dataAck
  try extract_lets
  repeat' first
    | with_reducible assumption
    | with_reducible apply atCycle_good
    | with_reducible apply setRing_good
    | with_reducible apply haltAs_good
    | exact and_reserved (by decide)
    | exact reg_merge (by assumption) (by decide)
    | exact and_left_reserved (reg_reserved (by assumption) _)
    | with_reducible apply Good.ite
    | with_reducible apply Good.ite1
    | with_reducible apply Good.ite2
    | fail_if_no_progress (with_reducible apply Good.upd)
    | fail_if_no_progress (with_reducible refine Good.updTim ?_ rfl)
    | fail_if_no_progress (with_reducible refine Good.updTim0 ?_ rfl)
    | fail_if_no_progress (with_reducible refine Good.updRegs ?_ rfl rfl rfl rfl)
    | (intro _; try intros; try extract_lets)

theorem hostWriteAck_good {ch tag : Nat} {err : Bool} {s : State}
    (gs : Good pq s) : Good pq (hostWriteAck ch tag err s) := by
  unfold hostWriteAck
  try extract_lets
  repeat' first
    | with_reducible assumption
    | with_reducible apply tagFreed_good
    | with_reducible apply fault_good
    | with_reducible apply dataAck_good
    | with_reducible apply halt_good
    | with_reducible apply seen_good
    | with_reducible apply notice_good
    | with_reducible apply mrFail_good
    | exact and_reserved (by decide)
    | exact reg_merge (by assumption) (by decide)
    | exact and_left_reserved (reg_reserved (by assumption) _)
    | with_reducible apply Good.ite
    | with_reducible apply Good.ite1
    | with_reducible apply Good.ite2
    | fail_if_no_progress (with_reducible apply Good.upd)
    | fail_if_no_progress (with_reducible refine Good.updTim ?_ rfl)
    | fail_if_no_progress (with_reducible refine Good.updTim0 ?_ rfl)
    | fail_if_no_progress (with_reducible refine Good.updRegs ?_ rfl rfl rfl rfl)
    | (intro _; try intros; try extract_lets)
    | split

theorem accessTimeout_good {write : Bool} {ch tag : Nat} {s : State}
    (gs : Good pq s) : Good pq (accessTimeout write ch tag s) := by
  unfold accessTimeout
  try extract_lets
  repeat' first
    | with_reducible assumption
    | with_reducible apply issueNow_good
    | with_reducible apply haltAs_good
    | with_reducible apply setRing_good
    | with_reducible apply halt_good
    | with_reducible apply notice_good
    | with_reducible apply orphanReads_good
    | with_reducible apply sendReadFail_good
    | with_reducible apply sendData_good
    | exact and_reserved (by decide)
    | exact reg_merge (by assumption) (by decide)
    | exact and_left_reserved (reg_reserved (by assumption) _)
    | with_reducible apply Good.ite
    | with_reducible apply Good.ite1
    | with_reducible apply Good.ite2
    | fail_if_no_progress (with_reducible apply Good.upd)
    | fail_if_no_progress (with_reducible refine Good.updTim ?_ rfl)
    | fail_if_no_progress (with_reducible refine Good.updTim0 ?_ rfl)
    | fail_if_no_progress (with_reducible refine Good.updRegs ?_ rfl rfl rfl rfl)
    | (intro _; try intros; try extract_lets)
    | split

end Sys2Proof.Machine
end

