-- ==== Sys2Proof/Laws/GoodHostPath.lean ====
section
/-!
SUPPORT. What each operation of Machine/HostPath.lean keeps (Laws/Good.lean).
-/

namespace Sys2Proof.Machine

-- one declaration at a time: the package is compiled as one text within a limit of memory
set_option Elab.async false

variable {pq : Ghost}

theorem modJob_good {n idx : Nat} {f : SendJob → SendJob} {s : State}
    (gs : Good pq s) : Good pq (modJob n idx f s) := by
  unfold modJob
  try extract_lets
  repeat' first
    | with_reducible assumption
    | with_reducible apply setRing_good

theorem dropJob_good {n idx : Nat} {s : State}
    (gs : Good pq s) : Good pq (dropJob n idx s) := by
  unfold dropJob
  try extract_lets
  repeat' first
    | with_reducible assumption
    | with_reducible apply setRing_good

theorem rejectSend_good {n : Nat} {d : Desc} {status cause : Nat} {s : State}
    (gs : Good pq s) : Good pq (rejectSend n d status cause s) := by
  unfold rejectSend
  try extract_lets
  repeat' first
    | with_reducible assumption
    | with_reducible apply objAdd_good
    | with_reducible apply setSendRec_good
    | with_reducible apply dropJob_good

theorem startData_good {n : Nat} {j : SendJob} {s : State}
    (gs : Good pq s) : Good pq (startData n j s) := by
  unfold startData
  try extract_lets
  repeat' first
    | with_reducible assumption
    | with_reducible apply rejectSend_good
    | with_reducible apply hostReads_good
    | with_reducible apply sendData_good
    | with_reducible apply modJob_good
    | exact and_reserved (by decide)
    | exact reg_merge (by assumption) (by decide)
    | exact and_left_reserved (reg_reserved (by assumption) _)
    | with_reducible apply Good.ite
    | with_reducible apply Good.ite1
    | with_reducible apply Good.ite2
    | fail_if_no_progress (with_reducible apply Good.upd)
    | fail_if_no_progress (with_reducible refine Good.updTim ?_ rfl)
    | fail_if_no_progress (with_reducible refine Good.updTim0 ?_ rfl)
    | fail_if_no_progress (with_reducible refine Good.updRegs ?_ rfl rfl rfl rfl)
    | (intro _; try intros; try extract_lets)

theorem chainRead_good {n addr : Nat} {s : State}
    (gs : Good pq s) : Good pq (chainRead n addr s) := by
  unfold chainRead
  try extract_lets
  repeat' first
    | with_reducible assumption
    | with_reducible apply hostReads_good

theorem paceSend_good {n : Nat} {s : State}
    (gs : Good pq s) : Good pq (paceSend n s) := by
  unfold paceSend
  try extract_lets
  repeat' first
    | with_reducible assumption
    | with_reducible apply setRing_good
    | exact and_reserved (by decide)
    | exact reg_merge (by assumption) (by decide)
    | exact and_left_reserved (reg_reserved (by assumption) _)
    | with_reducible apply Good.ite
    | with_reducible apply Good.ite1
    | with_reducible apply Good.ite2
    | fail_if_no_progress (with_reducible apply Good.upd)
    | fail_if_no_progress (with_reducible refine Good.updTim ?_ rfl)
    | fail_if_no_progress (with_reducible refine Good.updTim0 ?_ rfl)
    | fail_if_no_progress (with_reducible refine Good.updRegs ?_ rfl rfl rfl rfl)
    | (intro _; try intros; try extract_lets)

theorem sendStart_good {n : Nat} {s : State}
    (gs : Good pq s) : Good pq (sendStart n s) := by
  unfold sendStart
  try extract_lets
  repeat' first
    | with_reducible assumption
    | with_reducible apply setRing_good
    | with_reducible apply tryFetch_good
    | with_reducible apply chainRead_good
    | with_reducible apply startData_good
    | exact and_reserved (by decide)
    | exact reg_merge (by assumption) (by decide)
    | exact and_left_reserved (reg_reserved (by assumption) _)
    | with_reducible apply Good.ite
    | with_reducible apply Good.ite1
    | with_reducible apply Good.ite2
    | fail_if_no_progress (with_reducible apply Good.upd)
    | fail_if_no_progress (with_reducible refine Good.updTim ?_ rfl)
    | fail_if_no_progress (with_reducible refine Good.updTim0 ?_ rfl)
    | fail_if_no_progress (with_reducible refine Good.updRegs ?_ rfl rfl rfl rfl)
    | (intro _; try intros; try extract_lets)
    | split

theorem chainDone_good {n addr : Nat} {words : List Word} {err : Bool} {j : SendJob} {s : State}
    (gs : Good pq s) : Good pq (chainDone n addr words err j s) := by
  unfold chainDone
  try extract_lets
  repeat' first
    | with_reducible assumption
    | with_reducible apply sendReadFail_good
    | with_reducible apply modJob_good
    | with_reducible apply chainRead_good
    | with_reducible apply halt_good
    | with_reducible apply rejectSend_good
    | with_reducible apply startData_good
    | with_reducible apply Good.foldl
    | with_reducible apply Good.foldl1
    | with_reducible apply Good.foldl2
    | exact and_reserved (by decide)
    | exact reg_merge (by assumption) (by decide)
    | exact and_left_reserved (reg_reserved (by assumption) _)
    | with_reducible apply Good.ite
    | with_reducible apply Good.ite1
    | with_reducible apply Good.ite2
    | fail_if_no_progress (with_reducible apply Good.upd)
    | fail_if_no_progress (with_reducible refine Good.updTim ?_ rfl)
    | fail_if_no_progress (with_reducible refine Good.updTim0 ?_ rfl)
    | fail_if_no_progress (with_reducible refine Good.updRegs ?_ rfl rfl rfl rfl)
    | (intro _; try intros; try extract_lets)
    | split

theorem chainFetch_good {ch tag : Nat} {words : List Word} {err : Bool} {s : State}
    (gs : Good pq s) : Good pq (chainFetch ch tag words err s) := by
  unfold chainFetch
  try extract_lets
  repeat' first
    | with_reducible assumption
    | with_reducible apply strayRead_good
    | with_reducible apply dropRead_good
    | with_reducible apply retryReads_good
    | with_reducible apply chainDone_good
    | with_reducible apply sendData_good
    | exact and_reserved (by decide)
    | exact reg_merge (by assumption) (by decide)
    | exact and_left_reserved (reg_reserved (by assumption) _)
    | with_reducible apply Good.ite
    | with_reducible apply Good.ite1
    | with_reducible apply Good.ite2
    | fail_if_no_progress (with_reducible apply Good.upd)
    | fail_if_no_progress (with_reducible refine Good.updTim ?_ rfl)
    | fail_if_no_progress (with_reducible refine Good.updTim0 ?_ rfl)
    | fail_if_no_progress (with_reducible refine Good.updRegs ?_ rfl rfl rfl rfl)
    | (intro _; try intros; try extract_lets)
    | split

theorem loopSend_good {n peer : Nat} {b : List Byte} {o : SendOpt} {s : State}
    (gs : Good pq s) : Good pq (loopSend n peer b o s) := by
  unfold loopSend
  try extract_lets
  repeat' first
    | with_reducible assumption
    | with_reducible refine storeFrame_good' ?_ (by assumption)
    | with_reducible apply sendDone_good
    | with_reducible apply bufExhaust_good
    | with_reducible apply freeUnheld_good
    | with_reducible apply count1_good
    | with_reducible apply admitTo_good
    | exact and_reserved (by decide)
    | exact reg_merge (by assumption) (by decide)
    | exact and_left_reserved (reg_reserved (by assumption) _)
    | with_reducible apply Good.ite
    | with_reducible apply Good.ite1
    | with_reducible apply Good.ite2
    | fail_if_no_progress (with_reducible apply Good.upd)
    | fail_if_no_progress (with_reducible refine Good.updTim ?_ rfl)
    | fail_if_no_progress (with_reducible refine Good.updTim0 ?_ rfl)
    | fail_if_no_progress (with_reducible refine Good.updRegs ?_ rfl rfl rfl rfl)
    | (intro _; try intros; try extract_lets)
    | split

theorem stageEnter_good {g : Staged} {s : State}
    (gs : Good pq s) : Good pq (stageEnter g s) := by
  unfold stageEnter
  try extract_lets
  repeat' first
    | with_reducible assumption
    | with_reducible apply countR_good
    | with_reducible apply objAdd_good
    | with_reducible apply loopSend_good
    | with_reducible apply paceSend_good
    | with_reducible apply ingress_good
    | exact and_reserved (by decide)
    | exact reg_merge (by assumption) (by decide)
    | exact and_left_reserved (reg_reserved (by assumption) _)
    | with_reducible apply Good.ite
    | with_reducible apply Good.ite1
    | with_reducible apply Good.ite2
    | fail_if_no_progress (with_reducible apply Good.upd)
    | fail_if_no_progress (with_reducible refine Good.updTim ?_ rfl)
    | fail_if_no_progress (with_reducible refine Good.updTim0 ?_ rfl)
    | fail_if_no_progress (with_reducible refine Good.updRegs ?_ rfl rfl rfl rfl)
    | (intro _; try intros; try extract_lets)
    | split

theorem stageRun_good {s : State}
    (gs : Good pq s) : Good pq (stageRun s) := by
  unfold stageRun
  try extract_lets
  repeat' first
    | with_reducible assumption
    | with_reducible apply stageEnter_good
    | with_reducible apply atCycle_good
    | with_reducible apply Good.foldl
    | with_reducible apply Good.foldl1
    | with_reducible apply Good.foldl2
    | exact and_reserved (by decide)
    | exact reg_merge (by assumption) (by decide)
    | exact and_left_reserved (reg_reserved (by assumption) _)
    | with_reducible apply Good.ite
    | with_reducible apply Good.ite1
    | with_reducible apply Good.ite2
    | fail_if_no_progress (with_reducible apply Good.upd)
    | fail_if_no_progress (with_reducible refine Good.updTim ?_ rfl)
    | fail_if_no_progress (with_reducible refine Good.updTim0 ?_ rfl)
    | fail_if_no_progress (with_reducible refine Good.updRegs ?_ rfl rfl rfl rfl)
    | (intro _; try intros; try extract_lets)

theorem sendStage_good {n : Nat} {j : SendJob} {s : State}
    (gs : Good pq s) : Good pq (sendStage n j s) := by
  unfold sendStage
  try extract_lets
  repeat' first
    | with_reducible assumption
    | with_reducible apply rejectSend_good
    | with_reducible apply dropJob_good
    | with_reducible apply setRing_good
    | exact and_reserved (by decide)
    | exact reg_merge (by assumption) (by decide)
    | exact and_left_reserved (reg_reserved (by assumption) _)
    | with_reducible apply Good.ite
    | with_reducible apply Good.ite1
    | with_reducible apply Good.ite2
    | fail_if_no_progress (with_reducible apply Good.upd)
    | fail_if_no_progress (with_reducible refine Good.updTim ?_ rfl)
    | fail_if_no_progress (with_reducible refine Good.updTim0 ?_ rfl)
    | fail_if_no_progress (with_reducible refine Good.updRegs ?_ rfl rfl rfl rfl)
    | (intro _; try intros; try extract_lets)
    | split

theorem stageJobs_good {n fuel : Nat} {s : State} (gs : Good pq s) : Good pq (stageJobs n fuel s) := by
  induction fuel generalizing s with
  | zero => exact gs
  | succ fuel ih =>
    rw [stageJobs]
    split
    · exact gs
    · exact Good.ite (fun _ => ih (sendStage_good gs)) fun _ => gs

theorem sendData_good {ch tag : Nat} {bytes : List Byte} {err : Bool} {ue : Option Word} {s : State}
    (gs : Good pq s) : Good pq (sendData ch tag bytes err ue s) := by
  unfold sendData
  try extract_lets
  repeat' first
    | with_reducible assumption
    | with_reducible apply strayRead_good
    | with_reducible apply dropRead_good
    | with_reducible apply retryReads_good
    | with_reducible apply sendReadFail_good
    | with_reducible apply modJob_good
    | with_reducible apply tryFetch_good
    | with_reducible apply paceSend_good
    | with_reducible apply stageRun_good
    | with_reducible apply stageJobs_good
    | exact and_reserved (by decide)
    | exact reg_merge (by assumption) (by decide)
    | exact and_left_reserved (reg_reserved (by assumption) _)
    | with_reducible apply Good.ite
    | with_reducible apply Good.ite1
    | with_reducible apply Good.ite2
    | fail_if_no_progress (with_reducible apply Good.upd)
    | fail_if_no_progress (with_reducible refine Good.updTim ?_ rfl)
    | fail_if_no_progress (with_reducible refine Good.updTim0 ?_ rfl)
    | fail_if_no_progress (with_reducible refine Good.updRegs ?_ rfl rfl rfl rfl)
    | (intro _; try intros; try extract_lets)
    | split

theorem logStart_good {q : Nat} {t : Token} {s : State}
    (gs : Good pq s) : Good pq (logStart q t s) := by
  unfold logStart
  try extract_lets
  repeat' first
    | with_reducible assumption
    | exact and_reserved (by decide)
    | exact reg_merge (by assumption) (by decide)
    | exact and_left_reserved (reg_reserved (by assumption) _)
    | with_reducible apply Good.ite
    | with_reducible apply Good.ite1
    | with_reducible apply Good.ite2
    | fail_if_no_progress (with_reducible apply Good.upd)

theorem popHead_good {q : Nat} {t : Token} {s : State}
    (gs : Good pq s) : Good pq (popHead q t s) := by
  unfold popHead
  try extract_lets
  repeat' first
    | with_reducible assumption
    | with_reducible apply addChg_good
    | with_reducible apply setQueue_good
    | exact and_reserved (by decide)
    | exact reg_merge (by assumption) (by decide)
    | exact and_left_reserved (reg_reserved (by assumption) _)
    | with_reducible apply Good.ite
    | with_reducible apply Good.ite1
    | with_reducible apply Good.ite2
    | fail_if_no_progress (with_reducible apply Good.upd)

theorem scrapWrites_good {n : Nat} {f : Frame} {s : State}
    (gs : Good pq s) : Good pq (scrapWrites n f s) := by
  unfold scrapWrites
  try extract_lets
  repeat' first
    | with_reducible assumption
    | with_reducible apply hostWrites_good
    | with_reducible apply useFree_good
    | exact and_reserved (by decide)
    | exact reg_merge (by assumption) (by decide)
    | exact and_left_reserved (reg_reserved (by assumption) _)
    | with_reducible apply Good.ite
    | with_reducible apply Good.ite1
    | with_reducible apply Good.ite2
    | fail_if_no_progress (with_reducible apply Good.upd)
    | fail_if_no_progress (with_reducible refine Good.updTim ?_ rfl)
    | fail_if_no_progress (with_reducible refine Good.updTim0 ?_ rfl)
    | fail_if_no_progress (with_reducible refine Good.updRegs ?_ rfl rfl rfl rfl)
    | (intro _; try intros; try extract_lets)
    | split

theorem fillDrop_good {n : Nat} {t : Token} {s : State}
    (gs : Good pq s) : Good pq (fillDrop n t s) := by
  unfold fillDrop
  try extract_lets
  repeat' first
    | with_reducible assumption
    | with_reducible apply release1_good
    | with_reducible apply countR_good
    | with_reducible apply objAdd_good
    | with_reducible apply logStart_good
    | with_reducible apply popHead_good

theorem fillWait_good {n : Nat} {t : Token} {s : State}
    (gs : Good pq s) : Good pq (fillWait n t s) := by
  unfold fillWait
  try extract_lets
  repeat' first
    | with_reducible assumption
    | with_reducible apply countR_good
    | with_reducible apply setRing_good
    | exact and_reserved (by decide)
    | exact reg_merge (by assumption) (by decide)
    | exact and_left_reserved (reg_reserved (by assumption) _)
    | with_reducible apply Good.ite
    | with_reducible apply Good.ite1
    | with_reducible apply Good.ite2
    | fail_if_no_progress (with_reducible apply Good.upd)
    | fail_if_no_progress (with_reducible refine Good.updTim ?_ rfl)
    | fail_if_no_progress (with_reducible refine Good.updTim0 ?_ rfl)
    | fail_if_no_progress (with_reducible refine Good.updRegs ?_ rfl rfl rfl rfl)
    | (intro _; try intros; try extract_lets)

theorem fillStarve_good {n : Nat} {t : Token} {s : State}
    (gs : Good pq s) : Good pq (fillStarve n t s) := by
  unfold fillStarve
  try extract_lets
  repeat' first
    | with_reducible assumption
    | with_reducible apply fillWait_good
    | with_reducible apply tryFetch_good
    | exact and_reserved (by decide)
    | exact reg_merge (by assumption) (by decide)
    | exact and_left_reserved (reg_reserved (by assumption) _)
    | with_reducible apply Good.ite
    | with_reducible apply Good.ite1
    | with_reducible apply Good.ite2
    | fail_if_no_progress (with_reducible apply Good.upd)
    | fail_if_no_progress (with_reducible refine Good.updTim ?_ rfl)
    | fail_if_no_progress (with_reducible refine Good.updTim0 ?_ rfl)
    | fail_if_no_progress (with_reducible refine Good.updRegs ?_ rfl rfl rfl rfl)
    | (intro _; try intros; try extract_lets)

theorem fillFrame_good {n : Nat} {t : Token} {f : Frame} {s : State}
    (gs : Good pq s) : Good pq (fillFrame n t f s) := by
  unfold fillFrame
  try extract_lets
  repeat' first
    | with_reducible assumption
    | with_reducible apply fillDrop_good
    | with_reducible apply scrapWrites_good
    | with_reducible apply cellFail_good
    | with_reducible apply linkFail_good
    | with_reducible apply fillStarve_good
    | with_reducible apply hostWrites_good
    | with_reducible apply leaves_good
    | with_reducible apply atCycle_good
    | with_reducible apply setRing_good
    | with_reducible apply cqReserve_good
    | with_reducible apply countR_good
    | with_reducible apply objAdd_good
    | with_reducible apply logStart_good
    | with_reducible apply release1_good
    | with_reducible apply popHead_good
    | with_reducible apply tryFetch_good
    | exact and_reserved (by decide)
    | exact reg_merge (by assumption) (by decide)
    | exact and_left_reserved (reg_reserved (by assumption) _)
    | with_reducible apply Good.ite
    | with_reducible apply Good.ite1
    | with_reducible apply Good.ite2
    | fail_if_no_progress (with_reducible apply Good.upd)
    | fail_if_no_progress (with_reducible refine Good.updTim ?_ rfl)
    | fail_if_no_progress (with_reducible refine Good.updTim0 ?_ rfl)
    | fail_if_no_progress (with_reducible refine Good.updRegs ?_ rfl rfl rfl rfl)
    | (intro _; try intros; try extract_lets)
    | split

end Sys2Proof.Machine
end

