-- ==== Sys2Proof/Laws/GoodTerminals.lean ====
section
/-!
SUPPORT. What each operation of Machine/Terminals.lean keeps (Laws/Good.lean).
-/

namespace Sys2Proof.Machine

-- one declaration at a time: the package is compiled as one text within a limit of memory
set_option Elab.async false

variable {pq : Ghost}

theorem setTre_good {t : Nat} {r : Tre} {s : State}
    (gs : Good pq s) : Good pq (setTre t r s) := by
  unfold setTre
  try extract_lets
  repeat' first
    | with_reducible assumption
    | exact and_reserved (by decide)
    | exact reg_merge (by assumption) (by decide)
    | exact and_left_reserved (reg_reserved (by assumption) _)
    | with_reducible apply Good.ite
    | with_reducible apply Good.ite1
    | with_reducible apply Good.ite2
    | fail_if_no_progress (with_reducible apply Good.upd)

theorem modTre_good {t : Nat} {f : Tre → Tre} {s : State}
    (gs : Good pq s) : Good pq (modTre t f s) := by
  unfold modTre
  try extract_lets
  repeat' first
    | with_reducible assumption
    | with_reducible apply setTre_good

theorem modCtx_good {t i : Nat} {f : Ctx → Ctx} {s : State}
    (gs : Good pq s) : Good pq (modCtx t i f s) := by
  unfold modCtx
  try extract_lets
  repeat' first
    | with_reducible assumption
    | with_reducible apply modTre_good

theorem modChn_good {t : Nat} {f : Chn → Chn} {s : State}
    (gs : Good pq s) : Good pq (modChn t f s) := by
  unfold modChn
  try extract_lets
  repeat' first
    | with_reducible assumption
    | exact and_reserved (by decide)
    | exact reg_merge (by assumption) (by decide)
    | exact and_left_reserved (reg_reserved (by assumption) _)
    | with_reducible apply Good.ite
    | with_reducible apply Good.ite1
    | with_reducible apply Good.ite2
    | fail_if_no_progress (with_reducible apply Good.upd)

theorem setSlot_good {n : Nat} {v : Slot} {s : State}
    (gs : Good pq s) : Good pq (setSlot n v s) := by
  unfold setSlot
  try extract_lets
  repeat' first
    | with_reducible assumption
    | exact and_reserved (by decide)
    | exact reg_merge (by assumption) (by decide)
    | exact and_left_reserved (reg_reserved (by assumption) _)
    | with_reducible apply Good.ite
    | with_reducible apply Good.ite1
    | with_reducible apply Good.ite2
    | fail_if_no_progress (with_reducible apply Good.upd)

theorem pushTmm_good {t : Nat} {m : Tmm} {s : State}
    (gs : Good pq s) : Good pq (pushTmm t m s) := by
  unfold pushTmm
  try extract_lets
  repeat' first
    | with_reducible assumption
    | with_reducible apply wake_good
    | with_reducible apply setTre_good
    | with_reducible apply count1_good
    | exact and_reserved (by decide)
    | exact reg_merge (by assumption) (by decide)
    | exact and_left_reserved (reg_reserved (by assumption) _)
    | with_reducible apply Good.ite
    | with_reducible apply Good.ite1
    | with_reducible apply Good.ite2
    | fail_if_no_progress (with_reducible apply Good.upd)
    | fail_if_no_progress (with_reducible refine Good.updTim ?_ rfl)
    | fail_if_no_progress (with_reducible refine Good.updTim0 ?_ rfl)
    | fail_if_no_progress (with_reducible refine Good.updRegs ?_ rfl rfl rfl rfl)
    | (intro _; try intros; try extract_lets)

theorem sendTmm_good {t type tid tgt : Nat} {body : List Byte} {tickAt : Option Nat} {acked : Bool} {s : State}
    (gs : Good pq s) : Good pq (sendTmm t type tid tgt body tickAt acked s) := by
  unfold sendTmm
  try extract_lets
  repeat' first
    | with_reducible assumption
    | with_reducible apply pushTmm_good
    | with_reducible apply setTre_good

theorem tmmPendQueued_good {t : Nat} {s : State}
    (gs : Good pq s) : Good pq (tmmPendQueued t s) := by
  unfold tmmPendQueued
  try extract_lets
  repeat' first
    | with_reducible assumption
    | with_reducible apply wake_good
    | with_reducible apply setTre_good
    | exact and_reserved (by decide)
    | exact reg_merge (by assumption) (by decide)
    | exact and_left_reserved (reg_reserved (by assumption) _)
    | with_reducible apply Good.ite
    | with_reducible apply Good.ite1
    | with_reducible apply Good.ite2
    | fail_if_no_progress (with_reducible apply Good.upd)
    | fail_if_no_progress (with_reducible refine Good.updTim ?_ rfl)
    | fail_if_no_progress (with_reducible refine Good.updTim0 ?_ rfl)
    | fail_if_no_progress (with_reducible refine Good.updRegs ?_ rfl rfl rfl rfl)
    | (intro _; try intros; try extract_lets)
    | split

theorem dropTmm_good {t : Nat} {p : Tmm → Bool} {s : State}
    (gs : Good pq s) : Good pq (dropTmm t p s) := by
  unfold dropTmm
  try extract_lets
  repeat' first
    | with_reducible assumption
    | with_reducible apply modTre_good

theorem refuseWaits_good {t : Nat} {p : Tmm → Bool} {s : State}
    (gs : Good pq s) : Good pq (refuseWaits t p s) := by
  unfold refuseWaits
  try extract_lets
  repeat' first
    | with_reducible assumption
    | with_reducible apply completeCmd_good
    | with_reducible apply Good.foldl
    | with_reducible apply Good.foldl1
    | with_reducible apply Good.foldl2
    | exact and_reserved (by decide)
    | exact reg_merge (by assumption) (by decide)
    | exact and_left_reserved (reg_reserved (by assumption) _)
    | with_reducible apply Good.ite
    | with_reducible apply Good.ite1
    | with_reducible apply Good.ite2
    | fail_if_no_progress (with_reducible apply Good.upd)
    | fail_if_no_progress (with_reducible refine Good.updTim ?_ rfl)
    | fail_if_no_progress (with_reducible refine Good.updTim0 ?_ rfl)
    | fail_if_no_progress (with_reducible refine Good.updRegs ?_ rfl rfl rfl rfl)
    | (intro _; try intros; try extract_lets)
    | split

theorem sendAlloc_good {t tid n op : Nat} {s : State}
    (gs : Good pq s) : Good pq (sendAlloc t tid n op s) := by
  unfold sendAlloc
  try extract_lets
  repeat' first
    | with_reducible assumption
    | with_reducible apply sendTmm_good

theorem bindHandle_good {t tid h : Nat} {s : State}
    (gs : Good pq s) : Good pq (bindHandle t tid h s) := by
  unfold bindHandle
  try extract_lets
  repeat' first
    | with_reducible assumption
    | with_reducible apply modChn_good
    | with_reducible apply sendAlloc_good
    | exact and_reserved (by decide)
    | exact reg_merge (by assumption) (by decide)
    | exact and_left_reserved (reg_reserved (by assumption) _)
    | with_reducible apply Good.ite
    | with_reducible apply Good.ite1
    | with_reducible apply Good.ite2
    | fail_if_no_progress (with_reducible apply Good.upd)
    | fail_if_no_progress (with_reducible refine Good.updTim ?_ rfl)
    | fail_if_no_progress (with_reducible refine Good.updTim0 ?_ rfl)
    | fail_if_no_progress (with_reducible refine Good.updRegs ?_ rfl rfl rfl rfl)
    | (intro _; try intros; try extract_lets)

theorem unbindHandle_good {t tid h : Nat} {s : State}
    (gs : Good pq s) : Good pq (unbindHandle t tid h s) := by
  unfold unbindHandle
  try extract_lets
  repeat' first
    | with_reducible assumption
    | with_reducible apply sendAlloc_good
    | with_reducible apply modChn_good
    | exact and_reserved (by decide)
    | exact reg_merge (by assumption) (by decide)
    | exact and_left_reserved (reg_reserved (by assumption) _)
    | with_reducible apply Good.ite
    | with_reducible apply Good.ite1
    | with_reducible apply Good.ite2
    | fail_if_no_progress (with_reducible apply Good.upd)
    | fail_if_no_progress (with_reducible refine Good.updTim ?_ rfl)
    | fail_if_no_progress (with_reducible refine Good.updTim0 ?_ rfl)
    | fail_if_no_progress (with_reducible refine Good.updRegs ?_ rfl rfl rfl rfl)
    | (intro _; try intros; try extract_lets)

theorem bindAgain_good {t h : Nat} {s : State}
    (gs : Good pq s) : Good pq (bindAgain t h s) := by
  unfold bindAgain
  try extract_lets
  repeat' first
    | with_reducible assumption
    | with_reducible apply modChn_good
    | with_reducible apply bindHandle_good
    | exact and_reserved (by decide)
    | exact reg_merge (by assumption) (by decide)
    | exact and_left_reserved (reg_reserved (by assumption) _)
    | with_reducible apply Good.ite
    | with_reducible apply Good.ite1
    | with_reducible apply Good.ite2
    | fail_if_no_progress (with_reducible apply Good.upd)
    | fail_if_no_progress (with_reducible refine Good.updTim ?_ rfl)
    | fail_if_no_progress (with_reducible refine Good.updTim0 ?_ rfl)
    | fail_if_no_progress (with_reducible refine Good.updRegs ?_ rfl rfl rfl rfl)
    | (intro _; try intros; try extract_lets)

theorem bindFreed_good {t tid : Nat} {s : State}
    (gs : Good pq s) : Good pq (bindFreed t tid s) := by
  unfold bindFreed
  try extract_lets
  repeat' first
    | with_reducible assumption
    | with_reducible apply bindAgain_good
    | with_reducible apply Good.foldl
    | with_reducible apply Good.foldl1
    | with_reducible apply Good.foldl2
    | exact and_reserved (by decide)
    | exact reg_merge (by assumption) (by decide)
    | exact and_left_reserved (reg_reserved (by assumption) _)
    | with_reducible apply Good.ite
    | with_reducible apply Good.ite1
    | with_reducible apply Good.ite2
    | fail_if_no_progress (with_reducible apply Good.upd)
    | fail_if_no_progress (with_reducible refine Good.updTim ?_ rfl)
    | fail_if_no_progress (with_reducible refine Good.updTim0 ?_ rfl)
    | fail_if_no_progress (with_reducible refine Good.updRegs ?_ rfl rfl rfl rfl)
    | (intro _; try intros; try extract_lets)

theorem syncServices_good {t : Nat} {s : State}
    (gs : Good pq s) : Good pq (syncServices t s) := by
  unfold syncServices
  try extract_lets
  repeat' first
    | with_reducible assumption
    | with_reducible apply modChn_good
    | with_reducible apply sendAlloc_good
    | with_reducible apply Good.foldl
    | with_reducible apply Good.foldl1
    | with_reducible apply Good.foldl2
    | exact and_reserved (by decide)
    | exact reg_merge (by assumption) (by decide)
    | exact and_left_reserved (reg_reserved (by assumption) _)
    | with_reducible apply Good.ite
    | with_reducible apply Good.ite1
    | with_reducible apply Good.ite2
    | fail_if_no_progress (with_reducible apply Good.upd)
    | fail_if_no_progress (with_reducible refine Good.updTim ?_ rfl)
    | fail_if_no_progress (with_reducible refine Good.updTim0 ?_ rfl)
    | fail_if_no_progress (with_reducible refine Good.updRegs ?_ rfl rfl rfl rfl)
    | (intro _; try intros; try extract_lets)

theorem sendBindings_good {t tid : Nat} {all : Bool} {s : State}
    (gs : Good pq s) : Good pq (sendBindings t tid all s) := by
  unfold sendBindings
  try extract_lets
  repeat' first
    | with_reducible assumption
    | with_reducible apply sendAlloc_good
    | with_reducible apply modChn_good
    | with_reducible apply Good.foldl
    | with_reducible apply Good.foldl1
    | with_reducible apply Good.foldl2
    | exact and_reserved (by decide)
    | exact reg_merge (by assumption) (by decide)
    | exact and_left_reserved (reg_reserved (by assumption) _)
    | with_reducible apply Good.ite
    | with_reducible apply Good.ite1
    | with_reducible apply Good.ite2
    | fail_if_no_progress (with_reducible apply Good.upd)
    | fail_if_no_progress (with_reducible refine Good.updTim ?_ rfl)
    | fail_if_no_progress (with_reducible refine Good.updTim0 ?_ rfl)
    | fail_if_no_progress (with_reducible refine Good.updRegs ?_ rfl rfl rfl rfl)
    | (intro _; try intros; try extract_lets)

theorem noticeC_good {t tid type cause : Nat} {w6 : Word} {s : State}
    (gs : Good pq s) : Good pq (noticeC t tid type cause w6 s) := by
  unfold noticeC
  try extract_lets
  repeat' first
    | with_reducible assumption
    | with_reducible apply noticeT_good

theorem release_good {t tid order : Nat} {s : State}
    (gs : Good pq s) : Good pq (release t tid order s) := by
  unfold release
  try extract_lets
  repeat' first
    | with_reducible assumption
    | with_reducible apply refuseWaits_good
    | with_reducible apply dropTmm_good
    | with_reducible apply modChn_good
    | with_reducible apply flushQueue_good
    | with_reducible apply modCtx_good
    | with_reducible apply sendTmm_good
    | with_reducible apply Good.foldl
    | with_reducible apply Good.foldl1
    | with_reducible apply Good.foldl2
    | exact and_reserved (by decide)
    | exact reg_merge (by assumption) (by decide)
    | exact and_left_reserved (reg_reserved (by assumption) _)
    | with_reducible apply Good.ite
    | with_reducible apply Good.ite1
    | with_reducible apply Good.ite2
    | fail_if_no_progress (with_reducible apply Good.upd)
    | fail_if_no_progress (with_reducible refine Good.updTim ?_ rfl)
    | fail_if_no_progress (with_reducible refine Good.updTim0 ?_ rfl)
    | fail_if_no_progress (with_reducible refine Good.updRegs ?_ rfl rfl rfl rfl)
    | (intro _; try intros; try extract_lets)

theorem lose_good {t tid cause : Nat} {s : State}
    (gs : Good pq s) : Good pq (lose t tid cause s) := by
  unfold lose
  try extract_lets
  repeat' first
    | with_reducible assumption
    | with_reducible apply noticeC_good
    | with_reducible apply modCtx_good

theorem exhausted_good {t tid : Nat} {s : State}
    (gs : Good pq s) : Good pq (exhausted t tid s) := by
  unfold exhausted
  try extract_lets
  repeat' first
    | with_reducible assumption
    | with_reducible apply noticeC_good
    | with_reducible apply release_good
    | with_reducible apply lose_good
    | exact and_reserved (by decide)
    | exact reg_merge (by assumption) (by decide)
    | exact and_left_reserved (reg_reserved (by assumption) _)
    | with_reducible apply Good.ite
    | with_reducible apply Good.ite1
    | with_reducible apply Good.ite2
    | fail_if_no_progress (with_reducible apply Good.upd)
    | fail_if_no_progress (with_reducible refine Good.updTim ?_ rfl)
    | fail_if_no_progress (with_reducible refine Good.updTim0 ?_ rfl)
    | fail_if_no_progress (with_reducible refine Good.updRegs ?_ rfl rfl rfl rfl)
    | (intro _; try intros; try extract_lets)
    | split

theorem giveUpOne_good {t : Nat} {s : State} {m : Tmm}
    (gs : Good pq s) : Good pq (giveUpOne t s m) := by
  unfold giveUpOne
  try extract_lets
  repeat' first
    | with_reducible assumption
    | with_reducible apply noticeC_good
    | with_reducible apply modTre_good

theorem giveUp_good {t tid : Nat} {s : State}
    (gs : Good pq s) : Good pq (giveUp t tid s) := by
  unfold giveUp
  try extract_lets
  repeat' first
    | with_reducible assumption
    | with_reducible apply exhausted_good
    | with_reducible apply giveUpOne_good
    | with_reducible apply Good.foldl
    | with_reducible apply Good.foldl1
    | with_reducible apply Good.foldl2
    | exact and_reserved (by decide)
    | exact reg_merge (by assumption) (by decide)
    | exact and_left_reserved (reg_reserved (by assumption) _)
    | with_reducible apply Good.ite
    | with_reducible apply Good.ite1
    | with_reducible apply Good.ite2
    | fail_if_no_progress (with_reducible apply Good.upd)
    | fail_if_no_progress (with_reducible refine Good.updTim ?_ rfl)
    | fail_if_no_progress (with_reducible refine Good.updTim0 ?_ rfl)
    | fail_if_no_progress (with_reducible refine Good.updRegs ?_ rfl rfl rfl rfl)
    | (intro _; try intros; try extract_lets)

theorem ackTimeout_good {t : Nat} {seq : Byte} {s : State}
    (gs : Good pq s) : Good pq (ackTimeout t seq s) := by
  unfold ackTimeout
  try extract_lets
  repeat' first
    | with_reducible assumption
    | with_reducible apply setTre_good
    | with_reducible apply pushTmm_good
    | with_reducible apply exhausted_good
    | with_reducible apply giveUpOne_good
    | exact and_reserved (by decide)
    | exact reg_merge (by assumption) (by decide)
    | exact and_left_reserved (reg_reserved (by assumption) _)
    | with_reducible apply Good.ite
    | with_reducible apply Good.ite1
    | with_reducible apply Good.ite2
    | fail_if_no_progress (with_reducible apply Good.upd)
    | fail_if_no_progress (with_reducible refine Good.updTim ?_ rfl)
    | fail_if_no_progress (with_reducible refine Good.updTim0 ?_ rfl)
    | fail_if_no_progress (with_reducible refine Good.updRegs ?_ rfl rfl rfl rfl)
    | (intro _; try intros; try extract_lets)
    | split

theorem startRanging_good {t tid : Nat} {new : Bool} {eqd : Int} {s0 : State}
    (gs : Good pq s0) : Good pq (startRanging t tid new eqd s0) := by
  unfold startRanging
  try extract_lets
  repeat' first
    | with_reducible assumption
    | with_reducible apply dropTmm_good
    | with_reducible apply modTre_good
    | with_reducible apply sendTmm_good

theorem enterHeard_good {t tid : Nat} {a : Ann} {s : State}
    (gs : Good pq s) : Good pq (enterHeard t tid a s) := by
  unfold enterHeard
  try extract_lets
  repeat' first
    | with_reducible assumption
    | with_reducible apply dropTmm_good
    | with_reducible apply modCtx_good
    | with_reducible apply sendTmm_good
    | with_reducible apply startRanging_good
    | with_reducible apply noticeC_good
    | with_reducible apply stCode_good
    | exact and_reserved (by decide)
    | exact reg_merge (by assumption) (by decide)
    | exact and_left_reserved (reg_reserved (by assumption) _)
    | with_reducible apply Good.ite
    | with_reducible apply Good.ite1
    | with_reducible apply Good.ite2
    | fail_if_no_progress (with_reducible apply Good.upd)
    | fail_if_no_progress (with_reducible refine Good.updTim ?_ rfl)
    | fail_if_no_progress (with_reducible refine Good.updTim0 ?_ rfl)
    | fail_if_no_progress (with_reducible refine Good.updRegs ?_ rfl rfl rfl rfl)
    | (intro _; try intros; try extract_lets)
    | split

theorem serialConflict_good {t u : Nat} {a : Ann} {s : State}
    (gs : Good pq s) : Good pq (serialConflict t u a s) := by
  unfold serialConflict
  try extract_lets
  repeat' first
    | with_reducible assumption
    | with_reducible apply noticeT_good
    | with_reducible apply count1_good

theorem announce_good {t : Nat} {a : Ann} {s : State} (gs : Good pq s) : Good pq (announce t a s) := by
  unfold announce
  cases boundElse s t a.serial with
  | some u => exact noticeT_good (count1_good gs)
  | none =>
    dsimp -zeta only
    extract_lets bound target s1 s2
    have g1 : Good pq s1 := count1_good gs
    have g2 : Good pq s2 :=
      Good.ite (fun _ => Good.ite (fun _ => g1) fun _ => noticeT_good (modTre_good g1)) fun _ => gs
    clear_value s2 target bound
    cases target with
    | some i => exact Good.ite (fun _ => enterHeard_good gs) fun _ => noticeT_good (modTre_good gs)
    | none =>
      dsimp only
      split
      · exact modCtx_good gs
      · exact noticeT_good (modTre_good g2)

theorem heardWaiting_good {t : Nat} {s : State} (gs : Good pq s) : Good pq (heardWaiting t s) := by
  unfold heardWaiting
  refine Good.foldl gs fun s a hs => ?_
  extract_lets gone target
  have hg : Good pq (gone s) := modTre_good hs
  clear_value target
  cases target with
  | some i =>
    dsimp only
    split
    · exact serialConflict_good hg
    · exact Good.ite (fun _ => enterHeard_good hg) fun _ => hs
  | none => exact hs

theorem heardExpire_good {t : Nat} {serial : BitVec 64} {s : State}
    (gs : Good pq s) : Good pq (heardExpire t serial s) := by
  unfold heardExpire
  try extract_lets
  repeat' first
    | with_reducible assumption
    | with_reducible apply modTre_good
    | exact and_reserved (by decide)
    | exact reg_merge (by assumption) (by decide)
    | exact and_left_reserved (reg_reserved (by assumption) _)
    | with_reducible apply Good.ite
    | with_reducible apply Good.ite1
    | with_reducible apply Good.ite2
    | fail_if_no_progress (with_reducible apply Good.upd)
    | fail_if_no_progress (with_reducible refine Good.updTim ?_ rfl)
    | fail_if_no_progress (with_reducible refine Good.updTim0 ?_ rfl)
    | fail_if_no_progress (with_reducible refine Good.updRegs ?_ rfl rfl rfl rfl)
    | (intro _; try intros; try extract_lets)

theorem lostOver_good {t tid : Nat} {s : State}
    (gs : Good pq s) : Good pq (lostOver t tid s) := by
  unfold lostOver
  try extract_lets
  repeat' first
    | with_reducible assumption
    | with_reducible apply release_good
    | with_reducible apply noticeC_good
    | exact and_reserved (by decide)
    | exact reg_merge (by assumption) (by decide)
    | exact and_left_reserved (reg_reserved (by assumption) _)
    | with_reducible apply Good.ite
    | with_reducible apply Good.ite1
    | with_reducible apply Good.ite2
    | fail_if_no_progress (with_reducible apply Good.upd)
    | fail_if_no_progress (with_reducible refine Good.updTim ?_ rfl)
    | fail_if_no_progress (with_reducible refine Good.updTim0 ?_ rfl)
    | fail_if_no_progress (with_reducible refine Good.updRegs ?_ rfl rfl rfl rfl)
    | (intro _; try intros; try extract_lets)

theorem lostExpire_good {t tid : Nat} {s : State}
    (gs : Good pq s) : Good pq (lostExpire t tid s) := by
  unfold lostExpire
  try extract_lets
  repeat' first
    | with_reducible assumption
    | with_reducible apply lostOver_good
    | exact and_reserved (by decide)
    | exact reg_merge (by assumption) (by decide)
    | exact and_left_reserved (reg_reserved (by assumption) _)
    | with_reducible apply Good.ite
    | with_reducible apply Good.ite1
    | with_reducible apply Good.ite2
    | fail_if_no_progress (with_reducible apply Good.upd)
    | fail_if_no_progress (with_reducible refine Good.updTim ?_ rfl)
    | fail_if_no_progress (with_reducible refine Good.updTim0 ?_ rfl)
    | fail_if_no_progress (with_reducible refine Good.updRegs ?_ rfl rfl rfl rfl)
    | (intro _; try intros; try extract_lets)

theorem idFree_good {t tid : Nat} {s : State}
    (gs : Good pq s) : Good pq (idFree t tid s) := by
  unfold idFree
  try extract_lets
  repeat' first
    | with_reducible assumption
    | with_reducible apply bindFreed_good
    | with_reducible apply modCtx_good
    | exact and_reserved (by decide)
    | exact reg_merge (by assumption) (by decide)
    | exact and_left_reserved (reg_reserved (by assumption) _)
    | with_reducible apply Good.ite
    | with_reducible apply Good.ite1
    | with_reducible apply Good.ite2
    | fail_if_no_progress (with_reducible apply Good.upd)
    | fail_if_no_progress (with_reducible refine Good.updTim ?_ rfl)
    | fail_if_no_progress (with_reducible refine Good.updTim0 ?_ rfl)
    | fail_if_no_progress (with_reducible refine Good.updRegs ?_ rfl rfl rfl rfl)
    | (intro _; try intros; try extract_lets)

theorem rangedBy_good {t tid : Nat} {delta : Int} {s : State}
    (gs : Good pq s) : Good pq (rangedBy t tid delta s) := by
  unfold rangedBy
  try extract_lets
  repeat' first
    | with_reducible assumption
    | with_reducible apply modCtx_good
    | with_reducible apply noticeC_good
    | with_reducible apply sendBindings_good
    | exact and_reserved (by decide)
    | exact reg_merge (by assumption) (by decide)
    | exact and_left_reserved (reg_reserved (by assumption) _)
    | with_reducible apply Good.ite
    | with_reducible apply Good.ite1
    | with_reducible apply Good.ite2
    | fail_if_no_progress (with_reducible apply Good.upd)
    | fail_if_no_progress (with_reducible refine Good.updTim ?_ rfl)
    | fail_if_no_progress (with_reducible refine Good.updTim0 ?_ rfl)
    | fail_if_no_progress (with_reducible refine Good.updRegs ?_ rfl rfl rfl rfl)
    | (intro _; try intros; try extract_lets)

theorem ackEffect_good {t : Nat} {a : AckIn} {m : Tmm} {s : State}
    (gs : Good pq s) : Good pq (ackEffect t a m s) := by
  unfold ackEffect
  try extract_lets
  repeat' first
    | with_reducible assumption
    | with_reducible apply modCtx_good
    | with_reducible apply rangedBy_good
    | with_reducible apply modChn_good
    | with_reducible apply bindAgain_good
    | exact and_reserved (by decide)
    | exact reg_merge (by assumption) (by decide)
    | exact and_left_reserved (reg_reserved (by assumption) _)
    | with_reducible apply Good.ite
    | with_reducible apply Good.ite1
    | with_reducible apply Good.ite2
    | fail_if_no_progress (with_reducible apply Good.upd)
    | fail_if_no_progress (with_reducible refine Good.updTim ?_ rfl)
    | fail_if_no_progress (with_reducible refine Good.updTim0 ?_ rfl)
    | fail_if_no_progress (with_reducible refine Good.updRegs ?_ rfl rfl rfl rfl)
    | (intro _; try intros; try extract_lets)

theorem takeAck_good {t : Nat} {a : AckIn} {s : State}
    (gs : Good pq s) : Good pq (takeAck t a s) := by
  unfold takeAck
  try extract_lets
  repeat' first
    | with_reducible assumption
    | with_reducible apply ackEffect_good
    | with_reducible apply dropTmm_good
    | exact and_reserved (by decide)
    | exact reg_merge (by assumption) (by decide)
    | exact and_left_reserved (reg_reserved (by assumption) _)
    | with_reducible apply Good.ite
    | with_reducible apply Good.ite1
    | with_reducible apply Good.ite2
    | fail_if_no_progress (with_reducible apply Good.upd)
    | fail_if_no_progress (with_reducible refine Good.updTim ?_ rfl)
    | fail_if_no_progress (with_reducible refine Good.updTim0 ?_ rfl)
    | fail_if_no_progress (with_reducible refine Good.updRegs ?_ rfl rfl rfl rfl)
    | (intro _; try intros; try extract_lets)
    | split

theorem timeDelay_good {t tid : Nat} {s : State}
    (gs : Good pq s) : Good pq (timeDelay t tid s) := by
  unfold timeDelay
  try extract_lets
  repeat' first
    | with_reducible assumption
    | with_reducible apply modCtx_good
    | with_reducible apply sendTmm_good
    | exact and_reserved (by decide)
    | exact reg_merge (by assumption) (by decide)
    | exact and_left_reserved (reg_reserved (by assumption) _)
    | with_reducible apply Good.ite
    | with_reducible apply Good.ite1
    | with_reducible apply Good.ite2
    | fail_if_no_progress (with_reducible apply Good.upd)
    | fail_if_no_progress (with_reducible refine Good.updTim ?_ rfl)
    | fail_if_no_progress (with_reducible refine Good.updTim0 ?_ rfl)
    | fail_if_no_progress (with_reducible refine Good.updRegs ?_ rfl rfl rfl rfl)
    | (intro _; try intros; try extract_lets)

theorem rangingStep_good {t tid : Nat} {s : State}
    (gs : Good pq s) : Good pq (rangingStep t tid s) := by
  unfold rangingStep
  try extract_lets
  repeat' first
    | with_reducible assumption
    | with_reducible apply noticeC_good
    | with_reducible apply release_good
    | with_reducible apply sendTmm_good
    | with_reducible apply modCtx_good
    | exact and_reserved (by decide)
    | exact reg_merge (by assumption) (by decide)
    | exact and_left_reserved (reg_reserved (by assumption) _)
    | with_reducible apply Good.ite
    | with_reducible apply Good.ite1
    | with_reducible apply Good.ite2
    | fail_if_no_progress (with_reducible apply Good.upd)
    | fail_if_no_progress (with_reducible refine Good.updTim ?_ rfl)
    | fail_if_no_progress (with_reducible refine Good.updTim0 ?_ rfl)
    | fail_if_no_progress (with_reducible refine Good.updRegs ?_ rfl rfl rfl rfl)
    | (intro _; try intros; try extract_lets)
    | split

theorem cutTerminal_good {t tid : Nat} {s : State}
    (gs : Good pq s) : Good pq (cutTerminal t tid s) := by
  unfold cutTerminal
  try extract_lets
  repeat' first
    | with_reducible assumption
    | with_reducible apply rangingStep_good
    | with_reducible apply giveUp_good
    | with_reducible apply startRanging_good
    | with_reducible apply modCtx_good
    | with_reducible apply sendTmm_good
    | with_reducible apply lose_good
    | exact and_reserved (by decide)
    | exact reg_merge (by assumption) (by decide)
    | exact and_left_reserved (reg_reserved (by assumption) _)
    | with_reducible apply Good.ite
    | with_reducible apply Good.ite1
    | with_reducible apply Good.ite2
    | fail_if_no_progress (with_reducible apply Good.upd)
    | fail_if_no_progress (with_reducible refine Good.updTim ?_ rfl)
    | fail_if_no_progress (with_reducible refine Good.updTim0 ?_ rfl)
    | fail_if_no_progress (with_reducible refine Good.updRegs ?_ rfl rfl rfl rfl)
    | (intro _; try intros; try extract_lets)

theorem cutAdmit_good {t tid : Nat} {s : State}
    (gs : Good pq s) : Good pq (cutAdmit t tid s) := by
  unfold cutAdmit
  try extract_lets
  repeat' first
    | with_reducible assumption
    | with_reducible apply serialConflict_good
    | with_reducible apply modCtx_good
    | with_reducible apply enterHeard_good
    | exact and_reserved (by decide)
    | exact reg_merge (by assumption) (by decide)
    | exact and_left_reserved (reg_reserved (by assumption) _)
    | with_reducible apply Good.ite
    | with_reducible apply Good.ite1
    | with_reducible apply Good.ite2
    | fail_if_no_progress (with_reducible apply Good.upd)
    | fail_if_no_progress (with_reducible refine Good.updTim ?_ rfl)
    | fail_if_no_progress (with_reducible refine Good.updTim0 ?_ rfl)
    | fail_if_no_progress (with_reducible refine Good.updRegs ?_ rfl rfl rfl rfl)
    | (intro _; try intros; try extract_lets)
    | split

theorem cutRelease_good {t tid : Nat} {s : State}
    (gs : Good pq s) : Good pq (cutRelease t tid s) := by
  unfold cutRelease
  try extract_lets
  repeat' first
    | with_reducible assumption
    | with_reducible apply lostOver_good
    | with_reducible apply release_good
    | with_reducible apply modCtx_good
    | with_reducible apply timeDelay_good
    | exact and_reserved (by decide)
    | exact reg_merge (by assumption) (by decide)
    | exact and_left_reserved (reg_reserved (by assumption) _)
    | with_reducible apply Good.ite
    | with_reducible apply Good.ite1
    | with_reducible apply Good.ite2
    | fail_if_no_progress (with_reducible apply Good.upd)
    | fail_if_no_progress (with_reducible refine Good.updTim ?_ rfl)
    | fail_if_no_progress (with_reducible refine Good.updTim0 ?_ rfl)
    | fail_if_no_progress (with_reducible refine Good.updRegs ?_ rfl rfl rfl rfl)
    | (intro _; try intros; try extract_lets)

theorem missTerminal_good {t tid : Nat} {s : State}
    (gs : Good pq s) : Good pq (missTerminal t tid s) := by
  unfold missTerminal
  try extract_lets
  repeat' first
    | with_reducible assumption
    | with_reducible apply countO_good
    | with_reducible apply modCtx_good
    | exact and_reserved (by decide)
    | exact reg_merge (by assumption) (by decide)
    | exact and_left_reserved (reg_reserved (by assumption) _)
    | with_reducible apply Good.ite
    | with_reducible apply Good.ite1
    | with_reducible apply Good.ite2
    | fail_if_no_progress (with_reducible apply Good.upd)
    | fail_if_no_progress (with_reducible refine Good.updTim ?_ rfl)
    | fail_if_no_progress (with_reducible refine Good.updTim0 ?_ rfl)
    | fail_if_no_progress (with_reducible refine Good.updRegs ?_ rfl rfl rfl rfl)
    | (intro _; try intros; try extract_lets)

theorem prelist_good {t : Nat} {on : Bool} {s : State}
    (gs : Good pq s) : Good pq (prelist t on s) := by
  unfold prelist
  try extract_lets
  repeat' first
    | with_reducible assumption
    | with_reducible apply modTre_good
    | exact and_reserved (by decide)
    | exact reg_merge (by assumption) (by decide)
    | exact and_left_reserved (reg_reserved (by assumption) _)
    | with_reducible apply Good.ite
    | with_reducible apply Good.ite1
    | with_reducible apply Good.ite2
    | fail_if_no_progress (with_reducible apply Good.upd)
    | fail_if_no_progress (with_reducible refine Good.updTim ?_ rfl)
    | fail_if_no_progress (with_reducible refine Good.updTim0 ?_ rfl)
    | fail_if_no_progress (with_reducible refine Good.updRegs ?_ rfl rfl rfl rfl)
    | (intro _; try intros; try extract_lets)

theorem treeWrite_good {part : BitVec 6} {be : BitVec 4} {t : Nat} {f : State → State} {s : State}
    (gs : Good pq s) (kf : ∀ s, Good pq s → Good pq (f s)) : Good pq (treeWrite part be t f s) := by
  unfold treeWrite
  try extract_lets
  repeat' first
    | with_reducible assumption
    | with_reducible apply partViol_good
    | with_reducible apply kf
    | exact and_reserved (by decide)
    | exact reg_merge (by assumption) (by decide)
    | exact and_left_reserved (reg_reserved (by assumption) _)
    | with_reducible apply Good.ite
    | with_reducible apply Good.ite1
    | with_reducible apply Good.ite2
    | fail_if_no_progress (with_reducible apply Good.upd)
    | fail_if_no_progress (with_reducible refine Good.updTim ?_ rfl)
    | fail_if_no_progress (with_reducible refine Good.updTim0 ?_ rfl)
    | fail_if_no_progress (with_reducible refine Good.updRegs ?_ rfl rfl rfl rfl)
    | (intro _; try intros; try extract_lets)

end Sys2Proof.Machine
end

