-- ==== Sys2Proof/Laws/GoodChurn.lean ====
section
/-!
SUPPORT. What each operation of Machine/Churn.lean keeps (Laws/Good.lean).
-/

namespace Sys2Proof.Machine

-- one declaration at a time: the package is compiled as one text within a limit of memory
set_option Elab.async false

variable {pq : Ghost}

theorem applyAlloc_good {t h : Nat} {w : W4} {s : State}
    (gs : Good pq s) : Good pq (applyAlloc t h w s) := by
  unfold applyAlloc
  try extract_lets
  repeat' first
    | with_reducible assumption
    | with_reducible apply modChn_good
    | with_reducible apply unbindHandle_good
    | with_reducible apply bindHandle_good
    | exact and_reserved (by decide)
    | exact reg_merge (by assumption) (by decide)
    | exact and_left_reserved (reg_reserved (by assumption) _)
    | with_reducible apply Good.ite
    | with_reducible apply Good.ite1
    | with_reducible apply Good.ite2
    | fail_if_no_progress (with_reducible apply Good.upd)
    | fail_if_no_progress (with_reducible refine Good.updTim ?_ rfl)
    | fail_if_no_progress (with_reducible refine Good.updTim0 ?_ rfl)
    | fail_if_no_progress (with_reducible refine Good.updRegs ?_ rfl rfl rfl rfl)
    | (intro _; try intros; try extract_lets)

theorem allocCutoff_good {t : Nat} {s : State}
    (gs : Good pq s) : Good pq (allocCutoff t s) := by
  unfold allocCutoff
  try extract_lets
  repeat' first
    | with_reducible assumption
    | with_reducible apply applyAlloc_good
    | with_reducible apply modChn_good
    | with_reducible apply Good.foldl
    | with_reducible apply Good.foldl1
    | with_reducible apply Good.foldl2
    | exact and_reserved (by decide)
    | exact reg_merge (by assumption) (by decide)
    | exact and_left_reserved (reg_reserved (by assumption) _)
    | with_reducible apply Good.ite
    | with_reducible apply Good.ite1
    | with_reducible apply Good.ite2
    | fail_if_no_progress (with_reducible apply Good.upd)
    | fail_if_no_progress (with_reducible refine Good.updTim ?_ rfl)
    | fail_if_no_progress (with_reducible refine Good.updTim0 ?_ rfl)
    | fail_if_no_progress (with_reducible refine Good.updRegs ?_ rfl rfl rfl rfl)
    | (intro _; try intros; try extract_lets)

theorem putAlloc_good {t h : Nat} {w : W4} {s : State}
    (gs : Good pq s) : Good pq (putAlloc t h w s) := by
  unfold putAlloc
  try extract_lets
  repeat' first
    | with_reducible assumption
    | with_reducible apply modChn_good
    | with_reducible apply applyAlloc_good
    | exact and_reserved (by decide)
    | exact reg_merge (by assumption) (by decide)
    | exact and_left_reserved (reg_reserved (by assumption) _)
    | with_reducible apply Good.ite
    | with_reducible apply Good.ite1
    | with_reducible apply Good.ite2
    | fail_if_no_progress (with_reducible apply Good.upd)
    | fail_if_no_progress (with_reducible refine Good.updTim ?_ rfl)
    | fail_if_no_progress (with_reducible refine Good.updTim0 ?_ rfl)
    | fail_if_no_progress (with_reducible refine Good.updRegs ?_ rfl rfl rfl rfl)
    | (intro _; try intros; try extract_lets)

theorem modEst_good {t h : Nat} {f : Est → Est} {s : State}
    (gs : Good pq s) : Good pq (modEst t h f s) := by
  unfold modEst
  try extract_lets
  repeat' first
    | with_reducible assumption
    | with_reducible apply modChn_good

theorem takeReport_good {t h utick start occ : Nat} {s : State}
    (gs : Good pq s) : Good pq (takeReport t h utick start occ s) := by
  unfold takeReport
  try extract_lets
  repeat' first
    | with_reducible assumption
    | with_reducible apply modEst_good

theorem shiftReports_good {t : Nat} {s : State}
    (gs : Good pq s) : Good pq (shiftReports t s) := by
  unfold shiftReports
  try extract_lets
  repeat' first
    | with_reducible assumption
    | with_reducible apply modChn_good

theorem estTakeover_good {t : Nat} {s : State}
    (gs : Good pq s) : Good pq (estTakeover t s) := by
  unfold estTakeover
  try extract_lets
  repeat' first
    | with_reducible assumption
    | with_reducible apply modChn_good

theorem adaptIvl_good {t : Nat} {s : State}
    (gs : Good pq s) : Good pq (adaptIvl t s) := by
  unfold adaptIvl
  try extract_lets
  repeat' first
    | with_reducible assumption
    | with_reducible apply modChn_good
    | with_reducible apply Good.foldl
    | with_reducible apply Good.foldl1
    | with_reducible apply Good.foldl2
    | exact and_reserved (by decide)
    | exact reg_merge (by assumption) (by decide)
    | exact and_left_reserved (reg_reserved (by assumption) _)
    | with_reducible apply Good.ite
    | with_reducible apply Good.ite1
    | with_reducible apply Good.ite2
    | fail_if_no_progress (with_reducible apply Good.upd)
    | fail_if_no_progress (with_reducible refine Good.updTim ?_ rfl)
    | fail_if_no_progress (with_reducible refine Good.updTim0 ?_ rfl)
    | fail_if_no_progress (with_reducible refine Good.updRegs ?_ rfl rfl rfl rfl)
    | (intro _; try intros; try extract_lets)

theorem freezeCut_good {t : Nat} {s : State}
    (gs : Good pq s) : Good pq (freezeCut t s) := by
  unfold freezeCut
  try extract_lets
  repeat' first
    | with_reducible assumption
    | with_reducible apply modChn_good

theorem oversub_good {t : Nat} {lv : List Level} {s : State}
    (gs : Good pq s) : Good pq (oversub t lv s) := by
  unfold oversub
  try extract_lets
  repeat' first
    | with_reducible assumption
    | with_reducible apply countO_good
    | with_reducible apply noticeT_good
    | with_reducible apply modChn_good
    | with_reducible apply Good.foldl
    | with_reducible apply Good.foldl1
    | with_reducible apply Good.foldl2
    | exact and_reserved (by decide)
    | exact reg_merge (by assumption) (by decide)
    | exact and_left_reserved (reg_reserved (by assumption) _)
    | with_reducible apply Good.ite
    | with_reducible apply Good.ite1
    | with_reducible apply Good.ite2
    | fail_if_no_progress (with_reducible apply Good.upd)
    | fail_if_no_progress (with_reducible refine Good.updTim ?_ rfl)
    | fail_if_no_progress (with_reducible refine Good.updTim0 ?_ rfl)
    | fail_if_no_progress (with_reducible refine Good.updRegs ?_ rfl rfl rfl rfl)
    | (intro _; try intros; try extract_lets)

theorem openWindow_good {t w nb : Nat} {s : State}
    (gs : Good pq s) : Good pq (openWindow t w nb s) := by
  unfold openWindow
  try extract_lets
  repeat' first
    | with_reducible assumption
    | with_reducible apply countO_good
    | with_reducible apply fault_good
    | with_reducible apply modChn_good
    | with_reducible apply discNow_good
    | exact and_reserved (by decide)
    | exact reg_merge (by assumption) (by decide)
    | exact and_left_reserved (reg_reserved (by assumption) _)
    | with_reducible apply Good.ite
    | with_reducible apply Good.ite1
    | with_reducible apply Good.ite2
    | fail_if_no_progress (with_reducible apply Good.upd)
    | fail_if_no_progress (with_reducible refine Good.updTim ?_ rfl)
    | fail_if_no_progress (with_reducible refine Good.updTim0 ?_ rfl)
    | fail_if_no_progress (with_reducible refine Good.updRegs ?_ rfl rfl rfl rfl)
    | (intro _; try intros; try extract_lets)

theorem withdrawWindow_good {t m : Nat} {s : State}
    (gs : Good pq s) : Good pq (withdrawWindow t m s) := by
  unfold withdrawWindow
  try extract_lets
  repeat' first
    | with_reducible assumption
    | with_reducible apply modChn_good
    | with_reducible apply discNow_good
    | exact and_reserved (by decide)
    | exact reg_merge (by assumption) (by decide)
    | exact and_left_reserved (reg_reserved (by assumption) _)
    | with_reducible apply Good.ite
    | with_reducible apply Good.ite1
    | with_reducible apply Good.ite2
    | fail_if_no_progress (with_reducible apply Good.upd)
    | fail_if_no_progress (with_reducible refine Good.updTim ?_ rfl)
    | fail_if_no_progress (with_reducible refine Good.updTim0 ?_ rfl)
    | fail_if_no_progress (with_reducible refine Good.updRegs ?_ rfl rfl rfl rfl)
    | (intro _; try intros; try extract_lets)
    | split

theorem pass1_good {t : Nat} {s : State}
    (gs : Good pq s) : Good pq (pass1 t s) := by
  unfold pass1
  try extract_lets
  repeat' first
    | with_reducible assumption
    | with_reducible apply withdrawWindow_good
    | with_reducible apply modChn_good
    | with_reducible apply openWindow_good
    | with_reducible apply noticeT_good
    | with_reducible apply oversub_good
    | with_reducible apply Good.foldl
    | with_reducible apply Good.foldl1
    | with_reducible apply Good.foldl2
    | exact and_reserved (by decide)
    | exact reg_merge (by assumption) (by decide)
    | exact and_left_reserved (reg_reserved (by assumption) _)
    | with_reducible apply Good.ite
    | with_reducible apply Good.ite1
    | with_reducible apply Good.ite2
    | fail_if_no_progress (with_reducible apply Good.upd)
    | fail_if_no_progress (with_reducible refine Good.updTim ?_ rfl)
    | fail_if_no_progress (with_reducible refine Good.updTim0 ?_ rfl)
    | fail_if_no_progress (with_reducible refine Good.updRegs ?_ rfl rfl rfl rfl)
    | (intro _; try intros; try extract_lets)

theorem writeMap_good {t m : Nat} {l : List MapEnt} {s : State}
    (gs : Good pq s) : Good pq (writeMap t m l s) := by
  unfold writeMap
  try extract_lets
  repeat' first
    | with_reducible assumption
    | with_reducible apply emit_good
    | with_reducible apply modTre_good
    | with_reducible apply Good.foldl
    | with_reducible apply Good.foldl1
    | with_reducible apply Good.foldl2
    | exact and_reserved (by decide)
    | exact reg_merge (by assumption) (by decide)
    | exact and_left_reserved (reg_reserved (by assumption) _)
    | with_reducible apply Good.ite
    | with_reducible apply Good.ite1
    | with_reducible apply Good.ite2
    | fail_if_no_progress (with_reducible apply Good.upd)
    | fail_if_no_progress (with_reducible refine Good.updTim ?_ rfl)
    | fail_if_no_progress (with_reducible refine Good.updTim0 ?_ rfl)
    | fail_if_no_progress (with_reducible refine Good.updRegs ?_ rfl rfl rfl rfl)
    | (intro _; try intros; try extract_lets)

theorem pass2_good {t : Nat} {x : Pass} {s : State}
    (gs : Good pq s) : Good pq (pass2 t x s) := by
  unfold pass2
  try extract_lets
  repeat' first
    | with_reducible assumption
    | with_reducible apply modChn_good
    | with_reducible apply writeMap_good
    | with_reducible apply countO_good
    | with_reducible apply modEst_good
    | with_reducible apply modCtx_good
    | with_reducible apply Good.foldl
    | with_reducible apply Good.foldl1
    | with_reducible apply Good.foldl2
    | exact and_reserved (by decide)
    | exact reg_merge (by assumption) (by decide)
    | exact and_left_reserved (reg_reserved (by assumption) _)
    | with_reducible apply Good.ite
    | with_reducible apply Good.ite1
    | with_reducible apply Good.ite2
    | fail_if_no_progress (with_reducible apply Good.upd)
    | fail_if_no_progress (with_reducible refine Good.updTim ?_ rfl)
    | fail_if_no_progress (with_reducible refine Good.updTim0 ?_ rfl)
    | fail_if_no_progress (with_reducible refine Good.updRegs ?_ rfl rfl rfl rfl)
    | (intro _; try intros; try extract_lets)

theorem mapCountZero_good {t : Nat} {s : State}
    (gs : Good pq s) : Good pq (mapCountZero t s) := by
  unfold mapCountZero
  try extract_lets
  repeat' first
    | with_reducible assumption
    | with_reducible apply emit_good
    | with_reducible apply modTre_good
    | exact and_reserved (by decide)
    | exact reg_merge (by assumption) (by decide)
    | exact and_left_reserved (reg_reserved (by assumption) _)
    | with_reducible apply Good.ite
    | with_reducible apply Good.ite1
    | with_reducible apply Good.ite2
    | fail_if_no_progress (with_reducible apply Good.upd)
    | fail_if_no_progress (with_reducible refine Good.updTim ?_ rfl)
    | fail_if_no_progress (with_reducible refine Good.updTim0 ?_ rfl)
    | fail_if_no_progress (with_reducible refine Good.updRegs ?_ rfl rfl rfl rfl)
    | (intro _; try intros; try extract_lets)

end Sys2Proof.Machine
end

