-- ==== Sys2Proof/Laws/GoodImage.lean ====
section
/-!
SUPPORT. What each operation of Machine/Image.lean keeps (Laws/Good.lean).
-/

namespace Sys2Proof.Machine

-- one declaration at a time: the package is compiled as one text within a limit of memory
set_option Elab.async false

variable {pq : Ghost}

theorem imgReg_ok {r : ImgRec} {g : Regs} (h : RegsOk g) : RegsOk { g with val := imgReg r g.val } := by
  unfold imgReg
  extract_lets a
  cases hr : regSpec a with
  | none => exact h
  | some x =>
    have e1 : regReset a = x.reset := by simp [regReset, hr]
    have e2 : regMask a = x.mask := by simp [regMask, hr]
    have := h.set (a := a) (v := mergeW (tGet (regReset a) g.val a) (r.mask &&& x.mask) r.data)
      (h.merge (by rw [e2, BitVec.and_assoc, and_not_self]; exact BitVec.and_zero))
    rw [e1] at this
    exact this

theorem viewAt_good {m : Nat} {s : State} (gs : Good pq s) : Good pq (viewAt m s) := by
  unfold viewAt
  extract_lets l
  refine Good.ite (fun _ => gs) fun _ => ⟨gs.pending, ?_, gs.beat, gs.clk⟩
  dsimp only
  generalize l.filter _ = k
  have key : ∀ (k : List ImgRec) (g : Regs), RegsOk g → RegsOk { g with val := k.foldl (fun v r => imgReg r v) g.val } := by
    intro k
    induction k with
    | nil => exact fun g h => h
    | cons r k ih => exact fun g h => ih { g with val := imgReg r g.val } (imgReg_ok h)
  exact key k _ gs.regs

theorem cutImages_good {s : State}
    (gs : Good pq s) : Good pq (cutImages s) := by
  unfold cutImages
  try extract_lets
  repeat' first
    | with_reducible assumption
    | with_reducible apply applyAlloc_good
    | with_reducible apply modChn_good
    | with_reducible apply Good.foldl
    | with_reducible apply Good.foldl1
    | with_reducible apply Good.foldl2
    | exact and_reserved (by decide)
    | exact reg_merge (by assumption) (by decide)
    | exact and_left_reserved (reg_reserved (by assumption) _)
    | with_reducible apply Good.ite
    | with_reducible apply Good.ite1
    | with_reducible apply Good.ite2
    | fail_if_no_progress (with_reducible apply Good.upd)
    | fail_if_no_progress (with_reducible refine Good.updTim ?_ rfl)
    | fail_if_no_progress (with_reducible refine Good.updTim0 ?_ rfl)
    | fail_if_no_progress (with_reducible refine Good.updRegs ?_ rfl rfl rfl rfl)
    | (intro _; try intros; try extract_lets)

end Sys2Proof.Machine
end

