-- ==== Sys2Proof/Laws/GoodCutoff.lean ====
section
/-!
SUPPORT. What each operation of Machine/Cutoff.lean keeps (Laws/Good.lean).
-/

namespace Sys2Proof.Machine

-- one declaration at a time: the package is compiled as one text within a limit of memory
set_option Elab.async false

variable {pq : Ghost}

theorem cutRegs_good {s : State} (gs : Good pq s) : Good pq (cutRegs s) := by
  unfold cutRegs
  refine Good.foldlMem (p := fun d => d.mask &&& ~~~(regMask d.addr) = 0)
    ⟨gs.pending, ⟨gs.regs.rising, gs.regs.vals, fun d hd => gs.regs.defs d (List.mem_append_left _ (by simpa using hd))⟩, gs.beat, gs.clk⟩
    (fun d hd => gs.regs.defs d (List.mem_append_right _ hd)) fun s d h hd => ?_
  exact setReg_good h (h.regs.merge hd)

theorem cutTree_good {t : Nat} {s : State}
    (gs : Good pq s) : Good pq (cutTree t s) := by
  unfold cutTree
  try extract_lets
  repeat' first
    | with_reducible assumption
    | with_reducible apply modTre_good
    | with_reducible apply takeAck_good
    | with_reducible apply cutTerminal_good
    | with_reducible apply announce_good
    | with_reducible apply heardWaiting_good
    | with_reducible apply cutRelease_good
    | with_reducible apply cutAdmit_good
    | with_reducible apply adaptIvl_good
    | with_reducible apply Good.foldl
    | with_reducible apply Good.foldl1
    | with_reducible apply Good.foldl2
    | exact and_reserved (by decide)
    | exact reg_merge (by assumption) (by decide)
    | exact and_left_reserved (reg_reserved (by assumption) _)
    | with_reducible apply Good.ite
    | with_reducible apply Good.ite1
    | with_reducible apply Good.ite2
    | fail_if_no_progress (with_reducible apply Good.upd)
    | fail_if_no_progress (with_reducible refine Good.updTim ?_ rfl)
    | fail_if_no_progress (with_reducible refine Good.updTim0 ?_ rfl)
    | fail_if_no_progress (with_reducible refine Good.updRegs ?_ rfl rfl rfl rfl)
    | (intro _; try intros; try extract_lets)

theorem cutoffActs_good {s : State}
    (gs : Good pq s) : Good pq (cutoffActs s) := by
  unfold cutoffActs
  try extract_lets
  repeat' first
    | with_reducible assumption
    | with_reducible apply cutRegs_good
    | with_reducible apply cutImages_good
    | with_reducible apply allocCutoff_good
    | with_reducible apply freezeCut_good
    | with_reducible apply cutTree_good
    | with_reducible apply Good.foldl
    | with_reducible apply Good.foldl1
    | with_reducible apply Good.foldl2
    | exact and_reserved (by decide)
    | exact reg_merge (by assumption) (by decide)
    | exact and_left_reserved (reg_reserved (by assumption) _)
    | with_reducible apply Good.ite
    | with_reducible apply Good.ite1
    | with_reducible apply Good.ite2
    | fail_if_no_progress (with_reducible apply Good.upd)
    | fail_if_no_progress (with_reducible refine Good.updTim ?_ rfl)
    | fail_if_no_progress (with_reducible refine Good.updTim0 ?_ rfl)
    | fail_if_no_progress (with_reducible refine Good.updRegs ?_ rfl rfl rfl rfl)
    | (intro _; try intros; try extract_lets)

end Sys2Proof.Machine
end

