-- ==== Sys2Proof/Laws/GoodCipher.lean ====
section
/-!
SUPPORT. What each operation of Machine/Cipher.lean keeps (Laws/Good.lean).
-/

namespace Sys2Proof.Machine

-- one declaration at a time: the package is compiled as one text within a limit of memory
set_option Elab.async false

variable {pq : Ghost}

theorem setReasm_good {t h : Nat} {r : Reasm} {s : State}
    (gs : Good pq s) : Good pq (setReasm t h r s) := by
  unfold setReasm
  try extract_lets
  repeat' first
    | with_reducible assumption
    | with_reducible apply modTre_good

theorem treeFrame_good {t h : Nat} {r : Reasm} {ue : Option Word} {s : State}
    (gs : Good pq s) : Good pq (treeFrame t h r ue s) := by
  unfold treeFrame
  try extract_lets
  repeat' first
    | with_reducible assumption
    | with_reducible apply count1_good
    | with_reducible apply atCycle_good
    | with_reducible apply objAdd_good
    | with_reducible apply completeAt_good
    | exact and_reserved (by decide)
    | exact reg_merge (by assumption) (by decide)
    | exact and_left_reserved (reg_reserved (by assumption) _)
    | with_reducible apply Good.ite
    | with_reducible apply Good.ite1
    | with_reducible apply Good.ite2
    | fail_if_no_progress (with_reducible apply Good.upd)
    | fail_if_no_progress (with_reducible refine Good.updTim ?_ rfl)
    | fail_if_no_progress (with_reducible refine Good.updTim0 ?_ rfl)
    | fail_if_no_progress (with_reducible refine Good.updRegs ?_ rfl rfl rfl rfl)
    | (intro _; try intros; try extract_lets)

theorem noteWrote_good {t : Nat} {pos : Nat × Nat} {s : State}
    (gs : Good pq s) : Good pq (noteWrote t pos s) := by
  unfold noteWrote
  try extract_lets
  repeat' first
    | with_reducible assumption
    | exact and_reserved (by decide)
    | exact reg_merge (by assumption) (by decide)
    | exact and_left_reserved (reg_reserved (by assumption) _)
    | with_reducible apply Good.ite
    | with_reducible apply Good.ite1
    | with_reducible apply Good.ite2
    | fail_if_no_progress (with_reducible apply Good.upd)
    | fail_if_no_progress (with_reducible refine Good.updTim ?_ rfl)
    | fail_if_no_progress (with_reducible refine Good.updTim0 ?_ rfl)
    | fail_if_no_progress (with_reducible refine Good.updRegs ?_ rfl rfl rfl rfl)
    | (intro _; try intros; try extract_lets)

theorem takePiece_good {t h : Nat} {p : Piece} {ue : Option Word} {s0 : State}
    (gs : Good pq s0) : Good pq (takePiece t h p ue s0) := by
  unfold takePiece
  try extract_lets
  repeat' first
    | with_reducible assumption
    | with_reducible apply noteWrote_good
    | with_reducible apply setReasm_good
    | with_reducible apply countO_good
    | with_reducible apply treeFrame_good
    | exact and_reserved (by decide)
    | exact reg_merge (by assumption) (by decide)
    | exact and_left_reserved (reg_reserved (by assumption) _)
    | with_reducible apply Good.ite
    | with_reducible apply Good.ite1
    | with_reducible apply Good.ite2
    | fail_if_no_progress (with_reducible apply Good.upd)
    | fail_if_no_progress (with_reducible refine Good.updTim ?_ rfl)
    | fail_if_no_progress (with_reducible refine Good.updTim0 ?_ rfl)
    | fail_if_no_progress (with_reducible refine Good.updRegs ?_ rfl rfl rfl rfl)
    | (intro _; try intros; try extract_lets)

theorem drainPieces_good {t h n : Nat} {ue : Option Word} {s : State} (gs : Good pq s) : Good pq (drainPieces t h ue n s) := by
  induction n generalizing s with
  | zero => exact gs
  | succ n ih =>
    rw [drainPieces]
    cases (reasmOf s t h).pieces with
    | nil => exact gs
    | cons p l => exact Good.ite (fun _ => gs) fun _ => ih (takePiece_good (setReasm_good gs))

theorem pushPiece_good {t h : Nat} {p : Piece} {s : State}
    (gs : Good pq s) : Good pq (pushPiece t h p s) := by
  unfold pushPiece
  try extract_lets
  repeat' first
    | with_reducible assumption
    | with_reducible apply drainPieces_good
    | with_reducible apply setReasm_good

theorem closeHandle_good {t h : Nat} {s : State}
    (gs : Good pq s) : Good pq (closeHandle t h s) := by
  unfold closeHandle
  try extract_lets
  repeat' first
    | with_reducible assumption
    | with_reducible apply pushPiece_good

theorem resolveOn_good {t c : Nat} {seq : Byte} {ok : Bool} {bytes : List Byte} {ue : Option Word} {s : State} {h : Nat}
    (gs : Good pq s) : Good pq (resolveOn t c seq ok bytes ue s h) := by
  unfold resolveOn
  try extract_lets
  repeat' first
    | with_reducible assumption
    | with_reducible apply drainPieces_good
    | with_reducible apply setReasm_good

theorem resolvePiece_good {t c : Nat} {seq : Byte} {ok : Bool} {bytes : List Byte} {ue : Option Word} {s : State}
    (gs : Good pq s) : Good pq (resolvePiece t c seq ok bytes ue s) := by
  unfold resolvePiece
  try extract_lets
  repeat' first
    | with_reducible assumption
    | with_reducible apply resolveOn_good
    | with_reducible apply Good.foldl

theorem reasmTimeout_good {t h : Nat} {s : State}
    (gs : Good pq s) : Good pq (reasmTimeout t h s) := by
  unfold reasmTimeout
  try extract_lets
  repeat' first
    | with_reducible assumption
    | with_reducible apply setReasm_good
    | with_reducible apply countO_good
    | exact and_reserved (by decide)
    | exact reg_merge (by assumption) (by decide)
    | exact and_left_reserved (reg_reserved (by assumption) _)
    | with_reducible apply Good.ite
    | with_reducible apply Good.ite1
    | with_reducible apply Good.ite2
    | fail_if_no_progress (with_reducible apply Good.upd)
    | fail_if_no_progress (with_reducible refine Good.updTim ?_ rfl)
    | fail_if_no_progress (with_reducible refine Good.updTim0 ?_ rfl)
    | fail_if_no_progress (with_reducible refine Good.updRegs ?_ rfl rfl rfl rfl)
    | (intro _; try intros; try extract_lets)

theorem modStage_good {t : Nat} {p : DsTu → Bool} {f : DsTu → DsTu} {s : State}
    (gs : Good pq s) : Good pq (modStage t p f s) := by
  unfold modStage
  try extract_lets
  repeat' first
    | with_reducible assumption
    | with_reducible apply modTre_good

theorem modStaged_good {t tick blk : Nat} {f : DsTu → DsTu} {s : State}
    (gs : Good pq s) : Good pq (modStaged t tick blk f s) := by
  unfold modStaged
  try extract_lets
  repeat' first
    | with_reducible assumption
    | with_reducible apply modVq_good
    | with_reducible apply modTre_good
    | exact and_reserved (by decide)
    | exact reg_merge (by assumption) (by decide)
    | exact and_left_reserved (reg_reserved (by assumption) _)
    | with_reducible apply Good.ite
    | with_reducible apply Good.ite1
    | with_reducible apply Good.ite2
    | fail_if_no_progress (with_reducible apply Good.upd)
    | fail_if_no_progress (with_reducible refine Good.updTim ?_ rfl)
    | fail_if_no_progress (with_reducible refine Good.updTim0 ?_ rfl)
    | fail_if_no_progress (with_reducible refine Good.updRegs ?_ rfl rfl rfl rfl)
    | (intro _; try intros; try extract_lets)
    | split

theorem slotWear_good {t tid n : Nat} {s : State}
    (gs : Good pq s) : Good pq (slotWear t tid n s) := by
  unfold slotWear
  try extract_lets
  repeat' first
    | with_reducible assumption
    | with_reducible apply noticeC_good
    | with_reducible apply setSlot_good
    | exact and_reserved (by decide)
    | exact reg_merge (by assumption) (by decide)
    | exact and_left_reserved (reg_reserved (by assumption) _)
    | with_reducible apply Good.ite
    | with_reducible apply Good.ite1
    | with_reducible apply Good.ite2
    | fail_if_no_progress (with_reducible apply Good.upd)
    | fail_if_no_progress (with_reducible refine Good.updTim ?_ rfl)
    | fail_if_no_progress (with_reducible refine Good.updTim0 ?_ rfl)
    | fail_if_no_progress (with_reducible refine Good.updRegs ?_ rfl rfl rfl rfl)
    | (intro _; try intros; try extract_lets)

theorem setChan_good {c : Nat} {v : Chan} {s : State}
    (gs : Good pq s) : Good pq (setChan c v s) := by
  unfold setChan
  try extract_lets
  repeat' first
    | with_reducible assumption
    | exact and_reserved (by decide)
    | exact reg_merge (by assumption) (by decide)
    | exact and_left_reserved (reg_reserved (by assumption) _)
    | with_reducible apply Good.ite
    | with_reducible apply Good.ite1
    | with_reducible apply Good.ite2
    | fail_if_no_progress (with_reducible apply Good.upd)

theorem refuseReq_good {c : Nat} {r : CpqReq} {s : State}
    (gs : Good pq s) : Good pq (refuseReq c r s) := by
  unfold refuseReq
  try extract_lets
  repeat' first
    | with_reducible assumption
    | with_reducible apply modStaged_good
    | with_reducible apply resolvePiece_good
    | exact and_reserved (by decide)
    | exact reg_merge (by assumption) (by decide)
    | exact and_left_reserved (reg_reserved (by assumption) _)
    | with_reducible apply Good.ite
    | with_reducible apply Good.ite1
    | with_reducible apply Good.ite2
    | fail_if_no_progress (with_reducible apply Good.upd)
    | fail_if_no_progress (with_reducible refine Good.updTim ?_ rfl)
    | fail_if_no_progress (with_reducible refine Good.updTim0 ?_ rfl)
    | fail_if_no_progress (with_reducible refine Good.updRegs ?_ rfl rfl rfl rfl)
    | (intro _; try intros; try extract_lets)

theorem cpqLose_good {c : Nat} {r : CpqReq} {s : State}
    (gs : Good pq s) : Good pq (cpqLose c r s) := by
  unfold cpqLose
  try extract_lets
  repeat' first
    | with_reducible assumption
    | with_reducible apply refuseReq_good
    | with_reducible apply fault_good
    | with_reducible apply countO_good

theorem cpqSend_good {c : Nat} {q : CpqReq} {l : List CpqReq} {s : State}
    (gs : Good pq s) : Good pq (cpqSend c q l s) := by
  unfold cpqSend
  try extract_lets
  repeat' first
    | with_reducible assumption
    | with_reducible apply setChan_good
    | with_reducible apply cpqLose_good
    | with_reducible apply emit_good
    | with_reducible apply countO_good
    | with_reducible apply Good.foldl
    | with_reducible apply Good.foldl1
    | with_reducible apply Good.foldl2
    | exact and_reserved (by decide)
    | exact reg_merge (by assumption) (by decide)
    | exact and_left_reserved (reg_reserved (by assumption) _)
    | with_reducible apply Good.ite
    | with_reducible apply Good.ite1
    | with_reducible apply Good.ite2
    | fail_if_no_progress (with_reducible apply Good.upd)
    | fail_if_no_progress (with_reducible refine Good.updTim ?_ rfl)
    | fail_if_no_progress (with_reducible refine Good.updTim0 ?_ rfl)
    | fail_if_no_progress (with_reducible refine Good.updRegs ?_ rfl rfl rfl rfl)
    | (intro _; try intros; try extract_lets)

theorem cpqLine_good {c fuel : Nat} {s : State} (gs : Good pq s) : Good pq (cpqLine c fuel s) := by
  induction fuel generalizing s with
  | zero => exact gs
  | succ fuel ih =>
    rw [cpqLine]
    split
    · exact gs
    · exact Good.ite (fun _ => ih (cpqSend_good gs)) fun _ => Good.ite (fun _ => gs) fun _ => atCycle_good gs

theorem cpqPump_good {c : Nat} {s : State}
    (gs : Good pq s) : Good pq (cpqPump c s) := by
  unfold cpqPump
  try extract_lets
  repeat' first
    | with_reducible assumption
    | with_reducible apply cpqLine_good

theorem cpqIssue_good {enc : Bool} {t tid ksel tick ord hnd : Nat} {first last replay : Bool} {hdr rest : List Byte} {s : State}
    (gs : Good pq s) : Good pq (cpqIssue enc t tid ksel tick ord hnd first last replay hdr rest s).1 := by
  unfold cpqIssue
  try extract_lets
  repeat' first
    | with_reducible assumption
    | with_reducible apply count1_good
    | with_reducible apply fault_good
    | with_reducible apply countO_good
    | with_reducible apply setSlot_good
    | with_reducible apply slotWear_good
    | with_reducible apply cpqPump_good
    | with_reducible apply setChan_good
    | exact and_reserved (by decide)
    | exact reg_merge (by assumption) (by decide)
    | exact and_left_reserved (reg_reserved (by assumption) _)
    | with_reducible apply Good.ite
    | with_reducible apply Good.ite1
    | with_reducible apply Good.ite2
    | fail_if_no_progress (with_reducible apply Good.upd)
    | fail_if_no_progress (with_reducible refine Good.updTim ?_ rfl)
    | fail_if_no_progress (with_reducible refine Good.updTim0 ?_ rfl)
    | fail_if_no_progress (with_reducible refine Good.updRegs ?_ rfl rfl rfl rfl)
    | (intro _; try intros; try extract_lets)

theorem delivered_good {t : Nat} {enc : Bool} {tick ord : Nat} {s : State}
    (gs : Good pq s) : Good pq (delivered t enc tick ord s) := by
  unfold delivered
  try extract_lets
  repeat' first
    | with_reducible assumption
    | exact and_reserved (by decide)
    | exact reg_merge (by assumption) (by decide)
    | exact and_left_reserved (reg_reserved (by assumption) _)
    | with_reducible apply Good.ite
    | with_reducible apply Good.ite1
    | with_reducible apply Good.ite2
    | fail_if_no_progress (with_reducible apply Good.upd)

theorem tagFail_good {c : Nat} {r : CpqReq} {s : State}
    (gs : Good pq s) : Good pq (tagFail c r s) := by
  unfold tagFail
  try extract_lets
  repeat' first
    | with_reducible assumption
    | with_reducible apply refuseReq_good
    | with_reducible apply countO_good
    | with_reducible apply count1_good
    | with_reducible apply modTre_good
    | exact and_reserved (by decide)
    | exact reg_merge (by assumption) (by decide)
    | exact and_left_reserved (reg_reserved (by assumption) _)
    | with_reducible apply Good.ite
    | with_reducible apply Good.ite1
    | with_reducible apply Good.ite2
    | fail_if_no_progress (with_reducible apply Good.upd)

theorem cpqAnswer_good {c : Nat} {r : CpqReq} {st : CpqSt} {data : List Byte} {ue : Option Word} {s : State}
    (gs : Good pq s) : Good pq (cpqAnswer c r st data ue s) := by
  unfold cpqAnswer
  try extract_lets
  repeat' first
    | with_reducible assumption
    | with_reducible apply delivered_good
    | with_reducible apply modStaged_good
    | with_reducible apply resolvePiece_good
    | with_reducible apply tagFail_good
    | with_reducible apply refuseReq_good
    | with_reducible apply count1_good
    | with_reducible apply cpqLose_good
    | exact and_reserved (by decide)
    | exact reg_merge (by assumption) (by decide)
    | exact and_left_reserved (reg_reserved (by assumption) _)
    | with_reducible apply Good.ite
    | with_reducible apply Good.ite1
    | with_reducible apply Good.ite2
    | fail_if_no_progress (with_reducible apply Good.upd)
    | fail_if_no_progress (with_reducible refine Good.updTim ?_ rfl)
    | fail_if_no_progress (with_reducible refine Good.updTim0 ?_ rfl)
    | fail_if_no_progress (with_reducible refine Good.updRegs ?_ rfl rfl rfl rfl)
    | (intro _; try intros; try extract_lets)
    | split

theorem cpqResponse_good {c : Nat} {seq : Byte} {st : CpqSt} {data : List Byte} {ue : Option Word} {s : State}
    (gs : Good pq s) : Good pq (cpqResponse c seq st data ue s) := by
  unfold cpqResponse
  try extract_lets
  repeat' first
    | with_reducible assumption
    | with_reducible apply setChan_good
    | with_reducible apply cpqAnswer_good
    | with_reducible apply cpqLose_good
    | with_reducible apply Good.foldl
    | with_reducible apply Good.foldl1
    | with_reducible apply Good.foldl2
    | exact and_reserved (by decide)
    | exact reg_merge (by assumption) (by decide)
    | exact and_left_reserved (reg_reserved (by assumption) _)
    | with_reducible apply Good.ite
    | with_reducible apply Good.ite1
    | with_reducible apply Good.ite2
    | fail_if_no_progress (with_reducible apply Good.upd)
    | fail_if_no_progress (with_reducible refine Good.updTim ?_ rfl)
    | fail_if_no_progress (with_reducible refine Good.updTim0 ?_ rfl)
    | fail_if_no_progress (with_reducible refine Good.updRegs ?_ rfl rfl rfl rfl)
    | (intro _; try intros; try extract_lets)
    | split

theorem cpqTimeout_good {c : Nat} {seq : Byte} {s : State}
    (gs : Good pq s) : Good pq (cpqTimeout c seq s) := by
  unfold cpqTimeout
  try extract_lets
  repeat' first
    | with_reducible assumption
    | with_reducible apply cpqLose_good
    | with_reducible apply setChan_good
    | exact and_reserved (by decide)
    | exact reg_merge (by assumption) (by decide)
    | exact and_left_reserved (reg_reserved (by assumption) _)
    | with_reducible apply Good.ite
    | with_reducible apply Good.ite1
    | with_reducible apply Good.ite2
    | fail_if_no_progress (with_reducible apply Good.upd)
    | fail_if_no_progress (with_reducible refine Good.updTim ?_ rfl)
    | fail_if_no_progress (with_reducible refine Good.updTim0 ?_ rfl)
    | fail_if_no_progress (with_reducible refine Good.updRegs ?_ rfl rfl rfl rfl)
    | (intro _; try intros; try extract_lets)
    | split

theorem keyWrite_good {n : Nat} {load klen : Bool} {key : List Byte} {part : Option Nat} {s : State}
    (gs : Good pq s) : Good pq (keyWrite n load klen key part s) := by
  unfold keyWrite
  try extract_lets
  repeat' first
    | with_reducible assumption
    | with_reducible apply emit_good
    | exact and_reserved (by decide)
    | exact reg_merge (by assumption) (by decide)
    | exact and_left_reserved (reg_reserved (by assumption) _)
    | with_reducible apply Good.ite
    | with_reducible apply Good.ite1
    | with_reducible apply Good.ite2
    | fail_if_no_progress (with_reducible apply Good.upd)

theorem keyComplete_good {p n : Nat} {s : State}
    (gs : Good pq s) : Good pq (keyComplete p n s) := by
  unfold keyComplete
  try extract_lets
  repeat' first
    | with_reducible assumption
    | with_reducible apply completeCmd_good
    | exact and_reserved (by decide)
    | exact reg_merge (by assumption) (by decide)
    | exact and_left_reserved (reg_reserved (by assumption) _)
    | with_reducible apply Good.ite
    | with_reducible apply Good.ite1
    | with_reducible apply Good.ite2
    | fail_if_no_progress (with_reducible apply Good.upd)
    | fail_if_no_progress (with_reducible refine Good.updTim ?_ rfl)
    | fail_if_no_progress (with_reducible refine Good.updTim0 ?_ rfl)
    | fail_if_no_progress (with_reducible refine Good.updRegs ?_ rfl rfl rfl rfl)
    | (intro _; try intros; try extract_lets)
    | split

theorem keyWriteAck_good {s : State}
    (gs : Good pq s) : Good pq (keyWriteAck s) := by
  unfold keyWriteAck
  try extract_lets
  repeat' first
    | with_reducible assumption
    | with_reducible apply setSlot_good
    | with_reducible apply keyComplete_good
    | exact and_reserved (by decide)
    | exact reg_merge (by assumption) (by decide)
    | exact and_left_reserved (reg_reserved (by assumption) _)
    | with_reducible apply Good.ite
    | with_reducible apply Good.ite1
    | with_reducible apply Good.ite2
    | fail_if_no_progress (with_reducible apply Good.upd)
    | fail_if_no_progress (with_reducible refine Good.updTim ?_ rfl)
    | fail_if_no_progress (with_reducible refine Good.updTim0 ?_ rfl)
    | fail_if_no_progress (with_reducible refine Good.updRegs ?_ rfl rfl rfl rfl)
    | (intro _; try intros; try extract_lets)
    | split

theorem keyTmo_good {s : State}
    (gs : Good pq s) : Good pq (keyTmo s) := by
  unfold keyTmo
  try extract_lets
  repeat' first
    | with_reducible assumption
    | with_reducible apply fault_good
    | exact and_reserved (by decide)
    | exact reg_merge (by assumption) (by decide)
    | exact and_left_reserved (reg_reserved (by assumption) _)
    | with_reducible apply Good.ite
    | with_reducible apply Good.ite1
    | with_reducible apply Good.ite2
    | fail_if_no_progress (with_reducible apply Good.upd)
    | fail_if_no_progress (with_reducible refine Good.updTim ?_ rfl)
    | fail_if_no_progress (with_reducible refine Good.updTim0 ?_ rfl)
    | fail_if_no_progress (with_reducible refine Good.updRegs ?_ rfl rfl rfl rfl)
    | (intro _; try intros; try extract_lets)
    | split

theorem setWait_good {p : Nat} {w : CmdWait} {s : State}
    (gs : Good pq s) : Good pq (setWait p w s) := by
  unfold setWait
  try extract_lets
  repeat' first
    | with_reducible assumption
    | exact and_reserved (by decide)
    | exact reg_merge (by assumption) (by decide)
    | exact and_left_reserved (reg_reserved (by assumption) _)
    | with_reducible apply Good.ite
    | with_reducible apply Good.ite1
    | with_reducible apply Good.ite2
    | fail_if_no_progress (with_reducible apply Good.upd)
    | fail_if_no_progress (with_reducible refine Good.updTim ?_ rfl)
    | fail_if_no_progress (with_reducible refine Good.updTim0 ?_ rfl)
    | fail_if_no_progress (with_reducible refine Good.updRegs ?_ rfl rfl rfl rfl)
    | (intro _; try intros; try extract_lets)
    | split

theorem keyCommand_good {p n : Nat} {load klen : Bool} {key : List Byte} {s : State}
    (gs : Good pq s) : Good pq (keyCommand p n load klen key s) := by
  unfold keyCommand
  try extract_lets
  repeat' first
    | with_reducible assumption
    | with_reducible apply setWait_good
    | with_reducible apply keyWrite_good
    | exact and_reserved (by decide)
    | exact reg_merge (by assumption) (by decide)
    | exact and_left_reserved (reg_reserved (by assumption) _)
    | with_reducible apply Good.ite
    | with_reducible apply Good.ite1
    | with_reducible apply Good.ite2
    | fail_if_no_progress (with_reducible apply Good.upd)
    | fail_if_no_progress (with_reducible refine Good.updTim ?_ rfl)
    | fail_if_no_progress (with_reducible refine Good.updTim0 ?_ rfl)
    | fail_if_no_progress (with_reducible refine Good.updRegs ?_ rfl rfl rfl rfl)
    | (intro _; try intros; try extract_lets)

theorem keyResume_good {p : Nat} {s : State}
    (gs : Good pq s) : Good pq (keyResume p s) := by
  unfold keyResume
  try extract_lets
  repeat' first
    | with_reducible assumption
    | with_reducible apply keyCommand_good
    | exact and_reserved (by decide)
    | exact reg_merge (by assumption) (by decide)
    | exact and_left_reserved (reg_reserved (by assumption) _)
    | with_reducible apply Good.ite
    | with_reducible apply Good.ite1
    | with_reducible apply Good.ite2
    | fail_if_no_progress (with_reducible apply Good.upd)
    | fail_if_no_progress (with_reducible refine Good.updTim ?_ rfl)
    | fail_if_no_progress (with_reducible refine Good.updTim0 ?_ rfl)
    | fail_if_no_progress (with_reducible refine Good.updRegs ?_ rfl rfl rfl rfl)
    | (intro _; try intros; try extract_lets)
    | split

end Sys2Proof.Machine
end

