-- ==== Sys2Proof/Laws/GoodTreeRx.lean ====
section
/-!
SUPPORT. What each operation of Machine/TreeRx.lean keeps (Laws/Good.lean).
-/

namespace Sys2Proof.Machine

-- one declaration at a time: the package is compiled as one text within a limit of memory
set_option Elab.async false

variable {pq : Ghost}

theorem markSeen_good {t ut start : Nat} {s : State}
    (gs : Good pq s) : Good pq (markSeen t ut start s) := by
  unfold markSeen
  try extract_lets
  repeat' first
    | with_reducible assumption
    | with_reducible apply modTre_good

theorem driftAlarm_good {t tid : Nat} {s : State}
    (gs : Good pq s) : Good pq (driftAlarm t tid s) := by
  unfold driftAlarm
  try extract_lets
  repeat' first
    | with_reducible assumption
    | with_reducible apply noticeC_good
    | with_reducible apply modCtx_good
    | exact and_reserved (by decide)
    | exact reg_merge (by assumption) (by decide)
    | exact and_left_reserved (reg_reserved (by assumption) _)
    | with_reducible apply Good.ite
    | with_reducible apply Good.ite1
    | with_reducible apply Good.ite2
    | fail_if_no_progress (with_reducible apply Good.upd)
    | fail_if_no_progress (with_reducible refine Good.updTim ?_ rfl)
    | fail_if_no_progress (with_reducible refine Good.updTim0 ?_ rfl)
    | fail_if_no_progress (with_reducible refine Good.updRegs ?_ rfl rfl rfl rfl)
    | (intro _; try intros; try extract_lets)

theorem driftFilter_good {t tid : Nat} {d : Int} {s : State}
    (gs : Good pq s) : Good pq (driftFilter t tid d s) := by
  unfold driftFilter
  try extract_lets
  repeat' first
    | with_reducible assumption
    | with_reducible apply modCtx_good
    | with_reducible apply countO_good
    | with_reducible apply noticeC_good
    | exact and_reserved (by decide)
    | exact reg_merge (by assumption) (by decide)
    | exact and_left_reserved (reg_reserved (by assumption) _)
    | with_reducible apply Good.ite
    | with_reducible apply Good.ite1
    | with_reducible apply Good.ite2
    | fail_if_no_progress (with_reducible apply Good.upd)
    | fail_if_no_progress (with_reducible refine Good.updTim ?_ rfl)
    | fail_if_no_progress (with_reducible refine Good.updTim0 ?_ rfl)
    | fail_if_no_progress (with_reducible refine Good.updRegs ?_ rfl rfl rfl rfl)
    | (intro _; try intros; try extract_lets)

theorem driftConv_good {t tid : Nat} {s : State}
    (gs : Good pq s) : Good pq (driftConv t tid s) := by
  unfold driftConv
  try extract_lets
  repeat' first
    | with_reducible assumption
    | with_reducible apply modCtx_good

theorem driftAdjust_good {t tid : Nat} {s : State}
    (gs : Good pq s) : Good pq (driftAdjust t tid s) := by
  unfold driftAdjust
  try extract_lets
  repeat' first
    | with_reducible assumption
    | with_reducible apply noticeC_good
    | with_reducible apply modCtx_good
    | with_reducible apply sendTmm_good
    | exact and_reserved (by decide)
    | exact reg_merge (by assumption) (by decide)
    | exact and_left_reserved (reg_reserved (by assumption) _)
    | with_reducible apply Good.ite
    | with_reducible apply Good.ite1
    | with_reducible apply Good.ite2
    | fail_if_no_progress (with_reducible apply Good.upd)
    | fail_if_no_progress (with_reducible refine Good.updTim ?_ rfl)
    | fail_if_no_progress (with_reducible refine Good.updTim0 ?_ rfl)
    | fail_if_no_progress (with_reducible refine Good.updRegs ?_ rfl rfl rfl rfl)
    | (intro _; try intros; try extract_lets)

theorem driftUpdate_good {t tid ut : Nat} {d : Int} {s : State}
    (gs : Good pq s) : Good pq (driftUpdate t tid ut d s) := by
  unfold driftUpdate
  try extract_lets
  repeat' first
    | with_reducible assumption
    | with_reducible apply driftAlarm_good
    | with_reducible apply modCtx_good
    | with_reducible apply driftAdjust_good
    | with_reducible apply driftConv_good
    | with_reducible apply driftFilter_good

theorem rangeMeasure_good {t tid ut : Nat} {d : Int} {s : State}
    (gs : Good pq s) : Good pq (rangeMeasure t tid ut d s) := by
  unfold rangeMeasure
  try extract_lets
  repeat' first
    | with_reducible assumption
    | with_reducible apply modCtx_good
    | exact and_reserved (by decide)
    | exact reg_merge (by assumption) (by decide)
    | exact and_left_reserved (reg_reserved (by assumption) _)
    | with_reducible apply Good.ite
    | with_reducible apply Good.ite1
    | with_reducible apply Good.ite2
    | fail_if_no_progress (with_reducible apply Good.upd)
    | fail_if_no_progress (with_reducible refine Good.updTim ?_ rfl)
    | fail_if_no_progress (with_reducible refine Good.updTim0 ?_ rfl)
    | fail_if_no_progress (with_reducible refine Good.updRegs ?_ rfl rfl rfl rfl)
    | (intro _; try intros; try extract_lets)

theorem keyOffer_good {t tid ut blk : Nat} {m : List Byte} {s : State}
    (gs : Good pq s) : Good pq (keyOffer t tid ut blk m s) := by
  unfold keyOffer
  try extract_lets
  repeat' first
    | with_reducible assumption
    | with_reducible apply countO_good
    | with_reducible apply objAdd_good
    | with_reducible apply objDiscard_good
    | with_reducible apply count1_good
    | with_reducible refine storeFrame_good' ?_ (by assumption)
    | with_reducible apply bufExhaust_good
    | with_reducible apply freeUnheld_good
    | with_reducible apply admit1_good
    | exact and_reserved (by decide)
    | exact reg_merge (by assumption) (by decide)
    | exact and_left_reserved (reg_reserved (by assumption) _)
    | with_reducible apply Good.ite
    | with_reducible apply Good.ite1
    | with_reducible apply Good.ite2
    | fail_if_no_progress (with_reducible apply Good.upd)
    | fail_if_no_progress (with_reducible refine Good.updTim ?_ rfl)
    | fail_if_no_progress (with_reducible refine Good.updTim0 ?_ rfl)
    | fail_if_no_progress (with_reducible refine Good.updRegs ?_ rfl rfl rfl rfl)
    | (intro _; try intros; try extract_lets)
    | split

theorem takeAnnounce_good {x : BurstIn} {b : List Byte} {s : State}
    (gs : Good pq s) : Good pq (takeAnnounce x b s) := by
  unfold takeAnnounce
  try extract_lets
  repeat' first
    | with_reducible assumption
    | with_reducible apply count1_good
    | with_reducible apply modChn_good
    | with_reducible apply modTre_good
    | exact and_reserved (by decide)
    | exact reg_merge (by assumption) (by decide)
    | exact and_left_reserved (reg_reserved (by assumption) _)
    | with_reducible apply Good.ite
    | with_reducible apply Good.ite1
    | with_reducible apply Good.ite2
    | fail_if_no_progress (with_reducible apply Good.upd)
    | fail_if_no_progress (with_reducible refine Good.updTim ?_ rfl)
    | fail_if_no_progress (with_reducible refine Good.updTim0 ?_ rfl)
    | fail_if_no_progress (with_reducible refine Good.updRegs ?_ rfl rfl rfl rfl)
    | (intro _; try intros; try extract_lets)

theorem takeTmm_good {x : BurstIn} {u : Tu} {s : State}
    (gs : Good pq s) : Good pq (takeTmm x u s) := by
  unfold takeTmm
  try extract_lets
  repeat' first
    | with_reducible assumption
    | with_reducible apply count1_good
    | with_reducible apply modTre_good
    | with_reducible apply takeAnnounce_good
    | with_reducible apply keyOffer_good
    | exact and_reserved (by decide)
    | exact reg_merge (by assumption) (by decide)
    | exact and_left_reserved (reg_reserved (by assumption) _)
    | with_reducible apply Good.ite
    | with_reducible apply Good.ite1
    | with_reducible apply Good.ite2
    | fail_if_no_progress (with_reducible apply Good.upd)
    | fail_if_no_progress (with_reducible refine Good.updTim ?_ rfl)
    | fail_if_no_progress (with_reducible refine Good.updTim0 ?_ rfl)
    | fail_if_no_progress (with_reducible refine Good.updRegs ?_ rfl rfl rfl rfl)
    | (intro _; try intros; try extract_lets)

theorem takeData_good {x : BurstIn} {u : Tu} {s : State}
    (gs : Good pq s) : Good pq (takeData x u s) := by
  unfold takeData
  try extract_lets
  repeat' first
    | with_reducible assumption
    | with_reducible apply closeHandle_good
    | with_reducible apply countO_good
    | with_reducible apply modEst_good
    | with_reducible apply pushPiece_good
    | with_reducible apply cpqIssue_good
    | exact and_reserved (by decide)
    | exact reg_merge (by assumption) (by decide)
    | exact and_left_reserved (reg_reserved (by assumption) _)
    | with_reducible apply Good.ite
    | with_reducible apply Good.ite1
    | with_reducible apply Good.ite2
    | fail_if_no_progress (with_reducible apply Good.upd)
    | fail_if_no_progress (with_reducible refine Good.updTim ?_ rfl)
    | fail_if_no_progress (with_reducible refine Good.updTim0 ?_ rfl)
    | fail_if_no_progress (with_reducible refine Good.updRegs ?_ rfl rfl rfl rfl)
    | (intro _; try intros; try extract_lets)

theorem takeTu_good {x : BurstIn} {e : MapEnt} {a : State × Bool} {u : Tu}
    (gs : Good pq a.1) : Good pq (takeTu x e a u).1 := by
  unfold takeTu
  try extract_lets
  repeat' first
    | with_reducible assumption
    | with_reducible apply closeHandle_good
    | with_reducible apply count1_good
    | with_reducible apply takeTmm_good
    | with_reducible apply takeData_good
    | exact and_reserved (by decide)
    | exact reg_merge (by assumption) (by decide)
    | exact and_left_reserved (reg_reserved (by assumption) _)
    | with_reducible apply Good.ite
    | with_reducible apply Good.ite1
    | with_reducible apply Good.ite2
    | fail_if_no_progress (with_reducible apply Good.upd)
    | fail_if_no_progress (with_reducible refine Good.updTim ?_ rfl)
    | fail_if_no_progress (with_reducible refine Good.updTim0 ?_ rfl)
    | fail_if_no_progress (with_reducible refine Good.updRegs ?_ rfl rfl rfl rfl)
    | (intro _; try intros; try extract_lets)

theorem takeEntries_good {x : BurstIn} {head rpt : Nat} {blocks : List UsBlock} {ents : List MapEnt} {s : State}
    (gs : Good pq s) : Good pq (takeEntries x head rpt blocks ents s).1 := by
  unfold takeEntries
  try extract_lets
  repeat' first
    | with_reducible assumption
    | with_reducible apply takeTu_good
    | with_reducible apply Good.foldl
    | with_reducible apply Good.foldl1
    | with_reducible apply Good.foldl2
    | exact and_reserved (by decide)
    | exact reg_merge (by assumption) (by decide)
    | exact and_left_reserved (reg_reserved (by assumption) _)
    | with_reducible apply Good.ite
    | with_reducible apply Good.ite1
    | with_reducible apply Good.ite2
    | fail_if_no_progress (with_reducible apply Good.upd)
    | fail_if_no_progress (with_reducible refine Good.updTim ?_ rfl)
    | fail_if_no_progress (with_reducible refine Good.updTim0 ?_ rfl)
    | fail_if_no_progress (with_reducible refine Good.updRegs ?_ rfl rfl rfl rfl)
    | (intro _; try intros; try extract_lets)

theorem takeReports_good {t tid ut start : Nat} {l : List UsBlock} {rpt : Nat} {s : State}
    (gs : Good pq s) : Good pq (takeReports t tid ut start l rpt s) := by
  unfold takeReports
  try extract_lets
  repeat' first
    | with_reducible assumption
    | with_reducible apply countN_good
    | with_reducible apply takeReport_good
    | with_reducible apply Good.foldl
    | with_reducible apply Good.foldl1
    | with_reducible apply Good.foldl2
    | exact and_reserved (by decide)
    | exact reg_merge (by assumption) (by decide)
    | exact and_left_reserved (reg_reserved (by assumption) _)
    | with_reducible apply Good.ite
    | with_reducible apply Good.ite1
    | with_reducible apply Good.ite2
    | fail_if_no_progress (with_reducible apply Good.upd)
    | fail_if_no_progress (with_reducible refine Good.updTim ?_ rfl)
    | fail_if_no_progress (with_reducible refine Good.updTim0 ?_ rfl)
    | fail_if_no_progress (with_reducible refine Good.updRegs ?_ rfl rfl rfl rfl)
    | (intro _; try intros; try extract_lets)

theorem headerTaken_good {t tid ut start d : Nat} {s : State}
    (gs : Good pq s) : Good pq (headerTaken t tid ut start d s) := by
  unfold headerTaken
  try extract_lets
  repeat' first
    | with_reducible assumption
    | with_reducible apply modCtx_good
    | with_reducible apply markSeen_good

theorem burstBody_good {t ut : Nat} {h : Hit} {e0 : MapEnt} {tarr : Int} {blk : Nat} {blocks : List UsBlock} {s : State}
    (gs : Good pq s) : Good pq (burstBody t ut h e0 tarr blk blocks s) := by
  unfold burstBody
  try extract_lets
  repeat' first
    | with_reducible assumption
    | with_reducible apply takeEntries_good
    | with_reducible apply rangeMeasure_good
    | with_reducible apply headerTaken_good
    | with_reducible apply driftUpdate_good
    | with_reducible apply countO_good
    | with_reducible apply takeReports_good
    | exact and_reserved (by decide)
    | exact reg_merge (by assumption) (by decide)
    | exact and_left_reserved (reg_reserved (by assumption) _)
    | with_reducible apply Good.ite
    | with_reducible apply Good.ite1
    | with_reducible apply Good.ite2
    | fail_if_no_progress (with_reducible apply Good.upd)
    | fail_if_no_progress (with_reducible refine Good.updTim ?_ rfl)
    | fail_if_no_progress (with_reducible refine Good.updTim0 ?_ rfl)
    | fail_if_no_progress (with_reducible refine Good.updRegs ?_ rfl rfl rfl rfl)
    | (intro _; try intros; try extract_lets)
    | split

theorem usBurst_good {t ut : Nat} {sob : Int} {ph blk : Nat} {blocks : List UsBlock} {s : State}
    (gs : Good pq s) : Good pq (usBurst t ut sob ph blk blocks s) := by
  unfold usBurst
  extract_lets s1 hit s0
  have g1 : Good pq s1 := modTre_good gs
  clear_value hit
  have g0 : Good pq s0 := by
    cases hit with
    | some h => exact Good.ite (fun _ => count1_good g1) fun _ => g1
    | none => exact g1
  clear_value s0
  refine Good.ite (fun _ => gs) fun _ => Good.ite (fun _ => count1_good gs) fun _ => ?_
  split
  · exact count1_good g0
  · exact g0
  · extract_lets d e0
    exact Good.ite (fun _ => modChn_good (count1_good g0)) fun _ => Good.ite (fun _ => count1_good g0) fun _ =>
      Good.ite (fun _ => count1_good g0) fun _ => Good.ite (fun _ => count1_good g0) fun _ => burstBody_good g0

theorem missedBurst_good {t ut blk : Nat} {s : State}
    (gs : Good pq s) : Good pq (missedBurst t ut blk s) := by
  unfold missedBurst
  try extract_lets
  repeat' first
    | with_reducible assumption
    | with_reducible apply missTerminal_good
    | with_reducible apply markSeen_good
    | with_reducible apply countO_good
    | exact and_reserved (by decide)
    | exact reg_merge (by assumption) (by decide)
    | exact and_left_reserved (reg_reserved (by assumption) _)
    | with_reducible apply Good.ite
    | with_reducible apply Good.ite1
    | with_reducible apply Good.ite2
    | fail_if_no_progress (with_reducible apply Good.upd)
    | fail_if_no_progress (with_reducible refine Good.updTim ?_ rfl)
    | fail_if_no_progress (with_reducible refine Good.updTim0 ?_ rfl)
    | fail_if_no_progress (with_reducible refine Good.updRegs ?_ rfl rfl rfl rfl)
    | (intro _; try intros; try extract_lets)
    | split

end Sys2Proof.Machine
end

