-- ==== Sys2Proof/Laws/GoodSelect.lean ====
section
/-!
SUPPORT. What each operation of Machine/Select.lean keeps (Laws/Good.lean).
-/

namespace Sys2Proof.Machine

-- one declaration at a time: the package is compiled as one text within a limit of memory
set_option Elab.async false

variable {pq : Ghost}

theorem Good.foldlS {α : Type} {g : SelRun → α → SelRun} {l : List α} {r : SelRun} (h : Good pq r.s)
    (hg : ∀ r x, Good pq r.s → Good pq (g r x).s) : Good pq (l.foldl g r).s := by
  induction l generalizing r with
  | nil => exact h
  | cons x l ih => exact ih (hg r x h)

theorem Good.foldlS1 {α β : Type} {g : SelRun × β → α → SelRun × β} {l : List α} {a : SelRun × β} (h : Good pq a.1.s)
    (hg : ∀ a x, Good pq a.1.s → Good pq (g a x).1.s) : Good pq (l.foldl g a).1.s := by
  induction l generalizing a with
  | nil => exact h
  | cons x l ih => exact ih (hg a x h)

@[simp] theorem SelRun.place_s (r : SelRun) (u : DsTu) : (r.place u).s = r.s := rfl

theorem selCont_good {t : Nat} {c : Option Cont} {r : SelRun} (gs : Good pq r.s) : Good pq (selCont t c r).s := by
  cases c <;> exact gs

theorem selTmms_good {t : Nat} {r : SelRun} (gs : Good pq r.s) : Good pq (selTmms t r).s := by
  unfold selTmms
  extract_lets x sent
  exact Good.foldlS gs fun r m h => h

theorem eraseToken_good {q : Nat} {t : Token} {s : State}
    (gs : Good pq s) : Good pq (eraseToken q t s) := by
  unfold eraseToken
  try extract_lets
  repeat' first
    | with_reducible assumption
    | with_reducible apply addChg_good
    | with_reducible apply setQueue_good

theorem selHead_good {t q : Nat} {c : W4} {n : Nat} {r : SelRun} (gs : Good pq r.s) : Good pq (selHead t q c n r).1.s := by
  induction n generalizing r with
  | zero => exact gs
  | succ n ih =>
    rw [selHead]
    cases ((queueOf r.s q).drop (tGet 0 r.pos q)).head? with
    | none => exact gs
    | some k =>
      dsimp only
      cases frameOf r.s k.frame with
      | none => exact ih (eraseToken_good gs)
      | some f =>
        dsimp only
        split
        · split
          · exact gs
          · exact ih (dropToken_good (setQueue_good gs))
        · split
          · exact ih (release1_good (eraseToken_good gs))
          · split
            · exact gs
            · split
              · exact wakeGroups_good gs
              · exact wakeGroups_good gs

theorem selElig_good {t q : Nat} {c : W4} {r : SelRun} (gs : Good pq r.s) : Good pq (selElig t q c r).1.s := by
  unfold selElig
  split
  · exact gs
  · split
    · exact gs
    · exact selHead_good gs

@[simp] theorem SelRun.charge_s (q n : Nat) (x : Bool) (r : SelRun) : (r.charge q n x).s = r.s := by
  unfold SelRun.charge
  cases x <;> rfl

@[simp] theorem SelRun.advance_s (q : Nat) (k : Token) (f : Frame) (r : SelRun) : (r.advance q k f).s = r.s := by
  unfold SelRun.advance
  extract_lets g fetched
  have hf : fetched.s = r.s := by
    show (if _ then _ else r : SelRun).s = r.s
    split <;> rfl
  clear_value fetched
  split <;> exact hf

@[simp] theorem selTake_s (t q : Nat) (c : W4) (x : Bool) (k : Token) (f : Frame) (r : SelRun) : (selTake t q c x k f r).s = r.s := by
  unfold selTake
  extract_lets ksel body n room unref p r1
  split
  · simp
  · split
    · show r1.s = r.s
      simp [r1]
    · rfl

theorem committedTurn_good {t key : Nat} {a : SelRun × Bool} {e : Nat × W4} (gs : Good pq a.1.s) :
    Good pq (committedTurn t key a e).1.s := by
  unfold committedTurn
  extract_lets r
  split
  · exact gs
  · have h : Good pq (selElig t e.1 e.2 r).1.s := selElig_good gs
    generalize selElig t e.1 e.2 r = x at h
    obtain ⟨r1, _ | ⟨k, f⟩⟩ := x
    · exact h
    · dsimp -zeta only at h ⊢
      extract_lets r2
      have h2 : Good pq r2.s := by simpa [r2] using h
      clear_value r2
      split <;> exact h2

theorem committedRound_good {t key : Nat} {l : List (Nat × W4)} {n : Nat} {r : SelRun} (gs : Good pq r.s) :
    Good pq (committedRound t key l n r).s := by
  induction n generalizing r with
  | zero => exact gs
  | succ n ih =>
    rw [committedRound]
    split
    · exact gs
    · extract_lets a
      have ha : Good pq a.1.s := Good.foldlS1 gs fun a e h => committedTurn_good h
      clear_value a
      split
      · exact ih ha
      · exact ha

theorem excessServe_good {t q : Nat} {c : W4} {n : Nat} {r : SelRun} (gs : Good pq r.s) : Good pq (excessServe t q c n r).s := by
  induction n generalizing r with
  | zero => exact gs
  | succ n ih =>
    rw [excessServe]
    split
    · exact gs
    · have h : Good pq (selElig t q c r).1.s := selElig_good gs
      generalize selElig t q c r = x at h
      obtain ⟨r1, _ | ⟨k, f⟩⟩ := x
      · dsimp -zeta only at h ⊢
        split <;> exact h
      · dsimp -zeta only at h ⊢
        extract_lets m r2
        have h2 : Good pq r2.s := by simpa [r2] using h
        clear_value r2
        split
        · exact h
        · split
          · exact h2
          · exact ih h2

theorem excessTurn_good {t key : Nat} {a : SelRun × Bool} {e : Nat × W4} (gs : Good pq a.1.s) :
    Good pq (excessTurn t key a e).1.s := by
  unfold excessTurn
  extract_lets r
  split
  · exact gs
  · have h : Good pq (selElig t e.1 e.2 r).1.s := selElig_good gs
    generalize selElig t e.1 e.2 r = x at h
    obtain ⟨r1, _ | ⟨k, f⟩⟩ := x
    · dsimp -zeta only at h ⊢
      split <;> exact h
    · exact excessServe_good h

theorem excessRound_good {t key : Nat} {l : List (Nat × W4)} {n : Nat} {r : SelRun} (gs : Good pq r.s) :
    Good pq (excessRound t key l n r).s := by
  induction n generalizing r with
  | zero => exact gs
  | succ n ih =>
    rw [excessRound]
    split
    · exact gs
    · extract_lets a
      have ha : Good pq a.1.s := Good.foldlS1 gs fun a e h => excessTurn_good h
      clear_value a
      split
      · exact ih ha
      · exact ha

theorem selRounds_good {t : Nat} {qs : List (Nat × W4)} {r : SelRun} (gs : Good pq r.s) : Good pq (selRounds t qs r).s := by
  unfold selRounds
  extract_lets prios sub r1
  have h1 : Good pq r1.s := Good.foldlS gs fun r p h => by
    split
    · exact h
    · exact committedRound_good h
  refine Good.foldlS h1 fun r p h => ?_
  split
  · exact h
  · exact excessRound_good h

theorem selectTree_good {t b : Nat} {seen : List (Nat × Nat × Nat × Nat)} {s : State} (gs : Good pq s) : Good pq (selectTree t b seen s) := by
  unfold selectTree
  extract_lets m v bpt bpb cr qsrc r0 qs r ssrc qsrc2 s1 x qsrc3
  have gv : Good pq v := viewAt_good gs
  have g0 : Good pq r0.s := Good.upd gv
  have gr : Good pq r.s := selRounds_good (selTmms_good (selCont_good g0))
  clear_value r
  exact Good.ite (fun _ => gs) fun _ => modTre_good ⟨gr.pending, gs.regs, gr.beat, gr.clk⟩

theorem selectAll_good {trees : List Nat} {b n : Nat} {seen : List (Nat × Nat × Nat × Nat)} {s : State} (gs : Good pq s) :
    Good pq (selectAll trees b n seen s) := by
  induction n generalizing s seen with
  | zero => exact Good.foldl gs fun s t gs => selectTree_good gs
  | succ n ih =>
    rw [selectAll]
    have g1 : Good pq (trees.foldl (fun s t => selectTree t b seen s) s) := Good.foldl gs fun s t gs => selectTree_good gs
    exact Good.ite (fun _ => g1) fun _ => ih gs

theorem tmmSent_good {t m : Nat} {x : Tmm} {body : List Byte} {s : State}
    (gs : Good pq s) : Good pq (tmmSent t m x body s) := by
  unfold tmmSent
  try extract_lets
  repeat' first
    | with_reducible assumption
    | with_reducible apply modTre_good
    | with_reducible apply modCtx_good
    | with_reducible apply useFree_good
    | exact and_reserved (by decide)
    | exact reg_merge (by assumption) (by decide)
    | exact and_left_reserved (reg_reserved (by assumption) _)
    | with_reducible apply Good.ite
    | with_reducible apply Good.ite1
    | with_reducible apply Good.ite2
    | fail_if_no_progress (with_reducible apply Good.upd)
    | fail_if_no_progress (with_reducible refine Good.updTim ?_ rfl)
    | fail_if_no_progress (with_reducible refine Good.updTim0 ?_ rfl)
    | fail_if_no_progress (with_reducible refine Good.updRegs ?_ rfl rfl rfl rfl)
    | (intro _; try intros; try extract_lets)

theorem takeToken_good {q : Nat} {k : Token} {s : State}
    (gs : Good pq s) : Good pq (takeToken q k s) := by
  unfold takeToken
  try extract_lets
  repeat' first
    | with_reducible assumption
    | with_reducible apply logStart_good
    | with_reducible apply eraseToken_good

theorem takeSel_good {t : Nat} {s : State}
    (gs : Good pq s) : Good pq (takeSel t s) := by
  unfold takeSel
  try extract_lets
  repeat' first
    | with_reducible assumption
    | with_reducible apply takeToken_good
    | with_reducible apply startFetch_good
    | with_reducible apply tmmSent_good
    | with_reducible apply modTre_good
    | with_reducible apply Good.foldl
    | with_reducible apply Good.foldl1
    | with_reducible apply Good.foldl2
    | exact and_reserved (by decide)
    | exact reg_merge (by assumption) (by decide)
    | exact and_left_reserved (reg_reserved (by assumption) _)
    | with_reducible apply Good.ite
    | with_reducible apply Good.ite1
    | with_reducible apply Good.ite2
    | fail_if_no_progress (with_reducible apply Good.upd)
    | fail_if_no_progress (with_reducible refine Good.updTim ?_ rfl)
    | fail_if_no_progress (with_reducible refine Good.updTim0 ?_ rfl)
    | fail_if_no_progress (with_reducible refine Good.updRegs ?_ rfl rfl rfl rfl)
    | (intro _; try intros; try extract_lets)
    | split

theorem commitSel_good {t : Nat} {s : State}
    (gs : Good pq s) : Good pq (commitSel t s) := by
  unfold commitSel
  try extract_lets
  repeat' first
    | with_reducible assumption
    | with_reducible apply pumpFetches_good
    | with_reducible apply takeSel_good
    | exact and_reserved (by decide)
    | exact reg_merge (by assumption) (by decide)
    | exact and_left_reserved (reg_reserved (by assumption) _)
    | with_reducible apply Good.ite
    | with_reducible apply Good.ite1
    | with_reducible apply Good.ite2
    | fail_if_no_progress (with_reducible apply Good.upd)
    | fail_if_no_progress (with_reducible refine Good.updTim ?_ rfl)
    | fail_if_no_progress (with_reducible refine Good.updTim0 ?_ rfl)
    | fail_if_no_progress (with_reducible refine Good.updRegs ?_ rfl rfl rfl rfl)
    | (intro _; try intros; try extract_lets)

theorem discardSel_good {t : Nat} {s : State}
    (gs : Good pq s) : Good pq (discardSel t s) := by
  unfold discardSel
  try extract_lets
  repeat' first
    | with_reducible assumption
    | with_reducible apply modTre_good
    | exact and_reserved (by decide)
    | exact reg_merge (by assumption) (by decide)
    | exact and_left_reserved (reg_reserved (by assumption) _)
    | with_reducible apply Good.ite
    | with_reducible apply Good.ite1
    | with_reducible apply Good.ite2
    | fail_if_no_progress (with_reducible apply Good.upd)
    | fail_if_no_progress (with_reducible refine Good.updTim ?_ rfl)
    | fail_if_no_progress (with_reducible refine Good.updTim0 ?_ rfl)
    | fail_if_no_progress (with_reducible refine Good.updRegs ?_ rfl rfl rfl rfl)
    | (intro _; try intros; try extract_lets)
    | split

theorem idlePart_good {t : Nat} {u : DsTu} {s : State}
    (gs : Good pq s) : Good pq (idlePart t u s) := by
  unfold idlePart
  try extract_lets
  repeat' first
    | with_reducible assumption
    | with_reducible apply modTre_good

theorem tuReadFails_good {t : Nat} {u : DsTu} {s : State}
    (gs : Good pq s) : Good pq (tuReadFails t u s) := by
  unfold tuReadFails
  try extract_lets
  repeat' first
    | with_reducible assumption
    | with_reducible apply cellFail_good
    | with_reducible apply idlePart_good
    | with_reducible apply linkFail_good
    | exact and_reserved (by decide)
    | exact reg_merge (by assumption) (by decide)
    | exact and_left_reserved (reg_reserved (by assumption) _)
    | with_reducible apply Good.ite
    | with_reducible apply Good.ite1
    | with_reducible apply Good.ite2
    | fail_if_no_progress (with_reducible apply Good.upd)
    | fail_if_no_progress (with_reducible refine Good.updTim ?_ rfl)
    | fail_if_no_progress (with_reducible refine Good.updTim0 ?_ rfl)
    | fail_if_no_progress (with_reducible refine Good.updRegs ?_ rfl rfl rfl rfl)
    | (intro _; try intros; try extract_lets)
    | split

theorem assembleTu_good {t b : Nat} {u0 : DsTu} {s0 : State} (gs : Good pq s0) : Good pq (assembleTu t b u0 s0) := by
  unfold assembleTu
  extract_lets m set data s u turn back sent p s2 hdr r s1 s3
  have g : Good pq s := Good.ite (fun _ => tuReadFails_good gs) fun _ => gs
  have gset : ∀ {f : DsTu → DsTu} {s : State}, Good pq s → Good pq (set f s) := modStaged_good
  clear_value s set
  have gsent : Good pq (sent s) := by
    change Good pq ((if data then _ else id) s)
    split
    · exact leaves_good g
    · exact g
  clear_value sent
  have g2 : Good pq s2 := Good.ite (fun _ => count1_good g) fun _ => g
  clear_value s2
  have g1 : Good pq s1 :=
    Good.ite (fun _ => gset (Good.ite (fun _ => count1_good g) fun _ => g)) fun _ =>
    Good.ite (fun _ => count1_good (gset gsent)) fun _ => Good.ite (fun _ => pushPiece_good (gset g2)) fun _ =>
    Good.ite (fun _ => gset g) fun _ => Good.ite (fun _ => gset gsent) fun _ => gset (cpqIssue_good gsent)
  have g3 : Good pq s3 := Good.ite (fun _ => gset g1) fun _ => g1
  exact Good.ite (fun _ => release1_good g3) fun _ => g3

theorem assemble_good {t b : Nat} {s : State}
    (gs : Good pq s) : Good pq (assemble t b s) := by
  unfold assemble
  try extract_lets
  repeat' first
    | with_reducible assumption
    | with_reducible apply assembleTu_good
    | with_reducible apply Good.foldl
    | with_reducible apply Good.foldl1
    | with_reducible apply Good.foldl2
    | exact and_reserved (by decide)
    | exact reg_merge (by assumption) (by decide)
    | exact and_left_reserved (reg_reserved (by assumption) _)
    | with_reducible apply Good.ite
    | with_reducible apply Good.ite1
    | with_reducible apply Good.ite2
    | fail_if_no_progress (with_reducible apply Good.upd)
    | fail_if_no_progress (with_reducible refine Good.updTim ?_ rfl)
    | fail_if_no_progress (with_reducible refine Good.updTim0 ?_ rfl)
    | fail_if_no_progress (with_reducible refine Good.updRegs ?_ rfl rfl rfl rfl)
    | (intro _; try intros; try extract_lets)

end Sys2Proof.Machine
end

