-- ==== Sys2Proof/Laws/GoodTreeTx.lean ====
section
/-!
SUPPORT. What each operation of Machine/TreeTx.lean keeps (Laws/Good.lean).
-/

namespace Sys2Proof.Machine

-- one declaration at a time: the package is compiled as one text within a limit of memory
set_option Elab.async false

variable {pq : Ghost}

theorem countTu_good {t : Nat} {u : DsTu} {s : State}
    (gs : Good pq s) : Good pq (countTu t u s) := by
  unfold countTu
  try extract_lets
  repeat' first
    | with_reducible assumption
    | with_reducible apply countO_good
    | with_reducible apply objAdd_good
    | exact and_reserved (by decide)
    | exact reg_merge (by assumption) (by decide)
    | exact and_left_reserved (reg_reserved (by assumption) _)
    | with_reducible apply Good.ite
    | with_reducible apply Good.ite1
    | with_reducible apply Good.ite2
    | fail_if_no_progress (with_reducible apply Good.upd)
    | fail_if_no_progress (with_reducible refine Good.updTim ?_ rfl)
    | fail_if_no_progress (with_reducible refine Good.updTim0 ?_ rfl)
    | fail_if_no_progress (with_reducible refine Good.updRegs ?_ rfl rfl rfl rfl)
    | (intro _; try intros; try extract_lets)

theorem tuCompletes_good {t k : Nat} {u : DsTu} {s : State}
    (gs : Good pq s) : Good pq (tuCompletes t k u s) := by
  unfold tuCompletes
  try extract_lets
  repeat' first
    | with_reducible assumption
    | with_reducible apply completeAt_good
    | exact and_reserved (by decide)
    | exact reg_merge (by assumption) (by decide)
    | exact and_left_reserved (reg_reserved (by assumption) _)
    | with_reducible apply Good.ite
    | with_reducible apply Good.ite1
    | with_reducible apply Good.ite2
    | fail_if_no_progress (with_reducible apply Good.upd)
    | fail_if_no_progress (with_reducible refine Good.updTim ?_ rfl)
    | fail_if_no_progress (with_reducible refine Good.updTim0 ?_ rfl)
    | fail_if_no_progress (with_reducible refine Good.updRegs ?_ rfl rfl rfl rfl)
    | (intro _; try intros; try extract_lets)
    | split

theorem emitBlock_good {t n k : Nat} {s : State}
    (gs : Good pq s) : Good pq (emitBlock t n k s) := by
  unfold emitBlock
  try extract_lets
  repeat' first
    | with_reducible assumption
    | with_reducible apply count1_good
    | with_reducible apply emit_good
    | with_reducible apply modTre_good
    | with_reducible apply pushPiece_good
    | with_reducible apply countTu_good
    | with_reducible apply tuCompletes_good
    | exact and_reserved (by decide)
    | exact reg_merge (by assumption) (by decide)
    | exact and_left_reserved (reg_reserved (by assumption) _)
    | with_reducible apply Good.ite
    | with_reducible apply Good.ite1
    | with_reducible apply Good.ite2
    | fail_if_no_progress (with_reducible apply Good.upd)
    | fail_if_no_progress (with_reducible refine Good.updTim ?_ rfl)
    | fail_if_no_progress (with_reducible refine Good.updTim0 ?_ rfl)
    | fail_if_no_progress (with_reducible refine Good.updRegs ?_ rfl rfl rfl rfl)
    | (intro _; try intros; try extract_lets)
    | split

theorem dsCount_good {t : Nat} {sot : Bool} {s : State}
    (gs : Good pq s) : Good pq (dsCount t sot s).2 := by
  unfold dsCount
  try extract_lets
  repeat' first
    | with_reducible assumption
    | with_reducible apply fault_good
    | with_reducible apply count1_good
    | with_reducible apply modTre_good
    | exact and_reserved (by decide)
    | exact reg_merge (by assumption) (by decide)
    | exact and_left_reserved (reg_reserved (by assumption) _)
    | with_reducible apply Good.ite
    | with_reducible apply Good.ite1
    | with_reducible apply Good.ite2
    | fail_if_no_progress (with_reducible apply Good.upd)
    | fail_if_no_progress (with_reducible refine Good.updTim ?_ rfl)
    | fail_if_no_progress (with_reducible refine Good.updTim0 ?_ rfl)
    | fail_if_no_progress (with_reducible refine Good.updRegs ?_ rfl rfl rfl rfl)
    | (intro _; try intros; try extract_lets)

theorem dsRequest_good {t : Nat} {sot : Bool} {ph : Nat} {s : State}
    (gs : Good pq s) : Good pq (dsRequest t sot ph s) := by
  unfold dsRequest
  try extract_lets
  repeat' first
    | with_reducible assumption
    | with_reducible apply dsCount_good
    | with_reducible apply modTre_good
    | with_reducible apply emitBlock_good
    | exact and_reserved (by decide)
    | exact reg_merge (by assumption) (by decide)
    | exact and_left_reserved (reg_reserved (by assumption) _)
    | with_reducible apply Good.ite
    | with_reducible apply Good.ite1
    | with_reducible apply Good.ite2
    | fail_if_no_progress (with_reducible apply Good.upd)
    | fail_if_no_progress (with_reducible refine Good.updTim ?_ rfl)
    | fail_if_no_progress (with_reducible refine Good.updTim0 ?_ rfl)
    | fail_if_no_progress (with_reducible refine Good.updRegs ?_ rfl rfl rfl rfl)
    | (intro _; try intros; try extract_lets)

theorem txBoundary_good {t : Nat} {s : State}
    (gs : Good pq s) : Good pq (txBoundary t s) := by
  unfold txBoundary
  try extract_lets
  repeat' first
    | with_reducible assumption
    | with_reducible apply modTre_good

theorem pswRequest_good {t code at_ : Nat} {s : State}
    (gs : Good pq s) : Good pq (pswRequest t code at_ s) := by
  unfold pswRequest
  try extract_lets
  repeat' first
    | with_reducible assumption
    | with_reducible apply emit_good
    | with_reducible apply count1_good
    | with_reducible apply setTre_good
    | exact and_reserved (by decide)
    | exact reg_merge (by assumption) (by decide)
    | exact and_left_reserved (reg_reserved (by assumption) _)
    | with_reducible apply Good.ite
    | with_reducible apply Good.ite1
    | with_reducible apply Good.ite2
    | fail_if_no_progress (with_reducible apply Good.upd)
    | fail_if_no_progress (with_reducible refine Good.updTim ?_ rfl)
    | fail_if_no_progress (with_reducible refine Good.updTim0 ?_ rfl)
    | fail_if_no_progress (with_reducible refine Good.updRegs ?_ rfl rfl rfl rfl)
    | (intro _; try intros; try extract_lets)

theorem runSwitch_good {t : Nat} {s : State}
    (gs : Good pq s) : Good pq (runSwitch t s) := by
  unfold runSwitch
  try extract_lets
  repeat' first
    | with_reducible assumption
    | with_reducible apply setTre_good
    | with_reducible apply flushQueue_good
    | with_reducible apply estTakeover_good
    | with_reducible apply useFree_good
    | with_reducible apply sendTmm_good
    | with_reducible apply Good.foldl
    | with_reducible apply Good.foldl1
    | with_reducible apply Good.foldl2
    | exact and_reserved (by decide)
    | exact reg_merge (by assumption) (by decide)
    | exact and_left_reserved (reg_reserved (by assumption) _)
    | with_reducible apply Good.ite
    | with_reducible apply Good.ite1
    | with_reducible apply Good.ite2
    | fail_if_no_progress (with_reducible apply Good.upd)
    | fail_if_no_progress (with_reducible refine Good.updTim ?_ rfl)
    | fail_if_no_progress (with_reducible refine Good.updTim0 ?_ rfl)
    | fail_if_no_progress (with_reducible refine Good.updRegs ?_ rfl rfl rfl rfl)
    | (intro _; try intros; try extract_lets)
    | split

theorem stopTree_good {t : Nat} {s : State}
    (gs : Good pq s) : Good pq (stopTree t s) := by
  unfold stopTree
  try extract_lets
  repeat' first
    | with_reducible assumption
    | with_reducible apply refuseWaits_good
    | with_reducible apply discardSel_good
    | with_reducible apply release1_good
    | with_reducible apply modTre_good
    | with_reducible apply Good.foldl
    | with_reducible apply Good.foldl1
    | with_reducible apply Good.foldl2
    | exact and_reserved (by decide)
    | exact reg_merge (by assumption) (by decide)
    | exact and_left_reserved (reg_reserved (by assumption) _)
    | with_reducible apply Good.ite
    | with_reducible apply Good.ite1
    | with_reducible apply Good.ite2
    | fail_if_no_progress (with_reducible apply Good.upd)
    | fail_if_no_progress (with_reducible refine Good.updTim ?_ rfl)
    | fail_if_no_progress (with_reducible refine Good.updTim0 ?_ rfl)
    | fail_if_no_progress (with_reducible refine Good.updRegs ?_ rfl rfl rfl rfl)
    | (intro _; try intros; try extract_lets)

set_option maxRecDepth 20000 in
theorem treCfgMask {t : Nat} (ht : t < 64) : regMask (rTreCfg t) = 7 := by
  revert t; decide

theorem writeTreCfg_good {t : Nat} {data : Word} {s : State} (ht : t < 64) (gs : Good pq s) : Good pq (writeTreCfg t data s) := by
  unfold writeTreCfg
  extract_lets a old d s1 s2
  have hd : d &&& ~~~(regMask a) = 0 := by rw [treCfgMask ht]; exact and_not_self' data 7
  have h6 : d &&& 6 &&& ~~~(regMask a) = 0 := and_left_reserved hd
  have g1 : Good pq s1 := setReg_good gs hd
  have g2 : Good pq s2 := by
    refine modTre_good (setReg_good gs ?_)
    split
    · exact and_left_reserved (reg_reserved gs _)
    · exact hd
  refine Good.ite (fun _ => Good.ite (fun _ => gs) fun _ => ?_) fun _ => Good.ite (fun _ => stopTree_good g2) fun _ => g2
  refine Good.ite (fun _ => setReg_good gs h6) fun _ => Good.ite (fun _ => fault_good (setReg_good gs h6)) fun _ => ?_
  exact modTre_good g1

theorem startTree_good {t : Nat} {s : State}
    (gs : Good pq s) : Good pq (startTree t s) := by
  unfold startTree
  try extract_lets
  repeat' first
    | with_reducible assumption
    | with_reducible apply setTre_good
    | with_reducible apply modChn_good
    | with_reducible apply discNow_good
    | with_reducible apply oversub_good
    | exact and_reserved (by decide)
    | exact reg_merge (by assumption) (by decide)
    | exact and_left_reserved (reg_reserved (by assumption) _)
    | with_reducible apply Good.ite
    | with_reducible apply Good.ite1
    | with_reducible apply Good.ite2
    | fail_if_no_progress (with_reducible apply Good.upd)
    | fail_if_no_progress (with_reducible refine Good.updTim ?_ rfl)
    | fail_if_no_progress (with_reducible refine Good.updTim0 ?_ rfl)
    | fail_if_no_progress (with_reducible refine Good.updRegs ?_ rfl rfl rfl rfl)
    | (intro _; try intros; try extract_lets)

end Sys2Proof.Machine
end

