-- ==== Sys2Proof/Laws/GoodCommand.lean ====
section
/-!
SUPPORT. What each operation of Machine/Command.lean keeps (Laws/Good.lean).
-/

namespace Sys2Proof.Machine

-- one declaration at a time: the package is compiled as one text within a limit of memory
set_option Elab.async false

variable {pq : Ghost}

theorem cmdGo_good {p : BitVec 6} {i : Instr} {f : State → State} {s : State}
    (gs : Good pq s) (kf : ∀ s, Good pq s → Good pq (f s)) : Good pq (cmdGo p i f s) := by
  unfold cmdGo
  try extract_lets
  repeat' first
    | with_reducible assumption
    | with_reducible apply kf
    | exact and_reserved (by decide)
    | exact reg_merge (by assumption) (by decide)
    | exact and_left_reserved (reg_reserved (by assumption) _)
    | with_reducible apply Good.ite
    | with_reducible apply Good.ite1
    | with_reducible apply Good.ite2
    | fail_if_no_progress (with_reducible apply Good.upd)
    | fail_if_no_progress (with_reducible refine Good.updTim ?_ rfl)
    | fail_if_no_progress (with_reducible refine Good.updTim0 ?_ rfl)
    | fail_if_no_progress (with_reducible refine Good.updRegs ?_ rfl rfl rfl rfl)
    | (intro _; try intros; try extract_lets)

theorem ownedCmd_good {p : Nat} {owns : Bool} {f : State → State} {s : State}
    (gs : Good pq s) (kf : ∀ s, Good pq s → Good pq (f s)) : Good pq (ownedCmd p owns f s) := by
  unfold ownedCmd
  try extract_lets
  repeat' first
    | with_reducible assumption
    | with_reducible apply completeCmd_good
    | with_reducible apply partViol_good
    | with_reducible apply kf
    | exact and_reserved (by decide)
    | exact reg_merge (by assumption) (by decide)
    | exact and_left_reserved (reg_reserved (by assumption) _)
    | with_reducible apply Good.ite
    | with_reducible apply Good.ite1
    | with_reducible apply Good.ite2
    | fail_if_no_progress (with_reducible apply Good.upd)
    | fail_if_no_progress (with_reducible refine Good.updTim ?_ rfl)
    | fail_if_no_progress (with_reducible refine Good.updTim0 ?_ rfl)
    | fail_if_no_progress (with_reducible refine Good.updRegs ?_ rfl rfl rfl rfl)
    | (intro _; try intros; try extract_lets)

theorem ringSet_good {p kind n : Nat} {ctx : W6} {s : State}
    (gs : Good pq s) : Good pq (ringSet p kind n ctx s) := by
  unfold ringSet
  try extract_lets
  repeat' first
    | with_reducible assumption
    | with_reducible apply completeCmd_good
    | with_reducible apply ownedCmd_good
    | with_reducible apply startRing_good
    | exact and_reserved (by decide)
    | exact reg_merge (by assumption) (by decide)
    | exact and_left_reserved (reg_reserved (by assumption) _)
    | with_reducible apply Good.ite
    | with_reducible apply Good.ite1
    | with_reducible apply Good.ite2
    | fail_if_no_progress (with_reducible apply Good.upd)
    | fail_if_no_progress (with_reducible refine Good.updTim ?_ rfl)
    | fail_if_no_progress (with_reducible refine Good.updTim0 ?_ rfl)
    | fail_if_no_progress (with_reducible refine Good.updRegs ?_ rfl rfl rfl rfl)
    | (intro _; try intros; try extract_lets)

theorem ringQuiesce_good {p kind n : Nat} {s : State}
    (gs : Good pq s) : Good pq (ringQuiesce p kind n s) := by
  unfold ringQuiesce
  try extract_lets
  repeat' first
    | with_reducible assumption
    | with_reducible apply completeCmd_good
    | with_reducible apply ownedCmd_good
    | with_reducible apply setRing_good
    | with_reducible apply setWait_good
    | with_reducible apply atCycle_good
    | exact and_reserved (by decide)
    | exact reg_merge (by assumption) (by decide)
    | exact and_left_reserved (reg_reserved (by assumption) _)
    | with_reducible apply Good.ite
    | with_reducible apply Good.ite1
    | with_reducible apply Good.ite2
    | fail_if_no_progress (with_reducible apply Good.upd)
    | fail_if_no_progress (with_reducible refine Good.updTim ?_ rfl)
    | fail_if_no_progress (with_reducible refine Good.updTim0 ?_ rfl)
    | fail_if_no_progress (with_reducible refine Good.updRegs ?_ rfl rfl rfl rfl)
    | (intro _; try intros; try extract_lets)

theorem ringQuiesceDone_good {k : RingKind} {n : Nat} {s : State}
    (gs : Good pq s) : Good pq (ringQuiesceDone k n s) := by
  unfold ringQuiesceDone
  try extract_lets
  repeat' first
    | with_reducible assumption
    | with_reducible apply completeCmd_good
    | with_reducible apply setRing_good
    | exact and_reserved (by decide)
    | exact reg_merge (by assumption) (by decide)
    | exact and_left_reserved (reg_reserved (by assumption) _)
    | with_reducible apply Good.ite
    | with_reducible apply Good.ite1
    | with_reducible apply Good.ite2
    | fail_if_no_progress (with_reducible apply Good.upd)
    | fail_if_no_progress (with_reducible refine Good.updTim ?_ rfl)
    | fail_if_no_progress (with_reducible refine Good.updTim0 ?_ rfl)
    | fail_if_no_progress (with_reducible refine Good.updRegs ?_ rfl rfl rfl rfl)
    | (intro _; try intros; try extract_lets)
    | split

theorem ringResume_good {p kind n : Nat} {s : State}
    (gs : Good pq s) : Good pq (ringResume p kind n s) := by
  unfold ringResume
  try extract_lets
  repeat' first
    | with_reducible assumption
    | with_reducible apply completeCmd_good
    | with_reducible apply ownedCmd_good
    | with_reducible apply tryFetch_good
    | with_reducible apply setRing_good
    | exact and_reserved (by decide)
    | exact reg_merge (by assumption) (by decide)
    | exact and_left_reserved (reg_reserved (by assumption) _)
    | with_reducible apply Good.ite
    | with_reducible apply Good.ite1
    | with_reducible apply Good.ite2
    | fail_if_no_progress (with_reducible apply Good.upd)
    | fail_if_no_progress (with_reducible refine Good.updTim ?_ rfl)
    | fail_if_no_progress (with_reducible refine Good.updTim0 ?_ rfl)
    | fail_if_no_progress (with_reducible refine Good.updRegs ?_ rfl rfl rfl rfl)
    | (intro _; try intros; try extract_lets)

theorem allocSet_good {p t h : Nat} {w : W4} {s : State}
    (gs : Good pq s) : Good pq (allocSet p t h w s) := by
  unfold allocSet
  try extract_lets
  repeat' first
    | with_reducible assumption
    | with_reducible apply ownedCmd_good
    | with_reducible apply completeCmd_good
    | with_reducible apply putAlloc_good
    | exact and_reserved (by decide)
    | exact reg_merge (by assumption) (by decide)
    | exact and_left_reserved (reg_reserved (by assumption) _)
    | with_reducible apply Good.ite
    | with_reducible apply Good.ite1
    | with_reducible apply Good.ite2
    | fail_if_no_progress (with_reducible apply Good.upd)
    | fail_if_no_progress (with_reducible refine Good.updTim ?_ rfl)
    | fail_if_no_progress (with_reducible refine Good.updTim0 ?_ rfl)
    | fail_if_no_progress (with_reducible refine Good.updRegs ?_ rfl rfl rfl rfl)
    | (intro _; try intros; try extract_lets)

theorem queueSet_good {p t i : Nat} {w : W4} {s : State}
    (gs : Good pq s) : Good pq (queueSet p t i w s) := by
  unfold queueSet
  try extract_lets
  repeat' first
    | with_reducible assumption
    | with_reducible apply ownedCmd_good
    | with_reducible apply completeCmd_good
    | with_reducible apply putCtx_good
    | exact and_reserved (by decide)
    | exact reg_merge (by assumption) (by decide)
    | exact and_left_reserved (reg_reserved (by assumption) _)
    | with_reducible apply Good.ite
    | with_reducible apply Good.ite1
    | with_reducible apply Good.ite2
    | fail_if_no_progress (with_reducible apply Good.upd)
    | fail_if_no_progress (with_reducible refine Good.updTim ?_ rfl)
    | fail_if_no_progress (with_reducible refine Good.updTim0 ?_ rfl)
    | fail_if_no_progress (with_reducible refine Good.updRegs ?_ rfl rfl rfl rfl)
    | (intro _; try intros; try extract_lets)

theorem admitCmd_good {p t tid : Nat} {serial : BitVec 64} {s : State}
    (gs : Good pq s) : Good pq (admitCmd p t tid serial s) := by
  unfold admitCmd
  try extract_lets
  repeat' first
    | with_reducible assumption
    | with_reducible apply completeCmd_good
    | with_reducible apply ownedCmd_good
    | with_reducible apply modCtx_good
    | with_reducible apply setTre_good
    | exact and_reserved (by decide)
    | exact reg_merge (by assumption) (by decide)
    | exact and_left_reserved (reg_reserved (by assumption) _)
    | with_reducible apply Good.ite
    | with_reducible apply Good.ite1
    | with_reducible apply Good.ite2
    | fail_if_no_progress (with_reducible apply Good.upd)
    | fail_if_no_progress (with_reducible refine Good.updTim ?_ rfl)
    | fail_if_no_progress (with_reducible refine Good.updTim0 ?_ rfl)
    | fail_if_no_progress (with_reducible refine Good.updRegs ?_ rfl rfl rfl rfl)
    | (intro _; try intros; try extract_lets)
    | split

theorem terminalCmd_good {op p t tid : Nat} {s : State}
    (gs : Good pq s) : Good pq (terminalCmd op p t tid s) := by
  unfold terminalCmd
  try extract_lets
  repeat' first
    | with_reducible assumption
    | with_reducible apply completeCmd_good
    | with_reducible apply ownedCmd_good
    | with_reducible apply modCtx_good
    | exact and_reserved (by decide)
    | exact reg_merge (by assumption) (by decide)
    | exact and_left_reserved (reg_reserved (by assumption) _)
    | with_reducible apply Good.ite
    | with_reducible apply Good.ite1
    | with_reducible apply Good.ite2
    | fail_if_no_progress (with_reducible apply Good.upd)
    | fail_if_no_progress (with_reducible refine Good.updTim ?_ rfl)
    | fail_if_no_progress (with_reducible refine Good.updTim0 ?_ rfl)
    | fail_if_no_progress (with_reducible refine Good.updRegs ?_ rfl rfl rfl rfl)
    | (intro _; try intros; try extract_lets)

theorem discNow_good {p t : Nat} {s : State}
    (gs : Good pq s) : Good pq (discNow p t s) := by
  unfold discNow
  try extract_lets
  repeat' first
    | with_reducible assumption
    | with_reducible apply ownedCmd_good
    | with_reducible apply completeCmd_good
    | with_reducible apply modChn_good
    | exact and_reserved (by decide)
    | exact reg_merge (by assumption) (by decide)
    | exact and_left_reserved (reg_reserved (by assumption) _)
    | with_reducible apply Good.ite
    | with_reducible apply Good.ite1
    | with_reducible apply Good.ite2
    | fail_if_no_progress (with_reducible apply Good.upd)
    | fail_if_no_progress (with_reducible refine Good.updTim ?_ rfl)
    | fail_if_no_progress (with_reducible refine Good.updTim0 ?_ rfl)
    | fail_if_no_progress (with_reducible refine Good.updRegs ?_ rfl rfl rfl rfl)
    | (intro _; try intros; try extract_lets)

theorem pushCmdTmm_good {p t : Nat} {m : Tmm} {s : State}
    (gs : Good pq s) : Good pq (pushCmdTmm p t m s) := by
  unfold pushCmdTmm
  try extract_lets
  repeat' first
    | with_reducible assumption
    | with_reducible apply completeCmd_good
    | with_reducible apply wake_good
    | with_reducible apply modTre_good
    | with_reducible apply count1_good
    | with_reducible apply setWait_good
    | exact and_reserved (by decide)
    | exact reg_merge (by assumption) (by decide)
    | exact and_left_reserved (reg_reserved (by assumption) _)
    | with_reducible apply Good.ite
    | with_reducible apply Good.ite1
    | with_reducible apply Good.ite2
    | fail_if_no_progress (with_reducible apply Good.upd)
    | fail_if_no_progress (with_reducible refine Good.updTim ?_ rfl)
    | fail_if_no_progress (with_reducible refine Good.updTim0 ?_ rfl)
    | fail_if_no_progress (with_reducible refine Good.updRegs ?_ rfl rfl rfl rfl)
    | (intro _; try intros; try extract_lets)

theorem tmmCmdQueued_good {p : Nat} {s : State}
    (gs : Good pq s) : Good pq (tmmCmdQueued p s) := by
  unfold tmmCmdQueued
  try extract_lets
  repeat' first
    | with_reducible assumption
    | with_reducible apply completeCmd_good
    | with_reducible apply wake_good
    | with_reducible apply modTre_good
    | exact and_reserved (by decide)
    | exact reg_merge (by assumption) (by decide)
    | exact and_left_reserved (reg_reserved (by assumption) _)
    | with_reducible apply Good.ite
    | with_reducible apply Good.ite1
    | with_reducible apply Good.ite2
    | fail_if_no_progress (with_reducible apply Good.upd)
    | fail_if_no_progress (with_reducible refine Good.updTim ?_ rfl)
    | fail_if_no_progress (with_reducible refine Good.updTim0 ?_ rfl)
    | fail_if_no_progress (with_reducible refine Good.updRegs ?_ rfl rfl rfl rfl)
    | (intro _; try intros; try extract_lets)
    | split

theorem operandRead_good {p addr len : Nat} {w : CmdWait} {s : State}
    (gs : Good pq s) : Good pq (operandRead p addr len w s) := by
  unfold operandRead
  try extract_lets
  repeat' first
    | with_reducible assumption
    | with_reducible apply hostReads_good
    | with_reducible apply setWait_good

theorem tmmSendCmd_good {p t tid addr : Nat} {s : State}
    (gs : Good pq s) : Good pq (tmmSendCmd p t tid addr s) := by
  unfold tmmSendCmd
  try extract_lets
  repeat' first
    | with_reducible assumption
    | with_reducible apply ownedCmd_good
    | with_reducible apply operandRead_good

theorem keySwitchCmd_good {p t tid ksel : Nat} {s : State}
    (gs : Good pq s) : Good pq (keySwitchCmd p t tid ksel s) := by
  unfold keySwitchCmd
  try extract_lets
  repeat' first
    | with_reducible assumption
    | with_reducible apply completeCmd_good
    | with_reducible apply ownedCmd_good
    | with_reducible apply pushCmdTmm_good
    | with_reducible apply modTre_good
    | exact and_reserved (by decide)
    | exact reg_merge (by assumption) (by decide)
    | exact and_left_reserved (reg_reserved (by assumption) _)
    | with_reducible apply Good.ite
    | with_reducible apply Good.ite1
    | with_reducible apply Good.ite2
    | fail_if_no_progress (with_reducible apply Good.upd)
    | fail_if_no_progress (with_reducible refine Good.updTim ?_ rfl)
    | fail_if_no_progress (with_reducible refine Good.updTim0 ?_ rfl)
    | fail_if_no_progress (with_reducible refine Good.updRegs ?_ rfl rfl rfl rfl)
    | (intro _; try intros; try extract_lets)

theorem keyLoadCmd_good {p n : Nat} {klen : Bool} {addr : Nat} {s : State}
    (gs : Good pq s) : Good pq (keyLoadCmd p n klen addr s) := by
  unfold keyLoadCmd
  try extract_lets
  repeat' first
    | with_reducible assumption
    | with_reducible apply ownedCmd_good
    | with_reducible apply operandRead_good

theorem keyEraseCmd_good {p n : Nat} {s : State}
    (gs : Good pq s) : Good pq (keyEraseCmd p n s) := by
  unfold keyEraseCmd
  try extract_lets
  repeat' first
    | with_reducible assumption
    | with_reducible apply ownedCmd_good
    | with_reducible apply keyCommand_good

theorem keyLutCmd_good {p n tick : Nat} {s : State}
    (gs : Good pq s) : Good pq (keyLutCmd p n tick s) := by
  unfold keyLutCmd
  try extract_lets
  repeat' first
    | with_reducible assumption
    | with_reducible apply ownedCmd_good
    | with_reducible apply completeCmd_good
    | with_reducible apply setSlot_good
    | exact and_reserved (by decide)
    | exact reg_merge (by assumption) (by decide)
    | exact and_left_reserved (reg_reserved (by assumption) _)
    | with_reducible apply Good.ite
    | with_reducible apply Good.ite1
    | with_reducible apply Good.ite2
    | fail_if_no_progress (with_reducible apply Good.upd)
    | fail_if_no_progress (with_reducible refine Good.updTim ?_ rfl)
    | fail_if_no_progress (with_reducible refine Good.updTim0 ?_ rfl)
    | fail_if_no_progress (with_reducible refine Good.updRegs ?_ rfl rfl rfl rfl)
    | (intro _; try intros; try extract_lets)

theorem emCmd_good {op p : Nat} {dir : Bool} {addr : Nat} {s : State}
    (gs : Good pq s) : Good pq (emCmd op p dir addr s) := by
  unfold emCmd
  try extract_lets
  repeat' first
    | with_reducible assumption
    | with_reducible apply ownedCmd_good
    | with_reducible apply operandRead_good

theorem clsSwapCmd_good {p : Nat} {s : State}
    (gs : Good pq s) : Good pq (clsSwapCmd p s) := by
  unfold clsSwapCmd
  try extract_lets
  repeat' first
    | with_reducible assumption
    | with_reducible apply ownedCmd_good
    | with_reducible apply completeCmd_good
    | with_reducible apply clsSwapNow_good
    | exact and_reserved (by decide)
    | exact reg_merge (by assumption) (by decide)
    | exact and_left_reserved (reg_reserved (by assumption) _)
    | with_reducible apply Good.ite
    | with_reducible apply Good.ite1
    | with_reducible apply Good.ite2
    | fail_if_no_progress (with_reducible apply Good.upd)
    | fail_if_no_progress (with_reducible refine Good.updTim ?_ rfl)
    | fail_if_no_progress (with_reducible refine Good.updTim0 ?_ rfl)
    | fail_if_no_progress (with_reducible refine Good.updRegs ?_ rfl rfl rfl rfl)
    | (intro _; try intros; try extract_lets)

theorem operandWhole_good {p : Nat} {w : CmdWait} {b : List Byte} {s : State}
    (gs : Good pq s) : Good pq (operandWhole p w b s) := by
  unfold operandWhole
  try extract_lets
  repeat' first
    | with_reducible assumption
    | with_reducible apply completeCmd_good
    | with_reducible apply pushCmdTmm_good
    | with_reducible apply keyCommand_good
    | with_reducible apply emDo_good
    | exact and_reserved (by decide)
    | exact reg_merge (by assumption) (by decide)
    | exact and_left_reserved (reg_reserved (by assumption) _)
    | with_reducible apply Good.ite
    | with_reducible apply Good.ite1
    | with_reducible apply Good.ite2
    | fail_if_no_progress (with_reducible apply Good.upd)
    | fail_if_no_progress (with_reducible refine Good.updTim ?_ rfl)
    | fail_if_no_progress (with_reducible refine Good.updTim0 ?_ rfl)
    | fail_if_no_progress (with_reducible refine Good.updRegs ?_ rfl rfl rfl rfl)
    | (intro _; try intros; try extract_lets)
    | split

theorem operandPart_good {p off : Nat} {b : List Byte} {s : State}
    (gs : Good pq s) : Good pq (operandPart p off b s) := by
  unfold operandPart
  try extract_lets
  repeat' first
    | with_reducible assumption
    | with_reducible apply operandWhole_good
    | exact and_reserved (by decide)
    | exact reg_merge (by assumption) (by decide)
    | exact and_left_reserved (reg_reserved (by assumption) _)
    | with_reducible apply Good.ite
    | with_reducible apply Good.ite1
    | with_reducible apply Good.ite2
    | fail_if_no_progress (with_reducible apply Good.upd)
    | fail_if_no_progress (with_reducible refine Good.updTim ?_ rfl)
    | fail_if_no_progress (with_reducible refine Good.updTim0 ?_ rfl)
    | fail_if_no_progress (with_reducible refine Good.updRegs ?_ rfl rfl rfl rfl)
    | (intro _; try intros; try extract_lets)
    | split

theorem operandDone_good {ch tag : Nat} {bytes : List Byte} {err : Bool} {s : State}
    (gs : Good pq s) : Good pq (operandDone ch tag bytes err s) := by
  unfold operandDone
  try extract_lets
  repeat' first
    | with_reducible assumption
    | with_reducible apply strayRead_good
    | with_reducible apply dropRead_good
    | with_reducible apply retryReads_good
    | with_reducible apply halt_good
    | with_reducible apply operandPart_good
    | with_reducible apply sendData_good
    | exact and_reserved (by decide)
    | exact reg_merge (by assumption) (by decide)
    | exact and_left_reserved (reg_reserved (by assumption) _)
    | with_reducible apply Good.ite
    | with_reducible apply Good.ite1
    | with_reducible apply Good.ite2
    | fail_if_no_progress (with_reducible apply Good.upd)
    | fail_if_no_progress (with_reducible refine Good.updTim ?_ rfl)
    | fail_if_no_progress (with_reducible refine Good.updTim0 ?_ rfl)
    | fail_if_no_progress (with_reducible refine Good.updRegs ?_ rfl rfl rfl rfl)
    | (intro _; try intros; try extract_lets)
    | split

end Sys2Proof.Machine
end

