-- ==== Sys2Proof/Laws/GoodSlices.lean ====
section
/-!
SUPPORT. What each operation of Machine/Slices.lean keeps (Laws/Good.lean).
-/

namespace Sys2Proof.Machine

-- one declaration at a time: the package is compiled as one text within a limit of memory
set_option Elab.async false

variable {pq : Ghost}

theorem laneStart_good {i : Nat} {s : State}
    (gs : Good pq s) : Good pq (laneStart i s) := by
  unfold laneStart
  try extract_lets
  repeat' first
    | with_reducible assumption
    | with_reducible apply laneMod_good
    | with_reducible apply Good.foldl
    | with_reducible apply Good.foldl1
    | with_reducible apply Good.foldl2
    | exact and_reserved (by decide)
    | exact reg_merge (by assumption) (by decide)
    | exact and_left_reserved (reg_reserved (by assumption) _)
    | with_reducible apply Good.ite
    | with_reducible apply Good.ite1
    | with_reducible apply Good.ite2
    | fail_if_no_progress (with_reducible apply Good.upd)
    | fail_if_no_progress (with_reducible refine Good.updTim ?_ rfl)
    | fail_if_no_progress (with_reducible refine Good.updTim0 ?_ rfl)
    | fail_if_no_progress (with_reducible refine Good.updRegs ?_ rfl rfl rfl rfl)
    | (intro _; try intros; try extract_lets)

theorem laneStop_good {i : Nat} {s : State}
    (gs : Good pq s) : Good pq (laneStop i s) := by
  unfold laneStop
  try extract_lets
  repeat' first
    | with_reducible assumption
    | with_reducible apply laneMod_good
    | with_reducible apply Good.foldl
    | with_reducible apply Good.foldl1
    | with_reducible apply Good.foldl2
    | exact and_reserved (by decide)
    | exact reg_merge (by assumption) (by decide)
    | exact and_left_reserved (reg_reserved (by assumption) _)
    | with_reducible apply Good.ite
    | with_reducible apply Good.ite1
    | with_reducible apply Good.ite2
    | fail_if_no_progress (with_reducible apply Good.upd)
    | fail_if_no_progress (with_reducible refine Good.updTim ?_ rfl)
    | fail_if_no_progress (with_reducible refine Good.updTim0 ?_ rfl)
    | fail_if_no_progress (with_reducible refine Good.updRegs ?_ rfl rfl rfl rfl)
    | (intro _; try intros; try extract_lets)

theorem beatReports_good {s : State}
    (gs : Good pq s) : Good pq (beatReports s) := by
  unfold beatReports
  try extract_lets
  repeat' first
    | with_reducible assumption
    | with_reducible apply Good.foldl
    | with_reducible apply Good.foldl1
    | with_reducible apply Good.foldl2
    | exact and_reserved (by decide)
    | exact reg_merge (by assumption) (by decide)
    | exact and_left_reserved (reg_reserved (by assumption) _)
    | with_reducible apply Good.ite
    | with_reducible apply Good.ite1
    | with_reducible apply Good.ite2
    | fail_if_no_progress (with_reducible apply Good.upd)
    | fail_if_no_progress (with_reducible refine Good.updTim ?_ rfl)
    | fail_if_no_progress (with_reducible refine Good.updTim0 ?_ rfl)
    | fail_if_no_progress (with_reducible refine Good.updRegs ?_ rfl rfl rfl rfl)
    | (intro _; try intros; try extract_lets)

theorem setRole_good {i : Nat} {r : Role} {s : State}
    (gs : Good pq s) : Good pq (setRole i r s) := by
  unfold setRole
  try extract_lets
  repeat' first
    | with_reducible assumption
    | with_reducible apply laneStop_good
    | with_reducible apply laneStart_good
    | exact and_reserved (by decide)
    | exact reg_merge (by assumption) (by decide)
    | exact and_left_reserved (reg_reserved (by assumption) _)
    | with_reducible apply Good.ite
    | with_reducible apply Good.ite1
    | with_reducible apply Good.ite2
    | fail_if_no_progress (with_reducible apply Good.upd)
    | fail_if_no_progress (with_reducible refine Good.updTim ?_ rfl)
    | fail_if_no_progress (with_reducible refine Good.updTim0 ?_ rfl)
    | fail_if_no_progress (with_reducible refine Good.updRegs ?_ rfl rfl rfl rfl)
    | (intro _; try intros; try extract_lets)

theorem setMode_good {s : State}
    (gs : Good pq s) : Good pq (setMode s) := by
  unfold setMode
  try extract_lets
  repeat' first
    | with_reducible assumption
    | with_reducible apply notice0_good
    | exact and_reserved (by decide)
    | exact reg_merge (by assumption) (by decide)
    | exact and_left_reserved (reg_reserved (by assumption) _)
    | with_reducible apply Good.ite
    | with_reducible apply Good.ite1
    | with_reducible apply Good.ite2
    | fail_if_no_progress (with_reducible apply Good.upd)
    | fail_if_no_progress (with_reducible refine Good.updTim ?_ rfl)
    | fail_if_no_progress (with_reducible refine Good.updTim0 ?_ rfl)
    | fail_if_no_progress (with_reducible refine Good.updRegs ?_ rfl rfl rfl rfl)
    | (intro _; try intros; try extract_lets)

theorem becomeSpare_good {i : Nat} {s : State}
    (gs : Good pq s) : Good pq (becomeSpare i s) := by
  unfold becomeSpare
  try extract_lets
  repeat' first
    | with_reducible assumption
    | with_reducible apply setRole_good
    | with_reducible apply setMode_good
    | exact and_reserved (by decide)
    | exact reg_merge (by assumption) (by decide)
    | exact and_left_reserved (reg_reserved (by assumption) _)
    | with_reducible apply Good.ite
    | with_reducible apply Good.ite1
    | with_reducible apply Good.ite2
    | fail_if_no_progress (with_reducible apply Good.upd)
    | fail_if_no_progress (with_reducible refine Good.updTim ?_ rfl)
    | fail_if_no_progress (with_reducible refine Good.updTim0 ?_ rfl)
    | fail_if_no_progress (with_reducible refine Good.updRegs ?_ rfl rfl rfl rfl)
    | (intro _; try intros; try extract_lets)

theorem moveTree_good {t h : Nat} {s : State}
    (gs : Good pq s) : Good pq (moveTree t h s) := by
  unfold moveTree
  try extract_lets
  repeat' first
    | with_reducible assumption
    | with_reducible apply setHomeT_good
    | with_reducible apply fault_good
    | exact and_reserved (by decide)
    | exact reg_merge (by assumption) (by decide)
    | exact and_left_reserved (reg_reserved (by assumption) _)
    | with_reducible apply Good.ite
    | with_reducible apply Good.ite1
    | with_reducible apply Good.ite2
    | fail_if_no_progress (with_reducible apply Good.upd)
    | fail_if_no_progress (with_reducible refine Good.updTim ?_ rfl)
    | fail_if_no_progress (with_reducible refine Good.updTim0 ?_ rfl)
    | fail_if_no_progress (with_reducible refine Good.updRegs ?_ rfl rfl rfl rfl)
    | (intro _; try intros; try extract_lets)

theorem moveHomes_good {trees ports : List Nat} {h : Nat} {s : State}
    (gs : Good pq s) : Good pq (moveHomes trees ports h s) := by
  unfold moveHomes
  try extract_lets
  repeat' first
    | with_reducible assumption
    | with_reducible apply setHomeU_good
    | with_reducible apply moveTree_good
    | with_reducible apply Good.foldl
    | with_reducible apply Good.foldl1
    | with_reducible apply Good.foldl2
    | exact and_reserved (by decide)
    | exact reg_merge (by assumption) (by decide)
    | exact and_left_reserved (reg_reserved (by assumption) _)
    | with_reducible apply Good.ite
    | with_reducible apply Good.ite1
    | with_reducible apply Good.ite2
    | fail_if_no_progress (with_reducible apply Good.upd)
    | fail_if_no_progress (with_reducible refine Good.updTim ?_ rfl)
    | fail_if_no_progress (with_reducible refine Good.updTim0 ?_ rfl)
    | fail_if_no_progress (with_reducible refine Good.updRegs ?_ rfl rfl rfl rfl)
    | (intro _; try intros; try extract_lets)

theorem skimOne_good {i : Nat} {s : State}
    (gs : Good pq s) : Good pq (skimOne i s) := by
  unfold skimOne
  try extract_lets
  repeat' first
    | with_reducible assumption
    | with_reducible apply count1_good
    | with_reducible apply Good.foldl
    | with_reducible apply Good.foldl1
    | with_reducible apply Good.foldl2
    | exact and_reserved (by decide)
    | exact reg_merge (by assumption) (by decide)
    | exact and_left_reserved (reg_reserved (by assumption) _)
    | with_reducible apply Good.ite
    | with_reducible apply Good.ite1
    | with_reducible apply Good.ite2
    | fail_if_no_progress (with_reducible apply Good.upd)

theorem skimCapture_good {s : State}
    (gs : Good pq s) : Good pq (skimCapture s) := by
  unfold skimCapture
  try extract_lets
  repeat' first
    | with_reducible assumption
    | with_reducible apply skimOne_good
    | with_reducible apply Good.foldl
    | with_reducible apply Good.foldl1
    | with_reducible apply Good.foldl2
    | exact and_reserved (by decide)
    | exact reg_merge (by assumption) (by decide)
    | exact and_left_reserved (reg_reserved (by assumption) _)
    | with_reducible apply Good.ite
    | with_reducible apply Good.ite1
    | with_reducible apply Good.ite2
    | fail_if_no_progress (with_reducible apply Good.upd)
    | fail_if_no_progress (with_reducible refine Good.updTim ?_ rfl)
    | fail_if_no_progress (with_reducible refine Good.updTim0 ?_ rfl)
    | fail_if_no_progress (with_reducible refine Good.updRegs ?_ rfl rfl rfl rfl)
    | (intro _; try intros; try extract_lets)

theorem discardCapture_good {i : Nat} {s : State}
    (gs : Good pq s) : Good pq (discardCapture i s) := by
  unfold discardCapture
  try extract_lets
  repeat' first
    | with_reducible assumption
    | with_reducible apply count1_good
    | exact and_reserved (by decide)
    | exact reg_merge (by assumption) (by decide)
    | exact and_left_reserved (reg_reserved (by assumption) _)
    | with_reducible apply Good.ite
    | with_reducible apply Good.ite1
    | with_reducible apply Good.ite2
    | fail_if_no_progress (with_reducible apply Good.upd)

theorem drainCipher_good {i : Nat} {s : State}
    (gs : Good pq s) : Good pq (drainCipher i s) := by
  unfold drainCipher
  try extract_lets
  repeat' first
    | with_reducible assumption
    | with_reducible apply modStaged_good
    | with_reducible apply setReasm_good
    | with_reducible apply setChan_good
    | with_reducible apply Good.foldl
    | with_reducible apply Good.foldl1
    | with_reducible apply Good.foldl2
    | exact and_reserved (by decide)
    | exact reg_merge (by assumption) (by decide)
    | exact and_left_reserved (reg_reserved (by assumption) _)
    | with_reducible apply Good.ite
    | with_reducible apply Good.ite1
    | with_reducible apply Good.ite2
    | fail_if_no_progress (with_reducible apply Good.upd)
    | fail_if_no_progress (with_reducible refine Good.updTim ?_ rfl)
    | fail_if_no_progress (with_reducible refine Good.updTim0 ?_ rfl)
    | fail_if_no_progress (with_reducible refine Good.updRegs ?_ rfl rfl rfl rfl)
    | (intro _; try intros; try extract_lets)

theorem walkEntry_good {a : List RepEntry × State} {e : RepEntry}
    (gs : Good pq a.2) : Good pq (walkEntry a e).2 := by
  unfold walkEntry
  try extract_lets
  repeat' first
    | with_reducible assumption
    | with_reducible apply eraseToken_good
    | exact and_reserved (by decide)
    | exact reg_merge (by assumption) (by decide)
    | exact and_left_reserved (reg_reserved (by assumption) _)
    | with_reducible apply Good.ite
    | with_reducible apply Good.ite1
    | with_reducible apply Good.ite2
    | fail_if_no_progress (with_reducible apply Good.upd)
    | fail_if_no_progress (with_reducible refine Good.updTim ?_ rfl)
    | fail_if_no_progress (with_reducible refine Good.updTim0 ?_ rfl)
    | fail_if_no_progress (with_reducible refine Good.updRegs ?_ rfl rfl rfl rfl)
    | (intro _; try intros; try extract_lets)
    | split

theorem walkRecords_good {i : Nat} {s : State}
    (gs : Good pq s) : Good pq (walkRecords i s) := by
  unfold walkRecords
  try extract_lets
  repeat' first
    | with_reducible assumption
    | with_reducible apply walkEntry_good
    | with_reducible apply Good.foldl
    | with_reducible apply Good.foldl1
    | with_reducible apply Good.foldl2
    | exact and_reserved (by decide)
    | exact reg_merge (by assumption) (by decide)
    | exact and_left_reserved (reg_reserved (by assumption) _)
    | with_reducible apply Good.ite
    | with_reducible apply Good.ite1
    | with_reducible apply Good.ite2
    | fail_if_no_progress (with_reducible apply Good.upd)
    | fail_if_no_progress (with_reducible refine Good.updTim ?_ rfl)
    | fail_if_no_progress (with_reducible refine Good.updTim0 ?_ rfl)
    | fail_if_no_progress (with_reducible refine Good.updRegs ?_ rfl rfl rfl rfl)
    | (intro _; try intros; try extract_lets)

theorem takeRecords_good {k : Nat} {s : State}
    (gs : Good pq s) : Good pq (takeRecords k s).2 := by
  unfold takeRecords
  try extract_lets
  repeat' first
    | with_reducible assumption
    | with_reducible apply Good.foldl
    | with_reducible apply Good.foldl1
    | with_reducible apply Good.foldl2
    | exact and_reserved (by decide)
    | exact reg_merge (by assumption) (by decide)
    | exact and_left_reserved (reg_reserved (by assumption) _)
    | with_reducible apply Good.ite
    | with_reducible apply Good.ite1
    | with_reducible apply Good.ite2
    | fail_if_no_progress (with_reducible apply Good.upd)

theorem releaseEntries_good {es : List RepEntry} {s : State}
    (gs : Good pq s) : Good pq (releaseEntries es s) := by
  unfold releaseEntries
  try extract_lets
  repeat' first
    | with_reducible assumption
    | with_reducible apply release1_good
    | with_reducible apply Good.foldl
    | with_reducible apply Good.foldl1
    | with_reducible apply Good.foldl2
    | exact and_reserved (by decide)
    | exact reg_merge (by assumption) (by decide)
    | exact and_left_reserved (reg_reserved (by assumption) _)
    | with_reducible apply Good.ite
    | with_reducible apply Good.ite1
    | with_reducible apply Good.ite2
    | fail_if_no_progress (with_reducible apply Good.upd)
    | fail_if_no_progress (with_reducible refine Good.updTim ?_ rfl)
    | fail_if_no_progress (with_reducible refine Good.updTim0 ?_ rfl)
    | fail_if_no_progress (with_reducible refine Good.updRegs ?_ rfl rfl rfl rfl)
    | (intro _; try intros; try extract_lets)

theorem loseRecords_good {i : Nat} {s : State}
    (gs : Good pq s) : Good pq (loseRecords i s).2 := by
  unfold loseRecords
  try extract_lets
  repeat' first
    | with_reducible assumption
    | with_reducible apply takeRecords_good
    | with_reducible apply countN_good
    | with_reducible apply releaseEntries_good
    | with_reducible apply Good.foldl
    | with_reducible apply Good.foldl1
    | with_reducible apply Good.foldl2
    | exact and_reserved (by decide)
    | exact reg_merge (by assumption) (by decide)
    | exact and_left_reserved (reg_reserved (by assumption) _)
    | with_reducible apply Good.ite
    | with_reducible apply Good.ite1
    | with_reducible apply Good.ite2
    | fail_if_no_progress (with_reducible apply Good.upd)
    | fail_if_no_progress (with_reducible refine Good.updTim ?_ rfl)
    | fail_if_no_progress (with_reducible refine Good.updTim0 ?_ rfl)
    | fail_if_no_progress (with_reducible refine Good.updRegs ?_ rfl rfl rfl rfl)
    | (intro _; try intros; try extract_lets)

theorem dropHeld_good {i : Nat} {a : Arrive} {s : State}
    (gs : Good pq s) : Good pq (dropHeld i a s) := by
  unfold dropHeld
  try extract_lets
  repeat' first
    | with_reducible assumption
    | with_reducible apply sendDone_good
    | with_reducible apply count1_good

theorem impair_good {i : Nat} {s : State}
    (gs : Good pq s) : Good pq (impair i s) := by
  unfold impair
  try extract_lets
  repeat' first
    | with_reducible assumption
    | with_reducible apply dropHeld_good
    | with_reducible apply dropPipe_good
    | with_reducible apply loseRecords_good
    | with_reducible apply walkRecords_good
    | with_reducible apply modTre_good
    | with_reducible apply notice0_good
    | with_reducible apply fault_good
    | with_reducible apply Good.foldl
    | with_reducible apply Good.foldl1
    | with_reducible apply Good.foldl2
    | exact and_reserved (by decide)
    | exact reg_merge (by assumption) (by decide)
    | exact and_left_reserved (reg_reserved (by assumption) _)
    | with_reducible apply Good.ite
    | with_reducible apply Good.ite1
    | with_reducible apply Good.ite2
    | fail_if_no_progress (with_reducible apply Good.upd)
    | fail_if_no_progress (with_reducible refine Good.updTim ?_ rfl)
    | fail_if_no_progress (with_reducible refine Good.updTim0 ?_ rfl)
    | fail_if_no_progress (with_reducible refine Good.updRegs ?_ rfl rfl rfl rfl)
    | (intro _; try intros; try extract_lets)

theorem endRotation_good {s : State}
    (gs : Good pq s) : Good pq (endRotation s) := by
  unfold endRotation
  try extract_lets
  repeat' first
    | with_reducible assumption
    | exact and_reserved (by decide)
    | exact reg_merge (by assumption) (by decide)
    | exact and_left_reserved (reg_reserved (by assumption) _)
    | with_reducible apply Good.ite
    | with_reducible apply Good.ite1
    | with_reducible apply Good.ite2
    | fail_if_no_progress (with_reducible apply Good.upd)
    | fail_if_no_progress (with_reducible refine Good.updTim ?_ rfl)
    | fail_if_no_progress (with_reducible refine Good.updTim0 ?_ rfl)
    | fail_if_no_progress (with_reducible refine Good.updRegs ?_ rfl rfl rfl rfl)
    | (intro _; try intros; try extract_lets)
    | split

theorem startHandover_good {i j cause : Nat} {rehome : Bool} {s : State}
    (gs : Good pq s) : Good pq (startHandover i j cause rehome s) := by
  unfold startHandover
  try extract_lets
  repeat' first
    | with_reducible assumption
    | with_reducible apply dropPipe_good
    | exact and_reserved (by decide)
    | exact reg_merge (by assumption) (by decide)
    | exact and_left_reserved (reg_reserved (by assumption) _)
    | with_reducible apply Good.ite
    | with_reducible apply Good.ite1
    | with_reducible apply Good.ite2
    | fail_if_no_progress (with_reducible apply Good.upd)

theorem noTaker_good {i cause : Nat} {fell : List Nat} {s : State}
    (gs : Good pq s) : Good pq (noTaker i cause fell s) := by
  unfold noTaker
  try extract_lets
  repeat' first
    | with_reducible assumption
    | with_reducible apply startHandover_good
    | with_reducible apply impair_good
    | exact and_reserved (by decide)
    | exact reg_merge (by assumption) (by decide)
    | exact and_left_reserved (reg_reserved (by assumption) _)
    | with_reducible apply Good.ite
    | with_reducible apply Good.ite1
    | with_reducible apply Good.ite2
    | fail_if_no_progress (with_reducible apply Good.upd)
    | fail_if_no_progress (with_reducible refine Good.updTim ?_ rfl)
    | fail_if_no_progress (with_reducible refine Good.updTim0 ?_ rfl)
    | fail_if_no_progress (with_reducible refine Good.updRegs ?_ rfl rfl rfl rfl)
    | (intro _; try intros; try extract_lets)

theorem endReplay_good {i : Nat} {s : State}
    (gs : Good pq s) : Good pq (endReplay i s).2 := by
  unfold endReplay
  try extract_lets
  repeat' first
    | with_reducible assumption
    | exact and_reserved (by decide)
    | exact reg_merge (by assumption) (by decide)
    | exact and_left_reserved (reg_reserved (by assumption) _)
    | with_reducible apply Good.ite
    | with_reducible apply Good.ite1
    | with_reducible apply Good.ite2
    | fail_if_no_progress (with_reducible apply Good.upd)
    | fail_if_no_progress (with_reducible refine Good.updTim ?_ rfl)
    | fail_if_no_progress (with_reducible refine Good.updTim0 ?_ rfl)
    | fail_if_no_progress (with_reducible refine Good.updRegs ?_ rfl rfl rfl rfl)
    | (intro _; try intros; try extract_lets)
    | split

theorem takeOver_good {i cause : Nat} {s : State}
    (gs : Good pq s) : Good pq (takeOver i cause s) := by
  unfold takeOver
  try extract_lets
  repeat' first
    | with_reducible assumption
    | with_reducible apply endReplay_good
    | with_reducible apply noTaker_good
    | with_reducible apply startHandover_good
    | with_reducible apply setRole_good
    | with_reducible apply endRotation_good
    | exact and_reserved (by decide)
    | exact reg_merge (by assumption) (by decide)
    | exact and_left_reserved (reg_reserved (by assumption) _)
    | with_reducible apply Good.ite
    | with_reducible apply Good.ite1
    | with_reducible apply Good.ite2
    | fail_if_no_progress (with_reducible apply Good.upd)
    | fail_if_no_progress (with_reducible refine Good.updTim ?_ rfl)
    | fail_if_no_progress (with_reducible refine Good.updTim0 ?_ rfl)
    | fail_if_no_progress (with_reducible refine Good.updRegs ?_ rfl rfl rfl rfl)
    | (intro _; try intros; try extract_lets)
    | split

theorem sliceDown_good {i cause : Nat} {s : State} (gs : Good pq s) : Good pq (sliceDown i cause s) := by
  unfold sliceDown
  extract_lets fast s0 hosted s0a
  have g0 : Good pq s0 := Good.ite (fun _ => discardCapture_good gs) fun _ => gs
  have g0a : Good pq s0a := loopAbort_good g0
  exact setMode_good (takeOver_good (Good.foldl (drainCipher_good (setRole_good g0a)) fun s x h => discardSel_good h))

theorem waitsOld_good {t : Nat} {s : State}
    (gs : Good pq s) : Good pq (waitsOld t s) := by
  unfold waitsOld
  try extract_lets
  repeat' first
    | with_reducible assumption
    | with_reducible apply modTre_good

theorem loseWaiting_good {h : Handover} {s : State}
    (gs : Good pq s) : Good pq (loseWaiting h s) := by
  unfold loseWaiting
  try extract_lets
  repeat' first
    | with_reducible assumption
    | with_reducible apply dropHeld_good
    | with_reducible apply waitsOld_good
    | with_reducible apply Good.foldl
    | with_reducible apply Good.foldl1
    | with_reducible apply Good.foldl2
    | exact and_reserved (by decide)
    | exact reg_merge (by assumption) (by decide)
    | exact and_left_reserved (reg_reserved (by assumption) _)
    | with_reducible apply Good.ite
    | with_reducible apply Good.ite1
    | with_reducible apply Good.ite2
    | fail_if_no_progress (with_reducible apply Good.upd)
    | fail_if_no_progress (with_reducible refine Good.updTim ?_ rfl)
    | fail_if_no_progress (with_reducible refine Good.updTim0 ?_ rfl)
    | fail_if_no_progress (with_reducible refine Good.updRegs ?_ rfl rfl rfl rfl)
    | (intro _; try intros; try extract_lets)

theorem loadingDown_good {j cause : Nat} {s : State}
    (gs : Good pq s) : Good pq (loadingDown j cause s) := by
  unfold loadingDown
  try extract_lets
  repeat' first
    | with_reducible assumption
    | with_reducible apply setRole_good
    | with_reducible apply setMode_good
    | with_reducible apply loseWaiting_good
    | with_reducible apply impair_good
    | exact and_reserved (by decide)
    | exact reg_merge (by assumption) (by decide)
    | exact and_left_reserved (reg_reserved (by assumption) _)
    | with_reducible apply Good.ite
    | with_reducible apply Good.ite1
    | with_reducible apply Good.ite2
    | fail_if_no_progress (with_reducible apply Good.upd)
    | fail_if_no_progress (with_reducible refine Good.updTim ?_ rfl)
    | fail_if_no_progress (with_reducible refine Good.updTim0 ?_ rfl)
    | fail_if_no_progress (with_reducible refine Good.updRegs ?_ rfl rfl rfl rfl)
    | (intro _; try intros; try extract_lets)
    | split

theorem sliceReact_good {i cause : Nat} {s : State}
    (gs : Good pq s) : Good pq (sliceReact i cause s) := by
  unfold sliceReact
  try extract_lets
  repeat' first
    | with_reducible assumption
    | with_reducible apply sliceDown_good
    | with_reducible apply loadingDown_good
    | with_reducible apply setMode_good
    | with_reducible apply notice0_good
    | with_reducible apply setRole_good
    | with_reducible apply endRotation_good
    | exact and_reserved (by decide)
    | exact reg_merge (by assumption) (by decide)
    | exact and_left_reserved (reg_reserved (by assumption) _)
    | with_reducible apply Good.ite
    | with_reducible apply Good.ite1
    | with_reducible apply Good.ite2
    | fail_if_no_progress (with_reducible apply Good.upd)
    | fail_if_no_progress (with_reducible refine Good.updTim ?_ rfl)
    | fail_if_no_progress (with_reducible refine Good.updTim0 ?_ rfl)
    | fail_if_no_progress (with_reducible refine Good.updRegs ?_ rfl rfl rfl rfl)
    | (intro _; try intros; try extract_lets)
    | split

theorem declareAt_good {i cause acc : Nat} {cap0 : Word} {s : State}
    (gs : Good pq s) : Good pq (declareAt i cause acc cap0 s) := by
  unfold declareAt
  try extract_lets
  repeat' first
    | with_reducible assumption
    | with_reducible apply sliceReact_good
    | with_reducible apply fault_good

theorem declareFault_good {i cause acc : Nat} {s : State}
    (gs : Good pq s) : Good pq (declareFault i cause acc s) := by
  unfold declareFault
  try extract_lets
  repeat' first
    | with_reducible assumption
    | with_reducible apply useFree_good
    | with_reducible apply declareAt_good

theorem modPdom_good {d : Nat} {f : PDom → PDom} {s : State}
    (gs : Good pq s) : Good pq (modPdom d f s) := by
  unfold modPdom
  try extract_lets
  repeat' first
    | with_reducible assumption
    | with_reducible apply setPdom_good

theorem askUnits_good {d : Nat} {on : Bool} {s : State}
    (gs : Good pq s) : Good pq (askUnits d on s) := by
  unfold askUnits
  try extract_lets
  repeat' first
    | with_reducible assumption
    | with_reducible apply modChn_good
    | with_reducible apply setGrp_good
    | exact and_reserved (by decide)
    | exact reg_merge (by assumption) (by decide)
    | exact and_left_reserved (reg_reserved (by assumption) _)
    | with_reducible apply Good.ite
    | with_reducible apply Good.ite1
    | with_reducible apply Good.ite2
    | fail_if_no_progress (with_reducible apply Good.upd)
    | fail_if_no_progress (with_reducible refine Good.updTim ?_ rfl)
    | fail_if_no_progress (with_reducible refine Good.updTim0 ?_ rfl)
    | fail_if_no_progress (with_reducible refine Good.updRegs ?_ rfl rfl rfl rfl)
    | (intro _; try intros; try extract_lets)
    | split

theorem endReq_good {d res cause : Nat} {s : State}
    (gs : Good pq s) : Good pq (endReq d res cause s) := by
  unfold endReq
  try extract_lets
  repeat' first
    | with_reducible assumption
    | with_reducible apply modPdom_good

theorem doneNote_good {d : Nat} {s : State}
    (gs : Good pq s) : Good pq (doneNote d s) := by
  unfold doneNote
  try extract_lets
  repeat' first
    | with_reducible assumption
    | with_reducible apply notice0_good

theorem reqDone_good {d : Nat} {s : State}
    (gs : Good pq s) : Good pq (reqDone d s) := by
  unfold reqDone
  try extract_lets
  repeat' first
    | with_reducible assumption
    | with_reducible apply doneNote_good
    | with_reducible apply endReq_good

theorem reqRefused_good {d tgt cause : Nat} {s : State}
    (gs : Good pq s) : Good pq (reqRefused d tgt cause s) := by
  unfold reqRefused
  try extract_lets
  repeat' first
    | with_reducible assumption
    | with_reducible apply notice0_good
    | with_reducible apply countO_good

theorem startReq_good {d tgt at_ : Nat} {s : State}
    (gs : Good pq s) : Good pq (startReq d tgt at_ s) := by
  unfold startReq
  try extract_lets
  repeat' first
    | with_reducible assumption
    | with_reducible apply doneNote_good
    | with_reducible apply setPdom_good
    | with_reducible apply reqRefused_good
    | with_reducible apply askUnits_good
    | with_reducible apply wake_good
    | exact and_reserved (by decide)
    | exact reg_merge (by assumption) (by decide)
    | exact and_left_reserved (reg_reserved (by assumption) _)
    | with_reducible apply Good.ite
    | with_reducible apply Good.ite1
    | with_reducible apply Good.ite2
    | fail_if_no_progress (with_reducible apply Good.upd)
    | fail_if_no_progress (with_reducible refine Good.updTim ?_ rfl)
    | fail_if_no_progress (with_reducible refine Good.updTim0 ?_ rfl)
    | fail_if_no_progress (with_reducible refine Good.updRegs ?_ rfl rfl rfl rfl)
    | (intro _; try intros; try extract_lets)

theorem nextReq_good {d : Nat} {s : State}
    (gs : Good pq s) : Good pq (nextReq d s) := by
  unfold nextReq
  try extract_lets
  repeat' first
    | with_reducible assumption
    | with_reducible apply startReq_good
    | with_reducible apply modPdom_good
    | exact and_reserved (by decide)
    | exact reg_merge (by assumption) (by decide)
    | exact and_left_reserved (reg_reserved (by assumption) _)
    | with_reducible apply Good.ite
    | with_reducible apply Good.ite1
    | with_reducible apply Good.ite2
    | fail_if_no_progress (with_reducible apply Good.upd)
    | fail_if_no_progress (with_reducible refine Good.updTim ?_ rfl)
    | fail_if_no_progress (with_reducible refine Good.updTim0 ?_ rfl)
    | fail_if_no_progress (with_reducible refine Good.updRegs ?_ rfl rfl rfl rfl)
    | (intro _; try intros; try extract_lets)
    | split

theorem wakeRecord_good {d src out : Nat} {s : State}
    (gs : Good pq s) : Good pq (wakeRecord d src out s) := by
  unfold wakeRecord
  try extract_lets
  repeat' first
    | with_reducible assumption
    | with_reducible apply modPdom_good
    | exact and_reserved (by decide)
    | exact reg_merge (by assumption) (by decide)
    | exact and_left_reserved (reg_reserved (by assumption) _)
    | with_reducible apply Good.ite
    | with_reducible apply Good.ite1
    | with_reducible apply Good.ite2
    | fail_if_no_progress (with_reducible apply Good.upd)

theorem beginTest_good {i : Nat} {s : State}
    (gs : Good pq s) : Good pq (beginTest i s) := by
  unfold beginTest
  try extract_lets
  repeat' first
    | with_reducible assumption
    | with_reducible apply setRole_good
    | with_reducible apply wake_good
    | exact and_reserved (by decide)
    | exact reg_merge (by assumption) (by decide)
    | exact and_left_reserved (reg_reserved (by assumption) _)
    | with_reducible apply Good.ite
    | with_reducible apply Good.ite1
    | with_reducible apply Good.ite2
    | fail_if_no_progress (with_reducible apply Good.upd)
    | fail_if_no_progress (with_reducible refine Good.updTim ?_ rfl)
    | fail_if_no_progress (with_reducible refine Good.updTim0 ?_ rfl)
    | fail_if_no_progress (with_reducible refine Good.updRegs ?_ rfl rfl rfl rfl)
    | (intro _; try intros; try extract_lets)

theorem domLeaves_good {d : Nat} {s : State}
    (gs : Good pq s) : Good pq (domLeaves d s) := by
  unfold domLeaves
  try extract_lets
  repeat' first
    | with_reducible assumption
    | with_reducible apply laneStop_good
    | with_reducible apply loopAbort_good
    | exact and_reserved (by decide)
    | exact reg_merge (by assumption) (by decide)
    | exact and_left_reserved (reg_reserved (by assumption) _)
    | with_reducible apply Good.ite
    | with_reducible apply Good.ite1
    | with_reducible apply Good.ite2
    | fail_if_no_progress (with_reducible apply Good.upd)
    | fail_if_no_progress (with_reducible refine Good.updTim ?_ rfl)
    | fail_if_no_progress (with_reducible refine Good.updTim0 ?_ rfl)
    | fail_if_no_progress (with_reducible refine Good.updRegs ?_ rfl rfl rfl rfl)
    | (intro _; try intros; try extract_lets)

theorem domBack_good {d : Nat} {s : State}
    (gs : Good pq s) : Good pq (domBack d s) := by
  unfold domBack
  try extract_lets
  repeat' first
    | with_reducible assumption
    | with_reducible apply laneStart_good
    | with_reducible apply setRole_good
    | exact and_reserved (by decide)
    | exact reg_merge (by assumption) (by decide)
    | exact and_left_reserved (reg_reserved (by assumption) _)
    | with_reducible apply Good.ite
    | with_reducible apply Good.ite1
    | with_reducible apply Good.ite2
    | fail_if_no_progress (with_reducible apply Good.upd)
    | fail_if_no_progress (with_reducible refine Good.updTim ?_ rfl)
    | fail_if_no_progress (with_reducible refine Good.updTim0 ?_ rfl)
    | fail_if_no_progress (with_reducible refine Good.updRegs ?_ rfl rfl rfl rfl)
    | (intro _; try intros; try extract_lets)

theorem undone_good {d : Nat} {s : State}
    (gs : Good pq s) : Good pq (undone d s) := by
  unfold undone
  try extract_lets
  repeat' first
    | with_reducible assumption
    | with_reducible apply modPdom_good
    | with_reducible apply wake_good
    | with_reducible apply domBack_good
    | with_reducible apply askUnits_good
    | with_reducible apply endReq_good
    | with_reducible apply nextReq_good
    | with_reducible apply notice0_good
    | with_reducible apply wakeRecord_good
    | with_reducible apply countO_good
    | exact and_reserved (by decide)
    | exact reg_merge (by assumption) (by decide)
    | exact and_left_reserved (reg_reserved (by assumption) _)
    | with_reducible apply Good.ite
    | with_reducible apply Good.ite1
    | with_reducible apply Good.ite2
    | fail_if_no_progress (with_reducible apply Good.upd)
    | fail_if_no_progress (with_reducible refine Good.updTim ?_ rfl)
    | fail_if_no_progress (with_reducible refine Good.updTim0 ?_ rfl)
    | fail_if_no_progress (with_reducible refine Good.updRegs ?_ rfl rfl rfl rfl)
    | (intro _; try intros; try extract_lets)

theorem dropQueues_good {p : Nat} {s : State}
    (gs : Good pq s) : Good pq (dropQueues p s) := by
  unfold dropQueues
  try extract_lets
  repeat' first
    | with_reducible assumption
    | with_reducible apply release1_good
    | with_reducible apply addChg_good
    | with_reducible apply objAdd_good
    | with_reducible apply count1_good
    | with_reducible apply setQueue_good
    | with_reducible apply Good.foldl
    | with_reducible apply Good.foldl1
    | with_reducible apply Good.foldl2
    | exact and_reserved (by decide)
    | exact reg_merge (by assumption) (by decide)
    | exact and_left_reserved (reg_reserved (by assumption) _)
    | with_reducible apply Good.ite
    | with_reducible apply Good.ite1
    | with_reducible apply Good.ite2
    | fail_if_no_progress (with_reducible apply Good.upd)
    | fail_if_no_progress (with_reducible refine Good.updTim ?_ rfl)
    | fail_if_no_progress (with_reducible refine Good.updTim0 ?_ rfl)
    | fail_if_no_progress (with_reducible refine Good.updRegs ?_ rfl rfl rfl rfl)
    | (intro _; try intros; try extract_lets)

theorem portDown_good {p : Nat} {s : State}
    (gs : Good pq s) : Good pq (portDown p s) := by
  unfold portDown
  try extract_lets
  repeat' first
    | with_reducible assumption
    | with_reducible apply dropQueues_good
    | with_reducible apply modUpl_good

theorem fenceTree_good {t : Nat} {s : State}
    (gs : Good pq s) : Good pq (fenceTree t s) := by
  unfold fenceTree
  try extract_lets
  repeat' first
    | with_reducible assumption
    | with_reducible apply modTre_good

theorem fencePort_good {p : Nat} {s : State}
    (gs : Good pq s) : Good pq (fencePort p s) := by
  unfold fencePort
  try extract_lets
  repeat' first
    | with_reducible assumption
    | with_reducible apply portDown_good
    | with_reducible apply modUpl_good

theorem forcedReaction_good {i b : Nat} {s : State}
    (gs : Good pq s) : Good pq (forcedReaction i b s) := by
  unfold forcedReaction
  try extract_lets
  repeat' first
    | with_reducible assumption
    | with_reducible apply sliceReact_good
    | with_reducible apply declareFault_good
    | with_reducible apply fenceTree_good
    | with_reducible apply fencePort_good
    | exact and_reserved (by decide)
    | exact reg_merge (by assumption) (by decide)
    | exact and_left_reserved (reg_reserved (by assumption) _)
    | with_reducible apply Good.ite
    | with_reducible apply Good.ite1
    | with_reducible apply Good.ite2
    | fail_if_no_progress (with_reducible apply Good.upd)
    | fail_if_no_progress (with_reducible refine Good.updTim ?_ rfl)
    | fail_if_no_progress (with_reducible refine Good.updTim0 ?_ rfl)
    | fail_if_no_progress (with_reducible refine Good.updRegs ?_ rfl rfl rfl rfl)
    | (intro _; try intros; try extract_lets)

theorem forceRun_good {i : Nat} {data : Word} {s : State}
    (gs : Good pq s) : Good pq (forceRun i data s) := by
  unfold forceRun
  try extract_lets
  repeat' first
    | with_reducible assumption
    | with_reducible apply forcedReaction_good
    | with_reducible apply raise_good
    | with_reducible apply Good.foldl
    | with_reducible apply Good.foldl1
    | with_reducible apply Good.foldl2
    | exact and_reserved (by decide)
    | exact reg_merge (by assumption) (by decide)
    | exact and_left_reserved (reg_reserved (by assumption) _)
    | with_reducible apply Good.ite
    | with_reducible apply Good.ite1
    | with_reducible apply Good.ite2
    | fail_if_no_progress (with_reducible apply Good.upd)
    | fail_if_no_progress (with_reducible refine Good.updTim ?_ rfl)
    | fail_if_no_progress (with_reducible refine Good.updTim0 ?_ rfl)
    | fail_if_no_progress (with_reducible refine Good.updRegs ?_ rfl rfl rfl rfl)
    | (intro _; try intros; try extract_lets)

end Sys2Proof.Machine
end

