-- ==== Sys2Proof/Laws/GoodClock.lean ====
section
/-!
SUPPORT. What each operation of Machine/Clock.lean keeps (Laws/Good.lean).
-/

namespace Sys2Proof.Machine

-- one declaration at a time: the package is compiled as one text within a limit of memory
set_option Elab.async false

variable {pq : Ghost}

theorem takeTurn_good {x : Turn} {s : State}
    (gs : Good pq s) : Good pq (takeTurn x s) := by
  unfold takeTurn
  try extract_lets
  repeat' first
    | with_reducible assumption
    | with_reducible apply bell_good
    | with_reducible apply bellTurn_good
    | with_reducible apply issueNow_good
    | with_reducible apply stageRun_good
    | with_reducible apply cpqPump_good
    | with_reducible apply emit_good
    | with_reducible apply faultTold_good
    | with_reducible apply forceRun_good
    | with_reducible apply pinOff_good
    | with_reducible apply undone_good
    | with_reducible apply spillRun_good
    | with_reducible apply pumpFetches_good
    | with_reducible apply ingress_good
    | with_reducible apply lookAt_good
    | with_reducible apply classify_good
    | with_reducible apply classifyAt_good
    | with_reducible apply admitAt_good
    | with_reducible apply meterCharge_good
    | with_reducible apply verdictAt_good
    | with_reducible apply wasteLanes_good
    | with_reducible apply completeAs_good
    | exact and_reserved (by decide)
    | exact reg_merge (by assumption) (by decide)
    | exact and_left_reserved (reg_reserved (by assumption) _)
    | with_reducible apply Good.ite
    | with_reducible apply Good.ite1
    | with_reducible apply Good.ite2
    | fail_if_no_progress (with_reducible apply Good.upd)
    | fail_if_no_progress (with_reducible refine Good.updTim ?_ rfl)
    | fail_if_no_progress (with_reducible refine Good.updTim0 ?_ rfl)
    | fail_if_no_progress (with_reducible refine Good.updRegs ?_ rfl rfl rfl rfl)
    | (intro _; try intros; try extract_lets)
    | split

theorem eachTree_good {f : Nat → State → State} {s : State}
    (gs : Good pq s) (kf : ∀ i s, Good pq s → Good pq (f i s)) : Good pq (eachTree f s) := by
  unfold eachTree
  try extract_lets
  repeat' first
    | with_reducible assumption
    | with_reducible apply kf
    | with_reducible apply Good.foldl
    | with_reducible apply Good.foldl1
    | with_reducible apply Good.foldl2
    | exact and_reserved (by decide)
    | exact reg_merge (by assumption) (by decide)
    | exact and_left_reserved (reg_reserved (by assumption) _)
    | with_reducible apply Good.ite
    | with_reducible apply Good.ite1
    | with_reducible apply Good.ite2
    | fail_if_no_progress (with_reducible apply Good.upd)
    | fail_if_no_progress (with_reducible refine Good.updTim ?_ rfl)
    | fail_if_no_progress (with_reducible refine Good.updTim0 ?_ rfl)
    | fail_if_no_progress (with_reducible refine Good.updRegs ?_ rfl rfl rfl rfl)
    | (intro _; try intros; try extract_lets)

theorem endZero_good {s : State}
    (gs : Good pq s) : Good pq (endZero s) := by
  unfold endZero
  try extract_lets
  repeat' first
    | with_reducible assumption
    | with_reducible apply selectAll_good
    | with_reducible apply eachTree_good
    | with_reducible apply assemble_good
    | with_reducible apply deepLates_good
    | with_reducible apply cutoffActs_good
    | exact and_reserved (by decide)
    | exact reg_merge (by assumption) (by decide)
    | exact and_left_reserved (reg_reserved (by assumption) _)
    | with_reducible apply Good.ite
    | with_reducible apply Good.ite1
    | with_reducible apply Good.ite2
    | fail_if_no_progress (with_reducible apply Good.upd)
    | fail_if_no_progress (with_reducible refine Good.updTim ?_ rfl)
    | fail_if_no_progress (with_reducible refine Good.updTim0 ?_ rfl)
    | fail_if_no_progress (with_reducible refine Good.updRegs ?_ rfl rfl rfl rfl)
    | (intro _; try intros; try extract_lets)

theorem moveClk_good {c fuel : Nat} {s : State} (gs : Good pq s) : Good pq (moveClk c fuel s) := by
  induction fuel generalizing s with
  | zero => exact advanceClk_good gs
  | succ fuel ih =>
    rw [moveClk]
    split
    · exact advanceClk_good gs
    · exact ih (takeTurn_good (advanceClk_good (Good.upd gs)))

theorem lapse_good {n : Nat} {s : State}
    (gs : Good pq s) : Good pq (lapse n s) := by
  unfold lapse
  try extract_lets
  repeat' first
    | with_reducible assumption
    | with_reducible apply endZero_good
    | with_reducible apply moveClk_good
    | exact and_reserved (by decide)
    | exact reg_merge (by assumption) (by decide)
    | exact and_left_reserved (reg_reserved (by assumption) _)
    | with_reducible apply Good.ite
    | with_reducible apply Good.ite1
    | with_reducible apply Good.ite2
    | fail_if_no_progress (with_reducible apply Good.upd)
    | fail_if_no_progress (with_reducible refine Good.updTim ?_ rfl)
    | fail_if_no_progress (with_reducible refine Good.updTim0 ?_ rfl)
    | fail_if_no_progress (with_reducible refine Good.updRegs ?_ rfl rfl rfl rfl)
    | (intro _; try intros; try extract_lets)

theorem syncTo_good {c : Nat} {s : State}
    (gs : Good pq s) : Good pq (syncTo c s) := by
  unfold syncTo
  try extract_lets
  repeat' first
    | with_reducible assumption
    | with_reducible apply lapse_good
    | exact and_reserved (by decide)
    | exact reg_merge (by assumption) (by decide)
    | exact and_left_reserved (reg_reserved (by assumption) _)
    | with_reducible apply Good.ite
    | with_reducible apply Good.ite1
    | with_reducible apply Good.ite2
    | fail_if_no_progress (with_reducible apply Good.upd)
    | fail_if_no_progress (with_reducible refine Good.updTim ?_ rfl)
    | fail_if_no_progress (with_reducible refine Good.updTim0 ?_ rfl)
    | fail_if_no_progress (with_reducible refine Good.updRegs ?_ rfl rfl rfl rfl)
    | (intro _; try intros; try extract_lets)

theorem toBoundary_good {n : Nat} {s : State}
    (gs : Good pq s) : Good pq (toBoundary n s) := by
  unfold toBoundary
  try extract_lets
  repeat' first
    | with_reducible assumption
    | with_reducible apply advanceClk_good
    | with_reducible apply endZero_good
    | with_reducible apply lapse_good
    | exact and_reserved (by decide)
    | exact reg_merge (by assumption) (by decide)
    | exact and_left_reserved (reg_reserved (by assumption) _)
    | with_reducible apply Good.ite
    | with_reducible apply Good.ite1
    | with_reducible apply Good.ite2
    | fail_if_no_progress (with_reducible apply Good.upd)
    | fail_if_no_progress (with_reducible refine Good.updTim ?_ rfl)
    | fail_if_no_progress (with_reducible refine Good.updTim0 ?_ rfl)
    | fail_if_no_progress (with_reducible refine Good.updRegs ?_ rfl rfl rfl rfl)
    | (intro _; try intros; try extract_lets)

theorem afterBoundary_good {s : State}
    (gs : Good pq s) : Good pq (afterBoundary s) := by
  unfold afterBoundary
  try extract_lets
  repeat' first
    | with_reducible assumption
    | with_reducible apply moveClk_good

theorem waitUntil_good {c : Nat} {s : State}
    (gs : Good pq s) : Good pq (waitUntil c s) := by
  unfold waitUntil
  try extract_lets
  repeat' first
    | with_reducible assumption
    | with_reducible apply lapse_good
    | exact and_reserved (by decide)
    | exact reg_merge (by assumption) (by decide)
    | exact and_left_reserved (reg_reserved (by assumption) _)
    | with_reducible apply Good.ite
    | with_reducible apply Good.ite1
    | with_reducible apply Good.ite2
    | fail_if_no_progress (with_reducible apply Good.upd)
    | fail_if_no_progress (with_reducible refine Good.updTim ?_ rfl)
    | fail_if_no_progress (with_reducible refine Good.updTim0 ?_ rfl)
    | fail_if_no_progress (with_reducible refine Good.updRegs ?_ rfl rfl rfl rfl)
    | (intro _; try intros; try extract_lets)
    | split

theorem reportCutoff_good {s : State}
    (gs : Good pq s) : Good pq (reportCutoff s) := by
  unfold reportCutoff
  try extract_lets
  repeat' first
    | with_reducible assumption
    | with_reducible apply endZero_good
    | exact and_reserved (by decide)
    | exact reg_merge (by assumption) (by decide)
    | exact and_left_reserved (reg_reserved (by assumption) _)
    | with_reducible apply Good.ite
    | with_reducible apply Good.ite1
    | with_reducible apply Good.ite2
    | fail_if_no_progress (with_reducible apply Good.upd)
    | fail_if_no_progress (with_reducible refine Good.updTim ?_ rfl)
    | fail_if_no_progress (with_reducible refine Good.updTim0 ?_ rfl)
    | fail_if_no_progress (with_reducible refine Good.updRegs ?_ rfl rfl rfl rfl)
    | (intro _; try intros; try extract_lets)

theorem settleRate_good {s : State}
    (gs : Good pq s) : Good pq (settleRate s) := by
  unfold settleRate
  try extract_lets
  repeat' first
    | with_reducible assumption
    | with_reducible refine oldRate_good ?_ (by assumption)
    | with_reducible apply waitUntil_good
    | exact and_reserved (by decide)
    | exact reg_merge (by assumption) (by decide)
    | exact and_left_reserved (reg_reserved (by assumption) _)
    | with_reducible apply Good.ite
    | with_reducible apply Good.ite1
    | with_reducible apply Good.ite2
    | fail_if_no_progress (with_reducible apply Good.upd)
    | fail_if_no_progress (with_reducible refine Good.updTim ?_ rfl)
    | fail_if_no_progress (with_reducible refine Good.updTim0 ?_ rfl)
    | fail_if_no_progress (with_reducible refine Good.updRegs ?_ rfl rfl rfl rfl)
    | (intro _; try intros; try extract_lets)

theorem slewEnd_good {s : State}
    (gs : Good pq s) : Good pq (slewEnd s) := by
  unfold slewEnd
  try extract_lets
  repeat' first
    | with_reducible assumption
    | with_reducible apply settleRate_good
    | with_reducible apply lapse_good
    | exact and_reserved (by decide)
    | exact reg_merge (by assumption) (by decide)
    | exact and_left_reserved (reg_reserved (by assumption) _)
    | with_reducible apply Good.ite
    | with_reducible apply Good.ite1
    | with_reducible apply Good.ite2
    | fail_if_no_progress (with_reducible apply Good.upd)
    | fail_if_no_progress (with_reducible refine Good.updTim ?_ rfl)
    | fail_if_no_progress (with_reducible refine Good.updTim0 ?_ rfl)
    | fail_if_no_progress (with_reducible refine Good.updRegs ?_ rfl rfl rfl rfl)
    | (intro _; try intros; try extract_lets)

theorem timeProjection_good {s : State}
    (gs : Good pq s) : Good pq (timeProjection s) := by
  unfold timeProjection
  try extract_lets
  repeat' first
    | with_reducible assumption
    | with_reducible apply syncTo_good
    | with_reducible apply viewAt_good
    | exact and_reserved (by decide)
    | exact reg_merge (by assumption) (by decide)
    | exact and_left_reserved (reg_reserved (by assumption) _)
    | with_reducible apply Good.ite
    | with_reducible apply Good.ite1
    | with_reducible apply Good.ite2
    | fail_if_no_progress (with_reducible apply Good.upd)
    | fail_if_no_progress (with_reducible refine Good.updTim ?_ rfl)
    | fail_if_no_progress (with_reducible refine Good.updTim0 ?_ rfl)
    | fail_if_no_progress (with_reducible refine Good.updRegs ?_ rfl rfl rfl rfl)
    | (intro _; try intros; try extract_lets)

end Sys2Proof.Machine
end

