-- ==== Sys2Proof/Laws/GoodPasses.lean ====
section
/-!
SUPPORT. What each operation of Machine/Passes.lean keeps (Laws/Good.lean).
-/

namespace Sys2Proof.Machine

-- one declaration at a time: the package is compiled as one text within a limit of memory
set_option Elab.async false

variable {pq : Ghost}

theorem onView_good {m : Nat} {f : State → State} {s : State}
    (gs : Good pq s) (kf : ∀ s, Good pq s → Good pq (f s)) : Good pq (onView m f s) :=
  have g : Good pq (f (viewAt m s)) := kf _ (viewAt_good gs)
  ⟨g.pending, gs.regs, g.beat, g.clk⟩

theorem onSnap_good {t : Nat} {p : PassSnap} {f : State → State} {s : State}
    (gs : Good pq s) (kf : ∀ s, Good pq s → Good pq (f s)) : Good pq (onSnap t p f s) := by
  unfold onSnap
  try extract_lets
  repeat' first
    | with_reducible assumption
    | with_reducible apply modTre_good
    | with_reducible apply modChn_good
    | with_reducible apply discNow_good
    | with_reducible apply kf

theorem churnPass1_good {t : Nat} {s : State}
    (gs : Good pq s) : Good pq (churnPass1 t s) := by
  unfold churnPass1
  try extract_lets
  repeat' first
    | with_reducible assumption
    | with_reducible apply modChn_good
    | with_reducible apply syncTo_good
    | with_reducible apply onView_good
    | with_reducible apply pass1_good
    | exact and_reserved (by decide)
    | exact reg_merge (by assumption) (by decide)
    | exact and_left_reserved (reg_reserved (by assumption) _)
    | with_reducible apply Good.ite
    | with_reducible apply Good.ite1
    | with_reducible apply Good.ite2
    | fail_if_no_progress (with_reducible apply Good.upd)
    | fail_if_no_progress (with_reducible refine Good.updTim ?_ rfl)
    | fail_if_no_progress (with_reducible refine Good.updTim0 ?_ rfl)
    | fail_if_no_progress (with_reducible refine Good.updRegs ?_ rfl rfl rfl rfl)
    | (intro _; try intros; try extract_lets)

theorem churnPass2_good {t : Nat} {s : State}
    (gs : Good pq s) : Good pq (churnPass2 t s) := by
  unfold churnPass2
  try extract_lets
  repeat' first
    | with_reducible assumption
    | with_reducible apply modChn_good
    | with_reducible apply syncTo_good
    | with_reducible apply onView_good
    | with_reducible apply pass2_good
    | exact and_reserved (by decide)
    | exact reg_merge (by assumption) (by decide)
    | exact and_left_reserved (reg_reserved (by assumption) _)
    | with_reducible apply Good.ite
    | with_reducible apply Good.ite1
    | with_reducible apply Good.ite2
    | fail_if_no_progress (with_reducible apply Good.upd)
    | fail_if_no_progress (with_reducible refine Good.updTim ?_ rfl)
    | fail_if_no_progress (with_reducible refine Good.updTim0 ?_ rfl)
    | fail_if_no_progress (with_reducible refine Good.updRegs ?_ rfl rfl rfl rfl)
    | (intro _; try intros; try extract_lets)
    | split

theorem passLate_good {t : Nat} {s : State}
    (gs : Good pq s) : Good pq (passLate t s) := by
  unfold passLate
  try extract_lets
  repeat' first
    | with_reducible assumption
    | with_reducible apply syncTo_good
    | with_reducible apply fault_good
    | with_reducible apply modChn_good
    | exact and_reserved (by decide)
    | exact reg_merge (by assumption) (by decide)
    | exact and_left_reserved (reg_reserved (by assumption) _)
    | with_reducible apply Good.ite
    | with_reducible apply Good.ite1
    | with_reducible apply Good.ite2
    | fail_if_no_progress (with_reducible apply Good.upd)
    | fail_if_no_progress (with_reducible refine Good.updTim ?_ rfl)
    | fail_if_no_progress (with_reducible refine Good.updTim0 ?_ rfl)
    | fail_if_no_progress (with_reducible refine Good.updRegs ?_ rfl rfl rfl rfl)
    | (intro _; try intros; try extract_lets)

theorem mapCountReset_good {t : Nat} {s : State}
    (gs : Good pq s) : Good pq (mapCountReset t s) := by
  unfold mapCountReset
  try extract_lets
  repeat' first
    | with_reducible assumption
    | with_reducible apply mapCountZero_good
    | with_reducible apply syncTo_good
    | exact and_reserved (by decide)
    | exact reg_merge (by assumption) (by decide)
    | exact and_left_reserved (reg_reserved (by assumption) _)
    | with_reducible apply Good.ite
    | with_reducible apply Good.ite1
    | with_reducible apply Good.ite2
    | fail_if_no_progress (with_reducible apply Good.upd)
    | fail_if_no_progress (with_reducible refine Good.updTim ?_ rfl)
    | fail_if_no_progress (with_reducible refine Good.updTim0 ?_ rfl)
    | fail_if_no_progress (with_reducible refine Good.updRegs ?_ rfl rfl rfl rfl)
    | (intro _; try intros; try extract_lets)

theorem recordIssue_good {k : RingKind} {n : Nat} {s : State}
    (gs : Good pq s) : Good pq (recordIssue k n s) := by
  unfold recordIssue
  try extract_lets
  repeat' first
    | with_reducible assumption
    | with_reducible apply issueNow_good
    | with_reducible apply waitUntil_good
    | exact and_reserved (by decide)
    | exact reg_merge (by assumption) (by decide)
    | exact and_left_reserved (reg_reserved (by assumption) _)
    | with_reducible apply Good.ite
    | with_reducible apply Good.ite1
    | with_reducible apply Good.ite2
    | fail_if_no_progress (with_reducible apply Good.upd)
    | fail_if_no_progress (with_reducible refine Good.updTim ?_ rfl)
    | fail_if_no_progress (with_reducible refine Good.updTim0 ?_ rfl)
    | fail_if_no_progress (with_reducible refine Good.updRegs ?_ rfl rfl rfl rfl)
    | (intro _; try intros; try extract_lets)
    | split

theorem fillArriving_good {n : Nat} {t : Token} {f : Frame} {s : State}
    (gs : Good pq s) : Good pq (fillArriving n t f s) := by
  unfold fillArriving
  try extract_lets
  repeat' first
    | with_reducible assumption
    | with_reducible apply fillStarve_good
    | with_reducible apply waitUntil_good
    | with_reducible apply scrapWrites_good
    | with_reducible apply fillFrame_good
    | exact and_reserved (by decide)
    | exact reg_merge (by assumption) (by decide)
    | exact and_left_reserved (reg_reserved (by assumption) _)
    | with_reducible apply Good.ite
    | with_reducible apply Good.ite1
    | with_reducible apply Good.ite2
    | fail_if_no_progress (with_reducible apply Good.upd)
    | fail_if_no_progress (with_reducible refine Good.updTim ?_ rfl)
    | fail_if_no_progress (with_reducible refine Good.updTim0 ?_ rfl)
    | fail_if_no_progress (with_reducible refine Good.updRegs ?_ rfl rfl rfl rfl)
    | (intro _; try intros; try extract_lets)
    | split

theorem fillDeliver_good {n : Nat} {s : State} (gs : Good pq s) : Good pq (fillDeliver n s) := by
  unfold fillDeliver
  extract_lets r q
  refine Good.ite (fun _ => gs) fun _ => ?_
  cases queueOf s q with
  | nil => exact gs
  | cons t l =>
    dsimp -zeta only
    cases frameOf s t.frame with
    | none => exact popHead_good gs
    | some f =>
      exact Good.ite (fun _ => fillDrop_good gs) fun _ => Good.ite (fun _ => wakeGroups_good gs) fun _ =>
        Good.ite (fun _ => fillArriving_good gs) fun _ => fillFrame_good gs

theorem cipherResponse_good {c : Nat} {seq : Byte} {st : CpqSt} {data : List Byte} {ue : Option Word} {s : State}
    (gs : Good pq s) : Good pq (cipherResponse c seq st data ue s) := by
  unfold cipherResponse
  extract_lets ch s1
  have g1 : Good pq s1 := by
    dsimp only [s1]
    split
    · split
      · exact gs
      · exact waitUntil_good gs
    · exact gs
  exact cpqResponse_good g1

theorem cipherLost_good {c : Nat} {seq : Byte} {s : State}
    (gs : Good pq s) : Good pq (cipherLost c seq s) := by
  unfold cipherLost
  try extract_lets
  repeat' first
    | with_reducible assumption
    | with_reducible apply cpqTimeout_good
    | with_reducible apply waitUntil_good
    | exact and_reserved (by decide)
    | exact reg_merge (by assumption) (by decide)
    | exact and_left_reserved (reg_reserved (by assumption) _)
    | with_reducible apply Good.ite
    | with_reducible apply Good.ite1
    | with_reducible apply Good.ite2
    | fail_if_no_progress (with_reducible apply Good.upd)
    | fail_if_no_progress (with_reducible refine Good.updTim ?_ rfl)
    | fail_if_no_progress (with_reducible refine Good.updTim0 ?_ rfl)
    | fail_if_no_progress (with_reducible refine Good.updRegs ?_ rfl rfl rfl rfl)
    | (intro _; try intros; try extract_lets)
    | split

theorem keyLate_good {s : State}
    (gs : Good pq s) : Good pq (keyLate s) := by
  unfold keyLate
  try extract_lets
  repeat' first
    | with_reducible assumption
    | with_reducible apply keyTmo_good
    | with_reducible apply waitUntil_good
    | exact and_reserved (by decide)
    | exact reg_merge (by assumption) (by decide)
    | exact and_left_reserved (reg_reserved (by assumption) _)
    | with_reducible apply Good.ite
    | with_reducible apply Good.ite1
    | with_reducible apply Good.ite2
    | fail_if_no_progress (with_reducible apply Good.upd)
    | fail_if_no_progress (with_reducible refine Good.updTim ?_ rfl)
    | fail_if_no_progress (with_reducible refine Good.updTim0 ?_ rfl)
    | fail_if_no_progress (with_reducible refine Good.updRegs ?_ rfl rfl rfl rfl)
    | (intro _; try intros; try extract_lets)
    | split

theorem keyGoesOn_good {p : Nat} {s : State}
    (gs : Good pq s) : Good pq (keyGoesOn p s) := by
  unfold keyGoesOn
  try extract_lets
  repeat' first
    | with_reducible assumption
    | with_reducible apply keyResume_good
    | with_reducible apply waitUntil_good
    | exact and_reserved (by decide)
    | exact reg_merge (by assumption) (by decide)
    | exact and_left_reserved (reg_reserved (by assumption) _)
    | with_reducible apply Good.ite
    | with_reducible apply Good.ite1
    | with_reducible apply Good.ite2
    | fail_if_no_progress (with_reducible apply Good.upd)
    | fail_if_no_progress (with_reducible refine Good.updTim ?_ rfl)
    | fail_if_no_progress (with_reducible refine Good.updTim0 ?_ rfl)
    | fail_if_no_progress (with_reducible refine Good.updRegs ?_ rfl rfl rfl rfl)
    | (intro _; try intros; try extract_lets)
    | split

theorem scrubRead_good {hits : List ScrubHit} {s : State}
    (gs : Good pq s) : Good pq (scrubRead hits s) := by
  unfold scrubRead
  try extract_lets
  repeat' first
    | with_reducible assumption
    | with_reducible apply waitUntil_good
    | with_reducible apply scrubHits_good
    | exact and_reserved (by decide)
    | exact reg_merge (by assumption) (by decide)
    | exact and_left_reserved (reg_reserved (by assumption) _)
    | with_reducible apply Good.ite
    | with_reducible apply Good.ite1
    | with_reducible apply Good.ite2
    | fail_if_no_progress (with_reducible apply Good.upd)
    | fail_if_no_progress (with_reducible refine Good.updTim ?_ rfl)
    | fail_if_no_progress (with_reducible refine Good.updTim0 ?_ rfl)
    | fail_if_no_progress (with_reducible refine Good.updRegs ?_ rfl rfl rfl rfl)
    | (intro _; try intros; try extract_lets)

theorem retirementDone_good {s : State}
    (gs : Good pq s) : Good pq (retirementDone s) := by
  unfold retirementDone
  try extract_lets
  repeat' first
    | with_reducible assumption
    | with_reducible apply waitUntil_good
    | with_reducible apply retirementEnd_good
    | exact and_reserved (by decide)
    | exact reg_merge (by assumption) (by decide)
    | exact and_left_reserved (reg_reserved (by assumption) _)
    | with_reducible apply Good.ite
    | with_reducible apply Good.ite1
    | with_reducible apply Good.ite2
    | fail_if_no_progress (with_reducible apply Good.upd)
    | fail_if_no_progress (with_reducible refine Good.updTim ?_ rfl)
    | fail_if_no_progress (with_reducible refine Good.updTim0 ?_ rfl)
    | fail_if_no_progress (with_reducible refine Good.updRegs ?_ rfl rfl rfl rfl)
    | (intro _; try intros; try extract_lets)

theorem selectionCommit_good {t : Nat} {s : State}
    (gs : Good pq s) : Good pq (selectionCommit t s) := by
  unfold selectionCommit
  try extract_lets
  repeat' first
    | with_reducible assumption
    | with_reducible apply commitSel_good
    | with_reducible apply endZero_good

end Sys2Proof.Machine
end

