-- ==== Sys2Proof/Laws/GoodAvail.lean ====
section
/-!
SUPPORT. What each operation of Machine/Avail.lean keeps (Laws/Good.lean).
-/

namespace Sys2Proof.Machine

-- one declaration at a time: the package is compiled as one text within a limit of memory
set_option Elab.async false

variable {pq : Ghost}

theorem sliceWatchdog_good {i : Nat} {s : State}
    (gs : Good pq s) : Good pq (sliceWatchdog i s) := by
  unfold sliceWatchdog
  try extract_lets
  repeat' first
    | with_reducible assumption
    | with_reducible apply waitUntil_good
    | with_reducible apply declareFault_good
    | exact and_reserved (by decide)
    | exact reg_merge (by assumption) (by decide)
    | exact and_left_reserved (reg_reserved (by assumption) _)
    | with_reducible apply Good.ite
    | with_reducible apply Good.ite1
    | with_reducible apply Good.ite2
    | fail_if_no_progress (with_reducible apply Good.upd)
    | fail_if_no_progress (with_reducible refine Good.updTim ?_ rfl)
    | fail_if_no_progress (with_reducible refine Good.updTim0 ?_ rfl)
    | fail_if_no_progress (with_reducible refine Good.updRegs ?_ rfl rfl rfl rfl)
    | (intro _; try intros; try extract_lets)

theorem withdrawalDone_good {i : Nat} {s : State}
    (gs : Good pq s) : Good pq (withdrawalDone i s) := by
  unfold withdrawalDone
  try extract_lets
  repeat' first
    | with_reducible assumption
    | with_reducible apply walkRecords_good
    | exact and_reserved (by decide)
    | exact reg_merge (by assumption) (by decide)
    | exact and_left_reserved (reg_reserved (by assumption) _)
    | with_reducible apply Good.ite
    | with_reducible apply Good.ite1
    | with_reducible apply Good.ite2
    | fail_if_no_progress (with_reducible apply Good.upd)
    | fail_if_no_progress (with_reducible refine Good.updTim ?_ rfl)
    | fail_if_no_progress (with_reducible refine Good.updTim0 ?_ rfl)
    | fail_if_no_progress (with_reducible refine Good.updRegs ?_ rfl rfl rfl rfl)
    | (intro _; try intros; try extract_lets)

theorem againTargets_good {a : Arrive} {es : List RepEntry} {s : State}
    (gs : Good pq s) : Good pq (againTargets a es s).1 := by
  unfold againTargets
  try extract_lets
  repeat' first
    | with_reducible assumption
    | with_reducible apply classify_good
    | exact and_reserved (by decide)
    | exact reg_merge (by assumption) (by decide)
    | exact and_left_reserved (reg_reserved (by assumption) _)
    | with_reducible apply Good.ite
    | with_reducible apply Good.ite1
    | with_reducible apply Good.ite2
    | fail_if_no_progress (with_reducible apply Good.upd)
    | fail_if_no_progress (with_reducible refine Good.updTim ?_ rfl)
    | fail_if_no_progress (with_reducible refine Good.updTim0 ?_ rfl)
    | fail_if_no_progress (with_reducible refine Good.updRegs ?_ rfl rfl rfl rfl)
    | (intro _; try intros; try extract_lets)

theorem keepAge_good {n : Nat} {qs : List Nat} {c : Nat} {s : State}
    (gs : Good pq s) : Good pq (keepAge n qs c s) := by
  unfold keepAge
  try extract_lets
  repeat' first
    | with_reducible assumption
    | with_reducible apply setQueue_good
    | with_reducible apply Good.foldl
    | with_reducible apply Good.foldl1
    | with_reducible apply Good.foldl2
    | exact and_reserved (by decide)
    | exact reg_merge (by assumption) (by decide)
    | exact and_left_reserved (reg_reserved (by assumption) _)
    | with_reducible apply Good.ite
    | with_reducible apply Good.ite1
    | with_reducible apply Good.ite2
    | fail_if_no_progress (with_reducible apply Good.upd)
    | fail_if_no_progress (with_reducible refine Good.updTim ?_ rfl)
    | fail_if_no_progress (with_reducible refine Good.updTim0 ?_ rfl)
    | fail_if_no_progress (with_reducible refine Good.updRegs ?_ rfl rfl rfl rfl)
    | (intro _; try intros; try extract_lets)

theorem replayFrame_good {i : Nat} {up : Bool} {es : List RepEntry} {s : State}
    (gs : Good pq s) : Good pq (replayFrame i up es s) := by
  unfold replayFrame
  try extract_lets
  repeat' first
    | with_reducible assumption
    | with_reducible apply secPlace_good
    | with_reducible apply countO_good
    | with_reducible apply count1_good
    | with_reducible apply laneWaste_good
    | with_reducible apply countN_good
    | with_reducible apply againTargets_good
    | with_reducible apply keepAge_good
    | with_reducible apply admitRec_good
    | with_reducible apply setFrame_good
    | with_reducible apply withdrawIf_good
    | with_reducible apply laneRetire8_good
    | with_reducible apply releaseEntries_good
    | with_reducible apply decided_good
    | exact and_reserved (by decide)
    | exact reg_merge (by assumption) (by decide)
    | exact and_left_reserved (reg_reserved (by assumption) _)
    | with_reducible apply Good.ite
    | with_reducible apply Good.ite1
    | with_reducible apply Good.ite2
    | fail_if_no_progress (with_reducible apply Good.upd)
    | fail_if_no_progress (with_reducible refine Good.updTim ?_ rfl)
    | fail_if_no_progress (with_reducible refine Good.updTim0 ?_ rfl)
    | fail_if_no_progress (with_reducible refine Good.updRegs ?_ rfl rfl rfl rfl)
    | (intro _; try intros; try extract_lets)
    | split

theorem replayRecords_good {failed new : Nat} {s : State}
    (gs : Good pq s) : Good pq (replayRecords failed new s) := by
  unfold replayRecords
  try extract_lets
  repeat' first
    | with_reducible assumption
    | with_reducible apply takeRecords_good
    | with_reducible apply replayFrame_good
    | with_reducible apply Good.foldl
    | with_reducible apply Good.foldl1
    | with_reducible apply Good.foldl2
    | exact and_reserved (by decide)
    | exact reg_merge (by assumption) (by decide)
    | exact and_left_reserved (reg_reserved (by assumption) _)
    | with_reducible apply Good.ite
    | with_reducible apply Good.ite1
    | with_reducible apply Good.ite2
    | fail_if_no_progress (with_reducible apply Good.upd)
    | fail_if_no_progress (with_reducible refine Good.updTim ?_ rfl)
    | fail_if_no_progress (with_reducible refine Good.updTim0 ?_ rfl)
    | fail_if_no_progress (with_reducible refine Good.updRegs ?_ rfl rfl rfl rfl)
    | (intro _; try intros; try extract_lets)

theorem setPiece_good {t : Nat} {q : CpqReq} {f : Piece → Piece} {s : State}
    (gs : Good pq s) : Good pq (setPiece t q f s) := by
  unfold setPiece
  try extract_lets
  repeat' first
    | with_reducible assumption
    | with_reducible apply setReasm_good

theorem resumePieces_good {t i : Nat} {lose : Bool} {s : State} (gs : Good pq s) : Good pq (resumePieces t i lose s) := by
  unfold resumePieces
  extract_lets s1
  have g1 : Good pq s1 := by
    refine Good.foldl gs fun a q ha => ?_
    exact Good.ite (fun _ => setPiece_good (count1_good ha)) fun _ => setPiece_good (cpqIssue_good ha)
  exact Good.foldl g1 fun a h ha => drainPieces_good ha

theorem loseBeats_good {t i : Nat} {s : State}
    (gs : Good pq s) : Good pq (loseBeats t i s) := by
  unfold loseBeats
  try extract_lets
  repeat' first
    | with_reducible assumption
    | with_reducible apply modTre_good
    | with_reducible apply release1_good
    | with_reducible apply countN_good
    | with_reducible apply Good.foldl
    | with_reducible apply Good.foldl1
    | with_reducible apply Good.foldl2
    | exact and_reserved (by decide)
    | exact reg_merge (by assumption) (by decide)
    | exact and_left_reserved (reg_reserved (by assumption) _)
    | with_reducible apply Good.ite
    | with_reducible apply Good.ite1
    | with_reducible apply Good.ite2
    | fail_if_no_progress (with_reducible apply Good.upd)
    | fail_if_no_progress (with_reducible refine Good.updTim ?_ rfl)
    | fail_if_no_progress (with_reducible refine Good.updTim0 ?_ rfl)
    | fail_if_no_progress (with_reducible refine Good.updRegs ?_ rfl rfl rfl rfl)
    | (intro _; try intros; try extract_lets)

theorem selectAgain_good {t k : Nat} {s : State}
    (gs : Good pq s) : Good pq (selectAgain t k s) := by
  unfold selectAgain
  try extract_lets
  repeat' first
    | with_reducible assumption
    | with_reducible apply selectTree_good
    | with_reducible apply setQueue_good
    | with_reducible apply Good.foldl
    | with_reducible apply Good.foldl1
    | with_reducible apply Good.foldl2
    | exact and_reserved (by decide)
    | exact reg_merge (by assumption) (by decide)
    | exact and_left_reserved (reg_reserved (by assumption) _)
    | with_reducible apply Good.ite
    | with_reducible apply Good.ite1
    | with_reducible apply Good.ite2
    | fail_if_no_progress (with_reducible apply Good.upd)
    | fail_if_no_progress (with_reducible refine Good.updTim ?_ rfl)
    | fail_if_no_progress (with_reducible refine Good.updTim0 ?_ rfl)
    | fail_if_no_progress (with_reducible refine Good.updRegs ?_ rfl rfl rfl rfl)
    | (intro _; try intros; try extract_lets)

theorem resumePasses_good {t : Nat} {s : State} (gs : Good pq s) : Good pq (resumePasses t s) := by
  unfold resumePasses
  extract_lets c s1 s2
  have g1 : Good pq s1 := modChn_good gs
  have g2 : Good pq s2 := by
    show Good pq (match c.late1 with | some p => onSnap t p (churnPass1 t) s1 | none => s1)
    split
    · exact onSnap_good g1 fun _ h => churnPass1_good h
    · exact g1
  clear_value s2
  split
  · exact onSnap_good g2 fun _ h => churnPass2_good h
  · exact g2

theorem resumeTree_good {t i : Nat} {lose : Bool} {s : State}
    (gs : Good pq s) : Good pq (resumeTree t i lose s) := by
  unfold resumeTree
  try extract_lets
  repeat' first
    | with_reducible assumption
    | with_reducible apply resumePieces_good
    | with_reducible apply lose_good
    | with_reducible apply loseBeats_good
    | with_reducible apply commitSel_good
    | with_reducible apply selectAgain_good
    | with_reducible apply resumePasses_good
    | with_reducible apply assemble_good
    | with_reducible apply Good.foldl
    | with_reducible apply Good.foldl1
    | with_reducible apply Good.foldl2
    | exact and_reserved (by decide)
    | exact reg_merge (by assumption) (by decide)
    | exact and_left_reserved (reg_reserved (by assumption) _)
    | with_reducible apply Good.ite
    | with_reducible apply Good.ite1
    | with_reducible apply Good.ite2
    | fail_if_no_progress (with_reducible apply Good.upd)
    | fail_if_no_progress (with_reducible refine Good.updTim ?_ rfl)
    | fail_if_no_progress (with_reducible refine Good.updTim0 ?_ rfl)
    | fail_if_no_progress (with_reducible refine Good.updRegs ?_ rfl rfl rfl rfl)
    | (intro _; try intros; try extract_lets)

theorem rehomeTo_good {s : State} {trees ports : List Nat} (gs : Good pq s) : Good pq (rehomeTo s trees ports) := by
  unfold rehomeTo
  extract_lets live
  cases live with
  | nil => exact gs
  | cons a rest => exact Good.foldl (moveHomes_good gs) fun s x h => moveTree_good h

theorem loseSource_good {i : Nat} {src : Src} {s : State}
    (gs : Good pq s) : Good pq (loseSource i src s) := by
  unfold loseSource
  try extract_lets
  repeat' first
    | with_reducible assumption
    | with_reducible apply countN_good
    | with_reducible apply releaseEntries_good
    | with_reducible apply Good.foldl
    | with_reducible apply Good.foldl1
    | with_reducible apply Good.foldl2
    | exact and_reserved (by decide)
    | exact reg_merge (by assumption) (by decide)
    | exact and_left_reserved (reg_reserved (by assumption) _)
    | with_reducible apply Good.ite
    | with_reducible apply Good.ite1
    | with_reducible apply Good.ite2
    | fail_if_no_progress (with_reducible apply Good.upd)
    | fail_if_no_progress (with_reducible refine Good.updTim ?_ rfl)
    | fail_if_no_progress (with_reducible refine Good.updTim0 ?_ rfl)
    | fail_if_no_progress (with_reducible refine Good.updRegs ?_ rfl rfl rfl rfl)
    | (intro _; try intros; try extract_lets)

theorem losePart_good {i j : Nat} {x : SkimPart} {s : State}
    (gs : Good pq s) : Good pq (losePart i j x s) := by
  unfold losePart
  try extract_lets
  repeat' first
    | with_reducible assumption
    | with_reducible apply count1_good
    | with_reducible apply setPiece_good
    | with_reducible apply loseSource_good
    | with_reducible apply modTre_good
    | with_reducible apply modUpl_good
    | with_reducible apply modChn_good
    | with_reducible apply Good.foldl
    | with_reducible apply Good.foldl1
    | with_reducible apply Good.foldl2
    | exact and_reserved (by decide)
    | exact reg_merge (by assumption) (by decide)
    | exact and_left_reserved (reg_reserved (by assumption) _)
    | with_reducible apply Good.ite
    | with_reducible apply Good.ite1
    | with_reducible apply Good.ite2
    | fail_if_no_progress (with_reducible apply Good.upd)
    | fail_if_no_progress (with_reducible refine Good.updTim ?_ rfl)
    | fail_if_no_progress (with_reducible refine Good.updTim0 ?_ rfl)
    | fail_if_no_progress (with_reducible refine Good.updRegs ?_ rfl rfl rfl rfl)
    | (intro _; try intros; try extract_lets)
    | split

theorem loadSkim_good {i : Nat} {ports : List Nat} {lost : List SkimPart} {s : State} (gs : Good pq s) :
    Good pq (loadSkim i ports lost s) := by
  unfold loadSkim
  extract_lets s1
  have g1 : Good pq s1 := by
    dsimp only [s1]
    split
    · exact gs
    · refine Good.foldl gs fun a p ha => ?_
      split
      · exact modUpl_good ha
      · exact ha
  exact Good.foldl g1 fun a p ha => losePart_good ha

theorem loadTrees_good {i : Nat} {trees : List Nat} {s : State}
    (gs : Good pq s) : Good pq (loadTrees i trees s) := by
  unfold loadTrees
  try extract_lets
  repeat' first
    | with_reducible assumption
    | with_reducible apply modChn_good
    | with_reducible apply Good.foldl
    | with_reducible apply Good.foldl1
    | with_reducible apply Good.foldl2
    | exact and_reserved (by decide)
    | exact reg_merge (by assumption) (by decide)
    | exact and_left_reserved (reg_reserved (by assumption) _)
    | with_reducible apply Good.ite
    | with_reducible apply Good.ite1
    | with_reducible apply Good.ite2
    | fail_if_no_progress (with_reducible apply Good.upd)
    | fail_if_no_progress (with_reducible refine Good.updTim ?_ rfl)
    | fail_if_no_progress (with_reducible refine Good.updTim0 ?_ rfl)
    | fail_if_no_progress (with_reducible refine Good.updRegs ?_ rfl rfl rfl rfl)
    | (intro _; try intros; try extract_lets)
    | split

theorem takeRecord_good {i j : Nat} {s : State}
    (gs : Good pq s) : Good pq (takeRecord i j s) := by
  unfold takeRecord
  try extract_lets
  repeat' first
    | with_reducible assumption
    | with_reducible apply Good.foldl
    | with_reducible apply Good.foldl1
    | with_reducible apply Good.foldl2
    | exact and_reserved (by decide)
    | exact reg_merge (by assumption) (by decide)
    | exact and_left_reserved (reg_reserved (by assumption) _)
    | with_reducible apply Good.ite
    | with_reducible apply Good.ite1
    | with_reducible apply Good.ite2
    | fail_if_no_progress (with_reducible apply Good.upd)

theorem goLive_good {h : Handover} {s : State}
    (gs : Good pq s) : Good pq (goLive h s) := by
  unfold goLive
  try extract_lets
  repeat' first
    | with_reducible assumption
    | with_reducible apply setRole_good
    | with_reducible apply loadSkim_good
    | with_reducible apply moveHomes_good
    | with_reducible apply takeRecord_good
    | with_reducible apply notice0_good
    | with_reducible apply count1_good
    | with_reducible apply setMode_good
    | with_reducible apply ingress_good
    | with_reducible apply replayRecords_good
    | with_reducible apply stageRun_good
    | with_reducible apply resumeTree_good
    | with_reducible apply Good.foldl
    | with_reducible apply Good.foldl1
    | with_reducible apply Good.foldl2
    | exact and_reserved (by decide)
    | exact reg_merge (by assumption) (by decide)
    | exact and_left_reserved (reg_reserved (by assumption) _)
    | with_reducible apply Good.ite
    | with_reducible apply Good.ite1
    | with_reducible apply Good.ite2
    | fail_if_no_progress (with_reducible apply Good.upd)
    | fail_if_no_progress (with_reducible refine Good.updTim ?_ rfl)
    | fail_if_no_progress (with_reducible refine Good.updTim0 ?_ rfl)
    | fail_if_no_progress (with_reducible refine Good.updRegs ?_ rfl rfl rfl rfl)
    | (intro _; try intros; try extract_lets)

theorem goRehomed_good {h : Handover} {s : State}
    (gs : Good pq s) : Good pq (goRehomed h s) := by
  unfold goRehomed
  try extract_lets
  repeat' first
    | with_reducible assumption
    | with_reducible apply loseRecords_good
    | with_reducible apply dropHeld_good
    | with_reducible apply loadTrees_good
    | with_reducible apply rehomeTo_good
    | with_reducible apply setMode_good
    | with_reducible apply notice0_good
    | with_reducible apply loadSkim_good
    | with_reducible apply ingress_good
    | with_reducible apply stageRun_good
    | with_reducible apply resumeTree_good
    | with_reducible apply beginTest_good
    | with_reducible apply Good.foldl
    | with_reducible apply Good.foldl1
    | with_reducible apply Good.foldl2
    | exact and_reserved (by decide)
    | exact reg_merge (by assumption) (by decide)
    | exact and_left_reserved (reg_reserved (by assumption) _)
    | with_reducible apply Good.ite
    | with_reducible apply Good.ite1
    | with_reducible apply Good.ite2
    | fail_if_no_progress (with_reducible apply Good.upd)
    | fail_if_no_progress (with_reducible refine Good.updTim ?_ rfl)
    | fail_if_no_progress (with_reducible refine Good.updTim0 ?_ rfl)
    | fail_if_no_progress (with_reducible refine Good.updRegs ?_ rfl rfl rfl rfl)
    | (intro _; try intros; try extract_lets)

theorem replayStart_good {s : State} (gs : Good pq s) : Good pq (replayStart s) := by
  unfold replayStart
  split
  · exact gs
  · extract_lets s1 s2
    have g1 : Good pq s1 := waitUntil_good gs
    have g2 : Good pq s2 := Good.ite (fun _ => g1) fun _ => withdrawalDone_good g1
    clear_value s2
    split
    · exact Good.ite (fun _ => g1) fun _ => g2
    · exact Good.ite (fun _ => goRehomed_good g2) fun _ => goLive_good g2

theorem handoverDone_good {s : State}
    (gs : Good pq s) : Good pq (handoverDone s) := by
  unfold handoverDone
  try extract_lets
  repeat' first
    | with_reducible assumption
    | with_reducible apply notice0_good
    | with_reducible apply beginTest_good
    | exact and_reserved (by decide)
    | exact reg_merge (by assumption) (by decide)
    | exact and_left_reserved (reg_reserved (by assumption) _)
    | with_reducible apply Good.ite
    | with_reducible apply Good.ite1
    | with_reducible apply Good.ite2
    | fail_if_no_progress (with_reducible apply Good.upd)
    | fail_if_no_progress (with_reducible refine Good.updTim ?_ rfl)
    | fail_if_no_progress (with_reducible refine Good.updTim0 ?_ rfl)
    | fail_if_no_progress (with_reducible refine Good.updRegs ?_ rfl rfl rfl rfl)
    | (intro _; try intros; try extract_lets)
    | split

theorem rotationDue_good {s : State}
    (gs : Good pq s) : Good pq (rotationDue s) := by
  unfold rotationDue
  try extract_lets
  repeat' first
    | with_reducible assumption
    | exact and_reserved (by decide)
    | exact reg_merge (by assumption) (by decide)
    | exact and_left_reserved (reg_reserved (by assumption) _)
    | with_reducible apply Good.ite
    | with_reducible apply Good.ite1
    | with_reducible apply Good.ite2
    | fail_if_no_progress (with_reducible apply Good.upd)
    | fail_if_no_progress (with_reducible refine Good.updTim ?_ rfl)
    | fail_if_no_progress (with_reducible refine Good.updTim0 ?_ rfl)
    | fail_if_no_progress (with_reducible refine Good.updRegs ?_ rfl rfl rfl rfl)
    | (intro _; try intros; try extract_lets)

theorem rotNow_good {s : State}
    (gs : Good pq s) : Good pq (rotNow s) := by
  unfold rotNow
  try extract_lets
  repeat' first
    | with_reducible assumption
    | exact and_reserved (by decide)
    | exact reg_merge (by assumption) (by decide)
    | exact and_left_reserved (reg_reserved (by assumption) _)
    | with_reducible apply Good.ite
    | with_reducible apply Good.ite1
    | with_reducible apply Good.ite2
    | fail_if_no_progress (with_reducible apply Good.upd)

theorem startRotation_good {out : Option Nat} {j : Nat} {set : Option Nat} {s : State}
    (gs : Good pq s) : Good pq (startRotation out j set s) := by
  unfold startRotation
  try extract_lets
  repeat' first
    | with_reducible assumption
    | with_reducible apply setRole_good
    | with_reducible apply setMode_good
    | exact and_reserved (by decide)
    | exact reg_merge (by assumption) (by decide)
    | exact and_left_reserved (reg_reserved (by assumption) _)
    | with_reducible apply Good.ite
    | with_reducible apply Good.ite1
    | with_reducible apply Good.ite2
    | fail_if_no_progress (with_reducible apply Good.upd)

theorem shadowStart_good {s : State}
    (gs : Good pq s) : Good pq (shadowStart s) := by
  unfold shadowStart
  try extract_lets
  repeat' first
    | with_reducible assumption
    | with_reducible apply syncTo_good
    | with_reducible apply startRotation_good
    | exact and_reserved (by decide)
    | exact reg_merge (by assumption) (by decide)
    | exact and_left_reserved (reg_reserved (by assumption) _)
    | with_reducible apply Good.ite
    | with_reducible apply Good.ite1
    | with_reducible apply Good.ite2
    | fail_if_no_progress (with_reducible apply Good.upd)
    | fail_if_no_progress (with_reducible refine Good.updTim ?_ rfl)
    | fail_if_no_progress (with_reducible refine Good.updTim0 ?_ rfl)
    | fail_if_no_progress (with_reducible refine Good.updRegs ?_ rfl rfl rfl rfl)
    | (intro _; try intros; try extract_lets)
    | split

theorem abandonRotation_good {s : State}
    (gs : Good pq s) : Good pq (abandonRotation s) := by
  unfold abandonRotation
  try extract_lets
  repeat' first
    | with_reducible assumption
    | with_reducible apply syncTo_good
    | with_reducible apply setMode_good
    | with_reducible apply setRole_good
    | with_reducible apply endRotation_good
    | exact and_reserved (by decide)
    | exact reg_merge (by assumption) (by decide)
    | exact and_left_reserved (reg_reserved (by assumption) _)
    | with_reducible apply Good.ite
    | with_reducible apply Good.ite1
    | with_reducible apply Good.ite2
    | fail_if_no_progress (with_reducible apply Good.upd)
    | fail_if_no_progress (with_reducible refine Good.updTim ?_ rfl)
    | fail_if_no_progress (with_reducible refine Good.updTim0 ?_ rfl)
    | fail_if_no_progress (with_reducible refine Good.updRegs ?_ rfl rfl rfl rfl)
    | (intro _; try intros; try extract_lets)
    | split

theorem restoring_good {s : State}
    (gs : Good pq s) : Good pq (restoring s) := by
  unfold restoring
  try extract_lets
  repeat' first
    | with_reducible assumption
    | with_reducible apply syncTo_good
    | with_reducible apply startRotation_good
    | exact and_reserved (by decide)
    | exact reg_merge (by assumption) (by decide)
    | exact and_left_reserved (reg_reserved (by assumption) _)
    | with_reducible apply Good.ite
    | with_reducible apply Good.ite1
    | with_reducible apply Good.ite2
    | fail_if_no_progress (with_reducible apply Good.upd)
    | fail_if_no_progress (with_reducible refine Good.updTim ?_ rfl)
    | fail_if_no_progress (with_reducible refine Good.updTim0 ?_ rfl)
    | fail_if_no_progress (with_reducible refine Good.updRegs ?_ rfl rfl rfl rfl)
    | (intro _; try intros; try extract_lets)
    | split

theorem shadowParts_good {r : Rotation} {s : State}
    (gs : Good pq s) : Good pq (shadowParts r s) := by
  unfold shadowParts
  try extract_lets
  repeat' first
    | with_reducible assumption
    | with_reducible apply losePart_good
    | with_reducible apply count1_good
    | with_reducible apply Good.foldl
    | with_reducible apply Good.foldl1
    | with_reducible apply Good.foldl2
    | exact and_reserved (by decide)
    | exact reg_merge (by assumption) (by decide)
    | exact and_left_reserved (reg_reserved (by assumption) _)
    | with_reducible apply Good.ite
    | with_reducible apply Good.ite1
    | with_reducible apply Good.ite2
    | fail_if_no_progress (with_reducible apply Good.upd)
    | fail_if_no_progress (with_reducible refine Good.updTim ?_ rfl)
    | fail_if_no_progress (with_reducible refine Good.updTim0 ?_ rfl)
    | fail_if_no_progress (with_reducible refine Good.updRegs ?_ rfl rfl rfl rfl)
    | (intro _; try intros; try extract_lets)
    | split

theorem stillOwed_good {s : State}
    (gs : Good pq s) : Good pq (stillOwed s) := by
  unfold stillOwed
  try extract_lets
  repeat' first
    | with_reducible assumption
    | exact and_reserved (by decide)
    | exact reg_merge (by assumption) (by decide)
    | exact and_left_reserved (reg_reserved (by assumption) _)
    | with_reducible apply Good.ite
    | with_reducible apply Good.ite1
    | with_reducible apply Good.ite2
    | fail_if_no_progress (with_reducible apply Good.upd)

theorem rotBoundary_good {s : State} (gs : Good pq s) : Good pq (rotBoundary s) := by
  unfold rotBoundary
  cases s.skm.rot with
  | none => exact gs
  | some r =>
    dsimp -zeta only
    refine Good.ite (fun _ => gs) fun _ => Good.ite (fun _ => Good.upd gs) fun _ => ?_
    extract_lets ksrc s0 msrc s1 out
    have g0 : Good pq s0 := Good.upd gs
    have g1 : Good pq s1 := by
      clear_value s0
      cases hr : r.out with
      | some i => simp only [s1, hr]; exact setRole_good (Good.upd (moveHomes_good g0))
      | none =>
        cases hk : r.set with
        | some k => simp only [s1, hr, hk]; exact stillOwed_good (moveHomes_good g0)
        | none => simp only [s1, hr, hk]; exact g0
    clear_value s1
    exact setMode_good (notice0_good (count1_good (shadowParts_good (setRole_good (useFree_good g1)))))

theorem reinstate_good {i : Nat} {s : State}
    (gs : Good pq s) : Good pq (reinstate i s) := by
  unfold reinstate
  try extract_lets
  repeat' first
    | with_reducible assumption
    | with_reducible apply notice0_good
    | with_reducible apply becomeSpare_good
    | exact and_reserved (by decide)
    | exact reg_merge (by assumption) (by decide)
    | exact and_left_reserved (reg_reserved (by assumption) _)
    | with_reducible apply Good.ite
    | with_reducible apply Good.ite1
    | with_reducible apply Good.ite2
    | fail_if_no_progress (with_reducible apply Good.upd)

theorem selftestFault_good {i : Nat} {s : State}
    (gs : Good pq s) : Good pq (selftestFault i s) := by
  unfold selftestFault
  try extract_lets
  repeat' first
    | with_reducible assumption
    | with_reducible apply useFree_good
    | with_reducible apply fault_good

theorem passEnd_good {i : Nat} {pass : Bool} {s : State}
    (gs : Good pq s) : Good pq (passEnd i pass s) := by
  unfold passEnd
  try extract_lets
  repeat' first
    | with_reducible assumption
    | with_reducible apply setMode_good
    | with_reducible apply notice0_good
    | with_reducible apply selftestFault_good
    | with_reducible apply setRole_good
    | with_reducible apply reinstate_good
    | exact and_reserved (by decide)
    | exact reg_merge (by assumption) (by decide)
    | exact and_left_reserved (reg_reserved (by assumption) _)
    | with_reducible apply Good.ite
    | with_reducible apply Good.ite1
    | with_reducible apply Good.ite2
    | fail_if_no_progress (with_reducible apply Good.upd)
    | fail_if_no_progress (with_reducible refine Good.updTim ?_ rfl)
    | fail_if_no_progress (with_reducible refine Good.updTim0 ?_ rfl)
    | fail_if_no_progress (with_reducible refine Good.updRegs ?_ rfl rfl rfl rfl)
    | (intro _; try intros; try extract_lets)
    | split

theorem selftestEnd_good {i : Nat} {pass : Bool} {s : State}
    (gs : Good pq s) : Good pq (selftestEnd i pass s) := by
  unfold selftestEnd
  try extract_lets
  repeat' first
    | with_reducible assumption
    | with_reducible apply waitUntil_good
    | with_reducible apply passEnd_good
    | exact and_reserved (by decide)
    | exact reg_merge (by assumption) (by decide)
    | exact and_left_reserved (reg_reserved (by assumption) _)
    | with_reducible apply Good.ite
    | with_reducible apply Good.ite1
    | with_reducible apply Good.ite2
    | fail_if_no_progress (with_reducible apply Good.upd)
    | fail_if_no_progress (with_reducible refine Good.updTim ?_ rfl)
    | fail_if_no_progress (with_reducible refine Good.updTim0 ?_ rfl)
    | fail_if_no_progress (with_reducible refine Good.updRegs ?_ rfl rfl rfl rfl)
    | (intro _; try intros; try extract_lets)

theorem writeSkmCtl_good {data : Word} {s : State}
    (gs : Good pq s) : Good pq (writeSkmCtl data s) := by
  unfold writeSkmCtl
  try extract_lets
  repeat' first
    | with_reducible assumption
    | with_reducible apply setReg_good
    | with_reducible apply beginTest_good
    | exact and_reserved (by decide)
    | exact reg_merge (by assumption) (by decide)
    | exact and_left_reserved (reg_reserved (by assumption) _)
    | with_reducible apply Good.ite
    | with_reducible apply Good.ite1
    | with_reducible apply Good.ite2
    | fail_if_no_progress (with_reducible apply Good.upd)
    | fail_if_no_progress (with_reducible refine Good.updTim ?_ rfl)
    | fail_if_no_progress (with_reducible refine Good.updTim0 ?_ rfl)
    | fail_if_no_progress (with_reducible refine Good.updRegs ?_ rfl rfl rfl rfl)
    | (intro _; try intros; try extract_lets)

end Sys2Proof.Machine
end

