-- ==== Sys2Proof/Laws/GoodCounters.lean ====
section
/-!
SUPPORT. What each operation of Machine/Counters.lean keeps (Laws/Good.lean).
-/

namespace Sys2Proof.Machine

-- one declaration at a time: the package is compiled as one text within a limit of memory
set_option Elab.async false

variable {pq : Ghost}

theorem setCounter_good {i n v : Nat} {s : State}
    (gs : Good pq s) : Good pq (setCounter i n v s) := by
  unfold setCounter
  try extract_lets
  repeat' first
    | with_reducible assumption
    | exact and_reserved (by decide)
    | exact reg_merge (by assumption) (by decide)
    | exact and_left_reserved (reg_reserved (by assumption) _)
    | with_reducible apply Good.ite
    | with_reducible apply Good.ite1
    | with_reducible apply Good.ite2
    | fail_if_no_progress (with_reducible apply Good.upd)

set_option maxRecDepth 40000 in
theorem selMask {i n : Nat} (hi : i < 110) (hn : n < 16) : regMask (rCntSel i n) = 0x7FFFFFFF := by
  have h : ∀ i < 110, ∀ n < 16, regMask (rCntSel i n) = 0x7FFFFFFF := by decide
  exact h i hi n hn

theorem holdCnt_good {k : Nat} {s : State} (gs : Good pq s) : Good pq (holdCnt k s) := Good.upd gs

theorem selWrite_good {i n : Nat} {data : Word} {s : State} (hi : i < 110) (hn : n < 16) (gs : Good pq s) :
    Good pq (selWrite i n data s) := by
  unfold selWrite
  extract_lets old new s1
  have g1 : Good pq s1 := setReg_good gs (by rw [selMask hi hn]; exact and_not_self' data _)
  exact Good.ite (fun _ => g1) fun _ => holdCnt_good (Good.upd g1)

theorem valWrite_good {part i n : Nat} {data : Word} {s : State}
    (gs : Good pq s) : Good pq (valWrite part i n data s) := by
  unfold valWrite
  try extract_lets
  repeat' first
    | with_reducible assumption
    | with_reducible apply holdCnt_good
    | with_reducible apply setCounter_good
    | with_reducible apply dropLo_good

theorem clrWrite_good {i : Nat} {data : Word} {s : State}
    (gs : Good pq s) : Good pq (clrWrite i data s) := by
  unfold clrWrite
  try extract_lets
  repeat' first
    | with_reducible assumption
    | with_reducible apply setCounter_good
    | with_reducible apply Good.foldl
    | with_reducible apply Good.foldl1
    | with_reducible apply Good.foldl2
    | exact and_reserved (by decide)
    | exact reg_merge (by assumption) (by decide)
    | exact and_left_reserved (reg_reserved (by assumption) _)
    | with_reducible apply Good.ite
    | with_reducible apply Good.ite1
    | with_reducible apply Good.ite2
    | fail_if_no_progress (with_reducible apply Good.upd)
    | fail_if_no_progress (with_reducible refine Good.updTim ?_ rfl)
    | fail_if_no_progress (with_reducible refine Good.updTim0 ?_ rfl)
    | fail_if_no_progress (with_reducible refine Good.updRegs ?_ rfl rfl rfl rfl)
    | (intro _; try intros; try extract_lets)

theorem wrapWrite_good {i : Nat} {data : Word} {s : State}
    (gs : Good pq s) : Good pq (wrapWrite i data s) := by
  unfold wrapWrite
  try extract_lets
  repeat' first
    | with_reducible assumption
    | exact and_reserved (by decide)
    | exact reg_merge (by assumption) (by decide)
    | exact and_left_reserved (reg_reserved (by assumption) _)
    | with_reducible apply Good.ite
    | with_reducible apply Good.ite1
    | with_reducible apply Good.ite2
    | fail_if_no_progress (with_reducible apply Good.upd)

theorem subWrite_good {part : BitVec 6} {inst : BitVec 7} {be : BitVec 4} {f : State → State} {s : State} (gs : Good pq s)
    (kf : inst.toNat < 110 → ∀ s, Good pq s → Good pq (f s)) : Good pq (subWrite part inst be f s) := by
  unfold subWrite
  exact Good.ite (fun _ => gs) fun h => p0Write_good gs (kf (by omega))

theorem smpCi_good {data : Word} {s : State}
    (gs : Good pq s) : Good pq (smpCi data s) := by
  unfold smpCi
  try extract_lets
  repeat' first
    | with_reducible assumption
    | exact and_reserved (by decide)
    | exact reg_merge (by assumption) (by decide)
    | exact and_left_reserved (reg_reserved (by assumption) _)
    | with_reducible apply Good.ite
    | with_reducible apply Good.ite1
    | with_reducible apply Good.ite2
    | fail_if_no_progress (with_reducible apply Good.upd)
    | fail_if_no_progress (with_reducible refine Good.updTim ?_ rfl)
    | fail_if_no_progress (with_reducible refine Good.updTim0 ?_ rfl)
    | fail_if_no_progress (with_reducible refine Good.updRegs ?_ rfl rfl rfl rfl)
    | (intro _; try intros; try extract_lets)

theorem slotSnap_good {data : Word} {s : State}
    (gs : Good pq s) : Good pq (slotSnap data s) := by
  unfold slotSnap
  try extract_lets
  repeat' first
    | with_reducible assumption
    | exact and_reserved (by decide)
    | exact reg_merge (by assumption) (by decide)
    | exact and_left_reserved (reg_reserved (by assumption) _)
    | with_reducible apply Good.ite
    | with_reducible apply Good.ite1
    | with_reducible apply Good.ite2
    | fail_if_no_progress (with_reducible apply Good.upd)
    | fail_if_no_progress (with_reducible refine Good.updTim ?_ rfl)
    | fail_if_no_progress (with_reducible refine Good.updTim0 ?_ rfl)
    | fail_if_no_progress (with_reducible refine Good.updRegs ?_ rfl rfl rfl rfl)
    | (intro _; try intros; try extract_lets)

theorem lidxNext_good {s : State}
    (gs : Good pq s) : Good pq (lidxNext s) := by
  unfold lidxNext
  try extract_lets
  repeat' first
    | with_reducible assumption
    | exact and_reserved (by decide)
    | exact reg_merge (by assumption) (by decide)
    | exact and_left_reserved (reg_reserved (by assumption) _)
    | with_reducible apply Good.ite
    | with_reducible apply Good.ite1
    | with_reducible apply Good.ite2
    | fail_if_no_progress (with_reducible apply Good.upd)

theorem ldataWrite_good {data : Word} {s : State}
    (gs : Good pq s) : Good pq (ldataWrite data s) := by
  unfold ldataWrite
  try extract_lets
  repeat' first
    | with_reducible assumption
    | with_reducible apply lidxNext_good
    | exact and_reserved (by decide)
    | exact reg_merge (by assumption) (by decide)
    | exact and_left_reserved (reg_reserved (by assumption) _)
    | with_reducible apply Good.ite
    | with_reducible apply Good.ite1
    | with_reducible apply Good.ite2
    | fail_if_no_progress (with_reducible apply Good.upd)
    | fail_if_no_progress (with_reducible refine Good.updTim ?_ rfl)
    | fail_if_no_progress (with_reducible refine Good.updTim0 ?_ rfl)
    | fail_if_no_progress (with_reducible refine Good.updRegs ?_ rfl rfl rfl rfl)
    | (intro _; try intros; try extract_lets)

theorem mrSwap_good {s : State}
    (gs : Good pq s) : Good pq (mrSwap s) := by
  unfold mrSwap
  try extract_lets
  repeat' first
    | with_reducible assumption
    | exact and_reserved (by decide)
    | exact reg_merge (by assumption) (by decide)
    | exact and_left_reserved (reg_reserved (by assumption) _)
    | with_reducible apply Good.ite
    | with_reducible apply Good.ite1
    | with_reducible apply Good.ite2
    | fail_if_no_progress (with_reducible apply Good.upd)

theorem mrTick_good {s : State}
    (gs : Good pq s) : Good pq (mrTick s) := by
  unfold mrTick
  try extract_lets
  repeat' first
    | with_reducible assumption
    | exact and_reserved (by decide)
    | exact reg_merge (by assumption) (by decide)
    | exact and_left_reserved (reg_reserved (by assumption) _)
    | with_reducible apply Good.ite
    | with_reducible apply Good.ite1
    | with_reducible apply Good.ite2
    | fail_if_no_progress (with_reducible apply Good.upd)
    | fail_if_no_progress (with_reducible refine Good.updTim ?_ rfl)
    | fail_if_no_progress (with_reducible refine Good.updTim0 ?_ rfl)
    | fail_if_no_progress (with_reducible refine Good.updRegs ?_ rfl rfl rfl rfl)
    | (intro _; try intros; try extract_lets)

theorem roundStart_good {s : State}
    (gs : Good pq s) : Good pq (roundStart s) := by
  unfold roundStart
  try extract_lets
  repeat' first
    | with_reducible assumption
    | with_reducible apply count1_good
    | with_reducible apply mrFlush_good
    | with_reducible apply mrRead_good
    | exact and_reserved (by decide)
    | exact reg_merge (by assumption) (by decide)
    | exact and_left_reserved (reg_reserved (by assumption) _)
    | with_reducible apply Good.ite
    | with_reducible apply Good.ite1
    | with_reducible apply Good.ite2
    | fail_if_no_progress (with_reducible apply Good.upd)

theorem milkStart_good {s : State}
    (gs : Good pq s) : Good pq (milkStart s) := by
  unfold milkStart
  try extract_lets
  repeat' first
    | with_reducible assumption
    | with_reducible apply count1_good
    | with_reducible apply roundStart_good
    | exact and_reserved (by decide)
    | exact reg_merge (by assumption) (by decide)
    | exact and_left_reserved (reg_reserved (by assumption) _)
    | with_reducible apply Good.ite
    | with_reducible apply Good.ite1
    | with_reducible apply Good.ite2
    | fail_if_no_progress (with_reducible apply Good.upd)
    | fail_if_no_progress (with_reducible refine Good.updTim ?_ rfl)
    | fail_if_no_progress (with_reducible refine Good.updTim0 ?_ rfl)
    | fail_if_no_progress (with_reducible refine Good.updRegs ?_ rfl rfl rfl rfl)
    | (intro _; try intros; try extract_lets)

theorem dropWrite_good {x : HWrite} {s : State}
    (gs : Good pq s) : Good pq (dropWrite x s) := by
  unfold dropWrite
  try extract_lets
  repeat' first
    | with_reducible assumption
    | exact and_reserved (by decide)
    | exact reg_merge (by assumption) (by decide)
    | exact and_left_reserved (reg_reserved (by assumption) _)
    | with_reducible apply Good.ite
    | with_reducible apply Good.ite1
    | with_reducible apply Good.ite2
    | fail_if_no_progress (with_reducible apply Good.upd)

theorem roundDone_good {s : State}
    (gs : Good pq s) : Good pq (roundDone s) := by
  unfold roundDone
  try extract_lets
  repeat' first
    | with_reducible assumption
    | with_reducible apply dropWrite_good
    | with_reducible apply irq_good
    | with_reducible apply tagFreed_good
    | with_reducible apply Good.foldl
    | with_reducible apply Good.foldl1
    | with_reducible apply Good.foldl2
    | exact and_reserved (by decide)
    | exact reg_merge (by assumption) (by decide)
    | exact and_left_reserved (reg_reserved (by assumption) _)
    | with_reducible apply Good.ite
    | with_reducible apply Good.ite1
    | with_reducible apply Good.ite2
    | fail_if_no_progress (with_reducible apply Good.upd)
    | fail_if_no_progress (with_reducible refine Good.updTim ?_ rfl)
    | fail_if_no_progress (with_reducible refine Good.updTim0 ?_ rfl)
    | fail_if_no_progress (with_reducible refine Good.updRegs ?_ rfl rfl rfl rfl)
    | (intro _; try intros; try extract_lets)
    | split

theorem roundErr_good {s : State}
    (gs : Good pq s) : Good pq (roundErr s) := by
  unfold roundErr
  try extract_lets
  repeat' first
    | with_reducible assumption
    | with_reducible apply tagFreed_good
    | with_reducible apply mrFail_good
    | with_reducible apply dropWrite_good
    | exact and_reserved (by decide)
    | exact reg_merge (by assumption) (by decide)
    | exact and_left_reserved (reg_reserved (by assumption) _)
    | with_reducible apply Good.ite
    | with_reducible apply Good.ite1
    | with_reducible apply Good.ite2
    | fail_if_no_progress (with_reducible apply Good.upd)
    | fail_if_no_progress (with_reducible refine Good.updTim ?_ rfl)
    | fail_if_no_progress (with_reducible refine Good.updTim0 ?_ rfl)
    | fail_if_no_progress (with_reducible refine Good.updRegs ?_ rfl rfl rfl rfl)
    | (intro _; try intros; try extract_lets)
    | split

theorem roundTimeout_good {s : State}
    (gs : Good pq s) : Good pq (roundTimeout s) := by
  unfold roundTimeout
  try extract_lets
  repeat' first
    | with_reducible assumption
    | with_reducible apply dropWrite_good
    | with_reducible apply mrFail_good
    | exact and_reserved (by decide)
    | exact reg_merge (by assumption) (by decide)
    | exact and_left_reserved (reg_reserved (by assumption) _)
    | with_reducible apply Good.ite
    | with_reducible apply Good.ite1
    | with_reducible apply Good.ite2
    | fail_if_no_progress (with_reducible apply Good.upd)
    | fail_if_no_progress (with_reducible refine Good.updTim ?_ rfl)
    | fail_if_no_progress (with_reducible refine Good.updTim0 ?_ rfl)
    | fail_if_no_progress (with_reducible refine Good.updRegs ?_ rfl rfl rfl rfl)
    | (intro _; try intros; try extract_lets)
    | split

end Sys2Proof.Machine
end

