-- ==== Sys2Proof/Laws/GoodPins.lean ====
section
/-!
SUPPORT. What each operation of Machine/Pins.lean keeps (Laws/Good.lean).
-/

namespace Sys2Proof.Machine

-- one declaration at a time: the package is compiled as one text within a limit of memory
set_option Elab.async false

variable {pq : Ghost}

theorem ppsLoss_good {s : State} (gs : Good pq s) : Good pq (ppsLoss s) := by
  have H : ∀ (due : Nat) (s1 : State), Good pq s1 → Good pq (if s1.tim.now < due then s1 else
      let s2 := notice0 0x46 0 0 0 (fault 3 2 0 6 9 0 0 { s1 with tim := { s1.tim with ppsLost := true } })
      if regB s2 (rTim 0x48) 16 then enterHold 3 s2 else s2) := by
    intro due s1 g1
    have g2 : Good pq (notice0 0x46 0 0 0 (fault 3 2 0 6 9 0 0 { s1 with tim := { s1.tim with ppsLost := true } })) :=
      notice0_good (fault_good (Good.updTim g1 rfl))
    exact Good.ite (fun _ => g1) fun _ => Good.ite (fun _ => enterHold_good g2) fun _ => g2
  unfold ppsLoss
  split
  · exact gs
  · exact H _ _ (waitUntil_good gs)

theorem ppsOutEdge_good {s : State}
    (gs : Good pq s) : Good pq (ppsOutEdge s) := by
  unfold ppsOutEdge
  try extract_lets
  repeat' first
    | with_reducible assumption
    | with_reducible apply settleRate_good
    | with_reducible apply waitUntil_good
    | exact and_reserved (by decide)
    | exact reg_merge (by assumption) (by decide)
    | exact and_left_reserved (reg_reserved (by assumption) _)
    | with_reducible apply Good.ite
    | with_reducible apply Good.ite1
    | with_reducible apply Good.ite2
    | fail_if_no_progress (with_reducible apply Good.upd)
    | fail_if_no_progress (with_reducible refine Good.updTim ?_ rfl)
    | fail_if_no_progress (with_reducible refine Good.updTim0 ?_ rfl)
    | fail_if_no_progress (with_reducible refine Good.updRegs ?_ rfl rfl rfl rfl)
    | (intro _; try intros; try extract_lets)
    | split

theorem ppsOutEnd_good {s : State} (gs : Good pq s) : Good pq (ppsOutEnd s) := by
  have H : ∀ (due : Nat) (s1 : State), Good pq s1 →
      Good pq (if s1.tim.now < due then s1 else { s1 with tim := { s1.tim with ppsOut := false } }) :=
    fun due s1 g1 => Good.ite (fun _ => g1) fun _ => Good.updTim g1 rfl
  unfold ppsOutEnd
  split
  · exact gs
  · exact H _ _ (waitUntil_good gs)

theorem todOutSend_good {s : State} (gs : Good pq s) : Good pq (todOutSend s) := by
  have H : ∀ (due : Nat) (m : State → Option (List Byte)) (o : State → Out) (s1 : State), Good pq s1 →
      Good pq (if s1.tim.now < due then s1 else
        emit (o s1) { s1 with tim := { s1.tim with todOut := m s1, todDue := false } }) :=
    fun due m o s1 g1 => Good.ite (fun _ => g1) fun _ => emit_good (Good.updTim g1 rfl)
  unfold todOutSend
  split
  · exact gs
  · exact H _ (fun s1 => some (todBytes (b2n (trace s1) + 2 * b2n s1.tim.hold + 4 * b2n (stepRecent s1))
      s1.tim.ppsOutSec (regF s1 (rTim 0x50) 0 16))) (fun s1 => .todOut (regF s1 (rTim 0x70) 2 2)
      (todLine (todBytes (b2n (trace s1) + 2 * b2n s1.tim.hold + 4 * b2n (stepRecent s1)) s1.tim.ppsOutSec
        (regF s1 (rTim 0x50) 0 16)))) _ (waitUntil_good gs)

theorem pageSync_good {s : State}
    (gs : Good pq s) : Good pq (pageSync s) := by
  unfold pageSync
  try extract_lets
  repeat' first
    | with_reducible assumption
    | with_reducible apply waitUntil_good
    | with_reducible apply clsSync_good
    | exact and_reserved (by decide)
    | exact reg_merge (by assumption) (by decide)
    | exact and_left_reserved (reg_reserved (by assumption) _)
    | with_reducible apply Good.ite
    | with_reducible apply Good.ite1
    | with_reducible apply Good.ite2
    | fail_if_no_progress (with_reducible apply Good.upd)
    | fail_if_no_progress (with_reducible refine Good.updTim ?_ rfl)
    | fail_if_no_progress (with_reducible refine Good.updTim0 ?_ rfl)
    | fail_if_no_progress (with_reducible refine Good.updRegs ?_ rfl rfl rfl rfl)
    | (intro _; try intros; try extract_lets)

theorem roundLate_good {s : State}
    (gs : Good pq s) : Good pq (roundLate s) := by
  unfold roundLate
  try extract_lets
  repeat' first
    | with_reducible assumption
    | with_reducible apply roundTimeout_good
    | with_reducible apply waitUntil_good
    | exact and_reserved (by decide)
    | exact reg_merge (by assumption) (by decide)
    | exact and_left_reserved (reg_reserved (by assumption) _)
    | with_reducible apply Good.ite
    | with_reducible apply Good.ite1
    | with_reducible apply Good.ite2
    | fail_if_no_progress (with_reducible apply Good.upd)
    | fail_if_no_progress (with_reducible refine Good.updTim ?_ rfl)
    | fail_if_no_progress (with_reducible refine Good.updTim0 ?_ rfl)
    | fail_if_no_progress (with_reducible refine Good.updRegs ?_ rfl rfl rfl rfl)
    | (intro _; try intros; try extract_lets)
    | split

end Sys2Proof.Machine
end

