-- ==== Sys2Proof/Laws/GoodUplink.lean ====
section
/-!
SUPPORT. What each operation of Machine/Uplink.lean keeps (Laws/Good.lean).
-/

namespace Sys2Proof.Machine

-- one declaration at a time: the package is compiled as one text within a limit of memory
set_option Elab.async false

variable {pq : Ghost}

theorem fcReceive_good {p last : Nat} {b : List Byte} {m : Mark} {s : State}
    (gs : Good pq s) : Good pq (fcReceive p last b m s) := by
  unfold fcReceive
  try extract_lets
  repeat' first
    | with_reducible assumption
    | with_reducible apply count1_good
    | with_reducible apply countO_good
    | with_reducible apply modUpl_good
    | with_reducible apply Good.foldl
    | with_reducible apply Good.foldl1
    | with_reducible apply Good.foldl2
    | exact and_reserved (by decide)
    | exact reg_merge (by assumption) (by decide)
    | exact and_left_reserved (reg_reserved (by assumption) _)
    | with_reducible apply Good.ite
    | with_reducible apply Good.ite1
    | with_reducible apply Good.ite2
    | fail_if_no_progress (with_reducible apply Good.upd)
    | fail_if_no_progress (with_reducible refine Good.updTim ?_ rfl)
    | fail_if_no_progress (with_reducible refine Good.updTim0 ?_ rfl)
    | fail_if_no_progress (with_reducible refine Good.updRegs ?_ rfl rfl rfl rfl)
    | (intro _; try intros; try extract_lets)

theorem countMark_good {p : Nat} {m : Mark} {b : List Byte} {s : State}
    (gs : Good pq s) : Good pq (countMark p m b s) := by
  unfold countMark
  try extract_lets
  repeat' first
    | with_reducible assumption
    | with_reducible apply count1_good
    | exact and_reserved (by decide)
    | exact reg_merge (by assumption) (by decide)
    | exact and_left_reserved (reg_reserved (by assumption) _)
    | with_reducible apply Good.ite
    | with_reducible apply Good.ite1
    | with_reducible apply Good.ite2
    | fail_if_no_progress (with_reducible apply Good.upd)
    | fail_if_no_progress (with_reducible refine Good.updTim ?_ rfl)
    | fail_if_no_progress (with_reducible refine Good.updTim0 ?_ rfl)
    | fail_if_no_progress (with_reducible refine Good.updRegs ?_ rfl rfl rfl rfl)
    | (intro _; try intros; try extract_lets)
    | split

theorem portTake_good {p : Nat} {bytes : List Byte} {rxErr looped full : Bool} {stamp last : Nat} {ue : Option Word} {s : State}
    (gs : Good pq s) : Good pq (portTake p bytes rxErr looped full stamp last ue s) := by
  unfold portTake
  try extract_lets
  repeat' first
    | with_reducible assumption
    | with_reducible apply count1_good
    | with_reducible apply completeAt_good
    | with_reducible apply countMark_good
    | with_reducible apply countN_good
    | with_reducible apply fcReceive_good
    | with_reducible apply ingress_good
    | exact and_reserved (by decide)
    | exact reg_merge (by assumption) (by decide)
    | exact and_left_reserved (reg_reserved (by assumption) _)
    | with_reducible apply Good.ite
    | with_reducible apply Good.ite1
    | with_reducible apply Good.ite2
    | fail_if_no_progress (with_reducible apply Good.upd)
    | fail_if_no_progress (with_reducible refine Good.updTim ?_ rfl)
    | fail_if_no_progress (with_reducible refine Good.updTim0 ?_ rfl)
    | fail_if_no_progress (with_reducible refine Good.updRegs ?_ rfl rfl rfl rfl)
    | (intro _; try intros; try extract_lets)

theorem portReceive_good {p : Nat} {bytes : List Byte} {rxErr full : Bool} {ph : Nat} {ue : Option Word} {s : State}
    (gs : Good pq s) : Good pq (portReceive p bytes rxErr full ph ue s) := by
  unfold portReceive
  try extract_lets
  repeat' first
    | with_reducible assumption
    | with_reducible apply count1_good
    | with_reducible apply portTake_good
    | exact and_reserved (by decide)
    | exact reg_merge (by assumption) (by decide)
    | exact and_left_reserved (reg_reserved (by assumption) _)
    | with_reducible apply Good.ite
    | with_reducible apply Good.ite1
    | with_reducible apply Good.ite2
    | fail_if_no_progress (with_reducible apply Good.upd)
    | fail_if_no_progress (with_reducible refine Good.updTim ?_ rfl)
    | fail_if_no_progress (with_reducible refine Good.updTim0 ?_ rfl)
    | fail_if_no_progress (with_reducible refine Good.updRegs ?_ rfl rfl rfl rfl)
    | (intro _; try intros; try extract_lets)

theorem pauseExpire_good {p i : Nat} {s : State}
    (gs : Good pq s) : Good pq (pauseExpire p i s) := by
  unfold pauseExpire
  try extract_lets
  repeat' first
    | with_reducible assumption
    | with_reducible apply waitUntil_good
    | with_reducible apply modUpl_good
    | exact and_reserved (by decide)
    | exact reg_merge (by assumption) (by decide)
    | exact and_left_reserved (reg_reserved (by assumption) _)
    | with_reducible apply Good.ite
    | with_reducible apply Good.ite1
    | with_reducible apply Good.ite2
    | fail_if_no_progress (with_reducible apply Good.upd)
    | fail_if_no_progress (with_reducible refine Good.updTim ?_ rfl)
    | fail_if_no_progress (with_reducible refine Good.updTim0 ?_ rfl)
    | fail_if_no_progress (with_reducible refine Good.updRegs ?_ rfl rfl rfl rfl)
    | (intro _; try intros; try extract_lets)
    | split

theorem portEmit_good {p : Nat} {b : List Byte} {err : Bool} {s : State}
    (gs : Good pq s) : Good pq (portEmit p b err s) := by
  unfold portEmit
  try extract_lets
  repeat' first
    | with_reducible assumption
    | with_reducible apply emit_good
    | exact and_reserved (by decide)
    | exact reg_merge (by assumption) (by decide)
    | exact and_left_reserved (reg_reserved (by assumption) _)
    | with_reducible apply Good.ite
    | with_reducible apply Good.ite1
    | with_reducible apply Good.ite2
    | fail_if_no_progress (with_reducible apply Good.upd)
    | fail_if_no_progress (with_reducible refine Good.updTim ?_ rfl)
    | fail_if_no_progress (with_reducible refine Good.updTim0 ?_ rfl)
    | fail_if_no_progress (with_reducible refine Good.updRegs ?_ rfl rfl rfl rfl)
    | (intro _; try intros; try extract_lets)

theorem fcSend_good {p : Nat} {due : BitVec 8} {s : State}
    (gs : Good pq s) : Good pq (fcSend p due s) := by
  unfold fcSend
  try extract_lets
  repeat' first
    | with_reducible assumption
    | with_reducible apply modUpl_good
    | with_reducible apply count1_good
    | with_reducible apply portEmit_good
    | with_reducible apply portTake_good
    | with_reducible apply Good.foldl
    | with_reducible apply Good.foldl1
    | with_reducible apply Good.foldl2
    | exact and_reserved (by decide)
    | exact reg_merge (by assumption) (by decide)
    | exact and_left_reserved (reg_reserved (by assumption) _)
    | with_reducible apply Good.ite
    | with_reducible apply Good.ite1
    | with_reducible apply Good.ite2
    | fail_if_no_progress (with_reducible apply Good.upd)
    | fail_if_no_progress (with_reducible refine Good.updTim ?_ rfl)
    | fail_if_no_progress (with_reducible refine Good.updTim0 ?_ rfl)
    | fail_if_no_progress (with_reducible refine Good.updRegs ?_ rfl rfl rfl rfl)
    | (intro _; try intros; try extract_lets)

theorem fcResend_good {p : Nat} {s : State}
    (gs : Good pq s) : Good pq (fcResend p s) := by
  unfold fcResend
  try extract_lets
  repeat' first
    | with_reducible assumption
    | with_reducible apply waitUntil_good
    | with_reducible apply fcSend_good
    | exact and_reserved (by decide)
    | exact reg_merge (by assumption) (by decide)
    | exact and_left_reserved (reg_reserved (by assumption) _)
    | with_reducible apply Good.ite
    | with_reducible apply Good.ite1
    | with_reducible apply Good.ite2
    | fail_if_no_progress (with_reducible apply Good.upd)
    | fail_if_no_progress (with_reducible refine Good.updTim ?_ rfl)
    | fail_if_no_progress (with_reducible refine Good.updTim0 ?_ rfl)
    | fail_if_no_progress (with_reducible refine Good.updRegs ?_ rfl rfl rfl rfl)
    | (intro _; try intros; try extract_lets)
    | split

theorem shaperCharge_good {p i n : Nat} {s : State}
    (gs : Good pq s) : Good pq (shaperCharge p i n s) := by
  unfold shaperCharge
  try extract_lets
  repeat' first
    | with_reducible assumption
    | with_reducible apply modUpl_good
    | exact and_reserved (by decide)
    | exact reg_merge (by assumption) (by decide)
    | exact and_left_reserved (reg_reserved (by assumption) _)
    | with_reducible apply Good.ite
    | with_reducible apply Good.ite1
    | with_reducible apply Good.ite2
    | fail_if_no_progress (with_reducible apply Good.upd)
    | fail_if_no_progress (with_reducible refine Good.updTim ?_ rfl)
    | fail_if_no_progress (with_reducible refine Good.updTim0 ?_ rfl)
    | fail_if_no_progress (with_reducible refine Good.updRegs ?_ rfl rfl rfl rfl)
    | (intro _; try intros; try extract_lets)

theorem pickQueue_good {p n i : Nat} {s : State} (gs : Good pq s) : Good pq (pickQueue p n i s).2 := by
  induction n generalizing i s with
  | zero => exact gs
  | succ n ih =>
    rw [pickQueue]
    extract_lets q
    have hdn : ∀ s, Good pq s → Good pq (if i = 0 then (none, s) else pickQueue p n (i - 1) s).2 := by
      intro s h
      split
      · exact h
      · exact ih h
    refine Good.ite2 (fun _ => hdn s gs) fun _ => Good.ite2 (fun _ => hdn s gs) fun _ => ?_
    cases queueOf s q with
    | nil => exact hdn s gs
    | cons t l =>
      dsimp only
      cases frameOf s t.frame with
      | none => exact ih (popHead_good gs)
      | some f =>
        refine Good.ite2 (fun _ => hdn s gs) fun _ => ?_
        refine Good.ite2 (fun _ => ih (release1_good (popHead_good (count1_good gs)))) fun _ => ?_
        refine Good.ite2 (fun _ => ih (release1_good (popHead_good gs))) fun _ => ?_
        refine Good.ite2 (fun _ => ih (release1_good (popHead_good (count1_good gs)))) fun _ => ?_
        exact Good.ite2 (fun _ => hdn _ (wakeGroups_good gs)) fun _ => wakeGroups_good gs

theorem ptpUpdate_good {p stamp : Nat} {f : Frame} {b : List Byte} {s : State} (gs : Good pq s) :
    Good pq (ptpUpdate p stamp f b s).2 := by
  unfold ptpUpdate
  cases ptpOf f with
  | none => exact gs
  | some o =>
    dsimp -zeta only
    extract_lets pad origin d rx s1
    have hp : ∀ s r, Good pq s → Good pq (pad s r).2 := by
      intro s r h
      cases r with
      | some x => exact h
      | none => exact count1_good h
    have g1 : Good pq s1 := Good.ite (fun _ => count1_good gs) fun _ => gs
    clear_value pad
    refine Good.ite2 (fun _ => Good.ite2 (fun _ => count1_good gs) fun _ => hp _ _ gs) fun _ => ?_
    exact Good.ite2 (fun _ => hp _ _ g1) fun _ => gs

theorem takeTxStamp_good {p n stamp : Nat} {f : Frame} {s : State}
    (gs : Good pq s) : Good pq (takeTxStamp p n stamp f s) := by
  unfold takeTxStamp
  try extract_lets
  repeat' first
    | with_reducible assumption
    | with_reducible apply setFrame_good
    | with_reducible apply setRing_good
    | with_reducible apply count1_good
    | with_reducible apply setUpl_good
    | exact and_reserved (by decide)
    | exact reg_merge (by assumption) (by decide)
    | exact and_left_reserved (reg_reserved (by assumption) _)
    | with_reducible apply Good.ite
    | with_reducible apply Good.ite1
    | with_reducible apply Good.ite2
    | fail_if_no_progress (with_reducible apply Good.upd)
    | fail_if_no_progress (with_reducible refine Good.updTim ?_ rfl)
    | fail_if_no_progress (with_reducible refine Good.updTim0 ?_ rfl)
    | fail_if_no_progress (with_reducible refine Good.updRegs ?_ rfl rfl rfl rfl)
    | (intro _; try intros; try extract_lets)
    | split

theorem probeLeaves_good {p n len : Nat} {s : State}
    (gs : Good pq s) : Good pq (probeLeaves p n len s) := by
  unfold probeLeaves
  try extract_lets
  repeat' first
    | with_reducible assumption
    | with_reducible apply setVq_good
    | with_reducible apply Good.foldl
    | with_reducible apply Good.foldl1
    | with_reducible apply Good.foldl2
    | exact and_reserved (by decide)
    | exact reg_merge (by assumption) (by decide)
    | exact and_left_reserved (reg_reserved (by assumption) _)
    | with_reducible apply Good.ite
    | with_reducible apply Good.ite1
    | with_reducible apply Good.ite2
    | fail_if_no_progress (with_reducible apply Good.upd)
    | fail_if_no_progress (with_reducible refine Good.updTim ?_ rfl)
    | fail_if_no_progress (with_reducible refine Good.updTim0 ?_ rfl)
    | fail_if_no_progress (with_reducible refine Good.updRegs ?_ rfl rfl rfl rfl)
    | (intro _; try intros; try extract_lets)
    | split

theorem sentPart_good {q : Nat} {t : Token} {f : Frame} {s : State}
    (gs : Good pq s) : Good pq (sentPart q t f s) := by
  unfold sentPart
  try extract_lets
  repeat' first
    | with_reducible assumption
    | with_reducible apply release1_good
    | with_reducible apply popHead_good
    | exact and_reserved (by decide)
    | exact reg_merge (by assumption) (by decide)
    | exact and_left_reserved (reg_reserved (by assumption) _)
    | with_reducible apply Good.ite
    | with_reducible apply Good.ite1
    | with_reducible apply Good.ite2
    | fail_if_no_progress (with_reducible apply Good.upd)
    | fail_if_no_progress (with_reducible refine Good.updTim ?_ rfl)
    | fail_if_no_progress (with_reducible refine Good.updTim0 ?_ rfl)
    | fail_if_no_progress (with_reducible refine Good.updRegs ?_ rfl rfl rfl rfl)
    | (intro _; try intros; try extract_lets)

theorem startFrame_good {p i : Nat} {t : Token} {f : Frame} {full : Nat} {x : Sent} {stamp : Nat} {keep : Bool} {s : State}
    (gs : Good pq s) : Good pq (startFrame p i t f full x stamp keep s) := by
  unfold startFrame
  try extract_lets
  repeat' first
    | with_reducible assumption
    | with_reducible apply count1_good
    | with_reducible apply completeAt_good
    | with_reducible apply modUpl_good
    | with_reducible apply countN_good
    | with_reducible apply objAdd_good
    | with_reducible apply shaperCharge_good
    | with_reducible apply probeLeaves_good
    | with_reducible apply takeTxStamp_good
    | with_reducible apply leaves_good
    | with_reducible apply portEmit_good
    | with_reducible apply logStart_good
    | with_reducible apply sentPart_good
    | with_reducible apply portTake_good
    | exact and_reserved (by decide)
    | exact reg_merge (by assumption) (by decide)
    | exact and_left_reserved (reg_reserved (by assumption) _)
    | with_reducible apply Good.ite
    | with_reducible apply Good.ite1
    | with_reducible apply Good.ite2
    | fail_if_no_progress (with_reducible apply Good.upd)
    | fail_if_no_progress (with_reducible refine Good.updTim ?_ rfl)
    | fail_if_no_progress (with_reducible refine Good.updTim0 ?_ rfl)
    | fail_if_no_progress (with_reducible refine Good.updRegs ?_ rfl rfl rfl rfl)
    | (intro _; try intros; try extract_lets)

theorem e2eDrop_good {p i n : Nat} {s : State}
    (gs : Good pq s) : Good pq (e2eDrop p i n s) := by
  unfold e2eDrop
  try extract_lets
  repeat' first
    | with_reducible assumption
    | with_reducible apply count1_good
    | with_reducible apply withdrawIf_good
    | with_reducible apply modUpl_good

theorem headBytes_good {p i stamp : Nat} {f : Frame} {s : State}
    (gs : Good pq s) : Good pq (headBytes p i stamp f s).2 := by
  unfold headBytes
  try extract_lets
  repeat' first
    | with_reducible assumption
    | with_reducible apply ptpUpdate_good
    | exact and_reserved (by decide)
    | exact reg_merge (by assumption) (by decide)
    | exact and_left_reserved (reg_reserved (by assumption) _)
    | with_reducible apply Good.ite
    | with_reducible apply Good.ite1
    | with_reducible apply Good.ite2
    | fail_if_no_progress (with_reducible apply Good.upd)
    | fail_if_no_progress (with_reducible refine Good.updTim ?_ rfl)
    | fail_if_no_progress (with_reducible refine Good.updTim0 ?_ rfl)
    | fail_if_no_progress (with_reducible refine Good.updRegs ?_ rfl rfl rfl rfl)
    | (intro _; try intros; try extract_lets)

theorem transmitCell_good {p i : Nat} {t : Token} {f : Frame} {b : List Byte} {stamp m : Nat} {s : State}
    (gs : Good pq s) : Good pq (transmitCell p i t f b stamp m s) := by
  unfold transmitCell
  try extract_lets
  repeat' first
    | with_reducible assumption
    | with_reducible apply cellFail_good
    | with_reducible apply withdrawIf_good
    | with_reducible apply sentPart_good
    | with_reducible apply startFrame_good
    | exact and_reserved (by decide)
    | exact reg_merge (by assumption) (by decide)
    | exact and_left_reserved (reg_reserved (by assumption) _)
    | with_reducible apply Good.ite
    | with_reducible apply Good.ite1
    | with_reducible apply Good.ite2
    | fail_if_no_progress (with_reducible apply Good.upd)
    | fail_if_no_progress (with_reducible refine Good.updTim ?_ rfl)
    | fail_if_no_progress (with_reducible refine Good.updTim0 ?_ rfl)
    | fail_if_no_progress (with_reducible refine Good.updRegs ?_ rfl rfl rfl rfl)
    | (intro _; try intros; try extract_lets)

theorem transmitLink_good {p i : Nat} {t : Token} {f : Frame} {b : List Byte} {stamp k : Nat} {s : State}
    (gs : Good pq s) : Good pq (transmitLink p i t f b stamp k s) := by
  unfold transmitLink
  try extract_lets
  repeat' first
    | with_reducible assumption
    | with_reducible apply setFrame_good
    | with_reducible apply release1_good
    | with_reducible apply linkFail_good
    | with_reducible apply startFrame_good

theorem transmit_good {p i : Nat} {ph : TxPh} {t : Token} {f : Frame} {feed : TxFeed} {s : State}
    (gs : Good pq s) : Good pq (transmit p i ph t f feed s) := by
  unfold transmit
  try extract_lets
  repeat' first
    | with_reducible assumption
    | with_reducible apply headBytes_good
    | with_reducible apply startFrame_good
    | with_reducible apply count1_good
    | with_reducible apply transmitCell_good
    | with_reducible apply transmitLink_good
    | with_reducible apply useFree_good
    | with_reducible apply fault_good
    | with_reducible apply e2eDrop_good
    | with_reducible apply declareFault_good
    | with_reducible apply setFrame_good
    | exact and_reserved (by decide)
    | exact reg_merge (by assumption) (by decide)
    | exact and_left_reserved (reg_reserved (by assumption) _)
    | with_reducible apply Good.ite
    | with_reducible apply Good.ite1
    | with_reducible apply Good.ite2
    | fail_if_no_progress (with_reducible apply Good.upd)
    | fail_if_no_progress (with_reducible refine Good.updTim ?_ rfl)
    | fail_if_no_progress (with_reducible refine Good.updTim0 ?_ rfl)
    | fail_if_no_progress (with_reducible refine Good.updRegs ?_ rfl rfl rfl rfl)
    | (intro _; try intros; try extract_lets)
    | split

theorem turnHead_good {p i : Nat} {t : Token} {f : Frame} {s : State}
    (gs : Good pq s) : Good pq (turnHead p i t f s) := by
  unfold turnHead
  try extract_lets
  repeat' first
    | with_reducible assumption
    | with_reducible apply portTake_good
    | with_reducible apply sentPart_good
    | with_reducible apply logStart_good
    | with_reducible apply leaves_good
    | with_reducible apply modUpl_good
    | with_reducible apply shaperCharge_good
    | with_reducible apply count1_good

theorem portNext_good {p : Nat} {ph : TxPh} {feed : TxFeed} {s : State} (gs : Good pq s) : Good pq (portNext p ph feed s) := by
  unfold portNext
  extract_lets n
  refine Good.ite (fun _ => fcSend_good gs) fun _ => Good.ite (fun _ => gs) fun _ => ?_
  have gp : Good pq (pickQueue p n 7 s).2 := pickQueue_good gs
  generalize pickQueue p n 7 s = x at gp
  obtain ⟨_ | ⟨i, t, f⟩, s1⟩ := x
  · exact gp
  · exact Good.ite (fun _ => turnHead_good gp) fun _ => transmit_good gp

theorem portTransmit_good {p : Nat} {ph : TxPh} {feed : TxFeed} {s : State}
    (gs : Good pq s) : Good pq (portTransmit p ph feed s) := by
  unfold portTransmit
  try extract_lets
  repeat' first
    | with_reducible assumption
    | with_reducible apply waitUntil_good
    | with_reducible apply portNext_good
    | exact and_reserved (by decide)
    | exact reg_merge (by assumption) (by decide)
    | exact and_left_reserved (reg_reserved (by assumption) _)
    | with_reducible apply Good.ite
    | with_reducible apply Good.ite1
    | with_reducible apply Good.ite2
    | fail_if_no_progress (with_reducible apply Good.upd)
    | fail_if_no_progress (with_reducible refine Good.updTim ?_ rfl)
    | fail_if_no_progress (with_reducible refine Good.updTim0 ?_ rfl)
    | fail_if_no_progress (with_reducible refine Good.updRegs ?_ rfl rfl rfl rfl)
    | (intro _; try intros; try extract_lets)

theorem linkDown_good {p : Nat} {s : State}
    (gs : Good pq s) : Good pq (linkDown p s) := by
  unfold linkDown
  try extract_lets
  repeat' first
    | with_reducible assumption
    | with_reducible apply modUpl_good
    | with_reducible apply portDown_good
    | exact and_reserved (by decide)
    | exact reg_merge (by assumption) (by decide)
    | exact and_left_reserved (reg_reserved (by assumption) _)
    | with_reducible apply Good.ite
    | with_reducible apply Good.ite1
    | with_reducible apply Good.ite2
    | fail_if_no_progress (with_reducible apply Good.upd)
    | fail_if_no_progress (with_reducible refine Good.updTim ?_ rfl)
    | fail_if_no_progress (with_reducible refine Good.updTim0 ?_ rfl)
    | fail_if_no_progress (with_reducible refine Good.updRegs ?_ rfl rfl rfl rfl)
    | (intro _; try intros; try extract_lets)

theorem linkUp_good {p : Nat} {s : State}
    (gs : Good pq s) : Good pq (linkUp p s) := by
  unfold linkUp
  try extract_lets
  repeat' first
    | with_reducible assumption
    | with_reducible apply modUpl_good
    | exact and_reserved (by decide)
    | exact reg_merge (by assumption) (by decide)
    | exact and_left_reserved (reg_reserved (by assumption) _)
    | with_reducible apply Good.ite
    | with_reducible apply Good.ite1
    | with_reducible apply Good.ite2
    | fail_if_no_progress (with_reducible apply Good.upd)
    | fail_if_no_progress (with_reducible refine Good.updTim ?_ rfl)
    | fail_if_no_progress (with_reducible refine Good.updTim0 ?_ rfl)
    | fail_if_no_progress (with_reducible refine Good.updRegs ?_ rfl rfl rfl rfl)
    | (intro _; try intros; try extract_lets)

theorem lagRejoin_good {p : Nat} {s : State}
    (gs : Good pq s) : Good pq (lagRejoin p s) := by
  unfold lagRejoin
  try extract_lets
  repeat' first
    | with_reducible assumption
    | with_reducible apply modUpl_good
    | exact and_reserved (by decide)
    | exact reg_merge (by assumption) (by decide)
    | exact and_left_reserved (reg_reserved (by assumption) _)
    | with_reducible apply Good.ite
    | with_reducible apply Good.ite1
    | with_reducible apply Good.ite2
    | fail_if_no_progress (with_reducible apply Good.upd)
    | fail_if_no_progress (with_reducible refine Good.updTim ?_ rfl)
    | fail_if_no_progress (with_reducible refine Good.updTim0 ?_ rfl)
    | fail_if_no_progress (with_reducible refine Good.updRegs ?_ rfl rfl rfl rfl)
    | (intro _; try intros; try extract_lets)

set_option maxRecDepth 20000 in
theorem uplCfgMask {p : Nat} (hp : p < 16) : regMask (rUpl p 0) = 3 := by
  revert p; decide

theorem writeUplCfg_good {p : Nat} {data : Word} {s : State} (hp : p < 16) (gs : Good pq s) : Good pq (writeUplCfg p data s) := by
  unfold writeUplCfg
  extract_lets a s1
  have g1 : Good pq s1 := setReg_good gs (by rw [uplCfgMask hp]; exact and_not_self' data 3)
  exact Good.ite (fun _ => modUpl_good g1) fun _ => Good.ite (fun _ => g1) fun _ => modUpl_good g1

end Sys2Proof.Machine
end

