-- ==== Sys2Proof/Laws/GoodPower.lean ====
section
/-!
SUPPORT. What each operation of Machine/Power.lean keeps (Laws/Good.lean).
-/

namespace Sys2Proof.Machine

-- one declaration at a time: the package is compiled as one text within a limit of memory
set_option Elab.async false

variable {pq : Ghost}

theorem request_good {d tgt : Nat} {s : State}
    (gs : Good pq s) : Good pq (request d tgt s) := by
  unfold request
  try extract_lets
  repeat' first
    | with_reducible assumption
    | with_reducible apply countO_good
    | with_reducible apply reqRefused_good
    | with_reducible apply startReq_good
    | with_reducible apply setPdom_good
    | exact and_reserved (by decide)
    | exact reg_merge (by assumption) (by decide)
    | exact and_left_reserved (reg_reserved (by assumption) _)
    | with_reducible apply Good.ite
    | with_reducible apply Good.ite1
    | with_reducible apply Good.ite2
    | fail_if_no_progress (with_reducible apply Good.upd)
    | fail_if_no_progress (with_reducible refine Good.updTim ?_ rfl)
    | fail_if_no_progress (with_reducible refine Good.updTim0 ?_ rfl)
    | fail_if_no_progress (with_reducible refine Good.updRegs ?_ rfl rfl rfl rfl)
    | (intro _; try intros; try extract_lets)

theorem writePwrReq_good {data : Word} {s : State}
    (gs : Good pq s) : Good pq (writePwrReq data s) := by
  unfold writePwrReq
  try extract_lets
  repeat' first
    | with_reducible assumption
    | with_reducible apply request_good

theorem refuseCur_good {d cause : Nat} {s : State}
    (gs : Good pq s) : Good pq (refuseCur d cause s) := by
  unfold refuseCur
  try extract_lets
  repeat' first
    | with_reducible assumption
    | with_reducible apply modPdom_good
    | with_reducible apply wake_good
    | with_reducible apply endReq_good
    | with_reducible apply askUnits_good
    | with_reducible apply nextReq_good
    | with_reducible apply reqRefused_good

theorem latchAns_good {d : Nat} {l : List UnitAns} {s : State}
    (gs : Good pq s) : Good pq (latchAns d l s) := by
  unfold latchAns
  try extract_lets
  repeat' first
    | with_reducible assumption
    | with_reducible apply modPdom_good

theorem startEntry_good {d : Nat} {s : State}
    (gs : Good pq s) : Good pq (startEntry d s) := by
  unfold startEntry
  try extract_lets
  repeat' first
    | with_reducible assumption
    | with_reducible apply modPdom_good

theorem handshake_good {d : Nat} {s : State}
    (gs : Good pq s) : Good pq (handshake d s) := by
  unfold handshake
  try extract_lets
  repeat' first
    | with_reducible assumption
    | with_reducible apply waitUntil_good
    | with_reducible apply refuseCur_good
    | with_reducible apply latchAns_good
    | with_reducible apply startEntry_good
    | exact and_reserved (by decide)
    | exact reg_merge (by assumption) (by decide)
    | exact and_left_reserved (reg_reserved (by assumption) _)
    | with_reducible apply Good.ite
    | with_reducible apply Good.ite1
    | with_reducible apply Good.ite2
    | fail_if_no_progress (with_reducible apply Good.upd)
    | fail_if_no_progress (with_reducible refine Good.updTim ?_ rfl)
    | fail_if_no_progress (with_reducible refine Good.updTim0 ?_ rfl)
    | fail_if_no_progress (with_reducible refine Good.updRegs ?_ rfl rfl rfl rfl)
    | (intro _; try intros; try extract_lets)
    | split

theorem delayLimit_good {d : Nat} {s : State}
    (gs : Good pq s) : Good pq (delayLimit d s) := by
  unfold delayLimit
  try extract_lets
  repeat' first
    | with_reducible assumption
    | with_reducible apply waitUntil_good
    | with_reducible apply refuseCur_good
    | exact and_reserved (by decide)
    | exact reg_merge (by assumption) (by decide)
    | exact and_left_reserved (reg_reserved (by assumption) _)
    | with_reducible apply Good.ite
    | with_reducible apply Good.ite1
    | with_reducible apply Good.ite2
    | fail_if_no_progress (with_reducible apply Good.upd)
    | fail_if_no_progress (with_reducible refine Good.updTim ?_ rfl)
    | fail_if_no_progress (with_reducible refine Good.updTim0 ?_ rfl)
    | fail_if_no_progress (with_reducible refine Good.updRegs ?_ rfl rfl rfl rfl)
    | (intro _; try intros; try extract_lets)
    | split

theorem churnLatch_good {s : State}
    (gs : Good pq s) : Good pq (churnLatch s) := by
  unfold churnLatch
  try extract_lets
  repeat' first
    | with_reducible assumption
    | with_reducible apply modPdom_good
    | with_reducible apply Good.foldl
    | with_reducible apply Good.foldl1
    | with_reducible apply Good.foldl2
    | exact and_reserved (by decide)
    | exact reg_merge (by assumption) (by decide)
    | exact and_left_reserved (reg_reserved (by assumption) _)
    | with_reducible apply Good.ite
    | with_reducible apply Good.ite1
    | with_reducible apply Good.ite2
    | fail_if_no_progress (with_reducible apply Good.upd)
    | fail_if_no_progress (with_reducible refine Good.updTim ?_ rfl)
    | fail_if_no_progress (with_reducible refine Good.updTim0 ?_ rfl)
    | fail_if_no_progress (with_reducible refine Good.updRegs ?_ rfl rfl rfl rfl)
    | (intro _; try intros; try extract_lets)

theorem treeLatch_good {s : State}
    (gs : Good pq s) : Good pq (treeLatch s) := by
  unfold treeLatch
  try extract_lets
  repeat' first
    | with_reducible assumption
    | with_reducible apply latchAns_good
    | with_reducible apply startEntry_good
    | with_reducible apply Good.foldl
    | with_reducible apply Good.foldl1
    | with_reducible apply Good.foldl2
    | exact and_reserved (by decide)
    | exact reg_merge (by assumption) (by decide)
    | exact and_left_reserved (reg_reserved (by assumption) _)
    | with_reducible apply Good.ite
    | with_reducible apply Good.ite1
    | with_reducible apply Good.ite2
    | fail_if_no_progress (with_reducible apply Good.upd)
    | fail_if_no_progress (with_reducible refine Good.updTim ?_ rfl)
    | fail_if_no_progress (with_reducible refine Good.updTim0 ?_ rfl)
    | fail_if_no_progress (with_reducible refine Good.updRegs ?_ rfl rfl rfl rfl)
    | (intro _; try intros; try extract_lets)

theorem undoEntry_good {d due : Nat} {s : State}
    (gs : Good pq s) : Good pq (undoEntry d due s) := by
  unfold undoEntry
  try extract_lets
  repeat' first
    | with_reducible assumption
    | with_reducible apply modPdom_good
    | with_reducible apply undone_good
    | with_reducible apply waitUntil_good
    | with_reducible apply atCycle_good
    | exact and_reserved (by decide)
    | exact reg_merge (by assumption) (by decide)
    | exact and_left_reserved (reg_reserved (by assumption) _)
    | with_reducible apply Good.ite
    | with_reducible apply Good.ite1
    | with_reducible apply Good.ite2
    | fail_if_no_progress (with_reducible apply Good.upd)
    | fail_if_no_progress (with_reducible refine Good.updTim ?_ rfl)
    | fail_if_no_progress (with_reducible refine Good.updTim0 ?_ rfl)
    | fail_if_no_progress (with_reducible refine Good.updRegs ?_ rfl rfl rfl rfl)
    | (intro _; try intros; try extract_lets)

theorem passPoint_good {d : Nat} {p : PDom} {s : State}
    (gs : Good pq s) : Good pq (passPoint d p s) := by
  unfold passPoint
  try extract_lets
  repeat' first
    | with_reducible assumption
    | with_reducible apply domLeaves_good
    | with_reducible apply setPdom_good
    | exact and_reserved (by decide)
    | exact reg_merge (by assumption) (by decide)
    | exact and_left_reserved (reg_reserved (by assumption) _)
    | with_reducible apply Good.ite
    | with_reducible apply Good.ite1
    | with_reducible apply Good.ite2
    | fail_if_no_progress (with_reducible apply Good.upd)
    | fail_if_no_progress (with_reducible refine Good.updTim ?_ rfl)
    | fail_if_no_progress (with_reducible refine Good.updTim0 ?_ rfl)
    | fail_if_no_progress (with_reducible refine Good.updRegs ?_ rfl rfl rfl rfl)
    | (intro _; try intros; try extract_lets)

theorem abortPoint_good {d : Nat} {s : State}
    (gs : Good pq s) : Good pq (abortPoint d s) := by
  unfold abortPoint
  try extract_lets
  repeat' first
    | with_reducible assumption
    | with_reducible apply waitUntil_good
    | with_reducible apply passPoint_good
    | with_reducible apply undoEntry_good
    | exact and_reserved (by decide)
    | exact reg_merge (by assumption) (by decide)
    | exact and_left_reserved (reg_reserved (by assumption) _)
    | with_reducible apply Good.ite
    | with_reducible apply Good.ite1
    | with_reducible apply Good.ite2
    | fail_if_no_progress (with_reducible apply Good.upd)
    | fail_if_no_progress (with_reducible refine Good.updTim ?_ rfl)
    | fail_if_no_progress (with_reducible refine Good.updTim0 ?_ rfl)
    | fail_if_no_progress (with_reducible refine Good.updRegs ?_ rfl rfl rfl rfl)
    | (intro _; try intros; try extract_lets)

theorem loseTree_good {t : Nat} {kept : BitVec 2} {s : State}
    (gs : Good pq s) : Good pq (loseTree t kept s) := by
  unfold loseTree
  try extract_lets
  repeat' first
    | with_reducible assumption
    | with_reducible apply release1_good
    | with_reducible apply discardSel_good
    | with_reducible apply modTre_good
    | with_reducible apply Good.foldl
    | with_reducible apply Good.foldl1
    | with_reducible apply Good.foldl2
    | exact and_reserved (by decide)
    | exact reg_merge (by assumption) (by decide)
    | exact and_left_reserved (reg_reserved (by assumption) _)
    | with_reducible apply Good.ite
    | with_reducible apply Good.ite1
    | with_reducible apply Good.ite2
    | fail_if_no_progress (with_reducible apply Good.upd)
    | fail_if_no_progress (with_reducible refine Good.updTim ?_ rfl)
    | fail_if_no_progress (with_reducible refine Good.updTim0 ?_ rfl)
    | fail_if_no_progress (with_reducible refine Good.updRegs ?_ rfl rfl rfl rfl)
    | (intro _; try intros; try extract_lets)

theorem rebindTree_good {t : Nat} {s : State}
    (gs : Good pq s) : Good pq (rebindTree t s) := by
  unfold rebindTree
  try extract_lets
  repeat' first
    | with_reducible assumption
    | with_reducible apply modChn_good

theorem loseUpl_good {p : Nat} {s : State}
    (gs : Good pq s) : Good pq (loseUpl p s) := by
  unfold loseUpl
  try extract_lets
  repeat' first
    | with_reducible assumption
    | with_reducible apply modUpl_good

theorem loseRings_good {s : State}
    (gs : Good pq s) : Good pq (loseRings s) := by
  unfold loseRings
  try extract_lets
  repeat' first
    | with_reducible assumption
    | with_reducible apply detachSends_good
    | with_reducible apply flushQueue_good
    | with_reducible apply orphanReads_good
    | with_reducible apply Good.foldl
    | with_reducible apply Good.foldl1
    | with_reducible apply Good.foldl2
    | exact and_reserved (by decide)
    | exact reg_merge (by assumption) (by decide)
    | exact and_left_reserved (reg_reserved (by assumption) _)
    | with_reducible apply Good.ite
    | with_reducible apply Good.ite1
    | with_reducible apply Good.ite2
    | fail_if_no_progress (with_reducible apply Good.upd)
    | fail_if_no_progress (with_reducible refine Good.updTim ?_ rfl)
    | fail_if_no_progress (with_reducible refine Good.updTim0 ?_ rfl)
    | fail_if_no_progress (with_reducible refine Good.updRegs ?_ rfl rfl rfl rfl)
    | (intro _; try intros; try extract_lets)

theorem loseSlice_good {i : Nat} {kept : BitVec 2} {s : State}
    (gs : Good pq s) : Good pq (loseSlice i kept s) := by
  unfold loseSlice
  try extract_lets
  repeat' first
    | with_reducible assumption
    | with_reducible apply modChn_good
    | with_reducible apply Good.foldl
    | with_reducible apply Good.foldl1
    | with_reducible apply Good.foldl2
    | exact and_reserved (by decide)
    | exact reg_merge (by assumption) (by decide)
    | exact and_left_reserved (reg_reserved (by assumption) _)
    | with_reducible apply Good.ite
    | with_reducible apply Good.ite1
    | with_reducible apply Good.ite2
    | fail_if_no_progress (with_reducible apply Good.upd)
    | fail_if_no_progress (with_reducible refine Good.updTim ?_ rfl)
    | fail_if_no_progress (with_reducible refine Good.updTim0 ?_ rfl)
    | fail_if_no_progress (with_reducible refine Good.updRegs ?_ rfl rfl rfl rfl)
    | (intro _; try intros; try extract_lets)

theorem loseMemories_good {d : Nat} {kept : BitVec 2} {s : State}
    (gs : Good pq s) : Good pq (loseMemories d kept s) := by
  unfold loseMemories
  try extract_lets
  repeat' first
    | with_reducible assumption
    | with_reducible apply loseTree_good
    | with_reducible apply rebindTree_good
    | with_reducible apply loseUpl_good
    | with_reducible apply loseRings_good
    | with_reducible apply loseSlice_good
    | exact and_reserved (by decide)
    | exact reg_merge (by assumption) (by decide)
    | exact and_left_reserved (reg_reserved (by assumption) _)
    | with_reducible apply Good.ite
    | with_reducible apply Good.ite1
    | with_reducible apply Good.ite2
    | fail_if_no_progress (with_reducible apply Good.upd)
    | fail_if_no_progress (with_reducible refine Good.updTim ?_ rfl)
    | fail_if_no_progress (with_reducible refine Good.updTim0 ?_ rfl)
    | fail_if_no_progress (with_reducible refine Good.updRegs ?_ rfl rfl rfl rfl)
    | (intro _; try intros; try extract_lets)

theorem ackRise_good {d : Nat} {s : State}
    (gs : Good pq s) : Good pq (ackRise d s) := by
  unfold ackRise
  try extract_lets
  repeat' first
    | with_reducible assumption
    | with_reducible apply setPdom_good
    | with_reducible apply nextReq_good
    | with_reducible apply reqDone_good
    | with_reducible apply loseMemories_good
    | exact and_reserved (by decide)
    | exact reg_merge (by assumption) (by decide)
    | exact and_left_reserved (reg_reserved (by assumption) _)
    | with_reducible apply Good.ite
    | with_reducible apply Good.ite1
    | with_reducible apply Good.ite2
    | fail_if_no_progress (with_reducible apply Good.upd)
    | fail_if_no_progress (with_reducible refine Good.updTim ?_ rfl)
    | fail_if_no_progress (with_reducible refine Good.updTim0 ?_ rfl)
    | fail_if_no_progress (with_reducible refine Good.updRegs ?_ rfl rfl rfl rfl)
    | (intro _; try intros; try extract_lets)

theorem stateTmo_good {d : Nat} {s : State}
    (gs : Good pq s) : Good pq (stateTmo d s) := by
  unfold stateTmo
  try extract_lets
  repeat' first
    | with_reducible assumption
    | with_reducible apply fault_good

theorem entryTimeout_good {d : Nat} {s : State}
    (gs : Good pq s) : Good pq (entryTimeout d s) := by
  unfold entryTimeout
  try extract_lets
  repeat' first
    | with_reducible assumption
    | with_reducible apply waitUntil_good
    | with_reducible apply undoEntry_good
    | with_reducible apply stateTmo_good
    | with_reducible apply countO_good
    | exact and_reserved (by decide)
    | exact reg_merge (by assumption) (by decide)
    | exact and_left_reserved (reg_reserved (by assumption) _)
    | with_reducible apply Good.ite
    | with_reducible apply Good.ite1
    | with_reducible apply Good.ite2
    | fail_if_no_progress (with_reducible apply Good.upd)
    | fail_if_no_progress (with_reducible refine Good.updTim ?_ rfl)
    | fail_if_no_progress (with_reducible refine Good.updTim0 ?_ rfl)
    | fail_if_no_progress (with_reducible refine Good.updRegs ?_ rfl rfl rfl rfl)
    | (intro _; try intros; try extract_lets)

theorem startExit_good {d : Nat} {s : State}
    (gs : Good pq s) : Good pq (startExit d s) := by
  unfold startExit
  try extract_lets
  repeat' first
    | with_reducible assumption
    | with_reducible apply setPdom_good
    | with_reducible apply notice0_good
    | with_reducible apply wakeRecord_good
    | with_reducible apply countO_good
    | exact and_reserved (by decide)
    | exact reg_merge (by assumption) (by decide)
    | exact and_left_reserved (reg_reserved (by assumption) _)
    | with_reducible apply Good.ite
    | with_reducible apply Good.ite1
    | with_reducible apply Good.ite2
    | fail_if_no_progress (with_reducible apply Good.upd)
    | fail_if_no_progress (with_reducible refine Good.updTim ?_ rfl)
    | fail_if_no_progress (with_reducible refine Good.updTim0 ?_ rfl)
    | fail_if_no_progress (with_reducible refine Good.updRegs ?_ rfl rfl rfl rfl)
    | (intro _; try intros; try extract_lets)

theorem exitGo_good {d : Nat} {s : State}
    (gs : Good pq s) : Good pq (exitGo d s) := by
  unfold exitGo
  try extract_lets
  repeat' first
    | with_reducible assumption
    | with_reducible apply startExit_good
    | with_reducible apply waitUntil_good
    | exact and_reserved (by decide)
    | exact reg_merge (by assumption) (by decide)
    | exact and_left_reserved (reg_reserved (by assumption) _)
    | with_reducible apply Good.ite
    | with_reducible apply Good.ite1
    | with_reducible apply Good.ite2
    | fail_if_no_progress (with_reducible apply Good.upd)
    | fail_if_no_progress (with_reducible refine Good.updTim ?_ rfl)
    | fail_if_no_progress (with_reducible refine Good.updTim0 ?_ rfl)
    | fail_if_no_progress (with_reducible refine Good.updRegs ?_ rfl rfl rfl rfl)
    | (intro _; try intros; try extract_lets)
    | split

theorem exitStart_good {d : Nat} {s : State}
    (gs : Good pq s) : Good pq (exitStart d s) := by
  unfold exitStart
  try extract_lets
  repeat' first
    | with_reducible assumption
    | with_reducible apply exitGo_good
    | with_reducible apply wake_good
    | with_reducible apply setPdom_good
    | exact and_reserved (by decide)
    | exact reg_merge (by assumption) (by decide)
    | exact and_left_reserved (reg_reserved (by assumption) _)
    | with_reducible apply Good.ite
    | with_reducible apply Good.ite1
    | with_reducible apply Good.ite2
    | fail_if_no_progress (with_reducible apply Good.upd)
    | fail_if_no_progress (with_reducible refine Good.updTim ?_ rfl)
    | fail_if_no_progress (with_reducible refine Good.updTim0 ?_ rfl)
    | fail_if_no_progress (with_reducible refine Good.updRegs ?_ rfl rfl rfl rfl)
    | (intro _; try intros; try extract_lets)
    | split

theorem ackFall_good {d : Nat} {s : State}
    (gs : Good pq s) : Good pq (ackFall d s) := by
  unfold ackFall
  try extract_lets
  repeat' first
    | with_reducible assumption
    | with_reducible apply setPdom_good
    | exact and_reserved (by decide)
    | exact reg_merge (by assumption) (by decide)
    | exact and_left_reserved (reg_reserved (by assumption) _)
    | with_reducible apply Good.ite
    | with_reducible apply Good.ite1
    | with_reducible apply Good.ite2
    | fail_if_no_progress (with_reducible apply Good.upd)
    | fail_if_no_progress (with_reducible refine Good.updTim ?_ rfl)
    | fail_if_no_progress (with_reducible refine Good.updTim0 ?_ rfl)
    | fail_if_no_progress (with_reducible refine Good.updRegs ?_ rfl rfl rfl rfl)
    | (intro _; try intros; try extract_lets)

theorem unitsOn_good {d : Nat} {kept : BitVec 2} {s : State}
    (gs : Good pq s) : Good pq (unitsOn d kept s) := by
  unfold unitsOn
  try extract_lets
  repeat' first
    | with_reducible assumption
    | with_reducible apply modTre_good
    | with_reducible apply mapCountZero_good
    | with_reducible apply keyWrite_good
    | with_reducible apply bell_good
    | with_reducible apply ntcDrain_good
    | with_reducible apply retryReads_good
    | with_reducible apply Good.foldl
    | with_reducible apply Good.foldl1
    | with_reducible apply Good.foldl2
    | exact and_reserved (by decide)
    | exact reg_merge (by assumption) (by decide)
    | exact and_left_reserved (reg_reserved (by assumption) _)
    | with_reducible apply Good.ite
    | with_reducible apply Good.ite1
    | with_reducible apply Good.ite2
    | fail_if_no_progress (with_reducible apply Good.upd)
    | fail_if_no_progress (with_reducible refine Good.updTim ?_ rfl)
    | fail_if_no_progress (with_reducible refine Good.updTim0 ?_ rfl)
    | fail_if_no_progress (with_reducible refine Good.updRegs ?_ rfl rfl rfl rfl)
    | (intro _; try intros; try extract_lets)

theorem exitDone_good {d : Nat} {s : State}
    (gs : Good pq s) : Good pq (exitDone d s) := by
  unfold exitDone
  try extract_lets
  repeat' first
    | with_reducible assumption
    | with_reducible apply waitUntil_good
    | with_reducible apply setPdom_good
    | with_reducible apply wake_good
    | with_reducible apply unitsOn_good
    | with_reducible apply domBack_good
    | with_reducible apply askUnits_good
    | with_reducible apply nextReq_good
    | with_reducible apply reqDone_good
    | exact and_reserved (by decide)
    | exact reg_merge (by assumption) (by decide)
    | exact and_left_reserved (reg_reserved (by assumption) _)
    | with_reducible apply Good.ite
    | with_reducible apply Good.ite1
    | with_reducible apply Good.ite2
    | fail_if_no_progress (with_reducible apply Good.upd)
    | fail_if_no_progress (with_reducible refine Good.updTim ?_ rfl)
    | fail_if_no_progress (with_reducible refine Good.updTim0 ?_ rfl)
    | fail_if_no_progress (with_reducible refine Good.updRegs ?_ rfl rfl rfl rfl)
    | (intro _; try intros; try extract_lets)

theorem exitTimeout_good {d : Nat} {s : State}
    (gs : Good pq s) : Good pq (exitTimeout d s) := by
  unfold exitTimeout
  try extract_lets
  repeat' first
    | with_reducible assumption
    | with_reducible apply waitUntil_good
    | with_reducible apply stateTmo_good
    | with_reducible apply modPdom_good
    | exact and_reserved (by decide)
    | exact reg_merge (by assumption) (by decide)
    | exact and_left_reserved (reg_reserved (by assumption) _)
    | with_reducible apply Good.ite
    | with_reducible apply Good.ite1
    | with_reducible apply Good.ite2
    | fail_if_no_progress (with_reducible apply Good.upd)
    | fail_if_no_progress (with_reducible refine Good.updTim ?_ rfl)
    | fail_if_no_progress (with_reducible refine Good.updTim0 ?_ rfl)
    | fail_if_no_progress (with_reducible refine Good.updRegs ?_ rfl rfl rfl rfl)
    | (intro _; try intros; try extract_lets)

theorem sdWake_good {t : Nat} {s : State}
    (gs : Good pq s) : Good pq (sdWake t s) := by
  unfold sdWake
  try extract_lets
  repeat' first
    | with_reducible assumption
    | with_reducible apply wake_good
    | with_reducible apply modTre_good

theorem timerWakes_good {s : State}
    (gs : Good pq s) : Good pq (timerWakes s) := by
  unfold timerWakes
  try extract_lets
  repeat' first
    | with_reducible assumption
    | with_reducible apply wake_good
    | with_reducible apply Good.foldl
    | with_reducible apply Good.foldl1
    | with_reducible apply Good.foldl2
    | exact and_reserved (by decide)
    | exact reg_merge (by assumption) (by decide)
    | exact and_left_reserved (reg_reserved (by assumption) _)
    | with_reducible apply Good.ite
    | with_reducible apply Good.ite1
    | with_reducible apply Good.ite2
    | fail_if_no_progress (with_reducible apply Good.upd)
    | fail_if_no_progress (with_reducible refine Good.updTim ?_ rfl)
    | fail_if_no_progress (with_reducible refine Good.updTim0 ?_ rfl)
    | fail_if_no_progress (with_reducible refine Good.updRegs ?_ rfl rfl rfl rfl)
    | (intro _; try intros; try extract_lets)

end Sys2Proof.Machine
end

