-- ==== Sys2Proof/Laws/GoodCommit.lean ====
section
/-!
SUPPORT. What each operation of Machine/Commit.lean keeps (Laws/Good.lean).
-/

namespace Sys2Proof.Machine

-- one declaration at a time: the package is compiled as one text within a limit of memory
set_option Elab.async false

variable {pq : Ghost}

theorem noteRefused_good {a : Nat} {s : State}
    (gs : Good pq s) : Good pq (noteRefused a s) := by
  unfold noteRefused
  try extract_lets
  repeat' first
    | with_reducible assumption
    | exact and_reserved (by decide)
    | exact reg_merge (by assumption) (by decide)
    | exact and_left_reserved (reg_reserved (by assumption) _)
    | with_reducible apply Good.ite
    | with_reducible apply Good.ite1
    | with_reducible apply Good.ite2
    | fail_if_no_progress (with_reducible apply Good.upd)
    | fail_if_no_progress (with_reducible refine Good.updTim ?_ rfl)
    | fail_if_no_progress (with_reducible refine Good.updTim0 ?_ rfl)
    | fail_if_no_progress (with_reducible refine Good.updRegs ?_ rfl rfl rfl rfl)
    | (intro _; try intros; try extract_lets)

theorem uplHook_good {p o : Nat} {old new : Word} {s : State}
    (gs : Good pq s) : Good pq (uplHook p o old new s) := by
  unfold uplHook
  try extract_lets
  repeat' first
    | with_reducible assumption
    | with_reducible apply modUpl_good
    | exact and_reserved (by decide)
    | exact reg_merge (by assumption) (by decide)
    | exact and_left_reserved (reg_reserved (by assumption) _)
    | with_reducible apply Good.ite
    | with_reducible apply Good.ite1
    | with_reducible apply Good.ite2
    | fail_if_no_progress (with_reducible apply Good.upd)
    | fail_if_no_progress (with_reducible refine Good.updTim ?_ rfl)
    | fail_if_no_progress (with_reducible refine Good.updTim0 ?_ rfl)
    | fail_if_no_progress (with_reducible refine Good.updRegs ?_ rfl rfl rfl rfl)
    | (intro _; try intros; try extract_lets)

theorem ritClean_good {a : Nat} {s : State}
    (gs : Good pq s) : Good pq (ritClean a s) := by
  unfold ritClean
  try extract_lets
  repeat' first
    | with_reducible assumption
    | exact and_reserved (by decide)
    | exact reg_merge (by assumption) (by decide)
    | exact and_left_reserved (reg_reserved (by assumption) _)
    | with_reducible apply Good.ite
    | with_reducible apply Good.ite1
    | with_reducible apply Good.ite2
    | fail_if_no_progress (with_reducible apply Good.upd)

theorem regHook_good {a : Nat} {old new : Word} {s : State}
    (gs : Good pq s) : Good pq (regHook a old new s) := by
  unfold regHook
  try extract_lets
  repeat' first
    | with_reducible assumption
    | with_reducible apply emit_good
    | with_reducible apply ritClean_good
    | with_reducible apply xoffFresh_good
    | with_reducible apply deepInit_good
    | with_reducible apply modTre_good
    | with_reducible apply uplHook_good
    | exact and_reserved (by decide)
    | exact reg_merge (by assumption) (by decide)
    | exact and_left_reserved (reg_reserved (by assumption) _)
    | with_reducible apply Good.ite
    | with_reducible apply Good.ite1
    | with_reducible apply Good.ite2
    | fail_if_no_progress (with_reducible apply Good.upd)
    | fail_if_no_progress (with_reducible refine Good.updTim ?_ rfl)
    | fail_if_no_progress (with_reducible refine Good.updTim0 ?_ rfl)
    | fail_if_no_progress (with_reducible refine Good.updRegs ?_ rfl rfl rfl rfl)
    | (intro _; try intros; try extract_lets)

theorem commitReg_good {a : Nat} {mask data : Word} {s : State} (hm : mask &&& ~~~(regMask a) = 0) (gs : Good pq s) :
    Good pq (commitReg a mask data s) := by
  unfold commitReg
  exact regHook_good (setReg_good gs (reg_merge gs hm))

theorem putReg_good {a : Nat} {data : Word} {s : State} (gs : Good pq s) : Good pq (putReg a data s) := by
  unfold putReg
  cases hr : regSpec a with
  | none => exact gs
  | some x =>
    dsimp only
    have hm : x.mask &&& ~~~(regMask a) = 0 := by simp only [regMask, hr, Option.map_some, Option.getD_some]; exact and_not_self _
    refine Good.ite (fun _ => noteRefused_good gs) fun _ => ?_
    cases effNow s a x.eff with
    | now => exact commitReg_good hm gs
    | cut => exact Good.defer gs (gs.regs.addCut hm) rfl
    | en => exact commitReg_good hm gs
    | tick => exact Good.defer gs (gs.regs.addTick hm) rfl

theorem tickRegs_good {s : State} (gs : Good pq s) : Good pq (tickRegs s) := by
  unfold tickRegs
  refine Good.foldlMem (p := fun d => d.mask &&& ~~~(regMask d.addr) = 0)
    ⟨gs.pending, ⟨gs.regs.rising, gs.regs.vals, fun d hd => gs.regs.defs d (List.mem_append_right _ (by simpa using hd))⟩, gs.beat, gs.clk⟩
    (fun d hd => gs.regs.defs d (List.mem_append_left _ hd)) fun s d h hd => ?_
  exact commitReg_good hd h

end Sys2Proof.Machine
end

