-- ==== Sys2Proof/Laws/GoodLoop.lean ====
section
/-!
SUPPORT. What each operation of Machine/Loop.lean keeps (Laws/Good.lean).
-/

namespace Sys2Proof.Machine

-- one declaration at a time: the package is compiled as one text within a limit of memory
set_option Elab.async false

variable {pq : Ghost}

theorem vqFresh_good {n : Nat} {s : State}
    (gs : Good pq s) : Good pq (vqFresh n s) := by
  unfold vqFresh
  try extract_lets
  repeat' first
    | with_reducible assumption
    | with_reducible apply modVq_good

theorem loopEnd_good {n : Nat} {s : State}
    (gs : Good pq s) : Good pq (loopEnd n s) := by
  unfold loopEnd
  try extract_lets
  repeat' first
    | with_reducible assumption
    | with_reducible apply vqFresh_good
    | exact and_reserved (by decide)
    | exact reg_merge (by assumption) (by decide)
    | exact and_left_reserved (reg_reserved (by assumption) _)
    | with_reducible apply Good.ite
    | with_reducible apply Good.ite1
    | with_reducible apply Good.ite2
    | fail_if_no_progress (with_reducible apply Good.upd)

theorem loopSlot_good {n : Nat} {s : State} (gs : Good pq s) : Good pq (loopSlot n s) := by
  unfold loopSlot
  extract_lets en x s1 c rej
  have g1 : Good pq s1 := by
    change Good pq (match tFind n s.tst.loop with
      | some y => if en && y == x then s else loopEnd n s
      | none => s)
    cases tFind n s.tst.loop with
    | some y => exact Good.ite (fun _ => gs) fun _ => loopEnd_good gs
    | none => exact gs
  clear_value s1
  refine Good.ite (fun _ => g1) fun _ => Good.ite (fun _ => vqFresh_good (Good.upd g1)) fun _ => ?_
  exact setReg_good (Good.upd g1) (and_left_reserved (reg_reserved g1 _))

theorem loopSlots_good {s : State}
    (gs : Good pq s) : Good pq (loopSlots s) := by
  unfold loopSlots
  try extract_lets
  repeat' first
    | with_reducible assumption
    | with_reducible apply loopSlot_good
    | with_reducible apply Good.foldl
    | with_reducible apply Good.foldl1
    | with_reducible apply Good.foldl2
    | exact and_reserved (by decide)
    | exact reg_merge (by assumption) (by decide)
    | exact and_left_reserved (reg_reserved (by assumption) _)
    | with_reducible apply Good.ite
    | with_reducible apply Good.ite1
    | with_reducible apply Good.ite2
    | fail_if_no_progress (with_reducible apply Good.upd)
    | fail_if_no_progress (with_reducible refine Good.updTim ?_ rfl)
    | fail_if_no_progress (with_reducible refine Good.updTim0 ?_ rfl)
    | fail_if_no_progress (with_reducible refine Good.updRegs ?_ rfl rfl rfl rfl)
    | (intro _; try intros; try extract_lets)

theorem writeLoop_good {a : Nat} {data : Word} {s : State}
    (gs : Good pq s) : Good pq (writeLoop a data s) := by
  unfold writeLoop
  try extract_lets
  repeat' first
    | with_reducible assumption
    | with_reducible apply putReg_good
    | with_reducible apply loopSlot_good
    | exact and_reserved (by decide)
    | exact reg_merge (by assumption) (by decide)
    | exact and_left_reserved (reg_reserved (by assumption) _)
    | with_reducible apply Good.ite
    | with_reducible apply Good.ite1
    | with_reducible apply Good.ite2
    | fail_if_no_progress (with_reducible apply Good.upd)
    | fail_if_no_progress (with_reducible refine Good.updTim ?_ rfl)
    | fail_if_no_progress (with_reducible refine Good.updTim0 ?_ rfl)
    | fail_if_no_progress (with_reducible refine Good.updRegs ?_ rfl rfl rfl rfl)
    | (intro _; try intros; try extract_lets)

theorem vqProbe_good {n : Nat} {s : State}
    (gs : Good pq s) : Good pq (vqProbe n s) := by
  unfold vqProbe
  try extract_lets
  repeat' first
    | with_reducible assumption
    | with_reducible apply modVq_good

end Sys2Proof.Machine
end

