-- ==== Sys2Proof/Laws/GoodOverlay.lean ====
section
/-!
SUPPORT. What each operation of Machine/Overlay.lean keeps (Laws/Good.lean).
-/

namespace Sys2Proof.Machine

-- one declaration at a time: the package is compiled as one text within a limit of memory
set_option Elab.async false

variable {pq : Ghost}

theorem imgRegs_ok : ∀ (k : List ImgRec) (g : Regs), RegsOk g → RegsOk { g with val := k.foldl (fun v r => imgReg r v) g.val }
  | [], _, h => h
  | r :: k, g, h => imgRegs_ok k { g with val := imgReg r g.val } (imgReg_ok h)

theorem afterRecs_good {l : List ImgRec} {s : State} (gs : Good pq s) : Good pq (afterRecs l s) := by
  unfold afterRecs
  extract_lets rsrc qsrc s1 trees s2
  have g1 : Good pq s1 := ⟨gs.pending, imgRegs_ok _ _ gs.regs, gs.beat, gs.clk⟩
  have g2 : Good pq s2 := Good.foldl g1 fun s t h => modChn_good h
  exact Good.foldl g2 fun s e h => modChn_good h

theorem imgCls_good {page : Bool} {r : ImgRec} {s : State}
    (gs : Good pq s) : Good pq (imgCls page r s) := by
  unfold imgCls
  try extract_lets
  repeat' first
    | with_reducible assumption
    | with_reducible apply clsWrite_good

theorem imgCommit_good {a : Nat} {mask data : Word} {s : State} (gs : Good pq s) : Good pq (imgCommit a mask data s) := by
  unfold imgCommit
  cases hr : regSpec a with
  | none => exact gs
  | some x =>
    refine Good.ite (fun _ => commitReg_good ?_ gs) fun _ => noteRefused_good gs
    simp only [regMask, hr, Option.map_some, Option.getD_some]
    exact and_not_self' _ _

theorem commitRecs_good {l : List ImgRec} {s : State}
    (gs : Good pq s) : Good pq (commitRecs l s) := by
  unfold commitRecs
  try extract_lets
  repeat' first
    | with_reducible assumption
    | with_reducible apply imgCommit_good
    | with_reducible apply applyAlloc_good
    | with_reducible apply applyCtx_good
    | with_reducible apply Good.foldl
    | with_reducible apply Good.foldl1
    | with_reducible apply Good.foldl2
    | exact and_reserved (by decide)
    | exact reg_merge (by assumption) (by decide)
    | exact and_left_reserved (reg_reserved (by assumption) _)
    | with_reducible apply Good.ite
    | with_reducible apply Good.ite1
    | with_reducible apply Good.ite2
    | fail_if_no_progress (with_reducible apply Good.upd)
    | fail_if_no_progress (with_reducible refine Good.updTim ?_ rfl)
    | fail_if_no_progress (with_reducible refine Good.updTim0 ?_ rfl)
    | fail_if_no_progress (with_reducible refine Good.updRegs ?_ rfl rfl rfl rfl)
    | (intro _; try intros; try extract_lets)

theorem powerRecs_good {l : List ImgRec} {s : State}
    (gs : Good pq s) : Good pq (powerRecs l s) := by
  unfold powerRecs
  try extract_lets
  repeat' first
    | with_reducible assumption
    | with_reducible apply request_good
    | with_reducible apply Good.foldl
    | with_reducible apply Good.foldl1
    | with_reducible apply Good.foldl2
    | exact and_reserved (by decide)
    | exact reg_merge (by assumption) (by decide)
    | exact and_left_reserved (reg_reserved (by assumption) _)
    | with_reducible apply Good.ite
    | with_reducible apply Good.ite1
    | with_reducible apply Good.ite2
    | fail_if_no_progress (with_reducible apply Good.upd)
    | fail_if_no_progress (with_reducible refine Good.updTim ?_ rfl)
    | fail_if_no_progress (with_reducible refine Good.updTim0 ?_ rfl)
    | fail_if_no_progress (with_reducible refine Good.updRegs ?_ rfl rfl rfl rfl)
    | (intro _; try intros; try extract_lets)

theorem imageBoundary_good {s : State}
    (gs : Good pq s) : Good pq (imageBoundary s) := by
  unfold imageBoundary
  try extract_lets
  repeat' first
    | with_reducible assumption
    | with_reducible apply commitRecs_good
    | with_reducible apply powerRecs_good
    | with_reducible apply clsSwapNow_good
    | exact and_reserved (by decide)
    | exact reg_merge (by assumption) (by decide)
    | exact and_left_reserved (reg_reserved (by assumption) _)
    | with_reducible apply Good.ite
    | with_reducible apply Good.ite1
    | with_reducible apply Good.ite2
    | fail_if_no_progress (with_reducible apply Good.upd)
    | fail_if_no_progress (with_reducible refine Good.updTim ?_ rfl)
    | fail_if_no_progress (with_reducible refine Good.updTim0 ?_ rfl)
    | fail_if_no_progress (with_reducible refine Good.updRegs ?_ rfl rfl rfl rfl)
    | (intro _; try intros; try extract_lets)

theorem recsDirect_good {l : List ImgRec} {s : State}
    (gs : Good pq s) : Good pq (recsDirect l s) := by
  unfold recsDirect
  try extract_lets
  repeat' first
    | with_reducible assumption
    | with_reducible apply commitRecs_good
    | with_reducible apply imgCls_good
    | with_reducible apply Good.foldl
    | with_reducible apply Good.foldl1
    | with_reducible apply Good.foldl2
    | exact and_reserved (by decide)
    | exact reg_merge (by assumption) (by decide)
    | exact and_left_reserved (reg_reserved (by assumption) _)
    | with_reducible apply Good.ite
    | with_reducible apply Good.ite1
    | with_reducible apply Good.ite2
    | fail_if_no_progress (with_reducible apply Good.upd)
    | fail_if_no_progress (with_reducible refine Good.updTim ?_ rfl)
    | fail_if_no_progress (with_reducible refine Good.updTim0 ?_ rfl)
    | fail_if_no_progress (with_reducible refine Good.updRegs ?_ rfl rfl rfl rfl)
    | (intro _; try intros; try extract_lets)

theorem imageDirect_good {img : Nat} {l : List ImgRec} {s : State}
    (gs : Good pq s) : Good pq (imageDirect img l s) := by
  unfold imageDirect
  try extract_lets
  repeat' first
    | with_reducible assumption
    | with_reducible apply powerRecs_good
    | exact and_reserved (by decide)
    | exact reg_merge (by assumption) (by decide)
    | exact and_left_reserved (reg_reserved (by assumption) _)
    | with_reducible apply Good.ite
    | with_reducible apply Good.ite1
    | with_reducible apply Good.ite2
    | fail_if_no_progress (with_reducible apply Good.upd)

theorem imageReads_good {p addr n : Nat} {s : State}
    (gs : Good pq s) : Good pq (imageReads p addr n s) := by
  unfold imageReads
  try extract_lets
  repeat' first
    | with_reducible assumption
    | with_reducible apply hostReads_good

theorem overlayCmd_good {p img addr n : Nat} {s : State}
    (gs : Good pq s) : Good pq (overlayCmd p img addr n s) := by
  unfold overlayCmd
  try extract_lets
  repeat' first
    | with_reducible assumption
    | with_reducible apply completeCmd_good
    | with_reducible apply partViol_good
    | with_reducible apply imageReads_good
    | with_reducible apply setWait_good
    | exact and_reserved (by decide)
    | exact reg_merge (by assumption) (by decide)
    | exact and_left_reserved (reg_reserved (by assumption) _)
    | with_reducible apply Good.ite
    | with_reducible apply Good.ite1
    | with_reducible apply Good.ite2
    | fail_if_no_progress (with_reducible apply Good.upd)
    | fail_if_no_progress (with_reducible refine Good.updTim ?_ rfl)
    | fail_if_no_progress (with_reducible refine Good.updTim0 ?_ rfl)
    | fail_if_no_progress (with_reducible refine Good.updRegs ?_ rfl rfl rfl rfl)
    | (intro _; try intros; try extract_lets)

theorem imageWrite_good {l : List ImgRec} {s : State}
    (gs : Good pq s) : Good pq (imageWrite l s) := by
  unfold imageWrite
  try extract_lets
  repeat' first
    | with_reducible assumption
    | with_reducible apply imgCls_good
    | with_reducible apply recsDirect_good
    | with_reducible apply Good.foldl
    | with_reducible apply Good.foldl1
    | with_reducible apply Good.foldl2
    | exact and_reserved (by decide)
    | exact reg_merge (by assumption) (by decide)
    | exact and_left_reserved (reg_reserved (by assumption) _)
    | with_reducible apply Good.ite
    | with_reducible apply Good.ite1
    | with_reducible apply Good.ite2
    | fail_if_no_progress (with_reducible apply Good.upd)
    | fail_if_no_progress (with_reducible refine Good.updTim ?_ rfl)
    | fail_if_no_progress (with_reducible refine Good.updTim0 ?_ rfl)
    | fail_if_no_progress (with_reducible refine Good.updRegs ?_ rfl rfl rfl rfl)
    | (intro _; try intros; try extract_lets)

theorem imageAccept_good {p img : Nat} {l : List ImgRec} {s : State}
    (gs : Good pq s) : Good pq (imageAccept p img l s) := by
  unfold imageAccept
  try extract_lets
  repeat' first
    | with_reducible assumption
    | with_reducible apply completeCmd_good
    | with_reducible apply imageDirect_good
    | exact and_reserved (by decide)
    | exact reg_merge (by assumption) (by decide)
    | exact and_left_reserved (reg_reserved (by assumption) _)
    | with_reducible apply Good.ite
    | with_reducible apply Good.ite1
    | with_reducible apply Good.ite2
    | fail_if_no_progress (with_reducible apply Good.upd)
    | fail_if_no_progress (with_reducible refine Good.updTim ?_ rfl)
    | fail_if_no_progress (with_reducible refine Good.updTim0 ?_ rfl)
    | fail_if_no_progress (with_reducible refine Good.updRegs ?_ rfl rfl rfl rfl)
    | (intro _; try intros; try extract_lets)

theorem imagePart_good {p off : Nat} {l : List ImgRec} {s : State}
    (gs : Good pq s) : Good pq (imagePart p off l s) := by
  unfold imagePart
  try extract_lets
  repeat' first
    | with_reducible assumption
    | with_reducible apply imageWrite_good
    | with_reducible apply imageAccept_good
    | with_reducible apply completeCmd_good
    | with_reducible apply imageReads_good
    | with_reducible apply setWait_good
    | exact and_reserved (by decide)
    | exact reg_merge (by assumption) (by decide)
    | exact and_left_reserved (reg_reserved (by assumption) _)
    | with_reducible apply Good.ite
    | with_reducible apply Good.ite1
    | with_reducible apply Good.ite2
    | fail_if_no_progress (with_reducible apply Good.upd)
    | fail_if_no_progress (with_reducible refine Good.updTim ?_ rfl)
    | fail_if_no_progress (with_reducible refine Good.updTim0 ?_ rfl)
    | fail_if_no_progress (with_reducible refine Good.updRegs ?_ rfl rfl rfl rfl)
    | (intro _; try intros; try extract_lets)
    | split

theorem imageRead_good {ch tag : Nat} {l : List ImgRec} {err : Bool} {s : State}
    (gs : Good pq s) : Good pq (imageRead ch tag l err s) := by
  unfold imageRead
  try extract_lets
  repeat' first
    | with_reducible assumption
    | with_reducible apply strayRead_good
    | with_reducible apply dropRead_good
    | with_reducible apply retryReads_good
    | with_reducible apply halt_good
    | with_reducible apply imagePart_good
    | with_reducible apply sendData_good
    | exact and_reserved (by decide)
    | exact reg_merge (by assumption) (by decide)
    | exact and_left_reserved (reg_reserved (by assumption) _)
    | with_reducible apply Good.ite
    | with_reducible apply Good.ite1
    | with_reducible apply Good.ite2
    | fail_if_no_progress (with_reducible apply Good.upd)
    | fail_if_no_progress (with_reducible refine Good.updTim ?_ rfl)
    | fail_if_no_progress (with_reducible refine Good.updTim0 ?_ rfl)
    | fail_if_no_progress (with_reducible refine Good.updRegs ?_ rfl rfl rfl rfl)
    | (intro _; try intros; try extract_lets)
    | split

end Sys2Proof.Machine
end

