-- ==== Sys2Proof/Laws/GoodFaults.lean ====
section
/-!
SUPPORT. What each operation of Machine/Faults.lean keeps (Laws/Good.lean).
-/

namespace Sys2Proof.Machine

-- one declaration at a time: the package is compiled as one text within a limit of memory
set_option Elab.async false

variable {pq : Ghost}

theorem fltWrite_good {part : BitVec 6} {i : Nat} {be : BitVec 4} {f : State → State} {s : State} (gs : Good pq s)
    (kf : i < 110 → ∀ s, Good pq s → Good pq (f s)) : Good pq (fltWrite part i be f s) := by
  unfold fltWrite
  exact Good.ite (fun _ => gs) fun h => Good.ite (fun _ => partViol_good gs) fun _ => kf (by omega) s gs

theorem fltClear_good {i : Nat} {data : Word} {s : State}
    (gs : Good pq s) : Good pq (fltClear i data s) := by
  unfold fltClear
  try extract_lets
  repeat' first
    | with_reducible assumption
    | with_reducible apply setFlt_good
    | with_reducible apply Good.foldl
    | with_reducible apply Good.foldl1
    | with_reducible apply Good.foldl2
    | exact and_reserved (by decide)
    | exact reg_merge (by assumption) (by decide)
    | exact and_left_reserved (reg_reserved (by assumption) _)
    | with_reducible apply Good.ite
    | with_reducible apply Good.ite1
    | with_reducible apply Good.ite2
    | fail_if_no_progress (with_reducible apply Good.upd)
    | fail_if_no_progress (with_reducible refine Good.updTim ?_ rfl)
    | fail_if_no_progress (with_reducible refine Good.updTim0 ?_ rfl)
    | fail_if_no_progress (with_reducible refine Good.updRegs ?_ rfl rfl rfl rfl)
    | (intro _; try intros; try extract_lets)

theorem fltIrq_good {i : Nat} {s : State}
    (gs : Good pq s) : Good pq (fltIrq i s) := by
  unfold fltIrq
  try extract_lets
  repeat' first
    | with_reducible assumption
    | with_reducible apply irq_good
    | exact and_reserved (by decide)
    | exact reg_merge (by assumption) (by decide)
    | exact and_left_reserved (reg_reserved (by assumption) _)
    | with_reducible apply Good.ite
    | with_reducible apply Good.ite1
    | with_reducible apply Good.ite2
    | fail_if_no_progress (with_reducible apply Good.upd)
    | fail_if_no_progress (with_reducible refine Good.updTim ?_ rfl)
    | fail_if_no_progress (with_reducible refine Good.updTim0 ?_ rfl)
    | fail_if_no_progress (with_reducible refine Good.updRegs ?_ rfl rfl rfl rfl)
    | (intro _; try intros; try extract_lets)

set_option maxRecDepth 20000 in
theorem fltMaskMask {i : Nat} (hi : i < 110) : regMask (rFltMask i) = 0xFFFFFFFF := by
  revert i; decide

theorem fltMask_good {i : Nat} {data : Word} {s : State} (hi : i < 110) (gs : Good pq s) : Good pq (fltMask i data s) := by
  unfold fltMask
  extract_lets shown s1
  have g1 : Good pq s1 := setReg_good gs (by rw [fltMaskMask hi]; exact BitVec.and_zero)
  exact Good.ite (fun _ => g1) fun _ => fltIrq_good g1

set_option maxRecDepth 20000 in
theorem fltVecMask {i : Nat} (hi : i < 110) : regMask (rFltVec i) = 0x3FFF := by
  revert i; decide

theorem fltVec_good {i : Nat} {data : Word} {s : State} (hi : i < 110) (gs : Good pq s) : Good pq (fltVec i data s) := by
  unfold fltVec
  extract_lets rises s1
  have g1 : Good pq s1 := setReg_good gs (by rw [fltVecMask hi]; exact and_not_self' data _)
  exact Good.ite (fun _ => fltIrq_good g1) fun _ => g1

theorem fltForce_good {i : Nat} {data : Word} {s : State}
    (gs : Good pq s) : Good pq (fltForce i data s) := by
  unfold fltForce
  try extract_lets
  repeat' first
    | with_reducible assumption
    | with_reducible apply atCycle_good
    | exact and_reserved (by decide)
    | exact reg_merge (by assumption) (by decide)
    | exact and_left_reserved (reg_reserved (by assumption) _)
    | with_reducible apply Good.ite
    | with_reducible apply Good.ite1
    | with_reducible apply Good.ite2
    | fail_if_no_progress (with_reducible apply Good.upd)
    | fail_if_no_progress (with_reducible refine Good.updTim ?_ rfl)
    | fail_if_no_progress (with_reducible refine Good.updTim0 ?_ rfl)
    | fail_if_no_progress (with_reducible refine Good.updRegs ?_ rfl rfl rfl rfl)
    | (intro _; try intros; try extract_lets)

theorem memCorrected_good {c : Corrected} {s : State}
    (gs : Good pq s) : Good pq (memCorrected c s) := by
  unfold memCorrected
  try extract_lets
  repeat' first
    | with_reducible assumption
    | with_reducible apply countO_good
    | with_reducible apply count1_good
    | exact and_reserved (by decide)
    | exact reg_merge (by assumption) (by decide)
    | exact and_left_reserved (reg_reserved (by assumption) _)
    | with_reducible apply Good.ite
    | with_reducible apply Good.ite1
    | with_reducible apply Good.ite2
    | fail_if_no_progress (with_reducible apply Good.upd)
    | fail_if_no_progress (with_reducible refine Good.updTim ?_ rfl)
    | fail_if_no_progress (with_reducible refine Good.updTim0 ?_ rfl)
    | fail_if_no_progress (with_reducible refine Good.updRegs ?_ rfl rfl rfl rfl)
    | (intro _; try intros; try extract_lets)
    | split

theorem prtLost_good {o : Nat} {s : State}
    (gs : Good pq s) : Good pq (prtLost o s) := by
  unfold prtLost
  try extract_lets
  repeat' first
    | with_reducible assumption
    | with_reducible apply fault_good
    | exact and_reserved (by decide)
    | exact reg_merge (by assumption) (by decide)
    | exact and_left_reserved (reg_reserved (by assumption) _)
    | with_reducible apply Good.ite
    | with_reducible apply Good.ite1
    | with_reducible apply Good.ite2
    | fail_if_no_progress (with_reducible apply Good.upd)
    | fail_if_no_progress (with_reducible refine Good.updTim ?_ rfl)
    | fail_if_no_progress (with_reducible refine Good.updTim0 ?_ rfl)
    | fail_if_no_progress (with_reducible refine Good.updRegs ?_ rfl rfl rfl rfl)
    | (intro _; try intros; try extract_lets)

theorem chanLost_good {c : Nat} {s : State}
    (gs : Good pq s) : Good pq (chanLost c s) := by
  unfold chanLost
  try extract_lets
  repeat' first
    | with_reducible assumption
    | with_reducible apply fault_good
    | with_reducible apply disableRing_good
    | with_reducible apply Good.foldl
    | with_reducible apply Good.foldl1
    | with_reducible apply Good.foldl2
    | exact and_reserved (by decide)
    | exact reg_merge (by assumption) (by decide)
    | exact and_left_reserved (reg_reserved (by assumption) _)
    | with_reducible apply Good.ite
    | with_reducible apply Good.ite1
    | with_reducible apply Good.ite2
    | fail_if_no_progress (with_reducible apply Good.upd)
    | fail_if_no_progress (with_reducible refine Good.updTim ?_ rfl)
    | fail_if_no_progress (with_reducible refine Good.updTim0 ?_ rfl)
    | fail_if_no_progress (with_reducible refine Good.updRegs ?_ rfl rfl rfl rfl)
    | (intro _; try intros; try extract_lets)

theorem ringLost_good {k : RingKind} {n : Nat} {s : State}
    (gs : Good pq s) : Good pq (ringLost k n s) := by
  unfold ringLost
  try extract_lets
  repeat' first
    | with_reducible assumption
    | with_reducible apply disableRing_good
    | with_reducible apply fault_good
    | exact and_reserved (by decide)
    | exact reg_merge (by assumption) (by decide)
    | exact and_left_reserved (reg_reserved (by assumption) _)
    | with_reducible apply Good.ite
    | with_reducible apply Good.ite1
    | with_reducible apply Good.ite2
    | fail_if_no_progress (with_reducible apply Good.upd)
    | fail_if_no_progress (with_reducible refine Good.updTim ?_ rfl)
    | fail_if_no_progress (with_reducible refine Good.updTim0 ?_ rfl)
    | fail_if_no_progress (with_reducible refine Good.updRegs ?_ rfl rfl rfl rfl)
    | (intro _; try intros; try extract_lets)

theorem termLost_good {t tid : Nat} {s : State}
    (gs : Good pq s) : Good pq (termLost t tid s) := by
  unfold termLost
  try extract_lets
  repeat' first
    | with_reducible assumption
    | with_reducible apply fault_good
    | with_reducible apply lose_good
    | exact and_reserved (by decide)
    | exact reg_merge (by assumption) (by decide)
    | exact and_left_reserved (reg_reserved (by assumption) _)
    | with_reducible apply Good.ite
    | with_reducible apply Good.ite1
    | with_reducible apply Good.ite2
    | fail_if_no_progress (with_reducible apply Good.upd)
    | fail_if_no_progress (with_reducible refine Good.updTim ?_ rfl)
    | fail_if_no_progress (with_reducible refine Good.updTim0 ?_ rfl)
    | fail_if_no_progress (with_reducible refine Good.updRegs ?_ rfl rfl rfl rfl)
    | (intro _; try intros; try extract_lets)

theorem stagingLost_good {t blk : Nat} {s : State}
    (gs : Good pq s) : Good pq (stagingLost t blk s) := by
  unfold stagingLost
  try extract_lets
  repeat' first
    | with_reducible assumption
    | with_reducible apply modTre_good
    | with_reducible apply fault_good

theorem copyLost_good {c : Nat} {s : State}
    (gs : Good pq s) : Good pq (copyLost c s) := by
  unfold copyLost
  try extract_lets
  repeat' first
    | with_reducible assumption
    | with_reducible apply markCell_good
    | exact and_reserved (by decide)
    | exact reg_merge (by assumption) (by decide)
    | exact and_left_reserved (reg_reserved (by assumption) _)
    | with_reducible apply Good.ite
    | with_reducible apply Good.ite1
    | with_reducible apply Good.ite2
    | fail_if_no_progress (with_reducible apply Good.upd)
    | fail_if_no_progress (with_reducible refine Good.updTim ?_ rfl)
    | fail_if_no_progress (with_reducible refine Good.updTim0 ?_ rfl)
    | fail_if_no_progress (with_reducible refine Good.updRegs ?_ rfl rfl rfl rfl)
    | (intro _; try intros; try extract_lets)

theorem burstLost_good {t ut blk : Nat} {s : State}
    (gs : Good pq s) : Good pq (burstLost t ut blk s) := by
  unfold burstLost
  try extract_lets
  repeat' first
    | with_reducible assumption
    | with_reducible apply modTre_good
    | with_reducible apply fault_good

theorem tokenLost_good {q pos : Nat} {s : State}
    (gs : Good pq s) : Good pq (tokenLost q pos s) := by
  unfold tokenLost
  try extract_lets
  repeat' first
    | with_reducible assumption
    | with_reducible apply fault_good
    | with_reducible apply countN_good
    | with_reducible apply withdraw_good
    | with_reducible apply idleFrame_good
    | with_reducible apply cellsLeave_good
    | with_reducible apply setFrame_good
    | exact and_reserved (by decide)
    | exact reg_merge (by assumption) (by decide)
    | exact and_left_reserved (reg_reserved (by assumption) _)
    | with_reducible apply Good.ite
    | with_reducible apply Good.ite1
    | with_reducible apply Good.ite2
    | fail_if_no_progress (with_reducible apply Good.upd)
    | fail_if_no_progress (with_reducible refine Good.updTim ?_ rfl)
    | fail_if_no_progress (with_reducible refine Good.updTim0 ?_ rfl)
    | fail_if_no_progress (with_reducible refine Good.updRegs ?_ rfl rfl rfl rfl)
    | (intro _; try intros; try extract_lets)
    | split

theorem deepFreeLost_good {e : Nat} {s : State}
    (gs : Good pq s) : Good pq (deepFreeLost e s) := by
  unfold deepFreeLost
  try extract_lets
  repeat' first
    | with_reducible assumption
    | with_reducible apply fault_good
    | exact and_reserved (by decide)
    | exact reg_merge (by assumption) (by decide)
    | exact and_left_reserved (reg_reserved (by assumption) _)
    | with_reducible apply Good.ite
    | with_reducible apply Good.ite1
    | with_reducible apply Good.ite2
    | fail_if_no_progress (with_reducible apply Good.upd)

theorem counterLost_good {k : Nat} {s : State}
    (gs : Good pq s) : Good pq (counterLost k s) := by
  unfold counterLost
  try extract_lets
  repeat' first
    | with_reducible assumption
    | with_reducible apply fault_good
    | exact and_reserved (by decide)
    | exact reg_merge (by assumption) (by decide)
    | exact and_left_reserved (reg_reserved (by assumption) _)
    | with_reducible apply Good.ite
    | with_reducible apply Good.ite1
    | with_reducible apply Good.ite2
    | fail_if_no_progress (with_reducible apply Good.upd)

theorem objectLost_good {x : BitVec 22} {s : State}
    (gs : Good pq s) : Good pq (objectLost x s) := by
  unfold objectLost
  try extract_lets
  repeat' first
    | with_reducible assumption
    | with_reducible apply fault_good
    | exact and_reserved (by decide)
    | exact reg_merge (by assumption) (by decide)
    | exact and_left_reserved (reg_reserved (by assumption) _)
    | with_reducible apply Good.ite
    | with_reducible apply Good.ite1
    | with_reducible apply Good.ite2
    | fail_if_no_progress (with_reducible apply Good.upd)

theorem skimLost_good {i : Nat} {x : SkimPart} {word : Word} {s : State}
    (gs : Good pq s) : Good pq (skimLost i x word s) := by
  unfold skimLost
  try extract_lets
  repeat' first
    | with_reducible assumption
    | with_reducible apply fault_good
    | exact and_reserved (by decide)
    | exact reg_merge (by assumption) (by decide)
    | exact and_left_reserved (reg_reserved (by assumption) _)
    | with_reducible apply Good.ite
    | with_reducible apply Good.ite1
    | with_reducible apply Good.ite2
    | fail_if_no_progress (with_reducible apply Good.upd)
    | fail_if_no_progress (with_reducible refine Good.updTim ?_ rfl)
    | fail_if_no_progress (with_reducible refine Good.updTim0 ?_ rfl)
    | fail_if_no_progress (with_reducible refine Good.updRegs ?_ rfl rfl rfl rfl)
    | (intro _; try intros; try extract_lets)
    | split

theorem memError_good {e : MemErr} {s : State}
    (gs : Good pq s) : Good pq (memError e s) := by
  unfold memError
  try extract_lets
  repeat' first
    | with_reducible assumption
    | with_reducible apply memCorrected_good
    | with_reducible apply prtLost_good
    | with_reducible apply chanLost_good
    | with_reducible apply ringLost_good
    | with_reducible apply declareAt_good
    | with_reducible apply fault_good
    | with_reducible apply declareFault_good
    | with_reducible apply termLost_good
    | with_reducible apply setSlot_good
    | with_reducible apply stagingLost_good
    | with_reducible apply burstLost_good
    | with_reducible apply tokenLost_good
    | with_reducible apply deepFreeLost_good
    | with_reducible apply counterLost_good
    | with_reducible apply objectLost_good
    | with_reducible apply copyLost_good
    | with_reducible apply skimLost_good
    | exact and_reserved (by decide)
    | exact reg_merge (by assumption) (by decide)
    | exact and_left_reserved (reg_reserved (by assumption) _)
    | with_reducible apply Good.ite
    | with_reducible apply Good.ite1
    | with_reducible apply Good.ite2
    | fail_if_no_progress (with_reducible apply Good.upd)
    | fail_if_no_progress (with_reducible refine Good.updTim ?_ rfl)
    | fail_if_no_progress (with_reducible refine Good.updTim0 ?_ rfl)
    | fail_if_no_progress (with_reducible refine Good.updRegs ?_ rfl rfl rfl rfl)
    | (intro _; try intros; try extract_lets)
    | split

theorem dupMismatch_good {u : DupUnit} {s : State}
    (gs : Good pq s) : Good pq (dupMismatch u s) := by
  unfold dupMismatch
  try extract_lets
  repeat' first
    | with_reducible assumption
    | with_reducible apply declareFault_good
    | with_reducible apply fenceTree_good
    | with_reducible apply useFree_good
    | with_reducible apply fault_good
    | with_reducible apply memError_good
    | with_reducible apply fencePort_good
    | exact and_reserved (by decide)
    | exact reg_merge (by assumption) (by decide)
    | exact and_left_reserved (reg_reserved (by assumption) _)
    | with_reducible apply Good.ite
    | with_reducible apply Good.ite1
    | with_reducible apply Good.ite2
    | fail_if_no_progress (with_reducible apply Good.upd)
    | fail_if_no_progress (with_reducible refine Good.updTim ?_ rfl)
    | fail_if_no_progress (with_reducible refine Good.updTim0 ?_ rfl)
    | fail_if_no_progress (with_reducible refine Good.updRegs ?_ rfl rfl rfl rfl)
    | (intro _; try intros; try extract_lets)
    | split

theorem pulseEnd_good {s : State}
    (gs : Good pq s) : Good pq (pulseEnd s) := by
  unfold pulseEnd
  try extract_lets
  repeat' first
    | with_reducible assumption
    | with_reducible apply waitUntil_good
    | with_reducible apply pinRelease_good
    | exact and_reserved (by decide)
    | exact reg_merge (by assumption) (by decide)
    | exact and_left_reserved (reg_reserved (by assumption) _)
    | with_reducible apply Good.ite
    | with_reducible apply Good.ite1
    | with_reducible apply Good.ite2
    | fail_if_no_progress (with_reducible apply Good.upd)
    | fail_if_no_progress (with_reducible refine Good.updTim ?_ rfl)
    | fail_if_no_progress (with_reducible refine Good.updTim0 ?_ rfl)
    | fail_if_no_progress (with_reducible refine Good.updRegs ?_ rfl rfl rfl rfl)
    | (intro _; try intros; try extract_lets)

theorem pinRel_good {s : State}
    (gs : Good pq s) : Good pq (pinRel s) := by
  unfold pinRel
  try extract_lets
  repeat' first
    | with_reducible assumption
    | with_reducible apply atCycle_good
    | with_reducible apply pinOff_good
    | exact and_reserved (by decide)
    | exact reg_merge (by assumption) (by decide)
    | exact and_left_reserved (reg_reserved (by assumption) _)
    | with_reducible apply Good.ite
    | with_reducible apply Good.ite1
    | with_reducible apply Good.ite2
    | fail_if_no_progress (with_reducible apply Good.upd)
    | fail_if_no_progress (with_reducible refine Good.updTim ?_ rfl)
    | fail_if_no_progress (with_reducible refine Good.updTim0 ?_ rfl)
    | fail_if_no_progress (with_reducible refine Good.updRegs ?_ rfl rfl rfl rfl)
    | (intro _; try intros; try extract_lets)
    | split

theorem pinRecovered_good {s : State}
    (gs : Good pq s) : Good pq (pinRecovered s) := by
  unfold pinRecovered
  try extract_lets
  repeat' first
    | with_reducible assumption
    | with_reducible apply waitUntil_good
    | with_reducible apply pinAssert_good
    | exact and_reserved (by decide)
    | exact reg_merge (by assumption) (by decide)
    | exact and_left_reserved (reg_reserved (by assumption) _)
    | with_reducible apply Good.ite
    | with_reducible apply Good.ite1
    | with_reducible apply Good.ite2
    | fail_if_no_progress (with_reducible apply Good.upd)
    | fail_if_no_progress (with_reducible refine Good.updTim ?_ rfl)
    | fail_if_no_progress (with_reducible refine Good.updTim0 ?_ rfl)
    | fail_if_no_progress (with_reducible refine Good.updRegs ?_ rfl rfl rfl rfl)
    | (intro _; try intros; try extract_lets)

end Sys2Proof.Machine
end

