-- ==== Sys2Proof/Laws/GoodRegs.lean ====
section
/-!
SUPPORT. What each operation of Machine/Regs.lean keeps (Laws/Good.lean).
-/

namespace Sys2Proof.Machine

-- one declaration at a time: the package is compiled as one text within a limit of memory
set_option Elab.async false

variable {pq : Ghost}

theorem todiRead_good {s : State} (gs : Good pq s) : Good pq (todiRead s) := by
  unfold todiRead
  exact Good.ite (fun _ => Good.updTim gs rfl) fun _ => Good.updTim gs rfl

theorem readEffect_good {p a : Nat} {s : State}
    (gs : Good pq s) : Good pq (readEffect p a s) := by
  unfold readEffect
  try extract_lets
  repeat' first
    | with_reducible assumption
    | with_reducible apply lidxNext_good
    | with_reducible apply todiRead_good
    | exact and_reserved (by decide)
    | exact reg_merge (by assumption) (by decide)
    | exact and_left_reserved (reg_reserved (by assumption) _)
    | with_reducible apply Good.ite
    | with_reducible apply Good.ite1
    | with_reducible apply Good.ite2
    | fail_if_no_progress (with_reducible apply Good.upd)
    | fail_if_no_progress (with_reducible refine Good.updTim ?_ rfl)
    | fail_if_no_progress (with_reducible refine Good.updTim0 ?_ rfl)
    | fail_if_no_progress (with_reducible refine Good.updRegs ?_ rfl rfl rfl rfl)
    | (intro _; try intros; try extract_lets)

theorem readPort_good {s : State} {p a : Nat}
    (gs : Good pq s) : Good pq (readPort s p a).2 := by
  unfold readPort
  try extract_lets
  repeat' first
    | with_reducible assumption
    | with_reducible apply readEffect_good
    | exact and_reserved (by decide)
    | exact reg_merge (by assumption) (by decide)
    | exact and_left_reserved (reg_reserved (by assumption) _)
    | with_reducible apply Good.ite
    | with_reducible apply Good.ite1
    | with_reducible apply Good.ite2
    | fail_if_no_progress (with_reducible apply Good.upd)
    | fail_if_no_progress (with_reducible refine Good.updTim ?_ rfl)
    | fail_if_no_progress (with_reducible refine Good.updTim0 ?_ rfl)
    | fail_if_no_progress (with_reducible refine Good.updRegs ?_ rfl rfl rfl rfl)
    | (intro _; try intros; try extract_lets)
    | split

theorem regRead_good {part a : Nat} {be : BitVec 4} {s : State}
    (gs : Good pq s) : Good pq (regRead part a be s) := by
  unfold regRead
  try extract_lets
  repeat' first
    | with_reducible assumption
    | with_reducible apply emit_good
    | with_reducible apply partViol_good
    | with_reducible apply readPort_good
    | exact and_reserved (by decide)
    | exact reg_merge (by assumption) (by decide)
    | exact and_left_reserved (reg_reserved (by assumption) _)
    | with_reducible apply Good.ite
    | with_reducible apply Good.ite1
    | with_reducible apply Good.ite2
    | fail_if_no_progress (with_reducible apply Good.upd)
    | fail_if_no_progress (with_reducible refine Good.updTim ?_ rfl)
    | fail_if_no_progress (with_reducible refine Good.updTim0 ?_ rfl)
    | fail_if_no_progress (with_reducible refine Good.updRegs ?_ rfl rfl rfl rfl)
    | (intro _; try intros; try extract_lets)
    | split

theorem setWin_good {p base : Nat} {l : List Word} {s : State}
    (gs : Good pq s) : Good pq (setWin p base l s) := by
  unfold setWin
  try extract_lets
  repeat' first
    | with_reducible assumption
    | with_reducible apply Good.foldl
    | with_reducible apply Good.foldl1
    | with_reducible apply Good.foldl2
    | exact and_reserved (by decide)
    | exact reg_merge (by assumption) (by decide)
    | exact and_left_reserved (reg_reserved (by assumption) _)
    | with_reducible apply Good.ite
    | with_reducible apply Good.ite1
    | with_reducible apply Good.ite2
    | fail_if_no_progress (with_reducible apply Good.upd)
    | fail_if_no_progress (with_reducible refine Good.updTim ?_ rfl)
    | fail_if_no_progress (with_reducible refine Good.updTim0 ?_ rfl)
    | fail_if_no_progress (with_reducible refine Good.updRegs ?_ rfl rfl rfl rfl)
    | (intro _; try intros; try extract_lets)

theorem allocShow_good {s : State} {t h : Nat}
    (gs : Good pq s) : Good pq (allocShow s t h).2 := by
  unfold allocShow
  try extract_lets
  repeat' first
    | with_reducible assumption
    | with_reducible apply useFree_good
    | exact and_reserved (by decide)
    | exact reg_merge (by assumption) (by decide)
    | exact and_left_reserved (reg_reserved (by assumption) _)
    | with_reducible apply Good.ite
    | with_reducible apply Good.ite1
    | with_reducible apply Good.ite2
    | fail_if_no_progress (with_reducible apply Good.upd)
    | fail_if_no_progress (with_reducible refine Good.updTim ?_ rfl)
    | fail_if_no_progress (with_reducible refine Good.updTim0 ?_ rfl)
    | fail_if_no_progress (with_reducible refine Good.updRegs ?_ rfl rfl rfl rfl)
    | (intro _; try intros; try extract_lets)

theorem windowRd_good {p : Nat} {win : Win} {s : State}
    (gs : Good pq s) : Good pq (windowRd p win s) := by
  unfold windowRd
  try extract_lets
  repeat' first
    | with_reducible assumption
    | with_reducible apply partViol_good
    | with_reducible apply setWin_good
    | with_reducible apply allocShow_good
    | exact and_reserved (by decide)
    | exact reg_merge (by assumption) (by decide)
    | exact and_left_reserved (reg_reserved (by assumption) _)
    | with_reducible apply Good.ite
    | with_reducible apply Good.ite1
    | with_reducible apply Good.ite2
    | fail_if_no_progress (with_reducible apply Good.upd)
    | fail_if_no_progress (with_reducible refine Good.updTim ?_ rfl)
    | fail_if_no_progress (with_reducible refine Good.updTim0 ?_ rfl)
    | fail_if_no_progress (with_reducible refine Good.updRegs ?_ rfl rfl rfl rfl)
    | (intro _; try intros; try extract_lets)
    | split

theorem windowWr_good {p : Nat} {win : Win} {s : State}
    (gs : Good pq s) : Good pq (windowWr p win s) := by
  unfold windowWr
  try extract_lets
  repeat' first
    | with_reducible assumption
    | with_reducible apply partViol_good
    | with_reducible apply clsWrite_good
    | with_reducible apply putCtx_good
    | with_reducible apply putAlloc_good
    | exact and_reserved (by decide)
    | exact reg_merge (by assumption) (by decide)
    | exact and_left_reserved (reg_reserved (by assumption) _)
    | with_reducible apply Good.ite
    | with_reducible apply Good.ite1
    | with_reducible apply Good.ite2
    | fail_if_no_progress (with_reducible apply Good.upd)
    | fail_if_no_progress (with_reducible refine Good.updTim ?_ rfl)
    | fail_if_no_progress (with_reducible refine Good.updTim0 ?_ rfl)
    | fail_if_no_progress (with_reducible refine Good.updRegs ?_ rfl rfl rfl rfl)
    | (intro _; try intros; try extract_lets)
    | split

theorem windowCmd_good {f : State → State} {s : State}
    (gs : Good pq s) (kf : ∀ s, Good pq s → Good pq (f s)) : Good pq (windowCmd f s) := by
  unfold windowCmd
  try extract_lets
  repeat' first
    | with_reducible assumption
    | with_reducible apply kf
    | exact and_reserved (by decide)
    | exact reg_merge (by assumption) (by decide)
    | exact and_left_reserved (reg_reserved (by assumption) _)
    | with_reducible apply Good.ite
    | with_reducible apply Good.ite1
    | with_reducible apply Good.ite2
    | fail_if_no_progress (with_reducible apply Good.upd)
    | fail_if_no_progress (with_reducible refine Good.updTim ?_ rfl)
    | fail_if_no_progress (with_reducible refine Good.updTim0 ?_ rfl)
    | fail_if_no_progress (with_reducible refine Good.updRegs ?_ rfl rfl rfl rfl)
    | (intro _; try intros; try extract_lets)

theorem windowBits_good {p : Nat} {win : Win} {data : Word} {s : State}
    (gs : Good pq s) : Good pq (windowBits p win data s) := by
  unfold windowBits
  try extract_lets
  repeat' first
    | with_reducible assumption
    | with_reducible apply windowWr_good
    | with_reducible apply windowRd_good
    | exact and_reserved (by decide)
    | exact reg_merge (by assumption) (by decide)
    | exact and_left_reserved (reg_reserved (by assumption) _)
    | with_reducible apply Good.ite
    | with_reducible apply Good.ite1
    | with_reducible apply Good.ite2
    | fail_if_no_progress (with_reducible apply Good.upd)
    | fail_if_no_progress (with_reducible refine Good.updTim ?_ rfl)
    | fail_if_no_progress (with_reducible refine Good.updTim0 ?_ rfl)
    | fail_if_no_progress (with_reducible refine Good.updRegs ?_ rfl rfl rfl rfl)
    | (intro _; try intros; try extract_lets)

theorem putWin_good {p a : Nat} {mask data : Word} {s : State}
    (gs : Good pq s) : Good pq (putWin p a mask data s) := by
  unfold putWin
  try extract_lets
  repeat' first
    | with_reducible assumption
    | exact and_reserved (by decide)
    | exact reg_merge (by assumption) (by decide)
    | exact and_left_reserved (reg_reserved (by assumption) _)
    | with_reducible apply Good.ite
    | with_reducible apply Good.ite1
    | with_reducible apply Good.ite2
    | fail_if_no_progress (with_reducible apply Good.upd)
    | fail_if_no_progress (with_reducible refine Good.updTim ?_ rfl)
    | fail_if_no_progress (with_reducible refine Good.updTim0 ?_ rfl)
    | fail_if_no_progress (with_reducible refine Good.updRegs ?_ rfl rfl rfl rfl)

theorem writeTimCtl_good {data : Word} {s : State} (gs : Good pq s) : Good pq (writeTimCtl data s) := by
  unfold writeTimCtl
  extract_lets a rsrc s2 act
  have g2 : Good pq s2 := by
    refine Good.ite (fun _ => commitReg_good (a := rTim 0) (by decide) gs) fun _ => ?_
    exact Good.defer gs (gs.regs.addTick (d := ⟨a, 0x300, data⟩) (show (0x300 : Word) &&& ~~~(regMask (rTim 0)) = 0 by decide)) rfl
  clear_value s2
  have ha : ∀ i f s, (∀ s, Good pq s → Good pq (f s)) → Good pq s → Good pq (act i f s) := fun i f s hf h =>
    Good.ite (fun _ => hf s h) fun _ => h
  clear_value act
  exact ha _ _ _ (fun _ h => ctlHoldClr_good h) (ha _ _ _ (fun _ h => ctlHold_good h) (ha _ _ _ (fun _ h => ctlStep_good h)
    (ha _ _ _ (fun _ h => ctlRestart_good h) (ha _ _ _ (fun _ h => ctlStart_good h) g2))))

theorem writeRst_good {data : Word} {s : State}
    (gs : Good pq.free s) : Good pq.free (writeRst data s) := by
  unfold writeRst
  try extract_lets
  repeat' first
    | with_reducible assumption
    | with_reducible apply blockReset_good
    | with_reducible apply rstArm_good
    | exact and_reserved (by decide)
    | exact reg_merge (by assumption) (by decide)
    | exact and_left_reserved (reg_reserved (by assumption) _)
    | with_reducible apply Good.ite
    | with_reducible apply Good.ite1
    | with_reducible apply Good.ite2
    | fail_if_no_progress (with_reducible apply Good.upd)
    | fail_if_no_progress (with_reducible refine Good.updTim ?_ rfl)
    | fail_if_no_progress (with_reducible refine Good.updTim0 ?_ rfl)
    | fail_if_no_progress (with_reducible refine Good.updRegs ?_ rfl rfl rfl rfl)
    | (intro _; try intros; try extract_lets)

/-- The instance code of an answer of `instOf` lies in Table 15-1. -/
def InstOk (x : Option (Nat × Nat)) : Prop := ∀ i o, x = some (i, o) → i < 110

theorem InstOk.ite {c : Prop} [Decidable c] {x y : Option (Nat × Nat)} (hx : c → InstOk x) (hy : InstOk y) : InstOk (if c then x else y) := by
  by_cases h : c
  · rw [if_pos h]; exact hx h
  · rw [if_neg h]; exact hy

theorem InstOk.some {i o : Nat} (h : i < 110) : InstOk (some (i, o)) := by
  intro j p e; cases e; exact h

theorem instOf_ok (a : Nat) : InstOk (instOf a) := by
  unfold instOf pageCHN pageTRE pageUPL pageSLC
  repeat' first
    | with_reducible apply InstOk.ite
    | (intro h; exact InstOk.some (by omega))
    | (intro h; exact nofun)
    | exact nofun

theorem instOf_lt {a i o : Nat} (h : instOf a = some (i, o)) : i < 110 := instOf_ok a i o h

theorem inArr_lt {o base stride n : Nat} (h : inArr o base stride n = true) (hs : 0 < stride) : (o - base) / stride < n := by
  unfold inArr arrIx at h
  split at h
  · next hc => exact (Nat.div_lt_iff_lt_mul hs).mpr (by have := hc.2.1; have := hc.1; rw [Nat.mul_comm]; omega)
  · cases h

theorem writeSub_good {p i o : Nat} {data : Word} {s : State} (hi : i < 110) (gs : Good pq s) : Good pq (writeSub p i o data s) := by
  unfold writeSub
  refine Good.ite (fun h => selWrite_good hi (inArr_lt h (by decide)) gs) fun _ => ?_
  refine Good.ite (fun _ => Good.ite (fun _ => Good.updRegs gs rfl rfl rfl rfl) fun _ => valWrite_good gs) fun _ => ?_
  refine Good.ite (fun _ => wrapWrite_good gs) fun _ => Good.ite (fun _ => clrWrite_good gs) fun _ => ?_
  refine Good.ite (fun _ => fltClear_good gs) fun _ => Good.ite (fun _ => fltMask_good hi gs) fun _ => ?_
  exact Good.ite (fun _ => fltForce_good gs) fun _ => Good.ite (fun _ => fltVec_good hi gs) fun _ => gs

theorem writeHrd_good {p o : Nat} {data : Word} {s : State} (gs : Good pq s) : Good pq (writeHrd p o data s) := by
  unfold writeHrd
  split
  · exact Good.ite (fun _ => doorbell_good gs) fun _ => gs
  · exact rdisWrite_good gs
  · refine Good.ite (fun h => chanWrite_good (inArr_lt h (by decide)) gs) fun _ => ?_
    exact Good.ite (fun _ => rctxWrite_good gs) fun _ => putReg_good gs
  · exact gs

theorem writeTre_good {t o : Nat} {data : Word} {s : State} (ht : t < 64) (gs : Good pq s) : Good pq (writeTre t o data s) := by
  unfold writeTre
  extract_lets s1
  have g1 : Good pq s1 := Good.ite (fun _ => prelist_good gs) fun _ => gs
  exact Good.ite (fun _ => writeTreCfg_good ht gs) fun _ =>
    Good.ite (fun _ => Good.ite (fun _ => prelist_good g1) fun _ => g1) fun _ => putReg_good gs

theorem writeUpl_good {p o : Nat} {data : Word} {s : State} (hp : p < 16) (gs : Good pq s) : Good pq (writeUpl p o data s) := by
  unfold writeUpl
  extract_lets s1
  have g1 : Good pq s1 := putReg_good gs
  exact Good.ite (fun _ => writeUplCfg_good hp gs) fun _ =>
    Good.ite (fun _ => Good.ite (fun _ => lagRejoin_good g1) fun _ => g1) fun _ => putReg_good gs

theorem wenWrite_good {a : Nat} {data : Word} {s : State} (gs : Good pq s) : Good pq (wenWrite a data s) :=
  putReg_good (Good.upd gs)

theorem writeVal_good {p a : Nat} {data : Word} {s : State} (gs : Good pq.free s) : Good pq.free (writeVal p a data s) := by
  have ht : pageTRE ≤ a ∧ a < pageUPL → (a - pageTRE) / 0x1000 < 64 := by
    intro h; simp only [pageTRE, pageUPL] at h ⊢; omega
  have hu : pageUPL ≤ a ∧ a < pageQBM → (a - pageUPL) / 0x1000 < 16 := by
    intro h; simp only [pageUPL, pageQBM] at h ⊢; omega
  unfold writeVal
  repeat' first
    | with_reducible assumption
    | with_reducible apply writeRst_good
    | with_reducible apply putReg_good
    | with_reducible apply pinRel_good
    | with_reducible apply prtWrite_good
    | with_reducible apply writePwrReq_good
    | with_reducible apply wenWrite_good
    | with_reducible apply writeTimCtl_good
    | with_reducible apply incHi_good
    | with_reducible apply slewHi_good
    | with_reducible apply writeHrd_good
    | with_reducible apply putWin_good
    | with_reducible apply windowBits_good
    | with_reducible refine writeTre_good (ht (by assumption)) ?_
    | with_reducible refine writeUpl_good (hu (by assumption)) ?_
    | with_reducible apply writeRetire_good
    | with_reducible apply rotNow_good
    | with_reducible apply writeSkmCtl_good
    | with_reducible apply ldataWrite_good
    | with_reducible apply mrSwap_good
    | with_reducible apply smpCi_good
    | with_reducible apply slotSnap_good
    | with_reducible apply vqProbe_good
    | with_reducible apply writeLoop_good
    | with_reducible apply Good.ite
    | fail_if_no_progress (with_reducible apply Good.upd)
    | fail_if_no_progress (with_reducible refine Good.updRegs ?_ rfl rfl rfl rfl)
    | (intro _; try intros; try extract_lets)

theorem writeHi_good {p lo a : Nat} {data : Word} {s : State} (gs : Good pq s) : Good pq (writeHi p lo a data s) := by
  unfold writeHi
  refine putReg_good ?_
  split
  · exact putReg_good (dropLo_good gs)
  · exact gs

theorem writePort_good {p a : Nat} {data : Word} {s : State} (gs : Good pq.free s) : Good pq.free (writePort p a data s) := by
  have hgo : Good pq.free (writePort.go p a data s) := by
    unfold writePort.go
    refine Good.ite (fun _ => Good.updRegs gs rfl rfl rfl rfl) fun _ => ?_
    split
    · exact Good.ite (fun _ => writeHi_good gs) fun _ => writeVal_good gs
    · exact writeVal_good gs
  unfold writePort
  split
  · next i o e => exact Good.ite (fun _ => writeSub_good (instOf_lt e) gs) fun _ => hgo
  · exact hgo

theorem regWrite_good {part a : Nat} {be : BitVec 4} {data : Word} {s : State}
    (gs : Good pq.free s) : Good pq.free (regWrite part a be data s) := by
  unfold regWrite
  try extract_lets
  repeat' first
    | with_reducible assumption
    | with_reducible apply partViol_good
    | with_reducible apply writePort_good
    | exact and_reserved (by decide)
    | exact reg_merge (by assumption) (by decide)
    | exact and_left_reserved (reg_reserved (by assumption) _)
    | with_reducible apply Good.ite
    | with_reducible apply Good.ite1
    | with_reducible apply Good.ite2
    | fail_if_no_progress (with_reducible apply Good.upd)
    | fail_if_no_progress (with_reducible refine Good.updTim ?_ rfl)
    | fail_if_no_progress (with_reducible refine Good.updTim0 ?_ rfl)
    | fail_if_no_progress (with_reducible refine Good.updRegs ?_ rfl rfl rfl rfl)
    | (intro _; try intros; try extract_lets)
    | split

end Sys2Proof.Machine
end

