-- ==== Sys2Proof/Laws/GoodVq.lean ====
section
/-!
SUPPORT. What each operation of Machine/Vq.lean keeps (Laws/Good.lean).
-/

namespace Sys2Proof.Machine

-- one declaration at a time: the package is compiled as one text within a limit of memory
set_option Elab.async false

variable {pq : Ghost}

theorem modTerm_good {n k : Nat} {f : VqTerm → VqTerm} {s : State}
    (gs : Good pq s) : Good pq (modTerm n k f s) := by
  unfold modTerm
  try extract_lets
  repeat' first
    | with_reducible assumption
    | with_reducible apply setVqTerm_good

theorem vqTime_good {n : Nat} {b1 b2 : UsBlock} {s : State}
    (gs : Good pq s) : Good pq (vqTime n b1 b2 s) := by
  unfold vqTime
  try extract_lets
  repeat' first
    | with_reducible assumption
    | with_reducible apply modTerm_good
    | with_reducible apply Good.foldl
    | with_reducible apply Good.foldl1
    | with_reducible apply Good.foldl2
    | exact and_reserved (by decide)
    | exact reg_merge (by assumption) (by decide)
    | exact and_left_reserved (reg_reserved (by assumption) _)
    | with_reducible apply Good.ite
    | with_reducible apply Good.ite1
    | with_reducible apply Good.ite2
    | fail_if_no_progress (with_reducible apply Good.upd)
    | fail_if_no_progress (with_reducible refine Good.updTim ?_ rfl)
    | fail_if_no_progress (with_reducible refine Good.updTim0 ?_ rfl)
    | fail_if_no_progress (with_reducible refine Good.updRegs ?_ rfl rfl rfl rfl)
    | (intro _; try intros; try extract_lets)

theorem termTmm_good {n k tid : Nat} {m : List Byte} {s : State}
    (gs : Good pq s) : Good pq (termTmm n k tid m s) := by
  unfold termTmm
  try extract_lets
  repeat' first
    | with_reducible assumption
    | with_reducible apply modTerm_good
    | with_reducible apply setVqTerm_good
    | exact and_reserved (by decide)
    | exact reg_merge (by assumption) (by decide)
    | exact and_left_reserved (reg_reserved (by assumption) _)
    | with_reducible apply Good.ite
    | with_reducible apply Good.ite1
    | with_reducible apply Good.ite2
    | fail_if_no_progress (with_reducible apply Good.upd)
    | fail_if_no_progress (with_reducible refine Good.updTim ?_ rfl)
    | fail_if_no_progress (with_reducible refine Good.updTim0 ?_ rfl)
    | fail_if_no_progress (with_reducible refine Good.updRegs ?_ rfl rfl rfl rfl)
    | (intro _; try intros; try extract_lets)

theorem vqData_good {n t : Nat} {u : Tu} {s : State} (gs : Good pq s) : Good pq (vqData n t u s) := by
  unfold vqData
  extract_lets v takers key at_ p
  cases takers with
  | nil => exact gs
  | cons k0 l =>
    refine Good.ite (fun _ => Good.foldl gs fun s k h => pushPiece_good h) fun _ => ?_
    exact Good.foldl (cpqIssue_good gs) fun s k h => pushPiece_good h

theorem vqTu_good {n t : Nat} {s : State} {u : Tu}
    (gs : Good pq s) : Good pq (vqTu n t s u) := by
  unfold vqTu
  try extract_lets
  repeat' first
    | with_reducible assumption
    | with_reducible apply termTmm_good
    | with_reducible apply vqData_good
    | with_reducible apply Good.foldl
    | with_reducible apply Good.foldl1
    | with_reducible apply Good.foldl2
    | exact and_reserved (by decide)
    | exact reg_merge (by assumption) (by decide)
    | exact and_left_reserved (reg_reserved (by assumption) _)
    | with_reducible apply Good.ite
    | with_reducible apply Good.ite1
    | with_reducible apply Good.ite2
    | fail_if_no_progress (with_reducible apply Good.upd)
    | fail_if_no_progress (with_reducible refine Good.updTim ?_ rfl)
    | fail_if_no_progress (with_reducible refine Good.updTim0 ?_ rfl)
    | fail_if_no_progress (with_reducible refine Good.updRegs ?_ rfl rfl rfl rfl)
    | (intro _; try intros; try extract_lets)

theorem vqAnnounce_good {n t m k : Nat} {e : MapEnt} {s : State}
    (gs : Good pq s) : Good pq (vqAnnounce n t m k e s) := by
  unfold vqAnnounce
  try extract_lets
  repeat' first
    | with_reducible assumption
    | with_reducible apply useFree_good
    | with_reducible apply modVq_good
    | with_reducible apply modTerm_good

theorem vqHead_good {q n : Nat} {s : State} (gs : Good pq s) : Good pq (vqHead q n s).1 := by
  induction n generalizing s with
  | zero => exact gs
  | succ n ih =>
    rw [vqHead]
    cases (queueOf s q).head? with
    | none => exact gs
    | some k =>
      dsimp only
      cases frameOf s k.frame with
      | none => exact ih (eraseToken_good gs)
      | some f =>
        refine Good.ite1 (fun _ => ih (release1_good (eraseToken_good gs))) fun _ => ?_
        exact Good.ite1 (fun _ => Good.ite (fun _ => gs) fun _ => pumpFetches_good (startFetch_good gs)) fun _ => wakeGroups_good gs

theorem vqFirst_good {l : List (Nat × W4)} {s : State} (gs : Good pq s) : Good pq (vqFirst l s).1 := by
  induction l generalizing s with
  | nil => exact gs
  | cons e l ih =>
    rw [vqFirst]
    have h : Good pq (vqHead e.1 ((queueOf s e.1).length + 1) s).1 := vqHead_good gs
    generalize vqHead e.1 ((queueOf s e.1).length + 1) s = x at h
    obtain ⟨s1, _ | ⟨k, f⟩⟩ := x
    · exact ih h
    · exact h

theorem vqTaken_good {q : Nat} {k : Token} {f : Frame} {s : State}
    (gs : Good pq s) : Good pq (vqTaken q k f s) := by
  unfold vqTaken
  try extract_lets
  repeat' first
    | with_reducible assumption
    | with_reducible apply release1_good
    | with_reducible apply takeToken_good
    | exact and_reserved (by decide)
    | exact reg_merge (by assumption) (by decide)
    | exact and_left_reserved (reg_reserved (by assumption) _)
    | with_reducible apply Good.ite
    | with_reducible apply Good.ite1
    | with_reducible apply Good.ite2
    | fail_if_no_progress (with_reducible apply Good.upd)
    | fail_if_no_progress (with_reducible refine Good.updTim ?_ rfl)
    | fail_if_no_progress (with_reducible refine Good.updTim0 ?_ rfl)
    | fail_if_no_progress (with_reducible refine Good.updRegs ?_ rfl rfl rfl rfl)
    | (intro _; try intros; try extract_lets)

theorem Good.foldlV {α : Type} {g : VqFill → α → VqFill} {l : List α} {r : VqFill} (h : Good pq r.s)
    (hg : ∀ r x, Good pq r.s → Good pq (g r x).s) : Good pq (l.foldl g r).s := by
  induction l generalizing r with
  | nil => exact h
  | cons x l ih => exact ih (hg r x h)

theorem vqPlace_good {t m k : Nat} {x : VqTerm} {q fr h nblk seg : Nat} {first last : Bool} {body : List Byte} {r : VqFill}
    (gs : Good pq r.s) : Good pq (vqPlace t m k x q fr h nblk seg first last body r).s := by
  unfold vqPlace
  extract_lets ksel usrc u c
  show Good pq c.1
  exact Good.ite1 (fun _ => gs) fun _ => cpqIssue_good gs

theorem Good.iteV {c : Prop} [Decidable c] {a b : VqFill} (ha : c → Good pq a.s) (hb : ¬c → Good pq b.s) :
    Good pq (if c then a else b).s := by
  split
  · exact ha ‹_›
  · exact hb ‹_›

theorem vqFill_good {n t m k h fin j : Nat} {r : VqFill} (gs : Good pq r.s) : Good pq (vqFill n t m k h fin j r).s := by
  induction j generalizing r with
  | zero => exact gs
  | succ j ih =>
    rw [vqFill]
    extract_lets part
    generalize vqTerm (vqAt r.s n) k = x at part ⊢
    refine Good.iteV (fun _ => gs) fun _ => ?_
    cases tFind h x.cont with
    | some c =>
      refine Good.iteV (fun _ => ih ?_) fun _ => ?_
      · dsimp only
        exact modTerm_good (vqPlace_good gs)
      · dsimp only
        exact modTerm_good (vqPlace_good gs)
    | none =>
      have h1 : Good pq (vqFirst (vqQueues r.s t k h) r.s).1 := vqFirst_good gs
      generalize vqFirst (vqQueues r.s t k h) r.s = y at h1
      obtain ⟨s1, _ | ⟨q, tk, f⟩⟩ := y
      · exact h1
      · have h2 : Good pq (vqTaken q tk f s1) := vqTaken_good h1
        refine Good.iteV (fun _ => ih (vqPlace_good h2)) fun _ => ?_
        dsimp only
        exact modTerm_good (vqPlace_good h2)

theorem vqBurst_good {n t m k : Nat} {g : List MapEnt} {s : State} (gs : Good pq s) : Good pq (vqBurst n t m k g s) := by
  cases g with
  | nil => exact gs
  | cons e l =>
    unfold vqBurst
    refine modVq_good (Good.foldlV ?_ fun r y h => ?_)
    · dsimp only
      exact modTerm_good gs
    · exact Good.iteV (fun _ => vqFill_good h) fun _ => h

theorem vqObey_good {n t m : Nat} {s : State} {k : Nat}
    (gs : Good pq s) : Good pq (vqObey n t m s k) := by
  unfold vqObey
  try extract_lets
  repeat' first
    | with_reducible assumption
    | with_reducible apply modTerm_good
    | with_reducible apply vqAnnounce_good
    | with_reducible apply vqBurst_good
    | with_reducible apply Good.foldl
    | with_reducible apply Good.foldl1
    | with_reducible apply Good.foldl2
    | exact and_reserved (by decide)
    | exact reg_merge (by assumption) (by decide)
    | exact and_left_reserved (reg_reserved (by assumption) _)
    | with_reducible apply Good.ite
    | with_reducible apply Good.ite1
    | with_reducible apply Good.ite2
    | fail_if_no_progress (with_reducible apply Good.upd)
    | fail_if_no_progress (with_reducible refine Good.updTim ?_ rfl)
    | fail_if_no_progress (with_reducible refine Good.updTim0 ?_ rfl)
    | fail_if_no_progress (with_reducible refine Good.updRegs ?_ rfl rfl rfl rfl)
    | (intro _; try intros; try extract_lets)
    | split

theorem vqTick_good {n t : Nat} {ph : Nat} {b : UsBlock} {s : State}
    (gs : Good pq s) : Good pq (vqTick n t ph b s) := by
  unfold vqTick
  try extract_lets
  repeat' first
    | with_reducible assumption
    | with_reducible apply setVq_good
    | with_reducible apply vqObey_good
    | with_reducible apply Good.foldl
    | with_reducible apply Good.foldl1
    | with_reducible apply Good.foldl2
    | exact and_reserved (by decide)
    | exact reg_merge (by assumption) (by decide)
    | exact and_left_reserved (reg_reserved (by assumption) _)
    | with_reducible apply Good.ite
    | with_reducible apply Good.ite1
    | with_reducible apply Good.ite2
    | fail_if_no_progress (with_reducible apply Good.upd)
    | fail_if_no_progress (with_reducible refine Good.updTim ?_ rfl)
    | fail_if_no_progress (with_reducible refine Good.updTim0 ?_ rfl)
    | fail_if_no_progress (with_reducible refine Good.updRegs ?_ rfl rfl rfl rfl)
    | (intro _; try intros; try extract_lets)

theorem vqReceive_good {n t ph blk : Nat} {blocks : List UsBlock} {s : State}
    (gs : Good pq s) : Good pq (vqReceive n t ph blk blocks s) := by
  unfold vqReceive
  try extract_lets
  repeat' first
    | with_reducible assumption
    | with_reducible apply vqTick_good
    | with_reducible apply vqTime_good
    | with_reducible apply vqTu_good
    | with_reducible apply Good.foldl
    | with_reducible apply Good.foldl1
    | with_reducible apply Good.foldl2
    | exact and_reserved (by decide)
    | exact reg_merge (by assumption) (by decide)
    | exact and_left_reserved (reg_reserved (by assumption) _)
    | with_reducible apply Good.ite
    | with_reducible apply Good.ite1
    | with_reducible apply Good.ite2
    | fail_if_no_progress (with_reducible apply Good.upd)
    | fail_if_no_progress (with_reducible refine Good.updTim ?_ rfl)
    | fail_if_no_progress (with_reducible refine Good.updTim0 ?_ rfl)
    | fail_if_no_progress (with_reducible refine Good.updRegs ?_ rfl rfl rfl rfl)
    | (intro _; try intros; try extract_lets)
    | split

theorem vqProbeTx_good {n t : Nat} {x : VqBurst} {j : Nat} {u : DsTu} {s : State}
    (gs : Good pq s) : Good pq (vqProbeTx n t x j u s) := by
  unfold vqProbeTx
  try extract_lets
  repeat' first
    | with_reducible assumption
    | with_reducible apply setVq_good
    | exact and_reserved (by decide)
    | exact reg_merge (by assumption) (by decide)
    | exact and_left_reserved (reg_reserved (by assumption) _)
    | with_reducible apply Good.ite
    | with_reducible apply Good.ite1
    | with_reducible apply Good.ite2
    | fail_if_no_progress (with_reducible apply Good.upd)
    | fail_if_no_progress (with_reducible refine Good.updTim ?_ rfl)
    | fail_if_no_progress (with_reducible refine Good.updTim0 ?_ rfl)
    | fail_if_no_progress (with_reducible refine Good.updRegs ?_ rfl rfl rfl rfl)
    | (intro _; try intros; try extract_lets)

theorem vqEmit_good {n t : Nat} {x : VqBurst} {rest : List VqBurst} {s : State}
    (gs : Good pq s) : Good pq (vqEmit n t x rest s) := by
  unfold vqEmit
  try extract_lets
  repeat' first
    | with_reducible assumption
    | with_reducible apply emit_good
    | with_reducible apply modVq_good
    | with_reducible apply vqProbeTx_good
    | with_reducible apply countTu_good
    | exact and_reserved (by decide)
    | exact reg_merge (by assumption) (by decide)
    | exact and_left_reserved (reg_reserved (by assumption) _)
    | with_reducible apply Good.ite
    | with_reducible apply Good.ite1
    | with_reducible apply Good.ite2
    | fail_if_no_progress (with_reducible apply Good.upd)
    | fail_if_no_progress (with_reducible refine Good.updTim ?_ rfl)
    | fail_if_no_progress (with_reducible refine Good.updTim0 ?_ rfl)
    | fail_if_no_progress (with_reducible refine Good.updRegs ?_ rfl rfl rfl rfl)
    | (intro _; try intros; try extract_lets)
    | split

theorem vqRequest_good {n t : Nat} {sot : Bool} {s : State}
    (gs : Good pq s) : Good pq (vqRequest n t sot s) := by
  unfold vqRequest
  try extract_lets
  repeat' first
    | with_reducible assumption
    | with_reducible apply dsCount_good
    | with_reducible apply modVq_good
    | with_reducible apply vqEmit_good
    | exact and_reserved (by decide)
    | exact reg_merge (by assumption) (by decide)
    | exact and_left_reserved (reg_reserved (by assumption) _)
    | with_reducible apply Good.ite
    | with_reducible apply Good.ite1
    | with_reducible apply Good.ite2
    | fail_if_no_progress (with_reducible apply Good.upd)
    | fail_if_no_progress (with_reducible refine Good.updTim ?_ rfl)
    | fail_if_no_progress (with_reducible refine Good.updTim0 ?_ rfl)
    | fail_if_no_progress (with_reducible refine Good.updRegs ?_ rfl rfl rfl rfl)
    | (intro _; try intros; try extract_lets)
    | split

theorem loopReceive_good {t blk : Nat} {blocks : List UsBlock} {s : State}
    (gs : Good pq s) : Good pq (loopReceive t blk blocks s) := by
  unfold loopReceive
  try extract_lets
  repeat' first
    | with_reducible assumption
    | with_reducible apply pushPiece_good
    | with_reducible apply Good.foldl
    | with_reducible apply Good.foldl1
    | with_reducible apply Good.foldl2
    | exact and_reserved (by decide)
    | exact reg_merge (by assumption) (by decide)
    | exact and_left_reserved (reg_reserved (by assumption) _)
    | with_reducible apply Good.ite
    | with_reducible apply Good.ite1
    | with_reducible apply Good.ite2
    | fail_if_no_progress (with_reducible apply Good.upd)
    | fail_if_no_progress (with_reducible refine Good.updTim ?_ rfl)
    | fail_if_no_progress (with_reducible refine Good.updTim0 ?_ rfl)
    | fail_if_no_progress (with_reducible refine Good.updRegs ?_ rfl rfl rfl rfl)
    | (intro _; try intros; try extract_lets)

theorem blockRequest_good {t : Nat} {sot : Bool} {ph : Nat} {s : State}
    (gs : Good pq s) : Good pq (blockRequest t sot ph s) := by
  unfold blockRequest
  try extract_lets
  repeat' first
    | with_reducible assumption
    | with_reducible apply vqRequest_good
    | with_reducible apply dsRequest_good
    | exact and_reserved (by decide)
    | exact reg_merge (by assumption) (by decide)
    | exact and_left_reserved (reg_reserved (by assumption) _)
    | with_reducible apply Good.ite
    | with_reducible apply Good.ite1
    | with_reducible apply Good.ite2
    | fail_if_no_progress (with_reducible apply Good.upd)
    | fail_if_no_progress (with_reducible refine Good.updTim ?_ rfl)
    | fail_if_no_progress (with_reducible refine Good.updTim0 ?_ rfl)
    | fail_if_no_progress (with_reducible refine Good.updRegs ?_ rfl rfl rfl rfl)
    | (intro _; try intros; try extract_lets)
    | split

theorem upstream_good {t ut : Nat} {sob : Int} {ph blk : Nat} {blocks : List UsBlock} {s : State}
    (gs : Good pq s) : Good pq (upstream t ut sob ph blk blocks s) := by
  unfold upstream
  try extract_lets
  repeat' first
    | with_reducible assumption
    | with_reducible apply vqReceive_good
    | with_reducible apply count1_good
    | with_reducible apply loopReceive_good
    | with_reducible apply usBurst_good
    | exact and_reserved (by decide)
    | exact reg_merge (by assumption) (by decide)
    | exact and_left_reserved (reg_reserved (by assumption) _)
    | with_reducible apply Good.ite
    | with_reducible apply Good.ite1
    | with_reducible apply Good.ite2
    | fail_if_no_progress (with_reducible apply Good.upd)
    | fail_if_no_progress (with_reducible refine Good.updTim ?_ rfl)
    | fail_if_no_progress (with_reducible refine Good.updTim0 ?_ rfl)
    | fail_if_no_progress (with_reducible refine Good.updRegs ?_ rfl rfl rfl rfl)
    | (intro _; try intros; try extract_lets)
    | split

end Sys2Proof.Machine
end

