-- ==== Sys2Proof/Laws/GoodBeat.lean ====
section
/-!
SUPPORT. What each operation of Machine/Beat.lean keeps (Laws/Good.lean).
-/

namespace Sys2Proof.Machine

-- one declaration at a time: the package is compiled as one text within a limit of memory
set_option Elab.async false

variable {pq : Ghost}

theorem treeTickEnd_good {t : Nat} {s : State}
    (gs : Good pq s) : Good pq (treeTickEnd t s) := by
  unfold treeTickEnd
  try extract_lets
  repeat' first
    | with_reducible assumption
    | with_reducible apply noticeT_good
    | with_reducible apply modTre_good
    | exact and_reserved (by decide)
    | exact reg_merge (by assumption) (by decide)
    | exact and_left_reserved (reg_reserved (by assumption) _)
    | with_reducible apply Good.ite
    | with_reducible apply Good.ite1
    | with_reducible apply Good.ite2
    | fail_if_no_progress (with_reducible apply Good.upd)
    | fail_if_no_progress (with_reducible refine Good.updTim ?_ rfl)
    | fail_if_no_progress (with_reducible refine Good.updTim0 ?_ rfl)
    | fail_if_no_progress (with_reducible refine Good.updRegs ?_ rfl rfl rfl rfl)
    | (intro _; try intros; try extract_lets)

theorem portTickEnd_good {s : State} {p : Nat}
    (gs : Good pq s) : Good pq (portTickEnd s p) := by
  unfold portTickEnd
  try extract_lets
  repeat' first
    | with_reducible assumption
    | with_reducible apply fault_good
    | with_reducible apply notice0_good
    | with_reducible apply modUpl_good
    | exact and_reserved (by decide)
    | exact reg_merge (by assumption) (by decide)
    | exact and_left_reserved (reg_reserved (by assumption) _)
    | with_reducible apply Good.ite
    | with_reducible apply Good.ite1
    | with_reducible apply Good.ite2
    | fail_if_no_progress (with_reducible apply Good.upd)
    | fail_if_no_progress (with_reducible refine Good.updTim ?_ rfl)
    | fail_if_no_progress (with_reducible refine Good.updTim0 ?_ rfl)
    | fail_if_no_progress (with_reducible refine Good.updRegs ?_ rfl rfl rfl rfl)
    | (intro _; try intros; try extract_lets)

theorem tickEnd_good {s : State}
    (gs : Good pq s) : Good pq (tickEnd s) := by
  unfold tickEnd
  try extract_lets
  repeat' first
    | with_reducible assumption
    | with_reducible apply churnLatch_good
    | with_reducible apply portTickEnd_good
    | with_reducible apply eachTree_good
    | with_reducible apply treeTickEnd_good
    | with_reducible apply Good.foldl

theorem pageSwap_good {t : Nat} {s : State}
    (gs : Good pq s) : Good pq (pageSwap t s) := by
  unfold pageSwap
  try extract_lets
  repeat' first
    | with_reducible assumption
    | with_reducible apply fault_good
    | with_reducible apply count1_good
    | with_reducible apply modTre_good
    | exact and_reserved (by decide)
    | exact reg_merge (by assumption) (by decide)
    | exact and_left_reserved (reg_reserved (by assumption) _)
    | with_reducible apply Good.ite
    | with_reducible apply Good.ite1
    | with_reducible apply Good.ite2
    | fail_if_no_progress (with_reducible apply Good.upd)
    | fail_if_no_progress (with_reducible refine Good.updTim ?_ rfl)
    | fail_if_no_progress (with_reducible refine Good.updTim0 ?_ rfl)
    | fail_if_no_progress (with_reducible refine Good.updRegs ?_ rfl rfl rfl rfl)
    | (intro _; try intros; try extract_lets)

theorem portRejoin_good {s : State} {p : Nat}
    (gs : Good pq s) : Good pq (portRejoin s p) := by
  unfold portRejoin
  try extract_lets
  repeat' first
    | with_reducible assumption
    | with_reducible apply modUpl_good
    | exact and_reserved (by decide)
    | exact reg_merge (by assumption) (by decide)
    | exact and_left_reserved (reg_reserved (by assumption) _)
    | with_reducible apply Good.ite
    | with_reducible apply Good.ite1
    | with_reducible apply Good.ite2
    | fail_if_no_progress (with_reducible apply Good.upd)
    | fail_if_no_progress (with_reducible refine Good.updTim ?_ rfl)
    | fail_if_no_progress (with_reducible refine Good.updTim0 ?_ rfl)
    | fail_if_no_progress (with_reducible refine Good.updRegs ?_ rfl rfl rfl rfl)
    | (intro _; try intros; try extract_lets)

theorem ringLengths_good {s : State}
    (gs : Good pq s) : Good pq (ringLengths s) := by
  unfold ringLengths
  try extract_lets
  repeat' first
    | with_reducible assumption
    | with_reducible apply setRing_good
    | with_reducible apply Good.foldl
    | with_reducible apply Good.foldl1
    | with_reducible apply Good.foldl2
    | exact and_reserved (by decide)
    | exact reg_merge (by assumption) (by decide)
    | exact and_left_reserved (reg_reserved (by assumption) _)
    | with_reducible apply Good.ite
    | with_reducible apply Good.ite1
    | with_reducible apply Good.ite2
    | fail_if_no_progress (with_reducible apply Good.upd)
    | fail_if_no_progress (with_reducible refine Good.updTim ?_ rfl)
    | fail_if_no_progress (with_reducible refine Good.updTim0 ?_ rfl)
    | fail_if_no_progress (with_reducible refine Good.updRegs ?_ rfl rfl rfl rfl)
    | (intro _; try intros; try extract_lets)

theorem usStrobe_good {t : Nat} {s : State}
    (gs : Good pq s) : Good pq (usStrobe t s) := by
  unfold usStrobe
  try extract_lets
  repeat' first
    | with_reducible assumption
    | with_reducible apply atCycle_good
    | with_reducible apply modTre_good
    | exact and_reserved (by decide)
    | exact reg_merge (by assumption) (by decide)
    | exact and_left_reserved (reg_reserved (by assumption) _)
    | with_reducible apply Good.ite
    | with_reducible apply Good.ite1
    | with_reducible apply Good.ite2
    | fail_if_no_progress (with_reducible apply Good.upd)
    | fail_if_no_progress (with_reducible refine Good.updTim ?_ rfl)
    | fail_if_no_progress (with_reducible refine Good.updTim0 ?_ rfl)
    | fail_if_no_progress (with_reducible refine Good.updRegs ?_ rfl rfl rfl rfl)
    | (intro _; try intros; try extract_lets)

theorem tickStart_good {s : State}
    (gs : Good pq s) : Good pq (tickStart s) := by
  unfold tickStart
  try extract_lets
  repeat' first
    | with_reducible assumption
    | with_reducible apply eachTree_good
    | with_reducible apply pageSwap_good
    | with_reducible apply ringLengths_good
    | with_reducible apply tickRegs_good
    | with_reducible apply ctxBoundary_good
    | with_reducible apply imageBoundary_good
    | with_reducible apply portRejoin_good
    | with_reducible apply loopSlots_good
    | with_reducible apply startTree_good
    | with_reducible apply usStrobe_good
    | with_reducible apply runSwitch_good
    | with_reducible apply rotBoundary_good
    | with_reducible apply shiftReports_good
    | with_reducible apply syncServices_good
    | with_reducible apply Good.foldl
    | with_reducible apply Good.foldl1
    | with_reducible apply Good.foldl2
    | exact and_reserved (by decide)
    | exact reg_merge (by assumption) (by decide)
    | exact and_left_reserved (reg_reserved (by assumption) _)
    | with_reducible apply Good.ite
    | with_reducible apply Good.ite1
    | with_reducible apply Good.ite2
    | fail_if_no_progress (with_reducible apply Good.upd)
    | fail_if_no_progress (with_reducible refine Good.updTim ?_ rfl)
    | fail_if_no_progress (with_reducible refine Good.updTim0 ?_ rfl)
    | fail_if_no_progress (with_reducible refine Good.updRegs ?_ rfl rfl rfl rfl)
    | (intro _; try intros; try extract_lets)

theorem tickRest_good {s : State}
    (gs : Good pq s) : Good pq (tickRest s) := by
  unfold tickRest
  try extract_lets
  repeat' first
    | with_reducible assumption
    | with_reducible apply timerWakes_good
    | with_reducible apply treeLatch_good
    | with_reducible apply mrTick_good
    | exact and_reserved (by decide)
    | exact reg_merge (by assumption) (by decide)
    | exact and_left_reserved (reg_reserved (by assumption) _)
    | with_reducible apply Good.ite
    | with_reducible apply Good.ite1
    | with_reducible apply Good.ite2
    | fail_if_no_progress (with_reducible apply Good.upd)
    | fail_if_no_progress (with_reducible refine Good.updTim ?_ rfl)

theorem e2eTu_good {t : Nat} {u : DsTu} {s : State}
    (gs : Good pq s) : Good pq (e2eTu t u s) := by
  unfold e2eTu
  try extract_lets
  repeat' first
    | with_reducible assumption
    | with_reducible apply count1_good
    | with_reducible apply withdrawIf_good
    | with_reducible apply idleAt_good
    | with_reducible apply declareFault_good
    | with_reducible apply setFrame_good
    | exact and_reserved (by decide)
    | exact reg_merge (by assumption) (by decide)
    | exact and_left_reserved (reg_reserved (by assumption) _)
    | with_reducible apply Good.ite
    | with_reducible apply Good.ite1
    | with_reducible apply Good.ite2
    | fail_if_no_progress (with_reducible apply Good.upd)
    | fail_if_no_progress (with_reducible refine Good.updTim ?_ rfl)
    | fail_if_no_progress (with_reducible refine Good.updTim0 ?_ rfl)
    | fail_if_no_progress (with_reducible refine Good.updRegs ?_ rfl rfl rfl rfl)
    | (intro _; try intros; try extract_lets)
    | split

theorem e2eBeat_good {t b : Nat} {s : State}
    (gs : Good pq s) : Good pq (e2eBeat t b s) := by
  unfold e2eBeat
  try extract_lets
  repeat' first
    | with_reducible assumption
    | with_reducible apply assemble_good
    | with_reducible apply e2eTu_good
    | with_reducible apply Good.foldl
    | with_reducible apply Good.foldl1
    | with_reducible apply Good.foldl2
    | exact and_reserved (by decide)
    | exact reg_merge (by assumption) (by decide)
    | exact and_left_reserved (reg_reserved (by assumption) _)
    | with_reducible apply Good.ite
    | with_reducible apply Good.ite1
    | with_reducible apply Good.ite2
    | fail_if_no_progress (with_reducible apply Good.upd)
    | fail_if_no_progress (with_reducible refine Good.updTim ?_ rfl)
    | fail_if_no_progress (with_reducible refine Good.updTim0 ?_ rfl)
    | fail_if_no_progress (with_reducible refine Good.updRegs ?_ rfl rfl rfl rfl)
    | (intro _; try intros; try extract_lets)

theorem assembleAll_good {t : Nat} {s : State}
    (gs : Good pq s) : Good pq (assembleAll t s) := by
  unfold assembleAll
  try extract_lets
  repeat' first
    | with_reducible assumption
    | with_reducible apply txBoundary_good
    | with_reducible apply e2eBeat_good
    | with_reducible apply assemble_good

theorem beatActs_good {s : State}
    (gs : Good pq s) : Good pq (beatActs s) := by
  unfold beatActs
  try extract_lets
  repeat' first
    | with_reducible assumption
    | with_reducible apply eachTree_good
    | with_reducible apply assembleAll_good
    | with_reducible apply skimCapture_good
    | with_reducible apply beatReports_good
    | exact and_reserved (by decide)
    | exact reg_merge (by assumption) (by decide)
    | exact and_left_reserved (reg_reserved (by assumption) _)
    | with_reducible apply Good.ite
    | with_reducible apply Good.ite1
    | with_reducible apply Good.ite2
    | fail_if_no_progress (with_reducible apply Good.upd)
    | fail_if_no_progress (with_reducible refine Good.updTim ?_ rfl)

theorem boundaryActs_good {s : State}
    (gs : Good pq s) : Good pq (boundaryActs s) := by
  unfold boundaryActs
  try extract_lets
  repeat' first
    | with_reducible assumption
    | with_reducible apply beatActs_good
    | with_reducible apply tickRest_good
    | with_reducible apply tickStart_good
    | exact and_reserved (by decide)
    | exact reg_merge (by assumption) (by decide)
    | exact and_left_reserved (reg_reserved (by assumption) _)
    | with_reducible apply Good.ite
    | with_reducible apply Good.ite1
    | with_reducible apply Good.ite2
    | fail_if_no_progress (with_reducible apply Good.upd)
    | fail_if_no_progress (with_reducible refine Good.updTim ?_ rfl)
    | fail_if_no_progress (with_reducible refine Good.updTim0 ?_ rfl)
    | fail_if_no_progress (with_reducible refine Good.updRegs ?_ rfl rfl rfl rfl)
    | (intro _; try intros; try extract_lets)

theorem commitAll_good {s : State}
    (gs : Good pq s) : Good pq (commitAll s) := by
  unfold commitAll
  try extract_lets
  repeat' first
    | with_reducible assumption
    | with_reducible apply pumpFetches_good
    | with_reducible apply takeSel_good
    | with_reducible apply Good.foldl
    | with_reducible apply Good.foldl1
    | with_reducible apply Good.foldl2
    | exact and_reserved (by decide)
    | exact reg_merge (by assumption) (by decide)
    | exact and_left_reserved (reg_reserved (by assumption) _)
    | with_reducible apply Good.ite
    | with_reducible apply Good.ite1
    | with_reducible apply Good.ite2
    | fail_if_no_progress (with_reducible apply Good.upd)
    | fail_if_no_progress (with_reducible refine Good.updTim ?_ rfl)
    | fail_if_no_progress (with_reducible refine Good.updTim0 ?_ rfl)
    | fail_if_no_progress (with_reducible refine Good.updRegs ?_ rfl rfl rfl rfl)
    | (intro _; try intros; try extract_lets)

theorem beatBoundary_good {s : State} (gs : Good pq.free s) : Good pq.free (beatBoundary s) := by
  unfold beatBoundary
  extract_lets s1 tsrc s2 tsrc2
  have g1 : Good pq.free s1 := commitAll_good (toBoundary_good gs)
  clear_value s1
  have g2 : Good pq.free s2 := tickEnd_good g1
  clear_value s2
  refine Good.ite (fun _ => gs) fun _ => Good.ite (fun h => ?_) fun _ => ?_
  · exact afterBoundary_good (boundaryActs_good ⟨g1.pending, g1.regs, by show s1.tim.beat + 1 < 10; omega, nofun⟩)
  · exact afterBoundary_good (boundaryActs_good (timeBoundary_good ⟨g2.pending, g2.regs, by show 0 < 10; omega, nofun⟩))

theorem engineStart_good {s : State}
    (gs : Good pq.free s) : Good pq.free (engineStart s) := by
  unfold engineStart
  try extract_lets
  repeat' first
    | with_reducible assumption
    | with_reducible apply startTime_good
    | with_reducible apply afterBoundary_good
    | with_reducible apply boundaryActs_good
    | exact and_reserved (by decide)
    | exact reg_merge (by assumption) (by decide)
    | exact and_left_reserved (reg_reserved (by assumption) _)
    | with_reducible apply Good.ite
    | with_reducible apply Good.ite1
    | with_reducible apply Good.ite2
    | fail_if_no_progress (with_reducible apply Good.upd)

theorem timeEngineStart_good {s : State}
    (gs : Good pq.free s) : Good pq.free (timeEngineStart s) := by
  unfold timeEngineStart
  try extract_lets
  repeat' first
    | with_reducible assumption
    | with_reducible apply engineStart_good
    | with_reducible apply toBoundary_good
    | exact and_reserved (by decide)
    | exact reg_merge (by assumption) (by decide)
    | exact and_left_reserved (reg_reserved (by assumption) _)
    | with_reducible apply Good.ite
    | with_reducible apply Good.ite1
    | with_reducible apply Good.ite2
    | fail_if_no_progress (with_reducible apply Good.upd)
    | fail_if_no_progress (with_reducible refine Good.updTim ?_ rfl)
    | fail_if_no_progress (with_reducible refine Good.updTim0 ?_ rfl)
    | fail_if_no_progress (with_reducible refine Good.updRegs ?_ rfl rfl rfl rfl)
    | (intro _; try intros; try extract_lets)
    | split

theorem ppsEdge_good {s : State}
    (gs : Good pq.free s) : Good pq.free (ppsEdge s) := by
  unfold ppsEdge
  try extract_lets
  repeat' first
    | with_reducible assumption
    | with_reducible apply count1_good
    | with_reducible apply ppsAccept_good
    | with_reducible apply engineStart_good
    | exact and_reserved (by decide)
    | exact reg_merge (by assumption) (by decide)
    | exact and_left_reserved (reg_reserved (by assumption) _)
    | with_reducible apply Good.ite
    | with_reducible apply Good.ite1
    | with_reducible apply Good.ite2
    | fail_if_no_progress (with_reducible apply Good.upd)
    | fail_if_no_progress (with_reducible refine Good.updTim ?_ rfl)
    | fail_if_no_progress (with_reducible refine Good.updTim0 ?_ rfl)
    | fail_if_no_progress (with_reducible refine Good.updRegs ?_ rfl rfl rfl rfl)
    | (intro _; try intros; try extract_lets)

theorem clockTick_good {s : State}
    (gs : Good pq.free s) : Good pq.free (clockTick s) := by
  unfold clockTick
  try extract_lets
  repeat' first
    | with_reducible assumption
    | with_reducible apply begin__good
    | with_reducible apply beatBoundary_good
    | with_reducible apply lapse_good
    | with_reducible apply engineStart_good
    | with_reducible apply toBoundary_good
    | exact and_reserved (by decide)
    | exact reg_merge (by assumption) (by decide)
    | exact and_left_reserved (reg_reserved (by assumption) _)
    | with_reducible apply Good.ite
    | with_reducible apply Good.ite1
    | with_reducible apply Good.ite2
    | fail_if_no_progress (with_reducible apply Good.upd)
    | fail_if_no_progress (with_reducible refine Good.updTim ?_ rfl)
    | fail_if_no_progress (with_reducible refine Good.updTim0 ?_ rfl)
    | fail_if_no_progress (with_reducible refine Good.updRegs ?_ rfl rfl rfl rfl)
    | (intro _; try intros; try extract_lets)
    | split

end Sys2Proof.Machine
end

