-- ==== Sys2Proof/Laws/GoodExec.lean ====
section
/-!
SUPPORT. Every command answers a next state that keeps what Laws/Good.lean names.
-/

namespace Sys2Proof.Machine

-- one declaration at a time: the package is compiled as one text within a limit of memory
set_option Elab.async false

variable {pq : Ghost}

theorem execBlockReset_good {s : State} (gs : Good pq.free s) :
    ∃ t, execBlockReset s = .next t ∧ Good pq.free t := by
  refine ⟨_, rfl, ?_⟩
  repeat' first
    | with_reducible assumption
    | with_reducible apply blockReset_good

theorem execGlbRstArm_good {part : BitVec 6} {s : State} (gs : Good pq s) :
    ∃ t, execGlbRstArm part s = .next t ∧ Good pq t := by
  refine ⟨_, rfl, ?_⟩
  repeat' first
    | with_reducible assumption
    | with_reducible apply rstWrite_good
    | with_reducible apply rstArm_good
    | with_reducible apply begin__good

theorem execArmingExpire_good {s : State} (gs : Good pq s) :
    ∃ t, execArmingExpire s = .next t ∧ Good pq t := by
  refine ⟨_, rfl, ?_⟩
  repeat' first
    | with_reducible assumption
    | with_reducible apply armingExpire_good
    | with_reducible apply begin__good

theorem execGlbRstBlock_good {part : BitVec 6} {s : State} (gs : Good pq.free s) :
    ∃ t, execGlbRstBlock part s = .next t ∧ Good pq.free t := by
  refine ⟨_, rfl, ?_⟩
  repeat' first
    | with_reducible assumption
    | with_reducible apply rstWrite_good
    | with_reducible apply rstBlock_good
    | with_reducible apply begin__good

theorem execFuseWordRead_good {data : Word} {s : State} (gs : Good pq s) :
    ∃ t, execFuseWordRead data s = .next t ∧ Good pq t := by
  refine ⟨_, rfl, ?_⟩
  repeat' first
    | with_reducible assumption
    | with_reducible apply fuseRead_good
    | with_reducible apply begin__good

theorem execStartupPhaseEnd_good {st : SelfTest} {s : State} (gs : Good pq s) :
    ∃ t, execStartupPhaseEnd st s = .next t ∧ Good pq t := by
  refine ⟨_, rfl, ?_⟩
  repeat' first
    | with_reducible assumption
    | with_reducible apply phaseEnd_good
    | with_reducible apply begin__good

theorem execPartitionReset_good {part : BitVec 6} {data : Word} {s : State} (gs : Good pq s) :
    ∃ t, execPartitionReset part data s = .next t ∧ Good pq t := by
  refine ⟨_, rfl, ?_⟩
  repeat' first
    | with_reducible assumption
    | with_reducible apply p0Write_good
    | with_reducible apply partReset_good
    | with_reducible apply begin__good

theorem execPartitionTableWrite_good {part : BitVec 6} {addr : BitVec 24} {be : BitVec 4} {data : Word} {s : State} (gs : Good pq s) :
    ∃ t, execPartitionTableWrite part addr be data s = .next t ∧ Good pq t := by
  refine ⟨_, rfl, ?_⟩
  repeat' first
    | with_reducible assumption
    | with_reducible apply begin__good
    | with_reducible apply p0Write_good
    | with_reducible apply prtWrite_good
    | with_reducible apply Good.ite
    | with_reducible apply Good.foldl
    | exact BitVec.isLt _
    | (intro _; try intros; try extract_lets)

theorem execRegisterWrite_good {part : BitVec 6} {addr : BitVec 24} {be : BitVec 4} {data : Word} {s : State} (gs : Good pq.free s) :
    ∃ t, execRegisterWrite part addr be data s = .next t ∧ Good pq.free t := by
  refine ⟨_, rfl, ?_⟩
  repeat' first
    | with_reducible assumption
    | with_reducible apply regWrite_good
    | with_reducible apply begin__good

theorem execLoReadCapture_good {part : BitVec 6} {addr : BitVec 24} {be : BitVec 4} {s : State} (gs : Good pq s) :
    ∃ t, execLoReadCapture part addr be s = .next t ∧ Good pq t := by
  refine ⟨_, rfl, ?_⟩
  repeat' first
    | with_reducible assumption
    | with_reducible apply regRead_good
    | with_reducible apply begin__good

theorem execHiWriteCommit_good {part : BitVec 6} {addr : BitVec 24} {be : BitVec 4} {data : Word} {s : State} (gs : Good pq.free s) :
    ∃ t, execHiWriteCommit part addr be data s = .next t ∧ Good pq.free t := by
  refine ⟨_, rfl, ?_⟩
  repeat' first
    | with_reducible assumption
    | with_reducible apply regWrite_good
    | with_reducible apply begin__good

theorem execReadClearRegister_good {part : BitVec 6} {addr : BitVec 24} {be : BitVec 4} {s : State} (gs : Good pq s) :
    ∃ t, execReadClearRegister part addr be s = .next t ∧ Good pq t := by
  refine ⟨_, rfl, ?_⟩
  repeat' first
    | with_reducible assumption
    | with_reducible apply regRead_good
    | with_reducible apply begin__good

theorem execWindowRd_good {part : BitVec 6} {win : Win} {s : State} (gs : Good pq s) :
    ∃ t, execWindowRd part win s = .next t ∧ Good pq t := by
  refine ⟨_, rfl, ?_⟩
  repeat' first
    | with_reducible assumption
    | with_reducible apply windowCmd_good
    | with_reducible apply windowRd_good
    | with_reducible apply begin__good

theorem execWindowWr_good {part : BitVec 6} {win : Win} {s : State} (gs : Good pq s) :
    ∃ t, execWindowWr part win s = .next t ∧ Good pq t := by
  refine ⟨_, rfl, ?_⟩
  repeat' first
    | with_reducible assumption
    | with_reducible apply windowCmd_good
    | with_reducible apply windowWr_good
    | with_reducible apply begin__good

theorem execBeatBoundary_good {s : State} (gs : Good pq.free s) :
    ∃ t, execBeatBoundary s = .next t ∧ Good pq.free t := by
  refine ⟨_, rfl, ?_⟩
  repeat' first
    | with_reducible assumption
    | with_reducible apply beatBoundary_good
    | with_reducible apply begin__good

theorem execSelectionCommit_good {tree : BitVec 6} {s : State} (gs : Good pq s) :
    ∃ t, execSelectionCommit tree s = .next t ∧ Good pq t := by
  refine ⟨_, rfl, ?_⟩
  repeat' first
    | with_reducible assumption
    | with_reducible apply selectionCommit_good
    | with_reducible apply begin__good

theorem execMapCountReset_good {tree : BitVec 6} {s : State} (gs : Good pq s) :
    ∃ t, execMapCountReset tree s = .next t ∧ Good pq t := by
  refine ⟨_, rfl, ?_⟩
  repeat' first
    | with_reducible assumption
    | with_reducible apply mapCountReset_good
    | with_reducible apply begin__good

theorem execReportCutoff_good {s : State} (gs : Good pq s) :
    ∃ t, execReportCutoff s = .next t ∧ Good pq t := by
  refine ⟨_, rfl, ?_⟩
  repeat' first
    | with_reducible assumption
    | with_reducible apply reportCutoff_good
    | with_reducible apply begin__good

theorem execTmmAckTimeout_good {tree : BitVec 6} {seq : Byte} {s : State} (gs : Good pq s) :
    ∃ t, execTmmAckTimeout tree seq s = .next t ∧ Good pq t := by
  refine ⟨_, rfl, ?_⟩
  repeat' first
    | with_reducible assumption
    | with_reducible apply ackTimeout_good
    | with_reducible apply begin__good

theorem execTmmPendingQueued_good {tree : BitVec 6} {s : State} (gs : Good pq s) :
    ∃ t, execTmmPendingQueued tree s = .next t ∧ Good pq t := by
  refine ⟨_, rfl, ?_⟩
  repeat' first
    | with_reducible assumption
    | with_reducible apply tmmPendQueued_good
    | with_reducible apply begin__good

theorem execChurnPass1_good {tree : BitVec 6} {s : State} (gs : Good pq s) :
    ∃ t, execChurnPass1 tree s = .next t ∧ Good pq t := by
  refine ⟨_, rfl, ?_⟩
  repeat' first
    | with_reducible assumption
    | with_reducible apply churnPass1_good
    | with_reducible apply begin__good

theorem execChurnPass2_good {tree : BitVec 6} {s : State} (gs : Good pq s) :
    ∃ t, execChurnPass2 tree s = .next t ∧ Good pq t := by
  refine ⟨_, rfl, ?_⟩
  repeat' first
    | with_reducible assumption
    | with_reducible apply churnPass2_good
    | with_reducible apply begin__good

theorem execPassLate_good {tree : BitVec 6} {s : State} (gs : Good pq s) :
    ∃ t, execPassLate tree s = .next t ∧ Good pq t := by
  refine ⟨_, rfl, ?_⟩
  repeat' first
    | with_reducible assumption
    | with_reducible apply passLate_good
    | with_reducible apply begin__good

theorem execTimeProjection_good {s : State} (gs : Good pq s) :
    ∃ t, execTimeProjection s = .next t ∧ Good pq t := by
  refine ⟨_, rfl, ?_⟩
  repeat' first
    | with_reducible assumption
    | with_reducible apply timeProjection_good
    | with_reducible apply begin__good

theorem execDsBlockRequest_good {tree : BitVec 6} {sot : Bool} {ph : BitVec 6} {s : State} (gs : Good pq s) :
    ∃ t, execDsBlockRequest tree sot ph s = .next t ∧ Good pq t := by
  refine ⟨_, rfl, ?_⟩
  repeat' first
    | with_reducible assumption
    | with_reducible apply blockRequest_good
    | with_reducible apply begin__good

theorem execUpstreamBurst_good {tree : BitVec 6} {utick : BitVec 48} {sob : Int} {ph : BitVec 6} {blk : BitVec 17} {blocks : List UsBlock} {s : State} (gs : Good pq s) :
    ∃ t, execUpstreamBurst tree utick sob ph blk blocks s = .next t ∧ Good pq t := by
  refine ⟨_, rfl, ?_⟩
  repeat' first
    | with_reducible assumption
    | with_reducible apply upstream_good
    | with_reducible apply begin__good

theorem execMissedBurst_good {tree : BitVec 6} {utick : BitVec 48} {blk : BitVec 17} {s : State} (gs : Good pq s) :
    ∃ t, execMissedBurst tree utick blk s = .next t ∧ Good pq t := by
  refine ⟨_, rfl, ?_⟩
  repeat' first
    | with_reducible assumption
    | with_reducible apply missedBurst_good
    | with_reducible apply begin__good

theorem execReassemblyTimeout_good {tree : BitVec 6} {hnd : BitVec 12} {s : State} (gs : Good pq s) :
    ∃ t, execReassemblyTimeout tree hnd s = .next t ∧ Good pq t := by
  refine ⟨_, rfl, ?_⟩
  repeat' first
    | with_reducible assumption
    | with_reducible apply reasmTimeout_good
    | with_reducible apply begin__good

theorem execHeardEntryExpire_good {tree : BitVec 6} {serial : BitVec 64} {s : State} (gs : Good pq s) :
    ∃ t, execHeardEntryExpire tree serial s = .next t ∧ Good pq t := by
  refine ⟨_, rfl, ?_⟩
  repeat' first
    | with_reducible assumption
    | with_reducible apply heardExpire_good
    | with_reducible apply begin__good

theorem execLostHoldExpire_good {tree : BitVec 6} {tid : BitVec 10} {s : State} (gs : Good pq s) :
    ∃ t, execLostHoldExpire tree tid s = .next t ∧ Good pq t := by
  refine ⟨_, rfl, ?_⟩
  repeat' first
    | with_reducible assumption
    | with_reducible apply lostExpire_good
    | with_reducible apply begin__good

theorem execTerminalIdFree_good {tree : BitVec 6} {tid : BitVec 10} {s : State} (gs : Good pq s) :
    ∃ t, execTerminalIdFree tree tid s = .next t ∧ Good pq t := by
  refine ⟨_, rfl, ?_⟩
  repeat' first
    | with_reducible assumption
    | with_reducible apply idFree_good
    | with_reducible apply begin__good

theorem execPswRequest_good {tree : BitVec 6} {code : BitVec 3} {swAt : BitVec 8} {s : State} (gs : Good pq s) :
    ∃ t, execPswRequest tree code swAt s = .next t ∧ Good pq t := by
  refine ⟨_, rfl, ?_⟩
  repeat' first
    | with_reducible assumption
    | with_reducible apply pswRequest_good
    | with_reducible apply begin__good

theorem execTreeEnableWrite_good {part : BitVec 6} {tree : BitVec 6} {be : BitVec 4} {data : Word} {s : State} (gs : Good pq s) :
    ∃ t, execTreeEnableWrite part tree be data s = .next t ∧ Good pq t := by
  refine ⟨_, rfl, ?_⟩
  repeat' first
    | with_reducible assumption
    | with_reducible apply treeWrite_good
    | with_reducible apply writeTreCfg_good
    | with_reducible apply begin__good
    | with_reducible apply Good.ite
    | with_reducible apply Good.foldl
    | exact BitVec.isLt _
    | (intro _; try intros; try extract_lets)

theorem execPrelistSet_good {part : BitVec 6} {tree : BitVec 6} {s : State} (gs : Good pq s) :
    ∃ t, execPrelistSet part tree s = .next t ∧ Good pq t := by
  refine ⟨_, rfl, ?_⟩
  repeat' first
    | with_reducible assumption
    | with_reducible apply treeWrite_good
    | with_reducible apply prelist_good
    | with_reducible apply begin__good

theorem execPrelistClr_good {part : BitVec 6} {tree : BitVec 6} {s : State} (gs : Good pq s) :
    ∃ t, execPrelistClr part tree s = .next t ∧ Good pq t := by
  refine ⟨_, rfl, ?_⟩
  repeat' first
    | with_reducible assumption
    | with_reducible apply treeWrite_good
    | with_reducible apply prelist_good
    | with_reducible apply begin__good

theorem execUplinkFrameReceive_good {port : BitVec 4} {bytes : List Byte} {rxErr full : Bool} {ph : BitVec 6} {tableUe : Option Word} {s : State} (gs : Good pq s) :
    ∃ t, execUplinkFrameReceive port bytes rxErr full ph tableUe s = .next t ∧ Good pq t := by
  refine ⟨_, rfl, ?_⟩
  repeat' first
    | with_reducible assumption
    | with_reducible apply portReceive_good
    | with_reducible apply begin__good

theorem execPauseReceive_good {port : BitVec 4} {bytes : List Byte} {rxErr : Bool} {s : State} (gs : Good pq s) :
    ∃ t, execPauseReceive port bytes rxErr s = .next t ∧ Good pq t := by
  refine ⟨_, rfl, ?_⟩
  repeat' first
    | with_reducible assumption
    | with_reducible apply portReceive_good
    | with_reducible apply begin__good

theorem execPfcReceive_good {port : BitVec 4} {bytes : List Byte} {rxErr : Bool} {s : State} (gs : Good pq s) :
    ∃ t, execPfcReceive port bytes rxErr s = .next t ∧ Good pq t := by
  refine ⟨_, rfl, ?_⟩
  repeat' first
    | with_reducible assumption
    | with_reducible apply portReceive_good
    | with_reducible apply begin__good

theorem execPauseTimerExpire_good {port : BitVec 4} {prio : BitVec 3} {s : State} (gs : Good pq s) :
    ∃ t, execPauseTimerExpire port prio s = .next t ∧ Good pq t := by
  refine ⟨_, rfl, ?_⟩
  repeat' first
    | with_reducible assumption
    | with_reducible apply pauseExpire_good
    | with_reducible apply begin__good

theorem execFcResend_good {port : BitVec 4} {s : State} (gs : Good pq s) :
    ∃ t, execFcResend port s = .next t ∧ Good pq t := by
  refine ⟨_, rfl, ?_⟩
  repeat' first
    | with_reducible assumption
    | with_reducible apply fcResend_good
    | with_reducible apply begin__good

theorem execLinkDown_good {port : BitVec 4} {s : State} (gs : Good pq s) :
    ∃ t, execLinkDown port s = .next t ∧ Good pq t := by
  refine ⟨_, rfl, ?_⟩
  repeat' first
    | with_reducible assumption
    | with_reducible apply linkDown_good
    | with_reducible apply begin__good

theorem execLinkUp_good {port : BitVec 4} {s : State} (gs : Good pq s) :
    ∃ t, execLinkUp port s = .next t ∧ Good pq t := by
  refine ⟨_, rfl, ?_⟩
  repeat' first
    | with_reducible assumption
    | with_reducible apply linkUp_good
    | with_reducible apply begin__good

theorem execLagRejoin_good {part : BitVec 6} {port : BitVec 4} {s : State} (gs : Good pq s) :
    ∃ t, execLagRejoin part port s = .next t ∧ Good pq t := by
  refine ⟨_, rfl, ?_⟩
  repeat' first
    | with_reducible assumption
    | with_reducible apply p0Write_good
    | with_reducible apply lagRejoin_good
    | with_reducible apply begin__good

theorem execPortEnableWrite_good {part : BitVec 6} {port : BitVec 4} {be : BitVec 4} {data : Word} {s : State} (gs : Good pq s) :
    ∃ t, execPortEnableWrite part port be data s = .next t ∧ Good pq t := by
  refine ⟨_, rfl, ?_⟩
  repeat' first
    | with_reducible assumption
    | with_reducible apply p0Write_good
    | with_reducible apply writeUplCfg_good
    | with_reducible apply begin__good
    | with_reducible apply Good.ite
    | with_reducible apply Good.foldl
    | exact BitVec.isLt _
    | (intro _; try intros; try extract_lets)

theorem execUplinkFrameTransmit_good {port : BitVec 4} {ph : TxPh} {feed : TxFeed} {s : State} (gs : Good pq s) :
    ∃ t, execUplinkFrameTransmit port ph feed s = .next t ∧ Good pq t := by
  refine ⟨_, rfl, ?_⟩
  repeat' first
    | with_reducible assumption
    | with_reducible apply portTransmit_good
    | with_reducible apply begin__good

theorem execCipherResponse_good {chan : Fin 18} {seq : Byte} {st : CpqSt} {data : List Byte} {tableUe : Option Word} {s : State} (gs : Good pq s) :
    ∃ t, execCipherResponse chan seq st data tableUe s = .next t ∧ Good pq t := by
  refine ⟨_, rfl, ?_⟩
  repeat' first
    | with_reducible assumption
    | with_reducible apply cipherResponse_good
    | with_reducible apply begin__good

theorem execCipherRequestLost_good {chan : Fin 18} {seq : Byte} {s : State} (gs : Good pq s) :
    ∃ t, execCipherRequestLost chan seq s = .next t ∧ Good pq t := by
  refine ⟨_, rfl, ?_⟩
  repeat' first
    | with_reducible assumption
    | with_reducible apply cipherLost_good
    | with_reducible apply begin__good

theorem execKeyWriteAck_good {s : State} (gs : Good pq s) :
    ∃ t, execKeyWriteAck s = .next t ∧ Good pq t := by
  refine ⟨_, rfl, ?_⟩
  repeat' first
    | with_reducible assumption
    | with_reducible apply keyWriteAck_good
    | with_reducible apply begin__good

theorem execKeyTmo_good {s : State} (gs : Good pq s) :
    ∃ t, execKeyTmo s = .next t ∧ Good pq t := by
  refine ⟨_, rfl, ?_⟩
  repeat' first
    | with_reducible assumption
    | with_reducible apply keyLate_good
    | with_reducible apply begin__good

theorem execKeyCommandResume_good {part : BitVec 6} {s : State} (gs : Good pq s) :
    ∃ t, execKeyCommandResume part s = .next t ∧ Good pq t := by
  refine ⟨_, rfl, ?_⟩
  repeat' first
    | with_reducible assumption
    | with_reducible apply keyGoesOn_good
    | with_reducible apply begin__good

theorem execDeepWriteAck_good {frame : Nat} {err : Bool} {s : State} (gs : Good pq s) :
    ∃ t, execDeepWriteAck frame err s = .next t ∧ Good pq t := by
  refine ⟨_, rfl, ?_⟩
  repeat' first
    | with_reducible assumption
    | with_reducible apply deepWriteAck_good
    | with_reducible apply begin__good

theorem execDeepReadReturn_good {frame : Nat} {back : DeepBack} {s : State} (gs : Good pq s) :
    ∃ t, execDeepReadReturn frame back s = .next t ∧ Good pq t := by
  refine ⟨_, rfl, ?_⟩
  repeat' first
    | with_reducible assumption
    | with_reducible apply deepReadReturn_good
    | with_reducible apply begin__good

theorem execDeepReadLate_good {frame : Nat} {s : State} (gs : Good pq s) :
    ∃ t, execDeepReadLate frame s = .next t ∧ Good pq t := by
  refine ⟨_, rfl, ?_⟩
  repeat' first
    | with_reducible assumption
    | with_reducible apply deepReadLate_good
    | with_reducible apply begin__good

theorem execDeepBudgetWrite_good {part : BitVec 6} {tree : BitVec 6} {be : BitVec 4} {data : Word} {s : State} (gs : Good pq s) :
    ∃ t, execDeepBudgetWrite part tree be data s = .next t ∧ Good pq t := by
  refine ⟨_, rfl, ?_⟩
  repeat' first
    | with_reducible assumption
    | with_reducible apply p0Write_good
    | with_reducible apply putReg_good
    | with_reducible apply begin__good

theorem execScrubRead_good {hits : List ScrubHit} {s : State} (gs : Good pq s) :
    ∃ t, execScrubRead hits s = .next t ∧ Good pq t := by
  refine ⟨_, rfl, ?_⟩
  repeat' first
    | with_reducible assumption
    | with_reducible apply scrubRead_good
    | with_reducible apply begin__good

theorem execRetireGo_good {part : BitVec 6} {be : BitVec 4} {data : Word} {s : State} (gs : Good pq s) :
    ∃ t, execRetireGo part be data s = .next t ∧ Good pq t := by
  refine ⟨_, rfl, ?_⟩
  repeat' first
    | with_reducible assumption
    | with_reducible apply p0Write_good
    | with_reducible apply writeRetire_good
    | with_reducible apply begin__good

theorem execRetirementDone_good {s : State} (gs : Good pq s) :
    ∃ t, execRetirementDone s = .next t ∧ Good pq t := by
  refine ⟨_, rfl, ?_⟩
  repeat' first
    | with_reducible assumption
    | with_reducible apply retirementDone_good
    | with_reducible apply begin__good

theorem execRingDoorbell_good {part : BitVec 6} {kind : RingKind} {ring : BitVec 11} {s : State} (gs : Good pq s) :
    ∃ t, execRingDoorbell part kind ring s = .next t ∧ Good pq t := by
  refine ⟨_, rfl, ?_⟩
  repeat' first
    | with_reducible assumption
    | with_reducible apply begin__good
    | with_reducible apply doorbell_good
    | with_reducible apply Good.ite
    | with_reducible apply Good.foldl
    | exact BitVec.isLt _
    | (intro _; try intros; try extract_lets)

theorem execConsumerDoorbell_good {part : BitVec 6} {kind : RingKind} {ring : BitVec 11} {data : Word} {s : State} (gs : Good pq s) :
    ∃ t, execConsumerDoorbell part kind ring data s = .next t ∧ Good pq t := by
  refine ⟨_, rfl, ?_⟩
  repeat' first
    | with_reducible assumption
    | with_reducible apply doorbell_good
    | with_reducible apply begin__good
    | with_reducible apply Good.ite
    | with_reducible apply Good.foldl
    | exact BitVec.isLt _
    | (intro _; try intros; try extract_lets)

theorem execDescriptorFetchDone_good {chan : Fin 2} {tag : BitVec 9} {words : List Word} {err : Bool} {s : State} (gs : Good pq s) :
    ∃ t, execDescriptorFetchDone chan tag words err s = .next t ∧ Good pq t := by
  refine ⟨_, rfl, ?_⟩
  repeat' first
    | with_reducible assumption
    | with_reducible apply descFetch_good
    | with_reducible apply begin__good

theorem execChainFetchDone_good {acc : HmpTag} {words : List Word} {err : Bool} {s : State} (gs : Good pq s) :
    ∃ t, execChainFetchDone acc words err s = .next t ∧ Good pq t := by
  refine ⟨_, rfl, ?_⟩
  repeat' first
    | with_reducible assumption
    | with_reducible apply chainFetch_good
    | with_reducible apply begin__good

theorem execSendDataFetchDone_good {acc : HmpTag} {bytes : List Byte} {err : Bool} {tableUe : Option Word} {s : State} (gs : Good pq s) :
    ∃ t, execSendDataFetchDone acc bytes err tableUe s = .next t ∧ Good pq t := by
  refine ⟨_, rfl, ?_⟩
  repeat' first
    | with_reducible assumption
    | with_reducible apply sendData_good
    | with_reducible apply begin__good

theorem execSendFrameStart_good {ring : BitVec 11} {s : State} (gs : Good pq s) :
    ∃ t, execSendFrameStart ring s = .next t ∧ Good pq t := by
  refine ⟨_, rfl, ?_⟩
  repeat' first
    | with_reducible assumption
    | with_reducible apply sendStart_good
    | with_reducible apply begin__good

theorem execFillDeliveryStart_good {ring : BitVec 11} {s : State} (gs : Good pq s) :
    ∃ t, execFillDeliveryStart ring s = .next t ∧ Good pq t := by
  refine ⟨_, rfl, ?_⟩
  repeat' first
    | with_reducible assumption
    | with_reducible apply fillDeliver_good
    | with_reducible apply begin__good

theorem execHostWriteAck_good {chan : Fin 2} {tag : BitVec 9} {err : Bool} {s : State} (gs : Good pq s) :
    ∃ t, execHostWriteAck chan tag err s = .next t ∧ Good pq t := by
  refine ⟨_, rfl, ?_⟩
  repeat' first
    | with_reducible assumption
    | with_reducible apply hostWriteAck_good
    | with_reducible apply begin__good

theorem execHostAccessTimeout_good {write : Bool} {chan : Fin 2} {tag : BitVec 9} {s : State} (gs : Good pq s) :
    ∃ t, execHostAccessTimeout write chan tag s = .next t ∧ Good pq t := by
  refine ⟨_, rfl, ?_⟩
  repeat' first
    | with_reducible assumption
    | with_reducible apply accessTimeout_good
    | with_reducible apply begin__good

theorem execFillRecordIssue_good {ring : BitVec 11} {s : State} (gs : Good pq s) :
    ∃ t, execFillRecordIssue ring s = .next t ∧ Good pq t := by
  refine ⟨_, rfl, ?_⟩
  repeat' first
    | with_reducible assumption
    | with_reducible apply recordIssue_good
    | with_reducible apply begin__good

theorem execSendRecordIssue_good {ring : BitVec 11} {s : State} (gs : Good pq s) :
    ∃ t, execSendRecordIssue ring s = .next t ∧ Good pq t := by
  refine ⟨_, rfl, ?_⟩
  repeat' first
    | with_reducible assumption
    | with_reducible apply recordIssue_good
    | with_reducible apply begin__good

theorem execRingDisable_good {part : BitVec 6} {kind : RingKind} {reg : BitVec 6} {data : Word} {s : State} (gs : Good pq s) :
    ∃ t, execRingDisable part kind reg data s = .next t ∧ Good pq t := by
  refine ⟨_, rfl, ?_⟩
  repeat' first
    | with_reducible assumption
    | with_reducible apply begin__good
    | with_reducible apply rdisWrite_good
    | with_reducible apply Good.ite
    | with_reducible apply Good.foldl
    | exact BitVec.isLt _
    | (intro _; try intros; try extract_lets)

theorem execRingContextWrite_good {part : BitVec 6} {kind : RingKind} {ring : BitVec 11} {word : Fin 6} {data : Word} {s : State} (gs : Good pq s) :
    ∃ t, execRingContextWrite part kind ring word data s = .next t ∧ Good pq t := by
  refine ⟨_, rfl, ?_⟩
  repeat' first
    | with_reducible assumption
    | with_reducible apply p0Write_good
    | with_reducible apply rctxWrite_good
    | with_reducible apply begin__good

theorem execChannelConfigWrite_good {part : BitVec 6} {chan : Byte} {data : Word} {s : State} (gs : Good pq s) :
    ∃ t, execChannelConfigWrite part chan data s = .next t ∧ Good pq t := by
  refine ⟨_, rfl, ?_⟩
  repeat' first
    | with_reducible assumption
    | with_reducible apply p0Write_good
    | with_reducible apply chanWrite_good
    | with_reducible apply begin__good
    | with_reducible apply Good.ite
    | with_reducible apply Good.foldl
    | exact BitVec.isLt _
    | (intro _; try intros; try extract_lets)

theorem execRingSet_good {part : BitVec 6} {kind : BitVec 2} {ring : BitVec 11} {ctx : W6} {s : State} (gs : Good pq s) :
    ∃ t, execRingSet part kind ring ctx s = .next t ∧ Good pq t := by
  refine ⟨_, rfl, ?_⟩
  repeat' first
    | with_reducible assumption
    | with_reducible apply cmdGo_good
    | with_reducible apply ringSet_good
    | with_reducible apply begin__good

theorem execRingQuiesce_good {part : BitVec 6} {kind : BitVec 2} {ring : BitVec 11} {s : State} (gs : Good pq s) :
    ∃ t, execRingQuiesce part kind ring s = .next t ∧ Good pq t := by
  refine ⟨_, rfl, ?_⟩
  repeat' first
    | with_reducible assumption
    | with_reducible apply cmdGo_good
    | with_reducible apply ringQuiesce_good
    | with_reducible apply begin__good

theorem execRingQuiesceDone_good {kind : RingKind} {ring : BitVec 11} {s : State} (gs : Good pq s) :
    ∃ t, execRingQuiesceDone kind ring s = .next t ∧ Good pq t := by
  refine ⟨_, rfl, ?_⟩
  repeat' first
    | with_reducible assumption
    | with_reducible apply ringQuiesceDone_good
    | with_reducible apply begin__good

theorem execRingResume_good {part : BitVec 6} {kind : BitVec 2} {ring : BitVec 11} {s : State} (gs : Good pq s) :
    ∃ t, execRingResume part kind ring s = .next t ∧ Good pq t := by
  refine ⟨_, rfl, ?_⟩
  repeat' first
    | with_reducible assumption
    | with_reducible apply cmdGo_good
    | with_reducible apply ringResume_good
    | with_reducible apply begin__good

theorem execAllocSet_good {part : BitVec 6} {tree : BitVec 6} {hnd : BitVec 12} {entry : W4} {s : State} (gs : Good pq s) :
    ∃ t, execAllocSet part tree hnd entry s = .next t ∧ Good pq t := by
  refine ⟨_, rfl, ?_⟩
  repeat' first
    | with_reducible assumption
    | with_reducible apply cmdGo_good
    | with_reducible apply allocSet_good
    | with_reducible apply begin__good

theorem execQueueSet_good {part : BitVec 6} {tree : BitVec 6} {queue : BitVec 11} {ctx : W4} {s : State} (gs : Good pq s) :
    ∃ t, execQueueSet part tree queue ctx s = .next t ∧ Good pq t := by
  refine ⟨_, rfl, ?_⟩
  repeat' first
    | with_reducible assumption
    | with_reducible apply cmdGo_good
    | with_reducible apply queueSet_good
    | with_reducible apply begin__good

theorem execAdmit_good {part : BitVec 6} {tree : BitVec 6} {tid : BitVec 10} {serial : BitVec 64} {s : State} (gs : Good pq s) :
    ∃ t, execAdmit part tree tid serial s = .next t ∧ Good pq t := by
  refine ⟨_, rfl, ?_⟩
  repeat' first
    | with_reducible assumption
    | with_reducible apply cmdGo_good
    | with_reducible apply admitCmd_good
    | with_reducible apply begin__good

theorem execActivate_good {part : BitVec 6} {tree : BitVec 6} {tid : BitVec 10} {s : State} (gs : Good pq s) :
    ∃ t, execActivate part tree tid s = .next t ∧ Good pq t := by
  refine ⟨_, rfl, ?_⟩
  repeat' first
    | with_reducible assumption
    | with_reducible apply cmdGo_good
    | with_reducible apply terminalCmd_good
    | with_reducible apply begin__good

theorem execQuiet_good {part : BitVec 6} {tree : BitVec 6} {tid : BitVec 10} {s : State} (gs : Good pq s) :
    ∃ t, execQuiet part tree tid s = .next t ∧ Good pq t := by
  refine ⟨_, rfl, ?_⟩
  repeat' first
    | with_reducible assumption
    | with_reducible apply cmdGo_good
    | with_reducible apply terminalCmd_good
    | with_reducible apply begin__good

theorem execResume_good {part : BitVec 6} {tree : BitVec 6} {tid : BitVec 10} {s : State} (gs : Good pq s) :
    ∃ t, execResume part tree tid s = .next t ∧ Good pq t := by
  refine ⟨_, rfl, ?_⟩
  repeat' first
    | with_reducible assumption
    | with_reducible apply cmdGo_good
    | with_reducible apply terminalCmd_good
    | with_reducible apply begin__good

theorem execRelease_good {part : BitVec 6} {tree : BitVec 6} {tid : BitVec 10} {s : State} (gs : Good pq s) :
    ∃ t, execRelease part tree tid s = .next t ∧ Good pq t := by
  refine ⟨_, rfl, ?_⟩
  repeat' first
    | with_reducible assumption
    | with_reducible apply cmdGo_good
    | with_reducible apply release_good
    | with_reducible apply terminalCmd_good
    | with_reducible apply begin__good

theorem execDisable_good {part : BitVec 6} {tree : BitVec 6} {tid : BitVec 10} {s : State} (gs : Good pq s) :
    ∃ t, execDisable part tree tid s = .next t ∧ Good pq t := by
  refine ⟨_, rfl, ?_⟩
  repeat' first
    | with_reducible assumption
    | with_reducible apply cmdGo_good
    | with_reducible apply terminalCmd_good
    | with_reducible apply begin__good

theorem execRerange_good {part : BitVec 6} {tree : BitVec 6} {tid : BitVec 10} {s : State} (gs : Good pq s) :
    ∃ t, execRerange part tree tid s = .next t ∧ Good pq t := by
  refine ⟨_, rfl, ?_⟩
  repeat' first
    | with_reducible assumption
    | with_reducible apply cmdGo_good
    | with_reducible apply terminalCmd_good
    | with_reducible apply begin__good

theorem execDiscNow_good {part : BitVec 6} {tree : BitVec 6} {s : State} (gs : Good pq s) :
    ∃ t, execDiscNow part tree s = .next t ∧ Good pq t := by
  refine ⟨_, rfl, ?_⟩
  repeat' first
    | with_reducible assumption
    | with_reducible apply cmdGo_good
    | with_reducible apply discNow_good
    | with_reducible apply begin__good

theorem execTmmSend_good {part : BitVec 6} {tree : BitVec 6} {tid : BitVec 10} {addr : BitVec 52} {s : State} (gs : Good pq s) :
    ∃ t, execTmmSend part tree tid addr s = .next t ∧ Good pq t := by
  refine ⟨_, rfl, ?_⟩
  repeat' first
    | with_reducible assumption
    | with_reducible apply cmdGo_good
    | with_reducible apply tmmSendCmd_good
    | with_reducible apply begin__good

theorem execTmmCommandQueued_good {part : BitVec 6} {s : State} (gs : Good pq s) :
    ∃ t, execTmmCommandQueued part s = .next t ∧ Good pq t := by
  refine ⟨_, rfl, ?_⟩
  repeat' first
    | with_reducible assumption
    | with_reducible apply tmmCmdQueued_good
    | with_reducible apply begin__good

theorem execKeyLoad_good {part : BitVec 6} {slot : BitVec 17} {klen : Bool} {addr : BitVec 52} {s : State} (gs : Good pq s) :
    ∃ t, execKeyLoad part slot klen addr s = .next t ∧ Good pq t := by
  refine ⟨_, rfl, ?_⟩
  repeat' first
    | with_reducible assumption
    | with_reducible apply cmdGo_good
    | with_reducible apply keyLoadCmd_good
    | with_reducible apply begin__good

theorem execKeyErase_good {part : BitVec 6} {slot : BitVec 17} {s : State} (gs : Good pq s) :
    ∃ t, execKeyErase part slot s = .next t ∧ Good pq t := by
  refine ⟨_, rfl, ?_⟩
  repeat' first
    | with_reducible assumption
    | with_reducible apply cmdGo_good
    | with_reducible apply keyEraseCmd_good
    | with_reducible apply begin__good

theorem execKeyLut_good {part : BitVec 6} {slot : BitVec 17} {tick : BitVec 48} {s : State} (gs : Good pq s) :
    ∃ t, execKeyLut part slot tick s = .next t ∧ Good pq t := by
  refine ⟨_, rfl, ?_⟩
  repeat' first
    | with_reducible assumption
    | with_reducible apply cmdGo_good
    | with_reducible apply keyLutCmd_good
    | with_reducible apply begin__good

theorem execKeySwitch_good {part : BitVec 6} {tree : BitVec 6} {tid : BitVec 10} {ksel : BitVec 2} {s : State} (gs : Good pq s) :
    ∃ t, execKeySwitch part tree tid ksel s = .next t ∧ Good pq t := by
  refine ⟨_, rfl, ?_⟩
  repeat' first
    | with_reducible assumption
    | with_reducible apply cmdGo_good
    | with_reducible apply keySwitchCmd_good
    | with_reducible apply begin__good

theorem execEmAdd_good {part : BitVec 6} {dir : Bool} {addr : BitVec 52} {s : State} (gs : Good pq s) :
    ∃ t, execEmAdd part dir addr s = .next t ∧ Good pq t := by
  refine ⟨_, rfl, ?_⟩
  repeat' first
    | with_reducible assumption
    | with_reducible apply cmdGo_good
    | with_reducible apply emCmd_good
    | with_reducible apply begin__good

theorem execEmMod_good {part : BitVec 6} {dir : Bool} {addr : BitVec 52} {s : State} (gs : Good pq s) :
    ∃ t, execEmMod part dir addr s = .next t ∧ Good pq t := by
  refine ⟨_, rfl, ?_⟩
  repeat' first
    | with_reducible assumption
    | with_reducible apply cmdGo_good
    | with_reducible apply emCmd_good
    | with_reducible apply begin__good

theorem execEmDel_good {part : BitVec 6} {dir : Bool} {addr : BitVec 52} {s : State} (gs : Good pq s) :
    ∃ t, execEmDel part dir addr s = .next t ∧ Good pq t := by
  refine ⟨_, rfl, ?_⟩
  repeat' first
    | with_reducible assumption
    | with_reducible apply cmdGo_good
    | with_reducible apply emCmd_good
    | with_reducible apply begin__good

theorem execClsSwap_good {part : BitVec 6} {s : State} (gs : Good pq s) :
    ∃ t, execClsSwap part s = .next t ∧ Good pq t := by
  refine ⟨_, rfl, ?_⟩
  repeat' first
    | with_reducible assumption
    | with_reducible apply cmdGo_good
    | with_reducible apply clsSwapCmd_good
    | with_reducible apply begin__good

theorem execClsPageSync_good {s : State} (gs : Good pq s) :
    ∃ t, execClsPageSync s = .next t ∧ Good pq t := by
  refine ⟨_, rfl, ?_⟩
  repeat' first
    | with_reducible assumption
    | with_reducible apply pageSync_good
    | with_reducible apply begin__good

theorem execTableUeRewrite_good {cap : Word} {clean : Bool} {s : State} (gs : Good pq s) :
    ∃ t, execTableUeRewrite cap clean s = .next t ∧ Good pq t := by
  refine ⟨_, rfl, ?_⟩
  repeat' first
    | with_reducible assumption
    | with_reducible apply ueRewrite_good
    | with_reducible apply begin__good

theorem execOverlayApply_good {part : BitVec 6} {img : BitVec 5} {addr : BitVec 52} {count : BitVec 21} {s : State} (gs : Good pq s) :
    ∃ t, execOverlayApply part img addr count s = .next t ∧ Good pq t := by
  refine ⟨_, rfl, ?_⟩
  repeat' first
    | with_reducible assumption
    | with_reducible apply cmdGo_good
    | with_reducible apply overlayCmd_good
    | with_reducible apply begin__good

theorem execImageReadDone_good {acc : HmpTag} {recs : List ImgRec} {err : Bool} {s : State} (gs : Good pq s) :
    ∃ t, execImageReadDone acc recs err s = .next t ∧ Good pq t := by
  refine ⟨_, rfl, ?_⟩
  repeat' first
    | with_reducible assumption
    | with_reducible apply imageRead_good
    | with_reducible apply begin__good

theorem execTimStart_good {part : BitVec 6} {s : State} (gs : Good pq s) :
    ∃ t, execTimStart part s = .next t ∧ Good pq t := by
  refine ⟨_, rfl, ?_⟩
  repeat' first
    | with_reducible assumption
    | with_reducible apply p0Write_good
    | with_reducible apply ctlStart_good
    | with_reducible apply begin__good

theorem execTimeEngineStart_good {s : State} (gs : Good pq.free s) :
    ∃ t, execTimeEngineStart s = .next t ∧ Good pq.free t := by
  refine ⟨_, rfl, ?_⟩
  repeat' first
    | with_reducible assumption
    | with_reducible apply timeEngineStart_good
    | with_reducible apply begin__good

theorem execTimRestart_good {part : BitVec 6} {s : State} (gs : Good pq s) :
    ∃ t, execTimRestart part s = .next t ∧ Good pq t := by
  refine ⟨_, rfl, ?_⟩
  repeat' first
    | with_reducible assumption
    | with_reducible apply p0Write_good
    | with_reducible apply ctlRestart_good
    | with_reducible apply begin__good

theorem execStepGo_good {part : BitVec 6} {s : State} (gs : Good pq s) :
    ∃ t, execStepGo part s = .next t ∧ Good pq t := by
  refine ⟨_, rfl, ?_⟩
  repeat' first
    | with_reducible assumption
    | with_reducible apply p0Write_good
    | with_reducible apply ctlStep_good
    | with_reducible apply begin__good

theorem execTimHold_good {part : BitVec 6} {s : State} (gs : Good pq s) :
    ∃ t, execTimHold part s = .next t ∧ Good pq t := by
  refine ⟨_, rfl, ?_⟩
  repeat' first
    | with_reducible assumption
    | with_reducible apply p0Write_good
    | with_reducible apply ctlHold_good
    | with_reducible apply begin__good

theorem execHoldClr_good {part : BitVec 6} {s : State} (gs : Good pq s) :
    ∃ t, execHoldClr part s = .next t ∧ Good pq t := by
  refine ⟨_, rfl, ?_⟩
  repeat' first
    | with_reducible assumption
    | with_reducible apply p0Write_good
    | with_reducible apply ctlHoldClr_good
    | with_reducible apply begin__good

theorem execHoldWatchdogExpire_good {s : State} (gs : Good pq s) :
    ∃ t, execHoldWatchdogExpire s = .next t ∧ Good pq t := by
  refine ⟨_, rfl, ?_⟩
  repeat' first
    | with_reducible assumption
    | with_reducible apply holdWatchdog_good
    | with_reducible apply begin__good

theorem execTraceLost_good {s : State} (gs : Good pq s) :
    ∃ t, execTraceLost s = .next t ∧ Good pq t := by
  refine ⟨_, rfl, ?_⟩
  repeat' first
    | with_reducible assumption
    | with_reducible apply traceLost_good
    | with_reducible apply begin__good

theorem execTimIncWrite_good {part : BitVec 6} {be : BitVec 4} {data : Word} {s : State} (gs : Good pq s) :
    ∃ t, execTimIncWrite part be data s = .next t ∧ Good pq t := by
  refine ⟨_, rfl, ?_⟩
  repeat' first
    | with_reducible assumption
    | with_reducible apply p0Write_good
    | with_reducible apply incHi_good
    | with_reducible apply begin__good

theorem execTimSlewWrite_good {part : BitVec 6} {be : BitVec 4} {data : Word} {s : State} (gs : Good pq s) :
    ∃ t, execTimSlewWrite part be data s = .next t ∧ Good pq t := by
  refine ⟨_, rfl, ?_⟩
  repeat' first
    | with_reducible assumption
    | with_reducible apply p0Write_good
    | with_reducible apply slewHi_good
    | with_reducible apply begin__good

theorem execSlewEnd_good {s : State} (gs : Good pq s) :
    ∃ t, execSlewEnd s = .next t ∧ Good pq t := by
  refine ⟨_, rfl, ?_⟩
  repeat' first
    | with_reducible assumption
    | with_reducible apply slewEnd_good
    | with_reducible apply begin__good

theorem execTimEpochRead_good {part : BitVec 6} {s : State} (gs : Good pq s) :
    ∃ t, execTimEpochRead part s = .next t ∧ Good pq t := by
  refine ⟨_, rfl, ?_⟩
  repeat' first
    | with_reducible assumption
    | with_reducible apply epochRead_good
    | with_reducible apply begin__good

theorem execPpsInEdge_good {s : State} (gs : Good pq.free s) :
    ∃ t, execPpsInEdge s = .next t ∧ Good pq.free t := by
  refine ⟨_, rfl, ?_⟩
  repeat' first
    | with_reducible assumption
    | with_reducible apply ppsEdge_good
    | with_reducible apply begin__good

theorem execPpsInLoss_good {s : State} (gs : Good pq s) :
    ∃ t, execPpsInLoss s = .next t ∧ Good pq t := by
  refine ⟨_, rfl, ?_⟩
  repeat' first
    | with_reducible assumption
    | with_reducible apply ppsLoss_good
    | with_reducible apply begin__good

theorem execPpsOutEdge_good {s : State} (gs : Good pq s) :
    ∃ t, execPpsOutEdge s = .next t ∧ Good pq t := by
  refine ⟨_, rfl, ?_⟩
  repeat' first
    | with_reducible assumption
    | with_reducible apply ppsOutEdge_good
    | with_reducible apply begin__good

theorem execPpsOutEnd_good {s : State} (gs : Good pq s) :
    ∃ t, execPpsOutEnd s = .next t ∧ Good pq t := by
  refine ⟨_, rfl, ?_⟩
  repeat' first
    | with_reducible assumption
    | with_reducible apply ppsOutEnd_good
    | with_reducible apply begin__good

theorem execTodOutSend_good {s : State} (gs : Good pq s) :
    ∃ t, execTodOutSend s = .next t ∧ Good pq t := by
  refine ⟨_, rfl, ?_⟩
  repeat' first
    | with_reducible assumption
    | with_reducible apply todOutSend_good
    | with_reducible apply begin__good

theorem execTodInMessage_good {bytes : List Byte} {s : State} (gs : Good pq s) :
    ∃ t, execTodInMessage bytes s = .next t ∧ Good pq t := by
  refine ⟨_, rfl, ?_⟩
  repeat' first
    | with_reducible assumption
    | with_reducible apply todIn_good
    | with_reducible apply begin__good

theorem execSliceWatchdogExpire_good {slice : Fin 9} {s : State} (gs : Good pq s) :
    ∃ t, execSliceWatchdogExpire slice s = .next t ∧ Good pq t := by
  refine ⟨_, rfl, ?_⟩
  repeat' first
    | with_reducible assumption
    | with_reducible apply sliceWatchdog_good
    | with_reducible apply begin__good

theorem execTokenWithdrawalDone_good {slice : Fin 9} {s : State} (gs : Good pq s) :
    ∃ t, execTokenWithdrawalDone slice s = .next t ∧ Good pq t := by
  refine ⟨_, rfl, ?_⟩
  repeat' first
    | with_reducible assumption
    | with_reducible apply withdrawalDone_good
    | with_reducible apply begin__good

theorem execHandoverReplayStart_good {s : State} (gs : Good pq s) :
    ∃ t, execHandoverReplayStart s = .next t ∧ Good pq t := by
  refine ⟨_, rfl, ?_⟩
  repeat' first
    | with_reducible assumption
    | with_reducible apply replayStart_good
    | with_reducible apply begin__good

theorem execHandoverDone_good {s : State} (gs : Good pq s) :
    ∃ t, execHandoverDone s = .next t ∧ Good pq t := by
  refine ⟨_, rfl, ?_⟩
  repeat' first
    | with_reducible assumption
    | with_reducible apply handoverDone_good
    | with_reducible apply begin__good

theorem execRotationDue_good {s : State} (gs : Good pq s) :
    ∃ t, execRotationDue s = .next t ∧ Good pq t := by
  refine ⟨_, rfl, ?_⟩
  repeat' first
    | with_reducible assumption
    | with_reducible apply rotationDue_good
    | with_reducible apply begin__good

theorem execSkmRotNow_good {part : BitVec 6} {s : State} (gs : Good pq s) :
    ∃ t, execSkmRotNow part s = .next t ∧ Good pq t := by
  refine ⟨_, rfl, ?_⟩
  repeat' first
    | with_reducible assumption
    | with_reducible apply p0Write_good
    | with_reducible apply rotNow_good
    | with_reducible apply begin__good

theorem execRotationShadowStart_good {s : State} (gs : Good pq s) :
    ∃ t, execRotationShadowStart s = .next t ∧ Good pq t := by
  refine ⟨_, rfl, ?_⟩
  repeat' first
    | with_reducible assumption
    | with_reducible apply shadowStart_good
    | with_reducible apply begin__good

theorem execRotationAbandon_good {s : State} (gs : Good pq s) :
    ∃ t, execRotationAbandon s = .next t ∧ Good pq t := by
  refine ⟨_, rfl, ?_⟩
  repeat' first
    | with_reducible assumption
    | with_reducible apply abandonRotation_good
    | with_reducible apply begin__good

theorem execRestoringRotation_good {s : State} (gs : Good pq s) :
    ∃ t, execRestoringRotation s = .next t ∧ Good pq t := by
  refine ⟨_, rfl, ?_⟩
  repeat' first
    | with_reducible assumption
    | with_reducible apply restoring_good
    | with_reducible apply begin__good

theorem execSelftestPassEnd_good {slice : Fin 9} {pass : Bool} {s : State} (gs : Good pq s) :
    ∃ t, execSelftestPassEnd slice pass s = .next t ∧ Good pq t := by
  refine ⟨_, rfl, ?_⟩
  repeat' first
    | with_reducible assumption
    | with_reducible apply selftestEnd_good
    | with_reducible apply begin__good

theorem execSkmCtlRepair_good {part : BitVec 6} {be : BitVec 4} {data : Word} {s : State} (gs : Good pq s) :
    ∃ t, execSkmCtlRepair part be data s = .next t ∧ Good pq t := by
  refine ⟨_, rfl, ?_⟩
  repeat' first
    | with_reducible assumption
    | with_reducible apply p0Write_good
    | with_reducible apply writeSkmCtl_good
    | with_reducible apply begin__good

theorem execPwrReq_good {part : BitVec 6} {be : BitVec 4} {data : Word} {s : State} (gs : Good pq s) :
    ∃ t, execPwrReq part be data s = .next t ∧ Good pq t := by
  refine ⟨_, rfl, ?_⟩
  repeat' first
    | with_reducible assumption
    | with_reducible apply p0Write_good
    | with_reducible apply writePwrReq_good
    | with_reducible apply begin__good

theorem execEntryHandshakeDone_good {dom : BitVec 7} {s : State} (gs : Good pq s) :
    ∃ t, execEntryHandshakeDone dom s = .next t ∧ Good pq t := by
  refine ⟨_, rfl, ?_⟩
  repeat' first
    | with_reducible assumption
    | with_reducible apply handshake_good
    | with_reducible apply begin__good

theorem execHandshakeDelayLimit_good {dom : BitVec 7} {s : State} (gs : Good pq s) :
    ∃ t, execHandshakeDelayLimit dom s = .next t ∧ Good pq t := by
  refine ⟨_, rfl, ?_⟩
  repeat' first
    | with_reducible assumption
    | with_reducible apply delayLimit_good
    | with_reducible apply begin__good

theorem execEntryAbortPoint_good {dom : BitVec 7} {s : State} (gs : Good pq s) :
    ∃ t, execEntryAbortPoint dom s = .next t ∧ Good pq t := by
  refine ⟨_, rfl, ?_⟩
  repeat' first
    | with_reducible assumption
    | with_reducible apply abortPoint_good
    | with_reducible apply begin__good

theorem execPowerAckRise_good {dom : BitVec 7} {s : State} (gs : Good pq s) :
    ∃ t, execPowerAckRise dom s = .next t ∧ Good pq t := by
  refine ⟨_, rfl, ?_⟩
  repeat' first
    | with_reducible assumption
    | with_reducible apply ackRise_good
    | with_reducible apply begin__good

theorem execPowerEntryTimeout_good {dom : BitVec 7} {s : State} (gs : Good pq s) :
    ∃ t, execPowerEntryTimeout dom s = .next t ∧ Good pq t := by
  refine ⟨_, rfl, ?_⟩
  repeat' first
    | with_reducible assumption
    | with_reducible apply entryTimeout_good
    | with_reducible apply begin__good

theorem execPowerExitStart_good {dom : BitVec 7} {s : State} (gs : Good pq s) :
    ∃ t, execPowerExitStart dom s = .next t ∧ Good pq t := by
  refine ⟨_, rfl, ?_⟩
  repeat' first
    | with_reducible assumption
    | with_reducible apply exitStart_good
    | with_reducible apply begin__good

theorem execPowerAckFall_good {dom : BitVec 7} {s : State} (gs : Good pq s) :
    ∃ t, execPowerAckFall dom s = .next t ∧ Good pq t := by
  refine ⟨_, rfl, ?_⟩
  repeat' first
    | with_reducible assumption
    | with_reducible apply ackFall_good
    | with_reducible apply begin__good

theorem execPowerExitDone_good {dom : BitVec 7} {s : State} (gs : Good pq s) :
    ∃ t, execPowerExitDone dom s = .next t ∧ Good pq t := by
  refine ⟨_, rfl, ?_⟩
  repeat' first
    | with_reducible assumption
    | with_reducible apply exitDone_good
    | with_reducible apply begin__good

theorem execPowerExitTimeout_good {dom : BitVec 7} {s : State} (gs : Good pq s) :
    ∃ t, execPowerExitTimeout dom s = .next t ∧ Good pq t := by
  refine ⟨_, rfl, ?_⟩
  repeat' first
    | with_reducible assumption
    | with_reducible apply exitTimeout_good
    | with_reducible apply begin__good

theorem execSdWake_good {tree : BitVec 6} {s : State} (gs : Good pq s) :
    ∃ t, execSdWake tree s = .next t ∧ Good pq t := by
  refine ⟨_, rfl, ?_⟩
  repeat' first
    | with_reducible assumption
    | with_reducible apply sdWake_good
    | with_reducible apply begin__good

theorem execFltStatClear_good {part : BitVec 6} {inst : BitVec 7} {be : BitVec 4} {data : Word} {s : State} (gs : Good pq s) :
    ∃ t, execFltStatClear part inst be data s = .next t ∧ Good pq t := by
  refine ⟨_, rfl, ?_⟩
  repeat' first
    | with_reducible assumption
    | with_reducible apply fltWrite_good
    | with_reducible apply fltClear_good
    | with_reducible apply begin__good
    | with_reducible apply Good.ite
    | with_reducible apply Good.foldl
    | exact BitVec.isLt _
    | (intro _; try intros; try extract_lets)

theorem execFltForce_good {part : BitVec 6} {inst : BitVec 7} {be : BitVec 4} {data : Word} {s : State} (gs : Good pq s) :
    ∃ t, execFltForce part inst be data s = .next t ∧ Good pq t := by
  refine ⟨_, rfl, ?_⟩
  repeat' first
    | with_reducible assumption
    | with_reducible apply fltWrite_good
    | with_reducible apply fltForce_good
    | with_reducible apply begin__good
    | with_reducible apply Good.ite
    | with_reducible apply Good.foldl
    | exact BitVec.isLt _
    | (intro _; try intros; try extract_lets)

theorem execFltMaskWrite_good {part : BitVec 6} {inst : BitVec 7} {be : BitVec 4} {data : Word} {s : State} (gs : Good pq s) :
    ∃ t, execFltMaskWrite part inst be data s = .next t ∧ Good pq t := by
  refine ⟨_, rfl, ?_⟩
  repeat' first
    | with_reducible assumption
    | with_reducible apply fltWrite_good
    | with_reducible apply fltMask_good
    | with_reducible apply begin__good
    | with_reducible apply Good.ite
    | with_reducible apply Good.foldl
    | exact BitVec.isLt _
    | (intro _; try intros; try extract_lets)

theorem execFltVecWrite_good {part : BitVec 6} {inst : BitVec 7} {be : BitVec 4} {data : Word} {s : State} (gs : Good pq s) :
    ∃ t, execFltVecWrite part inst be data s = .next t ∧ Good pq t := by
  refine ⟨_, rfl, ?_⟩
  repeat' first
    | with_reducible assumption
    | with_reducible apply fltWrite_good
    | with_reducible apply fltVec_good
    | with_reducible apply begin__good
    | with_reducible apply Good.ite
    | with_reducible apply Good.foldl
    | exact BitVec.isLt _
    | (intro _; try intros; try extract_lets)

theorem execFaultPulseEnd_good {s : State} (gs : Good pq s) :
    ∃ t, execFaultPulseEnd s = .next t ∧ Good pq t := by
  refine ⟨_, rfl, ?_⟩
  repeat' first
    | with_reducible assumption
    | with_reducible apply pulseEnd_good
    | with_reducible apply begin__good

theorem execFaultPinRel_good {part : BitVec 6} {s : State} (gs : Good pq s) :
    ∃ t, execFaultPinRel part s = .next t ∧ Good pq t := by
  refine ⟨_, rfl, ?_⟩
  repeat' first
    | with_reducible assumption
    | with_reducible apply p0Write_good
    | with_reducible apply pinRel_good
    | with_reducible apply begin__good

theorem execFaultPinRecoveryEnd_good {s : State} (gs : Good pq s) :
    ∃ t, execFaultPinRecoveryEnd s = .next t ∧ Good pq t := by
  refine ⟨_, rfl, ?_⟩
  repeat' first
    | with_reducible assumption
    | with_reducible apply pinRecovered_good
    | with_reducible apply begin__good

theorem execCntSelWrite_good {part : BitVec 6} {inst : BitVec 7} {num : BitVec 4} {be : BitVec 4} {data : Word} {s : State} (gs : Good pq s) :
    ∃ t, execCntSelWrite part inst num be data s = .next t ∧ Good pq t := by
  refine ⟨_, rfl, ?_⟩
  repeat' first
    | with_reducible assumption
    | with_reducible apply subWrite_good
    | with_reducible apply selWrite_good
    | with_reducible apply begin__good
    | with_reducible apply Good.ite
    | with_reducible apply Good.foldl
    | exact BitVec.isLt _
    | (intro _; try intros; try extract_lets)

theorem execCntValWrite_good {part : BitVec 6} {inst : BitVec 7} {num : BitVec 4} {be : BitVec 4} {data : Word} {s : State} (gs : Good pq s) :
    ∃ t, execCntValWrite part inst num be data s = .next t ∧ Good pq t := by
  refine ⟨_, rfl, ?_⟩
  repeat' first
    | with_reducible assumption
    | with_reducible apply subWrite_good
    | with_reducible apply valWrite_good
    | with_reducible apply begin__good
    | with_reducible apply Good.ite
    | with_reducible apply Good.foldl
    | exact BitVec.isLt _
    | (intro _; try intros; try extract_lets)

theorem execCntClr_good {part : BitVec 6} {inst : BitVec 7} {be : BitVec 4} {data : Word} {s : State} (gs : Good pq s) :
    ∃ t, execCntClr part inst be data s = .next t ∧ Good pq t := by
  refine ⟨_, rfl, ?_⟩
  repeat' first
    | with_reducible assumption
    | with_reducible apply subWrite_good
    | with_reducible apply clrWrite_good
    | with_reducible apply begin__good
    | with_reducible apply Good.ite
    | with_reducible apply Good.foldl
    | exact BitVec.isLt _
    | (intro _; try intros; try extract_lets)

theorem execCntSmpCiWrite_good {part : BitVec 6} {be : BitVec 4} {data : Word} {s : State} (gs : Good pq s) :
    ∃ t, execCntSmpCiWrite part be data s = .next t ∧ Good pq t := by
  refine ⟨_, rfl, ?_⟩
  repeat' first
    | with_reducible assumption
    | with_reducible apply p0Write_good
    | with_reducible apply smpCi_good
    | with_reducible apply begin__good

theorem execCntSlotSnap_good {part : BitVec 6} {be : BitVec 4} {data : Word} {s : State} (gs : Good pq s) :
    ∃ t, execCntSlotSnap part be data s = .next t ∧ Good pq t := by
  refine ⟨_, rfl, ?_⟩
  repeat' first
    | with_reducible assumption
    | with_reducible apply p0Write_good
    | with_reducible apply slotSnap_good
    | with_reducible apply begin__good

theorem execMrListAccess_good {part : BitVec 6} {write : Bool} {be : BitVec 4} {data : Word} {s : State} (gs : Good pq s) :
    ∃ t, execMrListAccess part write be data s = .next t ∧ Good pq t := by
  refine ⟨_, rfl, ?_⟩
  repeat' first
    | with_reducible assumption
    | with_reducible apply begin__good
    | with_reducible apply p0Write_good
    | with_reducible apply ldataWrite_good
    | with_reducible apply p0Read_good
    | with_reducible apply lidxNext_good
    | with_reducible apply Good.ite
    | with_reducible apply Good.foldl
    | exact BitVec.isLt _
    | (intro _; try intros; try extract_lets)

theorem execMrSwap_good {part : BitVec 6} {s : State} (gs : Good pq s) :
    ∃ t, execMrSwap part s = .next t ∧ Good pq t := by
  refine ⟨_, rfl, ?_⟩
  repeat' first
    | with_reducible assumption
    | with_reducible apply p0Write_good
    | with_reducible apply mrSwap_good
    | with_reducible apply begin__good

theorem execMilkRoundStart_good {s : State} (gs : Good pq s) :
    ∃ t, execMilkRoundStart s = .next t ∧ Good pq t := by
  refine ⟨_, rfl, ?_⟩
  repeat' first
    | with_reducible assumption
    | with_reducible apply milkStart_good
    | with_reducible apply begin__good

theorem execMilkRoundDone_good {err : Bool} {s : State} (gs : Good pq s) :
    ∃ t, execMilkRoundDone err s = .next t ∧ Good pq t := by
  refine ⟨_, rfl, ?_⟩
  cases err
  · exact roundDone_good (begin__good gs)
  · exact roundErr_good (begin__good gs)

theorem execMrWriteTimeout_good {s : State} (gs : Good pq s) :
    ∃ t, execMrWriteTimeout s = .next t ∧ Good pq t := by
  refine ⟨_, rfl, ?_⟩
  repeat' first
    | with_reducible assumption
    | with_reducible apply roundLate_good
    | with_reducible apply begin__good

theorem execVqProbe_good {part : BitVec 6} {num : BitVec 2} {s : State} (gs : Good pq s) :
    ∃ t, execVqProbe part num s = .next t ∧ Good pq t := by
  refine ⟨_, rfl, ?_⟩
  repeat' first
    | with_reducible assumption
    | with_reducible apply p0Write_good
    | with_reducible apply vqProbe_good
    | with_reducible apply begin__good

theorem execDuplicateStateMismatch_good {where_ : DupUnit} {s : State} (gs : Good pq s) :
    ∃ t, execDuplicateStateMismatch where_ s = .next t ∧ Good pq t := by
  refine ⟨_, rfl, ?_⟩
  repeat' first
    | with_reducible assumption
    | with_reducible apply dupMismatch_good
    | with_reducible apply begin__good

theorem execTripletVoteDisagree_good {group : Word} {s : State} (gs : Good pq s) :
    ∃ t, execTripletVoteDisagree group s = .next t ∧ Good pq t := by
  refine ⟨_, rfl, ?_⟩
  repeat' first
    | with_reducible assumption
    | with_reducible apply tripletVote_good
    | with_reducible apply begin__good

theorem execCommandOperandRead_good {acc : HmpTag} {bytes : List Byte} {err : Bool} {s : State} (gs : Good pq s) :
    ∃ t, execCommandOperandRead acc bytes err s = .next t ∧ Good pq t := by
  refine ⟨_, rfl, ?_⟩
  repeat' first
    | with_reducible assumption
    | with_reducible apply operandDone_good
    | with_reducible apply begin__good

end Sys2Proof.Machine
end

