-- ==== Sys2Proof/Tests/Slice0.lean ====
section
/-!
SUPPORT. Tests: ill-formed operands, the spec's worked values, and for every statement with hypotheses states and operands that meet them
(`wit_<statement>`).
-/

open Sys2Proof Sys2Proof.Machine

namespace Sys2Proof.Tests

-- one declaration at a time: the package is compiled as one text within a limit of memory
set_option Elab.async false

/-! ## Well-formedness: each check refuses an ill-formed term and takes a good one -/

theorem test_wf_upstreamBurst : (Instr.upstreamBurst 0 0 0 0 99999 [⟨0, false⟩, ⟨0, false⟩]).wf = false ∧
    (Instr.upstreamBurst 0 0 0 0 100000 [⟨0, false⟩]).wf = false ∧ (Instr.upstreamBurst 0 0 0 0 5 []).wf = false ∧
    (Instr.upstreamBurst 0 0 0 0 99998 [⟨0, false⟩, ⟨0, false⟩]).wf = true := by decide
theorem test_wf_missedBurst : (Instr.missedBurst 0 0 100000).wf = false ∧ (Instr.missedBurst 0 0 99999).wf = true := by decide
theorem test_wf_uplinkFrameReceive : (Instr.uplinkFrameReceive 0 [] false false 0 none).wf = false ∧
    (Instr.uplinkFrameReceive 0 [0] false false 0 none).wf = true := by decide
theorem test_wf_pauseReceive : (Instr.pauseReceive 0 (List.replicate 63 0) false).wf = false ∧
    (Instr.pfcReceive 0 (List.replicate 63 0) false).wf = false ∧ (Instr.pauseReceive 0 (List.replicate 64 0) false).wf = true := by decide
theorem test_wf_rings : (Instr.ringDoorbell 0 .cmd 64).wf = false ∧ (Instr.consumerDoorbell 0 .cq 1024 0).wf = false ∧
    (Instr.ringContextWrite 0 .ntc 64 0 0).wf = false ∧ (Instr.ringQuiesceDone .cq 1024).wf = false ∧
    (Instr.ringDoorbell 0 .send 2047).wf = true := by decide
theorem test_wf_descriptorFetchDone : (Instr.descriptorFetchDone 0 0 [0] false).wf = false ∧
    (Instr.chainFetchDone ⟨0, 0⟩ [0] false).wf = false ∧ (Instr.descriptorFetchDone 0 0 [0, 0, 0, 0] false).wf = true := by decide
theorem test_wf_ringCommands : (Instr.ringSet 0 2 1024 W6.zero).wf = false ∧ (Instr.ringQuiesce 0 3 64).wf = false ∧
    (Instr.ringResume 0 2 1024).wf = false ∧ (Instr.ringResume 0 1 2047).wf = true := by decide
theorem test_wf_todInMessage : (Instr.todInMessage [0]).wf = false ∧ (Instr.todInMessage (List.replicate 16 0)).wf = true := by decide
theorem test_wf_domains : (Instr.entryHandshakeDone 108).wf = false ∧ (Instr.handshakeDelayLimit 108).wf = false ∧
    (Instr.entryAbortPoint 108).wf = false ∧ (Instr.powerAckRise 108).wf = false ∧ (Instr.powerEntryTimeout 108).wf = false ∧
    (Instr.powerExitStart 108).wf = false ∧ (Instr.powerAckFall 108).wf = false ∧ (Instr.powerExitDone 108).wf = false ∧
    (Instr.powerExitTimeout 108).wf = false ∧ (Instr.powerExitTimeout 107).wf = true := by decide
theorem test_wf_instances : (Instr.fltStatClear 0 110 0xF 0).wf = false ∧ (Instr.fltForce 0 110 0xF 0).wf = false ∧
    (Instr.fltMaskWrite 0 110 0xF 0).wf = false ∧ (Instr.fltVecWrite 0 110 0xF 0).wf = false ∧
    (Instr.cntSelWrite 0 110 0 0xF 0).wf = false ∧ (Instr.cntValWrite 0 110 0 0xF 0).wf = false ∧ (Instr.cntClr 0 110 0xF 0).wf = false ∧
    (Instr.cntClr 0 109 0xF 0).wf = true := by decide

/-! ## Worked values of the spec -/

/-- CRC-16 check value of "123456789" (R78, R538). -/
theorem test_crc16_check : crc16 ([0x31, 0x32, 0x33, 0x34, 0x35, 0x36, 0x37, 0x38, 0x39] : List Byte) = 0x29B1 := by decide +kernel
/-- CRC-32C check value of "123456789" with SEED 0 (R227). -/
theorem test_crc32c_check : crc32c 0 ([0x31, 0x32, 0x33, 0x34, 0x35, 0x36, 0x37, 0x38, 0x39] : List Byte) = 0xE3069283 := by decide +kernel
/-- The nonce of R280's example. -/
theorem test_nonce : nonceOf true 41 214 1000 60150 5 = 0x526B0000000001F43ABD8014 := by decide
/-- The encoded entries of Table 3-10. -/
theorem test_map_entries : mapWord ⟨17, 40000, 217, true, 2, false, false, false, 37, false⟩ = 0x0114E20003668000 ∧
    mapWord ⟨18, 40217, 98, false, 0, false, false, true, 37, false⟩ = 0x0124E8C801880800 := by decide

/-! ## States for the witnesses -/

/-- READY, with every register at its reset value. -/
def ready : State := { State.reset with glb := { Glb.reset with phase := 4 } }
/-- READY with the time engine started, in cycle `c` of tick 100. -/
def running (c : Nat) : State :=
  { ready with tim := { Tim.reset with started := true, tick := 100, tickStart := 10000000, now := 10000000 + c, beat := c / 15625 } }
/-- What a command leaves. -/
def after (c : Instr) (s : State) : State := match exec c s with | .next t => t | .fault _ => s | .refused _ => s

theorem regsOk_none {r : Regs} (h : r.val = []) (d : r.tickDef = []) (e : r.cutDef = []) : RegsOk r :=
  ⟨by rw [h]; rfl, by simp [h], by simp [d, e]⟩

/-! ## Witnesses: the queue, the clock and whole-machine rules -/

theorem wit_StepRunsFront : ({ ready with pending := [.beatBoundary, .linkUp 0] } : State).pending = .beatBoundary :: [.linkUp 0] := rfl
theorem wit_IdleStepIsOneCycle :
    ((running 5).pending = [] ∧ (running 5).tim.started = true ∧ 1 < toNextBeat (running 5)) ∧
    (ready.pending = [] ∧ ready.tim.started = false ∧ ready.tim.startWait = none) ∧
    Still (running 5) ∧ (running 5).cnt.round = none := by decide
theorem wit_EveryCommandCompletes : RegsOk (running 5).regs ∧ (running 5).tim.beat < 10 := ⟨regsOk_none rfl rfl rfl, by decide⟩
theorem wit_OnlyBoundariesMoveTheTick : RegsOk (running 5).regs ∧ (running 5).tim.beat < 10 ∧
    Runs (.linkUp 0) (running 5) (after (.linkUp 0) (running 5)) ∧
    Instr.linkUp 0 ≠ .beatBoundary ∧ Instr.linkUp 0 ≠ .timeEngineStart ∧ Instr.linkUp 0 ≠ .ppsInEdge ∧ Instr.linkUp 0 ≠ .blockReset ∧
    (∀ p, Instr.linkUp 0 ≠ .glbRstBlock p) ∧ (∀ p a be d, Instr.linkUp 0 ≠ .registerWrite p a be d) ∧
    (∀ p a be d, Instr.linkUp 0 ≠ .hiWriteCommit p a be d) :=
  ⟨regsOk_none rfl rfl rfl, by decide, rfl, nofun, nofun, nofun, nofun, nofun, nofun, nofun⟩
theorem wit_EveryStepKeepsLegal : Legal (running 5) ∧ ∃ t, step (running 5) = .next t :=
  ⟨⟨regsOk_none rfl rfl rfl, by decide, by simp [running, ready, State.reset]⟩, _, rfl⟩
/-- READY, an arming opened in cycle 0 and still open at cycle `c`. -/
def arming (c : Nat) : State := { ready with glb := { ready.glb with armed := true, armAt := 0 }, tim := { ready.tim with now := c } }
theorem wit_BlockResetAndArming : ((arming 1024).glb.armed = true ∧ (arming 1024).tim.now ≤ (arming 1024).glb.armAt + 1024) ∧
    (ready.glb.armed = false ∨ ready.glb.armAt + 1024 < ready.tim.now) ∧ (arming 1025).glb.armAt + 1024 < (arming 1025).tim.now := by decide

/-- Start-up in phase 1 with words of the fuse image read. -/
def fusing (l : List Word) : State := { State.reset with glb := { Glb.reset with phase := 1, fuse := l } }
theorem wit_Startup :
    ((fusing [0]).glb.phase = 1 ∧ (fusing [0]).glb.fuse.length < 1023) ∧
    ({ State.reset with glb := { Glb.reset with phase := 2 } } : State).glb.phase = 2 ∧
    Still { State.reset with glb := { Glb.reset with phase := 2 } } ∧
    State.reset.glb.phase = 0 ∧ ({ fusing [] with glb := { (fusing []).glb with fuseOk := true } } : State).glb.fuseOk = true := by decide
theorem wit_Startup_lastWord (w : Word) : (fusing (List.replicate 1023 0)).glb.phase = 1 ∧
    (fusing (List.replicate 1023 0)).glb.fuse.length = 1023 ∧ (fuseGood (w :: (fusing (List.replicate 1023 0)).glb.fuse).reverse = true ∨
      fuseGood (w :: (fusing (List.replicate 1023 0)).glb.fuse).reverse = false) :=
  ⟨rfl, List.length_replicate, (fuseGood _).eq_false_or_eq_true⟩
theorem wit_PartitionResetAndOwner : Ready ready ∧ fld (5 : Word) 0 6 ≠ 0 ∧ fld (64 : Word) 0 6 = 0 ∧
    (0x010014 : BitVec 24).toNat = rPrtTree (5 : BitVec 6).toNat ∧ regB ready (rTreCfg (5 : BitVec 6).toNat) 0 = false ∧
    Ready (setReg (rTreCfg 5) 1 ready) ∧ regB (setReg (rTreCfg 5) 1 ready) (rTreCfg (5 : BitVec 6).toNat) 0 = true := by decide

/-! ## Witnesses: the register port -/

theorem wit_PortAccesses :
    (0x1C0002 : BitVec 24).toNat % 4 ≠ 0 ∧ (0xE : BitVec 4) ≠ 0xF ∧ accOf (0x2F0000 : BitVec 24).toNat = none ∧
    Ready ready ∧ accOf (0x1C3004 : BitVec 24).toNat = some .p0 ∧ mayWrite ready (5 : BitVec 6).toNat (0x1C3004 : BitVec 24).toNat .p0 = false ∧
    mayRead ready (5 : BitVec 6).toNat (0x1C3004 : BitVec 24).toNat .p0 = false ∧ (0x1C3004 : BitVec 24).toNat = rUpl (3 : BitVec 4).toNat 4 ∧
    ready.tim.started = false ∧ Ready (running 5) ∧ (running 5).tim.started = true := by decide
theorem wit_PairsAndClears_reads :
    (CanRead ready (0 : BitVec 6).toNat (0x1C3008 : BitVec 24).toNat ∧ hiOf (0x1C3008 : BitVec 24).toNat = some 0x1C300C ∧
      tFind (pkey (0 : BitVec 6).toNat (0x1C3008 : BitVec 24).toNat) ready.regs.hiCap = none) ∧
    (let s := { ready with regs := { ready.regs with hiCap := [(pkey 0 0x1C300C, 7)] } };
      CanRead s (0 : BitVec 6).toNat (0x1C300C : BitVec 24).toNat ∧ tFind (pkey (0 : BitVec 6).toNat (0x1C300C : BitVec 24).toNat) s.regs.hiCap = some 7) ∧
    (CanRead ready (0 : BitVec 6).toNat (0x1C3004 : BitVec 24).toNat ∧ hiOf (0x1C3004 : BitVec 24).toNat = none ∧
      readClears (0x1C3004 : BitVec 24).toNat = false) ∧
    (CanRead ready (3 : BitVec 6).toNat (0x047C0C : BitVec 24).toNat ∧ (0x047C0C : BitVec 24).toNat = pageHRD + 0x7C00 + 4 * 3) ∧
    (CanRead ready (0 : BitVec 6).toNat (0x0300C8 : BitVec 24).toNat ∧ (0x0300C8 : BitVec 24).toNat = rTim 0xC8) ∧
    (CanRead ready (0 : BitVec 6).toNat (0x2B0034 : BitVec 24).toNat ∧ (0x2B0034 : BitVec 24).toNat = pageCNT + 0x34) :=
  ⟨⟨⟨rfl, by decide +kernel, .p0, by decide +kernel⟩, by decide +kernel⟩,
    ⟨⟨rfl, by decide +kernel, .p0, by decide +kernel⟩, by decide +kernel⟩,
    ⟨⟨rfl, by decide +kernel, .p0, by decide +kernel⟩, by decide +kernel⟩,
    ⟨⟨rfl, by decide +kernel, .part 3, by decide +kernel⟩, by decide +kernel⟩,
    ⟨⟨rfl, by decide +kernel, .p0, by decide +kernel⟩, by decide +kernel⟩,
    ⟨rfl, by decide +kernel, .p0, by decide +kernel⟩, by decide +kernel⟩
theorem wit_PairsAndClears_writes :
    (∀ s : State, s.glb.phase = 4 → CanWrite s (0 : BitVec 6).toNat (0x1C3008 : BitVec 24).toNat ∧
      CanWrite s (0 : BitVec 6).toNat (0x1C300C : BitVec 24).toNat) ∧
    hiOf (0x1C3008 : BitVec 24).toNat = some (0x1C300C : BitVec 24).toNat ∧ ready.glb.phase = 4 ∧ (running 5).glb.phase = 4 ∧
    ready.tim.started = false ∧ (running 5).tim.started = true ∧
    (regSpec (0x1C3008 : BitVec 24).toNat).map (·.eff) = some .tick ∧ (regSpec (0x1C300C : BitVec 24).toNat).map (·.eff) = some .tick ∧
    hiOf (0x180084 : BitVec 24).toNat = some (0x180088 : BitVec 24).toNat ∧
    (regSpec (0x180084 : BitVec 24).toNat).map (·.eff) = some .now ∧ (regSpec (0x180088 : BitVec 24).toNat).map (·.eff) = some .now ∧
    CanWrite (running 5) (0 : BitVec 6).toNat (0x180088 : BitVec 24).toNat ∧
    (0x03002C : BitVec 24).toNat = rTim 0x2C ∧ (0x030034 : BitVec 24).toNat = rTim 0x34 ∧
    (109 : BitVec 7).toNat ≤ 109 ∧ (0x2C0E44 : BitVec 24).toNat = rCntVal (11 : BitVec 7).toNat (0 : BitVec 4).toNat + 4 :=
  ⟨fun _ h => ⟨⟨h, .p0, by decide +kernel, rfl⟩, h, .p0, by decide +kernel, rfl⟩, by decide +kernel, rfl, rfl, rfl, rfl, by decide +kernel,
    by decide +kernel, by decide +kernel, by decide +kernel, by decide +kernel, ⟨rfl, .tree 0, by decide +kernel⟩, by decide +kernel⟩
theorem wit_TableWindows :
    Ready ready ∧ ownsTree ready (0 : BitVec 6).toNat (fld (windowReg ready (0 : BitVec 6).toNat (pageQBM + 0x100)) 0 17 / 2048) = true ∧
    clsSel ready 0 = some (true, false, 0, 0) := by decide

/-! ## Witnesses: beats, the cut-off and the Churn -/

theorem wit_BeatBoundary : ready.tim.started = false ∧ (running 5).tim.started = true ∧ RegsOk (running 5).regs ∧ (running 5).tim.beat < 10 ∧
    (running 5).tim.beat < 9 ∧ (running 150000).tim.beat = 9 ∧ RegsOk (running 150000).regs ∧ (running 150000).tim.beat < 10 :=
  ⟨rfl, rfl, regsOk_none rfl rfl rfl, by decide, by decide, rfl, regsOk_none rfl rfl rfl, by decide⟩

/-- A selection of tree 3 that takes the one token of its queue 0. -/
def selected : State :=
  let k : Token := { frame := 9, est := 1, seq := 7, etick := 100, spill := false, part := 0, at_ := 0 }
  let x : Selection := ⟨1003, [], [(6144, k)], [], [], [], [], [], [], [], none⟩
  { running 31250 with qbm := { Qbm.reset with q := [(6144, [k])], sel := [(3, x)] } }
theorem wit_SelectionCommit : selected.tim.zero = false ∧ tFind (2 : BitVec 6).toNat selected.qbm.sel = none ∧
    ∃ x, tFind (3 : BitVec 6).toNat selected.qbm.sel = some x ∧ (∀ e ∈ x.taken, ∃ k ∈ queueOf selected e.1, k.seq = e.2.seq) ∧
      ∀ e ∈ x.tmms, e.1 ∈ (treOf selected (3 : BitVec 6).toNat).tmmq :=
  ⟨rfl, by decide, _, rfl, by decide, by decide⟩
/-- Cycle 15,625, cycle 0 of beat 1, before its end. -/
def cutting : State := { running 15625 with tim := { (running 15625).tim with zero := true } }
theorem wit_ReportCutoff : (ready.tim.started = false ∨ ready.tim.beat ≠ 1 ∨ ready.tim.zero = false) ∧
    cutting.tim.started = true ∧ cutting.tim.beat = 1 ∧ cutting.tim.zero = true ∧ cutting.tim.cutDone = false ∧ RegsOk cutting.regs ∧
    cutting.regs.cutDef = [] ∧ cutting.tre = [] ∧
    (let s := { cutting with chn := [(3, { Chn.empty with allocPend := [(2000, ⟨0x506, 0, 0, 0⟩)] })] };
      imagesFor s (s.tim.tick + 1) = [] ∧ (chnOf s 3).allocPend = [(2000, ⟨0x506, 0, 0, 0⟩)]) :=
  ⟨by decide, rfl, rfl, rfl, rfl, regsOk_none rfl rfl rfl, rfl, rfl, by decide⟩

/-- Tree 3 runs; the cut-off of the tick has passed. -/
def churning (c : Nat) (p : Option Pass) : State :=
  { running c with
    tim := { (running c).tim with cutDone := true }, tre := [(3, { Tre.empty with run := true })], chn := [(3, { Chn.empty with pass := p })] }
theorem wit_ChurnPasses :
    let s := churning 70000 (some ⟨[], 0, [], [], [], [], [], 0⟩)
    churnRuns s (3 : BitVec 6).toNat = true ∧ s.tim.cutDone = true ∧ (chnOf s (3 : BitVec 6).toNat).pass.isSome = true ∧
      pass1At s (3 : BitVec 6).toNat ≤ cyc s ∧ pass2At s (3 : BitVec 6).toNat ≤ cyc s ∧ cyc (churning 1 none) = 1 ∧
      domOn (churning 1 none) (domTP (3 : BitVec 6).toNat) = true ∧ domOn s (domTP (3 : BitVec 6).toNat) = true ∧ (treOf s (3 : BitVec 6).toNat).mapNone = false ∧
      (treOf s (3 : BitVec 6).toNat).run = true ∧ homeT s (3 : BitVec 6).toNat < 9 ∧ (treOf s (4 : BitVec 6).toNat).run = false := by decide
theorem wit_PassLateAndProjection :
    let s := churning 124999 none
    (churnRuns s (3 : BitVec 6).toNat = true ∧ (treOf s (3 : BitVec 6).toNat).mapDone = false ∧ (treOf s (3 : BitVec 6).toNat).mapNone = false ∧
      domOn s (domTP (3 : BitVec 6).toNat) = true ∧ 124999 ≤ cyc s) ∧
    (running 156186).tim.started = true ∧ 156186 ≤ cyc (running 156186) ∧ (running 156186).tim.slew = 0 ∧
      (running 156186).tim.stepPend = none ∧ (running 156186).tim.restart ≠ some false ∧ cyc (running 156186) ≤ 156250 ∧
      (oldRate (running 156186)).isNone = true := by decide

/-! ## Witnesses: tree ports -/

theorem wit_DownstreamBlocks :
    let s := churning 156246 none
    vqOf s (3 : BitVec 6).toNat = none ∧ domOn s (domTP (3 : BitVec 6).toNat) = true ∧ loopT s (3 : BitVec 6).toNat = 0 ∧
      s.tim.started = true ∧ cyc s = 156246 ∧ emits s (3 : BitVec 6).toNat (10 * (s.tim.tick + 1)) = true ∧
      emits s (4 : BitVec 6).toNat (10 * (s.tim.tick + 1)) = false ∧ vqOf s (4 : BitVec 6).toNat = none ∧
      domOn s (domTP (4 : BitVec 6).toNat) = true ∧ loopT s (4 : BitVec 6).toNat = 0 ∧
      (treOf s (3 : BitVec 6).toNat).dsBlk + 1 < blksPerTick s (3 : BitVec 6).toNat ∧
      blksPerTick s (5 : BitVec 6).toNat ≤ (treOf { s with tre := [(5, { Tre.empty with dsBlk := 99999 })] } (5 : BitVec 6).toNat).dsBlk + 1 := by decide

/-- Management handle 5 of tree 0 is granted 10 blocks from block 100 of tick 99; terminal 5 is Active. -/
def listening : State := { running 60000 with tre := [(0, { Tre.empty with run := true })] }
def granted : State :=
  let e : MapEnt := ⟨5, 100, 10, true, 0, false, false, true, 5, false⟩
  let o : Int := 256 * (arrivalOf listening 0 99 99 0 0 - (blkSteps listening 0 * (100 + guardBlk listening 0 + preBlk listening 0) : Nat))
  { running 60000 with tre := [(0, { Tre.empty with run := true, grants := [(99, [e])], ctx := [(5, { Ctx.unknown with state := .active, o := o })] })] }
/-- Its header block: TYPE 3, tree 0, TICKL 99, handle 5, TID 5, no reports, and its CRC. -/
def header : UsBlock := ⟨0x1403000006300050000000000007ded, false⟩
theorem wit_UpstreamBursts_dropped : vqOf granted (0 : BitVec 6).toNat = none ∧ loopT granted (0 : BitVec 6).toNat = 0 ∧
    treLive granted (0 : BitVec 6).toNat = true ∧ (grantAt granted (0 : BitVec 6).toNat (99 : BitVec 48).toNat (105 : BitVec 17).toNat).isSome = true ∧
    headGood ⟨0, true⟩ = false := by decide
theorem wit_UpstreamBursts_accepted :
    (∃ e, grantAt granted (0 : BitVec 6).toNat (99 : BitVec 48).toNat (105 : BitVec 17).toNat = some ⟨.data, (99 : BitVec 48).toNat, [e]⟩ ∧
      e.bs = true ∧ nfld header.data.toNat 64 12 = e.hnd ∧ entOwner granted (0 : BitVec 6).toNat e = 5 ∧ nfld header.data.toNat 105 3 = e.rpt ∧
      accepts granted (0 : BitVec 6).toNat (ctxOf granted (0 : BitVec 6).toNat 5) (arrivalOf granted (0 : BitVec 6).toNat (99 : BitVec 48).toNat 99 0
        (0 : BitVec 6).toNat - (blkSteps granted (0 : BitVec 6).toNat *
          (e.start + guardBlk granted (0 : BitVec 6).toNat + preBlk granted (0 : BitVec 6).toNat) : Nat)) = true) ∧
    headGood header = true ∧ nfld header.data.toNat 108 4 = 3 ∧ nfld header.data.toNat 112 6 = (0 : BitVec 6).toNat ∧
    nfld header.data.toNat 80 16 = (99 : BitVec 48).toNat % 2 ^ 16 ∧ nfld header.data.toNat 118 10 = 5 ∧
    tracked (ctxOf granted (0 : BitVec 6).toNat 5).state = true :=
  ⟨⟨_, rfl, by decide⟩, by decide +kernel⟩
theorem wit_UpstreamBursts_missed : treLive granted (0 : BitVec 6).toNat = true ∧
    ∃ e, tFind (99 : BitVec 48).toNat (treOf granted (0 : BitVec 6).toNat).grants = some [e] ∧ e.bs = true ∧ e.disc = false ∧ e.seen = false ∧
      e.start = (100 : BitVec 17).toNat ∧ tracked (ctxOf granted (0 : BitVec 6).toNat (entOwner granted (0 : BitVec 6).toNat e)).state = true :=
  ⟨by decide, _, rfl, by decide⟩

/-- A message of tree 0 to terminal 5 on its way. -/
def message (reps : Nat) : Tmm :=
  { type := 4, seq := 1, tgt := 5, tid := 5, body := [], tickAt := none, cmd := false, sent := 90, reps := reps, acked := true, full := [] }
/-- Tree 0 with a message sent, and one that waits for a place. -/
def messages (reps : Nat) : State :=
  { running 60000 with
    tim := { (running 60000).tim with cutDone := true },
    tre := [(0, { Tre.empty with tmmOut := [message reps], tmmPend := [message 0], tmmDue := 1, ctx := [(5, { Ctx.unknown with state := .active })] })] }
theorem wit_TmmRepeats :
    ((treOf (messages 0) (0 : BitVec 6).toNat).tmmOut = [message 0] ∧ (message 0).acked = true ∧
      (messages 0).tim.cutDone = true ∧ (message 0).sent + 4 ≤ (messages 0).tim.tick ∧ (message 0).reps < 3 ∧
      (treOf (messages 0) (0 : BitVec 6).toNat).fenced = false) ∧
    ((treOf { messages 0 with tre := [(0, { Tre.empty with fenced := true })] } (0 : BitVec 6).toNat).fenced = true) ∧
    ((treOf (messages 0) (1 : BitVec 6).toNat).tmmDue = 0) ∧
    ((treOf (messages 3) (0 : BitVec 6).toNat).tmmOut = [message 3] ∧ 3 ≤ (message 3).reps ∧
      (treOf (messages 3) (0 : BitVec 6).toNat).fenced = false ∧
      tracked (ctxOf (messages 3) (0 : BitVec 6).toNat (message 3).tgt).state = true) ∧
    ((treOf (messages 0) (0 : BitVec 6).toNat).tmmPend = [message 0] ∧ 0 < (treOf (messages 0) (0 : BitVec 6).toNat).tmmDue) := by decide

/-- Tree 0 with an open reassembly on handle 7, terminal 5 long Lost and terminal 6 Released. -/
def ageing : State :=
  { running 0 with
    tim := { (running 0).tim with tick := 500000, cutDone := true },
    tre := [(0, { Tre.empty with
                  reasm := [(7, { Reasm.empty with isOpen := true, tick := 90 })]
                  ctx := [(5, { Ctx.unknown with state := .lost, lostTick := 10 }), (6, { Ctx.unknown with state := .released })] })] }
theorem wit_TreeAgeing :
    ((reasmOf ageing (0 : BitVec 6).toNat (7 : BitVec 12).toNat).isOpen = true ∧
      (reasmOf ageing (0 : BitVec 6).toNat (7 : BitVec 12).toNat).tick + 8 ≤ ageing.tim.tick) ∧
    ((treOf ageing (0 : BitVec 6).toNat).fenced = false ∧
      (treOf { ageing with tre := [(0, { Tre.empty with fenced := true })] } (0 : BitVec 6).toNat).fenced = true) ∧
    ((ctxOf ageing (0 : BitVec 6).toNat (5 : BitVec 10).toNat).state = .lost ∧
      (ctxOf ageing (0 : BitVec 6).toNat (5 : BitVec 10).toNat).lostTick + treF ageing (0 : BitVec 6).toNat 0x1C 2 20 ≤ ageing.tim.tick ∧
      ageing.tim.cutDone = true) ∧
    (cyc ageing = 0 ∧ (ctxOf ageing (0 : BitVec 6).toNat (6 : BitVec 10).toNat).state = .released ∧
      queuesEmpty ageing (0 : BitVec 6).toNat (6 : BitVec 10).toNat = true ∧
      (slotOf ageing (slotNo (0 : BitVec 6).toNat (6 : BitVec 10).toNat 1)).state = 0 ∧
      (slotOf ageing (slotNo (0 : BitVec 6).toNat (6 : BitVec 10).toNat 2)).state = 0) := by decide
theorem wit_ProtectionRequest :
    let s := setReg (rTre 2 0x30) 1 (running 5)
    domOn s (domTP (2 : BitVec 6).toNat) = true ∧ vqOf s (2 : BitVec 6).toNat = none ∧ treF s (2 : BitVec 6).toNat 0x30 0 2 = 1 ∧
      (5 : BitVec 3).toNat ≤ 5 ∧ (treOf s (2 : BitVec 6).toNat).lockout = false ∧ (treOf s (2 : BitVec 6).toNat).forced = false ∧
      (treOf s (2 : BitVec 6).toNat).psw = none := by decide
/-- The reach registers at their reset values pass the check. -/
def reachable : State := running 5
theorem wit_TreeEnable :
    (Ready (running 5) ∧ ownsTree (running 5) (7 : BitVec 6).toNat (0 : BitVec 6).toNat = false) ∧
    (Ready reachable ∧ ownsTree reachable (0 : BitVec 6).toNat (0 : BitVec 6).toNat = true ∧ reachable.tim.started = true ∧
      bit (1 : Word) 0 = true ∧ regB reachable (rTreCfg (0 : BitVec 6).toNat) 0 = false ∧ reachOk reachable (0 : BitVec 6).toNat = true) ∧
    (let s := setReg (rTre 0 8) 64 reachable;
      Ready s ∧ s.tim.started = true ∧ regB s (rTreCfg (0 : BitVec 6).toNat) 0 = false ∧ reachOk s (0 : BitVec 6).toNat = false) ∧
    (let s := setReg (rTreCfg 0) 1 (running 5);
      Ready s ∧ s.tim.started = true ∧ bit (0 : Word) 0 = false ∧ regB s (rTreCfg (0 : BitVec 6).toNat) 0 = true) ∧
    (let s := setReg (rTre 0 0x80) 5 (running 5);
      Ready s ∧ ownsTree s (0 : BitVec 6).toNat (0 : BitVec 6).toNat = true ∧ treF s (0 : BitVec 6).toNat 0x80 0 10 ≠ 0 ∧
      (ctxOf s (0 : BitVec 6).toNat (treF s (0 : BitVec 6).toNat 0x80 0 10)).state = .unknown) := by
  decide

/-! ## Witnesses: uplink ports -/

/-- Uplink port 0 is enabled and its link is up; its UPL_FC holds `fc`. -/
def port0 (fc : Word) (u : Upl) : State :=
  setReg (rUpl 0 0x10) fc (setReg (rUpl 0 0) 1 { running 60000 with upl := [(0, { u with link := true })] })
/-- Port 0 in a DEGRADED block whose slice 0 hosts four ports. -/
def survivor : State :=
  let s := port0 0 Upl.empty
  { s with skm := { s.skm with mode := 2 }, glb := { s.glb with homeUpl := [(2, 0), (3, 0)] } }
/-- What enters the section when `b` arrives at port 0 (R163, R165, R350). -/
def arrived (s : State) (b : List Byte) : Arrive :=
  { up := false, src := ⟨0, 0⟩, bytes := b.take (uplMaxlen s 0), n := b.length, mark := markOf (uplMaxlen s 0) b.length (b.take (uplMaxlen s 0)) false,
    stamp := addTime s.tim.time (steps s 0 - ofs16 (reg s (rUpl 0 0x20))), tid := 0, hnd := 0, maxlen := uplMaxlen s 0,
    lenField := lenFieldOf s ⟨0, 0⟩ b.length, lenKnown := lenKnownOf s ⟨0, 0⟩ b.length, looped := false, send := none, part := none,
    last := s.tim.now + (if b.length ≤ 64 then 0 else ceilDiv b.length (uplBytes s 0) - 1), page := none, frame := none, again := false }
/-- A 64-byte frame, and one that is too short for a frame. -/
def bytes64 : List Byte := List.replicate 64 0xAA
/-- Its groups allocate nothing more. -/
def crowded : State :=
  { port0 0 Upl.empty with qbm := { Qbm.reset with grp := (List.range 16).map fun g => (g, { Group.empty with leaving := true }) } }

/-- A handover from slice 3 to slice 8. -/
def handover (live : Bool) : Handover :=
  { failed := 3, new := 8, d := 9000000, dCyc := 0, cause := 5, walked := true, live := live, rehome := false, trees := [24], ports := [6],
    lost := [], held := [], fell := [] }
theorem wit_UplinkReceive :
    isSecond (running 5) (0 : BitVec 4).toNat = false ∧ domOn (running 5) (domUP (0 : BitVec 4).toNat) = true ∧
    uplOpen (running 5) (0 : BitVec 4).toNat = false ∧
    (let s := { port0 0 Upl.empty with tst := { (running 5).tst with loop := [(0, ⟨3, 64, 65⟩)] } };
      uplOpen s (0 : BitVec 4).toNat = true ∧ loopU s (0 : BitVec 4).toNat = 3) ∧
    (let s := port0 0 Upl.empty;
      domOn s (domUP (0 : BitVec 4).toNat) = true ∧ isSecond s (0 : BitVec 4).toNat = false ∧ loopU s (0 : BitVec 4).toNat = 0 ∧
      uplOpen s (0 : BitVec 4).toNat = true ∧ ([0, 0] : List Byte).length < 18 ∧ 18 ≤ bytes64.length ∧
      etherType (arrived s bytes64).bytes ≠ 0x8808 ∧ (true && portSurvivor s (homeU s (0 : BitVec 4).toNat)) = false ∧
      handingFrom s (homeU s (0 : BitVec 4).toNat) = false ∧ bufFull s = false) ∧
    (let s := crowded;
      domOn s (domUP (0 : BitVec 4).toNat) = true ∧ isSecond s (0 : BitVec 4).toNat = false ∧ loopU s (0 : BitVec 4).toNat = 0 ∧
      uplOpen s (0 : BitVec 4).toNat = true ∧ handingFrom s (homeU s (0 : BitVec 4).toNat) = false ∧ bufFull s = true) ∧
    (let s := { port0 0 Upl.empty with skm := { Skm.reset with ho := [{ handover false with failed := 0 }] } };
      uplOpen s (0 : BitVec 4).toNat = true ∧ handingFrom s (homeU s (0 : BitVec 4).toNat) = true ∧
      (handover false).live = false) ∧
    (let s := survivor;
      domOn s (domUP (0 : BitVec 4).toNat) = true ∧ isSecond s (0 : BitVec 4).toNat = false ∧ loopU s (0 : BitVec 4).toNat = 0 ∧
      uplOpen s (0 : BitVec 4).toNat = true ∧ (true && portSurvivor s (homeU s (0 : BitVec 4).toNat)) = true) := by decide +kernel

/-- A flow-control frame: the bytes after the EtherType, and its FCS. -/
def fcFrame (l : List Byte) : List Byte :=
  let b := [0x01, 0x80, 0xC2, 0, 0, 1, 2, 0, 0, 0, 0, 9, 0x88, 0x08] ++ l ++ List.replicate (46 - l.length) 0
  b ++ fcsOf b
/-- What the pause statements say of a flow-control frame. -/
abbrev fcGood (b : List Byte) : Prop :=
  b.length = 64 ∧ b.drop 60 = fcsOf (b.take 60) ∧ beAt b 0 6 = 0x0180C2000001 ∧ beAt b 12 2 = 0x8808
theorem wit_PauseTimers_pause :
    let s := port0 1 Upl.empty; let b := fcFrame [0, 1, 0x12, 0x34]; let z := fcFrame [0, 1, 0, 0]
    domOn s (domUP (0 : BitVec 4).toNat) = true ∧ isSecond s (0 : BitVec 4).toNat = false ∧ uplOpen s (0 : BitVec 4).toNat = true ∧
      loopU s (0 : BitVec 4).toNat = 0 ∧ 64 ≤ uplMaxlen s (0 : BitVec 4).toNat ∧ uplF s (0 : BitVec 4).toNat 0x10 0 2 = 1 ∧
      fcGood b ∧ beAt b 14 2 = 1 ∧ beAt b 16 2 ≠ 0 ∧ fcGood z ∧ beAt z 14 2 = 1 ∧ beAt z 16 2 = 0 := by decide +kernel
theorem wit_PauseTimers_pfc :
    let s := port0 2 Upl.empty; let b := fcFrame [1, 1, 0, 3, 0x12, 0x34, 0, 0]
    domOn s (domUP (0 : BitVec 4).toNat) = true ∧ isSecond s (0 : BitVec 4).toNat = false ∧ uplOpen s (0 : BitVec 4).toNat = true ∧
      loopU s (0 : BitVec 4).toNat = 0 ∧ 64 ≤ uplMaxlen s (0 : BitVec 4).toNat ∧ uplF s (0 : BitVec 4).toNat 0x10 0 2 = 2 ∧
      fcGood b ∧ beAt b 14 2 = 0x101 ∧ (byteAt b 17).testBit 0 = true ∧ beAt b 18 2 ≠ 0 ∧ (byteAt b 17).testBit 1 = true ∧
      beAt b 20 2 = 0 ∧ (byteAt b 17).testBit 2 = false := by decide +kernel
theorem wit_PauseTimers_resend :
    let s := port0 0x01010005 { Upl.empty with fcSent := 1 }
    portSends s (0 : BitVec 4).toNat = true ∧ loopU s (0 : BitVec 4).toNat = 0 ∧ uplF s (0 : BitVec 4).toNat 0x10 0 2 = 1 ∧
      regB s (rUpl (0 : BitVec 4).toNat 0x10) 2 = true ∧ (fcWant s (0 : BitVec 4).toNat).toNat.testBit 0 = true ∧
      (uplOf s (0 : BitVec 4).toNat).fcSent = 1 ∧ (uplOf s (0 : BitVec 4).toNat).busy ≤ s.tim.now ∧
      tGet 0 (uplOf s (0 : BitVec 4).toNat).fcAt 0 - 1 + quantaCyc s (0 : BitVec 4).toNat (uplF s (0 : BitVec 4).toNat 0x10 8 16 / 2) ≤ s.tim.now := by decide
theorem wit_PortLinkAndEnable :
    isSecond ready (0 : BitVec 4).toNat = false ∧ loopU ready (0 : BitVec 4).toNat ≠ 3 ∧ Ready ready ∧ Ready (running 5) ∧
      (running 5).tim.started = true ∧ ready.tim.started = false ∧ regB ready (rUpl (0 : BitVec 4).toNat 0) 0 = false ∧
      bit (3 : Word) 0 = true ∧ (5 : BitVec 6) ≠ 0 ∧ regB (setReg (rUpl 0 0x18) 1 ready) (rUpl (0 : BitVec 4).toNat 0x18) 0 = true := by decide

/-- A frame of 64 bytes from uplink port 1. -/
def plainFrame : Frame :=
  { bytes := List.replicate 64 0xAA, len := 64, src := ⟨0, 1⟩, tid := 0, hnd := 0, stamp := 0, e2e := 0, mark := .good, ipck := 0, l4ck := 0,
    dp := 0, act := 0, fkind := 0, ftgt := 0, flags := 0, slots := [], ends := [], vtags := 0, outerTpid := 0, outerTci := 0, inPrio := 0,
    rxMax := 1522, cells := [], deep := [], refs := 1, sAdd := 0, sq := none, sqLost := false, send := none, ino := 0, looped := false,
    tmm := false, txStamp := none, dchg := none, e2eFail := [], last := 0, lenKnown := true, late := [], inS := false, prov := 0, left := 0, crcBad := false }
/-- Its token. -/
def token9 : Token := ⟨9, 1, 7, 100, false, 0, 0⟩
/-- Frame 9 of port 1, in its cells, on its way to its enqueue in the next cycle: uplink queue 0 of port 0 has room for it. -/
def entering9 : Arrive :=
  { up := false, src := ⟨0, 1⟩, bytes := plainFrame.bytes, n := 64, mark := .good, stamp := 0, tid := 0, hnd := 0, maxlen := 1522, lenField := 64,
    lenKnown := true, looped := false, send := none, part := none, last := 0, page := some false, frame := some 9, again := false }
theorem wit_UplinkReceive_enqueue :
    let r : CRes := { CRes.none_ with queues := [(131072, 0)] }; let f := { plainFrame with cells := [5], refs := 0 }
    let s0 := setReg (rUpl 0 0x44) 0x100010 (running 60000)
    let s := { s0 with
      hrd := { Hrd.reset with later := [(s0.tim.now + 1, .enq 0 entering9 (some r))] }, qbm := { Qbm.reset with frames := [(9, f)] } }
    Idles s ∧ s.hrd.later = [(s.tim.now + 1, .enq 0 entering9 (some r))] ∧ entering9.frame = some 9 ∧ frameOf s 9 = some f ∧ f.refs = 0 ∧
      f.inS = false ∧ f.prov = 0 ∧ entering9.last ≤ s.tim.now ∧ r.l4drop = false ∧ r.queues = [(131072, 0)] ∧ homeless s 131072 = false ∧
      released s 131072 = false ∧ chgOf s 131072 + cellsFor entering9.bytes.length ≤ (qLimits s 131072).1 ∧
      chgOf s 131072 + cellsFor entering9.bytes.length ≤ (qLimits s 131072).2 :=
  ⟨⟨rfl, rfl, rfl, .inl ⟨rfl, by decide⟩⟩, by decide +kernel⟩
theorem wit_UplinkTransmit :
    let s := { port0 0 Upl.empty with qbm := { Qbm.reset with q := [(131079, [token9])], frames := [(9, plainFrame)] } }
    portSends s (0 : BitVec 4).toNat = true ∧ loopU s (0 : BitVec 4).toNat = 0 ∧ (uplOf s (0 : BitVec 4).toNat).busy ≤ s.tim.now ∧
      fcOn s (0 : BitVec 4).toNat = false ∧ (uplOf s (0 : BitVec 4).toNat).pause = none ∧
      handingFrom s (homeU s (0 : BitVec 4).toNat) = false ∧ tGet 0 (uplOf s (0 : BitVec 4).toNat).pfc 7 = 0 ∧
      shaperRate s (0 : BitVec 4).toNat 7 = 0 ∧ queueOf s (131079 + 8 * (0 : BitVec 4).toNat) = [token9] ∧
      frameOf s token9.frame = some plainFrame ∧ plainFrame.mark = .good ∧ plainFrame.late = [] ∧ plainFrame.send = none ∧
      startAt token9 ≤ s.tim.now ∧ asleep s plainFrame = false ∧ egrRead s plainFrame 0 = .clean ∧ (outBytes plainFrame 0).length + 4 ≤ uplMaxlen s (0 : BitVec 4).toNat ∧
      tGet 0 s.qbm.segs (131079 + 8 * (0 : BitVec 4).toNat) = 0 := by decide +kernel

/-! ## Witnesses: cipher edge, deep memory, buffer -/

/-- A request with SEQ `q` of terminal 5 of tree 3. -/
def cpqReq (q : Byte) : CpqReq := ⟨q, true, slotNo 3 5 1, 3, 5, 99, 40, 0, true, true, [], [1, 2, 3], false, 0, 0, 0, false⟩
/-- Channel 0 with requests 4, 5 and 6 outstanding. -/
def ciphering : State := { running 60000 with cpe := { Cpe.reset with chan := [(0, ⟨7, [cpqReq 4, cpqReq 5, cpqReq 6], [], 0⟩)] } }
theorem wit_CipherResponses :
    (cpqChan ciphering (1 : Fin 18).val).line = [] ∧ (∀ x ∈ (cpqChan ciphering (1 : Fin 18).val).out, x.seq ≠ 5) ∧
    (cpqChan ciphering (0 : Fin 18).val).line = [] ∧ (∀ x ∈ [cpqReq 4], x.seq ≠ (cpqReq 5).seq) ∧ (cpqReq 5).eop + cpeTmo ciphering ≤ ciphering.tim.now ∧
    (cpqChan ciphering (0 : Fin 18).val).out = [cpqReq 4] ++ cpqReq 5 :: [cpqReq 6] ∧ (cpqReq 5).seq = 5 ∧ (∀ x ∈ [cpqReq 4], x.seq ≠ 5) ∧
    (cpqReq 5).enc = true ∧ vqOf ciphering (cpqReq 5).tree = none := by decide
/-- A key load of slot 7 outstanding on the key port; partition 2's command waits to erase slot 8. -/
def keying : State :=
  { running 60000 with
    cpe := { Cpe.reset with keyq := [⟨7, true, true, 1, none, 0⟩] },
    hrd := { Hrd.reset with cmd := [(2, ⟨0, some (.keyHold 8 false false []), [], [], []⟩)] } }
theorem wit_KeyWrites : ready.cpe.keyq = [] ∧ keying.cpe.keyq = ⟨7, true, true, 1, none, 0⟩ :: [] ∧ keying.cpe.keyStall = false ∧
    0 + cpeTmo keying ≤ keying.tim.now ∧ tGet 0 keying.cpe.keyAt 8 = 0 ∧
    tFind (2 : BitVec 6).toNat keying.hrd.cmd = some ⟨0, some (.keyHold 8 false false []), [], [], []⟩ ∧ keyReady keying 8 = true ∧
    keyReady { keying with cpe := { keying.cpe with keyStall := true } } 8 = false := by decide
/-- The deep read of frame 9 for a selection of beat 1005 from queue 0. -/
def deepFetch : DeepFetch := ⟨9, 0, 1005, 9000000, true⟩
/-- Frame 9 at the head of downstream queue 0: marked for spill, or with its deep read outstanding. -/
def deepState (spill : Bool) : State :=
  { running 60000 with qbm := { Qbm.reset with
                                  q := [(0, [{ token9 with spill := spill }])]
                                  frames := [(9, { plainFrame with cells := if spill then [5] else [], deep := [3] })]
                                  spill := if spill then [9] else []
                                  fetch := if spill then [] else [deepFetch] } }
theorem wit_DeepMemory_writes : 9 ∉ (deepState false).qbm.spill ∧
    ∃ f, 9 ∈ (deepState true).qbm.spill ∧ frameOf (deepState true) 9 = some f ∧ f.refs = 1 ∧
      { token9 with spill := true } ∈ queueOf (deepState true) 0 ∧ token9.frame = 9 :=
  ⟨by decide, { plainFrame with cells := [5], deep := [3] }, by decide⟩
/-- A staged TU of beat 1005 that reads frame 9. -/
def deepTu : DsTu := ⟨0, 4, 0, 9, 5, 0, true, true, 0, [], [], false, false, false, false, true, 0, none⟩
/-- The same of a frame with `refs` references. -/
def deepWanted (refs : Nat) : State :=
  { deepState false with
    tre := [(0, { Tre.empty with stage := [(1005, [deepTu])] })],
    qbm := { (deepState false).qbm with frames := [(9, { plainFrame with deep := [3], refs := refs })], nextFrame := 10 } }
theorem wit_DeepMemory_reads :
    (∀ refs ∈ [1, 2], let s := deepWanted refs;
      s.qbm.fetch = [deepFetch] ∧ deepFetch.frame = 9 ∧ frameOf s 9 = some { plainFrame with deep := [3], refs := refs } ∧
        deepFetch.sent = true ∧ fetchWanted s deepFetch = true ∧ s.qbm.nextFrame ≠ 9 ∧
        (allocN 18 [3].length { s with qbm := { s.qbm with fetch := [] }, out := [] }).isSome = true ∧
        deepFetch.beat ≠ 0 ∧ deepFetch.beat ≤ absBeat s + 2) ∧
    (deepState false).qbm.fetch = [deepFetch] ∧ frameOf (deepState false) 9 = some { plainFrame with deep := [3] } ∧
    fetchWanted (deepState false) deepFetch = false ∧
    absBeat { deepState false with tim := { (deepState false).tim with tick := 99 } } + 2 < deepFetch.beat := by decide +kernel
theorem wit_BufferMaintenance :
    (Ready ready ∧ ready.tim.started = false ∧ rdBeatSum ready (0 : BitVec 6).toNat (fld (100 : Word) 0 14) ≤ 11000 ∧
      11000 < rdBeatSum ready (0 : BitVec 6).toNat (fld (12000 : Word) 0 14)) ∧
    ((List.range 16).find? (fun g => physOf ready g == (4 : Fin 17).val) = some 4 ∧ domOn ready (domBG (4 : Fin 17).val) = true ∧
      (grpOf ready 4).fenced = false ∧ Still ready ∧ ready.cnt.round = none ∧ ready.tim.started = false ∧ startCyc ready = none ∧
      (0 : BitVec 14).toNat = (ready.tim.now / 64 + 1) % 32768 / 2 ∧ Still (running 60000) ∧ (running 60000).cnt.round = none ∧
      ((running 60000).tim.now / 64 + 1) * 64 - (running 60000).tim.now < toNextBeat (running 60000)) ∧
    (bit (0x13 : Word) 4 = true ∧ ready.qbm.retire = none ∧ ready.qbm.spareUsed = false ∧
      ({ ready with qbm := { ready.qbm with spareUsed := true } } : State).qbm.spareUsed = true) ∧
    (let s := { running 60000 with qbm := { Qbm.reset with retire := some 3 } }; s.qbm.retire = some 3 ∧ physOf s 3 < 17 ∧
      s.qbm.rAt + 131073 ≤ s.tim.now) := by decide +kernel

/-! ## Witnesses: host rings -/

/-- A ring context: K 0, the queue 0, DMA channel 0, MAXLEN 1,522, START 0, STOP `stop`, base 0x10000. -/
def ctx6 (stop : Nat) : W6 := ⟨1, 0x10000, 0, w32 (1522 * 2 ^ 18), w32 (stop * 2 ^ 16), 3⟩
/-- An idle ring at index 0. -/
def idleRing (stop : Nat) : Ring := { Ring.empty with w := ctx6 stop, wn := ctx6 stop, st := .idle, ph := true, maxl := 1522 }
/-- Completion queue 0, send ring 1, fill ring 1, command ring 2 and the notice ring of partition 0 run. -/
def hosting (f : Hrd → Hrd) : State :=
  { running 60000 with hrd := f { Hrd.reset with ring :=
    [(1, idleRing 512), (4097, idleRing 32), (8192, idleRing 0), (12290, idleRing 0), (16384, idleRing 0)] } }
/-- Send ring 1 replaced. -/
def sending (f : Ring → Ring) : State := setRing .send 1 (f (idleRing 512)) (hosting id)
/-- Fill ring 1 replaced. -/
def filling (f : Ring → Ring) : State := setRing .fill 1 (f (idleRing 32)) (hosting id)

theorem wit_Doorbells_producer :
    let s := hosting id; let r := idleRing 512
    Ready s ∧ (1 : BitVec 11).toNat < kcount .send ∧ ownsRing s (5 : BitVec 6).toNat .send (1 : BitVec 11).toNat = false ∧
      ownsRing s (0 : BitVec 6).toNat .send (1 : BitVec 11).toNat = true ∧ domOn s domHP = true ∧
      ringOf s .send (1 : BitVec 11).toNat = r ∧ ringRuns r = true ∧ r.quiescing = none ∧ r.rdN = 0 ∧
      s.hrd.fenced.contains r.w.chan = false ∧
      0 < min (min (fetchLimit s .send (1 : BitVec 11).toNat r false) (spanLimit r)) (cqRoom s r.w.cq) ∧
      rdOut s r.w.chan < 32 ∧ s.hrd.rq = [] ∧ s.pending = [] ∧ s.tim.zero = false ∧ s.cnt.round = none ∧ s.tim.started = true ∧
      1 < toNextBeat s ∧ (hosting fun h => { h with later := [(s.tim.now + 1, .bell .send 1)] }).hrd.later = [(s.tim.now + 1, .bell .send 1)] ∧
      (freeTag (rdTags s (hmpChan (r.w.base + 32 * r.f)))).isSome = true ∧
      (ringOf (sending fun r => { r with rdN := 1 }) .send (1 : BitVec 11).toNat).rdN ≠ 0 ∧
      (ringOf s .fill (1 : BitVec 11).toNat).rdN = 0 ∧ (ringOf s .cmd (2 : BitVec 11).toNat).rdN = 0 := by decide +kernel
theorem wit_Doorbells_consumer :
    let r := { idleRing 0 with f := 2 }; let s := setRing .cq 0 r (hosting id)
    Ready s ∧ (0 : BitVec 11).toNat < kcount .cq ∧ ownsRing s (0 : BitVec 6).toNat .cq (0 : BitVec 11).toNat = true ∧ domOn s domHP = true ∧
      ringOf s .cq (0 : BitVec 11).toNat = r ∧ ringRuns r = true ∧ fld (0x80000001 : Word) 0 17 < 2 * ringSize r ∧
      (fld (0x80000001 : Word) 0 17 + 2 * ringSize r - r.ci) % (2 * ringSize r) ≤ used r ∧ bit (0x80000001 : Word) 31 = true ∧
      unseen s .cq (0 : BitVec 11).toNat < used { r with ci := fld (0x80000001 : Word) 0 17 } ∧
      used { r with ci := fld (0x80000002 : Word) 0 17 } ≤ unseen s .cq (0 : BitVec 11).toNat ∧ bit (1 : Word) 31 = false := by decide
/-- A descriptor read of a ring outstanding with tag 3 of channel 0. -/
def reading (k : RingKind) (n : Nat) (s : State) : State :=
  setRing k n { ringOf s k n with rdN := 1 } { s with hrd := { s.hrd with rd := [⟨0, 3, 0x10000, 64, 0, .desc k n, 0⟩] } }
theorem wit_DescriptorsArrive :
    (∀ e : RingKind × Nat, e ∈ [(RingKind.send, 1), (.fill, 1), (.cmd, 2)] →
      let s := reading e.1 e.2 (hosting id); let r := ringOf s e.1 e.2
      readAt s (0 : Fin 2).val (3 : BitVec 9).toNat = some ⟨0, 3, 0x10000, 64, 0, .desc e.1 e.2, 0⟩ ∧ e.2 < kcount e.1 ∧ r.rdN = 1 ∧
        ringRuns r = true ∧ r.quiescing = none ∧ r.rescan = false ∧ r.desc = [] ∧ bit (0x2001 : Word) 0 = r.ph ∧ bit (0 : Word) 0 ≠ r.ph) ∧
    ([0x2001, 256, 0, 0, 0, 0, 0, 0] : List Word).length = 8 ∧ knownOp (fld (0x2001 : Word) 8 8) = true ∧
    (let r := ringOf (hosting id) .fill 1; fillBad r [0x2001, 256, 0, 0, 0, 0, 0, 0] = false ∧ fillBad r [1, 0, 0, 0, 0, 0, 0, 0] = true) ∧
    readAt (hosting id) (0 : Fin 2).val (3 : BitVec 9).toNat = none ∧ (hosting id).hrd.lateR = [] := by decide

/-- A send descriptor of `n` bytes at 0x20000; and a segmented one. -/
def sendDesc (n : Nat) : Desc := ⟨0, [1, w32 n, 0x20000, 0, 0, 0, 0, 0]⟩
/-- A job of a send whose data, or chain, is being read. -/
def sendJob (fetching : Bool) : SendJob := ⟨sendDesc 100, [], 0, fetching, fetching, [], none⟩
theorem wit_SendsStart_first :
    let s := sending fun r => { r with desc := [sendDesc 100] }; let r := ringOf s .send (1 : BitVec 11).toNat
    r.desc = sendDesc 100 :: [] ∧ ringRuns r = true ∧ (∀ j ∈ r.jobs, j.ready = true ∧ j.d.index ≠ (sendDesc 100).index) ∧
      sdSgl (sendDesc 100) = false ∧ sendPace s (1 : BitVec 11).toNat r = false ∧ anchorWorks s (1 : BitVec 11).toNat = true ∧ s.hrd.fenced.contains r.w.chan = false ∧ domOn s domHP = true ∧
      hdrm s + ceilDiv (sdL (sendDesc 100)) 256 < freeCells s ∧ (∀ x ∈ r.recs, x.r.index ≠ (sendDesc 100).index) ∧
      sendCheck s (1 : BitVec 11).toNat (sendDesc 100) = (0, 0) ∧ (sendCheck s (1 : BitVec 11).toNat (sendDesc 10)).1 ≠ 0 := by decide +kernel
theorem wit_SendsStart_chain :
    let x : HRead := ⟨0, 0, 0x30000, 64, 0, .chain 1, 0⟩
    let s := { sending (fun r => { r with jobs := [sendJob false] }) with hrd := { (sending fun r => { r with jobs := [sendJob false] }).hrd with rd := [x] } }
    let w : List Word := [0x20000, 0, w32 (2 ^ 31 + 100), 0]
    readAt s (0 : Fin 2).val (0 : BitVec 9).toNat = some x ∧ x.addr % 64 ≤ 48 ∧
      (ringOf s .send (1 : BitVec 11).toNat).jobs = [sendJob false] ∧ (sendJob false).ready = false ∧ (sendJob false).segs = [] ∧ (sendJob false).walked = 0 ∧
      4 ≤ w.length ∧ bit (w.getD 2 0) 31 = true ∧ bit (w.getD 2 0) 30 = false ∧ fld (w.getD 2 0) 0 16 ≠ 0 ∧
      fld (w.getD 2 0) 0 16 = sdL (sendJob false).d ∧ sendCheck s (1 : BitVec 11).toNat (sendJob false).d = (0, 0) ∧
      fld (w32 (2 ^ 31 + 99)) 0 16 ≠ sdL (sendJob false).d ∧ fld (w32 (2 ^ 31 + 99)) 0 16 ≠ 0 := by decide
theorem wit_SendsStart_data :
    let x : HRead := ⟨0, 0, 0x20000, 100, 0, .sendData 1 0 0, 0⟩; let b : List Byte := List.replicate 100 0xAA
    let s := { sending (fun r => { r with jobs := [sendJob true] }) with hrd := { (sending fun r => { r with jobs := [sendJob true] }).hrd with rd := [x] } }
    readAt s (0 : Fin 2).val (0 : BitVec 9).toNat = some x ∧ x.use = .sendData 1 (sendJob true).d.index 0 ∧ 1 < kcount .send ∧
      (ringOf s .send 1).jobs = [sendJob true] ∧ (sendJob true).fetching = true ∧ (sendJob true).got = [] ∧ b.length = x.len ∧
      b.length = sdL (sendJob true).d ∧ sdSeg (sendJob true).d = 0 ∧ sendBytes (sendJob true).d (sdVins (sendJob true).d) b = some b ∧
      ringLoop s 1 = none ∧
      s.hrd.staged = [] ∧ (stageReady s 1).1 = true ∧ ringRuns (ringOf s .send 1) = true ∧ (ringOf s .send 1).quiescing = none := by
  decide +kernel

/-- Send ring 1 reads the data of its one send, whose descriptor has word 0 `w` (VINS, SEG). -/
def sendFlags (w : Word) : State :=
  let j : SendJob := { sendJob true with d := ⟨0, [w, w32 100, 0x20000, 0, 0, 0, 0, 0]⟩ }
  let s := sending fun r => { r with jobs := [j] }
  { s with hrd := { s.hrd with rd := [⟨0, 0, 0x20000, 100, 0, .sendData 1 0 0, 0⟩] } }
/-- A frame with two tags. -/
def twoTags : List Byte := List.replicate 12 0 ++ [0x81, 0, 0, 1, 0x81, 0, 0, 2] ++ List.replicate 80 0
theorem wit_SendsStart_rejected :
    (∀ w : Word, (w = 0x81 ∨ w = 0x21) → let s := sendFlags w; let j := { sendJob true with d := ⟨0, [w, w32 100, 0x20000, 0, 0, 0, 0, 0]⟩ };
      readAt s (0 : Fin 2).val (0 : BitVec 9).toNat = some ⟨0, 0, 0x20000, 100, 0, .sendData 1 0 0, 0⟩ ∧
        (ringOf s .send 1).jobs = [j] ∧ j.fetching = true ∧ j.got = [] ∧ twoTags.length = 100 ∧ twoTags.length = sdL j.d ∧
        ringLoop s 1 = none ∧ s.hrd.staged = []) ∧
    (let d : Desc := ⟨0, [0x81, w32 100, 0x20000, 0, 0, 0, 0, 0]⟩; sendBytes d (sdVins d) twoTags = none) ∧
    (let d : Desc := ⟨0, [0x21, w32 100, 0x20000, 0, 0, 0, 0, 0]⟩;
      sendBytes d (sdVins d) twoTags = some twoTags ∧ sdSeg d ≠ 0 ∧ sendSegCause (sendFlags 0x21) 1 d twoTags ≠ 0) :=
  ⟨fun _ h => by rcases h with rfl | rfl <;> decide +kernel, by decide +kernel⟩

/-- A fill descriptor of 2,048 bytes at 0x40000. -/
def fillDesc : Desc := ⟨0, [1, 2048, 0x40000, 0, 0, 0, 0, 0]⟩
/-- Fill ring 1 with one descriptor, and `plainFrame` at the head of its delivery queue. -/
def delivering : State :=
  { filling (fun r => { r with desc := [fillDesc] }) with qbm := { Qbm.reset with q := [(131201, [token9])], frames := [(9, plainFrame)] } }
theorem wit_FillDelivery :
    let s := delivering; let r := ringOf s .fill (1 : BitVec 11).toNat; let b : List Byte := List.replicate 60 0xAA
    ringRuns r = true ∧ r.quiescing = none ∧ s.hrd.fenced.contains r.w.chan = false ∧ domOn s domHP = true ∧
      queueOf s (131200 + (1 : BitVec 11).toNat) = token9 :: [] ∧ frameOf s token9.frame = some plainFrame ∧ token9.part = ringOwner s .fill (1 : BitVec 11).toNat ∧
      asleep s plainFrame = false ∧ plainFrame.last ≤ s.tim.now ∧ egrRead s plainFrame 0 = .clean ∧ plainFrame.send = none ∧ tGet 0 s.qbm.segs (131200 + (1 : BitVec 11).toNat) = 0 ∧
      fillBody r plainFrame 0 = some (b, 0, none) ∧ coverDescs r.desc b.length = some ([fillDesc], []) := by decide +kernel

/-- A record that is ready. -/
def readyRec : PendRec :=
  { r := CRec.mk0 0 1 0 0 0, ready := true, due := 0, bar := false, acks := 0, frame := none, info := none, sq := none }
theorem wit_RecordsIssue :
    (∀ k : RingKind, (k = .send ∨ k = .fill) →
      let s := setRing k 1 { idleRing 32 with recs := [readyRec] } (hosting id); let q := ringOf s .cq (ringOf s k (1 : BitVec 11).toNat).w.cq
      (ringOf s k (1 : BitVec 11).toNat).recs = readyRec :: [] ∧ readyRec.ready = true ∧ readyRec.bar = false ∧ readyRec.due ≤ s.tim.now ∧
      ringRuns q = true ∧ used q < ringSize q ∧ s.hrd.wq = [] ∧ haltWaits k (ringOf s k (1 : BitVec 11).toNat) [] = false ∧ s.hrd.fenced.contains q.w.chan = false ∧ (freeTag (wrTags s (hmpChan (q.w.base + 16 * q.f)))).isSome = true) := by
  intro k h; rcases h with rfl | rfl <;> decide +kernel
/-- A record write and a descriptor read outstanding with tag 5 of channel 1. -/
def accessing : State :=
  setRing .cq 0 { idleRing 0 with armd := true }
    (hosting fun h => { h with wr := [⟨1, 5, 0x10000, 0, .record 0 .send 1, 0⟩], rd := [⟨1, 5, 0x10000, 64, 0, .desc .send 1, 0⟩] })
theorem wit_HostAccesses :
    accessing.hrd.wr.find? (fun x => x.chan == (1 : Fin 2).val && x.tag == (5 : BitVec 9).toNat) = some ⟨1, 5, 0x10000, 0, .record 0 .send 1, 0⟩ ∧ 0 + 20000 ≤ accessing.tim.now ∧
    (ringOf accessing .cq 0).armd = true ∧ ringRuns (ringOf accessing .cq 0) = true ∧ (ringOf accessing .cq 0).quiescing = none ∧
    accessing.hrd.rd.find? (fun x => x.chan == (1 : Fin 2).val && x.tag == (5 : BitVec 9).toNat) = some ⟨1, 5, 0x10000, 64, 0, .desc .send 1, 0⟩ ∧
    ringRuns (ringOf accessing .send 1) = true ∧ (ringOf accessing .send 1).quiescing = none ∧
    (∀ x ∈ accessing.hrd.wr ++ accessing.hrd.lateW, x.chan = (0 : Fin 2).val → x.tag ≠ (5 : BitVec 9).toNat) := by decide
theorem wit_RingSetup :
    let s := hosting id; let w : W6 := { W6.zero with w0 := (1 : Word) &&& ctxMask 0 }
    Ready s ∧ (1 : BitVec 6).toNat < rdisCount .send ∧ bit (2 : Word) 1 = true ∧ bit (2 : Word) 0 = false ∧
      ownsRing s (0 : BitVec 6).toNat .send (32 * (0 : BitVec 6).toNat + 1) = true ∧
      ownsRing s (5 : BitVec 6).toNat .send (32 * (0 : BitVec 6).toNat + 1) = false ∧ (7 : BitVec 11).toNat < kcount .cq ∧
      (ringOf s .cq (7 : BitVec 11).toNat).st = .disabled ∧ (0 : Fin 6) = 0 ∧ (3 : Fin 6) ≠ 0 ∧
      w = { (ringOf s .cq (7 : BitVec 11).toNat).wn with w0 := (1 : Word) &&& ctxMask 0 } ∧ w.en = true ∧
      ringCause s .cq (7 : BitVec 11).toNat w false = 0 ∧ ringCause s .send (7 : BitVec 11).toNat w false ≠ 0 ∧
      bit (fltOf s 4).st 1 = false ∧ bit (fltOf (setFlt 4 { FaultSet.clear with st := 2 } s) 4).st 1 = true := by decide

/-- Partition 2's command, of words `l`, has been fetched, or waits for `w`. -/
def commanding (w : Option CmdWait) (l : List Word) : State := hosting fun h => { h with cmd := [(2, ⟨0, w, l, [], []⟩)] }
/-- The same for partition 0. -/
def commanding0 (w : Option CmdWait) (l : List Word) : State :=
  setRing .cmd 0 (idleRing 0) (hosting fun h => { h with cmd := [(0, ⟨0, w, l, [], []⟩)] })
theorem cmdReady2 (w : Option CmdWait) (l : List Word) : CmdReady (2 : BitVec 6).toNat w (commanding w l) where
  runs := show ringRuns (ringOf (commanding none []) .cmd 2) = true by decide
  recs := show (ringOf (commanding none []) .cmd 2).recs = [] by decide
  cmd := ⟨⟨0, w, l, [], []⟩, rfl, rfl⟩
  cq := show ringRuns (ringOf (commanding none []) .cq (ringOf (commanding none []) .cmd 2).w.cq) = true by decide
  room := show used (ringOf (commanding none []) .cq (ringOf (commanding none []) .cmd 2).w.cq)
    < ringSize (ringOf (commanding none []) .cq (ringOf (commanding none []) .cmd 2).w.cq) by decide
  queue := rfl
  fence := rfl
  tag := show (freeTag (wrTags (commanding none []) (hmpChan ((ringOf (commanding none []) .cq (ringOf (commanding none []) .cmd 2).w.cq).w.base
    + 16 * (ringOf (commanding none []) .cq (ringOf (commanding none []) .cmd 2).w.cq).f)))).isSome = true by decide +kernel
theorem cmdReady0 (w : Option CmdWait) (l : List Word) : CmdReady (0 : BitVec 6).toNat w (commanding0 w l) where
  runs := show ringRuns (ringOf (commanding0 none []) .cmd 0) = true by decide
  recs := show (ringOf (commanding0 none []) .cmd 0).recs = [] by decide
  cmd := ⟨⟨0, w, l, [], []⟩, rfl, rfl⟩
  cq := show ringRuns (ringOf (commanding0 none []) .cq (ringOf (commanding0 none []) .cmd 0).w.cq) = true by decide
  room := show used (ringOf (commanding0 none []) .cq (ringOf (commanding0 none []) .cmd 0).w.cq)
    < ringSize (ringOf (commanding0 none []) .cq (ringOf (commanding0 none []) .cmd 0).w.cq) by decide
  queue := rfl
  fence := rfl
  tag := show (freeTag (wrTags (commanding0 none []) (hmpChan ((ringOf (commanding0 none []) .cq (ringOf (commanding0 none []) .cmd 0).w.cq).w.base
    + 16 * (ringOf (commanding0 none []) .cq (ringOf (commanding0 none []) .cmd 0).w.cq).f)))).isSome = true by decide +kernel
/-- `CmdReady` says nothing of the words. -/
theorem cmdTurn2 {i : Instr} {l : List Word} (h : cmdOf 2 l = some i) : CmdTurn 2 i (commanding none l) := ⟨cmdReady2 none l, _, rfl, h⟩
theorem cmdTurn0 {i : Instr} {l : List Word} (h : cmdOf 0 l = some i) : CmdTurn 0 i (commanding0 none l) := ⟨cmdReady0 none l, _, rfl, h⟩
/-- The words of a command: its opcode, W1, and 64 more bits. -/
def cmdWords (op w1 long : Nat) : List Word := [w32 (256 * op), w32 w1, w32 long, w32 (long / 2 ^ 32), 0, 0, 0, 0]
/-- The words of a command with an entry or a context from W2 on. -/
def tableWords (op w1 : Nat) (l : List Word) : List Word := [w32 (256 * op), w32 w1] ++ l
/-- The words of RING_SET for send ring 7. -/
def ringSetWords (stop : Nat) : List Word := tableWords 1 28 [1, 0x10000, 0, w32 (1522 * 2 ^ 18), w32 (stop * 2 ^ 16), 3]
theorem wit_RingCommands_set :
    let s := commanding0 none (ringSetWords 512)
    CmdTurn 0 (.ringSet 0 0 7 (ctx6 512)) s ∧ (0 : BitVec 2).toNat ≤ 2 ∧ (7 : BitVec 11).toNat < kcount (kindOf (0 : BitVec 2).toNat) ∧
      ownsRing s (0 : BitVec 6).toNat (kindOf (0 : BitVec 2).toNat) (7 : BitVec 11).toNat = true ∧
      ringCause s (kindOf (0 : BitVec 2).toNat) (7 : BitVec 11).toNat (cleanW6 (ctx6 512)) true = 0 ∧ (cleanW6 (ctx6 512)).en = true ∧
      CmdTurn 0 (.ringSet 0 0 7 (ctx6 0)) (commanding0 none (ringSetWords 0)) ∧
      ringCause (commanding0 none (ringSetWords 0)) (kindOf (0 : BitVec 2).toNat) (7 : BitVec 11).toNat (cleanW6 (ctx6 0)) true ≠ 0 :=
  ⟨cmdTurn0 (by decide), by decide, by decide, by decide, by decide, by decide, cmdTurn0 (by decide), by decide⟩
theorem wit_RingCommands_quiesce :
    (let s := commanding0 none (cmdWords 2 5 0);
      CmdTurn 0 (.ringQuiesce 0 1 1) s ∧ ringRuns (ringOf s (kindOf (1 : BitVec 2).toNat) (1 : BitVec 11).toNat) = true ∧
      ownsRing s (0 : BitVec 6).toNat (kindOf (1 : BitVec 2).toNat) (1 : BitVec 11).toNat = true) ∧
    (let s := setRing .send 1 { idleRing 512 with quiescing := some 0 } (commanding0 (some (.quiesce .send 1)) []);
      CmdReady (0 : BitVec 6).toNat (some (.quiesce (kindOf (0 : BitVec 2).toNat) (1 : BitVec 11).toNat)) s ∧
      (ringOf s (kindOf (0 : BitVec 2).toNat) (1 : BitVec 11).toNat).quiescing = some (0 : BitVec 6).toNat ∧
      (ringOf s (kindOf (0 : BitVec 2).toNat) (1 : BitVec 11).toNat).rdN = 0 ∧
      (ringOf s (kindOf (0 : BitVec 2).toNat) (1 : BitVec 11).toNat).desc = [] ∧
      (ringOf s (kindOf (0 : BitVec 2).toNat) (1 : BitVec 11).toNat).jobs = [] ∧
      (ringOf s (kindOf (0 : BitVec 2).toNat) (1 : BitVec 11).toNat).recs = []) ∧
    (let s := setRing .send 1 { idleRing 512 with st := .quiesced } (commanding0 none (cmdWords 3 4 0));
      CmdTurn 0 (.ringResume 0 0 1) s ∧ (ringOf s (kindOf (0 : BitVec 2).toNat) (1 : BitVec 11).toNat).st = .quiesced) :=
  ⟨⟨cmdTurn0 (by decide), by decide⟩,
    ⟨⟨by decide, by decide, ⟨_, rfl, rfl⟩, by decide, by decide, rfl, rfl, by decide +kernel⟩, by decide⟩,
    ⟨⟨⟨by decide, by decide, ⟨_, rfl, rfl⟩, by decide, by decide, rfl, rfl, by decide +kernel⟩, _, rfl, by decide⟩, by decide⟩⟩

/-! ## Witnesses: commands of command rings -/

/-- A bound best-effort allocation entry of terminal 5. -/
def alloc5 : W4 := ⟨0x507, 0, 0, 0⟩
theorem wit_AllocAndQueueCommands :
    (let s := commanding none (tableWords 0x10 (3 + 64 * 2000) [0x507, 0, 0, 0]);
      CmdTurn 2 (.allocSet 2 3 2000 alloc5) s ∧ ownsTree s (2 : BitVec 6).toNat (3 : BitVec 6).toNat = false) ∧
    (let s := commanding0 none (tableWords 0x10 (3 + 64 * 2000) [0x507, 0, 0, 0]);
      CmdTurn 0 (.allocSet 0 3 2000 alloc5) s ∧ ownsTree s (0 : BitVec 6).toNat (3 : BitVec 6).toNat = true ∧ s.tim.started = true ∧
      s.glb.pend = [] ∧ allocCause s (3 : BitVec 6).toNat (2000 : BitVec 12).toNat alloc5 = 0) ∧
    (let s := commanding0 none (tableWords 0x10 (3 + 64 * 1000) [0x507, 0, 0, 0]);
      CmdTurn 0 (.allocSet 0 3 1000 alloc5) s ∧ allocCause s (3 : BitVec 6).toNat (1000 : BitVec 12).toNat alloc5 = 1) ∧
    (let s := commanding0 none (tableWords 0x11 (3 + 64 * 7) [0xB, 100, 200, 0]);
      CmdTurn 0 (.queueSet 0 3 7 ⟨0xB, 100, 200, 0⟩) s ∧ queueCause s (2048 * (3 : BitVec 6).toNat + (7 : BitVec 11).toNat) ⟨0xB, 100, 200, 0⟩ = 0) ∧
    (let s := commanding0 none (tableWords 0x11 (3 + 64 * 7) [0xB, 0x1FFFF, 0, 0]);
      CmdTurn 0 (.queueSet 0 3 7 ⟨0xB, 0x1FFFF, 0, 0⟩) s ∧
      queueCause s (2048 * (3 : BitVec 6).toNat + (7 : BitVec 11).toNat) ⟨0xB, 0x1FFFF, 0, 0⟩ = 1) :=
  ⟨⟨cmdTurn2 (by decide), by decide⟩, ⟨cmdTurn0 (by decide), by decide +kernel⟩, ⟨cmdTurn0 (by decide), by decide +kernel⟩,
    ⟨cmdTurn0 (by decide), by decide +kernel⟩, cmdTurn0 (by decide), by decide +kernel⟩

/-- An announcement. -/
def ann77 : Ann := ⟨77, 0, 90, 0, 0, 0, 0, 0⟩
/-- Tree 3 as partition 0's command finds it: terminal 5 in state `x`, an announcement on the heard list, a loaded key. -/
def terminals (w : Option CmdWait) (l : List Word) (x : TState) (n : Nat) : State :=
  { commanding0 w l with
    tre := [(3, { Tre.empty with
                  ctx := [(5, { Ctx.unknown with state := x })]
                  heard := [ann77]
                  tmmq := List.replicate n { message 0 with cmd := true } })],
    cpe := { Cpe.reset with slot := [(slotNo 3 5 1, { Slot.empty with state := 1 })] } }
theorem cmdReadyT (w : Option CmdWait) (l : List Word) (x : TState) (n : Nat) : CmdReady (0 : BitVec 6).toNat w (terminals w l x n) :=
  let h := cmdReady0 w l
  ⟨h.runs, h.recs, ⟨⟨0, w, l, [], []⟩, rfl, rfl⟩, h.cq, h.room, rfl, rfl, h.tag⟩
theorem cmdTurnT {i : Instr} {l : List Word} (x : TState) (n : Nat) (h : cmdOf 0 l = some i) : CmdTurn 0 i (terminals none l x n) :=
  ⟨cmdReadyT none l x n, _, rfl, h⟩
theorem wit_TerminalCommands :
    (let s := terminals none (cmdWords 0x20 (3 + 64 * 9) 77) .unknown 0;
      CmdTurn 0 (.admitSerial 0 3 9 77) s ∧ ownsTree s (0 : BitVec 6).toNat (3 : BitVec 6).toNat = true ∧ (9 : BitVec 10) ≠ 0 ∧
      (treOf s (3 : BitVec 6).toNat).heard.find? (fun a => a.serial == 77) = some ann77 ∧
      (ctxOf s (3 : BitVec 6).toNat (9 : BitVec 10).toNat).state = .unknown ∧ (ctxOf s (3 : BitVec 6).toNat (9 : BitVec 10).toNat).admitAnn = none ∧
      tFind (9 : BitVec 10).toNat (treOf s (3 : BitVec 6).toNat).pre = none) ∧
    (∀ x : TState, CmdTurn 0 (.activate 0 3 5) (terminals none (cmdWords 0x21 (3 + 64 * 5) 0) x 0) ∧
      CmdTurn 0 (.quiet 0 3 5) (terminals none (cmdWords 0x22 (3 + 64 * 5) 0) x 0) ∧
      CmdTurn 0 (.resume 0 3 5) (terminals none (cmdWords 0x23 (3 + 64 * 5) 0) x 0) ∧
      CmdTurn 0 (.release 0 3 5) (terminals none (cmdWords 0x24 (3 + 64 * 5) 0) x 0) ∧
      CmdTurn 0 (.disable 0 3 5) (terminals none (cmdWords 0x25 (3 + 64 * 5) 0) x 0) ∧
      CmdTurn 0 (.rerange 0 3 5) (terminals none (cmdWords 0x26 (3 + 64 * 5) 0) x 0) ∧
      ∀ l, (ctxOf (terminals none l x 0) (3 : BitVec 6).toNat (5 : BitVec 10).toNat).state = x) ∧
    CmdTurn 0 (.discNow 0 3) (terminals none (cmdWords 0x27 3 0) .active 0) :=
  ⟨⟨cmdTurnT .unknown 0 (by decide), by decide⟩,
    fun x => ⟨cmdTurnT x 0 (by decide), cmdTurnT x 0 (by decide), cmdTurnT x 0 (by decide), cmdTurnT x 0 (by decide), cmdTurnT x 0 (by decide),
      cmdTurnT x 0 (by decide), fun _ => rfl⟩, cmdTurnT _ _ (by decide)⟩
theorem wit_MessageAndKeyCommands_keySwitch :
    (let s := terminals none (cmdWords 0x33 (3 + 64 * 5 + 2 ^ 16) 0) .active 0;
      CmdTurn 0 (.keySwitch 0 3 5 1) s ∧ ownsTree s (0 : BitVec 6).toNat (3 : BitVec 6).toNat = true ∧ (5 : BitVec 10) ≠ 0 ∧
      (slotOf s (slotNo (3 : BitVec 6).toNat (5 : BitVec 10).toNat (1 : BitVec 2).toNat)).state = 1 ∧ tmmRoomFree s (3 : BitVec 6).toNat = true) ∧
    (let s := terminals none (cmdWords 0x33 (3 + 64 * 5 + 2 ^ 17) 0) .active 0;
      CmdTurn 0 (.keySwitch 0 3 5 2) s ∧ (slotOf s (slotNo (3 : BitVec 6).toNat (5 : BitVec 10).toNat (2 : BitVec 2).toNat)).state ≠ 1) ∧
    (let s := terminals none (cmdWords 0x33 (3 + 64 * 5 + 2 ^ 16) 0) .active 128;
      CmdTurn 0 (.keySwitch 0 3 5 1) s ∧ (slotOf s (slotNo (3 : BitVec 6).toNat (5 : BitVec 10).toNat (1 : BitVec 2).toNat)).state = 1 ∧
      tmmRoomFree s (3 : BitVec 6).toNat = false) ∧
    ∀ n, CmdReady (0 : BitVec 6).toNat (some (.tmmRoom (3 : BitVec 6).toNat (message 0))) (terminals (some (.tmmRoom 3 (message 0))) [] .active n) :=
  ⟨⟨cmdTurnT .active 0 (by decide), by decide +kernel⟩, ⟨cmdTurnT .active 0 (by decide), by decide +kernel⟩,
    ⟨cmdTurnT .active 128 (by decide), by decide +kernel⟩, fun n => cmdReadyT _ _ _ n⟩
theorem wit_MessageAndKeyCommands_keys :
    (let s := commanding0 none (cmdWords 0x31 6154 0);
      CmdTurn 0 (.keyErase 0 6154) s ∧ ownsTree s (0 : BitVec 6).toNat ((6154 : BitVec 17).toNat / 2048) = true ∧
      keyReady s (6154 : BitVec 17).toNat = true) ∧
    (let s := commanding none (cmdWords 0x31 6154 0);
      CmdTurn 2 (.keyErase 2 6154) s ∧ ownsTree s (2 : BitVec 6).toNat ((6154 : BitVec 17).toNat / 2048) = false) ∧
    CmdTurn 0 (.keyLut 0 6154 99) (commanding0 none (cmdWords 0x32 6154 99)) ∧
    CmdTurn 2 (.keyLut 2 6154 99) (commanding none (cmdWords 0x32 6154 99)) :=
  ⟨⟨cmdTurn0 (by decide), by decide⟩, ⟨cmdTurn2 (by decide), by decide⟩, cmdTurn0 (by decide), cmdTurn2 (by decide)⟩
/-- What a read of `n` bytes at an address in two 512-byte pages needs is there. -/
theorem readReady0 (l : List Word) (n : Nat) (h : n = 48 ∨ n = 32 ∨ n = 64 ∨ n = 16 * (1 : BitVec 21).toNat) :
    ReadReady (0 : BitVec 6).toNat (0x501F0 : BitVec 52).toNat n (commanding0 none l) := by
  have key : ∀ m ∈ [48, 32, 64, 16], ReadReady (0 : BitVec 6).toNat (0x501F0 : BitVec 52).toNat m (commanding0 none []) := by
    intro m hm
    simp only [List.mem_cons, List.not_mem_nil, or_false] at hm
    rcases hm with rfl | rfl | rfl | rfl <;> exact ⟨rfl, rfl, by decide, fun h => show (rdTags (commanding0 none []) h).length + _ ≤ 512 by
      rw [show rdTags (commanding0 none []) h = [] from rfl]; decide⟩
  rcases h with rfl | rfl | rfl | rfl <;> exact key _ (by decide)
theorem wit_OperandReads :
    CmdTurn 0 (.tmmSend 0 3 5 0x501F0) (commanding0 none (cmdWords 0x28 (3 + 64 * 5) 0x501F0)) ∧
    CmdTurn 0 (.keyLoad 0 6154 true 0x501F0) (commanding0 none (cmdWords 0x30 (6154 + 2 ^ 17) 0x501F0)) ∧
    CmdTurn 0 (.emAdd 0 true 0x501F0) (commanding0 none (cmdWords 0x40 1 0x501F0)) ∧
    CmdTurn 0 (.emMod 0 true 0x501F0) (commanding0 none (cmdWords 0x41 1 0x501F0)) ∧
    CmdTurn 0 (.emDel 0 true 0x501F0) (commanding0 none (cmdWords 0x42 1 0x501F0)) ∧
    CmdTurn 0 (.overlayApply 0 1 0x501F0 1) (commanding0 none (tableWords 0x50 1 [0x501F0, 0, 1, 0, 0, 0])) ∧
    (∀ l, ownsTree (commanding0 none l) (0 : BitVec 6).toNat (3 : BitVec 6).toNat = true ∧
      ownsTree (commanding0 none l) (0 : BitVec 6).toNat ((6154 : BitVec 17).toNat / 2048) = true ∧ (commanding0 none l).tim.started = true) ∧
    (1 : BitVec 5).toNat ≤ 16 ∧ (1 : BitVec 21) ≠ 0 ∧ (1 : BitVec 21).toNat ≤ 65536 ∧ (0x501F0 : BitVec 52).toNat % 16 = 0 :=
  ⟨cmdTurn0 (by decide), cmdTurn0 (by decide), cmdTurn0 (by decide), cmdTurn0 (by decide), cmdTurn0 (by decide), cmdTurn0 (by decide),
    fun _ => ⟨rfl, rfl, rfl⟩, by decide⟩

/-- The read of the operand of partition 0's command, with tag 0 of channel 0. -/
def operandRd (w : CmdWait) : HRead := ⟨0, 0, 0x50000, operandLen w, 0, .operand 0 0, 0⟩
/-- Partition 0's command waits for its operand's read. -/
def operand (w : CmdWait) (em : List EmEntry) : State :=
  { terminals (some w) [] .active 0 with
    hrd := { (commanding0 (some w) []).hrd with rd := [operandRd w] }, cls := { Cls.reset with em := em } }
theorem cmdReadyO (w : CmdWait) (em : List EmEntry) : CmdReady (0 : BitVec 6).toNat (some w) (operand w em) :=
  let h := cmdReady0 (some w) []
  ⟨h.runs, h.recs, ⟨⟨0, some w, [], [], []⟩, rfl, rfl⟩, h.cq, h.room, rfl, rfl, h.tag⟩
theorem wit_OperandsArrive :
    (∀ w em, CmdReady (0 : BitVec 6).toNat (some w) (operand w em) ∧ (∀ c, tFind (0 : BitVec 6).toNat (operand w em).hrd.cmd = some c → c.got = []) ∧
      readAt (operand w em) (0 : Fin 2).val (0 : BitVec 9).toNat = some (operandRd w) ∧ (operandRd w).use = .operand (0 : BitVec 6).toNat 0 ∧
      (operandRd w).len = operandLen w) ∧
    (let w := CmdWait.tmm 3 5 0x50000; let b : List Byte := 8 :: List.replicate 47 0
      b.length = (operandRd w).len ∧ byteAt b 0 = 8 ∧ tmmRoomFree (operand w []) 3 = true ∧ byteAt ([1] ++ b.drop 1) 0 ≠ 8 ∧
        byteAt ([1] ++ b.drop 1) 0 ≠ 0x0D ∧ ([1] ++ b.drop 1).length = (operandRd w).len) ∧
    (let w := CmdWait.keyRead 6154 true 0x50000; (List.replicate 32 (0 : Byte)).length = (operandRd w).len ∧ keyReady (operand w []) 6154 = true) ∧
    (let b : List Byte := 8 :: List.replicate 63 0; let e := emImage true b
      b.length = (operandRd (.em 0 true 0x50000)).len ∧
      (operand (.em 0 true 0x50000) []).cls.em.any (fun x => x.dir == e.dir && x.prof == e.prof && x.key == e.key) = false ∧
      emRoom (operand (.em 0 true 0x50000) []) e = true ∧
      (operand (.em 1 true 0x50000) [e]).cls.em.any (fun x => x.dir == e.dir && x.prof == e.prof && x.key == e.key) = true ∧
      (operand (.em 2 true 0x50000) [e]).cls.em.any (fun x => x.dir == e.dir && x.prof == e.prof && x.key == e.key) = true) :=
  ⟨fun w em => ⟨cmdReadyO w em, fun c h => by cases h; rfl, rfl, rfl, rfl⟩, by decide +kernel, by decide, by decide +kernel⟩
theorem wit_ClassifierPages :
    (let s := commanding0 none (cmdWords 0x43 0 0); CmdTurn 0 (.clsSwap 0) s ∧ s.tim.started = true) ∧
    (let s := { commanding0 none (cmdWords 0x43 0 0) with tim := Tim.reset }; CmdTurn 0 (.clsSwap 0) s ∧ s.tim.started = false) ∧
    (let s := { ready with cls := { Cls.reset with sync := false, swapAt := 0 }, tim := { Tim.reset with now := 4095 } };
      s.cls.sync = false ∧ s.cls.swapAt + 4095 ≤ s.tim.now ∧ s.cls.fresh = [] ∧ tRising s.cls.tbl = true ∧ ∀ e ∈ s.cls.tbl, e.1 < 262144) :=
  let h := cmdReady0 none (cmdWords 0x43 0 0)
  ⟨⟨cmdTurn0 (by decide), rfl⟩, ⟨⟨⟨h.runs, h.recs, h.cmd, h.cq, h.room, rfl, rfl, h.tag⟩, _, rfl, by decide⟩, rfl⟩, by decide⟩

/-- Partition 0's OVERLAY_APPLY waits for its image's record, in the first or the second reading. -/
def imaging (img : Nat) (second : Bool) (tim : Tim) : State :=
  { commanding0 (some (.image img 0x50000 1 second)) [] with
    hrd := { (commanding0 (some (.image img 0x50000 1 second)) []).hrd with rd := [⟨0, 0, 0x50000, 16, 0, .image 0 0, 0⟩] }, tim := tim }
theorem cmdReadyI (img : Nat) (second : Bool) (tim : Tim) : CmdReady 0 (some (.image img 0x50000 1 second)) (imaging img second tim) :=
  let h := cmdReady0 none []
  ⟨h.runs, h.recs, ⟨⟨0, some (.image img 0x50000 1 second), [], [], []⟩, rfl, rfl⟩, h.cq, h.room, rfl, rfl, h.tag⟩
theorem wit_OverlayImages :
    let r : ImgRec := ⟨0, w32 (rUpl 3 4), 1000, 0x3FFF⟩; let bad : ImgRec := ⟨15, 0, 0, 0⟩; let x : HRead := ⟨0, 0, 0x50000, 16, 0, .image 0 0, 0⟩
    (∀ img second tim, CmdReady 0 (some (.image img 0x50000 1 second)) (imaging img second tim) ∧
      readAt (imaging img second tim) (0 : Fin 2).val (0 : BitVec 9).toNat = some x ∧
      ∀ c, tFind 0 (imaging img second tim).hrd.cmd = some c → c.recs = []) ∧
    x.use = .image 0 0 ∧ x.len = 16 * 1 ∧ [r].length = 1 ∧ [bad].length = 1 ∧
    (let s := imaging 1 false (running 60000).tim; imgRefusal (!s.tim.started) 101 [r] s = none ∧ (imgRefusal (!s.tim.started) 101 [bad] s).isSome = true) ∧
    ((imaging 1 true (running 60000).tim).tim.started = true ∧ ∀ y ∈ [r], recSpace y ≠ 3) ∧
    (imaging 0 true Tim.reset).tim.started = false ∧ recSpace r = 0 ∧ r.index.toNat = rUpl (3 : BitVec 4).toNat 4 :=
  ⟨fun img second tim => ⟨cmdReadyI img second tim, rfl, fun c h => by cases h; rfl⟩, by decide +kernel⟩

/-! ## Witnesses: time -/

theorem wit_EngineStart :
    Ready ready ∧ ready.tim.started = false ∧ Ready (running 5) ∧ (running 5).tim.started = true ∧
    (let s := { ready with tim := { Tim.reset with startWait := some (false, 0), now := 16 } };
      s.tim.startWait = some (false, 0) ∧ 0 + 16 ≤ s.tim.now ∧ s.tim.startWait ≠ none) ∧
    (let s := { ready with tim := { Tim.reset with startWait := some (false, 0), now := 15 } };
      s.tim.startWait = some (false, 0) ∧ s.tim.now < 0 + 16 ∧ Still s ∧ s.cnt.round = none) ∧
    ready.tim.startWait = none := by decide
/-- The engine runs, with TIM changed by `f`. -/
def timing (f : Tim → Tim) : State := { running 5 with tim := f (running 5).tim }
theorem wit_TimeControl :
    (Ready (running 5) ∧ (running 5).tim.started = true ∧ (running 5).tim.armed = false ∧ (running 5).tim.hold = false ∧
      tFind (pkey 0 (rTim 0x28)) (running 5).regs.loHeld = none ∧ cyc (running 5) < 156186) ∧
    (let s := setReg (rTim 0x38) 1 (timing fun t => { t with inc := 1000000000, slew := 5 }); Still s ∧ s.cnt.round = none ∧ (oldRate s).isNone = true ∧ slewTerm s ≠ 0 ∧
      ceilDiv s.tim.slew.natAbs (slewTerm s) = 5 ∧ 5 < toNextBeat s) ∧
    ((timing fun t => { t with armed := true }).tim.armed = true) ∧
    (let s := setReg (rTim 0x48) 50 (running 5); Ready s ∧ s.tim.started = true ∧ s.tim.hold = false ∧ regF s (rTim 0x48) 0 16 ≠ 0 ∧
      s.tim.wdogTick + regF s (rTim 0x48) 0 16 ≤ s.tim.tick) ∧
    (tFind (pkey 0 (rTim 0x30)) { (running 5).regs with loHeld := [(pkey 0 (rTim 0x30), 0)] }.loHeld = some 0) ∧
    (let s := setReg (rTim 0x4C) 50 (timing fun t => { t with hold := true }); Ready s ∧ s.tim.started = true ∧ s.tim.hold = true ∧
      reg s (rTim 0x4C) ≠ 0 ∧ s.tim.holdTick + (reg s (rTim 0x4C)).toNat ≤ s.tim.tick ∧
      tFind (pkey 0 (rTim 0x28)) s.regs.loHeld = none) := by decide
/-- A good time-of-day message. -/
def tod : List Byte :=
  let b : List Byte := [0x48, 0x54, 0x01, 0, 0, 0, 0, 0, 1, 0, 0, 37, 0, 0]
  b ++ beBytes 2 (crc16 b)
theorem wit_EpochAndPulses :
    (let s := setReg (rTim 0x60) 3 (running 5); Ready s ∧ regB s (rTim 0x60) 0 = true ∧ ppsAccepts s = true ∧ s.tim.started = true ∧
      s.tim.restart ≠ some true ∧ regB s (rTim 0x60) 1 = true ∧ outEdgeCyc s = none ∧ (oldRate s).isNone = true) ∧
    (let s := setReg (rTim 0x60) 1 (timing fun t => { t with ppsLast := some t.now }); regB s (rTim 0x60) 0 = true ∧ ppsAccepts s = false) ∧
    (let s := setReg (rTim 0x60) 1 (timing fun t => { t with ppsLast := some 0, now := 2000000000 }); regB s (rTim 0x60) 0 = true ∧
      s.tim.ppsLost = false ∧ 0 + 1250000000 + regF s (rTim 0x64) 0 21 ≤ s.tim.now) ∧
    (let s := setReg (rTim 0x60) 2 (timing fun t => { t with time := 1000000000 * unitNs }); s.tim.started = true ∧ regB s (rTim 0x60) 1 = true ∧
      0 < toNextBeat s ∧ outSec s (s.tim.now - 1) < outSec s s.tim.now ∧ s.tim.ppsOut = false) ∧
    (let s := timing fun t => { t with ppsOut := true, now := 2000000000 }; s.tim.ppsOut = true ∧
      s.tim.ppsOutAt + regF s (rTim 0x60) 2 9 * 1250000 ≤ s.tim.now) ∧
    (let s := setReg (rTim 0x70) 3 (timing fun t => { t with ppsLast := some 8000000, todDue := true }); regB s (rTim 0x70) 1 = true ∧
      s.tim.todDue = true ∧ s.tim.ppsOutAt + 1250000 ≤ s.tim.now ∧ regB s (rTim 0x70) 0 = true ∧ todCause tod s = 0 ∧
      todCause [] s ≠ 0) := by decide +kernel

/-! ## Witnesses: availability -/

/-- The Skim is on, the spare tested; slice 3 has role `r`. -/
def skimming (r : Role) : State :=
  setReg pageSKM 0x11 { running 130000 with skm := { Skm.reset with role := [(3, r)], stPass := true, stValid := true, passOk := [8] } }
theorem wit_SliceFaults :
    (let s := setReg (pageSKM + 4) 2000 (skimming .active); roleOf s (3 : Fin 9).val = .active ∧ hasWork s (3 : Fin 9).val = true ∧
      tGet 0 s.skm.strobe (3 : Fin 9).val + (reg s (pageSKM + 4)).toNat % 2 ^ 12 ≤ s.tim.now ∧ slicesIn s .shadow = [] ∧
      (slicesIn s .spare).find? (s.skm.passOk.contains ·) = some 8 ∧ skmEn s = true ∧
      s.skm.ho.any (fun h => h.live && h.new == (3 : Fin 9).val) = false ∧ s.tst.loop = [] ∧ roleOf s (8 : Fin 9).val = .spare ∧ roleOf s (8 : Fin 9).val ≠ .active ∧
      roleOf s (8 : Fin 9).val ≠ .loading ∧ roleOf s (8 : Fin 9).val ≠ .shadow ∧
      tGet 0 s.skm.passAt (8 : Fin 9).val + 2000000 ≤ s.tim.now) ∧
    (let s := skimming .testing; roleOf s (3 : Fin 9).val = .testing ∧ tGet 0 s.skm.reinst (3 : Fin 9).val < regF s pageSKM 4 4 ∧
      tGet 0 s.skm.passAt (3 : Fin 9).val + 2000000 ≤ s.tim.now) ∧
    (let s := setReg pageSKM 1 (skimming .testing); roleOf s (3 : Fin 9).val = .testing ∧
      regF s pageSKM 4 4 ≤ tGet 0 s.skm.reinst (3 : Fin 9).val) := by decide
/-- It is under way. -/
def handing (live : Bool) : State :=
  setReg pageSKM 5 { running 130000 with skm := { Skm.reset with role := [(3, .failed), (8, .loading)], ho := [handover live] } }
theorem wit_Handovers :
    (let e : RepEntry := ⟨9, 1, 0, 7, 64, false, 0, false, false⟩;
      let s := { handing false with
                  skm := { (handing false).skm with ho := [{ handover false with walked := false }] },
                  qbm := { Qbm.reset with rep := [(6, [e])], q := [(0, [token9])], commit := [(0, 9)] } };
      s.skm.ho.any (fun h => h.failed == (3 : Fin 9).val && !h.walked) = true ∧ tGet [] s.qbm.rep (secKey (3 : Fin 9).val false) = [e] ∧
      tGet [] s.qbm.rep (secKey (3 : Fin 9).val true) = [] ∧ queueOf s e.queue = [token9] ∧ token9.frame = e.frame ∧ token9.seq = e.seq ∧
      hasStarted s e = true ∧ hasStarted { s with qbm := { s.qbm with commit := [] } } e = false) ∧
    (let s := handing false; let h := handover false;
      s.skm.ho = [h] ∧ h.live = false ∧ h.rehome = false ∧ h.walked = true ∧ h.d + 5000 ≤ s.tim.now ∧ h.held = [] ∧ h.lost = [] ∧
      s.hrd.staged = [] ∧ tFind h.failed s.skm.skim = none ∧ tGet [] s.qbm.rep (secKey h.failed false) = [] ∧ tGet [] s.qbm.rep (secKey h.failed true) = [] ∧
      (∀ x ∈ h.trees, (treOf s x).run = false ∧ (treOf s x).reasm = [] ∧ (treOf s x).stage = [] ∧
        (chnOf s x).late1 = none ∧ (chnOf s x).late2 = none)) ∧
    ((handing true).skm.ho = [handover true] ∧ (handover true).live = true ∧ regB (handing true) pageSKM 2 = true ∧
      roleOf (handing true) (handover true).failed = .failed ∧ staysOn (handing true) (domSL 3) = true ∧
      staysOn { handing true with pwr := { Pwr.reset with dom := [(domSL 3, { PDom.on with state := 2 })] } } (domSL 3) = false ∧
      regB (skimming .failed) pageSKM 2 = false) := by decide
theorem wit_Rotations :
    (let s := setReg (pageSKM + 8) 50 (skimming .active); reg s (pageSKM + 8) ≠ 0 ∧ s.skm.rotTick + (reg s (pageSKM + 8)).toNat ≤ s.tim.tick ∧
      Ready s) ∧
    (let s := { skimming .active with skm := { (skimming .active).skm with rotDue := true }, tim := (running 125000).tim };
      s.tim.started = true ∧ s.skm.rotDue = true ∧ s.skm.mode = 0 ∧ cyc s = 125000 ∧ rotSpare s = some 8 ∧ longestActive s = some 0) ∧
    (let s := { running 150000 with skm := { Skm.reset with rot := some ⟨some 0, 8, none, 101, []⟩ } };
      150000 ≤ cyc s ∧ s.skm.rot = some ⟨some 0, 8, none, 101, []⟩) ∧
    (let s := { skimming .failed with
                  skm := { (skimming .failed).skm with restore := true, mode := 2 }, glb := { ready.glb with homeTree := [(24, 0)] },
                  tim := (running 125000).tim };
      s.tim.started = true ∧ s.skm.restore = true ∧ 2 ≤ s.skm.mode ∧ cyc s = 125000 ∧ rotSpare s = some 8 ∧ restoreSet s = some 3) ∧
    (bit (0x13 : Word) 4 = true ∧ roleOf (skimming .failed) (fld (0x13 : Word) 0 4) = .failed ∧ bit (3 : Word) 4 = false ∧
      staysOn (skimming .failed) (domSL (fld (0x13 : Word) 0 4)) = true) := by decide

/-! ## Witnesses: power -/

/-- Domain 5 in state `p`. -/
def powered (p : PDom) : State := { running 60000 with pwr := { Pwr.reset with dom := [(5, p)] } }
/-- An entry of domain 5 to OFF, at `point`. -/
def entering (point wake : Nat) : State :=
  powered { PDom.on with phase := 2, cur := some 2, a := 9000000, point := point, wake := wake, iso := true }
/-- Domain 5 is OFF. -/
def offDom : PDom := { PDom.on with state := 2, iso := true, gate := true }
theorem wit_PowerRequests :
    (Ready ready ∧ fld (0x305 : Word) 8 2 = 3 ∧ fld (0x205 : Word) 0 7 = 5 ∧ fld (0x205 : Word) 8 2 = 2 ∧ domAO ≤ fld (0x26C : Word) 0 7 ∧
      (pdom ready 5).cur = none ∧ (pdom ready 5).state = 0 ∧ (pdom (powered offDom) 5).state ≠ 0 ∧
      (pdom (powered { PDom.on with cur := some 1 }) 5).cur ≠ none ∧
      (pdom (powered { PDom.on with cur := some 1, queued := some 2 }) 5).queued ≠ none) ∧
    (let s := powered { PDom.on with phase := 1, cur := some 2, curAt := 9000000 }; (pdom s (5 : BitVec 7).toNat).phase = 1 ∧
      (pdom s (5 : BitVec 7).toNat).curAt + 625000 ≤ s.tim.now ∧ (pdom s (5 : BitVec 7).toNat).queued = none ∧
      refusalOf (answers (5 : BitVec 7).toNat s) = none ∧ .delay ∈ answers (5 : BitVec 7).toNat s) ∧
    (let s := { running 60000 with pwr := { Pwr.reset with dom := [(70, { PDom.on with phase := 1, cur := some 2, curAt := 9000000 })] } };
      (pdom s (70 : BitVec 7).toNat).phase = 1 ∧ (pdom s (70 : BitVec 7).toNat).curAt + 1 ≤ s.tim.now ∧
      refusalOf (answers (70 : BitVec 7).toNat s) = none ∧ .delay ∉ answers (70 : BitVec 7).toNat s) ∧
    (let s := { running 60000 with pwr := { Pwr.reset with dom := [(107, { PDom.on with phase := 1, cur := some 2, curAt := 9000000 })] } };
      (pdom s (107 : BitVec 7).toNat).phase = 1 ∧ (pdom s (107 : BitVec 7).toNat).curAt + 1 ≤ s.tim.now ∧
      refusalOf (answers (107 : BitVec 7).toNat s) = some 7 ∧ (pdom s (107 : BitVec 7).toNat).queued = none) := by decide
theorem wit_PowerEntry :
    (∀ n, n ∈ [1, 2, 3, 4] → (pdom (entering n 0) (5 : BitVec 7).toNat).phase = 2 ∧ (pdom (entering n 0) (5 : BitVec 7).toNat).wake = 0 ∧
      (pdom (entering n 0) (5 : BitVec 7).toNat).a + [0, 0, 16, 32, 64].getD (pdom (entering n 0) (5 : BitVec 7).toNat).point 0
        ≤ (entering n 0).tim.now ∧ (pdom (entering n 0) (5 : BitVec 7).toNat).point = n) ∧
    ((pdom (entering 4 5) (5 : BitVec 7).toNat).wake ≠ 0 ∧ (pdom (entering 4 5) (5 : BitVec 7).toNat).a + 128 ≤ (entering 4 5).tim.now ∧
      (pdom (entering 4 5) (5 : BitVec 7).toNat).queued = none) ∧
    (let s := { entering 4 5 with tim := { (entering 4 5).tim with now := 9000100 } };
      (pdom s (5 : BitVec 7).toNat).a + 64 ≤ s.tim.now ∧ Still s ∧ s.tim.now < (pdom s (5 : BitVec 7).toNat).a + 128 ∧
      (pdom s (5 : BitVec 7).toNat).a + 128 - s.tim.now < toNextBeat s) ∧
    (let s := { entering 4 5 with tim := { ready.tim with now := 9000100 } }; startCyc s = none ∧ s.tim.started = false) ∧
    ((pdom (entering 5 0) (5 : BitVec 7).toNat).point = 5 ∧ (5 : BitVec 7).toNat ≠ domHP ∧
      (pdom (entering 5 0) (5 : BitVec 7).toNat).a + 625000 ≤ (entering 5 0).tim.now ∧ Still (entering 5 0) ∧ 64 < toNextBeat (entering 5 0)) ∧
    (let s := powered { PDom.on with phase := 2, cur := some 2, a := 9000000, point := 5, queued := some 1 };
      (pdom s (5 : BitVec 7).toNat).queued = some 1 ∧ (pdom s (5 : BitVec 7).toNat).state = 0 ∧
      (pdom s (5 : BitVec 7).toNat).a + 625000 ≤ s.tim.now ∧ Still s ∧ 64 < toNextBeat s) := by decide
theorem wit_PowerExit :
    (let s := setReg (pagePWR + 0x1000 + 4 * 5) 16 (powered offDom); pdom s (domTP (5 : BitVec 6).toNat) = offDom ∧
      ¬(offDom.state = 0 ∧ (offDom.cur = none ∨ s.tim.now < offDom.curAt)) ∧ offDom.phase ≠ 3 ∧ offDom.wake = 0 ∧ regB s (pagePWR + 0x1000 + 4 * domTP (5 : BitVec 6).toNat) 4 = true) ∧
    (let s := setReg (pagePWR + 0x1000 + 4 * 5) 16 (running 60000); (pdom s (domTP (5 : BitVec 6).toNat)).state = 0 ∧
      (pdom s (domTP (5 : BitVec 6).toNat)).cur = none ∧ regB s (pagePWR + 0x1000 + 4 * domTP (5 : BitVec 6).toNat) 4 = true) ∧
    (let s := setReg (pagePWR + 0x1000 + 4 * 5) 0 (powered offDom); regB s (pagePWR + 0x1000 + 4 * domTP (5 : BitVec 6).toNat) 4 = false) ∧
    (let s := powered { offDom with cur := some 0 }; (pdom s (5 : BitVec 7).toNat).state ≠ 0 ∧ (pdom s (5 : BitVec 7).toNat).phase ≠ 3 ∧
      (pdom s (5 : BitVec 7).toNat).cur = some 0 ∧ exitDue s (5 : BitVec 7).toNat ≤ s.tim.now ∧
      (∀ h, homeOfDom s (5 : BitVec 7).toNat = some h → domOn s (domSL h) = true)) ∧
    (let s := { running 60000 with pwr := { Pwr.reset with dom := [(5, { offDom with wake := 5 }), (99, offDom)] } };
      (pdom s (5 : BitVec 7).toNat).state ≠ 0 ∧ (pdom s (5 : BitVec 7).toNat).phase ≠ 3 ∧ (pdom s (5 : BitVec 7).toNat).wake ≠ 0 ∧
      homeOfDom s (5 : BitVec 7).toNat = some 0 ∧ domOn s (domSL 0) = false ∧ (pdom s (domSL 0)).state ≠ 0 ∧ (pdom s (domSL 0)).phase ≠ 3 ∧ (pdom s (domSL 0)).wake = 0) ∧
    (let s := powered { offDom with phase := 3, a := 9000000 }; (pdom s (5 : BitVec 7).toNat).phase = 3 ∧ (pdom s (5 : BitVec 7).toNat).point ≠ 6 ∧
      (pdom s (5 : BitVec 7).toNat).tmo = false ∧ (pdom s (5 : BitVec 7).toNat).a + 625000 ≤ s.tim.now) ∧
    (let s := powered { offDom with phase := 3, a := 9000000, tmo := true }; (pdom s (5 : BitVec 7).toNat).tmo = true) ∧
    (let s := powered { offDom with phase := 3, point := 6, cur := some 0, a := 9000000 }; (pdom s (5 : BitVec 7).toNat).point = 6 ∧
      (pdom s (5 : BitVec 7).toNat).a ≤ s.tim.now ∧ (pdom s (5 : BitVec 7).toNat).queued = none ∧ (5 : BitVec 7).toNat ≠ domHP) := by
  refine ⟨by decide, by decide, by decide, ⟨by decide, by decide, by decide, by decide, ?_⟩, by decide, by decide, by decide, by decide⟩
  intro h e; obtain rfl : 0 = h := Option.some.inj e; decide

/-! ## Witnesses: faults and counters -/

/-- READY with fault set 3 holding `w`. -/
def faulty (w : Word) : State := setFlt 3 { FaultSet.clear with st := w } (running 5)
theorem wit_FaultSets :
    (Ready (faulty 4) ∧ (fltOf (faulty 4) 3).last.at_ ≠ (faulty 4).tim.now ∧ (3 : BitVec 7).toNat < 110 ∧ persisting (faulty 4) = [] ∧ ((fltOf (faulty 4) 3).st &&& ~~~(4 : Word)) = 0 ∧
      ((fltOf (faulty 6) 3).st &&& ~~~(4 : Word)) ≠ 0 ∧ (fltOf (faulty 6) 3).more ≤ 0xFFFFFF) ∧
    (let s := { faulty 4 with tim := { Tim.reset with ppsLost := true } }; (3, 2) ∈ persisting s ∧ bit (fltOf s 3).st 2 = true) ∧
    ((0xF0 : Word) &&& fltBits 3 = 0 ∧ (4 : Word) &&& fltBits 3 ≠ 0 ∧ (5 : BitVec 6) ≠ 0) := by decide
/-- A turn that falls due in the next cycle. -/
def dueNext (x : Turn) (s : State) : State := { s with hrd := { s.hrd with later := [(s.tim.now + 1, x)] } }
theorem wit_FaultSets_forced :
    (let s := dueNext (.force 3 4) (running 5); Idles s ∧ s.hrd.later = [(s.tim.now + 1, .force (3 : BitVec 7).toNat 4)] ∧
      (3 : BitVec 7).toNat < 12 ∧ (4 : Word) &&& fltBits (3 : BitVec 7).toNat ≠ 0 ∧ (fltOf s (3 : BitVec 7).toNat).cap = none ∧
      (fltOf s (3 : BitVec 7).toNat).last.at_ ≤ s.tim.now) ∧
    (let s := dueNext (.force 25 0x80) (running 5); Idles s ∧ s.hrd.later = [(s.tim.now + 1, .force (25 : BitVec 7).toNat 0x80)] ∧
      21 ≤ (25 : BitVec 7).toNat ∧ (25 : BitVec 7).toNat ≤ 84) :=
  ⟨⟨⟨rfl, rfl, rfl, .inl ⟨rfl, by decide⟩⟩, by decide⟩, ⟨rfl, rfl, rfl, .inl ⟨rfl, by decide⟩⟩, by decide⟩
theorem wit_FaultPinAndDetectors_released :
    let s := dueNext .pinOff { running 5 with glb := { ready.glb with pin := .held } }
    Idles s ∧ s.hrd.later = [(s.tim.now + 1, .pinOff)] ∧ s.glb.pin = .held :=
  ⟨⟨rfl, rfl, rfl, .inl ⟨rfl, by decide⟩⟩, rfl, rfl⟩
theorem wit_FaultPinAndDetectors :
    (let s : PinState → State := fun p => { running 60000 with glb := { ready.glb with pin := p } };
      (s .pulse).glb.pin = .pulse ∧ regB (s .pulse) 0x80 1 = true ∧ (s .pulse).glb.pinRel = false ∧ regB (setReg 0x80 1 (s .pulse)) 0x80 1 = false ∧
      Ready (s .held) ∧ (s .held).glb.pin = .held ∧ (s .recovery).glb.pin = .recovery ∧ (s .recovery).glb.pinWait = false ∧
      ∀ p, (s p).glb.pinAt + 2500 ≤ (s p).tim.now ∧ (s p).glb.pinAt + 1250 ≤ (s p).tim.now) ∧
    (fltOf (running 5) 3).cap = none ∧ (fltOf (running 5) 3).last.at_ ≠ (running 5).tim.now ∧ roleOf ready (8 : Fin 9).val = .spare ∧
    prtSpec (0x7004 : BitVec 16).toNat ≠ none ∧
    (ctxOf (terminals none [] .active 0) (3 : BitVec 6).toNat (5 : BitVec 10).toNat).state = .active := by
  refine ⟨⟨by decide, by decide, by decide, by decide, by decide, by decide, by decide, by decide, fun p => by cases p <;> decide⟩, by decide⟩
theorem wit_CounterCommands :
    Ready ready ∧ (109 : BitVec 7).toNat ≤ 109 ∧
    tFind (pkey 0 (rCntVal (3 : BitVec 7).toNat (2 : BitVec 4).toNat)) [(pkey 0 (rCntVal 3 2), (9 : Word))] = some 9 ∧
    (let s := { ready with cnt := { Cnt.reset with sWr := 5 } }; fld (3 : Word) 0 17 < 2 * 2 ^ smpK s ∧
      (fld (3 : Word) 0 17 + 2 * 2 ^ smpK s - s.cnt.sCi % (2 * 2 ^ smpK s)) % (2 * 2 ^ smpK s)
        ≤ (s.cnt.sWr + 2 * 2 ^ smpK s - s.cnt.sCi % (2 * 2 ^ smpK s)) % (2 * 2 ^ smpK s) ∧ 2 * 2 ^ smpK s ≤ fld (0x1FFFF : Word) 0 17) ∧
    bit (1 : Word) 0 = true ∧ (vqAt { ready with tst := { ready.tst with vq := [(1, { Vq.empty with probe := true })] } } (1 : BitVec 2).toNat).probe = true := by
  decide
/-- A round falls due; group writes of round 4 are outstanding. -/
def rounding (l : List HWrite) : State :=
  setReg pageCNT 0x803 { running 0 with
                         cnt := { Cnt.reset with mrDue := true, ackw := [4] }
                         hrd := { Hrd.reset with wr := l } }
theorem wit_MilkRound :
    (Ready (rounding []) ∧ (rounding []).cnt.lidx < 65536) ∧
    ((rounding []).cnt.mrDue = true ∧ cyc (rounding []) = 0 ∧ (rounding []).cnt.round = none ∧ domOn (rounding []) domHP = true ∧
      1 < regF (rounding []) pageCNT 8 17 ∧
      ({ (rounding []).cnt with round := some ⟨3, 90, 0, 9, 0, 1, [], [], []⟩ } : Cnt).round ≠ none) ∧
    ((rounding [⟨0, 3, 64, 0, .round 4, 0⟩]).hrd.npend = [] ∧ (rounding [⟨0, 3, 64, 0, .round 4, 0⟩]).hrd.wq = [] ∧
      0 + 20000 ≤ (rounding []).tim.now ∧ (∀ e ∈ (rounding [⟨0, 3, 64, 0, .round 4, 0⟩]).hrd.ring, e.2.recs = []) ∧
      (rounding [⟨0, 3, 64, 0, .round 4, 0⟩]).cnt.ackw = 4 :: [] ∧ (roundWrites (rounding [⟨0, 3, 64, 0, .round 4, 0⟩]) 4).length ≤ 1 ∧
      oldestRoundWrite (rounding [⟨0, 3, 64, 0, .round 4, 0⟩]) = some (4, ⟨0, 3, 64, 0, .round 4, 0⟩)) := by decide

/-- R474: the eighth completion is recorded at the latest. -/
theorem test_completion_ends_sample :
    (completeAs (iUPL 0) (smpOf plainFrame) { State.reset with cnt := { Cnt.reset with sample := [(iUPL 0, (2, 7))] } }).cnt.sample = [] := by
  decide

end Sys2Proof.Tests
end

section
/-!
SUPPORT. The register port (R19, R487, R498, R518, R521), one fact per case: the access that does nothing, the access outside its
class, and the write of a stored register that takes effect at once or at the next tick boundary. Then the statement about the port.
-/

namespace Sys2Proof.Machine

/-! ## Which components change -/

section
variable {l : List Comp} {s t : State}

/-- A command's start empties what crossed the edge, which is no component. -/
theorem Changes.of_begin (h : Changes l (begin_ s) t) : Changes l s t := fun c hc => by
  have k := h c hc
  cases c <;> exact k

theorem Changes.emit {o : Out} (h : Changes l s t) : Changes l s (emit o t) := fun c hc => by
  have k := h c hc
  cases c <;> exact k

theorem changes_partViol (p : Nat) (s : State) : Changes [.cnt] s (partViol p s) := fun c hc => by
  cases c <;> simp [Kept] at hc ⊢

theorem changes_regs (r : Regs) (s : State) : Changes [.regs] s { s with regs := r } := fun c hc => by
  cases c <;> simp [Kept] at hc ⊢

end

/-! ## Accesses that are not permitted -/

theorem accOf_unaligned {a : Nat} (h : a % 4 ≠ 0) : accOf a = none := if_pos h

section
variable {s : State} {p a : Nat} {be : BitVec 4} {data : Word} {c : Acc}

/-- R19, R518: an access that does nothing, of an offset that is listed, is one by its byte enables. -/
theorem be_of_noAccess (h : a % 4 ≠ 0 ∨ be ≠ 0xF ∨ accOf a = none) (hc : accOf a = some c) : be ≠ 0xF := by
  rcases h with h | h | h
  · simp [accOf_unaligned h] at hc
  · exact h
  · simp [h] at hc

theorem regWrite_noAccess (h : a % 4 ≠ 0 ∨ be ≠ 0xF ∨ accOf a = none) : regWrite p a be data s = s := by
  unfold regWrite
  split
  · rfl
  · next hc => exact if_pos (.inl (be_of_noAccess h hc))

theorem regRead_noAccess (h : a % 4 ≠ 0 ∨ be ≠ 0xF ∨ accOf a = none) : regRead p a be s = emit (.regRead 0) s := by
  unfold regRead
  split
  · rfl
  · next hc => exact if_pos (.inl (be_of_noAccess h hc))

/-- R498: a write outside the register's class. -/
theorem regWrite_violation (hr : Ready s) (ha : accOf a = some c) (hm : mayWrite s p a c = false) :
    regWrite p a 0xF data s = partViol p s := by simp [regWrite, ha, hr, hm]

/-- R498: a read outside the register's class. -/
theorem regRead_violation (hr : Ready s) (ha : accOf a = some c) (hm : mayRead s p a c = false) :
    regRead p a 0xF s = emit (.regRead 0) (partViol p s) := by simp [regRead, ha, hr, hm]

theorem partViol_begin_cnt : (partViol p (begin_ s)).cnt = (countO 1 0 p 1 s).cnt := rfl

/-! ## A permitted write of a stored register -/

theorem regWrite_permitted (hr : Ready s) (ha : accOf a = some c) (hm : mayWrite s p a c = true) (hf : ritAllowed s a data = true) :
    regWrite p a 0xF data s = writePort p a data s := by simp [regWrite, ritForeign, ha, hr, hm, hf]

theorem putReg_now {x : RegSpec} (hx : regSpec a = some x) (hok : regAllowed s a (mergeW (regAfter s a) x.mask data) = true)
    (he : effNow s a x.eff = .now) : putReg a data s = commitReg a x.mask data s := by simp [putReg, hx, hok, he]

/-- R521: the write waits for the next tick boundary. -/
theorem putReg_tick {x : RegSpec} (hx : regSpec a = some x) (hok : regAllowed s a (mergeW (regAfter s a) x.mask data) = true)
    (he : effNow s a x.eff = .tick) :
    putReg a data s = { s with regs := { s.regs with tickDef := s.regs.tickDef ++ [⟨a, x.mask, data⟩] } } := by
  simp [putReg, hx, hok, he]

theorem effNow_tick_started (h : s.tim.started = true) : effNow s a .tick = .tick := if_pos h

theorem effNow_tick_stopped (h : s.tim.started = false) : effNow s a .tick = .now := by simp [effNow, h]

end

/-! ## The uplink page -/

/-- The page bases that tell the uplink page from the others (Table 18-1). -/
theorem page_bases : pagePRT = 0x010000 ∧ pagePWR = 0x020000 ∧ pageTIM = 0x030000 ∧ pageHRD = 0x040000 ∧ pageCLS = 0x080000 ∧
    pageCHN = 0x100000 ∧ pageTRE = 0x180000 ∧ pageUPL = 0x1C0000 ∧ pageQBM = 0x1D0000 ∧ pageDPT = 0x1F0000 ∧ pageCNT = 0x2B0000 := by
  decide

theorem inArr_iff {o base stride n : Nat} :
    inArr o base stride n = true ↔ base ≤ o ∧ o < base + stride * n ∧ (o - base) % stride = 0 := by
  unfold inArr arrIx
  split <;> simp_all

theorem isXoff_iff {a : Nat} : isXoff a = true ↔ a = pageQBM + 0x10 ∨ a = pageQBM + 0x14 := by simp [isXoff]

section
variable {s : State} {p a : Nat} {data old new : Word}

/-- R230: only the indirection tables have an owner check. -/
theorem ritAllowed_above (h : pageCHN ≤ a) : ritAllowed s a new = true := by
  have hp := page_bases
  unfold ritAllowed
  extract_lets
  rw [decide_eq_false (show ¬ a < pageCLS + 0x60100 by omega), Bool.and_false]
  rfl

theorem writeVal_upl (h : pageUPL ≤ a) (h' : a < pageQBM) :
    writeVal p a data s = writeUpl ((a - pageUPL) / 0x1000) ((a - pageUPL) % 0x1000) data s := by
  have hp := page_bases
  unfold writeVal rTim
  simp only [inArr_iff]
  rw [if_neg, if_neg, if_neg, if_neg, if_neg, if_neg, if_neg, if_neg, if_neg, if_neg, if_neg, if_neg, if_neg, if_neg, if_neg,
    if_pos ⟨h, h'⟩] <;> omega

theorem regHook_upl (h : pageUPL ≤ a) (h' : a < pageQBM) :
    regHook a old new s = uplHook ((a - pageUPL) / 0x1000) ((a - pageUPL) % 0x1000) old new s := by
  have hp := page_bases
  unfold regHook rTim
  simp only [isXoff_iff]
  rw [if_neg, if_neg, if_neg, if_neg, if_neg, if_neg, if_neg, if_pos ⟨h, h'⟩] <;> omega

end

/-! ## UPL_MAXLEN -/

section
variable {s : State} {p : Nat} {data old new : Word}

/-- Where UPL_MAXLEN of a port stands: its page, its number in the page, its offset. -/
theorem uplMaxlen_place (hp : p < 16) : pageUPL ≤ rUpl p 4 ∧ rUpl p 4 < pageQBM ∧
    (rUpl p 4 - pageUPL) / 0x1000 = p ∧ (rUpl p 4 - pageUPL) % 0x1000 = 4 := by
  have hb := page_bases
  unfold rUpl
  omega

theorem uplMaxlen_acc (hp : p < 16) : accOf (rUpl p 4) = some .p0 := by
  revert p; decide

theorem uplMaxlen_spec (hp : p < 16) : regSpec (rUpl p 4) = some ⟨1522, 0x3FFF, .tick⟩ := by
  revert p; decide

theorem uplMaxlen_instOf (hp : p < 16) : instOf (rUpl p 4) = some (85 + p, 4) := by
  revert p; decide

theorem uplMaxlen_unpaired (hp : p < 16) : hiOf (rUpl p 4) = none ∧ loOf (rUpl p 4) = none := by
  revert p; decide

theorem uplMaxlen_allowed (hp : p < 16) : regAllowed s (rUpl p 4) new = true := by
  have hb := page_bases
  obtain ⟨hlo, hhi, -, -⟩ := uplMaxlen_place hp
  have hm : isMinc (rUpl p 4) = false := by revert p; decide
  have hd : deepTree (rUpl p 4) = none := if_neg (by omega)
  unfold regAllowed
  rw [hm, hd, if_neg Bool.false_ne_true, if_neg (by omega)]
  exact ritAllowed_above (by omega)

theorem uplMaxlen_hook (hp : p < 16) : regHook (rUpl p 4) old new s = s := by
  obtain ⟨hlo, hhi, -, ho⟩ := uplMaxlen_place hp
  rw [regHook_upl hlo hhi, ho]
  exact if_neg Bool.false_ne_true

theorem uplMaxlen_commit (hp : p < 16) {mask : Word} :
    commitReg (rUpl p 4) mask data s = setReg (rUpl p 4) (mergeW (reg s (rUpl p 4)) mask data) s := uplMaxlen_hook hp

theorem writePort_uplMaxlen (hp : p < 16) {q : Nat} : writePort q (rUpl p 4) data s = putReg (rUpl p 4) data s := by
  obtain ⟨hlo, hhi, hn, ho⟩ := uplMaxlen_place hp
  obtain ⟨hh, hl⟩ := uplMaxlen_unpaired hp
  have hv : writeVal q (rUpl p 4) data s = putReg (rUpl p 4) data s := by rw [writeVal_upl hlo hhi, hn, ho]; rfl
  simp [writePort, writePort.go, uplMaxlen_instOf hp, heldLo, hh, hl, hv]

/-- R201, R521: what a write of UPL_MAXLEN by partition 0 comes to. -/
theorem regWrite_uplMaxlen (hr : Ready s) (hp : p < 16) : regWrite 0 (rUpl p 4) 0xF data s = putReg (rUpl p 4) data s := by
  have hb := page_bases
  obtain ⟨hlo, -, -, -⟩ := uplMaxlen_place hp
  rw [regWrite_permitted hr (uplMaxlen_acc hp) rfl (ritAllowed_above (by omega)), writePort_uplMaxlen hp]

end

/-! ## The statement -/

section
variable {s : State} {part : BitVec 6} {addr : BitVec 24} {be : BitVec 4} {data : Word}

theorem runs_noAccess (h : addr.toNat % 4 ≠ 0 ∨ be ≠ 0xF ∨ accOf addr.toNat = none) :
    (∀ c, (c = .registerWrite part addr be data ∨ c = .hiWriteCommit part addr be data) → Runs c s { s with out := [] }) ∧
    (∀ c, (c = .loReadCapture part addr be ∨ c = .readClearRegister part addr be) → Runs c s { s with out := [.regRead 0] }) := by
  constructor
  · rintro c (rfl | rfl) <;> exact congrArg Host.Outcome.next (regWrite_noAccess h)
  · rintro c (rfl | rfl) <;> exact congrArg Host.Outcome.next (regRead_noAccess h)

theorem runs_writeViolation {c : Acc} (hr : Ready s) (ha : accOf addr.toNat = some c) (hm : mayWrite s part.toNat addr.toNat c = false) :
    ∃ t, Runs (.registerWrite part addr 0xF data) s t ∧ t.out = [] ∧ t.cnt = (countO 1 0 part.toNat 1 s).cnt ∧ Changes [.cnt] s t :=
  ⟨partViol part.toNat (begin_ s), congrArg Host.Outcome.next (regWrite_violation (s := begin_ s) hr ha hm), partViol_out _ _,
    partViol_begin_cnt, (changes_partViol _ _).of_begin⟩

theorem runs_readViolation {c : Acc} (hr : Ready s) (ha : accOf addr.toNat = some c) (hm : mayRead s part.toNat addr.toNat c = false) :
    ∃ t, Runs (.loReadCapture part addr 0xF) s t ∧ t.out = [.regRead 0] ∧ t.cnt = (countO 1 0 part.toNat 1 s).cnt ∧
      Changes [.cnt] s t :=
  ⟨emit (.regRead 0) (partViol part.toNat (begin_ s)), congrArg Host.Outcome.next (regRead_violation (s := begin_ s) hr ha hm),
    congrArg (· ++ [Out.regRead 0]) (partViol_out _ _), partViol_begin_cnt, (changes_partViol _ _).of_begin.emit⟩

theorem runs_uplMaxlen {p : Nat} (hr : Ready s) (hp : p < 16) (ha : addr.toNat = rUpl p 4) :
    Runs (.registerWrite 0 addr 0xF data) s (putReg (rUpl p 4) data (begin_ s)) := by
  have h := regWrite_uplMaxlen (s := begin_ s) (data := data) hr hp
  rw [← ha] at h ⊢
  exact congrArg Host.Outcome.next h

theorem runs_uplMaxlen_stopped {p : Nat} (hr : Ready s) (hp : p < 16) (ha : addr.toNat = rUpl p 4) (hs : s.tim.started = false) :
    ∃ t, Runs (.registerWrite 0 addr 0xF data) s t ∧ reg t addr.toNat = mergeW (reg s addr.toNat) 0x3FFF data ∧ Changes [.regs] s t := by
  have e := putReg_now (s := begin_ s) (data := data) (uplMaxlen_spec hp) (uplMaxlen_allowed hp) (effNow_tick_stopped hs)
  rw [uplMaxlen_commit hp] at e
  refine ⟨_, runs_uplMaxlen hr hp ha, ?_, ?_⟩ <;> rw [e]
  · rw [ha]; exact reg_setReg_same _ _ _
  · exact (changes_regs _ _).of_begin

theorem runs_uplMaxlen_started {p : Nat} (hr : Ready s) (hp : p < 16) (ha : addr.toNat = rUpl p 4) (hs : s.tim.started = true) :
    ∃ t, Runs (.registerWrite 0 addr 0xF data) s t ∧ reg t addr.toNat = reg s addr.toNat ∧
      t.regs.tickDef = s.regs.tickDef ++ [⟨addr.toNat, 0x3FFF, data⟩] ∧ Changes [.regs] s t := by
  have e := putReg_tick (s := begin_ s) (data := data) (uplMaxlen_spec hp) (uplMaxlen_allowed hp) (effNow_tick_started hs)
  refine ⟨_, runs_uplMaxlen hr hp ha, ?_, ?_, ?_⟩ <;> rw [e]
  · rfl
  · rw [ha]; rfl
  · exact (changes_regs _ _).of_begin

end

/-- Settles O11: each clause is one case of the port above; reserved bits read 0 because a legal register holds none (R18). -/
theorem portAccesses : Obligations.PortAccesses := by
  unfold Obligations.PortAccesses
  refine ⟨fun s part addr be data => ⟨runs_noAccess, fun h => h.reserved _, fun c => runs_writeViolation, fun c => runs_readViolation⟩,
    fun s port addr data hr ha => ⟨?_, ?_⟩⟩
  · exact runs_uplMaxlen_stopped hr port.isLt ha
  · exact runs_uplMaxlen_started hr port.isLt ha

end Sys2Proof.Machine
end

section
/-!
SUPPORT. Commands about host rings (R295, R322, R328, R329). Reads and reserved slots are the only part of a ring that fetching touches
(`Ring.sansFetch`); an operation that touches no more of any ring leaves the answer of a command as it was (`AnswersAlike`), and a
command that is ready to answer writes its record at once (`answered_completeCmd`). Then the four commands and the statement.
-/

namespace Sys2Proof.Machine

/-! ## Which components change -/

section
variable {l l' : List Comp} {s t u : State}

theorem Kept.trans {c : Comp} (h : Kept s t c) (k : Kept t u c) : Kept s u c := by cases c <;> exact Eq.trans k h

theorem Changes.trans (h : Changes l s t) (k : Changes l t u) : Changes l s u := fun c hc => (h c hc).trans (k c hc)

theorem Changes.mono (hl : l ⊆ l') (h : Changes l s t) : Changes l' s t := fun c hc => h c fun m => hc (hl m)

theorem changes_refl (l : List Comp) (s : State) : Changes l s s := fun c _ => by cases c <;> rfl

theorem changes_hrd (h : Hrd) (o : List Out) (s : State) : Changes [.hrd] s { s with hrd := h, out := o } := fun c hc => by
  cases c <;> simp [Kept] at hc ⊢

theorem changes_cnt (x : Cnt) (s : State) : Changes [.cnt] s { s with cnt := x } := fun c hc => by
  cases c <;> simp [Kept] at hc ⊢

end

/-! ## Rings by their keys -/

section
variable {k k' : RingKind} {n n' : Nat} {r : Ring} {s : State}

theorem kindOf_kcode (k : RingKind) : kindOf (kcode k) = k := by cases k <;> rfl

theorem kcode_inj (h : kcode k = kcode k') : k = k' := by rw [← kindOf_kcode k, h, kindOf_kcode]

theorem rkey_inj (hn : n < 4096) (hn' : n' < 4096) (h : rkey k n = rkey k' n') : k = k' ∧ n = n' := by
  unfold rkey at h
  exact ⟨kcode_inj (by omega), by omega⟩

theorem rkey_ne (hn : n < 4096) (hn' : n' < 4096) (h : k ≠ k') : rkey k n ≠ rkey k' n' := fun e => h (rkey_inj hn hn' e).1

theorem kcount_le : kcount k ≤ 2048 := by cases k <;> decide

theorem W6.cq_lt (w : W6) : w.cq < 4096 := Nat.lt_trans (Nat.mod_lt _ (by decide)) (show 2 ^ 10 < 4096 by decide)

@[simp] theorem ringOf_setRing_same : ringOf (setRing k n r s) k n = r := tGet_tSet_same _ _ _ _

theorem ringOf_setRing_other (h : rkey k' n' ≠ rkey k n) : ringOf (setRing k n r s) k' n' = ringOf s k' n' := tGet_tSet_other h _ _ _ _

theorem cmd_setRing : (setRing k n r s).hrd.cmd = s.hrd.cmd := rfl

theorem changes_setRing : Changes [.hrd] s (setRing k n r s) := changes_hrd _ _ _

end

/-- A ring without what its descriptor reads and its reserved slots hold: all that fetching leaves alone (R300, R312). -/
def Ring.sansFetch (r : Ring) : Ring := { r with rdN := 0, rescan := false, rsv := 0 }

/-- Rings that differ in their fetching alone agree in whatever does not read it. -/
theorem Ring.eq_of_sansFetch {β : Type} (f : Ring → β) (hf : ∀ r : Ring, f r.sansFetch = f r) {r r' : Ring}
    (h : r.sansFetch = r'.sansFetch) : f r = f r' := by rw [← hf r, h, hf]

/-! ## Operations that change no more of a ring than its fetching -/

/-- From `s` to `t` nothing changes but the components of `l`, and of the rings nothing but their reads and reserved slots; the running
commands, the fences and the tags of writes stay, no write starts to wait, and what has crossed the edge stands. -/
structure RingsKeep (l : List Comp) (s t : State) : Prop where
  changes : Changes l s t
  ring : ∀ k n, (ringOf t k n).sansFetch = (ringOf s k n).sansFetch
  cmd : t.hrd.cmd = s.hrd.cmd
  fenced : t.hrd.fenced = s.hrd.fenced
  wq : s.hrd.wq = [] → t.hrd.wq = []
  tags : ∀ h, wrTags t h = wrTags s h
  out : ∀ o ∈ s.out, o ∈ t.out

section
variable {l l' : List Comp} {s t u : State} {k : RingKind} {n : Nat}

theorem RingsKeep.refl (l : List Comp) (s : State) : RingsKeep l s s :=
  ⟨changes_refl l s, fun _ _ => rfl, rfl, rfl, id, fun _ => rfl, fun _ => id⟩

theorem RingsKeep.trans (h : RingsKeep l s t) (g : RingsKeep l t u) : RingsKeep l s u :=
  ⟨h.changes.trans g.changes, fun k n => (g.ring k n).trans (h.ring k n), g.cmd.trans h.cmd, g.fenced.trans h.fenced,
    fun e => g.wq (h.wq e), fun c => (g.tags c).trans (h.tags c), fun o m => g.out o (h.out o m)⟩

theorem RingsKeep.mono (hl : l ⊆ l') (h : RingsKeep l s t) : RingsKeep l' s t := { h with changes := h.changes.mono hl }

/-- A ring is written back with its reads and reserved slots changed. -/
theorem ringsKeep_setRing {r : Ring} (h : r.sansFetch = (ringOf s k n).sansFetch) : RingsKeep [.hrd] s (setRing k n r s) where
  changes := changes_setRing
  ring k' n' := by
    by_cases e : rkey k' n' = rkey k n
    · unfold ringOf at h ⊢
      rw [e, ← h]
      exact congrArg Ring.sansFetch (tGet_tSet_same _ _ _ _)
    · rw [ringOf_setRing_other e]
  cmd := rfl
  fenced := rfl
  wq := id
  tags _ := rfl
  out _ := id

theorem ringsKeep_cqReserve (c : Nat) (d : Int) (s : State) : RingsKeep [.hrd] s (cqReserve c d s) := ringsKeep_setRing rfl

theorem ringsKeep_countR (evt : Nat) (k : RingKind) (n amt : Nat) (s : State) : RingsKeep [.cnt] s (countR evt k n amt s) := by
  have key (x : Cnt) : RingsKeep [.cnt] s { s with cnt := x } :=
    ⟨changes_cnt x s, fun _ _ => rfl, rfl, rfl, id, fun _ => rfl, fun _ => id⟩
  unfold countR countO countN
  split <;> split
  · exact .refl _ _
  · exact key _
  · exact .refl _ _
  · exact key _

theorem ringsKeep_grantRead {h : Nat} (e : grantRead h s = some u) : RingsKeep [.hrd] s u := by
  unfold grantRead at e
  split at e
  · cases e
  · cases e
    exact ⟨changes_hrd _ _ _, fun _ _ => rfl, rfl, rfl, id, fun _ => rfl, fun _ => List.mem_append_left _⟩

theorem ringsKeep_pumpReads (fuel : Nat) (s : State) : RingsKeep [.hrd] s (pumpReads fuel s) := by
  induction fuel generalizing s with
  | zero => exact .refl _ _
  | succ fuel ih =>
    rw [pumpReads]
    split
    · next e => exact (ringsKeep_grantRead e).trans (ih _)
    · split
      · next e => exact (ringsKeep_grantRead e).trans (ih _)
      · exact .refl _ _

theorem ringsKeep_hostReads (q : List RdReq) (s : State) : RingsKeep [.hrd] s (hostReads q s) :=
  have ask : RingsKeep [.hrd] s { s with hrd := { s.hrd with rq := s.hrd.rq ++ q } } :=
    ⟨changes_hrd _ _ _, fun _ _ => rfl, rfl, rfl, id, fun _ => rfl, fun _ => id⟩
  ask.trans (ringsKeep_pumpReads _ _)

/-- R300, R312: a ring that may not read on stays; one without a free slot counts; any other reserves its slots and reads. -/
theorem ringsKeep_tryFetch (k : RingKind) (n : Nat) (cover : Bool) (s : State) : RingsKeep [.hrd, .cnt] s (tryFetch k n cover s) := by
  unfold tryFetch
  extract_lets r want m
  split
  · exact .refl _ _
  · split
    · exact .refl _ _
    · split
      · exact (ringsKeep_countR _ _ _ _ _).mono (by simp)
      · have asked : RingsKeep [.hrd] s (setRing k n { r with rdN := m, rescan := false } s) := ringsKeep_setRing rfl
        exact ((asked.trans (ringsKeep_hostReads _ _)).trans (ringsKeep_cqReserve _ _ _)).mono (by simp)

/-- R332: the reads of an old lap are dropped. -/
theorem ringsKeep_orphanReads (p : RdUse → Bool) (s : State) : RingsKeep [.hrd] s (orphanReads p s) :=
  ⟨changes_hrd _ _ _, fun _ _ => rfl, rfl, rfl, id, fun _ => rfl, fun _ => id⟩

/-- R332: the writes of an old lap keep their tags. -/
theorem ringsKeep_orphanWrites (k : RingKind) (n : Nat) (s : State) : RingsKeep [.hrd] s (orphanWrites k n s) where
  changes := changes_hrd _ _ _
  ring _ _ := rfl
  cmd := rfl
  fenced := rfl
  wq e := by simp [orphanWrites, e]
  tags h := by
    have chan (x : HWrite) : (if writeOf k n x.use then { x with use := .scrap } else x).chan = x.chan := by split <;> rfl
    have tag (x : HWrite) : (if writeOf k n x.use then { x with use := .scrap } else x).tag = x.tag := by split <;> rfl
    simp [wrTags, orphanWrites, List.filter_map, Function.comp_def, chan, tag]
  out _ := id

theorem ringsKeep_dropBells (k : RingKind) (n : Nat) (s : State) : RingsKeep [.hrd] s (dropBells k n s) :=
  ⟨changes_hrd _ _ _, fun _ _ => rfl, rfl, rfl, id, fun _ => rfl, fun _ => id⟩

/-- R332: what an old lap of a send ring has staged or sent is no longer its own. -/
theorem ringsKeep_detachSends (n : Nat) (s : State) : RingsKeep [.hrd, .qbm, .skm] s (detachSends n (dropStaged n s)) :=
  ⟨fun c hc => by cases c <;> simp [Kept, detachSends, dropStaged] at hc ⊢, fun _ _ => rfl, rfl, rfl, id, fun _ => rfl, fun _ => id⟩

end

/-! ## What a command's answer depends on (R322, R323) -/

/-- The completion queue of the command ring of partition `p`. -/
abbrev cmdCq (s : State) (p : Nat) : Ring := ringOf s .cq (ringOf s .cmd p).w.cq

/-- What the answer of the command of partition `p` depends on is in `u` as it is in `s`. -/
structure AnswersAlike (p : Nat) (s u : State) : Prop where
  ring : (ringOf u .cmd p).sansFetch = (ringOf s .cmd p).sansFetch
  cq : (cmdCq u p).sansFetch = (cmdCq s p).sansFetch
  owner : ∀ c, ringOwner u .cq c = ringOwner s .cq c
  cmd : tFind p u.hrd.cmd = tFind p s.hrd.cmd
  fenced : u.hrd.fenced = s.hrd.fenced
  wq : s.hrd.wq = [] → u.hrd.wq = []
  tags : ∀ h, wrTags u h = wrTags s h

section
variable {p status cause result : Nat} {w : Option CmdWait} {s t u : State}

/-- The number of the completion queue is part of the command ring's context. -/
theorem cmdCq_num (h : (ringOf u .cmd p).sansFetch = (ringOf s .cmd p).sansFetch) : (ringOf u .cmd p).w.cq = (ringOf s .cmd p).w.cq :=
  Ring.eq_of_sansFetch (fun r => r.w.cq) (fun _ => rfl) h

theorem AnswersAlike.trans (h : AnswersAlike p s t) (g : AnswersAlike p t u) : AnswersAlike p s u :=
  ⟨g.ring.trans h.ring, g.cq.trans h.cq, fun c => (g.owner c).trans (h.owner c), g.cmd.trans h.cmd, g.fenced.trans h.fenced,
    fun e => g.wq (h.wq e), fun c => (g.tags c).trans (h.tags c)⟩

theorem answersAlike_begin (p : Nat) (s : State) : AnswersAlike p s (begin_ s) :=
  ⟨rfl, rfl, fun _ => rfl, rfl, rfl, id, fun _ => rfl⟩

theorem RingsKeep.answersAlike {l : List Comp} (h : RingsKeep l s u) (hr : .regs ∉ l) (hg : .glb ∉ l) : AnswersAlike p s u where
  ring := h.ring _ _
  cq := by rw [cmdCq, cmdCq_num (h.ring _ _)]; exact h.ring _ _
  owner c := by
    have regs : u.regs = s.regs := h.changes .regs hr
    have glb : u.glb = s.glb := h.changes .glb hg
    simp [ringOwner, prtOwner, reg, regs, glb]
  cmd := by rw [h.cmd]
  fenced := h.fenced
  wq := h.wq
  tags := h.tags

/-- A ring that is neither the command ring nor its completion queue is written. -/
theorem answersAlike_setRing {k : RingKind} {n : Nat} {r : Ring} (hc : rkey .cmd p ≠ rkey k n)
    (hq : rkey .cq (ringOf s .cmd p).w.cq ≠ rkey k n) : AnswersAlike p s (setRing k n r s) where
  ring := by rw [ringOf_setRing_other hc]
  cq := by rw [cmdCq, ringOf_setRing_other hc, ringOf_setRing_other hq]
  owner _ := rfl
  cmd := rfl
  fenced := rfl
  wq := id
  tags _ := rfl

theorem CmdReady.alike (h : CmdReady p w s) (g : AnswersAlike p s u) : CmdReady p w u where
  runs := (Ring.eq_of_sansFetch ringRuns (fun _ => rfl) g.ring).trans h.runs
  recs := (Ring.eq_of_sansFetch Ring.recs (fun _ => rfl) g.ring).trans h.recs
  cmd := by rw [g.cmd]; exact h.cmd
  cq := (Ring.eq_of_sansFetch ringRuns (fun _ => rfl) g.cq).trans h.cq
  room := (Ring.eq_of_sansFetch (fun q => used q < ringSize q) (fun _ => rfl) g.cq).mpr h.room
  queue := g.wq h.queue
  fence := by
    rw [Ring.eq_of_sansFetch (fun q => q.w.chan) (fun _ => rfl) g.cq, g.fenced]
    exact h.fence
  tag := by
    rw [g.tags, Ring.eq_of_sansFetch (fun q => hmpChan (q.w.base + 16 * q.f)) (fun _ => rfl) g.cq]
    exact h.tag

theorem Answered.alike (h : Answered p status cause result u t) (g : AnswersAlike p s u) : Answered p status cause result s t := by
  obtain ⟨hcmd, hrec⟩ := h
  refine ⟨hcmd, fun c hc => ?_⟩
  obtain ⟨tag, hm⟩ := hrec c (g.cmd.trans hc)
  have ea : (cmdCq u p).w.base + 16 * (cmdCq u p).f = (cmdCq s p).w.base + 16 * (cmdCq s p).f :=
    Ring.eq_of_sansFetch (fun q => q.w.base + 16 * q.f) (fun _ => rfl) g.cq
  have ep : (cmdCq u p).ph = (cmdCq s p).ph := Ring.eq_of_sansFetch Ring.ph (fun _ => rfl) g.cq
  rw [ea, ep, cmdCq_num g.ring, g.owner] at hm
  exact ⟨tag, hm⟩

end

/-! ## A record that can be written at once -/

section
variable {s : State} {b : WrReq}

theorem hmpChan_cases (a : Nat) : hmpChan a = 0 ∨ hmpChan a = 1 := by unfold hmpChan; omega

/-- R316, R320: a write burst with no other before it leaves at once, on the channel of its address. -/
theorem hostWrites_alone (hq : s.hrd.wq = []) (hf : s.hrd.fenced.contains b.dch = false)
    (ht : (freeTag (wrTags s (hmpChan b.addr))).isSome = true) :
    (hostWrites [b] s).hrd.ring = s.hrd.ring ∧ (hostWrites [b] s).hrd.cmd = s.hrd.cmd ∧
      ∃ tag, Out.hostWrite (hmpChan b.addr) tag b.addr b.part b.bytes ∈ (hostWrites [b] s).out := by
  have pump : hostWrites [b] s = pumpWrites 1 { s with hrd := { s.hrd with wq := [b] } } := by simp [hostWrites, hq]
  have tags (h : Nat) : wrTags { s with hrd := { s.hrd with wq := [b] } } h = wrTags s h := rfl
  rw [pump]
  rcases hmpChan_cases b.addr with e | e <;> rw [e] at ht ⊢
  · simp only [pumpWrites, grantWrite, pickMin, wrReady, tags, e, ht, hf]
    exact ⟨rfl, rfl, _, List.mem_append_right _ List.mem_cons_self⟩
  · simp only [pumpWrites, grantWrite, pickMin, wrReady, tags, e, ht, hf]
    exact ⟨rfl, rfl, _, List.mem_append_right _ List.mem_cons_self⟩

theorem changes_hostWrites (l : List WrReq) (s : State) : Changes [.hrd] s (hostWrites l s) := by
  obtain ⟨h, o, e⟩ := hostWrites_eq l s
  rw [e]
  exact changes_hrd h o s

/-- A completion queue once a reserved slot of it is written (R297, R312). -/
def Ring.written (q : Ring) : Ring := { advance q with rsv := (advance q).rsv - 1 }

/-- R312, R315: a record whose queue runs, has room and can write at once is written into the next slot. -/
theorem cqWrite_at_once {c n : Nat} {x : CRec} {k : RingKind} {q : Ring} (hq : ringOf s .cq c = q) (hrun : ringRuns q = true)
    (hroom : used q < ringSize q) (hwq : s.hrd.wq = []) (hf : s.hrd.fenced.contains q.w.chan = false)
    (ht : (freeTag (wrTags s (hmpChan (q.w.base + 16 * q.f)))).isSome = true) :
    ∃ tag u, cqWrite c x k n s = some u ∧ u.hrd.cmd = s.hrd.cmd ∧ Changes [.hrd] s u ∧
      Out.hostWrite (hmpChan (q.w.base + 16 * q.f)) tag (q.w.base + 16 * q.f) (ringOwner s .cq c) (wordBytes (recWords x q.ph)) ∈ u.out ∧
      ∀ k' n', rkey k' n' ≠ rkey .cq c → ringOf u k' n' = ringOf s k' n' := by
  have goes : cqWrite c x k n s = some (hostWrites
      [⟨q.w.chan, rkey .cq c, q.w.base + 16 * q.f, ringOwner s .cq c, wordBytes (recWords x q.ph), .record c k n⟩]
      (setRing .cq c q.written s)) := by
    simp [cqWrite, hq, hrun, Nat.not_le.mpr hroom, Ring.written]
  have hch : Changes [.hrd] s (setRing .cq c q.written s) := changes_setRing
  have other (k' n') (h : rkey k' n' ≠ rkey .cq c) : ringOf (setRing .cq c q.written s) k' n' = ringOf s k' n' :=
    ringOf_setRing_other h
  have alone := hostWrites_alone (s := setRing .cq c q.written s)
    (b := ⟨q.w.chan, rkey .cq c, q.w.base + 16 * q.f, ringOwner s .cq c, wordBytes (recWords x q.ph), .record c k n⟩) hwq hf ht
  have written := hch.trans (changes_hostWrites
    [⟨q.w.chan, rkey .cq c, q.w.base + 16 * q.f, ringOwner s .cq c, wordBytes (recWords x q.ph), .record c k n⟩] _)
  generalize hostWrites _ _ = u at goes alone written
  obtain ⟨hring, hcmd, tag, hout⟩ := alone
  refine ⟨tag, u, goes, hcmd.trans cmd_setRing, written, hout, fun k' n' h => ?_⟩
  rw [← other k' n' h, ringOf, ringOf, hring]

/-- R312: a record at the head of its ring that may go, and belongs to no frame of the buffer, is issued once its queue takes it. -/
theorem issueHead_plain {k : RingKind} {n : Nat} {y : PendRec} {rest : List PendRec} {u : State} (hr : (ringOf s k n).recs = y :: rest)
    (hg : recGoes s k n y = true) (hh : haltWaits k (ringOf s k n) rest = false) (hs : y.sq = none) (hi : y.info = none)
    (hw : cqWrite (ringOf s k n).w.cq y.r k n s = some u) :
    issueHead k n s = setRing k n { ringOf u k n with recs := rest } u := by
  simp [issueHead, hr, hg, hh, hs, hi, hw]

end

/-! ## The end of a command (R322) -/

/-- The completion record of the command of partition `p` (Table 10-8). -/
def cmdRec (p status cause result index : Nat) : CRec :=
  { CRec.mk0 2 p status cause index with
    stamp := w32 result, aux := BitVec.ofNat 16 (result / 2 ^ 32), src := BitVec.ofNat 16 (result / 2 ^ 48) }

section
variable {p status cause result : Nat} {w : Option CmdWait} {s : State}

/-- The command of partition `p` runs no more. -/
def endCmd (p : Nat) (s : State) : State := { s with hrd := { s.hrd with cmd := tDel p s.hrd.cmd } }

theorem changes_endCmd : Changes [.hrd] s (endCmd p s) := changes_hrd _ s.out s

/-- R312: a record that is ready and alone in its command ring is issued as soon as its queue takes it. -/
theorem issueNow_addRec {x : CRec} {s1 : State} (hr : (ringOf s .cmd p).recs = [])
    (hw : cqWrite (ringOf s .cmd p).w.cq x .cmd p (addRec .cmd p (readyRec x s.tim.now) s) = some s1) :
    issueNow .cmd p (addRec .cmd p (readyRec x s.tim.now) s) = setRing .cmd p { ringOf s1 .cmd p with recs := [] } s1 := by
  have ring : ringOf (addRec .cmd p (readyRec x s.tim.now) s) .cmd p = { ringOf s .cmd p with recs := [readyRec x s.tim.now] } := by
    simp [addRec, hr]
  have goes : recGoes (addRec .cmd p (readyRec x s.tim.now) s) .cmd p (readyRec x s.tim.now) = true := by
    simp [recGoes, readyRec, addRec, setRing]
  have head := issueHead_plain (s := addRec .cmd p (readyRec x s.tim.now) s) (congrArg Ring.recs ring) goes rfl rfl rfl
    (by rw [ring]; exact hw)
  simp [issueNow, issueRecs, ring, head]

/-- R322: a command that is ready to answer writes its record, and then its ring fetches the next one. -/
theorem completeCmd_ready (hp : p < 4096) (h : CmdReady p w s) :
    ∃ c tag u, tFind p s.hrd.cmd = some c ∧ completeCmd p status cause result s = tryFetch .cmd p false u ∧
      u.hrd.cmd = tDel p s.hrd.cmd ∧ Changes [.hrd] s u ∧
      Out.hostWrite (hmpChan ((cmdCq s p).w.base + 16 * (cmdCq s p).f)) tag ((cmdCq s p).w.base + 16 * (cmdCq s p).f)
        (ringOwner s .cq (ringOf s .cmd p).w.cq) (wordBytes (recWords (cmdRec p status cause result c.index) (cmdCq s p).ph)) ∈ u.out ∧
      ∀ k n, rkey k n ≠ rkey .cmd p → rkey k n ≠ rkey .cq (ringOf s .cmd p).w.cq → ringOf u k n = ringOf s k n := by
  obtain ⟨c, hc, -⟩ := h.cmd
  let v := addRec .cmd p (readyRec (cmdRec p status cause result c.index) s.tim.now) (endCmd p s)
  have other : rkey .cq (ringOf s .cmd p).w.cq ≠ rkey .cmd p := rkey_ne (W6.cq_lt _) hp (by decide)
  have hq : ringOf v .cq (ringOf s .cmd p).w.cq = cmdCq s p := ringOf_setRing_other other
  obtain ⟨tag, s1, hw, hcmd, hch, hout, hring⟩ := cqWrite_at_once (x := cmdRec p status cause result c.index) (k := .cmd) (n := p)
    hq h.cq h.room h.queue h.fence h.tag
  have done : completeCmd p status cause result s = tryFetch .cmd p false (setRing .cmd p { ringOf s1 .cmd p with recs := [] } s1) := by
    rw [← issueNow_addRec (s := endCmd p s) h.recs hw]
    simp [completeCmd, hc, h.runs, cmdRec, endCmd]
  refine ⟨c, tag, _, hc, done, hcmd, ?_, hout, fun k n hk hk' => ?_⟩
  · exact ((changes_endCmd.trans changes_setRing).trans hch).trans changes_setRing
  · rw [ringOf_setRing_other hk, hring k n hk']
    exact ringOf_setRing_other hk

theorem answered_completeCmd (hp : p < 4096) (h : CmdReady p w s) :
    Answered p status cause result s (completeCmd p status cause result s) := by
  obtain ⟨c, tag, u, hc, e, hcmd, -, hout, -⟩ := completeCmd_ready (status := status) (cause := cause) (result := result) hp h
  have keep := ringsKeep_tryFetch .cmd p false u
  rw [e]
  refine ⟨by rw [keep.cmd, hcmd]; exact tFind_tDel_same p _, fun c' hc' => ⟨tag, ?_⟩⟩
  obtain rfl : c = c' := Option.some.inj (hc.symm.trans hc')
  exact keep.out _ hout

theorem changes_completeCmd (hp : p < 4096) (h : CmdReady p w s) : Changes [.hrd, .cnt] s (completeCmd p status cause result s) := by
  obtain ⟨c, tag, u, -, e, -, hch, -, -⟩ := completeCmd_ready (status := status) (cause := cause) (result := result) hp h
  rw [e]
  exact (hch.mono (by simp)).trans (ringsKeep_tryFetch .cmd p false u).changes

/-- The end of a command leaves every ring but its own and its completion queue alone. -/
theorem sansFetch_completeCmd (hp : p < 4096) (h : CmdReady p w s) {k : RingKind} {n : Nat} (hc : rkey k n ≠ rkey .cmd p)
    (hq : rkey k n ≠ rkey .cq (ringOf s .cmd p).w.cq) :
    (ringOf (completeCmd p status cause result s) k n).sansFetch = (ringOf s k n).sansFetch := by
  obtain ⟨c, tag, u, -, e, -, -, -, hring⟩ := completeCmd_ready (status := status) (cause := cause) (result := result) hp h
  rw [e, (ringsKeep_tryFetch .cmd p false u).ring, hring k n hc hq]

end

/-! ## The rings that the commands name -/

section
variable {j n : Nat}

theorem kindOf_le_one (h : j ≤ 1) : kindOf j = .send ∨ kindOf j = .fill := by
  interval_cases j <;> simp [kindOf]

theorem kindOf_le_two (h : j ≤ 2) : kindOf j = .send ∨ kindOf j = .fill ∨ kindOf j = .cq := by
  interval_cases j <;> simp [kindOf]

theorem kindOf_ne_cmd (h : j ≤ 2) : kindOf j ≠ .cmd := by
  rcases kindOf_le_two h with e | e | e <;> simp [e]

theorem kindOf_ne_cq (h : j ≤ 1) : kindOf j ≠ .cq := by
  rcases kindOf_le_one h with e | e <;> simp [e]

theorem ring_lt {k : RingKind} (h : n < kcount k) : n < 4096 := by
  have := kcount_le (k := k)
  omega

end

/-! ## A command's start (R322) -/

section
variable {part : BitVec 6} {p status cause result : Nat} {i : Instr} {w : Option CmdWait} {s u : State}

theorem part_lt (part : BitVec 6) : part.toNat < 4096 := Nat.lt_trans part.isLt (by decide)

theorem CmdTurn.ready (h : CmdTurn part i s) : CmdReady part.toNat none s := h.1

theorem cmdGo_turn (h : CmdTurn part i s) (f : State → State) : cmdGo part i f (begin_ s) = f (begin_ s) := by
  obtain ⟨hr, c, hc, hi⟩ := h
  obtain ⟨c', hc', hw⟩ := hr.cmd
  obtain rfl : c = c' := Option.some.inj (hc.symm.trans hc')
  have turn : cmdTurn (begin_ s) part i = true := by simp [cmdTurn, begin_, hc, hw, hi]
  exact if_pos turn

/-- What the end of a command gives once the rest of its effect has left its answer as it was. -/
theorem answered_of_alike (hr : CmdReady part.toNat w s) (ha : AnswersAlike part.toNat s u) :
    Answered part.toNat status cause result s (completeCmd part.toNat status cause result u) :=
  (answered_completeCmd (part_lt part) (hr.alike ha)).alike ha

/-- A ring other than the command's own and its completion queue is, when the command has ended, as its effect has left it. -/
theorem sansFetch_of_alike (hr : CmdReady part.toNat w s) (ha : AnswersAlike part.toNat s u) {k : RingKind} {n : Nat}
    (hc : rkey k n ≠ rkey .cmd part.toNat) (hq : rkey k n ≠ rkey .cq (ringOf s .cmd part.toNat).w.cq) :
    (ringOf (completeCmd part.toNat status cause result u) k n).sansFetch = (ringOf u k n).sansFetch :=
  sansFetch_completeCmd (part_lt part) (hr.alike ha) hc (by rw [cmdCq_num ha.ring]; exact hq)

end

/-! ## RING_SET (R295, R332) -/

section
variable {k : RingKind} {n p : Nat} {w : W6} {s : State}

/-- The ring that RING_SET starts: index 0, phase 1, idle (R332). -/
def startedRing (k : RingKind) (n : Nat) (w : W6) (s : State) : Ring :=
  { Ring.empty with
    w := w, wn := w, st := .idle, ph := true, rsv := if k == .cq then (ringOf s k n).rsv else 0
    maxl := if s.tim.started && (ringOf s k n).maxl != 0 then (ringOf s k n).maxl else w.maxlen }

/-- The ring's old lap is abandoned (R332): its reads and writes, and but for a completion queue its doorbells and reserved slots. -/
def lapEnded (k : RingKind) (n : Nat) (s : State) : State :=
  let s1 := orphanWrites k n (orphanReads (readOf k n) s)
  if k == .cq then s1 else cqReserve (ringOf s k n).w.cq (-(ringSlots s k n (ringOf s k n) : Int)) (dropBells k n s1)

theorem ringsKeep_lapEnded : RingsKeep [.hrd] s (lapEnded k n s) := by
  have lap : RingsKeep [.hrd] s (orphanWrites k n (orphanReads (readOf k n) s)) :=
    (ringsKeep_orphanReads _ _).trans (ringsKeep_orphanWrites _ _ _)
  unfold lapEnded
  extract_lets s1
  split
  · exact lap
  · exact (lap.trans (ringsKeep_dropBells _ _ _)).trans (ringsKeep_cqReserve _ _ _)

/-- R332: once its old lap is abandoned a ring is started; what a send ring has staged or sent is detached from it after. -/
theorem ringsKeep_startRing (hk : k = .send ∨ k = .fill ∨ k = .cq) (hw : w.en = true) :
    RingsKeep [.hrd, .qbm, .skm] (setRing k n (startedRing k n w s) (lapEnded k n s)) (startRing k n w s) := by
  rcases hk with rfl | rfl | rfl
  · have e : startRing .send n w s = detachSends n (dropStaged n (setRing .send n (startedRing .send n w s) (lapEnded .send n s))) := by
      simp [startRing, startedRing, lapEnded, hw]
    rw [e]
    exact ringsKeep_detachSends _ _
  · have e : startRing .fill n w s = setRing .fill n (startedRing .fill n w s) (lapEnded .fill n s) := by
      simp [startRing, startedRing, lapEnded, hw]
    rw [e]
    exact .refl _ _
  · have e : startRing .cq n w s = setRing .cq n (startedRing .cq n w s) (lapEnded .cq n s) := by
      simp [startRing, startedRing, lapEnded, hw]
    rw [e]
    exact .refl _ _

theorem changes_startRing (hk : k = .send ∨ k = .fill ∨ k = .cq) (hw : w.en = true) :
    Changes [.hrd, .qbm, .skm] s (startRing k n w s) :=
  have lap : Changes [.hrd] s (setRing k n (startedRing k n w s) (lapEnded k n s)) := ringsKeep_lapEnded.changes.trans changes_setRing
  (lap.mono (by simp)).trans (ringsKeep_startRing hk hw).changes

theorem sansFetch_startRing (hk : k = .send ∨ k = .fill ∨ k = .cq) (hw : w.en = true) :
    (ringOf (startRing k n w s) k n).sansFetch = (startedRing k n w s).sansFetch := by
  rw [(ringsKeep_startRing hk hw).ring, ringOf_setRing_same]

/-- A ring that is neither the command ring nor its completion queue is started. -/
theorem answersAlike_startRing (hk : k = .send ∨ k = .fill ∨ k = .cq) (hw : w.en = true) (hc : rkey k n ≠ rkey .cmd p)
    (hq : rkey k n ≠ rkey .cq (ringOf s .cmd p).w.cq) : AnswersAlike p s (startRing k n w s) := by
  have lap : AnswersAlike p s (lapEnded k n s) := ringsKeep_lapEnded.answersAlike (by simp) (by simp)
  have set : AnswersAlike p (lapEnded k n s) (setRing k n (startedRing k n w s) (lapEnded k n s)) :=
    answersAlike_setRing hc.symm (by rw [cmdCq_num lap.ring]; exact hq.symm)
  exact (lap.trans set).trans ((ringsKeep_startRing hk hw).answersAlike (by simp) (by simp))

/-- Cause 7 of R295: RING_SET is refused for a ring that runs. -/
theorem ringCause_running (h : ringRuns (ringOf s k n) = true) : ringCause s k n w true ≠ 0 := by
  have seven : (true && ringEn (ringOf s k n) && (ringOf s k n).st != .quiesced && (ringOf s k n).st != .halted) = true := by
    rcases (by simpa [ringRuns] using h : (ringOf s k n).st = .running ∨ (ringOf s k n).st = .idle) with e | e <;>
      simp [ringEn, e]
  unfold ringCause
  extract_lets reads own r
  rw [if_pos seven]
  split_ifs <;> decide

end

section
variable {part : BitVec 6} {kind : BitVec 2} {ring : BitVec 11} {ctx : W6} {s : State}

theorem ringSet_of_owned (hk : kind.toNat ≤ 2) (hn : ring.toNat < kcount (kindOf kind.toNat))
    (ho : ownsRing s part.toNat (kindOf kind.toNat) ring.toNat = true) :
    ringSet part.toNat kind.toNat ring.toNat ctx s =
      if ringCause s (kindOf kind.toNat) ring.toNat (cleanW6 ctx) true = 0
      then completeCmd part.toNat 0 0 0 (startRing (kindOf kind.toNat) ring.toNat (cleanW6 ctx) s)
      else completeCmd part.toNat 41 (ringCause s (kindOf kind.toNat) ring.toNat (cleanW6 ctx) true) 0 s := by
  have out : ¬ (2 < kind.toNat ∨ kcount (kindOf kind.toNat) ≤ ring.toNat) := by omega
  simp [ringSet, out, ownedCmd, ho]

theorem runs_ringSet (h : CmdTurn part (.ringSet part kind ring ctx) s) :
    Runs (.ringSet part kind ring ctx) s (ringSet part.toNat kind.toNat ring.toNat ctx (begin_ s)) :=
  congrArg Host.Outcome.next (cmdGo_turn h _)

theorem runs_ringSet_accepted (hk : kind.toNat ≤ 2) (hn : ring.toNat < kcount (kindOf kind.toNat))
    (h : CmdTurn part (.ringSet part kind ring ctx) s) (ho : ownsRing s part.toNat (kindOf kind.toNat) ring.toNat = true)
    (hcause : ringCause s (kindOf kind.toNat) ring.toNat (cleanW6 ctx) true = 0) (hen : (cleanW6 ctx).en = true) :
    ∃ t, Runs (.ringSet part kind ring ctx) s t ∧ Answered part.toNat 0 0 0 s t ∧
      (ringOf t (kindOf kind.toNat) ring.toNat).sansFetch =
        (startedRing (kindOf kind.toNat) ring.toNat (cleanW6 ctx) s).sansFetch ∧
      Changes [.hrd, .qbm, .skm, .cnt] s t := by
  have hr := h.ready
  have hn' := ring_lt hn
  have hc : rkey (kindOf kind.toNat) ring.toNat ≠ rkey .cmd part.toNat := rkey_ne hn' (part_lt part) (kindOf_ne_cmd hk)
  have hq : rkey (kindOf kind.toNat) ring.toNat ≠ rkey .cq (ringOf s .cmd part.toNat).w.cq := fun e => by
    obtain ⟨ek, en⟩ := rkey_inj hn' (W6.cq_lt _) e
    exact ringCause_running (by rw [ek, en]; exact hr.cq) hcause
  have hk' := kindOf_le_two hk
  have alike := (answersAlike_begin part.toNat s).trans (answersAlike_startRing (n := ring.toNat) (s := begin_ s) hk' hen hc hq)
  have done : ringSet part.toNat kind.toNat ring.toNat ctx (begin_ s) =
      completeCmd part.toNat 0 0 0 (startRing (kindOf kind.toNat) ring.toNat (cleanW6 ctx) (begin_ s)) :=
    (ringSet_of_owned (s := begin_ s) hk hn ho).trans (if_pos hcause)
  refine ⟨_, done ▸ runs_ringSet h, answered_of_alike hr alike, ?_, ?_⟩
  · rw [sansFetch_of_alike hr alike hc hq, sansFetch_startRing hk' hen]
    rfl
  · refine Changes.of_begin (((changes_startRing (n := ring.toNat) hk' hen).mono (by simp)).trans ?_)
    exact (changes_completeCmd (part_lt part) (hr.alike alike)).mono (by simp)

theorem runs_ringSet_refused (hk : kind.toNat ≤ 2) (hn : ring.toNat < kcount (kindOf kind.toNat))
    (h : CmdTurn part (.ringSet part kind ring ctx) s) (ho : ownsRing s part.toNat (kindOf kind.toNat) ring.toNat = true)
    {c : Nat} (hcause : ringCause s (kindOf kind.toNat) ring.toNat (cleanW6 ctx) true = c) (hc : c ≠ 0) :
    ∃ t, Runs (.ringSet part kind ring ctx) s t ∧ Answered part.toNat 41 c 0 s t ∧ Changes [.hrd, .cnt] s t := by
  have hr := h.ready
  have alike := answersAlike_begin part.toNat s
  have done : ringSet part.toNat kind.toNat ring.toNat ctx (begin_ s) = completeCmd part.toNat 41 c 0 (begin_ s) := by
    subst hcause
    exact (ringSet_of_owned (s := begin_ s) hk hn ho).trans (if_neg hc)
  exact ⟨_, done ▸ runs_ringSet h, answered_of_alike hr alike, (changes_completeCmd (part_lt part) (hr.alike alike)).of_begin⟩

end

/-! ## RING_QUIESCE and its end (R328) -/

section
variable {k : RingKind} {n p due : Nat} {r : Ring} {w : CmdWait} {c : CmdRun} {s : State}

/-- The ring with the unused descriptors of a fill ring flushed with status 16 (R328), and its quiesce running for `p`. -/
def quiescingRing (k : RingKind) (n p due : Nat) (r : Ring) : Ring :=
  { if k == .fill then
      fillPace { r with desc := [], recs := r.recs ++ r.desc.map fun d => readyRec (CRec.mk0 1 n 16 0 d.index) due }
    else r with quiescing := some p }

/-- R319: the level against the marks says only whether fetching stops. -/
@[simp] theorem fillPace_desc : (fillPace r).desc = r.desc := by unfold fillPace; split_ifs <;> rfl

@[simp] theorem fillPace_recs : (fillPace r).recs = r.recs := by unfold fillPace; split_ifs <;> rfl

theorem quiescingRing_fill : (quiescingRing .fill n p due r).desc = [] ∧
    (quiescingRing .fill n p due r).recs.map (fun x => (x.r.index, x.r.status)) =
      r.recs.map (fun x => (x.r.index, x.r.status)) ++ r.desc.map (fun d => (d.index, 16)) := by
  simp [quiescingRing, readyRec, CRec.mk0]

/-- R322: the running command of `p` waits. -/
theorem setWait_running (hc : tFind p s.hrd.cmd = some c) : Waits p w (setWait p w s) ∧ (∀ k n, ringOf (setWait p w s) k n = ringOf s k n) ∧
    (setWait p w s).out = s.out ∧ Changes [.hrd] s (setWait p w s) := by
  have e : setWait p w s =
      { s with hrd := { s.hrd with cmd := tPut p { c with wait := some w, got := [], recs := [] } s.hrd.cmd } } := by simp [setWait, hc]
  rw [e]
  exact ⟨⟨_, tFind_tPut_same _ _ _, rfl⟩, fun _ _ => rfl, rfl, changes_hrd _ s.out s⟩

end

section
variable {part : BitVec 6} {kind : BitVec 2} {ring : BitVec 11} {s : State}

theorem ringQuiesce_of_running (hk : kind.toNat ≤ 1) (hn : ring.toNat < kcount (kindOf kind.toNat))
    (ho : ownsRing s part.toNat (kindOf kind.toNat) ring.toNat = true) (hr : ringRuns (ringOf s (kindOf kind.toNat) ring.toNat) = true) :
    ∃ v, ringQuiesce part.toNat kind.toNat ring.toNat s = setWait part.toNat (.quiesce (kindOf kind.toNat) ring.toNat) v ∧
      ringOf v (kindOf kind.toNat) ring.toNat =
        quiescingRing (kindOf kind.toNat) ring.toNat part.toNat (s.tim.now + 32) (ringOf s (kindOf kind.toNat) ring.toNat) ∧
      v.hrd.cmd = s.hrd.cmd ∧ v.out = s.out ∧ Changes [.hrd] s v := by
  have out : ¬ (1 < kind.toNat ∨ kcount (kindOf kind.toNat) ≤ ring.toNat) := by omega
  rcases kindOf_le_one hk with e | e <;> rw [e] at ho hr out ⊢
  · refine ⟨setRing .send ring.toNat { ringOf s .send ring.toNat with quiescing := some part.toNat } s, ?_, ringOf_setRing_same, rfl, rfl,
      changes_setRing⟩
    simp [ringQuiesce, e, out, ownedCmd, ho, hr]
  · refine ⟨atCycle (s.tim.now + 32) (.record .fill ring.toNat) (setRing .fill ring.toNat
      (quiescingRing .fill ring.toNat part.toNat (s.tim.now + 32) (ringOf s .fill ring.toNat)) s), ?_, ringOf_setRing_same, rfl, rfl,
      changes_hrd _ s.out s⟩
    simp [ringQuiesce, e, out, ownedCmd, ho, hr, quiescingRing]

theorem runs_ringQuiesce (hk : kind.toNat ≤ 1) (hn : ring.toNat < kcount (kindOf kind.toNat))
    (ho : ownsRing s part.toNat (kindOf kind.toNat) ring.toNat = true) (h : CmdTurn part (.ringQuiesce part kind ring) s)
    (hr : ringRuns (ringOf s (kindOf kind.toNat) ring.toNat) = true) :
    ∃ t, Runs (.ringQuiesce part kind ring) s t ∧ Waits part.toNat (.quiesce (kindOf kind.toNat) ring.toNat) t ∧
      ringOf t (kindOf kind.toNat) ring.toNat =
        quiescingRing (kindOf kind.toNat) ring.toNat part.toNat (s.tim.now + 32) (ringOf s (kindOf kind.toNat) ring.toNat) ∧
      t.out = [] ∧ Changes [.hrd] s t := by
  obtain ⟨c, hc, -⟩ := h.ready.cmd
  have run : Runs (.ringQuiesce part kind ring) s (ringQuiesce part.toNat kind.toNat ring.toNat (begin_ s)) :=
    congrArg Host.Outcome.next (cmdGo_turn h _)
  obtain ⟨v, e, hring, hcmd, hv, hch⟩ := ringQuiesce_of_running (s := begin_ s) hk hn ho hr
  have hcv : tFind part.toNat v.hrd.cmd = some c := by rw [hcmd]; exact hc
  obtain ⟨waits, same, hout, hset⟩ := setWait_running (w := .quiesce (kindOf kind.toNat) ring.toNat) hcv
  exact ⟨_, e ▸ run, waits, (same _ _).trans hring, hout.trans hv, (hch.trans hset).of_begin⟩

end

section
variable {part : BitVec 6} {k : RingKind} {ring : BitVec 11} {s : State}

/-- R328: nothing is left of the ring that a command quiesces: it is Quiesced, and the command answers the next F and PH. -/
theorem runs_ringQuiesceDone (hk : k = .send ∨ k = .fill) (hn : ring.toNat < kcount k)
    (hr : CmdReady part.toNat (some (.quiesce k ring.toNat)) s) (hq : (ringOf s k ring.toNat).quiescing = some part.toNat)
    (hrd : (ringOf s k ring.toNat).rdN = 0) (hdesc : (ringOf s k ring.toNat).desc = []) (hjobs : (ringOf s k ring.toNat).jobs = [])
    (hrecs : (ringOf s k ring.toNat).recs = []) :
    ∃ t, Runs (.ringQuiesceDone k ring) s t ∧ (ringOf t k ring.toNat).st = .quiesced ∧
      Answered part.toNat 0 0 (quiesceResult (ringOf s k ring.toNat)) s t ∧ Changes [.hrd, .cnt] s t := by
  have hc : rkey k ring.toNat ≠ rkey .cmd part.toNat :=
    rkey_ne (ring_lt hn) (part_lt part) (by rcases hk with e | e <;> simp [e])
  have hcq : rkey k ring.toNat ≠ rkey .cq (ringOf s .cmd part.toNat).w.cq :=
    rkey_ne (ring_lt hn) (W6.cq_lt _) (by rcases hk with e | e <;> simp [e])
  have done : ringQuiesceDone k ring.toNat (begin_ s) = completeCmd part.toNat 0 0 (quiesceResult (ringOf s k ring.toNat))
      (setRing k ring.toNat { ringOf s k ring.toNat with quiescing := none, st := .quiesced } (begin_ s)) := by
    have ring_begin : ringOf (begin_ s) k ring.toNat = ringOf s k ring.toNat := rfl
    simp [ringQuiesceDone, ring_begin, hq, hrd, hdesc, hjobs, hrecs]
  have alike := (answersAlike_begin part.toNat s).trans (answersAlike_setRing (s := begin_ s)
    (r := { ringOf s k ring.toNat with quiescing := none, st := .quiesced }) hc.symm hcq.symm)
  refine ⟨_, congrArg Host.Outcome.next done, ?_, answered_of_alike hr alike, ?_⟩
  · rw [Ring.eq_of_sansFetch Ring.st (fun _ => rfl) (sansFetch_of_alike hr alike hc hcq), ringOf_setRing_same]
  · refine Changes.of_begin (Changes.trans ?_ (changes_completeCmd (part_lt part) (hr.alike alike)))
    exact changes_setRing.mono (by simp)

end

/-! ## RING_RESUME (R329) -/

section
variable {k : RingKind} {n p : Nat} {s : State}

/-- A quiesced ring that runs again and reads on (R300, R329). -/
def resumed (k : RingKind) (n : Nat) (s : State) : State := tryFetch k n false (setRing k n { ringOf s k n with st := .running } s)

theorem sansFetch_resumed : (ringOf (resumed k n s) k n).sansFetch = Ring.sansFetch { ringOf s k n with st := .running } := by
  rw [resumed, (ringsKeep_tryFetch k n false _).ring, ringOf_setRing_same]

theorem changes_resumed : Changes [.hrd, .cnt] s (resumed k n s) :=
  (changes_setRing.mono (by simp)).trans (ringsKeep_tryFetch k n false _).changes

/-- A ring that is neither the command ring nor its completion queue is resumed. -/
theorem answersAlike_resumed (hc : rkey k n ≠ rkey .cmd p) (hq : rkey k n ≠ rkey .cq (ringOf s .cmd p).w.cq) :
    AnswersAlike p s (resumed k n s) :=
  (answersAlike_setRing hc.symm hq.symm).trans ((ringsKeep_tryFetch k n false _).answersAlike (by simp) (by simp))

end

section
variable {part : BitVec 6} {kind : BitVec 2} {ring : BitVec 11} {s : State}

theorem runs_ringResume (hk : kind.toNat ≤ 1) (hn : ring.toNat < kcount (kindOf kind.toNat))
    (ho : ownsRing s part.toNat (kindOf kind.toNat) ring.toNat = true) (h : CmdTurn part (.ringResume part kind ring) s)
    (hst : (ringOf s (kindOf kind.toNat) ring.toNat).st = .quiesced) :
    ∃ t, Runs (.ringResume part kind ring) s t ∧ Answered part.toNat 0 0 0 s t ∧
      (ringOf t (kindOf kind.toNat) ring.toNat).sansFetch =
        Ring.sansFetch { ringOf s (kindOf kind.toNat) ring.toNat with st := .running } ∧ Changes [.hrd, .cnt] s t := by
  have hr := h.ready
  have hc : rkey (kindOf kind.toNat) ring.toNat ≠ rkey .cmd part.toNat :=
    rkey_ne (ring_lt hn) (part_lt part) (kindOf_ne_cmd (by omega))
  have hq : rkey (kindOf kind.toNat) ring.toNat ≠ rkey .cq (ringOf s .cmd part.toNat).w.cq :=
    rkey_ne (ring_lt hn) (W6.cq_lt _) (kindOf_ne_cq hk)
  have out : ¬ (1 < kind.toNat ∨ kcount (kindOf kind.toNat) ≤ ring.toNat) := by omega
  have done : ringResume part.toNat kind.toNat ring.toNat (begin_ s) =
      completeCmd part.toNat 0 0 0 (resumed (kindOf kind.toNat) ring.toNat (begin_ s)) := by
    have ring_begin : ringOf (begin_ s) (kindOf kind.toNat) ring.toNat = ringOf s (kindOf kind.toNat) ring.toNat := rfl
    have owns : ownsRing (begin_ s) part.toNat (kindOf kind.toNat) ring.toNat = true := ho
    simp [ringResume, resumed, out, ownedCmd, owns, ring_begin, hst]
  have run : Runs (.ringResume part kind ring) s (ringResume part.toNat kind.toNat ring.toNat (begin_ s)) :=
    congrArg Host.Outcome.next (cmdGo_turn h _)
  have alike := (answersAlike_begin part.toNat s).trans
    (answersAlike_resumed (k := kindOf kind.toNat) (n := ring.toNat) (s := begin_ s) hc hq)
  refine ⟨_, done ▸ run, answered_of_alike hr alike, ?_, ?_⟩
  · rw [sansFetch_of_alike hr alike hc hq, sansFetch_resumed]
    rfl
  · exact (changes_resumed.trans (changes_completeCmd (part_lt part) (hr.alike alike))).of_begin

end

/-! ## The statement -/

/-- Settles O40: the four commands above, each answered as Table 10-9 and Table 10-12 give it. -/
theorem ringCommands : Obligations.RingCommands := by
  unfold Obligations.RingCommands
  intro s part kind ring
  refine ⟨fun ctx hk hn h ho => ⟨fun hcause hen => ?_, fun c => runs_ringSet_refused hk hn h ho⟩, fun hk hn ho =>
    ⟨fun h hr => ?_, fun hr hq hrd hdesc hjobs hrecs => ?_, fun h hst => ?_⟩⟩
  · obtain ⟨t, run, ans, hring, hch⟩ := runs_ringSet_accepted hk hn h ho hcause hen
    exact ⟨t, run, ans, Ring.eq_of_sansFetch Ring.st (fun _ => rfl) hring, Ring.eq_of_sansFetch Ring.w (fun _ => rfl) hring,
      Ring.eq_of_sansFetch Ring.f (fun _ => rfl) hring, Ring.eq_of_sansFetch Ring.ph (fun _ => rfl) hring,
      hch .regs (by simp), hch .tre (by simp), hch .cpe (by simp)⟩
  · obtain ⟨t, run, hw, hring, hout, hch⟩ := runs_ringQuiesce hk hn ho h hr
    refine ⟨t, run, by rw [hring]; rfl, hw, fun hf => ?_, hout, hch⟩
    subst hf
    rw [show ringOf t .fill ring.toNat = _ from hring]
    exact quiescingRing_fill
  · obtain ⟨t, run, hst, ans, hch⟩ := runs_ringQuiesceDone (kindOf_le_one hk) hn hr hq hrd hdesc hjobs hrecs
    have result (r : Ring) : quiesceResult r = r.f + 65536 * b2n r.ph := congrArg (r.f + ·) (Nat.mul_comm _ _)
    exact ⟨t, run, hst, result _ ▸ ans, hch⟩
  · obtain ⟨t, run, ans, hring, hch⟩ := runs_ringResume hk hn ho h hst
    exact ⟨t, run, Ring.eq_of_sansFetch ringRuns (fun _ => rfl) hring, (Ring.eq_of_sansFetch Ring.f (fun _ => rfl) hring :),
      (Ring.eq_of_sansFetch Ring.ph (fun _ => rfl) hring :), ans, hch⟩

end Sys2Proof.Machine
end

section
/-!
SUPPORT. What reaches a power domain from outside: a notice can raise the wake event of the host port (R325, R445), and so can whatever
writes one; no more of any domain, and nothing of the record of the last wake, changes with it (`PowerKeeps`).
-/

namespace Sys2Proof.Machine

/-! ## A domain but for the wake event that it holds -/

/-- A domain without the wake event raised for it. -/
def PDom.sansWake (p : PDom) : PDom := { p with wake := 0, wakeAt := 0 }

/-- A domain that differs from another in its wake event alone. -/
theorem PDom.exists_wake {p q : PDom} (h : p.sansWake = q.sansWake) : ∃ w c, p = { q with wake := w, wakeAt := c } :=
  ⟨p.wake, p.wakeAt, congrArg (fun r : PDom => { r with wake := p.wake, wakeAt := p.wakeAt }) h⟩

section
variable {d e : Nat} {v : PDom} {s t : State}

@[simp] theorem pdom_setPdom_same : pdom (setPdom d v s) d = v := tGet_tSet_same _ _ _ _

theorem pdom_setPdom_other (h : e ≠ d) : pdom (setPdom d v s) e = pdom s e := tGet_tSet_other h _ _ _ _

theorem pdom_of_pwr (h : t.pwr = s.pwr) : pdom t e = pdom s e := by rw [pdom, h, pdom]

theorem sansWake_setPdom (h : v.sansWake = (pdom s d).sansWake) : (pdom (setPdom d v s) e).sansWake = (pdom s e).sansWake := by
  by_cases he : e = d
  · subst he
    rw [pdom_setPdom_same, h]
  · rw [pdom_setPdom_other he]

end

/-! ## Which components change -/

section
variable {s : State}

theorem changes_pwr (p : Pwr) (s : State) : Changes [.pwr] s { s with pwr := p } := fun c hc => by
  cases c <;> simp [Kept] at hc ⊢

theorem changes_qbm (q : Qbm) (s : State) : Changes [.qbm] s { s with qbm := q } := fun c hc => by
  cases c <;> simp [Kept] at hc ⊢

theorem changes_upl (u : Tab Upl) (s : State) : Changes [.upl] s { s with upl := u } := fun c hc => by
  cases c <;> simp [Kept] at hc ⊢

theorem changes_tre (r : Tab Tre) (s : State) : Changes [.tre] s { s with tre := r } := fun c hc => by
  cases c <;> simp [Kept] at hc ⊢

theorem changes_chn (r : Tab Chn) (s : State) : Changes [.chn] s { s with chn := r } := fun c hc => by
  cases c <;> simp [Kept] at hc ⊢

theorem changes_cpe (r : Cpe) (s : State) : Changes [.cpe] s { s with cpe := r } := fun c hc => by
  cases c <;> simp [Kept] at hc ⊢

theorem changes_skm (k : Skm) (s : State) : Changes [.skm] s { s with skm := k } := fun c hc => by
  cases c <;> simp [Kept] at hc ⊢

theorem changes_glb (g : Glb) (s : State) : Changes [.glb] s { s with glb := g } := fun c hc => by
  cases c <;> simp [Kept] at hc ⊢

theorem changes_flt (f : Tab FaultSet) (s : State) : Changes [.flt] s { s with flt := f } := fun c hc => by
  cases c <;> simp [Kept] at hc ⊢

theorem changes_tst (x : Tst) (s : State) : Changes [.tst] s { s with tst := x } := fun c hc => by
  cases c <;> simp [Kept] at hc ⊢

theorem changes_setPdom (d : Nat) (v : PDom) (s : State) : Changes [.pwr] s (setPdom d v s) := changes_pwr _ s

theorem changes_countO (i evt obj amt : Nat) (s : State) : Changes [.cnt] s (countO i evt obj amt s) := fun c hc => by
  cases c <;> simp [Kept] at hc ⊢

theorem changes_count1 (i evt : Nat) (s : State) : Changes [.cnt] s (count1 i evt s) := fun c hc => by
  cases c <;> simp [Kept] at hc ⊢

theorem changes_notice (p : Nat) (n : Notice) (s : State) : Changes noted s (notice p n s) := fun c hc => by
  cases c <;> simp [Kept] at hc ⊢

end

/-! ## Operations that change no more of the power controller than wake events -/

/-- From `s` to `t` nothing changes but the components of `l`, and of the power controller nothing but the wake events that domains hold:
the record of the last wake stands. -/
structure PowerKeeps (l : List Comp) (s t : State) : Prop where
  changes : Changes l s t
  dom : ∀ e, (pdom t e).sansWake = (pdom s e).sansWake
  lwDom : t.pwr.lwDom = s.pwr.lwDom
  lwSrc : t.pwr.lwSrc = s.pwr.lwSrc
  lwOut : t.pwr.lwOut = s.pwr.lwOut

section
variable {l l' : List Comp} {s t u : State}

theorem PowerKeeps.trans (h : PowerKeeps l s t) (g : PowerKeeps l t u) : PowerKeeps l s u :=
  ⟨h.changes.trans g.changes, fun e => (g.dom e).trans (h.dom e), g.lwDom.trans h.lwDom, g.lwSrc.trans h.lwSrc, g.lwOut.trans h.lwOut⟩

theorem PowerKeeps.mono (h : PowerKeeps l s t) (hl : l ⊆ l' := by decide) : PowerKeeps l' s t := { h with changes := h.changes.mono hl }

/-- What leaves the power controller alone. -/
theorem PowerKeeps.of_changes (h : Changes l s t) (hp : .pwr ∉ l := by decide) (hl : l ⊆ l' := by decide) : PowerKeeps l' s t :=
  have e : t.pwr = s.pwr := h .pwr hp
  ⟨h.mono hl, fun _ => congrArg _ (pdom_of_pwr e), by rw [e], by rw [e], by rw [e]⟩

theorem PowerKeeps.refl (l : List Comp) (s : State) : PowerKeeps l s s := ⟨changes_refl l s, fun _ => rfl, rfl, rfl, rfl⟩

theorem PowerKeeps.foldl {α : Type} {g : State → α → State} (h : ∀ s x, PowerKeeps l s (g s x)) (L : List α) (s : State) :
    PowerKeeps l s (L.foldl g s) := by
  induction L generalizing s with
  | nil => exact .refl _ _
  | cons x L ih => exact (h s x).trans (ih _)

theorem powerKeeps_setPdom {d : Nat} {v : PDom} (h : v.sansWake = (pdom s d).sansWake) : PowerKeeps [.pwr] s (setPdom d v s) :=
  ⟨changes_setPdom d v s, fun _ => sansWake_setPdom h, rfl, rfl, rfl⟩

/-- R445: a wake event does nothing, or is noted for a request of its own cycle, or is held by its domain. -/
theorem wake_cases (d src : Nat) (s : State) : wake d src s = s ∨ wake d src s = wakeIdle d src s ∨
    wake d src s = setPdom d { pdom s d with wake := src, wakeAt := s.tim.now } s := by
  unfold wake
  extract_lets p enabled
  split_ifs
  · exact .inl rfl
  · exact .inr (.inl rfl)
  · exact .inl rfl
  · exact .inr (.inr rfl)
  · exact .inl rfl

theorem powerKeeps_wake (d src : Nat) (s : State) : PowerKeeps [.pwr] s (wake d src s) := by
  rcases wake_cases d src s with e | e | e <;> rw [e]
  · exact .refl _ _
  · exact ⟨changes_pwr _ s, fun _ => rfl, rfl, rfl, rfl⟩
  · exact powerKeeps_setPdom rfl

/-- What a notice does to the power controller is the wake event for the host port (R325). -/
theorem notice_pwr (p : Nat) (n : Notice) (s : State) : (notice p n s).pwr = (wake domHP 1 s).pwr := by
  unfold notice
  extract_lets r s0 s1 pend
  have h : s1.pwr = s0.pwr := by
    show (if _ then _ else _ : State).pwr = _
    split
    · exact ntcDrain_pwr _ _ _
    · rfl
  clear_value s1
  split
  · exact (ntcLose_pwr _ _).trans h
  · split
    · exact (ntcWrite_pwr _ _ _).trans h
    · split
      · exact h
      · split
        · exact h
        · exact (ntcLose_pwr _ _).trans h

theorem powerKeeps_notice (p : Nat) (n : Notice) (s : State) : PowerKeeps noted s (notice p n s) :=
  have h := powerKeeps_wake domHP 1 s
  have e := notice_pwr p n s
  ⟨changes_notice p n s, fun k => (congrArg _ (pdom_of_pwr e)).trans (h.dom k), (congrArg _ e).trans h.lwDom,
    (congrArg _ e).trans h.lwSrc, (congrArg _ e).trans h.lwOut⟩

theorem powerKeeps_fault (i b : Nat) (cap0 : Word) (acc mkind mnum part : Nat) (s : State) :
    PowerKeeps (.flt :: noted) s (fault i b cap0 acc mkind mnum part s) := by
  have met (f : FaultSet) : PowerKeeps (.flt :: noted) s (setFlt i f s) := .of_changes (changes_flt _ s)
  have told (c : Nat) (x : Turn) (u : State) : PowerKeeps (.flt :: noted) u (atCycle c x u) :=
    .of_changes (changes_hrd _ u.out u)
  unfold fault raise
  extract_lets f s1
  split
  · exact met _
  · exact ((met _).trans (powerKeeps_notice _ _ _).mono).trans (told _ _ _)

end

/-! ## Loops of a domain that leaves ON (R515) -/

theorem powerKeeps_loopAbort (p : Loop → Bool) (s : State) :
    PowerKeeps (.regs :: .tst :: .flt :: noted) s (loopAbort p s) :=
  .foldl (fun u e => by
    have loop : PowerKeeps [.tst] u { u with tst := { u.tst with loop := tDel e.1 u.tst.loop } } := .of_changes (changes_tst _ u)
    have reg (a : Nat) (v : Word) (w : State) : PowerKeeps [.regs] w (setReg a v w) := .of_changes (changes_regs _ w)
    exact (loop.mono.trans (reg _ _ _).mono).trans (powerKeeps_fault _ _ _ _ _ _ _ _).mono) _ s

theorem changes_laneStop (i : Nat) (s : State) : Changes [.cnt] s (laneStop i s) :=
  (changes_cnt _ s).trans (changes_cnt _ _)

theorem changes_laneStart (i : Nat) (s : State) : Changes [.cnt] s (laneStart i s) :=
  (changes_cnt _ s).trans (changes_cnt _ _)

/-- R473, R515: the lanes of a slice stop, and its loops end. -/
theorem powerKeeps_domLeaves (d : Nat) (s : State) : PowerKeeps (.regs :: .tst :: .flt :: noted) s (domLeaves d s) := by
  unfold domLeaves
  extract_lets s1
  refine PowerKeeps.trans ?_ (powerKeeps_loopAbort _ _)
  show PowerKeeps _ s (if _ then _ else _)
  split
  · exact .of_changes (changes_laneStop _ s)
  · exact .refl _ _

/-! ## A frame's references (R32) -/

/-- What a released reference can change: a freed frame leaves the buffer, its port's stamps and its send ring, completes in QBM, and its
marked cells can retire a group, with a fault (R264, R266, R353, R474). -/
abbrev releasing : List Comp := [.glb, .flt, .qbm, .upl, .hrd, .pwr, .cnt, .fresh]

section
variable {s : State}

theorem powerKeeps_qbm (q : Qbm) (s : State) : PowerKeeps releasing s { s with qbm := q } :=
  .of_changes (changes_qbm q s)

theorem powerKeeps_autoRetire (g : Nat) (s : State) : PowerKeeps releasing s (autoRetire g s) := by
  have fenced : PowerKeeps releasing s (fenceGroup g s) :=
    (powerKeeps_qbm _ s).trans (.of_changes (changes_glb _ _))
  unfold autoRetire
  extract_lets v ueTh qTh
  split_ifs
  · exact .refl _ _
  · exact powerKeeps_qbm _ s
  · exact fenced.trans (powerKeeps_fault _ _ _ _ _ _ _ _).mono
  · exact (powerKeeps_qbm _ s).trans (powerKeeps_fault _ _ _ _ _ _ _ _).mono

theorem powerKeeps_freeCell (c : Nat) (s : State) : PowerKeeps releasing s (freeCell c s) := by
  unfold freeCell
  extract_lets u g v
  split_ifs
  · exact ((powerKeeps_qbm _ s).trans (powerKeeps_qbm _ _)).trans (powerKeeps_autoRetire _ _)
  · exact powerKeeps_qbm _ s
  · exact (powerKeeps_qbm _ s).trans (powerKeeps_qbm _ _)

theorem powerKeeps_cellsLeave (f : Frame) (n : Nat) (s : State) : PowerKeeps releasing s (cellsLeave f n s) := by
  unfold cellsLeave
  extract_lets s1
  have h1 : PowerKeeps releasing s s1 := by
    simp only [s1]
    split
    · exact (powerKeeps_qbm _ s).trans (powerKeeps_qbm _ _)
    · exact .refl _ _
  clear_value s1
  split
  · exact h1.trans (powerKeeps_qbm _ _)
  · exact h1

theorem powerKeeps_stampEnd (n : Nat) (f : Frame) (s : State) : PowerKeeps releasing s (stampEnd n f s) := by
  unfold stampEnd
  split
  · exact .refl _ _
  · exact .of_changes (changes_upl _ s)

theorem powerKeeps_sendDone (n : Nat) (f : Frame) (s : State) : PowerKeeps releasing s (sendDone n f s) := by
  unfold sendDone
  split
  · exact .refl _ _
  · extract_lets c same
    split
    · exact powerKeeps_qbm _ s
    · exact .of_changes (changes_hrd _ s.out s)

theorem changes_smpWrite (i n skid : Nat) (f : SmpFrame) (s : State) : Changes [.hrd, .cnt] s (smpWrite i n skid f s) := by
  unfold smpWrite
  extract_lets size base b s1
  split
  · exact ((changes_count1 _ _ _).trans (changes_cnt _ _)).mono (by decide)
  · exact ((changes_hostWrites _ _).mono (by decide)).trans (((changes_cnt _ _).trans (changes_count1 _ _ _)).mono (by decide))

theorem changes_completeAs (i : Nat) (f : SmpFrame) (s : State) : Changes [.hrd, .cnt, .fresh] s (completeAs i f s) := by
  have used (x : Cnt) : Changes [.hrd, .cnt, .fresh] s (useFree { s with cnt := x }) := fun c hc => by
    cases c <;> simp [Kept] at hc ⊢
  unfold completeAs
  split
  · exact changes_refl _ _
  · split
    · exact used _
    · extract_lets s1
      split
      · exact (used _).trans ((changes_smpWrite _ _ _ _ _).mono (by decide))
      · exact used _

theorem powerKeeps_freeFrame (n : Nat) (f : Frame) (s : State) : PowerKeeps releasing s (freeFrame n f s) := by
  have cells : PowerKeeps releasing s (freeDeep f.deep (freeCellsOf f.cells s)) :=
    (PowerKeeps.foldl (fun u c => powerKeeps_freeCell c u) _ s).trans (powerKeeps_qbm _ _)
  unfold freeFrame
  extract_lets s1 s2 s3
  have h2 : PowerKeeps releasing s s2 := by
    show PowerKeeps _ s (if _ then _ else _)
    split
    · exact cells
    · exact cells.trans (powerKeeps_qbm _ _)
  exact (((h2.trans (powerKeeps_cellsLeave _ _ _)).trans (powerKeeps_qbm _ _)).trans (powerKeeps_stampEnd _ _ _)).trans
    (powerKeeps_sendDone _ _ _)

theorem powerKeeps_release1 (n : Nat) (s : State) : PowerKeeps releasing s (release1 n s) := by
  unfold release1
  split
  · exact .refl _ _
  · split
    · exact (PowerKeeps.of_changes (changes_completeAs _ _ _)).trans (powerKeeps_freeFrame _ _ _)
    · exact powerKeeps_qbm _ s

end

/-! ## The memories of a domain (R437, Table 14-3) -/

/-- What the loss of a domain's memories can change. -/
abbrev losing : List Comp := [.glb, .flt, .qbm, .tre, .chn, .upl, .cpe, .hrd, .pwr, .cnt, .fresh]

theorem powerKeeps_discardSel (t : Nat) (s : State) : PowerKeeps losing s (discardSel t s) := by
  unfold discardSel
  split
  · exact .refl _ _
  · have put : PowerKeeps losing s _ := .of_changes (changes_qbm { s.qbm with sel := tDel t s.qbm.sel } s)
    exact put.trans (.of_changes (changes_tre _ _))

theorem powerKeeps_loseTree (t : Nat) (kept : BitVec 2) (s : State) : PowerKeeps losing s (loseTree t kept s) := by
  unfold loseTree
  extract_lets r ctxs held tail s1 calm s2
  have h1 : PowerKeeps losing s s1 :=
    (powerKeeps_discardSel t s).trans (PowerKeeps.foldl (fun u n => powerKeeps_release1 n u) _ _).mono
  have h2 : PowerKeeps losing s s2 := h1.trans (.of_changes (changes_tre _ s1))
  clear_value s2
  split
  · exact h2
  · exact h2.trans (.of_changes (changes_cpe _ s2))

theorem powerKeeps_modChn (t : Nat) (f : Chn → Chn) (s : State) : PowerKeeps losing s (modChn t f s) :=
  PowerKeeps.of_changes (changes_chn _ s)

theorem powerKeeps_loseRings {s : State} (h : s.hrd.ring = []) : PowerKeeps losing s (loseRings s) := by
  unfold loseRings
  extract_lets fills sends s1
  have h1 : PowerKeeps losing s s1 := by
    have hf : fills = [] := by simp [fills, h]
    have hs : sends = [] := by simp [sends, h]
    show PowerKeeps _ s (sends.foldl _ (fills.foldl _ _))
    rw [hf, hs]
    exact .of_changes (changes_hrd _ s.out s)
  clear_value s1
  exact h1.trans (.of_changes (changes_hrd _ s1.out s1))

/-- The supply of a domain has gone: of the rings this is said where there are none. -/
theorem powerKeeps_loseMemories {d : Nat} {kept : BitVec 2} {s : State} (h : d = domHP → s.hrd.ring = []) :
    PowerKeeps losing s (loseMemories d kept s) := by
  unfold loseMemories
  split_ifs with _ _ _ hd
  · exact powerKeeps_loseTree _ _ _
  · exact (powerKeeps_loseTree _ _ _).trans (powerKeeps_modChn _ _ _)
  · exact .of_changes (changes_upl _ s)
  · exact .refl _ _
  · exact powerKeeps_loseRings (h hd)
  · exact .foldl (fun u t => powerKeeps_modChn t _ u) _ s
  · exact .refl _ _

end Sys2Proof.Machine
end

section
/-!
SUPPORT. Cycles that pass while the clock waits for a due cycle: they bring no turn and end no fault (`Uneventful`), and each counts once
(`Passed`). So a wait for the cycle in which an undone entry has its domain back ends with exactly that turn (R442, R444, log entry 2).
-/

namespace Sys2Proof.Machine

/-! ## What waits and what has been raised -/

/-- From `s` to `t` no turn joins or leaves those that wait, and no bit of a fault set rises or falls. -/
structure Uneventful (s t : State) : Prop where
  later : t.hrd.later = s.hrd.later
  st : ∀ i, (fltOf t i).st = (fltOf s i).st

section
variable {s t u : State}

theorem Uneventful.trans (h : Uneventful s t) (g : Uneventful t u) : Uneventful s u :=
  ⟨g.later.trans h.later, fun i => (g.st i).trans (h.st i)⟩

theorem Uneventful.of_flt (h : t.flt = s.flt) (hl : t.hrd.later = s.hrd.later) : Uneventful s t :=
  ⟨hl, fun i => by rw [fltOf, h, fltOf]⟩

theorem Uneventful.refl (s : State) : Uneventful s s := .of_flt rfl rfl

theorem Uneventful.foldl {α : Type} {g : State → α → State} (h : ∀ s x, Uneventful s (g s x)) (L : List α) (s : State) :
    Uneventful s (L.foldl g s) := by
  induction L generalizing s with
  | nil => exact .refl _
  | cons x L ih => exact (h s x).trans (ih _)

theorem fltOf_setFlt_same (i : Nat) (f : FaultSet) : fltOf (setFlt i f s) i = f := tGet_tSet_same _ _ _ _

theorem fltOf_setFlt_other {i k : Nat} (h : k ≠ i) (f : FaultSet) : fltOf (setFlt i f s) k = fltOf s k := tGet_tSet_other h _ _ _ _

theorem uneventful_countO (i evt obj amt : Nat) (s : State) : Uneventful s (countO i evt obj amt s) := .of_flt (by simp) (by simp)

end

/-! ## A cycle's counts (R422, R471) -/

section
variable {s o : State}

/-- R422: a persistent cause counts in its set, and raises nothing. -/
theorem uneventful_persistCount (n : Nat) (s : State) : Uneventful s (persistCount n s) :=
  .foldl (fun u e => by
    dsimp only
    split
    · refine ⟨rfl, fun i => ?_⟩
      by_cases h : i = e.1
      · subst h
        rw [fltOf_setFlt_same]
      · rw [fltOf_setFlt_other h]
    · exact .refl u) _ s

theorem uneventful_pauseCount (n : Nat) (s : State) : Uneventful s (pauseCount n s) :=
  .foldl (fun u e => by
    refine Uneventful.trans ?_ (.foldl (fun w p => uneventful_countO _ _ _ _ w) _ _)
    split
    · exact uneventful_countO _ _ _ _ u
    · exact .refl u) _ s

theorem uneventful_backCells (n : Nat) (s : State) : Uneventful s (backCells n s) :=
  .foldl (fun u k => by
    have back (i d : Nat) (f : Lane → Lane) : Uneventful u (laneMod i d f u) := .of_flt rfl rfl
    dsimp only
    split
    · exact (back _ _ _).trans (uneventful_countO _ _ _ _ _)
    · exact .refl u) _ s

theorem uneventful_cycleCounts (n : Nat) (s : State) : Uneventful s (cycleCounts n s) :=
  ((uneventful_persistCount n s).trans (uneventful_pauseCount n _)).trans (uneventful_backCells n _)

theorem uneventful_passCounts (n : Nat) (s : State) : Uneventful s (passCounts n s) := by
  unfold passCounts
  extract_lets s1
  split
  · have next : Uneventful s1 { s1 with tim := { s1.tim with now := s.tim.now + 1 } } := .of_flt rfl rfl
    exact ((uneventful_cycleCounts 1 s).trans next).trans (uneventful_cycleCounts _ _)
  · exact uneventful_cycleCounts n s

/-! ## Cycles pass -/

theorem uneventful_passRate (n : Nat) (s : State) : Uneventful s (passRate n s) := by
  have clock (u : State) (x : Tim) : Uneventful u { u with tim := x } := .of_flt rfl rfl
  unfold passRate
  extract_lets t s1
  have h1 : Uneventful s s1 := uneventful_passCounts n s
  split
  · exact .refl s
  · split
    · exact h1.trans (clock s1 _)
    · exact h1.trans (clock s1 _)

theorem passRate_now (n : Nat) (s : State) : (passRate n s).tim.now = s.tim.now + n := by
  unfold passRate
  extract_lets t s1
  split
  · next h => subst h; rfl
  · split <;> rfl

theorem uneventful_oldRate (h : oldRate s = some o) : Uneventful s o ∧ o.tim.now = s.tim.now := by
  unfold oldRate at h
  extract_lets inc slew at h
  split at h
  · cases h
  · cases h
    exact ⟨.of_flt rfl rfl, rfl⟩

/-- R341: cycles at one rate, or one at the old rate and the others at the new one. -/
theorem passClk_cases (n : Nat) (s : State) : passClk n s = passRate n s ∨
    ∃ o inc slew, n ≠ 0 ∧ oldRate s = some o ∧
      passClk n s = passRate (n - 1) { passRate 1 o with tim := { (passRate 1 o).tim with inc := inc, slew := slew } } := by
  unfold passClk
  split
  · exact .inl rfl
  · next o h =>
    split at h
    · cases h
    · next hn => exact .inr ⟨o, _, _, hn, h, rfl⟩

theorem uneventful_passClk (n : Nat) (s : State) : Uneventful s (passClk n s) := by
  rcases passClk_cases n s with e | ⟨o, inc, slew, -, ho, e⟩ <;> rw [e]
  · exact uneventful_passRate n s
  · have first := (uneventful_oldRate ho).1.trans (uneventful_passRate 1 o)
    have clock (u : State) (x : Tim) : Uneventful u { u with tim := x } := .of_flt rfl rfl
    exact (first.trans (clock _ _)).trans (uneventful_passRate _ _)

theorem passClk_now (n : Nat) (s : State) : (passClk n s).tim.now = s.tim.now + n := by
  rcases passClk_cases n s with e | ⟨o, inc, slew, hn, ho, e⟩ <;> rw [e, passRate_now]
  have first : (passRate 1 o).tim.now = s.tim.now + 1 := by rw [passRate_now, (uneventful_oldRate ho).2]
  show (passRate 1 o).tim.now + (n - 1) = s.tim.now + n
  omega

end

/-! ## The Milk Round's reads (R466) -/

section
variable {s u : State}

theorem grantWrite_later {h : Nat} (e : grantWrite h s = some u) : u.hrd.later = s.hrd.later := by
  unfold grantWrite at e
  split at e
  · cases e
  · cases e; rfl

theorem pumpWrites_later (n : Nat) (s : State) : (pumpWrites n s).hrd.later = s.hrd.later := by
  induction n generalizing s with
  | zero => rfl
  | succ n ih =>
    rw [pumpWrites]
    split
    · next e => exact (ih _).trans (grantWrite_later e)
    · split
      · next e => exact (ih _).trans (grantWrite_later e)
      · rfl

theorem hostWrites_later (l : List WrReq) (s : State) : (hostWrites l s).hrd.later = s.hrd.later := pumpWrites_later _ _

/-- What a Milk Round's read leaves alone: the clock, the turns that wait, the fault sets. -/
structure RoundReads (s t : State) : Prop where
  tim : t.tim = s.tim
  flt : t.flt = s.flt
  later : t.hrd.later = s.hrd.later

theorem RoundReads.trans {t : State} (h : RoundReads s t) (g : RoundReads t u) : RoundReads s u :=
  ⟨g.tim.trans h.tim, g.flt.trans h.flt, g.later.trans h.later⟩

theorem roundReads_nextGroup (h : mrNextGroup s = some u) : RoundReads s u := by
  unfold mrNextGroup at h
  split at h
  · split at h
    · cases h
    · cases h
      exact ⟨hostWrites_tim _ _, hostWrites_flt _ _, hostWrites_later _ _⟩
  · cases h

theorem roundReads_close (s : State) : RoundReads s (mrClose s) := by
  unfold mrClose
  split
  · exact ⟨rfl, rfl, rfl⟩
  · split <;> exact ⟨rfl, rfl, rfl⟩

theorem roundReads_flush (n : Nat) (s : State) : RoundReads s (mrFlush n s) := by
  induction n generalizing s with
  | zero => exact ⟨rfl, rfl, rfl⟩
  | succ n ih =>
    rw [mrFlush]
    split
    · exact roundReads_close s
    · next u h => exact (roundReads_nextGroup h).trans (ih u)

theorem roundReads_read (s : State) : RoundReads s (mrRead s) := by
  unfold mrRead
  split
  · exact ⟨rfl, rfl, rfl⟩
  · split
    · exact ⟨rfl, rfl, rfl⟩
    · extract_lets e v s0 r1
      have h0 : RoundReads s s0 := by
        show RoundReads s (if _ then _ else _)
        split <;> exact ⟨rfl, rfl, rfl⟩
      clear_value s0
      have counts (x : Cnt) : RoundReads s0 { s0 with cnt := x } := ⟨rfl, rfl, rfl⟩
      split
      · exact (h0.trans (counts _)).trans (roundReads_flush _ _)
      · exact h0.trans (counts _)

theorem uneventful_mrRead (s : State) : Uneventful s (mrRead s) :=
  have h := roundReads_read s
  .of_flt h.flt h.later

theorem mrNext_due {n d : Nat} (h : mrNext s n = some d) : 0 < d ∧ d ≤ n := by
  unfold mrNext at h
  split at h
  · cases h
  · dsimp only at h
    split at h
    · cases h; omega
    · cases h

end

/-! ## The clock advances -/

section
variable {s : State}

/-- One step of the clock on its way: the cycles up to the Milk Round's next read pass, and it reads; `a.1` are the cycles left. -/
def readOn (a : Nat × State) : Nat × State :=
  match mrNext a.2 a.1 with
  | some d => (a.1 - d, mrRead (passClk d a.2))
  | none => a

theorem readOn_spec (a : Nat × State) : Uneventful a.2 (readOn a).2 ∧ (readOn a).2.tim.now + (readOn a).1 = a.2.tim.now + a.1 := by
  unfold readOn
  split
  · next d h =>
    refine ⟨(uneventful_passClk d a.2).trans (uneventful_mrRead _), ?_⟩
    have hn : (mrRead (passClk d a.2)).tim.now = a.2.tim.now + d := by rw [(roundReads_read _).tim, passClk_now]
    have := mrNext_due h
    show (mrRead (passClk d a.2)).tim.now + (a.1 - d) = a.2.tim.now + a.1
    omega
  · exact ⟨.refl _, rfl⟩

theorem readOn_foldl (L : List Nat) (a : Nat × State) :
    Uneventful a.2 (L.foldl (fun a _ => readOn a) a).2 ∧
      (L.foldl (fun a _ => readOn a) a).2.tim.now + (L.foldl (fun a _ => readOn a) a).1 = a.2.tim.now + a.1 := by
  induction L generalizing a with
  | nil => exact ⟨.refl _, rfl⟩
  | cons x L ih =>
    obtain ⟨hu, hn⟩ := readOn_spec a
    obtain ⟨iu, inow⟩ := ih (readOn a)
    exact ⟨hu.trans iu, inow.trans hn⟩

theorem advanceClk_readOn (n : Nat) (s : State) : ∃ L : List Nat,
    advanceClk n s = passClk (L.foldl (fun a _ => readOn a) (n, s)).1 (L.foldl (fun a _ => readOn a) (n, s)).2 := ⟨_, rfl⟩

theorem uneventful_advanceClk (n : Nat) (s : State) : Uneventful s (advanceClk n s) := by
  obtain ⟨L, e⟩ := advanceClk_readOn n s
  rw [e]
  exact (readOn_foldl L (n, s)).1.trans (uneventful_passClk _ _)

theorem advanceClk_now (n : Nat) (s : State) : (advanceClk n s).tim.now = s.tim.now + n := by
  obtain ⟨L, e⟩ := advanceClk_readOn n s
  rw [e, passClk_now]
  exact (readOn_foldl L (n, s)).2

theorem readOn_zero (L : List Nat) (s : State) : L.foldl (fun a _ => readOn a) (0, s) = (0, s) := by
  have still : readOn (0, s) = (0, s) := by
    unfold readOn
    split
    · next d h => have := mrNext_due h; omega
    · rfl
  induction L with
  | nil => rfl
  | cons x L ih => rw [List.foldl_cons, still, ih]

theorem advanceClk_zero (s : State) : advanceClk 0 s = s := by
  obtain ⟨L, e⟩ := advanceClk_readOn 0 s
  rw [e, readOn_zero]
  rfl

theorem changes_advanceClk (n : Nat) (s : State) : Changes [.flt, .tim, .hrd, .cnt, .fresh] s (advanceClk n s) := fun c hc => by
  cases c <;> simp [Kept] at hc ⊢

/-! ## Cycles and the turns in them -/

/-- `n` cycles have passed: the clock has moved by them, no fault has ended or begun, and nothing else changes but counters, rings, the fault
sets' own counts and FAULT_OUT. -/
structure Passed (n : Nat) (s t : State) : Prop where
  changes : Changes [.flt, .glb, .tim, .hrd, .cnt, .fresh] s t
  now : t.tim.now = s.tim.now + n
  st : ∀ i, (fltOf t i).st = (fltOf s i).st

theorem Passed.trans {m n k : Nat} {t u : State} (h : Passed m s t) (g : Passed n t u) (e : m + n = k := by omega) : Passed k s u :=
  ⟨h.changes.trans g.changes, by rw [g.now, h.now, Nat.add_assoc, e], fun i => (g.st i).trans (h.st i)⟩

theorem passed_advanceClk (n : Nat) (s : State) : Passed n s (advanceClk n s) :=
  ⟨(changes_advanceClk n s).mono (by decide), advanceClk_now n s, (uneventful_advanceClk n s).st⟩

/-- The turns that wait are those of `l`. -/
def withTurns (l : List (Nat × Turn)) (s : State) : State := { s with hrd := { s.hrd with later := l } }

theorem passed_withTurns (l : List (Nat × Turn)) (s : State) : Passed 0 s (withTurns l s) :=
  ⟨(changes_hrd _ s.out s).mono (by decide), rfl, fun _ => rfl⟩

/-- R423, R429: the interrupt and the pin event of a fault. -/
theorem passed_faultTold (i b : Nat) (s : State) : Passed 0 s (faultTold i b s) ∧ (faultTold i b s).hrd = s.hrd := by
  have pin (u : State) : Passed 0 u (pinEvent i u) :=
    ⟨fun c hc => by cases c <;> simp [Kept] at hc ⊢, by simp, fun k => by rw [fltOf, pinEvent_flt, fltOf]⟩
  have sent (v : Nat) : Passed 0 s (irq v 0 s) := ⟨fun c hc => by cases c <;> simp [Kept] at hc ⊢, by simp, fun _ => rfl⟩
  have none_ : Passed 0 s s := ⟨changes_refl _ s, rfl, fun _ => rfl⟩
  unfold faultTold
  extract_lets vec s1
  have h1 : Passed 0 s s1 ∧ s1.hrd = s.hrd := by
    show Passed 0 s (if _ then _ else _) ∧ (if _ then _ else _ : State).hrd = s.hrd
    split
    · exact ⟨sent _, irq_hrd _ _ _⟩
    · exact ⟨none_, rfl⟩
  clear_value s1
  split
  · exact ⟨none_, rfl⟩
  · split
    · exact ⟨h1.1.trans (pin s1), (pinEvent_hrd _ _).trans h1.2⟩
    · exact h1

end

end Sys2Proof.Machine
end

section
/-!
SUPPORT. Entries into RET and OFF (R442 to R445, R455, Table 14-5): the abort points, the undoing of an entry, and its end. Then the
statement.
-/

namespace Sys2Proof.Machine

/-! ## Notices leave the turns that wait alone -/

section
variable {s : State}

theorem ntcWrite_later (p : Nat) (n : Notice) (s : State) : (ntcWrite p n s).hrd.later = s.hrd.later := hostWrites_later _ _

theorem ntcLose_later (p : Nat) (s : State) : (ntcLose p s).hrd.later = s.hrd.later := by simp [ntcLose]

theorem ntcDrain_later (p k : Nat) (s : State) : (ntcDrain p k s).hrd.later = s.hrd.later := by
  induction k generalizing s with
  | zero => rfl
  | succ k ih =>
    rw [ntcDrain]
    split
    · rfl
    · split
      · exact (ih _).trans (ntcWrite_later _ _ _)
      · split
        · rfl
        · exact (ih _).trans (ntcWrite_later _ _ _)

theorem notice_later (p : Nat) (n : Notice) (s : State) : (notice p n s).hrd.later = s.hrd.later := by
  unfold notice
  extract_lets r s0 s1 pend
  have h0 : s0.hrd.later = s.hrd.later := by simp [s0]
  have h : s1.hrd.later = s.hrd.later := by
    show (if _ then _ else _ : State).hrd.later = _
    split
    · exact (ntcDrain_later _ _ _).trans h0
    · exact h0
  clear_value s1
  split
  · exact (ntcLose_later _ _).trans h
  · split
    · exact (ntcWrite_later _ _ _).trans h
    · split
      · exact h
      · split
        · exact h
        · exact (ntcLose_later _ _).trans h

end

/-! ## Operations of the power controller that bring no turn -/

/-- What the end of a request, and the start of the next one, can change: domains, the units asked, lanes and roles of slices, notices. -/
abbrev controlling : List Comp := .pwr :: .chn :: .qbm :: .skm :: noted

/-- From `s` to `t` nothing changes but what the end of a request can change, and no turn joins or leaves those that wait. -/
structure Controls (s t : State) : Prop where
  changes : Changes controlling s t
  later : t.hrd.later = s.hrd.later

section
variable {l : List Comp} {s t u : State} {d : Nat}

theorem Controls.trans (h : Controls s t) (g : Controls t u) : Controls s u := ⟨h.changes.trans g.changes, g.later.trans h.later⟩

theorem Controls.refl (s : State) : Controls s s := ⟨changes_refl _ s, rfl⟩

theorem Controls.of_changes (h : Changes l s t) (hh : .hrd ∉ l := by decide) (hl : l ⊆ controlling := by decide) : Controls s t :=
  ⟨h.mono hl, congrArg Hrd.later (h .hrd hh)⟩

theorem controls_setPdom (d : Nat) (v : PDom) (s : State) : Controls s (setPdom d v s) := .of_changes (changes_setPdom d v s)

theorem controls_notice (p : Nat) (n : Notice) (s : State) : Controls s (notice p n s) :=
  ⟨(changes_notice p n s).mono (by decide), notice_later p n s⟩

theorem controls_countO (i evt obj amt : Nat) (s : State) : Controls s (countO i evt obj amt s) := .of_changes (changes_countO i evt obj amt s)

/-- R155, R269: what a unit is asked to do changes its own state alone. -/
theorem changes_askUnits (d : Nat) (on : Bool) (s : State) : Changes [.chn, .qbm] s (askUnits d on s) := by
  unfold askUnits
  split
  · exact (changes_chn _ s).mono (by decide)
  · split
    · split
      · exact (changes_qbm _ s).mono (by decide)
      · exact changes_refl _ s
    · exact changes_refl _ s

theorem changes_setRole (i : Nat) (r : Role) (s : State) : Changes [.skm, .cnt] s (setRole i r s) := by
  have role (x : Skm) (u : State) : Changes [.skm, .cnt] u { u with skm := x } := (changes_skm x u).mono (by decide)
  unfold setRole
  extract_lets was s1 pass old s2 s3
  have h1 : Changes [.skm, .cnt] s s1 := by
    show Changes _ s (if _ then _ else _)
    split
    · exact (changes_laneStop _ s).mono (by decide)
    · exact changes_refl _ s
  have h2 : Changes [.skm, .cnt] s s2 := h1.trans (role _ s1)
  clear_value s2
  have h3 : Changes [.skm, .cnt] s s3 := by
    show Changes _ s (if _ then _ else _)
    split
    · exact h2.trans ((changes_laneStart _ s2).mono (by decide))
    · exact h2
  clear_value s3
  split
  · exact h3.trans (role _ s3)
  · exact h3

/-- R411, R473: what a domain's return to ON starts in its slice. -/
theorem changes_domBack (d : Nat) (s : State) : Changes [.skm, .cnt] s (domBack d s) := by
  have tested (x : Skm) : Changes [.skm, .cnt] s { s with skm := x } := (changes_skm x s).mono (by decide)
  unfold domBack
  extract_lets i s1
  split_ifs
  · exact changes_refl _ s
  · exact (changes_laneStart _ s).mono (by decide)
  · exact (tested _).trans (changes_setRole _ _ _)
  · exact tested _
  · exact changes_refl _ s

theorem controls_startReq (d tgt at_ : Nat) (s : State) : Controls s (startReq d tgt at_ s) := by
  unfold startReq
  extract_lets p
  split_ifs
  · exact (controls_setPdom _ _ s).trans (controls_notice _ _ _)
  · exact controls_setPdom _ _ s
  · exact ((controls_setPdom _ _ s).trans (controls_countO _ _ _ _ _)).trans (controls_notice _ _ _)
  · exact (controls_setPdom _ _ s).trans (.of_changes (changes_askUnits _ _ _))

theorem controls_nextReq (d : Nat) (s : State) : Controls s (nextReq d s) := by
  unfold nextReq
  split
  · exact .refl s
  · exact (controls_setPdom _ _ s).trans (controls_startReq _ _ _ _)

theorem nextReq_none (h : (pdom s d).queued = none) : nextReq d s = s := by rw [nextReq, h]

theorem nextReq_some {g : Nat} (h : (pdom s d).queued = some g) :
    nextReq d s = startReq d g (s.tim.now + 1) (modPdom d (fun p => { p with queued := none }) s) := by rw [nextReq, h]

/-- R440: a request to leave ON asks the units. -/
theorem startReq_leaves {g c : Nat} (h : (pdom s d).state = 0) (hg : g ≠ 0) :
    startReq d g c s = askUnits d true
      (setPdom d { pdom s d with cur := some g, curAt := c, wake := firedAt s d c, wakeAt := c, acc := 0, phase := 1 } s) := by
  simp [startReq, h, hg]

end

/-! ## A domain is back in ON (R442, R444) -/

/-- A domain whose entry has been undone: isolated no more, its request ended with `res` (Table 14-5). -/
def PDom.back (res : Nat) (p : PDom) : PDom :=
  { p with iso := false, ret := false, point := 0, wake := 0, kept := 0, res := res, cause := 0, cur := none, phase := 0 }

/-- The undo steps of a domain have passed, its request has ended, and its units go on. -/
def unitsBack (d : Nat) (s : State) : State :=
  domBack d (askUnits d false (endReq d (if (pdom s d).point = 5 then 4 else 3) 0
    (modPdom d (fun p => { p with iso := false, ret := false, point := 0, wake := 0, kept := 0 }) s)))

/-- The entry of a domain has been abandoned: counted, recorded, noticed (R442, R451, R452). -/
def abandonNoted (d : Nat) (p : PDom) (s : State) : State :=
  notice0 0x71 p.wake (w32 d) (w32 p.point) (wakeRecord d p.wake (1 + p.point) (countO 2 2 d 1 s))

section
variable {s : State} {d : Nat}

theorem undone_timedOut (h4 : (pdom s d).phase = 4) (h5 : (pdom s d).point = 5) : undone d s = nextReq d (unitsBack d s) := by
  simp [undone, unitsBack, h4, h5]

theorem undone_abandoned (h4 : (pdom s d).phase = 4) (h5 : (pdom s d).point ≠ 5) :
    undone d s = nextReq d (abandonNoted d (pdom s d) (unitsBack d s)) := by
  simp [undone, unitsBack, abandonNoted, h4, h5]

theorem pdom_unitsBack (d : Nat) (s : State) : pdom (unitsBack d s) d = (pdom s d).back (if (pdom s d).point = 5 then 4 else 3) := by
  have units (u : State) : pdom (domBack d (askUnits d false u)) d = pdom u d :=
    pdom_of_pwr ((changes_askUnits d false u .pwr (by decide)).trans (changes_domBack d _ .pwr (by decide)))
  rw [unitsBack, units, endReq, modPdom, pdom_setPdom_same, modPdom, pdom_setPdom_same]
  rfl

theorem controls_unitsBack (d : Nat) (s : State) : Controls s (unitsBack d s) :=
  (((controls_setPdom d _ s).trans (controls_setPdom d _ _)).trans (.of_changes (changes_askUnits d false _))).trans
    (.of_changes (changes_domBack d _))

theorem controls_abandonNoted (d : Nat) (p : PDom) (s : State) : Controls s (abandonNoted d p s) :=
  (((controls_countO 2 2 d 1 s).trans (controls_setPdom d _ _)).trans (.of_changes (changes_pwr _ _))).trans (controls_notice _ _ _)

/-- R451: the wake record names the domain, the source and the abort point; of the domain no more changes than LWSRC and a wake event. -/
theorem abandonNoted_spec (d : Nat) (p : PDom) (s : State) :
    (pdom (abandonNoted d p s) d).sansWake = PDom.sansWake { pdom s d with lwsrc := p.wake } ∧
      (abandonNoted d p s).pwr.lwDom = d ∧ (abandonNoted d p s).pwr.lwSrc = p.wake ∧ (abandonNoted d p s).pwr.lwOut = 1 + p.point := by
  have note := powerKeeps_notice 0 (mkNotice (wakeRecord d p.wake (1 + p.point) (countO 2 2 d 1 s)) 0x71 0 0 p.wake 0 (w32 d) (w32 p.point))
    (wakeRecord d p.wake (1 + p.point) (countO 2 2 d 1 s))
  have counted : pdom (countO 2 2 d 1 s) d = pdom s d := pdom_of_pwr (by simp)
  have recorded : pdom (wakeRecord d p.wake (1 + p.point) (countO 2 2 d 1 s)) d = { pdom s d with lwsrc := p.wake } :=
    (tGet_tSet_same _ _ _ _).trans (by rw [counted])
  exact ⟨(note.dom d).trans (congrArg _ recorded), note.lwDom, note.lwSrc, note.lwOut⟩

theorem controls_undone (d : Nat) (s : State) : Controls s (undone d s) := by
  by_cases h4 : (pdom s d).phase = 4
  · by_cases h5 : (pdom s d).point = 5
    · rw [undone_timedOut h4 h5]
      exact (controls_unitsBack d s).trans (controls_nextReq d _)
    · rw [undone_abandoned h4 h5]
      exact ((controls_unitsBack d s).trans (controls_abandonNoted d _ _)).trans (controls_nextReq d _)
  · rw [undone, if_pos h4]
    exact .refl s

/-- R442, R451: an abandoned entry with no request queued. -/
theorem undone_abandoned_spec {p : PDom} (hp : pdom s d = p) (h4 : p.phase = 4) (h5 : p.point ≠ 5) (hq : p.queued = none) :
    (pdom (undone d s) d).sansWake = PDom.sansWake { p.back 3 with lwsrc := p.wake } ∧ (undone d s).pwr.lwDom = d ∧
      (undone d s).pwr.lwSrc = p.wake ∧ (undone d s).pwr.lwOut = 1 + p.point := by
  subst hp
  obtain ⟨hdom, hrec⟩ := abandonNoted_spec d (pdom s d) (unitsBack d s)
  rw [pdom_unitsBack, if_neg h5] at hdom
  have queue : (pdom (abandonNoted d (pdom s d) (unitsBack d s)) d).queued = none :=
    (congrArg PDom.queued hdom :).trans hq
  rw [undone_abandoned h4 h5, nextReq_none queue]
  exact ⟨hdom, hrec⟩

/-- R444: an entry that has timed out with no request queued. -/
theorem undone_timedOut_spec {p : PDom} (hp : pdom s d = p) (h4 : p.phase = 4) (h5 : p.point = 5) (hq : p.queued = none) :
    pdom (undone d s) d = p.back 4 := by
  subst hp
  have queue : (pdom (unitsBack d s) d).queued = none := by rw [pdom_unitsBack]; exact hq
  rw [undone_timedOut h4 h5, nextReq_none queue, pdom_unitsBack, if_pos h5]

/-- R439, R444: a queued request to leave ON becomes current when the entry before it has timed out. -/
theorem undone_timedOut_queued {p : PDom} {g : Nat} (hp : pdom s d = p) (h4 : p.phase = 4) (h5 : p.point = 5) (hq : p.queued = some g)
    (h0 : p.state = 0) (hg : g ≠ 0) :
    ∃ w c, pdom (undone d s) d =
      { p.back 4 with queued := none, cur := some g, curAt := c, wake := w, wakeAt := c, acc := 0, phase := 1 } := by
  subst hp
  have hb := pdom_unitsBack d s
  rw [if_pos h5] at hb
  have units (u : State) : pdom (askUnits d true u) d = pdom u d := pdom_of_pwr (changes_askUnits d true u .pwr (by decide))
  have queue : (pdom (unitsBack d s) d).queued = some g := by rw [hb]; exact hq
  rw [undone_timedOut h4 h5, nextReq_some queue, startReq_leaves (by rw [modPdom, pdom_setPdom_same, hb]; exact h0) hg, units,
    pdom_setPdom_same, modPdom, pdom_setPdom_same, hb]
  exact ⟨_, _, rfl⟩

end

/-! ## The undo steps pass (Table 14-5, log entry 2) -/

/-- The undo steps of a domain have begun. -/
def undoing (d : Nat) (s : State) : State := modPdom d (fun p => { p with phase := 4, gate := false }) s

section
variable {c d k n : Nat} {s : State}

theorem pdom_undoing : pdom (undoing d s) d = { pdom s d with phase := 4, gate := false } := pdom_setPdom_same

theorem undoEntry_at_once (h : c ≤ s.tim.now) : undoEntry d c s = undone d (undoing d s) := if_pos h

theorem undoEntry_waits (h : s.tim.now < c) : undoEntry d c s = waitUntil c (atCycle c (.undone d) (undoing d s)) :=
  if_neg (Nat.not_le.mpr h)

theorem moveClk_none (h : s.hrd.later = []) : moveClk c k s = advanceClk (c - s.tim.now) s := by
  cases k with
  | zero => rfl
  | succ k => rw [moveClk, nextTurn, h]; rfl

theorem moveClk_turn {e : Nat} {x : Turn} {l : List (Nat × Turn)} (h : nextTurn c s = some ((e, x), l)) :
    moveClk c (k + 1) s = moveClk c k (takeTurn x (advanceClk (e - s.tim.now) (withTurns l s))) := by
  rw [moveClk, h]
  rfl

/-- The only turn that waits, due in the cycle to which the clock moves, takes place at the end. -/
theorem moveClk_undone (h : s.hrd.later = [(c, .undone d)]) (hc : s.tim.now ≤ c) :
    ∃ v, Passed (c - s.tim.now) s v ∧ moveClk c (k + 1) s = undone d v := by
  have turn : nextTurn c s = some ((c, .undone d), []) := by simp [nextTurn, h, pickMin]
  have on := passed_advanceClk (c - s.tim.now) (withTurns [] s)
  have ctl := controls_undone d (advanceClk (c - s.tim.now) (withTurns [] s))
  have none_ : (undone d (advanceClk (c - s.tim.now) (withTurns [] s))).hrd.later = [] :=
    ctl.later.trans (uneventful_advanceClk _ _).later
  have now : (undone d (advanceClk (c - s.tim.now) (withTurns [] s))).tim.now = c := by
    rw [show (undone d _).tim = _ from ctl.changes .tim (by decide), on.now]
    show s.tim.now + _ = c
    omega
  refine ⟨_, (passed_withTurns [] s).trans on, ?_⟩
  rw [moveClk_turn turn, takeTurn, moveClk_none none_, now, Nat.sub_self, advanceClk_zero]

/-- The same with a fault still to be told, whose interrupt and pin event come in the next cycle. -/
theorem moveClk_told_undone {i b : Nat} (h : s.hrd.later = [(s.tim.now + 1, .told i b), (c, .undone d)]) (hc : s.tim.now + 1 < c) :
    ∃ v, Passed (c - s.tim.now) s v ∧ moveClk c (k + 2) s = undone d v := by
  have turn : nextTurn c s = some ((s.tim.now + 1, .told i b), [(c, .undone d)]) := by
    have first : s.tim.now + 1 ≤ c ∧ 16 * (s.tim.now + 1) ≤ 16 * c := by omega
    simp [nextTurn, h, pickMin, turnPlace, first]
  have on := passed_advanceClk 1 (withTurns [(c, .undone d)] s)
  obtain ⟨told, hrd⟩ := passed_faultTold i b (advanceClk 1 (withTurns [(c, .undone d)] s))
  have after := ((passed_withTurns _ s).trans on (k := 1)).trans told (k := 1)
  obtain ⟨v, pv, run⟩ := moveClk_undone (k := k) (d := d) (c := c) (s := faultTold i b (advanceClk 1 (withTurns [(c, .undone d)] s)))
    (by rw [hrd]; exact (uneventful_advanceClk _ _).later) (by rw [after.now]; omega)
  refine ⟨v, after.trans pv (by rw [after.now]; omega), ?_⟩
  rw [moveClk_turn turn, takeTurn, Nat.add_sub_cancel_left]
  exact run

theorem lapse_eq_moveClk (hz : s.tim.zero = false) (h : s.tim.now < c) : lapse (c - s.tim.now) s = moveClk c (turnBound s) s := by
  have same : endZero s = s := by simp [endZero, hz]
  rw [lapse, if_neg (by omega), same]
  exact congrArg (fun e => moveClk e (turnBound s) s) (by omega)

/-- Log entry 2: a wait for a cycle of the current beat, or before a start is under way, reaches that cycle. -/
theorem waitUntil_eq_lapse (h : s.tim.now < c) (hb : s.tim.started = true → c - s.tim.now < toNextBeat s)
    (hn : s.tim.started = false → startCyc s = none) : waitUntil c s = lapse (c - s.tim.now) s := by
  rw [waitUntil, if_neg (Nat.not_le.mpr h)]
  cases hs : s.tim.started with
  | true =>
    have := hb hs
    rw [if_pos rfl, Nat.min_eq_left (by omega)]
  | false => rw [if_neg Bool.false_ne_true, hn hs]

theorem undoEntry_moves (hz : s.tim.zero = false) (h : s.tim.now < c) (hb : s.tim.started = true → c - s.tim.now < toNextBeat s)
    (hn : s.tim.started = false → startCyc s = none) :
    ∃ k, undoEntry d c s = moveClk c (k + 2) (withTurns (s.hrd.later ++ [(c, .undone d)]) (undoing d s)) := by
  have wait := waitUntil_eq_lapse (s := atCycle c (.undone d) (undoing d s)) h hb hn
  have bound : turnBound (atCycle c (.undone d) (undoing d s)) = turnBound (atCycle c (.undone d) (undoing d s)) - 2 + 2 := by
    unfold turnBound
    omega
  exact ⟨_, by rw [undoEntry_waits h, wait, lapse_eq_moveClk (s := atCycle c (.undone d) (undoing d s)) hz h, bound]; rfl⟩

/-- The undo steps take their cycles, where no other turn waits but one that tells of a fault. -/
theorem undoEntry_passes (hz : s.tim.zero = false) (h : s.tim.now < c) (hb : s.tim.started = true → c - s.tim.now < toNextBeat s)
    (hn : s.tim.started = false → startCyc s = none)
    (hl : s.hrd.later = [] ∨ s.tim.now + 1 < c ∧ ∃ i b, s.hrd.later = [(s.tim.now + 1, .told i b)]) :
    ∃ v, Passed (c - s.tim.now) (undoing d s) v ∧ undoEntry d c s = undone d v := by
  obtain ⟨k, run⟩ := undoEntry_moves (d := d) hz h hb hn
  rw [run]
  rcases hl with hl | ⟨hc, i, b, hl⟩
  · obtain ⟨v, pv, e⟩ := moveClk_undone (k := k + 1) (d := d) (c := c)
      (s := withTurns (s.hrd.later ++ [(c, .undone d)]) (undoing d s)) (by rw [hl]; rfl) (Nat.le_of_lt h)
    exact ⟨v, (passed_withTurns _ _).trans pv (Nat.zero_add _), e⟩
  · obtain ⟨v, pv, e⟩ := moveClk_told_undone (k := k) (d := d) (c := c) (i := i) (b := b)
      (s := withTurns (s.hrd.later ++ [(c, .undone d)]) (undoing d s)) (by rw [hl]; rfl) hc
    exact ⟨v, (passed_withTurns _ _).trans pv (Nat.zero_add _), e⟩

end

/-! ## PWC_PACK does not come (R444) -/

section
variable {i b : Nat} {cap0 : Word} {acc mkind mnum part : Nat} {s : State}

theorem meetFault_st (fi : FaultInfo) (f : FaultSet) : (meetFault b fi s f).st = f.st ||| w32 (2 ^ b) := by
  have recorded (t : BitVec 64) (n : Nat) (g : FaultSet) : (recordFault b fi t n g).st = g.st ||| w32 (2 ^ b) := by
    unfold recordFault
    extract_lets st c
    split <;> rfl
  unfold meetFault
  extract_lets c f0
  have h0 : f0.st = f.st := by
    show (if _ then _ else _ : FaultSet).st = _
    split <;> rfl
  show (recordFault b fi _ _ f0).st = _
  rw [recorded, h0]

theorem fault_cases (i b : Nat) (cap0 : Word) (acc mkind mnum part : Nat) (s : State) :
    (∃ f : FaultSet, f.st = (fltOf s i).st ||| w32 (2 ^ b) ∧ (fault i b cap0 acc mkind mnum part s).flt = (setFlt i f s).flt) ∧
      ((fault i b cap0 acc mkind mnum part s).hrd.later = s.hrd.later ∨
        (fault i b cap0 acc mkind mnum part s).hrd.later = s.hrd.later ++ [(s.tim.now + 1, .told i b)]) := by
  unfold fault raise
  extract_lets f s1
  have met : (meetFault b ⟨cap0, acc, mkind, mnum, part, false⟩ s f).st = f.st ||| w32 (2 ^ b) := meetFault_st _ f
  split
  · exact ⟨⟨_, met, rfl⟩, .inl rfl⟩
  · exact ⟨⟨_, met, notice_flt _ _ _⟩, .inr (congrArg (· ++ _) (notice_later _ _ _))⟩

/-- R421: the bit of the fault is set. -/
theorem fault_st (hb : b < 32) : bit (fltOf (fault i b cap0 acc mkind mnum part s) i).st b = true := by
  obtain ⟨⟨f, hf, hflt⟩, -⟩ := fault_cases i b cap0 acc mkind mnum part s
  have set : fltOf (fault i b cap0 acc mkind mnum part s) i = f := by rw [fltOf, hflt]; exact fltOf_setFlt_same i f
  have pow : 2 ^ b < 2 ^ 32 := Nat.pow_lt_pow_right (by decide) hb
  rw [set, hf, bit, w32, BitVec.toNat_or, Nat.testBit_or, BitVec.toNat_ofNat, Nat.mod_eq_of_lt pow, Nat.testBit_two_pow_self, Bool.or_true]

end

/-- A domain's supply switch has not answered: counted, with its fault (R444). -/
def timedOut (d : Nat) (s : State) : State := stateTmo d (countO 2 4 d 1 s)

/-- What the undoing of an entry can change while its cycles pass. -/
abbrev unwinding : List Comp := [.flt, .glb, .tim, .qbm, .chn, .hrd, .skm, .pwr, .cnt, .fresh]

section
variable {d c : Nat} {p : PDom} {s v : State}

theorem powerKeeps_timedOut (d : Nat) (s : State) : PowerKeeps (.flt :: noted) s (timedOut d s) :=
  (PowerKeeps.of_changes (changes_countO 2 4 d 1 s)).trans (powerKeeps_fault _ _ _ _ _ _ _ _)

theorem timedOut_later (h : s.hrd.later = []) :
    (timedOut d s).hrd.later = [] ∨ ∃ i b, (timedOut d s).hrd.later = [(s.tim.now + 1, .told i b)] := by
  have counted : (countO 2 4 d 1 s).hrd.later = [] ∧ (countO 2 4 d 1 s).tim = s.tim := ⟨by simp [h], by simp⟩
  have e := (fault_cases 2 0 (w32 d) 6 13 0 0 (countO 2 4 d 1 s)).2
  rw [counted.1, counted.2] at e
  exact e.imp_right fun e => ⟨_, _, e⟩

theorem changes_undoing (d : Nat) (s : State) : Changes [.pwr] s (undoing d s) := changes_setPdom d _ s

/-- The domain whose undo steps have passed, before it is ON. -/
theorem pdom_passed {n : Nat} (h : Passed n (undoing d s) v) : pdom v d = { pdom s d with phase := 4, gate := false } :=
  (pdom_of_pwr (h.changes .pwr (by decide))).trans pdom_undoing

theorem changes_passed_undone {n : Nat} (h : Passed n (undoing d s) v) : Changes unwinding s (undone d v) :=
  (((changes_undoing d s).mono (by decide)).trans (h.changes.mono (by decide))).trans ((controls_undone d v).changes.mono (by decide))

theorem entryTimeout_due (hp : pdom s d = p) (h2 : p.phase = 2) (h5 : p.point = 5) (hd : p.a + 625000 ≤ s.tim.now) :
    entryTimeout d s = undoEntry d (s.tim.now + 64) (timedOut d s) := by
  subst hp
  have wait : waitUntil ((pdom s d).a + fourTicks) s = s := waitUntil_past hd
  unfold entryTimeout
  extract_lets q due s0
  have h0 : s0 = s := wait
  rw [if_neg (by simp [q, h2, h5]), h0]
  exact if_neg (Nat.not_lt.mpr hd)

/-- R444: 64 cycles after the time-out the entry is undone, with STATE_TMO raised. -/
theorem entryTimeout_undone (hp : pdom s d = p) (h2 : p.phase = 2) (h5 : p.point = 5) (hd : p.a + 625000 ≤ s.tim.now) (hs : Still s)
    (hb : s.tim.started = true → 64 < toNextBeat s) (hn : s.tim.started = false → startCyc s = none) :
    ∃ v, entryTimeout d s = undone d v ∧ (pdom v d).sansWake = PDom.sansWake { p with phase := 4, gate := false } ∧
      bit (fltOf (undone d v) 2).st 0 = true ∧ Changes unwinding s (undone d v) := by
  have out := powerKeeps_timedOut d s
  have tim : (timedOut d s).tim = s.tim := out.changes .tim (by decide)
  have beat : toNextBeat (timedOut d s) = toNextBeat s := by rw [toNextBeat, cyc, tim]; rfl
  have start : startCyc (timedOut d s) = startCyc s := by rw [startCyc, tim]; rfl
  have span : s.tim.now + 64 - s.tim.now = 64 := by omega
  obtain ⟨v, pv, run⟩ := undoEntry_passes (d := d) (c := s.tim.now + 64) (s := timedOut d s) (by rw [tim]; exact hs.1) (by rw [tim]; omega)
    (by rw [tim, beat, span]; exact hb) (by rw [tim, start]; exact hn)
    (by rw [tim]; exact (timedOut_later hs.2).imp_right fun e => ⟨by omega, e⟩)
  have kept : (undone d v).flt = v.flt := (controls_undone d v).changes .flt (by decide)
  refine ⟨v, (entryTimeout_due hp h2 h5 hd).trans run, ?_, ?_, (out.changes.mono (by decide)).trans (changes_passed_undone pv)⟩
  · rw [pdom_passed pv]
    exact congrArg (fun q : PDom => { q with phase := 4, gate := false }) ((out.dom d).trans (congrArg PDom.sansWake hp))
  · rw [fltOf, kept, ← fltOf, pv.st]
    exact fault_st (by decide)

end

end Sys2Proof.Machine
end

section
/-!
SUPPORT. The statement about entries (R442 to R445, R455): each abort point, abandoned or passed, and the end of an entry.
-/

namespace Sys2Proof.Machine

/-! ## Abort points (Table 14-5) -/

section
variable {d : Nat} {p : PDom} {s : State}

/-- The cycle of an abort point after A, and the one in which the domain is ON again, lie within 128 cycles of A. -/
theorem abortPoint_cycles : ∀ n ≤ 4, [0, 0, 16, 32, 64].getD n 0 ≤ 128 ∧ [0, 0, 32, 64, 128].getD n 0 ≤ 128 := by decide

theorem abortPoint_due (hp : pdom s d = p) (h2 : p.phase = 2) (h0 : 0 < p.point) (h4 : p.point ≤ 4)
    (hd : p.a + [0, 0, 16, 32, 64].getD p.point 0 ≤ s.tim.now) :
    abortPoint d s = if p.wake = 0 then passPoint d p s else undoEntry d (p.a + [0, 0, 32, 64, 128].getD p.point 0) s := by
  subst hp
  unfold abortPoint
  extract_lets q due s0 r
  have here : s0 = s := waitUntil_past hd
  have same : r = pdom s d := congrArg (fun u => pdom u d) here
  rw [if_neg (by simp only [q]; omega), here, if_neg (Nat.not_lt.mpr hd), same]

theorem passPoint_isolates (h : p.point = 1) :
    (pdom (passPoint d p s) d).sansWake = PDom.sansWake { p with iso := true, point := 2 } ∧
      Changes (.pwr :: .regs :: .tst :: faulted) s (passPoint d p s) := by
  have left := powerKeeps_domLeaves d (setPdom d { p with iso := true, point := 2 } s)
  rw [passPoint, if_pos h]
  exact ⟨(left.dom d).trans (congrArg _ pdom_setPdom_same),
    ((changes_setPdom _ _ s).mono (by decide)).trans (left.changes.mono (by decide))⟩

theorem passPoint_stops (h : p.point = 2) : passPoint d p s = setPdom d { p with point := 3 } s := by
  simp [passPoint, h]

/-- R455: PWR_RETSEL is sampled. -/
theorem passPoint_retains (h : p.point = 3) : passPoint d p s = setPdom d { p with
    ret := p.cur == some 1
    kept := if p.cur = some 1 then BitVec.ofNat 2 (regF s (pagePWR + 0x1200 + 4 * d) 0 2) else 0
    point := 4 } s := by
  simp [passPoint, h]

theorem passPoint_gates (h : p.point = 4) : passPoint d p s = setPdom d { p with gate := true, point := 5 } s := by
  simp [passPoint, h]

/-- R442: a wake event raised before the point abandons the entry; the undo steps have passed already. -/
theorem abortPoint_abandons_at_once (hp : pdom s d = p) (h2 : p.phase = 2) (hw : p.wake ≠ 0) (h0 : 0 < p.point) (h4 : p.point ≤ 4)
    (hd : p.a + 128 ≤ s.tim.now) : abortPoint d s = undone d (undoing d s) := by
  have cycles := abortPoint_cycles p.point h4
  rw [abortPoint_due hp h2 h0 h4 (by omega), if_neg hw, undoEntry_at_once (by omega)]

/-- R442: the same, where the undo steps still take their cycles. -/
theorem abortPoint_abandons {due : Nat} (hp : pdom s d = p) (h2 : p.phase = 2) (hw : p.wake ≠ 0) (h0 : 0 < p.point) (h4 : p.point ≤ 4)
    (hd : p.a + [0, 0, 16, 32, 64].getD p.point 0 ≤ s.tim.now) (hs : Still s) (he : due = p.a + [0, 0, 32, 64, 128].getD p.point 0)
    (hl : s.tim.now < due) (hb : s.tim.started = true → due - s.tim.now < toNextBeat s)
    (hn : s.tim.started = false → startCyc s = none) :
    ∃ v, Passed (due - s.tim.now) (undoing d s) v ∧ abortPoint d s = undone d v := by
  obtain ⟨hz, hq⟩ := hs
  obtain ⟨v, pv, run⟩ := undoEntry_passes (d := d) hz hl hb hn (.inl hq)
  exact ⟨v, pv, by rw [abortPoint_due hp h2 h0 h4 hd, if_neg hw, ← he, run]⟩

/-! ## PWC_PACK (R444, R454) -/

/-- The supply of a domain has gone: it is in the state that its request asked for. -/
def supplyGone (d : Nat) (s : State) : State :=
  setPdom d { pdom s d with state := (pdom s d).cur.getD 2, point := 0, a := s.tim.now } s

theorem ackRise_gone (h2 : (pdom s d).phase = 2) (h5 : (pdom s d).point = 5) :
    ackRise d s = nextReq d (reqDone d (loseMemories d (pdom s d).kept (supplyGone d s))) := by
  simp [ackRise, supplyGone, h2, h5]

/-- The request of a domain ends with DONE (R451, R452). -/
theorem powerKeeps_doneNote (d : Nat) (s : State) : PowerKeeps losing s (doneNote d s) := (powerKeeps_notice _ _ _).mono

theorem sansWake_reqDone {q : PDom} (h : (pdom s d).sansWake = q.sansWake) :
    (pdom (reqDone d s) d).sansWake = PDom.sansWake { q with res := 1, cause := 0, cur := none, phase := 0 } :=
  calc (pdom (reqDone d s) d).sansWake
    _ = (pdom (endReq d 1 0 s) d).sansWake := (powerKeeps_doneNote d _).dom d
    _ = PDom.sansWake { pdom s d with res := 1, cause := 0, cur := none, phase := 0 } := congrArg _ pdom_setPdom_same
    _ = _ := congrArg (fun r : PDom => { r with res := 1, cause := 0, cur := none, phase := 0 }) h

/-- PWC_PACK rises: the domain has lost its memories in the state asked for, and its request is done. -/
theorem ackRise_spec (hp : pdom s d = p) (h2 : p.phase = 2) (h5 : p.point = 5) (hq : p.queued = none) (hr : d = domHP → s.hrd.ring = []) :
    (pdom (ackRise d s) d).sansWake =
        PDom.sansWake { p with state := p.cur.getD 2, point := 0, a := s.tim.now, res := 1, cause := 0, cur := none, phase := 0 } ∧
      Changes losing s (ackRise d s) := by
  subst hp
  have lost := powerKeeps_loseMemories (kept := (pdom s d).kept) (s := supplyGone d s) hr
  have dom := sansWake_reqDone ((lost.dom d).trans (congrArg PDom.sansWake pdom_setPdom_same))
  have ended : Changes losing s (reqDone d (loseMemories d (pdom s d).kept (supplyGone d s))) :=
    ((((changes_setPdom d _ s).mono (by decide)).trans lost.changes).trans ((changes_setPdom d _ _).mono (by decide))).trans
      (powerKeeps_doneNote d _).changes
  rw [ackRise_gone h2 h5, nextReq_none ((congrArg PDom.queued dom :).trans hq)]
  exact ⟨dom, ended⟩

end

/-! ## The commands -/

section
variable {dom : BitVec 7} {p : PDom} {s : State}

theorem runs_passPoint (hp : pdom s dom.toNat = p) (h2 : p.phase = 2) (hw : p.wake = 0) (h0 : 0 < p.point) (h4 : p.point ≤ 4)
    (hd : p.a + [0, 0, 16, 32, 64].getD p.point 0 ≤ s.tim.now) :
    Runs (.entryAbortPoint dom) s (passPoint dom.toNat p (begin_ s)) :=
  congrArg Host.Outcome.next ((abortPoint_due (s := begin_ s) hp h2 h0 h4 hd).trans (if_pos hw))

theorem runs_abandons_at_once (hp : pdom s dom.toNat = p) (h2 : p.phase = 2) (hw : p.wake ≠ 0) (h0 : 0 < p.point) (h4 : p.point ≤ 4)
    (hd : p.a + 128 ≤ s.tim.now) (hq : p.queued = none) :
    ∃ t, Runs (.entryAbortPoint dom) s t ∧ (pdom t dom.toNat).state = p.state ∧ (pdom t dom.toNat).iso = false ∧
      (pdom t dom.toNat).ret = false ∧ (pdom t dom.toNat).gate = false ∧ (pdom t dom.toNat).cur = none ∧ (pdom t dom.toNat).res = 3 ∧
      t.pwr.lwDom = dom.toNat ∧ t.pwr.lwSrc = p.wake ∧ t.pwr.lwOut = 1 + p.point ∧ Changes controlling s t := by
  have run := abortPoint_abandons_at_once (s := begin_ s) hp h2 hw h0 h4 hd
  have hv : pdom (undoing dom.toNat (begin_ s)) dom.toNat = { p with phase := 4, gate := false } := pdom_undoing.trans (hp ▸ rfl)
  have h5 : p.point ≠ 5 := by omega
  obtain ⟨hdom, lwDom, lwSrc, lwOut⟩ := undone_abandoned_spec hv rfl h5 hq
  obtain ⟨w, c, e⟩ := PDom.exists_wake hdom
  have hch := ((changes_undoing dom.toNat (begin_ s)).mono (by decide)).trans (controls_undone dom.toNat _).changes
  refine ⟨_, congrArg Host.Outcome.next run, ?_⟩
  rw [e]
  exact ⟨rfl, rfl, rfl, rfl, rfl, rfl, lwDom, lwSrc, lwOut, hch.of_begin⟩

theorem runs_abandons {due : Nat} (hp : pdom s dom.toNat = p) (h2 : p.phase = 2) (hw : p.wake ≠ 0) (h0 : 0 < p.point) (h4 : p.point ≤ 4)
    (hd : p.a + [0, 0, 16, 32, 64].getD p.point 0 ≤ s.tim.now) (hq : p.queued = none) (hs : Still s)
    (he : due = p.a + [0, 0, 32, 64, 128].getD p.point 0) (hl : s.tim.now < due)
    (hb : s.tim.started = true → due - s.tim.now < toNextBeat s) (hn : s.tim.started = false → startCyc s = none) :
    ∃ t, Runs (.entryAbortPoint dom) s t ∧ t.tim.now = due ∧ (pdom t dom.toNat).state = p.state ∧ (pdom t dom.toNat).iso = false ∧
      (pdom t dom.toNat).gate = false ∧ (pdom t dom.toNat).cur = none ∧ (pdom t dom.toNat).res = 3 ∧ Changes unwinding s t := by
  obtain ⟨v, pv, run⟩ := abortPoint_abandons (s := begin_ s) hp h2 hw h0 h4 hd hs he hl hb hn
  have hv : pdom v dom.toNat = { p with phase := 4, gate := false } := (pdom_passed pv).trans (hp ▸ rfl)
  have h5 : p.point ≠ 5 := by omega
  obtain ⟨hdom, -⟩ := undone_abandoned_spec hv rfl h5 hq
  obtain ⟨w, c, e⟩ := PDom.exists_wake hdom
  have tim : (undone dom.toNat v).tim = v.tim := (controls_undone _ v).changes .tim (by decide)
  have now : (undone dom.toNat v).tim.now = due := by
    rw [tim, pv.now]
    exact Nat.add_sub_of_le (Nat.le_of_lt hl)
  refine ⟨_, congrArg Host.Outcome.next run, now, ?_⟩
  rw [e]
  exact ⟨rfl, rfl, rfl, rfl, rfl, (changes_passed_undone pv).of_begin⟩

theorem runs_ackRise (hp : pdom s dom.toNat = p) (h2 : p.phase = 2) (h5 : p.point = 5) (hq : p.queued = none)
    (hr : dom.toNat = domHP → s.hrd.ring = []) :
    ∃ t, Runs (.powerAckRise dom) s t ∧ (pdom t dom.toNat).state = p.cur.getD 2 ∧ (pdom t dom.toNat).res = 1 ∧
      (pdom t dom.toNat).cur = none ∧ Changes losing s t := by
  obtain ⟨hdom, hch⟩ := ackRise_spec (s := begin_ s) hp h2 h5 hq hr
  obtain ⟨w, c, e⟩ := PDom.exists_wake hdom
  refine ⟨_, rfl, ?_⟩
  rw [e]
  exact ⟨rfl, rfl, rfl, hch.of_begin⟩

/-- R444: the entry that times out runs into its undoing, from a state `v` in which STATE_TMO stands. -/
theorem runs_entryTimeout (hp : pdom s dom.toNat = p) (h2 : p.phase = 2) (h5 : p.point = 5) (hd : p.a + 625000 ≤ s.tim.now) (hs : Still s)
    (hb : s.tim.started = true → 64 < toNextBeat s) (hn : s.tim.started = false → startCyc s = none) :
    ∃ v w c, Runs (.powerEntryTimeout dom) s (undone dom.toNat v) ∧
      pdom v dom.toNat = { p with phase := 4, gate := false, wake := w, wakeAt := c } ∧
      bit (fltOf (undone dom.toNat v) 2).st 0 = true ∧ Changes unwinding s (undone dom.toNat v) := by
  obtain ⟨v, run, hv, flt, hch⟩ := entryTimeout_undone (s := begin_ s) hp h2 h5 hd hs hb hn
  obtain ⟨w, c, e⟩ := PDom.exists_wake hv
  exact ⟨v, w, c, congrArg Host.Outcome.next run, e, flt, hch.of_begin⟩

end

/-! ## The statement -/

/-- Settles O55: a passed point changes its domain alone, an abandoned one ends in the undone entry, at once or when its cycles have
passed; PWC_PACK's rise and its absence end the request. -/
theorem powerEntry : Obligations.PowerEntry := by
  unfold Obligations.PowerEntry
  intro s dom p hp h2
  refine ⟨fun hw hd => ?points, fun hw h0 h4 hd hq => runs_abandons_at_once hp h2 hw h0 h4 hd hq,
    fun due hw h0 h4 hd hq hs he hl hb hn => ?abandoned, fun h5 hq => ⟨fun hr => ?acknowledged, fun hd hs hb hn => ?late⟩,
    fun g h5 hq h0 hg hd hs hb hn => ?queued⟩
  case points =>
    have run (h0 : 0 < p.point) (h4 : p.point ≤ 4) := runs_passPoint hp h2 hw h0 h4 hd
    have set (v : PDom) : Changes [.pwr] s (setPdom dom.toNat v (begin_ s)) := (changes_setPdom _ v _).of_begin
    refine ⟨fun h => ?_, fun h => ?_, fun h => ?_, fun h => ?_⟩ <;> refine ⟨_, run (by omega) (by omega), ?_⟩
    · obtain ⟨hdom, hch⟩ := passPoint_isolates (d := dom.toNat) (s := begin_ s) h
      obtain ⟨w, c, e⟩ := PDom.exists_wake hdom
      rw [e]
      exact ⟨rfl, rfl, rfl, hch.of_begin⟩
    · rw [passPoint_stops h]
      exact ⟨pdom_setPdom_same, set _⟩
    · rw [passPoint_retains h, pdom_setPdom_same]
      exact ⟨rfl, rfl, rfl, rfl, rfl, set _⟩
    · rw [passPoint_gates h]
      exact ⟨pdom_setPdom_same, set _⟩
  case abandoned =>
    obtain ⟨t, run, now, state, iso, gate, cur, res, hch⟩ := runs_abandons hp h2 hw h0 h4 hd hq hs he hl hb hn
    exact ⟨t, run, now, state, iso, gate, cur, res, hch .tre (by decide), hch .regs (by decide), hch .pending (by decide)⟩
  case acknowledged =>
    obtain ⟨t, run, state, res, cur, hch⟩ := runs_ackRise hp h2 h5 hq hr
    exact ⟨t, run, state, res, cur, hch .tim (by decide), hch .regs (by decide), hch .pending (by decide)⟩
  case late =>
    obtain ⟨v, w, c, run, e, flt, hch⟩ := runs_entryTimeout hp h2 h5 hd hs hb hn
    refine ⟨_, run, ?_⟩
    rw [undone_timedOut_spec e rfl h5 hq]
    exact ⟨rfl, rfl, rfl, rfl, rfl, rfl, flt, hch .regs (by decide), hch .tre (by decide), hch .pending (by decide)⟩
  case queued =>
    obtain ⟨v, w, c, run, e, flt, -⟩ := runs_entryTimeout hp h2 h5 hd hs hb hn
    obtain ⟨w', c', next⟩ := undone_timedOut_queued e rfl h5 hq h0 (by omega)
    refine ⟨_, run, ?_⟩
    rw [next]
    exact ⟨rfl, rfl, rfl, rfl, flt⟩

end Sys2Proof.Machine
end

section
/-!
SUPPORT. Every command over the laws of Laws/GoodExec.lean: each completes, keeps the queue, legal registers and a beat within its tick, and
but for seven (`movesClock`) the tick, the beat and the start of the engine. Then the step, the reset state and an idle cycle.
-/

namespace Sys2Proof.Machine

-- one declaration at a time: the package is compiled as one text within a limit of memory
set_option Elab.async false

/-! ## One law for every command -/

/-- The commands that may move the tick, the beat or the start of the engine: the boundary, the two that start the engine, the two resets,
and the general writes, through which GLB_RST can be reached. -/
def movesClock : Instr → Bool
  | .blockReset | .glbRstBlock .. | .registerWrite .. | .hiWriteCommit .. | .beatBoundary | .timeEngineStart | .ppsInEdge => true
  | _ => false

section
variable {pq : Ghost} {c : Instr} {s t : State}

/-- A command that does not move the clock completes, and keeps what the laws name. -/
theorem exec_good (hc : movesClock c = false) (gs : Good pq s) : ∃ t, exec c s = .next t ∧ Good pq t := by
  cases c with
  | blockReset => exact nomatch hc
  | glbRstArm => exact execGlbRstArm_good gs
  | armingExpire => exact execArmingExpire_good gs
  | glbRstBlock => exact nomatch hc
  | fuseWordRead => exact execFuseWordRead_good gs
  | startupPhaseEnd => exact execStartupPhaseEnd_good gs
  | partitionReset => exact execPartitionReset_good gs
  | partitionTableWrite => exact execPartitionTableWrite_good gs
  | registerWrite => exact nomatch hc
  | loReadCapture => exact execLoReadCapture_good gs
  | hiWriteCommit => exact nomatch hc
  | readClearRegister => exact execReadClearRegister_good gs
  | windowRd => exact execWindowRd_good gs
  | windowWr => exact execWindowWr_good gs
  | beatBoundary => exact nomatch hc
  | selectionCommit => exact execSelectionCommit_good gs
  | mapCountReset => exact execMapCountReset_good gs
  | reportCutoff => exact execReportCutoff_good gs
  | tmmAckTimeout => exact execTmmAckTimeout_good gs
  | tmmPendingQueued => exact execTmmPendingQueued_good gs
  | churnPass1 => exact execChurnPass1_good gs
  | churnPass2 => exact execChurnPass2_good gs
  | passLate => exact execPassLate_good gs
  | timeProjection => exact execTimeProjection_good gs
  | dsBlockRequest => exact execDsBlockRequest_good gs
  | upstreamBurst => exact execUpstreamBurst_good gs
  | missedBurst => exact execMissedBurst_good gs
  | reassemblyTimeout => exact execReassemblyTimeout_good gs
  | heardEntryExpire => exact execHeardEntryExpire_good gs
  | lostHoldExpire => exact execLostHoldExpire_good gs
  | terminalIdFree => exact execTerminalIdFree_good gs
  | pswRequest => exact execPswRequest_good gs
  | treeEnableWrite => exact execTreeEnableWrite_good gs
  | prelistSet => exact execPrelistSet_good gs
  | prelistClr => exact execPrelistClr_good gs
  | uplinkFrameReceive => exact execUplinkFrameReceive_good gs
  | pauseReceive => exact execPauseReceive_good gs
  | pfcReceive => exact execPfcReceive_good gs
  | pauseTimerExpire => exact execPauseTimerExpire_good gs
  | fcResend => exact execFcResend_good gs
  | linkDown => exact execLinkDown_good gs
  | linkUp => exact execLinkUp_good gs
  | lagRejoin => exact execLagRejoin_good gs
  | portEnableWrite => exact execPortEnableWrite_good gs
  | uplinkFrameTransmit => exact execUplinkFrameTransmit_good gs
  | cipherResponse => exact execCipherResponse_good gs
  | cipherRequestLost => exact execCipherRequestLost_good gs
  | keyWriteAck => exact execKeyWriteAck_good gs
  | keyTmo => exact execKeyTmo_good gs
  | keyCommandResume => exact execKeyCommandResume_good gs
  | deepWriteAck => exact execDeepWriteAck_good gs
  | deepReadReturn => exact execDeepReadReturn_good gs
  | deepReadLate => exact execDeepReadLate_good gs
  | deepBudgetWrite => exact execDeepBudgetWrite_good gs
  | scrubRead => exact execScrubRead_good gs
  | retireGo => exact execRetireGo_good gs
  | retirementDone => exact execRetirementDone_good gs
  | ringDoorbell => exact execRingDoorbell_good gs
  | consumerDoorbell => exact execConsumerDoorbell_good gs
  | descriptorFetchDone => exact execDescriptorFetchDone_good gs
  | chainFetchDone => exact execChainFetchDone_good gs
  | sendDataFetchDone => exact execSendDataFetchDone_good gs
  | sendFrameStart => exact execSendFrameStart_good gs
  | fillDeliveryStart => exact execFillDeliveryStart_good gs
  | hostWriteAck => exact execHostWriteAck_good gs
  | hostAccessTimeout => exact execHostAccessTimeout_good gs
  | fillRecordIssue => exact execFillRecordIssue_good gs
  | sendRecordIssue => exact execSendRecordIssue_good gs
  | ringDisable => exact execRingDisable_good gs
  | ringContextWrite => exact execRingContextWrite_good gs
  | channelConfigWrite => exact execChannelConfigWrite_good gs
  | ringSet => exact execRingSet_good gs
  | ringQuiesce => exact execRingQuiesce_good gs
  | ringQuiesceDone => exact execRingQuiesceDone_good gs
  | ringResume => exact execRingResume_good gs
  | allocSet => exact execAllocSet_good gs
  | queueSet => exact execQueueSet_good gs
  | admitSerial => exact execAdmit_good gs
  | activate => exact execActivate_good gs
  | quiet => exact execQuiet_good gs
  | resume => exact execResume_good gs
  | release => exact execRelease_good gs
  | disable => exact execDisable_good gs
  | rerange => exact execRerange_good gs
  | discNow => exact execDiscNow_good gs
  | tmmSend => exact execTmmSend_good gs
  | tmmCommandQueued => exact execTmmCommandQueued_good gs
  | keyLoad => exact execKeyLoad_good gs
  | keyErase => exact execKeyErase_good gs
  | keyLut => exact execKeyLut_good gs
  | keySwitch => exact execKeySwitch_good gs
  | emAdd => exact execEmAdd_good gs
  | emMod => exact execEmMod_good gs
  | emDel => exact execEmDel_good gs
  | clsSwap => exact execClsSwap_good gs
  | clsPageSync => exact execClsPageSync_good gs
  | tableUeRewrite => exact execTableUeRewrite_good gs
  | overlayApply => exact execOverlayApply_good gs
  | imageReadDone => exact execImageReadDone_good gs
  | timStart => exact execTimStart_good gs
  | timeEngineStart => exact nomatch hc
  | timRestart => exact execTimRestart_good gs
  | stepGo => exact execStepGo_good gs
  | timHold => exact execTimHold_good gs
  | holdClr => exact execHoldClr_good gs
  | holdWatchdogExpire => exact execHoldWatchdogExpire_good gs
  | traceLost => exact execTraceLost_good gs
  | timIncWrite => exact execTimIncWrite_good gs
  | timSlewWrite => exact execTimSlewWrite_good gs
  | slewEnd => exact execSlewEnd_good gs
  | timEpochRead => exact execTimEpochRead_good gs
  | ppsInEdge => exact nomatch hc
  | ppsInLoss => exact execPpsInLoss_good gs
  | ppsOutEdge => exact execPpsOutEdge_good gs
  | ppsOutEnd => exact execPpsOutEnd_good gs
  | todOutSend => exact execTodOutSend_good gs
  | todInMessage => exact execTodInMessage_good gs
  | sliceWatchdogExpire => exact execSliceWatchdogExpire_good gs
  | tokenWithdrawalDone => exact execTokenWithdrawalDone_good gs
  | handoverReplayStart => exact execHandoverReplayStart_good gs
  | handoverDone => exact execHandoverDone_good gs
  | rotationDue => exact execRotationDue_good gs
  | skmRotNow => exact execSkmRotNow_good gs
  | rotationShadowStart => exact execRotationShadowStart_good gs
  | rotationAbandon => exact execRotationAbandon_good gs
  | restoringRotation => exact execRestoringRotation_good gs
  | selftestPassEnd => exact execSelftestPassEnd_good gs
  | skmCtlRepair => exact execSkmCtlRepair_good gs
  | pwrReq => exact execPwrReq_good gs
  | entryHandshakeDone => exact execEntryHandshakeDone_good gs
  | handshakeDelayLimit => exact execHandshakeDelayLimit_good gs
  | entryAbortPoint => exact execEntryAbortPoint_good gs
  | powerAckRise => exact execPowerAckRise_good gs
  | powerEntryTimeout => exact execPowerEntryTimeout_good gs
  | powerExitStart => exact execPowerExitStart_good gs
  | powerAckFall => exact execPowerAckFall_good gs
  | powerExitDone => exact execPowerExitDone_good gs
  | powerExitTimeout => exact execPowerExitTimeout_good gs
  | sdWake => exact execSdWake_good gs
  | fltStatClear => exact execFltStatClear_good gs
  | fltForce => exact execFltForce_good gs
  | fltMaskWrite => exact execFltMaskWrite_good gs
  | fltVecWrite => exact execFltVecWrite_good gs
  | faultPulseEnd => exact execFaultPulseEnd_good gs
  | faultPinRel => exact execFaultPinRel_good gs
  | faultPinRecoveryEnd => exact execFaultPinRecoveryEnd_good gs
  | cntSelWrite => exact execCntSelWrite_good gs
  | cntValWrite => exact execCntValWrite_good gs
  | cntClr => exact execCntClr_good gs
  | cntSmpCiWrite => exact execCntSmpCiWrite_good gs
  | cntSlotSnap => exact execCntSlotSnap_good gs
  | mrListAccess => exact execMrListAccess_good gs
  | mrSwap => exact execMrSwap_good gs
  | milkRoundStart => exact execMilkRoundStart_good gs
  | milkRoundDone => exact execMilkRoundDone_good gs
  | mrWriteTimeout => exact execMrWriteTimeout_good gs
  | vqProbe => exact execVqProbe_good gs
  | duplicateStateMismatch => exact execDuplicateStateMismatch_good gs
  | tripletVoteDisagree => exact execTripletVoteDisagree_good gs
  | commandOperandRead => exact execCommandOperandRead_good gs

/-- Every command completes, and keeps the queue, legal registers and a beat within its tick. -/
theorem exec_good_free (gs : Good pq.free s) : ∃ t, exec c s = .next t ∧ Good pq.free t := by
  cases hc : movesClock c with
  | false => exact exec_good hc gs
  | true =>
    cases c with
    | blockReset => exact execBlockReset_good gs
    | glbRstBlock => exact execGlbRstBlock_good gs
    | registerWrite => exact execRegisterWrite_good gs
    | hiWriteCommit => exact execHiWriteCommit_good gs
    | beatBoundary => exact execBeatBoundary_good gs
    | timeEngineStart => exact execTimeEngineStart_good gs
    | ppsInEdge => exact execPpsInEdge_good gs
    | _ => exact nomatch hc

theorem good_of_regs (hr : RegsOk s.regs) (hb : s.tim.beat < 10) :
    Good ⟨s.pending, some (s.tim.tick, s.tim.beat, s.tim.started)⟩ s := ⟨rfl, hr, hb, fun _ h => Option.some.inj h⟩

theorem Good.clock {l : List Instr} {k b : Nat} {e : Bool} (h : Good ⟨l, some (k, b, e)⟩ s) :
    s.tim.tick = k ∧ s.tim.beat = b ∧ s.tim.started = e := by simpa using h.clk _ rfl

end

/-- Settles O3: every command answers a next state that keeps the queue. -/
theorem everyCommandCompletes : Obligations.EveryCommandCompletes := by
  unfold Obligations.EveryCommandCompletes
  intro c s hr hb
  obtain ⟨t, run, good⟩ := exec_good_free (c := c) (good_of_regs hr hb).weaken
  exact ⟨t, run, good.pending⟩

/-- Settles O4: the commands that are left out are those that `movesClock` names. -/
theorem onlyBoundariesMoveTheTick : Obligations.OnlyBoundariesMoveTheTick := by
  unfold Obligations.OnlyBoundariesMoveTheTick
  intro c s t hr hb run hbeat hstart hpps hreset hblock hwrite hhi
  have still : movesClock c = false := by
    cases hc : movesClock c with
    | false => rfl
    | true =>
      cases c with
      | beatBoundary => exact absurd rfl hbeat
      | timeEngineStart => exact absurd rfl hstart
      | ppsInEdge => exact absurd rfl hpps
      | blockReset => exact absurd rfl hreset
      | glbRstBlock p => exact absurd rfl (hblock p)
      | registerWrite p a be d => exact absurd rfl (hwrite p a be d)
      | hiWriteCommit p a be d => exact absurd rfl (hhi p a be d)
      | _ => exact nomatch hc
  obtain ⟨u, run', good⟩ := exec_good still (good_of_regs hr hb)
  obtain rfl : u = t := Host.Outcome.next.inj (run'.symm.trans run)
  exact good.clock

/-! ## The step -/

/-- Settles O1: the step takes the front command and runs it with the rest. -/
theorem stepRunsFront : Obligations.StepRunsFront := by
  unfold Obligations.StepRunsFront
  intro c rest s h
  unfold step
  rw [h]

/-- With no command waiting one cycle passes. -/
theorem step_idle {s : State} (h : s.pending = []) : step s = .next (clockTick s) := by
  unfold step
  rw [h]

/-- Settles O5: with a command at the front its law keeps what is legal; with none the law of the idle cycle does. -/
theorem everyStepKeepsLegal : Obligations.EveryStepKeepsLegal := by
  unfold Obligations.EveryStepKeepsLegal
  intro s t ⟨hr, hb, hw⟩ run
  cases hq : s.pending with
  | nil =>
    rw [step_idle hq] at run
    cases run
    have good := clockTick_good (good_of_regs hr hb).weaken
    exact ⟨good.regs, good.beat, by rw [good.pending]; exact hw⟩
  | cons c rest =>
    rw [stepRunsFront c rest s hq] at run
    obtain ⟨u, run', good⟩ := exec_good_free (c := c) (good_of_regs (s := { s with pending := rest }) hr hb).weaken
    obtain rfl : u = t := Host.Outcome.next.inj (run'.symm.trans run)
    refine ⟨good.regs, good.beat, fun x hx => hw x ?_⟩
    rw [good.pending] at hx
    rw [hq]
    exact List.mem_cons_of_mem _ hx

/-! ## The state after reset -/

/-- Settles O6: no register differs from its reset value, and no command waits. -/
theorem resetIsLegal : Obligations.ResetIsLegal := ⟨RegsOk.reset, by decide, nofun⟩

/-- Settles O7: every table of the reset state is empty, so each entry reads as its default. -/
theorem resetState : Obligations.ResetState := by
  unfold Obligations.ResetState
  have active : ∀ i < 8, roleOf State.reset i = .active := by decide
  exact ⟨fun _ => rfl, fun _ => ⟨rfl, rfl⟩, active, rfl, fun _ _ => rfl, fun _ _ => rfl, fun _ _ => rfl, rfl, rfl, rfl, rfl, rfl⟩

end Sys2Proof.Machine
end

section
/-!
SUPPORT. What the passing of cycles is where no Milk Round reads: the clock's own fields, the counters and the counts of the fault sets
alone differ (`ClockPasses`). Then an idle cycle.
-/

namespace Sys2Proof.Machine

-- one declaration at a time: the package is compiled as one text within a limit of memory
set_option Elab.async false

/-! ## Counting -/

/-- Nothing differs but the counters and the fault sets. -/
def CountsAlone (s t : State) : Prop := ∃ flt cnt, t = { s with flt := flt, cnt := cnt }

section
variable {s t u : State}

theorem CountsAlone.refl (s : State) : CountsAlone s s := ⟨_, _, rfl⟩

theorem CountsAlone.trans (h : CountsAlone s t) (k : CountsAlone t u) : CountsAlone s u := by
  obtain ⟨_, _, rfl⟩ := h
  obtain ⟨_, _, rfl⟩ := k
  exact ⟨_, _, rfl⟩

theorem CountsAlone.foldl {α : Type} {g : State → α → State} (h : ∀ s x, CountsAlone s (g s x)) (l : List α) (s : State) :
    CountsAlone s (l.foldl g s) := by
  induction l generalizing s with
  | nil => exact .refl s
  | cons x l ih => exact (h s x).trans (ih _)

theorem countsAlone_countO (i evt obj amt : Nat) (s : State) : CountsAlone s (countO i evt obj amt s) := by
  unfold countO
  split
  · exact .refl s
  · exact ⟨_, _, rfl⟩

theorem countsAlone_persistCount (n : Nat) (s : State) : CountsAlone s (persistCount n s) :=
  .foldl (fun u e => by
    dsimp only
    split
    · exact ⟨_, _, rfl⟩
    · exact .refl u) _ s

theorem countsAlone_pauseCount (n : Nat) (s : State) : CountsAlone s (pauseCount n s) :=
  .foldl (fun u e => by
    refine CountsAlone.trans ?_ (.foldl (fun w p => countsAlone_countO _ _ _ _ w) _ _)
    split
    · exact countsAlone_countO _ _ _ _ u
    · exact .refl u) _ s

theorem countsAlone_backCells (n : Nat) (s : State) : CountsAlone s (backCells n s) :=
  .foldl (fun u k => by
    dsimp only
    split
    · exact CountsAlone.trans ⟨_, _, rfl⟩ (countsAlone_countO _ _ _ _ _)
    · exact .refl u) _ s

theorem countsAlone_cycleCounts (n : Nat) (s : State) : CountsAlone s (cycleCounts n s) :=
  ((countsAlone_persistCount n s).trans (countsAlone_pauseCount n _)).trans (countsAlone_backCells n _)

end

/-! ## The clock -/

/-- Nothing differs but the counters, the fault sets, and of the clock its cycle, its time and what its rate was. -/
def ClockPasses (n : Nat) (s t : State) : Prop :=
  ∃ flt cnt time slew segs iw sw, t = { s with
    flt := flt, cnt := cnt
    tim := { s.tim with now := s.tim.now + n, time := time, slew := slew, segs := segs, incWas := iw, slewWas := sw } }

section
variable {m n : Nat} {s t u : State}

theorem ClockPasses.refl (s : State) : ClockPasses 0 s s := ⟨_, _, _, _, _, _, _, rfl⟩

theorem ClockPasses.trans (h : ClockPasses m s t) (k : ClockPasses n t u) : ClockPasses (m + n) s u := by
  obtain ⟨_, _, _, _, _, _, _, rfl⟩ := h
  obtain ⟨_, _, _, _, _, _, _, rfl⟩ := k
  exact ⟨_, _, _, _, _, _, _, by rw [Nat.add_assoc]⟩

theorem ClockPasses.changes (h : ClockPasses n s t) : Changes [.flt, .tim, .cnt] s t := by
  obtain ⟨_, _, _, _, _, _, _, rfl⟩ := h
  exact fun c hc => by cases c <;> simp [Kept] at hc ⊢

theorem ClockPasses.now (h : ClockPasses n s t) : t.tim.now = s.tim.now + n := by
  obtain ⟨_, _, _, _, _, _, _, rfl⟩ := h; rfl

theorem ClockPasses.tick (h : ClockPasses n s t) : t.tim.tick = s.tim.tick ∧ t.tim.beat = s.tim.beat ∧ t.tim.started = s.tim.started := by
  obtain ⟨_, _, _, _, _, _, _, rfl⟩ := h; exact ⟨rfl, rfl, rfl⟩

theorem ClockPasses.zero (h : ClockPasses n s t) : t.tim.zero = s.tim.zero := by
  obtain ⟨_, _, _, _, _, _, _, rfl⟩ := h; rfl

theorem ClockPasses.out (h : ClockPasses n s t) : t.out = s.out := by
  obtain ⟨_, _, _, _, _, _, _, rfl⟩ := h; rfl

/-- What counts in `n` cycles; where a counter was set in this cycle, the clock has moved on by one in between. -/
theorem passCounts_alone (n : Nat) (s : State) :
    ∃ flt cnt now, passCounts n s = { s with flt := flt, cnt := cnt, tim := { s.tim with now := now } } := by
  unfold passCounts
  split
  · obtain ⟨_, _, e⟩ := countsAlone_cycleCounts 1 s
    dsimp only
    rw [e]
    obtain ⟨_, _, e'⟩ := countsAlone_cycleCounts (n - 1)
      { cycleCounts 1 s with tim := { (cycleCounts 1 s).tim with now := s.tim.now + 1 } }
    rw [e] at e'
    exact ⟨_, _, _, e'⟩
  · obtain ⟨_, _, e⟩ := countsAlone_cycleCounts n s
    exact ⟨_, _, _, e⟩

theorem clockPasses_passRate (n : Nat) (s : State) : ClockPasses n s (passRate n s) := by
  unfold passRate
  split
  · next h => subst h; exact .refl s
  · obtain ⟨_, _, _, e⟩ := passCounts_alone n s
    dsimp only
    rw [e]
    split
    · exact ⟨_, _, _, _, _, _, _, rfl⟩
    · exact ⟨_, _, _, _, _, _, _, rfl⟩

/-- The clock at the old rate differs in its rate alone (R341). -/
theorem oldRate_eq {o : State} (h : oldRate s = some o) :
    ∃ inc slew, o = { s with tim := { s.tim with inc := inc, slew := slew, incWas := none, slewWas := none } } := by
  unfold oldRate at h
  extract_lets at h
  split at h
  · cases h
  · exact ⟨_, _, (Option.some.inj h).symm⟩

/-- R341: the first cycle passes at the old rate, and then the new one is in force. -/
theorem clockPasses_oldCycle {o : State} (h : oldRate s = some o) (slew : Int) :
    ClockPasses 1 s { passRate 1 o with tim := { (passRate 1 o).tim with inc := s.tim.inc, slew := slew } } := by
  obtain ⟨_, _, rfl⟩ := oldRate_eq h
  obtain ⟨_, _, _, _, _, _, _, e⟩ := clockPasses_passRate 1 { s with tim := _ }
  rw [e]
  exact ⟨_, _, _, _, _, _, _, rfl⟩

theorem clockPasses_passClk (n : Nat) (s : State) : ClockPasses n s (passClk n s) := by
  unfold passClk
  split
  · exact clockPasses_passRate n s
  · next o ho =>
    split at ho
    · cases ho
    · next hn =>
      have whole := (clockPasses_oldCycle ho (slewNext s o)).trans (clockPasses_passRate (n - 1) _)
      rwa [show 1 + (n - 1) = n by omega] at whole

/-- While no round reads, cycles are the clock's alone. -/
theorem advanceClk_noRound (h : s.cnt.round = none) (n : Nat) : advanceClk n s = passClk n s := by
  simp [advanceClk, h]

theorem clockPasses_advanceClk (h : s.cnt.round = none) (n : Nat) : ClockPasses n s (advanceClk n s) := by
  rw [advanceClk_noRound h]
  exact clockPasses_passClk n s

/-- Where cycle 0 of the beat is over, nothing is left of it to do. -/
theorem endZero_passed (h : s.tim.zero = false) : endZero s = s := by simp [endZero, h]

/-- Where nothing falls due, `n` cycles are the clock's alone. -/
theorem lapse_still (h : Still s) (n : Nat) : lapse n s = advanceClk n s := by
  unfold lapse
  split
  · next hn => subst hn; exact (advanceClk_zero s).symm
  · dsimp only
    rw [endZero_passed h.1, moveClk_none h.2, Nat.add_sub_cancel_left]

theorem clockPasses_lapse (h : Still s) (hr : s.cnt.round = none) (n : Nat) : ClockPasses n s (lapse n s) := by
  rw [lapse_still h]
  exact clockPasses_advanceClk hr n

/-- Within a beat, and before the engine has been told to start, a step with no command waiting is one cycle. -/
theorem clockTick_within (h : s.tim.started = true ∧ 1 < toNextBeat s ∨ s.tim.started = false ∧ s.tim.startWait = none) :
    clockTick s = lapse 1 (begin_ s) := by
  unfold clockTick
  dsimp only
  rcases h with ⟨hs, hb⟩ | ⟨hs, hw⟩
  · have later : toNextBeat (begin_ s) ≠ 1 := Nat.ne_of_gt hb
    rw [if_pos (show (begin_ s).tim.started = true from hs), if_neg later]
  · have unset : startCyc (begin_ s) = none := by simp [startCyc, begin_, hw]
    rw [if_neg (by simp [begin_, hs]), unset]

end

/-- Settles O2: the cycle is `lapse 1`; it keeps the tick by its law, and where nothing falls due it is the clock's alone. -/
theorem idleStepIsOneCycle : Obligations.IdleStepIsOneCycle := by
  unfold Obligations.IdleStepIsOneCycle
  intro s hq hc
  have run : step s = .next (lapse 1 (begin_ s)) := by rw [step_idle hq, clockTick_within hc]
  refine ⟨fun hr hb => ?_, fun hs hn => ?_⟩
  · have good := lapse_good (n := 1) (begin__good (good_of_regs hr hb))
    obtain ⟨htick, hbeat, hst⟩ := good.clock
    exact ⟨_, run, htick, hbeat, hst, good.pending.trans hq⟩
  · have pass : ClockPasses 1 (begin_ s) (lapse 1 (begin_ s)) := clockPasses_lapse (s := begin_ s) hs hn 1
    obtain ⟨htick, hbeat, -⟩ := pass.tick
    have k := pass.changes
    exact ⟨_, run, pass.now, htick, hbeat, Eq.trans (k .pending (by simp)) hq, pass.out, pass.zero.trans hs.1, k .glb (by simp),
      k .qbm (by simp), k .tre (by simp), k .chn (by simp), k .upl (by simp), k .cpe (by simp), k .hrd (by simp), k .pwr (by simp)⟩

end Sys2Proof.Machine
end

section
/-!
SUPPORT. Block reset and arming (R481, R482), start-up (R484 to R486, R538), and the owner of a tree (R499).
-/

namespace Sys2Proof.Machine

-- one declaration at a time: the package is compiled as one text within a limit of memory
set_option Elab.async false

section
variable {s : State} {part : BitVec 6}

/-- A command that is due has nothing to wait for. -/
theorem waitUntil_due {c : Nat} (h : c ≤ s.tim.now) : waitUntil c s = s := if_pos h

/-- Where nothing falls due, a command that waits for its cycle lets cycles pass. -/
theorem waitUntil_still {c : Nat} (h : Still s) : ∃ n, waitUntil c s = advanceClk n s := by
  unfold waitUntil
  split
  · exact ⟨0, (advanceClk_zero s).symm⟩
  · split
    · exact ⟨_, lapse_still h _⟩
    · split
      · exact ⟨_, lapse_still h _⟩
      · exact ⟨_, lapse_still h _⟩

theorem armOpen_eq_false (h : s.glb.armed = false ∨ s.glb.armAt + 1024 < s.tim.now) : armOpen s = false := by
  rcases h with h | h <;> simp [armOpen, h]

/-- R482: a write of GLB_RST.BLOCK by partition 0. -/
theorem runs_glbRstBlock (hp : part = 0) : Runs (.glbRstBlock part) s (rstBlock (begin_ s)) := by subst hp; rfl

theorem runs_glbRstArm (hp : part = 0) : Runs (.glbRstArm part) s (rstArm (begin_ s)) := by subst hp; rfl

/-- R482: past its 1,024 cycles an arming is closed, with nothing to wait for. -/
theorem armingExpire_past (h : s.glb.armed = false ∨ s.glb.armAt + 1024 < s.tim.now) :
    armingExpire s = { s with glb := { s.glb with armed := false } } := by
  have waits : (if s.glb.armed then waitUntil (s.glb.armAt + 1025) s else s) = s := by
    rcases h with h | h
    · simp [h]
    · rw [waitUntil_due (by omega), ite_self]
  simp [armingExpire, waits, armOpen_eq_false h]

end

/-- Settles O8: the effect of GLB_RST.BLOCK turns on whether an arming is open. -/
theorem blockResetAndArming : Obligations.BlockResetAndArming := by
  unfold Obligations.BlockResetAndArming
  intro s part
  refine ⟨rfl, fun hp ha hn => ?_, fun hp h => ?_, fun hp => runs_glbRstArm hp, fun h => ?_⟩
  · have opened : armOpen (begin_ s) = true := by simp [armOpen, begin_, ha, hn]
    have run := runs_glbRstBlock (s := s) hp
    rwa [rstBlock, if_pos opened] at run
  · have closed : armOpen (begin_ s) = false := armOpen_eq_false h
    have run := runs_glbRstBlock (s := s) hp
    rwa [rstBlock, if_neg (by simp [closed])] at run
  · exact congrArg Host.Outcome.next (armingExpire_past (s := begin_ s) h)

/-! ## Start-up -/

section
variable {s : State} {data : Word} {st : SelfTest}

/-- Start-up with one word more of the fuse image. -/
def withFuse (data : Word) (s : State) : State := { s with glb := { s.glb with fuse := data :: s.glb.fuse } }

/-- R538: what a fuse word of phase 1 does once it has joined the image. -/
theorem fuseRead_joins (h1 : s.glb.phase = 1) (hl : s.glb.fuse.length < 1024) : fuseRead data s =
    if s.glb.fuse.length + 1 < 1024 then emit (.fuseReq (s.glb.fuse.length + 1)) (withFuse data s)
    else if fuseGood (data :: s.glb.fuse).reverse then
      { withFuse data s with glb := { (withFuse data s).glb with fuseOk := true } }
    else startStop (fault 0 1 (w32 1023) 0 0 0 0 (withFuse data s)) := by
  have open_ : ¬(s.glb.phase ≠ 1 ∨ 1024 ≤ s.glb.fuse.length) := by omega
  unfold fuseRead
  rw [if_neg open_]
  rfl

/-- R486: what phase 2 ends in. -/
theorem repairEnd_phase : (repairEnd st s).glb.phase =
    if st.memFail = none ∧ (badSlices s st).length ≤ 1 ∧ (badGroups s st).length ≤ 1 then 3 else 7 := by
  unfold repairEnd
  cases st.memFail with
  | some x => rfl
  | none =>
    dsimp only
    split
    · next h => rw [if_neg (by omega)]; rfl
    · next h => rw [if_pos ⟨rfl, by omega, by omega⟩]

/-- The fuse image, and so what it says, does not change as cycles pass. -/
theorem badSlices_of_glb {t : State} (h : t.glb = s.glb) : badSlices t st = badSlices s st := by
  simp [badSlices, fuseField, fuseWords, h]

theorem badGroups_of_glb {t : State} (h : t.glb = s.glb) : badGroups t st = badGroups s st := by
  simp [badGroups, fuseField, fuseWords, h]

theorem phaseEnd_selfTest (h2 : s.glb.phase = 2) (hs : Still s) : (phaseEnd st s).glb.phase =
    if st.memFail = none ∧ (badSlices s st).length ≤ 1 ∧ (badGroups s st).length ≤ 1 then 3 else 7 := by
  obtain ⟨n, e⟩ := waitUntil_still (c := 2513568) hs
  have glb : (advanceClk n s).glb = s.glb := advanceClk_glb n s
  rw [show phaseEnd st s = repairEnd st (waitUntil 2513568 s) by simp [phaseEnd, h2], e, repairEnd_phase,
    badSlices_of_glb glb, badGroups_of_glb glb]

theorem runs_fuseWord (h1 : s.glb.phase = 1) (hl : s.glb.fuse.length < 1024) :
    ∃ t, Runs (.fuseWordRead data) s t ∧ t.glb.fuse = data :: s.glb.fuse ∧ t.tim = s.tim ∧ t.regs = s.regs ∧ t.qbm = s.qbm ∧
      (s.glb.fuse.length < 1023 → t.out = [.fuseReq (s.glb.fuse.length + 1)] ∧ t.glb.phase = 1) ∧
      (s.glb.fuse.length = 1023 → fuseGood (data :: s.glb.fuse).reverse = true → t.glb.fuseOk = true ∧ t.glb.phase = 1) ∧
      (s.glb.fuse.length = 1023 → fuseGood (data :: s.glb.fuse).reverse = false → t.glb.phase = 7) := by
  refine ⟨_, congrArg Host.Outcome.next (fuseRead_joins (s := begin_ s) h1 hl), ?_⟩
  rw [show (begin_ s).glb = s.glb from rfl]
  split
  · exact ⟨rfl, rfl, rfl, rfl, fun _ => ⟨rfl, h1⟩, fun _ => by omega, fun _ => by omega⟩
  · split
    · next hg => exact ⟨rfl, rfl, rfl, rfl, fun _ => by omega, fun _ _ => ⟨rfl, h1⟩, fun _ hb => nomatch hg.symm.trans hb⟩
    · next hg =>
      refine ⟨?_, ?_, ?_, ?_, fun _ => by omega, fun _ hb => absurd hb hg, fun _ _ => rfl⟩ <;> simp [startStop, fault, withFuse]

theorem runs_phaseEnd : Runs (.startupPhaseEnd st) s (phaseEnd st (begin_ s)) := rfl

theorem phaseEnd_first (h : s.glb.phase = 0) : (phaseEnd st s).glb.phase = 1 ∧ Out.fuseReq 0 ∈ (phaseEnd st s).out := by
  simp [phaseEnd, h, emit]

theorem phaseEnd_fuse (h : s.glb.phase = 1) (ho : s.glb.fuseOk = true) : (phaseEnd st s).glb.phase = 2 := by simp [phaseEnd, h, ho]

theorem phaseEnd_last (h : s.glb.phase = 3) : (phaseEnd st s).glb.phase = 4 := by simp [phaseEnd, h]

end

/-- Settles O9: the words of the fuse image, then one phase after the other. -/
theorem startup : Obligations.Startup := by
  unfold Obligations.Startup
  refine ⟨fun s data => runs_fuseWord, fun s st => ⟨fun h => ?_, fun h ho => ?_, fun h hs => ?_, fun h => ?_⟩⟩
  · exact ⟨_, runs_phaseEnd, phaseEnd_first (s := begin_ s) h⟩
  · exact ⟨_, runs_phaseEnd, phaseEnd_fuse (s := begin_ s) h ho⟩
  · exact ⟨_, runs_phaseEnd, phaseEnd_selfTest (s := begin_ s) h hs⟩
  · exact ⟨_, runs_phaseEnd, phaseEnd_last (s := begin_ s) h⟩

/-! ## The owner of a tree -/

/-- READY, but the owner of tree 0 holds a reserved bit: no legal state, since R18 makes it read 0. -/
def ownerReserved : State := setReg (rPrtTree 0) 0x40 { State.reset with glb := { Glb.reset with phase := 4 } }

/-- Refutes O10: the statement asks no legal registers. A write of an owner keeps its reserved bits (only RegsOk makes them 0), and so in
`ownerReserved` tree 0 is owned by 64 after a write of 0, not by 0. -/
theorem not_partitionResetAndOwner : ¬ Obligations.PartitionResetAndOwner := by
  unfold Obligations.PartitionResetAndOwner
  rintro ⟨-, owner⟩
  obtain ⟨written, -⟩ := owner ownerReserved 0 0x010000 0 rfl (by decide)
  obtain ⟨t, run, howner, -⟩ := written (by decide)
  have kept : ∃ u, Runs (.partitionTableWrite 0 0x010000 0xF 0) ownerReserved u ∧ treeOwner u 0 = 64 := ⟨_, rfl, by decide⟩
  obtain ⟨u, run', hu⟩ := kept
  obtain rfl : u = t := Host.Outcome.next.inj (run'.symm.trans run)
  exact absurd (hu.symm.trans howner) (by decide)

end Sys2Proof.Machine
end

section
/-!
SUPPORT. What a register reads does not depend on what has crossed the edge: a command's start leaves it as it was.
-/

namespace Sys2Proof.Machine

-- one declaration at a time: the package is compiled as one text within a limit of memory
set_option Elab.async false

section
variable (s : State) (p a i n : Nat)

theorem ite_same {α : Type} {c : Prop} [Decidable c] {x x' y y' : α} (hx : x = x') (hy : y = y') :
    (if c then x else y) = if c then x' else y' := by rw [hx, hy]

theorem readGlb_begin : readGlb (begin_ s) a = readGlb s a := by
  unfold readGlb
  extract_lets
  repeat' refine ite_same ?_ ?_
  all_goals rfl

theorem readTim_begin : readTim (begin_ s) p a = readTim s p a := by
  unfold readTim
  extract_lets
  repeat' refine ite_same ?_ ?_
  all_goals rfl

theorem readTst_begin : readTst (begin_ s) a = readTst s a := by
  unfold readTst
  extract_lets
  repeat' refine ite_same ?_ ?_
  all_goals rfl

theorem readCnt_begin : readCnt (begin_ s) p a = readCnt s p a := by
  unfold readCnt
  extract_lets
  repeat' refine ite_same ?_ ?_
  all_goals rfl

theorem readPwr_begin : readPwr (begin_ s) a = readPwr s a := by
  have dom (d : Nat) : pdom (begin_ s) d = pdom s d := rfl
  simp only [readPwr, begin__pwr, dom]

theorem readHrd_begin : readHrd (begin_ s) p a = readHrd s p a := (rfl)
theorem readQbm_begin : readQbm (begin_ s) p a = readQbm s p a := (rfl)
theorem readCls_begin : readCls (begin_ s) p a = readCls s p a := (rfl)
theorem readTre_begin : readTre (begin_ s) p a = readTre s p a := (rfl)
theorem readUpl_begin : readUpl (begin_ s) a = readUpl s a := (rfl)
theorem readCpe_begin : readCpe (begin_ s) a = readCpe s a := (rfl)
theorem readSkm_begin : readSkm (begin_ s) a = readSkm s a := (rfl)
theorem readSub_begin : readSub (begin_ s) i a = readSub s i a := (rfl)
theorem reg_begin : reg (begin_ s) a = reg s a := (rfl)
theorem regF_begin : regF (begin_ s) a i n = regF s a i n := (rfl)
theorem windowReg_begin : windowReg (begin_ s) p a = windowReg s p a := (rfl)
theorem treesOf_begin : treesOf (begin_ s) i = treesOf s i := (rfl)
theorem portsOf_begin : portsOf (begin_ s) i = portsOf s i := (rfl)
theorem roleOf_begin : roleOf (begin_ s) i = roleOf s i := (rfl)

theorem readVal_begin : readVal (begin_ s) p a = readVal s p a := by
  have page : readVal.go (begin_ s) p a = readVal.go s p a := by
    have glb : (begin_ s).glb = s.glb := rfl
    have qbm : (begin_ s).qbm = s.qbm := rfl
    simp only [readVal.go, readGlb_begin, readTim_begin, readTst_begin, readCnt_begin, readPwr_begin, readHrd_begin, readQbm_begin,
      readCls_begin, readTre_begin, readUpl_begin, readCpe_begin, readSkm_begin, reg_begin, regF_begin, windowReg_begin, treesOf_begin,
      portsOf_begin, roleOf_begin, glb, qbm]
  simp only [readVal, page, readSub_begin]

end

end Sys2Proof.Machine
end

section
/-!
SUPPORT. The pairs of the register port and the registers that a read clears (R20, R21, R522). Where the stored pairs stand (`PairAt`), and
that a write of one does no more than hold its value; then reads, writes, and the pairs that the time engine and the counters hold.
-/

namespace Sys2Proof.Machine

-- one declaration at a time: the package is compiled as one text within a limit of memory
set_option Elab.async false

/-- The page bases that `page_bases` leaves out. -/
theorem page_bases_more : pageCPE = 0x1E0000 ∧ pageSLC = 0x200000 ∧ pageSKM = 0x2A0000 ∧ pageTST = 0x2C0000 := by decide

/-! ## Reads -/

section
variable {s : State} {p a hi q : Nat} {w : Word} {c : Instr} {part : BitVec 6} {addr : BitVec 24}

theorem regRead_permitted (h : CanRead s p a) : regRead p a 0xF s = emit (.regRead (readPort s p a).1) (readPort s p a).2 := by
  obtain ⟨hr, hf, c, ha, hm⟩ := h
  simp [regRead, ha, hr, hm, hf]

theorem runs_read (h : CanRead s part.toNat addr.toNat) (hc : c = .loReadCapture part addr 0xF ∨ c = .readClearRegister part addr 0xF) :
    Runs c s (emit (.regRead (readPort (begin_ s) part.toNat addr.toNat).1) (readPort (begin_ s) part.toNat addr.toNat).2) := by
  have run : Runs c s (regRead part.toNat addr.toNat 0xF (begin_ s)) := by rcases hc with rfl | rfl <;> rfl
  rwa [regRead_permitted (s := begin_ s) h] at run

/-- R20: a captured _HI value is returned and dropped. -/
theorem readPort_captured (h : tFind (pkey p a) s.regs.hiCap = some w) :
    readPort s p a = (w, { s with regs := { s.regs with hiCap := tDel (pkey p a) s.regs.hiCap } }) := by simp [readPort, h]

/-- A read of a register that is no _LO. -/
theorem readPort_single (h : tFind (pkey p a) s.regs.hiCap = none) (hh : hiOf a = none) :
    readPort s p a = (readVal s p a, readEffect p a s) := by simp [readPort, h, hh]

/-- R20: a read of a _LO captures its _HI. -/
theorem readPort_lo (h : tFind (pkey p a) s.regs.hiCap = none) (hh : hiOf a = some hi) (he : readEffect p a s = s) :
    readPort s p a =
      (readVal s p a, { s with regs := { s.regs with hiCap := tPut (pkey p hi) (readVal s p hi) s.regs.hiCap } }) := by
  simp [readPort, h, hh, he]

theorem readClears_iff : readClears a = true ↔ (pageHRD + 0x7C00 ≤ a ∧ a < pageHRD + 0x7D00) ∨
    a = rTim 0xC8 ∨ a = pageCNT + 0x34 ∨ a = pageCNT + 0x14 ∨ a = rTim 0x80 := by
  unfold readClears
  rw [Bool.or_eq_true, decide_eq_true_iff, List.contains_iff_mem, List.mem_cons, List.mem_cons, List.mem_cons, List.mem_singleton]

/-- A read of any register but those of `readClears` changes nothing. -/
theorem readEffect_none (h : readClears a = false) : readEffect p a s = s := by
  have hc := mt readClears_iff.mpr (by rw [h]; decide)
  obtain ⟨hn, ht, hs, hl, he⟩ : _ ∧ _ ∧ _ ∧ _ ∧ _ := by simpa only [not_or] using hc
  unfold readEffect
  rw [if_neg hn, if_neg ht, if_neg hs, if_neg hl, if_neg he]

/-- HRD_NLOST of partition `q` is its own register (Table 18-6). -/
theorem nlost_place (hq : q < 64) : hiOf (pageHRD + 0x7C00 + 4 * q) = none ∧ accHrd (0x7C00 + 4 * q) = some (.part q) ∧
    (instOf (pageHRD + 0x7C00 + 4 * q)) = some (4, 0x7C00 + 4 * q) := by
  revert q; decide

theorem readVal_nlost (hq : q < 64) : readVal s p (pageHRD + 0x7C00 + 4 * q) = w32 (tGet 0 s.hrd.nlost q + 2 ^ 32 - lostNow s q) := by
  obtain ⟨-, hacc, hinst⟩ := nlost_place hq
  have hb := page_bases
  have hsub : ¬(0xE00 ≤ 0x7C00 + 4 * q ∧ 0x7C00 + 4 * q < 0xF24) := by omega
  have ho : pageHRD + 0x7C00 + 4 * q - pageHRD = 0x7C00 + 4 * q := by omega
  unfold readVal
  simp only [hinst]
  rw [if_neg hsub]
  unfold readVal.go
  rw [if_neg (by omega), if_neg (by omega), if_pos (by omega), ho]
  simp only [readHrd, hacc]

theorem readEffect_nlost (hq : q < 64) : readEffect p (pageHRD + 0x7C00 + 4 * q) s =
    { s with hrd := { s.hrd with nlost := tSet 0 s.hrd.nlost q (lostNow s q) } } := by
  have hn : (pageHRD + 0x7C00 + 4 * q - pageHRD - 0x7C00) / 4 = q := by omega
  unfold readEffect
  rw [if_pos (by omega)]
  dsimp only
  rw [hn]

theorem readEffect_todi : readEffect p (rTim 0xC8) s = todiRead s := rfl

theorem readEffect_smp : readEffect p (pageCNT + 0x34) s = { s with cnt := { s.cnt with sLost := smpLostNow s } } := rfl

theorem changes_tim (x : Tim) (s : State) : Changes [.tim] s { s with tim := x } := fun c hc => by
  cases c <;> simp [Kept] at hc ⊢

theorem todiRead_eq : todiRead s = { s with tim := if s.tim.todiAt = s.tim.now
    then { s.tim with todiOld := (s.tim.todiOld.1, s.tim.todiOld.2.1, false, s.tim.todiOld.2.2.2) }
    else { s.tim with todiNew := false } } := by
  unfold todiRead
  split <;> rfl

theorem instOf_hrd (h : pageHRD ≤ a) (h' : a < pageCLS) : instOf a = some (4, a - pageHRD) := by
  have hb := page_bases
  unfold instOf
  rw [if_neg, if_neg, if_neg, if_neg, if_pos] <;> omega

/-- HRD has no pairs but those of its counter sub-page. -/
theorem hiOf_hrd (h : pageHRD ≤ a) (h' : a < pageCLS) (hs : 0xF24 ≤ a - pageHRD) : hiOf a = none := by
  have hb := page_bases
  have hm := page_bases_more
  have hsub : (inArr (a - pageHRD) 0xE40 8 16 || a - pageHRD == 0xF18) = false := by
    rw [Bool.or_eq_false_iff, ← Bool.not_eq_true, inArr_iff, beq_eq_false_iff_ne]
    omega
  unfold hiOf
  rw [instOf_hrd h h']
  dsimp only
  rw [hsub, if_neg Bool.false_ne_true, if_neg (by simp), if_neg, if_neg, if_neg, if_neg, if_neg, if_neg, if_neg, if_neg]
  all_goals omega

/-- The registers whose read does more are no _LO of a pair. -/
theorem readClears_of_lo (h : hiOf a = some hi) : readClears a = false := by
  cases hc : readClears a with
  | false => rfl
  | true =>
    have hb := page_bases
    have unpaired : hiOf a = none := by
      rcases readClears_iff.mp hc with hn | rfl | rfl | rfl | rfl
      · exact hiOf_hrd (by omega) (by omega) (by omega)
      all_goals rfl
    exact nomatch unpaired.symm.trans h

/-! ## The read clauses -/

theorem runs_read_captured (h : CanRead s part.toNat addr.toNat)
    (hc : c = .loReadCapture part addr 0xF ∨ c = .readClearRegister part addr 0xF)
    (hw : tFind (pkey part.toNat addr.toNat) s.regs.hiCap = some w) :
    ∃ t, Runs c s t ∧ t.out = [.regRead w] ∧ tFind (pkey part.toNat addr.toNat) t.regs.hiCap = none ∧ Changes [.regs] s t := by
  have run := runs_read h hc
  rw [readPort_captured (s := begin_ s) hw] at run
  exact ⟨_, run, rfl, tFind_tDel_same _ _, (changes_regs _ _).of_begin.emit⟩

theorem runs_read_lo (h : CanRead s part.toNat addr.toNat)
    (hc : c = .loReadCapture part addr 0xF ∨ c = .readClearRegister part addr 0xF)
    (hn : tFind (pkey part.toNat addr.toNat) s.regs.hiCap = none) (hh : hiOf addr.toNat = some hi) :
    ∃ t, Runs c s t ∧ t.out = [.regRead (readVal s part.toNat addr.toNat)] ∧
      tFind (pkey part.toNat hi) t.regs.hiCap = some (readVal s part.toNat hi) ∧ t.regs.val = s.regs.val ∧ Changes [.regs] s t := by
  have run := runs_read h hc
  rw [readPort_lo (s := begin_ s) hn hh (readEffect_none (readClears_of_lo hh)), readVal_begin, readVal_begin] at run
  exact ⟨_, run, rfl, tFind_tPut_same _ _ _, rfl, (changes_regs _ _).of_begin.emit⟩

/-- What a read of a register without a captured value and without a _HI gives. -/
theorem runs_read_single (h : CanRead s part.toNat addr.toNat)
    (hc : c = .loReadCapture part addr 0xF ∨ c = .readClearRegister part addr 0xF)
    (hn : tFind (pkey part.toNat addr.toNat) s.regs.hiCap = none) (hh : hiOf addr.toNat = none) :
    Runs c s (emit (.regRead (readVal s part.toNat addr.toNat)) (readEffect part.toNat addr.toNat (begin_ s))) := by
  have run := runs_read h hc
  rwa [readPort_single (s := begin_ s) hn hh, readVal_begin] at run

theorem runs_read_nlost (h : CanRead s part.toNat addr.toNat)
    (hc : c = .loReadCapture part addr 0xF ∨ c = .readClearRegister part addr 0xF)
    (hn : tFind (pkey part.toNat addr.toNat) s.regs.hiCap = none) (hq : q < 64) (ha : addr.toNat = pageHRD + 0x7C00 + 4 * q) :
    ∃ t, Runs c s t ∧ t.out = [.regRead (w32 (tGet 0 s.hrd.nlost q + 2 ^ 32 - lostNow s q))] ∧ tGet 0 t.hrd.nlost q = lostNow s q ∧
      (s.hrd.nlostAt ≠ s.tim.now → t.out = [.regRead (w32 (tGet 0 s.hrd.nlost q))] ∧ tGet 0 t.hrd.nlost q = 0) ∧ Changes [.hrd] s t := by
  have run := runs_read_single h hc hn (by rw [ha]; exact (nlost_place hq).1)
  rw [ha, readVal_nlost hq, readEffect_nlost hq] at run
  refine ⟨_, run, rfl, tGet_tSet_same _ _ _ _, fun hnow => ?_, (changes_hrd _ [] s).emit⟩
  have quiet : lostNow s q = 0 := if_neg hnow
  have full : w32 (tGet 0 s.hrd.nlost q + 2 ^ 32 - lostNow s q) = w32 (tGet 0 s.hrd.nlost q) := by
    rw [quiet, Nat.sub_zero]
    exact BitVec.eq_of_toNat_eq (by simp [w32])
  exact ⟨by rw [← full]; rfl, (tGet_tSet_same _ _ _ _).trans quiet⟩

theorem runs_read_todi (h : CanRead s part.toNat addr.toNat)
    (hc : c = .loReadCapture part addr 0xF ∨ c = .readClearRegister part addr 0xF)
    (hn : tFind (pkey part.toNat addr.toNat) s.regs.hiCap = none) (ha : addr.toNat = rTim 0xC8) :
    ∃ t, Runs c s t ∧ t.out = [.regRead (readVal s part.toNat addr.toNat)] ∧ Changes [.tim] s t ∧
      (s.tim.todiAt ≠ s.tim.now → t.tim = { s.tim with todiNew := false }) ∧
      (s.tim.todiAt = s.tim.now → t.tim.todiNew = s.tim.todiNew ∧ t.tim.todiSec = s.tim.todiSec) := by
  have run := runs_read_single h hc hn (by rw [ha]; rfl)
  have effect : readEffect part.toNat addr.toNat (begin_ s) = todiRead (begin_ s) := by rw [ha, readEffect_todi]
  rw [effect, todiRead_eq] at run
  exact ⟨_, run, rfl, (changes_tim _ _).of_begin.emit, fun e => if_neg e, fun e => by simp [emit, begin_, e]⟩

theorem runs_read_smp (h : CanRead s part.toNat addr.toNat)
    (hc : c = .loReadCapture part addr 0xF ∨ c = .readClearRegister part addr 0xF)
    (hn : tFind (pkey part.toNat addr.toNat) s.regs.hiCap = none) (ha : addr.toNat = pageCNT + 0x34) :
    Runs c s { s with cnt := { s.cnt with sLost := smpLostNow s }, out := [.regRead (readVal s part.toNat addr.toNat)] } := by
  have run := runs_read_single h hc hn (by rw [ha]; rfl)
  have effect : readEffect part.toNat addr.toNat (begin_ s) = { s with cnt := { s.cnt with sLost := smpLostNow s }, out := [] } := by
    rw [ha]; rfl
  rwa [effect] at run

theorem runs_read_plain (h : CanRead s part.toNat addr.toNat)
    (hc : c = .loReadCapture part addr 0xF ∨ c = .readClearRegister part addr 0xF)
    (hn : tFind (pkey part.toNat addr.toNat) s.regs.hiCap = none) (hh : hiOf addr.toNat = none) (hr : readClears addr.toNat = false) :
    Runs c s { s with out := [.regRead (readVal s part.toNat addr.toNat)] } := by
  have run := runs_read_single h hc hn hh
  rwa [readEffect_none hr] at run

end

/-! ## Where the stored pairs stand -/

/-- The halves of the stored pairs of registers: PWR_TIMER, TIM_SET, TIM_TICK0 and TIM_STEP, TRE_TPL, the MAC address of a port, the base of
the Milk Round, the base of the samples, the tenants' read rights, and the pairs of a Ventriloquist. -/
inductive PairAt (a : Nat) : Prop where
  | timer (h : 0x21400 ≤ a) (h' : a < 0x21760)
  | timSet (h : 0x30010 ≤ a) (h' : a < 0x30018)
  | tick0 (h : 0x30020 ≤ a) (h' : a < 0x30028)
  | timStep (h : 0x30040 ≤ a) (h' : a < 0x30048)
  | tpl (h : pageTRE ≤ a) (h' : a < pageUPL) (o : (a - pageTRE) % 0x1000 = 0x84 ∨ (a - pageTRE) % 0x1000 = 0x88)
  | mac (h : pageUPL ≤ a) (h' : a < pageQBM) (o : (a - pageUPL) % 0x1000 = 8 ∨ (a - pageUPL) % 0x1000 = 0xC)
  | mrBase (h : 0x2B0008 ≤ a) (h' : a < 0x2B0010)
  | smpBase (h : 0x2B0028 ≤ a) (h' : a < 0x2B0030)
  | rights (h : 0x2B0038 ≤ a) (h' : a < 0x2B0040)
  | vq (h : 0x2C0108 ≤ a) (h' : a < 0x2C0208) (o : (a - 0x2C0000) % 0x40 / 8 = 1)

section
variable {s : State} {a lo hi : Nat} {old new : Word}

/-- The page of each place names its unit. -/
theorem instOf_pwr (h : pagePWR ≤ a) (h' : a < pageTIM) : instOf a = some (2, a - pagePWR) := by
  have hb := page_bases
  unfold instOf
  rw [if_neg, if_neg, if_pos] <;> omega

theorem instOf_tim (h : pageTIM ≤ a) (h' : a < pageHRD) : instOf a = some (3, a - pageTIM) := by
  have hb := page_bases
  unfold instOf
  rw [if_neg, if_neg, if_neg, if_pos] <;> omega

theorem instOf_tre (h : pageTRE ≤ a) (h' : a < pageUPL) :
    instOf a = some (21 + (a - pageTRE) / 0x1000, (a - pageTRE) % 0x1000) := by
  have hb := page_bases
  unfold instOf
  rw [if_neg, if_neg, if_neg, if_neg, if_neg, if_neg, if_neg, if_neg, if_pos] <;> omega

theorem instOf_upl (h : pageUPL ≤ a) (h' : a < pageQBM) :
    instOf a = some (85 + (a - pageUPL) / 0x1000, (a - pageUPL) % 0x1000) := by
  have hb := page_bases
  unfold instOf
  rw [if_neg, if_neg, if_neg, if_neg, if_neg, if_neg, if_neg, if_neg, if_neg, if_pos] <;> omega

theorem instOf_cnt (h : pageCNT ≤ a) (h' : a < pageTST) : instOf a = some (10, a - pageCNT) := by
  have hb := page_bases
  have hm := page_bases_more
  unfold instOf
  rw [if_neg, if_neg, if_neg, if_neg, if_neg, if_neg, if_neg, if_neg, if_neg, if_neg, if_neg, if_neg, if_neg, if_neg, if_neg, if_neg,
    if_pos] <;> omega

theorem instOf_tst (h : pageTST ≤ a) (h' : a < 0x2D0000) : instOf a = some (11, a - pageTST) := by
  have hb := page_bases
  have hm := page_bases_more
  unfold instOf
  rw [if_neg, if_neg, if_neg, if_neg, if_neg, if_neg, if_neg, if_neg, if_neg, if_neg, if_neg, if_neg, if_neg, if_neg, if_neg, if_neg,
    if_neg, if_pos] <;> omega

/-- A stored pair lies in no counter sub-page and no fault set. -/
theorem PairAt.instOf (h : PairAt a) : ∃ i o, Machine.instOf a = some (i, o) ∧ ¬(0xE00 ≤ o ∧ o < 0xF24) := by
  have hb := page_bases
  have hm := page_bases_more
  cases h with
  | timer h h' => exact ⟨_, _, instOf_pwr (by omega) (by omega), by omega⟩
  | timSet h h' => exact ⟨_, _, instOf_tim (by omega) (by omega), by omega⟩
  | tick0 h h' => exact ⟨_, _, instOf_tim (by omega) (by omega), by omega⟩
  | timStep h h' => exact ⟨_, _, instOf_tim (by omega) (by omega), by omega⟩
  | tpl h h' o => exact ⟨_, _, instOf_tre h h', by omega⟩
  | mac h h' o => exact ⟨_, _, instOf_upl h h', by omega⟩
  | mrBase h h' => exact ⟨_, _, instOf_cnt (by omega) (by omega), by omega⟩
  | smpBase h h' => exact ⟨_, _, instOf_cnt (by omega) (by omega), by omega⟩
  | rights h h' => exact ⟨_, _, instOf_cnt (by omega) (by omega), by omega⟩
  | vq h h' o => exact ⟨_, _, instOf_tst (by omega) (by omega), by omega⟩

/-- No stored pair meets what the hooks and the rules of the register port name. -/
theorem PairAt.place (h : PairAt a) : a ≠ 0x80 ∧ ¬(0x30060 ≤ a ∧ a < pageHRD) ∧ ¬(pageCLS ≤ a ∧ a < pageCHN) ∧ ¬(pageQBM ≤ a ∧ a < pageCNT) ∧
    ¬(pageHRD ≤ a ∧ a < pageCLS) ∧ a ≠ pageCNT ∧
    (pageTRE ≤ a → a < pageUPL → 0x84 ≤ (a - pageTRE) % 0x1000) ∧ (pageUPL ≤ a → a < pageQBM → (a - pageUPL) % 0x1000 ≤ 0xC) ∧
    a < 0x2D0000 := by
  have hb := page_bases
  have hm := page_bases_more
  cases h <;> omega

theorem PairAt.hook (h : PairAt a) : regHook a old new s = s := by
  obtain ⟨h80, hpps, hcls, hqbm, -, hcnt, htre, hupl, -⟩ := h.place
  have hb := page_bases
  unfold regHook rTim
  simp only [isXoff_iff]
  have notCls : ¬(pageCLS + 0x40000 ≤ a ∧ a < pageCHN) := fun k => hcls ⟨Nat.le_trans (Nat.le_add_right _ _) k.1, k.2⟩
  have notXoff : ¬(a = pageQBM + 0x10 ∨ a = pageQBM + 0x14) := by rintro (rfl | rfl) <;> exact hqbm (by decide)
  have notDeep : ¬(a = pageDPT + 4 ∨ a = pageDPT + 8 ∨ a = pageDPT + 0xC) := by rintro (rfl | rfl | rfl) <;> exact hqbm (by decide)
  have notPps : a ≠ pageTIM + 0x60 := by rintro rfl; exact hpps (by decide)
  rw [if_neg h80, if_neg notPps, if_neg notCls, if_neg notXoff, if_neg notDeep, if_neg hcnt]
  split
  · exact if_neg (by omega)
  · split
    · unfold uplHook
      rw [if_neg (by rw [inArr_iff]; omega), if_neg (by omega)]
    · rfl

theorem PairAt.allowed (h : PairAt a) : regAllowed s a new = true := by
  obtain ⟨-, -, hcls, hqbm, hhrd, -, -, hupl, htop⟩ := h.place
  have hb := page_bases
  have hMinc : isMinc a = false := by
    unfold isMinc
    rw [← Bool.not_eq_true, Bool.or_eq_true, Bool.and_eq_true, Bool.and_eq_true, Bool.and_eq_true, inArr_iff, inArr_iff,
      decide_eq_true_iff, decide_eq_true_iff, decide_eq_true_iff]
    omega
  have hDeep : deepTree a = none := by
    unfold deepTree arrIx
    split
    · exact if_neg (by omega)
    · rfl
  have hRit : ritAllowed s a new = true := by
    unfold ritAllowed
    extract_lets
    rw [Bool.or_eq_true, Bool.or_eq_true]
    refine .inl (.inl ?_)
    rw [Bool.not_eq_true', Bool.and_eq_false_iff, decide_eq_false_iff_not, decide_eq_false_iff_not]
    omega
  unfold regAllowed
  rw [hMinc, hDeep, if_neg Bool.false_ne_true, if_neg (by omega)]
  exact hRit

theorem ite_eq_cases {α : Type} {c : Prop} [Decidable c] {x y v : α} (h : (if c then x else y) = v) :
    c ∧ x = v ∨ ¬c ∧ y = v := by
  by_cases hc : c
  · exact .inl ⟨hc, by rwa [if_pos hc] at h⟩
  · exact .inr ⟨hc, by rwa [if_neg hc] at h⟩

/-- The pairs of a counter sub-page and of a fault set are not stored. -/
theorem regSpec_subHi {i o : Nat} (h : instOf a = some (i, o)) (ho : (inArr o 0xE40 8 16 || o == 0xF18) = true) : regSpec a = none := by
  rw [Bool.or_eq_true, inArr_iff, beq_iff_eq] at ho
  unfold regSpec
  rw [h]
  dsimp only
  rw [if_pos (by omega)]
  unfold subSpec
  rw [if_neg (by rw [inArr_iff]; omega)]
  simp only [rowOf]
  rw [if_neg (by omega), if_neg (by omega)]

/-- TRE_TREF is not stored. -/
theorem regSpec_tref (h : pageTRE ≤ a) (h' : a < pageUPL) (ho : (a - pageTRE) % 0x1000 = 0x60) : regSpec a = none := by
  have hb := page_bases
  unfold regSpec
  rw [instOf_tre h h']
  dsimp only
  rw [if_neg (by omega)]
  unfold pageSpec chnTree
  rw [if_neg, if_neg, if_neg, if_neg, if_neg, if_neg, if_neg, if_pos ⟨h, h'⟩, ho]
  · rfl
  all_goals omega

/-- The snapshots of the slot accounting are not stored. -/
theorem regSpec_slots (h : 0x2B1000 ≤ a) (h' : a < pageTST) : regSpec a = none := by
  have hb := page_bases
  have hm := page_bases_more
  unfold regSpec
  rw [instOf_cnt (by omega) h']
  dsimp only
  rw [if_neg (by omega)]
  unfold pageSpec chnTree
  rw [if_neg, if_neg, if_neg, if_neg, if_neg, if_neg, if_neg, if_neg, if_neg, if_neg, if_neg, if_neg, if_neg, if_pos (by omega)]
  · unfold cntSpec
    simp only [rowOf]
    rw [if_neg, if_neg, if_neg, if_neg, if_neg, if_neg, if_neg, if_neg, if_neg] <;> omega
  all_goals omega

/-- Whether a half of a stored pair is its _LO: pairs are aligned, but for those of the tree pages. -/
def LoAt (a : Nat) : Prop := (pageTRE ≤ a ∧ a < pageUPL ∧ a % 8 = 4) ∨ (¬(pageTRE ≤ a ∧ a < pageUPL) ∧ a % 8 = 0)

/-- A stored pair is one of `PairAt`: the _HI register follows the _LO one. -/
theorem pairAt_of_hiOf (h : hiOf lo = some hi) (hs : (regSpec lo).isSome = true) :
    hi = lo + 4 ∧ PairAt lo ∧ PairAt hi ∧ LoAt lo ∧ ¬ LoAt hi := by
  have hb := page_bases
  have hm := page_bases_more
  have unstored {a : Nat} (e : lo = a) (hn : regSpec a = none) : False := by
    rw [e, hn] at hs; exact nomatch hs
  have here (e : some (lo + 4) = some hi) (p : PairAt lo) (p' : PairAt (lo + 4))
      (l : LoAt lo ∧ ¬ LoAt (lo + 4) := by unfold LoAt; omega) : hi = lo + 4 ∧ PairAt lo ∧ PairAt hi ∧ LoAt lo ∧ ¬ LoAt hi := by
    obtain rfl := Option.some.inj e
    exact ⟨rfl, p, p', l⟩
  unfold hiOf at h
  obtain ⟨hsub, h⟩ | ⟨-, h⟩ := ite_eq_cases h
  · split at h
    · next i o hi' =>
      obtain ⟨ho, -⟩ | ⟨-, h⟩ := ite_eq_cases h
      · exact (unstored rfl (regSpec_subHi hi' ho)).elim
      · exact nomatch h
    · exact nomatch h
  obtain ⟨e, -⟩ | ⟨-, h⟩ := ite_eq_cases h
  · exact (e.elim (fun e => unstored e (by decide)) fun e => unstored e (by decide)).elim
  obtain ⟨r, h⟩ | ⟨r, h⟩ := ite_eq_cases h
  · obtain ⟨ho, h⟩ | ⟨-, h⟩ := ite_eq_cases h
    · rw [Bool.or_eq_true, inArr_iff, decide_eq_true_iff] at ho
      rcases ho with e | ho
      · exact (unstored e (by decide)).elim
      · exact here h (.timer (by omega) (by omega)) (.timer (by omega) (by omega))
    · exact nomatch h
  obtain ⟨r, h⟩ | ⟨r, h⟩ := ite_eq_cases h
  · obtain ⟨ho, h⟩ | ⟨-, h⟩ := ite_eq_cases h
    · simp only [List.contains_iff_mem, List.mem_cons, List.not_mem_nil, or_false] at ho
      rcases ho with o | o | o | o | o | o | o
      · exact here h (.timSet (by omega) (by omega)) (.timSet (by omega) (by omega))
      · exact here h (.tick0 (by omega) (by omega)) (.tick0 (by omega) (by omega))
      · exact (unstored (a := 0x30028) (by omega) (by decide)).elim
      · exact (unstored (a := 0x30030) (by omega) (by decide)).elim
      · exact here h (.timStep (by omega) (by omega)) (.timStep (by omega) (by omega))
      · exact (unstored (a := 0x300A0) (by omega) (by decide)).elim
      · exact (unstored (a := 0x300C0) (by omega) (by decide)).elim
    · exact nomatch h
  obtain ⟨r, h⟩ | ⟨r, h⟩ := ite_eq_cases h
  · obtain ⟨ho | ho, h⟩ | ⟨-, h⟩ := ite_eq_cases h
    · exact (unstored rfl (regSpec_tref r.1 r.2 ho)).elim
    · exact here h (.tpl r.1 r.2 (.inl ho)) (.tpl (by omega) (by omega) (.inr (by omega)))
    · exact nomatch h
  obtain ⟨r, h⟩ | ⟨r, h⟩ := ite_eq_cases h
  · obtain ⟨ho, h⟩ | ⟨-, h⟩ := ite_eq_cases h
    · exact here h (.mac r.1 r.2 (.inl ho)) (.mac (by omega) (by omega) (.inr (by omega)))
    · exact nomatch h
  obtain ⟨e, -⟩ | ⟨-, h⟩ := ite_eq_cases h
  · exact (e.elim (fun e => unstored e (by decide)) fun e => unstored e (by decide)).elim
  obtain ⟨r, h⟩ | ⟨r, h⟩ := ite_eq_cases h
  · obtain ⟨o | o | o | o, h⟩ | ⟨-, h⟩ := ite_eq_cases h
    · exact here h (.mrBase (by omega) (by omega)) (.mrBase (by omega) (by omega))
    · exact here h (.smpBase (by omega) (by omega)) (.smpBase (by omega) (by omega))
    · exact here h (.rights (by omega) (by omega)) (.rights (by omega) (by omega))
    · exact (unstored (a := 0x2B0048) (by omega) (by decide)).elim
    obtain ⟨o, h⟩ | ⟨-, h⟩ := ite_eq_cases h
    · exact (unstored rfl (regSpec_slots (by omega) (by omega))).elim
    · exact nomatch h
  obtain ⟨r, h⟩ | ⟨-, h⟩ := ite_eq_cases h
  · obtain ⟨ho, h⟩ | ⟨-, h⟩ := ite_eq_cases h
    · rw [inArr_iff] at ho
      exact here h (.vq (by omega) (by omega) (by omega)) (.vq (by omega) (by omega) (by omega))
    · exact nomatch h
  · exact nomatch h

end

/-! ## Writes of the stored pairs -/

/-- A _LO and its _HI register that are both stored (R20, R522). -/
structure StoredPair (lo hi : Nat) (y x : RegSpec) : Prop where
  pair : hiOf lo = some hi
  lo : regSpec lo = some y
  hi : regSpec hi = some x

section
variable {s : State} {p lo hi : Nat} {y x : RegSpec} {part : BitVec 6} {alo ahi : BitVec 24} {data v : Word}

theorem StoredPair.places (h : StoredPair lo hi y x) : hi = lo + 4 ∧ PairAt lo ∧ PairAt hi ∧ LoAt lo ∧ ¬ LoAt hi :=
  pairAt_of_hiOf h.pair (by rw [h.lo]; rfl)

theorem StoredPair.loOf (h : StoredPair lo hi y x) : Machine.loOf hi = some lo := by
  obtain ⟨e, -⟩ := h.places
  unfold Machine.loOf
  rw [show hi - 4 = lo by omega, if_pos ⟨by omega, h.pair⟩]

theorem StoredPair.hi_single (h : StoredPair lo hi y x) : hiOf hi = none := by
  obtain ⟨-, -, -, -, notLo⟩ := h.places
  cases e : hiOf hi with
  | none => rfl
  | some k =>
    obtain ⟨-, -, -, isLo, -⟩ := pairAt_of_hiOf e (by rw [h.hi]; rfl)
    exact absurd isLo notLo

/-- A half of a stored pair is written on its page's own port. -/
theorem PairAt.writePort {a : Nat} (h : PairAt a) : writePort p a data s = writePort.go p a data s := by
  obtain ⟨i, o, e, ho⟩ := h.instOf
  unfold Machine.writePort
  rw [e]
  exact if_neg ho

/-- R20: a _LO write is held. -/
theorem writePort_lo (hp : hiOf lo = some hi) (hs : (regSpec lo).isSome = true) :
    writePort p lo data s = { s with regs := { s.regs with loHeld := tPut (pkey p lo) data s.regs.loHeld } } := by
  obtain ⟨-, place, -⟩ := pairAt_of_hiOf hp hs
  have held : heldLo lo = true := by simp [heldLo, hp, hs]
  rw [place.writePort]
  exact if_pos held

theorem writePort_hi (h : StoredPair lo hi y x) : writePort p hi data s = writeHi p lo hi data s := by
  obtain ⟨-, -, place, -⟩ := h.places
  have single : heldLo hi = false := by simp [heldLo, h.hi_single]
  rw [place.writePort]
  unfold writePort.go
  rw [single, if_neg Bool.false_ne_true, h.loOf]
  dsimp only
  rw [h.hi]
  rfl

/-- R230 speaks of the CLS_RIT entries alone. -/
theorem ritAllowed_apart {a : Nat} (h : ¬(pageCLS + 0x40000 ≤ a ∧ a < pageCHN)) : ritAllowed s a data = true := by
  unfold ritAllowed
  extract_lets
  rw [Bool.or_eq_true, Bool.or_eq_true]
  refine .inl (.inl ?_)
  rw [Bool.not_eq_true', Bool.and_eq_false_iff, decide_eq_false_iff_not, decide_eq_false_iff_not]
  by_contra k
  push Not at k
  exact h ⟨k.1, Nat.lt_trans k.2 (by decide)⟩

theorem PairAt.ritAllowed {a : Nat} (h : PairAt a) : Machine.ritAllowed s a data = true := by
  obtain ⟨-, -, hcls, -⟩ := h.place
  exact ritAllowed_apart fun k => hcls ⟨Nat.le_trans (Nat.le_add_right _ _) k.1, k.2⟩

/-- A permitted write of a half of a stored pair. -/
theorem regWrite_pair {a : Nat} (hw : CanWrite s p a) (h : PairAt a) : regWrite p a 0xF data s = writePort p a data s := by
  obtain ⟨hr, c, ha, hm⟩ := hw
  exact regWrite_permitted hr ha hm h.ritAllowed

/-- A half of a stored pair that takes effect at once holds its value, and nothing else happens. -/
theorem PairAt.put_now {a : Nat} (h : PairAt a) (hx : regSpec a = some x) (he : effNow s a x.eff = .now) :
    putReg a data s = setReg a (mergeW (reg s a) x.mask data) s := by
  rw [putReg_now hx h.allowed he]
  exact h.hook

theorem effNow_stopped {a : Nat} {e : Eff} (h : s.tim.started = false) : effNow s a e = .now := by
  cases e <;> simp [effNow, h]

/-- What a held _LO write commits with its _HI (R20). -/
def heldHalf (p lo : Nat) (y : RegSpec) (s : State) : List DefWrite :=
  match tFind (pkey p lo) s.regs.loHeld with | some v => [⟨lo, y.mask, v⟩] | none => []

/-- R20: before the _HI the held _LO is written, and its hold ends. -/
def loWritten (p lo : Nat) (s : State) : State :=
  match tFind (pkey p lo) s.regs.loHeld with
  | some v => putReg lo v (dropLo p lo s)
  | none => s

theorem writeHi_eq : writeHi p lo hi data s = putReg hi data (loWritten p lo s) := rfl

/-- A _LO that takes effect at once. -/
theorem loWritten_now (hy : regSpec lo = some y) (place : PairAt lo) (he : effNow s lo y.eff = .now) :
    tFind (pkey p lo) (loWritten p lo s).regs.loHeld = none ∧ reg (loWritten p lo s) lo = withDef lo (reg s lo) (heldHalf p lo y s) ∧
    (∀ a, a ≠ lo → reg (loWritten p lo s) a = reg s a) ∧ (loWritten p lo s).tim = s.tim ∧ (loWritten p lo s).out = s.out ∧
    Changes [.regs] s (loWritten p lo s) := by
  unfold loWritten heldHalf
  split
  · next v hv =>
    rw [place.put_now (s := dropLo p lo s) hy he]
    refine ⟨tFind_tDel_same _ _, ?_, fun a ha => reg_setReg_other ha _ _, rfl, rfl,
      (changes_regs { s.regs with loHeld := tDel (pkey p lo) s.regs.loHeld } s).trans (changes_regs _ _)⟩
    rw [reg_setReg_same]
    simp [withDef]
    rfl
  · next hv => exact ⟨hv, rfl, fun _ _ => rfl, rfl, rfl, changes_refl _ _⟩

/-- A _LO that waits for the tick boundary. -/
theorem loWritten_tick (hy : regSpec lo = some y) (place : PairAt lo) (he : effNow s lo y.eff = .tick) :
    tFind (pkey p lo) (loWritten p lo s).regs.loHeld = none ∧ (loWritten p lo s).regs.val = s.regs.val ∧
    (loWritten p lo s).regs.tickDef = s.regs.tickDef ++ heldHalf p lo y s ∧ (loWritten p lo s).tim = s.tim ∧
    Changes [.regs] s (loWritten p lo s) := by
  unfold loWritten heldHalf
  split
  · next v hv =>
    rw [putReg_tick (s := dropLo p lo s) hy place.allowed he]
    exact ⟨tFind_tDel_same _ _, rfl, rfl, rfl,
      (changes_regs { s.regs with loHeld := tDel (pkey p lo) s.regs.loHeld } s).trans (changes_regs _ _)⟩
  · next hv => exact ⟨hv, rfl, (List.append_nil _).symm, rfl, changes_refl _ _⟩

/-- R20: what a write of the _HI of a stored pair comes to. -/
theorem runs_writeHi (h : StoredPair alo.toNat ahi.toNat y x) (hw : CanWrite s part.toNat ahi.toNat) :
    Runs (.hiWriteCommit part ahi 0xF data) s (putReg ahi.toNat data (loWritten part.toNat alo.toNat (begin_ s))) := by
  obtain ⟨-, -, place, -⟩ := h.places
  have e := regWrite_pair (s := begin_ s) (data := data) hw place
  rw [writePort_hi h, writeHi_eq] at e
  exact congrArg Host.Outcome.next e

/-- R20: both halves take effect at once. -/
theorem runs_pair_now (h : StoredPair alo.toNat ahi.toNat y x) (hw : CanWrite s part.toNat ahi.toNat)
    (he : x.eff = .now ∧ y.eff = .now ∨ s.tim.started = false) :
    ∃ t, Runs (.hiWriteCommit part ahi 0xF data) s t ∧ tFind (pkey part.toNat alo.toNat) t.regs.loHeld = none ∧
      reg t alo.toNat = withDef alo.toNat (reg s alo.toNat) (heldHalf part.toNat alo.toNat y s) ∧
      reg t ahi.toNat = mergeW (reg s ahi.toNat) x.mask data ∧
      (∀ a, a ≠ alo.toNat → a ≠ ahi.toNat → reg t a = reg s a) ∧ Changes [.regs] s t := by
  obtain ⟨next, placeLo, placeHi, -⟩ := h.places
  have now (a : Nat) (e : Eff) (hn : e = .now ∨ s.tim.started = false) (u : State) (ht : u.tim = s.tim) : effNow u a e = .now := by
    rcases hn with rfl | hs
    · rfl
    · exact effNow_stopped (by rw [ht]; exact hs)
  have first := loWritten_now (p := part.toNat) h.lo placeLo (now alo.toNat y.eff (he.imp_left And.right) (begin_ s) rfl)
  have run := runs_writeHi (data := data) h hw
  obtain ⟨hheld, hlo, hother, htim, -, hch⟩ := first
  rw [placeHi.put_now h.hi (now _ _ (he.imp_left And.left) _ htim)] at run
  refine ⟨_, run, hheld, ?_, ?_, fun a ha ha' => ?_, (hch.trans (changes_regs _ _)).of_begin⟩
  · rw [reg_setReg_other (by omega)]; exact hlo
  · rw [reg_setReg_same, hother _ (by omega)]; rfl
  · rw [reg_setReg_other ha']; exact hother a ha

/-- R20, R521: both halves wait for the next tick boundary. -/
theorem runs_pair_tick (h : StoredPair alo.toNat ahi.toNat y x) (hw : CanWrite s part.toNat ahi.toNat) (hx : x.eff = .tick)
    (hy : y.eff = .tick) (hs : s.tim.started = true) :
    ∃ t, Runs (.hiWriteCommit part ahi 0xF data) s t ∧ tFind (pkey part.toNat alo.toNat) t.regs.loHeld = none ∧
      t.regs.val = s.regs.val ∧
      t.regs.tickDef = s.regs.tickDef ++ heldHalf part.toNat alo.toNat y s ++ [⟨ahi.toNat, x.mask, data⟩] ∧ Changes [.regs] s t := by
  obtain ⟨-, placeLo, placeHi, -⟩ := h.places
  have first := loWritten_tick (s := begin_ s) (p := part.toNat) h.lo placeLo (by rw [hy]; exact effNow_tick_started hs)
  have run := runs_writeHi (data := data) h hw
  obtain ⟨hheld, hval, hdef, htim, hch⟩ := first
  rw [putReg_tick h.hi placeHi.allowed (by rw [hx]; exact effNow_tick_started (by rw [htim]; exact hs))] at run
  exact ⟨_, run, hheld, hval, congrArg (· ++ _) hdef, (hch.trans (changes_regs _ _)).of_begin⟩

theorem runs_writeLo (hp : hiOf alo.toNat = some hi) (hs : (regSpec alo.toNat).isSome = true) (hw : CanWrite s part.toNat alo.toNat) :
    ∃ t, Runs (.registerWrite part alo 0xF data) s t ∧ tFind (pkey part.toNat alo.toNat) t.regs.loHeld = some data ∧
      t.regs.val = s.regs.val ∧ Changes [.regs] s t := by
  obtain ⟨-, place, -⟩ := pairAt_of_hiOf hp hs
  have e := regWrite_pair (s := begin_ s) (data := data) hw place
  rw [writePort_lo hp hs] at e
  exact ⟨_, congrArg Host.Outcome.next e, tFind_tPut_same _ _ _, rfl, (changes_regs _ _).of_begin⟩

end

/-! ## The pairs that the time engine and the counters hold -/

section
variable {s : State} {addr : BitVec 24} {data : Word}

theorem p0Write_ready {be : BitVec 4} {f : State → State} (hr : Ready s) (hb : be = 0xF) : p0Write 0 be f s = f s := by
  simp [p0Write, hr, hb]

theorem runs_incHi (hr : Ready s) (ha : addr.toNat = rTim 0x2C) :
    ∃ t, Runs (.timIncWrite 0 0xF data) s t ∧ Runs (.hiWriteCommit 0 addr 0xF data) s t := by
  have own : Runs (.timIncWrite 0 0xF data) s (incHi 0 data (begin_ s)) := congrArg Host.Outcome.next (p0Write_ready (s := begin_ s) hr rfl)
  have port : regWrite 0 (rTim 0x2C) 0xF data (begin_ s) = incHi 0 data (begin_ s) :=
    regWrite_permitted (c := .p0) (s := begin_ s) hr (by decide) rfl (by rfl)
  rw [← ha] at port
  exact ⟨_, own, congrArg Host.Outcome.next port⟩

theorem runs_slewHi (hr : Ready s) (ha : addr.toNat = rTim 0x34) :
    ∃ t, Runs (.timSlewWrite 0 0xF data) s t ∧ Runs (.hiWriteCommit 0 addr 0xF data) s t := by
  have own : Runs (.timSlewWrite 0 0xF data) s (slewHi 0 data (begin_ s)) := congrArg Host.Outcome.next (p0Write_ready (s := begin_ s) hr rfl)
  have port : regWrite 0 (rTim 0x34) 0xF data (begin_ s) = slewHi 0 data (begin_ s) :=
    regWrite_permitted (c := .p0) (s := begin_ s) hr (by decide) rfl (by rfl)
  rw [← ha] at port
  exact ⟨_, own, congrArg Host.Outcome.next port⟩

/-- CNT_VALn_HI of a unit is found at its place (Table 15-2). -/
theorem cntVal_place : ∀ i < 110, ∀ n < 16, instOf (rCntVal i n + 4) = some (i, 0xE44 + 8 * n) ∧
    (rCntVal i n + 4) % 4 = 0 ∧ ¬(pageCLS + 0x40000 ≤ rCntVal i n + 4 ∧ rCntVal i n + 4 < pageCHN) := by decide

theorem runs_cntValHi {inst : BitVec 7} {num : BitVec 4} (hr : Ready s) (hi : inst.toNat ≤ 109)
    (ha : addr.toNat = rCntVal inst.toNat num.toNat + 4) :
    ∃ t, Runs (.cntValWrite 0 inst num 0xF data) s t ∧ Runs (.hiWriteCommit 0 addr 0xF data) s t := by
  have hn := num.isLt
  obtain ⟨place, aligned, noRit⟩ := cntVal_place inst.toNat (by omega) num.toNat (by omega)
  rw [← ha] at place aligned noRit
  have own : Runs (.cntValWrite 0 inst num 0xF data) s (valWrite 0 inst.toNat num.toNat data (begin_ s)) :=
    congrArg Host.Outcome.next ((if_neg (by omega)).trans (p0Write_ready (s := begin_ s) hr rfl))
  have notSel : inArr (0xE44 + 8 * num.toNat) 0xE00 4 16 = false := by
    rw [← Bool.not_eq_true, inArr_iff]; omega
  have acc : accOf addr.toNat = some (.val inst.toNat ((0xE44 + 8 * num.toNat - 0xE40) / 8)) := by
    unfold accOf
    rw [if_neg (by omega), place]
    dsimp only
    rw [if_pos (by omega)]
    simp only [accSub, notSel]
    rw [if_neg Bool.false_ne_true, if_pos (by omega)]
  have port : regWrite 0 addr.toNat 0xF data (begin_ s) = valWrite 0 inst.toNat num.toNat data (begin_ s) := by
    rw [regWrite_permitted (s := begin_ s) hr acc rfl (ritAllowed_apart noRit)]
    unfold writePort
    rw [place]
    dsimp only
    rw [if_pos (by omega)]
    unfold writeSub
    rw [notSel, if_neg Bool.false_ne_true, if_pos (by omega), if_neg (by omega), show (0xE44 + 8 * num.toNat - 0xE44) / 8 = num.toNat by omega]
  exact ⟨_, own, congrArg Host.Outcome.next port⟩

end

/-- Settles O12: each clause is one case of the port above. -/
theorem pairsAndClears : Obligations.PairsAndClears := by
  unfold Obligations.PairsAndClears
  refine ⟨fun s part addr c h hc => ⟨fun w => runs_read_captured h hc, fun hn => ⟨fun hi => runs_read_lo h hc hn,
    runs_read_plain h hc hn, fun q => runs_read_nlost h hc hn, runs_read_todi h hc hn, runs_read_smp h hc hn⟩⟩,
    fun s part lo hi data hw hp => ⟨fun y x hy hx => ?_, fun dlo hw hs => runs_writeLo hp hs hw⟩,
    fun s addr data hr => ⟨runs_incHi hr, runs_slewHi hr, fun inst num => runs_cntValHi hr⟩⟩
  have pair : StoredPair lo.toNat hi.toNat y x := ⟨hp, hy, hx⟩
  exact ⟨runs_pair_now pair hw, runs_pair_tick pair hw⟩

end Sys2Proof.Machine
end

section
/-!
SUPPORT. The two table windows (R523) and the beat boundary (R9, R22).
-/

namespace Sys2Proof.Machine

-- one declaration at a time: the package is compiled as one text within a limit of memory
set_option Elab.async false

/-! ## Windows -/

section
variable {s t u : State} {l l' : List Comp}

theorem changes_cls (c : Cls) (s : State) : Changes [.cls] s { s with cls := c } := fun c hc => by
  cases c <;> simp [Kept] at hc ⊢

/-- A fold of operations that change no more than `l`. -/
theorem Changes.foldl {α : Type} {f : State → α → State} (hf : ∀ s x, Changes l s (f s x)) (xs : List α) (s : State) :
    Changes l s (xs.foldl f s) := by
  induction xs generalizing s with
  | nil => exact changes_refl _ _
  | cons x xs ih => exact (hf s x).trans (ih _)

/-- A case distinction between operations. -/
theorem Changes.ite {c : Prop} [Decidable c] (h : c → Changes l s t) (h' : ¬c → Changes l s u) : Changes l s (if c then t else u) := by
  split
  · exact h ‹_›
  · exact h' ‹_›

theorem changes_missSlices (s : State) : Changes [.pwr] s (missSlices s) :=
  Changes.foldl (fun s i => Changes.ite (fun _ => changes_refl _ _) fun _ => changes_setPdom _ _ _) _ s

theorem changes_settleMeter (k : Nat) (s : State) : Changes [.cls] s (settleMeter k s) := changes_cls _ _

end

section
variable {s : State} {p base : Nat} {w0 w1 w2 w3 : Word}

theorem pkey_ne {a b : Nat} (h : a ≠ b) (ha : a < 2 ^ 24) (hb : b < 2 ^ 24) (p q : Nat) : pkey p a ≠ pkey q b := by
  unfold pkey
  omega

/-- Four data words of a window. -/
theorem windowReg_setWin4 (h : base + 16 < 2 ^ 24) :
    windowReg (setWin p base [w0, w1, w2, w3] s) p base = w0 ∧ windowReg (setWin p base [w0, w1, w2, w3] s) p (base + 4) = w1 ∧
    windowReg (setWin p base [w0, w1, w2, w3] s) p (base + 8) = w2 ∧ windowReg (setWin p base [w0, w1, w2, w3] s) p (base + 12) = w3 := by
  have apart (i j : Nat) (hi : i ≤ 12) (hj : j ≤ 12) (hij : i ≠ j) : pkey p (base + i) ≠ pkey p (base + j) :=
    pkey_ne (by omega) (by omega) (by omega) p p
  have far (j : Nat) (hj : j ≤ 12) (hij : j ≠ 0) : pkey p base ≠ pkey p (base + j) := apart 0 j (by omega) hj (Ne.symm hij)
  simp [setWin, windowReg, List.range_succ, tGet_tSet_same, tGet_tSet_other, apart, far]

theorem changes_setWin (ws : List Word) : Changes [.regs] s (setWin p base ws s) :=
  Changes.foldl (fun s _ => changes_regs _ s) _ s

end

/-- A window command of the started block. -/
theorem windowCmd_ready {s : State} {f : State → State} (h : Ready s) : windowCmd f s = f s := if_neg fun k => k h

section
variable {s : State} {page up : Bool} {tbl e : Nat} {ws : List Word}

/-- R523: what WR leaves in the entry, and what it leaves alone. -/
theorem clsWrite_entry : tGet (clsZero tbl) (clsWrite page up tbl e ws s).cls.tbl (clsKey page up tbl e) =
    (List.range (tblWords tbl)).map (fun i => ws.getD i 0 &&& tblMask tbl i) ∧ Changes [.cls, .pwr] s (clsWrite page up tbl e ws s) := by
  unfold clsWrite
  extract_lets l k s0
  have settled : Changes [.cls, .pwr] s s0 :=
    Changes.ite (fun _ => (changes_settleMeter _ _).mono (by decide)) fun _ => changes_refl _ _
  refine ⟨?_, (settled.trans ((changes_cls _ _).mono (by decide))).trans ((changes_missSlices _).mono (by decide))⟩
  rw [show ∀ u, (missSlices u).cls = u.cls from fun u => changes_missSlices u .cls (by decide)]
  exact tGet_tSet_same _ _ _ _

end

/-- Settles O13: RD copies the context of the selected queue; WR of the classifier window is `clsWrite`. -/
theorem tableWindows : Obligations.TableWindows := by
  unfold Obligations.TableWindows
  refine ⟨fun s part hr hown => ?_, fun s page up tbl e hr hsel => ?_⟩
  · have run : Runs (.windowRd part .qbm) s (windowRd part.toNat .qbm (begin_ s)) :=
      congrArg Host.Outcome.next (windowCmd_ready (s := begin_ s) hr)
    have hown' : ownsTree (begin_ s) part.toNat (fld (windowReg (begin_ s) part.toNat (pageQBM + 0x100)) 0 17 / 2048) = true := hown
    unfold windowRd at run
    dsimp only at run
    rw [if_pos hown'] at run
    exact ⟨_, run, (changes_setWin _).of_begin, windowReg_setWin4 (by decide)⟩
  · have run : Runs (.windowWr 0 .cls) s (windowWr 0 .cls (begin_ s)) :=
      congrArg Host.Outcome.next (windowCmd_ready (s := begin_ s) hr)
    have hsel' : clsSel (begin_ s) 0 = some (page, up, tbl, e) := hsel
    unfold windowWr at run
    dsimp only at run
    rw [hsel', if_neg (by decide)] at run
    obtain ⟨entry, ch⟩ := clsWrite_entry (s := begin_ s) (page := page) (up := up) (tbl := tbl) (e := e)
      (ws := (List.range 32).map fun i => windowReg (begin_ s) 0 (pageCLS + 0x100 + 4 * i))
    have ch' := ch.of_begin
    have words (a : Nat) : windowReg (begin_ s) 0 a = windowReg s 0 a := rfl
    simp only [words] at entry run ch'
    generalize clsWrite page up tbl e _ (begin_ s) = t at entry run ch'
    exact ⟨_, run, entry, ch' .regs (by decide), ch' .qbm (by decide), ch' .hrd (by decide), ch' .tim (by decide)⟩

/-! ## The beat boundary -/

section
variable {s : State}

theorem beatBoundary_stopped (h : s.tim.started = false) : beatBoundary s = s := by
  unfold beatBoundary
  rw [h]
  rfl

/-- Before beat 9 the next beat of the tick begins. -/
theorem beatBoundary_beat (hs : s.tim.started = true) (hr : RegsOk s.regs) (hb : s.tim.beat < 9) :
    Good ⟨s.pending, some (s.tim.tick, s.tim.beat + 1, true)⟩ (beatBoundary s) := by
  have g := good_of_regs hr (Nat.lt_succ_of_lt hb)
  rw [hs] at g
  unfold beatBoundary
  extract_lets s1 t1 s2
  have g1 : Good ⟨s.pending, some (s.tim.tick, s.tim.beat, true)⟩ s1 := commitAll_good (toBoundary_good g)
  obtain ⟨tick1, beat1, started1⟩ := g1.clock
  rw [hs, if_neg (by decide), if_pos (by omega)]
  refine afterBoundary_good (boundaryActs_good ⟨g1.pending, g1.regs, show s1.tim.beat + 1 < 10 by omega, fun x hx => ?_⟩)
  rw [← Option.some.inj hx, ← tick1, ← beat1, ← started1]

/-- After beat 9 the next tick begins. -/
theorem beatBoundary_tick (hs : s.tim.started = true) (hr : RegsOk s.regs) (hb : s.tim.beat = 9) :
    Good ⟨s.pending, some ((s.tim.tick + 1) % 2 ^ 48, 0, true)⟩ (beatBoundary s) := by
  have g := good_of_regs hr (show s.tim.beat < 10 by omega)
  rw [hs] at g
  unfold beatBoundary
  extract_lets s1 t1 s2
  have g1 : Good ⟨s.pending, some (s.tim.tick, s.tim.beat, true)⟩ s1 := commitAll_good (toBoundary_good g)
  have g2 : Good ⟨s.pending, some (s.tim.tick, s.tim.beat, true)⟩ s2 := tickEnd_good g1
  clear_value s1 s2 t1
  obtain ⟨tick2, -, started2⟩ := g2.clock
  obtain ⟨-, beat1, -⟩ := g1.clock
  rw [hs, if_neg (by decide), if_neg (by omega)]
  refine afterBoundary_good (boundaryActs_good (timeBoundary_good ⟨g2.pending, g2.regs, Nat.zero_lt_succ 9, fun x hx => ?_⟩))
  rw [← Option.some.inj hx, ← tick2, ← started2]

end

/-- Settles O14: the laws of the boundary's parts hold the clock that the boundary itself sets. -/
theorem beatBoundaryHolds : Obligations.BeatBoundary := by
  unfold Obligations.BeatBoundary
  refine fun s => ⟨fun h => congrArg Host.Outcome.next (beatBoundary_stopped (s := begin_ s) h), fun hs hr hb => ?_⟩
  refine ⟨_, rfl, ?_⟩
  by_cases h9 : s.tim.beat < 9
  · have g := beatBoundary_beat (s := begin_ s) hs hr h9
    obtain ⟨tick, beat, started⟩ := g.clock
    exact ⟨started, g.pending, fun _ => ⟨tick, beat⟩, fun h => absurd h (by omega)⟩
  · have g := beatBoundary_tick (s := begin_ s) hs hr (by show s.tim.beat = 9; omega)
    obtain ⟨tick, beat, started⟩ := g.clock
    exact ⟨started, g.pending, fun h => absurd h h9, fun _ => ⟨tick, beat⟩⟩

end Sys2Proof.Machine
end

section
/-!
SUPPORT. What a released reference leaves alone (R32): the queues, the clock, the trees, the registers, and of the uplink ports all but the
stamp queue. Then the links and the enable of an uplink port (R175, R176, R198).
-/

namespace Sys2Proof.Machine

-- one declaration at a time: the package is compiled as one text within a limit of memory
set_option Elab.async false

/-! ## Released references -/

/-- The buffer manager without what a freed frame gives back: frames, cells, charges, flow-control states, retirement and deep cells. -/
def Qbm.sansCells (x : Qbm) : Qbm :=
  { x with chg := [], s := 0, frames := [], link := [], grp := [], retire := none, rAt := 0, rBusy := false, rNoSpare := false,
           portCells := [], xoff := [], xoffAll := false, dFreed := [], dUsed := 0 }

/-- An uplink port without its stamp queue. -/
def Upl.sansStamps (u : Upl) : Upl := { u with sq := [] }

/-- From `s` to `t` references have been released: of the queue manager and of the ports no more has changed than freed frames give back. -/
structure Freed (s t : State) : Prop where
  changes : Changes releasing s t
  qbm : t.qbm.sansCells = s.qbm.sansCells
  upl : ∀ p, (uplOf t p).sansStamps = (uplOf s p).sansStamps

section
variable {s t u : State} {l : List Comp}

theorem Freed.refl (s : State) : Freed s s := ⟨changes_refl _ _, rfl, fun _ => rfl⟩

theorem Freed.trans (h : Freed s t) (k : Freed t u) : Freed s u :=
  ⟨h.changes.trans k.changes, k.qbm.trans h.qbm, fun p => (k.upl p).trans (h.upl p)⟩

/-- What leaves the buffer manager and the ports alone. -/
theorem Freed.of_changes (h : Changes l s t) (hl : l ⊆ [.glb, .flt, .hrd, .pwr, .cnt, .fresh] := by decide) : Freed s t :=
  have k := h.mono hl
  have hu : t.upl = s.upl := k .upl (by decide)
  ⟨k.mono (by decide), congrArg Qbm.sansCells (k .qbm (by decide)), fun p => by unfold uplOf; rw [hu]⟩

/-- A change of what a freed frame gives back. -/
theorem freed_qbm (q : Qbm) (h : q.sansCells = s.qbm.sansCells := by rfl) : Freed s { s with qbm := q } :=
  ⟨(changes_qbm q s).mono (by decide), h, fun _ => rfl⟩

theorem Freed.foldl {α : Type} {f : State → α → State} (h : ∀ s x, Freed s (f s x)) (xs : List α) (s : State) : Freed s (xs.foldl f s) := by
  induction xs generalizing s with
  | nil => exact .refl _
  | cons x xs ih => exact (h s x).trans (ih _)

theorem Freed.ite {c : Prop} [Decidable c] (h : c → Freed s t) (h' : ¬c → Freed s u) : Freed s (if c then t else u) := by
  split
  · exact h ‹_›
  · exact h' ‹_›

theorem Freed.queueOf (h : Freed s t) (q : Nat) : Machine.queueOf t q = Machine.queueOf s q := by
  have e := congrArg (fun x : Qbm => tGet [] x.q q) h.qbm
  exact e

theorem freed_fault (i b : Nat) (cap0 : Word) (acc mkind mnum part : Nat) (s : State) : Freed s (fault i b cap0 acc mkind mnum part s) :=
  .of_changes (powerKeeps_fault i b cap0 acc mkind mnum part s).changes

theorem freed_autoRetire (g : Nat) (s : State) : Freed s (autoRetire g s) := by
  have fenced : Freed s (fenceGroup g s) := (freed_qbm (s := s) _).trans (.of_changes (changes_glb _ _))
  unfold autoRetire
  extract_lets v ueTh qTh
  refine Freed.ite (fun _ => .refl _) fun _ => Freed.ite (fun _ => freed_qbm _) fun _ => Freed.ite (fun _ => ?_) fun _ => ?_
  · exact fenced.trans (freed_fault _ _ _ _ _ _ _ _)
  · exact (freed_qbm (s := s) _).trans (freed_fault _ _ _ _ _ _ _ _)

theorem freed_freeCell (c : Nat) (s : State) : Freed s (freeCell c s) := by
  unfold freeCell
  extract_lets q u g v
  have h1 : Freed s u := freed_qbm _
  have h2 (g : Nat) (v : Group) : Freed s (setGrp g v u) := h1.trans (freed_qbm _)
  exact .ite (fun _ => (h2 _ _).trans (freed_autoRetire _ _)) fun _ => .ite (fun _ => h1) fun _ => h2 _ _

theorem freed_freeCellsOf (l : List Nat) (s : State) : Freed s (freeCellsOf l s) := .foldl (fun s c => freed_freeCell c s) l s

theorem freed_addChg (q : Nat) (d : Int) (s : State) : Freed s (addChg q d s) := freed_qbm _

theorem freed_addS (d : Int) (s : State) : Freed s (addS d s) := freed_qbm _

theorem freed_cellsLeave (f : Frame) (n : Nat) (s : State) : Freed s (cellsLeave f n s) := by
  unfold cellsLeave
  extract_lets s1
  have h1 : Freed s s1 := by
    simp only [s1]
    split
    · exact freed_qbm _
    · exact .refl _
  clear_value s1
  split
  · exact h1.trans (freed_addChg _ _ _)
  · exact h1

theorem freed_stampEnd (n : Nat) (f : Frame) (s : State) : Freed s (stampEnd n f s) := by
  unfold stampEnd
  split
  · exact .refl _
  · next p _ =>
    extract_lets u copy sq
    refine ⟨(changes_upl _ s).mono (by decide), rfl, fun k => ?_⟩
    by_cases hk : k = p
    · subst hk
      simp only [uplOf, tGet_tSet_same]
      rfl
    · simp only [uplOf, tGet_tSet_other hk]

theorem freed_sendDone (n : Nat) (f : Frame) (s : State) : Freed s (sendDone n f s) := by
  unfold sendDone
  split
  · exact .refl _
  · extract_lets c same
    exact .ite (fun _ => freed_qbm _) fun _ => .of_changes (changes_hrd _ s.out s)

theorem freed_freeFrame (n : Nat) (f : Frame) (s : State) : Freed s (freeFrame n f s) := by
  unfold freeFrame
  extract_lets s1 s2 s3
  have h1 : Freed s s1 := (freed_freeCellsOf _ _).trans (freed_qbm _)
  have h2 : Freed s s2 := .ite (fun _ => h1) fun _ => h1.trans (freed_addS _ _)
  have h3 : Freed s s3 := h2.trans (freed_cellsLeave _ _ _)
  exact ((h3.trans (freed_qbm _)).trans (freed_stampEnd _ _ _)).trans (freed_sendDone _ _ _)

theorem freed_release1 (n : Nat) (s : State) : Freed s (release1 n s) := by
  unfold release1
  split
  · exact .refl _
  · exact .ite (fun _ => (Freed.of_changes (changes_completeAs _ _ _)).trans (freed_freeFrame _ _ _)) fun _ => freed_qbm _

end

/-! ## Uplink ports -/

section
variable {s t u : State} {p q : Nat}

@[simp] theorem uplOf_modUpl_same (p : Nat) (f : Upl → Upl) (s : State) : uplOf (modUpl p f s) p = f (uplOf s p) :=
  tGet_tSet_same _ _ _ _

theorem uplOf_modUpl_other (h : q ≠ p) (f : Upl → Upl) (s : State) : uplOf (modUpl p f s) q = uplOf s q :=
  tGet_tSet_other h _ _ _ _

theorem changes_modUpl (p : Nat) (f : Upl → Upl) (s : State) : Changes [.upl] s (modUpl p f s) := changes_upl _ s

theorem queueOf_setQueue_same (q : Nat) (l : List Token) (s : State) : queueOf (setQueue q l s) q = l := tGet_tSet_same _ _ _ _

theorem queueOf_setQueue_other {q k : Nat} (h : k ≠ q) (l : List Token) (s : State) : queueOf (setQueue q l s) k = queueOf s k :=
  tGet_tSet_other h _ _ _ _

/-- R175: no token of the port's queues stays. -/
theorem dropQueues_empty (p : Nat) (s : State) : (∀ i < 8, queueOf (dropQueues p s) (131072 + 8 * p + i) = []) ∧
    (∀ k, (uplOf (dropQueues p s) k).sansStamps = (uplOf s k).sansStamps) ∧ Changes releasing s (dropQueues p s) := by
  have dropped (q o : Nat) (l : List Token) (s : State) : Freed s (l.foldl (fun s t =>
      release1 t.frame (addChg q (-(t.est : Int)) (objAdd 2 o 3 1 (count1 (iUPL p) 18 s)))) s) :=
    Freed.foldl (fun s t => ((Freed.of_changes (changes_count1 _ _ s)).trans (.of_changes (changes_cnt _ _))).trans
      ((freed_addChg _ _ _).trans (freed_release1 _ _))) l s
  have emptied (q : Nat) (u : State) : Changes releasing u (setQueue q [] { u with qbm := { u.qbm with segs := tDel q u.qbm.segs } }) :=
    ((changes_qbm _ u).trans (changes_qbm _ _)).mono (by decide)
  unfold dropQueues
  generalize hl : List.range 8 = l
  have all : (∀ i ∈ l, i < 8) ∧ ∀ i < 8, i ∈ l := by subst hl; simp
  obtain ⟨-, every⟩ := all
  suffices h : ∀ (l : List Nat) (s : State), let t := l.foldl (fun s i => (queueOf s (qUpl p i)).foldl (fun s t =>
      release1 t.frame (addChg (qUpl p i) (-(t.est : Int)) (objAdd 2 (8 * p + i) 3 1 (count1 (iUPL p) 18 s))))
      (setQueue (qUpl p i) [] { s with qbm := { s.qbm with segs := tDel (qUpl p i) s.qbm.segs } })) s
      (∀ i, i ∈ l ∨ queueOf s (qUpl p i) = [] → queueOf t (qUpl p i) = []) ∧
      (∀ k, (uplOf t k).sansStamps = (uplOf s k).sansStamps) ∧ Changes releasing s t by
    obtain ⟨hq, hu, hc⟩ := h l s
    exact ⟨fun i hi => hq i (.inl (every i hi)), hu, hc⟩
  intro l
  induction l with
  | nil => exact fun s => ⟨fun i h => h.resolve_left List.not_mem_nil, fun _ => rfl, changes_refl _ _⟩
  | cons j l ih =>
    intro s
    have step := dropped (qUpl p j) (8 * p + j) (queueOf s (qUpl p j))
      (setQueue (qUpl p j) [] { s with qbm := { s.qbm with segs := tDel (qUpl p j) s.qbm.segs } })
    obtain ⟨hq, hu, hc⟩ := ih _
    refine ⟨fun i h => hq i ?_, fun k => (hu k).trans (step.upl k), ((emptied _ s).trans step.changes).trans hc⟩
    by_cases hij : i = j
    · subst hij
      exact .inr ((step.queueOf _).trans (queueOf_setQueue_same _ _ _))
    · have apart : qUpl p i ≠ qUpl p j := by unfold qUpl; omega
      exact (h.imp_left fun m => (List.mem_cons.mp m).resolve_left hij).imp_right fun e =>
        (step.queueOf _).trans ((queueOf_setQueue_other apart _ _).trans e)

/-- A port as it goes down (R198). -/
def Upl.down (u : Upl) (member : Bool) : Upl := { u with rejoin := u.rejoin || member, rejoinPend := false, resend := none }

/-- The link and the wait for REJOIN are no part of the stamp queue. -/
theorem Upl.link_rejoin_of {u v : Upl} (h : u.sansStamps = v.sansStamps) : u.link = v.link ∧ u.rejoin = v.rejoin := by
  have link := congrArg (fun x : Upl => x.link) h
  have rejoin := congrArg (fun x : Upl => x.rejoin) h
  exact ⟨link, rejoin⟩

theorem portDown_eq (p : Nat) (s : State) :
    portDown p s = dropQueues p (modUpl p (fun u => u.down (regB s (rUpl p 0x18) 0)) s) := rfl

/-- R175, R198: a port that goes down. -/
theorem portDown_effect (p : Nat) (s : State) : (∀ i < 8, queueOf (portDown p s) (131072 + 8 * p + i) = []) ∧
    (uplOf (portDown p s) p).link = (uplOf s p).link ∧
    (regB s (rUpl p 0x18) 0 = true → (uplOf (portDown p s) p).rejoin = true) ∧ Changes releasing s (portDown p s) := by
  rw [portDown_eq]
  obtain ⟨hq, hports, hc⟩ := dropQueues_empty p (modUpl p (fun u => u.down (regB s (rUpl p 0x18) 0)) s)
  obtain ⟨link, rejoin⟩ := Upl.link_rejoin_of ((hports p).trans (congrArg Upl.sansStamps (uplOf_modUpl_same _ _ _)))
  refine ⟨hq, link, fun hg => rejoin.trans ?_, ((changes_modUpl _ _ s).mono (by decide)).trans hc⟩
  rw [hg]
  exact Bool.or_true _

/-- What a write of partition 0 does, once the block is READY. -/
theorem runs_p0 {c : Instr} {f : State → State} (hc : exec c s = .next (p0Write 0 0xF f (begin_ s))) (hr : Ready s) :
    Runs c s (f (begin_ s)) := hc.trans (congrArg Host.Outcome.next (p0Write_ready (s := begin_ s) hr rfl))

/-- Any other partition's write is counted alone. -/
theorem changes_p0_violation {part : BitVec 6} {be : BitVec 4} {f : State → State} (h : part ≠ 0) :
    Changes [.cnt] s (p0Write part be f s) := by
  unfold p0Write
  exact .ite (fun _ => changes_refl _ _) fun _ => .ite (fun _ => changes_partViol _ _) fun hp => absurd h hp

theorem isSecond_begin : isSecond (begin_ s) p = isSecond s p := rfl

/-- R176: what a write of UPL_CFG leaves. -/
theorem writeUplCfg_effect (p : Nat) (data : Word) (s : State) :
    reg (writeUplCfg p data s) (rUpl p 0) = data &&& 3 ∧
    (regB s (rUpl p 0) 0 = false → bit data 0 = true → ((uplOf (writeUplCfg p data s) p).paired = true ↔ bit data 1 = true ∧ p % 2 = 0)) ∧
    (∀ a, a ≠ rUpl p 0 → reg (writeUplCfg p data s) a = reg s a) ∧
    (∀ k, k ≠ p → uplOf (writeUplCfg p data s) k = uplOf s k) ∧ Changes [.regs, .upl] s (writeUplCfg p data s) := by
  have stored : Changes [.regs, .upl] s (setReg (rUpl p 0) (data &&& 3) s) := (changes_regs _ s).mono (by decide)
  have port (f : Upl → Upl) : Changes [.regs, .upl] s (modUpl p f (setReg (rUpl p 0) (data &&& 3) s)) :=
    stored.trans ((changes_modUpl _ _ _).mono (by decide))
  unfold writeUplCfg
  extract_lets a s1
  refine ⟨?_, fun hen hd => ?_, fun b hb => ?_, fun k hk => ?_, ?_⟩
  · split_ifs <;> exact reg_setReg_same _ _ _
  · rw [hd, hen, if_neg (by decide), if_neg (by decide)]
    simp
  · split_ifs <;> exact reg_setReg_other hb _ _
  · split_ifs
    · exact uplOf_modUpl_other hk _ _
    · rfl
    · exact uplOf_modUpl_other hk _ _
  · exact .ite (fun _ => port _) fun _ => .ite (fun _ => stored) fun _ => port _

end

/-- Settles O27: the link's fall drops the port's queues; the other clauses are single updates of the port. -/
theorem portLinkAndEnable : Obligations.PortLinkAndEnable := by
  unfold Obligations.PortLinkAndEnable
  refine fun s port part data => ⟨fun hs hl => ?_, fun hs => ?_, fun hr hp => ?_, fun hr hp => ?_, fun hr hp => ?_⟩
  · have run : Runs (.linkDown port) s (portDown port.toNat (modUpl port.toNat (fun u => { u with link := false }) (begin_ s))) :=
      congrArg Host.Outcome.next ((if_neg (by rw [isSecond_begin, hs]; decide)).trans (if_neg hl))
    obtain ⟨hq, hlink, hrejoin, hc⟩ := portDown_effect port.toNat (modUpl port.toNat (fun u => { u with link := false }) (begin_ s))
    refine ⟨_, run, hlink.trans (congrArg Upl.link (uplOf_modUpl_same _ _ _)), hq, hrejoin, ?_⟩
    exact (((changes_modUpl _ _ (begin_ s)).mono (by decide)).trans (hc.mono (by decide))).of_begin
  · have run : Runs (.linkUp port) s (modUpl port.toNat (fun u => { u with link := true }) (begin_ s)) :=
      congrArg Host.Outcome.next (if_neg (by rw [isSecond_begin, hs]; decide))
    exact ⟨_, run, uplOf_modUpl_same _ _ _, fun p hp => uplOf_modUpl_other hp _ _, rfl, (changes_modUpl _ _ _).of_begin⟩
  · subst hp
    have run := runs_p0 (c := .lagRejoin 0 port) (f := lagRejoin port.toNat) rfl hr
    cases hst : s.tim.started with
    | true =>
      rw [show lagRejoin port.toNat (begin_ s) = modUpl port.toNat (fun u => { u with rejoinPend := true }) (begin_ s) from if_pos hst] at run
      exact ⟨_, run, fun _ => congrArg Upl.rejoinPend (uplOf_modUpl_same _ _ _), nofun, fun p hp => uplOf_modUpl_other hp _ _,
        (changes_modUpl _ _ _).of_begin⟩
    | false =>
      rw [show lagRejoin port.toNat (begin_ s) = modUpl port.toNat (fun u => { u with rejoin := false }) (begin_ s) from
        if_neg (fun k : s.tim.started = true => Bool.noConfusion (hst.symm.trans k))] at run
      exact ⟨_, run, nofun, fun _ => congrArg Upl.rejoin (uplOf_modUpl_same _ _ _), fun p hp => uplOf_modUpl_other hp _ _,
        (changes_modUpl _ _ _).of_begin⟩
  · subst hp
    have run := runs_p0 (c := .portEnableWrite 0 port 0xF data) (f := writeUplCfg port.toNat data) rfl hr
    obtain ⟨hreg, hpair, hother, hports, hch⟩ := writeUplCfg_effect port.toNat data (begin_ s)
    exact ⟨_, run, hreg, hpair, hother, hports, hch.of_begin⟩
  · exact ⟨⟨_, rfl, (changes_p0_violation hp).of_begin⟩, _, rfl, (changes_p0_violation hp).of_begin⟩

end Sys2Proof.Machine
end

section
/-!
SUPPORT. The time engine's commands (R340 to R347, R368 to R372): each is an update of the clock, with the notices and faults it raises.
-/

namespace Sys2Proof.Machine

-- one declaration at a time: the package is compiled as one text within a limit of memory
set_option Elab.async false

section
variable {s t : State} {l : List Comp}

theorem changes_notice0 (type cause : Nat) (w6 w7 : Word) (s : State) : Changes noted s (notice0 type cause w6 w7 s) :=
  changes_notice _ _ s

theorem changes_fault (i b : Nat) (cap0 : Word) (acc mkind mnum part : Nat) (s : State) :
    Changes faulted s (fault i b cap0 acc mkind mnum part s) :=
  (powerKeeps_fault i b cap0 acc mkind mnum part s).changes.mono (by decide)

/-! ## Holdover -/

theorem enterHold_enters {cause : Nat} (h : s.tim.hold = false) (hs : s.tim.started = true) :
    (enterHold cause s).tim = { s.tim with
      hold := true, holdTick := s.tim.tick, incHeld := s.tim.incDef, incDef := none, slewHeld := s.tim.slewDef, slewDef := none } ∧
    Changes (.tim :: noted) s (enterHold cause s) := by
  unfold enterHold
  rw [if_neg (by simp [h, hs])]
  exact ⟨(changes_notice0 _ _ _ _ _) .tim (by decide), ((changes_tim _ s).mono (by decide)).trans ((changes_notice0 _ _ _ _ _).mono (by decide))⟩

theorem enterHold_held {cause : Nat} (h : s.tim.hold = true) : enterHold cause s = s := if_pos (.inl h)

theorem changes_enterHold (cause : Nat) (s : State) : Changes (.tim :: noted) s (enterHold cause s) := by
  unfold enterHold
  exact .ite (fun _ => changes_refl _ _) fun _ =>
    ((changes_tim _ s).mono (by decide)).trans ((changes_notice0 _ _ _ _ _).mono (by decide))

/-- No matter why, a started engine is in holdover then. -/
theorem enterHold_hold {cause : Nat} (hs : s.tim.started = true) : (enterHold cause s).tim.hold = true := by
  cases h : s.tim.hold with
  | true => rw [enterHold_held h]; exact h
  | false => rw [(enterHold_enters h hs).1]

theorem exitHold_free (h : s.tim.hold = false) : exitHold s = s := by simp [exitHold, h]

theorem putInc_keeps (v : Nat) (s : State) : (putInc v s).tim.hold = s.tim.hold ∧ (putInc v s).tim.incHeld = s.tim.incHeld ∧
    (putInc v s).tim.slewHeld = s.tim.slewHeld ∧ Changes [.tim] s (putInc v s) := by
  unfold putInc
  split
  · exact ⟨rfl, rfl, rfl, changes_tim _ s⟩
  · exact ⟨rfl, rfl, rfl, changes_tim _ s⟩

theorem putSlew_keeps (v : Int) (s : State) : (putSlew v s).tim.hold = s.tim.hold ∧ (putSlew v s).tim.incHeld = s.tim.incHeld ∧
    (putSlew v s).tim.slewHeld = s.tim.slewHeld ∧ Changes [.tim] s (putSlew v s) := by
  unfold putSlew
  split
  · exact ⟨rfl, rfl, rfl, changes_tim _ s⟩
  · exact ⟨rfl, rfl, rfl, changes_tim _ s⟩

/-- R346: the end of holdover, whatever writes it held. -/
theorem exitHold_exits (h : s.tim.hold = true) : (exitHold s).tim.hold = false ∧ (exitHold s).tim.incHeld = none ∧
    (exitHold s).tim.slewHeld = none ∧ Changes (.tim :: noted) s (exitHold s) := by
  unfold exitHold
  rw [if_neg (by simp [h])]
  extract_lets s1 ih sh t2 s2 s3
  have h2 : s2.tim.hold = false ∧ s2.tim.incHeld = none ∧ s2.tim.slewHeld = none ∧ Changes (.tim :: noted) s s2 :=
    ⟨rfl, rfl, rfl, ((changes_notice0 _ _ _ _ s).mono (by decide)).trans ((changes_tim _ s1).mono (by decide))⟩
  clear_value s2 ih sh
  have h3 : s3.tim.hold = false ∧ s3.tim.incHeld = none ∧ s3.tim.slewHeld = none ∧ Changes (.tim :: noted) s s3 := by
    obtain ⟨a, b, c, d⟩ := h2
    simp only [s3]
    cases ih with
    | some v =>
      obtain ⟨a', b', c', d'⟩ := putInc_keeps v s2
      exact ⟨a'.trans a, b'.trans b, c'.trans c, d.trans (d'.mono (by decide))⟩
    | none => exact ⟨a, b, c, d⟩
  clear_value s3
  obtain ⟨a, b, c, d⟩ := h3
  cases sh with
  | some v =>
    obtain ⟨a', b', c', d'⟩ := putSlew_keeps v s3
    exact ⟨a'.trans a, b'.trans b, c'.trans c, d.trans (d'.mono (by decide))⟩
  | none => exact ⟨a, b, c, d⟩

/-! ## Rate and slew -/

theorem changes_dropLo (p a : Nat) (s : State) : Changes [.regs] s (dropLo p a s) := changes_regs _ s

/-- What TIM_INC reads once its _HI half is written and no _LO is held (R337, R522). -/
def incWritten (s : State) (data : Word) : Nat := max incMin (min incMax (s.tim.inc % 2 ^ 32 + 2 ^ 32 * fld data 0 16))

/-- The write of TIM_INC is noted, and counted where the value is clipped. -/
theorem incHi_steps {data : Word} (h : tFind (pkey 0 (rTim 0x28)) s.regs.loHeld = none) : ∃ u,
    u.tim = { s.tim with wdogTick := s.tim.tick } ∧ Changes [.tim, .regs, .cnt] s u ∧
    incHi 0 data s = if u.tim.hold then { u with tim := { u.tim with incHeld := some (incWritten s data) } } else putInc (incWritten s data) u := by
  have lo : (loFor 0 (rTim 0x28) (w32 s.tim.inc) s).toNat = s.tim.inc % 2 ^ 32 := by
    rw [loFor, h]
    exact BitVec.toNat_ofNat _ _
  have dropped : Changes [.tim, .regs, .cnt] s (dropLo 0 (rTim 0x28) s) := (changes_dropLo _ _ s).mono (by decide)
  have e : incHi 0 data s = writeInc (s.tim.inc % 2 ^ 32 + 2 ^ 32 * fld data 0 16) (dropLo 0 (rTim 0x28) s) := by rw [← lo]; rfl
  rw [e]
  unfold writeInc
  extract_lets t0 c s1 t1 s2 t2
  have h1 : s1.tim = s.tim ∧ Changes [.tim, .regs, .cnt] s s1 := by
    simp only [s1]
    split
    · exact ⟨rfl, dropped⟩
    · exact ⟨count1_tim _ _ _, dropped.trans ((changes_count1 _ _ _).mono (by decide))⟩
  obtain ⟨tim, ch⟩ := h1
  refine ⟨s2, ?_, ch.trans ((changes_tim _ s1).mono (by decide)), rfl⟩
  show { s1.tim with wdogTick := s1.tim.tick } = _
  rw [tim]

theorem changes_putInc (v : Nat) (s : State) : Changes [.tim] s (putInc v s) := (putInc_keeps v s).2.2.2

/-- Ahead of cycle 156,186 a new rate is in force at once. -/
theorem putInc_now {v : Nat} (h : cyc s < 156186) : putInc v s = { s with tim := { s.tim with inc := v, incWas := some (s.tim.now, s.tim.inc) } } :=
  if_neg fun k => absurd k.2 (Nat.not_le.mpr h)

theorem putSlew_now {v : Int} (h : cyc s < 156186) : putSlew v s = { s with tim := { s.tim with slew := v, slewWas := some (s.tim.now, s.tim.slew) } } :=
  if_neg fun k => absurd k.2 (Nat.not_le.mpr h)

/-- R342: the slew is used up in the cycles that its amount takes at MAXPPB. -/
theorem slewIn_whole {n : Nat} (hh : s.tim.hold = false) (hn : s.tim.slew.natAbs ≤ n * slewTerm s) : slewIn s n = s.tim.slew := by
  unfold slewIn
  rw [hh, if_neg Bool.false_ne_true, Nat.min_eq_left hn]
  dsimp only
  split <;> omega

theorem le_ceilDiv_mul {a b : Nat} (h : b ≠ 0) : a ≤ ceilDiv a b * b := by
  unfold ceilDiv
  have := Nat.div_add_mod (a + b - 1) b
  have := Nat.mod_lt (a + b - 1) (Nat.pos_of_ne_zero h)
  have := Nat.mul_comm b ((a + b - 1) / b)
  omega

/-- The clock after `n` cycles at one rate. -/
theorem passRate_clock {n : Nat} (hs : s.tim.started = true) (hn : s.tim.slew.natAbs ≤ n * slewTerm s) (hh : s.tim.hold = false) :
    (passRate n s).tim.slew = 0 ∧ (passRate n s).tim.time = addTime (s.tim.time + n * s.tim.inc) s.tim.slew := by
  have whole := slewIn_whole hh hn
  unfold passRate
  split
  · next h0 =>
    subst h0
    have none : s.tim.slew = 0 := by omega
    rw [none]
    exact ⟨rfl, by simp [addTime]⟩
  · dsimp only
    rw [if_pos hs]
    exact ⟨by show s.tim.slew - slewIn s n = 0; rw [whole]; omega, by show addTime _ (slewIn s n) = _; rw [whole]⟩

theorem oldRate_begin (h : oldRate s = none) : oldRate (begin_ s) = none := by
  unfold oldRate at h ⊢
  extract_lets inc slew at h ⊢
  split at h
  · next hc => exact if_pos hc
  · exact nomatch h

/-- R342: the command's cycles, where nothing else falls due in them. -/
theorem slewEnd_runs {n : Nat} (hs : s.tim.started = true) (hh : s.tim.hold = false) (hz : Still s) (hr : s.cnt.round = none)
    (ho : oldRate s = none) (ht : slewTerm s ≠ 0) (hn : n = ceilDiv s.tim.slew.natAbs (slewTerm s)) (hb : n < toNextBeat s) :
    slewEnd s = passRate n s := by
  have settled : settleRate s = s := by simp [settleRate, ho]
  unfold slewEnd
  rw [settled, if_neg (by simp [hs, hh])]
  dsimp only
  rw [if_neg ht, ← hn, Nat.min_eq_left (by omega), lapse_still hz, advanceClk_noRound hr]
  unfold passClk
  rw [ho, ite_self]

end

/-- Settles O49: each command is an update of the clock; the end of a slew is `passRate`. -/
theorem timeControl : Obligations.TimeControl := by
  unfold Obligations.TimeControl
  intro s hr hs
  refine ⟨?_, fun ha => ?_, fun ha => ?_, fun hh => ⟨?_, ?_, fun hw hd => ?_, fun data hlo hc => ?_, fun data hlo hc => ?_, fun n hz hround ho ht hn hb => ?_⟩,
    fun hh => ⟨?_, ?_, fun hn hd => ?_, fun data hlo => ?_⟩⟩
  · have run := runs_p0 (c := .timRestart 0) (f := ctlRestart) rfl hr
    rw [show ctlRestart (begin_ s) = { begin_ s with tim := { s.tim with restart := some (timSrc s), stepPend := none } } from
      if_neg (by simp [begin_, hs])] at run
    exact ⟨_, run, rfl, (changes_tim _ _).of_begin⟩
  · have run := runs_p0 (c := .stepGo 0) (f := ctlStep) rfl hr
    rw [show ctlStep (begin_ s) = { begin_ s with tim := { s.tim with armed := false, stepPend := some (sext 64 (pairAfter s (rTim 0x40))) } } from
      if_pos ha] at run
    exact ⟨_, run, rfl, (changes_tim _ _).of_begin⟩
  · have run := runs_p0 (c := .stepGo 0) (f := ctlStep) rfl hr
    rw [show ctlStep (begin_ s) = notice0 0x43 0 0 0 (count1 3 1 (begin_ s)) from if_neg (by simp [begin_, ha])] at run
    exact ⟨_, run, (((changes_count1 _ _ _).mono (by decide)).trans (changes_notice0 _ _ _ _ _)).of_begin⟩
  · have run := runs_p0 (c := .timHold 0) (f := ctlHold) rfl hr
    obtain ⟨tim, ch⟩ := enterHold_enters (s := begin_ s) (cause := 1) hh hs
    exact ⟨_, run, congrArg Tim.hold tim, congrArg Tim.holdTick tim, (congrArg Tim.inc tim).trans rfl, ch.of_begin⟩
  · have run := runs_p0 (c := .holdClr 0) (f := ctlHoldClr) rfl hr
    rwa [show ctlHoldClr (begin_ s) = begin_ s from exitHold_free (s := begin_ s) hh] at run
  · have run : Runs .holdWatchdogExpire s (enterHold 2 (begin_ s)) := congrArg Host.Outcome.next (if_pos ⟨hw, hs, hd⟩)
    obtain ⟨tim, ch⟩ := enterHold_enters (s := begin_ s) (cause := 2) hh hs
    exact ⟨_, run, congrArg Tim.hold tim, congrArg Tim.holdTick tim, ch.of_begin⟩
  · have run := runs_p0 (c := .timIncWrite 0 0xF data) (f := incHi 0 data) rfl hr
    obtain ⟨u, tim, ch, e⟩ := incHi_steps (s := begin_ s) (data := data) hlo
    have free : ¬ u.tim.hold = true := by rw [tim]; simp [begin_, hh]
    have early : cyc u < 156186 := by unfold cyc; rw [tim]; exact hc
    rw [if_neg free, putInc_now early] at e
    rw [e] at run
    exact ⟨_, run, rfl, congrArg Tim.wdogTick tim, (ch.trans ((changes_tim _ _).mono (by decide))).of_begin⟩
  · have run := runs_p0 (c := .timSlewWrite 0 0xF data) (f := slewHi 0 data) rfl hr
    have e : slewHi 0 data (begin_ s) = putSlew (sext 64 (2 ^ 32 * data.toNat) * (2 ^ 32 : Nat)) (dropLo 0 (rTim 0x30) (begin_ s)) := by
      unfold slewHi
      rw [show loFor 0 (rTim 0x30) (w32 (slewReg (begin_ s))) (begin_ s) = 0 from congrArg (fun x : Option Word => x.getD _) hlo]
      unfold writeSlew
      exact (if_neg (show ¬ s.tim.hold = true by simp [hh])).trans (by simp)
    rw [e, putSlew_now (s := dropLo 0 (rTim 0x30) (begin_ s)) hc] at run
    exact ⟨_, run, rfl, rfl, (((changes_dropLo _ _ _).mono (by decide)).trans ((changes_tim _ _).mono (by decide))).of_begin⟩
  · have run : Runs .slewEnd s (passRate n (begin_ s)) :=
      congrArg Host.Outcome.next (slewEnd_runs (s := begin_ s) hs hh hz hround (oldRate_begin ho) ht hn hb)
    have pass := clockPasses_passRate n (begin_ s)
    obtain ⟨slew, time⟩ := passRate_clock (s := begin_ s) (n := n) hs (by subst hn; exact le_ceilDiv_mul ht) hh
    obtain ⟨tick, -, -⟩ := pass.tick
    exact ⟨_, run, slew, pass.now, time, tick, pass.out, pass.changes.of_begin⟩
  · have run := runs_p0 (c := .timHold 0) (f := ctlHold) rfl hr
    rw [show ctlHold (begin_ s) = begin_ s from enterHold_held (s := begin_ s) hh] at run
    exact ⟨_, run, (changes_refl _ (begin_ s)).of_begin⟩
  · have run := runs_p0 (c := .holdClr 0) (f := ctlHoldClr) rfl hr
    obtain ⟨hold, inc, slew, ch⟩ := exitHold_exits (s := begin_ s) hh
    exact ⟨_, run, hold, inc, slew, ch.of_begin⟩
  · have lasted : s.tim.hold = true ∧ (reg s (rTim 0x4C)).toNat ≠ 0 ∧ s.tim.holdTick + (reg s (rTim 0x4C)).toNat ≤ s.tim.tick :=
      ⟨hh, fun k => hn (BitVec.eq_of_toNat_eq k), hd⟩
    have run : Runs .traceLost s (notice0 0x4A 0 0 0 (setTrace false (begin_ s))) := congrArg Host.Outcome.next (if_pos lasted)
    have regs : (notice0 0x4A 0 0 0 (setTrace false (begin_ s))).regs = (setTrace false (begin_ s)).regs :=
      changes_notice0 _ _ _ _ _ .regs (by decide)
    have same (a : Nat) : reg (notice0 0x4A 0 0 0 (setTrace false (begin_ s))) a = reg (setTrace false (begin_ s)) a := by
      unfold reg; rw [regs]
    refine ⟨_, run, ?_, fun a ha => (same a).trans (reg_setReg_other ha _ _), ?_⟩
    · unfold regB
      rw [same, setTrace, reg_setReg_same]
      simp only [bit, mergeW, Bool.false_eq_true, if_false]
      simp
      exact fun _ => by decide
    · exact (((changes_regs _ _).mono (by decide)).trans ((changes_notice0 _ _ _ _ _).mono (by decide))).of_begin
  · have run := runs_p0 (c := .timIncWrite 0 0xF data) (f := incHi 0 data) rfl hr
    obtain ⟨u, tim, ch, e⟩ := incHi_steps (s := begin_ s) (data := data) hlo
    have held : u.tim.hold = true := by rw [tim]; exact hh
    rw [if_pos held] at e
    rw [e] at run
    exact ⟨_, run, (congrArg Tim.inc tim).trans rfl, rfl, (ch.trans ((changes_tim _ _).mono (by decide))).of_begin⟩

end Sys2Proof.Machine
end

section
/-!
SUPPORT. Bytes and the numbers they spell, most significant first, and the range of the CRC of R67.
-/

namespace Sys2Proof.Machine

-- one declaration at a time: the package is compiled as one text within a limit of memory
set_option Elab.async false

section
variable {l l' : List Byte} {n o v : Nat}

@[simp] theorem length_beBytes : ∀ n v, (beBytes n v).length = n
  | 0, _ => rfl
  | n + 1, v => congrArg (· + 1) (length_beBytes n v)

theorem ofBe_foldl (l : List Byte) (a : Nat) : l.foldl (fun a b => 256 * a + b.toNat) a = a * 256 ^ l.length + ofBe l := by
  unfold ofBe
  induction l generalizing a with
  | nil => simp
  | cons b l ih =>
    rw [List.foldl_cons, List.foldl_cons, ih, ih (256 * 0 + _), List.length_cons, Nat.pow_succ]
    ring

theorem ofBe_cons (b : Byte) (l : List Byte) : ofBe (b :: l) = b.toNat * 256 ^ l.length + ofBe l := by
  unfold ofBe
  rw [List.foldl_cons, ofBe_foldl, Nat.mul_zero, Nat.zero_add]
  rfl

theorem ofBe_beBytes : ∀ n v, ofBe (beBytes n v) = v % 256 ^ n
  | 0, v => by simp [beBytes, ofBe, Nat.mod_one]
  | n + 1, v => by
    have digits : v % 256 ^ (n + 1) = v % 256 ^ n + 256 ^ n * (v / 256 ^ n % 256) := by rw [Nat.pow_succ, Nat.mod_mul]
    rw [beBytes, ofBe_cons, ofBe_beBytes n v, length_beBytes, BitVec.toNat_ofNat, digits, Nat.mul_comm, Nat.add_comm]

/-- A field that lies whole within the bytes. -/
theorem beAt_whole (h : o + n ≤ l.length) : beAt l o n = ofBe (sub l o n) := by
  have whole : (sub l o n).length = n := by
    rw [sub, List.length_take, List.length_drop]
    omega
  unfold beAt
  dsimp only
  rw [whole, Nat.sub_self, Nat.pow_zero, Nat.mul_one]

theorem sub_append_left (h : o + n ≤ l.length) : sub (l ++ l') o n = sub l o n := by
  unfold sub
  rw [List.drop_append_of_le_length (by omega), List.take_append_of_le_length (by rw [List.length_drop]; omega)]

theorem sub_append_here (h : l'.length = n) (r : List Byte) : sub (l ++ (l' ++ r)) l.length n = l' := by
  unfold sub
  rw [List.drop_left, List.take_left' h]

theorem ofBe_lt (l : List Byte) : ofBe l < 256 ^ l.length := by
  induction l with
  | nil => simp [ofBe]
  | cons b l ih =>
    have := b.isLt
    rw [ofBe_cons, List.length_cons, Nat.pow_succ]
    nlinarith

theorem beAt_lt (l : List Byte) (o n : Nat) : beAt l o n < 256 ^ n := by
  have short : (sub l o n).length ≤ n := List.length_take_le _ _
  have split : 256 ^ n = 256 ^ (sub l o n).length * 256 ^ (n - (sub l o n).length) := by
    rw [← Nat.pow_add, Nat.add_sub_cancel' short]
  unfold beAt
  dsimp only
  rw [split]
  exact Nat.mul_lt_mul_of_pos_right (ofBe_lt _) (by positivity)

/-- A field spelt by `beBytes` between other bytes. -/
theorem beAt_beBytes (r : List Byte) (h : l.length = o) : beAt (l ++ (beBytes n v ++ r)) o n = v % 256 ^ n := by
  subst h
  rw [beAt_whole (by simp), sub_append_here (length_beBytes n v), ofBe_beBytes]

/-- A step of a CRC stays within its register. -/
theorem crcBit_lt {poly r : Nat} {b : Bool} (h : poly < 2 ^ n) : crcBit n poly r b < 2 ^ n := by
  unfold crcBit
  dsimp only
  split
  · exact Nat.xor_lt_two_pow (Nat.mod_lt _ (by positivity)) h
  · exact Nat.mod_lt _ (by positivity)

theorem foldl_lt {α : Type} {f : Nat → α → Nat} {b : Nat} (hf : ∀ r x, f r x < b) (l : List α) {r : Nat} (hr : r < b) : l.foldl f r < b := by
  induction l generalizing r with
  | nil => exact hr
  | cons x l ih => exact ih (hf r x)

theorem crc16_lt (l : List Byte) : crc16 l < 2 ^ 16 := by
  have bit (r : Nat) (b : Bool) : crcBit 16 0x1021 r b < 2 ^ 16 := crcBit_lt (by decide)
  unfold crc16 crcMsb
  refine foldl_lt (fun r b => ?_) l (by decide)
  exact bit _ _

end

end Sys2Proof.Machine
end

section
/-!
SUPPORT. The time pins (R340, R368 to R372): TIM_EPOCH, PPS_IN, PPS_OUT and the time-of-day messages, each due in the cycle of its command.
-/

namespace Sys2Proof.Machine

-- one declaration at a time: the package is compiled as one text within a limit of memory
set_option Elab.async false

section
variable {s : State}

/-- R375: an edge that comes back after a loss is told. -/
theorem changes_noticeIf (c : Bool) (type cause : Nat) (w6 w7 : Word) (s : State) :
    Changes noted s (if c then notice0 type cause w6 w7 s else s) :=
  .ite (fun _ => changes_notice0 _ _ _ _ _) fun _ => changes_refl _ _

/-- An accepted edge of the started engine, where no restart waits for it. -/
theorem ppsAccept_running (hs : s.tim.started = true) (hr : s.tim.restart ≠ some true) :
    (ppsAccept s).tim = { s.tim with
      ppsLast := some s.tim.now, ppsLost := false, ppsiTerr := tickErr s, ppsiTime := addTime s.tim.time (-(ofs16 (reg s (rTim 0x68)))) } ∧
    Changes (.tim :: faulted) s (ppsAccept s) := by
  unfold ppsAccept
  extract_lets known terr s0 back t0 s1 tw s2 s3 t3 s4
  have start : s0 = s := if_pos hs
  have err : terr = tickErr s := if_pos hs
  clear_value s0 terr
  subst start err
  have h1 : Changes (.tim :: faulted) s0 s1 := (changes_tim _ s0).mono (by decide)
  have h2 : Changes noted s1 s2 := changes_noticeIf _ _ _ _ _ _
  have h3 : Changes faulted s2 s3 := .ite (fun _ => (changes_fault _ _ _ _ _ _ _ _).trans ((changes_notice0 _ _ _ _ _).mono (by decide)))
    fun _ => changes_refl _ _
  have tim : s3.tim = s1.tim := Eq.trans (h3 .tim (by decide)) (h2 .tim (by decide))
  have whole : Changes (.tim :: faulted) s0 s3 := (h1.trans (h2.mono (by decide))).trans (h3.mono (by decide))
  clear_value s3
  rw [if_neg (by rw [tim]; exact hr)]
  exact ⟨tim, whole⟩

/-- R368, R376: the loss of PPS_IN, once its window has passed. -/
theorem ppsLoss_due {l : Nat} (hen : regB s (rTim 0x60) 0 = true) (hl : s.tim.ppsLast = some l) (hn : s.tim.ppsLost = false)
    (hd : l + 1250000000 + regF s (rTim 0x64) 0 21 ≤ s.tim.now) :
    (ppsLoss s).tim.ppsLost = true ∧ bit (fltOf (ppsLoss s) 3).st 2 = true ∧
    (regB s (rTim 0x48) 16 = true → s.tim.started = true → (ppsLoss s).tim.hold = true) ∧ Changes (.tim :: faulted) s (ppsLoss s) := by
  have due : (if regB s (rTim 0x60) 0 && !s.tim.ppsLost then s.tim.ppsLast else none) = some l := by rw [hen, hn, hl]; rfl
  unfold ppsLoss
  rw [due]
  dsimp only
  rw [waitUntil_due (show l + secCyc + _ ≤ _ from hd), if_neg (Nat.not_lt.mpr (show l + secCyc + _ ≤ _ from hd))]
  generalize hs1 : ({ s with tim := { s.tim with ppsLost := true } } : State) = s1
  have h1 : s1.tim.ppsLost = true ∧ s1.tim.started = s.tim.started ∧ s1.regs = s.regs ∧ Changes (.tim :: faulted) s s1 := by
    subst hs1
    exact ⟨rfl, rfl, rfl, (changes_tim _ s).mono (by decide)⟩
  obtain ⟨lost, started, regs, ch⟩ := h1
  clear hs1
  have told := changes_notice0 0x46 0 0 0 (fault 3 2 0 6 9 0 0 s1)
  have raised := (changes_fault 3 2 0 6 9 0 0 s1).trans (told.mono (by decide))
  have st : bit (fltOf (notice0 0x46 0 0 0 (fault 3 2 0 6 9 0 0 s1)) 3).st 2 = true := by
    unfold fltOf
    rw [told .flt (by decide)]
    exact fault_st (i := 3) (by decide)
  generalize notice0 0x46 0 0 0 (fault 3 2 0 6 9 0 0 s1) = s2 at raised st
  have tim2 : s2.tim = s1.tim := raised .tim (by decide)
  have regs2 : s2.regs = s1.regs := raised .regs (by decide)
  have held : regB s2 (rTim 0x48) 16 = regB s (rTim 0x48) 16 := by unfold regB reg; rw [regs2, regs]
  have whole : Changes (.tim :: faulted) s s2 := ch.trans (raised.mono (by decide))
  rw [held]
  cases regB s (rTim 0x48) 16 with
  | false => exact ⟨by rw [if_neg Bool.false_ne_true, tim2]; exact lost, by rw [if_neg Bool.false_ne_true]; exact st, nofun, whole⟩
  | true =>
    rw [if_pos rfl]
    have enters := changes_enterHold 3 s2
    refine ⟨?_, ?_, fun _ hs => enterHold_hold (by rw [tim2, started]; exact hs), whole.trans (enters.mono (by decide))⟩
    · have keeps : (enterHold 3 s2).tim.ppsLost = s2.tim.ppsLost := by
        cases hh : s2.tim.hold with
        | true => rw [enterHold_held hh]
        | false =>
          cases hst : s2.tim.started with
          | true => rw [(enterHold_enters hh hst).1]
          | false => rw [show enterHold 3 s2 = s2 from if_pos (.inr (by rw [hst]; rfl))]
      rw [keeps, tim2]
      exact lost
    · unfold fltOf
      rw [enters .flt (by decide)]
      exact st

/-- R369: the edge lies in this cycle where the second turns in it. -/
theorem outEdgeCyc_now (hb : 0 < toNextBeat s) (ho : outReaches s s.tim.now = true) : outEdgeCyc s = some s.tim.now := by
  unfold outEdgeCyc
  extract_lets sec left n
  rw [List.singleton_append, List.find?_cons_of_pos]
  simp [ho, hb]

theorem oldRate_begin_map (s : State) : oldRate (begin_ s) = (oldRate s).map begin_ := by
  unfold oldRate
  dsimp only
  rw [apply_ite (Option.map begin_)]
  rfl

theorem timeAtCyc_begin (s : State) (k : Nat) : timeAtCyc (begin_ s) k = timeAtCyc s k := by
  unfold timeAtCyc
  rw [oldRate_begin_map]
  refine ite_same ?_ rfl
  cases oldRate s <;> rfl

theorem outSec_begin (s : State) (k : Nat) : outSec (begin_ s) k = outSec s k := by
  unfold outSec
  rw [timeAtCyc_begin]
  rfl

theorem outReaches_begin (s : State) (k : Nat) : outReaches (begin_ s) k = outReaches s k := by
  unfold outReaches
  rw [outSec_begin, outSec_begin]

theorem outEdgeCyc_begin (s : State) : outEdgeCyc (begin_ s) = outEdgeCyc s := by
  unfold outEdgeCyc
  simp only [outReaches_begin]
  rfl

/-- R371: bytes 0 to 2, 4 to 9 and 14 to 15 of a message. -/
theorem todBytes_fields (flags sec utc : Nat) : (todBytes flags sec utc).length = 16 ∧ beAt (todBytes flags sec utc) 0 3 = 0x485401 ∧
    beAt (todBytes flags sec utc) 4 6 = sec % 2 ^ 48 ∧ beAt (todBytes flags sec utc) 14 2 = crc16 ((todBytes flags sec utc).take 14) := by
  have head (f : Byte) : [0x48, 0x54, 0x01, f] = beBytes 3 0x485401 ++ [f] := rfl
  generalize hb : [0x48, 0x54, 0x01, BitVec.ofNat 8 flags] ++ beBytes 6 sec ++ beBytes 2 utc ++ beBytes 2 0 = b
  have e : todBytes flags sec utc = b ++ (beBytes 2 (crc16 b) ++ []) := by rw [List.append_nil, ← hb]; rfl
  have len : b.length = 14 := by rw [← hb]; simp
  have early (o n : Nat) (h : o + n ≤ 14) : beAt (b ++ (beBytes 2 (crc16 b) ++ [])) o n = beAt b o n := by
    rw [beAt_whole (by simp; omega), beAt_whole (by omega), sub_append_left (by omega)]
  rw [e, early 0 3 (by decide), early 4 6 (by decide), beAt_beBytes _ len, Nat.mod_eq_of_lt (show crc16 b < 256 ^ 2 from crc16_lt b), List.take_left' len]
  refine ⟨by simp [len], ?_, ?_, rfl⟩
  · rw [← hb, head, List.append_assoc, List.append_assoc, List.append_assoc, ← List.nil_append (beBytes 3 _ ++ _)]
    exact beAt_beBytes (l := []) _ rfl
  · rw [← hb, List.append_assoc, List.append_assoc]
    exact beAt_beBytes (o := 4) _ rfl

/-- The edge of the started engine starts nothing. -/
theorem ppsEdge_running (hen : regB s (rTim 0x60) 0 = true) (ha : ppsAccepts s = true) (hs : s.tim.started = true) :
    ppsEdge s = ppsAccept s := by
  unfold ppsEdge
  rw [hen, ha, if_neg (by decide), if_neg (by decide)]
  dsimp only
  cases s.tim.startWait with
  | none => rfl
  | some x => simp [hs]

/-- R369: PPS_OUT in the cycle in which the second turns. -/
theorem ppsOutEdge_now (hs : s.tim.started = true) (hen : regB s (rTim 0x60) 1 = true) (hb : 0 < toNextBeat s)
    (ho : outReaches s s.tim.now = true) : ppsOutEdge s = if s.tim.ppsOut && s.tim.ppsOutAt == s.tim.now then s else
      { s with tim := { s.tim with
        ppsOut := true, ppsOutAt := s.tim.now, ppsOutSec := outSec s s.tim.now, todDue := true, todOut := none } } := by
  unfold ppsOutEdge
  rw [hs, hen, if_neg (by decide), ho, if_pos rfl]
  dsimp only
  rw [outEdgeCyc_now hb ho]
  dsimp only
  rw [waitUntil_due (Nat.le_refl _)]

theorem ppsOutEdge_none (hn : outEdgeCyc s = none) (ho : oldRate s = none) : ppsOutEdge s = s := by
  have settled : settleRate s = s := by simp [settleRate, ho]
  unfold ppsOutEdge
  rw [settled, ite_self]
  dsimp only
  rw [hn, ite_self]

theorem ppsOutEnd_due (hp : s.tim.ppsOut = true) (hd : s.tim.ppsOutAt + regF s (rTim 0x60) 2 9 * 1250000 ≤ s.tim.now) :
    ppsOutEnd s = { s with tim := { s.tim with ppsOut := false } } := by
  unfold ppsOutEnd
  rw [hp, if_neg (by decide)]
  dsimp only
  rw [waitUntil_due hd, if_neg (Nat.not_lt.mpr hd)]

/-- The message that labels the last edge of PPS_OUT (R371). -/
def edgeMessage (s : State) : List Byte :=
  todBytes (b2n (trace s) + 2 * b2n s.tim.hold + 4 * b2n (stepRecent s)) s.tim.ppsOutSec (regF s (rTim 0x50) 0 16)

theorem todOutSend_due (hen : regB s (rTim 0x70) 1 = true) (hdue : s.tim.todDue = true) (hd : s.tim.ppsOutAt + 1250000 ≤ s.tim.now) :
    todOutSend s = emit (.todOut (regF s (rTim 0x70) 2 2) (todLine (edgeMessage s)))
      { s with tim := { s.tim with todOut := some (edgeMessage s), todDue := false } } := by
  unfold todOutSend
  rw [hen, hdue, if_neg (by decide)]
  dsimp only
  rw [waitUntil_due hd, if_neg (Nat.not_lt.mpr hd)]
  rfl

end

/-- Settles O50: every clause is one update of the time engine in the cycle of its command. -/
theorem epochAndPulses : Obligations.EpochAndPulses := by
  unfold Obligations.EpochAndPulses
  refine fun s => ⟨fun part hr => ?_, fun hen => ⟨fun ha hs hrs => ?_, fun ha => ?_, fun l hl hn hd => ?_⟩,
    fun hs hen => ⟨fun hb ho => ?_, fun hn ho => ?_⟩, fun hp hd => ?_, fun hp => ?_, fun hen hdue hd => ?_, fun bytes hen => ⟨fun hc => ?_, fun hc => ?_⟩⟩
  · have run : Runs (.timEpochRead part) s (emit (.regRead (compact s.tim.time))
        { begin_ s with tim := { s.tim with caps := tPut part.toNat (s.tim.time, s.tim.stepN) s.tim.caps } }) :=
      congrArg Host.Outcome.next (if_neg fun k => k hr)
    exact ⟨_, run, rfl, tFind_tPut_same _ _ _, rfl, (changes_tim _ _).of_begin.emit⟩
  · have run : Runs .ppsInEdge s (ppsAccept (begin_ s)) := congrArg Host.Outcome.next (ppsEdge_running (s := begin_ s) hen ha hs)
    obtain ⟨tim, ch⟩ := ppsAccept_running (s := begin_ s) hs hrs
    exact ⟨_, run, congrArg Tim.ppsLast tim, congrArg Tim.ppsLost tim, congrArg Tim.ppsiTime tim, (congrArg Tim.time tim).trans rfl, ch.of_begin⟩
  · have run : Runs .ppsInEdge s (count1 3 3 (begin_ s)) := congrArg Host.Outcome.next
      ((if_neg (by show ¬(!regB s (rTim 0x60) 0) = true; simp [hen])).trans (if_pos (by show (!ppsAccepts s) = true; simp [ha])))
    exact ⟨_, run, count1_out _ _ _, (changes_count1 _ _ _).of_begin⟩
  · obtain ⟨lost, st, hold, ch⟩ := ppsLoss_due (s := begin_ s) hen hl hn hd
    exact ⟨_, rfl, lost, st, hold, ch.of_begin⟩
  · have reaches : outReaches (begin_ s) s.tim.now = true := by rw [outReaches_begin]; exact decide_eq_true ho
    have run : Runs .ppsOutEdge s _ := congrArg Host.Outcome.next (ppsOutEdge_now (s := begin_ s) hs hen hb reaches)
    cases hout : s.tim.ppsOut with
    | false =>
      rw [show (begin_ s).tim.ppsOut = false from hout, Bool.false_and, if_neg Bool.false_ne_true, outSec_begin] at run
      exact ⟨_, run, rfl, rfl, fun _ => ⟨rfl, rfl, rfl⟩, (changes_tim _ _).of_begin⟩
    | true =>
      rw [show (begin_ s).tim.ppsOut = true from hout, Bool.true_and] at run
      by_cases hat : (begin_ s).tim.ppsOutAt = (begin_ s).tim.now
      · rw [if_pos (beq_iff_eq.mpr hat)] at run
        exact ⟨_, run, hout, hat, nofun, (changes_refl _ (begin_ s)).of_begin⟩
      · rw [if_neg (fun k => hat (beq_iff_eq.mp k))] at run
        exact ⟨_, run, rfl, rfl, nofun, (changes_tim _ _).of_begin⟩
  · exact congrArg Host.Outcome.next (ppsOutEdge_none ((outEdgeCyc_begin s).trans hn) (oldRate_begin ho))
  · have run : Runs .ppsOutEnd s { begin_ s with tim := { s.tim with ppsOut := false } } :=
      congrArg Host.Outcome.next (ppsOutEnd_due (s := begin_ s) hp hd)
    exact ⟨_, run, rfl, (changes_tim _ _).of_begin⟩
  · exact congrArg Host.Outcome.next (if_pos (by show (!s.tim.ppsOut) = true; simp [hp]))
  · obtain ⟨len, sync, sec, crc⟩ := todBytes_fields (b2n (trace s) + 2 * b2n s.tim.hold + 4 * b2n (stepRecent s)) s.tim.ppsOutSec
      (regF s (rTim 0x50) 0 16)
    have run : Runs .todOutSend s _ := congrArg Host.Outcome.next (todOutSend_due (s := begin_ s) hen hdue hd)
    exact ⟨_, edgeMessage s, run, rfl, rfl, rfl, len, sync, sec, crc, (changes_tim _ _).of_begin.emit⟩
  · have run : Runs (.todInMessage bytes) s { begin_ s with tim := { s.tim with
        todiAt := s.tim.now, todiOld := todiShown s, todiSec := BitVec.ofNat 48 (beAt bytes 4 6), todiFlags := BitVec.ofNat 3 (byteAt bytes 3),
        todiUtc := BitVec.ofNat 16 (beAt bytes 10 2), todiNew := true } } := congrArg Host.Outcome.next
      ((if_neg (by show ¬(!regB s (rTim 0x70) 0) = true; simp [hen])).trans (if_pos hc))
    refine ⟨_, run, ?_, ?_, rfl, rfl, (changes_tim _ _).of_begin⟩
    · exact (BitVec.toNat_ofNat _ _).trans (Nat.mod_eq_of_lt (beAt_lt bytes 4 6))
    · exact (BitVec.toNat_ofNat _ _).trans (Nat.mod_eq_of_lt (beAt_lt bytes 10 2))
  · have run : Runs (.todInMessage bytes) s (notice0 0x49 (todCause bytes s) 0 0
        (fault 3 3 (w32 (todCause bytes s)) 0 9 0 0 (count1 3 4 (begin_ s)))) := congrArg Host.Outcome.next
      ((if_neg (by show ¬(!regB s (rTim 0x70) 0) = true; simp [hen])).trans (if_neg hc))
    have told := changes_notice0 0x49 (todCause bytes s) 0 0 (fault 3 3 (w32 (todCause bytes s)) 0 9 0 0 (count1 3 4 (begin_ s)))
    have raised : Changes faulted (begin_ s) (fault 3 3 (w32 (todCause bytes s)) 0 9 0 0 (count1 3 4 (begin_ s))) :=
      ((changes_count1 _ _ _).mono (by decide)).trans (changes_fault _ _ _ _ _ _ _ _)
    have whole := (raised.trans (told.mono (by decide))).of_begin
    refine ⟨_, run, whole .tim (by decide), ?_, whole⟩
    unfold fltOf
    rw [told .flt (by decide)]
    exact fault_st (i := 3) (by decide)

end Sys2Proof.Machine
end

section
/-!
SUPPORT. The fault sets: what a cycle leaves of them, the turn of an idle step, and what software's writes do to them (R418 to R431).
-/

namespace Sys2Proof.Machine

-- one declaration at a time: the package is compiled as one text within a limit of memory
set_option Elab.async false

/-! ## What a cycle leaves of a fault set -/

/-- A fault set without its count. -/
def FaultSet.sansCount (f : FaultSet) : FaultSet := { f with more := 0 }

/-- Every fault set is the same but for its count. -/
def SetsKeep (s t : State) : Prop := ∀ i, (fltOf t i).sansCount = (fltOf s i).sansCount

section
variable {s t u : State}

theorem SetsKeep.refl (s : State) : SetsKeep s s := fun _ => rfl

theorem SetsKeep.trans (h : SetsKeep s t) (k : SetsKeep t u) : SetsKeep s u := fun i => (k i).trans (h i)

theorem SetsKeep.of_flt (h : t.flt = s.flt) : SetsKeep s t := fun i => by unfold fltOf; rw [h]

theorem SetsKeep.foldl {α : Type} {g : State → α → State} (h : ∀ s x, SetsKeep s (g s x)) (l : List α) (s : State) :
    SetsKeep s (l.foldl g s) := by
  induction l generalizing s with
  | nil => exact .refl s
  | cons x l ih => exact (h s x).trans (ih _)

/-- R422: a persistent cause counts. -/
theorem setsKeep_persistCount (n : Nat) (s : State) : SetsKeep s (persistCount n s) :=
  .foldl (fun u e => by
    dsimp only
    split
    · intro i
      by_cases h : i = e.1
      · subst h
        rw [fltOf_setFlt_same]
        rfl
      · rw [fltOf_setFlt_other h]
    · exact .refl u) _ s

theorem setsKeep_cycleCounts (n : Nat) (s : State) : SetsKeep s (cycleCounts n s) := by
  have paused (u : State) : SetsKeep u (pauseCount n u) := .foldl (fun u e => by
    refine SetsKeep.trans ?_ (.foldl (fun w p => .of_flt (countO_flt _ _ _ _ w)) _ _)
    split
    · exact .of_flt (countO_flt _ _ _ _ u)
    · exact .refl u) _ u
  exact ((setsKeep_persistCount n s).trans (paused _)).trans (.foldl (fun u k => by
    have back (i d : Nat) (f : Lane → Lane) : SetsKeep u (laneMod i d f u) := .of_flt rfl
    dsimp only
    split
    · exact (back _ _ _).trans (.of_flt (countO_flt _ _ _ _ _))
    · exact .refl u) _ _)

theorem setsKeep_tim (x : Tim) (s : State) : SetsKeep s { s with tim := x } := .of_flt rfl

theorem setsKeep_passRate (n : Nat) (s : State) : SetsKeep s (passRate n s) := by
  have counts : SetsKeep s (passCounts n s) := by
    unfold passCounts
    extract_lets s1
    split
    · exact (setsKeep_cycleCounts 1 s).trans ((setsKeep_tim _ s1).trans (setsKeep_cycleCounts _ _))
    · exact setsKeep_cycleCounts n s
  unfold passRate
  extract_lets t s1
  split
  · exact .refl s
  · split
    · exact counts.trans (setsKeep_tim _ s1)
    · exact counts.trans (setsKeep_tim _ s1)

theorem setsKeep_passClk (n : Nat) (s : State) : SetsKeep s (passClk n s) := by
  rcases passClk_cases n s with e | ⟨o, inc, slew, -, ho, e⟩
  · rw [e]
    exact setsKeep_passRate n s
  · obtain ⟨_, _, rfl⟩ := oldRate_eq ho
    rw [e]
    exact ((setsKeep_tim _ s).trans (setsKeep_passRate 1 _)).trans ((setsKeep_tim _ _).trans (setsKeep_passRate _ _))

end

/-! ## An idle step with one turn -/

section
variable {s : State} {x : Turn} {c : Nat}

theorem pickMin_none {α : Type} {ok : α → Bool} {m : α → Nat} {l : List α} (h : ∀ e ∈ l, ok e = false) : pickMin ok m l = none := by
  induction l with
  | nil => rfl
  | cons e l ih => simp [pickMin, ih fun y hy => h y (List.mem_cons_of_mem _ hy), h e List.mem_cons_self]

/-- Turns that wait for a later cycle leave the clock to move. -/
theorem moveClk_later (h : ∀ e ∈ s.hrd.later, c < e.1) (k : Nat) : moveClk c k s = advanceClk (c - s.tim.now) s := by
  cases k with
  | zero => rfl
  | succ k =>
    have none_ : nextTurn c s = none := pickMin_none fun e he => decide_eq_false (Nat.not_le.mpr (h e he))
    rw [moveClk, none_]

/-- With no command waiting, a turn that is due in the next cycle takes place in it, and nothing else does: what it leaves waiting is for
later cycles. -/
theorem step_turn (hi : Idles s) (hl : s.hrd.later = [(s.tim.now + 1, x)]) :
    ∃ u, ClockPasses 1 (withTurns [] (begin_ s)) u ∧ SetsKeep s u ∧
      ((takeTurn x u).tim.now = s.tim.now + 1 → (∀ e ∈ (takeTurn x u).hrd.later, s.tim.now + 1 < e.1) → step s = .next (takeTurn x u)) := by
  refine ⟨advanceClk 1 (withTurns [] (begin_ s)), clockPasses_advanceClk (s := withTurns [] (begin_ s)) hi.round 1, ?_, fun hnow hlater => ?_⟩
  · rw [advanceClk_noRound (s := withTurns [] (begin_ s)) hi.round]
    exact (SetsKeep.of_flt (s := s) rfl).trans (setsKeep_passClk _ _)
  · have turn : nextTurn (s.tim.now + 1) (begin_ s) = some ((s.tim.now + 1, x), []) := by
      simp [nextTurn, begin_, hl, pickMin]
    have lapsed : lapse 1 (begin_ s) = moveClk (s.tim.now + 1) (turnBound (begin_ s)) (begin_ s) := by
      unfold lapse
      rw [if_neg Nat.one_ne_zero, endZero_passed (s := begin_ s) hi.zero]
      rfl
    obtain ⟨k, hk⟩ : ∃ k, turnBound (begin_ s) = k + 1 := ⟨_, rfl⟩
    rw [step_idle hi.pending, clockTick_within hi.clock, lapsed, hk, moveClk_turn turn]
    rw [show s.tim.now + 1 - (begin_ s).tim.now = 1 from Nat.add_sub_cancel_left _ _]
    rw [moveClk_later hlater, hnow, Nat.sub_self, advanceClk_zero]

end

end Sys2Proof.Machine
end

section
/-!
SUPPORT. Software's writes to the fault sets and forced sources (R418 to R431).
-/

namespace Sys2Proof.Machine

-- one declaration at a time: the package is compiled as one text within a limit of memory
set_option Elab.async false

/-! ## A source is raised -/

section
variable {s : State} {i j b : Nat} {fi : FaultInfo}

theorem changes_raise (i b : Nat) (fi : FaultInfo) (s : State) : Changes faulted s (raise i b fi s) := fun c hc => by
  cases c <;> simp [Kept] at hc ⊢

/-- R421: what a raised source leaves of its set, and the report that follows in the next cycle. -/
theorem raise_cases (i b : Nat) (fi : FaultInfo) (s : State) :
    (raise i b fi s).flt = (setFlt i (meetFault b fi s (fltOf s i)) s).flt ∧
    ((raise i b fi s).hrd.later = s.hrd.later ∨ (raise i b fi s).hrd.later = s.hrd.later ++ [(s.tim.now + 1, .told i b)]) := by
  unfold raise
  extract_lets f s1
  split
  · exact ⟨rfl, .inl rfl⟩
  · exact ⟨notice_flt _ _ _, .inr (congrArg (· ++ _) (notice_later _ _ _))⟩

theorem fltOf_raise_same : fltOf (raise i b fi s) i = meetFault b fi s (fltOf s i) := by
  rw [fltOf, (raise_cases i b fi s).1]
  exact fltOf_setFlt_same i _

theorem fltOf_raise_other (h : j ≠ i) : fltOf (raise i b fi s) j = fltOf s j := by
  rw [fltOf, (raise_cases i b fi s).1]
  exact fltOf_setFlt_other h _

theorem bit_or (v w : Word) (k : Nat) : bit (v ||| w) k = (bit v k || bit w k) := by simp [bit]

theorem bit_and (v w : Word) (k : Nat) : bit (v &&& w) k = (bit v k && bit w k) := by simp [bit]

theorem bit_pow {k : Nat} (hk : k < 32) : bit (w32 (2 ^ b)) k = decide (b = k) := by
  rw [bit, w32, BitVec.toNat_ofNat, Nat.testBit_mod_two_pow, Nat.testBit_two_pow]
  simp [hk]

theorem bit_not {v : Word} {k : Nat} (hk : k < 32) : bit (~~~v) k = !bit v k := by
  unfold bit
  rw [← BitVec.getLsbD, ← BitVec.getLsbD, BitVec.getLsbD_not]
  simp [hk]

/-- Words that agree on every bit are the same. -/
theorem word_ext {v w : Word} (h : ∀ k < 32, bit v k = bit w k) : v = w := by
  refine BitVec.eq_of_getLsbD_eq fun k hk => ?_
  exact h k hk

/-- The capture of a set that a forced source of this cycle holds (R430). -/
def ForcedNow (n : Nat) (f : FaultSet) : Prop := ∃ c, f.cap = some c ∧ c.forced = true ∧ c.at_ = n

/-- R421: the first forced fault of a cycle is captured, and a later one of the cycle changes no more than which. -/
theorem forcedNow_meetFault (hf : fi.forced = true) {f : FaultSet}
    (h : ForcedNow s.tim.now f ∨ f.cap = none ∧ f.last.at_ ≠ s.tim.now) : ForcedNow s.tim.now (meetFault b fi s f) := by
  have unheld : (if f.cap.isNone && (cycOf s f).cap.isSome then { f with cap := (cycOf s f).cap, more := (cycOf s f).more } else f) = f := by
    rcases h with ⟨c, hc, -⟩ | ⟨-, hl⟩
    · rw [hc]; rfl
    · rw [cycOf, if_neg hl]; simp
  unfold meetFault
  dsimp only
  rw [unheld]
  unfold recordFault
  dsimp only
  rcases h with ⟨c, hc, hcf, hca⟩ | ⟨hc, -⟩
  · rw [hc]
    dsimp only
    split
    · exact ⟨_, rfl, hf, rfl⟩
    · exact ⟨c, rfl, hcf, hca⟩
  · rw [hc]
    exact ⟨_, rfl, hf, rfl⟩

/-! ## Forced sources -/

/-- What raising the sources of `l` by force leaves. -/
structure Forced (i : Nat) (l : List Nat) (s t : State) : Prop where
  changes : Changes faulted s t
  set : ∀ b ∈ l, b < 32 → bit (fltOf t i).st b = true
  kept : ∀ k, bit (fltOf s i).st k = true → bit (fltOf t i).st k = true
  other : ∀ j, j ≠ i → fltOf t j = fltOf s j
  later : ∀ e ∈ t.hrd.later, e ∈ s.hrd.later ∨ e.1 = s.tim.now + 1
  cap : ForcedNow s.tim.now (fltOf s i) ∨ (fltOf s i).cap = none ∧ (fltOf s i).last.at_ ≠ s.tim.now ∧ l ≠ [] →
    ForcedNow s.tim.now (fltOf t i)

theorem forced_raise (hf : fi.forced = true) : Forced i [b] s (raise i b fi s) where
  changes := changes_raise i b fi s
  set k hk h32 := by
    obtain rfl := List.mem_singleton.mp hk
    rw [fltOf_raise_same, meetFault_st, bit_or, bit_pow h32]
    simp
  kept k hk := by rw [fltOf_raise_same, meetFault_st, bit_or, hk, Bool.true_or]
  other j hj := fltOf_raise_other hj
  later e he := by
    rcases (raise_cases i b fi s).2 with h | h
    · exact .inl (h ▸ he)
    · rw [h, List.mem_append, List.mem_singleton] at he
      exact he.imp_right fun k => by rw [k]
  cap h := by
    rw [fltOf_raise_same]
    exact forcedNow_meetFault hf (h.imp_right fun k => ⟨k.1, k.2.1⟩)

theorem Forced.now {l : List Nat} {t : State} (h : Forced i l s t) : t.tim.now = s.tim.now :=
  congrArg Tim.now (h.changes .tim (by decide))

theorem forced_foldl (hf : fi.forced = true) (l : List Nat) (s : State) : Forced i l s (l.foldl (fun s b => raise i b fi s) s) := by
  induction l generalizing s with
  | nil =>
    exact ⟨changes_refl _ _, nofun, fun _ h => h, fun _ _ => rfl, fun _ h => .inl h, fun h => h.resolve_right fun k => k.2.2 rfl⟩
  | cons b l ih =>
    have first : Forced i [b] s (raise i b fi s) := forced_raise hf
    have rest := ih (raise i b fi s)
    have now := first.now
    refine ⟨first.changes.trans rest.changes, fun k hk h32 => ?_, fun k hk => rest.kept k (first.kept k hk),
      fun j hj => (rest.other j hj).trans (first.other j hj), fun e he => ?_, fun h => ?_⟩
    · rcases List.mem_cons.mp hk with rfl | hk
      · exact rest.kept _ (first.set _ (List.mem_singleton.mpr rfl) h32)
      · exact rest.set k hk h32
    · rcases rest.later e he with h | h
      · exact first.later e h
      · exact .inr (by rw [h, now])
    · have here := first.cap (h.imp_right fun k => ⟨k.1, k.2.1, List.cons_ne_nil _ _⟩)
      have there := rest.cap (.inl (by rw [now]; exact here))
      rwa [now] at there

/-- R430: the units below the slices have no reaction of their own. -/
theorem forceRun_plain {data : Word} (h : i < 12) (s : State) : forceRun i data s =
    ((List.range (fltSources i)).filter (bit data ·)).foldl (fun s b => raise i b ⟨0, 7, 6, 0, 0, true⟩ s) s := by
  have plain (b : Nat) (u : State) : forcedReaction i b u = u := by
    unfold forcedReaction
    rw [if_neg (by omega), if_neg (by omega), if_neg (by omega), if_neg (by omega)]
  unfold forceRun
  simp only [plain]

/-- R425: a forced source 7 fences its tree port. -/
theorem forceRun_fence (h : 21 ≤ i) (h' : i ≤ 84) (s : State) :
    forceRun i 0x80 s = fenceTree (i - 21) (raise i 7 ⟨0, 7, 6, 0, 0, true⟩ s) := by
  have sources : fltSources i = 8 := by
    unfold fltSources
    rw [if_neg (by omega), if_neg (by omega), if_pos h']
  have last : (List.range 8).filter (bit (0x80 : Word) ·) = [7] := by decide
  unfold forceRun
  rw [sources, last]
  show forcedReaction i 7 _ = _
  unfold forcedReaction
  rw [if_neg (by omega), if_neg (by omega), if_pos ⟨h, h', rfl⟩]

/-- Of the bits that have a source one is set, where not all are 0. -/
theorem exists_source {data : Word} (h : data &&& fltBits i ≠ 0) : ∃ b ∈ List.range (fltSources i), bit data b = true := by
  by_contra none_
  push Not at none_
  refine h (word_ext fun k hk => ?_)
  rw [bit_and, fltBits, bit, bit, w32, BitVec.toNat_ofNat, Nat.testBit_mod_two_pow, Nat.testBit_two_pow_sub_one]
  by_cases hs : k < fltSources i
  · have := none_ k (List.mem_range.mpr hs)
    simp only [bit] at this
    simp [this, bit]
  · simp [hs, bit]

end

/-! ## Software's writes -/

section
variable {s : State} {i : Nat} {data : Word}

theorem fltWrite_ready (hr : Ready s) (hi : i < 110) (f : State → State) : fltWrite 0 i 0xF f s = f s := by
  unfold fltWrite
  rw [if_neg (by simp only [ne_eq, not_true, hr, false_and, or_false, false_or]; omega), if_neg (by simp)]

theorem fltWrite_violation {part : BitVec 6} (hr : Ready s) (hi : i < 110) (hp : part ≠ 0) (f : State → State) :
    fltWrite part i 0xF f s = partViol part.toNat s := by
  unfold fltWrite
  rw [if_neg (by simp only [ne_eq, not_true, hr, false_and, or_false, false_or]; omega), if_pos hp]

theorem bit_foldl_or (l : List Nat) (w : Word) {k : Nat} (hk : k < 32) :
    bit (l.foldl (fun w b => w ||| w32 (2 ^ b)) w) k = (bit w k || decide (k ∈ l)) := by
  induction l generalizing w with
  | nil => simp
  | cons b l ih =>
    rw [List.foldl_cons, ih, bit_or, bit_pow hk, Bool.or_assoc]
    congr 1
    simp [eq_comm, ← Bool.decide_or]

/-- What W1C leaves of the bits of a set (R426). -/
def clearedSt (i : Nat) (data : Word) (s : State) : Word :=
  (((persisting s).filter (fun e => e.1 == i && bit data e.2 && bit (fltOf s i).st e.2)).map (·.2)).foldl (fun w b => w ||| w32 (2 ^ b))
    ((fltOf s i).st &&& (~~~data ||| (cycOf s (fltOf s i)).raised))

theorem bit_clearedSt {b : Nat} (hb : b < 32) : bit (clearedSt i data s) b =
    (bit (fltOf s i).st b && (!(bit data b) || bit (cycOf s (fltOf s i)).raised b || decide ((i, b) ∈ persisting s))) := by
  have again : decide (b ∈ ((persisting s).filter (fun e => e.1 == i && bit data e.2 && bit (fltOf s i).st e.2)).map (·.2))
      = (decide ((i, b) ∈ persisting s) && bit data b && bit (fltOf s i).st b) := by
    rw [Bool.eq_iff_iff]
    simp only [decide_eq_true_eq, List.mem_map, List.mem_filter, Bool.and_eq_true, beq_iff_eq]
    constructor
    · rintro ⟨⟨j, c⟩, ⟨hm, ⟨rfl, hd⟩, hs⟩, rfl⟩
      exact ⟨⟨hm, hd⟩, hs⟩
    · rintro ⟨⟨hm, hd⟩, hs⟩
      exact ⟨(i, b), ⟨hm, ⟨rfl, hd⟩, hs⟩, rfl⟩
  rw [clearedSt, bit_foldl_or _ _ hb, again, bit_and, bit_or, bit_not hb]
  cases bit (fltOf s i).st b <;> cases bit data b <;> simp

theorem clearedSt_plain (hp : persisting s = []) (hl : (fltOf s i).last.at_ ≠ s.tim.now) :
    clearedSt i data s = (fltOf s i).st &&& ~~~data := by
  simp [clearedSt, hp, cycOf, hl]

/-- R426: with every bit 0 the capture is released. -/
theorem fltClear_all (h : clearedSt i data s = 0) : ∃ f, fltClear i data s = setFlt i f s ∧ f.st = 0 ∧ f.cap = none ∧ f.more = 0 := by
  refine ⟨_, if_pos h, rfl, rfl, rfl⟩

theorem fltClear_some (h : clearedSt i data s ≠ 0) :
    ∃ f, fltClear i data s = setFlt i f s ∧ f.st = clearedSt i data s ∧ f.cap = (fltOf s i).cap ∧ f.more = (fltOf s i).more := by
  refine ⟨_, if_neg h, rfl, rfl, rfl⟩

theorem changes_setFlt (i : Nat) (f : FaultSet) (s : State) : Changes [.flt] s (setFlt i f s) := fun c hc => by
  cases c <;> simp [Kept, setFlt] at hc ⊢

theorem fltClear_effect : (∀ b, b < 32 → bit (fltOf (fltClear i data s) i).st b =
      (bit (fltOf s i).st b && (!(bit data b) || bit (cycOf s (fltOf s i)).raised b || decide ((i, b) ∈ persisting s)))) ∧
    ((fltOf (fltClear i data s) i).st ≠ 0 → (fltOf (fltClear i data s) i).more = (fltOf s i).more) ∧
    Changes [.flt] s (fltClear i data s) := by
  by_cases h : clearedSt i data s = 0
  · obtain ⟨f, e, hst, -, -⟩ := fltClear_all h
    rw [e, fltOf_setFlt_same, hst, ← h]
    exact ⟨fun b hb => bit_clearedSt hb, fun k => absurd rfl k, changes_setFlt _ _ _⟩
  · obtain ⟨f, e, hst, -, hmore⟩ := fltClear_some h
    rw [e, fltOf_setFlt_same, hst]
    exact ⟨fun b hb => bit_clearedSt hb, fun _ => hmore, changes_setFlt _ _ _⟩

theorem rFltMask_ne_rFltVec (i : Nat) : rFltMask i ≠ rFltVec i := by
  unfold rFltMask rFltVec
  omega

theorem fltIrq_eq : fltIrq i s = if regB s (rFltVec i) 12 = true then irq (regF s (rFltVec i) 0 12) 0 s else s := rfl

theorem reg_fltIrq (a : Nat) : reg (fltIrq i s) a = reg s a := by
  rw [fltIrq_eq]
  split <;> rfl

theorem fltIrq_out (ho : s.out = []) :
    (fltIrq i s).out = if regB s (rFltVec i) 12 = true then [.irq (regF s (rFltVec i) 0 12) 0] else [] := by
  rw [fltIrq_eq]
  split
  · simp [irq, emit, ho]
  · exact ho

theorem changes_fltIrq (l : List Comp) (s : State) : Changes l s (fltIrq i s) := by
  rw [fltIrq_eq]
  split
  · exact Changes.emit (o := .irq (regF s (rFltVec i) 0 12) 0) (changes_refl l s)
  · exact changes_refl l s

theorem changes_setReg (a : Nat) (v : Word) (s : State) : Changes [.regs] s (setReg a v s) := fun c hc => by
  cases c <;> simp [Kept, setReg] at hc ⊢

theorem fltMask_effect (ho : s.out = []) : reg (fltMask i data s) (rFltMask i) = data &&& fltBits i ∧
    (∀ a, a ≠ rFltMask i → reg (fltMask i data s) a = reg s a) ∧
    (fltMask i data s).out = (if (reg s (rFltMask i) &&& ~~~data &&& (fltOf s i).st &&& ~~~(fltFresh s i)) ≠ 0 ∧ regB s (rFltVec i) 12 = true
      then [.irq (regF s (rFltVec i) 0 12) 0] else []) ∧ Changes [.regs] s (fltMask i data s) := by
  have set := changes_setReg (rFltMask i) (data &&& fltBits i) s
  have vec : reg (setReg (rFltMask i) (data &&& fltBits i) s) (rFltVec i) = reg s (rFltVec i) :=
    reg_setReg_other (rFltMask_ne_rFltVec i).symm _ s
  unfold fltMask
  dsimp only
  split
  case isTrue h =>
    exact ⟨reg_setReg_same _ _ s, fun a ha => reg_setReg_other ha _ s, by rw [if_neg fun k => k.1 h]; exact (setReg_out _ _ s).trans ho, set⟩
  case isFalse h =>
    refine ⟨(reg_fltIrq _).trans (reg_setReg_same _ _ s), fun a ha => (reg_fltIrq a).trans (reg_setReg_other ha _ s), ?_,
      set.trans (changes_fltIrq _ _)⟩
    rw [fltIrq_out ((setReg_out _ _ s).trans ho)]
    simp only [regB, regF, vec, ne_eq, h, not_false_iff, true_and]

theorem fltVec_effect (ho : s.out = []) : reg (fltVec i data s) (rFltVec i) = data &&& 0x3FFF ∧
    (∀ a, a ≠ rFltVec i → reg (fltVec i data s) a = reg s a) ∧
    (fltVec i data s).out = (if regB s (rFltVec i) 12 = false ∧ bit data 12 = true ∧ (fltOpen s i &&& ~~~(fltFresh s i)) ≠ 0
      then [.irq (fld data 0 12) 0] else []) ∧ Changes [.regs] s (fltVec i data s) := by
  have set := changes_setReg (rFltVec i) (data &&& 0x3FFF) s
  have open_ : fltOpen (setReg (rFltVec i) (data &&& 0x3FFF) s) i = fltOpen s i :=
by
    rw [fltOpen, fltOpen, reg_setReg_other (rFltMask_ne_rFltVec i), fltOf, setReg_flt, ← fltOf]
  have when_ : ((!(regB s (rFltVec i) 12) && bit data 12) && fltOpen (setReg (rFltVec i) (data &&& 0x3FFF) s) i &&& ~~~(fltFresh s i) != 0) = true ↔
      regB s (rFltVec i) 12 = false ∧ bit data 12 = true ∧ (fltOpen s i &&& ~~~(fltFresh s i)) ≠ 0 := by
    rw [open_]
    simp [and_assoc]
  have field : fld (data &&& 0x3FFF) 0 12 = fld data 0 12 := by
    have e : (data &&& 0x3FFF).toNat = data.toNat % 2 ^ 14 := by
      rw [BitVec.toNat_and]
      exact Nat.and_two_pow_sub_one_eq_mod _ 14
    unfold fld
    rw [e]
    omega
  have ien : bit (data &&& 0x3FFF) 12 = bit data 12 := by
    rw [bit_and, show bit (0x3FFF : Word) 12 = true from by decide, Bool.and_true]
  unfold fltVec
  dsimp only
  split
  case isTrue h =>
    refine ⟨(reg_fltIrq _).trans (reg_setReg_same _ _ s), fun a ha => (reg_fltIrq a).trans (reg_setReg_other ha _ s), ?_,
      set.trans (changes_fltIrq _ _)⟩
    rw [fltIrq_out ((setReg_out _ _ s).trans ho)]
    have cond := when_.mp h
    rw [if_pos cond, if_pos (by rw [regB, reg_setReg_same, ien]; exact cond.2.1), regF, reg_setReg_same, field]
  case isFalse h =>
    exact ⟨reg_setReg_same _ _ s, fun a ha => reg_setReg_other ha _ s, by rw [if_neg fun k => h (when_.mpr k)]; exact (setReg_out _ _ s).trans ho, set⟩

end

/-! ## A turn that forces sources -/

theorem treOf_modTre_same (t : Nat) (f : Tre → Tre) (s : State) : treOf (modTre t f s) t = f (treOf s t) := tGet_tSet_same _ _ _ _

theorem treOf_modTre_other {t u : Nat} (h : u ≠ t) (f : Tre → Tre) (s : State) : treOf (modTre t f s) u = treOf s u :=
  tGet_tSet_other h _ _ _ _


section
variable {s : State} {i : Nat} {data : Word}

theorem fltOf_sansCount {s t : State} (h : SetsKeep s t) (i : Nat) : (fltOf t i).st = (fltOf s i).st ∧
    (fltOf t i).cap = (fltOf s i).cap ∧ (fltOf t i).last = (fltOf s i).last := by
  have k := h i
  exact ⟨congrArg (fun x => x.st) k, congrArg (fun x => x.cap) k, congrArg (fun x => x.last) k⟩

/-- What the clock has moved when a turn of the next cycle comes. -/
theorem clockPasses_effect {u : State} (h : ClockPasses 1 (withTurns [] (begin_ s)) u) :
    u.tim.now = s.tim.now + 1 ∧ u.hrd.later = [] ∧ Changes (.tim :: faulted) s u := by
  have moved : Changes [.flt, .tim, .cnt] _ u := h.changes
  refine ⟨h.now, congrArg Hrd.later (moved .hrd (by decide)), Changes.trans ?_ (moved.mono (by decide))⟩
  exact ((changes_hrd { s.hrd with later := [] } [] s).mono (by decide))

/-- R430: the sources forced in the cycle before are raised. -/
theorem step_forced (hi : Idles s) (hl : s.hrd.later = [(s.tim.now + 1, .force i data)]) (h12 : i < 12) (hd : data &&& fltBits i ≠ 0) :
    ∃ t, step s = .next t ∧ (∀ b, b < fltSources i → bit data b = true → bit (fltOf t i).st b = true) ∧
      ((fltOf s i).cap = none → (fltOf s i).last.at_ ≤ s.tim.now → ∃ c, (fltOf t i).cap = some c ∧ c.forced = true ∧ c.at_ = s.tim.now + 1) ∧
      (∀ j, j ≠ i → (fltOf t j).st = (fltOf s j).st) ∧ Changes (.tim :: faulted) s t := by
  obtain ⟨u, clock, sets, run⟩ := step_turn hi hl
  obtain ⟨hnow, hlater, hch⟩ := clockPasses_effect clock
  have turn : Forced i ((List.range (fltSources i)).filter (bit data ·)) u (takeTurn (.force i data) u) := by
    show Forced i _ u (forceRun i data u)
    rw [forceRun_plain h12]
    exact forced_foldl rfl _ u
  have small : fltSources i ≤ 8 := by
    unfold fltSources
    rw [if_pos h12]
    interval_cases i <;> decide
  obtain ⟨b0, hb0, hd0⟩ := exists_source hd
  refine ⟨_, run (turn.now.trans hnow) fun e he => ?_, fun b hb hbit => ?_, fun hcap hat => ?_, fun j hj => ?_,
    hch.trans (turn.changes.mono (by decide))⟩
  · rcases turn.later e he with h | h
    · rw [hlater] at h
      exact absurd h (by simp)
    · rw [h, hnow]
      omega
  · exact turn.set b (by simp [hb, hbit]) (by omega)
  · obtain ⟨-, ucap, ulast⟩ := fltOf_sansCount sets i
    have forced := turn.cap (.inr ⟨ucap.trans hcap, by rw [ulast, hnow]; omega, List.ne_nil_of_mem (List.mem_filter.mpr ⟨hb0, hd0⟩)⟩)
    rwa [hnow] at forced
  · rw [turn.other j hj]
    exact (fltOf_sansCount sets j).1

/-- R425: a forced fault 7 of a tree port fences it. -/
theorem step_fence (hi : Idles s) (hl : s.hrd.later = [(s.tim.now + 1, .force i 0x80)]) (h : 21 ≤ i) (h' : i ≤ 84) :
    ∃ t, step s = .next t ∧ (treOf t (i - 21)).fenced = true ∧ bit (fltOf t i).st 7 = true ∧
      (∀ u, u ≠ i - 21 → treOf t u = treOf s u) ∧ Changes (.tim :: .tre :: faulted) s t := by
  obtain ⟨u, clock, -, run⟩ := step_turn hi hl
  obtain ⟨hnow, hlater, hch⟩ := clockPasses_effect clock
  have raised : Forced i [7] u (raise i 7 ⟨0, 7, 6, 0, 0, true⟩ u) := forced_raise rfl
  have tre : (raise i 7 ⟨0, 7, 6, 0, 0, true⟩ u).tre = s.tre := Eq.trans (raised.changes .tre (by decide)) (hch .tre (by decide))
  have turn : takeTurn (.force i 0x80) u = fenceTree (i - 21) (raise i 7 ⟨0, 7, 6, 0, 0, true⟩ u) := forceRun_fence h h' u
  rw [turn] at run
  generalize raise i 7 ⟨0, 7, 6, 0, 0, true⟩ u = v at raised tre run
  refine ⟨_, run (raised.now.trans hnow) fun e he => ?_, ?_, raised.set 7 (by simp) (by omega), fun w hw => ?_,
    (hch.mono (by decide)).trans ((raised.changes.mono (by decide)).trans ((changes_tre _ v).mono (by decide)))⟩
  · rcases raised.later e he with k | k
    · rw [hlater] at k
      exact absurd k (by simp)
    · rw [k, hnow]
      omega
  · rw [fenceTree, treOf_modTre_same (i - 21)]
  · rw [fenceTree, treOf_modTre_other hw, treOf, tre, ← treOf]

end

/-- Settles O57: each write is its meaning once `fltWrite` has let it pass; a forced source has its turn in the cycle after. -/
theorem faultSets : Obligations.FaultSets := by
  intro s inst data i hr hi h110
  subst hi
  have passes (f : State → State) : fltWrite 0 inst.toNat 0xF f (begin_ s) = f (begin_ s) := fltWrite_ready (s := begin_ s) hr h110 f
  refine ⟨fun hp hl => ⟨fun h0 => ?_, fun h0 => ?_⟩, ?_, ?_, ?_, fun hd => ?_, fun hd => ?_, fun hi hl => ⟨fun h12 hd => step_forced hi hl h12 hd, fun h21 h84 hd => ?_⟩,
    fun part c hp hc => ?_⟩
  · have cleared : clearedSt inst.toNat data (begin_ s) = 0 := (clearedSt_plain (s := begin_ s) hp hl).trans h0
    obtain ⟨f, e, hst, hcap, hmore⟩ := fltClear_all cleared
    refine ⟨setFlt inst.toNat f (begin_ s), congrArg Host.Outcome.next ((passes _).trans e), ?_, ?_, ?_, fun j hj => fltOf_setFlt_other hj f, rfl,
      (changes_setFlt _ _ _).of_begin⟩ <;> rw [fltOf_setFlt_same]
    · exact hst
    · exact hcap
    · exact hmore
  · have left_ : clearedSt inst.toNat data (begin_ s) = (fltOf s inst.toNat).st &&& ~~~data := clearedSt_plain (s := begin_ s) hp hl
    obtain ⟨f, e, hst, hcap, hmore⟩ := fltClear_some (s := begin_ s) (left_ ▸ h0)
    refine ⟨setFlt inst.toNat f (begin_ s), congrArg Host.Outcome.next ((passes _).trans e), ?_, ?_, ?_, fun j hj => fltOf_setFlt_other hj f, rfl,
      (changes_setFlt _ _ _).of_begin⟩ <;> rw [fltOf_setFlt_same]
    · exact hst.trans left_
    · exact hcap
    · exact hmore
  · obtain ⟨hbits, hmore, hch⟩ := fltClear_effect (s := begin_ s) (i := inst.toNat) (data := data)
    exact ⟨_, congrArg Host.Outcome.next (passes _), hbits, hmore, hch.of_begin⟩
  · obtain ⟨hreg, hother, hout, hch⟩ := fltMask_effect (s := begin_ s) (i := inst.toNat) (data := data) rfl
    exact ⟨_, congrArg Host.Outcome.next (passes _), hreg, hother, hout, hch.of_begin⟩
  · obtain ⟨hreg, hother, hout, hch⟩ := fltVec_effect (s := begin_ s) (i := inst.toNat) (data := data) rfl
    exact ⟨_, congrArg Host.Outcome.next (passes _), hreg, hother, hout, hch.of_begin⟩
  · exact congrArg Host.Outcome.next ((passes _).trans (if_neg hd))
  · exact congrArg Host.Outcome.next ((passes _).trans (if_pos hd))
  · subst hd
    exact step_fence hi hl h21 h84
  · have viol (f : State → State) : fltWrite part inst.toNat 0xF f (begin_ s) = partViol part.toNat (begin_ s) :=
      fltWrite_violation (s := begin_ s) hr h110 hp f
    refine ⟨partViol part.toNat (begin_ s), ?_, partViol_out _ _, (changes_partViol _ _).of_begin⟩
    rcases hc with rfl | rfl | rfl | rfl
    · exact congrArg Host.Outcome.next (viol _)
    · exact congrArg Host.Outcome.next (viol _)
    · exact congrArg Host.Outcome.next (viol _)
    · exact congrArg Host.Outcome.next (viol _)

end Sys2Proof.Machine
end

section
/-!
SUPPORT. The pin FAULT_OUT, the vote and the duplicated state machines (R338, R387, R425, R428, R429).
-/

namespace Sys2Proof.Machine

-- one declaration at a time: the package is compiled as one text within a limit of memory
set_option Elab.async false

/-! ## Bits that no release clears -/

/-- No bit of a fault set is cleared. -/
def Risen (s t : State) : Prop := ∀ i k, bit (fltOf s i).st k = true → bit (fltOf t i).st k = true

section
variable {s t u : State} {l : List Comp}

theorem Risen.refl (s : State) : Risen s s := fun _ _ h => h

theorem Risen.trans (h : Risen s t) (k : Risen t u) : Risen s u := fun i b hb => k i b (h i b hb)

theorem Risen.of_flt (h : t.flt = s.flt) : Risen s t := fun i b hb => by rwa [fltOf, h]

theorem Risen.of_changes (h : Changes l s t) (hl : Comp.flt ∉ l := by decide) : Risen s t := .of_flt (h .flt hl)

theorem Risen.ite {c : Prop} [Decidable c] (h : c → Risen s t) (h' : ¬c → Risen s u) : Risen s (if c then t else u) := by
  split
  · exact h ‹_›
  · exact h' ‹_›

theorem Risen.foldl {α : Type} {f : State → α → State} (h : ∀ s x, Risen s (f s x)) (xs : List α) (s : State) : Risen s (xs.foldl f s) := by
  induction xs generalizing s with
  | nil => exact .refl _
  | cons x xs ih => exact (h s x).trans (ih _)

theorem risen_fault (i b : Nat) (cap0 : Word) (acc mkind mnum part : Nat) (s : State) : Risen s (fault i b cap0 acc mkind mnum part s) := by
  intro j k hk
  by_cases h : j = i
  · subst h
    rw [fault, fltOf_raise_same, meetFault_st, bit_or, hk, Bool.true_or]
  · rwa [fault, fltOf_raise_other h]

theorem risen_qbm (q : Qbm) (s : State) : Risen s { s with qbm := q } := .of_flt rfl

theorem risen_autoRetire (g : Nat) (s : State) : Risen s (autoRetire g s) := by
  unfold autoRetire
  extract_lets v ueTh qTh
  refine .ite (fun _ => .refl _) fun _ => .ite (fun _ => .of_flt rfl) fun _ => .ite (fun _ => ?_) fun _ => ?_
  · exact (Risen.of_flt (t := fenceGroup g s) rfl).trans (risen_fault _ _ _ _ _ _ _ _)
  · exact (Risen.of_flt (changes_qbm _ s .flt (by decide))).trans (risen_fault _ _ _ _ _ _ _ _)

theorem risen_freeCell (c : Nat) (s : State) : Risen s (freeCell c s) := by
  unfold freeCell
  extract_lets q u g v
  have h1 : Risen s u := risen_qbm _ s
  have h2 (g : Nat) (v : Group) : Risen s (setGrp g v u) := h1.trans (risen_qbm _ u)
  exact .ite (fun _ => (h2 _ _).trans (risen_autoRetire _ _)) fun _ => .ite (fun _ => h1) fun _ => h2 _ _

theorem risen_freeFrame (n : Nat) (f : Frame) (s : State) : Risen s (freeFrame n f s) := by
  have cells : Risen s (freeCellsOf f.cells s) := .foldl (fun s c => risen_freeCell c s) _ s
  have deep (v : State) : Risen v (freeDeep f.deep v) := .of_flt rfl
  have left_ (v : State) : Risen v (cellsLeave f f.cells.length v) := by
    unfold cellsLeave
    extract_lets v1
    have h1 : v1.flt = v.flt := by
      simp only [v1]
      split <;> rfl
    split
    · exact .of_flt h1
    · exact .of_flt h1
  have stamp (v : State) : Risen v (stampEnd n f v) := by
    unfold stampEnd
    split
    · exact .refl _
    · exact .of_flt rfl
  have sent (v : State) : Risen v (sendDone n f v) := by
    unfold sendDone
    split
    · exact .refl _
    · exact .ite (fun _ => .of_flt rfl) fun _ => .of_flt rfl
  unfold freeFrame
  extract_lets s1 s2 s3
  have h1 : Risen s s1 := cells.trans (deep _)
  have h2 : Risen s s2 := .ite (fun _ => h1) fun _ => h1.trans (.of_flt rfl)
  have h3 : Risen s s3 := h2.trans (left_ s2)
  exact ((h3.trans (risen_qbm _ s3)).trans (stamp _)).trans (sent _)

theorem risen_release1 (n : Nat) (s : State) : Risen s (release1 n s) := by
  unfold release1
  split
  · exact .refl _
  · exact .ite (fun _ => (Risen.of_changes (changes_completeAs _ _ _)).trans (risen_freeFrame _ _ _)) fun _ => .of_flt rfl

/-- R175: a port that goes down clears no fault. -/
theorem risen_portDown (p : Nat) (s : State) : Risen s (portDown p s) := by
  have dropped (q o : Nat) (l : List Token) (u : State) : Risen u (l.foldl (fun s t =>
      release1 t.frame (addChg q (-(t.est : Int)) (objAdd 2 o 3 1 (count1 (iUPL p) 18 s)))) u) :=
    .foldl (fun s t => ((Risen.of_flt (count1_flt _ _ s)).trans (.of_changes (changes_cnt _ _))).trans
      ((risen_qbm _ _).trans (risen_release1 _ _))) l u
  rw [portDown_eq, dropQueues]
  exact (Risen.of_changes (changes_modUpl _ _ s)).trans (.foldl (fun u i => ((risen_qbm _ u).trans (risen_qbm _ _)).trans (dropped _ _ _ _)) _ _)

end

/-! ## FAULT_OUT -/

section
variable {s : State}

theorem changes_pinRelease (again : Bool) (s : State) : Changes [.glb] s (pinRelease again s) :=
  Changes.emit (changes_glb { s.glb with pin := .recovery, pinAt := s.tim.now, pinRel := false, pinWait := again } s)

theorem changes_pinAssert (s : State) : Changes [.glb] s (pinAssert s) :=
  Changes.emit (changes_glb { s.glb with pin := .pulse, pinAt := s.tim.now, pinRel := false, pinWait := false } s)

/-- R429: the pulse has run its 2,500 cycles. -/
theorem pulseEnd_due (hp : s.glb.pin = .pulse) (hd : s.glb.pinAt + 2500 ≤ s.tim.now) : pulseEnd s =
    if (regB s 0x80 1 && !s.glb.pinRel) = true then { s with glb := { s.glb with pin := .held } } else pinRelease false s := by
  unfold pulseEnd
  rw [if_neg (by simp [hp]), waitUntil_due hd]
  exact if_neg (by omega)

/-- R429: the recovery has run its 1,250 cycles. -/
theorem pinRecovered_due (hp : s.glb.pin = .recovery) (hd : s.glb.pinAt + 1250 ≤ s.tim.now) : pinRecovered s =
    if s.glb.pinWait = true then pinAssert s else { s with glb := { s.glb with pin := .idle } } := by
  unfold pinRecovered
  rw [if_neg (by simp [hp]), waitUntil_due hd]
  exact if_neg (by omega)

/-- R429: the cycle after a write of REL releases a pin that is held. -/
theorem step_pinOff (hp : s.glb.pin = .held) (hi : Idles s) (hl : s.hrd.later = [(s.tim.now + 1, .pinOff)]) :
    ∃ t, step s = .next t ∧ t.glb.pin = .recovery ∧ t.glb.pinAt = s.tim.now + 1 ∧ t.glb.pinWait = (s.glb.pinEv == some s.tim.now) ∧
      t.hrd.later = [] ∧ t.out = [.faultOut (pinLine s false)] ∧ t.regs = s.regs ∧ t.tre = s.tre ∧ t.qbm = s.qbm ∧ t.pwr = s.pwr := by
  obtain ⟨u, clock, -, run⟩ := step_turn hi hl
  have hnow : u.tim.now = s.tim.now + 1 := clock.now
  have hch : Changes [.flt, .tim, .cnt] (withTurns [] (begin_ s)) u := clock.changes
  have hout : u.out = [] := clock.out
  have hlater : u.hrd.later = [] := congrArg Hrd.later (hch .hrd (by decide))
  have hglb : u.glb = s.glb := hch .glb (by decide)
  have hregs : u.regs = s.regs := hch .regs (by decide)
  have turn : takeTurn .pinOff u = pinRelease (s.glb.pinEv == some s.tim.now) u := by
    show pinOff u = _
    unfold pinOff
    rw [hglb, if_pos hp, hnow, Nat.add_sub_cancel]
  rw [turn] at run
  have line : pinLine u false = pinLine s false := by simp only [pinLine, regB, reg, hregs]
  refine ⟨_, run hnow fun e he => absurd (hlater ▸ he : e ∈ []) (by simp), rfl, hnow, rfl, hlater, ?_, hregs, hch .tre (by decide), hch .qbm (by decide),
    hch .pwr (by decide)⟩
  rw [pinRelease, emit, hout, line]
  rfl

end

/-! ## Duplicated state machines and memory errors -/

section
variable {s : State} {i b : Nat} {cap0 : Word} {acc mkind mnum part : Nat}

/-- R421: a set whose capture is free captures a fault that comes first in its cycle. -/
theorem fault_cap (hc : (fltOf s i).cap = none) (hl : (fltOf s i).last.at_ ≠ s.tim.now) :
    ∃ c, (fltOf (fault i b cap0 acc mkind mnum part s) i).cap = some c ∧ c.addr = cap0 ∧ c.src = b := by
  rw [fault, fltOf_raise_same]
  unfold meetFault
  dsimp only
  rw [hc, cycOf, if_neg hl]
  unfold recordFault
  simp [hc]

theorem changes_useFree (s : State) : Changes [.fresh] s (useFree s) := fun c hc => by
  cases c <;> simp [Kept, useFree] at hc ⊢

/-- R425: an uplink port that is fenced goes down. -/
theorem fencePort_effect (p : Nat) (s : State) : (uplOf (fencePort p s) p).fenced = true ∧ Risen s (fencePort p s) ∧
    Changes releasing s (fencePort p s) := by
  have fenced (u : Upl) (m : Bool) (v : Upl) (h : v.sansStamps = (Upl.down { u with fenced := true } m).sansStamps) : v.fenced = true := by
    have e := congrArg (fun x : Upl => x.fenced) h
    exact e
  have marked := changes_modUpl p (fun u => { u with fenced := true }) s
  unfold fencePort
  generalize hs1 : modUpl p (fun u => { u with fenced := true }) s = s1 at marked
  obtain ⟨-, -, -, hch⟩ := portDown_effect p s1
  refine ⟨?_, (Risen.of_changes marked).trans (risen_portDown p s1), (marked.mono (by decide)).trans hch⟩
  have port := (dropQueues_empty p (modUpl p (fun u => u.down (regB s1 (rUpl p 0x18) 0)) s1)).2.1 p
  rw [uplOf_modUpl_same, ← hs1, uplOf_modUpl_same] at port
  rw [portDown_eq, ← hs1]
  exact fenced _ _ _ port

/-- Role, once a spare slice has failed. -/
theorem roleOf_setRole_failed (h : roleOf s i = .spare) : roleOf (setRole i .failed s) i = .failed ∧ Changes [.skm] s (setRole i .failed s) := by
  unfold setRole
  rw [h]
  simp only [reduceCtorEq, false_and, ne_eq, not_false_eq_true, and_true, if_false, or_self, and_false, if_true]
  exact ⟨by simp only [roleOf, tGet_tSet_same], changes_skm _ s⟩

theorem setMode_cases (s : State) : (setMode s).skm.role = s.skm.role ∧ (setMode s).flt = s.flt ∧ (setMode s).glb = s.glb ∧
    Changes (.skm :: noted) s (setMode s) := by
  unfold setMode
  extract_lets m
  split
  · exact ⟨rfl, rfl, rfl, changes_refl _ s⟩
  · exact ⟨(congrArg Skm.role (notice0_skm _ _ _ _ _)).trans rfl, notice0_flt _ _ _ _ _, notice0_glb _ _ _ _ _,
      ((changes_skm { s.skm with mode := m } s).mono (by decide)).trans ((changes_notice0 _ _ _ _ _).mono (by decide))⟩

/-- Table 12-2: a spare slice that is declared faulty has FAILED. -/
theorem sliceReact_spare {cause : Nat} (h : roleOf s i = .spare) : roleOf (sliceReact i cause s) i = .failed ∧
    (sliceReact i cause s).flt = s.flt ∧ (sliceReact i cause s).glb = s.glb ∧ Changes (.skm :: noted) s (sliceReact i cause s) := by
  have e : sliceReact i cause s = setMode (notice0 0x54 0 (w32 i) 0 (setRole i .failed s)) := by
    unfold sliceReact
    rw [h]
  obtain ⟨role, hset⟩ := roleOf_setRole_failed h
  rw [e]
  generalize setRole i .failed s = u at role hset
  obtain ⟨mrole, mflt, mglb, mch⟩ := setMode_cases (notice0 0x54 0 (w32 i) 0 u)
  refine ⟨?_, mflt.trans ((notice0_flt _ _ _ _ u).trans (hset .flt (by decide))), mglb.trans ((notice0_glb _ _ _ _ u).trans (hset .glb (by decide))),
    (hset.mono (by decide)).trans (((changes_notice0 _ _ _ _ u).mono (by decide)).trans mch)⟩
  rw [roleOf, mrole, notice0_skm, ← roleOf, role]

theorem declareFault_spare {cause : Nat} (h : roleOf s i = .spare) : roleOf (declareFault i (cause + 1) acc s) i = .failed ∧
    (cause < 32 → bit (fltOf (declareFault i (cause + 1) acc s) (iSLC i)).st cause = true) ∧
    (declareFault i (cause + 1) acc s).glb.homeTree = s.glb.homeTree ∧ Changes (.skm :: .fresh :: faulted) s (declareFault i (cause + 1) acc s) := by
  have told := changes_fault (iSLC i) cause (w32 (freeNat s)) acc 1 i 0 s
  have role : roleOf (fault (iSLC i) cause (w32 (freeNat s)) acc 1 i 0 s) i = .spare := by rw [roleOf, told .skm (by decide), ← roleOf, h]
  have glb := fault_glb (iSLC i) cause (w32 (freeNat s)) acc 1 i 0 s
  have st := fun hb => fault_st (i := iSLC i) (b := cause) (cap0 := w32 (freeNat s)) (acc := acc) (mkind := 1) (mnum := i) (part := 0) (s := s) hb
  unfold declareFault declareAt
  rw [Nat.add_sub_cancel]
  generalize fault (iSLC i) cause (w32 (freeNat s)) acc 1 i 0 s = u at told role glb st
  obtain ⟨hrole, hflt, hglb, hch⟩ := sliceReact_spare (cause := cause + 1) role
  have used := changes_useFree (sliceReact i (cause + 1) u)
  refine ⟨hrole, fun hb => ?_, congrArg Glb.homeTree (hglb.trans glb), (told.mono (by decide)).trans ((hch.mono (by decide)).trans (used.mono (by decide)))⟩
  rw [fltOf, used .flt (by decide), hflt, ← fltOf]
  exact st hb

/-- R502: a partition-table word whose copies both fail names partition 0. -/
theorem prtLost_effect {o : Nat} (h : prtSpec o ≠ none) : prtOwner (prtLost o s) (pagePRT + o) = 0 ∧
    (∀ a, a ≠ pagePRT + o → prtOwner (prtLost o s) a = prtOwner s a) ∧ bit (fltOf (prtLost o s) 1).st 0 = true ∧
    Changes faulted s (prtLost o s) := by
  have told := changes_fault 1 0 (w32 o) 1 0 0 0 s
  have glb := fault_glb 1 0 (w32 o) 1 0 0 0 s
  have st : bit (fltOf (fault 1 0 (w32 o) 1 0 0 0 s) 1).st 0 = true := fault_st (by decide)
  unfold prtLost
  rw [if_neg (by simpa using h)]
  dsimp only
  generalize fault 1 0 (w32 o) 1 0 0 0 s = u at told glb st
  refine ⟨by simp [prtOwner], fun a ha => ?_, st, told.trans ((changes_glb _ u).mono (by decide))⟩
  have r : reg u a = reg s a := by rw [reg, told .regs (by decide), ← reg]
  have bad : ((pagePRT + o) :: u.glb.prtBad.filter (· != pagePRT + o)).contains a = s.glb.prtBad.contains a := by
    rw [glb, Bool.eq_iff_iff]
    simp [ha]
  show (if ((pagePRT + o) :: u.glb.prtBad.filter (· != pagePRT + o)).contains a = true then 0 else (reg u a).toNat) = _
  rw [bad, r, prtOwner]

theorem ctxOf_modCtx_same (t tid : Nat) (f : Ctx → Ctx) (s : State) : ctxOf (modCtx t tid f s) t tid = f (ctxOf s t tid) := by
  rw [ctxOf, modCtx, treOf_modTre_same]
  exact tGet_tSet_same _ _ _ _

/-- R110: a terminal that is lost. -/
theorem lose_effect (t tid cause : Nat) (s : State) : (ctxOf (lose t tid cause s) t tid).state = .lost ∧ (lose t tid cause s).flt = s.flt ∧
    (∀ u, u ≠ t → treOf (lose t tid cause s) u = treOf s u) ∧ Changes (.tre :: noted) s (lose t tid cause s) := by
  unfold lose noticeC noticeT
  have lost := congrArg Ctx.state (ctxOf_modCtx_same t tid (fun c => { c with state := .lost, lostTick := s.tim.tick, ranging := none }) s)
  have others (u : Nat) (hu : u ≠ t) : treOf (modCtx t tid (fun c => { c with state := .lost, lostTick := s.tim.tick, ranging := none }) s) u = treOf s u :=
    treOf_modTre_other hu _ s
  have hch : Changes [.tre] s (modCtx t tid (fun c => { c with state := .lost, lostTick := s.tim.tick, ranging := none }) s) := changes_tre _ s
  generalize modCtx t tid (fun c => { c with state := .lost, lostTick := s.tim.tick, ranging := none }) s = v at lost others hch
  refine ⟨?_, (notice_flt _ _ _).trans (hch .flt (by decide)), fun u hu => ?_, (hch.mono (by decide)).trans ((changes_notice _ _ v).mono (by decide))⟩
  · rw [ctxOf, treOf, notice_tre, ← treOf, ← ctxOf, lost]
  · rw [treOf, notice_tre, ← treOf, others u hu]

/-- R326: a terminal whose context is lost is lost itself. -/
theorem termLost_effect {t tid : Nat} (h1 : (ctxOf s t tid).state ≠ .unknown) (h2 : (ctxOf s t tid).state ≠ .lost)
    (h3 : (ctxOf s t tid).state ≠ .released) : (ctxOf (termLost t tid s) t tid).state = .lost ∧
    bit (fltOf (termLost t tid s) (iTRE t)).st 3 = true ∧ (∀ u, u ≠ t → treOf (termLost t tid s) u = treOf s u) ∧
    Changes (.tre :: faulted) s (termLost t tid s) := by
  have told := changes_fault (iTRE t) 3 (w32 tid) 1 3 t 0 s
  have tre := fault_tre (iTRE t) 3 (w32 tid) 1 3 t 0 s
  have st : bit (fltOf (fault (iTRE t) 3 (w32 tid) 1 3 t 0 s) (iTRE t)).st 3 = true := fault_st (by decide)
  unfold termLost
  dsimp only
  rw [if_neg (by simp [h1, h2, h3])]
  generalize fault (iTRE t) 3 (w32 tid) 1 3 t 0 s = u at told tre st
  obtain ⟨lost, flt, others, hch⟩ := lose_effect t tid 4 u
  refine ⟨lost, ?_, fun v hv => ?_, (told.mono (by decide)).trans (hch.mono (by decide))⟩
  · rw [fltOf, flt, ← fltOf, st]
  · rw [others v hv, treOf, tre, ← treOf]

end

/-- Settles O58: the pin's phases, then each detector's reaction after the fault that it raises. -/
theorem faultPinAndDetectors : Obligations.FaultPinAndDetectors := by
  refine ⟨fun s => ⟨fun hp => ⟨fun hd => ⟨fun hlat hrel => ?_, fun hor => ?_⟩, fun hr => ?_⟩, fun hp => ⟨fun hr => ?_, step_pinOff hp⟩, fun hp hr => ?_,
    fun hp hd => ⟨fun hw => ?_, fun hw => ?_⟩⟩, fun s => ⟨fun group => ?_, fun tree => ?_, fun port => ?_, fun i hi => ?_, fun w hw => ?_,
    fun tree tid st hst h1 h2 h3 => ?_, fun inst num => ?_⟩⟩
  · have e := pulseEnd_due (s := begin_ s) hp hd
    rw [if_pos (by rw [show regB (begin_ s) 0x80 1 = true from hlat, show (begin_ s).glb.pinRel = false from hrel]; rfl)] at e
    exact ⟨_, congrArg Host.Outcome.next e, rfl, (changes_glb _ (begin_ s)).of_begin⟩
  · have e := pulseEnd_due (s := begin_ s) hp hd
    rw [if_neg (by
      rcases hor with h | h
      · rw [show regB (begin_ s) 0x80 1 = false from h]; simp
      · rw [show (begin_ s).glb.pinRel = true from h]; simp)] at e
    exact ⟨_, congrArg Host.Outcome.next e, rfl, rfl, (changes_pinRelease false (begin_ s)).of_begin⟩
  · have e : pinRel (begin_ s) = { begin_ s with glb := { s.glb with pinRel := true } } := by
      unfold pinRel
      rw [show (begin_ s).glb.pin = .pulse from hp]
      rfl
    exact ⟨_, (runs_p0 (c := .faultPinRel 0) (f := pinRel) rfl hr).trans (congrArg Host.Outcome.next e), rfl, (changes_glb _ (begin_ s)).of_begin⟩
  · have e : pinRel (begin_ s) = atCycle (s.tim.now + 1) .pinOff (begin_ s) := by
      unfold pinRel
      rw [show (begin_ s).glb.pin = .held from hp]
      rfl
    exact (runs_p0 (c := .faultPinRel 0) (f := pinRel) rfl hr).trans (congrArg Host.Outcome.next e)
  · have e : pinRel (begin_ s) = begin_ s := by
      unfold pinRel
      rcases hp with h | h
      · rw [show (begin_ s).glb.pin = .idle from h]
      · rw [show (begin_ s).glb.pin = .recovery from h]
    exact (runs_p0 (c := .faultPinRel 0) (f := pinRel) rfl hr).trans (congrArg Host.Outcome.next e)
  · have e := (pinRecovered_due (s := begin_ s) hp hd).trans (if_pos hw)
    exact ⟨_, congrArg Host.Outcome.next e, rfl, rfl, rfl, (changes_pinAssert (begin_ s)).of_begin⟩
  · have e := (pinRecovered_due (s := begin_ s) hp hd).trans (if_neg fun k : s.glb.pinWait = true => by simp [hw] at k)
    exact ⟨_, congrArg Host.Outcome.next e, rfl, (changes_glb _ (begin_ s)).of_begin⟩
  · have counted := changes_count1 3 2 (begin_ s)
    have hflt : fltOf (count1 3 2 (begin_ s)) 3 = fltOf s 3 := by rw [fltOf, count1_flt]; rfl
    have htim : (count1 3 2 (begin_ s)).tim = s.tim := counted .tim (by decide)
    refine ⟨_, rfl, fault_st (by decide), fun hc hl => fault_cap (by rw [hflt]; exact hc) (by rw [hflt, htim]; exact hl),
      Eq.trans (changes_fault 3 0 group 5 9 0 0 _ .tim (by decide)) htim, Changes.of_begin ?_⟩
    exact (counted.mono (by decide)).trans (changes_fault _ _ _ _ _ _ _ _)
  · have told := changes_fault (iTRE tree.toNat) 7 (w32 (freeNat (begin_ s))) 5 3 tree.toNat 0 (begin_ s)
    have st : bit (fltOf (fault (iTRE tree.toNat) 7 (w32 (freeNat (begin_ s))) 5 3 tree.toNat 0 (begin_ s)) (iTRE tree.toNat)).st 7 = true :=
      fault_st (by decide)
    refine ⟨fenceTree tree.toNat (useFree (fault (iTRE tree.toNat) 7 (w32 (freeNat (begin_ s))) 5 3 tree.toNat 0 (begin_ s))), rfl, ?_⟩
    generalize fault (iTRE tree.toNat) 7 (w32 (freeNat (begin_ s))) 5 3 tree.toNat 0 (begin_ s) = u at told st
    have used := changes_useFree u
    refine ⟨by rw [fenceTree, treOf_modTre_same], st, fun v hv => ?_, Changes.of_begin ?_⟩
    · rw [fenceTree, treOf_modTre_other hv, treOf, used .tre (by decide), told .tre (by decide)]
      rfl
    · exact (told.mono (by decide)).trans ((used.mono (by decide)).trans ((changes_tre _ _).mono (by decide)))
  · have told := changes_fault (iUPL port.toNat) 2 (w32 (freeNat (begin_ s))) 5 4 port.toNat 0 (begin_ s)
    have st : bit (fltOf (fault (iUPL port.toNat) 2 (w32 (freeNat (begin_ s))) 5 4 port.toNat 0 (begin_ s)) (iUPL port.toNat)).st 2 = true :=
      fault_st (by decide)
    refine ⟨fencePort port.toNat (useFree (fault (iUPL port.toNat) 2 (w32 (freeNat (begin_ s))) 5 4 port.toNat 0 (begin_ s))), rfl, ?_⟩
    generalize fault (iUPL port.toNat) 2 (w32 (freeNat (begin_ s))) 5 4 port.toNat 0 (begin_ s) = u at told st
    obtain ⟨fenced, risen, hch⟩ := fencePort_effect port.toNat (useFree u)
    have all : Changes releasing s (fencePort port.toNat (useFree u)) :=
      Changes.of_begin ((told.mono (by decide)).trans (((changes_useFree u).mono (by decide)).trans hch))
    exact ⟨fenced, risen _ _ st, all .tre (by decide), all .regs (by decide), all .pending (by decide)⟩
  · obtain ⟨role, st, home, hch⟩ := declareFault_spare (s := begin_ s) (i := i.val) (cause := 2) (acc := 5) hi
    exact ⟨declareFault i.val 3 5 (begin_ s), rfl, role, st (by decide), home, hch.of_begin⟩
  · obtain ⟨here, there, st, hch⟩ := prtLost_effect (s := begin_ s) hw
    exact ⟨prtLost w.toNat (begin_ s), rfl, here, there, st, hch.of_begin⟩
  · subst hst
    obtain ⟨lost, st, others, hch⟩ := termLost_effect (s := begin_ s) h1 h2 h3
    exact ⟨termLost tree.toNat tid.toNat (begin_ s), rfl, lost, st, others, hch.of_begin⟩
  · have told := changes_fault 10 0 (w32 (16 * inst.toNat + num.toNat)) 1 0 0 0 (begin_ s)
    have st : bit (fltOf (fault 10 0 (w32 (16 * inst.toNat + num.toNat)) 1 0 0 0 (begin_ s)) 10).st 0 = true := fault_st (by decide)
    refine ⟨counterLost (16 * inst.toNat + num.toNat) (begin_ s), rfl, ?_⟩
    unfold counterLost
    dsimp only
    generalize fault 10 0 (w32 (16 * inst.toNat + num.toNat)) 1 0 0 0 (begin_ s) = u at told st
    exact ⟨tGet_tSet_same _ _ _ _, st, Changes.of_begin (told.trans ((changes_cnt _ u).mono (by decide)))⟩

end Sys2Proof.Machine
end

section
/-!
SUPPORT. The counter registers, lane-slot snapshots and probes (R458, R459, R469, R472, R475, R478, R513).
-/

namespace Sys2Proof.Machine

-- one declaration at a time: the package is compiled as one text within a limit of memory
set_option Elab.async false

/-! ## A counter that a write has set in its cycle -/

section
variable {s : State} {i n k evt amt : Nat}

theorem val_keepVal (c k : Nat) (x : Cnt) : (keepVal c k x).val = x.val := by
  have was : (wasIn c x).val = x.val := by
    unfold wasIn
    split <;> rfl
  unfold keepVal
  dsimp only
  split <;> exact was

/-- An occurrence that selected counter `n` takes changes no other counter. -/
theorem val_bump {sel : Word} {c : Cnt} (h : k ≠ 16 * i + n) : tGet 0 (bump i n amt sel c).1.val k = tGet 0 c.val k := by
  have more (v : Nat) : tGet 0 (tSet 0 c.val (16 * i + n) v) k = tGet 0 c.val k := tGet_tSet_other h _ _ _ _
  unfold bump
  extract_lets j v ovs base w c1
  have h1 : tGet 0 c1.val k = tGet 0 c.val k := more _
  clear_value c1
  split
  · exact more _
  · split
    · split
      · exact h1
      · exact h1
    · exact h1

/-- Table 15-11: what a write has set stands through its cycle. -/
theorem val_countAll (hk : heldNow s k = true) (obj : Option Nat) (c : Cnt) :
    tGet 0 (countAll s i evt obj amt c).1.val k = tGet 0 c.val k := by
  suffices h : ∀ (l : List Nat) (r : Cnt × Nat), tGet 0 (l.foldl
      (fun r n =>
        let sel := reg s (rCntSel i n)
        if selects sel evt obj && !(heldNow s (16 * i + n)) then
          let b := bump i n amt sel (keepVal s.tim.now (16 * i + n) r.1)
          (b.1, if b.2 then r.2 + 1 else r.2)
        else r) r).1.val k = tGet 0 r.1.val k from h (List.range 16) (c, 0)
  intro l
  induction l with
  | nil => exact fun _ => rfl
  | cons n l ih =>
    intro r
    rw [List.foldl_cons, ih]
    dsimp only
    split
    · next hsel =>
      have apart : k ≠ 16 * i + n := by
        rintro rfl
        simp [hk] at hsel
      rw [val_bump apart, val_keepVal]
    · rfl

theorem val_countN (hk : heldNow s k = true) : tGet 0 (countN i evt amt s).cnt.val k = tGet 0 s.cnt.val k := by
  unfold countN
  split
  · rfl
  · dsimp only
    unfold smpMissed
    split
    · exact val_countAll hk _ _
    · rw [val_countAll hk]
      split
      · exact val_countAll hk _ _
      · exact val_countAll hk _ _

theorem heldNow_holdCnt (k : Nat) (s : State) : heldNow (holdCnt k s) k = true := by simp [heldNow, holdCnt]

theorem val_holdCnt (k : Nat) (s : State) : (holdCnt k s).cnt.val = s.cnt.val ∧ (holdCnt k s).cnt.reload = s.cnt.reload := ⟨rfl, rfl⟩

theorem changes_holdCnt (k : Nat) (s : State) : Changes [.cnt] s (holdCnt k s) := changes_cnt _ s

end

/-! ## The registers of a counter -/

section
variable {s : State} {i n : Nat} {data : Word}

theorem val_setCounter_same {v : Nat} : tGet 0 (setCounter i n v s).cnt.val (16 * i + n) = v ∧ tGet 0 (setCounter i n v s).cnt.reload (16 * i + n) = v :=
  ⟨tGet_tSet_same _ _ _ _, tGet_tSet_same _ _ _ _⟩

theorem val_setCounter_other {v j : Nat} (h : j ≠ 16 * i + n) : tGet 0 (setCounter i n v s).cnt.val j = tGet 0 s.cnt.val j ∧
    tGet 0 (setCounter i n v s).cnt.reload j = tGet 0 s.cnt.reload j :=
  ⟨tGet_tSet_other h _ _ _ _, tGet_tSet_other h _ _ _ _⟩

theorem subWrite_ready {inst : BitVec 7} (hr : Ready s) (hi : inst.toNat ≤ 109) (f : State → State) : subWrite 0 inst 0xF f s = f s := by
  unfold subWrite
  rw [if_neg (by omega), p0Write_ready hr rfl]

/-- R458: CNT_SELn sets its counter to 0 where EVT, FEN or FILT changes. -/
theorem selWrite_effect (i n : Nat) (data : Word) (s : State) :
    reg (selWrite i n data s) (rCntSel i n) = data &&& 0x7FFFFFFF ∧ (∀ a, a ≠ rCntSel i n → reg (selWrite i n data s) a = reg s a) ∧
    (selKey (reg s (rCntSel i n)) = selKey (data &&& 0x7FFFFFFF) → (selWrite i n data s).cnt = s.cnt) ∧
    (selKey (reg s (rCntSel i n)) ≠ selKey (data &&& 0x7FFFFFFF) → tGet 0 (selWrite i n data s).cnt.val (16 * i + n) = 0 ∧
      ∀ evt amt, tGet 0 (countN i evt amt (selWrite i n data s)).cnt.val (16 * i + n) = 0) ∧
    (∀ j, j ≠ 16 * i + n → tGet 0 (selWrite i n data s).cnt.val j = tGet 0 s.cnt.val j) ∧ Changes [.regs, .cnt] s (selWrite i n data s) := by
  have set : Changes [.regs, .cnt] s (setReg (rCntSel i n) (data &&& 0x7FFFFFFF) s) := (changes_setReg _ _ s).mono (by decide)
  have here := reg_setReg_same (rCntSel i n) (data &&& 0x7FFFFFFF) s
  have there (a : Nat) (ha : a ≠ rCntSel i n) := reg_setReg_other ha (data &&& 0x7FFFFFFF) s
  have hcnt := setReg_cnt (rCntSel i n) (data &&& 0x7FFFFFFF) s
  unfold selWrite
  dsimp only
  generalize setReg (rCntSel i n) (data &&& 0x7FFFFFFF) s = s1 at set here there hcnt
  split
  case isTrue h => exact ⟨here, there, fun _ => hcnt, fun k => absurd h k, fun j _ => by rw [hcnt], set⟩
  case isFalse h =>
    have zero : tGet 0 (holdCnt (16 * i + n) { s1 with cnt := { s1.cnt with val := tSet 0 s1.cnt.val (16 * i + n) 0 } }).cnt.val (16 * i + n) = 0 := by
      show tGet 0 (tSet 0 s1.cnt.val (16 * i + n) 0) (16 * i + n) = 0
      exact tGet_tSet_same _ _ _ _
    refine ⟨here, there, fun k => absurd k h, fun _ => ⟨zero, fun evt amt => (val_countN (heldNow_holdCnt _ _)).trans zero⟩, fun j hj => ?_,
      set.trans (((changes_cnt _ s1).mono (by decide)).trans ((changes_holdCnt _ _).mono (by decide)))⟩
    show tGet 0 (tSet 0 s1.cnt.val (16 * i + n) 0) j = _
    exact (tGet_tSet_other hj _ _ _ _).trans (by rw [hcnt])

/-- R459, R522: CNT_VALn_HI commits the pair. -/
theorem valWrite_effect {lo : Word} (hlo : tFind (pkey 0 (rCntVal i n)) s.regs.loHeld = some lo) :
    tGet 0 (valWrite 0 i n data s).cnt.val (16 * i + n) = lo.toNat + 2 ^ 32 * fld data 0 16 ∧
    tGet 0 (valWrite 0 i n data s).cnt.reload (16 * i + n) = lo.toNat + 2 ^ 32 * fld data 0 16 ∧
    (∀ j, j ≠ 16 * i + n → tGet 0 (valWrite 0 i n data s).cnt.val j = tGet 0 s.cnt.val j) ∧
    (∀ evt amt, tGet 0 (countN i evt amt (valWrite 0 i n data s)).cnt.val (16 * i + n) = lo.toNat + 2 ^ 32 * fld data 0 16) ∧
    (∀ a, reg (valWrite 0 i n data s) a = reg s a) ∧ Changes [.regs, .cnt] s (valWrite 0 i n data s) := by
  have hfor (d : Word) : loFor 0 (rCntVal i n) d s = lo := by simp [loFor, hlo]
  have drop : Changes [.regs] s (dropLo 0 (rCntVal i n) s) := changes_dropLo _ _ s
  have hreg (a : Nat) : reg (dropLo 0 (rCntVal i n) s) a = reg s a := rfl
  have hcnt : (dropLo 0 (rCntVal i n) s).cnt = s.cnt := drop .cnt (by decide)
  unfold valWrite
  rw [hfor]
  dsimp only
  generalize dropLo 0 (rCntVal i n) s = s1 at drop hreg hcnt
  have set : tGet 0 (holdCnt (16 * i + n) (setCounter i n (lo.toNat + 2 ^ 32 * fld data 0 16) s1)).cnt.val (16 * i + n) = lo.toNat + 2 ^ 32 * fld data 0 16 :=
    (congrArg (tGet 0 · _) (val_holdCnt _ _).1).trans val_setCounter_same.1
  refine ⟨set, (congrArg (tGet 0 · _) (val_holdCnt _ _).2).trans val_setCounter_same.2,
    fun j hj => (congrArg (tGet 0 · j) (val_holdCnt _ _).1).trans ((val_setCounter_other hj).1.trans (by rw [hcnt])), fun evt amt => (val_countN (heldNow_holdCnt _ _)).trans set,
    hreg, (drop.mono (by decide)).trans (((changes_cnt _ s1).mono (by decide)).trans ((changes_holdCnt _ _).mono (by decide)))⟩

/-- R459: CNT_CLR clears the counters of its bits. -/
theorem clrWrite_effect (i : Nat) (data : Word) (s : State) : (∀ j,
      (j / 16 = i ∧ bit data (j % 16) = true → tGet 0 (clrWrite i data s).cnt.val j = 0 ∧ tGet 0 (clrWrite i data s).cnt.reload j = 0) ∧
      (¬(j / 16 = i ∧ bit data (j % 16) = true) → tGet 0 (clrWrite i data s).cnt.val j = tGet 0 s.cnt.val j)) ∧
    Changes [.cnt] s (clrWrite i data s) := by
  suffices h : ∀ (l : List Nat) (s : State), (∀ n ∈ l, n < 16) →
      let t := l.foldl (fun s n => if bit data n then setCounter i n 0 s else s) s
      (∀ j, ((∃ n ∈ l, j = 16 * i + n ∧ bit data n = true) → tGet 0 t.cnt.val j = 0 ∧ tGet 0 t.cnt.reload j = 0) ∧
        (tGet 0 s.cnt.val j = 0 ∧ tGet 0 s.cnt.reload j = 0 → tGet 0 t.cnt.val j = 0 ∧ tGet 0 t.cnt.reload j = 0) ∧
        (¬(∃ n ∈ l, j = 16 * i + n ∧ bit data n = true) → tGet 0 t.cnt.val j = tGet 0 s.cnt.val j)) ∧ Changes [.cnt] s t by
    obtain ⟨hv, hc⟩ := h (List.range 16) s fun n hn => List.mem_range.mp hn
    have named (j : Nat) : (∃ n ∈ List.range 16, j = 16 * i + n ∧ bit data n = true) ↔ j / 16 = i ∧ bit data (j % 16) = true := by
      constructor
      · rintro ⟨n, hn, rfl, hb⟩
        have := List.mem_range.mp hn
        have rem : (16 * i + n) % 16 = n := by omega
        exact ⟨by omega, by rw [rem, hb]⟩
      · rintro ⟨hj, hb⟩
        exact ⟨j % 16, List.mem_range.mpr (by omega), by omega, hb⟩
    exact ⟨fun j => ⟨fun k => (hv j).1 ((named j).mpr k), fun k => (hv j).2.2 fun m => k ((named j).mp m)⟩, hc⟩
  intro l
  induction l with
  | nil => exact fun s _ => ⟨fun j => ⟨fun ⟨n, hn, _⟩ => absurd hn List.not_mem_nil, id, fun _ => rfl⟩, changes_refl _ s⟩
  | cons n l ih =>
    intro s hl
    have cleared : (bit data n = true → ∀ j, j = 16 * i + n → tGet 0 (if bit data n then setCounter i n 0 s else s).cnt.val j = 0 ∧
          tGet 0 (if bit data n then setCounter i n 0 s else s).cnt.reload j = 0) ∧
        (∀ j, (tGet 0 s.cnt.val j = 0 ∧ tGet 0 s.cnt.reload j = 0) → tGet 0 (if bit data n then setCounter i n 0 s else s).cnt.val j = 0 ∧
          tGet 0 (if bit data n then setCounter i n 0 s else s).cnt.reload j = 0) ∧
        (∀ j, ¬(j = 16 * i + n ∧ bit data n = true) → tGet 0 (if bit data n then setCounter i n 0 s else s).cnt.val j = tGet 0 s.cnt.val j) ∧
        Changes [.cnt] s (if bit data n then setCounter i n 0 s else s) := by
      split
      · next hb =>
        refine ⟨fun _ j hj => ?_, fun j hz => ?_, fun j hj => (val_setCounter_other fun k => hj ⟨k, hb⟩).1, changes_cnt _ s⟩
        · subst hj
          exact val_setCounter_same
        · by_cases hj : j = 16 * i + n
          · subst hj
            exact val_setCounter_same
          · exact ⟨(val_setCounter_other hj).1.trans hz.1, (val_setCounter_other hj).2.trans hz.2⟩
      · next hb => exact ⟨fun k => absurd k hb, fun j hz => hz, fun j _ => rfl, changes_refl _ s⟩
    obtain ⟨here, stay, other, hch⟩ := cleared
    rw [List.foldl_cons]
    generalize (if bit data n then setCounter i n 0 s else s) = u at here stay other hch
    obtain ⟨hv, hc⟩ := ih u fun m hm => hl m (List.mem_cons_of_mem _ hm)
    refine ⟨fun j => ⟨?_, fun hz => (hv j).2.1 (stay j hz), fun hno => ?_⟩, hch.trans hc⟩
    · rintro ⟨m, hm, hj, hb⟩
      rcases List.mem_cons.mp hm with rfl | hm
      · exact (hv j).2.1 (here hb j hj)
      · exact (hv j).1 ⟨m, hm, hj, hb⟩
    · refine ((hv j).2.2 fun ⟨m, hm, k⟩ => hno ⟨m, List.mem_cons_of_mem _ hm, k⟩).trans (other j fun k => hno ⟨n, List.mem_cons_self, k⟩)

/-- R469: a snapshot holds the accounting of every section. -/
theorem tGet_laneSnap {k : Nat} (hk : k < 18) : tGet Lane.empty (laneSnap s) k = laneNow s k := by
  suffices h : ∀ (l : List Nat) (t : Tab Lane), k ∈ l ∨ tGet Lane.empty t k = laneNow s k →
      tGet Lane.empty (l.foldl (fun t k => tSet Lane.empty t k (laneNow s k)) t) k = laneNow s k from
    h _ _ (.inl (List.mem_range.mpr hk))
  intro l
  induction l with
  | nil => exact fun t h => h.resolve_left List.not_mem_nil
  | cons j l ih =>
    refine fun t h => ih _ ?_
    by_cases hj : k = j
    · subst hj
      exact .inr (tGet_tSet_same _ _ _ _)
    · exact (h.imp_left fun m => (List.mem_cons.mp m).resolve_left hj).imp_right (tGet_tSet_other hj _ _ _ _).trans

/-- R513: a write of PROBE arms the probe. -/
theorem vqProbe_effect (n : Nat) (s : State) : (vqAt (vqProbe n s) n).probe = true ∧ (vqAt (vqProbe n s) n).probeFrame = none ∧
    ((vqAt s n).probe = true → (vqAt (vqProbe n s) n).ptx = 0 ∧ (vqAt (vqProbe n s) n).prx = 0) ∧
    (∀ m, m ≠ n → vqAt (vqProbe n s) m = vqAt s m) ∧ Changes [.tst] s (vqProbe n s) := by
  have here (f : Vq → Vq) : vqAt (modVq n f s) n = f (vqAt s n) := tGet_tSet_same _ _ _ _
  have there (f : Vq → Vq) (m : Nat) (hm : m ≠ n) : vqAt (modVq n f s) m = vqAt s m := tGet_tSet_other hm _ _ _ _
  have hch (f : Vq → Vq) : Changes [.tst] s (modVq n f s) := fun c hc => by
    cases c <;> simp [Kept, modVq, setVq] at hc ⊢
  unfold vqProbe
  refine ⟨?_, ?_, fun hp => ?_, there _, hch _⟩ <;> rw [here]
  · split
    · assumption
    · rfl
  · split <;> rfl
  · rw [if_pos hp]
    exact ⟨rfl, rfl⟩

end

/-- Settles O59: each write is its meaning once the block is READY. -/
theorem counterCommands : Obligations.CounterCommands := by
  intro s data hr
  refine ⟨fun inst num k hi hk => ?_, fun size used hs hu => ?_, fun hb => ?_, fun num => ?_⟩
  · subst hk
    have passes (f : State → State) : subWrite 0 inst 0xF f (begin_ s) = f (begin_ s) := subWrite_ready (s := begin_ s) hr hi f
    refine ⟨?_, fun lo hlo => ?_, ?_⟩
    · obtain ⟨h1, h2, h3, h4, h5, h6⟩ := selWrite_effect inst.toNat num.toNat data (begin_ s)
      exact ⟨_, congrArg Host.Outcome.next (passes _), h1, h2, h3, h4, h5, h6.of_begin⟩
    · obtain ⟨h1, h2, h3, h4, h5, h6⟩ := valWrite_effect (s := begin_ s) (data := data) hlo
      exact ⟨_, congrArg Host.Outcome.next (passes _), h1, h2, h3, h4, h5, h6.of_begin⟩
    · obtain ⟨h1, h2⟩ := clrWrite_effect inst.toNat data (begin_ s)
      exact ⟨_, congrArg Host.Outcome.next (passes _), h1, h2.of_begin⟩
  · have run := runs_p0 (c := .cntSmpCiWrite 0 0xF data) (f := smpCi data) rfl hr
    subst hs hu
    refine ⟨fun h1 h2 => ⟨_, run.trans (congrArg Host.Outcome.next (if_pos ⟨h1, h2⟩)), rfl, (changes_cnt _ (begin_ s)).of_begin⟩, fun h => ?_⟩
    exact run.trans (congrArg Host.Outcome.next (if_neg fun k => absurd k.1 (Nat.not_lt.mpr h)))
  · have run := runs_p0 (c := .cntSlotSnap 0 0xF data) (f := slotSnap data) rfl hr
    exact ⟨_, run.trans (congrArg Host.Outcome.next (if_pos hb)), fun k hk => tGet_laneSnap (s := begin_ s) hk, rfl, (changes_cnt _ (begin_ s)).of_begin⟩
  · obtain ⟨h1, h2, h3, h4, h5⟩ := vqProbe_effect num.toNat (begin_ s)
    exact ⟨_, runs_p0 (c := .vqProbe 0 num) (f := vqProbe num.toNat) rfl hr, h1, h2, h3, h4, h5.of_begin⟩

end Sys2Proof.Machine
end

section
/-!
SUPPORT. What a notice, a fault and a counted event leave of the host rings and of the counters' settings; then the Milk Round
(R327, R465 to R470).
-/

namespace Sys2Proof.Machine

-- one declaration at a time: the package is compiled as one text within a limit of memory
set_option Elab.async false

/-! ## Counted events -/

/-- The counters without what an event that is counted changes. -/
def Cnt.sansVals (c : Cnt) : Cnt :=
  { c with val := [], wrap := [], sample := [], wasAt := 0, was := [], wasObj := [], wrapNow := [], sLostNow := 0 }

section
variable {s : State} {i n k evt amt : Nat}

theorem sansVals_was (w : Tab Nat) (c : Cnt) : ({ c with was := w } : Cnt).sansVals = c.sansVals := rfl

theorem sansVals_wasIn (c : Nat) (x : Cnt) : (wasIn c x).sansVals = x.sansVals := by
  unfold wasIn
  by_cases h : x.wasAt = c
  · rw [if_pos h]
  · rw [if_neg h]
    rfl

theorem sansVals_keepVal (c k : Nat) (x : Cnt) : (keepVal c k x).sansVals = x.sansVals := by
  refine Eq.trans ?_ (sansVals_wasIn c x)
  unfold keepVal
  generalize wasIn c x = y
  by_cases h : (tFind k y.was).isSome = true
  · rw [if_pos h]
  · rw [if_neg h, sansVals_was]

theorem sansVals_vals (v : Tab Nat) (w x : Tab (BitVec 16)) (c : Cnt) : ({ c with val := v, wrap := w, wrapNow := x } : Cnt).sansVals = c.sansVals := rfl

theorem sansVals_val (v : Tab Nat) (c : Cnt) : ({ c with val := v } : Cnt).sansVals = c.sansVals := rfl

theorem sansVals_sample (v : Tab (Nat × Nat)) (c : Cnt) : ({ c with sample := v } : Cnt).sansVals = c.sansVals := rfl

theorem sansVals_bump (i n amt : Nat) (sel : Word) (c : Cnt) : (bump i n amt sel c).1.sansVals = c.sansVals := by
  unfold bump
  extract_lets j v ovs base w c1
  have h1 : c1.sansVals = c.sansVals := sansVals_vals _ _ _ c
  clear_value c1
  split
  · exact sansVals_val _ c
  · split
    · split
      · exact h1
      · exact (sansVals_sample _ c1).trans h1
    · exact h1

theorem sansVals_countAll (s : State) (i evt : Nat) (obj : Option Nat) (amt : Nat) (c : Cnt) :
    (countAll s i evt obj amt c).1.sansVals = c.sansVals := by
  suffices h : ∀ (l : List Nat) (r : Cnt × Nat), (l.foldl
      (fun r n =>
        let sel := reg s (rCntSel i n)
        if selects sel evt obj && !(heldNow s (16 * i + n)) then
          let b := bump i n amt sel (keepVal s.tim.now (16 * i + n) r.1)
          (b.1, if b.2 then r.2 + 1 else r.2)
        else r) r).1.sansVals = r.1.sansVals from h (List.range 16) (c, 0)
  intro l
  induction l with
  | nil => exact fun _ => rfl
  | cons n l ih =>
    intro r
    rw [List.foldl_cons, ih]
    dsimp only
    split
    · exact (sansVals_bump _ _ _ _ _).trans (sansVals_keepVal _ _ _)
    · rfl

theorem sansVals_smpMissed (s : State) (i k : Nat) (c : Cnt) : (smpMissed s i k c).sansVals = c.sansVals := by
  unfold smpMissed
  split
  · rfl
  · rw [sansVals_countAll]
    split <;> rfl

theorem sansVals_countO (i evt obj amt : Nat) (s : State) : (countO i evt obj amt s).cnt.sansVals = s.cnt.sansVals := by
  unfold countO
  split
  · rfl
  · exact (sansVals_smpMissed _ _ _ _).trans (sansVals_countAll _ _ _ _ _ _)

theorem sansVals_countN (i evt amt : Nat) (s : State) : (countN i evt amt s).cnt.sansVals = s.cnt.sansVals := by
  unfold countN
  split
  · rfl
  · exact (sansVals_smpMissed _ _ _ _).trans (sansVals_countAll _ _ _ _ _ _)

end

/-! ## Notices -/

/-- The host rings without what a notice changes. -/
def Hrd.sansNotes (h : Hrd) : Hrd :=
  { h with ring := [], npend := [], nlost := [], nsince := [], nlostAt := 0, nlostNow := [], wr := [], wq := [], rrCh := [], rrRing := [],
           later := [] }

/-- No record waits in any ring. -/
def NoRecs (s : State) : Prop := ∀ e ∈ s.hrd.ring, e.2.recs = []

/-- From `s` to `t` no more has happened to the host rings and the counters than notices and counted events do. -/
structure Noted (s t : State) : Prop where
  hrd : t.hrd.sansNotes = s.hrd.sansNotes
  cnt : t.cnt.sansVals = s.cnt.sansVals
  ring : ∀ k < 16384, tGet Ring.empty t.hrd.ring k = tGet Ring.empty s.hrd.ring k
  recs : NoRecs s → NoRecs t

section
variable {s t u : State} {l : List Comp}

theorem Noted.refl (s : State) : Noted s s := ⟨rfl, rfl, fun _ _ => rfl, id⟩

theorem Noted.trans (h : Noted s t) (k : Noted t u) : Noted s u :=
  ⟨k.hrd.trans h.hrd, k.cnt.trans h.cnt, fun n hn => (k.ring n hn).trans (h.ring n hn), k.recs ∘ h.recs⟩

theorem Noted.of_eq (hh : t.hrd = s.hrd) (hc : t.cnt = s.cnt) : Noted s t :=
  ⟨congrArg _ hh, congrArg _ hc, fun _ _ => by rw [hh], fun h => by unfold NoRecs; rwa [hh]⟩

/-- What leaves the rings alone and of the counters changes what events change. -/
theorem Noted.of_cnt (hh : t.hrd = s.hrd) (hc : t.cnt.sansVals = s.cnt.sansVals) : Noted s t :=
  ⟨congrArg _ hh, hc, fun _ _ => by rw [hh], fun h => by unfold NoRecs; rwa [hh]⟩

theorem Noted.of_changes (h : Changes l s t) (hl : Comp.hrd ∉ l ∧ Comp.cnt ∉ l := by decide) : Noted s t :=
  .of_eq (h .hrd hl.1) (h .cnt hl.2)

/-- What changes only the waiting notices, writes and turns. -/
theorem noted_hrd (h : Hrd) (o : List Out) (hr : h.ring = s.hrd.ring := by rfl)
    (hh : h.sansNotes = s.hrd.sansNotes := by rfl) :
    Noted s { s with hrd := h, out := o } :=
  ⟨hh, rfl, fun _ _ => by rw [hr], fun k => by unfold NoRecs; rwa [hr]⟩

theorem noted_countO (i evt obj amt : Nat) (s : State) : Noted s (countO i evt obj amt s) :=
  .of_cnt (countO_hrd _ _ _ _ _) (sansVals_countO _ _ _ _ _)

theorem noted_count1 (i evt : Nat) (s : State) : Noted s (count1 i evt s) := .of_cnt (count1_hrd _ _ _) (sansVals_countN _ _ _ _)

theorem noted_grantWrite {h : Nat} (e : grantWrite h s = some u) : Noted s u := by
  unfold grantWrite at e
  split at e
  · cases e
  · cases e
    exact ⟨rfl, rfl, fun _ _ => rfl, id⟩

theorem noted_pumpWrites (n : Nat) (s : State) : Noted s (pumpWrites n s) := by
  induction n generalizing s with
  | zero => exact .refl s
  | succ n ih =>
    rw [pumpWrites]
    split
    · next e => exact (noted_grantWrite e).trans (ih _)
    · split
      · next e => exact (noted_grantWrite e).trans (ih _)
      · exact .refl s

theorem noted_hostWrites (l : List WrReq) (s : State) : Noted s (hostWrites l s) := by
  unfold hostWrites
  exact (noted_hrd _ s.out).trans (noted_pumpWrites _ _)

theorem mem_tSet {α : Type} [DecidableEq α] {d v : α} {t : Tab α} {k : Nat} {e : Nat × α} (h : e ∈ tSet d t k v) : e ∈ t ∨ e = (k, v) := by
  unfold tSet at h
  split at h
  · exact .inl (mem_tDel h)
  · exact (mem_tPut h).symm

/-- A notice ring takes an entry. -/
theorem noted_setRing {p : Nat} {r : Ring} (hr : r.recs = (ringOf s .ntc p).recs) : Noted s (setRing .ntc p r s) := by
  refine ⟨rfl, rfl, fun k hk => tGet_tSet_other (by simp only [rkey, kcode]; omega) _ _ _ _, fun h e he => ?_⟩
  rcases mem_tSet he with h' | rfl
  · exact h e h'
  · have none_ : (ringOf s .ntc p).recs = [] := by
      unfold ringOf tGet
      cases hf : tFind (rkey .ntc p) s.hrd.ring with
      | none => rfl
      | some x =>
        have mem : ∀ t : Tab Ring, tFind (rkey .ntc p) t = some x → (rkey .ntc p, x) ∈ t := by
          intro t
          induction t with
          | nil => simp [tFind]
          | cons y t ih =>
            obtain ⟨j, w⟩ := y
            unfold tFind
            split
            · next hj =>
              rintro ⟨⟩
              subst hj
              exact List.mem_cons_self
            · exact fun h => List.mem_cons_of_mem _ (ih h)
        exact h _ (mem _ hf)
    exact hr.trans none_

theorem noted_ntcWrite (p : Nat) (n : Notice) (s : State) : Noted s (ntcWrite p n s) := by
  refine (noted_setRing (s := s) ?_).trans (noted_hostWrites _ _)
  unfold advance
  split <;> rfl

theorem noted_ntcLose (p : Nat) (s : State) : Noted s (ntcLose p s) := by
  unfold ntcLose
  exact (noted_hrd _ s.out).trans (noted_countO _ _ _ _ _)

theorem noted_ntcDrain (p k : Nat) (s : State) : Noted s (ntcDrain p k s) := by
  induction k generalizing s with
  | zero => exact .refl s
  | succ k ih =>
    rw [ntcDrain]
    split
    · exact .refl s
    · split
      · extract_lets n s1
        have h1 : Noted s s1 := noted_ntcWrite _ _ _
        exact (h1.trans (noted_hrd _ s1.out)).trans (ih _)
      · split
        · exact .refl s
        · extract_lets s1
          have h1 : Noted s s1 := noted_ntcWrite _ _ _
          exact (h1.trans (noted_hrd _ s1.out)).trans (ih _)

theorem noted_notice (p : Nat) (n : Notice) (s : State) : Noted s (notice p n s) := by
  unfold notice
  extract_lets r s0 s1 pend
  have h0 : Noted s s0 := .of_eq (wake_hrd _ _ _) (wake_cnt _ _ _)
  have h : Noted s s1 := by
    show Noted s (if _ then _ else _)
    split
    · exact h0.trans (noted_ntcDrain _ _ _)
    · exact h0
  clear_value s1
  split
  · exact h.trans (noted_ntcLose _ _)
  · split
    · exact h.trans (noted_ntcWrite _ _ _)
    · split
      · exact h.trans (noted_hrd _ s1.out)
      · split
        · exact h.trans (noted_hrd _ s1.out)
        · exact h.trans (noted_ntcLose _ _)

theorem noted_fault (i b : Nat) (cap0 : Word) (acc mkind mnum part : Nat) (s : State) : Noted s (fault i b cap0 acc mkind mnum part s) := by
  unfold fault raise
  extract_lets f s1
  have set : Noted s s1 := .of_changes (changes_setFlt _ _ s)
  split
  · exact set
  · exact (set.trans (noted_notice _ _ _)).trans (noted_hrd _ _)

end

/-! ## The Milk Round -/

section
variable {s t : State} {q : Nat}

/-- The settings that no counted event changes. -/
theorem Cnt.settings_of {c d : Cnt} (h : c.sansVals = d.sansVals) : c.round = d.round ∧ c.ackw = d.ackw ∧ c.doneSeq = d.doneSeq ∧
    c.seq = d.seq ∧ c.skips = d.skips ∧ c.page = d.page ∧ c.swap = d.swap ∧ c.mrDue = d.mrDue ∧ c.mrPer = d.mrPer ∧ c.mrCfg = d.mrCfg := by
  have round := congrArg (fun x : Cnt => x.round) h
  have ackw := congrArg (fun x : Cnt => x.ackw) h
  have doneSeq := congrArg (fun x : Cnt => x.doneSeq) h
  have seq := congrArg (fun x : Cnt => x.seq) h
  have skips := congrArg (fun x : Cnt => x.skips) h
  have page := congrArg (fun x : Cnt => x.page) h
  have swap := congrArg (fun x : Cnt => x.swap) h
  have mrDue := congrArg (fun x : Cnt => x.mrDue) h
  have mrPer := congrArg (fun x : Cnt => x.mrPer) h
  have mrCfg := congrArg (fun x : Cnt => x.mrCfg) h
  exact ⟨round, ackw, doneSeq, seq, skips, page, swap, mrDue, mrPer, mrCfg⟩

theorem mrFlush_noRound (h : s.cnt.round = none) (n : Nat) : mrFlush n s = s := by
  cases n with
  | zero => rfl
  | succ n =>
    rw [mrFlush]
    have next : mrNextGroup s = none := by rw [mrNextGroup, h]; rfl
    rw [next]
    unfold mrClose
    rw [h]

/-- With no group and no record that waits, a tag that comes free serves the writes that wait alone. -/
theorem tagFreed_writes (hn : NoRecs s) (hr : s.cnt.round = none) : tagFreed s = pumpWrites s.hrd.wq.length s := by
  have kept := noted_pumpWrites s.hrd.wq.length s
  have cnt := pumpWrites_cnt s.hrd.wq.length s
  unfold tagFreed
  dsimp only
  generalize pumpWrites s.hrd.wq.length s = u at kept cnt
  have recs : NoRecs u := kept.recs hn
  have same : ∀ (l : Tab Ring), (∀ e ∈ l, e.2.recs = []) → ∀ v : State,
      l.foldl (fun s e => if e.2.recs.isEmpty then s else issueNow (kindOf (e.1 / 4096)) (e.1 % 4096) s) v = v := by
    intro l
    induction l with
    | nil => exact fun _ _ => rfl
    | cons e l ih =>
      intro h v
      rw [List.foldl_cons, h e List.mem_cons_self]
      exact ih (fun x hx => h x (List.mem_cons_of_mem _ hx)) v
  rw [same _ recs, mrFlush_noRound (by rw [cnt, hr])]

/-- What a round leaves of the counters' settings as it is abandoned. -/
def abandon (q : Nat) (c : Cnt) : Cnt :=
  { c with ackw := c.ackw.filter (· != q), round := (match c.round with | some r => if r.seq = q then none else some r | none => none) }

/-- R470: a write that failed abandons its round. -/
theorem mrFail_effect (q addr acc : Nat) (s : State) : (mrFail q addr acc s).cnt.sansVals = (abandon q s.cnt).sansVals ∧
    bit (fltOf (mrFail q addr acc s) 10).st 1 = true ∧ (mrFail q addr acc s).hrd.sansNotes = s.hrd.sansNotes ∧
    (NoRecs s → NoRecs (mrFail q addr acc s)) ∧ Changes faulted s (mrFail q addr acc s) := by
  unfold mrFail
  extract_lets live c s1
  have h1 : s1.cnt = abandon q s.cnt ∧ s1.hrd = s.hrd ∧ Changes [.cnt] s s1 := ⟨rfl, rfl, changes_cnt _ s⟩
  clear_value s1
  obtain ⟨hcnt, hhrd, hch⟩ := h1
  have h2 : Noted s1 (if live then count1 10 2 s1 else s1) ∧ Changes [.cnt] s1 (if live then count1 10 2 s1 else s1) := by
    split
    · exact ⟨noted_count1 _ _ _, changes_count1 _ _ _⟩
    · exact ⟨.refl _, changes_refl _ _⟩
  generalize (if live then count1 10 2 s1 else s1) = s2 at h2
  have told := noted_fault 10 1 (w32 addr) acc 12 0 0 s2
  have all := h2.1.trans told
  refine ⟨by rw [all.cnt, hcnt], fault_st (by decide), by rw [all.hrd, hhrd], fun h => all.recs (by unfold NoRecs; rwa [hhrd]),
    ((hch.trans h2.2).mono (by decide)).trans (changes_fault _ _ _ _ _ _ _ _)⟩

theorem abandon_ackw (q : Nat) (c : Cnt) : q ∉ (abandon q c).ackw := by simp [abandon]

theorem abandon_round (q : Nat) (c : Cnt) : ∀ r, (abandon q c).round = some r → r.seq ≠ q := by
  intro r h
  unfold abandon at h
  dsimp only at h
  split at h
  · split at h
    · cases h
    · next hne =>
      cases h
      exact hne
  · cases h

/-- R468: a round of two entries or more reads its first one, and writes no group yet. -/
theorem mrRead_first {r : Round} (h : s.cnt.round = some r) (hgot : r.got = 0) (htodo : r.todo = []) (hlen : 1 < r.len) :
    ∃ s0 v w, Changes [.fresh] s s0 ∧
      mrFlush 1 (mrRead s) = { s0 with cnt := { s.cnt with round := some { r with got := 1, vals := v, skip := w } } } := by
  have hfree : Changes [.fresh] s (if fld (mrActive s r.got) 30 2 = 2 ∧ 5 < fld (mrActive s r.got) 0 3 then useFree s else s) := by
    split
    · exact changes_useFree s
    · exact changes_refl _ s
  have hcnt : (if fld (mrActive s r.got) 30 2 = 2 ∧ 5 < fld (mrActive s r.got) 0 3 then useFree s else s).cnt = s.cnt := hfree .cnt (by decide)
  unfold mrRead
  rw [h]
  dsimp only
  generalize (if fld (mrActive s r.got) 30 2 = 2 ∧ 5 < fld (mrActive s r.got) 0 3 then useFree s else s) = s0 at hfree hcnt
  rw [if_neg (by omega), if_neg (by omega), hcnt, hgot]
  generalize hv : r.vals ++ [(mrEntry s (mrActive s 0)).1] = v
  generalize hw : r.skip ++ [(mrEntry s (mrActive s 0)).2] = w
  refine ⟨s0, v, w, hfree, ?_⟩
  have next (u : State) (hu : u.cnt.round = some { r with got := 1, vals := v, skip := w }) : mrFlush 1 u = u := by
    have none_ : mrNextGroup u = none := by
      unfold mrNextGroup
      rw [hu]
      show (match some (({ r with got := 1, vals := v, skip := w } : Round), r.todo) with | some (r, (a, b) :: t) => _ | _ => none) = none
      rw [htodo]
    rw [mrFlush, none_]
    unfold mrClose
    rw [hu]
    exact if_neg (by simp only [htodo, true_and]; omega)
  exact next _ rfl

/-- R466, R468: a round starts, and its first entry is read in the same cycle. -/
theorem roundStart_effect (hlen : 1 < regF s pageCNT 8 17) : ∃ r, (roundStart s).cnt.round = some r ∧ r.seq = (s.cnt.seq + 1) % 2 ^ 16 ∧
    r.tick = s.tim.tick ∧ r.len = regF s pageCNT 8 17 ∧ r.base = regPair s (pageCNT + 8) ∧ r.got = 1 ∧ (roundStart s).cnt.seq = r.seq ∧
    (roundStart s).cnt.mrPer = regF s pageCNT 1 7 ∧ (roundStart s).cnt.mrCfg = reg s (pageCNT + 4) ∧
    (roundStart s).cnt.page = (s.cnt.page != s.cnt.swap) ∧ (roundStart s).cnt.swap = false ∧ (roundStart s).cnt.mrDue = false ∧
    Changes [.cnt, .fresh] s (roundStart s) := by
  unfold roundStart
  extract_lets c q r0 s1
  have h1 := Cnt.settings_of (sansVals_countN 10 0 1 { s with cnt := { c with
      mrDue := false, mrPer := regF s pageCNT 1 7, mrCfg := reg s (pageCNT + 4), seq := q, page := c.page != c.swap, swap := false,
      snapRound := laneSnap s, round := some r0 } })
  have hch : Changes [.cnt, .fresh] s s1 := ((changes_cnt _ s).trans (changes_count1 10 0 _)).mono (by decide)
  change s1.cnt.round = _ ∧ s1.cnt.ackw = _ ∧ s1.cnt.doneSeq = _ ∧ s1.cnt.seq = _ ∧ s1.cnt.skips = _ ∧ s1.cnt.page = _ ∧ s1.cnt.swap = _ ∧
    s1.cnt.mrDue = _ ∧ s1.cnt.mrPer = _ ∧ s1.cnt.mrCfg = _ at h1
  clear_value s1
  obtain ⟨hround, -, -, hseq, -, hpage, hswap, hdue, hper, hcfg⟩ := h1
  obtain ⟨s0, v, w, hfree, e⟩ := mrRead_first hround rfl rfl hlen
  rw [e]
  refine ⟨{ r0 with got := 1, vals := v, skip := w }, rfl, rfl, rfl, rfl, rfl, rfl, hseq, hper, hcfg, hpage, hswap, hdue,
    (hch.trans (hfree.mono (by decide))).trans ((changes_cnt _ s0).mono (by decide))⟩

/-- R470: the last group of a round is acknowledged. -/
theorem roundDone_effect {l : List Nat} (hr : s.cnt.round = none) (hw : s.hrd.wq = []) (hn : NoRecs s) (ho : s.out = [])
    (ha : s.cnt.ackw = q :: l) (hl : (roundWrites s q).length ≤ 1) : (roundDone s).cnt = { s.cnt with ackw := l, doneSeq := q } ∧
      roundWrites (roundDone s) q = [] ∧ (roundDone s).out = (if bit s.cnt.mrCfg 8 then [.irq (fld s.cnt.mrCfg 9 12) 0] else []) ∧
      Changes [.cnt, .hrd] s (roundDone s) := by
  have dropped : ∀ (l : List HWrite) (u : State), (l.foldl (fun s x => dropWrite x s) u) =
      { u with hrd := { u.hrd with wr := u.hrd.wr.filter fun y => l.all fun x => !(y.chan == x.chan && y.tag == x.tag) } } := by
    intro l
    induction l with
    | nil => exact fun u => by simp
    | cons x l ih =>
      intro u
      rw [List.foldl_cons, ih, dropWrite]
      simp only [List.filter_filter, List.all_cons]
      simp only [Bool.and_comm]
  unfold roundDone
  rw [ha]
  dsimp only
  rw [if_neg (by omega), dropped]
  set left_ := s.hrd.wr.filter fun y => (roundWrites s q).all fun x => !(y.chan == x.chan && y.tag == x.tag) with hleft
  have writes (u : State) (hu : u.hrd.wr = left_) : roundWrites u q = [] := by
    refine List.eq_nil_iff_forall_not_mem.mpr fun x hx => ?_
    obtain ⟨hmem, hq⟩ := List.mem_filter.mp hx
    rw [hu, hleft, List.mem_filter] at hmem
    have mine : x ∈ roundWrites s q := List.mem_filter.mpr ⟨hmem.1, hq⟩
    have apart := List.all_eq_true.mp hmem.2 x mine
    simp at apart
  clear_value left_
  have freed (u : State) (h1 : u.hrd.wq = []) (h2 : NoRecs u) (h3 : u.cnt.round = none) : tagFreed u = u := by
    rw [tagFreed_writes h2 h3, h1]
    rfl
  have hch : Changes [.cnt, .hrd] s { s with cnt := { s.cnt with ackw := l, doneSeq := q }, hrd := { s.hrd with wr := left_ } } := fun c hc => by
    cases c <;> simp [Kept] at hc ⊢
  split
  · rw [freed _ (by exact hw) (by exact hn) (by exact hr)]
    exact ⟨rfl, writes _ rfl, by simp [irq, emit, ho], Changes.emit hch⟩
  · rw [freed _ (by exact hw) (by exact hn) (by exact hr)]
    exact ⟨rfl, writes _ rfl, ho, hch⟩

/-- R470: an error in a group's write. -/
theorem roundErr_effect {x : HWrite} (hr : s.cnt.round = none) (hn : NoRecs s) (ho : oldestRoundWrite s = some (q, x)) :
    q ∉ (roundErr s).cnt.ackw ∧ (roundErr s).cnt.doneSeq = s.cnt.doneSeq ∧ bit (fltOf (roundErr s) 10).st 1 = true ∧
      Changes faulted s (roundErr s) := by
  have drop : Changes [.hrd] s (dropWrite x s) := changes_hrd _ s.out s
  obtain ⟨hcnt, hst, -, hrecs, hch⟩ := mrFail_effect q x.addr 2 (dropWrite x s)
  have e : roundErr s = tagFreed (mrFail q x.addr 2 (dropWrite x s)) := by
    unfold roundErr
    rw [ho]
  rw [e]
  have hrecs := hrecs hn
  generalize mrFail q x.addr 2 (dropWrite x s) = u at hcnt hst hrecs hch
  have same : (dropWrite x s).cnt = s.cnt := rfl
  rw [same] at hcnt
  obtain ⟨hround, hackw, hdone, -⟩ := Cnt.settings_of hcnt
  have none_ : u.cnt.round = none := by rw [hround, abandon, hr]
  rw [tagFreed_writes hrecs none_, pumpWrites_cnt, fltOf, pumpWrites_flt, ← fltOf]
  refine ⟨hackw ▸ abandon_ackw q s.cnt, hdone, hst, ((drop.mono (by decide)).trans hch).trans ?_⟩
  obtain ⟨h, o, e⟩ := pumpWrites_eq u.hrd.wq.length u
  rw [e]
  exact (changes_hrd h o u).mono (by decide)

/-- R470: a group's write without an acknowledgement in 20,000 cycles. -/
theorem roundTimeout_effect {x : HWrite} (ho : oldestRoundWrite s = some (q, x)) (hd : x.at_ + 20000 ≤ s.tim.now) :
    q ∉ (roundTimeout s).cnt.ackw ∧ (∀ r, (roundTimeout s).cnt.round = some r → r.seq ≠ q) ∧ x ∈ (roundTimeout s).hrd.lateW ∧
      bit (fltOf (roundTimeout s) 10).st 1 = true ∧ Changes faulted s (roundTimeout s) := by
  have e : roundTimeout s = mrFail q x.addr 6 { s with hrd := { (dropWrite x s).hrd with lateW := s.hrd.lateW ++ [x] } } := by
    unfold roundTimeout
    rw [ho]
    exact if_neg (Nat.not_lt.mpr hd)
  have late : Changes [.hrd] s { s with hrd := { (dropWrite x s).hrd with lateW := s.hrd.lateW ++ [x] } } := changes_hrd _ s.out s
  rw [e]
  obtain ⟨hcnt, hst, hhrd, -, hch⟩ := mrFail_effect q x.addr 6 { s with hrd := { (dropWrite x s).hrd with lateW := s.hrd.lateW ++ [x] } }
  obtain ⟨hround, hackw, -⟩ := Cnt.settings_of hcnt
  have lateW := congrArg (fun h : Hrd => h.lateW) hhrd
  refine ⟨hackw ▸ abandon_ackw q s.cnt, fun r hr => abandon_round q s.cnt r (hround ▸ hr), ?_, hst, (late.mono (by decide)).trans hch⟩
  have mem : x ∈ s.hrd.lateW ++ [x] := by simp
  exact lateW ▸ mem

end

/-- Settles O60: the list port, then the start, the end and the failures of a round. -/
theorem milkRound : Obligations.MilkRound := by
  intro s
  refine ⟨fun data hr hidx => ⟨?_, ?_⟩, fun hr => ?_, fun hdue hcyc => ⟨fun hround hon hlen => ?_, fun hno => ?_⟩,
    fun hround hpend hwq hrecs => ⟨fun q l ha hl => ?_, fun q x ho => ?_⟩, fun q x ho hd => ?_⟩
  · refine ⟨ldataWrite data (begin_ s), congrArg Host.Outcome.next (p0Write_ready (s := begin_ s) hr rfl), ?_⟩
    have entry (t : Tab Word) (j : Nat) : tGet 0 (tSet 0 t s.cnt.lidx data) j = if j = s.cnt.lidx then data else tGet 0 t j := by
      split
      · next h => rw [h, tGet_tSet_same]
      · next h => exact tGet_tSet_other h _ _ _ _
    have split_ : ldataWrite data (begin_ s) = if s.cnt.page then
        lidxNext { begin_ s with cnt := { s.cnt with list0 := tSet 0 s.cnt.list0 s.cnt.lidx data } }
        else lidxNext { begin_ s with cnt := { s.cnt with list1 := tSet 0 s.cnt.list1 s.cnt.lidx data } } := by
      unfold ldataWrite
      cases hp : s.cnt.page <;> simp [begin_, hp]
    rw [split_]
    cases hp : s.cnt.page with
    | true => exact ⟨rfl, entry _, rfl, rfl, (changes_cnt _ (begin_ s)).of_begin⟩
    | false => exact ⟨rfl, entry _, rfl, rfl, (changes_cnt _ (begin_ s)).of_begin⟩
  · have e : p0Read 0 0xF (ldata (begin_ s)) lidxNext (begin_ s) = emit (.regRead (ldata (begin_ s))) (lidxNext (begin_ s)) := by
      unfold p0Read
      rw [if_neg (by simp [begin_, show s.glb.phase = 4 from hr]), if_neg (by simp)]
    exact ⟨_, congrArg Host.Outcome.next e, rfl, rfl, Changes.of_begin (Changes.emit (changes_cnt _ (begin_ s)))⟩
  · exact ⟨_, runs_p0 (c := .mrSwap 0) (f := mrSwap) rfl hr, rfl, (changes_cnt _ (begin_ s)).of_begin⟩
  · have e : milkStart (begin_ s) = roundStart (begin_ s) := by
      unfold milkStart
      rw [if_neg (by simp [begin_, hdue, show cyc { s with out := [] } = 0 from hcyc]),
        if_neg (by simp [begin_, hround, show domOn { s with out := [] } domHP = true from hon])]
    obtain ⟨r, h1, h2, h3, h4, h5, h6, h7, h8, h9, h10, h11, h12, h13⟩ := roundStart_effect (s := begin_ s) hlen
    exact ⟨_, r, congrArg Host.Outcome.next e, h1, h2, h3, h4, h5, h6, h7, h8, h9, h10, h11, h12, h13.of_begin⟩
  · have e : milkStart (begin_ s) =
        count1 10 1 { begin_ s with cnt := { s.cnt with mrDue := false, skips := min 0xFFFF (s.cnt.skips + 1) } } := by
      unfold milkStart
      rw [if_neg (by simp [begin_, hdue, show cyc { s with out := [] } = 0 from hcyc])]
      refine if_pos ?_
      rcases hno with h | h
      · exact .inl (by simpa [begin_, Option.isSome_iff_ne_none] using h)
      · exact .inr (by simp [begin_, show domOn { s with out := [] } domHP = false from h])
    obtain ⟨hround, -, -, hseq, hskips, -, -, hdue', -⟩ := Cnt.settings_of
      (sansVals_countN 10 1 1 { begin_ s with cnt := { s.cnt with mrDue := false, skips := min 0xFFFF (s.cnt.skips + 1) } })
    exact ⟨_, congrArg Host.Outcome.next e, hskips, hdue', hround, hseq,
      Changes.of_begin ((changes_cnt _ (begin_ s)).trans (changes_count1 10 1 _))⟩
  · obtain ⟨h1, h2, h3, h4⟩ := roundDone_effect (s := begin_ s) hround hwq hrecs rfl ha hl
    exact ⟨_, rfl, h1, h2, h3, h4.of_begin⟩
  · obtain ⟨h1, h2, h3, h4⟩ := roundErr_effect (s := begin_ s) hround hrecs ho
    exact ⟨_, rfl, h1, h2, h3, h4.of_begin⟩
  · obtain ⟨h1, h2, h3, h4, h5⟩ := roundTimeout_effect (s := begin_ s) ho hd
    have e : roundLate (begin_ s) = roundTimeout (begin_ s) := by
      unfold roundLate
      rw [show oldestRoundWrite (begin_ s) = some (q, x) from ho]
      exact congrArg roundTimeout (waitUntil_due (s := begin_ s) hd)
    exact ⟨_, congrArg Host.Outcome.next e, h1, h2, h3, h4, h5.of_begin⟩

end Sys2Proof.Machine
end

section
/-!
SUPPORT. Passes given up as late, and the projection of the next tick (R149, R361).
-/

namespace Sys2Proof.Machine

-- one declaration at a time: the package is compiled as one text within a limit of memory
set_option Elab.async false

section
variable {s : State} {c : Nat}

/-- A cycle of the tick that has come lets no cycle pass. -/
theorem syncTo_come (h : c ≤ cyc s) : syncTo c s = s := if_neg fun k => absurd k.2.1 (Nat.not_lt.mpr h)

theorem chnOf_modChn_same (t : Nat) (f : Chn → Chn) (s : State) : chnOf (modChn t f s) t = f (chnOf s t) := tGet_tSet_same _ _ _ _

theorem chnOf_modChn_other {t u : Nat} (h : u ≠ t) (f : Chn → Chn) (s : State) : chnOf (modChn t f s) u = chnOf s u :=
  tGet_tSet_other h _ _ _ _

theorem changes_modChn (t : Nat) (f : Chn → Chn) (s : State) : Changes [.chn] s (modChn t f s) := changes_chn _ s

/-- R149: the map that is not complete in time is given up. -/
theorem passLate_due {t : Nat} (hr : churnRuns s t = true) (hd : (treOf s t).mapDone = false) (hn : (treOf s t).mapNone = false)
    (ho : domOn s (domTP t) = true) (hc : 124999 ≤ cyc s) :
    passLate t s = fault (iCHN (homeT s t)) 0 (w32 t) 6 2 (homeT s t) 0 (modChn t (fun c => { c with pass := none }) s) := by
  unfold passLate
  rw [if_neg (by simp [hr, hd, hn, ho]), syncTo_come hc]
  exact if_neg (Nat.not_lt.mpr hc)

/-- R361: with the rate as it stands and no slew, the time of a later cycle. -/
theorem timeAtCyc_steady {k : Nat} (hk : s.tim.now ≤ k) (hs : s.tim.slew = 0) (ho : oldRate s = none) :
    timeAtCyc s k = s.tim.time + (k - s.tim.now) * s.tim.inc := by
  have still (n : Nat) : (nowSeg s).slewed n = 0 := by
    unfold TSeg.slewed nowSeg
    simp [hs]
  unfold timeAtCyc
  rw [if_pos hk, ho]
  show addTime (s.tim.time + (k - s.tim.now) * s.tim.inc) ((nowSeg s).slewed (k - s.tim.now)) = _
  rw [still, addTime, Int.add_zero, Int.toNat_natCast]

theorem project_steady {set : Nat} (hc : 156186 ≤ cyc s) (hc' : cyc s ≤ 156250) (hs : s.tim.slew = 0) (hp : s.tim.stepPend = none)
    (hr : s.tim.restart ≠ some false) (ho : oldRate s = none) : project set s = s.tim.time + (156250 - cyc s) * s.tim.inc := by
  unfold cyc at hc hc'
  unfold project
  rw [if_neg hr, hp]
  dsimp only
  rw [timeAtCyc_steady (by unfold tickCyc; omega) hs ho]
  unfold cyc tickCyc
  rw [show s.tim.tickStart + 156250 - s.tim.now = 156250 - (s.tim.now - s.tim.tickStart) by omega]

end

/-- Settles O18: both commands act at once, their cycle having come. -/
theorem passLateAndProjection : Obligations.PassLateAndProjection := by
  refine ⟨fun s tree hr hd hn ho hc => ?_, fun s hs hc => ?_⟩
  · have e := passLate_due (s := begin_ s) hr hd hn ho hc
    refine ⟨_, congrArg Host.Outcome.next e, ?_, fault_st (by decide), Changes.of_begin ?_⟩
    · rw [chnOf, fault_chn, ← chnOf, chnOf_modChn_same]
    · exact ((changes_modChn _ _ (begin_ s)).mono (by decide)).trans ((changes_fault _ _ _ _ _ _ _ _).mono (by decide))
  · have e : timeProjection (begin_ s) =
        { begin_ s with tim := { s.tim with proj := some (project (timSet (viewAt (s.tim.tick + 1) (begin_ s))) (begin_ s)) } } := by
      unfold timeProjection
      rw [if_neg (by simp [begin_, hs]), syncTo_come (s := begin_ s) hc]
      exact if_neg (Nat.not_lt.mpr hc)
    refine ⟨_, congrArg Host.Outcome.next e, rfl, fun hslew hstep hres hc' hold => ?_, rfl, (changes_tim _ (begin_ s)).of_begin⟩
    exact congrArg some (project_steady (s := begin_ s) hc hc' hslew hstep hres (oldRate_begin hold))

end Sys2Proof.Machine
end

section
/-!
SUPPORT. Downstream blocks of a tree whose state holds a rate that no table lists; protection requests (R62, R90 to R96).
-/

namespace Sys2Proof.Machine

-- one declaration at a time: the package is compiled as one text within a limit of memory
set_option Elab.async false

/-! ## A rate beyond Table 0-4 -/

/-- READY, in cycle `c` of tick 100. -/
def inTick (c : Nat) : State :=
  { State.reset with
    glb := { Glb.reset with phase := 4 }
    tim := { Tim.reset with started := true, tick := 100, tickStart := 10000000, now := 10000000 + c, beat := c / 15625 } }

/-- Tree 0 runs at a rate of 4, which no write of TRE_CFG gives, with every bit of SPAN set. -/
def rateBeyond : State :=
  { inTick 156246 with
    tre := [(0, { Tre.empty with run := true, rate := 4 })]
    regs := { Regs.reset with val := [(rTim 0x54, 0xFFF)] } }

/-- The tree that a tick block names. -/
def blockTree : Out → Option Nat
  | .dsBlock _ _ b => some (nfld b.toNat 118 6)
  | _ => none

/-- The rate runs over into SPAN, and SPAN into the tree's number (Table 3-3). -/
theorem blockTree_rateBeyond : (blockRequest 0 true 0 (begin_ rateBeyond)).out.map blockTree = [some 1] := by decide +kernel

/-- Refutes O19: at the aligned SOT the tick block of tree 0 names tree 1 where the tree runs at a rate of 4 (`rateBeyond`). -/
theorem not_downstreamBlocks : ¬ Obligations.DownstreamBlocks := by
  intro h
  obtain ⟨aligned, -⟩ := h rateBeyond 0 0 (by decide) (by decide) (by decide)
  obtain ⟨t, b, run, hout, -, -, -, named, -⟩ := aligned rfl (by decide)
  obtain ⟨tree, -⟩ := named (by decide)
  have left_ : blockRequest 0 true 0 (begin_ rateBeyond) = t := Host.Outcome.next.inj run
  have one := blockTree_rateBeyond
  rw [left_, hout] at one
  have name : nfld b.toNat 118 6 = 1 := by simpa [blockTree] using one
  exact absurd (name.symm.trans tree) (by decide)

/-! ## Protection requests -/

section
variable {s : State}

theorem treOf_setTre_same (t : Nat) (r : Tre) (s : State) : treOf (setTre t r s) t = r := tGet_tSet_same _ _ _ _

theorem treOf_setTre_other {t u : Nat} (h : u ≠ t) (r : Tre) (s : State) : treOf (setTre t r s) u = treOf s u := tGet_tSet_other h _ _ _ _

theorem tickFrom_spec (n a : Nat) (ha : a < 256) : tickFrom n a % 256 = a ∧ n ≤ tickFrom n a ∧ tickFrom n a < n + 256 := by
  unfold tickFrom
  omega

/-- R95, R96: a request that is taken. -/
theorem pswRequest_taken {t code at_ : Nat} (hon : domOn s (domTP t) = true) (hvq : vqOf s t = none)
    (hmode : treF s t 0x30 0 2 = 1 ∨ treF s t 0x30 0 2 = 2) (hcode : code ≤ 5) (hl : (treOf s t).lockout = false)
    (hf : (treOf s t).forced = false) (hp : (treOf s t).psw = none) : pswRequest t code at_ s =
      setTre t { treOf s t with psw := some ⟨code, tickFrom (s.tim.tick + 2) at_, pswSel (treOf s t) code⟩ }
        (emit (.pswAck t) (count1 (iTRE t) 33 s)) := by
  have counted := changes_count1 (iTRE t) 33 s
  have htre : treOf (emit (.pswAck t) (count1 (iTRE t) 33 s)) t = treOf s t := congrArg (tGet Tre.empty · t) (counted .tre (by decide))
  have hregs : (emit (.pswAck t) (count1 (iTRE t) 33 s)).regs = s.regs := counted .regs (by decide)
  have htim : (emit (.pswAck t) (count1 (iTRE t) 33 s)).tim = s.tim := counted .tim (by decide)
  have hfield : treF (emit (.pswAck t) (count1 (iTRE t) 33 s)) t 0x30 0 2 = treF s t 0x30 0 2 := by
    simp only [treF, regF, reg, hregs]
  have taken : pswTaken (treOf s t) code = true := by
    unfold pswTaken
    rw [hl, hf]
    rfl
  unfold pswRequest
  rw [if_neg (by simp [hon])]
  dsimp only
  rw [htre, hp, hfield, htim, taken, hvq]
  exact if_neg (by simp; omega)

end

/-- Settles O23: with the mode, the code and the tree's state as stated the request is taken. -/
theorem protectionRequest : Obligations.ProtectionRequest := by
  intro s tree code swAt hon hvq hmode hcode hl hf hp
  obtain ⟨mod, low, high⟩ := tickFrom_spec (s.tim.tick + 2) swAt.toNat swAt.isLt
  have counted := changes_count1 (iTRE tree.toNat) 33 (begin_ s)
  have tre : (count1 (iTRE tree.toNat) 33 (begin_ s)).tre = s.tre := counted .tre (by decide)
  have e := pswRequest_taken (s := begin_ s) (at_ := swAt.toNat) hon hvq hmode hcode hl hf hp
  have out : (count1 (iTRE tree.toNat) 33 (begin_ s)).out = [] := count1_out _ _ _
  refine ⟨_, tickFrom (s.tim.tick + 2) swAt.toNat, congrArg Host.Outcome.next e, ?_, ?_, mod, low, high, ?_, fun u hu => ?_,
    Changes.of_begin ((counted.mono (by decide)).trans ?_)⟩
  · show (count1 (iTRE tree.toNat) 33 (begin_ s)).out ++ [_] = _
    rw [out]
    rfl
  · exact (congrArg Tre.psw (treOf_setTre_same _ _ _)).trans rfl
  · exact (congrArg Tre.sel (treOf_setTre_same _ _ _)).trans rfl
  · refine (treOf_setTre_other hu _ _).trans ?_
    exact congrArg (tGet Tre.empty · u) tre
  · exact Changes.trans (t := emit (.pswAck tree.toNat) (count1 (iTRE tree.toNat) 33 (begin_ s))) (Changes.emit (changes_refl _ _))
      ((changes_tre _ _).mono (by decide))

end Sys2Proof.Machine
end

section
/-!
SUPPORT. What the host rings' records, the messages of a tree and a terminal's release leave alone; then the repeats of messages and what
age ends in a tree port (R71, R85, R87, R110, R117, R153, R322, R425).
-/

namespace Sys2Proof.Machine

-- one declaration at a time: the package is compiled as one text within a limit of memory
set_option Elab.async false

/-! ## Records and commands -/

/-- What the records of a ring can change as they are issued. -/
abbrev recording : List Comp := [.upl, .hrd, .cnt, .fresh]

section
variable {s u : State} {k : RingKind} {n : Nat}

theorem changes_hostReads (l : List RdReq) (s : State) : Changes [.hrd] s (hostReads l s) := (ringsKeep_hostReads l s).changes

theorem changes_pumpReads (m : Nat) (s : State) : Changes [.hrd] s (pumpReads m s) := (ringsKeep_pumpReads m s).changes

theorem changes_tryFetch (k : RingKind) (n : Nat) (cover : Bool) (s : State) : Changes [.hrd, .cnt] s (tryFetch k n cover s) :=
  (ringsKeep_tryFetch k n cover s).changes

theorem changes_setRingOf (k : RingKind) (n : Nat) (r : Ring) (s : State) : Changes [.hrd] s (setRing k n r s) := changes_hrd _ s.out s

theorem changes_cqReserve (c : Nat) (d : Int) (s : State) : Changes [.hrd] s (cqReserve c d s) := (ringsKeep_cqReserve c d s).changes

theorem changes_cqWrite {c : Nat} {x : CRec} (e : cqWrite c x k n s = some u) : Changes [.hrd] s u := by
  unfold cqWrite at e
  extract_lets r q at e
  split at e
  · cases e
    exact changes_setRingOf _ _ _ s
  · split at e
    · cases e
    · cases e
      exact (changes_setRingOf _ _ _ s).trans (changes_hostWrites _ _)

theorem changes_complete (i : Nat) (f : Frame) (s : State) : Changes [.hrd, .cnt, .fresh] s (complete i f s) := changes_completeAs _ _ s

theorem changes_issueHead (k : RingKind) (n : Nat) (s : State) : Changes recording s (issueHead k n s) := by
  unfold issueHead
  extract_lets r
  split
  · exact changes_refl _ s
  · next x t _ =>
    split
    · exact changes_refl _ s
    · split
      · exact changes_refl _ s
      · next s1 e =>
        extract_lets r1 s2 s3
        have h2 : Changes recording s s2 := ((changes_cqWrite e).trans (changes_setRingOf _ _ _ s1)).mono (by decide)
        have h3 : Changes recording s s3 := by
          show Changes recording s (match x.sq, x.frame with | some _, some _ => _ | _, _ => s2)
          split
          · exact h2.trans ((changes_upl _ s2).mono (by decide))
          · exact h2
        clear_value s3
        split
        · exact h3.trans ((changes_complete _ _ _).mono (by decide))
        · exact h3

theorem changes_issueRecs (k : RingKind) (n m : Nat) (s : State) : Changes recording s (issueRecs k n m s) := by
  induction m generalizing s with
  | zero => exact changes_refl _ s
  | succ m ih =>
    rw [issueRecs]
    split
    · exact (changes_issueHead k n s).trans (ih _)
    · exact changes_issueHead k n s

theorem changes_issueNow (k : RingKind) (n : Nat) (s : State) : Changes recording s (issueNow k n s) := changes_issueRecs _ _ _ s

/-- R322: what the end of a command can change. -/
theorem changes_completesCmd (p status cause result : Nat) (s : State) : Changes recording s (completeCmd p status cause result s) := by
  unfold completeCmd
  extract_lets r idx had c x h0 s1 s2
  have h1 : Changes recording s s1 := (changes_hrd _ s.out s).mono (by decide)
  have h2 : Changes recording s s2 := by
    show Changes recording s (if _ then _ else _)
    split
    · exact h1
    · exact h1.trans ((changes_cqReserve _ _ s1).mono (by decide))
  clear_value s2
  split
  · exact h1
  · exact ((h2.trans ((changes_setRingOf _ _ _ s2).mono (by decide))).trans (changes_issueNow _ _ _)).trans ((changes_tryFetch _ _ _ _).mono (by decide))

theorem changes_refuseWaits (t : Nat) (p : Tmm → Bool) (s : State) : Changes recording s (refuseWaits t p s) := by
  unfold refuseWaits
  exact .foldl (fun u e => by
    split <;> first
      | exact changes_refl _ u
      | exact .ite (fun _ => changes_completesCmd _ _ _ _ u) fun _ => changes_refl _ u) _ s

/-! ## Messages of a tree -/

theorem changes_wake (d src : Nat) (s : State) : Changes [.pwr] s (wake d src s) := (powerKeeps_wake d src s).changes

theorem changes_setTre (t : Nat) (r : Tre) (s : State) : Changes [.tre] s (setTre t r s) := changes_tre _ s

theorem changes_modTre (t : Nat) (f : Tre → Tre) (s : State) : Changes [.tre] s (modTre t f s) := changes_tre _ s

/-- A tree port without its queues of messages. -/
def Tre.sansMsgs (r : Tre) : Tre := { r with seq := 0, tmmq := [], tmmPend := [] }

/-- From `s` to `u` tree `t` has sent messages at most. -/
structure Messaged (t : Nat) (s u : State) : Prop where
  changes : Changes [.tre, .pwr, .cnt] s u
  here : (treOf u t).sansMsgs = (treOf s t).sansMsgs
  other : ∀ v, v ≠ t → treOf u v = treOf s v

theorem Messaged.trans {t : Nat} {v : State} (h : Messaged t s u) (k : Messaged t u v) : Messaged t s v :=
  ⟨h.changes.trans k.changes, k.here.trans h.here, fun w hw => (k.other w hw).trans (h.other w hw)⟩

theorem Messaged.ctxOf {t : Nat} (h : Messaged t s u) (i : Nat) : ctxOf u t i = ctxOf s t i := by
  have e := congrArg (fun r : Tre => tGet Ctx.unknown r.ctx i) h.here
  exact e

theorem treOf_of_tre (h : u.tre = s.tre) (t : Nat) : treOf u t = treOf s t := by unfold treOf; rw [h]

/-- A message is queued, or waits for a place. -/
theorem pushTmm_effect (t : Nat) (m : Tmm) (s : State) : Messaged t s (pushTmm t m s) ∧
    m ∈ (treOf (pushTmm t m s) t).tmmq ++ (treOf (pushTmm t m s) t).tmmPend ∧
    (treOf (pushTmm t m s) t).tmmOut = (treOf s t).tmmOut ∧ (treOf (pushTmm t m s) t).ctx = (treOf s t).ctx := by
  have kept {l : List Comp} {r : Tre} {v : State} (h : Changes l (setTre t r s) v) (hl : l ⊆ [.pwr, .cnt])
      (hr : r.sansMsgs = (treOf s t).sansMsgs) : Messaged t s v ∧ treOf v t = r := by
    have htre : v.tre = (setTre t r s).tre := h .tre fun k => absurd (hl k) (by decide)
    have here := (treOf_of_tre htre t).trans (treOf_setTre_same t r s)
    refine ⟨⟨((changes_setTre t r s).mono (by decide)).trans (h.mono fun c hc => ?_), by rw [here, hr], fun w hw => ?_⟩, here⟩
    · have := hl hc
      revert this
      cases c <;> decide
    · exact (treOf_of_tre htre w).trans (treOf_setTre_other hw r s)
  unfold pushTmm
  dsimp only
  split
  · obtain ⟨h, e⟩ := kept (r := { treOf s t with tmmq := (treOf s t).tmmq ++ [m] }) (changes_wake (domTP t) 1 _) (by decide) rfl
    refine ⟨h, ?_, by rw [e], by rw [e]⟩
    rw [e]
    simp
  · obtain ⟨h, e⟩ := kept (r := { treOf s t with tmmPend := (treOf s t).tmmPend ++ [m] }) (changes_count1 (iTRE t) 34 _) (by decide) rfl
    refine ⟨h, ?_, by rw [e], by rw [e]⟩
    rw [e]
    simp

theorem messaged_sendTmm (t type tid tgt : Nat) (body : List Byte) (tickAt : Option Nat) (acked : Bool) (s : State) :
    Messaged t s (sendTmm t type tid tgt body tickAt acked s) := by
  unfold sendTmm
  extract_lets r m
  have first : Messaged t s (setTre t { r with seq := r.seq + 1 } s) :=
    ⟨(changes_setTre _ _ s).mono (by decide), by rw [treOf_setTre_same]; rfl, fun w hw => treOf_setTre_other hw _ s⟩
  exact first.trans (pushTmm_effect t m _).1

/-! ## The release of a terminal -/

/-- What a released terminal can change. -/
abbrev ending : List Comp := [.glb, .flt, .qbm, .tre, .chn, .upl, .hrd, .pwr, .cnt, .fresh]

theorem changes_dropToken (q evt : Nat) (t : Token) (s : State) : Changes releasing s (dropToken q evt t s) := by
  have counted (e : Nat) : Changes releasing s (countQ e q s) := by
    unfold countQ
    split
    · exact (changes_countO _ _ _ _ s).mono (by decide)
    · exact (changes_count1 _ _ s).mono (by decide)
  have object (v : State) : Changes releasing v (objDiscard q v) := by
    unfold objDiscard
    split
    · exact (changes_cnt _ v).mono (by decide)
    · split
      · exact (changes_cnt _ v).mono (by decide)
      · exact (changes_cnt _ v).mono (by decide)
  unfold dropToken
  exact (((counted evt).trans (object _)).trans ((changes_qbm _ _).mono (by decide))).trans (freed_release1 _ _).changes

theorem changes_setQueue (q : Nat) (l : List Token) (s : State) : Changes [.qbm] s (setQueue q l s) := changes_qbm _ s

theorem changes_flushQueue (q : Nat) (s : State) : Changes releasing s (flushQueue q s) := by
  have drops (l : List Token) (v : State) : Changes releasing v (l.foldl (fun s t => dropToken q 8 t s) v) :=
    .foldl (fun v t => changes_dropToken _ _ t v) l v
  have marked (x : Qbm) (l : List Token) : Changes releasing s (setQueue q l { s with qbm := x }) :=
    ((changes_qbm x s).trans (changes_setQueue q l _)).mono (by decide)
  exact (marked _ _).trans (drops _ _)

theorem changes_flushes (l : Tab W4) (s : State) : Changes releasing s (l.foldl (fun s e => flushQueue e.1 s) s) := by
  have each (v : State) (e : Nat × W4) : Changes releasing v (flushQueue e.1 v) := changes_flushQueue e.1 v
  induction l generalizing s with
  | nil => exact changes_refl _ s
  | cons e l ih => exact (each s e).trans (ih _)

theorem changes_dropTmm (t : Nat) (p : Tmm → Bool) (s : State) : Changes [.tre] s (dropTmm t p s) := changes_modTre _ _ s

theorem ctxOf_of_messaged_modCtx {t tid : Nat} {f : Ctx → Ctx} {v : State} (h : Messaged t (modCtx t tid f s) v) :
    ctxOf v t tid = f (ctxOf s t tid) := (h.ctxOf tid).trans (ctxOf_modCtx_same t tid f s)

/-- Table 4-2: a terminal enters Released. -/
theorem release_effect (t tid order : Nat) (s : State) : (ctxOf (release t tid order s) t tid).state = .released ∧
    Changes ending s (release t tid order s) := by
  unfold release
  extract_lets was s1 s2 s3 s4
  have h1 : Changes ending s s1 := ((changes_dropTmm _ _ s).mono (by decide)).trans ((changes_refuseWaits _ _ _).mono (by decide))
  have h2 : Changes ending s s2 := h1.trans ((changes_modChn _ _ s1).mono (by decide))
  have h3 : Changes ending s s3 := h2.trans ((changes_flushes _ s2).mono (by decide))
  clear_value s3
  have left_ (f : Ctx → Ctx) (hf : ∀ c, (f c).state = .released) :
      Changes ending s3 (modCtx t tid f s3) ∧ (ctxOf (modCtx t tid f s3) t tid).state = .released :=
    ⟨(changes_tre _ s3).mono (by decide), by rw [ctxOf_modCtx_same, hf]⟩
  obtain ⟨h34, state⟩ : Changes ending s3 s4 ∧ (ctxOf s4 t tid).state = .released := left_ _ fun _ => rfl
  have h4 := h3.trans h34
  clear_value s4
  split
  · exact ⟨state, h4⟩
  · have sent := messaged_sendTmm t 0x0B tid tid [BitVec.ofNat 8 order] (some 1) false s4
    exact ⟨(congrArg Ctx.state (sent.ctxOf tid)).trans state, h4.trans (sent.changes.mono (by decide))⟩

end

end Sys2Proof.Machine
end

section
/-!
SUPPORT. Repeats of tree-management messages, and what age ends in a tree port (R71, R85, R87, R110, R117, R153, R425).
-/

namespace Sys2Proof.Machine

-- one declaration at a time: the package is compiled as one text within a limit of memory
set_option Elab.async false

/-! ## Repeats -/

section
variable {s : State} {t : Nat} {m : Tmm}

theorem ctxOf_of_tre {u : State} (h : u.tre = s.tre) (t i : Nat) : ctxOf u t i = ctxOf s t i := by unfold ctxOf; rw [treOf_of_tre h]

theorem ctxOf_modCtx_other {t i tid : Nat} (h : i ≠ tid) (f : Ctx → Ctx) (s : State) : ctxOf (modCtx t tid f s) t i = ctxOf s t i := by
  rw [ctxOf, modCtx, treOf_modTre_same]
  exact tGet_tSet_other h _ _ _ _

/-- A message whose acknowledgement has not come in time (R85). -/
theorem ackTimeout_due (hout : (treOf s t).tmmOut = [m]) (hack : m.acked = true) (hcut : s.tim.cutDone = true)
    (hsent : m.sent + 4 ≤ s.tim.tick) (hf : (treOf s t).fenced = false) : ackTimeout t m.seq s =
      if m.reps < 3 then pushTmm t { m with reps := m.reps + 1, cmd := false } (setTre t { treOf s t with tmmOut := [] } s)
      else exhausted t m.tgt (giveUpOne t s m) := by
  have found : [m].find? (fun x => x.seq == m.seq && x.acked && s.tim.cutDone && x.sent + 4 ≤ s.tim.tick) = some m := by
    simp [List.find?, hack, hcut, hsent]
  unfold ackTimeout
  rw [if_neg (by simp [hf]), hout, found]
  simp only [List.erase_cons_head]

theorem giveUpOne_effect (h : (treOf s t).tmmOut = [m]) : (treOf (giveUpOne t s m) t).tmmOut = [] ∧
    (∀ i, ctxOf (giveUpOne t s m) t i = ctxOf s t i) ∧ (giveUpOne t s m).tim = s.tim ∧ Changes (.tre :: noted) s (giveUpOne t s m) := by
  unfold giveUpOne noticeC noticeT
  have hch := changes_modTre t (fun r => { r with tmmOut := r.tmmOut.erase m }) s
  have here := treOf_modTre_same t (fun r => { r with tmmOut := r.tmmOut.erase m }) s
  generalize modTre t (fun r => { r with tmmOut := r.tmmOut.erase m }) s = u at hch here
  refine ⟨?_, fun i => ?_, (notice_tim _ _ _).trans (hch .tim (by decide)), (hch.mono (by decide)).trans ((changes_notice _ _ u).mono (by decide))⟩
  · rw [treOf_of_tre (notice_tre _ _ _), here, h, List.erase_cons_head]
  · rw [ctxOf_of_tre (notice_tre _ _ _), ctxOf, here]
    rfl

/-- What a terminal that is lost keeps. -/
theorem lose_kept (tid cause : Nat) (s : State) : (treOf (lose t tid cause s) t).tmmOut = (treOf s t).tmmOut ∧
    (ctxOf (lose t tid cause s) t tid).lostTick = s.tim.tick ∧ ∀ i, i ≠ tid → ctxOf (lose t tid cause s) t i = ctxOf s t i := by
  have e : (lose t tid cause s).tre = (modCtx t tid (fun c => { c with state := .lost, lostTick := s.tim.tick, ranging := none }) s).tre :=
    notice_tre _ _ _
  refine ⟨?_, ?_, fun i hi => ?_⟩
  · rw [treOf_of_tre e, modCtx, treOf_modTre_same]
  · rw [ctxOf_of_tre e, ctxOf_modCtx_same]
  · rw [ctxOf_of_tre e, ctxOf_modCtx_other hi]

theorem exhausted_lost {tid : Nat} (h : tracked (ctxOf s t tid).state = true ∨ (ctxOf s t tid).state = .quiet) :
    exhausted t tid s = lose t tid 3 s := by
  unfold exhausted
  cases hst : (ctxOf s t tid).state
  case ranged | keyed | active | quiet => rfl
  all_goals simp [hst, tracked] at h

end

/-- Settles O21: an unanswered message is sent again or ends its terminal; a waiting one takes the place that was found. -/
theorem tmmRepeats : Obligations.TmmRepeats := by
  intro s tree m
  refine ⟨fun hf => ?_, fun hout hack hcut hsent hreps hf => ?_, fun hout hack hcut hsent hreps hf hst => ?_, fun l hpend hdue => ?_, fun hdue => ?_⟩
  · exact congrArg Host.Outcome.next (if_pos hf)
  · have e := (ackTimeout_due (s := begin_ s) hout hack hcut hsent hf).trans (if_pos hreps)
    refine ⟨_, congrArg Host.Outcome.next e, ?_⟩
    have here := treOf_setTre_same tree.toNat { treOf (begin_ s) tree.toNat with tmmOut := [] } (begin_ s)
    have other := fun u (hu : u ≠ tree.toNat) => treOf_setTre_other hu { treOf (begin_ s) tree.toNat with tmmOut := [] } (begin_ s)
    have hch := changes_setTre tree.toNat { treOf (begin_ s) tree.toNat with tmmOut := [] } (begin_ s)
    generalize setTre tree.toNat { treOf (begin_ s) tree.toNat with tmmOut := [] } (begin_ s) = u at here other hch
    obtain ⟨sent, mem, hout', hctx⟩ := pushTmm_effect tree.toNat { m with reps := m.reps + 1, cmd := false } u
    refine ⟨?_, mem, ?_, fun w hw => (sent.other w hw).trans (other w hw), Changes.of_begin ((hch.mono (by decide)).trans sent.changes)⟩
    · rw [hout', here]
    · rw [hctx, here]
      rfl
  · have e := (ackTimeout_due (s := begin_ s) hout hack hcut hsent hf).trans (if_neg (Nat.not_lt.mpr hreps))
    obtain ⟨gout, gctx, gtim, gch⟩ := giveUpOne_effect (s := begin_ s) hout
    have gst := gctx m.tgt
    generalize giveUpOne tree.toNat (begin_ s) m = u at e gout gctx gtim gch gst
    rw [exhausted_lost (by rw [gst]; exact hst)] at e
    obtain ⟨lost, -, -, hch⟩ := lose_effect tree.toNat m.tgt 3 u
    obtain ⟨kout, ktick, kctx⟩ := lose_kept (t := tree.toNat) m.tgt 3 u
    refine ⟨_, congrArg Host.Outcome.next e, kout.trans gout, lost, ktick.trans (by rw [gtim]; rfl), fun i hi => (kctx i hi).trans (gctx i),
      Changes.of_begin (gch.trans hch)⟩
  · have e : tmmPendQueued tree.toNat (begin_ s) = wake (domTP tree.toNat) 1 (setTre tree.toNat
        { treOf (begin_ s) tree.toNat with tmmq := (treOf s tree.toNat).tmmq ++ [m], tmmPend := l, tmmDue := (treOf s tree.toNat).tmmDue - 1 } (begin_ s)) := by
      unfold tmmPendQueued
      extract_lets r
      rw [show r.tmmPend = m :: l from hpend]
      exact if_pos hdue
    refine ⟨_, congrArg Host.Outcome.next e, ?_, ?_, Changes.of_begin (((changes_setTre _ _ (begin_ s)).mono (by decide)).trans
      ((changes_wake _ _ _).mono (by decide)))⟩
    · rw [treOf_of_tre (wake_tre _ _ _), treOf_setTre_same]
    · rw [treOf_of_tre (wake_tre _ _ _), treOf_setTre_same]
  · have e : tmmPendQueued tree.toNat (begin_ s) = begin_ s := by
      unfold tmmPendQueued
      dsimp only
      split
      · exact if_neg (by rw [show (treOf (begin_ s) tree.toNat).tmmDue = 0 from hdue]; decide)
      · rfl
    exact congrArg Host.Outcome.next e

/-! ## Ageing -/

section
variable {s u : State} {t : Nat}

theorem reasmOf_setReasm_same (t h : Nat) (r : Reasm) (s : State) : reasmOf (setReasm t h r s) t h = r := by
  rw [reasmOf, setReasm, treOf_modTre_same]
  exact tGet_tSet_same _ _ _ _

theorem reasmOf_setReasm_other {t h k : Nat} (hk : k ≠ h) (r : Reasm) (s : State) : reasmOf (setReasm t h r s) t k = reasmOf s t k := by
  rw [reasmOf, setReasm, treOf_modTre_same]
  exact tGet_tSet_other hk _ _ _ _

/-- R71: an open reassembly that has waited for 8 ticks ends. -/
theorem reasmTimeout_due {h : Nat} (ho : (reasmOf s t h).isOpen = true) (ht : (reasmOf s t h).tick + 8 ≤ s.tim.tick) :
    (reasmOf (reasmTimeout t h s) t h).isOpen = false ∧ (reasmOf (reasmTimeout t h s) t h).bytes = [] ∧
    (∀ k, k ≠ h → reasmOf (reasmTimeout t h s) t k = reasmOf s t k) ∧ Changes [.tre, .cnt] s (reasmTimeout t h s) := by
  have kept {v : State} (htre : v.tre = (setReasm t h { Reasm.empty with pieces := (reasmOf s t h).pieces } s).tre) :
      (reasmOf v t h).isOpen = false ∧ (reasmOf v t h).bytes = [] ∧ ∀ k, k ≠ h → reasmOf v t k = reasmOf s t k := by
    have same (k : Nat) : reasmOf v t k = reasmOf (setReasm t h { Reasm.empty with pieces := (reasmOf s t h).pieces } s) t k := by
      rw [reasmOf, treOf_of_tre htre, ← reasmOf]
    refine ⟨?_, ?_, fun k hk => (same k).trans (reasmOf_setReasm_other hk _ _)⟩
    · rw [same, reasmOf_setReasm_same]
      rfl
    · rw [same, reasmOf_setReasm_same]
      rfl
  have hch : Changes [.tre, .cnt] s (setReasm t h { Reasm.empty with pieces := (reasmOf s t h).pieces } s) := (changes_modTre _ _ s).mono (by decide)
  unfold reasmTimeout
  dsimp only
  rw [if_pos ⟨ho, ht⟩]
  split
  · obtain ⟨h1, h2, h3⟩ := kept rfl
    exact ⟨h1, h2, h3, hch⟩
  · obtain ⟨h1, h2, h3⟩ := kept (countO_tre (iTRE t) 16 (h % 4096) 1 _)
    exact ⟨h1, h2, h3, hch.trans ((changes_countO _ _ _ _ _).mono (by decide))⟩

/-- From `s` to `u` bindings of tree `t` have gone on: its contexts are the same. -/
structure Rebound (t : Nat) (s u : State) : Prop where
  changes : Changes [.tre, .chn, .pwr, .cnt] s u
  ctx : ∀ i, ctxOf u t i = ctxOf s t i

theorem Rebound.trans {v : State} (h : Rebound t s u) (k : Rebound t u v) : Rebound t s v :=
  ⟨h.changes.trans k.changes, fun i => (k.ctx i).trans (h.ctx i)⟩

theorem rebound_modChn (f : Chn → Chn) (s : State) : Rebound t s (modChn t f s) :=
  ⟨(changes_modChn t f s).mono (by decide), fun i => ctxOf_of_tre rfl t i⟩

theorem rebound_sendAlloc (tid n op : Nat) (s : State) : Rebound t s (sendAlloc t tid n op s) :=
  have sent := messaged_sendTmm t 0x0A tid tid (allocBody n op) (some 3) true s
  ⟨sent.changes.mono (by decide), sent.ctxOf⟩

theorem rebound_bindAgain (h : Nat) (s : State) : Rebound t s (bindAgain t h s) := by
  have bound (tid : Nat) (v : State) : Rebound t v (bindHandle t tid h v) := by
    unfold bindHandle
    dsimp only
    split
    · exact (rebound_modChn _ v).trans (rebound_sendAlloc _ _ _ _)
    · exact rebound_modChn _ v
  unfold bindAgain
  dsimp only
  split
  · exact (rebound_modChn _ s).trans (bound _ _)
  · exact rebound_modChn _ s

theorem rebound_bindFreed (tid : Nat) (s : State) : Rebound t s (bindFreed t tid s) := by
  unfold bindFreed
  generalize ((chnOf s t).unb.filter (fun e => e.2 == tid)).map (·.1) = l
  induction l generalizing s with
  | nil => exact ⟨changes_refl _ s, fun _ => rfl⟩
  | cons h l ih => exact (rebound_bindAgain h s).trans (ih _)

end

/-- Settles O22: each end comes in its step once its time has passed, and none in a fenced tree. -/
theorem treeAgeing : Obligations.TreeAgeing := by
  intro s tree
  refine ⟨fun hnd ho ht => ?_, fun hf serial tid => ⟨?_, ?_, ?_⟩, fun hf serial => ?_, fun tid hf hst ht hcut => ?_, fun tid hf hc hst hq h1 h2 => ?_⟩
  · obtain ⟨h1, h2, h3, h4⟩ := reasmTimeout_due (s := begin_ s) ho ht
    exact ⟨_, rfl, h1, h2, h3, h4.of_begin⟩
  · exact congrArg Host.Outcome.next (if_pos hf)
  · exact congrArg Host.Outcome.next (if_neg (by simp [show (treOf (begin_ s) tree.toNat).fenced = true from hf]))
  · exact congrArg Host.Outcome.next (if_neg fun k => by simp [show (treOf (begin_ s) tree.toNat).fenced = true from hf] at k)
  · have e : heardExpire tree.toNat serial (begin_ s) = modTre tree.toNat (fun r => { r with
        heard := r.heard.filter fun a => !(a.serial == serial && decide (a.tick + treF s tree.toNat 0x1C 22 8 ≤ s.tim.tick)) }) (begin_ s) :=
      if_neg (by simp [show (treOf (begin_ s) tree.toNat).fenced = false from hf])
    refine ⟨_, congrArg Host.Outcome.next e, fun a => ?_, ?_, (changes_modTre _ _ (begin_ s)).of_begin⟩
    · rw [treOf_modTre_same, List.mem_filter]
      simp only [Bool.not_eq_true', Bool.and_eq_false_iff, beq_eq_false_iff_ne, decide_eq_false_iff_not, not_and_or]
      exact Iff.rfl
    · rw [treOf_modTre_same]
      rfl
  · have e : lostExpire tree.toNat tid.toNat (begin_ s) = release tree.toNat tid.toNat 0 (noticeC tree.toNat tid.toNat 8 0 0 (begin_ s)) := by
      unfold lostExpire lostOver
      rw [if_pos (by simp [show (treOf (begin_ s) tree.toNat).fenced = false from hf]; exact hcut)]
      exact if_pos ⟨hst, ht⟩
    obtain ⟨state, hch⟩ := release_effect tree.toNat tid.toNat 0 (noticeC tree.toNat tid.toNat 8 0 0 (begin_ s))
    have told : Changes noted (begin_ s) (noticeC tree.toNat tid.toNat 8 0 0 (begin_ s)) := changes_notice _ _ _
    have all := ((told.mono (by decide)).trans hch).of_begin
    exact ⟨_, congrArg Host.Outcome.next e, state, all .regs (by decide), all .cpe (by decide), all .tst (by decide), all .pending (by decide)⟩
  · have e : idFree tree.toNat tid.toNat (begin_ s) = bindFreed tree.toNat tid.toNat (modCtx tree.toNat tid.toNat (fun _ => Ctx.unknown) (begin_ s)) :=
      if_pos ⟨hc, hst, hq, h1, h2, hf⟩
    have freed := rebound_bindFreed (t := tree.toNat) tid.toNat (modCtx tree.toNat tid.toNat (fun _ => Ctx.unknown) (begin_ s))
    have set : Changes [.tre] (begin_ s) (modCtx tree.toNat tid.toNat (fun _ => Ctx.unknown) (begin_ s)) := changes_modTre _ _ _
    exact ⟨_, congrArg Host.Outcome.next e, (freed.ctx _).trans (ctxOf_modCtx_same _ _ _ _),
      fun i hi => (freed.ctx i).trans (ctxOf_modCtx_other hi _ _), Changes.of_begin ((set.mono (by decide)).trans freed.changes)⟩

end Sys2Proof.Machine
end

section
/-!
SUPPORT. TRE_CFG.EN and the pre-listing of serials (R63, R104, R106, R117).
-/

namespace Sys2Proof.Machine

-- one declaration at a time: the package is compiled as one text within a limit of memory
set_option Elab.async false

section
variable {s : State} {t : Nat} {data : Word}

theorem treeWrite_ready {part : BitVec 6} (hr : Ready s) (ho : ownsTree s part.toNat t = true) (f : State → State) :
    treeWrite part 0xF t f s = f s := by
  unfold treeWrite
  rw [if_neg (by simp [hr]), if_pos ho]

theorem treeWrite_foreign {part : BitVec 6} (hr : Ready s) (ho : ownsTree s part.toNat t = false) (f : State → State) :
    treeWrite part 0xF t f s = partViol part.toNat s := by
  unfold treeWrite
  rw [if_neg (by simp [hr]), if_neg (by simp [ho])]

theorem bit_low (v : Word) : bit (v &&& 7) 0 = bit v 0 ∧ bit (v &&& 6) 0 = false := by
  rw [bit_and, bit_and, show bit (7 : Word) 0 = true by decide, show bit (6 : Word) 0 = false by decide, Bool.and_true, Bool.and_false]
  exact ⟨rfl, rfl⟩

/-- R63: EN lets a tree start whose reach is allowed. -/
theorem writeTreCfg_start (hb : bit data 0 = true) (ho : regB s (rTreCfg t) 0 = false) (hs : s.tim.started = true) (hr : reachOk s t = true) :
    regB (writeTreCfg t data s) (rTreCfg t) 0 = true ∧ (treOf (writeTreCfg t data s) t).startPend = true ∧
    (∀ u, u ≠ t → treOf (writeTreCfg t data s) u = treOf s u) ∧ Changes [.regs, .tre] s (writeTreCfg t data s) := by
  have set := changes_setReg (rTreCfg t) (data &&& 7) s
  have value : regB (setReg (rTreCfg t) (data &&& 7) s) (rTreCfg t) 0 = true := by rw [regB, reg_setReg_same, (bit_low data).1, hb]
  unfold writeTreCfg
  dsimp only
  rw [if_pos ((bit_low data).1.trans hb), if_neg (by simp [ho]), if_neg (by simp [hs]), if_neg (by simp [hr])]
  generalize setReg (rTreCfg t) (data &&& 7) s = s1 at set value
  refine ⟨value, by rw [treOf_modTre_same], fun u hu => ?_, (set.mono (by decide)).trans ((changes_modTre _ _ s1).mono (by decide))⟩
  rw [treOf_modTre_other hu, treOf_of_tre (set .tre (by decide))]

/-- R106: where the reach check fails, EN reads 0 and the fault is raised. -/
theorem writeTreCfg_reach (hb : bit data 0 = true) (ho : regB s (rTreCfg t) 0 = false) (hs : s.tim.started = true) (hr : reachOk s t = false) :
    regB (writeTreCfg t data s) (rTreCfg t) 0 = false ∧ bit (fltOf (writeTreCfg t data s) (iTRE t)).st 2 = true ∧
    (writeTreCfg t data s).tre = s.tre ∧ Changes (.regs :: faulted) s (writeTreCfg t data s) := by
  have set := changes_setReg (rTreCfg t) (data &&& 7 &&& 6) s
  have value : regB (setReg (rTreCfg t) (data &&& 7 &&& 6) s) (rTreCfg t) 0 = false := by rw [regB, reg_setReg_same, (bit_low _).2]
  unfold writeTreCfg
  dsimp only
  rw [if_pos ((bit_low data).1.trans hb), if_neg (by simp [ho]), if_neg (by simp [hs]), if_pos (by simp [hr])]
  generalize setReg (rTreCfg t) (data &&& 7 &&& 6) s = s1 at set value
  have told := changes_fault (iTRE t) 2 0 0 3 t 0 s1
  refine ⟨?_, fault_st (by decide), (fault_tre _ _ _ _ _ _ _ s1).trans (set .tre (by decide)), (set.mono (by decide)).trans (told.mono (by decide))⟩
  rw [regB, reg, fault_regs, ← reg]
  exact value

/-- The continuation apart, a selection that is discarded leaves its tree alone. -/
theorem discardSel_effect (t : Nat) (s : State) : (treOf (discardSel t s) t).ctx = (treOf s t).ctx ∧ Changes [.tre, .qbm] s (discardSel t s) := by
  unfold discardSel
  split
  · exact ⟨rfl, changes_refl _ s⟩
  · next x _ =>
    extract_lets old
    have dropped : Changes [.tre, .qbm] s { s with qbm := { s.qbm with sel := tDel t s.qbm.sel } } := (changes_qbm _ s).mono (by decide)
    refine ⟨?_, dropped.trans ((changes_modTre _ _ _).mono (by decide))⟩
    rw [treOf_modTre_same]
    rfl

/-- What a tree that stops can change. -/
abbrev stopping : List Comp := [.glb, .flt, .qbm, .tre, .upl, .hrd, .pwr, .cnt, .fresh]

/-- R63, R87: a tree stops, and its contexts stay. -/
theorem stopTree_effect (t : Nat) (s : State) : (treOf (stopTree t s) t).run = false ∧ (treOf (stopTree t s) t).tmmq = [] ∧
    (treOf (stopTree t s) t).ctx = (treOf s t).ctx ∧ Changes stopping s (stopTree t s) := by
  unfold stopTree
  extract_lets r s1 held tail s2
  obtain ⟨hctx, hdisc⟩ := discardSel_effect t s
  have refused : Changes recording (discardSel t s) s1 := changes_refuseWaits t (fun _ => true) (discardSel t s)
  have released : Changes releasing s1 s2 := .foldl (fun v n => (freed_release1 n v).changes) _ s1
  clear_value s2
  have ctx : (treOf s2 t).ctx = (treOf s t).ctx := by
    rw [treOf_of_tre (released .tre (by decide)), treOf_of_tre (refused .tre (by decide)), hctx]
  have all : Changes stopping s s2 := ((hdisc.mono (by decide)).trans (refused.mono (by decide))).trans (released.mono (by decide))
  exact ⟨by rw [treOf_modTre_same], by rw [treOf_modTre_same], by rw [treOf_modTre_same]; exact ctx, all.trans ((changes_modTre _ _ s2).mono (by decide))⟩

/-- R63: EN written 0 stops a tree that is enabled. -/
theorem writeTreCfg_stop (hb : bit data 0 = false) (ho : regB s (rTreCfg t) 0 = true) :
    regB (writeTreCfg t data s) (rTreCfg t) 0 = false ∧ (treOf (writeTreCfg t data s) t).run = false ∧
    (treOf (writeTreCfg t data s) t).tmmq = [] ∧ (treOf (writeTreCfg t data s) t).ctx = (treOf s t).ctx ∧
    Changes (.regs :: stopping) s (writeTreCfg t data s) := by
  have set := changes_setReg (rTreCfg t) (reg s (rTreCfg t) &&& 6) s
  have value : regB (setReg (rTreCfg t) (reg s (rTreCfg t) &&& 6) s) (rTreCfg t) 0 = false := by rw [regB, reg_setReg_same, (bit_low _).2]
  have hold : bit (reg s (rTreCfg t)) 0 = true := ho
  unfold writeTreCfg
  dsimp only
  rw [if_neg (by rw [(bit_low data).1, hb]; decide), ho, if_pos rfl, if_pos rfl]
  generalize setReg (rTreCfg t) (reg s (rTreCfg t) &&& 6) s = s1 at set value
  have ctx1 : (treOf (modTre t (fun r => { r with refit := !(bit (fltOf s (iTRE t)).st 7) }) s1) t).ctx = (treOf s t).ctx := by
    rw [treOf_modTre_same, treOf_of_tre (set .tre (by decide))]
  have marked := changes_modTre t (fun r => { r with refit := !(bit (fltOf s (iTRE t)).st 7) }) s1
  generalize modTre t (fun r => { r with refit := !(bit (fltOf s (iTRE t)).st 7) }) s1 = s2 at ctx1 marked
  obtain ⟨run, tmmq, ctx, hch⟩ := stopTree_effect t s2
  have hregs : (stopTree t s2).regs = s1.regs :=
    Eq.trans (hch .regs (by decide)) (marked .regs (by decide))
  refine ⟨?_, run, tmmq, ctx.trans ctx1, (set.mono (by decide)).trans ((marked.mono (by decide)).trans (hch.mono (by decide)))⟩
  rw [regB, reg, hregs, ← reg]
  exact value

/-- R117: the serial of TRE_TPL is pre-listed on a context, or taken off it. -/
theorem prelist_unknown {on : Bool} (h0 : treF s t 0x80 0 10 ≠ 0) (hu : (ctxOf s t (treF s t 0x80 0 10)).state = .unknown) :
    (treOf (prelist t on s) t).pre = (if on then tPut (treF s t 0x80 0 10) (BitVec.ofNat 64 (regPair s (rTre t 0x84))) (treOf s t).pre
      else tDel (treF s t 0x80 0 10) (treOf s t).pre) ∧ Changes [.tre] s (prelist t on s) := by
  have e : prelist t on s = modTre t (fun r => { r with
      pre := if on then tPut (treF s t 0x80 0 10) (BitVec.ofNat 64 (regPair s (rTre t 0x84))) r.pre else tDel (treF s t 0x80 0 10) r.pre }) s :=
    if_neg (by simp [h0, hu])
  rw [e, treOf_modTre_same]
  exact ⟨rfl, changes_modTre _ _ s⟩

theorem regPair_lt (a : Nat) (s : State) : regPair s a < 2 ^ 64 := by
  unfold regPair
  have h1 := (reg s a).isLt
  have h2 := (reg s (a + 4)).isLt
  omega

end

/-- Settles O24: a write of the tree's owner starts or stops the tree; the pre-list takes and gives back its entry. -/
theorem treeEnable : Obligations.TreeEnable := by
  refine ⟨fun s part tree data hr => ⟨fun ho => ?_, fun ho hs => ⟨fun hb hen hok => ?_, fun hb hen hok => ?_, fun hb hen => ?_⟩⟩,
    fun s part tree hr ho h0 hu => ⟨?_, ?_⟩⟩
  · exact ⟨_, congrArg Host.Outcome.next (treeWrite_foreign (s := begin_ s) hr ho _), (changes_partViol _ _).of_begin⟩
  · have e := treeWrite_ready (s := begin_ s) hr ho (writeTreCfg tree.toNat data)
    obtain ⟨h1, h2, h3, h4⟩ := writeTreCfg_start (s := begin_ s) hb hen hs hok
    exact ⟨_, congrArg Host.Outcome.next e, h1, h2, h3, h4.of_begin⟩
  · have e := treeWrite_ready (s := begin_ s) hr ho (writeTreCfg tree.toNat data)
    obtain ⟨h1, h2, h3, h4⟩ := writeTreCfg_reach (s := begin_ s) hb hen hs hok
    exact ⟨_, congrArg Host.Outcome.next e, h1, h2, h3, h4.of_begin⟩
  · have e := treeWrite_ready (s := begin_ s) hr ho (writeTreCfg tree.toNat data)
    obtain ⟨h1, h2, h3, h4, h5⟩ := writeTreCfg_stop (s := begin_ s) hb hen
    have all := h5.of_begin
    exact ⟨_, congrArg Host.Outcome.next e, h1, h2, h3, h4, all .cpe (by decide), congrArg Tim.tick (all .tim (by decide)), all .pending (by decide)⟩
  · have e := treeWrite_ready (s := begin_ s) hr ho (prelist tree.toNat true)
    obtain ⟨hpre, hch⟩ := prelist_unknown (s := begin_ s) (on := true) h0 hu
    refine ⟨_, congrArg Host.Outcome.next e, ?_, fun i hi => ?_, hch.of_begin⟩
    · rw [hpre]
      show (tFind (treF s tree.toNat 0x80 0 10) (tPut (treF s tree.toNat 0x80 0 10) (BitVec.ofNat 64 (regPair s (rTre tree.toNat 0x84))) _)).map (·.toNat) = _
      rw [tFind_tPut_same, Option.map_some, BitVec.toNat_ofNat, Nat.mod_eq_of_lt (regPair_lt _ s)]
      rfl
    · rw [hpre]
      exact tFind_tPut_other hi _ _
  · have e := treeWrite_ready (s := begin_ s) hr ho (prelist tree.toNat false)
    obtain ⟨hpre, hch⟩ := prelist_unknown (s := begin_ s) (on := false) h0 hu
    refine ⟨_, congrArg Host.Outcome.next e, ?_, fun i hi => ?_, hch.of_begin⟩
    · rw [hpre]
      exact tFind_tDel_same _ _
    · rw [hpre]
      exact tFind_tDel_other hi _

end Sys2Proof.Machine
end

section
/-!
SUPPORT. Key writes on the key port (R275, R276, R278, Table 13-4).
-/

namespace Sys2Proof.Machine

-- one declaration at a time: the package is compiled as one text within a limit of memory
set_option Elab.async false

section
variable {s : State} {k : KeyWr} {l : List KeyWr} {n p : Nat}

theorem slotOf_of_cpe {t : State} (h : t.cpe = s.cpe) (n : Nat) : slotOf t n = slotOf s n :=
  congrArg (fun c : Cpe => tGet Slot.empty c.slot n) h

theorem slotOf_setSlot_same (v : Slot) : slotOf (setSlot n v s) n = v := tGet_tSet_same _ _ _ _

theorem slotOf_setSlot_other (v : Slot) {m : Nat} (h : m ≠ n) : slotOf (setSlot n v s) m = slotOf s m := by
  exact tGet_tSet_other h Slot.empty Slot.empty s.cpe.slot v

/-- A command that waits for a key ACK completes, or nothing happens. -/
theorem changes_keyComplete (p n : Nat) (s : State) : Changes recording s (keyComplete p n s) := by
  unfold keyComplete
  split
  · split
    · exact changes_completesCmd _ _ _ _ s
    · exact changes_refl _ s
  all_goals exact changes_refl _ s

/-- The state that puts the oldest key write in force. -/
def keyTaken (k : KeyWr) (l : List KeyWr) (s : State) : State :=
  setSlot k.slot (keyInForce k (slotOf s k.slot))
    { s with cpe := { s.cpe with keyq := l, keyStall := false, keyAt := tPut k.slot (s.tim.now + 1) s.cpe.keyAt } }

theorem changes_keyTaken : Changes [.cpe] s (keyTaken k l s) := changes_cpe _ s

theorem keyWriteAck_cons (h : s.cpe.keyq = k :: l) : Changes recording (keyTaken k l s) (keyWriteAck s) := by
  unfold keyWriteAck
  rw [h]
  dsimp only
  split
  · exact changes_keyComplete _ _ _
  · exact changes_refl _ _

theorem keyInForce_spec (k : KeyWr) (v : Slot) : (keyInForce k v).gen = k.gen ∧ (keyInForce k v).state = b2n k.load ∧
    (k.load = true → (keyInForce k v).cnt = 0 ∧ (keyInForce k v).klen = k.klen) := by
  unfold keyInForce
  split
  · next h => exact ⟨rfl, by rw [h]; rfl, fun _ => ⟨rfl, rfl⟩⟩
  · next h =>
    have hl : k.load = false := by simpa using h
    split
    · exact ⟨rfl, by rw [hl]; rfl, fun e => absurd e h⟩
    · exact ⟨rfl, by rw [hl]; rfl, fun e => absurd e h⟩

/-- An acknowledged key write is in force, whatever command waited for it. -/
theorem keyWriteAck_effect (h : s.cpe.keyq = k :: l) : (slotOf (keyWriteAck s) k.slot).gen = k.gen ∧
    (slotOf (keyWriteAck s) k.slot).state = b2n k.load ∧
    (k.load = true → (slotOf (keyWriteAck s) k.slot).cnt = 0 ∧ (slotOf (keyWriteAck s) k.slot).klen = k.klen) ∧
    (keyWriteAck s).cpe.keyq = l ∧ (keyWriteAck s).cpe.keyStall = false ∧
    (∀ n, n ≠ k.slot → slotOf (keyWriteAck s) n = slotOf s n) ∧ (keyWriteAck s).cpe.chan = s.cpe.chan ∧
    Changes (.cpe :: recording) s (keyWriteAck s) := by
  have done := keyWriteAck_cons h
  have all := (changes_keyTaken (k := k) (l := l) (s := s)).mono (l' := .cpe :: recording) (by decide)
  have same : (keyWriteAck s).cpe = (keyTaken k l s).cpe := done .cpe (by decide)
  have slot : slotOf (keyWriteAck s) k.slot = keyInForce k (slotOf s k.slot) := by
    rw [slotOf_of_cpe same, keyTaken, slotOf_setSlot_same]
  obtain ⟨hgen, hstate, hload⟩ := keyInForce_spec k (slotOf s k.slot)
  rw [slot, same]
  refine ⟨hgen, hstate, hload, rfl, rfl, fun n hn => ?_, rfl, all.trans (done.mono (by decide))⟩
  rw [slotOf_of_cpe same, keyTaken, slotOf_setSlot_other _ hn]
  rfl

/-- A key write that is not acknowledged in time stalls the key port. -/
theorem keyLate_effect (h : s.cpe.keyq = k :: l) (hn : s.cpe.keyStall = false) (hd : k.at_ + cpeTmo s ≤ s.tim.now) :
    (keyLate s).cpe.keyStall = true ∧ bit (fltOf (keyLate s) 7).st 2 = true ∧ (keyLate s).cpe.keyq = s.cpe.keyq ∧
    (keyLate s).cpe.slot = s.cpe.slot ∧ Changes (.cpe :: faulted) s (keyLate s) := by
  have form : keyLate s = fault 7 2 (w32 k.slot) 6 10 0 0 { s with cpe := { s.cpe with keyStall := true } } := by
    unfold keyLate
    rw [h]
    dsimp only
    rw [waitUntil_due hd, keyTmo]
    split
    · next h' => rw [h] at h'; cases h'
    · next k' l' h' =>
      obtain ⟨rfl, rfl⟩ := List.cons.inj (h.symm.trans h')
      exact if_neg (fun hc => hc.elim (fun e => by rw [hn] at e; cases e) (by omega))
  have same := fault_cpe 7 2 (w32 k.slot) 6 10 0 0 { s with cpe := { s.cpe with keyStall := true } }
  have told := changes_fault 7 2 (w32 k.slot) 6 10 0 0 { s with cpe := { s.cpe with keyStall := true } }
  rw [← form] at same told
  refine ⟨(congrArg Cpe.keyStall same).trans rfl, ?_, (congrArg Cpe.keyq same).trans rfl, (congrArg Cpe.slot same).trans rfl,
    ((changes_cpe _ s).mono (by decide)).trans (told.mono (by decide))⟩
  rw [form]
  exact fault_st (by decide)

/-- A ready slot's key write goes out and its command waits for the ACK. -/
theorem keyCommand_ready {c : CmdRun} {load klen : Bool} {key : List Byte} (hc : tFind p s.hrd.cmd = some c) (hr : keyReady s n = true) :
    (keyCommand p n load klen key s).cpe.keyq = s.cpe.keyq ++ [⟨n, load, klen, nextGen s n, some p, s.tim.now⟩] ∧
    tFind p (keyCommand p n load klen key s).hrd.cmd = some { c with wait := some (.keyAck n), got := [], recs := [] } ∧
    (keyCommand p n load klen key s).cpe.slot = s.cpe.slot ∧ Changes [.cpe, .hrd] s (keyCommand p n load klen key s) := by
  have wrote : Changes [.cpe] s (keyWrite n load klen key (some p) s) := (changes_cpe _ s).emit
  unfold keyCommand
  rw [if_pos hr]
  unfold setWait
  rw [show (keyWrite n load klen key (some p) s).hrd = s.hrd from rfl, hc]
  exact ⟨rfl, tFind_tPut_same _ _ _, rfl, (wrote.mono (by decide)).trans ((changes_hrd _ _ _).mono (by decide))⟩

theorem keyGoesOn_hold {c : CmdRun} {load klen : Bool} {key : List Byte} (hc : tFind p s.hrd.cmd = some c)
    (hw : c.wait = some (.keyHold n load klen key))
    (hd : tGet 0 s.cpe.keyAt n = 0 ∨ tGet 0 s.cpe.keyAt n - 1 + 4096 ≤ s.tim.now) :
    keyGoesOn p s = if keyReady s n then keyCommand p n load klen key s else s := by
  have wait : (tFind p s.hrd.cmd).bind (·.wait) = some (.keyHold n load klen key) := by rw [hc]; exact hw
  have go : (if tGet 0 s.cpe.keyAt n = 0 then s else waitUntil (tGet 0 s.cpe.keyAt n - 1 + 4096) s) = s := by
    split
    · rfl
    · next h0 => exact waitUntil_due (hd.resolve_left h0)
  unfold keyGoesOn
  rw [wait]
  dsimp only
  rw [go, keyResume, wait]

theorem due_of_keyReady (h : keyReady s n = true) : tGet 0 s.cpe.keyAt n = 0 ∨ tGet 0 s.cpe.keyAt n - 1 + 4096 ≤ s.tim.now := by
  unfold keyReady at h
  simpa using (Bool.and_eq_true_iff.mp h).2

end

/-- Settles O30: a key write in force, a late one, and a command that had to wait. -/
theorem keyWrites : Obligations.KeyWrites := by
  unfold Obligations.KeyWrites
  intro s
  refine ⟨fun h => ⟨congrArg Host.Outcome.next ?_, congrArg Host.Outcome.next ?_⟩, fun k l h => ⟨?_, fun hn hd => ?_⟩,
    fun part c n load klen key hc hw => ⟨fun hst hd => congrArg Host.Outcome.next ?_, fun hr => ?_⟩⟩
  · unfold keyWriteAck
    rw [begin__cpe, h]
    rfl
  · unfold keyLate
    rw [begin__cpe, h]
    rfl
  · obtain ⟨hgen, hstate, hload, hq, hstall, hother, hchan, hch⟩ := keyWriteAck_effect (s := begin_ s) (k := k) (l := l) h
    have all := hch.of_begin
    exact ⟨_, rfl, hgen, hstate, hload, hq, hstall, hother, hchan, all .regs (by decide), all .tre (by decide), all .chn (by decide),
      all .pending (by decide)⟩
  · obtain ⟨hstall, hbit, hq, hslot, hch⟩ := keyLate_effect (s := begin_ s) (k := k) (l := l) h hn hd
    exact ⟨_, rfl, hstall, hbit, hq, hslot, hch.of_begin⟩
  · rw [keyGoesOn_hold (s := begin_ s) hc hw hd, if_neg (by simp [keyReady, hst])]
    rfl
  · have form := keyGoesOn_hold (s := begin_ s) hc hw (due_of_keyReady hr)
    rw [if_pos (show keyReady (begin_ s) n = true from hr)] at form
    obtain ⟨hq, hcmd, hslot, hch⟩ := keyCommand_ready (s := begin_ s) (load := load) (klen := klen) (key := key) hc hr
    exact ⟨_, congrArg Host.Outcome.next form, hq, hcmd, hslot, hch.of_begin⟩

end Sys2Proof.Machine
end

section
/-!
SUPPORT. Responses and lost requests of the cipher edge (R279, R285, R286, R289, R292): what the refusal of a request leaves alone.
-/

namespace Sys2Proof.Machine

-- one declaration at a time: the package is compiled as one text within a limit of memory
set_option Elab.async false

/-- What the outcome of a decryption may touch. -/
abbrev resolving : List Comp := [.skm, .tre, .tst, .hrd, .cnt, .fresh]

/-- The components named apart nothing changes, and no tree changes its pace, no Ventriloquist its tree. -/
structure Resolved (l : List Comp) (s t : State) : Prop where
  kept : Changes l s t
  pace : ∀ u, (treOf t u).run = (treOf s u).run ∧ (treOf t u).rate = (treOf s u).rate
  loop : t.tst.loop = s.tst.loop

section
variable {s t u : State} {l : List Comp}

theorem Resolved.refl (l : List Comp) (s : State) : Resolved l s s := ⟨changes_refl l s, fun _ => ⟨rfl, rfl⟩, rfl⟩

theorem Resolved.trans (h : Resolved l s t) (k : Resolved l t u) : Resolved l s u :=
  ⟨h.kept.trans k.kept, fun v => ⟨(k.pace v).1.trans (h.pace v).1, (k.pace v).2.trans (h.pace v).2⟩, k.loop.trans h.loop⟩

theorem Resolved.mono {l' : List Comp} (hl : l ⊆ l') (h : Resolved l s t) : Resolved l' s t := ⟨h.kept.mono hl, h.pace, h.loop⟩

theorem Resolved.of_changes (h : Changes l s t) (h1 : Comp.tre ∉ l := by decide) (h2 : Comp.tst ∉ l := by decide) : Resolved l s t :=
  have tre : t.tre = s.tre := h .tre h1
  have tst : t.tst = s.tst := h .tst h2
  ⟨h, fun v => by rw [treOf_of_tre tre]; exact ⟨rfl, rfl⟩, congrArg Tst.loop tst⟩

theorem Resolved.ite {c : Prop} [Decidable c] (h : c → Resolved l s t) (h' : ¬c → Resolved l s u) : Resolved l s (if c then t else u) := by
  split
  · exact h ‹_›
  · exact h' ‹_›

theorem Resolved.foldl {α : Type} {f : State → α → State} (hf : ∀ s x, Resolved l s (f s x)) (xs : List α) (s : State) :
    Resolved l s (xs.foldl f s) := by
  induction xs generalizing s with
  | nil => exact .refl l s
  | cons x xs ih => exact (hf s x).trans (ih _)

theorem resolved_modTre (n : Nat) (f : Tre → Tre) (hf : ∀ r, (f r).run = r.run ∧ (f r).rate = r.rate) (s : State) :
    Resolved [.tre] s (modTre n f s) := by
  refine ⟨changes_modTre n f s, fun v => ?_, rfl⟩
  by_cases h : v = n
  · rw [h, treOf_modTre_same]
    exact hf _
  · rw [treOf_modTre_other h]
    exact ⟨rfl, rfl⟩

theorem changes_tstVq (v : Tab Vq) (s : State) : Resolved [.tst] s { s with tst := { s.tst with vq := v } } :=
  ⟨changes_tst _ s, fun _ => ⟨rfl, rfl⟩, rfl⟩

theorem resolved_modVq (n : Nat) (f : Vq → Vq) (s : State) : Resolved [.tst] s (modVq n f s) := changes_tstVq _ s

theorem Resolved.vqOf (h : Resolved l s t) (n : Nat) : vqOf t n = vqOf s n := by
  unfold Machine.vqOf
  rw [h.loop]

theorem Resolved.beatOfBlk (h : Resolved l s t) (hl : Comp.regs ∉ l) (n tick blk : Nat) : beatOfBlk t n tick blk = beatOfBlk s n tick blk := by
  have regs : t.regs = s.regs := h.kept .regs hl
  have rate : rateOf t n = rateOf s n := by
    show (if (treOf t n).run then (treOf t n).rate else regF t (rTreCfg n) 1 2 % 3) = _
    rw [(h.pace n).1, (h.pace n).2]
    unfold regF reg
    rw [regs]
    rfl
  unfold Machine.beatOfBlk blksPerTick
  rw [rate]

end

theorem resolved_noteWrote (t : Nat) (pos : Nat × Nat) (s : State) : Resolved [.skm] s (noteWrote t pos s) :=
  .ite (fun _ => .refl _ s) fun _ => .of_changes (changes_skm _ s)

theorem resolved_setReasm (t h : Nat) (r : Reasm) (s : State) : Resolved [.tre] s (setReasm t h r s) :=
  resolved_modTre t (fun x => { x with reasm := tSet Reasm.empty x.reasm h r }) (fun _ => ⟨rfl, rfl⟩) s

theorem changes_atCycle (c : Nat) (x : Turn) (s : State) : Changes [.hrd] s (atCycle c x s) := changes_hrd _ s.out s

theorem changes_objAdd (arr obj evt amt : Nat) (s : State) : Changes [.cnt] s (objAdd arr obj evt amt s) := changes_cnt _ s

theorem changes_treeFrame (t h : Nat) (r : Reasm) (ue : Option Word) (s : State) : Changes [.hrd, .cnt] s (treeFrame t h r ue s) := by
  unfold treeFrame
  extract_lets looped a
  refine .ite (fun _ => changes_refl _ s) fun _ => .ite (fun _ => (changes_count1 _ _ s).mono (by decide)) fun _ =>
    .ite (fun _ => (changes_count1 _ _ s).mono (by decide)) fun _ => ?_
  have counted := (changes_objAdd 0 (t * 1024 + r.tid) 1 r.total s).trans (changes_objAdd 0 (t * 1024 + r.tid) 0 1 _)
  generalize objAdd 0 (t * 1024 + r.tid) 0 1 (objAdd 0 (t * 1024 + r.tid) 1 r.total s) = u at counted
  exact (counted.mono (by decide)).trans (((changes_atCycle _ _ u).trans (changes_atCycle _ _ _)).mono (by decide))

theorem resolved_treeFrame (t h : Nat) (r : Reasm) (ue : Option Word) (s : State) : Resolved resolving s (treeFrame t h r ue s) :=
  (Resolved.of_changes (changes_treeFrame t h r ue s)).mono (by decide)

theorem resolved_takePiece (t h : Nat) (p : Piece) (ue : Option Word) (s : State) : Resolved resolving s (takePiece t h p ue s) := by
  unfold takePiece
  extract_lets s1 r s2 r0 r1
  have wrote : Resolved resolving s s1 :=
    .ite (fun _ => (resolved_noteWrote t p.pos s).mono (by decide)) fun _ => .refl _ s
  have told (i e o : Nat) (u : State) : Resolved resolving u (countO i e o 1 u) :=
    (Resolved.of_changes (changes_countO i e o 1 u)).mono (by decide)
  have put (x : Reasm) (u : State) : Resolved resolving u (setReasm t h x u) := (resolved_setReasm t h x u).mono (by decide)
  have cut : Resolved resolving s1 s2 := .ite (fun _ => told _ _ _ s1) fun _ => .refl _ s1
  clear_value s1 s2 r0 r1
  refine wrote.trans (.ite (fun _ => put _ s1) fun _ => .ite (fun _ => told _ _ _ s1) fun _ => cut.trans (.ite (fun _ => ?_) fun _ => put _ s2))
  exact (put _ s2).trans (resolved_treeFrame _ _ _ _ _)

theorem resolved_drainPieces (t h : Nat) (ue : Option Word) (fuel : Nat) (s : State) : Resolved resolving s (drainPieces t h ue fuel s) := by
  induction fuel generalizing s with
  | zero => exact .refl _ s
  | succ fuel ih =>
    unfold drainPieces
    dsimp only
    split
    · exact .refl _ s
    · split
      · exact .refl _ s
      · exact (((resolved_setReasm _ _ _ s).mono (by decide)).trans (resolved_takePiece _ _ _ _ _)).trans (ih _)

theorem resolved_resolveOn (t c : Nat) (seq : Byte) (ok : Bool) (bytes : List Byte) (ue : Option Word) (s : State) (h : Nat) :
    Resolved resolving s (resolveOn t c seq ok bytes ue s h) := by
  unfold resolveOn
  dsimp only
  refine Resolved.trans (t := setReasm t h _ s) ?_ (resolved_drainPieces _ _ _ _ _)
  exact (resolved_setReasm t h _ s).mono (by decide)

theorem resolved_resolvePiece (t c : Nat) (seq : Byte) (ok : Bool) (bytes : List Byte) (ue : Option Word) (s : State) :
    Resolved resolving s (resolvePiece t c seq ok bytes ue s) :=
  .foldl (fun s h => resolved_resolveOn t c seq ok bytes ue s h) _ s

theorem resolved_modStaged (t tick blk : Nat) (f : DsTu → DsTu) (s : State) : Resolved resolving s (modStaged t tick blk f s) := by
  unfold modStaged
  extract_lets b here
  split
  · exact (resolved_modVq _ _ s).mono (by decide)
  · exact Resolved.mono (l := [.tre]) (by decide) (resolved_modTre t _ (fun _ => by exact ⟨rfl, rfl⟩) s)

/-- A refused request goes out as idle blocks, or its TU is dropped. -/
theorem resolved_refuseReq (c : Nat) (r : CpqReq) (s : State) : Resolved resolving s (refuseReq c r s) :=
  .ite (fun _ => resolved_modStaged _ _ _ _ s) fun _ => resolved_resolvePiece _ _ _ _ _ _ s

/-- What the loss of a request may touch. -/
abbrev refusing : List Comp := .skm :: .tre :: .tst :: .fresh :: faulted

theorem cpqLose_effect (c : Nat) (r : CpqReq) (s : State) : Resolved refusing s (cpqLose c r s) ∧ bit (fltOf (cpqLose c r s) 7).st 0 = true := by
  unfold cpqLose
  have counted := (changes_countO 7 6 c 1 s).mono (l' := refusing) (by decide)
  have told := (changes_fault 7 0 (w32 (c + r.seq.toNat * 256)) 6 10 c 0 (countO 7 6 c 1 s)).mono (l' := faulted) (by decide)
  have lost : Resolved refusing s (fault 7 0 (w32 (c + r.seq.toNat * 256)) 6 10 c 0 (countO 7 6 c 1 s)) :=
    ((Resolved.of_changes (changes_countO 7 6 c 1 s)).mono (by decide)).trans ((Resolved.of_changes told).mono (by decide))
  have raised : bit (fltOf (fault 7 0 (w32 (c + r.seq.toNat * 256)) 6 10 c 0 (countO 7 6 c 1 s)) 7).st 0 = true := fault_st (by decide)
  generalize fault 7 0 (w32 (c + r.seq.toNat * 256)) 6 10 c 0 (countO 7 6 c 1 s) = u at lost raised
  have gone := resolved_refuseReq c r u
  have flt : (refuseReq c r u).flt = u.flt := gone.kept .flt (by decide)
  refine ⟨lost.trans (gone.mono (by decide)), ?_⟩
  rw [fltOf, flt]
  exact raised

theorem cpqLoses_effect (c : Nat) (xs : List CpqReq) (s : State) : Resolved refusing s (xs.foldl (fun s x => cpqLose c x s) s) ∧
    (xs ≠ [] → bit (fltOf (xs.foldl (fun s x => cpqLose c x s) s) 7).st 0 = true) := by
  refine ⟨.foldl (fun s x => (cpqLose_effect c x s).1) xs s, fun h => ?_⟩
  obtain ⟨init, x, rfl⟩ : ∃ init x, xs = init ++ [x] := ⟨_, _, (List.dropLast_append_getLast h).symm⟩
  rw [List.foldl_append]
  exact (cpqLose_effect c x _).2

section
variable {s : State} {c : Nat} {r : CpqReq} {st : CpqSt} {data : List Byte} {ue : Option Word}

/-- The staged TUs of a beat, after a change of those of one block of that beat. -/
theorem tGet_stage (b blk : Nat) (f : DsTu → DsTu) (stage : Tab (List DsTu)) :
    tGet [] (stage.map fun x => if x.1 = b then (x.1, x.2.map fun u => if u.blk = blk then f u else u) else x) b =
      (tGet [] stage b).map fun u => if u.blk = blk then f u else u := by
  induction stage with
  | nil => rfl
  | cons x xs ih =>
    rw [List.map_cons]
    by_cases h : x.1 = b
    · rw [if_pos h]
      simp [tGet, tFind, h]
    · rw [if_neg h]
      simpa [tGet, tFind, h] using ih

/-- The TU that a request names, once it is staged anew. -/
theorem modStaged_stage {t tick blk : Nat} (f : DsTu → DsTu) (hv : vqOf s t = none) {u : DsTu}
    (hu : u ∈ tGet [] (treOf (modStaged t tick blk f s) t).stage (beatOfBlk s t tick blk)) (hb : u.blk = blk)
    (hf : ∀ v, (f v).blk = v.blk) : ∃ v, u = f v := by
  unfold modStaged at hu
  rw [hv] at hu
  dsimp only at hu
  rw [treOf_modTre_same, tGet_stage] at hu
  obtain ⟨v, -, rfl⟩ := List.mem_map.mp hu
  split at hb
  · next h => exact ⟨v, if_pos h⟩
  · next h => exact absurd hb h

/-- What a response does to its request, once no older one is outstanding. -/
structure CpqAnswered (r : CpqReq) (st : CpqSt) (data : List Byte) (s t : State) : Prop where
  kept : Changes (.cpe :: refusing) s t
  flt : st ≠ .engineErr → t.flt = s.flt
  told : st = .engineErr → bit (fltOf t 7).st 0 = true
  chan : t.cpe.chan = s.cpe.chan
  slot : t.cpe.slot = s.cpe.slot
  keyq : t.cpe.keyq = s.cpe.keyq
  done : st = .ok → tFind (2 * r.tree + b2n (!r.enc)) t.cpe.done = some (r.tick, r.ord)
  tags : st = .tagFail → tGet 0 t.cpe.tagFail (r.tree * 1024 + r.tid) = (tGet 0 s.cpe.tagFail (r.tree * 1024 + r.tid) + 1) % 2 ^ 32
  stage : st = .ok → r.enc = true → vqOf s r.tree = none →
    ∀ u ∈ tGet [] (treOf t r.tree).stage (beatOfBlk s r.tree r.tick r.ord), u.blk = r.ord →
      u.ready = true ∧ u.body = data.take r.body.length ∧ u.tag = data.drop r.body.length

/-- The fields of the cipher edge that a response leaves, or sets, before its TU goes on. -/
theorem CpqAnswered.of_cpe {s1 t : State} {x : Cpe} (given : s1 = { s with cpe := x }) (gone : Resolved resolving s1 t)
    (chan : x.chan = s.cpe.chan) (slot : x.slot = s.cpe.slot) (keyq : x.keyq = s.cpe.keyq) (hst : st ≠ .engineErr)
    (done : st = .ok → tFind (2 * r.tree + b2n (!r.enc)) x.done = some (r.tick, r.ord))
    (tags : st = .tagFail → tGet 0 x.tagFail (r.tree * 1024 + r.tid) = (tGet 0 s.cpe.tagFail (r.tree * 1024 + r.tid) + 1) % 2 ^ 32)
    (stage : st = .ok → r.enc = true → vqOf s1 r.tree = none →
      ∀ u ∈ tGet [] (treOf t r.tree).stage (beatOfBlk s1 r.tree r.tick r.ord), u.blk = r.ord →
        u.ready = true ∧ u.body = data.take r.body.length ∧ u.tag = data.drop r.body.length) : CpqAnswered r st data s t := by
  have cpe : t.cpe = x := Eq.trans (gone.kept .cpe (by decide)) (congrArg State.cpe given)
  subst given
  exact
    { kept := ((changes_cpe x s).mono (by decide)).trans (gone.kept.mono (by decide))
      flt := fun _ => gone.kept .flt (by decide)
      told := fun h => absurd h hst
      chan := (congrArg Cpe.chan cpe).trans chan
      slot := (congrArg Cpe.slot cpe).trans slot
      keyq := (congrArg Cpe.keyq cpe).trans keyq
      done := fun h => by rw [cpe]; exact done h
      tags := fun h => by rw [cpe]; exact tags h
      stage := stage }

theorem cpqAnswer_ok (c : Nat) (r : CpqReq) (data : List Byte) (ue : Option Word) (s : State) :
    CpqAnswered r .ok data s (cpqAnswer c r .ok data ue s) := by
  unfold cpqAnswer
  dsimp only
  have done := tFind_tPut_same (2 * r.tree + b2n (!r.enc)) (r.tick, r.ord) s.cpe.done
  split
  · refine .of_cpe rfl (resolved_modStaged _ _ _ _ _) rfl rfl rfl nofun (fun _ => done) nofun fun _ _ hv u hu hb => ?_
    obtain ⟨v, rfl⟩ := modStaged_stage _ hv hu hb fun _ => rfl
    exact ⟨rfl, rfl, rfl⟩
  · next he => exact .of_cpe rfl (resolved_resolvePiece _ _ _ _ _ _ _) rfl rfl rfl nofun (fun _ => done) nofun fun _ h => absurd h he

theorem cpqAnswer_tagFail (c : Nat) (r : CpqReq) (data : List Byte) (ue : Option Word) (s : State) :
    CpqAnswered r .tagFail data s (cpqAnswer c r .tagFail data ue s) := by
  unfold cpqAnswer tagFail
  dsimp only
  refine .of_cpe (x := { s.cpe with tagFail := tMod 0 s.cpe.tagFail (r.tree * 1024 + r.tid) (fun v => (v + 1) % 2 ^ 32) }) rfl (Resolved.trans ?_ (resolved_refuseReq _ _ _)) rfl rfl rfl
    nofun nofun (fun _ => tGet_tSet_same _ _ _ _) nofun
  have ticked := resolved_modTre r.tree (fun x => { x with tagTick := x.tagTick + 1 }) (fun _ => ⟨rfl, rfl⟩)
    { s with cpe := { s.cpe with tagFail := tMod 0 s.cpe.tagFail (r.tree * 1024 + r.tid) (fun v => (v + 1) % 2 ^ 32) } }
  exact (ticked.mono (by decide)).trans
    (((Resolved.of_changes (changes_count1 _ _ _)).mono (by decide)).trans ((Resolved.of_changes (changes_countO _ _ _ _ _)).mono (by decide)))

theorem cpqAnswer_keyChanged (c : Nat) (r : CpqReq) (data : List Byte) (ue : Option Word) (s : State) :
    CpqAnswered r .keyChanged data s (cpqAnswer c r .keyChanged data ue s) :=
  .of_cpe (x := s.cpe) rfl (((Resolved.of_changes (changes_count1 7 5 s)).mono (by decide)).trans (resolved_refuseReq c r _)) rfl rfl rfl
    nofun nofun nofun nofun

theorem cpqAnswer_engineErr (c : Nat) (r : CpqReq) (data : List Byte) (ue : Option Word) (s : State) :
    CpqAnswered r .engineErr data s (cpqAnswer c r .engineErr data ue s) := by
  obtain ⟨lost, told⟩ := cpqLose_effect c r s
  have cpe : (cpqLose c r s).cpe = s.cpe := lost.kept .cpe (by decide)
  exact
    { kept := lost.kept.mono (by decide)
      flt := fun h => absurd rfl h
      told := fun _ => told
      chan := congrArg Cpe.chan cpe
      slot := congrArg Cpe.slot cpe
      keyq := congrArg Cpe.keyq cpe
      done := nofun
      tags := nofun
      stage := nofun }

theorem cpqAnswer_answered (c : Nat) (r : CpqReq) (st : CpqSt) (data : List Byte) (ue : Option Word) (s : State) :
    CpqAnswered r st data s (cpqAnswer c r st data ue s) := by
  cases st with
  | ok => exact cpqAnswer_ok c r data ue s
  | tagFail => exact cpqAnswer_tagFail c r data ue s
  | keyChanged => exact cpqAnswer_keyChanged c r data ue s
  | engineErr => exact cpqAnswer_engineErr c r data ue s

end

section
variable {s : State} {c : Nat} {older l : List CpqReq} {r : CpqReq} {st : CpqSt} {seq : Byte} {data : List Byte} {ue : Option Word}

theorem cpqChan_of_cpe {t : State} (h : t.cpe.chan = s.cpe.chan) (d : Nat) : cpqChan t d = cpqChan s d := by
  unfold cpqChan
  rw [h]

theorem cpqChan_setChan_same (v : Chan) : cpqChan (setChan c v s) c = v := tGet_tSet_same _ _ _ _

theorem cpqChan_setChan_other (v : Chan) {d : Nat} (h : d ≠ c) : cpqChan (setChan c v s) d = cpqChan s d :=
  tGet_tSet_other h Chan.empty Chan.empty s.cpe.chan v

/-- The oldest outstanding request of a SEQ. -/
theorem find_outstanding (ho : (cpqChan s c).out = older ++ r :: l) (hq : r.seq = seq) (hn : ∀ x ∈ older, x.seq ≠ seq) :
    (cpqChan s c).out.find? (fun x => x.seq == seq) = some r ∧ (cpqChan s c).out.takeWhile (fun x => x.seq != seq) = older ∧
    ((cpqChan s c).out.dropWhile (fun x => x.seq != seq)).drop 1 = l := by
  have other : ∀ x ∈ older, (x.seq != seq) = true := fun x hx => by simpa using hn x hx
  have one : (r.seq != seq) = false := by simp [hq]
  rw [ho]
  refine ⟨?_, ?_, ?_⟩
  · rw [List.find?_append, List.find?_eq_none.mpr (fun x hx => by simpa using hn x hx)]
    simp [hq]
  · rw [List.takeWhile_append_of_pos other, List.takeWhile_cons_of_neg (by simp [hq]), List.append_nil]
  · rw [List.dropWhile_append_of_pos other, List.dropWhile_cons_of_neg (by simp [hq])]
    rfl

/-- A response with a SEQ that names nothing outstanding is discarded. -/
theorem cpqResponse_unknown (h : ∀ x ∈ (cpqChan s c).out, x.seq ≠ seq) : cpqResponse c seq st data ue s = s := by
  unfold cpqResponse
  dsimp only
  rw [List.find?_eq_none.mpr (fun x hx => by simpa using h x hx)]

theorem cipherResponse_ready (h : (cpqChan s c).line = []) : cipherResponse c seq st data ue s = cpqResponse c seq st data ue s := by
  unfold cipherResponse
  dsimp only
  rw [h]
  rfl

/-- The channel, once a response has ended its request and lost every older one. -/
def cpqEnded (c : Nat) (l : List CpqReq) (s : State) : State := setChan c { cpqChan s c with out := l } s

theorem cpqResponse_known (ho : (cpqChan s c).out = older ++ r :: l) (hq : r.seq = seq) (hn : ∀ x ∈ older, x.seq ≠ seq) :
    cpqResponse c seq st data ue s = cpqAnswer c r st data ue (older.foldl (fun s x => cpqLose c x s) (cpqEnded c l s)) := by
  obtain ⟨hfind, htake, hdrop⟩ := find_outstanding ho hq hn
  unfold cpqResponse
  dsimp only
  rw [hfind]
  dsimp only
  rw [htake, hdrop]
  rfl

/-- R279, R285, R286: a response ends its request and loses every older one. -/
theorem cpqResponse_effect (ho : (cpqChan s c).out = older ++ r :: l) (hq : r.seq = seq) (hn : ∀ x ∈ older, x.seq ≠ seq) :
    ∃ t, cpqResponse c seq st data ue s = t ∧ cpqChan t c = { cpqChan s c with out := l } ∧ (∀ d, d ≠ c → cpqChan t d = cpqChan s d) ∧
      (older ≠ [] ∨ st = .engineErr → bit (fltOf t 7).st 0 = true) ∧
      (st = .ok → tFind (2 * r.tree + b2n (!r.enc)) t.cpe.done = some (r.tick, r.ord)) ∧
      (st = .tagFail → tGet 0 t.cpe.tagFail (r.tree * 1024 + r.tid) = (tGet 0 s.cpe.tagFail (r.tree * 1024 + r.tid) + 1) % 2 ^ 32) ∧
      (st = .ok → r.enc = true → vqOf s r.tree = none →
        ∀ u ∈ tGet [] (treOf t r.tree).stage (beatOfBlk s r.tree r.tick r.ord), u.blk = r.ord →
          u.ready = true ∧ u.body = data.take r.body.length ∧ u.tag = data.drop r.body.length) ∧
      t.cpe.slot = s.cpe.slot ∧ t.cpe.keyq = s.cpe.keyq ∧ Changes (.cpe :: refusing) s t := by
  have ended : Resolved [.cpe] s (cpqEnded c l s) := .of_changes (changes_cpe _ s)
  obtain ⟨lost, told⟩ := cpqLoses_effect c older (cpqEnded c l s)
  have before := (ended.mono (l' := .cpe :: refusing) (by decide)).trans (lost.mono (by decide))
  have cpe : (older.foldl (fun s x => cpqLose c x s) (cpqEnded c l s)).cpe = (cpqEnded c l s).cpe := lost.kept .cpe (by decide)
  refine ⟨_, cpqResponse_known ho hq hn, ?_⟩
  generalize older.foldl (fun s x => cpqLose c x s) (cpqEnded c l s) = s1 at *
  have answer := cpqAnswer_answered c r st data ue s1
  generalize cpqAnswer c r st data ue s1 = t at answer
  have chan : t.cpe.chan = (cpqEnded c l s).cpe.chan := answer.chan.trans (congrArg Cpe.chan cpe)
  have tags : s1.cpe.tagFail = s.cpe.tagFail := (congrArg Cpe.tagFail cpe).trans rfl
  refine ⟨?_, fun d hd => ?_, fun h => ?_, answer.done, fun h => ?_, fun h he hv => ?_, answer.slot.trans ((congrArg Cpe.slot cpe).trans rfl),
    answer.keyq.trans ((congrArg Cpe.keyq cpe).trans rfl), before.kept.trans answer.kept⟩
  · rw [cpqChan_of_cpe chan, cpqEnded, cpqChan_setChan_same]
  · rw [cpqChan_of_cpe chan, cpqEnded, cpqChan_setChan_other _ hd]
  · by_cases hst : st = .engineErr
    · exact answer.told hst
    · rw [fltOf, answer.flt hst]
      exact told (h.resolve_right hst)
  · rw [answer.tags h, tags]
  · have := answer.stage h he ((before.vqOf r.tree).trans hv)
    rw [before.beatOfBlk (by decide)] at this
    exact this

/-- R279, R292: a request without a response in time is lost alone. -/
theorem cipherLost_effect (ho : (cpqChan s c).out = older ++ r :: l) (hn : ∀ x ∈ older, x.seq ≠ r.seq) (hd : r.eop + cpeTmo s ≤ s.tim.now) :
    ∃ t, cipherLost c r.seq s = t ∧ (cpqChan t c).out = older ++ l ∧ bit (fltOf t 7).st 0 = true ∧
      (∀ d, d ≠ c → cpqChan t d = cpqChan s d) ∧ t.cpe.slot = s.cpe.slot ∧ Changes (.cpe :: refusing) s t := by
  obtain ⟨hfind, -, -⟩ := find_outstanding ho rfl hn
  have out : (cpqChan s c).out.erase r = older ++ l := by
    rw [ho, List.erase_append_right _ (fun h => hn r h rfl), List.erase_cons_head]
  have form : cipherLost c r.seq s = cpqLose c r (cpqEnded c (older ++ l) s) := by
    unfold cipherLost
    rw [hfind]
    dsimp only
    rw [waitUntil_due hd]
    unfold cpqTimeout
    dsimp only
    rw [hfind]
    dsimp only
    rw [if_neg (by omega), out]
    rfl
  obtain ⟨lost, told⟩ := cpqLose_effect c r (cpqEnded c (older ++ l) s)
  have cpe : (cpqLose c r (cpqEnded c (older ++ l) s)).cpe = (cpqEnded c (older ++ l) s).cpe := lost.kept .cpe (by decide)
  have chan := congrArg Cpe.chan cpe
  refine ⟨_, form, ?_, told, fun d hd => ?_, (congrArg Cpe.slot cpe).trans rfl, ((changes_cpe _ s).mono (by decide)).trans (lost.kept.mono (by decide))⟩
  · rw [cpqChan_of_cpe chan, cpqEnded, cpqChan_setChan_same]
  · rw [cpqChan_of_cpe chan, cpqEnded, cpqChan_setChan_other _ hd]

end

/-- Settles O29: a response ends its request, loses every older one, and what has no response in time is lost. -/
theorem cipherResponses : Obligations.CipherResponses := by
  unfold Obligations.CipherResponses
  refine ⟨fun s chan seq st data ue hl => ⟨fun h => congrArg Host.Outcome.next ?_, fun older r l ho hq hn => ?_⟩,
    fun s chan older r l ho hn hd => ?_⟩
  · rw [cipherResponse_ready (s := begin_ s) hl, cpqResponse_unknown (s := begin_ s) h]
    rfl
  · obtain ⟨t, form, hchan, hother, htold, hdone, htags, hstage, hslot, hkeyq, hch⟩ :=
      cpqResponse_effect (s := begin_ s) (st := st) (data := data) (ue := ue) ho hq hn
    have all := hch.of_begin
    exact ⟨t, congrArg Host.Outcome.next ((cipherResponse_ready (s := begin_ s) hl).trans form), (congrArg Chan.out hchan).trans rfl,
      (congrArg Chan.next hchan).trans rfl, hother, htold, hdone, htags, hstage, hslot, hkeyq, all .regs (by decide), all .tim (by decide),
      all .chn (by decide), all .pending (by decide)⟩
  · obtain ⟨t, form, hout, htold, hother, hslot, hch⟩ := cipherLost_effect (s := begin_ s) ho hn hd
    have all := hch.of_begin
    exact ⟨t, congrArg Host.Outcome.next form, hout, htold, hother, hslot, all .regs (by decide), all .tim (by decide), all .chn (by decide),
      all .pending (by decide)⟩

end Sys2Proof.Machine
end

section
/-!
SUPPORT. Beat budgets, scrub findings and retirements of bank groups (R262, R265 to R268).
-/

namespace Sys2Proof.Machine

-- one declaration at a time: the package is compiled as one text within a limit of memory
set_option Elab.async false

section
variable {s : State} {g c : Nat} {data : Word}

theorem grpOf_setGrp_same (v : Group) : grpOf (setGrp g v s) g = v := tGet_tSet_same _ _ _ _

theorem grpOf_setGrp_other (v : Group) {k : Nat} (h : k ≠ g) : grpOf (setGrp g v s) k = grpOf s k :=
  tGet_tSet_other h Group.empty Group.empty s.qbm.grp v

theorem grpOf_of_qbm {t : State} (h : t.qbm = s.qbm) (k : Nat) : grpOf t k = grpOf s k := congrArg (fun q : Qbm => tGet Group.empty q.grp k) h

theorem changes_setGrp (g : Nat) (v : Group) (s : State) : Changes [.qbm] s (setGrp g v s) := changes_qbm _ s

theorem changes_qbm_glb (q : Qbm) (b : Glb) (s : State) : Changes [.qbm, .glb] s { s with qbm := q, glb := b } := fun c hc => by
  cases c <;> simp [Kept] at hc ⊢

/-! ## Beat budgets (R262) -/

theorem budget_reg : ∀ t < 64, regSpec (pageDPT + 0x100 + 4 * t) = some ⟨0xab, 0x3FFF, .tick⟩ ∧ deepTree (pageDPT + 0x100 + 4 * t) = some t ∧
    isMinc (pageDPT + 0x100 + 4 * t) = false := by decide +kernel

theorem fld_merge_budget (old : Word) : fld (mergeW old 0x3FFF data) 0 14 = fld data 0 14 := by
  have low : ∀ (i : Nat) (hi : i < 14), (16383#14)[i] = true := by decide
  have same : (mergeW old 0x3FFF data).setWidth 14 = data.setWidth 14 := by
    refine BitVec.eq_of_getLsbD_eq fun i hi => ?_
    simp [mergeW, hi, low i hi]
  simpa [fld] using congrArg BitVec.toNat same

theorem putBudget_accepted {t : Nat} (ht : t < 64) (hs : s.tim.started = false) (h : rdBeatSum s t (fld data 0 14) ≤ 11000) :
    putReg (pageDPT + 0x100 + 4 * t) data s =
      setReg (pageDPT + 0x100 + 4 * t) (mergeW (reg s (pageDPT + 0x100 + 4 * t)) 0x3FFF data) s := by
  obtain ⟨hspec, htree, hminc⟩ := budget_reg t ht
  have taken : regAllowed s (pageDPT + 0x100 + 4 * t) (mergeW (regAfter s (pageDPT + 0x100 + 4 * t)) 0x3FFF data) = true := by
    unfold regAllowed
    rw [if_neg (by simp [hminc]), if_neg (by omega), htree]
    dsimp only
    rw [fld_merge_budget]
    exact decide_eq_true h
  rw [putReg_now hspec taken (effNow_tick_stopped hs)]
  unfold commitReg
  dsimp only
  unfold regHook
  obtain ⟨hPRT, hPWR, hTIM, hHRD, hCLS, hCHN, hTRE, hUPL, hQBM, hDPT, hCNT⟩ := page_bases
  have hx : ¬isXoff (pageDPT + 0x100 + 4 * t) = true := fun h => by have := isXoff_iff.mp h; omega
  rw [if_neg (by omega), if_neg (by unfold rTim; omega), if_neg (by omega), if_neg hx, if_neg (by omega), if_neg (by omega), if_neg (by omega),
    if_neg (by omega)]

theorem putBudget_refused {t : Nat} (ht : t < 64) (h : 11000 < rdBeatSum s t (fld data 0 14)) :
    putReg (pageDPT + 0x100 + 4 * t) data s = { s with qbm := { s.qbm with dRefused := true } } := by
  obtain ⟨hspec, htree, hminc⟩ := budget_reg t ht
  have refused : regAllowed s (pageDPT + 0x100 + 4 * t) (mergeW (regAfter s (pageDPT + 0x100 + 4 * t)) 0x3FFF data) = false := by
    unfold regAllowed
    rw [if_neg (by simp [hminc]), if_neg (by omega), htree]
    dsimp only
    rw [fld_merge_budget]
    exact decide_eq_false (by omega)
  unfold putReg
  rw [hspec]
  dsimp only
  rw [refused]
  exact (if_pos rfl).trans (if_pos (by rw [htree]; rfl))

/-! ## The scrubber (R265) -/

/-- What an error limit leaves of the groups: the errors counted and the cells out of use, and every other group. -/
structure GroupKept (g : Nat) (s t : State) : Prop where
  ue : (grpOf t g).ue = (grpOf s g).ue
  quar : (grpOf t g).quar = (grpOf s g).quar
  bad : (grpOf t g).bad = (grpOf s g).bad
  other : ∀ k, k ≠ g → grpOf t k = grpOf s k
  kept : Changes (.qbm :: faulted) s t

theorem GroupKept.trans {t u : State} (h : GroupKept g s t) (k : GroupKept g t u) : GroupKept g s u :=
  ⟨k.ue.trans h.ue, k.quar.trans h.quar, k.bad.trans h.bad, fun n hn => (k.other n hn).trans (h.other n hn), h.kept.trans k.kept⟩

theorem GroupKept.of_grp {t : State} (h : t.qbm.grp = s.qbm.grp) (hk : Changes (.qbm :: faulted) s t) : GroupKept g s t :=
  have same (k : Nat) : grpOf t k = grpOf s k := by rw [grpOf, h, ← grpOf]
  ⟨by rw [same], by rw [same], by rw [same], fun k _ => same k, hk⟩

theorem groupKept_fault (i b : Nat) (cap0 : Word) (acc mkind mnum part : Nat) (s : State) : GroupKept g s (fault i b cap0 acc mkind mnum part s) :=
  .of_grp (congrArg Qbm.grp (fault_qbm i b cap0 acc mkind mnum part s)) ((changes_fault i b cap0 acc mkind mnum part s).mono (by decide))

theorem groupKept_qbm {q : Qbm} (h : q.grp = s.qbm.grp) : GroupKept g s { s with qbm := q } := .of_grp h ((changes_qbm q s).mono (by decide))

theorem groupKept_fenceGroup (g : Nat) (s : State) : GroupKept g s (fenceGroup g s) := by
  have set : Changes [.qbm] s (setGrp g { grpOf s g with fenced := true, freed := [], next := 16384 } s) := changes_setGrp _ _ s
  have same := grpOf_setGrp_same (s := s) (g := g) { grpOf s g with fenced := true, freed := [], next := 16384 }
  unfold fenceGroup
  dsimp only
  generalize hu : setGrp g { grpOf s g with fenced := true, freed := [], next := 16384 } s = u at set same ⊢
  refine ⟨(congrArg Group.ue same).trans rfl, (congrArg Group.quar same).trans rfl, (congrArg Group.bad same).trans rfl, fun k hk => ?_,
    (set.mono (by decide)).trans ((changes_glb _ u).mono (by decide))⟩
  subst hu
  exact grpOf_setGrp_other _ hk

/-- R266: a group that reaches a limit keeps its count and the cells out of use. -/
theorem groupKept_autoRetire (g : Nat) (s : State) : GroupKept g s (autoRetire g s) := by
  unfold autoRetire
  extract_lets v ueTh qTh
  split
  · exact .of_grp rfl (changes_refl _ s)
  · split
    · exact groupKept_qbm rfl
    · split
      · exact (groupKept_fenceGroup g s).trans (groupKept_fault _ _ _ _ _ _ _ _)
      · refine GroupKept.trans ?_ (groupKept_fault _ _ _ _ _ _ _ _)
        exact groupKept_qbm rfl

theorem markCell_effect (hc : c / 16384 = g) (hf : (grpOf s g).fenced = false) :
    (c ∈ (grpOf (markCell c s) g).quar ∨ c ∈ (grpOf (markCell c s) g).bad) ∧ (grpOf (markCell c s) g).ue = (grpOf s g).ue ∧
    (∀ k, k ≠ g → grpOf (markCell c s) k = grpOf s k) ∧ Changes [.qbm] s (markCell c s) ∧ (markCell c s).qbm.bgmap = s.qbm.bgmap := by
  subst hc
  unfold markCell
  extract_lets g v
  have put (x : Group) (hx : c ∈ x.quar ∨ c ∈ x.bad) (hu : x.ue = (grpOf s g).ue) :
      (c ∈ (grpOf (setGrp g x s) g).quar ∨ c ∈ (grpOf (setGrp g x s) g).bad) ∧ (grpOf (setGrp g x s) g).ue = (grpOf s g).ue ∧
      (∀ k, k ≠ g → grpOf (setGrp g x s) k = grpOf s k) ∧ Changes [.qbm] s (setGrp g x s) ∧ (setGrp g x s).qbm.bgmap = s.qbm.bgmap := by
    rw [grpOf_setGrp_same]
    exact ⟨hx, hu, fun k hk => grpOf_setGrp_other x hk, changes_setGrp g x s, rfl⟩
  split
  · next h => exact ⟨by simpa using h, rfl, fun _ _ => rfl, changes_refl _ s, rfl⟩
  · rw [if_neg (show ¬v.fenced = true by simp [v, g, hf])]
    split
    · exact put _ (.inl (by simp)) rfl
    · split
      · exact put _ (.inl (by simp)) rfl
      · exact put _ (.inr (by simp)) rfl

/-- R265: the scrubber's uncorrectable error counts and takes its cell out of use. -/
theorem scrubHits_uncorrectable {h : ScrubHit} (hk : h.kind = .uncorrectable) (hg : logicalOf s h.group.val = some g)
    (hd : domOn s (domBG h.group.val) = true) (hf : (grpOf s g).fenced = false) (hc : h.cell.toNat = scrubRow s / 2) :
    (grpOf (scrubHits [h] s) g).ue = (grpOf s g).ue + 1 ∧
    (g * 16384 + h.cell.toNat ∈ (grpOf (scrubHits [h] s) g).quar ∨ g * 16384 + h.cell.toNat ∈ (grpOf (scrubHits [h] s) g).bad) ∧
    (∀ k, k ≠ g → grpOf (scrubHits [h] s) k = grpOf s k) ∧ Changes (.qbm :: faulted) s (scrubHits [h] s) := by
  have cell : (g * 16384 + h.cell.toNat) / 16384 = g := by have := h.cell.isLt; omega
  obtain ⟨hmark, hue, hother, hch, hmap⟩ := markCell_effect cell hf
  have hit : scrubHit h s = groupUe g (markCell (g * 16384 + h.cell.toNat) s) := by
    unfold scrubHit
    rw [hg]
    dsimp only
    rw [if_neg (by simp [hd, hc]), hk]
  unfold scrubHits
  extract_lets s1
  have first : s1 = groupUe g (markCell (g * 16384 + h.cell.toNat) s) := hit
  generalize markCell (g * 16384 + h.cell.toNat) s = m at *
  have found : logicalOf s1 h.group.val = some g := by
    rw [first, ← hg]
    unfold logicalOf physOf
    rw [show (groupUe g m).qbm.bgmap = s.qbm.bgmap from hmap]
  have rest : GroupKept g s1 ((List.range 16).foldl
      (fun s g => if [h].any (fun h => h.kind == .uncorrectable && logicalOf s1 h.group.val == some g) then autoRetire g s else s) s1) := by
    generalize List.range 16 = l
    have : ∀ u, GroupKept g s1 u → GroupKept g s1 (l.foldl
      (fun s g => if [h].any (fun h => h.kind == .uncorrectable && logicalOf s1 h.group.val == some g) then autoRetire g s else s) u) := by
      induction l with
      | nil => exact fun u hu => hu
      | cons i l ih =>
        refine fun u hu => ih _ ?_
        dsimp only
        split
        · next hi =>
          obtain rfl : g = i := by simpa [found, hk] using hi
          exact hu.trans (groupKept_autoRetire g u)
        · exact hu
    exact this s1 (.of_grp rfl (changes_refl _ s1))
  have same : grpOf s1 g = { grpOf m g with ue := (grpOf m g).ue + 1 } := by rw [first]; exact grpOf_setGrp_same _
  have others (k : Nat) (hk : k ≠ g) : grpOf s1 k = grpOf m k := by rw [first]; exact grpOf_setGrp_other _ hk
  have counted : Changes [.qbm] m s1 := by rw [first]; exact changes_setGrp _ _ m
  refine ⟨?_, ?_, fun k hk => ?_, ((hch.trans counted).mono (by decide)).trans rest.kept⟩
  · rw [rest.ue, same, ← hue]
  · rw [rest.quar, rest.bad, same]
    exact hmark
  · rw [rest.other k hk, others k hk, hother k hk]

theorem changes_clockPasses {n : Nat} {u : State} (h : ClockPasses n s u) : Changes [.flt, .cnt, .tim] s u := by
  obtain ⟨flt, cnt, time, slew, segs, iw, sw, rfl⟩ := h
  exact fun c hc => by cases c <;> simp [Kept] at hc ⊢

theorem now_clockPasses {n : Nat} {u : State} (h : ClockPasses n s u) : u.tim.now = s.tim.now + n := by
  obtain ⟨flt, cnt, time, slew, segs, iw, sw, rfl⟩ := h
  rfl

/-- Where nothing falls due, a command reaches a cycle of its beat. -/
theorem waitUntil_reaches {n : Nat} (h : Still s) (hr : s.cnt.round = none) (hn : s.tim.now < n)
    (hb : s.tim.started = true → n - s.tim.now < toNextBeat s) (hs : s.tim.started = false → startCyc s = none) :
    ClockPasses (n - s.tim.now) s (waitUntil n s) := by
  rw [waitUntil_eq_lapse hn hb hs]
  exact clockPasses_lapse h hr _

/-! ## Retirement (R267, R268) -/

theorem physOf_spare {m : Tab Nat} (h : s.qbm.bgmap = tSet g m g 16) : physOf s g = 16 := by
  rw [physOf, h]
  exact tGet_tSet_same _ _ _ _

theorem retirementDone_effect (h : s.qbm.retire = some g) (hp : physOf s g < 17) (hd : s.qbm.rAt + 131073 ≤ s.tim.now) :
    ∃ t, retirementDone s = t ∧ physOf t g = 16 ∧ t.qbm.retire = none ∧ t.qbm.spareUsed = true ∧ t.glb.defBg.getLsbD (physOf s g) = true ∧
      (∀ k, k ≠ g → physOf t k = physOf s k) ∧ t.out = s.out ∧ Changes [.qbm, .glb] s t := by
  have form : retirementDone s = retirementEnd s := by
    unfold retirementDone
    rw [waitUntil_due hd]
    exact if_neg (by omega)
  refine ⟨_, form, ?_⟩
  unfold retirementEnd
  rw [h]
  dsimp only
  have set := changes_setGrp g { grpOf s g with leaving := false } s
  have map : (setGrp g { grpOf s g with leaving := false } s).qbm.bgmap = s.qbm.bgmap := rfl
  have out : (setGrp g { grpOf s g with leaving := false } s).out = s.out := rfl
  generalize setGrp g { grpOf s g with leaving := false } s = u at *
  refine ⟨tGet_tSet_same _ _ _ _, rfl, rfl, ?_, fun k hk => ?_, out,
    (set.mono (by decide)).trans (changes_qbm_glb _ _ u)⟩
  · have pow : 2 ^ physOf s g < 2 ^ 17 := Nat.pow_lt_pow_right (by decide) hp
    rw [BitVec.getLsbD_or, BitVec.getLsbD_ofNat, Nat.testBit_two_pow_self, decide_eq_true hp]
    simp
  · show tGet k (tSet g u.qbm.bgmap g 16) k = tGet k s.qbm.bgmap k
    rw [tGet_tSet_other hk, map]

theorem writeRetire_effect (hb : bit data 4 = true) (hn : s.qbm.retire = none) :
    (s.qbm.spareUsed = false → (writeRetire data s).qbm.retire = some (fld data 0 4) ∧ (writeRetire data s).qbm.rBusy = false) ∧
    (s.qbm.spareUsed = true → (writeRetire data s).qbm.retire = none ∧ (writeRetire data s).qbm.rNoSpare = true) ∧
    Changes [.regs, .qbm] s (writeRetire data s) := by
  have set := changes_setReg (pageQBM + 0x20) (data &&& 0xF) s
  have qbm : (setReg (pageQBM + 0x20) (data &&& 0xF) s).qbm = s.qbm := setReg_qbm _ _ s
  unfold writeRetire
  dsimp only
  rw [if_pos hb]
  generalize setReg (pageQBM + 0x20) (data &&& 0xF) s = u at *
  unfold retireGo
  rw [qbm, hn]
  rw [if_neg (by simp)]
  refine ⟨fun h => ?_, fun h => ?_, (set.mono (by decide)).trans ?_⟩
  · rw [if_neg (by simp [h])]
    exact ⟨rfl, rfl⟩
  · rw [if_pos h]
    exact ⟨hn, rfl⟩
  · split
    · exact (changes_qbm _ u).mono (by decide)
    · exact (changes_qbm _ u).mono (by decide)

end

/-- Settles O32: beat budgets, the scrubber's uncorrectable error, GO and the end of a retirement. -/
theorem bufferMaintenance : Obligations.BufferMaintenance := by
  unfold Obligations.BufferMaintenance
  intro s
  refine ⟨fun tree part data hr hp hs => ⟨fun h => ?_, fun h => ?_⟩, fun g h hk hg hd hf still hn hc hs hb => ?_,
    fun part data hr hp hb hn => ⟨fun h => ?_, fun h => ?_⟩, fun g h hp hd => ?_⟩
  · subst hp
    have form := putBudget_accepted (s := begin_ s) (t := tree.toNat) tree.isLt hs h
    refine ⟨_, congrArg Host.Outcome.next ((p0Write_ready (s := begin_ s) hr rfl).trans form), ?_, fun a ha => ?_,
      (changes_setReg _ _ (begin_ s)).of_begin⟩
    · rw [regF, reg_setReg_same]
      exact fld_merge_budget _
    · rw [reg_setReg_other ha]
      rfl
  · subst hp
    have form := putBudget_refused (s := begin_ s) (t := tree.toNat) tree.isLt h
    exact ⟨_, congrArg Host.Outcome.next ((p0Write_ready (s := begin_ s) hr rfl).trans form), rfl, (changes_qbm _ (begin_ s)).of_begin⟩
  · have passes := waitUntil_reaches (s := begin_ s) (n := (s.tim.now / 64 + 1) * 64) still hn (by show s.tim.now < _; omega) hb hs
    have now : (waitUntil ((s.tim.now / 64 + 1) * 64) (begin_ s)).tim.now = (s.tim.now / 64 + 1) * 64 := by
      rw [now_clockPasses passes]
      show s.tim.now + ((s.tim.now / 64 + 1) * 64 - s.tim.now) = _
      omega
    have passed := (changes_clockPasses passes).of_begin
    have form : scrubRead [h] (begin_ s) = scrubHits [h] (waitUntil ((s.tim.now / 64 + 1) * 64) (begin_ s)) := by
      unfold scrubRead
      dsimp only
      exact if_neg (by rw [show (begin_ s).tim.now = s.tim.now from rfl, now]; omega)
    refine ⟨_, congrArg Host.Outcome.next form, ?_⟩
    generalize waitUntil ((s.tim.now / 64 + 1) * 64) (begin_ s) = u at now passed
    have qbm : u.qbm = s.qbm := passed .qbm (by decide)
    have pwr : u.pwr = s.pwr := passed .pwr (by decide)
    obtain ⟨hue, hcell, hother, hch⟩ := scrubHits_uncorrectable (s := u) (g := g) hk
      (by unfold logicalOf physOf; rw [qbm]; exact hg)
      (by unfold domOn pdom; rw [pwr]; exact hd)
      (by rw [grpOf_of_qbm qbm]; exact hf)
      (by rw [scrubRow, now, Nat.mul_div_cancel _ (by decide)]; exact hc)
    refine ⟨?_, hue.trans (by rw [grpOf_of_qbm qbm]), hcell, fun k hk => (hother k hk).trans (grpOf_of_qbm qbm k),
      (passed.mono (by decide)).trans (hch.mono (by decide))⟩
    rw [show (scrubHits [h] u).tim = u.tim from hch .tim (by decide)]
    exact now
  · subst hp
    obtain ⟨hgo, -, hch⟩ := writeRetire_effect (s := begin_ s) hb hn
    exact ⟨_, congrArg Host.Outcome.next (p0Write_ready (s := begin_ s) hr rfl), (hgo h).1, (hgo h).2, hch.of_begin⟩
  · subst hp
    obtain ⟨-, hno, hch⟩ := writeRetire_effect (s := begin_ s) hb hn
    exact ⟨_, congrArg Host.Outcome.next (p0Write_ready (s := begin_ s) hr rfl), (hno h).1, (hno h).2, hch.of_begin⟩
  · obtain ⟨t, form, hphys, hret, hspare, hdef, hother, hout, hch⟩ := retirementDone_effect (s := begin_ s) h hp hd
    exact ⟨t, congrArg Host.Outcome.next form, hphys, hret, hspare, hdef, hother, hout, hch.of_begin⟩

end Sys2Proof.Machine
end

section
/-!
SUPPORT. Doorbells of rings and of consumers (R53, R299, R300, R312, R315, R333).
-/

namespace Sys2Proof.Machine

-- one declaration at a time: the package is compiled as one text within a limit of memory
set_option Elab.async false

/-! ## Host writes and notices leave indices and interrupts of rings alone -/

section
variable {s t u : State} {k : RingKind} {n : Nat}

/-- Rings stay as they are, and what has crossed the edge stands. -/
def RingsStay (s t : State) : Prop := t.hrd.ring = s.hrd.ring ∧ ∀ o ∈ s.out, o ∈ t.out

theorem RingsStay.trans (h : RingsStay s t) (k : RingsStay t u) : RingsStay s u := ⟨k.1.trans h.1, fun o ho => k.2 o (h.2 o ho)⟩

theorem ringsStay_grantWrite {h : Nat} (e : grantWrite h s = some u) : RingsStay s u := by
  unfold grantWrite at e
  split at e
  · cases e
  · cases e
    exact ⟨rfl, fun o ho => List.mem_append_left _ ho⟩

theorem ringsStay_pumpWrites (fuel : Nat) (s : State) : RingsStay s (pumpWrites fuel s) := by
  induction fuel generalizing s with
  | zero => exact ⟨rfl, fun _ => id⟩
  | succ fuel ih =>
    unfold pumpWrites
    split
    · next e => exact (ringsStay_grantWrite e).trans (ih _)
    · split
      · next e => exact (ringsStay_grantWrite e).trans (ih _)
      · exact ⟨rfl, fun _ => id⟩

theorem ringsStay_hostWrites (l : List WrReq) (s : State) : RingsStay s (hostWrites l s) :=
  RingsStay.trans (t := { s with hrd := { s.hrd with wq := s.hrd.wq ++ l } }) ⟨rfl, fun _ => id⟩ (ringsStay_pumpWrites _ _)

/-- The read index and the armed interrupt of a ring stay, and what has crossed the edge stands. -/
def BellKeeps (k : RingKind) (n : Nat) (s t : State) : Prop :=
  (ringOf t k n).ci = (ringOf s k n).ci ∧ (ringOf t k n).armd = (ringOf s k n).armd ∧ (∀ o ∈ s.out, o ∈ t.out) ∧ Changes [.hrd, .cnt] s t

theorem BellKeeps.refl (k : RingKind) (n : Nat) (s : State) : BellKeeps k n s s := ⟨rfl, rfl, fun _ => id, changes_refl _ s⟩

theorem BellKeeps.trans (h : BellKeeps k n s t) (g : BellKeeps k n t u) : BellKeeps k n s u := by
  obtain ⟨hci, harm, hout, hch⟩ := h
  obtain ⟨gci, garm, gout, gch⟩ := g
  exact ⟨gci.trans hci, garm.trans harm, fun o ho => gout o (hout o ho), hch.trans gch⟩

theorem RingsKeep.bellKeeps (h : RingsKeep [.hrd, .cnt] s t) (k : RingKind) (n : Nat) : BellKeeps k n s t :=
  ⟨Ring.eq_of_sansFetch Ring.ci (fun _ => rfl) (h.ring k n), Ring.eq_of_sansFetch Ring.armd (fun _ => rfl) (h.ring k n), h.out, h.changes⟩

theorem ringOf_of_ring (h : t.hrd.ring = s.hrd.ring) (k : RingKind) (n : Nat) : ringOf t k n = ringOf s k n := by rw [ringOf, h, ← ringOf]

theorem advance_bell (r : Ring) : (advance r).ci = r.ci ∧ (advance r).armd = r.armd := by
  unfold advance
  split <;> exact ⟨rfl, rfl⟩

theorem bellKeeps_ntcWrite (p : Nat) (x : Notice) (s : State) : BellKeeps .ntc p s (ntcWrite p x s) := by
  unfold ntcWrite
  extract_lets r
  obtain ⟨hci, harm⟩ := advance_bell r
  have set := changes_setRingOf .ntc p (advance r) s
  have same : ringOf (setRing .ntc p (advance r) s) .ntc p = advance r := ringOf_setRing_same
  have out : (setRing .ntc p (advance r) s).out = s.out := rfl
  generalize setRing .ntc p (advance r) s = u at set same out
  obtain ⟨hring, hout⟩ := ringsStay_hostWrites [⟨r.w.chan, rkey .ntc p, r.w.base + 32 * r.f, p, wordBytes (noticeWords x r.ph), .notice p⟩] u
  have sent := changes_hostWrites [⟨r.w.chan, rkey .ntc p, r.w.base + 32 * r.f, p, wordBytes (noticeWords x r.ph), .notice p⟩] u
  refine ⟨?_, ?_, fun o ho => hout o (out ▸ ho), (set.trans sent).mono (by decide)⟩
  · rw [ringOf_of_ring hring, same, hci]
  · rw [ringOf_of_ring hring, same, harm]

theorem bellKeeps_ntcDrain (p fuel : Nat) (s : State) : BellKeeps .ntc p s (ntcDrain p fuel s) := by
  induction fuel generalizing s with
  | zero => exact .refl _ _ s
  | succ fuel ih =>
    have kept (h : Hrd) (u : State) (hr : h.ring = u.hrd.ring) : BellKeeps .ntc p u { u with hrd := h } :=
      ⟨by rw [ringOf, hr, ← ringOf], by rw [ringOf, hr, ← ringOf], fun _ => id, (changes_hrd h u.out u).mono (by decide)⟩
    unfold ntcDrain
    split
    · exact .refl _ _ s
    · split
      · refine BellKeeps.trans ?_ (ih _)
        exact (bellKeeps_ntcWrite p _ s).trans (kept _ _ rfl)
      · cases tGet [] s.hrd.npend p with
        | nil => exact .refl _ _ s
        | cons x l =>
          refine BellKeeps.trans ?_ (ih _)
          exact (bellKeeps_ntcWrite p x s).trans (kept _ _ rfl)

theorem ringsKeep_wakeReaders (c : Nat) (s : State) : RingsKeep [.hrd, .cnt] s (wakeReaders c s) := by
  unfold wakeReaders
  have fold (l : Tab Ring) (u : State) : RingsKeep [.hrd, .cnt] u (l.foldl (fun s e =>
      let k := kindOf (e.1 / 4096)
      if (k == .send || k == .fill || k == .cmd) && e.2.w.cq == c && e.2.st == .running then tryFetch k (e.1 % 4096) false s else s) u) := by
    induction l generalizing u with
    | nil => exact .refl _ u
    | cons e l ih =>
      refine RingsKeep.trans ?_ (ih _)
      dsimp only
      split
      · exact ringsKeep_tryFetch _ _ _ u
      · exact .refl _ u
  exact fold s.hrd.ring s

end

/-! ## Consumer doorbells (R299, R315) -/

section
variable {s : State} {k : RingKind} {n : Nat} {data : Word}

/-- A doorbell whose index is valid: what it returns, arms or fires. -/
def bellTaken (k : RingKind) (n : Nat) (data : Word) (s : State) : State :=
  let s1 := setRing k n { ringOf s k n with ci := fld data 0 17 } s
  let r1 := ringOf s1 k n
  if bit data 31 then
    if unseen s1 k n < used r1 then irq r1.w.vec (ringOwner s1 k n) (setRing k n { r1 with armd := false } s1)
    else setRing k n { r1 with armd := true } s1
  else s1

theorem consBell_valid (hr : ringRuns (ringOf s k n) = true) (hc : fld data 0 17 < 2 * ringSize (ringOf s k n))
    (hu : (fld data 0 17 + 2 * ringSize (ringOf s k n) - (ringOf s k n).ci) % (2 * ringSize (ringOf s k n)) ≤ used (ringOf s k n)) :
    consBell k n data s = if k == .cq then wakeReaders n (bellTaken k n data s) else ntcDrain n 32 (bellTaken k n data s) := by
  unfold consBell
  extract_lets r size ci ok s1 r1 s2
  have valid : ok = true := Bool.and_eq_true_iff.mpr ⟨decide_eq_true hc, decide_eq_true hu⟩
  have first : s1 = setRing k n { ringOf s k n with ci := fld data 0 17 } s := if_pos valid
  have second : s2 = bellTaken k n data s := by
    unfold bellTaken
    dsimp only
    rw [← first]
  rw [if_neg (by simp [r, hr]), if_neg (by simp [valid]), second]

theorem bellTaken_effect {r : Ring} (hr : r = { ringOf s k n with ci := fld data 0 17 }) :
    (ringOf (bellTaken k n data s) k n).ci = r.ci ∧
    (bit data 31 = false → (ringOf (bellTaken k n data s) k n).armd = r.armd) ∧
    (bit data 31 = true → unseen s k n < used r →
      (ringOf (bellTaken k n data s) k n).armd = false ∧ Out.irq r.w.vec (ringOwner s k n) ∈ (bellTaken k n data s).out) ∧
    (bit data 31 = true → used r ≤ unseen s k n → (ringOf (bellTaken k n data s) k n).armd = true) ∧
    Changes [.hrd] s (bellTaken k n data s) := by
  unfold bellTaken
  rw [← hr]
  extract_lets s1 r1
  have same : r1 = r := ringOf_setRing_same
  have set : Changes [.hrd] s s1 := changes_setRingOf k n r s
  have wait : unseen s1 k n = unseen s k n := rfl
  have owner : ringOwner s1 k n = ringOwner s k n := rfl
  have ring : ringOf s1 k n = r := same
  clear_value s1 r1
  subst same
  by_cases hb : bit data 31 = true
  · rw [if_pos hb, wait, owner]
    by_cases hu : unseen s k n < used r1
    · rw [if_pos hu]
      have fired : Changes [.hrd] s1 (irq r1.w.vec (ringOwner s k n) (setRing k n { r1 with armd := false } s1)) :=
        Changes.emit (changes_setRingOf k n _ s1)
      have told : ringOf (irq r1.w.vec (ringOwner s k n) (setRing k n { r1 with armd := false } s1)) k n = { r1 with armd := false } :=
        ringOf_setRing_same (s := s1)
      rw [told]
      exact ⟨rfl, fun h => absurd hb (by simp [h]), fun _ _ => ⟨rfl, List.mem_append_right _ List.mem_cons_self⟩,
        fun _ h => absurd hu (by omega), set.trans fired⟩
    · rw [if_neg hu, ringOf_setRing_same]
      exact ⟨rfl, fun h => absurd hb (by simp [h]), fun _ h => absurd h hu, fun _ _ => rfl, set.trans (changes_setRingOf k n _ s1)⟩
  · rw [if_neg hb, ring]
    exact ⟨rfl, fun _ => rfl, fun h => absurd h hb, fun h => absurd h hb, set⟩

theorem bellKeeps_consBell (hk : k = .cq ∨ k = .ntc) : BellKeeps k n (bellTaken k n data s)
    (if k == .cq then wakeReaders n (bellTaken k n data s) else ntcDrain n 32 (bellTaken k n data s)) := by
  rcases hk with rfl | rfl
  · exact (ringsKeep_wakeReaders n _).bellKeeps .cq n
  · exact bellKeeps_ntcDrain n 32 _

/-- A doorbell of an existing ring that its writer owns, with HP ON. -/
theorem doorbell_owned {p : Nat} (hr : Ready s) (hn : n < kcount k) (ho : ownsRing s p k n = true) (hd : domOn s domHP = true) :
    doorbell p k n data s = bell k n data s := by
  unfold doorbell
  rw [if_neg (by rintro (h | h); · exact h hr
                 · omega), if_neg (by simp [ho]), if_neg (by simp [hd])]

theorem doorbell_foreign {p : Nat} (hr : Ready s) (hn : n < kcount k) (ho : ownsRing s p k n = false) :
    doorbell p k n data s = partViol p s := by
  unfold doorbell
  rw [if_neg (by rintro (h | h); · exact h hr
                 · omega), if_pos (by simp [ho])]

end

/-! ## Doorbells of rings that read (R53, R300, R312) -/

section
variable {s : State} {k : RingKind} {n : Nat}

theorem bell_reads (hk : k = .send ∨ k = .fill ∨ k = .cmd) (data : Word) : bell k n data s = ringBell k n s := by
  rcases hk with rfl | rfl | rfl <;> rfl

/-- A doorbell of a ring whose read is outstanding. -/
theorem ringBell_rescan (hr : ringRuns (ringOf s k n) = true) (hq : (ringOf s k n).quiescing = none) (hn : (ringOf s k n).rdN ≠ 0) :
    ringBell k n s = setRing k n { ringOf s k n with rescan := true } s := by
  unfold ringBell
  dsimp only
  rw [if_neg (by simp [hr, hq]), if_pos hn]

theorem ringBell_turn (hr : ringRuns (ringOf s k n) = true) (hq : (ringOf s k n).quiescing = none) (hn : (ringOf s k n).rdN = 0) :
    ringBell k n s = atCycle (s.tim.now + 18) (.bell k n) s := by
  unfold ringBell
  dsimp only
  rw [if_neg (by simp [hr, hq]), if_neg (by simp [hn])]

/-- R316, R317: a read burst with no other before it leaves at once, on the channel of its address. -/
theorem hostReads_alone {b : RdReq} (hq : s.hrd.rq = []) (hf : s.hrd.fenced.contains b.dch = false) (ho : rdOut s b.dch < 32)
    (ht : (freeTag (rdTags s (hmpChan b.addr))).isSome = true) : ∃ tag u, hostReads [b] s = u ∧ u.hrd.ring = s.hrd.ring ∧
      u.hrd.later = s.hrd.later ∧ u.tim = s.tim ∧
      u.out = s.out ++ [.hostRead (hmpChan b.addr) tag (b.addr / 64 * 64) (ceilDiv (b.addr % 64 + b.len) 64) b.part b.snoop] := by
  have pump : hostReads [b] s = pumpReads 1 { s with hrd := { s.hrd with rq := [b] } } := by simp [hostReads, hq]
  have tags (h : Nat) : rdTags { s with hrd := { s.hrd with rq := [b] } } h = rdTags s h := rfl
  have out : rdOut { s with hrd := { s.hrd with rq := [b] } } b.dch = rdOut s b.dch := rfl
  rw [pump]
  rcases hmpChan_cases b.addr with e | e <;> rw [e] at ht ⊢
  · simp only [pumpReads, grantRead, pickMin, rdReady, tags, e, ht, hf, out, ho]
    exact ⟨_, _, rfl, rfl, rfl, rfl, rfl⟩
  · simp only [pumpReads, grantRead, pickMin, rdReady, tags, e, ht, hf, out, ho]
    exact ⟨_, _, rfl, rfl, rfl, rfl, rfl⟩

/-- R312: the key of a ring that reads descriptors is not that of its completion queue. -/
theorem rkey_cq_ne (hk : k = .send ∨ k = .fill ∨ k = .cmd) (hn : n < kcount k) (w : W6) : rkey k n ≠ rkey .cq w.cq := by
  have hc : w.cq < 2 ^ 10 := Nat.mod_lt _ (by decide)
  rcases hk with rfl | rfl | rfl <;> simp only [rkey, kcode, kcount] at hn ⊢ <;> omega

/-- A ring that wakes, where its read may go at once (R300, R312, R317). -/
theorem bellTurn_reads {r : Ring} {m : Nat} (hk : k = .send ∨ k = .fill ∨ k = .cmd) (hn : n < kcount k) (he : ringOf s k n = r)
    (hr : ringRuns r = true) (hq : r.quiescing = none) (h0 : r.rdN = 0) (hf : s.hrd.fenced.contains r.w.chan = false)
    (hm : m = min (min (fetchLimit s k n r false) (spanLimit r)) (cqRoom s r.w.cq)) (hp : 0 < m) (ho : rdOut s r.w.chan < 32)
    (ht : (freeTag (rdTags s (hmpChan (r.w.base + 32 * r.f)))).isSome = true) (hrq : s.hrd.rq = []) (hd : domOn s domHP = true) :
    ∃ t tag, bellTurn k n s = t ∧ (ringOf t k n).rdN = m ∧ (ringOf t k n).f = r.f ∧
      (ringOf t .cq r.w.cq).rsv = (ringOf s .cq r.w.cq).rsv + m ∧ t.hrd.later = s.hrd.later ∧
      t.out = s.out ++ [.hostRead (hmpChan (r.w.base + 32 * r.f)) tag ((r.w.base + 32 * r.f) / 64 * 64)
        (ceilDiv ((r.w.base + 32 * r.f) % 64 + 32 * m) 64) (ringOwner s k n) r.w.snoop] ∧ t.tim = s.tim := by
  have key := rkey_cq_ne hk hn r.w
  have woken : bellTurn k n s = tryFetch k n false (setRing k n { r with st := .running } s) := by
    unfold bellTurn
    dsimp only
    rw [he, if_neg (by simp [hr, hq]), if_neg (by simp [h0])]
  have runs : ringOf (setRing k n { r with st := .running } s) k n = { r with st := .running } := ringOf_setRing_same
  have cq : ringOf (setRing k n { r with st := .running } s) .cq r.w.cq = ringOf s .cq r.w.cq := ringOf_setRing_other (Ne.symm key)
  have limit : fetchLimit (setRing k n { r with st := .running } s) k n { r with st := .running } false = fetchLimit s k n r false := by
    cases k <;> rfl
  have span : spanLimit { r with st := .running } = spanLimit r := rfl
  have room : cqRoom (setRing k n { r with st := .running } s) r.w.cq = cqRoom s r.w.cq := by
    unfold cqRoom
    dsimp only
    rw [cq]
  generalize hs1 : setRing k n { r with st := .running } s = s1 at *
  have same1 : s1.hrd.rq = s.hrd.rq ∧ s1.hrd.fenced = s.hrd.fenced ∧ s1.hrd.later = s.hrd.later ∧ s1.out = s.out ∧ s1.tim = s.tim ∧
      rdOut s1 r.w.chan = rdOut s r.w.chan ∧ (∀ h, rdTags s1 h = rdTags s h) ∧ domOn s1 domHP = domOn s domHP ∧
      ringOwner s1 k n = ringOwner s k n := by
    subst hs1
    exact ⟨rfl, rfl, rfl, rfl, rfl, rfl, fun _ => rfl, rfl, rfl⟩
  obtain ⟨erq, efenced, elater, eout, etim, erd, etags, edom, eowner⟩ := same1
  have fetched : tryFetch k n false s1 = cqReserve r.w.cq m
      (hostReads [⟨r.w.chan, rkey k n, r.w.base + 32 * r.f, 32 * m, ringOwner s k n, r.w.snoop, .desc k n⟩]
        (setRing k n { { r with st := .running } with rdN := m, rescan := false } s1)) := by
    unfold tryFetch
    dsimp only
    rw [runs]
    rw [if_neg (by simp [h0, hq, efenced, edom, hd]; simpa using hf)]
    rw [limit, span, room, ← hm, if_neg (by omega), if_neg (by omega), eowner]
  rw [woken, fetched]
  have reading : ringOf (setRing k n { { r with st := .running } with rdN := m, rescan := false } s1) k n =
      { { r with st := .running } with rdN := m, rescan := false } := ringOf_setRing_same
  have cq2 : ringOf (setRing k n { { r with st := .running } with rdN := m, rescan := false } s1) .cq r.w.cq = ringOf s .cq r.w.cq :=
    (ringOf_setRing_other (Ne.symm key)).trans cq
  generalize hs2 : setRing k n { { r with st := .running } with rdN := m, rescan := false } s1 = s2 at *
  have same2 : s2.hrd.rq = s1.hrd.rq ∧ s2.hrd.fenced = s1.hrd.fenced ∧ s2.hrd.later = s1.hrd.later ∧ s2.out = s1.out ∧ s2.tim = s1.tim ∧
      rdOut s2 r.w.chan = rdOut s1 r.w.chan ∧ (∀ h, rdTags s2 h = rdTags s1 h) := by
    subst hs2
    exact ⟨rfl, rfl, rfl, rfl, rfl, rfl, fun _ => rfl⟩
  obtain ⟨frq, ffenced, flater, fout, ftim, frd, ftags⟩ := same2
  obtain ⟨tag, s3, sent, hring, hlater, htim, hout⟩ := hostReads_alone (s := s2)
    (b := ⟨r.w.chan, rkey k n, r.w.base + 32 * r.f, 32 * m, ringOwner s k n, r.w.snoop, .desc k n⟩) (by rw [frq, erq, hrq])
    (by rw [ffenced, efenced]; exact hf) (by rw [frd, erd]; exact ho) (by rw [ftags, etags]; exact ht)
  rw [sent]
  have ring3 (k' : RingKind) (n' : Nat) : ringOf s3 k' n' = ringOf s2 k' n' := ringOf_of_ring hring k' n'
  refine ⟨_, tag, rfl, ?_, ?_, ?_, hlater.trans (flater.trans elater), hout.trans (by rw [fout, eout]), htim.trans (ftim.trans etim)⟩
  · rw [cqReserve, ringOf_setRing_other key, ring3, reading]
  · rw [cqReserve, ringOf_setRing_other key, ring3, reading]
  · rw [cqReserve, ringOf_setRing_same, ring3, cq2]
    show ((ringOf s .cq r.w.cq).rsv + (m : Int)).toNat = _
    omega

end

section
variable {s : State} {part : BitVec 6} {kind : RingKind} {ring : BitVec 11} {data : Word}

theorem runs_ringDoorbell (hk : kind = .send ∨ kind = .fill ∨ kind = .cmd) :
    Runs (.ringDoorbell part kind ring) s (doorbell part.toNat kind ring.toNat 0 (begin_ s)) := by
  rcases hk with rfl | rfl | rfl <;> rfl

theorem runs_consumerDoorbell (hk : kind = .cq ∨ kind = .ntc) :
    Runs (.consumerDoorbell part kind ring data) s (doorbell part.toNat kind ring.toNat data (begin_ s)) := by
  rcases hk with rfl | rfl <;> rfl

theorem runs_ringBell (hk : kind = .send ∨ kind = .fill ∨ kind = .cmd) (hr : Ready s) (hn : ring.toNat < kcount kind)
    (ho : ownsRing s part.toNat kind ring.toNat = true) (hd : domOn s domHP = true) :
    Runs (.ringDoorbell part kind ring) s (ringBell kind ring.toNat (begin_ s)) := by
  have form := doorbell_owned (s := begin_ s) (data := 0) hr hn ho hd
  rw [bell_reads hk] at form
  rw [← form]
  exact runs_ringDoorbell hk

/-- The state in which the only turn of an idle cycle takes place. -/
theorem turn_begins {u : State} (clock : ClockPasses 1 (withTurns [] (begin_ s)) u) : u.tim.now = s.tim.now + 1 ∧
    u.hrd = { s.hrd with later := [] } ∧ u.out = [] ∧ Changes [.flt, .cnt, .tim, .hrd] s u := by
  obtain ⟨flt, cnt, time, slew, segs, iw, sw, rfl⟩ := clock
  exact ⟨rfl, rfl, rfl, fun c hc => by cases c <;> simp [Kept, withTurns, begin_] at hc ⊢⟩

/-- The cycle in which a ring wakes, with no command waiting. -/
theorem step_bell {n m : Nat} {r : Ring} (hi : Idles s) (hl : s.hrd.later = [(s.tim.now + 1, .bell kind n)])
    (hk : kind = .send ∨ kind = .fill ∨ kind = .cmd) (hn : n < kcount kind) (he : ringOf s kind n = r)
    (hr : ringRuns r = true) (hq : r.quiescing = none) (h0 : r.rdN = 0) (hf : s.hrd.fenced.contains r.w.chan = false)
    (hm : m = min (min (fetchLimit s kind n r false) (spanLimit r)) (cqRoom s r.w.cq)) (hp : 0 < m) (ho : rdOut s r.w.chan < 32)
    (ht : (freeTag (rdTags s (hmpChan (r.w.base + 32 * r.f)))).isSome = true) (hrq : s.hrd.rq = []) (hd : domOn s domHP = true) :
    ∃ t tag, step s = .next t ∧ (ringOf t kind n).rdN = m ∧ (ringOf t kind n).f = r.f ∧
      (ringOf t .cq r.w.cq).rsv = (ringOf s .cq r.w.cq).rsv + m ∧ t.hrd.later = [] ∧
      t.out = [.hostRead (hmpChan (r.w.base + 32 * r.f)) tag ((r.w.base + 32 * r.f) / 64 * 64)
        (ceilDiv ((r.w.base + 32 * r.f) % 64 + 32 * m) 64) (ringOwner s kind n) r.w.snoop] := by
  obtain ⟨u, clock, -, run⟩ := step_turn hi hl
  obtain ⟨now, hrd, out, passed⟩ := turn_begins clock
  have regs : u.regs = s.regs := passed .regs (by decide)
  have glb : u.glb = s.glb := passed .glb (by decide)
  have pwr : u.pwr = s.pwr := passed .pwr (by decide)
  have ring (k' : RingKind) (n' : Nat) : ringOf u k' n' = ringOf s k' n' := ringOf_of_ring (by rw [hrd]) k' n'
  have limit : fetchLimit u kind n r false = fetchLimit s kind n r false := by
    unfold fetchLimit
    rw [hrd]
  have room : cqRoom u r.w.cq = cqRoom s r.w.cq := by
    unfold cqRoom
    rw [ring]
  have owner : ringOwner u kind n = ringOwner s kind n := by
    unfold ringOwner prtOwner reg
    rw [regs, glb]
  have reads : rdOut u r.w.chan = rdOut s r.w.chan ∧ (∀ h, rdTags u h = rdTags s h) ∧ u.hrd.fenced = s.hrd.fenced ∧ u.hrd.rq = s.hrd.rq := by
    unfold rdOut rdTags
    rw [hrd]
    exact ⟨rfl, fun _ => rfl, rfl, rfl⟩
  obtain ⟨erd, etags, efenced, erq⟩ := reads
  obtain ⟨t, tag, form, tn, tf, trsv, tlater, tout, ttim⟩ := bellTurn_reads (s := u) (m := m) hk hn ((ring kind n).trans he) hr hq h0
    (efenced ▸ hf) (by rw [limit, room]; exact hm) hp (erd ▸ ho) (by rw [etags]; exact ht) (erq.trans hrq)
    (by unfold domOn pdom; rw [pwr]; exact hd)
  have later : t.hrd.later = [] := by rw [tlater, hrd]
  have turned : takeTurn (.bell kind n) u = t := form
  rw [turned] at run
  refine ⟨t, tag, run (by rw [ttim, now]) (fun e he => absurd (later ▸ he) List.not_mem_nil), tn, tf, by rw [trsv, ring], later, ?_⟩
  rw [tout, out, owner, List.nil_append]

end

/-- Settles O33: doorbells of rings that read, the turn of a ring, and consumer doorbells. -/
theorem doorbells : Obligations.Doorbells := by
  unfold Obligations.Doorbells
  refine ⟨fun s part kind ring hr hk hn => ⟨fun ho => ?_, fun ho hd hrun hq => ⟨fun h0 => ?_, fun h0 => ?_, ?_⟩⟩,
    fun s part kind ring data r hr hk hn ho hd he hrun hc hu => ?_⟩
  · have form := runs_ringDoorbell (s := s) (part := part) (ring := ring) hk
    rw [doorbell_foreign (s := begin_ s) hr hn ho] at form
    exact ⟨_, form, by rw [partViol_out]; rfl, (changes_partViol _ (begin_ s)).of_begin⟩
  · have form := runs_ringBell hk hr hn ho hd
    rw [ringBell_rescan (s := begin_ s) hrun hq h0] at form
    exact ⟨_, form, ringOf_setRing_same, rfl, (changes_setRingOf kind _ _ (begin_ s)).of_begin⟩
  · have form := runs_ringBell hk hr hn ho hd
    rw [ringBell_turn (s := begin_ s) hrun hq h0] at form
    exact form
  · intro r m he h0 hf hm hp hrd ht hrq hpend hz hround hl hs hb
    subst he
    exact step_bell ⟨hpend, hz, hround, .inl ⟨hs, hb⟩⟩ hl hk hn rfl hrun hq h0 hf hm hp hrd ht hrq hd
  · subst he
    have form := runs_consumerDoorbell (s := s) (part := part) (ring := ring) (data := data) hk
    have asked : bell kind ring.toNat data (begin_ s) = consBell kind ring.toNat data (begin_ s) := by rcases hk with rfl | rfl <;> rfl
    rw [doorbell_owned (s := begin_ s) hr hn ho hd, asked, consBell_valid (s := begin_ s) hrun hc hu] at form
    obtain ⟨bci, bkeep, bfire, barm, bch⟩ := bellTaken_effect (s := begin_ s) (k := kind) (n := ring.toNat) (data := data) rfl
    obtain ⟨wci, warm, wout, wch⟩ := bellKeeps_consBell (s := begin_ s) (n := ring.toNat) (data := data) hk
    refine ⟨_, form, wci.trans bci, fun h => warm.trans (bkeep h), fun h hw => ⟨warm.trans (bfire h hw).1, wout _ ?_⟩,
      fun h hw => warm.trans (barm h hw), ((bch.mono (by decide)).trans wch).of_begin⟩
    have owner : ringOwner (begin_ s) kind ring.toNat = ringOwner s kind ring.toNat := by rcases hk with rfl | rfl <;> rfl
    exact owner ▸ (bfire h hw).2

end Sys2Proof.Machine
end

section
/-!
SUPPORT. HRD_RDIS of a send ring whose frame a tree is about to send (R330): a state in which the disable reaches the tree.
-/

namespace Sys2Proof.Machine

-- one declaration at a time: the package is compiled as one text within a limit of memory
set_option Elab.async false

/-- A frame that send ring 0 has sent into the buffer. -/
def sentFrame : Frame :=
  { bytes := [], len := 64, src := ⟨2, 0⟩, tid := 0, hnd := 0, stamp := 0, e2e := 0, mark := .good, ipck := 0, l4ck := 0, dp := 0, act := 0,
    fkind := 0, ftgt := 0, flags := 0, slots := [], ends := [], vtags := 0, outerTpid := 0, outerTci := 0, inPrio := 0, rxMax := 0,
    cells := [], deep := [], refs := 1, sAdd := 0, sq := none, sqLost := false,
    send := some
      { ring := 0, part := 0, index := 0, ipck := false, l4ck := false, seg := 0, mss := 0, hdrLen := 0, tsReq := false, skip := false,
        direct := none },
    ino := 0, looped := false, tmm := false, txStamp := none, dchg := none, e2eFail := [], last := 0, lenKnown := true, late := [],
    inS := false, prov := 0, left := 0, crcBad := false }

/-- A TU of that frame that tree 0 has staged. -/
def sentTu : DsTu :=
  { blk := 0, nblk := 1, queue := 0, frame := 0, tid := 0, idx := 0, first := true, last := true, ksel := 0, body := [], tag := [],
    done := false, ready := false, idle := false, redo := false, unref := false, seg := 0, seen := none }

/-- Send ring 0 is idle, its frame stands in the buffer, and tree 0 has staged a TU of it. -/
def sendStaged : State :=
  { State.reset with
    glb := { Glb.reset with phase := 4 }
    hrd := { Hrd.reset with ring := [(0, { Ring.empty with st := .idle })] }
    qbm := { Qbm.reset with frames := [(0, sentFrame)] }
    tre := [(0, { Tre.empty with stage := [(1000, [sentTu])] })] }

/-- The disable withdraws the frame, and its staged TU goes out as idle blocks (R34, R330). -/
theorem rdisWrite_sendStaged : ((rdisWrite 0 .send 0 1 (begin_ sendStaged)).tre.map fun e => e.2.stage.map fun b => b.2.map (·.idle)) = [[[true]]] := by
  decide +kernel

/-- Refutes O39: a disabled send ring withdraws its frames, and a TU of them that a tree has staged turns idle, which changes the tree
(`sendStaged`). -/
theorem not_ringSetup : ¬ Obligations.RingSetup := by
  intro h
  obtain ⟨disable, -⟩ := h sendStaged (by decide)
  obtain ⟨t, run, -, -, -, tre, -⟩ := disable 0 0 .send 1 0 (.inl rfl) (by decide) (by decide)
  have done : rdisWrite 0 .send 0 1 (begin_ sendStaged) = t := Host.Outcome.next.inj run
  have idle := rdisWrite_sendStaged
  rw [done, tre] at idle
  exact absurd idle (by decide)

end Sys2Proof.Machine
end

section
/-!
SUPPORT. Halts of rings, and the acknowledgements, time-outs and stray responses of host accesses (R315, R320, R331).
-/

namespace Sys2Proof.Machine

-- one declaration at a time: the package is compiled as one text within a limit of memory
set_option Elab.async false

/-! ## What leaves the rings' states alone -/

/-- State, halt status and index, and armed interrupt of a ring. -/
def Ring.mark (r : Ring) : RState × Nat × Nat × Bool := (r.st, r.hstat, r.hindex, r.armd)

/-- No ring changes its state, what late responses wait for stays, and what has crossed the edge stands. -/
structure MarksKeep (s t : State) : Prop where
  mark : ∀ k n, (ringOf t k n).mark = (ringOf s k n).mark
  lateR : ∀ x ∈ s.hrd.lateR, x ∈ t.hrd.lateR
  lateW : ∀ x ∈ s.hrd.lateW, x ∈ t.hrd.lateW
  out : ∀ o ∈ s.out, o ∈ t.out

section
variable {s t u : State} {l : List Comp} {k : RingKind} {n : Nat}

theorem MarksKeep.refl (s : State) : MarksKeep s s := ⟨fun _ _ => rfl, fun _ => id, fun _ => id, fun _ => id⟩

theorem MarksKeep.trans (h : MarksKeep s t) (g : MarksKeep t u) : MarksKeep s u :=
  ⟨fun k n => (g.mark k n).trans (h.mark k n), fun x hx => g.lateR x (h.lateR x hx), fun x hx => g.lateW x (h.lateW x hx),
    fun x hx => g.out x (h.out x hx)⟩

theorem MarksKeep.of_eq (hh : t.hrd = s.hrd) (ho : t.out = s.out) : MarksKeep s t :=
  ⟨fun k n => by rw [ringOf, hh, ← ringOf], fun x hx => hh ▸ hx, fun x hx => hh ▸ hx, fun x hx => ho ▸ hx⟩

theorem marksKeep_hrd (h : Hrd) (hr : h.ring = s.hrd.ring := by rfl) (hR : h.lateR = s.hrd.lateR := by rfl)
    (hW : h.lateW = s.hrd.lateW := by rfl) : MarksKeep s { s with hrd := h } :=
  ⟨fun k n => by rw [ringOf, hr, ← ringOf], fun x hx => hR ▸ hx, fun x hx => hW ▸ hx, fun _ => id⟩

theorem MarksKeep.st (h : MarksKeep s t) (k : RingKind) (n : Nat) : (ringOf t k n).st = (ringOf s k n).st := congrArg (·.1) (h.mark k n)

theorem MarksKeep.hstat (h : MarksKeep s t) (k : RingKind) (n : Nat) : (ringOf t k n).hstat = (ringOf s k n).hstat :=
  congrArg (·.2.1) (h.mark k n)

theorem MarksKeep.hindex (h : MarksKeep s t) (k : RingKind) (n : Nat) : (ringOf t k n).hindex = (ringOf s k n).hindex :=
  congrArg (·.2.2.1) (h.mark k n)

theorem MarksKeep.armd (h : MarksKeep s t) (k : RingKind) (n : Nat) : (ringOf t k n).armd = (ringOf s k n).armd :=
  congrArg (·.2.2.2) (h.mark k n)

theorem marksKeep_setRing {r : Ring} (h : r.mark = (ringOf s k n).mark) : MarksKeep s (setRing k n r s) := by
  refine ⟨fun k' n' => ?_, fun _ => id, fun _ => id, fun _ => id⟩
  by_cases e : rkey k' n' = rkey k n
  · have same (u : State) : ringOf u k' n' = ringOf u k n := by rw [ringOf, e, ← ringOf]
    rw [same, same, ringOf_setRing_same, h]
  · rw [ringOf_setRing_other e]

/-- What fetching changes leaves the states alone; the lists of late responses are kept apart. -/
theorem RingsKeep.marks (h : RingsKeep l s t) (hR : ∀ x ∈ s.hrd.lateR, x ∈ t.hrd.lateR) (hW : ∀ x ∈ s.hrd.lateW, x ∈ t.hrd.lateW) :
    MarksKeep s t := ⟨fun k n => Ring.eq_of_sansFetch Ring.mark (fun _ => rfl) (h.ring k n), hR, hW, h.out⟩

theorem marksKeep_cqReserve (c : Nat) (d : Int) (s : State) : MarksKeep s (cqReserve c d s) := marksKeep_setRing rfl

theorem marksKeep_orphanReads (p : RdUse → Bool) (s : State) : MarksKeep s (orphanReads p s) :=
  ⟨fun _ _ => rfl, fun _ hx => List.mem_append_left _ hx, fun _ => id, fun _ => id⟩

theorem marksKeep_countR (evt : Nat) (k : RingKind) (n amt : Nat) (s : State) : MarksKeep s (countR evt k n amt s) := by
  unfold countR
  split
  · exact .of_eq (countO_hrd _ _ _ _ s) (countO_out _ _ _ _ s)
  · exact .of_eq (countN_hrd _ _ _ s) (countN_out _ _ _ s)

theorem marksKeep_count1 (i evt : Nat) (s : State) : MarksKeep s (count1 i evt s) := .of_eq (count1_hrd _ _ s) (count1_out _ _ s)

theorem marksKeep_grantRead {h : Nat} (e : grantRead h s = some u) : MarksKeep s u := by
  unfold grantRead at e
  split at e
  · cases e
  · cases e
    exact ⟨fun _ _ => rfl, fun _ => id, fun _ => id, fun o ho => List.mem_append_left _ ho⟩

theorem marksKeep_pumpReads (fuel : Nat) (s : State) : MarksKeep s (pumpReads fuel s) := by
  induction fuel generalizing s with
  | zero => exact .refl s
  | succ fuel ih =>
    unfold pumpReads
    split
    · next e => exact (marksKeep_grantRead e).trans (ih _)
    · split
      · next e => exact (marksKeep_grantRead e).trans (ih _)
      · exact .refl s

theorem marksKeep_hostReads (q : List RdReq) (s : State) : MarksKeep s (hostReads q s) :=
  MarksKeep.trans (t := { s with hrd := { s.hrd with rq := s.hrd.rq ++ q } }) (marksKeep_hrd _) (marksKeep_pumpReads _ _)

theorem marksKeep_tryFetch (k : RingKind) (n : Nat) (cover : Bool) (s : State) : MarksKeep s (tryFetch k n cover s) := by
  unfold tryFetch
  extract_lets r want m
  split
  · exact .refl s
  · split
    · exact .refl s
    · split
      · exact marksKeep_countR _ _ _ _ s
      · refine MarksKeep.trans ?_ (marksKeep_cqReserve _ _ _)
        refine MarksKeep.trans ?_ (marksKeep_hostReads _ _)
        exact marksKeep_setRing rfl

theorem marksKeep_grantWrite {h : Nat} (e : grantWrite h s = some u) : MarksKeep s u := by
  unfold grantWrite at e
  split at e
  · cases e
  · cases e
    exact ⟨fun _ _ => rfl, fun _ => id, fun _ => id, fun o ho => List.mem_append_left _ ho⟩

theorem marksKeep_pumpWrites (fuel : Nat) (s : State) : MarksKeep s (pumpWrites fuel s) := by
  induction fuel generalizing s with
  | zero => exact .refl s
  | succ fuel ih =>
    unfold pumpWrites
    split
    · next e => exact (marksKeep_grantWrite e).trans (ih _)
    · split
      · next e => exact (marksKeep_grantWrite e).trans (ih _)
      · exact .refl s

theorem marksKeep_hostWrites (q : List WrReq) (s : State) : MarksKeep s (hostWrites q s) :=
  MarksKeep.trans (t := { s with hrd := { s.hrd with wq := s.hrd.wq ++ q } }) (marksKeep_hrd _) (marksKeep_pumpWrites _ _)

theorem advance_mark (r : Ring) : (advance r).mark = r.mark := by
  unfold advance
  split <;> rfl

/-! ### Notices and faults -/

theorem marksKeep_ntcWrite (p : Nat) (x : Notice) (s : State) : MarksKeep s (ntcWrite p x s) := by
  unfold ntcWrite
  exact (marksKeep_setRing (advance_mark _)).trans (marksKeep_hostWrites _ _)

theorem marksKeep_ntcLose (p : Nat) (s : State) : MarksKeep s (ntcLose p s) := by
  unfold ntcLose
  refine MarksKeep.trans ?_ (MarksKeep.of_eq (countO_hrd _ _ _ _ _) (countO_out _ _ _ _ _))
  exact marksKeep_hrd _

theorem marksKeep_ntcDrain (p fuel : Nat) (s : State) : MarksKeep s (ntcDrain p fuel s) := by
  induction fuel generalizing s with
  | zero => exact .refl s
  | succ fuel ih =>
    unfold ntcDrain
    split
    · exact .refl s
    · split
      · refine MarksKeep.trans ?_ (ih _)
        exact (marksKeep_ntcWrite p _ s).trans (marksKeep_hrd _)
      · cases tGet [] s.hrd.npend p with
        | nil => exact .refl s
        | cons x l =>
          refine MarksKeep.trans ?_ (ih _)
          exact (marksKeep_ntcWrite p x s).trans (marksKeep_hrd _)

theorem marksKeep_notice (p : Nat) (x : Notice) (s : State) : MarksKeep s (notice p x s) := by
  unfold notice
  extract_lets r s0 s1 pend
  have h0 : MarksKeep s s0 := .of_eq (wake_hrd _ _ s) (wake_out _ _ s)
  have h1 : MarksKeep s s1 := by
    show MarksKeep s (if _ then _ else _)
    split
    · exact h0.trans (marksKeep_ntcDrain _ _ _)
    · exact h0
  clear_value s1
  split
  · exact h1.trans (marksKeep_ntcLose _ _)
  · split
    · exact h1.trans (marksKeep_ntcWrite _ _ _)
    · split
      · exact h1.trans (marksKeep_hrd _)
      · split
        · exact h1.trans (marksKeep_hrd _)
        · exact h1.trans (marksKeep_ntcLose _ _)

theorem marksKeep_atCycle (c : Nat) (x : Turn) (s : State) : MarksKeep s (atCycle c x s) := marksKeep_hrd _

theorem marksKeep_fault (i b : Nat) (cap0 : Word) (acc mkind mnum part : Nat) (s : State) : MarksKeep s (fault i b cap0 acc mkind mnum part s) := by
  unfold fault raise
  extract_lets f s1
  have set : MarksKeep s s1 := .of_eq (setFlt_hrd _ _ s) (setFlt_out _ _ s)
  split
  · exact set
  · exact (set.trans (marksKeep_notice _ _ _)).trans (marksKeep_atCycle _ _ _)

/-! ### Records -/

theorem marksKeep_cqWrite {c : Nat} {x : CRec} (e : cqWrite c x k n s = some u) : MarksKeep s u := by
  unfold cqWrite at e
  dsimp only at e
  split at e
  · cases e
    exact marksKeep_setRing rfl
  · split at e
    · cases e
    · cases e
      refine MarksKeep.trans ?_ (marksKeep_hostWrites _ _)
      exact marksKeep_setRing (advance_mark _)

theorem marksKeep_cnt (x : Cnt) (s : State) : MarksKeep s { s with cnt := x } := .of_eq rfl rfl

theorem marksKeep_smpWrite (i m skid : Nat) (f : SmpFrame) (s : State) : MarksKeep s (smpWrite i m skid f s) := by
  unfold smpWrite
  extract_lets size base b s1
  split
  · exact (marksKeep_count1 _ _ s).trans (marksKeep_cnt _ _)
  · exact (marksKeep_hostWrites _ s).trans ((marksKeep_cnt _ _).trans (marksKeep_count1 _ _ _))

theorem marksKeep_completeAs (i : Nat) (f : SmpFrame) (s : State) : MarksKeep s (completeAs i f s) := by
  have used (x : Cnt) : MarksKeep s (useFree { s with cnt := x }) :=
    (marksKeep_cnt x s).trans (.of_eq (useFree_hrd _) (useFree_out _))
  unfold completeAs
  split
  · exact .refl s
  · split
    · exact used _
    · extract_lets s1
      split
      · exact (used _).trans (marksKeep_smpWrite _ _ _ _ _)
      · exact used _

theorem marksKeep_issueHead (k : RingKind) (n : Nat) (s : State) : MarksKeep s (issueHead k n s) := by
  unfold issueHead
  extract_lets r
  split
  · exact .refl s
  · next x t _ =>
    split
    · exact .refl s
    · split
      · exact .refl s
      · next s1 e =>
        extract_lets r1 s2 s3
        have h2 : MarksKeep s s2 := (marksKeep_cqWrite e).trans (marksKeep_setRing rfl)
        have h3 : MarksKeep s s3 := by
          show MarksKeep s (match x.sq, x.frame with | some _, some _ => _ | _, _ => s2)
          split
          · exact h2.trans (.of_eq rfl rfl)
          · exact h2
        clear_value s3
        split
        · exact h3.trans (marksKeep_completeAs _ _ _)
        · exact h3

theorem marksKeep_issueRecs (k : RingKind) (n m : Nat) (s : State) : MarksKeep s (issueRecs k n m s) := by
  induction m generalizing s with
  | zero => exact .refl s
  | succ m ih =>
    unfold issueRecs
    dsimp only
    split
    · exact (marksKeep_issueHead k n s).trans (ih _)
    · exact marksKeep_issueHead k n s

theorem marksKeep_issueNow (k : RingKind) (n : Nat) (s : State) : MarksKeep s (issueNow k n s) := marksKeep_issueRecs _ _ _ s

/-! ### Tags that come free -/

theorem marksKeep_mrFlush (m : Nat) (s : State) : MarksKeep s (mrFlush m s) := by
  induction m generalizing s with
  | zero => exact .refl s
  | succ m ih =>
    unfold mrFlush
    split
    · unfold mrClose
      split
      · exact .refl s
      · split
        · exact marksKeep_cnt _ s
        · exact .refl s
    · next s1 e =>
      refine MarksKeep.trans ?_ (ih s1)
      unfold mrNextGroup at e
      split at e
      · split at e
        · cases e
        · cases e
          exact (marksKeep_cnt _ s).trans (marksKeep_hostWrites _ _)
      · cases e

theorem changes_mrFlush (m : Nat) (s : State) : Changes [.hrd, .cnt] s (mrFlush m s) := by
  induction m generalizing s with
  | zero => exact changes_refl _ s
  | succ m ih =>
    unfold mrFlush
    split
    · unfold mrClose
      split
      · exact changes_refl _ s
      · split
        · exact (changes_cnt _ s).mono (by decide)
        · exact changes_refl _ s
    · next s1 e =>
      refine Changes.trans ?_ (ih s1)
      unfold mrNextGroup at e
      split at e
      · split at e
        · cases e
        · cases e
          exact ((changes_cnt _ s).mono (by decide)).trans ((changes_hostWrites _ _).mono (by decide))
      · cases e

theorem changes_pumpWrites (m : Nat) (s : State) : Changes [.hrd] s (pumpWrites m s) := by
  induction m generalizing s with
  | zero => exact changes_refl _ s
  | succ m ih =>
    have granted {h : Nat} {u : State} (e : grantWrite h s = some u) : Changes [.hrd] s u := by
      unfold grantWrite at e
      split at e
      · cases e
      · cases e
        exact changes_hrd _ _ s
    unfold pumpWrites
    split
    · next e => exact (granted e).trans (ih _)
    · split
      · next e => exact (granted e).trans (ih _)
      · exact changes_refl _ s

/-- Records that can be issued as tags come free. -/
theorem issues_records (l : Tab Ring) (s : State) :
    MarksKeep s (l.foldl (fun s e => if e.2.recs.isEmpty then s else issueNow (kindOf (e.1 / 4096)) (e.1 % 4096) s) s) ∧
    Changes recording s (l.foldl (fun s e => if e.2.recs.isEmpty then s else issueNow (kindOf (e.1 / 4096)) (e.1 % 4096) s) s) := by
  induction l generalizing s with
  | nil => exact ⟨.refl s, changes_refl _ s⟩
  | cons e l ih =>
    have one : MarksKeep s (if e.2.recs.isEmpty then s else issueNow (kindOf (e.1 / 4096)) (e.1 % 4096) s) ∧
        Changes recording s (if e.2.recs.isEmpty then s else issueNow (kindOf (e.1 / 4096)) (e.1 % 4096) s) := by
      split
      · exact ⟨.refl s, changes_refl _ s⟩
      · exact ⟨marksKeep_issueNow _ _ s, changes_issueNow _ _ s⟩
    exact ⟨one.1.trans (ih _).1, one.2.trans (ih _).2⟩

theorem tagFreed_keeps (s : State) : MarksKeep s (tagFreed s) ∧ Changes recording s (tagFreed s) := by
  unfold tagFreed
  extract_lets s1 s2
  have h1 : MarksKeep s s1 ∧ Changes [.hrd] s s1 := ⟨marksKeep_pumpWrites _ s, changes_pumpWrites _ s⟩
  have h2 := issues_records s1.hrd.ring s1
  change MarksKeep s1 s2 ∧ Changes recording s1 s2 at h2
  clear_value s1 s2
  exact ⟨(h1.1.trans h2.1).trans (marksKeep_mrFlush _ _), ((h1.2.mono (by decide)).trans h2.2).trans ((changes_mrFlush _ _).mono (by decide))⟩

end

/-! ## Halts (R331) -/

section
variable {s : State} {k : RingKind} {n status cause idx addr acc : Nat}

/-- R331: a running ring that halts. -/
theorem haltAs_effect (has : Bool) (hk : k ≠ .cmd) (hr : ringRuns (ringOf s k n) = true) (hq : (ringOf s k n).quiescing = none) :
    ∃ t, haltAs has k n status cause idx addr acc s = t ∧ (ringOf t k n).st = .halted ∧ (ringOf t k n).hstat = status ∧
      (ringOf t k n).hindex = idx ∧ bit (fltOf t 4).st 0 = true ∧ (∀ x ∈ s.hrd.lateR, x ∈ t.hrd.lateR) ∧ (∀ x ∈ s.hrd.lateW, x ∈ t.hrd.lateW) ∧
      Changes faulted s t := by
  refine ⟨_, rfl, ?_⟩
  unfold haltAs
  extract_lets r own q due x reads isJob keep r1 s1 s2 s3 s4 s5 hrd6 s6
  have runs : ¬(r.st == .disabled || r.st == .halted) = true := by
    have run : ringRuns r = true := hr
    unfold ringRuns at run
    cases hst : r.st <;> simp_all
  have first : Changes [.hrd] s s1 := changes_setRingOf k n r1 s
  have ring1 : ringOf s1 k n = r1 := ringOf_setRing_same
  have late1 : s1.hrd.lateR = s.hrd.lateR ∧ s1.hrd.lateW = s.hrd.lateW := ⟨rfl, rfl⟩
  have h2 : MarksKeep s1 s2 ∧ Changes [.hrd] s1 s2 := by
    show MarksKeep s1 (if _ then _ else _) ∧ Changes [.hrd] s1 (if _ then _ else _)
    split
    · exact ⟨marksKeep_cqReserve _ _ s1, changes_cqReserve _ _ s1⟩
    · exact ⟨.refl s1, changes_refl _ s1⟩
  have h3 : MarksKeep s2 s3 ∧ Changes [.hrd] s2 s3 := ⟨marksKeep_orphanReads _ s2, changes_hrd _ s2.out s2⟩
  have h4 : MarksKeep s3 s4 ∧ Changes noted s3 s4 :=
    ⟨(marksKeep_countR 8 k n 1 s3).trans (marksKeep_notice _ _ _),
      ((ringsKeep_countR 8 k n 1 s3).changes.mono (by decide)).trans (changes_notice _ _ _)⟩
  have h5 : MarksKeep s4 s5 ∧ Changes faulted s4 s5 ∧ bit (fltOf s5 4).st 0 = true :=
    ⟨marksKeep_fault _ _ _ _ _ _ _ s4, changes_fault _ _ _ _ _ _ _ s4, fault_st (by decide)⟩
  have h6 : MarksKeep s5 s6 ∧ Changes [.hrd] s5 s6 := by
    show MarksKeep s5 (if _ then _ else _) ∧ Changes [.hrd] s5 (if _ then _ else _)
    rw [if_neg (by simpa using hk)]
    split
    · exact ⟨marksKeep_atCycle _ _ s5, changes_atCycle _ _ s5⟩
    · exact ⟨.refl s5, changes_refl _ s5⟩
  have flt : s6.flt = s5.flt := h6.2 .flt (by decide)
  have none_ : q = none := hq
  have marks : r1.mark = (.halted, status, idx, r.armd) := rfl
  clear_value s1 s2 s3 s4 s5 s6
  have kept := (((h2.1.trans h3.1).trans h4.1).trans h5.1).trans h6.1
  have mark : (ringOf s6 k n).mark = (.halted, status, idx, r.armd) := by rw [kept.mark, ring1, marks]
  rw [if_neg runs, none_]
  dsimp only
  refine ⟨congrArg (·.1) mark, congrArg (·.2.1) mark, congrArg (·.2.2.1) mark, ?_, ?_, ?_, ?_⟩
  · rw [fltOf, flt]
    exact h5.2.2
  · rw [← late1.1]
    exact kept.lateR
  · rw [← late1.2]
    exact kept.lateW
  · exact ((((((first.trans h2.2).trans h3.2).mono (by decide)).trans (h4.2.mono (by decide))).trans h5.2.1)).trans (h6.2.mono (by decide))

end

/-! ## Acknowledgements and time-outs (R315, R320, R331) -/

section
variable {s : State} {ch tag : Nat}

theorem hostWriteAck_record {x : HWrite} {c m : Nat} {kd : RingKind}
    (hx : s.hrd.wr.find? (fun x => x.chan == ch && x.tag == tag) = some x) (hu : x.use = .record c kd m) (ha : (ringOf s .cq c).armd = true) :
    ∃ t, hostWriteAck ch tag false s = t ∧ (ringOf t .cq c).armd = false ∧
      Out.irq (ringOf s .cq c).w.vec (ringOwner s .cq c) ∈ t.out ∧ Changes recording s t := by
  obtain ⟨s1, hs1⟩ : ∃ s1 : State, s1 = { s with hrd := { s.hrd with wr := s.hrd.wr.filter (fun y => !(y.chan == ch && y.tag == tag)) } } :=
    ⟨_, rfl⟩
  have form : hostWriteAck ch tag false s = tagFreed (seen .cq c s1) := by
    unfold hostWriteAck
    rw [hx]
    dsimp only
    rw [hu, ← hs1]
    rfl
  have ring : ringOf s1 .cq c = ringOf s .cq c := by rw [hs1]; rfl
  have owner : ringOwner s1 .cq c = ringOwner s .cq c := by rw [hs1]; rfl
  have first : Changes [.hrd] s s1 := by rw [hs1]; exact changes_hrd _ s.out s
  have sent : seen .cq c s1 = irq (ringOf s .cq c).w.vec (ringOwner s .cq c) (setRing .cq c { ringOf s .cq c with armd := false } s1) := by
    unfold seen
    dsimp only
    rw [ring, owner, if_pos ha]
  obtain ⟨marks, changes⟩ := tagFreed_keeps (seen .cq c s1)
  have disarmed : ringOf (seen .cq c s1) .cq c = { ringOf s .cq c with armd := false } := by
    rw [sent]
    exact ringOf_setRing_same (s := s1)
  have told : Changes [.hrd] s1 (seen .cq c s1) := by
    rw [sent]
    exact Changes.emit (changes_setRingOf _ _ _ s1)
  refine ⟨_, form, ?_, marks.out _ ?_, ((first.trans told).mono (by decide)).trans changes⟩
  · rw [marks.armd, disarmed]
  · rw [sent]
    exact List.mem_append_right _ List.mem_cons_self

theorem accessTimeout_record {x : HWrite} {c m : Nat} {kd : RingKind}
    (hx : s.hrd.wr.find? (fun x => x.chan == ch && x.tag == tag) = some x) (hu : x.use = .record c kd m)
    (hr : ringRuns (ringOf s .cq c) = true) (hq : (ringOf s .cq c).quiescing = none) (hd : x.at_ + 20000 ≤ s.tim.now) :
    ∃ t, accessTimeout true ch tag s = t ∧ (ringOf t .cq c).st = .halted ∧ (ringOf t .cq c).hstat = 15 ∧ x ∈ t.hrd.lateW ∧
      bit (fltOf t 4).st 0 = true ∧ Changes faulted s t := by
  obtain ⟨s1, hs1⟩ : ∃ s1 : State, s1 = { s with hrd := { s.hrd with
      wr := s.hrd.wr.filter (fun y => !(y.chan == ch && y.tag == tag)), lateW := s.hrd.lateW ++ [x] } } := ⟨_, rfl⟩
  have form : accessTimeout true ch tag s = halt .cq c 15 1 (ringOf s .cq c).f x.addr 6 s1 := by
    unfold accessTimeout
    rw [if_pos rfl, hx]
    dsimp only
    rw [if_neg (by unfold accessLimit; omega), hu, ← hs1]
  have ring : ringOf s1 .cq c = ringOf s .cq c := by rw [hs1]; rfl
  have first : Changes [.hrd] s s1 := by rw [hs1]; exact changes_hrd _ s.out s
  have late : x ∈ s1.hrd.lateW := by rw [hs1]; exact List.mem_append_right _ List.mem_cons_self
  obtain ⟨t, htd, hst, hstat, -, hflt, -, hW, hch⟩ := haltAs_effect (s := s1) (k := .cq) (n := c) (status := 15) (cause := 1)
    (idx := (ringOf s .cq c).f) (addr := x.addr) (acc := 6) false nofun (ring ▸ hr) (ring ▸ hq)
  exact ⟨t, form.trans htd, hst, hstat, hW x late, hflt, (first.mono (by decide)).trans hch⟩

theorem accessTimeout_desc {x : HRead} {kd : RingKind} {m : Nat} (hx : readAt s ch tag = some x) (hu : x.use = .desc kd m)
    (hk : kd = .send ∨ kd = .fill) (hr : ringRuns (ringOf s kd m) = true) (hq : (ringOf s kd m).quiescing = none)
    (hd : x.at_ + 20000 ≤ s.tim.now) :
    ∃ t, accessTimeout false ch tag s = t ∧ (ringOf t kd m).st = .halted ∧ (ringOf t kd m).hstat = 15 ∧ x ∈ t.hrd.lateR ∧
      bit (fltOf t 4).st 0 = true ∧ Changes faulted s t := by
  obtain ⟨s1, hs1⟩ : ∃ s1 : State, s1 = orphanReads (fun u => u == x.use) s := ⟨_, rfl⟩
  have form : accessTimeout false ch tag s = halt kd m 15 1 (ringOf s kd m).f x.addr 6 s1 := by
    unfold accessTimeout
    rw [if_neg Bool.false_ne_true, hx]
    dsimp only
    rw [if_neg (by unfold accessLimit; omega), ← hs1, hu]
  have ring : ringOf s1 kd m = ringOf s kd m := by rw [hs1]; rfl
  have first : Changes [.hrd] s s1 := by rw [hs1]; exact changes_hrd _ s.out s
  have late : x ∈ s1.hrd.lateR := by
    rw [hs1]
    exact List.mem_append_right _ (List.mem_filter.mpr ⟨List.mem_of_find?_eq_some hx, by simp⟩)
  obtain ⟨t, htd, hst, hstat, -, hflt, hR, -, hch⟩ := haltAs_effect (s := s1) (k := kd) (n := m) (status := 15) (cause := 1)
    (idx := (ringOf s kd m).f) (addr := x.addr) (acc := 6) false (by rcases hk with rfl | rfl <;> nofun) (ring ▸ hr) (ring ▸ hq)
  exact ⟨t, form.trans htd, hst, hstat, hR x late, hflt, (first.mono (by decide)).trans hch⟩

theorem hostWriteAck_stray (err : Bool) (h : ∀ x ∈ s.hrd.wr ++ s.hrd.lateW, x.chan = ch → x.tag ≠ tag) :
    hostWriteAck ch tag err s = fault 4 3 (w32 (tag + ch * 2 ^ 9)) 2 0 0 0 s := by
  have none_ : s.hrd.wr.find? (fun x => x.chan == ch && x.tag == tag) = none :=
    List.find?_eq_none.mpr fun x hx => by simpa using h x (List.mem_append_left _ hx)
  have late : s.hrd.lateW.any (fun x => x.chan == ch && x.tag == tag) = false :=
    List.any_eq_false.mpr fun x hx => by simpa using h x (List.mem_append_right _ hx)
  unfold hostWriteAck
  rw [none_]
  dsimp only
  rw [late]
  exact if_neg Bool.false_ne_true

end

/-- Settles O38: an acknowledged record, accesses without a response, and an acknowledgement of nothing outstanding. -/
theorem hostAccesses : Obligations.HostAccesses := by
  unfold Obligations.HostAccesses
  intro s chan tag
  refine ⟨fun x c kd n hx hu => ⟨fun ha => ?_, fun hr hq hd => ?_⟩, fun x kd n hx hu hk hr hq hd => ?_, fun err h => ?_⟩
  · obtain ⟨t, form, harm, hirq, hch⟩ := hostWriteAck_record (s := begin_ s) hx hu ha
    have all := hch.of_begin
    exact ⟨t, congrArg Host.Outcome.next form, harm, hirq, all .regs (by decide), all .qbm (by decide), all .tre (by decide),
      all .cpe (by decide), all .pending (by decide)⟩
  · obtain ⟨t, form, hst, hstat, hlate, hflt, hch⟩ := accessTimeout_record (s := begin_ s) hx hu hr hq hd
    exact ⟨t, congrArg Host.Outcome.next form, hst, hstat, hlate, hflt, hch.of_begin⟩
  · obtain ⟨t, form, hst, hstat, hlate, hflt, hch⟩ := accessTimeout_desc (s := begin_ s) hx hu hk hr hq hd
    exact ⟨t, congrArg Host.Outcome.next form, hst, hstat, hlate, hflt, hch.of_begin⟩
  · have form := hostWriteAck_stray (s := begin_ s) (ch := chan.val) (tag := tag.toNat) err h
    exact ⟨_, congrArg Host.Outcome.next form, fault_st (by decide), (changes_fault _ _ _ _ _ _ _ (begin_ s)).of_begin⟩

end Sys2Proof.Machine
end

section
/-!
SUPPORT. Descriptors and commands taken from a read (R297, R300, R320, R322, R331).
-/

namespace Sys2Proof.Machine

-- one declaration at a time: the package is compiled as one text within a limit of memory
set_option Elab.async false

section
variable {s : State} {k : RingKind} {n ch tag : Nat} {r : Ring} {words : List Word}

/-! ## Reads that go on -/

theorem ringsKeep_dropRead (ch tag : Nat) (s : State) : RingsKeep [.hrd] s (dropRead ch tag s) :=
  ⟨changes_hrd _ s.out s, fun _ _ => rfl, rfl, rfl, id, fun _ => rfl, fun _ => id⟩

theorem ringsKeep_retryReads (s : State) : RingsKeep [.hrd, .cnt] s (retryReads s) := by
  have fold (l : Tab Ring) (u : State) : RingsKeep [.hrd, .cnt] u (l.foldl (fun s e =>
      let k := kindOf (e.1 / 4096)
      if (k == .send || k == .fill || k == .cmd) && e.2.st == .running && e.2.rdN == 0 && 0 < cqRoom s e.2.w.cq then
        tryFetch k (e.1 % 4096) false s
      else s) u) := by
    induction l generalizing u with
    | nil => exact .refl _ u
    | cons e l ih =>
      refine RingsKeep.trans ?_ (ih _)
      dsimp only
      split
      · exact ringsKeep_tryFetch _ _ _ u
      · exact .refl _ u
  exact (RingsKeep.mono (by decide) (ringsKeep_pumpReads _ s)).trans (fold _ _)

/-- Reading leaves a ring that does not run as it is. -/
def RestsKeep (k : RingKind) (n : Nat) (s t : State) : Prop := (ringOf s k n).st ≠ .running → ringOf t k n = ringOf s k n

theorem RestsKeep.trans {t u : State} (h : RestsKeep k n s t) (g : RestsKeep k n t u) : RestsKeep k n s u := fun hs => by
  have e := h hs
  exact (g (e ▸ hs)).trans e

theorem restsKeep_pumpReads (fuel : Nat) (s : State) : RestsKeep k n s (pumpReads fuel s) := by
  induction fuel generalizing s with
  | zero => exact fun _ => rfl
  | succ fuel ih =>
    have granted {h : Nat} {u : State} (e : grantRead h s = some u) : RestsKeep k n s u := by
      unfold grantRead at e
      split at e
      · cases e
      · cases e
        exact fun _ => rfl
    unfold pumpReads
    split
    · next e => exact (granted e).trans (ih _)
    · split
      · next e => exact (granted e).trans (ih _)
      · exact fun _ => rfl

theorem restsKeep_hostReads (l : List RdReq) (s : State) : RestsKeep k n s (hostReads l s) :=
  RestsKeep.trans (t := { s with hrd := { s.hrd with rq := s.hrd.rq ++ l } }) (fun _ => rfl) (restsKeep_pumpReads _ _)

theorem restsKeep_setRing {k' : RingKind} {n' : Nat} (h : rkey k n ≠ rkey k' n') (r : Ring) (s : State) : RestsKeep k n s (setRing k' n' r s) :=
  fun _ => ringOf_setRing_other h

theorem restsKeep_tryFetch (hk : k = .send ∨ k = .fill ∨ k = .cmd) (hn : n < kcount k) (k' : RingKind) (n' : Nat) (cover : Bool) (s : State) :
    RestsKeep k n s (tryFetch k' n' cover s) := by
  intro hs
  unfold tryFetch
  extract_lets r' want m
  by_cases hst : r'.st = .running
  · have other : rkey k n ≠ rkey k' n' := fun e => hs (by
      have same : ringOf s k n = r' := by rw [ringOf, e]; rfl
      rw [same, hst])
    split
    · rfl
    · split
      · rfl
      · split
        · unfold countR
          split
          · rw [ringOf, countO_hrd, ← ringOf]
          · rw [ringOf, countN_hrd, ← ringOf]
        · refine RestsKeep.trans ?_ (restsKeep_setRing (rkey_cq_ne hk hn r'.w) _ _) hs
          refine RestsKeep.trans ?_ (restsKeep_hostReads _ _)
          exact restsKeep_setRing other _ s
  · rw [if_pos (by simp [hst])]

theorem restsKeep_retryReads (hk : k = .send ∨ k = .fill ∨ k = .cmd) (hn : n < kcount k) (s : State) : RestsKeep k n s (retryReads s) := by
  have fold (l : Tab Ring) (u : State) : RestsKeep k n u (l.foldl (fun s e =>
      let k := kindOf (e.1 / 4096)
      if (k == .send || k == .fill || k == .cmd) && e.2.st == .running && e.2.rdN == 0 && 0 < cqRoom s e.2.w.cq then
        tryFetch k (e.1 % 4096) false s
      else s) u) := by
    induction l generalizing u with
    | nil => exact fun _ => rfl
    | cons e l ih =>
      refine RestsKeep.trans ?_ (ih _)
      dsimp only
      split
      · exact restsKeep_tryFetch hk hn _ _ _ u
      · exact fun _ => rfl
  exact RestsKeep.trans (restsKeep_pumpReads _ s) (fold _ _)

/-! ## What a read brings -/

theorem descFetch_known {x : HRead} (hx : readAt s ch tag = some x) (hu : x.use = .desc k n) (err : Bool) :
    descFetch ch tag words err s = retryReads (descDone k n x.addr words err (dropRead ch tag s)) := by
  unfold descFetch
  rw [hx]
  dsimp only
  rw [hu]

/-- One entry that the block owns and that is not a bad fill descriptor is taken. -/
theorem takeDescs_owned (hw : words.length = 8) (hb : bit (words.getD 0 0) 0 = r.ph) (hf : k = .fill → fillBad r words = false) :
    takeDescs k 1 words r = (advance { r with desc := r.desc ++ [⟨r.f, words⟩] }, .all) := by
  have all : words.take 8 = words := List.take_of_length_le (by omega)
  unfold takeDescs
  dsimp only
  rw [all, if_neg (by simpa using hb), if_neg (by
    intro h
    obtain ⟨hk, hbad⟩ := Bool.and_eq_true_iff.mp h
    rw [hf (by simpa using hk)] at hbad
    exact Bool.false_ne_true hbad)]
  rfl

theorem takeDescs_notOwned (hw : words.length = 8) (hb : bit (words.getD 0 0) 0 ≠ r.ph) : takeDescs k 1 words r = (r, .notOwned) := by
  have all : words.take 8 = words := List.take_of_length_le (by omega)
  unfold takeDescs
  dsimp only
  rw [all, if_pos (by simpa using hb)]

theorem takeDescs_bad (hw : words.length = 8) (hb : bit (words.getD 0 0) 0 = r.ph) (hf : fillBad r words = true) :
    takeDescs .fill 1 words r = (advance r, .bad r.f) := by
  have all : words.take 8 = words := List.take_of_length_le (by omega)
  unfold takeDescs
  dsimp only
  rw [all, if_neg (by simpa using hb), if_pos (by simp [hf])]

theorem fillPace_fields (r : Ring) : (fillPace r).desc = r.desc ∧ (fillPace r).f = r.f ∧ (fillPace r).ph = r.ph ∧ (fillPace r).st = r.st ∧
    (fillPace r).rdN = r.rdN ∧ (fillPace r).quiescing = r.quiescing ∧ (fillPace r).w = r.w := by
  unfold fillPace
  split
  · exact ⟨rfl, rfl, rfl, rfl, rfl, rfl, rfl⟩
  · split <;> exact ⟨rfl, rfl, rfl, rfl, rfl, rfl, rfl⟩

theorem advance_fields (r : Ring) : (advance r).desc = r.desc ∧ (advance r).st = r.st ∧ (advance r).rdN = r.rdN ∧
    (advance r).quiescing = r.quiescing ∧ (advance r).w = r.w := by
  unfold advance
  split <;> exact ⟨rfl, rfl, rfl, rfl, rfl⟩

theorem advance_desc (r : Ring) (l : List Desc) : (advance { r with desc := l }).f = (advance r).f ∧ (advance { r with desc := l }).ph = (advance r).ph := by
  unfold advance ringSize
  dsimp only
  split <;> exact ⟨rfl, rfl⟩

/-- The ring after the one entry of a read, and its completion queue. -/
def descTaken (k : RingKind) (n : Nat) (t : Ring) (stop : Bool) (s : State) : State :=
  cqReserve (ringOf s k n).w.cq (-(((ringOf s k n).rdN - (t.desc.length - (ringOf s k n).desc.length) : Nat) : Int))
    (setRing k n (fillPace { t with rdN := 0, rescan := false, st := if stop && !(ringOf s k n).rescan then .idle else .running }) s)

theorem ringsKeep_descTaken (t : Ring) (stop : Bool) : RingsKeep [.hrd] (setRing k n (fillPace { t with
    rdN := 0, rescan := false, st := if stop && !(ringOf s k n).rescan then .idle else .running }) s) (descTaken k n t stop s) :=
  ringsKeep_cqReserve _ _ _

theorem changes_descTaken (t : Ring) (stop : Bool) (s : State) : Changes [.hrd] s (descTaken k n t stop s) :=
  (changes_setRingOf _ _ _ s).trans (changes_cqReserve _ _ _)

theorem ringOf_descTaken (hk : k = .send ∨ k = .fill ∨ k = .cmd) (hn : n < kcount k) (t : Ring) (stop : Bool) (s : State) :
    ringOf (descTaken k n t stop s) k n =
      fillPace { t with rdN := 0, rescan := false, st := if stop && !(ringOf s k n).rescan then .idle else .running } := by
  unfold descTaken cqReserve
  dsimp only
  rw [ringOf_setRing_other (rkey_cq_ne hk hn _), ringOf_setRing_same]

/-- The state in which a command that was taken has started. -/
def descBegun (k : RingKind) (n : Nat) (t : Ring) (stop : Bool) (s : State) : State :=
  if k == .cmd then startCmd n (descTaken k n t stop s) else descTaken k n t stop s

theorem descDone_all (he : ringOf s k n = r) (hn : r.rdN = 1) (hq : r.quiescing = none) {t : Ring} (ht : takeDescs k 1 words r = (t, .all))
    (addr : Nat) : descDone k n addr words false s = tryFetch k n false (descBegun k n t false s) := by
  unfold descDone descBegun descTaken
  dsimp only
  rw [if_neg Bool.false_ne_true, he, hn, if_neg (by simp [hq]), ht]
  rfl

theorem descDone_notOwned (he : ringOf s k n = r) (hn : r.rdN = 1) (hq : r.quiescing = none) {t : Ring}
    (ht : takeDescs k 1 words r = (t, .notOwned)) (hr : r.rescan = false) (addr : Nat) :
    descDone k n addr words false s = descBegun k n t true s := by
  unfold descDone descBegun descTaken
  dsimp only
  rw [if_neg Bool.false_ne_true, he, hn, if_neg (by simp [hq]), ht]
  dsimp only
  rw [hr]
  rfl

theorem descDone_bad (he : ringOf s k n = r) (hn : r.rdN = 1) (hq : r.quiescing = none) {t : Ring} {i : Nat}
    (ht : takeDescs k 1 words r = (t, .bad i)) (addr : Nat) :
    descDone k n addr words false s = halt k n 14 0 i 0 0 (descBegun k n t false s) := by
  unfold descDone descBegun descTaken
  dsimp only
  rw [if_neg Bool.false_ne_true, he, hn, if_neg (by simp [hq]), ht]
  rfl

/-! ## The cases of a descriptor read -/

/-- R297: an entry that the block owns is taken. -/
theorem descDone_owned (hk : k = .send ∨ k = .fill) (hc : n < kcount k) (he : ringOf s k n = r) (hn : r.rdN = 1) (hq : r.quiescing = none)
    (hw : words.length = 8) (hb : bit (words.getD 0 0) 0 = r.ph) (hf : k = .fill → fillBad r words = false) (addr : Nat) :
    ∃ t, descDone k n addr words false s = t ∧ (ringOf t k n).desc = r.desc ++ [⟨r.f, words⟩] ∧ (ringOf t k n).f = (advance r).f ∧
      (ringOf t k n).ph = (advance r).ph ∧ Changes [.hrd, .cnt] s t := by
  have kinds : k = .send ∨ k = .fill ∨ k = .cmd := hk.imp_right .inl
  have plain : (k == .cmd) = false := by rcases hk with rfl | rfl <;> rfl
  refine ⟨_, descDone_all he hn hq (takeDescs_owned hw hb hf) addr, ?_⟩
  rw [descBegun, if_neg (by simp [plain])]
  have ring := ringOf_descTaken kinds hc (advance { r with desc := r.desc ++ [⟨r.f, words⟩] }) false s
  have taken := changes_descTaken (k := k) (n := n) (advance { r with desc := r.desc ++ [⟨r.f, words⟩] }) false s
  generalize descTaken k n (advance { r with desc := r.desc ++ [⟨r.f, words⟩] }) false s = u at ring taken
  have kept := ringsKeep_tryFetch k n false u
  have same := kept.ring k n
  rw [ring] at same
  obtain ⟨adesc, -⟩ := advance_fields { r with desc := r.desc ++ [⟨r.f, words⟩] }
  obtain ⟨af, aph⟩ := advance_desc r (r.desc ++ [⟨r.f, words⟩])
  have pace (x : Ring) := fillPace_fields x
  refine ⟨?_, ?_, ?_, (taken.mono (by decide)).trans kept.changes⟩
  · exact (Ring.eq_of_sansFetch Ring.desc (fun _ => rfl) same).trans ((pace _).1.trans adesc)
  · exact (Ring.eq_of_sansFetch Ring.f (fun _ => rfl) same).trans ((pace _).2.1.trans af)
  · exact (Ring.eq_of_sansFetch Ring.ph (fun _ => rfl) same).trans ((pace _).2.2.1.trans aph)

/-- R300: an entry that is not the block's ends the taking, and the ring idles. -/
theorem descDone_idle (hk : k = .send ∨ k = .fill) (hc : n < kcount k) (he : ringOf s k n = r) (hn : r.rdN = 1) (hq : r.quiescing = none)
    (hw : words.length = 8) (hb : bit (words.getD 0 0) 0 ≠ r.ph) (hr : r.rescan = false) (addr : Nat) :
    ∃ t, descDone k n addr words false s = t ∧ (ringOf t k n).desc = r.desc ∧ (ringOf t k n).f = r.f ∧ (ringOf t k n).st = .idle ∧
      (ringOf t k n).rdN = 0 ∧ Changes [.hrd] s t := by
  have kinds : k = .send ∨ k = .fill ∨ k = .cmd := hk.imp_right .inl
  have plain : (k == .cmd) = false := by rcases hk with rfl | rfl <;> rfl
  refine ⟨_, descDone_notOwned he hn hq (takeDescs_notOwned hw hb) hr addr, ?_⟩
  rw [descBegun, if_neg (by simp [plain]), ringOf_descTaken kinds hc]
  have pace (x : Ring) := fillPace_fields x
  refine ⟨(pace _).1, (pace _).2.1, (pace _).2.2.2.1.trans ?_, (pace _).2.2.2.2.1, changes_descTaken _ _ s⟩
  rw [he, hr]
  rfl

/-- R300, R322: a command that is taken becomes the running one. -/
theorem descDone_cmd (hc : n < kcount .cmd) (he : ringOf s .cmd n = r) (hn : r.rdN = 1) (hq : r.quiescing = none)
    (hw : words.length = 8) (hb : bit (words.getD 0 0) 0 = r.ph) (hd : r.desc = []) (ho : knownOp (fld (words.getD 0 0) 8 8) = true)
    (addr : Nat) :
    ∃ t, descDone .cmd n addr words false s = t ∧ tFind n t.hrd.cmd = some ⟨r.f, none, words, [], []⟩ ∧
      (ringOf t .cmd n).f = (advance r).f ∧ Changes [.hrd, .cnt] s t := by
  refine ⟨_, descDone_all he hn hq (takeDescs_owned hw hb nofun) addr, ?_⟩
  rw [descBegun, if_pos (show (RingKind.cmd == RingKind.cmd) = true from rfl)]
  have ring := ringOf_descTaken (.inr (.inr rfl)) hc (advance { r with desc := r.desc ++ [⟨r.f, words⟩] }) false s
  have taken := changes_descTaken (k := .cmd) (n := n) (advance { r with desc := r.desc ++ [⟨r.f, words⟩] }) false s
  generalize descTaken .cmd n (advance { r with desc := r.desc ++ [⟨r.f, words⟩] }) false s = u at ring taken
  obtain ⟨adesc, -⟩ := advance_fields { r with desc := r.desc ++ [⟨r.f, words⟩] }
  obtain ⟨af, aph⟩ := advance_desc r (r.desc ++ [⟨r.f, words⟩])
  have pace (x : Ring) := fillPace_fields x
  have desc : (ringOf u .cmd n).desc = [⟨r.f, words⟩] := by rw [ring, (pace _).1, adesc, hd]; rfl
  have findex : (ringOf u .cmd n).f = (advance r).f := by rw [ring, (pace _).2.1, af]
  have started : startCmd n u = setRing .cmd n { ringOf u .cmd n with desc := [] }
      { u with hrd := { u.hrd with cmd := tPut n ⟨r.f, none, words, [], []⟩ u.hrd.cmd } } := by
    unfold startCmd
    dsimp only
    rw [desc]
    exact if_pos ho
  have begun : Changes [.hrd] u (startCmd n u) := by
    rw [started]
    exact (changes_hrd _ u.out u).trans (changes_setRingOf _ _ _ _)
  have kept := ringsKeep_tryFetch .cmd n false (startCmd n u)
  refine ⟨?_, ?_, ((taken.trans begun).mono (by decide)).trans kept.changes⟩
  · rw [kept.cmd, started]
    exact tFind_tPut_same _ _ _
  · rw [Ring.eq_of_sansFetch Ring.f (fun _ => rfl) (kept.ring .cmd n), started, ringOf_setRing_same]
    exact findex

/-- R307: a bad fill descriptor halts its ring. -/
theorem descDone_fillBad (hc : n < kcount .fill) (he : ringOf s .fill n = r) (hn : r.rdN = 1) (hq : r.quiescing = none)
    (hw : words.length = 8) (hb : bit (words.getD 0 0) 0 = r.ph) (hf : fillBad r words = true) (addr : Nat) :
    ∃ t, descDone .fill n addr words false s = t ∧ (ringOf t .fill n).st = .halted ∧ (ringOf t .fill n).hstat = 14 ∧
      (ringOf t .fill n).hindex = r.f ∧ bit (fltOf t 4).st 0 = true ∧ Changes faulted s t := by
  have ring := ringOf_descTaken (.inr (.inl rfl)) hc (advance r) false s
  have taken := changes_descTaken (k := .fill) (n := n) (advance r) false s
  have form := descDone_bad he hn hq (takeDescs_bad hw hb hf) addr
  rw [descBegun, if_neg (by decide)] at form
  generalize descTaken .fill n (advance r) false s = u at ring taken form
  obtain ⟨-, -, -, aq, -⟩ := advance_fields r
  obtain ⟨-, -, -, pst, -, pq, -⟩ := fillPace_fields { advance r with rdN := 0, rescan := false, st := if false && !(ringOf s .fill n).rescan then .idle else .running }
  obtain ⟨t, halted, hst, hstat, hidx, hflt, -, -, hch⟩ := haltAs_effect (s := u) (k := .fill) (n := n) (status := 14) (cause := 0) (idx := r.f)
    (addr := 0) (acc := 0) false nofun (by rw [ringRuns, ring, pst]; rfl) (by rw [ring, pq]; exact aq.trans hq)
  exact ⟨t, form.trans halted, hst, hstat, hidx, hflt, (taken.mono (by decide)).trans hch⟩

/-- R331: a failed read halts its ring. -/
theorem descDone_failed (hk : k = .send ∨ k = .fill) (he : ringOf s k n = r) (hr : ringRuns r = true) (hq : r.quiescing = none) (addr : Nat) :
    ∃ t, descDone k n addr words true s = t ∧ (ringOf t k n).st = .halted ∧ (ringOf t k n).hstat = 15 ∧ (ringOf t k n).hindex = r.f ∧
      bit (fltOf t 4).st 0 = true ∧ Changes faulted s t := by
  have form : descDone k n addr words true s = halt k n 15 2 r.f addr 1 s := by
    unfold descDone
    dsimp only
    rw [if_pos rfl, he]
  obtain ⟨t, halted, hst, hstat, hidx, hflt, -, -, hch⟩ := haltAs_effect (s := s) (k := k) (n := n) (status := 15) (cause := 2) (idx := r.f)
    (addr := addr) (acc := 1) false (by rcases hk with rfl | rfl <;> nofun) (he ▸ hr) (he ▸ hq)
  exact ⟨t, form.trans halted, hst, hstat, hidx, hflt, hch⟩

/-- Reads that go on after a halt leave it. -/
theorem retryReads_halted {t : State} (h : bit (fltOf t 4).st 0 = true) : (ringOf (retryReads t) k n).st = (ringOf t k n).st ∧
    (ringOf (retryReads t) k n).hstat = (ringOf t k n).hstat ∧ (ringOf (retryReads t) k n).hindex = (ringOf t k n).hindex ∧
    bit (fltOf (retryReads t) 4).st 0 = true ∧ Changes faulted t (retryReads t) := by
  have kept := ringsKeep_retryReads t
  have flt : (retryReads t).flt = t.flt := kept.changes .flt (by decide)
  refine ⟨Ring.eq_of_sansFetch Ring.st (fun _ => rfl) (kept.ring k n), Ring.eq_of_sansFetch Ring.hstat (fun _ => rfl) (kept.ring k n),
    Ring.eq_of_sansFetch Ring.hindex (fun _ => rfl) (kept.ring k n), ?_, kept.changes.mono (by decide)⟩
  rw [fltOf, flt]
  exact h

theorem strayRead_effect (err : Bool) (hn : readAt s ch tag = none) (hl : ∀ x ∈ s.hrd.lateR, x.chan = ch → x.tag ≠ tag) :
    descFetch ch tag words err s = fault 4 3 (w32 (tag + ch * 2 ^ 9)) 1 0 0 0 s := by
  have late : s.hrd.lateR.any (fun x => x.chan == ch && x.tag == tag) = false := List.any_eq_false.mpr fun x hx => by simpa using hl x hx
  unfold descFetch
  rw [hn]
  exact if_neg (by rw [late]; exact Bool.false_ne_true)

end

/-- Settles O34: descriptors and commands that a read brings, failed reads, and responses to nothing outstanding. -/
theorem descriptorsArrive : Obligations.DescriptorsArrive := by
  unfold Obligations.DescriptorsArrive
  refine ⟨fun s chan tag x kind n words r hx hu hc he hn hr hq hw => ?_, fun s chan tag words err hn hl => ?_⟩
  · have dropped := (ringsKeep_dropRead chan.val tag.toNat (begin_ s)).changes.of_begin
    have ring : ringOf (dropRead chan.val tag.toNat (begin_ s)) kind n = r := he.symm
    have form (err : Bool) := descFetch_known (s := begin_ s) (words := words) hx hu err
    generalize dropRead chan.val tag.toNat (begin_ s) = u at dropped ring form
    have runs (err : Bool) : Runs (.descriptorFetchDone chan tag words err) s (retryReads (descDone kind n x.addr words err u)) :=
      congrArg Host.Outcome.next (form err)
    have run {err : Bool} {t : State} (h : descDone kind n x.addr words err u = t) :
        Runs (.descriptorFetchDone chan tag words err) s (retryReads t) := h ▸ runs err
    refine ⟨fun hk hb hf => ?_, fun hk hb hre => ?_, fun hk hb hd ho => ?_, fun hk hb hf => ?_, fun hk => ?_⟩
    · obtain ⟨t, done, hdesc, hfi, hph, hch⟩ := descDone_owned hk hc ring hn hq hw hb hf x.addr
      have kept := ringsKeep_retryReads t
      exact ⟨_, run done, (Ring.eq_of_sansFetch Ring.desc (fun _ => rfl) (kept.ring kind n)).trans hdesc,
        (Ring.eq_of_sansFetch Ring.f (fun _ => rfl) (kept.ring kind n)).trans hfi,
        (Ring.eq_of_sansFetch Ring.ph (fun _ => rfl) (kept.ring kind n)).trans hph,
        (dropped.mono (by decide)).trans (hch.trans kept.changes)⟩
    · obtain ⟨t, done, hdesc, hfi, hst, hrd, hch⟩ := descDone_idle hk hc ring hn hq hw hb hre x.addr
      have rests := restsKeep_retryReads (k := kind) (n := n) (hk.imp_right .inl) hc t (by rw [hst]; nofun)
      have kept := ringsKeep_retryReads t
      refine ⟨_, run done, ?_, ?_, ?_, ?_, (dropped.mono (by decide)).trans ((hch.mono (by decide)).trans kept.changes)⟩
      all_goals rw [rests]; assumption
    · subst hk
      obtain ⟨t, done, hcmd, hfi, hch⟩ := descDone_cmd hc ring hn hq hw hb hd ho x.addr
      have kept := ringsKeep_retryReads t
      exact ⟨_, run done, by rw [kept.cmd]; exact hcmd, (Ring.eq_of_sansFetch Ring.f (fun _ => rfl) (kept.ring .cmd n)).trans hfi,
        (dropped.mono (by decide)).trans (hch.trans kept.changes)⟩
    · subst hk
      obtain ⟨t, done, hst, hstat, hidx, hflt, hch⟩ := descDone_fillBad hc ring hn hq hw hb hf x.addr
      obtain ⟨rst, rstat, ridx, rflt, rch⟩ := retryReads_halted (k := .fill) (n := n) hflt
      exact ⟨_, run done, rst.trans hst, rstat.trans hstat, ridx.trans hidx, rflt, (dropped.mono (by decide)).trans (hch.trans rch)⟩
    · obtain ⟨t, done, hst, hstat, hidx, hflt, hch⟩ := descDone_failed (words := words) hk ring hr hq x.addr
      obtain ⟨rst, rstat, ridx, rflt, rch⟩ := retryReads_halted (k := kind) (n := n) hflt
      exact ⟨_, run done, rst.trans hst, rstat.trans hstat, ridx.trans hidx, rflt, (dropped.mono (by decide)).trans (hch.trans rch)⟩
  · exact ⟨_, congrArg Host.Outcome.next (strayRead_effect (s := begin_ s) err hn hl), fault_st (by decide),
      (changes_fault _ _ _ _ _ _ _ (begin_ s)).of_begin⟩

end Sys2Proof.Machine
end

section
/-!
SUPPORT. Commands that take effect, or are refused, and answer at once (R87, R110, R117, R125, R132, R133, R150, R243, R275, R282, R288, R322,
R333).
-/

namespace Sys2Proof.Machine

-- one declaration at a time: the package is compiled as one text within a limit of memory
set_option Elab.async false

section
variable {part : BitVec 6} {i : Instr} {w : Option CmdWait} {status cause result : Nat} {s u : State} {l : List Comp}

/-! ## Answers -/

/-- What leaves the rings, the ownership of the queues and what has crossed the edge alone leaves the answer of a command as it is. -/
theorem answersAlike_of_changes (h : Changes l s u) (p : Nat) (h1 : Comp.hrd ∉ l := by decide) (h2 : Comp.regs ∉ l := by decide)
    (h3 : Comp.glb ∉ l := by decide) : AnswersAlike p s u := by
  have hrd : u.hrd = s.hrd := h .hrd h1
  have regs : u.regs = s.regs := h .regs h2
  have glb : u.glb = s.glb := h .glb h3
  have ring (k : RingKind) (n : Nat) : ringOf u k n = ringOf s k n := ringOf_of_ring (by rw [hrd]) k n
  exact
    { ring := by rw [ring]
      cq := by rw [cmdCq, ring, ring]
      owner := fun c => by simp [ringOwner, prtOwner, reg, regs, glb]
      cmd := by rw [hrd]
      fenced := by rw [hrd]
      wq := fun h => by rw [hrd]; exact h
      tags := fun h => by unfold wrTags; rw [hrd] }

/-- A command that has its turn and answers once `u` is its effect. -/
theorem commandAnswers (hr : CmdReady part.toNat w s) (h : Changes l (begin_ s) u) (h1 : Comp.hrd ∉ l := by decide)
    (h2 : Comp.regs ∉ l := by decide) (h3 : Comp.glb ∉ l := by decide) :
    Answered part.toNat status cause result s (completeCmd part.toNat status cause result u) ∧
    Changes [.hrd, .cnt] u (completeCmd part.toNat status cause result u) := by
  have alike := (answersAlike_begin part.toNat s).trans (answersAlike_of_changes h part.toNat h1 h2 h3)
  exact ⟨answered_of_alike hr alike, changes_completeCmd (part_lt part) (hr.alike alike)⟩

/-- A command on what another partition owns has no effect and answers OK. -/
theorem ownedCmd_foreign (hr : CmdReady part.toNat w s) {owns : Bool} (ho : owns = false) (f : State → State) :
    ∃ t, ownedCmd part.toNat owns f (begin_ s) = t ∧ Answered part.toNat 0 0 0 s t ∧ Changes [.hrd, .cnt] s t := by
  have viol := changes_partViol part.toNat (begin_ s)
  obtain ⟨answered, changes⟩ := commandAnswers (status := 0) (cause := 0) (result := 0) hr viol
  exact ⟨_, by rw [ownedCmd, if_neg (by simp [ho])], answered, ((viol.mono (by decide)).trans changes).of_begin⟩

theorem ownedCmd_owned {p : Nat} {owns : Bool} (ho : owns = true) (f : State → State) : ownedCmd p owns f s = f s := if_pos ho

/-- A command that is refused. -/
theorem refused (hr : CmdReady part.toNat w s) :
    Answered part.toNat status cause result s (completeCmd part.toNat status cause result (begin_ s)) ∧
    Changes [.hrd, .cnt] s (completeCmd part.toNat status cause result (begin_ s)) := by
  obtain ⟨answered, changes⟩ := commandAnswers (status := status) (cause := cause) (result := result) hr (changes_refl [] (begin_ s))
  exact ⟨answered, changes.of_begin⟩

theorem chnOf_of_chn {t : State} (h : t.chn = s.chn) (n : Nat) : chnOf t n = chnOf s n := by rw [chnOf, h, ← chnOf]

end

/-! ## ALLOC_SET and QUEUE_SET (R132, R133, R243) -/

section
variable {part : BitVec 6} {s : State} {t h q : Nat} {w : W4}

theorem allocSet_taken (ho : ownsTree s part.toNat t = true) (hp : s.glb.pend = []) (hc : allocCause s t h w = 0) :
    allocSet part.toNat t h w s = completeCmd part.toNat 0 0 0 (putAlloc t h w s) := by
  unfold allocSet
  rw [ownedCmd_owned ho]
  dsimp only
  rw [if_neg (by simp [hc]), hp]
  rfl

theorem allocSet_refused (ho : ownsTree s part.toNat t = true) (hc : allocCause s t h w ≠ 0) :
    allocSet part.toNat t h w s = completeCmd part.toNat 32 (allocCause s t h w) 0 s := by
  unfold allocSet
  rw [ownedCmd_owned ho]
  exact if_pos hc

theorem queueSet_taken (ho : ownsTree s part.toNat t = true) (hc : queueCause s (2048 * t + q) w = 0) :
    queueSet part.toNat t q w s = completeCmd part.toNat 0 0 0 (putCtx (2048 * t + q) w s) := by
  unfold queueSet
  rw [ownedCmd_owned ho]
  exact if_neg (by simp [hc])

theorem queueSet_refused (ho : ownsTree s part.toNat t = true) (hc : queueCause s (2048 * t + q) w ≠ 0) :
    queueSet part.toNat t q w s = completeCmd part.toNat 34 (queueCause s (2048 * t + q) w) 0 s := by
  unfold queueSet
  rw [ownedCmd_owned ho]
  exact if_pos hc

end

/-- Settles O41: ALLOC_SET and QUEUE_SET that wait for their boundary, that are refused, and that name another partition's tree. -/
theorem allocAndQueueCommands : Obligations.AllocAndQueueCommands := by
  unfold Obligations.AllocAndQueueCommands
  refine fun s part tree => ⟨fun hnd w turn => ⟨fun ho => ?_, fun ho hs hp => ⟨fun hc => ?_, fun c hc h0 => ?_⟩⟩,
    fun queue w turn ho hs => ⟨fun hc => ?_, fun c hc h0 => ?_⟩⟩
  · obtain ⟨t, form, answered, changes⟩ := ownedCmd_foreign (owns := ownsTree (begin_ s) part.toNat tree.toNat) turn.ready ho _
    exact ⟨t, congrArg Host.Outcome.next ((cmdGo_turn turn _).trans form), answered, changes⟩
  · have put : putAlloc tree.toNat hnd.toNat w (begin_ s) =
        modChn tree.toNat (fun c => { c with allocPend := c.allocPend ++ [(hnd.toNat, cleanAlloc w)] }) (begin_ s) := if_pos hs
    have form := allocSet_taken (s := begin_ s) (part := part) (h := hnd.toNat) (w := w) ho hp hc
    rw [put] at form
    have set := changes_modChn tree.toNat (fun c => { c with allocPend := c.allocPend ++ [(hnd.toNat, cleanAlloc w)] }) (begin_ s)
    have same := chnOf_modChn_same tree.toNat (fun c => { c with allocPend := c.allocPend ++ [(hnd.toNat, cleanAlloc w)] }) (begin_ s)
    have other (u : Nat) (hu : u ≠ tree.toNat) :=
      chnOf_modChn_other hu (fun c => { c with allocPend := c.allocPend ++ [(hnd.toNat, cleanAlloc w)] }) (begin_ s)
    generalize modChn tree.toNat (fun c => { c with allocPend := c.allocPend ++ [(hnd.toNat, cleanAlloc w)] }) (begin_ s) = u at *
    obtain ⟨answered, changes⟩ := commandAnswers (status := 0) (cause := 0) (result := 0) turn.ready set
    have chn (n : Nat) := chnOf_of_chn (changes .chn (by decide)) n
    refine ⟨_, congrArg Host.Outcome.next ((cmdGo_turn turn _).trans form), answered, ?_, ?_, fun n hn => ?_,
      ((set.mono (by decide)).trans (changes.mono (by decide))).of_begin⟩
    · rw [chn, same]
      rfl
    · rw [chn, same]
      rfl
    · rw [chn, other n hn]
      rfl
  · subst hc
    have form := allocSet_refused (s := begin_ s) (part := part) ho h0
    obtain ⟨answered, changes⟩ := refused (status := 32) (cause := allocCause s tree.toNat hnd.toNat w) (result := 0) turn.ready
    exact ⟨_, congrArg Host.Outcome.next ((cmdGo_turn turn _).trans form), answered, changes⟩
  · have put : putCtx (2048 * tree.toNat + queue.toNat) w (begin_ s) = { begin_ s with
        qbm := { s.qbm with ctxPend := s.qbm.ctxPend ++ [(2048 * tree.toNat + queue.toNat, cleanCtx w)] } } := if_pos hs
    have form := queueSet_taken (s := begin_ s) (part := part) ho hc
    rw [put] at form
    have set := changes_qbm { s.qbm with ctxPend := s.qbm.ctxPend ++ [(2048 * tree.toNat + queue.toNat, cleanCtx w)] } (begin_ s)
    obtain ⟨answered, changes⟩ := commandAnswers (status := 0) (cause := 0) (result := 0) turn.ready set
    exact ⟨_, congrArg Host.Outcome.next ((cmdGo_turn turn _).trans form), answered, changes .qbm (by decide),
      ((set.mono (by decide)).trans (changes.mono (by decide))).of_begin⟩
  · subst hc
    have form := queueSet_refused (s := begin_ s) (part := part) ho h0
    obtain ⟨answered, changes⟩ := refused (status := 34) (cause := queueCause s (2048 * tree.toNat + queue.toNat) w) (result := 0) turn.ready
    exact ⟨_, congrArg Host.Outcome.next ((cmdGo_turn turn _).trans form), answered, changes⟩

end Sys2Proof.Machine
end

section
/-!
SUPPORT. The commands about terminals (R110, R117, R125, R150).
-/

namespace Sys2Proof.Machine

-- one declaration at a time: the package is compiled as one text within a limit of memory
set_option Elab.async false

section
variable {part : BitVec 6} {s : State} {t tid op : Nat} {serial : BitVec 64} {a : Ann}

/-! ## ADMIT -/

/-- R110: the serial leaves the heard list and is admitted to the terminal. -/
def admitted (t tid : Nat) (serial : BitVec 64) (a : Ann) (s : State) : State :=
  modCtx t tid (fun c => { c with admitAnn := some a })
    (setTre t { treOf s t with heard := (treOf s t).heard.filter (fun x => x.serial != serial) } s)

theorem admitCmd_taken (h0 : tid ≠ 0) (ho : ownsTree s part.toNat t = true) (hf : (treOf s t).heard.find? (fun a => a.serial == serial) = some a)
    (hu : (ctxOf s t tid).state = .unknown) (ha : (ctxOf s t tid).admitAnn = none) (hp : tFind tid (treOf s t).pre = none) :
    admitCmd part.toNat t tid serial s = completeCmd part.toNat 0 0 0 (admitted t tid serial a s) := by
  unfold admitCmd
  rw [if_neg h0, ownedCmd_owned ho]
  dsimp only
  rw [hf]
  dsimp only
  rw [if_neg (by simp [hu, ha]), if_neg (by simp [hp])]
  rfl

theorem admitted_effect : (ctxOf (admitted t tid serial a s) t tid).admitAnn = some a ∧
    (∀ x ∈ (treOf (admitted t tid serial a s) t).heard, x.serial ≠ serial) ∧
    (∀ i, i ≠ tid → ctxOf (admitted t tid serial a s) t i = ctxOf s t i) ∧ Changes [.tre] s (admitted t tid serial a s) := by
  unfold admitted
  have set := changes_setTre t { treOf s t with heard := (treOf s t).heard.filter (fun x => x.serial != serial) } s
  have same := treOf_setTre_same t { treOf s t with heard := (treOf s t).heard.filter (fun x => x.serial != serial) } s
  generalize setTre t { treOf s t with heard := (treOf s t).heard.filter (fun x => x.serial != serial) } s = u at set same
  have heard : (treOf (modCtx t tid (fun c => { c with admitAnn := some a }) u) t).heard = (treOf u t).heard :=
    (congrArg Tre.heard (treOf_modTre_same t _ u)).trans rfl
  refine ⟨?_, fun x hx => ?_, fun i hi => ?_, set.trans (changes_modTre t _ u)⟩
  · rw [ctxOf_modCtx_same]
  · rw [heard, same] at hx
    simpa using (List.mem_filter.mp hx).2
  · rw [ctxOf_modCtx_other hi, ctxOf, same, ← ctxOf]

/-! ## The state commands (Table 4-2) -/

/-- A command that is kept for the cut-off. -/
def commanded (op t tid : Nat) (s : State) : State :=
  modCtx t tid (fun c => { c with cmds := if c.cmds.contains op then c.cmds else c.cmds ++ [op] }) s

theorem terminalCmd_taken (h0 : tid ≠ 0) (ho : ownsTree s part.toNat t = true) (hs : stateTakes s t tid op = true) :
    terminalCmd op part.toNat t tid s = completeCmd part.toNat 0 0 0 (commanded op t tid s) := by
  unfold terminalCmd
  rw [if_neg h0, ownedCmd_owned ho]
  exact if_pos hs

theorem terminalCmd_refused (h0 : tid ≠ 0) (ho : ownsTree s part.toNat t = true) (hs : stateTakes s t tid op = false) :
    terminalCmd op part.toNat t tid s = completeCmd part.toNat 43 0 0 s := by
  unfold terminalCmd
  rw [if_neg h0, ownedCmd_owned ho]
  exact if_neg (by simp [hs])

theorem commanded_effect : op ∈ (ctxOf (commanded op t tid s) t tid).cmds ∧
    ctxOf (commanded op t tid s) t tid = { ctxOf s t tid with cmds := (ctxOf (commanded op t tid s) t tid).cmds } ∧
    (∀ i, i ≠ tid → ctxOf (commanded op t tid s) t i = ctxOf s t i) ∧ Changes [.tre] s (commanded op t tid s) := by
  have same : ctxOf (commanded op t tid s) t tid =
      { ctxOf s t tid with cmds := if (ctxOf s t tid).cmds.contains op then (ctxOf s t tid).cmds else (ctxOf s t tid).cmds ++ [op] } :=
    ctxOf_modCtx_same ..
  refine ⟨?_, by rw [same], fun i hi => ctxOf_modCtx_other hi .., changes_modTre t _ s⟩
  rw [same]
  show op ∈ (if _ then _ else _)
  split
  · next h => simpa using h
  · exact List.mem_append_right _ List.mem_cons_self

/-- What runs for the row of a state command, and the states of Table 4-2 (and R125) in which it is taken. -/
theorem stateCommand {tree : BitVec 6} {tid : BitVec 10} {c : Instr} {op : Nat} {take : TState → Bool}
    (h : c = .activate part tree tid ∧ op = 0x21 ∧ take = (fun x => x == .keyed || (x == .ranged && treF s tree.toNat 0x1C 1 1 == 0)) ∨
      c = .quiet part tree tid ∧ op = 0x22 ∧ take = (fun x => x == .active) ∨
      c = .resume part tree tid ∧ op = 0x23 ∧ take = (fun x => x == .quiet) ∨
      c = .release part tree tid ∧ op = 0x24 ∧ take = (fun x => x != .unknown && x != .released) ∨
      c = .disable part tree tid ∧ op = 0x25 ∧ take = (fun x => x != .unknown && x != .released) ∨
      c = .rerange part tree tid ∧ op = 0x26 ∧ take = (fun x => x == .ranged || x == .keyed || x == .active)) :
    exec c s = .next (cmdGo part c (terminalCmd op part.toNat tree.toNat tid.toNat) (begin_ s)) ∧
    stateTakes (begin_ s) tree.toNat tid.toNat op = take (ctxOf s tree.toNat tid.toNat).state := by
  rcases h with ⟨rfl, rfl, rfl⟩ | ⟨rfl, rfl, rfl⟩ | ⟨rfl, rfl, rfl⟩ | ⟨rfl, rfl, rfl⟩ | ⟨rfl, rfl, rfl⟩ | ⟨rfl, rfl, rfl⟩ <;> exact ⟨rfl, rfl⟩

theorem discNow_owned (ho : ownsTree s part.toNat t = true) :
    discNow part.toNat t s = completeCmd part.toNat 0 0 0 (modChn t (fun c => { c with discNow := true }) s) := by
  unfold discNow
  exact ownedCmd_owned ho _

theorem ctxOf_after {u : State} (h : u.tre = s.tre) (t i : Nat) : ctxOf u t i = ctxOf s t i := by
  unfold ctxOf
  rw [treOf_of_tre h]

end

/-- Settles O42: ADMIT, the six state commands taken and refused, and DISC_NOW. -/
theorem terminalCommands : Obligations.TerminalCommands := by
  unfold Obligations.TerminalCommands
  intro s part tree tid ho h0
  have hid : tid.toNat ≠ 0 := fun h => h0 (BitVec.eq_of_toNat_eq h)
  refine ⟨fun serial a turn hf hu ha hp => ?_, fun c op take hc turn => ?_, fun turn => ?_⟩
  · have form := admitCmd_taken (s := begin_ s) (part := part) hid ho hf hu ha hp
    obtain ⟨hann, hheard, hother, set⟩ := admitted_effect (s := begin_ s) (t := tree.toNat) (tid := tid.toNat) (serial := serial) (a := a)
    generalize admitted tree.toNat tid.toNat serial a (begin_ s) = u at *
    obtain ⟨answered, changes⟩ := commandAnswers (status := 0) (cause := 0) (result := 0) turn.ready set
    have tre : (completeCmd part.toNat 0 0 0 u).tre = u.tre := changes .tre (by decide)
    refine ⟨_, congrArg Host.Outcome.next ((cmdGo_turn turn _).trans form), answered, ?_, ?_, fun i hi => ?_,
      ((set.mono (by decide)).trans (changes.mono (by decide))).of_begin⟩
    · rw [ctxOf_after tre]
      exact hann
    · rw [treOf_of_tre tre]
      exact hheard
    · rw [ctxOf_after tre]
      exact hother i hi
  · obtain ⟨run, takes⟩ := stateCommand hc
    rw [cmdGo_turn turn] at run
    refine ⟨fun h => ?_, fun h => ?_⟩
    · rw [terminalCmd_taken (s := begin_ s) hid ho (takes.trans h)] at run
      obtain ⟨hop, hctx, hother, set⟩ := commanded_effect (s := begin_ s) (op := op) (t := tree.toNat) (tid := tid.toNat)
      generalize commanded op tree.toNat tid.toNat (begin_ s) = u at *
      obtain ⟨answered, changes⟩ := commandAnswers (status := 0) (cause := 0) (result := 0) turn.ready set
      have tre : (completeCmd part.toNat 0 0 0 u).tre = u.tre := changes .tre (by decide)
      refine ⟨_, run, answered, ?_, ?_, fun i hi => ?_, ((set.mono (by decide)).trans (changes.mono (by decide))).of_begin⟩
      · rw [ctxOf_after tre]
        exact hop
      · rw [ctxOf_after tre]
        exact hctx
      · rw [ctxOf_after tre]
        exact hother i hi
    · rw [terminalCmd_refused (s := begin_ s) hid ho (takes.trans h)] at run
      obtain ⟨answered, changes⟩ := refused (status := 43) (cause := 0) (result := 0) turn.ready
      exact ⟨_, run, answered, changes⟩
  · have form := discNow_owned (s := begin_ s) (part := part) (t := tree.toNat) ho
    have set := changes_modChn tree.toNat (fun c => { c with discNow := true }) (begin_ s)
    have same := chnOf_modChn_same tree.toNat (fun c => { c with discNow := true }) (begin_ s)
    have other (u : Nat) (hu : u ≠ tree.toNat) := chnOf_modChn_other hu (fun c => { c with discNow := true }) (begin_ s)
    generalize modChn tree.toNat (fun c => { c with discNow := true }) (begin_ s) = u at *
    obtain ⟨answered, changes⟩ := commandAnswers (status := 0) (cause := 0) (result := 0) turn.ready set
    have chn (n : Nat) := chnOf_of_chn (changes .chn (by decide)) n
    refine ⟨_, congrArg Host.Outcome.next ((cmdGo_turn turn _).trans form), answered, ?_, fun n hn => ?_,
      ((set.mono (by decide)).trans (changes.mono (by decide))).of_begin⟩
    · rw [chn, same]
      rfl
    · rw [chn, other n hn]
      rfl

end Sys2Proof.Machine
end

section
/-!
SUPPORT. KEY_SWITCH, commands that wait for a place, KEY_ERASE and KEY_LUT (R87, R275, R282, R288).
-/

namespace Sys2Proof.Machine

-- one declaration at a time: the package is compiled as one text within a limit of memory
set_option Elab.async false

section
variable {part : BitVec 6} {s : State} {t tid ksel n tick : Nat} {m : Tmm}

/-! ## The places of commands (R87) -/

/-- The state in which a command's message has got its place. -/
def tmmPlaced (t : Nat) (m : Tmm) (s : State) : State := wake (domTP t) 1 (modTre t (fun r => { r with tmmq := r.tmmq ++ [m] }) s)

theorem tmmPlaced_effect : (treOf (tmmPlaced t m s) t).tmmq = (treOf s t).tmmq ++ [m] ∧ Changes [.tre, .pwr] s (tmmPlaced t m s) := by
  have set := changes_modTre t (fun r => { r with tmmq := r.tmmq ++ [m] }) s
  have same := treOf_modTre_same t (fun r => { r with tmmq := r.tmmq ++ [m] }) s
  unfold tmmPlaced
  generalize modTre t (fun r => { r with tmmq := r.tmmq ++ [m] }) s = u at set same
  refine ⟨?_, (set.mono (by decide)).trans ((changes_wake _ _ u).mono (by decide))⟩
  rw [treOf_of_tre (wake_tre _ _ u), same]

theorem pushCmdTmm_placed (h : tmmRoomFree s t = true) : pushCmdTmm part.toNat t m s = completeCmd part.toNat 0 0 0 (tmmPlaced t m s) := if_pos h

theorem pushCmdTmm_waits (h : tmmRoomFree s t = false) :
    pushCmdTmm part.toNat t m s = count1 (iTRE t) 34 (setWait part.toNat (.tmmRoom t m) s) := if_neg (by simp [h])

/-- A message that gets its place answers its command. -/
theorem placed_answers {w : Option CmdWait} {u : State} (hr : CmdReady part.toNat w s) (h : Changes [.tre] (begin_ s) u) :
    Answered part.toNat 0 0 0 s (completeCmd part.toNat 0 0 0 (tmmPlaced t m u)) ∧
    (treOf (completeCmd part.toNat 0 0 0 (tmmPlaced t m u)) t).tmmq = (treOf u t).tmmq ++ [m] ∧
    Changes [.tre, .hrd, .cnt, .pwr] s (completeCmd part.toNat 0 0 0 (tmmPlaced t m u)) := by
  obtain ⟨queue, put⟩ := tmmPlaced_effect (s := u) (t := t) (m := m)
  generalize tmmPlaced t m u = v at *
  have all : Changes [.tre, .pwr] (begin_ s) v := (h.mono (by decide)).trans put
  obtain ⟨answered, changes⟩ := commandAnswers (status := 0) (cause := 0) (result := 0) hr all
  refine ⟨answered, ?_, ((all.mono (by decide)).trans (changes.mono (by decide))).of_begin⟩
  rw [treOf_of_tre (changes .tre (by decide)), queue]

/-! ## KEY_SWITCH (R288) -/

/-- The message of KEY_SWITCH. -/
def switchMsg (t tid ksel : Nat) (s : State) : Tmm :=
  { type := 9, seq := (treOf s t).seq, tgt := tid, tid := tid, body := BitVec.ofNat 8 ksel :: List.replicate 39 0,
    tickAt := some 1, cmd := true, sent := 0, reps := 0, acked := true, full := [] }

/-- The state in which its SEQ is taken. -/
def seqTaken (t : Nat) (s : State) : State := modTre t (fun r => { r with seq := r.seq + 1 }) s

theorem seqTaken_effect : (treOf (seqTaken t s) t).tmmq = (treOf s t).tmmq ∧ Changes [.tre] s (seqTaken t s) :=
  ⟨(congrArg Tre.tmmq (treOf_modTre_same t _ s)).trans rfl, changes_modTre t _ s⟩

theorem keySwitchCmd_loaded (h0 : tid ≠ 0) (hk : ksel = 1 ∨ ksel = 2) (ho : ownsTree s part.toNat t = true)
    (hl : (slotOf s (slotNo t tid ksel)).state = 1) :
    keySwitchCmd part.toNat t tid ksel s = pushCmdTmm part.toNat t (switchMsg t tid ksel s) (seqTaken t s) := by
  unfold keySwitchCmd
  rw [if_neg (by omega), ownedCmd_owned ho]
  exact if_neg (by simp [hl])

theorem keySwitchCmd_notLoaded (h0 : tid ≠ 0) (hk : ksel = 1 ∨ ksel = 2) (ho : ownsTree s part.toNat t = true)
    (hl : (slotOf s (slotNo t tid ksel)).state ≠ 1) : keySwitchCmd part.toNat t tid ksel s = completeCmd part.toNat 38 0 0 s := by
  unfold keySwitchCmd
  rw [if_neg (by omega), ownedCmd_owned ho]
  exact if_pos hl

theorem tmmRoomFree_seqTaken : tmmRoomFree (seqTaken t s) t = tmmRoomFree s t := by
  unfold tmmRoomFree
  rw [seqTaken_effect.1]

theorem tmmCmdQueued_waiting {w : Option CmdWait} (hr : CmdReady part.toNat w s) (hw : w = some (.tmmRoom t m)) :
    tmmCmdQueued part.toNat s = if tmmRoomFree s t then completeCmd part.toNat 0 0 0 (tmmPlaced t m s) else s := by
  subst hw
  obtain ⟨c, hc, hw⟩ := hr.cmd
  unfold tmmCmdQueued
  rw [hc]
  dsimp only [Option.bind]
  rw [hw]
  rfl

/-! ## KEY_LUT (R282) -/

theorem keyLutCmd_owned (ho : ownsTree s part.toNat (n / 2048) = true) : keyLutCmd part.toNat n tick s =
    completeCmd part.toNat 0 0 0 (setSlot n { slotOf s n with lutD := max (slotOf s n).lutD tick, lutU := max (slotOf s n).lutU tick } s) := by
  unfold keyLutCmd
  exact ownedCmd_owned ho _

end

section
variable {s : State} {part tree : BitVec 6} {tid : BitVec 10} {ksel : BitVec 2} {slot : BitVec 17}

theorem switchMsg_fields (t tid : Nat) (ksel : BitVec 2) (s : State) : (switchMsg t tid ksel.toNat s).type = 9 ∧ (switchMsg t tid ksel.toNat s).tgt = tid ∧
    byteAt (switchMsg t tid ksel.toNat s).body 0 = ksel.toNat ∧ (switchMsg t tid ksel.toNat s).cmd = true ∧
    (switchMsg t tid ksel.toNat s).acked = true := by
  refine ⟨rfl, rfl, ?_, rfl, rfl⟩
  show (BitVec.ofNat 8 ksel.toNat).toNat = ksel.toNat
  rw [BitVec.toNat_ofNat]
  have := ksel.isLt
  omega

/-- KEY_SWITCH of a loaded key as its row runs it. -/
theorem runs_keySwitch (turn : CmdTurn part (.keySwitch part tree tid ksel) s) (ho : ownsTree s part.toNat tree.toNat = true) (h0 : tid ≠ 0)
    (hk : ksel = 1 ∨ ksel = 2) (hl : (slotOf s (slotNo tree.toNat tid.toNat ksel.toNat)).state = 1) :
    Runs (.keySwitch part tree tid ksel) s
      (pushCmdTmm part.toNat tree.toNat (switchMsg tree.toNat tid.toNat ksel.toNat (begin_ s)) (seqTaken tree.toNat (begin_ s))) :=
  congrArg Host.Outcome.next ((cmdGo_turn turn _).trans (keySwitchCmd_loaded (s := begin_ s) (fun h => h0 (BitVec.eq_of_toNat_eq h))
    (by rcases hk with rfl | rfl; exacts [.inl rfl, .inr rfl]) ho hl))

/-- R87: a KEY_SWITCH that waits for a place. -/
theorem keySwitch_waits (turn : CmdTurn part (.keySwitch part tree tid ksel) s) (ho : ownsTree s part.toNat tree.toNat = true) (h0 : tid ≠ 0)
    (hk : ksel = 1 ∨ ksel = 2) (hl : (slotOf s (slotNo tree.toNat tid.toNat ksel.toNat)).state = 1) (hroom : tmmRoomFree s tree.toNat = false) :
    ∃ t m, Runs (.keySwitch part tree tid ksel) s t ∧ Waits part.toNat (.tmmRoom tree.toNat m) t ∧ m.type = 9 ∧ m.tgt = tid.toNat ∧
      (treOf t tree.toNat).tmmq = (treOf s tree.toNat).tmmq ∧ t.out = [] ∧ Changes [.tre, .hrd, .cnt] s t := by
  have run := runs_keySwitch turn ho h0 hk hl
  rw [pushCmdTmm_waits ((tmmRoomFree_seqTaken (s := begin_ s)).trans hroom)] at run
  obtain ⟨htype, htgt, -⟩ := switchMsg_fields tree.toNat tid.toNat ksel (begin_ s)
  obtain ⟨queue, set⟩ := seqTaken_effect (s := begin_ s) (t := tree.toNat)
  have cmd : (seqTaken tree.toNat (begin_ s)).hrd.cmd = s.hrd.cmd := rfl
  have out : (seqTaken tree.toNat (begin_ s)).out = [] := rfl
  generalize seqTaken tree.toNat (begin_ s) = u at *
  generalize switchMsg tree.toNat tid.toNat ksel.toNat (begin_ s) = m at *
  obtain ⟨c, hc, -⟩ := turn.ready.cmd
  obtain ⟨⟨d, hd, hw⟩, -, hout, hch⟩ := setWait_running (p := part.toNat) (w := .tmmRoom tree.toNat m) (s := u) (c := c) (by rw [cmd]; exact hc)
  generalize setWait part.toNat (.tmmRoom tree.toNat m) u = v at *
  have counted := changes_count1 (iTRE tree.toNat) 34 v
  have all := ((set.mono (l' := [.tre, .hrd, .cnt]) (by decide)).trans (hch.mono (by decide))).trans (counted.mono (by decide))
  refine ⟨_, m, run, ⟨d, by rw [count1_hrd]; exact hd, hw⟩, htype, htgt, ?_, by rw [count1_out, hout, out], all.of_begin⟩
  rw [treOf_of_tre (counted .tre (by decide)), treOf_of_tre (hch .tre (by decide)), queue]
  rfl

/-- R275: KEY_ERASE issues its key write. -/
theorem keyErase_issued (turn : CmdTurn part (.keyErase part slot) s) (ho : ownsTree s part.toNat (slot.toNat / 2048) = true)
    (hr : keyReady s slot.toNat = true) : ∃ t, Runs (.keyErase part slot) s t ∧ Waits part.toNat (.keyAck slot.toNat) t ∧
      t.cpe.keyq = s.cpe.keyq ++ [⟨slot.toNat, false, false, nextGen s slot.toNat, some part.toNat, s.tim.now⟩] ∧
      t.cpe.slot = s.cpe.slot ∧ Changes [.cpe, .hrd] s t := by
  obtain ⟨c, hc, -⟩ := turn.ready.cmd
  obtain ⟨hq, hcmd, hslot, hch⟩ := keyCommand_ready (s := begin_ s) (load := false) (klen := false) (key := []) hc hr
  exact ⟨_, congrArg Host.Outcome.next ((cmdGo_turn turn _).trans (ownedCmd_owned (s := begin_ s) ho _)), ⟨_, hcmd, rfl⟩, hq, hslot, hch.of_begin⟩

/-- R282: KEY_LUT raises both last-used ticks. -/
theorem keyLut_raised {tick : BitVec 48} (turn : CmdTurn part (.keyLut part slot tick) s) (ho : ownsTree s part.toNat (slot.toNat / 2048) = true) :
    ∃ t, Runs (.keyLut part slot tick) s t ∧ Answered part.toNat 0 0 0 s t ∧
      (slotOf t slot.toNat).lutD = max (slotOf s slot.toNat).lutD tick.toNat ∧
      (slotOf t slot.toNat).lutU = max (slotOf s slot.toNat).lutU tick.toNat ∧
      (slotOf t slot.toNat).state = (slotOf s slot.toNat).state ∧ (slotOf t slot.toNat).gen = (slotOf s slot.toNat).gen ∧
      (∀ n, n ≠ slot.toNat → slotOf t n = slotOf s n) ∧ Changes [.cpe, .hrd, .cnt] s t := by
  have form := keyLutCmd_owned (s := begin_ s) (part := part) (tick := tick.toNat) ho
  have set : Changes [.cpe] (begin_ s) (setSlot slot.toNat { slotOf (begin_ s) slot.toNat with
    lutD := max (slotOf (begin_ s) slot.toNat).lutD tick.toNat, lutU := max (slotOf (begin_ s) slot.toNat).lutU tick.toNat } (begin_ s)) :=
    changes_cpe _ _
  have same := slotOf_setSlot_same (s := begin_ s) (n := slot.toNat) { slotOf (begin_ s) slot.toNat with
    lutD := max (slotOf (begin_ s) slot.toNat).lutD tick.toNat, lutU := max (slotOf (begin_ s) slot.toNat).lutU tick.toNat }
  have other {n : Nat} (hn : n ≠ slot.toNat) := slotOf_setSlot_other (s := begin_ s) { slotOf (begin_ s) slot.toNat with
    lutD := max (slotOf (begin_ s) slot.toNat).lutD tick.toNat, lutU := max (slotOf (begin_ s) slot.toNat).lutU tick.toNat } hn
  generalize setSlot slot.toNat _ (begin_ s) = u at *
  obtain ⟨answered, changes⟩ := commandAnswers (status := 0) (cause := 0) (result := 0) turn.ready set
  have slots (n : Nat) := slotOf_of_cpe (changes .cpe (by decide)) n
  refine ⟨_, congrArg Host.Outcome.next ((cmdGo_turn turn _).trans form), answered, ?_, ?_, ?_, ?_, fun n hn => ?_,
    ((set.mono (by decide)).trans (changes.mono (by decide))).of_begin⟩
  iterate 4 rw [slots, same]; rfl
  rw [slots, other hn]
  rfl

end

/-- Settles O43: KEY_SWITCH, a command that waits for a place, KEY_ERASE and KEY_LUT. -/
theorem messageAndKeyCommands : Obligations.MessageAndKeyCommands := by
  unfold Obligations.MessageAndKeyCommands
  refine ⟨fun s part tree tid ksel => ⟨fun turn ho h0 hk => ⟨fun hl hroom => ?_, keySwitch_waits turn ho h0 hk, fun hl => ?_⟩,
    fun m ready => ⟨fun hroom => ?_, fun hroom => ?_⟩⟩,
    fun s part slot => ⟨fun turn ho hr => keyErase_issued turn ho hr, fun turn ho => ?_, fun tick turn => ⟨fun ho => keyLut_raised turn ho, fun ho => ?_⟩⟩⟩
  · have run := runs_keySwitch turn ho h0 hk hl
    rw [pushCmdTmm_placed ((tmmRoomFree_seqTaken (s := begin_ s)).trans hroom)] at run
    obtain ⟨htype, htgt, hbyte, hcmd, hack⟩ := switchMsg_fields tree.toNat tid.toNat ksel (begin_ s)
    obtain ⟨queue, set⟩ := seqTaken_effect (s := begin_ s) (t := tree.toNat)
    obtain ⟨answered, placed, changes⟩ := placed_answers (t := tree.toNat) (m := switchMsg tree.toNat tid.toNat ksel.toNat (begin_ s)) turn.ready set
    exact ⟨_, _, run, answered, by rw [placed, queue]; rfl, htype, htgt, hbyte, hcmd, hack, changes⟩
  · have form := keySwitchCmd_notLoaded (s := begin_ s) (part := part) (fun h => h0 (BitVec.eq_of_toNat_eq h))
      (by rcases hk with rfl | rfl; exacts [.inl rfl, .inr rfl]) ho hl
    obtain ⟨answered, changes⟩ := refused (status := 38) (cause := 0) (result := 0) turn.ready
    exact ⟨_, congrArg Host.Outcome.next ((cmdGo_turn turn _).trans form), answered, changes⟩
  · have form := tmmCmdQueued_waiting (ready.alike (answersAlike_begin part.toNat s)) rfl
    rw [if_pos (show tmmRoomFree (begin_ s) tree.toNat = true from hroom)] at form
    obtain ⟨answered, placed, changes⟩ := placed_answers (t := tree.toNat) (m := m) ready (changes_refl [.tre] (begin_ s))
    exact ⟨_, congrArg Host.Outcome.next form, answered, placed, changes⟩
  · have form := tmmCmdQueued_waiting (ready.alike (answersAlike_begin part.toNat s)) rfl
    rw [if_neg (by rw [show tmmRoomFree (begin_ s) tree.toNat = false from hroom]; exact Bool.false_ne_true)] at form
    exact congrArg Host.Outcome.next form
  · obtain ⟨t, form, answered, changes⟩ := ownedCmd_foreign (owns := ownsSlot (begin_ s) part.toNat slot.toNat) turn.ready ho _
    exact ⟨t, congrArg Host.Outcome.next ((cmdGo_turn turn _).trans form), answered, changes⟩
  · obtain ⟨t, form, answered, changes⟩ := ownedCmd_foreign (owns := ownsSlot (begin_ s) part.toNat slot.toNat) turn.ready ho _
    exact ⟨t, congrArg Host.Outcome.next ((cmdGo_turn turn _).trans form), answered, changes⟩

end Sys2Proof.Machine
end

section
/-!
SUPPORT. Commands that read an operand from host memory (R216, R275, R317, R322, R491).
-/

namespace Sys2Proof.Machine

-- one declaration at a time: the package is compiled as one text within a limit of memory
set_option Elab.async false

/-! ## Bursts that all leave at once (R316, R317) -/

theorem pickMin_perm {α : Type} {ok : α → Bool} {m : α → Nat} {l l' : List α} {b : α} (h : pickMin ok m l = some (b, l')) :
    l.Perm (b :: l') ∧ ok b = true := by
  induction l generalizing b l' with
  | nil => cases h
  | cons x l ih =>
    unfold pickMin at h
    split at h
    · split at h
      · cases h
        exact ⟨.refl _, ‹_›⟩
      · cases h
    · next y l1 e =>
      obtain ⟨perm, hy⟩ := ih e
      split at h
      · next hx =>
        cases h
        exact ⟨.refl _, (Bool.and_eq_true_iff.mp hx).1⟩
      · cases h
        exact ⟨(perm.cons x).trans (.swap _ _ _), hy⟩

theorem pickMin_some {α : Type} {ok : α → Bool} {m : α → Nat} {l : List α} {b : α} (hb : b ∈ l) (h : ok b = true) :
    ∃ c l', pickMin ok m l = some (c, l') := by
  cases e : pickMin ok m l with
  | some x => exact ⟨x.1, x.2, rfl⟩
  | none =>
    exfalso
    induction l with
    | nil => cases hb
    | cons x l ih =>
      unfold pickMin at e
      split at e
      · next e' =>
        rcases List.mem_cons.mp hb with rfl | hl
        · simp [h] at e
        · exact ih hl e'
      · split at e <;> cases e

theorem freeTag_isSome {busy : List Nat} (h : busy.length < 512) : (freeTag busy).isSome = true := by
  unfold freeTag
  rw [List.find?_isSome]
  by_contra hn
  push Not at hn
  have sub : List.range 512 ⊆ busy := fun x hx => by simpa using hn x hx
  have := (List.nodup_range.subperm sub).length_le
  rw [List.length_range] at this
  omega

section
variable {s u : State} {b : RdReq} {l : List RdReq}

/-- What crosses the edge when a burst is granted. -/
def burstOut (b : RdReq) (h tag : Nat) : Out := .hostRead h tag (b.addr / 64 * 64) (ceilDiv (b.addr % 64 + b.len) 64) b.part b.snoop

/-- A burst that may be granted: one of those that wait is, and takes one tag of its channel. -/
theorem grantRead_one {h : Nat} (hb : b ∈ s.hrd.rq) (hr : rdReady s h b = true) :
    ∃ u c l tag, grantRead h s = some u ∧ s.hrd.rq.Perm (c :: l) ∧ hmpChan c.addr = h ∧ u.hrd.rq = l ∧ u.out = s.out ++ [burstOut c h tag] ∧
      u.hrd.fenced = s.hrd.fenced ∧ (∀ d, rdOut u d ≤ rdOut s d + 1) ∧ (∀ h, (rdTags u h).length ≤ (rdTags s h).length + 1) := by
  obtain ⟨c, l, hp⟩ := pickMin_some (m := fun b => turnOf s h 0 b.dch b.ring) hb hr
  obtain ⟨perm, hc⟩ := pickMin_perm hp
  unfold grantRead
  rw [hp]
  refine ⟨_, c, l, (freeTag (rdTags s h)).getD 0, rfl, perm, ?_, rfl, rfl, rfl, fun d => ?_, fun g => ?_⟩
  · simp only [rdReady, Bool.and_eq_true, beq_iff_eq] at hc
    exact hc.1.1.1
  · show ((s.hrd.rd ++ [_]).filter _).length + (s.hrd.lateR.filter _).length ≤ _
    unfold rdOut
    rw [List.filter_append, List.length_append]
    have := List.length_filter_le (fun x : HRead => x.dch == d) [⟨h, (freeTag (rdTags s h)).getD 0, c.addr, c.len, c.dch, c.use, s.tim.now⟩]
    simp only [List.length_cons, List.length_nil] at this
    omega
  · show (((s.hrd.rd ++ [(⟨h, (freeTag (rdTags s h)).getD 0, c.addr, c.len, c.dch, c.use, s.tim.now⟩ : HRead)]).filter (·.chan == g)).map (·.tag) ++
      (s.hrd.lateR.filter (·.chan == g)).map (·.tag)).length ≤ (rdTags s g).length + 1
    generalize (freeTag (rdTags s h)).getD 0 = tag
    unfold rdTags
    rw [List.filter_append, List.map_append, List.length_append, List.length_append, List.length_append, List.length_map, List.length_map]
    have := List.length_filter_le (fun x : HRead => x.chan == g) [⟨h, tag, c.addr, c.len, c.dch, c.use, s.tim.now⟩]
    simp only [List.length_cons, List.length_nil] at this
    omega

theorem grantRead_none {h : Nat} (hn : ∀ b ∈ s.hrd.rq, rdReady s h b = false) : grantRead h s = none := by
  unfold grantRead
  rw [pickMin_none hn]

/-- R316, R317: bursts of one channel that has room for them all leave at once. -/
theorem pumpReads_all (d : Nat) (fuel : Nat) (s : State) (hl : s.hrd.rq.length = fuel) (hd : ∀ b ∈ s.hrd.rq, b.dch = d)
    (hf : s.hrd.fenced.contains d = false) (ho : rdOut s d + fuel ≤ 32) (ht : ∀ h, (rdTags s h).length + fuel ≤ 512) :
    (pumpReads fuel s).out.length = s.out.length + fuel ∧ (∀ o ∈ s.out, o ∈ (pumpReads fuel s).out) ∧
      ∀ b ∈ s.hrd.rq, ∃ tag, burstOut b (hmpChan b.addr) tag ∈ (pumpReads fuel s).out := by
  induction fuel generalizing s with
  | zero =>
    rw [List.length_eq_zero_iff] at hl
    rw [hl]
    exact ⟨rfl, fun _ => id, nofun⟩
  | succ fuel ih =>
    have ready {b : RdReq} (hb : b ∈ s.hrd.rq) : rdReady s (hmpChan b.addr) b = true := by
      have free := freeTag_isSome (busy := rdTags s (hmpChan b.addr)) (by have := ht (hmpChan b.addr); omega)
      unfold rdReady
      rw [hd b hb, free, hf, decide_eq_true (by omega)]
      simp
    have go {h : Nat} {u : State} {c : RdReq} {l : List RdReq} {tag : Nat} (perm : s.hrd.rq.Perm (c :: l)) (hc : hmpChan c.addr = h)
        (rq : u.hrd.rq = l) (out : u.out = s.out ++ [burstOut c h tag]) (fenced : u.hrd.fenced = s.hrd.fenced)
        (outs : ∀ d, rdOut u d ≤ rdOut s d + 1) (tags : ∀ h, (rdTags u h).length ≤ (rdTags s h).length + 1) :
        (pumpReads fuel u).out.length = s.out.length + (fuel + 1) ∧ (∀ o ∈ s.out, o ∈ (pumpReads fuel u).out) ∧
        ∀ b ∈ s.hrd.rq, ∃ tag, burstOut b (hmpChan b.addr) tag ∈ (pumpReads fuel u).out := by
      have len := perm.length_eq
      rw [List.length_cons] at len
      obtain ⟨hlen, hmono, hall⟩ := ih u (by rw [rq]; omega) (fun b hb => hd b (perm.mem_iff.mpr (List.mem_cons_of_mem _ (rq ▸ hb))))
        (fenced ▸ hf) (by have := outs d; omega) (fun h => by have := tags h; have := ht h; omega)
      refine ⟨by rw [hlen, out, List.length_append, List.length_singleton]; omega,
        fun o ho => hmono o (by rw [out]; exact List.mem_append_left _ ho), fun b hb => ?_⟩
      rcases List.mem_cons.mp (perm.mem_iff.mp hb) with rfl | hb'
      · exact ⟨tag, hmono _ (by rw [out, hc]; exact List.mem_append_right _ List.mem_cons_self)⟩
      · exact hall b (rq ▸ hb')
    unfold pumpReads
    by_cases h0 : ∃ b ∈ s.hrd.rq, rdReady s 0 b = true
    · obtain ⟨b, hb, hr⟩ := h0
      obtain ⟨u, c, l, tag, grant, perm, hc, rq, out, fenced, outs, tags⟩ := grantRead_one hb hr
      rw [grant]
      exact go perm hc rq out fenced outs tags
    · push Not at h0
      rw [grantRead_none fun b hb => by simpa using h0 b hb]
      obtain ⟨b, hb⟩ : ∃ b, b ∈ s.hrd.rq := List.exists_mem_of_length_pos (by omega)
      have one : hmpChan b.addr = 1 := (hmpChan_cases b.addr).resolve_left fun e => h0 b hb (e ▸ ready hb)
      obtain ⟨u, c, l, tag, grant, perm, hc, rq, out, fenced, outs, tags⟩ := grantRead_one hb (one ▸ ready hb)
      dsimp only
      rw [grant]
      exact go perm hc rq out fenced outs tags

theorem ring_pumpReads (fuel : Nat) (s : State) : (pumpReads fuel s).hrd.ring = s.hrd.ring := by
  induction fuel generalizing s with
  | zero => rfl
  | succ fuel ih =>
    have granted {h : Nat} {u : State} (e : grantRead h s = some u) : u.hrd.ring = s.hrd.ring := by
      unfold grantRead at e
      split at e
      · cases e
      · cases e
        rfl
    unfold pumpReads
    split
    · next e => exact (ih _).trans (granted e)
    · split
      · next e => exact (ih _).trans (granted e)
      · rfl

end

/-! ## Operands (R322) -/

section
variable {s : State} {p addr n : Nat} {w : CmdWait} {part : BitVec 6} {i : Instr}

/-- The requests that read `n` bytes for the command of a partition. -/
def operandReqs (p addr n : Nat) (use : Nat → RdUse) (r : Ring) : List RdReq :=
  (bursts (n / 512 + 2) addr n).map fun b => ⟨r.w.chan, rkey .cmd p, b.1, b.2, p, r.w.snoop, use (b.1 - addr)⟩

/-- A command that reads host memory waits, and where its channel is free every burst has left. -/
theorem reads_wait {c : CmdRun} (hc : tFind p s.hrd.cmd = some c) (ho : s.out = []) (use : Nat → RdUse) :
    Waits p w (hostReads (operandReqs p addr n use (ringOf s .cmd p)) (setWait p w s)) ∧
    (ReadReady p addr n s → ReadsSent p addr n s (hostReads (operandReqs p addr n use (ringOf s .cmd p)) (setWait p w s))) ∧
    (hostReads (operandReqs p addr n use (ringOf s .cmd p)) (setWait p w s)).hrd.ring = s.hrd.ring ∧
    Changes [.hrd] s (hostReads (operandReqs p addr n use (ringOf s .cmd p)) (setWait p w s)) := by
  have set : setWait p w s = { s with hrd := { s.hrd with cmd := tPut p { c with wait := some w, got := [], recs := [] } s.hrd.cmd } } := by
    unfold setWait
    rw [hc]
  have waits : Waits p w (setWait p w s) := by
    rw [set]
    exact ⟨_, tFind_tPut_same _ _ _, rfl⟩
  have same : (setWait p w s).hrd.rq = s.hrd.rq ∧ (setWait p w s).hrd.fenced = s.hrd.fenced ∧ (setWait p w s).hrd.ring = s.hrd.ring ∧
      (∀ d, rdOut (setWait p w s) d = rdOut s d) ∧ (∀ h, rdTags (setWait p w s) h = rdTags s h) ∧ (setWait p w s).out = [] := by
    rw [set]
    exact ⟨rfl, rfl, rfl, fun _ => rfl, fun _ => rfl, ho⟩
  have set1 : Changes [.hrd] s (setWait p w s) := by
    rw [set]
    exact changes_hrd _ s.out s
  generalize setWait p w s = u at *
  obtain ⟨rq, fenced, ring, outs, tags, out⟩ := same
  have kept := ringsKeep_hostReads (operandReqs p addr n use (ringOf s .cmd p)) u
  refine ⟨?_, fun ready => ?_, (ring_pumpReads _ _).trans ring, set1.trans kept.changes⟩
  · obtain ⟨d, hd, hw⟩ := waits
    exact ⟨d, by rw [kept.cmd]; exact hd, hw⟩
  · obtain ⟨hrq, hf, hrd, htag⟩ := ready
    have len : (operandReqs p addr n use (ringOf s .cmd p)).length = (bursts (n / 512 + 2) addr n).length := List.length_map _
    have form : hostReads (operandReqs p addr n use (ringOf s .cmd p)) u = pumpReads (bursts (n / 512 + 2) addr n).length
        { u with hrd := { u.hrd with rq := operandReqs p addr n use (ringOf s .cmd p) } } := by
      unfold hostReads
      rw [rq, hrq, List.nil_append, List.length_nil, Nat.zero_add, len]
    obtain ⟨hlen, -, hall⟩ := pumpReads_all (ringOf s .cmd p).w.chan (bursts (n / 512 + 2) addr n).length
      { u with hrd := { u.hrd with rq := operandReqs p addr n use (ringOf s .cmd p) } } len
      (fun b hb => by obtain ⟨x, -, rfl⟩ := List.mem_map.mp hb; rfl) (by rw [← fenced] at hf; exact hf)
      (by rw [← outs] at hrd; exact hrd) (fun h => by have := htag h; rw [← tags] at this; exact this)
    rw [form]
    refine ⟨by rw [hlen]; show u.out.length + _ = _; rw [out]; exact Nat.zero_add _, fun b hb => ?_⟩
    obtain ⟨tag, hm⟩ := hall _ (List.mem_map.mpr ⟨b, hb, rfl⟩)
    exact ⟨tag, hm⟩

/-- A command that has its turn and reads an operand. -/
theorem operandRead_sent (turn : CmdTurn part i s) (ready : ReadReady part.toNat addr n s) :
    ∃ t, operandRead part.toNat addr n w (begin_ s) = t ∧ Waits part.toNat w t ∧ ReadsSent part.toNat addr n s t ∧
      t.hrd.ring = s.hrd.ring ∧ Changes [.hrd] s t := by
  obtain ⟨c, hc, -⟩ := turn.ready.cmd
  obtain ⟨waits, sent, ring, changes⟩ := reads_wait (s := begin_ s) (p := part.toNat) (addr := addr) (n := n) (w := w) hc rfl (.operand part.toNat)
  exact ⟨_, rfl, waits, sent ready, ring, changes.of_begin⟩

end

/-- Settles O44: the operand reads of TMM_SEND, KEY_LOAD, EM_ADD, EM_MOD and EM_DEL, and the image reads of OVERLAY_APPLY. -/
theorem operandReads : Obligations.OperandReads := by
  unfold Obligations.OperandReads
  intro s part addr
  refine ⟨fun tree tid turn ho ready => ?_, fun slot klen turn ho ready => ?_, fun dir turn hp ready => ?_, fun dir turn hp ready => ?_,
    fun dir turn hp ready => ?_, fun img count turn hp hi hc hs hn ha => ?_⟩
  · obtain ⟨t, form, rest⟩ := operandRead_sent (w := .tmm tree.toNat tid.toNat addr.toNat) turn ready
    exact ⟨t, congrArg Host.Outcome.next ((cmdGo_turn turn _).trans ((ownedCmd_owned (s := begin_ s) ho _).trans form)), rest⟩
  · obtain ⟨t, form, rest⟩ := operandRead_sent (w := .keyRead slot.toNat klen addr.toNat) turn ready
    exact ⟨t, congrArg Host.Outcome.next ((cmdGo_turn turn _).trans ((ownedCmd_owned (s := begin_ s) ho _).trans form)), rest⟩
  · subst hp
    obtain ⟨t, form, rest⟩ := operandRead_sent (w := .em 0 dir addr.toNat) turn ready
    exact ⟨t, congrArg Host.Outcome.next ((cmdGo_turn turn _).trans form), rest⟩
  · subst hp
    obtain ⟨t, form, rest⟩ := operandRead_sent (w := .em 1 dir addr.toNat) turn ready
    exact ⟨t, congrArg Host.Outcome.next ((cmdGo_turn turn _).trans form), rest⟩
  · subst hp
    obtain ⟨t, form, rest⟩ := operandRead_sent (w := .em 2 dir addr.toNat) turn ready
    exact ⟨t, congrArg Host.Outcome.next ((cmdGo_turn turn _).trans form), rest⟩
  · subst hp
    obtain ⟨c, hcmd, -⟩ := turn.ready.cmd
    obtain ⟨waits, sent, ring, changes⟩ := reads_wait (s := begin_ s) (p := 0) (addr := addr.toNat) (n := 16 * count.toNat)
      (w := .image img.toNat addr.toNat count.toNat false) hcmd rfl (.image 0)
    have aligned : addr.toNat / 16 * 16 = addr.toNat := by omega
    have some_ : count.toNat ≠ 0 := fun h => hc (BitVec.eq_of_toNat_eq h)
    have accepted : ¬(count.toNat = 0 ∨ (s.tim.started = true ∧ 65536 < count.toNat) ∨
        ((!s.tim.started) = true ∧ (img.toNat ≠ 0 ∨ 1048576 < count.toNat))) := by
      rintro (h | ⟨h, hx⟩ | ⟨h, hx⟩)
      · exact some_ h
      · have := hs h
        omega
      · obtain ⟨rfl, hx'⟩ := hn (by simpa using h)
        rcases hx with hx | hx
        · exact hx rfl
        · omega
    have form : overlayCmd 0 img.toNat (addr.toNat / 16 * 16) count.toNat (begin_ s) =
        hostReads (operandReqs 0 addr.toNat (16 * count.toNat) (.image 0) (ringOf (begin_ s) .cmd 0))
          (setWait 0 (.image img.toNat addr.toNat count.toNat false) (begin_ s)) := by
      unfold overlayCmd
      rw [if_neg (by simp), if_neg (by omega), if_neg (c := _ ∨ ((begin_ s).tim.started = true ∧ _) ∨ ((!(begin_ s).tim.started) = true ∧ _)) accepted, aligned]
      unfold imageReads operandReqs
      rw [show 16 * count.toNat / 512 = count.toNat / 32 by omega]
      have ring : ringOf (setWait 0 (.image img.toNat addr.toNat count.toNat false) (begin_ s)) .cmd 0 = ringOf (begin_ s) .cmd 0 :=
        (setWait_running (s := begin_ s) hcmd).2.1 .cmd 0
      dsimp only
      rw [ring]
    exact ⟨_, congrArg Host.Outcome.next ((cmdGo_turn turn _).trans form), waits, sent, ring, changes.of_begin⟩

end Sys2Proof.Machine
end

section
/-!
SUPPORT. The classifier's pages: the swap, the copy that follows it and words that no replica reads clean (R233 to R235).
-/

namespace Sys2Proof.Machine

-- one declaration at a time: the package is compiled as one text within a limit of memory
set_option Elab.async false

/-! ## Tables taken apart and put together -/

section
variable {α : Type}

theorem tFind_append (k : Nat) (t l : Tab α) : tFind k (t ++ l) = (tFind k t).or (tFind k l) := by
  induction t with
  | nil => rfl
  | cons e t ih =>
    obtain ⟨j, v⟩ := e
    show (if j = k then some v else tFind k (t ++ l)) = Option.or (if j = k then some v else tFind k t) _
    split
    · rfl
    · exact ih

theorem tFind_filter_kept {k : Nat} {q : Nat → Bool} (h : q k = true) (t : Tab α) : tFind k (t.filter fun e => q e.1) = tFind k t := by
  induction t with
  | nil => rfl
  | cons e t ih =>
    obtain ⟨j, v⟩ := e
    rw [List.filter_cons]
    by_cases hj : j = k
    · subst hj
      rw [if_pos h]
      simp [tFind]
    · split <;> simp only [tFind, if_neg hj, ih]

theorem tFind_none {k : Nat} {t : Tab α} (h : ∀ e ∈ t, e.1 ≠ k) : tFind k t = none := by
  cases e : tFind k t with
  | none => rfl
  | some v => exact absurd rfl (h _ (mem_of_tFind e))

/-- A table whose keys all move, by a function that keeps them apart from the key looked up. -/
theorem tFind_map {f : Nat → Nat} {k : Nat} {t : Tab α} (h : ∀ e ∈ t, f e.1 = f k → e.1 = k) :
    tFind (f k) (t.map fun e => (f e.1, e.2)) = tFind k t := by
  induction t with
  | nil => rfl
  | cons e t ih =>
    obtain ⟨j, v⟩ := e
    have ih := ih fun e he => h e (List.mem_cons_of_mem _ he)
    have hj : f j = f k → j = k := h (j, v) List.mem_cons_self
    show (if f j = f k then some v else tFind (f k) _) = if j = k then some v else tFind k t
    by_cases e : j = k
    · rw [if_pos e, if_pos (congrArg f e)]
    · rw [if_neg e, if_neg (mt hj e), ih]

theorem tPut_last {k : Nat} (v : α) {t : Tab α} (h : ∀ e ∈ t, e.1 < k) : tPut k v t = t ++ [(k, v)] := by
  induction t with
  | nil => rfl
  | cons e t ih =>
    obtain ⟨j, w⟩ := e
    have hj : j < k := h (j, w) List.mem_cons_self
    rw [tPut, if_neg (by omega), if_neg (by omega), ih fun e he => h e (List.mem_cons_of_mem _ he)]
    rfl

theorem tRising_append {t l : Tab α} (h : tRising (t ++ l) = true) : ∀ e ∈ t, ∀ x ∈ l, e.1 < x.1 := by
  induction t with
  | nil => nofun
  | cons a t ih =>
    rintro e he x hx
    rcases List.mem_cons.mp he with rfl | he
    · exact tRising_lt h x (List.mem_append_right _ hx)
    · exact ih (tRising_tail h) e he x hx

theorem foldl_tPut {t l : Tab α} (h : tRising (t ++ l) = true) : l.foldl (fun t e => tPut e.1 e.2 t) t = t ++ l := by
  induction l generalizing t with
  | nil => rw [List.append_nil]; rfl
  | cons x l ih =>
    have last := tPut_last x.2 fun e he => tRising_append h e he x List.mem_cons_self
    rw [List.foldl_cons, last, ih (by rw [List.append_assoc]; exact h), List.append_assoc]
    rfl

theorem tRising_map {f : Nat → Nat} {t : Tab α} (h : tRising t = true) (hf : ∀ a ∈ t, ∀ b ∈ t, a.1 < b.1 → f a.1 < f b.1) :
    tRising (t.map fun e => (f e.1, e.2)) = true := by
  induction t with
  | nil => rfl
  | cons a t ih =>
    refine tRising_of_lt (ih (tRising_tail h) fun x hx y hy => hf x (List.mem_cons_of_mem _ hx) y (List.mem_cons_of_mem _ hy)) ?_
    intro b hb
    obtain ⟨x, hx, rfl⟩ := List.mem_map.mp hb
    exact hf a List.mem_cons_self x (List.mem_cons_of_mem _ hx) (tRising_lt h x hx)

end

/-! ## The copy (R234) -/

section
variable {s : State} {page up : Bool} {tbl e : Nat}

/-- Is a key of the page with the second half of the keys? -/
def upperPage (k : Nat) : Bool := decide (32 * 4096 ≤ k)

theorem upperPage_clsKey (ht : tbl < 16) (he : e < 4096) : upperPage (clsKey page up tbl e) = page := by
  unfold upperPage clsKey
  cases page <;> cases up <;> simp [b2n]
  all_goals omega

theorem pageKey_clsKey {other : Bool} (ht : tbl < 16) (he : e < 4096) : pageKey other (clsKey page up tbl e) = clsKey other up tbl e := by
  unfold pageKey clsKey
  cases page <;> cases up <;> simp only [b2n, Bool.false_eq_true, if_false, if_true] <;> omega

theorem pageKey_mono {page : Bool} {a b : Nat} (ha : upperPage a = upperPage b) (hb : b < 262144) (h : a < b) :
    pageKey page a < pageKey page b := by
  simp only [upperPage, decide_eq_decide] at ha
  unfold pageKey
  omega

theorem upperPage_pageKey (page : Bool) (k : Nat) : upperPage (pageKey page k) = page := by
  unfold upperPage pageKey
  cases page <;> simp [b2n] <;> omega

/-- The entries of a page. -/
def pageOf (page : Bool) (t : Tab (List Word)) : Tab (List Word) := t.filter fun e => upperPage e.1 == page

/-- What the copy leaves of a table whose standby page software has not written. -/
def copiedPages (act : Bool) (t : Tab (List Word)) : Tab (List Word) :=
  if act then (pageOf act t).map (fun e => (pageKey (!act) e.1, e.2)) ++ pageOf act t
  else pageOf act t ++ (pageOf act t).map (fun e => (pageKey (!act) e.1, e.2))

theorem clsSync_unwritten (h : s.cls.sync = false) (hf : s.cls.fresh = []) (hr : tRising s.cls.tbl = true) (hk : ∀ e ∈ s.cls.tbl, e.1 < 262144) :
    (clsSync s).cls.tbl = copiedPages s.cls.active s.cls.tbl ∧ (clsSync s).cls.sync = true ∧ (clsSync s).cls.active = s.cls.active ∧
      (clsSync s).out = s.out ∧ Changes [.cls] s (clsSync s) := by
  unfold clsSync
  rw [if_neg (by simp [h])]
  refine ⟨?_, rfl, rfl, rfl, changes_cls _ _⟩
  rw [hf]
  have none_kept : s.cls.tbl.filter (fun e => (decide (32 * 4096 ≤ e.1) != s.cls.active) && ([] : List Nat).contains e.1) = [] :=
    List.filter_eq_nil_iff.mpr fun e _ => by simp
  have all_copied (l : Tab (List Word)) : l.filter (fun e => !(([] : List Nat).contains e.1)) = l := List.filter_eq_self.mpr fun e _ => by simp
  have rising : tRising ((pageOf s.cls.active s.cls.tbl).map fun e => (pageKey (!s.cls.active) e.1, e.2)) = true := by
    refine tRising_map (tRising_filter _ hr) fun a ha b hb => ?_
    obtain ⟨-, ha⟩ := List.mem_filter.mp ha
    obtain ⟨hb', hb⟩ := List.mem_filter.mp hb
    exact pageKey_mono ((beq_iff_eq.mp ha).trans (beq_iff_eq.mp hb).symm) (hk b hb')
  dsimp only
  rw [none_kept, all_copied, List.nil_append]
  exact congrArg (fun l => if s.cls.active = true then l ++ pageOf s.cls.active s.cls.tbl else pageOf s.cls.active s.cls.tbl ++ l)
    (foldl_tPut (t := []) rising)

theorem tFind_pageOf_same {act : Bool} {k : Nat} (t : Tab (List Word)) (h : upperPage k = act) : tFind k (pageOf act t) = tFind k t :=
  tFind_filter_kept (q := fun k => upperPage k == act) (by simp [h]) t

theorem tFind_pageOf_other {act : Bool} {k : Nat} (t : Tab (List Word)) (h : upperPage k ≠ act) : tFind k (pageOf act t) = none :=
  tFind_none fun e he hk => h (by
    obtain ⟨-, he⟩ := List.mem_filter.mp he
    rw [← hk]
    exact beq_iff_eq.mp he)

/-- After the copy both pages read as the active one did. -/
theorem tFind_copiedPages {act : Bool} {t : Tab (List Word)} (hk : ∀ x ∈ t, x.1 < 262144) (ht : tbl < 16) (he : e < 4096) :
    tFind (clsKey (!act) up tbl e) (copiedPages act t) = tFind (clsKey act up tbl e) t ∧
    tFind (clsKey act up tbl e) (copiedPages act t) = tFind (clsKey act up tbl e) t := by
  have own : tFind (clsKey act up tbl e) (pageOf act t) = tFind (clsKey act up tbl e) t := tFind_pageOf_same t (upperPage_clsKey ht he)
  have none1 : tFind (clsKey (!act) up tbl e) (pageOf act t) = none := tFind_pageOf_other t (by rw [upperPage_clsKey ht he]; simp)
  have none2 : tFind (clsKey act up tbl e) ((pageOf act t).map fun e => (pageKey (!act) e.1, e.2)) = none := tFind_none fun x hx hkey => by
    obtain ⟨y, -, rfl⟩ := List.mem_map.mp hx
    have := upperPage_pageKey (!act) y.1
    rw [show pageKey (!act) y.1 = clsKey act up tbl e from hkey, upperPage_clsKey ht he] at this
    exact absurd this (by simp)
  have moved : tFind (clsKey (!act) up tbl e) ((pageOf act t).map fun e => (pageKey (!act) e.1, e.2)) = tFind (clsKey act up tbl e) t := by
    rw [← own, ← pageKey_clsKey (page := act) ht he]
    refine tFind_map fun x hx hkey => ?_
    obtain ⟨hx', hx⟩ := List.mem_filter.mp hx
    have side : upperPage x.1 = upperPage (clsKey act up tbl e) := (beq_iff_eq.mp hx).trans (upperPage_clsKey ht he).symm
    have bound : clsKey act up tbl e < 262144 := by
      unfold clsKey
      cases act <;> cases up <;> simp [b2n] <;> omega
    rcases Nat.lt_trichotomy x.1 (clsKey act up tbl e) with hlt | heq | hgt
    · exact absurd hkey (Nat.ne_of_lt (pageKey_mono side bound hlt))
    · exact heq
    · exact absurd hkey (Nat.ne_of_gt (pageKey_mono side.symm (hk x hx') hgt))
  unfold copiedPages
  split
  · rw [tFind_append, tFind_append, moved, none1, none2, own, Option.or_none]
    exact ⟨rfl, rfl⟩
  · rw [tFind_append, tFind_append, moved, none1, none2, own, Option.or_none]
    exact ⟨rfl, rfl⟩

end

/-! ## The swap (R233) -/

section
variable {s : State}

/-- The pages, the copy and the exact-match table of `t` are those of `s`. -/
def PagesKept (s t : State) : Prop :=
  t.cls.active = s.cls.active ∧ t.cls.sync = s.cls.sync ∧ t.cls.fresh = s.cls.fresh ∧ t.cls.tbl = s.cls.tbl ∧ t.cls.em = s.cls.em

/-- Bringing the meters to this cycle changes their buckets alone. -/
theorem clipMeters_effect (s : State) : PagesKept s (clipMeters s) ∧ Changes [.cls] s (clipMeters s) := by
  refine ⟨?_, Changes.foldl (fun s k => changes_settleMeter k s) _ s⟩
  unfold clipMeters
  induction meterKeys s generalizing s with
  | nil => exact ⟨rfl, rfl, rfl, rfl, rfl⟩
  | cons k ks ih => exact ih (settleMeter k s)

/-- The other page is active and its copy begins. -/
def pagesTurned (now : Nat) (s : State) : State :=
  { s with cls := { s.cls with active := !s.cls.active, sync := false, swapAt := now, fresh := [] } }

theorem clsSwapNow_effect (s : State) : (clsSwapNow s).cls.active = (!s.cls.active) ∧ (clsSwapNow s).cls.sync = false ∧
    (clsSwapNow s).cls.fresh = [] ∧ (clsSwapNow s).cls.tbl = s.cls.tbl ∧ (clsSwapNow s).cls.em = s.cls.em ∧
    Changes [.cls, .pwr] s (clsSwapNow s) := by
  have form : clsSwapNow s = missSlices (clipMeters (pagesTurned s.tim.now (clipMeters s))) := rfl
  obtain ⟨⟨active1, -, -, tbl1, em1⟩, changes1⟩ := clipMeters_effect s
  generalize clipMeters s = u at *
  have turned : Changes [.cls] u (pagesTurned s.tim.now u) := changes_cls _ u
  obtain ⟨⟨active2, sync2, fresh2, tbl2, em2⟩, changes2⟩ := clipMeters_effect (pagesTurned s.tim.now u)
  have missed := changes_missSlices (clipMeters (pagesTurned s.tim.now u))
  rw [form, missed .cls (by decide), active2, sync2, fresh2, tbl2, em2, ← active1, ← tbl1, ← em1]
  exact ⟨rfl, rfl, rfl, rfl, rfl, (changes1.mono (by decide)).trans
    ((turned.mono (by decide)).trans ((changes2.mono (by decide)).trans (missed.mono (by decide))))⟩

/-- A command that answers with success once `u` is its effect on the classifier. -/
theorem clsSwap_answers {u : State} {l : List Comp} (turn : CmdTurn 0 (.clsSwap 0) s)
    (form : clsSwapCmd 0 (begin_ s) = completeCmd 0 0 0 0 u) (h : Changes l (begin_ s) u) (h1 : Comp.hrd ∉ l := by decide)
    (h2 : Comp.regs ∉ l := by decide) (h3 : Comp.glb ∉ l := by decide) :
    ∃ t, Runs (.clsSwap 0) s t ∧ Answered 0 0 0 0 s t ∧ Changes [.hrd, .cnt] u t := by
  obtain ⟨answered, changes⟩ := commandAnswers (status := 0) (cause := 0) (result := 0) turn.ready h h1 h2 h3
  exact ⟨_, congrArg Host.Outcome.next ((cmdGo_turn turn _).trans form), answered, changes⟩

end

/-- Settles O46: CLS_SWAP, the copy of the pages, and words that no replica reads clean. -/
theorem classifierPages : Obligations.ClassifierPages := by
  unfold Obligations.ClassifierPages
  refine fun s => ⟨fun turn => ⟨fun started => ?_, fun stopped => ?_⟩, fun sync due fresh rising keys => ?_, fun cap => ⟨?_, ?_⟩⟩
  · have form : clsSwapCmd 0 (begin_ s) =
        completeCmd 0 0 0 0 { begin_ s with cls := { s.cls with swapDue := s.cls.swapDue ++ [dueTick (begin_ s)] } } := by
      unfold clsSwapCmd
      rw [ownedCmd_owned (by rfl), if_pos (show (begin_ s).tim.started = true from started)]
      rfl
    have set := changes_cls { s.cls with swapDue := s.cls.swapDue ++ [dueTick (begin_ s)] } (begin_ s)
    obtain ⟨t, runs, answered, changes⟩ := clsSwap_answers turn form set
    have cls : t.cls = _ := changes .cls (by decide)
    exact ⟨t, runs, answered, by rw [cls], by rw [cls]; rfl, ((set.mono (by decide)).trans (changes.mono (by decide))).of_begin⟩
  · obtain ⟨active, sync, fresh, tbl, em, set⟩ := clsSwapNow_effect (begin_ s)
    have form : clsSwapCmd 0 (begin_ s) = completeCmd 0 0 0 0 (clsSwapNow (begin_ s)) := by
      unfold clsSwapCmd
      rw [ownedCmd_owned (by rfl), if_neg (show ¬(begin_ s).tim.started = true by simp [stopped])]
    obtain ⟨t, runs, answered, changes⟩ := clsSwap_answers turn form set
    have cls : t.cls = _ := changes .cls (by decide)
    exact ⟨t, runs, answered, by rw [cls, active]; rfl, by rw [cls, sync], by rw [cls, fresh], by rw [cls, tbl]; rfl, by rw [cls, em]; rfl,
      ((set.mono (by decide)).trans (changes.mono (by decide))).of_begin⟩
  · have form : pageSync (begin_ s) = clsSync (begin_ s) := by
      unfold pageSync
      rw [if_neg (by simp [sync]), waitUntil_due (show (begin_ s).cls.swapAt + 4095 ≤ (begin_ s).tim.now by exact due)]
      exact if_neg (Nat.not_lt.mpr due)
    obtain ⟨tbl, synced, active, out, changes⟩ := clsSync_unwritten (s := begin_ s) sync fresh rising keys
    refine ⟨_, congrArg Host.Outcome.next form, synced, active, fun up n e ht he => ?_, out, changes.of_begin⟩
    obtain ⟨standby, own⟩ := tFind_copiedPages (act := s.cls.active) (up := up) keys ht he
    unfold clsEntry tGet
    rw [tbl]
    exact ⟨congrArg (Option.getD · (clsZero n)) standby, congrArg (Option.getD · (clsZero n)) own⟩
  · exact ⟨_, rfl, fun h => by simp [ueRewrite] at h, (changes_cls { s.cls with dirty := s.cls.dirty.filter (· != cap) } (begin_ s)).of_begin⟩
  · have marked : ∃ u, ueRewrite cap false (begin_ s) = fault 5 1 cap 1 0 0 0 u ∧ cap ∈ u.cls.dirty ∧ Changes [.cls] (begin_ s) u := by
      by_cases h : cap ∈ s.cls.dirty
      · exact ⟨begin_ s, by
          rw [ueRewrite, if_neg (by decide)]
          dsimp only
          rw [if_pos (show (begin_ s).cls.dirty.contains cap = true from List.contains_iff_mem.mpr h)], h, changes_refl _ _⟩
      · exact ⟨{ begin_ s with cls := { s.cls with dirty := s.cls.dirty ++ [cap] } },
          by
            rw [ueRewrite, if_neg (by decide)]
            dsimp only
            rw [if_neg (show ¬(begin_ s).cls.dirty.contains cap = true from fun hc => h (List.contains_iff_mem.mp hc))]
            rfl, by simp, changes_cls _ _⟩
    obtain ⟨u, form, hu, changes⟩ := marked
    exact ⟨_, congrArg Host.Outcome.next form, by rw [fault_cls]; exact hu, fault_st (by decide),
      ((changes.mono (by decide)).trans ((changes_fault 5 1 cap 1 0 0 0 u).mono (by decide))).of_begin⟩

end Sys2Proof.Machine
end

section
/-!
SUPPORT. Configuration images: their two readings, their acceptance and what one register record does (R489 to R496).
-/

namespace Sys2Proof.Machine

-- one declaration at a time: the package is compiled as one text within a limit of memory
set_option Elab.async false

/-! ## What the checks of an image depend on -/

section
variable {s : State} {h : Hrd} {o : List Out} {l : List ImgRec}

/-- The state with other rings, and with other outputs. -/
def withRings (h : Hrd) (o : List Out) (s : State) : State := { s with hrd := h, out := o }

theorem foldl_withRings {α : Type} {f : State → α → State} (hf : ∀ s x, f (withRings h o s) x = withRings h o (f s x)) (xs : List α) (s : State) :
    xs.foldl f (withRings h o s) = withRings h o (xs.foldl f s) := by
  induction xs generalizing s with
  | nil => rfl
  | cons x xs ih => rw [List.foldl_cons, hf, ih, List.foldl_cons]

theorem afterRecs_withRings (l : List ImgRec) (s : State) : afterRecs l (withRings h o s) = withRings h o (afterRecs l s) := by
  unfold afterRecs
  dsimp only
  rw [← foldl_withRings (fun _ _ => rfl), ← foldl_withRings (fun _ _ => rfl)]
  rfl

theorem ruleCause_withRings (a b : State) (r : ImgRec) : ruleCause (withRings h o a) (withRings h o b) r = ruleCause a b r := rfl

theorem imgRefusal_withRings (direct : Bool) (due : Nat) (l : List ImgRec) (s : State) :
    imgRefusal direct due l (withRings h o s) = imgRefusal direct due l s := by
  unfold imgRefusal
  dsimp only
  rw [afterRecs_withRings, afterRecs_withRings]
  rfl

end

/-! ## Records that have returned (R491) -/

section
variable {s t u : State} {c : CmdRun} {recs : List ImgRec} {w : Option CmdWait} {img addr n p status cause result : Nat} {second : Bool}

/-- The running command of `p` holds the records that have returned. -/
def recsHeld (p : Nat) (c : CmdRun) (recs : List ImgRec) (s : State) : State :=
  { s with hrd := { s.hrd with cmd := tPut p { c with recs := [(0, recs)] } s.hrd.cmd } }

theorem CmdReady.recsHeld (h : CmdReady p w s) (hc : tFind p s.hrd.cmd = some c) : CmdReady p w (recsHeld p c recs s) where
  runs := h.runs
  recs := h.recs
  cmd := by
    obtain ⟨d, hd, hw⟩ := h.cmd
    cases hc.symm.trans hd
    exact ⟨_, tFind_tPut_same _ _ _, hw⟩
  cq := h.cq
  room := h.room
  queue := h.queue
  fence := h.fence
  tag := h.tag

/-- The records held leave the answer of the command as it is. -/
theorem Answered.of_recsHeld (h : Answered p status cause result (recsHeld p c recs s) t) (hc : tFind p s.hrd.cmd = some c) :
    Answered p status cause result s t := by
  obtain ⟨none, rec⟩ := h
  refine ⟨none, fun d hd => ?_⟩
  cases hc.symm.trans hd
  exact rec { c with recs := [(0, recs)] } (tFind_tPut_same p _ s.hrd.cmd)

theorem Answered.kept {l : List Comp} (h : Answered p status cause result s t) (k : RingsKeep l t u) : Answered p status cause result s u := by
  obtain ⟨none, rec⟩ := h
  refine ⟨by rw [k.cmd]; exact none, fun d hd => ?_⟩
  obtain ⟨tag, hm⟩ := rec d hd
  exact ⟨tag, k.out _ hm⟩

theorem Waits.kept {l : List Comp} {x : CmdWait} (h : Waits p x t) (k : RingsKeep l t u) : Waits p x u := by
  obtain ⟨d, hd, hw⟩ := h
  exact ⟨d, by rw [k.cmd]; exact hd, hw⟩

theorem wholeRecs_one (recs : List ImgRec) : wholeRecs [(0, recs)] = recs := by
  simp [wholeRecs]

/-- What the records of the second reading do once all have come at once. -/
theorem imagePart_second (hc : tFind 0 s.hrd.cmd = some c) (hw : c.wait = some (.image img addr n true)) (hr : c.recs = [])
    (hn : recs.length = n) : imagePart 0 0 recs s = imageAccept 0 img recs (imageWrite recs (recsHeld 0 c recs s)) := by
  obtain ⟨index, wait, words, got, held⟩ := c
  subst hw hr
  unfold imagePart
  rw [hc]
  dsimp only
  rw [List.nil_append, wholeRecs_one, show wholeRecs [] = [] from rfl, if_neg (by simp [hn]), List.length_nil, List.drop_zero]
  rfl

/-- What the records of the first reading do once all have come at once. -/
theorem imagePart_first (hc : tFind 0 s.hrd.cmd = some c) (hw : c.wait = some (.image img addr n false)) (hr : c.recs = [])
    (hn : recs.length = n) :
    (∀ k i x, imgRefusal (!s.tim.started) (dueTick s) recs (recsHeld 0 c recs s) = some (k, i, x) →
      imagePart 0 0 recs s = completeCmd 0 45 k (i + 2 ^ 32 * x) (recsHeld 0 c recs s)) ∧
    (imgRefusal (!s.tim.started) (dueTick s) recs (recsHeld 0 c recs s) = none →
      imagePart 0 0 recs s = imageReads 0 addr n (setWait 0 (.image img addr n true) (recsHeld 0 c recs s))) := by
  obtain ⟨index, wait, words, got, held⟩ := c
  subst hw hr
  unfold imagePart
  rw [hc]
  dsimp only
  rw [List.nil_append, wholeRecs_one, show wholeRecs [] = [] from rfl, if_neg (by simp [hn])]
  rw [if_neg Bool.false_ne_true, if_neg Bool.false_ne_true]
  refine ⟨fun k i x h => ?_, fun h => ?_⟩ <;> split
  · next e =>
    cases h.symm.trans e
    rfl
  · next e => cases h.symm.trans e
  · next e => cases h.symm.trans e
  · rfl

/-- A reading whose burst brings every record. -/
theorem imageRead_whole {chan tag : Nat} {x : HRead} (hx : readAt s chan tag = some x) (hu : x.use = .image 0 0) (hl : 16 * recs.length = x.len) :
    imageRead chan tag recs false s = retryReads (imagePart 0 0 recs (dropRead chan tag s)) := by
  unfold imageRead
  rw [hx]
  dsimp only
  rw [hu]
  dsimp only
  rw [if_neg (by decide), if_neg (by omega)]

end

/-! ## A register record of an uplink port (R493, R496) -/

section
variable {s : State} {r : ImgRec} {port : BitVec 4}

theorem regSpec_maxlen : ∀ port : BitVec 4, (regSpec (rUpl port.toNat 4)).map (·.mask) = some 0x3FFF := by decide +kernel

/-- No rule speaks of the MAXLEN register of an uplink port. -/
theorem maxlen_ruleless : ∀ port : BitVec 4, isMinc (rUpl port.toNat 4) = false ∧
    ¬(rUpl port.toNat 4 = pageDPT + 4 ∨ rUpl port.toNat 4 = pageDPT + 8 ∨ rUpl port.toNat 4 = pageDPT + 0xC) ∧
    deepTree (rUpl port.toNat 4) = none ∧
    (decide (pageCLS + 0x40000 ≤ rUpl port.toNat 4) && decide (rUpl port.toNat 4 < pageCLS + 0x60100)) = false := by decide +kernel

/-- The MAXLEN register lies in the page of its port, at 4. -/
theorem maxlen_place : ∀ port : BitVec 4, rUpl port.toNat 4 ≠ 0x80 ∧ rUpl port.toNat 4 ≠ rTim 0x60 ∧
    ¬(pageCLS + 0x40000 ≤ rUpl port.toNat 4 ∧ rUpl port.toNat 4 < pageCHN) ∧ ¬isXoff (rUpl port.toNat 4) = true ∧
    ¬(rUpl port.toNat 4 = pageDPT + 4 ∨ rUpl port.toNat 4 = pageDPT + 8 ∨ rUpl port.toNat 4 = pageDPT + 0xC) ∧ rUpl port.toNat 4 ≠ pageCNT ∧
    ¬(pageTRE ≤ rUpl port.toNat 4 ∧ rUpl port.toNat 4 < pageUPL) ∧ (pageUPL ≤ rUpl port.toNat 4 ∧ rUpl port.toNat 4 < pageQBM) ∧
    (rUpl port.toNat 4 - pageUPL) % 0x1000 = 4 ∧ rUpl port.toNat 4 ≠ pagePWR := by decide +kernel

theorem maxlen_allowed (port : BitVec 4) (new : Word) (s : State) : regAllowed s (rUpl port.toNat 4) new = true := by
  obtain ⟨minc, deep, tree, rit⟩ := maxlen_ruleless port
  unfold regAllowed
  rw [minc, if_neg Bool.false_ne_true, if_neg deep, tree]
  unfold ritAllowed
  rw [rit]
  rfl

theorem maxlen_hookless (port : BitVec 4) (old new : Word) (s : State) : regHook (rUpl port.toNat 4) old new s = s := by
  obtain ⟨pol, pps, rit, xoff, deep, cnt, tre, upl, at4, -⟩ := maxlen_place port
  unfold regHook
  rw [if_neg pol, if_neg pps, if_neg rit, if_neg xoff, if_neg deep, if_neg cnt, if_neg tre, if_pos upl, at4]
  rfl

/-- A record of a MAXLEN register, as it takes effect. -/
theorem imgCommit_maxlen (port : BitVec 4) (mask data : Word) (s : State) : imgCommit (rUpl port.toNat 4) mask data s =
    setReg (rUpl port.toNat 4) (mergeW (reg s (rUpl port.toNat 4)) (mask &&& 0x3FFF) data) s := by
  obtain ⟨x, hx, hm⟩ := Option.map_eq_some_iff.mp (regSpec_maxlen port)
  unfold imgCommit
  rw [hx]
  dsimp only
  rw [if_pos (maxlen_allowed port _ s), hm]
  exact maxlen_hookless port _ _ _

/-- The state once image `img`, of one record of a MAXLEN register, is in force. -/
def maxlenSet (img a : Nat) (mask data : Word) (s : State) : State :=
  { setReg a (mergeW (reg s a) (mask &&& 0x3FFF) data) s with glb := { s.glb with img := img, applied := true, imgTick := 0 } }

theorem imageWrite_maxlen (h0 : recSpace r = 0) (hi : r.index.toNat = rUpl port.toNat 4) (hs : s.tim.started = false) :
    imageWrite [r] s = setReg (rUpl port.toNat 4) (mergeW (reg s (rUpl port.toNat 4)) (r.mask &&& 0x3FFF) r.data) s := by
  obtain ⟨-, -, -, -, -, -, -, -, -, apart⟩ := maxlen_place port
  unfold imageWrite
  rw [if_neg (by simp [hs])]
  unfold recsDirect commitRecs imgHandles imgQueues
  simp only [List.foldl_cons, List.foldl_nil, List.filter_cons, List.filter_nil, h0, hi]
  exact (if_pos ⟨trivial, apart⟩).trans (imgCommit_maxlen port _ _ _)

theorem imageDirect_maxlen {img : Nat} (h0 : recSpace r = 0) (hi : r.index.toNat = rUpl port.toNat 4) (hs : s.tim.started = false) :
    imageDirect img [r] (imageWrite [r] s) = maxlenSet img (rUpl port.toNat 4) r.mask r.data s := by
  obtain ⟨-, -, -, -, -, -, -, -, -, apart⟩ := maxlen_place port
  have calm : imgPower r = none := if_neg fun h => apart (hi ▸ h.2)
  have idle (l : List Nat) (u : State) : l.foldl (fun s _ => s) u = u := by
    induction l generalizing u with
    | nil => rfl
    | cons x l ih => exact ih u
  rw [imageWrite_maxlen h0 hi hs]
  generalize hu : setReg _ _ s = u
  have power : powerRecs [r] u = u := by
    unfold powerRecs
    simp only [List.filterMap_cons, calm, List.filterMap_nil, List.filter_nil, List.foldl_nil]
    exact idle _ u
  unfold imageDirect maxlenSet
  rw [hu, power, ← hu]
  rfl

/-- What the image sets has no part in the answer of its command. -/
theorem Answered.of_maxlenSet {img status cause result p : Nat} {mask data : Word} {t : State}
    (h : Answered p status cause result (maxlenSet img (rUpl port.toNat 4) mask data s) t) : Answered p status cause result s t := by
  obtain ⟨none, rec⟩ := h
  refine ⟨none, fun c hc => ?_⟩
  have owner : ringOwner (maxlenSet img (rUpl port.toNat 4) mask data s) .cq (ringOf s .cmd p).w.cq = ringOwner s .cq (ringOf s .cmd p).w.cq := by
    have lt := W6.cq_lt (ringOf s .cmd p).w
    have apart : pagePRT + 0x6000 + 4 * (ringOf s .cmd p).w.cq ≠ rUpl port.toNat 4 := by
      unfold pagePRT rUpl pageUPL
      omega
    exact congrArg (fun w : Word => if s.glb.prtBad.contains _ then 0 else w.toNat) (tGet_tSet_other apart _ _ _ _)
  have := rec c hc
  dsimp only at this ⊢
  rw [← owner]
  exact this

theorem CmdReady.maxlenSet {img a p : Nat} {mask data : Word} {w : Option CmdWait} (h : CmdReady p w s) :
    CmdReady p w (maxlenSet img a mask data s) := ⟨h.runs, h.recs, h.cmd, h.cq, h.room, h.queue, h.fence, h.tag⟩

end

/-! ## The two readings (R489 to R495) -/

section
variable {s v : State} {chan : Fin 2} {tag : BitVec 9} {x : HRead} {recs : List ImgRec} {c : CmdRun} {img addr n : Nat}

theorem imageWrite_registers (hs : s.tim.started = true) (h : ∀ r ∈ recs, recSpace r ≠ 3) : imageWrite recs s = s := by
  unfold imageWrite
  rw [if_pos hs]
  induction recs with
  | nil => rfl
  | cons r recs ih =>
    rw [List.foldl_cons, if_neg (h r List.mem_cons_self)]
    exact ih fun x hx => h x (List.mem_cons_of_mem _ hx)

/-- An accepted image waits for its boundary. -/
def pendingAdded (x : PendImage) (s : State) : State := { s with glb := { s.glb with pend := s.glb.pend ++ [x] } }

/-- An image of register records that is accepted waits for the boundary it is due at. -/
theorem imageAccept_started (hs : s.tim.started = true) (h : ∀ r ∈ recs, recSpace r ≠ 3) :
    imageAccept 0 img recs s = completeCmd 0 0 0 (dueTick s) (pendingAdded ⟨img, dueTick s, recs, false⟩ s) := by
  have all : staged recs = recs := List.filter_eq_self.mpr fun r hr => by simpa using h r hr
  have plain : recs.any (fun r => recSpace r == 3) = false := List.any_eq_false.mpr fun r hr => by simpa using h r hr
  unfold imageAccept
  rw [if_neg (by simp [hs]), all, plain]
  rfl

theorem imageAccept_stopped (hs : (imageWrite recs s).tim.started = false) :
    imageAccept 0 img recs (imageWrite recs s) = completeCmd 0 0 0 0 (imageDirect img recs (imageWrite recs s)) := by
  unfold imageAccept
  rw [if_pos (by simp [hs])]

theorem Answered.of_pendingAdded {status cause result p : Nat} {x : PendImage} {t : State}
    (h : Answered p status cause result (pendingAdded x s) t) : Answered p status cause result s t := by
  obtain ⟨none, rec⟩ := h
  exact ⟨none, rec⟩

theorem CmdReady.pendingAdded {p : Nat} {w : Option CmdWait} {x : PendImage} (h : CmdReady p w s) :
    CmdReady p w (pendingAdded x s) := ⟨h.runs, h.recs, h.cmd, h.cq, h.room, h.queue, h.fence, h.tag⟩

/-- A command answers, and then other reads go on. -/
theorem answers_then_reads {p status cause result : Nat} {w : Option CmdWait} (hp : p < 4096) (h : CmdReady p w s) :
    Answered p status cause result s (retryReads (completeCmd p status cause result s)) ∧
    Changes [.hrd, .cnt] s (retryReads (completeCmd p status cause result s)) :=
  ⟨(answered_completeCmd hp h).kept (ringsKeep_retryReads _), (changes_completeCmd hp h).trans (ringsKeep_retryReads _).changes⟩

end

/-- A reading of an image for partition 0 has come whole: `v` is the state `s` with its read ended, and `c` the command that runs. -/
structure ReadWhole (s v : State) (c : CmdRun) (second : Bool) (img addr n : Nat) : Prop where
  only : v = withRings v.hrd [] s
  rings : Changes [.hrd] s v
  alike : AnswersAlike 0 s v
  ready : CmdReady 0 (some (.image img addr n second)) v
  runs : tFind 0 v.hrd.cmd = some c
  waits : c.wait = some (.image img addr n second)
  fresh : c.recs = []

section
variable {s v : State} {recs : List ImgRec} {c : CmdRun} {second : Bool} {img addr n : Nat}

theorem readWhole_dropRead (chan tag : Nat) (hc : ∀ c, tFind 0 s.hrd.cmd = some c → c.recs = [])
    (h : CmdReady 0 (some (.image img addr n second)) s) : ∃ c, ReadWhole s (dropRead chan tag (begin_ s)) c second img addr n := by
  obtain ⟨c, hcmd, hw⟩ := h.cmd
  have dropped := ringsKeep_dropRead chan tag (begin_ s)
  have alike := (answersAlike_begin 0 s).trans (dropped.answersAlike (p := 0) (by decide) (by decide))
  exact ⟨c, ⟨rfl, dropped.changes.of_begin, alike, h.alike alike, by rw [dropped.cmd]; exact hcmd, hw, hc c hcmd⟩⟩

theorem ReadWhole.held (h : ReadWhole s v c second img addr n) : Changes [.hrd] s (recsHeld 0 c recs v) := h.rings.trans (changes_hrd _ _ v)

theorem ReadWhole.dueTick (h : ReadWhole s v c second img addr n) : dueTick v = if s.tim.cutDone then s.tim.tick + 2 else s.tim.tick + 1 := by
  rw [Machine.dueTick, h.rings .tim (by decide)]

theorem ReadWhole.started (h : ReadWhole s v c second img addr n) : v.tim.started = s.tim.started :=
  congrArg Tim.started (h.rings .tim (by decide))

/-- What the held command answers is the answer of the command that runs. -/
theorem ReadWhole.answered {status cause result : Nat} {t : State} (h : ReadWhole s v c second img addr n)
    (ha : Answered 0 status cause result (recsHeld 0 c recs v) t) : Answered 0 status cause result s t := (ha.of_recsHeld h.runs).alike h.alike

/-- R489, R491: the first reading is checked. -/
theorem firstReading (h : ReadWhole s v c false img addr n) (hn : recs.length = n) {due : Nat}
    (hdue : due = if s.tim.cutDone then s.tim.tick + 2 else s.tim.tick + 1) :
    (imgRefusal (!s.tim.started) due recs s = none →
      Waits 0 (.image img addr n true) (retryReads (imagePart 0 0 recs v)) ∧ Changes [.hrd, .cnt] s (retryReads (imagePart 0 0 recs v))) ∧
    (∀ k i x, imgRefusal (!s.tim.started) due recs s = some (k, i, x) →
      Answered 0 45 k (i + 2 ^ 32 * x) s (retryReads (imagePart 0 0 recs v)) ∧ Changes [.hrd, .cnt] s (retryReads (imagePart 0 0 recs v))) := by
  have check : imgRefusal (!v.tim.started) (dueTick v) recs (recsHeld 0 c recs v) = imgRefusal (!s.tim.started) due recs s := by
    rw [h.started, h.dueTick, ← hdue, h.only]
    exact imgRefusal_withRings _ _ _ s
  obtain ⟨refused, again⟩ := imagePart_first (s := v) h.runs h.waits h.fresh hn
  rw [check] at refused again
  refine ⟨fun none => ?_, fun k i x some => ?_⟩
  · rw [again none]
    have hu : tFind 0 (recsHeld 0 c recs v).hrd.cmd = some { c with recs := [(0, recs)] } := tFind_tPut_same _ _ _
    obtain ⟨waits, -, -, set⟩ := setWait_running (w := .image img addr n true) hu
    have asked (l : List RdReq) (u : State) := ((ringsKeep_hostReads l u).mono (l' := [.hrd, .cnt]) (by decide)).trans (ringsKeep_retryReads _)
    exact ⟨waits.kept (asked _ _), ((h.held.trans set).mono (by decide)).trans (asked _ _).changes⟩
  · rw [refused k i x some]
    obtain ⟨answered, changes⟩ := answers_then_reads (status := 45) (cause := k) (result := i + 2 ^ 32 * x) (by decide)
      (h.ready.recsHeld (recs := recs) h.runs)
    exact ⟨h.answered answered, (h.held.mono (by decide)).trans changes⟩

/-- R493, R494: the second reading of an image of register records, after the engine has started. -/
theorem secondReading_started (h : ReadWhole s v c true img addr n) (hn : recs.length = n) {due : Nat}
    (hdue : due = if s.tim.cutDone then s.tim.tick + 2 else s.tim.tick + 1) (hs : s.tim.started = true) (plain : ∀ r ∈ recs, recSpace r ≠ 3) :
    Answered 0 0 0 due s (retryReads (imagePart 0 0 recs v)) ∧
    (retryReads (imagePart 0 0 recs v)).glb.pend = s.glb.pend ++ [⟨img, due, recs, false⟩] ∧
    Changes [.glb, .hrd, .cnt] s (retryReads (imagePart 0 0 recs v)) := by
  have hs' : (recsHeld 0 c recs v).tim.started = true := h.started.trans hs
  rw [imagePart_second (s := v) h.runs h.waits h.fresh hn, imageWrite_registers hs' plain, imageAccept_started hs' plain,
    show dueTick (recsHeld 0 c recs v) = due from h.dueTick.trans hdue.symm]
  obtain ⟨answered, changes⟩ := answers_then_reads (status := 0) (cause := 0) (result := due) (by decide)
    ((h.ready.recsHeld (recs := recs) h.runs).pendingAdded (x := ⟨img, due, recs, false⟩))
  refine ⟨h.answered answered.of_pendingAdded, ?_,
    (h.held.mono (by decide)).trans (((changes_glb _ (recsHeld 0 c recs v)).mono (by decide)).trans (changes.mono (by decide)))⟩
  rw [changes .glb (by decide), ← h.rings .glb (by decide)]
  rfl

/-- R493, R496: a record of a MAXLEN register takes effect at once before the engine starts. -/
theorem secondReading_direct {r : ImgRec} {port : BitVec 4} (h : ReadWhole s v c true img addr n) (hn : [r].length = n)
    (hs : s.tim.started = false) (h0 : recSpace r = 0) (hi : r.index.toNat = rUpl port.toNat 4) :
    ∃ t, retryReads (imagePart 0 0 [r] v) = t ∧ Answered 0 0 0 0 s t ∧
      reg t (rUpl port.toNat 4) = mergeW (reg s (rUpl port.toNat 4)) (r.mask &&& 0x3FFF) r.data ∧
      (∀ a, a ≠ rUpl port.toNat 4 → reg t a = reg s a) ∧ t.glb.img = img ∧ t.glb.applied = true ∧ Changes [.regs, .glb, .hrd, .cnt] s t := by
  have hs' : (recsHeld 0 c [r] v).tim.started = false := h.started.trans hs
  have held := h.held (recs := [r])
  have ready := h.ready.recsHeld (recs := [r]) h.runs
  have answer {t : State} (ha : Answered 0 0 0 0 (recsHeld 0 c [r] v) t) := h.answered ha
  rw [imagePart_second (s := v) h.runs h.waits h.fresh hn]
  generalize recsHeld 0 c [r] v = u at *
  have written : (imageWrite [r] u).tim.started = false := by
    rw [imageWrite_maxlen h0 hi hs']
    exact hs'
  rw [imageAccept_stopped written, imageDirect_maxlen h0 hi hs']
  obtain ⟨answered, changes⟩ := answers_then_reads (status := 0) (cause := 0) (result := 0) (by decide)
    (ready.maxlenSet (img := img) (a := rUpl port.toNat 4) (mask := r.mask) (data := r.data))
  have value (a : Nat) : reg (maxlenSet img (rUpl port.toNat 4) r.mask r.data u) a =
      reg (setReg (rUpl port.toNat 4) (mergeW (reg s (rUpl port.toNat 4)) (r.mask &&& 0x3FFF) r.data) s) a := by
    have e : u.regs = s.regs := held .regs (by decide)
    unfold maxlenSet setReg reg
    rw [e]
  have set : Changes [.regs, .glb] u (maxlenSet img (rUpl port.toNat 4) r.mask r.data u) :=
    ((changes_setReg _ _ _).mono (by decide)).trans ((changes_glb _ _).mono (by decide))
  have kept (a : Nat) : reg (retryReads (completeCmd 0 0 0 0 (maxlenSet img (rUpl port.toNat 4) r.mask r.data u))) a =
      reg (maxlenSet img (rUpl port.toNat 4) r.mask r.data u) a := congrArg (fun x : Regs => tGet (regReset a) x.val a) (changes .regs (by decide))
  refine ⟨_, rfl, answer answered.of_maxlenSet, ((kept _).trans (value _)).trans (tGet_tSet_same _ _ _ _),
    fun a ha => ((kept a).trans (value a)).trans (tGet_tSet_other ha _ _ _ _), ?_, ?_,
    (held.mono (by decide)).trans ((set.mono (by decide)).trans (changes.mono (by decide)))⟩
  · rw [changes .glb (by decide)]
    rfl
  · rw [changes .glb (by decide)]
    rfl

end

/-- Settles O47: the two readings of an image, its refusal, its acceptance, and a register record before the engine starts. -/
theorem overlayImages : Obligations.OverlayImages := by
  unfold Obligations.OverlayImages
  intro s chan tag x recs img addr n due hx hu hl hn h0 hc hdue
  have read : imageRead chan.val tag.toNat recs false (begin_ s) = retryReads (imagePart 0 0 recs (dropRead chan.val tag.toNat (begin_ s))) :=
    imageRead_whole (s := begin_ s) hx hu (by rw [hn, hl])
  have runs : Runs (.imageReadDone ⟨chan, tag⟩ recs false) s _ := congrArg Host.Outcome.next read
  refine ⟨fun ready => ?_, fun ready => ?_⟩
  · obtain ⟨c, whole⟩ := readWhole_dropRead chan.val tag.toNat hc ready
    obtain ⟨again, refused⟩ := firstReading whole hn hdue
    exact ⟨fun none => ⟨_, runs, again none⟩, fun k x i some => ⟨_, runs, refused k i x some⟩⟩
  · obtain ⟨c, whole⟩ := readWhole_dropRead chan.val tag.toNat hc ready
    refine ⟨fun hs plain => ⟨_, runs, secondReading_started whole hn hdue hs plain⟩, fun r port hs one h0 hi => ?_⟩
    subst one
    obtain ⟨t, form, effect⟩ := secondReading_direct whole hn hs h0 hi
    exact ⟨t, form ▸ runs, effect⟩

end Sys2Proof.Machine
end

section
/-!
SUPPORT. Completion records leave their ring in order, into the slots of its completion queue (R312, R314).
-/

namespace Sys2Proof.Machine

-- one declaration at a time: the package is compiled as one text within a limit of memory
set_option Elab.async false

section
variable {s t u : State} {k : RingKind} {n : Nat}

/-! ## What leaves every ring as it is -/

theorem RingsStay.of_eq (h : t.hrd = s.hrd) (ho : t.out = s.out) : RingsStay s t := ⟨by rw [h], fun o hx => by rw [ho]; exact hx⟩

theorem RingsStay.ringOf (h : RingsStay s t) (k : RingKind) (n : Nat) : ringOf t k n = ringOf s k n := ringOf_of_ring h.1 k n

theorem ringsStay_smpWrite (i n skid : Nat) (f : SmpFrame) (s : State) : RingsStay s (smpWrite i n skid f s) := by
  unfold smpWrite
  extract_lets size base b s1
  split
  · unfold smpLose
    exact .of_eq (count1_hrd 10 4 s) (count1_out 10 4 s)
  · exact (ringsStay_hostWrites _ s).trans (.of_eq (count1_hrd _ _ _) (count1_out _ _ _))

/-- R474, R475: a sample leaves the rings alone. -/
theorem ringsStay_completeAs (i : Nat) (f : SmpFrame) (s : State) : RingsStay s (completeAs i f s) := by
  have used (x : Cnt) : RingsStay s (useFree { s with cnt := x }) := .of_eq (useFree_hrd _) (useFree_out _)
  unfold completeAs
  split
  · exact ⟨rfl, fun _ => id⟩
  · split
    · exact used _
    · extract_lets s1
      split
      · exact (used _).trans (ringsStay_smpWrite _ _ _ _ _)
      · exact used _

/-! ## The head of the records (R312) -/

/-- A record that goes is written, and the next one comes to the head. -/
theorem issueHead_goes {x : PendRec} {rest : List PendRec} (hr : (ringOf s k n).recs = x :: rest) (hg : recGoes s k n x = true)
    (hh : haltWaits k (ringOf s k n) rest = false) (hw : cqWrite (ringOf s k n).w.cq x.r k n s = some u) :
    RingsStay (setRing k n { ringOf u k n with recs := rest } u) (issueHead k n s) := by
  unfold issueHead
  extract_lets ru r
  split
  · next e => cases hr.symm.trans e
  · next x' t e =>
    cases hr.symm.trans e
    rw [if_neg (by simp [r, hg, hh])]
    split
    · next e => cases hw.symm.trans e
    · next s1 e =>
      cases hw.symm.trans e
      extract_lets s2 s3
      have stamp : RingsStay s2 s3 := by
        show RingsStay s2 (match x.sq, x.frame with | some _, some _ => _ | _, _ => s2)
        split <;> exact ⟨rfl, fun _ => id⟩
      clear_value s3
      split
      · exact stamp.trans (ringsStay_completeAs _ _ _)
      · exact stamp

theorem cqWrite_other {c m : Nat} {x : CRec} (h : cqWrite c x k n s = some u) (hk : rkey k m ≠ rkey .cq c) : ringOf u k m = ringOf s k m := by
  unfold cqWrite at h
  extract_lets r q at h
  split at h
  · cases h
    exact ringOf_setRing_other hk
  · split at h
    · cases h
    · cases h
      rw [(ringsStay_hostWrites _ _).ringOf, ringOf_setRing_other hk]

/-- R312: records leave their ring from the head. -/
theorem issueHead_recs (hk : k = .fill ∨ k = .send) (hn : n < 4096) (s : State) :
    ∃ m, (ringOf (issueHead k n s) k n).recs = (ringOf s k n).recs.drop m := by
  have apart (c : Nat) (hc : c < 4096) : rkey k n ≠ rkey .cq c :=
    rkey_ne hn hc (by rcases hk with rfl | rfl <;> decide)
  cases hr : (ringOf s k n).recs with
  | nil =>
    refine ⟨0, ?_⟩
    unfold issueHead
    dsimp only
    rw [hr]
    exact hr
  | cons x rest =>
    by_cases hg : recGoes s k n x = true ∧ haltWaits k (ringOf s k n) rest = false
    · cases hw : cqWrite (ringOf s k n).w.cq x.r k n s with
      | none =>
        refine ⟨0, ?_⟩
        unfold issueHead
        dsimp only
        rw [hr]
        dsimp only
        rw [if_neg (by simp [hg.1, hg.2]), hw]
        exact hr
      | some u =>
        refine ⟨1, ?_⟩
        rw [(issueHead_goes hr hg.1 hg.2 hw).ringOf, ringOf_setRing_same]
        rfl
    · refine ⟨0, ?_⟩
      unfold issueHead
      dsimp only
      rw [hr]
      dsimp only
      rw [if_pos (by cases e : recGoes s k n x <;> simp_all)]
      exact hr

theorem issueRecs_recs (hk : k = .fill ∨ k = .send) (hn : n < 4096) (fuel : Nat) (s : State) :
    ∃ m, (ringOf (issueRecs k n fuel s) k n).recs = (ringOf s k n).recs.drop m := by
  induction fuel generalizing s with
  | zero => exact ⟨0, rfl⟩
  | succ fuel ih =>
    obtain ⟨m, hm⟩ := issueHead_recs hk hn s
    unfold issueRecs
    dsimp only
    split
    · obtain ⟨m', hm'⟩ := ih (issueHead k n s)
      exact ⟨m + m', by rw [hm', hm, List.drop_drop]⟩
    · exact ⟨m, hm⟩

/-- R312, R314: the record at the head is issued; those behind it follow as far as they may. -/
theorem issueNow_goes (hk : k = .fill ∨ k = .send) (hn : n < 4096) {x : PendRec} {rest : List PendRec} {q : Ring}
    (hr : (ringOf s k n).recs = x :: rest) (hg : recGoes s k n x = true) (hh : haltWaits k (ringOf s k n) rest = false)
    (hq : ringOf s .cq (ringOf s k n).w.cq = q) (hrun : ringRuns q = true) (hroom : used q < ringSize q) (hwq : s.hrd.wq = [])
    (hf : s.hrd.fenced.contains q.w.chan = false) (ht : (freeTag (wrTags s (hmpChan (q.w.base + 16 * q.f)))).isSome = true) :
    ∃ tag m, (ringOf (issueNow k n s) k n).recs = rest.drop m ∧
      (rest = [] → ringOf (issueNow k n s) .cq (ringOf s k n).w.cq = q.written) ∧
      Out.hostWrite (hmpChan (q.w.base + 16 * q.f)) tag (q.w.base + 16 * q.f) (ringOwner s .cq (ringOf s k n).w.cq)
        (wordBytes (recWords x.r q.ph)) ∈ (issueNow k n s).out := by
  have lt := W6.cq_lt (ringOf s k n).w
  have apart : rkey k n ≠ rkey .cq (ringOf s k n).w.cq :=
    rkey_ne hn lt (by rcases hk with rfl | rfl <;> decide)
  have goes : cqWrite (ringOf s k n).w.cq x.r k n s = some (hostWrites
      [⟨q.w.chan, rkey .cq (ringOf s k n).w.cq, q.w.base + 16 * q.f, ringOwner s .cq (ringOf s k n).w.cq, wordBytes (recWords x.r q.ph),
        .record (ringOf s k n).w.cq k n⟩] (setRing .cq (ringOf s k n).w.cq q.written s)) := by
    simp [cqWrite, hq, hrun, Nat.not_le.mpr hroom, Ring.written]
  have sent := hostWrites_alone (s := setRing .cq (ringOf s k n).w.cq q.written s)
    (b := ⟨q.w.chan, rkey .cq (ringOf s k n).w.cq, q.w.base + 16 * q.f, ringOwner s .cq (ringOf s k n).w.cq, wordBytes (recWords x.r q.ph),
      .record (ringOf s k n).w.cq k n⟩) hwq hf ht
  generalize hostWrites _ (setRing .cq (ringOf s k n).w.cq q.written s) = u at goes sent
  obtain ⟨ring, -, tag, out⟩ := sent
  have head := issueHead_goes hr hg hh goes
  have recs : (ringOf (issueHead k n s) k n).recs = rest := by rw [head.ringOf, ringOf_setRing_same]
  have queue : ringOf (issueHead k n s) .cq (ringOf s k n).w.cq = q.written := by
    rw [head.ringOf, ringOf_setRing_other apart.symm, ringOf_of_ring ring, ringOf_setRing_same]
  have now : issueNow k n s = issueRecs k n rest.length (issueHead k n s) := by
    unfold issueNow
    rw [hr, List.length_cons, issueRecs]
    rw [recs, hr, List.length_cons, if_pos (Nat.lt_succ_self _)]
  obtain ⟨m, hm⟩ := issueRecs_recs hk hn rest.length (issueHead k n s)
  rw [now]
  refine ⟨tag, m, by rw [hm, recs], fun h => ?_, (marksKeep_issueRecs _ _ _ _).out _ (head.2 _ out)⟩
  subst h
  exact queue

theorem written_eq (q : Ring) : q.written = { advance q with rsv := q.rsv - 1 } := by
  unfold Ring.written advance
  split <;> rfl

end

/-- Settles O37: a record that is ready, due and past its barrier is written into the next slot of its completion queue. -/
theorem recordsIssue : Obligations.RecordsIssue := by
  unfold Obligations.RecordsIssue
  intro s ring kind c x rest q which hr ready bar due hq run room wq halts fence tag
  have hn : ring.toNat < 4096 := Nat.lt_trans ring.isLt (by decide)
  have hk : kind = .fill ∨ kind = .send := which.imp And.left And.left
  have goes : recGoes (begin_ s) kind ring.toNat x = true := by
    have barrier : (x.bar && x.acks != 0) = false := by rcases bar with h | h <;> simp [h]
    unfold recGoes
    rw [ready, decide_eq_true (show x.due ≤ (begin_ s).tim.now from due), barrier, show (begin_ s).hrd.wq = [] from wq]
    simp
  have form : recordIssue kind ring.toNat (begin_ s) = issueNow kind ring.toNat (begin_ s) := by
    unfold recordIssue
    rw [show (ringOf (begin_ s) kind ring.toNat).recs = x :: rest from hr]
    dsimp only
    rw [if_pos ready, waitUntil_due (show x.due ≤ (begin_ s).tim.now from due)]
  have runs : Runs c s (issueNow kind ring.toNat (begin_ s)) := by
    rcases which with ⟨rfl, rfl⟩ | ⟨rfl, rfl⟩ <;> exact congrArg Host.Outcome.next form
  obtain ⟨tag, m, recs, queue, out⟩ := issueNow_goes (s := begin_ s) hk hn hr goes halts hq.symm run room wq fence tag
  exact ⟨_, tag, m, runs, recs, fun h => (queue h).trans (written_eq q), out, (changes_issueNow _ _ _).of_begin.mono (by decide)⟩

end Sys2Proof.Machine
end

section
/-!
SUPPORT. The head of a fill ring's delivery queue is written into its buffers (R308, R314, R392).
-/

namespace Sys2Proof.Machine

-- one declaration at a time: the package is compiled as one text within a limit of memory
set_option Elab.async false

/-! ## Writes that have left, or wait -/

/-- A write burst has left the block. -/
def WriteLeft (w : WrReq) (t : State) : Prop := ∃ n, Out.hostWrite (hmpChan w.addr) n w.addr w.part w.bytes ∈ t.out

/-- From `s` to `t`: no write that waits is lost, what has left stands, what later cycles bring stays, and no ring changes but in its fetching. -/
structure WritesGo (s t : State) : Prop where
  ring : ∀ k n, (ringOf t k n).sansFetch = (ringOf s k n).sansFetch
  wq : ∀ w ∈ s.hrd.wq, w ∈ t.hrd.wq ∨ WriteLeft w t
  out : ∀ o ∈ s.out, o ∈ t.out
  later : ∀ e ∈ s.hrd.later, e ∈ t.hrd.later

section
variable {s t u : State}

theorem WriteLeft.mono {w : WrReq} (h : WriteLeft w s) (ho : ∀ o ∈ s.out, o ∈ t.out) : WriteLeft w t := h.imp fun _ hm => ho _ hm

theorem WritesGo.refl (s : State) : WritesGo s s := ⟨fun _ _ => rfl, fun _ => .inl, fun _ => id, fun _ => id⟩

theorem WritesGo.trans (h : WritesGo s t) (g : WritesGo t u) : WritesGo s u :=
  ⟨fun k n => (g.ring k n).trans (h.ring k n), fun w hw => (h.wq w hw).elim (g.wq w) fun l => .inr (l.mono g.out),
    fun o ho => g.out o (h.out o ho), fun e he => g.later e (h.later e he)⟩

theorem WritesGo.of_hrd (h : t.hrd = s.hrd) (ho : t.out = s.out) : WritesGo s t :=
  ⟨fun k n => congrArg Ring.sansFetch (ringOf_of_ring (by rw [h]) k n), fun w hw => .inl (by rw [h]; exact hw), fun o hm => by rw [ho]; exact hm,
    fun e he => by rw [h]; exact he⟩

theorem writesGo_setRing {k : RingKind} {n : Nat} {r : Ring} (h : r.sansFetch = (ringOf s k n).sansFetch) : WritesGo s (setRing k n r s) :=
  ⟨(ringsKeep_setRing h).ring, fun _ => .inl, fun _ => id, fun _ => id⟩

theorem writesGo_grantWrite {h : Nat} (e : grantWrite h s = some u) : WritesGo s u := by
  unfold grantWrite at e
  split at e
  · cases e
  · next b l hp =>
    cases e
    obtain ⟨perm, ready⟩ := pickMin_perm hp
    have chan : hmpChan b.addr = h := by
      simp only [wrReady, Bool.and_eq_true, beq_iff_eq] at ready
      exact ready.1.1
    refine ⟨fun _ _ => rfl, fun w hw => ?_, fun o ho => List.mem_append_left _ ho, fun _ => id⟩
    rcases List.mem_cons.mp (perm.mem_iff.mp hw) with rfl | hl
    · exact .inr ⟨_, by rw [chan]; exact List.mem_append_right _ List.mem_cons_self⟩
    · exact .inl hl

theorem writesGo_pumpWrites (fuel : Nat) (s : State) : WritesGo s (pumpWrites fuel s) := by
  induction fuel generalizing s with
  | zero => exact .refl s
  | succ fuel ih =>
    unfold pumpWrites
    split
    · next e => exact (writesGo_grantWrite e).trans (ih _)
    · split
      · next e => exact (writesGo_grantWrite e).trans (ih _)
      · exact .refl s

theorem writesGo_hostWrites (l : List WrReq) (s : State) : WritesGo s (hostWrites l s) :=
  WritesGo.trans (t := { s with hrd := { s.hrd with wq := s.hrd.wq ++ l } })
    ⟨fun _ _ => rfl, fun _ hw => .inl (List.mem_append_left _ hw), fun _ => id, fun _ => id⟩ (writesGo_pumpWrites _ _)

/-- What is asked for has left, or waits. -/
theorem hostWrites_asked {l : List WrReq} {w : WrReq} (hw : w ∈ l) (s : State) : w ∈ (hostWrites l s).hrd.wq ∨ WriteLeft w (hostWrites l s) :=
  (writesGo_pumpWrites _ { s with hrd := { s.hrd with wq := s.hrd.wq ++ l } }).wq w (List.mem_append_right _ hw)

theorem writesGo_smpWrite (i n skid : Nat) (f : SmpFrame) (s : State) : WritesGo s (smpWrite i n skid f s) := by
  unfold smpWrite
  extract_lets size base b s1
  split
  · unfold smpLose
    exact .of_hrd (count1_hrd 10 4 s) (count1_out 10 4 s)
  · exact (writesGo_hostWrites _ s).trans (.of_hrd (count1_hrd _ _ _) (count1_out _ _ _))

theorem writesGo_completeAs (i : Nat) (f : SmpFrame) (s : State) : WritesGo s (completeAs i f s) := by
  have used (x : Cnt) : WritesGo s (useFree { s with cnt := x }) := .of_hrd (useFree_hrd _) (useFree_out _)
  unfold completeAs
  split
  · exact .refl s
  · split
    · exact used _
    · extract_lets s1
      split
      · exact (used _).trans (writesGo_smpWrite _ _ _ _ _)
      · exact used _

theorem writesGo_countR (evt : Nat) (k : RingKind) (n amt : Nat) (s : State) : WritesGo s (countR evt k n amt s) := by
  unfold countR
  split
  · exact .of_hrd (countO_hrd _ _ _ _ s) (countO_out _ _ _ _ s)
  · exact .of_hrd (countN_hrd _ _ _ s) (countN_out _ _ _ s)

theorem pumpReads_edges (fuel : Nat) (s : State) : (pumpReads fuel s).hrd.wq = s.hrd.wq ∧ (pumpReads fuel s).hrd.later = s.hrd.later := by
  have granted {h : Nat} {s u : State} (e : grantRead h s = some u) : u.hrd.wq = s.hrd.wq ∧ u.hrd.later = s.hrd.later := by
    unfold grantRead at e
    split at e
    · cases e
    · cases e
      exact ⟨rfl, rfl⟩
  induction fuel generalizing s with
  | zero => exact ⟨rfl, rfl⟩
  | succ fuel ih =>
    unfold pumpReads
    split
    · next e => exact ⟨(ih _).1.trans (granted e).1, (ih _).2.trans (granted e).2⟩
    · split
      · next e => exact ⟨(ih _).1.trans (granted e).1, (ih _).2.trans (granted e).2⟩
      · exact ⟨rfl, rfl⟩

theorem writesGo_hostReads (l : List RdReq) (s : State) : WritesGo s (hostReads l s) := by
  have keep := ringsKeep_hostReads l s
  obtain ⟨wq, later⟩ := pumpReads_edges (s.hrd.rq.length + l.length) { s with hrd := { s.hrd with rq := s.hrd.rq ++ l } }
  exact ⟨keep.ring, fun w hw => .inl (wq ▸ hw), keep.out, fun e he => later ▸ he⟩

theorem writesGo_tryFetch (k : RingKind) (n : Nat) (cover : Bool) (s : State) : WritesGo s (tryFetch k n cover s) := by
  unfold tryFetch
  extract_lets r want m
  split
  · exact .refl s
  · split
    · exact .refl s
    · split
      · exact writesGo_countR _ _ _ _ s
      · refine WritesGo.trans ?_ (writesGo_setRing rfl)
        refine WritesGo.trans ?_ (writesGo_hostReads _ _)
        exact writesGo_setRing rfl

/-! ## A clean frame that is released -/

theorem walkLink_begin (n c : Nat) (s : State) : walkLink (begin_ s) n c = walkLink s n c := by
  induction n generalizing c with
  | zero => rfl
  | succ n ih =>
    unfold walkLink
    simp only [ih]
    rfl

theorem egrRead_begin (f : Frame) (k : Nat) (s : State) : egrRead (begin_ s) f k = egrRead s f k := by
  unfold egrRead
  simp only [walkLink_begin]
  rfl

/-- No cell of a frame that reads clean is marked. -/
theorem clean_cells {f : Frame} (h : egrRead s f 0 = .clean) (hs : f.send = none) (c : Nat) (hc : c ∈ f.cells) :
    (grpOf s (c / 16384)).bad.contains c = false := by
  have parts : partCells f 0 = List.range f.cells.length := by
    unfold partCells
    rw [hs]
  unfold egrRead at h
  split at h
  · next e => rw [e] at hc; cases hc
  · extract_lets r l at h
    split at h
    · cases h
    · split at h
      · cases h
      · next none =>
        obtain ⟨i, hi, rfl⟩ := List.getElem_of_mem hc
        have := List.find?_eq_none.mp none i (by show i ∈ partCells f 0; rw [parts]; exact List.mem_range.mpr hi)
        simpa [List.getElem?_eq_getElem hi] using this

/-- Cells that are not marked go back to their group, and nothing else comes of it. -/
theorem freeCell_unmarked {c : Nat} (h : (grpOf s (c / 16384)).bad.contains c = false) :
    (freeCell c s).hrd = s.hrd ∧ (freeCell c s).out = s.out ∧ ∀ g, (grpOf (freeCell c s) g).bad = (grpOf s g).bad := by
  unfold freeCell
  extract_lets q s1 g v
  rw [if_neg (by rw [show v.bad = (grpOf s (c / 16384)).bad from rfl, h]; decide)]
  split
  · exact ⟨rfl, rfl, fun _ => rfl⟩
  · refine ⟨rfl, rfl, fun g' => ?_⟩
    by_cases e : g' = g
    · subst e
      rw [grpOf_setGrp_same]
      rfl
    · rw [grpOf_setGrp_other _ e]
      rfl

theorem freeCellsOf_unmarked {l : List Nat} (h : ∀ c ∈ l, (grpOf s (c / 16384)).bad.contains c = false) :
    (freeCellsOf l s).hrd = s.hrd ∧ (freeCellsOf l s).out = s.out := by
  unfold freeCellsOf
  induction l generalizing s with
  | nil => exact ⟨rfl, rfl⟩
  | cons c l ih =>
    obtain ⟨hrd, out, bad⟩ := freeCell_unmarked (h c List.mem_cons_self)
    obtain ⟨hrd', out'⟩ := ih (s := freeCell c s) fun d hd => by rw [bad]; exact h d (List.mem_cons_of_mem _ hd)
    exact ⟨hrd'.trans hrd, out'.trans out⟩

theorem cellsLeave_hrd (f : Frame) (n : Nat) (s : State) : (cellsLeave f n s).hrd = s.hrd ∧ (cellsLeave f n s).out = s.out := by
  unfold cellsLeave
  extract_lets s1
  have h1 : s1.hrd = s.hrd ∧ s1.out = s.out := by
    simp only [s1]
    split <;> exact ⟨rfl, rfl⟩
  clear_value s1
  split
  · exact h1
  · exact h1

/-- Freeing a frame that is no send's, and has no marked cell, concerns no ring. -/
theorem freeFrame_unmarked {n : Nat} {f : Frame} (h : ∀ c ∈ f.cells, (grpOf s (c / 16384)).bad.contains c = false) (hs : f.send = none) :
    WritesGo s (freeFrame n f s) := by
  obtain ⟨hrd, out⟩ := freeCellsOf_unmarked h
  unfold freeFrame
  extract_lets s1 s2 s3
  have h1 : WritesGo s s1 := .of_hrd hrd out
  have h2 : WritesGo s s2 := by
    simp only [s2]
    split
    · exact h1
    · exact h1.trans (.of_hrd rfl rfl)
  have h3 : WritesGo s s3 := h2.trans (.of_hrd (cellsLeave_hrd _ _ _).1 (cellsLeave_hrd _ _ _).2)
  have ended (u : State) : sendDone n f u = u := by
    unfold sendDone
    rw [hs]
  rw [ended]
  clear_value s3
  unfold stampEnd
  split
  · exact h3.trans (.of_hrd rfl rfl)
  · exact h3.trans (.of_hrd rfl rfl)

theorem release1_unmarked {n : Nat} {f : Frame} (hf : frameOf s n = some f)
    (h : ∀ c ∈ f.cells, (grpOf s (c / 16384)).bad.contains c = false) (hs : f.send = none) : WritesGo s (release1 n s) := by
  unfold release1
  rw [hf]
  dsimp only
  split
  · have same : (complete 6 f s).qbm = s.qbm := changes_complete 6 f s .qbm (by decide)
    exact WritesGo.trans (t := complete 6 f s) (writesGo_completeAs _ _ s) (freeFrame_unmarked (fun c hc => by rw [grpOf_of_qbm same]; exact h c hc) hs)
  · exact .of_hrd rfl rfl

end

/-! ## Delivery (R308, R314, R392) -/

section
variable {s : State} {n : Nat} {r : Ring} {k : Token} {rest : List Token} {f : Frame} {b : List Byte} {status : Nat} {tag : Option (Nat × Nat)}
  {ds left : List Desc}

/-- The record of a frame written into its buffers, once every write is acknowledged. -/
def deliveredRec (s : State) (n : Nat) (k : Token) (f : Frame) (b : List Byte) (status : Nat) (tag : Option (Nat × Nat)) (ds : List Desc) : PendRec :=
  { r := fillRec (ringOf s .fill n) n ((ds.head?.map (·.index)).getD 0) b.length status tag f, ready := true, due := max (f.last + 210) s.tim.now,
    bar := (ds.getLast?.map (fun d => bit (d.word 0) 1)).getD false, acks := (fillWrites ds b).length, frame := some k.frame, info := some f, sq := none }

/-- The bursts of the frame have been asked for, its record waits and its descriptors are used. -/
def frameDelivered (n : Nat) (k : Token) (f : Frame) (b : List Byte) (status : Nat) (tag : Option (Nat × Nat)) (ds left : List Desc) (s : State) : State :=
  let s1 := hostWrites (fillReqs s n (.data n ((ds.head?.map (·.index)).getD 0)) (fillWrites ds b)) s
  atCycle (max (f.last + 210) s.tim.now) (.record .fill n)
    (setRing .fill n (fillPace { ringOf s1 .fill n with
      desc := left, recs := (ringOf s .fill n).recs ++ [deliveredRec s n k f b status tag ds] }) s1)

/-- The frame's delivery is logged and counted. -/
def deliveryCounted (n : Nat) (k : Token) (b : List Byte) (δ : Int) (c : Nat) (s : State) : State :=
  countR 2 .fill n 1 (countR 3 .fill n b.length (objAdd 4 n 0 1 (objAdd 4 n 1 b.length (logStart (qFill n) k (cqReserve c δ s)))))

theorem coverDescs_head (h : coverDescs r.desc b.length = some (ds, left)) : ∃ d l, ds = d :: l := by
  unfold coverDescs at h
  split at h
  · cases h
  · split at h
    · cases h
      exact ⟨_, _, rfl⟩
    · obtain ⟨x, -, e⟩ := Option.map_eq_some_iff.mp h
      cases e
      exact ⟨_, _, rfl⟩

/-- A whole frame of which nothing has been sent is delivered at once. -/
theorem fillFrame_delivers (hr : r = ringOf s .fill n) (hf : frameOf s k.frame = some f) (clean : egrRead s f 0 = .clean) (hs : f.send = none)
    (hseg : tGet 0 s.qbm.segs (qFill n) = 0) (hb : fillBody r f 0 = some (b, status, tag)) (hd : coverDescs r.desc b.length = some (ds, left)) :
    ∃ δ u, u = release1 k.frame (popHead (qFill n) k (deliveryCounted n k b δ r.w.cq (frameDelivered n k f b status tag ds left s))) ∧
      fillFrame n k f s = if (ringOf u .fill n).rdN = 0 then tryFetch .fill n false u else u := by
  subst hr
  have stays (c : Nat) : leaves k.frame c s = s := by
    unfold leaves
    rw [hf]
    dsimp only
    rw [hs]
    rfl
  have one : ¬(0 + 1 < outCount f) := by
    unfold outCount
    rw [hs]
    exact Nat.lt_irrefl 1
  refine ⟨1 - (ds.length : Int), _, rfl, ?_⟩
  unfold fillFrame
  dsimp only
  rw [hseg, clean]
  dsimp only
  rw [hb]
  dsimp only
  rw [hd]
  dsimp only
  rw [stays, if_neg one]
  rfl


/-- What a delivery leaves: its record, its descriptors, its turn, and its bursts. -/
theorem frameDelivered_effect (s : State) (n : Nat) (k : Token) (f : Frame) (b : List Byte) (status : Nat) (tag : Option (Nat × Nat))
    (ds left : List Desc) :
    (ringOf (frameDelivered n k f b status tag ds left s) .fill n).recs = (ringOf s .fill n).recs ++ [deliveredRec s n k f b status tag ds] ∧
    (ringOf (frameDelivered n k f b status tag ds left s) .fill n).desc = left ∧
    (max (f.last + 210) s.tim.now, Turn.record .fill n) ∈ (frameDelivered n k f b status tag ds left s).hrd.later ∧
    (∀ w ∈ fillReqs s n (.data n ((ds.head?.map (·.index)).getD 0)) (fillWrites ds b),
      w ∈ (frameDelivered n k f b status tag ds left s).hrd.wq ∨ WriteLeft w (frameDelivered n k f b status tag ds left s)) ∧
    Changes [.hrd] s (frameDelivered n k f b status tag ds left s) := by
  unfold frameDelivered
  have asked := changes_hostWrites (fillReqs s n (.data n ((ds.head?.map (·.index)).getD 0)) (fillWrites ds b)) s
  have go (w : WrReq) (hw : w ∈ fillReqs s n (.data n ((ds.head?.map (·.index)).getD 0)) (fillWrites ds b)) := hostWrites_asked hw s
  generalize hostWrites (fillReqs s n (.data n ((ds.head?.map (·.index)).getD 0)) (fillWrites ds b)) s = u at *
  have ring (x : Ring) : ringOf (atCycle (max (f.last + 210) s.tim.now) (.record .fill n) (setRing .fill n x u)) .fill n = x := ringOf_setRing_same
  refine ⟨?_, ?_, List.mem_append_right _ List.mem_cons_self, go, (asked.trans changes_setRing).trans (changes_atCycle _ _ _)⟩
  · rw [ring, fillPace_recs]
  · rw [ring, fillPace_desc]

/-- Logging and counting a delivery concerns no write; of the queues the log of its own has moved. -/
theorem deliveryCounted_effect (n : Nat) (k : Token) (b : List Byte) (δ : Int) (c : Nat) (s : State) :
    WritesGo s (deliveryCounted n k b δ c s) ∧
    (deliveryCounted n k b δ c s).qbm = { s.qbm with commit := tSet 0 s.qbm.commit (qFill n) ((k.seq + 1) % 2 ^ 32) } ∧
    Changes [.qbm, .hrd, .cnt] s (deliveryCounted n k b δ c s) := by
  have reserve : WritesGo s (cqReserve c δ s) := writesGo_setRing rfl
  have reserve' : Changes [.hrd] s (cqReserve c δ s) := changes_cqReserve _ _ s
  have logged : Changes [.qbm] (cqReserve c δ s) (logStart (qFill n) k (cqReserve c δ s)) := changes_qbm _ _
  have log : (logStart (qFill n) k (cqReserve c δ s)).qbm = { s.qbm with commit := tSet 0 s.qbm.commit (qFill n) ((k.seq + 1) % 2 ^ 32) } := rfl
  have go : WritesGo (cqReserve c δ s) (logStart (qFill n) k (cqReserve c δ s)) := .of_hrd rfl rfl
  unfold deliveryCounted
  generalize logStart (qFill n) k (cqReserve c δ s) = u at *
  have counts : Changes [.cnt] u (countR 2 .fill n 1 (countR 3 .fill n b.length (objAdd 4 n 0 1 (objAdd 4 n 1 b.length u)))) :=
    (((changes_objAdd _ _ _ _ u).trans (changes_objAdd _ _ _ _ _)).trans (ringsKeep_countR _ _ _ _ _).changes).trans (ringsKeep_countR _ _ _ _ _).changes
  refine ⟨reserve.trans (go.trans ?_), ?_, (reserve'.mono (by decide)).trans ((logged.mono (by decide)).trans (counts.mono (by decide)))⟩
  · have added (s : State) (m a : Nat) : WritesGo s (objAdd 4 n m a s) := .of_hrd (objAdd_hrd _ _ _ _ s) (objAdd_out _ _ _ _ s)
    exact (((added _ _ _).trans (added _ _ _)).trans (writesGo_countR _ _ _ _ _)).trans (writesGo_countR _ _ _ _ _)
  · rw [counts .qbm (by decide), log]

/-- R308, R314, R392: a delivery, from the state in which the whole frame has come. -/
theorem delivery_effect (hr : r = ringOf s .fill n) (hq : queueOf s (qFill n) = k :: rest) (hf : frameOf s k.frame = some f)
    (clean : egrRead s f 0 = .clean) (hs : f.send = none) (hseg : tGet 0 s.qbm.segs (qFill n) = 0)
    (hb : fillBody r f 0 = some (b, status, tag)) (hd : coverDescs r.desc b.length = some (ds, left)) :
    ∃ t, fillFrame n k f s = t ∧ (ringOf t .fill n).recs = r.recs ++ [deliveredRec s n k f b status tag ds] ∧ (ringOf t .fill n).desc = left ∧
      (max (f.last + 210) s.tim.now, Turn.record .fill n) ∈ t.hrd.later ∧
      (∀ w ∈ fillReqs s n (.data n ((ds.head?.map (·.index)).getD 0)) (fillWrites ds b), w ∈ t.hrd.wq ∨ WriteLeft w t) ∧
      queueOf t (qFill n) = rest ∧ tGet 0 t.qbm.commit (qFill n) = (k.seq + 1) % 2 ^ 32 ∧ Changes (.qbm :: .upl :: .fresh :: faulted) s t := by
  obtain ⟨δ, u, hu, form⟩ := fillFrame_delivers hr hf clean hs hseg hb hd
  obtain ⟨recs, desc, later, writes, changes1⟩ := frameDelivered_effect s n k f b status tag ds left
  generalize frameDelivered n k f b status tag ds left s = v at *
  obtain ⟨go2, qbm2, changes2⟩ := deliveryCounted_effect n k b δ r.w.cq v
  generalize deliveryCounted n k b δ r.w.cq v = w at *
  rw [show v.qbm = s.qbm from changes1 .qbm (by decide)] at qbm2
  have go3 : WritesGo w (popHead (qFill n) k w) := .of_hrd rfl rfl
  have changes3 : Changes [.qbm] w (popHead (qFill n) k w) := changes_qbm _ w
  have frame : frameOf (popHead (qFill n) k w) k.frame = some f := by
    show tFind k.frame w.qbm.frames = some f
    rw [qbm2]
    exact hf
  have group (g : Nat) : grpOf (popHead (qFill n) k w) g = grpOf s g := by
    show tGet Group.empty w.qbm.grp g = _
    rw [qbm2]
    rfl
  have queue : queueOf (popHead (qFill n) k w) (qFill n) = rest := by
    have : queueOf w (qFill n) = k :: rest := by
      rw [queueOf, qbm2]
      exact hq
    show queueOf (setQueue (qFill n) ((queueOf w (qFill n)).drop 1) _) (qFill n) = rest
    rw [queueOf_setQueue_same, this]
    rfl
  have commit : tGet 0 (popHead (qFill n) k w).qbm.commit (qFill n) = (k.seq + 1) % 2 ^ 32 := by
    show tGet 0 w.qbm.commit (qFill n) = _
    rw [qbm2]
    exact tGet_tSet_same _ _ _ _
  generalize popHead (qFill n) k w = p at *
  have go4 := release1_unmarked frame (fun c hc => by rw [group]; exact clean_cells clean hs c hc) hs
  have freed := freed_release1 k.frame p
  rw [← hu] at go4 freed
  have fetch : WritesGo u (if (ringOf u .fill n).rdN = 0 then tryFetch .fill n false u else u) ∧
      Changes [.hrd, .cnt] u (if (ringOf u .fill n).rdN = 0 then tryFetch .fill n false u else u) := by
    split
    · exact ⟨writesGo_tryFetch _ _ _ _, changes_tryFetch _ _ _ _⟩
    · exact ⟨.refl _, changes_refl _ _⟩
  rw [← form] at fetch
  obtain ⟨go5, changes5⟩ := fetch
  have go : WritesGo v (fillFrame n k f s) := (go2.trans go3).trans (go4.trans go5)
  have qbm5 : (fillFrame n k f s).qbm = u.qbm := changes5 .qbm (by decide)
  have same := congrArg (fun x : Qbm => tGet 0 x.commit (qFill n)) freed.qbm
  refine ⟨_, rfl, ?_, ?_, go.later _ later, fun x hx => (writes x hx).elim (go.wq x) fun l => .inr (l.mono go.out), ?_, ?_, ?_⟩
  · rw [Ring.eq_of_sansFetch Ring.recs (fun _ => rfl) (go.ring .fill n), recs, hr]
  · rw [Ring.eq_of_sansFetch Ring.desc (fun _ => rfl) (go.ring .fill n), desc]
  · rw [queueOf, qbm5]
    exact (freed.queueOf _).trans queue
  · rw [qbm5]
    exact same.trans commit
  · exact (changes1.mono (by decide)).trans ((changes2.mono (by decide)).trans ((changes3.mono (by decide)).trans
      ((freed.changes.mono (by decide)).trans (changes5.mono (by decide)))))

end

/-- Settles O36: the head of a delivery queue is written into its buffers. -/
theorem fillDelivery : Obligations.FillDelivery := by
  unfold Obligations.FillDelivery
  intro s ring r k rest f b status tag ds left hr run quiet fence on hq hf part awake last clean hs hseg hb hd
  have form : fillDeliver ring.toNat (begin_ s) = fillFrame ring.toNat k f (begin_ s) := by
    unfold fillDeliver
    dsimp only
    rw [show ringOf (begin_ s) .fill ring.toNat = r from hr.symm, run, quiet, show (begin_ s).hrd.fenced.contains r.w.chan = false from fence,
      show domOn (begin_ s) domHP = true from on, if_neg (by decide), show queueOf (begin_ s) (qFill ring.toNat) = k :: rest from hq]
    dsimp only
    rw [show frameOf (begin_ s) k.frame = some f from hf]
    dsimp only
    rw [if_neg (c := ringOwner (begin_ s) .fill ring.toNat ≠ k.part) (not_not.mpr part.symm), if_neg (by rw [show asleep (begin_ s) f = false from awake]; decide),
      if_neg (c := (begin_ s).tim.now < f.last) (Nat.not_lt.mpr last)]
  obtain ⟨t, ht, recs, desc, later, writes, queue, commit, changes⟩ := delivery_effect (s := begin_ s) hr hq hf ((egrRead_begin f 0 s).trans clean) hs hseg hb hd
  obtain ⟨d, l, hds⟩ := coverDescs_head hd
  refine ⟨t, _, congrArg Host.Outcome.next (form.trans ht), recs, by rw [hds]; rfl, rfl, rfl, rfl, rfl, later, fun w hw => ?_, desc, queue, commit,
    changes.of_begin⟩
  rcases writes _ (List.mem_map.mpr ⟨w, hw, rfl⟩) with waits | gone
  · exact .inr ⟨_, waits, rfl, rfl, rfl⟩
  · exact .inl gone

end Sys2Proof.Machine
end

section
/-!
SUPPORT. What moves cells leaves of the buffer manager (R239, R245 to R247, R258), and the deep memory's answers (R259 to R261).
-/

namespace Sys2Proof.Machine

-- one declaration at a time: the package is compiled as one text within a limit of memory
set_option Elab.async false

/-! ## Cells taken and freed -/

/-- The buffer manager without its cells: groups, links, charges, flow-control states, retirement, free deep cells. -/
def Qbm.sansStore (x : Qbm) : Qbm :=
  { x with chg := [], s := 0, link := [], grp := [], rrGrp := [], retire := none, rAt := 0, rBusy := false, rNoSpare := false,
           portCells := [], xoff := [], xoffAll := false, dFreed := [], dUsed := 0 }

/-- From `s` to `t` cells have moved: frames, queues and what is written to or read from deep memory stay. -/
structure CellsMove (l : List Comp) (s t : State) : Prop where
  changes : Changes l s t
  store : t.qbm.sansStore = s.qbm.sansStore

section
variable {s t u : State} {l : List Comp}

theorem CellsMove.refl (l : List Comp) (s : State) : CellsMove l s s := ⟨changes_refl _ _, rfl⟩

theorem CellsMove.trans (h : CellsMove l s t) (k : CellsMove l t u) : CellsMove l s u := ⟨h.changes.trans k.changes, k.store.trans h.store⟩

theorem CellsMove.mono {l' : List Comp} (h : CellsMove l s t) (hl : l ⊆ l' := by decide) : CellsMove l' s t := ⟨h.changes.mono hl, h.store⟩

/-- What leaves the buffer manager alone. -/
theorem CellsMove.of_changes (h : Changes l s t) (hl : Comp.qbm ∉ l := by decide) : CellsMove l s t :=
  ⟨h, congrArg Qbm.sansStore (h .qbm hl)⟩

theorem cellsMove_qbm (q : Qbm) (h : q.sansStore = s.qbm.sansStore := by rfl) : CellsMove [.qbm] s { s with qbm := q } := ⟨changes_qbm q s, h⟩

theorem CellsMove.foldl {α : Type} {f : State → α → State} (h : ∀ s x, CellsMove l s (f s x)) (xs : List α) (s : State) :
    CellsMove l s (xs.foldl f s) := by
  induction xs generalizing s with
  | nil => exact .refl _ _
  | cons x xs ih => exact (h s x).trans (ih _)

theorem CellsMove.ite {c : Prop} [Decidable c] (h : c → CellsMove l s t) (h' : ¬c → CellsMove l s u) : CellsMove l s (if c then t else u) := by
  split
  · exact h ‹_›
  · exact h' ‹_›

theorem CellsMove.frameOf (h : CellsMove l s t) (n : Nat) : Machine.frameOf t n = Machine.frameOf s n := by
  have e := congrArg (fun x : Qbm => tFind n x.frames) h.store
  exact e

theorem CellsMove.queueOf (h : CellsMove l s t) (q : Nat) : Machine.queueOf t q = Machine.queueOf s q := by
  have e := congrArg (fun x : Qbm => tGet [] x.q q) h.store
  exact e

theorem CellsMove.queues (h : CellsMove l s t) : t.qbm.q = s.qbm.q := by
  have e := congrArg (fun x : Qbm => x.q) h.store
  exact e

theorem CellsMove.fetch (h : CellsMove l s t) : t.qbm.fetch = s.qbm.fetch := by
  have e := congrArg (fun x : Qbm => x.fetch) h.store
  exact e

theorem CellsMove.spill (h : CellsMove l s t) : t.qbm.spill = s.qbm.spill := by
  have e := congrArg (fun x : Qbm => x.spill) h.store
  exact e

theorem CellsMove.nextFrame (h : CellsMove l s t) : t.qbm.nextFrame = s.qbm.nextFrame := by
  have e := congrArg (fun x : Qbm => x.nextFrame) h.store
  exact e

theorem cellsMove_autoRetire (g : Nat) (s : State) : CellsMove (.qbm :: faulted) s (autoRetire g s) := by
  have fenced : CellsMove (.qbm :: faulted) s (fenceGroup g s) :=
    (cellsMove_qbm (s := s) _).mono.trans (.mono (.of_changes (changes_glb _ _)))
  have told (i b : Nat) (c : Word) (a k m p : Nat) (u : State) : CellsMove (.qbm :: faulted) u (fault i b c a k m p u) :=
    (CellsMove.of_changes (changes_fault i b c a k m p u)).mono
  unfold autoRetire
  extract_lets v ueTh qTh
  refine .ite (fun _ => .refl _ _) fun _ => .ite (fun _ => (cellsMove_qbm _).mono) fun _ => .ite (fun _ => ?_) fun _ => ?_
  · exact fenced.trans (told _ _ _ _ _ _ _ _)
  · exact (cellsMove_qbm (s := s) _).mono.trans (told _ _ _ _ _ _ _ _)

theorem cellsMove_setGrp (g : Nat) (v : Group) (s : State) : CellsMove [.qbm] s (setGrp g v s) := cellsMove_qbm _

theorem cellsMove_freeCell (c : Nat) (s : State) : CellsMove (.qbm :: faulted) s (freeCell c s) := by
  unfold freeCell
  extract_lets q u g v
  have h1 : CellsMove (.qbm :: faulted) s u := (cellsMove_qbm _).mono
  have h2 (g : Nat) (v : Group) : CellsMove (.qbm :: faulted) s (setGrp g v u) := h1.trans (cellsMove_setGrp _ _ _).mono
  exact .ite (fun _ => (h2 _ _).trans (cellsMove_autoRetire _ _)) fun _ => .ite (fun _ => h1) fun _ => h2 _ _

theorem cellsMove_freeCellsOf (l : List Nat) (s : State) : CellsMove (.qbm :: faulted) s (freeCellsOf l s) :=
  .foldl (fun s c => cellsMove_freeCell c s) l s

theorem cellsMove_addChg (q : Nat) (d : Int) (s : State) : CellsMove [.qbm] s (addChg q d s) := cellsMove_qbm _

theorem cellsMove_addS (d : Int) (s : State) : CellsMove [.qbm] s (addS d s) := cellsMove_qbm _

theorem cellsMove_freeDeep (l : List Nat) (s : State) : CellsMove [.qbm] s (freeDeep l s) := cellsMove_qbm _

theorem cellsMove_portCellsAdd (k : Nat) (d : Int) (s : State) : CellsMove [.qbm] s (portCellsAdd k d s) := cellsMove_qbm _

theorem cellsMove_cellsLeave (f : Frame) (n : Nat) (s : State) : CellsMove [.qbm] s (cellsLeave f n s) := by
  unfold cellsLeave
  extract_lets s1
  have h1 : CellsMove [.qbm] s s1 := by
    simp only [s1]
    split
    · exact cellsMove_portCellsAdd _ _ _
    · exact .refl _ _
  clear_value s1
  split
  · exact h1.trans (cellsMove_addChg _ _ _)
  · exact h1

theorem cellsMove_chainCells (l : List Nat) (s : State) : CellsMove [.qbm] s (chainCells l s) := by
  induction l generalizing s with
  | nil => exact .refl _ _
  | cons c l ih =>
    cases l with
    | nil => exact cellsMove_qbm _
    | cons d l => exact (cellsMove_qbm (s := s) _).trans (ih _)

theorem cellsMove_allocOne {g n : Nat} {x : Nat × Nat × State} (h : allocOne s g n = some x) : CellsMove [.qbm] s x.2.2 := by
  induction n generalizing g with
  | zero => cases h
  | succ n ih =>
    unfold allocOne at h
    dsimp only at h
    split at h
    · split at h
      · cases h
        exact cellsMove_setGrp _ _ _
      · exact ih h
    · exact ih h

/-- Cells taken number as many as were asked for. -/
theorem allocN_effect {sec n : Nat} {cells : List Nat} (h : allocN sec n s = some (cells, u)) :
    cells.length = n ∧ CellsMove [.qbm] s u := by
  induction n generalizing s cells u with
  | zero =>
    cases h
    exact ⟨rfl, .refl _ _⟩
  | succ n ih =>
    unfold allocN at h
    split at h
    · cases h
    · next c g s1 e =>
      split at h
      · cases h
      · next l s2 e2 =>
        cases h
        obtain ⟨len, move⟩ := ih e2
        exact ⟨congrArg (· + 1) len, ((cellsMove_allocOne e).trans (cellsMove_qbm (s := s1) _)).trans move⟩

end

/-! ## Frames -/

section
variable {s : State} {n : Nat} {f : Frame}

@[simp] theorem frameOf_setFrame_same (n : Nat) (f : Frame) (s : State) : frameOf (setFrame n f s) n = some f := tFind_tPut_same _ _ _

theorem frameOf_setFrame_other {m : Nat} (h : m ≠ n) (f : Frame) (s : State) : frameOf (setFrame n f s) m = frameOf s m :=
  tFind_tPut_other h _ _

theorem changes_setFrame (n : Nat) (f : Frame) (s : State) : Changes [.qbm] s (setFrame n f s) := changes_qbm _ s

/-- R259: the deep copy of a frame stands for its cells of the block. -/
theorem frameDeep_effect (n : Nat) (f : Frame) (s : State) :
    ∃ u, frameDeep n f s = setFrame n { f with cells := [], sAdd := 0 } u ∧ CellsMove (.qbm :: faulted) s u := by
  unfold frameDeep
  extract_lets s1 s2 s3
  have h1 : CellsMove (.qbm :: faulted) s s1 := cellsMove_freeCellsOf _ _
  have h2 : CellsMove (.qbm :: faulted) s s2 := h1.trans (cellsMove_cellsLeave _ _ _).mono
  exact ⟨s3, rfl, .ite (fun _ => h2) fun _ => h2.trans (cellsMove_addS _ _).mono⟩


/-! ## Marks that go (R259, R261) -/

/-- A token once its spill mark of frame `n` has gone: it stands for frame `m` and is charged at most `est` cells. -/
def unmarked (n m est : Nat) (t : Token) : Token := if t.frame = n ∧ t.spill then { t with frame := m, spill := false, est := min t.est est } else t

/-- From `s` to `t` marks of frame `n` go from the queues that `p` names. -/
structure MarksGo (n m est : Nat) (p : Nat → Prop) (s t : State) : Prop where
  changes : Changes [.qbm] s t
  frames : t.qbm.frames = s.qbm.frames
  spill : t.qbm.spill = s.qbm.spill
  gone : ∀ q, p q → queueOf t q = (queueOf s q).map (unmarked n m est)
  kept : ∀ q, ¬p q → queueOf t q = queueOf s q

theorem unmarked_twice (n m est : Nat) (t : Token) : unmarked n m est (unmarked n m est t) = unmarked n m est t := by
  unfold unmarked
  split
  · simp
  · rfl

theorem spillEnd_effect (n m est : Nat) (s : State) : MarksGo n m est (fun q => q ∈ spillQueues n s) s (spillEnd n m est s) := by
  unfold spillEnd
  generalize spillQueues n s = l
  induction l using List.reverseRecOn with
  | nil => exact ⟨changes_refl _ _, rfl, rfl, fun _ h => absurd h List.not_mem_nil, fun _ _ => rfl⟩
  | append_singleton l q ih =>
    rw [List.foldl_append, List.foldl_cons, List.foldl_nil]
    generalize l.foldl _ s = u at ih
    obtain ⟨changes, frames, spill, gone, kept⟩ := ih
    have set (d : Int) (k : List Token) : Changes [.qbm] u (addChg q d (setQueue q k u)) := changes_qbm _ u
    have same (d : Int) (k : List Token) : queueOf (addChg q d (setQueue q k u)) q = k := queueOf_setQueue_same q k u
    have other (d : Int) (k : List Token) {p : Nat} (h : p ≠ q) : queueOf (addChg q d (setQueue q k u)) p = queueOf u p :=
      queueOf_setQueue_other h k u
    refine ⟨changes.trans (set _ _), frames, spill, fun p hp => ?_, fun p hp => ?_⟩
    · by_cases e : p = q
      · subst e
        refine (same _ _).trans ?_
        change (queueOf u p).map (unmarked n m est) = _
        by_cases hl : p ∈ l
        · rw [gone p hl, List.map_map]
          exact List.map_congr_left fun t _ => unmarked_twice n m est t
        · rw [kept p hl]
      · refine (other _ _ e).trans (gone p ?_)
        simpa [e] using hp
    · have e : p ≠ q := fun e => hp (e ▸ List.mem_append_right _ List.mem_cons_self)
      exact (other _ _ e).trans (kept p fun h => hp (List.mem_append_left _ h))

theorem spillQueues_of_mark {q : Nat} {k : Token} (hk : k ∈ queueOf s q) (hf : k.frame = n) (hs : k.spill = true) : q ∈ spillQueues n s := by
  have hq : (q, queueOf s q) ∈ s.qbm.q := by
    cases h : tFind q s.qbm.q with
    | none => simp [queueOf, tGet, h] at hk
    | some l => rw [queueOf, tGet, h]; exact mem_of_tFind h
  refine List.mem_map.mpr ⟨_, List.mem_filter.mpr ⟨hq, List.any_eq_true.mpr ⟨k, hk, ?_⟩⟩, rfl⟩
  simp [hf, hs]

/-- Once the marks of a frame have gone, none stands. -/
theorem MarksGo.unmarked {m est : Nat} {t : State} (h : MarksGo n m est (fun q => q ∈ spillQueues n s) s t) (q : Nat) (j : Token)
    (hj : j ∈ queueOf t q) (hf : j.frame = n) : j.spill = false := by
  by_cases hq : q ∈ spillQueues n s
  · rw [h.gone q hq] at hj
    obtain ⟨k, hk, rfl⟩ := List.mem_map.mp hj
    unfold Machine.unmarked at hf ⊢
    split
    · rfl
    · next hn =>
      rw [if_neg hn] at hf
      simpa [hf] using hn
  · rw [h.kept q hq] at hj
    by_contra hs
    exact hq (spillQueues_of_mark hj hf (by simpa using hs))

/-- A queue without marks of the frame stays as it is. -/
theorem MarksGo.same {m est : Nat} {t : State} (h : MarksGo n m est (fun q => q ∈ spillQueues n s) s t) (q : Nat)
    (hn : ∀ j ∈ queueOf s q, j.frame = n → j.spill = false) : queueOf t q = queueOf s q := by
  by_cases hq : q ∈ spillQueues n s
  · rw [h.gone q hq]
    refine (List.map_congr_left fun j hj => ?_).trans (List.map_id _)
    unfold Machine.unmarked
    exact if_neg fun ⟨hf, hs⟩ => by simp [hn j hj hf] at hs
  · exact h.kept q hq

end

/-! ## Deep writes answered (R259, R261) -/

section
variable {s : State} {n : Nat} {f : Frame} {q : Nat} {k : Token}

/-- Tokens of frame `n` that carry a spill mark. -/
def spillMarks (n : Nat) (s : State) : Nat := (s.qbm.q.flatMap (·.2)).foldl (fun a t => a + b2n (t.frame == n && t.spill)) 0

theorem one_le_foldl_b2n {α : Type} {p : α → Bool} {l : List α} {x : α} (hx : x ∈ l) (hp : p x = true) (a : Nat) :
    a + 1 ≤ l.foldl (fun a t => a + b2n (p t)) a := by
  have mono (l : List α) (a : Nat) : a ≤ l.foldl (fun a t => a + b2n (p t)) a := by
    induction l generalizing a with
    | nil => exact Nat.le_refl a
    | cons y l ih => exact Nat.le_trans (Nat.le_add_right a _) (ih _)
  induction l generalizing a with
  | nil => cases hx
  | cons y l ih =>
    rcases List.mem_cons.mp hx with rfl | hl
    · refine Nat.le_trans ?_ (mono l _)
      show a + 1 ≤ a + b2n (p x)
      rw [hp]
      exact Nat.le_refl _
    · exact Nat.le_trans (Nat.add_le_add_right (Nat.le_add_right a _) 1) (ih hl _)

theorem one_le_spillMarks (hk : k ∈ queueOf s q) (hf : k.frame = n) (hs : k.spill = true) : 1 ≤ spillMarks n s := by
  have hq : (q, queueOf s q) ∈ s.qbm.q := by
    cases h : tFind q s.qbm.q with
    | none => simp [queueOf, tGet, h] at hk
    | some l => rw [queueOf, tGet, h]; exact mem_of_tFind h
  exact one_le_foldl_b2n (List.mem_flatMap.mpr ⟨_, hq, hk⟩) (by simp [hf, hs]) 0

/-- Frame `n` is no longer among those whose deep writes are outstanding. -/
def spillTaken (n : Nat) (s : State) : State := { s with qbm := { s.qbm with spill := s.qbm.spill.filter (· != n) } }

theorem deepWriteAck_acked (hn : n ∈ s.qbm.spill) (hf : frameOf s n = some f) (h1 : f.refs = 1) (hm : 1 ≤ spillMarks n s) :
    deepWriteAck n false s = spillEnd n n 0 (frameDeep n f (spillTaken n s)) := by
  unfold deepWriteAck
  rw [if_neg (by simpa using hn)]
  dsimp only
  rw [show frameOf { s with qbm := { s.qbm with spill := s.qbm.spill.filter (· != n) } } n = some f from hf]
  dsimp only
  have hm' : 1 ≤ (s.qbm.q.flatMap (·.2)).foldl (fun a t => a + b2n (t.frame == n && t.spill)) 0 := hm
  rw [if_neg (by decide), if_neg (by omega), if_pos (by omega)]
  rfl

theorem deepWriteAck_failed (hn : n ∈ s.qbm.spill) (hf : frameOf s n = some f) :
    deepWriteAck n true s = spillEnd n n f.cells.length (setFrame n { f with deep := [] } (freeDeep f.deep
      (fault 8 1 (w32 (f.deep.headD 0)) 2 11 (f.deep.headD 0 % 8) 0 (count1 8 3 (count1 6 16 (spillTaken n s)))))) := by
  unfold deepWriteAck
  rw [if_neg (by simpa using hn)]
  dsimp only
  rw [show frameOf { s with qbm := { s.qbm with spill := s.qbm.spill.filter (· != n) } } n = some f from hf]
  dsimp only
  rw [if_pos rfl]
  rfl

/-- What the end of a spill leaves, from a state in which the frame has its new shape. -/
theorem spillEnd_frame {u : State} {g : Frame} {est : Nat} (hu : CellsMove (.qbm :: faulted) (spillTaken n s) u) :
    frameOf (spillEnd n n est (setFrame n g u)) n = some g ∧ n ∉ (spillEnd n n est (setFrame n g u)).qbm.spill ∧
    (∀ p, ∀ j ∈ queueOf (spillEnd n n est (setFrame n g u)) p, j.frame = n → j.spill = false) ∧
    (∀ m, m ≠ n → frameOf (spillEnd n n est (setFrame n g u)) m = frameOf s m) ∧
    (∀ p, (∀ j ∈ queueOf s p, j.frame = n → j.spill = false) → queueOf (spillEnd n n est (setFrame n g u)) p = queueOf s p) ∧
    Changes (.qbm :: faulted) s (spillEnd n n est (setFrame n g u)) := by
  have ended := spillEnd_effect n n est (setFrame n g u)
  have set := changes_setFrame n g u
  have queue (p : Nat) : queueOf (setFrame n g u) p = queueOf s p := hu.queueOf p
  have frame (m : Nat) : frameOf (spillEnd n n est (setFrame n g u)) m = frameOf (setFrame n g u) m := by
    rw [frameOf, ended.frames, ← frameOf]
  refine ⟨(frame n).trans (frameOf_setFrame_same n g u), ?_, ended.unmarked, fun m hm => ?_, fun p hp => ?_, ?_⟩
  · rw [ended.spill, show (setFrame n g u).qbm.spill = u.qbm.spill from rfl, hu.spill]
    exact fun h => by simp [spillTaken] at h
  · rw [frame, frameOf_setFrame_other hm, hu.frameOf]
    rfl
  · rw [ended.same p (by rw [queue]; exact hp), queue]
  · have taken : Changes [.qbm] s (spillTaken n s) := changes_qbm _ s
    exact (taken.mono (by decide)).trans (hu.changes.trans ((set.mono (by decide)).trans (ended.changes.mono (by decide))))

end

/-! ## Deep reads answered (R260, R261) -/

section
variable {s : State} {n : Nat} {x : DeepFetch} {f : Frame} {crc : Bool}

/-- The frame with what came back from deep memory. -/
def fetchedFrame (x : DeepFetch) (f : Frame) (cells : List Nat) (crc : Bool) : Frame :=
  { f with cells := f.cells ++ cells, deep := [], dchg := some x.queue, crcBad := crc }

/-- What the fetched frame does where another target still needs the deep copy. -/
def fetchedApart (x : DeepFetch) (n : Nat) (f : Frame) (cells : List Nat) (crc : Bool) (s : State) : State :=
  let m := s.qbm.nextFrame
  let s4 := setFrame m { fetchedFrame x f cells crc with refs := 1 } (setFrame n { f with refs := f.refs - 1 } s)
  addChg x.queue cells.length (renameTus x.queue n m { s4 with qbm := { s4.qbm with nextFrame := m + 1 } })

theorem fetch_found (hx : s.qbm.fetch = [x]) (hn : x.frame = n) (hs : x.sent = true) :
    s.qbm.fetch.find? (fun x => x.frame == n && x.sent) = some x := by
  rw [hx]
  exact List.find?_cons_of_pos (by simp [hn, hs])

theorem endFetch_only (hx : s.qbm.fetch = [x]) : (endFetch x s).qbm.fetch = [] := by
  show s.qbm.fetch.erase x = []
  rw [hx, List.erase_cons_head]

theorem endFetch_begin (hx : s.qbm.fetch = [x]) : endFetch x (begin_ s) = { s with qbm := { s.qbm with fetch := [] }, out := [] } := by
  unfold endFetch
  rw [show (begin_ s).qbm.fetch = [x] from hx, List.erase_cons_head]
  rfl

theorem deepReadReturn_wanted (hx : s.qbm.fetch = [x]) (hn : x.frame = n) (hs : x.sent = true) (hf : frameOf s n = some f)
    (hw : fetchWanted s x = true) (ha : (allocN 18 f.deep.length (endFetch x s)).isSome = true) :
    ∃ s3 cells, CellsMove [.qbm] (endFetch x s) s3 ∧ cells.length = f.deep.length ∧ deepReadReturn n false crc s =
      if f.refs ≤ 1 then addChg x.queue cells.length (setFrame n (fetchedFrame x f cells crc) (freeDeep f.deep s3))
      else fetchedApart x n f cells crc s3 := by
  obtain ⟨⟨cells, s2⟩, hal⟩ := Option.isSome_iff_exists.mp ha
  obtain ⟨len, move⟩ := allocN_effect hal
  have port : CellsMove [.qbm] (endFetch x s) (match portKey f with | some k => portCellsAdd k cells.length s2 | none => s2) := by
    split
    · exact move.trans (cellsMove_portCellsAdd _ _ _)
    · exact move
  refine ⟨_, cells, port.trans (cellsMove_chainCells cells _), len, ?_⟩
  unfold deepReadReturn
  rw [fetch_found hx hn hs]
  dsimp only
  rw [hf]
  dsimp only
  rw [if_neg (by decide), if_pos hw, hal]
  rfl

theorem deepReadReturn_unwanted (hx : s.qbm.fetch = [x]) (hn : x.frame = n) (hs : x.sent = true) (hf : frameOf s n = some f)
    (hw : fetchWanted s x = false) : deepReadReturn n false crc s = dropDeep n (idleAt (· == x.queue) n (endFetch x s)) := by
  unfold deepReadReturn
  rw [fetch_found hx hn hs]
  dsimp only
  rw [hf]
  dsimp only
  rw [if_neg (by decide), if_neg (by simp [hw])]

theorem deepReadReturn_failed (hx : s.qbm.fetch = [x]) (hn : x.frame = n) (hs : x.sent = true) (hf : frameOf s n = some f) :
    deepReadReturn n true crc s = fault 8 0 (w32 (f.deep.headD 0)) 1 11 (f.deep.headD 0 % 8) 0 (count1 8 2 (fetchLost x s)) := by
  unfold deepReadReturn
  rw [fetch_found hx hn hs]
  dsimp only
  rw [hf]
  dsimp only
  rw [if_pos rfl]

/-- The deep copy of a frame goes with its last target. -/
def deepDropped (f : Frame) : Frame := if f.refs ≤ 1 then { f with deep := [] } else f

theorem dropDeep_effect {u : State} (hf : frameOf u n = some f) : frameOf (dropDeep n u) n = some (deepDropped f) ∧
    (∀ m, m ≠ n → frameOf (dropDeep n u) m = frameOf u m) ∧ (dropDeep n u).qbm.fetch = u.qbm.fetch ∧ (dropDeep n u).out = u.out ∧
    Changes [.qbm] u (dropDeep n u) := by
  unfold dropDeep deepDropped
  rw [hf]
  dsimp only
  split
  · exact ⟨frameOf_setFrame_same _ _ _, fun m hm => frameOf_setFrame_other hm _ _, rfl, rfl,
      (cellsMove_freeDeep f.deep u).changes.trans (changes_setFrame _ _ _)⟩
  · exact ⟨hf, fun _ _ => rfl, rfl, rfl, changes_refl _ _⟩

theorem changes_idleAt (p : Nat → Bool) (n : Nat) (s : State) : Changes [.tre] s (idleAt p n s) := fun c hc => by
  cases c <;> simp [Kept, idleAt] at hc ⊢

/-- The staged units of the frame in the queues that `p` names are idle. -/
theorem idleAt_idle {p : Nat → Bool} {e : Nat × Tre} (he : e ∈ (idleAt p n s).tre) {y : Nat × List DsTu} (hy : y ∈ e.2.stage) {u : DsTu}
    (hu : u ∈ y.2) (hn : u.frame = n) (hq : u.queue < 131072) (hp : p u.queue = true) : u.idle = true := by
  obtain ⟨e0, -, rfl⟩ := List.mem_map.mp he
  obtain ⟨y0, -, rfl⟩ := List.mem_map.mp hy
  obtain ⟨u0, -, rfl⟩ := List.mem_map.mp hu
  split
  · rfl
  · next h =>
    rw [if_neg h] at hn hq hp
    exact absurd ⟨hn, hq, hp⟩ h

/-- R261: what a lost fetch leaves. -/
theorem fetchLost_effect (hx : s.qbm.fetch = [x]) (hn : x.frame = n) (hf : frameOf s n = some f) :
    frameOf (fetchLost x s) n = some (deepDropped f) ∧ (fetchLost x s).qbm.fetch = [] ∧
    (∀ e ∈ (fetchLost x s).tre, ∀ y ∈ e.2.stage, ∀ u ∈ y.2, u.frame = n → u.queue = x.queue → x.queue < 131072 → u.idle = true) ∧
    (∀ m, m ≠ n → frameOf (fetchLost x s) m = frameOf s m) ∧ Changes [.qbm, .tre, .cnt] s (fetchLost x s) := by
  subst hn
  have ended : Changes [.qbm] s (endFetch x s) := changes_qbm _ s
  have fetch := endFetch_only hx
  have counted : Changes [.cnt] (endFetch x s) (countO 6 15 x.queue 1 (endFetch x s)) := changes_countO _ _ _ _ _
  have idle := changes_idleAt (· == x.queue) x.frame (countO 6 15 x.queue 1 (endFetch x s))
  have qbm : (idleAt (· == x.queue) x.frame (countO 6 15 x.queue 1 (endFetch x s))).qbm = (endFetch x s).qbm :=
    (idle .qbm (by decide)).trans (counted .qbm (by decide))
  have frame (m : Nat) : frameOf (idleAt (· == x.queue) x.frame (countO 6 15 x.queue 1 (endFetch x s))) m = frameOf s m := by
    rw [frameOf, qbm]
    rfl
  obtain ⟨own, other, left, -, changes⟩ := dropDeep_effect ((frame x.frame).trans hf)
  refine ⟨own, left.trans ((congrArg Qbm.fetch qbm).trans fetch), fun e he y hy u hu hn hq hl => ?_, fun m hm => (other m hm).trans (frame m),
    (ended.mono (by decide)).trans ((counted.mono (by decide)).trans ((idle.mono (by decide)).trans (changes.mono (by decide))))⟩
  rw [show (fetchLost x s).tre = (idleAt (· == x.queue) x.frame (countO 6 15 x.queue 1 (endFetch x s))).tre from changes .tre (by decide)] at he
  exact idleAt_idle he hy hu hn (by rw [hq]; exact hl) (by simp [hq])

/-- The units of a queue that stood for frame `n` stand for another. -/
theorem renameTus_renamed {q m : Nat} (hm : m ≠ n) {e : Nat × Tre} (he : e ∈ (renameTus q n m s).tre) {y : Nat × List DsTu} (hy : y ∈ e.2.stage)
    {u : DsTu} (hu : u ∈ y.2) (hn : u.frame = n) : u.queue ≠ q := by
  obtain ⟨e0, -, rfl⟩ := List.mem_map.mp he
  obtain ⟨y0, -, rfl⟩ := List.mem_map.mp hy
  obtain ⟨u0, -, rfl⟩ := List.mem_map.mp hu
  split
  · next h =>
    rw [if_pos h] at hn
    exact absurd hn hm
  · next h =>
    rw [if_neg h] at hn
    exact fun hq => h ⟨hn, hq⟩

theorem fetchedApart_effect {cells : List Nat} (hne : s.qbm.nextFrame ≠ n) :
    frameOf (fetchedApart x n f cells crc s) s.qbm.nextFrame = some { fetchedFrame x f cells crc with refs := 1 } ∧
    frameOf (fetchedApart x n f cells crc s) n = some { f with refs := f.refs - 1 } ∧
    (∀ m, m ≠ n → m ≠ s.qbm.nextFrame → frameOf (fetchedApart x n f cells crc s) m = frameOf s m) ∧
    (fetchedApart x n f cells crc s).qbm.fetch = s.qbm.fetch ∧
    (∀ e ∈ (fetchedApart x n f cells crc s).tre, ∀ y ∈ e.2.stage, ∀ u ∈ y.2, u.frame = n → u.queue ≠ x.queue) ∧
    Changes [.qbm, .tre] s (fetchedApart x n f cells crc s) := by
  have frame (m : Nat) : frameOf (fetchedApart x n f cells crc s) m =
      frameOf (setFrame s.qbm.nextFrame { fetchedFrame x f cells crc with refs := 1 } (setFrame n { f with refs := f.refs - 1 } s)) m := rfl
  refine ⟨(frame _).trans (frameOf_setFrame_same _ _ _), ?_, fun m hm hm' => ?_, rfl, fun e he y hy u hu hn => ?_, fun c hc => ?_⟩
  · rw [frame, frameOf_setFrame_other hne.symm, frameOf_setFrame_same]
  · rw [frame, frameOf_setFrame_other hm', frameOf_setFrame_other hm]
  · exact renameTus_renamed hne he hy hu hn
  · cases c <;> simp [Kept, fetchedApart, renameTus, addChg, setFrame] at hc ⊢

end

/-- Settles O31: deep writes and deep reads answered, failed and late. -/
theorem deepMemory : Obligations.DeepMemory := by
  unfold Obligations.DeepMemory
  refine ⟨fun s n err => ⟨fun hn => ?_, fun f q k hn hf h1 hk hkf hks => ⟨fun he => ?_, fun he => ?_⟩⟩, fun s n x f hx hxn hf =>
    ⟨fun crc hs hw ha => ⟨fun h1 => ?_, fun h1 hne => ?_⟩, fun g hg => ⟨fun crc hs hw => ?_, fun crc hs => ?_, fun hb hl => ?_, fun hb => ?_⟩⟩⟩
  · refine congrArg Host.Outcome.next (if_pos ?_)
    simpa [begin_] using hn
  · subst he
    obtain ⟨u, deep, move⟩ := frameDeep_effect n f (spillTaken n (begin_ s))
    have form := (deepWriteAck_acked (s := begin_ s) hn hf h1 (one_le_spillMarks (s := begin_ s) hk hkf hks)).trans
      (congrArg (spillEnd n n 0) deep)
    obtain ⟨own, spill, marks, others, queues, changes⟩ := spillEnd_frame (s := begin_ s) (g := { f with cells := [], sAdd := 0 }) (est := 0) move
    exact ⟨_, congrArg Host.Outcome.next form, own, spill, marks, others, queues, changes.of_begin⟩
  · subst he
    have form := deepWriteAck_failed (s := begin_ s) hn hf
    have counted : Changes [.cnt] (spillTaken n (begin_ s)) (count1 8 3 (count1 6 16 (spillTaken n (begin_ s)))) :=
      (changes_count1 _ _ _).trans (changes_count1 _ _ _)
    have told : Changes faulted (spillTaken n (begin_ s)) (fault 8 1 (w32 (f.deep.headD 0)) 2 11 (f.deep.headD 0 % 8) 0
        (count1 8 3 (count1 6 16 (spillTaken n (begin_ s))))) := (counted.mono (by decide)).trans (changes_fault _ _ _ _ _ _ _ _)
    have bit1 := fault_st (i := 8) (b := 1) (cap0 := w32 (f.deep.headD 0)) (acc := 2) (mkind := 11) (mnum := f.deep.headD 0 % 8) (part := 0)
      (s := count1 8 3 (count1 6 16 (spillTaken n (begin_ s)))) (by decide)
    generalize fault 8 1 (w32 (f.deep.headD 0)) 2 11 (f.deep.headD 0 % 8) 0 (count1 8 3 (count1 6 16 (spillTaken n (begin_ s)))) = v at *
    have move : CellsMove (.qbm :: faulted) (spillTaken n (begin_ s)) (freeDeep f.deep v) :=
      (CellsMove.of_changes told).mono.trans (cellsMove_freeDeep f.deep v).mono
    have flt : (spillEnd n n f.cells.length (setFrame n { f with deep := [] } (freeDeep f.deep v))).flt = v.flt :=
      (spillEnd_effect n n f.cells.length _).changes .flt (by decide)
    obtain ⟨own, spill, marks, others, -, changes⟩ := spillEnd_frame (s := begin_ s) (g := { f with deep := [] }) (est := f.cells.length) move
    exact ⟨_, congrArg Host.Outcome.next form, own, spill, marks, by rw [fltOf, flt]; exact bit1, others, changes.of_begin⟩
  · rw [← endFetch_begin hx] at ha
    obtain ⟨s3, cells, move, len, form⟩ := deepReadReturn_wanted (s := begin_ s) (crc := crc) hx hxn hs hf hw ha
    rw [if_pos h1] at form
    have freed := cellsMove_freeDeep f.deep s3
    have charged := cellsMove_addChg x.queue cells.length (setFrame n (fetchedFrame x f cells crc) (freeDeep f.deep s3))
    have fetch : s3.qbm.fetch = [] := move.fetch.trans (endFetch_only (s := begin_ s) hx)
    refine ⟨_, fetchedFrame x f cells crc, congrArg Host.Outcome.next form, ?_, rfl, ?_, rfl, rfl, ?_, fun m hm => ?_, ?_⟩
    · rw [charged.frameOf]
      exact frameOf_setFrame_same _ _ _
    · show (f.cells ++ cells).length = _
      rw [List.length_append, len]
    · rw [charged.fetch]
      exact fetch
    · rw [charged.frameOf, frameOf_setFrame_other hm, freed.frameOf, move.frameOf]
      rfl
    · exact ((changes_qbm _ (begin_ s)).trans (move.changes.trans (freed.changes.trans ((changes_setFrame _ _ _).trans charged.changes)))).of_begin
  · rw [← endFetch_begin hx] at ha
    obtain ⟨s3, cells, move, len, form⟩ := deepReadReturn_wanted (s := begin_ s) (crc := crc) hx hxn hs hf hw ha
    rw [if_neg (by omega)] at form
    have next : s3.qbm.nextFrame = s.qbm.nextFrame := move.nextFrame
    have fetch : s3.qbm.fetch = [] := move.fetch.trans (endFetch_only (s := begin_ s) hx)
    obtain ⟨new, own, others, left, units, changes⟩ := fetchedApart_effect (s := s3) (x := x) (f := f) (crc := crc) (cells := cells) (next ▸ hne)
    rw [next] at new others
    refine ⟨_, { fetchedFrame x f cells crc with refs := 1 }, congrArg Host.Outcome.next form, new, rfl, ?_, rfl, rfl, rfl, own, left.trans fetch,
      units, fun m hm hm' => ?_, ?_⟩
    · show (f.cells ++ cells).length = _
      rw [List.length_append, len]
    · rw [others m hm hm', move.frameOf]
      rfl
    · exact (((changes_qbm _ (begin_ s)).trans move.changes).mono (by decide) |>.trans changes).of_begin
  · have form := deepReadReturn_unwanted (s := begin_ s) (crc := crc) hx hxn hs hf hw
    have idle := changes_idleAt (· == x.queue) n (endFetch x (begin_ s))
    have qbm : (idleAt (· == x.queue) n (endFetch x (begin_ s))).qbm = (endFetch x (begin_ s)).qbm := idle .qbm (by decide)
    have frame (m : Nat) : frameOf (idleAt (· == x.queue) n (endFetch x (begin_ s))) m = frameOf s m := by
      rw [frameOf, qbm]
      rfl
    obtain ⟨own, others, fetch, out, changes⟩ := dropDeep_effect ((frame n).trans hf)
    refine ⟨_, congrArg Host.Outcome.next form, own.trans hg.symm, fetch.trans ((congrArg Qbm.fetch qbm).trans (endFetch_only (s := begin_ s) hx)),
      fun m hm => (others m hm).trans (frame m), out, ?_⟩
    exact (((changes_qbm _ (begin_ s)).mono (by decide)).trans ((idle.mono (by decide)).trans (changes.mono (by decide)))).of_begin
  · have form := deepReadReturn_failed (s := begin_ s) (crc := crc) hx hxn hs hf
    obtain ⟨own, fetch, units, others, changes⟩ := fetchLost_effect (s := begin_ s) hx hxn hf
    have told := (changes_count1 8 2 (fetchLost x (begin_ s))).mono (l' := faulted) (by decide) |>.trans
      (changes_fault 8 0 (w32 (f.deep.headD 0)) 1 11 (f.deep.headD 0 % 8) 0 _)
    have qbm := told .qbm (by decide)
    refine ⟨_, congrArg Host.Outcome.next form, ?_, ?_, fault_st (by decide), ?_, fun m hm => ?_,
      ((changes.mono (by decide)).trans (told.mono (by decide))).of_begin⟩
    · rw [frameOf, qbm]
      exact own.trans hg.symm
    · rw [qbm, fetch]
    · rw [told .tre (by decide)]
      exact units
    · rw [frameOf, qbm]
      exact others m hm
  · have late : fetchLate (begin_ s) x = true := by
      unfold fetchLate
      rw [show absBeat (begin_ s) = absBeat s from rfl]
      simp [hb, hl]
    have form : deepReadLate n (begin_ s) = fetchLost x (begin_ s) := by
      unfold deepReadLate
      rw [show (begin_ s).qbm.fetch = [x] from hx, List.find?_cons_of_pos (by simp [hxn, late])]
    obtain ⟨own, fetch, units, others, changes⟩ := fetchLost_effect (s := begin_ s) hx hxn hf
    exact ⟨_, congrArg Host.Outcome.next form, own.trans hg.symm, fetch, units, others, changes.of_begin⟩
  · have early : fetchLate (begin_ s) x = false := by
      have same : absBeat (begin_ s) = absBeat s := rfl
      unfold fetchLate
      rcases hb with h | h
      · simp [h]
      · rw [same, decide_eq_false (by omega), Bool.and_false]
    have form : deepReadLate n (begin_ s) = begin_ s := by
      unfold deepReadLate
      rw [show (begin_ s).qbm.fetch = [x] from hx, List.find?_cons_of_neg (by simp [early])]
      rfl
    exact congrArg Host.Outcome.next form

end Sys2Proof.Machine
end

section
/-!
SUPPORT. Requests to power domains and their handshake (R438 to R440, R452): what a request does at once, what the units' answers lead to,
and how a request is refused.
-/

namespace Sys2Proof.Machine

-- one declaration at a time: the package is compiled as one text within a limit of memory
set_option Elab.async false

/-! ## What a notice leaves of a domain -/

section
variable {s : State} {d e tgt cause : Nat}

/-- A notice wakes the host port alone (R325, R445). -/
theorem pdom_notice_other (p : Nat) (n : Notice) (h : e ≠ domHP) : pdom (notice p n s) e = pdom s e := by
  rw [pdom_of_pwr (notice_pwr p n s)]
  rcases wake_cases domHP 1 s with w | w | w <;> rw [w]
  · rfl
  · exact pdom_setPdom_other h

theorem pdom_countO (i evt obj amt : Nat) : pdom (countO i evt obj amt s) e = pdom s e := pdom_of_pwr (by simp)

theorem powerKeeps_reqRefused (d tgt cause : Nat) (s : State) : PowerKeeps noted s (reqRefused d tgt cause s) :=
  (PowerKeeps.of_changes (changes_countO 2 1 d 1 s)).trans (powerKeeps_notice _ _ _)

/-! ## A request (R438, R439) -/

theorem request_never (d : Nat) (s : State) : request d 3 s = s := if_pos rfl

theorem request_alwaysOn (h3 : tgt ≠ 3) (hd : domAO ≤ d) : request d tgt s = reqRefused d tgt 10 (countO 2 0 d 1 s) := by
  simp [request, h3, hd]

theorem request_starts (h3 : tgt ≠ 3) (hd : d < domAO) (hc : (pdom s d).cur = none) :
    request d tgt s = startReq d tgt s.tim.now (countO 2 0 d 1 s) := by
  simp [request, h3, Nat.not_le.mpr hd, pdom_countO, hc]

theorem request_waits (h3 : tgt ≠ 3) (hd : d < domAO) (hc : (pdom s d).cur ≠ none) :
    request d tgt s =
      setPdom d { pdom s d with queued := some tgt, res := if (pdom s d).queued.isSome then 5 else (pdom s d).res } (countO 2 0 d 1 s) := by
  simp [request, h3, Nat.not_le.mpr hd, pdom_countO, hc]

theorem startReq_reached {c : Nat} (h : (pdom s d).state = tgt) :
    startReq d tgt c s = doneNote d (setPdom d { pdom s d with res := 1, cause := 0 } s) := if_pos h.symm

theorem startReq_returns {c : Nat} (h : (pdom s d).state ≠ 0) :
    startReq d 0 c s = setPdom d { pdom s d with cur := some 0, curAt := c } s := by
  simp [startReq, h.symm]

theorem startReq_asleep {c : Nat} (h : (pdom s d).state ≠ 0) (h0 : tgt ≠ 0) (hs : tgt ≠ (pdom s d).state) :
    startReq d tgt c s = reqRefused d tgt 11 (setPdom d { pdom s d with res := 2, cause := 11 } s) := by
  simp [startReq, h, h0, hs]

end

/-- R452: a request for a domain that is always ON is refused. -/
theorem request_alwaysOn_effect {d tgt : Nat} {s : State} (h3 : tgt ≠ 3) (hd : domAO ≤ d) :
    (∀ e, (pdom (request d tgt s) e).cur = (pdom s e).cur ∧ (pdom (request d tgt s) e).state = (pdom s e).state) ∧
      Changes noted s (request d tgt s) := by
  rw [request_alwaysOn h3 hd]
  have kept := (PowerKeeps.of_changes (l' := noted) (changes_countO 2 0 d 1 s)).trans (powerKeeps_reqRefused d tgt 10 _)
  exact ⟨fun e => ⟨(congrArg PDom.cur (kept.dom e) :), (congrArg PDom.state (kept.dom e) :)⟩, kept.changes⟩

/-- R439: a request for the state that the domain is in ends at once and leaves an exit under way alone. -/
theorem request_reached_effect {d tgt : Nat} {s : State} (h3 : tgt ≠ 3) (hd : d < domAO) (hc : (pdom s d).cur = none)
    (hs : (pdom s d).state = tgt) :
    (pdom (request d tgt s) d).sansWake = PDom.sansWake { pdom s d with res := 1, cause := 0 } ∧
      (d ≠ domHP → pdom (request d tgt s) d = { pdom s d with res := 1, cause := 0 }) ∧ Changes noted s (request d tgt s) := by
  rw [request_starts h3 hd hc, startReq_reached (by rw [pdom_countO]; exact hs), pdom_countO]
  have note (u : State) : PowerKeeps noted u (doneNote d u) := powerKeeps_notice _ _ _
  exact ⟨((note _).dom d).trans (congrArg _ pdom_setPdom_same),
    fun h => (pdom_notice_other _ _ h).trans pdom_setPdom_same,
    (((changes_countO 2 0 d 1 s).mono (by decide)).trans ((changes_setPdom _ _ _).mono (by decide))).trans (note _).changes⟩

/-- R440, R443: a request to leave ON becomes current with the wake event of its own cycle, and the units are asked. -/
theorem request_leaves_effect {d tgt : Nat} {s : State} (h3 : tgt ≠ 3) (hd : d < domAO) (hc : (pdom s d).cur = none)
    (hs : (pdom s d).state = 0) (h0 : tgt ≠ 0) :
    pdom (request d tgt s) d = { pdom s d with
        cur := some tgt, curAt := s.tim.now, wake := firedAt s d s.tim.now, wakeAt := s.tim.now, acc := 0, phase := 1 } ∧
      (d < 64 → (chnOf (request d tgt s) d).closing = true) ∧ Changes [.pwr, .chn, .qbm, .cnt] s (request d tgt s) := by
  have fired : firedAt (countO 2 0 d 1 s) d s.tim.now = firedAt s d s.tim.now := by simp [firedAt]
  rw [request_starts h3 hd hc, startReq_leaves (by rw [pdom_countO]; exact hs) h0, pdom_countO, fired]
  refine ⟨(pdom_of_pwr (changes_askUnits d true _ .pwr (by decide))).trans pdom_setPdom_same, fun h => ?_,
    (((changes_countO 2 0 d 1 s).mono (by decide)).trans ((changes_setPdom _ _ _).mono (by decide))).trans
      ((changes_askUnits d true _).mono (by decide))⟩
  rw [askUnits, if_pos h, chnOf_modChn_same]

/-- R439: a request for ON waits for the exit. -/
theorem request_returns_effect {d : Nat} {s : State} (hd : d < domAO) (hc : (pdom s d).cur = none) (hs : (pdom s d).state ≠ 0) :
    pdom (request d 0 s) d = { pdom s d with cur := some 0, curAt := s.tim.now } ∧ Changes [.pwr, .cnt] s (request d 0 s) := by
  rw [request_starts (by decide) hd hc, startReq_returns (by rw [pdom_countO]; exact hs), pdom_countO]
  exact ⟨pdom_setPdom_same, ((changes_countO 2 0 d 1 s).mono (by decide)).trans ((changes_setPdom _ _ _).mono (by decide))⟩

/-- R452: a request for RET or OFF that does not start from ON is refused. -/
theorem request_asleep_effect {d tgt : Nat} {s : State} (h3 : tgt ≠ 3) (hd : d < domAO) (hc : (pdom s d).cur = none)
    (hs : (pdom s d).state ≠ 0) (h0 : tgt ≠ 0) (hn : tgt ≠ (pdom s d).state) :
    (pdom (request d tgt s) d).sansWake = PDom.sansWake { pdom s d with res := 2, cause := 11 } ∧ Changes noted s (request d tgt s) := by
  rw [request_starts h3 hd hc, startReq_asleep (by rw [pdom_countO]; exact hs) h0 (by rw [pdom_countO]; exact hn), pdom_countO]
  have refused (u : State) := powerKeeps_reqRefused d tgt 11 u
  exact ⟨((refused _).dom d).trans (congrArg _ pdom_setPdom_same),
    (((changes_countO 2 0 d 1 s).mono (by decide)).trans ((changes_setPdom _ _ _).mono (by decide))).trans (refused _).changes⟩

/-- R439: a request behind a current one is queued, and takes the place of one that was. -/
theorem request_waits_effect {d tgt : Nat} {s : State} (h3 : tgt ≠ 3) (hd : d < domAO) (hc : (pdom s d).cur ≠ none) :
    (pdom (request d tgt s) d).queued = some tgt ∧ (pdom (request d tgt s) d).cur = (pdom s d).cur ∧
      ((pdom s d).queued ≠ none → (pdom (request d tgt s) d).res = 5) ∧ Changes [.pwr, .cnt] s (request d tgt s) := by
  rw [request_waits h3 hd hc, pdom_setPdom_same]
  exact ⟨rfl, rfl, fun h => if_pos (Option.isSome_iff_ne_none.mpr h),
    ((changes_countO 2 0 d 1 s).mono (by decide)).trans ((changes_setPdom _ _ _).mono (by decide))⟩

/-! ## The answers of the units (R440, Table 14-4) -/

/-- The bits that `latchAns` notes. -/
def accepted (l : List UnitAns) : Nat := (l.zipIdx).foldl (fun n x => if x.1 = .accept then n + 2 ^ x.2 else n) 0

/-- A domain asks at most two units. -/
theorem answers_length_le (d : Nat) (s : State) : (answers d s).length ≤ 2 := by
  have units : (unitAns d ((pdom s d).cur.getD 0) s).length ≤ 2 := by
    unfold unitAns
    split_ifs <;> simp
  simpa [answers] using units

theorem testBit_bits (x y : Bool) (i : Nat) :
    (x.toNat + 2 * y.toNat).testBit i = (([x, y][i]?).getD false) := by
  match i with
  | 0 => cases x <;> cases y <;> rfl
  | 1 => cases x <;> cases y <;> rfl
  | n + 2 =>
    have small : x.toNat + 2 * y.toNat < 2 ^ (n + 2) := by
      have := Bool.toNat_le x
      have := Bool.toNat_le y
      have := Nat.one_le_two_pow (n := n)
      have : 2 ^ (n + 2) = 4 * 2 ^ n := by ring
      omega
    simpa using Nat.testBit_lt_two_pow small

/-- The noted bits are those of the units that accept. -/
theorem testBit_accepted {l : List UnitAns} (h : l.length ≤ 2) (i : Nat) : (accepted l).testBit i = (l[i]? == some .accept) := by
  match l with
  | [] => simp [accepted]
  | [a] =>
    have noted : accepted [a] = (decide (a = .accept)).toNat + 2 * false.toNat := by
      by_cases ha : a = .accept <;> simp [accepted, ha]
    rw [noted, testBit_bits]
    match i with
    | 0 => by_cases ha : a = .accept <;> simp [ha]
    | 1 => simp
    | n + 2 => simp
  | [a, b] =>
    have noted : accepted [a, b] = (decide (a = .accept)).toNat + 2 * (decide (b = .accept)).toNat := by
      by_cases ha : a = .accept <;> by_cases hb : b = .accept <;> simp [accepted, ha, hb]
    rw [noted, testBit_bits]
    match i with
    | 0 => by_cases ha : a = .accept <;> simp [ha]
    | 1 => by_cases hb : b = .accept <;> simp [hb]
    | n + 2 => simp

/-! ## The handshake (R440) -/

section
variable {d c : Nat} {s : State}

theorem handshake_refused (h1 : (pdom s d).phase = 1) (hd : (pdom s d).curAt + 1 ≤ s.tim.now) (hr : refusalOf (answers d s) = some c) :
    handshake d s = refuseCur d c s := by
  simp [handshake, h1, waitUntil_due hd, hr]

theorem handshake_waits (h1 : (pdom s d).phase = 1) (hd : (pdom s d).curAt + 1 ≤ s.tim.now) (hr : refusalOf (answers d s) = none)
    (hl : .delay ∈ answers d s) : handshake d s = latchAns d (answers d s) s := by
  simp [handshake, h1, waitUntil_due hd, hr, hl, show ¬ s.tim.now ≤ (pdom s d).curAt by omega]

theorem handshake_starts (h1 : (pdom s d).phase = 1) (hd : (pdom s d).curAt + 1 ≤ s.tim.now) (hr : refusalOf (answers d s) = none)
    (hl : .delay ∉ answers d s) : handshake d s = startEntry d s := by
  simp [handshake, h1, waitUntil_due hd, hr, hl, show ¬ s.tim.now ≤ (pdom s d).curAt by omega]

theorem delayLimit_refuses (h1 : (pdom s d).phase = 1) (hd : (pdom s d).curAt + fourTicks ≤ s.tim.now)
    (hr : refusalOf (answers d s) = none) (hl : .delay ∈ answers d s) : delayLimit d s = refuseCur d 9 s := by
  simp [delayLimit, h1, waitUntil_due hd, hr, hl, Nat.not_lt.mpr hd]

/-- R440, R452: the current request is refused, and no request is queued behind it. -/
theorem refuseCur_effect (hq : (pdom s d).queued = none) :
    (pdom (refuseCur d c s) d).res = 2 ∧ (pdom (refuseCur d c s) d).cause = c ∧ (pdom (refuseCur d c s) d).cur = none ∧
      (pdom (refuseCur d c s) d).phase = 0 ∧ (pdom (refuseCur d c s) d).state = (pdom s d).state ∧
      Changes (.chn :: .qbm :: noted) s (refuseCur d c s) := by
  let ended := modPdom d (fun p => { p with wake := 0 }) (endReq d 2 c (askUnits d false s))
  have units := changes_askUnits d false s
  have refused := powerKeeps_reqRefused d ((pdom s d).cur.getD 0) c ended
  have dom : (pdom (reqRefused d ((pdom s d).cur.getD 0) c ended) d).sansWake =
      PDom.sansWake { pdom s d with res := 2, cause := c, cur := none, phase := 0 } := by
    rw [refused.dom d]
    simp only [ended, modPdom, endReq, pdom_setPdom_same, pdom_of_pwr (units .pwr (by decide)), PDom.sansWake]
  have whole : refuseCur d c s = reqRefused d ((pdom s d).cur.getD 0) c ended :=
    nextReq_none ((congrArg PDom.queued dom :).trans hq)
  rw [whole]
  exact ⟨(congrArg PDom.res dom :), (congrArg PDom.cause dom :), (congrArg PDom.cur dom :), (congrArg PDom.phase dom :),
    (congrArg PDom.state dom :), (((units.mono (by decide)).trans ((changes_setPdom _ _ _).mono (by decide))).trans
    ((changes_setPdom _ _ _).mono (by decide))).trans (refused.changes.mono (by decide))⟩

end

/-! ## The statement -/

/-- A write of PWR_REQ is a request (R438). -/
theorem runs_pwrReq {data : Word} {s : State} (hr : Ready s) :
    Runs (.pwrReq 0 0xF data) s (request (fld data 0 7) (fld data 8 2) (begin_ s)) :=
  runs_p0 (c := .pwrReq 0 0xF data) (f := writePwrReq data) rfl hr

/-- Settles O54: each outcome of a request and of its handshake is the effect of one of the operations above. -/
theorem powerRequests : Obligations.PowerRequests := by
  intro s
  refine ⟨fun data d tgt hr hd ht => ?_, fun dom a h1 ha => ?_⟩
  · have run := runs_pwrReq (data := data) hr
    rw [← hd, ← ht] at run
    refine ⟨fun h3 => ?_, fun hAO h3 => ?_, fun hAO h3 hc => ⟨fun hs => ?_, fun hs h0 => ?_, fun hs h0 => ?_, fun hs h0 hn => ?_⟩,
      fun hAO h3 hc => ?_⟩
    · rwa [h3, request_never] at run
    · obtain ⟨doms, ch⟩ := request_alwaysOn_effect (s := begin_ s) h3 hAO
      exact ⟨_, run, doms, ch.of_begin⟩
    · obtain ⟨dom, exact_, ch⟩ := request_reached_effect (s := begin_ s) h3 hAO hc hs
      exact ⟨_, run, (congrArg PDom.res dom :), (congrArg PDom.cur dom :).trans hc, (congrArg PDom.state dom :).trans hs,
        (congrArg PDom.phase dom :), exact_, ch.of_begin⟩
    · obtain ⟨dom, closing, ch⟩ := request_leaves_effect (s := begin_ s) h3 hAO hc hs h0
      exact ⟨_, run, dom, closing, ch.of_begin⟩
    · rw [h0] at run
      obtain ⟨dom, ch⟩ := request_returns_effect (s := begin_ s) hAO hc hs
      exact ⟨_, run, dom, ch.of_begin⟩
    · obtain ⟨dom, ch⟩ := request_asleep_effect (s := begin_ s) h3 hAO hc hs h0 hn
      exact ⟨_, run, (congrArg PDom.res dom :), (congrArg PDom.cause dom :), (congrArg PDom.cur dom :).trans hc,
        (congrArg PDom.state dom :), ch.of_begin⟩
    · obtain ⟨queued, cur, res, ch⟩ := request_waits_effect (s := begin_ s) h3 hAO hc
      exact ⟨_, run, queued, cur, res, ch.of_begin⟩
  · subst ha
    refine ⟨fun hd hr hl => ?_, fun hd hr hl => ?_, fun c hd hr hq => ?_, fun hd hr hl hq => ?_⟩
    · have run : Runs (.entryHandshakeDone dom) s (startEntry dom.toNat (begin_ s)) :=
        congrArg Host.Outcome.next (handshake_starts (s := begin_ s) h1 hd hr hl)
      exact ⟨_, run, pdom_setPdom_same, rfl, (changes_setPdom _ _ (begin_ s)).of_begin⟩
    · have run : Runs (.entryHandshakeDone dom) s (latchAns dom.toNat (answers dom.toNat s) (begin_ s)) :=
        congrArg Host.Outcome.next (handshake_waits (s := begin_ s) h1 hd hr hl)
      have latched : pdom (latchAns dom.toNat (answers dom.toNat s) (begin_ s)) dom.toNat =
          { pdom s dom.toNat with acc := accepted (answers dom.toNat s) } := pdom_setPdom_same
      refine ⟨_, run, ?_, fun i => ?_, rfl, (changes_setPdom _ _ (begin_ s)).of_begin⟩
      · rw [latched]
      · rw [latched]
        exact testBit_accepted (answers_length_le _ _) i
    · have run : Runs (.entryHandshakeDone dom) s (refuseCur dom.toNat c (begin_ s)) :=
        congrArg Host.Outcome.next (handshake_refused (s := begin_ s) h1 hd hr)
      obtain ⟨res, cause, cur, phase, state, ch⟩ := refuseCur_effect (c := c) (s := begin_ s) hq
      exact ⟨_, run, res, cause, cur, phase, state, ch.of_begin⟩
    · have run : Runs (.handshakeDelayLimit dom) s (refuseCur dom.toNat 9 (begin_ s)) :=
        congrArg Host.Outcome.next (delayLimit_refuses (s := begin_ s) h1 hd hr hl)
      obtain ⟨res, cause, cur, phase, -, ch⟩ := refuseCur_effect (c := 9) (s := begin_ s) hq
      exact ⟨_, run, res, cause, cur, phase, ch.of_begin⟩

end Sys2Proof.Machine
end

section
/-!
SUPPORT. SD_WAKE in the cycle in which PWR_WEN is written (R445, R455): the source counts as enabled from the next cycle on.
-/

namespace Sys2Proof.Machine

-- one declaration at a time: the package is compiled as one text within a limit of memory
set_option Elab.async false

/-- The domain of tree 0 lies in RET, and PWR_WEN enabled its SD source in this very cycle. -/
def wenJustWritten : State :=
  { State.reset with
    regs := { State.reset.regs with val := [(pagePWR + 0x1000, 0x10)] }
    pwr := { State.reset.pwr with dom := [(0, { PDom.on with state := 1 })], wenAt := 0, wenWas := [(pagePWR + 0x1000, 0)] } }

/-- The wake event of that cycle is not taken (R455). -/
theorem sdWake_wenJustWritten : (pdom (sdWake 0 (begin_ wenJustWritten)) 0).wake = 0 := by decide +kernel

/-- Refutes O56: in the cycle in which PWR_WEN enables a source that source wakes nothing yet, though the register reads 1
(`wenJustWritten`). -/
theorem not_powerExit : ¬ Obligations.PowerExit := by
  intro h
  obtain ⟨wakes, -⟩ := h wenJustWritten
  obtain ⟨enabled, -⟩ := wakes 0 { PDom.on with state := 1 } (by decide)
  obtain ⟨asleep, -⟩ := enabled (by decide +kernel)
  obtain ⟨t, run, woken, -⟩ := asleep (by decide) (by decide) rfl
  have done : sdWake 0 (begin_ wenJustWritten) = t := Host.Outcome.next.inj run
  have none := sdWake_wenJustWritten
  rw [done, show pdom t 0 = _ from woken] at none
  exact absurd none (by decide)

end Sys2Proof.Machine
end

section
/-!
SUPPORT. A frame that an uplink port sends (R166, R255, R392): which head the port picks, and what the start of its transmission leaves.
-/

namespace Sys2Proof.Machine

-- one declaration at a time: the package is compiled as one text within a limit of memory
set_option Elab.async false

/-! ## Reads that turn on the buffer manager alone -/

section
variable {s t u : State} {p i n : Nat} {k : Token} {f : Frame}

theorem walkLink_of_qbm (h : t.qbm = s.qbm) (n c : Nat) : walkLink t n c = walkLink s n c := by
  have link (c : Nat) : linkOf t c = linkOf s c := by simp only [linkOf, h]
  induction n generalizing c with
  | zero => rfl
  | succ n ih =>
    unfold walkLink
    simp only [ih, link]

theorem egrRead_of_qbm (h : t.qbm = s.qbm) (f : Frame) (k : Nat) : egrRead t f k = egrRead s f k := by
  have grp (g : Nat) : grpOf t g = grpOf s g := grpOf_of_qbm h g
  unfold egrRead
  simp only [walkLink_of_qbm h, grp]

/-! ## Cells that are not marked go back -/

theorem changes_freeCell_unmarked {c : Nat} (h : (grpOf s (c / 16384)).bad.contains c = false) : Changes [.qbm] s (freeCell c s) := by
  unfold freeCell
  extract_lets q s1 g v
  rw [if_neg (by rw [show v.bad = (grpOf s (c / 16384)).bad from rfl, h]; decide)]
  split
  · exact changes_qbm _ s
  · exact (changes_qbm q s).trans (changes_qbm _ _)

theorem changes_freeCellsOf_unmarked {l : List Nat} (h : ∀ c ∈ l, (grpOf s (c / 16384)).bad.contains c = false) :
    Changes [.qbm] s (freeCellsOf l s) := by
  unfold freeCellsOf
  induction l generalizing s with
  | nil => exact changes_refl _ s
  | cons c l ih =>
    obtain ⟨-, -, bad⟩ := freeCell_unmarked (h c List.mem_cons_self)
    exact (changes_freeCell_unmarked (h c List.mem_cons_self)).trans
      (ih (s := freeCell c s) fun d hd => by rw [bad]; exact h d (List.mem_cons_of_mem _ hd))

/-- A frame that is no send's gives back its cells and its stamp. -/
theorem changes_freeFrame_unmarked (h : ∀ c ∈ f.cells, (grpOf s (c / 16384)).bad.contains c = false) (hs : f.send = none) :
    Changes [.qbm, .upl] s (freeFrame n f s) := by
  have cells := changes_freeCellsOf_unmarked h
  unfold freeFrame
  extract_lets s1 s2 s3
  have h1 : Changes [.qbm] s s1 := cells.trans (changes_qbm _ _)
  have h2 : Changes [.qbm] s s2 := Changes.ite (fun _ => h1) fun _ => h1.trans (changes_qbm _ _)
  have h3 : Changes [.qbm, .upl] s { s3 with qbm := { s3.qbm with frames := tDel n s3.qbm.frames } } :=
    ((h2.trans (cellsMove_cellsLeave _ _ _).changes).trans (changes_qbm _ _)).mono (by decide)
  generalize ({ s3 with qbm := { s3.qbm with frames := tDel n s3.qbm.frames } } : State) = u at h3 ⊢
  have ended (v : State) : sendDone n f v = v := by
    unfold sendDone
    rw [hs]
  rw [ended]
  unfold stampEnd
  split
  · exact h3
  · exact h3.trans ((changes_upl _ u).mono (by decide))

/-! ## Object counters that an operation leaves alone -/

theorem obj_count1 (i evt : Nat) (s : State) : (count1 i evt s).cnt.obj = s.cnt.obj :=
  (congrArg Cnt.obj (sansVals_countN i evt 1 s) :)

theorem obj_countN (i evt amt : Nat) (s : State) : (countN i evt amt s).cnt.obj = s.cnt.obj :=
  (congrArg Cnt.obj (sansVals_countN i evt amt s) :)

theorem obj_wasIn (c : Nat) (x : Cnt) : (wasIn c x).obj = x.obj := (congrArg Cnt.obj (sansVals_wasIn c x) :)

theorem obj_smpLose (s : State) : (smpLose s).cnt.obj = s.cnt.obj := (obj_wasIn _ _).trans (obj_count1 _ _ _)

theorem obj_hostWrites (l : List WrReq) (s : State) : (hostWrites l s).cnt.obj = s.cnt.obj := (congrArg Cnt.obj (noted_hostWrites l s).cnt :)

theorem obj_smpWrite (i n skid : Nat) (x : SmpFrame) (s : State) : (smpWrite i n skid x s).cnt.obj = s.cnt.obj := by
  unfold smpWrite
  extract_lets size base b s1
  split
  · exact obj_smpLose s
  · exact (obj_count1 _ _ _).trans (obj_hostWrites _ _)

theorem obj_completeAs (i : Nat) (x : SmpFrame) (s : State) : (completeAs i x s).cnt.obj = s.cnt.obj := by
  unfold completeAs
  split
  · rfl
  · split
    · rfl
    · extract_lets s1
      split
      · exact obj_smpWrite _ _ _ _ _
      · rfl

/-- A reference to a frame with no marked cell is released. -/
theorem obj_release1_unmarked (hf : frameOf s n = some f) (h : ∀ c ∈ f.cells, (grpOf s (c / 16384)).bad.contains c = false)
    (hs : f.send = none) : (release1 n s).cnt.obj = s.cnt.obj := by
  unfold release1
  rw [hf]
  dsimp only
  split
  · have same : (complete 6 f s).qbm = s.qbm := changes_complete 6 f s .qbm (by decide)
    have freed : Changes [.qbm, .upl] (complete 6 f s) (freeFrame n f (complete 6 f s)) :=
      changes_freeFrame_unmarked (fun c hc => by rw [grpOf_of_qbm same]; exact h c hc) hs
    exact (congrArg Cnt.obj (freed .cnt (by decide)) :).trans (obj_completeAs _ _ _)
  · rfl

theorem obj_objAdd (arr o evt amt : Nat) (s : State) :
    (objAdd arr o evt amt s).cnt.obj = tMod 0 s.cnt.obj ((arr * 131072 + o) * 4 + evt) (fun v => (v + amt) % 2 ^ 48) := by
  unfold objAdd
  extract_lets k c
  have h : c.obj = s.cnt.obj := by
    simp only [c]
    unfold keepObj
    extract_lets y
    split
    · exact obj_wasIn _ _
    · exact obj_wasIn _ _
  clear_value c
  show tMod 0 c.obj k (fun v => (v + amt) % 2 ^ 48) = _
  rw [h]

theorem tGet_objAdd_same (arr o evt amt : Nat) (s : State) :
    tGet 0 (objAdd arr o evt amt s).cnt.obj ((arr * 131072 + o) * 4 + evt) = (tGet 0 s.cnt.obj ((arr * 131072 + o) * 4 + evt) + amt) % 2 ^ 48 := by
  rw [obj_objAdd]
  exact tGet_tSet_same _ _ _ _

theorem tGet_objAdd_other {arr o evt amt j : Nat} (hj : j ≠ (arr * 131072 + o) * 4 + evt) (s : State) :
    tGet 0 (objAdd arr o evt amt s).cnt.obj j = tGet 0 s.cnt.obj j := by
  rw [obj_objAdd]
  exact tGet_tSet_other hj _ _ _ _

end

/-! ## The head that a port picks (R167, R255, R269) -/

section
variable {s : State} {p i n : Nat} {k : Token} {rest : List Token} {f : Frame}

/-- Priority 7 has a head that may start: it goes first. -/
theorem pickQueue_highest (hp : pfcStops s p i s.tim.now = false) (hr : shaperRate s p i = 0) (hq : queueOf s (qUpl p i) = k :: rest)
    (hf : frameOf s k.frame = some f) (hs : startAt k ≤ s.tim.now) (hm : f.mark = .good) (hl : loopU s p = 0) (ha : asleep s f = false) :
    pickQueue p (n + 1) i s = (some (i, k, f), wakeGroups f s) := by
  have credit : shaperOk s p i = true := by simp [shaperOk, hr]
  unfold pickQueue
  simp [hp, credit, hq, hf, Nat.not_lt.mpr hs, hm, hl, ha, markBad, turns]

/-- The wake events for the groups of a frame. -/
theorem changes_wakeGroups (f : Frame) (s : State) : Changes [.pwr] s (wakeGroups f s) :=
  Changes.foldl (fun u g => changes_wake _ _ u) _ s

theorem le_foldl_add {α : Type} (g : α → Nat) (l : List α) (a : Nat) : a ≤ l.foldl (fun n x => n + g x) a := by
  induction l generalizing a with
  | nil => exact le_rfl
  | cons x l ih => exact (Nat.le_add_right _ _).trans (ih _)

theorem quiet_now (h : (uplOf s p).pause = none) : pauseStops s p s.tim.now = false := by
  unfold pauseStops
  simp [h]

theorem headAt_le (hi : i < 8) (hq : queueOf s (qUpl p i) = k :: rest) : headAt s p ≤ startAt k := by
  have mem : startAt k ∈ (List.range 8).filterMap (fun i => (queueOf s (qUpl p i)).head?.map startAt) :=
    List.mem_filterMap.mpr ⟨i, List.mem_range.mpr hi, by rw [hq]; rfl⟩
  unfold headAt
  cases hm : ((List.range 8).filterMap (fun i => (queueOf s (qUpl p i)).head?.map startAt)).min? with
  | none => exact Nat.zero_le _
  | some c => exact (List.min?_eq_some_iff.mp hm).2 _ mem

end

end Sys2Proof.Machine
end

section
/-!
SUPPORT. The start of a frame on an uplink (R166, R255, R392): counted, on the wire, logged, and its token released.
-/

namespace Sys2Proof.Machine

-- one declaration at a time: the package is compiled as one text within a limit of memory
set_option Elab.async false

section
variable {s t : State} {p i : Nat} {k : Token} {rest : List Token} {f : Frame}

theorem changes_shaperCharge (p i n : Nat) (s : State) : Changes [.upl] s (shaperCharge p i n s) :=
  Changes.ite (fun _ => changes_refl _ s) fun _ => changes_modUpl _ _ s

/-- A probe that leaves is noted by its Ventriloquist; the loops stand. -/
theorem probeLeaves_effect (p n len : Nat) (s : State) :
    Changes [.tst] s (probeLeaves p n len s) ∧ loopU (probeLeaves p n len s) p = loopU s p ∧ (probeLeaves p n len s).out = s.out := by
  have fold (l : List (Nat × Loop)) (g : State → Nat × Loop → State)
      (hg : ∀ u e, Changes [.tst] u (g u e) ∧ loopU (g u e) p = loopU u p ∧ (g u e).out = u.out) (u : State) :
      Changes [.tst] u (l.foldl g u) ∧ loopU (l.foldl g u) p = loopU u p ∧ (l.foldl g u).out = u.out := by
    induction l generalizing u with
    | nil => exact ⟨changes_refl _ u, rfl, rfl⟩
    | cons e l ih =>
      obtain ⟨ch, loop, out⟩ := hg u e
      obtain ⟨ch', loop', out'⟩ := ih (g u e)
      exact ⟨ch.trans ch', loop'.trans loop, out'.trans out⟩
  unfold probeLeaves
  extract_lets eof at_
  split
  · exact ⟨changes_refl _ s, rfl, rfl⟩
  · refine fold _ _ (fun u e => ?_) s
    dsimp only
    split
    · exact ⟨changes_tst _ u, rfl, rfl⟩
    · exact ⟨changes_refl _ u, rfl, rfl⟩

theorem changes_emit (l : List Comp) (o : Out) (s : State) : Changes l s (emit o s) := fun c _ => by cases c <;> rfl

theorem changes_countN (i evt amt : Nat) (s : State) : Changes [.cnt] s (countN i evt amt s) :=
  Changes.ite (fun _ => changes_refl _ s) fun _ => changes_cnt _ s


theorem takeTxStamp_noSend (h : f.send = none) (p n stamp : Nat) : takeTxStamp p n stamp f s = s := by
  unfold takeTxStamp
  rw [h]

theorem leaves_noSend {n : Nat} (hf : frameOf s n = some f) (h : f.send = none) (c : Nat) : leaves n c s = s := by
  unfold leaves
  rw [hf]
  simp [h]

theorem sentPart_last {q : Nat} (hk : tGet 0 s.qbm.segs q = 0) (h : f.send = none) : sentPart q k f s = release1 k.frame (popHead q k s) := by
  unfold sentPart
  extract_lets j
  have one : outCount f = 1 := by
    unfold outCount
    rw [h]
  rw [if_neg (by simp only [j]; omega)]

/-- A frame is on the wire: counted for its queue, and the wire taken. -/
structure OnWire (p i : Nat) (b : List Byte) (s t : State) : Prop where
  changes : Changes [.upl, .tst, .cnt] s t
  busy : s.tim.now < (uplOf t p).busy
  obj : tGet 0 t.cnt.obj ((2 * 131072 + (8 * p + i)) * 4) = (tGet 0 s.cnt.obj ((2 * 131072 + (8 * p + i)) * 4) + 1) % 2 ^ 48
  out : t.out = s.out ++ [.upeTx p b false]

theorem wireCyc_pos (s : State) (p n : Nat) : 0 < wireCyc s p n := by
  have width : 40 ≤ uplBytes s p ∧ uplBytes s p ≤ 80 := by
    unfold uplBytes
    split <;> omega
  unfold wireCyc ceilDiv
  exact Nat.div_pos (by omega) (by omega)

/-- The start of a whole frame of no send, on a port that no loop turns back. -/
theorem startFrame_starts (hl : loopU s p = 0) (hk : tGet 0 s.qbm.segs (qUpl p i) = 0) (hf : frameOf s k.frame = some f)
    (hs : f.send = none) (full stamp : Nat) (b : List Byte) :
    ∃ u c, OnWire p i b s u ∧ startFrame p i k f full ⟨b, false, false⟩ stamp false s =
      release1 k.frame (popHead (qUpl p i) k (logStart (qUpl p i) k (completeAt c (iUPL p) (smpOf f) u))) := by
  unfold startFrame
  extract_lets q n again s1 s2 s3 end_ s4 s5 s6 s7
  have h1 : Changes [.upl, .cnt] s s1 ∧ s1.cnt.obj = s.cnt.obj ∧ s1.out = s.out := by
    simp only [s1]
    split
    · exact ⟨((changes_modUpl _ _ s).mono (by decide)).trans ((changes_count1 _ _ _).mono (by decide)), obj_count1 _ _ _, by simp; rfl⟩
    · exact ⟨changes_refl _ s, rfl, rfl⟩
  obtain ⟨ch1, obj1, out1⟩ := h1
  have h2 : Changes [.upl, .cnt] s s2 ∧ s2.cnt.obj = s.cnt.obj ∧ s2.out = s.out := by
    refine ⟨ch1.trans (Changes.trans (t := count1 (iUPL p) 2 s1) ((changes_count1 _ _ s1).mono (by decide)) ?_), ?_, ?_⟩
    · exact (changes_countN _ _ _ _).mono (by decide)
    · exact (obj_countN _ _ _ _).trans ((obj_count1 _ _ s1).trans obj1)
    · simpa [s2] using out1
  obtain ⟨ch2, obj2, out2⟩ := h2
  clear_value s1 s2
  have ch3 : Changes [.upl, .cnt] s s3 := ch2.trans (((changes_objAdd _ _ _ _ s2).trans (changes_objAdd _ _ _ _ _)).mono (by decide))
  have obj3 : tGet 0 s3.cnt.obj ((2 * 131072 + (8 * p + i)) * 4) = (tGet 0 s.cnt.obj ((2 * 131072 + (8 * p + i)) * 4) + 1) % 2 ^ 48 := by
    have other : tGet 0 (objAdd 2 (8 * p + i) 1 n s2).cnt.obj ((2 * 131072 + (8 * p + i)) * 4) = tGet 0 s2.cnt.obj ((2 * 131072 + (8 * p + i)) * 4) :=
      tGet_objAdd_other (by omega) s2
    rw [← obj2, ← other]
    exact tGet_objAdd_same 2 (8 * p + i) 0 1 _
  have out3 : s3.out = s.out := out2
  clear_value s3
  have ch4 : Changes [.upl, .cnt] s s4 := (ch3.trans ((changes_shaperCharge _ _ _ _).mono (by decide))).trans ((changes_modUpl _ _ _).mono (by decide))
  have cnt4 : s4.cnt = s3.cnt := ((changes_shaperCharge p i full s3).trans (changes_modUpl p _ _)) .cnt (by decide)
  have out4 : s4.out = s.out := by
    refine Eq.trans (show s4.out = (shaperCharge p i full s3).out from rfl) (Eq.trans ?_ out3)
    unfold shaperCharge
    split <;> rfl
  have busy4 : s.tim.now < (uplOf s4 p).busy := by
    have wire := wireCyc_pos s p n
    have taken : (uplOf s4 p).busy = s.tim.now + wireCyc s p n := by simp [s4]
    omega
  clear_value s4
  have left : Changes [.tst] s4 s5 ∧ loopU s5 p = loopU s4 p ∧ s5.out = s4.out := by
    simp only [s5]
    rw [takeTxStamp_noSend hs, ite_self]
    exact probeLeaves_effect p k.frame n s4
  obtain ⟨probe, loop, out⟩ := left
  clear_value s5
  have ch5 : Changes [.upl, .tst, .cnt] s s5 := (ch4.mono (by decide)).trans (probe.mono (by decide))
  have loop5 : loopU s5 p = 0 := by
    have same : s4.tst = s.tst := ch4 .tst (by decide)
    rw [loop, loopU, loopOf, same]
    exact hl
  have out5 : s5.out = s.out := out.trans out4
  have wire : portEmit p b false s5 = emit (.upeTx p b false) s5 := if_neg (by rw [loop5]; decide)
  have qbm5 : s5.qbm = s.qbm := ch5 .qbm (by decide)
  have h6 : s6 = completeAt end_ (iUPL p) (smpOf f) (emit (.upeTx p b false) s5) := by
    have found : frameOf (emit (.upeTx p b false) s5) k.frame = some f := (congrArg (fun q : Qbm => tFind k.frame q.frames) qbm5).trans hf
    simp only [s6]
    rw [wire, leaves_noSend found hs]
  have h7 : s7 = release1 k.frame (popHead q k (logStart q k s6)) := by
    have segs : tGet 0 (logStart q k s6).qbm.segs q = 0 := by
      rw [h6]
      exact (congrArg (fun x : Qbm => tGet 0 x.segs q) qbm5).trans hk
    simp only [s7]
    exact sentPart_last segs hs
  rw [if_neg (by rw [hl]; decide), if_neg (by rw [hl]; decide), h7, h6]
  refine ⟨_, _, ⟨?_, ?_, ?_, ?_⟩, rfl⟩
  · exact ch5.trans (changes_emit _ _ _)
  · have upl5 : s5.upl = s4.upl := probe .upl (by decide)
    show s.tim.now < (tGet Upl.empty s5.upl p).busy
    rw [upl5]
    exact busy4
  · have cnt5 : s5.cnt = s4.cnt := probe .cnt (by decide)
    show tGet 0 s5.cnt.obj _ = _
    rw [cnt5, cnt4]
    exact obj3
  · show s5.out ++ _ = _
    rw [out5]

end

end Sys2Proof.Machine
end

section
/-!
SUPPORT. UPLINK_FRAME_TRANSMIT (R53, R166, R255, R392): the head of a port's highest queue is sent.
-/

namespace Sys2Proof.Machine

-- one declaration at a time: the package is compiled as one text within a limit of memory
set_option Elab.async false

section
variable {s t u : State} {p i : Nat} {k : Token} {rest : List Token} {f : Frame}

/-- A frame on the wire is logged, and its token leaves its queue. -/
def frameGone (p i c : Nat) (k : Token) (f : Frame) (u : State) : State :=
  release1 k.frame (popHead (qUpl p i) k (logStart (qUpl p i) k (completeAt c (iUPL p) (smpOf f) u)))

/-- What a sent frame leaves: the queue without its token, the start in the commit log, the wire taken, the frame counted. -/
theorem frameGone_effect {b : List Byte} (hu : OnWire p i b s u) (hq : queueOf s (qUpl p i) = k :: rest) (hf : frameOf s k.frame = some f)
    (hs : f.send = none) (clean : egrRead s f 0 = .clean) (c : Nat) :
    Out.upeTx p b false ∈ (frameGone p i c k f u).out ∧ queueOf (frameGone p i c k f u) (qUpl p i) = rest ∧
      tGet 0 (frameGone p i c k f u).qbm.commit (qUpl p i) = (k.seq + 1) % 2 ^ 32 ∧
      tGet 0 (frameGone p i c k f u).cnt.obj ((2 * 131072 + (8 * p + i)) * 4) =
        (tGet 0 s.cnt.obj ((2 * 131072 + (8 * p + i)) * 4) + 1) % 2 ^ 48 ∧
      s.tim.now < (uplOf (frameGone p i c k f u) p).busy ∧
      Changes (.qbm :: .upl :: .tst :: .fresh :: faulted) s (frameGone p i c k f u) := by
  have qbm : u.qbm = s.qbm := hu.changes .qbm (by decide)
  let v := popHead (qUpl p i) k (logStart (qUpl p i) k (completeAt c (iUPL p) (smpOf f) u))
  have popped : queueOf v (qUpl p i) = rest := by
    refine (queueOf_setQueue_same _ _ _).trans ?_
    show (tGet [] u.qbm.q (qUpl p i)).drop 1 = rest
    rw [qbm, show tGet [] s.qbm.q (qUpl p i) = k :: rest from hq]
    rfl
  have logged : tGet 0 v.qbm.commit (qUpl p i) = (k.seq + 1) % 2 ^ 32 := tGet_tSet_same _ _ _ _
  have frame : frameOf v k.frame = some f := (congrArg (fun x : Qbm => tFind k.frame x.frames) qbm).trans hf
  have cells (x : Nat) (hx : x ∈ f.cells) : (grpOf v (x / 16384)).bad.contains x = false := by
    have same : grpOf v (x / 16384) = grpOf s (x / 16384) := by
      show grpOf u (x / 16384) = _
      exact grpOf_of_qbm qbm _
    rw [same]
    exact clean_cells clean hs x hx
  have start : Changes [.qbm, .hrd] u v := (((changes_atCycle _ _ u).mono (by decide)).trans ((changes_qbm _ _).mono (by decide)))
  have freed := freed_release1 k.frame v
  have writes := release1_unmarked frame cells hs
  have obj := obj_release1_unmarked frame cells hs
  refine ⟨?_, (freed.queueOf _).trans popped, ?_, ?_, ?_, ?_⟩
  · refine writes.out _ ?_
    show _ ∈ u.out
    rw [hu.out]
    exact List.mem_append_right _ List.mem_cons_self
  · exact (congrArg (fun x : Qbm => tGet 0 x.commit (qUpl p i)) freed.qbm :).trans logged
  · show tGet 0 (release1 k.frame v).cnt.obj _ = _
    rw [obj]
    exact hu.obj
  · have busy : (uplOf (release1 k.frame v) p).busy = (uplOf v p).busy :=
      (congrArg Upl.busy (freed.upl p) :)
    show s.tim.now < (uplOf (release1 k.frame v) p).busy
    rw [busy]
    exact hu.busy
  · exact ((hu.changes.mono (by decide)).trans (start.mono (by decide))).trans (freed.changes.mono (by decide))

/-! ## The bytes that leave (R166, R355 to R359) -/

/-- A PTP field that a port updates counts at most an event of the port. -/
theorem ptpUpdate_effect (p stamp : Nat) (f : Frame) (b : List Byte) (s : State) :
    Changes [.cnt] s (ptpUpdate p stamp f b s).2 ∧ (ptpUpdate p stamp f b s).2.cnt.obj = s.cnt.obj ∧ (ptpUpdate p stamp f b s).2.out = s.out := by
  have counted (e : Nat) (u : State) (h : Changes [.cnt] s u ∧ u.cnt.obj = s.cnt.obj ∧ u.out = s.out) :
      Changes [.cnt] s (count1 (iUPL p) e u) ∧ (count1 (iUPL p) e u).cnt.obj = s.cnt.obj ∧ (count1 (iUPL p) e u).out = s.out :=
    ⟨h.1.trans (changes_count1 _ _ u), (obj_count1 _ _ u).trans h.2.1, (count1_out _ _ _).trans h.2.2⟩
  have same : Changes [.cnt] s s ∧ s.cnt.obj = s.cnt.obj ∧ s.out = s.out := ⟨changes_refl _ s, rfl, rfl⟩
  unfold ptpUpdate
  split
  · exact same
  · extract_lets pad origin d rx s1
    have padded (u : State) (r : Option (List Byte)) (h : Changes [.cnt] s u ∧ u.cnt.obj = s.cnt.obj ∧ u.out = s.out) :
        Changes [.cnt] s (pad u r).2 ∧ (pad u r).2.cnt.obj = s.cnt.obj ∧ (pad u r).2.out = s.out := by
      cases r with
      | some x => exact h
      | none => exact counted 24 u h
    split
    · split
      · exact counted 22 s same
      · exact padded s _ same
    · split
      · refine padded s1 _ ?_
        simp only [s1]
        split
        · exact counted 23 s same
        · exact same
      · exact same

/-- The head of a queue as it leaves whole: its bytes, and their FCS. -/
theorem headBytes_whole (hk : tGet 0 s.qbm.segs (qUpl p i) = 0) (hm : f.mark = .good) (hl : (outBytes f 0).length + 4 ≤ uplMaxlen s p)
    (stamp : Nat) : headBytes p i stamp f s =
      (((ptpUpdate p stamp f (outBytes f 0) s).1 ++ fcsOf (ptpUpdate p stamp f (outBytes f 0) s).1, false),
        (ptpUpdate p stamp f (outBytes f 0) s).2) := by
  have wire : wireBytes (uplMaxlen s p) f 0 = (outBytes f 0 ++ fcsOf (outBytes f 0), false) := by
    simp [wireBytes, hm, Nat.not_lt.mpr hl]
  have length : (fcsOf (outBytes f 0)).length = 4 := rfl
  unfold headBytes
  rw [hk, wire]
  simp [length]

theorem fcs_right (b : List Byte) : (b ++ fcsOf b).drop ((b ++ fcsOf b).length - 4) = fcsOf ((b ++ fcsOf b).take ((b ++ fcsOf b).length - 4)) := by
  have length : (fcsOf b).length = 4 := rfl
  simp [length]

/-- The head is sent whole. -/
theorem transmit_whole (hl : loopU s p = 0) (hk : tGet 0 s.qbm.segs (qUpl p i) = 0) (hf : frameOf s k.frame = some f) (hs : f.send = none)
    (hm : f.mark = .good) (hlate : f.late = []) (clean : egrRead s f 0 = .clean) (hlen : (outBytes f 0).length + 4 ≤ uplMaxlen s p) (ph : TxPh) :
    ∃ b u c, b.drop (b.length - 4) = fcsOf (b.take (b.length - 4)) ∧ OnWire p i b s u ∧
      transmit p i ph k f .whole s = frameGone p i c k f u := by
  unfold transmit
  extract_lets at_ stamp h b0 j start long anyCut anyCell
  have bytes := headBytes_whole hk hm hlen (at_ ph.before)
  obtain ⟨ch, obj, out⟩ := ptpUpdate_effect p (at_ ph.before) f (outBytes f 0) s
  have h1 : h.1 = ((ptpUpdate p (at_ ph.before) f (outBytes f 0) s).1 ++ fcsOf (ptpUpdate p (at_ ph.before) f (outBytes f 0) s).1, false) :=
    congrArg Prod.fst bytes
  have h2 : h.2 = (ptpUpdate p (at_ ph.before) f (outBytes f 0) s).2 := congrArg Prod.snd bytes
  have qbm : h.2.qbm = s.qbm := by
    rw [h2]
    exact ch .qbm (by decide)
  have loop : loopU h.2 p = 0 := by
    have same : h.2.tst = s.tst := by
      rw [h2]
      exact ch .tst (by decide)
    rw [loopU, loopOf, same]
    exact hl
  have j0 : j = 0 := hk
  dsimp only
  rw [j0, clean]
  dsimp only
  have whole : long h.2 = h.2 := by
    simp only [long]
    rw [h1]
    rfl
  obtain ⟨u, c, wire, run⟩ := startFrame_starts (s := h.2) (i := i) loop (by rw [qbm]; exact hk)
    ((congrArg (fun x : Qbm => tFind k.frame x.frames) qbm).trans hf) hs b0.length stamp b0
  refine ⟨b0, u, c, ?_, ⟨?_, ?_, ?_, ?_⟩, ?_⟩
  · have bytes0 : b0 = _ := congrArg Prod.fst h1
    rw [bytes0]
    exact fcs_right _
  · rw [h2] at wire
    exact (ch.mono (by decide)).trans wire.changes
  · have same : h.2.tim = s.tim := by
      rw [h2]
      exact ch .tim (by decide)
    have := wire.busy
    rwa [same] at this
  · have := wire.obj
    rwa [h2, obj] at this
  · have := wire.out
    rwa [h2, out] at this
  · rw [whole, if_neg (by simp [hlate]), h1]
    exact run

/-! ## The port's turn -/

theorem portTransmit_free (hp : portSends s p = true) (hb : (uplOf s p).busy ≤ s.tim.now) (hfc : fcOn s p = false) (hh : headAt s p ≤ s.tim.now)
    (ph : TxPh) (feed : TxFeed) : portTransmit p ph feed s = portNext p ph feed s := by
  simp [portTransmit, hp, waitUntil_due hb, hfc, waitUntil_due hh]

theorem portNext_highest (hfc : fcOn s p = false) (hq : (uplOf s p).pause = none) (hh : handingFrom s (homeU s p) = false)
    (hp : tGet 0 (uplOf s p).pfc 7 = 0) (hr : shaperRate s p 7 = 0) (hk : queueOf s (qUpl p 7) = k :: rest) (hf : frameOf s k.frame = some f)
    (hs : startAt k ≤ s.tim.now) (hm : f.mark = .good) (hl : loopU s p = 0) (ha : asleep s f = false) (ph : TxPh) (feed : TxFeed) :
    portNext p ph feed s = transmit p 7 ph k f feed (wakeGroups f s) := by
  have free : pfcStops s p 7 s.tim.now = false := by simp [pfcStops, hp]
  have loop : loopU (wakeGroups f s) p = 0 := by
    have same : (wakeGroups f s).tst = s.tst := changes_wakeGroups f s .tst (by decide)
    rw [loopU, loopOf, same]
    exact hl
  obtain ⟨n, hn⟩ : ∃ n, (List.range 8).foldl (fun n i => n + (queueOf s (qUpl p i)).length) 9 = n + 1 :=
    ⟨_, (Nat.succ_pred_eq_of_pos ((by decide : 0 < 9).trans_le (le_foldl_add (fun i => (queueOf s (qUpl p i)).length) (List.range 8) 9))).symm⟩
  unfold portNext
  simp only [hfc, quiet_now hq, hh, Bool.false_and, Bool.or_self, if_neg Bool.false_ne_true, hn,
    pickQueue_highest free hr hk hf hs hm hl ha, loop, if_neg (show ¬ (0 : Nat) = 2 by decide)]

end

/-- Settles O28: the head of the port's highest queue is picked, transmitted, logged and released. -/
theorem uplinkTransmit : Obligations.UplinkTransmit := by
  intro s port ph k rest f hsends hl hb hs hfc hpause hh hpfc hr hq hf hm hlate hsend ha clean hlen hseg
  have q7 : 131079 + 8 * port.toNat = qUpl port.toNat 7 := by unfold qUpl; omega
  rw [q7] at hq hseg
  have first : headAt (begin_ s) port.toNat ≤ (begin_ s).tim.now := (headAt_le (s := begin_ s) (by decide) hq).trans hs
  have run : portTransmit port.toNat ph .whole (begin_ s) = transmit port.toNat 7 ph k f .whole (wakeGroups f (begin_ s)) :=
    (portTransmit_free (s := begin_ s) hsends hb hfc first ph .whole).trans
      (portNext_highest (s := begin_ s) hfc hpause hh hpfc hr hq hf hs hm hl ha ph .whole)
  have woken := changes_wakeGroups f (begin_ s)
  have hqbm : (wakeGroups f (begin_ s)).qbm = s.qbm := woken .qbm (by decide)
  have hregs : (wakeGroups f (begin_ s)).regs = s.regs := woken .regs (by decide)
  have htst : (wakeGroups f (begin_ s)).tst = s.tst := woken .tst (by decide)
  have hcnt : (wakeGroups f (begin_ s)).cnt = s.cnt := woken .cnt (by decide)
  have htim : (wakeGroups f (begin_ s)).tim = s.tim := woken .tim (by decide)
  generalize wakeGroups f (begin_ s) = v at run woken hqbm hregs htst hcnt htim
  have frame : frameOf v k.frame = some f := (congrArg (fun x : Qbm => tFind k.frame x.frames) hqbm).trans hf
  have queue : queueOf v (qUpl port.toNat 7) = k :: rest := (congrArg (fun x : Qbm => tGet [] x.q (qUpl port.toNat 7)) hqbm).trans hq
  have cleanV : egrRead v f 0 = .clean := (egrRead_of_qbm hqbm f 0).trans clean
  have long : (outBytes f 0).length + 4 ≤ uplMaxlen v port.toNat := by
    have same : uplMaxlen v port.toNat = uplMaxlen s port.toNat := by simp only [uplMaxlen, uplF, regF, reg, hregs]
    rwa [same]
  obtain ⟨b, u, c, fcs, wire, sent⟩ := transmit_whole (s := v) (p := port.toNat) (i := 7) (by rw [loopU, loopOf, htst]; exact hl)
    (by rw [hqbm]; exact hseg) frame hsend hm hlate cleanV long ph
  obtain ⟨out, left, commit, obj, busy, ch⟩ := frameGone_effect wire queue frame hsend cleanV c
  have done : Runs (.uplinkFrameTransmit port ph .whole) s (frameGone port.toNat 7 c k f u) := congrArg Host.Outcome.next (run.trans sent)
  rw [hcnt] at obj
  rw [htim] at busy
  rw [q7]
  exact ⟨_, b, done, out, fcs, left, commit, obj, busy, (Changes.trans (woken.mono (by decide)) ch).of_begin⟩

end Sys2Proof.Machine
end

section
/-!
SUPPORT. Flow control of uplink ports (R179 to R182, R184): pause frames received, timers that run out, and the XOFF that is announced again.
-/

namespace Sys2Proof.Machine

-- one declaration at a time: the package is compiled as one text within a limit of memory
set_option Elab.async false

/-! ## A flow-control frame comes (R179) -/

section
variable {s t u : State} {p last : Nat} {b : List Byte}

theorem tagCount_flow (h : beAt b 12 2 = 0x8808) : tagCount b = 0 := by
  unfold tagCount
  rw [h]
  exact if_neg fun k => absurd k.1 (by decide)

theorem etherType_flow (h : beAt b 12 2 = 0x8808) : etherType b = 0x8808 := by
  rw [etherType, tagCount_flow h]
  exact h

theorem markOf_whole {maxlen : Nat} (hb : b.length = 64) (hm : 64 ≤ maxlen) (hf : b.drop 60 = fcsOf (b.take 60)) : markOf maxlen 64 b false = .good := by
  simp [markOf, Nat.not_lt.mpr hm, hf]

/-- An intact flow-control frame is counted and consumed in the cycle in which it comes. -/
theorem portReceive_flow (hd : domOn s (domUP p) = true) (h2 : isSecond s p = false) (ho : uplOpen s p = true) (hl : loopU s p = 0)
    (hb : b.length = 64) (hm : 64 ≤ uplMaxlen s p) (hf : b.drop 60 = fcsOf (b.take 60)) (he : beAt b 12 2 = 0x8808) :
    ∃ u, Changes [.hrd, .cnt] s u ∧ u.out = s.out ∧ portReceive p b false false 0 none s = fcReceive p s.tim.now b .good u := by
  have whole : b.take (uplMaxlen s p) = b := List.take_of_length_le (by omega)
  unfold portReceive
  rw [if_neg (by simp [hd, h2]), if_neg (by simp [ho, hl]), if_neg (by simp [hl])]
  extract_lets n last stamp
  have last_now : last = s.tim.now := by simp [last, n, hb]
  unfold portTake
  extract_lets maxlen b' m src seen s1
  have b'b : b' = b := whole
  have good : m = .good := by
    simp only [m, n, hb]
    rw [b'b]
    exact markOf_whole hb hm hf
  have ch : Changes [.hrd, .cnt] s s1 := by
    simp only [s1]
    rw [good]
    exact (((changes_count1 _ _ s).trans (changes_countN _ _ _ _)).mono (by decide)).trans ((changes_atCycle _ _ _).mono (by decide))
  have out : s1.out = s.out := by
    simp only [s1]
    rw [good]
    exact (countN_out _ _ _ _).trans (count1_out _ _ _)
  rw [if_neg (by simp [n, hb]), b'b, if_pos (etherType_flow he), good, last_now]
  exact ⟨s1, ch, out, rfl⟩

/-! ## The timer of a port (R179 to R181) -/

theorem fcReceive_pause (hm : uplF s p 0x10 0 2 = 1) (ha : beAt b 0 6 = 0x0180C2000001) (he : beAt b 12 2 = 0x8808) (ho : beAt b 14 2 = 1) :
    ∃ a, fcReceive p last b .good s =
      countO (iUPL p) 14 0 1 (modUpl p (fun u => { u with pause := timerEnd s p last (beAt b 16 2), pauseAt := a }) s) := by
  unfold fcReceive
  rw [tagCount_flow he]
  extract_lets mode o op mine at_
  rw [if_neg (by simp [mine, ha]), if_pos ⟨hm, ho⟩]
  exact ⟨_, rfl⟩

/-- A timer that has run out is cleared. -/
theorem pauseExpire_due {e i : Nat} (h : (uplOf s p).pause = some e) (hd : e ≤ s.tim.now) :
    pauseExpire p i s = modUpl p (fun u => { u with pause := none }) s := by
  unfold pauseExpire
  rw [h]
  dsimp only
  rw [waitUntil_due hd, if_pos hd]

/-! ## The timers of the priorities (R182) -/

/-- The cycle after which the timer that a frame sets for priority `i` ends; 0 clears it. -/
def pfcEnd (s : State) (p last : Nat) (b : List Byte) (i : Nat) : Nat := ((timerEnd s p last (beAt b (18 + 2 * i) 2)).map (· + 1)).getD 0

/-- A priority pause frame sets the timer of priority `i`. -/
def pfcSet (p last : Nat) (b : List Byte) (s : State) (i : Nat) : State :=
  countO (iUPL p) 14 i 1
    (modUpl p (fun u => { u with
      pfc := tSet 0 u.pfc i (pfcEnd s p last b i)
      pfcAt := tSet 0 u.pfcAt i (stopAt (tGet 0 u.pfcAt i) last (pfcStops s p i (last + 1))) }) s)

theorem fcReceive_pfc (hm : uplF s p 0x10 0 2 = 2) (ha : beAt b 0 6 = 0x0180C2000001) (he : beAt b 12 2 = 0x8808) (ho : beAt b 14 2 = 0x101) :
    fcReceive p last b .good s = ((List.range 8).filter (fun i => (byteAt b 17).testBit i)).foldl (pfcSet p last b) s := by
  unfold fcReceive
  rw [tagCount_flow he]
  extract_lets mode o op mine
  rw [if_neg (by simp [mine, ha]), if_neg (by simp [mode, hm]), if_pos ⟨hm, ho⟩]
  rfl

theorem uplOf_pfcSet (p last : Nat) (b : List Byte) (s : State) (i : Nat) :
    ∃ c, uplOf (pfcSet p last b s i) p = { uplOf s p with pfc := tSet 0 (uplOf s p).pfc i (pfcEnd s p last b i), pfcAt := c } := by
  have counted (u : State) : uplOf (countO (iUPL p) 14 i 1 u) p = uplOf u p := by simp [uplOf]
  unfold pfcSet
  rw [counted, uplOf_modUpl_same]
  exact ⟨_, rfl⟩

theorem pfcEnd_of_paired (h : (uplOf t p).paired = (uplOf s p).paired) (i : Nat) : pfcEnd t p last b i = pfcEnd s p last b i := by
  simp only [pfcEnd, timerEnd, quantaCyc, h]

/-- A frame sets the timers of the priorities that it enables, and no other. -/
theorem foldl_pfcSet (l : List Nat) (s : State) :
    Changes [.upl, .cnt] s (l.foldl (pfcSet p last b) s) ∧ (l.foldl (pfcSet p last b) s).out = s.out ∧
      (uplOf (l.foldl (pfcSet p last b) s) p).pause = (uplOf s p).pause ∧
      ∀ i, tGet 0 (uplOf (l.foldl (pfcSet p last b) s) p).pfc i = if i ∈ l then pfcEnd s p last b i else tGet 0 (uplOf s p).pfc i := by
  induction l generalizing s with
  | nil => exact ⟨changes_refl _ s, rfl, rfl, fun _ => by simp⟩
  | cons j l ih =>
    obtain ⟨ch, out, pause, timers⟩ := ih (pfcSet p last b s j)
    obtain ⟨c, port⟩ := uplOf_pfcSet p last b s j
    have step : Changes [.upl, .cnt] s (pfcSet p last b s j) :=
      ((changes_modUpl _ _ s).mono (by decide)).trans ((changes_countO _ _ _ _ _).mono (by decide))
    refine ⟨step.trans ch, out.trans (countO_out _ _ _ _ _), ?_, fun i => ?_⟩
    · rw [List.foldl_cons, pause, port]
    · rw [List.foldl_cons, timers i, pfcEnd_of_paired (s := s) (t := pfcSet p last b s j) (by rw [port]) i, port]
      dsimp only
      by_cases hl : i ∈ l
      · rw [if_pos hl, if_pos (List.mem_cons_of_mem _ hl)]
      · rw [if_neg hl]
        by_cases hj : i = j
        · subst hj
          rw [if_pos List.mem_cons_self, tGet_tSet_same]
        · rw [if_neg (by simp [hj, hl]), tGet_tSet_other hj]

end

/-! ## XOFF announced again (R184) -/

section
variable {s : State} {p : Nat}

/-- In mode 1 bit 0 alone is announced. -/
theorem fcWant_mode1 (hm : uplF s p 0x10 0 2 = 1) (h : (fcWant s p).toNat.testBit 0 = true) : fcWant s p = 1 := by
  have mode1 : fcWant s p = BitVec.ofNat 8 (b2n ((List.range 8).any (fun i => xoffOf s p i) || (uplF s p 0x10 24 8).testBit 0)) := if_pos hm
  rw [mode1] at h ⊢
  generalize ((List.range 8).any (fun i => xoffOf s p i) || (uplF s p 0x10 24 8).testBit 0) = x at h ⊢
  cases x with
  | true => rfl
  | false => exact absurd h (by decide)

theorem fcHeld_mode1 (hw : fcWant s p = 1) (hs : (uplOf s p).fcSent = 1) : fcHeld s p = [0] := by
  unfold fcHeld
  rw [hw, hs]
  rfl

theorem fcDue_mode1 (hw : fcWant s p = 1) (hs : (uplOf s p).fcSent = 1) (ha : fcAgain s p 0 ≤ s.tim.now) : fcDue s p = 1 := by
  unfold fcDue
  rw [fcHeld_mode1 hw hs, hw, hs]
  simp [ha]

theorem fcResend_due (hp : portSends s p = true) (hf : fcOn s p = true) (hw : fcWant s p = 1) (hs : (uplOf s p).fcSent = 1)
    (hb : (uplOf s p).busy ≤ s.tim.now) (ha : fcAgain s p 0 ≤ s.tim.now) : fcResend p s = fcSend p 1 s := by
  have due : max (fcAgain s p 0) (uplOf s p).busy ≤ s.tim.now := max_le ha hb
  unfold fcResend
  rw [fcHeld_mode1 hw hs]
  simp [hp, hf, waitUntil_due due, Nat.not_lt.mpr due, fcDue_mode1 hw hs ha]

/-- The frame that announces a whole-port XOFF (Table 6-6). -/
theorem fcFrame_xoff (hm : uplF s p 0x10 0 2 = 1) (due : BitVec 8) :
    fcFrame s p due 1 = beBytes 6 0x0180C2000001 ++ (beBytes 6 (uplAddr s p) ++ (beBytes 2 0x8808 ++ (beBytes 2 1 ++
      (beBytes 2 (uplF s p 0x10 8 16) ++ (List.replicate 42 0 ++
        fcsOf (beBytes 6 0x0180C2000001 ++ (beBytes 6 (uplAddr s p) ++ (beBytes 2 0x8808 ++ (beBytes 2 1 ++
          (beBytes 2 (uplF s p 0x10 8 16) ++ List.replicate 42 0)))))))))) := by
  unfold fcFrame
  extract_lets q hd times b
  have body : b = beBytes 6 0x0180C2000001 ++ (beBytes 6 (uplAddr s p) ++ (beBytes 2 0x8808 ++ (beBytes 2 1 ++
      (beBytes 2 (uplF s p 0x10 8 16) ++ List.replicate 42 0)))) := by
    simp only [b, hd, q]
    rw [if_pos hm, if_pos (by decide)]
    simp only [List.append_assoc]
  rw [body]
  simp only [List.append_assoc]

theorem length_fcsOf (b : List Byte) : (fcsOf b).length = 4 := rfl

/-- Its fields. -/
theorem fcFrame_fields (hm : uplF s p 0x10 0 2 = 1) (due : BitVec 8) :
    (fcFrame s p due 1).length = 64 ∧ beAt (fcFrame s p due 1) 0 6 = 0x0180C2000001 ∧ beAt (fcFrame s p due 1) 12 2 = 0x8808 ∧
      beAt (fcFrame s p due 1) 14 2 = 1 ∧ beAt (fcFrame s p due 1) 16 2 = uplF s p 0x10 8 16 ∧
      (fcFrame s p due 1).drop 60 = fcsOf ((fcFrame s p due 1).take 60) := by
  have quanta : uplF s p 0x10 8 16 < 256 ^ 2 := Nat.mod_lt _ (by decide)
  rw [fcFrame_xoff hm]
  generalize hc : fcsOf (beBytes 6 0x0180C2000001 ++ (beBytes 6 (uplAddr s p) ++ (beBytes 2 0x8808 ++ (beBytes 2 1 ++
    (beBytes 2 (uplF s p 0x10 8 16) ++ List.replicate 42 0))))) = crc
  have len : crc.length = 4 := by rw [← hc]; rfl
  refine ⟨by simp [len], ?_, ?_, ?_, ?_, ?_⟩
  · exact (beAt_beBytes (l := []) _ rfl).trans (by decide)
  · rw [← List.append_assoc]
    exact (beAt_beBytes _ (by simp)).trans (by decide)
  · rw [← List.append_assoc, ← List.append_assoc]
    exact (beAt_beBytes _ (by simp)).trans (by decide)
  · rw [← List.append_assoc, ← List.append_assoc, ← List.append_assoc]
    exact (beAt_beBytes _ (by simp)).trans (Nat.mod_eq_of_lt quanta)
  · have split : ∀ r : List Byte, beBytes 6 0x0180C2000001 ++ (beBytes 6 (uplAddr s p) ++ (beBytes 2 0x8808 ++ (beBytes 2 1 ++
        (beBytes 2 (uplF s p 0x10 8 16) ++ (List.replicate 42 0 ++ r))))) =
      (beBytes 6 0x0180C2000001 ++ (beBytes 6 (uplAddr s p) ++ (beBytes 2 0x8808 ++ (beBytes 2 1 ++
        (beBytes 2 (uplF s p 0x10 8 16) ++ List.replicate 42 0))))) ++ r := fun r => by simp only [List.append_assoc]
    rw [split, List.drop_left' (by simp), List.take_left' (by simp), hc]

/-- What the port's own frame leaves. -/
theorem fcSend_effect (hl : loopU s p = 0) (hw : fcWant s p = 1) :
    (fcSend p 1 s).out = s.out ++ [.upeTx p (fcFrame s p 1 1) false] ∧ tGet 0 (uplOf (fcSend p 1 s) p).fcAt 0 = s.tim.now + 1 ∧
      (∀ q, q ≠ p → uplOf (fcSend p 1 s) q = uplOf s q) ∧ Changes [.upl, .cnt] s (fcSend p 1 s) := by
  unfold fcSend
  rw [hw]
  extract_lets want b at_ s1 s2
  have ch : Changes [.upl, .cnt] s s1 := ((changes_count1 _ _ s).mono (by decide)).trans ((changes_modUpl _ _ _).mono (by decide))
  have counted (q : Nat) : uplOf (count1 (iUPL p) 16 s) q = uplOf s q := by simp [uplOf]
  have sent : s2 = emit (.upeTx p b false) s1 := by
    have same : s1.tst = s.tst := ch .tst (by decide)
    exact if_neg (by rw [loopU, loopOf, same]; exact fun h => absurd (hl.symm.trans h) (by decide))
  have at0 : tGet 0 (uplOf s1 p).fcAt 0 = at_ := by
    simp only [s1]
    rw [uplOf_modUpl_same]
    exact tGet_tPut_same _ _ _ _
  have others (q : Nat) (hq : q ≠ p) : uplOf s1 q = uplOf s q := (uplOf_modUpl_other hq _ _).trans (counted q)
  have out1 : s1.out = s.out := count1_out (iUPL p) 16 s
  rw [if_neg (by rw [hl]; decide), sent]
  refine ⟨?_, at0, others, ch.trans (changes_emit _ _ _)⟩
  show s1.out ++ _ = _
  rw [out1]

end

/-! ## The statement -/

/-- A whole-port pause frame sets the timer, which then runs out. -/
theorem pauseFrame_sets {s : State} {port : BitVec 4} {b : List Byte} (hd : domOn s (domUP port.toNat) = true)
    (h2 : isSecond s port.toNat = false) (ho : uplOpen s port.toNat = true) (hl : loopU s port.toNat = 0) (hb : b.length = 64)
    (hm : 64 ≤ uplMaxlen s port.toNat) (hf : b.drop 60 = fcsOf (b.take 60)) (ha : beAt b 0 6 = 0x0180C2000001) (he : beAt b 12 2 = 0x8808)
    (h1 : uplF s port.toNat 0x10 0 2 = 1) (hop : beAt b 14 2 = 1) :
    ∃ t a, Runs (.pauseReceive port b false) s t ∧ t.out = [] ∧ Changes [.upl, .hrd, .cnt] s t ∧
      (∀ p, p ≠ port.toNat → uplOf t p = uplOf s p) ∧ uplOf t port.toNat =
        { uplOf s port.toNat with pause := timerEnd s port.toNat s.tim.now (beAt b 16 2), pauseAt := a } := by
  obtain ⟨u, ch, out, run⟩ := portReceive_flow (s := begin_ s) hd h2 ho hl hb hm hf he
  have regs : u.regs = s.regs := ch .regs (by decide)
  have upl : u.upl = s.upl := ch .upl (by decide)
  have ports (p : Nat) : uplOf u p = uplOf s p := by rw [uplOf, upl, uplOf]
  obtain ⟨a, set⟩ := fcReceive_pause (s := u) (p := port.toNat) (last := s.tim.now) (by simp only [uplF, regF, reg, regs]; exact h1) ha he hop
  have timer : timerEnd u port.toNat s.tim.now (beAt b 16 2) = timerEnd s port.toNat s.tim.now (beAt b 16 2) := by
    simp only [timerEnd, quantaCyc, ports]
  have counted (v : State) (p : Nat) : uplOf (countO (iUPL port.toNat) 14 0 1 v) p = uplOf v p := by simp [uplOf]
  have done : Runs (.pauseReceive port b false) s _ := congrArg Host.Outcome.next (run.trans set)
  refine ⟨_, a, done, (countO_out _ _ _ _ _).trans out, ?_, fun p hp => ?_, ?_⟩
  · exact (((ch.mono (by decide)).trans ((changes_modUpl _ _ u).mono (by decide))).trans ((changes_countO _ _ _ _ _).mono (by decide))).of_begin
  · rw [counted, uplOf_modUpl_other hp, ports]
  · rw [counted, uplOf_modUpl_same, ports, timer]

/-- A priority pause frame sets the timers of the priorities that it enables. -/
theorem pfcFrame_sets {s : State} {port : BitVec 4} {b : List Byte} (hd : domOn s (domUP port.toNat) = true)
    (h2 : isSecond s port.toNat = false) (ho : uplOpen s port.toNat = true) (hl : loopU s port.toNat = 0) (hb : b.length = 64)
    (hm : 64 ≤ uplMaxlen s port.toNat) (hf : b.drop 60 = fcsOf (b.take 60)) (ha : beAt b 0 6 = 0x0180C2000001) (he : beAt b 12 2 = 0x8808)
    (h1 : uplF s port.toNat 0x10 0 2 = 2) (hop : beAt b 14 2 = 0x101) :
    ∃ t, Runs (.pfcReceive port b false) s t ∧ t.out = [] ∧ Changes [.upl, .hrd, .cnt] s t ∧
      (uplOf t port.toNat).pause = (uplOf s port.toNat).pause ∧
      ∀ i < 8, tGet 0 (uplOf t port.toNat).pfc i =
        if (byteAt b 17).testBit i then pfcEnd s port.toNat s.tim.now b i else tGet 0 (uplOf s port.toNat).pfc i := by
  obtain ⟨u, ch, out, run⟩ := portReceive_flow (s := begin_ s) hd h2 ho hl hb hm hf he
  have regs : u.regs = s.regs := ch .regs (by decide)
  have upl : u.upl = s.upl := ch .upl (by decide)
  have ports (p : Nat) : uplOf u p = uplOf s p := by rw [uplOf, upl, uplOf]
  have set := fcReceive_pfc (s := u) (p := port.toNat) (last := s.tim.now) (by simp only [uplF, regF, reg, regs]; exact h1) ha he hop
  obtain ⟨ch', out', pause, timers⟩ :=
    foldl_pfcSet (p := port.toNat) (last := s.tim.now) (b := b) ((List.range 8).filter (fun i => (byteAt b 17).testBit i)) u
  have done : Runs (.pfcReceive port b false) s _ := congrArg Host.Outcome.next (run.trans set)
  refine ⟨_, done, out'.trans out, ((ch.mono (by decide)).trans (ch'.mono (by decide))).of_begin, ?_, fun i hi => ?_⟩
  · rw [pause, ports]
  · rw [timers i, pfcEnd_of_paired (s := s) (t := u) (by rw [ports]), ports]
    simp [hi]

/-- Settles O26: the timers that pause frames set, their end, and the repeated XOFF. -/
theorem pauseTimers : Obligations.PauseTimers := by
  refine ⟨fun s port b hd h2 ho hl hb hm hf ha he => ⟨fun h1 hop => ?_, fun h1 hop => ?_⟩,
    fun s port hp hl h1 hon hw hs hb hag => ?_⟩
  · obtain ⟨t, a, run, out, ch, others, set⟩ := pauseFrame_sets hd h2 ho hl hb hm hf ha he h1 hop
    refine ⟨t, run, out, ch, others, by rw [set], fun hq => ?_, fun hq => ?_, fun hsome prio u hu => ?_⟩
    · rw [set]
      exact if_pos hq
    · rw [set]
      exact if_neg hq
    · have hq : beAt b 16 2 ≠ 0 := fun h0 => by
        rw [set, show timerEnd s port.toNat s.tim.now (beAt b 16 2) = none from if_pos h0] at hsome
        cases hsome
      have runs : (uplOf (begin_ u) port.toNat).pause = some (s.tim.now + quantaCyc s port.toNat (beAt b 16 2)) := by
        rw [hu]
        exact (congrArg Upl.pause set).trans (if_neg hq)
      have cleared := pauseExpire_due (i := prio.toNat) runs (le_of_eq (by rw [hu]; rfl))
      exact ⟨_, congrArg Host.Outcome.next cleared, congrArg Upl.pause (uplOf_modUpl_same _ _ _), (changes_modUpl _ _ _).of_begin⟩
  · obtain ⟨t, run, out, ch, pause, timers⟩ := pfcFrame_sets hd h2 ho hl hb hm hf ha he h1 hop
    refine ⟨t, run, out, ch, pause, fun i hi => ⟨fun hoff => ?_, fun hon hq => ?_, fun hon hq => ?_⟩⟩
    · rw [timers i hi, hoff, if_neg Bool.false_ne_true]
    · rw [timers i hi, hon, if_pos rfl, pfcEnd, timerEnd, if_pos hq]
      rfl
    · rw [timers i hi, hon, if_pos rfl, pfcEnd, timerEnd, if_neg hq]
      rfl
  · have hwant : fcWant s port.toNat = 1 := fcWant_mode1 h1 hw
    have hfc : fcOn s port.toNat = true := by simp [fcOn, hon, h1]
    have run : Runs (.fcResend port) s (fcSend port.toNat 1 (begin_ s)) :=
      congrArg Host.Outcome.next (fcResend_due (s := begin_ s) hp hfc hwant hs hb hag)
    obtain ⟨out, at0, others, ch⟩ := fcSend_effect (s := begin_ s) hl hwant
    obtain ⟨length, address, type, opcode, quanta, fcs⟩ := fcFrame_fields h1 1
    exact ⟨_, _, run, out, length, address, type, opcode, quanta, fcs, at0, others, ch.of_begin⟩

end Sys2Proof.Machine
end

section
/-!
SUPPORT. Upstream bursts (R78, R103, R112, R123): a header refused, a header accepted, and a burst that did not come.
-/

namespace Sys2Proof.Machine

-- one declaration at a time: the package is compiled as one text within a limit of memory
set_option Elab.async false

/-! ## A burst in the burst buffer -/

/-- From `s` to `u` tree `t` has put a burst into its buffer at most, and events have been counted. -/
structure BurstHeld (t : Nat) (s u : State) : Prop where
  changes : Changes [.tre, .cnt] s u
  tre : ∃ b, treOf u t = { treOf s t with bursts := b }
  out : u.out = s.out

section
variable {s u v : State} {t : Nat}

theorem BurstHeld.count1 (h : BurstHeld t s u) (i evt : Nat) : BurstHeld t s (count1 i evt u) :=
  ⟨h.changes.trans ((changes_count1 _ _ u).mono (by decide)), by
    obtain ⟨b, hb⟩ := h.tre
    exact ⟨b, (treOf_of_tre (count1_tre _ _ _) t).trans hb⟩, (count1_out _ _ _).trans h.out⟩

theorem burstHeld_mod (f : Tre → Tre) (h : ∃ b, f (treOf s t) = { treOf s t with bursts := b }) : BurstHeld t s (modTre t f s) :=
  ⟨(changes_modTre t f s).mono (by decide), by rwa [treOf_modTre_same], rfl⟩

theorem BurstHeld.regF (h : BurstHeld t s u) (a lo n : Nat) : Machine.regF u a lo n = Machine.regF s a lo n := by
  have e : u.regs = s.regs := h.changes .regs (by decide)
  simp only [Machine.regF, reg, e]

theorem BurstHeld.ctxOf (h : BurstHeld t s u) (i : Nat) : Machine.ctxOf u t i = Machine.ctxOf s t i := by
  obtain ⟨b, hb⟩ := h.tre
  simp only [Machine.ctxOf, hb]

theorem BurstHeld.chnOf (h : BurstHeld t s u) (v : Nat) : Machine.chnOf u v = Machine.chnOf s v := by
  have e : u.chn = s.chn := h.changes .chn (by decide)
  simp only [Machine.chnOf, e]

theorem BurstHeld.rateOf (h : BurstHeld t s u) : Machine.rateOf u t = Machine.rateOf s t := by
  obtain ⟨b, hb⟩ := h.tre
  have e : tGet Tre.empty u.tre t = { tGet Tre.empty s.tre t with bursts := b } := hb
  simp only [Machine.rateOf, e, h.regF]

theorem BurstHeld.eqRtt (h : BurstHeld t s u) : Machine.eqRtt u t = Machine.eqRtt s t := by
  obtain ⟨b, hb⟩ := h.tre
  simp only [Machine.eqRtt, treF, hb, h.regF]

theorem BurstHeld.strobeOf (h : BurstHeld t s u) (m : Nat) : Machine.strobeOf u t m = Machine.strobeOf s t m := by
  obtain ⟨b, hb⟩ := h.tre
  simp only [Machine.strobeOf, hb, h.eqRtt]

theorem BurstHeld.entOwner (h : BurstHeld t s u) (e : MapEnt) : Machine.entOwner u t e = Machine.entOwner s t e := by
  simp only [Machine.entOwner, h.chnOf]

theorem BurstHeld.arrivalOf (h : BurstHeld t s u) (ut m : Nat) (sob : Int) (ph : Nat) :
    Machine.arrivalOf u t ut m sob ph = Machine.arrivalOf s t ut m sob ph := by
  simp only [Machine.arrivalOf, h.strobeOf, treF, h.regF]

theorem BurstHeld.accepts (h : BurstHeld t s u) (c : Ctx) (d : Int) : Machine.accepts u t c d = Machine.accepts s t c d := by
  have window : winOf u t c = winOf s t c := by simp only [winOf, treF, h.regF, blkSteps, h.rateOf]
  rw [Machine.accepts, window, Machine.accepts]

theorem BurstHeld.grantAt (h : BurstHeld t s u) (ut blk : Nat) : Machine.grantAt u t ut blk = Machine.grantAt s t ut blk := by
  obtain ⟨b, hb⟩ := h.tre
  have inWin : inWindow u t ut blk = inWindow s t ut blk := by
    have width : blksPerTick u t = blksPerTick s t := by simp only [blksPerTick, h.rateOf]
    funext w
    rw [inWindow, width, inWindow]
  have rng (m : Nat) : rangingAt u t ut blk m = rangingAt s t ut blk m := by
    simp only [rangingAt, treF, h.regF, tickAhead, blksPerTick, h.rateOf, hb]
    rfl
  have burst : burstAt u t ut blk = burstAt s t ut blk := by
    simp only [burstAt, tickAhead, blksPerTick, h.rateOf, guardBlk, preBlk, treF, h.regF, winOf, h.entOwner, h.ctxOf, blkSteps, hb]
    rfl
  simp only [Machine.grantAt, rng, burst, h.chnOf, hb, inWin]

/-! ## The header of a burst -/

/-- The entry of a grant that a header is checked against. -/
def hitHead (h : Hit) : MapEnt := h.ents.headD ⟨0, 0, 0, false, 0, false, false, false, 0, false⟩

/-- A burst whose header falls in a grant is held, and its header is checked. -/
theorem usBurst_hit {ut ph blk : Nat} {sob : Int} {h : Hit} {b : UsBlock} {rest : List UsBlock} (hl : treLive s t = true)
    (hg : grantAt s t ut blk = some h) : ∃ s0, BurstHeld t s s0 ∧ usBurst t ut sob ph blk (b :: rest) s =
      if !(headGood b) then
        modChn t (fun c => { c with wins := c.wins.map fun w => if inWindow s0 t ut blk w then { w with bad := w.bad + 1 } else w })
          (Machine.count1 (iTRE t) 3 s0)
      else if nfld b.data.toNat 108 4 ≠ 3 ∨ nfld b.data.toNat 112 6 ≠ t ∨ nfld b.data.toNat 80 16 ≠ h.tick % 2 ^ 16 ∨
          nfld b.data.toNat 64 12 ≠ (hitHead h).hnd then Machine.count1 (iTRE t) 4 s0
      else if nfld b.data.toNat 118 10 ≠ entOwner s0 t (hitHead h) then Machine.count1 (iTRE t) 5 s0
      else if nfld b.data.toNat 105 3 ≠ (hitHead h).rpt then Machine.count1 (iTRE t) 6 s0
      else burstBody t ut h (hitHead h) (arrivalOf s0 t ut h.tick sob ph) blk (b :: rest) s0 := by
  simp only [treLive, Bool.and_eq_true, Bool.not_eq_true'] at hl
  obtain ⟨⟨run, on⟩, fenced⟩ := hl
  unfold usBurst
  rw [if_neg (by simp [on, fenced]), if_neg (by simp [run])]
  extract_lets s1 hit s0
  have held : BurstHeld t s s1 := burstHeld_mod _ ⟨_, rfl⟩
  have hhit : hit = some h := (held.grantAt ut blk).trans hg
  clear_value hit
  subst hhit
  have h0 : BurstHeld t s s0 := by
    simp only [s0]
    split
    · exact held.count1 _ _
    · exact held
  exact ⟨s0, h0, rfl⟩

/-! ## Drift tracking (R98, R122 to R126) -/

/-- From `s` to `u` the drift of terminal `tid` has been tracked: no miss of it, and no grant of its tree, has changed. -/
structure DriftTracked (t tid : Nat) (s u : State) : Prop where
  changes : Changes (.tre :: noted) s u
  miss : (ctxOf u t tid).miss = (ctxOf s t tid).miss
  grants : (treOf u t).grants = (treOf s t).grants

theorem DriftTracked.trans {tid : Nat} (h : DriftTracked t tid s u) (k : DriftTracked t tid u v) : DriftTracked t tid s v :=
  ⟨h.changes.trans k.changes, k.miss.trans h.miss, k.grants.trans h.grants⟩

theorem DriftTracked.refl (t tid : Nat) (s : State) : DriftTracked t tid s s := ⟨changes_refl _ s, rfl, rfl⟩

theorem DriftTracked.of_changes {tid : Nat} {l : List Comp} (h : Changes l s u) (ht : .tre ∉ l := by decide)
    (hl : l ⊆ .tre :: noted := by decide) : DriftTracked t tid s u :=
  have e : u.tre = s.tre := h .tre ht
  ⟨h.mono hl, congrArg Ctx.miss (ctxOf_of_tre e t tid), congrArg Tre.grants (treOf_of_tre e t)⟩

theorem driftTracked_modCtx {tid : Nat} {f : Ctx → Ctx} (h : (f (ctxOf s t tid)).miss = (ctxOf s t tid).miss) :
    DriftTracked t tid s (modCtx t tid f s) :=
  ⟨(changes_modTre _ _ s).mono (by decide), by rw [ctxOf_modCtx_same, h], by rw [modCtx, treOf_modTre_same]⟩

theorem driftTracked_noticeC {tid : Nat} (type cause : Nat) (w : Word) (s : State) : DriftTracked t tid s (noticeC t tid type cause w s) :=
  .of_changes (changes_notice _ _ s)

theorem driftTracked_sendTmm {tid : Nat} (type i tgt : Nat) (body : List Byte) (tickAt : Option Nat) (acked : Bool) (s : State) :
    DriftTracked t tid s (sendTmm t type i tgt body tickAt acked s) := by
  have sent := messaged_sendTmm t type i tgt body tickAt acked s
  exact ⟨sent.changes.mono (by decide), congrArg Ctx.miss (sent.ctxOf tid), (congrArg Tre.grants sent.here :)⟩

theorem adjustApplies_miss (s : State) (t ut : Nat) (c : Ctx) : (adjustApplies s t ut c).miss = c.miss := by
  unfold adjustApplies
  split
  · split <;> rfl
  · rfl
  · rfl

theorem driftTracked_alarm (t tid : Nat) (s : State) : DriftTracked t tid s (driftAlarm t tid s) := by
  unfold driftAlarm
  extract_lets c diff lim
  split
  · exact (driftTracked_modCtx rfl).trans (driftTracked_noticeC _ _ _ _)
  · split
    · exact driftTracked_modCtx rfl
    · exact .refl _ _ s

theorem driftTracked_filter (t tid : Nat) (d : Int) (s : State) : DriftTracked t tid s (driftFilter t tid d s) := by
  unfold driftFilter
  extract_lets c s1 k
  split
  · exact driftTracked_modCtx rfl
  · split
    · have counted : DriftTracked t tid s s1 := .of_changes (changes_countO _ _ _ _ s)
      split
      · exact counted.trans (driftTracked_modCtx rfl)
      · exact counted.trans ((driftTracked_modCtx rfl).trans (driftTracked_noticeC _ _ _ _))
    · exact driftTracked_modCtx rfl

theorem driftTracked_conv (t tid : Nat) (s : State) : DriftTracked t tid s (driftConv t tid s) := by
  unfold driftConv
  exact driftTracked_modCtx rfl

theorem driftTracked_adjust (t tid : Nat) (s : State) : DriftTracked t tid s (driftAdjust t tid s) := by
  unfold driftAdjust
  extract_lets c want new corr s1 big
  split
  · exact .refl _ _ s
  · have reached : DriftTracked t tid s s1 := by
      simp only [s1]
      split
      · exact .refl _ _ s
      · exact (driftTracked_modCtx rfl).trans (driftTracked_noticeC _ _ _ _)
    split
    · exact reached
    · exact (reached.trans (driftTracked_modCtx rfl)).trans (driftTracked_sendTmm _ _ _ _ _ _ _)

theorem driftTracked_update (t tid ut : Nat) (d : Int) (s : State) : DriftTracked t tid s (driftUpdate t tid ut d s) := by
  unfold driftUpdate
  extract_lets s1
  have h1 : DriftTracked t tid s s1 := (driftTracked_modCtx (adjustApplies_miss _ _ _ _)).trans (driftTracked_alarm _ _ _)
  exact ((h1.trans (driftTracked_filter _ _ _ _)).trans (driftTracked_conv _ _ _)).trans (driftTracked_adjust _ _ _)

end

end Sys2Proof.Machine
end

section
/-!
SUPPORT. What the header of a burst brings about (R78, R112, R123), and a missed burst.
-/

namespace Sys2Proof.Machine

-- one declaration at a time: the package is compiled as one text within a limit of memory
set_option Elab.async false

section
variable {s u : State} {t : Nat}

/-! ## A header that fails its check -/

theorem usBurst_bad {ut ph blk : Nat} {sob : Int} {h : Hit} {b : UsBlock} {rest : List UsBlock} (hl : treLive s t = true)
    (hg : grantAt s t ut blk = some h) (hb : headGood b = false) :
    (usBurst t ut sob ph blk (b :: rest) s).out = s.out ∧ (treOf (usBurst t ut sob ph blk (b :: rest) s) t).ctx = (treOf s t).ctx ∧
      Changes [.tre, .chn, .cnt] s (usBurst t ut sob ph blk (b :: rest) s) := by
  obtain ⟨s0, held, run⟩ := usBurst_hit (ph := ph) (sob := sob) (b := b) (rest := rest) hl hg
  have counted := held.count1 (iTRE t) 3
  obtain ⟨bursts, tree⟩ := counted.tre
  rw [run, if_pos (by simp [hb])]
  have kept := changes_modChn t (fun c => { c with wins := c.wins.map fun w => if inWindow s0 t ut blk w then { w with bad := w.bad + 1 } else w })
    (count1 (iTRE t) 3 s0)
  refine ⟨counted.out, ?_, (counted.changes.mono (by decide)).trans (kept.mono (by decide))⟩
  rw [treOf_of_tre (kept .tre (by decide)), tree]

/-! ## A header that is accepted -/

theorem treOf_markSeen (ut start : Nat) : treOf (markSeen t ut start s) t = { treOf s t with
    grants := (treOf s t).grants.map fun g => if g.1 = ut then (g.1, g.2.map fun e => if e.bs ∧ e.start = start then { e with seen := true } else e) else g } :=
  treOf_modTre_same _ _ _

/-- A marked entry of the tick reads as seen, in every map that the tick may have. -/
theorem markSeen_seen {ut start : Nat} {g : List MapEnt} {y : MapEnt} (hg : (ut, g) ∈ (treOf (markSeen t ut start s) t).grants) (hy : y ∈ g)
    (hb : y.bs = true) (hs : y.start = start) : y.seen = true := by
  rw [treOf_markSeen] at hg
  obtain ⟨⟨m, l⟩, -, he⟩ := List.mem_map.mp hg
  by_cases hm : m = ut
  · rw [if_pos (show (m, l).1 = ut from hm)] at he
    have hl : _ = g := congrArg Prod.snd he
    rw [← hl] at hy
    obtain ⟨e, -, rfl⟩ := List.mem_map.mp hy
    by_cases h : e.bs = true ∧ e.start = start
    · rw [if_pos h]
    · rw [if_neg h] at hb hs
      exact absurd ⟨hb, hs⟩ h
  · rw [if_neg (show ¬ (m, l).1 = ut from hm)] at he
    exact absurd (congrArg Prod.fst he) hm

theorem changes_markSeen (ut start : Nat) (s : State) : Changes [.tre] s (markSeen t ut start s) := changes_modTre _ _ s

/-- R112: an accepted header clears the miss count and marks its grant. -/
theorem headerTaken_effect (tid ut start d : Nat) (s : State) : (ctxOf (headerTaken t tid ut start d s) t tid).miss = 0 ∧
    (treOf (headerTaken t tid ut start d s) t).grants = (treOf (markSeen t ut start s) t).grants ∧
    Changes [.tre] s (headerTaken t tid ut start d s) := by
  unfold headerTaken
  refine ⟨by rw [ctxOf_modCtx_same], by rw [modCtx, treOf_modTre_same], (changes_markSeen _ _ s).trans (changes_modTre _ _ _)⟩

theorem spanTus_nil (stop fuel pos : Nat) : spanTus stop fuel pos [] = [] := by
  cases fuel <;> rfl

/-- A burst of its header alone carries no TU. -/
theorem takeEntries_header {x : BurstIn} {head rpt : Nat} {b : UsBlock} {e : MapEnt} (hb : e.bs = true) (s : State) :
    (takeEntries x head rpt [b] [e] s).1 = s := by
  have first : (entRoom s x.tree head rpt e).1 - head = rpt + 1 := by simp [entRoom, hb]; omega
  have none : [b].drop ((entRoom s x.tree head rpt e).1 - head) = [] := by
    rw [first]
    exact List.drop_eq_nil_of_le (Nat.succ_le_succ (Nat.zero_le _))
  simp only [takeEntries, List.foldl_cons, List.foldl_nil, none, spanTus_nil]

/-- A burst without report blocks reports nothing. -/
theorem takeReports_none (t tid ut start rpt : Nat) (s : State) : takeReports t tid ut start [] rpt s = s := by
  simp [takeReports, countN]

/-- A data burst of one block, of a tracked terminal and within its window. -/
theorem burstBody_header {ut m blk : Nat} {e : MapEnt} {tarr : Int} {b : UsBlock} (hb : e.bs = true)
    (ht : tracked (ctxOf s t (nfld b.data.toNat 118 10)).state = true)
    (ha : accepts s t (ctxOf s t (nfld b.data.toNat 118 10)) (tarr - ((blkSteps s t * (e.start + guardBlk s t + preBlk s t) : Nat) : Int)) = true) :
    (ctxOf (burstBody t ut ⟨.data, m, [e]⟩ e tarr blk [b] s) t (nfld b.data.toNat 118 10)).miss = 0 ∧
      (treOf (burstBody t ut ⟨.data, m, [e]⟩ e tarr blk [b] s) t).grants = (treOf (markSeen t m e.start s) t).grants ∧
      Changes (.tre :: noted) s (burstBody t ut ⟨.data, m, [e]⟩ e tarr blk [b] s) := by
  unfold burstBody
  extract_lets d tid due delta x stopWin ranged tracked0 stopRng c s1 s2 rpt oh s3 r
  have accepted : accepts s t c delta = true := ha
  have updated : s2 = driftUpdate t tid m delta s1 := if_pos ht
  have r1 : r.1 = s3 := takeEntries_header hb _
  dsimp only
  rw [if_neg (by simp [accepted]), show (([b] : List UsBlock).drop 1).take rpt = [] from List.take_nil, takeReports_none, r1,
    show s3 = countO (iTRE t) 1 tid oh (countO (iTRE t) 0 tid 1 s2) from rfl, updated]
  obtain ⟨miss, grants, ch⟩ := headerTaken_effect (t := t) tid m e.start b.data.toNat s
  have drift := driftTracked_update t tid m delta (headerTaken t tid m e.start b.data.toNat s)
  have counted (i evt o n : Nat) (v : State) : DriftTracked t tid v (countO i evt o n v) := .of_changes (changes_countO _ _ _ _ v)
  have all := ((drift.trans (counted (iTRE t) 0 tid 1 _)).trans (counted (iTRE t) 1 tid oh _)).trans (counted (iTRE t) 2 tid r.2 _)
  exact ⟨all.miss.trans miss, all.grants.trans grants, (ch.mono (by decide)).trans all.changes⟩

/-! ## A missed burst -/

/-- A table whose entry of one key is changed in place. -/
theorem tFind_map_at {α : Type} (k : Nat) (F : α → α) (l : Tab α) :
    tFind k (l.map fun g => if g.1 = k then (g.1, F g.2) else g) = (tFind k l).map F := by
  induction l with
  | nil => rfl
  | cons g l ih =>
    by_cases h : g.1 = k
    · simp [tFind, h]
    · simp [tFind, h] at ih ⊢
      exact ih

theorem missTerminal_tracked {tid : Nat} (ht : tracked (ctxOf s t tid).state = true) :
    missTerminal t tid s = modCtx t tid (fun c => { c with miss := c.miss + 1, missNow := c.missNow + 1 }) (countO (iTRE t) 12 tid 1 s) := by
  simp [missTerminal, ht]

/-- The state of a tree whose only grant of a tick has been missed. -/
def missedOnce (t tid ut start : Nat) (s : State) : State := missTerminal t tid (markSeen t ut start s)

theorem missedBurst_counts {ut : Nat} {e : MapEnt} (hl : treLive s t = true) (hg : tFind ut (treOf s t).grants = some [e]) (hb : e.bs = true)
    (hd : e.disc = false) (hs : e.seen = false) :
    ∃ u, Changes [.cnt] (missedOnce t (entOwner s t e) ut e.start s) u ∧ u.out = (missedOnce t (entOwner s t e) ut e.start s).out ∧
      missedBurst t ut e.start s = u := by
  unfold missedBurst
  have grants : tGet [] (treOf s t).grants ut = [e] := by simp [tGet, hg]
  rw [if_neg (by simp [hl]), grants]
  simp only [List.find?, hb, hd, hs, beq_self_eq_true, Bool.not_false, Bool.and_self]
  refine ⟨_, ?_, ?_, rfl⟩
  · split
    · exact changes_countO _ _ _ _ _
    · exact changes_refl _ _
  · split
    · exact countO_out _ _ _ _ _
    · rfl

theorem missedOnce_effect {tid ut start : Nat} (ht : tracked (ctxOf s t tid).state = true) :
    (ctxOf (missedOnce t tid ut start s) t tid).miss = (ctxOf s t tid).miss + 1 ∧
      (∀ i, i ≠ tid → ctxOf (missedOnce t tid ut start s) t i = ctxOf s t i) ∧
      (∀ v, v ≠ t → treOf (missedOnce t tid ut start s) v = treOf s v) ∧
      (treOf (missedOnce t tid ut start s) t).grants = (treOf (markSeen t ut start s) t).grants ∧
      (missedOnce t tid ut start s).out = s.out ∧ Changes [.tre, .cnt] s (missedOnce t tid ut start s) := by
  have marked (i : Nat) : ctxOf (markSeen t ut start s) t i = ctxOf s t i := by rw [ctxOf, treOf_markSeen, ctxOf]
  have counted : (countO (iTRE t) 12 tid 1 (markSeen t ut start s)).tre = (markSeen t ut start s).tre := countO_tre _ _ _ _ _
  unfold missedOnce
  rw [missTerminal_tracked (by rw [marked]; exact ht)]
  refine ⟨?_, fun i hi => ?_, fun v hv => ?_, ?_, ?_, ?_⟩
  · rw [ctxOf_modCtx_same, ctxOf_of_tre counted, marked]
  · rw [ctxOf_modCtx_other hi, ctxOf_of_tre counted, marked]
  · rw [modCtx, treOf_modTre_other hv, treOf_of_tre counted, markSeen, treOf_modTre_other hv]
  · rw [modCtx, treOf_modTre_same, treOf_of_tre counted]
  · exact countO_out _ _ _ _ _
  · exact (((changes_markSeen _ _ s).mono (by decide)).trans ((changes_countO _ _ _ _ _).mono (by decide))).trans
      ((changes_modTre _ _ _).mono (by decide))

/-- A burst is missed once: a marked entry is found no more. -/
theorem missedBurst_again {ut start : Nat} {g : List MapEnt} (h : tGet [] (treOf s t).grants ut = g)
    (hs : ∀ y ∈ g, y.bs = true → y.start = start → y.seen = true) : missedBurst t ut start s = s := by
  unfold missedBurst
  split
  · rfl
  · have none : (tGet [] (treOf s t).grants ut).find? (fun e => e.bs && !e.disc && e.start == start && !e.seen) = none := by
      rw [h]
      refine List.find?_eq_none.mpr fun y hy hp => ?_
      simp only [Bool.and_eq_true, Bool.not_eq_true', beq_iff_eq] at hp
      obtain ⟨⟨⟨bs, -⟩, at_⟩, unseen⟩ := hp
      exact absurd (hs y hy bs at_) (by simp [unseen])
    rw [none]

end

/-! ## The statement -/

/-- Settles O20: a header that fails its check, one that is accepted, and a burst that is missed once. -/
theorem upstreamBursts : Obligations.UpstreamBursts := by
  refine ⟨fun s tree ph utick sob blk b hv hloop hl => ?_, fun s tree utick blk e hl hg hb hd hs hst ht => ?_⟩
  · have port (blocks : List UsBlock) : upstream tree.toNat utick.toNat sob ph.toNat blk.toNat blocks (begin_ s) =
        usBurst tree.toNat utick.toNat sob ph.toNat blk.toNat blocks (begin_ s) := by
      have hv' : vqOf (begin_ s) tree.toNat = none := hv
      have hloop' : loopT (begin_ s) tree.toNat = 0 := hloop
      simp only [upstream, hv', hloop']
      rfl
    refine ⟨fun h rest hg hbad => ?_, fun e tid m hg hbs hgood h108 h112 h80 h64 h118 hown h105 ht ha => ?_⟩
    · obtain ⟨out, ctx, ch⟩ := usBurst_bad (s := begin_ s) (ph := ph.toNat) (sob := sob) (rest := rest) hl hg hbad
      exact ⟨_, congrArg Host.Outcome.next (port (b :: rest)), out, ctx, ch.of_begin⟩
    · obtain ⟨s0, held, run⟩ := usBurst_hit (s := begin_ s) (ph := ph.toNat) (sob := sob) (b := b) (rest := []) hl hg
      have owner : entOwner s0 tree.toNat e = tid := (held.entOwner e).trans hown
      have body : usBurst tree.toNat utick.toNat sob ph.toNat blk.toNat [b] (begin_ s) =
          burstBody tree.toNat utick.toNat ⟨.data, m, [e]⟩ e (arrivalOf s0 tree.toNat utick.toNat m sob ph.toNat) blk.toNat [b] s0 := by
        rw [run, if_neg (by simp [hgood]),
          if_neg (by rw [not_or, not_or, not_or]; exact ⟨not_not.mpr h108, not_not.mpr h112, not_not.mpr h80, not_not.mpr h64⟩),
          if_neg (by rw [not_not, h118]; exact owner.symm),
          if_neg (fun h : nfld b.data.toNat 105 3 ≠ (hitHead ⟨.data, m, [e]⟩).rpt => h h105)]
        rfl
      have due : guardBlk s0 tree.toNat = guardBlk s tree.toNat ∧ preBlk s0 tree.toNat = preBlk s tree.toNat ∧
          blkSteps s0 tree.toNat = blkSteps s tree.toNat :=
        ⟨held.regF _ _ _, held.regF _ _ _, congrArg (fun r => 400 / 2 ^ r) held.rateOf⟩
      obtain ⟨miss, grants, ch⟩ := burstBody_header (s := s0) (t := tree.toNat) (ut := utick.toNat) (m := m) (blk := blk.toNat) (e := e)
        (tarr := arrivalOf s0 tree.toNat utick.toNat m sob ph.toNat) (b := b) hbs
        (by rw [h118, held.ctxOf]; exact ht)
        (by rw [h118, held.ctxOf, held.accepts, held.arrivalOf, due.1, due.2.1, due.2.2]; exact ha)
      have all := (held.changes.mono (l' := .tre :: noted) (by decide)).trans ch
      rw [h118] at miss
      refine ⟨_, congrArg Host.Outcome.next ((port [b]).trans body), miss, fun g y hmem hy hyb hys => ?_,
        all .regs (by decide), all .qbm (by decide), all .cpe (by decide), all .pending (by decide)⟩
      rw [grants] at hmem
      exact markSeen_seen hmem hy hyb hys
  · have hst' : blk.toNat = e.start := hst.symm
    obtain ⟨u, counted, out, run⟩ := missedBurst_counts (s := begin_ s) hl hg hb hd hs
    obtain ⟨miss, others, trees, grants, out1, ch⟩ :=
      missedOnce_effect (s := begin_ s) (t := tree.toNat) (tid := entOwner s tree.toNat e) (ut := utick.toNat) (start := e.start) ht
    have tre : u.tre = (missedOnce tree.toNat (entOwner s tree.toNat e) utick.toNat e.start (begin_ s)).tre := counted .tre (by decide)
    have first : Runs (.missedBurst tree utick blk) s u := by
      unfold Runs
      exact congrArg Host.Outcome.next ((congrArg (fun n => missedBurst tree.toNat utick.toNat n (begin_ s)) hst').trans run)
    have marked : tGet [] (treOf (begin_ u) tree.toNat).grants utick.toNat = [{ e with seen := true }] := by
      show tGet [] (treOf u tree.toNat).grants utick.toNat = _
      rw [treOf_of_tre tre, grants, treOf_markSeen]
      dsimp only
      rw [tGet, tFind_map_at, show tFind utick.toNat (treOf (begin_ s) tree.toNat).grants = some [e] from hg]
      simp [hb]
    have again : missedBurst tree.toNat utick.toNat blk.toNat (begin_ u) = begin_ u :=
      missedBurst_again marked fun y hy _ _ => by rw [List.mem_singleton.mp hy]
    exact ⟨u, first, by rw [ctxOf_of_tre tre, miss]; rfl, fun i hi => by rw [ctxOf_of_tre tre, others i hi]; rfl,
      fun v hv => by rw [treOf_of_tre tre, trees v hv]; rfl, out.trans out1, (ch.trans (counted.mono (by decide))).of_begin,
      begin_ u, congrArg Host.Outcome.next again, rfl⟩

end Sys2Proof.Machine
end

section
/-!
SUPPORT. The two passes of the Churn on the configuration of their tick (R136 to R146, R157), and the reset of a page's count (R81, R82).
-/

namespace Sys2Proof.Machine

-- one declaration at a time: the package is compiled as one text within a limit of memory
set_option Elab.async false

/-! ## Work on the configuration of a later tick (R51, R157) -/

section
variable {s t u : State} {l : List Comp} {m n : Nat} {f : State → State}

theorem changes_viewAt (m : Nat) (s : State) : Changes [.regs, .qbm] s (viewAt m s) := by
  unfold viewAt
  extract_lets l
  exact Changes.ite (fun _ => changes_refl _ s) fun _ c hc => by cases c <;> simp [Kept] at hc ⊢

theorem sansCtx_viewAt (m : Nat) (s : State) : { (viewAt m s).qbm with ctx := s.qbm.ctx } = s.qbm := by
  unfold viewAt
  by_cases h : (imagesFor s m).isEmpty = true
  · rw [if_pos h]
  · rw [if_neg h]

theorem chnOf_onView (m : Nat) (f : State → State) (s : State) (t : Nat) : chnOf (onView m f s) t = chnOf (f (viewAt m s)) t := rfl

theorem treOf_onView (m : Nat) (f : State → State) (s : State) (t : Nat) : treOf (onView m f s) t = treOf (f (viewAt m s)) t := rfl

theorem out_onView (m : Nat) (f : State → State) (s : State) : (onView m f s).out = (f (viewAt m s)).out := rfl

/-- What leaves the queues alone leaves registers and contexts as they were before the look ahead. -/
theorem changes_onView (h : Changes l (viewAt m s) (f (viewAt m s))) (hq : .qbm ∉ l) : Changes l s (onView m f s) := by
  have hqbm : (f (viewAt m s)).qbm = (viewAt m s).qbm := h .qbm hq
  have same : (onView m f s).qbm = s.qbm := by
    show { (f (viewAt m s)).qbm with ctx := s.qbm.ctx } = _
    rw [hqbm]
    exact sansCtx_viewAt m s
  intro c hc
  have left (hv : c ∉ [Comp.regs, .qbm]) : Kept s (f (viewAt m s)) c := (changes_viewAt m s c hv).trans (h c hc)
  cases c with
  | regs => exact rfl
  | qbm => exact same
  | _ => exact left (by decide)

end

/-! ## Pass 1 (R136 to R140) -/

/-- From `s` to `u` the Churn of tree `t` has worked: no other tree's changes. -/
structure ChurnWorks (l : List Comp) (t : Nat) (s u : State) : Prop where
  changes : Changes (.chn :: l) s u
  other : ∀ v, v ≠ t → chnOf u v = chnOf s v

section
variable {s u v : State} {t : Nat} {l : List Comp}

theorem ChurnWorks.refl (l : List Comp) (t : Nat) (s : State) : ChurnWorks l t s s := ⟨changes_refl _ s, fun _ _ => rfl⟩

theorem ChurnWorks.trans (h : ChurnWorks l t s u) (k : ChurnWorks l t u v) : ChurnWorks l t s v :=
  ⟨h.changes.trans k.changes, fun w hw => (k.other w hw).trans (h.other w hw)⟩

theorem churnWorks_modChn (l : List Comp) (f : Chn → Chn) (s : State) : ChurnWorks l t s (modChn t f s) :=
  ⟨(changes_modChn t f s).mono (List.cons_subset_cons _ (List.nil_subset _)), fun _ hv => chnOf_modChn_other hv f s⟩

theorem ChurnWorks.of_changes {k : List Comp} (h : Changes k s u) (hc : .chn ∉ k := by decide) (hl : k ⊆ .chn :: l := by decide) :
    ChurnWorks l t s u :=
  have e : u.chn = s.chn := h .chn hc
  ⟨h.mono hl, fun v _ => congrArg (tGet Chn.empty · v) e⟩

theorem ChurnWorks.ite {c : Prop} [Decidable c] (h : c → ChurnWorks l t s u) (h' : ¬c → ChurnWorks l t s v) :
    ChurnWorks l t s (if c then u else v) := by
  split
  · exact h ‹_›
  · exact h' ‹_›

theorem ChurnWorks.foldl {α : Type} {g : State → α → State} (h : ∀ s x, ChurnWorks l t s (g s x)) (L : List α) (s : State) :
    ChurnWorks l t s (L.foldl g s) := by
  induction L generalizing s with
  | nil => exact .refl _ _ _
  | cons x L ih => exact (h s x).trans (ih _)

theorem churnWorks_withdrawWindow (m : Nat) (s : State) : ChurnWorks faulted t s (withdrawWindow t m s) := by
  unfold withdrawWindow
  split
  · exact .refl _ _ s
  · split
    · exact .refl _ _ s
    · exact churnWorks_modChn _ _ s

theorem churnWorks_openWindow (w nb : Nat) (s : State) : ChurnWorks faulted t s (openWindow t w nb s) := by
  have counted (i evt o n : Nat) (u : State) : ChurnWorks faulted t u (countO i evt o n u) := .of_changes (changes_countO _ _ _ _ u)
  have told (i b : Nat) (x : Word) (a k n p : Nat) (u : State) : ChurnWorks faulted t u (fault i b x a k n p u) :=
    .of_changes (changes_fault _ _ _ _ _ _ _ u)
  unfold openWindow
  extract_lets c e disc due bpt len qb qa lo s1 hi st win s1' with_ short
  refine .ite (fun _ => .refl _ _ s) fun _ => .ite (fun _ => .ite (fun _ => counted _ _ _ _ s) fun _ => ?_) fun _ => ?_
  · exact ((counted _ _ _ _ s).trans (churnWorks_modChn _ _ _)).trans (told _ _ _ _ _ _ _ _)
  · have h1 : ChurnWorks faulted t s s1' := churnWorks_modChn _ _ s
    exact .ite (fun _ => h1) fun _ => .ite (fun _ => h1.trans ((churnWorks_modChn _ _ _).trans (counted _ _ _ _ _)))
      fun _ => h1.trans (churnWorks_modChn _ _ _)

theorem churnWorks_oversub (lv : List Level) (s : State) : ChurnWorks faulted t s (oversub t lv s) := by
  unfold oversub
  refine .foldl (fun u k => ?_) _ s
  extract_lets s1 due
  have counted : ChurnWorks faulted t u s1 := .of_changes (changes_countO _ _ _ _ u)
  refine .ite (fun _ => .refl _ _ u) fun _ => .ite (fun _ => ?_) fun _ => counted
  exact (counted.trans (churnWorks_modChn _ _ _)).trans (.of_changes (changes_notice _ _ _))

theorem length_levelsOf (rows : List PassRow) (c : Int) : (levelsOf rows c).1.length = 4 := by
  simp [levelsOf, List.range_succ]

/-- Pass 1 leaves the four levels of the next map. -/
theorem pass1_effect (t : Nat) (s : State) : ChurnWorks faulted t s (pass1 t s) ∧ (chnOf (pass1 t s) t).pass.map (·.levels.length) = some 4 := by
  unfold pass1
  extract_lets m s0 ch ests s1 dem terms rows polls needs s2 res nr lv aside guard s3
  have h0 : ChurnWorks faulted t s s0 := churnWorks_withdrawWindow _ s
  have h1 : ChurnWorks faulted t s s1 := h0.trans (churnWorks_modChn _ _ s0)
  have h2 : ChurnWorks faulted t s s2 := h1.trans (churnWorks_openWindow _ _ s1)
  have h3 : ChurnWorks faulted t s s3 := .ite (fun _ => h2) fun _ => h2.trans (.of_changes (changes_notice _ _ s2))
  have h4 := h3.trans (churnWorks_oversub lv.1 s3)
  refine ⟨h4.trans (churnWorks_modChn _ _ _), ?_⟩
  rw [chnOf_modChn_same]
  exact congrArg some (length_levelsOf rows _)

/-! ## Pass 2 (R141, R144 to R146) -/

/-- A map is written into the standby page (R81). -/
theorem writeMap_effect (t m : Nat) (l : List MapEnt) (s : State) :
    (∃ g, treOf (writeMap t m l s) t = { treOf s t with map := l, mapCnt := l.length, mapDone := true, grants := tPut m l g }) ∧
      (writeMap t m l s).out.getLast? = some (.mapDone t) ∧ Changes [.tre] s (writeMap t m l s) := by
  have written (L : List (MapEnt × Nat)) (u : State) : Changes [.tre] u (L.foldl (fun s e => emit (.mapWrite t e.2 (mapWord e.1)) s) u) :=
    Changes.foldl (fun v e => changes_emit _ _ v) L u
  unfold writeMap
  extract_lets s1 s2
  have ch : Changes [.tre] s s2 := (written _ s).trans ((changes_emit _ _ s1).trans (changes_emit _ _ _))
  have tre : treOf s2 t = treOf s t := by
    have fold (L : List (MapEnt × Nat)) (u : State) : (L.foldl (fun s e => emit (.mapWrite t e.2 (mapWord e.1)) s) u).tre = u.tre := by
      induction L generalizing u with
      | nil => rfl
      | cons x L ih => exact ih _
    exact treOf_of_tre (fold _ s) t
  refine ⟨⟨(treOf s t).grants.filter (fun g => decide (m ≤ g.1 + 4)), ?_⟩, ?_, ch.trans (changes_modTre _ _ s2)⟩
  · rw [treOf_modTre_same, tre]
  · exact List.getLast?_concat

/-- Pass 2 writes the map of tick `m`, at most 4,096 entries, after it has used up what pass 1 left. -/
theorem pass2_writes {x : Pass} (hd : domOn s (domTP t) = true) (hn : (treOf s t).mapNone = false) :
    ∃ l u, l.length ≤ 4096 ∧ pass2 t x s = writeMap t (s.tim.tick + 1) l u ∧ Changes [.chn, .tre, .cnt] s u ∧ (chnOf u t).pass = none := by
  unfold pass2
  extract_lets m s0 oh rpt eob hdr p pl ents given e s1 s2 s3
  have used : (chnOf s0 t).pass = none := by simp only [s0]; rw [chnOf_modChn_same]
  have ch0 : Changes [.chn, .tre, .cnt] s s0 := (changes_modChn _ _ s).mono (by decide)
  rw [if_neg (by simp [hd, hn])]
  split
  · exact ⟨_, s0, Nat.zero_le _, rfl, ch0, used⟩
  · split
    · exact ⟨_, s0, List.length_take_le _ _, rfl, ch0, used⟩
    · have ch1 : Changes [.chn, .tre, .cnt] s s1 :=
        ch0.trans (((changes_countO _ _ _ _ s0).trans (changes_countO _ _ _ _ _)).mono (by decide))
      have used1 : (chnOf s1 t).pass = none := by
        have e : s1.chn = s0.chn := (countO_chn _ _ _ _ _).trans (countO_chn _ _ _ _ _)
        exact (congrArg (fun c => (tGet Chn.empty c t).pass) e).trans used
      have fold (L : List (Nat × Nat × Nat)) (u : State) (hu : Changes [.chn, .tre, .cnt] s u ∧ (chnOf u t).pass = none) :
          Changes [.chn, .tre, .cnt] s (L.foldl (fun s g => if g.1 < 1024 then s else modEst t g.1 (fun e => { e with grants := e.grants ++ [(m, g.2)] }) s) u) ∧
            (chnOf (L.foldl (fun s g => if g.1 < 1024 then s else modEst t g.1 (fun e => { e with grants := e.grants ++ [(m, g.2)] }) s) u) t).pass = none := by
        induction L generalizing u with
        | nil => exact hu
        | cons g L ih =>
          refine ih _ ?_
          dsimp only
          split
          · exact hu
          · refine ⟨hu.1.trans ((changes_modChn _ _ u).mono (by decide)), ?_⟩
            rw [modEst, chnOf_modChn_same]
            exact hu.2
      obtain ⟨ch2, used2⟩ : Changes [.chn, .tre, .cnt] s s2 ∧ (chnOf s2 t).pass = none := fold given s1 ⟨ch1, used1⟩
      have fold3 (L : List Nat) (u : State) : Changes [.tre] u (L.foldl (fun s i => modCtx t i (fun c => { c with burstTick := m }) s) u) :=
        Changes.foldl (fun v i => changes_modTre _ _ v) L u
      have ch3 : Changes [.tre] s2 s3 := fold3 _ s2
      have used3 : (chnOf s3 t).pass = none := by
        have e : s3.chn = s2.chn := ch3 .chn (by decide)
        exact (congrArg (fun c => (tGet Chn.empty c t).pass) e).trans used2
      exact ⟨_, s3, List.length_take_le _ _, rfl, ch2.trans (ch3.mono (by decide)), used3⟩

/-! ## The count of the page (R81, R82) -/

theorem mapCountZero_effect (t : Nat) (s : State) :
    treOf (mapCountZero t s) t = { treOf s t with map := [], mapCnt := 0, mapDone := !(treOf s t).run } ∧
      Out.mapCount t 0 ∈ (mapCountZero t s).out ∧ ((treOf s t).run = false → Out.mapDone t ∈ (mapCountZero t s).out) ∧
      (∀ v, v ≠ t → treOf (mapCountZero t s) v = treOf s v) ∧ Changes [.tre] s (mapCountZero t s) := by
  unfold mapCountZero
  extract_lets run s1
  have ch : Changes [.tre] s s1 := (changes_modTre _ _ s).trans (changes_emit _ _ _)
  have here : treOf s1 t = { treOf s t with map := [], mapCnt := 0, mapDone := !(treOf s t).run } := by
    show treOf (modTre t (fun r => { r with map := [], mapCnt := 0, mapDone := !run }) s) t = _
    rw [treOf_modTre_same]
  have others (v : Nat) (hv : v ≠ t) : treOf s1 v = treOf s v :=
    treOf_modTre_other hv (fun r => { r with map := [], mapCnt := 0, mapDone := !run }) s
  have told : Out.mapCount t 0 ∈ s1.out := List.mem_append_right _ List.mem_cons_self
  by_cases h : run = true
  · rw [if_pos h]
    exact ⟨here, told, fun h0 => absurd (h0.symm.trans h) (by decide), others, ch⟩
  · rw [if_neg h]
    exact ⟨here, List.mem_append_left _ told, fun _ => List.mem_append_right _ List.mem_cons_self, others, ch.trans (changes_emit _ _ s1)⟩

end

/-! ## The statement -/

/-- Settles O17: pass 1 and pass 2 of a tree, and the reset of its page's count. -/
theorem churnPasses : Obligations.ChurnPasses := by
  refine ⟨fun s tree hr hc ha => ?_, fun s tree hr hp ha hd hn => ?_, fun s tree hd h1 => ?_⟩
  · have run : churnPass1 tree.toNat (begin_ s) = onView (s.tim.tick + 1) (pass1 tree.toNat) (begin_ s) := by
      have hr' : churnRuns (begin_ s) tree.toNat = true := hr
      have ha' : pass1At (begin_ s) tree.toNat ≤ cyc (begin_ s) := ha
      simp [churnPass1, hr', syncTo_come ha', Nat.not_lt.mpr ha', hc]
    obtain ⟨works, levels⟩ := pass1_effect tree.toNat (viewAt (s.tim.tick + 1) (begin_ s))
    have chn : (viewAt (s.tim.tick + 1) (begin_ s)).chn = s.chn := changes_viewAt _ (begin_ s) .chn (by decide)
    have done : Runs (.churnPass1 tree) s _ := congrArg Host.Outcome.next run
    refine ⟨_, done, ?_, fun u hu => ?_, (changes_onView works.changes (by decide)).of_begin⟩
    · rw [chnOf_onView]
      exact levels
    · rw [chnOf_onView, works.other u hu, chnOf, chn, chnOf]
  · have hr' : churnRuns (begin_ s) tree.toNat = true := hr
    have ha' : pass2At (begin_ s) tree.toNat ≤ cyc (begin_ s) := ha
    obtain ⟨x, hx⟩ := Option.isSome_iff_exists.mp hp
    have hx' : (chnOf (begin_ s) tree.toNat).pass = some x := hx
    have run : churnPass2 tree.toNat (begin_ s) = onView (s.tim.tick + 1) (pass2 tree.toNat x) (begin_ s) := by
      simp [churnPass2, hr', syncTo_come ha', Nat.not_lt.mpr ha', hx']
    have view := changes_viewAt (s.tim.tick + 1) (begin_ s)
    have pwr : (viewAt (s.tim.tick + 1) (begin_ s)).pwr = s.pwr := view .pwr (by decide)
    have tre : (viewAt (s.tim.tick + 1) (begin_ s)).tre = s.tre := view .tre (by decide)
    have tim : (viewAt (s.tim.tick + 1) (begin_ s)).tim = s.tim := view .tim (by decide)
    obtain ⟨l, u, len, writes, ch, used⟩ := pass2_writes (s := viewAt (s.tim.tick + 1) (begin_ s)) (t := tree.toNat) (x := x)
      (by simp only [domOn, pdom, pwr]; exact hd) (by rw [treOf_of_tre tre]; exact hn)
    obtain ⟨⟨g, page⟩, last, ch'⟩ := writeMap_effect tree.toNat (s.tim.tick + 1) l u
    rw [tim] at writes
    have whole := ch.trans (ch'.mono (l' := [.chn, .tre, .cnt]) (by decide))
    rw [← writes] at whole page last ch'
    have done : Runs (.churnPass2 tree) s _ := congrArg Host.Outcome.next run
    refine ⟨_, done, ?_⟩
    rw [chnOf_onView, treOf_onView, out_onView, page]
    have e : (pass2 tree.toNat x (viewAt (s.tim.tick + 1) (begin_ s))).chn = u.chn := ch' .chn (by decide)
    exact ⟨(congrArg (fun c => (tGet Chn.empty c tree.toNat).pass) e).trans used, rfl, rfl, len, tFind_tPut_same _ l g, last,
      (changes_onView whole (by decide)).of_begin⟩
  · have hd' : domOn (begin_ s) (domTP tree.toNat) = true := hd
    have h1' : cyc (begin_ s) = 1 := h1
    have run : mapCountReset tree.toNat (begin_ s) = mapCountZero tree.toNat (begin_ s) := by
      simp [mapCountReset, hd', h1', syncTo_come (show 1 ≤ cyc (begin_ s) by omega)]
    obtain ⟨page, told, done, others, ch⟩ := mapCountZero_effect tree.toNat (begin_ s)
    refine ⟨_, congrArg Host.Outcome.next run, by rw [page], by rw [page], told, fun hrun => ?_, fun hrun => ⟨?_, done hrun⟩, others, ch.of_begin⟩
    · rw [page]
      exact congrArg (!·) hrun
    · rw [page]
      exact congrArg (!·) hrun

end Sys2Proof.Machine
end

section
/-!
SUPPORT. The roles of the slices, and rotations (R405 to R408, R411).
-/

namespace Sys2Proof.Machine

-- one declaration at a time: the package is compiled as one text within a limit of memory
set_option Elab.async false

section
variable {s t : State} {i j : Nat} {r : Role}

/-! ## A slice takes a role (R406, R411, R471) -/

/-- The Skim without the roles of the slices and what a change of role notes: the cycle of it, and the order of the spares. -/
def Skm.sansRole (k : Skm) : Skm := { k with role := [], passAt := [], wasSpare := [], spareNo := 0, strobe := [], beatDone := [] }

theorem setRole_skm (i : Nat) (r : Role) (s : State) : (setRole i r s).skm.sansRole = s.skm.sansRole ∧
    (setRole i r s).skm.role = tSet (roleDflt i) s.skm.role i r := by
  unfold setRole
  extract_lets was s1 pass old s2 s3
  have h1 : s1.skm = s.skm := by
    show (if _ then _ else _ : State).skm = s.skm
    split
    · exact changes_laneStop i s .skm (by decide)
    · rfl
  have h2 : s2.skm.sansRole = s.skm.sansRole ∧ s2.skm.role = tSet (roleDflt i) s.skm.role i r := by
    rw [← h1]
    exact ⟨rfl, rfl⟩
  have h3 : s3.skm = s2.skm := by
    show (if _ then _ else _ : State).skm = s2.skm
    split
    · exact changes_laneStart i s2 .skm (by decide)
    · rfl
  rw [← h3] at h2
  clear_value s3
  split
  · exact h2
  · exact h2

theorem roleOf_setRole_same (i : Nat) (r : Role) (s : State) : roleOf (setRole i r s) i = r := by
  rw [roleOf, (setRole_skm i r s).2, tGet_tSet_same]

theorem roleOf_of_role (h : t.skm.role = s.skm.role) (i : Nat) : roleOf t i = roleOf s i := congrArg (tGet (roleDflt i) · i) h

theorem roleOf_setMode (i : Nat) (s : State) : roleOf (setMode s) i = roleOf s i := roleOf_of_role (setMode_cases s).1 i

/-- The Skim without its mode. -/
def Skm.sansMode (k : Skm) : Skm := { k with mode := 0 }

theorem setMode_skm (s : State) : (setMode s).skm.sansMode = s.skm.sansMode := by
  unfold setMode
  extract_lets m
  split
  · rfl
  · rw [notice0_skm]
    rfl

theorem changes_setMode (s : State) : Changes (.skm :: noted) s (setMode s) := (setMode_cases s).2.2.2

/-- R382, R411: a slice whose domain stays ON is tested; for another the test waits. -/
theorem beginTest_effect (i : Nat) (s : State) : (staysOn s (domSL i) = true → roleOf (beginTest i s) i = .testing ∧
      (roleOf s i = .failed → Changes [.skm] s (beginTest i s)) ∧ Changes [.skm, .cnt] s (beginTest i s)) ∧
    (staysOn s (domSL i) = false → i ∈ (beginTest i s).skm.repair ∧ (beginTest i s).skm.role = s.skm.role ∧
      Changes [.skm, .pwr] s (beginTest i s)) := by
  unfold beginTest
  refine ⟨fun h => ?_, fun h => ?_⟩
  · rw [if_pos h]
    refine ⟨roleOf_setRole_same _ _ _, fun hf => ?_, changes_setRole _ _ _⟩
    unfold setRole
    rw [hf]
    exact changes_skm _ s
  · rw [if_neg (by simp [h])]
    have member : i ∈ (if s.skm.repair.contains i then s.skm.repair else s.skm.repair ++ [i]) := by
      split
      · next k => exact List.contains_iff_mem.mp k
      · exact List.mem_append_right _ (List.mem_singleton.mpr rfl)
    have asked := changes_skm { s.skm with repair := if s.skm.repair.contains i then s.skm.repair else s.skm.repair ++ [i] } s
    generalize hu : ({ s with skm := { s.skm with repair := if s.skm.repair.contains i then s.skm.repair else s.skm.repair ++ [i] } } : State) = u
      at asked
    have woken := changes_wake (domSL i) 6 u
    have hk : (wake (domSL i) 6 u).skm = u.skm := woken .skm (by decide)
    have waits : i ∈ u.skm.repair ∧ u.skm.role = s.skm.role := by
      rw [← hu]
      exact ⟨member, rfl⟩
    rw [hk]
    exact ⟨waits.1, waits.2, (asked.mono (by decide)).trans (woken.mono (by decide))⟩

/-! ## Rotations -/

/-- R406: the spare becomes the SHADOW of the boundary of the next tick. -/
theorem startRotation_effect (out : Option Nat) (set : Option Nat) (j : Nat) (s : State) :
    roleOf (startRotation out j set s) j = .shadow ∧ (startRotation out j set s).skm.rot = some ⟨out, j, set, s.tim.tick + 1, []⟩ ∧
    Changes (.skm :: noted) s (startRotation out j set s) := by
  have role := roleOf_setRole_same j .shadow s
  have shadow := changes_setRole j .shadow s
  unfold startRotation
  dsimp only
  generalize setRole j .shadow s = s1 at role shadow
  have tim : s1.tim = s.tim := shadow .tim (by decide)
  have put := changes_skm { s1.skm with rot := some ⟨out, j, set, s1.tim.tick + 1, []⟩ } s1
  refine ⟨(roleOf_setMode _ _).trans role, ?_, (shadow.mono (by decide)).trans ((put.mono (by decide)).trans (changes_setMode _))⟩
  refine (congrArg Skm.rot (setMode_skm _) :).trans ?_
  rw [← tim]
  rfl

/-- R406: the shadow of the slice that was ACTIVE longest. -/
theorem shadowStart_goes {k : Nat} (hs : s.tim.started = true) (hd : s.skm.rotDue = true) (hm : s.skm.mode = 0) (hc : cyc s = 125000)
    (hj : rotSpare s = some j) (hi : longestActive s = some k) : shadowStart s = startRotation (some k) j none s := by
  have come : syncTo 125000 s = s := syncTo_come hc.ge
  unfold shadowStart
  rw [if_neg (by simp [hs, hd, hm])]
  simp only [come, if_pos hc, hj, hi]

/-- R405: the set that has no slice, or is split, moves whole. -/
theorem restoring_goes {k : Nat} (hs : s.tim.started = true) (hr : s.skm.restore = true) (hm : 2 ≤ s.skm.mode) (hc : cyc s = 125000)
    (hj : rotSpare s = some j) (hk : restoreSet s = some k) : restoring s = startRotation none j (some k) s := by
  have come : syncTo 125000 s = s := syncTo_come hc.ge
  unfold restoring
  rw [if_neg (by simp [hs, hr, Nat.lt_of_lt_of_le Nat.one_lt_two hm])]
  simp only [come, if_pos hc, hj, hk]

/-- R408: the shadow returns to SPARE, and the rotation stays due. -/
theorem abandonRotation_effect {r : Rotation} (hc : 150000 ≤ cyc s) (hr : s.skm.rot = some r) : roleOf (abandonRotation s) r.inn = .spare ∧
    (abandonRotation s).skm.rot = none ∧ (r.set = none → (abandonRotation s).skm.rotDue = true) ∧
    (r.set ≠ none → (abandonRotation s).skm.restore = true) ∧ Changes (.skm :: noted) s (abandonRotation s) := by
  have come : syncTo 150000 s = s := syncTo_come hc
  have e : abandonRotation s = setMode (setRole r.inn .spare (endRotation s)) := by
    unfold abandonRotation
    simp only [hr, come, if_neg (Nat.not_lt.mpr hc)]
  have ended : (endRotation s).skm = { s.skm with rot := none, restore := s.skm.restore || r.set.isSome, rotDue := s.skm.rotDue || r.set.isNone } := by
    unfold endRotation
    rw [hr]
  have hend : Changes [.skm] s (endRotation s) := by
    unfold endRotation
    rw [hr]
    exact changes_skm _ s
  rw [e]
  generalize endRotation s = u at ended hend
  have role := roleOf_setRole_same r.inn .spare u
  have spare := changes_setRole r.inn .spare u
  have kept := (setRole_skm r.inn .spare u).1
  generalize setRole r.inn .spare u = v at role spare kept
  have mode := setMode_skm v
  have rot : (setMode v).skm.rot = u.skm.rot := (congrArg Skm.rot mode :).trans (congrArg Skm.rot kept :)
  have due : (setMode v).skm.rotDue = u.skm.rotDue := (congrArg Skm.rotDue mode :).trans (congrArg Skm.rotDue kept :)
  have owed : (setMode v).skm.restore = u.skm.restore := (congrArg Skm.restore mode :).trans (congrArg Skm.restore kept :)
  refine ⟨(roleOf_setMode _ v).trans role, by rw [rot, ended], fun h => ?_, fun h => ?_,
    (hend.mono (by decide)).trans ((spare.mono (by decide)).trans (changes_setMode v))⟩
  · rw [due, ended]
    simp [h]
  · rw [owed, ended]
    simp [Option.isSome_iff_ne_none.mpr h]

/-- R411: REPAIR. -/
theorem writeSkmCtl_effect (data : Word) (s : State) : reg (writeSkmCtl data s) (pageSKM + 0x10) = data &&& 0xF ∧
    (∀ a, a ≠ pageSKM + 0x10 → reg (writeSkmCtl data s) a = reg s a) ∧
    (bit data 4 = true → roleOf s (fld data 0 4) = .failed →
      (staysOn s (domSL (fld data 0 4)) = true → roleOf (writeSkmCtl data s) (fld data 0 4) = .testing ∧
        Changes [.regs, .skm] s (writeSkmCtl data s)) ∧
      (staysOn s (domSL (fld data 0 4)) = false → fld data 0 4 ∈ (writeSkmCtl data s).skm.repair ∧
        (writeSkmCtl data s).skm.role = s.skm.role)) ∧
    (bit data 4 = false → (writeSkmCtl data s).skm = s.skm) ∧ Changes [.regs, .skm, .pwr] s (writeSkmCtl data s) := by
  have same := reg_setReg_same (pageSKM + 0x10) (data &&& 0xF) s
  have other := fun a (h : a ≠ pageSKM + 0x10) => reg_setReg_other h (data &&& 0xF) s
  have set := changes_setReg (pageSKM + 0x10) (data &&& 0xF) s
  unfold writeSkmCtl
  dsimp only
  generalize setReg (pageSKM + 0x10) (data &&& 0xF) s = u at same other set
  generalize fld data 0 4 = i
  have hskm : u.skm = s.skm := set .skm (by decide)
  have hrole : roleOf u i = roleOf s i := roleOf_of_role (congrArg Skm.role hskm) i
  have hon : staysOn u (domSL i) = staysOn s (domSL i) := by
    simp only [staysOn, pdom_of_pwr (set .pwr (by decide))]
  obtain ⟨tested, waits⟩ := beginTest_effect i u
  by_cases go : (bit data 4 && roleOf u i == .failed) = true
  · rw [if_pos go]
    obtain ⟨hb, hf⟩ : bit data 4 = true ∧ roleOf u i = .failed := by simpa using go
    rw [hon] at tested waits
    have test : Changes [.skm, .pwr] u (beginTest i u) := by
      by_cases h : staysOn s (domSL i) = true
      · exact ((tested h).2.1 hf).mono (by decide)
      · exact (waits (Bool.eq_false_iff.mpr h)).2.2
    have regs : ∀ a, reg (beginTest i u) a = reg u a := fun a => by rw [reg, test .regs (by decide), ← reg]
    refine ⟨(regs _).trans same, fun a h => (regs a).trans (other a h), fun _ _ => ⟨fun h => ⟨(tested h).1, ?_⟩, fun h => ?_⟩,
      fun h => ?_, (set.mono (by decide)).trans (test.mono (by decide))⟩
    · exact (set.mono (by decide)).trans (((tested h).2.1 hf).mono (by decide))
    · exact ⟨(waits h).1, (waits h).2.1.trans (congrArg Skm.role hskm)⟩
    · rw [hb] at h
      exact absurd h (by decide)
  · rw [if_neg go]
    refine ⟨same, other, fun hb hf => absurd ?_ go, fun _ => hskm, set.mono (by decide)⟩
    rw [hb, hrole, hf]
    rfl

end

/-- Settles O53. -/
theorem rotations : Obligations.Rotations := by
  unfold Obligations.Rotations
  refine fun s => ⟨fun hp hd => ?_, fun hr => ?_, fun i j hs hd hm hc hj hi => ?_, fun r hc hr => ?_, fun j k hs hd hm hc hj hk => ?_,
    fun data hr => ?_⟩
  · have done : Runs .rotationDue s (rotationDue (begin_ s)) := rfl
    have due : (s.skm.rotTick + (reg s (pageSKM + 8)).toNat ≤ s.tim.tick) ∧ (reg s (pageSKM + 8)).toNat ≠ 0 :=
      ⟨hd, fun h => hp (BitVec.eq_of_toNat_eq h)⟩
    have e : rotationDue (begin_ s) = { begin_ s with skm := { s.skm with rotDue := true } } := if_pos ⟨due.2, due.1⟩
    rw [e] at done
    exact ⟨_, done, rfl, changes_skm _ (begin_ s)⟩
  · have done : Runs (.skmRotNow 0) s (rotNow (begin_ s)) := congrArg Host.Outcome.next (p0Write_ready (s := begin_ s) hr rfl)
    exact ⟨_, done, rfl, changes_skm _ (begin_ s)⟩
  · have done : Runs .rotationShadowStart s (shadowStart (begin_ s)) := rfl
    rw [shadowStart_goes (s := begin_ s) hs hd hm hc hj hi] at done
    exact ⟨_, done, startRotation_effect (some i) none j (begin_ s)⟩
  · exact ⟨_, rfl, abandonRotation_effect (s := begin_ s) hc hr⟩
  · have done : Runs .restoringRotation s (restoring (begin_ s)) := rfl
    rw [restoring_goes (s := begin_ s) hs hd hm hc hj hk] at done
    exact ⟨_, done, startRotation_effect none (some k) j (begin_ s)⟩
  · have done : Runs (.skmCtlRepair 0 0xF data) s (writeSkmCtl data (begin_ s)) := congrArg Host.Outcome.next (p0Write_ready (s := begin_ s) hr rfl)
    exact ⟨_, done, writeSkmCtl_effect data (begin_ s)⟩

end Sys2Proof.Machine
end

section
/-!
SUPPORT. A slice declared faulty, and the ends of self-test passes (R379, R386 to R390, R409, R411).
-/

namespace Sys2Proof.Machine

-- one declaration at a time: the package is compiled as one text within a limit of memory
set_option Elab.async false

/-! ## Homes (R27, R404) -/

/-- What the units say of the block, without the bank groups that are defective. -/
def Glb.sansGroups (g : Glb) : Glb := { g with defBg := 0 }

/-- No home moves, and nothing that the block says of itself changes but its defective bank groups. -/
def HomesStay (s t : State) : Prop := t.glb.sansGroups = s.glb.sansGroups

section
variable {s t u : State} {l : List Comp}

theorem HomesStay.refl (s : State) : HomesStay s s := rfl

theorem HomesStay.trans (h : HomesStay s t) (k : HomesStay t u) : HomesStay s u := Eq.trans k h

theorem HomesStay.of_glb (h : t.glb = s.glb) : HomesStay s t := congrArg Glb.sansGroups h

theorem HomesStay.of_changes (h : Changes l s t) (hl : Comp.glb ∉ l := by decide) : HomesStay s t := .of_glb (h .glb hl)

theorem HomesStay.ite {c : Prop} [Decidable c] (h : c → HomesStay s t) (h' : ¬c → HomesStay s u) : HomesStay s (if c then t else u) := by
  split
  · exact h ‹_›
  · exact h' ‹_›

theorem HomesStay.foldl {α : Type} {f : State → α → State} (h : ∀ s x, HomesStay s (f s x)) (xs : List α) (s : State) :
    HomesStay s (xs.foldl f s) := by
  induction xs generalizing s with
  | nil => exact .refl _
  | cons x xs ih => exact (h s x).trans (ih _)

theorem HomesStay.homeT (h : HomesStay s t) (x : Nat) : Machine.homeT t x = Machine.homeT s x :=
  congrArg (tGet (x / 8) · x) (congrArg Glb.homeTree h :)

theorem HomesStay.homeU (h : HomesStay s t) (x : Nat) : Machine.homeU t x = Machine.homeU s x :=
  congrArg (tGet (x / 2) · x) (congrArg Glb.homeUpl h :)

theorem HomesStay.treesOf (h : HomesStay s t) (i : Nat) : Machine.treesOf t i = Machine.treesOf s i := by
  have lost : t.glb.lostT = s.glb.lostT := (congrArg Glb.lostT h :)
  simp only [Machine.treesOf, lostTree, h.homeT, lost]

theorem HomesStay.portsOf (h : HomesStay s t) (i : Nat) : Machine.portsOf t i = Machine.portsOf s i := by
  have lost : t.glb.lostU = s.glb.lostU := (congrArg Glb.lostU h :)
  simp only [Machine.portsOf, lostPort, h.homeU, lost]

theorem homesStay_fault (i b : Nat) (cap0 : Word) (acc mkind mnum part : Nat) (s : State) :
    HomesStay s (fault i b cap0 acc mkind mnum part s) := .of_glb (fault_glb _ _ _ _ _ _ _ s)

theorem homesStay_autoRetire (g : Nat) (s : State) : HomesStay s (autoRetire g s) := by
  have fenced : HomesStay s (fenceGroup g s) := rfl
  unfold autoRetire
  extract_lets v ueTh qTh
  refine .ite (fun _ => .refl _) fun _ => .ite (fun _ => .of_glb rfl) fun _ => .ite (fun _ => ?_) fun _ => ?_
  · exact fenced.trans (homesStay_fault _ _ _ _ _ _ _ _)
  · exact (HomesStay.of_changes (changes_qbm _ s)).trans (homesStay_fault _ _ _ _ _ _ _ _)

theorem homesStay_freeCell (c : Nat) (s : State) : HomesStay s (freeCell c s) := by
  unfold freeCell
  extract_lets q u g v
  have h1 : HomesStay s u := .of_changes (changes_qbm _ s)
  have h2 (g : Nat) (v : Group) : HomesStay s (setGrp g v u) := h1.trans (.of_changes (changes_qbm _ u))
  exact .ite (fun _ => (h2 _ _).trans (homesStay_autoRetire _ _)) fun _ => .ite (fun _ => h1) fun _ => h2 _ _

theorem homesStay_freeFrame (n : Nat) (f : Frame) (s : State) : HomesStay s (freeFrame n f s) := by
  have cells : HomesStay s (freeCellsOf f.cells s) := .foldl (fun s c => homesStay_freeCell c s) _ s
  have left_ (v : State) : HomesStay v (cellsLeave f f.cells.length v) := by
    unfold cellsLeave
    extract_lets v1
    have h1 : v1.glb = v.glb := by
      simp only [v1]
      split <;> rfl
    split
    · exact .of_glb h1
    · exact .of_glb h1
  have stamp (v : State) : HomesStay v (stampEnd n f v) := by
    unfold stampEnd
    split
    · exact .refl _
    · exact .of_glb rfl
  have sent (v : State) : HomesStay v (sendDone n f v) := by
    unfold sendDone
    split
    · exact .refl _
    · exact .ite (fun _ => .of_glb rfl) fun _ => .of_glb rfl
  unfold freeFrame
  extract_lets s1 s2 s3
  have h1 : HomesStay s s1 := cells.trans (.of_glb rfl)
  have h2 : HomesStay s s2 := .ite (fun _ => h1) fun _ => h1.trans (.of_glb rfl)
  have h3 : HomesStay s s3 := h2.trans (left_ s2)
  exact ((h3.trans (.of_changes (changes_qbm _ s3))).trans (stamp _)).trans (sent _)

/-! ## Frames on the way to their enqueue (R45) -/

theorem changes_laneMod (i d : Nat) (f : Lane → Lane) (s : State) : Changes [.cnt] s (laneMod i d f s) := changes_cnt _ s

theorem changes_laneSettle (i d n : Nat) (s : State) : Changes [.cnt] s (laneSettle i d n s) :=
  Changes.ite (fun _ => changes_laneMod _ _ _ s) fun _ => changes_refl _ s

theorem changes_laneWaste8 (i d n evt : Nat) (s : State) : Changes [.cnt] s (laneWaste8 i d n evt s) :=
  Changes.ite (fun _ => (changes_laneMod _ _ _ s).trans (changes_countO _ _ _ _ _)) fun _ => changes_refl _ s

/-- What frames that go no further leave behind: their cells are free, no home moves, no fault is released. -/
structure Sheds (s t : State) : Prop where
  changes : Changes releasing s t
  homes : HomesStay s t
  risen : Risen s t

theorem Sheds.trans (h : Sheds s t) (k : Sheds t u) : Sheds s u :=
  ⟨h.changes.trans k.changes, h.homes.trans k.homes, h.risen.trans k.risen⟩

theorem Sheds.of_changes (h : Changes l s t) (hl : l ⊆ [.qbm, .upl, .hrd, .pwr, .cnt, .fresh] := by decide) : Sheds s t :=
  have k := h.mono hl
  ⟨k.mono (by decide), .of_changes k, .of_changes k⟩

theorem Sheds.foldl {α : Type} {f : State → α → State} (h : ∀ s x, Sheds s (f s x)) (xs : List α) (s : State) : Sheds s (xs.foldl f s) := by
  induction xs generalizing s with
  | nil => exact .of_changes (changes_refl [] s)
  | cons x xs ih => exact (h s x).trans (ih _)

theorem sheds_dropPipe (p : Nat → Arrive → Bool) (s : State) : Sheds s (dropPipe p s) := by
  unfold dropPipe
  extract_lets keep
  refine Sheds.trans (.of_changes (changes_hrd { s.hrd with later := s.hrd.later.filter keep } s.out s)) (.foldl (fun u x => ?_) _ _)
  extract_lets a lanes v
  have wasted : Sheds u v := .of_changes ((changes_laneSettle x.1 (b2n a.up) lanes u).trans (changes_laneWaste8 x.1 (b2n a.up) lanes 9 _))
  clear_value v
  split
  · exact wasted
  · split
    · exact wasted
    · next n _ f _ =>
      exact (wasted.trans (.of_changes (changes_upl _ v))).trans
        ⟨(powerKeeps_freeFrame _ _ _).changes, homesStay_freeFrame _ _ _, risen_freeFrame _ _ _⟩

theorem pipe_of_later (h : t.hrd.later = s.hrd.later) (p : Nat → Arrive → Bool) : pipe p t = pipe p s := by
  simp only [pipe, pipeFrames, h]

/-- The report of a fault is no frame on its way. -/
theorem pipe_fault (i b : Nat) (cap0 : Word) (acc mkind mnum part : Nat) (p : Nat → Arrive → Bool) (s : State) :
    pipe p (fault i b cap0 acc mkind mnum part s) = pipe p s := by
  unfold fault raise
  extract_lets f s1
  split
  · exact pipe_of_later rfl p
  · have told := notice_later 0 (mkNotice s 0x60 (fltTree i) 0 b 0 (w32 ((instBase i + 0xF00) / 256 % 2 ^ 16)) cap0) s1
    dsimp only
    generalize notice 0 (mkNotice s 0x60 (fltTree i) 0 b 0 (w32 ((instBase i + 0xF00) / 256 % 2 ^ 16)) cap0) s1 = u at told
    have same : pipe p u = pipe p s := pipe_of_later told p
    rw [← same]
    simp [pipe, pipeFrames, atCycle, pipeArr, List.filterMap_append]

/-! ## Loop-backs and the cipher edge of a slice that goes down (R390, R515) -/

theorem changes_loopEnd (k a : Nat) (v : Word) (s : State) :
    Changes [.regs, .tst] s (setReg a v { s with tst := { s.tst with loop := tDel k s.tst.loop } }) :=
  ((changes_tst _ s).mono (by decide)).trans ((changes_setReg a v _).mono (by decide))

theorem risen_loopAbort (p : Loop → Bool) (s : State) : Risen s (loopAbort p s) := by
  unfold loopAbort
  refine .foldl (fun u e => ?_) _ s
  have ended := changes_loopEnd e.1 (rLoop e.1) (reg u (rLoop e.1) &&& 0xFFFFFFFE) u
  exact (Risen.of_changes ended).trans (risen_fault _ _ _ _ _ _ _ _)

/-- A loop-back that ends leaves the registers of the other units alone. -/
theorem loopAbort_reg (p : Loop → Bool) {a : Nat} (ha : a < pageTST) (s : State) : reg (loopAbort p s) a = reg s a := by
  unfold loopAbort
  generalize s.tst.loop.filter (fun e => p e.2) = xs
  induction xs generalizing s with
  | nil => rfl
  | cons e xs ih =>
    rw [List.foldl_cons, ih]
    have other : a ≠ rLoop e.1 := fun h => absurd ha (by rw [h, rLoop]; omega)
    rw [reg, fault_regs, ← reg, reg_setReg_other other]
    rfl

theorem loopAbort_none (p : Loop → Bool) (h : s.tst.loop = []) : loopAbort p s = s := by
  unfold loopAbort
  rw [h]
  rfl

/-- R390: what the channels of a slice were asked is asked again later. -/
theorem changes_drainCipher (i : Nat) (s : State) : Changes [.tre, .tst, .cpe] s (drainCipher i s) := by
  have staged (t tick blk : Nat) (f : DsTu → DsTu) (u : State) : Changes [.tre, .tst, .cpe] u (modStaged t tick blk f u) := by
    unfold modStaged
    extract_lets b here
    split
    · exact (changes_tst _ u).mono (by decide)
    · exact (changes_modTre _ _ u).mono (by decide)
  unfold drainCipher
  extract_lets all old hold s1 clear_
  have held : Changes [.tre, .tst, .cpe] s s1 := Changes.foldl (fun u q => by
    refine Changes.ite (fun _ => staged _ _ _ _ u) fun _ => ?_
    exact (changes_modTre _ _ u).mono (by decide)) old s
  have cleared (c : Nat) (u : State) : Changes [.tre, .tst, .cpe] u (clear_ c u) := (changes_cpe _ u).mono (by decide)
  exact held.trans ((cleared _ s1).trans (cleared _ _))

/-- The selections that wait for a slice's trees are discarded (R396). -/
theorem changes_discardSels (l : List Nat) (s : State) : Changes [.tre, .qbm] s (l.foldl (fun s t => discardSel t s) s) :=
  Changes.foldl (fun u t => (discardSel_effect t u).2) l s

/-! ## A handover starts (R389 to R391) -/

/-- The handover of slice `i` to slice `j` that starts now. -/
def newHandover (i j cause : Nat) (s : State) : Handover :=
  { failed := i, new := j, d := s.tim.now, dCyc := cyc s, cause := cause, walked := false, live := false, rehome := false,
    trees := treesOf s i, ports := portsOf s i, lost := [],
    held := (pipe (fun k _ => k == i) s).map (fun a => { a with frame := none, again := true }), fell := [] }

/-- One more handover is under way. -/
def addHandover (h : Handover) (s : State) : State := { s with skm := { s.skm with ho := s.skm.ho ++ [h] } }

theorem startHandover_eq (i j cause : Nat) (s : State) :
    startHandover i j cause false s = addHandover (newHandover i j cause s) (dropPipe (fun k _ => k == i) s) := rfl

theorem changes_addHandover (h : Handover) (s : State) : Changes [.skm] s (addHandover h s) := changes_skm _ s

theorem startHandover_effect (i j cause : Nat) (s : State) :
    (startHandover i j cause false s).skm.ho = s.skm.ho ++ [newHandover i j cause s] ∧
    (startHandover i j cause false s).skm.role = s.skm.role ∧ Changes (.skm :: releasing) s (startHandover i j cause false s) ∧
    HomesStay s (startHandover i j cause false s) ∧ Risen s (startHandover i j cause false s) := by
  obtain ⟨dropped, homes, risen⟩ := sheds_dropPipe (fun k _ => k == i) s
  rw [startHandover_eq]
  generalize newHandover i j cause s = h
  generalize dropPipe (fun k _ => k == i) s = u at dropped homes risen
  have skm : u.skm = s.skm := dropped .skm (by decide)
  have added := changes_addHandover h u
  exact ⟨congrArg (fun k => Skm.ho k ++ [h]) skm, (rfl : (addHandover h u).skm.role = u.skm.role).trans (congrArg Skm.role skm :), (dropped.mono (by decide)).trans (added.mono (by decide)),
    homes.trans (.of_changes added), risen.trans (.of_changes added)⟩

/-! ## A spare takes over (R386 to R389, Table 12-2) -/

/-- Slice `i` is ACTIVE, no handover to it replays, the Skim is on, and spare `j` may take over. -/
structure Replaceable (i j : Nat) (s : State) : Prop where
  role : roleOf s i = .active
  noShadow : slicesIn s .shadow = []
  spare : (slicesIn s .spare).find? (s.skm.passOk.contains ·) = some j
  skim : skmEn s = true
  fresh : s.skm.ho.any (fun h => h.live && h.new == i) = false

theorem Replaceable.ne (h : Replaceable i j s) : j ≠ i := by
  intro e
  have spare : roleOf s j = .spare := by simpa [slicesIn] using (List.mem_filter.mp (List.mem_of_find?_eq_some h.spare)).2
  rw [e, h.role] at spare
  exact absurd spare (by decide)

theorem Replaceable.of_changes (h : Replaceable i j s) (hs : t.skm = s.skm) (hr : reg t pageSKM = reg s pageSKM) : Replaceable i j t := by
  have role (k : Nat) : roleOf t k = roleOf s k := roleOf_of_role (by rw [hs]) k
  have in_ (r : Role) : slicesIn t r = slicesIn s r := by simp only [slicesIn, role]
  exact ⟨(role i).trans h.role, (in_ _).trans h.noShadow, by rw [in_, hs]; exact h.spare, by rw [skmEn, regB, hr]; exact h.skim,
    by rw [hs]; exact h.fresh⟩

theorem roleOf_setRole_other {k : Nat} (h : k ≠ i) (r : Role) (s : State) : roleOf (setRole i r s) k = roleOf s k := by
  rw [roleOf, (setRole_skm i r s).2, tGet_tSet_other h, ← roleOf]

/-- The slices of a role that slice `i` neither had nor takes. -/
theorem slicesIn_setRole {r q : Role} (hq : roleOf s i ≠ q) (hr : r ≠ q) : slicesIn (setRole i r s) q = slicesIn s q := by
  refine List.filter_congr fun k _ => ?_
  by_cases h : k = i
  · subst h
    rw [roleOf_setRole_same, beq_eq_false_iff_ne.mpr hr, beq_eq_false_iff_ne.mpr hq]
  · rw [roleOf_setRole_other h]

/-- What the declaration of slice `i` does before another slice takes over: its role, its cipher channels, the selections of its trees. -/
def sliceStops (i : Nat) (s : State) : State := (treesOf s i).foldl (fun s t => discardSel t s) (drainCipher i (setRole i .failed s))

theorem sliceStops_effect (i : Nat) (s : State) : (sliceStops i s).skm = (setRole i .failed s).skm ∧
    Changes [.skm, .cnt, .tre, .tst, .cpe, .qbm] s (sliceStops i s) := by
  have role := changes_setRole i .failed s
  unfold sliceStops
  generalize setRole i .failed s = u at role
  have drained := changes_drainCipher i u
  have gone := changes_discardSels (treesOf s i) (drainCipher i u)
  exact ⟨Eq.trans (gone .skm (by decide)) (drained .skm (by decide)),
    (role.mono (by decide)).trans ((drained.mono (by decide)).trans (gone.mono (by decide)))⟩

/-- R386: no shadow stands by and no handover to slice `i` replays: the spare that passed its last test takes over. -/
theorem takeOver_spare {cause : Nat} (hn : slicesIn s .shadow = []) (hj : (slicesIn s .spare).find? (s.skm.passOk.contains ·) = some j)
    (he : skmEn s = true) (hl : s.skm.ho.any (fun h => h.live && h.new == i) = false) :
    takeOver i cause s = startHandover i j cause false (setRole j .loading (endRotation s)) := by
  have ended : endReplay i s = ([], s) := by
    unfold endReplay
    rw [List.find?_eq_none.mpr fun h hm hb => by
      have k := List.any_eq_false.mp hl h hm
      exact k hb]
  have taken : takesOver s = some j := by
    unfold takesOver
    rw [if_neg (by simp [he]), hn]
    exact hj
  unfold takeOver
  simp only [ended, taken, List.isEmpty_nil, Bool.not_true, Bool.false_eq_true, if_false]

theorem endRotation_effect (s : State) : (endRotation s).skm.ho = s.skm.ho ∧ (endRotation s).skm.role = s.skm.role ∧
    Changes [.skm] s (endRotation s) := by
  unfold endRotation
  split
  · exact ⟨rfl, rfl, changes_refl _ s⟩
  · exact ⟨rfl, rfl, changes_skm _ s⟩

/-- What the declaration of a slice can change. -/
abbrev downing : List Comp := [.regs, .glb, .flt, .qbm, .tre, .upl, .cpe, .hrd, .skm, .pwr, .cnt, .tst, .fresh]

/-- R389, R390: slice `i` stops, and the spare loads. -/
theorem handover_starts {cause : Nat} (h : Replaceable i j s) : ∃ t,
    takeOver i cause (sliceStops i s) = t ∧ roleOf t i = .failed ∧ roleOf t j = .loading ∧
    t.skm.ho = s.skm.ho ++ [newHandover i j cause s] ∧ Changes downing s t ∧ HomesStay s t ∧ Risen s t := by
  obtain ⟨hskm, stops⟩ := sliceStops_effect i s
  have ho : (setRole i .failed s).skm.ho = s.skm.ho := (congrArg Skm.ho (setRole_skm i .failed s).1 :)
  have ok : (setRole i .failed s).skm.passOk = s.skm.passOk := (congrArg Skm.passOk (setRole_skm i .failed s).1 :)
  have roles : ∀ k, roleOf (sliceStops i s) k = roleOf (setRole i .failed s) k := roleOf_of_role (congrArg Skm.role hskm)
  have in_ (q : Role) (hq : Role.active ≠ q) (hf : Role.failed ≠ q) : slicesIn (sliceStops i s) q = slicesIn s q := by
    simp only [slicesIn, roles]
    exact slicesIn_setRole (by rw [h.role]; exact hq) hf
  have failed : roleOf (sliceStops i s) i = .failed := (roles i).trans (roleOf_setRole_same _ _ _)
  rw [takeOver_spare (i := i) (j := j) (s := sliceStops i s) (by rw [in_ _ (by decide) (by decide), h.noShadow])
    (by rw [in_ _ (by decide) (by decide), hskm, ok]; exact h.spare)
    (by rw [skmEn, regB, reg, stops .regs (by decide), ← reg, ← regB, ← skmEn, h.skim]) (by rw [hskm, ho]; exact h.fresh)]
  have ho1 : (sliceStops i s).skm.ho = s.skm.ho := (congrArg Skm.ho hskm).trans ho
  generalize sliceStops i s = u at stops failed ho1
  obtain ⟨eho, erole, hend⟩ := endRotation_effect u
  generalize endRotation u = v at eho erole hend
  have load := changes_setRole j .loading v
  have lho : (setRole j .loading v).skm.ho = v.skm.ho := (congrArg Skm.ho (setRole_skm j .loading v).1 :)
  have lj := roleOf_setRole_same j .loading v
  have li := roleOf_setRole_other h.ne.symm .loading v
  generalize setRole j .loading v = w at load lho lj li
  have before : Changes [.skm, .cnt, .tre, .tst, .cpe, .qbm] s w := (stops.trans (hend.mono (by decide))).trans (load.mono (by decide))
  obtain ⟨sho, srole, started, homes, risen⟩ := startHandover_effect i j cause w
  have same : newHandover i j cause w = newHandover i j cause s := by
    have at_ : HomesStay s w := .of_changes before
    have tim : w.tim = s.tim := before .tim (by decide)
    have held : pipe (fun k _ => k == i) w = pipe (fun k _ => k == i) s := pipe_of_later (by rw [before .hrd (by decide)]) _
    simp only [newHandover, at_.treesOf, at_.portsOf, held, cyc, tim]
  refine ⟨_, rfl, ?_, ?_, ?_, (before.mono (by decide)).trans (started.mono (by decide)), (HomesStay.of_changes before).trans homes,
    (Risen.of_changes before).trans risen⟩
  · rw [roleOf_of_role srole, li, roleOf_of_role erole, failed]
  · rw [roleOf_of_role srole, lj]
  · rw [sho, lho, eho, ho1, same]

/-- Does slice `i` host unit `n`, a tree or a port? -/
def hosts (i : Nat) (s : State) (n : Nat) : Bool := if n < 64 then homeT s n == i else decide (n < 80) && homeU s (n - 64) == i

/-- Is a loop-back on a tree or a port of slice `i` (R515)? -/
def loopOn (i : Nat) (s : State) (l : Loop) : Bool :=
  decide (2 ≤ l.depth) && (hosts i s l.inst || (l.depth == 5 && decide (l.peer < 64) && hosts i s l.peer))

/-- A slow detector declares an ACTIVE slice: loop-backs on its trees and ports end, it stops, another slice takes over. -/
theorem sliceDown_eq {cause : Nat} (hc : 3 < cause) (s : State) : ∃ p,
    sliceDown i cause s = setMode (takeOver i cause (sliceStops i (loopAbort p s))) := by
  refine ⟨loopOn i s, ?_⟩
  unfold sliceDown
  extract_lets fast s0 hosted s0a
  have slow : s0 = s := if_neg (by simp [fast, Nat.not_le.mpr hc])
  simp only [s0a, hosted, slow]
  rfl

theorem sliceDown_effect {cause : Nat} (hc : 3 < cause) (h : Replaceable i j s) : roleOf (sliceDown i cause s) i = .failed ∧
    roleOf (sliceDown i cause s) j = .loading ∧
    (∃ n : Handover, (sliceDown i cause s).skm.ho = s.skm.ho ++ [n] ∧
      { n with held := [] } = { newHandover i j cause s with held := [] } ∧
      (s.tst.loop = [] → n = newHandover i j cause s)) ∧
    Changes downing s (sliceDown i cause s) ∧ HomesStay s (sliceDown i cause s) ∧ Risen s (sliceDown i cause s) := by
  obtain ⟨p, e⟩ := sliceDown_eq (i := i) hc s
  have loops := (powerKeeps_loopAbort p s).changes
  have still := loopAbort_none (s := s) p
  have ready : Replaceable i j (loopAbort p s) := h.of_changes (loops .skm (by decide)) (loopAbort_reg p (by decide) s)
  have risen := risen_loopAbort p s
  rw [e]
  clear e
  generalize loopAbort p s = u at loops still ready risen
  obtain ⟨v, ev, failed, loading, ho, change, homes, up⟩ := handover_starts (cause := cause) ready
  rw [ev]
  have mode := changes_setMode v
  have mho : (setMode v).skm.ho = v.skm.ho := (congrArg Skm.ho (setMode_skm v) :)
  have mflt := (setMode_cases v).2.1
  have stay : HomesStay s u := .of_changes loops
  have tim : u.tim = s.tim := loops .tim (by decide)
  refine ⟨(roleOf_setMode _ v).trans failed, (roleOf_setMode _ v).trans loading, ⟨newHandover i j cause u, ?_, ?_, fun k => ?_⟩,
    ((loops.mono (by decide)).trans change).trans (mode.mono (by decide)), (stay.trans homes).trans (.of_changes mode),
    (risen.trans up).trans (.of_flt mflt)⟩
  · rw [mho, ho, loops .skm (by decide)]
  · simp only [newHandover, stay.treesOf, stay.portsOf, cyc, tim]
  · rw [still k]

/-- R387, R388: the watchdog declares a slice that has work and shows no progress. -/
theorem watchdog_declares (h : Replaceable i j s) : ∃ n : Handover, roleOf (declareFault i 5 6 s) i = .failed ∧
    roleOf (declareFault i 5 6 s) j = .loading ∧ (declareFault i 5 6 s).skm.ho = s.skm.ho ++ [n] ∧
    { n with held := [] } = { newHandover i j 5 s with held := [] } ∧ (s.tst.loop = [] → n = newHandover i j 5 s) ∧
    bit (fltOf (declareFault i 5 6 s) (iSLC i)).st 4 = true ∧ HomesStay s (declareFault i 5 6 s) ∧
    Changes downing s (declareFault i 5 6 s) := by
  have told := changes_fault (iSLC i) 4 (w32 (freeNat s)) 6 1 i 0 s
  have stay := homesStay_fault (iSLC i) 4 (w32 (freeNat s)) 6 1 i 0 s
  have risen := fault_st (i := iSLC i) (b := 4) (cap0 := w32 (freeNat s)) (acc := 6) (mkind := 1) (mnum := i) (part := 0) (s := s) (by decide)
  have held := fun p => pipe_fault (iSLC i) 4 (w32 (freeNat s)) 6 1 i 0 p s
  have regs : (fault (iSLC i) 4 (w32 (freeNat s)) 6 1 i 0 s).regs = s.regs := told .regs (by decide)
  unfold declareFault declareAt
  rw [show (5 : Nat) - 1 = 4 from rfl]
  generalize fault (iSLC i) 4 (w32 (freeNat s)) 6 1 i 0 s = u at told stay risen held regs
  have skm : u.skm = s.skm := told .skm (by decide)
  have tim : u.tim = s.tim := told .tim (by decide)
  have loop : u.tst.loop = s.tst.loop := congrArg Tst.loop (told .tst (by decide))
  have ready : Replaceable i j u := h.of_changes skm (by rw [reg, reg, regs])
  have down : sliceReact i 5 u = sliceDown i 5 u := by
    unfold sliceReact
    rw [ready.role]
  have same : newHandover i j 5 u = newHandover i j 5 s := by
    simp only [newHandover, stay.treesOf, stay.portsOf, held, cyc, tim]
  rw [down]
  obtain ⟨failed, loading, ⟨n, ho, fields, all⟩, change, homes, up⟩ := sliceDown_effect (cause := 5) (by decide) ready
  generalize sliceDown i 5 u = v at failed loading ho change homes up
  have used := changes_useFree v
  rw [same] at fields all
  rw [skm] at ho
  exact ⟨n, failed, loading, ho, fields, fun k => all (loop.trans k), up _ _ risen, (stay.trans homes).trans (.of_changes used),
    ((told.mono (by decide)).trans change).trans (used.mono (by decide))⟩

theorem sliceWatchdog_late (h : roleOf s i = .active) (hw : hasWork s i = true)
    (hd : tGet 0 s.skm.strobe i + (reg s (pageSKM + 4)).toNat % 2 ^ 12 ≤ s.tim.now) : sliceWatchdog i s = declareFault i 5 6 s := by
  unfold sliceWatchdog
  rw [if_neg (by simp [h, hw])]
  extract_lets due s1 late
  have now : s1 = s := waitUntil_due hd
  rw [if_pos (Or.inl (by rw [now]; exact hd)), now]

theorem sliceWatchdog_idle (h : roleOf s i ≠ .active ∧ roleOf s i ≠ .loading ∧ roleOf s i ≠ .shadow ∨ hasWork s i = false) :
    sliceWatchdog i s = s := by
  unfold sliceWatchdog
  refine if_pos ?_
  rcases h with ⟨ha, hl, hs⟩ | h
  · simp [ha, hl, hs]
  · simp [h]

/-! ## Passes of the self-test (R409, R411) -/

theorem selftestEnd_due (h : tGet 0 s.skm.passAt i + 2000000 ≤ s.tim.now) (pass : Bool) : selftestEnd i pass s = passEnd i pass s := by
  unfold selftestEnd
  extract_lets due s1
  have now : s1 = s := by
    show (if _ then waitUntil due s else s) = s
    rw [show waitUntil due s = s from waitUntil_due h, ite_self]
  rw [now, if_neg (Nat.not_lt.mpr h)]

/-- What a pass notes: when it ended, and whether it succeeded. -/
def notePass (i : Nat) (pass : Bool) (s : State) : State :=
  { s with skm := { s.skm with passAt := tSet 0 s.skm.passAt i s.tim.now,
                               passOk := if pass then s.skm.passOk.filter (· != i) ++ [i] else s.skm.passOk.filter (· != i) } }

/-- What SKM_ST shows of it. -/
def showPass (i : Nat) (pass : Bool) (s : State) : State :=
  { s with skm := { s.skm with stPass := pass, stValid := true, stSlice := i } }

theorem changes_notePass (i : Nat) (pass : Bool) (s : State) : Changes [.skm] s (notePass i pass s) := changes_skm _ s

theorem changes_showPass (i : Nat) (pass : Bool) (s : State) : Changes [.skm] s (showPass i pass s) := changes_skm _ s

theorem notePass_failed (i : Nat) (s : State) : i ∉ (notePass i false s).skm.passOk := by
  simp [notePass]

theorem notePass_passed (i : Nat) (s : State) : i ∈ (notePass i true s).skm.passOk := by
  simp [notePass]

theorem passEnd_spare (h : roleOf s i = .spare) : passEnd i true s = showPass i true (notePass i true s) ∧
    passEnd i false s = setMode (notice0 0x54 0 (w32 i) 0 (selftestFault i (setRole i .failed (showPass i false (notePass i false s))))) := by
  unfold passEnd
  rw [h]
  exact ⟨rfl, rfl⟩

theorem passEnd_testing (h : roleOf s i = .testing) :
    passEnd i false s = selftestFault i (setRole i .failed (notePass i false s)) ∧
    (tGet 0 s.skm.reinst i < regF s pageSKM 4 4 → passEnd i true s = reinstate i (showPass i true (notePass i true s))) ∧
    (regF s pageSKM 4 4 ≤ tGet 0 s.skm.reinst i → passEnd i true s = setRole i .failed (notePass i true s)) := by
  unfold passEnd
  rw [h]
  exact ⟨rfl, fun k => if_pos k, fun k => if_neg (Nat.not_lt.mpr k)⟩

theorem passEnd_other (hs : roleOf s i ≠ .spare) (ht : roleOf s i ≠ .testing) (pass : Bool) : passEnd i pass s = s := by
  unfold passEnd
  extract_lets was put show_
  split
  · next h => exact absurd h hs
  · next h => exact absurd h ht
  all_goals rfl

/-- R409: the slice takes the fault SELFTEST, and is FAILED. -/
theorem selftest_fails (i : Nat) (s : State) : roleOf (selftestFault i (setRole i .failed s)) i = .failed ∧
    (selftestFault i (setRole i .failed s)).skm.sansRole = s.skm.sansRole ∧
    bit (fltOf (selftestFault i (setRole i .failed s)) (iSLC i)).st 6 = true ∧
    Changes (.skm :: .fresh :: faulted) s (selftestFault i (setRole i .failed s)) := by
  have role := roleOf_setRole_same i .failed s
  have skm := (setRole_skm i .failed s).1
  have set := changes_setRole i .failed s
  generalize setRole i .failed s = u at role skm set
  have told := changes_fault (iSLC i) 6 (w32 (freeNat u)) 5 1 i 0 u
  have st := fault_st (i := iSLC i) (b := 6) (cap0 := w32 (freeNat u)) (acc := 5) (mkind := 1) (mnum := i) (part := 0) (s := u) (by decide)
  unfold selftestFault
  generalize fault (iSLC i) 6 (w32 (freeNat u)) 5 1 i 0 u = v at told st
  have used := changes_useFree v
  have same : v.skm = u.skm := told .skm (by decide)
  exact ⟨(roleOf_of_role (congrArg Skm.role same :) i).trans role, (congrArg Skm.sansRole same).trans skm, st,
    (set.mono (by decide)).trans ((told.mono (by decide)).trans (used.mono (by decide)))⟩

/-- R411: within the reinstatement limit a slice that passes is SPARE. -/
theorem reinstate_effect (i : Nat) (s : State) : roleOf (reinstate i s) i = .spare ∧ (reinstate i s).skm.passOk = s.skm.passOk ∧
    tGet 0 (reinstate i s).skm.reinst i = tGet 0 s.skm.reinst i + 1 ∧ Changes (.skm :: noted) s (reinstate i s) := by
  unfold reinstate becomeSpare
  extract_lets n _ s1
  have put := changes_skm { s.skm with reinst := tPut i n s.skm.reinst } s
  have role : roleOf s1 i = .spare := roleOf_setRole_same _ _ _
  have set : Changes [.skm, .cnt] _ s1 := changes_setRole i .spare { s with skm := { s.skm with reinst := tPut i n s.skm.reinst } }
  have skm : s1.skm.sansRole = Skm.sansRole { s.skm with reinst := tPut i n s.skm.reinst } := (setRole_skm i .spare _).1
  have ok : s1.skm.passOk = s.skm.passOk := (congrArg Skm.passOk skm :)
  have count : tGet 0 s1.skm.reinst i = n := (congrArg (tGet 0 · i) (congrArg Skm.reinst skm :)).trans (tGet_tPut_same _ _ _ _)
  have all : Changes [.skm, .cnt] s s1 := (put.mono (by decide)).trans set
  clear_value s1
  have owed : Changes [.skm] s1 (if 2 ≤ s1.skm.mode then { s1 with skm := { s1.skm with restore := true } } else s1) :=
    Changes.ite (fun _ => changes_skm _ s1) fun _ => changes_refl _ s1
  have same : (if 2 ≤ s1.skm.mode then { s1 with skm := { s1.skm with restore := true } } else s1).skm.passOk = s1.skm.passOk ∧
      (if 2 ≤ s1.skm.mode then { s1 with skm := { s1.skm with restore := true } } else s1).skm.reinst = s1.skm.reinst ∧
      (if 2 ≤ s1.skm.mode then { s1 with skm := { s1.skm with restore := true } } else s1).skm.role = s1.skm.role := by
    split
    · exact ⟨rfl, rfl, rfl⟩
    · exact ⟨rfl, rfl, rfl⟩
  generalize (if 2 ≤ s1.skm.mode then { s1 with skm := { s1.skm with restore := true } } else s1 : State) = u at owed same
  have mode := changes_setMode u
  have mskm := setMode_skm u
  have mrole := roleOf_setMode i u
  generalize setMode u = v at mode mskm mrole
  have told := changes_notice0 0x56 0 (w32 i) (w32 n) v
  have nskm : (notice0 0x56 0 (w32 i) (w32 n) v).skm = v.skm := notice0_skm _ _ _ _ v
  obtain ⟨sok, sre, srole⟩ := same
  have vok : v.skm.passOk = u.skm.passOk := (congrArg Skm.passOk mskm :)
  have vre : v.skm.reinst = u.skm.reinst := (congrArg Skm.reinst mskm :)
  refine ⟨?_, ?_, ?_, ((all.mono (by decide)).trans (owed.mono (by decide))).trans ((mode.mono (by decide)).trans (told.mono (by decide)))⟩
  · rw [roleOf, nskm, ← roleOf, mrole, roleOf_of_role srole, role]
  · rw [nskm, vok, sok, ok]
  · rw [nskm, vre, sre, count]

theorem spare_fails (h : roleOf s i = .spare) : roleOf (passEnd i false s) i = .failed ∧ (passEnd i false s).skm.stPass = false ∧
    i ∉ (passEnd i false s).skm.passOk ∧ bit (fltOf (passEnd i false s) (iSLC i)).st 6 = true ∧
    Changes (.skm :: .fresh :: faulted) s (passEnd i false s) := by
  rw [(passEnd_spare h).2]
  have noted_ := notePass_failed i s
  have note := changes_notePass i false s
  generalize notePass i false s = u at noted_ note
  have show_ := changes_showPass i false u
  have shown : (showPass i false u).skm.passOk = u.skm.passOk ∧ (showPass i false u).skm.stPass = false := ⟨rfl, rfl⟩
  generalize showPass i false u = v at show_ shown
  obtain ⟨role, skm, st, change⟩ := selftest_fails i v
  generalize selftestFault i (setRole i .failed v) = w at role skm st change
  have told := changes_notice0 0x54 0 (w32 i) 0 w
  have nskm := notice0_skm 0x54 0 (w32 i) 0 w
  have nflt := notice0_flt 0x54 0 (w32 i) 0 w
  generalize notice0 0x54 0 (w32 i) 0 w = x at told nskm nflt
  have mode := changes_setMode x
  have mskm := setMode_skm x
  have ok : (setMode x).skm.passOk = v.skm.passOk := by
    have still : (setMode x).skm.passOk = x.skm.passOk := (congrArg Skm.passOk mskm :)
    rw [still, nskm]
    exact (congrArg Skm.passOk skm :)
  have pass : (setMode x).skm.stPass = v.skm.stPass := by
    have still : (setMode x).skm.stPass = x.skm.stPass := (congrArg Skm.stPass mskm :)
    rw [still, nskm]
    exact (congrArg Skm.stPass skm :)
  refine ⟨?_, ?_, ?_, ?_, ?_⟩
  · rw [roleOf_setMode, roleOf, nskm, ← roleOf, role]
  · rw [pass, shown.2]
  · rw [ok, shown.1]
    exact noted_
  · rw [fltOf, (setMode_cases x).2.1, nflt, ← fltOf, st]
  · exact ((note.mono (by decide)).trans (show_.mono (by decide))).trans
      (change.trans ((told.mono (by decide)).trans (mode.mono (by decide))))

theorem testing_ends (h : roleOf s i = .testing) :
    (tGet 0 s.skm.reinst i < regF s pageSKM 4 4 → roleOf (passEnd i true s) i = .spare ∧ i ∈ (passEnd i true s).skm.passOk ∧
      tGet 0 (passEnd i true s).skm.reinst i = tGet 0 s.skm.reinst i + 1 ∧ Changes (.skm :: noted) s (passEnd i true s)) ∧
    (regF s pageSKM 4 4 ≤ tGet 0 s.skm.reinst i → roleOf (passEnd i true s) i = .failed ∧ (passEnd i true s).skm.reinst = s.skm.reinst ∧
      Changes [.skm] s (passEnd i true s)) ∧
    (roleOf (passEnd i false s) i = .failed ∧ i ∉ (passEnd i false s).skm.passOk ∧ bit (fltOf (passEnd i false s) (iSLC i)).st 6 = true ∧
      Changes (.skm :: .fresh :: faulted) s (passEnd i false s)) := by
  obtain ⟨fails, within, beyond⟩ := passEnd_testing h
  refine ⟨fun k => ?_, fun k => ?_, ?_⟩
  · rw [within k]
    obtain ⟨role, ok, re, change⟩ := reinstate_effect i (showPass i true (notePass i true s))
    refine ⟨role, ?_, re, ?_⟩
    · rw [ok]
      exact notePass_passed i s
    · exact ((changes_notePass i true s).mono (by decide)).trans (((changes_showPass i true _).mono (by decide)).trans change)
  · rw [beyond k]
    have note := changes_notePass i true s
    have role : roleOf (notePass i true s) i = .testing := h
    have re : (notePass i true s).skm.reinst = s.skm.reinst := rfl
    generalize notePass i true s = u at note role re
    refine ⟨roleOf_setRole_same _ _ _, ?_, note.trans ?_⟩
    · exact (congrArg Skm.reinst (setRole_skm i .failed u).1 :).trans re
    · unfold setRole
      rw [role]
      exact changes_skm _ u
  · rw [fails]
    have clean := notePass_failed i s
    have note := changes_notePass i false s
    generalize notePass i false s = u at clean note
    obtain ⟨role, skm, st, change⟩ := selftest_fails i u
    refine ⟨role, ?_, st, (note.mono (by decide)).trans change⟩
    have same : (selftestFault i (setRole i .failed u)).skm.passOk = u.skm.passOk := (congrArg Skm.passOk skm :)
    rw [same]
    exact clean

end

theorem watchdog_hands_over {s : State} {i j : Nat} (h : Replaceable i j s) : ∃ h : Handover, roleOf (declareFault i 5 6 s) i = .failed ∧
    roleOf (declareFault i 5 6 s) j = .loading ∧ (declareFault i 5 6 s).skm.ho = s.skm.ho ++ [h] ∧
    h.failed = i ∧ h.new = j ∧ h.cause = 5 ∧ h.d = s.tim.now ∧ h.dCyc = cyc s ∧ h.walked = false ∧ h.live = false ∧ h.rehome = false ∧
    h.trees = treesOf s i ∧ h.ports = portsOf s i ∧ h.lost = [] ∧ h.fell = [] ∧
    (s.tst.loop = [] → h.held = (pipe (fun k _ => k == i) s).map fun a => { a with frame := none, again := true }) ∧
    bit (fltOf (declareFault i 5 6 s) (iSLC i)).st 4 = true ∧ (∀ x, homeT (declareFault i 5 6 s) x = homeT s x) ∧
    Changes downing s (declareFault i 5 6 s) := by
  obtain ⟨n, failed, loading, ho, fields, all, st, homes, change⟩ := watchdog_declares h
  refine ⟨n, failed, loading, ho, (congrArg Handover.failed fields :), (congrArg Handover.new fields :), (congrArg Handover.cause fields :),
    (congrArg Handover.d fields :), (congrArg Handover.dCyc fields :), (congrArg Handover.walked fields :), (congrArg Handover.live fields :),
    (congrArg Handover.rehome fields :), (congrArg Handover.trees fields :), (congrArg Handover.ports fields :),
    (congrArg Handover.lost fields :), (congrArg Handover.fell fields :), fun k => (congrArg Handover.held (all k) :), st, homes.homeT, change⟩

/-- Settles O51. -/
theorem sliceFaults : Obligations.SliceFaults := by
  unfold Obligations.SliceFaults
  refine fun s i => ⟨fun j hr hw hd hn hj he hl => ?_, fun h => ?_, fun h hd => ⟨?_, ?_⟩, fun h hd => ?_, fun hs ht pass hd => ?_⟩
  · have done : Runs (.sliceWatchdogExpire i) s (sliceWatchdog i.val (begin_ s)) := rfl
    rw [sliceWatchdog_late (s := begin_ s) hr hw hd] at done
    obtain ⟨n, rest⟩ := watchdog_hands_over (s := begin_ s) (i := i.val) (j := j) ⟨hr, hn, hj, he, hl⟩
    exact ⟨_, n, done, rest⟩
  · exact congrArg Host.Outcome.next (sliceWatchdog_idle (s := begin_ s) h)
  · have done : Runs (.selftestPassEnd i true) s (selftestEnd i.val true (begin_ s)) := rfl
    rw [selftestEnd_due (s := begin_ s) hd, (passEnd_spare (s := begin_ s) h).1] at done
    exact ⟨_, done, rfl, changes_skm _ (begin_ s)⟩
  · have done : Runs (.selftestPassEnd i false) s (selftestEnd i.val false (begin_ s)) := rfl
    rw [selftestEnd_due (s := begin_ s) hd] at done
    exact ⟨_, done, spare_fails (s := begin_ s) h⟩
  · have done (pass : Bool) : Runs (.selftestPassEnd i pass) s (passEnd i.val pass (begin_ s)) :=
      congrArg Host.Outcome.next (selftestEnd_due (s := begin_ s) hd pass)
    obtain ⟨within, beyond, fails⟩ := testing_ends (s := begin_ s) (i := i.val) h
    exact ⟨fun k => ⟨_, done true, within k⟩, fun k => ⟨_, done true, beyond k⟩, _, done false, fails⟩
  · have done : selftestEnd i.val pass (begin_ s) = begin_ s :=
      (selftestEnd_due (s := begin_ s) hd pass).trans (passEnd_other (s := begin_ s) hs ht pass)
    exact congrArg Host.Outcome.next done

end Sys2Proof.Machine
end

section
/-!
SUPPORT. The withdrawal of tokens, the move of the homes, and the end of a handover (R392, R398, R411).
-/

namespace Sys2Proof.Machine

-- one declaration at a time: the package is compiled as one text within a limit of memory
set_option Elab.async false

section
variable {s t u : State} {l : List Comp} {i j : Nat}

/-! ## The walk of a replay record (R392) -/

theorem changes_addChg (q : Nat) (d : Int) (s : State) : Changes [.qbm] s (addChg q d s) := changes_qbm _ s

/-- R392: a token that has started is marked, one that has not leaves its queue. -/
theorem walkEntry_one {e : RepEntry} {k : Token} (hq : queueOf s e.queue = [k]) (hf : k.frame = e.frame) (hn : k.seq = e.seq)
    (hb : e.beyond = false) : (hasStarted s e = true → walkEntry ([], s) e = ([{ e with started := true }], s)) ∧
    (hasStarted s e = false → walkEntry ([], s) e = ([e], eraseToken e.queue k s)) := by
  have found : (queueOf s e.queue).find? (fun k => k.frame == e.frame && k.seq == e.seq) = some k := by
    rw [hq]
    simp [hf, hn]
  unfold walkEntry
  simp only [found]
  exact ⟨fun h => if_pos (by simp [h]), fun h => if_neg (by simp [h, hb])⟩

theorem eraseToken_effect (q : Nat) (k : Token) (s : State) : queueOf (eraseToken q k s) q = (queueOf s q).filter (fun x => x.seq != k.seq) ∧
    (eraseToken q k s).qbm.rep = s.qbm.rep ∧ Changes [.qbm] s (eraseToken q k s) ∧ (eraseToken q k s).out = s.out :=
  ⟨queueOf_setQueue_same _ _ _, rfl, (changes_setQueue _ _ s).trans (changes_addChg _ _ _), rfl⟩

/-- What the walk leaves of one section's record. -/
def keepRecord (k : Nat) (l : List RepEntry) (s : State) : State := { s with qbm := { s.qbm with rep := tSet [] s.qbm.rep k l } }

theorem walkRecords_one {e : RepEntry} (hd : tGet [] s.qbm.rep (secKey i false) = [e]) (hu : tGet [] s.qbm.rep (secKey i true) = [])
    (h : (walkEntry ([], s) e).2.qbm.rep = s.qbm.rep) :
    walkRecords i s = keepRecord (secKey i true) [] (keepRecord (secKey i false) (walkEntry ([], s) e).1 (walkEntry ([], s) e).2) := by
  have ne : secKey i true ≠ secKey i false := by simp [secKey, b2n]
  have up : tGet [] (keepRecord (secKey i false) (walkEntry ([], s) e).1 (walkEntry ([], s) e).2).qbm.rep (secKey i true) = [] := by
    unfold keepRecord
    rw [tGet_tSet_other ne, h, hu]
  unfold walkRecords
  rw [List.foldl_cons, List.foldl_cons, List.foldl_nil, hd]
  dsimp only [List.foldl_cons, List.foldl_nil]
  generalize walkEntry ([], s) e = w at up
  unfold keepRecord at up ⊢
  rw [up]
  rfl

/-- The walk of a record of one entry. -/
theorem walkRecords_effect {e : RepEntry} {k : Token} (hd : tGet [] s.qbm.rep (secKey i false) = [e])
    (hu : tGet [] s.qbm.rep (secKey i true) = []) (hq : queueOf s e.queue = [k]) (hf : k.frame = e.frame) (hn : k.seq = e.seq)
    (hb : e.beyond = false) :
    (hasStarted s e = true → tGet [] (walkRecords i s).qbm.rep (secKey i false) = [{ e with started := true }] ∧
      queueOf (walkRecords i s) e.queue = [k]) ∧
    (hasStarted s e = false → tGet [] (walkRecords i s).qbm.rep (secKey i false) = [e] ∧ queueOf (walkRecords i s) e.queue = []) ∧
    (walkRecords i s).out = s.out ∧ Changes [.qbm] s (walkRecords i s) := by
  obtain ⟨started, waits⟩ := walkEntry_one hq hf hn hb
  have ne : secKey i false ≠ secKey i true := by simp [secKey, b2n]
  have kept (l m : List RepEntry) (v : State) :
      tGet [] (keepRecord (secKey i true) m (keepRecord (secKey i false) l v)).qbm.rep (secKey i false) = l ∧
      (∀ q, queueOf (keepRecord (secKey i true) m (keepRecord (secKey i false) l v)) q = queueOf v q) ∧
      (keepRecord (secKey i true) m (keepRecord (secKey i false) l v)).out = v.out ∧
      Changes [.qbm] v (keepRecord (secKey i true) m (keepRecord (secKey i false) l v)) := by
    refine ⟨?_, fun _ => rfl, rfl, (changes_qbm _ v).trans (changes_qbm _ _)⟩
    unfold keepRecord
    rw [tGet_tSet_other ne, tGet_tSet_same]
  obtain ⟨left_, same, gone, sent⟩ := eraseToken_effect e.queue k s
  cases h : hasStarted s e with
  | true =>
    have walked := walkRecords_one hd hu (by rw [started h])
    rw [started h] at walked
    obtain ⟨rep, queue, out, change⟩ := kept [{ e with started := true }] [] s
    rw [walked]
    exact ⟨fun _ => ⟨rep, (queue _).trans hq⟩, nofun, out, change⟩
  | false =>
    have walked := walkRecords_one hd hu (by rw [waits h]; exact same)
    rw [waits h] at walked
    obtain ⟨rep, queue, out, change⟩ := kept [e] [] (eraseToken e.queue k s)
    rw [walked]
    refine ⟨nofun, fun _ => ⟨rep, ?_⟩, out.trans sent, gone.trans change⟩
    rw [queue, left_, hq]
    simp

theorem withdrawalDone_walks (h : s.skm.ho.any (fun h => h.failed == i && !h.walked) = true) :
    (∀ h ∈ (withdrawalDone i s).skm.ho, h.failed = i → h.walked = true) ∧
    (withdrawalDone i s).qbm = (walkRecords i s).qbm ∧ (withdrawalDone i s).out = (walkRecords i s).out ∧
    (Changes [.qbm] s (walkRecords i s) → Changes [.qbm, .skm] s (withdrawalDone i s)) := by
  unfold withdrawalDone
  rw [if_pos h]
  generalize walkRecords i s = v
  refine ⟨fun g hg hi => ?_, rfl, rfl, fun hv => (hv.mono (by decide)).trans ((changes_skm _ v).mono (by decide))⟩
  obtain ⟨x, -, rfl⟩ := List.mem_map.mp hg
  split at hi
  · next hx => rw [if_pos hx]
  · next hx => exact absurd hi hx

/-! ## Trees and ports move to their new home (R398) -/

/-- Trees `ts` and ports `ps` have moved to slice `j`. -/
structure HomesMove (ts ps : List Nat) (j : Nat) (s t : State) : Prop where
  homeT : ∀ x, Machine.homeT t x = if x ∈ ts then j else Machine.homeT s x
  homeU : ∀ p, Machine.homeU t p = if p ∈ ps then j else Machine.homeU s p
  changes : Changes faulted s t
  noted_ : Noted s t

theorem homesMove_tree (t j : Nat) (s : State) : HomesMove [t] [] j s (moveTree t j s) := by
  have put : HomesMove [t] [] j s (setHomeT t j s) := by
    refine ⟨fun x => ?_, fun p => ?_, (changes_glb _ s).mono (by decide), .of_changes (changes_glb _ s)⟩
    · by_cases h : x = t
      · subst h
        rw [if_pos (List.mem_singleton.mpr rfl)]
        exact tGet_tSet_same _ _ _ _
      · rw [if_neg (by simpa using h)]
        exact tGet_tSet_other h _ _ _ _
    · rw [if_neg (by simp)]
      rfl
  unfold moveTree
  extract_lets s1
  split
  · have told := changes_fault (iCHN j) 3 (w32 t) 0 2 j 0 s1
    have stay := homesStay_fault (iCHN j) 3 (w32 t) 0 2 j 0 s1
    have met := noted_fault (iCHN j) 3 (w32 t) 0 2 j 0 s1
    exact ⟨fun x => (stay.homeT x).trans (put.homeT x), fun p => (stay.homeU p).trans (put.homeU p), put.changes.trans told, put.noted_.trans met⟩
  · exact put

theorem HomesMove.trans {ts us ps : List Nat} (h : HomesMove ts [] j s t) (k : HomesMove us ps j t u) : HomesMove (us ++ ts) ps j s u := by
  refine ⟨fun x => ?_, fun p => ?_, h.changes.trans k.changes, h.noted_.trans k.noted_⟩
  · rw [k.homeT, h.homeT]
    by_cases a : x ∈ us
    · rw [if_pos a, if_pos (List.mem_append_left _ a)]
    · by_cases b : x ∈ ts
      · rw [if_neg a, if_pos b, if_pos (List.mem_append_right _ b)]
      · rw [if_neg a, if_neg b, if_neg (by simp [a, b])]
  · rw [k.homeU, h.homeU, if_neg (List.not_mem_nil (a := p))]

theorem homesMove_trees (ts : List Nat) (j : Nat) (s : State) : HomesMove ts [] j s (ts.foldl (fun s t => moveTree t j s) s) := by
  induction ts generalizing s with
  | nil => exact ⟨fun x => (if_neg (List.not_mem_nil (a := x))).symm, fun p => (if_neg (List.not_mem_nil (a := p))).symm, changes_refl _ s, .refl s⟩
  | cons t ts ih =>
    obtain ⟨home, port, change, met⟩ := (homesMove_tree t j s).trans (ih (moveTree t j s))
    refine ⟨fun x => (home x).trans ?_, port, change, met⟩
    simp [or_comm]

theorem homesMove_ports (ps : List Nat) (j : Nat) (s : State) : HomesMove [] ps j s (ps.foldl (fun s p => setHomeU p j s) s) := by
  induction ps generalizing s with
  | nil => exact ⟨fun x => (if_neg (List.not_mem_nil (a := x))).symm, fun p => (if_neg (List.not_mem_nil (a := p))).symm, changes_refl _ s, .refl s⟩
  | cons p ps ih =>
    obtain ⟨home, port, change, met⟩ := ih (setHomeU p j s)
    have put := changes_glb { s.glb with homeUpl := tSet (p / 2) s.glb.homeUpl p j } s
    refine ⟨fun x => (home x).trans rfl, fun q => (port q).trans ?_, Changes.trans (put.mono (by decide)) change, (Noted.of_changes put).trans met⟩
    by_cases a : q ∈ ps
    · rw [if_pos a, if_pos (List.mem_cons_of_mem _ a)]
    · rw [if_neg a]
      by_cases b : q = p
      · subst b
        rw [if_pos List.mem_cons_self]
        exact tGet_tSet_same _ _ _ _
      · rw [if_neg (by simp [a, b])]
        exact tGet_tSet_other b _ _ _ _

theorem homesMove_moveHomes (ts ps : List Nat) (j : Nat) (s : State) : HomesMove ts ps j s (moveHomes ts ps j s) := by
  unfold moveHomes
  have start := changes_glb { s.glb with lostT := s.glb.lostT.filter (fun t => !(ts.contains t)), lostU := s.glb.lostU.filter (fun p => !(ps.contains p)) } s
  have homes : (∀ x, homeT { s with glb := { s.glb with lostT := s.glb.lostT.filter (fun t => !(ts.contains t)), lostU := s.glb.lostU.filter (fun p => !(ps.contains p)) } } x = homeT s x) ∧
      (∀ p, homeU { s with glb := { s.glb with lostT := s.glb.lostT.filter (fun t => !(ts.contains t)), lostU := s.glb.lostU.filter (fun p => !(ps.contains p)) } } p = homeU s p) :=
    ⟨fun _ => rfl, fun _ => rfl⟩
  generalize ({ s with glb := { s.glb with lostT := s.glb.lostT.filter (fun t => !(ts.contains t)), lostU := s.glb.lostU.filter (fun p => !(ps.contains p)) } } : State) = v
    at start homes
  have trees := homesMove_trees ts j v
  have ports := homesMove_ports ps j (ts.foldl (fun s t => moveTree t j s) v)
  obtain ⟨home, port, change, met⟩ := trees.trans ports
  exact ⟨fun x => by rw [home, homes.1, List.nil_append], fun p => by rw [port, homes.2], (start.mono (by decide)).trans change,
    (Noted.of_changes start).trans met⟩

/-! ## A tree that is at rest goes on (R390, R396) -/

/-- Tree `t` is stopped: nothing of it waits for the slice that takes it. -/
structure Rests (t : Nat) (s : State) : Prop where
  run : (treOf s t).run = false
  reasm : (treOf s t).reasm = []
  stage : (treOf s t).stage = []
  late1 : (chnOf s t).late1 = none
  late2 : (chnOf s t).late2 = none

/-- From `s` to `u` the queues alone change, and no selection does. -/
def Requeues (s u : State) : Prop := Changes [.qbm] s u ∧ u.qbm.sel = s.qbm.sel

theorem Requeues.trans {v : State} (h : Requeues s u) (k : Requeues u v) : Requeues s v := ⟨h.1.trans k.1, k.2.trans h.2⟩

theorem requeues_foldl (f : State → Nat → List Token) (qs : List Nat) (s : State) :
    Requeues s (qs.foldl (fun s q => setQueue q (f s q) s) s) := by
  induction qs generalizing s with
  | nil => exact ⟨changes_refl _ s, rfl⟩
  | cons q qs ih => exact Requeues.trans ⟨changes_setQueue _ _ s, rfl⟩ (ih _)

theorem selectTree_stopped {t : Nat} (h : (treOf s t).run = false) (k : Nat) (seen : List (Nat × Nat × Nat × Nat)) :
    selectTree t k seen s = s := by
  unfold selectTree
  exact if_pos (by simp [treLive, h])

theorem requeues_selectAgain {t : Nat} (h : (treOf s t).run = false) (k : Nat) : Requeues s (selectAgain t k s) := by
  unfold selectAgain
  extract_lets c qs young s1
  have aside := requeues_foldl (fun s q => (queueOf s q).filter (fun x => !(young x))) qs s
  have none_ : s1 = qs.foldl (fun s q => setQueue q ((queueOf s q).filter (fun x => !(young x))) s) s :=
    selectTree_stopped (by rw [treOf_of_tre (aside.1 .tre (by decide)), h]) k _
  rw [none_]
  exact aside.trans (requeues_foldl (fun a q => (queueOf s q).filter (fun x => young x || (queueOf a q).contains x)) qs _)

theorem resumePieces_none {t : Nat} (h : (treOf s t).reasm = []) (i : Nat) (lose : Bool) : resumePieces t i lose s = s := by
  have none_ : waitingTus t s = [] := by
    unfold waitingTus
    rw [h]
    rfl
  unfold resumePieces
  simp only [none_, List.foldl_nil, h, List.map_nil]

theorem assemble_none {t : Nat} (h : (treOf s t).stage = []) (k : Nat) : assemble t k s = s := by
  unfold assemble
  rw [h]
  split
  · rfl
  · rfl

theorem resumePasses_none {t : Nat} (h1 : (chnOf s t).late1 = none) (h2 : (chnOf s t).late2 = none) :
    resumePasses t s = modChn t (fun c => { c with late1 := none, late2 := none }) s := by
  unfold resumePasses
  simp only [h1, h2]

/-- The selection for beat `k` is done again where it is due and has not been done. -/
def reselect (t last : Nat) (s : State) (k : Nat) : State :=
  if last < k || (tFind k (treOf s t).stage).isSome || (tFind t s.qbm.sel).isSome then s else commitSel t (selectAgain t k s)

/-- A beat of a stopped tree that is selected again stages nothing. -/
theorem changes_reselect {t : Nat} (h : (treOf s t).run = false) (last k : Nat) : Changes [.qbm] s (reselect t last s k) := by
  obtain ⟨change, sel⟩ := requeues_selectAgain h k
  refine Changes.ite (fun _ => changes_refl _ s) fun hn => ?_
  have no : (tFind t s.qbm.sel).isSome = false := by
    simp only [Bool.or_eq_true, not_or, Bool.not_eq_true] at hn
    exact hn.2
  have none_ : commitSel t (selectAgain t k s) = selectAgain t k s := by
    unfold commitSel
    exact if_neg (by simp [sel, no])
  rw [none_]
  exact change

theorem changes_reselects {t : Nat} (h : (treOf s t).run = false) (last : Nat) (ks : List Nat) :
    Changes [.qbm] s (ks.foldl (reselect t last) s) := by
  induction ks generalizing s with
  | nil => exact changes_refl _ s
  | cons k ks ih =>
    have one := changes_reselect h last k
    exact one.trans (ih (by rw [treOf_of_tre (one .tre (by decide)), h]))

/-- What is left of `resumeTree` where nothing waits for the cipher edge. -/
theorem resumeTree_eq {t : Nat} (h : (treOf s t).reasm = []) (i : Nat) : ∃ last, resumeTree t i false s = resumePasses t
    ([absBeat s, absBeat s + 1, absBeat s + 2].foldl (fun s k => assemble t k s)
      ([absBeat s + 1, absBeat s + 2, absBeat s + 3].foldl (reselect t last) s)) := by
  refine ⟨if s.tim.zero then absBeat s + 2 else absBeat s + 3, ?_⟩
  have still : resumePieces t i false s = s := resumePieces_none h i false
  unfold resumeTree
  rw [still]
  rfl

/-- A tree at rest goes on: nothing of it is staged, asked or granted. -/
theorem resumeTree_rests {t : Nat} (h : Rests t s) (i : Nat) : Changes [.qbm, .chn] s (resumeTree t i false s) ∧
    ∀ x, Rests x s → Rests x (resumeTree t i false s) := by
  obtain ⟨last, e⟩ := resumeTree_eq h.reasm i
  rw [e]
  clear e
  have again := changes_reselects h.run last [absBeat s + 1, absBeat s + 2, absBeat s + 3]
  generalize [absBeat s + 1, absBeat s + 2, absBeat s + 3].foldl (reselect t last) s = v at again
  have tre : v.tre = s.tre := again .tre (by decide)
  have chn : v.chn = s.chn := again .chn (by decide)
  have stage (k : Nat) : assemble t k v = v := assemble_none (by rw [treOf_of_tre tre, h.stage]) k
  rw [List.foldl_cons, List.foldl_cons, List.foldl_cons, List.foldl_nil, stage, stage, stage,
    resumePasses_none (by rw [chnOf_of_chn chn, h.late1]) (by rw [chnOf_of_chn chn, h.late2])]
  have pass := changes_modChn t (fun c => { c with late1 := none, late2 := none }) v
  have at_ : ∀ x, Rests x s → (chnOf (modChn t (fun c => { c with late1 := none, late2 := none }) v) x).late1 = none ∧
      (chnOf (modChn t (fun c => { c with late1 := none, late2 := none }) v) x).late2 = none := by
    intro x hx
    by_cases e : x = t
    · subst e
      rw [chnOf_modChn_same]
      exact ⟨rfl, rfl⟩
    · rw [chnOf_modChn_other e, chnOf_of_chn chn]
      exact ⟨hx.late1, hx.late2⟩
  refine ⟨(again.mono (by decide)).trans (pass.mono (by decide)), fun x hx => ?_⟩
  have same := treOf_of_tre (Eq.trans (pass .tre (by decide)) tre) x
  exact ⟨by rw [same, hx.run], by rw [same, hx.reasm], by rw [same, hx.stage], (at_ x hx).1, (at_ x hx).2⟩

theorem changes_resumeTrees (i : Nat) (ts : List Nat) (h : ∀ x ∈ ts, Rests x s) :
    Changes [.qbm, .chn] s (ts.foldl (fun s t => resumeTree t i false s) s) := by
  induction ts generalizing s with
  | nil => exact changes_refl _ s
  | cons t ts ih =>
    obtain ⟨change, rests⟩ := resumeTree_rests (h t List.mem_cons_self) i
    rw [List.foldl_cons]
    exact change.trans (ih fun x hx => rests x (h x (List.mem_cons_of_mem _ hx)))

theorem Rests.of_changes {t : Nat} {u : State} (h : Rests t s) (k : Changes l s u) (hl : Comp.tre ∉ l ∧ Comp.chn ∉ l := by decide) : Rests t u := by
  have tre := treOf_of_tre (k .tre hl.1) t
  have chn := chnOf_of_chn (k .chn hl.2) t
  exact ⟨by rw [tre, h.run], by rw [tre, h.reasm], by rw [tre, h.stage], by rw [chn, h.late1], by rw [chn, h.late2]⟩

/-! ## Replay starts (R398) -/

theorem takeRecords_none {k : Nat} (h : tGet [] s.qbm.rep k = []) :
    takeRecords k s = ([], { s with qbm := { s.qbm with rep := tDel k s.qbm.rep } }) := by
  unfold takeRecords
  rw [h]
  rfl

theorem tGet_tDel_nil {α : Type} {k m : Nat} {t : Tab (List α)} (h : tGet [] t m = []) : tGet [] (tDel k t) m = [] := by
  by_cases e : m = k
  · rw [e, tGet_tDel_same]
  · rw [tGet_tDel_other e, h]

theorem changes_replayRecords (hd : tGet [] s.qbm.rep (secKey i false) = []) (hu : tGet [] s.qbm.rep (secKey i true) = []) (j : Nat) :
    Changes [.qbm] s (replayRecords i j s) := by
  have up := takeRecords_none hu
  have down := takeRecords_none (s := { s with qbm := { s.qbm with rep := tDel (secKey i true) s.qbm.rep } }) (tGet_tDel_nil hd)
  unfold replayRecords
  simp only [up, down, List.foldl_nil]
  exact (changes_qbm _ s).trans (changes_qbm _ _)

theorem changes_skmQbm (x : Skm) (y : Qbm) (s : State) : Changes [.skm, .qbm] s { s with skm := x, qbm := y } := by
  intro c hc
  cases c <;> simp [Kept] at hc ⊢

/-- The slice that replays begins with nothing of its own. -/
theorem takeRecord_effect (h : tFind i s.skm.skim = none) (j : Nat) : tFind i (takeRecord i j s).skm.skim = none ∧
    (∀ k, tGet [] s.qbm.rep k = [] → tGet [] (takeRecord i j s).qbm.rep k = []) ∧
    (takeRecord i j s).skm.ho = s.skm.ho ∧ (takeRecord i j s).skm.hoCnt = s.skm.hoCnt ∧ Changes [.skm, .qbm] s (takeRecord i j s) := by
  refine ⟨?_, fun k hk => tGet_tDel_nil (tGet_tDel_nil hk), rfl, rfl, changes_skmQbm _ _ s⟩
  unfold takeRecord
  simp only [h]
  by_cases e : i = j
  · rw [e]
    exact tFind_tDel_same j _
  · exact (tFind_tDel_other e _).trans h

theorem loadSkim_none (h : tFind i s.skm.skim = none) (ps : List Nat) : loadSkim i ps [] s = s := by
  unfold loadSkim
  simp only [h, List.foldl_nil]

/-- The handover replays. -/
def nowLive (h : Handover) (s : State) : State :=
  { s with skm := { s.skm with
      ho := s.skm.ho.map fun x => if x = h then { x with live := true, held := [], lost := [] } else x,
      hoCnt := (s.skm.hoCnt + 1) % 2 ^ 32, replay := true } }

/-- Replay starts, once the homes have moved. -/
def liveFrom (h : Handover) (s : State) : State :=
  setMode (notice0 0x50 h.cause (w32 (h.failed + h.new * 16)) (w32 h.dCyc) (count1 9 2 (nowLive h (setRole h.new .active s))))

/-- The homes move, and replay starts. -/
def replays (h : Handover) (s : State) : State := liveFrom h (moveHomes h.trees h.ports h.new (takeRecord h.failed h.new s))

theorem goLive_eq (h : Handover) (s : State) : goLive h s = stageRun (h.trees.foldl (fun s t => resumeTree t h.failed false s)
    (h.held.foldl (fun s a => ingress a none s) (replayRecords h.failed h.new (liveFrom h (loadSkim h.failed h.ports h.lost
      (moveHomes h.trees h.ports h.new (takeRecord h.failed h.new s))))))) := rfl

theorem Skm.handovers_of_sansRole {a b : Skm} (h : a.sansRole = b.sansRole) : a.ho = b.ho ∧ a.hoCnt = b.hoCnt ∧ a.repair = b.repair :=
  ⟨(congrArg Skm.ho h :), (congrArg Skm.hoCnt h :), (congrArg Skm.repair h :)⟩

theorem Skm.handovers_of_sansMode {a b : Skm} (h : a.sansMode = b.sansMode) : a.ho = b.ho ∧ a.hoCnt = b.hoCnt ∧ a.replay = b.replay :=
  ⟨(congrArg Skm.ho h :), (congrArg Skm.hoCnt h :), (congrArg Skm.replay h :)⟩

theorem Noted.staged (h : Noted s t) : t.hrd.staged = s.hrd.staged := (congrArg Hrd.staged h.hrd :)

/-- What the start of a replay can change. -/
abbrev replaying : List Comp := [.glb, .flt, .qbm, .tre, .chn, .skm, .hrd, .cnt, .pwr]

theorem replays_effect {h : Handover} (hs : tFind h.failed s.skm.skim = none) (ho : s.skm.ho = [h]) :
    roleOf (replays h s) h.new = .active ∧ (replays h s).skm.ho = [{ h with live := true, held := [], lost := [] }] ∧
    (replays h s).skm.replay = true ∧ (replays h s).skm.hoCnt = (s.skm.hoCnt + 1) % 2 ^ 32 ∧
    (∀ x, homeT (replays h s) x = if x ∈ h.trees then h.new else homeT s x) ∧
    (∀ p, homeU (replays h s) p = if p ∈ h.ports then h.new else homeU s p) ∧
    (∀ k, tGet [] s.qbm.rep k = [] → tGet [] (replays h s).qbm.rep k = []) ∧ (replays h s).hrd.staged = s.hrd.staged ∧
    Changes (.skm :: .qbm :: faulted) s (replays h s) := by
  obtain ⟨-, rep, tho, tcnt, taken⟩ := takeRecord_effect hs h.new
  unfold replays liveFrom
  generalize takeRecord h.failed h.new s = a at rep tho tcnt taken
  obtain ⟨homeT_, homeU_, moved, met⟩ := homesMove_moveHomes h.trees h.ports h.new a
  generalize moveHomes h.trees h.ports h.new a = b at homeT_ homeU_ moved met
  have role := roleOf_setRole_same h.new .active b
  have skm := (setRole_skm h.new .active b).1
  have set := changes_setRole h.new .active b
  generalize setRole h.new .active b = c at role skm set
  have bskm : b.skm = a.skm := moved .skm (by decide)
  obtain ⟨cb, ccb, -⟩ := Skm.handovers_of_sansRole skm
  have cho : c.skm.ho = [h] := by rw [cb, bskm, tho, ho]
  have ccnt : c.skm.hoCnt = s.skm.hoCnt := by rw [ccb, bskm, tcnt]
  have live : (nowLive h c).skm.role = c.skm.role ∧ (nowLive h c).skm.ho = [{ h with live := true, held := [], lost := [] }] ∧
      (nowLive h c).skm.replay = true ∧ (nowLive h c).skm.hoCnt = (s.skm.hoCnt + 1) % 2 ^ 32 ∧ Changes [.skm] c (nowLive h c) := by
    refine ⟨rfl, ?_, rfl, ?_, changes_skm _ c⟩
    · show c.skm.ho.map _ = _
      rw [cho, List.map_singleton, if_pos rfl]
    · show (c.skm.hoCnt + 1) % 2 ^ 32 = _
      rw [ccnt]
  generalize nowLive h c = d at live
  obtain ⟨drole, dho, dreplay, dcnt, lived⟩ := live
  have counted := changes_count1 9 2 d
  generalize count1 9 2 d = e at counted
  have told := changes_notice0 0x50 h.cause (w32 (h.failed + h.new * 16)) (w32 h.dCyc) e
  have said : Noted e (notice0 0x50 h.cause (w32 (h.failed + h.new * 16)) (w32 h.dCyc) e) := noted_notice 0 _ e
  generalize notice0 0x50 h.cause (w32 (h.failed + h.new * 16)) (w32 h.dCyc) e = f at told said
  have mode := changes_setMode f
  have mskm := setMode_skm f
  have mrole := roleOf_setMode h.new f
  have mnoted : Noted f (setMode f) := by
    unfold setMode
    extract_lets m
    split
    · exact .refl f
    · exact (Noted.of_changes (changes_skm _ f)).trans (noted_notice 0 _ _)
  generalize setMode f = g at mode mskm mrole mnoted
  have fskm : f.skm = d.skm := Eq.trans (told .skm (by decide)) (counted .skm (by decide))
  have later : Changes (.skm :: noted) b g :=
    ((set.mono (by decide)).trans (lived.mono (by decide))).trans ((counted.mono (by decide)).trans ((told.mono (by decide)).trans mode))
  have glb : g.glb = b.glb := later .glb (by decide)
  have qbm : g.qbm = a.qbm := Eq.trans (later .qbm (by decide)) (moved .qbm (by decide))
  have stay : HomesStay b g := .of_glb glb
  have first : HomesStay s a := .of_changes taken
  obtain ⟨gho, gcnt, greplay⟩ := Skm.handovers_of_sansMode mskm
  refine ⟨?_, ?_, ?_, ?_, fun x => ?_, fun p => ?_, fun k hk => ?_, ?_,
    ((taken.mono (by decide)).trans (moved.mono (by decide))).trans (later.mono (by decide))⟩
  · rw [mrole, roleOf_of_role (congrArg Skm.role fskm), roleOf_of_role drole, role]
  · rw [gho, fskm, dho]
  · rw [greplay, fskm, dreplay]
  · rw [gcnt, fskm, dcnt]
  · rw [stay.homeT, homeT_, first.homeT]
  · rw [stay.homeU, homeU_, first.homeU]
  · rw [qbm, rep k hk]
  · have hrd : c.hrd = b.hrd := set .hrd (by decide)
    have dhrd : e.hrd = c.hrd := Eq.trans (counted .hrd (by decide)) (lived .hrd (by decide))
    have ahrd : a.hrd = s.hrd := taken .hrd (by decide)
    rw [mnoted.staged, said.staged, dhrd, hrd, met.staged, ahrd]

/-- R398: nothing was captured and nothing waits: replay starts with live input. -/
theorem goLive_rests {h : Handover} (hs : tFind h.failed s.skm.skim = none) (ho : s.skm.ho = [h]) (hh : h.held = []) (hl : h.lost = [])
    (hq : s.hrd.staged = []) (hd : tGet [] s.qbm.rep (secKey h.failed false) = []) (hu : tGet [] s.qbm.rep (secKey h.failed true) = [])
    (ht : ∀ x ∈ h.trees, Rests x s) : (goLive h s).skm = (replays h s).skm ∧ (goLive h s).glb = (replays h s).glb ∧
    Changes replaying s (goLive h s) := by
  obtain ⟨-, -, -, -, -, -, rep, staged, change⟩ := replays_effect hs ho
  obtain ⟨none_, -, -, -, taken⟩ := takeRecord_effect hs h.new
  have moved := (homesMove_moveHomes h.trees h.ports h.new (takeRecord h.failed h.new s)).changes
  have skim : loadSkim h.failed h.ports h.lost (moveHomes h.trees h.ports h.new (takeRecord h.failed h.new s)) =
      moveHomes h.trees h.ports h.new (takeRecord h.failed h.new s) := by
    rw [hl]
    exact loadSkim_none (by rw [moved .skm (by decide), none_]) _
  have e : goLive h s = stageRun (h.trees.foldl (fun s t => resumeTree t h.failed false s) (replayRecords h.failed h.new (replays h s))) := by
    rw [goLive_eq, skim, hh, List.foldl_nil, replays]
  have records := changes_replayRecords (rep _ hd) (rep _ hu) h.new
  rw [e]
  generalize replays h s = a at rep staged change records
  generalize replayRecords h.failed h.new a = b at records
  have trees := changes_resumeTrees h.failed h.trees fun x hx => ((ht x hx).of_changes change).of_changes records
  generalize h.trees.foldl (fun s t => resumeTree t h.failed false s) b = c at trees
  have after : Changes [.qbm, .chn] a c := (records.mono (by decide)).trans trees
  have same : stageRun c = c := by
    unfold stageRun
    rw [after .hrd (by decide), staged, hq]
    rfl
  rw [same]
  exact ⟨after .skm (by decide), after .glb (by decide), (change.mono (by decide)).trans (after.mono (by decide))⟩

theorem replayStart_goes {h : Handover} (ho : s.skm.ho = [h]) (hl : h.live = false) (hr : h.rehome = false) (hw : h.walked = true)
    (hd : h.d + 5000 ≤ s.tim.now) : replayStart s = goLive h s := by
  have found : s.skm.ho.find? (fun h => !h.live) = some h := by
    rw [ho, List.find?_cons, hl]
    rfl
  have now : waitUntil (h.d + 5000) s = s := waitUntil_due hd
  unfold replayStart
  simp only [found, now, hw, if_true, if_neg (Nat.not_lt.mpr hd), hr, Bool.false_eq_true, if_false]

/-! ## The handover ends (R411) -/

/-- No handover is under way. -/
def noHandover (s : State) : State := { s with skm := { s.skm with ho := [], replay := false } }

theorem changes_noHandover (s : State) : Changes [.skm] s (noHandover s) := changes_skm _ s

/-- The only handover ends with its notice. -/
def handoverOver (h : Handover) (s : State) : State := notice0 0x51 0 (w32 (s.tim.now - h.d)) 0 (noHandover s)

theorem handoverOver_effect (h : Handover) (s : State) : (handoverOver h s).skm = (noHandover s).skm ∧
    (∀ i, staysOn (handoverOver h s) (domSL i) = staysOn s (domSL i)) ∧ Changes (.skm :: noted) s (handoverOver h s) := by
  have told := changes_notice0 0x51 0 (w32 (s.tim.now - h.d)) 0 (noHandover s)
  refine ⟨told .skm (by decide), fun i => ?_, ((changes_noHandover s).mono (by decide)).trans (told.mono (by decide))⟩
  have dom : pdom (handoverOver h s) (domSL i) = pdom s (domSL i) :=
    (pdom_notice_other 0 _ (by simp only [domSL, domHP]; omega)).trans (pdom_of_pwr (changes_noHandover s .pwr (by decide)))
  simp only [staysOn, dom]

theorem handoverDone_eq {h : Handover} (ho : s.skm.ho = [h]) (hl : h.live = true) : handoverDone s =
    if regB (handoverOver h s) pageSKM 2 && roleOf (handoverOver h s) h.failed == .failed then beginTest h.failed (handoverOver h s)
    else handoverOver h s := by
  have found : s.skm.ho.find? (·.live) = some h := by
    rw [ho, List.find?_cons, hl]
  have rest : s.skm.ho.filter (fun x => x != h) = [] := by
    rw [ho]
    simp
  unfold handoverDone
  rw [found]
  dsimp only
  rw [rest]
  rfl

/-- A slice that comes under test ends no handover. -/
theorem beginTest_ho (i : Nat) (s : State) : (beginTest i s).skm.ho = s.skm.ho ∧ (beginTest i s).skm.replay = s.skm.replay := by
  unfold beginTest
  split
  · have skm := (setRole_skm i .testing s).1
    exact ⟨(congrArg Skm.ho skm :), (congrArg Skm.replay skm :)⟩
  · have same (x : Skm) (hx : x.ho = s.skm.ho ∧ x.replay = s.skm.replay) :
        (wake (domSL i) 6 { s with skm := x }).skm.ho = s.skm.ho ∧ (wake (domSL i) 6 { s with skm := x }).skm.replay = s.skm.replay := by
      rw [changes_wake (domSL i) 6 { s with skm := x } .skm (by decide)]
      exact hx
    exact same _ ⟨rfl, rfl⟩

theorem handoverDone_effect {h : Handover} (ho : s.skm.ho = [h]) (hl : h.live = true) :
    (handoverDone s).skm.ho = [] ∧ (handoverDone s).skm.replay = false ∧
    (regB s pageSKM 2 = true → roleOf s h.failed = .failed →
      (staysOn s (domSL h.failed) = true → roleOf (handoverDone s) h.failed = .testing) ∧
      (staysOn s (domSL h.failed) = false → h.failed ∈ (handoverDone s).skm.repair ∧ (handoverDone s).skm.role = s.skm.role)) ∧
    (regB s pageSKM 2 = false → (handoverDone s).skm.role = s.skm.role) ∧ Changes (.skm :: noted) s (handoverDone s) := by
  obtain ⟨skm, on, change⟩ := handoverOver_effect h s
  rw [handoverDone_eq ho hl]
  generalize handoverOver h s = u at skm on change
  have role : u.skm.role = s.skm.role := (congrArg Skm.role skm).trans rfl
  have ended : u.skm.ho = [] ∧ u.skm.replay = false := by
    rw [skm]
    exact ⟨rfl, rfl⟩
  have auto : regB u pageSKM 2 = regB s pageSKM 2 := by rw [regB, reg, change .regs (by decide), ← reg, ← regB]
  rw [auto, roleOf_of_role role]
  obtain ⟨tested, waits⟩ := beginTest_effect h.failed u
  rw [on] at tested waits
  obtain ⟨tho, treplay⟩ := beginTest_ho h.failed u
  by_cases go : (regB s pageSKM 2 && roleOf s h.failed == .failed) = true
  · rw [if_pos go]
    have auto_ : regB s pageSKM 2 = true := by
      rw [Bool.and_eq_true] at go
      exact go.1
    have test : Changes (.skm :: noted) u (beginTest h.failed u) := by
      by_cases k : staysOn s (domSL h.failed) = true
      · exact (tested k).2.2.mono (by decide)
      · exact (waits (Bool.eq_false_iff.mpr k)).2.2.mono (by decide)
    refine ⟨tho.trans ended.1, treplay.trans ended.2, fun _ _ => ⟨fun k => (tested k).1, fun k => ?_⟩, fun no => ?_, change.trans test⟩
    · exact ⟨(waits k).1, (waits k).2.1.trans role⟩
    · rw [auto_] at no
      exact absurd no (by decide)
  · rw [if_neg go]
    refine ⟨ended.1, ended.2, fun a f => absurd ?_ go, fun _ => role, change⟩
    rw [a, f]
    rfl

end

/-- Settles O52. -/
theorem handovers : Obligations.Handovers := by
  unfold Obligations.Handovers
  refine fun s => ⟨fun i e k ha hd hu hq hf hn hb => ?_, fun h ho hl hr hw hd hh hlost hst hs hrd hru ht => ?_, fun h ho hl => ?_⟩
  · have done : Runs (.tokenWithdrawalDone i) s (withdrawalDone i.val (begin_ s)) := rfl
    obtain ⟨walked, qbm, out, change⟩ := withdrawalDone_walks (s := begin_ s) (i := i.val) ha
    obtain ⟨started, waits, sent, left_⟩ := walkRecords_effect (s := begin_ s) (i := i.val) (k := k) hd hu hq hf hn hb
    have queue : ∀ q, queueOf (withdrawalDone i.val (begin_ s)) q = queueOf (walkRecords i.val (begin_ s)) q := fun q => by
      rw [queueOf, qbm, ← queueOf]
    refine ⟨_, done, walked, fun g => ?_, fun g => ?_, out.trans sent, change left_⟩
    · rw [qbm, queue]
      exact started g
    · rw [qbm, queue]
      exact waits g
  · have done : Runs .handoverReplayStart s (replayStart (begin_ s)) := rfl
    rw [replayStart_goes (s := begin_ s) ho hl hr hw hd] at done
    obtain ⟨role, tho, replay, cnt, homeT_, homeU_, -, -, -⟩ := replays_effect (s := begin_ s) (h := h) hs ho
    obtain ⟨skm, glb, change⟩ := goLive_rests (s := begin_ s) (h := h) hs ho hh hlost hst hrd hru
      fun x hx => by
        obtain ⟨a, b, c, d, f⟩ := ht x hx
        exact ⟨a, b, c, d, f⟩
    have stay := HomesStay.of_glb glb
    refine ⟨_, done, (roleOf_of_role (congrArg Skm.role skm) _).trans role, ?_, ?_, ?_, fun x => (stay.homeT x).trans (homeT_ x),
      fun p => (stay.homeU p).trans (homeU_ p), change⟩
    · rw [skm, tho, ← hh, ← hlost]
    · rw [skm, replay]
    · rw [skm, cnt]
      rfl
  · exact ⟨_, rfl, handoverDone_effect (s := begin_ s) ho hl⟩

end Sys2Proof.Machine
end

section
/-!
SUPPORT. The commit of a selection (R392, R396).
-/

namespace Sys2Proof.Machine

-- one declaration at a time: the package is compiled as one text within a limit of memory
set_option Elab.async false

section
variable {s t u : State} {l : List Comp}

/-! ## What a commit does to selections and queues -/

/-- What the commit of a selection can change. -/
abbrev committing : List Comp := [.qbm, .tre, .hrd, .cnt, .fresh]

/-- From `s` to `t` a commit goes on: the selections that wait stay, and no token joins a queue. -/
structure Commits (s t : State) : Prop where
  changes : Changes committing s t
  sel : t.qbm.sel = s.qbm.sel
  queue : ∀ q, ∀ k ∈ queueOf t q, k ∈ queueOf s q

theorem Commits.refl (s : State) : Commits s s := ⟨changes_refl _ s, rfl, fun _ _ h => h⟩

theorem Commits.trans (h : Commits s t) (k : Commits t u) : Commits s u :=
  ⟨h.changes.trans k.changes, k.sel.trans h.sel, fun q x hx => h.queue q x (k.queue q x hx)⟩

theorem Commits.foldl {α : Type} {f : State → α → State} (h : ∀ s x, Commits s (f s x)) (xs : List α) (s : State) : Commits s (xs.foldl f s) := by
  induction xs generalizing s with
  | nil => exact .refl s
  | cons x xs ih => exact (h s x).trans (ih _)

/-- What leaves the buffer manager alone. -/
theorem Commits.of_changes (h : Changes l s t) (hl : l ⊆ [.tre, .hrd, .cnt, .fresh] := by decide) : Commits s t := by
  have k := h.mono hl
  have qbm : t.qbm = s.qbm := k .qbm (by decide)
  exact ⟨k.mono (by decide), by rw [qbm], fun q x hx => by rwa [queueOf, qbm] at hx⟩

/-- A change of the buffer manager other than its selections and queues. -/
theorem commits_qbm (v : Qbm) (hs : v.sel = s.qbm.sel := by rfl) (hq : v.q = s.qbm.q := by rfl) : Commits s { s with qbm := v } :=
  ⟨(changes_qbm v s).mono (by decide), hs, fun q x hx => by rwa [queueOf, hq] at hx⟩

theorem takeToken_effect (q : Nat) (k : Token) (s : State) : Commits s (takeToken q k s) ∧ ∀ x ∈ queueOf (takeToken q k s) q, x.seq ≠ k.seq := by
  have same : queueOf (takeToken q k s) q = (queueOf s q).filter (fun x => x.seq != k.seq) := queueOf_setQueue_same _ _ _
  have other {p : Nat} (h : p ≠ q) : queueOf (takeToken q k s) p = queueOf s p := queueOf_setQueue_other h _ _
  refine ⟨⟨?_, rfl, fun p x hx => ?_⟩, fun x hx => ?_⟩
  · have gone := (eraseToken_effect q k s).2.2.1
    exact (gone.mono (by decide)).trans ((changes_qbm _ _).mono (by decide))
  · by_cases h : p = q
    · subst h
      rw [same] at hx
      exact (List.mem_filter.mp hx).1
    · rwa [other h] at hx
  · rw [same] at hx
    simpa using (List.mem_filter.mp hx).2

/-- R392: every token taken has left its queue. -/
theorem takeTokens_effect (xs : List (Nat × Token)) (s : State) : Commits s (xs.foldl (fun s e => takeToken e.1 e.2 s) s) ∧
    ∀ e ∈ xs, ∀ k ∈ queueOf (xs.foldl (fun s e => takeToken e.1 e.2 s) s) e.1, k.seq ≠ e.2.seq := by
  induction xs generalizing s with
  | nil => exact ⟨.refl s, nofun⟩
  | cons x xs ih =>
    obtain ⟨one, gone⟩ := takeToken_effect x.1 x.2 s
    obtain ⟨rest, left_⟩ := ih (takeToken x.1 x.2 s)
    rw [List.foldl_cons]
    refine ⟨one.trans rest, fun e he k hk => ?_⟩
    rcases List.mem_cons.mp he with rfl | he
    · exact gone k (rest.queue _ k hk)
    · exact left_ e he k hk

theorem commits_startFetch (x : DeepFetch) (s : State) : Commits s (startFetch x s) := commits_qbm _

theorem commits_tmmSent (t m : Nat) (x : Tmm) (body : List Byte) (s : State) : Commits s (tmmSent t m x body s) := by
  have ctx (i : Nat) (f : Ctx → Ctx) (u : State) : Commits u (modCtx t i f u) := .of_changes (changes_modTre _ _ u)
  unfold tmmSent
  extract_lets s1
  have h1 : Commits s s1 := .of_changes (changes_modTre _ _ s)
  clear_value s1
  split_ifs
  · exact h1
  · exact h1.trans (ctx _ _ _)
  · exact h1.trans (ctx _ _ _)
  · exact h1.trans (ctx _ _ _)
  · exact (h1.trans (ctx _ _ _)).trans (.of_changes (changes_useFree _))
  · exact h1.trans (ctx _ _ _)
  · exact h1
  · exact h1

/-- The deep port goes on: it changes no tree. -/
theorem pumpFetch_effect (n : Nat) (s : State) : Commits s (pumpFetch n s) ∧ (pumpFetch n s).tre = s.tre := by
  induction n generalizing s with
  | zero => exact ⟨.refl s, rfl⟩
  | succ n ih =>
    unfold pumpFetch
    split
    · exact ⟨.refl s, rfl⟩
    · next x _ =>
      split
      · split
        · exact ⟨.refl s, rfl⟩
        · exact ⟨.of_changes (changes_atCycle _ _ s), rfl⟩
      · extract_lets issue s1
        have issued (f : Frame) (v : State) : Changes [.cnt] v (issue v f) :=
          Changes.foldl (fun v c => (changes_emit _ _ v).trans (changes_count1 _ _ _)) f.deep v
        have h1 : Changes [.cnt] s s1 := by
          simp only [s1]
          split
          · exact issued _ s
          · exact changes_refl _ s
        clear_value s1
        obtain ⟨go, tre⟩ := ih { s1 with qbm := { s1.qbm with fetch := s1.qbm.fetch.replace x { x with sent := true }, dpAt := s1.tim.now + fetchCells s1 x } }
        exact ⟨(Commits.of_changes h1).trans ((commits_qbm _).trans go), tre.trans (h1 .tre (by decide))⟩

/-! ## The commit -/

/-- Is the token still queued that a selection took? -/
def stillQueued (s : State) (e : Nat × Token) : Bool := (queueOf s e.1).any (fun k => k.seq == e.2.seq)

/-- The taken tokens that have left their queues meanwhile, as queue and frame. -/
def takenGone (x : Selection) (s : State) : List (Nat × Nat) := (x.taken.filter (fun e => !(stillQueued s e))).map (fun e => (e.1, e.2.frame))

/-- The bytes of the messages taken that wait no more. -/
def sentDead (x : Selection) (t : Nat) (s : State) : List (List Byte) :=
  (x.tmms.filter (fun e => !((treOf s t).tmmq.contains e.1))).map (fun e => tmmBytes e.1 e.2)

/-- The units of a selection at its commit: those withdrawn since go out as idle blocks (R34). -/
def committedTus (x : Selection) (t : Nat) (s : State) : List DsTu := x.tus.map fun u =>
  if (takenGone x s).contains (u.queue, u.frame) && u.queue != 131072 then { u with idle := true, unref := false }
  else if u.queue = 131072 ∧ (sentDead x t s).contains u.body then { u with idle := true } else u

/-- The selection is no longer held, and what it left of credits and positions is in force. -/
def selEnds (t : Nat) (x : Selection) (s : State) : State :=
  { s with qbm := { s.qbm with
      sel := tDel t s.qbm.sel
      cc := x.cc.foldl (fun a e => tSet 0 a e.1 e.2) s.qbm.cc
      pc := x.pc.foldl (fun a e => tPut e.1 e.2 a) s.qbm.pc
      dfc := x.dfc.foldl (fun a e => tSet 0 a e.1 e.2) s.qbm.dfc
      rr := x.rr.foldl (fun a e => tSet 0 a e.1 e.2) s.qbm.rr
      segs := x.segs.foldl (fun a e => tSet 0 a e.1 e.2) s.qbm.segs } }

/-- The units of the beat are staged, and its continuation waits. -/
def stageBeat (b : Nat) (tus : List DsTu) (c : Option Cont) (r : Tre) : Tre :=
  { r with selOnce := true, stage := tPut b tus r.stage, cont := c }

/-- The continuation of a selection, unless its token is gone. -/
def contLeft (x : Selection) (s : State) : Option Cont :=
  match x.cont with
  | some c => if (takenGone x s).contains (c.queue, c.frame) then none else some c
  | none => none

/-- The cycle in which the selector began with a beat. -/
def selFrom (x : Selection) (s : State) : Nat := s.tim.tickStart + (x.beat - 3) * beatCyc - 10 * s.tim.tick * beatCyc

theorem takeSel_eq {x : Selection} {t : Nat} (h : tFind t s.qbm.sel = some x) : takeSel t s =
    modTre t (stageBeat x.beat (committedTus x t s) (contLeft x s))
      ((x.tmms.filter (fun e => (treOf s t).tmmq.contains e.1)).foldl (fun s e => tmmSent t (x.beat / 10) e.1 e.2 s)
        (x.fetch.foldl (fun u e => startFetch ⟨e.2.2, e.2.1, x.beat, selFrom x s + e.1, false⟩ u)
          ((x.taken.filter (stillQueued s)).foldl (fun s e => takeToken e.1 e.2 s) (selEnds t x s)))) := by
  unfold takeSel
  rw [h]
  rfl

/-- R396: the commit of a selection that waits. -/
theorem commitSel_effect {x : Selection} {t : Nat} (h : tFind t s.qbm.sel = some x) :
    tFind t (commitSel t s).qbm.sel = none ∧
    (∀ e ∈ x.taken, stillQueued s e = true → ∀ k ∈ queueOf (commitSel t s) e.1, k.seq ≠ e.2.seq) ∧
    tFind x.beat (treOf (commitSel t s) t).stage = some (committedTus x t s) ∧ (treOf (commitSel t s) t).cont = contLeft x s ∧
    Changes committing s (commitSel t s) := by
  have ended : Changes [.qbm] s (selEnds t x s) := changes_qbm _ s
  have none_ : tFind t (selEnds t x s).qbm.sel = none := tFind_tDel_same t _
  obtain ⟨took, gone⟩ := takeTokens_effect (x.taken.filter (stillQueued s)) (selEnds t x s)
  unfold commitSel
  rw [h, Option.isSome_some, if_pos rfl, takeSel_eq h]
  generalize (x.taken.filter (stillQueued s)).foldl (fun s e => takeToken e.1 e.2 s) (selEnds t x s) = s2 at took gone
  have fetches := Commits.foldl (fun u (e : Nat × Nat × Nat) => commits_startFetch ⟨e.2.2, e.2.1, x.beat, selFrom x s + e.1, false⟩ u) x.fetch s2
  generalize x.fetch.foldl (fun u e => startFetch ⟨e.2.2, e.2.1, x.beat, selFrom x s + e.1, false⟩ u) s2 = s3 at fetches
  have sent := Commits.foldl (fun u (e : Tmm × List Byte) => commits_tmmSent t (x.beat / 10) e.1 e.2 u)
    (x.tmms.filter (fun e => (treOf s t).tmmq.contains e.1)) s3
  generalize (x.tmms.filter (fun e => (treOf s t).tmmq.contains e.1)).foldl (fun s e => tmmSent t (x.beat / 10) e.1 e.2 s) s3 = s4 at sent
  have staged := changes_modTre t (stageBeat x.beat (committedTus x t s) (contLeft x s)) s4
  have tree := treOf_modTre_same t (stageBeat x.beat (committedTus x t s) (contLeft x s)) s4
  generalize modTre t (stageBeat x.beat (committedTus x t s) (contLeft x s)) s4 = s5 at staged tree
  obtain ⟨pumped, tre⟩ := pumpFetch_effect (s5.qbm.fetch.length + 1) s5
  unfold pumpFetches
  generalize pumpFetch (s5.qbm.fetch.length + 1) s5 = s6 at pumped tre
  have after : Commits s2 s6 := (fetches.trans sent).trans ((Commits.of_changes staged).trans pumped)
  have same := (treOf_of_tre tre t).trans tree
  refine ⟨?_, fun e he hs k hk => ?_, ?_, ?_, ?_⟩
  · rw [after.sel, took.sel, none_]
  · exact gone e (List.mem_filter.mpr ⟨he, hs⟩) k (after.queue _ k hk)
  · rw [same]
    exact tFind_tPut_same _ _ _
  · rw [same]
    rfl
  · exact (ended.mono (by decide)).trans (took.changes.trans after.changes)

/-- Where everything taken is still queued, the units are those that were selected. -/
theorem committed_all {x : Selection} {t : Nat} (hk : ∀ e ∈ x.taken, stillQueued s e = true) (hm : ∀ e ∈ x.tmms, e.1 ∈ (treOf s t).tmmq) :
    committedTus x t s = x.tus ∧ contLeft x s = x.cont := by
  have gone : takenGone x s = [] := by
    unfold takenGone
    rw [List.filter_eq_nil_iff.mpr fun e he => by simp [hk e he], List.map_nil]
  have dead : sentDead x t s = [] := by
    unfold sentDead
    rw [List.filter_eq_nil_iff.mpr fun e he => by simpa using hm e he, List.map_nil]
  constructor
  · unfold committedTus
    rw [gone, dead]
    exact (List.map_congr_left fun u _ => by simp).trans (List.map_id _)
  · unfold contLeft
    rw [gone]
    cases x.cont with
    | none => rfl
    | some c => exact if_neg (by simp)

end

/-- Settles O15. -/
theorem selectionCommitHolds : Obligations.SelectionCommit := by
  unfold Obligations.SelectionCommit
  intro s tree hz
  have done : Runs (.selectionCommit tree) s (commitSel tree.toNat (begin_ s)) := by
    have still : endZero (begin_ s) = begin_ s := if_pos (by rw [show (begin_ s).tim.zero = false from hz]; rfl)
    exact congrArg (fun u => Host.Outcome.next (commitSel tree.toNat u)) still
  refine ⟨fun h => ?_, fun x hx => ?_⟩
  · have none_ : commitSel tree.toNat (begin_ s) = begin_ s := if_neg (by rw [show tFind tree.toNat (begin_ s).qbm.sel = none from h]; decide)
    rw [none_] at done
    exact done
  · obtain ⟨ended, gone, stage, cont, change⟩ := commitSel_effect (s := begin_ s) (t := tree.toNat) hx
    refine ⟨_, done, ended, fun e he k hk => ?_, fun hq hm => ?_, change⟩
    · by_cases h : stillQueued s e = true
      · exact .inl (gone e he h k hk)
      · refine .inr fun j hj hs => h ?_
        exact List.any_eq_true.mpr ⟨j, hj, by simp [hs]⟩
    · obtain ⟨tus, left_⟩ := committed_all (s := begin_ s) (x := x) (t := tree.toNat)
        (fun e he => by
          obtain ⟨k, hk, hs⟩ := hq e he
          exact List.any_eq_true.mpr ⟨k, hk, by simp [hs]⟩) hm
      exact ⟨stage.trans (congrArg some tus), cont.trans left_⟩

end Sys2Proof.Machine
end

section
/-!
SUPPORT. Frames that enter an ingress section (R13, R204, R244, R391).
-/

namespace Sys2Proof.Machine

-- one declaration at a time: the package is compiled as one text within a limit of memory
set_option Elab.async false

section
variable {s t u : State} {l : List Comp} {a : Arrive} {ue : Option Word} {i : Nat}

/-! ## Taking cells rests on the groups alone (R238, R244) -/

/-- In `t` the bank groups, and the turns of the sections at them, are those of `s`. -/
structure CellsAlike (s t : State) : Prop where
  grp : t.qbm.grp = s.qbm.grp
  bgmap : t.qbm.bgmap = s.qbm.bgmap
  retire : t.qbm.retire = s.qbm.retire
  turn : t.qbm.rrGrp = s.qbm.rrGrp
  pwr : t.pwr = s.pwr

theorem CellsAlike.of_eq (h : t.qbm = s.qbm) (k : t.pwr = s.pwr) : CellsAlike s t := ⟨by rw [h], by rw [h], by rw [h], by rw [h], k⟩

theorem domOn_of_pwr (h : t.pwr = s.pwr) (d : Nat) : domOn t d = domOn s d := by unfold domOn; rw [pdom_of_pwr h]

theorem CellsAlike.grpOf (h : CellsAlike s t) (g : Nat) : Machine.grpOf t g = Machine.grpOf s g := congrArg (tGet Group.empty · g) h.grp

theorem CellsAlike.allocates (h : CellsAlike s t) (g : Nat) : Machine.allocates t g = Machine.allocates s g := by
  simp only [Machine.allocates, h.grpOf, h.retire, physOf, h.bgmap, domOn_of_pwr h.pwr]

/-- One cell is found in both, or in neither. -/
theorem CellsAlike.one (h : CellsAlike s t) (g n : Nat) : (allocOne s g n = none ∧ allocOne t g n = none) ∨
    ∃ c k u v, allocOne s g n = some (c, k, u) ∧ allocOne t g n = some (c, k, v) ∧ CellsAlike u v := by
  induction n generalizing g with
  | zero => exact .inl ⟨rfl, rfl⟩
  | succ n ih =>
    unfold allocOne
    dsimp only
    rw [h.allocates, h.grpOf]
    split
    · split
      · next c v _ =>
        exact .inr ⟨c, _, _, _, rfl, rfl, congrArg (fun x => tSet Group.empty x (g % 16) v) h.grp, h.bgmap, h.retire, h.turn, h.pwr⟩
      · exact ih (g + 1)
    · exact ih (g + 1)

theorem CellsAlike.alloc (h : CellsAlike s t) (sec n : Nat) : (allocN sec n t).isSome = (allocN sec n s).isSome := by
  induction n generalizing s t with
  | zero => rfl
  | succ n ih =>
    unfold allocN
    rw [h.turn]
    rcases h.one (tGet 0 s.qbm.rrGrp sec) 16 with ⟨hs, ht⟩ | ⟨c, g, u, v, hs, ht, alike⟩
    · rw [hs, ht]
    · rw [hs, ht]
      have more := @ih { u with qbm := { u.qbm with rrGrp := tSet 0 u.qbm.rrGrp sec g } } { v with qbm := { v.qbm with rrGrp := tSet 0 v.qbm.rrGrp sec g } }
        ⟨alike.grp, alike.bgmap, alike.retire, congrArg (fun x => tSet 0 x sec g) alike.turn, alike.pwr⟩
      dsimp only
      generalize allocN sec n { u with qbm := { u.qbm with rrGrp := tSet 0 u.qbm.rrGrp sec g } } = x at more
      generalize allocN sec n { v with qbm := { v.qbm with rrGrp := tSet 0 v.qbm.rrGrp sec g } } = y at more
      cases x with
      | none => cases y with
        | none => rfl
        | some y => simp at more
      | some x => cases y with
        | none => simp at more
        | some y => rfl

/-! ## A frame in the buffer (R237, R244) -/

/-- The frame stands in the buffer, with the cells of its bytes. -/
structure Stored (f : Frame) (n : Nat) (s t : State) : Prop where
  frame : ∃ cells, cells.length = cellsFor f.bytes.length ∧ frameOf t n = some { f with cells := cells }
  ino : t.qbm.ino = s.qbm.ino
  changes : Changes [.qbm] s t

theorem storeFrame_none {sec : Nat} {f : Frame} (h : allocN sec (cellsFor f.bytes.length) s = none) : storeFrame sec f s = none := by
  unfold storeFrame
  rw [h]

theorem storeFrame_some {sec : Nat} {f : Frame} (h : (allocN sec (cellsFor f.bytes.length) s).isSome = true) :
    ∃ n t, storeFrame sec f s = some (n, t) ∧ Stored f n s t := by
  obtain ⟨⟨cells, u⟩, e⟩ := Option.isSome_iff_exists.mp h
  obtain ⟨len, move⟩ := allocN_effect e
  have put := changes_qbm { u.qbm with nextFrame := u.qbm.nextFrame + 1, frames := tPut u.qbm.nextFrame { f with cells := cells } u.qbm.frames } u
  have frame : frameOf { u with qbm := { u.qbm with nextFrame := u.qbm.nextFrame + 1, frames := tPut u.qbm.nextFrame { f with cells := cells } u.qbm.frames } }
      u.qbm.nextFrame = some { f with cells := cells } := tFind_tPut_same _ _ _
  have ino (x y : State) (m : CellsMove [.qbm] x y) : y.qbm.ino = x.qbm.ino := (congrArg (fun q : Qbm => q.ino) m.store :)
  have stored (t : State) (m : CellsMove [.qbm] { u with qbm := { u.qbm with nextFrame := u.qbm.nextFrame + 1, frames := tPut u.qbm.nextFrame { f with cells := cells } u.qbm.frames } } t) :
      Stored f u.qbm.nextFrame s t :=
    ⟨⟨cells, len, (m.frameOf _).trans frame⟩, (ino _ _ m).trans (ino s u move), (move.changes.trans put).trans m.changes⟩
  unfold storeFrame
  rw [e]
  dsimp only
  refine ⟨_, _, rfl, stored _ ?_⟩
  split
  · exact (cellsMove_chainCells _ _).trans (cellsMove_portCellsAdd _ _ _)
  · exact cellsMove_chainCells _ _

/-- A send's record falls due: the ingress frame numbers stay. -/
theorem sendDone_effect (n : Nat) (f : Frame) (s : State) : (sendDone n f s).qbm.ino = s.qbm.ino ∧ Changes [.qbm, .hrd] s (sendDone n f s) := by
  unfold sendDone
  split
  · exact ⟨rfl, changes_refl _ s⟩
  · extract_lets c same
    split
    · exact ⟨rfl, (changes_qbm _ s).mono (by decide)⟩
    · exact ⟨rfl, (changes_hrd _ s.out s).mono (by decide)⟩

theorem recvAdd_effect (n : Nat) (s : State) : Changes [.upl] s (recvAdd n s) := by
  unfold recvAdd
  split
  · exact changes_refl _ s
  · exact Changes.ite (fun _ => changes_upl _ s) fun _ => changes_refl _ s

/-- What a frame's entry into a section can change beside the section. -/
abbrev storing : List Comp := [.qbm, .upl, .flt, .glb, .hrd, .pwr, .cnt]

/-- The frame of an arrival is the next one of its source; it holds its cells, where there are any (R244, R391). -/
structure CellsTaken (i : Nat) (a : Arrive) (s : State) (r : Arrive × State) : Prop where
  ino : tGet 0 r.2.qbm.ino (inoKey a.src) = tGet 0 s.qbm.ino (inoKey a.src) + 1
  others : ∀ x, x ≠ inoKey a.src → tGet 0 r.2.qbm.ino x = tGet 0 s.qbm.ino x
  changes : Changes storing s r.2
  frame : ∃ fr, r.1 = { a with frame := fr } ∧
    ((allocN (secKey i a.up) (cellsFor a.bytes.length) s).isSome = true → ∃ n f, fr = some n ∧ frameOf r.2 n = some f ∧
      f.bytes = a.bytes ∧ f.len = a.n ∧ f.src = a.src ∧ f.mark = a.mark ∧ f.stamp = a.stamp ∧ f.send = a.send ∧ f.refs = 0 ∧
      f.cells.length = cellsFor a.bytes.length) ∧
    (allocN (secKey i a.up) (cellsFor a.bytes.length) s = none → fr = none)

/-- The next frame of a source. -/
def nextIno (x : Src) (s : State) : State := { s with qbm := { s.qbm with ino := tSet 0 s.qbm.ino (inoKey x) (tGet 0 s.qbm.ino (inoKey x) + 1) } }

theorem nextIno_effect (x : Src) (s : State) : tGet 0 (nextIno x s).qbm.ino (inoKey x) = tGet 0 s.qbm.ino (inoKey x) + 1 ∧
    (∀ y, y ≠ inoKey x → tGet 0 (nextIno x s).qbm.ino y = tGet 0 s.qbm.ino y) ∧ CellsAlike s (nextIno x s) ∧ Changes [.qbm] s (nextIno x s) := by
  have ino : (nextIno x s).qbm.ino = tSet 0 s.qbm.ino (inoKey x) (tGet 0 s.qbm.ino (inoKey x) + 1) := rfl
  rw [ino]
  exact ⟨tGet_tSet_same _ _ _ _, fun y hy => tGet_tSet_other hy _ _ _ _, ⟨rfl, rfl, rfl, rfl, rfl⟩, changes_qbm _ s⟩

/-- The record of an arrival's frame. -/
def firstFrame (a : Arrive) (s : State) : Frame := { arriveFrame s a CRes.none_ with ino := tGet 0 s.qbm.ino (inoKey a.src) }

theorem takeCells_eq (i : Nat) (a : Arrive) (s : State) : takeCells i a s =
    match storeFrame (secKey i a.up) (firstFrame a s) (nextIno a.src s) with
    | none => (a, sendDone 0 (firstFrame a s) (bufExhaust (secKey i a.up) 1 i (nextIno a.src s)))
    | some (n, s1) => ({ a with frame := some n }, recvAdd n s1) := rfl

theorem takeCells_takes (h : a.frame = none) (i : Nat) (s : State) : CellsTaken i a s (takeCells i a s) := by
  obtain ⟨ino, others, alike, next⟩ := nextIno_effect a.src s
  have same := alike.alloc (secKey i a.up) (cellsFor a.bytes.length)
  have bytes : (firstFrame a s).bytes = a.bytes := rfl
  have fields (cells : List Nat) (n : Nat) (v : State) (hv : frameOf v n = some { firstFrame a s with cells := cells })
      (hl : cells.length = cellsFor a.bytes.length) : ∃ f, frameOf v n = some f ∧
      f.bytes = a.bytes ∧ f.len = a.n ∧ f.src = a.src ∧ f.mark = a.mark ∧ f.stamp = a.stamp ∧ f.send = a.send ∧ f.refs = 0 ∧
      f.cells.length = cellsFor a.bytes.length := ⟨_, hv, rfl, rfl, rfl, rfl, rfl, rfl, rfl, hl⟩
  rw [takeCells_eq]
  generalize firstFrame a s = f0 at bytes fields
  generalize nextIno a.src s = v at ino others alike next same
  by_cases full : (allocN (secKey i a.up) (cellsFor a.bytes.length) v).isSome = true
  · obtain ⟨n, w, e, ⟨cells, len, frame⟩, wino, stored⟩ := storeFrame_some (sec := secKey i a.up) (f := f0) (s := v) (by rw [bytes]; exact full)
    rw [e]
    have added := recvAdd_effect n w
    have qbm : (recvAdd n w).qbm = w.qbm := added .qbm (by decide)
    obtain ⟨f, hf, rest⟩ := fields cells n (recvAdd n w) (by rw [frameOf, qbm, ← frameOf, frame]) (by rw [len, bytes])
    refine ⟨?_, fun x hx => ?_, ((next.mono (by decide)).trans (stored.mono (by decide))).trans (added.mono (by decide)),
      some n, rfl, fun _ => ⟨n, f, rfl, hf, rest⟩, fun no => ?_⟩
    · rw [qbm, wino, ino]
    · rw [qbm, wino, others x hx]
    · rw [same, no] at full
      exact absurd full (by decide)
  · have none_ : allocN (secKey i a.up) (cellsFor f0.bytes.length) v = none := by
      rw [bytes]
      exact Option.not_isSome_iff_eq_none.mp full
    rw [storeFrame_none none_]
    have counted := changes_count1 6 2 v
    have told := changes_fault 6 2 (w32 (tGet 0 v.qbm.rrGrp (secKey i a.up))) 2 1 i 0 (count1 6 2 v)
    unfold bufExhaust
    have qbm : (fault 6 2 (w32 (tGet 0 v.qbm.rrGrp (secKey i a.up))) 2 1 i 0 (count1 6 2 v)).qbm = v.qbm :=
      Eq.trans (told .qbm (by decide)) (counted .qbm (by decide))
    generalize fault 6 2 (w32 (tGet 0 v.qbm.rrGrp (secKey i a.up))) 2 1 i 0 (count1 6 2 v) = w at told qbm
    obtain ⟨wino, done⟩ := sendDone_effect 0 f0 w
    refine ⟨?_, fun x hx => ?_,
      ((next.mono (by decide)).trans (counted.mono (by decide))).trans ((told.mono (by decide)).trans (done.mono (by decide))),
      none, by rw [← h], fun yes => ?_, fun _ => rfl⟩
    · rw [wino, qbm, ino]
    · rw [wino, qbm, others x hx]
    · rw [same, yes] at full
      exact absurd rfl full

/-! ## Cycle 0 of a frame (R13, R204) -/

/-- What the entry of a frame can change. -/
abbrev entering : List Comp := [.flt, .glb, .qbm, .upl, .hrd, .skm, .pwr, .cnt]

/-- The lanes of a frame in its section. -/
def lanesTaken (i : Nat) (a : Arrive) (s : State) : State :=
  lanePend i (b2n a.up) (lanesOf a.bytes.length) (secPlace i (b2n a.up) a.bytes.length (countO (iSLC i) 14 (b2n a.up) 1 s))

theorem changes_secPlace (i d n : Nat) (s : State) : Changes [.skm, .cnt] s (secPlace i d n s) := by
  unfold secPlace
  extract_lets k x x0 third x1 tot x2 _ s1
  have h1 : Changes [.skm, .cnt] s s1 := (changes_skm _ s).mono (by decide)
  clear_value s1
  exact Changes.ite (fun _ => h1.trans (((changes_laneMod _ _ _ s1).trans (changes_countO _ _ _ _ _)).mono (by decide))) fun _ => h1

theorem changes_lanesTaken (i : Nat) (a : Arrive) (s : State) : Changes [.skm, .cnt] s (lanesTaken i a s) := by
  have pend (n : Nat) (v : State) : Changes [.skm, .cnt] v (lanePend i (b2n a.up) n v) :=
    Changes.ite (fun _ => (changes_laneMod _ _ _ v).mono (by decide)) fun _ => changes_refl _ v
  exact (((changes_countO _ _ _ _ s).mono (by decide)).trans (changes_secPlace _ _ _ _)).trans (pend _ _)

theorem secPlace_out (i d n : Nat) (s : State) : (secPlace i d n s).out = s.out := by
  unfold secPlace
  extract_lets k x x0 third x1 tot x2 _ s1
  split
  · exact countO_out _ _ _ _ _
  · rfl

theorem lanesTaken_out (i : Nat) (a : Arrive) (s : State) : (lanesTaken i a s).out = s.out := by
  have pend (n : Nat) (v : State) : (lanePend i (b2n a.up) n v).out = v.out := by
    unfold lanePend
    split
    · rfl
    · rfl
  exact (pend _ _).trans ((secPlace_out _ _ _ _).trans (countO_out _ _ _ _ _))

/-- An arrival on the classifier page of its cycle 0. -/
def onItsPage (a : Arrive) (s : State) : Arrive := { a with page := some (a.page.getD s.cls.active) }

theorem ingressAt_eq (i : Nat) (a : Arrive) (ue : Option Word) (s : State) : ingressAt i a ue s =
    let r := if a.send.isNone && bufFull (lanesTaken i a s) then (onItsPage a s, count1 6 1 (lanesTaken i a s))
      else takeCells i (onItsPage a s) (lanesTaken i a s)
    if unclassified (lanesTaken i a s) a then atCycle (s.tim.now + 54) (.enq i r.1 none) r.2
    else atCycle (s.tim.now + 30) (.look i r.1 ue) r.2 := rfl

theorem bufFull_of_eq (hq : t.qbm = s.qbm) (hp : t.pwr = s.pwr) (hr : t.regs = s.regs) : bufFull t = bufFull s := by
  have alike : CellsAlike s t := .of_eq hq hp
  have same : allocates t = allocates s := funext alike.allocates
  have free : freeCells t = freeCells s := by simp only [freeCells, alike.grpOf, same]
  have room : hdrm t = hdrm s := by simp only [hdrm, regF, reg, hr]
  unfold bufFull
  rw [free, room]

theorem unclassified_of_upl (h : t.upl = s.upl) (a : Arrive) : unclassified t a = unclassified s a := by
  simp only [unclassified, directQueue, basePort, h]

/-- R204, R244: a frame that is not refused at the edge enters the section of its home. -/
theorem ingressAt_enters (hf : a.frame = none) (hb : a.send.isNone = true → bufFull s = false) (hi : arriveHome s a = i) :
    Entered a ue s (ingressAt i a ue s) ∧ Changes entering s (ingressAt i a ue s) := by
  have lanes := changes_lanesTaken i a s
  have open_ : (a.send.isNone && bufFull (lanesTaken i a s)) = false := by
    rw [bufFull_of_eq (lanes .qbm (by decide)) (lanes .pwr (by decide)) (lanes .regs (by decide)), Bool.and_eq_false_imp]
    exact hb
  have class_ := unclassified_of_upl (lanes .upl (by decide)) a
  have taken := takeCells_takes (a := onItsPage a s) (show (onItsPage a s).frame = none from hf) i (lanesTaken i a s)
  have alloc := (CellsAlike.of_eq (lanes .qbm (by decide)) (lanes .pwr (by decide))).alloc (secKey i a.up) (cellsFor a.bytes.length)
  rw [ingressAt_eq]
  dsimp only
  have goes : (if a.send.isNone && bufFull (lanesTaken i a s) then (onItsPage a s, count1 6 1 (lanesTaken i a s))
      else takeCells i (onItsPage a s) (lanesTaken i a s)) = takeCells i (onItsPage a s) (lanesTaken i a s) := if_neg (by rw [open_]; decide)
  rw [goes, class_]
  generalize lanesTaken i a s = v at lanes taken alloc
  generalize takeCells i (onItsPage a s) v = r at taken
  obtain ⟨ino, others, change, fr, arrive, some_, none_⟩ := taken
  have qbm : v.qbm = s.qbm := lanes .qbm (by decide)
  have turned (c : Nat) (x : Turn) : Changes entering s (atCycle c x r.2) :=
    ((lanes.mono (by decide)).trans (change.mono (by decide))).trans ((changes_atCycle c x r.2).mono (by decide))
  have entered (c : Nat) (x : Turn)
      (hx : if unclassified s a then (c, x) = (s.tim.now + 54, Turn.enq (arriveHome s a) { a with page := some (a.page.getD s.cls.active), frame := fr } none)
        else (c, x) = (s.tim.now + 30, Turn.look (arriveHome s a) { a with page := some (a.page.getD s.cls.active), frame := fr } ue)) :
      Entered a ue s (atCycle c x r.2) := by
    refine ⟨by rw [← qbm]; exact ino, fun y hy => by rw [← qbm]; exact others y hy, fr, ?_, fun h => ?_, fun h => ?_⟩
    · have last : (c, x) ∈ (atCycle c x r.2).hrd.later := List.mem_append_right _ (List.mem_singleton.mpr rfl)
      split at hx
      · next k =>
        rw [if_pos k, ← hx]
        exact last
      · next k =>
        rw [if_neg k, ← hx]
        exact last
    · exact some_ (alloc.trans (by rw [hi] at h; exact h))
    · rw [hi] at h
      rw [h] at alloc
      have no : allocN (secKey i a.up) (cellsFor a.bytes.length) v = none := by simpa using alloc
      exact none_ no
  rw [arrive]
  split
  · next k => exact ⟨entered _ _ (by rw [if_pos k, hi]; rfl), turned _ _⟩
  · next k => exact ⟨entered _ _ (by rw [if_neg k, hi]; rfl), turned _ _⟩

/-- What has happened before, away from the section, leaves the entry as it is. -/
theorem Entered.after (h : Entered a ue t u) (hq : t.qbm = s.qbm) (hp : t.pwr = s.pwr) (ht : t.tim = s.tim) (hc : t.cls = s.cls)
    (hu : t.upl = s.upl) (hi : arriveHome t a = arriveHome s a) : Entered a ue s u := by
  have alloc := (CellsAlike.of_eq hq hp).alloc (secKey (arriveHome s a) a.up) (cellsFor a.bytes.length)
  obtain ⟨ino, others, fr, turn, some_, none_⟩ := h
  rw [unclassified_of_upl hu, ht, hi, hc] at turn
  rw [hi] at some_ none_
  refine ⟨by rw [← hq]; exact ino, fun x hx => by rw [← hq]; exact others x hx, fr, turn, fun k => some_ (alloc.trans k), fun k => none_ ?_⟩
  rw [k] at alloc
  exact Option.not_isSome_iff_eq_none.mp (by simpa using alloc)

/-- What happens afterwards, away from the buffer, leaves the entry as it is. -/
theorem Entered.then {v : State} (h : Entered a ue s t) (hq : v.qbm = t.qbm) (hl : ∀ e ∈ t.hrd.later, e ∈ v.hrd.later) : Entered a ue s v := by
  obtain ⟨ino, others, fr, turn, some_, none_⟩ := h
  refine ⟨by rw [hq]; exact ino, fun x hx => by rw [hq]; exact others x hx, fr, ?_, fun k => ?_, none_⟩
  · split at turn
    · next c => rw [if_pos c]; exact hl _ turn
    · next c => rw [if_neg c]; exact hl _ turn
  · obtain ⟨n, f, hn, hf, rest⟩ := some_ k
    exact ⟨n, f, hn, by rw [frameOf, hq, ← frameOf, hf], rest⟩

/-- An edge's frame is refused where few cells are free (R244). -/
theorem ingressAt_refused (hs : a.send = none) (hb : bufFull s = true) (i : Nat) : (ingressAt i a ue s).out = s.out ∧
    Changes [.hrd, .skm, .cnt] s (ingressAt i a ue s) := by
  have lanes := changes_lanesTaken i a s
  have out := lanesTaken_out i a s
  have full : (a.send.isNone && bufFull (lanesTaken i a s)) = true := by
    rw [bufFull_of_eq (lanes .qbm (by decide)) (lanes .pwr (by decide)) (lanes .regs (by decide)), hs, hb]
    rfl
  rw [ingressAt_eq]
  dsimp only
  have goes : (if a.send.isNone && bufFull (lanesTaken i a s) then (onItsPage a s, count1 6 1 (lanesTaken i a s))
      else takeCells i (onItsPage a s) (lanesTaken i a s)) = (onItsPage a s, count1 6 1 (lanesTaken i a s)) := if_pos full
  rw [goes]
  generalize lanesTaken i a s = v at lanes out
  have counted := changes_count1 6 1 v
  have cout : (count1 6 1 v).out = v.out := countN_out _ _ _ _
  generalize count1 6 1 v = w at counted cout
  have turned (c : Nat) (x : Turn) : (atCycle c x w).out = s.out ∧ Changes [.hrd, .skm, .cnt] s (atCycle c x w) :=
    ⟨cout.trans out, ((lanes.mono (by decide)).trans (counted.mono (by decide))).trans ((changes_atCycle c x w).mono (by decide))⟩
  split
  · exact turned _ _
  · exact turned _ _

end

end Sys2Proof.Machine
end

section
/-!
SUPPORT. Frames that an uplink port receives (R13, R163, R165, R175, R244, R389, R403).
-/

namespace Sys2Proof.Machine

-- one declaration at a time: the package is compiled as one text within a limit of memory
set_option Elab.async false

section
variable {s t : State} {p ph : Nat} {bytes : List Byte} {rxErr full : Bool} {ue : Option Word} {a : Arrive}

/-! ## A frame reaches its port (R163, R175) -/

theorem portReceive_none (h : domOn s (domUP p) = false ∨ isSecond s p = true) : portReceive p bytes rxErr full ph ue s = s := by
  unfold portReceive
  refine if_pos ?_
  rcases h with h | h
  · simp [h]
  · simp [h]

theorem portReceive_closed (hd : domOn s (domUP p) = true) (h2 : isSecond s p = false) (h : uplOpen s p = false ∨ loopU s p = 2) :
    portReceive p bytes rxErr full ph ue s = count1 (iUPL p) 20 s := by
  unfold portReceive
  rw [if_neg (by simp [hd, h2])]
  refine if_pos ?_
  rcases h with h | h
  · simp [h]
  · simp [h]

theorem portReceive_looped (hd : domOn s (domUP p) = true) (h2 : isSecond s p = false) (ho : uplOpen s p = true) (hl : loopU s p = 3) :
    portReceive p bytes rxErr full ph ue s = s := by
  unfold portReceive
  rw [if_neg (by simp [hd, h2]), if_neg (by simp [ho, hl]), if_pos hl]

/-- The arrival of a frame at a port that carries traffic. -/
def portArrive (p : Nat) (bytes : List Byte) (rxErr : Bool) (stamp last : Nat) (s : State) : Arrive :=
  { up := false, src := ⟨0, p⟩, bytes := bytes.take (uplMaxlen s p), n := bytes.length,
    mark := markOf (uplMaxlen s p) bytes.length (bytes.take (uplMaxlen s p)) rxErr, stamp := stamp, tid := 0, hnd := 0, maxlen := uplMaxlen s p,
    lenField := lenFieldOf s ⟨0, p⟩ bytes.length, lenKnown := lenKnownOf s ⟨0, p⟩ bytes.length, looped := false, send := none, part := none,
    last := last, page := none, frame := none, again := false }

theorem portReceive_open (hd : domOn s (domUP p) = true) (h2 : isSecond s p = false) (ho : uplOpen s p = true) (hl : loopU s p = 0) :
    portReceive p bytes rxErr full ph ue s = portTake p bytes rxErr false full (addTime s.tim.time (steps s ph - ofs16 (reg s (rUpl p 0x20))))
      (s.tim.now + (if bytes.length ≤ 64 then 0 else ceilDiv bytes.length (uplBytes s p) - 1)) ue s := by
  unfold portReceive
  rw [if_neg (by simp [hd, h2]), if_neg (by simp [ho, hl]), if_neg (by simp [hl])]
  extract_lets n last stamp
  rw [hl]
  rfl

theorem portTake_short {stamp last : Nat} {looped : Bool} (h : bytes.length < 18) :
    portTake p bytes rxErr looped full stamp last ue s = count1 (iUPL p) 4 s := if_pos h

/-- Whatever the mark, only counters change. -/
theorem countMark_effect (p : Nat) (m : Mark) (b : List Byte) (s : State) : Changes [.cnt] s (countMark p m b s) ∧ (countMark p m b s).out = s.out := by
  unfold countMark
  cases m with
  | good => exact ⟨changes_refl _ s, rfl⟩
  | runt => exact ⟨changes_count1 _ _ s, count1_out _ _ s⟩
  | oversize => exact ⟨changes_count1 _ _ s, count1_out _ _ s⟩
  | rxErr => exact ⟨changes_count1 _ _ s, count1_out _ _ s⟩
  | fcsErr =>
    extract_lets s1
    have h1 : Changes [.cnt] s s1 ∧ s1.out = s.out := ⟨changes_count1 _ _ s, count1_out _ _ s⟩
    clear_value s1
    show Changes [.cnt] s (if _ then _ else _) ∧ (if _ then _ else _ : State).out = s.out
    split
    · exact ⟨h1.1.trans (changes_count1 _ _ s1), (count1_out _ _ s1).trans h1.2⟩
    · exact h1

/-- A frame that is no flow control goes to its section once it is counted. -/
theorem portTake_long {stamp last : Nat} (hn : 18 ≤ bytes.length) (he : etherType (bytes.take (uplMaxlen s p)) ≠ 0x8808) :
    ∃ u, Changes [.hrd, .cnt] s u ∧ u.out = s.out ∧ portTake p bytes rxErr false full stamp last ue s =
      if full && portSurvivor s (homeU s p) then count1 (iSLC (homeU s p)) 7 u else ingress (portArrive p bytes rxErr stamp last s) ue u := by
  unfold portTake
  extract_lets n maxlen b m src seen s1
  have counted := countMark_effect p m b (countN (iUPL p) 1 n (count1 (iUPL p) 0 s))
  have ch : Changes [.hrd, .cnt] s s1 :=
    ((((changes_count1 _ _ s).trans (changes_countN _ _ _ _)).trans counted.1).mono (by decide)).trans ((changes_atCycle _ _ _).mono (by decide))
  have out : s1.out = s.out := counted.2.trans ((countN_out _ _ _ _).trans (count1_out _ _ s))
  rw [if_neg (Nat.not_lt.mpr hn), if_neg he, if_neg (by simp)]
  exact ⟨s1, ch, out, rfl⟩

/-- The arrival that the statement describes is the one that the port makes. -/
theorem portArrive_eq {stamp last : Nat} (hup : a.up = false) (hsrc : a.src = ⟨0, p⟩) (hb : a.bytes = bytes.take (uplMaxlen s p)) (hn : a.n = bytes.length)
    (hm : a.mark = markOf (uplMaxlen s p) bytes.length a.bytes rxErr) (hst : a.stamp = stamp) (htid : a.tid = 0) (hhnd : a.hnd = 0)
    (hmax : a.maxlen = uplMaxlen s p) (hlf : a.lenField = lenFieldOf s a.src bytes.length) (hlk : a.lenKnown = lenKnownOf s a.src bytes.length)
    (hlo : a.looped = false) (hse : a.send = none) (hpa : a.part = none) (hla : a.last = last) (hpg : a.page = none) (hfr : a.frame = none)
    (hag : a.again = false) : portArrive p bytes rxErr stamp last s = a := by
  rw [hsrc] at hlf hlk
  rw [hb] at hm
  cases a
  simp_all [portArrive]

/-! ## It enters the section of the port's home, or does not (R244, R389, R404) -/

theorem ingress_taken (hl : srcLost s a = false) (hh : handingFrom s (arriveHome s a) = false) : ingress a ue s = ingressAt (arriveHome s a) a ue s := by
  unfold ingress
  dsimp only
  rw [if_neg (by simp [hl]), if_neg (by simp [hh])]

/-- R389: while the home is being handed over, what arrives is held. -/
theorem ingress_held (hl : srcLost s a = false) (hh : handingFrom s (arriveHome s a) = true) : (ingress a ue s).out = s.out ∧
    (∀ h ∈ s.skm.ho, h.failed = arriveHome s a → h.live = false → ∃ g ∈ (ingress a ue s).skm.ho, g.failed = h.failed ∧
      g.held = h.held ++ [{ a with page := some (a.page.getD s.cls.active) }]) ∧ Changes [.skm] s (ingress a ue s) := by
  unfold ingress
  dsimp only
  rw [if_neg (by simp [hl]), if_pos hh]
  refine ⟨rfl, fun h hm hf hv => ⟨_, List.mem_map.mpr ⟨h, hm, rfl⟩, ?_⟩, changes_skm _ s⟩
  rw [if_pos (by simp [hf, hv])]
  exact ⟨rfl, rfl⟩

theorem homeU_of_glb (h : t.glb = s.glb) (p : Nat) : homeU t p = homeU s p := (HomesStay.of_glb h).homeU p

/-- What becomes of a frame at a port that carries traffic, once it has been counted. -/
theorem portReceive_ingress (hd : domOn s (domUP p) = true) (h2 : isSecond s p = false) (ho : uplOpen s p = true) (hl : loopU s p = 0)
    (hn : 18 ≤ bytes.length) (he : etherType (bytes.take (uplMaxlen s p)) ≠ 0x8808)
    (ha : portArrive p bytes rxErr (addTime s.tim.time (steps s ph - ofs16 (reg s (rUpl p 0x20))))
      (s.tim.now + (if bytes.length ≤ 64 then 0 else ceilDiv bytes.length (uplBytes s p) - 1)) s = a) :
    ∃ u, Changes [.hrd, .cnt] s u ∧ u.out = s.out ∧ arriveHome u a = homeU s p ∧ srcLost u a = false ∧ portReceive p bytes rxErr full ph ue s =
      if full && portSurvivor s (homeU s p) then count1 (iSLC (homeU s p)) 7 u else ingress a ue u := by
  obtain ⟨u, ch, out, e⟩ := portTake_long (s := s) (p := p) (rxErr := rxErr) (full := full) (ue := ue)
    (stamp := addTime s.tim.time (steps s ph - ofs16 (reg s (rUpl p 0x20))))
    (last := s.tim.now + (if bytes.length ≤ 64 then 0 else ceilDiv bytes.length (uplBytes s p) - 1)) hn he
  have glb : u.glb = s.glb := ch .glb (by decide)
  have src : a.src = ⟨0, p⟩ := by rw [← ha]; rfl
  have lost : lostPort s p = false := by
    simp only [uplOpen, Bool.and_eq_true, Bool.not_eq_true'] at ho
    exact ho.2
  refine ⟨u, ch, out, ?_, ?_, ?_⟩
  · rw [arriveHome, src, if_pos rfl, homeU_of_glb glb]
  · rw [srcLost, src, if_pos rfl, lostPort, glb, ← lostPort, lost]
  · rw [portReceive_open hd h2 ho hl, e, ha]

end

/-- The first part of the statement: what the receive path of a port makes of a frame. -/
theorem port_receives (s : State) (p ph : Nat) (bytes : List Byte) (rxErr full : Bool) (ue : Option Word) (a : Arrive)
    (hd : domOn s (domUP p) = true) (h2 : isSecond s p = false) (ho : uplOpen s p = true) (hl : loopU s p = 0)
    (hn : 18 ≤ bytes.length) (he : etherType (bytes.take (uplMaxlen s p)) ≠ 0x8808)
    (ha : portArrive p bytes rxErr (addTime s.tim.time (steps s ph - ofs16 (reg s (rUpl p 0x20))))
      (s.tim.now + (if bytes.length ≤ 64 then 0 else ceilDiv bytes.length (uplBytes s p) - 1)) s = a) :
    ((full && portSurvivor s (homeU s p)) = true → (portReceive p bytes rxErr full ph ue s).out = s.out ∧
      Changes [.hrd, .cnt] s (portReceive p bytes rxErr full ph ue s)) ∧
    ((full && portSurvivor s (homeU s p)) = false →
      (handingFrom s (homeU s p) = false → bufFull s = false → Entered a ue s (portReceive p bytes rxErr full ph ue s) ∧
        Changes [.flt, .glb, .qbm, .upl, .hrd, .skm, .pwr, .cnt] s (portReceive p bytes rxErr full ph ue s)) ∧
      (handingFrom s (homeU s p) = false → bufFull s = true → (portReceive p bytes rxErr full ph ue s).out = s.out ∧
        Changes [.hrd, .skm, .cnt] s (portReceive p bytes rxErr full ph ue s)) ∧
      (handingFrom s (homeU s p) = true → (portReceive p bytes rxErr full ph ue s).out = s.out ∧
        (∀ h ∈ s.skm.ho, h.failed = homeU s p → h.live = false →
          ∃ g ∈ (portReceive p bytes rxErr full ph ue s).skm.ho, g.failed = h.failed ∧ g.held = h.held ++ [{ a with page := some s.cls.active }]) ∧
        Changes [.hrd, .skm, .cnt] s (portReceive p bytes rxErr full ph ue s))) := by
  obtain ⟨u, ch, out, home, lost, e⟩ := portReceive_ingress (full := full) (ue := ue) hd h2 ho hl hn he ha
  have page : a.page = none := by rw [← ha]; rfl
  have frame : a.frame = none := by rw [← ha]; rfl
  have send : a.send = none := by rw [← ha]; rfl
  have skm : u.skm = s.skm := ch .skm (by decide)
  have hand : handingFrom u (arriveHome u a) = handingFrom s (homeU s p) := by rw [home, handingFrom, skm, ← handingFrom]
  have buf : bufFull u = bufFull s := bufFull_of_eq (ch .qbm (by decide)) (ch .pwr (by decide)) (ch .regs (by decide))
  have same : arriveHome u a = arriveHome s a := by
    rw [home, arriveHome, show a.src = ⟨0, p⟩ by rw [← ha]; rfl, if_pos rfl]
  rw [e]
  refine ⟨fun k => ?_, fun k => ?_⟩
  · rw [if_pos k]
    exact ⟨(count1_out _ _ u).trans out, ch.trans ((changes_count1 _ _ u).mono (by decide))⟩
  · rw [if_neg (by simp [k])]
    refine ⟨fun hh hb => ?_, fun hh hb => ?_, fun hh => ?_⟩
    · rw [ingress_taken lost (hand.trans hh)]
      obtain ⟨entered, change⟩ := ingressAt_enters (s := u) (ue := ue) frame (fun _ => buf.trans hb) rfl
      exact ⟨entered.after (ch .qbm (by decide)) (ch .pwr (by decide)) (ch .tim (by decide)) (ch .cls (by decide)) (ch .upl (by decide)) same,
        (ch.mono (by decide)).trans (change.mono (by decide))⟩
    · rw [ingress_taken lost (hand.trans hh)]
      obtain ⟨sent, change⟩ := ingressAt_refused (s := u) (ue := ue) send (buf.trans hb) (arriveHome u a)
      exact ⟨sent.trans out, (ch.mono (by decide)).trans change⟩
    · obtain ⟨sent, held, change⟩ := ingress_held (ue := ue) lost (hand.trans hh)
      refine ⟨sent.trans out, fun h hm hf hv => ?_, (ch.mono (by decide)).trans (change.mono (by decide))⟩
      have cls : u.cls = s.cls := ch .cls (by decide)
      obtain ⟨g, hg, gf, gh⟩ := held h (by rw [skm]; exact hm) (hf.trans home.symm) hv
      refine ⟨g, hg, gf, gh.trans ?_⟩
      rw [page, cls]
      rfl

end Sys2Proof.Machine
end

section
/-!
SUPPORT. The enqueue of a frame in an uplink queue (R13, R204, R246, R247, R391).
-/

namespace Sys2Proof.Machine

-- one declaration at a time: the package is compiled as one text within a limit of memory
set_option Elab.async false

section
variable {s t u : State} {l : List Comp} {n q : Nat} {f : Frame}

/-! ## A frame at its enqueue -/

/-- Frame `n` stands in the buffer as `f`, but for its stamp, with `k` references. -/
def StandsAs (n k : Nat) (f : Frame) (s : State) : Prop :=
  ∃ g, frameOf s n = some g ∧ g.refs = k ∧ g.bytes = f.bytes ∧ g.cells = f.cells ∧ g.inS = f.inS ∧ g.prov = f.prov ∧ g.mark = f.mark

/-- From `s` to `t` frame `n` alone changes of the buffer, and no turn joins or leaves those that wait. -/
structure OneFrame (n : Nat) (s t : State) : Prop where
  changes : Changes [.qbm, .upl, .hrd, .pwr, .cnt, .fresh] s t
  others : ∀ m, m ≠ n → frameOf t m = frameOf s m
  queue : ∀ k, queueOf t k = queueOf s k
  chg : t.qbm.chg = s.qbm.chg
  seqNo : t.qbm.seqNo = s.qbm.seqNo
  ctx : t.qbm.ctx = s.qbm.ctx
  later : t.hrd.later = s.hrd.later

theorem OneFrame.refl (n : Nat) (s : State) : OneFrame n s s := ⟨changes_refl _ s, fun _ _ => rfl, fun _ => rfl, rfl, rfl, rfl, rfl⟩

theorem OneFrame.trans (h : OneFrame n s t) (k : OneFrame n t u) : OneFrame n s u :=
  ⟨h.changes.trans k.changes, fun m hm => (k.others m hm).trans (h.others m hm), fun m => (k.queue m).trans (h.queue m), k.chg.trans h.chg,
    k.seqNo.trans h.seqNo, k.ctx.trans h.ctx, k.later.trans h.later⟩

/-- What leaves the buffer alone. -/
theorem OneFrame.of_changes (h : Changes l s t) (hl : t.hrd.later = s.hrd.later) (hc : l ⊆ [.upl, .hrd, .pwr, .cnt, .fresh] := by decide) :
    OneFrame n s t := by
  have k := h.mono hc
  have qbm : t.qbm = s.qbm := k .qbm (by decide)
  exact ⟨k.mono (by decide), fun m _ => by rw [frameOf, qbm, frameOf], fun m => by rw [queueOf, qbm, queueOf], by rw [qbm], by rw [qbm], by rw [qbm], hl⟩

theorem oneFrame_setFrame (n : Nat) (f : Frame) (s : State) : OneFrame n s (setFrame n f s) :=
  ⟨(changes_setFrame n f s).mono (by decide), fun _ hm => frameOf_setFrame_other hm f s, fun _ => rfl, rfl, rfl, rfl, rfl⟩

theorem StandsAs.of_qbm {k : Nat} (h : StandsAs n k f s) (hq : t.qbm = s.qbm) : StandsAs n k f t := by
  obtain ⟨g, hg, rest⟩ := h
  exact ⟨g, by rw [frameOf, hq, ← frameOf, hg], rest⟩

/-- R353, R354: a stamp that is kept or lost changes nothing else of the frame. -/
theorem takeStamp_effect {k : Nat} (h : StandsAs n k f s) (p : Nat) : StandsAs n k f (takeStamp p n s) ∧ OneFrame n s (takeStamp p n s) := by
  obtain ⟨g, hg, rest⟩ := h
  have put (w : Tab Upl) : OneFrame n s { s with upl := w } := .of_changes (changes_upl w s) rfl
  have counted (v : State) : OneFrame n v (count1 (iUPL p) 21 v) := .of_changes (changes_count1 _ _ v) rfl
  unfold takeStamp
  rw [hg]
  extract_lets v
  dsimp only
  split
  · exact ⟨⟨_, frameOf_setFrame_same _ _ _, rest⟩, (put _).trans (oneFrame_setFrame _ _ _)⟩
  · exact ⟨⟨_, frameOf_setFrame_same _ _ _, rest⟩, ((put _).trans (counted _)).trans (oneFrame_setFrame _ _ _)⟩

/-! ## The admission of one target (R246, R247) -/

/-- The token that frame `n` gets in queue `q`. -/
def newToken (n f part : Nat) (seq : Nat) (s : State) : Token := ⟨n, f, seq, s.tim.tick % 2 ^ 16, false, part, s.tim.now⟩

theorem changes_wakeQ (q : Nat) (s : State) : Changes [.pwr] s (wakeQ q s) := by
  unfold wakeQ
  refine Changes.ite (fun _ => ?_) fun _ => Changes.ite (fun _ => changes_wake _ _ s) fun _ => changes_wake _ _ s
  exact Changes.ite (fun _ => changes_wake _ _ s) fun _ => changes_refl _ s

/-- A queue takes one more token. -/
def joinQueue (q : Nat) (tok : Token) (s : State) : State :=
  { s with qbm := { s.qbm with
      q := tSet [] s.qbm.q q (tGet [] s.qbm.q q ++ [tok]), seqNo := tSet 0 s.qbm.seqNo q ((tGet 0 s.qbm.seqNo q + 1) % 2 ^ 32) } }

/-- No uplink queue spills (R259). -/
theorem enqueue_uplink (hq : 131072 ≤ q) (part n fa f : Nat) (s : State) :
    enqueue q part n fa f s = addChg q f (wakeQ q (count1 6 0 (joinQueue q (newToken n f part (tGet 0 s.qbm.seqNo q) s) s))) := by
  have no : spills s q fa = false := by
    have ds : isDs q = false := decide_eq_false (Nat.not_lt.mpr hq)
    simp [spills, ds]
  unfold enqueue
  simp only [no, Bool.false_and, Bool.false_eq_true, if_false]
  rfl

/-- Frame `n` has joined queue `q`, and nothing else has changed of the buffer. -/
structure Joins (n q part : Nat) (s t : State) : Prop where
  changes : Changes [.qbm, .upl, .hrd, .pwr, .cnt, .fresh] s t
  others : ∀ m, m ≠ n → frameOf t m = frameOf s m
  joined : ∃ k, queueOf t q = queueOf s q ++ [k] ∧ k.frame = n ∧ k.part = part ∧ k.seq = tGet 0 s.qbm.seqNo q ∧ k.at_ = s.tim.now
  queue : ∀ k, k ≠ q → queueOf t k = queueOf s k
  later : t.hrd.later = s.hrd.later

theorem Joins.before {part : Nat} (h : Joins n q part t u) (k : OneFrame n s t) : Joins n q part s u := by
  obtain ⟨x, hq, hf, hp, hs, ha⟩ := h.joined
  have tim : t.tim = s.tim := k.changes .tim (by decide)
  exact ⟨k.changes.trans h.changes, fun m hm => (h.others m hm).trans (k.others m hm),
    ⟨x, by rw [hq, k.queue], hf, hp, by rw [hs, k.seqNo], by rw [ha, tim]⟩, fun m hm => (h.queue m hm).trans (k.queue m), h.later.trans k.later⟩

theorem Joins.after {part : Nat} (h : Joins n q part s t) (k : OneFrame n t u) : Joins n q part s u := by
  obtain ⟨x, hq, rest⟩ := h.joined
  exact ⟨h.changes.trans k.changes, fun m hm => (k.others m hm).trans (h.others m hm), ⟨x, by rw [k.queue, hq], rest⟩,
    fun m hm => (k.queue m).trans (h.queue m hm), k.later.trans h.later⟩

theorem enqueue_joins (hq : 131072 ≤ q) (part n fa f : Nat) (s : State) : Joins n q part s (enqueue q part n fa f s) ∧
    (enqueue q part n fa f s).qbm.frames = s.qbm.frames := by
  rw [enqueue_uplink hq]
  have same := queueOf_setQueue_same q (queueOf s q ++ [newToken n f part (tGet 0 s.qbm.seqNo q) s]) s
  have other {k : Nat} (hk : k ≠ q) := queueOf_setQueue_other hk (queueOf s q ++ [newToken n f part (tGet 0 s.qbm.seqNo q) s]) s
  have joins : queueOf (joinQueue q (newToken n f part (tGet 0 s.qbm.seqNo q) s) s) q = queueOf s q ++ [newToken n f part (tGet 0 s.qbm.seqNo q) s] := same
  have apart {k : Nat} (hk : k ≠ q) : queueOf (joinQueue q (newToken n f part (tGet 0 s.qbm.seqNo q) s) s) k = queueOf s k := other hk
  have put : Changes [.qbm] s (joinQueue q (newToken n f part (tGet 0 s.qbm.seqNo q) s) s) := changes_qbm _ s
  have frames : (joinQueue q (newToken n f part (tGet 0 s.qbm.seqNo q) s) s).qbm.frames = s.qbm.frames := rfl
  have later : (joinQueue q (newToken n f part (tGet 0 s.qbm.seqNo q) s) s).hrd = s.hrd := rfl
  generalize joinQueue q (newToken n f part (tGet 0 s.qbm.seqNo q) s) s = v at joins apart put frames later
  have woken : Changes [.cnt, .pwr] v (wakeQ q (count1 6 0 v)) :=
    ((changes_count1 6 0 v).mono (by decide)).trans ((changes_wakeQ q (count1 6 0 v)).mono (by decide))
  generalize wakeQ q (count1 6 0 v) = w at woken
  have qbm : w.qbm = v.qbm := woken .qbm (by decide)
  have hrd : w.hrd = v.hrd := woken .hrd (by decide)
  have charge := changes_addChg q (f : Int) w
  have queue (k : Nat) : queueOf (addChg q (f : Int) w) k = queueOf v k := by
    show tGet [] w.qbm.q k = _
    rw [qbm, queueOf]
  refine ⟨⟨((put.mono (by decide)).trans (woken.mono (by decide))).trans (charge.mono (by decide)), fun m _ => ?_,
    ⟨newToken n f part (tGet 0 s.qbm.seqNo q) s, by rw [queue, joins], rfl, rfl, rfl, rfl⟩, fun k hk => by rw [queue, apart hk], ?_⟩, ?_⟩
  · show tFind m w.qbm.frames = _
    rw [qbm, frames, frameOf]
  · show w.hrd.later = _
    rw [hrd, later]
  · show w.qbm.frames = _
    rw [qbm, frames]

/-- The queue has room for the frame: it is admitted, within MINC. -/
theorem admit1_uplink {part dp fa c : Nat} (hq : 131072 ≤ q) (hs : StandsAs n 0 f s) (hr : released s q = false) (hh : homeless s q = false)
    (hl : chgOf s q + fa ≤ (qLimits s q).1) (hm : chgOf s q + fa ≤ (qLimits s q).2) :
    (admit1 q part n dp fa c s).2 = true ∧ Joins n q part s (admit1 q part n dp fa c s).1 ∧ StandsAs n 1 f (admit1 q part n dp fa c s).1 := by
  obtain ⟨g, hg, refs, rest⟩ := hs
  have ds : isDs q = false := decide_eq_false (Nat.not_lt.mpr hq)
  have e : admit1 q part n dp fa c s = (enqueue q part n fa c (setFrame n { g with refs := g.refs + 1 } s), true) := by
    unfold admit1
    simp only [ds, hr, hh, Bool.false_and, Bool.or_false, Bool.false_eq_true, if_false, if_neg (Nat.not_lt.mpr hm), if_pos hl, Nat.lt_irrefl,
      false_and, hg]
  rw [e]
  obtain ⟨joins, frames⟩ := enqueue_joins hq part n fa c (setFrame n { g with refs := g.refs + 1 } s)
  refine ⟨rfl, joins.before (oneFrame_setFrame _ _ s), { g with refs := g.refs + 1 }, ?_, congrArg (· + 1) refs, rest⟩
  show tFind n _ = _
  rw [frames]
  exact frameOf_setFrame_same _ _ _

/-- Its target is recorded (R391). -/
theorem oneFrame_repAdd (i : Nat) (up : Bool) (e : RepEntry) (s : State) : OneFrame n s (repAdd i up e s) ∧ (repAdd i up e s).qbm.frames = s.qbm.frames := by
  have put (x : Tab (List RepEntry)) (v : State) : OneFrame n v { v with qbm := { v.qbm with rep := x } } :=
    ⟨(changes_qbm _ v).mono (by decide), fun _ _ => rfl, fun _ => rfl, rfl, rfl, rfl, rfl⟩
  unfold repAdd
  split
  · exact ⟨.refl n s, rfl⟩
  · extract_lets k l put_
    split
    · exact ⟨(OneFrame.of_changes (changes_count1 _ _ s) rfl).trans (put _ _), rfl⟩
    · exact ⟨put _ s, rfl⟩

theorem StandsAs.of_frames {k : Nat} (h : StandsAs n k f s) (hq : t.qbm.frames = s.qbm.frames) : StandsAs n k f t := by
  obtain ⟨g, hg, rest⟩ := h
  exact ⟨g, by rw [frameOf, hq, ← frameOf, hg], rest⟩

theorem admitRec_uplink {i part ino dp fa c : Nat} {up page : Bool} (hq : 131072 ≤ q) (hq' : q < 131200) (hs : StandsAs n 0 f s)
    (hr : released s q = false) (hh : homeless s q = false) (hl : chgOf s q + fa ≤ (qLimits s q).1) (hm : chgOf s q + fa ≤ (qLimits s q).2) :
    Joins n q part s (admitRec i up page n ino dp fa c [(q, part)] s) ∧ StandsAs n 1 f (admitRec i up page n ino dp fa c [(q, part)] s) := by
  obtain ⟨yes, joins, stands⟩ := admit1_uplink (part := part) (dp := dp) (c := c) hq hs hr hh hl hm
  have e : admitTo q part n dp fa c s = admit1 q part n dp fa c s := by
    unfold admitTo
    simp [Nat.not_le.mpr hq']
  unfold admitRec
  simp only [List.foldl_cons, List.foldl_nil, e, yes, if_true]
  generalize admit1 q part n dp fa c s = a at joins stands
  obtain ⟨recorded, frames⟩ := oneFrame_repAdd (n := n) i up ⟨n, ino, q, tGet 0 s.qbm.seqNo q, ((frameOf s n).map (·.bytes.length)).getD 0, page, s.tim.now, false, false⟩ a.1
  exact ⟨joins.after recorded, stands.of_frames frames⟩

/-! ## The decision (R34, R167, R471) -/

theorem oneFrame_laneMod (i d : Nat) (g : Lane → Lane) (s : State) : OneFrame n s (laneMod i d g s) := .of_changes (changes_laneMod i d g s) rfl

theorem verdict_held {i d lanes : Nat} (hs : StandsAs n 1 f s) (hp : f.prov = 0) (hm : f.mark = .good) :
    verdict n i d lanes false s = laneRetire8 i d lanes s := by
  obtain ⟨g, hg, refs, -, -, -, prov, mark⟩ := hs
  have charge : correctCharge n s = s := by
    unfold correctCharge
    rw [hg]
    exact if_pos (prov.trans hp)
  have unheld (v : State) (hv : v.qbm = s.qbm) : freeUnheld n v = v := by
    unfold freeUnheld
    rw [frameOf, hv, ← frameOf, hg]
    exact if_neg (by rw [refs]; decide)
  have lane : (laneRetire8 i d lanes s).qbm = s.qbm := by
    unfold laneRetire8
    split
    · rfl
    · rfl
  have bad : markBad g.mark = false := by
    rw [mark, hm]
    rfl
  unfold verdict
  rw [hg]
  simp only [charge, Bool.false_eq_true, if_false, bad, hg, Option.map_some, Option.getD_some, refs, Nat.zero_lt_one, if_true]
  exact unheld _ lane

theorem smpWrite_later (i m skid : Nat) (x : SmpFrame) (s : State) : (smpWrite i m skid x s).hrd.later = s.hrd.later := by
  unfold smpWrite
  extract_lets size base b s1
  split
  · exact congrArg Hrd.later (count1_hrd 10 4 s)
  · exact (congrArg Hrd.later (count1_hrd _ _ _)).trans (hostWrites_later _ s)

theorem completeAs_later (i : Nat) (x : SmpFrame) (s : State) : (completeAs i x s).hrd.later = s.hrd.later := by
  unfold completeAs
  split
  · rfl
  · split
    · rfl
    · extract_lets s1
      split
      · exact smpWrite_later _ _ _ _ _
      · rfl

/-- R471, R474: the decision on a good frame. -/
theorem verdictAt_held {i d lanes : Nat} {cls : Bool} {x : SmpFrame} (hs : StandsAs n 1 f s) (hp : f.prov = 0) (hm : f.mark = .good) :
    OneFrame n s (verdictAt n i d lanes false cls x s) ∧ StandsAs n 1 f (verdictAt n i d lanes false cls x s) := by
  have settled : OneFrame n s (laneSettle i d lanes s) ∧ (laneSettle i d lanes s).qbm = s.qbm := by
    unfold laneSettle
    split
    · exact ⟨oneFrame_laneMod _ _ _ s, rfl⟩
    · exact ⟨.refl n s, rfl⟩
  have retired (v : State) : OneFrame n v (laneRetire8 i d lanes v) ∧ (laneRetire8 i d lanes v).qbm = v.qbm := by
    unfold laneRetire8
    split
    · exact ⟨oneFrame_laneMod _ _ _ v, rfl⟩
    · exact ⟨.refl n v, rfl⟩
  have done (k : Nat) (v : State) : OneFrame n v (completeAs k x v) ∧ (completeAs k x v).qbm = v.qbm :=
    ⟨.of_changes (changes_completeAs k x v) (completeAs_later k x v), changes_completeAs k x v .qbm (by decide)⟩
  have stands : StandsAs n 1 f (laneSettle i d lanes s) := hs.of_qbm settled.2
  unfold verdictAt
  rw [verdict_held stands hp hm]
  have r := retired (laneSettle i d lanes s)
  generalize laneRetire8 i d lanes (laneSettle i d lanes s) = v at r
  have all : OneFrame n s v ∧ v.qbm = s.qbm := ⟨settled.1.trans r.1, r.2.trans settled.2⟩
  have one := done (iSLC i) v
  unfold decided
  dsimp only
  generalize completeAs (iSLC i) x v = w at one
  split
  · have two := done 5 w
    exact ⟨(all.1.trans one.1).trans two.1, hs.of_qbm (two.2.trans (one.2.trans all.2))⟩
  · exact ⟨all.1.trans one.1, hs.of_qbm (one.2.trans all.2)⟩

end

end Sys2Proof.Machine
end

section
/-!
SUPPORT. The enqueue of a frame whose lookup is done, and what a port receives (R13, R204, R246).
-/

namespace Sys2Proof.Machine

-- one declaration at a time: the package is compiled as one text within a limit of memory
set_option Elab.async false

section
variable {s t u : State} {n q i part : Nat} {f : Frame} {a : Arrive} {r : CRes}

/-- What the admission to a queue asks of the queue. -/
structure HasRoom (q c : Nat) (s : State) : Prop where
  low : 131072 ≤ q
  high : q < 131200
  released : Machine.released s q = false
  homeless : Machine.homeless s q = false
  min_ : chgOf s q + c ≤ (qLimits s q).1
  max_ : chgOf s q + c ≤ (qLimits s q).2

theorem HasRoom.kept {c : Nat} (h : HasRoom q c s) (hr : t.regs = s.regs) (hg : t.glb = s.glb) (ht : t.tre = s.tre) (hx : t.qbm.ctx = s.qbm.ctx)
    (hc : t.qbm.chg = s.qbm.chg) : HasRoom q c t := by
  have ctx : qctx t q = qctx s q := congrArg (tGet W4.zero · q) hx
  have chg : chgOf t q = chgOf s q := congrArg (tGet 0 · q) hc
  have lim : qLimits t q = qLimits s q := by simp only [qLimits, ctx, reg, hr]
  refine ⟨h.low, h.high, ?_, ?_, by rw [chg, lim]; exact h.min_, by rw [chg, lim]; exact h.max_⟩
  · rw [← h.released]
    simp only [Machine.released, ctx, ht]
  · rw [← h.homeless]
    simp only [Machine.homeless, lostTree, lostPort, hg]

/-- R246: a whole, good frame for one uplink queue with room joins it. -/
theorem storeAdmit_joins {cause : Nat} {cls : Bool} (hf : frameOf s n = some f) (h0 : f.refs = 0) (hp : f.prov = 0) (ha : a.mark = .good)
    (hm : f.mark = .good) (hk : a.lenKnown = true) (hl : a.last < s.tim.now) (hd : r.l4drop = false) (hq : r.queues = [(q, part)])
    (room : HasRoom q (cellsFor a.bytes.length) s) :
    Joins n q part s (storeAdmit i n a r cause cls s) ∧ StandsAs n 1 f (storeAdmit i n a r cause cls s) := by
  have first : StandsAs n 0 f (setFrame n (resFrame f r) s) := ⟨resFrame f r, frameOf_setFrame_same _ _ _, h0, rfl, rfl, rfl, rfl, rfl⟩
  have put := oneFrame_setFrame n (resFrame f r) s
  unfold storeAdmit
  split
  · next no => exact absurd (hf.symm.trans no) nofun
  next g hg =>
  obtain rfl : f = g := Option.some.inj (hf.symm.trans hg)
  extract_lets d len f0 s1 s2 c fa open_ s2a s3 late held s4
  have h2 : StandsAs n 0 f s2 ∧ OneFrame n s s2 := by
    simp only [s2]
    split
    · obtain ⟨stands, one⟩ := takeStamp_effect first a.src.num
      exact ⟨stands, put.trans one⟩
    · exact ⟨first, put⟩
  have shut : open_ = false := by simp [open_, Nat.le_of_lt hl]
  have h2a : s2a = s2 := by
    simp only [s2a, shut]
    rfl
  have cells : fa = cellsFor a.bytes.length := by simp only [fa, c, hk, if_true]; rfl
  have one : (if open_ = true then fa else c) = cellsFor a.bytes.length := by
    rw [shut, if_neg (by decide)]
  have room2 : HasRoom q (cellsFor a.bytes.length) s2 :=
    room.kept (h2.2.changes .regs (by decide)) (h2.2.changes .glb (by decide)) (h2.2.changes .tre (by decide)) h2.2.ctx h2.2.chg
  have joined := admitRec_uplink (i := i) (up := a.up) (page := a.page.getD s.cls.active) (ino := f.ino) (dp := r.dp) (part := part)
    (c := cellsFor a.bytes.length) room2.low room2.high h2.1 room2.released room2.homeless room2.min_ room2.max_
  have e3 : s3 = admitRec i a.up (a.page.getD s.cls.active) n f.ino r.dp (cellsFor a.bytes.length) (cellsFor a.bytes.length) [(q, part)] s2 := by
    simp only [s3]
    rw [one, h2a, hq, cells]
  rw [← e3] at joined
  obtain ⟨joins, stands⟩ := joined
  have holds : held = 1 := by
    obtain ⟨g, hg, refs, -⟩ := stands
    simp only [held, hg, Option.map_some, refs, Option.getD_some]
  have e4 : s4 = s3 := by
    simp only [s4, hd, ha]
    rfl
  have now : s3.tim.now = s.tim.now := congrArg Tim.now (Eq.trans (joins.changes .tim (by decide)) (h2.2.changes .tim (by decide)))
  rw [if_neg (by rw [holds]; decide), if_neg (Nat.not_lt.mpr (Nat.le_of_lt hl)), e4, hd]
  clear_value s3
  obtain ⟨after, end_⟩ := verdictAt_held (i := i) (d := d) (lanes := lanesOf len) (cls := cls) (x := smpOf f0) stands hp hm
  exact ⟨(joins.before h2.2).after after, end_⟩

theorem admitAt_frame (h : a.frame = some n) : admitAt i a (some r) s = storeAdmit i n a r 8 true s := by
  unfold admitAt
  rw [h]

theorem takeTurn_enq : takeTurn (.enq i a (some r)) s = admitAt i a (some r) s := rfl

theorem Joins.now (joins : Joins n q part u t) : t.tim.now = u.tim.now := by
  have tim : t.tim = u.tim := joins.changes .tim (by decide)
  rw [tim]

theorem Joins.none_due {m : Nat} {h : Hrd} (joins : Joins n q part u t) (hrd : u.hrd = { h with later := [] }) : ∀ e ∈ t.hrd.later, m < e.1 := by
  have later : t.hrd.later = [] := by rw [joins.later, hrd]
  simp [later]

/-- A frame that a later clock joined to a queue, told of the state before the clock. -/
theorem Joins.told {m : Nat} (joins : Joins n q part u t) (stands : StandsAs n 1 f t) (qbm : u.qbm = s.qbm) (now : u.tim.now = m) :
    ∃ k g, queueOf t q = queueOf s q ++ [k] ∧ k.frame = n ∧ k.part = part ∧ k.seq = tGet 0 s.qbm.seqNo q ∧ k.at_ = m ∧
      (∀ p, p ≠ q → queueOf t p = queueOf s p) ∧ frameOf t n = some g ∧ g.refs = 1 ∧ g.bytes = f.bytes ∧ g.cells = f.cells ∧
      (∀ m, m ≠ n → frameOf t m = frameOf s m) ∧ t.tim.now = m := by
  have frame (m : Nat) : frameOf u m = frameOf s m := by rw [frameOf, qbm, ← frameOf]
  have queue (m : Nat) : queueOf u m = queueOf s m := by rw [queueOf, qbm, ← queueOf]
  have tim : t.tim = u.tim := joins.changes .tim (by decide)
  obtain ⟨k, hk, kf, kp, ks, ka⟩ := joins.joined
  obtain ⟨g, hg, refs, bytes, cells, -⟩ := stands
  exact ⟨k, g, by rw [hk, queue], kf, kp, by rw [ks, qbm], by rw [ka, now], fun m hm => (joins.queue m hm).trans (queue m), hg, refs, bytes,
    cells, fun m hm => (joins.others m hm).trans (frame m), by rw [tim, now]⟩

theorem step_ends {m : Nat} (run : u.tim.now = m → (∀ e ∈ u.hrd.later, m < e.1) → step s = .next u) (hu : u = t) (now : t.tim.now = m)
    (later : ∀ e ∈ t.hrd.later, m < e.1) : step s = .next t := by
  subst hu
  exact run now later

/-- The only turn of an idle cycle is the enqueue of a frame. -/
theorem step_enqueue (hi : Idles s) (hl : s.hrd.later = [(s.tim.now + 1, .enq i a (some r))]) (hn : a.frame = some n) (hf : frameOf s n = some f)
    (h0 : f.refs = 0) (hp : f.prov = 0) (ha : a.mark = .good) (hm : f.mark = .good) (hk : a.lenKnown = true) (hlast : a.last ≤ s.tim.now)
    (hd : r.l4drop = false) (hq : r.queues = [(q, part)]) (room : HasRoom q (cellsFor a.bytes.length) s) :
    ∃ t, step s = .next t ∧ ∃ k g, queueOf t q = queueOf s q ++ [k] ∧ k.frame = n ∧ k.part = part ∧ k.seq = tGet 0 s.qbm.seqNo q ∧
      k.at_ = s.tim.now + 1 ∧ (∀ p, p ≠ q → queueOf t p = queueOf s p) ∧ frameOf t n = some g ∧ g.refs = 1 ∧ g.bytes = f.bytes ∧
      g.cells = f.cells ∧ (∀ m, m ≠ n → frameOf t m = frameOf s m) ∧ t.tim.now = s.tim.now + 1 := by
  obtain ⟨u, clock, -, run⟩ := step_turn hi hl
  obtain ⟨now, hrd, -, passed⟩ := turn_begins clock
  have qbm : u.qbm = s.qbm := passed .qbm (by decide)
  have frame : frameOf u n = some f := by rw [frameOf, qbm, ← frameOf, hf]
  obtain ⟨joins, stands⟩ := storeAdmit_joins (i := i) (cause := 8) (cls := true) frame h0 hp ha hm hk (by omega) hd hq
    (room.kept (passed .regs (by decide)) (passed .glb (by decide)) (passed .tre (by decide)) (by rw [qbm]) (by rw [qbm]))
  obtain ⟨k, g, told⟩ := joins.told stands qbm now
  refine ⟨_, step_ends run (takeTurn_enq.trans (admitAt_frame hn)) ?_ ?_, k, g, told⟩
  · exact joins.now.trans now
  · exact joins.none_due hrd

theorem Entered.of_begin {ue : Option Word} (h : Entered a ue (begin_ s) t) : Entered a ue s t := h.after rfl rfl rfl rfl rfl rfl

theorem bufFull_begin : bufFull (begin_ s) = bufFull s := bufFull_of_eq rfl rfl rfl

end

/-- Settles O25. -/
theorem uplinkReceive : Obligations.UplinkReceive := by
  unfold Obligations.UplinkReceive
  refine ⟨fun s port bytes rxErr full ph ue => ⟨fun h => ?_, fun hd h2 => ⟨fun h => ?_, fun ho hl => ?_, fun ho hl => ⟨fun hn => ?_, ?_⟩⟩⟩, ?_⟩
  · exact congrArg Host.Outcome.next (portReceive_none (s := begin_ s) h)
  · have done : Runs (.uplinkFrameReceive port bytes rxErr full ph ue) s (count1 (iUPL port.toNat) 20 (begin_ s)) :=
      congrArg Host.Outcome.next (portReceive_closed (s := begin_ s) hd h2 h)
    exact ⟨_, done, count1_out _ _ _, changes_count1 _ _ (begin_ s)⟩
  · exact congrArg Host.Outcome.next (portReceive_looped (s := begin_ s) hd h2 ho hl)
  · have done : Runs (.uplinkFrameReceive port bytes rxErr full ph ue) s (count1 (iUPL port.toNat) 4 (begin_ s)) :=
      congrArg Host.Outcome.next ((portReceive_open (s := begin_ s) hd h2 ho hl).trans (portTake_short hn))
    exact ⟨_, done, count1_out _ _ _, changes_count1 _ _ (begin_ s)⟩
  · intro a hup hsrc hb hlen hmark hst htid hhnd hmax hlf hlk hlo hse hpa hla hpg hfr hag hn he
    have arrives := portArrive_eq (s := begin_ s) (p := port.toNat) (bytes := bytes) (rxErr := rxErr) hup hsrc hb hlen hmark hst htid hhnd hmax hlf hlk
      hlo hse hpa hla hpg hfr hag
    rw [hb] at he
    obtain ⟨lost, rest⟩ := port_receives (begin_ s) port.toNat ph.toNat bytes rxErr full ue a hd h2 ho hl hn he arrives
    refine ⟨fun k => ⟨_, rfl, lost k⟩, fun k => ?_⟩
    obtain ⟨taken, refused, held⟩ := rest k
    refine ⟨fun hh hb => ?_, fun hh hb => ⟨_, rfl, refused hh (bufFull_begin.trans hb)⟩, fun hh => ⟨_, rfl, held hh⟩⟩
    obtain ⟨entered, change⟩ := taken hh (bufFull_begin.trans hb)
    exact ⟨_, rfl, entered.of_begin, change⟩
  · intro s i n q part a r f hi hl hn hf h0 hs hp ha hm hk hlast hd hq low high hh hr h1 h2
    obtain ⟨t, st, k, g, rest⟩ := step_enqueue hi hl hn hf h0 hp ha hm hk hlast hd hq ⟨low, high, hr, hh, h1, h2⟩
    exact ⟨t, k, g, st, rest⟩

end Sys2Proof.Machine
end

section
/-!
SUPPORT. Sends that start, and the ends of their segment lists (R171, R305, R306, R319).
-/

namespace Sys2Proof.Machine

-- one declaration at a time: the package is compiled as one text within a limit of memory
set_option Elab.async false

/-- A ring without its reads, its reserved slots and its pace: what fetching on leaves alone (R300, R312, R319). -/
def Ring.sansPace (r : Ring) : Ring := { r with rdN := 0, rescan := false, rsv := 0, stopped := false }

theorem Ring.eq_of_sansPace {β : Type} (f : Ring → β) (hf : ∀ r : Ring, f r.sansPace = f r) {r r' : Ring} (h : r.sansPace = r'.sansPace) :
    f r = f r' := by rw [← hf r, h, hf]

/-- From `s` to `t` the rings fetch on and no more: what is staged, what falls due and the counters of objects stand. -/
structure Paces (s t : State) : Prop where
  ring : ∀ k n, (ringOf t k n).sansPace = (ringOf s k n).sansPace
  staged : t.hrd.staged = s.hrd.staged
  later : t.hrd.later = s.hrd.later
  obj : t.cnt.obj = s.cnt.obj
  changes : Changes [.hrd, .cnt] s t

section
variable {s t u : State} {k : RingKind} {n : Nat}

theorem Paces.refl (s : State) : Paces s s := ⟨fun _ _ => rfl, rfl, rfl, rfl, changes_refl _ s⟩

theorem Paces.trans (h : Paces s t) (g : Paces t u) : Paces s u :=
  ⟨fun k n => (g.ring k n).trans (h.ring k n), g.staged.trans h.staged, g.later.trans h.later, g.obj.trans h.obj, h.changes.trans g.changes⟩

theorem Paces.jobs (h : Paces s t) (k : RingKind) (n : Nat) : (ringOf t k n).jobs = (ringOf s k n).jobs :=
  Ring.eq_of_sansPace Ring.jobs (fun _ => rfl) (h.ring k n)

theorem Paces.recs (h : Paces s t) (k : RingKind) (n : Nat) : (ringOf t k n).recs = (ringOf s k n).recs :=
  Ring.eq_of_sansPace Ring.recs (fun _ => rfl) (h.ring k n)

theorem Paces.desc (h : Paces s t) (k : RingKind) (n : Nat) : (ringOf t k n).desc = (ringOf s k n).desc :=
  Ring.eq_of_sansPace Ring.desc (fun _ => rfl) (h.ring k n)

theorem Paces.w (h : Paces s t) (k : RingKind) (n : Nat) : (ringOf t k n).w = (ringOf s k n).w :=
  Ring.eq_of_sansPace Ring.w (fun _ => rfl) (h.ring k n)

theorem Paces.maxl (h : Paces s t) (k : RingKind) (n : Nat) : (ringOf t k n).maxl = (ringOf s k n).maxl :=
  Ring.eq_of_sansPace Ring.maxl (fun _ => rfl) (h.ring k n)

theorem paces_setRing {r : Ring} (h : r.sansPace = (ringOf s k n).sansPace) : Paces s (setRing k n r s) := by
  refine ⟨fun k' n' => ?_, rfl, rfl, rfl, (changes_setRingOf k n r s).mono (by decide)⟩
  by_cases e : rkey k' n' = rkey k n
  · unfold ringOf at h ⊢
    rw [e, ← h]
    exact congrArg Ring.sansPace (tGet_tSet_same _ _ _ _)
  · rw [ringOf_setRing_other e]

theorem paces_countR (evt : Nat) (k : RingKind) (n amt : Nat) (s : State) : Paces s (countR evt k n amt s) := by
  have change : Changes [.cnt] s (countR evt k n amt s) := (ringsKeep_countR evt k n amt s).changes
  have hrd : (countR evt k n amt s).hrd = s.hrd := change .hrd (by decide)
  have obj : (countR evt k n amt s).cnt.obj = s.cnt.obj := by
    unfold countR
    split
    · exact (congrArg Cnt.obj (sansVals_countO _ _ _ _ s) :)
    · exact obj_countN _ _ _ s
  exact ⟨fun k n => congrArg Ring.sansPace (ringOf_of_ring (by rw [hrd]) k n), by rw [hrd], by rw [hrd], obj, change.mono (by decide)⟩

theorem paces_pumpReads (fuel : Nat) (s : State) : Paces s (pumpReads fuel s) := by
  have granted {h : Nat} {s u : State} (e : grantRead h s = some u) : Paces s u := by
    unfold grantRead at e
    split at e
    · cases e
    · cases e
      exact ⟨fun _ _ => rfl, rfl, rfl, rfl, (changes_hrd _ _ _).mono (by decide)⟩
  induction fuel generalizing s with
  | zero => exact .refl s
  | succ fuel ih =>
    unfold pumpReads
    split
    · next e => exact (granted e).trans (ih _)
    · split
      · next e => exact (granted e).trans (ih _)
      · exact .refl s

theorem paces_hostReads (l : List RdReq) (s : State) : Paces s (hostReads l s) :=
  Paces.trans (t := { s with hrd := { s.hrd with rq := s.hrd.rq ++ l } })
    ⟨fun _ _ => rfl, rfl, rfl, rfl, (changes_hrd _ s.out s).mono (by decide)⟩ (paces_pumpReads _ _)

theorem paces_tryFetch (k : RingKind) (n : Nat) (cover : Bool) (s : State) : Paces s (tryFetch k n cover s) := by
  unfold tryFetch
  extract_lets r want m
  split
  · exact .refl s
  · split
    · exact .refl s
    · split
      · exact paces_countR _ _ _ _ s
      · refine Paces.trans ?_ (paces_setRing rfl)
        refine Paces.trans ?_ (paces_hostReads _ _)
        exact paces_setRing rfl

theorem paces_dropRead (ch tag : Nat) (s : State) : Paces s (dropRead ch tag s) :=
  ⟨fun _ _ => rfl, rfl, rfl, rfl, (changes_hrd _ s.out s).mono (by decide)⟩

theorem paces_retryReads (s : State) : Paces s (retryReads s) := by
  have fold (l : Tab Ring) (u : State) : Paces u (l.foldl (fun s e =>
      let k := kindOf (e.1 / 4096)
      if (k == .send || k == .fill || k == .cmd) && e.2.st == .running && e.2.rdN == 0 && 0 < cqRoom s e.2.w.cq then
        tryFetch k (e.1 % 4096) false s
      else s) u) := by
    induction l generalizing u with
    | nil => exact .refl u
    | cons e l ih =>
      refine Paces.trans ?_ (ih _)
      dsimp only
      split
      · exact paces_tryFetch _ _ _ u
      · exact .refl u
  exact (paces_pumpReads _ s).trans (fold _ _)

theorem paces_paceSend (n : Nat) (s : State) : Paces s (paceSend n s) := by
  unfold paceSend
  extract_lets r now
  split
  · exact .refl s
  · exact paces_setRing rfl

/-! ## The checks rest on the ring's MAXLEN and the ring loops (R171) -/

theorem ringLoop_of_tst (h : t.tst = s.tst) (n : Nat) : ringLoop t n = ringLoop s n := by rw [ringLoop, h, ← ringLoop]

theorem sendCheck_of (hm : (ringOf t .send n).maxl = (ringOf s .send n).maxl) (ht : t.tst = s.tst) (d : Desc) : sendCheck t n d = sendCheck s n d := by
  have extra : sdExtra t n d = sdExtra s n d := by rw [sdExtra, ringLoop_of_tst ht, ← sdExtra]
  unfold sendCheck
  rw [extra, hm, ringLoop_of_tst ht]

/-! ## Jobs and records of a send (R305, R314) -/

/-- A record that takes a status: one of the descriptor that waits is ready with it. -/
def takeStatus (idx status cause due : Nat) (x : PendRec) : PendRec :=
  if x.r.index = idx ∧ !x.ready then { x with ready := true, due := due, r := { x.r with status := status, cause := cause } } else x

theorem takeStatus_ready {idx status cause due : Nat} {x : PendRec} (h : (takeStatus idx status cause due x).r.index = idx) :
    (takeStatus idx status cause due x).ready = true := by
  unfold takeStatus at h ⊢
  split
  · rfl
  · next c =>
    rw [if_neg c] at h
    simpa [h] using c

theorem ringOf_setSendRec (n idx status cause : Nat) (s : State) : ringOf (setSendRec n idx status cause s) .send n =
    { ringOf s .send n with recs := (ringOf s .send n).recs.map (takeStatus idx status cause (s.tim.now + 32)) } := ringOf_setRing_same

theorem ringOf_rejectSend (n : Nat) (d : Desc) (status cause : Nat) (s : State) : ringOf (rejectSend n d status cause s) .send n =
    { ringOf s .send n with
      jobs := (ringOf s .send n).jobs.filter (fun j => j.d.index != d.index)
      recs := (ringOf s .send n).recs.map (takeStatus d.index status cause (s.tim.now + 32)) } := by
  have hrd : (rejectSend n d status cause s).hrd = (setSendRec n d.index status cause (dropJob n d.index s)).hrd := changes_objAdd _ _ _ _ _ .hrd (by decide)
  have ring : ringOf (rejectSend n d status cause s) .send n = ringOf (setSendRec n d.index status cause (dropJob n d.index s)) .send n :=
    ringOf_of_ring (by rw [hrd]) _ _
  rw [ring, ringOf_setSendRec]
  have dropped : ringOf (dropJob n d.index s) .send n = { ringOf s .send n with jobs := (ringOf s .send n).jobs.filter (fun j => j.d.index != d.index) } :=
    ringOf_setRing_same
  rw [dropped]
  rfl

theorem rejectSend_staged (n : Nat) (d : Desc) (status cause : Nat) (s : State) : (rejectSend n d status cause s).hrd.staged = s.hrd.staged := rfl

theorem changes_rejectSend (n : Nat) (d : Desc) (status cause : Nat) (s : State) : Changes [.hrd, .cnt] s (rejectSend n d status cause s) := by
  have job : Changes [.hrd, .cnt] s (dropJob n d.index s) := (changes_setRingOf _ _ _ _).mono (by decide)
  have rec_ : Changes [.hrd, .cnt] (dropJob n d.index s) (setSendRec n d.index status cause (dropJob n d.index s)) :=
    ((changes_setRingOf _ _ _ _).trans (changes_atCycle _ _ _)).mono (by decide)
  exact (job.trans rec_).trans ((changes_objAdd _ _ _ _ _).mono (by decide))

theorem ringOf_modJob (n idx : Nat) (f : SendJob → SendJob) (s : State) : ringOf (modJob n idx f s) .send n =
    { ringOf s .send n with jobs := (ringOf s .send n).jobs.map fun j => if j.d.index = idx then f j else j } := ringOf_setRing_same

theorem changes_modJob (n idx : Nat) (f : SendJob → SendJob) (s : State) : Changes [.hrd] s (modJob n idx f s) := changes_setRingOf _ _ _ _

/-- R171: a send that a check refuses ends with its status. -/
theorem startData_rejects {j : SendJob} (h : (sendCheck s n j.d).1 ≠ 0) :
    startData n j s = rejectSend n j.d (sendCheck s n j.d).1 (sendCheck s n j.d).2 s := if_pos h

/-- R305: the data of a send that no check refuses is fetched. -/
theorem startData_fetches {j : SendJob} (h : sendCheck s n j.d = (0, 0)) :
    Paces (modJob n j.d.index (fun j => { j with ready := true, fetching := true }) s) (startData n j s) := by
  unfold startData
  rw [h]
  dsimp only
  rw [if_neg (by decide)]
  exact paces_hostReads _ _

end

end Sys2Proof.Machine
end

section
/-!
SUPPORT. A send ring starts its next send, and walks its segment list (R171, R305, R306).
-/

namespace Sys2Proof.Machine

-- one declaration at a time: the package is compiled as one text within a limit of memory
set_option Elab.async false

/-- The job of a send without a segment list. -/
def wholeJob (d : Desc) : SendJob := ⟨d, [(sdAddr d, sdL d)], 0, true, false, [], none⟩

/-- The record of a send that has started. -/
def openRec (n : Nat) (d : Desc) : PendRec :=
  { r := CRec.mk0 0 n 0 0 d.index, ready := false, due := 0, bar := false, acks := 0, frame := none, info := none, sq := none }

/-- A send ring with its next send started. -/
def Ring.sending (r : Ring) (n : Nat) (d : Desc) (l : List Desc) : Ring :=
  { r with stopped := false, desc := l, jobs := r.jobs ++ [wholeJob d], recs := r.recs ++ [openRec n d] }

section
variable {s : State} {n ch tag : Nat} {r : Ring} {d : Desc} {l : List Desc} {j : SendJob} {words : List Word} {x : HRead}

/-- R248, R319: nothing holds the next send back. -/
structure SendFree (s : State) (n : Nat) (d : Desc) (r : Ring) : Prop where
  runs : ringRuns r = true
  jobs : ∀ j ∈ r.jobs, j.ready = true ∧ j.d.index ≠ d.index
  whole : sdSgl d = false
  pace : sendPace s n r = false
  anchor : anchorWorks s n = true
  fenced : s.hrd.fenced.contains r.w.chan = false
  awake : domOn s domHP = true
  cells : hdrm s + ceilDiv (sdL d) 256 < freeCells s

theorem joinRec_runs (h : ringRuns r = true) (x : PendRec) : joinRec r x = r.recs ++ [x] := by
  refine if_neg fun halted => ?_
  have : r.st = .halted := by simpa using halted
  simp [ringRuns, this] at h

theorem sendStart_goes (hr : ringOf s .send n = r) (hd : r.desc = d :: l) (h : SendFree s n d r) :
    sendStart n s = tryFetch .send n false (startData n (wholeJob d) (setRing .send n (r.sending n d l) s)) := by
  obtain ⟨runs, jobs, whole, pace, anchor, fenced, awake, cells⟩ := h
  have all : r.jobs.all (·.ready) = true := List.all_eq_true.mpr fun j hj => (jobs j hj).1
  have join := joinRec_runs runs (openRec n d)
  unfold sendStart
  rw [hr]
  dsimp only
  rw [hd]
  dsimp only
  rw [if_neg (by simp only [runs, pace, anchor, all, fenced, awake]; simpa using cells), whole, pace]
  unfold Ring.sending
  rw [← join]
  rfl

/-- The checks are those of the ring as it was. -/
theorem sendCheck_sending : sendCheck (setRing .send n ((ringOf s .send n).sending n d l) s) n d = sendCheck s n d := by
  refine sendCheck_of (s := s) (t := setRing .send n ((ringOf s .send n).sending n d l) s) ?_ rfl d
  rw [ringOf_setRing_same]
  rfl

/-- R171, R305: a send that no check refuses fetches its data. -/
theorem sendStart_fetches (hr : ringOf s .send n = r) (hd : r.desc = d :: l) (h : SendFree s n d r) (hc : sendCheck s n d = (0, 0)) :
    (ringOf (sendStart n s) .send n).jobs.map (fun j => (j.d, j.fetching)) = r.jobs.map (fun j => (j.d, j.fetching)) ++ [(d, true)] ∧
    (ringOf (sendStart n s) .send n).desc = l ∧
    (ringOf (sendStart n s) .send n).recs.map (fun x => (x.r.index, x.ready)) = r.recs.map (fun x => (x.r.index, x.ready)) ++ [(d.index, false)] ∧
    Changes [.hrd, .cnt] s (sendStart n s) := by
  rw [sendStart_goes hr hd h]
  subst hr
  have check : sendCheck (setRing .send n ((ringOf s .send n).sending n d l) s) n (wholeJob d).d = (0, 0) := sendCheck_sending.trans hc
  have put : Changes [.hrd, .cnt] s (setRing .send n ((ringOf s .send n).sending n d l) s) := (changes_setRingOf _ _ _ _).mono (by decide)
  have ring1 : ringOf (setRing .send n ((ringOf s .send n).sending n d l) s) .send n = (ringOf s .send n).sending n d l := ringOf_setRing_same
  generalize setRing .send n ((ringOf s .send n).sending n d l) s = s1 at check put ring1
  have ring2 := ringOf_modJob n (wholeJob d).d.index (fun j => { j with ready := true, fetching := true }) s1
  have mod := (changes_modJob n (wholeJob d).d.index (fun j => { j with ready := true, fetching := true }) s1).mono (show _ ⊆ [Comp.hrd, .cnt] by decide)
  have goes := (startData_fetches check).trans (paces_tryFetch .send n false _)
  generalize modJob n (wholeJob d).d.index (fun j => { j with ready := true, fetching := true }) s1 = s2 at ring2 mod goes
  generalize tryFetch .send n false (startData n (wholeJob d) s1) = t at goes
  have others : (ringOf s .send n).jobs.map (fun j => if j.d.index = (wholeJob d).d.index then { j with ready := true, fetching := true } else j) =
      (ringOf s .send n).jobs := by
    conv_rhs => rw [← List.map_id (ringOf s .send n).jobs]
    exact List.map_congr_left fun j hj => if_neg (h.jobs j hj).2
  refine ⟨?_, ?_, ?_, (put.trans mod).trans goes.changes⟩
  · rw [goes.jobs, ring2, ring1]
    simp only [Ring.sending, List.map_append, others, List.map_cons, List.map_nil, if_true]
    rfl
  · rw [goes.desc, ring2, ring1]
    rfl
  · rw [goes.recs, ring2, ring1]
    simp only [Ring.sending, List.map_append]
    rfl

/-- R171: one that a check refuses ends with its status. -/
theorem sendStart_rejects (hr : ringOf s .send n = r) (hd : r.desc = d :: l) (h : SendFree s n d r) (hc : (sendCheck s n d).1 ≠ 0) :
    (ringOf (sendStart n s) .send n).jobs.map (·.d) = r.jobs.map (·.d) ∧ (ringOf (sendStart n s) .send n).desc = l ∧
    (ringOf (sendStart n s) .send n).recs.getLast?.map (fun x => (x.r.index, x.ready, x.r.status)) = some (d.index, true, (sendCheck s n d).1) ∧
    Changes [.hrd, .cnt] s (sendStart n s) := by
  rw [sendStart_goes hr hd h]
  subst hr
  have check : sendCheck (setRing .send n ((ringOf s .send n).sending n d l) s) n (wholeJob d).d = sendCheck s n d := sendCheck_sending
  have put : Changes [.hrd, .cnt] s (setRing .send n ((ringOf s .send n).sending n d l) s) := (changes_setRingOf _ _ _ _).mono (by decide)
  have ring1 : ringOf (setRing .send n ((ringOf s .send n).sending n d l) s) .send n = (ringOf s .send n).sending n d l := ringOf_setRing_same
  generalize setRing .send n ((ringOf s .send n).sending n d l) s = s1 at check put ring1
  rw [startData_rejects (by rw [check]; exact hc), check]
  have ring2 := ringOf_rejectSend n (wholeJob d).d (sendCheck s n d).1 (sendCheck s n d).2 s1
  have ended := changes_rejectSend n (wholeJob d).d (sendCheck s n d).1 (sendCheck s n d).2 s1
  have goes := paces_tryFetch .send n false (rejectSend n (wholeJob d).d (sendCheck s n d).1 (sendCheck s n d).2 s1)
  generalize rejectSend n (wholeJob d).d (sendCheck s n d).1 (sendCheck s n d).2 s1 = s2 at ring2 ended goes
  have others : (ringOf s .send n).jobs.filter (fun j => j.d.index != d.index) = (ringOf s .send n).jobs :=
    List.filter_eq_self.mpr fun j hj => by simpa using (h.jobs j hj).2
  refine ⟨?_, ?_, ?_, (put.trans ended).trans goes.changes⟩
  · rw [goes.jobs, ring2, ring1]
    simp [Ring.sending, List.filter_append, others, wholeJob]
  · rw [goes.desc, ring2, ring1]
    rfl
  · rw [goes.recs, ring2, ring1]
    simp [Ring.sending, takeStatus, openRec, wholeJob, CRec.mk0]

/-! ## The end of a segment list (R306) -/

/-- One entry, the last of its list. -/
theorem walkChain_last {m : Nat} (hm : 0 < m) (hw : 4 ≤ words.length) (he : bit (words.getD 2 0) 31 = true) (hl : bit (words.getD 2 0) 30 = false)
    (hn : fld (words.getD 2 0) 0 16 ≠ 0) :
    walkChain m words [] 0 = ([((words.getD 0 0).toNat + 2 ^ 32 * fld (words.getD 1 0) 0 20, fld (words.getD 2 0) 0 16)], 1, .done) := by
  obtain ⟨k, rfl⟩ : ∃ k, m = k + 1 := ⟨m - 1, by omega⟩
  unfold walkChain
  rw [if_neg (by omega)]
  dsimp only
  rw [if_neg (fun h => hn (eq_of_beq (Bool.and_eq_true_iff.mp h).2)), if_pos he, hl]
  rfl

/-- The one segment of a list that has ended. -/
abbrev onlySeg (words : List Word) : List (Nat × Nat) :=
  [((words.getD 0 0).toNat + 2 ^ 32 * fld (words.getD 1 0) 0 20, fld (words.getD 2 0) 0 16)]

/-- A job with its list walked. -/
abbrev SendJob.walkedTo (j : SendJob) (words : List Word) : SendJob := { j with segs := onlySeg words, walked := 1 }

theorem chainFetch_walks (hx : readAt s ch tag = some x) (hu : x.use = .chain n) (hj : (ringOf s .send n).jobs = [j]) (hr : j.ready = false) :
    chainFetch ch tag words false s = retryReads (chainDone n x.addr words false j (dropRead ch tag s)) := by
  unfold chainFetch
  rw [hx]
  dsimp only
  rw [hu]
  dsimp only
  rw [hj]
  simp [hr]

theorem chainDone_ends {addr : Nat} (ha : addr % 64 ≤ 48) (hs : j.segs = []) (h0 : j.walked = 0)
    (hw : 4 ≤ words.length) (he : bit (words.getD 2 0) 31 = true) (hl : bit (words.getD 2 0) 30 = false) (hn : fld (words.getD 2 0) 0 16 ≠ 0) :
    chainDone n addr words false j s = if fld (words.getD 2 0) 0 16 ≠ sdL j.d
      then rejectSend n j.d 12 0 (modJob n j.d.index (·.walkedTo words) s)
      else startData n (j.walkedTo words) (modJob n j.d.index (·.walkedTo words) s) := by
  unfold chainDone
  dsimp only
  rw [if_neg (by decide), hs, h0, walkChain_last (by omega) hw he hl hn]
  dsimp only
  have sum : (onlySeg words).foldl (fun a g => a + g.2) 0 = fld (words.getD 2 0) 0 16 := Nat.zero_add _
  by_cases c : fld (words.getD 2 0) 0 16 = sdL j.d
  · rw [if_neg (not_not.mpr c)]
    exact if_neg (not_not.mpr (sum.trans c))
  · rw [if_pos c]
    exact if_pos fun k => c (sum.symm.trans k)

/-- R306: the segments of a list that adds up are fetched. -/
theorem chainFetch_fetches (hx : readAt s ch tag = some x) (hu : x.use = .chain n) (hj : (ringOf s .send n).jobs = [j]) (hr : j.ready = false)
    (ha : x.addr % 64 ≤ 48) (hs : j.segs = []) (h0 : j.walked = 0) (hw : 4 ≤ words.length) (he : bit (words.getD 2 0) 31 = true)
    (hl : bit (words.getD 2 0) 30 = false) (hn : fld (words.getD 2 0) 0 16 ≠ 0) (hd : fld (words.getD 2 0) 0 16 = sdL j.d)
    (hc : sendCheck s n j.d = (0, 0)) :
    (ringOf (chainFetch ch tag words false s) .send n).jobs.map (fun y => (y.d, y.segs, y.fetching)) =
      [(j.d, [((words.getD 0 0).toNat + 2 ^ 32 * fld (words.getD 1 0) 0 20, sdL j.d)], true)] ∧
    Changes [.hrd, .cnt] s (chainFetch ch tag words false s) := by
  rw [chainFetch_walks hx hu hj hr, chainDone_ends ha hs h0 hw he hl hn, if_neg (not_not.mpr hd)]
  have dropped := paces_dropRead ch tag s
  have tst : (dropRead ch tag s).tst = s.tst := dropped.changes .tst (by decide)
  generalize dropRead ch tag s = s1 at dropped tst
  have ring1 := ringOf_modJob n j.d.index (·.walkedTo words) s1
  have mod1 := (changes_modJob n j.d.index (·.walkedTo words) s1).mono (show _ ⊆ [Comp.hrd, .cnt] by decide)
  generalize modJob n j.d.index (·.walkedTo words) s1 = s2 at ring1 mod1
  have tst2 : s2.tst = s1.tst := mod1 .tst (by decide)
  have maxl : (ringOf s2 .send n).maxl = (ringOf s .send n).maxl := by rw [ring1]; exact dropped.maxl .send n
  have check : sendCheck s2 n (j.walkedTo words).d = (0, 0) := (sendCheck_of maxl (tst2.trans tst) _).trans hc
  have goes := (startData_fetches check).trans (paces_retryReads _)
  have ring2 := ringOf_modJob n (j.walkedTo words).d.index (fun j => { j with ready := true, fetching := true }) s2
  have mod2 := (changes_modJob n (j.walkedTo words).d.index (fun j => { j with ready := true, fetching := true }) s2).mono
    (show _ ⊆ [Comp.hrd, .cnt] by decide)
  generalize modJob n (j.walkedTo words).d.index (fun j => { j with ready := true, fetching := true }) s2 = s3 at goes ring2 mod2
  refine ⟨?_, ((dropped.changes.trans mod1).trans mod2).trans goes.changes⟩
  rw [goes.jobs, ring2, ring1, ← hd]
  have jobs1 : (ringOf s1 .send n).jobs = [j] := (dropped.jobs .send n).trans hj
  simp [jobs1]

/-- R306: a list that does not add up ends its send with status 12. -/
theorem chainFetch_rejects (hx : readAt s ch tag = some x) (hu : x.use = .chain n) (hj : (ringOf s .send n).jobs = [j]) (hr : j.ready = false)
    (ha : x.addr % 64 ≤ 48) (hs : j.segs = []) (h0 : j.walked = 0) (hw : 4 ≤ words.length) (he : bit (words.getD 2 0) 31 = true)
    (hl : bit (words.getD 2 0) 30 = false) (hn : fld (words.getD 2 0) 0 16 ≠ 0) (hd : fld (words.getD 2 0) 0 16 ≠ sdL j.d) :
    (ringOf (chainFetch ch tag words false s) .send n).jobs = [] ∧
    (∀ y ∈ (ringOf (chainFetch ch tag words false s) .send n).recs, y.r.index = j.d.index → y.ready = true) ∧
    Changes [.hrd, .cnt] s (chainFetch ch tag words false s) := by
  rw [chainFetch_walks hx hu hj hr, chainDone_ends ha hs h0 hw he hl hn, if_pos hd]
  have dropped := paces_dropRead ch tag s
  generalize dropRead ch tag s = s1 at dropped
  have ring1 := ringOf_modJob n j.d.index (·.walkedTo words) s1
  have mod1 := (changes_modJob n j.d.index (·.walkedTo words) s1).mono (show _ ⊆ [Comp.hrd, .cnt] by decide)
  generalize modJob n j.d.index (·.walkedTo words) s1 = s2 at ring1 mod1
  have goes := paces_retryReads (rejectSend n j.d 12 0 s2)
  have ended := changes_rejectSend n j.d 12 0 s2
  have ring2 := ringOf_rejectSend n j.d 12 0 s2
  generalize rejectSend n j.d 12 0 s2 = s3 at goes ended ring2
  have jobs1 : (ringOf s1 .send n).jobs = [j] := (dropped.jobs .send n).trans hj
  refine ⟨?_, fun y hy hi => ?_, ((dropped.changes.trans mod1).trans ended).trans goes.changes⟩
  · rw [goes.jobs, ring2, ring1]
    simp [jobs1]
  · rw [goes.recs, ring2] at hy
    obtain ⟨z, -, rfl⟩ := List.mem_map.mp hy
    exact takeStatus_ready hi

end

end Sys2Proof.Machine
end

section
/-!
SUPPORT. What the parse graph, the checks of a send and its section rest on (R26, R192, R208).
-/

namespace Sys2Proof.Machine

-- one declaration at a time: the package is compiled as one text within a limit of memory
set_option Elab.async false

section
variable {s t : State} {n : Nat}

/-! ## A walk rests on the classifier alone (R208) -/

theorem clsW_of_cls (h : t.cls = s.cls) : clsW t = clsW s := by
  funext up tbl e w
  rw [clsW, clsEntry, h, ← clsEntry, ← clsW]

theorem clsDirty_of_cls (h : t.cls = s.cls) : clsDirty t = clsDirty s := by
  funext up tbl e
  rw [clsDirty, h, ← clsDirty]

theorem branch_of_cls (h : t.cls = s.cls) (up : Bool) (v e m : Nat) : branch t up v e m = branch s up v e m := by
  induction m generalizing e with
  | zero => rfl
  | succ m ih =>
    unfold branch
    rw [clsW_of_cls h, clsDirty_of_cls h, ih]

theorem walk_of_cls (h : t.cls = s.cls) (up : Bool) (b : List Byte) (wend m : Nat) : walk t up b wend m = walk s up b wend m := by
  induction m with
  | zero => rfl
  | succ m ih =>
    funext node pos r
    have next : branch t up = branch s up := by
      funext v e m
      exact branch_of_cls h up v e m
    unfold walk
    rw [clsW_of_cls h, clsDirty_of_cls h, next, ih]

theorem parse_of_cls (h : t.cls = s.cls) (up : Bool) (b : List Byte) (m : Nat) : parse t up b m = parse s up b m := by
  rw [parse, walk_of_cls h, clsW_of_cls h, clsDirty_of_cls h, ← parse]

/-! ## The checks of a send (R192) -/

/-- In `t` send ring `n` stands in the same context, at the same homes and tests, as in `s`. -/
structure SendAlike (n : Nat) (s t : State) : Prop where
  w : (ringOf t .send n).w = (ringOf s .send n).w
  maxl : (ringOf t .send n).maxl = (ringOf s .send n).maxl
  changes : Changes [.hrd, .cnt] s t

theorem SendAlike.refl (n : Nat) (s : State) : SendAlike n s s := ⟨rfl, rfl, changes_refl _ s⟩

theorem SendAlike.trans {u : State} (h : SendAlike n s t) (g : SendAlike n t u) : SendAlike n s u :=
  ⟨g.w.trans h.w, g.maxl.trans h.maxl, h.changes.trans g.changes⟩

theorem Paces.alike (h : Paces s t) (n : Nat) : SendAlike n s t := ⟨h.w .send n, h.maxl .send n, h.changes⟩

theorem SendAlike.loop (h : SendAlike n s t) : ringLoop t n = ringLoop s n := ringLoop_of_tst (h.changes .tst (by decide)) n

theorem SendAlike.owner (h : SendAlike n s t) : ringOwner t .send n = ringOwner s .send n := by
  have regs : t.regs = s.regs := h.changes .regs (by decide)
  show prtOwner t (pagePRT + 0x2000 + 4 * n) = prtOwner s (pagePRT + 0x2000 + 4 * n)
  have glb : t.glb = s.glb := h.changes .glb (by decide)
  simp only [prtOwner, reg, regs, glb]

theorem SendAlike.segCause (h : SendAlike n s t) (d : Desc) (b : List Byte) : sendSegCause t n d b = sendSegCause s n d b := by
  have extra : sdExtra t n d = sdExtra s n d := by rw [sdExtra, h.loop, ← sdExtra]
  rw [sendSegCause, h.w, h.maxl, extra, parse_of_cls (h.changes .cls (by decide)), ← sendSegCause]

/-! ## The section of its anchor (R26, R389, R404) -/

theorem SendAlike.home (h : SendAlike n s t) : anchorHome t n = anchorHome s n := by
  have homes : HomesStay s t := .of_glb (h.changes .glb (by decide))
  simp only [anchorHome, h.w, homes.homeT, homes.homeU]

theorem SendAlike.works (h : SendAlike n s t) : anchorWorks t n = anchorWorks s n := by
  have glb : t.glb = s.glb := h.changes .glb (by decide)
  have skm : t.skm = s.skm := h.changes .skm (by decide)
  simp only [anchorWorks, h.loop, h.home, h.w, lostTree, lostPort, glb, handingFrom, skm]

theorem SendAlike.ready (h : SendAlike n s t) : stageReady t n = stageReady s n := by
  have skm : t.skm = s.skm := h.changes .skm (by decide)
  have tim : t.tim = s.tim := h.changes .tim (by decide)
  unfold stageReady
  rw [h.works, h.home, h.w, tim, skm]

/-- A send whose section is ready finds its home, and the home is not being handed over. -/
theorem ready_open {a : Arrive} (hl : ringLoop s n = none) (h : (stageReady s n).1 = true) (ha : a.src = ⟨2, n⟩) :
    srcLost s a = false ∧ handingFrom s (arriveHome s a) = false ∧ arriveHome s a = anchorHome s n := by
  have works : anchorWorks s n = true := (Bool.and_eq_true_iff.mp h).1
  have home : arriveHome s a = anchorHome s n := by
    unfold arriveHome
    rw [ha, if_neg (show 2 ≠ 0 by decide), if_neg (show 2 ≠ 1 by decide)]
  have lost : srcLost s a = (if (ringOf s .send n).w.side then lostTree s (ringOf s .send n).w.anchor else lostPort s (ringOf s .send n).w.anchor) := by
    unfold srcLost
    rw [ha, if_neg (show 2 ≠ 0 by decide), if_neg (show 2 ≠ 1 by decide)]
  rw [home, lost]
  unfold anchorWorks at works
  rw [hl] at works
  simp only [Option.isSome_none, Bool.false_or, Bool.not_eq_true', Bool.or_eq_false_iff] at works
  exact ⟨works.1, works.2, rfl⟩

end

end Sys2Proof.Machine
end

section
/-!
SUPPORT. The data of a send arrives, and the send enters its section (R187, R191, R192, R318, R391).
-/

namespace Sys2Proof.Machine

-- one declaration at a time: the package is compiled as one text within a limit of memory
set_option Elab.async false

section
variable {s t u : State} {n ch tag : Nat} {j : SendJob} {bytes b : List Byte} {ue : Option Word} {x : HRead}

/-! ## Jobs, staged sends and object counters that an operation leaves alone -/

/-- From `s` to `t` the send rings keep their jobs, what is staged stays, and no counter of an object moves. -/
structure SendsStay (s t : State) : Prop where
  jobs : ∀ n < 4096, (ringOf t .send n).jobs = (ringOf s .send n).jobs
  staged : t.hrd.staged = s.hrd.staged
  obj : t.cnt.obj = s.cnt.obj

theorem SendsStay.trans (h : SendsStay s t) (g : SendsStay t u) : SendsStay s u :=
  ⟨fun n hn => (g.jobs n hn).trans (h.jobs n hn), g.staged.trans h.staged, g.obj.trans h.obj⟩

theorem Noted.sends (h : Noted s t) : SendsStay s t := by
  refine ⟨fun n hn => congrArg Ring.jobs ?_, h.staged, (congrArg Cnt.obj h.cnt :)⟩
  exact h.ring (rkey .send n) (by simp only [rkey, kcode]; omega)

theorem Paces.sends (h : Paces s t) : SendsStay s t := ⟨fun n _ => h.jobs .send n, h.staged, h.obj⟩

theorem jobs_setRing {k : RingKind} {m : Nat} {r : Ring} (h : r.jobs = (ringOf s k m).jobs) (k' : RingKind) (n : Nat) :
    (ringOf (setRing k m r s) k' n).jobs = (ringOf s k' n).jobs := by
  by_cases e : rkey k' n = rkey k m
  · unfold ringOf at h ⊢
    rw [e, ← h]
    exact congrArg Ring.jobs (tGet_tSet_same _ _ _ _)
  · rw [ringOf_setRing_other e]

theorem sendsStay_sendDone (k : Nat) (f : Frame) (s : State) : SendsStay s (sendDone k f s) := by
  unfold sendDone
  split
  · exact ⟨fun _ _ => rfl, rfl, rfl⟩
  · next o _ =>
    dsimp only
    split
    · exact ⟨fun _ _ => rfl, rfl, rfl⟩
    · refine ⟨fun n _ => ?_, rfl, rfl⟩
      refine jobs_setRing (s := s) ?_ .send n
      rfl

theorem sendsStay_takeCells (i : Nat) (a : Arrive) (s : State) : SendsStay s (takeCells i a s).2 := by
  rw [takeCells_eq]
  have next : SendsStay s (nextIno a.src s) := ⟨fun _ _ => rfl, rfl, rfl⟩
  generalize nextIno a.src s = v at next
  generalize firstFrame a s = f0
  by_cases full : (allocN (secKey i a.up) (cellsFor f0.bytes.length) v).isSome = true
  · obtain ⟨k, w, e, -, -, stored⟩ := storeFrame_some (f := f0) full
    rw [e]
    exact next.trans ((Noted.of_changes stored).sends.trans (Noted.of_changes (recvAdd_effect k w)).sends)
  · rw [storeFrame_none (Option.not_isSome_iff_eq_none.mp full)]
    unfold bufExhaust
    exact next.trans (((noted_count1 6 2 v).trans (noted_fault _ _ _ _ _ _ _ _)).sends.trans (sendsStay_sendDone 0 f0 _))

theorem sendsStay_laneMod (i d : Nat) (f : Lane → Lane) (s : State) : SendsStay s (laneMod i d f s) := ⟨fun _ _ => rfl, rfl, rfl⟩

theorem sendsStay_lanesTaken (i : Nat) (a : Arrive) (s : State) : SendsStay s (lanesTaken i a s) := by
  have pend (n : Nat) (v : State) : SendsStay v (lanePend i (b2n a.up) n v) := by
    unfold lanePend
    split
    · exact sendsStay_laneMod _ _ _ v
    · exact ⟨fun _ _ => rfl, rfl, rfl⟩
  have place (d n : Nat) (v : State) : SendsStay v (secPlace i d n v) := by
    unfold secPlace
    extract_lets k x x0 third x1 tot x2 _ s1
    have h1 : SendsStay v s1 := ⟨fun _ _ => rfl, rfl, rfl⟩
    clear_value s1
    split
    · exact (h1.trans (sendsStay_laneMod _ _ _ s1)).trans (noted_countO _ _ _ _ _).sends
    · exact h1
  exact ((noted_countO _ _ _ _ s).sends.trans (place _ _ _)).trans (pend _ _)

theorem sendsStay_ingressAt (i : Nat) (a : Arrive) (ue : Option Word) (s : State) : SendsStay s (ingressAt i a ue s) := by
  have lanes := sendsStay_lanesTaken i a s
  have taken : SendsStay s (if a.send.isNone && bufFull (lanesTaken i a s) then (onItsPage a s, count1 6 1 (lanesTaken i a s))
      else takeCells i (onItsPage a s) (lanesTaken i a s)).2 := by
    split
    · exact lanes.trans (noted_count1 _ _ _).sends
    · exact lanes.trans (sendsStay_takeCells _ _ _)
  rw [ingressAt_eq]
  dsimp only
  generalize (if a.send.isNone && bufFull (lanesTaken i a s) then (onItsPage a s, count1 6 1 (lanesTaken i a s))
      else takeCells i (onItsPage a s) (lanesTaken i a s)) = r at taken
  have turned (c : Nat) (y : Turn) : SendsStay s (atCycle c y r.2) := taken.trans (noted_hrd _ r.2.out).sends
  split
  · exact turned _ _
  · exact turned _ _

end

end Sys2Proof.Machine
end

section
/-!
SUPPORT. A send is staged, and enters its section (R187, R191, R192, R318, R391).
-/

namespace Sys2Proof.Machine

-- one declaration at a time: the package is compiled as one text within a limit of memory
set_option Elab.async false

section
variable {s t u : State} {n ch tag : Nat} {j : SendJob} {bytes b : List Byte} {ue : Option Word} {x : HRead}

/-! ## Staging (R187, R191, R192) -/

theorem sendStage_untagged (hl : ringLoop s n = none) (h : sendBytes j.d (sdVins j.d) (joined j.got) = none) :
    sendStage n j s = rejectSend n j.d 10 0 s := by
  have vins : (sdVins j.d && (ringLoop s n).isNone) = sdVins j.d := by rw [hl]; exact Bool.and_true _
  unfold sendStage
  dsimp only
  rw [vins, h]

/-- The cause of R192 that refuses the segmentation of a send; 0 for one that asks for none. -/
def stageCause (s : State) (n : Nat) (d : Desc) (b : List Byte) : Nat := if sdSeg d = 0 then 0 else sendSegCause s n d b

theorem sendStage_unsegmented (hl : ringLoop s n = none) (h : sendBytes j.d (sdVins j.d) (joined j.got) = some b) (hc : stageCause s n j.d b ≠ 0) :
    sendStage n j s = rejectSend n j.d 11 (stageCause s n j.d b) s := by
  have vins : (sdVins j.d && (ringLoop s n).isNone) = sdVins j.d := by rw [hl]; exact Bool.and_true _
  have cause : stageCause s n j.d b = if sdSeg j.d = 0 ∨ (ringLoop s n).isSome = true then 0 else sendSegCause s n j.d b := by
    rw [stageCause, hl]
    simp
  rw [cause] at hc ⊢
  unfold sendStage
  dsimp only
  rw [vins, h]
  exact if_pos hc

/-- A send in staging: its job has ended, its record waits. -/
def stagedSend (g : Staged) (recs : List PendRec) (idx : Nat) (s : State) : State :=
  { dropJob g.ring idx (setRing .send g.ring { ringOf s .send g.ring with recs := recs } s) with
    hrd := { (dropJob g.ring idx (setRing .send g.ring { ringOf s .send g.ring with recs := recs } s)).hrd with staged := s.hrd.staged ++ [g] } }

/-- What a staged send asks of its frame. -/
structure Asks (n : Nat) (d : Desc) (o : SendOpt) : Prop where
  ring : o.ring = n
  index : o.index = d.index
  seg : o.seg = sdSeg d
  ipck : o.ipck = sdIpck d
  l4ck : o.l4ck = sdL4ck d

theorem sendStage_stages (hl : ringLoop s n = none) (h : sendBytes j.d (sdVins j.d) (joined j.got) = some b) (hc : stageCause s n j.d b = 0) :
    ∃ o recs, Asks n j.d o ∧ sendStage n j s = stagedSend ⟨n, b, o, j.ue⟩ recs j.d.index s := by
  have vins : (sdVins j.d && (ringLoop s n).isNone) = sdVins j.d := by rw [hl]; exact Bool.and_true _
  have cause : stageCause s n j.d b = if sdSeg j.d = 0 ∨ (ringLoop s n).isSome = true then 0 else sendSegCause s n j.d b := by
    rw [stageCause, hl]
    simp
  rw [cause] at hc
  unfold sendStage
  dsimp only
  rw [vins, h]
  refine ⟨_, _, ?_, if_neg (not_not.mpr hc)⟩
  rw [hl]
  exact ⟨rfl, rfl, rfl, Bool.and_true _, Bool.and_true _⟩

theorem stagedSend_effect (g : Staged) (recs : List PendRec) (idx : Nat) (s : State) :
    (ringOf (stagedSend g recs idx s) .send g.ring).jobs = (ringOf s .send g.ring).jobs.filter (fun j => j.d.index != idx) ∧
    (stagedSend g recs idx s).hrd.staged = s.hrd.staged ++ [g] ∧ (stagedSend g recs idx s).cnt.obj = s.cnt.obj ∧
    SendAlike g.ring s (stagedSend g recs idx s) := by
  have first : ringOf (setRing .send g.ring { ringOf s .send g.ring with recs := recs } s) .send g.ring = { ringOf s .send g.ring with recs := recs } :=
    ringOf_setRing_same
  have ring : ringOf (stagedSend g recs idx s) .send g.ring = { ringOf s .send g.ring with
      recs := recs, jobs := (ringOf s .send g.ring).jobs.filter (fun j => j.d.index != idx) } := by
    refine Eq.trans (ringOf_setRing_same (s := setRing .send g.ring { ringOf s .send g.ring with recs := recs } s)) ?_
    rw [first]
  exact ⟨by rw [ring], rfl, rfl, by rw [ring], by rw [ring], (changes_hrd _ s.out s).mono (by decide)⟩

/-! ## A staged send enters its section (R26, R318) -/

theorem stageRun_none (h : s.hrd.staged = []) : stageRun s = s := by
  unfold stageRun
  rw [h]
  rfl

/-- Nothing is staged any more. -/
def unstaged (s : State) : State := { s with hrd := { s.hrd with staged := [] } }

theorem stageRun_one {g : Staged} (h : s.hrd.staged = [g]) (hr : (stageReady s g.ring).1 = true) : stageRun s = stageEnter g (unstaged s) := by
  unfold stageRun
  rw [h, List.foldl_cons, List.foldl_nil]
  dsimp only
  rw [if_pos (by rw [hr, Bool.or_true]), h]
  have rest : [g].erase g = [] := by simp
  rw [rest]
  rfl

theorem unstaged_alike (n : Nat) (s : State) : SendAlike n s (unstaged s) := ⟨rfl, rfl, (changes_hrd _ s.out s).mono (by decide)⟩

/-- A send is counted for its ring. -/
def sendCounted (g : Staged) (s : State) : State :=
  countR 0 .send g.ring 1 (countR 1 .send g.ring g.bytes.length (objAdd 3 g.ring 0 1 (objAdd 3 g.ring 1 g.bytes.length s)))

theorem objAdd_alike (a m e k n : Nat) (s : State) : SendAlike n s (objAdd a m e k s) ∧ (objAdd a m e k s).hrd = s.hrd := by
  have change := changes_objAdd a m e k s
  have hrd : (objAdd a m e k s).hrd = s.hrd := change .hrd (by decide)
  have ring : ringOf (objAdd a m e k s) .send n = ringOf s .send n := ringOf_of_ring (by rw [hrd]) _ _
  exact ⟨⟨by rw [ring], by rw [ring], change.mono (by decide)⟩, hrd⟩

theorem sendCounted_effect (g : Staged) (s : State) : SendAlike g.ring s (sendCounted g s) ∧
    (∀ m, (ringOf (sendCounted g s) .send m).jobs = (ringOf s .send m).jobs) ∧ (sendCounted g s).hrd.staged = s.hrd.staged ∧
    (sendCounted g s).hrd.later = s.hrd.later ∧
    tGet 0 (sendCounted g s).cnt.obj ((3 * 131072 + g.ring) * 4) = (tGet 0 s.cnt.obj ((3 * 131072 + g.ring) * 4) + 1) % 2 ^ 48 := by
  obtain ⟨a1, h1⟩ := objAdd_alike 3 g.ring 1 g.bytes.length g.ring s
  obtain ⟨a2, h2⟩ := objAdd_alike 3 g.ring 0 1 g.ring (objAdd 3 g.ring 1 g.bytes.length s)
  have one := tGet_objAdd_same 3 g.ring 0 1 (objAdd 3 g.ring 1 g.bytes.length s)
  have rest : tGet 0 (objAdd 3 g.ring 1 g.bytes.length s).cnt.obj ((3 * 131072 + g.ring) * 4 + 0) = tGet 0 s.cnt.obj ((3 * 131072 + g.ring) * 4 + 0) :=
    tGet_objAdd_other (by omega) _
  rw [rest] at one
  unfold sendCounted
  generalize objAdd 3 g.ring 0 1 (objAdd 3 g.ring 1 g.bytes.length s) = v at a2 h2 one
  have c := (paces_countR 1 .send g.ring g.bytes.length v).trans (paces_countR 0 .send g.ring 1 _)
  have hrd : v.hrd = s.hrd := h2.trans h1
  refine ⟨(a1.trans a2).trans (c.alike _), fun m => (c.jobs .send m).trans (congrArg Ring.jobs (ringOf_of_ring (by rw [hrd]) .send m)),
    by rw [c.staged, hrd], by rw [c.later, hrd], ?_⟩
  rw [c.obj]
  exact one

theorem stageEnter_eq {g : Staged} (hl : ringLoop s g.ring = none) :
    stageEnter g s = paceSend g.ring (ingress (sendArrive s g.ring g.bytes g.opt) g.ue (sendCounted g s)) := by
  unfold stageEnter
  dsimp only
  rw [hl]
  rfl

/-- R318, R391: a staged send whose section is ready enters it, and is counted. -/
theorem stageEnter_enters {g : Staged} (hl : ringLoop s g.ring = none) (hr : (stageReady s g.ring).1 = true) (hn : g.ring < 4096) :
    Entered (sendArrive s g.ring g.bytes g.opt) g.ue s (stageEnter g s) ∧
    (ringOf (stageEnter g s) .send g.ring).jobs = (ringOf s .send g.ring).jobs ∧ (stageEnter g s).hrd.staged = s.hrd.staged ∧
    tGet 0 (stageEnter g s).cnt.obj ((3 * 131072 + g.ring) * 4) = (tGet 0 s.cnt.obj ((3 * 131072 + g.ring) * 4) + 1) % 2 ^ 48 ∧
    Changes entering s (stageEnter g s) := by
  rw [stageEnter_eq hl]
  obtain ⟨alike, jobs, staged, later, one⟩ := sendCounted_effect g s
  generalize sendCounted g s = v at alike jobs staged later one
  have src : (sendArrive s g.ring g.bytes g.opt).src = ⟨2, g.ring⟩ := rfl
  have frame : (sendArrive s g.ring g.bytes g.opt).frame = none := rfl
  have send : (sendArrive s g.ring g.bytes g.opt).send = some g.opt := rfl
  generalize sendArrive s g.ring g.bytes g.opt = a at src frame send
  obtain ⟨lost, hand, home⟩ := ready_open (a := a) (alike.loop.trans hl) (by rw [alike.ready]; exact hr) src
  obtain ⟨-, -, home0⟩ := ready_open (a := a) hl hr src
  obtain ⟨entered, change⟩ := ingressAt_enters (s := v) (ue := g.ue) frame (fun none_ => by rw [send] at none_; cases none_) rfl
  have stay := sendsStay_ingressAt (arriveHome v a) a g.ue v
  rw [ingress_taken lost hand]
  generalize ingressAt (arriveHome v a) a g.ue v = w at entered change stay
  have pace := paces_paceSend g.ring w
  have same : arriveHome v a = arriveHome s a := by rw [home, home0, alike.home]
  have before := entered.after (alike.changes .qbm (by decide)) (alike.changes .pwr (by decide)) (alike.changes .tim (by decide))
    (alike.changes .cls (by decide)) (alike.changes .upl (by decide)) same
  refine ⟨before.then (pace.changes .qbm (by decide)) (fun e he => by rw [pace.later]; exact he), ?_, ?_, ?_,
    ((alike.changes.mono (by decide)).trans change).trans (pace.changes.mono (by decide))⟩
  · rw [pace.jobs, stay.jobs _ hn, jobs]
  · rw [pace.staged, stay.staged, staged]
  · rw [pace.obj, stay.obj, one]

end

end Sys2Proof.Machine
end

section
/-!
SUPPORT. The data of a send arrives (R318, R331).
-/

namespace Sys2Proof.Machine

-- one declaration at a time: the package is compiled as one text within a limit of memory
set_option Elab.async false

section
variable {s t u : State} {n ch tag : Nat} {j : SendJob} {bytes b : List Byte} {ue : Option Word} {x : HRead}

/-- A job with the data of its only burst. -/
def SendJob.withData (j : SendJob) (bytes : List Byte) (ue : Option Word) : SendJob :=
  { j with got := [(0, bytes)], ue := if ue.isSome then ue else j.ue }

theorem joined_withData (j : SendJob) (bytes : List Byte) (ue : Option Word) : joined (j.withData bytes ue).got = bytes := by
  show bytes ++ [] = bytes
  exact List.append_nil _

theorem have_withData (j : SendJob) (bytes : List Byte) (ue : Option Word) : (j.withData bytes ue).have = bytes.length := Nat.zero_add _

/-- The state in which the send's data is whole, before it is staged. -/
structure DataWhole (n : Nat) (j : SendJob) (s u : State) : Prop where
  jobs : (ringOf u .send n).jobs = [j]
  staged : u.hrd.staged = s.hrd.staged
  obj : u.cnt.obj = s.cnt.obj
  alike : SendAlike n s u

/-- R318: the burst that makes a send's data whole stages it, and the staged sends enter as they may. -/
theorem sendData_arrives (hx : readAt s ch tag = some x) (hu : x.use = .sendData n j.d.index 0) (hj : (ringOf s .send n).jobs = [j])
    (hf : j.fetching = true) (hg : j.got = []) (hl : bytes.length = x.len) (hd : bytes.length = sdL j.d) :
    ∃ u, DataWhole n (j.withData bytes ue) s u ∧ sendData ch tag bytes false ue s =
      tryFetch .send n false (paceSend n (stageRun (sendStage n (j.withData bytes ue) u))) := by
  have dropped := paces_dropRead ch tag s
  have ring1 := ringOf_modJob n j.d.index (fun j => { j with got := j.got ++ [(0, bytes)], ue := if ue.isSome then ue else j.ue }) (dropRead ch tag s)
  have mod1 := (changes_modJob n j.d.index (fun j => { j with got := j.got ++ [(0, bytes)], ue := if ue.isSome then ue else j.ue })
    (dropRead ch tag s)).mono (show _ ⊆ [Comp.hrd, .cnt] by decide)
  have stay1 : (modJob n j.d.index (fun j => { j with got := j.got ++ [(0, bytes)], ue := if ue.isSome then ue else j.ue }) (dropRead ch tag s)).hrd.staged =
      s.hrd.staged := rfl
  have obj1 : (modJob n j.d.index (fun j => { j with got := j.got ++ [(0, bytes)], ue := if ue.isSome then ue else j.ue }) (dropRead ch tag s)).cnt.obj =
      s.cnt.obj := rfl
  have run : sendData ch tag bytes false ue s =
      tryFetch .send n false (paceSend n (stageRun (stageJobs n (ringOf (modJob n j.d.index
        (fun j => { j with got := j.got ++ [(0, bytes)], ue := if ue.isSome then ue else j.ue }) (dropRead ch tag s)) .send n).jobs.length
        (paceSend n (retryReads (modJob n j.d.index
          (fun j => { j with got := j.got ++ [(0, bytes)], ue := if ue.isSome then ue else j.ue }) (dropRead ch tag s))))))) := by
    unfold sendData
    rw [hx]
    dsimp only
    rw [hu]
    dsimp only
    rw [if_neg (by decide), if_neg (not_not.mpr hl)]
  rw [run]
  generalize modJob n j.d.index (fun j => { j with got := j.got ++ [(0, bytes)], ue := if ue.isSome then ue else j.ue }) (dropRead ch tag s) = s2 at ring1 mod1 stay1 obj1
  have jobs0 : (ringOf (dropRead ch tag s) .send n).jobs = [j] := (dropped.jobs .send n).trans hj
  have jobs2 : (ringOf s2 .send n).jobs = [j.withData bytes ue] := by
    rw [ring1, jobs0, List.map_cons, List.map_nil, if_pos rfl, hg]
    rfl
  have pace := (paces_retryReads s2).trans (paces_paceSend n _)
  generalize paceSend n (retryReads s2) = u at pace
  have jobs3 : (ringOf u .send n).jobs = [j.withData bytes ue] := (pace.jobs .send n).trans jobs2
  have alike : SendAlike n s s2 := ⟨by rw [ring1]; exact dropped.w .send n, by rw [ring1]; exact dropped.maxl .send n, dropped.changes.trans mod1⟩
  refine ⟨u, ⟨jobs3, pace.staged.trans stay1, pace.obj.trans obj1, alike.trans (pace.alike n)⟩, ?_⟩
  have staged : stageJobs n 1 u = sendStage n (j.withData bytes ue) u := by
    unfold stageJobs
    rw [jobs3]
    dsimp only
    rw [have_withData, hd, show (j.withData bytes ue).fetching = true from hf, show sdL (j.withData bytes ue).d = sdL j.d from rfl, if_pos (by simp)]
    rfl
  rw [jobs2, List.length_singleton, staged]

/-- A send that its data ends: nothing is staged. -/
theorem sendData_ends {status cause : Nat} (whole : DataWhole n (j.withData bytes ue) s u) (h0 : s.hrd.staged = [])
    (h : sendStage n (j.withData bytes ue) u = rejectSend n j.d status cause u) :
    ∃ t, tryFetch .send n false (paceSend n (stageRun (sendStage n (j.withData bytes ue) u))) = t ∧
      (ringOf t .send n).jobs = [] ∧ t.hrd.staged = [] ∧ (∀ y ∈ (ringOf t .send n).recs, y.r.index = j.d.index → y.ready = true) ∧
      Changes [.hrd, .cnt] s t := by
  refine ⟨_, rfl, ?_⟩
  have none_ : (rejectSend n j.d status cause u).hrd.staged = [] := (rejectSend_staged n j.d status cause u).trans (whole.staged.trans h0)
  rw [h, stageRun_none none_]
  have ring := ringOf_rejectSend n j.d status cause u
  have ended := changes_rejectSend n j.d status cause u
  have goes := (paces_paceSend n (rejectSend n j.d status cause u)).trans (paces_tryFetch .send n false _)
  generalize rejectSend n j.d status cause u = v at none_ ring ended goes
  refine ⟨?_, goes.staged.trans none_, fun y hy hi => ?_, (whole.alike.changes.trans ended).trans goes.changes⟩
  · rw [goes.jobs, ring, whole.jobs]
    simp [SendJob.withData]
  · rw [goes.recs, ring] at hy
    obtain ⟨z, -, rfl⟩ := List.mem_map.mp hy
    exact takeStatus_ready hi

theorem SendAlike.cause (h : SendAlike n s t) (d : Desc) (b : List Byte) : stageCause t n d b = stageCause s n d b := by
  rw [stageCause, h.segCause, ← stageCause]

/-- R318, R391: a send that no check refuses enters the section of its anchor. -/
theorem sendData_enters (whole : DataWhole n (j.withData bytes ue) s u) (h0 : s.hrd.staged = []) (hn : n < 4096) (hl : ringLoop s n = none)
    (hb : sendBytes j.d (sdVins j.d) bytes = some b) (hc : stageCause s n j.d b = 0) (hr : (stageReady s n).1 = true) :
    ∃ t a o, tryFetch .send n false (paceSend n (stageRun (sendStage n (j.withData bytes ue) u))) = t ∧ Asks n j.d o ∧
      (ringOf t .send n).jobs = [] ∧ t.hrd.staged = [] ∧ a.up = (ringOf s .send n).w.side ∧ a.src = ⟨2, n⟩ ∧ a.bytes = b ∧ a.n = b.length + 4 ∧
      a.mark = .good ∧ a.stamp = s.tim.time ∧ a.part = some (ringOwner s .send n) ∧ a.send = some o ∧
      Entered a (if ue.isSome then ue else j.ue) s t ∧
      tGet 0 t.cnt.obj ((3 * 131072 + n) * 4) = (tGet 0 s.cnt.obj ((3 * 131072 + n) * 4) + 1) % 2 ^ 48 ∧ Changes entering s t := by
  obtain ⟨jobs, staged0, obj, alike⟩ := whole
  obtain ⟨o, recs, asks, stage⟩ := sendStage_stages (s := u) (j := j.withData bytes ue) (alike.loop.trans hl) (by rw [joined_withData]; exact hb)
    ((alike.cause _ _).trans hc)
  rw [stage]
  have effect := stagedSend_effect ⟨n, b, o, (j.withData bytes ue).ue⟩ recs (j.withData bytes ue).d.index u
  generalize stagedSend ⟨n, b, o, (j.withData bytes ue).ue⟩ recs (j.withData bytes ue).d.index u = v at effect
  obtain ⟨jobs1, staged1, obj1, alike1⟩ := effect
  have one : v.hrd.staged = [⟨n, b, o, (j.withData bytes ue).ue⟩] := by rw [staged1, staged0, h0]; rfl
  have to_v : SendAlike n s v := alike.trans alike1
  rw [stageRun_one one (by rw [to_v.ready]; exact hr)]
  have to_w : SendAlike n s (unstaged v) := to_v.trans (unstaged_alike n v)
  have jobs2 : (ringOf (unstaged v) .send n).jobs = [] := by
    refine Eq.trans (b := (ringOf v .send n).jobs) rfl (jobs1.trans ?_)
    rw [jobs]
    simp [SendJob.withData]
  have obj2 : (unstaged v).cnt.obj = s.cnt.obj := (obj1.trans obj :)
  have staged2 : (unstaged v).hrd.staged = [] := rfl
  generalize unstaged v = w at to_w jobs2 obj2 staged2
  have enters := stageEnter_enters (s := w) (g := ⟨n, b, o, (j.withData bytes ue).ue⟩) (to_w.loop.trans hl) (by rw [to_w.ready]; exact hr) hn
  generalize stageEnter ⟨n, b, o, (j.withData bytes ue).ue⟩ w = z at enters
  obtain ⟨entered, jobs3, staged3, count3, change3⟩ := enters
  have goes := (paces_paceSend n z).trans (paces_tryFetch .send n false _)
  have tim : w.tim = s.tim := to_w.changes .tim (by decide)
  have home : arriveHome w (sendArrive w n b o) = arriveHome s (sendArrive w n b o) := by
    have src : (sendArrive w n b o).src = ⟨2, n⟩ := rfl
    obtain ⟨-, -, home_w⟩ := ready_open (to_w.loop.trans hl) (by rw [to_w.ready]; exact hr) src
    obtain ⟨-, -, home_s⟩ := ready_open hl hr src
    rw [home_w, home_s, to_w.home]
  have before := (entered.after (to_w.changes .qbm (by decide)) (to_w.changes .pwr (by decide)) tim (to_w.changes .cls (by decide))
    (to_w.changes .upl (by decide)) home).then (goes.changes .qbm (by decide)) (fun e he => by rw [goes.later]; exact he)
  refine ⟨_, sendArrive w n b o, o, rfl, asks, ?_, ?_, congrArg W6.side to_w.w, rfl, rfl, rfl, rfl, congrArg Tim.time tim,
    congrArg some to_w.owner, rfl, before, ?_, ((to_w.changes.mono (by decide)).trans change3).trans (goes.changes.mono (by decide))⟩
  · rw [goes.jobs, jobs3, jobs2]
  · rw [goes.staged, staged3, staged2]
  · rw [goes.obj, count3, obj2]

/-- R331: a failed data read halts the ring. -/
theorem sendData_fails (hx : readAt s ch tag = some x) (hu : x.use = .sendData n j.d.index 0) (hr : ringRuns (ringOf s .send n) = true)
    (hq : (ringOf s .send n).quiescing = none) :
    ∃ t, sendData ch tag bytes true ue s = t ∧ (ringOf t .send n).st = .halted ∧
      (ringOf t .send n).hstat = 15 ∧ (ringOf t .send n).hindex = j.d.index ∧ bit (fltOf t 4).st 0 = true ∧ Changes faulted s t := by
  have run : sendData ch tag bytes true ue s = retryReads (sendReadFail n j.d.index 2 x.addr 1 (dropRead ch tag s)) := by
    unfold sendData
    rw [hx]
    dsimp only
    rw [hu]
    rfl
  have live : ((ringOf (dropRead ch tag s) .send n).st != .halted) = true := by
    unfold ringRuns at hr
    show ((ringOf s .send n).st != .halted) = true
    cases hst : (ringOf s .send n).st <;> simp_all
  have halts : sendReadFail n j.d.index 2 x.addr 1 (dropRead ch tag s) = haltAs false .send n 15 2 j.d.index x.addr 1 (dropRead ch tag s) := if_pos live
  obtain ⟨t, e, st, hstat, hindex, flt, -, -, change⟩ := haltAs_effect (s := dropRead ch tag s) (status := 15) (cause := 2) (idx := j.d.index) (addr := x.addr) (acc := 1)
    false (k := .send) (n := n) (by decide) hr hq
  obtain ⟨st2, hstat2, hindex2, flt2, change2⟩ := retryReads_halted (k := .send) (n := n) flt
  rw [run, halts, e]
  exact ⟨_, rfl, st2.trans st, hstat2.trans hstat, hindex2.trans hindex, flt2,
    (((paces_dropRead ch tag s).changes.mono (by decide)).trans change).trans change2⟩

end

/-- Settles O35. -/
theorem sendsStart : Obligations.SendsStart := by
  unfold Obligations.SendsStart
  refine ⟨fun s ring r hr => ⟨fun d l hd runs jobs whole pace anchor fenced awake cells _ => ⟨fun hc => ?_, fun hc => ?_⟩, ?_⟩, ?_⟩
  · exact ⟨_, rfl, sendStart_fetches (s := begin_ s) hr.symm hd ⟨runs, jobs, whole, pace, anchor, fenced, awake, cells⟩ hc⟩
  · exact ⟨_, rfl, sendStart_rejects (s := begin_ s) hr.symm hd ⟨runs, jobs, whole, pace, anchor, fenced, awake, cells⟩ hc⟩
  · intro chan tag x j words hx hu ha hj hrd hs h0 hw he hl hn
    rw [hr] at hj
    exact ⟨fun hd hc => ⟨_, rfl, chainFetch_fetches (s := begin_ s) hx hu hj hrd ha hs h0 hw he hl hn hd hc⟩,
      fun hd => ⟨_, rfl, chainFetch_rejects (s := begin_ s) hx hu hj hrd ha hs h0 hw he hl hn hd⟩⟩
  · intro s chan tag x n j bytes ue hx hu hn hj hf hg
    refine ⟨fun hl hd loop h0 => ?_, fun hr hq => ?_⟩
    · obtain ⟨u, whole, run⟩ := sendData_arrives (s := begin_ s) (ue := ue) hx hu hj hf hg hl hd
      have loop_u : ringLoop u n = none := whole.alike.loop.trans loop
      have same : ∀ d b, sendSegCause (begin_ s) n d b = sendSegCause s n d b := (show SendAlike n s (begin_ s) from ⟨rfl, rfl, changes_refl _ s⟩).segCause
      have joined_ := joined_withData j bytes ue
      refine ⟨fun none_ => ?_, fun b hb => ⟨fun seg cause => ?_, fun free ready => ?_⟩⟩
      · obtain ⟨t, e, rest⟩ := sendData_ends whole h0 (sendStage_untagged loop_u (by rw [joined_]; exact none_))
        exact ⟨t, congrArg Host.Outcome.next (run.trans e), rest⟩
      · have stage : stageCause u n j.d b ≠ 0 := by
          rw [whole.alike.cause, stageCause, if_neg seg, same]
          exact cause
        obtain ⟨t, e, rest⟩ := sendData_ends whole h0 (sendStage_unsegmented (j := j.withData bytes ue) loop_u (by rw [joined_]; exact hb) stage)
        exact ⟨t, congrArg Host.Outcome.next (run.trans e), rest⟩
      · have stage : stageCause (begin_ s) n j.d b = 0 := by
          unfold stageCause
          split
          · rfl
          · next seg => exact (same j.d b).trans (free.resolve_left seg)
        have small : n < 4096 := Nat.lt_trans hn (by decide)
        obtain ⟨t, a, o, e, ⟨ring, index, seg, ipck, l4ck⟩, jobs, staged, up, src, by_, len, mark, stamp, part, send, entered, count, change⟩ :=
          sendData_enters whole h0 small loop hb stage ready
        exact ⟨t, a, o, congrArg Host.Outcome.next (run.trans e), jobs, staged, up, src, by_, len, mark, stamp, part, send, ring, index, seg, ipck, l4ck,
          entered.of_begin, count, change .regs (by decide), change .chn (by decide), change .cpe (by decide), change .tst (by decide),
          change .pending (by decide)⟩
    · obtain ⟨t, e, rest⟩ := sendData_fails (s := begin_ s) (bytes := bytes) (ue := ue) hx hu hr hq
      exact ⟨t, congrArg Host.Outcome.next e, rest⟩

end Sys2Proof.Machine
end

section
/-!
SUPPORT. What leaves the registers and the clock alone: the frames and queues of the buffer (R32, R34, R263 to R266).
-/

namespace Sys2Proof.Machine

-- one declaration at a time: the package is compiled as one text within a limit of memory
set_option Elab.async false

/-- From `s` to `t` the registers and the clock stand. -/
structure Steady (s t : State) : Prop where
  tim : t.tim = s.tim
  regs : t.regs = s.regs

section
variable {s t u : State}

theorem Steady.refl (s : State) : Steady s s := ⟨rfl, rfl⟩

theorem Steady.trans (h : Steady s t) (g : Steady t u) : Steady s u := ⟨g.tim.trans h.tim, g.regs.trans h.regs⟩

theorem Steady.of_changes {l : List Comp} (h : Changes l s t) (hl : Comp.tim ∉ l ∧ Comp.regs ∉ l := by decide) : Steady s t :=
  ⟨h .tim hl.1, h .regs hl.2⟩

theorem Steady.foldl {α : Type} {f : State → α → State} (h : ∀ s x, Steady s (f s x)) (l : List α) (s : State) : Steady s (l.foldl f s) := by
  induction l generalizing s with
  | nil => exact .refl s
  | cons x l ih => exact (h s x).trans (ih _)

theorem Steady.ite {c : Prop} [Decidable c] (h : c → Steady s t) (g : ¬c → Steady s u) : Steady s (if c then t else u) := by
  split
  · next k => exact h k
  · next k => exact g k

theorem Freed.steady (h : Freed s t) : Steady s t := .of_changes h.changes

theorem steady_qbm (q : Qbm) (s : State) : Steady s { s with qbm := q } := ⟨rfl, rfl⟩

theorem steady_count1 (i e : Nat) (s : State) : Steady s (count1 i e s) := .of_changes (changes_count1 i e s)

theorem steady_countO (i e o a : Nat) (s : State) : Steady s (countO i e o a s) := .of_changes (changes_countO i e o a s)

theorem steady_fault (i b : Nat) (cap0 : Word) (acc mkind mnum part : Nat) (s : State) : Steady s (fault i b cap0 acc mkind mnum part s) :=
  .of_changes (changes_fault _ _ _ _ _ _ _ s)

theorem steady_release1 (n : Nat) (s : State) : Steady s (release1 n s) := (freed_release1 n s).steady

theorem steady_withdraw (n : Nat) (s : State) : Steady s (withdraw n s) := by
  have head (q m : Nat) (v : State) : Steady v (headGone q m v) := .ite (fun _ => steady_qbm _ v) fun _ => .refl v
  have drop (q : Nat) (l : List Token) (v : State) : Steady v (l.foldl (fun s t => release1 t.frame (addChg q (-(t.est : Int)) s)) v) :=
    .foldl (fun v t => (steady_qbm _ v).trans (steady_release1 _ _)) l v
  unfold withdraw
  exact .foldl (fun v e => .ite (fun _ => .refl v) fun _ => ((head _ _ v).trans (steady_qbm _ _)).trans (drop _ _ _)) _ s

theorem steady_markCell (c : Nat) (s : State) : Steady s (markCell c s) := by
  have set (g : Nat) (v : Group) : Steady s (setGrp g v s) := .of_changes (changes_setGrp g v s)
  unfold markCell
  exact .ite (fun _ => .refl s) fun _ => .ite (fun _ => .ite (fun _ => set _ _) fun _ => .refl s) fun _ => .ite (fun _ => set _ _) fun _ =>
    .ite (fun _ => set _ _) fun _ => set _ _

theorem steady_cellFail (c : Nat) (s : State) : Steady s (cellFail c s) := by
  have used : Steady s (useFree s) := .of_changes (changes_useFree s)
  unfold cellFail groupUe
  exact ((((used.trans (steady_markCell _ _)).trans (steady_countO _ _ _ _ _)).trans (steady_fault _ _ _ _ _ _ _ _)).trans
    (.of_changes (changes_setGrp _ _ _))).trans (freed_autoRetire _ _).steady

theorem steady_linkFail (n k : Nat) (s : State) : Steady s (linkFail n k s) := by
  unfold linkFail
  split
  · exact .refl s
  · next f _ =>
    extract_lets lost s1 _ s2
    have h1 : Steady s s1 := (Steady.of_changes (changes_setFrame _ _ s)).trans (freed_cellsLeave _ _ _).steady
    have h2 : Steady s s2 := (h1.trans (steady_qbm _ s1)).trans (.of_changes (changes_countN _ _ _ _))
    exact ((h2.trans (steady_fault _ _ _ _ _ _ _ _)).trans (.of_changes (changes_idleAt _ _ _))).trans (steady_withdraw _ _)

/-! ## Late deep reads (R261) -/

theorem changes_dropDeep (n : Nat) (s : State) : Changes [.qbm] s (dropDeep n s) := by
  unfold dropDeep
  split
  · exact .ite (fun _ => (changes_qbm _ s).trans (changes_setFrame _ _ _)) fun _ => changes_refl _ s
  · exact changes_refl _ s

theorem changes_deepLates (s : State) : Changes [.qbm, .tre, .cnt] s (deepLates s) := by
  have lost (x : DeepFetch) (v : State) : Changes [.qbm, .tre, .cnt] v (fetchLost x v) :=
    ((((changes_qbm _ v).mono (by decide)).trans ((changes_countO _ _ _ _ _).mono (by decide))).trans
      ((changes_idleAt _ _ _).mono (by decide))).trans ((changes_dropDeep _ _).mono (by decide))
  exact .foldl (fun v x => lost x v) _ s

end

end Sys2Proof.Machine
end

section
/-!
SUPPORT. What leaves the registers and the clock alone: terminals, their messages and their handles at the report cut-off (R85, R87, R110, R117,
R121, R133, R150, R153, R363).
-/

namespace Sys2Proof.Machine

-- one declaration at a time: the package is compiled as one text within a limit of memory
set_option Elab.async false

section
variable {s t u : State}

/-! ## Messages, bindings and notices (R85, R87, R129, R133) -/

theorem steady_modTre (t : Nat) (f : Tre → Tre) (s : State) : Steady s (modTre t f s) := .of_changes (changes_modTre t f s)

theorem steady_modChn (t : Nat) (f : Chn → Chn) (s : State) : Steady s (modChn t f s) := .of_changes (changes_modChn t f s)

theorem steady_modCtx (t i : Nat) (f : Ctx → Ctx) (s : State) : Steady s (modCtx t i f s) := steady_modTre _ _ s

theorem steady_dropTmm (t : Nat) (p : Tmm → Bool) (s : State) : Steady s (dropTmm t p s) := steady_modTre _ _ s

theorem steady_noticeT (type tree tid cause : Nat) (serial : BitVec 64) (w6 w7 : Word) (s : State) :
    Steady s (noticeT type tree tid cause serial w6 w7 s) := ⟨noticeT_tim _ _ _ _ _ _ _ s, noticeT_regs _ _ _ _ _ _ _ s⟩

theorem steady_noticeC (t tid type cause : Nat) (w6 : Word) (s : State) : Steady s (noticeC t tid type cause w6 s) := steady_noticeT _ _ _ _ _ _ _ s

theorem steady_sendTmm (t type tid tgt : Nat) (body : List Byte) (tickAt : Option Nat) (acked : Bool) (s : State) :
    Steady s (sendTmm t type tid tgt body tickAt acked s) := by
  have set (r : Tre) (v : State) : Steady v (setTre t r v) := .of_changes (changes_setTre t r v)
  have push (m : Tmm) (v : State) : Steady v (pushTmm t m v) := by
    unfold pushTmm
    exact .ite (fun _ => (set _ v).trans (.of_changes (changes_wake _ _ _))) fun _ => (set _ v).trans (steady_count1 _ _ _)
  exact (set _ s).trans (push _ _)

theorem steady_sendAlloc (t tid n op : Nat) (s : State) : Steady s (sendAlloc t tid n op s) := steady_sendTmm _ _ _ _ _ _ _ s

theorem steady_bindHandle (t tid h : Nat) (s : State) : Steady s (bindHandle t tid h s) := by
  unfold bindHandle
  exact .ite (fun _ => (steady_modChn _ _ s).trans (steady_sendAlloc _ _ _ _ _)) fun _ => steady_modChn _ _ s

theorem steady_unbindHandle (t tid h : Nat) (s : State) : Steady s (unbindHandle t tid h s) := by
  unfold unbindHandle
  exact .ite (fun _ => (steady_modChn _ _ s).trans (steady_sendAlloc _ _ _ _ _)) fun _ => steady_modChn _ _ s

theorem steady_bindAgain (t h : Nat) (s : State) : Steady s (bindAgain t h s) := by
  unfold bindAgain
  exact .ite (fun _ => (steady_modChn _ _ s).trans (steady_bindHandle _ _ _ _)) fun _ => steady_modChn _ _ s

theorem steady_sendBindings (t tid : Nat) (all : Bool) (s : State) : Steady s (sendBindings t tid all s) := by
  unfold sendBindings
  refine Steady.trans (.foldl (fun v h => .ite (fun _ => .refl v) fun _ => .ite (fun _ => steady_sendAlloc _ _ _ _ v) fun _ => .refl v) _ s)
    (.foldl (fun v x => ?_) _ _)
  exact .ite (fun _ => (steady_modChn _ _ v).trans (steady_sendAlloc _ _ _ _ _)) fun _ => .ite (fun _ => .refl v) fun _ =>
    .ite (fun _ => steady_sendAlloc _ _ _ _ v) fun _ => .refl v

theorem steady_applyAlloc (t h : Nat) (w : W4) (s : State) : Steady s (applyAlloc t h w s) := by
  unfold applyAlloc
  extract_lets old s1 moved s2
  have h2 : Steady s s2 := (steady_modChn _ _ s).trans (.ite (fun _ => steady_unbindHandle _ _ _ _) fun _ => .refl _)
  exact .ite (fun _ => (h2.trans (steady_modChn _ _ s2)).trans (steady_bindHandle _ _ _ _)) fun _ => h2

theorem steady_allocCutoff (t : Nat) (s : State) : Steady s (allocCutoff t s) :=
  (steady_modChn _ _ s).trans (.foldl (fun v _ => steady_applyAlloc _ _ _ v) _ _)

theorem steady_cutImages (s : State) : Steady s (cutImages s) :=
  .foldl (fun v _ => (steady_modChn _ _ v).trans (steady_applyAlloc _ _ _ _)) _ s

/-! ## The states of a terminal (Table 4-2) -/

theorem steady_release (t tid order : Nat) (s : State) : Steady s (release t tid order s) := by
  unfold release
  extract_lets was s1 s2 s3 s4
  have h1 : Steady s s1 := (steady_dropTmm _ _ s).trans (.of_changes (changes_refuseWaits _ _ _))
  have h2 : Steady s s2 := h1.trans (steady_modChn _ _ s1)
  have h3 : Steady s s3 := h2.trans (.foldl (fun v _ => .of_changes (changes_flushQueue _ v)) _ s2)
  have h4 : Steady s s4 := h3.trans (steady_modCtx _ _ _ s3)
  exact .ite (fun _ => h4) fun _ => h4.trans (steady_sendTmm _ _ _ _ _ _ _ s4)

theorem steady_lose (t tid cause : Nat) (s : State) : Steady s (lose t tid cause s) := (steady_modCtx _ _ _ s).trans (steady_noticeC _ _ _ _ _ _)

theorem steady_exhausted (t tid : Nat) (s : State) : Steady s (exhausted t tid s) := by
  unfold exhausted
  cases (ctxOf s t tid).state with
  | heard => exact (steady_release _ _ _ s).trans (steady_noticeC _ _ _ _ _ _)
  | ranged | keyed | active | quiet => exact steady_lose _ _ _ s
  | unknown | lost | released => exact .refl s

theorem steady_giveUp (t tid : Nat) (s : State) : Steady s (giveUp t tid s) := by
  unfold giveUp
  exact .ite (fun _ => .refl s) fun _ =>
    (Steady.foldl (fun v _ => (steady_modTre _ _ v).trans (steady_noticeC _ _ _ _ _ _)) _ s).trans (steady_exhausted _ _ _)

theorem steady_startRanging (t tid : Nat) (new : Bool) (eqd : Int) (s : State) : Steady s (startRanging t tid new eqd s) :=
  ((steady_dropTmm _ _ s).trans (steady_modTre _ _ _)).trans (steady_sendTmm _ _ _ _ _ _ _ _)

theorem steady_enterHeard (t tid : Nat) (a : Ann) (s : State) : Steady s (enterHeard t tid a s) := by
  unfold enterHeard
  extract_lets old eqdP s1 s2 s3 s4
  have h4 : Steady s s4 := (((steady_dropTmm _ _ s).trans (steady_modCtx _ _ _ _)).trans (steady_sendTmm _ _ _ _ _ _ _ _)).trans
    (steady_startRanging _ _ _ _ _)
  clear_value s4
  cases old.state with
  | unknown | released => exact h4
  | lost | heard | ranged | keyed | active | quiet => exact h4.trans (steady_noticeC _ _ _ _ _ s4)

theorem steady_serialConflict (t u : Nat) (a : Ann) (s : State) : Steady s (serialConflict t u a s) :=
  (steady_count1 _ _ s).trans (steady_noticeT _ _ _ _ _ _ _ _)

theorem steady_announce (t : Nat) (a : Ann) (s : State) : Steady s (announce t a s) := by
  have heard (w6 w7 : Word) (v : State) : Steady v (noticeT 1 t 0 0 a.serial w6 w7 (modTre t (fun r => { r with heard := heardPut a r.heard }) v)) :=
    (steady_modTre _ _ v).trans (steady_noticeT _ _ _ _ _ _ _ _)
  unfold announce
  split
  · exact steady_serialConflict _ _ _ s
  · extract_lets bound target low full
    have h : Steady s full := by
      refine Steady.ite (fun _ => ?_) fun _ => .refl s
      exact (steady_count1 _ _ s).trans (.ite (fun _ => .refl _) fun _ => (steady_modTre _ _ _).trans (steady_noticeT _ _ _ _ _ _ _ _))
    clear_value target full
    cases target with
    | some i => exact Steady.ite (fun _ => steady_enterHeard _ _ _ s) fun _ => heard _ _ s
    | none =>
      dsimp only
      split
      · exact steady_modCtx _ _ _ s
      · exact h.trans (heard _ _ full)

theorem steady_heardWaiting (t : Nat) (s : State) : Steady s (heardWaiting t s) := by
  unfold heardWaiting
  refine .foldl (fun v a => ?_) _ s
  extract_lets gone target
  have left : Steady v (gone v) := steady_modTre _ _ v
  clear_value gone target
  cases target with
  | some i =>
    dsimp only
    split
    · exact left.trans (steady_serialConflict _ _ _ _)
    · exact .ite (fun _ => left.trans (steady_enterHeard _ _ _ _)) fun _ => .refl v
  | none => exact .refl v

theorem steady_lostOver (t tid : Nat) (s : State) : Steady s (lostOver t tid s) := by
  unfold lostOver
  exact .ite (fun _ => (steady_noticeC _ _ _ _ _ s).trans (steady_release _ _ _ _)) fun _ => .refl s

/-! ## ACKs (R85, R121, R133) -/

theorem steady_rangedBy (t tid : Nat) (delta : Int) (s : State) : Steady s (rangedBy t tid delta s) := by
  unfold rangedBy
  extract_lets c eqd last s1 s2
  have h1 : Steady s s1 := steady_modCtx _ _ _ s
  exact .ite (fun _ => h1) fun _ => ((h1.trans (steady_modCtx _ _ _ s1)).trans (steady_noticeC _ _ _ _ _ _)).trans (steady_sendBindings _ _ _ _)

theorem steady_ackEffect (t : Nat) (a : AckIn) (m : Tmm) (s : State) : Steady s (ackEffect t a m s) := by
  have ctx (f : Ctx → Ctx) : Steady s (modCtx t a.tid f s) := steady_modCtx _ _ _ s
  have chn (f : Chn → Chn) : Steady s (modChn t f s) := steady_modChn _ _ s
  unfold ackEffect
  dsimp only
  refine .ite (fun _ => ctx _) fun _ => .ite (fun _ => ctx _) fun _ =>
    .ite (fun _ => .ite (fun _ => steady_rangedBy _ _ _ s) fun _ => .refl s) fun _ =>
    .ite (fun _ => .ite (fun _ => ctx _) fun _ => .refl s) fun _ => .ite (fun _ => ?_) fun _ =>
    .ite (fun _ => .ite (fun _ => ctx _) fun _ => .ite (fun _ => ctx _) fun _ => .refl s) fun _ => .refl s
  exact .ite (fun _ => chn _) fun _ => .ite (fun _ => (chn _).trans (steady_bindAgain _ _ _)) fun _ => .ite (fun _ => chn _) fun _ => chn _

theorem steady_takeAck (t : Nat) (a : AckIn) (s : State) : Steady s (takeAck t a s) := by
  unfold takeAck
  extract_lets r
  split
  · exact .refl s
  · exact (steady_dropTmm _ _ s).trans (steady_ackEffect _ _ _ _)

/-! ## One terminal at the cut-off (R110, R117, R363) -/

theorem steady_timeDelay (t tid : Nat) (s : State) : Steady s (timeDelay t tid s) := by
  unfold timeDelay
  extract_lets c r td far
  exact .ite (fun _ => .refl s) fun _ => .ite (fun _ => .refl s) fun _ => .ite (fun _ => steady_modCtx _ _ _ s) fun _ =>
    (steady_modCtx _ _ _ s).trans (steady_sendTmm _ _ _ _ _ _ _ _)

theorem steady_rangingStep (t tid : Nat) (s : State) : Steady s (rangingStep t tid s) := by
  unfold rangingStep
  extract_lets c
  split
  · exact .ite (fun _ => .ite (fun _ => (steady_release _ _ _ s).trans (steady_noticeC _ _ _ _ _ _)) fun _ => .refl s) fun _ =>
      .ite (fun _ => (steady_modCtx _ _ _ s).trans (steady_sendTmm _ _ _ _ _ _ _ _)) fun _ => .refl s
  · exact .refl s

theorem steady_cutTerminal (t tid : Nat) (s : State) : Steady s (cutTerminal t tid s) := by
  unfold cutTerminal
  extract_lets s0 s1 s2 st2 s3 s4 s5 acked c5 miss s6
  have h0 : Steady s s0 := steady_rangingStep _ _ s
  have h1 : Steady s s1 := h0.trans (.ite (fun _ => steady_giveUp _ _ s0) fun _ => .refl s0)
  have h2 : Steady s s2 := h1.trans (.ite (fun _ => steady_startRanging _ _ _ _ s1) fun _ => .refl s1)
  have h3 : Steady s s3 := h2.trans (.ite (fun _ => steady_modCtx _ _ _ s2) fun _ => .refl s2)
  have h4 : Steady s s4 := h3.trans (.ite (fun _ => steady_sendTmm _ _ _ _ _ _ _ s3) fun _ => .refl s3)
  have h5 : Steady s s5 := h4.trans (.ite (fun _ => steady_sendTmm _ _ _ _ _ _ _ s4) fun _ => .refl s4)
  have h6 : Steady s s6 := h5.trans (.ite (fun _ => steady_lose _ _ _ s5) fun _ => .ite (fun _ => steady_lose _ _ _ s5) fun _ => .refl s5)
  exact (h6.trans (steady_modCtx _ _ _ s6)).trans (steady_giveUp _ _ _)

theorem steady_cutAdmit (t tid : Nat) (s : State) : Steady s (cutAdmit t tid s) := by
  unfold cutAdmit
  split
  · split
    · exact (steady_modCtx _ _ _ s).trans (steady_serialConflict _ _ _ _)
    · exact .ite (fun _ => steady_enterHeard _ _ _ s) fun _ => .refl s
  · exact .refl s

theorem steady_cutRelease (t tid : Nat) (s : State) : Steady s (cutRelease t tid s) := by
  unfold cutRelease
  extract_lets s6 s7 s8
  have h6 : Steady s s6 := .ite (fun _ => steady_lostOver _ _ s) fun _ => .refl s
  have h7 : Steady s s7 := h6.trans (.ite (fun _ => steady_release _ _ _ s6) fun _ => .ite (fun _ => steady_release _ _ _ s6) fun _ => .refl s6)
  exact (h7.trans (steady_modCtx _ _ _ s7)).trans (steady_timeDelay _ _ _)

theorem steady_adaptIvl (t : Nat) (s : State) : Steady s (adaptIvl t s) :=
  .foldl (fun v _ => .ite (fun _ => .refl v) fun _ => steady_modChn _ _ v) _ s

theorem steady_cutTree (t : Nat) (s : State) : Steady s (cutTree t s) := by
  unfold cutTree
  refine .ite (fun _ => .refl s) fun _ => ?_
  extract_lets r s0 s1 each s2 s3 s4 room
  have each_ (f : Nat → State → State) (hf : ∀ i v, Steady v (f i v)) (v : State) : Steady v (each f v) := .foldl (fun v i => hf i v) _ v
  have h1 : Steady s s1 := (steady_modTre _ _ s).trans (.foldl (fun v a => steady_takeAck _ a v) _ s0)
  have h2 : Steady s s2 := h1.trans (each_ _ (fun i v => steady_cutTerminal t i v) s1)
  have h3 : Steady s s3 := (h2.trans (steady_heardWaiting _ s2)).trans (.foldl (fun v a => steady_announce _ a v) _ _)
  have h4 : Steady s s4 := (h3.trans (each_ _ (fun i v => steady_cutAdmit t i v) s3)).trans (each_ _ (fun i v => steady_cutRelease t i v) _)
  exact (h4.trans (steady_modTre _ _ s4)).trans (steady_adaptIvl _ _)

theorem steady_freezeCut (t : Nat) (s : State) : Steady s (freezeCut t s) := steady_modChn _ _ s

end

end Sys2Proof.Machine
end

section
/-!
SUPPORT. What leaves the registers and the clock alone: selections, and the assembly of a beat (R33, R35, R249 to R254, R276 to R284, R396).
-/

namespace Sys2Proof.Machine

-- one declaration at a time: the package is compiled as one text within a limit of memory
set_option Elab.async false

section
variable {s t u : State}

/-! ## A selection in the making (R249, R250, R253) -/

theorem selCont_s (t : Nat) (c : Option Cont) (r : SelRun) : (selCont t c r).s = r.s := by
  cases c with
  | none => rfl
  | some c => rfl

theorem selTmms_s (t : Nat) (r : SelRun) : (selTmms t r).s = r.s := by
  have fold (l : List Tmm) (v : SelRun) : (l.foldl (fun (r : SelRun) m =>
      let body := tmmBody r.s t r.m m
      let r1 := r.place (dataTu 131072 0 m.tid 0 4 0 0 true true false (tmmBytes m body))
      { r1 with tmms := r1.tmms ++ [(m, body)], steps := r1.steps + 1 }) v).s = v.s := by
    induction l generalizing v with
    | nil => rfl
    | cons m l ih => exact ih _
  exact fold _ r

theorem steady_selHead (t q : Nat) (c : W4) (fuel : Nat) (r : SelRun) : Steady r.s (selHead t q c fuel r).1.s := by
  have erased (k : Token) (v : State) : Steady v (eraseToken q k v) := ⟨rfl, rfl⟩
  have woken (f : Frame) (v : State) : Steady v (wakeGroups f v) := .of_changes (changes_wakeGroups f v)
  induction fuel generalizing r with
  | zero => exact .refl _
  | succ fuel ih =>
    unfold selHead
    split
    · exact .refl _
    · next k _ =>
      split
      · exact Steady.trans (t := eraseToken q k r.s) (erased k r.s) (ih { r with s := _ })
      · split
        · split
          · exact .refl _
          · have dropped (l : List Token) : Steady r.s (dropToken q 9 k (setQueue q l r.s)) :=
              (steady_qbm _ r.s).trans (.of_changes (changes_dropToken _ _ _ _))
            refine (dropped ((queueOf r.s q).filter (fun x => x.seq != k.seq))).trans ?_
            exact ih { r with s := _, aged := _, seg := _, steps := _ }
        · split
          · refine Steady.trans (t := release1 k.frame (eraseToken q k r.s)) ((erased k r.s).trans (steady_release1 _ _)) ?_
            exact ih { r with s := _ }
          · split
            · exact .refl _
            · split
              · exact woken _ r.s
              · exact woken _ r.s

theorem steady_selElig (t q : Nat) (c : W4) (r : SelRun) : Steady r.s (selElig t q c r).1.s := by
  unfold selElig
  split
  · exact .refl _
  · split
    · exact .refl _
    · exact steady_selHead _ _ _ _ r

/-- What an eligible head leads to. -/
theorem steady_elig {t q : Nat} {c : W4} {r r1 : SelRun} {o : Option (Token × Frame)} (h : selElig t q c r = (r1, o)) : Steady r.s r1.s := by
  have step := steady_selElig t q c r
  rw [h] at step
  exact step

/-! ## The rounds (R253) -/

theorem steady_committedTurn (t key : Nat) (a : SelRun × Bool) (e : Nat × W4) : Steady a.1.s (committedTurn t key a e).1.s := by
  unfold committedTurn
  extract_lets r
  split
  · exact .refl _
  · split
    · next h => exact steady_elig h
    · next r1 k f h =>
      have taken : Steady r.s (selTake t e.1 e.2 false k f r1).s := by
        rw [selTake_s]
        exact steady_elig h
      dsimp only
      split
      · exact taken
      · exact taken

theorem steady_rounds {f : SelRun × Bool → Nat × W4 → SelRun × Bool} (h : ∀ a e, Steady a.1.s (f a e).1.s) (l : List (Nat × W4)) (a : SelRun × Bool) :
    Steady a.1.s (l.foldl f a).1.s := by
  induction l generalizing a with
  | nil => exact .refl _
  | cons e l ih => exact (h a e).trans (ih _)

theorem steady_committedRound (t key : Nat) (l : List (Nat × W4)) (fuel : Nat) (r : SelRun) : Steady r.s (committedRound t key l fuel r).s := by
  induction fuel generalizing r with
  | zero => exact .refl _
  | succ fuel ih =>
    unfold committedRound
    have round := steady_rounds (steady_committedTurn t key) (rotateQ (tGet 0 r.rr key) l) (r, false)
    split
    · exact .refl _
    · dsimp only
      split
      · exact round.trans (ih _)
      · exact round

theorem steady_excessServe (t q : Nat) (c : W4) (fuel : Nat) (r : SelRun) : Steady r.s (excessServe t q c fuel r).s := by
  induction fuel generalizing r with
  | zero => exact .refl _
  | succ fuel ih =>
    unfold excessServe
    split
    · exact .refl _
    · split
      · next h =>
        have step := steady_elig h
        split
        · exact step
        · exact step
      · next r1 k f h =>
        have taken : Steady r.s (selTake t q c true k f r1).s := by
          rw [selTake_s]
          exact steady_elig h
        dsimp only
        split
        · exact steady_elig h
        · split
          · exact taken
          · exact taken.trans (ih _)

theorem steady_excessTurn (t key : Nat) (a : SelRun × Bool) (e : Nat × W4) : Steady a.1.s (excessTurn t key a e).1.s := by
  unfold excessTurn
  extract_lets r
  split
  · exact .refl _
  · split
    · next h =>
      have step := steady_elig h
      dsimp only
      split
      · exact step
      · exact step
    · next r1 _ h =>
      refine (steady_elig h).trans ?_
      extract_lets r2
      exact steady_excessServe t e.1 e.2 10001 r2

theorem steady_excessRound (t key : Nat) (l : List (Nat × W4)) (fuel : Nat) (r : SelRun) : Steady r.s (excessRound t key l fuel r).s := by
  induction fuel generalizing r with
  | zero => exact .refl _
  | succ fuel ih =>
    unfold excessRound
    have round := steady_rounds (steady_excessTurn t key) (rotateQ (tGet 0 r.rr key) l) (r, false)
    split
    · exact .refl _
    · dsimp only
      split
      · exact round.trans (ih _)
      · exact round

theorem steady_selRounds (t : Nat) (qs : List (Nat × W4)) (r : SelRun) : Steady r.s (selRounds t qs r).s := by
  have fold (f : SelRun → Nat → SelRun) (h : ∀ r p, Steady r.s (f r p).s) (l : List Nat) (r : SelRun) : Steady r.s (l.foldl f r).s := by
    induction l generalizing r with
    | nil => exact .refl _
    | cons p l ih => exact (h r p).trans (ih _)
  unfold selRounds
  extract_lets prios of r1
  have h1 : Steady r.s r1.s := fold _ (fun r p => by
    split
    · exact .refl _
    · exact steady_committedRound _ _ _ _ r) prios r
  exact h1.trans (fold _ (fun r p => by
    split
    · exact .refl _
    · exact steady_excessRound _ _ _ _ r) prios r1)

/-! ## The selections of a beat (R33, R396) -/

theorem steady_selectTree (t b : Nat) (seen : List (Nat × Nat × Nat × Nat)) (s : State) : Steady s (selectTree t b seen s) := by
  unfold selectTree
  split
  · exact .refl s
  · extract_lets m v bpt bpb cr _ r0 qs r
    have view : v.tim = s.tim := changes_viewAt m s .tim (by decide)
    have begins : (selTmms t (selCont t (treOf s t).cont r0)).s = r0.s := (selTmms_s t _).trans (selCont_s t _ r0)
    have run : r.s.tim = r0.s.tim := (steady_selRounds t qs _).tim.trans (congrArg State.tim begins)
    exact ⟨run.trans view, rfl⟩

theorem steady_selectAll (trees : List Nat) (b fuel : Nat) (seen : List (Nat × Nat × Nat × Nat)) (s : State) :
    Steady s (selectAll trees b fuel seen s) := by
  have each (seen : List (Nat × Nat × Nat × Nat)) (s : State) : Steady s (trees.foldl (fun s t => selectTree t b seen s) s) :=
    .foldl (fun v t => steady_selectTree t b seen v) trees s
  induction fuel generalizing seen s with
  | zero => exact each seen s
  | succ fuel ih =>
    unfold selectAll
    exact .ite (fun _ => each seen s) fun _ => ih _ s

/-! ## Assembly (R35, R276 to R284) -/

theorem Resolved.steady {l : List Comp} (h : Resolved l s t) (hl : Comp.tim ∉ l ∧ Comp.regs ∉ l := by decide) : Steady s t := .of_changes h.kept hl

theorem steady_modStaged (t tick blk : Nat) (f : DsTu → DsTu) (s : State) : Steady s (modStaged t tick blk f s) := (resolved_modStaged t tick blk f s).steady

theorem steady_pushPiece (t h : Nat) (p : Piece) (s : State) : Steady s (pushPiece t h p s) :=
  (steady_modTre _ _ s).trans (resolved_drainPieces _ _ _ _ _).steady

theorem steady_leaves (n c : Nat) (s : State) : Steady s (leaves n c s) := by
  unfold leaves
  split
  · exact .ite (fun _ => steady_qbm _ s) fun _ => .refl s
  · exact .refl s

theorem steady_cpqPump (c : Nat) (s : State) : Steady s (cpqPump c s) := by
  have set (x : Chan) (v : State) : Steady v (setChan c x v) := ⟨rfl, rfl⟩
  have sent (o : Out) (v : State) : Steady v (emit o v) := ⟨rfl, rfl⟩
  have lose (o : CpqReq) (v : State) : Steady v (cpqLose c o v) :=
    ((steady_countO _ _ _ _ v).trans (steady_fault _ _ _ _ _ _ _ _)).trans (resolved_refuseReq _ _ _).steady
  have send (q : CpqReq) (l : List CpqReq) (v : State) : Steady v (cpqSend c q l v) := by
    unfold cpqSend
    extract_lets ch p e s1 s2
    have h2 : Steady v s2 := (set _ v).trans (.foldl (fun v o => lose o v) _ s1)
    exact h2.trans ((steady_countO _ _ _ _ s2).trans (sent _ _))
  have line (fuel : Nat) (v : State) : Steady v (cpqLine c fuel v) := by
    induction fuel generalizing v with
    | zero => exact .refl v
    | succ fuel ih =>
      unfold cpqLine
      extract_lets ch
      split
      · exact .refl v
      · exact .ite (fun _ => (send _ _ v).trans (ih _)) fun _ => .ite (fun _ => .refl v) fun _ => .of_changes (changes_atCycle _ _ v)
  exact line _ s

theorem steady_slotWear (t tid n : Nat) (s : State) : Steady s (slotWear t tid n s) := by
  have set (v : Slot) (w : State) : Steady w (setSlot n v w) := ⟨rfl, rfl⟩
  unfold slotWear
  extract_lets v s1
  have h1 : Steady s s1 := .ite (fun _ => (set _ s).trans (steady_noticeC _ _ _ _ _ _)) fun _ => .refl s
  exact .ite (fun _ => (h1.trans (set _ s1)).trans (steady_noticeC _ _ _ _ _ _)) fun _ => h1

theorem steady_cpqIssue (enc : Bool) (t tid ksel tick ord hnd : Nat) (first last replay : Bool) (hdr rest : List Byte) (s : State) :
    Steady s (cpqIssue enc t tid ksel tick ord hnd first last replay hdr rest s).1 := by
  have set (n : Nat) (v : Slot) : Steady s (setSlot n v s) := ⟨rfl, rfl⟩
  unfold cpqIssue
  extract_lets n v c e s1 ch seq q
  split
  · exact steady_count1 _ _ s
  · split
    · exact (steady_count1 _ _ s).trans (steady_fault _ _ _ _ _ _ _ _)
    · split
      · exact steady_count1 _ _ s
      · have h1 : Steady s s1 := .ite (fun _ => (set _ _).trans (steady_countO _ _ _ _ _)) fun _ => (set _ _).trans (steady_slotWear _ _ _ _)
        have lined : Steady s1 (setChan c { ch with line := ch.line ++ [q] } s1) := ⟨rfl, rfl⟩
        exact (h1.trans lined).trans (steady_cpqPump _ _)

theorem steady_tuReadFails (t : Nat) (u : DsTu) (s : State) : Steady s (tuReadFails t u s) := by
  unfold tuReadFails
  split
  · exact .refl s
  · split
    · exact .refl s
    · exact (steady_modTre _ _ s).trans (steady_cellFail _ _)
    · exact steady_linkFail _ _ s

theorem steady_assembleTu (t b : Nat) (u : DsTu) (s : State) : Steady s (assembleTu t b u s) := by
  unfold assembleTu
  extract_lets m set data s0 u1 turn back sent p s5 hdr r s1 s2
  have set_ (f : DsTu → DsTu) (v : State) : Steady v (set f v) := steady_modStaged _ _ _ f v
  have h0 : Steady s s0 := .ite (fun _ => steady_tuReadFails _ _ s) fun _ => .refl s
  have h5 : Steady s s5 := h0.trans (.ite (fun _ => steady_count1 _ _ s0) fun _ => .refl s0)
  have hsent (v : State) : Steady v (sent v) := by
    simp only [sent]
    split
    · exact steady_leaves _ _ v
    · exact .refl v
  have hr : Steady s r.1 := (h0.trans (hsent s0)).trans (steady_cpqIssue _ _ _ _ _ _ _ _ _ _ _ _ _)
  clear_value sent set s0 r s5
  have h1 : Steady s s1 := .ite (fun _ => Steady.trans (h0.trans (.ite (fun _ => steady_count1 _ _ s0) fun _ => .refl s0)) (set_ _ _)) fun _ =>
    .ite (fun _ => ((h0.trans (hsent s0)).trans (set_ _ _)).trans (steady_count1 _ _ _)) fun _ =>
    .ite (fun _ => (h5.trans (set_ _ s5)).trans (steady_pushPiece _ _ _ _)) fun _ =>
    .ite (fun _ => h0.trans (set_ _ s0)) fun _ => .ite (fun _ => (h0.trans (hsent s0)).trans (set_ _ _)) fun _ => hr.trans (set_ _ _)
  have h2 : Steady s s2 := h1.trans (.ite (fun _ => set_ _ s1) fun _ => .refl s1)
  exact .ite (fun _ => h2.trans (steady_release1 _ s2)) fun _ => h2

theorem steady_assemble (t b : Nat) (s : State) : Steady s (assemble t b s) := by
  unfold assemble
  exact .ite (fun _ => .refl s) fun _ => .foldl (fun v u => steady_assembleTu t b u v) _ s

end

end Sys2Proof.Machine
end

section
/-!
SUPPORT. The report cut-off (R50, R133, R154).
-/

namespace Sys2Proof.Machine

-- one declaration at a time: the package is compiled as one text within a limit of memory
set_option Elab.async false

section
variable {s t u v : State}

/-! ## The register writes that wait for it (R154) -/

theorem cutRegs_effect (s : State) : (cutRegs s).regs.cutDef = [] ∧ (cutRegs s).regs.tickDef = s.regs.tickDef ∧
    (s.regs.cutDef = [] → (cutRegs s).regs = s.regs) ∧ (∀ a, reg (cutRegs s) a = withDef a (reg s a) s.regs.cutDef) ∧ Changes [.regs] s (cutRegs s) := by
  have fold (l : List DefWrite) (v : State) :
      (l.foldl (fun s d => setReg d.addr (mergeW (reg s d.addr) d.mask d.data) s) v).regs.cutDef = v.regs.cutDef ∧
      (l.foldl (fun s d => setReg d.addr (mergeW (reg s d.addr) d.mask d.data) s) v).regs.tickDef = v.regs.tickDef ∧
      (∀ a, reg (l.foldl (fun s d => setReg d.addr (mergeW (reg s d.addr) d.mask d.data) s) v) a = withDef a (reg v a) l) ∧
      Changes [.regs] v (l.foldl (fun s d => setReg d.addr (mergeW (reg s d.addr) d.mask d.data) s) v) := by
    induction l generalizing v with
    | nil => exact ⟨rfl, rfl, fun _ => rfl, changes_refl _ v⟩
    | cons d l ih =>
      obtain ⟨cut, tick, regs, change⟩ := ih (setReg d.addr (mergeW (reg v d.addr) d.mask d.data) v)
      refine ⟨cut, tick, fun a => (regs a).trans ?_, (changes_setReg _ _ v).trans change⟩
      show withDef a _ l = withDef a (if d.addr = a then mergeW (reg v a) d.mask d.data else reg v a) l
      by_cases h : d.addr = a
      · subst h
        rw [reg_setReg_same, if_pos rfl]
      · rw [reg_setReg_other (Ne.symm h), if_neg h]
  obtain ⟨cut, tick, regs, change⟩ := fold s.regs.cutDef { s with regs := { s.regs with cutDef := [] } }
  have emptied : Changes [.regs] s { s with regs := { s.regs with cutDef := [] } } := changes_regs _ s
  refine ⟨cut, tick, fun h => ?_, regs, emptied.trans change⟩
  unfold cutRegs
  rw [h, List.foldl_nil]
  show { s.regs with cutDef := [] } = s.regs
  rw [← h]

/-! ## What it leaves of the clock and the registers -/

/-- Cycle 0 of the beat is over. -/
def zeroOver (s : State) : State := { s with tim := { s.tim with zero := false } }

/-- The state in which the cut-off acts: cycle 0 of the beat has ended. -/
def zeroEnded (s : State) : State :=
  eachTree (fun t s => assemble t (absBeat s + 2) s)
    (deepLates (selectAll (treKeys s) (absBeat s + 3) (s.qbm.frames.filter (fun e => !e.2.deep.isEmpty)).length [] (zeroOver s)))

theorem steady_zeroEnded (s : State) : Steady (zeroOver s) (zeroEnded s) := by
  unfold zeroEnded eachTree
  exact ((steady_selectAll _ _ _ _ _).trans (.of_changes (changes_deepLates _))).trans (.foldl (fun v t => steady_assemble t _ v) _ _)

theorem endZero_cuts (hz : s.tim.zero = true) (hb : s.tim.beat = 1) (hc : s.tim.cutDone = false) : endZero s = cutoffActs (zeroEnded s) := by
  have steady := steady_zeroEnded s
  unfold endZero
  rw [hz]
  have goes : (zeroEnded s).tim.beat = 1 ∧ (zeroEnded s).tim.cutDone = false := by
    rw [steady.tim]
    exact ⟨hb, hc⟩
  exact if_pos goes

theorem cutoffActs_steady (s : State) : (cutoffActs s).tim = { s.tim with cutDone := true } ∧ (cutoffActs s).regs = (cutRegs s).regs := by
  obtain ⟨-, -, -, -, change⟩ := cutRegs_effect s
  unfold cutoffActs
  extract_lets s1 trees s2 s3
  have tim1 : s1.tim = s.tim := change .tim (by decide)
  have h2 : Steady s1 s2 := (Steady.foldl (fun v t => steady_allocCutoff t v) trees s1).trans (steady_cutImages _)
  have h3 : Steady s1 s3 := h2.trans (.foldl (fun v t => (steady_cutTree t v).trans (steady_freezeCut t _)) trees s2)
  refine ⟨?_, h3.regs⟩
  show { s3.tim with cutDone := true } = { s.tim with cutDone := true }
  rw [h3.tim, tim1]

/-! ## Allocations with no tree port at work (R133) -/

theorem treOf_none (h : v.tre = []) (t : Nat) : treOf v t = Tre.empty := by rw [treOf, h]; rfl

theorem ctxOf_none (h : v.tre = []) (t i : Nat) : heardUp (ctxOf v t i).state = false := by rw [ctxOf, treOf_none h]; rfl

theorem noTrees_of_changes (h : Changes [.chn] s t) (h0 : s.tre = []) : t.tre = [] := Eq.trans (h .tre (by decide)) h0

/-- Of the Churn's state of tree `t` alone something changes: not its allocation entries, nor those that wait. -/
structure Rebinds (t : Nat) (u v : State) : Prop where
  changes : Changes [.chn] u v
  others : ∀ x, x ≠ t → chnOf v x = chnOf u x
  alloc : (chnOf v t).alloc = (chnOf u t).alloc
  pend : (chnOf v t).allocPend = (chnOf u t).allocPend

theorem Rebinds.refl (n : Nat) (s : State) : Rebinds n s s := ⟨changes_refl _ s, fun _ _ => rfl, rfl, rfl⟩

theorem Rebinds.trans {n : Nat} (h : Rebinds n s t) (g : Rebinds n t u) : Rebinds n s u :=
  ⟨h.changes.trans g.changes, fun x hx => (g.others x hx).trans (h.others x hx), g.alloc.trans h.alloc, g.pend.trans h.pend⟩

theorem rebinds_modChn {n : Nat} (f : Chn → Chn) (hf : ∀ c, (f c).alloc = c.alloc ∧ (f c).allocPend = c.allocPend) (s : State) : Rebinds n s (modChn n f s) := by
  refine ⟨changes_modChn n f s, fun x hx => chnOf_modChn_other hx f s, ?_, ?_⟩
  · rw [chnOf_modChn_same]
    exact (hf _).1
  · rw [chnOf_modChn_same]
    exact (hf _).2

/-- An entry takes effect: no terminal is told. -/
theorem applyAlloc_quiet (n h : Nat) (w : W4) (h0 : v.tre = []) : Changes [.chn] v (applyAlloc n h w v) ∧
    (∀ x, x ≠ n → chnOf (applyAlloc n h w v) x = chnOf v x) ∧ tGet W4.zero (chnOf (applyAlloc n h w v) n).alloc h = w ∧
    (chnOf (applyAlloc n h w v) n).allocPend = (chnOf v n).allocPend := by
  have put : chnOf (modChn n (fun c => { c with alloc := tSet W4.zero c.alloc h w }) v) n =
      { chnOf v n with alloc := tSet W4.zero (chnOf v n).alloc h w } := chnOf_modChn_same _ _ _
  have other (x : Nat) (hx : x ≠ n) := chnOf_modChn_other hx (fun c => { c with alloc := tSet W4.zero c.alloc h w }) v
  have first := changes_modChn n (fun c => { c with alloc := tSet W4.zero c.alloc h w }) v
  unfold applyAlloc
  extract_lets old s1 moved s2
  have tre1 : s1.tre = [] := noTrees_of_changes first h0
  have unbound (tid : Nat) (y : State) (hy : y.tre = []) : Rebinds n y (unbindHandle n tid h y) := by
    unfold unbindHandle
    rw [if_neg (by rw [ctxOf_none hy]; decide)]
    exact rebinds_modChn (fun c => { c with bind := tSet .none c.bind h .none }) (fun _ => ⟨rfl, rfl⟩) y
  have bound (tid : Nat) (y : State) (hy : y.tre = []) : Rebinds n y (bindHandle n tid h y) := by
    unfold bindHandle
    dsimp only
    rw [if_neg (by rw [ctxOf_none hy]; exact Bool.false_ne_true)]
    exact rebinds_modChn (fun c => { c with bind := tSet .none c.bind h .wait }) (fun _ => ⟨rfl, rfl⟩) y
  have h2 : Rebinds n s1 s2 := by
    simp only [s2]
    split
    · exact unbound _ s1 tre1
    · exact .refl n s1
  have tre2 : s2.tre = [] := noTrees_of_changes h2.changes tre1
  have h3 (y : State) (hy : Rebinds n s1 y) : Changes [.chn] v y ∧ (∀ x, x ≠ n → chnOf y x = chnOf v x) ∧ tGet W4.zero (chnOf y n).alloc h = w ∧
      (chnOf y n).allocPend = (chnOf v n).allocPend := by
    refine ⟨first.trans hy.changes, fun x hx => (hy.others x hx).trans (other x hx), ?_, ?_⟩
    · rw [hy.alloc, put]
      exact tGet_tSet_same _ _ _ _
    · rw [hy.pend, put]
  split
  · have est := rebinds_modChn (n := n) (fun c => { c with est := tDel h c.est }) (fun _ => ⟨rfl, rfl⟩) s2
    exact h3 _ ((h2.trans est).trans (bound _ _ (noTrees_of_changes est.changes tre2)))
  · exact h3 _ h2

/-- The entries of a tree that wait take effect at its cut-off. -/
theorem allocCutoff_quiet (n : Nat) (h0 : v.tre = []) : Changes [.chn] v (allocCutoff n v) ∧ (∀ x, x ≠ n → chnOf (allocCutoff n v) x = chnOf v x) ∧
    ∀ h w, (chnOf v n).allocPend = [(h, w)] → tGet W4.zero (chnOf (allocCutoff n v) n).alloc h = w ∧ (chnOf (allocCutoff n v) n).allocPend = [] := by
  have fold (l : List (Nat × W4)) (y : State) (hy : y.tre = []) : Changes [.chn] y (l.foldl (fun s e => applyAlloc n e.1 e.2 s) y) ∧
      ∀ x, x ≠ n → chnOf (l.foldl (fun s e => applyAlloc n e.1 e.2 s) y) x = chnOf y x := by
    induction l generalizing y with
    | nil => exact ⟨changes_refl _ y, fun _ _ => rfl⟩
    | cons e l ih =>
      obtain ⟨change, others, -⟩ := applyAlloc_quiet n e.1 e.2 hy
      obtain ⟨changes, rest⟩ := ih _ (noTrees_of_changes change hy)
      exact ⟨change.trans changes, fun x hx => (rest x hx).trans (others x hx)⟩
  have none_ : (chnOf (modChn n (fun c => { c with allocPend := [] }) v) n).allocPend = [] := by rw [chnOf_modChn_same]
  have first := changes_modChn n (fun c => { c with allocPend := [] }) v
  have other (x : Nat) (hx : x ≠ n) := chnOf_modChn_other hx (fun c => { c with allocPend := [] }) v
  unfold allocCutoff
  generalize modChn n (fun c => { c with allocPend := [] }) v = y at none_ first other
  have tre : y.tre = [] := noTrees_of_changes first h0
  obtain ⟨change, others⟩ := fold (chnOf v n).allocPend y tre
  refine ⟨first.trans change, fun x hx => (others x hx).trans (other x hx), fun h w one => ?_⟩
  rw [one]
  obtain ⟨-, -, alloc, pend⟩ := applyAlloc_quiet n h w tre
  exact ⟨alloc, pend.trans none_⟩

theorem allocCutoffs_quiet (l : List Nat) (hl : l.Nodup) (h0 : v.tre = []) : Changes [.chn] v (l.foldl (fun s t => allocCutoff t s) v) ∧
    (∀ x, x ∉ l → chnOf (l.foldl (fun s t => allocCutoff t s) v) x = chnOf v x) ∧
    ∀ x ∈ l, ∀ h w, (chnOf v x).allocPend = [(h, w)] → tGet W4.zero (chnOf (l.foldl (fun s t => allocCutoff t s) v) x).alloc h = w ∧
      (chnOf (l.foldl (fun s t => allocCutoff t s) v) x).allocPend = [] := by
  induction l generalizing v with
  | nil => exact ⟨changes_refl _ v, fun _ _ => rfl, nofun⟩
  | cons n l ih =>
    obtain ⟨fresh, rest⟩ := List.nodup_cons.mp hl
    obtain ⟨change, others, sets⟩ := allocCutoff_quiet n h0
    obtain ⟨changes, stay, more⟩ := ih rest (noTrees_of_changes change h0)
    rw [List.foldl_cons]
    refine ⟨change.trans changes, fun x hx => ?_, fun x hx h w one => ?_⟩
    · obtain ⟨ne, out⟩ := not_or.mp (fun h => hx (List.mem_cons.mpr h))
      exact (stay x out).trans (others x ne)
    · rcases List.mem_cons.mp hx with rfl | hx
      · rw [stay x fresh]
        exact sets h w one
      · exact more x hx h w (by rw [others x (fun e => fresh (e ▸ hx))]; exact one)

end

end Sys2Proof.Machine
end

section
/-!
SUPPORT. The report cut-off of a block with no tree port (R50, R133).
-/

namespace Sys2Proof.Machine

-- one declaration at a time: the package is compiled as one text within a limit of memory
set_option Elab.async false

section
variable {s t u v : State}

/-- With no tree port there is nothing to select or to assemble. -/
theorem zeroEnded_quiet (h0 : s.tre = []) : (zeroEnded s).tre = [] ∧ Changes [.tim, .qbm, .tre, .cnt] s (zeroEnded s) := by
  have select (b fuel : Nat) (seen : List (Nat × Nat × Nat × Nat)) (v : State) : selectAll [] b fuel seen v = v := by
    induction fuel generalizing seen with
    | zero => rfl
    | succ fuel ih =>
      unfold selectAll
      rw [List.foldl_nil]
      dsimp only
      rw [ih, ite_self]
  have lost (x : DeepFetch) (v : State) (hv : v.tre = []) : (fetchLost x v).tre = [] := by
    have dropped : (fetchLost x v).tre = (idleAt (· == x.queue) x.frame (countO 6 15 x.queue 1 (endFetch x v))).tre := changes_dropDeep _ _ .tre (by decide)
    have counted : (countO 6 15 x.queue 1 (endFetch x v)).tre = v.tre := changes_countO _ _ _ _ (endFetch x v) .tre (by decide)
    rw [dropped]
    unfold idleAt
    rw [counted, hv]
    rfl
  have lates (l : List DeepFetch) (v : State) (hv : v.tre = []) : (l.foldl (fun s x => fetchLost x s) v).tre = [] := by
    induction l generalizing v with
    | nil => exact hv
    | cons x l ih => exact ih _ (lost x v hv)
  have begins : Changes [.tim, .qbm, .tre, .cnt] s (zeroOver s) := (changes_tim _ s).mono (by decide)
  have none_ : (deepLates (zeroOver s)).tre = [] := lates _ (zeroOver s) h0
  have keys : treKeys s = [] := by rw [treKeys, h0]; rfl
  have late := changes_deepLates (zeroOver s)
  have ends : zeroEnded s = deepLates (zeroOver s) := by
    unfold zeroEnded eachTree
    rw [keys, select]
    have keys2 : treKeys (deepLates (zeroOver s)) = [] := by rw [treKeys, none_]; rfl
    rw [keys2, List.foldl_nil]
  rw [ends]
  exact ⟨none_, begins.trans (late.mono (by decide))⟩

theorem cutImages_none (h : imagesFor s (s.tim.tick + 1) = []) : cutImages s = s := by
  unfold cutImages
  rw [h]
  rfl

theorem cutImages_quiet (h0 : v.tre = []) : Changes [.chn] v (cutImages v) := by
  have fold (l : List (Nat × Nat)) (g : State → Nat × Nat → W4) (y : State) (hy : y.tre = []) :
      Changes [.chn] y (l.foldl (fun s e => applyAlloc e.1 e.2 (g s e) (modChn e.1 (fun c => { c with shown := tPut e.2 (tGet W4.zero (chnOf s e.1).alloc e.2) c.shown }) s)) y) := by
    induction l generalizing y with
    | nil => exact changes_refl _ y
    | cons e l ih =>
      rw [List.foldl_cons]
      have shown := changes_modChn e.1 (fun c => { c with shown := tPut e.2 (tGet W4.zero (chnOf y e.1).alloc e.2) c.shown }) y
      obtain ⟨change, -⟩ := applyAlloc_quiet e.1 e.2 (g y e) (noTrees_of_changes shown hy)
      exact (shown.trans change).trans (ih _ (noTrees_of_changes (shown.trans change) hy))
  exact fold _ (fun s e => imgAlloc (imagesFor v (v.tim.tick + 1)) e.1 e.2 (tGet W4.zero (chnOf s e.1).alloc e.2)) v h0

theorem cutTree_none (h0 : v.tre = []) (n : Nat) : cutTree n v = v := by
  unfold cutTree treLive
  rw [treOf_none h0]
  exact if_pos rfl

/-- What stands from the cut-off on for the passes is no allocation. -/
theorem freezeCuts_quiet (l : List Nat) (h0 : v.tre = []) : Changes [.chn] v (l.foldl (fun s t => freezeCut t (cutTree t s)) v) ∧
    ∀ x, (chnOf (l.foldl (fun s t => freezeCut t (cutTree t s)) v) x).alloc = (chnOf v x).alloc ∧
      (chnOf (l.foldl (fun s t => freezeCut t (cutTree t s)) v) x).allocPend = (chnOf v x).allocPend := by
  induction l generalizing v with
  | nil => exact ⟨changes_refl _ v, fun _ => ⟨rfl, rfl⟩⟩
  | cons n l ih =>
    rw [List.foldl_cons, cutTree_none h0]
    have frozen : Rebinds n v (freezeCut n v) := by
      unfold freezeCut
      extract_lets due rng
      exact rebinds_modChn (fun c => { c with tmmDue := due.foldl (fun x e => tSet 0 x e.1 e.2) [], rngDue := rng }) (fun _ => ⟨rfl, rfl⟩) v
    obtain ⟨changes, rest⟩ := ih (noTrees_of_changes frozen.changes h0)
    refine ⟨frozen.changes.trans changes, fun x => ?_⟩
    obtain ⟨alloc, pend⟩ := rest x
    rw [alloc, pend]
    by_cases hx : x = n
    · subst hx
      exact ⟨frozen.alloc, frozen.pend⟩
    · rw [frozen.others x hx]
      exact ⟨rfl, rfl⟩

theorem knownTrees_nodup (s : State) : (knownTrees s).Nodup := List.nodup_range.filter _

/-- A tree with an allocation that waits is known. -/
theorem known_of_pend {n : Nat} {e : Nat × W4} (hn : n < 64) (h : (chnOf s n).allocPend = [e]) : n ∈ knownTrees s := by
  have found : (tFind n s.chn).isSome = true := by
    by_contra none_
    have empty : chnOf s n = Chn.empty := by
      unfold chnOf tGet
      rw [Option.not_isSome_iff_eq_none.mp none_]
      rfl
    rw [empty] at h
    cases h
  exact List.mem_filter.mpr ⟨List.mem_range.mpr hn, by rw [found, Bool.or_true]⟩

/-- R133: with no tree port, an allocation that waits is in its table after the cut-off. -/
theorem cutoffActs_quiet (h0 : s.tre = []) : (cutoffActs s).cpe = s.cpe ∧ (cutoffActs s).tst = s.tst ∧
    (imagesFor s (s.tim.tick + 1) = [] → ∀ n < 64, ∀ h w, (chnOf s n).allocPend = [(h, w)] → tGet W4.zero (chnOf (cutoffActs s) n).alloc h = w ∧ (chnOf (cutoffActs s) n).allocPend = []) := by
  obtain ⟨-, -, -, -, cut⟩ := cutRegs_effect s
  unfold cutoffActs
  extract_lets s1 trees s2 s3
  have tre1 : s1.tre = [] := Eq.trans (cut .tre (by decide)) h0
  have tim1 : s1.tim = s.tim := cut .tim (by decide)
  have glb1 : s1.glb = s.glb := cut .glb (by decide)
  have chn1 (n : Nat) : chnOf s1 n = chnOf s n := chnOf_of_chn (cut .chn (by decide)) n
  obtain ⟨allocs, -, sets⟩ := allocCutoffs_quiet (knownTrees s1) (knownTrees_nodup s1) tre1
  have change2 : Changes [.chn] s1 s2 := allocs.trans (cutImages_quiet (noTrees_of_changes allocs tre1))
  have images (hi : imagesFor s (s.tim.tick + 1) = []) : s2 = trees.foldl (fun s t => allocCutoff t s) s1 := by
    refine cutImages_none ?_
    have tim2 : (trees.foldl (fun s t => allocCutoff t s) s1).tim = s.tim := Eq.trans (allocs .tim (by decide)) tim1
    have glb2 : (trees.foldl (fun s t => allocCutoff t s) s1).glb = s.glb := Eq.trans (allocs .glb (by decide)) glb1
    rw [imagesFor, glb2, tim2]
    exact hi
  obtain ⟨froze, stays⟩ := freezeCuts_quiet trees (noTrees_of_changes change2 tre1)
  have cpe3 : s3.cpe = s.cpe := Eq.trans (froze .cpe (by decide)) (Eq.trans (change2 .cpe (by decide)) (cut .cpe (by decide)))
  have tst3 : s3.tst = s.tst := Eq.trans (froze .tst (by decide)) (Eq.trans (change2 .tst (by decide)) (cut .tst (by decide)))
  refine ⟨cpe3, tst3, fun hi n hn h w one => ?_⟩
  have pend : (chnOf s1 n).allocPend = [(h, w)] := by rw [chn1]; exact one
  obtain ⟨alloc, gone⟩ := sets n (known_of_pend hn pend) h w pend
  obtain ⟨alloc3, gone3⟩ := stays n
  show tGet W4.zero (chnOf s3 n).alloc h = w ∧ (chnOf s3 n).allocPend = []
  rw [alloc3, gone3, images hi]
  exact ⟨alloc, gone⟩

end

/-- Settles O16. -/
theorem reportCutoffPasses : Obligations.ReportCutoff := by
  unfold Obligations.ReportCutoff
  refine fun s => ⟨fun h => ?_, fun hs hb hz hc hr => ?_⟩
  · have rests : reportCutoff (begin_ s) = begin_ s := by
      refine if_neg fun k => ?_
      obtain ⟨started, beat, zero⟩ := k
      rcases h with h | h | h
      · exact Bool.false_ne_true (h.symm.trans started)
      · exact h beat
      · exact Bool.false_ne_true (h.symm.trans zero)
    exact congrArg Host.Outcome.next rests
  · have acts : reportCutoff (begin_ s) = cutoffActs (zeroEnded (begin_ s)) := (if_pos ⟨hs, hb, hz⟩).trans (endZero_cuts (s := begin_ s) hz hb hc)
    have start : Good ⟨s.pending, none⟩ (begin_ s) := ⟨rfl, hr, by rw [show (begin_ s).tim = s.tim from rfl, hb]; decide, nofun⟩
    have good := endZero_good start
    rw [endZero_cuts (s := begin_ s) hz hb hc] at good
    have before := steady_zeroEnded (begin_ s)
    obtain ⟨tim, regs⟩ := cutoffActs_steady (zeroEnded (begin_ s))
    obtain ⟨cut, tick, same, defs, -⟩ := cutRegs_effect (zeroEnded (begin_ s))
    have quiet (h0 : s.tre = []) := zeroEnded_quiet (s := begin_ s) h0
    have acted (h0 : (zeroEnded (begin_ s)).tre = []) := cutoffActs_quiet (s := zeroEnded (begin_ s)) h0
    generalize zeroEnded (begin_ s) = z at *
    have regs0 : z.regs = s.regs := before.regs
    have tim0 : z.tim = { s.tim with zero := false } := before.tim
    rw [regs0] at tick same defs
    refine ⟨cutoffActs z, congrArg Host.Outcome.next acts, by rw [tim], by rw [tim, tim0], by rw [tim, tim0], by rw [tim, tim0, hb], ?_, ?_, ?_, good.pending,
      fun a => ?_, fun h0 => ?_⟩
    · rw [regs, cut]
    · rw [regs, tick]
    · exact fun none_ => regs.trans (same none_)
    · have moved : reg (cutoffActs z) a = reg (cutRegs z) a := by rw [reg, regs, ← reg]
      have first : reg z a = reg s a := by rw [reg, regs0, ← reg]
      rw [moved, defs, first]
    · obtain ⟨none_, change⟩ := quiet h0
      have cpe : z.cpe = s.cpe := change .cpe (by decide)
      have tst : z.tst = s.tst := change .tst (by decide)
      have glb : z.glb = s.glb := change .glb (by decide)
      obtain ⟨cpe2, tst2, allocs⟩ := acted none_
      refine ⟨cpe2.trans cpe, tst2.trans tst, fun images tree htree h w one => ?_⟩
      have same_ : imagesFor z (z.tim.tick + 1) = [] := by
        rw [imagesFor, glb, tim0]
        exact images
      exact allocs same_ tree htree h w (by rw [chnOf_of_chn (change .chn (by decide))]; exact one)

end Sys2Proof.Machine
end

section
/-!
SUPPORT. Where the tick begins is the clock's own (R9): what the operations of the buffer, the counters and the host path leave of it.
-/

namespace Sys2Proof.Machine

-- one declaration at a time: the package is compiled as one text within a limit of memory
set_option Elab.async false

/-- What leaves the clock alone leaves the start of its tick. -/
theorem Changes.tickStart {l : List Comp} {s t : State} (h : Changes l s t) (hl : Comp.tim ∉ l := by decide) :
    t.tim.tickStart = s.tim.tickStart := congrArg Tim.tickStart (h .tim hl)

theorem Steady.tickStart {s t : State} (h : Steady s t) : t.tim.tickStart = s.tim.tickStart := congrArg Tim.tickStart h.tim

@[simp] theorem tickStart_ite {c : Prop} [Decidable c] (a b : State) :
    (if c then a else b).tim.tickStart = if c then a.tim.tickStart else b.tim.tickStart := by split <;> rfl

@[simp] theorem foldl_tickStart {α : Type} (f : State → α → State) (l : List α) (s : State)
    (h : ∀ s x, (f s x).tim.tickStart = s.tim.tickStart) : (l.foldl f s).tim.tickStart = s.tim.tickStart := by
  induction l generalizing s with
  | nil => rfl
  | cons x l ih => exact (ih _).trans (h s x)

/-! ## Operations of the whole block -/

@[simp] theorem pinRelease_tickStart (again : Bool) (s : State) : (pinRelease again s).tim.tickStart = s.tim.tickStart :=
  (changes_pinRelease again s).tickStart

@[simp] theorem pinOff_tickStart (s : State) : (pinOff s).tim.tickStart = s.tim.tickStart := by
  simp [pinOff]

@[simp] theorem faultTold_tickStart (i b : Nat) (s : State) : (faultTold i b s).tim.tickStart = s.tim.tickStart := by
  simp [faultTold]

@[simp] theorem loopAbort_tickStart (p : Loop → Bool) (s : State) : (loopAbort p s).tim.tickStart = s.tim.tickStart := by
  simp [loopAbort]

/-! ## Lanes -/

@[simp] theorem setGrp_tickStart (g : Nat) (v : Group) (s : State) : (setGrp g v s).tim.tickStart = s.tim.tickStart :=
  (changes_setGrp g v s).tickStart

@[simp] theorem laneMod_tickStart (i d : Nat) (f : Lane → Lane) (s : State) : (laneMod i d f s).tim.tickStart = s.tim.tickStart :=
  (changes_laneMod i d f s).tickStart

/-! ## The Milk Round -/

@[simp] theorem mrFlush_tickStart (k : Nat) (s : State) : (mrFlush k s).tim.tickStart = s.tim.tickStart :=
  (changes_mrFlush k s).tickStart

@[simp] theorem mrRead_tickStart (s : State) : (mrRead s).tim.tickStart = s.tim.tickStart := by
  unfold mrRead
  split <;> simp

/-! ## Samples -/

@[simp] theorem completeAs_tickStart (i : Nat) (f : SmpFrame) (s : State) : (completeAs i f s).tim.tickStart = s.tim.tickStart :=
  (changes_completeAs i f s).tickStart

@[simp] theorem complete_tickStart (i : Nat) (f : Frame) (s : State) : (complete i f s).tim.tickStart = s.tim.tickStart :=
  (changes_complete i f s).tickStart

@[simp] theorem decided_tickStart (i : Nat) (cls : Bool) (x : SmpFrame) (s : State) :
    (decided i cls x s).tim.tickStart = s.tim.tickStart := by
  simp [decided]

/-! ## Queues and the buffer -/

@[simp] theorem setQueue_tickStart (q : Nat) (l : List Token) (s : State) : (setQueue q l s).tim.tickStart = s.tim.tickStart :=
  (changes_setQueue q l s).tickStart

@[simp] theorem addChg_tickStart (q : Nat) (d : Int) (s : State) : (addChg q d s).tim.tickStart = s.tim.tickStart :=
  (changes_addChg q d s).tickStart

@[simp] theorem setFrame_tickStart (f : Nat) (v : Frame) (s : State) : (setFrame f v s).tim.tickStart = s.tim.tickStart :=
  (changes_setFrame f v s).tickStart

theorem allocOne_tickStart {s : State} {g n : Nat} {r : Nat × Nat × State} (h : allocOne s g n = some r) :
    r.2.2.tim.tickStart = s.tim.tickStart := by
  induction n generalizing g with
  | zero => cases h
  | succ n ih =>
    rw [allocOne] at h
    split at h
    · split at h
      · exact Option.some.inj h ▸ setGrp_tickStart ..
      · exact ih h
    · exact ih h

theorem allocN_tickStart {sec n : Nat} {s : State} {r : List Nat × State} (h : allocN sec n s = some r) :
    r.2.tim.tickStart = s.tim.tickStart := by
  induction n generalizing s r with
  | zero => exact Option.some.inj h ▸ rfl
  | succ n ih =>
    rw [allocN] at h
    split at h
    · cases h
    · next c g s1 h1 =>
      split at h
      · cases h
      · next l s2 h2 => exact Option.some.inj h ▸ (ih h2).trans (allocOne_tickStart h1)

@[simp] theorem setLink_tickStart (c : Nat) (w : LinkWord) (s : State) : (setLink c w s).tim.tickStart = s.tim.tickStart := by
  simp [setLink]

@[simp] theorem writeLink_tickStart (c next : Nat) (fin : Bool) (s : State) : (writeLink c next fin s).tim.tickStart = s.tim.tickStart := by
  simp [writeLink]

@[simp] theorem chainCells_tickStart (l : List Nat) (s : State) : (chainCells l s).tim.tickStart = s.tim.tickStart := by
  induction l generalizing s with
  | nil => rfl
  | cons c l ih =>
    cases l with
    | nil => simp [chainCells]
    | cons d l => simp [chainCells, ih]

@[simp] theorem deepInit_tickStart (s : State) : (deepInit s).tim.tickStart = s.tim.tickStart := by
  simp [deepInit]

@[simp] theorem takeDeep_tickStart (n : Nat) (s : State) : (takeDeep n s).2.tim.tickStart = s.tim.tickStart := by
  simp [takeDeep]

@[simp] theorem xoffOne_tickStart (k : Nat) (s : State) : (xoffOne k s).tim.tickStart = s.tim.tickStart := by
  simp [xoffOne]

@[simp] theorem portCellsAdd_tickStart (k : Nat) (d : Int) (s : State) : (portCellsAdd k d s).tim.tickStart = s.tim.tickStart := by
  simp [portCellsAdd]

@[simp] theorem addS_tickStart (d : Int) (s : State) : (addS d s).tim.tickStart = s.tim.tickStart :=
  (freed_addS d s).steady.tickStart

@[simp] theorem xoffFresh_tickStart (s : State) : (xoffFresh s).tim.tickStart = s.tim.tickStart := by
  simp [xoffFresh]

@[simp] theorem sendDone_tickStart (n : Nat) (f : Frame) (s : State) : (sendDone n f s).tim.tickStart = s.tim.tickStart :=
  (freed_sendDone n f s).steady.tickStart

@[simp] theorem freeFrame_tickStart (n : Nat) (f : Frame) (s : State) : (freeFrame n f s).tim.tickStart = s.tim.tickStart :=
  (freed_freeFrame n f s).steady.tickStart

@[simp] theorem release1_tickStart (n : Nat) (s : State) : (release1 n s).tim.tickStart = s.tim.tickStart :=
  (steady_release1 n s).tickStart

@[simp] theorem countQ_tickStart (evt q : Nat) (s : State) : (countQ evt q s).tim.tickStart = s.tim.tickStart := by
  simp [countQ]

@[simp] theorem flushQueue_tickStart (q : Nat) (s : State) : (flushQueue q s).tim.tickStart = s.tim.tickStart :=
  (changes_flushQueue q s).tickStart

@[simp] theorem idleAt_tickStart (p : Nat → Bool) (n : Nat) (s : State) : (idleAt p n s).tim.tickStart = s.tim.tickStart :=
  (changes_idleAt p n s).tickStart

@[simp] theorem idleFrame_tickStart (n : Nat) (s : State) : (idleFrame n s).tim.tickStart = s.tim.tickStart := by
  simp [idleFrame]

@[simp] theorem headGone_tickStart (q n : Nat) (s : State) : (headGone q n s).tim.tickStart = s.tim.tickStart := by
  simp [headGone]

@[simp] theorem objRefuse_tickStart (q : Nat) (s : State) : (objRefuse q s).tim.tickStart = s.tim.tickStart := by
  simp [objRefuse]

@[simp] theorem refuseQ_tickStart (evt q : Nat) (s : State) : (refuseQ evt q s).tim.tickStart = s.tim.tickStart := by
  simp [refuseQ]

@[simp] theorem wakeQ_tickStart (q : Nat) (s : State) : (wakeQ q s).tim.tickStart = s.tim.tickStart :=
  (changes_wakeQ q s).tickStart

@[simp] theorem spillRun_tickStart (n : Nat) (s : State) : (spillRun n s).tim.tickStart = s.tim.tickStart := by
  unfold spillRun
  split
  · simp
  · dsimp only
    split <;> simp

@[simp] theorem enqueue_tickStart (q part n fa f : Nat) (s : State) : (enqueue q part n fa f s).tim.tickStart = s.tim.tickStart := by
  unfold enqueue
  extract_lets sp busy mark s0 seq tok _ s1 s2 s3
  have h2 : s2.tim.tickStart = s.tim.tickStart := by simp [s2, s1, s0]
  have h3 : s3.tim.tickStart = s.tim.tickStart := by simp [s3, h2]
  clear_value s3
  split
  · split
    · exact h3
    · simp [h3]
  · exact h2

@[simp] theorem admit1_tickStart (q part n dp fa f : Nat) (s : State) : (admit1 q part n dp fa f s).1.tim.tickStart = s.tim.tickStart := by
  unfold admit1
  extract_lets o lim inS beyond keep limit s1 s2
  have h1 : s1.tim.tickStart = s.tim.tickStart := by
    unfold s1
    split
    · split <;> simp
    · rfl
  have h2 : s2.tim.tickStart = s.tim.tickStart := by
    unfold s2
    split <;> simp [h1]
  clear_value s2
  repeat' split
  all_goals simp [h2]

theorem storeFrame_tickStart {sec : Nat} {f : Frame} {s : State} {r : Nat × State} (h : storeFrame sec f s = some r) :
    r.2.tim.tickStart = s.tim.tickStart := by
  unfold storeFrame at h
  split at h
  · cases h
  · next cells s1 hs1 =>
    rw [← allocN_tickStart hs1, ← Option.some.inj h]
    dsimp only
    split <;> simp

@[simp] theorem correctCharge_tickStart (n : Nat) (s : State) : (correctCharge n s).tim.tickStart = s.tim.tickStart := by
  unfold correctCharge
  split <;> simp

@[simp] theorem freeUnheld_tickStart (n : Nat) (s : State) : (freeUnheld n s).tim.tickStart = s.tim.tickStart := by
  unfold freeUnheld
  split <;> simp

@[simp] theorem applyCtx_tickStart (q : Nat) (c : W4) (s : State) : (applyCtx q c s).tim.tickStart = s.tim.tickStart := by
  simp [applyCtx]

@[simp] theorem ctxBoundary_tickStart (s : State) : (ctxBoundary s).tim.tickStart = s.tim.tickStart := by
  simp [ctxBoundary]

@[simp] theorem pumpFetch_tickStart (k : Nat) (s : State) : (pumpFetch k s).tim.tickStart = s.tim.tickStart := by
  induction k generalizing s with
  | zero => rfl
  | succ k ih =>
    rw [pumpFetch]
    split
    · rfl
    · split
      · split <;> simp
      · refine (ih _).trans ?_
        dsimp only
        split <;> simp

@[simp] theorem pumpFetches_tickStart (s : State) : (pumpFetches s).tim.tickStart = s.tim.tickStart := by
  simp [pumpFetches]

end Sys2Proof.Machine
end

section
/-!
SUPPORT. Where the tick begins (R9) stands through a frame's way into a section, the cycles that pass, and the rings.
-/

namespace Sys2Proof.Machine

-- one declaration at a time: the package is compiled as one text within a limit of memory
set_option Elab.async false

/-! ## Classification -/

@[simp] theorem meterCharge_tickStart (k n : Nat) (yellow : Bool) (s : State) :
    (meterCharge k n yellow s).tim.tickStart = s.tim.tickStart := by
  simp [meterCharge]

@[simp] theorem meterTest_tickStart (c : CIn) (m : Nat) (s : State) : (meterTest c m s).1.tim.tickStart = s.tim.tickStart := by
  simp [meterTest]

@[simp] theorem resolve_tickStart (c : CIn) (m : CMid) (k t : Nat) (mark : Option Nat) (h : Nat) (s : State) :
    (resolve c m k t mark h s).1.tim.tickStart = s.tim.tickStart := by
  unfold resolve
  extract_lets
  repeat' split
  all_goals simp

@[simp] theorem wakeTarget_tickStart (t : Target) (s : State) : (wakeTarget t s).tim.tickStart = s.tim.tickStart := by
  unfold wakeTarget
  repeat' split
  all_goals simp

@[simp] theorem meterUe_tickStart (cap : Word) (s : State) : (meterUe cap s).tim.tickStart = s.tim.tickStart := by
  simp [meterUe]

@[simp] theorem actOn_tickStart (c : CIn) (mid : CMid) (ipck l4 act : Nat) (s : State) :
    (actOn c mid ipck l4 act s).1.tim.tickStart = s.tim.tickStart := by
  unfold actOn
  extract_lets a0 a1 a2 mt red dp mark hash fw s4 fwd cp s5 mw mk mir drop s6 qs s7
  have ht : mt.1.tim.tickStart = s.tim.tickStart := by unfold mt; split <;> simp
  have h4 : s4.tim.tickStart = s.tim.tickStart := by simp [s4, fw, ht]
  have hc : cp.1.tim.tickStart = s.tim.tickStart := by unfold cp; split <;> simp [h4]
  have h5 : s5.tim.tickStart = s.tim.tickStart := by simp [s5, hc]
  have hm : mir.1.tim.tickStart = s.tim.tickStart := by unfold mir; split <;> simp [h5]
  simp [s7, s6, hm]

@[simp] theorem classify_tickStart (c : CIn) (ue0 : Option Word) (em : Option (Option EmEntry)) (s : State) :
    (classify c ue0 em s).1.tim.tickStart = s.tim.tickStart := by
  unfold classify
  extract_lets dir ue s0 w body h ipck l4v l4 mid0 key hit mid s1 final rule s2 defs act
  have h0 : s0.tim.tickStart = s.tim.tickStart := by
    unfold s0
    cases ue0.filter fun x => fld x 28 4 == 13 <;> simp
  have h1 : s1.tim.tickStart = s.tim.tickStart := by simp [s1, h0]
  have h2 : s2.tim.tickStart = s.tim.tickStart := by cases k : rule <;> simp [s2, k, h1]
  clear_value s2
  split <;> simp [h2]

@[simp] theorem missSlices_tickStart (s : State) : (missSlices s).tim.tickStart = s.tim.tickStart :=
  (changes_missSlices s).tickStart

@[simp] theorem settleMeter_tickStart (k : Nat) (s : State) : (settleMeter k s).tim.tickStart = s.tim.tickStart :=
  (changes_settleMeter k s).tickStart

@[simp] theorem clipMeters_tickStart (s : State) : (clipMeters s).tim.tickStart = s.tim.tickStart := by
  simp [clipMeters]

@[simp] theorem clsSwapNow_tickStart (s : State) : (clsSwapNow s).tim.tickStart = s.tim.tickStart := by
  simp [clsSwapNow]

/-! ## Ports -/

@[simp] theorem modUpl_tickStart (p : Nat) (f : Upl → Upl) (s : State) : (modUpl p f s).tim.tickStart = s.tim.tickStart :=
  (changes_modUpl p f s).tickStart

/-! ## Ingress -/

@[simp] theorem laneRetire8_tickStart (i d lanes : Nat) (s : State) : (laneRetire8 i d lanes s).tim.tickStart = s.tim.tickStart := by
  simp [laneRetire8]

@[simp] theorem laneWaste8_tickStart (i d lanes evt : Nat) (s : State) : (laneWaste8 i d lanes evt s).tim.tickStart = s.tim.tickStart :=
  (changes_laneWaste8 i d lanes evt s).tickStart

@[simp] theorem lanePend_tickStart (i d n : Nat) (s : State) : (lanePend i d n s).tim.tickStart = s.tim.tickStart := by
  simp [lanePend]

@[simp] theorem laneSettle_tickStart (i d n : Nat) (s : State) : (laneSettle i d n s).tim.tickStart = s.tim.tickStart :=
  (changes_laneSettle i d n s).tickStart

@[simp] theorem wasteLanes_tickStart (i d lanes evt : Nat) (cls : Bool) (x : SmpFrame) (s : State) :
    (wasteLanes i d lanes evt cls x s).tim.tickStart = s.tim.tickStart := by
  simp [wasteLanes]

@[simp] theorem wasteAt_tickStart (i d : Nat) (a : Arrive) (evt : Nat) (cls : Bool) (x : SmpFrame) (s : State) :
    (wasteAt i d a evt cls x s).tim.tickStart = s.tim.tickStart := by
  simp [wasteAt]

@[simp] theorem secPlace_tickStart (i d n : Nat) (s : State) : (secPlace i d n s).tim.tickStart = s.tim.tickStart :=
  (changes_secPlace i d n s).tickStart

@[simp] theorem repAdd_tickStart (i : Nat) (up : Bool) (e : RepEntry) (s : State) : (repAdd i up e s).tim.tickStart = s.tim.tickStart := by
  simp [repAdd]

@[simp] theorem admitTo_tickStart (q part n dp fa f : Nat) (s : State) : (admitTo q part n dp fa f s).1.tim.tickStart = s.tim.tickStart := by
  simp [admitTo, apply_ite Prod.fst]

@[simp] theorem admitRec_tickStart (i : Nat) (up : Bool) (page : Bool) (n ino dp fa f : Nat) (qs : List (Nat × Nat)) (s : State) :
    (admitRec i up page n ino dp fa f qs s).tim.tickStart = s.tim.tickStart := by
  simp [admitRec]

@[simp] theorem withdrawIf_tickStart (n : Nat) (p : Nat → Bool) (s : State) : (withdrawIf n p s).tim.tickStart = s.tim.tickStart := by
  simp [withdrawIf]

@[simp] theorem noteLate_tickStart (n : Nat) (late : List Nat) (s : State) : (noteLate n late s).tim.tickStart = s.tim.tickStart := by
  unfold noteLate
  split <;> simp

@[simp] theorem verdict_tickStart (n i d lanes : Nat) (l4 : Bool) (s : State) :
    (verdict n i d lanes l4 s).tim.tickStart = s.tim.tickStart := by
  unfold verdict
  split <;> simp

@[simp] theorem takeStamp_tickStart (p n : Nat) (s : State) : (takeStamp p n s).tim.tickStart = s.tim.tickStart := by
  unfold takeStamp
  split <;> simp

@[simp] theorem takeIno_tickStart (x : Src) (s : State) : (takeIno x s).2.tim.tickStart = s.tim.tickStart := by
  simp [takeIno]

@[simp] theorem recvAdd_tickStart (n : Nat) (s : State) : (recvAdd n s).tim.tickStart = s.tim.tickStart := by
  unfold recvAdd
  split <;> simp

@[simp] theorem onPage_tickStart (page : Option Bool) (s : State) : (onPage page s).tim.tickStart = s.tim.tickStart := by
  unfold onPage
  split <;> simp

@[simp] theorem classifyOn_tickStart (page : Option Bool) (x : CIn) (ue : Option Word) (em : Option (Option EmEntry)) (s : State) :
    (classifyOn page x ue em s).1.tim.tickStart = s.tim.tickStart := by
  simp [classifyOn]

@[simp] theorem bufExhaust_tickStart (sec mk mn : Nat) (s : State) : (bufExhaust sec mk mn s).tim.tickStart = s.tim.tickStart := by
  simp [bufExhaust]

@[simp] theorem takeCells_tickStart (i : Nat) (a : Arrive) (s : State) : (takeCells i a s).2.tim.tickStart = s.tim.tickStart := by
  unfold takeCells
  dsimp only
  split
  · simp
  · next h => simpa using storeFrame_tickStart h

@[simp] theorem ingressAt_tickStart (i : Nat) (a : Arrive) (ue : Option Word) (s : State) : (ingressAt i a ue s).tim.tickStart = s.tim.tickStart := by
  unfold ingressAt
  extract_lets d s1 b r
  have h1 : s1.tim.tickStart = s.tim.tickStart := by simp [s1]
  have hr : r.2.tim.tickStart = s.tim.tickStart := by unfold r; split <;> simp [h1]
  simp [hr]

@[simp] theorem lookAt_tickStart (i : Nat) (a : Arrive) (ue : Option Word) (s : State) :
    (lookAt i a ue s).tim.tickStart = s.tim.tickStart := by
  simp [lookAt]

@[simp] theorem classifyAt_tickStart (i : Nat) (a : Arrive) (ue : Option Word) (em : Option EmEntry) (s : State) :
    (classifyAt i a ue em s).tim.tickStart = s.tim.tickStart := by
  simp [classifyAt]

@[simp] theorem directRes_tickStart (a : Arrive) (s : State) : (directRes a s).2.tim.tickStart = s.tim.tickStart := by
  unfold directRes
  repeat' split
  all_goals simp

@[simp] theorem verdictAt_tickStart (n i d lanes : Nat) (l4 cls : Bool) (x : SmpFrame) (s : State) :
    (verdictAt n i d lanes l4 cls x s).tim.tickStart = s.tim.tickStart := by
  simp [verdictAt]

@[simp] theorem storeAdmit_tickStart (i n : Nat) (a : Arrive) (r : CRes) (cause : Nat) (classified : Bool) (s : State) :
    (storeAdmit i n a r cause classified s).tim.tickStart = s.tim.tickStart := by
  unfold storeAdmit
  extract_lets d len f fa wide
  split
  · simp
  · next g _ =>
    extract_lets f0 s1 s2 s2a s3 late held s4
    have h2 : s2.tim.tickStart = s.tim.tickStart := by simp [s2, s1]
    have ha : s2a.tim.tickStart = s.tim.tickStart := by
      unfold s2a
      split
      · split <;> simp [h2]
      · exact h2
    have h3 : s3.tim.tickStart = s.tim.tickStart := by simp [s3, ha]
    have h4 : s4.tim.tickStart = s.tim.tickStart := by simp [s4, h3]
    simp [h3, h4]

@[simp] theorem admitAt_tickStart (i : Nat) (a : Arrive) (r : Option CRes) (s : State) :
    (admitAt i a r s).tim.tickStart = s.tim.tickStart := by
  unfold admitAt
  repeat' split
  all_goals simp

@[simp] theorem dropPipe_tickStart (p : Nat → Arrive → Bool) (s : State) : (dropPipe p s).tim.tickStart = s.tim.tickStart := by
  unfold dropPipe
  extract_lets keep
  refine (foldl_tickStart _ _ _ fun v x => ?_).trans rfl
  dsimp only
  split
  · simp
  · split <;> simp

@[simp] theorem ingress_tickStart (a : Arrive) (ue : Option Word) (s : State) : (ingress a ue s).tim.tickStart = s.tim.tickStart := by
  simp [ingress]

/-! ## Cycles that pass -/

theorem oldRate_tickStart {s r : State} (h : oldRate s = some r) : r.tim.tickStart = s.tim.tickStart := by
  unfold oldRate at h
  extract_lets at h
  split at h
  · cases h
  · exact Option.some.inj h ▸ rfl

@[simp] theorem passRate_tickStart (n : Nat) (s : State) : (passRate n s).tim.tickStart = s.tim.tickStart := by
  simp [passRate]

@[simp] theorem passClk_tickStart (n : Nat) (s : State) : (passClk n s).tim.tickStart = s.tim.tickStart := by
  unfold passClk
  split
  · simp
  · next o h =>
    have ho : o.tim.tickStart = s.tim.tickStart := by
      split at h
      · cases h
      · exact oldRate_tickStart h
    simp [ho]

theorem readOn_tickStart (a : Nat × State) : (readOn a).2.tim.tickStart = a.2.tim.tickStart := by
  unfold readOn
  split <;> simp

@[simp] theorem advanceClk_tickStart (n : Nat) (s : State) : (advanceClk n s).tim.tickStart = s.tim.tickStart := by
  have read (l : List Nat) (a : Nat × State) : (l.foldl (fun a _ => readOn a) a).2.tim.tickStart = a.2.tim.tickStart := by
    induction l generalizing a with
    | nil => rfl
    | cons x l ih => exact (ih _).trans (readOn_tickStart a)
  obtain ⟨l, e⟩ := advanceClk_readOn n s
  rw [e]
  exact (passClk_tickStart ..).trans (read l _)

/-! ## Rings -/

@[simp] theorem countR_tickStart (evt : Nat) (k : RingKind) (n amt : Nat) (s : State) :
    (countR evt k n amt s).tim.tickStart = s.tim.tickStart :=
  (paces_countR evt k n amt s).changes.tickStart

@[simp] theorem tryFetch_tickStart (k : RingKind) (n : Nat) (cover : Bool) (s : State) :
    (tryFetch k n cover s).tim.tickStart = s.tim.tickStart :=
  (changes_tryFetch k n cover s).tickStart

@[simp] theorem issueNow_tickStart (k : RingKind) (n : Nat) (s : State) : (issueNow k n s).tim.tickStart = s.tim.tickStart :=
  (changes_issueNow k n s).tickStart

@[simp] theorem bellTurn_tickStart (k : RingKind) (n : Nat) (s : State) : (bellTurn k n s).tim.tickStart = s.tim.tickStart := by
  simp [bellTurn]

/-! ## Sends -/

@[simp] theorem paceSend_tickStart (n : Nat) (s : State) : (paceSend n s).tim.tickStart = s.tim.tickStart :=
  (paces_paceSend n s).changes.tickStart

@[simp] theorem loopSend_tickStart (n peer : Nat) (b : List Byte) (o : SendOpt) (s : State) :
    (loopSend n peer b o s).tim.tickStart = s.tim.tickStart := by
  unfold loopSend
  dsimp only
  split
  · simp
  · next h => simpa using storeFrame_tickStart h

@[simp] theorem stageEnter_tickStart (g : Staged) (s : State) : (stageEnter g s).tim.tickStart = s.tim.tickStart := by
  unfold stageEnter
  split <;> simp

@[simp] theorem stageRun_tickStart (s : State) : (stageRun s).tim.tickStart = s.tim.tickStart := by
  simp [stageRun]

end Sys2Proof.Machine
end

section
/-!
SUPPORT. Where the tick begins (R9) stands through the tree ports, the selection, the slices, and the turns that fall due.
-/

namespace Sys2Proof.Machine

-- one declaration at a time: the package is compiled as one text within a limit of memory
set_option Elab.async false

/-! ## Terminals -/

@[simp] theorem setTre_tickStart (t : Nat) (r : Tre) (s : State) : (setTre t r s).tim.tickStart = s.tim.tickStart :=
  (changes_setTre t r s).tickStart

@[simp] theorem modTre_tickStart (t : Nat) (f : Tre → Tre) (s : State) : (modTre t f s).tim.tickStart = s.tim.tickStart :=
  (changes_modTre t f s).tickStart

@[simp] theorem modChn_tickStart (t : Nat) (f : Chn → Chn) (s : State) : (modChn t f s).tim.tickStart = s.tim.tickStart :=
  (changes_modChn t f s).tickStart

@[simp] theorem sendTmm_tickStart (t type tid tgt : Nat) (body : List Byte) (tickAt : Option Nat) (acked : Bool) (s : State) :
    (sendTmm t type tid tgt body tickAt acked s).tim.tickStart = s.tim.tickStart :=
  (steady_sendTmm t type tid tgt body tickAt acked s).tickStart

@[simp] theorem sendAlloc_tickStart (t tid n op : Nat) (s : State) : (sendAlloc t tid n op s).tim.tickStart = s.tim.tickStart :=
  (steady_sendAlloc t tid n op s).tickStart

@[simp] theorem syncServices_tickStart (t : Nat) (s : State) : (syncServices t s).tim.tickStart = s.tim.tickStart := by
  simp [syncServices]

/-! ## The Churn -/

@[simp] theorem applyAlloc_tickStart (t h : Nat) (w : W4) (s : State) : (applyAlloc t h w s).tim.tickStart = s.tim.tickStart :=
  (steady_applyAlloc t h w s).tickStart

@[simp] theorem shiftReports_tickStart (t : Nat) (s : State) : (shiftReports t s).tim.tickStart = s.tim.tickStart := by
  simp [shiftReports]

@[simp] theorem estTakeover_tickStart (t : Nat) (s : State) : (estTakeover t s).tim.tickStart = s.tim.tickStart := by
  simp [estTakeover]

/-! ## Reassembly -/

@[simp] theorem setReasm_tickStart (t h : Nat) (r : Reasm) (s : State) : (setReasm t h r s).tim.tickStart = s.tim.tickStart := by
  simp [setReasm]

@[simp] theorem cpqPump_tickStart (c : Nat) (s : State) : (cpqPump c s).tim.tickStart = s.tim.tickStart :=
  (steady_cpqPump c s).tickStart

/-! ## Selections -/

@[simp] theorem eraseToken_tickStart (q : Nat) (t : Token) (s : State) : (eraseToken q t s).tim.tickStart = s.tim.tickStart := by
  simp [eraseToken]

@[simp] theorem discardSel_tickStart (t : Nat) (s : State) : (discardSel t s).tim.tickStart = s.tim.tickStart := by
  unfold discardSel
  split <;> simp

@[simp] theorem assemble_tickStart (t b : Nat) (s : State) : (assemble t b s).tim.tickStart = s.tim.tickStart :=
  (steady_assemble t b s).tickStart

/-! ## Slices and power domains -/

@[simp] theorem beatReports_tickStart (s : State) : (beatReports s).tim.tickStart = s.tim.tickStart := by
  simp [beatReports]

@[simp] theorem setRole_tickStart (i : Nat) (r : Role) (s : State) : (setRole i r s).tim.tickStart = s.tim.tickStart :=
  (changes_setRole i r s).tickStart

@[simp] theorem setMode_tickStart (s : State) : (setMode s).tim.tickStart = s.tim.tickStart :=
  (changes_setMode s).tickStart

@[simp] theorem moveTree_tickStart (t h : Nat) (s : State) : (moveTree t h s).tim.tickStart = s.tim.tickStart := by
  simp [moveTree]

@[simp] theorem moveHomes_tickStart (trees ports : List Nat) (h : Nat) (s : State) :
    (moveHomes trees ports h s).tim.tickStart = s.tim.tickStart := by
  simp [moveHomes]

@[simp] theorem skimOne_tickStart (i : Nat) (s : State) : (skimOne i s).tim.tickStart = s.tim.tickStart := by
  simp [skimOne]

@[simp] theorem skimCapture_tickStart (s : State) : (skimCapture s).tim.tickStart = s.tim.tickStart := by
  simp [skimCapture]

@[simp] theorem discardCapture_tickStart (i : Nat) (s : State) : (discardCapture i s).tim.tickStart = s.tim.tickStart := by
  simp [discardCapture]

@[simp] theorem drainCipher_tickStart (i : Nat) (s : State) : (drainCipher i s).tim.tickStart = s.tim.tickStart :=
  (changes_drainCipher i s).tickStart

@[simp] theorem walkEntry_tickStart (a : List RepEntry × State) (e : RepEntry) : (walkEntry a e).2.tim.tickStart = a.2.tim.tickStart := by
  unfold walkEntry
  dsimp only
  split
  · split <;> simp
  · rfl

theorem walk_tickStart (l : List RepEntry) (a : List RepEntry × State) : (l.foldl walkEntry a).2.tim.tickStart = a.2.tim.tickStart := by
  induction l generalizing a with
  | nil => rfl
  | cons e l ih => exact (ih _).trans (walkEntry_tickStart a e)

@[simp] theorem walkRecords_tickStart (i : Nat) (s : State) : (walkRecords i s).tim.tickStart = s.tim.tickStart :=
  foldl_tickStart _ _ s fun _ _ => walk_tickStart _ _

@[simp] theorem takeRecords_tickStart (k : Nat) (s : State) : (takeRecords k s).2.tim.tickStart = s.tim.tickStart := by
  simp [takeRecords]

@[simp] theorem releaseEntries_tickStart (es : List RepEntry) (s : State) : (releaseEntries es s).tim.tickStart = s.tim.tickStart := by
  simp [releaseEntries]

@[simp] theorem loseRecords_tickStart (i : Nat) (s : State) : (loseRecords i s).2.tim.tickStart = s.tim.tickStart := by
  simp [loseRecords]

@[simp] theorem dropHeld_tickStart (i : Nat) (a : Arrive) (s : State) : (dropHeld i a s).tim.tickStart = s.tim.tickStart := by
  simp [dropHeld]

@[simp] theorem impair_tickStart (i : Nat) (s : State) : (impair i s).tim.tickStart = s.tim.tickStart := by
  simp [impair]

@[simp] theorem endRotation_tickStart (s : State) : (endRotation s).tim.tickStart = s.tim.tickStart := by
  unfold endRotation
  split <;> simp

@[simp] theorem startHandover_tickStart (i j cause : Nat) (rehome : Bool) (s : State) :
    (startHandover i j cause rehome s).tim.tickStart = s.tim.tickStart := by
  simp [startHandover]

@[simp] theorem noTaker_tickStart (i cause : Nat) (fell : List Nat) (s : State) :
    (noTaker i cause fell s).tim.tickStart = s.tim.tickStart := by
  simp [noTaker]

@[simp] theorem endReplay_tickStart (i : Nat) (s : State) : (endReplay i s).2.tim.tickStart = s.tim.tickStart := by
  unfold endReplay
  split <;> simp

@[simp] theorem takeOver_tickStart (i cause : Nat) (s : State) : (takeOver i cause s).tim.tickStart = s.tim.tickStart := by
  unfold takeOver
  repeat' split
  all_goals simp

@[simp] theorem sliceDown_tickStart (i cause : Nat) (s : State) : (sliceDown i cause s).tim.tickStart = s.tim.tickStart := by
  simp [sliceDown]

@[simp] theorem waitsOld_tickStart (t : Nat) (s : State) : (waitsOld t s).tim.tickStart = s.tim.tickStart := by
  simp [waitsOld]

@[simp] theorem loseWaiting_tickStart (h : Handover) (s : State) : (loseWaiting h s).tim.tickStart = s.tim.tickStart := by
  simp [loseWaiting]

@[simp] theorem loadingDown_tickStart (j cause : Nat) (s : State) : (loadingDown j cause s).tim.tickStart = s.tim.tickStart := by
  unfold loadingDown
  extract_lets s1
  split
  · simp [s1]
  · extract_lets rest s2
    have h2 : s2.tim.tickStart = s.tim.tickStart := by simp [s2, s1]
    simp [h2]

@[simp] theorem sliceReact_tickStart (i cause : Nat) (s : State) : (sliceReact i cause s).tim.tickStart = s.tim.tickStart := by
  unfold sliceReact
  split <;> simp

@[simp] theorem declareAt_tickStart (i cause acc : Nat) (cap0 : Word) (s : State) :
    (declareAt i cause acc cap0 s).tim.tickStart = s.tim.tickStart := by
  simp [declareAt]

@[simp] theorem declareFault_tickStart (i cause acc : Nat) (s : State) : (declareFault i cause acc s).tim.tickStart = s.tim.tickStart := by
  simp [declareFault]

@[simp] theorem modPdom_tickStart (d : Nat) (f : PDom → PDom) (s : State) : (modPdom d f s).tim.tickStart = s.tim.tickStart := by
  simp [modPdom]

@[simp] theorem askUnits_tickStart (d : Nat) (on : Bool) (s : State) : (askUnits d on s).tim.tickStart = s.tim.tickStart :=
  (changes_askUnits d on s).tickStart

@[simp] theorem endReq_tickStart (d res cause : Nat) (s : State) : (endReq d res cause s).tim.tickStart = s.tim.tickStart := by
  simp [endReq]

@[simp] theorem doneNote_tickStart (d : Nat) (s : State) : (doneNote d s).tim.tickStart = s.tim.tickStart := by
  simp [doneNote]

@[simp] theorem reqRefused_tickStart (d tgt cause : Nat) (s : State) : (reqRefused d tgt cause s).tim.tickStart = s.tim.tickStart := by
  simp [reqRefused]

@[simp] theorem startReq_tickStart (d tgt at_ : Nat) (s : State) : (startReq d tgt at_ s).tim.tickStart = s.tim.tickStart := by
  simp [startReq]

@[simp] theorem nextReq_tickStart (d : Nat) (s : State) : (nextReq d s).tim.tickStart = s.tim.tickStart := by
  unfold nextReq
  split <;> simp

@[simp] theorem wakeRecord_tickStart (d src out : Nat) (s : State) : (wakeRecord d src out s).tim.tickStart = s.tim.tickStart := by
  simp [wakeRecord]

@[simp] theorem domBack_tickStart (d : Nat) (s : State) : (domBack d s).tim.tickStart = s.tim.tickStart :=
  (changes_domBack d s).tickStart

@[simp] theorem undone_tickStart (d : Nat) (s : State) : (undone d s).tim.tickStart = s.tim.tickStart := by
  simp [undone]

@[simp] theorem dropQueues_tickStart (p : Nat) (s : State) : (dropQueues p s).tim.tickStart = s.tim.tickStart := by
  simp [dropQueues]

@[simp] theorem portDown_tickStart (p : Nat) (s : State) : (portDown p s).tim.tickStart = s.tim.tickStart := by
  simp [portDown]

@[simp] theorem fenceTree_tickStart (t : Nat) (s : State) : (fenceTree t s).tim.tickStart = s.tim.tickStart := by
  simp [fenceTree]

@[simp] theorem fencePort_tickStart (p : Nat) (s : State) : (fencePort p s).tim.tickStart = s.tim.tickStart := by
  simp [fencePort]

@[simp] theorem forcedReaction_tickStart (i b : Nat) (s : State) : (forcedReaction i b s).tim.tickStart = s.tim.tickStart := by
  simp [forcedReaction]

@[simp] theorem forceRun_tickStart (i : Nat) (data : Word) (s : State) : (forceRun i data s).tim.tickStart = s.tim.tickStart := by
  simp [forceRun]

/-! ## Turns that fall due -/

@[simp] theorem takeTurn_tickStart (x : Turn) (s : State) : (takeTurn x s).tim.tickStart = s.tim.tickStart := by
  unfold takeTurn
  split <;> simp

@[simp] theorem eachTree_tickStart (f : Nat → State → State) (s : State) (h : ∀ t s, (f t s).tim.tickStart = s.tim.tickStart) :
    (eachTree f s).tim.tickStart = s.tim.tickStart :=
  foldl_tickStart _ _ s fun s t => h t s

@[simp] theorem moveClk_tickStart (c k : Nat) (s : State) : (moveClk c k s).tim.tickStart = s.tim.tickStart := by
  induction k generalizing s with
  | zero => simp [moveClk]
  | succ k ih =>
    rw [moveClk]
    split
    · simp
    · simp [ih]

end Sys2Proof.Machine
end

section
/-!
SUPPORT. Where the tick begins (R9) stands through what a tick boundary and a beat boundary do (R22).
-/

namespace Sys2Proof.Machine

-- one declaration at a time: the package is compiled as one text within a limit of memory
set_option Elab.async false

/-! ## Turns that fall due -/

@[simp] theorem afterBoundary_tickStart (s : State) : (afterBoundary s).tim.tickStart = s.tim.tickStart := by
  simp [afterBoundary]

/-! ## The Milk Round at a boundary -/

@[simp] theorem mrTick_tickStart (s : State) : (mrTick s).tim.tickStart = s.tim.tickStart := by
  simp [mrTick]

/-! ## Downstream trees -/

@[simp] theorem txBoundary_tickStart (t : Nat) (s : State) : (txBoundary t s).tim.tickStart = s.tim.tickStart := by
  simp [txBoundary]

@[simp] theorem runSwitch_tickStart (t : Nat) (s : State) : (runSwitch t s).tim.tickStart = s.tim.tickStart := by
  unfold runSwitch
  extract_lets
  repeat' split
  all_goals simp

@[simp] theorem startTree_tickStart (t : Nat) (s : State) : (startTree t s).tim.tickStart = s.tim.tickStart := by
  simp [startTree]

/-! ## Rotations -/

@[simp] theorem setPiece_tickStart (t : Nat) (q : CpqReq) (f : Piece → Piece) (s : State) :
    (setPiece t q f s).tim.tickStart = s.tim.tickStart := by
  simp [setPiece]

@[simp] theorem loseSource_tickStart (i : Nat) (src : Src) (s : State) : (loseSource i src s).tim.tickStart = s.tim.tickStart := by
  simp [loseSource]

@[simp] theorem losePart_tickStart (i j : Nat) (x : SkimPart) (s : State) : (losePart i j x s).tim.tickStart = s.tim.tickStart := by
  unfold losePart
  split <;> simp

@[simp] theorem shadowParts_tickStart (r : Rotation) (s : State) : (shadowParts r s).tim.tickStart = s.tim.tickStart :=
  foldl_tickStart _ _ s fun v x => by cases x <;> simp

@[simp] theorem stillOwed_tickStart (s : State) : (stillOwed s).tim.tickStart = s.tim.tickStart := by
  simp [stillOwed]

@[simp] theorem rotBoundary_tickStart (s : State) : (rotBoundary s).tim.tickStart = s.tim.tickStart := by
  unfold rotBoundary
  repeat' split
  all_goals simp

/-! ## Power requests -/

@[simp] theorem request_tickStart (d tgt : Nat) (s : State) : (request d tgt s).tim.tickStart = s.tim.tickStart := by
  simp [request]

@[simp] theorem latchAns_tickStart (d : Nat) (l : List UnitAns) (s : State) : (latchAns d l s).tim.tickStart = s.tim.tickStart := by
  simp [latchAns]

@[simp] theorem startEntry_tickStart (d : Nat) (s : State) : (startEntry d s).tim.tickStart = s.tim.tickStart := by
  simp [startEntry]

@[simp] theorem treeLatch_tickStart (s : State) : (treeLatch s).tim.tickStart = s.tim.tickStart := by
  simp [treeLatch]

@[simp] theorem timerWakes_tickStart (s : State) : (timerWakes s).tim.tickStart = s.tim.tickStart := by
  simp [timerWakes]

/-! ## Writes that take effect -/

@[simp] theorem noteRefused_tickStart (a : Nat) (s : State) : (noteRefused a s).tim.tickStart = s.tim.tickStart := by
  simp [noteRefused]

@[simp] theorem uplHook_tickStart (p o : Nat) (old new : Word) (s : State) : (uplHook p o old new s).tim.tickStart = s.tim.tickStart := by
  simp [uplHook]

@[simp] theorem ritClean_tickStart (a : Nat) (s : State) : (ritClean a s).tim.tickStart = s.tim.tickStart := by
  simp [ritClean]

@[simp] theorem regHook_tickStart (a : Nat) (old new : Word) (s : State) : (regHook a old new s).tim.tickStart = s.tim.tickStart := by
  simp [regHook]

@[simp] theorem commitReg_tickStart (a : Nat) (mask data : Word) (s : State) :
    (commitReg a mask data s).tim.tickStart = s.tim.tickStart := by
  simp [commitReg]

@[simp] theorem tickRegs_tickStart (s : State) : (tickRegs s).tim.tickStart = s.tim.tickStart := by
  simp [tickRegs]

/-! ## Loops -/

@[simp] theorem vqFresh_tickStart (n : Nat) (s : State) : (vqFresh n s).tim.tickStart = s.tim.tickStart := by
  simp [vqFresh]

@[simp] theorem loopEnd_tickStart (n : Nat) (s : State) : (loopEnd n s).tim.tickStart = s.tim.tickStart := by
  simp [loopEnd]

@[simp] theorem loopSlot_tickStart (n : Nat) (s : State) : (loopSlot n s).tim.tickStart = s.tim.tickStart := by
  unfold loopSlot
  split <;> simp

@[simp] theorem loopSlots_tickStart (s : State) : (loopSlots s).tim.tickStart = s.tim.tickStart := by
  simp [loopSlots]

/-! ## Overlay images -/

@[simp] theorem imgCommit_tickStart (a : Nat) (mask data : Word) (s : State) :
    (imgCommit a mask data s).tim.tickStart = s.tim.tickStart := by
  unfold imgCommit
  split <;> simp

@[simp] theorem commitRecs_tickStart (l : List ImgRec) (s : State) : (commitRecs l s).tim.tickStart = s.tim.tickStart := by
  simp [commitRecs]

@[simp] theorem powerRecs_tickStart (l : List ImgRec) (s : State) : (powerRecs l s).tim.tickStart = s.tim.tickStart := by
  simp [powerRecs]

@[simp] theorem imageBoundary_tickStart (s : State) : (imageBoundary s).tim.tickStart = s.tim.tickStart := by
  simp [imageBoundary]

/-! ## The boundaries -/

@[simp] theorem pageSwap_tickStart (t : Nat) (s : State) : (pageSwap t s).tim.tickStart = s.tim.tickStart := by
  simp [pageSwap]

@[simp] theorem portRejoin_tickStart (s : State) (p : Nat) : (portRejoin s p).tim.tickStart = s.tim.tickStart := by
  simp [portRejoin]

@[simp] theorem ringLengths_tickStart (s : State) : (ringLengths s).tim.tickStart = s.tim.tickStart := by
  simp [ringLengths]

@[simp] theorem usStrobe_tickStart (t : Nat) (s : State) : (usStrobe t s).tim.tickStart = s.tim.tickStart := by
  simp [usStrobe]

@[simp] theorem tickStart_tickStart (s : State) : (tickStart s).tim.tickStart = s.tim.tickStart := by
  simp [tickStart]

@[simp] theorem tickRest_tickStart (s : State) : (tickRest s).tim.tickStart = s.tim.tickStart := by
  simp [tickRest]

@[simp] theorem e2eTu_tickStart (t : Nat) (u : DsTu) (s : State) : (e2eTu t u s).tim.tickStart = s.tim.tickStart := by
  unfold e2eTu
  split <;> simp

@[simp] theorem e2eBeat_tickStart (t b : Nat) (s : State) : (e2eBeat t b s).tim.tickStart = s.tim.tickStart := by
  simp [e2eBeat]

@[simp] theorem assembleAll_tickStart (t : Nat) (s : State) : (assembleAll t s).tim.tickStart = s.tim.tickStart := by
  simp [assembleAll]

@[simp] theorem beatActs_tickStart (s : State) : (beatActs s).tim.tickStart = s.tim.tickStart := by
  simp [beatActs]

@[simp] theorem boundaryActs_tickStart (s : State) : (boundaryActs s).tim.tickStart = s.tim.tickStart := by
  simp [boundaryActs]

end Sys2Proof.Machine
end

section
/-!
SUPPORT. The start of the time engine (R339): what it sets is the tick number, the beat and the cycle in which the tick begins, and the
boundary that it is leaves them.
-/

namespace Sys2Proof.Machine

section
variable {s : State}

/-- A word whose bits lie under the low `n` is below `2 ^ n`. -/
theorem toNat_lt_of_reserved {w : Word} {n : Nat} (h : w &&& ~~~BitVec.ofNat 32 (2 ^ n - 1) = 0) : w.toNat < 2 ^ n := by
  refine Nat.lt_pow_two_of_testBit _ fun i hi => ?_
  by_cases hw : i < 32
  · have above : (BitVec.ofNat 32 (2 ^ n - 1)).getLsbD i = false := by
      rw [BitVec.getLsbD_ofNat, Nat.testBit_two_pow_sub_one, decide_eq_false (Nat.not_lt.mpr hi), Bool.and_false]
    have clear : w.getLsbD i = false := by
      have bit : (w &&& ~~~BitVec.ofNat 32 (2 ^ n - 1)).getLsbD i = false := by rw [h]; exact BitVec.getLsbD_zero
      rwa [BitVec.getLsbD_and, BitVec.getLsbD_not, above, decide_eq_true hw, Bool.not_false, Bool.and_true, Bool.and_true] at bit
    exact clear
  · exact Nat.testBit_lt_two_pow (w.isLt.trans_le (Nat.pow_le_pow_right (by decide) (by omega)))

/-- TIM_TICK0 holds 48 bits, and 0 is taken as 1. -/
theorem startTick_eq (h : RegsOk s.regs) :
    (if regPair s (rTim 0x20) = 0 then 1 else regPair s (rTim 0x20)) = max 1 (regPair s (rTim 0x20) % 2 ^ 48) := by
  have hi : (reg s (rTim 0x24)).toNat < 2 ^ 16 := toNat_lt_of_reserved (h.reserved (rTim 0x24))
  have lo := (reg s (rTim 0x20)).isLt
  have below : regPair s (rTim 0x20) < 2 ^ 48 := by
    unfold regPair
    rw [show rTim 0x20 + 4 = rTim 0x24 from rfl]
    omega
  rw [Nat.mod_eq_of_lt below]
  split <;> omega

/-- R339: the engine starts in cycle 0 of beat 0 of that tick, and this is the cycle in which the tick begins. -/
theorem engineStart_starts (h : RegsOk s.regs) :
    Good ⟨s.pending, some (max 1 (regPair s (rTim 0x20) % 2 ^ 48), 0, true)⟩ (engineStart s) ∧ (engineStart s).tim.tickStart = s.tim.now := by
  have started : Good ⟨s.pending, some (max 1 (regPair s (rTim 0x20) % 2 ^ 48), 0, true)⟩ (startTime s) := by
    unfold startTime
    refine setTrace_good ⟨rfl, h, Nat.zero_lt_succ 9, fun x hx => ?_⟩
    rw [← Option.some.inj hx, ← startTick_eq h]
  unfold engineStart
  extract_lets s1
  have hs1 : s1.tim.tickStart = s.tim.now := by simp [s1, startTime, setTrace]
  exact ⟨afterBoundary_good (boundaryActs_good started.upd), by simpa using hs1⟩

/-- Where nothing falls due, the cycles up to a boundary leave the registers and the queue alone. -/
theorem toBoundary_still (h : Still s) (hr : s.cnt.round = none) (n : Nat) :
    (toBoundary n s).tim.now = s.tim.now + n ∧ (toBoundary n s).regs = s.regs ∧ (toBoundary n s).pending = s.pending := by
  unfold toBoundary
  split
  · next hn => simp [hn]
  · have pass := clockPasses_lapse h hr (n - 1)
    rw [endZero_passed (pass.zero.trans h.1), lapse_still h]
    refine ⟨?_, by simp, by simp⟩
    rw [advanceClk_now, advanceClk_now]
    omega

/-- The engine starts in the cycle that START has named, which comes first where it has not come. -/
theorem timeEngineStart_runs {at_ : Nat} (hs : s.tim.started = false) (hw : s.tim.startWait = some (false, at_)) :
    Runs .timeEngineStart s (engineStart (toBoundary (at_ + 16 - s.tim.now) (begin_ s))) := by
  show Host.Outcome.next (timeEngineStart (begin_ s)) = _
  have due : startCyc (begin_ s) = some (at_ + 16) := by simp [startCyc, begin_, hw]
  unfold timeEngineStart
  rw [due]
  simp [begin_, hs]

theorem timStart_runs (hr : Ready s) : Runs (.timStart 0) s (ctlStart (begin_ s)) :=
  congrArg Host.Outcome.next (p0Write_ready (s := begin_ s) hr rfl)

theorem ctlStart_first (hs : s.tim.started = false) (hw : s.tim.startWait = none) :
    ctlStart s = { s with tim := { s.tim with startWait := some (timSrc s, s.tim.now) } } := if_neg (by simp [hs, hw])

theorem ctlStart_later (h : s.tim.started = true ∨ s.tim.startWait ≠ none) : ctlStart s = s :=
  if_pos (by simpa [Option.isSome_iff_ne_none] using h)

theorem regPair_of_regs {t : State} (h : t.regs = s.regs) (a : Nat) : regPair t a = regPair s a := by
  unfold regPair reg
  rw [h]

end

/-- Settles O48: the start sets the clock, and the boundary that it is keeps it by the laws of its parts. -/
theorem engineStartHolds : Obligations.EngineStart := by
  unfold Obligations.EngineStart
  refine fun s => ⟨fun hr hs hw => ?_, fun hr hs => ?_, fun at_ hs hw hd hr => ?_, fun at_ hs hw hd hr hz hc => ?_, fun hw => ?_⟩
  · have first := ctlStart_first (s := begin_ s) hs hw
    exact ⟨_, timStart_runs hr, by rw [first]; rfl, by rw [first]; rfl, by rw [first]; exact changes_tim _ (begin_ s)⟩
  · exact (timStart_runs hr).trans (congrArg Host.Outcome.next (ctlStart_later (s := begin_ s) hs))
  · have run := timeEngineStart_runs hs hw
    rw [Nat.sub_eq_zero_of_le hd] at run
    have good := (engineStart_starts (s := begin_ s) hr).1
    obtain ⟨tick, beat, started⟩ := good.clock
    exact ⟨_, run, started, beat, tick, good.pending⟩
  · obtain ⟨now, regs, pending⟩ := toBoundary_still (s := begin_ s) hz hc (at_ + 16 - s.tim.now)
    obtain ⟨good, first⟩ := engineStart_starts (s := toBoundary (at_ + 16 - s.tim.now) (begin_ s)) (regs ▸ hr)
    rw [regPair_of_regs regs] at good
    obtain ⟨tick, beat, started⟩ := good.clock
    have begun : s.tim.now + (at_ + 16 - s.tim.now) = at_ + 16 := by omega
    exact ⟨_, timeEngineStart_runs hs hw, started, beat, (first.trans now).trans begun, tick, good.pending.trans pending⟩
  · have unset : startCyc (begin_ s) = none := by simp [startCyc, begin_, hw]
    show Host.Outcome.next (timeEngineStart (begin_ s)) = _
    unfold timeEngineStart
    rw [unset]
    rfl

end Sys2Proof.Machine
end
